-- ==== Sys2Proof/Word.lean ====
section
/-!
DEFINITION. The word types of the machine and the plainest facts of its numbering (spec 00: R5 to R7; 01: R13).
-/

namespace Sys2Proof

/-- One byte of memory (R6). -/
abbrev Byte := BitVec 8
/-- One lane's slice of a lane register (R13). -/
abbrev Lane := BitVec 32
/-- One scalar register (R13). -/
abbrev Word := BitVec 64
/-- The 32 values of one lane register, lane 0 first (R12, R13). -/
abbrev LaneVec := List Lane
/-- One bit per strand of a wave (R12). -/
abbrev StrandMask := BitVec 8
/-- One bit per lane of a wave (R12, R13). -/
abbrev LaneMask := BitVec 32

end Sys2Proof
end

