-- ==== Sys2Proof/Syntax.lean ====
section
/-!
DEFINITION. The instructions and steps of the machine: one constructor of `Instr` for each row of the opcode table
(spec/opcode_table.json; encodings: 03, Tables 3-2 and 3-4 to 3-7). The first part holds the encoded statements of
classes A to E; the second the steps of the device and of the outside, which have no encoding (95).
-/

namespace Sys2Proof

/-- A scalar register `s0` to `s63` (R13, R75). -/
abbrev SReg := BitVec 6
/-- A lane register `v0` to `v255` (R13, R76). -/
abbrev VReg := BitVec 8
/-- A mask register `m0` to `m15` (R13, R81). -/
abbrev MReg := BitVec 4

/-- The guard of a class B, C or D word: GUARD = INV, MASK (R80). -/
structure Guard where
  inv  : Bool
  mask : BitVec 3
deriving DecidableEq, Repr

/-- Rounding modes in the order of OP[1:0] (R91). -/
inductive Rnd where
  | rne | rtz | rup | rdn
deriving DecidableEq, Repr

/-- Lane integer relations in the order of Table 3-5. -/
inductive ICmp where
  | eq | ne | ltI | ltN | leI | leN | gtI | gtN | geI | geN
deriving DecidableEq, Repr

/-- FP32 relations in the order of Table 5-4. -/
inductive FCmp where
  | eq | ne | lt | le | gt | ge | ord | uno
deriving DecidableEq, Repr

/-- The two formats of the packed instructions (R161). -/
inductive Half where
  | bf16 | f16
deriving DecidableEq, Repr

/-- Load widths, the width index w = 0 to 6 of R92. -/
inductive LdW where
  | i8 | n8 | i16 | n16 | w32 | w64 | w128
deriving DecidableEq, Repr

/-- Store widths, the width index w = 8 to 12 of R92. -/
inductive StW where
  | b8 | b16 | b32 | b64 | b128
deriving DecidableEq, Repr

/-- Atomic operations in the order of Table 3-6 (R184). -/
inductive AtOp where
  | addI32 | addI64 | addF32 | minI | minN | maxI | maxN | and | or | xor | xchg | cas
deriving DecidableEq, Repr

/-- No-return atomics in the order of Table 3-6 (R185). -/
inductive RedOp where
  | addI32 | addI64 | addF32 | minI | minN | maxI | maxN | and | or | xor
deriving DecidableEq, Repr

/-- The memory layout's address fields (R77). -/
structure Addr where
  va  : VReg
  sb  : SReg
  ksc : BitVec 3
  off : BitVec 23
deriving DecidableEq, Repr

/-- The operands of a tensor copy: SB, SA, SC, the tag T, SD (R191). -/
structure CopyOps where
  sb  : SReg
  sa  : SReg
  sc  : SReg
  tag : Option (BitVec 6)
  sd  : SReg
deriving DecidableEq, Repr

/-- Engine kinds 0, 1, 2 (R204). -/
inductive EngKind where
  | tile | table | select
deriving DecidableEq, Repr

/-- The eight forms of `tcvt` in the order of Table 3-7. -/
inductive TcvtForm where
  | bf16Rne | bf16Sat | f16Rne | f16Sat | e4m3Rne | e4m3Sat | e5m2Rne | e5m2Sat
deriving DecidableEq, Repr

/-- Levels of `cancel` (R235). -/
inductive Lvl where
  | launch | graph | phase | job
deriving DecidableEq, Repr

/-- The key order of the select engine's flags (Table 7-5). -/
inductive SelKey where
  | n32 | i32 | f32
deriving DecidableEq, Repr

/-- The flags of `xsort`, `xtopk` and `xscan` (Table 7-5). -/
structure SelFlags where
  seg  : Bool
  desc : Bool
  pair : Bool
  key  : SelKey
deriving DecidableEq, Repr

/-- The server points of Table 10-1. -/
inductive Point where
  | port (core : Nat) | tile (core : Nat) | table (core : Nat) | select (core : Nat)
  | copy (die : Nat) | coll (engine : Nat) | chan (channel : Nat) | eutrix (port : Nat)
deriving DecidableEq, Repr

/-- The wires a host request arrives on: its IDE stream and T bit (R337). -/
structure Wire where
  stream : Option Nat
  tbit   : Bool
deriving DecidableEq, Repr

/-- The operands of CTXCREATE (Table 12-3). -/
structure CtxArgs where
  ctx      : Nat
  fn       : Nat
  root     : Nat
  ctab     : Nat
  mbox     : Nat
  ptag     : Nat
  code     : Nat
  regs     : Nat
  cancelUs : Nat
  energy   : Nat
  atom     : Bool
deriving DecidableEq, Repr

/-- The operands of SERVER (Table 10-2); an issue-port group has six budgets and periods. -/
structure ServerArgs where
  ctx   : Nat
  point : Point
  cls   : Nat
  q     : List Nat
  t     : List Nat
  pmax  : Nat
  ways  : Nat
  route : List Nat
  /-- Every other package on ROUTE accepts the binding (R292). -/
  agreed : Bool
deriving DecidableEq, Repr

/-- A rank of a communicator record (R341). -/
structure RankRec where
  pkg    : Nat
  engine : Nat
  ctx    : Nat
deriving DecidableEq, Repr

/-- A communicator record (R341). -/
structure Comm where
  size  : Nat
  rank  : Nat
  ranks : List RankRec
  vc    : Nat
  ptag  : Nat
deriving DecidableEq, Repr

/-- The target of PREEMPT and RELEASE (R311). -/
inductive PreTarget where
  | ctx (n : Nat) | fn (n : Nat)
deriving DecidableEq, Repr

/-- The operands of PARTSET (R340). -/
inductive PartArgs where
  | port (port : Nat) (allowed : List Nat)
  | tag (tag : Nat) (home : Option Nat)
deriving DecidableEq, Repr

/-- The operand of RETIRE (R295, R362). -/
inductive RetireArgs where
  | core (n : Nat) | channel (n : Nat)
deriving DecidableEq, Repr

/-- What a request of another package asks of a home here (R272, R338). -/
inductive RemoteAsk where
  | read (n : Nat)
  /-- Bytes, and the checks that travel with the sectors they touch (R260). -/
  | write (bytes : List Byte) (checks : List (BitVec 16))
  /-- Bytes of a copy piece, sector by sector, the bits of them that are written (R275, R380), and their sectors' checks. -/
  | copy (bytes mask : List Byte) (checks : List (BitVec 16))
  /-- Bytes that a copy piece reads (R290). -/
  | copyRead (n : Nat)
  | atomic (op : AtOp) (a b : BitVec 64)
  /-- `cinc`, and the pointer update of `cmpst` by a number of words (R134, R186). -/
  | cinc (a : BitVec 64)
  | append (words : Nat)
  /-- The stamp of a copy (R196). -/
  | stamp (skip : Bool)
  /-- A completion object's 16 bytes; its home fills LTS with the time of the write when COUNT is zero (R37, R38). -/
  | object (count flags : Nat)
  /-- A monitor (R129, R130): the line's write time; with a time, the answer comes with the first write that is later. -/
  | watch (after : Option Nat)
deriving DecidableEq, Repr

/-- A request packet of another package: tag, requester's clock, address, reply name (R272, R338). -/
structure RemotePkt where
  src   : Nat
  ptag  : Nat
  vc    : Nat
  clock : Nat
  pa    : Nat
  ask   : RemoteAsk
  name  : Nat
deriving DecidableEq, Repr

/-- How a reply to a request of this package ends (R257, R310, R340, R345). -/
inductive RemoteEnd where
  | done (t : Nat) (bytes : List Byte)
  | xlate | rights | integrity
deriving DecidableEq, Repr

/-- What an arriving packet is (Table 12-6, TYPE). -/
inductive PktBody where
  | request (p : RemotePkt)
  | reply (name : Nat) (e : RemoteEnd)
  /-- READY, a barrier message too, with the sender's clock (R376). -/
  | ready (coll peer clock : Nat)
  | cts (coll peer chunk clock : Nat)
  | chunk (coll peer chunk clock : Nat) (bytes : List Byte)
  /-- A rank's collective has failed: cause and rank (R226). -/
  | failure (coll cause rank : Nat)
deriving DecidableEq, Repr

/-- The header of a flit but for its FCRC (Table 12-6). -/
structure FlitHead where
  vc    : Nat
  ptag  : Nat
  type  : Nat
  first : Bool
  last  : Bool
  dst   : Nat
  src   : Nat
  flow  : Nat
  lseq  : Nat
deriving DecidableEq, Repr

/-- A flit that arrives: its header, and whether its FCRC holds (R338). -/
structure FlitIn where
  head  : FlitHead
  crcOk : Bool
deriving DecidableEq, Repr

/-- A packet at a port: virtual channel, partition tag, source, flits, the queue of a message between ranks (16 for none; log
entry 107), body (R338). -/
structure Packet where
  vc    : Nat
  ptag  : Nat
  peer  : Nat
  flits : Nat
  queue : Nat
  body  : PktBody
deriving DecidableEq, Repr

/-- A register of a wave (R13, R15): a lane of a lane register, a mask register, a scalar register of a strand, a special
register as a strand sees it. -/
inductive RegName where
  | lane (v l : Nat) | mask (m : Nat) | scalar (t s : Nat) | special (t n : Nat)
deriving DecidableEq, Repr

/-- An error of storage (R254, R263; log entry 6): where it stands, by the numbers of its unit. -/
inductive SoftError where
  | none
  /-- A single bit, corrected in place and counted. -/
  | corrected
  /-- A register: the instruction that reads it next meets the error. -/
  | register (wave : Nat) (reg : RegName)
  /-- A 64-bit word of a local space: 0 scratchpad, 1 `wbuf`, 2 `abuf`, 3 `acc`. -/
  | localWord (core space word : Nat)
  | l1 (core line : Nat)
  | icache (core va : Nat)
  | tlb (core vpn : Nat)
  /-- The data of a sector in the LLC, or in memory: what its bytes become. -/
  | llcData (sector : Nat) (bytes : List (BitVec 8))
  | dram (sector : Nat) (bytes : List (BitVec 8))
  /-- A spill slot in device-private memory (R188): what its carried check now differs by. -/
  | spill (wave slot : Nat) (flaw : BitVec 16)
  | llcTag (line : Nat)
deriving DecidableEq, Repr

/-- An eviction of a line, with the error that may come beside it. -/
structure Eviction where
  line  : Nat
  error : SoftError
deriving DecidableEq, Repr

/-- A message of the IDE key-management protocol (R337). -/
inductive IdeKm where
  | program (stream : Nat) (key : Nat)
  | stop (stream : Nat)
deriving DecidableEq, Repr

/-- One constructor per row of spec/opcode_table.json. -/
inductive Instr where
  /-- ADD (R105, R106). -/
  | add (d a b : SReg)
  /-- SUB (R105, R106). -/
  | sub (d a b : SReg)
  /-- MUL (R105, R106). -/
  | mul (d a b : SReg)
  /-- MULH_I (R105, R106). -/
  | mulhI (d a b : SReg)
  /-- MULH_N (R105, R106). -/
  | mulhN (d a b : SReg)
  /-- DIV_I (R105, R106). -/
  | divI (d a b : SReg)
  /-- DIV_N (R105, R106). -/
  | divN (d a b : SReg)
  /-- REM_I (R105, R106). -/
  | remI (d a b : SReg)
  /-- REM_N (R105, R106). -/
  | remN (d a b : SReg)
  /-- AND (R105, R106). -/
  | and (d a b : SReg)
  /-- OR (R105, R106). -/
  | or (d a b : SReg)
  /-- XOR (R105, R106). -/
  | xor (d a b : SReg)
  /-- ANDN (R105, R106). -/
  | andn (d a b : SReg)
  /-- SHL (R105, R106). -/
  | shl (d a b : SReg)
  /-- SHR_N (R105, R106). -/
  | shrN (d a b : SReg)
  /-- SHR_I (R105, R106). -/
  | shrI (d a b : SReg)
  /-- ROT (R105, R106). -/
  | rot (d a b : SReg)
  /-- MIN_I (R105, R106). -/
  | minI (d a b : SReg)
  /-- MIN_N (R105, R106). -/
  | minN (d a b : SReg)
  /-- MAX_I (R105, R106). -/
  | maxI (d a b : SReg)
  /-- MAX_N (R105, R106). -/
  | maxN (d a b : SReg)
  /-- SEL (R107). -/
  | sel (d a b c : SReg)
  /-- LEA (R107). -/
  | lea (d a b : SReg) (k : BitVec 6)
  /-- CLZ (R107). -/
  | clz (d a : SReg)
  /-- CTZ (R107). -/
  | ctz (d a : SReg)
  /-- POPC (R107). -/
  | popc (d a : SReg)
  /-- SEXT (R107; n is the field C, the width less one). -/
  | sext (d a : SReg) (n : BitVec 6)
  /-- ZEXT (R107; n is the field C, the width less one). -/
  | zext (d a : SReg) (n : BitVec 6)
  /-- MOV (R107). -/
  | mov (d a : SReg)
  /-- CMP_EQ (R108). -/
  | cmpEq (d a b : SReg)
  /-- CMP_NE (R108). -/
  | cmpNe (d a b : SReg)
  /-- CMP_LT_I (R108). -/
  | cmpLtI (d a b : SReg)
  /-- CMP_LT_N (R108). -/
  | cmpLtN (d a b : SReg)
  /-- CMP_LE_I (R108). -/
  | cmpLeI (d a b : SReg)
  /-- CMP_LE_N (R108). -/
  | cmpLeN (d a b : SReg)
  /-- ADDI (R109). -/
  | addi (d a : SReg) (i : BitVec 12)
  /-- ANDI (R109). -/
  | andi (d a : SReg) (i : BitVec 12)
  /-- ORI (R109). -/
  | ori (d a : SReg) (i : BitVec 12)
  /-- XORI (R109). -/
  | xori (d a : SReg) (i : BitVec 12)
  /-- SHLI (R109). -/
  | shli (d a : SReg) (k : BitVec 6)
  /-- SHRI_N (R109). -/
  | shriN (d a : SReg) (k : BitVec 6)
  /-- SHRI_I (R109). -/
  | shriI (d a : SReg) (k : BitVec 6)
  /-- LI (R110). -/
  | li (d : SReg) (i : BitVec 18)
  /-- LIH (R110). -/
  | lih (d : SReg) (i : BitVec 16)
  /-- BR (R112). -/
  | br (o : BitVec 20)
  /-- CALL (R112). -/
  | call (o : BitVec 20)
  /-- BZ (R112). -/
  | bz (d : SReg) (o : BitVec 18)
  /-- BNZ (R112). -/
  | bnz (d : SReg) (o : BitVec 18)
  /-- BMANY (R113). -/
  | bmany (c : MReg) (o : BitVec 20)
  /-- BMALL (R113). -/
  | bmall (c : MReg) (o : BitVec 20)
  /-- BMNONE (R113). -/
  | bmnone (c : MReg) (o : BitVec 20)
  /-- JR (R114). -/
  | jr (a : SReg)
  /-- RET (R114). -/
  | ret
  /-- TRAP (R119). -/
  | trap (code : BitVec 12)
  /-- RETT (R121). -/
  | rett
  /-- WAIT (R115; all ones: not waited on). -/
  | wait (ld st : BitVec 6) (cp : BitVec 5) (tl : BitVec 4) (fx : BitVec 3)
  /-- SGET (R116). -/
  | sget (d : SReg) (n : BitVec 12)
  /-- SSET (R117). -/
  | sset (a : SReg) (n : BitVec 12)
  /-- CCLR_REG (R118). -/
  | cclrReg (a : SReg)
  /-- CCLR_IMM (R118). -/
  | cclrImm (c : BitVec 6)
  /-- REGREL (R123; n is the field C, registers / 8). -/
  | regrel (n : BitVec 6)
  /-- REGCLM (R123). -/
  | regclm (n : BitVec 6)
  /-- MGET (R124). -/
  | mget (d : SReg) (a : MReg)
  /-- MSET (R124). -/
  | mset (d : MReg) (a : SReg)
  /-- MAND (R125). -/
  | mand (d a b : MReg)
  /-- MOR (R125). -/
  | mor (d a b : MReg)
  /-- MXOR (R125). -/
  | mxor (d a b : MReg)
  /-- MANDN (R125). -/
  | mandn (d a b : MReg)
  /-- MNOT (R125). -/
  | mnot (d a : MReg)
  /-- MPOP (R126). -/
  | mpop (d : SReg) (a : MReg)
  /-- MFFS (R126). -/
  | mffs (d : SReg) (a : MReg)
  /-- SLD_8 (R127). -/
  | sld8 (d a : SReg) (i : BitVec 12)
  /-- SLD_16 (R127). -/
  | sld16 (d a : SReg) (i : BitVec 12)
  /-- SLD_32 (R127). -/
  | sld32 (d a : SReg) (i : BitVec 12)
  /-- SLD_64 (R127). -/
  | sld64 (d a : SReg) (i : BitVec 12)
  /-- SST_8 (R127). -/
  | sst8 (d a : SReg) (i : BitVec 12)
  /-- SST_16 (R127). -/
  | sst16 (d a : SReg) (i : BitVec 12)
  /-- SST_32 (R127). -/
  | sst32 (d a : SReg) (i : BitVec 12)
  /-- SST_64 (R127). -/
  | sst64 (d a : SReg) (i : BitVec 12)
  /-- MON (R129). -/
  | mon (a : SReg) (i : BitVec 12)
  /-- MWAIT (R130). -/
  | mwait (a : SReg)
  /-- TAGWAIT_ANY (R132). -/
  | tagwaitAny (a : SReg)
  /-- TAGWAIT_ALL (R132). -/
  | tagwaitAll (a : SReg)
  /-- TAGFFS (R133). -/
  | tagffs (d a : SReg)
  /-- CINC (R134). -/
  | cinc (d a : SReg) (i : BitVec 12)
  /-- BBINIT (R136). -/
  | bbinit (d a : SReg) (i : BitVec 12)
  /-- BBEXP (R137). -/
  | bbexp (d a : SReg) (i : BitVec 12)
  /-- BBEXP_NUM (R139). -/
  | bbexpNum (d : SReg) (b : BitVec 4)
  /-- BBWAIT (R138). -/
  | bbwait (a : SReg) (i : BitVec 12)
  /-- BBWAIT_NUM (R139). -/
  | bbwaitNum (b : BitVec 4)
  /-- NOP (R140). -/
  | nop
  /-- YIELD (R141). -/
  | yield
  /-- REGANG (R19, R142). -/
  | regang (m : StrandMask)
  /-- EXIT (R143). -/
  | exit
  /-- BRK (R120). -/
  | brk (code : BitVec 8)
  /-- TRIGGER (R145). -/
  | trigger
  /-- PAD (R84). -/
  | pad
  /-- ILLEGAL_ENCODING (R82: what the decoder answers for bytes that are no instruction). -/
  | illegalEncoding
  /-- IADD (R150). -/
  | iadd (g : Guard) (d a b : VReg)
  /-- ISUB (R150). -/
  | isub (g : Guard) (d a b : VReg)
  /-- IMUL (R150). -/
  | imul (g : Guard) (d a b : VReg)
  /-- IMULH_I (R150). -/
  | imulhI (g : Guard) (d a b : VReg)
  /-- IMULH_N (R150). -/
  | imulhN (g : Guard) (d a b : VReg)
  /-- IMAD (R150). -/
  | imad (g : Guard) (d a b c : VReg)
  /-- IABS (R150). -/
  | iabs (g : Guard) (d a : VReg)
  /-- INEG (R150). -/
  | ineg (g : Guard) (d a : VReg)
  /-- IMIN_I (R150). -/
  | iminI (g : Guard) (d a b : VReg)
  /-- IMIN_N (R150). -/
  | iminN (g : Guard) (d a b : VReg)
  /-- IMAX_I (R150). -/
  | imaxI (g : Guard) (d a b : VReg)
  /-- IMAX_N (R150). -/
  | imaxN (g : Guard) (d a b : VReg)
  /-- LANE_AND (R150). -/
  | laneAnd (g : Guard) (d a b : VReg)
  /-- LANE_OR (R150). -/
  | laneOr (g : Guard) (d a b : VReg)
  /-- LANE_XOR (R150). -/
  | laneXor (g : Guard) (d a b : VReg)
  /-- LANE_ANDN (R150). -/
  | laneAndn (g : Guard) (d a b : VReg)
  /-- NOT (R150). -/
  | not (g : Guard) (d a : VReg)
  /-- LANE_SHL (R151). -/
  | laneShl (g : Guard) (d a b : VReg)
  /-- LANE_SHR_I (R151). -/
  | laneShrI (g : Guard) (d a b : VReg)
  /-- LANE_SHR_N (R151). -/
  | laneShrN (g : Guard) (d a b : VReg)
  /-- LANE_ROT (R151). -/
  | laneRot (g : Guard) (d a b : VReg)
  /-- BFE_I (R151). -/
  | bfeI (g : Guard) (d a : VReg) (pos len : BitVec 8)
  /-- BFE_N (R151). -/
  | bfeN (g : Guard) (d a : VReg) (pos len : BitVec 8)
  /-- BFI (R151). -/
  | bfi (g : Guard) (d a : VReg) (pos len : BitVec 8)
  /-- LANE_POPC (R150). -/
  | lanePopc (g : Guard) (d a : VReg)
  /-- LANE_CLZ (R150). -/
  | laneClz (g : Guard) (d a : VReg)
  /-- BREV (R150). -/
  | brev (g : Guard) (d a : VReg)
  /-- LANE_SEL (R152). -/
  | laneSel (g : Guard) (d a b : VReg) (c : MReg)
  /-- ICMP (R153). -/
  | icmp (cc : ICmp) (g : Guard) (d : MReg) (a b : VReg)
  /-- DP4_I (R154). -/
  | dp4I (g : Guard) (d a b c : VReg)
  /-- DP4_N (R154). -/
  | dp4N (g : Guard) (d a b c : VReg)
  /-- ADD64 (R154). -/
  | add64 (g : Guard) (d a b : VReg)
  /-- MAD64_N (R154). -/
  | mad64N (g : Guard) (d a b c : VReg)
  /-- LEA64 (R154). -/
  | lea64 (g : Guard) (d a b : VReg) (k : BitVec 8)
  /-- FADD (R155). -/
  | fadd (r : Rnd) (g : Guard) (d a b : VReg)
  /-- FSUB (R155). -/
  | fsub (r : Rnd) (g : Guard) (d a b : VReg)
  /-- FMUL (R155). -/
  | fmul (r : Rnd) (g : Guard) (d a b : VReg)
  /-- FMA (R155). -/
  | fma (r : Rnd) (g : Guard) (d a b c : VReg)
  /-- FMIN (R156). -/
  | fmin (g : Guard) (d a b : VReg)
  /-- FMAX (R156). -/
  | fmax (g : Guard) (d a b : VReg)
  /-- FMINN (R156). -/
  | fminn (g : Guard) (d a b : VReg)
  /-- FMAXN (R156). -/
  | fmaxn (g : Guard) (d a b : VReg)
  /-- FABS (R157). -/
  | fabs (g : Guard) (d a : VReg)
  /-- FNEG (R157). -/
  | fneg (g : Guard) (d a : VReg)
  /-- FCMP (R158). -/
  | fcmp (cc : FCmp) (g : Guard) (d : MReg) (a b : VReg)
  /-- FFLOOR (R159). -/
  | ffloor (g : Guard) (d a : VReg)
  /-- FCEIL (R159). -/
  | fceil (g : Guard) (d a : VReg)
  /-- FTRUNC (R159). -/
  | ftrunc (g : Guard) (d a : VReg)
  /-- FRND (R159). -/
  | frnd (g : Guard) (d a : VReg)
  /-- FCLASS (R159). -/
  | fclass (g : Guard) (d a : VReg)
  /-- FDIV_RNE (R160). -/
  | fdivRne (g : Guard) (d a b : VReg)
  /-- FSQRT_RNE (R160). -/
  | fsqrtRne (g : Guard) (d a : VReg)
  /-- FRCP (R160). -/
  | frcp (g : Guard) (d a : VReg)
  /-- FRSQ (R160). -/
  | frsq (g : Guard) (d a : VReg)
  /-- FEXP2 (R160). -/
  | fexp2 (g : Guard) (d a : VReg)
  /-- FLOG2 (R160). -/
  | flog2 (g : Guard) (d a : VReg)
  /-- FSINPI (R160). -/
  | fsinpi (g : Guard) (d a : VReg)
  /-- FCOSPI (R160). -/
  | fcospi (g : Guard) (d a : VReg)
  /-- HADD2 (R161). -/
  | hadd2 (h : Half) (g : Guard) (d a b : VReg)
  /-- HMUL2 (R161). -/
  | hmul2 (h : Half) (g : Guard) (d a b : VReg)
  /-- HFMA2 (R161). -/
  | hfma2 (h : Half) (g : Guard) (d a b c : VReg)
  /-- CVT_I32_F32 (R163). -/
  | cvtI32F32 (r : Rnd) (g : Guard) (d a : VReg)
  /-- CVT_N32_F32 (R163). -/
  | cvtN32F32 (r : Rnd) (g : Guard) (d a : VReg)
  /-- CVT_F32_I32 (R164). -/
  | cvtF32I32 (r : Rnd) (g : Guard) (d a : VReg)
  /-- CVT_F32_N32 (R164). -/
  | cvtF32N32 (r : Rnd) (g : Guard) (d a : VReg)
  /-- CVT_BF16_F32 (R165; tz: the .rtz form). -/
  | cvtBf16F32 (tz : Bool) (g : Guard) (d a : VReg)
  /-- CVT_F16_F32 (R165; tz: the .rtz form). -/
  | cvtF16F32 (tz : Bool) (g : Guard) (d a : VReg)
  /-- CVT_E4M3_F32 (R166; nan: the .nan form). -/
  | cvtE4m3F32 (nan : Bool) (g : Guard) (d a : VReg)
  /-- CVT_E5M2_F32 (R166; inf: the .inf form). -/
  | cvtE5m2F32 (inf : Bool) (g : Guard) (d a : VReg)
  /-- CVT_E2M1_F32 (R166). -/
  | cvtE2m1F32 (g : Guard) (d a : VReg)
  /-- CVT_F32_BF16 (R167). -/
  | cvtF32Bf16 (g : Guard) (d a : VReg)
  /-- CVT_F32_F16 (R167). -/
  | cvtF32F16 (g : Guard) (d a : VReg)
  /-- CVT_F32_E4M3 (R167). -/
  | cvtF32E4m3 (g : Guard) (d a : VReg)
  /-- CVT_F32_E5M2 (R167). -/
  | cvtF32E5m2 (g : Guard) (d a : VReg)
  /-- CVT_F32_E2M1 (R167). -/
  | cvtF32E2m1 (g : Guard) (d a : VReg)
  /-- SHFL_IDX (R169). -/
  | shflIdx (g : Guard) (d a b : VReg)
  /-- SHFL_XOR (R169). -/
  | shflXor (g : Guard) (d a : VReg) (n : BitVec 8)
  /-- SHFL_UP (R169). -/
  | shflUp (g : Guard) (d a : VReg) (n : BitVec 8)
  /-- SHFL_DN (R169). -/
  | shflDn (g : Guard) (d a : VReg) (n : BitVec 8)
  /-- VOTE_ANY (R171). -/
  | voteAny (g : Guard) (d a : MReg)
  /-- VOTE_ALL (R171). -/
  | voteAll (g : Guard) (d a : MReg)
  /-- VOTE_BALLOT (R171). -/
  | voteBallot (g : Guard) (d : VReg) (a : MReg)
  /-- RED_ADD_I (R172). -/
  | redAddI (g : Guard) (d a : VReg)
  /-- RED_ADD_F32 (R172). -/
  | redAddF32 (g : Guard) (d a : VReg)
  /-- RED_MIN (R172). -/
  | redMin (g : Guard) (d a : VReg)
  /-- RED_MAX (R172). -/
  | redMax (g : Guard) (d a : VReg)
  /-- SCAN_ADD_I (R172). -/
  | scanAddI (g : Guard) (d a : VReg)
  /-- SCAN_ADD_F32 (R172). -/
  | scanAddF32 (g : Guard) (d a : VReg)
  /-- MATCH (R173). -/
  | matchLanes (g : Guard) (d a : VReg)
  /-- BCAST (R170). -/
  | bcast (g : Guard) (d a : VReg) (k : BitVec 8)
  /-- BSCALE (R174). -/
  | bscale (g : Guard) (d a : VReg) (f : BitVec 8)
  /-- LD (R180). -/
  | ld (w : LdW) (g : Guard) (d : VReg) (m : Addr)
  /-- ST (R180). -/
  | st (w : StW) (g : Guard) (d : VReg) (m : Addr)
  /-- LDP (R180). -/
  | ldp (w : LdW) (g : Guard) (d va : VReg) (off : BitVec 23)
  /-- STP (R180). -/
  | stp (w : StW) (g : Guard) (d va : VReg) (off : BitVec 23)
  /-- LDL (R180). -/
  | ldl (w : LdW) (g : Guard) (d : VReg) (m : Addr)
  /-- STL (R180). -/
  | stl (w : StW) (g : Guard) (d : VReg) (m : Addr)
  /-- LDT (R181; SBASE names the member). -/
  | ldt (w : LdW) (g : Guard) (d : VReg) (m : Addr)
  /-- STT (R181). -/
  | stt (w : StW) (g : Guard) (d : VReg) (m : Addr)
  /-- WLD (R182). -/
  | wld (g : Guard) (d : VReg) (m : Addr)
  /-- WST (R182). -/
  | wst (g : Guard) (d : VReg) (m : Addr)
  /-- ALD (R182). -/
  | ald (g : Guard) (d : VReg) (m : Addr)
  /-- AST (R182). -/
  | ast (g : Guard) (d : VReg) (m : Addr)
  /-- ACCLD (R182). -/
  | accld (g : Guard) (d : VReg) (m : Addr)
  /-- ACCST (R182). -/
  | accst (g : Guard) (d : VReg) (m : Addr)
  /-- ATOM (R184). -/
  | atom (op : AtOp) (g : Guard) (d : VReg) (m : Addr)
  /-- ATL (R184). -/
  | atl (op : AtOp) (g : Guard) (d : VReg) (m : Addr)
  /-- RED_ATOMIC (R185). -/
  | redAtomic (op : RedOp) (g : Guard) (d : VReg) (m : Addr)
  /-- CMPST (R186). -/
  | cmpst (g : Guard) (d : VReg) (sb : SReg) (off : BitVec 23)
  /-- CMPST_L (R186). -/
  | cmpstL (g : Guard) (d : VReg) (sb : SReg) (off : BitVec 23)
  /-- PF (R187). -/
  | pf (g : Guard) (m : Addr)
  /-- SPILL (R189). -/
  | spill (d : VReg) (slot : BitVec 8)
  /-- FILL (R189). -/
  | fill (d : VReg) (slot : BitVec 8)
  /-- IADDI (R190). -/
  | iaddi (g : Guard) (d a : VReg) (i : BitVec 32)
  /-- IMULI (R190). -/
  | imuli (g : Guard) (d a : VReg) (i : BitVec 32)
  /-- LANE_ANDI (R190). -/
  | laneAndi (g : Guard) (d a : VReg) (i : BitVec 32)
  /-- LANE_ORI (R190). -/
  | laneOri (g : Guard) (d a : VReg) (i : BitVec 32)
  /-- LANE_XORI (R190). -/
  | laneXori (g : Guard) (d a : VReg) (i : BitVec 32)
  /-- MOVI (R190). -/
  | movi (g : Guard) (d : VReg) (i : BitVec 32)
  /-- ICMPI (R190). -/
  | icmpi (cc : ICmp) (g : Guard) (d : MReg) (a : VReg) (i : BitVec 32)
  /-- TCPY_G2A (R191, R192). -/
  | tcpyG2a (o : CopyOps)
  /-- TCPY_G2W (R191, R192). -/
  | tcpyG2w (o : CopyOps)
  /-- TCPY_A2G (R191, R192). -/
  | tcpyA2g (o : CopyOps)
  /-- TCPY_G2L (R191, R192). -/
  | tcpyG2l (o : CopyOps)
  /-- TCPY_L2G (R191, R192). -/
  | tcpyL2g (o : CopyOps)
  /-- TCPY_G2G (R191, R192). -/
  | tcpyG2g (o : CopyOps)
  /-- TCPY_G2G_STAMP (R191, R192). -/
  | tcpyG2gStamp (o : CopyOps)
  /-- CFPOP (R199). -/
  | cfpop (d : SReg)
  /-- CFRSM_RETRY (R200). -/
  | cfrsmRetry (a : SReg)
  /-- CFRSM_SKIP (R200). -/
  | cfrsmSkip (a : SReg)
  /-- CFRSM_FILL (R200). -/
  | cfrsmFill (a b : SReg)
  /-- KINDLE (R204). -/
  | kindle (k : EngKind)
  /-- KINDLE_NB (R205). -/
  | kindleNb (d : SReg) (k : EngKind)
  /-- DOUSE (R207). -/
  | douse (k : EngKind)
  /-- LSTAT (R206). -/
  | lstat (d a : SReg)
  /-- TMMA (R212). -/
  | tmma (v : VReg) (d a b c : SReg)
  /-- TMMA_Z (R212). -/
  | tmmaZ (v : VReg) (d a b c : SReg)
  /-- TMMA_X2 (R212). -/
  | tmmaX2 (v : VReg) (d a b c : SReg)
  /-- TZERO (R217). -/
  | tzero (d c : SReg)
  /-- TCVT (R217). -/
  | tcvt (f : TcvtForm) (b d c : SReg) (s : BitVec 8)
  /-- TDLOAD (R218). -/
  | tdload (a : SReg)
  /-- TSTAT (R216). -/
  | tstat (d : SReg)
  /-- FTLOAD (R219). -/
  | ftload (slot : BitVec 2) (a : SReg)
  /-- FTEVL (R220). -/
  | ftevl (g : Guard) (d a : VReg) (slot : BitVec 2)
  /-- XSORT (R222). -/
  | xsort (d a b : SReg) (f : SelFlags)
  /-- XTOPK (R222). -/
  | xtopk (d a b c : SReg) (f : SelFlags)
  /-- XSCAN (R222). -/
  | xscan (d a b : SReg) (f : SelFlags)
  /-- CPOST (R225). -/
  | cpost (a : SReg) (q : BitVec 4)
  /-- CTRIG (R227). -/
  | ctrig (a b c : SReg)
  /-- SPAWN (R229). -/
  | spawn (a b : SReg)
  /-- LAUNCH (R230). -/
  | launch (a : SReg)
  /-- CANCEL (R235). -/
  | cancel (l : Lvl) (a : SReg)
  /-- SUSP (R236). -/
  | susp (d a : SReg) (team noBuf : Bool)
  /-- RESUME (R238). -/
  | resume (a : SReg)
  /-- CDROP (R241). -/
  | cdrop (a : SReg)
  /-- CCLONE (R240). -/
  | cclone (d a b : SReg)
  /-- ISSUE_SELECT (R286). -/
  | issueSelect (core port : Nat)
  /-- ICACHE_FILL (R87). -/
  | icacheFill (core ctx va : Nat)
  /-- PAGE_WALK (R258). -/
  | pageWalk (core ctx va : Nat)
  /-- LOAD_COMPLETE (R177). -/
  | loadComplete (op : Nat)
  /-- STORE_PERFORM (R268). -/
  | storePerform (op lane : Nat)
  /-- HOME_LOAD (R267, R271; lease is the L that the home chooses). -/
  | homeLoad (op lane lease : Nat) (useL1 : Bool)
  /-- HOME_ATOMIC (R269). -/
  | homeAtomic (op lane : Nat)
  /-- LLC_EVICT (R266, R250). -/
  | llcEvict (x : Eviction)
  /-- MEM_LINE_TRANSFER (R254). -/
  | memLineTransfer (channel : Nat)
  /-- DEFERRED_REPORT (R178). -/
  | deferredReport (wave : Nat)
  /-- MWAIT_TIMEOUT (R130). -/
  | mwaitTimeout (wave strand : Nat)
  /-- PORT_SUSPEND (R131). -/
  | portSuspend (wave : Nat)
  /-- WATCHDOG (R310). -/
  | watchdog (wave strand : Nat)
  /-- PAIRTIMEOUT (R310). -/
  | pairtimeout (req : Nat)
  /-- CLAIM_GRANT (R29). -/
  | claimGrant (core : Nat)
  /-- DEADLOCK (R30). -/
  | deadlock (block : Nat)
  /-- HANDLER_ENTRY (R306). -/
  | handlerEntry (wave : Nat)
  /-- BLOCK_PLACE (R293). -/
  | blockPlace (core : Nat)
  /-- BLOCK_END (R144). -/
  | blockEnd (block : Nat)
  /-- BLOCK_TRIGGER_EVENT (R145). -/
  | blockTriggerEvent (block : Nat)
  /-- LAUNCH_RELEASE (R230). -/
  | launchRelease (launch : Nat)
  /-- KNEAD_WINDOW_CLOSE (R234). -/
  | kneadWindowClose (ctx : Nat)
  /-- CANCEL_DEADLINE (R41). -/
  | cancelDeadline (block : Nat)
  /-- FOOTPRINT_ENTER (R276). -/
  | footprintEnter (job : Nat)
  /-- COPY_PIECE_ISSUE (R291). -/
  | copyPieceIssue (job : Nat)
  /-- PIECE_LAND (R195, R196). -/
  | pieceLand (job piece : Nat)
  /-- COPY_FAULT (R198). -/
  | copyFault (job : Nat)
  /-- TILE_OP_START (R302). -/
  | tileOpStart (core : Nat)
  /-- TILE_COMMIT (R212). -/
  | tileCommit (core : Nat)
  /-- TCVT_STEP (R392). -/
  | tcvtStep (core : Nat)
  /-- FX_OP_COMPLETE (R202). -/
  | fxOpComplete (job : Nat)
  /-- LEASE_GRANT (R298). -/
  | leaseGrant (core : Nat) (k : EngKind)
  /-- WAKE_DONE (R296, R297). -/
  | wakeDone (core : Nat) (k : EngKind)
  /-- WARM_TIMEOUT (R296). -/
  | warmTimeout (core : Nat) (k : EngKind)
  /-- ALLOWANCE_CUT (R300). -/
  | allowanceCut (die deciwatts : Nat)
  /-- CLASS0_EVICT (R301). -/
  | class0Evict (core : Nat) (k : EngKind)
  /-- ENGINE_STOPPED (R210). -/
  | engineStopped (core : Nat) (k : EngKind)
  /-- ENERGY_PERIOD (R299). -/
  | energyPeriod (ctx : Nat)
  /-- SERVER_RELEASE (R284). -/
  | serverRelease (ctx : Nat) (point : Point)
  /-- ARBITER_SELECT (R285). -/
  | arbiterSelect (point : Point)
  /-- ROT_ADVANCE (R285). -/
  | rotAdvance
  /-- REMOTE_REQUEST (R272). -/
  | remoteRequest (p : RemotePkt)
  /-- REPLY_ARRIVE (R272). -/
  | replyArrive (req : Nat) (e : RemoteEnd)
  /-- FLIT_SEND (R338, R340). -/
  | flitSend (port : Nat)
  /-- FLIT_RECEIVE (R338, R340). -/
  | flitReceive (port : Nat) (f : FlitIn) (p : Packet)
  /-- LINK_PAUSE (R292). -/
  | linkPause (port : Nat) (on : Bool)
  /-- COLL_STEP_ENTER (R376). -/
  | collStepEnter (coll : Nat)
  /-- COLL_READY (R376, R396; a barrier message too; clock is the sender's). -/
  | collReady (coll peer clock : Nat)
  /-- COLL_CTS (R376). -/
  | collCts (coll peer chunk clock : Nat)
  /-- COLL_CHUNK_RECEIVE (R342). -/
  | collChunkReceive (coll peer chunk clock : Nat) (bytes : List Byte)
  /-- COLL_COMPLETE (R226; err is a failure (cause, rank); posted is the largest posting time of the ranks, R280). -/
  | collComplete (coll : Nat) (err : Option (Nat × Nat)) (posted : Nat)
  /-- SUSP_SEAL (R236). -/
  | suspSeal (block : Nat)
  /-- RESUME_PLACED (R238). -/
  | resumePlaced (resumption core : Nat)
  /-- CCLONE_DONE (R240). -/
  | ccloneDone (job : Nat)
  /-- FORCED_SAVE (R314). -/
  | forcedSave (ctx : Nat)
  /-- FORCED_SAVE_SEAL (R314, R315). -/
  | forcedSaveSeal (block : Nat)
  /-- HOST_WRITE (R281, R327; the key slot of a BAR4 access is open). -/
  | hostWrite (fn bar off slot : Nat) (bytes : List Byte) (wire : Wire)
  /-- HOST_READ (R281, R327). -/
  | hostRead (fn bar off slot n : Nat) (wire : Wire)
  /-- HOST_MEMORY_COMPLETION (R334). -/
  | hostMemoryCompletion (req : Nat) (ok : Bool) (bytes : List Byte)
  /-- ATS_INVALIDATE (R334). -/
  | atsInvalidate (fn page pages : Nat)
  /-- INVALIDATE (R259, R328). -/
  | invalidate (fn idx : Nat)
  /-- INVALIDATE_DONE (R259). -/
  | invalidateDone (fn : Nat)
  /-- CTXCREATE (R330). -/
  | ctxcreate (a : CtxArgs)
  /-- CTXDESTROY (R330). -/
  | ctxdestroy (ctx : Nat)
  /-- SERVER (R283, R288). -/
  | server (a : ServerArgs)
  /-- WINDOW (R333). -/
  | window (fn window base len : Nat)
  /-- QBIND (R330, R341). -/
  | qbind (ctx queue : Nat) (rec : Option Comm)
  /-- PREEMPT (R311). -/
  | preempt (t : PreTarget) (budget area len : Nat)
  /-- RELEASE (R316). -/
  | release (t : PreTarget)
  /-- KEYROT (R335). -/
  | keyrot (ctx : Nat)
  /-- PARTSET (R340). -/
  | partset (a : PartArgs)
  /-- RETIRE (R295, R362). -/
  | retire (a : RetireArgs)
  /-- RETIRE_COMPLETE (R295, R362). -/
  | retireComplete (a : RetireArgs)
  /-- LOGSET (R347). -/
  | logset (fn iova : Nat)
  /-- UNKNOWN_COMMAND (R330). -/
  | unknownCommand (code : Nat)
  /-- EVENT_CLEAR (R9, R328). -/
  | eventClear (fn bits : Nat)
  /-- PWRCAP_WRITE (R349). -/
  | pwrcapWrite (watts : Nat)
  /-- IWSEL_READ (R363). -/
  | iwselRead (v : BitVec 64)
  /-- RETLOG_CLEAR (R363). -/
  | retlogClear
  /-- REGISTER_WRITE (R9, R328, R363). -/
  | registerWrite (fn off : Nat) (v : BitVec 64)
  /-- FLR_INITIATE (R345, R389). -/
  | flrInitiate (fn : Nat)
  /-- FLR_STOPPED (R345). -/
  | flrStopped (fn : Nat)
  /-- FLR_DRAINED (R345). -/
  | flrDrained (fn : Nat)
  /-- FLR_DISCARDED (R345). -/
  | flrDiscarded (fn : Nat)
  /-- FLR_DONE (R345). -/
  | flrDone (fn : Nat)
  /-- LOCK_INTERFACE (R344). -/
  | lockInterface (fn : Nat)
  /-- GET_DEVICE_INTERFACE_REPORT (R344). -/
  | getDeviceInterfaceReport (fn : Nat)
  /-- GET_DEVICE_INTERFACE_STATE (R344). -/
  | getDeviceInterfaceState (fn : Nat)
  /-- START_INTERFACE (R344). -/
  | startInterface (fn : Nat)
  /-- STOP_INTERFACE (R344). -/
  | stopInterface (fn : Nat)
  /-- GET_VERSION (R336). -/
  | getVersion (die : Nat)
  /-- GET_CAPABILITIES (R336). -/
  | getCapabilities (die : Nat)
  /-- NEGOTIATE_ALGORITHMS (R336). -/
  | negotiateAlgorithms (die : Nat)
  /-- GET_DIGESTS (R336). -/
  | getDigests (die : Nat)
  /-- GET_CERTIFICATE (R336). -/
  | getCertificate (die slot : Nat)
  /-- CHALLENGE (R336). -/
  | challenge (die slot : Nat)
  /-- GET_MEASUREMENTS (R336). -/
  | getMeasurements (die index : Nat)
  /-- KEY_EXCHANGE (R336). -/
  | keyExchange (die session : Nat)
  /-- FINISH (R336). -/
  | finish (die session : Nat)
  /-- KEY_UPDATE (R336). -/
  | keyUpdate (die session : Nat)
  /-- HEARTBEAT (R336). -/
  | heartbeat (die session : Nat)
  /-- END_SESSION (R336). -/
  | endSession (die session : Nat)
  /-- POWER_CONTROL_TICK (R350; watts is the measured power outside the engines). -/
  | powerControlTick (watts : Nat)
  /-- ISLAND_VOTE (R352). -/
  | islandVote (island point : Nat)
  /-- FREQUENCY_CHANGE_DONE (R354). -/
  | frequencyChangeDone (rail : Nat)
  /-- RAIL_HOLDOFF_EXPIRE (R354). -/
  | railHoldoffExpire (rail : Nat)
  /-- RAIL_STEP (R354, R355). -/
  | railStep (rail : Nat)
  /-- ISLAND_RISE_STEP (R355). -/
  | islandRiseStep (island : Nat)
  /-- CURRENT_EMERGENCY (R356). -/
  | currentEmergency (rail : Nat)
  /-- CLOCK_STRETCH_END (R356). -/
  | clockStretchEnd (rail : Nat)
  /-- THERMAL_LEVEL (R357; junction temperatures of the die's cores). -/
  | thermalLevel (die : Nat) (temps : List (Nat × Nat))
  /-- MIGRATION_CLOSE (R358). -/
  | migrationClose (die : Nat) (temps : List (Nat × Nat))
  /-- RETENTION_ENTER (R359). -/
  | retentionEnter (core : Nat)
  /-- RETENTION_EXIT (R360; bad marks the spaces with a parity failure). -/
  | retentionExit (core : Nat) (bad : BitVec 4) (control : Bool)
  /-- PACKAGE_RESET (R361). -/
  | packageReset
  /-- BRINGUP_PHASE (R361; errcode 0 or the cause of a halt; bad lists the units that fail the phase). -/
  | bringupPhase (errcode : Nat) (bad : List Nat)
  /-- IDE_KEY_MANAGEMENT (R337). -/
  | ideKeyManagement (m : IdeKm)
  /-- ATS_TRANSLATION_COMPLETION (R334). -/
  | atsTranslationCompletion (fn page : Nat) (ok : Bool)
  /-- CORE_COLD_RESET_DONE (R360). -/
  | coreColdResetDone (core : Nat)
deriving DecidableEq, Repr

end Sys2Proof
end

