-- ==== Sys2Proof/WellFormed.lean ====
section
/-!
DEFINITION. The operand checks of an encoding (03: R81, R82, and the ranges of the opcode maps, Tables 3-2 and 3-4 to 3-7).
An encoding whose operands fail these checks is no instruction and raises ILLEGAL (R82).
-/

namespace Sys2Proof

/-- A 64-bit lane operand names an even register (R13, R81). -/
def VReg.isPair (v : VReg) : Bool := v.toNat % 2 == 0

/-- A 128-bit lane operand names a multiple of 4 (R81). -/
def VReg.isQuad (v : VReg) : Bool := v.toNat % 4 == 0

/-- A scalar operand that names `k + 1` consecutive registers: not `s0`, and none above `s63` (R81). -/
def SReg.isRun (s : SReg) (k : Nat) : Bool := s.toNat != 0 && decide (s.toNat + k ≤ 63)

/-- KSC 5 and 6 are reserved; with KSC 7 there is no lane term and VA is zero (R77). -/
def Addr.wf (m : Addr) : Bool :=
  m.ksc != 5 && m.ksc != 6 && (m.ksc != 7 || m.va == 0)

/-- A register of a lane load: a pair for `.64`, a quad for `.128` (R92). -/
def LdW.regOk : LdW → VReg → Bool
  | .w64, v => v.isPair
  | .w128, v => v.isQuad
  | _, _ => true

/-- A register of a lane store: a pair for `.64`, a quad for `.128` (R92). -/
def StW.regOk : StW → VReg → Bool
  | .b64, v => v.isPair
  | .b128, v => v.isQuad
  | _, _ => true

/-- A register of an atomic: a pair for `.add.i64` and `.cas` (Table 3-6). -/
def AtOp.regOk : AtOp → VReg → Bool
  | .addI64, v => v.isPair
  | .cas, v => v.isPair
  | _, _ => true

/-- A register of a no-return atomic: a pair for `.add.i64` (Table 3-6). -/
def RedOp.regOk : RedOp → VReg → Bool
  | .addI64, v => v.isPair
  | _, _ => true

/-- The coordinate operand of a copy: `s0` for zero coordinates, or three consecutive registers (R81, R191). -/
def CopyOps.wf (o : CopyOps) : Bool := o.sc == 0 || decide (o.sc.toNat + 2 ≤ 63)

/-- The operand checks of R81 and of the opcode maps. The rows without an encoding have none. -/
def Instr.wf : Instr → Bool
  | .sget _ n | .sset _ n => decide (n.toNat ≤ 17)
  | .regrel n | .regclm n => decide (1 ≤ n.toNat ∧ n.toNat ≤ 31)
  | .regang m => m != 0
  | .bfeI _ _ _ p l | .bfeN _ _ _ p l | .bfi _ _ _ p l => decide (p.toNat ≤ 31 ∧ 1 ≤ l.toNat ∧ l.toNat ≤ 32)
  | .add64 _ d a b => d.isPair && a.isPair && b.isPair
  | .mad64N _ d _ _ c => d.isPair && c.isPair
  | .lea64 _ d a _ k => d.isPair && a.isPair && decide (k.toNat ≤ 63)
  | .shflXor _ _ _ n | .shflUp _ _ _ n | .shflDn _ _ _ n => decide (n.toNat ≤ 31)
  | .bcast _ _ _ k => decide (k.toNat ≤ 31)
  | .bscale _ _ _ f => decide (2 ≤ f.toNat ∧ f.toNat ≤ 4)
  | .ld w _ d m | .ldl w _ d m | .ldt w _ d m => w.regOk d && m.wf
  | .st w _ d m | .stl w _ d m | .stt w _ d m => w.regOk d && m.wf
  | .ldp w _ d va _ => w.regOk d && va.isPair
  | .stp w _ d va _ => w.regOk d && va.isPair
  | .wld _ _ m | .wst _ _ m | .ald _ _ m | .ast _ _ m | .accld _ _ m | .accst _ _ m => m.wf
  | .atom op _ d m | .atl op _ d m => op.regOk d && m.wf
  | .redAtomic op _ d m => op.regOk d && m.wf
  | .pf _ m => m.wf
  | .tcpyG2a o | .tcpyG2w o | .tcpyA2g o | .tcpyG2l o | .tcpyL2g o | .tcpyG2g o | .tcpyG2gStamp o => o.wf
  | .cfpop d => d.isRun 3
  | .tstat d => d.isRun 1
  | .xsort _ _ _ f => !f.seg
  | .xtopk _ _ _ _ f => !f.seg
  | .xscan _ _ _ f => !f.desc && (!f.seg || f.pair)
  | _ => true

/-- An instruction whose operands are in range. -/
abbrev Instr.WF (i : Instr) : Prop := i.wf = true

end Sys2Proof
end

