-- ==== Sys2Proof/Decode.lean ====
section
/-!
DEFINITION. The decoder and the encoder of the five instruction classes (03: R73 to R82, R84; Tables 3-1, 3-2 and 3-4
to 3-7). Code is stored most significant byte first (R73). The decoder takes any bytes; what is no instruction is
rejected by name, and its fate is that of R82. (`noncomputable` marks what builds an `Instr`: the type has more
constructors, one per row of the opcode table, than Lean's code generator takes. The kernel evaluates all of it.)
-/

namespace Sys2Proof

/-- Why bytes are no instruction (R82, R86). -/
inductive Reject where
  /-- First byte 0xF6 to 0xFE. -/
  | firstByte
  /-- An opcode that is not assigned, or a reserved or unused field that is not zero. -/
  | encoding
  /-- An operand field out of its range. -/
  | operand
  /-- Fewer bytes than the length the first byte gives. -/
  | short
deriving DecidableEq, Repr

/-- The class of an instruction (R74); the internal word's KIND is its place in this order (R88). -/
inductive Class where
  | a | b | c | d | e | pad
deriving DecidableEq, Repr

/-- The class that the first byte selects (Table 3-1). -/
def Class.ofByte (x : Byte) : Option Class :=
  if x.toNat < 0x80 then some .a
  else if x.toNat < 0xC0 then some .b
  else if x.toNat < 0xE0 then some .c
  else if x.toNat < 0xF0 then some .d
  else if x.toNat < 0xF6 then some .e
  else if x.toNat < 0xFF then none
  else some .pad

/-- The length of a class in bytes (Table 3-1). -/
def Class.length : Class → Nat
  | .a => 4
  | .b => 6
  | .c => 8
  | .d => 12
  | .e => 2
  | .pad => 1

/-- The number that bytes spell, most significant byte first (R73). -/
def beNat : List Byte → Nat
  | [] => 0
  | b :: bs => b.toNat * 256 ^ bs.length + beNat bs

/-- The `n` bytes of a number, most significant byte first (R73). -/
def beBytes : Nat → Nat → List Byte
  | 0, _ => []
  | n + 1, w => BitVec.ofNat 8 (w / 256 ^ n) :: beBytes n w

/-! ## Fields -/

/-- The guard field: INV, MASK (R80). -/
def Guard.ofBits (x : BitVec 4) : Guard := ⟨x.getLsbD 3, x.extractLsb' 0 3⟩
/-- The guard field: INV, MASK (R80). -/
def Guard.bits (g : Guard) : BitVec 4 := BitVec.ofBool g.inv ++ g.mask
/-- The guard field 0b0000, which leaves activity to `m0` (R80). -/
def Guard.none : Guard := ⟨false, 0⟩

/-- A mask number in a six-bit field (R81). -/
def MReg.of6 (x : BitVec 6) : Option MReg := if x.extractLsb' 4 2 = 0 then some (x.extractLsb' 0 4) else .none
/-- A mask number in an eight-bit field (R81, R91). -/
def MReg.of8 (x : BitVec 8) : Option MReg := if x.extractLsb' 4 4 = 0 then some (x.extractLsb' 0 4) else .none
/-- A six-bit field that holds a mask number (R81). -/
def MReg.bits6 (m : MReg) : BitVec 6 := 0#2 ++ m

/-- A class A word (R75). -/
structure WordA where
  op : BitVec 7
  d  : BitVec 6
  a  : BitVec 6
  b  : BitVec 6
  c  : BitVec 6
deriving DecidableEq, Repr

/-- A class B word (R76). -/
structure WordB where
  op : BitVec 10
  g  : Guard
  vd : BitVec 8
  va : BitVec 8
  vb : BitVec 8
  vc : BitVec 8
deriving DecidableEq, Repr

/-- A class C word in the memory layout (R77). -/
structure WordC where
  op  : BitVec 9
  g   : Guard
  vd  : BitVec 8
  va  : BitVec 8
  sb  : BitVec 6
  ksc : BitVec 3
  off : BitVec 23
deriving DecidableEq, Repr

/-- A class D word (R78). -/
structure WordD where
  op  : BitVec 8
  g   : Guard := Guard.none
  sd  : BitVec 6 := 0
  sa  : BitVec 6 := 0
  sb  : BitVec 6 := 0
  sc  : BitVec 6 := 0
  vd  : BitVec 8 := 0
  va  : BitVec 8 := 0
  ten : BitVec 1 := 0
  rsv : BitVec 1 := 0
  tag : BitVec 6 := 0
  imm : BitVec 32 := 0
deriving DecidableEq, Repr

def WordA.bits (f : WordA) : BitVec 32 := 0#1 ++ f.op ++ f.d ++ f.a ++ f.b ++ f.c
def WordA.ofBits (w : BitVec 32) : WordA :=
  ⟨w.extractLsb' 24 7, w.extractLsb' 18 6, w.extractLsb' 12 6, w.extractLsb' 6 6, w.extractLsb' 0 6⟩
def WordB.bits (f : WordB) : BitVec 48 := 0b10#2 ++ f.op ++ f.g.bits ++ f.vd ++ f.va ++ f.vb ++ f.vc
def WordB.ofBits (w : BitVec 48) : WordB :=
  ⟨w.extractLsb' 36 10, .ofBits (w.extractLsb' 32 4), w.extractLsb' 24 8, w.extractLsb' 16 8, w.extractLsb' 8 8,
    w.extractLsb' 0 8⟩
def WordC.bits (f : WordC) : BitVec 64 := 0b110#3 ++ f.op ++ f.g.bits ++ f.vd ++ f.va ++ f.sb ++ f.ksc ++ f.off
def WordC.ofBits (w : BitVec 64) : WordC :=
  ⟨w.extractLsb' 52 9, .ofBits (w.extractLsb' 48 4), w.extractLsb' 40 8, w.extractLsb' 32 8, w.extractLsb' 26 6,
    w.extractLsb' 23 3, w.extractLsb' 0 23⟩
def WordD.bits (f : WordD) : BitVec 96 :=
  0b1110#4 ++ f.op ++ f.g.bits ++ f.sd ++ f.sa ++ f.sb ++ f.sc ++ f.vd ++ f.va ++ f.ten ++ f.rsv ++ f.tag ++ f.imm
def WordD.ofBits (w : BitVec 96) : WordD where
  op := w.extractLsb' 84 8
  g := .ofBits (w.extractLsb' 80 4)
  sd := w.extractLsb' 74 6
  sa := w.extractLsb' 68 6
  sb := w.extractLsb' 62 6
  sc := w.extractLsb' 56 6
  vd := w.extractLsb' 48 8
  va := w.extractLsb' 40 8
  ten := w.extractLsb' 39 1
  rsv := w.extractLsb' 38 1
  tag := w.extractLsb' 32 6
  imm := w.extractLsb' 0 32

/-! ## Class A (R90, Table 3-4): the forms R, I, L, J and W of R75 -/

def WordA.imm12 (f : WordA) : BitVec 12 := f.b ++ f.c
def WordA.imm18 (f : WordA) : BitVec 18 := f.a ++ f.b ++ f.c
def WordA.cond (f : WordA) : BitVec 4 := f.d.extractLsb' 2 4
def WordA.off20 (f : WordA) : BitVec 20 := f.d.extractLsb' 0 2 ++ f.a ++ f.b ++ f.c

def WordA.formRrr (f : WordA) (k : SReg → SReg → SReg → Instr) : Option Instr :=
  if f.c = 0 then some (k f.d f.a f.b) else .none
def WordA.formRrrr (f : WordA) (k : SReg → SReg → SReg → BitVec 6 → Instr) : Option Instr := some (k f.d f.a f.b f.c)
def WordA.formRr (f : WordA) (k : SReg → SReg → Instr) : Option Instr :=
  if f.b = 0 ∧ f.c = 0 then some (k f.d f.a) else .none
def WordA.formRrc (f : WordA) (k : SReg → SReg → BitVec 6 → Instr) : Option Instr :=
  if f.b = 0 then some (k f.d f.a f.c) else .none
def WordA.formRri (f : WordA) (k : SReg → SReg → BitVec 12 → Instr) : Option Instr := some (k f.d f.a f.imm12)
def WordA.formRi18 (f : WordA) (k : SReg → BitVec 18 → Instr) : Option Instr := some (k f.d f.imm18)
def WordA.formRi16 (f : WordA) (k : SReg → BitVec 16 → Instr) : Option Instr :=
  if f.imm18.extractLsb' 16 2 = 0 then some (k f.d (f.imm18.extractLsb' 0 16)) else .none
def WordA.formJ0 (f : WordA) (k : BitVec 20 → Instr) : Option Instr := if f.cond = 0 then some (k f.off20) else .none
def WordA.formJm (f : WordA) (k : MReg → BitVec 20 → Instr) : Option Instr := some (k f.cond f.off20)
def WordA.formA (f : WordA) (k : SReg → Instr) : Option Instr :=
  if f.d = 0 ∧ f.b = 0 ∧ f.c = 0 then some (k f.a) else .none
def WordA.formZ (f : WordA) (i : Instr) : Option Instr :=
  if f.d = 0 ∧ f.a = 0 ∧ f.b = 0 ∧ f.c = 0 then some i else .none
def WordA.formI (f : WordA) (k : BitVec 12 → Instr) : Option Instr :=
  if f.d = 0 ∧ f.a = 0 then some (k f.imm12) else .none
def WordA.formW (f : WordA) (k : BitVec 6 → BitVec 6 → BitVec 5 → BitVec 4 → BitVec 3 → Instr) : Option Instr :=
  some (k f.d f.a (f.imm12.extractLsb' 7 5) (f.imm12.extractLsb' 3 4) (f.imm12.extractLsb' 0 3))
def WordA.formDi (f : WordA) (k : SReg → BitVec 12 → Instr) : Option Instr :=
  if f.a = 0 then some (k f.d f.imm12) else .none
def WordA.formAi (f : WordA) (k : SReg → BitVec 12 → Instr) : Option Instr :=
  if f.d = 0 then some (k f.a f.imm12) else .none
def WordA.formC (f : WordA) (k : BitVec 6 → Instr) : Option Instr :=
  if f.d = 0 ∧ f.a = 0 ∧ f.b = 0 then some (k f.c) else .none
def WordA.formDm (f : WordA) (k : SReg → MReg → Instr) : Option Instr :=
  if f.b = 0 ∧ f.c = 0 then (MReg.of6 f.a).map (k f.d) else .none
def WordA.formMa (f : WordA) (k : MReg → SReg → Instr) : Option Instr :=
  if f.b = 0 ∧ f.c = 0 then (MReg.of6 f.d).map (fun d => k d f.a) else .none
def WordA.formMmm (f : WordA) (k : MReg → MReg → MReg → Instr) : Option Instr :=
  if f.c = 0 then
    match MReg.of6 f.d, MReg.of6 f.a, MReg.of6 f.b with
    | some d, some a, some b => some (k d a b)
    | _, _, _ => .none
  else .none
def WordA.formMm (f : WordA) (k : MReg → MReg → Instr) : Option Instr :=
  if f.b = 0 ∧ f.c = 0 then
    match MReg.of6 f.d, MReg.of6 f.a with
    | some d, some a => some (k d a)
    | _, _ => .none
  else .none
def WordA.formDi4 (f : WordA) (k : SReg → BitVec 4 → Instr) : Option Instr :=
  if f.a = 0 ∧ f.imm12.extractLsb' 4 8 = 0 then some (k f.d (f.imm12.extractLsb' 0 4)) else .none
def WordA.formI4 (f : WordA) (k : BitVec 4 → Instr) : Option Instr :=
  if f.d = 0 ∧ f.a = 0 ∧ f.imm12.extractLsb' 4 8 = 0 then some (k (f.imm12.extractLsb' 0 4)) else .none

def WordA.r (op : BitVec 7) (d a b c : BitVec 6) : WordA := ⟨op, d, a, b, c⟩
def WordA.i (op : BitVec 7) (d a : BitVec 6) (imm : BitVec 12) : WordA :=
  ⟨op, d, a, imm.extractLsb' 6 6, imm.extractLsb' 0 6⟩
def WordA.l (op : BitVec 7) (d : BitVec 6) (imm : BitVec 18) : WordA :=
  ⟨op, d, imm.extractLsb' 12 6, imm.extractLsb' 6 6, imm.extractLsb' 0 6⟩
def WordA.j (op : BitVec 7) (cond : BitVec 4) (off : BitVec 20) : WordA :=
  ⟨op, cond ++ off.extractLsb' 18 2, off.extractLsb' 12 6, off.extractLsb' 6 6, off.extractLsb' 0 6⟩

/-- The class A opcode map (Table 3-4). -/
def decodeA (f : WordA) : Option Instr :=
  match f.op.toNat with
  | 0x01 => f.formRrr .add
  | 0x02 => f.formRrr .sub
  | 0x03 => f.formRrr .mul
  | 0x04 => f.formRrr .mulhI
  | 0x05 => f.formRrr .mulhN
  | 0x06 => f.formRrr .divI
  | 0x07 => f.formRrr .divN
  | 0x08 => f.formRrr .remI
  | 0x09 => f.formRrr .remN
  | 0x0A => f.formRrr .and
  | 0x0B => f.formRrr .or
  | 0x0C => f.formRrr .xor
  | 0x0D => f.formRrr .andn
  | 0x0E => f.formRrr .shl
  | 0x0F => f.formRrr .shrN
  | 0x10 => f.formRrr .shrI
  | 0x11 => f.formRrr .rot
  | 0x12 => f.formRrr .minI
  | 0x13 => f.formRrr .minN
  | 0x14 => f.formRrr .maxI
  | 0x15 => f.formRrr .maxN
  | 0x16 => f.formRrrr .sel
  | 0x17 => f.formRrrr .lea
  | 0x18 => f.formRr .clz
  | 0x19 => f.formRr .ctz
  | 0x1A => f.formRr .popc
  | 0x1B => f.formRrc .sext
  | 0x1C => f.formRrc .zext
  | 0x1D => f.formRr .mov
  | 0x20 => f.formRrr .cmpEq
  | 0x21 => f.formRrr .cmpNe
  | 0x22 => f.formRrr .cmpLtI
  | 0x23 => f.formRrr .cmpLtN
  | 0x24 => f.formRrr .cmpLeI
  | 0x25 => f.formRrr .cmpLeN
  | 0x28 => f.formRri .addi
  | 0x29 => f.formRri .andi
  | 0x2A => f.formRri .ori
  | 0x2B => f.formRri .xori
  | 0x2C => f.formRrc .shli
  | 0x2D => f.formRrc .shriN
  | 0x2E => f.formRrc .shriI
  | 0x30 => f.formRi18 .li
  | 0x31 => f.formRi16 .lih
  | 0x38 => f.formJ0 .br
  | 0x39 => f.formJ0 .call
  | 0x3A => f.formRi18 .bz
  | 0x3B => f.formRi18 .bnz
  | 0x3C => f.formJm .bmany
  | 0x3D => f.formJm .bmall
  | 0x3E => f.formJm .bmnone
  | 0x3F => f.formA .jr
  | 0x40 => f.formZ .ret
  | 0x41 => f.formI .trap
  | 0x42 => f.formZ .rett
  | 0x43 => f.formW .wait
  | 0x48 => f.formDi .sget
  | 0x49 => f.formAi .sset
  | 0x4A => f.formA .cclrReg
  | 0x4B => f.formC .cclrImm
  | 0x50 => f.formC .regrel
  | 0x51 => f.formC .regclm
  | 0x58 => f.formDm .mget
  | 0x59 => f.formMa .mset
  | 0x5A => f.formMmm .mand
  | 0x5B => f.formMmm .mor
  | 0x5C => f.formMmm .mxor
  | 0x5D => f.formMmm .mandn
  | 0x5E => f.formMm .mnot
  | 0x5F => f.formDm .mpop
  | 0x60 => f.formDm .mffs
  | 0x68 => f.formRri .sld8
  | 0x69 => f.formRri .sld16
  | 0x6A => f.formRri .sld32
  | 0x6B => f.formRri .sld64
  | 0x6C => f.formRri .sst8
  | 0x6D => f.formRri .sst16
  | 0x6E => f.formRri .sst32
  | 0x6F => f.formRri .sst64
  | 0x70 => f.formAi .mon
  | 0x71 => f.formA .mwait
  | 0x72 => f.formA .tagwaitAny
  | 0x73 => f.formA .tagwaitAll
  | 0x74 => f.formRr .tagffs
  | 0x75 => f.formRri .cinc
  | 0x76 => f.formRri .bbinit
  | 0x77 => f.formRri .bbexp
  | 0x78 => f.formDi4 .bbexpNum
  | 0x79 => f.formAi .bbwait
  | 0x7A => f.formI4 .bbwaitNum
  | _ => .none

/-- The class A words of instructions (Table 3-4). -/
def encodeA : Instr → Option WordA
  | .add d a b => some (.r 0x01 d a b 0)
  | .sub d a b => some (.r 0x02 d a b 0)
  | .mul d a b => some (.r 0x03 d a b 0)
  | .mulhI d a b => some (.r 0x04 d a b 0)
  | .mulhN d a b => some (.r 0x05 d a b 0)
  | .divI d a b => some (.r 0x06 d a b 0)
  | .divN d a b => some (.r 0x07 d a b 0)
  | .remI d a b => some (.r 0x08 d a b 0)
  | .remN d a b => some (.r 0x09 d a b 0)
  | .and d a b => some (.r 0x0A d a b 0)
  | .or d a b => some (.r 0x0B d a b 0)
  | .xor d a b => some (.r 0x0C d a b 0)
  | .andn d a b => some (.r 0x0D d a b 0)
  | .shl d a b => some (.r 0x0E d a b 0)
  | .shrN d a b => some (.r 0x0F d a b 0)
  | .shrI d a b => some (.r 0x10 d a b 0)
  | .rot d a b => some (.r 0x11 d a b 0)
  | .minI d a b => some (.r 0x12 d a b 0)
  | .minN d a b => some (.r 0x13 d a b 0)
  | .maxI d a b => some (.r 0x14 d a b 0)
  | .maxN d a b => some (.r 0x15 d a b 0)
  | .sel d a b c => some (.r 0x16 d a b c)
  | .lea d a b c => some (.r 0x17 d a b c)
  | .clz d a => some (.r 0x18 d a 0 0)
  | .ctz d a => some (.r 0x19 d a 0 0)
  | .popc d a => some (.r 0x1A d a 0 0)
  | .sext d a c => some (.r 0x1B d a 0 c)
  | .zext d a c => some (.r 0x1C d a 0 c)
  | .mov d a => some (.r 0x1D d a 0 0)
  | .cmpEq d a b => some (.r 0x20 d a b 0)
  | .cmpNe d a b => some (.r 0x21 d a b 0)
  | .cmpLtI d a b => some (.r 0x22 d a b 0)
  | .cmpLtN d a b => some (.r 0x23 d a b 0)
  | .cmpLeI d a b => some (.r 0x24 d a b 0)
  | .cmpLeN d a b => some (.r 0x25 d a b 0)
  | .addi d a i => some (.i 0x28 d a i)
  | .andi d a i => some (.i 0x29 d a i)
  | .ori d a i => some (.i 0x2A d a i)
  | .xori d a i => some (.i 0x2B d a i)
  | .shli d a c => some (.r 0x2C d a 0 c)
  | .shriN d a c => some (.r 0x2D d a 0 c)
  | .shriI d a c => some (.r 0x2E d a 0 c)
  | .li d i => some (.l 0x30 d i)
  | .lih d i => some (.l 0x31 d (0#2 ++ i))
  | .br o => some (.j 0x38 0 o)
  | .call o => some (.j 0x39 0 o)
  | .bz d i => some (.l 0x3A d i)
  | .bnz d i => some (.l 0x3B d i)
  | .bmany c o => some (.j 0x3C c o)
  | .bmall c o => some (.j 0x3D c o)
  | .bmnone c o => some (.j 0x3E c o)
  | .jr a => some (.r 0x3F 0 a 0 0)
  | .ret => some (.r 0x40 0 0 0 0)
  | .trap i => some (.i 0x41 0 0 i)
  | .rett => some (.r 0x42 0 0 0 0)
  | .wait ld st cp tl fx => some (.i 0x43 ld st (cp ++ tl ++ fx))
  | .sget d i => some (.i 0x48 d 0 i)
  | .sset a i => some (.i 0x49 0 a i)
  | .cclrReg a => some (.r 0x4A 0 a 0 0)
  | .cclrImm c => some (.r 0x4B 0 0 0 c)
  | .regrel c => some (.r 0x50 0 0 0 c)
  | .regclm c => some (.r 0x51 0 0 0 c)
  | .mget d a => some (.r 0x58 d a.bits6 0 0)
  | .mset d a => some (.r 0x59 d.bits6 a 0 0)
  | .mand d a b => some (.r 0x5A d.bits6 a.bits6 b.bits6 0)
  | .mor d a b => some (.r 0x5B d.bits6 a.bits6 b.bits6 0)
  | .mxor d a b => some (.r 0x5C d.bits6 a.bits6 b.bits6 0)
  | .mandn d a b => some (.r 0x5D d.bits6 a.bits6 b.bits6 0)
  | .mnot d a => some (.r 0x5E d.bits6 a.bits6 0 0)
  | .mpop d a => some (.r 0x5F d a.bits6 0 0)
  | .mffs d a => some (.r 0x60 d a.bits6 0 0)
  | .sld8 d a i => some (.i 0x68 d a i)
  | .sld16 d a i => some (.i 0x69 d a i)
  | .sld32 d a i => some (.i 0x6A d a i)
  | .sld64 d a i => some (.i 0x6B d a i)
  | .sst8 d a i => some (.i 0x6C d a i)
  | .sst16 d a i => some (.i 0x6D d a i)
  | .sst32 d a i => some (.i 0x6E d a i)
  | .sst64 d a i => some (.i 0x6F d a i)
  | .mon a i => some (.i 0x70 0 a i)
  | .mwait a => some (.r 0x71 0 a 0 0)
  | .tagwaitAny a => some (.r 0x72 0 a 0 0)
  | .tagwaitAll a => some (.r 0x73 0 a 0 0)
  | .tagffs d a => some (.r 0x74 d a 0 0)
  | .cinc d a i => some (.i 0x75 d a i)
  | .bbinit d a i => some (.i 0x76 d a i)
  | .bbexp d a i => some (.i 0x77 d a i)
  | .bbexpNum d b => some (.i 0x78 d 0 (0#8 ++ b))
  | .bbwait a i => some (.i 0x79 0 a i)
  | .bbwaitNum b => some (.i 0x7A 0 0 (0#8 ++ b))
  | _ => .none

/-! ## Class B (R91, Table 3-5) -/

def WordB.formDab (f : WordB) (k : Guard → VReg → VReg → BitVec 8 → Instr) : Option Instr :=
  if f.vc = 0 then some (k f.g f.vd f.va f.vb) else .none
def WordB.formDabc (f : WordB) (k : Guard → VReg → VReg → BitVec 8 → BitVec 8 → Instr) : Option Instr :=
  some (k f.g f.vd f.va f.vb f.vc)
def WordB.formDa (f : WordB) (k : Guard → VReg → VReg → Instr) : Option Instr :=
  if f.vb = 0 ∧ f.vc = 0 then some (k f.g f.vd f.va) else .none
def WordB.formDabm (f : WordB) (k : Guard → VReg → VReg → VReg → MReg → Instr) : Option Instr :=
  (MReg.of8 f.vc).map (k f.g f.vd f.va f.vb)
def WordB.formMab (f : WordB) (k : Guard → MReg → VReg → VReg → Instr) : Option Instr :=
  if f.vc = 0 then (MReg.of8 f.vd).map (fun d => k f.g d f.va f.vb) else .none
def WordB.formMm (f : WordB) (k : Guard → MReg → MReg → Instr) : Option Instr :=
  if f.vb = 0 ∧ f.vc = 0 then
    match MReg.of8 f.vd, MReg.of8 f.va with
    | some d, some a => some (k f.g d a)
    | _, _ => .none
  else .none
def WordB.formDm (f : WordB) (k : Guard → VReg → MReg → Instr) : Option Instr :=
  if f.vb = 0 ∧ f.vc = 0 then (MReg.of8 f.va).map (k f.g f.vd) else .none

/-- The class B opcode map (Table 3-5). -/
def decodeB (f : WordB) : Option Instr :=
  match f.op.toNat with
  | 0x01 => f.formDab .iadd
  | 0x02 => f.formDab .isub
  | 0x03 => f.formDab .imul
  | 0x04 => f.formDab .imulhI
  | 0x05 => f.formDab .imulhN
  | 0x06 => f.formDabc .imad
  | 0x07 => f.formDa .iabs
  | 0x08 => f.formDa .ineg
  | 0x09 => f.formDab .iminI
  | 0x0A => f.formDab .iminN
  | 0x0B => f.formDab .imaxI
  | 0x0C => f.formDab .imaxN
  | 0x0D => f.formDab .laneAnd
  | 0x0E => f.formDab .laneOr
  | 0x0F => f.formDab .laneXor
  | 0x10 => f.formDab .laneAndn
  | 0x11 => f.formDa .not
  | 0x12 => f.formDab .laneShl
  | 0x13 => f.formDab .laneShrI
  | 0x14 => f.formDab .laneShrN
  | 0x15 => f.formDab .laneRot
  | 0x16 => f.formDabc .bfeI
  | 0x17 => f.formDabc .bfeN
  | 0x18 => f.formDabc .bfi
  | 0x19 => f.formDa .lanePopc
  | 0x1A => f.formDa .laneClz
  | 0x1B => f.formDa .brev
  | 0x1C => f.formDabm .laneSel
  | 0x20 => f.formMab (.icmp .eq)
  | 0x21 => f.formMab (.icmp .ne)
  | 0x22 => f.formMab (.icmp .ltI)
  | 0x23 => f.formMab (.icmp .ltN)
  | 0x24 => f.formMab (.icmp .leI)
  | 0x25 => f.formMab (.icmp .leN)
  | 0x26 => f.formMab (.icmp .gtI)
  | 0x27 => f.formMab (.icmp .gtN)
  | 0x28 => f.formMab (.icmp .geI)
  | 0x29 => f.formMab (.icmp .geN)
  | 0x30 => f.formDabc .dp4I
  | 0x31 => f.formDabc .dp4N
  | 0x32 => f.formDab .add64
  | 0x33 => f.formDabc .mad64N
  | 0x34 => f.formDabc .lea64
  | 0x40 => f.formDab (.fadd .rne)
  | 0x41 => f.formDab (.fadd .rtz)
  | 0x42 => f.formDab (.fadd .rup)
  | 0x43 => f.formDab (.fadd .rdn)
  | 0x44 => f.formDab (.fsub .rne)
  | 0x45 => f.formDab (.fsub .rtz)
  | 0x46 => f.formDab (.fsub .rup)
  | 0x47 => f.formDab (.fsub .rdn)
  | 0x48 => f.formDab (.fmul .rne)
  | 0x49 => f.formDab (.fmul .rtz)
  | 0x4A => f.formDab (.fmul .rup)
  | 0x4B => f.formDab (.fmul .rdn)
  | 0x4C => f.formDabc (.fma .rne)
  | 0x4D => f.formDabc (.fma .rtz)
  | 0x4E => f.formDabc (.fma .rup)
  | 0x4F => f.formDabc (.fma .rdn)
  | 0x50 => f.formDab .fmin
  | 0x51 => f.formDab .fmax
  | 0x52 => f.formDab .fminn
  | 0x53 => f.formDab .fmaxn
  | 0x54 => f.formDa .fabs
  | 0x55 => f.formDa .fneg
  | 0x58 => f.formMab (.fcmp .eq)
  | 0x59 => f.formMab (.fcmp .ne)
  | 0x5A => f.formMab (.fcmp .lt)
  | 0x5B => f.formMab (.fcmp .le)
  | 0x5C => f.formMab (.fcmp .gt)
  | 0x5D => f.formMab (.fcmp .ge)
  | 0x5E => f.formMab (.fcmp .ord)
  | 0x5F => f.formMab (.fcmp .uno)
  | 0x60 => f.formDa .ffloor
  | 0x61 => f.formDa .fceil
  | 0x62 => f.formDa .ftrunc
  | 0x63 => f.formDa .frnd
  | 0x64 => f.formDa .fclass
  | 0x68 => f.formDab .fdivRne
  | 0x69 => f.formDa .fsqrtRne
  | 0x6A => f.formDa .frcp
  | 0x6B => f.formDa .frsq
  | 0x6C => f.formDa .fexp2
  | 0x6D => f.formDa .flog2
  | 0x6E => f.formDa .fsinpi
  | 0x6F => f.formDa .fcospi
  | 0x70 => f.formDab (.hadd2 .bf16)
  | 0x71 => f.formDab (.hadd2 .f16)
  | 0x72 => f.formDab (.hmul2 .bf16)
  | 0x73 => f.formDab (.hmul2 .f16)
  | 0x74 => f.formDabc (.hfma2 .bf16)
  | 0x75 => f.formDabc (.hfma2 .f16)
  | 0x80 => f.formDa (.cvtI32F32 .rne)
  | 0x81 => f.formDa (.cvtI32F32 .rtz)
  | 0x82 => f.formDa (.cvtI32F32 .rup)
  | 0x83 => f.formDa (.cvtI32F32 .rdn)
  | 0x84 => f.formDa (.cvtN32F32 .rne)
  | 0x85 => f.formDa (.cvtN32F32 .rtz)
  | 0x86 => f.formDa (.cvtN32F32 .rup)
  | 0x87 => f.formDa (.cvtN32F32 .rdn)
  | 0x88 => f.formDa (.cvtF32I32 .rne)
  | 0x89 => f.formDa (.cvtF32I32 .rtz)
  | 0x8A => f.formDa (.cvtF32I32 .rup)
  | 0x8B => f.formDa (.cvtF32I32 .rdn)
  | 0x8C => f.formDa (.cvtF32N32 .rne)
  | 0x8D => f.formDa (.cvtF32N32 .rtz)
  | 0x8E => f.formDa (.cvtF32N32 .rup)
  | 0x8F => f.formDa (.cvtF32N32 .rdn)
  | 0x90 => f.formDa (.cvtBf16F32 false)
  | 0x91 => f.formDa (.cvtBf16F32 true)
  | 0x92 => f.formDa (.cvtF16F32 false)
  | 0x93 => f.formDa (.cvtF16F32 true)
  | 0x94 => f.formDa (.cvtE4m3F32 false)
  | 0x95 => f.formDa (.cvtE4m3F32 true)
  | 0x96 => f.formDa (.cvtE5m2F32 false)
  | 0x97 => f.formDa (.cvtE5m2F32 true)
  | 0x98 => f.formDa .cvtE2m1F32
  | 0xA0 => f.formDa .cvtF32Bf16
  | 0xA1 => f.formDa .cvtF32F16
  | 0xA2 => f.formDa .cvtF32E4m3
  | 0xA3 => f.formDa .cvtF32E5m2
  | 0xA4 => f.formDa .cvtF32E2m1
  | 0xC0 => f.formDab .shflIdx
  | 0xC1 => f.formDab .shflXor
  | 0xC2 => f.formDab .shflUp
  | 0xC3 => f.formDab .shflDn
  | 0xC4 => f.formMm .voteAny
  | 0xC5 => f.formMm .voteAll
  | 0xC6 => f.formDm .voteBallot
  | 0xC7 => f.formDa .redAddI
  | 0xC8 => f.formDa .redAddF32
  | 0xC9 => f.formDa .redMin
  | 0xCA => f.formDa .redMax
  | 0xCB => f.formDa .scanAddI
  | 0xCC => f.formDa .scanAddF32
  | 0xCD => f.formDa .matchLanes
  | 0xCE => f.formDab .bcast
  | 0xCF => f.formDab .bscale
  | _ => .none

/-- The class B words of instructions (Table 3-5). -/
def encodeB : Instr → Option WordB
  | .iadd g d a b => some (⟨0x01, g, d, a, b, 0⟩)
  | .isub g d a b => some (⟨0x02, g, d, a, b, 0⟩)
  | .imul g d a b => some (⟨0x03, g, d, a, b, 0⟩)
  | .imulhI g d a b => some (⟨0x04, g, d, a, b, 0⟩)
  | .imulhN g d a b => some (⟨0x05, g, d, a, b, 0⟩)
  | .imad g d a b c => some (⟨0x06, g, d, a, b, c⟩)
  | .iabs g d a => some (⟨0x07, g, d, a, 0, 0⟩)
  | .ineg g d a => some (⟨0x08, g, d, a, 0, 0⟩)
  | .iminI g d a b => some (⟨0x09, g, d, a, b, 0⟩)
  | .iminN g d a b => some (⟨0x0A, g, d, a, b, 0⟩)
  | .imaxI g d a b => some (⟨0x0B, g, d, a, b, 0⟩)
  | .imaxN g d a b => some (⟨0x0C, g, d, a, b, 0⟩)
  | .laneAnd g d a b => some (⟨0x0D, g, d, a, b, 0⟩)
  | .laneOr g d a b => some (⟨0x0E, g, d, a, b, 0⟩)
  | .laneXor g d a b => some (⟨0x0F, g, d, a, b, 0⟩)
  | .laneAndn g d a b => some (⟨0x10, g, d, a, b, 0⟩)
  | .not g d a => some (⟨0x11, g, d, a, 0, 0⟩)
  | .laneShl g d a b => some (⟨0x12, g, d, a, b, 0⟩)
  | .laneShrI g d a b => some (⟨0x13, g, d, a, b, 0⟩)
  | .laneShrN g d a b => some (⟨0x14, g, d, a, b, 0⟩)
  | .laneRot g d a b => some (⟨0x15, g, d, a, b, 0⟩)
  | .bfeI g d a b c => some (⟨0x16, g, d, a, b, c⟩)
  | .bfeN g d a b c => some (⟨0x17, g, d, a, b, c⟩)
  | .bfi g d a b c => some (⟨0x18, g, d, a, b, c⟩)
  | .lanePopc g d a => some (⟨0x19, g, d, a, 0, 0⟩)
  | .laneClz g d a => some (⟨0x1A, g, d, a, 0, 0⟩)
  | .brev g d a => some (⟨0x1B, g, d, a, 0, 0⟩)
  | .laneSel g d a b c => some (⟨0x1C, g, d, a, b, 0#4 ++ c⟩)
  | .icmp .eq g d a b => some (⟨0x20, g, 0#4 ++ d, a, b, 0⟩)
  | .icmp .ne g d a b => some (⟨0x21, g, 0#4 ++ d, a, b, 0⟩)
  | .icmp .ltI g d a b => some (⟨0x22, g, 0#4 ++ d, a, b, 0⟩)
  | .icmp .ltN g d a b => some (⟨0x23, g, 0#4 ++ d, a, b, 0⟩)
  | .icmp .leI g d a b => some (⟨0x24, g, 0#4 ++ d, a, b, 0⟩)
  | .icmp .leN g d a b => some (⟨0x25, g, 0#4 ++ d, a, b, 0⟩)
  | .icmp .gtI g d a b => some (⟨0x26, g, 0#4 ++ d, a, b, 0⟩)
  | .icmp .gtN g d a b => some (⟨0x27, g, 0#4 ++ d, a, b, 0⟩)
  | .icmp .geI g d a b => some (⟨0x28, g, 0#4 ++ d, a, b, 0⟩)
  | .icmp .geN g d a b => some (⟨0x29, g, 0#4 ++ d, a, b, 0⟩)
  | .dp4I g d a b c => some (⟨0x30, g, d, a, b, c⟩)
  | .dp4N g d a b c => some (⟨0x31, g, d, a, b, c⟩)
  | .add64 g d a b => some (⟨0x32, g, d, a, b, 0⟩)
  | .mad64N g d a b c => some (⟨0x33, g, d, a, b, c⟩)
  | .lea64 g d a b c => some (⟨0x34, g, d, a, b, c⟩)
  | .fadd .rne g d a b => some (⟨0x40, g, d, a, b, 0⟩)
  | .fadd .rtz g d a b => some (⟨0x41, g, d, a, b, 0⟩)
  | .fadd .rup g d a b => some (⟨0x42, g, d, a, b, 0⟩)
  | .fadd .rdn g d a b => some (⟨0x43, g, d, a, b, 0⟩)
  | .fsub .rne g d a b => some (⟨0x44, g, d, a, b, 0⟩)
  | .fsub .rtz g d a b => some (⟨0x45, g, d, a, b, 0⟩)
  | .fsub .rup g d a b => some (⟨0x46, g, d, a, b, 0⟩)
  | .fsub .rdn g d a b => some (⟨0x47, g, d, a, b, 0⟩)
  | .fmul .rne g d a b => some (⟨0x48, g, d, a, b, 0⟩)
  | .fmul .rtz g d a b => some (⟨0x49, g, d, a, b, 0⟩)
  | .fmul .rup g d a b => some (⟨0x4A, g, d, a, b, 0⟩)
  | .fmul .rdn g d a b => some (⟨0x4B, g, d, a, b, 0⟩)
  | .fma .rne g d a b c => some (⟨0x4C, g, d, a, b, c⟩)
  | .fma .rtz g d a b c => some (⟨0x4D, g, d, a, b, c⟩)
  | .fma .rup g d a b c => some (⟨0x4E, g, d, a, b, c⟩)
  | .fma .rdn g d a b c => some (⟨0x4F, g, d, a, b, c⟩)
  | .fmin g d a b => some (⟨0x50, g, d, a, b, 0⟩)
  | .fmax g d a b => some (⟨0x51, g, d, a, b, 0⟩)
  | .fminn g d a b => some (⟨0x52, g, d, a, b, 0⟩)
  | .fmaxn g d a b => some (⟨0x53, g, d, a, b, 0⟩)
  | .fabs g d a => some (⟨0x54, g, d, a, 0, 0⟩)
  | .fneg g d a => some (⟨0x55, g, d, a, 0, 0⟩)
  | .fcmp .eq g d a b => some (⟨0x58, g, 0#4 ++ d, a, b, 0⟩)
  | .fcmp .ne g d a b => some (⟨0x59, g, 0#4 ++ d, a, b, 0⟩)
  | .fcmp .lt g d a b => some (⟨0x5A, g, 0#4 ++ d, a, b, 0⟩)
  | .fcmp .le g d a b => some (⟨0x5B, g, 0#4 ++ d, a, b, 0⟩)
  | .fcmp .gt g d a b => some (⟨0x5C, g, 0#4 ++ d, a, b, 0⟩)
  | .fcmp .ge g d a b => some (⟨0x5D, g, 0#4 ++ d, a, b, 0⟩)
  | .fcmp .ord g d a b => some (⟨0x5E, g, 0#4 ++ d, a, b, 0⟩)
  | .fcmp .uno g d a b => some (⟨0x5F, g, 0#4 ++ d, a, b, 0⟩)
  | .ffloor g d a => some (⟨0x60, g, d, a, 0, 0⟩)
  | .fceil g d a => some (⟨0x61, g, d, a, 0, 0⟩)
  | .ftrunc g d a => some (⟨0x62, g, d, a, 0, 0⟩)
  | .frnd g d a => some (⟨0x63, g, d, a, 0, 0⟩)
  | .fclass g d a => some (⟨0x64, g, d, a, 0, 0⟩)
  | .fdivRne g d a b => some (⟨0x68, g, d, a, b, 0⟩)
  | .fsqrtRne g d a => some (⟨0x69, g, d, a, 0, 0⟩)
  | .frcp g d a => some (⟨0x6A, g, d, a, 0, 0⟩)
  | .frsq g d a => some (⟨0x6B, g, d, a, 0, 0⟩)
  | .fexp2 g d a => some (⟨0x6C, g, d, a, 0, 0⟩)
  | .flog2 g d a => some (⟨0x6D, g, d, a, 0, 0⟩)
  | .fsinpi g d a => some (⟨0x6E, g, d, a, 0, 0⟩)
  | .fcospi g d a => some (⟨0x6F, g, d, a, 0, 0⟩)
  | .hadd2 .bf16 g d a b => some (⟨0x70, g, d, a, b, 0⟩)
  | .hadd2 .f16 g d a b => some (⟨0x71, g, d, a, b, 0⟩)
  | .hmul2 .bf16 g d a b => some (⟨0x72, g, d, a, b, 0⟩)
  | .hmul2 .f16 g d a b => some (⟨0x73, g, d, a, b, 0⟩)
  | .hfma2 .bf16 g d a b c => some (⟨0x74, g, d, a, b, c⟩)
  | .hfma2 .f16 g d a b c => some (⟨0x75, g, d, a, b, c⟩)
  | .cvtI32F32 .rne g d a => some (⟨0x80, g, d, a, 0, 0⟩)
  | .cvtI32F32 .rtz g d a => some (⟨0x81, g, d, a, 0, 0⟩)
  | .cvtI32F32 .rup g d a => some (⟨0x82, g, d, a, 0, 0⟩)
  | .cvtI32F32 .rdn g d a => some (⟨0x83, g, d, a, 0, 0⟩)
  | .cvtN32F32 .rne g d a => some (⟨0x84, g, d, a, 0, 0⟩)
  | .cvtN32F32 .rtz g d a => some (⟨0x85, g, d, a, 0, 0⟩)
  | .cvtN32F32 .rup g d a => some (⟨0x86, g, d, a, 0, 0⟩)
  | .cvtN32F32 .rdn g d a => some (⟨0x87, g, d, a, 0, 0⟩)
  | .cvtF32I32 .rne g d a => some (⟨0x88, g, d, a, 0, 0⟩)
  | .cvtF32I32 .rtz g d a => some (⟨0x89, g, d, a, 0, 0⟩)
  | .cvtF32I32 .rup g d a => some (⟨0x8A, g, d, a, 0, 0⟩)
  | .cvtF32I32 .rdn g d a => some (⟨0x8B, g, d, a, 0, 0⟩)
  | .cvtF32N32 .rne g d a => some (⟨0x8C, g, d, a, 0, 0⟩)
  | .cvtF32N32 .rtz g d a => some (⟨0x8D, g, d, a, 0, 0⟩)
  | .cvtF32N32 .rup g d a => some (⟨0x8E, g, d, a, 0, 0⟩)
  | .cvtF32N32 .rdn g d a => some (⟨0x8F, g, d, a, 0, 0⟩)
  | .cvtBf16F32 false g d a => some (⟨0x90, g, d, a, 0, 0⟩)
  | .cvtBf16F32 true g d a => some (⟨0x91, g, d, a, 0, 0⟩)
  | .cvtF16F32 false g d a => some (⟨0x92, g, d, a, 0, 0⟩)
  | .cvtF16F32 true g d a => some (⟨0x93, g, d, a, 0, 0⟩)
  | .cvtE4m3F32 false g d a => some (⟨0x94, g, d, a, 0, 0⟩)
  | .cvtE4m3F32 true g d a => some (⟨0x95, g, d, a, 0, 0⟩)
  | .cvtE5m2F32 false g d a => some (⟨0x96, g, d, a, 0, 0⟩)
  | .cvtE5m2F32 true g d a => some (⟨0x97, g, d, a, 0, 0⟩)
  | .cvtE2m1F32 g d a => some (⟨0x98, g, d, a, 0, 0⟩)
  | .cvtF32Bf16 g d a => some (⟨0xA0, g, d, a, 0, 0⟩)
  | .cvtF32F16 g d a => some (⟨0xA1, g, d, a, 0, 0⟩)
  | .cvtF32E4m3 g d a => some (⟨0xA2, g, d, a, 0, 0⟩)
  | .cvtF32E5m2 g d a => some (⟨0xA3, g, d, a, 0, 0⟩)
  | .cvtF32E2m1 g d a => some (⟨0xA4, g, d, a, 0, 0⟩)
  | .shflIdx g d a b => some (⟨0xC0, g, d, a, b, 0⟩)
  | .shflXor g d a b => some (⟨0xC1, g, d, a, b, 0⟩)
  | .shflUp g d a b => some (⟨0xC2, g, d, a, b, 0⟩)
  | .shflDn g d a b => some (⟨0xC3, g, d, a, b, 0⟩)
  | .voteAny g d a => some (⟨0xC4, g, 0#4 ++ d, 0#4 ++ a, 0, 0⟩)
  | .voteAll g d a => some (⟨0xC5, g, 0#4 ++ d, 0#4 ++ a, 0, 0⟩)
  | .voteBallot g d a => some (⟨0xC6, g, d, 0#4 ++ a, 0, 0⟩)
  | .redAddI g d a => some (⟨0xC7, g, d, a, 0, 0⟩)
  | .redAddF32 g d a => some (⟨0xC8, g, d, a, 0, 0⟩)
  | .redMin g d a => some (⟨0xC9, g, d, a, 0, 0⟩)
  | .redMax g d a => some (⟨0xCA, g, d, a, 0, 0⟩)
  | .scanAddI g d a => some (⟨0xCB, g, d, a, 0, 0⟩)
  | .scanAddF32 g d a => some (⟨0xCC, g, d, a, 0, 0⟩)
  | .matchLanes g d a => some (⟨0xCD, g, d, a, 0, 0⟩)
  | .bcast g d a b => some (⟨0xCE, g, d, a, b, 0⟩)
  | .bscale g d a b => some (⟨0xCF, g, d, a, b, 0⟩)
  | _ => .none

/-! ## Class C (R92, Table 3-6) -/

def WordC.imm32 (f : WordC) : BitVec 32 := f.sb ++ f.ksc ++ f.off
def WordC.imm (op : BitVec 9) (g : Guard) (vd va : BitVec 8) (i : BitVec 32) : WordC :=
  ⟨op, g, vd, va, i.extractLsb' 26 6, i.extractLsb' 23 3, i.extractLsb' 0 23⟩
def WordC.addr (f : WordC) : Addr := ⟨f.va, f.sb, f.ksc, f.off⟩

def WordC.formMem (f : WordC) (k : Guard → VReg → Addr → Instr) : Option Instr := some (k f.g f.vd f.addr)
def WordC.formPtr (f : WordC) (k : Guard → VReg → VReg → BitVec 23 → Instr) : Option Instr :=
  if f.sb = 0 ∧ f.ksc = 0 then some (k f.g f.vd f.va f.off) else .none
def WordC.formQ (f : WordC) (k : Guard → VReg → SReg → BitVec 23 → Instr) : Option Instr :=
  if f.va = 0 ∧ f.ksc = 7 then some (k f.g f.vd f.sb f.off) else .none
def WordC.formPf (f : WordC) (k : Guard → Addr → Instr) : Option Instr :=
  if f.vd = 0 then some (k f.g f.addr) else .none
def WordC.formSlot (f : WordC) (k : VReg → BitVec 8 → Instr) : Option Instr :=
  if f.g = Guard.none ∧ f.va = 0 ∧ f.sb = 0 ∧ f.ksc = 0 ∧ f.off.extractLsb' 8 15 = 0
  then some (k f.vd (f.off.extractLsb' 0 8)) else .none
def WordC.formDai (f : WordC) (k : Guard → VReg → VReg → BitVec 32 → Instr) : Option Instr :=
  some (k f.g f.vd f.va f.imm32)
def WordC.formDi (f : WordC) (k : Guard → VReg → BitVec 32 → Instr) : Option Instr :=
  if f.va = 0 then some (k f.g f.vd f.imm32) else .none
def WordC.formMai (f : WordC) (k : Guard → MReg → VReg → BitVec 32 → Instr) : Option Instr :=
  (MReg.of8 f.vd).map (fun d => k f.g d f.va f.imm32)

/-- The class C opcode map (Table 3-6). -/
def decodeC (f : WordC) : Option Instr :=
  match f.op.toNat with
  | 0x10 => f.formMem (.ld .i8)
  | 0x11 => f.formMem (.ld .n8)
  | 0x12 => f.formMem (.ld .i16)
  | 0x13 => f.formMem (.ld .n16)
  | 0x14 => f.formMem (.ld .w32)
  | 0x15 => f.formMem (.ld .w64)
  | 0x16 => f.formMem (.ld .w128)
  | 0x18 => f.formMem (.st .b8)
  | 0x19 => f.formMem (.st .b16)
  | 0x1A => f.formMem (.st .b32)
  | 0x1B => f.formMem (.st .b64)
  | 0x1C => f.formMem (.st .b128)
  | 0x20 => f.formPtr (.ldp .i8)
  | 0x21 => f.formPtr (.ldp .n8)
  | 0x22 => f.formPtr (.ldp .i16)
  | 0x23 => f.formPtr (.ldp .n16)
  | 0x24 => f.formPtr (.ldp .w32)
  | 0x25 => f.formPtr (.ldp .w64)
  | 0x26 => f.formPtr (.ldp .w128)
  | 0x28 => f.formPtr (.stp .b8)
  | 0x29 => f.formPtr (.stp .b16)
  | 0x2A => f.formPtr (.stp .b32)
  | 0x2B => f.formPtr (.stp .b64)
  | 0x2C => f.formPtr (.stp .b128)
  | 0x30 => f.formMem (.ldl .i8)
  | 0x31 => f.formMem (.ldl .n8)
  | 0x32 => f.formMem (.ldl .i16)
  | 0x33 => f.formMem (.ldl .n16)
  | 0x34 => f.formMem (.ldl .w32)
  | 0x35 => f.formMem (.ldl .w64)
  | 0x36 => f.formMem (.ldl .w128)
  | 0x38 => f.formMem (.stl .b8)
  | 0x39 => f.formMem (.stl .b16)
  | 0x3A => f.formMem (.stl .b32)
  | 0x3B => f.formMem (.stl .b64)
  | 0x3C => f.formMem (.stl .b128)
  | 0x40 => f.formMem (.ldt .i8)
  | 0x41 => f.formMem (.ldt .n8)
  | 0x42 => f.formMem (.ldt .i16)
  | 0x43 => f.formMem (.ldt .n16)
  | 0x44 => f.formMem (.ldt .w32)
  | 0x45 => f.formMem (.ldt .w64)
  | 0x46 => f.formMem (.ldt .w128)
  | 0x48 => f.formMem (.stt .b8)
  | 0x49 => f.formMem (.stt .b16)
  | 0x4A => f.formMem (.stt .b32)
  | 0x4B => f.formMem (.stt .b64)
  | 0x4C => f.formMem (.stt .b128)
  | 0x50 => f.formMem .wld
  | 0x51 => f.formMem .wst
  | 0x52 => f.formMem .ald
  | 0x53 => f.formMem .ast
  | 0x54 => f.formMem .accld
  | 0x55 => f.formMem .accst
  | 0x60 => f.formMem (.atom .addI32)
  | 0x61 => f.formMem (.atom .addI64)
  | 0x62 => f.formMem (.atom .addF32)
  | 0x63 => f.formMem (.atom .minI)
  | 0x64 => f.formMem (.atom .minN)
  | 0x65 => f.formMem (.atom .maxI)
  | 0x66 => f.formMem (.atom .maxN)
  | 0x67 => f.formMem (.atom .and)
  | 0x68 => f.formMem (.atom .or)
  | 0x69 => f.formMem (.atom .xor)
  | 0x6A => f.formMem (.atom .xchg)
  | 0x6B => f.formMem (.atom .cas)
  | 0x70 => f.formMem (.atl .addI32)
  | 0x71 => f.formMem (.atl .addI64)
  | 0x72 => f.formMem (.atl .addF32)
  | 0x73 => f.formMem (.atl .minI)
  | 0x74 => f.formMem (.atl .minN)
  | 0x75 => f.formMem (.atl .maxI)
  | 0x76 => f.formMem (.atl .maxN)
  | 0x77 => f.formMem (.atl .and)
  | 0x78 => f.formMem (.atl .or)
  | 0x79 => f.formMem (.atl .xor)
  | 0x7A => f.formMem (.atl .xchg)
  | 0x7B => f.formMem (.atl .cas)
  | 0x80 => f.formMem (.redAtomic .addI32)
  | 0x81 => f.formMem (.redAtomic .addI64)
  | 0x82 => f.formMem (.redAtomic .addF32)
  | 0x83 => f.formMem (.redAtomic .minI)
  | 0x84 => f.formMem (.redAtomic .minN)
  | 0x85 => f.formMem (.redAtomic .maxI)
  | 0x86 => f.formMem (.redAtomic .maxN)
  | 0x87 => f.formMem (.redAtomic .and)
  | 0x88 => f.formMem (.redAtomic .or)
  | 0x89 => f.formMem (.redAtomic .xor)
  | 0x90 => f.formQ .cmpst
  | 0x91 => f.formQ .cmpstL
  | 0x92 => f.formPf .pf
  | 0x98 => f.formSlot .spill
  | 0x99 => f.formSlot .fill
  | 0xA0 => f.formDai .iaddi
  | 0xA1 => f.formDai .imuli
  | 0xA2 => f.formDai .laneAndi
  | 0xA3 => f.formDai .laneOri
  | 0xA4 => f.formDai .laneXori
  | 0xA5 => f.formDi .movi
  | 0xB0 => f.formMai (.icmpi .eq)
  | 0xB1 => f.formMai (.icmpi .ne)
  | 0xB2 => f.formMai (.icmpi .ltI)
  | 0xB3 => f.formMai (.icmpi .ltN)
  | 0xB4 => f.formMai (.icmpi .leI)
  | 0xB5 => f.formMai (.icmpi .leN)
  | 0xB6 => f.formMai (.icmpi .gtI)
  | 0xB7 => f.formMai (.icmpi .gtN)
  | 0xB8 => f.formMai (.icmpi .geI)
  | 0xB9 => f.formMai (.icmpi .geN)
  | _ => .none

/-- The class C words of instructions (Table 3-6). -/
def encodeC : Instr → Option WordC
  | .ld .i8 g d m => some (⟨0x10, g, d, m.va, m.sb, m.ksc, m.off⟩)
  | .ld .n8 g d m => some (⟨0x11, g, d, m.va, m.sb, m.ksc, m.off⟩)
  | .ld .i16 g d m => some (⟨0x12, g, d, m.va, m.sb, m.ksc, m.off⟩)
  | .ld .n16 g d m => some (⟨0x13, g, d, m.va, m.sb, m.ksc, m.off⟩)
  | .ld .w32 g d m => some (⟨0x14, g, d, m.va, m.sb, m.ksc, m.off⟩)
  | .ld .w64 g d m => some (⟨0x15, g, d, m.va, m.sb, m.ksc, m.off⟩)
  | .ld .w128 g d m => some (⟨0x16, g, d, m.va, m.sb, m.ksc, m.off⟩)
  | .st .b8 g d m => some (⟨0x18, g, d, m.va, m.sb, m.ksc, m.off⟩)
  | .st .b16 g d m => some (⟨0x19, g, d, m.va, m.sb, m.ksc, m.off⟩)
  | .st .b32 g d m => some (⟨0x1A, g, d, m.va, m.sb, m.ksc, m.off⟩)
  | .st .b64 g d m => some (⟨0x1B, g, d, m.va, m.sb, m.ksc, m.off⟩)
  | .st .b128 g d m => some (⟨0x1C, g, d, m.va, m.sb, m.ksc, m.off⟩)
  | .ldp .i8 g d a o => some (⟨0x20, g, d, a, 0, 0, o⟩)
  | .ldp .n8 g d a o => some (⟨0x21, g, d, a, 0, 0, o⟩)
  | .ldp .i16 g d a o => some (⟨0x22, g, d, a, 0, 0, o⟩)
  | .ldp .n16 g d a o => some (⟨0x23, g, d, a, 0, 0, o⟩)
  | .ldp .w32 g d a o => some (⟨0x24, g, d, a, 0, 0, o⟩)
  | .ldp .w64 g d a o => some (⟨0x25, g, d, a, 0, 0, o⟩)
  | .ldp .w128 g d a o => some (⟨0x26, g, d, a, 0, 0, o⟩)
  | .stp .b8 g d a o => some (⟨0x28, g, d, a, 0, 0, o⟩)
  | .stp .b16 g d a o => some (⟨0x29, g, d, a, 0, 0, o⟩)
  | .stp .b32 g d a o => some (⟨0x2A, g, d, a, 0, 0, o⟩)
  | .stp .b64 g d a o => some (⟨0x2B, g, d, a, 0, 0, o⟩)
  | .stp .b128 g d a o => some (⟨0x2C, g, d, a, 0, 0, o⟩)
  | .ldl .i8 g d m => some (⟨0x30, g, d, m.va, m.sb, m.ksc, m.off⟩)
  | .ldl .n8 g d m => some (⟨0x31, g, d, m.va, m.sb, m.ksc, m.off⟩)
  | .ldl .i16 g d m => some (⟨0x32, g, d, m.va, m.sb, m.ksc, m.off⟩)
  | .ldl .n16 g d m => some (⟨0x33, g, d, m.va, m.sb, m.ksc, m.off⟩)
  | .ldl .w32 g d m => some (⟨0x34, g, d, m.va, m.sb, m.ksc, m.off⟩)
  | .ldl .w64 g d m => some (⟨0x35, g, d, m.va, m.sb, m.ksc, m.off⟩)
  | .ldl .w128 g d m => some (⟨0x36, g, d, m.va, m.sb, m.ksc, m.off⟩)
  | .stl .b8 g d m => some (⟨0x38, g, d, m.va, m.sb, m.ksc, m.off⟩)
  | .stl .b16 g d m => some (⟨0x39, g, d, m.va, m.sb, m.ksc, m.off⟩)
  | .stl .b32 g d m => some (⟨0x3A, g, d, m.va, m.sb, m.ksc, m.off⟩)
  | .stl .b64 g d m => some (⟨0x3B, g, d, m.va, m.sb, m.ksc, m.off⟩)
  | .stl .b128 g d m => some (⟨0x3C, g, d, m.va, m.sb, m.ksc, m.off⟩)
  | .ldt .i8 g d m => some (⟨0x40, g, d, m.va, m.sb, m.ksc, m.off⟩)
  | .ldt .n8 g d m => some (⟨0x41, g, d, m.va, m.sb, m.ksc, m.off⟩)
  | .ldt .i16 g d m => some (⟨0x42, g, d, m.va, m.sb, m.ksc, m.off⟩)
  | .ldt .n16 g d m => some (⟨0x43, g, d, m.va, m.sb, m.ksc, m.off⟩)
  | .ldt .w32 g d m => some (⟨0x44, g, d, m.va, m.sb, m.ksc, m.off⟩)
  | .ldt .w64 g d m => some (⟨0x45, g, d, m.va, m.sb, m.ksc, m.off⟩)
  | .ldt .w128 g d m => some (⟨0x46, g, d, m.va, m.sb, m.ksc, m.off⟩)
  | .stt .b8 g d m => some (⟨0x48, g, d, m.va, m.sb, m.ksc, m.off⟩)
  | .stt .b16 g d m => some (⟨0x49, g, d, m.va, m.sb, m.ksc, m.off⟩)
  | .stt .b32 g d m => some (⟨0x4A, g, d, m.va, m.sb, m.ksc, m.off⟩)
  | .stt .b64 g d m => some (⟨0x4B, g, d, m.va, m.sb, m.ksc, m.off⟩)
  | .stt .b128 g d m => some (⟨0x4C, g, d, m.va, m.sb, m.ksc, m.off⟩)
  | .wld g d m => some (⟨0x50, g, d, m.va, m.sb, m.ksc, m.off⟩)
  | .wst g d m => some (⟨0x51, g, d, m.va, m.sb, m.ksc, m.off⟩)
  | .ald g d m => some (⟨0x52, g, d, m.va, m.sb, m.ksc, m.off⟩)
  | .ast g d m => some (⟨0x53, g, d, m.va, m.sb, m.ksc, m.off⟩)
  | .accld g d m => some (⟨0x54, g, d, m.va, m.sb, m.ksc, m.off⟩)
  | .accst g d m => some (⟨0x55, g, d, m.va, m.sb, m.ksc, m.off⟩)
  | .atom .addI32 g d m => some (⟨0x60, g, d, m.va, m.sb, m.ksc, m.off⟩)
  | .atom .addI64 g d m => some (⟨0x61, g, d, m.va, m.sb, m.ksc, m.off⟩)
  | .atom .addF32 g d m => some (⟨0x62, g, d, m.va, m.sb, m.ksc, m.off⟩)
  | .atom .minI g d m => some (⟨0x63, g, d, m.va, m.sb, m.ksc, m.off⟩)
  | .atom .minN g d m => some (⟨0x64, g, d, m.va, m.sb, m.ksc, m.off⟩)
  | .atom .maxI g d m => some (⟨0x65, g, d, m.va, m.sb, m.ksc, m.off⟩)
  | .atom .maxN g d m => some (⟨0x66, g, d, m.va, m.sb, m.ksc, m.off⟩)
  | .atom .and g d m => some (⟨0x67, g, d, m.va, m.sb, m.ksc, m.off⟩)
  | .atom .or g d m => some (⟨0x68, g, d, m.va, m.sb, m.ksc, m.off⟩)
  | .atom .xor g d m => some (⟨0x69, g, d, m.va, m.sb, m.ksc, m.off⟩)
  | .atom .xchg g d m => some (⟨0x6A, g, d, m.va, m.sb, m.ksc, m.off⟩)
  | .atom .cas g d m => some (⟨0x6B, g, d, m.va, m.sb, m.ksc, m.off⟩)
  | .atl .addI32 g d m => some (⟨0x70, g, d, m.va, m.sb, m.ksc, m.off⟩)
  | .atl .addI64 g d m => some (⟨0x71, g, d, m.va, m.sb, m.ksc, m.off⟩)
  | .atl .addF32 g d m => some (⟨0x72, g, d, m.va, m.sb, m.ksc, m.off⟩)
  | .atl .minI g d m => some (⟨0x73, g, d, m.va, m.sb, m.ksc, m.off⟩)
  | .atl .minN g d m => some (⟨0x74, g, d, m.va, m.sb, m.ksc, m.off⟩)
  | .atl .maxI g d m => some (⟨0x75, g, d, m.va, m.sb, m.ksc, m.off⟩)
  | .atl .maxN g d m => some (⟨0x76, g, d, m.va, m.sb, m.ksc, m.off⟩)
  | .atl .and g d m => some (⟨0x77, g, d, m.va, m.sb, m.ksc, m.off⟩)
  | .atl .or g d m => some (⟨0x78, g, d, m.va, m.sb, m.ksc, m.off⟩)
  | .atl .xor g d m => some (⟨0x79, g, d, m.va, m.sb, m.ksc, m.off⟩)
  | .atl .xchg g d m => some (⟨0x7A, g, d, m.va, m.sb, m.ksc, m.off⟩)
  | .atl .cas g d m => some (⟨0x7B, g, d, m.va, m.sb, m.ksc, m.off⟩)
  | .redAtomic .addI32 g d m => some (⟨0x80, g, d, m.va, m.sb, m.ksc, m.off⟩)
  | .redAtomic .addI64 g d m => some (⟨0x81, g, d, m.va, m.sb, m.ksc, m.off⟩)
  | .redAtomic .addF32 g d m => some (⟨0x82, g, d, m.va, m.sb, m.ksc, m.off⟩)
  | .redAtomic .minI g d m => some (⟨0x83, g, d, m.va, m.sb, m.ksc, m.off⟩)
  | .redAtomic .minN g d m => some (⟨0x84, g, d, m.va, m.sb, m.ksc, m.off⟩)
  | .redAtomic .maxI g d m => some (⟨0x85, g, d, m.va, m.sb, m.ksc, m.off⟩)
  | .redAtomic .maxN g d m => some (⟨0x86, g, d, m.va, m.sb, m.ksc, m.off⟩)
  | .redAtomic .and g d m => some (⟨0x87, g, d, m.va, m.sb, m.ksc, m.off⟩)
  | .redAtomic .or g d m => some (⟨0x88, g, d, m.va, m.sb, m.ksc, m.off⟩)
  | .redAtomic .xor g d m => some (⟨0x89, g, d, m.va, m.sb, m.ksc, m.off⟩)
  | .cmpst g d s o => some (⟨0x90, g, d, 0, s, 7, o⟩)
  | .cmpstL g d s o => some (⟨0x91, g, d, 0, s, 7, o⟩)
  | .pf g m => some (⟨0x92, g, 0, m.va, m.sb, m.ksc, m.off⟩)
  | .spill d n => some (⟨0x98, .none, d, 0, 0, 0, 0#15 ++ n⟩)
  | .fill d n => some (⟨0x99, .none, d, 0, 0, 0, 0#15 ++ n⟩)
  | .iaddi g d a i => some (.imm 0xA0 g d a i)
  | .imuli g d a i => some (.imm 0xA1 g d a i)
  | .laneAndi g d a i => some (.imm 0xA2 g d a i)
  | .laneOri g d a i => some (.imm 0xA3 g d a i)
  | .laneXori g d a i => some (.imm 0xA4 g d a i)
  | .movi g d i => some (.imm 0xA5 g d 0 i)
  | .icmpi .eq g d a i => some (.imm 0xB0 g (0#4 ++ d) a i)
  | .icmpi .ne g d a i => some (.imm 0xB1 g (0#4 ++ d) a i)
  | .icmpi .ltI g d a i => some (.imm 0xB2 g (0#4 ++ d) a i)
  | .icmpi .ltN g d a i => some (.imm 0xB3 g (0#4 ++ d) a i)
  | .icmpi .leI g d a i => some (.imm 0xB4 g (0#4 ++ d) a i)
  | .icmpi .leN g d a i => some (.imm 0xB5 g (0#4 ++ d) a i)
  | .icmpi .gtI g d a i => some (.imm 0xB6 g (0#4 ++ d) a i)
  | .icmpi .gtN g d a i => some (.imm 0xB7 g (0#4 ++ d) a i)
  | .icmpi .geI g d a i => some (.imm 0xB8 g (0#4 ++ d) a i)
  | .icmpi .geN g d a i => some (.imm 0xB9 g (0#4 ++ d) a i)
  | _ => .none

/-! ## Class D (R93, Table 3-7). A field an opcode does not use is reserved (R78). -/

def EngKind.code : EngKind → BitVec 32
  | .tile => 0
  | .table => 1
  | .select => 2
def EngKind.ofCode (x : BitVec 32) : Option EngKind :=
  if x = 0 then some .tile else if x = 1 then some .table else if x = 2 then some .select else .none
def Lvl.code : Lvl → BitVec 32
  | .launch => 0
  | .graph => 1
  | .phase => 2
  | .job => 3
def Lvl.ofCode (x : BitVec 32) : Option Lvl :=
  if x = 0 then some .launch else if x = 1 then some .graph else if x = 2 then some .phase
  else if x = 3 then some .job else .none
def SelKey.code : SelKey → BitVec 2
  | .n32 => 0
  | .i32 => 1
  | .f32 => 2
/-- The select flags (Table 7-5). -/
def SelFlags.code (f : SelFlags) : BitVec 32 :=
  0#27 ++ BitVec.ofBool f.seg ++ BitVec.ofBool f.desc ++ BitVec.ofBool f.pair ++ f.key.code
/-- The select flags (Table 7-5): bits [31:5] reserved, KEY 3 illegal. -/
def SelFlags.ofCode (x : BitVec 32) : Option SelFlags :=
  if x.extractLsb' 5 27 = 0 then
    let k := x.extractLsb' 0 2
    let f := SelFlags.mk (x.getLsbD 4) (x.getLsbD 3) (x.getLsbD 2)
    if k = 0 then some (f .n32) else if k = 1 then some (f .i32) else if k = 2 then some (f .f32) else .none
  else .none

/-- `f` without the fields an opcode uses; it must be all zero for the encoding to be an instruction (R78). -/
def WordD.blank (f : WordD) : Bool := f = { op := f.op }

/-- The word of a copy (R93): TEN and TAG name the arrival tag. -/
def WordD.copy (op : BitVec 8) (o : CopyOps) : WordD :=
  { op := op, sd := o.sd, sa := o.sa, sb := o.sb, sc := o.sc,
    ten := BitVec.ofBool o.tag.isSome, tag := o.tag.getD 0 }

def WordD.formCopy (f : WordD) (k : CopyOps → Instr) : Option Instr :=
  if f.ten = 0 ∧ f.tag ≠ 0 then .none
  else if { f with sd := 0, sa := 0, sb := 0, sc := 0, ten := 0, tag := 0 }.blank then
    some (k ⟨f.sb, f.sa, f.sc, if f.ten = 1 then some f.tag else .none, f.sd⟩)
  else .none
def WordD.formD (f : WordD) (k : SReg → Instr) : Option Instr :=
  if { f with sd := 0 }.blank then some (k f.sd) else .none
def WordD.formA (f : WordD) (k : SReg → Instr) : Option Instr :=
  if { f with sa := 0 }.blank then some (k f.sa) else .none
def WordD.formAb (f : WordD) (k : SReg → SReg → Instr) : Option Instr :=
  if { f with sa := 0, sb := 0 }.blank then some (k f.sa f.sb) else .none
def WordD.formAbc (f : WordD) (k : SReg → SReg → SReg → Instr) : Option Instr :=
  if { f with sa := 0, sb := 0, sc := 0 }.blank then some (k f.sa f.sb f.sc) else .none
def WordD.formK (f : WordD) (k : EngKind → Instr) : Option Instr :=
  if { f with imm := 0 }.blank then (EngKind.ofCode f.imm).map k else .none
def WordD.formDk (f : WordD) (k : SReg → EngKind → Instr) : Option Instr :=
  if { f with sd := 0, imm := 0 }.blank then (EngKind.ofCode f.imm).map (k f.sd) else .none
def WordD.formDa (f : WordD) (k : SReg → SReg → Instr) : Option Instr :=
  if { f with sd := 0, sa := 0 }.blank then some (k f.sd f.sa) else .none
def WordD.formDab (f : WordD) (k : SReg → SReg → SReg → Instr) : Option Instr :=
  if { f with sd := 0, sa := 0, sb := 0 }.blank then some (k f.sd f.sa f.sb) else .none
def WordD.formDc (f : WordD) (k : SReg → SReg → Instr) : Option Instr :=
  if { f with sd := 0, sc := 0 }.blank then some (k f.sd f.sc) else .none
def WordD.formVdabc (f : WordD) (k : VReg → SReg → SReg → SReg → SReg → Instr) : Option Instr :=
  if { f with va := 0, sd := 0, sa := 0, sb := 0, sc := 0 }.blank then some (k f.va f.sd f.sa f.sb f.sc) else .none
/-- `tcvt`: IMM32 holds the sign extension of its low byte. -/
def WordD.formBdcs (f : WordD) (k : SReg → SReg → SReg → BitVec 8 → Instr) : Option Instr :=
  if { f with sb := 0, sd := 0, sc := 0, imm := 0 }.blank ∧ f.imm = (f.imm.extractLsb' 0 8).signExtend 32
  then some (k f.sb f.sd f.sc (f.imm.extractLsb' 0 8)) else .none
def WordD.formSlota (f : WordD) (k : BitVec 2 → SReg → Instr) : Option Instr :=
  if { f with sa := 0, imm := 0 }.blank ∧ f.imm.extractLsb' 2 30 = 0 then some (k (f.imm.extractLsb' 0 2) f.sa)
  else .none
def WordD.formEv (f : WordD) (k : Guard → VReg → VReg → BitVec 2 → Instr) : Option Instr :=
  if { f with g := Guard.none, vd := 0, va := 0, imm := 0 }.blank ∧ f.imm.extractLsb' 2 30 = 0
  then some (k f.g f.vd f.va (f.imm.extractLsb' 0 2)) else .none
def WordD.formDabf (f : WordD) (k : SReg → SReg → SReg → SelFlags → Instr) : Option Instr :=
  if { f with sd := 0, sa := 0, sb := 0, imm := 0 }.blank then (SelFlags.ofCode f.imm).map (k f.sd f.sa f.sb)
  else .none
def WordD.formDabcf (f : WordD) (k : SReg → SReg → SReg → SReg → SelFlags → Instr) : Option Instr :=
  if { f with sd := 0, sa := 0, sb := 0, sc := 0, imm := 0 }.blank
  then (SelFlags.ofCode f.imm).map (k f.sd f.sa f.sb f.sc) else .none
def WordD.formAq (f : WordD) (k : SReg → BitVec 4 → Instr) : Option Instr :=
  if { f with sa := 0, imm := 0 }.blank ∧ f.imm.extractLsb' 4 28 = 0 then some (k f.sa (f.imm.extractLsb' 0 4))
  else .none
def WordD.formLvl (f : WordD) (k : Lvl → SReg → Instr) : Option Instr :=
  if { f with sa := 0, imm := 0 }.blank then (Lvl.ofCode f.imm).map (fun l => k l f.sa) else .none
def WordD.formSusp (f : WordD) (k : SReg → SReg → Bool → Bool → Instr) : Option Instr :=
  if { f with sd := 0, sa := 0, imm := 0 }.blank ∧ f.imm.extractLsb' 2 30 = 0
  then some (k f.sd f.sa (f.imm.getLsbD 0) (f.imm.getLsbD 1)) else .none

/-- The class D opcode map (Table 3-7). -/
noncomputable def decodeD (f : WordD) : Option Instr :=
  match f.op.toNat with
  | 0x10 => f.formCopy .tcpyG2a
  | 0x11 => f.formCopy .tcpyG2w
  | 0x12 => f.formCopy .tcpyA2g
  | 0x13 => f.formCopy .tcpyG2l
  | 0x14 => f.formCopy .tcpyL2g
  | 0x15 => f.formCopy .tcpyG2g
  | 0x16 => f.formCopy .tcpyG2gStamp
  | 0x18 => f.formD .cfpop
  | 0x19 => f.formA .cfrsmRetry
  | 0x1A => f.formA .cfrsmSkip
  | 0x1B => f.formAb .cfrsmFill
  | 0x20 => f.formK .kindle
  | 0x21 => f.formDk .kindleNb
  | 0x22 => f.formK .douse
  | 0x23 => f.formDa .lstat
  | 0x30 => f.formVdabc .tmma
  | 0x31 => f.formVdabc .tmmaZ
  | 0x32 => f.formVdabc .tmmaX2
  | 0x33 => f.formDc .tzero
  | 0x34 => f.formA .tdload
  | 0x35 => f.formD .tstat
  | 0x38 => f.formBdcs (.tcvt .bf16Rne)
  | 0x39 => f.formBdcs (.tcvt .bf16Sat)
  | 0x3A => f.formBdcs (.tcvt .f16Rne)
  | 0x3B => f.formBdcs (.tcvt .f16Sat)
  | 0x3C => f.formBdcs (.tcvt .e4m3Rne)
  | 0x3D => f.formBdcs (.tcvt .e4m3Sat)
  | 0x3E => f.formBdcs (.tcvt .e5m2Rne)
  | 0x3F => f.formBdcs (.tcvt .e5m2Sat)
  | 0x40 => f.formSlota .ftload
  | 0x41 => f.formEv .ftevl
  | 0x48 => f.formDabf .xsort
  | 0x49 => f.formDabcf .xtopk
  | 0x4A => f.formDabf .xscan
  | 0x50 => f.formAq .cpost
  | 0x51 => f.formAbc .ctrig
  | 0x58 => f.formAb .spawn
  | 0x59 => f.formA .launch
  | 0x5A => f.formLvl .cancel
  | 0x60 => f.formSusp .susp
  | 0x61 => f.formA .resume
  | 0x62 => f.formA .cdrop
  | 0x63 => f.formDab .cclone
  | _ => .none

/-- The class D words of instructions (Table 3-7). -/
def encodeD : Instr → Option WordD
  | .tcpyG2a o => some (.copy 0x10 o)
  | .tcpyG2w o => some (.copy 0x11 o)
  | .tcpyA2g o => some (.copy 0x12 o)
  | .tcpyG2l o => some (.copy 0x13 o)
  | .tcpyL2g o => some (.copy 0x14 o)
  | .tcpyG2g o => some (.copy 0x15 o)
  | .tcpyG2gStamp o => some (.copy 0x16 o)
  | .cfpop d => some ({ op := 0x18, sd := d })
  | .cfrsmRetry a => some ({ op := 0x19, sa := a })
  | .cfrsmSkip a => some ({ op := 0x1A, sa := a })
  | .cfrsmFill a b => some ({ op := 0x1B, sa := a, sb := b })
  | .kindle k => some ({ op := 0x20, imm := k.code })
  | .kindleNb d k => some ({ op := 0x21, sd := d, imm := k.code })
  | .douse k => some ({ op := 0x22, imm := k.code })
  | .lstat d a => some ({ op := 0x23, sd := d, sa := a })
  | .tmma v d a b c => some ({ op := 0x30, va := v, sd := d, sa := a, sb := b, sc := c })
  | .tmmaZ v d a b c => some ({ op := 0x31, va := v, sd := d, sa := a, sb := b, sc := c })
  | .tmmaX2 v d a b c => some ({ op := 0x32, va := v, sd := d, sa := a, sb := b, sc := c })
  | .tzero d c => some ({ op := 0x33, sd := d, sc := c })
  | .tdload a => some ({ op := 0x34, sa := a })
  | .tstat d => some ({ op := 0x35, sd := d })
  | .tcvt .bf16Rne b d c s => some ({ op := 0x38, sb := b, sd := d, sc := c, imm := s.signExtend 32 })
  | .tcvt .bf16Sat b d c s => some ({ op := 0x39, sb := b, sd := d, sc := c, imm := s.signExtend 32 })
  | .tcvt .f16Rne b d c s => some ({ op := 0x3A, sb := b, sd := d, sc := c, imm := s.signExtend 32 })
  | .tcvt .f16Sat b d c s => some ({ op := 0x3B, sb := b, sd := d, sc := c, imm := s.signExtend 32 })
  | .tcvt .e4m3Rne b d c s => some ({ op := 0x3C, sb := b, sd := d, sc := c, imm := s.signExtend 32 })
  | .tcvt .e4m3Sat b d c s => some ({ op := 0x3D, sb := b, sd := d, sc := c, imm := s.signExtend 32 })
  | .tcvt .e5m2Rne b d c s => some ({ op := 0x3E, sb := b, sd := d, sc := c, imm := s.signExtend 32 })
  | .tcvt .e5m2Sat b d c s => some ({ op := 0x3F, sb := b, sd := d, sc := c, imm := s.signExtend 32 })
  | .ftload n a => some ({ op := 0x40, sa := a, imm := n.zeroExtend 32 })
  | .ftevl g d a n => some ({ op := 0x41, g := g, vd := d, va := a, imm := n.zeroExtend 32 })
  | .xsort d a b f => some ({ op := 0x48, sd := d, sa := a, sb := b, imm := f.code })
  | .xtopk d a b c f => some ({ op := 0x49, sd := d, sa := a, sb := b, sc := c, imm := f.code })
  | .xscan d a b f => some ({ op := 0x4A, sd := d, sa := a, sb := b, imm := f.code })
  | .cpost a q => some ({ op := 0x50, sa := a, imm := q.zeroExtend 32 })
  | .ctrig a b c => some ({ op := 0x51, sa := a, sb := b, sc := c })
  | .spawn a b => some ({ op := 0x58, sa := a, sb := b })
  | .launch a => some ({ op := 0x59, sa := a })
  | .cancel l a => some ({ op := 0x5A, sa := a, imm := l.code })
  | .susp d a t b => some ({ op := 0x60, sd := d, sa := a, imm := (0#30 ++ BitVec.ofBool b) ++ BitVec.ofBool t })
  | .resume a => some ({ op := 0x61, sa := a })
  | .cdrop a => some ({ op := 0x62, sa := a })
  | .cclone d a b => some ({ op := 0x63, sd := d, sa := a, sb := b })
  | _ => .none

/-! ## Class E (R79, Table 3-2) and the pad byte (R84) -/

/-- The class E codes (Table 3-2). -/
def decodeE (w : BitVec 16) : Option Instr :=
  let arg := w.extractLsb' 0 8
  match (w.extractLsb' 8 3).toNat with
  | 0 => if arg = 0 then some .nop else .none
  | 1 => if arg = 0 then some .yield else .none
  | 2 => some (.regang arg)
  | 3 => if arg = 0 then some .exit else .none
  | 4 => some (.brk arg)
  | 5 => if arg = 0 then some .trigger else .none
  | _ => .none

/-- The class E words (Table 3-2). -/
def encodeE : Instr → Option (BitVec 16)
  | .nop => some 0xF000
  | .yield => some 0xF100
  | .regang m => some (0xF2#8 ++ m)
  | .exit => some 0xF300
  | .brk c => some (0xF4#8 ++ c)
  | .trigger => some 0xF500
  | _ => .none

/-! ## The whole decoder -/

/-- The instruction of a class's word, before the operand checks. -/
noncomputable def decodeClass (k : Class) (w : Nat) : Option Instr :=
  match k with
  | .a => decodeA (.ofBits (BitVec.ofNat 32 w))
  | .b => decodeB (.ofBits (BitVec.ofNat 48 w))
  | .c => decodeC (.ofBits (BitVec.ofNat 64 w))
  | .d => decodeD (.ofBits (BitVec.ofNat 96 w))
  | .e => decodeE (BitVec.ofNat 16 w)
  | .pad => some .pad

/-- The class of the bytes at a PC and their word (R73, R74). -/
def fetchClass (bs : List Byte) : Except Reject (Class × Nat) :=
  match bs with
  | [] => .error .short
  | b :: _ =>
    match Class.ofByte b with
    | .none => .error .firstByte
    | some k => if bs.length < k.length then .error .short else .ok (k, beNat (bs.take k.length))

/-- The decoder: the instruction at the head of the bytes and its length (R73 to R82). -/
noncomputable def decode (bs : List Byte) : Except Reject (Instr × Nat) :=
  match fetchClass bs with
  | .error r => .error r
  | .ok (k, w) =>
    match decodeClass k w with
    | .none => .error .encoding
    | some i => if i.wf then .ok (i, k.length) else .error .operand

/-- The word of an instruction and its class; nothing for the rows that have no encoding. -/
def encodeWord (i : Instr) : Option (Class × Nat) :=
  match encodeA i with
  | some f => some (.a, f.bits.toNat)
  | .none => match encodeB i with
  | some f => some (.b, f.bits.toNat)
  | .none => match encodeC i with
  | some f => some (.c, f.bits.toNat)
  | .none => match encodeD i with
  | some f => some (.d, f.bits.toNat)
  | .none => match encodeE i with
  | some w => some (.e, w.toNat)
  | .none => if i = .pad then some (.pad, 0xFF) else .none

/-- The bytes of an instruction, most significant first (R73). -/
def encode (i : Instr) : Option (List Byte) := (encodeWord i).map fun (k, w) => beBytes k.length w

/-- The instruction the decoder reads from a word of the opcode table, laid out most significant byte first. -/
noncomputable def decodeTableWord (nbits w : Nat) : Option Instr :=
  match decode (beBytes (nbits / 8) w ++ List.replicate 12 0) with
  | .ok (i, _) => some i
  | .error _ => .none

end Sys2Proof
end

