-- ==== Sys2Proof/Config.lean ====
section
/-!
DEFINITION. What the implementation fixes, and the free values: constants without a body, of which nothing can be
proved (log entries 2, 4, 9 to 12).
-/

namespace Sys2Proof.Config

/-- Free values by number: undefined bits, and choices that a rule leaves to a unit (R25, R195, R226, R267). -/
opaque freeBits : Nat → BitVec 64
/-- Whether the stored check of a sector that nothing has written since reset fails under a key (R394). -/
opaque coldBad : Nat → Nat → Bool
/-- The byte that a sector nothing has written decrypts to under a key, by address (R394). -/
opaque coldByte : Nat → Nat → BitVec 8
/-- The bits of a memory key by its number: drawn from the random generator (R253, R335). -/
opaque memKey : Nat → BitVec 512
/-- The bits of a seal key by its number (R318). -/
opaque sealKey : Nat → BitVec 128
/-- The candidate an implementation delivers for an operation with an error bound, by operation and operand (R160). -/
opaque approx : Nat → BitVec 32 → BitVec 32
/-- The digest of a locked configuration, and the value of a measurement of a die (Table 12-5). -/
opaque digest : Nat → Nat → Nat

/-- The binding number in the flits of a context's bound traffic (Table 12-6; log entry 107). -/
opaque flow : Nat → BitVec 16
/-- Whether a package is reached through a Eutrix port: how the packages are wired, which no rule gives (R292). -/
opaque leadsTo : Nat → Nat → Bool
/-- The number of this package on the Eutrix fabric (R334, R338). -/
opaque package : Nat

end Sys2Proof.Config
end

