-- ==== Sys2Proof/Machine/Crypto.lean ====
section
/-!
DEFINITION. The carried check of a sector (R260), the encryption of memory (R253: AES-256-XTS) and the seal of a header
(R318: AES-CMAC). The spec names the ciphers and does not print them: AES, XTS and CMAC are taken from their public
standards (PRESUMED, log entry 101). Blocks are lists of byte values.
-/

namespace Sys2Proof.Machine

/-! ## CRC-16 (R260) -/

/-- One bit of the division by 0x8BB7. -/
def crcBit (c : Nat) : Nat := if 0x8000 ≤ c then Nat.xor (2 * c) 0x18BB7 else 2 * c

/-- One byte, most significant bit first. -/
def crcByte (c : Nat) (b : Byte) : Nat :=
  crcBit (crcBit (crcBit (crcBit (crcBit (crcBit (crcBit (crcBit (Nat.xor c (b.toNat * 256)))))))))

/-- CRC-16 of bytes in ascending order: polynomial 0x8BB7, initial value 0, no reflection, no final XOR (R260). -/
def crc16 (bs : List Byte) : BitVec 16 := BitVec.ofNat 16 (bs.foldl crcByte 0)

/-! ## CRC-32 (Table 12-6): the polynomial of Ethernet, PRESUMED (log entry 107) -/

def crc32Bit (c : Nat) : Nat := if c % 2 = 1 then Nat.xor (c / 2) 0xEDB88320 else c / 2
def crc32Byte (c : Nat) (b : Byte) : Nat :=
  crc32Bit (crc32Bit (crc32Bit (crc32Bit (crc32Bit (crc32Bit (crc32Bit (crc32Bit (Nat.xor c b.toNat))))))))
def crc32 (bs : List Byte) : BitVec 32 := ~~~BitVec.ofNat 32 (bs.foldl crc32Byte 0xFFFFFFFF)

/-! ## AES -/

/-- The substitution and its inverse, entry 0 in the top byte. -/
def aesS : Nat :=
  0x637c777bf26b6fc53001672bfed7ab76ca82c97dfa5947f0add4a2af9ca472c0b7fd9326363ff7cc34a5e5f171d8311504c723c31896059a071280e2eb27b27509832c1a1b6e5aa0523bd6b329e32f8453d100ed20fcb15b6acbbe394a4c58cfd0efaafb434d338545f9027f503c9fa851a3408f929d38f5bcb6da2110fff3d2cd0c13ec5f974417c4a77e3d645d197360814fdc222a908846eeb814de5e0bdbe0323a0a4906245cc2d3ac629195e479e7c8376d8dd54ea96c56f4ea657aae08ba78252e1ca6b4c6e8dd741f4bbd8b8a703eb5664803f60e613557b986c11d9ee1f8981169d98e949b1e87e9ce5528df8ca1890dbfe6426841992d0fb054bb16
def aesInvS : Nat :=
  0x52096ad53036a538bf40a39e81f3d7fb7ce339829b2fff87348e4344c4dee9cb547b9432a6c2233dee4c950b42fac34e082ea16628d924b2765ba2496d8bd12572f8f66486689816d4a45ccc5d65b6926c704850fdedb9da5e154657a78d9d8490d8ab008cbcd30af7e45805b8b34506d02c1e8fca3f0f02c1afbd0301138a6b3a9111414f67dcea97f2cfcef0b4e67396ac7422e7ad3585e2f937e81c75df6e47f11a711d29c5896fb7620eaa18be1bfc563e4bc6d279209adbc0fe78cd5af41fdda8338807c731b11210592780ec5f60517fa919b54a0d2de57a9f93c99cefa0e03b4dae2af5b0c8ebbb3c83539961172b047eba77d626e169146355210c7d

def subst (table x : Nat) : Nat := table / 2 ^ (8 * (255 - x)) % 256

/-- Multiplication in the field of AES by x, and by a factor of at most 15. -/
def gfDouble (a : Nat) : Nat := if 128 ≤ a then Nat.xor (2 * a) 0x11B else 2 * a
def gfTimes (k a : Nat) : Nat :=
  let bit (i x : Nat) : Nat := if k / 2 ^ i % 2 = 1 then x else 0
  let a2 := gfDouble a
  let a4 := gfDouble a2
  Nat.xor (Nat.xor (bit 0 a) (bit 1 a2)) (Nat.xor (bit 2 a4) (bit 3 (gfDouble a4)))

def xorAll (a b : List Nat) : List Nat := List.zipWith Nat.xor a b

/-- `n` bytes of a number, most significant first. -/
def natBytes : Nat → Nat → List Nat
  | 0, _ => []
  | n + 1, x => x / 256 ^ n % 256 :: natBytes n x

/-- A mixing of the columns by the row of factors. -/
def mixColumns (row : List Nat) : List Nat → List Nat
  | a :: b :: c :: d :: rest =>
    let col := [a, b, c, d]
    let at_ (r : Nat) : Nat :=
      ((row.drop (4 - r) ++ row.take (4 - r)).zip col).foldl (fun x p => Nat.xor x (gfTimes p.1 p.2)) 0
    at_ 0 :: at_ 1 :: at_ 2 :: at_ 3 :: mixColumns row rest
  | _ => []

/-- The rows of a block rotate by `k` times their number. -/
def shiftRows (k : Nat) (s : List Nat) : List Nat := (List.range 16).map fun i => (s[(i + 4 * k * (i % 4)) % 16]?).getD 0

/-- The words of the key schedule, newest first: `nk` words of the key, `n` more. -/
def expandKey (nk : Nat) : Nat → List (List Nat) → List (List Nat)
  | 0, w => w
  | n + 1, w =>
    let i := w.length
    let t := (w[0]?).getD []
    let t' :=
      if i % nk = 0 then
        match (t.drop 1 ++ t.take 1).map (subst aesS) with
        | x :: xs => Nat.xor x (Nat.repeat gfDouble (i / nk - 1) 1) :: xs
        | [] => []
      else if 6 < nk ∧ i % nk = 4 then t.map (subst aesS) else t
    expandKey nk n (xorAll ((w[nk - 1]?).getD []) t' :: w)

/-- Lists of `n` elements cut off one after another, as far as `fuel` goes. -/
def chunksOf {α : Type} (n : Nat) : Nat → List α → List (List α)
  | 0, _ => []
  | fuel + 1, l => if l.isEmpty then [] else l.take n :: chunksOf n fuel (l.drop n)

/-- The round keys of a key of `4 * nk` bytes. -/
def roundKeys (nk : Nat) (key : List Nat) : List (List Nat) :=
  let words := (expandKey nk (4 * (nk + 7) - nk) (chunksOf 4 nk key).reverse).reverse
  (chunksOf 4 (nk + 7) words).map List.flatten

/-- Encryption of a block under round keys. -/
def aesRounds : List (List Nat) → List Nat → List Nat
  | [], s => s
  | [k], s => xorAll (shiftRows 1 (s.map (subst aesS))) k
  | k :: ks, s => aesRounds ks (xorAll (mixColumns [2, 3, 1, 1] (shiftRows 1 (s.map (subst aesS)))) k)
def aesEncrypt (keys : List (List Nat)) (s : List Nat) : List Nat :=
  match keys with
  | [] => s
  | k :: ks => aesRounds ks (xorAll s k)

/-- Decryption: the rounds backwards, from the last key. -/
def aesUnrounds : List (List Nat) → List Nat → List Nat
  | [], s => s
  | [k], s => xorAll s k
  | k :: ks, s => aesUnrounds ks ((shiftRows 3 (mixColumns [14, 11, 13, 9] (xorAll s k))).map (subst aesInvS))
def aesDecrypt (keys : List (List Nat)) (s : List Nat) : List Nat :=
  match keys.reverse with
  | [] => s
  | k :: ks =>
    match ks with
    | [] => xorAll s k
    | _ => aesUnrounds ks ((shiftRows 3 (xorAll s k)).map (subst aesInvS))

/-! ## XTS (R253): the data unit is a sector, the tweak its PA[47:5] -/

/-- The next tweak: multiplication by x, the bytes least significant first. -/
def nextTweak (t : List Nat) : List Nat :=
  let x := t.foldr (fun b n => b + 256 * n) 0
  (natBytes 16 (if 2 ^ 127 ≤ x then Nat.xor (2 * x % 2 ^ 128) 0x87 else 2 * x)).reverse

/-- The blocks of a sector under their tweaks. -/
def xtsBlocks (f : List Nat → List Nat) : List Nat → List (List Nat) → List Nat
  | _, [] => []
  | t, b :: bs => xorAll (f (xorAll b t)) t ++ xtsBlocks f (nextTweak t) bs

/-- A sector encrypted, or decrypted, under a key: its halves are the data key and the tweak key. -/
def xts (enc : Bool) (key : BitVec 512) (sector : Nat) (bs : List Nat) : List Nat :=
  let data := roundKeys 8 (natBytes 32 (key.toNat / 2 ^ 256))
  let t := aesEncrypt (roundKeys 8 (natBytes 32 key.toNat)) (natBytes 16 sector).reverse
  xtsBlocks (if enc then aesEncrypt data else aesDecrypt data) t (chunksOf 16 2 bs)

/-- What a sector's bytes, written under one key, decrypt to under another (R252, R253). -/
def otherKey (reader writer sector : Nat) (bs : List Byte) : List Byte :=
  (xts false (Config.memKey reader) sector (xts true (Config.memKey writer) sector (bs.map (·.toNat)))).map (BitVec.ofNat 8)

/-! ## CMAC (R318) -/

/-- The first 64 bits of the AES-CMAC of whole blocks. -/
def cmac64 (key : BitVec 128) (bs : List Byte) : BitVec 64 :=
  let keys := roundKeys 4 (natBytes 16 key.toNat)
  let num (l : List Nat) : Nat := l.foldl (fun n b => 256 * n + b) 0
  let l0 := num (aesEncrypt keys (List.replicate 16 0))
  let k1 := natBytes 16 (if 2 ^ 127 ≤ l0 then Nat.xor (2 * l0 % 2 ^ 128) 0x87 else 2 * l0)
  let blocks := chunksOf 16 (bs.length / 16) (bs.map (·.toNat))
  let mac := blocks.zipIdx.foldl (fun x (b, i) =>
    aesEncrypt keys (xorAll x (if i + 1 = blocks.length then xorAll b k1 else b))) (List.replicate 16 0)
  BitVec.ofNat 64 (num (mac.take 8))

end Sys2Proof.Machine
end

