-- ==== Sys2Proof/Machine/State.lean ====
section
/-!
DEFINITION. The state of a package: everything the spec gives the machine, as plain data (01: R12 to R46, and the state
each later chapter names). Sparse collections are lists of records under a number; what is not listed has the value
the docstring names. Times and clocks are natural numbers (R265: 64 bits, which do not wrap).
-/

namespace Sys2Proof.Machine

/-! ## Waves (01) -/

/-- A monitor: the line, its write time at arming, and the time of the first later write to it (R129, R130). -/
structure Monitor where
  line : Nat
  time : Nat
  hit  : Option Nat
deriving DecidableEq, Repr

/-- A gang of a wave (R12). -/
structure GangRef where
  wave : Nat
  mask : StrandMask
deriving DecidableEq, Repr

/-- Why an instruction cannot issue yet: its counters, queues or limits are full, the wave's clock does not stand, or what it
reads has not come (R26, R192, R201, R225, R229, R230, R270). -/
inductive Room where
  | clock | ld | st | cp | tl | fx | spawns | launches | triggers | reply
  | posts (q : Nat)
deriving DecidableEq, Repr

/-- What a strand waits for. Its PC names the waiting instruction, which issues again when the wait may end. -/
inductive WaitFor where
  /-- `wait` (R115): bounds of `ld st cp tl fx`. -/
  | counters (ld st cp tl fx : Nat)
  /-- `regrel` before it acts (R28). -/
  | regrel
  | regang (mask : StrandMask)
  | regclm (n : Nat)
  /-- `mwait`: the time of its timeout (R130). -/
  | mwait (till : Option Nat)
  | tags (all : Bool) (mask : Word)
  /-- `bbwait` on the byte barrier at a local address of its core (R138). -/
  | byteBar (addr : Nat)
  | numBar (b : Nat)
  | yield (noted : List GangRef)
  | kindle (kind : EngKind)
  | susp
  /-- A reply of another package or of the host for a scalar access (R272, R334). -/
  | remote (op : Nat)
  /-- A later cycle than this one (R133). -/
  | cycle (now : Nat)
  /-- Code of another package (R87, R272): the PC whose instruction is to be fetched. -/
  | code (va : Nat)
  /-- A counter at its maximum, a full queue, or a value that is not there yet. -/
  | full (r : Room)
deriving DecidableEq, Repr

def WaitFor.isFull : WaitFor → Bool
  | .full _ => true
  | _ => false

/-- A waiting strand: since when, and for what. -/
structure Waiting where
  since : Nat
  what  : WaitFor
deriving DecidableEq, Repr

/-- A strand (Table 1-1). -/
structure Strand where
  pc        : Word
  s         : List Word
  epc       : Word
  /-- Hidden s60 to s62 (R306). -/
  hsave     : List Word
  /-- The strand mask of its gang; 0 once it has exited (R16). -/
  gang      : StrandMask
  exited    : Bool
  triggered : Bool
  monitor   : Option Monitor
  waiting   : Option Waiting
  /-- Largest time of the completed stores and copies that its gangs issued before it triggered (R145). -/
  done      : Nat
deriving DecidableEq, Repr

/-- The fault record (R307). -/
structure FaultRec where
  addr  : Word
  cause : Nat
  mask  : LaneMask
  pc    : Word
  fresh : Bool
deriving DecidableEq, Repr

/-- The forms of a `tmma` (R212). -/
inductive TmmaForm where
  | plain | zero | x2
deriving DecidableEq, Repr

/-- The tile record (Table 7-4): STATE, CAUSE, FORM, TOKEN, KEND, KSTART, COMMIT. -/
structure TileRec where
  state  : Nat
  cause  : Nat
  form   : Nat
  token  : Nat
  kend   : Nat
  kstart : Nat
  commit : Nat
deriving DecidableEq, Repr

/-- An arrival of a wave at a numbered barrier: generation, and the release time once it has released (R139). -/
structure Arrival where
  bar      : Nat
  gen      : Nat
  clock    : Nat
  released : Option Nat
deriving DecidableEq, Repr

/-- A spill slot: its format byte, its 32 values, and what its carried check differs by (R188, R189). -/
structure SpillSlot where
  slot : Nat
  fmt  : Nat
  vals : LaneVec
  flaw : BitVec 16
deriving DecidableEq, Repr

/-- The operands of a `susp` in which a wave waits (R236). -/
structure SuspArgs where
  dest  : SReg
  addr  : Word
  team  : Bool
  noBuf : Bool
deriving DecidableEq, Repr

/-- A wave (Table 1-1). -/
structure Wave where
  id       : Nat
  block    : Nat
  /-- Index within the block (`%wave`). -/
  idx      : Nat
  /-- Its issue port; none while it is suspended from its port (R131). -/
  port     : Option Nat
  /-- Lane registers `v0` to `v(W-1)` (R14). -/
  v        : List LaneVec
  m        : List LaneMask
  cause    : Word
  tvec     : Word
  gsave    : Word
  lts      : Nat
  fault    : FaultRec
  inHandler : Bool
  /-- An asynchronous or deferred cause has been raised and the handler is to be entered (R306). -/
  entry    : Bool
  /-- Halted at a `brk` for the debugger (DBGCTL.BRKHALT, R363). -/
  halted   : Bool
  strands  : List Strand
  /-- The lowest strand of the gang that issued last (R20). -/
  last     : Option Nat
  /-- Slots not listed hold format 1 with base 0 (R189). -/
  spill    : List SpillSlot
  trec     : TileRec
  /-- Issues of `tmma` forms since placement (R212); of table and select operations (Table 11-5). -/
  tokens   : List Nat
  arrivals : List Arrival
  susp     : Option SuspArgs
  /-- Largest completion times of copies, tile and table or select operations (R202, R279). -/
  doneCp   : Nat
  doneTl   : Nat
  doneFx   : Nat
  /-- Number of its placement or resumption, for the oldest ready wave (R286). -/
  order    : Nat
deriving DecidableEq, Repr

/-! ## Blocks, teams and launches (01, 07) -/

/-- A range of a local space: base at the core and length (R32). -/
structure Range where
  base : Nat
  len  : Nat
deriving DecidableEq, Repr

/-- The local spaces (R243). -/
inductive Space where
  | scratch | wbuf | abuf | acc
deriving DecidableEq, Repr

/-- An arrival tag: set, and the time it carries (R132). -/
structure Tag where
  tag  : Nat
  time : Nat
deriving DecidableEq, Repr

/-- An object that is being written: its address, flags, identity, lease records, and its sealing time once the body has
been written (R236, R317). -/
structure Sealing where
  addr   : Nat
  noBuf  : Bool
  forced : Bool
  ident  : Nat
  leases : List Byte
  slts   : Option Nat
deriving DecidableEq, Repr

/-- How far the suspension of a block has come (R236, R314). -/
inductive SuspPhase where
  /-- Every live wave waits in `susp`: draining toward the object at `addr`. -/
  | draining (addr : Nat) (noBuf : Bool)
  /-- The forced save of R314: the waves have been stopped, and the block drains. -/
  | forced
  /-- A slot has been taken. -/
  | sealing (x : Sealing)
deriving DecidableEq, Repr

/-- A placed block (Table 1-1, R31, R32). -/
structure Block where
  id       : Nat
  core     : Nat
  ctx      : Nat
  launch   : Option Nat
  /-- `%block`: x, y, z. -/
  coord    : Word
  /-- Team number, and member index (R33). -/
  team     : Option Nat
  member   : Nat
  nwaves   : Nat
  scratch  : Range
  wbuf     : Range
  abuf     : Range
  acc      : Range
  ntags    : Nat
  /-- The tags that are set (`%arrived`) and their times. -/
  tags     : List Tag
  skipTags : Word
  /-- The cycle of its last `tagffs`, and the wave that issued it (R133). -/
  tagTurn  : Nat × Nat
  /-- Generation counts of the numbered barriers; 0 where not listed (R139). -/
  barGens  : List (Nat × Nat)
  engines  : BitVec 8
  /-- SVC as the launch record holds it: class and PMAX (Tables 3-12, 11-4). -/
  svc      : BitVec 8
  depth    : Nat
  /-- It is its context's resident program (R43). -/
  resident : Bool
  susp     : Option SuspPhase
  /-- A cancel's deadline (R41); a forced exit that has begun. -/
  deadline : Option Nat
  forced   : Bool
  /-- Operations that its trigger event waits for, and whether the event has occurred (R145). -/
  trigOps  : Option (List Nat)
  trigDone : Bool
  /-- Largest time of the operations before its triggers that have completed (R145). -/
  trigTime : Nat
  /-- Largest time of its waves' exits and of its completed operations (R144). -/
  time     : Nat
deriving DecidableEq, Repr

/-- A team (R33, R34, R36): its members' blocks in order, kept cores and ranges, the team barrier's generation. -/
structure Team where
  id     : Nat
  launch : Option Nat
  index  : Nat
  size   : Nat
  cores  : List Nat
  blocks : List Nat
  ranges : List Range
  gen    : Nat
  /-- Clocks of unreleased arrivals at the team barrier of waves whose blocks have ended (R36, R143). -/
  left   : List Nat
deriving DecidableEq, Repr

/-- A launch record (Table 3-12). -/
structure LaunchRec where
  code    : Word
  param   : Word
  gx      : Nat
  gy      : Nat
  gz      : Nat
  teamsz  : Nat
  waves   : Nat
  regs    : Nat
  svc     : BitVec 8
  scratch : Nat
  wbuf    : Nat
  abuf    : Nat
  acc     : Nat
  tags    : Nat
  engines : BitVec 8
  knead   : Bool
  tvec    : Word
  comp    : Nat
  graph   : Nat
  edges   : Nat
  coll    : Nat
deriving DecidableEq, Repr

/-- An accepted launch (R230): it is outstanding while COUNT is not zero. -/
structure Launch where
  id        : Nat
  ctx       : Nat
  record    : LaunchRec
  /-- Nesting depth of its blocks (R228). -/
  depth     : Nat
  count     : Nat
  error     : Bool
  cancelled : Bool
  /-- Launches it waits for (R231), the largest release time so far, the knead window (R234). -/
  preds     : List Nat
  time      : Nat
  window    : Option Nat
  released  : Bool
  /-- Blocks already placed or dropped, in grid order. -/
  next      : Nat
  /-- The latest time of an item that has ended (R38). -/
  last      : Nat
  /-- Items whose trigger event has occurred and that have not ended; the largest trigger or exit time (R39, R145). -/
  trigs     : Nat
  trigTime  : Nat
  /-- Its bound collective, and the blocks that have exited (R233). -/
  coll      : Option Nat
  exits     : List Nat
  /-- The time of its early release, once that has happened (R39, R231). -/
  early     : Option Nat
deriving DecidableEq, Repr

/-- Levels above a launch (R37, R38). -/
inductive LevelKind where
  | graph | phase | job
deriving DecidableEq, Repr

/-- An outstanding level: its object's address is its handle (R37). -/
structure Level where
  ctx       : Nat
  addr      : Nat
  kind      : LevelKind
  count     : Nat
  error     : Bool
  cancelled : Bool
  parent    : Nat
  /-- The latest time of an item that has ended (R38). -/
  last      : Nat
deriving DecidableEq, Repr

/-- A block's declared footprint: waves, granules, the four ranges, tags (Table 1-4). -/
structure Footprint where
  waves   : Nat
  gran    : Nat
  scratch : Nat
  wbuf    : Nat
  abuf    : Nat
  acc     : Nat
  tags    : Nat
deriving DecidableEq, Repr

/-- Work that waits for placement besides the grids of launches (R293). -/
inductive Pending where
  /-- A `spawn` child: code, `s1`, window granules, the parent's block, clock and `%tvec` (R229). -/
  | spawn (id ctx die : Nat) (code param : Word) (gran : Nat) (engines : BitVec 8) (svc : BitVec 8) (depth : Nat)
      (launch : Option Nat) (tvec : Word) (clock : Nat)
  /-- A resident program: code, window granules (R43). -/
  | resident (id ctx : Nat) (code : Word) (gran : Nat)
  /-- A `resume` handed to placement (R238): object, the identities and the footprints of its blocks, resuming wave with its
  block, gang and clock, the instruction's address. -/
  | resume (id ctx obj : Nat) (idents : List Nat) (feet : List Footprint) (wave block : Nat) (gang : StrandMask) (clock : Nat)
      (pc : Word)
deriving DecidableEq, Repr

/-! ## Memory operations and jobs (06, 07, 09) -/

/-- Where an access is performed (R246, R256, R334). -/
inductive Loc where
  | glob (pa : Nat)
  | loc (core : Nat) (space : Space) (addr : Nat)
  | remote (pkg pa : Nat)
  | host (iova : Nat)
deriving DecidableEq, Repr

/-- How far a lane's part of an operation has come. -/
inductive LaneSt where
  | waiting
  | sent (req : Nat)
  | done (t : Nat) (bytes : List Byte)
  | failed (cause : Nat)
deriving DecidableEq, Repr

/-- A lane's part of an operation: lane, address, place, data. -/
structure LaneAcc where
  lane : Nat
  ea   : Nat
  loc  : Loc
  n    : Nat
  data : List Byte
  st   : LaneSt
deriving DecidableEq, Repr

/-- The outstanding operations that lanes and scalars perform at homes. -/
inductive MemKind where
  | load (w : LdW) (d : VReg)
  | store
  | atom (op : AtOp) (d : VReg)
  | red (op : AtOp)
  | cinc
  /-- `cmpst`: the pointer's lane comes first; the data lanes follow once it is performed (R186). -/
  | cmpst (local_ : Bool) (limit : Nat) (vals : List (Nat × Lane))
  | sload (d : SReg)
  | sstore
  | fill (d : VReg) (slot : Nat) (lanes : LaneMask)
  | spill
  /-- The stamp of a completed copy (R196). -/
  | stamp
  /-- A failure that a job, a placement or a copy of an object has met, for the wave that issued it (R178). -/
  | notice
deriving DecidableEq, Repr

/-- An outstanding operation of a wave, numbered in issue order (R26, R177). -/
structure MemOp where
  id    : Nat
  wave  : Nat
  block : Nat
  ctx   : Nat
  gang  : StrandMask
  pc    : Word
  kind  : MemKind
  lanes : List LaneAcc
  /-- The wave's clock when it issued (R270). -/
  clock : Nat
  /-- Every lane of it is one coalesced event (R274). -/
  whole : Bool
deriving DecidableEq, Repr

/-- A side of a job's footprint (R276): global addresses of the context, or a block's range of a local space. -/
structure Foot where
  /-- none: global virtual addresses. -/
  space : Option (Nat × Space)
  lo    : Nat
  hi    : Nat
  write : Bool
deriving DecidableEq, Repr

/-- The copy forms (R191). -/
inductive CopyForm where
  | g2a | g2w | a2g | g2l | l2g | g2g | g2gStamp
deriving DecidableEq, Repr

/-- A tensor layout record (Table 3-10). -/
structure Layout where
  base    : Nat
  dims    : List Nat
  elem    : Nat
  rank    : Nat
  scaled  : Bool
  strides : List Nat
  box     : List Nat
deriving DecidableEq, Repr

/-- What becomes of a piece of a copy (R195, R196, R200). -/
inductive PieceSt where
  /-- Bytes that have come from other packages or the host, by image offset; once the writes have been performed or sent,
  their largest time. -/
  | issued (got : List (Nat × List Byte)) (written : Option Nat)
  /-- To be issued again. -/
  | again
  | fault (cause : Nat) (write : Bool)
  | skip
  | fill (val : Word)
deriving DecidableEq, Repr

/-- A copy (R191 to R200). -/
structure Copy where
  form    : CopyForm
  recA    : Nat
  recB    : Nat
  off     : Nat
  coords  : List Nat
  tag     : Option Nat
  bar     : Option Nat
  stamp   : Option Nat
  gang    : StrandMask
  pc      : Word
  layA    : Option Layout
  layB    : Option Layout
  /-- The next piece to issue, and the pieces that have not landed. -/
  next    : Nat
  pieces  : List (Nat × PieceSt)
  /-- A whole-copy fault with its side (R194); every piece is to be skipped. -/
  whole   : Option (Nat × Bool)
  skipAll : Bool
  skipped : Bool
  time    : Nat
deriving DecidableEq, Repr

/-- Operations of the tile engine (R212, R217, R218). -/
inductive TileOp where
  | mma (form : TmmaForm) (fmt : BitVec 32) (d a b : Nat) (mt nt kb kstart token : Nat)
  | zero (d mt nt : Nat)
  | cvt (f : TcvtForm) (b d mt nt : Nat) (scale : Int)
  | dload (addr : Nat)
deriving DecidableEq, Repr

/-- Operations of the table and select engines (R219, R220, R222). -/
inductive FxOp where
  | ftload (slot addr : Nat)
  | ftevl (slot : Nat) (d : VReg) (lanes : List (Nat × Lane))
  | sort (d a n : Nat) (f : SelFlags)
  | topk (d a n k : Nat) (f : SelFlags)
  | scan (d a n : Nat) (f : SelFlags)
deriving DecidableEq, Repr

/-- Kinds of jobs (R276). -/
inductive JobKind where
  | copy (c : Copy)
  /-- A tile-engine operation: the next K-block or element, the time its step ends once it has started; a stop asked
  for at the next commit, with its cause. -/
  | tile (o : TileOp) (pos : Nat) (running : Option Nat) (stop : Option Nat)
  /-- A table or select operation; once it has started, the lane results that an `ftevl` will leave (R25, R202). -/
  | fx (o : FxOp) (started : Option (List (Nat × Lane)))
  | coll (c : Nat)
  /-- A `cclone`: source, destination, new identity. -/
  | clone (src dst ident : Nat) (gang : StrandMask) (pc : Word)
deriving DecidableEq, Repr

/-- A job of the package footprint checker (R276, R277). -/
structure Job where
  id    : Nat
  ctx   : Nat
  block : Nat
  wave  : Nat
  pc    : Word
  gang  : StrandMask
  kind  : JobKind
  foot  : List Foot
  /-- It has entered the checker: its footprint is known and ordered. -/
  entered : Bool
  /-- Earlier jobs it is ordered after and that have not completed; it has been admitted to run once there are none. -/
  after : List Nat
  clock : Nat
deriving DecidableEq, Repr

/-- An entry of a core's copy-fault FIFO (R198, Table 6-6). -/
structure FaultEntry where
  slot  : Nat
  job   : Nat
  block : Nat
  piece : Nat
  cause : Nat
  write : Bool
  recAddr : Nat
  coords : List Nat
  wave  : Nat
  read  : Bool
deriving DecidableEq, Repr

/-! ## Engines and leases (07, 10) -/

/-- Engine states (Table 10-5). -/
inductive EngSt where
  | dark | waking | leased | warm | evicting
deriving DecidableEq, Repr

/-- A lease request (R204, R205, R298). -/
structure Req where
  /-- Its number in order of arrival. -/
  ticket  : Nat
  wave    : Nat
  ctx     : Nat
  /-- When it was made. -/
  at_     : Nat
  wpower  : Bool
  wenergy : Bool
  /-- ENERGY has been raised for it. -/
  told    : Bool
deriving DecidableEq, Repr

/-- A ticket that reads LOST or FULL once (Table 7-2). -/
structure Note where
  ticket : Nat
  wave   : Nat
  lost   : Bool
deriving DecidableEq, Repr

/-- An engine of a core; not listed: DARK, with nothing in it (R296). -/
structure Engine where
  core    : Nat
  kind    : EngKind
  st      : EngSt
  /-- The lessee's request while LEASED or EVICTING; the granted request while WAKING, or WARM until `till`. -/
  holder  : Option Req
  till    : Nat
  /-- When its lease was granted, and when it became LEASED to the present lessee (R300, R301). -/
  granted : Nat
  since   : Nat
  lastCtx : Option Nat
  /-- Latest former lessee, whose operations may still run, and when its lease was granted (R393). -/
  former  : Option Req
  formerAt : Nat
  idle    : Nat
  queue   : List Req
  notes   : List Note
  /-- The eviction is for power (R300), not for a class-0 request (R301). -/
  forPower : Bool
  /-- The LC2 decode table, empty for all zero (R60). -/
  lut     : List Lane
  /-- Numbers of operations after which a new tenant's grant clears the tables (R209). -/
  stale   : List Nat
  /-- Valid table slots and their images (R68, R70). -/
  slots   : List (Nat × List Byte)
deriving DecidableEq, Repr

/-! ## Memory hierarchy (08, 09) -/

/-- A 32-byte sector by PA / 32: the key it was written under (R253), and what its stored check differs by, bit for bit,
from the CRC-16 of its bytes: 0 while the check holds (R260). -/
structure Sector where
  idx  : Nat
  key  : Nat
  flaw : BitVec 16
deriving DecidableEq, Repr

/-- An LLC line by PA / 128: its way in its set, key slot, dirty owner, WT, LE (R250, R266). -/
structure LlcLine where
  line  : Nat
  way   : Nat
  slot  : Nat
  owner : Option Nat
  wt    : Nat
  le    : Nat
deriving DecidableEq, Repr

/-- An L1 line of a core: its way in its set, the package of its memory where that is another, its bytes, what its
sectors' checks differ by, its times, and when the lease was granted or renewed (R248, R271). -/
structure L1Line where
  core  : Nat
  line  : Nat
  way   : Nat
  slot  : Nat
  pkg   : Option Nat
  bytes : List Byte
  flaws : List (BitVec 16)
  wt    : Nat
  le    : Nat
  since : Nat
deriving DecidableEq, Repr

/-- A line of a core's local space, by address / 128: WT, LE (R266, R273). -/
structure LocLine where
  core  : Nat
  space : Space
  line  : Nat
  wt    : Nat
  le    : Nat
deriving DecidableEq, Repr

/-- The bytes of a core's local space that are not zero. -/
structure LocMem where
  core  : Nat
  space : Space
  cells : List Host.Cell
deriving DecidableEq, Repr

/-- A leaf translation (R256): the 4 KiB page, its rights. -/
structure Leaf where
  page : Nat
  pkg  : Option Nat
  x    : Bool
  w    : Bool
  r    : Bool
deriving DecidableEq, Repr

/-- A cached translation of a core or die (R258), tagged with its page size; `vpn` is the address over that size, and
the leaf's page is the first of the page. Of a 64 KiB page it translates the 4 KiB pages of `group`, whose own entries have
CONTIG (R257). -/
structure TlbEntry where
  core : Nat
  ctx  : Nat
  size : Nat
  vpn  : Nat
  group : BitVec 16
  leaf : Leaf
deriving DecidableEq, Repr

/-- What the I-cache holds for an address (R87, R88): an instruction's bytes, of which KIND and BODY are the internal
word, or a fault word. -/
inductive IWord where
  | word (bytes : List Byte)
  | fault (cause offset detail : Nat)
deriving DecidableEq, Repr

/-- An internal word of a core's I-cache. -/
structure IEntry where
  core : Nat
  ctx  : Nat
  va   : Nat
  word : IWord
deriving DecidableEq, Repr

/-- A line transfer that a channel owes: the line, the context it is charged to, already charged (R254, R291). -/
structure Xfer where
  channel : Nat
  line    : Nat
  ctx     : Nat
  charged : Bool
deriving DecidableEq, Repr

/-! ## Contexts, servers, functions (01, 10, 12) -/

/-- A pre-emption request (R311, R315). -/
structure Preempt where
  ends   : Nat
  area   : Nat
  len    : Nat
  count  : Nat
  next   : Nat
  failed : Nat
  target : PreTarget
  told   : Bool
deriving DecidableEq, Repr

/-- A context (Table 1-6). Energy is counted in 24,000ths of a µJ, so that every charge of Table 10-8 is whole. -/
structure Ctx where
  n        : Nat
  fn       : Nat
  /-- Its local index in the function's pages (Table 12-2). -/
  idx      : Nat
  root     : Nat
  ctab     : Nat
  mbox     : Nat
  ptag     : Nat
  cancelUs : Nat
  atom     : Bool
  allow    : Nat
  energy   : Nat
  period   : Nat
  spent    : Nat
  debt     : Nat
  preempt  : Option Preempt
  stopped  : Bool
  sealKey  : Nat
deriving DecidableEq, Repr

/-- A server (R283, R284); an issue-port group has six budgets, periods and deadlines. -/
structure Server where
  args    : ServerArgs
  b       : List Nat
  d       : List Nat
  pending : List Bool
deriving DecidableEq, Repr

/-- TDISP states of a VF (R344). -/
inductive Tdisp where
  | unlocked | locked | run
deriving DecidableEq, Repr

/-- The dirty-page log of a function (R347, R348). -/
structure DirtyLog where
  ring    : Nat
  pages   : List Nat
  ovf     : Bool
  dropped : Nat
  prod    : Nat
  cons    : Nat
deriving DecidableEq, Repr

/-- A function (R326, Table 12-2). -/
structure Fn where
  n       : Nat
  windows : List (Nat × Range)
  event   : BitVec 7
  drops   : Nat
  invAddr : Nat
  invLen  : Nat
  invIdx  : Nat
  /-- BUSY, with the operations that must be performed first (R259). -/
  inv     : Option (List Nat)
  log     : Option DirtyLog
  tdisp   : Tdisp
  clock   : Nat
  /-- Steps of an FLR that have begun (Table 12-8); 0 when none runs. -/
  flr     : Nat
  digest  : Nat
deriving DecidableEq, Repr

/-! ## Collectives and fabric (07, 12) -/

/-- A collective descriptor (Table 7-6). -/
structure Desc where
  send   : Nat
  recv   : Nat
  res    : Nat
  done   : Nat
  dinc   : Nat
  count  : Nat
  chunk  : Nat
  op     : Nat
  type   : Nat
  red    : Nat
  root   : Nat
  queue  : Nat
  resid  : Bool
  wire   : Nat
  status : Nat
deriving DecidableEq, Repr

/-- A collective queue of a context, its communicator (R341), and the posting times of its collectives so far (R280). -/
structure CollQueue where
  ctx   : Nat
  q     : Nat
  comm  : Comm
  posts : List Nat
deriving DecidableEq, Repr

/-- An element of a rank's own contribution as it has been quantised with its residual (R71): its number in SEND, code, scale,
the value that they spell, the new residual. -/
structure OwnCode where
  i     : Nat
  code  : Nat
  scale : Nat
  value : Lane
  res   : Lane
deriving DecidableEq, Repr

/-- A quantum of a collective at its engine (R376): the write of what the rank keeps, a chunk combined or written, a chunk
sent. -/
inductive Quantum where
  | keep
  | take (chunk : Nat)
  | give (chunk : Nat)
deriving DecidableEq, Repr

/-- A posted collective at this rank (R226, R342, R343). -/
structure Coll where
  id     : Nat
  ctx    : Nat
  q      : Nat
  /-- How many collectives were posted on the queue before it: its number at every rank. -/
  seq    : Nat
  engine : Nat
  comm   : Comm
  desc   : Desc
  time   : Nat
  /-- A launch whose blocks' exits make chunks eligible (R233). -/
  launch : Option Nat
  /-- The step of R342 that is next or has been entered; whether its own write of RECV has been made (R376). -/
  step   : Nat
  begun  : Bool
  kept   : Bool
  /-- The quantum that has started and has been charged (R282), until it has run. -/
  paid   : Option Quantum
  /-- Peers whose READY, or barrier message, has come and has not been used. -/
  ready  : List Nat
  /-- Chunks to receive in this step: asked for, with the order of asking (R396); cleared and not yet combined; arrived;
  combined or written. -/
  asks   : List (Nat × Nat)
  opened : List Nat
  arrived : List (Nat × List Byte)
  got    : List Nat
  /-- The wire bytes that have come in this step, by chunk. -/
  rx     : List (Nat × List Byte)
  /-- Chunks to send in this step: cleared by the peer, with the order of arrival; holding a send buffer; sent. -/
  cleared : List (Nat × Nat)
  sends  : List Nat
  sent   : List Nat
  /-- Values that the rank has received or worked out, by element; what of its contribution has been quantised (R71). -/
  work   : List (Nat × Lane)
  own    : List OwnCode
deriving DecidableEq, Repr

/-- A triggered operation (R227). -/
structure Trigger where
  id     : Nat
  ctx    : Nat
  launch : Option Nat
  inJob  : Bool
  pa     : Nat
  thresh : Nat
  desc   : Desc
  clock  : Nat
deriving DecidableEq, Repr

/-- A Eutrix port (R292, R338 to R340); not listed: down, nothing allowed. -/
structure Port where
  n        : Nat
  up       : Bool
  rtt      : Nat
  allowed  : List Nat
  reserved : Nat
  paused   : Bool
  seq      : Nat
  /-- The link sequence number that comes next, and the flits that have come of each open packet, by channel, tag and
  sender. -/
  rxSeq    : Nat
  rx       : List (Nat × Nat)
deriving DecidableEq, Repr

/-- A packet on its way (R338 to R340): whose it is, the port that its first flit has taken, the flits left. A message to a
rank on this package passes no port: it waits for a collective of a context's queue, by number (log entry 99). -/
structure Egress where
  ctx  : Nat
  port : Option Nat
  left : Nat
  pkt  : Packet
  home : Option (Nat × Nat × Nat)
deriving DecidableEq, Repr

/-- A request of this package to another (R272, R310), or to host memory. -/
structure Remote where
  req  : Nat
  /-- For a lane of an operation; for a piece of a job, with the image offset. -/
  op   : Option (Nat × Nat)
  job  : Option (Nat × Nat × Nat)
  ctx  : Nat
  pkg  : Nat
  pa   : Nat
  ask  : RemoteAsk
  clock : Nat
  sent : Option Nat
deriving DecidableEq, Repr

/-- A monitor that another package holds on a line of this one: its request, the time it has recorded, and the time of the
later write that ends it (R129, R130). -/
structure Watch where
  pkt  : RemotePkt
  time : Nat
  hit  : Option Nat
deriving DecidableEq, Repr

/-- A write of the device's own (R37, R226): an object, bytes, an increment of a counter word. -/
inductive OwedWrite where
  | object (count : Nat) (error cancelled : Bool)
  | bytes (bs : List Byte)
  | inc (n : Nat)
deriving DecidableEq, Repr

/-- Such a write that has not been performed. Writes of a context are performed in order; one of a chain takes no earlier
time than the one before it (R37, R38, R272). -/
structure Owed where
  ctx     : Nat
  chained : Bool
  clock : Nat
  addr  : Nat
  what  : OwedWrite
deriving DecidableEq, Repr

/-- How a request for a unit has ended: its time and bytes, or a cause. -/
inductive Answer where
  | done (t : Nat) (bytes : List Byte)
  | failed (cause : Nat)
deriving DecidableEq, Repr

/-- What the outside has been sent (log entry 8). -/
inductive Msg where
  | completion (fn : Nat) (bytes : List Byte)
  | unsupported (fn : Nat)
  | abort (fn : Nat)
  | msix (fn vec : Nat)
  | flit (port : Nat) (head : FlitHead) (fcrc : BitVec 32) (payload : List Byte)
  | packet (port : Nat) (p : Packet)
  | hostWrite (fn iova : Nat) (bytes : List Byte)
  | hostRead (req fn iova n : Nat)
  | atsRequest (fn page : Nat)
  | command (code status : Nat)
  | spdm (die : Nat) (request : String) (ok : Bool) (data : List (List Nat))
  | tdisp (fn : Nat) (request : String) (ok : Bool) (data : List (List Nat))
  | configRetry
  | internalError (pa : Nat)
deriving DecidableEq, Repr

/-- An SPDM responder of a die (R336): how far the connection has come, its sessions, its measurements. -/
structure Spdm where
  die      : Nat
  version  : Bool
  caps     : Bool
  algs     : Bool
  sessions : List (Nat × Bool)
  measures : List (Nat × Nat)
deriving DecidableEq, Repr

/-! ## The device -/

/-- A core: what it holds besides engines, blocks and memory. Not listed: the reset values. -/
structure Core where
  n        : Nat
  /-- PASS (R45), and k_p of each port (R44). -/
  pass     : Nat
  k        : List Nat
  /-- The copy-fault FIFO (R198), and the pending claims, oldest first: wave, granules (R29). -/
  fifo     : List FaultEntry
  claims   : List (Nat × Nat)
  /-- L1 ways that are assigned to contexts (R249): way, context. -/
  l1Ways   : List (Nat × Nat)
  /-- Context whose class-2 work ran last, per port (R285). -/
  lastCtx  : List Nat
  retired  : Bool
  mapped   : Bool
  retention : Bool
  /-- When a core in retention that has been woken is awake (R359). -/
  wake     : Option Nat
  /-- Until when an instruction of several passes holds each port (R286). -/
  busy     : List Nat
  idle     : Nat
  /-- A migration request names it (R358); the end of a cold reset (R360). -/
  migrating : Bool
  coldTill : Option Nat
deriving DecidableEq, Repr

/-- The device: every unit but the management processor. -/
structure Dev where
  /-- The gang the arbiter has selected, which issues its instruction next (R20, R286). -/
  latch    : Option GangRef
  clock    : Nat
  /-- Counter that names the next free value (log entry 2). -/
  free     : Nat
  /-- Fresh numbers of waves, blocks, operations and keys (log entry 3). -/
  nextId   : Nat
  /-- Slot `c` holds key `keyBase + c` first; later keys are fresh numbers (R335; log entry 17). -/
  keyBase  : Nat
  rot      : Nat
  mem      : List Host.Cell
  sectors  : List Sector
  /-- Resident lines, in the order of the recency stacks: the protected end first (R250, R251). -/
  llc      : List LlcLine
  /-- LLC ways that are assigned to contexts (R251): way, context. -/
  llcWays  : List (Nat × Nat)
  mt       : List (Nat × Nat)
  l1       : List L1Line
  icache   : List IEntry
  tlb      : List TlbEntry
  ats      : List (Nat × Nat)
  atsAsked : List (Nat × Nat)
  xfers    : List Xfer
  locmem   : List LocMem
  loclines : List LocLine
  poison   : List (Nat × Space × Nat)
  /-- Registers of waves that cannot be corrected, and the values they hold: a write of another value ends the error (R263). -/
  badRegs  : List (Nat × RegName × Word)
  cores    : List Core
  engines  : List Engine
  ticket   : Nat
  surge    : List (Nat × Nat)
  /-- Cores whose tile operation waits at its current-surge arbiter, in order of arrival (R302). -/
  surgeWait : List Nat
  allow    : List Nat
  waves    : List Wave
  blocks   : List Block
  teams    : List Team
  launches : List Launch
  levels   : List Level
  pending  : List Pending
  memops   : List MemOp
  /-- Deferred reports that wait for their boundary (R178): the operation's number stands for it. -/
  reports  : List MemOp
  jobs     : List Job
  servers  : List Server
  /-- The context that each point's arbiter has chosen for its next quantum, and the class-2 context that ran last
  (R285). -/
  picks    : List (Point × Nat)
  turns    : List (Point × Nat)
  ctxs     : List Ctx
  keys     : List (Nat × Nat)
  fns      : List Fn
  queues   : List CollQueue
  colls    : List Coll
  triggers : List Trigger
  ports    : List Port
  tagHomes : List (Nat × Nat)
  egress   : List Egress
  remotes  : List Remote
  watches  : List Watch
  /-- Requests of other packages' copies that wait for budget at this package's channels (R382). -/
  held     : List RemotePkt
  owed     : List Owed
  /-- Replies that wait for a reader other than a lane or a copy: reader, offset, what came. -/
  inbox    : List (Nat × Nat × Answer)
  /-- The registers that the waves of suspended blocks named as sD of `susp`: context, identity, registers (R236, R239). -/
  suspRegs : List (Nat × Nat × List SReg)
  out      : List Msg
deriving DecidableEq, Repr

/-! ## The management processor (13) -/

/-- An island (R352 to R355): vote, point in force, voltage in mV, frequency in MHz. -/
structure Island where
  n    : Nat
  vote : Nat
  mv   : Nat
  mhz  : Nat
  /-- When the change that it is making ends (R354, R355). -/
  next : Option Nat
deriving DecidableEq, Repr

/-- What a rail is doing (R354, R355). -/
inductive RailPhase where
  | steady
  | lowering (till : Nat)
  | holdoff (till : Nat)
  | falling (next : Nat)
  | rising (next : Nat)
deriving DecidableEq, Repr

/-- A rail (R351): voltage and target in mV. -/
structure Rail where
  n      : Nat
  mv     : Nat
  target : Nat
  phase  : RailPhase
  /-- A current emergency: when the clock stretch ends (R356). -/
  stretch : Option Nat
deriving DecidableEq, Repr

/-- A migration request of a die: its cores and when it opened (R358). -/
structure Migration where
  die    : Nat
  cores  : List Nat
  opened : Nat
deriving DecidableEq, Repr

/-- An action of the power controller, for undoing it (R350, Table 13-1). -/
inductive CtlAction where
  /-- k and the vote of a core were lowered: which of them. -/
  | ratio (core : Nat) (k vote : Bool)
  | pass (core : Nat)
  | passGuaranteed (core : Nat)
  | allowance
deriving DecidableEq, Repr

/-- The management processor and its registers (Table 13-5), the security responders. -/
structure Mgmt where
  ready   : Bool
  errcode : Nat
  phase   : Nat
  watts   : Nat
  /-- Cuts of the engine allowance in force, each 5 percent of P / 2 (R350). -/
  cuts    : Nat
  pkgw    : Nat
  levels  : List (Nat × Nat)
  /-- The hottest junction of each die, as last reported. -/
  temps   : List (Nat × Nat)
  emerg   : Nat
  seccnt  : Nat
  /-- Fatal package errors that have been raised: the lines whose tags failed (R263). -/
  fatal   : List Nat
  brkhalt : Bool
  iwaddr  : Nat
  iwhit   : Bool
  iwcore  : Nat
  iwctx   : Nat
  iwdata  : BitVec 96
  retlog  : Option (Nat × BitVec 4)
  islands : List Island
  rails   : List Rail
  actions : List CtlAction
  migrations : List Migration
  ticked  : Nat
  retiring : List RetireArgs
  retiredChannels : List Nat
  cmdBusy : Bool
  /-- The command that a GO has started and whose record has not been acted on (R330). -/
  cmdGo   : Option Nat
  cmdStatus : Nat
  cmdCode : Nat
  /-- Bytes of the command record that are not zero, by offset (R330). -/
  cmdRec  : List Host.Cell
  spdm    : List Spdm
  /-- IDE: the streams with a key programmed, and the keys' names (R337). -/
  ide     : List (Nat × Nat)
deriving DecidableEq, Repr

/-- One entry of the schedule: the cycles that pass, and a step of the device or of the outside, or a choice of the
arbiter's own (log entry 1). -/
structure Sched where
  dt : Nat
  ev : Option Instr
deriving DecidableEq, Repr

/-- The state of the package, and the schedule of the steps whose order and spacing no rule fixes. -/
structure State where
  dev      : Dev
  mgmt     : Mgmt
  schedule : List Sched
deriving DecidableEq, Repr

/-- Faults of the model. -/
inductive Fault where
  /-- An instruction's meaning was run although the arbiter has selected no gang (or a gang that has gone). No run of
  `step` raises it. Safe. -/
  | noIssuer
deriving DecidableEq, Repr

/-- Refusals of the model. -/
inductive Refusal where
  /-- Raised by `exec` for an instruction without a meaning. Safe. -/
  | notModelled (mnemonic : String)
deriving DecidableEq, Repr

/-! ## Reset -/

/-- A core right after reset (R15, R44, R45): PASS 1, every k_p 8, enabled. -/
def Core.reset (n : Nat) : Core where
  n := n
  pass := 1
  k := [8, 8, 8, 8, 8, 8]
  fifo := []
  claims := []
  l1Ways := []
  lastCtx := [0, 0, 0, 0, 0, 0]
  retired := false
  mapped := true
  retention := false
  wake := none
  busy := [0, 0, 0, 0, 0, 0]
  idle := 0
  migrating := false
  coldTill := none

/-- The units at package reset (R60, R266, R296, R361): nothing placed, nothing cached, clock and memory times 0. -/
def Dev.reset : Dev where
  latch := none
  clock := 0
  free := 0
  nextId := 256
  keyBase := 0
  rot := 0
  mem := []
  sectors := []
  llc := []
  llcWays := []
  mt := []
  l1 := []
  icache := []
  tlb := []
  ats := []
  atsAsked := []
  xfers := []
  locmem := []
  loclines := []
  poison := []
  badRegs := []
  cores := []
  engines := []
  ticket := 1
  surge := []
  surgeWait := []
  allow := [4500, 4500, 4500, 4500]
  waves := []
  blocks := []
  teams := []
  launches := []
  levels := []
  pending := []
  memops := []
  reports := []
  jobs := []
  servers := []
  picks := []
  turns := []
  ctxs := []
  keys := []
  fns := []
  queues := []
  colls := []
  triggers := []
  ports := []
  tagHomes := []
  egress := []
  remotes := []
  watches := []
  held := []
  owed := []
  inbox := []
  suspRegs := []
  out := []

/-- The management registers at reset (Table 13-5): PWRCAP 3,600, everything else zero; no phase has ended. -/
def Mgmt.reset : Mgmt where
  ready := false
  errcode := 0
  phase := 0
  watts := 3600
  cuts := 0
  pkgw := 0
  levels := []
  temps := []
  emerg := 0
  seccnt := 0
  fatal := []
  brkhalt := false
  iwaddr := 0
  iwhit := false
  iwcore := 0
  iwctx := 0
  iwdata := 0
  retlog := none
  islands := []
  rails := []
  actions := []
  migrations := []
  ticked := 0
  retiring := []
  retiredChannels := []
  cmdBusy := false
  cmdGo := none
  cmdStatus := 0
  cmdCode := 0
  cmdRec := []
  spdm := []
  ide := []

/-- The package right after reset: phase 0 of bring-up, no context (R361). -/
def State.reset : State where
  dev := .reset
  mgmt := .reset
  schedule := []

end Sys2Proof.Machine
end

