-- ==== Sys2Proof/Machine/Cells.lean ====
section
/-!
DEFINITION. Collections and bytes: sparse memories in canonical form (R6), numbered records, and the look-ups of the
device's units.
-/

namespace Sys2Proof.Machine

/-! ## Bytes -/

/-- The byte at an address; a byte that is not listed reads zero (log entry 4). -/
def cellGet : List Host.Cell → Nat → Byte
  | [], _ => 0
  | (k, v) :: t, a => if k = a then v else cellGet t a

/-- A byte is put in place; the list stays rising and holds no zero. -/
def cellPut : List Host.Cell → Nat → Byte → List Host.Cell
  | [], a, x => if x = 0 then [] else [(a, x)]
  | (k, v) :: t, a, x =>
    if a < k then (if x = 0 then (k, v) :: t else (a, x) :: (k, v) :: t)
    else if a = k then (if x = 0 then t else (a, x) :: t)
    else (k, v) :: cellPut t a x

/-- Addresses strictly rising from `lo` on. -/
def cellsFrom : Nat → List Host.Cell → Bool
  | _, [] => true
  | lo, (k, v) :: t => decide (lo ≤ k) && v != 0 && cellsFrom (k + 1) t

/-- The canonical form of a memory: addresses strictly rising, no entry zero. -/
def Memory.wf (m : List Host.Cell) : Bool := cellsFrom 0 m

/-- `n` bytes from an address on. -/
def cellRead (m : List Host.Cell) (a : Nat) : Nat → List Byte
  | 0 => []
  | n + 1 => cellGet m a :: cellRead m (a + 1) n

/-- Bytes put in place from an address on. -/
def cellWrite (m : List Host.Cell) (a : Nat) : List Byte → List Host.Cell
  | [] => m
  | b :: bs => cellWrite (cellPut m a b) (a + 1) bs

/-- The number that bytes spell, least significant first (R6). -/
def leNat : List Byte → Nat
  | [] => 0
  | b :: bs => b.toNat + 256 * leNat bs

/-- The `n` bytes of a number, least significant first (R6). -/
def leBytes : Nat → Nat → List Byte
  | 0, _ => []
  | n + 1, w => BitVec.ofNat 8 w :: leBytes n (w / 256)

/-- A little-endian field of a record: offset, size. -/
def field (bs : List Byte) (off n : Nat) : Nat := leNat ((bs.drop off).take n)

/-- Every byte of a field is zero (reserved fields, R8). -/
def zeroField (bs : List Byte) (off n : Nat) : Bool := ((bs.drop off).take n).all (· == 0)

/-! ## Numbered records -/

/-- The records that satisfy `p` are changed by `f`. -/
def modIf {α : Type} (p : α → Bool) (f : α → α) (l : List α) : List α := l.map fun x => if p x then f x else x

/-- A record is changed, or put at the end if it is not listed. -/
def upsert {α : Type} (p : α → Bool) (new : α) (f : α → α) (l : List α) : List α :=
  if l.any p then modIf p f l else l ++ [f new]

/-- The value under a number, zero where it is not listed. -/
def assoc (l : List (Nat × Nat)) (k : Nat) : Nat := ((l.find? (·.1 == k)).map (·.2)).getD 0

/-- A value is put under a number. -/
def assocPut (l : List (Nat × Nat)) (k v : Nat) : List (Nat × Nat) := upsert (·.1 == k) (k, v) (fun _ => (k, v)) l

/-- A list with one element replaced. -/
def setAt {α : Type} (l : List α) (i : Nat) (x : α) : List α := l.set i x

/-- The largest of a list, zero for none. -/
def maxOf (l : List Nat) : Nat := l.foldl max 0

/-- The first element for which `f` is least. -/
def leastBy {α : Type} (f : α → Nat) : List α → Option α
  | [] => none
  | x :: t =>
    match leastBy f t with
    | none => some x
    | some y => if f x ≤ f y then some x else some y

/-! ## Units of the device -/

def Dev.wave? (d : Dev) (id : Nat) : Option Wave := d.waves.find? (·.id == id)
def Dev.modWave (d : Dev) (id : Nat) (f : Wave → Wave) : Dev := { d with waves := modIf (·.id == id) f d.waves }
def Dev.block? (d : Dev) (id : Nat) : Option Block := d.blocks.find? (·.id == id)
def Dev.modBlock (d : Dev) (id : Nat) (f : Block → Block) : Dev := { d with blocks := modIf (·.id == id) f d.blocks }
def Dev.ctx? (d : Dev) (n : Nat) : Option Ctx := d.ctxs.find? (·.n == n)
def Dev.modCtx (d : Dev) (n : Nat) (f : Ctx → Ctx) : Dev := { d with ctxs := modIf (·.n == n) f d.ctxs }
def Dev.launch? (d : Dev) (id : Nat) : Option Launch := d.launches.find? (·.id == id)
def Dev.modLaunch (d : Dev) (id : Nat) (f : Launch → Launch) : Dev :=
  { d with launches := modIf (·.id == id) f d.launches }
def Dev.job? (d : Dev) (id : Nat) : Option Job := d.jobs.find? (·.id == id)
def Dev.modJob (d : Dev) (id : Nat) (f : Job → Job) : Dev := { d with jobs := modIf (·.id == id) f d.jobs }
def Dev.team? (d : Dev) (id : Nat) : Option Team := d.teams.find? (·.id == id)
def Dev.coll? (d : Dev) (id : Nat) : Option Coll := d.colls.find? (·.id == id)
def Dev.modColl (d : Dev) (id : Nat) (f : Coll → Coll) : Dev := { d with colls := modIf (·.id == id) f d.colls }
def Dev.op? (d : Dev) (id : Nat) : Option MemOp := d.memops.find? (·.id == id)
def Dev.modOp (d : Dev) (id : Nat) (f : MemOp → MemOp) : Dev := { d with memops := modIf (·.id == id) f d.memops }

/-- A core; the reset core where nothing has been recorded of it. -/
def Dev.core (d : Dev) (n : Nat) : Core := (d.cores.find? (·.n == n)).getD (Core.reset n)
def Dev.modCore (d : Dev) (n : Nat) (f : Core → Core) : Dev :=
  { d with cores := upsert (·.n == n) (Core.reset n) f d.cores }

/-- The compute die of a core (R2). -/
def dieOf (core : Nat) : Nat := core / 224

/-- An engine that nothing has been recorded of: DARK and empty (R296). -/
def Engine.dark (core : Nat) (k : EngKind) : Engine where
  core := core
  kind := k
  st := .dark
  holder := none
  till := 0
  granted := 0
  since := 0
  lastCtx := none
  former := none
  formerAt := 0
  idle := 0
  queue := []
  notes := []
  forPower := false
  lut := []
  stale := []
  slots := []

def Dev.engine (d : Dev) (core : Nat) (k : EngKind) : Engine :=
  (d.engines.find? fun e => e.core == core && e.kind == k).getD (Engine.dark core k)
def Dev.modEngine (d : Dev) (core : Nat) (k : EngKind) (f : Engine → Engine) : Dev :=
  { d with engines := upsert (fun e => e.core == core && e.kind == k) (Engine.dark core k) f d.engines }

/-- A function's page at its reset values (Table 12-2). -/
def Fn.reset (n : Nat) : Fn where
  n := n
  windows := []
  event := 0
  drops := 0
  invAddr := 0
  invLen := 0
  invIdx := 0
  inv := none
  log := none
  tdisp := .unlocked
  clock := 0
  flr := 0
  digest := 0

def Dev.fn (d : Dev) (n : Nat) : Fn := (d.fns.find? (·.n == n)).getD (Fn.reset n)
def Dev.modFn (d : Dev) (n : Nat) (f : Fn → Fn) : Dev := { d with fns := upsert (·.n == n) (Fn.reset n) f d.fns }

/-- A port at reset: down, nothing allowed (R340). -/
def Port.reset (n : Nat) : Port where
  n := n
  up := false
  rtt := 0
  allowed := []
  reserved := 0
  paused := false
  seq := 0
  rxSeq := 0
  rx := []

def Dev.port (d : Dev) (n : Nat) : Port := (d.ports.find? (·.n == n)).getD (Port.reset n)
def Dev.modPort (d : Dev) (n : Nat) (f : Port → Port) : Dev :=
  { d with ports := upsert (·.n == n) (Port.reset n) f d.ports }

/-- A fresh number, and the device that has given it. -/
def Dev.fresh (d : Dev) : Nat × Dev := (d.nextId, { d with nextId := d.nextId + 1 })

/-- A free value, and the device that has given it (log entry 2). -/
def Dev.freeWord (d : Dev) : Word × Dev := (Config.freeBits d.free, { d with free := d.free + 1 })

/-- Something is sent to the outside. -/
def Dev.send (d : Dev) (m : Msg) : Dev := { d with out := d.out ++ [m] }

/-- The live waves of a block: those with a strand that has not exited (R143). -/
def Wave.live (w : Wave) : Bool := w.strands.any (!·.exited)
def Dev.blockWaves (d : Dev) (b : Nat) : List Wave := d.waves.filter (·.block == b)
def Dev.liveWaves (d : Dev) (b : Nat) : List Wave := (d.blockWaves b).filter (·.live)

/-- The size of a local space of a core (Table 8-1). -/
def Space.size : Space → Nat
  | .scratch => 262144
  | .wbuf => 524288
  | .abuf => 262144
  | .acc => 524288

def Block.range (b : Block) : Space → Range
  | .scratch => b.scratch
  | .wbuf => b.wbuf
  | .abuf => b.abuf
  | .acc => b.acc

/-- An EVENT bit of a function is set; MSI-X vector 0 is raised when it was clear (R329). -/
def Dev.setEvent (d : Dev) (n bit : Nat) : Dev :=
  let was := (d.fn n).event.getLsbD bit
  let d := d.modFn n fun f => { f with event := f.event ||| (1#7 <<< bit) }
  if was then d else d.send (.msix n 0)

end Sys2Proof.Machine
end

