-- ==== Sys2Proof/Machine/Memory.lean ====
section
/-!
DEFINITION. Memory: keys and carried checks of sectors, times of lines, the homes (R264 to R275), address translation
(R255 to R258), and the package footprint checker (R276, R277). The plain bytes of LLC and memory together are one
sparse memory: the LLC adds times, key slots and dirty owners, never other bytes (R250, R252).
-/

namespace Sys2Proof.Machine

/-! ## Cause numbers (Table 11-1) -/

abbrev cIllegal : Nat := 0
abbrev cFetch : Nat := 1
abbrev cXlate : Nat := 2
abbrev cRights : Nat := 3
abbrev cAlign : Nat := 4
abbrev cIntegrity : Nat := 5
abbrev cRegrange : Nat := 6
abbrev cFmtdiv : Nat := 7
abbrev cNolease : Nat := 8
abbrev cLeaselost : Nat := 9
abbrev cCopyfault : Nat := 10
abbrev cDeadlock : Nat := 11
abbrev cTeamabsent : Nat := 12
abbrev cDoubleresume : Nat := 13
abbrev cObject : Nat := 14
abbrev cPairtimeout : Nat := 15
abbrev cPreempt : Nat := 16
abbrev cMigrate : Nat := 17
abbrev cCancel : Nat := 18
abbrev cTrapinsn : Nat := 19
abbrev cBreak : Nat := 20
abbrev cWatchdog : Nat := 21
abbrev cBarrier : Nat := 22
abbrev cGang : Nat := 23
abbrev cGuarantee : Nat := 24
abbrev cEnergy : Nat := 25

/-! ## Sectors (R252, R253, R260, R261, R394) -/

/-- The key in a slot (R335); the one that an empty slot will hold first. -/
def Dev.keyOf (d : Dev) (slot : Nat) : Nat := ((d.keys.find? (·.1 == slot)).map (·.2)).getD (d.keyBase + slot)

def Dev.sector? (d : Dev) (i : Nat) : Option Sector := d.sectors.find? (·.idx == i)

/-- The byte at a PA as a key slot sees it: plaintext under the writer's key, what the ciphertext decrypts to under
another (R252, R253); what a sector that nothing has written holds is open (R394). -/
def Dev.byteAt (d : Dev) (slot a : Nat) : Byte :=
  match d.sector? (a / 32) with
  | none => Config.coldByte (d.keyOf slot) a
  | some s =>
    if s.key = d.keyOf slot then cellGet d.mem a
    else ((otherKey (d.keyOf slot) s.key (a / 32) (cellRead d.mem (a / 32 * 32) 32))[a % 32]?).getD 0

/-- What a sector's stored check differs by from the CRC-16 of the bytes that a key slot sees: 0 where the check holds. For
a sector nothing has written it is open (R394); under another key it fails (R252). -/
def Dev.flawAt (d : Dev) (slot i : Nat) : BitVec 16 :=
  match d.sector? i with
  | none => if Config.coldBad (d.keyOf slot) i then 1 else 0
  | some s => if s.key = d.keyOf slot then s.flaw else 1

/-- The stored check of a sector holds for a key slot (R262). -/
def Dev.sectorOk (d : Dev) (slot i : Nat) : Bool := d.flawAt slot i == 0

/-- The check that travels with a sector: the CRC-16 of its bytes, or what stands in its place (R260). -/
def carriedCheck (bytes : List Byte) (flaw : BitVec 16) : BitVec 16 := crc16 bytes ^^^ flaw

/-- A sector's bytes change while its stored check stays (R254, R263). -/
def Dev.spoil (d : Dev) (i : Nat) (bs : List Byte) : Dev :=
  let stored (s : Sector) : Sector :=
    { s with flaw := carriedCheck (cellRead d.mem (32 * i) 32) s.flaw ^^^ crc16 (cellRead (cellWrite d.mem (32 * i) bs) (32 * i) 32) }
  if (d.sector? i).isNone then d
  else { d with mem := cellWrite d.mem (32 * i) bs, sectors := modIf (·.idx == i) stored d.sectors }

def bytesFrom (f : Nat → Byte) (a : Nat) : Nat → List Byte
  | 0 => []
  | n + 1 => f a :: bytesFrom f (a + 1) n

/-- The sectors that `n` bytes at an address touch. -/
def sectorsOf (a n : Nat) : List Nat := (List.range ((a + n + 31) / 32 - a / 32)).map (· + a / 32)

/-- `n` bytes at a PA, and whether every check holds. -/
def Dev.readGlob (d : Dev) (slot a n : Nat) : List Byte × Bool :=
  (bytesFrom (d.byteAt slot) a n, (sectorsOf a n).all (d.sectorOk slot))

/-- A sector is wholly inside `n` bytes at `a` (R261). -/
def wholeSector (a n i : Nat) : Bool := decide (a ≤ 32 * i ∧ 32 * i + 32 ≤ a + n)

/-- Bytes are written at a PA under a slot's key, with fresh checks; nothing when a partly written sector's stored
check fails (R261). A partly written sector that nothing had written keeps the bytes it showed. -/
def Dev.putGlob (d : Dev) (slot a : Nat) (bs : List Byte) : Option Dev :=
  let is := sectorsOf a bs.length
  if is.all (fun i => wholeSector a bs.length i || d.sectorOk slot i) then
    let new (i : Nat) : Sector := ⟨i, d.keyOf slot, 0⟩
    let kept := is.foldl (fun m i =>
      if wholeSector a bs.length i || (d.sector? i).isSome then m
      else cellWrite m (32 * i) (bytesFrom (d.byteAt slot) (32 * i) 32)) d.mem
    some { d with
      mem := cellWrite kept a bs
      sectors := is.foldl (fun l i => upsert (·.idx == i) (new i) (fun _ => new i) l) d.sectors }
  else none

/-- The checks of the sectors that bytes at a PA touch, as they travel: the CRC-16 of a sector that is there whole (R260). -/
def sentChecks (pa : Nat) (bs : List Byte) : List (BitVec 16) :=
  (sectorsOf pa bs.length).map fun i => if wholeSector pa bs.length i then crc16 ((bs.drop (32 * i - pa)).take 32) else 0

/-- A store of another package: its bytes, with their checks. -/
def farStore (pa : Nat) (bs : List Byte) : RemoteAsk := .write bs (sentChecks pa bs)

/-- Sectors that a packet has brought whole keep the checks that have come with them (R260); one whose check has not come
keeps its fresh one. `whole` tells which have come whole. -/
def Dev.keepChecks (d : Dev) (pa n : Nat) (whole : Nat → Bool) (checks : List (BitVec 16)) : Dev :=
  ((sectorsOf pa n).zip checks).foldl (fun (d : Dev) x =>
    if whole x.1 then
      { d with sectors := modIf (·.idx == x.1) (fun s => { s with flaw := crc16 (cellRead d.mem (32 * x.1) 32) ^^^ x.2 }) d.sectors }
    else d) d

/-! ## Lines and times (R247, R250, R266) -/

/-- The LLC slice of a PA (R247). -/
def sliceOf (pa : Nat) : Nat :=
  let f (i : Nat) := pa / 2 ^ i % 128
  Nat.xor (Nat.xor (Nat.xor (f 7) (f 14)) (Nat.xor (f 21) (f 28))) (Nat.xor (f 35) (pa / 2 ^ 42 % 64))

/-- The set of a PA within its slice (R247). -/
def llcSet (pa : Nat) : Nat := pa / 2 ^ 14 % 2048

/-- The memory channel of a PA (R247). -/
def channelOf (pa : Nat) : Nat :=
  if pa < 0x008000000000 then
    let f (i : Nat) := pa / 2 ^ i % 128
    Nat.xor (Nat.xor (f 11) (f 18)) (Nat.xor (f 25) (f 32))
  else 128 + (pa - 0x010000000000) / 2 ^ 11 % 24

def Dev.line? (d : Dev) (line : Nat) : Option LlcLine := d.llc.find? (·.line == line)

/-- A line leaves the LLC: MT rises to its times; a dirty line is written back, charged to its owner (R250, R266). -/
def Dev.evictLine (d : Dev) (l : LlcLine) : Dev :=
  let s := sliceOf (l.line * 128)
  { d with
    llc := d.llc.filter (·.line != l.line)
    mt := assocPut d.mt s (max (assoc d.mt s) (max l.wt l.le))
    xfers := match l.owner with
      | some c => d.xfers ++ [⟨channelOf (l.line * 128), l.line, c, false⟩]
      | none => d.xfers }

/-- The ways that a context's lines may fill, of `n`: its own, or those that nobody owns (R249, R251). DESIGN CHOICE
(log entry 102): a guaranteed context whose WAYS is 0 owns none, and fills as a context without a guarantee does. -/
def fillWays (owned : List (Nat × Nat)) (n ctx : Nat) : List Nat :=
  let mine := (owned.filter (·.2 == ctx)).map (·.1)
  if mine.isEmpty then (List.range n).filter fun w => !owned.any (·.1 == w) else mine

/-- Ways of a structure of `n` come to be a context's, `k` in number: it keeps what it has, and takes the lowest free ones
(R249, R251; log entry 102). -/
def assignWays (owned : List (Nat × Nat)) (n ctx k : Nat) : List (Nat × Nat) :=
  let mine := (owned.filter (·.2 == ctx)).take k
  let others := owned.filter (·.2 != ctx)
  let free := (List.range n).filter fun w => !others.any (·.1 == w) && !mine.any (·.1 == w)
  others ++ mine ++ (free.take (k - mine.length)).map fun w => (w, ctx)

/-- Where a line of a set is filled: a way that holds nothing, or the way of the line nearest the eviction end, which
leaves. `set` are the ways in use and their lines, the protected end first. -/
def chooseWay {α : Type} (ways : List Nat) (set : List (Nat × α)) : Nat × Option α :=
  match ways.find? fun w => !set.any (·.1 == w) with
  | some w => (w, none)
  | none =>
    match (set.filter fun x => ways.contains x.1).getLast? with
    | some x => (x.1, some x.2)
    | none => (0, none)

/-- A line is filled for a key slot (R250, R251): in a way of the context's, the least protected line of those leaving; a
guaranteed context's line enters at the protected end, every other at the eviction end. It takes the slice's MT as its
times (R266), and the fill is charged to the context (R250). -/
def Dev.fillLlc (d : Dev) (slot pa ctx : Nat) : Dev :=
  let here := d.llc.filter fun l => sliceOf (l.line * 128) == sliceOf pa && llcSet (l.line * 128) == llcSet pa
  let (way, out) := chooseWay (fillWays d.llcWays 16 ctx) (here.map fun l => (l.way, l))
  let d := match out with | some l => d.evictLine l | none => d
  let t := assoc d.mt (sliceOf pa)
  let new : LlcLine := ⟨pa / 128, way, slot, none, t, t⟩
  { d with
    llc := if d.llcWays.any (·.2 == ctx) then new :: d.llc else d.llc ++ [new]
    xfers := d.xfers ++ [⟨channelOf pa, pa / 128, ctx, false⟩] }

/-- The line of a PA is made resident for a key slot; a line met under another slot is written back and filled again
(R252). A line that is met moves to the protected end of its recency stack (log entry 102). -/
def Dev.touchLine (d : Dev) (slot pa ctx : Nat) : Dev :=
  match d.line? (pa / 128) with
  | none => d.fillLlc slot pa ctx
  | some l =>
    if l.slot = slot then { d with llc := l :: d.llc.filter (·.line != pa / 128) } else (d.evictLine l).fillLlc slot pa ctx

/-- WT and LE of a resident line. -/
def Dev.lineTimes (d : Dev) (pa : Nat) : Nat × Nat :=
  match d.line? (pa / 128) with
  | some l => (l.wt, l.le)
  | none => (assoc d.mt (sliceOf pa), assoc d.mt (sliceOf pa))

def Dev.setLine (d : Dev) (pa : Nat) (f : LlcLine → LlcLine) : Dev :=
  { d with llc := modIf (·.line == pa / 128) f d.llc }

/-! ## The L1 (R248, R249, R271) -/

/-- A line is a core's copy for a key slot, of a line here or of another package. -/
def L1Line.isAt (l : L1Line) (core slot : Nat) (pkg : Option Nat) (line : Nat) : Bool :=
  l.core == core && l.slot == slot && l.pkg == pkg && l.line == line

/-- A copy enters a core's L1 (R248, R249): in the way it has, or in one of the context's; a guaranteed context's line, and
one that is met again, at the protected end, every other at the eviction end. -/
def Dev.putL1 (d : Dev) (new : L1Line) : Dev :=
  let same (l : L1Line) : Bool := l.isAt new.core new.slot new.pkg new.line
  let owned := (d.core new.core).l1Ways
  let rest := d.l1.filter (!same ·)
  match d.l1.find? same with
  | some l => { d with l1 := { new with way := l.way } :: rest }
  | none =>
    let set := rest.filter fun l => l.core == new.core && l.line % 64 == new.line % 64
    let (way, out) := chooseWay (fillWays owned 8 new.slot) (set.map fun l => (l.way, l))
    let rest := rest.filter fun l => some l != out
    { d with l1 := if owned.any (·.2 == new.slot) then { new with way := way } :: rest else rest ++ [{ new with way := way }] }

/-- A copy that may serve a load of a thread with clock `c` (R271). -/
def Dev.l1Serves (d : Dev) (core ctx : Nat) (pkg : Option Nat) (pa c : Nat) : Option L1Line :=
  (d.l1.find? fun l => l.isAt core ctx pkg (pa / 128)).filter fun l => decide (c ≤ l.le ∧ d.clock < l.since + 4096)

/-- The L1 of a core takes a line as its home here has it (R248). -/
def Dev.l1Fill (d : Dev) (core ctx pa : Nat) : Dev :=
  let base := pa / 128 * 128
  let (wt, le) := d.lineTimes pa
  d.putL1 ⟨core, pa / 128, 0, ctx, none, bytesFrom (d.byteAt ctx) base 128, (sectorsOf base 128).map (d.flawAt ctx), wt, le, d.clock⟩

/-- A load that the L1 has not served renews a line that it holds (R248). -/
def Dev.l1Renew (d : Dev) (core ctx pa : Nat) : Dev :=
  if d.l1.any fun l => l.isAt core ctx none (pa / 128) then d.l1Fill core ctx pa else d

/-- `n` bytes of a copy, if their checks hold. -/
def L1Line.read (l : L1Line) (pa n : Nat) : Option (List Byte) :=
  if (sectorsOf (pa % 128) n).all fun i => (l.flaws[i]?).getD 0 == 0 then some ((l.bytes.drop (pa % 128)).take n) else none

def Dev.locTimes (d : Dev) (core : Nat) (sp : Space) (a : Nat) : Nat × Nat :=
  match d.loclines.find? fun l => l.core == core && l.space == sp && l.line == a / 128 with
  | some l => (l.wt, l.le)
  | none => (0, 0)

def Dev.setLoc (d : Dev) (core : Nat) (sp : Space) (a wt le : Nat) : Dev :=
  let new : LocLine := ⟨core, sp, a / 128, wt, le⟩
  { d with loclines :=
      upsert (fun l => l.core == core && l.space == sp && l.line == a / 128) new (fun _ => new) d.loclines }

def Dev.locCells (d : Dev) (core : Nat) (sp : Space) : List Host.Cell :=
  ((d.locmem.find? fun m => m.core == core && m.space == sp).map (·.cells)).getD []

def Dev.setLocCells (d : Dev) (core : Nat) (sp : Space) (f : List Host.Cell → List Host.Cell) : Dev :=
  { d with locmem :=
      upsert (fun m => m.core == core && m.space == sp) ⟨core, sp, []⟩ (fun m => { m with cells := f m.cells }) d.locmem }

/-- A word of a local space has an uncorrectable error (R263). -/
def Dev.poisoned (d : Dev) (core : Nat) (sp : Space) (a n : Nat) : Bool :=
  d.poison.any fun p => p.1 == core && p.2.1 == sp && decide (p.2.2 * 8 < a + n ∧ a < p.2.2 * 8 + 8)

/-- Bytes of a local space (R243), and whether no word read has an uncorrectable error. -/
def Dev.readLoc (d : Dev) (core : Nat) (sp : Space) (a n : Nat) : List Byte × Bool :=
  (cellRead (d.locCells core sp) a n, !d.poisoned core sp a n)

/-- Bytes are written into a local space; a word wholly rewritten is sound again. -/
def Dev.putLoc (d : Dev) (core : Nat) (sp : Space) (a : Nat) (bs : List Byte) : Dev :=
  let d := d.setLocCells core sp fun m => cellWrite m a bs
  { d with poison := d.poison.filter fun p =>
      !(p.1 == core && p.2.1 == sp && decide (a ≤ p.2.2 * 8 ∧ p.2.2 * 8 + 8 ≤ a + bs.length)) }

/-- A range of a local space reads zero (R17). -/
def Dev.zeroLoc (d : Dev) (core : Nat) (sp : Space) (r : Range) : Dev :=
  let inside (a : Nat) : Bool := decide (r.base ≤ a ∧ a < r.base + r.len)
  let d := d.setLocCells core sp fun m => m.filter fun c => !inside c.1
  { d with poison := d.poison.filter fun p => !(p.1 == core && p.2.1 == sp && inside (p.2.2 * 8)) }

/-! ## Jobs (R276, R277) -/

/-- Two sides of footprints conflict (R276): covering ranges are compared. -/
def Foot.conflicts (x y : Foot) : Bool :=
  x.space == y.space && (x.write || y.write) && decide (x.lo < y.hi ∧ y.lo < x.hi)

/-- A job joins the jobs of the package at issue, in issue order. -/
def Dev.addJob (d : Dev) (j : Job) : Dev := { d with jobs := d.jobs ++ [j] }

/-- The jobs of a list that stand before one. -/
def jobsBefore (id : Nat) (l : List Job) : List Job := l.takeWhile (·.id != id)

/-- A job enters the checker with its footprint, ordered after every earlier job of its context that conflicts with it
(R276). -/
def Dev.enterJob (d : Dev) (id : Nat) (foot : List Foot) : Dev :=
  let enter (j : Job) : Job :=
    let before := (jobsBefore id d.jobs).filter fun i => i.ctx == j.ctx && i.foot.any fun x => foot.any x.conflicts
    { j with foot := foot, entered := true, after := before.map (·.id) }
  d.modJob id enter

/-- A job may run: it has entered, and every job it is ordered after has completed (R277). -/
def Job.mayRun (j : Job) : Bool := j.entered && j.after.isEmpty

/-- A job leaves the checker at its completion time; the jobs ordered after it start no earlier (R277). -/
def Dev.endJob (d : Dev) (id time : Nat) : Dev :=
  { d with jobs := (d.jobs.filter (·.id != id)).map fun j =>
      if j.after.contains id then { j with after := j.after.filter (· != id), clock := max j.clock time } else j }

/-- The checker holds its limit of jobs for a context (R276). -/
def Dev.checkerFull (d : Dev) (ctx : Nat) : Bool := decide (1024 ≤ (d.jobs.filter (·.ctx == ctx)).length)

/-- Element counts of SEND and RECV at a rank (R224). -/
def Desc.sendElems (c : Desc) (r : Nat) : Nat :=
  if c.op = 4 then 0 else if c.op = 3 then (if r = c.root then c.count else 0) else c.count
def Desc.recvElems (c : Desc) (p : Nat) : Nat :=
  if c.op = 0 ∨ c.op = 3 then c.count else if c.op = 1 then c.count / p else if c.op = 2 then c.count * p else 0

/-- A collective of a queue's next number, of which no step has begun (R225). -/
def CollQueue.fresh (x : CollQueue) (id : Nat) (c : Desc) (time : Nat) (launch : Option Nat) : Coll where
  id := id
  ctx := x.ctx
  q := x.q
  seq := x.posts.length
  engine := ((x.comm.ranks[x.comm.rank]?).getD ⟨0, 0, 0⟩).engine
  comm := x.comm
  desc := c
  time := time
  launch := launch
  step := 0
  begun := false
  kept := false
  paid := none
  ready := []
  asks := []
  opened := []
  arrived := []
  got := []
  rx := []
  cleared := []
  sends := []
  sent := []
  work := []
  own := []

/-- A collective is appended to its queue (R225): it is a job whose footprint is SEND, RECV and RES. -/
def Dev.postColl (d : Dev) (ctx q : Nat) (c : Desc) (time wave block : Nat) (launch : Option Nat) : Dev :=
  match d.queues.find? fun x => x.ctx == ctx && x.q == q with
  | none => d
  | some x =>
    let (id, d) := d.fresh
    let foot (a n : Nat) (w : Bool) : List Foot := if n = 0 then [] else [⟨none, a, a + n, w⟩]
    let note (y : CollQueue) : CollQueue := if y = x then { y with posts := y.posts ++ [time] } else y
    let d : Dev := { d with queues := d.queues.map note, colls := d.colls ++ [x.fresh id c time launch] }
    d.addJob {
      id := id, ctx := ctx, block := block, wave := wave, pc := 0, gang := 0, kind := .coll id, entered := false, after := []
      clock := time
      foot := foot c.send (4 * c.sendElems x.comm.rank) false ++ foot c.recv (4 * c.recvElems x.comm.size) true ++
        (if c.resid then foot c.res (16 + 4 * c.count) true else []) }

/-! ## What follows a write at its home -/

/-- The write time of a monitored line has passed the time that monitors have recorded (R130). The first such write ends
the wait. -/
def Dev.wakeLine (d : Dev) (line t : Nat) : Dev :=
  let hit (m : Monitor) : Monitor := if m.line = line ∧ m.time < t ∧ m.hit = none then { m with hit := some t } else m
  let strand (s : Strand) : Strand := { s with monitor := s.monitor.map hit }
  { d with waves := d.waves.map fun w => { w with strands := w.strands.map strand } }

/-- A write wakes the monitors on its line: those of this package, and those that other packages hold. -/
def Dev.wakeMonitors (d : Dev) (pa t : Nat) : Dev :=
  let far (w : Watch) : Watch := if w.pkt.pa / 128 = pa / 128 ∧ w.time < t ∧ w.hit = none then { w with hit := some t } else w
  { d.wakeLine (pa / 128) t with watches := d.watches.map far }

/-- The acknowledgement of a store updates the writing core's L1 copy under the writer's key slot (R248). -/
def Dev.updateL1 (d : Dev) (core slot pa t : Nat) : Dev :=
  { d with l1 := d.l1.map fun l =>
      if l.core = core ∧ l.line = pa / 128 ∧ l.pkg = none ∧ l.slot = slot then
        { l with bytes := bytesFrom (d.byteAt slot) (l.line * 128) 128,
                 flaws := (sectorsOf (l.line * 128) 128).map (d.flawAt slot),
                 wt := t, le := max l.le t }
      else l }

/-- A page of a logged function is written: its bit is set, and an entry is appended when it was clear (R347, R348). -/
def Dev.logWrite (d : Dev) (ctx pa : Nat) : Dev :=
  d.fns.foldl (fun d f =>
    match f.log with
    | none => d
    | some g =>
      let page := pa / 4096
      if f.windows.any (fun w => decide (w.2.base ≤ pa ∧ pa < w.2.base + w.2.len)) && !g.pages.contains page then
        if 65536 ≤ g.prod - g.cons then
          (d.modFn f.n fun f => { f with log := some { g with pages := page :: g.pages, ovf := true, dropped := g.dropped + 1 } }).setEvent f.n 5
        else
          let entry := page * 4096 + ctx * 2 ^ 56
          (d.modFn f.n fun f => { f with log := some { g with pages := page :: g.pages, prod := g.prod + 1 } }).send
            (.hostWrite 0 (g.ring + 8 * (g.prod % 65536)) (leBytes 8 entry))
      else d) d

/-- A device store into bytes 56 to 63 of a device-to-host slot raises its context's vector (R329). -/
def Dev.mailboxWrite (d : Dev) (pa n : Nat) : Dev :=
  d.ctxs.foldl (fun d c =>
    let lo := c.mbox + 0x1000
    if (List.range n).any fun i => decide (lo ≤ pa + i ∧ pa + i < lo + 4096 ∧ 56 ≤ (pa + i - lo) % 64)
    then d.send (.msix c.fn (1 + c.idx)) else d) d

/-- Triggered operations on a written counter word post when it has reached their threshold (R227). -/
def Dev.fireTriggers (d : Dev) (pa n t : Nat) : Dev :=
  let hit (x : Trigger) : Bool :=
    !(d.ctx? x.ctx).any (·.stopped) && decide (x.pa < pa + n ∧ pa < x.pa + 8 ∧ x.thresh ≤ leNat (bytesFrom (d.byteAt x.ctx) x.pa 6))
  let fired := d.triggers.filter hit
  fired.foldl (fun d x => d.postColl x.ctx x.desc.queue x.desc (max x.clock t) 0 0 none)
    { d with triggers := d.triggers.filter fun x => !hit x }

/-- Everything a write to global memory brings about besides the bytes. -/
def Dev.afterWrite (d : Dev) (ctx : Nat) (core : Option Nat) (device : Bool) (pa n t : Nat) : Dev :=
  let d := d.wakeMonitors pa t
  let d := match core with | some c => d.updateL1 c ctx pa t | none => d
  let d := d.logWrite ctx pa
  let d := if device then d.mailboxWrite pa n else d
  d.fireTriggers pa n t

/-! ## The homes (R267 to R269, R273). An access lies within one line. -/

/-- A load at its home by a thread with clock `c`, with lease `l`: its time, and the bytes unless a check fails. -/
def Dev.homeLoad (d : Dev) (ctx : Nat) (loc : Loc) (n c l : Nat) : Dev × Nat × Option (List Byte) :=
  match loc with
  | .glob pa =>
    let d := d.touchLine ctx pa ctx
    let (wt, le) := d.lineTimes pa
    let t := max c wt
    let (bs, ok) := d.readGlob ctx pa n
    (d.setLine pa fun x => { x with le := max le (t + l) }, t, if ok then some bs else none)
  | .loc core sp a =>
    let (wt, le) := d.locTimes core sp a
    let t := max c wt
    let (bs, ok) := d.readLoc core sp a n
    (d.setLoc core sp a wt (max le t), t, if ok then some bs else none)
  | _ => (d, c, none)

/-- A read-modify-write at its home (R269): `f` gives the new bytes of the old; a failed check leaves it unperformed. -/
def Dev.homeRmw (d : Dev) (ctx : Nat) (core : Option Nat) (device : Bool) (loc : Loc) (n c : Nat)
    (f : Nat → List Byte → List Byte) : Dev × Nat × Option (List Byte) :=
  match loc with
  | .glob pa =>
    let d := d.touchLine ctx pa ctx
    let t := max c ((d.lineTimes pa).2 + 1)
    let (bs, ok) := d.readGlob ctx pa n
    if ok then
      match d.putGlob ctx pa (f t bs) with
      | none => (d, t, none)
      | some d =>
        let d := d.setLine pa fun x => { x with wt := t, le := t, owner := some ctx }
        (d.afterWrite ctx core device pa n t, t, some bs)
    else (d, t, none)
  | .loc cr sp a =>
    let t := max c ((d.locTimes cr sp a).2 + 1)
    let (bs, ok) := d.readLoc cr sp a n
    if ok then ((d.putLoc cr sp a (f t bs)).setLoc cr sp a t t, t, some bs) else (d, t, none)
  | _ => (d, c, none)

/-- A store at its home (R268): its time, and whether it was performed. `f` gives the bytes, which may hold the time. -/
def Dev.homeWrite (d : Dev) (ctx : Nat) (core : Option Nat) (device : Bool) (loc : Loc) (c : Nat)
    (f : Nat → List Byte) : Dev × Nat × Bool :=
  match loc with
  | .glob pa =>
    let d := d.touchLine ctx pa ctx
    let t := max c ((d.lineTimes pa).2 + 1)
    match d.putGlob ctx pa (f t) with
    | none => (d, t, false)
    | some d =>
      let d := d.setLine pa fun x => { x with wt := t, le := t, owner := some ctx }
      (d.afterWrite ctx core device pa (f t).length t, t, true)
  | .loc cr sp a =>
    let t := max c ((d.locTimes cr sp a).2 + 1)
    ((d.putLoc cr sp a (f t)).setLoc cr sp a t t, t, true)
  | _ => (d, c, false)

/-! ## Translation (R255 to R258, R333) -/

/-- What an access needs of a leaf (R256). -/
structure Need where
  r : Bool
  w : Bool
  x : Bool
deriving DecidableEq, Repr

abbrev needR : Need := ⟨true, false, false⟩
abbrev needW : Need := ⟨false, true, false⟩
abbrev needRW : Need := ⟨true, true, false⟩
abbrev needX : Need := ⟨false, false, true⟩

/-- A range lies within the ranges a context can map (Table 8-2). -/
def mappable (pa n : Nat) : Bool :=
  decide (pa + n ≤ 0x007F00000000 ∨ (0x010000000000 ≤ pa ∧ pa + n ≤ 0x020000000000))

/-- How far ranges cover the addresses from one on, without a gap. The number bounds the ranges used. -/
def coveredTo (rs : List Range) : Nat → Nat → Nat
  | 0, a => a
  | n + 1, a => coveredTo rs n (rs.foldl (fun m r => if r.base ≤ a then max m (r.base + r.len) else m) a)

/-- A page lies within a function's windows, be they several; the PF may map any mappable page (R333). -/
def Dev.inWindows (d : Dev) (fn pa n : Nat) : Bool :=
  fn == 0 || (let rs := (d.fn fn).windows.map (·.2)
    decide (pa + n ≤ coveredTo rs rs.length pa))

/-- One level of the walk (R255): the shift of its index, and the size of a leaf. -/
structure WalkLevel where
  shift : Nat
  bits  : Nat
  leaf  : Nat
deriving DecidableEq, Repr

/-- The five levels; a leaf size of 0 where no leaf is allowed. -/
def walkLevels : List WalkLevel := [⟨48, 8, 0⟩, ⟨39, 9, 0⟩, ⟨30, 9, 2 ^ 30⟩, ⟨21, 9, 2 ^ 21⟩, ⟨12, 9, 4096⟩]

/-- The outcome of a leaf entry (R256, R257): attributes and PA in range, or XLATE. -/
def Dev.leafOf (d : Dev) (c : Ctx) (va e size : Nat) : Except Nat Leaf :=
  let pa := e / 4096 % 2 ^ 36 * 4096
  let rem := Nat.testBit e 62
  let pkg := e / 2 ^ 52 % 1024
  let contig := Nat.testBit e 6
  let off := va % size / 4096 * 4096
  let leaf : Leaf := ⟨pa + off, if rem then some pkg else none, Nat.testBit e 4, Nat.testBit e 3, Nat.testBit e 2⟩
  if !rem && pkg != 0 then .error cXlate
  else if contig && size != 4096 then .error cXlate
  else if contig && pa / 4096 % 16 != va / 4096 % 16 then .error cXlate
  else if pa % size != 0 then .error cXlate
  else if rem then .ok leaf
  else if mappable pa size && d.inWindows c.fn pa size then .ok leaf else .error cXlate

/-- The walk from a table on (R257): the size of the leaf's page, 64 KiB with CONTIG, and the translation of the 4 KiB
page. -/
def Dev.walkFrom (d : Dev) (c : Ctx) (va : Nat) : List WalkLevel → Nat → Except Nat (Nat × Leaf)
  | [], _ => .error cXlate
  | l :: ls, table =>
    let a := table + 8 * (va / 2 ^ l.shift % 2 ^ l.bits)
    if !mappable a 8 then .error cXlate
    else
      let (bs, ok) := d.readGlob c.n a 8
      let e := leNat bs
      if !ok then .error cIntegrity
      else if e % 2 = 0 then .error cXlate
      else if Nat.testBit e 63 || e / 2 ^ 48 % 16 != 0 || e / 128 % 32 != 0 || Nat.testBit e 5 then .error cXlate
      else if Nat.testBit e 1 then
        if l.leaf = 0 then .error cXlate
        else (d.leafOf c va e l.leaf).map fun x => (if Nat.testBit e 6 then 65536 else l.leaf, x)
      else if Nat.testBit e 62 || e / 2 ^ 52 % 1024 != 0 || e / 4 % 8 != 0 || Nat.testBit e 6 then .error cXlate
      else d.walkFrom c va ls (e / 4096 % 2 ^ 36 * 4096)

/-- A page walk for a context (R257). -/
def Dev.walk (d : Dev) (c : Ctx) (va : Nat) : Except Nat Leaf := (d.walkFrom c va walkLevels c.root).map (·.2)

/-- The entries that a walk reads: as far as each names a next table. -/
def Dev.walkReads (d : Dev) (c : Ctx) (va : Nat) : List WalkLevel → Nat → List Nat
  | [], _ => []
  | l :: ls, table =>
    let a := table + 8 * (va / 2 ^ l.shift % 2 ^ l.bits)
    if !mappable a 8 then []
    else
      let e := leNat (d.readGlob c.n a 8).1
      a :: (if e % 4 = 1 then d.walkReads c va ls (e / 4096 % 2 ^ 36 * 4096) else [])

/-- The core under which a die's TLB stands. -/
def dieTlb (core : Nat) : Nat := 1000 + dieOf core

/-- An entry translates an address: of a 64 KiB page, only pages whose own entries have CONTIG (R257). -/
def TlbEntry.covers (e : TlbEntry) (va : Nat) : Bool :=
  e.vpn == va / e.size && (e.size != 65536 || e.group.getLsbD (va / 4096 % 16))

/-- A cached entry that translates an address, and the translation of its 4 KiB page (R258). -/
def Dev.tlbHit (d : Dev) (k ctx va : Nat) : Option (TlbEntry × Leaf) :=
  (d.tlb.find? fun e => e.core == k && e.ctx == ctx && e.covers va).map fun e =>
    (e, { e.leaf with page := e.leaf.page + va % e.size / 4096 * 4096 })

/-- The translation of an address at a core: the core's TLB, its die's, or a walk (R258). -/
def Dev.translate (d : Dev) (core : Nat) (c : Ctx) (va : Nat) : Except Nat Leaf :=
  match d.tlbHit core c.n va with
  | some x => .ok x.2
  | none =>
    match d.tlbHit (dieTlb core) c.n va with
    | some x => .ok x.2
    | none => d.walk c va

/-- Entries of one TLB that stay beside a new one: 127 of a core's, 7 of a die's set of eight (R258; log entry 102). -/
def keepTlb (new : TlbEntry) (l : List TlbEntry) : List TlbEntry :=
  let same (e : TlbEntry) : Bool := e.core == new.core && e.ctx == new.ctx && e.size == new.size && e.vpn == new.vpn
  let rival (e : TlbEntry) : Bool := e.core == new.core && (new.core < 1000 || e.vpn % 2048 == new.vpn % 2048)
  let stay := ((l.filter fun e => rival e && !same e).take (if new.core < 1000 then 127 else 7))
  l.filter fun e => !same e && (!rival e || stay.contains e)

/-- A translation is cached in a TLB (R258). -/
def Dev.cacheTlb (d : Dev) (new : TlbEntry) : Dev := { d with tlb := new :: keepTlb new d.tlb }

/-- The pages of a 64 KiB group whose own entries are valid and have CONTIG: the group's 16 entries are one line of the
table (R257). -/
def Dev.contigPages (d : Dev) (c : Ctx) (va : Nat) : BitVec 16 :=
  match (d.walkReads c va walkLevels c.root).getLast? with
  | none => 0
  | some a =>
    (List.range 16).foldl (fun (m : BitVec 16) i =>
      let (bs, ok) := d.readGlob c.n (a / 128 * 128 + 8 * i) 8
      if ok && leNat bs % 2 == 1 && Nat.testBit (leNat bs) 6 then m ||| (1#16 <<< i) else m) 0

/-- What a successful walk caches (R258): the page with its size. A 64 KiB page that reaches outside the ranges stands as
its 4 KiB page. -/
def Dev.walkEntry (d : Dev) (c : Ctx) (va size : Nat) (l : Leaf) : TlbEntry :=
  let first := l.page - va % size / 4096 * 4096
  if size = 65536 ∧ !(l.pkg.isSome || (mappable first size && d.inWindows c.fn first size)) then ⟨0, c.n, 4096, va / 4096, 0, l⟩
  else ⟨0, c.n, size, va / size, if size = 65536 then d.contigPages c va else 0, { l with page := first }⟩

/-- A walk is made: its entries are read through the LLC, and what it finds is cached by the core and its die; a failed
walk is not (R250, R258). -/
def Dev.walkNow (d : Dev) (core : Nat) (c : Ctx) (va : Nat) : Dev :=
  let read := (d.walkReads c va walkLevels c.root).foldl (fun d a => d.touchLine c.n a c.n) d
  match d.walkFrom c va walkLevels c.root with
  | .error _ => read
  | .ok (size, l) =>
    let e := d.walkEntry c va size l
    (read.cacheTlb { e with core := dieTlb core }).cacheTlb { e with core := core }

/-- What looking an address up at a core brings about: a miss of its TLB takes the die's entry, a miss of both a walk
(R258). -/
def Dev.looked (d : Dev) (core : Nat) (c : Ctx) (va : Nat) : Dev :=
  if 2 ^ 56 ≤ va ∨ (d.tlbHit core c.n va).isSome then d
  else
    match d.tlbHit (dieTlb core) c.n va with
    | some x => d.cacheTlb { x.1 with core := core }
    | none => d.walkNow core c va
def Dev.lookedAll (d : Dev) (core : Nat) (c : Ctx) (vas : List Nat) : Dev := vas.foldl (fun d va => d.looked core c va) d

/-- Where an address lies in a translated page (R256, R334). -/
def Leaf.loc (l : Leaf) (va : Nat) : Loc :=
  match l.pkg with
  | none => .glob (l.page + va % 4096)
  | some p => if p = 1023 then .host (l.page + va % 4096) else .remote p (l.page + va % 4096)

/-- Translation and rights of one address (R176): the cause, or the place. -/
def Dev.access (d : Dev) (core : Nat) (c : Ctx) (va : Nat) (need : Need) : Except Nat Loc :=
  match d.translate core c va with
  | .error e => .error e
  | .ok l => if (need.r && !l.r) || (need.w && !l.w) then .error cRights else .ok (l.loc va)

/-- The checks of a global access of `n` bytes in the order of R176; `host` tells whether host memory may be named
(R334). -/
def Dev.checkGlobal (d : Dev) (core : Nat) (c : Ctx) (va n : Nat) (need : Need) (host : Bool) : Except Nat Loc :=
  if 2 ^ 56 ≤ va then .error cXlate
  else if va % n ≠ 0 then .error cAlign
  else
    match d.access core c va need with
    | .error e => .error e
    | .ok (.host a) => if host then .ok (.host a) else .error cRights
    | .ok l => .ok l

/-- The checks of a local access of `n` bytes at an offset of a range (R176). -/
def checkLocal (core : Nat) (sp : Space) (r : Range) (e n : Nat) : Except Nat Loc :=
  if e % n ≠ 0 then .error cAlign
  else if r.len < e + n then .error cRights
  else .ok (.loc core sp (r.base + e))

/-! ## Code (R82, R87, R88) -/

/-- The reader under which lines of code come from other packages, and what such a line stands under. -/
abbrev codeReader : Nat := 1
def codeKey (ctx pkg pa : Nat) : Nat := ((ctx * 1024 + pkg) * 2 ^ 41 + pa / 128) * 128

/-- The byte of code at a place, or the fault word's DETAIL (R88); a line of another package stands in the inbox once its
reply has come. Host memory holds no code (R334). -/
def Dev.codeByte (d : Dev) (ctx : Nat) : Loc → Except Nat Byte
  | .glob pa => if d.sectorOk ctx (pa / 32) then .ok (d.byteAt ctx pa) else .error 3
  | .remote pkg pa =>
    match (d.inbox.find? fun m => m.1 == codeReader && m.2.1 == codeKey ctx pkg pa).map (·.2.2) with
    | some (Answer.done _ bs) => .ok ((bs[pa % 128]?).getD 0)
    | some (Answer.failed e) => .error (if e = cIntegrity then 3 else if e = cRights then 2 else 1)
    | none => .error 1
  | _ => .error 1

/-- `n` bytes at virtual addresses that lie on any number of pages, read without an event (instruction fetch, R89):
the bytes up to the first that cannot be read, with its offset and cause. -/
def Dev.fetchBytes (d : Dev) (core : Nat) (c : Ctx) (va : Nat) : Nat → Nat → List Byte × Option (Nat × Nat)
  | _, 0 => ([], none)
  | off, n + 1 =>
    match if 2 ^ 56 ≤ va + off then .error cXlate else d.translate core c (va + off) with
    | .error e => ([], some (off, if e = cIntegrity then 3 else 1))
    | .ok l =>
      if !l.x then ([], some (off, 2))
      else
        match d.codeByte c.n (l.loc (va + off)) with
        | .ok b =>
          let (bs, e) := d.fetchBytes core c va (off + 1) n
          (b :: bs, e)
        | .error e => ([], some (off, e))

end Sys2Proof.Machine
end

