-- ==== Sys2Proof/Machine/Ops.lean ====
section
/-!
DEFINITION. The named operations of the machine: registers and gangs (R13 to R23), outstanding-operation counters (R26),
completion objects (R37 to R40), leases (R207, R298), the end of waves (R40, R41, R143), and TAKING AN EXCEPTION with the
return from one (R304 to R309).
-/

namespace Sys2Proof.Machine

/-! ## Registers (R13, R14) -/

/-- A scalar register; `s0` reads zero (R13). -/
def Strand.rd (t : Strand) (r : SReg) : Word := if r = 0 then 0 else (t.s[r.toNat]?).getD 0
/-- A write of a scalar register; a write of `s0` is discarded (R13). -/
def Strand.wr (t : Strand) (r : SReg) (x : Word) : Strand := if r = 0 then t else { t with s := t.s.set r.toNat x }

/-- Strand `t` is in a strand mask. -/
def inGang (g : StrandMask) (t : Nat) : Bool := g.getLsbD t

/-- The strands of a mask are changed; `f` gets the strand's number. -/
def Wave.modStrands (w : Wave) (g : StrandMask) (f : Nat → Strand → Strand) : Wave :=
  { w with strands := w.strands.mapIdx fun t s => if inGang g t then f t s else s }

/-- The lowest strand of a mask. -/
def lowStrand (g : StrandMask) : Nat := ((List.range 8).find? (inGang g)).getD 0

/-- The lane bits of a strand mask (R13). -/
def laneBits (g : StrandMask) : LaneMask :=
  (List.range 32).foldl (fun m l => if inGang g (l / 4) then m ||| (1#32 <<< l) else m) 0

/-- A mask register. -/
def Wave.mask (w : Wave) (m : MReg) : LaneMask := (w.m[m.toNat]?).getD 0
/-- A mask register is written in the bits of `g` only (R13). -/
def Wave.setMask (w : Wave) (g : LaneMask) (m : MReg) (x : LaneMask) : Wave :=
  { w with m := w.m.set m.toNat ((w.mask m &&& ~~~g) ||| (x &&& g)) }

/-- The value of a lane register in a lane. -/
def Wave.lane (w : Wave) (v : VReg) (l : Nat) : Lane := ((w.v[v.toNat]?).bind (·[l]?)).getD 0
/-- A lane register is written in the lanes of `act`. -/
def Wave.setLanes (w : Wave) (act : LaneMask) (v : Nat) (f : Nat → Lane) : Wave :=
  { w with v := w.v.modify v fun r => r.mapIdx fun l x => if act.getLsbD l then f l else x }

/-- The wave adopts a time (Table 0-5). -/
def Wave.adopt (w : Wave) (t : Nat) : Wave := { w with lts := max w.lts t }

/-- The live strands of a wave. -/
def Wave.liveMask (w : Wave) : StrandMask :=
  w.strands.zipIdx.foldl (fun m (s, t) => if s.exited then m else m ||| (1#8 <<< t)) 0

/-! ## The issuing gang (R20, R104, R201) -/

/-- What an instruction sees of its issuer: the wave, the gang, its PC, the block and the context. -/
structure Issue where
  wave  : Wave
  gang  : StrandMask
  pc    : Word
  block : Block
  ctx   : Ctx
deriving DecidableEq, Repr

/-- The issuer that the arbiter has selected: a gang of a placed wave. -/
def Dev.issuer? (d : Dev) : Option Issue :=
  match d.latch with
  | none => none
  | some g =>
    match d.wave? g.wave with
    | none => none
    | some w =>
      match d.block? w.block with
      | none => none
      | some b =>
        match d.ctx? b.ctx with
        | none => none
        | some c =>
          match w.strands[lowStrand g.mask]? with
          | none => none
          | some t => some ⟨w, g.mask, t.pc, b, c⟩

/-- An instruction's meaning is run for the selected gang, and the selection ends. -/
def issue (s : State) (f : Issue → Dev → Dev) : Host.Outcome State Fault Refusal :=
  match s.dev.issuer? with
  | none => .fault .noIssuer
  | some k => .next { s with dev := f k { s.dev with latch := none } }

/-- A step of the device or of the outside changes the device. -/
def onDev (s : State) (f : Dev → Dev) : Host.Outcome State Fault Refusal := .next { s with dev := f s.dev }

/-- The lowest strand of the gang, from which class D reads its scalars (R191, R201). -/
def Issue.low (k : Issue) : Strand :=
  (k.wave.strands[lowStrand k.gang]?).getD ⟨0, [], 0, [], 0, true, false, none, none, 0⟩
def Issue.rd (k : Issue) (r : SReg) : Word := k.low.rd r
def Issue.strand (k : Issue) (t : Nat) : Strand := (k.wave.strands[t]?).getD k.low
/-- The strands of the gang. -/
def Issue.strands (k : Issue) : List Nat := (List.range 8).filter (inGang k.gang)
def Issue.lanes (k : Issue) : LaneMask := laneBits k.gang
def Issue.core (k : Issue) : Nat := k.block.core

/-- The issuing wave is changed. -/
def Dev.onWave (d : Dev) (k : Issue) (f : Wave → Wave) : Dev := d.modWave k.wave.id f
/-- The strands of the issuing gang are changed. -/
def Dev.onGang (d : Dev) (k : Issue) (f : Nat → Strand → Strand) : Dev := d.onWave k fun w => w.modStrands k.gang f

/-- The gang goes on at the next instruction: its PCs advance and it waits for nothing (R73). -/
def Dev.advance (d : Dev) (k : Issue) (len : Nat) : Dev :=
  d.onGang k fun _ s => { s with pc := s.pc + BitVec.ofNat 64 len, waiting := none }

/-- Every strand of the gang writes a scalar register. -/
def Dev.setScalars (d : Dev) (k : Issue) (r : SReg) (f : Nat → Word) : Dev := d.onGang k fun t s => s.wr r (f t)

/-- The gang stays at its instruction, and waits. A wait that has begun goes on (R310 counts from its begin). -/
def Dev.stall (d : Dev) (k : Issue) (what : WaitFor) : Dev :=
  let now := d.clock
  d.onGang k fun _ s =>
    { s with waiting := some ⟨match s.waiting with | some x => if x.what.isFull then now else x.since | none => now, what⟩ }

/-- The issuing gang is every live strand of the wave (R22). -/
def Issue.whole (k : Issue) : Bool := k.gang == k.wave.liveMask

/-! ## Counters (R26) -/

def MemKind.inLd : MemKind → Bool
  | .load .. => true
  | .atom .. => true
  | .fill .. => true
  | _ => false
def MemKind.inSt : MemKind → Bool
  | .store => true
  | .red _ => true
  | .cinc => true
  | .cmpst .. => true
  | .spill => true
  | _ => false
/-- Operations that write: what `st` counts, and a scalar store. -/
def MemKind.writes (k : MemKind) : Bool := k.inSt || k == .sstore
def JobKind.inCp : JobKind → Bool
  | .copy _ => true
  | .clone .. => true
  | _ => false
def JobKind.inTl : JobKind → Bool
  | .tile .. => true
  | _ => false
def JobKind.inFx : JobKind → Bool
  | .fx .. => true
  | _ => false

def Dev.countOps (d : Dev) (w : Nat) (p : MemKind → Bool) : Nat := (d.memops.filter fun o => o.wave == w && p o.kind).length
def Dev.countJobs (d : Dev) (w : Nat) (p : JobKind → Bool) : Nat := (d.jobs.filter fun j => j.wave == w && p j.kind).length
def Dev.ld (d : Dev) (w : Nat) : Nat := d.countOps w MemKind.inLd
def Dev.st (d : Dev) (w : Nat) : Nat := d.countOps w MemKind.inSt
def Dev.cp (d : Dev) (w : Nat) : Nat := d.countJobs w JobKind.inCp
def Dev.tl (d : Dev) (w : Nat) : Nat := d.countJobs w JobKind.inTl
def Dev.fx (d : Dev) (w : Nat) : Nat := d.countJobs w JobKind.inFx

/-! ## Writes of the device's own (R37, R226) -/

/-- After step 1 of an FLR the device writes nothing of its own for the function's contexts (R390). -/
def Dev.quiet (d : Dev) (x : Ctx) : Bool := decide (2 ≤ (d.fn x.fn).flr)

/-- The bytes of a completion counter object (Table 1-5). -/
def objBytes (count : Nat) (error cancelled : Bool) (lts : Nat) : List Byte :=
  leBytes 4 count ++ leBytes 4 (cancelled.toNat + 2 * error.toNat) ++ leBytes 8 lts

/-- `cinc` (R134): the 48-bit sum; bits 63 to 48 stay. -/
def cincNew (old v : Nat) : Nat := old / 2 ^ 48 * 2 ^ 48 + (old + v) % 2 ^ 48

/-- Bytes that such a write touches; what it leaves of the old bytes at its time: LTS is the event's time when COUNT is
zero (R37, R38); what it asks of another package. -/
def OwedWrite.size : OwedWrite → Nat
  | .object .. => 16
  | .bytes bs => bs.length
  | .inc _ => 8
def OwedWrite.fill (w : OwedWrite) (t : Nat) (old : List Byte) : List Byte :=
  match w with
  | .object n e c => objBytes n e c (if n = 0 then t else 0)
  | .bytes bs => bs
  | .inc n => leBytes 8 (cincNew (leNat old) n)
def OwedWrite.ask (pa : Nat) : OwedWrite → RemoteAsk
  | .object n e c => .object n (c.toNat + 2 * e.toNat)
  | .bytes bs => farStore pa bs
  | .inc n => .cinc (BitVec.ofNat 64 n)

/-- The reader under which replies to these writes come. -/
abbrev owedReader : Nat := 2

/-- An owed write is performed at its place: its time; none while its request to another package is on its way. -/
def Dev.payAt (d : Dev) (o : Owed) : Loc → Dev × Option Nat
    | .remote pkg pa =>
      let (r, d) := d.fresh
      ({ d with remotes := d.remotes ++ [⟨r, none, some (owedReader, 0, o.ctx), o.ctx, pkg, pa, o.what.ask pa, o.clock, none⟩] }, none)
    | l =>
      match o.what with
      | .inc _ => let (d, t, _) := d.homeRmw o.ctx none true l 8 o.clock o.what.fill; (d, some t)
      | w => let (d, t, _) := d.homeWrite o.ctx none true l o.clock fun t => w.fill t []; (d, some t)

/-- An owed write is translated and performed. One that cannot be performed is left out (R37). -/
def Dev.payOne (d : Dev) (o : Owed) : Dev × Option Nat :=
  match d.ctx? o.ctx with
  | none => (d, some o.clock)
  | some x =>
    if d.quiet x then (d, some o.clock) else
    match d.access 0 x o.addr needW with
    | .error _ => (d.looked 0 x o.addr, some o.clock)
    | .ok l => let (d, t) := d.payAt o l; (d.looked 0 x o.addr, t)

/-- A context's first owed write has been performed at a time; the next of its chain takes no earlier one. -/
def paid (ctx t : Nat) : List Owed → List Owed
  | [] => []
  | o :: os =>
    if o.ctx ≠ ctx then o :: paid ctx t os
    else
      match os.find? (·.ctx == ctx) with
      | some n => if n.chained then os.replace n { n with clock := max n.clock t } else os
      | none => os

/-- A context's owed writes are performed in order, as far as none waits for another package. The number bounds them. -/
def Dev.pay (ctx : Nat) : Nat → Dev → Dev
  | 0, d => d
  | n + 1, d =>
    match d.owed.find? (·.ctx == ctx) with
    | none => d
    | some o =>
      if d.remotes.any fun r => r.job == some (owedReader, 0, ctx) then d
      else
        match d.payOne o with
        | (d, some t) => Dev.pay ctx n { d with owed := paid ctx t d.owed }
        | (d, none) => d

/-- Writes of a context are owed, one after the other: address, clock, write (R38, R272). -/
def Dev.owe (d : Dev) (ctx : Nat) (l : List (Nat × Nat × OwedWrite)) : Dev :=
  let d : Dev := { d with owed := d.owed ++ l.mapIdx fun i (a, c, w) => ⟨ctx, i != 0, c, a, w⟩ }
  d.pay ctx d.owed.length

/-- The reply of another package to an owed write has come. -/
def Dev.owedReply (d : Dev) (ctx : Nat) (t : Option Nat) : Dev :=
  let clock := ((d.owed.find? (·.ctx == ctx)).map (·.clock)).getD 0
  let d : Dev := { d with owed := paid ctx (t.getD clock) d.owed }
  d.pay ctx d.owed.length

/-! ## Completion objects (R37, R38) -/

def Dev.level? (d : Dev) (ctx addr : Nat) : Option Level := d.levels.find? fun l => l.ctx == ctx && l.addr == addr
def Dev.modLevel (d : Dev) (ctx addr : Nat) (f : Level → Level) : Dev :=
  { d with levels := modIf (fun l => l.ctx == ctx && l.addr == addr) f d.levels }

/-- Marks of a level and of every level above it, with the writes of the objects that change (R37, R40, R41). The number
bounds the height. -/
def Dev.markLevels (d : Dev) (ctx : Nat) (error cancelled : Bool) (c : Nat) : Nat → Nat → Dev × List (Nat × Nat × OwedWrite)
  | 0, _ => (d, [])
  | n + 1, addr =>
    match d.level? ctx addr with
    | none => (d, [])
    | some l =>
      let new : Level := { l with error := l.error || error, cancelled := l.cancelled || cancelled }
      let d := d.modLevel ctx addr fun _ => new
      let (d, ws) := d.markLevels ctx error cancelled c n l.parent
      (d, if new = l then ws else (addr, c, .object l.count new.error new.cancelled) :: ws)

/-- Marks of a launch and of every level above it (R40, R41). -/
def Dev.markLaunch (d : Dev) (id : Nat) (error cancelled : Bool) (c : Nat) : Dev :=
  match d.launch? id with
  | none => d
  | some l =>
    let new : Launch := { l with error := l.error || error, cancelled := l.cancelled || cancelled }
    let d := d.modLaunch id fun _ => new
    let (d, ws) := d.markLevels l.ctx error cancelled c 3 l.record.graph
    d.owe l.ctx (if new = l then ws else (l.record.comp, c, .object l.count new.error new.cancelled) :: ws)

/-- A level's COUNT decrements at time `c`, at zero the level above too (R38): the objects' writes. No decrement is earlier
than one before. -/
def Dev.decLevel (d : Dev) (ctx : Nat) : Nat → Nat → Nat → Dev × List (Nat × Nat × OwedWrite)
  | 0, _, _ => (d, [])
  | n + 1, addr, c =>
    match d.level? ctx addr with
    | none => (d, [])
    | some l =>
      let c := max c l.last
      let w : Nat × Nat × OwedWrite := (addr, c, .object (l.count - 1) l.error l.cancelled)
      if l.count ≤ 1 then
        let d : Dev := { d with levels := d.levels.filter fun x => !(x.ctx == ctx && x.addr == addr) }
        let d : Dev := if l.kind = .job then { d with triggers := d.triggers.filter fun x => !(x.ctx == ctx && x.inJob) } else d
        let (d, ws) := d.decLevel ctx n l.parent c
        (d, w :: ws)
      else (d.modLevel ctx addr fun l => { l with count := l.count - 1, last := c }, [w])

/-- `n` items of a launch end at time `c` (R38); at zero its dependants are released (R39, R231) and its graph
decrements. The decrement is no earlier than that of any item before. -/
def Dev.decLaunch (d : Dev) (id n c : Nat) : Dev :=
  match d.launch? id with
  | none => d
  | some l =>
    let c := max c l.last
    let w : Nat × Nat × OwedWrite := (l.record.comp, c, .object (l.count - n) l.error l.cancelled)
    if l.count ≤ n then
      let release (x : Launch) : Launch :=
        if x.preds.contains id then { x with preds := x.preds.filter (· != id), time := max x.time (max l.trigTime c) } else x
      let d : Dev := { d with launches := (d.launches.filter (·.id != id)).map release }
      let (d, ws) := d.decLevel l.ctx 3 l.record.graph c
      d.owe l.ctx (w :: ws)
    else (d.modLaunch id fun l => { l with count := l.count - n, last := c }).owe l.ctx [w]

/-! ## Leases (R207, R209, R297 to R299) -/

/-- Power of an engine in tenths of a watt (R298). -/
def powerOf : EngKind → Nat
  | .tile => 40
  | .table => 7
  | .select => 6
/-- Charge of a wake from DARK and of a grant from WARM, in 24,000ths of a µJ (Table 10-8). -/
def wakeCharge : EngKind → Nat
  | .tile => 192000
  | .table => 24000
  | .select => 12000
def warmCharge : EngKind → Nat
  | .tile => 9600
  | .table => 2400
  | .select => 2400
/-- Charge of a cycle of LEASED or EVICTING, in 24,000ths of a µJ (Table 10-8). -/
def cycleCharge (k : EngKind) : Nat := powerOf k
/-- Wake latency from DARK in cycles (Table 10-7). -/
def wakeCycles : EngKind → Nat
  | .tile => 3600
  | .table => 1440
  | .select => 960

def Dev.reservedPower (d : Dev) (die : Nat) : Nat :=
  ((d.engines.filter fun e => dieOf e.core == die && e.st != .dark).map fun e => powerOf e.kind).sum

/-- Jobs at an engine, in order of arrival (R393). -/
def Dev.engineJobs (d : Dev) (core : Nat) (k : EngKind) : List Job :=
  d.jobs.filter fun j =>
    (match j.kind, k with
      | .tile .., .tile => true
      | .fx (.ftload ..) _, .table => true
      | .fx (.ftevl ..) _, .table => true
      | .fx (.sort ..) _, .select => true
      | .fx (.topk ..) _, .select => true
      | .fx (.scan ..) _, .select => true
      | _, _ => false)
    && (d.block? j.block).any (·.core == core)

/-- An engine goes dark: its contents are lost (R60, R70, R296). -/
def Engine.darken (e : Engine) : Engine :=
  { e with st := .dark, holder := none, former := none, lut := [], slots := [], stale := [], forPower := false }

/-- A WARM engine that may be darkened: no granted request, and no operation left of a former lessee (R393). -/
def Dev.canDarken (d : Dev) (e : Engine) : Bool :=
  e.st == .warm && e.holder.isNone && (d.engineJobs e.core e.kind).isEmpty

/-- WARM engines of a die are darkened, longest idle first, until `need` fits (R298, R300). The number bounds the
engines darkened. -/
def Dev.darkenFor (d : Dev) (die need : Nat) : Nat → Dev
  | 0 => d
  | n + 1 =>
    if d.reservedPower die + need ≤ (d.allow[die]?).getD 0 then d
    else
      match leastBy (·.idle) (d.engines.filter fun e => dieOf e.core == die && d.canDarken e) with
      | none => d
      | some e => (d.modEngine e.core e.kind Engine.darken).darkenFor die need n

/-- Energy that a context may still reserve in this period (R299). -/
def Ctx.energyLeft (c : Ctx) : Nat := c.allow * 24000 - c.debt - c.spent

/-- A context's meter is charged; what exceeds the allowance is carried as a debt at the period's end (R299). -/
def Ctx.charge (c : Ctx) (u : Nat) : Ctx := { c with energy := c.energy + u, spent := c.spent + u }

/-- The server point of an engine (Table 10-1). -/
def enginePoint (core : Nat) : EngKind → Point
  | .tile => .tile core
  | .table => .table core
  | .select => .select core

/-- The server of a context at an engine: its class (2 where there is none) and its deadline. -/
def Dev.engineClass (d : Dev) (core : Nat) (k : EngKind) (ctx : Nat) : Nat × Nat :=
  match d.servers.find? fun s => s.args.ctx == ctx && s.args.point == enginePoint core k with
  | some s => (s.args.cls, s.d.headD 0)
  | none => (2, 0)

/-- A request is put in its place: class, deadline, arrival (R298). -/
def Dev.insertReq (d : Dev) (core : Nat) (k : EngKind) (r : Req) : List Req → List Req
  | [] => [r]
  | x :: xs =>
    let key (q : Req) : Nat × Nat := d.engineClass core k q.ctx
    let before := decide ((key r).1 < (key x).1) ||
      ((key r).1 == (key x).1 && (decide ((key r).2 < (key x).2) || ((key r).2 == (key x).2 && decide (r.ticket < x.ticket))))
    if before then r :: x :: xs else x :: d.insertReq core k r xs

/-- The lease queue of an engine in its order (R298). -/
def Dev.leaseQueue (d : Dev) (core : Nat) (k : EngKind) : List Req :=
  (d.engine core k).queue.foldr (d.insertReq core k) []

/-- A wave holds the lease (while it is being taken, too: Table 10-5); it has a request that is queued or granted. -/
def Engine.holds (e : Engine) (w : Nat) : Bool :=
  (e.st == .leased || e.st == .evicting) && e.holder.any (·.wave == w)
def Engine.asked (e : Engine) (w : Nat) : Bool := e.queue.any (·.wave == w) || e.holder.any (·.wave == w)

/-- An engine is given to a request: a tenant other than the last one finds its tables cleared behind the earlier
operations (R209). -/
def Dev.giveEngine (d : Dev) (core : Nat) (k : EngKind) (r : Req) (st : EngSt) (till : Nat) : Dev :=
  let busy := !(d.engineJobs core k).isEmpty
  let now := d.clock
  let id := d.nextId
  d.modEngine core k fun e =>
    let other := e.lastCtx != some r.ctx
    { e with
      st := st, holder := some { r with wpower := false, wenergy := false }, till := till, granted := now, since := now
      lastCtx := some r.ctx, forPower := false
      queue := e.queue.filter (·.ticket != r.ticket)
      lut := if other && !busy then [] else e.lut
      slots := if other && !busy then [] else e.slots
      stale := if other && busy then e.stale ++ [id] else e.stale }

/-- The head request of an engine's queue is granted when power and energy can be reserved (R298); otherwise it waits,
marked. -/
def Dev.grantHead (d : Dev) (core : Nat) (k : EngKind) : Dev :=
  let e := d.engine core k
  match d.leaseQueue core k with
  | [] => d
  | r :: _ =>
    let mark (p en : Bool) (d : Dev) : Dev := d.modEngine core k fun e =>
      { e with queue := modIf (·.ticket == r.ticket) (fun r => { r with wpower := p, wenergy := en }) e.queue }
    match d.ctx? r.ctx with
    | none => d
    | some c =>
      let lease := 2400 * cycleCharge k
      match e.st with
      | .dark =>
        let d' := d.darkenFor (dieOf core) (powerOf k) 672
        if (d'.allow[dieOf core]?).getD 0 < d'.reservedPower (dieOf core) + powerOf k then mark true false d'
        else if c.energyLeft < wakeCharge k + lease then mark false true d
        else (d'.giveEngine core k r .waking (d'.clock + wakeCycles k)).modCtx r.ctx (·.charge (wakeCharge k))
      | .warm =>
        if e.holder.isSome then d
        else if c.energyLeft < warmCharge k + lease then mark false true d
        else (d.giveEngine core k r .warm (d.clock + 216)).modCtx r.ctx (·.charge (warmCharge k))
      | .leased =>
        if e.holder.isSome then d
        else if c.energyLeft < lease then mark false true d
        else d.giveEngine core k r .leased 0
      | _ => d

/-- The holder gives an engine up: it passes to the head of its queue, or becomes WARM (R207, Table 10-6). -/
def Dev.releaseEngine (d : Dev) (core : Nat) (k : EngKind) : Dev :=
  let now := d.clock
  let d := d.modEngine core k fun e => { e with st := .leased, former := e.holder, formerAt := e.granted, holder := none, idle := now }
  let d := d.grantHead core k
  if (d.engine core k).holder.isNone then d.modEngine core k fun e => { e with st := .warm } else d

/-- A wave gives back kind `k`: a queued request is withdrawn, a held lease released (R207, R303). A grant that is waking
stays without a lessee until the engine is awake; a `douse` after an eviction has begun has no effect (R303). -/
def Dev.douse (d : Dev) (core : Nat) (k : EngKind) (w : Nat) : Dev :=
  let e := d.engine core k
  let d := if e.queue.any (·.wave == w) then d.modEngine core k fun e => { e with queue := e.queue.filter (·.wave != w) } else d
  match e.holder with
  | none => d
  | some r =>
    if r.wave ≠ w then d
    else
      match e.st with
      | .leased => d.releaseEngine core k
      | .waking => d.modEngine core k fun e => { e with holder := none }
      | .warm => d.modEngine core k fun e => { e with holder := none, till := 0, idle := d.clock }
      | _ => d

def Dev.douseAll (d : Dev) (core w : Nat) : Dev :=
  ((d.douse core .tile w).douse core .table w).douse core .select w

/-! ## The end of waves and blocks (R40, R41, R143) -/

/-- A numbered barrier: its generation at a block, and whether it is the block's team barrier (R36). -/
def Block.barGen (b : Block) (n : Nat) : Nat := assoc b.barGens n

/-- The waves that a barrier of a block expects: its block's, or every member's for a team barrier (R36). -/
def Dev.barWaves (d : Dev) (b : Block) (n : Nat) : List Wave :=
  match b.team with
  | some t =>
    if n = 15 then (((d.team? t).map (·.blocks)).getD []).flatMap d.blockWaves else d.blockWaves b.id
  | none => d.blockWaves b.id

/-- A numbered barrier releases when every live wave it expects has an unreleased arrival: the arrivals are marked with
the largest clock among them, and the generation rises (R36, R139, R280). -/
def Dev.tryRelease (d : Dev) (b : Block) (n : Nat) : Dev :=
  let ws := d.barWaves b n
  let open_ (w : Wave) := w.arrivals.filter fun a => a.bar == n && a.released.isNone
  let live := ws.filter (·.live)
  let team := if n = 15 then b.team else none
  let left := ((team.bind d.team?).map (·.left)).getD []
  if live.isEmpty || live.any (fun w => (open_ w).isEmpty) then d
  else
    let t := maxOf (left ++ ws.flatMap fun w => (open_ w).map (·.clock))
    let ids := ws.map (·.id)
    let bs := (ws.map (·.block)).eraseDups
    let rel (a : Arrival) : Arrival := if a.bar = n ∧ a.released = none then { a with released := some t } else a
    { d with
      waves := modIf (fun w => ids.contains w.id) (fun w => { w with arrivals := w.arrivals.map rel }) d.waves
      teams := modIf (fun x => some x.id == team) (fun x => { x with left := [] }) d.teams
      blocks := modIf (fun x => bs.contains x.id)
        (fun x => { x with barGens := assocPut x.barGens n (x.barGen n + 1) }) d.blocks }

/-- Every barrier of a block is looked at again, since fewer waves are expected (R36, R143). -/
def Dev.recheckBars (d : Dev) (b : Block) : Dev := (List.range 16).foldl (fun d n => d.tryRelease b n) d

/-- The operations that a block's trigger event waits for, of strands of a wave that trigger or exit (R145): what they have
outstanding among stores, no-return atomics, `cinc` and copies; the times of what has completed. Strands that have triggered
before add nothing. DESIGN CHOICE (log entry 110): the largest of no times is 0. -/
def Dev.noteTrigger (d : Dev) (w : Wave) (g : StrandMask) : Dev :=
  let new := (List.range 8).filter fun t => inGang g t && (w.strands[t]?).any fun s => !s.triggered && !s.exited
  let mine (g : StrandMask) : Bool := new.any (inGang g)
  let ops := (d.memops.filter fun o => o.wave == w.id && o.kind.writes && mine o.gang).map (·.id)
  let jobs := (d.jobs.filter fun j => j.wave == w.id && j.kind.inCp && mine j.gang).map (·.id)
  let t := maxOf (new.filterMap fun t => (w.strands[t]?).map (·.done))
  d.modBlock w.block fun b => { b with trigOps := some (b.trigOps.getD [] ++ ops ++ jobs), trigTime := max b.trigTime t }

/-- A store or a copy of a gang has completed at a time: it counts for its strands that have not triggered, and for its
block's trigger event and end (R144, R145). -/
def Dev.noteDone (d : Dev) (id wave block : Nat) (g : StrandMask) (t : Nat) : Dev :=
  (d.modWave wave fun w => w.modStrands g fun _ s => if s.triggered then s else { s with done := max s.done t }).modBlock block
    fun b => { b with
      time := max b.time t
      trigTime := if (b.trigOps.getD []).contains id then max b.trigTime t else b.trigTime }

/-- The last strand of a wave has exited (R32, R143): its port counts it no longer, loads and `fx` operations are
discarded, leases and requests given back, claims withdrawn. -/
def Dev.waveGone (d : Dev) (w : Wave) (b : Block) : Dev :=
  let fx := d.jobs.filter fun j => j.wave == w.id && j.kind.inFx
  let d : Dev := { d with memops := d.memops.filter fun o =>
    !(o.wave == w.id && (o.kind.inLd || (match o.kind with | .sload _ => true | _ => false))) }
  let d := fx.foldl (fun d j => d.endJob j.id j.clock) d
  let d := d.douseAll b.core w.id
  let d := d.modCore b.core fun c => { c with claims := c.claims.filter (·.1 != w.id) }
  let d := (d.modWave w.id fun w => { w with port := none }).modBlock b.id fun x => { x with time := max x.time w.lts }
  d.recheckBars b

/-- Every wave of a block stops, each strand counting as exited (R40, R41). -/
def Dev.stopWaves (d : Dev) (b : Block) : Dev :=
  let ws := d.liveWaves b.id
  let out (s : Strand) : Strand := { s with exited := true, gang := 0, waiting := none, monitor := none }
  let stop (w : Wave) : Wave := { w with strands := w.strands.map out, susp := none, entry := false }
  let d := ws.foldl (fun d w => d.noteTrigger w 0xFF) d
  let d : Dev := { d with waves := modIf (·.block == b.id) stop d.waves }
  ws.foldl (fun d w => d.waveGone w b) d

/-- A cause finds no handler: the wave and its block end, with ERROR in the launch and above it (R40, R305, R309). -/
def Dev.endBlock (d : Dev) (id : Nat) : Dev :=
  match d.block? id with
  | none => d
  | some b =>
    let t := maxOf ((d.blockWaves id).map (·.lts))
    let d := d.stopWaves b
    match b.launch with
    | some l => d.markLaunch l true false t
    | none => d

/-- Numbers under which the records of a copy that lie on other packages stand among its pieces while they are read. -/
abbrev recPieceA : Nat := 70000
abbrev recPieceB : Nat := 70001

/-- A copy that a cancel stops: it issues nothing more, and only pieces that are on their way go on (R41, R197). -/
def Job.cancel (j : Job) : Job :=
  match j.kind with
  | .copy c =>
    let running := c.pieces.filter fun p => match p.2 with | .issued .. => decide (p.1 < recPieceA) | _ => false
    { j with kind := .copy { c with tag := none, bar := none, stamp := none, whole := none, skipAll := true, pieces := running } }
  | .tile o p (some r) _ => { j with kind := .tile o p (some r) (some cCancel) }
  | _ => j

/-- A stopped copy that has nothing on its way. -/
def Job.isStopped (j : Job) : Bool := match j.kind with | .copy c => c.skipAll && c.pieces.isEmpty | _ => false
/-- Stopped copies of a block end (R41, R197). -/
def Dev.endStopped (d : Dev) (block : Nat) : Dev :=
  (d.jobs.filter fun j => j.block == block && j.isStopped).foldl (fun d j =>
    let t := match j.kind with | .copy c => max c.time j.clock | _ => j.clock
    (d.noteDone j.id j.wave block j.gang t).endJob j.id t) d

/-- A forced exit (R41): the waves stop, copies stop at their next piece, tile operations at their next commit. -/
def Dev.forceExit (d : Dev) (id : Nat) : Dev :=
  match d.block? id with
  | none => d
  | some b =>
    let t := maxOf ((d.blockWaves id).map (·.lts))
    let d := d.stopWaves b
    let queued := d.jobs.filter fun j => j.block == id && (match j.kind with | .tile _ _ none _ => true | _ => false)
    let d := queued.foldl (fun d j => d.endJob j.id j.clock) d
    let d := ({ d with jobs := modIf (·.block == id) Job.cancel d.jobs } : Dev).endStopped id
    let d : Dev := { d with cores := d.cores.map fun c => { c with fifo := c.fifo.filter (·.block != id) } }
    let d := d.modBlock id fun b => { b with forced := true, deadline := none }
    match b.launch with
    | some l => d.markLaunch l false true t
    | none => d

/-! ## Taking an exception (R304 to R309) -/

/-- What a cause does in a wave without a handler (Table 11-1, last column). -/
inductive NoHandler where
  | ends | bitOnly | forcedExit
deriving DecidableEq, Repr

/-- Table 11-1, last column. -/
def noHandler (cause : Nat) : NoHandler :=
  if cause = cLeaselost ∨ cause = cPreempt ∨ cause = cMigrate ∨ cause = cGuarantee ∨ cause = cEnergy then .bitOnly
  else if cause = cCancel then .forcedExit
  else .ends

/-- A cause bit is set (R15, R304). -/
def Wave.setCause (w : Wave) (cause : Nat) : Wave := { w with cause := w.cause ||| (1#64 <<< cause) }

/-- The gang map (R16): byte t is the strand mask of strand t's gang, 0 once it has exited. -/
def Wave.gangMap (w : Wave) : Word := BitVec.ofNat 64 (leNat (w.strands.map fun s => if s.exited then 0 else s.gang))

/-- `s61` of Table 11-2. -/
def FaultRec.word (f : FaultRec) : Word :=
  BitVec.ofBool f.fresh ++ 0#25 ++ BitVec.ofNat 6 f.cause ++ f.mask

/-- The fault record is placed in s60 to s62 (R307). -/
def Strand.putFault (s : Strand) (f : FaultRec) : Strand := ((s.wr 60 f.addr).wr 61 f.word).wr 62 f.pc

/-- A strand leaves its program for the handler: its PC, which names the instruction it was at, is saved, a monitor it
slept on is cleared (R122, R306). -/
def Strand.toHandler (s : Strand) (f : FaultRec) (vec : Word) (all : StrandMask) : Strand :=
  if s.exited then s
  else
    let mon := match s.waiting with | some ⟨_, .mwait _⟩ => none | _ => s.monitor
    let s : Strand := { s with
      epc := s.pc, hsave := [s.rd 60, s.rd 61, s.rd 62], pc := vec, gang := all, waiting := none, monitor := mon }
    s.putFault f

/-- The wave enters its handler (R306). -/
def Wave.enter (w : Wave) : Wave :=
  { w with
    gsave := w.gangMap
    inHandler := true
    entry := false
    strands := w.strands.map fun s => s.toHandler w.fault w.tvec w.liveMask }

/-- A strand of the wave is inside an instruction that no cause ends: a scalar access without its reply, or `susp`. -/
def Wave.busy (w : Wave) : Bool :=
  w.strands.any fun s =>
    match s.waiting with
    | some ⟨_, .remote _⟩ => true
    | some ⟨_, .susp⟩ => true
    | _ => false

/-- An instruction that a wave has not completed has asked another package for something, or its reply has come. -/
def Dev.asksFor (d : Dev) (id : Nat) : Bool := d.inbox.any (·.1 == id) || d.remotes.any fun r => r.job.any (·.1 == id)
/-- What a wave's unfinished instruction has asked for is asked anew when the instruction runs again (R129, R306). -/
def Dev.dropAsks (d : Dev) (id : Nat) : Dev :=
  if d.asksFor id then
    { d with inbox := d.inbox.filter (·.1 != id), remotes := d.remotes.filter fun r => !r.job.any (·.1 == id) }
  else d

/-- The wave enters its handler once every strand has reached a boundary (R306); its pending claim is withdrawn (R122), and
what an unfinished instruction has asked other packages for is dropped. -/
def Dev.enterHandler (d : Dev) (id : Nat) : Dev :=
  match d.wave? id with
  | none => d
  | some w =>
    if w.busy then d.modWave id fun w => { w with entry := true }
    else
      let d := (d.modWave id Wave.enter).dropAsks id
      match d.block? w.block with
      | none => d
      | some b =>
        if (d.core b.core).claims.any (·.1 == id)
        then d.modCore b.core fun c => { c with claims := c.claims.filter (·.1 != id) } else d

/-- TAKING AN EXCEPTION. A precise cause is raised in a wave at the instruction its strands stand at (R304): with a
handler the wave enters it (R306); without one, or inside it, the wave and its block end (R305, R309). -/
def Dev.trapWave (d : Dev) (id cause : Nat) : Dev :=
  match d.wave? id with
  | none => d
  | some w =>
    let d := d.modWave id (·.setCause cause)
    if w.inHandler || w.tvec == 0 then d.endBlock w.block else d.enterHandler id

/-- A precise cause at the issuing gang's instruction. -/
def Dev.trap (d : Dev) (k : Issue) (cause : Nat) : Dev := d.trapWave k.wave.id cause

/-- The fault record is written (R307). -/
def Dev.setFault (d : Dev) (id : Nat) (addr : Word) (cause : Nat) (mask : LaneMask) (pc : Word) : Dev :=
  d.modWave id fun w => { w with fault := ⟨addr, cause, mask, pc, true⟩ }

/-- A precise memory cause: the record, then the exception (R127, R176). -/
def Dev.trapMem (d : Dev) (k : Issue) (cause : Nat) (addr : Word) (mask : LaneMask) : Dev :=
  (d.setFault k.wave.id addr cause mask k.pc).trap k cause

/-- A block is being suspended: a cause that comes is recorded for its object (R236, R313). -/
def Dev.inSusp (d : Dev) (block : Nat) : Bool := (d.block? block).any (·.susp.isSome)

/-- An asynchronous cause (R304): in the handler its bit waits for `rett` (R309); with a handler the wave enters it at
its next boundary; without one it acts as Table 11-1 states (R305). -/
def Dev.raiseAsync (d : Dev) (id cause : Nat) : Dev :=
  match d.wave? id with
  | none => d
  | some w =>
    if !w.live then d
    else
      let d := d.modWave id (·.setCause cause)
      if w.inHandler then d
      else if w.tvec != 0 then d.modWave id fun w => { w with entry := true }
      else
        match noHandler cause, d.inSusp w.block with
        | .ends, false => d.endBlock w.block
        | .forcedExit, false => d.forceExit w.block
        | _, _ => d

/-- A deferred cause reaches its boundary (R178): in the handler it ends the wave (R309). -/
def Dev.raiseDeferred (d : Dev) (id cause : Nat) : Dev :=
  match d.wave? id with
  | none => d
  | some w =>
    let d := d.modWave id (·.setCause cause)
    if w.inHandler || w.tvec == 0 then (if d.inSusp w.block then d else d.endBlock w.block) else d.enterHandler id

/-- The wave that a report reaches (R178): the one that issued; once that has no live strand, for a copy's stamp the lowest
live wave of the block (R196). -/
def Dev.reportWave (d : Dev) (o : MemOp) : Nat :=
  if o.kind != .stamp || (d.wave? o.wave).any (·.live) then o.wave
  else ((leastBy (·.idx) (d.liveWaves o.block)).map (·.id)).getD o.wave

/-- A failure found after issue is to be reported to a wave at the boundary of R178, with an address. -/
def Dev.notice (d : Dev) (wave block ctx : Nat) (gang : StrandMask) (pc : Word) (clock cause addr : Nat) : Dev :=
  { d with
    nextId := d.nextId + 1
    reports := d.reports ++ [⟨d.nextId, wave, block, ctx, gang, pc, .notice,
      [⟨4 * lowStrand gang, addr, .glob 0, 0, [], .failed cause⟩], clock, false⟩] }

/-- The causes that write the fault record (R307): those of memory. -/
def memoryCause (c : Nat) : Bool := c == cXlate || c == cRights || c == cAlign || c == cIntegrity || c == cPairtimeout

/-- A cause is raised in every live wave of a block. -/
def Dev.raiseBlock (d : Dev) (b cause : Nat) : Dev := (d.liveWaves b).foldl (fun d w => d.raiseAsync w.id cause) d

/-! ## Returning from an exception (R121, R308) -/

/-- Byte t of a gang map. -/
def mapByte (g : Word) (t : Nat) : StrandMask := g.extractLsb' (8 * t) 8

/-- The conditions of R16 on a gang map for the strands in `live`. -/
def validMap (g : Word) (live : StrandMask) : Bool :=
  (List.range 8).all fun t =>
    let x := mapByte g t
    if inGang live t then
      inGang x t && (x &&& ~~~live) == 0 &&
        (List.range 8).all fun u => !inGang live u || mapByte g u == x || (mapByte g u &&& x) == 0
    else x == 0

/-- The wave leaves its handler (R308): s60 to s62 come back, the gangs of `%gsave` are formed, each strand goes on at
its `%epc`. A record written before no longer counts as new (R307). -/
def Wave.leave (w : Wave) : Wave :=
  { w with
    inHandler := false
    fault := { w.fault with fresh := false }
    strands := w.strands.mapIdx fun t s =>
      if s.exited then s
      else
        let h (i : Nat) : Word := (s.hsave[i]?).getD 0
        let s := ((s.wr 60 (h 0)).wr 61 (h 1)).wr 62 (h 2)
        { s with pc := s.epc, gang := mapByte w.gsave t, waiting := none } }

/-- Re-entry under R121: `%epc` and `%gsave` unchanged, the record rewritten (R308). -/
def Wave.reenter (w : Wave) : Wave :=
  { w with strands := w.strands.map fun s =>
      if s.exited then s
      else
        let s := s.putFault w.fault
        { s with pc := w.tvec, gang := w.liveMask, waiting := none } }

/-- RETURN FROM AN EXCEPTION (R121), for a wave that stands in its handler as one gang. -/
def Dev.leaveHandler (d : Dev) (k : Issue) : Dev :=
  let w := k.wave
  let some_ (p : NoHandler) : Bool := (List.range 26).any fun c => w.cause.getLsbD c && noHandler c == p
  if w.cause != 0 && w.tvec != 0 then d.modWave w.id Wave.reenter
  else if some_ .ends then d.endBlock w.block
  else if some_ .forcedExit then d.forceExit w.block
  else if !validMap w.gsave w.liveMask then d.trap k cGang
  else d.modWave w.id Wave.leave

end Sys2Proof.Machine
end

