-- ==== Sys2Proof/Machine/Fetch.lean ====
section
/-!
DEFINITION. New waves and blocks (R17, R31, R43), the I-cache and instruction fetch (R73, R86 to R89), and the passing of
time (R15, R265, R299).
-/

namespace Sys2Proof.Machine

/-! ## New waves and blocks -/

/-- A strand of a new wave (R17): the code address and `s1`. -/
def Strand.new (pc s1 : Word) : Strand where
  pc := pc
  s := (List.replicate 64 0).set 1 s1
  epc := 0
  hsave := [0, 0, 0]
  gang := 0xFF
  exited := false
  triggered := false
  monitor := none
  waiting := none
  done := 0

/-- The fault record and the tile record before anything is written (Tables 7-4, 11-2). -/
def FaultRec.zero : FaultRec := ⟨0, 0, 0, 0, false⟩
def TileRec.zero : TileRec := ⟨0, 0x3F, 0, 0, 0, 0, 0⟩

/-- A new wave (R17): `v0` is the lane number, `m0` all ones, everything else zero. -/
def Wave.new (id block idx : Nat) (port : Option Nat) (granules : Nat) (pc s1 tvec : Word) (lts order : Nat) : Wave where
  id := id
  block := block
  idx := idx
  port := port
  v := (List.range 32).map (BitVec.ofNat 32) :: List.replicate (8 * granules - 1) (List.replicate 32 0)
  m := 0xFFFFFFFF :: List.replicate 15 0
  cause := 0
  tvec := tvec
  gsave := 0
  lts := lts
  fault := .zero
  inHandler := false
  entry := false
  halted := false
  strands := List.replicate 8 (Strand.new pc s1)
  last := none
  spill := []
  trec := .zero
  tokens := [0, 0, 0]
  arrivals := []
  susp := none
  doneCp := 0
  doneTl := 0
  doneFx := 0
  order := order

/-- A block with no ranges, tags, engines or team, of one wave (R43). -/
def Block.plain (id core ctx : Nat) : Block where
  id := id
  core := core
  ctx := ctx
  launch := none
  coord := 0
  team := none
  member := 0
  nwaves := 1
  scratch := ⟨0, 0⟩
  wbuf := ⟨0, 0⟩
  abuf := ⟨0, 0⟩
  acc := ⟨0, 0⟩
  ntags := 0
  tags := []
  skipTags := 0
  tagTurn := (0, 0)
  barGens := []
  engines := 0
  svc := 0x0A
  depth := 0
  resident := true
  susp := none
  deadline := none
  forced := false
  trigOps := none
  trigDone := false
  trigTime := 0
  time := 0

/-! ## Fetch (R73, R74, R82, R86 to R89) -/

/-- The internal word of the instruction at an address, or its fault word (R87, R88). -/
def Dev.fillWord (d : Dev) (core : Nat) (c : Ctx) (va : Nat) : IWord :=
  let bad (e : Nat × Nat) : IWord := .fault (if e.2 = 3 then cIntegrity else cFetch) e.1 e.2
  if 2 ^ 56 ≤ va then .fault cFetch 0 1
  else
    match d.fetchBytes core c va 0 1 with
    | (_, some e) => bad e
    | ([], none) => .fault cFetch 0 1
    | (b :: _, none) =>
      match Class.ofByte b with
      | none => .fault cIllegal 0 0
      | some k =>
        match d.fetchBytes core c va 0 k.length with
        | (_, some e) => bad e
        | (bs, none) => .word bs

def Dev.icached (d : Dev) (core ctx va : Nat) : Option IWord :=
  (d.icache.find? fun e => e.core == core && e.ctx == ctx && e.va == va).map (·.word)

/-- The words of a 128-byte line from an entry address on (R87). The number bounds them. -/
def Dev.fillLine (d : Dev) (core : Nat) (c : Ctx) (line : Nat) : Nat → Nat → List IEntry
  | 0, _ => []
  | n + 1, va =>
    if va / 128 ≠ line then []
    else
      let w := d.fillWord core c va
      ⟨core, c.n, va, w⟩ :: (match w with | .word bs => d.fillLine core c line n (va + bs.length) | .fault .. => [])

/-- The 128-byte lines of code from an address on that an instruction there may need: its own and the next. -/
def codeLines (va : Nat) : List Nat := [va / 128 * 128, va / 128 * 128 + 128]

/-- A line of code passes through the caches: its translation, the LLC, which charges a miss to the context, and the core's
L1 (R248, R250, R258). -/
def Dev.loadCode (d : Dev) (core : Nat) (c : Ctx) (va : Nat) : Dev :=
  match if 2 ^ 56 ≤ va then .error cXlate else d.translate core c va with
  | .ok l =>
    match l.loc va with
    | .glob pa => (((d.looked core c va).touchLine c.n pa c.n).l1Fill core c.n pa)
    | _ => d.looked core c va
  | .error _ => d.looked core c va

/-- Reading a word reaches past its line (R86): an instruction that goes on there, or the byte that could not be fetched. -/
def IEntry.straddles (e : IEntry) : Bool :=
  let last := match e.word with | .word bs => e.va + bs.length - 1 | .fault _ off _ => e.va + off
  last / 128 != e.va / 128

/-- A line of a core's I-cache is decoded from an address on (R87), and the next line is read where an instruction goes on in
it. Other words of the line stay only where the line still gives them, so that a line's words come from one reading of it
(R89). -/
def Dev.fillCode (d : Dev) (core : Nat) (c : Ctx) (va : Nat) : Dev :=
  let es := d.fillLine core c (va / 128) 128 va
  let stays (e : IEntry) : Bool :=
    !(e.core == core && e.ctx == c.n && e.va / 128 == va / 128)
      || (!es.any (·.va == e.va) && e.word == d.fillWord core c e.va)
  let read := d.loadCode core c va
  { (if es.any IEntry.straddles then read.loadCode core c (va / 128 * 128 + 128) else read) with
    icache := d.icache.filter stays ++ es }

/-- Lines of code that lie on other packages and have not come: their keys, packages and addresses (R256, R272). -/
def Dev.codeWanted (d : Dev) (core : Nat) (c : Ctx) (va : Nat) : List (Nat × Nat × Nat) :=
  (codeLines va).filterMap fun a =>
    match if 2 ^ 56 ≤ a then .error cXlate else d.translate core c a with
    | .ok l =>
      match l.loc a with
      | .remote pkg pa =>
        if l.x && !d.inbox.any fun m => m.1 == codeReader && m.2.1 == codeKey c.n pkg pa
        then some (codeKey c.n pkg pa, pkg, pa) else none
      | _ => none
    | .error _ => none

/-- The request for a line of code is on its way. -/
def Dev.codeAsked (d : Dev) (key : Nat) : Bool := d.remotes.any fun r => r.job == some (codeReader, 0, key)

/-- Requests for lines of code go out, each once. -/
def Dev.askCode (d : Dev) (c : Ctx) (l : List (Nat × Nat × Nat)) : Dev :=
  l.foldl (fun d x =>
    if d.codeAsked x.1 then d
    else
      let (r, d) := d.fresh
      { d with remotes := d.remotes ++ [⟨r, none, some (codeReader, 0, x.1), c.n, x.2.1, x.2.2, .read 128, 0, none⟩] }) d

/-- Lines of code that have come and have been decoded leave the inbox. -/
def Dev.dropCode (d : Dev) (ctx : Nat) : Dev :=
  { d with inbox := d.inbox.filter fun m => !(m.1 == codeReader && m.2.1 / 2 ^ 58 == ctx) }
/-- A context's lines of code are fetched anew, those that are on their way too (R89). -/
def Dev.forgetCode (d : Dev) (ctx : Nat) : Dev :=
  { d.dropCode ctx with
    remotes := d.remotes.filter fun r => !(r.job.any fun j => j.1 == codeReader && j.2.2 / 2 ^ 58 == ctx) }

/-- The issuing gang's instruction: the I-cache's word; on a miss the line is filled from the PC on (R87). None while the
line is on its way from another package. -/
def Dev.fetch (d : Dev) (k : Issue) : Option IWord × Dev :=
  let va := k.pc.toNat
  match d.icached k.core k.ctx.n va with
  | some w => (some w, d)
  | none =>
    match d.codeWanted k.core k.ctx va with
    | [] => (some (d.fillWord k.core k.ctx va), (d.fillCode k.core k.ctx va).dropCode k.ctx.n)
    | l => (none, (d.askCode k.ctx l).stall k (.code va))

/-- ICACHE_FILL (R87): the line that holds an address is filled from there, once what of it lies on another package has
come. -/
def execIcacheFill (core ctx va : Nat) (s : State) : Host.Outcome State Fault Refusal :=
  onDev s fun d =>
    match d.ctx? ctx with
    | none => d
    | some c =>
      if 896 ≤ core then d
      else
        match d.codeWanted core c va with
        | [] => (d.fillCode core c va).dropCode ctx
        | l => d.askCode c l

/-- PAGE_WALK (R258): a walk that succeeds is cached by the core and its die. -/
def execPageWalk (core ctx va : Nat) (s : State) : Host.Outcome State Fault Refusal :=
  onDev s fun d => match d.ctx? ctx with | none => d | some c => if 896 ≤ core ∨ 2 ^ 56 ≤ va then d else d.walkNow core c va

/-! ## Time (R15, R299) -/

/-- Charges of leased engines to a context for some cycles (Table 10-8). -/
def Dev.leaseCharge (d : Dev) (ctx dt : Nat) : Nat :=
  (d.engines.map fun e =>
    if (e.st = .leased ∨ e.st = .evicting) ∧ e.holder.any (·.ctx == ctx) then cycleCharge e.kind * dt else 0).sum

/-- Cycles pass; ROT goes on with them (R285). -/
def Dev.tick (d : Dev) (dt : Nat) : Dev :=
  if dt = 0 then d
  else
    { d with
      clock := d.clock + dt
      rot := (d.clock + dt) / 2400 % 256
      ctxs := d.ctxs.map fun c => let u := d.leaseCharge c.n dt; if u = 0 then c else c.charge u }

end Sys2Proof.Machine
end

