-- ==== Sys2Proof/Machine/Float.lean ====
section
/-!
DEFINITION. Number formats and exact arithmetic (02: R48 to R58, R67; 05: R155 to R161, R163 to R166): values are exact
dyadic rationals, and an operation rounds once, at its end.
-/

namespace Sys2Proof.Machine

/-- A finite value (-1)^neg × m × 2^e. A zero keeps its sign. -/
structure Dy where
  neg : Bool
  m   : Nat
  e   : Int
deriving DecidableEq, Repr

/-- A value of a floating-point format. -/
inductive Fp where
  | nan
  | inf (neg : Bool)
  | fin (x : Dy)
deriving DecidableEq, Repr

/-- A format: exponent bits, fraction bits, bias, the largest finite magnitude's code, and its specials. -/
structure Fmt where
  eb   : Nat
  mb   : Nat
  bias : Int
  top  : Nat
  /-- IEEE infinities and NaNs at the largest exponent (R48, R51). -/
  ieee : Bool
  /-- The only NaN is the all-ones code (R50). -/
  e4m3 : Bool
  nan  : Nat
deriving DecidableEq, Repr

def fp32 : Fmt := ⟨8, 23, 127, 0x7F7FFFFF, true, false, 0x7FC00000⟩
def bf16 : Fmt := ⟨8, 7, 127, 0x7F7F, true, false, 0x7FC0⟩
def fp16 : Fmt := ⟨5, 10, 15, 0x7BFF, true, false, 0x7E00⟩
def e4m3 : Fmt := ⟨4, 3, 7, 0x7E, false, true, 0x7F⟩
def e5m2 : Fmt := ⟨5, 2, 15, 0x7B, true, false, 0x7E⟩
def e2m1 : Fmt := ⟨2, 1, 1, 0x7, false, false, 0⟩

/-- Exponent of the last place of the subnormals. -/
def Fmt.emin (f : Fmt) : Int := 1 - f.bias - f.mb
/-- The place of the sign bit. -/
def Fmt.sign (f : Fmt) : Nat := f.eb + f.mb

/-- The value of a magnitude's code on the grid that continues above the largest finite value (R55). -/
def Fmt.gridVal (f : Fmt) (neg : Bool) (code : Nat) : Dy :=
  let e := code / 2 ^ f.mb
  let m := code % 2 ^ f.mb
  if e = 0 then ⟨neg, m, f.emin⟩ else ⟨neg, 2 ^ f.mb + m, f.emin + (e - 1 : Nat)⟩

/-- The value of an encoding (R48 to R52). -/
def Fmt.decode (f : Fmt) (bits : Nat) : Fp :=
  let neg := Nat.testBit bits f.sign
  let code := bits % 2 ^ f.sign
  if f.ieee && code / 2 ^ f.mb == 2 ^ f.eb - 1 then (if code % 2 ^ f.mb = 0 then .inf neg else .nan)
  else if f.e4m3 && code == 0x7F then .nan
  else .fin (f.gridVal neg code)

/-- The number of bits of a natural number; the fuel bounds it. -/
def bitLen (n : Nat) : Nat := if n = 0 then 0 else Nat.log2 n + 1

/-- Whether a magnitude rounds away from its truncation: the mode, its sign, the truncation's last bit, the remainder
against the half. -/
def roundsUp (r : Rnd) (neg odd : Bool) (rest half : Nat) (sticky : Bool) : Bool :=
  match r with
  | .rne => decide (half < rest) || (rest == half && (sticky || odd))
  | .rtz => false
  | .rup => !neg && (rest != 0 || sticky)
  | .rdn => neg && (rest != 0 || sticky)

/-- The code of the grid value that a magnitude m × 2^e (and a little more, if `sticky`) rounds to. -/
def Fmt.roundCode (f : Fmt) (r : Rnd) (neg : Bool) (m : Nat) (e : Int) (sticky : Bool) : Nat :=
  let q := max (e + bitLen m - (f.mb + 1 : Nat)) f.emin
  let hi :=
    if q ≤ e then m * 2 ^ (e - q).toNat
    else
      let sh := (q - e).toNat
      let h := m / 2 ^ sh
      if roundsUp r neg (h % 2 == 1) (m % 2 ^ sh) (2 ^ (sh - 1)) sticky then h + 1 else h
  if hi < 2 ^ f.mb then hi else (q - f.emin).toNat * 2 ^ f.mb + hi

/-- What stands for a magnitude above the largest finite value: infinity, the largest value, or NaN. -/
inductive Over where
  | inf | max | nan
deriving DecidableEq, Repr

/-- The overflow of an IEEE rounding (R155). -/
def overOf (r : Rnd) (neg : Bool) : Over :=
  match r with
  | .rne => .inf
  | .rtz => .max
  | .rup => if neg then .max else .inf
  | .rdn => if neg then .inf else .max

/-- A sign bit before a magnitude's code. -/
def Fmt.withSign (f : Fmt) (neg : Bool) (code : Nat) : Nat := (if neg then 2 ^ f.sign else 0) + code
/-- The code of infinity in the IEEE formats. -/
def Fmt.infCode (f : Fmt) : Nat := (2 ^ f.eb - 1) * 2 ^ f.mb

/-- The encoding of what stands for an overflow. -/
def Fmt.over (f : Fmt) (neg : Bool) : Over → Nat
  | .inf => f.withSign neg f.infCode
  | .max => f.withSign neg f.top
  | .nan => f.nan

/-- Rounds a finite value into a format, with the given fate of overflow. -/
def Fmt.roundTo (f : Fmt) (r : Rnd) (x : Dy) (sticky : Bool) (o : Over) : Nat :=
  let code := f.roundCode r x.neg x.m x.e sticky
  if f.top < code then f.over x.neg o else f.withSign x.neg code

/-- Rounds a finite value in an IEEE mode (R155). -/
def Fmt.round (f : Fmt) (r : Rnd) (x : Dy) : Nat := f.roundTo r x false (overOf r x.neg)

/-- The integer that a value is at an exponent not above its own. -/
def Dy.at (x : Dy) (e : Int) : Int := (if x.neg then -1 else 1) * (x.m * 2 ^ (x.e - e).toNat : Nat)

/-- A value from an integer at an exponent. -/
def Dy.ofInt (i : Int) (e : Int) : Dy := ⟨decide (i < 0), i.natAbs, e⟩

def Dy.mul (x y : Dy) : Dy := ⟨xor x.neg y.neg, x.m * y.m, x.e + y.e⟩
def Dy.neg_ (x : Dy) : Dy := { x with neg := !x.neg }
/-- An exact sum; the sign of a zero sum is left to the operation. -/
def Dy.add (x y : Dy) : Dy := let e := min x.e y.e; .ofInt (x.at e + y.at e) e
/-- An exact sum of many values. -/
def Dy.sum (l : List Dy) : Dy :=
  let e := l.foldl (fun e x => min e x.e) 0
  .ofInt (l.foldl (fun s x => s + x.at e) 0) e

/-- Comparison of finite values; zeros of either sign are equal. -/
def Dy.lt (x y : Dy) : Bool := let e := min x.e y.e; decide (x.at e < y.at e)

/-- The exact sum of two values with the signs of zero of R155, then one rounding; `nan` for cancelling infinities. -/
def Fmt.addFp (f : Fmt) (r : Rnd) (a b : Fp) : Nat :=
  match a, b with
  | .nan, _ => f.nan
  | _, .nan => f.nan
  | .inf s, .inf t => if s = t then f.withSign s f.infCode else f.nan
  | .inf s, .fin _ => f.withSign s f.infCode
  | .fin _, .inf s => f.withSign s f.infCode
  | .fin x, .fin y =>
    let z := x.add y
    if z.m = 0 then f.withSign (if x.neg = y.neg then x.neg else r = .rdn) 0 else f.round r z

/-- The exact product (R155). -/
def mulFp (a b : Fp) : Fp :=
  match a, b with
  | .nan, _ => .nan
  | _, .nan => .nan
  | .inf s, .inf t => .inf (xor s t)
  | .inf s, .fin y => if y.m = 0 then .nan else .inf (xor s y.neg)
  | .fin x, .inf t => if x.m = 0 then .nan else .inf (xor x.neg t)
  | .fin x, .fin y => .fin (x.mul y)

/-- One rounding of a value. -/
def Fmt.roundFp (f : Fmt) (r : Rnd) : Fp → Nat
  | .nan => f.nan
  | .inf s => f.withSign s f.infCode
  | .fin x => f.round r x

def Fp.negate : Fp → Fp
  | .nan => .nan
  | .inf s => .inf (!s)
  | .fin x => .fin x.neg_

def dec32 (x : Lane) : Fp := fp32.decode x.toNat
def lane32 (n : Nat) : Lane := BitVec.ofNat 32 n
def canonNaN32 : Lane := 0x7FC00000

/-! ## FP32 arithmetic (R155 to R160) -/

def fadd (r : Rnd) (a b : Lane) : Lane := lane32 (fp32.addFp r (dec32 a) (dec32 b))
def fsub (r : Rnd) (a b : Lane) : Lane := lane32 (fp32.addFp r (dec32 a) (dec32 b).negate)
def fmul (r : Rnd) (a b : Lane) : Lane := lane32 (fp32.roundFp r (mulFp (dec32 a) (dec32 b)))
def fma (r : Rnd) (a b c : Lane) : Lane := lane32 (fp32.addFp r (mulFp (dec32 a) (dec32 b)) (dec32 c))

/-- The order of minimum and maximum: −0 below +0 (R156). -/
def fpBelow (a b : Fp) : Bool :=
  match a, b with
  | .inf true, .inf true => false
  | .inf true, _ => true
  | _, .inf true => false
  | .inf false, _ => false
  | _, .inf false => true
  | .fin x, .fin y => if x.m = 0 ∧ y.m = 0 then x.neg && !y.neg else x.lt y
  | _, _ => false

/-- `fmin fmax fminn fmaxn` (R156): `mx` for the maxima, `num` for the number forms. -/
def fminmax (mx num : Bool) (a b : Lane) : Lane :=
  match dec32 a, dec32 b with
  | .nan, .nan => canonNaN32
  | .nan, _ => if num then b else canonNaN32
  | _, .nan => if num then a else canonNaN32
  | x, y => if mx then (if fpBelow x y then b else a) else (if fpBelow y x then b else a)

/-- `fabs`, `fneg` (R157). -/
def fabsLane (a : Lane) : Lane := if dec32 a = .nan then canonNaN32 else a &&& 0x7FFFFFFF
def fnegLane (a : Lane) : Lane := if dec32 a = .nan then canonNaN32 else a ^^^ 0x80000000

/-- A value rounded to an integer in a mode (R159, R163). -/
def Dy.toInt (x : Dy) (r : Rnd) : Int :=
  if 0 ≤ x.e then x.at 0
  else
    let sh := (-x.e).toNat
    let h := x.m / 2 ^ sh
    let h := if roundsUp r x.neg (h % 2 == 1) (x.m % 2 ^ sh) (2 ^ (sh - 1)) false then h + 1 else h
    if x.neg then -(h : Int) else h

/-- `ffloor fceil ftrunc frnd` (R159). -/
def fintegral (r : Rnd) (a : Lane) : Lane :=
  match dec32 a with
  | .nan => canonNaN32
  | .inf _ => a
  | .fin x => if 0 ≤ x.e ∨ x.m = 0 then a else lane32 (fp32.round .rne ⟨x.neg, (x.toInt r).natAbs, 0⟩)

/-- `fclass` (R159). -/
def fclassLane (a : Lane) : Lane :=
  let e := a.toNat / 2 ^ 23 % 256
  let m := a.toNat % 2 ^ 23
  let neg := a.getLsbD 31
  let bit :=
    if e = 255 then (if m = 0 then (if neg then 0 else 7) else if a.getLsbD 22 then 9 else 8)
    else if e = 0 then (if m = 0 then (if neg then 3 else 4) else if neg then 2 else 5)
    else if neg then 1 else 6
  lane32 (2 ^ bit)

/-- `fdiv.rne` (R160). -/
def fdivLane (a b : Lane) : Lane :=
  match dec32 a, dec32 b with
  | .nan, _ => canonNaN32
  | _, .nan => canonNaN32
  | .inf _, .inf _ => canonNaN32
  | .inf s, .fin y => lane32 (fp32.withSign (xor s y.neg) fp32.infCode)
  | .fin x, .inf t => lane32 (fp32.withSign (xor x.neg t) 0)
  | .fin x, .fin y =>
    let neg := xor x.neg y.neg
    if y.m = 0 then (if x.m = 0 then canonNaN32 else lane32 (fp32.withSign neg fp32.infCode))
    else
      let n := x.m * 2 ^ 64
      lane32 (fp32.roundTo .rne ⟨neg, n / y.m, x.e - y.e - 64⟩ (n % y.m != 0) .inf)

/-- The integer square root, bit by bit from bit `n` down. -/
def isqrtFrom (x : Nat) : Nat → Nat → Nat
  | 0, r => r
  | n + 1, r => let t := r + 2 ^ n; isqrtFrom x n (if t * t ≤ x then t else r)
def isqrt (x : Nat) : Nat := isqrtFrom x (bitLen x / 2 + 1) 0

/-- √(m × 2^e) as a truncated magnitude with its exponent, and whether it is inexact. -/
def sqrtDy (x : Dy) : Dy × Bool :=
  let (m, e) := if x.e % 2 = 0 then (x.m, x.e) else (2 * x.m, x.e - 1)
  let n := m * 2 ^ 80
  let s := isqrt n
  (⟨false, s, e / 2 - 40⟩, s * s != n)

/-- `fsqrt.rne` (R160). -/
def fsqrtLane (a : Lane) : Lane :=
  match dec32 a with
  | .nan => canonNaN32
  | .inf s => if s then canonNaN32 else a
  | .fin x =>
    if x.m = 0 then a
    else if x.neg then canonNaN32
    else let (s, st) := sqrtDy x; lane32 (fp32.roundTo .rne s st .inf)

/-- A result with a bound of 1 ulp (R160): exact when representable, else the enclosing value that the device picks
(log entry 9). -/
def oneUlp (op : Nat) (a : Lane) (x : Dy) (sticky : Bool) : Lane :=
  let down := fp32.roundTo .rtz x sticky .max
  let up := fp32.roundTo (if x.neg then .rdn else .rup) x sticky .inf
  lane32 (if (Config.approx op a).getLsbD 0 then up else down)

/-- `frcp` (R160). -/
def frcpLane (a : Lane) : Lane :=
  match dec32 a with
  | .nan => canonNaN32
  | .inf s => lane32 (fp32.withSign s 0)
  | .fin x =>
    if x.lt ⟨false, 1, -128⟩ && (Dy.mk true 1 (-128)).lt x then lane32 (fp32.withSign x.neg fp32.infCode)
    else
      let n := 2 ^ 96
      oneUlp 0 a ⟨x.neg, n / x.m, -x.e - 96⟩ (n % x.m != 0)

/-- `frsq` (R160). -/
def frsqLane (a : Lane) : Lane :=
  match dec32 a with
  | .nan => canonNaN32
  | .inf s => if s then canonNaN32 else 0
  | .fin x =>
    if x.m = 0 then lane32 (fp32.withSign x.neg fp32.infCode)
    else if x.neg then canonNaN32
    else
      let (m, e) := if x.e % 2 = 0 then (x.m, x.e) else (2 * x.m, x.e - 1)
      let n := 2 ^ 160
      let q := n / m
      let s := isqrt q
      oneUlp 1 a ⟨false, s, -(e / 2) - 80⟩ (s * s != q || n % m != 0)

/-! ## Functions with a bound of 2 ulp (R160): an enclosure of the exact result, and the device's own candidate inside
the bound (log entry 9) -/

/-- A result known to within its last place: the exact magnitude lies in [m, m + 2^8] × 2^e. -/
structure Near where
  neg : Bool
  m   : Nat
  e   : Int
deriving DecidableEq, Repr

/-- Exponent of one ulp of a result (R160). -/
def Near.ulp (y : Near) : Int := max (y.e + bitLen y.m - 24) (-149)

/-- A candidate lies within `n` times 2^u of the result. -/
def Near.within (y : Near) (c : Dy) (n : Nat) (u : Int) : Bool :=
  let s := min (min y.e c.e) u
  let d := c.at s - (Dy.mk y.neg y.m y.e).at s
  decide (d.natAbs + 2 ^ (y.e + 8 - s).toNat ≤ n * 2 ^ (u - s).toNat)

/-- The device's candidate when it keeps the bound, the nearest value otherwise. -/
def Near.pick (y : Near) (op : Nat) (a : Lane) (n : Nat) (u : Int) : Lane :=
  let c := Config.approx op a
  let code := c.toNat % 2 ^ 31
  if code ≤ fp32.infCode && y.within (fp32.gridVal (c.getLsbD 31) code) n u then c
  else lane32 (fp32.roundTo .rne ⟨y.neg, y.m, y.e⟩ true .inf)

/-- ln 2 and π as multiples of 2^-192, rounded down. -/
def ln2F : Nat := 0xB17217F7D1CF79ABC9E3B39803F2F6AF40F343267298B62D
def piF : Nat := 0x3243F6A8885A308D313198A2E03707344A4093822299F31D0

/-- Σ x^k / (k·(k+1)…) from a term on, in multiples of 2^-p: each term is the last one times `x` divided by the next
divisor, `step` apart; signs alternate when `alt`. -/
def series (p x : Nat) (alt : Bool) (step : Nat) : Nat → Nat → Nat → Int
  | 0, _, _ => 0
  | n + 1, k, t =>
    let t' := t * x / 2 ^ p / (if step = 1 then k else k * (k + 1))
    t + (if alt then -1 else 1) * series p x alt step n (k + step) t'

/-- 2^a for a finite a that is not integral. -/
def exp2Near (x : Dy) : Near :=
  let p := 192
  let sh := (-x.e).toNat
  let i := x.toInt .rdn
  let frac : Int := x.at x.e - i * 2 ^ sh
  let f := frac.toNat * 2 ^ p / 2 ^ sh
  let y := series p (f * ln2F / 2 ^ p) false 1 48 1 (2 ^ p)
  ⟨false, y.toNat, i - p⟩

/-- `fexp2` (R160). -/
def fexp2Lane (a : Lane) : Lane :=
  match dec32 a with
  | .nan => canonNaN32
  | .inf s => if s then 0 else a
  | .fin x =>
    let i := x.toInt .rdn
    if x.m = 0 then 0x3F800000
    else if 128 ≤ i then 0x7F800000
    else if x.lt ⟨true, 150, 0⟩ then 0
    else if (x.e ≥ 0 ∨ x.m % 2 ^ (-x.e).toNat = 0) then
      if -149 ≤ i then lane32 (fp32.round .rne ⟨false, 1, i⟩)
      else (Near.mk false (2 ^ 100) (i - 100)).pick 2 a 2 (-149)
    else let y := exp2Near x; y.pick 2 a 2 y.ulp

/-- Binary digits of log2 of a number in [1, 2), held in multiples of 2^-256: square and compare. -/
def log2Digits : Nat → Nat → Nat → Nat
  | 0, _, acc => acc
  | n + 1, x, acc =>
    let y := x * x / 2 ^ 256
    if 2 ^ 257 ≤ y then log2Digits n (y / 2) (2 * acc + 1) else log2Digits n y (2 * acc)

/-- log2 of a positive value that is no power of two: 100 digits after the point. -/
def log2Near (x : Dy) : Near :=
  let l := bitLen x.m
  let fr := log2Digits 100 (x.m * 2 ^ (256 - (l - 1))) 0
  let v : Int := (x.e + (l - 1 : Nat)) * 2 ^ 100 + fr
  ⟨decide (v < 0), v.natAbs, -100⟩

/-- `flog2` (R160): within [0.5, 2] the bound is the absolute one (log entry 9). -/
def flog2Lane (a : Lane) : Lane :=
  match dec32 a with
  | .nan => canonNaN32
  | .inf s => if s then canonNaN32 else a
  | .fin x =>
    if x.m = 0 then 0xFF800000
    else if x.neg then canonNaN32
    else
      let l := bitLen x.m
      if x.m = 2 ^ (l - 1) then
        let n : Int := x.e + (l - 1 : Nat)
        lane32 (fp32.round .rne (.ofInt n 0))
      else
        let y := log2Near x
        if !x.lt ⟨false, 1, -1⟩ && !(Dy.mk false 2 0).lt x then y.pick 3 a 1 (-22) else y.pick 3 a 2 y.ulp

/-- sin(πr) and cos(πr) for r = m × 2^e in [0, 1/4], in multiples of 2^-p with p growing as r shrinks. -/
def sinNear (m : Nat) (e : Int) (neg : Bool) : Near :=
  let p := 192 + (-e).toNat
  let t := (m * piF * 2 ^ p / 2 ^ (-e).toNat) / 2 ^ 192
  ⟨neg, (series p (t * t / 2 ^ p) true 2 24 2 t).toNat, -(p : Int)⟩
def cosNear (m : Nat) (e : Int) (neg : Bool) : Near :=
  let p := 192 + (-e).toNat
  let t := (m * piF * 2 ^ p / 2 ^ (-e).toNat) / 2 ^ 192
  ⟨neg, (series p (t * t / 2 ^ p) true 2 24 1 (2 ^ p)).toNat, -(p : Int)⟩

/-- sin(π u / 2^k) for 0 ≤ u < 2^(k+1), where u is no multiple of 2^k: the angle is folded into the first eighth. -/
def sinTurn (u k : Nat) : Near :=
  let neg := decide (2 ^ k ≤ u)
  let u := u % 2 ^ k
  let u := if 2 ^ k < 2 * u then 2 ^ k - u else u
  if 2 ^ k < 4 * u then cosNear (2 ^ k - 2 * u) (-(k + 1 : Int)) neg else sinNear u (-(k : Int)) neg

/-- `fsinpi` and `fcospi` (R160) of a value with a fraction: `q` is added in half units first. -/
def turnNear (x : Dy) (half : Bool) : Near :=
  let k := (-x.e).toNat + 1
  let u := 2 * x.m + (if half then 2 ^ (k - 1) else 0)
  sinTurn (u % 2 ^ (k + 1)) k

def fsinpiLane (a : Lane) : Lane :=
  match dec32 a with
  | .nan => canonNaN32
  | .inf _ => canonNaN32
  | .fin x =>
    if x.m = 0 then a
    else if 0 ≤ x.e ∨ x.m % 2 ^ (-x.e).toNat = 0 then lane32 (fp32.withSign x.neg 0)
    else
      let y := turnNear x false
      let y := if x.neg then { y with neg := !y.neg } else y
      y.pick 4 a 2 y.ulp

def fcospiLane (a : Lane) : Lane :=
  match dec32 a with
  | .nan => canonNaN32
  | .inf _ => canonNaN32
  | .fin x =>
    if x.m = 0 then 0x3F800000
    else if 0 ≤ x.e ∨ x.m % 2 ^ (-x.e).toNat = 0 then
      if (x.toInt .rtz) % 2 = 0 then 0x3F800000 else 0xBF800000
    else if (2 * x.m) % 2 ^ (-x.e).toNat = 0 then 0
    else let y := turnNear x true; y.pick 5 a 2 y.ulp

/-! ## Packed halves (R161) and conversions (R163 to R167) -/

def halfFmt : Half → Fmt
  | .bf16 => Machine.bf16
  | .f16 => Machine.fp16

/-- Both halves of lanes, each in its own format (R161). -/
def halves (f : Nat → Nat → Nat → Nat) (a b c : Lane) : Lane :=
  let lo := f (a.toNat % 65536) (b.toNat % 65536) (c.toNat % 65536)
  let hi := f (a.toNat / 65536) (b.toNat / 65536) (c.toNat / 65536)
  lane32 (hi * 65536 + lo)

def hadd2 (h : Half) (a b : Lane) : Lane :=
  let f := halfFmt h
  halves (fun x y _ => f.addFp .rne (f.decode x) (f.decode y)) a b 0
def hmul2 (h : Half) (a b : Lane) : Lane :=
  let f := halfFmt h
  halves (fun x y _ => f.roundFp .rne (mulFp (f.decode x) (f.decode y))) a b 0
def hfma2 (h : Half) (a b c : Lane) : Lane :=
  let f := halfFmt h
  halves (fun x y z => f.addFp .rne (mulFp (f.decode x) (f.decode y)) (f.decode z)) a b c

/-- FP32 to a 32-bit integer in a range, with the fixed code for everything else (R163). -/
def cvtInt (r : Rnd) (lo hi : Int) (bad : Lane) (a : Lane) : Lane :=
  match dec32 a with
  | .fin x => let i := x.toInt r; if lo ≤ i ∧ i ≤ hi then BitVec.ofInt 32 i else bad
  | _ => bad
def cvtI32 (r : Rnd) (a : Lane) : Lane := cvtInt r (-2147483648) 2147483647 0x80000000 a
def cvtN32 (r : Rnd) (a : Lane) : Lane := cvtInt r 0 4294967295 0xFFFFFFFF a
/-- Integer to FP32 (R164). -/
def cvtFromInt (r : Rnd) (i : Int) : Lane := lane32 (fp32.round r (.ofInt i 0))

/-- FP32 to a format: the mode, the fate of an overflow and of an infinity, NaN's code (R55, R67, R165, R166). -/
def cvtTo (f : Fmt) (r : Rnd) (o i : Over) (x : Fp) : Nat :=
  match x with
  | .nan => f.nan
  | .inf s => f.over s i
  | .fin x => f.roundTo r x false o

def cvt16 (f : Fmt) (tz : Bool) (a : Lane) : Lane :=
  lane32 (cvtTo f (if tz then .rtz else .rne) (if tz then .max else .inf) .inf (dec32 a))
def cvtE4m3 (nan : Bool) (a : Lane) : Lane :=
  let o : Over := if nan then .nan else .max
  lane32 (cvtTo e4m3 .rne o o (dec32 a))
def cvtE5m2 (inf : Bool) (a : Lane) : Lane :=
  let o : Over := if inf then .inf else .max
  lane32 (cvtTo e5m2 .rne o o (dec32 a))
def cvtE2m1 (a : Lane) : Lane := lane32 (cvtTo e2m1 .rne .max .max (dec32 a))

/-- A narrower format to FP32, exactly (R56). -/
def cvtFrom (f : Fmt) (a : Lane) : Lane := lane32 (fp32.roundFp .rne (f.decode (a.toNat % 2 ^ (f.sign + 1))))

/-! ## Sums and scales (R58, R172) -/

/-- The exact sum of values, rounded once, with the special cases of R172. -/
def sumFp (l : List Fp) : Lane :=
  let pos := l.contains (.inf false)
  let neg := l.contains (.inf true)
  if l.contains .nan || (pos && neg) then canonNaN32
  else if pos then 0x7F800000
  else if neg then 0xFF800000
  else
    let xs := l.filterMap fun x => match x with | .fin y => some y | _ => none
    let z := Dy.sum xs
    if z.m = 0 then (if !xs.isEmpty && xs.all fun x => x.m == 0 && x.neg then 0x80000000 else 0)
    else lane32 (fp32.round .rne z)

/-- emax of a format code of Table 2-8 (R58). -/
def scaleEmax (f : Nat) : Int := if f = 2 then 8 else if f = 3 then 15 else 2

/-- floor(log2 |x|) of a value that is not zero. -/
def Dy.log2 (x : Dy) : Int := x.e + (bitLen x.m - 1 : Nat)

/-- The scale of a block (R58). -/
def blockScale (f : Nat) (xs : List Lane) : Nat :=
  let vs := xs.map dec32
  if vs.any fun x => match x with | .fin _ => false | _ => true then 0xFF
  else
    let es := vs.filterMap fun x => match x with | .fin y => if y.m = 0 then none else some y.log2 | _ => none
    match es with
    | [] => 0
    | e :: t =>
      let top := t.foldl max e - scaleEmax f
      (max (-127) (min 127 top) + 127).toNat

end Sys2Proof.Machine
end

