-- ==== Sys2Proof/Machine/Flags.lean ====
section
/-!
DEFINITION. The results that stand for flags on this machine: scalar compares (R108), lane compares into masks (R149,
R153, R158), and the tests of mask branches (R113).
-/

namespace Sys2Proof.Machine

/-- A compare's result in a scalar register (R108). -/
def boolWord (b : Bool) : Word := if b then 1 else 0

/-- The lane integer relations (R153, R190). -/
def icmpHolds (cc : ICmp) (a b : Lane) : Bool :=
  match cc with
  | .eq => a == b
  | .ne => a != b
  | .ltI => a.slt b
  | .ltN => a.ult b
  | .leI => a.sle b
  | .leN => a.ule b
  | .gtI => b.slt a
  | .gtN => b.ult a
  | .geI => b.sle a
  | .geN => b.ule a

/-- Numerical order of values that are no NaN; −0 equals +0 (R158). -/
def fpLt (x y : Fp) : Bool :=
  match x, y with
  | .fin a, .fin b => a.lt b
  | x, y => fpBelow x y

/-- The FP32 relations (Table 5-4). -/
def fcmpHolds (cc : FCmp) (a b : Lane) : Bool :=
  let x := dec32 a
  let y := dec32 b
  let un := x == .nan || y == .nan
  let lt := fpLt x y
  let gt := fpLt y x
  match cc with
  | .eq => !un && !lt && !gt
  | .ne => un || lt || gt
  | .lt => !un && lt
  | .le => !un && !gt
  | .gt => !un && gt
  | .ge => !un && !lt
  | .ord => !un
  | .uno => un

/-- The tests of `bmany bmall bmnone` on a strand's lanes: `c` is mC AND m0, `e` is m0 (R113). -/
def anySet (c _e : BitVec 4) : Bool := c != 0
def allSet (c e : BitVec 4) : Bool := c == e
def noneSet (c _e : BitVec 4) : Bool := c == 0

/-- The four bits of a mask that belong to a strand (R13). -/
def strandBits (m : LaneMask) (t : Nat) : BitVec 4 := m.extractLsb' (4 * t) 4

end Sys2Proof.Machine
end

