-- ==== Sys2Proof/Machine/Operands.lean ====
section
/-!
DEFINITION. The operand forms: immediates (R85, R109), guards and active lanes (R10, R80), the window check (R14), lane
sources (R25, R147), lane addresses (R175), and the runs of registers that class D names (R191).
-/

namespace Sys2Proof.Machine

/-- A signed immediate. -/
def sx {n : Nat} (i : BitVec n) : Word := i.signExtend 64
/-- An unsigned immediate. -/
def zx {n : Nat} (i : BitVec n) : Word := i.zeroExtend 64

/-- The active lanes of an instruction (R10): the gang's, where `m0` and the guard allow. -/
def Issue.active (k : Issue) (g : Guard) : LaneMask :=
  let m := k.wave.mask (0#1 ++ g.mask)
  k.lanes &&& k.wave.mask 0 &&& (if g.inv then ~~~m else m)

/-- The lanes of a mask in rising order. -/
def lanesOf (m : LaneMask) : List Nat := (List.range 32).filter (m.getLsbD ·)

/-- A lane operand's registers: one, a pair or a quad (R13, R81). -/
def vregs (v : VReg) (n : Nat) : List Nat := (List.range n).map (v.toNat + ·)

/-- Every named register lies in the window (R14). -/
def Issue.inWindow (k : Issue) (regs : List Nat) : Bool := regs.all (· < k.wave.v.length)

/-- Registers in which a load of `w` leaves its value (R180). -/
def loadRegs : LdW → Nat
  | .w64 => 2
  | .w128 => 4
  | _ => 1

/-- Bytes per lane of a load (Table 6-2). -/
def loadBytes : LdW → Nat
  | .i8 => 1
  | .n8 => 1
  | .i16 => 2
  | .n16 => 2
  | .w32 => 4
  | .w64 => 8
  | .w128 => 16

/-- Bytes per lane of a store, and its registers (Table 6-2). -/
def storeBytes : StW → Nat
  | .b8 => 1
  | .b16 => 2
  | .b32 => 4
  | .b64 => 8
  | .b128 => 16
def storeRegs : StW → Nat
  | .b64 => 2
  | .b128 => 4
  | _ => 1

/-- The register values that a load's bytes give a lane, lowest register first (Table 6-2). -/
def loadLanes (w : LdW) (bs : List Byte) : List Lane :=
  let n := leNat bs
  match w with
  | .i8 => [(BitVec.ofNat 8 n).signExtend 32]
  | .i16 => [(BitVec.ofNat 16 n).signExtend 32]
  | .n8 => [lane32 n]
  | .n16 => [lane32 n]
  | .w32 => [lane32 n]
  | .w64 => [lane32 n, lane32 (n / 2 ^ 32)]
  | .w128 => [lane32 n, lane32 (n / 2 ^ 32), lane32 (n / 2 ^ 64), lane32 (n / 2 ^ 96)]

/-- What an outstanding operation will leave in a lane of a register: registers and values by lane, for lanes that have
been performed (R25). DESIGN CHOICE (log entry 35): for a load that another lane's failure will keep from writing (R178),
the bytes it has fetched stand as the new value until it ends. -/
def MemOp.newLane (o : MemOp) (v l : Nat) : Option Lane :=
  match o.lanes.find? (·.lane == l) with
  | some ⟨_, _, _, _, _, .done _ bs⟩ =>
    match o.kind with
    | .load w d => if d.toNat ≤ v then (loadLanes w bs)[v - d.toNat]? else none
    | .atom op d =>
      if op = .cas then (if v = d.toNat then some (lane32 (leNat bs)) else none)
      else if d.toNat ≤ v then (([lane32 (leNat bs)] ++ (if op = .addI64 then [lane32 (leNat bs / 2 ^ 32)] else []))[v - d.toNat]?)
      else none
    | .fill d _ _ => if v = d.toNat then some (lane32 (leNat bs)) else none
    | _ => none
  | _ => none

/-- The value that an outstanding writer of the wave has for a lane of a register (R25). -/
def Dev.newLane (d : Dev) (w v l : Nat) : Option Lane :=
  match (d.memops.filter (·.wave == w)).findSome? fun o => o.newLane v l with
  | some x => some x
  | none => (d.jobs.filter (·.wave == w)).findSome? fun j =>
      match j.kind with
      | .fx (.ftevl _ x _) (some r) => if x.toNat = v then (r.find? (·.1 == l)).map (·.2) else none
      | _ => none

/-- Some named register has an outstanding writer of which a lane has been performed. -/
def Dev.unsettled (d : Dev) (k : Issue) (regs : List Nat) : Bool :=
  regs.any fun v => (List.range 32).any fun l => (d.newLane k.wave.id v l).isSome

/-- What a lane instruction sees: its issuer, its active lanes, and its lane sources. -/
structure LaneView where
  k   : Issue
  act : LaneMask
  rd  : Nat → Nat → Lane

/-- A lane source (R25, R147): the register's value; while a writer is outstanding, in each lane the old or the new
value, whichever the free values say. DESIGN CHOICE (log entry 35): operand fields of one instruction that name the same
register see the same value. -/
def Dev.source (d : Dev) (k : Issue) (v l : Nat) : Lane :=
  match d.newLane k.wave.id v l with
  | none => k.wave.lane (BitVec.ofNat 8 v) l
  | some x => if (Config.freeBits (8192 * d.free + 32 * v + l)).getLsbD 0 then x else k.wave.lane (BitVec.ofNat 8 v) l

/-- A lane instruction of class B or of the immediate forms: the window check, then its effect on the wave, then the
next instruction (R14, R146, R190). `regs` are the lane registers it names. -/
def laneInstr (s : State) (len : Nat) (regs : List Nat) (g : Guard) (f : LaneView → Wave → Wave) :
    Host.Outcome State Fault Refusal :=
  issue s fun k d =>
    if !k.inWindow regs then d.trap k cRegrange
    else
      let view : LaneView := ⟨k, k.active g, d.source k⟩
      let d : Dev := if d.unsettled k regs then { d with free := d.free + 1 } else d
      (d.onWave k (f view)).advance k len

/-- A 64-bit lane operand (R6). -/
def LaneView.rd64 (x : LaneView) (v : VReg) (l : Nat) : Word := x.rd (v.toNat + 1) l ++ x.rd v.toNat l
def LaneView.rd1 (x : LaneView) (v : VReg) (l : Nat) : Lane := x.rd v.toNat l

/-- vD_l := f(a_l). -/
def lane1 (s : State) (g : Guard) (d a : VReg) (f : Lane → Lane) : Host.Outcome State Fault Refusal :=
  laneInstr s 6 [d.toNat, a.toNat] g fun x w => w.setLanes x.act d.toNat fun l => f (x.rd1 a l)
/-- vD_l := f(a_l, b_l). -/
def lane2 (s : State) (g : Guard) (d a b : VReg) (f : Lane → Lane → Lane) : Host.Outcome State Fault Refusal :=
  laneInstr s 6 [d.toNat, a.toNat, b.toNat] g fun x w => w.setLanes x.act d.toNat fun l => f (x.rd1 a l) (x.rd1 b l)
/-- vD_l := f(a_l, b_l, c_l). -/
def lane3 (s : State) (g : Guard) (d a b c : VReg) (f : Lane → Lane → Lane → Lane) :
    Host.Outcome State Fault Refusal :=
  laneInstr s 6 [d.toNat, a.toNat, b.toNat, c.toNat] g fun x w =>
    w.setLanes x.act d.toNat fun l => f (x.rd1 a l) (x.rd1 b l) (x.rd1 c l)
/-- mD[l] := p(a_l, b_l) in the active lanes, every other bit unchanged (R149). -/
def laneCmp (s : State) (len : Nat) (regs : List Nat) (g : Guard) (d : MReg) (p : LaneView → Nat → Bool) :
    Host.Outcome State Fault Refusal :=
  laneInstr s len regs g fun x w =>
    w.setMask x.act d (BitVec.ofNat 32 ((List.range 32).foldl (fun n l => if p x l then n + 2 ^ l else n) 0))
/-- A 64-bit result goes into a pair (R6, R13). -/
def Wave.setPair (w : Wave) (act : LaneMask) (d : VReg) (f : Nat → Word) : Wave :=
  (w.setLanes act d.toNat fun l => (f l).extractLsb' 0 32).setLanes act (d.toNat + 1) fun l => (f l).extractLsb' 32 32
/-- vD_l := f(a_l) with an immediate (R190). -/
def laneImm (s : State) (g : Guard) (d a : VReg) (f : Lane → Lane) : Host.Outcome State Fault Refusal :=
  laneInstr s 8 [d.toNat, a.toNat] g fun x w => w.setLanes x.act d.toNat fun l => f (x.rd1 a l)

/-- The lane offset's scale (R77). -/
def kscScale (c : BitVec 3) : Nat := 2 ^ c.toNat

/-- The address or offset of a lane in the memory layout (R77, R175); `withBase` is false for the team forms (R181). -/
def Dev.laneAddr (d : Dev) (k : Issue) (m : Addr) (withBase : Bool) (l : Nat) : Word :=
  (if withBase then (k.strand (l / 4)).rd m.sb else 0)
    + (if m.ksc = 7 then 0 else BitVec.ofNat 64 ((d.source k m.va.toNat l).toNat * kscScale m.ksc)) + sx m.off

/-- The lane register that an address names (none for KSC 7). -/
def addrRegs (m : Addr) : List Nat := if m.ksc = 7 then [] else [m.va.toNat]

end Sys2Proof.Machine
end

