-- ==== Sys2Proof/Machine/Servers.lean ====
section
/-!
DEFINITION. Servers and their arbiters (10: R282 to R286), readiness of waves and gangs (R20, R26, R286), and the choice of
the gang that issues next.
-/

namespace Sys2Proof.Machine

/-! ## Budgets and deadlines (R284) -/

def Server.bud (s : Server) (i : Nat) : Nat := (s.b[i]?).getD 0
def Server.dl (s : Server) (i : Nat) : Nat := (s.d[i]?).getD 0
def Server.quota (s : Server) (i : Nat) : Nat := (s.args.q[i]?).getD 1
def Server.period (s : Server) (i : Nat) : Nat := (s.args.t[i]?).getD 1
def Server.isPending (s : Server) (i : Nat) : Bool := (s.pending[i]?).getD false

/-- Work of a server becomes pending (R284). -/
def Server.wake (s : Server) (i now : Nat) : Server :=
  if s.isPending i then s
  else if s.dl i ≤ now then
    { s with pending := s.pending.set i true, b := s.b.set i (s.quota i), d := s.d.set i (now + s.period i) }
  else { s with pending := s.pending.set i true }

/-- No work of a server is pending. -/
def Server.rest (s : Server) (i : Nat) : Server := { s with pending := s.pending.set i false }

/-- A charge of `u` units: a budget that falls to zero or below is paid from the periods that follow (R284). -/
def Server.charge (s : Server) (i u : Nat) : Server :=
  if u < s.bud i then { s with b := s.b.set i (s.bud i - u) }
  else
    let n := (u - s.bud i) / s.quota i + 1
    { s with b := s.b.set i (s.bud i + n * s.quota i - u), d := s.d.set i (s.dl i + n * s.period i) }

/-- The remaining budget is given up (R285). -/
def Server.renew (s : Server) (i : Nat) : Server :=
  { s with b := s.b.set i (s.quota i), d := s.d.set i (s.dl i + s.period i) }

/-- A server is eligible while work is pending and its period has begun (R284). -/
def Server.eligible (s : Server) (i now : Nat) : Bool := s.isPending i && decide (s.dl i ≤ now + s.period i)

/-- A quantum's charge fits in the budget, or the whole budget is there (R284, R285). -/
def Server.fits (s : Server) (i u : Nat) : Bool := decide (u ≤ s.bud i) || s.bud i == s.quota i

def Dev.server? (d : Dev) (ctx : Nat) (p : Point) : Option Server :=
  d.servers.find? fun s => s.args.ctx == ctx && s.args.point == p
def Dev.modServer (d : Dev) (ctx : Nat) (p : Point) (f : Server → Server) : Dev :=
  { d with servers := modIf (fun s => s.args.ctx == ctx && s.args.point == p) f d.servers }

/-- A context's class at a point: its server's, or 2 (R282). -/
def Dev.classAt (d : Dev) (ctx : Nat) (p : Point) : Nat := ((d.server? ctx p).map (·.args.cls)).getD 2

/-- The server of a context at a point is charged (R284). -/
def Dev.chargeAt (d : Dev) (ctx : Nat) (p : Point) (i u : Nat) : Dev := d.modServer ctx p fun s => s.charge i u

/-- The servers of a point learn which contexts have work, and a server whose next quantum does not fit gives up its
budget (R284, R285). `wants` gives each context with work and the charge of its next quantum. -/
def Dev.syncPoint (d : Dev) (p : Point) (i : Nat) (wants : List (Nat × Nat)) : Dev :=
  let now := d.clock
  let sync (s : Server) : Server :=
    match wants.find? (·.1 == s.args.ctx) with
    | none => s.rest i
    | some w =>
      let s := s.wake i now
      if s.eligible i now && !s.fits i w.2 then s.renew i else s
  { d with servers := modIf (·.args.point == p) sync d.servers }

/-- The servers of a point learn which contexts have work, as work comes and goes (R284). -/
def Dev.notePending (d : Dev) (p : Point) (i : Nat) (ctxs : List Nat) : Dev :=
  let now := d.clock
  { d with servers := modIf (·.args.point == p) (fun s => if ctxs.contains s.args.ctx then s.wake i now else s.rest i) d.servers }

/-- Of contexts with servers at a point, the one with the earliest deadline, ties in cyclic order from ROT (R285). -/
def Dev.earliest (d : Dev) (p : Point) (i : Nat) (ctxs : List Nat) : Option Nat :=
  leastBy (fun c => (((d.server? c p).map (·.dl i)).getD 0) * 256 + (c + 256 - d.rot) % 256) ctxs

/-- The choice of R285 at a point: the earliest deadline among eligible servers; else the next class-2 context after
`last`. -/
def Dev.choose (d : Dev) (p : Point) (i : Nat) (wants : List (Nat × Nat)) (last : Nat) : Option Nat :=
  let ok (w : Nat × Nat) : Bool := match d.server? w.1 p with | some s => s.eligible i d.clock && s.fits i w.2 | none => false
  match d.earliest p i ((wants.filter ok).map (·.1)) with
  | some c => some c
  | none =>
    (leastBy (fun w => (w.1 + 255 - last) % 256) (wants.filter fun w => (d.server? w.1 p).isNone)).map (·.1)

/-- A class-2 turn is remembered (R285). -/
def Dev.noteTurn (d : Dev) (p : Point) (ctx : Nat) : Dev :=
  if (d.server? ctx p).isSome then d
  else { d with turns := upsert (·.1 == p) (p, ctx) (fun _ => (p, ctx)) d.turns }

def Dev.lastTurn (d : Dev) (p : Point) : Nat := ((d.turns.find? (·.1 == p)).map (·.2)).getD 0

/-! ## Readiness (R26, R115, R130, R132, R138, R139, R141, R286) -/

/-- The gangs of a wave, by their lowest strand (R12, R20). -/
def Wave.gangs (w : Wave) : List StrandMask :=
  w.strands.zipIdx.filterMap fun (s, t) => if !s.exited && lowStrand s.gang == t then some s.gang else none

def Wave.strandsOf (w : Wave) (g : StrandMask) : List Strand :=
  w.strands.zipIdx.filterMap fun (s, t) => if inGang g t then some s else none

/-- A byte barrier's fields at a local address (Table 4-2): TARGET, LANDED, LTS. -/
def Dev.byteBar (d : Dev) (core a : Nat) : Nat × Nat × Nat :=
  let (bs, _) := d.readLoc core .scratch a 16
  (field bs 0 4, field bs 4 4, field bs 8 8)

/-- The set tags of a block, as `%arrived` shows them (R32). -/
def Block.arrived (b : Block) : Word := b.tags.foldl (fun m t => m ||| (1#64 <<< t.tag)) 0

/-- The condition of a tag wait (R132). -/
def tagsMet (all : Bool) (arrived mask : Word) : Bool :=
  if all then arrived &&& mask == mask else mask == 0 || arrived &&& mask != 0

def Pending.ctx : Pending → Nat
  | .spawn _ c _ _ _ _ _ _ _ _ _ _ => c
  | .resident _ c _ _ => c
  | .resume _ c _ _ _ _ _ _ _ _ => c
def Pending.isSpawn : Pending → Bool
  | .spawn .. => true
  | _ => false

/-- Every event of a wave's operations has its time (R270). -/
def Dev.clockStands (d : Dev) (w : Nat) : Bool :=
  d.memops.all fun o => o.wave != w || o.kind == .stamp ||
    o.lanes.all fun l => match l.st with | .done .. => true | .failed _ => true | _ => false

/-- Collectives queued on a context's queue (R225). -/
def Dev.queueLength (d : Dev) (ctx q : Nat) : Nat := (d.colls.filter fun c => c.ctx == ctx && c.q == q).length

/-- What an instruction of a wave lacked is there. -/
def Dev.hasRoom (d : Dev) (w ctx : Nat) : Room → Bool
  | .clock => d.clockStands w
  | .ld => decide (d.ld w < 62)
  | .st => decide (d.st w < 62)
  | .cp => decide (d.cp w < 30) && !d.checkerFull ctx
  | .tl => decide (d.tl w < 14) && !d.checkerFull ctx
  | .fx => decide (d.fx w < 6) && !d.checkerFull ctx
  | .spawns => decide ((d.pending.filter fun p => p.isSpawn && p.ctx == ctx).length < 4096)
  | .launches => decide ((d.launches.filter (·.ctx == ctx)).length < 4096)
  | .triggers => decide ((d.triggers.filter (·.ctx == ctx)).length < 64)
  | .reply => !d.remotes.any fun r => r.job.any (·.1 == w)
  | .posts q => decide (d.queueLength ctx q < 64) && !d.checkerFull ctx

/-- No line of another package that the instruction at an address needs is on its way. -/
def Dev.codeHere (d : Dev) (core ctx va : Nat) : Bool :=
  match d.ctx? ctx with
  | some c => let l := d.codeWanted core c va; l.isEmpty || l.any fun x => !d.codeAsked x.1
  | none => true

/-- A wait other than `mwait`, `regclm`, `susp` and a reply, which end by steps of their own, may end. -/
def Dev.waitOver (d : Dev) (w : Wave) (b : Block) : WaitFor → Bool
  | .counters l s c t f => decide (d.ld w.id ≤ l ∧ d.st w.id ≤ s ∧ d.cp w.id ≤ c ∧ d.tl w.id ≤ t ∧ d.fx w.id ≤ f)
  | .regrel => decide (d.ld w.id = 0 ∧ d.fx w.id = 0)
  | .regang m =>
    (List.range 8).all fun t =>
      match w.strands[t]? with
      | some s => !inGang m t || s.exited || (s.waiting.map (·.what)) == some (.regang m)
      | none => true
  | .tags all m => tagsMet all b.arrived m
  | .byteBar a => let x := d.byteBar b.core a; x.1 == x.2.1
  | .numBar n => w.arrivals.any fun a => a.bar == n && a.released.isSome
  | .yield noted => noted.isEmpty
  | .kindle k => let e := d.engine b.core k; e.holds w.id || (!e.asked w.id && decide (e.queue.length < 16))
  | .full r => d.hasRoom w.id b.ctx r
  | .cycle now => decide (now < d.clock)
  | .code va => d.codeHere b.core b.ctx va
  | _ => false

/-- A gang may issue: it waits for nothing, or its wait may end. An `mwait` ends for the gang as soon as it ends for one
strand (R130). -/
def Dev.gangReady (d : Dev) (w : Wave) (b : Block) (g : StrandMask) : Bool :=
  let ss := w.strandsOf g
  let free (s : Strand) : Bool := match s.waiting with | none => true | some x => d.waitOver w b x.what
  let hit (s : Strand) : Bool :=
    match s.waiting with
    | some ⟨_, .mwait _⟩ => match s.monitor with | some m => m.hit.isSome | none => true
    | _ => false
  !ss.isEmpty && (ss.all free || ss.any hit)

/-- A forced save has stopped the block's waves (R314). -/
def Block.stopped (b : Block) : Bool :=
  match b.susp with
  | some .forced => true
  | some (.sealing x) => x.forced
  | _ => false

/-- A wave may issue at all: it holds a port, no handler entry or deferred report is due, and neither a debugger, a forced
save, the end of its context nor the parking of a resident program holds it (R131, R178, R306, R311, R314, R345, R363). -/
def Dev.waveMayIssue (d : Dev) (w : Wave) (b : Block) : Bool :=
  w.port.isSome && !w.halted && !w.entry && !b.stopped && !(d.reports.any fun o => d.reportWave o == w.id)
    && (match d.ctx? b.ctx with | some c => !c.stopped && !(b.resident && c.preempt.isSome) | none => false)

/-- What stands at an issue port: wave, block and gang of each gang that is ready. -/
def Dev.readyAt (d : Dev) (core port : Nat) : List (Wave × Block × StrandMask) :=
  d.waves.flatMap fun w =>
    if w.port ≠ some port then []
    else
      match d.block? w.block with
      | none => []
      | some b =>
        if b.core ≠ core || !d.waveMayIssue w b then []
        else (w.gangs.filter (d.gangReady w b)).map fun g => (w, b, g)

/-- Issue cycles of the instruction at a PC: PASS for class B, else 1 (Table 10-1, R286). -/
def Dev.issueCharge (d : Dev) (b : Block) (pc : Word) : Nat :=
  let first : Option Byte :=
    match d.icache.find? fun e => e.core == b.core && e.ctx == b.ctx && e.va == pc.toNat with
    | some e => match e.word with | .word bs => bs.head? | .fault .. => none
    | none => match d.ctx? b.ctx with | some c => (d.fetchBytes b.core c pc.toNat 0 1).1.head? | none => none
  match first with
  | some x => if Class.ofByte x = some .b then (d.core b.core).pass else 1
  | none => 1

/-- What the selection of a gang charges: an instruction is charged when it is first selected, once its code is at hand. One
that has waited has been charged, and its wait charges nothing (R282, R286; DEDUCED, log entry 114). -/
def Dev.selectCharge (d : Dev) (w : Wave) (b : Block) (g : StrandMask) : Nat :=
  match (w.strandsOf g).head? with
  | none => 1
  | some s =>
    let fresh := match s.waiting with | none => true | some ⟨_, .code _⟩ => true | some _ => false
    let held := d.icache.any fun e => e.core == b.core && e.ctx == b.ctx && e.va == s.pc.toNat
    let coming := match d.ctx? b.ctx with | some c => !(d.codeWanted b.core c s.pc.toNat).isEmpty | none => false
    if fresh && (held || !coming) then d.issueCharge b s.pc else 0

/-- Contexts with ready gangs at a port, each with the charge of an instruction. -/
def portWants (l : List (Wave × Block × StrandMask)) : List (Nat × Nat) := (l.map fun x => (x.2.1.ctx, 1)).eraseDups

/-- The other gangs that a `yield` notes at its port (R141): ready, and choosable by the port's arbiter. -/
def Dev.noteGangs (d : Dev) (core port wave : Nat) (g : StrandMask) : List GangRef :=
  let l := d.readyAt core port
  let d := d.syncPoint (.port core) port (portWants l)
  (l.filter fun x =>
    !(x.1.id == wave && x.2.2 == g) &&
      (match d.server? x.2.1.ctx (.port core) with
        | some s => s.eligible port d.clock && s.fits port 1
        | none => true)).map fun x => ⟨x.1.id, x.2.2⟩

/-- Noted gangs that have stopped being ready or choosable are waited for no longer (R141). -/
def Dev.pruneYields (d : Dev) : Dev :=
  let strand (w : Wave) (c : Nat) (s : Strand) : Strand :=
    match s.waiting, w.port with
    | some ⟨t, .yield l⟩, some p =>
      let still := d.noteGangs c p w.id s.gang
      { s with waiting := some ⟨t, .yield (l.filter still.contains)⟩ }
    | _, _ => s
  { d with waves := d.waves.map fun w =>
      if w.strands.any (fun s => match s.waiting with | some ⟨_, .yield _⟩ => true | _ => false) then
        match d.block? w.block with
        | some b => { w with strands := w.strands.map (strand w b.core) }
        | none => w
      else w }

/-- A gang that is selected to issue is waited for no longer (R141). -/
def Dev.dropNoted (d : Dev) (g : GangRef) : Dev :=
  { d with waves := d.waves.map fun w => { w with strands := w.strands.map fun s =>
      match s.waiting with
      | some ⟨t, .yield l⟩ => { s with waiting := some ⟨t, .yield (l.filter (· != g))⟩ }
      | _ => s } }

/-- The gang of a wave whose turn it is (R20): rotation by lowest strand, after the gang that issued last. -/
def nextGang (last : Option Nat) (gs : List StrandMask) : Option StrandMask :=
  leastBy (fun g => match last with | some l => (lowStrand g + 7 - l) % 8 | none => lowStrand g) gs

/-- The first clock value `n` port cycles from now: a port cycle is 8 / k cycles of the clock (R44). -/
def Dev.portTill (d : Dev) (core port n : Nat) : Nat :=
  let k := max 1 (((d.core core).k[port]?).getD 8)
  (8 * (d.clock * k / 8 + n) + k - 1) / k

/-- The choice of an issue port in a port cycle (R286): server, oldest ready wave, gang. Nothing while an instruction holds
the port. -/
def Dev.selectIssue (d : Dev) (core port : Nat) : Dev :=
  if d.clock < ((d.core core).busy[port]?).getD 0 then d else
  let l := d.readyAt core port
  let d := d.syncPoint (.port core) port (portWants l)
  let last := ((d.core core).lastCtx[port]?).getD 0
  match d.choose (.port core) port (portWants l) last with
  | none => d
  | some c =>
    let mine := l.filter (·.2.1.ctx == c)
    match leastBy (fun x => x.1.order) mine with
    | none => d
    | some (w, b, _) =>
      match nextGang w.last ((mine.filter (·.1.id == w.id)).map (·.2.2)) with
      | none => d
      | some g =>
        let cycles := d.selectCharge w b g
        let d := d.chargeAt c (.port core) port cycles
        let d := d.modCore core fun x => { x with busy := x.busy.set port (d.portTill core port cycles) }
        let d := if (d.server? c (.port core)).isNone
          then d.modCore core fun x => { x with lastCtx := x.lastCtx.set port c } else d
        let d := d.dropNoted ⟨w.id, g⟩
        { d.modWave w.id (fun w => { w with last := some (lowStrand g) }) with latch := some ⟨w.id, g⟩ }

/-- ISSUE_SELECT (R286): nothing while a selected gang has not issued. -/
def execIssueSelect (core port : Nat) (s : State) : Host.Outcome State Fault Refusal :=
  onDev s fun d => if d.latch.isSome then d else d.pruneYields.selectIssue core port

end Sys2Proof.Machine
end

