-- ==== Sys2Proof/Machine/Control.lean ====
section
/-!
DEFINITION. Control transfer, waits, special registers, causes, register claims, masks and the class E controls
(04: R111 to R126, R140 to R145).
-/

namespace Sys2Proof.Machine

/-! ## Shared operations -/

/-- An instruction that every strand passes, with no effect but what `f` does. -/
def andNext (s : State) (len : Nat) (f : Issue → Dev → Dev) : Host.Outcome State Fault Refusal :=
  issue s fun k d => (f k d).advance k len

/-- Some check raises a cause; otherwise the effect (R83). -/
def guarded (s : State) (cause : Issue → Dev → Option Nat) (f : Issue → Dev → Dev) :
    Host.Outcome State Fault Refusal :=
  issue s fun k d => match cause k d with | some c => d.trap k c | none => f k d

/-- The gang waits, each strand for its own condition. -/
def Dev.stallEach (d : Dev) (k : Issue) (what : Nat → WaitFor) : Dev :=
  let now := d.clock
  d.onGang k fun t s =>
    { s with waiting := some ⟨match s.waiting with | some x => if x.what.isFull then now else x.since | none => now, what t⟩ }

/-- The wave's clock may be read: every event of its earlier instructions has its time (R270). -/
def Dev.settled (d : Dev) (k : Issue) : Bool :=
  d.clockStands k.wave.id

/-- An effect that uses the wave's clock waits until the clock stands (R270; DEDUCED, log entry 14). -/
def Dev.whenSettled (d : Dev) (k : Issue) (f : Dev → Dev) : Dev :=
  if d.settled k then f d else d.stall k (.full .clock)

/-- The strands of a gang part by their next PCs (R18); `link` writes `s63` (R112). A target outside the address space
raises FETCH at the branch, and nothing is written (R73, R111). -/
def Dev.transfer (d : Dev) (k : Issue) (target : Nat → Option Int) (link : Bool) : Dev :=
  let goal (t : Nat) : Int := (target t).getD (k.pc.toNat + 4)
  if k.strands.any fun t => decide (goal t < 0 ∨ (2 : Int) ^ 56 ≤ goal t) then d.trap k cFetch
  else
    let next (t : Nat) : Word := match target t with | some x => BitVec.ofInt 64 x | none => k.pc + 4
    let mates (t : Nat) : StrandMask :=
      k.strands.foldl (fun m u => if next u = next t then m ||| (1#8 <<< u) else m) 0
    d.onGang k fun t s =>
      let s := if link then s.wr 63 (k.pc + 4) else s
      { s with pc := next t, gang := mates t, waiting := none }

/-- The target of a J or L form: PC plus a signed offset (R85). -/
def Issue.rel {n : Nat} (k : Issue) (o : BitVec n) : Int := (k.pc.toNat : Int) + o.toInt

/-- A conditional direct branch. -/
def branch {n : Nat} (s : State) (o : BitVec n) (taken : Issue → Nat → Bool) : Host.Outcome State Fault Refusal :=
  issue s fun k d => d.transfer k (fun t => if taken k t then some (k.rel o) else none) false

/-- A branch on a strand's four bits e of `m0` and c of a mask register and e (R113). -/
def maskBranch (s : State) (m : MReg) (o : BitVec 20) (p : BitVec 4 → BitVec 4 → Bool) :
    Host.Outcome State Fault Refusal :=
  branch s o fun k t =>
    let e := strandBits (k.wave.mask 0) t
    p (strandBits (k.wave.mask m) t &&& e) e

/-! ## Control transfer (R111 to R114) -/

/-- `br`: always taken (R112). -/
def execBr (o : BitVec 20) (s : State) : Host.Outcome State Fault Refusal := branch s o fun _ _ => true
/-- `call`: `s63` takes the address of the byte after it (R112). -/
def execCall (o : BitVec 20) (s : State) : Host.Outcome State Fault Refusal :=
  issue s fun k d => d.transfer k (fun _ => some (k.rel o)) true
/-- `bz`: taken when sD = 0 (R112). -/
def execBz (d : SReg) (o : BitVec 18) (s : State) : Host.Outcome State Fault Refusal :=
  branch s o fun k t => (k.strand t).rd d == 0
/-- `bnz`: taken when sD ≠ 0 (R112). -/
def execBnz (d : SReg) (o : BitVec 18) (s : State) : Host.Outcome State Fault Refusal :=
  branch s o fun k t => (k.strand t).rd d != 0
/-- `bmany`: taken if c ≠ 0 (R113). -/
def execBmany (c : MReg) (o : BitVec 20) (s : State) : Host.Outcome State Fault Refusal :=
  maskBranch s c o anySet
/-- `bmall`: taken if c = e (R113). -/
def execBmall (c : MReg) (o : BitVec 20) (s : State) : Host.Outcome State Fault Refusal :=
  maskBranch s c o allSet
/-- `bmnone`: taken if c = 0 (R113). -/
def execBmnone (c : MReg) (o : BitVec 20) (s : State) : Host.Outcome State Fault Refusal :=
  maskBranch s c o noneSet
/-- `jr`: to sA[55:0] (R114). -/
def execJr (a : SReg) (s : State) : Host.Outcome State Fault Refusal :=
  issue s fun k d => d.transfer k (fun t => some (((k.strand t).rd a).toNat % 2 ^ 56)) false
/-- `ret`: to `s63`[55:0] (R114). -/
def execRet (s : State) : Host.Outcome State Fault Refusal :=
  issue s fun k d => d.transfer k (fun t => some (((k.strand t).rd 63).toNat % 2 ^ 56)) false

/-! ## Software traps and the return (R119 to R121) -/

/-- `trap`: TRAPINSN (R119). The code is in the instruction's bytes. -/
def execTrap (_code : BitVec 12) (s : State) : Host.Outcome State Fault Refusal := issue s fun k d => d.trap k cTrapinsn

/-- `brk`: BREAK (R120), or the wave halts for a debugger when DBGCTL.BRKHALT is set (R363). -/
def execBrk (_code : BitVec 8) (s : State) : Host.Outcome State Fault Refusal :=
  issue s fun k d =>
    if s.mgmt.brkhalt then d.onWave k fun w => { (w.setCause cBreak) with halted := true } else d.trap k cBreak

/-- `rett`: GANG, then ILLEGAL, then the return (R121). -/
def execRett (s : State) : Host.Outcome State Fault Refusal :=
  guarded s (fun k _ => if !k.whole then some cGang else if !k.wave.inHandler then some cIllegal else none)
    fun k d => d.leaveHandler k

/-- The bytes at the PC are no instruction (R82). -/
def execIllegalEncoding (s : State) : Host.Outcome State Fault Refusal := issue s fun k d => d.trap k cIllegal

/-! ## Waiting on counters (R115, R202, R279) -/

/-- `wait`: the named counters are at or below their fields; what `cp`, `tl` and `fx` release is adopted. -/
def execWait (ld st : BitVec 6) (cp : BitVec 5) (tl : BitVec 4) (fx : BitVec 3) (s : State) :
    Host.Outcome State Fault Refusal :=
  issue s fun k d =>
    let what : WaitFor := .counters ld.toNat st.toNat cp.toNat tl.toNat fx.toNat
    if d.waitOver k.wave k.block what then
      let d := d.onWave k fun w =>
        let w := if cp = 31 then w else w.adopt w.doneCp
        let w := if tl = 15 then w else w.adopt w.doneTl
        if fx = 7 then w else w.adopt w.doneFx
      d.advance k 4
    else d.stall k what

/-! ## Special registers (R15, R116, R117) -/

/-- Free granules of a core's pool (R27). -/
def Dev.poolHeld (d : Dev) (p : Block → Bool) : Nat :=
  (d.waves.map fun w => if (d.block? w.block).any p then w.v.length / 8 else 0).sum
def Dev.poolFree (d : Dev) (core : Nat) : Nat := 384 - d.poolHeld (·.core == core)

/-- The lowest PMAX among class-0 issue servers of a core; 4 when there are none (R46). -/
def Dev.corePmax (d : Dev) (core : Nat) : Nat :=
  d.servers.foldl (fun m s => if s.args.point = .port core ∧ s.args.cls = 0 then min m s.args.pmax else m) 4

/-- What `sget` reads (Table 1-2). DESIGN CHOICE (log entry 113): where pending claims seek more than 511 granules, CLAIMQ reads
their sum modulo 512, its 9 bits. -/
def Dev.special (d : Dev) (k : Issue) (t : Nat) (n : Nat) : Option Word :=
  let w := k.wave
  let b := k.block
  let num (x : Nat) : Option Word := some (BitVec.ofNat 64 x)
  match n with
  | 0 => num (4 * t)
  | 1 => num t
  | 2 => num (b.nwaves * 2 ^ 8 + w.idx)
  | 3 => some b.coord
  | 4 =>
    match b.team.bind d.team? with
    | some m => num (2 ^ 63 + m.index * 2 ^ 8 + (m.size - 1) * 2 ^ 4 + b.member)
    | none => num 0
  | 5 => num (w.port.getD 0 * 2 ^ 20 + b.core % 224 * 2 ^ 12 + dieOf b.core * 2 ^ 10 + b.core)
  | 6 => num (k.ctx.atom.toNat * 2 ^ 24 + k.ctx.fn * 2 ^ 8 + k.ctx.n)
  | 7 => some w.cause
  | 8 => some w.tvec
  | 9 => some (k.strand t).epc
  | 10 => some b.arrived
  | 11 => match k.ctx.preempt with | some p => num ((p.ends - d.clock) * 2 ^ 16 + 1) | none => num 0
  | 12 =>
    let c := d.core b.core
    num (d.corePmax b.core * 2 ^ 32 + ((List.range 6).map fun p => ((c.k[p]?).getD 8 - 1) * 2 ^ (8 + 3 * p)).sum + c.pass)
  | 13 => num d.clock
  | 14 => num (k.ctx.energy / 24000)
  | 15 => num w.lts
  | 16 => some w.gsave
  | 17 => num (((d.core b.core).claims.map (·.2)).sum % 512 * 2 ^ 32 + d.poolHeld (·.id == b.id) * 2 ^ 16 + d.poolFree b.core)
  | _ => none

/-- `sget` (R116); `%lts` is read once the wave's clock stands. -/
def execSget (d : SReg) (n : BitVec 12) (s : State) : Host.Outcome State Fault Refusal :=
  guarded s (fun _ _ => if 17 < n.toNat then some cIllegal else none) fun k x =>
    let go (x : Dev) := (x.setScalars k d fun t => (x.special k t n.toNat).getD 0).advance k 4
    if n = 15 then x.whenSettled k go else go x

/-- The writable special registers hold 56 bits of an address. -/
def low56 (x : Word) : Word := x &&& 0x00FFFFFFFFFFFFFF

/-- `sset` (R117): `%epc` in each strand, `%tvec` and `%gsave` from the lowest strand; the rest is read-only. -/
def execSset (a : SReg) (n : BitVec 12) (s : State) : Host.Outcome State Fault Refusal :=
  guarded s (fun _ _ => if 17 < n.toNat then some cIllegal else none) fun k d =>
    let d :=
      if n = 8 then d.onWave k fun w => { w with tvec := low56 (k.rd a) }
      else if n = 9 then d.onGang k fun _ s => { s with epc := low56 (s.rd a) }
      else if n = 16 then d.onWave k fun w => { w with gsave := k.rd a }
      else d
    d.advance k 4

/-- `cclr sA` (R118): each strand clears the bits of its own sA. -/
def execCclrReg (a : SReg) (s : State) : Host.Outcome State Fault Refusal :=
  andNext s 4 fun k d =>
    let bits := k.strands.foldl (fun m t => m ||| (k.strand t).rd a) 0
    d.onWave k fun w => { w with cause := w.cause &&& ~~~(bits &&& 0x3FFFFFF) }
/-- `cclr #c` (R118). -/
def execCclrImm (c : BitVec 6) (s : State) : Host.Outcome State Fault Refusal :=
  andNext s 4 fun k d => d.onWave k fun w =>
    if c.toNat < 26 then { w with cause := w.cause &&& ~~~(1#64 <<< c.toNat) } else w

/-! ## Register release and claim (R27 to R30, R123) -/

/-- `regrel #n`: waits for `ld` and `fx`, then the window shrinks by 8n registers (R28). -/
def execRegrel (n : BitVec 6) (s : State) : Host.Outcome State Fault Refusal :=
  guarded s
    (fun k _ =>
      if n = 0 || decide (31 < n.toNat) then some cIllegal
      else if !k.whole then some cGang
      else if k.wave.v.length < 8 * n.toNat + 8 then some cRegrange else none)
    fun k d =>
      let what : WaitFor := .regrel
      if d.waitOver k.wave k.block what then
        (d.onWave k fun w => { w with v := w.v.take (w.v.length - 8 * n.toNat) }).advance k 4
      else d.stall k what

/-- `regclm #n`: the claim joins the core's queue, and the wave waits for its grant (R29). -/
def execRegclm (n : BitVec 6) (s : State) : Host.Outcome State Fault Refusal :=
  guarded s
    (fun k _ =>
      if n = 0 || decide (31 < n.toNat) then some cIllegal
      else if !k.whole then some cGang
      else if 256 < k.wave.v.length + 8 * n.toNat then some cRegrange else none)
    fun k d =>
      let d := d.modCore k.core fun c => { c with claims := c.claims ++ [(k.wave.id, n.toNat)] }
      d.stall k (.regclm n.toNat)

/-- A lane register of zeros. -/
def zeroLanes : LaneVec := List.replicate 32 0

/-- CLAIM_GRANT (R29): the oldest claim of a core, whole, when its granules are free. -/
def execClaimGrant (core : Nat) (s : State) : Host.Outcome State Fault Refusal :=
  onDev s fun d =>
    match (d.core core).claims with
    | [] => d
    | (id, n) :: rest =>
      if d.poolFree core < n then d
      else
        let d := d.modCore core fun c => { c with claims := rest }
        d.modWave id fun w =>
          { w with
            v := w.v ++ List.replicate (8 * n) zeroLanes
            strands := w.strands.map fun s => if s.exited then s else { s with pc := s.pc + 4, waiting := none } }

/-- The oldest claim of a core can be granted now (R29). -/
def Dev.claimReady (d : Dev) (core : Nat) : Bool :=
  match (d.core core).claims with
  | [] => false
  | (_, n) :: _ => decide (n ≤ d.poolFree core)

/-- A wave is blocked in the sense of R30: in `regclm`, or at a barrier that has not released. -/
def Wave.claims (w : Wave) : Bool :=
  w.strands.any fun s => match s.waiting with | some ⟨_, .regclm _⟩ => true | _ => false
def Wave.atBarrier (w : Wave) : Bool :=
  w.strands.any fun s =>
    match s.waiting with
    | some ⟨_, .numBar n⟩ => w.arrivals.all fun a => a.bar != n || a.released.isNone
    | _ => false

/-- DEADLOCK (R30): the block's claims are withdrawn, and every claimant takes the cause at its `regclm`. While the core's
oldest claim can be granted, the grant comes first. -/
def execDeadlock (block : Nat) (s : State) : Host.Outcome State Fault Refusal :=
  onDev s fun d =>
    let ws := d.liveWaves block
    if ws.any (·.claims) && (ws.all fun w => w.claims || w.atBarrier) && !(d.block? block).any fun b => d.claimReady b.core then
      let claimants := ws.filter (·.claims)
      let d : Dev := { d with cores := d.cores.map fun c =>
        { c with claims := c.claims.filter fun x => !claimants.any (·.id == x.1) } }
      let stand (t : Strand) : Strand := if t.exited then t else { t with epc := t.pc }
      let mark (w : Wave) : Wave := { (w.setCause cDeadlock) with strands := w.strands.map stand }
      let d : Dev := { d with waves := modIf (fun w => claimants.any (·.id == w.id)) mark d.waves }
      claimants.foldl (fun d w => if (d.wave? w.id).any (·.live) then d.trapWave w.id cDeadlock else d) d
    else d

/-! ## Masks (R124 to R126) -/

/-- A scalar from a mask register in every strand of the gang. -/
def maskToScalar (s : State) (d : SReg) (a : MReg) (f : LaneMask → Word) : Host.Outcome State Fault Refusal :=
  andNext s 4 fun k x => x.setScalars k d fun _ => f (k.wave.mask a &&& k.lanes)

/-- A mask register written over the gang's lane bits (R125). -/
def maskOp (s : State) (d : MReg) (f : Wave → LaneMask) : Host.Outcome State Fault Refusal :=
  andNext s 4 fun k x => x.onWave k fun w => w.setMask k.lanes d (f k.wave)

/-- `mget` (R124). -/
def execMget (d : SReg) (a : MReg) (s : State) : Host.Outcome State Fault Refusal :=
  maskToScalar s d a fun m => m.zeroExtend 64
/-- `mset` (R124): each strand writes its four bits from its own sA. -/
def execMset (d : MReg) (a : SReg) (s : State) : Host.Outcome State Fault Refusal :=
  andNext s 4 fun k x =>
    let bits := (List.range 32).foldl
      (fun (m : LaneMask) l => if ((k.strand (l / 4)).rd a).getLsbD l then m ||| (1#32 <<< l) else m) 0
    x.onWave k fun w => w.setMask k.lanes d bits
/-- `mand` (R125). -/
def execMand (d a b : MReg) (s : State) : Host.Outcome State Fault Refusal := maskOp s d fun w => w.mask a &&& w.mask b
/-- `mor` (R125). -/
def execMor (d a b : MReg) (s : State) : Host.Outcome State Fault Refusal := maskOp s d fun w => w.mask a ||| w.mask b
/-- `mxor` (R125). -/
def execMxor (d a b : MReg) (s : State) : Host.Outcome State Fault Refusal := maskOp s d fun w => w.mask a ^^^ w.mask b
/-- `mandn` (R125). -/
def execMandn (d a b : MReg) (s : State) : Host.Outcome State Fault Refusal :=
  maskOp s d fun w => w.mask a &&& ~~~(w.mask b)
/-- `mnot` (R125). -/
def execMnot (d a : MReg) (s : State) : Host.Outcome State Fault Refusal := maskOp s d fun w => ~~~(w.mask a)
/-- `mpop` (R126). -/
def execMpop (d : SReg) (a : MReg) (s : State) : Host.Outcome State Fault Refusal :=
  maskToScalar s d a fun m => BitVec.ofNat 64 (lanesOf m).length
/-- `mffs` (R126): 32 when no bit is set. -/
def execMffs (d : SReg) (a : MReg) (s : State) : Host.Outcome State Fault Refusal :=
  maskToScalar s d a fun m => BitVec.ofNat 64 ((lanesOf m).head?.getD 32)

/-! ## Class E (R140 to R145) -/

/-- `nop` (R140). -/
def execNop (s : State) : Host.Outcome State Fault Refusal := andNext s 2 fun _ d => d
/-- The pad byte (R84). -/
def execPad (s : State) : Host.Outcome State Fault Refusal := andNext s 1 fun _ d => d

/-- `yield` (R141): the gang waits for the gangs it notes; with none it goes on. -/
def execYield (s : State) : Host.Outcome State Fault Refusal :=
  issue s fun k d =>
    let waited := k.low.waiting.any fun x => match x.what with | .yield _ => true | _ => false
    let noted := if waited then [] else d.noteGangs k.core (k.wave.port.getD 0) k.wave.id k.gang
    if noted.isEmpty then d.advance k 2 else d.stall k (.yield noted)

/-- `regang` (R19, R142). -/
def execRegang (m : StrandMask) (s : State) : Host.Outcome State Fault Refusal :=
  issue s fun k d =>
    let strands := k.wave.strands.zipIdx
    let waitsWith (s : Strand) : Option StrandMask := match s.waiting with | some ⟨_, .regang x⟩ => some x | _ => none
    let clash := strands.any fun (s, u) =>
      !inGang k.gang u && !s.exited && (match waitsWith s with
        | some x => x != m && (inGang m u || k.strands.any (inGang x))
        | none => false)
    let named := strands.filter fun (s, u) => inGang m u && !s.exited
    let here := named.all fun (s, u) => inGang k.gang u || waitsWith s == some m
    if m = 0 then d.trap k cIllegal
    else if !k.strands.all (inGang m) || clash then d.trap k cGang
    else if !here then d.stall k (.regang m)
    else if named.any fun (s, _) => s.pc != k.pc then d.trap k cGang
    else
      let all := m &&& k.wave.liveMask
      d.onWave k fun w => w.modStrands all fun _ s => { s with pc := s.pc + 2, gang := all, waiting := none }

/-- `exit` (R143): the strands leave their gang and the wave. -/
def execExit (s : State) : Host.Outcome State Fault Refusal :=
  issue s fun k d =>
    let d := d.noteTrigger k.wave k.gang
    let d := d.onGang k fun _ s => { s with exited := true, gang := 0, waiting := none, monitor := none }
    match d.wave? k.wave.id with
    | some w => if w.live then d else d.waveGone w k.block
    | none => d

/-- `trigger` (R145). -/
def execTrigger (s : State) : Host.Outcome State Fault Refusal :=
  andNext s 2 fun k d =>
    (d.noteTrigger k.wave k.gang).onGang k fun _ s => { s with triggered := true }

end Sys2Proof.Machine
end

