-- ==== Sys2Proof/Machine/MemOps.lean ====
section
/-!
DEFINITION. Outstanding memory operations: atomic operations (R184), the performing of lanes at their homes in issue order
(R264 to R275), service by the L1 (R248, R271), and the end of operations (R177, R178).
-/

namespace Sys2Proof.Machine

/-! ## Atomic operations (Table 6-3) -/

/-- Bytes of an atomic operation at its home (Table 6-3). -/
def atBytes : AtOp → Nat
  | .addI64 => 8
  | _ => 4

/-- Lane registers an atomic names from VD on (R81, R184). -/
def atRegs : AtOp → Nat
  | .addI64 => 2
  | .cas => 2
  | _ => 1

/-- The new value: old value, operand, and for `cas` the value to put (Table 6-3). -/
def atNew (op : AtOp) (old v put : Nat) : Nat :=
  let i (x : Nat) : Int := (BitVec.ofNat 32 x).toInt
  match op with
  | .addI32 => (old + v) % 2 ^ 32
  | .addI64 => (old + v) % 2 ^ 64
  | .addF32 => (fadd .rne (lane32 old) (lane32 v)).toNat
  | .minI => if i v < i old then v else old
  | .minN => min old v
  | .maxI => if i old < i v then v else old
  | .maxN => max old v
  | .and => old &&& v
  | .or => old ||| v
  | .xor => old ^^^ v
  | .xchg => v
  | .cas => if old = v then put else old

/-- The atomic of a no-return form (R185). -/
def RedAtomic : RedOp → AtOp
  | .addI32 => .addI32
  | .addI64 => .addI64
  | .addF32 => .addF32
  | .minI => .minI
  | .minN => .minN
  | .maxI => .maxI
  | .maxN => .maxN
  | .and => .and
  | .or => .or
  | .xor => .xor

/-! ## Operations in issue order (R26, R270) -/

def LaneAcc.isOpen (a : LaneAcc) : Bool := match a.st with | .waiting => true | .sent _ => true | _ => false
def LaneAcc.failure (a : LaneAcc) : Option Nat := match a.st with | .failed c => some c | _ => none
def MemOp.finished (o : MemOp) : Bool := o.lanes.all fun a => !a.isOpen
def MemOp.failures (o : MemOp) : List LaneAcc := o.lanes.filter fun a => a.failure.isSome

/-- An operation is issued: it takes its number and the wave's clock. -/
def Dev.addOp (d : Dev) (k : Issue) (kind : MemKind) (lanes : List LaneAcc) (whole : Bool) : Dev :=
  let (id, d) := d.fresh
  { d with memops := d.memops ++
      [⟨id, k.wave.id, k.block.id, k.ctx.n, k.gang, k.pc, kind, lanes, k.wave.lts, whole⟩] }

/-- The first of a wave's operations that still has a lane to perform: times follow issue order (R270). -/
def Dev.opTurn (d : Dev) (w : Nat) : Option MemOp := d.memops.find? fun o => o.wave == w && o.kind != .stamp && !o.finished

/-- An event of an operation has taken time `t`: the wave's clock and those of its later operations rise (R270). -/
def Dev.opTime (d : Dev) (o : MemOp) (t : Nat) : Dev :=
  { d.modWave o.wave (·.adopt t) with
    memops := d.memops.map fun p => if p.wave = o.wave ∧ o.id < p.id then { p with clock := max p.clock t } else p }

/-- A lane of an operation has come to a state. -/
def Dev.laneDone (d : Dev) (op lane : Nat) (st : LaneSt) : Dev :=
  d.modOp op fun o => { o with lanes := modIf (·.lane == lane) (fun a => { a with st := st }) o.lanes }

/-- An operation that holds up no register ends (R177): its count ends; what failed is reported (R178). -/
def Dev.endOp (d : Dev) (o : MemOp) : Dev :=
  let t := maxOf (o.lanes.map fun a => match a.st with | .done t _ => t | _ => 0)
  let d : Dev := { d with
    memops := d.memops.filter (·.id != o.id)
    reports := if o.failures.isEmpty then d.reports else d.reports ++ [o] }
  if o.kind.writes then d.noteDone o.id o.wave o.block o.gang t
  else if o.kind == .stamp then d.modBlock o.block fun b => { b with time := max b.time t }
  else d

/-- The mask of an operation's failed lanes (R176). -/
def MemOp.failMask (o : MemOp) : LaneMask := o.failures.foldl (fun (m : LaneMask) a => m ||| (1#32 <<< a.lane)) 0

/-- A scalar load has its value: it is written and the strands go on (R127). A failure that the home finds is precise at the
`sld`; a request that was dropped or timed out is a cause at the next boundary (R178, R310, R340). -/
def Dev.endSload (d : Dev) (o : MemOp) (r : SReg) : Dev :=
  let d : Dev := { d with memops := d.memops.filter (·.id != o.id) }
  match o.failures with
  | a :: _ =>
    let cause := a.failure.getD 0
    let late := cause == cRights || cause == cPairtimeout
    let d := d.modWave o.wave fun w => w.modStrands o.gang fun _ s =>
      { s with waiting := none, pc := if late then s.pc + 4 else s.pc }
    if late then { d with reports := d.reports ++ [o] }
    else (d.setFault o.wave (BitVec.ofNat 64 a.ea) cause o.failMask o.pc).trapWave o.wave cause
  | [] =>
    d.modWave o.wave fun w => w.modStrands o.gang fun t s =>
      match o.lanes.find? (·.lane == 4 * t) with
      | some ⟨_, _, _, _, _, .done _ bs⟩ =>
        { (s.wr r (BitVec.ofNat 64 (leNat bs))) with pc := s.pc + 4, waiting := none }
      | _ => s

/-- After a lane has come to its end: an operation that has finished ends, unless its registers are written by
LOAD_COMPLETE. -/
def Dev.settleOp (d : Dev) (op : Nat) : Dev :=
  match d.op? op with
  | none => d
  | some o =>
    if !o.finished then d
    else
      match o.kind with
      | .sload r => d.endSload o r
      | _ => if o.kind.writes then d.endOp o else d

/-! ## Requests that leave the package (R272, R334) -/

/-- A request of a lane goes out to another package. -/
def Dev.sendRemote (d : Dev) (o : MemOp) (a : LaneAcc) (pkg pa : Nat) (ask : RemoteAsk) : Dev :=
  let (r, d) := d.fresh
  let d : Dev := { d with remotes := d.remotes ++ [⟨r, some (o.id, a.lane), none, o.ctx, pkg, pa, ask, o.clock, none⟩] }
  d.laneDone o.id a.lane (.sent r)

/-- The function's cached translation of an I/O page; without one the device asks for it once (R334). -/
def Dev.atsReady (d : Dev) (fn iova : Nat) : Bool := d.ats.contains (fn, iova / 4096)
def Dev.askAts (d : Dev) (fn iova : Nat) : Dev :=
  if d.atsAsked.contains (fn, iova / 4096) then d
  else ({ d with atsAsked := (fn, iova / 4096) :: d.atsAsked } : Dev).send (.atsRequest fn (iova / 4096))

/-- A read of host memory goes out (R334). -/
def Dev.sendHostRead (d : Dev) (o : MemOp) (a : LaneAcc) (fn iova : Nat) : Dev :=
  let (r, d) := d.fresh
  let d : Dev := { d with
    remotes := d.remotes ++ [⟨r, some (o.id, a.lane), none, o.ctx, 1023, iova, .read a.n, o.clock, some d.clock⟩] }
  (d.send (.hostRead r fn iova a.n)).laneDone o.id a.lane (.sent r)

/-! ## Loads and stores at their homes -/

/-- Bytes at a place as they stand, if their checks hold. -/
def Dev.peekLoc (d : Dev) (ctx : Nat) (loc : Loc) (n : Nat) : Option (List Byte) :=
  match loc with
  | .glob pa => let (bs, ok) := d.readGlob ctx pa n; if ok then some bs else none
  | .loc core sp a => let (bs, ok) := d.readLoc core sp a n; if ok then some bs else none
  | _ => none

/-- The line that holds a place. -/
def lineBase : Loc → Loc
  | .glob pa => .glob (pa / 128 * 128)
  | .loc c sp a => .loc c sp (a / 128 * 128)
  | .remote p a => .remote p (a / 128 * 128)
  | l => l

/-- The lanes that one event of an operation performs: all of a coalesced access, else one (R274). -/
def MemOp.group (o : MemOp) (lane : Nat) : List LaneAcc :=
  let one := o.lanes.filter fun a => a.lane == lane && a.st == .waiting
  match o.whole, o.lanes.filter (·.st == .waiting) with
  | true, a :: as => match a.loc with | .host _ => one | _ => a :: as
  | _, _ => one

/-- The byte of its line that a lane's access begins at. -/
def LaneAcc.inLine (a : LaneAcc) : Nat :=
  match a.loc with | .glob p => p % 128 | .loc _ _ p => p % 128 | .remote _ p => p % 128 | .host p => p % 128

/-- The bytes of one store event: those of a lane, or a whole line. -/
def groupBytes (as : List LaneAcc) : List Byte :=
  match as with
  | [a] => a.data
  | _ => leBytes 128 ((as.map fun a => leNat a.data * 2 ^ (8 * a.inLine)).sum)

/-- The lanes of one event go out to another package as one request. -/
def Dev.sendGroup (d : Dev) (o : MemOp) (a : LaneAcc) (as : List LaneAcc) (pkg pa : Nat) (ask : RemoteAsk) : Dev :=
  let r := d.nextId
  as.foldl (fun d x => d.laneDone o.id x.lane (.sent r)) (d.sendRemote o a pkg pa ask)

/-- A core's copy that may serve a load (R271, R272). -/
def Dev.copyFor (d : Dev) (core ctx c : Nat) : Loc → Option L1Line
  | .glob pa => d.l1Serves core ctx none pa c
  | .remote pkg pa => d.l1Serves core ctx (some pkg) pa c
  | _ => none

/-- Lanes of a load are served from the core's copy (R271), which moves to the protected end. -/
def Dev.serveCopyOf (d : Dev) (o : MemOp) (as : List LaneAcc) (l : L1Line) : Dev :=
  let t := max o.clock l.wt
  let d := as.foldl (fun d a =>
    d.laneDone o.id a.lane (match l.read a.inLine a.n with | some bs => .done t bs | none => .failed cIntegrity)) (d.putL1 l)
  d.opTime o t

/-- A load event of one or more lanes at a home here (R267); a lane load brings its line into the L1, a scalar load renews
a line that is there (R248). -/
def Dev.loadEvent (d : Dev) (core : Nat) (o : MemOp) (as : List LaneAcc) (loc : Loc) (lease : Nat) : Dev :=
  let n := match as with | [a] => a.n | _ => 128
  let (d, t, _) := d.homeLoad o.ctx loc n o.clock (max 1 (min lease 64))
  let d := match loc, o.kind with
    | .glob pa, .load .. => d.l1Fill core o.ctx pa
    | .glob pa, _ => d.l1Renew core o.ctx pa
    | _, _ => d
  let d := as.foldl (fun d a =>
    d.laneDone o.id a.lane (match d.peekLoc o.ctx a.loc a.n with | some bs => .done t bs | none => .failed cIntegrity)) d
  d.opTime o t

/-- A store event of one or more lanes at a home here (R268). -/
def Dev.storeEvent (d : Dev) (core : Nat) (o : MemOp) (as : List LaneAcc) (loc : Loc) : Dev :=
  let (d, t, ok) := d.homeWrite o.ctx (some core) true loc o.clock fun _ => groupBytes as
  let d := as.foldl (fun d a => d.laneDone o.id a.lane (if ok then .done t [] else .failed cIntegrity)) d
  if ok then d.opTime o t else d

/-- A lane's load is performed, or its request goes out. -/
def Dev.performLoad (d : Dev) (o : MemOp) (lane lease : Nat) (useL1 : Bool) : Dev :=
  match d.block? o.block, d.ctx? o.ctx, o.group lane with
  | some b, some c, a :: as =>
    let loc := if o.whole then lineBase a.loc else a.loc
    match if useL1 then d.copyFor b.core o.ctx o.clock loc else none with
    | some l => (d.serveCopyOf o (a :: as) l).settleOp o.id
    | none =>
      match loc with
      | .remote pkg pa => d.sendGroup o a as pkg pa (.read (if o.whole then 128 else a.n))
      | .host iova => if d.atsReady c.fn iova then d.sendHostRead o a c.fn iova else d.askAts c.fn iova
      | _ => (d.loadEvent b.core o (a :: as) loc lease).settleOp o.id
  | _, _, _ => d

/-- A lane's store is performed, or goes out. A posted write to host memory is no event of the order (R334). -/
def Dev.performStore (d : Dev) (o : MemOp) (lane : Nat) : Dev :=
  match d.block? o.block, d.ctx? o.ctx, o.group lane with
  | some b, some c, a :: as =>
    let loc := if o.whole then lineBase a.loc else a.loc
    match loc with
    | .remote pkg pa => d.sendGroup o a as pkg pa (farStore pa (groupBytes (a :: as)))
    | .host iova =>
      if d.atsReady c.fn iova
      then ((d.send (.hostWrite c.fn iova a.data)).laneDone o.id a.lane (.done o.clock [])).settleOp o.id
      else d.askAts c.fn iova
    | _ => (d.storeEvent b.core o (a :: as) loc).settleOp o.id
  | _, _, _ => d

/-- The change an atomic lane makes to its bytes, and the request it makes of another package. -/
def MemOp.change (o : MemOp) (a : LaneAcc) (old : List Byte) : List Byte :=
  match o.kind with
  | .atom op _ => leBytes a.n (atNew op (leNat old) (field a.data 0 8) (field a.data 8 4))
  | .red op => leBytes a.n (atNew op (leNat old) (field a.data 0 8) (field a.data 8 4))
  | .cinc => leBytes a.n (cincNew (leNat old) (field a.data 0 6))
  | .cmpst _ _ vals => leBytes 8 (leNat old + 4 * vals.length)
  | _ => old
def MemOp.ask (o : MemOp) (a : LaneAcc) : RemoteAsk :=
  match o.kind with
  | .atom op _ => .atomic op (BitVec.ofNat 64 (field a.data 0 8)) (BitVec.ofNat 64 (field a.data 8 4))
  | .red op => .atomic op (BitVec.ofNat 64 (field a.data 0 8)) (BitVec.ofNat 64 (field a.data 8 4))
  | .cinc => .cinc (BitVec.ofNat 64 (field a.data 0 6))
  | .cmpst _ _ vals => .append vals.length
  | _ => .read a.n

/-- The check of a queue pointer P at its home (R186). -/
def queueCheck (local_ : Bool) (limit words p : Nat) : Option Nat :=
  if p % 4 ≠ 0 then some cAlign
  else if !local_ && 2 ^ 56 ≤ p then some cXlate
  else if local_ && limit < p + 4 * words then some cRights else none

/-- The data stores of a `cmpst` whose pointer was P (R186): each is translated now; one that fails is reported. -/
def Dev.queueStores (d : Dev) (b : Block) (c : Ctx) (local_ : Bool) (p : Nat) (vals : List (Nat × Lane)) : List LaneAcc :=
  vals.mapIdx fun r (lane, v) =>
    let ea := p + 4 * r
    let data := leBytes 4 v.toNat
    let at_ : Except Nat Loc :=
      if local_ then checkLocal b.core .scratch b.scratch ea 4 else d.checkGlobal b.core c ea 4 needW false
    match at_ with
    | .ok loc => ⟨lane, ea, loc, 4, data, .waiting⟩
    | .error e => ⟨lane, ea, .glob 0, 4, data, .failed e⟩

/-- A `cmpst` knows its pointer, which it has advanced at time `t`: its data lanes follow (R186), and the time counts for its
block's trigger event (R145). -/
def Dev.queueOpen (d : Dev) (o : MemOp) (p t : Nat) : Dev :=
  match o.kind, d.block? o.block, d.ctx? o.ctx with
  | .cmpst l n vals, some b, some c =>
    match queueCheck l n vals.length p with
    | some e => d.modOp o.id fun o => { o with lanes := o.lanes.map fun a => { a with st := .failed e } }
    | none =>
      let acc := d.queueStores b c l p vals
      ((if l then d else d.lookedAll b.core c (acc.map (·.ea))).noteDone o.id o.wave o.block o.gang t).modOp o.id fun o =>
        { o with kind := .store, lanes := acc }
  | _, _, _ => d

/-- An atomic lane is performed at a home here (R269), past the L1 (R248), or its request goes out. -/
def Dev.performAtomic (d : Dev) (o : MemOp) (lane : Nat) : Dev :=
  match o.lanes.find? fun a => a.lane == lane && a.st == .waiting with
  | some a =>
    match a.loc, o.kind with
    | .remote pkg pa, _ => d.sendRemote o a pkg pa (o.ask a)
    | _, .cmpst l n vals =>
      match d.peekLoc o.ctx a.loc 8 with
      | none =>
        let (d, _, _) := d.homeLoad o.ctx a.loc 8 o.clock 1
        (d.laneDone o.id lane (.failed cIntegrity)).settleOp o.id
      | some old =>
        if (queueCheck l n vals.length (leNat old)).isSome then (d.queueOpen o (leNat old) 0).settleOp o.id
        else
          let (d, t, r) := d.homeRmw o.ctx none true a.loc 8 o.clock fun _ => o.change a
          match r with
          | none => (d.laneDone o.id lane (.failed cIntegrity)).settleOp o.id
          | some old => ((d.queueOpen o (leNat old) t).opTime o t).settleOp o.id
    | _, _ =>
      let (d, t, r) := d.homeRmw o.ctx none true a.loc a.n o.clock fun _ => o.change a
      match r with
      | none => (d.laneDone o.id lane (.failed cIntegrity)).settleOp o.id
      | some old => ((d.laneDone o.id lane (.done t old)).opTime o t).settleOp o.id
  | none => d

/-- Kinds by the home event that performs them. -/
def MemKind.loads : MemKind → Bool
  | .load .. => true
  | .sload _ => true
  | _ => false
def MemKind.stores : MemKind → Bool
  | .store => true
  | .sstore => true
  | _ => false
def MemKind.updates : MemKind → Bool
  | .atom .. => true
  | .red _ => true
  | .cinc => true
  | .cmpst .. => true
  | _ => false

/-- A home event of an operation happens in the wave's issue order only. -/
def Dev.inTurn (d : Dev) (op : Nat) (p : MemKind → Bool) (f : MemOp → Dev) : Dev :=
  match d.op? op with
  | none => d
  | some o => if (d.opTurn o.wave).map (·.id) = some op ∧ p o.kind then f o else d

/-! ## Steps -/

/-- HOME_LOAD (R267, R271): a corrected error may be counted on the way (R263; log entry 6). -/
def execHomeLoad (op lane lease : Nat) (useL1 : Bool) (s : State) : Host.Outcome State Fault Refusal :=
  match s.dev.op? op with
  | none => .next s
  | some o =>
    if (s.dev.opTurn o.wave).map (·.id) = some op ∧ o.kind.loads ∧ o.group lane ≠ [] then
      let (x, d) := s.dev.freeWord
      .next { s with
        dev := d.performLoad o lane lease useL1
        mgmt := { s.mgmt with seccnt := if x.getLsbD 63 then (s.mgmt.seccnt + 1) % 2 ^ 32 else s.mgmt.seccnt } }
    else .next s

/-- STORE_PERFORM (R268); a `spill` reaches its slot (R189). -/
def execStorePerform (op lane : Nat) (s : State) : Host.Outcome State Fault Refusal :=
  onDev s fun d =>
    match d.op? op with
    | some o =>
      if o.kind = .spill then d.endOp o
      else d.inTurn op MemKind.stores fun o => d.performStore o lane
    | none => d

/-- HOME_ATOMIC (R269). -/
def execHomeAtomic (op lane : Nat) (s : State) : Host.Outcome State Fault Refusal :=
  onDev s fun d => d.inTurn op MemKind.updates fun o => d.performAtomic o lane

/-- LOAD_COMPLETE (R177): the lanes of a load are written together; a load with a failed lane writes none, an atomic
those it performed (R178). -/
def execLoadComplete (op : Nat) (s : State) : Host.Outcome State Fault Refusal :=
  onDev s fun d =>
    match d.op? op with
    | none => d
    | some o =>
      if !o.finished || !o.kind.inLd then d
      else
        let whole := match o.kind with | .atom .. => true | _ => o.failures.isEmpty
        let d := if !whole then d
          else d.modWave o.wave fun w =>
            { w with v := w.v.mapIdx fun v r => r.mapIdx fun l x => (o.newLane v l).getD x }
        d.endOp o

/-- DEFERRED_REPORT (R178, R196): the first report of a wave reaches the boundary. -/
def execDeferredReport (wave : Nat) (s : State) : Host.Outcome State Fault Refusal :=
  onDev s fun d =>
    match d.reports.find? fun o => d.reportWave o == wave with
    | none => d
    | some o =>
      let drop (d : Dev) : Dev := { d with reports := d.reports.filter (·.id != o.id) }
      match d.wave? wave with
      | none => drop d
      | some w =>
        if !w.live then
          match (d.block? w.block).bind (·.launch) with
          | some l => (drop d).markLaunch l true false w.lts
          | none => drop d
        else if w.busy then d
        else
          match o.failures with
          | [] => drop d
          | a :: _ =>
            let cause := a.failure.getD 0
            let d := if memoryCause cause then (drop d).setFault wave (BitVec.ofNat 64 a.ea) cause o.failMask o.pc else drop d
            d.raiseDeferred wave cause

end Sys2Proof.Machine
end

