-- ==== Sys2Proof/Machine/Reach.lean ====
section
/-!
DEFINITION. Reads and writes of memory by units other than lanes and copies: instructions that read a record at issue
(R201), engines, collectives, continuations (R264 to R269, R272, R277). What lies on another package travels by requests,
whose replies wait in the device until the reader looks again.
-/

namespace Sys2Proof.Machine

/-- A part of a range within one unit of indivisibility: offset, address, length. -/
structure Span where
  off : Nat
  va  : Nat
  n   : Nat
deriving DecidableEq, Repr

/-- The spans of `n` bytes at an address, cut at multiples of `unit`; the first number bounds them. -/
def spansFrom (unit : Nat) : Nat → Nat → Nat → Nat → List Span
  | 0, _, _, _ => []
  | k + 1, off, va, n =>
    if n = 0 then []
    else
      let m := min n (unit - va % unit)
      ⟨off, va, m⟩ :: spansFrom unit k (off + m) (va + m) (n - m)
def spans (unit va n : Nat) : List Span := spansFrom unit n 0 va n

/-- The outcome of reading or writing a range. -/
inductive Reach where
  | ok (t : Nat) (bytes : List Byte)
  /-- A cause and the first address that has it. -/
  | fail (cause addr : Nat)
  | missing
deriving DecidableEq, Repr

/-- How a reply of another package ends a request here (R257, R272). -/
def answerOf : RemoteEnd → Answer
  | .done t bs => .done t bs
  | .xlate => .failed cXlate
  | .rights => .failed cRights
  | .integrity => .failed cIntegrity

/-- The place of an address for a unit: host memory is refused (R334). -/
def Dev.unitPlace (d : Dev) (core : Nat) (x : Ctx) (va : Nat) (need : Need) : Except Nat Loc :=
  if 2 ^ 56 ≤ va then .error cXlate
  else
    match d.access core x va need with
    | .ok (.host _) => .error cRights
    | r => r

/-- A reply for a reader's offset; a request that is on its way. -/
def Dev.reply? (d : Dev) (owner off : Nat) : Option Answer :=
  (d.inbox.find? fun m => m.1 == owner && m.2.1 == off).map (·.2.2)
def Dev.asked (d : Dev) (owner off : Nat) : Bool := d.remotes.any fun r => r.job == some (owner, 0, off)
/-- The replies of a reader are dropped. -/
def Dev.dropReplies (d : Dev) (owner : Nat) : Dev := { d with inbox := d.inbox.filter (·.1 != owner) }

/-- A request for a reader goes out, unless it has been answered or is on its way. -/
def Dev.askFor (d : Dev) (owner off ctx pkg pa clock : Nat) (ask : RemoteAsk) : Dev :=
  if (d.reply? owner off).isSome || d.asked owner off then d
  else
    let (r, d) := d.fresh
    { d with remotes := d.remotes ++ [⟨r, none, some (owner, 0, off), ctx, pkg, pa, ask, clock, none⟩] }

/-- Replies to write requests stand at offsets from here on. -/
abbrev farWrite : Nat := 2 ^ 60

/-- The requests of a range go out; whether every answer is there. -/
def Dev.askSpans (d : Dev) (core : Nat) (x : Ctx) (owner clock base : Nat) (need : Need)
    (ask : Nat → Span → RemoteAsk) (l : List Span) : Dev × Bool :=
  l.foldl (fun (q : Dev × Bool) sp =>
    match q.1.unitPlace core x sp.va need with
    | .ok (.remote pkg pa) =>
      let d := q.1.askFor owner (base + sp.off) x.n pkg pa clock (ask pa sp)
      (d, q.2 && (d.reply? owner (base + sp.off)).isSome)
    | _ => q) (d, true)

/-- Bytes at a home that may lie on two lines are loaded as one event: on each line at the larger of the times that the
lines allow (R230). -/
def Dev.loadOnce (d : Dev) (ctx : Nat) (loc : Loc) (n c l : Nat) : Dev × Nat × Option (List Byte) :=
  match loc with
  | .glob pa =>
    if pa % 128 + n ≤ 128 then d.homeLoad ctx loc n c l
    else
      let m := 128 - pa % 128
      let (d, t, _) := d.homeLoad ctx (.glob (pa + m)) (n - m) c l
      let (d, t, as) := d.homeLoad ctx loc m t l
      let (d, t, bs) := d.homeLoad ctx (.glob (pa + m)) (n - m) t l
      (d, t, match as, bs with | some as, some bs => some (as ++ bs) | _, _ => none)
  | _ => d.homeLoad ctx loc n c l

/-- Spans are read in order, each one event at the reader's clock. -/
def Dev.readSpans (d : Dev) (core : Nat) (x : Ctx) (owner base lease : Nat) : Nat → List Span → Dev × Reach
  | t, [] => (d, .ok t [])
  | t, sp :: sps =>
    let rest (d : Dev) (t : Nat) (bs : List Byte) : Dev × Reach :=
      match d.readSpans core x owner base lease t sps with
      | (d, .ok t bs') => (d, .ok t (bs ++ bs'))
      | r => r
    match d.unitPlace core x sp.va needR with
    | .error e => (d, .fail e sp.va)
    | .ok (.remote ..) =>
      match d.reply? owner (base + sp.off) with
      | some (.done ti bs) => rest d (max t ti) bs
      | some (.failed e) => (d, .fail e sp.va)
      | none => (d, .missing)
    | .ok loc =>
      match d.loadOnce x.n loc sp.n t lease with
      | (d, ti, some bs) => rest d (max t ti) bs
      | (d, _, none) => (d, .fail cIntegrity sp.va)

/-- The walks that the translations of spans have made (R258). -/
def Dev.lookedSpans (core : Nat) (x : Ctx) (l : List Span) (q : Dev × Reach) : Dev × Reach :=
  (q.1.lookedAll core x (l.map (·.va)), q.2)

/-- Parts of memory are read by a unit: nothing is read before every request has been answered. Its requests stand at offsets
from `base` on. -/
def Dev.reachList (d : Dev) (core : Nat) (x : Ctx) (owner base clock lease : Nat) (l : List Span) : Dev × Reach :=
  let (d, all) := d.askSpans core x owner clock base needR (fun _ sp => .read sp.n) l
  Dev.lookedSpans core x l (if all then d.readSpans core x owner base lease clock l else (d, .missing))

/-- A range is read by a unit, cut at multiples of `unit`. -/
def Dev.reachFrom (d : Dev) (core : Nat) (x : Ctx) (owner base unit va n clock lease : Nat) : Dev × Reach :=
  d.reachList core x owner base clock lease (spans unit va n)

/-- A range is read by a unit as one event, though it may lie on two pages (R230): every part as it stands at the largest of
the times that the parts allow. A part of another package that was read for an earlier time is asked for again, with that
one. -/
def Dev.reachOnce (d : Dev) (core : Nat) (x : Ctx) (owner base va n clock : Nat) : Dev × Reach :=
  let l := spans 4096 va n
  let ask (d : Dev) (t : Nat) : Dev × Bool := d.askSpans core x owner t base needR (fun _ sp => .read sp.n) l
  let early (d : Dev) (t : Nat) (sp : Span) : Bool :=
    match d.reply? owner (base + sp.off) with | some (.done u _) => decide (u < t) | _ => false
  let times := l.filterMap fun sp => match d.reply? owner (base + sp.off) with | some (.done u _) => some u | _ => none
  let from_ := maxOf (clock :: times)
  let (d, all) := ask d from_
  Dev.lookedSpans core x l <|
    if !all then (d, .missing)
    else
      match d.readSpans core x owner base 1 from_ l with
      | (d, .ok t _) =>
        let old := (l.filter (early d t)).map fun sp => base + sp.off
        if old.isEmpty then d.readSpans core x owner base 1 t l
        else ((ask { d with inbox := d.inbox.filter fun m => !(m.1 == owner && old.contains m.2.1) } t).1, .missing)
      | r => r

/-- A range is read, and the replies are dropped. -/
def Dev.reachRead (d : Dev) (core : Nat) (x : Ctx) (owner unit va n clock lease : Nat) : Dev × Reach :=
  match d.reachFrom core x owner 0 unit va n clock lease with
  | (d, .missing) => (d, .missing)
  | (d, r) => (d.dropReplies owner, r)

/-- Spans are written in order. -/
def Dev.writeSpans (d : Dev) (core : Nat) (x : Ctx) (owner : Nat) (bs : List Byte) : Nat → List Span → Dev × Reach
  | t, [] => (d, .ok t [])
  | t, sp :: sps =>
    match d.unitPlace core x sp.va needW with
    | .error e => (d, .fail e sp.va)
    | .ok (.remote ..) =>
      match d.reply? owner (farWrite + sp.off) with
      | some (.done ti _) => d.writeSpans core x owner bs (max t ti) sps
      | some (.failed e) => (d, .fail e sp.va)
      | none => (d, .missing)
    | .ok loc =>
      match d.homeWrite x.n none true loc t fun _ => (bs.drop sp.off).take sp.n with
      | (d, ti, true) => d.writeSpans core x owner bs (max t ti) sps
      | (d, _, false) => (d, .fail cIntegrity sp.va)

/-- The cause for which a range cannot be written, as far as this package can tell: a page refuses, or the check of a
partly written sector fails (R261). -/
def Dev.refuses (d : Dev) (core : Nat) (x : Ctx) (va n : Nat) : Option Nat :=
  (spans 32 va n).findSome? fun sp =>
    match d.unitPlace core x sp.va needW with
    | .error e => some e
    | .ok (.glob pa) => if wholeSector pa sp.n (pa / 32) || d.sectorOk x.n (pa / 32) then none else some cIntegrity
    | .ok _ => none

/-- A range is written by a unit, sector by sector: what lies on other packages first. -/
def Dev.reachWrite (d : Dev) (core : Nat) (x : Ctx) (owner va clock : Nat) (bs : List Byte) : Dev × Reach :=
  let l := spans 32 va bs.length
  let (d, all) := d.askSpans core x owner clock farWrite needW (fun pa sp => farStore pa ((bs.drop sp.off).take sp.n)) l
  Dev.lookedSpans core x l <|
    if all then
      let (d, r) := d.writeSpans core x owner bs clock l
      (d.dropReplies owner, r)
    else (d, .missing)

/-- A range of a local space is read sector by sector (R273): the time, and the bytes unless a word cannot be
corrected. -/
def Dev.readBuf (d : Dev) (core : Nat) (sp : Space) (a n c : Nat) : Dev × Nat × Option (List Byte) :=
  (spans 32 a n).foldl (fun (q : Dev × Nat × Option (List Byte)) s =>
    match q.2.2, q.1.homeLoad 0 (.loc core sp s.va) s.n q.2.1 0 with
    | some bs, (d, t, some new) => (d, t, some (bs ++ new))
    | _, (d, t, _) => (d, t, none)) (d, c, some [])

/-- A range of a local space is written sector by sector (R273). -/
def Dev.writeBuf (d : Dev) (core : Nat) (sp : Space) (a c : Nat) (bs : List Byte) : Dev × Nat :=
  (spans 32 a bs.length).foldl (fun (q : Dev × Nat) s =>
    let (d, t, _) := q.1.homeWrite 0 none true (.loc core sp s.va) q.2 fun _ => (bs.drop s.off).take s.n
    (d, t)) (d, c)

end Sys2Proof.Machine
end

