-- ==== Sys2Proof/Machine/ScalarMem.lean ====
section
/-!
DEFINITION. Scalar memory, monitors, arrival tags, trigger counters and barriers (04: R127 to R139), and the suspension of
a wave from its port (R131).
-/

namespace Sys2Proof.Machine

/-! ## Addresses of a gang's strands (R127) -/

/-- The address of a strand: sA + SExt(IMM12). -/
def Issue.ea (k : Issue) (a : SReg) (i : BitVec 12) (t : Nat) : Word := (k.strand t).rd a + sx i

/-- The checks of every strand of a gang end before any access (R127): the places, or the lowest failing strand's cause
and address with the mask of failing strands. -/
def Dev.strandChecks (d : Dev) (k : Issue) (a : SReg) (i : BitVec 12) (n : Nat) (need : Need) (host : Bool) :
    Except (Nat × Word × LaneMask) (List (Nat × Loc)) :=
  let rs := k.strands.map fun t => (t, d.checkGlobal k.core k.ctx (k.ea a i t).toNat n need host)
  let bad := rs.filterMap fun (t, r) => match r with | .error e => some (t, e) | .ok _ => none
  match bad with
  | [] => .ok (rs.filterMap fun (t, r) => match r with | .ok l => some (t, l) | .error _ => none)
  | (t, e) :: _ => .error (e, k.ea a i t, bad.foldl (fun (m : LaneMask) x => m ||| (1#32 <<< (4 * x.1))) 0)

def Loc.isGlob : Loc → Bool
  | .glob _ => true
  | _ => false

/-- A scalar access runs once its checks have passed; the page walks of its addresses are made (R258). -/
def Dev.scalarAccess (d : Dev) (k : Issue) (a : SReg) (i : BitVec 12) (n : Nat) (need : Need) (host : Bool)
    (f : Dev → List (Nat × Loc) → Dev) : Dev :=
  let x := d.lookedAll k.core k.ctx (k.strands.map fun t => (k.ea a i t).toNat)
  match d.strandChecks k a i n need host with
  | .error (e, ea, m) => x.trapMem k e ea m
  | .ok ps => f x ps

/-- The part of a strand in an outstanding scalar operation: lane 4t stands for strand t. -/
def Issue.part (k : Issue) (a : SReg) (i : BitVec 12) (n : Nat) (data : Nat → List Byte) (p : Nat × Loc) : LaneAcc :=
  ⟨4 * p.1, (k.ea a i p.1).toNat, p.2, n, data p.1, .waiting⟩

/-! ## Scalar loads and stores (R127, R128) -/

/-- A strand's load of global memory here, at the wave's clock: its copy in the L1 may serve (R271), the lease is the
home's choice (R267). -/
def Dev.sloadAt (d : Dev) (k : Issue) (pa n : Nat) : Dev × Nat × Option (List Byte) :=
  let (f, d) := d.freeWord
  match (if f.getLsbD 6 then d.l1Serves k.core k.ctx.n none pa k.wave.lts else none) with
  | some l => (d.putL1 l, max k.wave.lts l.wt, l.read pa n)
  | none =>
    let (d, t, r) := d.homeLoad k.ctx.n (.glob pa) n k.wave.lts (1 + f.toNat % 64)
    (d.l1Renew k.core k.ctx.n pa, t, r)

/-- The loads of every strand of the gang, in rising strand order (DESIGN CHOICE, log entry 34): values by strand, failing
strands, the largest time. -/
def Dev.sloadAll (d : Dev) (k : Issue) (n : Nat) : List (Nat × Loc) → Dev × List (Nat × Word) × List Nat × Nat
  | [] => (d, [], [], 0)
  | (t, loc) :: ps =>
    let (d, ti, r) := d.sloadAt k (match loc with | .glob pa => pa | _ => 0) n
    let (d, vs, bad, tm) := d.sloadAll k n ps
    match r with
    | some bs => (d, (t, BitVec.ofNat 64 (leNat bs)) :: vs, bad, max ti tm)
    | none => (d, vs, t :: bad, max ti tm)

/-- `sld` (R127). A load from another package or the host keeps the strands until its reply. -/
def scalarLoad (s : State) (n : Nat) (r a : SReg) (i : BitVec 12) : Host.Outcome State Fault Refusal :=
  issue s fun k d =>
    d.scalarAccess k a i n needR true fun d ps =>
      d.whenSettled k fun d =>
        if ps.all (·.2.isGlob) then
          let (d, vs, bad, t) := d.sloadAll k n ps
          match bad with
          | [] => ((d.setScalars k r fun t => ((vs.find? (·.1 == t)).map (·.2)).getD 0).onWave k (·.adopt t)).advance k 4
          | b :: _ =>
            d.trapMem k cIntegrity (k.ea a i b) (bad.foldl (fun (m : LaneMask) t => m ||| (1#32 <<< (4 * t))) 0)
        else
          let id := d.nextId
          (d.addOp k (.sload r) (ps.map (k.part a i n fun _ => [])) false).stall k (.remote id)

/-- The stores of every strand, in rising strand order (DESIGN CHOICE, log entry 34): failing parts, the largest time. -/
def Dev.sstoreAll (d : Dev) (k : Issue) : List LaneAcc → Dev × List LaneAcc × Nat
  | [] => (d, [], 0)
  | a :: as =>
    let (d, ti, ok) := d.homeWrite k.ctx.n (some k.core) true a.loc k.wave.lts fun _ => a.data
    let (d, bad, tm) := d.sstoreAll k as
    if ok then (d, bad, max ti tm) else (d, { a with st := .failed cIntegrity } :: bad, tm)

/-- `sst` (R127): performed at issue when the wave's earlier operations have been; else in its turn. What a home refuses
to merge is reported later (R261). -/
def scalarStore (s : State) (n : Nat) (r a : SReg) (i : BitVec 12) : Host.Outcome State Fault Refusal :=
  issue s fun k d =>
    d.scalarAccess k a i n needW true fun d ps =>
      let parts := ps.map (k.part a i n fun t => leBytes n ((k.strand t).rd r).toNat)
      if d.settled k && ps.all (·.2.isGlob) then
        let (d, bad, t) := d.sstoreAll k parts
        let (id, d) := d.fresh
        let d : Dev := if bad.isEmpty then d else { d with reports := d.reports ++
          [⟨id, k.wave.id, k.block.id, k.ctx.n, k.gang, k.pc, .sstore, bad, k.wave.lts, false⟩] }
        ((d.noteDone id k.wave.id k.block.id k.gang t).onWave k (·.adopt t)).advance k 4
      else (d.addOp k .sstore parts false).advance k 4

/-- `sld.8` (R127). -/
def execSld8 (d a : SReg) (i : BitVec 12) (s : State) : Host.Outcome State Fault Refusal := scalarLoad s 1 d a i
/-- `sld.16` (R127). -/
def execSld16 (d a : SReg) (i : BitVec 12) (s : State) : Host.Outcome State Fault Refusal := scalarLoad s 2 d a i
/-- `sld.32` (R127). -/
def execSld32 (d a : SReg) (i : BitVec 12) (s : State) : Host.Outcome State Fault Refusal := scalarLoad s 4 d a i
/-- `sld.64` (R127). -/
def execSld64 (d a : SReg) (i : BitVec 12) (s : State) : Host.Outcome State Fault Refusal := scalarLoad s 8 d a i
/-- `sst.8` (R127). -/
def execSst8 (d a : SReg) (i : BitVec 12) (s : State) : Host.Outcome State Fault Refusal := scalarStore s 1 d a i
/-- `sst.16` (R127). -/
def execSst16 (d a : SReg) (i : BitVec 12) (s : State) : Host.Outcome State Fault Refusal := scalarStore s 2 d a i
/-- `sst.32` (R127). -/
def execSst32 (d a : SReg) (i : BitVec 12) (s : State) : Host.Outcome State Fault Refusal := scalarStore s 4 d a i
/-- `sst.64` (R127). -/
def execSst64 (d a : SReg) (i : BitVec 12) (s : State) : Host.Outcome State Fault Refusal := scalarStore s 8 d a i

/-- `cinc` (R134): one addition per strand, counted in `st`. -/
def execCinc (d a : SReg) (i : BitVec 12) (s : State) : Host.Outcome State Fault Refusal :=
  issue s fun k x =>
    if 62 ≤ x.st k.wave.id then x.stall k (.full .st)
    else
      x.scalarAccess k a i 8 needW false fun x ps =>
        let parts := ps.map (k.part a i 8 fun t => leBytes 6 ((k.strand t).rd d).toNat)
        (x.addOp k .cinc parts false).advance k 4

/-! ## Monitors (R129, R130) -/

/-- Replies to the requests of `mon` stand at offsets from here on; the reader of the answers that end monitors. -/
abbrev monAsk : Nat := 2 ^ 61
abbrev monReader : Nat := 3

/-- The line that a monitor names: of this package, or of another (DEDUCED, log entry 15). -/
def monLine : Loc → Nat
  | .glob pa => pa / 128
  | .remote pkg pa => (pkg + 1) * 2 ^ 48 + pa / 128
  | _ => 0

/-- The write time of a monitored line: its home's here, or the answer of another package. -/
def Dev.monTime (d : Dev) (k : Issue) (t : Nat) : Loc → Option Nat
  | .glob pa => some (d.lineTimes pa).1
  | .remote _ _ =>
    match d.reply? k.wave.id (monAsk + t) with
    | some (.done x _) => some x
    | _ => none
  | _ => some 0

/-- The request of a strand that has failed, with its cause (R257, R310, R340). -/
def Dev.monFails (d : Dev) (k : Issue) (ps : List (Nat × Loc)) : Option (Nat × Nat) :=
  ps.findSome? fun p =>
    match p.2, d.reply? k.wave.id (monAsk + p.1) with
    | .remote .., some (.failed e) => some (p.1, e)
    | _, _ => none

/-- A `mon` whose request has failed: what the line's home finds is precise, a request that was dropped or timed out is a
cause at the next boundary, as for `sld` (R178, R310, R340). -/
def Dev.monFailed (d : Dev) (k : Issue) (t e : Nat) (ea : Word) : Dev :=
  let d := d.dropReplies k.wave.id
  if e == cRights || e == cPairtimeout then
    let (id, d) := d.fresh
    let part : LaneAcc := ⟨4 * t, ea.toNat, .glob 0, 1, [], .failed e⟩
    ({ d with reports := d.reports ++
      [⟨id, k.wave.id, k.block.id, k.ctx.n, k.gang, k.pc, .notice, [part], k.wave.lts, false⟩] } : Dev).advance k 4
  else d.trapMem k e ea (1#32 <<< (4 * t))

/-- The monitors of the gang's strands, once every line's write time is known; a line of another package is then watched
there (log entry 15). -/
def Dev.armMonitors (d : Dev) (k : Issue) (ps : List (Nat × Loc)) : Dev :=
  let arm (t : Nat) : Option Monitor :=
    (ps.find? (·.1 == t)).map fun p => ⟨monLine p.2, (d.monTime k t p.2).getD 0, none⟩
  let watch (d : Dev) (p : Nat × Loc) : Dev :=
    match p.2 with
    | .remote pkg pa =>
      let (r, d) := d.fresh
      { d with remotes := d.remotes ++ [⟨r, none, some (monReader, 0, monLine p.2), k.ctx.n, pkg, pa,
          .watch (some ((d.monTime k p.1 p.2).getD 0)), k.wave.lts, none⟩] }
    | _ => d
  let d := if ps.all (·.2.isGlob) then d else (ps.foldl watch d).dropReplies k.wave.id
  d.onGang k fun t s => { s with monitor := arm t }

/-- `mon` (R129): checked as `sld.8`; host memory cannot be monitored (R334). It waits for the write time of a line of
another package. -/
def execMon (a : SReg) (i : BitVec 12) (s : State) : Host.Outcome State Fault Refusal :=
  issue s fun k d =>
    d.scalarAccess k a i 1 needR false fun d ps =>
      match d.monFails k ps with
      | some (t, e) => d.monFailed k t e (k.ea a i t)
      | none =>
      if ps.all fun p => (d.monTime k p.1 p.2).isSome then (d.armMonitors k ps).advance k 4
      else
        let ask (d : Dev) (p : Nat × Loc) : Dev :=
          match p.2 with
          | .remote pkg pa => d.askFor k.wave.id (monAsk + p.1) k.ctx.n pkg pa k.wave.lts (.watch none)
          | _ => d
        (ps.foldl ask d).stall k (.full .reply)

/-- `mwait` (R130): the gang goes on as soon as one strand's wait ends, and adopts the time of the write that ended it, the
earliest where several strands' lines have been written (R279; DESIGN CHOICE, log entry 103). -/
def execMwait (a : SReg) (s : State) : Host.Outcome State Fault Refusal :=
  issue s fun k d =>
    let free (t : Nat) : Bool := match (k.strand t).monitor with | none => true | some m => m.hit.isSome
    if k.strands.any free then
      let hits := k.strands.filterMap fun t => (k.strand t).monitor.bind (·.hit)
      let d := d.onWave k (·.adopt ((leastBy id hits).getD 0))
      (d.onGang k fun _ s => { s with monitor := none }).advance k 4
    else
      d.stallEach k fun t =>
        let x := ((k.strand t).rd a).toNat
        .mwait (if x = 0 then none else some (d.clock + x))

/-- MWAIT_TIMEOUT (R130): a strand's timeout has passed, and its gang goes on. -/
def execMwaitTimeout (wave strand : Nat) (s : State) : Host.Outcome State Fault Refusal :=
  onDev s fun d =>
    match d.wave? wave with
    | none => d
    | some w =>
      match w.strands[strand]? with
      | none => d
      | some t =>
        match t.waiting with
        | some ⟨_, .mwait (some x)⟩ =>
          if d.clock < x || w.port.isNone then d
          else d.modWave wave fun w => w.modStrands t.gang fun _ s =>
            { s with pc := s.pc + 4, waiting := none, monitor := none }
        | _ => d

/-- PORT_SUSPEND (R131): every live strand has slept in `mwait` or `yield` for longer than the server's period, or
24,000 cycles. -/
def execPortSuspend (wave : Nat) (s : State) : Host.Outcome State Fault Refusal :=
  onDev s fun d =>
    match d.wave? wave with
    | none => d
    | some w =>
      match w.port, d.block? w.block with
      | some p, some b =>
        let limit := match d.server? b.ctx (.port b.core) with | some s => s.period p | none => 24000
        let asleep (s : Strand) : Bool := s.exited || (match s.waiting with
          | some ⟨t, .mwait _⟩ => decide (t + limit < d.clock)
          | some ⟨t, .yield _⟩ => decide (t + limit < d.clock)
          | _ => false)
        if w.live && w.strands.all asleep then d.modWave wave fun w => { w with port := none } else d
      | _, _ => d

/-! ## Arrival tags (R132, R133) -/

/-- A mask that names a tag the block does not have (R132). -/
def Block.beyondTags (b : Block) (m : Word) : Bool := m >>> b.ntags != 0

/-- The largest time among the set tags of a mask. -/
def Block.tagTime (b : Block) (m : Word) : Nat := maxOf ((b.tags.filter fun t => m.getLsbD t.tag).map (·.time))

def tagWait (s : State) (all : Bool) (a : SReg) : Host.Outcome State Fault Refusal :=
  guarded s (fun k _ => if k.strands.any fun t => k.block.beyondTags ((k.strand t).rd a) then some cRights else none)
    fun k d =>
      if k.strands.all fun t => tagsMet all k.block.arrived ((k.strand t).rd a) then
        (d.onWave k fun w => w.adopt (maxOf (k.strands.map fun t => k.block.tagTime ((k.strand t).rd a)))).advance k 4
      else d.stallEach k fun t => .tags all ((k.strand t).rd a)

/-- `tagwait.any` (R132). -/
def execTagwaitAny (a : SReg) (s : State) : Host.Outcome State Fault Refusal := tagWait s false a
/-- `tagwait.all` (R132). -/
def execTagwaitAll (a : SReg) (s : State) : Host.Outcome State Fault Refusal := tagWait s true a

/-- A strand takes the lowest arrived tag of its mask, if there is one (R133). -/
def Dev.takeTag (d : Dev) (k : Issue) (r a : SReg) (t : Nat) : Dev :=
  match d.block? k.block.id with
  | none => d
  | some b =>
    let m := (k.strand t).rd a
    let put (d : Dev) (x : Nat) : Dev := d.onWave k fun w => w.modStrands (1#8 <<< t) fun _ s => s.wr r (BitVec.ofNat 64 x)
    match (List.range 64).find? fun i => (b.arrived &&& m).getLsbD i with
    | none => put d 64
    | some i =>
      let d := d.modBlock b.id fun b => { b with tags := b.tags.filter (·.tag != i) }
      (put d i).onWave k (·.adopt (b.tagTime (1#64 <<< i)))

/-- `tagffs` (R133): the strands in order, each tag to exactly one. Within a cycle the block's waves take their turns by
index: one that comes after a wave of a higher index issues in a later cycle. -/
def execTagffs (d a : SReg) (s : State) : Host.Outcome State Fault Refusal :=
  guarded s (fun k _ => if k.strands.any fun t => k.block.beyondTags ((k.strand t).rd a) then some cRights else none)
    fun k x =>
      if k.block.tagTurn.1 = x.clock ∧ k.wave.idx < k.block.tagTurn.2 then x.stall k (.cycle x.clock)
      else
        let x := x.modBlock k.block.id fun b => { b with tagTurn := (x.clock, k.wave.idx) }
        (k.strands.foldl (fun x t => x.takeTag k d a t) x).advance k 4

/-! ## Byte barriers (R135 to R138) -/

/-- The place of a byte-barrier object (R136): ALIGN, RIGHTS. -/
def Issue.byteBarAt (k : Issue) (a : SReg) (i : BitVec 12) (t : Nat) : Except Nat Loc :=
  checkLocal k.core .scratch k.block.scratch (k.ea a i t).toNat 16

/-- The first failing strand's cause (DESIGN CHOICE, log entry 24: where strands fail with different causes, the lowest
decides, as R127 has it for scalar accesses). -/
def Issue.byteBarCause (k : Issue) (a : SReg) (i : BitVec 12) : Option Nat :=
  k.strands.findSome? fun t => match k.byteBarAt a i t with | .error e => some e | .ok _ => none

/-- A byte-barrier object (Table 4-2). -/
def barBytes (target landed lts : Nat) : List Byte := leBytes 4 target ++ leBytes 4 landed ++ leBytes 8 lts

/-- `bbinit` and `bbexp` on an address: each strand's update is one event at the core (R135), at the wave's clock; the
strands in rising order (DESIGN CHOICE, log entry 34). -/
def byteBarUpdate (s : State) (d a : SReg) (i : BitVec 12) (f : Nat → Word → List Byte → List Byte) :
    Host.Outcome State Fault Refusal :=
  guarded s (fun k _ => k.byteBarCause a i) fun k x =>
    x.whenSettled k fun x =>
      let one (p : Dev × Nat) (t : Nat) : Dev × Nat :=
        match k.byteBarAt a i t with
        | .error _ => p
        | .ok loc =>
          let (x, ti, _) := p.1.homeRmw k.ctx.n none true loc 16 k.wave.lts fun _ old => f k.wave.lts ((k.strand t).rd d) old
          (x, max p.2 ti)
      let (x, t) := k.strands.foldl one (x, 0)
      (x.onWave k (·.adopt t)).advance k 4

/-- `bbinit` (R136). -/
def execBbinit (d a : SReg) (i : BitVec 12) (s : State) : Host.Outcome State Fault Refusal :=
  byteBarUpdate s d a i fun c x _ => barBytes x.toNat 0 c
/-- `bbexp` on an address (R137). -/
def execBbexp (d a : SReg) (i : BitVec 12) (s : State) : Host.Outcome State Fault Refusal :=
  byteBarUpdate s d a i fun c x old => barBytes (field old 0 4 + x.toNat) (field old 4 4) (max (field old 8 8) c)

/-- `bbwait` on an address (R138). DESIGN CHOICE (log entry 24): where strands name different objects, the gang waits until
each is balanced and adopts the largest LTS. -/
def execBbwait (a : SReg) (i : BitVec 12) (s : State) : Host.Outcome State Fault Refusal :=
  guarded s (fun k _ => k.byteBarCause a i) fun k d =>
    let at_ (t : Nat) : Nat := match k.byteBarAt a i t with | .ok (.loc _ _ x) => x | _ => 0
    let bars := k.strands.map fun t => d.byteBar k.core (at_ t)
    if bars.all fun x => x.1 == x.2.1 then (d.onWave k fun w => w.adopt (maxOf (bars.map (·.2.2)))).advance k 4
    else d.stallEach k fun t => .byteBar (at_ t)

/-! ## Numbered barriers (R36, R139) -/

/-- An unreleased arrival of a wave at a barrier. -/
def Wave.arrivedAt (w : Wave) (n : Nat) : Bool := w.arrivals.any fun a => a.bar == n && a.released.isNone

/-- A wave's arrival is recorded, at the wave's clock; the barrier may release (R36, R139). -/
def Dev.arrive (d : Dev) (k : Issue) (n : Nat) : Dev :=
  let g := k.block.barGen n
  let d := d.onWave k fun w =>
    { w with arrivals := w.arrivals.filter (fun a => !(a.bar == n)) ++ [⟨n, g, w.lts, none⟩] }
  match d.block? k.block.id with
  | some b => d.tryRelease b n
  | none => d

/-- `bbexp #b` (R139). -/
def execBbexpNum (d : SReg) (b : BitVec 4) (s : State) : Host.Outcome State Fault Refusal :=
  guarded s
    (fun k _ => if !k.whole then some cGang else if k.wave.arrivedAt b.toNat then some cBarrier else none)
    fun k x =>
      x.whenSettled k fun x =>
        ((x.arrive k b.toNat).setScalars k d fun _ => BitVec.ofNat 64 (k.block.barGen b.toNat)).advance k 4

/-- `bbwait #b` (R139). -/
def execBbwaitNum (b : BitVec 4) (s : State) : Host.Outcome State Fault Refusal :=
  guarded s (fun k _ => if !k.whole then some cGang else none) fun k d =>
    d.whenSettled k fun d =>
      let n := b.toNat
      let d := if k.wave.arrivals.any (·.bar == n) then d else d.arrive k n
      let mine := ((d.wave? k.wave.id).map (·.arrivals)).getD []
      match (mine.find? (·.bar == n)).bind (·.released) with
      | some t =>
        (d.onWave k fun w => { (w.adopt t) with arrivals := w.arrivals.filter (·.bar != n) }).advance k 4
      | none => d.stall k (.numBar n)

end Sys2Proof.Machine
end

