-- ==== Sys2Proof/Machine/LaneMem.lean ====
section
/-!
DEFINITION. Lane memory instructions: loads and stores, team accesses, typed buffers, atomics, `cmpst`, prefetch, spill and
fill (06: R175 to R189).
-/

namespace Sys2Proof.Machine

/-! ## The check phase (R176) -/

/-- What the check phase finds in each active lane: the address, and the place or the cause. -/
abbrev LanePlaces := List (Nat × Word × Except Nat Loc)

/-- An operation of which every active lane has its place goes on; else the lowest failing lane decides (R176). The page
walks of `glob` addresses are made (R258). -/
def Dev.afterChecks (d : Dev) (k : Issue) (glob : Bool) (ps : LanePlaces) (f : Dev → List (Nat × Word × Loc) → Dev) : Dev :=
  let d := if glob then d.lookedAll k.core k.ctx (ps.map (·.2.1.toNat)) else d
  let bad := ps.filterMap fun (l, e, r) => match r with | .error c => some (l, e, c) | .ok _ => none
  match bad with
  | (_, e, c) :: _ => d.trapMem k c e (bad.foldl (fun (m : LaneMask) x => m ||| (1#32 <<< x.1)) 0)
  | [] => f d (ps.filterMap fun (l, e, r) => match r with | .ok p => some (l, e, p) | .error _ => none)

/-- Places of a global access. -/
def Dev.globPlaces (d : Dev) (k : Issue) (act : LaneMask) (n : Nat) (need : Need) (host : Bool) (ea : Nat → Word) :
    LanePlaces :=
  (lanesOf act).map fun l => (l, ea l, d.checkGlobal k.core k.ctx (ea l).toNat n need host)

/-- Places in a local space of a block (R176, R32). -/
def locPlaces (b : Block) (sp : Space) (act : LaneMask) (n : Nat) (ea : Nat → Word) : LanePlaces :=
  (lanesOf act).map fun l => (l, ea l, checkLocal b.core sp (b.range sp) (ea l).toNat n)

/-- Places in another member's scratchpad (R181): `m` is the lane's strand's member number. -/
def Dev.teamPlaces (d : Dev) (k : Issue) (act : LaneMask) (n : Nat) (m : Nat → Word) (ea : Nat → Word) : LanePlaces :=
  (lanesOf act).map fun l =>
    (l, ea l, match k.block.team.bind d.team? with
      | none => .error cRights
      | some t =>
        match t.cores[(m l).toNat]?, t.ranges[(m l).toNat]? with
        | some core, some r => checkLocal core .scratch r (ea l).toNat n
        | _, _ => .error cRights)

/-! ## Issue of an operation (R26, R177) -/

/-- A coalesced access (R274): line mode, the whole wave, disjoint ranges that cover exactly one aligned line. -/
def Issue.coalesced (k : Issue) (as : List LaneAcc) (n : Nat) : Bool :=
  let line := ((as.head?).map (·.ea / 128)).getD 0
  !k.ctx.atom && k.whole && as.length * n == 128 && as.all (·.ea / 128 == line)
    && (as.map (·.ea)).eraseDups.length == as.length
    && as.all fun a => match a.loc with | .host _ => false | _ => true

/-- A lane operation: the window check, a free count, the check phase, then the operation is outstanding. `regs` are the
lane registers it names; `data` gives a lane's bytes; `glob` tells whether its addresses are translated. -/
def laneOp (s : State) (regs : List Nat) (g : Guard) (ld glob : Bool) (places : Dev → Issue → LaneMask → LanePlaces) (n : Nat)
    (kind : MemKind) (data : Dev → Issue → Nat → List Byte) (plain : Bool) : Host.Outcome State Fault Refusal :=
  issue s fun k d =>
    if !k.inWindow regs then d.trap k cRegrange
    else if (if ld then 62 ≤ d.ld k.wave.id else 62 ≤ d.st k.wave.id) then d.stall k (.full (if ld then .ld else .st))
    else
      d.afterChecks k glob (places d k (k.active g)) fun x ps =>
        let parts := ps.map fun (l, e, p) => (⟨l, e.toNat, p, n, data d k l, .waiting⟩ : LaneAcc)
        let d : Dev := if d.unsettled k regs then { x with free := x.free + 1 } else x
        if parts.isEmpty then d.advance k 8
        else (d.addOp k kind parts (plain && k.coalesced parts n)).advance k 8

/-- A lane register's bytes, or those of a run of registers (R6, R180). -/
def Dev.laneData (d : Dev) (k : Issue) (v : VReg) (regs n l : Nat) : List Byte :=
  ((vregs v regs).flatMap fun r => leBytes 4 (d.source k r l).toNat).take n

/-! ## Loads and stores (R180, R181) -/

/-- A load from global memory at `sB + vA × scale + OFF`. -/
def execLd (w : LdW) (g : Guard) (d : VReg) (m : Addr) (s : State) : Host.Outcome State Fault Refusal :=
  laneOp s (vregs d (loadRegs w) ++ addrRegs m) g true true
    (fun x k act => x.globPlaces k act (loadBytes w) needR true (x.laneAddr k m true)) (loadBytes w) (.load w d)
    (fun _ _ _ => []) true
/-- A store to global memory. -/
def execSt (w : StW) (g : Guard) (d : VReg) (m : Addr) (s : State) : Host.Outcome State Fault Refusal :=
  laneOp s (vregs d (storeRegs w) ++ addrRegs m) g false true
    (fun x k act => x.globPlaces k act (storeBytes w) needW true (x.laneAddr k m true)) (storeBytes w) .store
    (fun x k l => x.laneData k d (storeRegs w) (storeBytes w) l) true

/-- The address of a pointer form: the pair plus OFF (R175). -/
def Dev.pairAddr (d : Dev) (k : Issue) (va : VReg) (off : BitVec 23) (l : Nat) : Word :=
  d.source k (va.toNat + 1) l ++ d.source k va.toNat l + sx off

/-- `ldp` (R180). -/
def execLdp (w : LdW) (g : Guard) (d va : VReg) (off : BitVec 23) (s : State) : Host.Outcome State Fault Refusal :=
  laneOp s (vregs d (loadRegs w) ++ vregs va 2) g true true
    (fun x k act => x.globPlaces k act (loadBytes w) needR true (x.pairAddr k va off)) (loadBytes w) (.load w d)
    (fun _ _ _ => []) false
/-- `stp` (R180). -/
def execStp (w : StW) (g : Guard) (d va : VReg) (off : BitVec 23) (s : State) : Host.Outcome State Fault Refusal :=
  laneOp s (vregs d (storeRegs w) ++ vregs va 2) g false true
    (fun x k act => x.globPlaces k act (storeBytes w) needW true (x.pairAddr k va off)) (storeBytes w) .store
    (fun x k l => x.laneData k d (storeRegs w) (storeBytes w) l) false

/-- `ldl` (R180). -/
def execLdl (w : LdW) (g : Guard) (d : VReg) (m : Addr) (s : State) : Host.Outcome State Fault Refusal :=
  laneOp s (vregs d (loadRegs w) ++ addrRegs m) g true false
    (fun x k act => locPlaces k.block .scratch act (loadBytes w) (x.laneAddr k m true)) (loadBytes w) (.load w d)
    (fun _ _ _ => []) true
/-- `stl` (R180). -/
def execStl (w : StW) (g : Guard) (d : VReg) (m : Addr) (s : State) : Host.Outcome State Fault Refusal :=
  laneOp s (vregs d (storeRegs w) ++ addrRegs m) g false false
    (fun x k act => locPlaces k.block .scratch act (storeBytes w) (x.laneAddr k m true)) (storeBytes w) .store
    (fun x k l => x.laneData k d (storeRegs w) (storeBytes w) l) true

/-- `ldt` (R181): SBASE names the member. -/
def execLdt (w : LdW) (g : Guard) (d : VReg) (m : Addr) (s : State) : Host.Outcome State Fault Refusal :=
  laneOp s (vregs d (loadRegs w) ++ addrRegs m) g true false
    (fun x k act => x.teamPlaces k act (loadBytes w) (fun l => (k.strand (l / 4)).rd m.sb) (x.laneAddr k m false))
    (loadBytes w) (.load w d) (fun _ _ _ => []) false
/-- `stt` (R181). -/
def execStt (w : StW) (g : Guard) (d : VReg) (m : Addr) (s : State) : Host.Outcome State Fault Refusal :=
  laneOp s (vregs d (storeRegs w) ++ addrRegs m) g false false
    (fun x k act => x.teamPlaces k act (storeBytes w) (fun l => (k.strand (l / 4)).rd m.sb) (x.laneAddr k m false))
    (storeBytes w) .store (fun x k l => x.laneData k d (storeRegs w) (storeBytes w) l) false

/-! ## Typed buffers (R182) -/

/-- A load from a typed buffer: complete at issue, at the wave's clock; an uncorrectable word is INTEGRITY at once.
DESIGN CHOICE (log entry 103): of the old and new bytes that R183 allows beside an outstanding operation, the access meets
the state as it stands. -/
def bufLoad (s : State) (sp : Space) (g : Guard) (d : VReg) (m : Addr) : Host.Outcome State Fault Refusal :=
  issue s fun k x =>
    if !k.inWindow (d.toNat :: addrRegs m) then x.trap k cRegrange
    else
      x.whenSettled k fun x =>
        x.afterChecks k false (locPlaces k.block sp (k.active g) 4 (x.laneAddr k m true)) fun x ps =>
          let rs := ps.map fun (l, e, p) => (l, e, x.peekLoc k.ctx.n p 4)
          let bad := rs.filter fun r => r.2.2.isNone
          match bad with
          | (_, e, _) :: _ => x.trapMem k cIntegrity e (bad.foldl (fun (m : LaneMask) r => m ||| (1#32 <<< r.1)) 0)
          | [] =>
            let one (p : Dev × Nat) (q : Nat × Word × Loc) : Dev × Nat :=
              let (x, t, _) := p.1.homeLoad k.ctx.n q.2.2 4 k.wave.lts 0
              (x, max p.2 t)
            let free := x.unsettled k (addrRegs m)
            let (x, t) := ps.foldl one (x, 0)
            let x : Dev := if free then { x with free := x.free + 1 } else x
            let val (l : Nat) : Lane := lane32 (leNat (((rs.find? (·.1 == l)).bind (·.2.2)).getD []))
            (x.onWave k fun w => (w.setLanes (k.active g) d.toNat val).adopt t).advance k 8

/-- A store to a typed buffer: complete at issue (R182), it counts for its block's trigger event and end (R144, R145). -/
def bufStore (s : State) (sp : Space) (g : Guard) (d : VReg) (m : Addr) : Host.Outcome State Fault Refusal :=
  issue s fun k x =>
    if !k.inWindow (d.toNat :: addrRegs m) then x.trap k cRegrange
    else
      x.whenSettled k fun x =>
        x.afterChecks k false (locPlaces k.block sp (k.active g) 4 (x.laneAddr k m true)) fun x ps =>
          let one (p : Dev × Nat) (q : Nat × Word × Loc) : Dev × Nat :=
            let (y, t, _) := p.1.homeWrite k.ctx.n none true q.2.2 k.wave.lts fun _ => x.laneData k d 1 4 q.1
            (y, max p.2 t)
          let (y, t) := ps.foldl one (x, 0)
          let y : Dev := if x.unsettled k (d.toNat :: addrRegs m) then { y with free := y.free + 1 } else y
          ((y.onWave k (·.adopt t)).noteDone 0 k.wave.id k.block.id k.gang t).advance k 8

/-- `wld` (R182). -/
def execWld (g : Guard) (d : VReg) (m : Addr) (s : State) : Host.Outcome State Fault Refusal := bufLoad s .wbuf g d m
/-- `wst` (R182). -/
def execWst (g : Guard) (d : VReg) (m : Addr) (s : State) : Host.Outcome State Fault Refusal := bufStore s .wbuf g d m
/-- `ald` (R182). -/
def execAld (g : Guard) (d : VReg) (m : Addr) (s : State) : Host.Outcome State Fault Refusal := bufLoad s .abuf g d m
/-- `ast` (R182). -/
def execAst (g : Guard) (d : VReg) (m : Addr) (s : State) : Host.Outcome State Fault Refusal := bufStore s .abuf g d m
/-- `accld` (R182). -/
def execAccld (g : Guard) (d : VReg) (m : Addr) (s : State) : Host.Outcome State Fault Refusal := bufLoad s .acc g d m
/-- `accst` (R182). -/
def execAccst (g : Guard) (d : VReg) (m : Addr) (s : State) : Host.Outcome State Fault Refusal := bufStore s .acc g d m

/-! ## Atomics (R184, R185) -/

/-- Operand of an atomic lane: v or the 64-bit pair in 8 bytes, then what `cas` puts (Table 6-3). -/
def Dev.atData (d : Dev) (k : Issue) (op : AtOp) (v : VReg) (l : Nat) : List Byte :=
  let x := (d.source k v.toNat l).toNat
  let y := if atRegs op = 2 then (d.source k (v.toNat + 1) l).toNat else 0
  match op with
  | .addI64 => leBytes 8 (x + y * 2 ^ 32)
  | _ => leBytes 8 x ++ leBytes 4 y

/-- `atom` (R184). -/
def execAtom (op : AtOp) (g : Guard) (d : VReg) (m : Addr) (s : State) : Host.Outcome State Fault Refusal :=
  laneOp s (vregs d (atRegs op) ++ addrRegs m) g true true
    (fun x k act => x.globPlaces k act (atBytes op) needRW false (x.laneAddr k m true)) (atBytes op) (.atom op d)
    (fun x k l => x.atData k op d l) false
/-- `atl` (R184). -/
def execAtl (op : AtOp) (g : Guard) (d : VReg) (m : Addr) (s : State) : Host.Outcome State Fault Refusal :=
  laneOp s (vregs d (atRegs op) ++ addrRegs m) g true false
    (fun x k act => locPlaces k.block .scratch act (atBytes op) (x.laneAddr k m true)) (atBytes op) (.atom op d)
    (fun x k l => x.atData k op d l) false
/-- `red` (R185). -/
def execRedAtomic (op : RedOp) (g : Guard) (d : VReg) (m : Addr) (s : State) : Host.Outcome State Fault Refusal :=
  let op := RedAtomic op
  laneOp s (vregs d (atRegs op) ++ addrRegs m) g false true
    (fun x k act => x.globPlaces k act (atBytes op) needRW false (x.laneAddr k m true)) (atBytes op) (.red op)
    (fun x k l => x.atData k op d l) false

/-! ## Compressing stores (R186) -/

/-- `cmpst` and `cmpst.l`: the pointer word Q is checked in every active lane and updated once; the lowest strand of the
gang gives sB (DEDUCED, log entry 16). DESIGN CHOICE (log entry 103): a failure of Q found at its home is recorded with Q's
address and the lowest active lane. -/
def compress (s : State) (local_ : Bool) (g : Guard) (d : VReg) (sb : SReg) (off : BitVec 23) :
    Host.Outcome State Fault Refusal :=
  issue s fun k x =>
    let act := k.active g
    let q : Word := k.rd sb + sx off
    if !k.inWindow [d.toNat] then x.trap k cRegrange
    else if 62 ≤ x.st k.wave.id then x.stall k (.full .st)
    else
      let places := if local_ then locPlaces k.block .scratch act 8 (fun _ => q)
        else x.globPlaces k act 8 needW false (fun _ => q)
      x.afterChecks k (!local_) places fun z ps =>
        match ps with
        | [] => z.advance k 8
        | (l, e, p) :: _ =>
          let vals := (lanesOf act).map fun l => (l, x.source k d.toNat l)
          let y : Dev := if x.unsettled k [d.toNat] then { z with free := z.free + 1 } else z
          (y.addOp k (.cmpst local_ k.block.scratch.len vals) [⟨l, e.toNat, p, 8, [], .waiting⟩] false).advance k 8

/-- `cmpst` (R186). -/
def execCmpst (g : Guard) (d : VReg) (sb : SReg) (off : BitVec 23) (s : State) : Host.Outcome State Fault Refusal :=
  compress s false g d sb off
/-- `cmpst.l` (R186). -/
def execCmpstL (g : Guard) (d : VReg) (sb : SReg) (off : BitVec 23) (s : State) : Host.Outcome State Fault Refusal :=
  compress s true g d sb off

/-! ## Prefetch (R187) -/

/-- The reader of the lines that `pf` asks other packages for; its requests name the core. -/
abbrev pfReader : Nat := 4

/-- A line of another package is asked for, once, to be kept in a core's L1 (R187, R248, R272). The request is no event of the
wave's order. -/
def Dev.askLine (d : Dev) (core : Nat) (x : Ctx) (pkg pa : Nat) : Dev :=
  let line := pa / 128 * 128
  if d.remotes.any fun r => r.job == some (pfReader, core, line) && r.ctx == x.n && r.pkg == pkg then d
  else
    let (r, d) := d.fresh
    { d with remotes := d.remotes ++ [⟨r, none, some (pfReader, core, line), x.n, pkg, line, .read 128, 0, none⟩] }

/-- `pf`: the lines of lanes whose address passes come into the L1 and the LLC; those of another package when they are sent. -/
def execPf (g : Guard) (m : Addr) (s : State) : Host.Outcome State Fault Refusal :=
  issue s fun k x =>
    if !k.inWindow (addrRegs m) then x.trap k cRegrange
    else
      let one (z : Dev) (l : Nat) : Dev :=
        let y := z.looked k.core k.ctx (x.laneAddr k m true l).toNat
        match x.checkGlobal k.core k.ctx (x.laneAddr k m true l).toNat 1 needR false with
        | .ok (.glob pa) => (y.touchLine k.ctx.n pa k.ctx.n).l1Fill k.core k.ctx.n pa
        | .ok (.remote pkg pa) => y.askLine k.core k.ctx pkg pa
        | _ => y
      let y := (lanesOf (k.active g)).foldl one x
      let y : Dev := if x.unsettled k (addrRegs m) then { y with free := y.free + 1 } else y
      y.advance k 8

/-! ## Spill and fill (R188, R189) -/

/-- A value less the base, as a signed number. -/
def spillDelta (b x : Lane) : Int := (x - b).toInt

/-- The format byte of the first form that represents the values (R188). -/
def spillForm (vs : LaneVec) : Nat :=
  let b := (vs[0]?).getD 0
  let stride := (vs[1]?).getD 0 - b
  let small (n : Int) : Bool := vs.all fun x => decide (-n ≤ spillDelta b x ∧ spillDelta b x < n)
  if vs.all (· == b) then 1
  else if (vs.zipIdx.all fun (x, l) => x == b + lane32 l * stride) then 4
  else if small 128 then 2
  else if small 32768 then 3 else 0

/-- What a slot holds; format 1 with base 0 where nothing was spilled. -/
def Wave.slot (w : Wave) (n : Nat) : SpillSlot := (w.spill.find? (·.slot == n)).getD ⟨n, 1, List.replicate 32 0, 0⟩

/-- `spill`: every lane of the gang, whatever `m0` holds (R189). -/
def execSpill (d : VReg) (slot : BitVec 8) (s : State) : Host.Outcome State Fault Refusal :=
  issue s fun k x =>
    if !k.inWindow [d.toNat] then x.trap k cRegrange
    else if 62 ≤ x.st k.wave.id then x.stall k (.full .st)
    else
      let vs := (k.wave.slot slot.toNat).vals.mapIdx fun l old => if k.lanes.getLsbD l then x.source k d.toNat l else old
      let new : SpillSlot := ⟨slot.toNat, spillForm vs, vs, 0⟩
      let y : Dev := if x.unsettled k [d.toNat] then { x with free := x.free + 1 } else x
      let y := y.onWave k fun w => { w with spill := upsert (·.slot == slot.toNat) new (fun _ => new) w.spill }
      (y.addOp k .spill [] false).advance k 8

/-- `fill` (R189, R262): a format byte above 4 or a failed carried check is reported, and nothing is written. -/
def execFill (d : VReg) (slot : BitVec 8) (s : State) : Host.Outcome State Fault Refusal :=
  issue s fun k x =>
    if !k.inWindow [d.toNat] then x.trap k cRegrange
    else if 62 ≤ x.ld k.wave.id then x.stall k (.full .ld)
    else
      let sl := k.wave.slot slot.toNat
      let part (l : Nat) : LaneAcc :=
        ⟨l, 0, .glob 0, 4, [], if sl.fmt ≤ 4 ∧ sl.flaw = 0 then .done 0 (leBytes 4 ((sl.vals[l]?).getD 0).toNat) else .failed cIntegrity⟩
      (x.addOp k (.fill d slot.toNat k.lanes) ((lanesOf k.lanes).map part) false).advance k 8

end Sys2Proof.Machine
end

