-- ==== Sys2Proof/Machine/Copies.lean ====
section
/-!
DEFINITION. Tensor layout records (03: R99, R100), copies and their pieces (06: R191 to R197), and copy faults (R198 to
R200). A copy's pieces move between issue and landing; what lies on another package or in host memory travels by requests.
-/

namespace Sys2Proof.Machine

/-! ## Layout records (R99, R100, Tables 3-10 and 3-11) -/

/-- Bytes per element; 0 for E2M1 and LC2. -/
def elemBytes (e : Nat) : Nat := ([2, 2, 1, 1, 0, 0, 4, 1, 2, 8][e]?).getD 0
/-- Bytes of a scaled block of 32 elements (Table 2-5, R59). -/
def blockBytes (e : Nat) : Nat := if e = 4 then 17 else if e = 5 then 9 else 33

/-- A valid layout record (R100). -/
def Layout.parse (bs : List Byte) : Option Layout :=
  let l : Layout := {
    base := field bs 0 8
    dims := (List.range 5).map fun i => field bs (8 + 4 * i) 4
    elem := field bs 0x1C 1
    rank := field bs 0x1D 1
    scaled := field bs 0x1E 1 = 1
    strides := (List.range 4).map fun i => field bs (0x20 + 5 * i) 5
    box := (List.range 5).map fun i => field bs (0x34 + 2 * i) 2 }
  let unit := if l.scaled ∨ l.elem = 4 then 1 else elemBytes l.elem
  let used := l.strides.take (l.rank - 1)
  if l.base < 2 ^ 56 && zeroField bs 0x1F 1 && zeroField bs 0x3E 2 && field bs 0x1E 1 < 2
      && decide (l.elem < 10) && decide (1 ≤ l.rank ∧ l.rank ≤ 5)
      && l.dims.all (0 < ·) && l.box.all (0 < ·)
      && (l.dims.drop l.rank).all (· == 1) && (l.box.drop l.rank).all (· == 1)
      && (if l.elem = 5 then l.scaled else l.elem = 2 ∨ l.elem = 3 ∨ l.elem = 4 ∨ !l.scaled)
      && (!l.scaled || (l.dims.headD 0 % 32 == 0 && l.box.headD 0 % 32 == 0))
      && l.base % unit == 0 && used.all (· % unit == 0)
  then some l else none

def Layout.dim (l : Layout) (i : Nat) : Nat := (l.dims[i]?).getD 1
def Layout.bx (l : Layout) (i : Nat) : Nat := (l.box[i]?).getD 1
def Layout.stride (l : Layout) (i : Nat) : Nat := (l.strides[i - 1]?).getD 0

/-- The offset of element i0 in its row (R193), for an element that starts a byte or a block. -/
def Layout.off0 (l : Layout) (i0 : Nat) : Nat :=
  if l.scaled then i0 / 32 * blockBytes l.elem else if l.elem = 4 then i0 / 2 else i0 * elemBytes l.elem

/-- Bytes of a row of the image, and of the whole image (R193). -/
def Layout.rowBytes (l : Layout) : Nat := l.off0 (l.bx 0)
def Layout.imageBytes (l : Layout) : Nat := l.rowBytes * l.bx 1 * l.bx 2 * l.bx 3 * l.bx 4

/-- The address of an image byte for a box at `cs`, and whether only its low nibble lies inside; nothing outside the
tensor (R193). -/
def Layout.byteAddr (l : Layout) (cs : List Nat) (b : Nat) : Option (Nat × Bool) :=
  let co (i : Nat) : Nat := (cs[i]?).getD 0
  let r := b / l.rowBytes
  let x := b % l.rowBytes
  let i1 := co 1 + r % l.bx 1
  let i2 := co 2 + r / l.bx 1 % l.bx 2
  let i3 := co 3 + r / (l.bx 1 * l.bx 2) % l.bx 3
  let i4 := co 4 + r / (l.bx 1 * l.bx 2 * l.bx 3)
  let first := if l.scaled then co 0 + x / blockBytes l.elem * 32
    else if l.elem = 4 then co 0 + 2 * x else co 0 + x / elemBytes l.elem
  if first < l.dim 0 ∧ i1 < l.dim 1 ∧ i2 < l.dim 2 ∧ i3 < l.dim 3 ∧ i4 < l.dim 4 then
    some ((l.base + l.off0 (co 0) + x + l.stride 1 * i1 + l.stride 2 * i2 + l.stride 3 * i3 + l.stride 4 * i4) % 2 ^ 64,
      !l.scaled && l.elem = 4 && decide (l.dim 0 ≤ first + 1))
  else none

/-! ## Runs of image bytes -/

/-- Image bytes that lie together in one sector: image offset, address, length, and whether only a low nibble counts. -/
structure Run where
  off  : Nat
  addr : Nat
  n    : Nat
  half : Bool
deriving DecidableEq, Repr

/-- The runs of some image bytes. -/
def runsOf (f : Nat → Option (Nat × Bool)) : List Nat → List Run
  | [] => []
  | b :: bs =>
    match f b, runsOf f bs with
    | none, rs => rs
    | some (a, h), r :: rs =>
      if !h && !r.half && r.off == b + 1 && r.addr == a + 1 && r.addr / 32 == a / 32
      then ⟨b, a, r.n + 1, false⟩ :: rs else ⟨b, a, 1, h⟩ :: r :: rs
    | some (a, h), [] => [⟨b, a, 1, h⟩]

/-- The local space of a form, and whether the copy writes it (R191). -/
def CopyForm.local_ : CopyForm → Option (Space × Bool)
  | .g2a => some (.abuf, true)
  | .g2w => some (.wbuf, true)
  | .a2g => some (.abuf, false)
  | .g2l => some (.scratch, true)
  | .l2g => some (.scratch, false)
  | .g2g => none
  | .g2gStamp => none

def CopyForm.twoBoxes : CopyForm → Bool
  | .g2g => true
  | .g2gStamp => true
  | _ => false

/-- Pieces of a copy whose records have been read (R195). -/
def Copy.size (c : Copy) : Nat := (c.layA.map (·.imageBytes)).getD 0
def Copy.count (c : Copy) : Nat := (c.size + 511) / 512
def Copy.pieceBytes (c : Copy) (p : Nat) : List Nat := (List.range (min 512 (c.size - 512 * p))).map (512 * p + ·)

/-- Runs of a piece on the side of a record, and in the block's local range (R193). -/
def boxRuns (l : Option Layout) (coords : List Nat) (bs : List Nat) : List Run :=
  match l with
  | some l => runsOf (l.byteAddr coords) bs
  | none => []
def localRuns (b : Block) (sp : Space) (off : Nat) (bs : List Nat) : List Run :=
  runsOf (fun x => some ((b.range sp).base + off + x, false)) bs

/-! ## Sectors of a piece (R275): the runs of one sector are one event -/

/-- The runs that lie in one sector, sector by sector. -/
def sectorRuns (rs : List Run) : List (List Run) :=
  rs.foldl (fun l r => upsert (fun g => g.head?.any fun x => x.addr / 32 == r.addr / 32) [] (· ++ [r]) l) []

/-- The first address of a sector's runs, and the bytes from there to the last. -/
def runsAt (g : List Run) : Nat := (leastBy id (g.map (·.addr))).getD 0
def runsLen (g : List Run) : Nat := maxOf (g.map fun r => r.addr + r.n) - runsAt g

/-- What a sector's runs write from their first address on, and the bits that are written. -/
def runsBytes (g : List Run) (data : Nat → Byte) : List Byte × List Byte :=
  let at_ (i : Nat) : Byte × Byte :=
    match g.find? fun r => decide (r.addr ≤ runsAt g + i ∧ runsAt g + i < r.addr + r.n) with
    | some r => (data (r.off + (runsAt g + i - r.addr)), if r.half then 0x0F else 0xFF)
    | none => (0, 0)
  let l := (List.range (runsLen g)).map at_
  (l.map (·.1), l.map (·.2))

/-- New bytes over old ones, in the bits of a mask. -/
def overlay (new mask old : List Byte) : List Byte :=
  (old.zip (new.zip mask)).map fun x => (x.1 &&& ~~~x.2.2) ||| (x.2.1 &&& x.2.2)
def allBits (mask : List Byte) : Bool := mask.all (· == 0xFF)

/-- A partial sector whose stored check fails cannot be merged (R261). -/
def Dev.mergeOk (d : Dev) (slot pa n : Nat) : Bool :=
  (sectorsOf pa n).all fun i => wholeSector pa n i || d.sectorOk slot i
def Dev.sectorBad (d : Dev) (slot : Nat) (loc : Loc) (mask : List Byte) : Bool :=
  match loc with
  | .glob pa => if allBits mask then !d.mergeOk slot pa mask.length else !d.sectorOk slot (pa / 32)
  | _ => false

/-- Bytes of one sector are written at a home here in one event, at clock `t`: the event's time. -/
def Dev.writeSector (d : Dev) (slot : Nat) (loc : Loc) (t : Nat) (bs mask : List Byte) : Dev × Nat :=
  if allBits mask then let (d, ti, _) := d.homeWrite slot none true loc t fun _ => bs; (d, max t ti)
  else let (d, ti, _) := d.homeRmw slot none true loc bs.length t fun _ => overlay bs mask; (d, max t ti)

/-- The record whose box is read, and the one whose box is written. -/
def Copy.readBox (c : Copy) : Option Layout :=
  match c.form.local_ with | some (_, false) => none | _ => c.layA
def Copy.writeBox (c : Copy) : Option Layout :=
  match c.form.local_ with | some (_, true) => none | some (_, false) => c.layA | none => c.layB

/-! ## Issue (R191, R192) -/

/-- The low and high halves of a scalar register. -/
def halvesOf (x : Word) : List Nat := [x.toNat % 2 ^ 32, x.toNat / 2 ^ 32]

/-- The coordinates that sC names (R191). -/
def Issue.coords (k : Issue) (sc : SReg) : List Nat :=
  if sc = 0 then [0, 0, 0, 0, 0] else (halvesOf (k.rd sc) ++ halvesOf (k.rd (sc + 1)) ++ halvesOf (k.rd (sc + 2))).take 5

/-- The checks of R192, precise: the tag, the byte barrier, the stamp. -/
def Dev.copyChecks (d : Dev) (k : Issue) (form : CopyForm) (o : CopyOps) : Except (Nat × Bool) (Option Nat) :=
  let sd := (k.rd o.sd).toNat
  if o.tag.any fun t => k.block.ntags ≤ t.toNat then .error (cRights, false)
  else if form = .g2gStamp then
    match d.checkGlobal k.core k.ctx sd 8 needW false with
    | .error e => .error (e, true)
    | .ok _ => .ok none
  else if o.sd = 0 then .ok none
  else
    match checkLocal k.core .scratch k.block.scratch sd 16 with
    | .error e => .error (e, false)
    | .ok _ => .ok (some (k.block.scratch.base + sd))

/-- A tag bit is cleared (R132, R192). -/
def Dev.clearTag (d : Dev) (block : Nat) (t : Option (BitVec 6)) : Dev :=
  match t with
  | none => d
  | some t => d.modBlock block fun b => { b with tags := b.tags.filter (·.tag != t.toNat) }

/-- A copy is issued: it counts in `cp`, clears its tag and goes on without the wave. DESIGN CHOICE (log entry 103): a stamp
that fails its check is recorded with the first lane of the gang's lowest strand. -/
def copyIssue (s : State) (form : CopyForm) (o : CopyOps) : Host.Outcome State Fault Refusal :=
  issue s fun k x =>
    let d := if form = .g2gStamp then x.looked k.core k.ctx (k.rd o.sd).toNat else x
    match x.copyChecks k form o with
    | .error (e, true) => d.trapMem k e (k.rd o.sd) (1#32 <<< (4 * lowStrand k.gang))
    | .error (e, false) => d.trap k e
    | .ok bar =>
      if 30 ≤ d.cp k.wave.id || d.checkerFull k.ctx.n then d.stall k (.full .cp)
      else
        d.whenSettled k fun d =>
          let (id, d) := d.fresh
          let c : Copy := {
            form := form, recA := (k.rd o.sa).toNat, recB := (k.rd o.sb).toNat, off := (k.rd o.sb).toNat
            coords := k.coords o.sc, tag := o.tag.map (·.toNat), bar := bar
            stamp := if form = .g2gStamp then some (k.rd o.sd).toNat else none
            gang := k.gang, pc := k.pc, layA := none, layB := none, next := 0, pieces := [], whole := none
            skipAll := false, skipped := false, time := 0 }
          let d := d.addJob {
            id := id, ctx := k.ctx.n, block := k.block.id, wave := k.wave.id, pc := k.pc, gang := k.gang
            kind := .copy c, foot := [], entered := false, after := [], clock := k.wave.lts }
          (d.clearTag k.block.id o.tag).advance k 12

/-- `tcpy.g2a` (R191). -/
def execTcpyG2a (o : CopyOps) (s : State) : Host.Outcome State Fault Refusal := copyIssue s .g2a o
/-- `tcpy.g2w` (R191). -/
def execTcpyG2w (o : CopyOps) (s : State) : Host.Outcome State Fault Refusal := copyIssue s .g2w o
/-- `tcpy.a2g` (R191). -/
def execTcpyA2g (o : CopyOps) (s : State) : Host.Outcome State Fault Refusal := copyIssue s .a2g o
/-- `tcpy.g2l` (R191). -/
def execTcpyG2l (o : CopyOps) (s : State) : Host.Outcome State Fault Refusal := copyIssue s .g2l o
/-- `tcpy.l2g` (R191). -/
def execTcpyL2g (o : CopyOps) (s : State) : Host.Outcome State Fault Refusal := copyIssue s .l2g o
/-- `tcpy.g2g` (R191). -/
def execTcpyG2g (o : CopyOps) (s : State) : Host.Outcome State Fault Refusal := copyIssue s .g2g o
/-- `tcpy.g2g.stamp` (R191). -/
def execTcpyG2gStamp (o : CopyOps) (s : State) : Host.Outcome State Fault Refusal := copyIssue s .g2gStamp o

/-! ## A job's copy and its requests -/

def Job.copy? (j : Job) : Option Copy := match j.kind with | .copy c => some c | _ => none
def Dev.modCopy (d : Dev) (id : Nat) (f : Copy → Copy) : Dev :=
  d.modJob id fun j => match j.kind with | .copy c => { j with kind := .copy (f c) } | _ => j

/-- The state of a piece is set; a piece that had none joins. -/
def Copy.setPiece (c : Copy) (p : Nat) (st : PieceSt) : Copy :=
  { c with pieces := upsert (·.1 == p) (p, st) (fun _ => (p, st)) c.pieces }
def Copy.dropPiece (c : Copy) (p : Nat) : Copy := { c with pieces := c.pieces.filter (·.1 != p) }
def Copy.piece? (c : Copy) (p : Nat) : Option PieceSt := (c.pieces.find? (·.1 == p)).map (·.2)

/-- The bytes that replies have brought for image offsets of a piece. -/
def Copy.got (c : Copy) (p off n : Nat) : Option (List Byte) :=
  match c.piece? p with
  | some (.issued got _) =>
    (got.find? fun g => decide (g.1 ≤ off ∧ off + n ≤ g.1 + g.2.length)).map fun g => (g.2.drop (off - g.1)).take n
  | _ => none

/-- A request of a job to another package or the host (R272, R334). -/
def Dev.jobRequest (d : Dev) (j : Job) (piece off : Nat) (loc : Loc) (ask : RemoteAsk) : Dev :=
  let (r, d) := d.fresh
  match loc with
  | .remote pkg pa =>
    { d with remotes := d.remotes ++ [⟨r, none, some (j.id, piece, off), j.ctx, pkg, pa, ask, j.clock, none⟩] }
  | .host iova =>
    let fn := ((d.ctx? j.ctx).map (·.fn)).getD 0
    match ask with
    | .read n =>
      let d : Dev := { d with
        remotes := d.remotes ++ [⟨r, none, some (j.id, piece, off), j.ctx, 1023, iova, ask, j.clock, some d.clock⟩] }
      d.send (.hostRead r fn iova n)
    | .write bs _ => d.send (.hostWrite fn iova bs)
    | _ => d
  | _ => d

/-- A piece still waits for replies. -/
def Dev.awaits (d : Dev) (job piece : Nat) : Bool :=
  d.remotes.any fun r => match r.job with | some (j, p, _) => j == job && p == piece | none => false

/-- The place of an address of a job, with the rights it needs. -/
def Dev.jobPlace (d : Dev) (core : Nat) (c : Ctx) (va : Nat) (need : Need) : Except Nat Loc :=
  if 2 ^ 56 ≤ va then .error cXlate else d.access core c va need

/-! ## Records and the footprint (R194, R195, R276) -/

/-- A record's 64 bytes: read, which raises the job's clock to the read's time, refused with a cause, or asked for elsewhere;
host memory once its translation has come (R194, R277, R334). -/
def Dev.recordBytes (d : Dev) (j : Job) (c : Copy) (b : Block) (x : Ctx) (piece addr : Nat) :
    Dev × Option (Except Nat (List Byte)) :=
  if addr % 64 ≠ 0 then (d, some (.error cAlign))
  else
    let here := d.looked b.core x addr
    match d.jobPlace b.core x addr needR with
    | .error e => (here, some (.error e))
    | .ok (.glob pa) =>
      let (d, t, r) := here.homeLoad x.n (.glob pa) 64 j.clock 1
      (d.modJob j.id fun j => { j with clock := max j.clock t },
        some (match r with | some bs => .ok bs | none => .error cIntegrity))
    | .ok loc =>
      match c.piece? piece, loc with
      | some (.fault e _), _ => (d, some (.error e))
      | some (.issued [(_, bs)] _), _ => (d, some (.ok bs))
      | _, .host a =>
        if d.awaits j.id piece then (d, none)
        else if d.atsReady x.fn a then (here.jobRequest j piece 0 loc (.read 64), none)
        else (here.askAts x.fn a, none)
      | _, _ => if d.awaits j.id piece then (d, none) else (here.jobRequest j piece 0 loc (.read 64), none)

/-- The conditions of R194 on valid records: a cause and its side. DESIGN CHOICE (log entry 103): what concerns no single
side counts as the read side, with record sA. -/
def Copy.boxCheck (c : Copy) (b : Block) (la : Layout) (lb : Option Layout) : Option (Nat × Bool) :=
  let c0 := (c.coords[0]?).getD 0
  if 2 ^ 25 < la.imageBytes || (la.scaled && c0 % 32 != 0)
      || (!la.scaled && la.elem == 4 && (c0 % 2 == 1 || la.bx 0 % 2 == 1)) then some (cObject, false)
  else if lb.any fun lb => la.elem != lb.elem || la.scaled != lb.scaled || la.box != lb.box then some (cObject, false)
  else
    match c.form.local_ with
    | none => none
    | some (sp, w) =>
      if c.off % 16 ≠ 0 then some (cAlign, w)
      else if (b.range sp).len < c.off + la.imageBytes then some (cRights, w) else none

/-- The global side of a footprint: from its lowest byte to its highest (R276). -/
def boxFoot (l : Layout) (coords : List Nat) (write : Bool) : List Foot :=
  let co (i : Nat) : Nat := (coords[i]?).getD 0
  let inside := (List.range 5).all fun i => decide (co i < l.dim i)
  if !inside then []
  else
    let last (i : Nat) : Nat := min (co i + l.bx i) (l.dim i) - 1
    let row (i : Nat) : Nat := l.stride 1 * (if i = 0 then co 1 else last 1) + l.stride 2 * (if i = 0 then co 2 else last 2)
      + l.stride 3 * (if i = 0 then co 3 else last 3) + l.stride 4 * (if i = 0 then co 4 else last 4)
    let lo := l.base + l.off0 (co 0) + row 0
    let hi := l.base + l.off0 (last 0) + row 1 + max (elemBytes l.elem) (if l.scaled then blockBytes l.elem else 1)
    [⟨none, lo, hi, write⟩]

/-- A copy's footprint (R195). -/
def Copy.foot (c : Copy) (b : Block) : List Foot :=
  (match c.readBox with | some l => boxFoot l c.coords false | none => [])
  ++ (match c.writeBox with | some l => boxFoot l c.coords true | none => [])
  ++ (match c.form.local_ with
      | some (sp, w) => [⟨some (b.core, sp), (b.range sp).base + c.off, (b.range sp).base + c.off + c.size, w⟩]
      | none => [])

/-- FOOTPRINT_ENTER of a copy: its records are read and checked, and its footprint is ordered. With a whole-copy fault its
footprint is not known: it has not entered, and later jobs of the context wait behind it (DEDUCED, log entry 104); what is
known of its size stays (R200). -/
def Dev.enterCopy (d : Dev) (j : Job) (c : Copy) : Dev :=
  match d.block? j.block, d.ctx? j.ctx with
  | some b, some x =>
    let bare (c : Copy) : Copy := (c.dropPiece recPieceA).dropPiece recPieceB
    let fail (d : Dev) (w : Nat × Bool) (la lb : Option Layout) : Dev :=
      d.modCopy j.id fun c => { bare c with whole := some w, layA := la, layB := lb }
    let done (d : Dev) (la : Layout) (lb : Option Layout) : Dev :=
      let c : Copy := { bare c with layA := some la, layB := lb }
      match c.boxCheck b la lb with
      | some w => fail d w (some la) lb
      | none => (d.modCopy j.id fun _ => c).enterJob j.id (c.foot b)
    match d.recordBytes j c b x recPieceA c.recA with
    | (d, none) => d
    | (d, some (.error e)) => fail d (e, false) none none
    | (d, some (.ok bs)) =>
      match Layout.parse bs with
      | none => fail d (cObject, false) none none
      | some la =>
        if !c.form.twoBoxes then done d la none
        else
          match d.recordBytes j c b x recPieceB c.recB with
          | (d, none) => d
          | (d, some (.error e)) => fail d (e, true) (some la) none
          | (d, some (.ok bs)) =>
            match Layout.parse bs with
            | none => fail d (cObject, true) (some la) none
            | some lb => done d la (some lb)
  | _, _ => d

/-- The checker holds its limit of a context's jobs (R276). -/
def Dev.checkerHolds (d : Dev) (ctx : Nat) : Bool := decide (1024 ≤ (d.jobs.filter fun j => j.ctx == ctx && j.entered).length)

/-- FOOTPRINT_ENTER (R276): jobs of a context enter in their order, up to the checker's limit. -/
def execFootprintEnter (job : Nat) (s : State) : Host.Outcome State Fault Refusal :=
  onDev s fun d =>
    match d.job? job with
    | none => d
    | some j =>
      if j.entered || d.checkerHolds j.ctx || (jobsBefore job d.jobs).any fun i => i.ctx == j.ctx && !i.entered then d
      else
        match j.kind with
        | .copy c => if c.whole.isSome || c.skipAll then d else d.enterCopy j c
        | _ => d.enterJob job j.foot

/-! ## Pieces (R195, R291) -/

/-- The next piece that a copy may issue: one that is to be issued again, or the next in order; none while the copy
waits at a fault (R198). -/
def Copy.nextPiece (c : Copy) : Option Nat :=
  let stopped := c.whole.isSome || c.skipAll || c.pieces.any fun p => match p.2 with | .fault .. => true | _ => false
  if stopped then none
  else
    match c.pieces.find? fun p => p.2 == .again with
    | some p => some p.1
    | none => if c.next < c.count then some c.next else none

/-- The lines on this package that a piece touches. -/
def Dev.pieceLines (d : Dev) (c : Copy) (b : Block) (x : Ctx) (p : Nat) : List Nat :=
  let bs := c.pieceBytes p
  let pas (l : Option Layout) (need : Need) : List Nat := (boxRuns l c.coords bs).filterMap fun r =>
    match d.jobPlace b.core x r.addr need with | .ok (.glob pa) => some (pa / 128) | _ => none
  (pas c.readBox needR).eraseDups ++ (pas c.writeBox needW).eraseDups

/-- Bytes by memory channel of some lines (R247, R291). -/
def channelLoads (lines : List Nat) : List (Point × Nat) :=
  (lines.foldl (fun m l => let c := channelOf (l * 128); assocPut m c (assoc m c + 128)) []).map fun x => (.chan x.1, x.2)

/-- The egress port of a context's binding to a package: of its Eutrix servers with a ROUTE, the first whose port leads there
(R290, R292; log entry 7). -/
def Dev.binding (d : Dev) (ctx pkg : Nat) : Option Point :=
  (d.servers.find? fun s => s.args.ctx == ctx && !s.args.route.isEmpty &&
    (match s.args.point with | .eutrix n => Config.leadsTo n pkg | _ => false)).map (·.args.point)

/-- The packages that a piece touches through one of its boxes. -/
def Dev.farPackages (d : Dev) (b : Block) (x : Ctx) (l : Option Layout) (coords bs : List Nat) (need : Need) : List Nat :=
  ((boxRuns l coords bs).filterMap fun r =>
    match d.jobPlace b.core x r.addr need with | .ok (.remote pkg _) => some pkg | _ => none).eraseDups

/-- What a piece charges on its path besides the copy engines (R291): its lines at their channels; at the binding to a package
that it writes, its image bytes (R380); nothing at the binding to one that it reads, which is on its path all the same (R290):
the flit of its request is charged when it is sent. -/
def Dev.pieceLoads (d : Dev) (c : Copy) (b : Block) (x : Ctx) (p : Nat) : List (Point × Nat) :=
  let bs := c.pieceBytes p
  channelLoads (d.pieceLines c b x p) ++
    ((d.farPackages b x c.writeBox c.coords bs needW).filterMap fun q => (d.binding x.n q).map fun pt => (pt, bs.length)) ++
    ((d.farPackages b x c.readBox c.coords bs needR).filterMap fun q => (d.binding x.n q).map fun pt => (pt, 0))

/-- The context's servers on the path of a piece are awake; one whose budget cannot cover the charge gives it up. -/
def Dev.wakePath (d : Dev) (ctx : Nat) (loads : List (Point × Nat)) : Dev :=
  loads.foldl (fun d l => d.modServer ctx l.1 fun s =>
    let s := s.wake 0 d.clock
    if s.eligible 0 d.clock && !s.fits 0 l.2 then s.renew 0 else s) d
def Dev.pathReady (d : Dev) (ctx : Nat) (loads : List (Point × Nat)) : Bool :=
  loads.all fun l => match d.server? ctx l.1 with
    | some s => s.eligible 0 d.clock && s.fits 0 l.2
    | none => true

/-- The copies that wait to issue a piece: context, die, image bytes, and loads on the path. -/
def Dev.waitingPieces (d : Dev) : List (Nat × Nat × Nat × List (Point × Nat)) :=
  d.jobs.filterMap fun j =>
    match j.copy?, d.block? j.block, d.ctx? j.ctx with
    | some c, some b, some x =>
      if j.mayRun then c.nextPiece.map fun p => (j.ctx, dieOf b.core, (c.pieceBytes p).length, d.pieceLoads c b x p) else none
    | _, _, _ => none

/-- The number under which the bytes of a sector's runs are asked for: the image offset of its one run, or one of its own. -/
def runsKey : List Run → Nat
  | [] => 0
  | [r] => r.off
  | r :: _ => 2 ^ 28 + 64 * r.off

/-- Sectors that go on in another package's memory are read by one request. -/
def mergeReads : List (Nat × Nat × Loc) → List (Nat × Nat × Loc)
  | [] => []
  | w :: ws =>
    match w, mergeReads ws with
    | (k, n, .remote p a), (k', n', .remote q b) :: vs =>
      if p == q && a + n == b && k + n == k' then (k, n + n', .remote p a) :: vs else w :: (k', n', .remote q b) :: vs
    | _, l => w :: l

/-- The requests of a nibble's byte that is written to host memory stand from here on. -/
abbrev nibbleKey : Nat := 2 ^ 26

/-- Requests for what a piece reads elsewhere; a nibble that it writes to host memory is read first. -/
def Dev.requestReads (d : Dev) (j : Job) (c : Copy) (b : Block) (x : Ctx) (p : Nat) : Dev :=
  let bs := c.pieceBytes p
  let place (need : Need) (shift : Nat) (g : List Run) : Option (Nat × Nat × Loc) :=
    match d.jobPlace b.core x (runsAt g) need with
    | .ok l => some (shift + runsKey g, runsLen g, l)
    | .error _ => none
  let ask (d : Dev) (w : Nat × Nat × Loc) : Dev :=
    match w.2.2 with
    | .remote .. => d.jobRequest j p w.1 w.2.2 (.copyRead w.2.1)
    | .host a => if d.atsReady x.fn a then d.jobRequest j p w.1 w.2.2 (.read w.2.1) else d.askAts x.fn a
    | _ => d
  let reads := (sectorRuns (boxRuns c.readBox c.coords bs)).filterMap (place needR 0)
  let nibs := ((boxRuns c.writeBox c.coords bs).filter (·.half)).filterMap fun r =>
    (place needW nibbleKey [r]).filter fun w => match w.2.2 with | .host _ => true | _ => false
  (mergeReads reads ++ nibs).foldl ask d

/-- The addresses of a piece, one for each page of each side, that are looked up at its core (R258, R259). -/
def Copy.pages (c : Copy) (p : Nat) : List Nat :=
  let bs := c.pieceBytes p
  ((boxRuns c.readBox c.coords bs ++ boxRuns c.writeBox c.coords bs).map fun r => r.addr / 4096 * 4096).eraseDups

/-- The copy-engine point lets a piece of so many bytes issue: its server covers it, or the context has none (R291). -/
def Dev.engineReady (d : Dev) (ctx : Nat) (pt : Point) (n : Nat) : Bool :=
  match d.server? ctx pt with | some s => s.eligible 0 d.clock && s.fits 0 n | none => true

/-- COPY_PIECE_ISSUE (R195, R291): the copy-engine point has chosen the context, every server on the path has budget for
this piece, and all are charged at once. -/
def execCopyPieceIssue (job : Nat) (s : State) : Host.Outcome State Fault Refusal :=
  onDev s fun d =>
    match d.job? job with
    | none => d
    | some j =>
      match j.copy?, d.block? j.block, d.ctx? j.ctx with
      | some c, some b, some x =>
        match c.nextPiece with
        | none => d
        | some p =>
          let pt : Point := .copy (dieOf b.core)
          let n := (c.pieceBytes p).length
          let loads := d.pieceLoads c b x p
          if !j.mayRun || !d.picks.contains (pt, j.ctx) then d
          else
            let d := d.wakePath j.ctx loads
            if !d.engineReady j.ctx pt n || !d.pathReady j.ctx loads then d
            else
              let d : Dev := { d with picks := d.picks.filter (· != (pt, j.ctx)) }
              let d := d.chargeAt j.ctx pt 0 n
              let d := loads.foldl (fun d l => d.chargeAt j.ctx l.1 0 l.2) d
              let d := d.modCopy job fun c => { (c.setPiece p (.issued [] none)) with next := max c.next (p + 1) }
              (d.requestReads j c b x p).lookedAll b.core x (c.pages p)
      | _, _, _ => d

/-! ## Landing (R195, R196) -/

/-- A byte of a list of read runs. -/
def gathered (l : List (Run × List Byte)) (b : Nat) : Byte :=
  match l.find? fun x => decide (x.1.off ≤ b ∧ b < x.1.off + x.1.n) with
  | some (r, bs) => let x := (bs[b - r.off]?).getD 0; if r.half then x &&& 0x0F else x
  | none => 0

/-- What a read phase comes to: the bytes; a fault; something is still missing. -/
inductive Fetch where
  | bytes (l : List (Run × List Byte))
  | fault (cause : Nat)
  | missing
deriving DecidableEq, Repr

/-- Sectors of a box are read, each one event at the job's clock (R275, R277). -/
def Dev.readBoxRuns (d : Dev) (b : Block) (x : Ctx) (c : Copy) (p lease : Nat) : Nat → List (List Run) → Dev × Nat × Fetch
  | t, [] => (d, t, .bytes [])
  | t, g :: gs =>
    match d.jobPlace b.core x (runsAt g) needR with
    | .error e => (d, t, .fault e)
    | .ok loc =>
      let one : Dev × Nat × Option (Except Nat (List Byte)) :=
        match loc with
        | .glob pa =>
          let (d, ti, v) := d.homeLoad x.n (.glob pa) (runsLen g) t lease
          (d, ti, some (match v with | some bs => .ok bs | none => .error cIntegrity))
        | _ => (d, t, (c.got p (runsKey g) (runsLen g)).map .ok)
      match one with
      | (d, ti, some (.ok bs)) =>
        match d.readBoxRuns b x c p lease (max t ti) gs with
        | (d, t, .bytes l) => (d, t, .bytes (g.map (fun r => (r, (bs.drop (r.addr - runsAt g)).take r.n)) ++ l))
        | y => y
      | (d, _, some (.error e)) => (d, t, .fault e)
      | (d, _, none) => (d, t, .missing)

/-- Runs of a local range are read. -/
def Dev.readLocRuns (d : Dev) (core : Nat) (sp : Space) : Nat → List Run → Dev × Nat × Fetch
  | t, [] => (d, t, .bytes [])
  | t, r :: rs =>
    match d.homeLoad 0 (.loc core sp r.addr) r.n t 0 with
    | (d, _, none) => (d, t, .fault cIntegrity)
    | (d, ti, some bs) =>
      match d.readLocRuns core sp (max t ti) rs with
      | (d, t, .bytes l) => (d, t, .bytes ((r, bs) :: l))
      | y => y

/-- A part of a sector on its way to another package or the host: where, its bytes and mask, the image offset. -/
structure Patch where
  loc  : Loc
  bs   : List Byte
  mask : List Byte
  off  : Nat
deriving DecidableEq, Repr

/-- Of the sectors that bytes at a PA touch, those that a mask covers whole. -/
def maskWhole (pa : Nat) (mask : List Byte) (i : Nat) : Bool :=
  wholeSector pa mask.length i && ((mask.drop (32 * i - pa)).take 32).all (· == 0xFF)

/-- The checks that travel with the sectors of a piece: of those that are there whole (R260). -/
def pieceChecks (pa : Nat) (bs mask : List Byte) : List (BitVec 16) :=
  (sectorsOf pa bs.length).map fun i => if maskWhole pa mask i then crc16 ((bs.drop (32 * i - pa)).take 32) else 0

/-- Sectors that go on in another package's memory travel in one packet (R380). -/
def mergePatches : List Patch → List Patch
  | [] => []
  | w :: ws =>
    match w.loc, mergePatches ws with
    | .remote p a, v :: vs =>
      if v.loc = .remote p (a + w.bs.length) then ⟨w.loc, w.bs ++ v.bs, w.mask ++ v.mask, w.off⟩ :: vs else w :: v :: vs
    | _, l => w :: l

/-- Sectors of a piece are written at clock `t`, those here in order; the others go out. -/
def Dev.writePatches (d : Dev) (x : Ctx) (j : Job) (c : Copy) (p t : Nat) (l : List Patch) : Dev × Nat :=
  let far (w : Patch) : Bool := match w.loc with | .remote .. => true | .host _ => true | _ => false
  let (d, t) := (l.filter (!far ·)).foldl (fun (q : Dev × Nat) w => q.1.writeSector x.n w.loc q.2 w.bs w.mask) (d, t)
  let send (d : Dev) (w : Patch) : Dev :=
    match w.loc with
    | .remote _ pa => d.jobRequest { j with clock := t } p w.off w.loc (.copy w.bs w.mask (pieceChecks pa w.bs w.mask))
    | .host a =>
      let old (i : Nat) : Byte := if (w.mask[i]?).getD 0 = 0x0F then ((c.got p (nibbleKey + w.off + i) 1).getD []).headD 0 else 0
      let bs := overlay w.bs w.mask ((List.range w.bs.length).map old)
      let parts := (List.range w.bs.length).filter fun i => (w.mask[i]?).getD 0 != 0
      if parts.length = w.bs.length then d.jobRequest j p w.off w.loc (farStore a bs)
      else parts.foldl (fun d i => d.jobRequest j p (w.off + i) (.host (a + i)) (farStore (a + i) ((bs.drop i).take 1))) d
    | _ => d
  ((mergePatches (l.filter far)).foldl send d, t)

/-- The completion of a copy (R196): the tag, SKIPTAGS, the stamp, and the counts. -/
def Dev.finishCopy (d : Dev) (job : Nat) : Dev :=
  match d.job? job with
  | none => d
  | some j =>
    match j.copy? with
    | none => d
    | some c =>
      let t := max c.time j.clock
      let d := match c.tag with
        | none => d
        | some i => d.modBlock j.block fun b =>
            let bit : Word := 1#64 <<< i
            { b with
              tags := ⟨i, t⟩ :: b.tags.filter (·.tag != i)
              skipTags := if c.skipped then b.skipTags ||| bit else b.skipTags &&& ~~~bit }
      let d := (d.modWave j.wave fun w => { w with doneCp := max w.doneCp t }).noteDone job j.wave j.block c.gang t
      let d := d.endJob job t
      match c.stamp, d.ctx? j.ctx, d.block? j.block with
      | some a, some x, some b =>
        let op (d : Dev) (loc : Loc) (st : LaneSt) : MemOp :=
          ⟨d.nextId, j.wave, b.id, j.ctx, c.gang, c.pc, .stamp, [⟨4 * lowStrand c.gang, a, loc, 8, [], st⟩], t + 1, false⟩
        let failed (d : Dev) (e : Nat) : Dev :=
          { d with nextId := d.nextId + 1, reports := d.reports ++ [op d (.glob 0) (.failed e)] }
        if d.quiet x then d else
        let place := d.checkGlobal b.core x a 8 needW false
        let d := d.looked b.core x a
        match place with
        | .error e => failed d e
        | .ok (.remote pkg pa) =>
          let o := op d (.remote pkg pa) .waiting
          let d : Dev := { d with nextId := d.nextId + 1, memops := d.memops ++ [o] }
          (o.lanes.head?).elim d fun a => d.sendRemote o a pkg pa (.stamp c.skipped)
        | .ok loc =>
          let (d', ts, r) := d.homeRmw x.n none true loc 8 (t + 1) fun _ old =>
            leBytes 8 ((leNat old + 1) % 2 ^ 63 + (if c.skipped then 2 ^ 63 else 0))
          if r.isSome then d'.modBlock j.block fun b => { b with time := max b.time ts } else failed d' cIntegrity
      | _, _, _ => d

/-- A copy of which nothing is left to land is complete. -/
def Dev.copyOver (d : Dev) (job : Nat) : Dev :=
  match (d.job? job).bind (·.copy?) with
  | none => d
  | some c => if c.pieces.isEmpty && (c.skipAll || c.next == c.count) then d.finishCopy job else d

/-- `n` bytes have landed at time `t`: the byte barrier is told (R135, R196). -/
def Dev.tellBarrier (d : Dev) (j : Job) (c : Copy) (n t : Nat) : Dev :=
  match c.bar, d.block? j.block with
  | some a, some b =>
    (d.homeRmw j.ctx none true (.loc b.core .scratch a) 16 t fun _ old =>
      barBytes (field old 0 4) (field old 4 4 + n) (max (field old 8 8) t)).1
  | _, _ => d

/-- A piece has landed. -/
def Dev.landPiece (d : Dev) (j : Job) (c : Copy) (p t : Nat) (skip : Bool) : Dev :=
  let d := d.tellBarrier j c (c.pieceBytes p).length t
  d.modCopy j.id fun c => { (c.dropPiece p) with time := max c.time t, skipped := c.skipped || skip }

/-- A piece meets a fault (R198). One of a copy that has been stopped counts as stopped (R41, R197). -/
def Dev.pieceFault (d : Dev) (j : Job) (p cause : Nat) (write : Bool) : Dev :=
  (d.modCopy j.id fun c => if c.skipAll then c.dropPiece p else c.setPiece p (.fault cause write)).copyOver j.id

/-- The sectors that a piece writes, with their places. -/
def Dev.writePlaces (d : Dev) (b : Block) (x : Ctx) (c : Copy) (bs : List Nat) : Except Nat (List (List Run × Loc)) :=
  match c.form.local_ with
  | some (sp, true) => .ok ((sectorRuns (localRuns b sp c.off bs)).map fun g => (g, .loc b.core sp (runsAt g)))
  | _ =>
    (sectorRuns (boxRuns c.writeBox c.coords bs)).foldr (fun g acc =>
      match acc, d.jobPlace b.core x (runsAt g) needW with
      | .error e, .ok _ => .error e
      | _, .error e => .error e
      | .ok l, .ok loc => .ok ((g, loc) :: l)) (.ok [])

/-- A piece's bytes are written (R195): nothing when a place is refused here; what a failed merge leaves undefined is a
free choice per sector. -/
def Dev.writePiece (d : Dev) (j : Job) (c : Copy) (b : Block) (x : Ctx) (p t : Nat) (data : Nat → Byte) : Dev :=
  match d.writePlaces b x c (c.pieceBytes p) with
  | .error e => d.pieceFault j p e true
  | .ok ws =>
    let patch (w : List Run × Loc) : Patch :=
      let (bs, mask) := runsBytes w.1 data
      ⟨w.2, bs, mask, (w.1.head?.map (·.off)).getD 0⟩
    let l := ws.map patch
    let cold (w : Patch) : Bool := match w.loc with | .host a => !d.atsReady x.fn a | _ => false
    if l.any cold then l.foldl (fun d w => match w.loc with | .host a => if cold w then d.askAts x.fn a else d | _ => d) d
    else
      let bad (w : Patch) : Bool := d.sectorBad x.n w.loc w.mask
      let anyBad := l.any bad
      let keep (i : Nat) : Bool := !anyBad || (Config.freeBits (d.free + i)).getLsbD 0
      let chosen := (l.zipIdx.filter fun (w, i) => !bad w && keep i).map (·.1)
      let (d, t) := ({ d with free := d.free + l.length } : Dev).writePatches x j c p t chosen
      let d := d.modJob j.id fun j => { j with clock := max j.clock t }
      if anyBad then d.pieceFault j p cIntegrity true
      else if d.awaits j.id p then
        d.modCopy j.id fun c => match c.piece? p with
          | some (.issued got _) => c.setPiece p (.issued got (some t))
          | _ => c.setPiece p (.issued [] (some t))
      else d.landPiece j c p t false

/-- A piece runs: it reads all it needs, then writes. One whose bytes have not come is issued again, or ends with a copy that
has been stopped (R41). -/
def Dev.runPiece (d : Dev) (j : Job) (c : Copy) (b : Block) (x : Ctx) (p : Nat) : Dev :=
  let bs := c.pieceBytes p
  let (free, d) := d.freeWord
  let lease := 1 + free.toNat % 64
  let (d, t, f) := match c.form.local_ with
    | some (sp, false) => d.readLocRuns b.core sp j.clock (localRuns b sp c.off bs)
    | _ => d.readBoxRuns b x c p lease j.clock (sectorRuns (boxRuns c.readBox c.coords bs))
  match f with
  | .fault e => d.pieceFault j p e false
  | .missing => d.modCopy j.id fun c => if c.skipAll then c.dropPiece p else c.setPiece p .again
  | .bytes l => d.writePiece j c b x p t (gathered l)

/-- Line transfers that a piece has brought about are carried under its charge (R291). -/
def Dev.chargedFrom (d : Dev) (n : Nat) : Dev :=
  { d with xfers := d.xfers.take n ++ (d.xfers.drop n).map fun x => { x with charged := true } }

/-- What PIECE_LAND does to a piece: it runs, or lands at its own largest write time; a copy of which nothing is left then
completes, past the charge of the piece (R291). A record that has come (`recPieceA` on) is no piece. -/
def Dev.landOne (d : Dev) (j : Job) (c : Copy) (b : Block) (x : Ctx) (piece : Nat) : Dev :=
  match c.piece? piece with
  | some (.issued _ (some t)) => (d.landPiece j c piece t false).copyOver j.id
  | some (.issued _ none) => ((d.runPiece j c b x piece).chargedFrom d.xfers.length).copyOver j.id
  | some .skip => (d.landPiece j c piece j.clock true).copyOver j.id
  | some (.fill v) =>
    ((d.writePiece j c b x piece j.clock fun i => (v.extractLsb' (8 * (i % 8)) 8)).chargedFrom d.xfers.length).copyOver j.id
  | _ => d

/-- PIECE_LAND (R195, R196, R200). -/
def execPieceLand (job piece : Nat) (s : State) : Host.Outcome State Fault Refusal :=
  onDev s fun d =>
    match d.job? job with
    | none => d
    | some j =>
      match j.copy?, d.block? j.block, d.ctx? j.ctx with
      | some c, some b, some x => if recPieceA ≤ piece || d.awaits job piece then d else d.landOne j c b x piece
      | _, _, _ => d

/-! ## Copy faults (R198 to R200) -/

/-- The fault a copy waits at: the piece (65,535 for the whole copy), the cause and its side. -/
def Copy.faultAt (c : Copy) (p : Nat) : Option (Nat × Bool) :=
  if p = 0xFFFF ∧ c.whole.isSome then c.whole
  else match c.piece? p with | some (.fault e w) => some (e, w) | _ => none

/-- The faults at which a copy waits, by piece. -/
def Copy.faults (c : Copy) : List Nat :=
  (if c.whole.isSome then [0xFFFF] else []) ++
    c.pieces.filterMap fun p => match p.2 with | .fault .. => if p.1 < recPieceA then some p.1 else none | _ => none

/-- The faults of a copy that have no entry yet. -/
def Dev.newFaults (d : Dev) (j : Job) (c : Copy) (core : Nat) : List Nat :=
  c.faults.filter fun p => !((d.core core).fifo.any fun e => e.job == j.id && e.piece == p)

/-- A fault is resolved by skipping (R200). -/
def Dev.skipFault (d : Dev) (j : Job) (c : Copy) (p : Nat) : Dev :=
  if p = 0xFFFF ∧ c.whole.isSome then
    let d := d.tellBarrier j c c.size (max c.time j.clock)
    (d.modCopy j.id fun c => { c with whole := none, skipAll := true, skipped := true, pieces := [] }).copyOver j.id
  else d.modCopy j.id fun c => c.setPiece p .skip

/-- The faults of a suspending block's copies are resolved by skipping; COPYFAULT is set in the issuing wave (R236, R323).
The number bounds the faults. -/
def Dev.skipFaults (d : Dev) (b : Block) : Nat → Dev
  | 0 => d
  | n + 1 =>
    let hit (j : Job) : Option (Job × Copy × Nat) := do
      let c ← j.copy?
      let p ← (if c.whole.isSome then some 0xFFFF else
        (c.pieces.find? fun p => match p.2 with | .fault .. => decide (p.1 < recPieceA) | _ => false).map (·.1))
      if j.block = b.id then some (j, c, p) else none
    match d.jobs.findSome? hit with
    | none => d.modCore b.core fun c => { c with fifo := c.fifo.filter (·.block != b.id) }
    | some (j, c, p) => ((d.skipFault j c p).modWave j.wave (·.setCause cCopyfault)).skipFaults b n

/-- With no live wave left in the block, a fault is resolved by skipping, with ERROR, whether it has an entry or not (R198). -/
def Dev.skipUnseen (d : Dev) (j : Job) (c : Copy) (b : Block) : Dev :=
  match c.faults with
  | [] => d
  | p :: _ =>
    let d := (d.skipFault j c p).modCore b.core fun x => { x with fifo := x.fifo.filter fun e => !(e.job == j.id && e.piece == p) }
    match b.launch with
    | some l => d.markLaunch l true false (max c.time j.clock)
    | none => d

/-- COPY_FAULT (R198): an entry in the core's FIFO and COPYFAULT in a wave of the block; with no live wave the fault is
skipped, with ERROR. -/
def execCopyFault (job : Nat) (s : State) : Host.Outcome State Fault Refusal :=
  onDev s fun d =>
    match d.job? job with
    | none => d
    | some j =>
      match j.copy?, d.block? j.block with
      | some c, some b =>
        if b.susp.isNone && (d.liveWaves b.id).isEmpty then d.skipUnseen j c b else
        match d.newFaults j c b.core with
        | [] => d
        | p :: _ =>
          if b.susp.isSome then d.skipFaults b 70000 else
          match c.faultAt p, d.liveWaves b.id with
          | none, _ => d
          | some _, [] => d
          | some (e, w), l :: ls =>
            let fifo := (d.core b.core).fifo
            if 16 ≤ fifo.length then d
            else
              let slot := ((List.range 16).find? fun i => !fifo.any (·.slot == i)).getD 0
              let idx := ((d.wave? j.wave).map (·.idx)).getD 0
              let entry : FaultEntry := {
                slot := slot, job := job, block := b.id, piece := p, cause := e, write := w
                recAddr := if w && c.form.twoBoxes then c.recB else c.recA
                coords := c.coords, wave := idx, read := false }
              let d := d.modCore b.core fun x => { x with fifo := x.fifo ++ [entry] }
              let who := if (l :: ls).any (·.id == j.wave) then j.wave else ((leastBy (·.idx) (l :: ls)).map (·.id)).getD l.id
              d.raiseAsync who cCopyfault
      | _, _ => d

/-- The registers of a fault entry (Table 6-6). -/
def FaultEntry.words (e : FaultEntry) : List Word :=
  let co (i : Nat) : Nat := (e.coords[i]?).getD 0
  [BitVec.ofNat 64 (2 ^ 63 + e.slot * 2 ^ 56 + e.recAddr % 2 ^ 56),
   BitVec.ofNat 64 (co 1 * 2 ^ 32 + co 0),
   BitVec.ofNat 64 (co 3 * 2 ^ 32 + co 2),
   BitVec.ofNat 64 (co 4 * 2 ^ 32 + e.write.toNat * 2 ^ 28 + e.wave * 2 ^ 22 + e.cause * 2 ^ 16 + e.piece)]

/-- Consecutive scalar registers from `d` on are written in every strand of the gang. -/
def Dev.setRun (d : Dev) (k : Issue) (r : SReg) (xs : List Word) : Dev :=
  xs.zipIdx.foldl (fun d (x, i) => d.setScalars k (r + BitVec.ofNat 6 i) fun _ => x) d

/-- `cfpop` (R199). -/
def execCfpop (d : SReg) (s : State) : Host.Outcome State Fault Refusal :=
  issue s fun k x =>
    match (x.core k.core).fifo.find? fun e => e.block == k.block.id && !e.read with
    | some e =>
      let x := x.modCore k.core fun c =>
        { c with fifo := modIf (fun y => y.slot == e.slot && y.block == e.block) (fun y => { y with read := true }) c.fifo }
      (x.setRun k d e.words).advance k 12
    | none =>
      let x := x.setRun k d [0, k.block.skipTags, 0, 0]
      (x.modBlock k.block.id fun b => { b with skipTags := 0 }).advance k 12

/-- The entry that a handle names (R200). -/
def Dev.handleEntry (d : Dev) (k : Issue) (h : Word) : Option FaultEntry :=
  if !h.getLsbD 63 then none
  else (d.core k.core).fifo.find? fun e => e.block == k.block.id && e.read && e.slot == h.toNat / 2 ^ 56 % 16

/-- A resolution frees the slot and acts on the copy; a handle that names nothing raises OBJECT (R200). -/
def resolve (s : State) (h : SReg) (ok : FaultEntry → Option Copy → Bool) (f : Issue → Dev → FaultEntry → Job → Copy → Dev) :
    Host.Outcome State Fault Refusal :=
  issue s fun k d =>
    match d.handleEntry k (k.rd h) with
    | none => d.trap k cObject
    | some e =>
      if !ok e ((d.job? e.job).bind (·.copy?)) then d.trap k cObject
      else
        let d' := d.modCore k.core fun c => { c with fifo := c.fifo.filter fun y => !(y.slot == e.slot && y.block == e.block) }
        match d.job? e.job with
        | some j => match j.copy? with
          | some c => (f k d' e j c).advance k 12
          | none => d'.advance k 12
        | none => d'.advance k 12

/-- `cfrsm.retry` (R200): the piece reissues, or the records are read again. -/
def execCfrsmRetry (a : SReg) (s : State) : Host.Outcome State Fault Refusal :=
  resolve s a (fun _ _ => true) fun _ d e j c =>
    if e.piece = 0xFFFF ∧ c.whole.isSome then
      d.modJob j.id fun j => { j with
        kind := .copy ((({ c with whole := none, layA := none, layB := none } : Copy).dropPiece recPieceA).dropPiece recPieceB) }
    else d.modCopy j.id fun c => c.setPiece e.piece .again
/-- `cfrsm.skip` (R200). -/
def execCfrsmSkip (a : SReg) (s : State) : Host.Outcome State Fault Refusal :=
  resolve s a (fun _ _ => true) fun _ d e j c => d.skipFault j c e.piece
/-- `cfrsm.fill` (R200): a read-side piece fault only. Piece 65,535 of a copy is told from the whole copy by the copy. -/
def execCfrsmFill (a b : SReg) (s : State) : Host.Outcome State Fault Refusal :=
  resolve s a (fun e c => !e.write && !(e.piece == 0xFFFF && c.any (·.whole.isSome))) fun k d e j _ =>
    d.modCopy j.id fun c => c.setPiece e.piece (.fill (k.rd b))

end Sys2Proof.Machine
end

