-- ==== Sys2Proof/Machine/Leases.lean ====
section
/-!
DEFINITION. Engine leases: the lease instructions (07: R204 to R210) and the steps of the lease unit (10: R296 to R303,
R393).
-/

namespace Sys2Proof.Machine

/-! ## Requests (R204 to R206) -/

/-- The number of a kind (R204). -/
def kindNum : EngKind → Nat
  | .tile => 0
  | .table => 1
  | .select => 2

/-- The ticket of a request (R205): KIND and a SEQ that is not zero. -/
def ticketWord (k : EngKind) (t : Nat) : Word := BitVec.ofNat 64 ((t % (2 ^ 32 - 1) + 1) * 2 ^ 32 + kindNum k)

/-- The checks of the lease instructions: GANG, and RIGHTS for a kind that the block may not kindle (R22, R204). -/
def kindleCheck (kd : EngKind) (k : Issue) (_ : Dev) : Option Nat :=
  if !k.whole then some cGang else if !k.block.engines.getLsbD (kindNum kd) then some cRights else none

/-- A request enters the lease queue of the core's engine. -/
def Dev.addReq (d : Dev) (k : Issue) (kd : EngKind) : Dev :=
  let r : Req := ⟨d.ticket, k.wave.id, k.ctx.n, d.clock, false, false, false⟩
  { d.modEngine k.core kd fun e => { e with queue := e.queue ++ [r] } with ticket := d.ticket + 1 }

/-- ENERGY is raised once in a wave that waits in `kindle` on a request which the energy allowance holds back (R204,
R298). -/
def Dev.tellEnergy (d : Dev) (core : Nat) (kd : EngKind) : Dev :=
  let waits (r : Req) : Bool := r.wenergy && !r.told && match d.wave? r.wave with
    | some w => w.strands.any fun s => match s.waiting with | some ⟨_, .kindle x⟩ => x == kd | _ => false
    | none => false
  let told := (d.engine core kd).queue.filter waits
  let d := if told.isEmpty then d else d.modEngine core kd fun e =>
    { e with queue := e.queue.map fun r => if told.any (·.ticket == r.ticket) then { r with told := true } else r }
  told.foldl (fun d r => d.raiseAsync r.wave cEnergy) d

/-- `kindle` (R204). -/
def execKindle (kd : EngKind) (s : State) : Host.Outcome State Fault Refusal :=
  guarded s (kindleCheck kd) fun k d =>
    let e := d.engine k.core kd
    if e.holds k.wave.id then d.advance k 12
    else
      let d := if e.asked k.wave.id || decide (16 ≤ e.queue.length) then d else d.addReq k kd
      (d.stall k (.kindle kd)).tellEnergy k.core kd

/-- `kindle.nb` (R205). -/
def execKindleNb (dest : SReg) (kd : EngKind) (s : State) : Host.Outcome State Fault Refusal :=
  guarded s (kindleCheck kd) fun k d =>
    let e := d.engine k.core kd
    let mine := (e.queue ++ e.holder.toList).find? (·.wave == k.wave.id)
    let (t, d) : Nat × Dev :=
      match mine with
      | some r => (r.ticket, d)
      | none =>
        if e.queue.length < 16 then (d.ticket, d.addReq k kd)
        else (d.ticket, { d.modEngine k.core kd fun e => { e with notes := e.notes ++ [⟨d.ticket, k.wave.id, false⟩] } with
          ticket := d.ticket + 1 })
    (d.setScalars k dest fun _ => ticketWord kd t).advance k 12

/-- `douse` (R207). -/
def execDouse (kd : EngKind) (s : State) : Host.Outcome State Fault Refusal :=
  guarded s (fun k _ => if !k.whole then some cGang else none) fun k d => (d.douse k.core kd k.wave.id).advance k 12

/-- The code of an engine's state in Table 7-2. -/
def EngSt.code : EngSt → Nat
  | .dark => 0
  | .waking => 1
  | .leased => 2
  | .warm => 3
  | .evicting => 4

/-- What `lstat` reads for a ticket (Table 7-2). -/
def Dev.lstat (d : Dev) (core wave : Nat) (kd : EngKind) (t : Word) : Word :=
  let e := d.engine core kd
  let mine (r : Req) : Bool := r.wave == wave && ticketWord kd r.ticket == t
  let (pos, req, wp, we) : Nat × Nat × Bool × Bool :=
    match (d.leaseQueue core kd).zipIdx.find? fun x => mine x.1 with
    | some (r, i) => (i, 1, r.wpower, r.wenergy)
    | none =>
      if e.holder.any mine then (0xFF, if e.st == .leased || e.st == .evicting then 3 else 2, false, false)
      else match e.notes.find? fun n => n.wave == wave && ticketWord kd n.ticket == t with
        | some n => (0xFF, if n.lost then 5 else 4, false, false)
        | none => (0xFF, 0, false, false)
  BitVec.ofNat 64 (pos * 2 ^ 16 + e.st.code * 2 ^ 12 + we.toNat * 2 ^ 9 + wp.toNat * 2 ^ 8 + req)

/-- `lstat` (R206); LOST and FULL read once. -/
def execLstat (dest a : SReg) (s : State) : Host.Outcome State Fault Refusal :=
  andNext s 12 fun k d =>
    let t := k.rd a
    match [EngKind.tile, .table, .select].find? fun x => kindNum x == t.toNat % 2 ^ 32 with
    | none => d.setScalars k dest fun _ => BitVec.ofNat 64 (0xFF * 2 ^ 16)
    | some kd =>
      (d.setScalars k dest fun _ => d.lstat k.core k.wave.id kd t).modEngine k.core kd fun e =>
        { e with notes := e.notes.filter fun n => !(n.wave == k.wave.id && ticketWord kd n.ticket == t) }

/-! ## Operations at an engine (R207, R393) -/

/-- An operation has started (R302, R393). -/
def Job.started (j : Job) : Bool :=
  match j.kind with
  | .tile _ _ r _ => r.isSome
  | .fx _ r => r.isSome
  | _ => false

/-- An engine without a lessee whose last operation has ended begins to be idle (R393). -/
def Dev.noteIdle (d : Dev) (core : Nat) (kd : EngKind) : Dev :=
  if d.canDarken (d.engine core kd) then d.modEngine core kd fun e => { e with idle := d.clock } else d

/-- A job leaves its engine. -/
def Dev.leaveEngine (d : Dev) (core : Nat) (kd : EngKind) (job time : Nat) : Dev := (d.endJob job time).noteIdle core kd

/-- The tables are cleared behind the operations of an earlier tenant (R209). -/
def Engine.clearBefore (e : Engine) (job : Nat) : Engine :=
  if e.stale.any (· ≤ job) then { e with lut := [], slots := [], stale := e.stale.filter (job < ·) } else e

/-- The operation at the head of an engine may start: it is not ordered after another job, nothing runs, and no eviction
keeps it back (R212, R277, R393). -/
def Dev.headReady (d : Dev) (core : Nat) (kd : EngKind) : Option Job :=
  let e := d.engine core kd
  match d.engineJobs core kd with
  | [] => none
  | j :: _ =>
    let free := match e.st with
      | .leased => true
      | .warm => true
      | .evicting => !e.forPower && !e.holder.any (·.wave == j.wave)
      | _ => false
    if j.mayRun && !j.started && free then some j else none

/-! ## Grants and idle engines (R296 to R298) -/

/-- LEASE_GRANT (R298). -/
def execLeaseGrant (core : Nat) (k : EngKind) (s : State) : Host.Outcome State Fault Refusal :=
  onDev s fun d => (d.grantHead core k).tellEnergy core k

/-- WAKE_DONE (R296, R297): the wake latency, or the 90 ns from WARM, has elapsed. -/
def execWakeDone (core : Nat) (k : EngKind) (s : State) : Host.Outcome State Fault Refusal :=
  onDev s fun d =>
    let e := d.engine core k
    if d.clock < e.till then d
    else
      match e.st, e.holder with
      | .waking, some _ => d.modEngine core k fun e => { e with st := .leased, since := d.clock }
      | .waking, none => d.releaseEngine core k
      | .warm, some _ => d.modEngine core k fun e => { e with st := .leased, since := d.clock }
      | _, _ => d

/-- WARM_TIMEOUT (R296, R393). -/
def execWarmTimeout (core : Nat) (k : EngKind) (s : State) : Host.Outcome State Fault Refusal :=
  onDev s fun d =>
    let e := d.engine core k
    if d.canDarken e && decide (e.idle + 48000 ≤ d.clock) then d.modEngine core k Engine.darken else d

/-! ## Eviction (R210, R300, R301, R393) -/

/-- Running `tmma` operations of the engine are told to stop at their next commit. -/
def Job.stopAt (cause : Nat) (j : Job) : Job :=
  match j.kind with
  | .tile (.mma f x d a b m n kb ks t) p (some r) none => { j with kind := .tile (.mma f x d a b m n kb ks t) p (some r) (some cause) }
  | _ => j

/-- An eviction begins: for power it concerns every operation, else those of the lessee. -/
def Dev.evict (d : Dev) (core : Nat) (k : EngKind) (power : Bool) : Dev :=
  let e := d.engine core k
  let ids := ((d.engineJobs core k).filter fun j => power || e.holder.any (·.wave == j.wave)).map (·.id)
  let d : Dev := { d with jobs := modIf (fun j => ids.contains j.id) (Job.stopAt cLeaselost) d.jobs }
  d.modEngine core k fun e => { e with st := .evicting, forPower := power }

/-- A grant that is not yet a lease is withdrawn: the request returns to its place (Table 10-6). -/
def Engine.withdraw (e : Engine) : Engine := { e with holder := none, queue := e.queue ++ e.holder.toList }

/-- Class and grant of the lease that an engine stands for in a power cut: its latest former lessee's while it is WARM and
holds that lessee's operations (R393), else those of the lessee or of the granted request (R300). -/
def Dev.cutLease (d : Dev) (e : Engine) : Nat × Nat :=
  let cls (r : Req) : Nat := (d.engineClass e.core e.kind r.ctx).1
  let left := e.st == .warm && !(d.engineJobs e.core e.kind).isEmpty
  match if left then e.former else none, e.holder with
  | some r, _ => (cls r, e.formerAt)
  | none, some r => (cls r, e.granted)
  | none, none => (2, e.granted)

/-- Power that a die will still hold once the evictions for power have ended. -/
def Dev.lastingPower (d : Dev) (die : Nat) : Nat :=
  ((d.engines.filter fun e => dieOf e.core == die && e.st != .dark && !(e.st == .evicting && e.forPower)).map
    fun e => powerOf e.kind).sum

/-- A power cut (R300): WARM engines go dark, the longest idle first; then leases are evicted, lowest class first, newest
grant first. The number bounds the engines. -/
def Dev.cutPower (d : Dev) (die : Nat) : Nat → Dev
  | 0 => d
  | n + 1 =>
    if d.lastingPower die ≤ (d.allow[die]?).getD 0 then d
    else
      let here := d.engines.filter fun e => dieOf e.core == die && e.st != .dark
      match leastBy (·.idle) (here.filter d.canDarken) with
      | some e => (d.modEngine e.core e.kind Engine.darken).cutPower die n
      | none =>
        match leastBy (fun e => let l := d.cutLease e; (2 - l.1) * 2 ^ 80 + (d.clock - l.2))
            (here.filter fun e => !(e.st == .evicting && e.forPower)) with
        | none => d
        | some e =>
          let idle := (d.engineJobs e.core e.kind).isEmpty
          let d := match e.st with
            | .waking => d.modEngine e.core e.kind fun e => e.withdraw.darken
            | .warm =>
              let d := d.modEngine e.core e.kind Engine.withdraw
              if idle then d.modEngine e.core e.kind Engine.darken else d.evict e.core e.kind true
            | _ => d.evict e.core e.kind true
          d.cutPower die n

/-- The engine allowance of a die in 1,600ths of a watt (R349, R350, R357): P / 8, less the controller's cuts, halved at
thermal level 2; and in tenths of a watt. -/
def Mgmt.dieShare (m : Mgmt) (die : Nat) : Nat := m.watts * (100 - 5 * m.cuts) * (if 2 ≤ assoc m.levels die then 1 else 2)
def Mgmt.dieAllow (m : Mgmt) (die : Nat) : Nat := m.dieShare die / 160

/-- Every request of a die that can be granted now is granted (R303). -/
def Dev.grantDie (d : Dev) (die : Nat) : Dev :=
  (d.engines.filter fun e => dieOf e.core == die && !e.queue.isEmpty).foldl (fun d e => d.grantHead e.core e.kind) d

/-- A die's allowance changes: a request that can be granted in that cycle is granted first, and a fall is met at once (R300,
R303). -/
def Dev.putAllowance (d : Dev) (die deciwatts : Nat) : Dev :=
  let d := d.grantDie die
  ({ d with allow := d.allow.set die deciwatts } : Dev).cutPower die 2688

/-- ALLOWANCE_CUT (R300): the die's allowance becomes what its cap gives, or less when a rail gives less. -/
def execAllowanceCut (die deciwatts : Nat) (s : State) : Host.Outcome State Fault Refusal :=
  onDev s fun d => d.putAllowance die (min deciwatts (s.mgmt.dieAllow die))

/-- Cycles of a unit of an engine's budget (Table 10-1). -/
def unitCycles : EngKind → Nat
  | .tile => 80
  | .table => 16
  | .select => 64

/-- A class-0 request has waited longer than its bound (R301). -/
def Dev.overdue (d : Dev) (p : Point) (k : EngKind) (r : Req) : Bool :=
  match d.server? r.ctx p with
  | some q => q.args.cls == 0 && decide (q.period 0 - q.quota 0 * unitCycles k < d.clock - r.at_)
  | none => false

/-- CLASS0_EVICT (R301): any class-0 request in the queue may be the one whose bound has passed. -/
def execClass0Evict (core : Nat) (k : EngKind) (s : State) : Host.Outcome State Fault Refusal :=
  onDev s fun d =>
    let e := d.engine core k
    let p := enginePoint core k
    match e.st, e.holder with
    | .leased, some h =>
      let least := match d.server? h.ctx p with | some x => x.period 0 | none => 24000
      if e.queue.any (d.overdue p k) && decide (0 < d.classAt h.ctx p ∧ least ≤ d.clock - e.since)
      then d.evict core k false else d
    | _, _ => d

/-- An engine that is being evicted gives up: operations that have not started are discarded, LEASELOST is raised, the
contents are lost, and the engine goes on or dark (R210, R296, R393). `more` are waves whose running operations were
stopped. -/
def Dev.engineStop (d : Dev) (core : Nat) (k : EngKind) (more : List Nat) : Dev :=
  let e := d.engine core k
  let gone := (d.engineJobs core k).filter fun j => e.forPower || e.holder.any (·.wave == j.wave)
  let d := gone.foldl (fun d j => d.endJob j.id j.clock) d
  let told := ((e.holder.toList.map (·.wave)) ++ more ++ gone.map (·.wave)).eraseDups
  let note := e.holder.toList.map fun r => (⟨r.ticket, r.wave, true⟩ : Note)
  let d := d.modEngine core k fun e =>
    { e with notes := e.notes ++ note, lut := [], slots := [], stale := [], former := none, holder := none, idle := d.clock }
  let d :=
    if e.forPower then d.modEngine core k Engine.darken
    else
      let d := (d.modEngine core k fun e => { e with st := .leased }).grantHead core k
      if (d.engine core k).holder.isNone then d.modEngine core k fun e => { e with st := .warm } else d
  told.foldl (fun d w => d.raiseAsync w cLeaselost) d

/-- ENGINE_STOPPED (R210): nothing that the eviction waits for runs any more. -/
def execEngineStopped (core : Nat) (k : EngKind) (s : State) : Host.Outcome State Fault Refusal :=
  onDev s fun d =>
    let e := d.engine core k
    let waitsFor (j : Job) : Bool := j.started || (!e.forPower && !e.holder.any (·.wave == j.wave))
    if e.st == .evicting && !(d.engineJobs core k).any waitsFor then d.engineStop core k [] else d

/-! ## Energy periods, rotation (R285, R299) -/

/-- ENERGY_PERIOD (R299): a new period begins; what exceeds the allowance is carried as a debt. -/
def execEnergyPeriod (ctx : Nat) (s : State) : Host.Outcome State Fault Refusal :=
  onDev s fun d => d.modCtx ctx fun c =>
    if d.clock < c.period + 2400000 then c
    else { c with period := c.period + 2400000, debt := c.debt + c.spent - c.allow * 24000, spent := 0 }

/-- ROT_ADVANCE (R285). -/
def execRotAdvance (s : State) : Host.Outcome State Fault Refusal :=
  onDev s fun d => { d with rot := d.clock / 2400 % 256 }

end Sys2Proof.Machine
end

