-- ==== Sys2Proof/Machine/Tile.lean ====
section
/-!
DEFINITION. The tile engine: formats and the order of sums (02: R57 to R67), its instructions (07: R211 to R218), and its
steps (R213, R215, R302, R392).
-/

namespace Sys2Proof.Machine

/-! ## Format words (R57, R62, R63) -/

/-- Bytes per 32 elements of a format code (Table 2-5). -/
def fmtBytes (f : Nat) (scaled : Bool) : Nat :=
  (([64, 64, 32, 32, 16, 8][f]?).getD 0) + scaled.toNat

abbrev fmtA (f : Lane) : Nat := f.toNat % 16
abbrev fmtB (f : Lane) : Nat := f.toNat / 16 % 16
abbrev scA (f : Lane) : Bool := f.getLsbD 8
abbrev scB (f : Lane) : Bool := f.getLsbD 9

/-- FMAs per cycle of a format pair; none where the pair is not legal (Table 2-9). -/
def pairRate (a b : Nat) : Option Nat :=
  if (a = 0 ∧ b = 0) ∨ (a = 1 ∧ b = 1) then some 8192
  else if (a = 2 ∨ a = 3) ∧ (b = 2 ∨ b = 3 ∨ b = 5) then some 16384
  else if a = 4 ∧ b = 4 then some 32768 else none

/-- A legal format word (R63). -/
def legalFormat (f : Lane) : Bool :=
  (pairRate (fmtA f) (fmtB f)).isSome && (fmtB f != 5 || scB f)
    && (decide (2 ≤ fmtA f) || (!scA f && !scB f)) && f.toNat / 2 ^ 10 % 4 == 0 && f.toNat / 2 ^ 14 == 0

/-! ## Operands of a K-block (R57 to R61) -/

/-- Bit `i` of the bytes of an LC2 index is the sign of weight `i − 9`; the last sign makes the count even (R59). -/
def lc2Sign (x j : Nat) : Bool :=
  if j < 7 then Nat.testBit x (9 + j) else (List.range 7).foldl (fun b i => xor b (Nat.testBit x (9 + i))) false

/-- Weight `j` of an index (R59, R61). -/
def lc2Weight (lut : List Lane) (x j : Nat) : Fp :=
  let e := ((lut[x % 512]?).getD 0).toNat
  .fin ⟨lc2Sign x j, e / 2 ^ (4 * j) % 16, -2⟩

/-- The 32 values of a K-block in a format (R57, R59). -/
def blockValues (lut : List Lane) (f : Nat) (bs : List Byte) : List Fp :=
  (List.range 32).map fun i =>
    match f with
    | 0 => bf16.decode (field bs (2 * i) 2)
    | 1 => fp16.decode (field bs (2 * i) 2)
    | 2 => e4m3.decode (field bs i 1)
    | 3 => e5m2.decode (field bs i 1)
    | 4 => e2m1.decode (field bs (i / 2) 1 / 16 ^ (i % 2) % 16)
    | _ => lc2Weight lut (field bs (2 * (i / 8)) 2) (i % 8)

/-- The scale byte of a block; 127 where there is none. -/
def blockScaleByte (f : Nat) (scaled : Bool) (bs : List Byte) : Nat := if scaled then field bs (fmtBytes f false) 1 else 127

/-- V of a K-block (R65, R66). -/
def blockValue (as bs : List Fp) (ka kb : Nat) : Lane :=
  let ps := List.zipWith mulFp as bs
  if as.contains .nan || bs.contains .nan || ka == 255 || kb == 255 || ps.contains .nan then canonNaN32
  else if ps.contains (.inf false) && ps.contains (.inf true) then canonNaN32
  else if ps.contains (.inf false) then 0x7F800000
  else if ps.contains (.inf true) then 0xFF800000
  else
    let z := Dy.sum (ps.filterMap fun p => match p with | .fin y => some y | _ => none)
    if z.m = 0 then 0 else lane32 (fp32.round .rne { z with e := z.e + ka + kb - 254 })

/-- A block of an operand: its values, negated on request, and its scale byte. -/
def operandBlock (lut : List Lane) (f : Nat) (scaled neg : Bool) (bs : List Byte) : List Fp × Nat :=
  let vs := blockValues lut f bs
  (if neg then vs.map Fp.negate else vs, blockScaleByte f scaled bs)

/-- A K-block is added to the accumulator, row-major (R65). -/
def addBlock (lut : List Lane) (f : Lane) (rows cols : List (List Byte)) (acc : List Lane) : List Lane :=
  let as := rows.map (operandBlock lut (fmtA f) (scA f) (f.getLsbD 12))
  let bs := cols.map (operandBlock lut (fmtB f) (scB f) (f.getLsbD 13))
  List.zipWith (fun x (v : Lane) => fadd .rne x v) acc (as.flatMap fun a => bs.map fun b => blockValue a.1 b.1 a.2 b.2)

/-! ## Shape words (Table 7-3) -/

structure Shape where
  mt     : Nat
  nt     : Nat
  kb     : Nat
  kstart : Nat
deriving DecidableEq, Repr

def Shape.ofWord (x : Word) : Shape :=
  ⟨x.toNat % 256, x.toNat / 2 ^ 8 % 256, x.toNat / 2 ^ 16 % 2 ^ 16, x.toNat / 2 ^ 32 % 2 ^ 16⟩
def Shape.m (s : Shape) : Nat := 16 * s.mt
def Shape.n (s : Shape) : Nat := 16 * s.nt
/-- MT, NT and the reserved bits are as Table 7-3 has them. -/
def tileOk (x : Word) (s : Shape) (most : Nat) : Bool :=
  x.toNat / 2 ^ 48 == 0 && decide (1 ≤ s.mt ∧ s.mt ≤ 16 ∧ 1 ≤ s.nt ∧ s.nt ≤ 16 ∧ s.mt * s.nt ≤ most)

/-! ## Issue (R201 to R203, R208, R212) -/

/-- The wave holds the lease of a kind (R208). -/
def Dev.hasLease (d : Dev) (k : Issue) (kd : EngKind) : Bool := (d.engine k.core kd).holds k.wave.id

/-- A range lies within a block's range of a space. -/
def Block.fits (b : Block) (sp : Space) (off n : Nat) : Bool := decide (off + n ≤ (b.range sp).len)

/-- A footprint in a block's range of a space. -/
def localFoot (b : Block) (sp : Space) (off n : Nat) (w : Bool) : Foot :=
  ⟨some (b.core, sp), (b.range sp).base + off, (b.range sp).base + off + n, w⟩

/-- A job of an engine is issued: it counts, stalls at the counter's maximum or the checker's limit, and goes on. -/
def Dev.issueJob (d : Dev) (k : Issue) (full : Bool) (kind : JobKind) (foot : List Foot) (f : Dev → Dev) : Dev :=
  if full || d.checkerFull k.ctx.n then d.stall k (.full (if kind.inTl then .tl else .fx))
  else
    d.whenSettled k fun d =>
      let (id, d) := d.fresh
      (f (d.addJob {
        id := id, ctx := k.ctx.n, block := k.block.id, wave := k.wave.id, pc := k.pc, gang := k.gang
        kind := kind, foot := foot, entered := false, after := [], clock := k.wave.lts })).advance k 12

/-- The format word that the active lanes agree on (R64). -/
def Dev.voteFormat (d : Dev) (k : Issue) (v : VReg) : Option Lane :=
  match (lanesOf (k.active ⟨false, 0⟩)).map (d.source k v.toNat) with
  | [] => none
  | x :: xs => if xs.all (· == x) then some x else none

/-- The checks of R212 after the lease, in their order. -/
def tmmaCheck (b : Block) (f : Lane) (x : Word) (most da aa ba : Nat) : Option Nat :=
  let s := Shape.ofWord x
  if !legalFormat f then some cIllegal
  else if !tileOk x s most || s.kb = 0 || decide (s.kb ≤ s.kstart) then some cObject
  else if aa % 16 ≠ 0 ∨ ba % 16 ≠ 0 ∨ da % 16 ≠ 0 then some cAlign
  else if !b.fits .abuf aa (s.m * s.kb * fmtBytes (fmtA f) (scA f)) || !b.fits .wbuf ba (s.n * s.kb * fmtBytes (fmtB f) (scB f))
      || !b.fits .acc da (4 * s.m * s.n) then some cRights
  else none

/-- The `tmma` forms (R212). -/
def tmmaIssue (st : State) (form : TmmaForm) (v : VReg) (sd sa sb sc : SReg) : Host.Outcome State Fault Refusal :=
  issue st fun k d =>
    let most := if form = .x2 then 32 else 64
    let x := k.rd sc
    let (da, aa, ba) := ((k.rd sd).toNat, (k.rd sa).toNat, (k.rd sb).toNat)
    if !k.inWindow [v.toNat] then d.trap k cRegrange
    else if !k.whole then d.trap k cGang
    else if !d.hasLease k .tile then d.trap k cNolease
    else
      match d.voteFormat k v with
      | none => d.trap k cFmtdiv
      | some f =>
        match tmmaCheck k.block f x most da aa ba with
        | some e => d.trap k e
        | none =>
          let s := Shape.ofWord x
          let token := k.wave.tokens.headD 0 + 1
          let foot := [localFoot k.block .abuf aa (s.m * s.kb * fmtBytes (fmtA f) (scA f)) false,
            localFoot k.block .wbuf ba (s.n * s.kb * fmtBytes (fmtB f) (scB f)) false,
            localFoot k.block .acc da (4 * s.m * s.n) true]
          d.issueJob k (decide (14 ≤ d.tl k.wave.id))
            (.tile (.mma form f da aa ba s.mt s.nt s.kb s.kstart token) s.kstart none none) foot
            fun d => d.onWave k fun w => { w with tokens := w.tokens.set 0 token }

/-- `tmma` (R212). -/
def execTmma (v : VReg) (d a b c : SReg) (s : State) : Host.Outcome State Fault Refusal := tmmaIssue s .plain v d a b c
/-- `tmma.z` (R212). -/
def execTmmaZ (v : VReg) (d a b c : SReg) (s : State) : Host.Outcome State Fault Refusal := tmmaIssue s .zero v d a b c
/-- `tmma.x2` (R212, R214). -/
def execTmmaX2 (v : VReg) (d a b c : SReg) (s : State) : Host.Outcome State Fault Refusal := tmmaIssue s .x2 v d a b c

/-- The lease, the shape, the offsets and the extents of `tzero` and `tcvt` (R217). -/
def Dev.accCheck (d : Dev) (k : Issue) (x : Word) (da : Nat) (out : Option (Nat × Nat)) : Option Nat :=
  let s := Shape.ofWord x
  if !k.whole then some cGang
  else if !d.hasLease k .tile then some cNolease
  else if !tileOk x s 64 || s.kb ≠ 0 || s.kstart ≠ 0 then some cObject
  else if da % 16 ≠ 0 ∨ out.any (·.1 % 16 ≠ 0) then some cAlign
  else if !k.block.fits .acc da (4 * s.m * s.n) || out.any (fun o => !k.block.fits .abuf o.1 o.2) then some cRights
  else none

/-- `tzero` (R217). -/
def execTzero (dest c : SReg) (s : State) : Host.Outcome State Fault Refusal :=
  guarded s (fun k d => d.accCheck k (k.rd c) (k.rd dest).toNat none) fun k d =>
    let sh := Shape.ofWord (k.rd c)
    let da := (k.rd dest).toNat
    d.issueJob k (decide (14 ≤ d.tl k.wave.id)) (.tile (.zero da sh.mt sh.nt) 0 none none)
      [localFoot k.block .acc da (4 * sh.m * sh.n) true] id

/-- Output bytes of an element (R217). -/
def cvtBytes : TcvtForm → Nat
  | .bf16Rne => 2
  | .bf16Sat => 2
  | .f16Rne => 2
  | .f16Sat => 2
  | _ => 1

/-- The conversion of an accumulator value (R67, Table 2-11). -/
def cvtAcc (f : TcvtForm) (s : Int) (x : Lane) : Nat :=
  let y : Fp := match dec32 x with | .fin z => .fin { z with e := z.e + s } | z => z
  match f with
  | .bf16Rne => cvtTo bf16 .rne .inf .inf y
  | .bf16Sat => cvtTo bf16 .rne .max .max y
  | .f16Rne => cvtTo fp16 .rne .inf .inf y
  | .f16Sat => cvtTo fp16 .rne .max .max y
  | .e4m3Rne => cvtTo e4m3 .rne .nan .nan y
  | .e4m3Sat => cvtTo e4m3 .rne .max .max y
  | .e5m2Rne => cvtTo e5m2 .rne .inf .inf y
  | .e5m2Sat => cvtTo e5m2 .rne .max .max y

/-- `tcvt` (R217). -/
def execTcvt (f : TcvtForm) (b dest c : SReg) (sc : BitVec 8) (s : State) : Host.Outcome State Fault Refusal :=
  let size (k : Issue) : Nat := let sh := Shape.ofWord (k.rd c); cvtBytes f * (sh.m * sh.n)
  guarded s (fun k d => d.accCheck k (k.rd c) (k.rd dest).toNat (some ((k.rd b).toNat, size k))) fun k d =>
    let sh := Shape.ofWord (k.rd c)
    let da := (k.rd dest).toNat
    let ba := (k.rd b).toNat
    d.issueJob k (decide (14 ≤ d.tl k.wave.id)) (.tile (.cvt f ba da sh.mt sh.nt sc.toInt) 0 none none)
      [localFoot k.block .acc da (4 * sh.m * sh.n) false, localFoot k.block .abuf ba (size k) true] id

/-- Every page of an image can be read here (R218, R219): else the first cause is raised. The pages have been looked up (R258). -/
def Dev.imageChecked (d : Dev) (k : Issue) (a n : Nat) (f : Dev → Dev) : Dev :=
  let y := d.lookedAll k.core k.ctx ((spans 4096 a n).map (·.va))
  match (spans 4096 a n).findSome? fun sp =>
      match d.unitPlace k.core k.ctx sp.va needR with
      | .ok _ => none
      | .error e => some (e, sp.va) with
  | some (e, x) => y.trapMem k e (BitVec.ofNat 64 x) (1#32 <<< (4 * lowStrand k.gang))
  | none => f y

/-- `tdload` (R218). -/
def execTdload (a : SReg) (s : State) : Host.Outcome State Fault Refusal :=
  issue s fun k d =>
    let va := (k.rd a).toNat
    if !k.whole then d.trap k cGang
    else if va % 2048 ≠ 0 then d.trapMem k cAlign (k.rd a) (1#32 <<< (4 * lowStrand k.gang))
    else
      d.imageChecked k va 2048 fun d =>
        if !d.hasLease k .tile then d.trap k cNolease
        else
          d.issueJob k (decide (14 ≤ d.tl k.wave.id)) (.tile (.dload va) 0 none none) [⟨none, va, va + 2048, false⟩] id

/-- The words of a tile record (Table 7-4). -/
def TileRec.words (r : TileRec) : List Word :=
  [BitVec.ofNat 64 (r.state * 2 ^ 62 + r.cause * 2 ^ 56 + r.form * 2 ^ 32 + r.token),
   BitVec.ofNat 64 (r.kend * 2 ^ 32 + r.kstart * 2 ^ 16 + r.commit)]

/-- `tstat` (R216). -/
def execTstat (dest : SReg) (s : State) : Host.Outcome State Fault Refusal :=
  andNext s 12 fun k d => d.setRun k dest k.wave.trec.words

/-! ## Steps (R213, R302, R392) -/

/-- K-blocks of the next step, its cycles on the island's clock, and its charge at the tile-engine point (R213, R392,
Table 10-1). -/
def TileOp.blocks (o : TileOp) (pos : Nat) : List Nat :=
  match o with
  | .mma .x2 _ _ _ _ _ _ kb _ _ => if pos + 1 < kb then [pos, pos + 1] else [pos]
  | .mma .. => [pos]
  | _ => []
def TileOp.cycles (o : TileOp) (pos : Nat) : Nat :=
  match o with
  | .mma _ f _ _ _ mt nt _ _ _ =>
    let rate := (pairRate (fmtA f) (fmtB f)).getD 8192
    16 + ((o.blocks pos).length * (16 * mt) * (16 * nt) * 32 + rate - 1) / rate
  | .zero _ mt nt => 16 + (4 * (16 * mt) * (16 * nt) + 511) / 512
  | .cvt f _ _ mt nt _ => 16 + (cvtBytes f * min 4096 (256 * mt * nt - pos) + 127) / 128
  | .dload _ => 24
def TileOp.charge (o : TileOp) (pos : Nat) : Nat := (o.blocks pos).length

/-- Cycles of `%clock` that `n` cycles of a core's island take from `now` on (R213, R352): at half frequency while its rail
stretches the clocks (R356). -/
def Mgmt.islandTime (m : Mgmt) (now core n : Nat) : Nat :=
  let mhz := max 1 (((m.islands.find? (·.n == core)).map (·.mhz)).getD 1800)
  let slow := ((m.rails.find? (·.n == core / 32)).bind (·.stretch)).getD now - now
  if n * 4800 ≤ slow * mhz then (n * 4800 + mhz - 1) / mhz
  else slow + (n * 4800 - slow * mhz + 2 * mhz - 1) / (2 * mhz)

/-- The context with work at a tile engine, and the charge of its next quantum: an operation that may start, or one that
waits between steps. -/
def Dev.tileWants (d : Dev) (core : Nat) : List (Nat × Nat) :=
  match d.engineJobs core .tile with
  | [] => []
  | j :: _ =>
    match j.kind with
    | .tile o pos (some 0) _ => [(j.ctx, o.charge pos)]
    | .tile o pos none _ => if (d.headReady core .tile).isSome then [(j.ctx, o.charge pos)] else []
    | _ => []

/-- Contexts whose work is pending at an engine: what may start there, and every operation that runs or stands in the queue and
is not ordered after another (R284). -/
def Dev.enginePending (d : Dev) (core : Nat) (kd : EngKind) (wants : List (Nat × Nat)) : List (Nat × Nat) :=
  wants ++ ((d.engineJobs core kd).filter fun j => j.mayRun || j.started).map fun j => (j.ctx, 0)

/-- The budget at a tile engine lets the operation at its head begin (R284, R285). -/
def Dev.mayBegin (d : Dev) (core : Nat) : Bool :=
  let wants := d.tileWants core
  let d := d.syncPoint (.tile core) 0 (d.enginePending core .tile wants)
  (d.choose (.tile core) 0 wants (d.lastTurn (.tile core))).isSome

/-- The next step of the operation at the head begins if the server's budget allows it (R284, R285). -/
def Dev.beginStep (d : Dev) (m : Mgmt) (core : Nat) (ok : Job → Bool) (f : Dev → Job → Dev) : Dev :=
  let p : Point := .tile core
  let wants := d.tileWants core
  let d := d.syncPoint p 0 (d.enginePending core .tile wants)
  match d.choose p 0 wants (d.lastTurn p), d.engineJobs core .tile with
  | some c, j :: _ =>
    match j.kind with
    | .tile o pos _ stop =>
      if j.ctx = c ∧ ok j then
        let d := (d.chargeAt c p 0 (o.charge pos)).noteTurn p c
        let till := d.clock + m.islandTime d.clock core (o.cycles pos)
        f (d.modJob j.id fun j => { j with kind := .tile o pos (some till) stop }) j
      else d
    | _ => d
  | _, _ => d

/-- A tile record is written in its wave (R216). -/
def Dev.setRec (d : Dev) (wave : Nat) (o : TileOp) (state cause commit : Nat) : Dev :=
  match o with
  | .mma form _ _ _ _ _ _ kb ks t =>
    let code := match form with | .plain => 0 | .zero => 1 | .x2 => 2
    d.modWave wave fun w => { w with trec := ⟨state, cause, code, t, kb, ks, commit⟩ }
  | _ => d

/-- The start group of a core (R302). -/
def surgeGroup (core : Nat) : Nat := dieOf core * 14 + core % 224 / 16

/-- TILE_OP_START (R302): the operation at the head starts through the current-surge arbiter: the first of its group to have
come there, if nothing has started in the group for 16 cycles. -/
def execTileOpStart (core : Nat) (s : State) : Host.Outcome State Fault Refusal :=
  onDev s fun d =>
    let g := surgeGroup core
    let open_ := match d.surge.find? (·.1 == g) with | some x => decide (x.2 + 16 ≤ d.clock) | none => true
    match d.headReady core .tile with
    | none => d
    | some h =>
      let first := d.surgeWait.find? fun c => surgeGroup c == g && (d.headReady c .tile).isSome && d.mayBegin c
      if !open_ || first.any (· != core) then d
      else
        d.beginStep s.mgmt core (fun j => j.id == h.id) fun d j =>
          let d : Dev := { d with surge := assocPut d.surge g d.clock, surgeWait := d.surgeWait.filter (· != core) }
          let d := d.modEngine core .tile fun e => e.clearBefore j.id
          match j.kind with
          | .tile o pos _ _ => d.setRec j.wave o 1 0x3F pos
          | _ => d

/-- A failure found by an engine after issue is reported to its wave. -/
def Dev.report (d : Dev) (j : Job) (cause addr : Nat) : Dev :=
  d.notice j.wave j.block j.ctx j.gang j.pc j.clock cause addr

/-- The end of a tile operation: its `tl` count ends and its time is kept (R202). -/
def Dev.endTile (d : Dev) (core : Nat) (j : Job) (t : Nat) : Dev :=
  let d := (d.modWave j.wave fun w => { w with doneTl := max w.doneTl t }).modBlock j.block fun b =>
    { b with time := max b.time t }
  d.leaveEngine core .tile j.id t

/-- Operations of a wave that are queued behind a stop are discarded (R210, R215). -/
def Dev.discardQueued (d : Dev) (core : Nat) (kd : EngKind) (wave : Nat) : Dev :=
  (((d.engineJobs core kd).filter fun j => j.wave == wave && !j.started).foldl (fun d j => d.endJob j.id j.clock) d).noteIdle core kd

/-- A tile operation stops at a commit boundary (R215): a former lessee's wave that an eviction stops is told (R393). -/
def Dev.stopTile (d : Dev) (core : Nat) (j : Job) (o : TileOp) (pos cause : Nat) : Dev :=
  let former := !(d.engine core .tile).holder.any (·.wave == j.wave)
  let d := (d.setRec j.wave o 3 cause pos).endTile core j j.clock
  if cause = cIntegrity then (d.discardQueued core .tile j.wave).raiseAsync j.wave cIntegrity
  else if cause = cLeaselost && former then d.raiseAsync j.wave cLeaselost else d

/-- Ranges of equal length are read one after the other. -/
def Dev.readRows (d : Dev) (core : Nat) (sp : Space) (base stride n : Nat) : Nat → Nat → Dev × Nat × Option (List (List Byte))
  | 0, c => (d, c, some [])
  | m + 1, c =>
    match d.readBuf core sp base n c with
    | (d, t, none) => (d, t, none)
    | (d, t, some bs) =>
      match d.readRows core sp (base + stride) stride n m t with
      | (d, t, some l) => (d, t, some (bs :: l))
      | r => r

/-- FP32 words of some bytes. -/
def lanesOfBytes (n : Nat) (bs : List Byte) : List Lane := (List.range n).map fun i => lane32 (field bs (4 * i) 4)

/-- The K-blocks of a step are added to an accumulator (R65). -/
def Dev.mmaBlocks (d : Dev) (b : Block) (lut : List Lane) (f : Lane) (aa ba m n kb : Nat) :
    List Nat → Nat → List Lane → Dev × Nat × Option (List Lane)
  | [], c, acc => (d, c, some acc)
  | x :: xs, c, acc =>
    let la := fmtBytes (fmtA f) (scA f)
    let lb := fmtBytes (fmtB f) (scB f)
    match d.readRows b.core .abuf (b.abuf.base + aa + x * la) (kb * la) la m c with
    | (d, c, none) => (d, c, none)
    | (d, c, some rows) =>
      match d.readRows b.core .wbuf (b.wbuf.base + ba + x * lb) (kb * lb) lb n c with
      | (d, c, none) => (d, c, none)
      | (d, c, some cols) => d.mmaBlocks b lut f aa ba m n kb xs c (addBlock lut f rows cols acc)

/-- What a step of a `tmma` form does to `acc` (R212): its time, unless a word cannot be read. -/
def Dev.mmaStep (d : Dev) (b : Block) (lut : List Lane) (form : TmmaForm) (f : Lane) (da aa ba mt nt kb ks pos c : Nat)
    (ks' : List Nat) : Dev × Nat × Bool :=
  let n := 256 * mt * nt
  let start : Dev × Nat × Option (List Byte) :=
    if form = .zero ∧ pos = ks then (d, c, some (List.replicate (4 * n) 0))
    else d.readBuf b.core .acc (b.acc.base + da) (4 * n) c
  match start with
  | (d, c, none) => (d, c, false)
  | (d, c, some bs) =>
    match d.mmaBlocks b lut f aa ba (16 * mt) (16 * nt) kb ks' c (lanesOfBytes n bs) with
    | (d, c, none) => (d, c, false)
    | (d, c, some acc) =>
      let (d, t) := d.writeBuf b.core .acc (b.acc.base + da) c (acc.flatMap fun x => leBytes 4 x.toNat)
      (d, t, true)

/-- The running operation of a tile engine, with the end of its step. -/
def Dev.runningTile (d : Dev) (core : Nat) : Option (Job × TileOp × Nat × Nat × Option Nat) :=
  (d.engineJobs core .tile).findSome? fun j =>
    match j.kind with
    | .tile o pos (some t) stop => some (j, o, pos, t, stop)
    | _ => none

/-- TILE_COMMIT (R212, R213, R215): the step commits; the operation ends, stops, or goes on. -/
def execTileCommit (core : Nat) (s : State) : Host.Outcome State Fault Refusal :=
  onDev s fun d =>
    match d.runningTile core with
    | some (j, .mma form f da aa ba mt nt kb ks tok, pos, t, stop) =>
      let o : TileOp := .mma form f da aa ba mt nt kb ks tok
      if t = 0 then (match stop with | some c => d.stopTile core j o pos c | none => d)
      else if d.clock < t then d
      else
        match d.block? j.block with
        | none => d
        | some b =>
          let blocks := o.blocks pos
          match d.mmaStep b (d.engine core .tile).lut form f da aa ba mt nt kb ks pos j.clock blocks with
          | (d, _, false) => d.stopTile core j o pos cIntegrity
          | (d, c, true) =>
            let pos := pos + blocks.length
            let j : Job := { j with clock := c }
            if kb ≤ pos then (d.setRec j.wave o 2 0x3F pos).endTile core j c
            else
              match stop with
              | some cause => d.stopTile core j o pos cause
              | none =>
                let d := d.modJob j.id fun j => { j with kind := .tile o pos (some 0) none, clock := c }
                (d.setRec j.wave o 1 0x3F pos).beginStep s.mgmt core (fun _ => true) fun d _ => d
    | _ => d

/-- TCVT_STEP (R217, R218, R392): a step of `tzero`, `tcvt` or `tdload` ends. -/
def execTcvtStep (core : Nat) (s : State) : Host.Outcome State Fault Refusal :=
  onDev s fun d =>
    match d.runningTile core with
    | none => d
    | some (j, o, pos, t, _) =>
      if t = 0 ∨ d.clock < t then d
      else
        match d.block? j.block, d.ctx? j.ctx, o with
        | some b, _, .zero da mt nt =>
          let (d, c) := d.writeBuf b.core .acc (b.acc.base + da) j.clock (List.replicate (1024 * mt * nt) 0)
          d.endTile core j c
        | some b, _, .cvt f ba da mt nt sc =>
          let all := 256 * mt * nt
          let n := min 4096 (all - pos)
          match d.readBuf b.core .acc (b.acc.base + da + 4 * pos) (4 * n) j.clock with
          | (d, _, none) => d.stopTile core j o pos cIntegrity
          | (d, c, some bs) =>
            let out := (lanesOfBytes n bs).flatMap fun x => leBytes (cvtBytes f) (cvtAcc f sc x)
            let (d, c) := d.writeBuf b.core .abuf (b.abuf.base + ba + cvtBytes f * pos) c out
            if all ≤ pos + n then d.endTile core { j with clock := c } c
            else
              let d := d.modJob j.id fun j => { j with kind := .tile o (pos + n) (some 0) none, clock := c }
              d.beginStep s.mgmt core (fun _ => true) fun d _ => d
        | some _, some x, .dload va =>
          match d.reachRead core x j.id 32 va 2048 j.clock 1 with
          | (d, .missing) => d
          | (d, .ok c bs) =>
            (d.modEngine core .tile fun e => { e with lut := lanesOfBytes 512 bs }).endTile core j c
          | (d, .fail e a) =>
            ((d.modEngine core .tile fun e => { e with lut := [] }).report j e (if e = cIntegrity then a / 32 * 32 else a)).endTile
              core j j.clock
        | _, _, _ => d

end Sys2Proof.Machine
end

