-- ==== Sys2Proof/Machine/FxEngines.lean ====
section
/-!
DEFINITION. The table and select engines: slots and their evaluation (02: R68 to R70), the order of keys and the select
operations (07: R219 to R223), and their steps (R202, R285).
-/

namespace Sys2Proof.Machine

/-! ## Table slots (R68 to R70) -/

/-- A slot's image is valid (R70). -/
def slotOk (img : List Byte) : Bool :=
  let lo := dec32 (lane32 (field img 0 4))
  let hi := dec32 (lane32 (field img 4 4))
  decide (field img 8 1 ≤ 24) && zeroField img 9 7 && lo != .nan && hi != .nan && !fpLt hi lo

/-- The value of a slot's function (R69). -/
def slotValue (img : List Byte) (x : Lane) : Lane :=
  let lo := lane32 (field img 0 4)
  let hi := lane32 (field img 4 4)
  let shift := field img 8 1
  if dec32 x = .nan then canonNaN32
  else
    let x := if fpLt (dec32 x) (dec32 lo) then lo else if fpLt (dec32 hi) (dec32 x) then hi else x
    let i := x.toNat / 2 ^ shift % 256
    let t := lane32 (fp32.round .rne ⟨false, x.toNat % 2 ^ shift, -(shift : Int)⟩)
    let c (n : Nat) : Lane := lane32 (field img (16 + 16 * i + 4 * n) 4)
    fma .rne (fma .rne (fma .rne (c 3) t (c 2)) t (c 1)) t (c 0)

/-- What `ftevl` gives on a slot of an engine (R70). -/
def Engine.evaluate (e : Engine) (slot : Nat) (x : Lane) : Lane :=
  match e.slots.find? (·.1 == slot) with
  | some (_, img) => slotValue img x
  | none => canonNaN32

/-! ## Issue (R219, R220, R222) -/

/-- `ftload` (R219). -/
def execFtload (slot : BitVec 2) (a : SReg) (s : State) : Host.Outcome State Fault Refusal :=
  issue s fun k d =>
    let va := (k.rd a).toNat
    if !k.whole then d.trap k cGang
    else if va % 16 ≠ 0 then d.trapMem k cAlign (k.rd a) (1#32 <<< (4 * lowStrand k.gang))
    else
      d.imageChecked k va 4112 fun d =>
        if !d.hasLease k .table then d.trap k cNolease
        else
          d.issueJob k (decide (6 ≤ d.fx k.wave.id)) (.fx (.ftload slot.toNat va) none) [⟨none, va, va + 4112, false⟩]
            fun d => d.onWave k fun w => { w with tokens := w.tokens.modify 1 (· + 1) }

/-- `ftevl` (R220): the active lanes' arguments are read at issue. -/
def execFtevl (g : Guard) (dest a : VReg) (slot : BitVec 2) (s : State) : Host.Outcome State Fault Refusal :=
  issue s fun k d =>
    if !k.inWindow [dest.toNat, a.toNat] then d.trap k cRegrange
    else if !k.whole then d.trap k cGang
    else if !d.hasLease k .table then d.trap k cNolease
    else
      let args := (lanesOf (k.active g)).map fun l => (l, d.source k a.toNat l)
      d.issueJob k (decide (6 ≤ d.fx k.wave.id)) (.fx (.ftevl slot.toNat dest args) none) []
        fun d => d.onWave k fun w => { w with tokens := w.tokens.modify 1 (· + 1) }


/-- Bytes of an element (Table 7-5). -/
def selSize (f : SelFlags) : Nat := if f.pair then 8 else 4

/-- The select operations (R222): the checks after the flags, which the encoding holds. `out` counts the elements
written. -/
def selectIssue (s : State) (dest a b : SReg) (f : SelFlags) (badK : Issue → Nat → Bool) (out : Issue → Nat → Nat)
    (op : Issue → Nat → Nat → Nat → FxOp) : Host.Outcome State Fault Refusal :=
  issue s fun k d =>
    let n := (k.rd b).toNat
    let da := (k.rd dest).toNat
    let sa := (k.rd a).toNat
    let size := selSize f
    let m := size * out k n
    if !k.whole then d.trap k cGang
    else if !d.hasLease k .select then d.trap k cNolease
    else if decide (16384 < n) || badK k n then d.trap k cObject
    else if sa % size ≠ 0 ∨ da % size ≠ 0 then d.trap k cAlign
    else if !k.block.fits .scratch sa (size * n) || !k.block.fits .scratch da m then d.trap k cRights
    else if !((sa == da && size * n == m) || decide (sa + size * n ≤ da ∨ da + m ≤ sa)) then d.trap k cObject
    else if n = 0 then d.advance k 12
    else
      d.issueJob k (decide (6 ≤ d.fx k.wave.id)) (.fx (op k da sa n) none)
        [localFoot k.block .scratch sa (size * n) false, localFoot k.block .scratch da m true]
        fun d => d.onWave k fun w => { w with tokens := w.tokens.modify 2 (· + 1) }

/-- `xsort` (R222, R223). -/
def execXsort (dest a b : SReg) (f : SelFlags) (s : State) : Host.Outcome State Fault Refusal :=
  selectIssue s dest a b f (fun _ _ => false) (fun _ n => n) fun _ da sa n => .sort da sa n f
/-- `xtopk` (R222, R223). -/
def execXtopk (dest a b c : SReg) (f : SelFlags) (s : State) : Host.Outcome State Fault Refusal :=
  selectIssue s dest a b f (fun k n => decide ((k.rd c).toNat < 1 ∨ n < (k.rd c).toNat)) (fun k _ => (k.rd c).toNat)
    fun k da sa n => .topk da sa n (k.rd c).toNat f
/-- `xscan` (R222, R223). -/
def execXscan (dest a b : SReg) (f : SelFlags) (s : State) : Host.Outcome State Fault Refusal :=
  selectIssue s dest a b f (fun _ _ => false) (fun _ n => n) fun _ da sa n => .scan da sa n f

/-! ## The select operations (R223) -/

/-- One key comes before another in ascending order: for FP32, −0 below +0 and every NaN above +Inf. -/
def keyBelow (key : SelKey) (a b : Lane) : Bool :=
  match key with
  | .n32 => a.ult b
  | .i32 => a.slt b
  | .f32 =>
    match dec32 a, dec32 b with
    | .nan, _ => false
    | _, .nan => true
    | x, y => fpBelow x y

/-- An element is put before the first that it must precede; the sort is stable. -/
def insertKey (before : Lane → Lane → Bool) (x : Lane × List Byte) : List (Lane × List Byte) → List (Lane × List Byte)
  | [] => [x]
  | y :: ys => if before y.1 x.1 then y :: insertKey before x ys else x :: y :: ys
def sortKeys (before : Lane → Lane → Bool) (l : List (Lane × List Byte)) : List (Lane × List Byte) :=
  l.foldr (insertKey before) []

/-- The order that the flags ask for. -/
def selBefore (f : SelFlags) (a b : Lane) : Bool := if f.desc then keyBelow f.key b a else keyBelow f.key a b

/-- The elements of a source. -/
def elementsOf (f : SelFlags) (n : Nat) (bs : List Byte) : List (Lane × List Byte) :=
  let size := selSize f
  (List.range n).map fun i => (lane32 (field bs (size * i) 4), ((bs.drop (size * i + 4)).take (size - 4)))

/-- The inclusive sum of the keys of a segment. -/
def keySum (key : SelKey) (ks : List Lane) : Lane :=
  match key with
  | .f32 => sumFp (ks.map dec32)
  | _ => ks.foldl (· + ·) 0

/-- The sums of `xscan`; `seen` are the keys of the segment so far. -/
def scanKeys (f : SelFlags) : List Lane → List (Lane × List Byte) → List (Lane × List Byte)
  | _, [] => []
  | seen, (k, p) :: xs =>
    let seen := if f.seg && leNat p != 0 then [k] else seen ++ [k]
    (keySum f.key seen, p) :: scanKeys f seen xs

/-- The bytes of elements. -/
def elementBytes (l : List (Lane × List Byte)) : List Byte := l.flatMap fun x => leBytes 4 x.1.toNat ++ x.2

/-! ## Steps -/

/-- The engine of an operation. -/
def FxOp.engine : FxOp → EngKind
  | .ftload .. => .table
  | .ftevl .. => .table
  | _ => .select

/-- The charge of an operation when it starts (Table 10-1). -/
def FxOp.charge : FxOp → Nat
  | .ftload .. => 16
  | .ftevl .. => 1
  | .sort _ _ n _ => max 1 ((n + 255) / 256)
  | .topk _ _ n _ _ => max 1 ((n + 255) / 256)
  | .scan _ _ n _ => max 1 ((n + 255) / 256)

def Dev.fxWants (d : Dev) (core : Nat) (kd : EngKind) : List (Nat × Nat) :=
  match d.headReady core kd with
  | some j => match j.kind with | .fx o _ => [(j.ctx, o.charge)] | _ => []
  | none => []

/-- The arbiter of a table or select engine starts the operation at its head (R285): an `ftevl` evaluates. -/
def Dev.startFx (d : Dev) (core : Nat) (kd : EngKind) : Dev :=
  let p := enginePoint core kd
  let wants := d.fxWants core kd
  let head := d.headReady core kd
  let d := d.syncPoint p 0 (d.enginePending core kd wants)
  match d.choose p 0 wants (d.lastTurn p), head with
  | some c, some j =>
    match j.kind with
    | .fx o _ =>
      let d := (d.chargeAt c p 0 o.charge).noteTurn p c
      let d := d.modEngine core kd fun e => e.clearBefore j.id
      let e := d.engine core kd
      let out := match o with
        | .ftevl slot _ args => args.map fun x => (x.1, e.evaluate slot x.2)
        | _ => []
      d.modJob j.id fun j => { j with kind := .fx o (some out) }
    | _ => d
  | _, _ => d

/-- The end of a table or select operation (R202). -/
def Dev.endFx (d : Dev) (core : Nat) (kd : EngKind) (j : Job) (t : Nat) : Dev :=
  let d := (d.modWave j.wave fun w => { w with doneFx := max w.doneFx t }).modBlock j.block fun b =>
    { b with time := max b.time t }
  d.leaveEngine core kd j.id t

/-- A select operation reads its source, and writes the elements that `f` makes of it. -/
def Dev.selectRun (d : Dev) (b : Block) (j : Job) (da sa n : Nat) (fl : SelFlags)
    (f : List (Lane × List Byte) → List (Lane × List Byte)) : Dev :=
  let size := selSize fl
  match d.readBuf b.core .scratch (b.scratch.base + sa) (size * n) j.clock with
  | (d, c, none) => (d.report j cIntegrity sa).endFx b.core .select j c
  | (d, c, some bs) =>
    let (d, c) := d.writeBuf b.core .scratch (b.scratch.base + da) c (elementBytes (f (elementsOf fl n bs)))
    d.endFx b.core .select j c

/-- FX_OP_COMPLETE (R202, R219 to R223). -/
def execFxOpComplete (job : Nat) (s : State) : Host.Outcome State Fault Refusal :=
  onDev s fun d =>
    match d.job? job with
    | none => d
    | some j =>
      match j.kind, d.block? j.block, d.ctx? j.ctx with
      | .fx o (some out), some b, some x =>
        match o with
        | .ftevl _ v _ =>
          let put (r : LaneVec) : LaneVec := r.mapIdx fun l y => ((out.find? (·.1 == l)).map (·.2)).getD y
          (d.modWave j.wave fun w => { w with v := w.v.modify v.toNat put }).endFx b.core .table j j.clock
        | .ftload slot va =>
          let put (img : Option (List Byte)) (d : Dev) : Dev := d.modEngine b.core .table fun e =>
            { e with slots := (match img with | some i => [(slot, i)] | none => []) ++ e.slots.filter (·.1 != slot) }
          match d.reachRead b.core x j.id 32 va 4112 j.clock 1 with
          | (d, .missing) => d
          | (d, .ok c bs) => (put (if slotOk bs then some bs else none) d).endFx b.core .table j c
          | (d, .fail e a) =>
            ((put none d).report j e (if e = cIntegrity then a / 32 * 32 else a)).endFx b.core .table j j.clock
        | .sort da sa n f => d.selectRun b j da sa n f (sortKeys (selBefore f))
        | .topk da sa n k f => d.selectRun b j da sa n f fun l => (sortKeys (selBefore f) l).take k
        | .scan da sa n f => d.selectRun b j da sa n f (scanKeys f [])
      | _, _, _ => d

end Sys2Proof.Machine
end

