-- ==== Sys2Proof/Machine/Work.lean ====
section
/-!
DEFINITION. Instructions that read a record at issue (07: R201): collectives (R224 to R227), work creation (R228 to R234)
and `cancel` (R41, R235).
-/

namespace Sys2Proof.Machine

/-! ## Records read at issue (R201) -/

/-- The fault mask of an instruction that the gang's lowest strand speaks for. -/
def Issue.lowMask (k : Issue) : LaneMask := 1#32 <<< (4 * lowStrand k.gang)

/-- The wave's clock as it stands. -/
def Dev.ltsOf (d : Dev) (k : Issue) : Nat := ((d.wave? k.wave.id).map (·.lts)).getD k.wave.lts

/-- What an instruction has read at issue: the wave's clock rises to the read. The gang stalls while something is on its way
from another package. -/
def Dev.afterRead (k : Issue) (f : Dev → List Byte → Dev) : Dev × Reach → Dev
  | (d, .ok t bs) => f (d.modWave k.wave.id (·.adopt t)) bs
  | (d, .fail e a) => d.trapMem k e (BitVec.ofNat 64 a) k.lowMask
  | (d, .missing) => d.stall k (.full .reply)

/-- A record is read at issue in events of `unit` bytes. -/
def Dev.withRecord (d : Dev) (k : Issue) (unit va n : Nat) (f : Dev → List Byte → Dev) : Dev :=
  Dev.afterRead k f (d.reachFrom k.core k.ctx k.wave.id va unit va n (d.ltsOf k) 1)

/-- A launch record, which may lie on two lines and two pages, is read at issue in one event (R230). -/
def Dev.withLaunchRecord (d : Dev) (k : Issue) (va : Nat) (f : Dev → List Byte → Dev) : Dev :=
  Dev.afterRead k f (d.reachOnce k.core k.ctx k.wave.id va va 128 (d.ltsOf k))

/-- The 16 bytes of an object are read at issue (R201); a failure is passed over. -/
def Dev.withObject (d : Dev) (k : Issue) (va : Nat) (f : Dev → Dev) : Dev :=
  match d.reachFrom k.core k.ctx k.wave.id va 16 va 16 (d.ltsOf k) 1 with
  | (d, .ok t _) => f (d.modWave k.wave.id (·.adopt t))
  | (d, .fail ..) => f d
  | (d, .missing) => d.stall k (.full .reply)

/-- The replies that the instruction waited for are dropped. -/
def Dev.endRecords (d : Dev) (k : Issue) : Dev := d.dropReplies k.wave.id

/-- A word or object that the device will write is checked (R225, R230): the cause and the address. -/
def Dev.wordCheck (d : Dev) (k : Issue) (va n : Nat) (need : Need) : Option (Nat × Nat) :=
  match d.checkGlobal k.core k.ctx va n need false with
  | .ok _ => none
  | .error e => some (e, va)

/-- Words and objects that the device will write, by address and size, are checked: the first failure raises its cause with the
fault record. Their pages have been looked up (R258). -/
def Dev.checked (d : Dev) (k : Issue) (need : Need) (l : List (Nat × Nat)) (f : Dev → Dev) : Dev :=
  let y := d.lookedAll k.core k.ctx (l.map (·.1))
  match l.findSome? fun x => d.wordCheck k x.1 x.2 need with
  | some (e, a) => y.trapMem k e (BitVec.ofNat 64 a) k.lowMask
  | none => f y

/-- The object or word at an address, none for address 0. -/
def target (va n : Nat) : List (Nat × Nat) := if va = 0 then [] else [(va, n)]

/-! ## Collective descriptors (R224, Table 7-6) -/

def Desc.parse (bs : List Byte) : Desc where
  send := field bs 0 8
  recv := field bs 8 8
  res := field bs 0x10 8
  done := field bs 0x18 8
  dinc := field bs 0x20 8
  count := field bs 0x28 4
  chunk := field bs 0x2C 4
  op := field bs 0x30 1
  type := field bs 0x31 1
  red := field bs 0x32 1
  root := field bs 0x33 1 + 256 * field bs 0x37 1
  queue := field bs 0x34 1
  resid := field bs 0x35 1 = 1
  wire := field bs 0x36 1
  status := field bs 0x38 8

/-- A valid descriptor for a communicator of `p` ranks; `queue` tells whether QUEUE counts (R224). -/
def descOk (bs : List Byte) (p : Nat) (queue : Bool) : Bool :=
  let c := Desc.parse bs
  c.dinc / 2 ^ 48 == 0 && field bs 0x35 1 / 2 == 0 && field bs 0x37 1 / 4 == 0
    && decide (c.op ≤ 4 ∧ c.type ≤ 2 ∧ c.red ≤ 2) && (c.wire == 0xFF || c.wire == 0 || c.wire == 2 || c.wire == 3)
    && (!queue || decide (c.queue ≤ 15))
    && (c.op == 3 || c.root == 0)
    && c.chunk % 64 == 0 && decide (64 ≤ c.chunk ∧ c.chunk ≤ 1048576)
    && decide (c.root < p)
    && (c.op != 1 || c.count % p == 0) && (c.op != 4 || c.count == 0)
    && (c.wire == 0xFF || (c.type == 0 && c.red == 0))
    && (!c.resid || (c.wire != 0xFF && c.res != 0 && c.res % 16 == 0))

def Dev.queue? (d : Dev) (ctx q : Nat) : Option CollQueue := d.queues.find? fun x => x.ctx == ctx && x.q == q

/-- A descriptor is read and checked as `cpost` checks it (R225). `own` is the queue, or none for QUEUE. -/
def Dev.withDesc (d : Dev) (k : Issue) (va : Nat) (own : Option Nat) (f : Dev → Desc → Nat → Dev) : Dev :=
  d.withRecord k 64 va 64 fun d bs =>
    let c := Desc.parse bs
    let q := own.getD c.queue
    d.checked k needW (target c.done 8 ++ target c.status 8) fun d =>
      match d.queue? k.ctx.n q with
      | none => if own.isNone && decide (15 < q) then d.trap k cObject else d.trap k cRights
      | some x => if descOk bs x.comm.size own.isNone then f d c q else d.trap k cObject

/-- `cpost` (R225). -/
def execCpost (a : SReg) (q : BitVec 4) (s : State) : Host.Outcome State Fault Refusal :=
  issue s fun k d =>
    let va := (k.rd a).toNat
    if !k.whole then d.trap k cGang
    else if va % 64 ≠ 0 then d.trapMem k cAlign (k.rd a) k.lowMask
    else
      d.whenSettled k fun d =>
        d.withDesc k va (some q.toNat) fun d c q =>
          if 64 ≤ d.queueLength k.ctx.n q || d.checkerFull k.ctx.n then d.stall k (.full (.posts q))
          else
            ((d.endRecords k).postColl k.ctx.n q c (d.ltsOf k) k.wave.id k.block.id none).advance k 12

/-- The launch of a block belongs to a job (R227, R232). -/
def Dev.inJob (d : Dev) (b : Block) : Bool := ((b.launch.bind d.launch?).map fun l => l.record.graph != 0).getD false

/-- `ctrig` (R227). DESIGN CHOICE (log entry 113): a counter word whose check fails at the recording comparison fires nothing and
raises nothing; the operation is recorded. -/
def execCtrig (a b c : SReg) (s : State) : Host.Outcome State Fault Refusal :=
  issue s fun k d =>
    let va := (k.rd a).toNat
    let at_ := (k.rd b).toNat
    let thresh := (k.rd c).toNat % 2 ^ 48
    if !k.whole then d.trap k cGang
    else if va % 64 ≠ 0 then d.trapMem k cAlign (k.rd a) k.lowMask
    else
      d.whenSettled k fun d =>
        d.withDesc k va none fun d desc q =>
          let place := d.checkGlobal k.core k.ctx at_ 8 needR false
          let d := d.looked k.core k.ctx at_
          match place with
          | .error e => d.trapMem k e (k.rd b) k.lowMask
          | .ok (.glob pa) =>
            if 64 ≤ (d.triggers.filter (·.ctx == k.ctx.n)).length then d.stall k (.full .triggers)
            else
              let d := d.endRecords k
              let (d, t, v) := d.homeLoad k.ctx.n (.glob pa) 8 (d.ltsOf k) 1
              if thresh ≤ (v.map fun bs => field bs 0 6).getD 0 ∧ v.isSome then
                if 64 ≤ d.queueLength k.ctx.n q || d.checkerFull k.ctx.n then d.stall k (.full (.posts q))
                else (d.postColl k.ctx.n q desc t k.wave.id k.block.id none).advance k 12
              else
                let (id, d) := d.fresh
                let x : Trigger := ⟨id, k.ctx.n, k.block.launch, d.inJob k.block, pa, thresh, desc, d.ltsOf k⟩
                ({ d with triggers := d.triggers ++ [x] } : Dev).advance k 12
          | .ok _ => d.trapMem k cRights (k.rd b) k.lowMask

/-! ## Spawn (R228, R229) -/

/-- The COUNT of a launch rises for a spawned child (R229). -/
def Dev.gainLaunch (d : Dev) (id c : Nat) : Dev :=
  match d.launch? id with
  | none => d
  | some l =>
    (d.modLaunch id fun l => { l with count := l.count + 1 }).owe l.ctx
      [(l.record.comp, c, .object (l.count + 1) l.error l.cancelled)]

/-- `spawn` (R229). DESIGN CHOICE (log entry 112): a wave of a launch that has been cancelled spawns while it still runs, and the
child is placed without CANCEL and without a deadline. -/
def execSpawn (a b : SReg) (s : State) : Host.Outcome State Fault Refusal :=
  issue s fun k d =>
    let code := k.rd a
    if !k.whole then d.trap k cGang
    else if 8 ≤ k.block.depth then d.trap k cRights
    else if 2 ^ 56 ≤ code.toNat then d.trapMem k cXlate code k.lowMask
    else if 4096 ≤ (d.pending.filter fun p => p.isSpawn && p.ctx == k.ctx.n).length then d.stall k (.full .spawns)
    else
      d.whenSettled k fun d =>
        let (id, d) := d.fresh
        let d := match k.block.launch with | some l => d.gainLaunch l (d.ltsOf k) | none => d
        ({ d with pending := d.pending ++ [.spawn id k.ctx.n (dieOf k.core) code (k.rd b) (k.wave.v.length / 8)
            k.block.engines k.block.svc (k.block.depth + 1) k.block.launch k.wave.tvec (d.ltsOf k)] } : Dev).advance k 12

/-! ## Launch records (R101, R102) -/

def LaunchRec.parse (bs : List Byte) : LaunchRec where
  code := BitVec.ofNat 64 (field bs 0 8)
  param := BitVec.ofNat 64 (field bs 8 8)
  gx := field bs 0x10 4
  gy := field bs 0x14 4
  gz := field bs 0x18 4
  teamsz := field bs 0x1C 1
  waves := field bs 0x1D 1
  regs := field bs 0x1E 1
  svc := BitVec.ofNat 8 (field bs 0x1F 1)
  scratch := field bs 0x20 4
  wbuf := field bs 0x24 4
  abuf := field bs 0x28 4
  acc := field bs 0x2C 4
  tags := field bs 0x30 1
  engines := BitVec.ofNat 8 (field bs 0x31 1)
  knead := field bs 0x32 1 % 2 = 1
  tvec := BitVec.ofNat 64 (field bs 0x38 8)
  comp := field bs 0x40 8
  graph := field bs 0x48 8
  edges := field bs 0x50 8
  coll := field bs 0x58 8

def LaunchRec.blocks (r : LaunchRec) : Nat := r.gx * r.gy * r.gz

/-- A valid launch record (R102). -/
def launchOk (bs : List Byte) : Bool :=
  let r := LaunchRec.parse bs
  let svc := r.svc.toNat
  let size (x unit most : Nat) : Bool := x % unit == 0 && decide (x ≤ most)
  decide (r.code.toNat < 2 ^ 56 ∧ r.tvec.toNat < 2 ^ 56)
    && decide (1 ≤ r.gx ∧ r.gx ≤ 65536 ∧ 1 ≤ r.gy ∧ r.gy ≤ 65536 ∧ 1 ≤ r.gz ∧ r.gz ≤ 65536 ∧ r.blocks ≤ 2 ^ 31)
    && decide (r.teamsz ≤ 16) && (r.teamsz == 0 || r.gx % r.teamsz == 0)
    && decide (1 ≤ r.waves ∧ r.waves ≤ 48 ∧ 1 ≤ r.regs ∧ r.regs ≤ 32)
    && decide (svc % 4 ≤ 2 ∧ svc / 4 ≤ 2)
    && size r.scratch 1024 262144 && size r.wbuf 4096 524288 && size r.abuf 4096 262144 && size r.acc 4096 524288
    && decide (r.tags ≤ 64) && decide (r.engines.toNat < 8) && decide (field bs 0x32 1 < 2)
    && zeroField bs 0x33 5 && zeroField bs 0x60 32
    && r.comp != 0 && r.comp % 16 == 0

/-! ## Predecessors, levels, bindings (R231 to R233) -/

/-- The predecessors of a list: launches that are waited for, and the release times of the others: of a launch released
early (R39), and what the object of one that is over holds (R231). DESIGN CHOICE (log entry 112): an outstanding launch that has
been cancelled already is waited for like any other. -/
def Dev.withEdges (d : Dev) (k : Issue) : List Nat → List Nat → Nat → (Dev → List Nat → Nat → Dev) → Dev
  | [], preds, t, f => f d preds t
  | a :: as, preds, t, f =>
    match d.launches.find? fun l => l.ctx == k.ctx.n && l.record.comp == a with
    | some l =>
      match l.early with
      | some u => d.withEdges k as preds (max t u) f
      | none => d.withEdges k as (preds ++ [l.id]) t f
    | none =>
      if a % 16 ≠ 0 then d.trap k cObject
      else d.withRecord k 8 (a + 8) 8 fun d bs => d.withEdges k as preds (max t (leNat bs)) f

def Dev.withPreds (d : Dev) (k : Issue) (r : LaunchRec) (f : Dev → List Nat → Nat → Dev) : Dev :=
  if r.edges = 0 then f d [] 0
  else if r.edges % 8 ≠ 0 then d.trap k cObject
  else
    d.withRecord k 8 r.edges 8 fun d bs =>
      let n := field bs 0 1
      if leNat bs ≠ n ∨ n = 0 ∨ 64 < n then d.trap k cObject
      else
        d.withRecord k 8 (r.edges + 8) (8 * n) fun d bs =>
          d.withEdges k ((List.range n).map fun i => field bs (8 * i) 8) [] 0 f

/-- The header chain upward from a level (R232): the levels that are to be opened. -/
def Dev.withLevels (d : Dev) (k : Issue) : List LevelKind → Nat → List Level → (Dev → List Level → Dev) → Dev
  | [], _, new, f => f d new
  | kind :: up, a, new, f =>
    match d.level? k.ctx.n a with
    | some l => if l.kind = kind then f d new else d.trap k cObject
    | none =>
      if a = 0 ∨ (kind = .job ∧ d.levels.any fun l => l.ctx == k.ctx.n && l.kind == .job) then d.trap k cObject
      else
        d.checked k needRW [(a, 16)] fun d =>
          d.withRecord k 16 (a + 16) 16 fun d bs =>
            let items := field bs 0 4
            let parent := field bs 8 8
            if items = 0 ∨ field bs 4 4 ≠ 0 ∨ (kind = .job ∧ parent ≠ 0) then d.trap k cObject
            else d.withLevels k up parent (new ++ [⟨k.ctx.n, a, kind, items, false, false, parent, 0⟩]) f

/-- Chunks of a contribution (R233). -/
def Desc.chunks (c : Desc) (rank : Nat) : Nat := (4 * c.sendElems rank + c.chunk - 1) / c.chunk

/-- The bound collective of a launch (R233): its queue and descriptor. -/
def Dev.withBinding (d : Dev) (k : Issue) (r : LaunchRec) (f : Dev → Option (Nat × Desc) → Dev) : Dev :=
  if r.coll = 0 then f d none
  else if r.coll % 16 ≠ 0 then d.trap k cObject
  else
    d.withRecord k 16 r.coll 16 fun d bs =>
      let q := field bs 8 1
      let va := field bs 0 8
      if !zeroField bs 9 7 || decide (15 < q) then d.trap k cObject
      else if va % 64 ≠ 0 then d.trapMem k cAlign (BitVec.ofNat 64 va) k.lowMask
      else
        d.withDesc k va (some q) fun d c q =>
          let rank := ((d.queue? k.ctx.n q).map (·.comm.rank)).getD 0
          if c.chunks rank ≠ r.blocks then d.trap k cObject
          else if 64 ≤ d.queueLength k.ctx.n q || d.checkerFull k.ctx.n then d.stall k (.full (.posts q))
          else f d (some (q, c))

/-! ## Acceptance (R230, R232, R234) -/

/-- The objects of the levels that a launch opens, as they are first written (R38). -/
def levelWrites (c : Nat) (new : List Level) : List (Nat × Nat × OwedWrite) :=
  new.map fun l => (l.addr, c, .object l.count false false)

/-- A launch that the kneader may merge (R234). -/
def LaunchRec.kneads (r : LaunchRec) : Bool := r.knead && r.edges == 0 && r.coll == 0 && r.teamsz == 0
/-- Records that agree in every field other than PARAM and COMP. -/
def LaunchRec.agrees (r s : LaunchRec) : Bool := { r with param := 0, comp := 0 } == { s with param := 0, comp := 0 }

/-- The merge window that a launch enters: the open one of its like unless the grid would grow past 4,096 blocks, which
closes it (R234). -/
def Dev.enterWindow (d : Dev) (ctx : Nat) (r : LaunchRec) : Dev × Option Nat :=
  if !r.kneads then (d, none)
  else
    let mates := d.launches.filter fun l => l.ctx == ctx && l.window.isSome && l.record.agrees r
    if (mates.map (·.record.blocks)).sum + r.blocks ≤ 4096 then
      (d, some ((mates.head?.bind (·.window)).getD d.clock))
    else
      let ids := mates.map (·.id)
      ({ d with launches := modIf (fun l => ids.contains l.id) (fun l => { l with window := none }) d.launches }, some d.clock)

/-- A launch is accepted. DESIGN CHOICE (log entry 47): a launch into a graph that has been cancelled is accepted and its
blocks are dropped; one that opens a new graph under a cancelled phase or job runs. -/
def Dev.acceptLaunch (d : Dev) (k : Issue) (r : LaunchRec) (preds : List Nat) (t : Nat) (new : List Level)
    (bind_ : Option (Nat × Desc)) : Dev :=
  let d := d.endRecords k
  let now := d.ltsOf k
  let d : Dev := { d with levels := d.levels ++ new }
  let (id, d) := d.fresh
  let (d, window) := d.enterWindow k.ctx.n r
  let dead := r.graph != 0 && ((d.level? k.ctx.n r.graph).map (·.cancelled)).getD false
  let l : Launch := {
    id := id, ctx := k.ctx.n, record := r, depth := k.block.depth + 1, count := r.blocks, error := false, cancelled := dead
    preds := preds, time := max now t, window := window, released := false, next := if dead then r.blocks else 0
    last := 0, early := none, trigs := 0, trigTime := 0, coll := none, exits := [] }
  let d : Dev := { d with launches := d.launches ++ [l] }
  let d := d.owe k.ctx.n (levelWrites now new ++ [(r.comp, now, .object r.blocks false dead)])
  let d := match bind_ with
    | none => d
    | some (q, c) =>
      let cid := d.nextId
      (d.postColl k.ctx.n q c now k.wave.id k.block.id (some id)).modLaunch id fun l => { l with coll := some cid }
  if dead then d.decLaunch id r.blocks now else d

/-- `launch` (R230). DESIGN CHOICE (log entry 112): a running wave's `launch` is accepted also once the context's resident program
has ended (R43). -/
def execLaunch (a : SReg) (s : State) : Host.Outcome State Fault Refusal :=
  issue s fun k d =>
    let va := (k.rd a).toNat
    if !k.whole then d.trap k cGang
    else if 8 ≤ k.block.depth then d.trap k cRights
    else if va % 64 ≠ 0 then d.trapMem k cAlign (k.rd a) k.lowMask
    else
      d.whenSettled k fun d =>
        d.withLaunchRecord k va fun d bs =>
          let r := LaunchRec.parse bs
          d.checked k needRW ((if r.comp % 16 ≠ 0 then [] else [(r.comp, 16)]) ++ target r.graph 16) fun d =>
            if !launchOk bs then d.trap k cObject
            else
              d.withPreds k r fun d preds t =>
                d.withLevels k (if r.graph = 0 then [] else [.graph, .phase, .job]) r.graph [] fun d new =>
                  d.withBinding k r fun d bind_ =>
                    if 4096 ≤ (d.launches.filter (·.ctx == k.ctx.n)).length then d.stall k (.full .launches)
                    else (d.acceptLaunch k r preds t new bind_).advance k 12

/-! ## Cancel (R41, R235) -/

/-- A launch is cancelled: what is not placed is dropped, its running waves take CANCEL, and launches of its graph that
wait for it are dropped as well. DESIGN CHOICE (log entry 112): one that an early release has let go depends on it no longer. The
number bounds the launches. -/
def Dev.cancelLaunch (d : Dev) (t : Nat) : Nat → Nat → Dev
  | 0, _ => d
  | n + 1, id =>
    match d.launch? id with
    | none => d
    | some l =>
      let d := d.markLaunch id false true t
      let kids := d.pending.filter fun p => match p with | .spawn _ _ _ _ _ _ _ _ _ (some x) _ _ => x == id | _ => false
      let d : Dev := { d with pending := d.pending.filter fun p => !kids.contains p }
      let bs := d.blocks.filter fun b => b.launch == some id
      let us := ((d.ctx? l.ctx).map (·.cancelUs)).getD 1
      let till (b : Block) : Block :=
        if b.launch == some id && b.deadline.isNone then { b with deadline := some (d.clock + us * 2400) } else b
      let d : Dev := { d with blocks := d.blocks.map till }
      let d := d.modLaunch id fun l => { l with next := l.record.blocks, released := true }
      let after := (d.launches.filter fun x => x.preds.contains id && x.record.graph != 0 && x.record.graph == l.record.graph).map (·.id)
      let d := after.foldl (fun d x => d.cancelLaunch t n x) d
      let d := bs.foldl (fun d b => d.raiseBlock b.id cCancel) d
      let gone := l.record.blocks - l.next + kids.length
      if gone = 0 then d else d.decLaunch id gone t

/-- A level and the outstanding levels below it, the lowest first. -/
def Dev.levelsBelow (d : Dev) (ctx : Nat) (kind : LevelKind) (a : Nat) : List Nat :=
  let kids (k : LevelKind) (ps : List Nat) : List Nat :=
    (d.levels.filter fun l => l.ctx == ctx && l.kind == k && ps.contains l.parent).map (·.addr)
  match kind with
  | .graph => [a]
  | .phase => kids .graph [a] ++ [a]
  | .job => kids .graph (kids .phase [a]) ++ kids .phase [a] ++ [a]

/-- A level above a launch is cancelled, with everything below it (R41, R235). -/
def Dev.cancelLevel (d : Dev) (ctx : Nat) (kind : LevelKind) (a t : Nat) : Dev :=
  let ls := d.levelsBelow ctx kind a
  let mark (p : Dev × List (Nat × Nat × OwedWrite)) (a : Nat) : Dev × List (Nat × Nat × OwedWrite) :=
    let (d, ws) := p.1.markLevels ctx false true t 3 a
    (d, p.2 ++ ws)
  let (d, ws) := ls.foldl mark (d, [])
  let d := d.owe ctx ws
  let graphs := ls.filter fun g => (d.level? ctx g).any (·.kind == .graph)
  let ids := (d.launches.filter fun l => l.ctx == ctx && graphs.contains l.record.graph && l.record.graph != 0).map (·.id)
  let d := ids.foldl (fun d i => d.cancelLaunch t 4096 i) d
  if kind = .job then { d with triggers := d.triggers.filter fun x => !(x.ctx == ctx && x.inJob) } else d

/-- `cancel` (R235): the object is read at issue (R201), and the effects follow the instruction. A handle that cannot be read
is one that names no outstanding level (log entry 48). -/
def execCancel (l : Lvl) (a : SReg) (s : State) : Host.Outcome State Fault Refusal :=
  issue s fun k d =>
    let h := (k.rd a).toNat
    if h % 16 ≠ 0 then d.trapMem k cAlign (k.rd a) k.lowMask
    else if 2 ^ 56 ≤ h then d.trapMem k cXlate (k.rd a) k.lowMask
    else
      d.whenSettled k fun d => d.withObject k h fun d =>
        let t := d.ltsOf k
        let level (kind : LevelKind) (d : Dev) : Dev :=
          match d.level? k.ctx.n h with
          | some x => if x.kind = kind then d.cancelLevel k.ctx.n kind h t else d
          | none => d
        let d := (d.endRecords k).advance k 12
        match l with
        | .launch =>
          match d.launches.find? fun x => x.ctx == k.ctx.n && x.record.comp == h with
          | some x => d.cancelLaunch t 4096 x.id
          | none => d
        | .graph => level .graph d
        | .phase => level .phase d
        | .job => level .job d

end Sys2Proof.Machine
end

