-- ==== Sys2Proof/Machine/Collective.lean ====
section
/-!
DEFINITION. Collectives (02: R71, R72; 07: R224 to R226; 09: R280; 12: R341 to R343, R396; 17: R376): the steps of each
operation at a rank, the wire forms, the chunks, and completion.
-/

namespace Sys2Proof.Machine

/-! ## The steps of a rank (R342, R376) -/

/-- A step at a rank: a transfer out and a transfer in, by elements; whether what comes in is combined, and written to
RECV; elements that the rank writes of itself. -/
structure CollStep where
  sendTo   : Option Nat
  send     : List Nat
  recvFrom : Option Nat
  recv     : List Nat
  comb     : Bool
  writes   : Bool
  keep     : List Nat
deriving DecidableEq, Repr

def CollStep.none : CollStep := ⟨.none, [], .none, [], false, false, []⟩

/-- The elements of a group (R342). -/
def groupEls (op count p p' g : Nat) : List Nat :=
  if op = 1 then
    let s := count / p
    (List.range s).map (g * s + ·) ++ (if g + p' < p then (List.range s).map ((g + p') * s + ·) else [])
  else
    let lo := g * count / p'
    (List.range ((g + 1) * count / p' - lo)).map (lo + ·)

/-- The elements of the groups that satisfy a condition, in increasing group number. -/
def groupsEls (op count p p' : Nat) (f : Nat → Bool) : List Nat :=
  ((List.range p').filter f).flatMap (groupEls op count p p')

/-- Contributions of an all-gather, in increasing rank. -/
def contributions (count p : Nat) (f : Nat → Bool) : List Nat :=
  ((List.range p).filter f).flatMap fun c => (List.range count).map (c * count + ·)

/-- Elements of the vector that a collective works on. -/
def Desc.length (c : Desc) (p : Nat) : Nat := if c.op = 2 then c.count * p else c.count

/-- The shard of a rank. -/
def shardEls (count p r : Nat) : List Nat := (List.range (count / p)).map (r * (count / p) + ·)

/-- The steps of an outer rank. -/
def outerSteps (c : Desc) (p p' r : Nat) : List CollStep :=
  let q := r - p'
  let mine := if c.op = 4 then [] else if c.op = 2 then contributions c.count p (· == r) else groupsEls c.op c.count p p' fun _ => true
  let all := if c.op = 4 then [] else if c.op = 1 then shardEls c.count p r else List.range (c.length p)
  (if c.op = 3 ∧ r ≠ c.root then []
   else [{ CollStep.none with sendTo := some q, send := mine, keep := if c.op = 2 then mine else [] }]) ++
    [{ CollStep.none with recvFrom := some q, recv := all, writes := true }]

/-- The halving phase of an inner rank; `v` is its number relative to the acting root of a broadcast, else its own. -/
def halvingSteps (c : Desc) (p p' m r v : Nat) : List CollStep :=
  ((List.range m).map (· + 1)).filterMap fun k =>
    let d := p' >>> k
    let sh := m - k
    let part (b : Nat) : List Nat := groupsEls c.op c.count p p' fun g => Nat.xor g v >>> sh == b
    let peer := Nat.xor r d
    if c.op ≠ 3 then
      some { CollStep.none with
        sendTo := some peer, send := part 1, recvFrom := some peer, recv := part 0, comb := true, writes := k == m }
    else if v % (2 * d) = 0 then some { CollStep.none with sendTo := some peer, send := part 1 }
    else if v % (2 * d) = d then some { CollStep.none with recvFrom := some peer, recv := part 0 }
    else none

/-- The doubling phase of an inner rank. -/
def doublingSteps (c : Desc) (p p' m r v : Nat) : List CollStep :=
  ((List.range m).map (· + 1)).map fun k =>
    let d := 1 <<< (k - 1)
    let peer := Nat.xor r d
    let held (x y : Nat) : List Nat :=
      if c.op = 4 then []
      else if c.op = 2 then contributions c.count p fun g => Nat.xor (g % p') y >>> (k - 1) == 0
      else groupsEls c.op c.count p p' fun g => Nat.xor g x >>> (k - 1) == 0
    { CollStep.none with
      sendTo := some peer, send := held v r, recvFrom := some peer, recv := held (Nat.xor v d) peer, writes := true }

/-- The steps of an inner rank. The group that a broadcast rank keeps at the end of halving is written beside the first
doubling step (R376). -/
def innerSteps (c : Desc) (p p' m r : Nat) : List CollStep :=
  let o := r + p'
  let acting := if p' ≤ c.root then c.root - p' else c.root
  let v := if c.op = 3 then Nat.xor r acting else r
  let whole := if c.op = 4 then [] else List.range (c.length p)
  let pre : List CollStep :=
    if p ≤ o ∨ (c.op = 3 ∧ o ≠ c.root) then []
    else [{ CollStep.none with
      recvFrom := some o
      recv := if c.op = 4 then [] else if c.op = 2 then contributions c.count p (· == o) else groupsEls c.op c.count p p' fun _ => true
      comb := decide (c.op ≤ 1), writes := c.op == 2 }]
  let halving := if c.op = 0 ∨ c.op = 1 ∨ c.op = 3 then halvingSteps c p p' m r v else []
  let doubling := if c.op = 1 then [] else doublingSteps c p p' m r v
  let own := groupEls c.op c.count p p' v
  let doubling := if c.op ≠ 3 then doubling
    else match doubling with
      | s :: ss => { s with keep := own } :: ss
      | [] => [{ CollStep.none with keep := own }]
  let post : List CollStep :=
    if p ≤ o then [] else [{ CollStep.none with sendTo := some o, send := if c.op = 1 then shardEls c.count p o else whole }]
  pre ++ halving ++ doubling ++ post

/-- Elements that a rank holds from its own SEND without any transfer (R376). -/
def ownEls (c : Desc) (p r : Nat) : List Nat :=
  if c.op = 2 then contributions c.count p (· == r) else if p = 1 ∧ c.op ≤ 1 then List.range c.count else []

/-- The steps of a rank, the write of its own values in the first (R342, R376). -/
def collSteps (c : Desc) (p r : Nat) : List CollStep :=
  let m := Nat.log2 p
  let p' := 2 ^ m
  if p' ≤ r then outerSteps c p p' r
  else
    match innerSteps c p p' m r, ownEls c p r with
    | ss, [] => ss
    | [], own => [{ CollStep.none with keep := own }]
    | s :: ss, own => { s with keep := own } :: ss

def Coll.steps (c : Coll) : List CollStep := collSteps c.desc c.comm.size c.comm.rank
def Coll.now (c : Coll) : CollStep := (c.steps[c.step]?).getD CollStep.none

/-! ## Wire forms (R71, R376) -/

/-- The block in which an element is quantised: 32 elements that follow each other in a contribution, or the element alone
(R71; DEDUCED, log entry 68). -/
def Desc.blockOf (c : Desc) (e : Nat) : Nat :=
  if c.wire = 0xFF ∨ c.wire = 0 then e
  else if c.op = 2 then e / c.count * 2 ^ 32 + e % c.count / 32 else e / 32

/-- Elements in their order, cut where the block changes. -/
def cutUnits (f : Nat → Nat) : List Nat → List (List Nat)
  | [] => []
  | e :: es =>
    match cutUnits f es with
    | (x :: u) :: us => if f x = f e then (e :: x :: u) :: us else [e] :: (x :: u) :: us
    | us => [e] :: us

/-- A unit of a transfer: its elements, its place and its length among the wire bytes. -/
structure WireUnit where
  els : List Nat
  at_ : Nat
  n   : Nat
deriving DecidableEq, Repr

/-- Bytes of a unit: an 8-bit form has its scale behind the elements. -/
def unitSize (wire n : Nat) : Nat := if wire = 0xFF then 4 * n else if wire = 0 then 2 * n else n + 1
def placeUnits (wire : Nat) : Nat → List (List Nat) → List WireUnit
  | _, [] => []
  | at_, u :: us => ⟨u, at_, unitSize wire u.length⟩ :: placeUnits wire (at_ + unitSize wire u.length) us

/-- The units of a transfer's elements, and its wire bytes. -/
def Desc.units (c : Desc) (els : List Nat) : List WireUnit := placeUnits c.wire 0 (cutUnits c.blockOf els)
def Desc.wireBytes (c : Desc) (els : List Nat) : Nat := ((c.units els).map (·.n)).sum

def Coll.chunks (c : Coll) (els : List Nat) : Nat := (c.desc.wireBytes els + c.desc.chunk - 1) / c.desc.chunk
def Coll.chunkBytes (c : Coll) (els : List Nat) (k : Nat) : Nat := min c.desc.chunk (c.desc.wireBytes els - k * c.desc.chunk)

def narrowFmt (wire : Nat) : Fmt := if wire = 0 then bf16 else if wire = 2 then e4m3 else e5m2

/-- A value times a power of two, as exact values. -/
def scaleFp (x : Fp) (e : Int) : Fp := match x with | .fin z => .fin { z with e := z.e + e } | z => z

/-- The codes and the scale of a unit (R71). -/
def quantise (wire : Nat) (ys : List Lane) : List Nat × Nat :=
  let sc := if wire = 0 then 127 else blockScale wire ys
  (ys.map fun y => cvtTo (narrowFmt wire) .rne .max .max (scaleFp (dec32 y) (127 - (sc : Int))), sc)

/-- The value of a code under a scale. -/
def unquantise (wire sc q : Nat) : Lane :=
  if wire ≠ 0 ∧ sc = 255 then canonNaN32
  else lane32 (fp32.roundFp .rne (scaleFp ((narrowFmt wire).decode q) ((sc : Int) - 127)))

/-- The bytes of a unit of codes. -/
def codeBytes (wire : Nat) (qs : List Nat) (sc : Nat) : List Byte :=
  if wire = 0 then qs.flatMap (leBytes 2) else qs.flatMap (leBytes 1) ++ leBytes 1 sc

/-- The bytes of a unit with its values. -/
def unitBytes (wire : Nat) (ys : List Lane) : List Byte :=
  if wire = 0xFF then ys.flatMap fun y => leBytes 4 y.toNat
  else let (qs, sc) := quantise wire ys; codeBytes wire qs sc

/-- The values that the bytes of a unit spell. -/
def unitValues (wire n : Nat) (bs : List Byte) : List Lane :=
  (List.range n).map fun i =>
    if wire = 0xFF then lane32 (field bs (4 * i) 4)
    else if wire = 0 then unquantise wire 127 (field bs (2 * i) 2)
    else unquantise wire (field bs n 1) (field bs i 1)

/-- The residual that a value leaves (R71). -/
def newResidual (wire sc : Nat) (y : Lane) (q : Nat) : Lane :=
  match dec32 y with
  | .fin _ =>
    if wire ≠ 0 ∧ sc = 255 then 0
    else
      let back := scaleFp ((narrowFmt wire).decode q) ((sc : Int) - 127)
      lane32 (fp32.addFp .rne (dec32 y) back.negate)
  | _ => 0

/-- A block of the own contribution is quantised with its residuals (R71): number in SEND, value, residual of each element. -/
def quantiseOwn (wire : Nat) (l : List (Nat × Lane × Lane)) : List OwnCode :=
  let ys := l.map fun p => fadd .rne p.2.1 p.2.2
  let (qs, sc) := quantise wire ys
  (l.zip (ys.zip qs)).map fun p => ⟨p.1.1, p.2.2, sc, unquantise wire sc p.2.2, newResidual wire sc p.2.1 p.2.2⟩

/-- Combination of a held and a received value (R224, R342). -/
def combine (type red : Nat) (a b : Lane) : Lane :=
  match type, red with
  | 0, 0 => fadd .rne a b
  | 0, 1 => fminmax false false a b
  | 0, _ => fminmax true false a b
  | _, 0 => a + b
  | 1, 1 => if b.toInt < a.toInt then b else a
  | 1, _ => if a.toInt < b.toInt then b else a
  | _, 1 => if b.toNat < a.toNat then b else a
  | _, _ => if a.toNat < b.toNat then b else a

/-! ## Reading SEND and RES, writing RECV -/

/-- The element of SEND that holds an element of the vector. -/
def Coll.sendIndex (c : Coll) (e : Nat) : Nat := if c.desc.op = 2 then e - c.comm.rank * c.desc.count else e

/-- Consecutive numbers of a list, joined: begin and length. -/
def joinRuns : List Nat → List (Nat × Nat)
  | [] => []
  | x :: xs =>
    match joinRuns xs with
    | (y, n) :: rs => if y = x + 1 then (x, n + 1) :: rs else (x, 1) :: (y, n) :: rs
    | [] => [(x, 1)]

/-- The outcome of reading or writing at an engine: a time and what has been read, a cause, or a reply is awaited. -/
inductive Got (α : Type) where
  | ok (t : Nat) (a : α)
  | fail (cause : Nat)
  | missing
deriving DecidableEq, Repr

/-- One thing after another. -/
def Got.andThen {α β : Type} (q : Dev × Got α) (f : Dev → Nat → α → Dev × Got β) : Dev × Got β :=
  match q with
  | (d, .ok t a) => f d t a
  | (d, .fail e) => (d, .fail e)
  | (d, .missing) => (d, .missing)

/-- The bytes of a range or of parts. -/
def Reach.got : Dev × Reach → Dev × Got (List Byte)
  | (d, .ok t bs) => (d, .ok t bs)
  | (d, .fail e _) => (d, .fail e)
  | (d, .missing) => (d, .missing)

/-- Some words of an array as runs, by the sectors that they lie in: a sector is read or written in one event (R275). -/
def wordRuns (a : Nat) (is : List Nat) : List (List Run) :=
  sectorRuns ((joinRuns is).flatMap fun r => (spans 32 (a + 4 * r.1) (4 * r.2)).map fun sp => ⟨sp.va - a, sp.va, sp.n, false⟩)

/-- The byte at an address, of the bytes of some parts. -/
def spanByte : List Span → List Byte → Nat → Byte
  | [], _, _ => 0
  | s :: ss, bs, a => if s.va ≤ a ∧ a < s.va + s.n then (bs[a - s.va]?).getD 0 else spanByte ss (bs.drop s.n) a

/-- Words of an array are read; `base` separates the requests for one array from those for another. -/
def Dev.readWords (d : Dev) (x : Ctx) (owner base a t : Nat) (is : List Nat) : Dev × Got (List (Nat × Lane)) :=
  let l : List Span := (wordRuns a is).map fun g => ⟨runsAt g - a, runsAt g, runsLen g⟩
  let word (bs : List Byte) (i : Nat) : Lane := lane32 (leNat ((List.range 4).map fun j => spanByte l bs (a + 4 * i + j)))
  Got.andThen (Reach.got (d.reachList 0 x owner base t 1 l)) fun d t bs => (d, .ok t (is.map fun i => (i, word bs i)))

/-- Bytes of sectors are written in order, each sector in one event: address, bytes, the bits that are written. What lies on
other packages has been answered. -/
def Dev.writeParts (d : Dev) (x : Ctx) (owner : Nat) : Nat → List (Nat × List Byte × List Byte) → Dev × Got Unit
  | t, [] => (d, .ok t ())
  | t, (va, bs, mask) :: ws =>
    match d.unitPlace 0 x va needW with
    | .error e => (d, .fail e)
    | .ok (.remote ..) =>
      match d.reply? owner (farWrite + va) with
      | some (.done u _) => d.writeParts x owner (max t u) ws
      | some (.failed e) => (d, .fail e)
      | none => (d, .missing)
    | .ok loc =>
      if d.sectorBad x.n loc mask then (d, .fail cIntegrity)
      else let (d, t) := d.writeSector x.n loc t bs mask; d.writeParts x owner t ws

/-- Words of an array are written: what lies on other packages first. -/
def Dev.writeWords (d : Dev) (x : Ctx) (owner a t : Nat) (vs : List (Nat × Lane)) : Dev × Got Unit :=
  let word (i : Nat) : Lane := ((vs.find? fun v => v.1 == i).map fun v => v.2).getD 0
  let data (off : Nat) : Byte := (word (off / 4)).extractLsb' (8 * (off % 4)) 8
  let l : List (Nat × List Byte × List Byte) :=
    (wordRuns a (vs.map (·.1))).map fun g => let w := runsBytes g data; (runsAt g, w.1, w.2)
  let ask (q : Dev × Bool) (w : Nat × List Byte × List Byte) : Dev × Bool :=
    match q.1.unitPlace 0 x w.1 needW with
    | .ok (.remote pkg pa) =>
      let d := q.1.askFor owner (farWrite + w.1) x.n pkg pa t
        (if allBits w.2.2 then farStore pa w.2.1 else .copy w.2.1 w.2.2 (pieceChecks pa w.2.1 w.2.2))
      (d, q.2 && (d.reply? owner (farWrite + w.1)).isSome)
    | _ => q
  let (d, all) := l.foldl ask (d, true)
  let (d, r) := if all then d.writeParts x owner t l else (d, .missing)
  (d.lookedAll 0 x (l.map (·.1)), r)

/-! ## Values of elements (R71, R342) -/

/-- An element is the rank's own: it has received nothing for it. -/
def Coll.raw (c : Coll) (e : Nat) : Bool := !c.work.any (·.1 == e)

/-- Elements of a contribution that are quantised together: a block has one scale, BF16 none. -/
def Desc.blockLen (c : Desc) : Nat := if c.wire = 0 then 1 else 32

/-- What of its contribution the rank has to quantise before it uses some elements: the blocks of those that are its own (R71),
by their numbers in SEND. -/
def Coll.ownNeeds (c : Coll) (els : List Nat) : List Nat :=
  if !c.desc.resid then []
  else
    let n := c.desc.blockLen
    let bs := ((els.filter c.raw).map fun e => c.sendIndex e / n).eraseDups
    (bs.flatMap fun b => (List.range n).map (n * b + ·)).filter fun i =>
      decide (i < c.desc.sendElems c.comm.rank) && !c.own.any (·.i == i)

/-- The header of a residual buffer is of this collective (R72). -/
def resValid (c : Desc) (n : Nat) (h : List Byte) : Bool :=
  field h 8 4 == n && field h 0xC 1 == c.wire && zeroField h 0xD 3

/-- The rank's contribution is quantised with its residuals as far as some elements need it, each block once (R71, R72). -/
def Dev.readOwn (d : Dev) (x : Ctx) (c : Coll) (els : List Nat) : Dev × Got (List OwnCode) :=
  match c.ownNeeds els with
  | [] => (d, .ok c.time [])
  | is =>
    Got.andThen (Reach.got (d.reachFrom 0 x c.id (2 ^ 41) 32 c.desc.res 16 c.time 1)) fun d t h =>
    Got.andThen (d.readWords x c.id (2 ^ 42) (c.desc.res + 16) t is) fun d t rs =>
    Got.andThen (d.readWords x c.id 0 c.desc.send t is) fun d t vs =>
      let word (l : List (Nat × Lane)) (i : Nat) : Lane := ((l.find? (·.1 == i)).map (·.2)).getD 0
      let ok := resValid c.desc (c.desc.sendElems c.comm.rank) h
      let block (b : List Nat) : List OwnCode := quantiseOwn c.desc.wire (b.map fun i => (i, word vs i, if ok then word rs i else 0))
      (d, .ok t ((cutUnits (· / c.desc.blockLen) is).flatMap block))

/-- The values of some elements: what the rank has worked out; of its own, what its quantised contribution spells, or what SEND
holds. -/
def Dev.collValues (d : Dev) (x : Ctx) (c : Coll) (els : List Nat) : Dev × Got (List (Nat × Lane)) :=
  let known (e : Nat) : Option Lane :=
    match c.work.find? (·.1 == e) with
    | some w => some w.2
    | none => (c.own.find? (·.i == c.sendIndex e)).map (·.value)
  let need := (els.filter fun e => (known e).isNone).map c.sendIndex
  Got.andThen (d.readWords x c.id 0 c.desc.send c.time need) fun d t l =>
    (d, .ok t (els.map fun e => (e, (known e).getD (((l.find? (·.1 == c.sendIndex e)).map (·.2)).getD 0))))

/-- The bytes of a unit as it travels: where all of it is the rank's own with residuals, the codes of its contribution; else its
values quantised as they are (R71, R342). -/
def Coll.spell (c : Coll) (vs : List (Nat × Lane)) : List Byte :=
  let codes := vs.filterMap fun v => if c.raw v.1 then c.own.find? (·.i == c.sendIndex v.1) else none
  if c.desc.resid ∧ codes.length = vs.length then codeBytes c.desc.wire (codes.map (·.code)) ((codes.head?.map (·.scale)).getD 0)
  else unitBytes c.desc.wire (vs.map (·.2))

/-- The place of an element in RECV: none when this rank does not keep it (R376). -/
def Coll.recvIndex (c : Coll) (e : Nat) : Option Nat :=
  if c.desc.op = 1 then
    let s := c.desc.count / c.comm.size
    if c.comm.rank * s ≤ e ∧ e < (c.comm.rank + 1) * s then some (e - c.comm.rank * s) else none
  else some e

/-- Elements of RECV are written. -/
def Dev.writeRecv (d : Dev) (x : Ctx) (c : Coll) (vs : List (Nat × Lane)) : Dev × Got Unit :=
  d.writeWords x c.id c.desc.recv c.time (vs.filterMap fun v => (c.recvIndex v.1).map fun i => (i, v.2))

/-! ## Messages between ranks -/

/-- Flits of a packet with `n` data bytes: six sectors in the first, seven in each further one (R338, R380). -/
def flitsFor (n : Nat) : Nat := 1 + ((n + 31) / 32 - 6 + 6) / 7


/-! ## Ranks on one package (log entry 99) -/

/-- A rank of a communicator is on this package. -/
def nearRank (c : Comm) (p : Nat) : Bool := (c.ranks[p]?).any (·.pkg == Config.package)

/-- The queue of a number, or else the first (log entries 99 and 107). -/
def ofNumber (q : Nat) (l : List CollQueue) : Option CollQueue :=
  match l.find? (·.q == q) with
  | some x => some x
  | none => l.head?

/-- The queue on this package that holds the record of a rank: an equal one, or one of equal P and VC (R341). -/
def Dev.rankQueue (d : Dev) (c : Coll) (p : Nat) : Option CollQueue :=
  (c.comm.ranks[p]?).bind fun r =>
    let here := d.queues.filter fun x => x.ctx == r.ctx && x.comm.rank == p
    match ofNumber c.q (here.filter fun x => x.comm == { c.comm with rank := p, ptag := x.comm.ptag }) with
    | some x => some x
    | none => ofNumber c.q (here.filter fun x => x.comm.size == c.comm.size && x.comm.vc == c.comm.vc)

/-- Descriptors that may run together (R226). -/
def Desc.agrees (a b : Desc) : Bool :=
  a.op == b.op && a.type == b.type && a.red == b.red && a.count == b.count && a.chunk == b.chunk && a.root == b.root && a.wire == b.wire

/-- A rank on this package holds no equal record, or has posted another descriptor (R226, R341). -/
def Dev.disagrees (d : Dev) (c : Coll) : Bool :=
  (List.range c.comm.size).any fun p => p != c.comm.rank && nearRank c.comm p &&
    match d.rankQueue c p with
    | none => true
    | some x => d.colls.any fun z => z.ctx == x.ctx && z.q == x.q && z.seq == c.seq && !z.desc.agrees c.desc

/-- A queue's collective of a number is bound to a launch of which some block has not exited: its posting time stands not
yet (R280). -/
def Dev.unposted (d : Dev) (x : CollQueue) (n : Nat) : Bool :=
  d.colls.any fun z => z.ctx == x.ctx && z.q == x.q && z.seq == n &&
    (z.launch.bind d.launch?).any fun l => decide (l.exits.length < l.record.blocks)

/-- The last posting time of the ranks on this package; none while one has not posted (R280). -/
def Dev.nearPosts (d : Dev) (c : Coll) : Option Nat :=
  ((List.range c.comm.size).filter fun p => p != c.comm.rank && nearRank c.comm p).foldl
    (fun t p => match d.rankQueue c p with
      | none => t
      | some x => t.bind fun t => if d.unposted x c.seq then none else (x.posts[c.seq]?).map (max t)) (some 0)

/-- The last posting time of those ranks on this package that have posted (R280). -/
def Dev.nearPosted (d : Dev) (c : Coll) : Nat :=
  maxOf (((List.range c.comm.size).filter fun p => p != c.comm.rank && nearRank c.comm p).filterMap fun p =>
    (d.rankQueue c p).bind fun x => if d.unposted x c.seq then none else x.posts[c.seq]?)

/-- A packet for a rank leaves on the communicator's channel (R339), or waits for the rank on this package. -/
def Dev.sendRank (d : Dev) (c : Coll) (peer flits : Nat) (body : PktBody) : Dev :=
  let r := (c.comm.ranks[peer]?).getD ⟨0, 0, 0⟩
  let home := if nearRank c.comm peer then some (r.ctx, ((d.rankQueue c peer).map (·.q)).getD 16, c.seq) else none
  { d with egress := d.egress ++ [⟨c.ctx, none, flits, ⟨c.comm.vc, c.comm.ptag, r.pkg, flits, c.q, body⟩, home⟩] }

/-! ## Buffers (R343, R396) -/

/-- A buffer's size. -/
def Coll.buffer (c : Coll) (els : List Nat) (k : Nat) : Nat := (c.chunkBytes els k + 63) / 64 * 64

def Dev.collsAt (d : Dev) (engine : Nat) : List Coll := d.colls.filter fun c => c.engine == engine && c.begun
def Dev.recvHeld (d : Dev) (engine : Nat) : Nat :=
  ((d.collsAt engine).map fun c => (c.opened.map (c.buffer c.now.recv)).sum).sum
/-- The engine and the size of the buffer that a chunk on its way out still holds (R343). -/
def Dev.chunkHeld (d : Dev) (e : Egress) : Option (Nat × Nat) :=
  match e.pkt.body, e.home with
  | .chunk _ _ _ _ bs, none =>
    (d.queues.find? fun x => x.ctx == e.ctx && x.q == e.pkt.queue).map fun x =>
      (((x.comm.ranks[x.comm.rank]?).map (·.engine)).getD 0, (bs.length + 63) / 64 * 64)
  | _, _ => none
/-- Send buffers in use: granted, or held until the last flit has been sent (R343, R396). -/
def Dev.sendHeld (d : Dev) (engine : Nat) : Nat :=
  ((d.collsAt engine).map fun c => (c.sends.map (c.buffer c.now.send)).sum).sum +
    ((d.egress.filterMap d.chunkHeld).map fun h => if h.1 = engine then h.2 else 0).sum

/-- Waiting READYs are answered in the order of their arrival, as far as receive space goes. The number bounds the
answers. -/
def Dev.grantClears (d : Dev) (engine : Nat) : Nat → Dev
  | 0 => d
  | n + 1 =>
    let all := (d.collsAt engine).flatMap fun c => c.asks.map fun a => (c, a)
    match leastBy (fun x => x.2.1) all with
    | none => d
    | some (c, a) =>
      if 8 * 2 ^ 20 < d.recvHeld engine + c.buffer c.now.recv a.2 then d
      else
        let d := d.modColl c.id fun c => { c with asks := c.asks.filter (· != a), opened := a.2 :: c.opened }
        let d := match c.now.recvFrom with
          | some p => d.sendRank c p 1 (.cts c.seq c.comm.rank a.2 c.time)
          | none => d
        d.grantClears engine n

/-- Send buffers are taken in the order in which the clear-to-sends have come. -/
def Dev.grantSends (d : Dev) (engine : Nat) : Nat → Dev
  | 0 => d
  | n + 1 =>
    let all := (d.collsAt engine).flatMap fun c => c.cleared.map fun a => (c, a)
    match leastBy (fun x => x.2.1) all with
    | none => d
    | some (c, a) =>
      if 2 * 2 ^ 20 < d.sendHeld engine + c.buffer c.now.send a.2 then d
      else
        (d.modColl c.id fun c => { c with cleared := c.cleared.filter (· != a), sends := c.sends ++ [a.2] }).grantSends engine n

def Dev.grantBuffers (d : Dev) (engine : Nat) : Dev := (d.grantClears engine 70000).grantSends engine 70000

/-! ## Steps (R376) -/

/-- A step is complete. -/
def Coll.stepDone (c : Coll) : Bool :=
  let s := c.now
  let bar := c.desc.op == 4
  (s.keep.isEmpty || c.kept)
    && (s.sendTo.isNone || bar || c.sent.length == c.chunks s.send)
    && (s.recvFrom.isNone || (if bar then c.got.length == 1 else c.got.length == c.chunks s.recv))

/-- The step still waits for its READY; a further one of the same peer is for a later step. -/
def Coll.wantsReady (c : Coll) : Bool :=
  c.begun && c.asks.isEmpty && c.opened.isEmpty && c.got.isEmpty && (c.desc.op == 4 || !c.now.recv.isEmpty)

/-- A READY of the step's peer is used: the chunks are asked for; a barrier message is the transfer. -/
def Dev.useReady (d : Dev) (id : Nat) : Dev :=
  match d.coll? id with
  | none => d
  | some c =>
    match c.now.recvFrom with
    | none => d
    | some p =>
      if !c.wantsReady || !c.ready.contains p then d
      else if c.desc.op = 4 then d.modColl id fun c => { c with ready := c.ready.erase p, got := [0] }
      else
        let n := c.chunks c.now.recv
        let t := d.ticket
        let d : Dev := { d with ticket := t + n }
        (d.modColl id fun c => { c with ready := c.ready.erase p, asks := (List.range n).map fun k => (t + k, k) }).grantBuffers c.engine

/-- COLL_READY (R376, R396). -/
def Dev.collReady (d : Dev) (coll peer clock : Nat) : Dev :=
  (d.modColl coll fun c => { c with ready := c.ready ++ [peer], time := max c.time clock }).useReady coll
def execCollReady (coll peer clock : Nat) (s : State) : Host.Outcome State Fault Refusal :=
  onDev s fun d => d.collReady coll peer clock

/-- COLL_CTS (R376): a clear-to-send of the step's peer. -/
def Dev.collCts (d : Dev) (coll peer chunk clock : Nat) : Dev :=
  match d.coll? coll with
  | none => d
  | some c =>
    let old := c.sent.contains chunk || c.sends.contains chunk || c.cleared.any (·.2 == chunk)
    if !c.begun || c.now.sendTo ≠ some peer || c.chunks c.now.send ≤ chunk || old then d
    else
      let t := d.ticket
      let d : Dev := { d with ticket := t + 1 }
      (d.modColl coll fun c => { c with cleared := c.cleared ++ [(t, chunk)], time := max c.time clock }).grantBuffers c.engine
def execCollCts (coll peer chunk clock : Nat) (s : State) : Host.Outcome State Fault Refusal :=
  onDev s fun d => d.collCts coll peer chunk clock

/-- COLL_CHUNK_RECEIVE (R342): a chunk arrives in its buffer; its quantum runs when the arbiter takes it. -/
def Dev.collChunk (d : Dev) (coll peer chunk clock : Nat) (bytes : List Byte) : Dev :=
  match d.coll? coll with
  | none => d
  | some c =>
    if !c.begun || c.now.recvFrom ≠ some peer || !c.opened.contains chunk || c.arrived.any (·.1 == chunk)
        || bytes.length ≠ c.chunkBytes c.now.recv chunk then d
    else d.modColl coll fun c => { c with arrived := c.arrived ++ [(chunk, bytes)], time := max c.time clock }
def execCollChunkReceive (coll peer chunk clock : Nat) (bytes : List Byte) (s : State) : Host.Outcome State Fault Refusal :=
  onDev s fun d => d.collChunk coll peer chunk clock bytes

/-! ## The end (R226, R280) -/

/-- What stands in RECV after a failure is undefined (R226): in each sector its bytes as they are, or open ones. -/
def openRecv (free : Nat) (c : Coll) : List (Nat × OwedWrite) :=
  (spans 32 c.desc.recv (4 * c.desc.recvElems c.comm.size)).zipIdx.filterMap fun (sp, i) =>
    let word (k : Nat) : List Byte := leBytes 8 (Config.freeBits (free + 5 * i + k)).toNat
    if (Config.freeBits (free + 5 * i)).getLsbD 0 then
      some (sp.va, .bytes ((word 1 ++ word 2 ++ word 3 ++ word 4).take sp.n))
    else none

/-- The completion event of a rank (R226), no earlier than the posts of the ranks here (R280): STATUS, then DONE, later than the
completion that they tell (R279); the collective leaves its queue and the checker. After a failure the content of RECV is
open. -/
def Dev.endColl (d : Dev) (c : Coll) (err : Option (Nat × Nat)) (time : Nat) : Dev :=
  let time := if err.isSome then max time (d.nearPosted c) else time
  let word := match err with | none => 0 | some (cause, rank) => 2 ^ 63 + cause % 64 * 2 ^ 32 + rank % 1024
  let recv := if err.isSome then openRecv d.free c else []
  let status := if c.desc.status = 0 then [] else [(c.desc.status, OwedWrite.bytes (leBytes 8 word))]
  let done := if c.desc.done = 0 then [] else [(c.desc.done, OwedWrite.inc c.desc.dinc)]
  let d : Dev := { d with free := if err.isSome then d.free + 5 * (c.desc.recvElems c.comm.size / 8 + 2) else d.free }
  let d := d.owe c.ctx ((recv ++ status ++ done).map fun w => (w.1, time + 1, w.2))
  let d : Dev := { (d.dropReplies c.id) with colls := d.colls.filter (·.id != c.id) }
  (d.endJob c.id time).grantBuffers c.engine

/-- A rank's own failure ends the collective at every rank (R226). -/
def Dev.failColl (d : Dev) (c : Coll) (cause : Nat) : Dev :=
  let peers := (List.range c.comm.size).filter (· != c.comm.rank)
  let d := peers.foldl (fun d p => d.sendRank c p 1 (.failure c.seq cause c.comm.rank)) d
  d.endColl c (some (cause, c.comm.rank)) c.time

/-- The peers of a queue end their current collectives with CANCEL (R345): those on this package at once, the others by a message
that gives the queue's next number (DESIGN CHOICE, log entry 113). -/
def Dev.cancelPeers (d : Dev) (x : CollQueue) : Dev :=
  let c := x.fresh 0 ⟨0, 0, 0, 0, 0, 0, 0, 0, 0, 0, 0, 0, false, 0, 0⟩ 0 none
  ((List.range x.comm.size).filter (· != x.comm.rank)).foldl (fun d p =>
    if nearRank x.comm p then
      match (d.rankQueue c p).bind fun y => d.colls.find? fun z => z.ctx == y.ctx && z.q == y.q with
      | some z => d.endColl z (some (cCancel, x.comm.rank)) z.time
      | none => d
    else d.sendRank c p 1 (.failure c.seq cCancel x.comm.rank)) d

/-! ## Entering a step -/

/-- COLL_STEP_ENTER (R376): the next step, or the first once the collective is at the head of its queue and its footprint
lets it run. A rank on this package that disagrees ends it (R226, R341). -/
def execCollStepEnter (coll : Nat) (s : State) : Host.Outcome State Fault Refusal :=
  onDev s fun d =>
    match d.coll? coll, d.job? coll with
    | some c, some j =>
      let head := (d.colls.find? fun x => x.ctx == c.ctx && x.q == c.q).map (·.id)
      let next := if c.begun then c.step + 1 else c.step
      if head ≠ some coll || !j.mayRun || (c.begun && !c.stepDone) || (!c.begun && decide (c.steps.length ≤ c.step)) then d
      else if !c.begun && d.disagrees c then d.failColl { c with time := max c.time j.clock } cObject
      else
        let d := d.modColl coll fun c => { c with
          step := next, begun := decide (next < c.steps.length), kept := false, asks := [], opened := [], arrived := []
          got := [], rx := [], cleared := [], sends := [], sent := [], time := max c.time j.clock }
        match d.coll? coll with
        | none => d
        | some c =>
          let s := c.now
          let d := match s.sendTo with
            | some p => if c.desc.op = 4 || !s.send.isEmpty then d.sendRank c p 1 (.ready c.seq c.comm.rank c.time) else d
            | none => d
          d.useReady coll
    | _, _ => d

/-- A message that has come for a collective, which it names here. -/
def Dev.collMessage (d : Dev) (id : Nat) : PktBody → Dev
  | .ready _ peer clock => d.collReady id peer clock
  | .cts _ peer chunk clock => d.collCts id peer chunk clock
  | .chunk _ peer chunk clock bs => d.collChunk id peer chunk clock bs
  | .failure _ cause rank =>
    match d.coll? id with
    | some c => d.endColl c (some (cause, rank)) c.time
    | none => d
  | _ => d

/-- Messages between ranks of this package reach the collectives of an engine; one that comes before its post waits, one
for a collective that has ended is dropped. -/
def Dev.takeNear (d : Dev) (engine : Nat) : Dev :=
  d.egress.foldl (fun d e =>
    match e.home with
    | none => d
    | some (ctx, q, n) =>
      let gone : Dev := { d with egress := d.egress.erase e }
      match d.colls.find? fun z => z.ctx == ctx && z.q == q && z.seq == n with
      | some z => if z.engine = engine then gone.collMessage z.id e.pkt.body else d
      | none =>
        match d.queues.find? fun x => x.ctx == ctx && x.q == q with
        | some x => if n < x.posts.length then gone else d
        | none => gone) d

/-- A message of a rank of another package: it is for the queue of the tag's home context whose communicator has its
channel and its sender, the one of its number where there are several (log entry 107). One that comes before its post waits
(R376). -/
def Dev.farMessage (d : Dev) (ctx : Nat) (p : Packet) (n rank : Nat) : Dev :=
  match ofNumber p.queue (d.queues.filter fun x =>
      x.ctx == ctx && x.comm.vc == p.vc && (x.comm.ranks[rank]?).any (·.pkg == p.peer)) with
  | none => d
  | some x =>
    let e : Egress := ⟨ctx, none, 0, p, some (ctx, x.q, n)⟩
    ({ d with egress := d.egress ++ [e] } : Dev).takeNear (((x.comm.ranks[x.comm.rank]?).map (·.engine)).getD 0)

/-- A rank contributes to a collective (R224). -/
def Coll.contributes (c : Coll) : Bool := decide (c.desc.op ≤ 2) || (c.desc.op == 3 && c.comm.rank == c.desc.root)

/-- The residuals of the contribution are written, in one event: nothing when a page refuses (R71, R72). A rank alone has quantised
nothing, and its residuals stay (log entry 105). -/
def Dev.writeResiduals (d : Dev) (x : Ctx) (c : Coll) : Dev × Got Unit :=
  let n := c.desc.sendElems c.comm.rank
  if !c.desc.resid || !c.contributes then (d, .ok c.time ())
  else
    Got.andThen (Reach.got (d.reachFrom 0 x c.id (2 ^ 43) 32 c.desc.res (16 + 4 * n) c.time 1)) fun d t old =>
      let ok := resValid c.desc n old
      let gen := if ok then (field old 0 8 + 1) % 2 ^ 64 else 1
      let keep (i : Nat) : Nat := if ok then field old (16 + 4 * i) 4 else 0
      let word (i : Nat) : Nat := ((c.own.find? (·.i == i)).map (·.res.toNat)).getD (keep i)
      let bs := leBytes 8 gen ++ leBytes 4 n ++ leBytes 1 c.desc.wire ++ leBytes 3 0 ++ (List.range n).flatMap fun i => leBytes 4 (word i)
      match d.refuses 0 x c.desc.res bs.length with
      | some e => (d, .fail e)
      | none => Got.andThen (Reach.got (d.reachWrite 0 x c.id c.desc.res t bs)) fun d t _ => (d, .ok t ())

/-- COLL_COMPLETE (R226, R280): every step is complete, or a failure has ended the collective. -/
def execCollComplete (coll : Nat) (err : Option (Nat × Nat)) (posted : Nat) (s : State) : Host.Outcome State Fault Refusal :=
  onDev s fun d =>
    match d.coll? coll with
    | none => d
    | some c =>
      match err with
      | some e => d.endColl c (some e) c.time
      | none =>
        let ended := if c.begun then c.stepDone && c.step + 1 == c.steps.length else c.steps.length ≤ c.step
        let head := (d.colls.find? fun x => x.ctx == c.ctx && x.q == c.q).map (·.id)
        match d.ctx? c.ctx, d.nearPosts c, ended && head == some coll && (d.job? coll).any (·.mayRun) with
        | some x, some near, true =>
          match d.writeResiduals x c with
          | (d, .missing) => d
          | (d, .fail e) => d.failColl c e
          | (d, .ok t _) => d.endColl c none (max t (max near posted))
        | _, _, _ => d

/-! ## Quanta (R233, R376) -/

/-- The next quantum of a collective: the one that has started, before all. -/
def Coll.quantum (c : Coll) : Option Quantum :=
  if !c.begun then none
  else if c.paid.isSome then c.paid
  else if !c.now.keep.isEmpty && !c.kept then some .keep
  else
    match c.arrived, c.sends with
    | (k, _) :: _, _ => some (.take k)
    | [], k :: _ => some (.give k)
    | [], [] => none

/-- Bytes that a quantum charges. -/
def Coll.quantumBytes (c : Coll) : Quantum → Nat
  | .keep => 4 * c.now.keep.length
  | .take k => c.chunkBytes c.now.recv k
  | .give k => c.chunkBytes c.now.send k

/-- The units of a transfer that a chunk touches. -/
def Coll.unitsOf (c : Coll) (els : List Nat) (k : Nat) : List WireUnit :=
  let lo := k * c.desc.chunk
  let hi := lo + c.chunkBytes els k
  (c.desc.units els).filter fun u => decide (u.at_ < hi ∧ lo < u.at_ + u.n)

/-- Elements that a quantum uses, and the numbers in SEND of what it reads of them. -/
def Coll.quantumEls (c : Coll) : Quantum → List Nat
  | .keep => c.now.keep
  | .take k => if c.now.comb then (c.unitsOf c.now.recv k).flatMap (·.els) else []
  | .give k => (c.unitsOf c.now.send k).flatMap (·.els)
def Coll.quantumReads (c : Coll) (q : Quantum) : List Nat :=
  ((c.quantumEls q).filter c.raw).map c.sendIndex ++ (if q = .keep then [] else c.ownNeeds (c.quantumEls q))

/-- The chunks of SEND that a quantum reads are eligible: their blocks have exited (R233). -/
def Dev.eligible (d : Dev) (c : Coll) (q : Quantum) : Bool :=
  match c.launch.bind d.launch? with
  | none => true
  | some l => (c.quantumReads q).all fun i => l.exits.contains (4 * i / c.desc.chunk)

/-- Contexts with quanta to start at a collective engine, each with the bytes of its next one. -/
def Dev.collWants (d : Dev) (engine : Nat) : List (Nat × Coll × Quantum) :=
  let one (c : Coll) : Option (Nat × Coll × Quantum) :=
    match c.quantum with
    | some q => if d.eligible c q && c.paid.isNone then some (c.ctx, c, q) else none
    | none => none
  ((d.collsAt engine).filterMap one).foldl (fun l x => if l.any (·.1 == x.1) then l else l ++ [x]) []

/-- Contexts whose work is pending there: a quantum whose step end, data or clear-to-send has come (R376), or that has started
and has not ended, which charges no more. -/
def Dev.collPending (d : Dev) (engine : Nat) : List (Nat × Nat) :=
  let wants := (d.collWants engine).map fun x => (x.1, x.2.1.quantumBytes x.2.2)
  let cleared := (d.collsAt engine).filterMap fun c =>
    (c.cleared.head?).bind fun a => if d.eligible c (.give a.2) then some (c.ctx, c.quantumBytes (.give a.2)) else none
  let running := ((d.collsAt engine).filter (·.paid.isSome)).map fun c => (c.ctx, 0)
  (wants ++ cleared ++ running).foldl (fun l x => if l.any (·.1 == x.1) then l else l ++ [x]) []

/-- Values join the worked-out ones. -/
def Coll.putWork (c : Coll) (vs : List (Nat × Lane)) : Coll :=
  { c with work := vs ++ c.work.filter fun w => !vs.any (·.1 == w.1) }

/-- What a quantum has read or written is at hand: the collective fails, waits for a reply, or goes on. -/
def Dev.afterGot {α : Type} (c : Coll) (f : Dev → Nat → α → Dev) : Dev × Got α → Dev
  | (d, .missing) => d
  | (d, .fail e) => d.failColl c e
  | (d, .ok t a) => f d t a

/-- A quantum has run: what it awaited is used up. -/
def Dev.quantumDone (d : Dev) (id : Nat) (f : Coll → Coll) : Dev := (d.modColl id fun c => { f c with paid := none }).dropReplies id

/-- The rank's own write to RECV: what SEND holds (log entry 69). -/
def Dev.runKeep (d : Dev) (x : Ctx) (c : Coll) : Dev :=
  Dev.afterGot c (fun d t vs =>
    Dev.afterGot c (fun d t _ => d.quantumDone c.id fun c => { c with kept := true, time := max c.time t })
      (d.writeRecv x { c with time := max c.time t } vs))
    (d.collValues x { c with own := [] } c.now.keep)

/-- A quantum has its own contribution quantised as far as its elements need it, and their values. -/
def Dev.withValues (d : Dev) (x : Ctx) (c : Coll) (els : List Nat) (f : Dev → Coll → List (Nat × Lane) → Dev) : Dev :=
  Dev.afterGot c (fun d t own =>
    let c : Coll := { c with own := c.own ++ own, time := max c.time t }
    Dev.afterGot c (fun d t vs => f d { c with time := max c.time t } vs) (d.collValues x c els)) (d.readOwn x c els)

/-- A chunk is sent. DEDUCED (log entry 68): R71 quantises a rank's contribution once, and an own element that travels in several
steps goes with the code and the residual it was given first. -/
def Dev.runGive (d : Dev) (x : Ctx) (c : Coll) (k : Nat) : Dev :=
  let us := c.unitsOf c.now.send k
  d.withValues x c (us.flatMap (·.els)) fun d c vs =>
    let value (e : Nat) : Lane := ((vs.find? (·.1 == e)).map (·.2)).getD 0
    let bs := us.flatMap fun u => c.spell (u.els.map fun e => (e, value e))
    let lo := k * c.desc.chunk - ((us.head?).map (·.at_)).getD 0
    let n := c.chunkBytes c.now.send k
    let d := d.quantumDone c.id fun y => { y with sends := y.sends.erase k, sent := k :: y.sent, time := max y.time c.time, own := c.own }
    let d := match c.now.sendTo with
      | some p => d.sendRank c p (flitsFor n) (.chunk c.seq c.comm.rank k c.time ((bs.drop lo).take n))
      | none => d
    d.grantBuffers c.engine

/-- The bytes of a unit, once every chunk that it touches has come. -/
def Coll.unitCame (c : Coll) (rx : List (Nat × List Byte)) (u : WireUnit) : Option (List Byte) :=
  let byte (i : Nat) : Option Byte := (rx.find? (·.1 == i / c.desc.chunk)).bind fun x => x.2[i % c.desc.chunk]?
  ((List.range u.n).map (u.at_ + ·)).mapM byte

/-- A chunk is combined or written (R342, R376). -/
def Dev.runTake (d : Dev) (x : Ctx) (c : Coll) (k : Nat) : Dev :=
  let rx := (c.arrived.filter (·.1 == k)).take 1 ++ c.rx
  let came := (c.unitsOf c.now.recv k).filterMap fun u => (c.unitCame rx u).map fun bs => (u, unitValues c.desc.wire u.els.length bs)
  let new := came.flatMap fun p => p.1.els.zip p.2
  d.withValues x c (if c.now.comb then new.map (·.1) else []) fun d c hs =>
    let vs := new.map fun v => (v.1, match hs.find? (·.1 == v.1) with
      | some h => combine c.desc.type c.desc.red h.2 v.2
      | none => v.2)
    Dev.afterGot c (fun d t _ =>
      (d.quantumDone c.id fun y => { (y.putWork vs) with
        arrived := y.arrived.filter (·.1 != k), opened := y.opened.erase k, got := k :: y.got, rx := rx
        time := max y.time t, own := c.own }).grantBuffers c.engine)
      (if c.now.writes then d.writeRecv x c vs else (d, .ok c.time ()))

/-- A quantum's work. One that waits for what lies on another package goes on later. -/
def Dev.runQuantum (d : Dev) (x : Ctx) (c : Coll) : Quantum → Dev
  | .keep => d.runKeep x c
  | .take k => d.runTake x c k
  | .give k => d.runGive x c k

/-- A quantum runs at a collective engine: the choice of R285, the charge at its start (R282), the work. Quanta that have
started and wait are looked at first. -/
def Dev.runColl (d : Dev) (engine : Nat) : Dev :=
  let p : Point := .coll engine
  let d := d.takeNear engine
  let d := ((d.collsAt engine).filter (·.paid.isSome)).foldl (fun d c =>
    match c.quantum, d.ctx? c.ctx with | some q, some x => d.runQuantum x c q | _, _ => d) d
  let all := d.collWants engine
  let wants := all.map fun x => (x.1, x.2.1.quantumBytes x.2.2)
  let d := d.syncPoint p 0 (d.collPending engine)
  match d.choose p 0 wants (d.lastTurn p) with
  | none => d
  | some n =>
    match all.find? (·.1 == n), d.ctx? n with
    | some (_, c, q), some x =>
      let d := (d.chargeAt n p 0 (c.quantumBytes q)).noteTurn p n
      let d := d.modColl c.id fun c => { c with paid := some q }
      d.runQuantum x c q
    | _, _ => d

end Sys2Proof.Machine
end

