-- ==== Sys2Proof/Machine/Place.lean ====
section
/-!
DEFINITION. Placement and the end of blocks (01: R31 to R36, R41, R43; 04: R144, R145; 07: R229 to R231, R234; 10: R293;
11: R306, R310).
-/

namespace Sys2Proof.Machine

/-! ## Room on a core (R31, R32, Table 1-4) -/

/-- What is taken of a local space of a core: its blocks' ranges, and scratchpads kept for teams (R34). -/
def Dev.taken (d : Dev) (core : Nat) (sp : Space) : List Range :=
  ((d.blocks.filter (·.core == core)).map fun b => b.range sp) ++
    (if sp = .scratch then d.teams.flatMap fun t => (t.cores.zip t.ranges).filterMap fun x => if x.1 = core then some x.2 else none
     else [])

/-- The lowest base at which a length fits between ranges. -/
def freeBase (size : Nat) (occ : List Range) (len : Nat) : Option Nat :=
  if len = 0 then some 0
  else
    let free (c : Nat) : Bool := decide (c + len ≤ size) && occ.all fun r => decide (r.len = 0 ∨ c + len ≤ r.base ∨ r.base + r.len ≤ c)
    leastBy id (((0 :: occ.map fun r => r.base + r.len)).filter free)

def Dev.findRange (d : Dev) (core : Nat) (sp : Space) (len : Nat) : Option Range :=
  (freeBase sp.size (d.taken core sp) len).map fun b => ⟨b, len⟩

def Dev.wavesOn (d : Dev) (core : Nat) : List Wave := d.waves.filter fun w => (d.block? w.block).any (·.core == core)
def Dev.onPort (d : Dev) (core p : Nat) : Nat := ((d.wavesOn core).filter (·.port == some p)).length

/-- A footprint fits on a core now (R31). -/
def Dev.fits (d : Dev) (core : Nat) (f : Footprint) : Bool :=
  decide ((d.wavesOn core).length + f.waves ≤ 48)
    && decide (f.waves + ((List.range 6).map (d.onPort core)).sum ≤ 48)
    && decide (f.gran ≤ d.poolFree core)
    && (d.findRange core .scratch f.scratch).isSome && (d.findRange core .wbuf f.wbuf).isSome
    && (d.findRange core .abuf f.abuf).isSome && (d.findRange core .acc f.acc).isSome
    && decide (((d.blocks.filter (·.core == core)).map (·.ntags)).sum + f.tags ≤ 64)

/-- A core may take work, awake or asleep: no claim is pending, and it is not retired, absent, resetting or asked to cool
(R29, R295, R358 to R362). -/
def Dev.coreUsable (d : Dev) (core : Nat) : Bool :=
  let c := d.core core
  decide (core < 896) && c.claims.isEmpty && c.mapped && !c.retired && c.coldTill.isNone && !c.migrating
/-- A core takes work now: it is not in retention either (R359). -/
def Dev.coreOpen (d : Dev) (core : Nat) : Bool := d.coreUsable core && !(d.core core).retention

/-- Waves of a core that are suspended from their ports, while a port has room and no claim stops placement: the first
group of R293. -/
def Dev.portless (d : Dev) (core : Nat) : List Wave :=
  if (d.core core).claims.isEmpty && (List.range 6).any (fun p => d.onPort core p < 8) then
    (d.wavesOn core).filter fun w => w.port.isNone && w.live
  else []

/-- Work of a context may be placed (R311, R345). -/
def Dev.ctxOpen (d : Dev) (ctx : Nat) : Bool := (d.ctx? ctx).any fun c => !c.stopped && c.preempt.isNone

/-- The port with the fewest resident waves, the lowest number on a tie (R32). -/
def Dev.bestPort (d : Dev) (core : Nat) : Nat := (leastBy (d.onPort core) (List.range 6)).getD 0

/-! ## Placing a block (R17, R31, R32, R89) -/

/-- Waves join a block one after the other. -/
def Dev.addWaves (d : Dev) (b : Block) (gran : Nat) (pc s1 tvec : Word) (lts : Nat) : List Nat → Dev
  | [] => d
  | i :: is =>
    let (id, d) := d.fresh
    let w := Wave.new id b.id i (some (d.bestPort b.core)) gran pc s1 tvec lts id
    ({ d with waves := d.waves ++ [w] } : Dev).addWaves b gran pc s1 tvec lts is

/-- The ranges of a block are assigned and read zero. -/
def Dev.withRanges (d : Dev) (b : Block) (f : Footprint) : Block :=
  let r (sp : Space) (n : Nat) : Range := (d.findRange b.core sp n).getD ⟨0, n⟩
  { b with scratch := r .scratch f.scratch, wbuf := r .wbuf f.wbuf, abuf := r .abuf f.abuf, acc := r .acc f.acc
           ntags := f.tags, nwaves := f.waves }
def Dev.zeroRanges (d : Dev) (b : Block) : Dev :=
  (((d.zeroLoc b.core .scratch b.scratch).zeroLoc b.core .wbuf b.wbuf).zeroLoc b.core .abuf b.abuf).zeroLoc b.core .acc b.acc

/-- A block takes its place: its ranges read zero, and the core drops the context's cached instructions, and code of another
package that was asked for before (R17, R89). -/
def Dev.putBlock (d : Dev) (b : Block) : Dev :=
  let d := (d.zeroRanges b).forgetCode b.ctx
  { d with
    blocks := d.blocks ++ [b]
    icache := d.icache.filter fun e => !(e.core == b.core && e.ctx == b.ctx) }

def LaunchRec.footprint (r : LaunchRec) : Footprint :=
  ⟨r.waves, r.waves * r.regs, r.scratch, r.wbuf, r.abuf, r.acc, r.tags⟩

/-- A block of a launch is placed. -/
def Dev.placeItem (d : Dev) (l : Launch) (core i : Nat) (team : Option Nat) (member : Nat) : Dev :=
  let r := l.record
  let (id, d) := d.fresh
  let x := i % r.gx + i / r.gx % r.gy * 2 ^ 16 + i / (r.gx * r.gy) * 2 ^ 32
  let b : Block := { Block.plain id core l.ctx with
    launch := some l.id, coord := BitVec.ofNat 64 x, team := team, member := member
    engines := r.engines, svc := r.svc, depth := l.depth, resident := false }
  let b := d.withRanges b r.footprint
  ((d.putBlock b).addWaves b r.regs r.code r.param r.tvec l.time (List.range r.waves)).modLaunch l.id fun l =>
    { l with next := max l.next (i + 1) }

/-- Cores for the blocks of a resumption: the first on the core in hand, the others on distinct cores of its die (R33). -/
def Dev.resumeCores (d : Dev) (core : Nat) : List Nat → List Footprint → Option (List Nat)
  | used, [] => some used
  | used, f :: fs =>
    let die := dieOf core
    let ok (c : Nat) : Bool := !used.contains c && d.coreOpen c && (d.portless c).isEmpty && d.fits c f
    let cand := if used.isEmpty then [core] else (List.range 224).map (die * 224 + ·)
    match cand.find? ok with
    | none => none
    | some c => d.resumeCores core (used ++ [c]) fs

/-- The resumptions that wait for this core and fit, in the order of their `resume`: the second group of R293. -/
def Dev.resumesAt (d : Dev) (core : Nat) : List Pending :=
  d.pending.filter fun p => match p with
    | .resume _ c _ _ fs _ _ _ _ _ => d.ctxOpen c && (d.resumeCores core [] fs).isSome
    | _ => false

/-- The cores for a team whose first member goes to `core`: distinct cores of one die where each member fits (R33), and where no
resumption waits that would go first (R293). -/
def Dev.teamCores (d : Dev) (core n : Nat) (f : Footprint) : Option (List Nat) :=
  let die := dieOf core
  let others := ((List.range 224).map (die * 224 + ·)).filter fun c =>
    c != core && d.coreOpen c && (d.portless c).isEmpty && (d.resumesAt c).isEmpty && d.fits c f
  let cs := core :: others.take (n - 1)
  if cs.length = n && d.coreOpen core && d.fits core f then some cs else none

/-- A team is placed whole (R33). -/
def Dev.placeTeam (d : Dev) (l : Launch) (cores : List Nat) : Dev :=
  let r := l.record
  let (tid, d) := d.fresh
  let first := l.next
  let d := cores.zipIdx.foldl (fun d (c, m) => d.placeItem l c (first + m) (some tid) m) d
  let bs := d.blocks.filter (·.team == some tid)
  { d with teams := d.teams ++ [{
      id := tid, launch := some l.id, index := first / r.teamsz, size := r.teamsz, cores := cores
      blocks := bs.map (·.id), ranges := bs.map (·.scratch), gen := 0, left := [] }] }

/-! ## What a core places next (R293) -/

/-- Work that could be placed on a core: its class, the deadline of its context's issue-port server there, its number. -/
structure Candidate where
  cls  : Nat
  dl   : Option Nat
  id   : Nat
deriving DecidableEq, Repr

/-- The best of some candidates: class, deadline (work without a server last), acceptance. -/
def bestCandidate (l : List Candidate) : Option Candidate :=
  match leastBy (·.cls) l with
  | none => none
  | some c =>
    let l := l.filter (·.cls == c.cls)
    match leastBy (fun x => x.dl.getD 0) (l.filter (·.dl.isSome)) with
    | some x => leastBy (·.id) (l.filter (·.dl == x.dl))
    | none => leastBy (·.id) l

/-- The least deadline of a context's issue-port server at a core. -/
def Dev.portDeadline (d : Dev) (core ctx : Nat) : Option Nat := (d.server? ctx (.port core)).map fun s => (leastBy id s.d).getD 0

/-- The next item of a launch could be placed here. -/
def Dev.launchFits (d : Dev) (core : Nat) (l : Launch) : Bool :=
  l.released && l.preds.isEmpty && decide (l.next < l.record.blocks) && d.ctxOpen l.ctx &&
    (if l.record.teamsz = 0 then d.fits core l.record.footprint
     else (d.teamCores core l.record.teamsz l.record.footprint).isSome)

/-- The footprint of a child or a resident program: one wave. -/
def oneWave (gran : Nat) : Footprint := ⟨1, gran, 0, 0, 0, 0, 0⟩

def Dev.pendingFits (d : Dev) (core : Nat) (p : Pending) : Bool :=
  d.ctxOpen p.ctx &&
    match p with
    | .spawn _ _ die _ _ gran _ _ _ _ _ _ => die == dieOf core && d.fits core (oneWave gran)
    | .resident _ _ _ gran => d.fits core (oneWave gran)
    | .resume .. => false

def Pending.id : Pending → Nat
  | .spawn i _ _ _ _ _ _ _ _ _ _ _ => i
  | .resident i _ _ _ => i
  | .resume i _ _ _ _ _ _ _ _ _ => i

/-- The class of pending work: its block's, or for a resident program that of the context's server (R43, R293). -/
def Dev.pendingClass (d : Dev) (core : Nat) : Pending → Nat
  | .spawn _ _ _ _ _ _ _ svc _ _ _ _ => svc.toNat % 4
  | .resident _ c _ _ => d.classAt c (.port core)
  | .resume .. => 0

def Dev.candidates (d : Dev) (core : Nat) : List Candidate :=
  ((d.launches.filter (d.launchFits core)).map fun l => ⟨l.record.svc.toNat % 4, d.portDeadline core l.ctx, l.id⟩) ++
    ((d.pending.filter (d.pendingFits core)).map fun p => ⟨d.pendingClass core p, d.portDeadline core p.ctx, p.id⟩)

/-- SVC of a resident program: the class and PMAX of the context's server at the core (R43). -/
def Dev.residentSvc (d : Dev) (core ctx : Nat) : BitVec 8 :=
  match d.server? ctx (.port core) with
  | some s => BitVec.ofNat 8 (s.args.cls + 4 * (if s.args.pmax = 1 then 0 else if s.args.pmax = 2 then 1 else 2))
  | none => 0x0A

/-- Pending work of one wave is placed. -/
def Dev.placePending (d : Dev) (core : Nat) (p : Pending) : Dev :=
  let d : Dev := { d with pending := d.pending.filter (·.id != p.id) }
  let (id, d) := d.fresh
  match p with
  | .spawn _ ctx _ code param gran engines svc depth launch tvec clock =>
    let b : Block := { Block.plain id core ctx with
      launch := launch, engines := engines, svc := svc, depth := depth, resident := false }
    (d.putBlock b).addWaves b gran code param tvec clock [0]
  | .resident _ ctx code gran =>
    let b : Block := { Block.plain id core ctx with svc := d.residentSvc core ctx }
    (d.putBlock b).addWaves b gran code 0 0 0 [0]
  | .resume .. => d

/-- A suspended wave re-enters a port (R131): its monitors are lost, an `mwait` returns, a `yield` completes. -/
def Dev.reenterPort (d : Dev) (core : Nat) (w : Wave) : Dev :=
  let p := d.bestPort core
  let id := d.nextId
  let back (s : Strand) : Strand :=
    match s.waiting with
    | some ⟨_, .mwait _⟩ => { s with pc := s.pc + 4, waiting := none, monitor := none }
    | some ⟨_, .yield _⟩ => { s with pc := s.pc + 2, waiting := none, monitor := none }
    | _ => { s with monitor := none }
  { d.modWave w.id fun w => { w with port := some p, order := id, strands := w.strands.map back } with nextId := id + 1 }

/-- The first group of R293: the wave that re-enters a port next. -/
def Dev.nextPortless (d : Dev) (core : Nat) : Option Wave :=
  let out := d.portless core
  let cand (w : Wave) : Candidate :=
    let ctx := ((d.block? w.block).map (·.ctx)).getD 0
    ⟨d.classAt ctx (.port core) / 2, d.portDeadline core ctx, w.order⟩
  (bestCandidate (out.map cand)).bind fun c => out.find? (·.order == c.id)

/-- The third group of R293: new work, one item. -/
def Dev.placeNew (d : Dev) (core : Nat) : Dev :=
  match bestCandidate (d.candidates core) with
  | none => d
  | some c =>
    match d.launch? c.id with
    | some l =>
      if l.record.teamsz = 0 then d.placeItem l core l.next none 0
      else match d.teamCores core l.record.teamsz l.record.footprint with | some cs => d.placeTeam l cs | none => d
    | none => match d.pending.find? (·.id == c.id) with | some p => d.placePending core p | none => d

/-- Work waits that would go to a core, awake or not. -/
def Dev.wanted (d : Dev) (core : Nat) : Bool :=
  (d.launches.any fun l => l.released && l.preds.isEmpty && decide (l.next < l.record.blocks) && d.ctxOpen l.ctx
      && d.fits core l.record.footprint)
    || d.pending.any fun p => match p with
      | .resume _ c _ _ fs _ _ _ _ _ => d.ctxOpen c && fs.any (d.fits core)
      | _ => d.pendingFits core p

/-- Placement that is pending for a core ends its time without any (R359). -/
def Dev.restartIdle (d : Dev) : Dev :=
  if d.pending.isEmpty && d.launches.isEmpty then d
  else (List.range 896).foldl (fun d c =>
    if d.wanted c && decide ((d.core c).idle < d.clock) then d.modCore c fun x => { x with idle := d.clock } else d) d

/-- Placement on a core in retention wakes it, which takes 2 µs (R359). -/
def Dev.wakeCore (d : Dev) (core : Nat) : Dev :=
  let c := d.core core
  if d.coreUsable core && c.retention && c.wake.isNone && d.wanted core then
    d.modCore core fun c => { c with wake := some (d.clock + 4800) }
  else d

/-- BLOCK_PLACE (R293): one item. Waves of the core's own blocks come first, whatever keeps new work away (R325, R358). -/
def execBlockPlace (core : Nat) (s : State) : Host.Outcome State Fault Refusal :=
  onDev s fun d =>
    match d.nextPortless core with
    | some w => d.reenterPort core w
    | none =>
      if !d.coreOpen core then d.wakeCore core
      else if !(d.resumesAt core).isEmpty then d
      else d.placeNew core

/-! ## Release and windows (R230, R231, R234) -/

/-- LAUNCH_RELEASE (R230). -/
def execLaunchRelease (launch : Nat) (s : State) : Host.Outcome State Fault Refusal :=
  onDev s fun d => d.modLaunch launch fun l =>
    if l.preds.isEmpty && l.window.isNone then { l with released := true } else l

/-- KNEAD_WINDOW_CLOSE (R234): none closes once a reset has stopped the context (R345). -/
def execKneadWindowClose (ctx : Nat) (s : State) : Host.Outcome State Fault Refusal :=
  onDev s fun d =>
    let ripe (l : Launch) : Bool := l.ctx == ctx && !(d.ctx? ctx).any (·.stopped) && l.window.any fun t => decide (t + 4800 ≤ d.clock)
    { d with launches := modIf ripe (fun l => { l with window := none }) d.launches }

/-! ## The end of a block (R34, R40, R144, R145) -/

/-- A block leaves its core: its waves, its ranges, its tags and its entries go; a team keeps its scratchpads until it has
ended, and the clocks at which its waves arrived at the team barrier that has not released (R143). -/
def Dev.removeBlock (d : Dev) (b : Block) : Dev :=
  let left := (d.blockWaves b.id).flatMap fun w =>
    (w.arrivals.filter fun a => a.bar == 15 && a.released.isNone).map (·.clock)
  let d : Dev := { d with
    teams := modIf (fun t => some t.id == b.team) (fun t => { t with left := t.left ++ left }) d.teams
    waves := d.waves.filter (·.block != b.id)
    blocks := d.blocks.filter (·.id != b.id)
    reports := d.reports.filter (·.block != b.id)
    cores := d.cores.map fun c => { c with fifo := c.fifo.filter (·.block != b.id) } }
  let now := d.clock
  let d := d.modCore b.core fun c => { c with idle := now }
  { d with teams := d.teams.filter fun t => t.blocks.any fun i => (d.block? i).isSome }

/-- Operations that a block's end waits for (R144). -/
def Dev.holdsBlock (d : Dev) (b : Nat) : Bool :=
  (d.memops.any fun o => o.block == b && (o.kind.inSt || o.kind == .sstore || o.kind == .stamp))
    || (d.jobs.any fun j => j.block == b && (j.kind.inCp || j.kind.inTl))
    || d.reports.any (·.block == b)

/-- The items of a launch have all triggered or exited: its dependants are released early (R39, R231), and what names it as
a predecessor from now on finds it so. -/
def Dev.releaseDeps (d : Dev) (id : Nat) : Dev :=
  match d.launch? id with
  | none => d
  | some l =>
    if l.trigs < l.count then d
    else
      let free (x : Launch) : Launch :=
        if x.id = id ∧ x.early = none then { x with early := some l.trigTime }
        else if x.preds.contains id then { x with preds := x.preds.filter (· != id), time := max x.time l.trigTime } else x
      { d with launches := d.launches.map free }

/-- A rank's posting time on its queue rises to a time (R280). -/
def Dev.raisePost (d : Dev) (c : Coll) (t : Nat) : Dev :=
  let own (q : CollQueue) : Bool := q.ctx == c.ctx && q.q == c.q
  { d with queues := modIf own (fun q => { q with posts := q.posts.modify c.seq (max t) }) d.queues }

/-- A chunk of a bound collective becomes eligible when its block exits; the collective's posting time is the largest of the
exits (R233, R280). -/
def Dev.exitChunk (d : Dev) (l : Launch) (b : Block) (t : Nat) : Dev :=
  match l.coll with
  | none => d
  | some c =>
    let x := b.coord.toNat
    let i := x % 2 ^ 16 + l.record.gx * (x / 2 ^ 16 % 2 ^ 16 + l.record.gy * (x / 2 ^ 32))
    let d := (d.modLaunch l.id fun l => { l with exits := i :: l.exits }).modColl c fun c => { c with time := max c.time t }
    match d.coll? c with | some c => d.raisePost c t | none => d

/-- The PF is told once no block of the contexts of a pre-emption request remains placed (R314); resident programs are
parked, and stay (R311). -/
def Dev.tellPreempt (d : Dev) (ctx : Nat) : Dev :=
  match (d.ctx? ctx).bind (·.preempt) with
  | none => d
  | some p =>
    let mates := d.ctxs.filter fun c => c.preempt.any fun q => q.target == p.target
    if p.told || d.blocks.any (fun b => !b.resident && mates.any (·.n == b.ctx)) then d
    else
      let told (c : Ctx) : Ctx := { c with preempt := c.preempt.map fun q => { q with told := true } }
      ({ d with ctxs := modIf (fun c => mates.any (·.n == c.n)) told d.ctxs } : Dev).setEvent 0 2

/-- A block ends: its launch decrements, later than every write of the block (R38, R144); the end of a resident program is told (R43). -/
def Dev.finishBlock (d : Dev) (b : Block) : Dev :=
  let t := maxOf (b.time :: (d.blockWaves b.id).map (·.lts))
  let d := (d.removeBlock b).tellPreempt b.ctx
  match b.launch.bind d.launch? with
  | none =>
    if b.resident then (match d.ctx? b.ctx with | some c => if c.stopped then d else d.setEvent c.fn 6 | none => d) else d
  | some l =>
    let d := d.exitChunk l b t
    let d := d.modLaunch l.id fun l =>
      { l with trigs := if b.trigDone then l.trigs - 1 else l.trigs
               trigTime := if b.trigDone then l.trigTime else max l.trigTime t }
    (d.decLaunch l.id 1 (t + 1)).releaseDeps l.id

/-- BLOCK_END (R144). -/
def execBlockEnd (block : Nat) (s : State) : Host.Outcome State Fault Refusal :=
  onDev s fun d =>
    match d.block? block with
    | none => d
    | some b => if !(d.liveWaves block).isEmpty || d.holdsBlock block then d else d.finishBlock b

/-- BLOCK_TRIGGER_EVENT (R145). -/
def execBlockTriggerEvent (block : Nat) (s : State) : Host.Outcome State Fault Refusal :=
  onDev s fun d =>
    match d.block? block with
    | none => d
    | some b =>
      let ops := b.trigOps.getD []
      let all := (d.blockWaves block).all fun w => w.strands.all fun t => t.triggered || t.exited
      let busy := (d.memops.any fun o => ops.contains o.id) || d.jobs.any fun j => ops.contains j.id
      if b.trigDone || !all || busy then d
      else
        let d := d.modBlock block fun b => { b with trigDone := true }
        match b.launch with
        | none => d
        | some l =>
          (d.modLaunch l fun l => { l with trigs := l.trigs + 1, trigTime := max l.trigTime b.trigTime }).releaseDeps l

/-- CANCEL_DEADLINE (R41): a `susp` in progress completes first (R313); a block whose waves have exited needs no force. -/
def execCancelDeadline (block : Nat) (s : State) : Host.Outcome State Fault Refusal :=
  onDev s fun d =>
    match d.block? block with
    | none => d
    | some b =>
      if b.deadline.any (· ≤ d.clock) && b.susp.isNone && !(d.liveWaves block).isEmpty then d.forceExit block else d

/-! ## Entry into handlers, watchdogs (R306, R310) -/

/-- HANDLER_ENTRY (R306). -/
def execHandlerEntry (wave : Nat) (s : State) : Host.Outcome State Fault Refusal :=
  onDev s fun d =>
    match d.wave? wave with
    | none => d
    | some w =>
      if w.entry && !w.busy && w.live && !(d.block? w.block).any (·.stopped) then d.enterHandler wave else d

/-- Waits that the watchdog watches (R310). -/
def WaitFor.watched : WaitFor → Bool
  | .counters .. => true
  | .regang _ => true
  | .regclm _ => true
  | .tags .. => true
  | .byteBar _ => true
  | .numBar _ => true
  | _ => false

/-- WATCHDOG (R310). -/
def execWatchdog (wave strand : Nat) (s : State) : Host.Outcome State Fault Refusal :=
  onDev s fun d =>
    match (d.wave? wave).bind (·.strands[strand]?) with
    | some ⟨_, _, _, _, _, _, _, _, some x, _⟩ =>
      if x.what.watched && decide (x.since + 2 ^ 28 ≤ d.clock) then d.raiseAsync wave cWatchdog else d
    | _ => d

end Sys2Proof.Machine
end

