-- ==== Sys2Proof/Machine/Ember.lean ====
section
/-!
DEFINITION. Continuations (07: R236 to R242; 11: R311 to R325): the continuation table, the object's layout, `susp`, `resume`,
`cclone`, `cdrop`, and the steps that seal and place objects.
-/

namespace Sys2Proof.Machine

/-! ## The continuation table (R322, Tables 11-7 and 11-8) -/

abbrev slotFree : Nat := 0
abbrev slotSuspended : Nat := 1
abbrev slotResuming : Nat := 2
abbrev slotResumed : Nat := 3

/-- Slot, generation and identity (R236). -/
def identSlot (i : Nat) : Nat := i % 2 ^ 20
def identGen (i : Nat) : Nat := i / 2 ^ 20
def identOf (slot gen : Nat) : Nat := slot + gen % 2 ^ 44 * 2 ^ 20
def slotWord (gen st : Nat) : Nat := gen % 2 ^ 44 * 2 ^ 20 + st

/-- The home of a slot, by the context's page tables and with the device's own rights (R322). -/
def Dev.slotPlace (d : Dev) (x : Ctx) (s : Nat) : Except Nat Loc :=
  match d.translate 0 x (x.ctab + 8 * s) with
  | .error e => .error e
  | .ok l => match l.loc (x.ctab + 8 * s) with | .glob pa => .ok (.glob pa) | _ => .error cXlate

/-- How an event at a slot has ended. -/
inductive SlotEnd where
  | moved (t : Nat)
  | wrong
  | fail (cause : Nat)
deriving DecidableEq, Repr

/-- The address of an identity's slot (R322). -/
def slotAddr (x : Ctx) (ident : Nat) : Nat := x.ctab + 8 * identSlot ident

/-- The walk that the translation of a slot's address has made (R258). -/
def Dev.slotLooked (x : Ctx) (ident : Nat) (q : Dev × SlotEnd) : Dev × SlotEnd := (q.1.looked 0 x (slotAddr x ident), q.2)

/-- A slot in one of some states with an identity's generation moves to a state, in one event (R242). -/
def Dev.moveSlot (d : Dev) (x : Ctx) (ident : Nat) (from_ : List Nat) (dest c : Nat) : Dev × SlotEnd :=
  Dev.slotLooked x ident <| match d.slotPlace x (identSlot ident) with
  | .error e => (d, .fail e)
  | .ok loc =>
    match d.peekLoc x.n loc 8 with
    | none => (d, .fail cIntegrity)
    | some bs =>
      let w := leNat bs
      if from_.contains (w % 4) && w / 2 ^ 20 == identGen ident then
        let (d, t, _) := d.homeWrite x.n none true loc c fun _ => leBytes 8 (slotWord (identGen ident) dest)
        (d, .moved t)
      else
        let (d, _, _) := d.homeLoad x.n loc 8 c 1
        (d, .wrong)

/-- Whether a slot is SUSPENDED with an identity's generation, read at its home (R240). -/
def Dev.testSlot (d : Dev) (x : Ctx) (ident c : Nat) : Dev × SlotEnd :=
  Dev.slotLooked x ident <| match d.slotPlace x (identSlot ident) with
  | .error e => (d, .fail e)
  | .ok loc =>
    match d.homeLoad x.n loc 8 c 1 with
    | (d, _, none) => (d, .fail cIntegrity)
    | (d, t, some bs) =>
      (d, if leNat bs % 4 = slotSuspended ∧ leNat bs / 2 ^ 20 = identGen ident then .moved t else .wrong)

/-- The lowest FREE slot and its generation; a slot that cannot be read before it is a failure (R237). The first number
bounds the slots. -/
def Dev.freeSlot (d : Dev) (x : Ctx) : Nat → Nat → Except Nat (Option (Nat × Nat))
  | 0, _ => .ok none
  | n + 1, s =>
    match d.slotPlace x s with
    | .error e => .error e
    | .ok loc =>
      match d.peekLoc x.n loc 8 with
      | none => .error cIntegrity
      | some bs => if leNat bs % 4 = slotFree then .ok (some (s, leNat bs / 2 ^ 20)) else d.freeSlot x n (s + 1)

/-- A slot is taken (R236, step 6): the new identity and the time, or a cause with its address. -/
def Dev.takeSlot (d : Dev) (x : Ctx) (c : Nat) : Dev × Except Nat (Nat × Nat) :=
  match d.freeSlot x (2 ^ 20) 0 with
  | .error e => (d, .error e)
  | .ok none => (d, .error cObject)
  | .ok (some (s, gen)) =>
    match d.slotPlace x s with
    | .error e => (d, .error e)
    | .ok loc =>
      let (d, t, _) := d.homeWrite x.n none true loc c fun _ => leBytes 8 (slotWord (gen + 1) slotResuming)
      (d.looked 0 x (x.ctab + 8 * s), .ok (identOf s (gen + 1), t))

/-! ## Objects: writing (R317 to R320) -/

/-- Bytes padded with zeros to a multiple of 256, or to a length. -/
def padTo (n : Nat) (bs : List Byte) : List Byte := bs ++ List.replicate (n - bs.length) 0
def pad256 (bs : List Byte) : List Byte := padTo ((bs.length + 255) / 256 * 256) bs

/-- A register or spill slot in the form of a format byte (R188, R320). -/
def imageBytes (fmt : Nat) (vs : LaneVec) : List Byte :=
  let b := (vs[0]?).getD 0
  leBytes 4 fmt ++
    match fmt with
    | 1 => leBytes 4 b.toNat
    | 4 => leBytes 4 b.toNat ++ leBytes 4 (((vs[1]?).getD 0) - b).toNat
    | 2 => leBytes 4 b.toNat ++ vs.flatMap fun x => leBytes 1 (x - b).toNat
    | 3 => leBytes 4 b.toNat ++ vs.flatMap fun x => leBytes 2 (x - b).toNat
    | _ => vs.flatMap fun x => leBytes 4 x.toNat

def strandSum (w : Wave) (p : Strand → Bool) : Nat :=
  (w.strands.zipIdx.map fun x => if p x.1 then 2 ^ x.2 else 0).sum
def arrivalSum (w : Wave) (p : Arrival → Bool) : Nat :=
  ((List.range 16).map fun n => if w.arrivals.any (fun a => a.bar == n && p a) then 2 ^ n else 0).sum

/-- WFLAGS (Table 11-6). -/
def Wave.flags (w : Wave) : Nat :=
  w.inHandler.toNat + strandSum w (·.exited) * 2 ^ 8 + strandSum w (·.triggered) * 2 ^ 16 + w.v.length / 8 * 2 ^ 24
    + arrivalSum w (·.released.isNone) * 2 ^ 32 + arrivalSum w (·.released.isSome) * 2 ^ 48

/-- A wave record (Table 11-6); `skip` is added to the PCs: the strands go on after their `susp` (R239). -/
def Wave.record (w : Wave) (skip cause : Nat) : List Byte :=
  let word (x : Word) : List Byte := leBytes 8 x.toNat
  (w.strands.flatMap fun s => if s.exited then leBytes 8 0 else leBytes 8 ((s.pc.toNat + skip) % 2 ^ 56))
    ++ word w.gangMap ++ leBytes 8 w.flags
    ++ word w.fault.addr ++ word w.fault.pc ++ word w.fault.word ++ leBytes 24 0
    ++ (w.m.flatMap fun m => leBytes 4 m.toNat)
    ++ word w.tvec ++ leBytes 8 w.lts ++ leBytes 8 cause ++ word w.gsave ++ leBytes 16 0
    ++ (w.trec.words.flatMap word)
    ++ (w.strands.flatMap fun s => word s.epc)
    ++ (w.strands.flatMap fun s => s.hsave.flatMap word)
    ++ (w.strands.flatMap fun s => s.s.flatMap word)

/-- The lease records of a block (Table 11-5). -/
def Dev.leaseRecords (d : Dev) (b : Block) : List Byte :=
  [EngKind.tile, .table, .select].flatMap fun k =>
    match (d.blockWaves b.id).find? fun w => (d.engine b.core k).holds w.id with
    | none => 0xFF :: leBytes 15 0
    | some w =>
      let token := (w.tokens[kindNum k]?).getD 0
      let r := w.trec
      leBytes 1 (kindNum k) ++ leBytes 1 w.idx ++ leBytes 2 0 ++ leBytes 4 token
        ++ (if k = .tile then leBytes 2 r.commit ++ leBytes 2 r.kstart ++ leBytes 2 r.kend else leBytes 6 0) ++ leBytes 2 0

/-- The blocks that suspend together: a team's in member order, or one (R324). -/
def Dev.suspGroup (d : Dev) (b : Block) : List Block :=
  match b.team.bind d.team? with
  | some t => t.blocks.filterMap d.block?
  | none => [b]

def Block.sealing? (b : Block) : Option Sealing := match b.susp with | some (.sealing x) => some x | _ => none

/-- The TEAM section of member 0's object, and TEAMID (R320, R324). -/
def Dev.teamSection (d : Dev) (b : Block) : List Byte :=
  if b.team.isNone ∨ b.member ≠ 0 then []
  else
    (List.range 16).flatMap fun m =>
      match ((d.suspGroup b).find? (·.member == m)).bind (·.sealing?) with
      | some z => leBytes 8 z.addr ++ leBytes 8 z.ident
      | none => leBytes 16 0
def Dev.teamIdent (d : Dev) (b : Block) : Nat :=
  if b.team.isNone then 0 else (((d.suspGroup b).head?.bind (·.sealing?)).map (·.ident)).getD 0

/-- The waves of a block in order, with what their reports leave in cause and record (R178). -/
def Dev.savedWaves (d : Dev) (b : Block) : List Wave :=
  let ws := (List.range b.nwaves).filterMap fun i => (d.blockWaves b.id).find? (·.idx == i)
  ws.map fun w =>
    (d.reports.filter fun o => d.reportWave o == w.id).foldl (fun (w : Wave) o =>
      match o.failures with
      | [] => w
      | a :: _ =>
        let m := o.failures.foldl (fun (m : LaneMask) a => m ||| (1#32 <<< a.lane)) 0
        let c := a.failure.getD 0
        if memoryCause c then { w.setCause c with fault := ⟨BitVec.ofNat 64 a.ea, c, m, o.pc, true⟩ } else w.setCause c) w

/-- The sections of an object in the order of SECTIONS, each padded, and whether everything in them could be read: a word of
a range that cannot be corrected, or a spill slot whose check fails, has no image (R320; log entry 103). -/
def Dev.objectSections (d : Dev) (b : Block) (z : Sealing) : List (List Byte) × Bool :=
  let ws := d.savedWaves b
  let saved (w : Wave) : Nat := if z.forced then (w.cause &&& ~~~(1#64 <<< cPreempt)).toNat else w.cause.toNat
  let range (sp : Space) : List Byte × Bool :=
    if z.noBuf && sp != .scratch then ([], true) else d.readLoc b.core sp (b.range sp).base (b.range sp).len
  let (sc, ok1) := range .scratch
  let (wb, ok2) := range .wbuf
  let (ab, ok3) := range .abuf
  let (ac, ok4) := range .acc
  let sound := ws.all fun w => w.spill.all (·.flaw == 0)
  let lanes := ws.flatMap fun w => w.v.flatMap fun r => imageBytes (spillForm r) r
  let spill := ws.flatMap fun w => (List.range 256).flatMap fun i => imageBytes (w.slot i).fmt (w.slot i).vals
  ([ws.flatMap fun w => w.record (if z.forced then 0 else 12) (saved w), lanes, spill, sc, wb, ab, ac,
    d.teamSection b].map pad256, ok1 && ok2 && ok3 && ok4 && sound)

/-- SECTIONS: the offset of each section, 0 for an absent one. -/
def sectionOffsets : Nat → List (List Byte) → List Nat
  | _, [] => []
  | at_, s :: rest => (if s.isEmpty then 0 else at_) :: sectionOffsets (at_ + s.length) rest

/-- A header with SEAL in place (R318). -/
def sealHeader (key : Nat) (h : List Byte) : List Byte :=
  let z := h.take 0x18 ++ leBytes 8 0 ++ (h.drop 0x20).take 0xE0
  h.take 0x18 ++ leBytes 8 (cmac64 (Config.sealKey key) z).toNat ++ (h.drop 0x20).take 0xE0

/-- The header of an object (Table 11-4). -/
def Dev.objectHeader (d : Dev) (b : Block) (x : Ctx) (z : Sealing) (slts : Nat) (secs : List (List Byte)) : List Byte :=
  let team := (b.team.bind d.team?)
  sealHeader x.sealKey (
    leBytes 4 0x52424D45 ++ leBytes 2 1 ++ leBytes 2 (z.forced.toNat + 2 * b.team.isSome.toNat + 4 * z.noBuf.toNat)
    ++ leBytes 8 z.ident ++ leBytes 2 b.ctx ++ leBytes 1 x.fn ++ leBytes 5 0 ++ leBytes 8 0
    ++ leBytes 1 b.nwaves ++ leBytes 1 b.ntags ++ leBytes 1 ((team.map (·.size)).getD 0)
    ++ leBytes 1 (if b.team.isSome then b.member else 0)
    ++ leBytes 1 b.svc.toNat ++ leBytes 1 b.engines.toNat ++ leBytes 1 b.depth ++ leBytes 1 0
    ++ leBytes 4 b.scratch.len ++ leBytes 4 b.wbuf.len ++ leBytes 4 b.abuf.len ++ leBytes 4 b.acc.len
    ++ leBytes 2 ((d.blockWaves b.id).map fun w => w.v.length / 8).sum ++ leBytes 6 0
    ++ z.leases
    ++ leBytes 8 b.coord.toNat ++ leBytes 4 ((team.map (·.index)).getD 0) ++ leBytes 4 0
    ++ leBytes 8 (((b.launch.bind d.launch?).map (·.record.comp)).getD 0) ++ leBytes 8 (d.teamIdent b)
    ++ leBytes 8 slts ++ leBytes 8 (256 + (secs.map (·.length)).sum)
    ++ leBytes 8 b.arrived.toNat ++ leBytes 8 b.skipTags.toNat ++ leBytes 16 0
    ++ (sectionOffsets 256 secs).flatMap (leBytes 8))

/-! ## Suspension (R236, R237, R323) -/

/-- The waves of some blocks leave their `susp`, whose address their PCs hold. -/
def Dev.leaveSusp (d : Dev) (g : List Block) : Dev :=
  let out (s : Strand) : Strand := match s.waiting with | some ⟨_, .susp⟩ => { s with waiting := none } | _ => s
  let ids := g.map (·.id)
  { d with
    waves := modIf (fun w => ids.contains w.block) (fun w => { w with susp := none, strands := w.strands.map out }) d.waves
    blocks := modIf (fun b => ids.contains b.id) (fun b => { b with susp := none }) d.blocks }

/-- A suspension fails: the blocks run on, and the cause is raised in every wave (R236, R237). A memory cause is recorded
with its address. -/
def Dev.failSusp (d : Dev) (g : List Block) (cause addr : Nat) : Dev :=
  let ws := g.flatMap fun b => d.liveWaves b.id
  ws.foldl (fun (d : Dev) w =>
    match d.wave? w.id with
    | none => d
    | some w' =>
      if !w'.live then d
      else
        let t := lowStrand w'.liveMask
        let d := if cause = cObject then d
          else d.setFault w.id (BitVec.ofNat 64 addr) cause (1#32 <<< (4 * t)) (((w'.strands[t]?).map (·.pc)).getD 0)
        d.trapWave w.id cause) (d.leaveSusp g)

/-- Work of a block stops for its suspension: the running tile operation at its next commit, queued ones at once, and
copies' faults are skipped (R323). -/
def Dev.quiesce (d : Dev) (b : Block) : Dev :=
  let queued := (d.engineJobs b.core .tile).filter fun j => j.block == b.id && !j.started
  let d := if queued.isEmpty then d else (queued.foldl (fun d j => d.endJob j.id j.clock) d).noteIdle b.core .tile
  let d : Dev := { d with jobs := modIf (·.block == b.id) (Job.stopAt cPreempt) d.jobs }
  d.skipFaults b 70000

/-- Everything that a suspension waits for has ended (R236, steps 3 and 4). -/
def Dev.drained (d : Dev) (b : Block) : Bool :=
  !(d.memops.any (·.block == b.id)) &&
    !(d.jobs.any fun j => j.block == b.id && (j.kind.inCp || j.kind.inTl || j.kind.inFx))

/-- Step 2 of R236: once every live wave of the group waits, the suspension is in progress, or fails. -/
def Dev.trySusp (d : Dev) (b : Block) : Dev :=
  let g := d.suspGroup b
  let args (b : Block) : List (Option SuspArgs) := (d.liveWaves b.id).map (·.susp)
  let all := g.all fun b => b.susp.isNone && (args b).all (·.isSome)
  let some_ := g.any fun b => !(args b).isEmpty
  if !all || !some_ then d
  else
    let agree (b : Block) : Bool := match (args b).filterMap id with
      | [] => true
      | a :: as => as.all fun x => x.addr == a.addr && x.team == a.team && x.noBuf == a.noBuf
    if !g.all agree then d.failSusp g cObject 0
    else
      let start (d : Dev) (b : Block) : Dev :=
        match (args b).filterMap id with
        | [] => d
        | a :: _ => (d.modBlock b.id fun b => { b with susp := some (.draining a.addr.toNat a.noBuf) }).quiesce b
      g.foldl start d

/-- `susp` (R236, step 1). -/
def execSusp (dest a : SReg) (team noBuf : Bool) (s : State) : Host.Outcome State Fault Refusal :=
  issue s fun k d =>
    let va := k.rd a
    if !k.whole then d.trap k cGang
    else if va.toNat % 256 ≠ 0 then d.trapMem k cAlign va k.lowMask
    else if !team && k.block.team.isSome then d.trap k cTeamabsent
    else if team && k.block.team.isNone then d.trap k cObject
    else ((d.stall k .susp).onWave k fun w => { w with susp := some ⟨dest, va, team, noBuf⟩ }).trySusp k.block

/-- Leases are given back and requests withdrawn (R236, step 5; R303). -/
def Dev.douseBlock (d : Dev) (b : Block) : Dev := (d.blockWaves b.id).foldl (fun d w => d.douseAll b.core w.id) d

/-- A suspended block leaves its core without decrementing its launch (R236, step 7). Its trigger event has occurred if
all its strands have triggered, since nothing of it is outstanding (R145). -/
def Dev.leaveSuspended (d : Dev) (b : Block) : Dev :=
  let ws := d.blockWaves b.id
  let ids := ws.map (·.id)
  let all := ws.all fun w => w.strands.all fun t => t.triggered || t.exited
  let d := if all && !b.trigDone then
      match b.launch with
      | some l => (d.modLaunch l fun l => { l with trigs := l.trigs + 1, trigTime := max l.trigTime b.trigTime }).releaseDeps l
      | none => d
    else d
  let d := d.modCore b.core fun c => { c with claims := c.claims.filter fun x => !ids.contains x.1 }
  (d.removeBlock b).tellPreempt b.ctx

/-- Clock of a block's suspension: no earlier than anything of it (R236). -/
def Dev.suspClock (d : Dev) (b : Block) : Nat := maxOf (b.time :: (d.blockWaves b.id).map (·.lts))

/-- Slots are taken for the blocks of a group in member order, each with the address of its object (R236, R324); with a
failure none stays taken. -/
def Dev.takeSlots (d : Dev) (x : Ctx) (forced : Bool) : List (Block × Nat × Bool) → Dev × Except Nat Unit
  | [] => (d, .ok ())
  | (b, addr, noBuf) :: rest =>
    match d.takeSlot x (d.suspClock b) with
    | (d, .error e) => (d, .error e)
    | (d, .ok (ident, t)) =>
      let z : Sealing := ⟨addr, noBuf, forced, ident, d.leaseRecords b, none⟩
      let d := d.modBlock b.id fun b => { b with susp := some (.sealing z), time := max b.time t }
      match d.takeSlots x forced rest with
      | (d, .ok ()) => (d, .ok ())
      | (d, .error e) => ((d.moveSlot x ident [slotResuming] slotFree t).1, .error e)

/-- The slots of a group return to FREE with their generations (R237). -/
def Dev.freeSlots (d : Dev) (x : Ctx) (g : List Block) : Dev :=
  g.foldl (fun d b => match ((d.block? b.id).getD b).sealing? with
    | some z => (d.moveSlot x z.ident [slotResuming] slotFree b.time).1
    | none => d) d

/-- How the writing of a group's objects has come along. -/
inductive SealEnd where
  | done
  | missing
  | fail (cause addr : Nat)
deriving DecidableEq, Repr

/-- An object is written: the body with a header first, then the header with the sealing time. -/
def Dev.writeObject (d : Dev) (x : Ctx) (b : Block) (z : Sealing) : Dev × SealEnd :=
  let (secs, ok) := d.objectSections b z
  if !ok then (d, .fail cIntegrity z.addr)
  else
    match z.slts with
    | none =>
      match d.reachWrite b.core x b.id z.addr b.time (d.objectHeader b x z 0 secs ++ secs.flatten) with
      | (d, .missing) => (d, .missing)
      | (d, .fail e a) => (d, .fail e a)
      | (d, .ok t _) =>
        let le := match d.slotPlace x (identSlot z.ident) with | .ok (.glob pa) => (d.lineTimes pa).2 | _ => 0
        let slts := max (t + 16) (le + 1)
        (d.modBlock b.id fun b => { b with susp := some (.sealing { z with slts := some slts }), time := max b.time t }, .missing)
    | some slts =>
      match d.reachWrite b.core x b.id z.addr b.time (d.objectHeader b x z slts secs) with
      | (d, .missing) => (d, .missing)
      | (d, .fail e a) => (d, .fail e a)
      | (d, .ok t _) =>
        if t < slts then (d, .done)
        else (d.modBlock b.id fun b => { b with susp := some (.sealing { z with slts := some (t + 16) }), time := t }, .missing)

/-- One pass over a group's objects: what is not yet written is written, twice over when nothing is far. -/
def Dev.writeObjects (d : Dev) (x : Ctx) (g : List Block) : Dev × SealEnd :=
  g.foldl (fun (q : Dev × SealEnd) b =>
    match q.2, q.1.block? b.id with
    | .fail e a, _ => (q.1, .fail e a)
    | _, none => q
    | r, some b =>
      match b.sealing? with
      | none => q
      | some z =>
        match q.1.writeObject x b z with
        | (d, .missing) => (d, .missing)
        | (d, .fail e a) => (d, .fail e a)
        | (d, .done) => (d, r)) (d, .done)

/-- The cause for which a slot cannot be reached (R237, R322). -/
def Dev.slotCause (d : Dev) (x : Ctx) (ident : Nat) : Option Nat :=
  match d.slotPlace x (identSlot ident) with
  | .error e => some e
  | .ok loc => if (d.peekLoc x.n loc 8).isNone then some cIntegrity else none

/-- The registers that the waves of a block named as sD of their `susp`, in wave order (R236, step 7). -/
def Dev.namedRegs (d : Dev) (b : Block) : List SReg :=
  (List.range b.nwaves).map fun i =>
    match ((d.blockWaves b.id).find? (·.idx == i)).bind (·.susp) with | some a => a.dest | none => 0

/-- An object is sealed in the event that makes its slot SUSPENDED; what its waves named as sD is kept for the resumed block
(R236, R239). -/
def Dev.sealOne (d : Dev) (x : Ctx) (b : Block) (z : Sealing) : Dev :=
  let d := (d.moveSlot x z.ident [slotResuming] slotSuspended (z.slts.getD 0)).1
  if z.forced then d else { d with suspRegs := d.suspRegs ++ [(x.n, z.ident, d.namedRegs b)] }

/-- The objects are sealed: every slot becomes SUSPENDED, and the blocks end (R236, steps 6 and 7); or a slot can no longer
be reached, and none does (R237). -/
def Dev.sealAll (d : Dev) (x : Ctx) (g : List Block) : Dev × Option (Nat × Nat) :=
  let zs := g.filterMap fun b => (d.block? b.id).bind fun b => b.sealing?.map fun z => (b, z)
  match zs.findSome? fun y => (d.slotCause x y.2.ident).map fun e => (e, slotAddr x y.2.ident) with
  | some f => (d, some f)
  | none =>
    let d := zs.foldl (fun d y => d.sealOne x y.1 y.2) d
    (g.foldl (fun (d : Dev) b => match d.block? b.id with | some b => d.leaveSuspended b | none => d) d, none)

/-- The objects of a group go on being written; `fail` says what a failure does. -/
def Dev.sealStep (d : Dev) (x : Ctx) (g : List Block) (fail : Dev → Nat → Nat → Dev) (sealed : Dev → Dev) : Dev :=
  let finish (d : Dev) : Dev :=
    match d.sealAll x g with
    | (d, none) => sealed d
    | (d, some (e, a)) => fail (d.freeSlots x g) e a
  match d.writeObjects x g with
  | (d, .fail e a) => fail (d.freeSlots x g) e a
  | (d, .done) => finish d
  | (d, .missing) =>
    match d.writeObjects x g with
    | (d, .fail e a) => fail (d.freeSlots x g) e a
    | (d, .done) => finish d
    | (d, .missing) => d

/-- A block is stopped for a forced save: its waves stand still at their next boundary, those in `susp` leave it, pending
claims are withdrawn (R122, R314). -/
def Dev.stopForced (d : Dev) (g : List Block) : Dev :=
  let ids := g.map (·.id)
  let d := d.leaveSusp g
  let gone := (d.waves.filter fun w => ids.contains w.block).map (·.id)
  let stand (s : Strand) : Strand :=
    match s.waiting with
    | some ⟨_, .remote _⟩ => s
    | some ⟨_, .mwait _⟩ => { s with waiting := none, monitor := none }
    | _ => { s with waiting := none }
  let d : Dev := { d with
    waves := modIf (fun w => ids.contains w.block) (fun w => { w with strands := w.strands.map stand }) d.waves
    blocks := modIf (fun b => ids.contains b.id) (fun b => { b with susp := some .forced }) d.blocks
    cores := d.cores.map fun c => { c with claims := c.claims.filter fun x => !gone.contains x.1 } }
  g.foldl Dev.quiesce d

/-- A suspension that fails when the budget of a pre-emption has run out is followed by the forced save at once (R313). -/
def Dev.failOrForce (d : Dev) (x : Ctx) (g : List Block) (cause addr : Nat) : Dev :=
  let d := d.failSusp g cause addr
  if ((d.ctx? x.n).bind (·.preempt)).any fun p => decide (p.ends ≤ d.clock) then
    d.stopForced ((g.filterMap fun b => d.block? b.id).filter fun b => !(d.liveWaves b.id).isEmpty)
  else d

/-- SUSP_SEAL (R236, R237): nothing once a reset has stopped the context (R345, R390). -/
def execSuspSeal (block : Nat) (s : State) : Host.Outcome State Fault Refusal :=
  onDev s fun d =>
    match d.block? block with
    | none => d
    | some b =>
      match d.ctx? b.ctx with
      | none => d
      | some x =>
        let g := d.suspGroup b
        let fail (d : Dev) (e a : Nat) : Dev := d.failOrForce x g e a
        if x.stopped then d else
        match b.susp with
        | none => d.trySusp b
        | some (.sealing z) => if z.forced then d else d.sealStep x g fail id
        | some .forced => d
        | some (.draining ..) =>
          let d := g.foldl (fun d b => d.skipFaults b 70000) d
          if !g.all d.drained then d
          else
            let want (b : Block) : Option (Block × Nat × Bool) :=
              match b.susp with | some (.draining a nb) => some (b, a, nb) | _ => none
            match d.takeSlots x false (g.filterMap want) with
            | (d, .error e) => (g.foldl Dev.douseBlock d).failOrForce x g e x.ctab
            | (d, .ok ()) => (g.foldl Dev.douseBlock d).sealStep x g fail id

/-! ## Forced saves (R314, R315) -/

/-- Blocks of a context that a forced save is to take: placed, running, no `susp` in progress, no forced exit. -/
def Dev.toForce (d : Dev) (ctx : Nat) : List Block :=
  d.blocks.filter fun b => b.ctx == ctx && !b.resident && b.susp.isNone && !b.forced && !(d.liveWaves b.id).isEmpty

/-- FORCED_SAVE (R313, R314). -/
def execForcedSave (ctx : Nat) (s : State) : Host.Outcome State Fault Refusal :=
  onDev s fun d =>
    match (d.ctx? ctx).bind (·.preempt) with
    | none => d
    | some p =>
      if d.clock < p.ends then d
      else (d.toForce ctx).foldl (fun (d : Dev) b => if (d.block? b.id).any (·.susp.isNone) then d.stopForced (d.suspGroup b) else d) d

/-- The header of the save area is written as the request has it (Table 11-3). -/
def Dev.writeArea (d : Dev) (ctx : Nat) : Dev :=
  match (d.ctx? ctx).bind (·.preempt) with
  | none => d
  | some p => d.owe ctx [(p.area, 0, .bytes (leBytes 8 p.count ++ leBytes 8 p.next ++ leBytes 8 p.failed))]

/-- Blocks that cannot be saved exit by force (R315, R322). -/
def Dev.failForced (d : Dev) (ctx : Nat) (g : List Block) : Dev :=
  let d := d.modCtx ctx fun c => { c with preempt := c.preempt.map fun p => { p with failed := p.failed + g.length } }
  let d := g.foldl (fun (d : Dev) b => (d.modBlock b.id fun b => { b with susp := none }).forceExit b.id) d
  d.writeArea ctx

/-- Bytes of a block's object. -/
def Dev.objectSize (d : Dev) (b : Block) : Nat :=
  256 + ((d.objectSections b ⟨0, false, true, 0, [], none⟩).1.map (·.length)).sum

/-- The blocks of a group with the addresses of their objects from an offset of the save area on. -/
def Dev.areaPlaces (d : Dev) (base : Nat) : Nat → List Block → List (Block × Nat × Bool)
  | _, [] => []
  | off, b :: bs => (b, base + off, false) :: d.areaPlaces base (off + d.objectSize b) bs

/-- FORCED_SAVE_SEAL (R314, R315). The objects of a context are written one group after the other. One that is being written
when the request is released is sealed (log entry 106); none is written once a reset has stopped the context (R345, R390). -/
def execForcedSaveSeal (block : Nat) (s : State) : Host.Outcome State Fault Refusal :=
  onDev s fun d =>
    match d.block? block with
    | none => d
    | some b =>
      match d.ctx? b.ctx with
      | some x =>
        let g := d.suspGroup b
        let size := (g.map d.objectSize).sum
        let fail (d : Dev) (_ _ : Nat) : Dev := d.failForced b.ctx g
        let sealed (d : Dev) : Dev :=
          (d.modCtx b.ctx fun c => { c with preempt := c.preempt.map fun p =>
            { p with count := p.count + g.length, next := p.next + size } }).writeArea b.ctx
        if x.stopped then d else
        match b.susp, x.preempt with
        | some (.sealing z), _ => if z.forced then d.sealStep x g fail sealed else d
        | some .forced, some p =>
          let d := g.foldl (fun d b => d.skipFaults b 70000) d
          let busy := d.blocks.any fun y => y.ctx == b.ctx && y.sealing?.any (·.forced)
          if !g.all d.drained || busy || d.reports.any (fun o => g.any fun b => o.block == b.id) then d
          else if p.len < p.next + size then fail (g.foldl Dev.douseBlock d) 0 0
          else
            match d.takeSlots x true (d.areaPlaces p.area p.next g) with
            | (d, .error e) => fail (g.foldl Dev.douseBlock d) e 0
            | (d, .ok ()) => (g.foldl Dev.douseBlock d).sealStep x g fail sealed
        | _, _ => d
      | none => d

/-! ## Objects: reading (R238, R321) -/

/-- The header's own checks (R238, step 1): magic, version, context and function, seal. -/
def headerOk (x : Ctx) (h : List Byte) : Bool :=
  field h 0 4 == 0x52424D45 && field h 4 2 == 1 && field h 0x10 2 == x.n && field h 0x12 1 == x.fn
    && field (sealHeader x.sealKey h) 0x18 8 == field h 0x18 8

def headerIdent (h : List Byte) : Nat := field h 8 8
def headerTotal (h : List Byte) : Nat := field h 0x98 8
def headerTeam (h : List Byte) : Nat := field h 0x22 1
def headerSection (h : List Byte) (i : Nat) : Nat := field h (0xC0 + 8 * i) 8
def headerFeet (h : List Byte) : Footprint :=
  ⟨field h 0x20 1, field h 0x38 2, field h 0x28 4, field h 0x2C 4, field h 0x30 4, field h 0x34 4, field h 0x21 1⟩

/-- A wave as its record and images give it (Table 11-6). -/
structure SavedWave where
  bytes : List Byte
  v     : List LaneVec
  spill : List SpillSlot
deriving DecidableEq, Repr

def SavedWave.flags (w : SavedWave) : Nat := field w.bytes 0x48 8
def SavedWave.exited (w : SavedWave) : StrandMask := BitVec.ofNat 8 (w.flags / 2 ^ 8)
def SavedWave.gmap (w : SavedWave) : Word := BitVec.ofNat 64 (field w.bytes 0x40 8)

/-- Bytes of a form after its format word (Table 6-4). -/
def formSize (fmt : Nat) : Nat := ([128, 4, 36, 68, 8][fmt]?).getD 128

/-- An image: its format byte, its values, and its length; nothing for a bad format word or too few bytes (R320, R321). -/
def parseImage (bs : List Byte) : Option (Nat × LaneVec × Nat) :=
  let fmt := field bs 0 4
  let size := 4 + formSize fmt
  if 4 < fmt || bs.length < size then none
  else
    let base := lane32 (field bs 4 4)
    let delta (n l : Nat) : Lane := ((BitVec.ofNat (8 * n) (field bs (8 + n * l) n)).signExtend 32)
    let value (l : Nat) : Lane :=
      match fmt with
      | 1 => base
      | 4 => base + lane32 l * lane32 (field bs 8 4)
      | 2 => base + delta 1 l
      | 3 => base + delta 2 l
      | _ => lane32 (field bs (4 + 4 * l) 4)
    some (fmt, (List.range 32).map value, size)

/-- `n` images one after the other, and their whole length. -/
def parseImages : Nat → List Byte → Option (List (Nat × LaneVec) × Nat)
  | 0, _ => some ([], 0)
  | n + 1, bs => do
    let (f, v, k) ← parseImage bs
    let (l, m) ← parseImages n (bs.drop k)
    some ((f, v) :: l, k + m)

/-- The reserved fields of a wave record, its window, its gang maps (R321). -/
def waveRecordOk (r : List Byte) : Bool :=
  let f := field r 0x48 8
  let live : StrandMask := ~~~(BitVec.ofNat 8 (f / 2 ^ 8))
  let w8 := f / 2 ^ 24 % 64
  f % 256 < 2 && f / 2 ^ 30 % 4 == 0 && zeroField r 0x68 24 && zeroField r 0xE0 16
    && decide (1 ≤ w8 ∧ w8 ≤ 32)
    && (List.range 8).all (fun t => field r (8 * t + 7) 1 == 0 && field r (0x107 + 8 * t) 1 == 0)
    && field r 0x5F 1 == 0 && field r 0xC7 1 == 0 && field r 0x60 8 / 2 ^ 38 % 2 ^ 25 == 0
    && field r 0xD0 8 / 2 ^ 26 == 0
    && field r 0xF0 8 / 2 ^ 34 % 2 ^ 22 == 0 && field r 0xFE 2 == 0
    && validMap (BitVec.ofNat 64 (field r 0x40 8)) live
    && (f % 2 == 0 || validMap (BitVec.ofNat 64 (field r 0xD8 8)) live)

/-- The waves' images in order. -/
def takeImages : List Nat → List Byte → Option (List (List (Nat × LaneVec)) × Nat)
  | [], _ => some ([], 0)
  | n :: ns, bs => do
    let (l, k) ← parseImages n bs
    let (ls, m) ← takeImages ns (bs.drop k)
    some (l :: ls, k + m)

/-- The body of an object under the checks of R321. -/
def parseObject (o : List Byte) : Option (List SavedWave) := do
  let n := field o 0x20 1
  let sec (i : Nat) : Nat := headerSection o i
  let noBuf := Nat.testBit (field o 6 2) 2
  guard (field o 6 2 / 8 == 0 && zeroField o 0x13 5 && zeroField o 0x27 1 && zeroField o 0x3A 6 && zeroField o 0x7C 4
    && zeroField o 0xB0 16 && (List.range 3).all (fun i => zeroField o (0x42 + 16 * i) 2 && zeroField o (0x4E + 16 * i) 2))
  let recs := (List.range n).map fun i => (o.drop (sec 0 + 4608 * i)).take 4608
  guard (recs.all fun r => r.length == 4608 && waveRecordOk r)
  let sizes := recs.map fun r => field r 0x48 8 / 2 ^ 24 % 64
  guard (sizes.sum == field o 0x38 2)
  let (lanes, ln) ← takeImages (sizes.map (8 * ·)) (o.drop (sec 1))
  let (spill, sn) ← takeImages (sizes.map fun _ => 256) (o.drop (sec 2))
  let buf (off : Nat) : Nat := if noBuf then 0 else field o off 4
  let team := if field o 0x22 1 ≠ 0 && field o 0x23 1 == 0 then 256 else 0
  let lens := [4608 * n, ln, sn, field o 0x28 4, buf 0x2C, buf 0x30, buf 0x34, team]
  let spans : List (Nat × Nat) := ((List.range 8).zip lens).map fun (i, len) => (sec i, len)
  let used : List (Nat × Nat) := spans.filter (·.2 != 0)
  guard (spans.all fun s => s.1 % 256 == 0 && (s.1 == 0) == (s.2 == 0))
  guard (used.all fun s => decide (256 ≤ s.1 ∧ s.1 + s.2 ≤ headerTotal o))
  guard (used.all fun s => used.all fun t => s == t || decide (s.1 + s.2 ≤ t.1 ∨ t.1 + t.2 ≤ s.1))
  let mk (x : List Byte × List (Nat × LaneVec) × List (Nat × LaneVec)) : SavedWave :=
    ⟨x.1, x.2.1.map (·.2), x.2.2.zipIdx.map fun (s, i) => ⟨i, s.1, s.2, 0⟩⟩
  some ((recs.zip (lanes.zip spill)).map mk)

/-- The fault record and the tile record of a wave record. -/
def savedFault (r : List Byte) : FaultRec :=
  let w := field r 0x60 8
  ⟨BitVec.ofNat 64 (field r 0x50 8), w / 2 ^ 32 % 64, BitVec.ofNat 32 w, BitVec.ofNat 64 (field r 0x58 8), Nat.testBit w 63⟩
def savedTrec (r : List Byte) : TileRec :=
  let a := field r 0xF0 8
  let b := field r 0xF8 8
  ⟨a / 2 ^ 62, a / 2 ^ 56 % 64, a / 2 ^ 32 % 4, a % 2 ^ 32, b / 2 ^ 32 % 2 ^ 16, b / 2 ^ 16 % 2 ^ 16, b % 2 ^ 16⟩

/-- Strand `t` of a saved wave. An object holds no times of the stores and copies before its sealing: SLTS, which is later
than each, stands for them in the block's trigger event (R145; DEDUCED, log entry 110). -/
def SavedWave.strand (w : SavedWave) (slts t : Nat) : Strand :=
  let word (off : Nat) : Word := BitVec.ofNat 64 (field w.bytes off 8)
  let gone := inGang w.exited t
  { pc := word (8 * t)
    s := 0 :: (List.range 63).map fun j => word (0x200 + 512 * t + 8 * (j + 1))
    epc := word (0x100 + 8 * t)
    hsave := (List.range 3).map fun j => word (0x140 + 24 * t + 8 * j)
    gang := if gone then 0 else mapByte w.gmap t
    exited := gone
    triggered := Nat.testBit w.flags (16 + t)
    monitor := none
    waiting := none
    done := slts }

/-- The arrivals that a wave record holds (R323): unreleased ones at generation 0; released ones carry SLTS. -/
def SavedWave.arrivals (w : SavedWave) (lts slts : Nat) : List Arrival :=
  (List.range 16).filterMap fun n =>
    if Nat.testBit w.flags (48 + n) then some ⟨n, 0, lts, some slts⟩
    else if Nat.testBit w.flags (32 + n) then some ⟨n, 0, lts, none⟩ else none

/-- The table and select tokens of a lease record that names a wave. -/
def savedToken (o : List Byte) (k idx own : Nat) : Nat :=
  if field o (0x40 + 16 * k) 1 = k ∧ field o (0x41 + 16 * k) 1 = idx then field o (0x44 + 16 * k) 4 else own
def heldLease (o : List Byte) (idx : Nat) : Bool :=
  (List.range 3).any fun k => field o (0x40 + 16 * k) 1 == k && field o (0x41 + 16 * k) 1 == idx

/-- A wave of a resumed block (R239, R323). -/
def SavedWave.restore (w : SavedWave) (o : List Byte) (id block idx port clock : Nat) : Wave :=
  let slts := field o 0x90 8
  let lts := max (field w.bytes 0xC8 8) (max slts clock)
  let cause : Word := BitVec.ofNat 64 (field w.bytes 0xD0 8)
  let cause := if heldLease o idx then cause ||| (1#64 <<< cLeaselost) else cause
  let tvec : Word := BitVec.ofNat 64 (field w.bytes 0xC0 8)
  let inHandler := Nat.testBit w.flags 0
  { Wave.new id block idx (some port) 1 0 0 tvec lts id with
    v := w.v
    m := (List.range 16).map fun i => BitVec.ofNat 32 (field w.bytes (0x80 + 4 * i) 4)
    cause := cause
    gsave := BitVec.ofNat 64 (field w.bytes 0xD8 8)
    fault := savedFault w.bytes
    inHandler := inHandler
    entry := cause != 0 && tvec != 0 && !inHandler
    strands := (List.range 8).map (w.strand slts)
    spill := w.spill
    trec := savedTrec w.bytes
    tokens := [savedToken o 0 idx (savedTrec w.bytes).token, savedToken o 1 idx 0, savedToken o 2 idx 0]
    arrivals := w.arrivals lts slts }

/-! ## `resume` (R238, R324) -/

/-- The members of a team that an object names: addresses and identities (R320). -/
def teamEntries (n : Nat) (sec : List Byte) : List (Nat × Nat) :=
  (List.range n).map fun m => (field sec (16 * m) 8, field sec (16 * m + 8) 8)

/-- The slots of a resumption move in member order; with a failure those already moved return (R324). -/
def Dev.resumeSlots (d : Dev) (x : Ctx) (c : Nat) : List Nat → Dev × Except (Nat × Nat) Nat
  | [] => (d, .ok c)
  | i :: is =>
    match d.moveSlot x i [slotSuspended] slotResuming c with
    | (d, .fail e) => (d, .error (e, slotAddr x i))
    | (d, .wrong) => (d, .error (cDoubleresume, slotAddr x i))
    | (d, .moved t) =>
      match d.resumeSlots x t is with
      | (d, .ok t) => (d, .ok t)
      | (d, .error e) => ((d.moveSlot x i [slotResuming] slotSuspended t).1, .error e)

/-- A header is read and checked (R238, step 1). -/
def Dev.withHeader (d : Dev) (k : Issue) (va : Nat) (f : Dev → List Byte → Dev) : Dev :=
  if va % 256 ≠ 0 then d.trapMem k cAlign (BitVec.ofNat 64 va) k.lowMask
  else d.withRecord k 32 va 256 fun d h => if headerOk k.ctx h then f d h else d.trap k cObject

/-- A failure at a slot is precise (R238, R322). -/
def Dev.slotTrap (d : Dev) (k : Issue) (cause addr : Nat) : Dev :=
  if cause = cDoubleresume ∨ cause = cObject then d.trap k cause else d.trapMem k cause (BitVec.ofNat 64 addr) k.lowMask

/-- What a `resume` reads beyond the header's page cannot be read (R321): the object's slot moves and returns, or the instruction
raises what the move finds; nothing is placed, and the resuming wave is told. -/
def Dev.resumeUnread (d : Dev) (k : Issue) (ident cause addr : Nat) : Dev :=
  match d.moveSlot k.ctx ident [slotSuspended] slotResuming (d.ltsOf k) with
  | (d, .fail e) => d.slotTrap k e (slotAddr k.ctx ident)
  | (d, .wrong) => d.trap k cDoubleresume
  | (d, .moved t) =>
    let d := (d.moveSlot k.ctx ident [slotResuming] slotSuspended t).1
    (((d.endRecords k).modWave k.wave.id (·.adopt t)).notice k.wave.id k.block.id k.ctx.n k.gang k.pc t cause addr).advance k 12

/-- A part of a team's objects is read at issue, for the identities and footprints that it holds (R324). -/
def Dev.withTeamRecord (d : Dev) (k : Issue) (ident va : Nat) (f : Dev → List Byte → Dev) : Dev :=
  match d.reachFrom k.core k.ctx k.wave.id va 32 va 256 (d.ltsOf k) 1 with
  | (d, .fail e a) => d.resumeUnread k ident e a
  | r => Dev.afterRead k f r

/-- The objects of a resumption: the header at an address, and for a team its members'; `ident` is the first one's. -/
def Dev.withMembers (d : Dev) (k : Issue) (ident : Nat) : List (Nat × Nat) → List (List Byte) → (Dev → List (List Byte) → Dev) → Dev
  | [], hs, f => f d hs
  | (a, i) :: rest, hs, f =>
    if a % 256 ≠ 0 then d.trap k cObject
    else
      d.withTeamRecord k ident a fun d h =>
        if headerOk k.ctx h && headerIdent h == i && field h 0x23 1 == hs.length && field h 0x88 8 == ident
        then d.withMembers k ident rest (hs ++ [h]) f else d.trap k cObject

/-- `resume` (R238). -/
def execResume (a : SReg) (s : State) : Host.Outcome State Fault Refusal :=
  issue s fun k d =>
    d.whenSettled k fun d =>
      let va := (k.rd a).toNat
      d.withHeader k va fun d h =>
        let go (d : Dev) (hs : List (List Byte)) : Dev :=
          match d.resumeSlots k.ctx (d.ltsOf k) (hs.map headerIdent) with
          | (d, .error (e, at_)) => d.slotTrap k e at_
          | (d, .ok t) =>
            let d := d.endRecords k
            let (id, d) := d.fresh
            let d := d.modWave k.wave.id (·.adopt t)
            ({ d with pending := d.pending ++ [.resume id k.ctx.n va (hs.map headerIdent) (hs.map headerFeet) k.wave.id
                k.block.id k.gang t k.pc] } : Dev).advance k 12
        if field h 0x23 1 ≠ 0 then d.trap k cObject
        else if headerTeam h = 0 then go d [h]
        else
          d.withTeamRecord k (headerIdent h) (va + headerSection h 7) fun d sec =>
            match teamEntries (headerTeam h) sec with
            | [] => d.trap k cObject
            | e :: es => if e.2 = headerIdent h then d.withMembers k e.2 es [h] go else d.trap k cObject

/-! ## RESUME_PLACED (R238, R239, R321, R323) -/

/-- The object of member `m` is read whole, known by its identity and checked by its seal; its requests stand at offsets from `base` on. -/
def Dev.readObject (d : Dev) (core : Nat) (x : Ctx) (owner base clock m : Nat) (a ident : Nat) :
    Dev × Except (Option (Nat × Nat)) (Nat × List Byte) :=
  match d.reachFrom core x owner base 32 a 256 clock 1 with
  | (d, .missing) => (d, .error none)
  | (d, .fail e at_) => (d, .error (some (e, at_)))
  | (d, .ok t h) =>
    if !(headerOk x h && headerIdent h == ident && field h 0x23 1 == m) then (d, .error (some (cObject, a)))
    else
    match d.reachFrom core x owner (base + 256) 32 (a + 256) (headerTotal h - 256) t 1 with
    | (d, .missing) => (d, .error none)
    | (d, .fail e at_) => (d, .error (some (e, at_)))
    | (d, .ok t bs) => (d, .ok (t, h ++ bs))
/-- The objects of a resumption, each checked again; requests of object `m` stand at offsets from `m` times 2 to the 40 on. -/
def Dev.readObjects (d : Dev) (core : Nat) (x : Ctx) (owner clock : Nat) :
    Nat → List (Nat × Nat) → Dev × Except (Option (Nat × Nat)) (Nat × List (List Byte))
  | _, [] => (d, .ok (clock, []))
  | m, (a, ident) :: as =>
    match d.readObject core x owner (m * 2 ^ 40) clock m a ident with
    | (d, .error e) => (d, .error e)
    | (d, .ok (t, o)) =>
      match d.readObjects core x owner t (m + 1) as with
      | (d, .ok (t, os)) => (d, .ok (t, o :: os))
      | r => r

/-- The register that wave `i` of a suspended block named as sD of its `susp`; `s0` for one that was saved by force (R239). -/
def Dev.suspDest (d : Dev) (ctx ident i : Nat) : SReg :=
  (((d.suspRegs.find? fun r => r.1 == ctx && r.2.1 == ident).map (·.2.2)).bind (·[i]?)).getD 0
def Dev.dropSuspRegs (d : Dev) (ctx ident : Nat) : Dev :=
  { d with suspRegs := d.suspRegs.filter fun r => !(r.1 == ctx && r.2.1 == ident) }

/-- The waves of a resumed block. -/
def Dev.addSaved (d : Dev) (b : Block) (o : List Byte) (clock : Nat) : Nat → List SavedWave → Dev
  | _, [] => d
  | i, w :: ws =>
    let (id, d) := d.fresh
    let v := w.restore o id b.id i (d.bestPort b.core) clock
    let ident : Word := BitVec.ofNat 64 (headerIdent o)
    let dest := d.suspDest b.ctx (headerIdent o) i
    let v : Wave := { v with
      port := if v.live then v.port else none
      strands := v.strands.map fun s => if s.exited then s else s.wr dest ident }
    ({ d with waves := d.waves ++ [v] } : Dev).addSaved b o clock (i + 1) ws

/-- A block whose launch has been cancelled while it was suspended takes CANCEL, with its deadline (R41). -/
def Dev.cancelPlaced (d : Dev) (x : Ctx) (block : Nat) : Dev :=
  match (d.block? block).bind fun b => b.launch.bind d.launch? with
  | some l =>
    if l.cancelled then
      (d.modBlock block fun b => { b with deadline := some (d.clock + x.cancelUs * 2400) }).raiseBlock block cCancel
    else d
  | none => d

/-- A block is placed from its object. -/
def Dev.placeObject (d : Dev) (x : Ctx) (core clock : Nat) (team : Option Nat) (o : List Byte) (ws : List SavedWave) : Dev :=
  let (id, d) := d.fresh
  let comp := field o 0x80 8
  let launch := if comp = 0 then none else (d.launches.find? fun l => l.ctx == x.n && l.record.comp == comp).map (·.id)
  let slts := field o 0x90 8
  let arrived : Word := BitVec.ofNat 64 (field o 0xA0 8)
  let done := ws.all fun w => (List.range 8).all fun t => inGang w.exited t || Nat.testBit w.flags (16 + t)
  let b : Block := { Block.plain id core x.n with
    launch := launch
    coord := BitVec.ofNat 64 (field o 0x70 8)
    team := team
    member := field o 0x23 1
    tags := (List.range 64).filterMap fun i => if arrived.getLsbD i then some ⟨i, slts⟩ else none
    skipTags := BitVec.ofNat 64 (field o 0xA8 8)
    engines := BitVec.ofNat 8 (field o 0x25 1)
    svc := BitVec.ofNat 8 (field o 0x24 1)
    depth := field o 0x26 1
    resident := false
    trigDone := done
    trigTime := slts
    time := slts }
  let b := d.withRanges b (headerFeet o)
  let d := d.putBlock b
  let noBuf := Nat.testBit (field o 6 2) 2
  let put (d : Dev) (y : Space × Nat) : Dev :=
    let r := b.range y.1
    if r.len = 0 || (noBuf && y.1 != .scratch) then d
    else d.putLoc core y.1 r.base ((o.drop (headerSection o y.2)).take r.len)
  let d := [(Space.scratch, 3), (.wbuf, 4), (.abuf, 5), (.acc, 6)].foldl put d
  ((d.addSaved b o clock 0 ws).dropSuspRegs x.n (headerIdent o)).cancelPlaced x id

/-- A resumption fails as the body is read: every slot returns to SUSPENDED, and the resuming wave is told (R238, R321,
R324), of a slot that can no longer be reached too (R322). -/
def Dev.failResume (d : Dev) (x : Ctx) (p : Pending) (cause addr : Nat) : Dev :=
  match p with
  | .resume id _ _ idents _ wave block gang clock pc =>
    let tell (d : Dev) (e a : Nat) : Dev := d.notice wave block x.n gang pc clock e a
    let back (d : Dev) (i : Nat) : Dev :=
      match d.moveSlot x i [slotResuming] slotSuspended clock with
      | (d, .fail e) => if e = cause ∧ slotAddr x i = addr then d else tell d e (slotAddr x i)
      | (d, _) => d
    let d := idents.foldl back (tell d cause addr)
    { d.dropReplies id with pending := d.pending.filter (·.id != id) }
  | _ => d

/-- The blocks of a resumption are placed, as a team when there are several, and their slots become RESUMED (R239, R324). -/
def Dev.placeObjects (d : Dev) (x : Ctx) (idents cores : List Nat) (clock t : Nat) (os : List (List Byte × List SavedWave)) : Dev :=
  match os with
  | [] => d
  | (o, _) :: _ =>
    let (tid, d) := if headerTeam o = 0 then (none, d) else (some d.nextId, { d with nextId := d.nextId + 1 })
    let d := (cores.zip os).foldl (fun (d : Dev) y => d.placeObject x y.1 clock tid y.2.1 y.2.2) d
    let bs := d.blocks.filter fun b => tid.isSome && b.team == tid
    let d : Dev := match tid with
      | none => d
      | some i => { d with teams := d.teams ++ [{
          id := i, launch := bs.head?.bind (·.launch), index := field o 0x78 4, size := headerTeam o, cores := cores
          blocks := bs.map (·.id), ranges := bs.map (·.scratch), gen := 0, left := [] }] }
    idents.foldl (fun d i => (d.moveSlot x i [slotResuming] slotResumed t).1) d

/-- The members of a resumed team besides the first: where their objects lie, and their identities. -/
def memberPlaces (o : List Byte) (idents : List Nat) : List (Nat × Nat) :=
  let sec := (o.drop (headerSection o 7)).take 256
  ((teamEntries (headerTeam o) sec).map (·.1)).drop 1 |>.zip (idents.drop 1)

/-- RESUME_PLACED (R238, R239): the first resumption that fits on a core, once no wave of the core's own waits to re-enter a
port (R293). The objects are read whole before anything is placed, and with a slot that can no longer be reached nothing is
(R322; DESIGN CHOICE, log entry 111). -/
def execResumePlaced (resumption core : Nat) (s : State) : Host.Outcome State Fault Refusal :=
  onDev s fun d =>
    if !d.coreOpen core then d.wakeCore core
    else
      match (d.resumesAt core).head? with
      | some (.resume id ctx obj idents feet wave block gang clock pc) =>
        match id == resumption, d.ctx? ctx, d.resumeCores core [] feet with
        | true, some x, some cores =>
          let p : Pending := .resume id ctx obj idents feet wave block gang clock pc
          match d.readObjects core x id clock 0 [(obj, idents.headD 0)] with
          | (d, .error none) => d
          | (d, .error (some (e, a))) => d.failResume x p e a
          | (d, .ok (t, os)) =>
            match d.readObjects core x id t 1 (memberPlaces (os.headD []) idents) with
            | (d, .error none) => d
            | (d, .error (some (e, a))) => d.failResume x p e a
            | (d, .ok (t, more)) =>
              let all := os ++ more
              let parsed := all.filterMap fun o => (parseObject o).map fun ws => (o, ws)
              if parsed.length ≠ idents.length ∨ all.length ≠ idents.length then d.failResume x p cObject obj
              else
              match idents.findSome? fun i => (d.slotCause x i).map fun e => (e, slotAddr x i) with
              | some (e, a) => d.failResume x p e a
              | none =>
                let d : Dev := { (d.dropReplies id) with pending := d.pending.filter (·.id != id) }
                d.placeObjects x idents cores clock t parsed
        | _, _, _ => d
      | _ => d

/-! ## `cclone`, `cdrop` (R240, R241) -/

/-- `cclone` (R240). DESIGN CHOICE (log entry 111): a search for a FREE slot that meets one it cannot read records the table's
base in FADDR. -/
def execCclone (dest a b : SReg) (s : State) : Host.Outcome State Fault Refusal :=
  issue s fun k d =>
    let src := (k.rd a).toNat
    let dst := (k.rd b).toNat
    if src % 256 ≠ 0 then d.trapMem k cAlign (k.rd a) k.lowMask
    else if dst % 256 ≠ 0 then d.trapMem k cAlign (k.rd b) k.lowMask
    else
      d.whenSettled k fun d =>
        d.withHeader k src fun d h =>
          let n := headerTotal h
          let ident := headerIdent h
          let at_ := slotAddr k.ctx ident
          if src < dst + n ∧ dst < src + n then d.trap k cObject
          else if headerTeam h ≠ 0 then d.trap k cObject
          else if 30 ≤ d.cp k.wave.id || d.checkerFull k.ctx.n then d.stall k (.full .cp)
          else
            match d.testSlot k.ctx ident (d.ltsOf k) with
            | (d, .fail e) => d.slotTrap k e at_
            | (d, .wrong) => d.trap k cDoubleresume
            | (d, .moved t) =>
              match d.takeSlot k.ctx t with
              | (d, .error e) => d.slotTrap k e k.ctx.ctab
              | (d, .ok (new, t)) =>
                let d := (d.endRecords k).modWave k.wave.id (·.adopt t)
                let (id, d) := d.fresh
                let d := d.addJob {
                  id := id, ctx := k.ctx.n, block := k.block.id, wave := k.wave.id, pc := k.pc, gang := k.gang
                  kind := .clone src dst new k.gang k.pc, foot := [⟨none, src, src + n, false⟩, ⟨none, dst, dst + n, true⟩]
                  entered := false, after := [], clock := t }
                let d : Dev := { d with suspRegs := d.suspRegs ++
                  ((d.suspRegs.filter fun r => r.1 == k.ctx.n && r.2.1 == ident).map fun r => (r.1, new, r.2.2)) }
                (d.setScalars k dest fun _ => BitVec.ofNat 64 new).advance k 12

/-- CCLONE_DONE (R240, step 4): a failure, of the copy or of the slot, is reported (R178, R322). DESIGN CHOICE (log entry 111): the
source header is read again with the rest and sealed anew, as it stands then. -/
def execCcloneDone (job : Nat) (s : State) : Host.Outcome State Fault Refusal :=
  onDev s fun d =>
    match d.job? job with
    | none => d
    | some j =>
      match j.kind, d.block? j.block, d.ctx? j.ctx with
      | .clone src dst ident _ _, some b, some x =>
        if !j.mayRun then d
        else
          let n := ((j.foot.head?).map fun f => f.hi - f.lo).getD 0
          let finish (d : Dev) (dest t : Nat) : Dev :=
            let (d, t) := match d.moveSlot x ident [slotResuming] dest (t + 1) with
              | (d, .moved t) => (d, t)
              | (d, .fail e) => (d.report j e (slotAddr x ident), t)
              | (d, .wrong) => (d, t)
            let d := (d.modWave j.wave fun w => { w with doneCp := max w.doneCp t }).noteDone job j.wave j.block j.gang t
            (d.endJob job t).dropReplies job
          let fail (d : Dev) (e a : Nat) : Dev := (finish d slotFree j.clock).report j e a
          match d.reachFrom b.core x job 0 32 src n j.clock 1 with
          | (d, .missing) => d
          | (d, .fail e a) => fail d e a
          | (d, .ok t bs) =>
            let h := sealHeader x.sealKey (bs.take 8 ++ leBytes 8 ident ++ (bs.drop 16).take 240)
            match d.reachWrite b.core x job dst t (h ++ bs.drop 256) with
            | (d, .missing) => d
            | (d, .fail e a) => fail d e a
            | (d, .ok t _) => finish d slotSuspended t
      | _, _, _ => d

/-- `cdrop` (R241). -/
def execCdrop (a : SReg) (s : State) : Host.Outcome State Fault Refusal :=
  issue s fun k d =>
    d.whenSettled k fun d =>
      let ident := (k.rd a).toNat
      match d.moveSlot k.ctx ident [slotSuspended, slotResumed] slotFree (d.ltsOf k) with
      | (d, .fail e) => d.slotTrap k e (slotAddr k.ctx ident)
      | (d, .wrong) => d.trap k cObject
      | (d, .moved t) => ((d.dropSuspRegs k.ctx.n ident).modWave k.wave.id (·.adopt t)).advance k 12

end Sys2Proof.Machine
end

