-- ==== Sys2Proof/Machine/Reads.lean ====
section
/-!
DEFINITION. The registers that an instruction reads, and registers that cannot be corrected (R263, Table 8-4).
-/

namespace Sys2Proof.Machine

/-- A read of an operand: a lane register in the active lanes under a guard, or in every lane of the gang; a mask; a scalar
register of every strand, or of the lowest one (R201); a special register. -/
inductive Source where
  | active (g : Guard) (v : Nat)
  | gang (v : Nat)
  | mask (m : Nat)
  | scalar (s : SReg)
  | low (s : SReg)
  | special (n : Nat)
deriving DecidableEq, Repr

/-- A source is the register of that name, for a gang. Of the special registers only `%lane`, `%strand` and `%epc` are a
strand's own (Table 1-2). -/
def Source.meets (k : Issue) : Source → RegName → Bool
  | .active g v, .lane u l => v == u && (k.active g).getLsbD l
  | .gang v, .lane u l => v == u && k.lanes.getLsbD l
  | .mask m, .mask n => m == n
  | .scalar s, .scalar t n => s.toNat == n && inGang k.gang t
  | .low s, .scalar t n => s.toNat == n && lowStrand k.gang == t
  | .special m, .special t n => m == n && (inGang k.gang t || !(m == 0 || m == 1 || m == 9))
  | _, _ => false

/-- Scalars of every strand; of the lowest one. -/
def scalars (l : List SReg) : List Source := l.map .scalar
def lows (l : List SReg) : List Source := l.map .low
/-- The masks that say which lanes are active, and lane registers in those lanes (R10, R80). -/
def lanesRead (g : Guard) (l : List Nat) : List Source := .mask 0 :: .mask g.mask.toNat :: l.map (.active g)
def vecs (g : Guard) (l : List VReg) : List Source := lanesRead g (l.map (·.toNat))
/-- Lane registers that any lane of the gang may be read of by name (R168). -/
def named (g : Guard) (l : List VReg) : List Source := lanesRead g [] ++ l.map fun v => .gang v.toNat
/-- What an address of the memory layout reads (R77, R175), with lane data. -/
def place (g : Guard) (m : Addr) (data : List Nat) : List Source := .scalar m.sb :: lanesRead g (addrRegs m ++ data)
/-- The coordinates of a copy and its other operands (R191). -/
def copyReads (o : CopyOps) : List Source :=
  lows ([o.sa, o.sb, o.sd] ++ if o.sc = 0 then [] else [o.sc, o.sc + 1, o.sc + 2])

/-- The registers that an instruction reads. -/
def sources : Instr → List Source
  | .add _ a b | .sub _ a b | .mul _ a b | .mulhI _ a b | .mulhN _ a b | .divI _ a b | .divN _ a b | .remI _ a b | .remN _ a b
  | .and _ a b | .or _ a b | .xor _ a b | .andn _ a b | .shl _ a b | .shrN _ a b | .shrI _ a b | .rot _ a b | .minI _ a b
  | .minN _ a b | .maxI _ a b | .maxN _ a b | .lea _ a b _ | .cmpEq _ a b | .cmpNe _ a b | .cmpLtI _ a b | .cmpLtN _ a b
  | .cmpLeI _ a b | .cmpLeN _ a b => scalars [a, b]
  | .sel _ a b c => scalars [a, b, c]
  | .clz _ a | .ctz _ a | .popc _ a | .sext _ a _ | .zext _ a _ | .mov _ a | .addi _ a _ | .andi _ a _ | .ori _ a _
  | .xori _ a _ | .shli _ a _ | .shriN _ a _ | .shriI _ a _ | .jr a | .mset _ a | .sld8 _ a _ | .sld16 _ a _ | .sld32 _ a _
  | .sld64 _ a _ | .mon a _ | .mwait a | .tagwaitAny a | .tagwaitAll a | .tagffs _ a | .bbwait a _ => scalars [a]
  | .lih d _ | .bz d _ | .bnz d _ => scalars [d]
  | .sst8 d a _ | .sst16 d a _ | .sst32 d a _ | .sst64 d a _ | .cinc d a _ | .bbinit d a _ | .bbexp d a _ => scalars [d, a]
  | .ret => scalars [63]
  | .rett => [.special 7, .special 8, .special 9, .special 16]
  | .sget _ n => [.special n.toNat]
  | .sset a n => if n = 9 then scalars [a] else lows [a]
  | .cclrReg a => [.scalar a, .special 7]
  | .cclrImm _ => [.special 7]
  | .bmany c _ | .bmall c _ | .bmnone c _ => [.mask 0, .mask c.toNat]
  | .mget _ a | .mnot _ a | .mpop _ a | .mffs _ a => [.mask a.toNat]
  | .mand _ a b | .mor _ a b | .mxor _ a b | .mandn _ a b => [.mask a.toNat, .mask b.toNat]
  | .iabs g _ a | .ineg g _ a | .not g _ a | .bfeI g _ a _ _ | .bfeN g _ a _ _ | .lanePopc g _ a | .laneClz g _ a | .brev g _ a
  | .fabs g _ a | .fneg g _ a | .ffloor g _ a | .fceil g _ a | .ftrunc g _ a | .frnd g _ a | .fclass g _ a | .fsqrtRne g _ a
  | .frcp g _ a | .frsq g _ a | .fexp2 g _ a | .flog2 g _ a | .fsinpi g _ a | .fcospi g _ a | .cvtI32F32 _ g _ a
  | .cvtN32F32 _ g _ a | .cvtF32I32 _ g _ a | .cvtF32N32 _ g _ a | .cvtBf16F32 _ g _ a | .cvtF16F32 _ g _ a
  | .cvtE4m3F32 _ g _ a | .cvtE5m2F32 _ g _ a | .cvtE2m1F32 g _ a | .cvtF32Bf16 g _ a | .cvtF32F16 g _ a | .cvtF32E4m3 g _ a
  | .cvtF32E5m2 g _ a | .cvtF32E2m1 g _ a | .redAddI g _ a | .redAddF32 g _ a | .redMin g _ a | .redMax g _ a | .scanAddI g _ a
  | .scanAddF32 g _ a | .matchLanes g _ a | .bscale g _ a _ | .iaddi g _ a _ | .imuli g _ a _ | .laneAndi g _ a _
  | .laneOri g _ a _ | .laneXori g _ a _ | .icmpi _ g _ a _ | .ftevl g _ a _ => vecs g [a]
  | .iadd g _ a b | .isub g _ a b | .imul g _ a b | .imulhI g _ a b | .imulhN g _ a b | .iminI g _ a b | .iminN g _ a b
  | .imaxI g _ a b | .imaxN g _ a b | .laneAnd g _ a b | .laneOr g _ a b | .laneXor g _ a b | .laneAndn g _ a b
  | .laneShl g _ a b | .laneShrI g _ a b | .laneShrN g _ a b | .laneRot g _ a b | .icmp _ g _ a b | .fadd _ g _ a b
  | .fsub _ g _ a b | .fmul _ g _ a b | .fmin g _ a b | .fmax g _ a b | .fminn g _ a b | .fmaxn g _ a b | .fcmp _ g _ a b
  | .fdivRne g _ a b | .hadd2 _ g _ a b | .hmul2 _ g _ a b => vecs g [a, b]
  | .bfi g d a _ _ => vecs g [d, a]
  | .imad g _ a b c | .dp4I g _ a b c | .dp4N g _ a b c | .fma _ g _ a b c | .hfma2 _ g _ a b c => vecs g [a, b, c]
  | .laneSel g _ a b c => .mask c.toNat :: vecs g [a, b]
  | .add64 g _ a b => lanesRead g (vregs a 2 ++ vregs b 2)
  | .mad64N g _ a b c => lanesRead g ([a.toNat, b.toNat] ++ vregs c 2)
  | .lea64 g _ a b _ => lanesRead g (vregs a 2 ++ [b.toNat])
  | .shflIdx g _ a b => .active g b.toNat :: named g [a]
  | .shflXor g _ a _ | .shflUp g _ a _ | .shflDn g _ a _ | .bcast g _ a _ => named g [a]
  | .voteAny g _ a | .voteAll g _ a => .mask a.toNat :: lanesRead g []
  | .voteBallot g _ a => .mask a.toNat :: lanesRead g []
  | .movi g _ _ => lanesRead g []
  | .ld _ g _ m | .ldl _ g _ m | .ldt _ g _ m | .wld g _ m | .ald g _ m | .accld g _ m | .pf g m => place g m []
  | .st w g d m | .stl w g d m | .stt w g d m => place g m (vregs d (storeRegs w))
  | .ldp _ g _ a _ => lanesRead g (vregs a 2)
  | .stp w g d a _ => lanesRead g (vregs a 2 ++ vregs d (storeRegs w))
  | .wst g d m | .ast g d m | .accst g d m => place g m [d.toNat]
  | .atom op g d m | .atl op g d m => place g m (vregs d (atRegs op))
  | .redAtomic op g d m => place g m (vregs d (atRegs (RedAtomic op)))
  | .cmpst g d b _ | .cmpstL g d b _ => .low b :: vecs g [d]
  | .spill d _ => [.gang d.toNat]
  | .tcpyG2a o | .tcpyG2w o | .tcpyA2g o | .tcpyG2l o | .tcpyL2g o | .tcpyG2g o | .tcpyG2gStamp o => copyReads o
  | .cfrsmRetry a | .cfrsmSkip a | .lstat _ a | .tdload a | .ftload _ a | .cpost a _ | .launch a | .cancel _ a | .susp _ a _ _
  | .resume a | .cdrop a => lows [a]
  | .cfrsmFill a b | .spawn a b | .cclone _ a b => lows [a, b]
  | .tmma v d a b c | .tmmaZ v d a b c | .tmmaX2 v d a b c => lows [d, a, b, c] ++ vecs ⟨false, 0⟩ [v]
  | .tzero d c => lows [d, c]
  | .tcvt _ b d c _ => lows [b, d, c]
  | .xsort d a b _ | .xscan d a b _ => lows [d, a, b]
  | .xtopk d a b c _ => lows [d, a, b, c]
  | .ctrig a b c => lows [a, b, c]
  | _ => []

/-- What a register of a wave holds; none where there is no such register. -/
def Dev.regValue (d : Dev) (w : Wave) : RegName → Option Word
  | .lane v l => ((w.v[v]?).bind (·[l]?)).map (·.setWidth 64)
  | .mask m => (w.m[m]?).map (·.setWidth 64)
  | .scalar t s => if s = 0 then none else (w.strands[t]?).bind (·.s[s]?)
  | .special t n =>
    match d.block? w.block with
    | none => none
    | some b => if 8 ≤ t then none else (d.ctx? b.ctx).bind fun c => d.special ⟨w, 1#8 <<< t, 0, b, c⟩ t n

/-- A register cannot be corrected: the instruction that reads it raises INTEGRITY (R263). -/
def Dev.registerError (d : Dev) (wave : Nat) (reg : RegName) : Dev :=
  match (d.wave? wave).bind fun w => d.regValue w reg with
  | none => d
  | some x => { d with badRegs := (wave, reg, x) :: d.badRegs }

/-- The gang's instruction reads a register that cannot be corrected (R263). -/
def Dev.readsBad (d : Dev) (k : Issue) (i : Instr) : Bool :=
  d.badRegs.any fun b => b.1 == k.wave.id && (sources i).any fun r => r.meets k b.2.1

/-- A register that has been written with another value is sound again, and one of a wave that is gone matters no more. -/
def Dev.dropBad (d : Dev) : Dev :=
  { d with badRegs := d.badRegs.filter fun b => (d.wave? b.1).any fun w => d.regValue w b.2.1 == some b.2.2 }

end Sys2Proof.Machine
end

