-- ==== Sys2Proof/Machine/Hierarchy.lean ====
section
/-!
DEFINITION. Steps of the memory hierarchy and of the arbiters: evictions and line transfers (R250, R254, R266), server
releases and the choice of the next quantum at a point (R284, R285, R291).
-/

namespace Sys2Proof.Machine

/-! ## Errors of storage (R254, R263) -/

/-- The carried check of a spill slot differs from its values (R188, R254). -/
def Wave.spoilSlot (w : Wave) (slot : Nat) (flaw : BitVec 16) : Wave :=
  { w with spill := modIf (·.slot == slot) (fun s => { s with flaw := s.flaw ^^^ flaw }) w.spill }

/-- The place of a local space by its number. -/
def spaceOf (n : Nat) : Space := if n = 0 then .scratch else if n = 1 then .wbuf else if n = 2 then .abuf else .acc

/-- An uncorrectable error (Table 8-4): what can be fetched again is dropped; a sector whose only copy it is keeps its
check over changed bytes; a dirty line's tag is a fatal package error. -/
def Dev.softError (d : Dev) : SoftError → Dev
  | .none => d
  | .corrected => d
  | .register wave reg => d.registerError wave reg
  | .localWord core space word => if core < 896 then { d with poison := (core, spaceOf space, word) :: d.poison } else d
  | .spill wave slot flaw => d.modWave wave fun w => w.spoilSlot slot flaw
  | .l1 core line => { d with l1 := d.l1.filter fun l => !(l.core == core && l.line == line) }
  | .icache core va => { d with icache := d.icache.filter fun e => !(e.core == core && e.va == va) }
  | .tlb core vpn => { d with tlb := d.tlb.filter fun e => !(e.core == core && e.vpn == vpn) }
  | .llcData sector bytes =>
    match d.line? (sector / 4) with
    | some l => if l.owner.isSome then d.spoil sector (bytes.take 32) else d
    | none => d
  | .dram sector bytes => if (d.line? (sector / 4)).isNone then d.spoil sector (bytes.take 32) else d
  | .llcTag line =>
    match d.line? line with
    | some l => if l.owner.isSome then d.send (.internalError (128 * line)) else d.evictLine l
    | none => d

/-- LLC_EVICT (R250, R266): any line may be evicted; nothing when it is not resident. An error of storage may come with it:
errors have no step of their own (log entry 6). -/
def execLlcEvict (x : Eviction) (s : State) : Host.Outcome State Fault Refusal :=
  let d := match s.dev.line? x.line with | some l => s.dev.evictLine l | none => s.dev
  .next { s with
    dev := d.softError x.error
    mgmt := match x.error with
      | .corrected => { s.mgmt with seccnt := (s.mgmt.seccnt + 1) % 2 ^ 32 }
      | .llcTag line => if (d.line? line).any (·.owner.isSome) then { s.mgmt with fatal := line :: s.mgmt.fatal } else s.mgmt
      | _ => s.mgmt }

/-! ## What waits at a point -/

/-- The home context of a partition tag (R340). -/
def Dev.homeOf (d : Dev) (tag : Nat) : Option Ctx := ((d.tagHomes.find? (·.1 == tag)).map (·.2)).bind d.ctx?

/-- Bytes that a request touches. -/
def askSize : RemoteAsk → Nat
  | .read n => n
  | .write bs _ => bs.length
  | .copy bs _ _ => bs.length
  | .copyRead n => n
  | .atomic op _ _ => atBytes op
  | .cinc _ => 8
  | .append _ => 8
  | .stamp _ => 8
  | .object .. => 16
  | .watch _ => 1

/-- Bytes by channel that a copy of another package charges here (R382). -/
def askLoads (p : RemotePkt) : List (Point × Nat) :=
  channelLoads ((spans 32 p.pa (askSize p.ask)).map (·.va / 128)).eraseDups

/-- Copies that wait for a charge at a point on their path: this package's, and other packages' (R382). -/
def Dev.pathWants (d : Dev) (p : Point) : List (Nat × Nat) :=
  (d.waitingPieces.filterMap fun w => (w.2.2.2.find? (·.1 == p)).map fun l => (w.1, l.2)) ++
    d.held.filterMap fun q => (d.homeOf q.ptag).bind fun x => ((askLoads q).find? (·.1 == p)).map fun l => (x.n, l.2)

/-- Contexts with a piece to issue at the copy engines of a die, each with the bytes of its next piece (R195, R285). -/
def copyWants (die : Nat) (l : List (Nat × Nat × Nat × List (Point × Nat))) : List (Nat × Nat) :=
  l.foldl (fun l w => if w.2.1 == die && !l.any (·.1 == w.1) then l ++ [(w.1, w.2.2.1)] else l) []

/-- Pieces whose other points have budget: one that waits for those holds up no other copy (R291). -/
def Dev.readyPieces (d : Dev) : List (Nat × Nat × Nat × List (Point × Nat)) :=
  d.waitingPieces.filter fun w => d.pathReady w.1 w.2.2.2

/-- Contexts with line transfers at a channel: 128 bytes each, none where a piece has paid (R254, R291). -/
def Dev.lineWants (d : Dev) (channel : Nat) : List (Nat × Nat) :=
  (d.xfers.filter (·.channel == channel)).foldl
    (fun l x => if l.any (·.1 == x.ctx) then l else l ++ [(x.ctx, if x.charged then 0 else 128)]) []

/-- Payload that a flit charges: none for copy data of a binding, which has been charged with its piece (R380). -/
def Egress.charge (e : Egress) : Nat :=
  match e.pkt.body with
  | .request p => match p.ask with | .copy .. => if e.pkt.vc = 2 then 0 else 240 | _ => 240
  | _ => 240

/-- Contexts with flits at an egress port (R338, R340). -/
def Dev.flitWants (d : Dev) (port : Nat) : List (Nat × Nat) :=
  (d.egress.filter fun e => e.home.isNone && e.pkt.vc != 1 && (e.port.isNone || e.port == some port)).foldl
    (fun l e => if l.any (·.1 == e.ctx) then l else l ++ [(e.ctx, e.charge)]) []

/-- Contexts with work at a point (of an issue port, at port `i`), each with the charge of its next quantum (R284). -/
def Dev.wantsAt (d : Dev) (p : Point) (i : Nat) : List (Nat × Nat) :=
  match p with
  | .port core => portWants (d.readyAt core i)
  | .tile core => d.enginePending core .tile (d.tileWants core)
  | .table core => d.enginePending core .table (d.fxWants core .table)
  | .select core => d.enginePending core .select (d.fxWants core .select)
  | .copy die => copyWants die d.waitingPieces
  | .coll e => d.collPending e
  | .chan c => d.lineWants c ++ d.pathWants p
  | .eutrix n => d.flitWants n ++ d.pathWants p

/-- The budgets of a point. -/
def pointBudgets : Point → List Nat
  | .port _ => List.range 6
  | _ => [0]

/-- The arbiter of a point looks at its servers (R284, R285). -/
def Dev.syncAt (d : Dev) (p : Point) : Dev :=
  (pointBudgets p).foldl (fun d i => d.syncPoint p i (d.wantsAt p i)) d

/-- The servers of a point learn what has become pending or has ended (R284). -/
def Dev.noteAt (d : Dev) (p : Point) : Dev :=
  (pointBudgets p).foldl (fun d i => d.notePending p i ((d.wantsAt p i).map (·.1))) d

/-- Cores with a tile operation at their current-surge arbiter, in order of arrival (R302). -/
def Dev.noteSurge (d : Dev) : Dev :=
  let waits (core : Nat) : Bool := (d.headReady core .tile).isSome
  let old := d.surgeWait.filter waits
  let jobs := d.jobs.filter fun j => match j.kind with | .tile .. => true | _ => false
  let cores := (jobs.filterMap fun j => (d.block? j.block).map (·.core)).eraseDups
  { d with surgeWait := old ++ cores.filter fun c => waits c && !old.contains c }

/-- The servers of every point learn what a step has left (R284). -/
def Dev.noteServers (d : Dev) : Dev := ((d.servers.map (·.args.point)).eraseDups).foldl Dev.noteAt d

/-- MEM_LINE_TRANSFER (R254, R285): transfers that pieces have paid for at servers go first, the earliest deadline among
them (R291, R383). -/
def execMemLineTransfer (channel : Nat) (s : State) : Host.Outcome State Fault Refusal :=
  onDev s fun d =>
    let p : Point := .chan channel
    let d := d.syncAt p
    let here := d.xfers.filter (·.channel == channel)
    let paid := here.filter fun x => x.charged && (d.server? x.ctx p).isSome
    match (d.earliest p 0 (paid.map (·.ctx))).bind fun c => paid.find? (·.ctx == c) with
    | some x => { d with xfers := d.xfers.erase x }
    | none =>
      match (d.choose p 0 (d.lineWants channel) (d.lastTurn p)).bind fun c => here.find? (·.ctx == c) with
      | none => d
      | some x =>
        (({ d with xfers := d.xfers.erase x } : Dev).chargeAt x.ctx p 0 (if x.charged then 0 else 128)).noteTurn p x.ctx

/-- SERVER_RELEASE (R284): eligibility follows from the clock; the arbiter looks at the point again. -/
def execServerRelease (ctx : Nat) (point : Point) (s : State) : Host.Outcome State Fault Refusal :=
  onDev s fun d => if (d.server? ctx point).isSome then d.syncAt point else d

/-- ARBITER_SELECT (R285): the choice at a point. An issue port, a channel and an egress port choose when they issue,
carry and send; the copy engines' choice stands until its piece issues. -/
def execArbiterSelect (point : Point) (s : State) : Host.Outcome State Fault Refusal :=
  onDev s fun d =>
    match point with
    | .tile core =>
      let between (j : Job) : Bool := match j.kind with | .tile _ _ (some 0) _ => true | _ => false
      d.beginStep s.mgmt core between fun d _ => d
    | .table core => d.startFx core .table
    | .select core => d.startFx core .select
    | .coll e => d.runColl e
    | .copy die =>
      let d := d.waitingPieces.foldl (fun d w => if w.2.1 = die then d.wakePath w.1 w.2.2.2 else d) (d.syncAt point)
      let d : Dev := { d with picks := d.picks.filter (·.1 != point) }
      match d.choose point 0 (copyWants die d.readyPieces) (d.lastTurn point) with
      | none => d
      | some c => ({ d with picks := d.picks ++ [(point, c)] } : Dev).noteTurn point c
    | _ => d.syncAt point

end Sys2Proof.Machine
end

