-- ==== Sys2Proof/Machine/Fabric.lean ====
section
/-!
DEFINITION. The Eutrix fabric: requests served at a home here (R272, R382), the end of this package's requests (R310,
R340), flits out and in with the partition checks (R338 to R340, R380, R381, R383), and the link pause (R292).
-/

namespace Sys2Proof.Machine

/-! ## The end of a request of this package -/

/-- A line of another package comes into a core's L1, with a lease that ends at its time (R271, R272). -/
def Dev.keepLine (d : Dev) (core : Nat) (r : Remote) (t : Nat) (bs : List Byte) : Dev :=
  d.putL1 ⟨core, r.pa / 128, 0, r.ctx, some r.pkg, bs, List.replicate 4 0, t, t, r.sent.getD d.clock⟩

/-- A load of a whole line of another package brings it into the core's L1; a store updates the copy that the core holds (R248). -/
def Dev.keepReply (d : Dev) (o : MemOp) (r : Remote) (t : Nat) (bs : List Byte) : Dev :=
  match d.block? o.block, r.ask with
  | some b, .read 128 =>
    if o.whole then d.keepLine b.core r t bs else d
  | some b, .write new _ =>
    let patch (l : L1Line) : L1Line :=
      if l.isAt b.core o.ctx (some r.pkg) (r.pa / 128) then
        { l with bytes := l.bytes.take (r.pa % 128) ++ new ++ l.bytes.drop (r.pa % 128 + new.length), wt := t, le := max l.le t }
      else l
    { d with l1 := d.l1.map patch }
  | _, _ => d

/-- A lane of an operation has its reply (R272); the reply of an `append` carries the queue pointer as it was (R186). A
stamp's time is nothing that its wave observes (R279). -/
def Dev.laneReply (d : Dev) (o : MemOp) (r : Remote) (lane t : Nat) (bs : List Byte) : Dev :=
  let d := match o.kind with
    | .cmpst .. => d.queueOpen o (leNat bs) t
    | _ =>
      if o.whole then
        o.lanes.foldl (fun (d : Dev) (a : LaneAcc) => d.laneDone o.id a.lane (.done t ((bs.drop a.inLine).take a.n))) d
      else d.laneDone o.id lane (.done t bs)
  if o.kind = .stamp then (match d.op? o.id with | some o => d.endOp o | none => d)
  else ((d.keepReply o r t bs).opTime o t).settleOp o.id

/-- A lane of an operation has no reply: the cause is reported (R178). -/
def Dev.laneFails (d : Dev) (o : MemOp) (lane cause : Nat) : Dev :=
  let lanes := if o.whole || (match o.kind with | .cmpst .. => true | _ => false) then o.lanes.map (·.lane) else [lane]
  let d := lanes.foldl (fun d l => d.laneDone o.id l (.failed cause)) d
  if o.kind = .stamp then (match d.op? o.id with | some o => d.endOp o | none => d) else d.settleOp o.id

/-- A copy's piece has a reply: bytes that it waits for, or the time of a write. -/
def Copy.reply (c : Copy) (piece off t : Nat) (bs : List Byte) : Copy :=
  match c.piece? piece with
  | some (.issued got (some w)) => c.setPiece piece (.issued got (some (max w t)))
  | some (.issued got none) => c.setPiece piece (.issued (got ++ [(off, bs)]) none)
  | none => if recPieceA ≤ piece then c.setPiece piece (.issued [(off, bs)] none) else c
  | _ => c

/-- A request of a copy that belongs to the side it writes: a write, or the read of a nibble's byte. -/
def onWriteSide (ask : RemoteAsk) (off : Nat) : Bool :=
  (match ask with | .write .. => true | .copy .. => true | _ => false) || decide (nibbleKey ≤ off ∧ off < 2 * nibbleKey)

/-- A request of this package has ended: its requester is told. -/
def Dev.endRequest (d : Dev) (r : Remote) (a : Answer) : Dev :=
  let d : Dev := { d with remotes := d.remotes.filter (·.req != r.req) }
  let time : Option Nat := match a with | .done t _ => some t | .failed _ => none
  match r.op, r.job with
  | some (op, lane), _ =>
    match d.op? op, a with
    | some o, .done t bs => d.laneReply o r lane t bs
    | some o, .failed e => d.laneFails o lane e
    | none, _ => d
  | none, some (owner, piece, off) =>
    if owner = owedReader then d.owedReply off time
    else if owner = monReader then (match time with | some t => d.wakeLine off t | none => d)
    else if owner = pfReader then (match a with | .done t bs => d.keepLine piece r t bs | .failed _ => d)
    else
      match (d.job? owner).filter (·.copy?.isSome), a with
      | some _, .done t bs =>
        let d := d.modJob owner fun j => { j with clock := max j.clock t }
        d.modCopy owner fun c => c.reply piece off t bs
      | some j, .failed e => d.pieceFault j piece e (onWriteSide r.ask off)
      | none, a => { d with inbox := d.inbox ++ [(owner, off, a)] }
  | none, none => d

/-- A request that waits for a write to come is answered when it comes. -/
def askWaits : RemoteAsk → Bool
  | .watch (some _) => true
  | _ => false

/-- PAIRTIMEOUT (R310): a request whose reply has not come is ended. -/
def execPairtimeout (req : Nat) (s : State) : Host.Outcome State Fault Refusal :=
  onDev s fun d =>
    match d.remotes.find? (·.req == req) with
    | none => d
    | some r =>
      if r.pkg = 1023 || askWaits r.ask || !r.sent.any (· + 2400000 ≤ d.clock) then d else d.endRequest r (.failed cPairtimeout)

/-- A reply arrives, and the requester adopts its time (R272). -/
def Dev.takeReply (d : Dev) (req : Nat) (e : RemoteEnd) : Dev :=
  match d.remotes.find? fun r => r.req == req && r.pkg != 1023 && r.sent.isSome with
  | some r => d.endRequest r (answerOf e)
  | none => d

/-- REPLY_ARRIVE (R272, R381): nothing when the request has ended. -/
def execReplyArrive (req : Nat) (e : RemoteEnd) (s : State) : Host.Outcome State Fault Refusal :=
  onDev s fun d => d.takeReply req e

/-! ## Requests of other packages (R272, R340, R382) -/

/-- What is left of an answer once its bytes are known. -/
def endOf (t : Nat) : Option (List Byte) → RemoteEnd
  | some bs => .done t bs
  | none => .integrity

/-- The sectors of a piece are written in order, each one event (R275, R382); what a failed merge leaves of the others is
open. Sectors that have come whole keep their checks (R260). -/
def Dev.serveCopy (d : Dev) (x : Ctx) (pa clock : Nat) (bs mask : List Byte) (checks : List (BitVec 16)) : Dev × RemoteEnd :=
  let l := spans 32 pa bs.length
  let cut (l : List Byte) (sp : Span) : List Byte := (l.drop sp.off).take sp.n
  let bad (sp : Span) : Bool := d.sectorBad x.n (.glob sp.va) (cut mask sp)
  let anyBad := l.any bad
  let keep (i : Nat) : Bool := !anyBad || (Config.freeBits (d.free + i)).getLsbD 0
  let chosen := (l.zipIdx.filter fun (sp, i) => !bad sp && keep i).map (·.1)
  let (d, t) := chosen.foldl (fun (q : Dev × Nat) sp => q.1.writeSector x.n (.glob sp.va) q.2 (cut bs sp) (cut mask sp))
    ({ d with free := d.free + l.length }, clock)
  let new (i : Nat) : Bool := maskWhole pa mask i && chosen.any (·.va == 32 * i)
  (d.keepChecks pa bs.length new checks, if anyBad then .integrity else .done t [])

/-- A range is read at homes here for a copy: one event for each sector (R275). -/
def Dev.serveRead (d : Dev) (x : Ctx) (pa n clock : Nat) : Dev × RemoteEnd :=
  let (free, d) := d.freeWord
  let (d, t, r) := (spans 32 pa n).foldl (fun (q : Dev × Nat × Option (List Byte)) sp =>
    let (d, t, b) := q.1.homeLoad x.n (.glob sp.va) sp.n q.2.1 (1 + free.toNat % 64)
    (d, max q.2.1 t, match q.2.2, b with | some bs, some b => some (bs ++ b) | _, _ => none)) (d, clock, some [])
  (d, endOf t r)

/-- A request is performed at its home here, under the home context's key slot and windows, with the clock it carries. -/
def Dev.serve (d : Dev) (x : Ctx) (p : RemotePkt) : Dev × RemoteEnd :=
  let write (f : Nat → List Byte) : Dev × RemoteEnd :=
    let (d, t, ok) := d.homeWrite x.n none true (.glob p.pa) p.clock f
    (d, endOf t (if ok then some [] else none))
  let update (n : Nat) (f : Nat → Nat) : Dev × RemoteEnd :=
    let (d, t, r) := d.homeRmw x.n none true (.glob p.pa) n p.clock fun _ old => leBytes n (f (leNat old))
    (d, endOf t r)
  match p.ask with
  | .read n =>
    let (free, d) := d.freeWord
    let (d, t, r) := d.loadOnce x.n (.glob p.pa) n p.clock (1 + free.toNat % 64)
    (d, endOf t r)
  | .copyRead n => d.serveRead x p.pa n p.clock
  | .write bs checks =>
    match write fun _ => bs with
    | (d, .done t r) => (d.keepChecks p.pa bs.length (wholeSector p.pa bs.length) checks, .done t r)
    | r => r
  | .object n flags => write fun t => leBytes 4 n ++ leBytes 4 flags ++ leBytes 8 (if n = 0 then t else 0)
  | .copy bs mask checks => d.serveCopy x p.pa p.clock bs mask checks
  | .atomic op a b => update (atBytes op) fun old => atNew op old a.toNat b.toNat
  | .cinc a => update 8 fun old => cincNew old (a.toNat % 2 ^ 48)
  | .append words =>
    match d.peekLoc x.n (.glob p.pa) 8 with
    | some old =>
      if (queueCheck false 0 words (leNat old)).isSome then (d, .done p.clock old)
      else update 8 fun old => old + 4 * words
    | none => (d, .integrity)
  | .stamp skip => update 8 fun old => (old + 1) % 2 ^ 63 + (if skip then 2 ^ 63 else 0)
  | .watch _ => (d, .done (d.lineTimes p.pa).1 [])

/-- A reply leaves with its request's tag on VC 1 (R339, R340). -/
def Dev.reply (d : Dev) (x : Ctx) (p : RemotePkt) (e : RemoteEnd) : Dev :=
  let n := flitsFor (match e with | .done _ bs => bs.length | _ => 0)
  { d with egress := d.egress ++ [⟨x.n, none, n, ⟨1, p.ptag, p.src, n, 16, .reply p.name e⟩, none⟩] }

/-- A request is performed and answered. -/
def Dev.serveNow (d : Dev) (x : Ctx) (p : RemotePkt) : Dev := let (d, e) := d.serve x p; d.reply x p e

/-- A copy's request runs under the budget of the home context's channel servers: it waits until each of them is eligible
and covers its charge, and all are charged at once (R291, R382; log entry 79). -/
def Dev.serveFar (d : Dev) (x : Ctx) (p : RemotePkt) : Dev :=
  let loads := askLoads p
  let d := d.wakePath x.n loads
  if d.pathReady x.n loads then
    let n := d.xfers.length
    ((loads.foldl (fun d c => d.chargeAt x.n c.1 0 c.2) d).serveNow x p).chargedFrom n
  else { d with held := d.held ++ [p] }

/-- A request that has passed the ingress check is served and answered, or refused (R257, R345). A monitor's request is
answered once the line's write time has passed its own (R130). -/
def Dev.serveRequest (d : Dev) (p : RemotePkt) : Dev :=
  match d.homeOf p.ptag with
  | none => d
  | some x =>
    if 3 ≤ (d.fn x.fn).flr then d.reply x p .rights
    else if !(mappable p.pa (askSize p.ask) && d.inWindows x.fn p.pa (askSize p.ask)) then d.reply x p .xlate
    else
      match p.ask with
      | .copy .. => d.serveFar x p
      | .copyRead _ => d.serveFar x p
      | .watch (some c) =>
        let t := (d.lineTimes p.pa).1
        if c < t then d.reply x p (.done t []) else { d with watches := d.watches ++ [⟨p, c, none⟩] }
      | _ => d.serveNow x p

/-- REMOTE_REQUEST (R272): nothing for a tag without a home context. -/
def execRemoteRequest (p : RemotePkt) (s : State) : Host.Outcome State Fault Refusal :=
  onDev s fun d => d.serveRequest p

/-- Copies of other packages that wait are looked at again, in order. -/
def Dev.retryHeld (d : Dev) : Dev := d.held.foldl Dev.serveRequest { d with held := [] }

/-- Monitors of other packages whose line has been written are answered. -/
def Dev.answerWatches (d : Dev) : Dev :=
  d.watches.foldl (fun d w =>
    match w.hit, d.homeOf w.pkt.ptag with
    | some t, some x => ({ d with watches := d.watches.erase w } : Dev).reply x w.pkt (.done t [])
    | _, _ => d) d

/-! ## Flits (R338, R380, Table 12-6) -/

/-- TYPE of a packet (Table 12-6; log entry 107). -/
def bodyType : PktBody → Nat
  | .request p =>
    match p.ask with
    | .read _ => 0
    | .copyRead _ => 0
    | .watch _ => 0
    | .write .. => 1
    | .object .. => 1
    | .stamp _ => 1
    | .atomic .. => 2
    | .cinc _ => 2
    | .append _ => 2
    | .copy .. => 4
  | .reply .. => 3
  | .chunk .. => 5
  | .cts .. => 6
  | .ready .. => 7
  | .failure .. => 7

/-- The clock that a packet carries (R272); none in a reply that brings no time and in the news of a failure. -/
def bodyClock : PktBody → Option Nat
  | .request p => some p.clock
  | .reply _ (.done t _) => some t
  | .reply _ _ => none
  | .ready _ _ t => some t
  | .cts _ _ _ t => some t
  | .chunk _ _ _ t _ => some t
  | .failure .. => none

/-- The header as a number, FCRC zero. -/
def headWord (f : FlitHead) : Nat :=
  f.vc * 2 ^ 124 + f.ptag * 2 ^ 112 + f.type * 2 ^ 108 + f.first.toNat * 2 ^ 107 + f.last.toNat * 2 ^ 106 +
    f.dst * 2 ^ 96 + f.src * 2 ^ 86 + f.flow * 2 ^ 64 + f.lseq * 2 ^ 32

/-- FCRC of a flit: over the header and the payload (Table 12-6). -/
def flitCrc (f : FlitHead) (payload : List Byte) : BitVec 32 := crc32 (leBytes 16 (headWord f) ++ payload)

/-- `n` bytes of a list, zeros behind its end: reserved bytes are zero (R8). -/
def padZeros (n : Nat) (bs : List Byte) : List Byte := bs.take n ++ List.replicate (n - bs.length) 0

/-- A byte that no rule gives: of a run of free values (log entry 2). -/
def openByte (free i : Nat) : Byte := (Config.freeBits (free + i / 8)).extractLsb' (8 * (i % 8)) 8

/-- The sectors that copy data lies in, whole: what the piece does not write is open. -/
def dataSectors (free pa : Nat) (bs mask : List Byte) : List (List Byte) :=
  (sectorsOf pa bs.length).map fun s => (List.range 32).map fun j =>
    let a := 32 * s + j
    let m : Byte := if pa ≤ a then (mask[a - pa]?).getD 0 else 0
    (if pa ≤ a then (bs[a - pa]?).getD 0 else 0) &&& m ||| openByte free j &&& ~~~m

/-- Sectors with the checks that travel with them: what has come whole keeps its own, what the packet fills up has a fresh
one (R260). -/
def withChecks (pa : Nat) (whole : Nat → Bool) (checks : List (BitVec 16)) (l : List (List Byte)) :
    List (List Byte × BitVec 16) :=
  l.zipIdx.map fun (s, i) => (s, if whole (pa / 32 + i) then (checks[i]?).getD (crc16 s) else crc16 s)

/-- The payload of data flit `i` of a packet: 16 bytes of header, six sectors and their checks in the first flit; seven sectors,
14 bytes of checks and 2 reserved bytes in each further one (R338, R380). -/
def dataPayload (i : Nat) (header : List Byte) (all : List (List Byte × BitVec 16)) : List Byte :=
  let l := if i = 0 then all.take 6 else (all.drop (7 * i - 1)).take 7
  let sectors := l.flatMap (·.1)
  let checks := l.flatMap fun x => leBytes 2 x.2.toNat
  if i = 0 then header ++ padZeros 192 sectors ++ padZeros 32 checks else padZeros 224 sectors ++ padZeros 16 checks

/-- The payload of flit `i` of a packet. The header of copy data is its clock, PA and length (R380); that of other data is open
but for the clock, and packets without data are open but for it (R338; log entry 107). -/
def bodyPayload (free i : Nat) (b : PktBody) : List Byte :=
  let open_ : List Byte := (List.range 240).map (openByte free)
  let header : List Byte := match bodyClock b with | some t => leBytes 8 t ++ (open_.drop 8).take 8 | none => open_.take 16
  let full (bs : List Byte) : List Byte := List.replicate bs.length 0xFF
  let fresh (bs : List Byte) := withChecks 0 (fun _ => false) [] (dataSectors free 0 bs (full bs))
  let bare : List Byte := if i = 0 then header ++ open_.drop 16 else open_
  match b with
  | .request p =>
    match p.ask with
    | .copy bs mask checks =>
      dataPayload i (leBytes 8 p.clock ++ leBytes 6 p.pa ++ leBytes 2 bs.length)
        (withChecks p.pa (maskWhole p.pa mask) checks (dataSectors free p.pa bs mask))
    | .write bs checks =>
      dataPayload i header (withChecks p.pa (wholeSector p.pa bs.length) checks (dataSectors free p.pa bs (full bs)))
    | _ => bare
  | .reply _ (.done _ (x :: xs)) => dataPayload i header (fresh (x :: xs))
  | .chunk _ _ _ _ bs => dataPayload i header (fresh bs)
  | _ => bare

/-! ## Flits out (R338 to R340, R383) -/

/-- The packet of a request of this package: on VC 2 when its context has a binding to the package, else on VC 0 (R339, R380). -/
def Dev.requestPacket (d : Dev) (x : Ctx) (r : Remote) : Egress :=
  let vc := if (d.binding x.n r.pkg).isSome then 2 else 0
  let n := flitsFor (match r.ask with
    | .write bs _ => 32 * (sectorsOf r.pa bs.length).length
    | .copy bs _ _ => 32 * (sectorsOf r.pa bs.length).length
    | _ => 0)
  ⟨x.n, none, n, ⟨vc, x.ptag, r.pkg, n, 16, .request ⟨Config.package, x.ptag, vc, r.clock, r.pa, r.ask, r.req⟩⟩, none⟩

/-- The request that a packet carries for this package. -/
def Egress.name (e : Egress) : Option Nat := match e.pkt.body with | .request p => some p.name | _ => none

/-- Requests join the packets on their way out, and the answers of monitors. -/
def Dev.stage (d : Dev) : Dev :=
  let fresh (r : Remote) : Bool := r.pkg != 1023 && r.sent.isNone && !d.egress.any (·.name == some r.req)
  ({ d with egress := d.egress ++ (d.remotes.filter fresh).filterMap fun r => (d.ctx? r.ctx).map fun x => d.requestPacket x r } :
    Dev).answerWatches

/-- A packet has failed a partition check here: it is counted in a function (R340). -/
def Dev.countDrop (d : Dev) (fn : Nat) : Dev :=
  (d.modFn fn fun f => { f with drops := (f.drops + 1) % 2 ^ 32 }).setEvent fn 4

/-- A packet leaves the ones on their way: a chunk's send buffer is free (R343). -/
def Dev.packetGone (d : Dev) (e : Egress) : Dev :=
  let left : Dev := { d with egress := d.egress.erase e }
  match d.chunkHeld e with | some (engine, _) => left.grantBuffers engine | none => left

/-- A packet is dropped whole at egress; a request of this package ends with RIGHTS (R340). -/
def Dev.dropEgress (d : Dev) (e : Egress) : Dev :=
  let d := (d.packetGone e).countDrop (((d.ctx? e.ctx).map (·.fn)).getD 0)
  match e.name.bind fun n => d.remotes.find? (·.req == n) with
  | some r => d.endRequest r (.failed cRights)
  | none => d

/-- The header of the next flit of a packet (Table 12-6). -/
def Egress.head (e : Egress) (lseq : Nat) : FlitHead where
  vc := e.pkt.vc
  ptag := e.pkt.ptag
  type := bodyType e.pkt.body
  first := e.port.isNone
  last := decide (e.left ≤ 1)
  dst := e.pkt.peer
  src := Config.package
  flow := if e.pkt.vc = 2 then (Config.flow e.ctx).toNat else 0
  lseq := lseq

/-- A flit of a packet is sent; its first one starts the request's time-out (R310), its last one completes the packet. -/
def Dev.sendFlit (d : Dev) (port : Nat) (e : Egress) : Dev :=
  let o := d.port port
  if e.port.isNone && !o.allowed.contains e.pkt.ptag then d.dropEgress e
  else
    let now := d.clock
    let head := e.head o.seq
    let payload := bodyPayload d.free (e.pkt.flits - e.left) e.pkt.body
    let d := ({ d with free := d.free + 30 } : Dev).modPort port fun p => { p with seq := (p.seq + 1) % 2 ^ 32 }
    let d := d.send (.flit port head (flitCrc head payload) payload)
    let start (r : Remote) : Remote := if some r.req = e.name ∧ r.sent = none then { r with sent := some now } else r
    let d : Dev := { d with remotes := d.remotes.map start }
    if head.last then (d.packetGone e).send (.packet port e.pkt)
    else
      let on : Egress := { e with port := some port, left := e.left - 1 }
      { d with egress := d.egress.map fun x => if x = e then on else x }

/-- A packet may put its next flit on a port: bound traffic on its binding's (R292), other requests unless the link is paused,
and no packet begins inside another of its channel and tag, which the far end could not tell apart. -/
def Dev.mayLeave (d : Dev) (port : Nat) (e : Egress) : Bool :=
  e.home.isNone && (e.port.isNone || e.port == some port) && !((d.port port).paused && e.pkt.vc == 0)
    && (e.pkt.vc != 2 || e.port.isSome || (d.binding e.ctx e.pkt.peer).all (· == .eutrix port))
    && (e.port.isSome || !d.egress.any fun y => y.port == some port && y.pkt.vc == e.pkt.vc && y.pkt.ptag == e.pkt.ptag)

/-- FLIT_SEND (R338 to R340, R381, R383): replies first, uncharged; then what its piece has paid for at a server, the
earliest deadline first; else the arbiter's choice. -/
def execFlitSend (port : Nat) (s : State) : Host.Outcome State Fault Refusal :=
  onDev s fun d =>
    let d := d.stage
    let here := d.egress.filter (d.mayLeave port)
    if !(d.port port).up then d
    else
      match here.find? (·.pkt.vc == 1) with
      | some e => d.sendFlit port e
      | none =>
        let p : Point := .eutrix port
        let d := d.syncAt p
        let paid := here.filter fun e => e.charge == 0 && (d.server? e.ctx p).isSome
        match (d.earliest p 0 (paid.map (·.ctx))).bind fun c => paid.find? (·.ctx == c) with
        | some e => d.sendFlit port e
        | none =>
          let firsts := here.foldl (fun (l : List Egress) e => if l.any (·.ctx == e.ctx) then l else l ++ [e]) []
          match (d.choose p 0 (firsts.map fun e => (e.ctx, e.charge)) (d.lastTurn p)).bind fun c => firsts.find? (·.ctx == c) with
          | none => d
          | some e => ((d.chargeAt e.ctx p 0 e.charge).noteTurn p e.ctx).sendFlit port e

/-! ## Flits in -/

/-- A packet that has come whole is checked and delivered (R340). A reply is for a request to the package it comes from; a
message between ranks finds its queue by the tag's home context, its channel and its sender. -/
def Dev.deliver (d : Dev) (port : Nat) (p : Packet) : Dev :=
  match d.homeOf p.ptag with
  | none => d.countDrop 0
  | some x =>
    if !(d.port port).allowed.contains p.ptag then d.countDrop x.fn
    else
      match p.body with
      | .request r => d.serveRequest { r with ptag := p.ptag, vc := p.vc, src := p.peer }
      | .reply name e => if d.remotes.any fun r => r.req == name && r.pkg == p.peer then d.takeReply name e else d
      | .ready n rank _ => d.farMessage x.n p n rank
      | .cts n rank _ _ => d.farMessage x.n p n rank
      | .chunk n rank _ _ _ => d.farMessage x.n p n rank
      | .failure n _ rank => d.farMessage x.n p n rank

/-- The open packet that a flit belongs to: its channel, tag and sender. -/
def flitKey (f : FlitHead) : Nat := (f.vc * 4096 + f.ptag) * 1024 + f.src

/-- The header is one of a packet's flits. -/
def flitOf (f : FlitHead) (p : Packet) : Bool :=
  f.vc == p.vc && f.ptag == p.ptag && f.src == p.peer && f.type == bodyType p.body && f.dst == Config.package

/-- FLIT_RECEIVE (R338, R340): a flit whose FCRC fails, or that is not the next of its link, brings nothing: the link sends
it again. A packet is whole with its LAST flit, when every flit since FIRST has come; `p` is the packet that the flits
spell. -/
def execFlitReceive (port : Nat) (x : FlitIn) (p : Packet) (s : State) : Host.Outcome State Fault Refusal :=
  onDev s fun d =>
    let o := d.port port
    let f := x.head
    if !x.crcOk || !o.up || f.lseq != o.rxSeq then d
    else
      let before := assoc o.rx (flitKey f)
      let n := if f.first then 1 else if before = 0 then 0 else before + 1
      let rest := o.rx.filter (·.1 != flitKey f)
      let d := d.modPort port fun x =>
        { x with rxSeq := (x.rxSeq + 1) % 2 ^ 32, rx := if f.last || n == 0 then rest else rest ++ [(flitKey f, n)] }
      if f.last && n == p.flits && flitOf f p then d.deliver port p else d

/-! ## What a step leaves -/

/-- The units that keep an order of arrival note what a step has left: the servers of every point (R284), the copies of other
packages that wait for budget (R382), the current-surge arbiters (R302), the cores' idle times (R359), and registers that
have been written again (R263). -/
def Dev.settle (d : Dev) : Dev := d.dropBad.noteServers.retryHeld.noteSurge.restartIdle

/-- LINK_PAUSE (R292): the far receiver's shared buffer has filled, or has room again. -/
def execLinkPause (port : Nat) (on : Bool) (s : State) : Host.Outcome State Fault Refusal :=
  onDev s fun d => if port < 128 then d.modPort port fun p => { p with paused := on } else d

end Sys2Proof.Machine
end

