-- ==== Sys2Proof/Machine/HostPort.lean ====
section
/-!
DEFINITION. The host port: apertures of a function (R326 to R329), posted writes and reads (R281), the registers of Tables
12-2 and 13-5, invalidation (R259), host memory and its translations (R334), and the IDE check (R337).
-/

namespace Sys2Proof.Machine

/-- The PF's configuration space, and with it every request of the host, is answered from phase 6 on; before, Configuration
Request Retry Status (R361). -/
def hostStep (s : State) (f : State → State) : Host.Outcome State Fault Refusal :=
  .next (if 6 ≤ s.mgmt.phase then f s else { s with dev := s.dev.send .configRetry })

/-- A step of the host on the device. -/
def hostDev (s : State) (f : Dev → Dev) : Host.Outcome State Fault Refusal := hostStep s fun s => { s with dev := f s.dev }

/-! ## Functions (R326 to R328) -/

/-- The contexts of a function, and the one at a local index (R328). -/
def Dev.fnCtxs (d : Dev) (fn : Nat) : List Ctx := d.ctxs.filter (·.fn == fn)
def Dev.local? (d : Dev) (fn idx : Nat) : Option Ctx := (d.fnCtxs fn).find? (·.idx == idx)

/-- A request of the host to a function's BARs is treated as outside its ranges: from the initiation of an FLR to its end
(R389), and for a VF in RUN on a stream other than its own or without the T bit (R337). -/
def Dev.unreachable (d : Dev) (fn : Nat) (w : Wire) : Bool :=
  decide (64 ≤ fn) || decide (0 < (d.fn fn).flr) || ((d.fn fn).tdisp == .run && !(w.stream == some fn && w.tbit))

/-- A piece of a BAR that lies in memory: the key slot, the PA, and how many bytes follow there. -/
structure BarPlace where
  slot : Nat
  pa   : Nat
  room : Nat
deriving DecidableEq, Repr

/-- An offset of BAR4 in the function's windows, taken in order (Table 12-1). -/
def barWindow (off : Nat) : List (Nat × Range) → Option (Nat × Nat)
  | [] => none
  | w :: ws => if off < w.2.len then some (w.2.base + off, w.2.len - off) else barWindow (off - w.2.len) ws

/-- A key slot that an access of a function may be made under: neither another function's nor, for a VF, slot 0. -/
def Dev.slotOpen (d : Dev) (fn slot : Nat) : Bool :=
  decide (slot < 256) && !(slot == 0 && fn != 0) && !(d.ctx? slot).any (·.fn != fn)

/-- An offset of BAR2 or BAR4 (Table 12-1): a mailbox window under its context's key slot; a PA window under the slot that
the access names (log entry 17). -/
def Dev.barPlace (d : Dev) (fn bar slot off : Nat) : Option BarPlace :=
  if bar = 2 then
    if 262144 ≤ off then none
    else (d.local? fn (off / 16384)).map fun c => ⟨c.n, c.mbox + off % 16384, 16384 - off % 16384⟩
  else if bar = 4 then
    if d.slotOpen fn slot then (barWindow off (d.fn fn).windows).map fun p => ⟨slot, p.1, p.2⟩ else none
  else none

/-- The parts of a host access within one sector each, in ascending order (R281); none when a part lies outside. The number
bounds them. -/
def Dev.barSpans (d : Dev) (fn bar slot : Nat) : Nat → Nat → Nat → Nat → Option (List (Span × Nat))
  | 0, _, _, n => if n = 0 then some [] else none
  | k + 1, i, off, n =>
    if n = 0 then some []
    else
      match d.barPlace fn bar slot off with
      | none => none
      | some p =>
        let m := min n (min p.room (32 - p.pa % 32))
        (d.barSpans fn bar slot k (i + m) (off + m) (n - m)).map ((⟨i, p.pa, m⟩, p.slot) :: ·)

/-- A posted write: each sector is a store at the function's clock; one that cannot be merged is dropped, and the PF logs
an internal error (R261, R281). -/
def Dev.postWrite (d : Dev) (fn : Nat) (bs : List Byte) (l : List (Span × Nat)) : Dev :=
  l.foldl (fun d sp =>
    match d.homeWrite sp.2 none false (.glob sp.1.va) (d.fn fn).clock fun _ => (bs.drop sp.1.off).take sp.1.n with
    | (d, t, true) => d.modFn fn fun f => { f with clock := max f.clock t }
    | (d, _, false) => d.send (.internalError sp.1.va)) d

/-- A read: each sector is a load, and the function's clock adopts it; a failed check completes it with Completer Abort,
and the PF logs the sector (R262, R281). -/
def Dev.readSectors (d : Dev) (fn : Nat) (l : List (Span × Nat)) : Dev × Option (List Byte) :=
  l.foldl (fun (q : Dev × Option (List Byte)) sp =>
    let (free, d) := q.1.freeWord
    match d.homeLoad sp.2 (.glob sp.1.va) sp.1.n (d.fn fn).clock (1 + free.toNat % 64) with
    | (d, t, some b) => (d.modFn fn fun f => { f with clock := max f.clock t }, q.2.map (· ++ b))
    | (d, _, none) => (d.send (.internalError (sp.1.va / 32 * 32)), none)) (d, some [])

/-! ## Reading registers (Tables 12-2 and 13-5) -/

/-- CTXNUM i (Table 12-2). -/
def Dev.ctxnum (d : Dev) (fn i : Nat) : Nat := ((d.local? fn i).map (·.n)).getD 0xFF

/-- The core map (Table 13-5). -/
def Dev.coreMap (d : Dev) : Nat := ((List.range 896).map fun g => if (d.core g).mapped then 2 ^ g else 0).sum

/-- The engine allowance of the package in watts (R349, Table 13-5): what the dies' shares come to, less where a rail gives
less. -/
def State.engineWatts (s : State) : Nat :=
  ((List.range 4).map fun die =>
    let a := (s.dev.allow[die]?).getD 0
    if a < s.mgmt.dieAllow die then 160 * a else s.mgmt.dieShare die).sum / 1600

/-- A management register at its 8-byte offset from 0x4000 (Table 13-5). -/
def mgmtWord (s : State) (off : Nat) : Nat :=
  let m := s.mgmt
  if off = 0x00 then m.ready.toNat * 2 ^ 31 + m.errcode % 256 * 2 ^ 8 + m.phase % 16
  else if off = 0x08 then m.watts % 4096
  else if off = 0x10 then s.engineWatts % 4096 * 2 ^ 32 + m.pkgw % 4096
  else if off = 0x18 then maxOf (m.levels.map (·.2)) % 4 * 2 ^ 16 + maxOf (m.temps.map (·.2)) % 256
  else if off = 0x20 then m.emerg % 2 ^ 32
  else if off = 0x28 then m.seccnt % 2 ^ 32
  else if off = 0x30 then m.brkhalt.toNat
  else if off = 0x38 then m.iwaddr % 2 ^ 56
  else if off = 0x40 then m.iwhit.toNat * 2 ^ 62 + m.iwcore % 1024 * 2 ^ 32 + m.iwctx % 256
  else if off = 0x48 then m.iwdata.toNat % 2 ^ 64
  else if off = 0x50 then m.iwdata.toNat / 2 ^ 64
  else if off = 0x60 then
    match m.retlog with
    | some (c, sp) => 2 ^ 63 + c % 1024 * 2 ^ 32 + sp.toNat
    | none => 0
  else if 0x100 ≤ off ∧ off < 0x170 then s.dev.coreMap / 2 ^ (8 * (off - 0x100)) % 2 ^ 64
  else 0

/-- The word of BAR0 at a multiple of 8 (Tables 12-2 and 13-5, R330, R347); reserved places read zero (R8). -/
def regWord (s : State) (fn off : Nat) : Nat :=
  let d := s.dev
  let f := d.fn fn
  let g : DirtyLog := f.log.getD ⟨0, [], false, 0, 0, 0⟩
  if off = 0 then fn % 64 * 2 ^ 8 + (d.fnCtxs fn).length % 32
  else if 0x40 ≤ off ∧ off < 0x50 then leNat ((List.range 8).map fun i => BitVec.ofNat 8 (d.ctxnum fn (off - 0x40 + i)))
  else if off = 0x100 then f.invAddr % 2 ^ 56 / 4096 * 4096
  else if off = 0x108 then f.invLen % 2 ^ 36
  else if off = 0x110 then f.inv.isSome.toNat * 2 ^ 30 + f.invIdx % 16
  else if off = 0x120 then f.event.toNat
  else if off = 0x128 then f.drops % 2 ^ 32
  else if off = 0x200 then g.prod
  else if off = 0x208 then g.cons
  else if off = 0x210 then g.ovf.toNat
  else if off = 0x218 then g.dropped
  else if 0x1000 ≤ off ∧ off < 0x1100 then leNat (cellRead s.mgmt.cmdRec (off - 0x1000) 8)
  else if off = 0x1100 then s.mgmt.cmdBusy.toNat * 2 ^ 30 + s.mgmt.cmdStatus % 256 * 2 ^ 8 + s.mgmt.cmdCode % 256
  else if 0x4000 ≤ off ∧ off < 0x4200 then mgmtWord s (off - 0x4000)
  else 0

/-- A range of BAR0 that a function owns: the command window and the management registers are the PF's (R327, R363). -/
def regOwned (fn off n : Nat) : Bool :=
  decide (off + n ≤ 0x10000) &&
    (fn == 0 || !(decide (off < 0x1108 ∧ 0x1000 < off + n) || decide (off < 0x4200 ∧ 0x4000 < off + n)))

/-- Bytes of BAR0. -/
def regBytes (s : State) (fn off n : Nat) : List Byte :=
  (List.range n).map fun i => BitVec.ofNat 8 (regWord s fn ((off + i) / 8 * 8) / 2 ^ (8 * ((off + i) % 8)))

/-! ## Writing registers -/

/-- The outstanding requests and accesses of a context that an invalidated range concerns (R259). -/
def Dev.concerned (d : Dev) (ctx : Nat) (hit : Nat → Bool) : List Nat :=
  ((d.memops.filter fun o => o.ctx == ctx && o.lanes.any fun a => a.isOpen && hit (a.ea / 4096)).map (·.id)) ++
    (d.remotes.filter fun r => r.ctx == ctx && r.op.isNone).map (·.req)

/-- The `n` pages from a page on meet the range that a function names (R259, Table 12-2). -/
def Fn.invMeets (f : Fn) (page n : Nat) : Bool :=
  f.invLen == 0 || decide (f.invAddr / 4096 < page + n ∧ page < f.invAddr / 4096 + f.invLen)

/-- GO of INVCTL (R259, Table 12-2): ignored while BUSY; the translations that meet the range are dropped. -/
def Dev.startInvalidate (d : Dev) (fn : Nat) : Dev :=
  let f := d.fn fn
  if f.inv.isSome then d
  else
    match d.local? fn f.invIdx with
    | none => d.modFn fn fun f => { f with inv := some [] }
    | some c =>
      let ids := d.concerned c.n fun page => f.invMeets page 1
      let d := d.modFn fn fun f => { f with inv := some ids }
      { d with tlb := d.tlb.filter fun e => !(e.ctx == c.n && f.invMeets (e.vpn * e.size / 4096) (e.size / 4096)) }

/-- A write of INVCTL: IDX is set, also while BUSY; GO starts an invalidation. -/
def Dev.writeInvctl (d : Dev) (fn idx : Nat) (go : Bool) : Dev :=
  let d := d.modFn fn fun f => { f with invIdx := idx % 16 }
  if go then d.startInvalidate fn else d

/-- INVALIDATE (R259, R328): INVCTL is written with GO. -/
def execInvalidate (fn idx : Nat) (s : State) : Host.Outcome State Fault Refusal :=
  hostDev s fun d => if d.unreachable fn ⟨some fn, true⟩ then d else d.writeInvctl fn idx true

/-- INVALIDATE_DONE (R259): the accesses have been performed or discarded. -/
def execInvalidateDone (fn : Nat) (s : State) : Host.Outcome State Fault Refusal :=
  onDev s fun d =>
    match (d.fn fn).inv with
    | none => d
    | some ids =>
      let open_ (i : Nat) : Bool := (d.memops.any fun o => o.id == i && !o.finished) || d.remotes.any (·.req == i)
      if ids.any open_ then d else d.modFn fn fun f => { f with inv := none }

/-- Ones clear EVENT bits (W1C, R9). -/
def Dev.clearEvent (d : Dev) (fn bits : Nat) : Dev := d.modFn fn fun f => { f with event := f.event &&& ~~~(BitVec.ofNat 7 bits) }

/-- EVENT_CLEAR (R9, R328). -/
def execEventClear (fn bits : Nat) (s : State) : Host.Outcome State Fault Refusal :=
  hostDev s fun d => if d.unreachable fn ⟨some fn, true⟩ then d else d.clearEvent fn bits

/-- A die's allowance follows the cap and the controller's cuts; a fall is met at once (R300, R349). -/
def State.setAllowance (s : State) (die : Nat) : State := { s with dev := s.dev.putAllowance die (s.mgmt.dieAllow die) }
def State.setAllowances (s : State) : State := (List.range 4).foldl State.setAllowance s

/-- PWRCAP (R349, R363): a write outside 1,800 to 3,600 is ignored. -/
def State.setCap (s : State) (watts : Nat) : State :=
  if 1800 ≤ watts ∧ watts ≤ 3600 then { s with mgmt := { s.mgmt with watts := watts } }.setAllowances else s

/-- PWRCAP_WRITE (R349). -/
def execPwrcapWrite (watts : Nat) (s : State) : Host.Outcome State Fault Refusal := hostStep s fun s => s.setCap watts

/-- The internal word of an I-cache entry (R88). -/
def IWord.internal (va : Nat) : IWord → BitVec 96
  | .fault c off det => 6#3 ++ 0#1 ++ BitVec.ofNat 8 c ++ BitVec.ofNat 4 off ++ BitVec.ofNat 4 det ++ 0#20 ++ BitVec.ofNat 56 va
  | .word bs =>
    let body (w : Nat) : Nat := leNat bs.reverse % 2 ^ w
    match (bs.head?).bind Class.ofByte with
    | some .a => 0#3 ++ 0#1 ++ BitVec.ofNat 92 (body 31)
    | some .b => 1#3 ++ 0#1 ++ BitVec.ofNat 92 (body 46)
    | some .c => 2#3 ++ 0#1 ++ BitVec.ofNat 92 (body 61)
    | some .d => 3#3 ++ 0#1 ++ BitVec.ofNat 92 (body 92)
    | some .e => 4#3 ++ 0#1 ++ BitVec.ofNat 92 (body 11)
    | some .pad => 5#3 ++ 0#1 ++ 0#92
    | none => 0

/-- A write of IWSEL (R363): with GO the internal word at IWADDR is read; a miss leaves HIT at 0 and fetches nothing. -/
def State.readInternal (s : State) (v : Nat) : State :=
  let core := v / 2 ^ 32 % 1024
  let ctx := v % 256
  let m : Mgmt := { s.mgmt with iwcore := core, iwctx := ctx }
  let m : Mgmt :=
    if Nat.testBit v 63 then
      match s.dev.icached core ctx m.iwaddr with
      | some w => { m with iwhit := true, iwdata := w.internal m.iwaddr }
      | none => { m with iwhit := false, iwdata := 0 }
    else m
  { s with mgmt := m }

/-- IWSEL_READ (R363). -/
def execIwselRead (v : BitVec 64) (s : State) : Host.Outcome State Fault Refusal := hostStep s fun s => s.readInternal v.toNat

/-- RETLOG_CLEAR (R363): VALID is cleared. DESIGN CHOICE (log entry 103): CORE and SPACES then read zero; the spec says only
that the loss is kept until then. -/
def execRetlogClear (s : State) : Host.Outcome State Fault Refusal :=
  hostStep s fun s => { s with mgmt := { s.mgmt with retlog := none } }

/-- A command ends with its status: CMDCTL, CMDDONE (R330). -/
def State.endCommand (s : State) (code status : Nat) : State where
  dev := (s.dev.send (.command code status)).setEvent 0 0
  mgmt := { s.mgmt with cmdBusy := false, cmdGo := none, cmdStatus := status }
  schedule := s.schedule

/-- A write of CMDCTL (R330): CODE is set; GO, unless a command is busy, starts the command. The step of a code's row in
Table 12-3 reads the record and acts; every other code ends with STATUS 1. -/
def State.commandControl (s : State) (v : Nat) : State :=
  let code := v % 256
  let s : State := { s with mgmt := { s.mgmt with cmdCode := code } }
  if !Nat.testBit v 31 || s.mgmt.cmdBusy then s
  else if 1 ≤ code ∧ code ≤ 11 then { s with mgmt := { s.mgmt with cmdBusy := true, cmdGo := some code } }
  else s.endCommand code 1

/-- A write of an 8-byte register of BAR0; read-only and reserved places ignore it (R9). -/
def State.writeReg (s : State) (fn off v : Nat) : State :=
  let onFn (f : Fn → Fn) : State := { s with dev := s.dev.modFn fn f }
  let onMgmt (f : Mgmt → Mgmt) : State := { s with mgmt := f s.mgmt }
  if !regOwned fn off 8 then s
  else if off = 0x100 then onFn fun f => { f with invAddr := v % 2 ^ 56 / 4096 * 4096 }
  else if off = 0x108 then onFn fun f => { f with invLen := v % 2 ^ 36 }
  else if off = 0x110 then { s with dev := s.dev.writeInvctl fn v (Nat.testBit v 31) }
  else if off = 0x120 then { s with dev := s.dev.clearEvent fn v }
  else if off = 0x208 then onFn fun f => { f with log := f.log.map fun g => { g with cons := v } }
  else if 0x1000 ≤ off ∧ off < 0x1100 then onMgmt fun m => { m with cmdRec := cellWrite m.cmdRec (off - 0x1000) (leBytes 8 v) }
  else if off = 0x1100 then s.commandControl v
  else if off = 0x4008 then s.setCap (v % 4096)
  else if off = 0x4030 then onMgmt fun m => { m with brkhalt := Nat.testBit v 0 }
  else if off = 0x4038 then onMgmt fun m => { m with iwaddr := v % 2 ^ 56 }
  else if off = 0x4040 then s.readInternal v
  else if off = 0x4060 then onMgmt fun m => { m with retlog := if Nat.testBit v 63 then none else m.retlog }
  else s

/-- REGISTER_WRITE (R9, R328, R363). -/
def execRegisterWrite (fn off : Nat) (v : BitVec 64) (s : State) : Host.Outcome State Fault Refusal :=
  hostStep s fun s => if s.dev.unreachable fn ⟨some fn, true⟩ then s else s.writeReg fn off v.toNat

/-- A write of `n` bytes within one 8-byte word of BAR0: the bytes beside them keep what they hold; no bit of theirs clears
a W1C field or starts anything (R9). -/
def State.writePart (s : State) (fn off n v : Nat) : State :=
  let word := off / 8 * 8
  let shift := 2 ^ (8 * (off % 8))
  let old := if word = 0x120 ∨ word = 0x4060 then 0 else regWord s fn word % 2 ^ 64
  s.writeReg fn word (old / (shift * 2 ^ (8 * n)) * (shift * 2 ^ (8 * n)) + v % 2 ^ (8 * n) * shift + old % shift)

/-! ## Host accesses (R281, R327) -/

/-- HOST_WRITE (R281, R327): a write outside the function's ranges is dropped. -/
def execHostWrite (fn bar off slot : Nat) (bytes : List Byte) (wire : Wire) (s : State) : Host.Outcome State Fault Refusal :=
  hostStep s fun s =>
    if s.dev.unreachable fn wire then s
    else if bar = 0 then
      (spans 8 off bytes.length).foldl (fun s sp =>
        s.writePart fn sp.va sp.n (leNat ((bytes.drop sp.off).take sp.n))) s
    else
      match s.dev.barSpans fn bar slot bytes.length 0 off bytes.length with
      | none => s
      | some l => { s with dev := s.dev.postWrite fn bytes l }

/-- HOST_READ (R281, R327): a read outside the function's ranges completes with Unsupported Request. -/
def execHostRead (fn bar off slot n : Nat) (wire : Wire) (s : State) : Host.Outcome State Fault Refusal :=
  hostStep s fun s =>
    if s.dev.unreachable fn wire then { s with dev := s.dev.send (.unsupported fn) }
    else if bar = 0 then
      { s with dev := s.dev.send (if regOwned fn off n then .completion fn (regBytes s fn off n) else .unsupported fn) }
    else
      match s.dev.barSpans fn bar slot n 0 off n with
      | none => { s with dev := s.dev.send (.unsupported fn) }
      | some l =>
        match s.dev.readSectors fn l with
        | (d, some bs) => { s with dev := d.send (.completion fn bs) }
        | (d, none) => { s with dev := d.send (.abort fn) }

/-! ## Host memory (R334) -/

/-- HOST_MEMORY_COMPLETION (R334): a Completer Abort raises XLATE; the bytes get fresh checks. -/
def execHostMemoryCompletion (req : Nat) (ok : Bool) (bytes : List Byte) (s : State) : Host.Outcome State Fault Refusal :=
  onDev s fun d =>
    match d.remotes.find? fun r => r.req == req && r.pkg == 1023 with
    | none => d
    | some r => d.endRequest r (if ok then .done r.clock bytes else .failed cXlate)

/-- ATS_INVALIDATE (R334). -/
def execAtsInvalidate (fn page pages : Nat) (s : State) : Host.Outcome State Fault Refusal :=
  onDev s fun d => { d with ats := d.ats.filter fun e => !(e.1 == fn && decide (page ≤ e.2 ∧ e.2 < page + pages)) }

/-- Lanes that wait for the translation of an I/O page fail (R334). -/
def Dev.failPage (d : Dev) (fn page : Nat) : Dev :=
  d.memops.foldl (fun d o =>
    let hit (a : LaneAcc) : Bool := a.st == .waiting && (match a.loc with | .host v => v / 4096 == page | _ => false)
    if (d.ctx? o.ctx).any (·.fn == fn) && (d.opTurn o.wave).map (·.id) == some o.id then
      (o.lanes.filter hit).foldl (fun d a => d.laneFails { o with whole := false } a.lane cXlate) d
    else d) d

/-- Pieces that wait for it meet a fault; the side is that of the box that names the page. A record that waits for it fails
(R194). -/
def Dev.faultPage (d : Dev) (fn page : Nat) : Dev :=
  let at_ (d : Dev) (b : Block) (x : Ctx) (need : Need) (va : Nat) : Bool :=
    match d.jobPlace b.core x va need with | .ok (.host v) => v / 4096 == page | _ => false
  let one (d : Dev) (j : Job) (c : Copy) (b : Block) (x : Ctx) (p : Nat) : Dev :=
    let names (l : Option Layout) (need : Need) : Bool :=
      (sectorRuns (boxRuns l c.coords (c.pieceBytes p))).any fun g => at_ d b x need (runsAt g)
    if names c.readBox needR then d.pieceFault j p cXlate false
    else if names c.writeBox needW then d.pieceFault j p cXlate true
    else d
  let records (d : Dev) (j : Job) (c : Copy) (b : Block) (x : Ctx) : Dev :=
    let first := !j.entered && c.whole.isNone && !(jobsBefore j.id d.jobs).any fun i => i.ctx == j.ctx && !i.entered
    let recs := if c.form.twoBoxes && !d.awaits j.id recPieceA then [(recPieceA, c.recA), (recPieceB, c.recB)]
      else [(recPieceA, c.recA)]
    recs.foldl (fun d r =>
      if first && (c.piece? r.1).isNone && !d.awaits j.id r.1 && at_ d b x needR r.2 then
        d.modCopy j.id fun c => c.setPiece r.1 (.fault cXlate false)
      else d) d
  let waits (st : PieceSt) : Bool := match st with | .issued _ none => true | .again => true | .fill _ => true | _ => false
  d.jobs.foldl (fun d j =>
    match j.copy?, d.block? j.block, d.ctx? j.ctx with
    | some c, some b, some x =>
      if x.fn = fn then
        (c.pieces.filter fun p => waits p.2 && !d.awaits j.id p.1).foldl (fun d p => one d j c b x p.1) (records d j c b x)
      else d
    | _, _, _ => d) d

/-- ATS_TRANSLATION_COMPLETION (R334). -/
def execAtsTranslationCompletion (fn page : Nat) (ok : Bool) (s : State) : Host.Outcome State Fault Refusal :=
  onDev s fun d =>
    let d : Dev := { d with atsAsked := d.atsAsked.filter (· != (fn, page)) }
    if 64 ≤ fn then d
    else if ok then { d with ats := (fn, page) :: d.ats.filter (· != (fn, page)) }
    else (d.failPage fn page).faultPage fn page

end Sys2Proof.Machine
end

