-- ==== Sys2Proof/Machine/Islands.lean ====
section
/-!
DEFINITION. Power, islands and rails, heat, and retention (R349 to R360). What is not listed of an island or rail stands as
phase 1 of bring-up leaves it, at point 3; before that phase has ended, without power (R361; log entry 108).
-/

namespace Sys2Proof.Machine

/-! ## Islands and rails (R351 to R353) -/

/-- The rail of an island (Table 13-2). -/
def railOf (island : Nat) : Nat :=
  if island < 896 then island / 32
  else if island < 928 then 28
  else if island < 960 then 29
  else if island < 1008 then 30 else 31

/-- The islands of a rail (Table 13-2). -/
def railIslands (rail : Nat) : List Nat :=
  if rail < 28 then (List.range 32).map (32 * rail + ·)
  else if rail = 28 then (List.range 32).map (896 + ·)
  else if rail = 29 then (List.range 32).map (928 + ·)
  else if rail = 30 then (List.range 48).map (960 + ·)
  else if rail = 31 then (List.range 16).map (1008 + ·)
  else []

/-- Voltage in mV and largest frequency in MHz of an operating point (Table 13-3). -/
def pointMv (p : Nat) : Nat := 600 + 50 * p
def pointMhz (p : Nat) : Nat := ([600, 1000, 1400, 1800, 2100, 2400][p]?).getD 2400

def Mgmt.island (m : Mgmt) (n : Nat) : Island :=
  (m.islands.find? (·.n == n)).getD (if m.phase < 2 then ⟨n, 0, 0, 0, none⟩ else ⟨n, 3, pointMv 3, pointMhz 3, none⟩)
def Mgmt.rail (m : Mgmt) (n : Nat) : Rail :=
  (m.rails.find? (·.n == n)).getD
    (if m.phase < 2 then ⟨n, 0, 0, .steady, none⟩ else ⟨n, pointMv 3 + 30, pointMv 3 + 30, .steady, none⟩)
def Mgmt.modIsland (m : Mgmt) (n : Nat) (f : Island → Island) : Mgmt :=
  { m with islands := upsert (·.n == n) (m.island n) f m.islands }
def Mgmt.modRail (m : Mgmt) (n : Nat) (f : Rail → Rail) : Mgmt :=
  { m with rails := upsert (·.n == n) (m.rail n) f m.rails }

/-- The target of a rail: the voltage of its highest vote and 30 mV (R352). -/
def Mgmt.railTarget (m : Mgmt) (rail : Nat) : Nat := pointMv (maxOf ((railIslands rail).map fun i => (m.island i).vote)) + 30

/-- A context holds a server at a core's issue-port group or at one of its engines (R353). -/
def Dev.guaranteed (d : Dev) (core : Nat) : Bool :=
  d.servers.any fun s => s.args.point == .port core || s.args.point == .tile core || s.args.point == .table core
    || s.args.point == .select core

/-- An island of a rail that stands at its target begins to rise to its point (R355); one whose clock is stopped does not
(R359). -/
def Mgmt.startRise (m : Mgmt) (now island : Nat) : Mgmt :=
  let i := m.island island
  let r := m.rail (railOf island)
  if r.phase = .steady ∧ r.target ≤ r.mv ∧ i.next = none ∧ 0 < i.mhz ∧ (i.mv < pointMv i.vote ∨ i.mhz < pointMhz i.vote)
  then m.modIsland island fun i => { i with next := some (now + 480) } else m
/-- The islands of a rail that has come to its target rise. -/
def Mgmt.startRises (m : Mgmt) (now rail : Nat) : Mgmt := (railIslands rail).foldl (fun m i => m.startRise now i) m

/-- A rail may stand at a voltage: no island of it is above that less the headroom (R351). -/
def Mgmt.railMay (m : Mgmt) (rail mv : Nat) : Bool := (railIslands rail).all fun i => decide ((m.island i).mv + 30 ≤ mv)

/-- A vote changes (R352, R354, R355): the island lowers its frequency, and its voltage with it; a change that was under way
ends; the rail's target follows its highest vote. -/
def Mgmt.vote (m : Mgmt) (now island point : Nat) : Mgmt :=
  let old := m.island island
  let lower := decide (pointMhz point < old.mhz)
  let m := m.modIsland island fun i => { i with
    vote := point, next := if lower then some (now + 2400) else none
    mv := if lower then i.mv else min i.mv (pointMv point) }
  let rail := railOf island
  let r := m.rail rail
  let target := m.railTarget rail
  let phase : RailPhase :=
    if r.target < target then (if r.mv < target then .rising (now + 1200) else .steady)
    else if target < r.target then
      match r.phase with
      | .holdoff t => .holdoff t
      | .falling t => .falling t
      | _ =>
        if r.mv ≤ target then (if r.mv < target then r.phase else .steady)
        else if (railIslands rail).any (fun i => (m.island i).next.isSome && decide (pointMhz (m.island i).vote < (m.island i).mhz))
        then .lowering (now + 2400) else .holdoff (now + 120000)
    else r.phase
  (m.modRail rail fun r => { r with target := target, phase := phase }).startRises now rail

/-- A change of the management processor alone. -/
def onMgmt (s : State) (f : Mgmt → Mgmt) : Host.Outcome State Fault Refusal := .next { s with mgmt := f s.mgmt }

/-- ISLAND_VOTE (R352, R353): a core with a guaranteed server votes point 5. -/
def execIslandVote (island point : Nat) (s : State) : Host.Outcome State Fault Refusal :=
  onMgmt s fun m =>
    if 1024 ≤ island ∨ 6 ≤ point then m
    else m.vote s.dev.clock island (if decide (island < 896) && s.dev.guaranteed island then 5 else point)

/-- FREQUENCY_CHANGE_DONE (R354): islands whose change has ended run at their point; a lowering rail begins its hold-off. -/
def execFrequencyChangeDone (rail : Nat) (s : State) : Host.Outcome State Fault Refusal :=
  onMgmt s fun m =>
    let now := s.dev.clock
    let lowered (m : Mgmt) (i : Nat) : Mgmt :=
      let x := m.island i
      if decide (pointMhz x.vote < x.mhz) && x.next.any (· ≤ now) then
        m.modIsland i fun x => { x with mhz := pointMhz x.vote, mv := min x.mv (pointMv x.vote), next := none }
      else m
    let m := (railIslands rail).foldl lowered m
    match (m.rail rail).phase with
    | .lowering t => if t ≤ now then m.modRail rail fun r => { r with phase := .holdoff (t + 120000) } else m
    | _ => m

/-- One step of a descent (R354), once no island of the rail is too high for it (R351); at the target its islands may
rise. -/
def Mgmt.fall (m : Mgmt) (rail now : Nat) : Mgmt :=
  let mv := max ((m.rail rail).mv - 10) (m.rail rail).target
  if !m.railMay rail mv then m
  else
    (m.modRail rail fun r =>
      { r with mv := mv, phase := if mv = r.target then .steady else .falling (now + 2400) }).startRises now rail

/-- RAIL_HOLDOFF_EXPIRE (R354): the first step follows at once. -/
def execRailHoldoffExpire (rail : Nat) (s : State) : Host.Outcome State Fault Refusal :=
  onMgmt s fun m =>
    match (m.rail rail).phase with
    | .holdoff t => if t ≤ s.dev.clock then m.fall rail t else m
    | _ => m

/-- RAIL_STEP (R354, R355): 10 mV down or up; at the target its islands may rise. -/
def execRailStep (rail : Nat) (s : State) : Host.Outcome State Fault Refusal :=
  onMgmt s fun m =>
    match (m.rail rail).phase with
    | .falling t => if t ≤ s.dev.clock then m.fall rail t else m
    | .rising t =>
      if t ≤ s.dev.clock then
        let up (r : Rail) : Rail :=
          let mv := min (r.mv + 10) r.target
          { r with mv := mv, phase := if mv = r.target then .steady else .rising (t + 1200) }
        (m.modRail rail up).startRises t rail
      else m
    | _ => m

/-- ISLAND_RISE_STEP (R355): the voltage first, then the frequency. -/
def execIslandRiseStep (island : Nat) (s : State) : Host.Outcome State Fault Refusal :=
  onMgmt s fun m =>
    let i := m.island island
    let now := s.dev.clock
    match i.next with
    | none => m
    | some t =>
      if now < t ∨ pointMhz i.vote < i.mhz ∨ (m.rail (railOf island)).mv < pointMv i.vote + 30 then m
      else if i.mv < pointMv i.vote then
        m.modIsland island fun i =>
          { i with mv := pointMv i.vote, next := if i.mhz < pointMhz i.vote then some (t + 480) else none }
      else m.modIsland island fun i => { i with mhz := pointMhz i.vote, next := none }

/-! ## Current emergencies (R300, R356) -/

/-- A tile engine is evicted in a current emergency: it stops at once and goes DARK (R215, R300). -/
def Dev.darkenTile (d : Dev) (core : Nat) : Dev :=
  let e := d.engine core .tile
  match e.st with
  | .dark => d
  | .waking => d.modEngine core .tile fun e => e.withdraw.darken
  | _ =>
    let d := if e.st = .warm then d.modEngine core .tile Engine.withdraw else d
    let d := d.modEngine core .tile fun e => { e with st := .evicting, forPower := true }
    match d.runningTile core with
    | some (j, o, pos, _, _) => (d.stopTile core j o pos cLeaselost).engineStop core .tile []
    | none => d.engineStop core .tile []

/-- CURRENT_EMERGENCY (R356): clocks stretch for 2 µs at most, EMERG counts, the tile engines that the rail feeds go dark.
Nothing for a number that no rail has (R3). -/
def execCurrentEmergency (rail : Nat) (s : State) : Host.Outcome State Fault Refusal :=
  if 32 ≤ rail then .next s else
  let now := s.dev.clock
  let m := s.mgmt.modRail rail fun r => { r with stretch := some (now + 4800) }
  .next { s with
    dev := if rail < 28 then (railIslands rail).foldl Dev.darkenTile s.dev else s.dev
    mgmt := { m with emerg := (m.emerg + 1) % 2 ^ 32 } }

/-- CLOCK_STRETCH_END (R356): the emergency is over, before its 2 µs or after. -/
def execClockStretchEnd (rail : Nat) (s : State) : Host.Outcome State Fault Refusal :=
  onMgmt s fun m => if 32 ≤ rail then m else m.modRail rail fun r => { r with stretch := none }

/-! ## The power controller (R349, R350, Table 13-1) -/

/-- The largest PASS of a core: the lowest PMAX of its class-0 issue-port servers, else 4 (R46, R287). -/
def Dev.passLimit (d : Dev) (core : Nat) : Nat :=
  ((d.servers.filter fun s => s.args.point == .port core && s.args.cls == 0).map (·.args.pmax)).foldl min 4

/-- The first core that satisfies a condition. -/
def firstCore (p : Nat → Bool) : Option Nat := (List.range 896).find? p

/-- The first action of Table 13-1 that is still possible, on the lowest core it applies to (log entry 63). -/
def State.powerAction (s : State) : State :=
  let d := s.dev
  let free (c : Nat) : Bool := (d.core c).mapped && !d.guaranteed c
  let more (c : Nat) : Bool := (d.core c).mapped && decide (2 * (d.core c).pass ≤ d.passLimit c)
  let faster (c : Nat) : Bool := (d.core c).k.any (1 < ·)
  let higher (c : Nat) : Bool := decide (0 < (s.mgmt.island c).vote)
  let note (m : Mgmt) (a : CtlAction) : Mgmt := { m with actions := a :: m.actions }
  let double (c : Core) : Core := { c with pass := 2 * c.pass }
  match firstCore fun c => free c && (faster c || higher c) with
  | some c => { s with
      dev := d.modCore c fun x => { x with k := x.k.map fun k => max 1 (k - 1) }
      mgmt := note (if higher c then s.mgmt.vote d.clock c ((s.mgmt.island c).vote - 1) else s.mgmt) (.ratio c (faster c) (higher c)) }
  | none =>
    match firstCore fun c => free c && more c with
    | some c => { s with dev := d.modCore c double, mgmt := note s.mgmt (.pass c) }
    | none =>
      match firstCore fun c => d.guaranteed c && more c with
      | some c => { s with dev := d.modCore c double, mgmt := note s.mgmt (.passGuaranteed c) }
      | none =>
        if s.mgmt.cuts < 20 then
          ({ s with mgmt := { (note s.mgmt .allowance) with cuts := s.mgmt.cuts + 1 } } : State).setAllowances
        else s

/-- The last action is undone (R350). -/
def State.powerUndo (s : State) : State :=
  match s.mgmt.actions with
  | [] => s
  | a :: rest =>
    let s : State := { s with mgmt := { s.mgmt with actions := rest } }
    let halve (c : Core) : Core := { c with pass := max 1 (c.pass / 2) }
    match a with
    | .ratio c k vote => { s with
        dev := if k then s.dev.modCore c fun x => { x with k := x.k.map fun k => min 8 (k + 1) } else s.dev
        mgmt := if vote then s.mgmt.vote s.dev.clock c (min 5 ((s.mgmt.island c).vote + 1)) else s.mgmt }
    | .pass c => { s with dev := s.dev.modCore c halve }
    | .passGuaranteed c => { s with dev := s.dev.modCore c halve }
    | .allowance => ({ s with mgmt := { s.mgmt with cuts := s.mgmt.cuts - 1 } } : State).setAllowances

/-- POWER_CONTROL_TICK (R350): every 10 µs the measured power outside the engines is compared with P / 2. -/
def execPowerControlTick (watts : Nat) (s : State) : Host.Outcome State Fault Refusal :=
  let now := s.dev.clock
  if now < s.mgmt.ticked + 24000 then .next s
  else
    let eng := ((List.range 4).map s.dev.reservedPower).sum / 10
    let s : State := { s with mgmt := { s.mgmt with ticked := now, pkgw := watts + eng } }
    .next (if s.mgmt.watts < 2 * watts then s.powerAction else if 40 * watts < 19 * s.mgmt.watts then s.powerUndo else s)

/-! ## Heat (R357, R358) -/

/-- The thresholds of R357. -/
def thermalThreshold (level : Nat) : Nat := 85 + 10 * level

/-- The level of a die: a level in force ends 5 °C below its threshold. -/
def levelOf (now top : Nat) : Nat :=
  maxOf ((List.range 4).filter fun l => l = 0 || decide (thermalThreshold l ≤ top) ||
    (decide (l ≤ now) && decide (thermalThreshold l < top + 5)))

/-- The hottest cores of a report, at most 16 (R358). -/
def hottest : Nat → List (Nat × Nat) → List Nat
  | 0, _ => []
  | n + 1, l =>
    match leastBy (fun x => 1000 - x.2) l with
    | none => []
    | some x => x.1 :: hottest n (l.filter (·.1 != x.1))

/-- A migration request opens (R325, R358): MIGRATE is raised in every wave of every block on its cores. -/
def State.openMigration (s : State) (die : Nat) (temps : List (Nat × Nat)) : State :=
  let cores := hottest 16 (temps.filter fun t => dieOf t.1 == die && decide (thermalThreshold 1 ≤ t.2))
  if cores.isEmpty || s.mgmt.migrations.any (·.die == die) then s
  else
    let d := cores.foldl (fun (d : Dev) c => d.modCore c fun x => { x with migrating := true }) s.dev
    { s with
      dev := (d.blocks.filter fun b => cores.contains b.core).foldl (fun d b => d.raiseBlock b.id cMigrate) d
      mgmt := { s.mgmt with migrations := s.mgmt.migrations ++ [⟨die, cores, s.dev.clock⟩] } }

/-- MIGRATION_CLOSE (R358): the cores have fallen below 90 °C, or 10 ms have passed; while level 1 is in force the next
request follows. -/
def execMigrationClose (die : Nat) (temps : List (Nat × Nat)) (s : State) : Host.Outcome State Fault Refusal :=
  match s.mgmt.migrations.find? (·.die == die) with
  | none => .next s
  | some m =>
    let cool (c : Nat) : Bool := temps.any fun t => t.1 == c && decide (t.2 < 90)
    if m.cores.all cool || decide (m.opened + 24000000 ≤ s.dev.clock) then
      let s : State := { s with
        dev := m.cores.foldl (fun (d : Dev) c => d.modCore c fun x => { x with migrating := false }) s.dev
        mgmt := { s.mgmt with migrations := s.mgmt.migrations.filter (·.die != die) } }
      .next (if 1 ≤ assoc s.mgmt.levels die then s.openMigration die temps else s)
    else .next s

/-! ## Retention (R34, R359, R360) -/

/-- An island stops its clock at 0.45 V (R359), and comes back at its vote's point, as far as its rail has the voltage. -/
def Mgmt.sleepIsland (m : Mgmt) (n : Nat) : Mgmt := m.modIsland n fun i => { i with mv := 450, mhz := 0, next := none }
def Mgmt.wakeIsland (m : Mgmt) (now n : Nat) : Mgmt :=
  let p := maxOf ((List.range 6).filter fun p => decide (p ≤ (m.island n).vote ∧ pointMv p + 30 ≤ (m.rail (railOf n)).mv))
  (m.modIsland n fun i => { i with mv := pointMv p, mhz := pointMhz p, next := none }).startRise now n

/-- A core may enter retention (R359): no resident wave and no pending placement for 50 µs, engines that are dark or can be
darkened, and no guaranteed server, which keeps its island at point 5 (R353). -/
def Dev.mayRetain (d : Dev) (core : Nat) : Bool :=
  let c := d.core core
  let quiet (k : EngKind) : Bool := let e := d.engine core k; e.st == .dark || d.canDarken e
  decide (core < 896) && !c.retention && c.mapped && c.coldTill.isNone && (d.wavesOn core).isEmpty && !d.wanted core
    && !d.guaranteed core
    && decide (c.idle + 120000 ≤ d.clock) && [EngKind.tile, .table, .select].all quiet

/-- RETENTION_ENTER (R359): the engines that are WARM are darkened, the core's island stops. Not before the cores have been
powered and tested and the clock has begun (R361; DESIGN CHOICE, log entry 108). -/
def execRetentionEnter (core : Nat) (s : State) : Host.Outcome State Fault Refusal :=
  if s.mgmt.phase < 4 || !s.dev.mayRetain core then .next s
  else
    let dark (d : Dev) (k : EngKind) : Dev :=
      if (d.engine core k).st == .warm then d.modEngine core k Engine.darken else d
    .next { s with
      dev := ([EngKind.tile, .table, .select].foldl dark s.dev).modCore core fun c => { c with retention := true, wake := none }
      mgmt := s.mgmt.sleepIsland core }

/-- A space is zeroed whole. -/
def Dev.zeroSpace (d : Dev) (core : Nat) (sp : Space) : Dev := d.zeroLoc core sp ⟨0, sp.size⟩

/-- Teams that hold a scratchpad range on a core (R34). -/
def Dev.teamsOn (d : Dev) (core : Nat) : List Team :=
  d.teams.filter fun t => (t.cores.zip t.ranges).any fun x => x.1 == core && x.2.len != 0

/-- Spaces are zeroed after a parity failure: held team ranges are reported (R360). -/
def State.scrubCore (s : State) (core : Nat) (bad : BitVec 4) : State :=
  let spaces := [Space.scratch, .wbuf, .abuf, .acc].zipIdx.filter fun x => bad.getLsbD x.2
  let d := spaces.foldl (fun d x => d.zeroSpace core x.1) s.dev
  let lost := if bad.getLsbD 0 then d.teamsOn core else []
  let waves := (lost.flatMap (·.blocks)).flatMap d.liveWaves
  { s with
    dev := waves.foldl (fun d w => d.raiseAsync w.id cLeaselost) d
    mgmt := if lost.isEmpty || s.mgmt.retlog.isSome then s.mgmt else { s.mgmt with retlog := some (core, 1) } }

/-- RETENTION_EXIT (R359, R360): a core that a placement has woken is back after 2 µs; a failure in control state sends it
through cold reset. -/
def execRetentionExit (core : Nat) (bad : BitVec 4) (control : Bool) (s : State) : Host.Outcome State Fault Refusal :=
  let now := s.dev.clock
  let c := s.dev.core core
  if !c.retention || c.coldTill.isSome || !c.wake.any (· ≤ now) then .next s
  else if control then
    let s := s.scrubCore core 15
    .next { s with dev := s.dev.modCore core fun c => { c with wake := none, coldTill := some (now + 480000) } }
  else
    let s := s.scrubCore core bad
    .next { s with
      dev := s.dev.modCore core fun c => { c with retention := false, wake := none, idle := now }
      mgmt := s.mgmt.wakeIsland now core }

/-- A core after cold reset (R360): its configuration is the reset one; its place in the map, the ways that are assigned to
contexts and a migration request stay. -/
def Core.coldReset (c : Core) (now : Nat) : Core :=
  { Core.reset c.n with
    l1Ways := c.l1Ways, retired := c.retired, mapped := c.mapped, migrating := c.migrating, idle := now }

/-- CORE_COLD_RESET_DONE (R266, R360): the core returns with every space zero and nothing cached. -/
def execCoreColdResetDone (core : Nat) (s : State) : Host.Outcome State Fault Refusal :=
  let now := s.dev.clock
  if !(s.dev.core core).coldTill.any (· ≤ now) then .next s
  else
    let d := s.dev.modCore core fun c => c.coldReset now
    .next { s with
      dev := { d with
        loclines := d.loclines.filter (·.core != core)
        l1 := d.l1.filter (·.core != core)
        icache := d.icache.filter (·.core != core)
        tlb := d.tlb.filter (·.core != core) }
      mgmt := s.mgmt.wakeIsland now core }

end Sys2Proof.Machine
end

