-- ==== Sys2Proof/Machine/Commands.lean ====
section
/-!
DEFINITION. The commands of the physical function (R330, Table 12-3): contexts (R42, R43, R322, R331, R335), servers and
their admission (R249, R251, R283, R288, R292, R395), windows, bindings, pre-emption (R311, R316), keys, partitions,
retirement (R295, R362) and the dirty-page log (R347).
-/

namespace Sys2Proof.Machine

/-- A command may act: its GO has been written, or its step stands for the write of CODE and GO while none is busy (R330; log
entry 82). -/
def Mgmt.mayRun (m : Mgmt) (code : Nat) : Bool := if m.cmdBusy then m.cmdGo == some code else true
/-- CMDCTL holds a command's code. -/
def Mgmt.withCode (m : Mgmt) (code : Nat) : Mgmt := if m.cmdBusy then m else { m with cmdCode := code }

/-- A command of Table 12-3 takes effect whole, or ends with its status and changes nothing (R330). -/
def command (s : State) (code : Nat) (f : State → Except Nat State) : Host.Outcome State Fault Refusal :=
  hostStep s fun s =>
    if !s.mgmt.mayRun code then s
    else
      let s : State := { s with mgmt := s.mgmt.withCode code }
      match f s with
      | .ok t => t.endCommand code 0
      | .error e => s.endCommand code e

/-- A command on the device alone: its first failing condition gives the status. -/
def devCommand (s : State) (code : Nat) (checks : Dev → List (Bool × Nat)) (f : Dev → Dev) : Host.Outcome State Fault Refusal :=
  command s code fun s =>
    match (checks s.dev).find? (·.1) with
    | some c => .error c.2
    | none => .ok { s with dev := f s.dev }

/-- A VF is locked under TDISP (R344). -/
def Dev.locked (d : Dev) (fn : Nat) : Bool := (d.fn fn).tdisp != .unlocked
def Dev.ctxLocked (d : Dev) (ctx : Nat) : Bool := (d.ctx? ctx).any fun c => d.locked c.fn

/-! ## WINDOW (R330, R333) -/

def insertWindow (w : Nat × Range) : List (Nat × Range) → List (Nat × Range)
  | [] => [w]
  | x :: xs => if w.1 < x.1 then w :: x :: xs else x :: insertWindow w xs

/-- WINDOW: a length of 0 removes the window. -/
def execWindow (fn window base len : Nat) (s : State) : Host.Outcome State Fault Refusal :=
  let meets (w : Nat × Range) : Bool := decide (base < w.2.base + w.2.len ∧ w.2.base < base + len)
  devCommand s 4
    (fun d => [
      (decide (64 ≤ fn ∨ 8 ≤ window ∨ base % 2 ^ 21 ≠ 0 ∨ len % 2 ^ 21 ≠ 0) || !mappable base len, 1),
      (d.locked fn, 3),
      (d.fns.any fun f => f.n != fn && f.windows.any meets, 4)])
    fun d => d.modFn fn fun f =>
      let rest := f.windows.filter (·.1 != window)
      { f with windows := if len = 0 then rest else insertWindow (window, ⟨base, len⟩) rest }

/-! ## CTXCREATE and CTXDESTROY (R42, R43, R322, R331, R335) -/

/-- The PAs of the 2,048 pages of a continuation table, by the context's own tables (R322). -/
def Dev.tablePages (d : Dev) (c : Ctx) : List (Option Nat) :=
  (List.range 2048).map fun i =>
    match d.walk c (c.ctab + 4096 * i) with
    | .ok l => if l.pkg.isNone && mappable l.page 4096 && d.inWindows c.fn l.page 4096 then some l.page else none
    | .error _ => none

/-- A page reads zero under a key slot, by events of the device. -/
def Dev.zeroPage (d : Dev) (slot pa : Nat) : Dev :=
  (List.range 32).foldl (fun d i => (d.homeWrite slot none true (.glob (pa + 128 * i)) 0 fun _ => List.replicate 128 0).1) d

/-- The context that CTXCREATE would create (Table 1-6). -/
def Dev.newCtx (d : Dev) (a : CtxArgs) : Ctx where
  n := a.ctx
  fn := a.fn
  idx := ((List.range 16).find? fun i => (d.local? a.fn i).isNone).getD 0
  root := a.root
  ctab := a.ctab
  mbox := a.mbox
  ptag := a.ptag
  cancelUs := a.cancelUs
  atom := a.atom
  allow := a.energy
  energy := 0
  period := d.clock
  spent := 0
  debt := 0
  preempt := none
  stopped := false
  sealKey := d.nextId

/-- Fields of CTXCREATE in their ranges (R42, R322, R331). -/
def Dev.ctxFields (d : Dev) (a : CtxArgs) : Bool :=
  decide (a.ctx < 256 ∧ a.fn < 64 ∧ (a.ctx = 0 → a.fn = 0) ∧ a.root < 2 ^ 48 ∧ a.ctab % 4096 = 0 ∧ a.ctab + 2 ^ 23 ≤ 2 ^ 56)
    && decide (a.ptag < 4096 ∧ a.code < 2 ^ 56 ∧ 1 ≤ a.regs ∧ a.regs ≤ 32 ∧ 1 ≤ a.cancelUs ∧ a.cancelUs ≤ 10000)
    && decide (a.mbox % 16384 = 0 ∧ a.mbox + 16384 ≤ 0x007F00000000)
    && (d.fn a.fn).windows.any fun w => decide (w.2.base ≤ a.mbox ∧ a.mbox + 16384 ≤ w.2.base + w.2.len)

/-- The context is created: its key slot and seal key, its zeroed table, and its resident program for placement. -/
def Dev.createCtx (d : Dev) (a : CtxArgs) (pages : List Nat) : Dev :=
  let c := d.newCtx a
  let d : Dev := { d with
    nextId := d.nextId + 2
    ctxs := d.ctxs ++ [c]
    keys := if d.keys.any (·.1 == a.ctx) then d.keys else d.keys ++ [(a.ctx, d.keyBase + a.ctx)] }
  let d := pages.foldl (fun d p => d.zeroPage a.ctx p) d
  { d with pending := d.pending ++ [.resident (c.sealKey + 1) a.ctx (BitVec.ofNat 64 a.code) a.regs] }

/-- CTXCREATE (R42, R43, R330): until READY no context exists, and the command is not carried out (R361; log entry 82). -/
def execCtxcreate (a : CtxArgs) (s : State) : Host.Outcome State Fault Refusal :=
  if 6 ≤ s.mgmt.phase ∧ !s.mgmt.ready then .next s else
  command s 1 fun s =>
    let d := s.dev
    if !d.ctxFields a then .error 1
    else if d.locked a.fn then .error 3
    else if (d.ctx? a.ctx).isSome || decide (16 ≤ (d.fnCtxs a.fn).length) || decide (0 < (d.fn a.fn).flr) then .error 4
    else
      match (d.tablePages (d.newCtx a)).mapM id with
      | none => .error 1
      | some pages => .ok { s with dev := d.createCtx a pages }

/-- Stores and atomics of a context that have been issued are performed, in their order (R41). The second round performs the
data stores of a `cmpst`. -/
def Dev.drainStores (d : Dev) (ctx : Nat) : Dev :=
  let one (id : Nat) (d : Dev) (lane : Nat) : Dev :=
    match d.op? id with
    | some o =>
      if o.kind = .spill then d.endOp o
      else if o.kind.stores then d.performStore o lane
      else if o.kind.updates then d.performAtomic o lane else d
    | none => d
  (d.memops.filter (·.ctx == ctx)).foldl (fun d o => (List.range 32 ++ List.range 32).foldl (one o.id) d) d

/-- Jobs, collectives, triggers and pending work of contexts are discarded; the other ranks of their collectives get ERR
with CAUSE CANCEL (R345). -/
def Dev.discardWork (d : Dev) (mine : Nat → Bool) : Dev :=
  let jobs := d.jobs.filter fun j => mine j.ctx
  let d := (d.colls.filter fun c => mine c.ctx).foldl (fun d c => d.failColl c cCancel) d
  let d := jobs.foldl (fun d j => d.endJob j.id j.clock) d
  { d with
    triggers := d.triggers.filter fun t => !mine t.ctx
    pending := d.pending.filter fun p => !mine p.ctx
    cores := d.cores.map fun c => { c with fifo := c.fifo.filter fun e => !jobs.any (·.id == e.job) } }

/-- What is left of contexts goes: requests, reports, launches, levels, bindings, tags' homes, translations, and the
contexts themselves. Their key slots keep their keys (R330, R340). An engine that such a context leased last clears its
tables for the next one, be it of the same number (R209). -/
def Dev.dropCtxs (d : Dev) (mine : Nat → Bool) : Dev :=
  { d with
    engines := d.engines.map fun e => if e.lastCtx.any mine then { e with lastCtx := none } else e
    memops := d.memops.filter fun o => !mine o.ctx
    reports := d.reports.filter fun o => !mine o.ctx
    owed := d.owed.filter fun o => !mine o.ctx
    suspRegs := d.suspRegs.filter fun x => !mine x.1
    remotes := d.remotes.filter fun r => !mine r.ctx
    egress := d.egress.filter fun e => !(mine e.ctx && e.port.isNone && e.name.isSome)
    launches := d.launches.filter fun l => !mine l.ctx
    levels := d.levels.filter fun l => !mine l.ctx
    queues := d.queues.filter fun q => !mine q.ctx
    tagHomes := d.tagHomes.filter fun t => !mine t.2
    tlb := d.tlb.filter fun e => !mine e.ctx
    icache := d.icache.filter fun e => !mine e.ctx
    ctxs := d.ctxs.filter fun c => !mine c.n }

/-- A binding's receive buffer is given back with its server (R292). -/
def Dev.flitsOf (d : Dev) (port q t : Nat) : Nat := (q * t + q * (d.port port).rtt + 240 * t - 1) / (240 * t)
def Dev.freeFlits (d : Dev) (s : Server) : Dev :=
  match s.args.point with
  | .eutrix p =>
    if s.args.route.isEmpty then d
    else
      let n := d.flitsOf p (s.quota 0) (s.period 0)
      d.modPort p fun x => { x with reserved := x.reserved - n }
  | _ => d

def isChannel : Point → Bool
  | .chan _ => true
  | _ => false

/-- The ways that a context's servers give it at a core, or in the LLC, are assigned, and those that they no longer give
return to the pool (R249, R251). -/
def Dev.setWays (d : Dev) (ctx : Nat) (p : Point) : Dev :=
  match p with
  | .port c =>
    let n := ((d.server? ctx p).map (·.args.ways)).getD 0
    d.modCore c fun x => { x with l1Ways := assignWays x.l1Ways 8 ctx n }
  | .chan _ =>
    let n := maxOf ((d.servers.filter fun s => s.args.ctx == ctx && isChannel s.args.point).map (·.args.ways))
    { d with llcWays := assignWays d.llcWays 16 ctx n }
  | _ => d

/-- Servers are removed; their flits and ways are given back. -/
def Dev.dropServers (d : Dev) (p : Server → Bool) : Dev :=
  let gone := d.servers.filter p
  let d := gone.foldl Dev.freeFlits d
  let d : Dev := { d with servers := d.servers.filter fun s => !p s }
  gone.foldl (fun d s => d.setWays s.args.ctx s.args.point) d

/-- CTXDESTROY (R330): every block exits by force (R41), the resident program is removed, and the number is free. -/
def execCtxdestroy (ctx : Nat) (s : State) : Host.Outcome State Fault Refusal :=
  devCommand s 2
    (fun d => [((d.ctx? ctx).isNone, 1), (d.ctxLocked ctx, 3)])
    fun d =>
      let mine (n : Nat) : Bool := n == ctx
      let blocks := d.blocks.filter (·.ctx == ctx)
      let d := (blocks.filter (!·.resident)).foldl (fun d b => d.forceExit b.id) d
      let d := d.drainStores ctx
      let d := (blocks.filter (·.resident)).foldl (fun d b => (d.stopWaves b).removeBlock b) d
      let waiting := d.launches.filter (·.ctx == ctx)
      let d := d.discardWork mine
      let d := (d.blocks.filter (·.ctx == ctx)).foldl (fun d b => d.finishBlock b) d
      let d := waiting.foldl (fun d l => (d.markLaunch l.id false true l.time).decLaunch l.id l.count l.time) d
      (d.dropCtxs mine).dropServers (·.args.ctx == ctx)

/-! ## SERVER (R249, R251, R282, R283, R288, R292, R395) -/

/-- A point exists (Table 10-1). -/
def pointOk : Point → Bool
  | .port n | .tile n | .table n | .select n => decide (n < 896)
  | .copy n => decide (n < 4)
  | .coll n => decide (n < 8)
  | .chan n => decide (n < 152)
  | .eutrix n => decide (n < 128)

/-- Cycles that `q` units of a point's budget take, times 1,000 (Table 10-1). -/
def quotaTime (p : Point) (q : Nat) : Rat :=
  match p with
  | .port _ => q
  | .tile _ => 80 * q
  | .table _ => 16 * q
  | .select _ => 64 * q
  | .copy _ => q / 2048
  | .coll _ => q / 256
  | .chan n => if n < 128 then 10 * q / 833 else 10 * q / 267
  | .eutrix _ => q / 50

/-- Utilisation of counter `i` of a server (R283). -/
def ServerUse (a : ServerArgs) (i : Nat) : Rat := quotaTime a.point ((a.q[i]?).getD 0) / ((a.t[i]?).getD 1)

/-- The bounds of R288 at a point that has its capacity. -/
def withinBounds (l : List ServerArgs) (counters : Nat) : Bool :=
  (List.range counters).all fun i =>
    decide (((l.filter (·.cls == 0)).map fun a => ServerUse a i).sum ≤ 1 / 2) && decide ((l.map fun a => ServerUse a i).sum ≤ 9 / 10)

/-- Counters of a point's server: six at an issue-port group (R283). -/
def pointCounters : Point → Nat
  | .port _ => 6
  | _ => 1

/-- The capacity of a point has been retired (R295). -/
def State.pointGone (s : State) : Point → Bool
  | .port n | .tile n | .table n | .select n => !(s.dev.core n).mapped || (s.dev.core n).retired
  | .chan n => s.mgmt.retiredChannels.contains n || s.mgmt.retiring.contains (.channel n)
  | _ => false

/-- Fields of SERVER in their ranges (Table 10-2). -/
def serverFields (a : ServerArgs) : Bool :=
  let n := pointCounters a.point
  decide (a.cls < 2 ∧ a.q.length = n ∧ a.t.length = n ∧ a.route.length ≤ 8)
    && a.q.all (fun q => decide (1 ≤ q ∧ q < 2 ^ 32))
    && a.t.all (fun t => decide (2400 ≤ t ∧ t ≤ 240000000 ∧ t % 240 = 0))
    && (match a.point with
      | .port _ => decide ((a.pmax = 1 ∨ a.pmax = 2 ∨ a.pmax = 4) ∧ a.ways ≤ 2)
      | .chan _ => decide (a.ways ≤ 14)
      | _ => decide (a.ways = 0))
    && (match a.point with | .eutrix _ => a.route.all (· < 128) | _ => a.route.isEmpty)

/-- Ways given out at a core, or in the LLC: one number for each context (R249, R251). -/
def waysSum (l : List ServerArgs) : Nat :=
  (((l.map (·.ctx)).eraseDups).map fun c => maxOf ((l.filter (·.ctx == c)).map (·.ways))).sum

/-- The servers that would stand after a change. -/
def Dev.serversWith (d : Dev) (a : ServerArgs) : List ServerArgs :=
  (d.servers.map (·.args)).filter (fun x => !(x.ctx == a.ctx && x.point == a.point)) ++ [a]

/-- WAYS within R249 and R251. -/
def Dev.waysOk (d : Dev) (a : ServerArgs) : Bool :=
  let l := d.serversWith a
  match a.point with
  | .port _ => decide (waysSum (l.filter (·.point == a.point)) ≤ 6)
  | .chan _ => decide (waysSum (l.filter fun x => isChannel x.point) ≤ 14)
  | _ => true

/-- A binding's flits fit in the receive buffer of its port (R292). -/
def Dev.flitsFit (d : Dev) (a : ServerArgs) : Bool :=
  match a.point with
  | .eutrix p =>
    if a.route.isEmpty then true
    else
      let old := match d.server? a.ctx a.point with
        | some s => if s.args.route.isEmpty then 0 else d.flitsOf p (s.quota 0) (s.period 0)
        | none => 0
      decide ((d.port p).reserved - old + d.flitsOf p ((a.q[0]?).getD 1) ((a.t[0]?).getD 1) ≤ 1024)
  | _ => true

/-- A server is created with b = Q and d = 0 (R284), or changed with d kept and b lowered to the new Q (R395). -/
def Dev.putServer (d : Dev) (a : ServerArgs) : Dev :=
  let d := match d.server? a.ctx a.point with | some s => d.freeFlits s | none => d
  let d := match a.point with
    | .eutrix p =>
      if a.route.isEmpty then d
      else
        let n := d.flitsOf p ((a.q[0]?).getD 1) ((a.t[0]?).getD 1)
        d.modPort p fun x => { x with reserved := x.reserved + n }
    | _ => d
  let new : Server := ⟨a, a.q, a.q.map fun _ => 0, a.q.map fun _ => false⟩
  let change (s : Server) : Server := { s with args := a, b := (s.b.zip a.q).map fun x => min x.1 x.2 }
  let mine (s : Server) : Bool := s.args.ctx == a.ctx && s.args.point == a.point
  ({ d with servers := upsert mine new change d.servers } : Dev).setWays a.ctx a.point

/-- A core in retention is woken (R353, R359). -/
def Dev.rouse (d : Dev) (core : Nat) : Dev :=
  if (d.core core).retention && (d.core core).wake.isNone then d.modCore core fun c => { c with wake := some (d.clock + 4800) }
  else d

/-- A core with a guaranteed issue-port server runs at k = 8 and at a PASS within PMAX; its island votes point 5, and leaves
retention for it (R46, R287, R353). -/
def State.guarantee (s : State) (p : Point) : State :=
  let vote (s : State) (c : Nat) : State := { s with dev := s.dev.rouse c, mgmt := s.mgmt.vote s.dev.clock c 5 }
  match p with
  | .port c =>
    let lim := s.dev.passLimit c
    vote { s with dev := s.dev.modCore c fun x => { x with k := [8, 8, 8, 8, 8, 8], pass := min x.pass lim } } c
  | .tile c => vote s c
  | .table c => vote s c
  | .select c => vote s c
  | _ => s

/-- SERVER (R283, R288): Q = 0 removes. A binding that a package on its route does not accept is refused (R292). -/
def execServer (a : ServerArgs) (s : State) : Host.Outcome State Fault Refusal :=
  command s 3 fun s =>
    let d := s.dev
    let here (x : ServerArgs) : Bool := x.point == a.point
    if !pointOk a.point then .error 1
    else if a.q.all (· == 0) then
      if (d.server? a.ctx a.point).isNone then .error 1
      else .ok { s with dev := d.dropServers fun x => x.args.ctx == a.ctx && x.args.point == a.point }
    else if !serverFields a || ((d.ctx? a.ctx).isNone && (d.server? a.ctx a.point).isNone) then .error 1
    else if isChannel a.point && d.servers.any (fun x => x.args.ctx == a.ctx && isChannel x.args.point
        && x.args.point != a.point && x.args.ways != a.ways) then .error 1
    else if (!a.route.isEmpty && !a.agreed) || s.pointGone a.point || !withinBounds ((d.serversWith a).filter here) (pointCounters a.point) || !d.waysOk a
        || !d.flitsFit a then .error 2
    else .ok (({ s with dev := d.putServer a } : State).guarantee a.point)

/-! ## QBIND (R330, R341) -/

/-- A communicator record is well formed for a context (R341). -/
def commOk (c : Ctx) (r : Comm) : Bool :=
  decide (1 ≤ r.size ∧ r.size ≤ 1023 ∧ r.ranks.length = r.size ∧ r.rank < r.size ∧ 3 ≤ r.vc ∧ r.vc ≤ 15 ∧ r.ptag = c.ptag)
    && r.ranks.all fun x => decide (x.pkg < 1023 ∧ x.engine < 8 ∧ x.ctx < 256)

/-- QBIND: a change or removal discards the queue's unfired triggered operations (R227). -/
def execQbind (ctx queue : Nat) (rec : Option Comm) (s : State) : Host.Outcome State Fault Refusal :=
  devCommand s 5
    (fun d => [
      (decide (16 ≤ queue) || !((d.ctx? ctx).any fun c => rec.all (commOk c)), 1),
      (d.colls.any fun c => c.ctx == ctx && c.q == queue, 4)])
    fun d =>
      { d with
        triggers := d.triggers.filter fun t => !(t.ctx == ctx && t.desc.queue == queue)
        queues := (d.queues.filter fun q => !(q.ctx == ctx && q.q == queue)) ++
          (rec.toList.map fun r => (⟨ctx, queue, r, []⟩ : CollQueue)) }

/-! ## PREEMPT and RELEASE (R311, R315, R316) -/

/-- The contexts of a target: one context, or every context of a VF. -/
def Dev.targets (d : Dev) : PreTarget → List Ctx
  | .ctx n => d.ctxs.filter (·.n == n)
  | .fn n => if n = 0 then [] else d.fnCtxs n

/-- The header of a save area is initialised (Table 11-3). -/
def Dev.openArea (d : Dev) (ctx area : Nat) : Dev :=
  let bs := leBytes 8 0 ++ leBytes 8 256 ++ List.replicate 240 0
  d.owe ctx ((List.range 8).map fun i => (area + 32 * i, 0, .bytes ((bs.drop (32 * i)).take 32)))

/-- PREEMPT (R311): the budget runs, PREEMPT is raised in every placed block, and the resident programs are parked. -/
def execPreempt (t : PreTarget) (budget area len : Nat) (s : State) : Host.Outcome State Fault Refusal :=
  devCommand s 6
    (fun d => [
      (decide (budget = 0 ∨ 2 ^ 24 < budget ∨ area % 256 ≠ 0 ∨ len < 256 ∨ 2 ^ 56 < area + len) || (d.targets t).isEmpty, 1),
      ((d.targets t).any fun c => c.preempt.isSome || c.stopped, 4)])
    fun d =>
      let ids := (d.targets t).map (·.n)
      let p : Preempt := ⟨d.clock + budget, area, len, 0, 256, 0, t, false⟩
      let d := ids.foldl (fun (d : Dev) n => d.modCtx n fun c => { c with preempt := some p }) d
      let d := ids.foldl (fun d n => d.openArea n area) d
      let d := (d.blocks.filter fun b => ids.contains b.ctx && !b.resident).foldl (fun d b => d.raiseBlock b.id cPreempt) d
      match ids with
      | n :: _ => d.tellPreempt n
      | [] => d

/-- RELEASE (R316): nothing is resumed by itself. A block that a forced save has stopped and not begun to write goes on
(DEDUCED, log entry 106). -/
def execRelease (t : PreTarget) (s : State) : Host.Outcome State Fault Refusal :=
  let held (c : Ctx) : Bool := c.preempt.any fun p => p.target == t
  devCommand s 7 (fun d => [(!d.ctxs.any held, 1)])
    fun d =>
      let ids := (d.ctxs.filter held).map (·.n)
      { d with
        ctxs := modIf held (fun c => { c with preempt := none }) d.ctxs
        blocks := modIf (fun b => ids.contains b.ctx && b.susp == some .forced) (fun b => { b with susp := none }) d.blocks }

/-! ## KEYROT and PARTSET (R335, R340) -/

/-- KEYROT (R318, R335): lines under the old key are written back with it. -/
def execKeyrot (ctx : Nat) (s : State) : Host.Outcome State Fault Refusal :=
  devCommand s 8
    (fun d => [
      (ctx == 0 || (d.ctx? ctx).isNone, 1),
      (d.ctxLocked ctx, 3),
      (d.blocks.any fun b => b.ctx == ctx && !b.resident, 4)])
    fun d =>
      let k := d.nextId
      let d : Dev := { d with nextId := k + 2, keys := assocPut d.keys ctx k }
      let d := d.modCtx ctx fun c => { c with sealKey := k + 1 }
      let d := (d.llc.filter (·.slot == ctx)).foldl Dev.evictLine d
      { d with l1 := d.l1.filter (·.slot != ctx) }

/-- PARTSET (R340). -/
def execPartset (a : PartArgs) (s : State) : Host.Outcome State Fault Refusal :=
  match a with
  | .port p allowed =>
    devCommand s 9 (fun _ => [(decide (128 ≤ p) || allowed.any (4096 ≤ ·), 1)])
      fun d => d.modPort p fun x => { x with allowed := allowed.eraseDups }
  | .tag t none =>
    devCommand s 9
      (fun d => [(decide (4096 ≤ t), 1), ((d.homeOf t).any fun c => d.locked c.fn, 3)])
      fun d => { d with tagHomes := d.tagHomes.filter (·.1 != t) }
  | .tag t (some c) =>
    devCommand s 9
      (fun d => [
        (decide (4096 ≤ t) || !(d.ctx? c).any (·.ptag == t), 1),
        ((d.homeOf t).any (fun c => d.locked c.fn) || d.ctxLocked c, 3)])
      fun d => { d with tagHomes := assocPut d.tagHomes t c }

/-! ## RETIRE (R295, R362) -/

/-- RETIRE: a core takes no further work at once; the command stays busy until RETIRE_COMPLETE, and its GO has been acted
on. -/
def execRetire (a : RetireArgs) (s : State) : Host.Outcome State Fault Refusal :=
  hostStep s fun s =>
    let bad := match a with
      | .core n => decide (896 ≤ n) || !(s.dev.core n).mapped
      | .channel n => decide (152 ≤ n) || s.mgmt.retiredChannels.contains n
    if !s.mgmt.mayRun 10 then s
    else
      let s : State := { s with mgmt := s.mgmt.withCode 10 }
      if bad then s.endCommand 10 1
      else
        { s with
          dev := match a with | .core n => s.dev.modCore n fun c => { c with retired := true } | .channel _ => s.dev
          mgmt := { s.mgmt with cmdBusy := true, cmdGo := none, retiring := [a] } }

/-- A withdrawn server's guarantee ends (R295): GUARANTEE in every live wave of its context, EVENT.GUARANTEE of its
function. -/
def Dev.tellWithdrawn (d : Dev) (ctx : Nat) : Dev :=
  let d := (d.blocks.filter (·.ctx == ctx)).foldl (fun d b => d.raiseBlock b.id cGuarantee) d
  match d.ctx? ctx with
  | some c => d.setEvent c.fn 3
  | none => d

/-- Retired capacity carries no server: at its points the bounds hold only when every one is withdrawn. -/
def Dev.withdraw (d : Dev) (at_ : Point → Bool) : Dev :=
  let gone := d.servers.filter fun s => at_ s.args.point
  let ctxs := (gone.map (·.args.ctx)).eraseDups
  ctxs.foldl Dev.tellWithdrawn (d.dropServers fun s => at_ s.args.point)

/-- RETIRE_COMPLETE (R295, R362): no block remains on the core; its bit in CMAP clears. -/
def execRetireComplete (a : RetireArgs) (s : State) : Host.Outcome State Fault Refusal :=
  if !s.mgmt.retiring.contains a then .next s
  else
    let m : Mgmt := { s.mgmt with retiring := s.mgmt.retiring.filter (· != a) }
    match a with
    | .core n =>
      if s.dev.blocks.any (·.core == n) then .next s
      else
        let d := s.dev.modCore n fun c => { c with mapped := false }
        let at_ (p : Point) : Bool := p == .port n || p == .tile n || p == .table n || p == .select n
        .next (({ s with dev := d.withdraw at_, mgmt := m } : State).endCommand 10 0)
    | .channel n =>
      let m : Mgmt := { m with retiredChannels := n :: m.retiredChannels }
      .next (({ s with dev := s.dev.withdraw (· == .chan n), mgmt := m } : State).endCommand 10 0)

/-! ## LOGSET and codes without a command (R330, R347) -/

/-- LOGSET: a ring starts with an empty bitmap and indices 0; 0 stops. -/
def execLogset (fn iova : Nat) (s : State) : Host.Outcome State Fault Refusal :=
  devCommand s 11 (fun _ => [(decide (64 ≤ fn), 1)])
    fun d => d.modFn fn fun f => { f with log := if iova = 0 then none else some ⟨iova, [], false, 0, 0, 0⟩ }

/-- UNKNOWN_COMMAND (R330): a code without a row in Table 12-3; a code that has one is no such command. -/
def execUnknownCommand (code : Nat) (s : State) : Host.Outcome State Fault Refusal :=
  if 1 ≤ code % 256 ∧ code % 256 ≤ 11 then .next s else command s (code % 256) fun _ => .error 1

end Sys2Proof.Machine
end

