-- ==== Sys2Proof/Machine/CrossLane.lean ====
section
/-!
DEFINITION. Cross-lane instructions (05: R168 to R174).
-/

namespace Sys2Proof.Machine

/-- A lane that is read by name: its value if it lies in the gang, zero otherwise (R168). -/
def LaneView.named (x : LaneView) (a : VReg) (k : Nat) : Lane := if x.k.lanes.getLsbD k then x.rd1 a k else 0

/-- A cross-lane instruction with a lane result (R168): `f` gives lane l's result. -/
def crossLane (s : State) (regs : List Nat) (g : Guard) (d : VReg) (f : LaneView → Nat → Lane) :
    Host.Outcome State Fault Refusal :=
  laneInstr s 6 regs g fun x w => w.setLanes x.act d.toNat (f x)

/-- The active lanes' values in lane order. -/
def LaneView.values (x : LaneView) (a : VReg) : List Lane := (lanesOf x.act).map (x.rd1 a)
/-- Those of the lanes up to l. -/
def LaneView.prefix_ (x : LaneView) (a : VReg) (l : Nat) : List Lane := ((lanesOf x.act).filter (· ≤ l)).map (x.rd1 a)

/-- A lane's own value where the named lane lies outside 0 to 31 (R169). -/
def LaneView.shift (x : LaneView) (a : VReg) (l : Nat) (k : Int) : Lane :=
  if 0 ≤ k ∧ k < 32 then x.named a k.toNat else x.rd1 a l

/-- R169. -/
def execShflIdx (g : Guard) (d a b : VReg) (s : State) : Host.Outcome State Fault Refusal :=
  crossLane s [d.toNat, a.toNat, b.toNat] g d fun x l => x.named a ((x.rd1 b l).toNat % 32)
/-- R169. -/
def execShflXor (g : Guard) (d a : VReg) (n : BitVec 8) (s : State) : Host.Outcome State Fault Refusal :=
  crossLane s [d.toNat, a.toNat] g d fun x l => x.named a (Nat.xor l n.toNat)
/-- R169. -/
def execShflUp (g : Guard) (d a : VReg) (n : BitVec 8) (s : State) : Host.Outcome State Fault Refusal :=
  crossLane s [d.toNat, a.toNat] g d fun x l => x.shift a l ((l : Int) - n.toNat)
/-- R169. -/
def execShflDn (g : Guard) (d a : VReg) (n : BitVec 8) (s : State) : Host.Outcome State Fault Refusal :=
  crossLane s [d.toNat, a.toNat] g d fun x l => x.shift a l ((l : Int) + n.toNat)
/-- R170. -/
def execBcast (g : Guard) (d a : VReg) (k : BitVec 8) (s : State) : Host.Outcome State Fault Refusal :=
  crossLane s [d.toNat, a.toNat] g d fun x _ => x.named a k.toNat
/-- R171. -/
def execVoteAny (g : Guard) (d a : MReg) (s : State) : Host.Outcome State Fault Refusal :=
  laneCmp s 6 [] g d fun x _ => x.k.wave.mask a &&& x.act != 0
/-- R171. -/
def execVoteAll (g : Guard) (d a : MReg) (s : State) : Host.Outcome State Fault Refusal :=
  laneCmp s 6 [] g d fun x _ => x.k.wave.mask a &&& x.act == x.act
/-- R171. -/
def execVoteBallot (g : Guard) (d : VReg) (a : MReg) (s : State) : Host.Outcome State Fault Refusal :=
  crossLane s [d.toNat] g d fun x _ => x.k.wave.mask a &&& x.act
/-- R172. -/
def execRedAddI (g : Guard) (d a : VReg) (s : State) : Host.Outcome State Fault Refusal :=
  crossLane s [d.toNat, a.toNat] g d fun x _ => (x.values a).foldl (· + ·) 0
/-- R172. -/
def execRedAddF32 (g : Guard) (d a : VReg) (s : State) : Host.Outcome State Fault Refusal :=
  crossLane s [d.toNat, a.toNat] g d fun x _ => sumFp ((x.values a).map dec32)
/-- R172. -/
def execRedMin (g : Guard) (d a : VReg) (s : State) : Host.Outcome State Fault Refusal :=
  crossLane s [d.toNat, a.toNat] g d fun x _ => (x.values a).foldl (fun p q => if q.slt p then q else p) 0x7FFFFFFF
/-- R172. -/
def execRedMax (g : Guard) (d a : VReg) (s : State) : Host.Outcome State Fault Refusal :=
  crossLane s [d.toNat, a.toNat] g d fun x _ => (x.values a).foldl (fun p q => if p.slt q then q else p) 0x80000000
/-- R172. -/
def execScanAddI (g : Guard) (d a : VReg) (s : State) : Host.Outcome State Fault Refusal :=
  crossLane s [d.toNat, a.toNat] g d fun x l => (x.prefix_ a l).foldl (· + ·) 0
/-- R172. -/
def execScanAddF32 (g : Guard) (d a : VReg) (s : State) : Host.Outcome State Fault Refusal :=
  crossLane s [d.toNat, a.toNat] g d fun x l => sumFp ((x.prefix_ a l).map dec32)
/-- R173. -/
def execMatchLanes (g : Guard) (d a : VReg) (s : State) : Host.Outcome State Fault Refusal :=
  crossLane s [d.toNat, a.toNat] g d fun x l =>
    lane32 ((lanesOf x.act).foldl (fun n k => if x.rd1 a k = x.rd1 a l then n + 2 ^ k else n) 0)
/-- R174. -/
def execBscale (g : Guard) (d a : VReg) (f : BitVec 8) (s : State) : Host.Outcome State Fault Refusal :=
  crossLane s [d.toNat, a.toNat] g d fun x _ => lane32 (blockScale f.toNat (x.values a))

end Sys2Proof.Machine
end

