-- ==== Sys2Proof/Machine/LaneFloat.lean ====
section
/-!
DEFINITION. FP32 and packed lane arithmetic and conversions (05: R155 to R167).
-/

namespace Sys2Proof.Machine

/-- R155. -/
def execFadd (r : Rnd) (g : Guard) (d a b : VReg) (s : State) : Host.Outcome State Fault Refusal :=
  lane2 s g d a b (fadd r)
/-- R155. -/
def execFsub (r : Rnd) (g : Guard) (d a b : VReg) (s : State) : Host.Outcome State Fault Refusal :=
  lane2 s g d a b (fsub r)
/-- R155. -/
def execFmul (r : Rnd) (g : Guard) (d a b : VReg) (s : State) : Host.Outcome State Fault Refusal :=
  lane2 s g d a b (fmul r)
/-- R155. -/
def execFma (r : Rnd) (g : Guard) (d a b c : VReg) (s : State) : Host.Outcome State Fault Refusal :=
  lane3 s g d a b c (fma r)
/-- R156. -/
def execFmin (g : Guard) (d a b : VReg) (s : State) : Host.Outcome State Fault Refusal :=
  lane2 s g d a b (fminmax false false)
/-- R156. -/
def execFmax (g : Guard) (d a b : VReg) (s : State) : Host.Outcome State Fault Refusal :=
  lane2 s g d a b (fminmax true false)
/-- R156. -/
def execFminn (g : Guard) (d a b : VReg) (s : State) : Host.Outcome State Fault Refusal :=
  lane2 s g d a b (fminmax false true)
/-- R156. -/
def execFmaxn (g : Guard) (d a b : VReg) (s : State) : Host.Outcome State Fault Refusal :=
  lane2 s g d a b (fminmax true true)
/-- R157. -/
def execFabs (g : Guard) (d a : VReg) (s : State) : Host.Outcome State Fault Refusal :=
  lane1 s g d a fabsLane
/-- R157. -/
def execFneg (g : Guard) (d a : VReg) (s : State) : Host.Outcome State Fault Refusal :=
  lane1 s g d a fnegLane
/-- R159. -/
def execFfloor (g : Guard) (d a : VReg) (s : State) : Host.Outcome State Fault Refusal :=
  lane1 s g d a (fintegral .rdn)
/-- R159. -/
def execFceil (g : Guard) (d a : VReg) (s : State) : Host.Outcome State Fault Refusal :=
  lane1 s g d a (fintegral .rup)
/-- R159. -/
def execFtrunc (g : Guard) (d a : VReg) (s : State) : Host.Outcome State Fault Refusal :=
  lane1 s g d a (fintegral .rtz)
/-- R159. -/
def execFrnd (g : Guard) (d a : VReg) (s : State) : Host.Outcome State Fault Refusal :=
  lane1 s g d a (fintegral .rne)
/-- R159. -/
def execFclass (g : Guard) (d a : VReg) (s : State) : Host.Outcome State Fault Refusal :=
  lane1 s g d a fclassLane
/-- R160. -/
def execFsqrtRne (g : Guard) (d a : VReg) (s : State) : Host.Outcome State Fault Refusal :=
  lane1 s g d a fsqrtLane
/-- R160. -/
def execFrcp (g : Guard) (d a : VReg) (s : State) : Host.Outcome State Fault Refusal :=
  lane1 s g d a frcpLane
/-- R160. -/
def execFrsq (g : Guard) (d a : VReg) (s : State) : Host.Outcome State Fault Refusal :=
  lane1 s g d a frsqLane
/-- R160. -/
def execFexp2 (g : Guard) (d a : VReg) (s : State) : Host.Outcome State Fault Refusal :=
  lane1 s g d a fexp2Lane
/-- R160. -/
def execFlog2 (g : Guard) (d a : VReg) (s : State) : Host.Outcome State Fault Refusal :=
  lane1 s g d a flog2Lane
/-- R160. -/
def execFsinpi (g : Guard) (d a : VReg) (s : State) : Host.Outcome State Fault Refusal :=
  lane1 s g d a fsinpiLane
/-- R160. -/
def execFcospi (g : Guard) (d a : VReg) (s : State) : Host.Outcome State Fault Refusal :=
  lane1 s g d a fcospiLane
/-- R158. -/
def execFcmp (cc : FCmp) (g : Guard) (d : MReg) (a b : VReg) (s : State) : Host.Outcome State Fault Refusal :=
  laneCmp s 6 [a.toNat, b.toNat] g d fun x l => fcmpHolds cc (x.rd1 a l) (x.rd1 b l)
/-- R160. -/
def execFdivRne (g : Guard) (d a b : VReg) (s : State) : Host.Outcome State Fault Refusal :=
  lane2 s g d a b fdivLane
/-- R161. -/
def execHadd2 (h : Half) (g : Guard) (d a b : VReg) (s : State) : Host.Outcome State Fault Refusal :=
  lane2 s g d a b (hadd2 h)
/-- R161. -/
def execHmul2 (h : Half) (g : Guard) (d a b : VReg) (s : State) : Host.Outcome State Fault Refusal :=
  lane2 s g d a b (hmul2 h)
/-- R161. -/
def execHfma2 (h : Half) (g : Guard) (d a b c : VReg) (s : State) : Host.Outcome State Fault Refusal :=
  lane3 s g d a b c (hfma2 h)
/-- R163. -/
def execCvtI32F32 (r : Rnd) (g : Guard) (d a : VReg) (s : State) : Host.Outcome State Fault Refusal :=
  lane1 s g d a (cvtI32 r)
/-- R163. -/
def execCvtN32F32 (r : Rnd) (g : Guard) (d a : VReg) (s : State) : Host.Outcome State Fault Refusal :=
  lane1 s g d a (cvtN32 r)
/-- R164. -/
def execCvtF32I32 (r : Rnd) (g : Guard) (d a : VReg) (s : State) : Host.Outcome State Fault Refusal :=
  lane1 s g d a fun x => cvtFromInt r x.toInt
/-- R164. -/
def execCvtF32N32 (r : Rnd) (g : Guard) (d a : VReg) (s : State) : Host.Outcome State Fault Refusal :=
  lane1 s g d a fun x => cvtFromInt r x.toNat
/-- R165. -/
def execCvtBf16F32 (tz : Bool) (g : Guard) (d a : VReg) (s : State) : Host.Outcome State Fault Refusal :=
  lane1 s g d a (cvt16 bf16 tz)
/-- R165. -/
def execCvtF16F32 (tz : Bool) (g : Guard) (d a : VReg) (s : State) : Host.Outcome State Fault Refusal :=
  lane1 s g d a (cvt16 fp16 tz)
/-- R166. -/
def execCvtE4m3F32 (nan : Bool) (g : Guard) (d a : VReg) (s : State) : Host.Outcome State Fault Refusal :=
  lane1 s g d a (cvtE4m3 nan)
/-- R166. -/
def execCvtE5m2F32 (inf : Bool) (g : Guard) (d a : VReg) (s : State) : Host.Outcome State Fault Refusal :=
  lane1 s g d a (cvtE5m2 inf)
/-- R166. -/
def execCvtE2m1F32 (g : Guard) (d a : VReg) (s : State) : Host.Outcome State Fault Refusal :=
  lane1 s g d a cvtE2m1
/-- R167. -/
def execCvtF32Bf16 (g : Guard) (d a : VReg) (s : State) : Host.Outcome State Fault Refusal :=
  lane1 s g d a (cvtFrom bf16)
/-- R167. -/
def execCvtF32F16 (g : Guard) (d a : VReg) (s : State) : Host.Outcome State Fault Refusal :=
  lane1 s g d a (cvtFrom fp16)
/-- R167. -/
def execCvtF32E4m3 (g : Guard) (d a : VReg) (s : State) : Host.Outcome State Fault Refusal :=
  lane1 s g d a (cvtFrom e4m3)
/-- R167. -/
def execCvtF32E5m2 (g : Guard) (d a : VReg) (s : State) : Host.Outcome State Fault Refusal :=
  lane1 s g d a (cvtFrom e5m2)
/-- R167. -/
def execCvtF32E2m1 (g : Guard) (d a : VReg) (s : State) : Host.Outcome State Fault Refusal :=
  lane1 s g d a (cvtFrom e2m1)

end Sys2Proof.Machine
end

