-- ==== Sys2Proof/Machine/LaneInt.lean ====
section
/-!
DEFINITION. Integer lane arithmetic, 64-bit lanes, selects, compares and the immediate forms (05: R150 to R154; 06: R190).
-/

namespace Sys2Proof.Machine

/-- The amount of a lane shift: b[4:0] (R151). -/
def lamount (b : Lane) : Nat := b.toNat % 32
/-- One bits, leading zeros and bit reversal of a lane (Table 5-2). -/
def popcLane (x : Lane) : Lane := lane32 ((List.range 32).filter (x.getLsbD ·)).length
def clzLane (x : Lane) : Lane := lane32 (32 - bitLen x.toNat)
def brevLane (x : Lane) : Lane := x.reverse
/-- A bit field of a lane: bits above 31 read as zero (R151). -/
def bfField (x : Lane) (pos len : Nat) : Nat := x.toNat / 2 ^ pos % 2 ^ len
def bfeN (pos len : Nat) (x : Lane) : Lane := lane32 (bfField x pos len)
def bfeI (pos len : Nat) (x : Lane) : Lane :=
  let f := bfField x pos len
  if 2 ^ (len - 1) ≤ f then BitVec.ofInt 32 (f - 2 ^ len) else lane32 f
def bfiMask (pos len : Nat) : Lane := lane32 ((2 ^ len - 1) * 2 ^ pos)
/-- Sum of the four byte products (R154). -/
def dp4 (ext : BitVec 8 → Lane) (a b c : Lane) : Lane :=
  (List.range 4).foldl (fun x i => x + ext (a.extractLsb' (8 * i) 8) * ext (b.extractLsb' (8 * i) 8)) c

/-- R150: a + b. -/
def execIadd (g : Guard) (d a b : VReg) (s : State) : Host.Outcome State Fault Refusal :=
  lane2 s g d a b fun x y => x + y
/-- R150: a - b. -/
def execIsub (g : Guard) (d a b : VReg) (s : State) : Host.Outcome State Fault Refusal :=
  lane2 s g d a b fun x y => x - y
/-- R150: a × b. -/
def execImul (g : Guard) (d a b : VReg) (s : State) : Host.Outcome State Fault Refusal :=
  lane2 s g d a b fun x y => x * y
/-- R150: high half, signed. -/
def execImulhI (g : Guard) (d a b : VReg) (s : State) : Host.Outcome State Fault Refusal :=
  lane2 s g d a b fun x y => (x.signExtend 64 * y.signExtend 64).extractLsb' 32 32
/-- R150: high half, unsigned. -/
def execImulhN (g : Guard) (d a b : VReg) (s : State) : Host.Outcome State Fault Refusal :=
  lane2 s g d a b fun x y => (x.zeroExtend 64 * y.zeroExtend 64).extractLsb' 32 32
/-- R150: smaller, signed. -/
def execIminI (g : Guard) (d a b : VReg) (s : State) : Host.Outcome State Fault Refusal :=
  lane2 s g d a b fun x y => if y.slt x then y else x
/-- R150: smaller, unsigned. -/
def execIminN (g : Guard) (d a b : VReg) (s : State) : Host.Outcome State Fault Refusal :=
  lane2 s g d a b fun x y => if y.ult x then y else x
/-- R150: larger, signed. -/
def execImaxI (g : Guard) (d a b : VReg) (s : State) : Host.Outcome State Fault Refusal :=
  lane2 s g d a b fun x y => if x.slt y then y else x
/-- R150: larger, unsigned. -/
def execImaxN (g : Guard) (d a b : VReg) (s : State) : Host.Outcome State Fault Refusal :=
  lane2 s g d a b fun x y => if x.ult y then y else x
/-- R150: a AND b. -/
def execLaneAnd (g : Guard) (d a b : VReg) (s : State) : Host.Outcome State Fault Refusal :=
  lane2 s g d a b fun x y => x &&& y
/-- R150: a OR b. -/
def execLaneOr (g : Guard) (d a b : VReg) (s : State) : Host.Outcome State Fault Refusal :=
  lane2 s g d a b fun x y => x ||| y
/-- R150: a XOR b. -/
def execLaneXor (g : Guard) (d a b : VReg) (s : State) : Host.Outcome State Fault Refusal :=
  lane2 s g d a b fun x y => x ^^^ y
/-- R150: a AND NOT b. -/
def execLaneAndn (g : Guard) (d a b : VReg) (s : State) : Host.Outcome State Fault Refusal :=
  lane2 s g d a b fun x y => x &&& ~~~y
/-- R150. -/
def execImad (g : Guard) (d a b c : VReg) (s : State) : Host.Outcome State Fault Refusal :=
  lane3 s g d a b c fun x y z => x * y + z
/-- R150. -/
def execIabs (g : Guard) (d a : VReg) (s : State) : Host.Outcome State Fault Refusal :=
  lane1 s g d a fun x => if x.getLsbD 31 then -x else x
/-- R150. -/
def execIneg (g : Guard) (d a : VReg) (s : State) : Host.Outcome State Fault Refusal :=
  lane1 s g d a fun x => -x
/-- R150. -/
def execNot (g : Guard) (d a : VReg) (s : State) : Host.Outcome State Fault Refusal :=
  lane1 s g d a fun x => ~~~x
/-- R150. -/
def execLanePopc (g : Guard) (d a : VReg) (s : State) : Host.Outcome State Fault Refusal :=
  lane1 s g d a fun x => popcLane x
/-- R150. -/
def execLaneClz (g : Guard) (d a : VReg) (s : State) : Host.Outcome State Fault Refusal :=
  lane1 s g d a fun x => clzLane x
/-- R150. -/
def execBrev (g : Guard) (d a : VReg) (s : State) : Host.Outcome State Fault Refusal :=
  lane1 s g d a fun x => brevLane x
/-- R151. -/
def execLaneShl (g : Guard) (d a b : VReg) (s : State) : Host.Outcome State Fault Refusal :=
  lane2 s g d a b fun x y => x <<< lamount y
/-- R151. -/
def execLaneShrI (g : Guard) (d a b : VReg) (s : State) : Host.Outcome State Fault Refusal :=
  lane2 s g d a b fun x y => x.sshiftRight (lamount y)
/-- R151. -/
def execLaneShrN (g : Guard) (d a b : VReg) (s : State) : Host.Outcome State Fault Refusal :=
  lane2 s g d a b fun x y => x >>> lamount y
/-- R151. -/
def execLaneRot (g : Guard) (d a b : VReg) (s : State) : Host.Outcome State Fault Refusal :=
  lane2 s g d a b fun x y => x.rotateLeft (lamount y)
/-- R151. -/
def execBfeI (g : Guard) (d a : VReg) (pos len : BitVec 8) (s : State) : Host.Outcome State Fault Refusal :=
  lane1 s g d a (bfeI pos.toNat len.toNat)
/-- R151. -/
def execBfeN (g : Guard) (d a : VReg) (pos len : BitVec 8) (s : State) : Host.Outcome State Fault Refusal :=
  lane1 s g d a (bfeN pos.toNat len.toNat)
/-- R151: reads vD as a source. -/
def execBfi (g : Guard) (d a : VReg) (pos len : BitVec 8) (s : State) : Host.Outcome State Fault Refusal :=
  lane2 s g d d a fun x y =>
    let k := bfiMask pos.toNat len.toNat
    (x &&& ~~~k) ||| ((y <<< pos.toNat) &&& k)
/-- R152. -/
def execLaneSel (g : Guard) (d a b : VReg) (c : MReg) (s : State) : Host.Outcome State Fault Refusal :=
  laneInstr s 6 [d.toNat, a.toNat, b.toNat] g fun x w =>
    w.setLanes x.act d.toNat fun l => if (x.k.wave.mask c).getLsbD l then x.rd1 a l else x.rd1 b l
/-- R153. -/
def execIcmp (cc : ICmp) (g : Guard) (d : MReg) (a b : VReg) (s : State) : Host.Outcome State Fault Refusal :=
  laneCmp s 6 [a.toNat, b.toNat] g d fun x l => icmpHolds cc (x.rd1 a l) (x.rd1 b l)
/-- R154. -/
def execDp4I (g : Guard) (d a b c : VReg) (s : State) : Host.Outcome State Fault Refusal :=
  lane3 s g d a b c (dp4 (·.signExtend 32))
/-- R154. -/
def execDp4N (g : Guard) (d a b c : VReg) (s : State) : Host.Outcome State Fault Refusal :=
  lane3 s g d a b c (dp4 (·.zeroExtend 32))
/-- R154. -/
def execAdd64 (g : Guard) (d a b : VReg) (s : State) : Host.Outcome State Fault Refusal :=
  laneInstr s 6 (vregs d 2 ++ vregs a 2 ++ vregs b 2) g fun x w =>
    w.setPair x.act d fun l => x.rd64 a l + x.rd64 b l
/-- R154. -/
def execMad64N (g : Guard) (d a b c : VReg) (s : State) : Host.Outcome State Fault Refusal :=
  laneInstr s 6 (vregs d 2 ++ [a.toNat, b.toNat] ++ vregs c 2) g fun x w =>
    w.setPair x.act d fun l => (x.rd1 a l).zeroExtend 64 * (x.rd1 b l).zeroExtend 64 + x.rd64 c l
/-- R154. -/
def execLea64 (g : Guard) (d a b : VReg) (k : BitVec 8) (s : State) : Host.Outcome State Fault Refusal :=
  laneInstr s 6 (vregs d 2 ++ vregs a 2 ++ [b.toNat]) g fun x w =>
    w.setPair x.act d fun l => x.rd64 a l + ((x.rd1 b l).zeroExtend 64 <<< k.toNat)
/-- R190. -/
def execIaddi (g : Guard) (d a : VReg) (i : BitVec 32) (s : State) : Host.Outcome State Fault Refusal :=
  laneImm s g d a fun x => x + i
/-- R190. -/
def execImuli (g : Guard) (d a : VReg) (i : BitVec 32) (s : State) : Host.Outcome State Fault Refusal :=
  laneImm s g d a fun x => x * i
/-- R190. -/
def execLaneAndi (g : Guard) (d a : VReg) (i : BitVec 32) (s : State) : Host.Outcome State Fault Refusal :=
  laneImm s g d a fun x => x &&& i
/-- R190. -/
def execLaneOri (g : Guard) (d a : VReg) (i : BitVec 32) (s : State) : Host.Outcome State Fault Refusal :=
  laneImm s g d a fun x => x ||| i
/-- R190. -/
def execLaneXori (g : Guard) (d a : VReg) (i : BitVec 32) (s : State) : Host.Outcome State Fault Refusal :=
  laneImm s g d a fun x => x ^^^ i
/-- R190. -/
def execMovi (g : Guard) (d : VReg) (i : BitVec 32) (s : State) : Host.Outcome State Fault Refusal :=
  laneInstr s 8 [d.toNat] g fun x w => w.setLanes x.act d.toNat fun _ => i
/-- R190. -/
def execIcmpi (cc : ICmp) (g : Guard) (d : MReg) (a : VReg) (i : BitVec 32) (s : State) : Host.Outcome State Fault Refusal :=
  laneCmp s 8 [a.toNat] g d fun x l => icmpHolds cc (x.rd1 a l) i

end Sys2Proof.Machine
end

