-- ==== Sys2Proof/Machine/Resets.lean ====
section
/-!
DEFINITION. Function-level reset (R345, R346, R389, R390), package reset and bring-up (R361), and heat's package trip (R357).
-/

namespace Sys2Proof.Machine

/-! ## Function-level reset (Table 12-8) -/

/-- A context of a function. -/
def Dev.isOf (d : Dev) (fn n : Nat) : Bool := (d.fnCtxs fn).any (·.n == n)

/-- A pre-emption request of the function ends when its reset begins (R346). -/
def Dev.endPreempts (d : Dev) (fn : Nat) : Dev :=
  let open_ := (d.fnCtxs fn).any fun c => c.preempt.any (!·.told)
  let d : Dev := { d with ctxs := modIf (·.fn == fn) (fun c => { c with preempt := none }) d.ctxs }
  if open_ then d.setEvent 0 2 else d

/-- FLR_INITIATE (R344, R345): step 1 begins; waves, placement and triggered operations stop, and blocking instructions end
without effect. -/
def execFlrInitiate (fn : Nat) (s : State) : Host.Outcome State Fault Refusal :=
  hostDev s fun d =>
    if fn = 0 ∨ 64 ≤ fn ∨ 0 < (d.fn fn).flr then d
    else
      let d := d.endPreempts fn
      let mine (b : Nat) : Bool := (d.block? b).any fun b => d.isOf fn b.ctx
      let wake (t : Strand) : Strand := { t with waiting := none }
      let d := d.modFn fn fun f => { f with flr := 1, tdisp := .unlocked, digest := 0 }
      { d with
        latch := if d.issuer?.any (fun k => k.ctx.fn == fn) then none else d.latch
        waves := modIf (fun w => mine w.block) (fun w => { w with strands := w.strands.map wake }) d.waves
        cores := d.cores.map fun c => { c with claims := c.claims.filter fun x => !(d.wave? x.1).any fun w => mine w.block }
        ctxs := modIf (·.fn == fn) (fun c => { c with stopped := true }) d.ctxs }

/-- A step of a reset begins when the step before it has ended. -/
def flrStep (s : State) (fn step : Nat) (f : Dev → Dev) : Host.Outcome State Fault Refusal :=
  onDev s fun d =>
    if fn = 0 ∨ 64 ≤ fn ∨ (d.fn fn).flr ≠ step then d
    else (f d).modFn fn fun f => { f with flr := step + 1 }

/-- FLR_STOPPED (R345): step 2 begins; from here on the device writes nothing of its own for the function (R390). -/
def execFlrStopped (fn : Nat) (s : State) : Host.Outcome State Fault Refusal := flrStep s fn 1 id

/-- Leases and requests of the function's waves end; the engines that they held go DARK (R345). -/
def Dev.darkenHeld (d : Dev) (mine : Nat → Bool) : Dev :=
  let one (e : Engine) : Engine :=
    let e : Engine := { e with queue := e.queue.filter fun r => !mine r.ctx }
    if e.holder.any (fun r => mine r.ctx) then e.darken
    else if e.former.any (fun r => mine r.ctx) then { e with former := none } else e
  { d with engines := d.engines.map one }

/-- FLR_DRAINED (R345): what is left of step 2 is dropped; step 3 discards queues, leases and collectives. -/
def execFlrDrained (fn : Nat) (s : State) : Host.Outcome State Fault Refusal :=
  flrStep s fn 2 fun d =>
    let mine := d.isOf fn
    let d := (d.queues.filter fun x => mine x.ctx).foldl Dev.cancelPeers (d.discardWork mine)
    let d := d.darkenHeld mine
    { d with
      memops := d.memops.filter fun o => !mine o.ctx
      reports := d.reports.filter fun o => !mine o.ctx
      owed := d.owed.filter fun o => !mine o.ctx
      suspRegs := d.suspRegs.filter fun x => !mine x.1
      remotes := d.remotes.filter fun r => !mine r.ctx
      egress := d.egress.filter fun e => !(mine e.ctx && e.port.isNone && e.name.isSome) }

/-- The registers and spill area of a wave read zero, the special ones among them (R345). -/
def Wave.scrub (w : Wave) : Wave :=
  let strand (t : Strand) : Strand := { t with s := t.s.map fun _ => 0, hsave := t.hsave.map fun _ => 0, epc := 0 }
  { w with
    v := w.v.map fun r => r.map fun _ => 0
    m := w.m.map fun _ => 0
    cause := 0
    tvec := 0
    gsave := 0
    lts := 0
    fault := .zero
    strands := w.strands.map strand
    spill := []
    trec := .zero }

/-- FLR_DISCARDED (R345): step 4 scrubs; dirty lines are written back, then lines and translations go. -/
def execFlrDiscarded (fn : Nat) (s : State) : Host.Outcome State Fault Refusal :=
  flrStep s fn 3 fun d =>
    let mine := d.isOf fn
    let bs := d.blocks.filter fun b => mine b.ctx
    let ids := bs.map (·.id)
    let d := bs.foldl Dev.zeroRanges d
    let teams := d.teams.filter fun t => t.blocks.any ids.contains
    let d := (teams.flatMap fun t => t.cores.zip t.ranges).foldl (fun (d : Dev) x => d.zeroLoc x.1 .scratch x.2) d
    let d : Dev := { d with
      waves := modIf (fun w => ids.contains w.block) Wave.scrub d.waves
      blocks := modIf (fun b => ids.contains b.id) (fun b => { b with tags := [], skipTags := 0 }) d.blocks }
    let d := (d.llc.filter fun l => mine l.slot).foldl Dev.evictLine d
    { d with
      l1 := d.l1.filter fun l => !mine l.slot
      tlb := d.tlb.filter fun e => !mine e.ctx }

/-- FLR_DONE (R345): step 5 destroys the contexts; their servers stay (R346). -/
def execFlrDone (fn : Nat) (s : State) : Host.Outcome State Fault Refusal :=
  onDev s fun d =>
    if fn = 0 ∨ 64 ≤ fn ∨ (d.fn fn).flr ≠ 4 then d
    else
      let mine := d.isOf fn
      let d := (d.blocks.filter fun b => mine b.ctx).foldl (fun d b => (d.stopWaves b).removeBlock b) d
      let d := (d.discardWork mine).dropCtxs mine
      (d.modFn fn fun f => { f with flr := 0, inv := none }).setEvent 0 1

/-! ## Package reset and bring-up (R361, Table 13-4) -/

/-- Package reset: every unit is as at reset; free values and keys go on as new ones. -/
def State.packageReset (s : State) : State where
  dev := { Dev.reset with
    free := s.dev.free
    keyBase := s.dev.nextId
    nextId := s.dev.nextId + 256
    out := s.dev.out }
  mgmt := .reset
  schedule := s.schedule

/-- PACKAGE_RESET (R361). -/
def execPackageReset (s : State) : Host.Outcome State Fault Refusal := .next s.packageReset

/-- THERMAL_LEVEL (R357): migration requests, the halved allowance, or the package trip. -/
def execThermalLevel (die : Nat) (temps : List (Nat × Nat)) (s : State) : Host.Outcome State Fault Refusal :=
  if 4 ≤ die then .next s
  else
    let top := maxOf (temps.map (·.2))
    let level := levelOf (assoc s.mgmt.levels die) top
    if level = 3 then .next s.packageReset
    else
      let s : State := { s with mgmt := { s.mgmt with
        temps := assocPut s.mgmt.temps die top
        levels := assocPut s.mgmt.levels die level } }
      let s := s.setAllowance die
      .next (if 1 ≤ level then s.openMigration die temps else s)

/-- A die's measurements that a phase takes (Table 12-5). -/
def Spdm.measure (free : Nat) (indices : List Nat) (s : Spdm) : Spdm :=
  { s with measures := indices.map (fun i => (i, Config.digest s.die (free + i))) ++
      s.measures.filter fun m => !indices.contains m.1 }

def Spdm.fresh (die : Nat) : Spdm where
  die := die
  version := false
  caps := false
  algs := false
  sessions := []
  measures := []

/-- The device-private range is initialised: nothing is listed there (Table 8-2; its contents are no function's, R246). -/
def Dev.initPrivate (d : Dev) : Dev :=
  let inside (pa : Nat) : Bool := decide (0x007F00000000 ≤ pa ∧ pa < 0x008000000000)
  { d with
    mem := d.mem.filter fun c => !inside c.1
    sectors := d.sectors.filter fun s => !inside (32 * s.idx)
    llc := d.llc.filter fun l => !inside (128 * l.line) }

/-- The management processor's times as the clock that begins at zero in phase 3 counts them (R361). -/
def Mgmt.rebase (m : Mgmt) (now : Nat) : Mgmt :=
  let phase (p : RailPhase) : RailPhase :=
    match p with
    | .steady => .steady
    | .lowering t => .lowering (t - now)
    | .holdoff t => .holdoff (t - now)
    | .falling t => .falling (t - now)
    | .rising t => .rising (t - now)
  { m with
    ticked := 0
    islands := m.islands.map fun i => { i with next := i.next.map (· - now) }
    rails := m.rails.map fun r => { r with phase := phase r.phase, stretch := r.stretch.map (· - now) }
    migrations := m.migrations.map fun x => { x with opened := 0 } }
/-- A core's times likewise. -/
def Core.rebase (c : Core) (now : Nat) : Core :=
  { c with idle := 0, wake := c.wake.map (· - now), busy := c.busy.map (· - now), coldTill := c.coldTill.map (· - now) }

/-- What the end of a phase has done; `bad` names the cores or ports that failed it. After phase 1 every rail stands at point
3 and headroom, and every island at point 3 (`Mgmt.island`, `Mgmt.rail`). -/
def State.endPhase (s : State) (bad : List Nat) : State :=
  let d := s.dev
  match s.mgmt.phase with
  | 0 =>
    let dies := (List.range 6).map fun i => (Spdm.fresh i).measure d.free (if i = 4 then [1, 2, 4] else [1, 2])
    { s with dev := { d with free := d.free + 8 }, mgmt := { s.mgmt with spdm := dies } }
  | 1 => { s with mgmt := { s.mgmt with islands := [], rails := [] } }
  | 2 => { s with
      dev := (bad.filter (· < 896)).foldl (fun d c => d.modCore c fun c => { c with mapped := false }) { d with free := d.free + 8 }
      mgmt := { s.mgmt with spdm := s.mgmt.spdm.map (Spdm.measure d.free [3]) } }
  | 3 => { s with
      dev := { d with
        clock := 0, mt := [], llc := [], locmem := [], loclines := [], poison := [], cores := d.cores.map (·.rebase d.clock) }
      mgmt := s.mgmt.rebase d.clock }
  | 4 => { s with dev := ({ d with keys := assocPut d.keys 0 d.keyBase } : Dev).initPrivate }
  | 5 =>
    let port (n : Nat) : Port := { Port.reset n with up := !bad.contains n, rtt := (Config.freeBits (d.free + n)).toNat }
    { s with dev := { d with ports := (List.range 128).map port, free := d.free + 128 } }
  | _ => s

/-- BRINGUP_PHASE (R361): a failure in phases 0 to 4 halts with PHASE frozen. -/
def execBringupPhase (errcode : Nat) (bad : List Nat) (s : State) : Host.Outcome State Fault Refusal :=
  if s.mgmt.ready || s.mgmt.errcode != 0 then .next s
  else if errcode % 256 ≠ 0 ∧ s.mgmt.phase ≤ 4 then .next { s with mgmt := { s.mgmt with errcode := errcode % 256 } }
  else
    let t := s.endPhase bad
    let p := s.mgmt.phase + 1
    .next { t with mgmt := { t.mgmt with phase := p, ready := decide (7 ≤ p) } }

end Sys2Proof.Machine
end

