-- ==== Sys2Proof/Machine/Scalar.lean ====
section
/-!
DEFINITION. Scalar arithmetic and logic (04: R105 to R110).
-/

namespace Sys2Proof.Machine

/-- A class A operation with one scalar result: in each strand, its own registers (R104). -/
def scalarOp (s : State) (d : SReg) (f : Strand → Word) : Host.Outcome State Fault Refusal :=
  issue s fun k x => (x.setScalars k d fun t => f (k.strand t)).advance k 4

/-- sD := f(sA, sB) (R105). -/
def scalar2 (s : State) (d a b : SReg) (f : Word → Word → Word) : Host.Outcome State Fault Refusal :=
  scalarOp s d fun t => f (t.rd a) (t.rd b)

/-- The high half of a product (Table 4-1). -/
def mulHigh (x y : BitVec 128) : Word := (x * y).extractLsb' 64 64

/-- Division truncates toward zero, with the borderline cases of R106. -/
def divI (a b : Word) : Word := if b = 0 then BitVec.allOnes 64 else a.sdiv b
def divN (a b : Word) : Word := if b = 0 then BitVec.allOnes 64 else a.udiv b
def remI (a b : Word) : Word := if b = 0 then a else a.srem b
def remN (a b : Word) : Word := if b = 0 then a else a.umod b

/-- Shift and rotate amounts: b[5:0] (R105). -/
def amount (b : Word) : Nat := b.toNat % 64

/-- Leading zeros of a word: 64 for zero (R107). -/
def clzWord (x : Word) : Word := BitVec.ofNat 64 (64 - bitLen x.toNat)
/-- Trailing zeros of a word: 64 for zero (R107). -/
def ctzWord (x : Word) : Word := BitVec.ofNat 64 (((List.range 64).find? (x.getLsbD ·)).getD 64)
/-- One bits of a word (R107). -/
def popcWord (x : Word) : Word := BitVec.ofNat 64 ((List.range 64).filter (x.getLsbD ·)).length
/-- The low n bits of a word, widened (R107); the field holds n - 1. -/
def sextWord (x : Word) (c : BitVec 6) : Word := (x <<< (63 - c.toNat)).sshiftRight (63 - c.toNat)
def zextWord (x : Word) (c : BitVec 6) : Word := (x <<< (63 - c.toNat)) >>> (63 - c.toNat)

/-- R105: a + b. -/
def execAdd (d a b : SReg) (s : State) : Host.Outcome State Fault Refusal :=
  scalar2 s d a b (fun x y => x + y)
/-- R105: a - b. -/
def execSub (d a b : SReg) (s : State) : Host.Outcome State Fault Refusal :=
  scalar2 s d a b (fun x y => x - y)
/-- R105: the low half of a × b. -/
def execMul (d a b : SReg) (s : State) : Host.Outcome State Fault Refusal :=
  scalar2 s d a b (fun x y => x * y)
/-- R105: the high half of the signed product. -/
def execMulhI (d a b : SReg) (s : State) : Host.Outcome State Fault Refusal :=
  scalar2 s d a b (fun x y => mulHigh (x.signExtend 128) (y.signExtend 128))
/-- R105: the high half of the unsigned product. -/
def execMulhN (d a b : SReg) (s : State) : Host.Outcome State Fault Refusal :=
  scalar2 s d a b (fun x y => mulHigh (x.zeroExtend 128) (y.zeroExtend 128))
/-- R106. -/
def execDivI (d a b : SReg) (s : State) : Host.Outcome State Fault Refusal :=
  scalar2 s d a b divI
/-- R106. -/
def execDivN (d a b : SReg) (s : State) : Host.Outcome State Fault Refusal :=
  scalar2 s d a b divN
/-- R106. -/
def execRemI (d a b : SReg) (s : State) : Host.Outcome State Fault Refusal :=
  scalar2 s d a b remI
/-- R106. -/
def execRemN (d a b : SReg) (s : State) : Host.Outcome State Fault Refusal :=
  scalar2 s d a b remN
/-- R105: a AND b. -/
def execAnd (d a b : SReg) (s : State) : Host.Outcome State Fault Refusal :=
  scalar2 s d a b (fun x y => x &&& y)
/-- R105: a OR b. -/
def execOr (d a b : SReg) (s : State) : Host.Outcome State Fault Refusal :=
  scalar2 s d a b (fun x y => x ||| y)
/-- R105: a XOR b. -/
def execXor (d a b : SReg) (s : State) : Host.Outcome State Fault Refusal :=
  scalar2 s d a b (fun x y => x ^^^ y)
/-- R105: a AND NOT b. -/
def execAndn (d a b : SReg) (s : State) : Host.Outcome State Fault Refusal :=
  scalar2 s d a b (fun x y => x &&& ~~~y)
/-- R105: a << b[5:0]. -/
def execShl (d a b : SReg) (s : State) : Host.Outcome State Fault Refusal :=
  scalar2 s d a b (fun x y => x <<< amount y)
/-- R105: a >> b[5:0], zeros in. -/
def execShrN (d a b : SReg) (s : State) : Host.Outcome State Fault Refusal :=
  scalar2 s d a b (fun x y => x >>> amount y)
/-- R105: a >> b[5:0], copies of a[63] in. -/
def execShrI (d a b : SReg) (s : State) : Host.Outcome State Fault Refusal :=
  scalar2 s d a b (fun x y => x.sshiftRight (amount y))
/-- R105: a rotated left by b[5:0]. -/
def execRot (d a b : SReg) (s : State) : Host.Outcome State Fault Refusal :=
  scalar2 s d a b (fun x y => x.rotateLeft (amount y))
/-- R105: the smaller, signed. -/
def execMinI (d a b : SReg) (s : State) : Host.Outcome State Fault Refusal :=
  scalar2 s d a b (fun x y => if y.slt x then y else x)
/-- R105: the smaller, unsigned. -/
def execMinN (d a b : SReg) (s : State) : Host.Outcome State Fault Refusal :=
  scalar2 s d a b (fun x y => if y.ult x then y else x)
/-- R105: the larger, signed. -/
def execMaxI (d a b : SReg) (s : State) : Host.Outcome State Fault Refusal :=
  scalar2 s d a b (fun x y => if x.slt y then y else x)
/-- R105: the larger, unsigned. -/
def execMaxN (d a b : SReg) (s : State) : Host.Outcome State Fault Refusal :=
  scalar2 s d a b (fun x y => if x.ult y then y else x)
/-- R108. -/
def execCmpEq (d a b : SReg) (s : State) : Host.Outcome State Fault Refusal :=
  scalar2 s d a b (fun x y => boolWord (x == y))
/-- R108. -/
def execCmpNe (d a b : SReg) (s : State) : Host.Outcome State Fault Refusal :=
  scalar2 s d a b (fun x y => boolWord (x != y))
/-- R108. -/
def execCmpLtI (d a b : SReg) (s : State) : Host.Outcome State Fault Refusal :=
  scalar2 s d a b (fun x y => boolWord (x.slt y))
/-- R108. -/
def execCmpLtN (d a b : SReg) (s : State) : Host.Outcome State Fault Refusal :=
  scalar2 s d a b (fun x y => boolWord (x.ult y))
/-- R108. -/
def execCmpLeI (d a b : SReg) (s : State) : Host.Outcome State Fault Refusal :=
  scalar2 s d a b (fun x y => boolWord (x.sle y))
/-- R108. -/
def execCmpLeN (d a b : SReg) (s : State) : Host.Outcome State Fault Refusal :=
  scalar2 s d a b (fun x y => boolWord (x.ule y))
/-- R107. -/
def execSel (d a b c : SReg) (s : State) : Host.Outcome State Fault Refusal :=
  scalarOp s d fun t => if t.rd c ≠ 0 then t.rd a else t.rd b
/-- R107. -/
def execLea (d a b : SReg) (k : BitVec 6) (s : State) : Host.Outcome State Fault Refusal :=
  scalar2 s d a b (fun x y => x + (y <<< k.toNat))
/-- R107. -/
def execClz (d a : SReg) (s : State) : Host.Outcome State Fault Refusal :=
  scalarOp s d fun t => clzWord (t.rd a)
/-- R107. -/
def execCtz (d a : SReg) (s : State) : Host.Outcome State Fault Refusal :=
  scalarOp s d fun t => ctzWord (t.rd a)
/-- R107. -/
def execPopc (d a : SReg) (s : State) : Host.Outcome State Fault Refusal :=
  scalarOp s d fun t => popcWord (t.rd a)
/-- R107. -/
def execSext (d a : SReg) (n : BitVec 6) (s : State) : Host.Outcome State Fault Refusal :=
  scalarOp s d fun t => sextWord (t.rd a) n
/-- R107. -/
def execZext (d a : SReg) (n : BitVec 6) (s : State) : Host.Outcome State Fault Refusal :=
  scalarOp s d fun t => zextWord (t.rd a) n
/-- R107. -/
def execMov (d a : SReg) (s : State) : Host.Outcome State Fault Refusal :=
  scalarOp s d fun t => t.rd a
/-- R109. -/
def execAddi (d a : SReg) (i : BitVec 12) (s : State) : Host.Outcome State Fault Refusal :=
  scalarOp s d fun t => t.rd a + sx i
/-- R109. -/
def execAndi (d a : SReg) (i : BitVec 12) (s : State) : Host.Outcome State Fault Refusal :=
  scalarOp s d fun t => t.rd a &&& sx i
/-- R109. -/
def execOri (d a : SReg) (i : BitVec 12) (s : State) : Host.Outcome State Fault Refusal :=
  scalarOp s d fun t => t.rd a ||| sx i
/-- R109. -/
def execXori (d a : SReg) (i : BitVec 12) (s : State) : Host.Outcome State Fault Refusal :=
  scalarOp s d fun t => t.rd a ^^^ sx i
/-- R109. -/
def execShli (d a : SReg) (k : BitVec 6) (s : State) : Host.Outcome State Fault Refusal :=
  scalarOp s d fun t => t.rd a <<< k.toNat
/-- R109. -/
def execShriN (d a : SReg) (k : BitVec 6) (s : State) : Host.Outcome State Fault Refusal :=
  scalarOp s d fun t => t.rd a >>> k.toNat
/-- R109. -/
def execShriI (d a : SReg) (k : BitVec 6) (s : State) : Host.Outcome State Fault Refusal :=
  scalarOp s d fun t => (t.rd a).sshiftRight k.toNat
/-- R110. -/
def execLi (d : SReg) (i : BitVec 18) (s : State) : Host.Outcome State Fault Refusal :=
  scalarOp s d fun _ => sx i
/-- R110. -/
def execLih (d : SReg) (i : BitVec 16) (s : State) : Host.Outcome State Fault Refusal :=
  scalarOp s d fun t => (t.rd d <<< 16) ||| zx i

end Sys2Proof.Machine
end

