-- ==== Sys2Proof/Machine/Security.lean ====
section
/-!
DEFINITION. The security protocols: the SPDM responders of the dies (R336, Table 12-5), TDISP (R344) and IDE key management
(R337). Cryptographic contents of messages are outside the state; a response names its data.
-/

namespace Sys2Proof.Machine

/-! ## SPDM (R336) -/

def Mgmt.responder (m : Mgmt) (die : Nat) : Spdm := (m.spdm.find? (·.die == die)).getD (Spdm.fresh die)

/-- A request reaches a responder through its DOE mailbox: it is answered when its place in the protocol is right, and
refused otherwise without effect (log entry 70). -/
def spdmRequest (s : State) (die : Nat) (name : String) (ok : Spdm → Bool) (f : Spdm → Spdm) (data : Spdm → List (List Nat)) :
    Host.Outcome State Fault Refusal :=
  hostStep s fun s =>
    if 6 ≤ die then s
    else
      let r := s.mgmt.responder die
      if ok r then
        { s with
          dev := s.dev.send (.spdm die name true (data r))
          mgmt := { s.mgmt with spdm := upsert (·.die == die) r (fun _ => f r) s.mgmt.spdm } }
      else { s with dev := s.dev.send (.spdm die name false []) }

/-- GET_VERSION: SPDM 1.3; a connection begins again. -/
def execGetVersion (die : Nat) (s : State) : Host.Outcome State Fault Refusal :=
  spdmRequest s die "GET_VERSION" (fun _ => true)
    (fun r => { r with version := true, caps := false, algs := false, sessions := [] }) fun _ => [[1, 3]]
/-- GET_CAPABILITIES. -/
def execGetCapabilities (die : Nat) (s : State) : Host.Outcome State Fault Refusal :=
  spdmRequest s die "GET_CAPABILITIES" (·.version) (fun r => { r with caps := true }) fun _ => []
/-- NEGOTIATE_ALGORITHMS: ECDSA and ECDHE with P-384, SHA-384, AES-256-GCM. -/
def execNegotiateAlgorithms (die : Nat) (s : State) : Host.Outcome State Fault Refusal :=
  spdmRequest s die "NEGOTIATE_ALGORITHMS" (·.caps) (fun r => { r with algs := true }) fun _ => [[384, 384, 384, 256]]
/-- GET_DIGESTS: of the one certificate slot, slot 0. -/
def execGetDigests (die : Nat) (s : State) : Host.Outcome State Fault Refusal :=
  spdmRequest s die "GET_DIGESTS" (·.algs) id fun r => [[0, Config.digest r.die 0]]
/-- GET_CERTIFICATE: slot 0 is the only one. -/
def execGetCertificate (die slot : Nat) (s : State) : Host.Outcome State Fault Refusal :=
  spdmRequest s die "GET_CERTIFICATE" (fun r => r.algs && slot == 0) id fun r => [[0, Config.digest r.die 0]]
/-- CHALLENGE. -/
def execChallenge (die slot : Nat) (s : State) : Host.Outcome State Fault Refusal :=
  spdmRequest s die "CHALLENGE" (fun r => r.algs && slot == 0) id fun r => [[0, Config.digest r.die 0]]

/-- A measurement of a die (Table 12-5): index 5 of BD0 carries the digest of each locked VF. -/
def State.measurement (s : State) (die index : Nat) : List (List Nat) :=
  if index = 5 then
    if die = 4 then (s.dev.fns.filter fun f => f.tdisp != .unlocked).map fun f => [f.n, f.digest] else []
  else ((s.mgmt.responder die).measures.filter (·.1 == index)).map fun m => [m.1, m.2]

/-- GET_MEASUREMENTS. -/
def execGetMeasurements (die index : Nat) (s : State) : Host.Outcome State Fault Refusal :=
  spdmRequest s die "GET_MEASUREMENTS"
    (fun r => r.algs && (decide (1 ≤ index ∧ index ≤ 3) || (die == 4 && decide (index = 4 ∨ index = 5)))) id
    fun _ => s.measurement die index
/-- KEY_EXCHANGE: a session begins its handshake. -/
def execKeyExchange (die session : Nat) (s : State) : Host.Outcome State Fault Refusal :=
  spdmRequest s die "KEY_EXCHANGE" (fun r => r.algs && !r.sessions.any (·.1 == session))
    (fun r => { r with sessions := r.sessions ++ [(session, false)] }) fun _ => [[session]]
/-- FINISH: the session is established. -/
def execFinish (die session : Nat) (s : State) : Host.Outcome State Fault Refusal :=
  spdmRequest s die "FINISH" (fun r => r.sessions.contains (session, false))
    (fun r => { r with sessions := modIf (·.1 == session) (fun x => (x.1, true)) r.sessions }) fun _ => [[session]]
/-- KEY_UPDATE. -/
def execKeyUpdate (die session : Nat) (s : State) : Host.Outcome State Fault Refusal :=
  spdmRequest s die "KEY_UPDATE" (fun r => r.sessions.contains (session, true)) id fun _ => [[session]]
/-- HEARTBEAT. -/
def execHeartbeat (die session : Nat) (s : State) : Host.Outcome State Fault Refusal :=
  spdmRequest s die "HEARTBEAT" (fun r => r.sessions.contains (session, true)) id fun _ => [[session]]
/-- END_SESSION. -/
def execEndSession (die session : Nat) (s : State) : Host.Outcome State Fault Refusal :=
  spdmRequest s die "END_SESSION" (fun r => r.sessions.contains (session, true))
    (fun r => { r with sessions := r.sessions.filter (·.1 != session) }) fun _ => [[session]]

/-! ## TDISP (R344) -/

/-- A TDISP message for a VF: it takes effect in the states given, and is refused otherwise. -/
def tdispMessage (s : State) (fn : Nat) (name : String) (ok : Tdisp → Bool) (f : Dev → Fn → Fn) (data : Dev → List (List Nat)) :
    Host.Outcome State Fault Refusal :=
  hostDev s fun d =>
    if fn = 0 ∨ 64 ≤ fn then d.send (.tdisp fn name false [])
    else if ok (d.fn fn).tdisp && (d.fn fn).flr == 0 then (d.modFn fn (f d)).send (.tdisp fn name true (data d))
    else d.send (.tdisp fn name false [])

def Tdisp.code : Tdisp → Nat
  | .unlocked => 0
  | .locked => 1
  | .run => 2

/-- LOCK_INTERFACE: the digest of the locked configuration is taken. -/
def execLockInterface (fn : Nat) (s : State) : Host.Outcome State Fault Refusal :=
  let digest := Config.digest (64 + fn) s.dev.free
  tdispMessage { s with dev := { s.dev with free := s.dev.free + 1 } } fn "LOCK_INTERFACE" (· == .unlocked)
    (fun _ f => { f with tdisp := .locked, digest := digest }) fun _ => []

/-- The report of a VF: its BAR ranges (the BAR, its first and its last offset; DESIGN CHOICE, log entry 109), contexts, windows and partition tags. -/
def Dev.report_ (d : Dev) (fn : Nat) : List (List Nat) :=
  let ws := (d.fn fn).windows
  let bars := [(0, 65536), (2, 262144), (4, (ws.map (·.2.len)).sum)].flatMap fun b => [b.1, 0, b.2 - 1]
  [bars, (d.fnCtxs fn).map (·.n), ws.flatMap fun w => [w.1, w.2.base, w.2.len], (d.fnCtxs fn).map (·.ptag)]

/-- GET_DEVICE_INTERFACE_REPORT: of a locked interface. -/
def execGetDeviceInterfaceReport (fn : Nat) (s : State) : Host.Outcome State Fault Refusal :=
  tdispMessage s fn "GET_DEVICE_INTERFACE_REPORT" (· != .unlocked) (fun _ f => f) fun d => d.report_ fn
/-- GET_DEVICE_INTERFACE_STATE. -/
def execGetDeviceInterfaceState (fn : Nat) (s : State) : Host.Outcome State Fault Refusal :=
  tdispMessage s fn "GET_DEVICE_INTERFACE_STATE" (fun _ => true) (fun _ f => f) fun d => [[(d.fn fn).tdisp.code]]
/-- START_INTERFACE. -/
def execStartInterface (fn : Nat) (s : State) : Host.Outcome State Fault Refusal :=
  tdispMessage s fn "START_INTERFACE" (· == .locked) (fun _ f => { f with tdisp := .run }) fun _ => []
/-- STOP_INTERFACE. -/
def execStopInterface (fn : Nat) (s : State) : Host.Outcome State Fault Refusal :=
  tdispMessage s fn "STOP_INTERFACE" (fun _ => true) (fun _ f => { f with tdisp := .unlocked, digest := 0 }) fun _ => []

/-! ## IDE (R337) -/

/-- IDE_KEY_MANAGEMENT: selective streams 1 to 63 are those of the VFs, 0 the PF's, 64 the link's (log entry 71). -/
def execIdeKeyManagement (m : IdeKm) (s : State) : Host.Outcome State Fault Refusal :=
  hostStep s fun s =>
    match m with
    | .program stream key =>
      if 64 < stream then s else { s with mgmt := { s.mgmt with ide := assocPut s.mgmt.ide stream key } }
    | .stop stream => { s with mgmt := { s.mgmt with ide := s.mgmt.ide.filter (·.1 != stream) } }

end Sys2Proof.Machine
end

