-- ==== Sys2Proof/Machine/Dispatch.lean ====
section
/-!
DEFINITION. One arm for each constructor of `Instr`: one direct call of its meaning.
-/

namespace Sys2Proof.Machine

def exec (i : Instr) (s : State) : Host.Outcome State Fault Refusal :=
  match i with
  | .add d a b => Sys2Proof.Machine.execAdd d a b s
  | .sub d a b => Sys2Proof.Machine.execSub d a b s
  | .mul d a b => Sys2Proof.Machine.execMul d a b s
  | .mulhI d a b => Sys2Proof.Machine.execMulhI d a b s
  | .mulhN d a b => Sys2Proof.Machine.execMulhN d a b s
  | .divI d a b => Sys2Proof.Machine.execDivI d a b s
  | .divN d a b => Sys2Proof.Machine.execDivN d a b s
  | .remI d a b => Sys2Proof.Machine.execRemI d a b s
  | .remN d a b => Sys2Proof.Machine.execRemN d a b s
  | .and d a b => Sys2Proof.Machine.execAnd d a b s
  | .or d a b => Sys2Proof.Machine.execOr d a b s
  | .xor d a b => Sys2Proof.Machine.execXor d a b s
  | .andn d a b => Sys2Proof.Machine.execAndn d a b s
  | .shl d a b => Sys2Proof.Machine.execShl d a b s
  | .shrN d a b => Sys2Proof.Machine.execShrN d a b s
  | .shrI d a b => Sys2Proof.Machine.execShrI d a b s
  | .rot d a b => Sys2Proof.Machine.execRot d a b s
  | .minI d a b => Sys2Proof.Machine.execMinI d a b s
  | .minN d a b => Sys2Proof.Machine.execMinN d a b s
  | .maxI d a b => Sys2Proof.Machine.execMaxI d a b s
  | .maxN d a b => Sys2Proof.Machine.execMaxN d a b s
  | .sel d a b c => Sys2Proof.Machine.execSel d a b c s
  | .lea d a b k => Sys2Proof.Machine.execLea d a b k s
  | .clz d a => Sys2Proof.Machine.execClz d a s
  | .ctz d a => Sys2Proof.Machine.execCtz d a s
  | .popc d a => Sys2Proof.Machine.execPopc d a s
  | .sext d a n => Sys2Proof.Machine.execSext d a n s
  | .zext d a n => Sys2Proof.Machine.execZext d a n s
  | .mov d a => Sys2Proof.Machine.execMov d a s
  | .cmpEq d a b => Sys2Proof.Machine.execCmpEq d a b s
  | .cmpNe d a b => Sys2Proof.Machine.execCmpNe d a b s
  | .cmpLtI d a b => Sys2Proof.Machine.execCmpLtI d a b s
  | .cmpLtN d a b => Sys2Proof.Machine.execCmpLtN d a b s
  | .cmpLeI d a b => Sys2Proof.Machine.execCmpLeI d a b s
  | .cmpLeN d a b => Sys2Proof.Machine.execCmpLeN d a b s
  | .addi d a imm => Sys2Proof.Machine.execAddi d a imm s
  | .andi d a imm => Sys2Proof.Machine.execAndi d a imm s
  | .ori d a imm => Sys2Proof.Machine.execOri d a imm s
  | .xori d a imm => Sys2Proof.Machine.execXori d a imm s
  | .shli d a k => Sys2Proof.Machine.execShli d a k s
  | .shriN d a k => Sys2Proof.Machine.execShriN d a k s
  | .shriI d a k => Sys2Proof.Machine.execShriI d a k s
  | .li d imm => Sys2Proof.Machine.execLi d imm s
  | .lih d imm => Sys2Proof.Machine.execLih d imm s
  | .br o => Sys2Proof.Machine.execBr o s
  | .call o => Sys2Proof.Machine.execCall o s
  | .bz d o => Sys2Proof.Machine.execBz d o s
  | .bnz d o => Sys2Proof.Machine.execBnz d o s
  | .bmany c o => Sys2Proof.Machine.execBmany c o s
  | .bmall c o => Sys2Proof.Machine.execBmall c o s
  | .bmnone c o => Sys2Proof.Machine.execBmnone c o s
  | .jr a => Sys2Proof.Machine.execJr a s
  | .ret => Sys2Proof.Machine.execRet s
  | .trap code => Sys2Proof.Machine.execTrap code s
  | .rett => Sys2Proof.Machine.execRett s
  | .wait ld st cp tl fx => Sys2Proof.Machine.execWait ld st cp tl fx s
  | .sget d n => Sys2Proof.Machine.execSget d n s
  | .sset a n => Sys2Proof.Machine.execSset a n s
  | .cclrReg a => Sys2Proof.Machine.execCclrReg a s
  | .cclrImm c => Sys2Proof.Machine.execCclrImm c s
  | .regrel n => Sys2Proof.Machine.execRegrel n s
  | .regclm n => Sys2Proof.Machine.execRegclm n s
  | .mget d a => Sys2Proof.Machine.execMget d a s
  | .mset d a => Sys2Proof.Machine.execMset d a s
  | .mand d a b => Sys2Proof.Machine.execMand d a b s
  | .mor d a b => Sys2Proof.Machine.execMor d a b s
  | .mxor d a b => Sys2Proof.Machine.execMxor d a b s
  | .mandn d a b => Sys2Proof.Machine.execMandn d a b s
  | .mnot d a => Sys2Proof.Machine.execMnot d a s
  | .mpop d a => Sys2Proof.Machine.execMpop d a s
  | .mffs d a => Sys2Proof.Machine.execMffs d a s
  | .sld8 d a imm => Sys2Proof.Machine.execSld8 d a imm s
  | .sld16 d a imm => Sys2Proof.Machine.execSld16 d a imm s
  | .sld32 d a imm => Sys2Proof.Machine.execSld32 d a imm s
  | .sld64 d a imm => Sys2Proof.Machine.execSld64 d a imm s
  | .sst8 d a imm => Sys2Proof.Machine.execSst8 d a imm s
  | .sst16 d a imm => Sys2Proof.Machine.execSst16 d a imm s
  | .sst32 d a imm => Sys2Proof.Machine.execSst32 d a imm s
  | .sst64 d a imm => Sys2Proof.Machine.execSst64 d a imm s
  | .mon a imm => Sys2Proof.Machine.execMon a imm s
  | .mwait a => Sys2Proof.Machine.execMwait a s
  | .tagwaitAny a => Sys2Proof.Machine.execTagwaitAny a s
  | .tagwaitAll a => Sys2Proof.Machine.execTagwaitAll a s
  | .tagffs d a => Sys2Proof.Machine.execTagffs d a s
  | .cinc d a imm => Sys2Proof.Machine.execCinc d a imm s
  | .bbinit d a imm => Sys2Proof.Machine.execBbinit d a imm s
  | .bbexp d a imm => Sys2Proof.Machine.execBbexp d a imm s
  | .bbexpNum d b => Sys2Proof.Machine.execBbexpNum d b s
  | .bbwait a imm => Sys2Proof.Machine.execBbwait a imm s
  | .bbwaitNum b => Sys2Proof.Machine.execBbwaitNum b s
  | .nop => Sys2Proof.Machine.execNop s
  | .yield => Sys2Proof.Machine.execYield s
  | .regang m => Sys2Proof.Machine.execRegang m s
  | .exit => Sys2Proof.Machine.execExit s
  | .brk code => Sys2Proof.Machine.execBrk code s
  | .trigger => Sys2Proof.Machine.execTrigger s
  | .pad => Sys2Proof.Machine.execPad s
  | .illegalEncoding => Sys2Proof.Machine.execIllegalEncoding s
  | .iadd g d a b => Sys2Proof.Machine.execIadd g d a b s
  | .isub g d a b => Sys2Proof.Machine.execIsub g d a b s
  | .imul g d a b => Sys2Proof.Machine.execImul g d a b s
  | .imulhI g d a b => Sys2Proof.Machine.execImulhI g d a b s
  | .imulhN g d a b => Sys2Proof.Machine.execImulhN g d a b s
  | .imad g d a b c => Sys2Proof.Machine.execImad g d a b c s
  | .iabs g d a => Sys2Proof.Machine.execIabs g d a s
  | .ineg g d a => Sys2Proof.Machine.execIneg g d a s
  | .iminI g d a b => Sys2Proof.Machine.execIminI g d a b s
  | .iminN g d a b => Sys2Proof.Machine.execIminN g d a b s
  | .imaxI g d a b => Sys2Proof.Machine.execImaxI g d a b s
  | .imaxN g d a b => Sys2Proof.Machine.execImaxN g d a b s
  | .laneAnd g d a b => Sys2Proof.Machine.execLaneAnd g d a b s
  | .laneOr g d a b => Sys2Proof.Machine.execLaneOr g d a b s
  | .laneXor g d a b => Sys2Proof.Machine.execLaneXor g d a b s
  | .laneAndn g d a b => Sys2Proof.Machine.execLaneAndn g d a b s
  | .not g d a => Sys2Proof.Machine.execNot g d a s
  | .laneShl g d a b => Sys2Proof.Machine.execLaneShl g d a b s
  | .laneShrI g d a b => Sys2Proof.Machine.execLaneShrI g d a b s
  | .laneShrN g d a b => Sys2Proof.Machine.execLaneShrN g d a b s
  | .laneRot g d a b => Sys2Proof.Machine.execLaneRot g d a b s
  | .bfeI g d a pos len => Sys2Proof.Machine.execBfeI g d a pos len s
  | .bfeN g d a pos len => Sys2Proof.Machine.execBfeN g d a pos len s
  | .bfi g d a pos len => Sys2Proof.Machine.execBfi g d a pos len s
  | .lanePopc g d a => Sys2Proof.Machine.execLanePopc g d a s
  | .laneClz g d a => Sys2Proof.Machine.execLaneClz g d a s
  | .brev g d a => Sys2Proof.Machine.execBrev g d a s
  | .laneSel g d a b c => Sys2Proof.Machine.execLaneSel g d a b c s
  | .icmp cc g d a b => Sys2Proof.Machine.execIcmp cc g d a b s
  | .dp4I g d a b c => Sys2Proof.Machine.execDp4I g d a b c s
  | .dp4N g d a b c => Sys2Proof.Machine.execDp4N g d a b c s
  | .add64 g d a b => Sys2Proof.Machine.execAdd64 g d a b s
  | .mad64N g d a b c => Sys2Proof.Machine.execMad64N g d a b c s
  | .lea64 g d a b k => Sys2Proof.Machine.execLea64 g d a b k s
  | .fadd r g d a b => Sys2Proof.Machine.execFadd r g d a b s
  | .fsub r g d a b => Sys2Proof.Machine.execFsub r g d a b s
  | .fmul r g d a b => Sys2Proof.Machine.execFmul r g d a b s
  | .fma r g d a b c => Sys2Proof.Machine.execFma r g d a b c s
  | .fmin g d a b => Sys2Proof.Machine.execFmin g d a b s
  | .fmax g d a b => Sys2Proof.Machine.execFmax g d a b s
  | .fminn g d a b => Sys2Proof.Machine.execFminn g d a b s
  | .fmaxn g d a b => Sys2Proof.Machine.execFmaxn g d a b s
  | .fabs g d a => Sys2Proof.Machine.execFabs g d a s
  | .fneg g d a => Sys2Proof.Machine.execFneg g d a s
  | .fcmp cc g d a b => Sys2Proof.Machine.execFcmp cc g d a b s
  | .ffloor g d a => Sys2Proof.Machine.execFfloor g d a s
  | .fceil g d a => Sys2Proof.Machine.execFceil g d a s
  | .ftrunc g d a => Sys2Proof.Machine.execFtrunc g d a s
  | .frnd g d a => Sys2Proof.Machine.execFrnd g d a s
  | .fclass g d a => Sys2Proof.Machine.execFclass g d a s
  | .fdivRne g d a b => Sys2Proof.Machine.execFdivRne g d a b s
  | .fsqrtRne g d a => Sys2Proof.Machine.execFsqrtRne g d a s
  | .frcp g d a => Sys2Proof.Machine.execFrcp g d a s
  | .frsq g d a => Sys2Proof.Machine.execFrsq g d a s
  | .fexp2 g d a => Sys2Proof.Machine.execFexp2 g d a s
  | .flog2 g d a => Sys2Proof.Machine.execFlog2 g d a s
  | .fsinpi g d a => Sys2Proof.Machine.execFsinpi g d a s
  | .fcospi g d a => Sys2Proof.Machine.execFcospi g d a s
  | .hadd2 h g d a b => Sys2Proof.Machine.execHadd2 h g d a b s
  | .hmul2 h g d a b => Sys2Proof.Machine.execHmul2 h g d a b s
  | .hfma2 h g d a b c => Sys2Proof.Machine.execHfma2 h g d a b c s
  | .cvtI32F32 r g d a => Sys2Proof.Machine.execCvtI32F32 r g d a s
  | .cvtN32F32 r g d a => Sys2Proof.Machine.execCvtN32F32 r g d a s
  | .cvtF32I32 r g d a => Sys2Proof.Machine.execCvtF32I32 r g d a s
  | .cvtF32N32 r g d a => Sys2Proof.Machine.execCvtF32N32 r g d a s
  | .cvtBf16F32 tz g d a => Sys2Proof.Machine.execCvtBf16F32 tz g d a s
  | .cvtF16F32 tz g d a => Sys2Proof.Machine.execCvtF16F32 tz g d a s
  | .cvtE4m3F32 nan g d a => Sys2Proof.Machine.execCvtE4m3F32 nan g d a s
  | .cvtE5m2F32 inf g d a => Sys2Proof.Machine.execCvtE5m2F32 inf g d a s
  | .cvtE2m1F32 g d a => Sys2Proof.Machine.execCvtE2m1F32 g d a s
  | .cvtF32Bf16 g d a => Sys2Proof.Machine.execCvtF32Bf16 g d a s
  | .cvtF32F16 g d a => Sys2Proof.Machine.execCvtF32F16 g d a s
  | .cvtF32E4m3 g d a => Sys2Proof.Machine.execCvtF32E4m3 g d a s
  | .cvtF32E5m2 g d a => Sys2Proof.Machine.execCvtF32E5m2 g d a s
  | .cvtF32E2m1 g d a => Sys2Proof.Machine.execCvtF32E2m1 g d a s
  | .shflIdx g d a b => Sys2Proof.Machine.execShflIdx g d a b s
  | .shflXor g d a n => Sys2Proof.Machine.execShflXor g d a n s
  | .shflUp g d a n => Sys2Proof.Machine.execShflUp g d a n s
  | .shflDn g d a n => Sys2Proof.Machine.execShflDn g d a n s
  | .voteAny g d a => Sys2Proof.Machine.execVoteAny g d a s
  | .voteAll g d a => Sys2Proof.Machine.execVoteAll g d a s
  | .voteBallot g d a => Sys2Proof.Machine.execVoteBallot g d a s
  | .redAddI g d a => Sys2Proof.Machine.execRedAddI g d a s
  | .redAddF32 g d a => Sys2Proof.Machine.execRedAddF32 g d a s
  | .redMin g d a => Sys2Proof.Machine.execRedMin g d a s
  | .redMax g d a => Sys2Proof.Machine.execRedMax g d a s
  | .scanAddI g d a => Sys2Proof.Machine.execScanAddI g d a s
  | .scanAddF32 g d a => Sys2Proof.Machine.execScanAddF32 g d a s
  | .matchLanes g d a => Sys2Proof.Machine.execMatchLanes g d a s
  | .bcast g d a k => Sys2Proof.Machine.execBcast g d a k s
  | .bscale g d a f => Sys2Proof.Machine.execBscale g d a f s
  | .ld w g d m => Sys2Proof.Machine.execLd w g d m s
  | .st w g d m => Sys2Proof.Machine.execSt w g d m s
  | .ldp w g d va off => Sys2Proof.Machine.execLdp w g d va off s
  | .stp w g d va off => Sys2Proof.Machine.execStp w g d va off s
  | .ldl w g d m => Sys2Proof.Machine.execLdl w g d m s
  | .stl w g d m => Sys2Proof.Machine.execStl w g d m s
  | .ldt w g d m => Sys2Proof.Machine.execLdt w g d m s
  | .stt w g d m => Sys2Proof.Machine.execStt w g d m s
  | .wld g d m => Sys2Proof.Machine.execWld g d m s
  | .wst g d m => Sys2Proof.Machine.execWst g d m s
  | .ald g d m => Sys2Proof.Machine.execAld g d m s
  | .ast g d m => Sys2Proof.Machine.execAst g d m s
  | .accld g d m => Sys2Proof.Machine.execAccld g d m s
  | .accst g d m => Sys2Proof.Machine.execAccst g d m s
  | .atom op g d m => Sys2Proof.Machine.execAtom op g d m s
  | .atl op g d m => Sys2Proof.Machine.execAtl op g d m s
  | .redAtomic op g d m => Sys2Proof.Machine.execRedAtomic op g d m s
  | .cmpst g d sb off => Sys2Proof.Machine.execCmpst g d sb off s
  | .cmpstL g d sb off => Sys2Proof.Machine.execCmpstL g d sb off s
  | .pf g m => Sys2Proof.Machine.execPf g m s
  | .spill d slot => Sys2Proof.Machine.execSpill d slot s
  | .fill d slot => Sys2Proof.Machine.execFill d slot s
  | .iaddi g d a imm => Sys2Proof.Machine.execIaddi g d a imm s
  | .imuli g d a imm => Sys2Proof.Machine.execImuli g d a imm s
  | .laneAndi g d a imm => Sys2Proof.Machine.execLaneAndi g d a imm s
  | .laneOri g d a imm => Sys2Proof.Machine.execLaneOri g d a imm s
  | .laneXori g d a imm => Sys2Proof.Machine.execLaneXori g d a imm s
  | .movi g d imm => Sys2Proof.Machine.execMovi g d imm s
  | .icmpi cc g d a imm => Sys2Proof.Machine.execIcmpi cc g d a imm s
  | .tcpyG2a o => Sys2Proof.Machine.execTcpyG2a o s
  | .tcpyG2w o => Sys2Proof.Machine.execTcpyG2w o s
  | .tcpyA2g o => Sys2Proof.Machine.execTcpyA2g o s
  | .tcpyG2l o => Sys2Proof.Machine.execTcpyG2l o s
  | .tcpyL2g o => Sys2Proof.Machine.execTcpyL2g o s
  | .tcpyG2g o => Sys2Proof.Machine.execTcpyG2g o s
  | .tcpyG2gStamp o => Sys2Proof.Machine.execTcpyG2gStamp o s
  | .cfpop d => Sys2Proof.Machine.execCfpop d s
  | .cfrsmRetry a => Sys2Proof.Machine.execCfrsmRetry a s
  | .cfrsmSkip a => Sys2Proof.Machine.execCfrsmSkip a s
  | .cfrsmFill a b => Sys2Proof.Machine.execCfrsmFill a b s
  | .kindle k => Sys2Proof.Machine.execKindle k s
  | .kindleNb d k => Sys2Proof.Machine.execKindleNb d k s
  | .douse k => Sys2Proof.Machine.execDouse k s
  | .lstat d a => Sys2Proof.Machine.execLstat d a s
  | .tmma v d a b c => Sys2Proof.Machine.execTmma v d a b c s
  | .tmmaZ v d a b c => Sys2Proof.Machine.execTmmaZ v d a b c s
  | .tmmaX2 v d a b c => Sys2Proof.Machine.execTmmaX2 v d a b c s
  | .tzero d c => Sys2Proof.Machine.execTzero d c s
  | .tcvt f b d c sc => Sys2Proof.Machine.execTcvt f b d c sc s
  | .tdload a => Sys2Proof.Machine.execTdload a s
  | .tstat d => Sys2Proof.Machine.execTstat d s
  | .ftload slot a => Sys2Proof.Machine.execFtload slot a s
  | .ftevl g d a slot => Sys2Proof.Machine.execFtevl g d a slot s
  | .xsort d a b f => Sys2Proof.Machine.execXsort d a b f s
  | .xtopk d a b c f => Sys2Proof.Machine.execXtopk d a b c f s
  | .xscan d a b f => Sys2Proof.Machine.execXscan d a b f s
  | .cpost a q => Sys2Proof.Machine.execCpost a q s
  | .ctrig a b c => Sys2Proof.Machine.execCtrig a b c s
  | .spawn a b => Sys2Proof.Machine.execSpawn a b s
  | .launch a => Sys2Proof.Machine.execLaunch a s
  | .cancel l a => Sys2Proof.Machine.execCancel l a s
  | .susp d a team noBuf => Sys2Proof.Machine.execSusp d a team noBuf s
  | .resume a => Sys2Proof.Machine.execResume a s
  | .cdrop a => Sys2Proof.Machine.execCdrop a s
  | .cclone d a b => Sys2Proof.Machine.execCclone d a b s
  | .issueSelect core port => Sys2Proof.Machine.execIssueSelect core port s
  | .icacheFill core ctx va => Sys2Proof.Machine.execIcacheFill core ctx va s
  | .pageWalk core ctx va => Sys2Proof.Machine.execPageWalk core ctx va s
  | .loadComplete op => Sys2Proof.Machine.execLoadComplete op s
  | .storePerform op lane => Sys2Proof.Machine.execStorePerform op lane s
  | .homeLoad op lane lease useL1 => Sys2Proof.Machine.execHomeLoad op lane lease useL1 s
  | .homeAtomic op lane => Sys2Proof.Machine.execHomeAtomic op lane s
  | .llcEvict x => Sys2Proof.Machine.execLlcEvict x s
  | .memLineTransfer channel => Sys2Proof.Machine.execMemLineTransfer channel s
  | .deferredReport wave => Sys2Proof.Machine.execDeferredReport wave s
  | .mwaitTimeout wave strand => Sys2Proof.Machine.execMwaitTimeout wave strand s
  | .portSuspend wave => Sys2Proof.Machine.execPortSuspend wave s
  | .watchdog wave strand => Sys2Proof.Machine.execWatchdog wave strand s
  | .pairtimeout req => Sys2Proof.Machine.execPairtimeout req s
  | .claimGrant core => Sys2Proof.Machine.execClaimGrant core s
  | .deadlock block => Sys2Proof.Machine.execDeadlock block s
  | .handlerEntry wave => Sys2Proof.Machine.execHandlerEntry wave s
  | .blockPlace core => Sys2Proof.Machine.execBlockPlace core s
  | .blockEnd block => Sys2Proof.Machine.execBlockEnd block s
  | .blockTriggerEvent block => Sys2Proof.Machine.execBlockTriggerEvent block s
  | .launchRelease launch => Sys2Proof.Machine.execLaunchRelease launch s
  | .kneadWindowClose ctx => Sys2Proof.Machine.execKneadWindowClose ctx s
  | .cancelDeadline block => Sys2Proof.Machine.execCancelDeadline block s
  | .footprintEnter job => Sys2Proof.Machine.execFootprintEnter job s
  | .copyPieceIssue job => Sys2Proof.Machine.execCopyPieceIssue job s
  | .pieceLand job piece => Sys2Proof.Machine.execPieceLand job piece s
  | .copyFault job => Sys2Proof.Machine.execCopyFault job s
  | .tileOpStart core => Sys2Proof.Machine.execTileOpStart core s
  | .tileCommit core => Sys2Proof.Machine.execTileCommit core s
  | .tcvtStep core => Sys2Proof.Machine.execTcvtStep core s
  | .fxOpComplete job => Sys2Proof.Machine.execFxOpComplete job s
  | .leaseGrant core k => Sys2Proof.Machine.execLeaseGrant core k s
  | .wakeDone core k => Sys2Proof.Machine.execWakeDone core k s
  | .warmTimeout core k => Sys2Proof.Machine.execWarmTimeout core k s
  | .allowanceCut die deciwatts => Sys2Proof.Machine.execAllowanceCut die deciwatts s
  | .class0Evict core k => Sys2Proof.Machine.execClass0Evict core k s
  | .engineStopped core k => Sys2Proof.Machine.execEngineStopped core k s
  | .energyPeriod ctx => Sys2Proof.Machine.execEnergyPeriod ctx s
  | .serverRelease ctx point => Sys2Proof.Machine.execServerRelease ctx point s
  | .arbiterSelect point => Sys2Proof.Machine.execArbiterSelect point s
  | .rotAdvance => Sys2Proof.Machine.execRotAdvance s
  | .remoteRequest p => Sys2Proof.Machine.execRemoteRequest p s
  | .replyArrive req e => Sys2Proof.Machine.execReplyArrive req e s
  | .flitSend port => Sys2Proof.Machine.execFlitSend port s
  | .flitReceive port f p => Sys2Proof.Machine.execFlitReceive port f p s
  | .linkPause port on => Sys2Proof.Machine.execLinkPause port on s
  | .collStepEnter coll => Sys2Proof.Machine.execCollStepEnter coll s
  | .collReady coll peer clock => Sys2Proof.Machine.execCollReady coll peer clock s
  | .collCts coll peer chunk clock => Sys2Proof.Machine.execCollCts coll peer chunk clock s
  | .collChunkReceive coll peer chunk clock bytes => Sys2Proof.Machine.execCollChunkReceive coll peer chunk clock bytes s
  | .collComplete coll err posted => Sys2Proof.Machine.execCollComplete coll err posted s
  | .suspSeal block => Sys2Proof.Machine.execSuspSeal block s
  | .resumePlaced resumption core => Sys2Proof.Machine.execResumePlaced resumption core s
  | .ccloneDone job => Sys2Proof.Machine.execCcloneDone job s
  | .forcedSave ctx => Sys2Proof.Machine.execForcedSave ctx s
  | .forcedSaveSeal block => Sys2Proof.Machine.execForcedSaveSeal block s
  | .hostWrite fn bar off slot bytes wire => Sys2Proof.Machine.execHostWrite fn bar off slot bytes wire s
  | .hostRead fn bar off slot n wire => Sys2Proof.Machine.execHostRead fn bar off slot n wire s
  | .hostMemoryCompletion req ok bytes => Sys2Proof.Machine.execHostMemoryCompletion req ok bytes s
  | .atsInvalidate fn page pages => Sys2Proof.Machine.execAtsInvalidate fn page pages s
  | .invalidate fn idx => Sys2Proof.Machine.execInvalidate fn idx s
  | .invalidateDone fn => Sys2Proof.Machine.execInvalidateDone fn s
  | .ctxcreate a => Sys2Proof.Machine.execCtxcreate a s
  | .ctxdestroy ctx => Sys2Proof.Machine.execCtxdestroy ctx s
  | .server a => Sys2Proof.Machine.execServer a s
  | .window fn window base len => Sys2Proof.Machine.execWindow fn window base len s
  | .qbind ctx queue rec => Sys2Proof.Machine.execQbind ctx queue rec s
  | .preempt t budget area len => Sys2Proof.Machine.execPreempt t budget area len s
  | .release t => Sys2Proof.Machine.execRelease t s
  | .keyrot ctx => Sys2Proof.Machine.execKeyrot ctx s
  | .partset a => Sys2Proof.Machine.execPartset a s
  | .retire a => Sys2Proof.Machine.execRetire a s
  | .retireComplete a => Sys2Proof.Machine.execRetireComplete a s
  | .logset fn iova => Sys2Proof.Machine.execLogset fn iova s
  | .unknownCommand code => Sys2Proof.Machine.execUnknownCommand code s
  | .eventClear fn bits => Sys2Proof.Machine.execEventClear fn bits s
  | .pwrcapWrite watts => Sys2Proof.Machine.execPwrcapWrite watts s
  | .iwselRead v => Sys2Proof.Machine.execIwselRead v s
  | .retlogClear => Sys2Proof.Machine.execRetlogClear s
  | .registerWrite fn off v => Sys2Proof.Machine.execRegisterWrite fn off v s
  | .flrInitiate fn => Sys2Proof.Machine.execFlrInitiate fn s
  | .flrStopped fn => Sys2Proof.Machine.execFlrStopped fn s
  | .flrDrained fn => Sys2Proof.Machine.execFlrDrained fn s
  | .flrDiscarded fn => Sys2Proof.Machine.execFlrDiscarded fn s
  | .flrDone fn => Sys2Proof.Machine.execFlrDone fn s
  | .lockInterface fn => Sys2Proof.Machine.execLockInterface fn s
  | .getDeviceInterfaceReport fn => Sys2Proof.Machine.execGetDeviceInterfaceReport fn s
  | .getDeviceInterfaceState fn => Sys2Proof.Machine.execGetDeviceInterfaceState fn s
  | .startInterface fn => Sys2Proof.Machine.execStartInterface fn s
  | .stopInterface fn => Sys2Proof.Machine.execStopInterface fn s
  | .getVersion die => Sys2Proof.Machine.execGetVersion die s
  | .getCapabilities die => Sys2Proof.Machine.execGetCapabilities die s
  | .negotiateAlgorithms die => Sys2Proof.Machine.execNegotiateAlgorithms die s
  | .getDigests die => Sys2Proof.Machine.execGetDigests die s
  | .getCertificate die slot => Sys2Proof.Machine.execGetCertificate die slot s
  | .challenge die slot => Sys2Proof.Machine.execChallenge die slot s
  | .getMeasurements die index => Sys2Proof.Machine.execGetMeasurements die index s
  | .keyExchange die session => Sys2Proof.Machine.execKeyExchange die session s
  | .finish die session => Sys2Proof.Machine.execFinish die session s
  | .keyUpdate die session => Sys2Proof.Machine.execKeyUpdate die session s
  | .heartbeat die session => Sys2Proof.Machine.execHeartbeat die session s
  | .endSession die session => Sys2Proof.Machine.execEndSession die session s
  | .powerControlTick watts => Sys2Proof.Machine.execPowerControlTick watts s
  | .islandVote island point => Sys2Proof.Machine.execIslandVote island point s
  | .frequencyChangeDone rail => Sys2Proof.Machine.execFrequencyChangeDone rail s
  | .railHoldoffExpire rail => Sys2Proof.Machine.execRailHoldoffExpire rail s
  | .railStep rail => Sys2Proof.Machine.execRailStep rail s
  | .islandRiseStep island => Sys2Proof.Machine.execIslandRiseStep island s
  | .currentEmergency rail => Sys2Proof.Machine.execCurrentEmergency rail s
  | .clockStretchEnd rail => Sys2Proof.Machine.execClockStretchEnd rail s
  | .thermalLevel die temps => Sys2Proof.Machine.execThermalLevel die temps s
  | .migrationClose die temps => Sys2Proof.Machine.execMigrationClose die temps s
  | .retentionEnter core => Sys2Proof.Machine.execRetentionEnter core s
  | .retentionExit core bad control => Sys2Proof.Machine.execRetentionExit core bad control s
  | .packageReset => Sys2Proof.Machine.execPackageReset s
  | .bringupPhase errcode bad => Sys2Proof.Machine.execBringupPhase errcode bad s
  | .ideKeyManagement m => Sys2Proof.Machine.execIdeKeyManagement m s
  | .atsTranslationCompletion fn page ok => Sys2Proof.Machine.execAtsTranslationCompletion fn page ok s
  | .coreColdResetDone core => Sys2Proof.Machine.execCoreColdResetDone core s

end Sys2Proof.Machine
end

