-- ==== Sys2Proof/Machine/Agenda.lean ====
section
/-!
DEFINITION. The steps that may come next when the schedule names none (log entry 1).
-/

namespace Sys2Proof.Machine

/-- What waves, blocks and launches may owe. -/
noncomputable def Dev.workAgenda (d : Dev) : List Instr :=
  (d.waves.flatMap fun w =>
      [Instr.deferredReport w.id, .handlerEntry w.id]
        ++ (List.range 8).flatMap fun t => [Instr.mwaitTimeout w.id t, .watchdog w.id t])
    ++ (d.blocks.flatMap fun b =>
      [Instr.blockTriggerEvent b.id, .suspSeal b.id, .forcedSaveSeal b.id, .cancelDeadline b.id, .blockEnd b.id, .deadlock b.id])
    ++ (d.launches.map fun l => .launchRelease l.id)
    ++ (d.ctxs.flatMap fun c => [Instr.kneadWindowClose c.n, .energyPeriod c.n, .forcedSave c.n])

/-- What outstanding accesses, jobs and requests may owe. A home gives no lease of its own accord. -/
noncomputable def Dev.memAgenda (d : Dev) : List Instr :=
  (d.memops.flatMap fun o =>
      (o.lanes.flatMap fun a => [Instr.storePerform o.id a.lane, .homeLoad o.id a.lane 0 false, .homeAtomic o.id a.lane])
        ++ [Instr.loadComplete o.id])
    ++ (d.jobs.flatMap fun j =>
      [Instr.footprintEnter j.id, .copyPieceIssue j.id]
        ++ (match j.kind with | .copy c => c.pieces.map fun p => Instr.pieceLand j.id p.1 | _ => [])
        ++ [Instr.copyFault j.id, .fxOpComplete j.id, .ccloneDone j.id])
    ++ (d.colls.map fun c => .collStepEnter c.id)
    ++ ((d.colls.filter fun c => (List.range c.comm.size).all (nearRank c.comm)).map fun c => .collComplete c.id none 0)
    ++ (d.xfers.map fun x => .memLineTransfer x.channel)
    ++ (d.ports.map fun p => .flitSend p.n)
    ++ (d.remotes.map fun r => .pairtimeout r.req)

/-- The dies' copy engines that have no choice standing. -/
def Dev.freeCopyPoints (d : Dev) : List Point :=
  ((List.range 4).map Point.copy).filter fun p => !d.picks.any (·.1 == p)

/-- What a core, its engines and the arbiters may owe. -/
noncomputable def coreAgenda (core : Nat) : List Instr :=
  ([EngKind.tile, .table, .select].flatMap fun k =>
      [Instr.engineStopped core k, .wakeDone core k, .warmTimeout core k, .class0Evict core k, .leaseGrant core k])
    ++ [.tileCommit core, .tcvtStep core, .tileOpStart core]
    ++ [.arbiterSelect (.tile core), .arbiterSelect (.table core), .arbiterSelect (.select core)]
    ++ [.claimGrant core, .retentionExit core 0 false, .coreColdResetDone core]

/-- The issue ports of cores, from one that moves on with each cycle. -/
noncomputable def issueAgenda (clock : Nat) (cores : List Nat) : List Instr :=
  let all := cores.flatMap fun c => (List.range 6).map fun p => Instr.issueSelect c p
  all.drop (clock % all.length) ++ all.take (clock % all.length)

/-- What the functions and the management processor may owe. -/
noncomputable def State.mgmtAgenda (s : State) : List Instr :=
  (if s.mgmt.ready then [] else [.bringupPhase 0 []])
    ++ (s.mgmt.retiring.map .retireComplete)
    ++ (s.mgmt.rails.flatMap fun r =>
      [Instr.frequencyChangeDone r.n, .railHoldoffExpire r.n, .railStep r.n, .clockStretchEnd r.n])
    ++ (s.mgmt.islands.map fun i => .islandRiseStep i.n)
    ++ (s.dev.fns.flatMap fun f =>
      [Instr.flrStopped f.n, .flrDrained f.n, .flrDiscarded f.n, .flrDone f.n, .invalidateDone f.n])

/-- Steps that may be due, in the order in which they are tried: those of the package's own accord. What the outside does,
and what a unit may do without owing it (evictions, fills ahead, port suspension, entry into retention), stands in the schedule. -/
noncomputable def agenda (s : State) : List Instr :=
  let d := s.dev
  let busy := ((d.blocks.map (·.core)) ++ (d.engines.map (·.core)) ++ (d.cores.map (·.n))).eraseDups
  s.mgmtAgenda ++ d.workAgenda ++ d.memAgenda
    ++ (d.freeCopyPoints.map Instr.arbiterSelect)
    ++ ((d.servers.map (·.args.point)).filterMap fun p => match p with | .coll e => some (Instr.arbiterSelect (.coll e)) | _ => none)
    ++ (d.colls.map fun c => .arbiterSelect (.coll c.engine))
    ++ busy.flatMap coreAgenda
    ++ (if d.pending.isEmpty && d.launches.isEmpty && !d.waves.any (fun w => w.port.isNone && w.live) then [] else
        (List.range 896).flatMap fun c =>
          Instr.blockPlace c :: d.pending.filterMap fun p =>
            match p with | .resume id .. => some (Instr.resumePlaced id c) | _ => none)
    ++ issueAgenda d.clock busy

/-- A row that has an encoding, or stands for bytes without one: an instruction that a gang issues. -/
def isIssued (i : Instr) : Bool := (encodeWord i).isSome || i = .illegalEncoding

/-- A step that answers a state. -/
noncomputable def answers (s : State) (i : Instr) (t : State) : Bool := match exec i s with | .next u => decide (u = t) | _ => false

/-- A step that changes the machine. -/
noncomputable def changes (s : State) (i : Instr) : Bool :=
  match exec i s with
  | .next t => t ≠ s
  | _ => false

/-- The first step of the agenda that changes the machine; with none, a cycle passes. -/
noncomputable def ownChoice (s : State) : Host.Outcome State Fault Refusal :=
  match (agenda s).find? (changes s) with
  | some i => exec i s
  | none => .next { s with dev := s.dev.tick 1 }

/-- An instruction that transfers control: what follows it in memory is not what comes next (R73). -/
def transfersControl : Instr → Bool
  | .br .. | .call .. | .bz .. | .bnz .. | .bmany .. | .bmall .. | .bmnone .. | .jr .. | .ret | .rett | .exit => true
  | _ => false

/-- The instruction of the gang that the arbiter has selected: fetched, decoded, executed (R73, R82, R83). Where the PC would
pass 2^56 - 1 it raises FETCH instead (R73; log entry 19); one that reads a register that cannot be corrected raises INTEGRITY
(R263), after REGRANGE and GANG (R83; log entry 6). While the line of code is on its way, the gang waits. -/
noncomputable def issueNext (s : State) : Host.Outcome State Fault Refusal :=
  match s.dev.issuer? with
  | none => .next { s with dev := { s.dev with latch := none } }
  | some k =>
    match s.dev.fetch k with
    | (none, d) => .next { s with dev := { d with latch := none } }
    | (some (.fault c _ _), d) => .next { s with dev := Dev.trap { d with latch := none } k c }
    | (some (.word bs), d) =>
      let s : State := { s with dev := d }
      match decode bs with
      | .ok (i, _) =>
        let trapped (c : Nat) : State := { s with dev := Dev.trap { d with latch := none } k c }
        if 2 ^ 56 ≤ k.pc.toNat + bs.length ∧ transfersControl i = false then .next (trapped cFetch)
        else if d.readsBad k i && !(answers s i (trapped cRegrange) || answers s i (trapped cGang)) then .next (trapped cIntegrity)
        else exec i s
      | .error _ => exec .illegalEncoding s

/-- The state that a step answers, with what it leaves noted (R284, R302, R382). -/
def settled : Host.Outcome State Fault Refusal → Host.Outcome State Fault Refusal
  | .next s => .next { s with dev := s.dev.settle }
  | o => o

/-- One entry of the schedule: cycles pass, then its step. An entry that names an encoded statement is passed over:
only a gang issues one. -/
noncomputable def scheduled (s : State) (x : Sched) : Host.Outcome State Fault Refusal :=
  let s : State := { s with dev := s.dev.tick x.dt }
  match x.ev with
  | none => ownChoice s
  | some i => if isIssued i then .next s else exec i s

/-! ## A word placed for the next fetch -/

/-- The bytes of a word of the opcode table, most significant first, zeros above. -/
def wordBytes (nbits w : Nat) : List Byte := beBytes (nbits / 8) w ++ List.replicate 12 0

/-- The context, block and wave under which a placed word runs: context 0, core 0, port 0. -/
def probeCtx : Ctx where
  n := 0
  fn := 0
  idx := 0
  root := 0
  ctab := 0
  mbox := 0
  ptag := 0
  cancelUs := 1
  atom := false
  allow := 0
  energy := 0
  period := 0
  spent := 0
  debt := 0
  preempt := none
  stopped := false
  sealKey := 0

/-- The device with an instruction's bytes at address 0x1000 of context 0, zeros in the rest of its line of code and in the next, and a
selected gang standing there. -/
def Dev.withWord (d : Dev) (nbits w : Nat) : Dev :=
  let id := d.nextId
  let sector (i : Nat) : Sector := ⟨128 + i, d.keyOf 0, 0⟩
  { d with
    nextId := id + 2
    mem := cellWrite d.mem 0x1000 (wordBytes nbits w)
    sectors := (List.range 8).map sector ++ d.sectors.filter fun x => x.idx / 8 != 16
    icache := d.icache.filter fun e => !(e.core == 0 && e.ctx == 0)
    tlb := ⟨0, 0, 4096, 1, 0, ⟨0x1000, none, true, true, true⟩⟩ :: d.tlb
    ctxs := probeCtx :: d.ctxs.filter (·.n != 0)
    blocks := Block.plain id 0 0 :: d.blocks
    waves := Wave.new (id + 1) id 0 (some 0) 32 0x1000 0 0 0 0 :: d.waves
    latch := some ⟨id + 1, 0xFF⟩ }

end Sys2Proof.Machine
end

