-- ==== Sys2Proof/Machine/Step.lean ====
section
/-!
DEFINITION. One step of the package: the selected gang issues its instruction, or the next entry of the schedule happens,
or a step of the machine's own choice (log entry 1).
-/

namespace Sys2Proof.Machine

/-- One step; what it leaves is noted. -/
noncomputable def step (s : State) : Host.Outcome State Fault Refusal :=
  settled <|
    match s.dev.latch with
    | some _ => issueNext s
    | none =>
      match s.schedule with
      | x :: rest => scheduled { s with schedule := rest } x
      | [] => ownChoice s

/-- An instruction is placed where the next step fetches it (log entry 13). -/
def State.withFetchWord (s : State) (nbits w : Nat) : State := { s with dev := s.dev.withWord nbits w }

end Sys2Proof.Machine
end

