-- ==== Sys2Proof/Laws/Codec.lean ====
section
/-!
SUPPORT. Facts about the encodings: fields of words, bytes and numbers, and what a word of each class decodes to.
-/

namespace Sys2Proof

/-! ## Bit fields -/

theorem extract_high {n m : Nat} (x : BitVec n) (y : BitVec m) (k l : Nat) (h : m ≤ k) :
    (x ++ y).extractLsb' k l = x.extractLsb' (k - m) l := by
  ext i hi
  simp [BitVec.getLsbD_append, show ¬ (k + i < m) by omega, show k + i - m = k - m + i by omega]

theorem extract_low {n m : Nat} (x : BitVec n) (y : BitVec m) (k l : Nat) (h : k + l ≤ m) :
    (x ++ y).extractLsb' k l = y.extractLsb' k l := by
  ext i hi
  simp [BitVec.getLsbD_append, show k + i < m by omega]

theorem extract_join {n : Nat} (x : BitVec n) (a k l : Nat) :
    x.extractLsb' (a + k) l ++ x.extractLsb' a k = x.extractLsb' a (l + k) := by
  ext i hi
  by_cases h : i < k
  · simp [BitVec.getElem_append, h]
  · simp [BitVec.getElem_append, h, show a + k + (i - k) = a + i by omega]

theorem extract_all {n : Nat} (x : BitVec n) : x.extractLsb' 0 n = x := by simp

theorem guard_ofBits_bits (g : Guard) : Guard.ofBits g.bits = g := by
  obtain ⟨i, m⟩ := g
  revert i m
  decide

theorem mreg_of6_bits6 (m : MReg) : MReg.of6 m.bits6 = some m := by
  revert m
  decide

theorem mreg_of8 (m : MReg) : MReg.of8 (0#4 ++ m) = some m := by
  revert m
  decide

theorem wordA_ofBits_bits (f : WordA) : WordA.ofBits f.bits = f := by
  obtain ⟨op, d, a, b, c⟩ := f
  simp only [WordA.ofBits, WordA.bits, WordA.mk.injEq]
  refine ⟨?_, ?_, ?_, ?_, ?_⟩ <;>
    · repeat rw [extract_high _ _ _ _ (by decide)]
      rw [extract_low _ _ _ _ (by decide)]
      simp

theorem wordB_ofBits_bits (f : WordB) : WordB.ofBits f.bits = f := by
  obtain ⟨op, g, d, a, b, c⟩ := f
  simp only [WordB.ofBits, WordB.bits, WordB.mk.injEq]
  refine ⟨?_, ?_, ?_, ?_, ?_, ?_⟩ <;>
    · repeat rw [extract_high _ _ _ _ (by decide)]
      rw [extract_low _ _ _ _ (by decide)]
      simp [guard_ofBits_bits]

theorem wordC_ofBits_bits (f : WordC) : WordC.ofBits f.bits = f := by
  obtain ⟨op, g, d, a, b, c, e⟩ := f
  simp only [WordC.ofBits, WordC.bits, WordC.mk.injEq]
  refine ⟨?_, ?_, ?_, ?_, ?_, ?_, ?_⟩ <;>
    · repeat rw [extract_high _ _ _ _ (by decide)]
      rw [extract_low _ _ _ _ (by decide)]
      simp [guard_ofBits_bits]

theorem wordD_ofBits_bits (f : WordD) : WordD.ofBits f.bits = f := by
  obtain ⟨op, g, sd, sa, sb, sc, vd, va, ten, rsv, tag, imm⟩ := f
  simp only [WordD.ofBits, WordD.bits, WordD.mk.injEq]
  refine ⟨?_, ?_, ?_, ?_, ?_, ?_, ?_, ?_, ?_, ?_, ?_, ?_⟩ <;>
    · repeat rw [extract_high _ _ _ _ (by decide)]
      rw [extract_low _ _ _ _ (by decide)]
      simp [guard_ofBits_bits]

/-! ## Bytes and numbers (R73) -/

theorem beBytes_length (n w : Nat) : (beBytes n w).length = n := by
  induction n generalizing w with
  | zero => rfl
  | succ n ih => simp [beBytes, ih]

theorem beNat_beBytes (n w : Nat) : beNat (beBytes n w) = w % 256 ^ n := by
  induction n generalizing w with
  | zero => simp [beBytes, beNat, Nat.mod_one]
  | succ n ih =>
    simp only [beBytes, beNat, ih, beBytes_length, BitVec.toNat_ofNat]
    rw [Nat.pow_succ 256, Nat.mod_mul]
    ring

theorem take_beBytes (n w : Nat) (rest : List Byte) : (beBytes n w ++ rest).take n = beBytes n w := by
  rw [List.take_append_of_le_length (by rw [beBytes_length])]
  exact List.take_of_length_le (by rw [beBytes_length])

/-! ## Words at the head of some bytes -/

theorem class_length_pos (k : Class) : 0 < k.length := by cases k <;> decide

/-- A word whose top byte selects its class, and which decodes to a well-formed instruction, is read back. -/
theorem decode_word (k : Class) (w : Nat) (i : Instr) (rest : List Byte) (hw : w < 256 ^ k.length)
    (hb : Class.ofByte (BitVec.ofNat 8 (w / 256 ^ (k.length - 1))) = some k) (hd : decodeClass k w = some i)
    (hi : i.wf = true) : decode (beBytes k.length w ++ rest) = .ok (i, k.length) := by
  obtain ⟨n, hn⟩ : ∃ n, k.length = n + 1 := ⟨k.length - 1, by have := class_length_pos k; omega⟩
  have hf : fetchClass (beBytes k.length w ++ rest) = .ok (k, w) := by
    have ht := take_beBytes k.length w rest
    have hl := beBytes_length k.length w
    rw [hn] at hb
    simp only [Nat.add_sub_cancel] at hb
    have hc : beBytes k.length w ++ rest = BitVec.ofNat 8 (w / 256 ^ n) :: (beBytes n w ++ rest) := by
      rw [hn]; rfl
    unfold fetchClass
    rw [hc]
    simp only [hb]
    rw [← hc, ht, beNat_beBytes, Nat.mod_eq_of_lt hw, if_neg]
    simp [hl]
  simp [decode, hf, hd, hi]

theorem top_of_extract {n : Nat} (x : BitVec n) (k l v : Nat) (h : (x.extractLsb' k l).toNat = v) :
    x.toNat / 2 ^ k % 2 ^ l = v := by
  rw [← h, BitVec.extractLsb'_toNat, Nat.shiftRight_eq_div_pow]

theorem ofByte_a (x : Nat) (h : x < 128) : Class.ofByte (BitVec.ofNat 8 x) = some .a := by
  have : (BitVec.ofNat 8 x).toNat = x := by simp; omega
  simp [Class.ofByte, h, Nat.mod_eq_of_lt (show x < 256 by omega)]
theorem ofByte_b (x : Nat) (h : 128 ≤ x) (h' : x < 192) : Class.ofByte (BitVec.ofNat 8 x) = some .b := by
  simp [Class.ofByte, Nat.mod_eq_of_lt (show x < 256 by omega), Nat.not_lt.mpr h, h']
theorem ofByte_c (x : Nat) (h : 192 ≤ x) (h' : x < 224) : Class.ofByte (BitVec.ofNat 8 x) = some .c := by
  simp [Class.ofByte, Nat.mod_eq_of_lt (show x < 256 by omega), Nat.not_lt.mpr h, show ¬ x < 128 by omega, h']
theorem ofByte_d (x : Nat) (h : 224 ≤ x) (h' : x < 240) : Class.ofByte (BitVec.ofNat 8 x) = some .d := by
  simp [Class.ofByte, Nat.mod_eq_of_lt (show x < 256 by omega), Nat.not_lt.mpr h, show ¬ x < 128 by omega,
    show ¬ x < 192 by omega, h']

/-- A class A word at the head of some bytes (R75). -/
theorem decode_wordA (f : WordA) (i : Instr) (rest : List Byte) (hd : decodeA f = some i) (hi : i.wf = true) :
    decode (beBytes 4 f.bits.toNat ++ rest) = .ok (i, 4) := by
  have hlt := f.bits.isLt
  have ht : f.bits.toNat / 2 ^ 31 % 2 ^ 1 = 0 := by
    apply top_of_extract
    simp only [WordA.bits]
    repeat rw [extract_high _ _ _ _ (by decide)]
    simp
  refine decode_word .a f.bits.toNat i rest (by simpa [Class.length] using hlt) ?_ ?_ hi
  · exact ofByte_a _ (by simp only [Class.length]; omega)
  · simpa [decodeClass, wordA_ofBits_bits] using hd

/-- A class B word at the head of some bytes (R76). -/
theorem decode_wordB (f : WordB) (i : Instr) (rest : List Byte) (hd : decodeB f = some i) (hi : i.wf = true) :
    decode (beBytes 6 f.bits.toNat ++ rest) = .ok (i, 6) := by
  have hlt := f.bits.isLt
  have ht : f.bits.toNat / 2 ^ 46 % 2 ^ 2 = 2 := by
    apply top_of_extract
    simp only [WordB.bits]
    repeat rw [extract_high _ _ _ _ (by decide)]
    simp
  refine decode_word .b f.bits.toNat i rest (by simpa [Class.length] using hlt) ?_ ?_ hi
  · exact ofByte_b _ (by simp only [Class.length]; omega) (by simp only [Class.length]; omega)
  · simpa [decodeClass, wordB_ofBits_bits] using hd

/-- A class C word at the head of some bytes (R77). -/
theorem decode_wordC (f : WordC) (i : Instr) (rest : List Byte) (hd : decodeC f = some i) (hi : i.wf = true) :
    decode (beBytes 8 f.bits.toNat ++ rest) = .ok (i, 8) := by
  have hlt := f.bits.isLt
  have ht : f.bits.toNat / 2 ^ 61 % 2 ^ 3 = 6 := by
    apply top_of_extract
    simp only [WordC.bits]
    repeat rw [extract_high _ _ _ _ (by decide)]
    simp
  refine decode_word .c f.bits.toNat i rest (by simpa [Class.length] using hlt) ?_ ?_ hi
  · exact ofByte_c _ (by simp only [Class.length]; omega) (by simp only [Class.length]; omega)
  · simpa [decodeClass, wordC_ofBits_bits] using hd

/-- A class D word at the head of some bytes (R78). -/
theorem decode_wordD (f : WordD) (i : Instr) (rest : List Byte) (hd : decodeD f = some i) (hi : i.wf = true) :
    decode (beBytes 12 f.bits.toNat ++ rest) = .ok (i, 12) := by
  have hlt := f.bits.isLt
  have ht : f.bits.toNat / 2 ^ 92 % 2 ^ 4 = 14 := by
    apply top_of_extract
    simp only [WordD.bits]
    repeat rw [extract_high _ _ _ _ (by decide)]
    simp
  refine decode_word .d f.bits.toNat i rest (by simpa [Class.length] using hlt) ?_ ?_ hi
  · exact ofByte_d _ (by simp only [Class.length]; omega) (by simp only [Class.length]; omega)
  · simpa [decodeClass, wordD_ofBits_bits] using hd

/-! ## Fields that a form joins from several -/

theorem wordA_imm12 (op : BitVec 7) (d a : BitVec 6) (i : BitVec 12) : (WordA.i op d a i).imm12 = i :=
  (extract_join i 0 6 6).trans (extract_all i)
theorem wordA_imm18 (op : BitVec 7) (d : BitVec 6) (i : BitVec 18) : (WordA.l op d i).imm18 = i := by
  have h := congrArg (fun x : BitVec 12 => x ++ i.extractLsb' 0 6) (extract_join i 6 6 6)
  exact h.trans ((extract_join i 0 6 12).trans (extract_all i))
theorem wordA_off20 (op : BitVec 7) (c : BitVec 4) (o : BitVec 20) : (WordA.j op c o).off20 = o := by
  have h0 : (c ++ o.extractLsb' 18 2).extractLsb' 0 2 = o.extractLsb' 18 2 := by
    rw [extract_low _ _ _ _ (by decide)]; simp
  simp only [WordA.off20, WordA.j, h0]
  have h1 := congrArg (fun x : BitVec 8 => x ++ o.extractLsb' 6 6 ++ o.extractLsb' 0 6) (extract_join o 12 6 2)
  have h2 := congrArg (fun x : BitVec 14 => x ++ o.extractLsb' 0 6) (extract_join o 6 6 8)
  exact h1.trans (h2.trans ((extract_join o 0 6 14).trans (extract_all o)))
theorem wordA_cond (op : BitVec 7) (c : BitVec 4) (o : BitVec 20) : (WordA.j op c o).cond = c := by
  simp only [WordA.cond, WordA.j]
  rw [extract_high _ _ _ _ (by decide)]
  simp
theorem wordC_imm32 (op : BitVec 9) (g : Guard) (vd va : BitVec 8) (i : BitVec 32) : (WordC.imm op g vd va i).imm32 = i := by
  have h := congrArg (fun x : BitVec 9 => x ++ i.extractLsb' 0 23) (extract_join i 23 3 6)
  exact h.trans ((extract_join i 0 23 9).trans (extract_all i))

theorem engKind_code (k : EngKind) : EngKind.ofCode k.code = some k := by cases k <;> decide
theorem lvl_code (l : Lvl) : Lvl.ofCode l.code = some l := by cases l <;> decide
theorem selFlags_code (f : SelFlags) : SelFlags.ofCode f.code = some f := by
  obtain ⟨a, b, c, k⟩ := f
  cases a <;> cases b <;> cases c <;> cases k <;> decide

/-! ## What each form reads back -/

theorem wordA_formRrr (op : BitVec 7) (d a b : SReg) (k : SReg → SReg → SReg → Instr) :
    WordA.formRrr (.r op d a b 0) k = some (k d a b) := by
  simp [WordA.formRrr, WordA.r]
theorem wordA_formRrrr (op : BitVec 7) (d a b : SReg) (c : BitVec 6) (k : SReg → SReg → SReg → BitVec 6 → Instr) :
    WordA.formRrrr (.r op d a b c) k = some (k d a b c) := by
  simp [WordA.formRrrr, WordA.r]
theorem wordA_formRr (op : BitVec 7) (d a : SReg) (k : SReg → SReg → Instr) :
    WordA.formRr (.r op d a 0 0) k = some (k d a) := by
  simp [WordA.formRr, WordA.r]
theorem wordA_formRrc (op : BitVec 7) (d a : SReg) (c : BitVec 6) (k : SReg → SReg → BitVec 6 → Instr) :
    WordA.formRrc (.r op d a 0 c) k = some (k d a c) := by
  simp [WordA.formRrc, WordA.r]
theorem wordA_formA (op : BitVec 7) (a : SReg) (k : SReg → Instr) :
    WordA.formA (.r op 0 a 0 0) k = some (k a) := by
  simp [WordA.formA, WordA.r]
theorem wordA_formC (op : BitVec 7) (c : BitVec 6) (k : BitVec 6 → Instr) :
    WordA.formC (.r op 0 0 0 c) k = some (k c) := by
  simp [WordA.formC, WordA.r]
theorem wordA_formZ (op : BitVec 7) (k : Instr) :
    WordA.formZ (.r op 0 0 0 0) k = some k := by
  simp [WordA.formZ, WordA.r]
theorem wordA_formDm (op : BitVec 7) (d : SReg) (a : MReg) (k : SReg → MReg → Instr) :
    WordA.formDm (.r op d a.bits6 0 0) k = some (k d a) := by
  simp [WordA.formDm, WordA.r, mreg_of6_bits6]
theorem wordA_formMa (op : BitVec 7) (d : MReg) (a : SReg) (k : MReg → SReg → Instr) :
    WordA.formMa (.r op d.bits6 a 0 0) k = some (k d a) := by
  simp [WordA.formMa, WordA.r, mreg_of6_bits6]
theorem wordA_formMmm (op : BitVec 7) (d a b : MReg) (k : MReg → MReg → MReg → Instr) :
    WordA.formMmm (.r op d.bits6 a.bits6 b.bits6 0) k = some (k d a b) := by
  simp [WordA.formMmm, WordA.r, mreg_of6_bits6]
theorem wordA_formMm (op : BitVec 7) (d a : MReg) (k : MReg → MReg → Instr) :
    WordA.formMm (.r op d.bits6 a.bits6 0 0) k = some (k d a) := by
  simp [WordA.formMm, WordA.r, mreg_of6_bits6]
theorem wordA_formRri (op : BitVec 7) (d a : SReg) (i : BitVec 12) (k : SReg → SReg → BitVec 12 → Instr) :
    WordA.formRri (.i op d a i) k = some (k d a i) := by
  simp only [WordA.formRri, wordA_imm12]
  rfl
theorem wordA_formI (op : BitVec 7) (i : BitVec 12) (k : BitVec 12 → Instr) :
    WordA.formI (.i op 0 0 i) k = some (k i) := by
  simp only [WordA.formI, wordA_imm12]
  simp [WordA.i]
theorem wordA_formDi (op : BitVec 7) (d : SReg) (i : BitVec 12) (k : SReg → BitVec 12 → Instr) :
    WordA.formDi (.i op d 0 i) k = some (k d i) := by
  simp only [WordA.formDi, wordA_imm12]
  simp [WordA.i]
theorem wordA_formAi (op : BitVec 7) (a : SReg) (i : BitVec 12) (k : SReg → BitVec 12 → Instr) :
    WordA.formAi (.i op 0 a i) k = some (k a i) := by
  simp only [WordA.formAi, wordA_imm12]
  simp [WordA.i]
theorem wordA_formRi18 (op : BitVec 7) (d : SReg) (i : BitVec 18) (k : SReg → BitVec 18 → Instr) :
    WordA.formRi18 (.l op d i) k = some (k d i) := by
  simp only [WordA.formRi18, wordA_imm18]
  rfl
theorem wordA_formJ0 (op : BitVec 7) (i : BitVec 20) (k : BitVec 20 → Instr) :
    WordA.formJ0 (.j op 0 i) k = some (k i) := by
  simp only [WordA.formJ0, wordA_off20, wordA_cond]
  simp
theorem wordA_formJm (op : BitVec 7) (c : MReg) (i : BitVec 20) (k : MReg → BitVec 20 → Instr) :
    WordA.formJm (.j op c i) k = some (k c i) := by
  simp only [WordA.formJm, wordA_off20, wordA_cond]
theorem wordA_formRi16 (op : BitVec 7) (d : SReg) (i : BitVec 16) (k : SReg → BitVec 16 → Instr) :
    WordA.formRi16 (.l op d (0#2 ++ i)) k = some (k d i) := by
  simp only [WordA.formRi16, wordA_imm18]
  rw [extract_high _ _ _ _ (by decide), extract_low _ _ _ _ (by decide)]
  simp [WordA.l]
theorem wordA_formDi4 (op : BitVec 7) (d : SReg) (i : BitVec 4) (k : SReg → BitVec 4 → Instr) :
    WordA.formDi4 (.i op d 0 (0#8 ++ i)) k = some (k d i) := by
  simp only [WordA.formDi4, wordA_imm12]
  rw [extract_high _ _ _ _ (by decide), extract_low _ _ _ _ (by decide)]
  simp [WordA.i]
theorem wordA_formI4 (op : BitVec 7) (i : BitVec 4) (k : BitVec 4 → Instr) :
    WordA.formI4 (.i op 0 0 (0#8 ++ i)) k = some (k i) := by
  simp only [WordA.formI4, wordA_imm12]
  rw [extract_high _ _ _ _ (by decide), extract_low _ _ _ _ (by decide)]
  simp [WordA.i]
theorem wordA_formW (op : BitVec 7) (ld st : BitVec 6) (cp : BitVec 5) (tl : BitVec 4) (fx : BitVec 3)
    (k : BitVec 6 → BitVec 6 → BitVec 5 → BitVec 4 → BitVec 3 → Instr) :
    WordA.formW (.i op ld st (cp ++ tl ++ fx)) k = some (k ld st cp tl fx) := by
  have h1 : (cp ++ tl ++ fx).extractLsb' 7 5 = cp := by
    rw [extract_high _ _ _ _ (by decide), extract_high _ _ _ _ (by decide)]; simp
  have h2 : (cp ++ tl ++ fx).extractLsb' 3 4 = tl := by
    rw [extract_high _ _ _ _ (by decide), extract_low _ _ _ _ (by decide)]; simp
  have h3 : (cp ++ tl ++ fx).extractLsb' 0 3 = fx := by rw [extract_low _ _ _ _ (by decide)]; simp
  simp only [WordA.formW, wordA_imm12, h1, h2, h3]
  rfl
theorem wordB_formDab (op : BitVec 10) (g : Guard) (d a : VReg) (b : BitVec 8) (k : Guard → VReg → VReg → BitVec 8 → Instr) :
    WordB.formDab ⟨op, g, d, a, b, 0⟩ k = some (k g d a b) := by
  simp [WordB.formDab]
theorem wordB_formDabc (op : BitVec 10) (g : Guard) (d a : VReg) (b c : BitVec 8) (k : Guard → VReg → VReg → BitVec 8 → BitVec 8 → Instr) :
    WordB.formDabc ⟨op, g, d, a, b, c⟩ k = some (k g d a b c) := by
  simp [WordB.formDabc]
theorem wordB_formDa (op : BitVec 10) (g : Guard) (d a : VReg) (k : Guard → VReg → VReg → Instr) :
    WordB.formDa ⟨op, g, d, a, 0, 0⟩ k = some (k g d a) := by
  simp [WordB.formDa]
theorem wordB_formDabm (op : BitVec 10) (g : Guard) (d a b : VReg) (c : MReg) (k : Guard → VReg → VReg → VReg → MReg → Instr) :
    WordB.formDabm ⟨op, g, d, a, b, 0#4 ++ c⟩ k = some (k g d a b c) := by
  simp [WordB.formDabm, mreg_of8]
theorem wordB_formMab (op : BitVec 10) (g : Guard) (d : MReg) (a b : VReg) (k : Guard → MReg → VReg → VReg → Instr) :
    WordB.formMab ⟨op, g, 0#4 ++ d, a, b, 0⟩ k = some (k g d a b) := by
  simp [WordB.formMab, mreg_of8]
theorem wordB_formMm (op : BitVec 10) (g : Guard) (d a : MReg) (k : Guard → MReg → MReg → Instr) :
    WordB.formMm ⟨op, g, 0#4 ++ d, 0#4 ++ a, 0, 0⟩ k = some (k g d a) := by
  simp [WordB.formMm, mreg_of8]
theorem wordB_formDm (op : BitVec 10) (g : Guard) (d : VReg) (a : MReg) (k : Guard → VReg → MReg → Instr) :
    WordB.formDm ⟨op, g, d, 0#4 ++ a, 0, 0⟩ k = some (k g d a) := by
  simp [WordB.formDm, mreg_of8]
theorem wordC_formMem (op : BitVec 9) (g : Guard) (d : VReg) (m : Addr) (k : Guard → VReg → Addr → Instr) :
    WordC.formMem ⟨op, g, d, m.va, m.sb, m.ksc, m.off⟩ k = some (k g d m) := by
  rfl
theorem wordC_formPtr (op : BitVec 9) (g : Guard) (d a : VReg) (o : BitVec 23) (k : Guard → VReg → VReg → BitVec 23 → Instr) :
    WordC.formPtr ⟨op, g, d, a, 0, 0, o⟩ k = some (k g d a o) := by
  simp [WordC.formPtr]
theorem wordC_formQ (op : BitVec 9) (g : Guard) (d : VReg) (b : SReg) (o : BitVec 23) (k : Guard → VReg → SReg → BitVec 23 → Instr) :
    WordC.formQ ⟨op, g, d, 0, b, 7, o⟩ k = some (k g d b o) := by
  simp [WordC.formQ]
theorem wordC_formPf (op : BitVec 9) (g : Guard) (m : Addr) (k : Guard → Addr → Instr) :
    WordC.formPf ⟨op, g, 0, m.va, m.sb, m.ksc, m.off⟩ k = some (k g m) := by
  simp [WordC.formPf, WordC.addr]
theorem wordC_formDai (op : BitVec 9) (g : Guard) (d a : VReg) (i : BitVec 32) (k : Guard → VReg → VReg → BitVec 32 → Instr) :
    WordC.formDai (.imm op g d a i) k = some (k g d a i) := by
  simp only [WordC.formDai, wordC_imm32]
  rfl
theorem wordC_formDi (op : BitVec 9) (g : Guard) (d : VReg) (i : BitVec 32) (k : Guard → VReg → BitVec 32 → Instr) :
    WordC.formDi (.imm op g d 0 i) k = some (k g d i) := by
  simp only [WordC.formDi, wordC_imm32]
  simp [WordC.imm]
theorem wordC_formMai (op : BitVec 9) (g : Guard) (d : MReg) (a : VReg) (i : BitVec 32) (k : Guard → MReg → VReg → BitVec 32 → Instr) :
    WordC.formMai (.imm op g (0#4 ++ d) a i) k = some (k g d a i) := by
  simp only [WordC.formMai, wordC_imm32]
  simp [WordC.imm, mreg_of8]
theorem wordC_formSlot (op : BitVec 9) (d : VReg) (n : BitVec 8) (k : VReg → BitVec 8 → Instr) :
    WordC.formSlot ⟨op, Guard.none, d, 0, 0, 0, 0#15 ++ n⟩ k = some (k d n) := by
  simp only [WordC.formSlot]
  rw [extract_high _ _ _ _ (by decide), extract_low _ _ _ _ (by decide)]
  simp
theorem wordD_formD (op : BitVec 8) (d : SReg) (k : SReg → Instr) :
    WordD.formD { op := op, sd := d } k = some (k d) := by
  simp [WordD.formD, WordD.blank]
theorem wordD_formA (op : BitVec 8) (a : SReg) (k : SReg → Instr) :
    WordD.formA { op := op, sa := a } k = some (k a) := by
  simp [WordD.formA, WordD.blank]
theorem wordD_formAb (op : BitVec 8) (a b : SReg) (k : SReg → SReg → Instr) :
    WordD.formAb { op := op, sa := a, sb := b } k = some (k a b) := by
  simp [WordD.formAb, WordD.blank]
theorem wordD_formAbc (op : BitVec 8) (a b c : SReg) (k : SReg → SReg → SReg → Instr) :
    WordD.formAbc { op := op, sa := a, sb := b, sc := c } k = some (k a b c) := by
  simp [WordD.formAbc, WordD.blank]
theorem wordD_formK (op : BitVec 8) (e : EngKind) (k : EngKind → Instr) :
    WordD.formK { op := op, imm := e.code } k = some (k e) := by
  simp [WordD.formK, WordD.blank, engKind_code]
theorem wordD_formDk (op : BitVec 8) (d : SReg) (e : EngKind) (k : SReg → EngKind → Instr) :
    WordD.formDk { op := op, sd := d, imm := e.code } k = some (k d e) := by
  simp [WordD.formDk, WordD.blank, engKind_code]
theorem wordD_formDa (op : BitVec 8) (d a : SReg) (k : SReg → SReg → Instr) :
    WordD.formDa { op := op, sd := d, sa := a } k = some (k d a) := by
  simp [WordD.formDa, WordD.blank]
theorem wordD_formDab (op : BitVec 8) (d a b : SReg) (k : SReg → SReg → SReg → Instr) :
    WordD.formDab { op := op, sd := d, sa := a, sb := b } k = some (k d a b) := by
  simp [WordD.formDab, WordD.blank]
theorem wordD_formDc (op : BitVec 8) (d c : SReg) (k : SReg → SReg → Instr) :
    WordD.formDc { op := op, sd := d, sc := c } k = some (k d c) := by
  simp [WordD.formDc, WordD.blank]
theorem wordD_formVdabc (op : BitVec 8) (v : VReg) (d a b c : SReg) (k : VReg → SReg → SReg → SReg → SReg → Instr) :
    WordD.formVdabc { op := op, va := v, sd := d, sa := a, sb := b, sc := c } k = some (k v d a b c) := by
  simp [WordD.formVdabc, WordD.blank]
theorem wordD_formDabf (op : BitVec 8) (d a b : SReg) (f : SelFlags) (k : SReg → SReg → SReg → SelFlags → Instr) :
    WordD.formDabf { op := op, sd := d, sa := a, sb := b, imm := f.code } k = some (k d a b f) := by
  simp [WordD.formDabf, WordD.blank, selFlags_code]
theorem wordD_formDabcf (op : BitVec 8) (d a b c : SReg) (f : SelFlags) (k : SReg → SReg → SReg → SReg → SelFlags → Instr) :
    WordD.formDabcf { op := op, sd := d, sa := a, sb := b, sc := c, imm := f.code } k = some (k d a b c f) := by
  simp [WordD.formDabcf, WordD.blank, selFlags_code]
theorem wordD_formLvl (op : BitVec 8) (l : Lvl) (a : SReg) (k : Lvl → SReg → Instr) :
    WordD.formLvl { op := op, sa := a, imm := l.code } k = some (k l a) := by
  simp [WordD.formLvl, WordD.blank, lvl_code]
theorem wordD_formCopy (op : BitVec 8) (o : CopyOps) (k : CopyOps → Instr) :
    WordD.formCopy (.copy op o) k = some (k o) := by
  obtain ⟨sb, sa, sc, t, sd⟩ := o
  cases t <;> simp [WordD.formCopy, WordD.copy, WordD.blank]
theorem wordD_formSlota (op : BitVec 8) (n : BitVec 2) (a : SReg) (k : BitVec 2 → SReg → Instr) :
    WordD.formSlota { op := op, sa := a, imm := n.zeroExtend 32 } k = some (k n a) := by
  have h0 : (n.zeroExtend 32).extractLsb' 2 30 = 0 := by revert n; decide
  have h1 : (n.zeroExtend 32).extractLsb' 0 2 = n := by revert n; decide
  simp only [WordD.formSlota, h0, h1]
  simp [WordD.blank]
theorem wordD_formEv (op : BitVec 8) (g : Guard) (d a : VReg) (n : BitVec 2) (k : Guard → VReg → VReg → BitVec 2 → Instr) :
    WordD.formEv { op := op, g := g, vd := d, va := a, imm := n.zeroExtend 32 } k = some (k g d a n) := by
  have h0 : (n.zeroExtend 32).extractLsb' 2 30 = 0 := by revert n; decide
  have h1 : (n.zeroExtend 32).extractLsb' 0 2 = n := by revert n; decide
  simp only [WordD.formEv, h0, h1]
  simp [WordD.blank]
theorem wordD_formAq (op : BitVec 8) (a : SReg) (q : BitVec 4) (k : SReg → BitVec 4 → Instr) :
    WordD.formAq { op := op, sa := a, imm := q.zeroExtend 32 } k = some (k a q) := by
  have h0 : (q.zeroExtend 32).extractLsb' 4 28 = 0 := by revert q; decide
  have h1 : (q.zeroExtend 32).extractLsb' 0 4 = q := by revert q; decide
  simp only [WordD.formAq, h0, h1]
  simp [WordD.blank]
theorem wordD_formBdcs (op : BitVec 8) (b d c : SReg) (n : BitVec 8) (k : SReg → SReg → SReg → BitVec 8 → Instr) :
    WordD.formBdcs { op := op, sb := b, sd := d, sc := c, imm := n.signExtend 32 } k = some (k b d c n) := by
  have h1 : (n.signExtend 32).extractLsb' 0 8 = n := by revert n; decide
  simp only [WordD.formBdcs, h1]
  simp [WordD.blank]
theorem wordD_formSusp (op : BitVec 8) (d a : SReg) (t b : Bool) (k : SReg → SReg → Bool → Bool → Instr) :
    WordD.formSusp { op := op, sd := d, sa := a, imm := (0#30 ++ BitVec.ofBool b) ++ BitVec.ofBool t } k = some (k d a t b) := by
  cases t <;> cases b <;> simp [WordD.formSusp, WordD.blank]
theorem decodeE_regang (m : Byte) : decodeE (0xF2#8 ++ m) = some (.regang m) := by
  have h0 : (0xF2#8 ++ m).extractLsb' 0 8 = m := by rw [extract_low _ _ _ _ (by decide)]; simp
  have h1 : (0xF2#8 ++ m).extractLsb' 8 3 = 2#3 := by rw [extract_high _ _ _ _ (by decide)]; decide
  simp only [decodeE, h0, h1]
  rfl
theorem decodeE_brk (m : Byte) : decodeE (0xF4#8 ++ m) = some (.brk m) := by
  have h0 : (0xF4#8 ++ m).extractLsb' 0 8 = m := by rw [extract_low _ _ _ _ (by decide)]; simp
  have h1 : (0xF4#8 ++ m).extractLsb' 8 3 = 4#3 := by rw [extract_high _ _ _ _ (by decide)]; decide
  simp only [decodeE, h0, h1]
  rfl

end Sys2Proof
end

