-- ==== Sys2Proof/Laws/PerInstr.lean ====
section
/-!
SUPPORT. Decoding reads back what the encoder writes (R73 to R82), instruction by instruction.
-/

namespace Sys2Proof.Laws.RoundTrip

set_option Elab.async false

/-- An encoding of a well-formed instruction, at the head of any bytes, decodes to it and to its length. -/
def Statement (i : Instr) : Prop :=
  ∀ bs rest : List Byte, i.wf = true → encode i = some bs → decode (bs ++ rest) = .ok (i, bs.length)

theorem ofClassA (i : Instr) (f : WordA) (he : encodeWord i = some (.a, f.bits.toNat)) (hd : decodeA f = some i) :
    Statement i := by
  intro bs rest hw h
  simp only [encode, he, Option.map_some, Option.some.injEq] at h
  subst h
  rw [beBytes_length]
  exact decode_wordA f i rest hd hw
theorem ofClassB (i : Instr) (f : WordB) (he : encodeWord i = some (.b, f.bits.toNat)) (hd : decodeB f = some i) :
    Statement i := by
  intro bs rest hw h
  simp only [encode, he, Option.map_some, Option.some.injEq] at h
  subst h
  rw [beBytes_length]
  exact decode_wordB f i rest hd hw
theorem ofClassC (i : Instr) (f : WordC) (he : encodeWord i = some (.c, f.bits.toNat)) (hd : decodeC f = some i) :
    Statement i := by
  intro bs rest hw h
  simp only [encode, he, Option.map_some, Option.some.injEq] at h
  subst h
  rw [beBytes_length]
  exact decode_wordC f i rest hd hw
theorem ofClassD (i : Instr) (f : WordD) (he : encodeWord i = some (.d, f.bits.toNat)) (hd : decodeD f = some i) :
    Statement i := by
  intro bs rest hw h
  simp only [encode, he, Option.map_some, Option.some.injEq] at h
  subst h
  rw [beBytes_length]
  exact decode_wordD f i rest hd hw
/-- A class E word (R79), by its code and argument. -/
theorem ofClassE (i : Instr) (c arg : Byte) (hc : 0xF0 ≤ c.toNat ∧ c.toNat < 0xF6)
    (he : encodeWord i = some (.e, (c ++ arg).toNat)) (hd : decodeE (c ++ arg) = some i) : Statement i := by
  intro bs rest hw h
  simp only [encode, he, Option.map_some, Option.some.injEq] at h
  subst h
  rw [beBytes_length]
  have hlt := (c ++ arg).isLt
  have hdiv : (c ++ arg).toNat / 256 = c.toNat := by
    have := top_of_extract (c ++ arg) 8 8 c.toNat (by rw [extract_high _ _ _ _ (by decide)]; simp)
    omega
  refine decode_word .e _ i rest (by simpa [Class.length] using hlt) ?_ (by simpa [decodeClass] using hd) hw
  simp only [Class.length, Nat.reduceSub, Nat.pow_one, hdiv, Class.ofByte, BitVec.ofNat_toNat, BitVec.setWidth_eq]
  simp only [show ¬ c.toNat < 0x80 by omega, show ¬ c.toNat < 0xC0 by omega, show ¬ c.toNat < 0xE0 by omega,
    show ¬ c.toNat < 0xF0 by omega, hc.2, if_true, if_false]
/-- A row that has no encoding. -/
theorem ofNone (i : Instr) (he : encodeWord i = none) : Statement i := by
  intro bs rest _ h
  simp [encode, he] at h

theorem add (d : SReg) (a : SReg) (b : SReg) : Statement (.add d a b) := by
  exact ofClassA _ _ rfl (wordA_formRrr _ _ _ _ _)
theorem sub (d : SReg) (a : SReg) (b : SReg) : Statement (.sub d a b) := by
  exact ofClassA _ _ rfl (wordA_formRrr _ _ _ _ _)
theorem mul (d : SReg) (a : SReg) (b : SReg) : Statement (.mul d a b) := by
  exact ofClassA _ _ rfl (wordA_formRrr _ _ _ _ _)
theorem mulhI (d : SReg) (a : SReg) (b : SReg) : Statement (.mulhI d a b) := by
  exact ofClassA _ _ rfl (wordA_formRrr _ _ _ _ _)
theorem mulhN (d : SReg) (a : SReg) (b : SReg) : Statement (.mulhN d a b) := by
  exact ofClassA _ _ rfl (wordA_formRrr _ _ _ _ _)
theorem divI (d : SReg) (a : SReg) (b : SReg) : Statement (.divI d a b) := by
  exact ofClassA _ _ rfl (wordA_formRrr _ _ _ _ _)
theorem divN (d : SReg) (a : SReg) (b : SReg) : Statement (.divN d a b) := by
  exact ofClassA _ _ rfl (wordA_formRrr _ _ _ _ _)
theorem remI (d : SReg) (a : SReg) (b : SReg) : Statement (.remI d a b) := by
  exact ofClassA _ _ rfl (wordA_formRrr _ _ _ _ _)
theorem remN (d : SReg) (a : SReg) (b : SReg) : Statement (.remN d a b) := by
  exact ofClassA _ _ rfl (wordA_formRrr _ _ _ _ _)
theorem and (d : SReg) (a : SReg) (b : SReg) : Statement (.and d a b) := by
  exact ofClassA _ _ rfl (wordA_formRrr _ _ _ _ _)
theorem or (d : SReg) (a : SReg) (b : SReg) : Statement (.or d a b) := by
  exact ofClassA _ _ rfl (wordA_formRrr _ _ _ _ _)
theorem xor (d : SReg) (a : SReg) (b : SReg) : Statement (.xor d a b) := by
  exact ofClassA _ _ rfl (wordA_formRrr _ _ _ _ _)
theorem andn (d : SReg) (a : SReg) (b : SReg) : Statement (.andn d a b) := by
  exact ofClassA _ _ rfl (wordA_formRrr _ _ _ _ _)
theorem shl (d : SReg) (a : SReg) (b : SReg) : Statement (.shl d a b) := by
  exact ofClassA _ _ rfl (wordA_formRrr _ _ _ _ _)
theorem shrN (d : SReg) (a : SReg) (b : SReg) : Statement (.shrN d a b) := by
  exact ofClassA _ _ rfl (wordA_formRrr _ _ _ _ _)
theorem shrI (d : SReg) (a : SReg) (b : SReg) : Statement (.shrI d a b) := by
  exact ofClassA _ _ rfl (wordA_formRrr _ _ _ _ _)
theorem rot (d : SReg) (a : SReg) (b : SReg) : Statement (.rot d a b) := by
  exact ofClassA _ _ rfl (wordA_formRrr _ _ _ _ _)
theorem minI (d : SReg) (a : SReg) (b : SReg) : Statement (.minI d a b) := by
  exact ofClassA _ _ rfl (wordA_formRrr _ _ _ _ _)
theorem minN (d : SReg) (a : SReg) (b : SReg) : Statement (.minN d a b) := by
  exact ofClassA _ _ rfl (wordA_formRrr _ _ _ _ _)
theorem maxI (d : SReg) (a : SReg) (b : SReg) : Statement (.maxI d a b) := by
  exact ofClassA _ _ rfl (wordA_formRrr _ _ _ _ _)
theorem maxN (d : SReg) (a : SReg) (b : SReg) : Statement (.maxN d a b) := by
  exact ofClassA _ _ rfl (wordA_formRrr _ _ _ _ _)
theorem sel (d : SReg) (a : SReg) (b : SReg) (c : SReg) : Statement (.sel d a b c) := by
  exact ofClassA _ _ rfl (wordA_formRrrr _ _ _ _ _ _)
theorem lea (d : SReg) (a : SReg) (b : SReg) (k : BitVec 6) : Statement (.lea d a b k) := by
  exact ofClassA _ _ rfl (wordA_formRrrr _ _ _ _ _ _)
theorem clz (d : SReg) (a : SReg) : Statement (.clz d a) := by
  exact ofClassA _ _ rfl (wordA_formRr _ _ _ _)
theorem ctz (d : SReg) (a : SReg) : Statement (.ctz d a) := by
  exact ofClassA _ _ rfl (wordA_formRr _ _ _ _)
theorem popc (d : SReg) (a : SReg) : Statement (.popc d a) := by
  exact ofClassA _ _ rfl (wordA_formRr _ _ _ _)
theorem sext (d : SReg) (a : SReg) (n : BitVec 6) : Statement (.sext d a n) := by
  exact ofClassA _ _ rfl (wordA_formRrc _ _ _ _ _)
theorem zext (d : SReg) (a : SReg) (n : BitVec 6) : Statement (.zext d a n) := by
  exact ofClassA _ _ rfl (wordA_formRrc _ _ _ _ _)
theorem mov (d : SReg) (a : SReg) : Statement (.mov d a) := by
  exact ofClassA _ _ rfl (wordA_formRr _ _ _ _)
theorem cmpEq (d : SReg) (a : SReg) (b : SReg) : Statement (.cmpEq d a b) := by
  exact ofClassA _ _ rfl (wordA_formRrr _ _ _ _ _)
theorem cmpNe (d : SReg) (a : SReg) (b : SReg) : Statement (.cmpNe d a b) := by
  exact ofClassA _ _ rfl (wordA_formRrr _ _ _ _ _)
theorem cmpLtI (d : SReg) (a : SReg) (b : SReg) : Statement (.cmpLtI d a b) := by
  exact ofClassA _ _ rfl (wordA_formRrr _ _ _ _ _)
theorem cmpLtN (d : SReg) (a : SReg) (b : SReg) : Statement (.cmpLtN d a b) := by
  exact ofClassA _ _ rfl (wordA_formRrr _ _ _ _ _)
theorem cmpLeI (d : SReg) (a : SReg) (b : SReg) : Statement (.cmpLeI d a b) := by
  exact ofClassA _ _ rfl (wordA_formRrr _ _ _ _ _)
theorem cmpLeN (d : SReg) (a : SReg) (b : SReg) : Statement (.cmpLeN d a b) := by
  exact ofClassA _ _ rfl (wordA_formRrr _ _ _ _ _)
theorem addi (d : SReg) (a : SReg) (i : BitVec 12) : Statement (.addi d a i) := by
  exact ofClassA _ _ rfl (wordA_formRri _ _ _ _ _)
theorem andi (d : SReg) (a : SReg) (i : BitVec 12) : Statement (.andi d a i) := by
  exact ofClassA _ _ rfl (wordA_formRri _ _ _ _ _)
theorem ori (d : SReg) (a : SReg) (i : BitVec 12) : Statement (.ori d a i) := by
  exact ofClassA _ _ rfl (wordA_formRri _ _ _ _ _)
theorem xori (d : SReg) (a : SReg) (i : BitVec 12) : Statement (.xori d a i) := by
  exact ofClassA _ _ rfl (wordA_formRri _ _ _ _ _)
theorem shli (d : SReg) (a : SReg) (k : BitVec 6) : Statement (.shli d a k) := by
  exact ofClassA _ _ rfl (wordA_formRrc _ _ _ _ _)
theorem shriN (d : SReg) (a : SReg) (k : BitVec 6) : Statement (.shriN d a k) := by
  exact ofClassA _ _ rfl (wordA_formRrc _ _ _ _ _)
theorem shriI (d : SReg) (a : SReg) (k : BitVec 6) : Statement (.shriI d a k) := by
  exact ofClassA _ _ rfl (wordA_formRrc _ _ _ _ _)
theorem li (d : SReg) (i : BitVec 18) : Statement (.li d i) := by
  exact ofClassA _ _ rfl (wordA_formRi18 _ _ _ _)
theorem lih (d : SReg) (i : BitVec 16) : Statement (.lih d i) := by
  exact ofClassA _ _ rfl (wordA_formRi16 _ _ _ _)
theorem br (o : BitVec 20) : Statement (.br o) := by
  exact ofClassA _ _ rfl (wordA_formJ0 _ _ _)
theorem call (o : BitVec 20) : Statement (.call o) := by
  exact ofClassA _ _ rfl (wordA_formJ0 _ _ _)
theorem bz (d : SReg) (o : BitVec 18) : Statement (.bz d o) := by
  exact ofClassA _ _ rfl (wordA_formRi18 _ _ _ _)
theorem bnz (d : SReg) (o : BitVec 18) : Statement (.bnz d o) := by
  exact ofClassA _ _ rfl (wordA_formRi18 _ _ _ _)
theorem bmany (c : MReg) (o : BitVec 20) : Statement (.bmany c o) := by
  exact ofClassA _ _ rfl (wordA_formJm _ _ _ _)
theorem bmall (c : MReg) (o : BitVec 20) : Statement (.bmall c o) := by
  exact ofClassA _ _ rfl (wordA_formJm _ _ _ _)
theorem bmnone (c : MReg) (o : BitVec 20) : Statement (.bmnone c o) := by
  exact ofClassA _ _ rfl (wordA_formJm _ _ _ _)
theorem jr (a : SReg) : Statement (.jr a) := by
  exact ofClassA _ _ rfl (wordA_formA _ _ _)
theorem ret : Statement (.ret) := by
  exact ofClassA _ _ rfl (wordA_formZ _ _)
theorem trap (code : BitVec 12) : Statement (.trap code) := by
  exact ofClassA _ _ rfl (wordA_formI _ _ _)
theorem rett : Statement (.rett) := by
  exact ofClassA _ _ rfl (wordA_formZ _ _)
theorem wait (ld : BitVec 6) (st : BitVec 6) (cp : BitVec 5) (tl : BitVec 4) (fx : BitVec 3) : Statement (.wait ld st cp tl fx) := by
  exact ofClassA _ _ rfl (wordA_formW _ _ _ _ _ _ _)
theorem sget (d : SReg) (n : BitVec 12) : Statement (.sget d n) := by
  exact ofClassA _ _ rfl (wordA_formDi _ _ _ _)
theorem sset (a : SReg) (n : BitVec 12) : Statement (.sset a n) := by
  exact ofClassA _ _ rfl (wordA_formAi _ _ _ _)
theorem cclrReg (a : SReg) : Statement (.cclrReg a) := by
  exact ofClassA _ _ rfl (wordA_formA _ _ _)
theorem cclrImm (c : BitVec 6) : Statement (.cclrImm c) := by
  exact ofClassA _ _ rfl (wordA_formC _ _ _)
theorem regrel (n : BitVec 6) : Statement (.regrel n) := by
  exact ofClassA _ _ rfl (wordA_formC _ _ _)
theorem regclm (n : BitVec 6) : Statement (.regclm n) := by
  exact ofClassA _ _ rfl (wordA_formC _ _ _)
theorem mget (d : SReg) (a : MReg) : Statement (.mget d a) := by
  exact ofClassA _ _ rfl (wordA_formDm _ _ _ _)
theorem mset (d : MReg) (a : SReg) : Statement (.mset d a) := by
  exact ofClassA _ _ rfl (wordA_formMa _ _ _ _)
theorem mand (d : MReg) (a : MReg) (b : MReg) : Statement (.mand d a b) := by
  exact ofClassA _ _ rfl (wordA_formMmm _ _ _ _ _)
theorem mor (d : MReg) (a : MReg) (b : MReg) : Statement (.mor d a b) := by
  exact ofClassA _ _ rfl (wordA_formMmm _ _ _ _ _)
theorem mxor (d : MReg) (a : MReg) (b : MReg) : Statement (.mxor d a b) := by
  exact ofClassA _ _ rfl (wordA_formMmm _ _ _ _ _)
theorem mandn (d : MReg) (a : MReg) (b : MReg) : Statement (.mandn d a b) := by
  exact ofClassA _ _ rfl (wordA_formMmm _ _ _ _ _)
theorem mnot (d : MReg) (a : MReg) : Statement (.mnot d a) := by
  exact ofClassA _ _ rfl (wordA_formMm _ _ _ _)
theorem mpop (d : SReg) (a : MReg) : Statement (.mpop d a) := by
  exact ofClassA _ _ rfl (wordA_formDm _ _ _ _)
theorem mffs (d : SReg) (a : MReg) : Statement (.mffs d a) := by
  exact ofClassA _ _ rfl (wordA_formDm _ _ _ _)
theorem sld8 (d : SReg) (a : SReg) (i : BitVec 12) : Statement (.sld8 d a i) := by
  exact ofClassA _ _ rfl (wordA_formRri _ _ _ _ _)
theorem sld16 (d : SReg) (a : SReg) (i : BitVec 12) : Statement (.sld16 d a i) := by
  exact ofClassA _ _ rfl (wordA_formRri _ _ _ _ _)
theorem sld32 (d : SReg) (a : SReg) (i : BitVec 12) : Statement (.sld32 d a i) := by
  exact ofClassA _ _ rfl (wordA_formRri _ _ _ _ _)
theorem sld64 (d : SReg) (a : SReg) (i : BitVec 12) : Statement (.sld64 d a i) := by
  exact ofClassA _ _ rfl (wordA_formRri _ _ _ _ _)
theorem sst8 (d : SReg) (a : SReg) (i : BitVec 12) : Statement (.sst8 d a i) := by
  exact ofClassA _ _ rfl (wordA_formRri _ _ _ _ _)
theorem sst16 (d : SReg) (a : SReg) (i : BitVec 12) : Statement (.sst16 d a i) := by
  exact ofClassA _ _ rfl (wordA_formRri _ _ _ _ _)
theorem sst32 (d : SReg) (a : SReg) (i : BitVec 12) : Statement (.sst32 d a i) := by
  exact ofClassA _ _ rfl (wordA_formRri _ _ _ _ _)
theorem sst64 (d : SReg) (a : SReg) (i : BitVec 12) : Statement (.sst64 d a i) := by
  exact ofClassA _ _ rfl (wordA_formRri _ _ _ _ _)
theorem mon (a : SReg) (i : BitVec 12) : Statement (.mon a i) := by
  exact ofClassA _ _ rfl (wordA_formAi _ _ _ _)
theorem mwait (a : SReg) : Statement (.mwait a) := by
  exact ofClassA _ _ rfl (wordA_formA _ _ _)
theorem tagwaitAny (a : SReg) : Statement (.tagwaitAny a) := by
  exact ofClassA _ _ rfl (wordA_formA _ _ _)
theorem tagwaitAll (a : SReg) : Statement (.tagwaitAll a) := by
  exact ofClassA _ _ rfl (wordA_formA _ _ _)
theorem tagffs (d : SReg) (a : SReg) : Statement (.tagffs d a) := by
  exact ofClassA _ _ rfl (wordA_formRr _ _ _ _)
theorem cinc (d : SReg) (a : SReg) (i : BitVec 12) : Statement (.cinc d a i) := by
  exact ofClassA _ _ rfl (wordA_formRri _ _ _ _ _)
theorem bbinit (d : SReg) (a : SReg) (i : BitVec 12) : Statement (.bbinit d a i) := by
  exact ofClassA _ _ rfl (wordA_formRri _ _ _ _ _)
theorem bbexp (d : SReg) (a : SReg) (i : BitVec 12) : Statement (.bbexp d a i) := by
  exact ofClassA _ _ rfl (wordA_formRri _ _ _ _ _)
theorem bbexpNum (d : SReg) (b : BitVec 4) : Statement (.bbexpNum d b) := by
  exact ofClassA _ _ rfl (wordA_formDi4 _ _ _ _)
theorem bbwait (a : SReg) (i : BitVec 12) : Statement (.bbwait a i) := by
  exact ofClassA _ _ rfl (wordA_formAi _ _ _ _)
theorem bbwaitNum (b : BitVec 4) : Statement (.bbwaitNum b) := by
  exact ofClassA _ _ rfl (wordA_formI4 _ _ _)
theorem nop : Statement (.nop) := ofClassE _ 0xF0 0 (by decide) rfl rfl
theorem yield : Statement (.yield) := ofClassE _ 0xF1 0 (by decide) rfl rfl
theorem regang (m : StrandMask) : Statement (.regang m) := ofClassE _ 0xF2 m (by decide) rfl (decodeE_regang _)
theorem exit : Statement (.exit) := ofClassE _ 0xF3 0 (by decide) rfl rfl
theorem brk (code : BitVec 8) : Statement (.brk code) := ofClassE _ 0xF4 code (by decide) rfl (decodeE_brk _)
theorem trigger : Statement (.trigger) := ofClassE _ 0xF5 0 (by decide) rfl rfl
theorem pad : Statement .pad := by
  intro bs rest _ h
  have h : some (beBytes 1 255) = some bs := h
  cases h
  rfl
theorem illegalEncoding : Statement (.illegalEncoding) := ofNone _ rfl
theorem iadd (g : Guard) (d : VReg) (a : VReg) (b : VReg) : Statement (.iadd g d a b) := by
  exact ofClassB _ _ rfl (wordB_formDab _ _ _ _ _ _)
theorem isub (g : Guard) (d : VReg) (a : VReg) (b : VReg) : Statement (.isub g d a b) := by
  exact ofClassB _ _ rfl (wordB_formDab _ _ _ _ _ _)
theorem imul (g : Guard) (d : VReg) (a : VReg) (b : VReg) : Statement (.imul g d a b) := by
  exact ofClassB _ _ rfl (wordB_formDab _ _ _ _ _ _)
theorem imulhI (g : Guard) (d : VReg) (a : VReg) (b : VReg) : Statement (.imulhI g d a b) := by
  exact ofClassB _ _ rfl (wordB_formDab _ _ _ _ _ _)
theorem imulhN (g : Guard) (d : VReg) (a : VReg) (b : VReg) : Statement (.imulhN g d a b) := by
  exact ofClassB _ _ rfl (wordB_formDab _ _ _ _ _ _)
theorem imad (g : Guard) (d : VReg) (a : VReg) (b : VReg) (c : VReg) : Statement (.imad g d a b c) := by
  exact ofClassB _ _ rfl (wordB_formDabc _ _ _ _ _ _ _)
theorem iabs (g : Guard) (d : VReg) (a : VReg) : Statement (.iabs g d a) := by
  exact ofClassB _ _ rfl (wordB_formDa _ _ _ _ _)
theorem ineg (g : Guard) (d : VReg) (a : VReg) : Statement (.ineg g d a) := by
  exact ofClassB _ _ rfl (wordB_formDa _ _ _ _ _)
theorem iminI (g : Guard) (d : VReg) (a : VReg) (b : VReg) : Statement (.iminI g d a b) := by
  exact ofClassB _ _ rfl (wordB_formDab _ _ _ _ _ _)
theorem iminN (g : Guard) (d : VReg) (a : VReg) (b : VReg) : Statement (.iminN g d a b) := by
  exact ofClassB _ _ rfl (wordB_formDab _ _ _ _ _ _)
theorem imaxI (g : Guard) (d : VReg) (a : VReg) (b : VReg) : Statement (.imaxI g d a b) := by
  exact ofClassB _ _ rfl (wordB_formDab _ _ _ _ _ _)
theorem imaxN (g : Guard) (d : VReg) (a : VReg) (b : VReg) : Statement (.imaxN g d a b) := by
  exact ofClassB _ _ rfl (wordB_formDab _ _ _ _ _ _)
theorem laneAnd (g : Guard) (d : VReg) (a : VReg) (b : VReg) : Statement (.laneAnd g d a b) := by
  exact ofClassB _ _ rfl (wordB_formDab _ _ _ _ _ _)
theorem laneOr (g : Guard) (d : VReg) (a : VReg) (b : VReg) : Statement (.laneOr g d a b) := by
  exact ofClassB _ _ rfl (wordB_formDab _ _ _ _ _ _)
theorem laneXor (g : Guard) (d : VReg) (a : VReg) (b : VReg) : Statement (.laneXor g d a b) := by
  exact ofClassB _ _ rfl (wordB_formDab _ _ _ _ _ _)
theorem laneAndn (g : Guard) (d : VReg) (a : VReg) (b : VReg) : Statement (.laneAndn g d a b) := by
  exact ofClassB _ _ rfl (wordB_formDab _ _ _ _ _ _)
theorem not (g : Guard) (d : VReg) (a : VReg) : Statement (.not g d a) := by
  exact ofClassB _ _ rfl (wordB_formDa _ _ _ _ _)
theorem laneShl (g : Guard) (d : VReg) (a : VReg) (b : VReg) : Statement (.laneShl g d a b) := by
  exact ofClassB _ _ rfl (wordB_formDab _ _ _ _ _ _)
theorem laneShrI (g : Guard) (d : VReg) (a : VReg) (b : VReg) : Statement (.laneShrI g d a b) := by
  exact ofClassB _ _ rfl (wordB_formDab _ _ _ _ _ _)
theorem laneShrN (g : Guard) (d : VReg) (a : VReg) (b : VReg) : Statement (.laneShrN g d a b) := by
  exact ofClassB _ _ rfl (wordB_formDab _ _ _ _ _ _)
theorem laneRot (g : Guard) (d : VReg) (a : VReg) (b : VReg) : Statement (.laneRot g d a b) := by
  exact ofClassB _ _ rfl (wordB_formDab _ _ _ _ _ _)
theorem bfeI (g : Guard) (d : VReg) (a : VReg) (pos : BitVec 8) (len : BitVec 8) : Statement (.bfeI g d a pos len) := by
  exact ofClassB _ _ rfl (wordB_formDabc _ _ _ _ _ _ _)
theorem bfeN (g : Guard) (d : VReg) (a : VReg) (pos : BitVec 8) (len : BitVec 8) : Statement (.bfeN g d a pos len) := by
  exact ofClassB _ _ rfl (wordB_formDabc _ _ _ _ _ _ _)
theorem bfi (g : Guard) (d : VReg) (a : VReg) (pos : BitVec 8) (len : BitVec 8) : Statement (.bfi g d a pos len) := by
  exact ofClassB _ _ rfl (wordB_formDabc _ _ _ _ _ _ _)
theorem lanePopc (g : Guard) (d : VReg) (a : VReg) : Statement (.lanePopc g d a) := by
  exact ofClassB _ _ rfl (wordB_formDa _ _ _ _ _)
theorem laneClz (g : Guard) (d : VReg) (a : VReg) : Statement (.laneClz g d a) := by
  exact ofClassB _ _ rfl (wordB_formDa _ _ _ _ _)
theorem brev (g : Guard) (d : VReg) (a : VReg) : Statement (.brev g d a) := by
  exact ofClassB _ _ rfl (wordB_formDa _ _ _ _ _)
theorem laneSel (g : Guard) (d : VReg) (a : VReg) (b : VReg) (c : MReg) : Statement (.laneSel g d a b c) := by
  exact ofClassB _ _ rfl (wordB_formDabm _ _ _ _ _ _ _)
theorem icmp (cc : ICmp) (g : Guard) (d : MReg) (a : VReg) (b : VReg) : Statement (.icmp cc g d a b) := by
  cases cc <;> exact ofClassB _ _ rfl (wordB_formMab _ _ _ _ _ _)
theorem dp4I (g : Guard) (d : VReg) (a : VReg) (b : VReg) (c : VReg) : Statement (.dp4I g d a b c) := by
  exact ofClassB _ _ rfl (wordB_formDabc _ _ _ _ _ _ _)
theorem dp4N (g : Guard) (d : VReg) (a : VReg) (b : VReg) (c : VReg) : Statement (.dp4N g d a b c) := by
  exact ofClassB _ _ rfl (wordB_formDabc _ _ _ _ _ _ _)
theorem add64 (g : Guard) (d : VReg) (a : VReg) (b : VReg) : Statement (.add64 g d a b) := by
  exact ofClassB _ _ rfl (wordB_formDab _ _ _ _ _ _)
theorem mad64N (g : Guard) (d : VReg) (a : VReg) (b : VReg) (c : VReg) : Statement (.mad64N g d a b c) := by
  exact ofClassB _ _ rfl (wordB_formDabc _ _ _ _ _ _ _)
theorem lea64 (g : Guard) (d : VReg) (a : VReg) (b : VReg) (k : BitVec 8) : Statement (.lea64 g d a b k) := by
  exact ofClassB _ _ rfl (wordB_formDabc _ _ _ _ _ _ _)
theorem fadd (r : Rnd) (g : Guard) (d : VReg) (a : VReg) (b : VReg) : Statement (.fadd r g d a b) := by
  cases r <;> exact ofClassB _ _ rfl (wordB_formDab _ _ _ _ _ _)
theorem fsub (r : Rnd) (g : Guard) (d : VReg) (a : VReg) (b : VReg) : Statement (.fsub r g d a b) := by
  cases r <;> exact ofClassB _ _ rfl (wordB_formDab _ _ _ _ _ _)
theorem fmul (r : Rnd) (g : Guard) (d : VReg) (a : VReg) (b : VReg) : Statement (.fmul r g d a b) := by
  cases r <;> exact ofClassB _ _ rfl (wordB_formDab _ _ _ _ _ _)
theorem fma (r : Rnd) (g : Guard) (d : VReg) (a : VReg) (b : VReg) (c : VReg) : Statement (.fma r g d a b c) := by
  cases r <;> exact ofClassB _ _ rfl (wordB_formDabc _ _ _ _ _ _ _)
theorem fmin (g : Guard) (d : VReg) (a : VReg) (b : VReg) : Statement (.fmin g d a b) := by
  exact ofClassB _ _ rfl (wordB_formDab _ _ _ _ _ _)
theorem fmax (g : Guard) (d : VReg) (a : VReg) (b : VReg) : Statement (.fmax g d a b) := by
  exact ofClassB _ _ rfl (wordB_formDab _ _ _ _ _ _)
theorem fminn (g : Guard) (d : VReg) (a : VReg) (b : VReg) : Statement (.fminn g d a b) := by
  exact ofClassB _ _ rfl (wordB_formDab _ _ _ _ _ _)
theorem fmaxn (g : Guard) (d : VReg) (a : VReg) (b : VReg) : Statement (.fmaxn g d a b) := by
  exact ofClassB _ _ rfl (wordB_formDab _ _ _ _ _ _)
theorem fabs (g : Guard) (d : VReg) (a : VReg) : Statement (.fabs g d a) := by
  exact ofClassB _ _ rfl (wordB_formDa _ _ _ _ _)
theorem fneg (g : Guard) (d : VReg) (a : VReg) : Statement (.fneg g d a) := by
  exact ofClassB _ _ rfl (wordB_formDa _ _ _ _ _)
theorem fcmp (cc : FCmp) (g : Guard) (d : MReg) (a : VReg) (b : VReg) : Statement (.fcmp cc g d a b) := by
  cases cc <;> exact ofClassB _ _ rfl (wordB_formMab _ _ _ _ _ _)
theorem ffloor (g : Guard) (d : VReg) (a : VReg) : Statement (.ffloor g d a) := by
  exact ofClassB _ _ rfl (wordB_formDa _ _ _ _ _)
theorem fceil (g : Guard) (d : VReg) (a : VReg) : Statement (.fceil g d a) := by
  exact ofClassB _ _ rfl (wordB_formDa _ _ _ _ _)
theorem ftrunc (g : Guard) (d : VReg) (a : VReg) : Statement (.ftrunc g d a) := by
  exact ofClassB _ _ rfl (wordB_formDa _ _ _ _ _)
theorem frnd (g : Guard) (d : VReg) (a : VReg) : Statement (.frnd g d a) := by
  exact ofClassB _ _ rfl (wordB_formDa _ _ _ _ _)
theorem fclass (g : Guard) (d : VReg) (a : VReg) : Statement (.fclass g d a) := by
  exact ofClassB _ _ rfl (wordB_formDa _ _ _ _ _)
theorem fdivRne (g : Guard) (d : VReg) (a : VReg) (b : VReg) : Statement (.fdivRne g d a b) := by
  exact ofClassB _ _ rfl (wordB_formDab _ _ _ _ _ _)
theorem fsqrtRne (g : Guard) (d : VReg) (a : VReg) : Statement (.fsqrtRne g d a) := by
  exact ofClassB _ _ rfl (wordB_formDa _ _ _ _ _)
theorem frcp (g : Guard) (d : VReg) (a : VReg) : Statement (.frcp g d a) := by
  exact ofClassB _ _ rfl (wordB_formDa _ _ _ _ _)
theorem frsq (g : Guard) (d : VReg) (a : VReg) : Statement (.frsq g d a) := by
  exact ofClassB _ _ rfl (wordB_formDa _ _ _ _ _)
theorem fexp2 (g : Guard) (d : VReg) (a : VReg) : Statement (.fexp2 g d a) := by
  exact ofClassB _ _ rfl (wordB_formDa _ _ _ _ _)
theorem flog2 (g : Guard) (d : VReg) (a : VReg) : Statement (.flog2 g d a) := by
  exact ofClassB _ _ rfl (wordB_formDa _ _ _ _ _)
theorem fsinpi (g : Guard) (d : VReg) (a : VReg) : Statement (.fsinpi g d a) := by
  exact ofClassB _ _ rfl (wordB_formDa _ _ _ _ _)
theorem fcospi (g : Guard) (d : VReg) (a : VReg) : Statement (.fcospi g d a) := by
  exact ofClassB _ _ rfl (wordB_formDa _ _ _ _ _)
theorem hadd2 (h : Half) (g : Guard) (d : VReg) (a : VReg) (b : VReg) : Statement (.hadd2 h g d a b) := by
  cases h <;> exact ofClassB _ _ rfl (wordB_formDab _ _ _ _ _ _)
theorem hmul2 (h : Half) (g : Guard) (d : VReg) (a : VReg) (b : VReg) : Statement (.hmul2 h g d a b) := by
  cases h <;> exact ofClassB _ _ rfl (wordB_formDab _ _ _ _ _ _)
theorem hfma2 (h : Half) (g : Guard) (d : VReg) (a : VReg) (b : VReg) (c : VReg) : Statement (.hfma2 h g d a b c) := by
  cases h <;> exact ofClassB _ _ rfl (wordB_formDabc _ _ _ _ _ _ _)
theorem cvtI32F32 (r : Rnd) (g : Guard) (d : VReg) (a : VReg) : Statement (.cvtI32F32 r g d a) := by
  cases r <;> exact ofClassB _ _ rfl (wordB_formDa _ _ _ _ _)
theorem cvtN32F32 (r : Rnd) (g : Guard) (d : VReg) (a : VReg) : Statement (.cvtN32F32 r g d a) := by
  cases r <;> exact ofClassB _ _ rfl (wordB_formDa _ _ _ _ _)
theorem cvtF32I32 (r : Rnd) (g : Guard) (d : VReg) (a : VReg) : Statement (.cvtF32I32 r g d a) := by
  cases r <;> exact ofClassB _ _ rfl (wordB_formDa _ _ _ _ _)
theorem cvtF32N32 (r : Rnd) (g : Guard) (d : VReg) (a : VReg) : Statement (.cvtF32N32 r g d a) := by
  cases r <;> exact ofClassB _ _ rfl (wordB_formDa _ _ _ _ _)
theorem cvtBf16F32 (tz : Bool) (g : Guard) (d : VReg) (a : VReg) : Statement (.cvtBf16F32 tz g d a) := by
  cases tz <;> exact ofClassB _ _ rfl (wordB_formDa _ _ _ _ _)
theorem cvtF16F32 (tz : Bool) (g : Guard) (d : VReg) (a : VReg) : Statement (.cvtF16F32 tz g d a) := by
  cases tz <;> exact ofClassB _ _ rfl (wordB_formDa _ _ _ _ _)
theorem cvtE4m3F32 (nan : Bool) (g : Guard) (d : VReg) (a : VReg) : Statement (.cvtE4m3F32 nan g d a) := by
  cases nan <;> exact ofClassB _ _ rfl (wordB_formDa _ _ _ _ _)
theorem cvtE5m2F32 (inf : Bool) (g : Guard) (d : VReg) (a : VReg) : Statement (.cvtE5m2F32 inf g d a) := by
  cases inf <;> exact ofClassB _ _ rfl (wordB_formDa _ _ _ _ _)
theorem cvtE2m1F32 (g : Guard) (d : VReg) (a : VReg) : Statement (.cvtE2m1F32 g d a) := by
  exact ofClassB _ _ rfl (wordB_formDa _ _ _ _ _)
theorem cvtF32Bf16 (g : Guard) (d : VReg) (a : VReg) : Statement (.cvtF32Bf16 g d a) := by
  exact ofClassB _ _ rfl (wordB_formDa _ _ _ _ _)
theorem cvtF32F16 (g : Guard) (d : VReg) (a : VReg) : Statement (.cvtF32F16 g d a) := by
  exact ofClassB _ _ rfl (wordB_formDa _ _ _ _ _)
theorem cvtF32E4m3 (g : Guard) (d : VReg) (a : VReg) : Statement (.cvtF32E4m3 g d a) := by
  exact ofClassB _ _ rfl (wordB_formDa _ _ _ _ _)
theorem cvtF32E5m2 (g : Guard) (d : VReg) (a : VReg) : Statement (.cvtF32E5m2 g d a) := by
  exact ofClassB _ _ rfl (wordB_formDa _ _ _ _ _)
theorem cvtF32E2m1 (g : Guard) (d : VReg) (a : VReg) : Statement (.cvtF32E2m1 g d a) := by
  exact ofClassB _ _ rfl (wordB_formDa _ _ _ _ _)
theorem shflIdx (g : Guard) (d : VReg) (a : VReg) (b : VReg) : Statement (.shflIdx g d a b) := by
  exact ofClassB _ _ rfl (wordB_formDab _ _ _ _ _ _)
theorem shflXor (g : Guard) (d : VReg) (a : VReg) (n : BitVec 8) : Statement (.shflXor g d a n) := by
  exact ofClassB _ _ rfl (wordB_formDab _ _ _ _ _ _)
theorem shflUp (g : Guard) (d : VReg) (a : VReg) (n : BitVec 8) : Statement (.shflUp g d a n) := by
  exact ofClassB _ _ rfl (wordB_formDab _ _ _ _ _ _)
theorem shflDn (g : Guard) (d : VReg) (a : VReg) (n : BitVec 8) : Statement (.shflDn g d a n) := by
  exact ofClassB _ _ rfl (wordB_formDab _ _ _ _ _ _)
theorem voteAny (g : Guard) (d : MReg) (a : MReg) : Statement (.voteAny g d a) := by
  exact ofClassB _ _ rfl (wordB_formMm _ _ _ _ _)
theorem voteAll (g : Guard) (d : MReg) (a : MReg) : Statement (.voteAll g d a) := by
  exact ofClassB _ _ rfl (wordB_formMm _ _ _ _ _)
theorem voteBallot (g : Guard) (d : VReg) (a : MReg) : Statement (.voteBallot g d a) := by
  exact ofClassB _ _ rfl (wordB_formDm _ _ _ _ _)
theorem redAddI (g : Guard) (d : VReg) (a : VReg) : Statement (.redAddI g d a) := by
  exact ofClassB _ _ rfl (wordB_formDa _ _ _ _ _)
theorem redAddF32 (g : Guard) (d : VReg) (a : VReg) : Statement (.redAddF32 g d a) := by
  exact ofClassB _ _ rfl (wordB_formDa _ _ _ _ _)
theorem redMin (g : Guard) (d : VReg) (a : VReg) : Statement (.redMin g d a) := by
  exact ofClassB _ _ rfl (wordB_formDa _ _ _ _ _)
theorem redMax (g : Guard) (d : VReg) (a : VReg) : Statement (.redMax g d a) := by
  exact ofClassB _ _ rfl (wordB_formDa _ _ _ _ _)
theorem scanAddI (g : Guard) (d : VReg) (a : VReg) : Statement (.scanAddI g d a) := by
  exact ofClassB _ _ rfl (wordB_formDa _ _ _ _ _)
theorem scanAddF32 (g : Guard) (d : VReg) (a : VReg) : Statement (.scanAddF32 g d a) := by
  exact ofClassB _ _ rfl (wordB_formDa _ _ _ _ _)
theorem matchLanes (g : Guard) (d : VReg) (a : VReg) : Statement (.matchLanes g d a) := by
  exact ofClassB _ _ rfl (wordB_formDa _ _ _ _ _)
theorem bcast (g : Guard) (d : VReg) (a : VReg) (k : BitVec 8) : Statement (.bcast g d a k) := by
  exact ofClassB _ _ rfl (wordB_formDab _ _ _ _ _ _)
theorem bscale (g : Guard) (d : VReg) (a : VReg) (f : BitVec 8) : Statement (.bscale g d a f) := by
  exact ofClassB _ _ rfl (wordB_formDab _ _ _ _ _ _)
theorem ld (w : LdW) (g : Guard) (d : VReg) (m : Addr) : Statement (.ld w g d m) := by
  cases w <;> exact ofClassC _ _ rfl (wordC_formMem _ _ _ _ _)
theorem st (w : StW) (g : Guard) (d : VReg) (m : Addr) : Statement (.st w g d m) := by
  cases w <;> exact ofClassC _ _ rfl (wordC_formMem _ _ _ _ _)
theorem ldp (w : LdW) (g : Guard) (d : VReg) (va : VReg) (off : BitVec 23) : Statement (.ldp w g d va off) := by
  cases w <;> exact ofClassC _ _ rfl (wordC_formPtr _ _ _ _ _ _)
theorem stp (w : StW) (g : Guard) (d : VReg) (va : VReg) (off : BitVec 23) : Statement (.stp w g d va off) := by
  cases w <;> exact ofClassC _ _ rfl (wordC_formPtr _ _ _ _ _ _)
theorem ldl (w : LdW) (g : Guard) (d : VReg) (m : Addr) : Statement (.ldl w g d m) := by
  cases w <;> exact ofClassC _ _ rfl (wordC_formMem _ _ _ _ _)
theorem stl (w : StW) (g : Guard) (d : VReg) (m : Addr) : Statement (.stl w g d m) := by
  cases w <;> exact ofClassC _ _ rfl (wordC_formMem _ _ _ _ _)
theorem ldt (w : LdW) (g : Guard) (d : VReg) (m : Addr) : Statement (.ldt w g d m) := by
  cases w <;> exact ofClassC _ _ rfl (wordC_formMem _ _ _ _ _)
theorem stt (w : StW) (g : Guard) (d : VReg) (m : Addr) : Statement (.stt w g d m) := by
  cases w <;> exact ofClassC _ _ rfl (wordC_formMem _ _ _ _ _)
theorem wld (g : Guard) (d : VReg) (m : Addr) : Statement (.wld g d m) := by
  exact ofClassC _ _ rfl (wordC_formMem _ _ _ _ _)
theorem wst (g : Guard) (d : VReg) (m : Addr) : Statement (.wst g d m) := by
  exact ofClassC _ _ rfl (wordC_formMem _ _ _ _ _)
theorem ald (g : Guard) (d : VReg) (m : Addr) : Statement (.ald g d m) := by
  exact ofClassC _ _ rfl (wordC_formMem _ _ _ _ _)
theorem ast (g : Guard) (d : VReg) (m : Addr) : Statement (.ast g d m) := by
  exact ofClassC _ _ rfl (wordC_formMem _ _ _ _ _)
theorem accld (g : Guard) (d : VReg) (m : Addr) : Statement (.accld g d m) := by
  exact ofClassC _ _ rfl (wordC_formMem _ _ _ _ _)
theorem accst (g : Guard) (d : VReg) (m : Addr) : Statement (.accst g d m) := by
  exact ofClassC _ _ rfl (wordC_formMem _ _ _ _ _)
theorem atom (op : AtOp) (g : Guard) (d : VReg) (m : Addr) : Statement (.atom op g d m) := by
  cases op <;> exact ofClassC _ _ rfl (wordC_formMem _ _ _ _ _)
theorem atl (op : AtOp) (g : Guard) (d : VReg) (m : Addr) : Statement (.atl op g d m) := by
  cases op <;> exact ofClassC _ _ rfl (wordC_formMem _ _ _ _ _)
theorem redAtomic (op : RedOp) (g : Guard) (d : VReg) (m : Addr) : Statement (.redAtomic op g d m) := by
  cases op <;> exact ofClassC _ _ rfl (wordC_formMem _ _ _ _ _)
theorem cmpst (g : Guard) (d : VReg) (sb : SReg) (off : BitVec 23) : Statement (.cmpst g d sb off) := by
  exact ofClassC _ _ rfl (wordC_formQ _ _ _ _ _ _)
theorem cmpstL (g : Guard) (d : VReg) (sb : SReg) (off : BitVec 23) : Statement (.cmpstL g d sb off) := by
  exact ofClassC _ _ rfl (wordC_formQ _ _ _ _ _ _)
theorem pf (g : Guard) (m : Addr) : Statement (.pf g m) := by
  exact ofClassC _ _ rfl (wordC_formPf _ _ _ _)
theorem spill (d : VReg) (slot : BitVec 8) : Statement (.spill d slot) := by
  exact ofClassC _ _ rfl (wordC_formSlot _ _ _ _)
theorem fill (d : VReg) (slot : BitVec 8) : Statement (.fill d slot) := by
  exact ofClassC _ _ rfl (wordC_formSlot _ _ _ _)
theorem iaddi (g : Guard) (d : VReg) (a : VReg) (i : BitVec 32) : Statement (.iaddi g d a i) := by
  exact ofClassC _ _ rfl (wordC_formDai _ _ _ _ _ _)
theorem imuli (g : Guard) (d : VReg) (a : VReg) (i : BitVec 32) : Statement (.imuli g d a i) := by
  exact ofClassC _ _ rfl (wordC_formDai _ _ _ _ _ _)
theorem laneAndi (g : Guard) (d : VReg) (a : VReg) (i : BitVec 32) : Statement (.laneAndi g d a i) := by
  exact ofClassC _ _ rfl (wordC_formDai _ _ _ _ _ _)
theorem laneOri (g : Guard) (d : VReg) (a : VReg) (i : BitVec 32) : Statement (.laneOri g d a i) := by
  exact ofClassC _ _ rfl (wordC_formDai _ _ _ _ _ _)
theorem laneXori (g : Guard) (d : VReg) (a : VReg) (i : BitVec 32) : Statement (.laneXori g d a i) := by
  exact ofClassC _ _ rfl (wordC_formDai _ _ _ _ _ _)
theorem movi (g : Guard) (d : VReg) (i : BitVec 32) : Statement (.movi g d i) := by
  exact ofClassC _ _ rfl (wordC_formDi _ _ _ _ _)
theorem icmpi (cc : ICmp) (g : Guard) (d : MReg) (a : VReg) (i : BitVec 32) : Statement (.icmpi cc g d a i) := by
  cases cc <;> exact ofClassC _ _ rfl (wordC_formMai _ _ _ _ _ _)
theorem tcpyG2a (o : CopyOps) : Statement (.tcpyG2a o) :=
  ofClassD _ _ rfl (wordD_formCopy 0x10 o .tcpyG2a)
theorem tcpyG2w (o : CopyOps) : Statement (.tcpyG2w o) :=
  ofClassD _ _ rfl (wordD_formCopy 0x11 o .tcpyG2w)
theorem tcpyA2g (o : CopyOps) : Statement (.tcpyA2g o) :=
  ofClassD _ _ rfl (wordD_formCopy 0x12 o .tcpyA2g)
theorem tcpyG2l (o : CopyOps) : Statement (.tcpyG2l o) :=
  ofClassD _ _ rfl (wordD_formCopy 0x13 o .tcpyG2l)
theorem tcpyL2g (o : CopyOps) : Statement (.tcpyL2g o) :=
  ofClassD _ _ rfl (wordD_formCopy 0x14 o .tcpyL2g)
theorem tcpyG2g (o : CopyOps) : Statement (.tcpyG2g o) :=
  ofClassD _ _ rfl (wordD_formCopy 0x15 o .tcpyG2g)
theorem tcpyG2gStamp (o : CopyOps) : Statement (.tcpyG2gStamp o) :=
  ofClassD _ _ rfl (wordD_formCopy 0x16 o .tcpyG2gStamp)
theorem cfpop (d : SReg) : Statement (.cfpop d) :=
  ofClassD _ _ rfl (wordD_formD 0x18 d .cfpop)
theorem cfrsmRetry (a : SReg) : Statement (.cfrsmRetry a) :=
  ofClassD _ _ rfl (wordD_formA 0x19 a .cfrsmRetry)
theorem cfrsmSkip (a : SReg) : Statement (.cfrsmSkip a) :=
  ofClassD _ _ rfl (wordD_formA 0x1A a .cfrsmSkip)
theorem cfrsmFill (a : SReg) (b : SReg) : Statement (.cfrsmFill a b) :=
  ofClassD _ _ rfl (wordD_formAb 0x1B a b .cfrsmFill)
theorem kindle (k : EngKind) : Statement (.kindle k) :=
  ofClassD _ _ rfl (wordD_formK 0x20 k .kindle)
theorem kindleNb (d : SReg) (k : EngKind) : Statement (.kindleNb d k) :=
  ofClassD _ _ rfl (wordD_formDk 0x21 d k .kindleNb)
theorem douse (k : EngKind) : Statement (.douse k) :=
  ofClassD _ _ rfl (wordD_formK 0x22 k .douse)
theorem lstat (d : SReg) (a : SReg) : Statement (.lstat d a) :=
  ofClassD _ _ rfl (wordD_formDa 0x23 d a .lstat)
theorem tmma (v : VReg) (d : SReg) (a : SReg) (b : SReg) (c : SReg) : Statement (.tmma v d a b c) :=
  ofClassD _ _ rfl (wordD_formVdabc 0x30 v d a b c .tmma)
theorem tmmaZ (v : VReg) (d : SReg) (a : SReg) (b : SReg) (c : SReg) : Statement (.tmmaZ v d a b c) :=
  ofClassD _ _ rfl (wordD_formVdabc 0x31 v d a b c .tmmaZ)
theorem tmmaX2 (v : VReg) (d : SReg) (a : SReg) (b : SReg) (c : SReg) : Statement (.tmmaX2 v d a b c) :=
  ofClassD _ _ rfl (wordD_formVdabc 0x32 v d a b c .tmmaX2)
theorem tzero (d : SReg) (c : SReg) : Statement (.tzero d c) :=
  ofClassD _ _ rfl (wordD_formDc 0x33 d c .tzero)
theorem tcvt (f : TcvtForm) (b : SReg) (d : SReg) (c : SReg) (s : BitVec 8) : Statement (.tcvt f b d c s) := by
  cases f
  · exact ofClassD _ _ rfl (wordD_formBdcs 0x38 b d c s (.tcvt .bf16Rne))
  · exact ofClassD _ _ rfl (wordD_formBdcs 0x39 b d c s (.tcvt .bf16Sat))
  · exact ofClassD _ _ rfl (wordD_formBdcs 0x3A b d c s (.tcvt .f16Rne))
  · exact ofClassD _ _ rfl (wordD_formBdcs 0x3B b d c s (.tcvt .f16Sat))
  · exact ofClassD _ _ rfl (wordD_formBdcs 0x3C b d c s (.tcvt .e4m3Rne))
  · exact ofClassD _ _ rfl (wordD_formBdcs 0x3D b d c s (.tcvt .e4m3Sat))
  · exact ofClassD _ _ rfl (wordD_formBdcs 0x3E b d c s (.tcvt .e5m2Rne))
  · exact ofClassD _ _ rfl (wordD_formBdcs 0x3F b d c s (.tcvt .e5m2Sat))
theorem tdload (a : SReg) : Statement (.tdload a) :=
  ofClassD _ _ rfl (wordD_formA 0x34 a .tdload)
theorem tstat (d : SReg) : Statement (.tstat d) :=
  ofClassD _ _ rfl (wordD_formD 0x35 d .tstat)
theorem ftload (slot : BitVec 2) (a : SReg) : Statement (.ftload slot a) :=
  ofClassD _ _ rfl (wordD_formSlota 0x40 slot a .ftload)
theorem ftevl (g : Guard) (d : VReg) (a : VReg) (slot : BitVec 2) : Statement (.ftevl g d a slot) :=
  ofClassD _ _ rfl (wordD_formEv 0x41 g d a slot .ftevl)
theorem xsort (d : SReg) (a : SReg) (b : SReg) (f : SelFlags) : Statement (.xsort d a b f) :=
  ofClassD _ _ rfl (wordD_formDabf 0x48 d a b f .xsort)
theorem xtopk (d : SReg) (a : SReg) (b : SReg) (c : SReg) (f : SelFlags) : Statement (.xtopk d a b c f) :=
  ofClassD _ _ rfl (wordD_formDabcf 0x49 d a b c f .xtopk)
theorem xscan (d : SReg) (a : SReg) (b : SReg) (f : SelFlags) : Statement (.xscan d a b f) :=
  ofClassD _ _ rfl (wordD_formDabf 0x4A d a b f .xscan)
theorem cpost (a : SReg) (q : BitVec 4) : Statement (.cpost a q) :=
  ofClassD _ _ rfl (wordD_formAq 0x50 a q .cpost)
theorem ctrig (a : SReg) (b : SReg) (c : SReg) : Statement (.ctrig a b c) :=
  ofClassD _ _ rfl (wordD_formAbc 0x51 a b c .ctrig)
theorem spawn (a : SReg) (b : SReg) : Statement (.spawn a b) :=
  ofClassD _ _ rfl (wordD_formAb 0x58 a b .spawn)
theorem launch (a : SReg) : Statement (.launch a) :=
  ofClassD _ _ rfl (wordD_formA 0x59 a .launch)
theorem cancel (l : Lvl) (a : SReg) : Statement (.cancel l a) :=
  ofClassD _ _ rfl (wordD_formLvl 0x5A l a .cancel)
theorem susp (d : SReg) (a : SReg) (team : Bool) (noBuf : Bool) : Statement (.susp d a team noBuf) :=
  ofClassD _ _ rfl (wordD_formSusp 0x60 d a team noBuf .susp)
theorem resume (a : SReg) : Statement (.resume a) :=
  ofClassD _ _ rfl (wordD_formA 0x61 a .resume)
theorem cdrop (a : SReg) : Statement (.cdrop a) :=
  ofClassD _ _ rfl (wordD_formA 0x62 a .cdrop)
theorem cclone (d : SReg) (a : SReg) (b : SReg) : Statement (.cclone d a b) :=
  ofClassD _ _ rfl (wordD_formDab 0x63 d a b .cclone)
theorem issueSelect (core : Nat) (port : Nat) : Statement (.issueSelect core port) := ofNone _ rfl
theorem icacheFill (core : Nat) (ctx : Nat) (va : Nat) : Statement (.icacheFill core ctx va) := ofNone _ rfl
theorem pageWalk (core : Nat) (ctx : Nat) (va : Nat) : Statement (.pageWalk core ctx va) := ofNone _ rfl
theorem loadComplete (op : Nat) : Statement (.loadComplete op) := ofNone _ rfl
theorem storePerform (op : Nat) (lane : Nat) : Statement (.storePerform op lane) := ofNone _ rfl
theorem homeLoad (op : Nat) (lane : Nat) (lease : Nat) (useL1 : Bool) : Statement (.homeLoad op lane lease useL1) := ofNone _ rfl
theorem homeAtomic (op : Nat) (lane : Nat) : Statement (.homeAtomic op lane) := ofNone _ rfl
theorem llcEvict (x : Eviction) : Statement (.llcEvict x) := ofNone _ rfl
theorem memLineTransfer (channel : Nat) : Statement (.memLineTransfer channel) := ofNone _ rfl
theorem deferredReport (wave : Nat) : Statement (.deferredReport wave) := ofNone _ rfl
theorem mwaitTimeout (wave : Nat) (strand : Nat) : Statement (.mwaitTimeout wave strand) := ofNone _ rfl
theorem portSuspend (wave : Nat) : Statement (.portSuspend wave) := ofNone _ rfl
theorem watchdog (wave : Nat) (strand : Nat) : Statement (.watchdog wave strand) := ofNone _ rfl
theorem pairtimeout (req : Nat) : Statement (.pairtimeout req) := ofNone _ rfl
theorem claimGrant (core : Nat) : Statement (.claimGrant core) := ofNone _ rfl
theorem deadlock (block : Nat) : Statement (.deadlock block) := ofNone _ rfl
theorem handlerEntry (wave : Nat) : Statement (.handlerEntry wave) := ofNone _ rfl
theorem blockPlace (core : Nat) : Statement (.blockPlace core) := ofNone _ rfl
theorem blockEnd (block : Nat) : Statement (.blockEnd block) := ofNone _ rfl
theorem blockTriggerEvent (block : Nat) : Statement (.blockTriggerEvent block) := ofNone _ rfl
theorem launchRelease (launch : Nat) : Statement (.launchRelease launch) := ofNone _ rfl
theorem kneadWindowClose (ctx : Nat) : Statement (.kneadWindowClose ctx) := ofNone _ rfl
theorem cancelDeadline (block : Nat) : Statement (.cancelDeadline block) := ofNone _ rfl
theorem footprintEnter (job : Nat) : Statement (.footprintEnter job) := ofNone _ rfl
theorem copyPieceIssue (job : Nat) : Statement (.copyPieceIssue job) := ofNone _ rfl
theorem pieceLand (job : Nat) (piece : Nat) : Statement (.pieceLand job piece) := ofNone _ rfl
theorem copyFault (job : Nat) : Statement (.copyFault job) := ofNone _ rfl
theorem tileOpStart (core : Nat) : Statement (.tileOpStart core) := ofNone _ rfl
theorem tileCommit (core : Nat) : Statement (.tileCommit core) := ofNone _ rfl
theorem tcvtStep (core : Nat) : Statement (.tcvtStep core) := ofNone _ rfl
theorem fxOpComplete (job : Nat) : Statement (.fxOpComplete job) := ofNone _ rfl
theorem leaseGrant (core : Nat) (k : EngKind) : Statement (.leaseGrant core k) := ofNone _ rfl
theorem wakeDone (core : Nat) (k : EngKind) : Statement (.wakeDone core k) := ofNone _ rfl
theorem warmTimeout (core : Nat) (k : EngKind) : Statement (.warmTimeout core k) := ofNone _ rfl
theorem allowanceCut (die : Nat) (deciwatts : Nat) : Statement (.allowanceCut die deciwatts) := ofNone _ rfl
theorem class0Evict (core : Nat) (k : EngKind) : Statement (.class0Evict core k) := ofNone _ rfl
theorem engineStopped (core : Nat) (k : EngKind) : Statement (.engineStopped core k) := ofNone _ rfl
theorem energyPeriod (ctx : Nat) : Statement (.energyPeriod ctx) := ofNone _ rfl
theorem serverRelease (ctx : Nat) (point : Point) : Statement (.serverRelease ctx point) := ofNone _ rfl
theorem arbiterSelect (point : Point) : Statement (.arbiterSelect point) := ofNone _ rfl
theorem rotAdvance : Statement (.rotAdvance) := ofNone _ rfl
theorem remoteRequest (p : RemotePkt) : Statement (.remoteRequest p) := ofNone _ rfl
theorem replyArrive (req : Nat) (e : RemoteEnd) : Statement (.replyArrive req e) := ofNone _ rfl
theorem flitSend (port : Nat) : Statement (.flitSend port) := ofNone _ rfl
theorem flitReceive (port : Nat) (f : FlitIn) (p : Packet) : Statement (.flitReceive port f p) := ofNone _ rfl
theorem linkPause (port : Nat) (on : Bool) : Statement (.linkPause port on) := ofNone _ rfl
theorem collStepEnter (coll : Nat) : Statement (.collStepEnter coll) := ofNone _ rfl
theorem collReady (coll : Nat) (peer : Nat) (clock : Nat) : Statement (.collReady coll peer clock) := ofNone _ rfl
theorem collCts (coll : Nat) (peer : Nat) (chunk : Nat) (clock : Nat) : Statement (.collCts coll peer chunk clock) := ofNone _ rfl
theorem collChunkReceive (coll : Nat) (peer : Nat) (chunk : Nat) (clock : Nat) (bytes : List Byte) : Statement (.collChunkReceive coll peer chunk clock bytes) := ofNone _ rfl
theorem collComplete (coll : Nat) (err : Option (Nat × Nat)) (posted : Nat) : Statement (.collComplete coll err posted) := ofNone _ rfl
theorem suspSeal (block : Nat) : Statement (.suspSeal block) := ofNone _ rfl
theorem resumePlaced (resumption : Nat) (core : Nat) : Statement (.resumePlaced resumption core) := ofNone _ rfl
theorem ccloneDone (job : Nat) : Statement (.ccloneDone job) := ofNone _ rfl
theorem forcedSave (ctx : Nat) : Statement (.forcedSave ctx) := ofNone _ rfl
theorem forcedSaveSeal (block : Nat) : Statement (.forcedSaveSeal block) := ofNone _ rfl
theorem hostWrite (fn : Nat) (bar : Nat) (off : Nat) (slot : Nat) (bytes : List Byte) (wire : Wire) : Statement (.hostWrite fn bar off slot bytes wire) := ofNone _ rfl
theorem hostRead (fn : Nat) (bar : Nat) (off : Nat) (slot : Nat) (n : Nat) (wire : Wire) : Statement (.hostRead fn bar off slot n wire) := ofNone _ rfl
theorem hostMemoryCompletion (req : Nat) (ok : Bool) (bytes : List Byte) : Statement (.hostMemoryCompletion req ok bytes) := ofNone _ rfl
theorem atsInvalidate (fn : Nat) (page : Nat) (pages : Nat) : Statement (.atsInvalidate fn page pages) := ofNone _ rfl
theorem invalidate (fn : Nat) (idx : Nat) : Statement (.invalidate fn idx) := ofNone _ rfl
theorem invalidateDone (fn : Nat) : Statement (.invalidateDone fn) := ofNone _ rfl
theorem ctxcreate (a : CtxArgs) : Statement (.ctxcreate a) := ofNone _ rfl
theorem ctxdestroy (ctx : Nat) : Statement (.ctxdestroy ctx) := ofNone _ rfl
theorem server (a : ServerArgs) : Statement (.server a) := ofNone _ rfl
theorem window (fn : Nat) (window : Nat) (base : Nat) (len : Nat) : Statement (.window fn window base len) := ofNone _ rfl
theorem qbind (ctx : Nat) (queue : Nat) (rec : Option Comm) : Statement (.qbind ctx queue rec) := ofNone _ rfl
theorem preempt (t : PreTarget) (budget : Nat) (area : Nat) (len : Nat) : Statement (.preempt t budget area len) := ofNone _ rfl
theorem release (t : PreTarget) : Statement (.release t) := ofNone _ rfl
theorem keyrot (ctx : Nat) : Statement (.keyrot ctx) := ofNone _ rfl
theorem partset (a : PartArgs) : Statement (.partset a) := ofNone _ rfl
theorem retire (a : RetireArgs) : Statement (.retire a) := ofNone _ rfl
theorem retireComplete (a : RetireArgs) : Statement (.retireComplete a) := ofNone _ rfl
theorem logset (fn : Nat) (iova : Nat) : Statement (.logset fn iova) := ofNone _ rfl
theorem unknownCommand (code : Nat) : Statement (.unknownCommand code) := ofNone _ rfl
theorem eventClear (fn : Nat) (bits : Nat) : Statement (.eventClear fn bits) := ofNone _ rfl
theorem pwrcapWrite (watts : Nat) : Statement (.pwrcapWrite watts) := ofNone _ rfl
theorem iwselRead (v : BitVec 64) : Statement (.iwselRead v) := ofNone _ rfl
theorem retlogClear : Statement (.retlogClear) := ofNone _ rfl
theorem registerWrite (fn : Nat) (off : Nat) (v : BitVec 64) : Statement (.registerWrite fn off v) := ofNone _ rfl
theorem flrInitiate (fn : Nat) : Statement (.flrInitiate fn) := ofNone _ rfl
theorem flrStopped (fn : Nat) : Statement (.flrStopped fn) := ofNone _ rfl
theorem flrDrained (fn : Nat) : Statement (.flrDrained fn) := ofNone _ rfl
theorem flrDiscarded (fn : Nat) : Statement (.flrDiscarded fn) := ofNone _ rfl
theorem flrDone (fn : Nat) : Statement (.flrDone fn) := ofNone _ rfl
theorem lockInterface (fn : Nat) : Statement (.lockInterface fn) := ofNone _ rfl
theorem getDeviceInterfaceReport (fn : Nat) : Statement (.getDeviceInterfaceReport fn) := ofNone _ rfl
theorem getDeviceInterfaceState (fn : Nat) : Statement (.getDeviceInterfaceState fn) := ofNone _ rfl
theorem startInterface (fn : Nat) : Statement (.startInterface fn) := ofNone _ rfl
theorem stopInterface (fn : Nat) : Statement (.stopInterface fn) := ofNone _ rfl
theorem getVersion (die : Nat) : Statement (.getVersion die) := ofNone _ rfl
theorem getCapabilities (die : Nat) : Statement (.getCapabilities die) := ofNone _ rfl
theorem negotiateAlgorithms (die : Nat) : Statement (.negotiateAlgorithms die) := ofNone _ rfl
theorem getDigests (die : Nat) : Statement (.getDigests die) := ofNone _ rfl
theorem getCertificate (die : Nat) (slot : Nat) : Statement (.getCertificate die slot) := ofNone _ rfl
theorem challenge (die : Nat) (slot : Nat) : Statement (.challenge die slot) := ofNone _ rfl
theorem getMeasurements (die : Nat) (index : Nat) : Statement (.getMeasurements die index) := ofNone _ rfl
theorem keyExchange (die : Nat) (session : Nat) : Statement (.keyExchange die session) := ofNone _ rfl
theorem finish (die : Nat) (session : Nat) : Statement (.finish die session) := ofNone _ rfl
theorem keyUpdate (die : Nat) (session : Nat) : Statement (.keyUpdate die session) := ofNone _ rfl
theorem heartbeat (die : Nat) (session : Nat) : Statement (.heartbeat die session) := ofNone _ rfl
theorem endSession (die : Nat) (session : Nat) : Statement (.endSession die session) := ofNone _ rfl
theorem powerControlTick (watts : Nat) : Statement (.powerControlTick watts) := ofNone _ rfl
theorem islandVote (island : Nat) (point : Nat) : Statement (.islandVote island point) := ofNone _ rfl
theorem frequencyChangeDone (rail : Nat) : Statement (.frequencyChangeDone rail) := ofNone _ rfl
theorem railHoldoffExpire (rail : Nat) : Statement (.railHoldoffExpire rail) := ofNone _ rfl
theorem railStep (rail : Nat) : Statement (.railStep rail) := ofNone _ rfl
theorem islandRiseStep (island : Nat) : Statement (.islandRiseStep island) := ofNone _ rfl
theorem currentEmergency (rail : Nat) : Statement (.currentEmergency rail) := ofNone _ rfl
theorem clockStretchEnd (rail : Nat) : Statement (.clockStretchEnd rail) := ofNone _ rfl
theorem thermalLevel (die : Nat) (temps : List (Nat × Nat)) : Statement (.thermalLevel die temps) := ofNone _ rfl
theorem migrationClose (die : Nat) (temps : List (Nat × Nat)) : Statement (.migrationClose die temps) := ofNone _ rfl
theorem retentionEnter (core : Nat) : Statement (.retentionEnter core) := ofNone _ rfl
theorem retentionExit (core : Nat) (bad : BitVec 4) (control : Bool) : Statement (.retentionExit core bad control) := ofNone _ rfl
theorem packageReset : Statement (.packageReset) := ofNone _ rfl
theorem bringupPhase (errcode : Nat) (bad : List Nat) : Statement (.bringupPhase errcode bad) := ofNone _ rfl
theorem ideKeyManagement (m : IdeKm) : Statement (.ideKeyManagement m) := ofNone _ rfl
theorem atsTranslationCompletion (fn : Nat) (page : Nat) (ok : Bool) : Statement (.atsTranslationCompletion fn page ok) := ofNone _ rfl
theorem coreColdResetDone (core : Nat) : Statement (.coreColdResetDone core) := ofNone _ rfl

end Sys2Proof.Laws.RoundTrip
end

