-- ==== Sys2Proof/Safety.lean ====
section
/-!
DEFINITION. What a safe run is, and the vocabulary of the claims: the state that an instruction leaves when its whole
effect is on the wave that issued it.
-/

namespace Sys2Proof

open Machine

/-- Every global byte and every byte of a local space is kept in the canonical form. -/
def memOk (s : State) : Prop :=
  Memory.wf s.dev.mem = true ∧ ∀ m ∈ s.dev.locmem, Memory.wf m.cells = true

/-- A step neither faults nor refuses. -/
def goesOn (s : State) : Prop := ∃ t, step s = .next t

/-- An instruction of issuer `k` has issued, and its whole effect is on the device. -/
def after (s : State) (f : Dev → Dev) : State := { s with dev := f { s.dev with latch := none } }

/-- The state in which nothing but the issuing wave differs, by `f`, and the selection is over. -/
def waveStep (s : State) (k : Issue) (f : Wave → Wave) : State :=
  { s with dev := { s.dev with
      latch := none
      waves := s.dev.waves.map fun w => if w.id = k.wave.id then f w else w } }

/-- The state in which nothing but the strands of the issuing gang differ, by `f`. -/
def gangStep (s : State) (k : Issue) (f : Nat → Strand → Strand) : State :=
  waveStep s k fun w => { w with strands := w.strands.mapIdx fun t x => if inGang k.gang t then f t x else x }

/-- A strand that has passed an instruction of `len` bytes. -/
def passed (len : Nat) (x : Strand) : Strand := { x with pc := x.pc + BitVec.ofNat 64 len, waiting := none }

/-- Each strand `t` of the gang has written `v t` into scalar register `d` (nothing into `s0`, R13), and stands at the next
instruction; everything else is as before. -/
def wroteScalar (s : State) (k : Issue) (len : Nat) (d : SReg) (v : Nat → Word) : State :=
  gangStep s k fun t x => passed len { x with s := if d = 0 then x.s else x.s.set d.toNat (v t) }

/-- Lane registers `d`, `d + 1`, … hold `f` in the lanes of `act`; the other lanes keep their values. -/
def putLanes (act : LaneMask) : Nat → List (Nat → Lane) → List LaneVec → List LaneVec
  | _, [], v => v
  | d, f :: fs, v => putLanes act (d + 1) fs (v.modify d fun r => r.mapIdx fun l x => if act.getLsbD l then f l else x)

/-- The gang has passed a lane instruction that changes its wave by `f`; a fresh free value has been used when a named
register had a late writer (R25). -/
def laneStep (s : State) (k : Issue) (len : Nat) (regs : List Nat) (f : Wave → Wave) : State :=
  let t := waveStep s k fun w => { f w with
    strands := (f w).strands.mapIdx fun t x => if inGang k.gang t then passed len x else x }
  { t with dev := { t.dev with free := if s.dev.unsettled k regs then s.dev.free + 1 else s.dev.free } }

/-- The active lanes of R10: the gang's lanes where `m0` and the guard's mask (or its complement) have a one. -/
def activeLane (k : Issue) (g : Guard) (l : Nat) : Bool :=
  inGang k.gang (l / 4) && (k.wave.mask 0).getLsbD l && ((k.wave.mask (0#1 ++ g.mask)).getLsbD l != g.inv)

end Sys2Proof
end

