-- ==== Sys2Proof/Certificates/Slice0/Obligations.lean ====
section
/-!
DEFINITION. The statements for the provers. In most of them the hypothesis `s.dev.issuer? = some k` says only that the
arbiter has selected a gang of a placed wave: its wave, strand mask, PC, block and context are `k`.
-/

open Sys2Proof Sys2Proof.Machine
/-! ## Scalar arithmetic (04) -/

namespace Sys2Proof.Claims

/-- In every state with a selected gang the instruction completes: each strand `t` of the gang writes `f` of its own `sA` and
`sB` into its `sD`, and nothing else changes but the PCs. -/
def Scalar2 (i : SReg → SReg → SReg → Instr) (f : Word → Word → Word) : Prop :=
  ∀ (s : State) (k : Issue) (d a b : SReg), s.dev.issuer? = some k →
    exec (i d a b) s = .next (wroteScalar s k 4 d fun t => f ((k.strand t).rd a) ((k.strand t).rd b))

/-- The same for one source. -/
def Scalar1 (i : SReg → SReg → Instr) (f : Word → Word) : Prop :=
  ∀ (s : State) (k : Issue) (d a : SReg), s.dev.issuer? = some k →
    exec (i d a) s = .next (wroteScalar s k 4 d fun t => f ((k.strand t).rd a))

/-- The same for one source and an immediate. -/
def ScalarI {n : Nat} (i : SReg → SReg → BitVec n → Instr) (f : Word → BitVec n → Word) : Prop :=
  ∀ (s : State) (k : Issue) (d a : SReg) (c : BitVec n), s.dev.issuer? = some k →
    exec (i d a c) s = .next (wroteScalar s k 4 d fun t => f ((k.strand t).rd a) c)

/-- The instructions have these opcodes in the class A map (Table 3-4). -/
def OpsA (l : List (Instr × Nat)) : Prop := ∀ x ∈ l, (encodeA x.1).map (·.op.toNat) = some x.2

/-- With one of these opcodes, a class A word that `bad` holds of is no instruction. -/
def ReservedA (ops : List Nat) (bad : WordA → Prop) : Prop := ∀ f : WordA, f.op.toNat ∈ ops → bad f → decodeA f = none

/-- The same for class B (Table 3-5). -/
def OpsB (l : List (Instr × Nat)) : Prop := ∀ x ∈ l, (encodeB x.1).map (·.op.toNat) = some x.2
def ReservedB (ops : List Nat) (bad : WordB → Prop) : Prop := ∀ f : WordB, f.op.toNat ∈ ops → bad f → decodeB f = none

/-- The same for class C (Table 3-6). -/
def OpsC (l : List (Instr × Nat)) : Prop := ∀ x ∈ l, (encodeC x.1).map (·.op.toNat) = some x.2
def ReservedC (ops : List Nat) (bad : WordC → Prop) : Prop := ∀ f : WordC, f.op.toNat ∈ ops → bad f → decodeC f = none

/-- Quotient and remainder as R106 states them for nonzero divisors: `a = q × b + r`, the quotient truncated toward zero. -/
def IsDivI (a b q r : Word) : Prop :=
  q = BitVec.ofInt 64 (a.toInt.tdiv b.toInt) ∧ r = BitVec.ofInt 64 (a.toInt.tmod b.toInt)

end Sys2Proof.Claims

open Sys2Proof.Claims

/-- R105, Table 4-1: the three-register (OP 0x01 to 0x15, C reserved) operations but the divisions complete in every state with a selected gang, with the
table's result. The exact products are taken over the integers. Registers that are not `sD`, lanes, masks, memory and every
other part of the state stay as they are; a write of `s0` is discarded (R13). R106: the divide instructions complete on every operand. For a divisor that is not zero the quotient is truncated toward
zero and the remainder has the dividend's sign; the borderline cases have the table's results, and nothing traps. -/
def Obligations.ScalarArithmetic : Prop :=
  (Scalar2 .add (fun a b => a + b) ∧ Scalar2 .sub (fun a b => a - b) ∧
  Scalar2 .mul (fun a b => BitVec.ofNat 64 (a.toNat * b.toNat)) ∧
  Scalar2 .mulhI (fun a b => BitVec.ofInt 64 (a.toInt * b.toInt / 2 ^ 64)) ∧
  Scalar2 .mulhN (fun a b => BitVec.ofNat 64 (a.toNat * b.toNat / 2 ^ 64)) ∧
  Scalar2 .and (fun a b => a &&& b) ∧ Scalar2 .or (fun a b => a ||| b) ∧ Scalar2 .xor (fun a b => a ^^^ b) ∧
  Scalar2 .andn (fun a b => a &&& ~~~b) ∧
  Scalar2 .shl (fun a b => BitVec.ofNat 64 (a.toNat * 2 ^ (b.toNat % 64))) ∧
  Scalar2 .shrN (fun a b => BitVec.ofNat 64 (a.toNat / 2 ^ (b.toNat % 64))) ∧
  Scalar2 .shrI (fun a b => BitVec.ofInt 64 (a.toInt / 2 ^ (b.toNat % 64))) ∧
  Scalar2 .rot (fun a b => a <<< (b.toNat % 64) ||| a >>> (64 - b.toNat % 64)) ∧
  Scalar2 .minI (fun a b => BitVec.ofInt 64 (min a.toInt b.toInt)) ∧
  Scalar2 .minN (fun a b => BitVec.ofNat 64 (min a.toNat b.toNat)) ∧
  Scalar2 .maxI (fun a b => BitVec.ofInt 64 (max a.toInt b.toInt)) ∧
  Scalar2 .maxN (fun a b => BitVec.ofNat 64 (max a.toNat b.toNat))) ∧
  (∃ qi qn ri rn : Word → Word → Word,
    Scalar2 .divI qi ∧ Scalar2 .divN qn ∧ Scalar2 .remI ri ∧ Scalar2 .remN rn ∧
    (∀ a, qi a 0 = 0xFFFFFFFFFFFFFFFF ∧ qn a 0 = 0xFFFFFFFFFFFFFFFF ∧ ri a 0 = a ∧ rn a 0 = a) ∧
    (qi 0x8000000000000000 (-1) = 0x8000000000000000 ∧ ri 0x8000000000000000 (-1) = 0) ∧
    (∀ a b, b ≠ 0 → IsDivI a b (qi a b) (ri a b) ∧ a = qi a b * b + ri a b ∧
      qn a b = BitVec.ofNat 64 (a.toNat / b.toNat) ∧ rn a b = BitVec.ofNat 64 (a.toNat % b.toNat))) ∧
  (∀ d a b : SReg, OpsA [(.add d a b, 0x01), (.sub d a b, 0x02), (.mul d a b, 0x03), (.mulhI d a b, 0x04), (.mulhN d a b, 0x05),
    (.divI d a b, 0x06), (.divN d a b, 0x07), (.remI d a b, 0x08), (.remN d a b, 0x09), (.and d a b, 0x0A), (.or d a b, 0x0B),
    (.xor d a b, 0x0C), (.andn d a b, 0x0D), (.shl d a b, 0x0E), (.shrN d a b, 0x0F), (.shrI d a b, 0x10), (.rot d a b, 0x11),
    (.minI d a b, 0x12), (.minN d a b, 0x13), (.maxI d a b, 0x14), (.maxN d a b, 0x15)]) ∧
  ReservedA ((List.range 21).map (· + 1)) (fun f => f.c ≠ 0)

/-- R107: `sel lea clz ctz popc sext zext mov` complete in every state with a selected gang, with these results. R109 and R110: the immediate forms and the constants. -/
def Obligations.ScalarFormsAndImmediates : Prop :=
  ((∀ (s : State) (k : Issue) (d a b c : SReg), s.dev.issuer? = some k →
    exec (.sel d a b c) s = .next (wroteScalar s k 4 d fun t =>
      if (k.strand t).rd c ≠ 0 then (k.strand t).rd a else (k.strand t).rd b)) ∧
  (∀ (s : State) (k : Issue) (d a b : SReg) (n : BitVec 6), s.dev.issuer? = some k →
    exec (.lea d a b n) s = .next (wroteScalar s k 4 d fun t =>
      (k.strand t).rd a + BitVec.ofNat 64 (((k.strand t).rd b).toNat * 2 ^ n.toNat))) ∧
  (∃ clz ctz popc : Word → Word, Scalar1 .clz clz ∧ Scalar1 .ctz ctz ∧ Scalar1 .popc popc ∧
    clz 0 = 64 ∧ ctz 0 = 64 ∧
    (∀ x i, i < 64 → x.getLsbD i = true → (∀ j, i < j → x.getLsbD j = false) → clz x = BitVec.ofNat 64 (63 - i)) ∧
    (∀ x i, i < 64 → x.getLsbD i = true → (∀ j, j < i → x.getLsbD j = false) → ctz x = BitVec.ofNat 64 i) ∧
    (∀ x, popc x = BitVec.ofNat 64 ((List.range 64).map fun i => (x.getLsbD i).toNat).sum)) ∧
  ScalarI .sext (fun x c => BitVec.signExtend 64 (x.extractLsb' 0 (c.toNat + 1))) ∧
  ScalarI .zext (fun x c => BitVec.zeroExtend 64 (x.extractLsb' 0 (c.toNat + 1))) ∧
  Scalar1 .mov (fun x => x)) ∧
  (ScalarI .addi (fun a (i : BitVec 12) => BitVec.ofInt 64 (a.toInt + i.toInt)) ∧
  ScalarI .andi (fun a (i : BitVec 12) => a &&& i.signExtend 64) ∧
  ScalarI .ori (fun a (i : BitVec 12) => a ||| i.signExtend 64) ∧
  ScalarI .xori (fun a (i : BitVec 12) => a ^^^ i.signExtend 64) ∧
  ScalarI .shli (fun a (n : BitVec 6) => BitVec.ofNat 64 (a.toNat * 2 ^ n.toNat)) ∧
  ScalarI .shriN (fun a (n : BitVec 6) => BitVec.ofNat 64 (a.toNat / 2 ^ n.toNat)) ∧
  ScalarI .shriI (fun a (n : BitVec 6) => BitVec.ofInt 64 (a.toInt / 2 ^ n.toNat)) ∧
  (∀ (s : State) (k : Issue) (d : SReg) (i : BitVec 18), s.dev.issuer? = some k →
    exec (.li d i) s = .next (wroteScalar s k 4 d fun _ => BitVec.ofInt 64 i.toInt)) ∧
  (∀ (s : State) (k : Issue) (d : SReg) (i : BitVec 16), s.dev.issuer? = some k →
    exec (.lih d i) s = .next (wroteScalar s k 4 d fun t => ((k.strand t).rd d).extractLsb' 0 48 ++ i))) ∧
  (∀ (d a b c : SReg) (n : BitVec 6), OpsA [(.sel d a b c, 0x16), (.lea d a b n, 0x17), (.clz d a, 0x18), (.ctz d a, 0x19),
    (.popc d a, 0x1A), (.sext d a n, 0x1B), (.zext d a n, 0x1C), (.mov d a, 0x1D)]) ∧
  ReservedA [0x18, 0x19, 0x1A, 0x1D] (fun f => f.b ≠ 0 ∨ f.c ≠ 0) ∧ ReservedA [0x1B, 0x1C] (fun f => f.b ≠ 0) ∧
  (∀ (d a : SReg) (n : BitVec 6), OpsA [(.shli d a n, 0x2C), (.shriN d a n, 0x2D), (.shriI d a n, 0x2E)]) ∧
  ReservedA [0x2C, 0x2D, 0x2E] (fun f => f.imm12.extractLsb' 6 6 ≠ 0) ∧
  ReservedA [0x31] (fun f => f.imm18.extractLsb' 16 2 ≠ 0) ∧
  encode (.li 4 (BitVec.ofInt 18 (-292))) = some [0x30, 0x13, 0xFE, 0xDC] ∧
  encode (.lih 4 0xBA98) = some [0x31, 0x10, 0xBA, 0x98] ∧ encode (.lih 4 0x7654) = some [0x31, 0x10, 0x76, 0x54] ∧
  encode (.lih 4 0x3210) = some [0x31, 0x10, 0x32, 0x10] ∧
  BitVec.ofInt 64 (BitVec.ofInt 18 (-292)).toInt = 0xFFFFFFFFFFFFFEDC#64 ∧
  (0xFFFFFFFFFFFFFEDC#64).extractLsb' 0 48 ++ 0xBA98#16 = 0xFFFFFFFFFEDCBA98 ∧
  (0xFFFFFFFFFEDCBA98#64).extractLsb' 0 48 ++ 0x7654#16 = 0xFFFFFEDCBA987654 ∧
  (0xFFFFFEDCBA987654#64).extractLsb' 0 48 ++ 0x3210#16 = 0xFEDCBA9876543210

/-- R108: the scalar compares (OP 0x20 to 0x25) set `sD` to 1 when the relation holds and to 0 otherwise, and change nothing
else. -/
def Obligations.ScalarCompares : Prop :=
  Scalar2 .cmpEq (fun a b => if a = b then 1 else 0) ∧ Scalar2 .cmpNe (fun a b => if a ≠ b then 1 else 0) ∧
  Scalar2 .cmpLtI (fun a b => if a.toInt < b.toInt then 1 else 0) ∧
  Scalar2 .cmpLtN (fun a b => if a.toNat < b.toNat then 1 else 0) ∧
  Scalar2 .cmpLeI (fun a b => if a.toInt ≤ b.toInt then 1 else 0) ∧
  Scalar2 .cmpLeN (fun a b => if a.toNat ≤ b.toNat then 1 else 0) ∧
  ∀ d a b : SReg, [encodeA (.cmpEq d a b), encodeA (.cmpNe d a b), encodeA (.cmpLtI d a b), encodeA (.cmpLtN d a b),
    encodeA (.cmpLeI d a b), encodeA (.cmpLeN d a b)] = [0x20, 0x21, 0x22, 0x23, 0x24, 0x25].map fun op => some ⟨op, d, a, b, 0⟩
/-! ## Control transfer, waits, special registers (04) -/

namespace Sys2Proof.Claims

/-- The next PC of a strand whose branch goes to `x`, or is not taken: as a number, and as the register holds it. -/
def nextAddr (k : Issue) (x : Option Int) : Int := x.getD (k.pc.toNat + 4)
def nextPc (k : Issue) (x : Option Int) : Word :=
  match x with
  | some a => BitVec.ofInt 64 a
  | none => k.pc + 4

/-- An instruction transfers control as R111, R73 and R18 say: a next PC outside 0 to 2^56 − 1 in any strand of the gang raises
FETCH and writes nothing; otherwise each strand goes on at its own next PC, strands that agree on it stay one gang, and
with `link` each strand's `s63` takes PC + 4. Nothing else changes. -/
def Transfers (s : State) (k : Issue) (i : Instr) (target : Nat → Option Int) (link : Bool) : Prop :=
  ((∃ t, t < 8 ∧ inGang k.gang t = true ∧ (nextAddr k (target t) < 0 ∨ 2 ^ 56 ≤ nextAddr k (target t))) →
    exec i s = .next (after s fun d => d.trap k cFetch)) ∧
  ((∀ t, inGang k.gang t = true → 0 ≤ nextAddr k (target t) ∧ nextAddr k (target t) < 2 ^ 56) →
    ∃ mates : Nat → StrandMask,
      (∀ t u, inGang (mates t) u = true ↔ inGang k.gang u = true ∧ nextPc k (target u) = nextPc k (target t)) ∧
      exec i s = .next (gangStep s k fun t x => { x with
        s := if link then x.s.set 63 (k.pc + 4) else x.s, pc := nextPc k (target t), gang := mates t, waiting := none }))

/-- Lane `4t + l` of a mask, for strand `t`. -/
def maskBit (k : Issue) (m : MReg) (t l : Nat) : Bool := (k.wave.mask m).getLsbD (4 * t + l)

/-- A wave's strands as the handler finds them (R306): PC saved, s60 to s62 saved and filled from the fault record, one
gang at `%tvec`, nothing waited for. -/
def entersHandler (cause : Nat) (w : Wave) : Wave :=
  { w with
    cause := w.cause ||| (1#64 <<< cause)
    gsave := w.gangMap
    inHandler := true
    entry := false
    strands := w.strands.map fun x =>
      if x.exited then x
      else { x with
        epc := x.pc
        hsave := [x.rd 60, x.rd 61, x.rd 62]
        s := ((x.s.set 60 w.fault.addr).set 61 w.fault.word).set 62 w.fault.pc
        pc := w.tvec
        gang := w.liveMask
        waiting := none
        monitor := match x.waiting with | some ⟨_, .mwait _⟩ => none | _ => x.monitor } }

/-- A strand that waits, since the cycle at which it began. -/
def waits (now : Nat) (what : WaitFor) (x : Strand) : Strand :=
  { x with waiting := some ⟨match x.waiting with
      | some y => if y.what.isFull then now else y.since
      | none => now, what⟩ }

/-- The wave can take an exception at once: it has a handler and is not in it, no strand is inside an instruction that no
cause ends, no claim of it is pending, and nothing that it has asked another package for is awaited. -/
def CanEnter (s : State) (k : Issue) : Prop :=
  s.dev.issuer? = some k ∧ k.wave.tvec ≠ 0 ∧ k.wave.inHandler = false ∧ k.wave.busy = false ∧
    (s.dev.core k.core).claims.any (·.1 == k.wave.id) = false ∧ s.dev.asksFor k.wave.id = false

end Sys2Proof.Claims

/-- R111 to R114: every branch completes in every state with a selected gang, as `Transfers` says: `br` and `call` always,
`bz` and `bnz` on the strand's `sD`, the mask branches on the strand's four bits of `mC AND m0` and `m0`, `jr` and `ret` to
the low 56 bits of a register. The model's choice (log entry 19): a branch whose target, or whose fall-through where it is not
taken, lies past 2^56 − 1 raises FETCH at the branch; R111 speaks of a target only. -/
def Obligations.Branches : Prop :=
  ∀ (s : State) (k : Issue), s.dev.issuer? = some k →
    (∀ o : BitVec 20, Transfers s k (.br o) (fun _ => some (k.pc.toNat + o.toInt)) false) ∧
    (∀ o : BitVec 20, Transfers s k (.call o) (fun _ => some (k.pc.toNat + o.toInt)) true) ∧
    (∀ (d : SReg) (o : BitVec 18),
      Transfers s k (.bz d o) (fun t => if (k.strand t).rd d = 0 then some (k.pc.toNat + o.toInt) else none) false) ∧
    (∀ (d : SReg) (o : BitVec 18),
      Transfers s k (.bnz d o) (fun t => if (k.strand t).rd d ≠ 0 then some (k.pc.toNat + o.toInt) else none) false) ∧
    (∀ (c : MReg) (o : BitVec 20),
      Transfers s k (.bmany c o) (fun t => if ∃ l < 4, maskBit k c t l = true ∧ maskBit k 0 t l = true
        then some (k.pc.toNat + o.toInt) else none) false) ∧
    (∀ (c : MReg) (o : BitVec 20),
      Transfers s k (.bmall c o) (fun t => if ∀ l < 4, maskBit k 0 t l = true → maskBit k c t l = true
        then some (k.pc.toNat + o.toInt) else none) false) ∧
    (∀ (c : MReg) (o : BitVec 20),
      Transfers s k (.bmnone c o) (fun t => if ∀ l < 4, ¬ (maskBit k c t l = true ∧ maskBit k 0 t l = true)
        then some (k.pc.toNat + o.toInt) else none) false) ∧
    (∀ a : SReg, Transfers s k (.jr a) (fun t => some (((k.strand t).rd a).toNat % 2 ^ 56 : Nat)) false) ∧
    Transfers s k .ret (fun t => some (((k.strand t).rd 63).toNat % 2 ^ 56 : Nat)) false ∧
    (∀ (d : SReg) (c : MReg) (o : BitVec 20) (p : BitVec 18), OpsA [(.br o, 0x38), (.call o, 0x39), (.bz d p, 0x3A),
      (.bnz d p, 0x3B), (.bmany c o, 0x3C), (.bmall c o, 0x3D), (.bmnone c o, 0x3E), (.jr d, 0x3F), (.ret, 0x40)]) ∧
    ReservedA [0x38, 0x39] (fun f => f.cond ≠ 0) ∧ ReservedA [0x3F] (fun f => f.d ≠ 0 ∨ f.b ≠ 0 ∨ f.c ≠ 0) ∧
    ReservedA [0x40] (fun f => f.d ≠ 0 ∨ f.a ≠ 0 ∨ f.b ≠ 0 ∨ f.c ≠ 0)

/-- R119, R120, R82, R306, R307: `trap`, `brk` (when no debugger has asked to halt on it) and bytes that are no instruction
take their exception: the cause bit is set, every live strand's PC is saved in `%epc` and s60 to s62 are saved and filled
from the fault record, the gangs are saved in `%gsave`, and the wave stands at `%tvec` as one gang. Nothing else changes. R363: with DBGCTL.BRKHALT set, `brk` sets BREAK and halts the wave where it stands. R305, R309, R40: a precise cause in a wave that has no handler, or is in it, ends the wave and its block: every wave of
the block has only exited strands afterwards. Stated for `trap`, `brk` and bytes that are no instruction. -/
def Obligations.ExceptionEntry : Prop :=
  ((∀ (s : State) (k : Issue), CanEnter s k →
    (∀ c : BitVec 12, exec (.trap c) s = .next (waveStep s k (entersHandler 19))) ∧
    (s.mgmt.brkhalt = false → ∀ c : BitVec 8, exec (.brk c) s = .next (waveStep s k (entersHandler 20))) ∧
    exec .illegalEncoding s = .next (waveStep s k (entersHandler 0))) ∧
  (∀ (s : State) (k : Issue) (c : BitVec 8), s.dev.issuer? = some k → s.mgmt.brkhalt = true →
    exec (.brk c) s = .next (waveStep s k fun w => { w with cause := w.cause ||| (1#64 <<< 20), halted := true }))) ∧
  (∀ (s : State) (k : Issue), s.dev.issuer? = some k → k.wave.tvec = 0 ∨ k.wave.inHandler = true →
    s.mgmt.brkhalt = false →
    ∀ i : Instr, ((∃ c, i = .trap c) ∨ (∃ c, i = .brk c) ∨ i = .illegalEncoding) →
      ∃ t, exec i s = .next t ∧ ∀ w ∈ t.dev.waves, w.block = k.wave.block → w.strands.all (·.exited) = true)

/-- R121, R308: `rett` from a wave that stands in its handler as one gang. With no cause left it leaves the handler: s60 to
s62 come back, the gangs of `%gsave` are formed, each live strand goes on at its `%epc`. With a cause left and a handler it
enters again at `%tvec`, `%epc` and `%gsave` unchanged. Without a handler, causes that Table 11-1 calls bit-only stay set and the
wave leaves all the same; any other cause left ends the waves of the block. A map in `%gsave` that breaks R16 raises GANG. R121: a `rett` by part of a wave raises GANG, and one by a whole wave outside its handler raises ILLEGAL. -/
def Obligations.ExceptionReturn : Prop :=
  (∀ (s : State) (k : Issue), s.dev.issuer? = some k → k.gang = k.wave.liveMask → k.wave.inHandler = true →
    let ending := ∃ c < 26, k.wave.cause.getLsbD c = true ∧ c ∉ [cLeaselost, cPreempt, cMigrate, cGuarantee, cEnergy]
    (k.wave.cause = 0 ∨ k.wave.tvec = 0 → ¬ ending → validMap k.wave.gsave k.wave.liveMask = false →
      exec .rett s = .next (after s fun d => d.trap k cGang)) ∧
    (k.wave.tvec = 0 → ending →
      ∃ t, exec .rett s = .next t ∧ ∀ w ∈ t.dev.waves, w.block = k.wave.block → w.strands.all (·.exited) = true) ∧
    (k.wave.cause = 0 ∨ k.wave.tvec = 0 → ¬ ending → validMap k.wave.gsave k.wave.liveMask = true →
      exec .rett s = .next (waveStep s k fun w => { w with
        inHandler := false
        fault := { w.fault with fresh := false }
        strands := w.strands.mapIdx fun t x => if x.exited then x else { x with
          s := ((x.s.set 60 ((x.hsave[0]?).getD 0)).set 61 ((x.hsave[1]?).getD 0)).set 62 ((x.hsave[2]?).getD 0)
          pc := x.epc
          gang := mapByte w.gsave t
          waiting := none } })) ∧
    (k.wave.cause ≠ 0 → k.wave.tvec ≠ 0 →
      exec .rett s = .next (waveStep s k fun w => { w with
        strands := w.strands.map fun x => if x.exited then x else { x with
          s := ((x.s.set 60 w.fault.addr).set 61 w.fault.word).set 62 w.fault.pc
          pc := w.tvec
          gang := w.liveMask
          waiting := none } }))) ∧
  (∀ (s : State) (k : Issue), s.dev.issuer? = some k →
    (k.gang ≠ k.wave.liveMask → exec .rett s = .next (after s fun d => d.trap k cGang)) ∧
    (k.gang = k.wave.liveMask → k.wave.inHandler = false → exec .rett s = .next (after s fun d => d.trap k cIllegal)))

/-- R115: `wait` passes when each named counter of the wave is at or below its field, the wave adopting what its copies,
tile operations and table or select operations leave; otherwise the gang waits. Nothing else changes. That a wait which passes at
once adopts those times too is the model's choice (log entry 23). -/
def Obligations.WaitOnCounters : Prop :=
  ∀ (s : State) (k : Issue) (ld st : BitVec 6) (cp : BitVec 5) (tl : BitVec 4) (fx : BitVec 3), s.dev.issuer? = some k →
    let met := s.dev.ld k.wave.id ≤ ld.toNat ∧ s.dev.st k.wave.id ≤ st.toNat ∧ s.dev.cp k.wave.id ≤ cp.toNat ∧
      s.dev.tl k.wave.id ≤ tl.toNat ∧ s.dev.fx k.wave.id ≤ fx.toNat
    (met → exec (.wait ld st cp tl fx) s = .next (waveStep s k fun w => { w with
      lts := max (max (max w.lts (if cp = 31 then 0 else w.doneCp)) (if tl = 15 then 0 else w.doneTl))
        (if fx = 7 then 0 else w.doneFx)
      strands := w.strands.mapIdx fun t x => if inGang k.gang t then passed 4 x else x })) ∧
    (¬ met → exec (.wait ld st cp tl fx) s = .next (gangStep s k fun _ x =>
      waits s.dev.clock (.counters ld.toNat st.toNat cp.toNat tl.toNat fx.toNat) x))

/-- R15, R116, R117: `sget` completes for every register number up to 17 (`%lts`, number 15, once the times of the wave's
earlier operations stand) and raises ILLEGAL above; the listed registers read as Table 1-2 says. `sset` completes for every
number up to 17, writes `%tvec`, each strand's `%epc` and `%gsave` and leaves the others alone, and raises ILLEGAL above. R118: `cclr`
clears the named bits of `%cause` that exist, and nothing else changes; that `cclr sA` clears what any strand of the gang names
is the model's choice (log entry 18). -/
def Obligations.SpecialRegisters : Prop :=
  (∀ (s : State) (k : Issue) (n : BitVec 12), s.dev.issuer? = some k →
    (∀ d : SReg,
      (17 < n.toNat → exec (.sget d n) s = .next (after s fun x => x.trap k cIllegal)) ∧
      (n.toNat ≤ 17 → (n.toNat = 15 → s.dev.settled k = true) →
        ∃ v : Nat → Word, exec (.sget d n) s = .next (wroteScalar s k 4 d v) ∧
          (n = 0 → ∀ t, v t = BitVec.ofNat 64 (4 * t)) ∧ (n = 1 → ∀ t, v t = BitVec.ofNat 64 t) ∧
          (n = 3 → ∀ t, v t = k.block.coord) ∧ (n = 7 → ∀ t, v t = k.wave.cause) ∧ (n = 8 → ∀ t, v t = k.wave.tvec) ∧
          (n = 9 → ∀ t, v t = (k.strand t).epc) ∧ (n = 13 → ∀ t, v t = BitVec.ofNat 64 s.dev.clock) ∧
          (n = 15 → ∀ t, v t = BitVec.ofNat 64 k.wave.lts) ∧ (n = 16 → ∀ t, v t = k.wave.gsave))) ∧
    (∀ a : SReg,
      (17 < n.toNat → exec (.sset a n) s = .next (after s fun x => x.trap k cIllegal)) ∧
      (n = 8 → exec (.sset a n) s = .next (waveStep s k fun w => { w with
        tvec := k.rd a &&& 0xFFFFFFFFFFFFFF
        strands := w.strands.mapIdx fun t x => if inGang k.gang t then passed 4 x else x })) ∧
      (n = 9 → exec (.sset a n) s = .next (gangStep s k fun _ x =>
        passed 4 { x with epc := x.rd a &&& 0xFFFFFFFFFFFFFF })) ∧
      (n = 16 → exec (.sset a n) s = .next (waveStep s k fun w => { w with
        gsave := k.rd a
        strands := w.strands.mapIdx fun t x => if inGang k.gang t then passed 4 x else x })) ∧
      (n.toNat ≤ 17 → n ≠ 8 → n ≠ 9 → n ≠ 16 → exec (.sset a n) s = .next (gangStep s k fun _ x => passed 4 x)))) ∧
  (∀ (s : State) (k : Issue), s.dev.issuer? = some k →
    (∀ a : SReg, ∃ f : Word → Word,
      (∀ c b, b < 64 → ((f c).getLsbD b = true ↔ c.getLsbD b = true ∧
        ¬ (b < 26 ∧ ∃ t, inGang k.gang t = true ∧ ((k.strand t).rd a).getLsbD b = true))) ∧
      exec (.cclrReg a) s = .next (waveStep s k fun w => { w with
        cause := f w.cause
        strands := w.strands.mapIdx fun t x => if inGang k.gang t then passed 4 x else x })) ∧
    (∀ c : BitVec 6, ∃ f : Word → Word,
      (∀ x b, b < 64 → ((f x).getLsbD b = true ↔ x.getLsbD b = true ∧ ¬ (b = c.toNat ∧ b < 26))) ∧
      exec (.cclrImm c) s = .next (waveStep s k fun w => { w with
        cause := f w.cause
        strands := w.strands.mapIdx fun t x => if inGang k.gang t then passed 4 x else x })))
/-! ## Masks, register claims, class E (04) -/

namespace Sys2Proof.Claims

/-- A mask instruction completes: `mD` takes `f` in the gang's lane bits and keeps its other bits (R125). -/
def MaskResult (s : State) (k : Issue) (i : Instr) (d : MReg) (f : Nat → Bool) : Prop :=
  ∃ x : Wave → LaneMask,
    (∀ w l, l < 32 → (x w).getLsbD l = if inGang k.gang (l / 4) then f l else (w.mask d).getLsbD l) ∧
    exec i s = .next (waveStep s k fun w => { w with
      m := w.m.set d.toNat (x w)
      strands := w.strands.mapIdx fun t y => if inGang k.gang t then passed 4 y else y })

/-- Bit `l` of a mask as the gang sees it: zero outside its lanes. -/
def gangBit (k : Issue) (a : MReg) (l : Nat) : Bool := inGang k.gang (l / 4) && (k.wave.mask a).getLsbD l

/-- A state is another but for what the caches and TLBs hold. -/
def Cached (s t : State) : Prop :=
  t = { s with dev := { s.dev with
    tlb := t.dev.tlb, llc := t.dev.llc, mt := t.dev.mt, xfers := t.dev.xfers, l1 := t.dev.l1 } }

/-- The strands of the gang wait for something; nothing else changes. -/
def stays (s : State) (k : Issue) (what : WaitFor) : State := gangStep s k fun _ x => waits s.dev.clock what x

end Sys2Proof.Claims

/-- R125: the mask operations (OP 0x5A to 0x5E) complete in every state with a selected gang: `mD := (mD AND NOT G) OR (f(mA, mB) AND G)`. -/
def Obligations.MaskLogic : Prop :=
  ∀ (s : State) (k : Issue) (d a b : MReg), s.dev.issuer? = some k →
    let x (l : Nat) : Bool := (k.wave.mask a).getLsbD l
    let y (l : Nat) : Bool := (k.wave.mask b).getLsbD l
    MaskResult s k (.mand d a b) d (fun l => x l && y l) ∧ MaskResult s k (.mor d a b) d (fun l => x l || y l) ∧
    MaskResult s k (.mxor d a b) d (fun l => x l != y l) ∧ MaskResult s k (.mandn d a b) d (fun l => x l && !y l) ∧
    MaskResult s k (.mnot d a) d (fun l => !x l) ∧
    [encodeA (.mand d a b), encodeA (.mor d a b), encodeA (.mxor d a b), encodeA (.mandn d a b)] =
      [0x5A, 0x5B, 0x5C, 0x5D].map (fun op => some ⟨op, 0#2 ++ d, 0#2 ++ a, 0#2 ++ b, 0⟩) ∧
    encodeA (.mnot d a) = some ⟨0x5E, 0#2 ++ d, 0#2 ++ a, 0, 0⟩

/-- R124, R126: `mget`, `mset`, `mpop` and `mffs` complete in every state with a selected gang. -/
def Obligations.MaskMoves : Prop :=
  ∀ (s : State) (k : Issue), s.dev.issuer? = some k →
    (∀ (d : SReg) (a : MReg), ∃ v : Word,
      (∀ l, v.getLsbD l = (decide (l < 32) && gangBit k a l)) ∧ exec (.mget d a) s = .next (wroteScalar s k 4 d fun _ => v)) ∧
    (∀ (d : MReg) (a : SReg), MaskResult s k (.mset d a) d fun l => ((k.strand (l / 4)).rd a).getLsbD l) ∧
    (∀ (d : SReg) (a : MReg), exec (.mpop d a) s = .next (wroteScalar s k 4 d fun _ =>
      BitVec.ofNat 64 ((List.range 32).countP (gangBit k a)))) ∧
    (∀ (d : SReg) (a : MReg), exec (.mffs d a) s = .next (wroteScalar s k 4 d fun _ =>
      BitVec.ofNat 64 (((List.range 32).find? (gangBit k a)).getD 32))) ∧
    ∀ (d : SReg) (a : MReg), encodeA (.mpop d a) = some ⟨0x5F, d, 0#2 ++ a, 0, 0⟩ ∧
      encodeA (.mffs d a) = some ⟨0x60, d, 0#2 ++ a, 0, 0⟩

/-- R140: `nop` (F0 00) and the pad byte 0xFF change nothing but the PC. -/
def Obligations.NopAndPad : Prop :=
  ∀ (s : State) (k : Issue), s.dev.issuer? = some k →
    exec .nop s = .next (gangStep s k fun _ x => passed 2 x) ∧ exec .pad s = .next (gangStep s k fun _ x => passed 1 x) ∧
    encode .nop = some [0xF0, 0x00] ∧ encode .pad = some [0xFF]

/-- R19, R142, R143, R145: `regang #mask` joins the live strands it names once all of them stand at it, and waits before; it raises
GANG when the mask leaves out a strand of the gang, when a waiting strand that one of the two masks names waits with another mask, and
when the named strands stand at different PCs, and ILLEGAL with an empty mask;
`exit` ends the strands of the gang and leaves the others as they are; `trigger` marks the strands. R141: a `yield` that begins goes on at once when it notes no gang, and waits for the noted gangs otherwise. -/
def Obligations.GangControls : Prop :=
  (∀ (s : State) (k : Issue), s.dev.issuer? = some k →
    exec (.regang 0) s = .next (after s fun d => d.trap k cIllegal) ∧
    (∀ m : StrandMask, m ≠ 0 →
      let covers := ∀ t, inGang k.gang t = true → inGang m t = true
      let clash := ∃ u x since y, k.wave.strands[u]? = some x ∧ inGang k.gang u = false ∧ x.exited = false ∧
        x.waiting = some ⟨since, .regang y⟩ ∧ y ≠ m ∧ (inGang m u = true ∨ ∃ t, inGang k.gang t = true ∧ inGang y t = true)
      let here := ∀ t x, k.wave.strands[t]? = some x → inGang m t = true → x.exited = false →
        inGang k.gang t = true ∨ ∃ since, x.waiting = some ⟨since, .regang m⟩
      let astray := ∃ t x, k.wave.strands[t]? = some x ∧ inGang m t = true ∧ x.exited = false ∧ x.pc ≠ k.pc
      (¬ covers ∨ clash ∨ (here ∧ astray) → exec (.regang m) s = .next (after s fun d => d.trap k cGang)) ∧
      (covers → ¬ clash → here → ¬ astray →
        exec (.regang m) s = .next (waveStep s k fun w => { w with
          strands := w.strands.mapIdx fun t x => if inGang (m &&& k.wave.liveMask) t
            then { x with pc := x.pc + 2, gang := m &&& k.wave.liveMask, waiting := none } else x })) ∧
      (covers → ¬ clash → ¬ here → exec (.regang m) s = .next (stays s k (.regang m)))) ∧
    (∃ t, exec .exit s = .next t ∧
      (∀ w ∈ t.dev.waves, w.id = k.wave.id → ∀ u x, w.strands[u]? = some x → inGang k.gang u = true →
        x.exited = true ∧ x.gang = 0) ∧
      ((∃ (u : Nat) (x : Strand), k.wave.strands[u]? = some x ∧ inGang k.gang u = false ∧ x.exited = false) →
        t.dev.waves = (gangStep s k fun _ x =>
          { x with exited := true, gang := 0, waiting := none, monitor := none }).dev.waves ∧
        t.dev.memops = s.dev.memops ∧ t.dev.jobs = s.dev.jobs ∧ t.dev.mem = s.dev.mem ∧ t.dev.locmem = s.dev.locmem)) ∧
    (∃ t, exec .trigger s = .next t ∧
      t.dev.waves = (gangStep s k fun _ x => passed 2 { x with triggered := true }).dev.waves ∧
      t.dev.memops = s.dev.memops ∧ t.dev.jobs = s.dev.jobs ∧ t.dev.mem = s.dev.mem ∧ t.dev.locmem = s.dev.locmem)) ∧
  (∀ (s : State) (k : Issue), s.dev.issuer? = some k →
    (∀ since l, k.low.waiting ≠ some ⟨since, .yield l⟩) →
    let noted := Dev.noteGangs { s.dev with latch := none } k.core (k.wave.port.getD 0) k.wave.id k.gang
    (noted = [] → exec .yield s = .next (gangStep s k fun _ x => passed 2 x)) ∧
    (noted ≠ [] → exec .yield s = .next (stays s k (.yield noted))))

/-- R27, R28, R29, R123: `regrel` of n granules drops the top 8n registers of a window that keeps at least 8, once loads and
table or select operations are done; `regclm` of n granules queues a claim and waits. Both need the whole wave. R29, R30: CLAIM_GRANT serves a core's oldest claim whole, and only when its granules are free: the wave's window grows
by 8n registers that read zero, and its strands pass the `regclm`. DEADLOCK withdraws the claims of a block all of whose
live waves are blocked, one of them at least in a claim, and raises DEADLOCK in every claimant: with a handler it enters it with its
window as it was and `%epc` at its `regclm`; one without a handler ends its block. -/
def Obligations.RegisterClaims : Prop :=
  (∀ (s : State) (k : Issue) (n : BitVec 6), s.dev.issuer? = some k → 1 ≤ n.toNat → n.toNat ≤ 31 →
    (k.gang ≠ k.wave.liveMask →
      exec (.regrel n) s = .next (after s fun d => d.trap k cGang) ∧
      exec (.regclm n) s = .next (after s fun d => d.trap k cGang)) ∧
    (k.gang = k.wave.liveMask →
      (k.wave.v.length < 8 * n.toNat + 8 → exec (.regrel n) s = .next (after s fun d => d.trap k cRegrange)) ∧
      (8 * n.toNat + 8 ≤ k.wave.v.length →
        (s.dev.ld k.wave.id = 0 ∧ s.dev.fx k.wave.id = 0 → exec (.regrel n) s = .next (waveStep s k fun w => { w with
          v := w.v.take (w.v.length - 8 * n.toNat)
          strands := w.strands.mapIdx fun t x => if inGang k.gang t then passed 4 x else x })) ∧
        (¬ (s.dev.ld k.wave.id = 0 ∧ s.dev.fx k.wave.id = 0) → exec (.regrel n) s = .next (stays s k .regrel))) ∧
      (256 < k.wave.v.length + 8 * n.toNat → exec (.regclm n) s = .next (after s fun d => d.trap k cRegrange)) ∧
      (k.wave.v.length + 8 * n.toNat ≤ 256 →
        ∃ t, exec (.regclm n) s = .next t ∧ t.dev.waves = (stays s k (.regclm n.toNat)).dev.waves ∧
          (t.dev.core k.core).claims = (s.dev.core k.core).claims ++ [(k.wave.id, n.toNat)]))) ∧
  ((∀ (s : State) (core id n : Nat) (rest : List (Nat × Nat)), (s.dev.core core).claims = (id, n) :: rest →
    (s.dev.poolFree core < n → exec (.claimGrant core) s = .next s) ∧
    (n ≤ s.dev.poolFree core → ∃ t, exec (.claimGrant core) s = .next t ∧ (t.dev.core core).claims = rest ∧
      t.dev.waves = s.dev.waves.map fun w => if w.id = id then { w with
        v := w.v ++ List.replicate (8 * n) (List.replicate 32 0)
        strands := w.strands.map fun x => if x.exited then x else passed 4 x } else w)) ∧
  (∀ (s : State) (block : Nat), (s.dev.liveWaves block).any (·.claims) = true →
    (s.dev.liveWaves block).all (fun w => w.claims || w.atBarrier) = true →
    (((s.dev.block? block).any fun b => s.dev.claimReady b.core) = true → exec (.deadlock block) s = .next s) ∧
    (((s.dev.block? block).any fun b => s.dev.claimReady b.core) = false → ∃ t, exec (.deadlock block) s = .next t ∧
      (∀ c ∈ t.dev.cores, ∀ x ∈ c.claims, ∀ w ∈ s.dev.liveWaves block, w.claims = true → x.1 ≠ w.id) ∧
      let claimants := (s.dev.liveWaves block).filter (·.claims)
      ((s.dev.waves.map (·.id)).Nodup → (∀ w ∈ claimants, w.tvec ≠ 0 ∧ w.inHandler = false ∧ w.busy = false) →
        ∀ w ∈ claimants, ∃ w', t.dev.wave? w.id = some w' ∧ w'.cause = w.cause ||| (1#64 <<< cDeadlock) ∧ w'.inHandler = true ∧
          w'.v = w.v ∧ ∀ (u : Nat) (x : Strand), w.strands[u]? = some x → x.exited = false →
            ∃ x', w'.strands[u]? = some x' ∧ x'.pc = w.tvec ∧ x'.epc = x.pc) ∧
      ((s.dev.block? block).isSome = true → (∃ w ∈ claimants, w.tvec = 0 ∨ w.inHandler = true) →
        ∀ w ∈ t.dev.waves, w.block = block → w.strands.all (·.exited) = true))))

/-! ## Monitors, tags, barriers (04) -/

namespace Sys2Proof.Claims

/-- The gang has passed a class A instruction, and the wave has adopted a time. -/
def passedAt (s : State) (k : Issue) (c : Nat) : State :=
  waveStep s k fun w => { w with
    lts := max w.lts c
    strands := w.strands.mapIdx fun t x => if inGang k.gang t then passed 4 x else x }

/-- The largest time among the set tags that the strands of the gang name. -/
def tagTimes (k : Issue) (a : SReg) : Nat :=
  maxOf (k.strands.map fun t => maxOf ((k.block.tags.filter fun g => ((k.strand t).rd a).getLsbD g.tag).map (·.time)))

end Sys2Proof.Claims

/-- R129, R130: `mon` of lines of this package records each strand's line and its write time; `mwait` goes on at once when some strand of the gang
has no monitor or its line has been written, and sleeps otherwise, with a timeout when `sA` is not zero; MWAIT_TIMEOUT ends
the sleep of the strand's gang once that time has come. R131: PORT_SUSPEND takes a wave off its port when every live strand of it has slept in `mwait` for longer than 24,000
cycles and its context has no server at the core; everything else stays as it is. -/
def Obligations.Monitors : Prop :=
  ((∀ (s : State) (k : Issue) (a : SReg) (i : BitVec 12) (pa : Nat → Nat), s.dev.issuer? = some k →
    (∀ t, inGang k.gang t = true →
      s.dev.checkGlobal k.core k.ctx ((k.strand t).rd a + i.signExtend 64).toNat 1 needR false = .ok (.glob (pa t))) →
    ∃ u, exec (.mon a i) s = .next u ∧ Cached (gangStep s k fun t x =>
      passed 4 { x with monitor := some ⟨pa t / 128, (u.dev.lineTimes (pa t)).1, none⟩ }) u) ∧
  (∀ (s : State) (k : Issue) (a : SReg), s.dev.issuer? = some k →
    let free (t : Nat) : Prop := (k.strand t).monitor = none ∨ ∃ m h, (k.strand t).monitor = some m ∧ m.hit = some h
    ((∃ t, inGang k.gang t = true ∧ free t) → ∃ c, exec (.mwait a) s = .next (waveStep s k fun w => { w with
        lts := max w.lts c
        strands := w.strands.mapIdx fun t x => if inGang k.gang t then passed 4 { x with monitor := none } else x })) ∧
    ((∀ t, inGang k.gang t = true → ¬ free t) → exec (.mwait a) s = .next (gangStep s k fun t x =>
      waits s.dev.clock (.mwait (if ((k.strand t).rd a).toNat = 0 then none
        else some (s.dev.clock + ((k.strand t).rd a).toNat))) x))) ∧
  (∀ (s : State) (w : Wave) (strand since till : Nat) (x : Strand), s.dev.wave? w.id = some w →
    w.strands[strand]? = some x → x.waiting = some ⟨since, .mwait (some till)⟩ → w.port.isSome = true →
    till ≤ s.dev.clock →
    exec (.mwaitTimeout w.id strand) s = .next { s with dev := { s.dev with
      waves := s.dev.waves.map fun y => if y.id = w.id then { y with
        strands := y.strands.mapIdx fun t z => if inGang x.gang t
          then { z with pc := z.pc + 4, waiting := none, monitor := none } else z } else y } })) ∧
  (∀ (s : State) (w : Wave) (b : Block) (p : Nat), s.dev.wave? w.id = some w → w.port = some p →
    s.dev.block? w.block = some b → s.dev.server? b.ctx (.port b.core) = none → w.live = true →
    (∀ x ∈ w.strands, x.exited = true ∨ ∃ since o, x.waiting = some ⟨since, .mwait o⟩ ∧ since + 24000 < s.dev.clock) →
    exec (.portSuspend w.id) s = .next { s with dev := { s.dev with
      waves := s.dev.waves.map fun y => if y.id = w.id then { y with port := none } else y } })

/-- R132, R133: the tag waits complete when every strand's tags are there, the wave adopting the largest time among those
that are set, and wait otherwise; `tagffs` completes, once no wave of a higher index has taken its turn in this cycle, and gives
each strand, in strand order, the lowest arrived tag of its mask that no lower strand has taken, or 64, and clears it. A mask that
names a tag the block does not have raises RIGHTS. R136 to R138, for addresses that are aligned and within the allocation:
`bbinit` and `bbexp` complete for every gang, and the object of a strand, if no other strand of the gang names it, has TARGET
set, LANDED zeroed and the wave's clock recorded, or TARGET added to; `bbwait` completes when LANDED equals TARGET in every
strand's object, and waits otherwise. An uncorrectable word in the object stops `bbinit` and `bbexp` from changing it, so the
object is taken to be sound. R36, R139: `bbexp #b` completes and records an arrival of the wave at its clock with the barrier's
generation, which `sD` takes; `bbwait #b` completes, adopting the release time, when the wave's arrival has been released, and
arrives itself when it has not arrived. Part of a wave raises GANG; a second unreleased arrival raises BARRIER. Model's choices:
a gang waits for all its strands' objects and adopts the largest LTS (log entry 24); an instruction that reads the wave's
clock waits until it stands (log entry 14). -/
def Obligations.ArrivalsAndBarriers : Prop :=
  (∀ (s : State) (k : Issue) (a : SReg), s.dev.issuer? = some k →
    let beyond := ∃ t, inGang k.gang t = true ∧ (k.strand t).rd a >>> k.block.ntags ≠ 0
    let met (all : Bool) (t : Nat) : Prop :=
      if all then k.block.arrived &&& (k.strand t).rd a = (k.strand t).rd a
      else (k.strand t).rd a = 0 ∨ k.block.arrived &&& (k.strand t).rd a ≠ 0
    (∀ i : Instr, i = .tagwaitAny a ∨ i = .tagwaitAll a ∨ (∃ d, i = .tagffs d a) → beyond →
      exec i s = .next (after s fun d => d.trap k cRights)) ∧
    (¬ beyond → ((∀ t, inGang k.gang t = true → met false t) → exec (.tagwaitAny a) s = .next (passedAt s k (tagTimes k a))) ∧
      ((∃ t, inGang k.gang t = true ∧ ¬ met false t) → exec (.tagwaitAny a) s = .next (gangStep s k fun t x =>
        waits s.dev.clock (.tags false ((k.strand t).rd a)) x))) ∧
    (¬ beyond → ((∀ t, inGang k.gang t = true → met true t) → exec (.tagwaitAll a) s = .next (passedAt s k (tagTimes k a))) ∧
      ((∃ t, inGang k.gang t = true ∧ ¬ met true t) → exec (.tagwaitAll a) s = .next (gangStep s k fun t x =>
        waits s.dev.clock (.tags true ((k.strand t).rd a)) x))) ∧
    (¬ beyond → ∀ d : SReg,
      let later := k.block.tagTurn.1 = s.dev.clock ∧ k.wave.idx < k.block.tagTurn.2
      (later → exec (.tagffs d a) s = .next (stays s k (.cycle s.dev.clock))) ∧
      (¬ later → ∃ (u : State) (c : Nat) (x : Nat → Nat), exec (.tagffs d a) s = .next u ∧
        (∀ t, t < 8 → inGang k.gang t = true →
          let free (i : Nat) : Prop := k.block.arrived.getLsbD i = true ∧ ((k.strand t).rd a).getLsbD i = true ∧
            ∀ v, v < t → inGang k.gang v = true → x v ≠ i
          (x t = 64 ∧ ∀ i, i < 64 → ¬ free i) ∨ (x t < 64 ∧ free (x t) ∧ ∀ i, i < x t → ¬ free i)) ∧
        u.dev.waves = (waveStep s k fun w => { w with
          lts := max w.lts c
          strands := w.strands.mapIdx fun t y => if inGang k.gang t then
            passed 4 { y with s := if d = 0 then y.s else y.s.set d.toNat (BitVec.ofNat 64 (x t)) } else y }).dev.waves ∧
        u.dev.blocks = s.dev.blocks.map fun b => if b.id = k.block.id
          then { b with
            tagTurn := (s.dev.clock, k.wave.idx)
            tags := b.tags.filter fun g => !(k.strands.any fun t => x t != 64 && x t == g.tag) } else b))) ∧
  ((∀ (s : State) (k : Issue) (d a : SReg) (i : BitVec 12), s.dev.issuer? = some k →
    let off (t : Nat) : Nat := ((k.strand t).rd a + i.signExtend 64).toNat
    let at_ (t : Nat) : Nat := k.block.scratch.base + off t
    let old (t : Nat) : List Byte × Bool := s.dev.readLoc k.core .scratch (at_ t) 16
    let inside (t : Nat) : Prop := off t % 16 = 0 ∧ off t + 16 ≤ k.block.scratch.len
    let balanced (t : Nat) : Prop := field (old t).1 0 4 = field (old t).1 4 4
    let alone (t : Nat) : Prop := (old t).2 = true ∧ ∀ v, v < 8 → inGang k.gang v = true → off v = off t → v = t
    (∀ t, t < 8 → inGang k.gang t = true → (∀ v, v < t → inGang k.gang v = true → inside v) →
      ∀ j : Instr, j = .bbinit d a i ∨ j = .bbexp d a i ∨ j = .bbwait a i →
        (off t % 16 ≠ 0 → exec j s = .next (after s fun x => x.trap k cAlign)) ∧
        (off t % 16 = 0 → k.block.scratch.len < off t + 16 → exec j s = .next (after s fun x => x.trap k cRights))) ∧
    ((∀ t, t < 8 → inGang k.gang t = true → inside t) →
      (s.dev.settled k = true →
        (∃ u c, exec (.bbinit d a i) s = .next u ∧ u.dev.waves = (passedAt s k c).dev.waves ∧
          (memOk s → ∀ t, t < 8 → inGang k.gang t = true → alone t →
            (u.dev.readLoc k.core .scratch (at_ t) 16).1 = barBytes ((k.strand t).rd d).toNat 0 k.wave.lts)) ∧
        (∃ u c, exec (.bbexp d a i) s = .next u ∧ u.dev.waves = (passedAt s k c).dev.waves ∧
          (memOk s → ∀ t, t < 8 → inGang k.gang t = true → alone t →
            (u.dev.readLoc k.core .scratch (at_ t) 16).1 = barBytes (field (old t).1 0 4 + ((k.strand t).rd d).toNat)
              (field (old t).1 4 4) (max (field (old t).1 8 8) k.wave.lts)))) ∧
      ((∀ t, t < 8 → inGang k.gang t = true → balanced t) →
        exec (.bbwait a i) s = .next (passedAt s k (maxOf (k.strands.map fun t => field (old t).1 8 8)))) ∧
      ((∃ t, t < 8 ∧ inGang k.gang t = true ∧ ¬ balanced t) →
        exec (.bbwait a i) s = .next (gangStep s k fun t x => waits s.dev.clock (.byteBar (at_ t)) x)))) ∧
  (∀ (s : State) (k : Issue) (b : BitVec 4), s.dev.issuer? = some k →
    (k.gang ≠ k.wave.liveMask → exec (.bbwaitNum b) s = .next (after s fun x => x.trap k cGang) ∧
      ∀ d, exec (.bbexpNum d b) s = .next (after s fun x => x.trap k cGang)) ∧
    (k.gang = k.wave.liveMask →
      ((∃ a ∈ k.wave.arrivals, a.bar = b.toNat ∧ a.released = none) → ∀ d,
        exec (.bbexpNum d b) s = .next (after s fun x => x.trap k cBarrier)) ∧
      ((∀ a ∈ k.wave.arrivals, a.bar = b.toNat → a.released ≠ none) → s.dev.settled k = true → ∀ d : SReg,
        ∃ t w, exec (.bbexpNum d b) s = .next t ∧ t.dev.wave? k.wave.id = some w ∧
          (∃ a ∈ w.arrivals, a.bar = b.toNat ∧ a.gen = k.block.barGen b.toNat ∧ a.clock = k.wave.lts) ∧
          w.strands = k.wave.strands.mapIdx fun u x => if inGang k.gang u then
            passed 4 { x with s := if d = 0 then x.s else x.s.set d.toNat (BitVec.ofNat 64 (k.block.barGen b.toNat)) } else x) ∧
      ((∀ a ∈ k.wave.arrivals, a.bar ≠ b.toNat) → s.dev.settled k = true →
        ∃ t w, exec (.bbwaitNum b) s = .next t ∧ t.dev.wave? k.wave.id = some w ∧
          ((w.strands = k.wave.strands.mapIdx fun u x => if inGang k.gang u then passed 4 x else x) ∨
           ((∃ a ∈ w.arrivals, a.bar = b.toNat ∧ a.released = none) ∧
            w.strands = k.wave.strands.mapIdx fun u x => if inGang k.gang u then waits s.dev.clock (.numBar b.toNat) x else x))) ∧
      (∀ a r, k.wave.arrivals.find? (·.bar == b.toNat) = some a → a.released = some r → s.dev.settled k = true →
        exec (.bbwaitNum b) s = .next (waveStep s k fun w => { w with
          lts := max w.lts r
          arrivals := w.arrivals.filter (·.bar != b.toNat)
          strands := w.strands.mapIdx fun t x => if inGang k.gang t then passed 4 x else x })) ∧
      (∀ a, k.wave.arrivals.find? (·.bar == b.toNat) = some a → a.released = none → s.dev.settled k = true →
        exec (.bbwaitNum b) s = .next (stays s k (.numBar b.toNat))))))
/-! ## Scalar memory and trigger counters (04) -/

namespace Sys2Proof.Claims

/-- The byte addresses that a scalar access touches, strand by strand, when each lies in this package's global memory. -/
def ScalarPlaces (s : State) (k : Issue) (a : SReg) (i : BitVec 12) (n : Nat) (need : Need) (host : Bool) (pa : Nat → Nat) :
    Prop :=
  ∀ t, inGang k.gang t = true →
    s.dev.checkGlobal k.core k.ctx ((k.strand t).rd a + i.signExtend 64).toNat n need host = .ok (.glob (pa t))

/-- The first failing strand of a scalar access decides the cause and the address. -/
def ScalarFails (s : State) (k : Issue) (a : SReg) (i : BitVec 12) (n : Nat) (need : Need) (host : Bool) (t e : Nat) : Prop :=
  t < 8 ∧ inGang k.gang t = true ∧
    s.dev.checkGlobal k.core k.ctx ((k.strand t).rd a + i.signExtend 64).toNat n need host = .error e ∧
    ∀ u, u < t → inGang k.gang u = true →
      ∃ l, s.dev.checkGlobal k.core k.ctx ((k.strand u).rd a + i.signExtend 64).toNat n need host = .ok l

/-- The `n`-byte load `i` completes as R127 says, where every strand's address passes its checks, the times of the wave's
earlier operations stand, every stored check holds, and the core's L1 holds nothing: each strand's `sD` is the zero-extended
value at its address, memory is as before. -/
def ScalarLoads (n : Nat) (i : SReg → SReg → BitVec 12 → Instr) : Prop :=
  ∀ (s : State) (k : Issue) (d a : SReg) (imm : BitVec 12) (pa : Nat → Nat), s.dev.issuer? = some k →
    ScalarPlaces s k a imm n needR true pa → s.dev.settled k = true → (∀ l ∈ s.dev.l1, l.core ≠ k.core) →
    (∀ t, inGang k.gang t = true → (s.dev.readGlob k.ctx.n (pa t) n).2 = true) →
    ∃ t c, exec (i d a imm) s = .next t ∧ t.dev.mem = s.dev.mem ∧ t.dev.sectors = s.dev.sectors ∧
      t.dev.locmem = s.dev.locmem ∧ t.mgmt = s.mgmt ∧
      t.dev.waves = (waveStep s k fun w => { w with
        lts := max w.lts c
        strands := w.strands.mapIdx fun u x => if inGang k.gang u then passed 4 { x with
          s := if d = 0 then x.s
            else x.s.set d.toNat (BitVec.ofNat 64 (leNat (s.dev.readGlob k.ctx.n (pa u) n).1)) } else x }).dev.waves

/-- The `n`-byte store `i` completes as R127 says, under the same conditions: the low `n` bytes of `sD` stand at the address of each
strand that no higher strand of the gang stores over, every byte outside the strands' addresses reads as before, and no register
but the PC changes. -/
def ScalarStores (n : Nat) (i : SReg → SReg → BitVec 12 → Instr) : Prop :=
  ∀ (s : State) (k : Issue) (d a : SReg) (imm : BitVec 12) (pa : Nat → Nat), s.dev.issuer? = some k →
    ScalarPlaces s k a imm n needW true pa → s.dev.settled k = true → memOk s →
    (∀ t, inGang k.gang t = true → ∀ i ∈ sectorsOf (pa t) n, s.dev.sector? i ≠ none ∧ s.dev.sectorOk k.ctx.n i = true) →
    let stored (t b : Nat) : Prop := inGang k.gang t = true ∧ pa t ≤ b ∧ b < pa t + n
    ∃ u c, exec (i d a imm) s = .next u ∧
      (∀ b, (∀ t, ¬ stored t b) → u.dev.byteAt k.ctx.n b = s.dev.byteAt k.ctx.n b) ∧
      (∀ t b, stored t b → (∀ v, t < v → ¬ stored v b) →
        u.dev.byteAt k.ctx.n b = ((leBytes n ((k.strand t).rd d).toNat)[b - pa t]?).getD 0) ∧
      u.dev.locmem = s.dev.locmem ∧ u.mgmt = s.mgmt ∧
      (∃ w, u.dev.wave? k.wave.id = some w ∧ w.lts = max k.wave.lts c ∧ w.v = k.wave.v ∧ w.m = k.wave.m ∧
        w.strands.map (·.s) = k.wave.strands.map (·.s))

end Sys2Proof.Claims

/-- R127: the scalar loads complete, zero-extending, in every state that meets the rule's conditions. R127: the scalar stores complete, and change the stored bytes only. R127, R176: where a strand's address fails a check, no strand's access is performed: the state is that of the exception,
with the cause and address of the lowest failing strand. -/
def Obligations.ScalarMemory : Prop :=
  ((ScalarLoads 1 .sld8 ∧ ScalarLoads 2 .sld16 ∧ ScalarLoads 4 .sld32 ∧ ScalarLoads 8 .sld64) ∧
  (ScalarStores 1 .sst8 ∧ ScalarStores 2 .sst16 ∧ ScalarStores 4 .sst32 ∧ ScalarStores 8 .sst64)) ∧
  (∀ (s : State) (k : Issue) (d a : SReg) (i : BitVec 12) (t e : Nat), s.dev.issuer? = some k →
    ∀ p : (SReg → SReg → BitVec 12 → Instr) × Nat × Need,
      p ∈ [(.sld8, 1, needR), (.sld16, 2, needR), (.sld32, 4, needR), (.sld64, 8, needR),
           (.sst8, 1, needW), (.sst16, 2, needW), (.sst32, 4, needW), (.sst64, 8, needW)] →
      ScalarFails s k a i p.2.1 p.2.2 true t e →
      ∃ m : LaneMask, exec (p.1 d a i) s =
        .next (after s fun x => (x.lookedAll k.core k.ctx (k.strands.map fun u => ((k.strand u).rd a + i.signExtend 64).toNat)).trapMem
          k e ((k.strand t).rd a + i.signExtend 64) m))

/-! ## Lane arithmetic (05, 06) -/

namespace Sys2Proof.Claims

/-- The lane registers of an instruction lie in the wave's window (R14). -/
def InWindow (k : Issue) (regs : List Nat) : Prop := ∀ r ∈ regs, r < k.wave.v.length

/-- An instruction that names a lane register beyond the window raises REGRANGE, and writes nothing (R14). -/
def Beyond (s : State) (k : Issue) (i : Instr) (regs : List Nat) : Prop :=
  ¬ InWindow k regs → exec i s = .next (after s fun x => x.trap k cRegrange)

/-- A lane instruction with one lane result completes as R146 says, in every state with a selected gang whose window holds
its registers: `vD` takes `f` in the active lanes. Nothing else changes but the PCs (and the name of the next free value,
where R25 has left a source open). With a register beyond the window it raises REGRANGE. -/
def LaneResult (s : State) (k : Issue) (i : Instr) (len : Nat) (regs : List Nat) (g : Guard) (d : VReg) (f : Nat → Lane) : Prop :=
  Beyond s k i regs ∧ (InWindow k regs → exec i s = .next (laneStep s k len regs fun w => { w with v := putLanes (k.active g) d.toNat [f] w.v }))

/-- The same for a 64-bit result in a pair. -/
def PairResult (s : State) (k : Issue) (i : Instr) (regs : List Nat) (g : Guard) (d : VReg) (f : Nat → Word) : Prop :=
  Beyond s k i regs ∧ (InWindow k regs → exec i s = .next (laneStep s k 6 regs fun w => { w with
    v := putLanes (k.active g) d.toNat
      [fun l => BitVec.ofNat 32 (f l).toNat, fun l => BitVec.ofNat 32 ((f l).toNat / 2 ^ 32)] w.v }))

/-- The same for a mask result (R149): bit l of `mD` for each active lane l. -/
def LaneMaskResult (s : State) (k : Issue) (i : Instr) (len : Nat) (regs : List Nat) (g : Guard) (d : MReg) (f : Nat → Bool) : Prop :=
  Beyond s k i regs ∧ (InWindow k regs → ∃ x : Wave → LaneMask,
    (∀ w l, l < 32 → (x w).getLsbD l = if (k.active g).getLsbD l then f l else (w.mask d).getLsbD l) ∧
    exec i s = .next (laneStep s k len regs fun w => { w with m := w.m.set d.toNat (x w) }))

/-- `vD_l := f(a_l, b_l)`. -/
def Lane2 (i : Guard → VReg → VReg → VReg → Instr) (f : Lane → Lane → Lane) : Prop :=
  ∀ (s : State) (k : Issue) (g : Guard) (d a b : VReg), s.dev.issuer? = some k →
    LaneResult s k (i g d a b) 6 [d.toNat, a.toNat, b.toNat] g d fun l => f (s.dev.source k a.toNat l) (s.dev.source k b.toNat l)

/-- `vD_l := f(a_l)`. -/
def Lane1 (i : Guard → VReg → VReg → Instr) (f : Lane → Lane) : Prop :=
  ∀ (s : State) (k : Issue) (g : Guard) (d a : VReg), s.dev.issuer? = some k →
    LaneResult s k (i g d a) 6 [d.toNat, a.toNat] g d fun l => f (s.dev.source k a.toNat l)

/-- `vD_l := f(a_l, b_l, c_l)`. -/
def Lane3 (i : Guard → VReg → VReg → VReg → VReg → Instr) (f : Lane → Lane → Lane → Lane) : Prop :=
  ∀ (s : State) (k : Issue) (g : Guard) (d a b c : VReg), s.dev.issuer? = some k →
    LaneResult s k (i g d a b c) 6 [d.toNat, a.toNat, b.toNat, c.toNat] g d fun l =>
      f (s.dev.source k a.toNat l) (s.dev.source k b.toNat l) (s.dev.source k c.toNat l)

/-- `vD_l := f(a_l, imm)`. -/
def LaneImm (i : Guard → VReg → VReg → BitVec 32 → Instr) (f : Lane → Lane → Lane) : Prop :=
  ∀ (s : State) (k : Issue) (g : Guard) (d a : VReg) (c : BitVec 32), s.dev.issuer? = some k →
    LaneResult s k (i g d a c) 8 [d.toNat, a.toNat] g d fun l => f (s.dev.source k a.toNat l) c

/-- The relations of the integer compares (R153). -/
def Relation (cc : ICmp) (a b : Lane) : Bool :=
  match cc with
  | .eq => a == b
  | .ne => a != b
  | .ltI => decide (a.toInt < b.toInt)
  | .ltN => decide (a.toNat < b.toNat)
  | .leI => decide (a.toInt ≤ b.toInt)
  | .leN => decide (a.toNat ≤ b.toNat)
  | .gtI => decide (a.toInt > b.toInt)
  | .gtN => decide (a.toNat > b.toNat)
  | .geI => decide (a.toInt ≥ b.toInt)
  | .geN => decide (a.toNat ≥ b.toNat)

/-- Two lanes of a pair as one 64-bit value (R6). -/
def pairAt (s : State) (k : Issue) (a : VReg) (l : Nat) : Word := s.dev.source k (a.toNat + 1) l ++ s.dev.source k a.toNat l

end Sys2Proof.Claims

/-- R146, R147, R10, R25: which lanes are active, what a lane source reads, and where `putLanes` writes. A source without an
outstanding writer that has been performed in that lane reads the register; with one it reads the old or the new value. R14: an instruction that names a lane register outside the wave's window raises REGRANGE and writes nothing. Stated here for
one instruction of each shape; the statements of the lane instructions' results say so of each of them. -/
def Obligations.LaneSources : Prop :=
  ((∀ (k : Issue) (g : Guard) (l : Nat), l < 32 → (k.active g).getLsbD l = activeLane k g l) ∧
  (∀ (s : State) (k : Issue) (v l : Nat), v < 256 →
    (s.dev.newLane k.wave.id v l = none → s.dev.source k v l = k.wave.lane (BitVec.ofNat 8 v) l) ∧
    (∀ x, s.dev.newLane k.wave.id v l = some x →
      s.dev.source k v l = x ∨ s.dev.source k v l = k.wave.lane (BitVec.ofNat 8 v) l)) ∧
  (∀ (act : LaneMask) (d : Nat) (f : Nat → Lane) (v : List LaneVec) (r l : Nat) (x : LaneVec) (old : Lane),
    v[r]? = some x → x[l]? = some old →
    ((putLanes act d [f] v)[r]?).bind (·[l]?) = some (if r = d ∧ act.getLsbD l = true then f l else old))) ∧
  (∀ (s : State) (k : Issue) (g : Guard) (d a b c : VReg), s.dev.issuer? = some k →
    let traps (i : Instr) : Prop := exec i s = .next (after s fun x => x.trap k cRegrange)
    let bad (regs : List Nat) : Prop := ∃ r ∈ regs, k.wave.v.length ≤ r
    (bad [d.toNat, a.toNat] → traps (.iabs g d a) ∧ traps (.fneg g d a) ∧ traps (.redAddI g d a) ∧ ∀ i, traps (.iaddi g d a i)) ∧
    (bad [d.toNat, a.toNat, b.toNat] → traps (.iadd g d a b) ∧ (∀ r, traps (.fadd r g d a b)) ∧ ∀ h, traps (.hadd2 h g d a b)) ∧
    (bad [d.toNat, a.toNat, b.toNat, c.toNat] → traps (.imad g d a b c) ∧ ∀ r, traps (.fma r g d a b c)) ∧
    (bad [d.toNat, d.toNat + 1, a.toNat, a.toNat + 1, b.toNat, b.toNat + 1] → traps (.add64 g d a b)) ∧
    (bad [d.toNat, d.toNat + 1] → ∀ m : Addr, m.ksc = 7 → traps (.ld .w64 g d m) ∧ traps (.st .b64 g d m)) ∧
    (bad [d.toNat] → ∀ n, traps (.spill d n) ∧ traps (.fill d n)))

/-- R146, R150, Table 5-2: the integer lane operations complete with the table's results. R151: the shifts take b[4:0]; `bfe` and `bfi` complete for every pos and len that the encoding admits (0 to 31, 1 to 32),
with the rule's results. -/
def Obligations.LaneIntegers : Prop :=
  (Lane2 .iadd (fun a b => BitVec.ofNat 32 (a.toNat + b.toNat)) ∧ Lane2 .isub (fun a b => BitVec.ofInt 32 (a.toInt - b.toInt)) ∧
  Lane2 .imul (fun a b => BitVec.ofNat 32 (a.toNat * b.toNat)) ∧
  Lane2 .imulhI (fun a b => BitVec.ofInt 32 (a.toInt * b.toInt / 2 ^ 32)) ∧
  Lane2 .imulhN (fun a b => BitVec.ofNat 32 (a.toNat * b.toNat / 2 ^ 32)) ∧
  Lane3 .imad (fun a b c => BitVec.ofNat 32 (a.toNat * b.toNat + c.toNat)) ∧
  Lane1 .iabs (fun a => BitVec.ofInt 32 |a.toInt|) ∧ Lane1 .ineg (fun a => BitVec.ofInt 32 (-a.toInt)) ∧
  Lane2 .iminI (fun a b => BitVec.ofInt 32 (min a.toInt b.toInt)) ∧ Lane2 .iminN (fun a b => BitVec.ofNat 32 (min a.toNat b.toNat)) ∧
  Lane2 .imaxI (fun a b => BitVec.ofInt 32 (max a.toInt b.toInt)) ∧ Lane2 .imaxN (fun a b => BitVec.ofNat 32 (max a.toNat b.toNat)) ∧
  Lane2 .laneAnd (fun a b => a &&& b) ∧ Lane2 .laneOr (fun a b => a ||| b) ∧ Lane2 .laneXor (fun a b => a ^^^ b) ∧
  Lane2 .laneAndn (fun a b => a &&& ~~~b) ∧ Lane1 .not (fun a => ~~~a) ∧
  (∃ popc clz brev : Lane → Lane, Lane1 .lanePopc popc ∧ Lane1 .laneClz clz ∧ Lane1 .brev brev ∧
    (∀ a, popc a = BitVec.ofNat 32 ((List.range 32).map fun i => (a.getLsbD i).toNat).sum) ∧
    clz 0 = 32 ∧
    (∀ a i, i < 32 → a.getLsbD i = true → (∀ j, i < j → a.getLsbD j = false) → clz a = BitVec.ofNat 32 (31 - i)) ∧
    (∀ a i, i < 32 → (brev a).getLsbD i = a.getLsbD (31 - i)))) ∧
  (Lane2 .laneShl (fun a b => BitVec.ofNat 32 (a.toNat * 2 ^ (b.toNat % 32))) ∧
  Lane2 .laneShrN (fun a b => BitVec.ofNat 32 (a.toNat / 2 ^ (b.toNat % 32))) ∧
  Lane2 .laneShrI (fun a b => BitVec.ofInt 32 (a.toInt / 2 ^ (b.toNat % 32))) ∧
  Lane2 .laneRot (fun a b => a <<< (b.toNat % 32) ||| a >>> (32 - b.toNat % 32)) ∧
  (∀ (s : State) (k : Issue) (g : Guard) (d a : VReg) (pos len : BitVec 8), s.dev.issuer? = some k →
    pos.toNat < 32 → 1 ≤ len.toNat → len.toNat ≤ 32 →
    let p := pos.toNat
    let n := len.toNat
    (∃ f h : Lane → Lane, LaneResult s k (.bfeN g d a pos len) 6 [d.toNat, a.toNat] g d (fun l => f (s.dev.source k a.toNat l)) ∧
      LaneResult s k (.bfeI g d a pos len) 6 [d.toNat, a.toNat] g d (fun l => h (s.dev.source k a.toNat l)) ∧
      ∀ x i, i < 32 → (f x).getLsbD i = (decide (i < n ∧ p + i < 32) && x.getLsbD (p + i)) ∧
        (h x).getLsbD i = (decide (p + min i (n - 1) < 32) && x.getLsbD (p + min i (n - 1)))) ∧
    (∃ f : Lane → Lane → Lane, LaneResult s k (.bfi g d a pos len) 6 [d.toNat, d.toNat, a.toNat] g d
        (fun l => f (s.dev.source k d.toNat l) (s.dev.source k a.toNat l)) ∧
      ∀ x y i, i < 32 → (f x y).getLsbD i = if p ≤ i ∧ i < p + n then y.getLsbD (i - p) else x.getLsbD i))) ∧
  (∀ (g : Guard) (d a b c : VReg), OpsB [(.iadd g d a b, 0x01), (.isub g d a b, 0x02), (.imul g d a b, 0x03),
    (.imulhI g d a b, 0x04), (.imulhN g d a b, 0x05), (.imad g d a b c, 0x06), (.iabs g d a, 0x07), (.ineg g d a, 0x08),
    (.iminI g d a b, 0x09), (.iminN g d a b, 0x0A), (.imaxI g d a b, 0x0B), (.imaxN g d a b, 0x0C), (.laneAnd g d a b, 0x0D),
    (.laneOr g d a b, 0x0E), (.laneXor g d a b, 0x0F), (.laneAndn g d a b, 0x10), (.not g d a, 0x11), (.laneShl g d a b, 0x12),
    (.laneShrI g d a b, 0x13), (.laneShrN g d a b, 0x14), (.laneRot g d a b, 0x15), (.bfeI g d a b c, 0x16),
    (.bfeN g d a b c, 0x17), (.bfi g d a b c, 0x18), (.lanePopc g d a, 0x19), (.laneClz g d a, 0x1A), (.brev g d a, 0x1B)]) ∧
  ReservedB [0x01, 0x02, 0x03, 0x04, 0x05, 0x09, 0x0A, 0x0B, 0x0C, 0x0D, 0x0E, 0x0F, 0x10] (fun f => f.vc ≠ 0) ∧
  ReservedB [0x07, 0x08, 0x11, 0x19, 0x1A, 0x1B] (fun f => f.vb ≠ 0 ∨ f.vc ≠ 0) ∧
  (∀ (g : Guard) (d a : VReg) (pos len : BitVec 8), 31 < pos.toNat ∨ len = 0 ∨ 32 < len.toNat →
    (Instr.bfeI g d a pos len).wf = false ∧ (Instr.bfeN g d a pos len).wf = false ∧ (Instr.bfi g d a pos len).wf = false)

/-- R152, R153, R154: select, integer compares into a mask, dot products, and the 64-bit forms. R190: the immediate lane forms. -/
def Obligations.LaneSelectsWideAndImmediates : Prop :=
  ((∀ (s : State) (k : Issue) (g : Guard) (d a b : VReg) (c : MReg), s.dev.issuer? = some k →
    LaneResult s k (.laneSel g d a b c) 6 [d.toNat, a.toNat, b.toNat] g d fun l =>
      if (k.wave.mask c).getLsbD l then s.dev.source k a.toNat l else s.dev.source k b.toNat l) ∧
  (∀ (s : State) (k : Issue) (cc : ICmp) (g : Guard) (d : MReg) (a b : VReg), s.dev.issuer? = some k →
    LaneMaskResult s k (.icmp cc g d a b) 6 [a.toNat, b.toNat] g d fun l =>
      Relation cc (s.dev.source k a.toNat l) (s.dev.source k b.toNat l)) ∧
  Lane3 .dp4I (fun a b c => BitVec.ofInt 32 (c.toInt +
    ((List.range 4).map fun i => (a.extractLsb' (8 * i) 8).toInt * (b.extractLsb' (8 * i) 8).toInt).sum)) ∧
  Lane3 .dp4N (fun a b c => BitVec.ofNat 32 (c.toNat +
    ((List.range 4).map fun i => (a.extractLsb' (8 * i) 8).toNat * (b.extractLsb' (8 * i) 8).toNat).sum)) ∧
  (∀ (s : State) (k : Issue) (g : Guard) (d a b c : VReg), s.dev.issuer? = some k →
    PairResult s k (.add64 g d a b) [d.toNat, d.toNat + 1, a.toNat, a.toNat + 1, b.toNat, b.toNat + 1] g d
      (fun l => pairAt s k a l + pairAt s k b l) ∧
    PairResult s k (.mad64N g d a b c) [d.toNat, d.toNat + 1, a.toNat, b.toNat, c.toNat, c.toNat + 1] g d
      (fun l => BitVec.ofNat 64 ((s.dev.source k a.toNat l).toNat * (s.dev.source k b.toNat l).toNat + (pairAt s k c l).toNat)) ∧
    ∀ n : BitVec 8, n.toNat < 64 →
      PairResult s k (.lea64 g d a b n) [d.toNat, d.toNat + 1, a.toNat, a.toNat + 1, b.toNat] g d
        (fun l => BitVec.ofNat 64 ((pairAt s k a l).toNat + (s.dev.source k b.toNat l).toNat * 2 ^ n.toNat)))) ∧
  (LaneImm .iaddi (fun a i => BitVec.ofNat 32 (a.toNat + i.toNat)) ∧ LaneImm .imuli (fun a i => BitVec.ofNat 32 (a.toNat * i.toNat)) ∧
  LaneImm .laneAndi (fun a i => a &&& i) ∧ LaneImm .laneOri (fun a i => a ||| i) ∧ LaneImm .laneXori (fun a i => a ^^^ i) ∧
  (∀ (s : State) (k : Issue) (g : Guard) (d : VReg) (i : BitVec 32), s.dev.issuer? = some k →
    LaneResult s k (.movi g d i) 8 [d.toNat] g d fun _ => i) ∧
  (∀ (s : State) (k : Issue) (cc : ICmp) (g : Guard) (d : MReg) (a : VReg) (i : BitVec 32), s.dev.issuer? = some k →
    LaneMaskResult s k (.icmpi cc g d a i) 8 [a.toNat] g d fun l => Relation cc (s.dev.source k a.toNat l) i)) ∧
  (∀ (g : Guard) (m : MReg) (d a b c : VReg) (i : BitVec 32), OpsB ([(.laneSel g d a b m, 0x1C), (.dp4I g d a b c, 0x30),
      (.dp4N g d a b c, 0x31), (.add64 g d a b, 0x32), (.mad64N g d a b c, 0x33), (.lea64 g d a b c, 0x34)] ++
      [ICmp.eq, .ne, .ltI, .ltN, .leI, .leN, .gtI, .gtN, .geI, .geN].zipIdx.map fun x => (.icmp x.1 g m a b, 0x20 + x.2)) ∧
    OpsC ([(.iaddi g d a i, 0xA0), (.imuli g d a i, 0xA1), (.laneAndi g d a i, 0xA2), (.laneOri g d a i, 0xA3),
      (.laneXori g d a i, 0xA4), (.movi g d i, 0xA5)] ++
      [ICmp.eq, .ne, .ltI, .ltN, .leI, .leN, .gtI, .gtN, .geI, .geN].zipIdx.map fun x => (.icmpi x.1 g m a i, 0xB0 + x.2)) ∧
    ((Instr.add64 g d a b).wf = true ↔ d.toNat % 2 = 0 ∧ a.toNat % 2 = 0 ∧ b.toNat % 2 = 0) ∧
    ((Instr.mad64N g d a b c).wf = true ↔ d.toNat % 2 = 0 ∧ c.toNat % 2 = 0) ∧
    ((Instr.lea64 g d a b c).wf = true ↔ d.toNat % 2 = 0 ∧ a.toNat % 2 = 0 ∧ c.toNat < 64)) ∧
  ReservedB [0x1C] (fun f => 16 ≤ f.vc.toNat) ∧
  ReservedB ((List.range 10).map (· + 0x20)) (fun f => 16 ≤ f.vd.toNat ∨ f.vc ≠ 0) ∧ ReservedC [0xA5] (fun f => f.va ≠ 0) ∧
  ReservedC ((List.range 10).map (· + 0xB0)) (fun f => 16 ≤ f.vd.toNat)

/-! ## FP32, packed and narrow formats (02, 05) -/

namespace Sys2Proof.Claims

/-- The exact value of a finite number. -/
def ratOf (x : Dy) : ℚ := (if x.neg then -1 else 1) * (x.m : ℚ) * (2 : ℚ) ^ x.e

/-- The code `c` of format `f` is a finite value, `v`. -/
def Holds (f : Fmt) (c : Nat) (v : ℚ) : Prop := ∃ x, f.decode c = .fin x ∧ ratOf x = v

/-- Some finite code of the format holds `v`. -/
def Held (f : Fmt) (v : ℚ) : Prop := ∃ c < 2 ^ (f.sign + 1), Holds f c v

/-- `c` is what a nonzero exact result `v` rounds to in mode `r` (R155, Table 0-5): the nearest, next lower, next higher, or
next value toward zero that the format holds; beyond the format's range, infinity or the largest finite value. A result that
rounds to zero keeps its sign. -/
def Rounds (f : Fmt) (r : Rnd) (v : ℚ) (c : Nat) : Prop :=
  c / 2 ^ f.sign = (if v < 0 then 1 else 0) ∧
  let top : ℚ := (2 ^ (f.mb + 1) - 1 : ℚ) * (2 : ℚ) ^ (2 ^ f.eb - 2 - f.bias - f.mb : Int)
  let half : ℚ := (2 : ℚ) ^ (2 ^ f.eb - 2 - f.bias - f.mb - 1 : Int)
  match r with
  | .rne =>
    if top + half ≤ |v| then c = f.withSign (decide (v < 0)) f.infCode
    else ∃ y, Holds f c y ∧ ∀ z, Held f z → z ≠ y → |v - y| < |v - z| ∨ (|v - y| = |v - z| ∧ c % 2 = 0)
  | .rtz => ∃ y, Holds f c y ∧ |y| ≤ |v| ∧ 0 ≤ y * v ∧ ∀ z, Held f z → 0 ≤ z * v → |z| ≤ |v| → |z| ≤ |y|
  | .rdn => if v < -top then c = f.withSign true f.infCode else ∃ y, Holds f c y ∧ y ≤ v ∧ ∀ z, Held f z → z ≤ v → z ≤ y
  | .rup => if top < v then c = f.withSign false f.infCode else ∃ y, Holds f c y ∧ v ≤ y ∧ ∀ z, Held f z → v ≤ z → y ≤ z

/-- The integer that `v` rounds to in mode `r` (R159, R163). -/
def IntRound (r : Rnd) (v : ℚ) (i : Int) : Prop :=
  match r with
  | .rne => |v - i| < 1 / 2 ∨ (|v - i| = 1 / 2 ∧ i % 2 = 0)
  | .rtz => i = if 0 ≤ v then ⌊v⌋ else ⌈v⌉
  | .rdn => i = ⌊v⌋
  | .rup => i = ⌈v⌉

/-- A code that is a NaN of binary32. -/
def IsNaN (a : Lane) : Prop := dec32 a = .nan

/-- Binary32 infinities. -/
def infLane (neg : Bool) : Lane := if neg then 0xFF800000 else 0x7F800000

/-- The special results of a sum in format `f` (R155): NaN, infinities, and the sign of an exact zero. -/
def SumSpecial (f : Fmt) (r : Rnd) (x y : Fp) (c : Nat) : Prop :=
  (x = .nan ∨ y = .nan → c = f.nan) ∧
  (∀ s t, x = .inf s → y = .inf t → c = if s = t then f.withSign s f.infCode else f.nan) ∧
  (∀ s w, x = .inf s ∧ y = .fin w ∨ x = .fin w ∧ y = .inf s → c = f.withSign s f.infCode) ∧
  (∀ u v, x = .fin u → y = .fin v → ratOf u + ratOf v = 0 → c = f.withSign (if u.neg = v.neg then u.neg else r = .rdn) 0)

/-- A product of two operands is an infinity of sign `s` (R155). -/
def InfProduct (x y : Fp) (s : Bool) : Prop :=
  (∃ a b, x = .inf a ∧ y = .inf b ∧ s = (a != b)) ∨
  ∃ a v, (x = .inf a ∧ y = .fin v ∨ x = .fin v ∧ y = .inf a) ∧ v.m ≠ 0 ∧ s = (a != v.neg)

/-- A product of two operands is NaN: a NaN, or zero times infinity (R155). -/
def NaNProduct (x y : Fp) : Prop :=
  x = .nan ∨ y = .nan ∨ ∃ a v, (x = .inf a ∧ y = .fin v ∨ x = .fin v ∧ y = .inf a) ∧ v.m = 0

/-- The special results of a product in format `f` (R155). -/
def ProductSpecial (f : Fmt) (x y : Fp) (c : Nat) : Prop :=
  (NaNProduct x y → c = f.nan) ∧ (∀ s, InfProduct x y s → c = f.withSign s f.infCode) ∧
  (∀ u v, x = .fin u → y = .fin v → ratOf u * ratOf v = 0 → c = f.withSign (u.neg != v.neg) 0)

/-- The special results of x × y + z in format `f` (R155): NaN, zero times infinity whatever z is, infinities that cancel or
reinforce, and the sign of an exact zero. -/
def FusedSpecial (f : Fmt) (r : Rnd) (x y z : Fp) (c : Nat) : Prop :=
  (NaNProduct x y ∨ z = .nan → c = f.nan) ∧
  (∀ s, InfProduct x y s → (∀ t, z = .inf t → c = if s = t then f.withSign s f.infCode else f.nan) ∧
    (∀ w, z = .fin w → c = f.withSign s f.infCode)) ∧
  (∀ u v t, x = .fin u → y = .fin v → z = .inf t → c = f.withSign t f.infCode) ∧
  (∀ u v w, x = .fin u → y = .fin v → z = .fin w → ratOf u * ratOf v + ratOf w = 0 →
    c = f.withSign (if (u.neg != v.neg) = w.neg then w.neg else r = .rdn) 0)

/-- One half of a lane: the upper or the lower 16 bits. -/
def halfOf (upper : Bool) (a : Lane) : Nat := if upper then a.toNat / 65536 else a.toNat % 65536

/-- `w` is `y` where binary32 holds `y`, else one of the two binary32 values that enclose it (R160, a bound of 1 ulp). -/
def Encloses (y w : ℚ) : Prop := (Held fp32 y → w = y) ∧ ∀ z, Held fp32 z → ¬ (w < z ∧ z < y) ∧ ¬ (y < z ∧ z < w)

/-- The magnitude of code `n` on a narrow format's grid, which goes on above the largest finite value (R55). -/
def gridAt (mb : Nat) (emin : Int) (n : Nat) : ℚ :=
  if n < 2 ^ mb then n * (2 : ℚ) ^ emin else ((2 ^ mb + n % 2 ^ mb : Nat) : ℚ) * (2 : ℚ) ^ (emin + (n / 2 ^ mb - 1 : Nat))

/-- `c` is the narrow code of a finite value (R55, Table 2-3): the nearest code of the grid, a tie to the even one, with the
value's sign; `above` above the code `top`. -/
def NarrowRounds (mb top sign : Nat) (emin : Int) (above : Nat) (x : Dy) (c : Nat) : Prop :=
  ∃ n, (∀ m, m ≠ n → |(|ratOf x| - gridAt mb emin n)| < |(|ratOf x| - gridAt mb emin m)| ∨
      (|(|ratOf x| - gridAt mb emin n)| = |(|ratOf x| - gridAt mb emin m)| ∧ n % 2 = 0)) ∧
    c = if top < n then above else (if x.neg then 2 ^ sign else 0) + n

end Sys2Proof.Claims

/-- R155, R160: the FP32 arithmetic instructions complete, and their special cases are the table's: NaN operands, infinities
(also those of a fused sum), and exact zeros with their signs. (What a nonzero finite result is, FloatRounding says.) -/
def Obligations.FloatArithmetic : Prop :=
  (∀ r, Lane2 (.fadd r) (fadd r) ∧ Lane2 (.fsub r) (fsub r) ∧ Lane2 (.fmul r) (fmul r) ∧ Lane3 (.fma r) (fma r)) ∧
  Lane2 .fdivRne fdivLane ∧
  (∀ r a b, IsNaN a ∨ IsNaN b → fadd r a b = 0x7FC00000 ∧ fsub r a b = 0x7FC00000 ∧ fmul r a b = 0x7FC00000 ∧
    fdivLane a b = 0x7FC00000 ∧ ∀ c, fma r a b c = 0x7FC00000 ∧ fma r a c b = 0x7FC00000) ∧
  (∀ r s t, fadd r (infLane s) (infLane t) = (if s = t then infLane s else 0x7FC00000) ∧
    fsub r (infLane s) (infLane t) = (if s = t then 0x7FC00000 else infLane s) ∧
    fmul r (infLane s) (infLane t) = infLane (s != t) ∧ fdivLane (infLane s) (infLane t) = 0x7FC00000) ∧
  (∀ r s a x, dec32 a = .fin x → fadd r (infLane s) a = infLane s ∧ fadd r a (infLane s) = infLane s ∧
    fsub r (infLane s) a = infLane s ∧ fsub r a (infLane s) = infLane (!s) ∧
    fmul r (infLane s) a = (if x.m = 0 then 0x7FC00000 else infLane (s != x.neg)) ∧
    fdivLane (infLane s) a = infLane (s != x.neg) ∧
    fdivLane a (infLane s) = (if s != x.neg then 0x80000000 else 0)) ∧
  (∀ r a b x y, dec32 a = .fin x → dec32 b = .fin y → ratOf x + ratOf y = 0 →
    fadd r a b = if x.neg = y.neg then (if x.neg then 0x80000000 else 0) else if r = .rdn then 0x80000000 else 0) ∧
  (∀ r a b x y, dec32 a = .fin x → dec32 b = .fin y → ratOf x = ratOf y →
    fsub r a b = if x.neg ≠ y.neg then (if x.neg then 0x80000000 else 0) else if r = .rdn then 0x80000000 else 0) ∧
  (∀ r a b x y, dec32 a = .fin x → dec32 b = .fin y → ratOf x * ratOf y = 0 →
    fmul r a b = if x.neg = y.neg then 0 else 0x80000000) ∧
  (∀ r a b c, FusedSpecial fp32 r (dec32 a) (dec32 b) (dec32 c) (fma r a b c).toNat) ∧
  (∀ a b x y, dec32 a = .fin x → dec32 b = .fin y →
    (y.m = 0 → fdivLane a b = if x.m = 0 then 0x7FC00000 else infLane (x.neg != y.neg)) ∧
    (x.m = 0 → y.m ≠ 0 → fdivLane a b = if x.neg = y.neg then 0 else 0x80000000))

/-- R155, R160, R161, R164, R165, R172: where the exact result of an operation is a nonzero number, the delivered value is that
number rounded once: the sum, difference, product, fused sum and quotient of binary32, both halves of the packed forms,
integers converted to binary32, binary32 converted to 16 bits, and the exact sum over lanes. The square root of a positive
number is the nearest binary32 value: it lies on the right side of every midpoint with another. -/
def Obligations.FloatRounding : Prop :=
  (∀ a b x y, dec32 a = .fin x → dec32 b = .fin y →
    (∀ r, ratOf x + ratOf y ≠ 0 → Rounds fp32 r (ratOf x + ratOf y) (fadd r a b).toNat) ∧
    (∀ r, ratOf x - ratOf y ≠ 0 → Rounds fp32 r (ratOf x - ratOf y) (fsub r a b).toNat) ∧
    (∀ r, ratOf x * ratOf y ≠ 0 → Rounds fp32 r (ratOf x * ratOf y) (fmul r a b).toNat) ∧
    (∀ r c z, dec32 c = .fin z → ratOf x * ratOf y + ratOf z ≠ 0 →
      Rounds fp32 r (ratOf x * ratOf y + ratOf z) (fma r a b c).toNat) ∧
    (x.m ≠ 0 → y.m ≠ 0 → Rounds fp32 .rne (ratOf x / ratOf y) (fdivLane a b).toNat)) ∧
  (∀ a x, dec32 a = .fin x → 0 < ratOf x → ∃ y, 0 < y ∧ Holds fp32 (fsqrtLane a).toNat y ∧ ∀ z, Held fp32 z → 0 ≤ z →
    (y < z → ratOf x < ((y + z) / 2) ^ 2) ∧ (z < y → ((y + z) / 2) ^ 2 < ratOf x)) ∧
  (∀ (h : Half) (upper : Bool) (a b : Lane) (x y : Dy), (halfFmt h).decode (halfOf upper a) = .fin x →
    (halfFmt h).decode (halfOf upper b) = .fin y →
    (ratOf x + ratOf y ≠ 0 → Rounds (halfFmt h) .rne (ratOf x + ratOf y) (halfOf upper (hadd2 h a b))) ∧
    (ratOf x * ratOf y ≠ 0 → Rounds (halfFmt h) .rne (ratOf x * ratOf y) (halfOf upper (hmul2 h a b))) ∧
    (∀ c z, (halfFmt h).decode (halfOf upper c) = .fin z → ratOf x * ratOf y + ratOf z ≠ 0 →
      Rounds (halfFmt h) .rne (ratOf x * ratOf y + ratOf z) (halfOf upper (hfma2 h a b c)))) ∧
  (∀ (r : Rnd) (i : Int), i ≠ 0 → i.natAbs < 2 ^ 32 → Rounds fp32 r i (cvtFromInt r i).toNat) ∧
  (∀ (a : Lane) (x : Dy) (f : Fmt) (tz : Bool), f = bf16 ∨ f = fp16 → dec32 a = .fin x → x.m ≠ 0 →
    Rounds f (if tz then .rtz else .rne) (ratOf x) (cvt16 f tz a).toNat) ∧
  (∀ l : List Dy, (l.map ratOf).sum ≠ 0 → Rounds fp32 .rne (l.map ratOf).sum (sumFp (l.map .fin)).toNat)

/-- R156 to R159: minimum, maximum, sign operations, compares, integral values and class complete, with the rules' results. R160, Table 5-5: the square root and the special functions complete on every operand, with the special results of the
table; the two functions with a bound of 1 ulp give the exact result where it is representable, else one of the two values
that enclose it. (What a finite square root is, FloatRounding says; which value within the bounds of 2 ulp the other functions
deliver is left open, and no clause speaks of it: log entry 9.) -/
def Obligations.FloatSelectsAndFunctions : Prop :=
  ((∃ mn mx mnn mxn : Lane → Lane → Lane, Lane2 .fmin mn ∧ Lane2 .fmax mx ∧ Lane2 .fminn mnn ∧ Lane2 .fmaxn mxn ∧
    (∀ a b, IsNaN a ∨ IsNaN b → mn a b = 0x7FC00000 ∧ mx a b = 0x7FC00000) ∧
    (∀ a b, IsNaN a → IsNaN b → mnn a b = 0x7FC00000 ∧ mxn a b = 0x7FC00000) ∧
    (∀ a b, IsNaN a → ¬ IsNaN b → mnn a b = b ∧ mxn a b = b ∧ mnn b a = b ∧ mxn b a = b) ∧
    (∀ a b x y, dec32 a = .fin x → dec32 b = .fin y → ratOf x < ratOf y ∨ (x.m = 0 ∧ y.m = 0 ∧ x.neg = true ∧ y.neg = false) →
      mn a b = a ∧ mn b a = a ∧ mx a b = b ∧ mx b a = b ∧ mnn a b = a ∧ mnn b a = a ∧ mxn a b = b ∧ mxn b a = b) ∧
    (∀ a, ¬ IsNaN a → ∀ f ∈ [mn, mnn], f (infLane true) a = infLane true ∧ f a (infLane true) = infLane true ∧
      f (infLane false) a = a ∧ f a (infLane false) = a) ∧
    (∀ a, ¬ IsNaN a → (∀ f ∈ [mx, mxn], f (infLane false) a = infLane false ∧ f a (infLane false) = infLane false ∧
      f (infLane true) a = a ∧ f a (infLane true) = a) ∧ ∀ f ∈ [mn, mx, mnn, mxn], f a a = a)) ∧
  (∃ ab ng : Lane → Lane, Lane1 .fabs ab ∧ Lane1 .fneg ng ∧
    ∀ a, (IsNaN a → ab a = 0x7FC00000 ∧ ng a = 0x7FC00000) ∧ (¬ IsNaN a → ab a = a &&& 0x7FFFFFFF ∧ ng a = a ^^^ 0x80000000)) ∧
  (∃ p : FCmp → Lane → Lane → Bool,
    (∀ (s : State) (k : Issue) (cc : FCmp) (g : Guard) (d : MReg) (a b : VReg), s.dev.issuer? = some k →
      LaneMaskResult s k (.fcmp cc g d a b) 6 [a.toNat, b.toNat] g d fun l =>
        p cc (s.dev.source k a.toNat l) (s.dev.source k b.toNat l)) ∧
    (∀ cc a b, IsNaN a ∨ IsNaN b → p cc a b = (cc == .ne || cc == .uno)) ∧
    (∀ a b x y, dec32 a = .fin x → dec32 b = .fin y →
      (p .eq a b = true ↔ ratOf x = ratOf y) ∧ (p .ne a b = true ↔ ratOf x ≠ ratOf y) ∧ (p .lt a b = true ↔ ratOf x < ratOf y) ∧
      (p .le a b = true ↔ ratOf x ≤ ratOf y) ∧ (p .gt a b = true ↔ ratOf x > ratOf y) ∧ (p .ge a b = true ↔ ratOf x ≥ ratOf y) ∧
      p .ord a b = true ∧ p .uno a b = false) ∧
    (∀ cc s t, p cc (infLane s) (infLane t) = match cc with
      | .eq => s == t | .ne => s != t | .lt => s && !t | .le => s || !t | .gt => !s && t | .ge => !s || t | .ord => true | .uno => false) ∧
    (∀ cc s a x, dec32 a = .fin x →
      p cc (infLane s) a = (match cc with | .eq | .uno => false | .ne | .ord => true | .lt | .le => s | .gt | .ge => !s) ∧
      p cc a (infLane s) = (match cc with | .eq | .uno => false | .ne | .ord => true | .lt | .le => !s | .gt | .ge => s))) ∧
  (Lane1 .ffloor (fintegral .rdn) ∧ Lane1 .fceil (fintegral .rup) ∧ Lane1 .ftrunc (fintegral .rtz) ∧ Lane1 .frnd (fintegral .rne) ∧
    ∀ r a, (IsNaN a → fintegral r a = 0x7FC00000) ∧ (∀ s, fintegral r (infLane s) = infLane s) ∧
      ∀ x, dec32 a = .fin x → ∃ y i, dec32 (fintegral r a) = .fin y ∧ y.neg = x.neg ∧ IntRound r (ratOf x) i ∧ ratOf y = (i : ℚ)) ∧
  (∃ c : Lane → Lane, Lane1 .fclass c ∧ ∀ a, (∃ b < 10, c a = 1#32 <<< b) ∧
    (c a = 1 ↔ a = 0xFF800000) ∧ (c a = 0x80 ↔ a = 0x7F800000) ∧ (c a = 8 ↔ a = 0x80000000) ∧ (c a = 0x10 ↔ a = 0) ∧
    (c a = 0x100 ∨ c a = 0x200 ↔ IsNaN a) ∧ (c a = 0x200 ↔ IsNaN a ∧ a.getLsbD 22 = true))) ∧
  (∃ rcp rsq exp2 log2 sinpi cospi : Lane → Lane, let sqrt := fsqrtLane
    Lane1 .fsqrtRne sqrt ∧ Lane1 .frcp rcp ∧ Lane1 .frsq rsq ∧ Lane1 .fexp2 exp2 ∧ Lane1 .flog2 log2 ∧ Lane1 .fsinpi sinpi ∧
    Lane1 .fcospi cospi ∧
    (∀ a, IsNaN a → ∀ f ∈ [sqrt, rcp, rsq, exp2, log2, sinpi, cospi], f a = 0x7FC00000) ∧
    (∀ a x, dec32 a = .fin x → ratOf x < 0 → sqrt a = 0x7FC00000 ∧ rsq a = 0x7FC00000 ∧ log2 a = 0x7FC00000) ∧
    (sqrt 0x80000000 = 0x80000000 ∧ sqrt 0x7F800000 = 0x7F800000 ∧ sqrt 0xFF800000 = 0x7FC00000) ∧
    (∀ s, rcp (infLane s) = (if s then 0x80000000 else 0) ∧ rcp (if s then 0x80000000 else 0) = infLane s ∧
      rsq (if s then 0x80000000 else 0) = infLane s) ∧
    (∀ a x, dec32 a = .fin x → 0 < |ratOf x| → |ratOf x| < (2 : ℚ) ^ (-128 : Int) → rcp a = infLane x.neg) ∧
    (∀ a x, dec32 a = .fin x → (2 : ℚ) ^ (-128 : Int) < |ratOf x| → ∃ w, dec32 (rcp a) = .fin w ∧ Encloses (1 / ratOf x) (ratOf w)) ∧
    (∀ a x (n : Int), dec32 a = .fin x → -127 ≤ n → ratOf x = (2 : ℚ) ^ n → ∃ w, dec32 (rcp a) = .fin w ∧ ratOf w = (2 : ℚ) ^ (-n)) ∧
    rsq 0x7F800000 = 0 ∧ rsq 0xFF800000 = 0x7FC00000 ∧ log2 0xFF800000 = 0x7FC00000 ∧
    (∀ a x, dec32 a = .fin x → 0 < ratOf x → ∃ w, dec32 (rsq a) = .fin w ∧ 0 < ratOf w ∧ ∀ z, Held fp32 z → 0 < z →
      (z ^ 2 * ratOf x = 1 → ratOf w = z) ∧ ¬ (ratOf w < z ∧ z ^ 2 * ratOf x < 1) ∧ ¬ (1 < z ^ 2 * ratOf x ∧ z < ratOf w)) ∧
    (∀ a x (n : Int), dec32 a = .fin x → ratOf x = (2 : ℚ) ^ (2 * n) → ∃ w, dec32 (rsq a) = .fin w ∧ ratOf w = (2 : ℚ) ^ (-n)) ∧
    (exp2 0 = 0x3F800000 ∧ exp2 0x80000000 = 0x3F800000 ∧ exp2 0xFF800000 = 0 ∧ exp2 0x7F800000 = 0x7F800000) ∧
    (∀ a x, dec32 a = .fin x → (128 ≤ ratOf x → exp2 a = 0x7F800000) ∧ (ratOf x < -150 → exp2 a = 0) ∧
      ∀ i : Int, -149 ≤ i → i ≤ 127 → ratOf x = i → ∃ y, dec32 (exp2 a) = .fin y ∧ ratOf y = (2 : ℚ) ^ i) ∧
    (log2 0 = 0xFF800000 ∧ log2 0x80000000 = 0xFF800000 ∧ log2 0x7F800000 = 0x7F800000 ∧ log2 0x3F800000 = 0) ∧
    (∀ a x (n : Int), dec32 a = .fin x → ratOf x = (2 : ℚ) ^ n → ∃ y, dec32 (log2 a) = .fin y ∧ ratOf y = n) ∧
    (sinpi 0 = 0 ∧ sinpi 0x80000000 = 0x80000000 ∧ cospi 0 = 0x3F800000 ∧ cospi 0x80000000 = 0x3F800000 ∧
      ∀ s, sinpi (infLane s) = 0x7FC00000 ∧ cospi (infLane s) = 0x7FC00000) ∧
    (∀ a x (n : Int), dec32 a = .fin x → ratOf x = n → n ≠ 0 → sinpi a = (if n < 0 then 0x80000000 else 0) ∧
      cospi a = if n % 2 = 0 then 0x3F800000 else 0xBF800000) ∧
    (∀ a x (n : Int), dec32 a = .fin x → ratOf x = n + 1 / 2 → cospi a = 0))

/-- R55, R161 to R167: the packed forms and the conversions complete; in each half on its own NaN, infinities and exact zeros
give the results of R155 in that format (what a nonzero finite result is, and its overflow, FloatRounding says); NaN and
overflow of a conversion give the fixed codes of its rule, a narrow result is the nearest code of the grid, an integer result
is the rounded value where it is in range, and a widening conversion is exact. -/
def Obligations.HalvesAndConversions : Prop :=
  (∀ h, Lane2 (.hadd2 h) (hadd2 h) ∧ Lane2 (.hmul2 h) (hmul2 h) ∧ Lane3 (.hfma2 h) (hfma2 h)) ∧
  (∀ h upper a b c, let f := halfFmt h; let p (w : Lane) : Fp := f.decode (halfOf upper w)
    SumSpecial f .rne (p a) (p b) (halfOf upper (hadd2 h a b)) ∧ ProductSpecial f (p a) (p b) (halfOf upper (hmul2 h a b)) ∧
    FusedSpecial f .rne (p a) (p b) (p c) (halfOf upper (hfma2 h a b c))) ∧
  ((halfFmt .bf16).nan = 0x7FC0 ∧ (halfFmt .f16).nan = 0x7E00 ∧
    ∀ s, (halfFmt .bf16).withSign s (halfFmt .bf16).infCode = (if s then 0xFF80 else 0x7F80) ∧
      (halfFmt .f16).withSign s (halfFmt .f16).infCode = if s then 0xFC00 else 0x7C00) ∧
  (∃ i n : Rnd → Lane → Lane, (∀ r, Lane1 (.cvtI32F32 r) (i r) ∧ Lane1 (.cvtN32F32 r) (n r)) ∧
    ∀ r a, ((∀ x, dec32 a ≠ .fin x) → i r a = 0x80000000 ∧ n r a = 0xFFFFFFFF) ∧
      ∀ x, dec32 a = .fin x → ∃ z, IntRound r (ratOf x) z ∧
        i r a = (if -2 ^ 31 ≤ z ∧ z < 2 ^ 31 then BitVec.ofInt 32 z else 0x80000000) ∧
        n r a = (if 0 ≤ z ∧ z < 2 ^ 32 then BitVec.ofInt 32 z else 0xFFFFFFFF)) ∧
  (∀ r, Lane1 (.cvtF32I32 r) (fun a => cvtFromInt r a.toInt) ∧ Lane1 (.cvtF32N32 r) (fun a => cvtFromInt r a.toNat) ∧
    cvtFromInt r 0 = 0) ∧
  (∀ tz, Lane1 (.cvtBf16F32 tz) (cvt16 bf16 tz) ∧ Lane1 (.cvtF16F32 tz) (cvt16 fp16 tz) ∧
    ∀ a, (IsNaN a → cvt16 bf16 tz a = 0x7FC0 ∧ cvt16 fp16 tz a = 0x7E00) ∧
      (∀ s, cvt16 bf16 tz (infLane s) = (if s then 0xFF80 else 0x7F80) ∧ cvt16 fp16 tz (infLane s) = if s then 0xFC00 else 0x7C00)) ∧
  (∃ e4 e5 : Bool → Lane → Lane, ∃ e2 : Lane → Lane,
    (∀ x, Lane1 (.cvtE4m3F32 x) (e4 x) ∧ Lane1 (.cvtE5m2F32 x) (e5 x)) ∧ Lane1 .cvtE2m1F32 e2 ∧
    (∀ x a, e4 x a < 256 ∧ e5 x a < 256 ∧ e2 a < 16) ∧
    (∀ x a, IsNaN a → e4 x a = 0x7F ∧ e5 x a = 0x7E ∧ e2 a = 0) ∧
    (∀ s, e4 false (infLane s) = (if s then 0xFE else 0x7E) ∧ e4 true (infLane s) = 0x7F ∧
      e5 false (infLane s) = (if s then 0xFB else 0x7B) ∧ e5 true (infLane s) = (if s then 0xFC else 0x7C) ∧
      e2 (infLane s) = if s then 0xF else 0x7) ∧
    (∀ y a x, dec32 a = .fin x → NarrowRounds 3 0x7E 7 (-9) (e4 y (infLane x.neg)).toNat x (e4 y a).toNat ∧
      NarrowRounds 2 0x7B 7 (-16) (e5 y (infLane x.neg)).toNat x (e5 y a).toNat ∧
      NarrowRounds 1 7 3 (-1) (e2 (infLane x.neg)).toNat x (e2 a).toNat)) ∧
  (∀ p : (Guard → VReg → VReg → Instr) × Fmt,
    p ∈ [(Instr.cvtF32Bf16, bf16), (.cvtF32F16, fp16), (.cvtF32E4m3, e4m3), (.cvtF32E5m2, e5m2), (.cvtF32E2m1, e2m1)] →
    ∃ f : Lane → Lane, Lane1 p.1 f ∧ ∀ a, let v := p.2.decode (a.toNat % 2 ^ (p.2.sign + 1))
      (v = .nan → f a = 0x7FC00000) ∧ (∀ s, v = .inf s → f a = infLane s) ∧
      ∀ x, v = .fin x → ∃ y, dec32 (f a) = .fin y ∧ y.neg = x.neg ∧ ratOf y = ratOf x)

/-! ## Cross-lane instructions (05) -/

namespace Sys2Proof.Claims

/-- A lane that a shuffle or broadcast names: its value if it lies in the gang, else zero (R168). -/
def namedLane (s : State) (k : Issue) (a : VReg) (j : Nat) : Lane :=
  if inGang k.gang (j / 4) then s.dev.source k a.toNat j else 0

/-- The active lanes in rising order. -/
def activeLanes (k : Issue) (g : Guard) : List Nat := (List.range 32).filter fun l => (k.active g).getLsbD l

end Sys2Proof.Claims

/-- R168 to R171, R173: the shuffles, the broadcast, the votes and `match` complete with the rules' results. R172, R174: the reductions, scans and `bscale` complete with the rules' results over the active lanes. The sums of `f32`
values are those of `sumFp`, whose special cases are stated here and whose rounding FloatRounding states. -/
def Obligations.LanePermutationsAndReductions : Prop :=
  (∀ (s : State) (k : Issue) (g : Guard), s.dev.issuer? = some k →
    (∀ d a b : VReg, LaneResult s k (.shflIdx g d a b) 6 [d.toNat, a.toNat, b.toNat] g d fun l =>
      namedLane s k a ((s.dev.source k b.toNat l).toNat % 32)) ∧
    (∀ (d a : VReg) (n : BitVec 8), n.toNat < 32 →
      LaneResult s k (.shflXor g d a n) 6 [d.toNat, a.toNat] g d (fun l => namedLane s k a (l ^^^ n.toNat)) ∧
      LaneResult s k (.shflUp g d a n) 6 [d.toNat, a.toNat] g d (fun l =>
        if n.toNat ≤ l then namedLane s k a (l - n.toNat) else s.dev.source k a.toNat l) ∧
      LaneResult s k (.shflDn g d a n) 6 [d.toNat, a.toNat] g d (fun l =>
        if l + n.toNat < 32 then namedLane s k a (l + n.toNat) else s.dev.source k a.toNat l) ∧
      LaneResult s k (.bcast g d a n) 6 [d.toNat, a.toNat] g d (fun _ => namedLane s k a n.toNat)) ∧
    (∀ d a : MReg,
      LaneMaskResult s k (.voteAny g d a) 6 [] g d (fun _ => (activeLanes k g).any fun j => (k.wave.mask a).getLsbD j) ∧
      LaneMaskResult s k (.voteAll g d a) 6 [] g d (fun _ => (activeLanes k g).all fun j => (k.wave.mask a).getLsbD j)) ∧
    (∀ (d : VReg) (a : MReg), ∃ v : Lane, LaneResult s k (.voteBallot g d a) 6 [d.toNat] g d (fun _ => v) ∧
      ∀ j, v.getLsbD j = ((k.active g).getLsbD j && (k.wave.mask a).getLsbD j)) ∧
    (∀ d a : VReg, ∃ f : Nat → Lane, LaneResult s k (.matchLanes g d a) 6 [d.toNat, a.toNat] g d f ∧
      ∀ l j, j < 32 → (f l).getLsbD j = ((k.active g).getLsbD j && decide (s.dev.source k a.toNat j = s.dev.source k a.toNat l)))) ∧
  ((∀ (s : State) (k : Issue) (g : Guard) (d a : VReg), s.dev.issuer? = some k →
    let x (l : Nat) : Lane := s.dev.source k a.toNat l
    let act := activeLanes k g
    let upTo (l : Nat) : List Nat := act.filter (· ≤ l)
    let gives (i : Instr) (f : Nat → Lane) : Prop := LaneResult s k i 6 [d.toNat, a.toNat] g d f
    gives (.redAddI g d a) (fun _ => BitVec.ofNat 32 (act.map fun l => (x l).toNat).sum) ∧
    gives (.scanAddI g d a) (fun l => BitVec.ofNat 32 ((upTo l).map fun j => (x j).toNat).sum) ∧
    gives (.redAddF32 g d a) (fun _ => sumFp (act.map fun l => dec32 (x l))) ∧
    gives (.scanAddF32 g d a) (fun l => sumFp ((upTo l).map fun j => dec32 (x j))) ∧
    (∃ lo hi : Lane, gives (.redMin g d a) (fun _ => lo) ∧ gives (.redMax g d a) (fun _ => hi) ∧
      ∀ l ∈ act, lo.toInt ≤ (x l).toInt ∧ (x l).toInt ≤ hi.toInt ∧ (∃ j ∈ act, lo = x j) ∧ ∃ j ∈ act, hi = x j) ∧
    (∀ f : BitVec 8, f = 2 ∨ f = 3 ∨ f = 4 → ∃ c : Nat, c < 256 ∧ gives (.bscale g d a f) (fun _ => BitVec.ofNat 32 c) ∧
      ((∃ l ∈ act, ∀ y, dec32 (x l) ≠ .fin y) → c = 0xFF) ∧
      ((∀ l ∈ act, ∃ y, dec32 (x l) = .fin y ∧ y.m = 0) → c = 0) ∧
      (∀ (m : ℚ) (e : Int), (∀ l ∈ act, ∃ y, dec32 (x l) = .fin y ∧ |ratOf y| ≤ m) → (∃ l ∈ act, ∃ y, dec32 (x l) = .fin y ∧ |ratOf y| = m) →
        (2 : ℚ) ^ e ≤ m → m < (2 : ℚ) ^ (e + 1) →
        (c : Int) = max (-127) (min 127 (e - if f = 2 then 8 else if f = 3 then 15 else 2)) + 127))) ∧
  (∀ l : List Fp, (.nan ∈ l ∨ (.inf true ∈ l ∧ .inf false ∈ l) → sumFp l = 0x7FC00000) ∧
    (∀ s, .nan ∉ l → .inf s ∈ l → .inf (!s) ∉ l → sumFp l = infLane s)) ∧
  (∀ l : List Dy, (l.map ratOf).sum = 0 → sumFp (l.map .fin) = if l ≠ [] ∧ ∀ x ∈ l, x.m = 0 ∧ x.neg = true then 0x80000000 else 0))

/-! ## Lane memory (06) -/

namespace Sys2Proof.Claims

/-- The address of a lane in the memory layout (R77, R175): sB, if the form has a base, plus VA at its scale, plus OFF. -/
def laneAddress (s : State) (k : Issue) (m : Addr) (base : Bool) (l : Nat) : Word :=
  BitVec.ofInt 64 ((if base then ((k.strand (l / 4)).rd m.sb).toNat else 0) +
    (if m.ksc = 7 then 0 else (s.dev.source k m.va.toNat l).toNat * 2 ^ m.ksc.toNat : Nat) + m.off.toInt)

/-- An operation has issued: the gang has passed its instruction, the operation is outstanding with its lanes; nothing else
has changed. An instruction without an active lane leaves no operation. -/
def issued (s : State) (k : Issue) (regs : List Nat) (kind : MemKind) (lanes : List LaneAcc) (whole : Bool) : State :=
  let t := laneStep s k 8 regs fun w => w
  if lanes = [] then t
  else { t with dev := { t.dev with
    nextId := s.dev.nextId + 1
    memops := s.dev.memops ++
      [⟨s.dev.nextId, k.wave.id, k.block.id, k.ctx.n, k.gang, k.pc, kind, lanes, k.wave.lts, whole⟩] } }

/-- The instruction issues with these lanes; only an access by the whole wave to one line may count as one event (R274).
Looking global addresses up may fill the caches and TLBs. -/
def Issues (s : State) (k : Issue) (i : Instr) (glob : Bool) (regs : List Nat) (kind : MemKind) (lanes : List LaneAcc) (n : Nat) :
    Prop :=
  ∃ (whole : Bool) (u : State), exec i s = .next u ∧
    (if glob then Cached (issued s k regs kind lanes whole) u else u = issued s k regs kind lanes whole) ∧
    (whole = true → k.gang = k.wave.liveMask ∧ k.ctx.atom = false ∧ lanes.length * n = 128)

/-- The registers `d` to `d + n - 1`. -/
def run (d : VReg) (n : Nat) : List Nat := (List.range n).map fun i => d.toNat + i

/-- The register that an address names. -/
def indexReg (m : Addr) : List Nat := if m.ksc = 7 then [] else [m.va.toNat]

/-- A lane's bytes in a run of registers, the lowest register first (R6, R180). -/
def laneBytes (s : State) (k : Issue) (d : VReg) (regs n l : Nat) : List Byte :=
  ((run d regs).flatMap fun r => leBytes 4 (s.dev.source k r l).toNat).take n

/-- There is room in the counter that the operation counts in (R26). -/
def HasRoom (s : State) (k : Issue) (ld : Bool) : Prop := if ld then s.dev.ld k.wave.id < 62 else s.dev.st k.wave.id < 62

/-- A global lane operation issues when its registers lie in the window, its counter has room and every active lane's address
passes its checks (R26, R176, R177). -/
def GlobalOp (i : Guard → VReg → Addr → Instr) (ld : Bool) (nregs n : Nat) (need : Need) (host : Bool) (kind : VReg → MemKind)
    (data : State → Issue → VReg → Nat → List Byte) : Prop :=
  ∀ (s : State) (k : Issue) (g : Guard) (d : VReg) (m : Addr) (p : Nat → Loc), s.dev.issuer? = some k →
    InWindow k (run d nregs ++ indexReg m) → HasRoom s k ld →
    (∀ l ∈ activeLanes k g, s.dev.checkGlobal k.core k.ctx (laneAddress s k m true l).toNat n need host = .ok (p l)) →
    Issues s k (i g d m) true (run d nregs ++ indexReg m) (kind d)
      ((activeLanes k g).map fun l => ⟨l, (laneAddress s k m true l).toNat, p l, n, data s k d l, .waiting⟩) n

/-- The same for the block's own scratchpad: the address is an offset of the block's range (R32, R176). -/
def LocalOp (i : Guard → VReg → Addr → Instr) (ld : Bool) (nregs n : Nat) (kind : VReg → MemKind)
    (data : State → Issue → VReg → Nat → List Byte) : Prop :=
  ∀ (s : State) (k : Issue) (g : Guard) (d : VReg) (m : Addr), s.dev.issuer? = some k →
    InWindow k (run d nregs ++ indexReg m) → HasRoom s k ld →
    (∀ l ∈ activeLanes k g, (laneAddress s k m true l).toNat % n = 0 ∧
      (laneAddress s k m true l).toNat + n ≤ k.block.scratch.len) →
    Issues s k (i g d m) false (run d nregs ++ indexReg m) (kind d)
      ((activeLanes k g).map fun l => ⟨l, (laneAddress s k m true l).toNat,
        .loc k.core .scratch (k.block.scratch.base + (laneAddress s k m true l).toNat), n, data s k d l, .waiting⟩) n

/-- The same for the scratchpad of the team member whose number each strand's sB holds (R181). -/
def TeamOp (i : Guard → VReg → Addr → Instr) (ld : Bool) (nregs n : Nat) (kind : VReg → MemKind)
    (data : State → Issue → VReg → Nat → List Byte) : Prop :=
  ∀ (s : State) (k : Issue) (g : Guard) (d : VReg) (m : Addr) (id : Nat) (t : Team) (core : Nat → Nat) (r : Nat → Range),
    s.dev.issuer? = some k → InWindow k (run d nregs ++ indexReg m) → HasRoom s k ld →
    k.block.team = some id → s.dev.team? id = some t →
    (∀ l ∈ activeLanes k g, t.cores[((k.strand (l / 4)).rd m.sb).toNat]? = some (core l) ∧
      t.ranges[((k.strand (l / 4)).rd m.sb).toNat]? = some (r l) ∧
      (laneAddress s k m false l).toNat % n = 0 ∧ (laneAddress s k m false l).toNat + n ≤ (r l).len) →
    Issues s k (i g d m) false (run d nregs ++ indexReg m) (kind d)
      ((activeLanes k g).map fun l => ⟨l, (laneAddress s k m false l).toNat,
        .loc (core l) .scratch ((r l).base + (laneAddress s k m false l).toNat), n, data s k d l, .waiting⟩) n

/-- The same for the pointer forms, whose address is a register pair plus OFF (R175). -/
def PointerOp (i : Guard → VReg → VReg → BitVec 23 → Instr) (ld : Bool) (nregs n : Nat) (need : Need) (kind : VReg → MemKind)
    (data : State → Issue → VReg → Nat → List Byte) : Prop :=
  ∀ (s : State) (k : Issue) (g : Guard) (d a : VReg) (off : BitVec 23) (p : Nat → Loc), s.dev.issuer? = some k →
    let ea (l : Nat) : Word := BitVec.ofInt 64 ((pairAt s k a l).toNat + off.toInt)
    InWindow k (run d nregs ++ run a 2) → HasRoom s k ld →
    (∀ l ∈ activeLanes k g, s.dev.checkGlobal k.core k.ctx (ea l).toNat n need true = .ok (p l)) →
    Issues s k (i g d a off) true (run d nregs ++ run a 2) (kind d)
      ((activeLanes k g).map fun l => ⟨l, (ea l).toNat, p l, n, data s k d l, .waiting⟩) n

/-- Bytes and registers of the widths (Table 6-2). -/
def ldWidth : LdW → Nat × Nat
  | .i8 => (1, 1)
  | .n8 => (1, 1)
  | .i16 => (2, 1)
  | .n16 => (2, 1)
  | .w32 => (4, 1)
  | .w64 => (8, 2)
  | .w128 => (16, 4)
def stWidth : StW → Nat × Nat
  | .b8 => (1, 1)
  | .b16 => (2, 1)
  | .b32 => (4, 1)
  | .b64 => (8, 2)
  | .b128 => (16, 4)

/-- The first failing lane of a lane access: it decides the cause and the address (R176). -/
def FirstFailure (k : Issue) (g : Guard) (check : Nat → Except Nat Loc) (l e : Nat) : Prop :=
  l ∈ activeLanes k g ∧ check l = .error e ∧ ∀ j ∈ activeLanes k g, j < l → ∃ p, check j = .ok p

/-- The lanes that fail. -/
def failMask (k : Issue) (g : Guard) (check : Nat → Except Nat Loc) (m : LaneMask) : Prop :=
  ∀ j, j < 32 → (m.getLsbD j = true ↔ j ∈ activeLanes k g ∧ ∃ e, check j = .error e)

end Sys2Proof.Claims

/-- R175, R177, R180, R181, Table 6-2: every lane load and store issues in every state that meets the conditions, as one
outstanding operation with one access for each active lane; registers and memory are as before until its steps run. -/
def Obligations.LaneMemoryIssues : Prop :=
  (∀ w, let n := (ldWidth w).1
    let r := (ldWidth w).2
    GlobalOp (.ld w) true r n needR true (.load w) (fun _ _ _ _ => []) ∧
    PointerOp (.ldp w) true r n needR (.load w) (fun _ _ _ _ => []) ∧
    LocalOp (.ldl w) true r n (.load w) (fun _ _ _ _ => []) ∧
    TeamOp (.ldt w) true r n (.load w) (fun _ _ _ _ => [])) ∧
  (∀ w, let n := (stWidth w).1
    let r := (stWidth w).2
    let data (s : State) (k : Issue) (d : VReg) (l : Nat) : List Byte := laneBytes s k d r n l
    GlobalOp (.st w) false r n needW true (fun _ => .store) data ∧
    PointerOp (.stp w) false r n needW (fun _ => .store) data ∧
    LocalOp (.stl w) false r n (fun _ => .store) data ∧
    TeamOp (.stt w) false r n (fun _ => .store) data)

/-- R26, R134, R184 to R186: the atomics, the no-return atomics, `cinc` and the compressing stores issue as one outstanding
operation each. `cmpst` checks the pointer word Q in every active lane and holds one access to it; that the bound `sB` is the
lowest strand's is the model's choice (log entry 16). -/
def Obligations.AtomicIssues : Prop :=
  (∀ op : AtOp, let n := if op = .addI64 then 8 else 4
    let r := if op = .addI64 ∨ op = .cas then 2 else 1
    let data (s : State) (k : Issue) (d : VReg) (l : Nat) : List Byte := s.dev.atData k op d l
    GlobalOp (.atom op) true r n needRW false (.atom op) data ∧ LocalOp (.atl op) true r n (.atom op) data) ∧
  (∀ op : RedOp, let n := if op = .addI64 then 8 else 4
    let r := if op = .addI64 then 2 else 1
    GlobalOp (.redAtomic op) false r n needRW false (fun _ => .red (RedAtomic op))
      (fun s k d l => s.dev.atData k (RedAtomic op) d l)) ∧
  (∀ (s : State) (k : Issue) (d a : SReg) (i : BitVec 12) (pa : Nat → Nat), s.dev.issuer? = some k →
    s.dev.st k.wave.id < 62 → ScalarPlaces s k a i 8 needW false pa →
    ∃ v, exec (.cinc d a i) s = .next v ∧ Cached (let t := gangStep s k fun _ x => passed 4 x
      { t with dev := { t.dev with
          nextId := s.dev.nextId + 1
          memops := s.dev.memops ++ [⟨s.dev.nextId, k.wave.id, k.block.id, k.ctx.n, k.gang, k.pc, .cinc,
            k.strands.map fun u => ⟨4 * u, ((k.strand u).rd a + i.signExtend 64).toNat, .glob (pa u), 8,
              leBytes 6 ((k.strand u).rd d).toNat, .waiting⟩, k.wave.lts, false⟩] } }) v) ∧
  (∀ (s : State) (k : Issue) (g : Guard) (d : VReg) (b : SReg) (off : BitVec 23) (p : Loc) (low : Nat) (rest : List Nat),
    s.dev.issuer? = some k → InWindow k [d.toNat] → HasRoom s k false → activeLanes k g = low :: rest →
    let q : Word := k.rd b + off.signExtend 64
    let vals := (activeLanes k g).map fun l => (l, s.dev.source k d.toNat l)
    (s.dev.checkGlobal k.core k.ctx q.toNat 8 needW false = .ok p →
      ∃ u, exec (.cmpst g d b off) s = .next u ∧ Cached (issued s k [d.toNat] (.cmpst false k.block.scratch.len vals)
        [⟨low, q.toNat, p, 8, [], .waiting⟩] false) u) ∧
    (q.toNat % 8 = 0 → q.toNat + 8 ≤ k.block.scratch.len →
      exec (.cmpstL g d b off) s = .next (issued s k [d.toNat] (.cmpst true k.block.scratch.len vals)
        [⟨low, q.toNat, .loc k.core .scratch (k.block.scratch.base + q.toNat), 8, [], .waiting⟩] false)))

namespace Sys2Proof.Claims

/-- The checks of a local access: its alignment, then its range (R176). -/
def localCheck (core : Nat) (sp : Space) (r : Range) (a n : Nat) : Except Nat Loc :=
  if a % n ≠ 0 then .error cAlign else if r.len < a + n then .error cRights else .ok (.loc core sp (r.base + a))

/-- The checks of an access to a team member's scratchpad (R181, R176). -/
def teamCheck (s : State) (k : Issue) (m : Word) (a n : Nat) : Except Nat Loc :=
  match k.block.team.bind s.dev.team? with
  | none => .error cRights
  | some t =>
    match t.cores[m.toNat]?, t.ranges[m.toNat]? with
    | some core, some r => localCheck core .scratch r a n
    | _, _ => .error cRights

/-- What keeps a lane access from its effect: a register beyond the window raises REGRANGE (R14); with its counter full it waits
(R26); a lane that fails a check raises the cause of the lowest such lane, with that lane's address and the mask of all of them
(R176). An access of a typed buffer counts nowhere and needs the wave's clock (log entry 14). -/
def LaneFaults (s : State) (k : Issue) (g : Guard) (i : Instr) (regs : List Nat) (counts : Option Bool) (glob : Bool) (ea : Nat → Word)
    (check : Nat → Except Nat Loc) : Prop :=
  (¬ InWindow k regs → exec i s = .next (after s fun y => y.trap k cRegrange)) ∧
  (∀ ld, counts = some ld → InWindow k regs → ¬ HasRoom s k ld → exec i s = .next (stays s k (.full (if ld then .ld else .st)))) ∧
  (InWindow k regs → (∀ ld, counts = some ld → HasRoom s k ld) → (counts = none → s.dev.settled k = true) →
    ∀ l e, FirstFailure k g check l e → ∃ x : LaneMask, failMask k g check x ∧
      exec i s = .next (after s fun y =>
        (if glob then y.lookedAll k.core k.ctx ((activeLanes k g).map fun j => (ea j).toNat) else y).trapMem k e (ea l) x))

end Sys2Proof.Claims

/-- R14, R26, R176: every lane load, store, atomic, team, pointer, local and typed-buffer access and every compressing store raises
REGRANGE for a register beyond the window, waits without room in its counter, and takes the exception of its lowest failing lane,
with that lane's address and the mask of the failing lanes. So do `pf`, `spill`, `fill` and `cinc`, as far as they name registers,
count and have checks. Nothing is stored. -/
def Obligations.LaneMemoryFaults : Prop :=
  ∀ (s : State) (k : Issue), s.dev.issuer? = some k →
    (∀ (g : Guard) (d : VReg) (m : Addr),
      let ea := laneAddress s k m true
      let global (n : Nat) (need : Need) (host : Bool) (l : Nat) : Except Nat Loc := s.dev.checkGlobal k.core k.ctx (ea l).toNat n need host
      let local_ (sp : Space) (r : Range) (n l : Nat) : Except Nat Loc := localCheck k.core sp r (ea l).toNat n
      let off := laneAddress s k m false
      let member (n l : Nat) : Except Nat Loc := teamCheck s k ((k.strand (l / 4)).rd m.sb) (off l).toNat n
      (∀ w : LdW, let n := (ldWidth w).1
        let regs := run d (ldWidth w).2 ++ indexReg m
        LaneFaults s k g (.ld w g d m) regs (some true) true ea (global n needR true) ∧
        LaneFaults s k g (.ldl w g d m) regs (some true) false ea (local_ .scratch k.block.scratch n) ∧
        LaneFaults s k g (.ldt w g d m) regs (some true) false off (member n)) ∧
      (∀ w : StW, let n := (stWidth w).1
        let regs := run d (stWidth w).2 ++ indexReg m
        LaneFaults s k g (.st w g d m) regs (some false) true ea (global n needW true) ∧
        LaneFaults s k g (.stl w g d m) regs (some false) false ea (local_ .scratch k.block.scratch n) ∧
        LaneFaults s k g (.stt w g d m) regs (some false) false off (member n)) ∧
      (∀ op : AtOp, let n := if op = .addI64 then 8 else 4
        let regs := run d (if op = .addI64 ∨ op = .cas then 2 else 1) ++ indexReg m
        LaneFaults s k g (.atom op g d m) regs (some true) true ea (global n needRW false) ∧
        LaneFaults s k g (.atl op g d m) regs (some true) false ea (local_ .scratch k.block.scratch n)) ∧
      (∀ op : RedOp, LaneFaults s k g (.redAtomic op g d m) (run d (if op = .addI64 then 2 else 1) ++ indexReg m) (some false) true ea
        (global (if op = .addI64 then 8 else 4) needRW false)) ∧
      (∀ x : Instr × Space × Range, x ∈ [(.wld g d m, .wbuf, k.block.wbuf), (.wst g d m, .wbuf, k.block.wbuf), (.ald g d m, .abuf, k.block.abuf),
          (.ast g d m, .abuf, k.block.abuf), (.accld g d m, .acc, k.block.acc), (.accst g d m, .acc, k.block.acc)] →
        LaneFaults s k g x.1 (d.toNat :: indexReg m) none false ea (local_ x.2.1 x.2.2 4)) ∧
      (¬ InWindow k (indexReg m) → exec (.pf g m) s = .next (after s fun y => y.trap k cRegrange))) ∧
    (∀ (g : Guard) (d a : VReg) (off : BitVec 23),
      let ea (l : Nat) : Word := BitVec.ofInt 64 ((pairAt s k a l).toNat + off.toInt)
      let global (n : Nat) (need : Need) (l : Nat) : Except Nat Loc := s.dev.checkGlobal k.core k.ctx (ea l).toNat n need true
      (∀ w : LdW, LaneFaults s k g (.ldp w g d a off) (run d (ldWidth w).2 ++ run a 2) (some true) true ea (global (ldWidth w).1 needR)) ∧
      (∀ w : StW, LaneFaults s k g (.stp w g d a off) (run d (stWidth w).2 ++ run a 2) (some false) true ea (global (stWidth w).1 needW))) ∧
    (∀ (g : Guard) (d : VReg) (b : SReg) (off : BitVec 23),
      let q : Word := k.rd b + off.signExtend 64
      LaneFaults s k g (.cmpst g d b off) [d.toNat] (some false) true (fun _ => q)
        (fun _ => s.dev.checkGlobal k.core k.ctx q.toNat 8 needW false) ∧
      LaneFaults s k g (.cmpstL g d b off) [d.toNat] (some false) false (fun _ => q)
        (fun _ => localCheck k.core .scratch k.block.scratch q.toNat 8)) ∧
    (∀ (d : VReg) (n : BitVec 8),
      (¬ InWindow k [d.toNat] → exec (.spill d n) s = .next (after s fun y => y.trap k cRegrange) ∧
        exec (.fill d n) s = .next (after s fun y => y.trap k cRegrange)) ∧
      (InWindow k [d.toNat] → (¬ HasRoom s k false → exec (.spill d n) s = .next (stays s k (.full .st))) ∧
        (¬ HasRoom s k true → exec (.fill d n) s = .next (stays s k (.full .ld))))) ∧
    ∀ (d a : SReg) (i : BitVec 12),
      (¬ HasRoom s k false → exec (.cinc d a i) s = .next (stays s k (.full .st))) ∧
      ∀ t e, HasRoom s k false → ScalarFails s k a i 8 needW false t e →
        ∃ m : LaneMask, exec (.cinc d a i) s =
          .next (after s fun x => (x.lookedAll k.core k.ctx (k.strands.map fun u => ((k.strand u).rd a + i.signExtend 64).toNat)).trapMem
            k e ((k.strand t).rd a + i.signExtend 64) m)

namespace Sys2Proof.Claims

/-- A load from a typed buffer completes at issue (R182): each active lane's word of the block's range is in `vD`, the wave
adopts a time, and no byte changes. -/
def BufferLoad (sp : Space) (range : Block → Range) (i : Guard → VReg → Addr → Instr) : Prop :=
  ∀ (s : State) (k : Issue) (g : Guard) (d : VReg) (m : Addr), s.dev.issuer? = some k →
    InWindow k (d.toNat :: indexReg m) → s.dev.settled k = true →
    let a (l : Nat) : Nat := (laneAddress s k m true l).toNat
    let word (l : Nat) : List Byte × Bool := s.dev.readLoc k.core sp ((range k.block).base + a l) 4
    (∀ l ∈ activeLanes k g, a l % 4 = 0 ∧ a l + 4 ≤ (range k.block).len ∧ (word l).2 = true) →
    ∃ (t : State) (c : Nat) (f : Nat → Lane), exec (i g d m) s = .next t ∧ t.dev.mem = s.dev.mem ∧
      t.dev.locmem = s.dev.locmem ∧ t.mgmt = s.mgmt ∧
      t.dev.waves = (laneStep s k 8 [] fun w => { w with v := putLanes (k.active g) d.toNat [f] w.v, lts := max w.lts c }).dev.waves ∧
      ∀ l ∈ activeLanes k g, f l = BitVec.ofNat 32 (leNat (word l).1)

/-- A store to a typed buffer by one active lane completes at issue (R182): the word is in the block's range, no other byte
of the core's buffer changes. -/
def BufferStore (sp : Space) (range : Block → Range) (i : Guard → VReg → Addr → Instr) : Prop :=
  ∀ (s : State) (k : Issue) (g : Guard) (d : VReg) (m : Addr) (l : Nat), s.dev.issuer? = some k → memOk s →
    InWindow k (d.toNat :: indexReg m) → s.dev.settled k = true → activeLanes k g = [l] →
    let a := (range k.block).base + (laneAddress s k m true l).toNat
    (laneAddress s k m true l).toNat % 4 = 0 → (laneAddress s k m true l).toNat + 4 ≤ (range k.block).len →
    ∃ t : State, exec (i g d m) s = .next t ∧ t.dev.mem = s.dev.mem ∧ t.mgmt = s.mgmt ∧
      (∀ b, (t.dev.readLoc k.core sp b 1).1 = if a ≤ b ∧ b < a + 4
        then [BitVec.ofNat 8 ((s.dev.source k d.toNat l).toNat / 256 ^ (b - a))] else (s.dev.readLoc k.core sp b 1).1) ∧
      (∃ w, t.dev.wave? k.wave.id = some w ∧ w.v = k.wave.v ∧ w.m = k.wave.m ∧
        w.strands.map (·.s) = k.wave.strands.map (·.s))

end Sys2Proof.Claims

/-- R182, R187 to R189: the typed buffers' loads and stores, `pf`, `spill` and `fill` complete. `spill` puts the gang's lanes
into the slot and counts in `st`; `fill` becomes an outstanding operation with the slot's values, or with INTEGRITY where the
slot's format byte or carried check has failed; `pf` changes no register. The model's choices: a format byte of 5 to 255, for
which R189 names no cause, gives INTEGRITY (log entry 25), and a typed buffer's load sees the state as it stands beside an
outstanding operation (log entry 103). -/
def Obligations.BuffersAndSpills : Prop :=
  (BufferLoad .wbuf Block.wbuf .wld ∧ BufferLoad .abuf Block.abuf .ald ∧ BufferLoad .acc Block.acc .accld) ∧
  (BufferStore .wbuf Block.wbuf .wst ∧ BufferStore .abuf Block.abuf .ast ∧ BufferStore .acc Block.acc .accst) ∧
  (∀ (s : State) (k : Issue) (g : Guard) (m : Addr), s.dev.issuer? = some k → InWindow k (indexReg m) →
    ∃ t : State, exec (.pf g m) s = .next t ∧ t.dev.mem = s.dev.mem ∧ t.dev.sectors = s.dev.sectors ∧ t.dev.locmem = s.dev.locmem ∧
      t.dev.memops = s.dev.memops ∧ t.mgmt = s.mgmt ∧ t.dev.waves = (gangStep s k fun _ x => passed 8 x).dev.waves) ∧
  (∀ (s : State) (k : Issue) (d : VReg) (n : BitVec 8), s.dev.issuer? = some k → InWindow k [d.toNat] → HasRoom s k false →
    ∃ t : State, exec (.spill d n) s = .next t ∧ t.dev.mem = s.dev.mem ∧ t.dev.locmem = s.dev.locmem ∧
      t.dev.st k.wave.id = s.dev.st k.wave.id + 1 ∧
      ∃ w, t.dev.wave? k.wave.id = some w ∧ w.v = k.wave.v ∧ w.m = k.wave.m ∧ w.strands.map (·.s) = k.wave.strands.map (·.s) ∧
        ∀ l x, (k.wave.slot n.toNat).vals[l]? = some x →
          (w.slot n.toNat).vals[l]? = some (if inGang k.gang (l / 4) ∧ l < 32 then s.dev.source k d.toNat l else x)) ∧
  (∀ (s : State) (k : Issue) (d : VReg) (n : BitVec 8), s.dev.issuer? = some k → InWindow k [d.toNat] → HasRoom s k true →
    exec (.fill d n) s = .next (let t := gangStep s k fun _ x => passed 8 x
      { t with dev := { t.dev with
          nextId := s.dev.nextId + 1
          memops := s.dev.memops ++ [⟨s.dev.nextId, k.wave.id, k.block.id, k.ctx.n, k.gang, k.pc,
            .fill d n.toNat (laneBits k.gang), (lanesOf (laneBits k.gang)).map fun l =>
              ⟨l, 0, .glob 0, 4, [], if (k.wave.slot n.toNat).fmt ≤ 4 ∧ (k.wave.slot n.toNat).flaw = 0
                then .done 0 (leBytes 4 (((k.wave.slot n.toNat).vals[l]?).getD 0).toNat) else .failed cIntegrity⟩, k.wave.lts, false⟩] } }))

/-! ## Operations at their homes (06, 09) -/

namespace Sys2Proof.Claims

/-- Operation `o` is outstanding and first in its wave's order; `a` is its only access of lane `a.lane`, it has not been
performed, and it is no part of a one-line event. -/
def NextAccess (s : State) (o : MemOp) (a : LaneAcc) : Prop :=
  s.dev.op? o.id = some o ∧ (s.dev.opTurn o.wave).map (·.id) = some o.id ∧ o.whole = false ∧ a ∈ o.lanes ∧ a.st = .waiting ∧
    (o.lanes.map (·.lane)).Nodup ∧ (s.dev.block? o.block).isSome = true ∧ (s.dev.ctx? o.ctx).isSome = true

/-- Lane `l` of operation `id` has been performed with these bytes, at some time; the operation's other lanes are as before. -/
def Performed (_s t : State) (o : MemOp) (l : Nat) (bytes : List Byte) : Prop :=
  ∃ (o' : MemOp) (time : Nat), t.dev.op? o.id = some o' ∧ o'.kind = o.kind ∧
    o'.lanes = o.lanes.map fun b => if b.lane = l then { b with st := .done time bytes } else b

/-- Every sector of an access has been written under its context's key, and its check holds. -/
def Sound (s : State) (ctx pa n : Nat) : Prop := ∀ i ∈ sectorsOf pa n, s.dev.sector? i ≠ none ∧ s.dev.sectorOk ctx i = true

/-- A context reads these bytes at a physical address, and everywhere else what it read before. -/
def StoresAt (s t : State) (ctx pa : Nat) (bytes : List Byte) : Prop :=
  ∀ b, t.dev.byteAt ctx b = if pa ≤ b ∧ b < pa + bytes.length then (bytes[b - pa]?).getD 0 else s.dev.byteAt ctx b

/-- The new value of an atomic operation (Table 6-3); `f32` sums are those of `fadd`. -/
def atomicResult (op : AtOp) (old v put : Nat) : Nat :=
  let i (x : Nat) : Int := (BitVec.ofNat 32 x).toInt
  match op with
  | .addI32 => (old + v) % 2 ^ 32
  | .addI64 => (old + v) % 2 ^ 64
  | .addF32 => (fadd .rne (BitVec.ofNat 32 old) (BitVec.ofNat 32 v)).toNat
  | .minI => if i old ≤ i v then old else v
  | .minN => min old v
  | .maxI => if i v ≤ i old then old else v
  | .maxN => max old v
  | .and => old &&& v
  | .or => old ||| v
  | .xor => old ^^^ v
  | .xchg => v
  | .cas => if old = v then put else old

/-- What register `j` of a load's run takes in a lane from the bytes (Table 6-2). -/
def loaded (w : LdW) (bytes : List Byte) (j : Nat) : Lane :=
  match w with
  | .i8 => BitVec.signExtend 32 (BitVec.ofNat 8 (leNat bytes))
  | .i16 => BitVec.signExtend 32 (BitVec.ofNat 16 (leNat bytes))
  | _ => BitVec.ofNat 32 (leNat bytes / 2 ^ (32 * j))

end Sys2Proof.Claims

/-- R264 to R270, R178, R184, R189: HOME_LOAD performs a lane of the wave's first operation with the bytes as they stand and
changes no byte; STORE_PERFORM puts a lane's bytes, and no other byte changes; HOME_ATOMIC leaves the operation's result in
memory and the old bytes for the lane; a `spill` is performed. R177, R178: LOAD_COMPLETE writes the registers of a load all of whose lanes have been performed, in those lanes only, and
the operation no longer counts. DEFERRED_REPORT takes a reported failure into the handler of the wave that the report reaches,
with the operation's record where the cause is one of memory (R307). -/
def Obligations.HomeSteps : Prop :=
  ((∀ (s : State) (o : MemOp) (a : LaneAcc) (w : LdW) (d : VReg) (pa lease : Nat), NextAccess s o a → o.kind = .load w d →
    a.loc = .glob pa → (s.dev.readGlob o.ctx pa a.n).2 = true →
    ∃ t, exec (.homeLoad o.id a.lane lease false) s = .next t ∧ t.dev.mem = s.dev.mem ∧ t.dev.sectors = s.dev.sectors ∧
      t.dev.locmem = s.dev.locmem ∧ Performed s t o a.lane (s.dev.readGlob o.ctx pa a.n).1) ∧
  (∀ (s : State) (o : MemOp) (a : LaneAcc) (pa : Nat), NextAccess s o a → memOk s → o.kind = .store → a.loc = .glob pa →
    Sound s o.ctx pa a.data.length →
    ∃ t, exec (.storePerform o.id a.lane) s = .next t ∧ t.dev.locmem = s.dev.locmem ∧ StoresAt s t o.ctx pa a.data) ∧
  (∀ (s : State) (o : MemOp) (lane : Nat), s.dev.op? o.id = some o → o.kind = .spill →
    ∃ t, exec (.storePerform o.id lane) s = .next t ∧ t.dev.op? o.id = none ∧ t.dev.mem = s.dev.mem ∧ t.dev.locmem = s.dev.locmem) ∧
  (∀ (s : State) (o : MemOp) (a : LaneAcc) (op : AtOp) (d : VReg) (pa : Nat), NextAccess s o a → memOk s → o.kind = .atom op d →
    a.loc = .glob pa → a.n = (if op = .addI64 then 8 else 4) → Sound s o.ctx pa a.n →
    let old := (s.dev.readGlob o.ctx pa a.n).1
    ∃ t, exec (.homeAtomic o.id a.lane) s = .next t ∧ t.dev.locmem = s.dev.locmem ∧ Performed s t o a.lane old ∧
      StoresAt s t o.ctx pa (leBytes a.n (atomicResult op (leNat old) (field a.data 0 8) (field a.data 8 4))))) ∧
  ((∀ (s : State) (o : MemOp) (w : LdW) (d : VReg) (x : Wave), s.dev.op? o.id = some o → o.kind = .load w d →
    s.dev.wave? o.wave = some x → (o.lanes.map (·.lane)).Nodup → (∀ a ∈ o.lanes, ∃ time bytes, a.st = .done time bytes) →
    ∃ t y, exec (.loadComplete o.id) s = .next t ∧ t.dev.op? o.id = none ∧ t.dev.mem = s.dev.mem ∧ t.dev.locmem = s.dev.locmem ∧
      t.dev.wave? o.wave = some y ∧ y.m = x.m ∧ y.strands = x.strands ∧ y.lts = x.lts ∧
      (∀ a ∈ o.lanes, ∀ time bytes, a.st = .done time bytes → ∀ j < (ldWidth w).2, ∀ r, x.v[d.toNat + j]? = some r →
        a.lane < r.length → (y.v[d.toNat + j]?).bind (·[a.lane]?) = some (loaded w bytes j)) ∧
      (∀ v l, ((v < d.toNat ∨ d.toNat + (ldWidth w).2 ≤ v) ∨ ∀ a ∈ o.lanes, a.lane ≠ l) →
        (y.v[v]?).bind (·[l]?) = (x.v[v]?).bind (·[l]?))) ∧
  (∀ (s : State) (n : Nat) (o : MemOp) (a : LaneAcc) (rest : List LaneAcc) (x : Wave) (b : Block) (c : Nat),
    s.dev.reports.find? (fun r => s.dev.reportWave r == n) = some o → s.dev.wave? n = some x → s.dev.block? x.block = some b →
    x.live = true → x.busy = false → x.inHandler = false → x.tvec ≠ 0 →
    (s.dev.core b.core).claims.any (·.1 == x.id) = false → s.dev.asksFor x.id = false → o.failures = a :: rest → a.st = .failed c →
    ∃ m : LaneMask, (∀ l, l < 32 → (m.getLsbD l = true ↔ ∃ e ∈ o.failures, e.lane = l)) ∧
      exec (.deferredReport n) s = .next { s with dev := { s.dev with
        reports := s.dev.reports.filter (·.id != o.id)
        waves := s.dev.waves.map fun y => if y.id = n
          then entersHandler c { y with fault := if c ∈ [cXlate, cRights, cAlign, cIntegrity, cPairtimeout]
            then ⟨BitVec.ofNat 64 a.ea, c, m, o.pc, true⟩ else y.fault } else y } }))

/-! ## Copies (06) -/

namespace Sys2Proof.Claims

/-- The copy instructions by form. -/
def copyInstr : CopyForm → CopyOps → Instr
  | .g2a => .tcpyG2a
  | .g2w => .tcpyG2w
  | .a2g => .tcpyA2g
  | .g2l => .tcpyG2l
  | .l2g => .tcpyL2g
  | .g2g => .tcpyG2g
  | .g2gStamp => .tcpyG2gStamp

/-- The conditions of R192 on a copy's operands: a tag of the block, a byte barrier in the block's scratchpad, a stamp that
may be written. -/
def CopyOperands (s : State) (k : Issue) (form : CopyForm) (o : CopyOps) : Prop :=
  (∀ t, o.tag = some t → t.toNat < k.block.ntags) ∧
    (if form = .g2gStamp then ∃ l, s.dev.checkGlobal k.core k.ctx (k.rd o.sd).toNat 8 needW false = .ok l
     else o.sd = 0 ∨ ((k.rd o.sd).toNat % 16 = 0 ∧ (k.rd o.sd).toNat + 16 ≤ k.block.scratch.len))

/-- What a copy holds at issue: its operands' values in the gang's lowest strand (R191). -/
def HoldsOperands (k : Issue) (form : CopyForm) (o : CopyOps) (c : Copy) : Prop :=
  c.form = form ∧ c.recA = (k.rd o.sa).toNat ∧ c.recB = (k.rd o.sb).toNat ∧ c.off = (k.rd o.sb).toNat ∧
    c.coords = ((List.range 5).map fun i => if o.sc = 0 then 0
      else (k.rd (o.sc + BitVec.ofNat 6 (i / 2))).toNat / 2 ^ (32 * (i % 2)) % 2 ^ 32) ∧
    c.tag = o.tag.map (·.toNat) ∧
    c.bar = (if form = .g2gStamp ∨ o.sd = 0 then none else some (k.block.scratch.base + (k.rd o.sd).toNat)) ∧
    c.stamp = (if form = .g2gStamp then some (k.rd o.sd).toNat else none) ∧
    c.gang = k.gang ∧ c.pc = k.pc ∧ c.next = 0 ∧ c.pieces = [] ∧ c.whole = none ∧ c.skipped = false

/-- The words of a fault entry (Table 6-6). -/
def entryWord (e : FaultEntry) (i : Nat) : Word :=
  let co (i : Nat) : Nat := (e.coords[i]?).getD 0
  BitVec.ofNat 64 (match i with
    | 0 => 2 ^ 63 + e.slot * 2 ^ 56 + e.recAddr % 2 ^ 56
    | 1 => co 1 * 2 ^ 32 + co 0
    | 2 => co 3 * 2 ^ 32 + co 2
    | _ => co 4 * 2 ^ 32 + e.write.toNat * 2 ^ 28 + e.wave * 2 ^ 22 + e.cause * 2 ^ 16 + e.piece)

/-- Registers `d` to `d + 3` of each strand of the gang hold these words, and the gang has passed a class D instruction. -/
def FourWords (k : Issue) (t : State) (d : SReg) (words : Nat → Word) : Prop :=
  ∃ w, t.dev.wave? k.wave.id = some w ∧ w.v = k.wave.v ∧ w.m = k.wave.m ∧
    ∀ u x, k.wave.strands[u]? = some x → inGang k.gang u = true → x.s.length = 64 →
      ∃ y, w.strands[u]? = some y ∧ y.pc = x.pc + 12 ∧ (∀ i < 4, y.s[d.toNat + i]? = some (words i)) ∧
        ∀ r, (r < d.toNat ∨ d.toNat + 4 ≤ r) → y.s[r]? = x.s[r]?

/-- Entry `e` is the one that a handle names: of the issuing block, read, in the slot of bits 59 to 56 (R200). -/
def Names (s : State) (k : Issue) (h : Word) (e : FaultEntry) : Prop :=
  h.getLsbD 63 = true ∧
    (s.dev.core k.core).fifo.find? (fun e => e.block == k.block.id && e.read && e.slot == h.toNat / 2 ^ 56 % 16) = some e

/-- The copy of a job. -/
def copyOf (t : State) (id : Nat) : Option Copy := (t.dev.job? id).bind (·.copy?)

/-- A resolution of a piece's fault completes: the entry leaves the FIFO, the piece is to go on as `st` says, nothing else of the
copy changes, no register but the PCs (R200). -/
def Resolves (s : State) (k : Issue) (i : Instr) (h : SReg) (ok : FaultEntry → Prop) (st : PieceSt) : Prop :=
  ∀ (e : FaultEntry) (j : Job) (c : Copy), Names s k (k.rd h) e → ok e → s.dev.job? e.job = some j → j.kind = .copy c →
    (e.piece ≠ 0xFFFF ∨ c.whole = none) →
    ∃ t, exec i s = .next t ∧ copyOf t e.job = some (c.setPiece e.piece st) ∧
      t.dev.waves = (gangStep s k fun _ x => passed 12 x).dev.waves ∧
      (t.dev.core k.core).fifo = (s.dev.core k.core).fifo.filter (fun y => !(y.slot == e.slot && y.block == e.block)) ∧
      t.dev.mem = s.dev.mem ∧ t.dev.locmem = s.dev.locmem

end Sys2Proof.Claims

/-- R191, R192: every copy form issues when its operands meet R192, the wave's `cp` and the context's checker have room, and the
times of the wave's earlier operations stand: a job with the operands' values joins, the tag is cleared, the gang goes on.
A tag that the block does not have raises RIGHTS; a byte barrier off its alignment ALIGN, outside the scratchpad RIGHTS; a
stamp that may not be written raises its cause (the first lane of the gang's lowest strand stands in FMASK: the model's
choice, log entry 103). Without room the gang waits. R199, R200: `cfpop` gives the oldest unread fault entry of the block and marks it read, or the handle 0 with the skipped
tags, which it clears. `cfrsm.retry`, `cfrsm.skip` and `cfrsm.fill` free the entry that the handle names and say how its piece
goes on, or, for a whole copy, that its records are read again or that it ends; a handle that names none, and a fill of a
write fault or of a whole copy, raise OBJECT. The model's choices: a stamp in host memory raises RIGHTS (log entry 26), and an
entry of piece 0xFFFF names the piece of that number where no whole-copy fault stands (log entry 38). -/
def Obligations.CopyInstructions : Prop :=
  (∀ (s : State) (k : Issue) (form : CopyForm) (o : CopyOps), s.dev.issuer? = some k →
    let gives (u : State) : Prop := ∃ t, exec (copyInstr form o) s = .next t ∧ Cached u t ∧ (form ≠ .g2gStamp → t = u)
    ((∃ t, o.tag = some t ∧ k.block.ntags ≤ t.toNat) →
      exec (copyInstr form o) s = .next (after s fun d => d.trap k cRights)) ∧
    ((∀ t, o.tag = some t → t.toNat < k.block.ntags) → form ≠ .g2gStamp → o.sd ≠ 0 → (k.rd o.sd).toNat % 16 ≠ 0 →
      exec (copyInstr form o) s = .next (after s fun d => d.trap k cAlign)) ∧
    ((∀ t, o.tag = some t → t.toNat < k.block.ntags) → form ≠ .g2gStamp → o.sd ≠ 0 → (k.rd o.sd).toNat % 16 = 0 →
      k.block.scratch.len < (k.rd o.sd).toNat + 16 →
      exec (copyInstr form o) s = .next (after s fun d => d.trap k cRights)) ∧
    ((∀ t, o.tag = some t → t.toNat < k.block.ntags) → form = .g2gStamp →
      ∀ e, s.dev.checkGlobal k.core k.ctx (k.rd o.sd).toNat 8 needW false = .error e →
      exec (copyInstr form o) s = .next (after s fun d =>
        (d.looked k.core k.ctx (k.rd o.sd).toNat).trapMem k e (k.rd o.sd) (1#32 <<< (4 * lowStrand k.gang)))) ∧
    (CopyOperands s k form o → 30 ≤ s.dev.cp k.wave.id ∨ 1024 ≤ (s.dev.jobs.filter (·.ctx == k.ctx.n)).length →
      gives (stays s k (.full .cp))) ∧
    (CopyOperands s k form o → s.dev.cp k.wave.id < 30 → (s.dev.jobs.filter (·.ctx == k.ctx.n)).length < 1024 →
      s.dev.settled k = true →
      ∃ (j : Job) (c : Copy), HoldsOperands k form o c ∧ j.id = s.dev.nextId ∧ j.kind = .copy c ∧ j.ctx = k.ctx.n ∧
        j.block = k.block.id ∧ j.wave = k.wave.id ∧ j.clock = k.wave.lts ∧ j.entered = false ∧
        gives (let t := gangStep s k fun _ x => passed 12 x
          { t with dev := { t.dev with
              nextId := s.dev.nextId + 1
              jobs := s.dev.jobs ++ [j]
              blocks := match o.tag with
                | none => s.dev.blocks
                | some i => s.dev.blocks.map fun b =>
                    if b.id = k.block.id then { b with tags := b.tags.filter (·.tag != i.toNat) } else b } }))) ∧
  (∀ (s : State) (k : Issue), s.dev.issuer? = some k →
    (∀ d : SReg, 1 ≤ d.toNat → d.toNat ≤ 60 →
      (∀ e, (s.dev.core k.core).fifo.find? (fun e => e.block == k.block.id && !e.read) = some e →
        ∃ t, exec (.cfpop d) s = .next t ∧ FourWords k t d (entryWord e) ∧ t.dev.blocks = s.dev.blocks ∧ t.dev.mem = s.dev.mem ∧
          (t.dev.core k.core).fifo = (s.dev.core k.core).fifo.map fun y =>
            if y.slot = e.slot ∧ y.block = e.block then { y with read := true } else y) ∧
      ((s.dev.core k.core).fifo.find? (fun e => e.block == k.block.id && !e.read) = none →
        ∃ t, exec (.cfpop d) s = .next t ∧ FourWords k t d (fun i => if i = 1 then k.block.skipTags else 0) ∧
          t.dev.cores = s.dev.cores ∧ t.dev.mem = s.dev.mem ∧
          t.dev.blocks = s.dev.blocks.map fun b => if b.id = k.block.id then { b with skipTags := 0 } else b)) ∧
    (∀ a : SReg, Resolves s k (.cfrsmRetry a) a (fun _ => True) .again ∧ Resolves s k (.cfrsmSkip a) a (fun _ => True) .skip) ∧
    (∀ (a : SReg) (e : FaultEntry) (j : Job) (c : Copy), Names s k (k.rd a) e → s.dev.job? e.job = some j → j.kind = .copy c →
      e.piece = 0xFFFF → c.whole.isSome = true →
      (∃ t, exec (.cfrsmRetry a) s = .next t ∧ t.dev.mem = s.dev.mem ∧
        copyOf t e.job = some { c with
          whole := none, layA := none, layB := none
          pieces := (c.pieces.filter (·.1 != recPieceA)).filter (·.1 != recPieceB) }) ∧
      (∃ t, exec (.cfrsmSkip a) s = .next t ∧ t.dev.job? e.job = none ∧ (c.stamp = none → t.dev.mem = s.dev.mem))) ∧
    (∀ a b : SReg, Resolves s k (.cfrsmFill a b) a (fun e => e.write = false) (.fill (k.rd b))) ∧
    (∀ a b : SReg, (∀ e, ¬ Names s k (k.rd a) e) → ∀ i, i = .cfrsmRetry a ∨ i = .cfrsmSkip a ∨ i = .cfrsmFill a b →
      exec i s = .next (after s fun d => d.trap k cObject)) ∧
    (∀ (a b : SReg) (e : FaultEntry), Names s k (k.rd a) e →
      (e.write = true ∨ (e.piece = 0xFFFF ∧ ∃ c, copyOf s e.job = some c ∧ c.whole.isSome = true)) →
      exec (.cfrsmFill a b) s = .next (after s fun d => d.trap k cObject)))

/-- R195, R196, R198, R276: FOOTPRINT_ENTER orders a job after the earlier jobs of its context whose footprints conflict with it,
a copy once its record has been read;
COPY_PIECE_ISSUE issues the next piece of a copy that may run and that the copy point has chosen (stated for a package without
servers); PIECE_LAND lands a piece whose writes have been performed, and completes the copy with the last one: the tag is set,
with its time, and the copy no longer counts; COPY_FAULT puts the fault into the core's FIFO and raises COPYFAULT. -/
def Obligations.CopySteps : Prop :=
  (∀ (s : State) (j : Job), s.dev.job? j.id = some j → j.entered = false → (∀ c, j.kind ≠ .copy c) →
    let earlier := s.dev.jobs.takeWhile (·.id != j.id)
    (∀ i ∈ earlier, i.ctx = j.ctx → i.entered = true) →
    (s.dev.jobs.filter fun i => i.ctx == j.ctx && i.entered).length < 1024 →
    ∃ t j', exec (.footprintEnter j.id) s = .next t ∧ t.dev.job? j.id = some j' ∧ j'.entered = true ∧ j'.kind = j.kind ∧
      j'.foot = j.foot ∧ ∀ n, n ∈ j'.after ↔ ∃ i ∈ earlier, i.id = n ∧ i.ctx = j.ctx ∧ ∃ x ∈ i.foot, ∃ y ∈ j.foot,
        x.space = y.space ∧ (x.write = true ∨ y.write = true) ∧ x.lo < y.hi ∧ y.lo < x.hi) ∧
  (∀ (s : State) (j : Job) (c : Copy) (b : Block) (x : Ctx) (d : Dev) (bs : List Byte) (la : Layout),
    s.dev.job? j.id = some j → j.kind = .copy c → s.dev.block? j.block = some b → s.dev.ctx? j.ctx = some x →
    j.entered = false → c.whole = none → c.skipAll = false → c.form.twoBoxes = false →
    (∀ i ∈ s.dev.jobs.takeWhile (·.id != j.id), i.ctx = j.ctx → i.entered = true) →
    (s.dev.jobs.filter fun i => i.ctx == j.ctx && i.entered).length < 1024 →
    s.dev.recordBytes j c b x recPieceA c.recA = (d, some (.ok bs)) → Layout.parse bs = some la →
    let c' : Copy := { c with
      layA := some la, layB := none, pieces := (c.pieces.filter (·.1 != recPieceA)).filter (·.1 != recPieceB) }
    c'.boxCheck b la none = none →
    ∃ t j', exec (.footprintEnter j.id) s = .next t ∧ t.dev.job? j.id = some j' ∧ j'.entered = true ∧ j'.kind = .copy c' ∧
      j'.foot = c'.foot b) ∧
  (∀ (s : State) (j : Job) (c : Copy) (b : Block) (x : Ctx) (p : Nat), s.dev.job? j.id = some j → j.kind = .copy c →
    s.dev.block? j.block = some b → s.dev.ctx? j.ctx = some x → s.dev.servers = [] → j.entered = true → j.after = [] →
    c.nextPiece = some p → (Point.copy (dieOf b.core), j.ctx) ∈ s.dev.picks →
    ∃ t c', exec (.copyPieceIssue j.id) s = .next t ∧ copyOf t j.id = some c' ∧ c'.piece? p = some (.issued [] none) ∧
      c'.next = max c.next (p + 1) ∧ (Point.copy (dieOf b.core), j.ctx) ∉ t.dev.picks ∧ t.dev.mem = s.dev.mem ∧
      t.dev.locmem = s.dev.locmem) ∧
  (∀ (s : State) (j : Job) (c : Copy) (p time : Nat) (got : List (Nat × List Byte)), s.dev.job? j.id = some j → j.kind = .copy c →
    (s.dev.block? j.block).isSome = true → (s.dev.ctx? j.ctx).isSome = true → s.dev.awaits j.id p = false →
    c.piece? p = some (.issued got (some time)) → p < recPieceA → c.bar = none →
    let rest := c.pieces.filter (·.1 != p)
    ((rest ≠ [] ∨ (c.skipAll = false ∧ c.next ≠ c.count)) →
      ∃ t, exec (.pieceLand j.id p) s = .next t ∧
        copyOf t j.id = some { c with pieces := rest, time := max c.time time } ∧ t.dev.mem = s.dev.mem ∧
        t.dev.locmem = s.dev.locmem ∧ t.dev.blocks = s.dev.blocks) ∧
    (rest = [] → (c.skipAll = true ∨ c.next = c.count) → c.stamp = none →
      ∃ t, exec (.pieceLand j.id p) s = .next t ∧ t.dev.job? j.id = none ∧ t.dev.mem = s.dev.mem ∧ t.dev.locmem = s.dev.locmem ∧
        ∀ i, c.tag = some i → ∃ b, t.dev.block? j.block = some b ∧
          b.tags.find? (·.tag == i) = some ⟨i, max (max c.time time) j.clock⟩) ∧
    exec (.pieceLand j.id (recPieceA + p)) s = .next s) ∧
  (∀ (s : State) (j : Job) (c : Copy) (b : Block) (w : Wave) (p cause : Nat) (write : Bool) (more : List Nat),
    s.dev.job? j.id = some j → j.kind = .copy c → s.dev.block? j.block = some b → b.susp = none →
    s.dev.newFaults j c b.core = p :: more → c.faultAt p = some (cause, write) → s.dev.wave? j.wave = some w →
    w ∈ s.dev.liveWaves b.id → w.tvec ≠ 0 → (s.dev.core b.core).fifo.length < 16 →
    ∃ t e, exec (.copyFault j.id) s = .next t ∧ (t.dev.core b.core).fifo = (s.dev.core b.core).fifo ++ [e] ∧
      e.job = j.id ∧ e.block = b.id ∧ e.piece = p ∧ e.cause = cause ∧ e.write = write ∧ e.coords = c.coords ∧ e.wave = w.idx ∧
      e.recAddr = (if write ∧ c.form.twoBoxes then c.recB else c.recA) ∧ e.read = false ∧
      ∃ w', t.dev.wave? j.wave = some w' ∧ w'.cause.getLsbD cCopyfault = true)

/-! ## Leases (07, 10) -/

namespace Sys2Proof.Claims

/-- Bits of ENGINES and KIND of a ticket (R204). -/
def kindNumber : EngKind → Nat
  | .tile => 0
  | .table => 1
  | .select => 2

/-- The ticket of request number `t` (R205): SEQ, which is not zero, and KIND. -/
def ticketOf (kd : EngKind) (t : Nat) : Word := BitVec.ofNat 64 ((t % (2 ^ 32 - 1) + 1) * 2 ^ 32 + kindNumber kd)

/-- Wake latency and charge from DARK (Tables 10-7, 10-8; charges in 24,000ths of a µJ), power in tenths of a watt. -/
def wakeOf : EngKind → Nat × Nat × Nat
  | .tile => (3600, 192000, 40)
  | .table => (1440, 24000, 7)
  | .select => (960, 12000, 6)

/-- The gang is the whole wave, and its block may kindle the kind (R22, R204). -/
def MayKindle (s : State) (k : Issue) (kd : EngKind) : Prop :=
  s.dev.issuer? = some k ∧ k.gang = k.wave.liveMask ∧ k.block.engines.getLsbD (kindNumber kd) = true

/-- Bit `c` of `%cause` is set in wave `id`. -/
def Told (t : State) (id c : Nat) : Prop := ∃ w, t.dev.wave? id = some w ∧ w.cause.getLsbD c = true

end Sys2Proof.Claims

/-- R204 to R207: `kindle` passes when the wave holds the engine and else queues a request and waits; `kindle.nb` queues a request
and gives its ticket, or the ticket of the wave's request; `douse` gives a held engine up, which becomes WARM when nobody waits
for it; `lstat` reads the state of a ticket. Part of a wave raises GANG, a kind outside ENGINES raises RIGHTS. -/
def Obligations.LeaseInstructions : Prop :=
  (∀ (s : State) (k : Issue) (kd : EngKind), MayKindle s k kd →
    let e := s.dev.engine k.core kd
    let r : Req := ⟨s.dev.ticket, k.wave.id, k.ctx.n, s.dev.clock, false, false, false⟩
    (e.holds k.wave.id = true → exec (.kindle kd) s = .next (gangStep s k fun _ x => passed 12 x)) ∧
    (e.holds k.wave.id = false → e.asked k.wave.id = false → e.queue.length < 16 →
      (∀ q ∈ e.queue, q.wenergy = false ∨ q.told = true) →
      ∃ t, exec (.kindle kd) s = .next t ∧ t.dev.engine k.core kd = { e with queue := e.queue ++ [r] } ∧
        t.dev.ticket = s.dev.ticket + 1 ∧ t.dev.waves = (stays s k (.kindle kd)).dev.waves) ∧
    (e.asked k.wave.id = false → e.queue.length < 16 → ∀ d : SReg,
      ∃ t, exec (.kindleNb d kd) s = .next t ∧ t.dev.engine k.core kd = { e with queue := e.queue ++ [r] } ∧
        t.dev.ticket = s.dev.ticket + 1 ∧ t.dev.waves = (wroteScalar s k 12 d fun _ => ticketOf kd s.dev.ticket).dev.waves) ∧
    (∀ q, (e.queue ++ e.holder.toList).find? (·.wave == k.wave.id) = some q → ∀ d : SReg,
      exec (.kindleNb d kd) s = .next (wroteScalar s k 12 d fun _ => ticketOf kd q.ticket))) ∧
  (∀ (s : State) (k : Issue) (kd : EngKind), s.dev.issuer? = some k →
    (k.gang ≠ k.wave.liveMask → ∀ i, i = .kindle kd ∨ (∃ d, i = .kindleNb d kd) ∨ i = .douse kd →
      exec i s = .next (after s fun d => d.trap k cGang)) ∧
    (k.gang = k.wave.liveMask → k.block.engines.getLsbD (kindNumber kd) = false → ∀ i, i = .kindle kd ∨ (∃ d, i = .kindleNb d kd) →
      exec i s = .next (after s fun d => d.trap k cRights)) ∧
    (k.gang = k.wave.liveMask → ∀ r, (s.dev.engine k.core kd).holder = some r → r.wave = k.wave.id →
      (s.dev.engine k.core kd).st = .leased → (s.dev.engine k.core kd).queue = [] →
      ∃ t, exec (.douse kd) s = .next t ∧ t.dev.waves = (gangStep s k fun _ x => passed 12 x).dev.waves ∧
        t.dev.engine k.core kd = { s.dev.engine k.core kd with
          st := .warm, holder := none, former := some r, formerAt := (s.dev.engine k.core kd).granted, idle := s.dev.clock })) ∧
  (∀ (s : State) (k : Issue) (kd : EngKind) (d a : SReg), s.dev.issuer? = some k → (k.rd a).toNat % 2 ^ 32 = kindNumber kd →
    let e := s.dev.engine k.core kd
    let reads (v : Nat) : Prop := ∃ t, exec (.lstat d a) s = .next t ∧
      t.dev.waves = (wroteScalar s k 12 d fun _ => BitVec.ofNat 64 v).dev.waves
    (∀ r, e.queue = [] → e.holder = some r → r.wave = k.wave.id → k.rd a = ticketOf kd r.ticket → e.st = .leased →
      reads (0xFF * 2 ^ 16 + 2 * 2 ^ 12 + 3)) ∧
    (∀ r, e.queue = [r] → r.wave = k.wave.id → k.rd a = ticketOf kd r.ticket → e.st = .dark →
      reads (r.wenergy.toNat * 2 ^ 9 + r.wpower.toNat * 2 ^ 8 + 1)) ∧
    (e.queue = [] → e.holder = none → e.notes = [] → e.st = .warm → reads (0xFF * 2 ^ 16 + 3 * 2 ^ 12)))

/-- R296 to R301, R210: LEASE_GRANT wakes a DARK engine for its only request when power and energy can be reserved; WAKE_DONE
makes it LEASED; WARM_TIMEOUT darkens an engine that has been idle for 48,000 cycles and has no operation; ALLOWANCE_CUT sets a
die's allowance, and evicts nothing while the power in use fits and no request waits; CLASS0_EVICT begins an eviction for a class-0 request that
would miss its deadline; ENGINE_STOPPED ends one: the contents are lost and LEASELOST is raised; ENERGY_PERIOD carries the
excess as a debt. -/
def Obligations.LeaseSteps : Prop :=
  (∀ (s : State) (core : Nat) (kd : EngKind) (r : Req) (c : Ctx), (s.dev.engine core kd).queue = [r] →
    (s.dev.engine core kd).st = .dark → s.dev.ctx? r.ctx = some c →
    s.dev.reservedPower (dieOf core) + (wakeOf kd).2.2 ≤ (s.dev.allow[dieOf core]?).getD 0 →
    (wakeOf kd).2.1 + 2400 * (wakeOf kd).2.2 ≤ c.energyLeft →
    ∃ t, exec (.leaseGrant core kd) s = .next t ∧ (t.dev.engine core kd).st = .waking ∧
      (t.dev.engine core kd).holder = some { r with wpower := false, wenergy := false } ∧
      (t.dev.engine core kd).till = s.dev.clock + (wakeOf kd).1 ∧
      t.dev.ctx? r.ctx = some { c with energy := c.energy + (wakeOf kd).2.1, spent := c.spent + (wakeOf kd).2.1 }) ∧
  (∀ (s : State) (core : Nat) (kd : EngKind) (r : Req), (s.dev.engine core kd).st = .waking →
    (s.dev.engine core kd).holder = some r → (s.dev.engine core kd).till ≤ s.dev.clock →
    ∃ t, exec (.wakeDone core kd) s = .next t ∧
      t.dev.engine core kd = { s.dev.engine core kd with st := .leased, since := s.dev.clock } ∧ t.dev.waves = s.dev.waves) ∧
  (∀ (s : State) (core : Nat) (kd : EngKind), (s.dev.engine core kd).core = core → (s.dev.engine core kd).kind = kd →
    (s.dev.engine core kd).st = .warm → (s.dev.engine core kd).holder = none →
    s.dev.engineJobs core kd = [] → (s.dev.engine core kd).idle + 48000 ≤ s.dev.clock →
    ∃ t, exec (.warmTimeout core kd) s = .next t ∧ (t.dev.engine core kd).st = .dark ∧ (t.dev.engine core kd).lut = [] ∧
      (t.dev.engine core kd).slots = [] ∧ t.dev.waves = s.dev.waves) ∧
  (∀ (s : State) (die dw : Nat), let a := min dw (s.mgmt.dieAllow die)
    die < s.dev.allow.length → s.dev.lastingPower die ≤ a → (∀ e ∈ s.dev.engines, dieOf e.core = die → e.queue = []) →
    exec (.allowanceCut die dw) s = .next { s with dev := { s.dev with allow := s.dev.allow.set die a } }) ∧
  (∀ (s : State) (core : Nat) (kd : EngKind) (r h : Req) (q : Server), let p := enginePoint core kd
    r ∈ (s.dev.engine core kd).queue → (s.dev.engine core kd).st = .leased → (s.dev.engine core kd).holder = some h →
    s.dev.server? r.ctx p = some q → q.args.cls = 0 → 0 < s.dev.classAt h.ctx p →
    q.period 0 - q.quota 0 * (if kd = .tile then 80 else if kd = .table then 16 else 64) < s.dev.clock - r.at_ →
    (match s.dev.server? h.ctx p with | some x => x.period 0 | none => 24000) ≤ s.dev.clock - (s.dev.engine core kd).since →
    ∃ t, exec (.class0Evict core kd) s = .next t ∧
      t.dev.engine core kd = { s.dev.engine core kd with st := .evicting, forPower := false } ∧ t.dev.waves = s.dev.waves) ∧
  (∀ (s : State) (core : Nat) (kd : EngKind) (h : Req) (w : Wave), (s.dev.engine core kd).st = .evicting →
    (s.dev.engine core kd).forPower = false → (s.dev.engine core kd).holder = some h → (s.dev.engine core kd).queue = [] →
    s.dev.engineJobs core kd = [] → s.dev.wave? h.wave = some w → w.live = true → w.tvec ≠ 0 →
    ∃ t, exec (.engineStopped core kd) s = .next t ∧ (t.dev.engine core kd).st = .warm ∧ (t.dev.engine core kd).holder = none ∧
      (t.dev.engine core kd).lut = [] ∧ (t.dev.engine core kd).slots = [] ∧
      (t.dev.engine core kd).notes = (s.dev.engine core kd).notes ++ [⟨h.ticket, h.wave, true⟩] ∧ Told t h.wave cLeaselost) ∧
  (∀ (s : State) (c : Ctx), s.dev.ctx? c.n = some c → c.period + 2400000 ≤ s.dev.clock →
    ∃ t, exec (.energyPeriod c.n) s = .next t ∧ t.dev.ctx? c.n = some { c with
      period := c.period + 2400000, debt := c.debt + c.spent - c.allow * 24000, spent := 0 })

/-! ## Tile, table and select engines (02, 07) -/

namespace Sys2Proof.Claims

/-- A job of an engine or collective, as an instruction of the issuing gang leaves it: not yet entered in the checker, at the
wave's clock. -/
def newJob (s : State) (k : Issue) (kind : JobKind) (foot : List Foot) : Job where
  id := s.dev.nextId
  ctx := k.ctx.n
  block := k.block.id
  wave := k.wave.id
  pc := k.pc
  gang := k.gang
  kind := kind
  foot := foot
  entered := false
  after := []
  clock := k.wave.lts

/-- The instruction has issued a job: the gang has passed it, the job stands last, the wave's issue counts are changed by `f`;
nothing else has changed. -/
def jobIssued (s : State) (k : Issue) (kind : JobKind) (foot : List Foot) (f : List Nat → List Nat) : State :=
  let t := waveStep s k fun w => { w with
    tokens := f w.tokens
    strands := w.strands.mapIdx fun u x => if inGang k.gang u then passed 12 x else x }
  { t with dev := { t.dev with nextId := s.dev.nextId + 1, jobs := s.dev.jobs ++ [newJob s k kind foot] } }

/-- The whole wave issues, the checker has room for its context, and the times of its earlier operations stand. -/
def MayIssueJob (s : State) (k : Issue) : Prop :=
  s.dev.issuer? = some k ∧ k.gang = k.wave.liveMask ∧ (s.dev.jobs.filter (·.ctx == k.ctx.n)).length < 1024 ∧
    s.dev.settled k = true

/-- The wave holds the lease of a kind at its core (R208). -/
def Leased (s : State) (k : Issue) (kd : EngKind) : Prop := (s.dev.engine k.core kd).holds k.wave.id = true

/-- A shape word (Table 7-3). -/
def shapeWord (mt nt kb ks : Nat) : Nat := mt + nt * 2 ^ 8 + kb * 2 ^ 16 + ks * 2 ^ 32

/-- A footprint of `n` bytes at an offset of a block's range. -/
def footAt (k : Issue) (sp : Space) (r : Range) (off n : Nat) (w : Bool) : Foot :=
  ⟨some (k.core, sp), r.base + off, r.base + off + n, w⟩

/-- Every page of a global image may be read here. -/
def ImageReadable (s : State) (k : Issue) (va n : Nat) : Prop := ∀ sp ∈ spans 4096 va n, ∃ l, s.dev.unitPlace k.core k.ctx sp.va needR = .ok l

/-- A select operation's operands meet R222. -/
def SelectOperands (k : Issue) (sa da size n m : Nat) : Prop :=
  1 ≤ n ∧ n ≤ 16384 ∧ sa % size = 0 ∧ da % size = 0 ∧ sa + size * n ≤ k.block.scratch.len ∧ da + m ≤ k.block.scratch.len ∧
    ((sa = da ∧ size * n = m) ∨ sa + size * n ≤ da ∨ da + m ≤ sa)

/-- The K-block at `pos` of a `tmma` (R57, R65): its rows and columns, read where they lie, added to an accumulator. -/
def blockAdded (s : State) (b : Block) (lut : List Lane) (f : Lane) (aa ba mt nt kb pos : Nat) (acc : List Lane) : List Lane :=
  let la := fmtBytes (fmtA f) (scA f)
  let lb := fmtBytes (fmtB f) (scB f)
  addBlock lut f ((List.range (16 * mt)).map fun i => (s.dev.readLoc b.core .abuf (b.abuf.base + aa + (i * kb + pos) * la) la).1)
    ((List.range (16 * nt)).map fun i => (s.dev.readLoc b.core .wbuf (b.wbuf.base + ba + (i * kb + pos) * lb) lb).1) acc

/-- The accumulator values of a block from an offset on. -/
def accAt (s : State) (b : Block) (da n : Nat) : List Lane :=
  (List.range n).map fun i => BitVec.ofNat 32 (leNat (s.dev.readLoc b.core .acc (b.acc.base + da + 4 * i) 4).1)

/-- `n` bytes of an image lie in this package's memory, may be read, pass their checks, and are these. -/
def ImageAt (s : State) (core : Nat) (x : Ctx) (va : Nat) (bytes : List Byte) : Prop :=
  ∀ sp ∈ spans 32 va bytes.length, ∃ pa, s.dev.unitPlace core x sp.va needR = .ok (.glob pa) ∧
    pa % 128 + sp.n ≤ 128 ∧ s.dev.readGlob x.n pa sp.n = ((bytes.drop sp.off).take sp.n, true)

/-- The operation runs at the head of its engine, and no context has a server: its next step begins at once. -/
def HeadOf (s : State) (core : Nat) (j : Job) : Prop := (∃ rest, s.dev.engineJobs core .tile = j :: rest) ∧ s.dev.servers = []

/-- The engine has gone on to an operation's step at `pos`, which ends when its cycles have passed. -/
def StepBegun (s t : State) (core : Nat) (j : Job) (o : TileOp) (pos : Nat) : Prop :=
  ∃ i, t.dev.job? j.id = some i ∧ j.clock ≤ i.clock ∧
    i.kind = .tile o pos (some (s.dev.clock + s.mgmt.islandTime s.dev.clock core (o.cycles pos))) none

/-- The grid of a `tcvt` form's format (R55, R67): mantissa bits, largest finite code, place of the sign, least exponent. -/
def cvtGrid : TcvtForm → Nat × Nat × Nat × Int
  | .bf16Rne | .bf16Sat => (7, 0x7F7F, 15, -133)
  | .f16Rne | .f16Sat => (10, 0x7BFF, 15, -24)
  | .e4m3Rne | .e4m3Sat => (3, 0x7E, 7, -9)
  | .e5m2Rne | .e5m2Sat => (2, 0x7B, 7, -16)

/-- The codes of a `tcvt` form for NaN and for infinities and overflow (Table 2-11). -/
def cvtCodes : TcvtForm → Nat × Nat × Nat
  | .bf16Rne => (0x7FC0, 0x7F80, 0xFF80)
  | .bf16Sat => (0x7FC0, 0x7F7F, 0xFF7F)
  | .f16Rne => (0x7E00, 0x7C00, 0xFC00)
  | .f16Sat => (0x7E00, 0x7BFF, 0xFBFF)
  | .e4m3Rne => (0x7F, 0x7F, 0x7F)
  | .e4m3Sat => (0x7F, 0x7E, 0xFE)
  | .e5m2Rne => (0x7E, 0x7C, 0xFC)
  | .e5m2Sat => (0x7E, 0x7B, 0xFB)

/-- A payload of an element list, 0 where there is none. -/
def payloadAt (l : List (Lane × List Byte)) (i : Nat) : Nat := leNat ((l[i]?.map (·.2)).getD [])

end Sys2Proof.Claims

/-- R208, R212, R216 to R218: the tile instructions issue when their wave holds the lease and the operands meet the rules: a job
with the operands and the footprint joins, and a `tmma` takes the wave's next token; `tstat` reads the wave's tile record.
Part of a wave raises GANG, a wave without the lease NOLEASE, lanes that disagree on the format FMTDIV. -/
def Obligations.TileInstructions : Prop :=
  (∀ (s : State) (k : Issue) (v : VReg) (d a b c : SReg) (f : Lane) (mt nt kb ks : Nat) (i : Instr) (form : TmmaForm),
    (i, form) ∈ [(Instr.tmma v d a b c, TmmaForm.plain), (.tmmaZ v d a b c, .zero), (.tmmaX2 v d a b c, .x2)] →
    MayIssueJob s k → Leased s k .tile → InWindow k [v.toNat] → s.dev.tl k.wave.id < 14 →
    activeLanes k ⟨false, 0⟩ ≠ [] → (∀ l ∈ activeLanes k ⟨false, 0⟩, s.dev.source k v.toNat l = f) → legalFormat f = true →
    (k.rd c).toNat = shapeWord mt nt kb ks → 1 ≤ mt → mt ≤ 16 → 1 ≤ nt → nt ≤ 16 → mt * nt ≤ (if form = .x2 then 32 else 64) →
    ks < kb → kb < 2 ^ 16 →
    let da := (k.rd d).toNat
    let aa := (k.rd a).toNat
    let ba := (k.rd b).toNat
    let na := 16 * mt * kb * fmtBytes (fmtA f) (scA f)
    let nb := 16 * nt * kb * fmtBytes (fmtB f) (scB f)
    da % 16 = 0 → aa % 16 = 0 → ba % 16 = 0 → aa + na ≤ k.block.abuf.len → ba + nb ≤ k.block.wbuf.len →
    da + 4 * (16 * mt) * (16 * nt) ≤ k.block.acc.len →
    exec i s = .next (jobIssued s k
      (.tile (.mma form f da aa ba mt nt kb ks (k.wave.tokens.headD 0 + 1)) ks none none)
      [footAt k .abuf k.block.abuf aa na false, footAt k .wbuf k.block.wbuf ba nb false,
        footAt k .acc k.block.acc da (4 * (16 * mt) * (16 * nt)) true]
      (fun l => l.set 0 (k.wave.tokens.headD 0 + 1)))) ∧
  (∀ (s : State) (k : Issue) (d c : SReg) (mt nt : Nat), MayIssueJob s k → Leased s k .tile → s.dev.tl k.wave.id < 14 →
    (k.rd c).toNat = shapeWord mt nt 0 0 → 1 ≤ mt → mt ≤ 16 → 1 ≤ nt → nt ≤ 16 → mt * nt ≤ 64 →
    let da := (k.rd d).toNat
    da % 16 = 0 → da + 4 * (16 * mt) * (16 * nt) ≤ k.block.acc.len →
    exec (.tzero d c) s = .next (jobIssued s k (.tile (.zero da mt nt) 0 none none)
      [footAt k .acc k.block.acc da (4 * (16 * mt) * (16 * nt)) true] (fun l => l)) ∧
    ∀ (f : TcvtForm) (b : SReg) (sc : BitVec 8), let ba := (k.rd b).toNat
      let n := cvtBytes f * ((16 * mt) * (16 * nt))
      ba % 16 = 0 → ba + n ≤ k.block.abuf.len →
      exec (.tcvt f b d c sc) s = .next (jobIssued s k (.tile (.cvt f ba da mt nt sc.toInt) 0 none none)
        [footAt k .acc k.block.acc da (4 * (16 * mt) * (16 * nt)) false, footAt k .abuf k.block.abuf ba n true] (fun l => l))) ∧
  (∀ (s : State) (k : Issue) (a : SReg), MayIssueJob s k → Leased s k .tile → s.dev.tl k.wave.id < 14 →
    (k.rd a).toNat % 2048 = 0 → ImageReadable s k (k.rd a).toNat 2048 →
    ∃ t, exec (.tdload a) s = .next t ∧ Cached (jobIssued s k (.tile (.dload (k.rd a).toNat) 0 none none)
      [⟨none, (k.rd a).toNat, (k.rd a).toNat + 2048, false⟩] (fun l => l)) t) ∧
  (∀ (s : State) (k : Issue) (d : SReg), s.dev.issuer? = some k → 1 ≤ d.toNat → d.toNat ≤ 62 →
    let r := k.wave.trec
    ∃ t, exec (.tstat d) s = .next t ∧ t.dev.waves = (gangStep s k fun _ x => passed 12 { x with
      s := (x.s.set d.toNat (BitVec.ofNat 64 (r.state * 2 ^ 62 + r.cause * 2 ^ 56 + r.form * 2 ^ 32 + r.token))).set (d.toNat + 1)
        (BitVec.ofNat 64 (r.kend * 2 ^ 32 + r.kstart * 2 ^ 16 + r.commit)) }).dev.waves) ∧
  (∀ (s : State) (k : Issue) (v : VReg) (d a b c : SReg), s.dev.issuer? = some k → InWindow k [v.toNat] →
    ∀ i, i = .tmma v d a b c ∨ i = .tmmaZ v d a b c ∨ i = .tmmaX2 v d a b c →
      (k.gang ≠ k.wave.liveMask → exec i s = .next (after s fun x => x.trap k cGang)) ∧
      (k.gang = k.wave.liveMask → ¬ Leased s k .tile → exec i s = .next (after s fun x => x.trap k cNolease)) ∧
      (k.gang = k.wave.liveMask → Leased s k .tile →
        (∃ l ∈ activeLanes k ⟨false, 0⟩, ∃ j ∈ activeLanes k ⟨false, 0⟩, s.dev.source k v.toNat l ≠ s.dev.source k v.toNat j) →
        exec i s = .next (after s fun x => x.trap k cFmtdiv)))

/-- R208, R219, R220, R222: the table and select instructions issue when their wave holds the lease and the operands meet the
rules; a select operation of no element goes on at once. -/
def Obligations.TableAndSelectInstructions : Prop :=
  (∀ (s : State) (k : Issue) (slot : BitVec 2) (a : SReg), MayIssueJob s k → Leased s k .table → s.dev.fx k.wave.id < 6 →
    (k.rd a).toNat % 16 = 0 → ImageReadable s k (k.rd a).toNat 4112 →
    ∃ t, exec (.ftload slot a) s = .next t ∧ Cached (jobIssued s k (.fx (.ftload slot.toNat (k.rd a).toNat) none)
      [⟨none, (k.rd a).toNat, (k.rd a).toNat + 4112, false⟩] (fun l => l.modify 1 (· + 1))) t) ∧
  (∀ (s : State) (k : Issue) (g : Guard) (d a : VReg) (slot : BitVec 2), MayIssueJob s k → Leased s k .table →
    s.dev.fx k.wave.id < 6 → InWindow k [d.toNat, a.toNat] →
    exec (.ftevl g d a slot) s = .next (jobIssued s k
      (.fx (.ftevl slot.toNat d ((activeLanes k g).map fun l => (l, s.dev.source k a.toNat l))) none) []
      (fun l => l.modify 1 (· + 1)))) ∧
  (∀ (s : State) (k : Issue) (d a b : SReg) (f : SelFlags), MayIssueJob s k → Leased s k .select → s.dev.fx k.wave.id < 6 →
    let size := if f.pair then 8 else 4
    let n := (k.rd b).toNat
    let da := (k.rd d).toNat
    let sa := (k.rd a).toNat
    let foot (m : Nat) : List Foot := [footAt k .scratch k.block.scratch sa (size * n) false, footAt k .scratch k.block.scratch da m true]
    let gives (i : Instr) (o : FxOp) (m : Nat) : Prop :=
      SelectOperands k sa da size n m → exec i s = .next (jobIssued s k (.fx o none) (foot m) fun l => l.modify 2 (· + 1))
    gives (.xsort d a b f) (.sort da sa n f) (size * n) ∧ gives (.xscan d a b f) (.scan da sa n f) (size * n) ∧
    (∀ c : SReg, 1 ≤ (k.rd c).toNat → (k.rd c).toNat ≤ n →
      gives (.xtopk d a b c f) (.topk da sa n (k.rd c).toNat f) (size * (k.rd c).toNat)) ∧
    (n = 0 → sa % size = 0 → da % size = 0 → sa ≤ k.block.scratch.len → da ≤ k.block.scratch.len → sa ≤ da →
      exec (.xsort d a b f) s = .next (gangStep s k fun _ x => passed 12 x))) ∧
  (∀ (s : State) (k : Issue) (d a b c : SReg) (f : SelFlags), s.dev.issuer? = some k →
    ∀ i, i = .xsort d a b f ∨ i = .xscan d a b f ∨ i = .xtopk d a b c f →
      (k.gang ≠ k.wave.liveMask → exec i s = .next (after s fun x => x.trap k cGang)) ∧
      (k.gang = k.wave.liveMask → ¬ Leased s k .select → exec i s = .next (after s fun x => x.trap k cNolease)))

/-- R202, R212, R213, R216, R217, R219 to R223, R302: TILE_OP_START starts the operation at the head of a leased tile engine
(stated without servers, when no other core of its group waits); TILE_COMMIT adds one K-block, or two of the `x2` form, to the
accumulators, writes the tile record, and begins the next step or ends; TCVT_STEP zeroes, converts the next values and goes on
or ends, or loads the table of codes; FX_OP_COMPLETE writes an evaluation's lanes, the sorted, first or summed elements, or
loads a slot. The conversion of R67 and the sums of R223 are stated by their values. -/
def Obligations.EngineSteps : Prop :=
  (∀ (s : State) (core : Nat) (j : Job) (rest : List Job) (o : TileOp) (pos : Nat), s.dev.engineJobs core .tile = j :: rest →
    s.dev.job? j.id = some j → j.kind = .tile o pos none none → j.entered = true → j.after = [] →
    (s.dev.engine core .tile).st = .leased → s.dev.servers = [] → s.dev.surge = [] →
    (∀ c ∈ s.dev.surgeWait, surgeGroup c = surgeGroup core → c = core) →
    ∃ t, exec (.tileOpStart core) s = .next t ∧
      t.dev.job? j.id = some { j with kind := .tile o pos (some (s.dev.clock + s.mgmt.islandTime s.dev.clock core (o.cycles pos))) none } ∧
      t.dev.surge = [(surgeGroup core, s.dev.clock)] ∧ t.dev.mem = s.dev.mem ∧ t.dev.locmem = s.dev.locmem) ∧
  (∀ (s : State) (core : Nat) (j : Job) (b : Block) (w : Wave) (form : TmmaForm) (f : Lane) (da aa ba mt nt kb ks tok pos till : Nat),
    memOk s → let o : TileOp := .mma form f da aa ba mt nt kb ks tok
    s.dev.runningTile core = some (j, o, pos, till, none) → 0 < till → till ≤ s.dev.clock →
    s.dev.block? j.block = some b → s.dev.wave? j.wave = some w → s.dev.poison = [] →
    let two := form = .x2 ∧ pos + 1 < kb
    let next := if two then pos + 2 else pos + 1
    let adds := blockAdded s b (s.dev.engine core .tile).lut f aa ba mt nt kb
    let start := if form = .zero ∧ pos = ks then List.replicate (256 * mt * nt) 0 else accAt s b da (256 * mt * nt)
    (kb ≤ next ∨ HeadOf s core j) →
    ∃ t w', exec (.tileCommit core) s = .next t ∧ t.dev.mem = s.dev.mem ∧
      (t.dev.readLoc b.core .acc (b.acc.base + da) (1024 * mt * nt)).1 =
        (if two then adds (pos + 1) (adds pos start) else adds pos start).flatMap (fun x => leBytes 4 x.toNat) ∧
      t.dev.wave? j.wave = some w' ∧ w'.trec = ⟨if kb ≤ next then 2 else 1, 0x3F,
        match form with | .plain => 0 | .zero => 1 | .x2 => 2, tok, kb, ks, next⟩ ∧
      if kb ≤ next then t.dev.job? j.id = none else StepBegun s t core j o next) ∧
  (∀ (s : State) (core : Nat) (j : Job) (b : Block) (da mt nt till : Nat) (stop : Option Nat), memOk s →
    s.dev.runningTile core = some (j, .zero da mt nt, 0, till, stop) → 0 < till → till ≤ s.dev.clock →
    s.dev.block? j.block = some b → (s.dev.ctx? j.ctx).isSome = true →
    ∃ t, exec (.tcvtStep core) s = .next t ∧ t.dev.job? j.id = none ∧ t.dev.mem = s.dev.mem ∧
      (t.dev.readLoc b.core .acc (b.acc.base + da) (1024 * mt * nt)).1 = List.replicate (1024 * mt * nt) 0) ∧
  (∀ (s : State) (core : Nat) (j : Job) (b : Block) (f : TcvtForm) (ba da mt nt pos till : Nat) (sc : Int) (stop : Option Nat), memOk s →
    let o : TileOp := .cvt f ba da mt nt sc
    s.dev.runningTile core = some (j, o, pos, till, stop) → 0 < till → till ≤ s.dev.clock → s.dev.block? j.block = some b →
    (s.dev.ctx? j.ctx).isSome = true → s.dev.poison = [] →
    let n := min 4096 (256 * mt * nt - pos)
    (256 * mt * nt ≤ pos + n ∨ HeadOf s core j) →
    ∃ t, exec (.tcvtStep core) s = .next t ∧ t.dev.mem = s.dev.mem ∧
      (t.dev.readLoc b.core .abuf (b.abuf.base + ba + cvtBytes f * pos) (cvtBytes f * n)).1 =
        ((accAt s b (da + 4 * pos) n).flatMap fun x => leBytes (cvtBytes f) (cvtAcc f sc x)) ∧
      if 256 * mt * nt ≤ pos + n then t.dev.job? j.id = none else StepBegun s t core j o (pos + n)) ∧
  (∀ (f : TcvtForm) (sc : Int) (a : Lane), (IsNaN a → cvtAcc f sc a = (cvtCodes f).1) ∧
    (∀ neg, cvtAcc f sc (infLane neg) = if neg then (cvtCodes f).2.2 else (cvtCodes f).2.1) ∧
    ∀ x, dec32 a = .fin x → NarrowRounds (cvtGrid f).1 (cvtGrid f).2.1 (cvtGrid f).2.2.1 (cvtGrid f).2.2.2
      (cvtAcc f sc (infLane x.neg)) { x with e := x.e + sc } (cvtAcc f sc a)) ∧
  (∀ (s : State) (core : Nat) (j : Job) (b : Block) (x : Ctx) (va till : Nat) (stop : Option Nat) (bytes : List Byte),
    s.dev.runningTile core = some (j, .dload va, 0, till, stop) → 0 < till → till ≤ s.dev.clock → s.dev.block? j.block = some b →
    s.dev.ctx? j.ctx = some x → bytes.length = 2048 → ImageAt s core x va bytes →
    ∃ t, exec (.tcvtStep core) s = .next t ∧ t.dev.job? j.id = none ∧ t.dev.mem = s.dev.mem ∧ t.dev.locmem = s.dev.locmem ∧
      (t.dev.engine core .tile).lut = (List.range 512).map fun i => BitVec.ofNat 32 (leNat ((bytes.drop (4 * i)).take 4))) ∧
  (∀ (s : State) (j : Job) (b : Block) (slot : Nat) (v : VReg) (args out : List (Nat × Lane)) (w : Wave), s.dev.job? j.id = some j →
    j.kind = .fx (.ftevl slot v args) (some out) → s.dev.block? j.block = some b → (s.dev.ctx? j.ctx).isSome = true →
    s.dev.wave? j.wave = some w →
    ∃ t w', exec (.fxOpComplete j.id) s = .next t ∧ t.dev.job? j.id = none ∧ t.dev.mem = s.dev.mem ∧ t.dev.locmem = s.dev.locmem ∧
      t.dev.wave? j.wave = some w' ∧ w'.m = w.m ∧ w'.strands = w.strands ∧ w'.doneFx = max w.doneFx j.clock ∧
      ∀ r l x, (w.v[r]?).bind (·[l]?) = some x → (w'.v[r]?).bind (·[l]?) =
        some (if r = v.toNat then ((out.find? (·.1 == l)).map (·.2)).getD x else x)) ∧
  (∀ (s : State) (j : Job) (b : Block) (x : Ctx) (slot va : Nat) (out : List (Nat × Lane)) (bytes : List Byte), s.dev.job? j.id = some j →
    j.kind = .fx (.ftload slot va) (some out) → s.dev.block? j.block = some b → s.dev.ctx? j.ctx = some x → bytes.length = 4112 →
    ImageAt s b.core x va bytes →
    ∃ t, exec (.fxOpComplete j.id) s = .next t ∧ t.dev.job? j.id = none ∧ t.dev.mem = s.dev.mem ∧ t.dev.locmem = s.dev.locmem ∧
      ((t.dev.engine b.core .table).slots.find? fun q => q.1 == slot) = (if slotOk bytes then some (slot, bytes) else none) ∧
      ∀ n, n ≠ slot → ((t.dev.engine b.core .table).slots.find? fun q => q.1 == n) =
        ((s.dev.engine b.core .table).slots.find? fun q => q.1 == n)) ∧
  (∀ (s : State) (j : Job) (b : Block) (da sa n k : Nat) (f : SelFlags) (out : List (Nat × Lane)), memOk s →
    s.dev.job? j.id = some j → s.dev.block? j.block = some b → (s.dev.ctx? j.ctx).isSome = true → s.dev.poison = [] →
    let size := if f.pair then 8 else 4
    let old := elementsOf f n (s.dev.readLoc b.core .scratch (b.scratch.base + sa) (size * n)).1
    let sorted := sortKeys (selBefore f) old
    k ≤ n → ∀ o m (l : List (Lane × List Byte)),
      (o, m, l) ∈ [(FxOp.sort da sa n f, n, sorted), (.topk da sa n k f, k, sorted.take k), (.scan da sa n f, n, scanKeys f [] old)] →
      j.kind = .fx o (some out) →
      ∃ t, exec (.fxOpComplete j.id) s = .next t ∧ t.dev.job? j.id = none ∧ t.dev.mem = s.dev.mem ∧
        (t.dev.readLoc b.core .scratch (b.scratch.base + da) (size * m)).1 = elementBytes l) ∧
  (∀ (f : SelFlags) (l : List (Lane × List Byte)) (i j : Nat) (x : Lane × List Byte), l[i]? = some x → j ≤ i →
    (j = 0 ∨ (f.seg = true ∧ payloadAt l j ≠ 0)) → (f.seg = true → ∀ m, j < m → m ≤ i → payloadAt l m = 0) →
    (f.seg = false → j = 0) →
    let keys := ((l.take (i + 1)).drop j).map (·.1)
    (scanKeys f [] l)[i]? = some (if f.key = .f32 then sumFp (keys.map dec32) else BitVec.ofNat 32 (keys.map (·.toNat)).sum, x.2)) ∧
  (∀ (f : SelFlags) (l : List (Lane × List Byte)), (sortKeys (selBefore f) l).Perm l ∧
    (f.key ≠ .f32 → (sortKeys (selBefore f) l).Pairwise fun x y => selBefore f y.1 x.1 = false))

/-! ## Collectives (07, 09, 12) -/

namespace Sys2Proof.Claims

/-- What most steps of other units leave alone: waves, blocks, every byte, the management processor. -/
def Apart (s t : State) : Prop :=
  t.dev.waves = s.dev.waves ∧ t.dev.blocks = s.dev.blocks ∧ t.dev.mem = s.dev.mem ∧ t.dev.sectors = s.dev.sectors ∧
    t.dev.locmem = s.dev.locmem ∧ t.mgmt = s.mgmt

/-- `n` bytes lie together in the package's own memory, may be read, pass their checks, and are these. -/
def BytesAt (s : State) (k : Issue) (va n : Nat) (bytes : List Byte) : Prop :=
  ∃ pa, (∀ i < n, s.dev.unitPlace k.core k.ctx (va + i) needR = .ok (.glob (pa + i))) ∧
    s.dev.readGlob k.ctx.n pa n = (bytes, true)

/-- The same of a record of `n` bytes at its alignment. -/
def RecordAt (s : State) (k : Issue) (va n : Nat) (bytes : List Byte) : Prop := va % n = 0 ∧ BytesAt s k va n bytes

/-- The state once addresses have been looked up for the issuing gang, as reading a record does with its pages (R258). -/
def lookedUp (s : State) (k : Issue) (vas : List Nat) : State := { s with dev := s.dev.lookedAll k.core k.ctx vas }

/-- A word that the device will write lies at an address that may be written, or the address is zero. -/
def WordOk (s : State) (k : Issue) (va : Nat) : Prop := va = 0 ∨ ∃ l, s.dev.checkGlobal k.core k.ctx va 8 needW false = .ok l

/-- The wave has read a record: its clock stands at `time`, and it has passed a class D instruction. -/
def hasRead (s : State) (k : Issue) (time : Nat) : State :=
  waveStep s k fun w => { w.adopt time with strands := w.strands.mapIdx fun u x => if inGang k.gang u then passed 12 x else x }

/-- A collective that stands last in its queue at a time: its descriptor, nothing entered. -/
def Posted (c : Coll) (x : CollQueue) (d : Desc) (time : Nat) (launch : Option Nat) : Prop :=
  c.ctx = x.ctx ∧ c.q = x.q ∧ c.comm = x.comm ∧ c.desc = d ∧ c.time = time ∧ c.launch = launch ∧ c.step = 0 ∧ c.begun = false ∧
    c.ready = [] ∧ c.work = [] ∧ c.own = [] ∧ c.paid = none ∧ c.seq = x.posts.length

/-- No write of the device's own for a context waits to be performed. -/
def NothingOwed (s : State) (ctx : Nat) : Prop :=
  (∀ o ∈ s.dev.owed, o.ctx ≠ ctx) ∧ ∀ r ∈ s.dev.remotes, r.job ≠ some (owedReader, 0, ctx)

/-- `n` bytes of the package's own memory stand here that the device may write for a context, with nothing before them. -/
def DeviceAt (s : State) (ctx va pa n : Nat) : Prop :=
  NothingOwed s ctx ∧ ∃ x, s.dev.ctx? ctx = some x ∧ s.dev.quiet x = false ∧ s.dev.access 0 x va needW = .ok (.glob pa) ∧ Sound s ctx pa n

/-- A collective has entered a step. -/
def InStep (s : State) (c : Coll) (x : CollStep) : Prop := s.dev.coll? c.id = some c ∧ c.begun = true ∧ c.now = x

/-- Nobody waits for buffers at the collective's engine. -/
def NoWaits (s : State) (c : Coll) : Prop := ∀ x ∈ s.dev.collsAt c.engine, x.asks = [] ∧ x.cleared = []

end Sys2Proof.Claims

/-- R224, R225, R227: `cpost` appends the collective of a valid descriptor to its queue at the time at which the descriptor has
been read, with its job, and the wave goes on; `ctrig` does so when the counter word has reached the threshold, and else keeps
a triggered operation. Part of a wave raises GANG, a misaligned descriptor ALIGN, a queue that does not exist RIGHTS. -/
def Obligations.CollectiveInstructions : Prop :=
  (∀ (s : State) (k : Issue) (a : SReg) (q : BitVec 4) (bytes : List Byte) (x : CollQueue), MayIssueJob s k →
    RecordAt s k (k.rd a).toNat 64 bytes → s.dev.queue? k.ctx.n q.toNat = some x → descOk bytes x.comm.size false = true →
    let m := lookedUp s k [(k.rd a).toNat]
    WordOk m k (Desc.parse bytes).done → WordOk m k (Desc.parse bytes).status → s.dev.queueLength k.ctx.n q.toNat < 64 →
    ∃ t time c j, exec (.cpost a q) s = .next t ∧ k.wave.lts ≤ time ∧ t.dev.waves = (hasRead s k time).dev.waves ∧
      Posted c x (Desc.parse bytes) time none ∧ t.dev.colls = s.dev.colls ++ [c] ∧ t.dev.jobs = s.dev.jobs ++ [j] ∧
      j.id = c.id ∧ j.kind = .coll c.id ∧ j.clock = time ∧ j.entered = false ∧ t.dev.mem = s.dev.mem ∧ t.dev.locmem = s.dev.locmem) ∧
  (∀ (s : State) (k : Issue) (a b c : SReg) (bytes word : List Byte) (x : CollQueue) (pa : Nat), MayIssueJob s k →
    RecordAt s k (k.rd a).toNat 64 bytes → (Desc.parse bytes).queue ≤ 15 → s.dev.queue? k.ctx.n (Desc.parse bytes).queue = some x →
    descOk bytes x.comm.size true = true →
    let m := lookedUp s k [(k.rd a).toNat]
    WordOk m k (Desc.parse bytes).done → WordOk m k (Desc.parse bytes).status →
    (lookedUp m k ((target (Desc.parse bytes).done 8 ++ target (Desc.parse bytes).status 8).map (·.1))).dev.checkGlobal
      k.core k.ctx (k.rd b).toNat 8 needR false = .ok (.glob pa) → s.dev.readGlob k.ctx.n pa 8 = (word, true) →
    (s.dev.triggers.filter (·.ctx == k.ctx.n)).length < 64 → s.dev.queueLength k.ctx.n (Desc.parse bytes).queue < 64 →
    let thresh := (k.rd c).toNat % 2 ^ 48
    (thresh ≤ leNat word % 2 ^ 48 → ∃ t time time' y, exec (.ctrig a b c) s = .next t ∧ k.wave.lts ≤ time ∧ time ≤ time' ∧
      t.dev.waves = (hasRead s k time).dev.waves ∧ Posted y x (Desc.parse bytes) time' none ∧ t.dev.colls = s.dev.colls ++ [y] ∧
      t.dev.triggers = s.dev.triggers ∧ t.dev.mem = s.dev.mem ∧ t.dev.locmem = s.dev.locmem) ∧
    (leNat word % 2 ^ 48 < thresh → ∃ t time y, exec (.ctrig a b c) s = .next t ∧ k.wave.lts ≤ time ∧
      t.dev.waves = (hasRead s k time).dev.waves ∧ t.dev.triggers = s.dev.triggers ++ [y] ∧ y.ctx = k.ctx.n ∧ y.pa = pa ∧
      y.thresh = thresh ∧ y.desc = Desc.parse bytes ∧ y.clock = time ∧ t.dev.colls = s.dev.colls ∧ t.dev.jobs = s.dev.jobs ∧
      t.dev.mem = s.dev.mem ∧ t.dev.locmem = s.dev.locmem)) ∧
  (∀ (s : State) (k : Issue) (a b c : SReg) (q : BitVec 4), s.dev.issuer? = some k →
    ∀ i, i = .cpost a q ∨ i = .ctrig a b c →
      (k.gang ≠ k.wave.liveMask → exec i s = .next (after s fun d => d.trap k cGang)) ∧
      (k.gang = k.wave.liveMask → (k.rd a).toNat % 64 ≠ 0 →
        exec i s = .next (after s fun d => d.trapMem k cAlign (k.rd a) k.lowMask))) ∧
  (∀ (s : State) (k : Issue) (a : SReg) (q : BitVec 4) (bytes : List Byte), MayIssueJob s k → RecordAt s k (k.rd a).toNat 64 bytes →
    let m := lookedUp s k [(k.rd a).toNat]
    WordOk m k (Desc.parse bytes).done → WordOk m k (Desc.parse bytes).status → s.dev.queue? k.ctx.n q.toNat = none → k.wave.tvec ≠ 0 →
    k.wave.inHandler = false →
    ∃ t, exec (.cpost a q) s = .next t ∧ Told t k.wave.id cRights ∧ t.dev.colls = s.dev.colls ∧ t.dev.mem = s.dev.mem)

/-- R226, R342, R376, R396: COLL_STEP_ENTER enters the first step of the collective at the head of its queue and sends READY to
the rank that it will send to; COLL_READY keeps a READY for the step that will use it, lets a barrier's transfer come in, and
answers the READY of the present step with clear-to-sends while there is room; COLL_CTS takes a send buffer for a chunk;
COLL_CHUNK_RECEIVE keeps a chunk's bytes in its buffer; COLL_COMPLETE ends a collective: STATUS tells a failure, DONE rises by
DINC, and the collective leaves its queue and the checker; a failure leaves RECV open (R226; what is written is stated where
RECV has no element). A rank that disagrees with another of its package in its record or
descriptor fails with OBJECT, and a READY between ranks of a package reaches the collective at its engine's next choice (log
entry 99, the model's choice). -/
def Obligations.CollectiveSteps : Prop :=
  (∀ (s : State) (c : Coll) (j : Job) (x : CollStep) (rest : List CollStep), s.dev.coll? c.id = some c → s.dev.job? c.id = some j →
    (s.dev.colls.find? fun y => y.ctx == c.ctx && y.q == c.q).map (·.id) = some c.id → j.entered = true → j.after = [] →
    c.begun = false → c.step = 0 → c.ready = [] → collSteps c.desc c.comm.size c.comm.rank = x :: rest →
    s.dev.disagrees c = false →
    ∃ t c', exec (.collStepEnter c.id) s = .next t ∧ t.dev.coll? c.id = some c' ∧ c'.begun = true ∧ c'.step = 0 ∧ c'.now = x ∧
      c'.kept = false ∧ c'.time = max c.time j.clock ∧ c'.desc = c.desc ∧ c'.work = c.work ∧ c'.got = [] ∧ c'.sent = [] ∧
      t.dev.egress.map (·.pkt) = s.dev.egress.map (·.pkt) ++ (match x.sendTo with
        | none => []
        | some p => if c.desc.op ≠ 4 ∧ x.send = [] then [] else
          [⟨c.comm.vc, c.comm.ptag, ((c.comm.ranks[p]?).map (·.pkg)).getD 0, 1, c.q, .ready c.seq c.comm.rank (max c.time j.clock)⟩]) ∧
      Apart s t) ∧
  (∀ (s : State) (c : Coll) (peer clock : Nat), s.dev.coll? c.id = some c → c.begun = false →
    ∃ t, exec (.collReady c.id peer clock) s = .next t ∧ Apart s t ∧ t.dev.egress = s.dev.egress ∧
      t.dev.coll? c.id = some { c with ready := c.ready ++ [peer], time := max c.time clock }) ∧
  (∀ (s : State) (c : Coll) (x : CollStep) (peer clock : Nat), InStep s c x → c.ready = [] → x.recvFrom = some peer →
    (c.wantsReady = false → ∃ t, exec (.collReady c.id peer clock) s = .next t ∧ Apart s t ∧ t.dev.egress = s.dev.egress ∧
      t.dev.coll? c.id = some { c with ready := [peer], time := max c.time clock }) ∧
    (c.wantsReady = true → c.desc.op = 4 → ∃ t, exec (.collReady c.id peer clock) s = .next t ∧ Apart s t ∧ t.dev.egress = s.dev.egress ∧
      t.dev.coll? c.id = some { c with got := [0], time := max c.time clock }) ∧
    (c.wantsReady = true → c.desc.op ≠ 4 → c.chunks x.recv = 1 → NoWaits s c → s.dev.recvHeld c.engine + c.buffer x.recv 0 ≤ 8 * 2 ^ 20 →
      ∃ t c', exec (.collReady c.id peer clock) s = .next t ∧ Apart s t ∧ t.dev.coll? c.id = some c' ∧ c'.opened = [0] ∧
        c'.asks = [] ∧ c'.ready = [] ∧ c'.time = max c.time clock ∧ ∃ e, t.dev.egress = s.dev.egress ++ [e] ∧ e.ctx = c.ctx ∧
          e.pkt.vc = c.comm.vc ∧ e.pkt.ptag = c.comm.ptag ∧ e.pkt.flits = 1 ∧
          e.pkt.body = .cts c.seq c.comm.rank 0 (max c.time clock))) ∧
  (∀ (s : State) (c : Coll) (x : CollStep) (peer chunk clock : Nat), InStep s c x → x.sendTo = some peer →
    chunk < c.chunks x.send → chunk ∉ c.sent → chunk ∉ c.sends → NoWaits s c →
    s.dev.sendHeld c.engine + c.buffer x.send chunk ≤ 2 * 2 ^ 20 →
    ∃ t, exec (.collCts c.id peer chunk clock) s = .next t ∧ Apart s t ∧ t.dev.egress = s.dev.egress ∧
      t.dev.coll? c.id = some { c with sends := c.sends ++ [chunk], time := max c.time clock }) ∧
  (∀ (s : State) (c : Coll) (x : CollStep) (peer chunk clock : Nat) (bytes : List Byte), InStep s c x → x.recvFrom = some peer →
    chunk ∈ c.opened → (∀ y ∈ c.arrived, y.1 ≠ chunk) → bytes.length = c.chunkBytes x.recv chunk →
    ∃ t, exec (.collChunkReceive c.id peer chunk clock bytes) s = .next t ∧ Apart s t ∧ t.dev.egress = s.dev.egress ∧
      t.dev.coll? c.id = some { c with arrived := c.arrived ++ [(chunk, bytes)], time := max c.time clock }) ∧
  (∀ (s : State) (c : Coll) (cause rank posted : Nat), s.dev.coll? c.id = some c → memOk s → cause < 64 → rank < 1024 →
    c.desc.done = 0 →
    (∃ t, exec (.collComplete c.id (some (cause, rank)) posted) s = .next t ∧ t.dev.coll? c.id = none ∧ t.dev.job? c.id = none ∧
      t.dev.locmem = s.dev.locmem) ∧
    (c.desc.recvElems c.comm.size = 0 → c.desc.status = 0 → NothingOwed s c.ctx → ∃ t, exec (.collComplete c.id (some (cause, rank)) posted) s = .next t ∧ Apart s t ∧
      t.dev.coll? c.id = none ∧ t.dev.job? c.id = none) ∧
    (∀ pa, c.desc.recvElems c.comm.size = 0 → c.desc.status ≠ 0 → DeviceAt s c.ctx c.desc.status pa 8 →
      ∃ t, exec (.collComplete c.id (some (cause, rank)) posted) s = .next t ∧ t.dev.coll? c.id = none ∧ t.dev.job? c.id = none ∧
        t.dev.locmem = s.dev.locmem ∧ StoresAt s t c.ctx pa (leBytes 8 (2 ^ 63 + cause * 2 ^ 32 + rank)))) ∧
  (∀ (s : State) (c : Coll) (j : Job) (posted pa : Nat), s.dev.coll? c.id = some c → memOk s → s.dev.job? c.id = some j →
    (s.dev.colls.find? fun y => y.ctx == c.ctx && y.q == c.q).map (·.id) = some c.id → j.entered = true → j.after = [] →
    s.dev.nearPosts c ≠ none → c.begun = true → c.step + 1 = c.steps.length → c.stepDone = true → c.desc.resid = false → c.desc.status = 0 → c.desc.done ≠ 0 →
    DeviceAt s c.ctx c.desc.done pa 8 →
    let old := leNat (s.dev.readGlob c.ctx pa 8).1
    ∃ t, exec (.collComplete c.id none posted) s = .next t ∧ t.dev.coll? c.id = none ∧ t.dev.job? c.id = none ∧
      t.dev.locmem = s.dev.locmem ∧
      StoresAt s t c.ctx pa (leBytes 8 (old / 2 ^ 48 * 2 ^ 48 + (old + c.desc.dinc) % 2 ^ 48))) ∧
  (∀ (s : State) (c : Coll) (j : Job) (pa : Nat), s.dev.coll? c.id = some c → memOk s → s.dev.job? c.id = some j →
    (s.dev.colls.find? fun y => y.ctx == c.ctx && y.q == c.q).map (·.id) = some c.id → j.entered = true → j.after = [] →
    c.begun = false → c.step < c.steps.length → s.dev.disagrees c = true → c.comm.rank < 1024 → c.desc.done = 0 →
    c.desc.recvElems c.comm.size = 0 → c.desc.status ≠ 0 → DeviceAt s c.ctx c.desc.status pa 8 →
    ∃ t, exec (.collStepEnter c.id) s = .next t ∧ t.dev.coll? c.id = none ∧ t.dev.job? c.id = none ∧
      t.dev.locmem = s.dev.locmem ∧ StoresAt s t c.ctx pa (leBytes 8 (2 ^ 63 + cObject * 2 ^ 32 + c.comm.rank))) ∧
  (∀ (s : State) (c : Coll) (e : Egress) (name peer clock : Nat), s.dev.colls = [c] → s.dev.servers = [] → s.dev.egress = [e] →
    c.begun = false → e.home = some (c.ctx, c.q, c.seq) → e.pkt.body = .ready name peer clock →
    ∃ t, exec (.arbiterSelect (.coll c.engine)) s = .next t ∧ Apart s t ∧ t.dev.egress = [] ∧
      t.dev.colls = [{ c with ready := c.ready ++ [peer], time := max c.time clock }])

/-! ## Work creation, placement and ends (01, 04, 07, 10) -/

namespace Sys2Proof.Claims

/-- The issuing wave holds its lane and mask registers, and its gang has passed a class D instruction. -/
def WentOn (s t : State) (k : Issue) : Prop :=
  ∃ w, t.dev.wave? k.wave.id = some w ∧ w.v = k.wave.v ∧ w.m = k.wave.m ∧
    w.strands.map (fun x => (x.pc, x.s, x.exited)) = (k.wave.strands.mapIdx fun u x =>
      (if inGang k.gang u then x.pc + 12 else x.pc, x.s, x.exited)) ∧ t.dev.locmem = s.dev.locmem ∧ t.mgmt = s.mgmt

/-- The record asks for a plain launch: no graph, no predecessors, no bound collective. -/
def Plain (r : LaunchRec) : Prop := r.graph = 0 ∧ r.edges = 0 ∧ r.coll = 0

/-- The waves of the launch's blocks have handlers, and no two waves one number. -/
def Handled (s : State) (launch : Nat) : Prop :=
  (s.dev.waves.map (·.id)).Nodup ∧ ∀ w ∈ s.dev.waves, (∃ b ∈ s.dev.blocks, b.id = w.block ∧ b.launch = some launch) → w.tvec ≠ 0

/-- A wave of a placed launch, before its first instruction (R17, R31, Table 1-2). -/
def Fresh (w : Wave) (b : Block) (r : LaunchRec) (i time : Nat) : Prop :=
  w.block = b.id ∧ w.idx = i ∧ w.v.length = 8 * r.regs ∧ w.v.head? = some ((List.range 32).map (BitVec.ofNat 32)) ∧
    (∀ x ∈ w.v.tail, x = List.replicate 32 0) ∧ w.m = 0xFFFFFFFF :: List.replicate 15 0 ∧ w.cause = 0 ∧ w.tvec = r.tvec ∧
    w.lts = time ∧ w.inHandler = false ∧ w.strands.length = 8 ∧
    ∀ x ∈ w.strands, x.pc = r.code ∧ x.exited = false ∧ x.gang = 0xFF ∧ x.s.length = 64 ∧
      ∀ n, x.s[n]? = if n = 1 then some r.param else if n < 64 then some 0 else none

end Sys2Proof.Claims

/-- R41, R228 to R230, R235: `spawn` queues a child of the whole wave, whose launch's COUNT rises; `launch` accepts a valid
record: COUNT blocks to come, the completion object written; `cancel` marks the launch or level that has the handle, tells the
running waves and sets the deadline, and passes over a handle that nobody has; it reads the object at issue (R201), and goes on
where the object cannot be read (the model's choice, log entry 48). Part of a wave raises GANG, the depth limit
RIGHTS, a misaligned record ALIGN. -/
def Obligations.WorkInstructions : Prop :=
  (∀ (s : State) (k : Issue) (a b : SReg), s.dev.issuer? = some k → k.gang = k.wave.liveMask → s.dev.settled k = true →
    k.block.depth < 8 → (k.rd a).toNat < 2 ^ 56 → (s.dev.pending.filter fun p => p.isSpawn && p.ctx == k.ctx.n).length < 4096 →
    let child (id : Nat) : Pending := .spawn id k.ctx.n (dieOf k.core) (k.rd a) (k.rd b) (k.wave.v.length / 8) k.block.engines
      k.block.svc (k.block.depth + 1) k.block.launch k.wave.tvec k.wave.lts
    (k.block.launch = none → exec (.spawn a b) s = .next (let t := gangStep s k fun _ x => passed 12 x
      { t with dev := { t.dev with nextId := s.dev.nextId + 1, pending := s.dev.pending ++ [child s.dev.nextId] } })) ∧
    (∀ l pa, k.block.launch = some l.id → s.dev.launch? l.id = some l → memOk s → DeviceAt s l.ctx l.record.comp pa 16 →
      ∃ t, exec (.spawn a b) s = .next t ∧ WentOn s t k ∧ t.dev.pending = s.dev.pending ++ [child s.dev.nextId] ∧
        t.dev.launch? l.id = some { l with count := l.count + 1 } ∧
        StoresAt s t l.ctx pa (objBytes (l.count + 1) l.error l.cancelled 0))) ∧
  (∀ (s : State) (k : Issue) (a : SReg) (bytes : List Byte) (pa : Nat), s.dev.issuer? = some k → memOk s →
    k.gang = k.wave.liveMask → s.dev.settled k = true → k.block.depth < 8 → (k.rd a).toNat % 64 = 0 → BytesAt s k (k.rd a).toNat 128 bytes →
    launchOk bytes = true → let r := LaunchRec.parse bytes
    let m := lookedUp s k ((spans 4096 (k.rd a).toNat 128).map (·.va))
    Plain r → (∃ l, m.dev.checkGlobal k.core k.ctx r.comp 16 needRW false = .ok l) → DeviceAt (lookedUp m k [r.comp]) k.ctx.n r.comp pa 16 →
    (s.dev.launches.filter (·.ctx == k.ctx.n)).length < 4096 → (∀ l ∈ s.dev.launches, l.window = none) →
    ∃ t l, exec (.launch a) s = .next t ∧ WentOn s t k ∧ t.dev.launches = s.dev.launches ++ [l] ∧ l.ctx = k.ctx.n ∧ l.record = r ∧
      l.depth = k.block.depth + 1 ∧ l.count = r.gx * r.gy * r.gz ∧ l.next = 0 ∧ l.released = false ∧ l.cancelled = false ∧
      l.error = false ∧ l.preds = [] ∧ l.coll = none ∧ k.wave.lts ≤ l.time ∧
      l.window = (if r.knead = true ∧ r.teamsz = 0 then some s.dev.clock else none) ∧
      StoresAt s t k.ctx.n pa (objBytes (r.gx * r.gy * r.gz) false false 0)) ∧
  (∀ (s : State) (k : Issue) (a b : SReg), s.dev.issuer? = some k →
    (k.gang ≠ k.wave.liveMask → ∀ i, i = .spawn a b ∨ i = .launch a → exec i s = .next (after s fun d => d.trap k cGang)) ∧
    (k.gang = k.wave.liveMask → 8 ≤ k.block.depth → ∀ i, i = .spawn a b ∨ i = .launch a →
      exec i s = .next (after s fun d => d.trap k cRights)) ∧
    (k.gang = k.wave.liveMask → k.block.depth < 8 → (k.rd a).toNat % 64 ≠ 0 →
      exec (.launch a) s = .next (after s fun d => d.trapMem k cAlign (k.rd a) k.lowMask)) ∧
    (∀ l, (k.rd a).toNat % 16 ≠ 0 → exec (.cancel l a) s = .next (after s fun d => d.trapMem k cAlign (k.rd a) k.lowMask))) ∧
  (∀ (s : State) (k : Issue) (a : SReg), s.dev.issuer? = some k → s.dev.settled k = true → (k.rd a).toNat % 16 = 0 →
    (k.rd a).toNat < 2 ^ 56 → let h := (k.rd a).toNat
    (∀ l, s.dev.unitPlace k.core k.ctx h needR = .ok l → ∃ pa, l = .glob pa) →
    let passes (l : Lvl) : Prop := ∃ t time, exec (.cancel l a) s = .next t ∧ k.wave.lts ≤ time ∧
      t.dev.waves = (hasRead s k time).dev.waves ∧ t.dev.launches = s.dev.launches ∧ t.dev.levels = s.dev.levels ∧
      t.dev.blocks = s.dev.blocks ∧ t.dev.pending = s.dev.pending ∧ t.dev.mem = s.dev.mem ∧ t.dev.locmem = s.dev.locmem
    (s.dev.launches.find? (fun x => x.ctx == k.ctx.n && x.record.comp == h) = none → passes .launch) ∧
    (s.dev.level? k.ctx.n h = none → ∀ l, l ≠ .launch → passes l) ∧
    (∀ x pa, s.dev.launches.find? (fun x => x.ctx == k.ctx.n && x.record.comp == h) = some x → s.dev.launch? x.id = some x →
      memOk s → x.next = x.record.blocks → x.count ≠ 0 → x.cancelled = false → s.dev.pending = [] → (∀ y ∈ s.dev.launches, x.id ∉ y.preds) →
      s.dev.level? k.ctx.n x.record.graph = none → Handled s x.id → DeviceAt s k.ctx.n h pa 16 →
      ∃ t, exec (.cancel .launch a) s = .next t ∧ StoresAt s t k.ctx.n pa (objBytes x.count x.error true 0) ∧
        t.dev.launch? x.id = some { x with cancelled := true, released := true } ∧
        (∀ b, s.dev.block? b.id = some b → b.launch = some x.id →
          (b.deadline = none → (t.dev.block? b.id).bind (·.deadline) = some (s.dev.clock + k.ctx.cancelUs * 2400)) ∧
          ∀ id w, s.dev.wave? id = some w → w.block = b.id → w.live = true → Told t id cCancel)) ∧
    (∀ l kind x pa, (l, kind) ∈ [(Lvl.graph, LevelKind.graph), (.phase, .phase), (.job, .job)] → s.dev.level? k.ctx.n h = some x →
      x.kind = kind → memOk s → x.count ≠ 0 → x.cancelled = false → s.dev.level? k.ctx.n x.parent = none → (∀ y ∈ s.dev.levels, y.parent ≠ h) →
      (∀ y ∈ s.dev.launches, y.record.graph ≠ h) → DeviceAt s k.ctx.n h pa 16 →
      ∃ t, exec (.cancel l a) s = .next t ∧ WentOn s t k ∧ StoresAt s t k.ctx.n pa (objBytes x.count x.error true 0) ∧
        t.dev.level? k.ctx.n h = some { x with cancelled := true } ∧ t.dev.launches = s.dev.launches))

/-- R17, R31, R32, R39 to R41, R144, R145, R230, R231, R234, R293, R306, R310: BLOCK_PLACE places the next block of the one launch
that waits, with fresh waves and zeroed ranges; LAUNCH_RELEASE and KNEAD_WINDOW_CLOSE let a launch go; BLOCK_TRIGGER_EVENT counts
a block whose strands have all triggered or exited; BLOCK_END removes a block without live waves and decrements its launch,
whose last item ends it and releases its dependants; CANCEL_DEADLINE forces a block with live waves to exit, unless a `susp`
of it is in progress; HANDLER_ENTRY lets a wave enter its
handler, and what its unfinished instruction awaits from other packages is dropped; WATCHDOG tells a wave that has waited for 2 to the 28 cycles. -/
def Obligations.WorkSteps : Prop :=
  (∀ (s : State) (core : Nat) (l : Launch), s.dev.coreOpen core = true → (∀ w ∈ s.dev.waves, w.live = true → w.port ≠ none) → s.dev.pending = [] →
    s.dev.launches = [l] → l.released = true → l.preds = [] → l.next < l.record.blocks → s.dev.ctxOpen l.ctx = true →
    l.record.teamsz = 0 → s.dev.fits core l.record.footprint = true → 1 ≤ l.record.regs →
    let r := l.record
    ∃ t b ws, exec (.blockPlace core) s = .next t ∧ t.dev.blocks = s.dev.blocks ++ [b] ∧ t.dev.waves = s.dev.waves ++ ws ∧
      t.dev.launch? l.id = some { l with next := l.next + 1 } ∧ b.core = core ∧ b.ctx = l.ctx ∧ b.launch = some l.id ∧
      b.coord = BitVec.ofNat 64 (l.next % r.gx + l.next / r.gx % r.gy * 2 ^ 16 + l.next / (r.gx * r.gy) * 2 ^ 32) ∧
      b.scratch.len = r.scratch ∧ b.wbuf.len = r.wbuf ∧ b.abuf.len = r.abuf ∧ b.acc.len = r.acc ∧ b.ntags = r.tags ∧ b.tags = [] ∧
      b.depth = l.depth ∧ b.engines = r.engines ∧ b.svc = r.svc ∧ ws.length = r.waves ∧
      (∀ i w, ws[i]? = some w → Fresh w b r i l.time) ∧ t.dev.mem = s.dev.mem ∧
      ∀ sp a, (b.range sp).base ≤ a → a < (b.range sp).base + (b.range sp).len → cellGet (t.dev.locCells core sp) a = 0) ∧
  (∀ (s : State) (l : Launch), s.dev.launch? l.id = some l →
    (l.preds = [] → l.window = none →
      ∃ t, exec (.launchRelease l.id) s = .next t ∧ Apart s t ∧ t.dev.launch? l.id = some { l with released := true }) ∧
    (l.preds ≠ [] ∨ l.window ≠ none → ∃ t, exec (.launchRelease l.id) s = .next t ∧ Apart s t ∧ t.dev.launch? l.id = some l) ∧
    (∀ since, l.window = some since → since + 4800 ≤ s.dev.clock → (∀ c, s.dev.ctx? l.ctx = some c → c.stopped = false) →
      ∃ t, exec (.kneadWindowClose l.ctx) s = .next t ∧ Apart s t ∧ t.dev.launch? l.id = some { l with window := none })) ∧
  (∀ (s : State) (b : Block) (l : Launch) (pa : Nat), s.dev.block? b.id = some b → s.dev.liveWaves b.id = [] →
    s.dev.holdsBlock b.id = false → (∀ c, s.dev.ctx? b.ctx = some c → c.preempt = none) → b.launch = some l.id →
    s.dev.launch? l.id = some l → l.coll = none → memOk s → DeviceAt s l.ctx l.record.comp pa 16 →
    (1 < l.count → ∃ t l', exec (.blockEnd b.id) s = .next t ∧ t.dev.block? b.id = none ∧ (∀ w ∈ t.dev.waves, w.block ≠ b.id) ∧
      t.dev.launch? l.id = some l' ∧ l'.count = l.count - 1 ∧ l'.record = l.record ∧
      StoresAt s t l.ctx pa (objBytes (l.count - 1) l.error l.cancelled 0)) ∧
    (l.count = 1 → s.dev.level? l.ctx l.record.graph = none →
      ∃ t time, exec (.blockEnd b.id) s = .next t ∧ t.dev.block? b.id = none ∧ (∀ w ∈ t.dev.waves, w.block ≠ b.id) ∧
        t.dev.launch? l.id = none ∧ (∀ y ∈ t.dev.launches, l.id ∉ y.preds) ∧ b.time < time ∧
        StoresAt s t l.ctx pa (objBytes 0 l.error l.cancelled time))) ∧
  (∀ (s : State) (b : Block) (l : Launch), s.dev.block? b.id = some b → b.trigDone = false → b.launch = some l.id →
    s.dev.launch? l.id = some l → (∀ w ∈ s.dev.blockWaves b.id, ∀ x ∈ w.strands, x.triggered = true ∨ x.exited = true) →
    (∀ o ∈ s.dev.memops, o.id ∉ b.trigOps.getD []) → (∀ j ∈ s.dev.jobs, j.id ∉ b.trigOps.getD []) →
    ∃ t l', exec (.blockTriggerEvent b.id) s = .next t ∧ t.dev.block? b.id = some { b with trigDone := true } ∧
      t.dev.launch? l.id = some l' ∧ l'.trigs = l.trigs + 1 ∧ l'.trigTime = max l.trigTime b.trigTime ∧ l'.count = l.count ∧
      t.dev.waves = s.dev.waves ∧ t.dev.mem = s.dev.mem ∧
      (l.count ≤ l.trigs + 1 → l'.early.isSome = true ∧ ∀ y ∈ t.dev.launches, y.id ≠ l.id → l.id ∉ y.preds)) ∧
  (∀ (s : State) (b : Block) (due : Nat), s.dev.block? b.id = some b → b.deadline = some due → due ≤ s.dev.clock →
    (b.susp = none → s.dev.liveWaves b.id ≠ [] →
      ∃ t b', exec (.cancelDeadline b.id) s = .next t ∧ t.dev.block? b.id = some b' ∧ b'.forced = true ∧
        ∀ w ∈ t.dev.waves, w.block = b.id → w.strands.all (·.exited) = true) ∧
    (b.susp ≠ none ∨ s.dev.liveWaves b.id = [] → exec (.cancelDeadline b.id) s = .next s)) ∧
  (∀ (s : State) (w : Wave) (b : Block), s.dev.wave? w.id = some w → s.dev.block? w.block = some b → w.entry = true →
    w.busy = false → w.live = true → b.stopped = false → (s.dev.core b.core).claims.any (·.1 == w.id) = false →
    exec (.handlerEntry w.id) s = .next { s with dev := { s.dev with
      waves := s.dev.waves.map fun x => if x.id = w.id then { entersHandler 0 x with cause := x.cause } else x
      inbox := s.dev.inbox.filter (·.1 != w.id)
      remotes := s.dev.remotes.filter fun r => !r.job.any (·.1 == w.id) } }) ∧
  (∀ (s : State) (w : Wave) (x : Strand) (n since tag : Nat), s.dev.wave? w.id = some w → w.strands[n]? = some x →
    w.live = true → w.tvec ≠ 0 →
    (x.waiting = some ⟨since, .numBar tag⟩ → since + 2 ^ 28 ≤ s.dev.clock →
      ∃ t, exec (.watchdog w.id n) s = .next t ∧ Told t w.id cWatchdog ∧ t.dev.mem = s.dev.mem) ∧
    (x.waiting = none ∨ (x.waiting = some ⟨since, .numBar tag⟩ ∧ s.dev.clock < since + 2 ^ 28) →
      exec (.watchdog w.id n) s = .next s))

/-! ## Continuations (07, 11) -/

namespace Sys2Proof.Claims

/-- The word of an identity's slot is in the package's own memory, passes its check and shows a state (Tables 11-7, 11-8). -/
def SlotAt (s : State) (x : Ctx) (ident pa st : Nat) : Prop :=
  ident < 2 ^ 64 ∧ s.dev.slotPlace x (ident % 2 ^ 20) = .ok (.glob pa) ∧ Sound s x.n pa 8 ∧
    leNat (s.dev.readGlob x.n pa 8).1 = ident / 2 ^ 20 % 2 ^ 44 * 2 ^ 20 + st

/-- The bytes of a slot word with an identity's generation. -/
def slotBytes (ident st : Nat) : List Byte := leBytes 8 (ident / 2 ^ 20 % 2 ^ 44 * 2 ^ 20 + st)

/-- The issuing gang has passed a class D instruction and written `v` to `d`; its wave's other registers are as before. -/
def WentOnWith (s t : State) (k : Issue) (d : SReg) (v : Word) : Prop :=
  ∃ w, t.dev.wave? k.wave.id = some w ∧ w.v = k.wave.v ∧ w.m = k.wave.m ∧
    w.strands.map (fun x => (x.pc, x.s)) = (k.wave.strands.mapIdx fun u x =>
      if inGang k.gang u then (x.pc + 12, if d = 0 then x.s else x.s.set d.toNat v) else (x.pc, x.s)) ∧
    t.dev.locmem = s.dev.locmem

/-- The wave of the issue takes causes: it has a handler and is not in it. -/
def Takes (k : Issue) : Prop := k.wave.tvec ≠ 0 ∧ k.wave.inHandler = false

/-- A suspending block's object has been written for the last time: the state then. -/
def ObjectWritten (s : State) (b : Block) (x : Ctx) (z : Sealing) (d : Dev) : Prop :=
  s.dev.block? b.id = some b ∧ b.team = none ∧ b.susp = some (.sealing z) ∧ s.dev.ctx? b.ctx = some x ∧ x.stopped = false ∧
    s.dev.writeObjects x [b] = (d, .done)

end Sys2Proof.Claims

/-- R236 to R242, R322: `susp` waits until every live wave of its group does, and then the block's suspension is in progress;
`resume` takes the object's slot from SUSPENDED to RESUMING and hands the object to placement; `cdrop` frees a slot;
`cclone` takes a slot of its own, writes the new identity to sD and leaves a job. A slot in another state raises DOUBLERESUME
(OBJECT for `cdrop`); a misaligned object raises ALIGN, a header that fails its checks OBJECT. -/
def Obligations.ContinuationInstructions : Prop :=
  (∀ (s : State) (k : Issue) (d a : SReg) (team noBuf : Bool), s.dev.issuer? = some k → k.gang = k.wave.liveMask →
    (k.rd a).toNat % 256 = 0 → team = k.block.team.isSome → k.block.susp = none →
    let waits := waveStep (stays s k .susp) k fun w => { w with susp := some ⟨d, k.rd a, team, noBuf⟩ }
    ((∃ b ∈ s.dev.suspGroup k.block, ∃ w ∈ s.dev.liveWaves b.id, w.id ≠ k.wave.id ∧ w.susp = none) →
      exec (.susp d a team noBuf) s = .next waits) ∧
    (team = false → (∀ w ∈ s.dev.liveWaves k.block.id, w.id = k.wave.id) → k.wave.live = true →
      (∀ j ∈ s.dev.jobs, j.block ≠ k.block.id) →
      ∃ t b, exec (.susp d a team noBuf) s = .next t ∧ t.dev.waves = waits.dev.waves ∧ t.dev.mem = s.dev.mem ∧
        t.dev.block? k.block.id = some b ∧ b.susp = some (.draining (k.rd a).toNat noBuf))) ∧
  (∀ (s : State) (k : Issue) (d a : SReg) (team noBuf : Bool), s.dev.issuer? = some k →
    (k.gang ≠ k.wave.liveMask → exec (.susp d a team noBuf) s = .next (after s fun x => x.trap k cGang)) ∧
    (k.gang = k.wave.liveMask → (k.rd a).toNat % 256 ≠ 0 →
      exec (.susp d a team noBuf) s = .next (after s fun x => x.trapMem k cAlign (k.rd a) k.lowMask)) ∧
    (k.gang = k.wave.liveMask → (k.rd a).toNat % 256 = 0 → k.block.team ≠ none →
      exec (.susp d a false noBuf) s = .next (after s fun x => x.trap k cTeamabsent)) ∧
    (k.gang = k.wave.liveMask → (k.rd a).toNat % 256 = 0 → k.block.team = none →
      exec (.susp d a true noBuf) s = .next (after s fun x => x.trap k cObject))) ∧
  (∀ (s : State) (k : Issue) (a : SReg) (h : List Byte), s.dev.issuer? = some k → s.dev.settled k = true → memOk s →
    RecordAt s k (k.rd a).toNat 256 h → let m := lookedUp s k ((spans 32 (k.rd a).toNat 256).map (·.va))
    (headerOk k.ctx h = true → field h 0x22 1 = 0 → field h 0x23 1 = 0 →
      (∀ pa, SlotAt m k.ctx (field h 8 8) pa slotSuspended →
        ∃ t id time, exec (.resume a) s = .next t ∧ WentOn s t k ∧ k.wave.lts ≤ time ∧
          t.dev.pending = s.dev.pending ++
            [.resume id k.ctx.n (k.rd a).toNat [field h 8 8] [headerFeet h] k.wave.id k.block.id k.gang time k.pc] ∧
          StoresAt s t k.ctx.n pa (slotBytes (field h 8 8) slotResuming)) ∧
      (∀ pa st, SlotAt m k.ctx (field h 8 8) pa st → st < 4 → st ≠ slotSuspended → Takes k →
        ∃ t, exec (.resume a) s = .next t ∧ Told t k.wave.id cDoubleresume ∧ t.dev.pending = s.dev.pending ∧
          t.dev.mem = s.dev.mem)) ∧
    (headerOk k.ctx h = false → Takes k → ∃ t, exec (.resume a) s = .next t ∧ Told t k.wave.id cObject ∧
      t.dev.pending = s.dev.pending ∧ t.dev.mem = s.dev.mem)) ∧
  (∀ (s : State) (k : Issue) (a : SReg) (pa st : Nat), s.dev.issuer? = some k → s.dev.settled k = true → memOk s →
    SlotAt s k.ctx (k.rd a).toNat pa st → st < 4 →
    (st = slotSuspended ∨ st = slotResumed → ∃ t, exec (.cdrop a) s = .next t ∧ WentOn s t k ∧
      StoresAt s t k.ctx.n pa (slotBytes (k.rd a).toNat slotFree)) ∧
    (st = slotFree ∨ st = slotResuming → Takes k → ∃ t, exec (.cdrop a) s = .next t ∧ Told t k.wave.id cObject ∧
      t.dev.mem = s.dev.mem)) ∧
  (∀ (s : State) (k : Issue) (d a b : SReg) (h : List Byte) (pa new gen pb : Nat), s.dev.issuer? = some k → s.dev.settled k = true →
    memOk s → RecordAt s k (k.rd a).toNat 256 h → headerOk k.ctx h = true → (k.rd b).toNat % 256 = 0 → field h 0x22 1 = 0 →
    let src := (k.rd a).toNat
    let dst := (k.rd b).toNat
    let n := field h 0x98 8
    let m := lookedUp s k ((spans 32 src 256).map (·.va))
    let m' : Dev := m.dev.looked 0 k.ctx (slotAddr k.ctx (field h 8 8))
    (src + n ≤ dst ∨ dst + n ≤ src) → s.dev.cp k.wave.id < 30 → (s.dev.jobs.filter (·.ctx == k.ctx.n)).length < 1024 →
    SlotAt m k.ctx (field h 8 8) pa slotSuspended → m'.freeSlot k.ctx (2 ^ 20) 0 = .ok (some (new, gen)) →
    m'.slotPlace k.ctx new = .ok (.glob pb) → Sound s k.ctx.n pb 8 →
    let ident := new + (gen + 1) % 2 ^ 44 * 2 ^ 20
    ∃ t j, exec (.cclone d a b) s = .next t ∧ WentOnWith s t k d (BitVec.ofNat 64 ident) ∧ t.dev.jobs = s.dev.jobs ++ [j] ∧
      j.kind = .clone src dst ident k.gang k.pc ∧ j.foot = [⟨none, src, src + n, false⟩, ⟨none, dst, dst + n, true⟩] ∧
      j.wave = k.wave.id ∧ j.block = k.block.id ∧ j.ctx = k.ctx.n ∧ j.entered = false ∧
      StoresAt s t k.ctx.n pb (leBytes 8 ((gen + 1) % 2 ^ 44 * 2 ^ 20 + slotResuming))) ∧
  (∀ (s : State) (k : Issue) (d a b : SReg), s.dev.issuer? = some k → (k.rd a).toNat % 256 ≠ 0 →
    exec (.cclone d a b) s = .next (after s fun x => x.trapMem k cAlign (k.rd a) k.lowMask) ∧
    (s.dev.settled k = true → exec (.resume a) s = .next (after s fun x => x.trapMem k cAlign (k.rd a) k.lowMask)))

/-- R236, R238 to R240, R314, R315: SUSP_SEAL and FORCED_SAVE_SEAL, once the object has been written, make its slot SUSPENDED and
take the block off its core (a forced save counts it in its save area); FORCED_SAVE stops the blocks of a context whose notice
has ended; RESUME_PLACED places the block of the first resumption that fits on the core as its object has it (stated where no
launch is cancelled) and makes the slot RESUMED; CCLONE_DONE copies the object under
its new identity and makes its slot SUSPENDED. -/
def Obligations.ContinuationSteps : Prop :=
  (∀ (s : State) (b : Block) (x : Ctx) (z : Sealing) (d : Dev) (pa : Nat), ObjectWritten s b x z d → z.forced = false →
    let m : State := { s with dev := d }
    memOk m → d.block? b.id = some b → SlotAt m x z.ident pa slotResuming →
    ∃ t, exec (.suspSeal b.id) s = .next t ∧ t.dev.block? b.id = none ∧ (∀ w ∈ t.dev.waves, w.block ≠ b.id) ∧
      StoresAt m t x.n pa (slotBytes z.ident slotSuspended) ∧ t.dev.launches.map (·.count) = s.dev.launches.map (·.count)) ∧
  (∀ (s : State) (c : Ctx) (p : Preempt) (b : Block), s.dev.ctx? c.n = some c → c.preempt = some p → p.ends ≤ s.dev.clock →
    s.dev.block? b.id = some b → b ∈ s.dev.toForce c.n → b.team = none →
    ∃ t b', exec (.forcedSave c.n) s = .next t ∧ t.dev.block? b.id = some b' ∧ b'.susp = some .forced) ∧
  (∀ (s : State) (b : Block) (x : Ctx) (p : Preempt) (z : Sealing) (d : Dev) (pa : Nat), ObjectWritten s b x z d → z.forced = true →
    x.preempt = some p → let m : State := { s with dev := d }
    memOk m → d.block? b.id = some b → SlotAt m x z.ident pa slotResuming →
    ∃ t p', exec (.forcedSaveSeal b.id) s = .next t ∧ t.dev.block? b.id = none ∧ (∀ w ∈ t.dev.waves, w.block ≠ b.id) ∧
      (t.dev.ctx? b.ctx).bind (·.preempt) = some p' ∧ p'.count = p.count + 1 ∧ p'.next = p.next + s.dev.objectSize b ∧
      p'.failed = p.failed) ∧
  (∀ (s : State) (d : Dev) (x : Ctx) (id core obj ident wave block clock time pa : Nat) (f : Footprint) (gang : StrandMask) (pc : Word)
    (o : List Byte) (ws : List SavedWave),
    (s.dev.resumesAt core).head? = some (.resume id x.n obj [ident] [f] wave block gang clock pc) → s.dev.ctx? x.n = some x →
    s.dev.coreOpen core = true → (∀ l ∈ s.dev.launches, l.cancelled = false) →
    s.dev.readObjects core x id clock 0 [(obj, ident)] = (d, .ok (time, [o])) → headerTeam o = 0 → parseObject o = some ws →
    let m : State := { s with dev := d }
    memOk m → SlotAt m x ident pa slotResuming →
    ∃ t b ns, exec (.resumePlaced id core) s = .next t ∧ (∀ p ∈ t.dev.pending, p.id ≠ id) ∧ t.dev.blocks = s.dev.blocks ++ [b] ∧
      b.core = core ∧ b.ctx = x.n ∧ b.coord = BitVec.ofNat 64 (field o 0x70 8) ∧ b.scratch.len = field o 0x28 4 ∧
      b.wbuf.len = field o 0x2C 4 ∧ b.abuf.len = field o 0x30 4 ∧ b.acc.len = field o 0x34 4 ∧ b.ntags = field o 0x21 1 ∧
      b.arrived = BitVec.ofNat 64 (field o 0xA0 8) ∧ t.dev.waves.map (·.id) = s.dev.waves.map (·.id) ++ ns ∧ ns.length = ws.length ∧
      (∀ i v n, ws[i]? = some v → ns[i]? = some n → n ∉ s.dev.waves.map (·.id) → ns.Nodup → ∃ w, t.dev.wave? n = some w ∧
        w.block = b.id ∧ w.idx = i ∧ w.v = v.v ∧ w.tvec = BitVec.ofNat 64 (field v.bytes 0xC0 8) ∧
        w.m = (List.range 16).map (fun j => BitVec.ofNat 32 (field v.bytes (0x80 + 4 * j) 4)) ∧
        w.strands.map (·.pc) = (List.range 8).map fun u => BitVec.ofNat 64 (field v.bytes (8 * u) 8)) ∧
      StoresAt m t x.n pa (slotBytes ident slotResumed)) ∧
  (∀ (s : State) (j : Job) (b : Block) (x : Ctx) (src dst ident n time end_ pa : Nat) (gang : StrandMask) (pc : Word) (bytes : List Byte)
    (d d' : Dev), s.dev.job? j.id = some j → j.kind = .clone src dst ident gang pc → j.foot.head? = some ⟨none, src, src + n, false⟩ →
    s.dev.block? j.block = some b → s.dev.ctx? j.ctx = some x → j.entered = true → j.after = [] →
    s.dev.reachFrom b.core x j.id 0 32 src n j.clock 1 = (d, .ok time bytes) →
    d.reachWrite b.core x j.id dst time (sealHeader x.sealKey (bytes.take 8 ++ leBytes 8 ident ++ (bytes.drop 16).take 240) ++
      bytes.drop 256) = (d', .ok end_ []) →
    let w : State := { s with dev := d' }
    memOk w → SlotAt w x ident pa slotResuming →
    ∃ t, exec (.ccloneDone j.id) s = .next t ∧ t.dev.job? j.id = none ∧ t.dev.cp j.wave < s.dev.cp j.wave ∧
      StoresAt w t x.n pa (slotBytes ident slotSuspended))

/-! ## Arbiters, the memory hierarchy, the fabric (05, 08 to 12) -/

namespace Sys2Proof.Claims

/-- A request of this package that its wait for a reply has begun, and whose requester is a reader of records. -/
def AskedBy (s : State) (r : Remote) (job off : Nat) : Prop :=
  s.dev.remotes.find? (·.req == r.req) = some r ∧ r.pkg ≠ 1023 ∧ r.sent ≠ none ∧ r.op = none ∧ r.job = some (job, 0, off) ∧
    s.dev.job? job = none ∧ job ≠ owedReader ∧ job ≠ monReader ∧ job ≠ pfReader ∧ askWaits r.ask = false

/-- The requests of this package that go on after one has ended. -/
def without (s : State) (r : Remote) : List Remote := s.dev.remotes.filter (·.req != r.req)

/-- A port has taken the flit that comes next on its link, and remembers how many flits of an open packet have come. -/
def linked (s : State) (port : Nat) (f : FlitHead) (open_ : List (Nat × Nat)) : State :=
  { s with dev := s.dev.modPort port fun o => { o with rxSeq := (o.rxSeq + 1) % 2 ^ 32, rx := open_ ++ o.rx.filter (·.1 != flitKey f) } }

/-- The flit is the next of its link and the last of a packet whose other flits have come. -/
def LastFlit (s : State) (port : Nat) (f : FlitHead) (p : Packet) : Prop :=
  (s.dev.port port).up = true ∧ f.lseq = (s.dev.port port).rxSeq ∧ f.last = true ∧ f.vc = p.vc ∧ f.ptag = p.ptag ∧ f.src = p.peer ∧
    f.type = bodyType p.body ∧ f.dst = Config.package ∧
    if f.first then p.flits = 1 else 2 ≤ p.flits ∧ assoc (s.dev.port port).rx (flitKey f) + 1 = p.flits

/-- A message of a rank of another package finds a collective here: of the queue of the tag's home context that has its
channel and its sender, the one of its number where there are several (log entry 107), by its number on the queue. -/
def FindsColl (s : State) (x : Ctx) (p : Packet) (n rank : Nat) (y : Coll) : Prop :=
  s.dev.egress = [] ∧ ∃ q, ofNumber p.queue (s.dev.queues.filter fun z =>
      z.ctx == x.n && z.comm.vc == p.vc && (z.comm.ranks[rank]?).any (·.pkg == p.peer)) = some q ∧
    (s.dev.colls.find? fun z => z.ctx == x.n && z.q == q.q && z.seq == n) = some y ∧
    y.engine = ((q.comm.ranks[q.comm.rank]?).map (·.engine)).getD 0

end Sys2Proof.Claims

/-- R20, R87, R250, R254, R258, R263, R266, R284 to R286: ISSUE_SELECT selects a gang of the oldest ready wave of a context
without servers, and nothing while an instruction holds the port; SERVER_RELEASE gives a resting server that has work its budget and deadline; ARBITER_SELECT chooses a context for the
copy engines; ROT_ADVANCE sets ROT; ICACHE_FILL caches the words of a line, once the lines that lie on other packages have
come (which it asks for, log entry 20), PAGE_WALK the translation that the tables give, for one of the 896 cores;
LLC_EVICT takes a line out and keeps its times in MT, and counts a corrected error that comes with it (log entry 6); MEM_LINE_TRANSFER carries a line. -/
def Obligations.Arbiters : Prop :=
  (∀ (s : State) (core port c : Nat), s.dev.latch = none → s.dev.servers = [] → let ready := s.dev.pruneYields.readyAt core port
    ((s.dev.core core).busy[port]?).getD 0 ≤ s.dev.clock → ready ≠ [] → (∀ x ∈ ready, x.2.1.ctx = c) → (s.dev.waves.map (·.id)).Nodup →
    ∃ t w b g, exec (.issueSelect core port) s = .next t ∧ t.dev.latch = some ⟨w.id, g⟩ ∧ (w, b, g) ∈ ready ∧
      (∀ x ∈ ready, w.order ≤ x.1.order) ∧ t.dev.mem = s.dev.mem ∧ t.dev.locmem = s.dev.locmem) ∧
  (∀ (s : State) (core port : Nat), s.dev.latch ≠ none → exec (.issueSelect core port) s = .next s) ∧
  (∀ (s : State) (core port : Nat), s.dev.latch = none → s.dev.clock < ((s.dev.core core).busy[port]?).getD 0 →
    ∃ t, exec (.issueSelect core port) s = .next t ∧ t.dev.latch = none ∧ t.dev.servers = s.dev.servers) ∧
  (∀ (s : State) (ctx chan b d q p : Nat) (v : Server) (x : Xfer), s.dev.server? ctx (.chan chan) = some v → v.args.q = [q] →
    v.args.t = [p] → v.b = [b] → v.d = [d] → v.pending = [false] → d ≤ s.dev.clock → x ∈ s.dev.xfers → x.channel = chan → x.ctx = ctx →
    ∃ t, exec (.serverRelease ctx (.chan chan)) s = .next t ∧ Apart s t ∧
      t.dev.server? ctx (.chan chan) = some { v with b := [q], d := [s.dev.clock + p], pending := [true] }) ∧
  (∀ (s : State) (die c n : Nat), s.dev.servers = [] → copyWants die s.dev.waitingPieces = [(c, n)] →
    ∃ t, exec (.arbiterSelect (.copy die)) s = .next t ∧ Apart s t ∧ (Point.copy die, c) ∈ t.dev.picks ∧
      ∀ x ∈ t.dev.picks, x.1 = Point.copy die → x.2 = c) ∧
  (∀ s : State, exec .rotAdvance s = .next { s with dev := { s.dev with rot := s.dev.clock / 2400 % 256 } }) ∧
  (∀ (s : State) (core va : Nat) (c : Ctx), s.dev.ctx? c.n = some c → core < 896 →
    (s.dev.codeWanted core c va = [] →
      ∃ t, exec (.icacheFill core c.n va) s = .next t ∧ Apart s t ∧ t.dev.icached core c.n va = some (s.dev.fillWord core c va) ∧
        ∀ k x a, (k ≠ core ∨ x ≠ c.n ∨ a / 128 ≠ va / 128) → t.dev.icached k x a = s.dev.icached k x a) ∧
    (s.dev.codeWanted core c va ≠ [] → ∃ t, exec (.icacheFill core c.n va) s = .next t ∧ Apart s t ∧ t.dev.icache = s.dev.icache ∧
      ∀ l ∈ s.dev.codeWanted core c va, t.dev.codeAsked l.1 = true)) ∧
  (∀ (s : State) (core ctx va : Nat), 896 ≤ core → exec (.icacheFill core ctx va) s = .next s ∧ exec (.pageWalk core ctx va) s = .next s) ∧
  (∀ (s : State) (core va : Nat) (c : Ctx), s.dev.ctx? c.n = some c → core < 896 →
    (2 ^ 56 ≤ va → exec (.pageWalk core c.n va) s = .next s) ∧
    (∀ l, va < 2 ^ 56 → s.dev.walk c va = .ok l → ∃ t, exec (.pageWalk core c.n va) s = .next t ∧ Apart s t ∧ t.dev.translate core c va = .ok l) ∧
    (∀ e, va < 2 ^ 56 → s.dev.walk c va = .error e →
      ∃ t, exec (.pageWalk core c.n va) s = .next t ∧ Apart s t ∧ t.dev.tlb = s.dev.tlb)) ∧
  (∀ (s : State) (l : LlcLine), s.dev.line? l.line = some l → let n := sliceOf (l.line * 128)
    ∃ t, exec (.llcEvict ⟨l.line, .none⟩) s = .next t ∧ Apart s t ∧ t.dev.line? l.line = none ∧
      assoc t.dev.mt n = max (assoc s.dev.mt n) (max l.wt l.le) ∧ (∀ m, m ≠ n → assoc t.dev.mt m = assoc s.dev.mt m) ∧
      t.dev.xfers = s.dev.xfers ++ (match l.owner with | some c => [⟨channelOf (l.line * 128), l.line, c, false⟩] | none => [])) ∧
  (∀ (s : State) (n : Nat), s.dev.line? n = none → exec (.llcEvict ⟨n, .none⟩) s = .next s ∧
    exec (.llcEvict ⟨n, .corrected⟩) s = .next { s with mgmt := { s.mgmt with seccnt := (s.mgmt.seccnt + 1) % 2 ^ 32 } }) ∧
  (∀ (s : State) (x : Xfer), s.dev.servers = [] → s.dev.xfers.filter (·.channel == x.channel) = [x] →
    ∃ t, exec (.memLineTransfer x.channel) s = .next t ∧ Apart s t ∧ t.dev.xfers = s.dev.xfers.filter (·.channel != x.channel))

/-- R272, R292, R310, R338 to R340, R381: REPLY_ARRIVE ends a request with its reply, PAIRTIMEOUT one that has waited for
2,400,000 cycles; REMOTE_REQUEST performs a request under the home context and answers it, with XLATE outside its windows;
FLIT_SEND sends a flit, a reply first, under its header and FCRC (the payload of a reply is open: log entry 107);
FLIT_RECEIVE takes only the next flit of its link, and with the last flit of a packet delivers it if it passes the partition
check, and counts it if it does not; LINK_PAUSE holds or frees one of the 128 links. -/
def Obligations.Fabric : Prop :=
  (∀ (s : State) (r : Remote) (job off t0 : Nat), AskedBy s r job off → r.sent = some t0 →
    (t0 + 2400000 ≤ s.dev.clock → exec (.pairtimeout r.req) s = .next { s with dev := { s.dev with
      remotes := without s r, inbox := s.dev.inbox ++ [(job, off, .failed cPairtimeout)] } }) ∧
    (s.dev.clock < t0 + 2400000 → exec (.pairtimeout r.req) s = .next s)) ∧
  (∀ (s : State) (r : Remote) (job off time : Nat) (bytes : List Byte), AskedBy s r job off →
    s.dev.remotes.find? (fun x => x.req == r.req && x.pkg != 1023 && x.sent.isSome) = some r →
    ∀ e a, (e, a) ∈ [(RemoteEnd.done time bytes, Answer.done time bytes), (.xlate, .failed cXlate), (.rights, .failed cRights),
        (.integrity, .failed cIntegrity)] →
      exec (.replyArrive r.req e) s = .next { s with dev := { s.dev with
        remotes := without s r, inbox := s.dev.inbox ++ [(job, off, a)] } }) ∧
  (∀ (s : State) (r : Remote) (o : MemOp) (w : LdW) (d : VReg) (lane time : Nat) (bytes : List Byte),
    s.dev.remotes.find? (fun x => x.req == r.req && x.pkg != 1023 && x.sent.isSome) = some r → r.op = some (o.id, lane) →
    s.dev.op? o.id = some o → o.kind = .load w d → o.whole = false →
    ∃ t, exec (.replyArrive r.req (.done time bytes)) s = .next t ∧ Performed s t o lane bytes ∧ t.dev.remotes = without s r ∧
      t.dev.mem = s.dev.mem ∧ t.dev.locmem = s.dev.locmem) ∧
  (∀ (s : State) (p : RemotePkt) (x : Ctx) (bytes : List Byte) (checks : List (BitVec 16)), s.dev.homeOf p.ptag = some x → memOk s →
    p.ask = .write bytes checks →
    (s.dev.fn x.fn).flr = 0 →
    (mappable p.pa bytes.length = true → s.dev.inWindows x.fn p.pa bytes.length = true → Sound s x.n p.pa bytes.length →
      ∃ t time, exec (.remoteRequest p) s = .next t ∧ StoresAt s t x.n p.pa bytes ∧ t.dev.locmem = s.dev.locmem ∧ p.clock ≤ time ∧
        ∃ e, t.dev.egress = s.dev.egress ++ [e] ∧ e.ctx = x.n ∧ e.pkt.vc = 1 ∧ e.pkt.ptag = p.ptag ∧ e.pkt.peer = p.src ∧
          e.pkt.body = .reply p.name (.done time [])) ∧
    (mappable p.pa bytes.length = false ∨ s.dev.inWindows x.fn p.pa bytes.length = false →
      ∃ t e, exec (.remoteRequest p) s = .next t ∧ Apart s t ∧ t.dev.egress = s.dev.egress ++ [e] ∧ e.pkt.vc = 1 ∧
        e.pkt.body = .reply p.name .xlate)) ∧
  (∀ (s : State) (port name : Nat) (en : RemoteEnd) (e : Egress), s.dev.remotes = [] → s.dev.watches = [] →
    (s.dev.port port).up = true → s.dev.egress = [e] → e.pkt.vc = 1 → e.pkt.body = .reply name en →
    e.port = none → e.home = none → e.pkt.ptag ∈ (s.dev.port port).allowed →
    let head (last : Bool) : FlitHead := { vc := 1, ptag := e.pkt.ptag, type := 3, first := true, last := last, dst := e.pkt.peer
                                           src := Config.package, flow := 0, lseq := (s.dev.port port).seq }
    let flit (last : Bool) (payload : List Byte) : Msg :=
      .flit port (head last) (crc32 (leBytes 16 (headWord (head last)) ++ payload)) payload
    (e.left ≤ 1 → ∃ t payload, exec (.flitSend port) s = .next t ∧ Apart s t ∧ t.dev.egress = [] ∧ payload.length = 240 ∧
      t.dev.out = s.dev.out ++ [flit true payload, .packet port e.pkt] ∧
      t.dev.port port = { s.dev.port port with seq := ((s.dev.port port).seq + 1) % 2 ^ 32 }) ∧
    (1 < e.left → ∃ t payload, exec (.flitSend port) s = .next t ∧ Apart s t ∧ payload.length = 240 ∧
      t.dev.egress = [{ e with port := some port, left := e.left - 1 }] ∧ t.dev.out = s.dev.out ++ [flit false payload])) ∧
  (∀ (s : State) (port : Nat) (f : FlitHead) (p : Packet),
    exec (.flitReceive port ⟨f, false⟩ p) s = .next s ∧
    (f.lseq ≠ (s.dev.port port).rxSeq → exec (.flitReceive port ⟨f, true⟩ p) s = .next s) ∧
    ((s.dev.port port).up = true → f.lseq = (s.dev.port port).rxSeq → f.last = false → f.first = true →
      ∃ t, exec (.flitReceive port ⟨f, true⟩ p) s = .next t ∧ Apart s t ∧ t.dev.egress = s.dev.egress ∧ t.dev.colls = s.dev.colls ∧
        (t.dev.port port).rxSeq = ((s.dev.port port).rxSeq + 1) % 2 ^ 32 ∧ assoc (t.dev.port port).rx (flitKey f) = 1)) ∧
  (∀ (s : State) (port : Nat) (f : FlitHead) (p : Packet) (x : Ctx), LastFlit s port f p →
    let got := exec (.flitReceive port ⟨f, true⟩ p) s
    let l := linked s port f []
    (s.dev.homeOf p.ptag = none → ∃ t, got = .next t ∧ Apart s t ∧
      (t.dev.fn 0).drops = ((s.dev.fn 0).drops + 1) % 2 ^ 32 ∧ t.dev.egress = s.dev.egress ∧ t.dev.colls = s.dev.colls) ∧
    (s.dev.homeOf p.ptag = some x → p.ptag ∉ (s.dev.port port).allowed → ∃ t, got = .next t ∧ Apart s t ∧
      (t.dev.fn x.fn).drops = ((s.dev.fn x.fn).drops + 1) % 2 ^ 32 ∧ t.dev.egress = s.dev.egress ∧ t.dev.colls = s.dev.colls) ∧
    (s.dev.homeOf p.ptag = some x → p.ptag ∈ (s.dev.port port).allowed →
      (∀ r, p.body = .request r → got = exec (.remoteRequest { r with ptag := p.ptag, vc := p.vc, src := p.peer }) l) ∧
      (∀ name e, p.body = .reply name e → (∃ r ∈ s.dev.remotes, r.req = name ∧ r.pkg = p.peer) → got = exec (.replyArrive name e) l) ∧
      (∀ n rank clock y, p.body = .ready n rank clock → FindsColl s x p n rank y →
        (y.begun = false → s.dev.coll? y.id = some y → ∃ t, got = .next t ∧ Apart s t ∧
          t.dev.coll? y.id = some { y with ready := y.ready ++ [rank], time := max y.time clock }) ∧
        got = exec (.collReady y.id rank clock) l) ∧
      (∀ n rank k clock y, p.body = .cts n rank k clock → FindsColl s x p n rank y → got = exec (.collCts y.id rank k clock) l) ∧
      (∀ n rank k clock bytes y, p.body = .chunk n rank k clock bytes → FindsColl s x p n rank y →
        got = exec (.collChunkReceive y.id rank k clock bytes) l) ∧
      (∀ n cause rank clock y, p.body = .failure n cause rank → FindsColl s x p n rank y →
        got = exec (.collComplete y.id (some (cause, rank)) clock) l))) ∧
  (∀ (s : State) (port : Nat) (on : Bool), (128 ≤ port → exec (.linkPause port on) s = .next s) ∧
    (port < 128 → ∃ t, exec (.linkPause port on) s = .next t ∧ Apart s t ∧ t.dev.port port = { s.dev.port port with paused := on } ∧
      ∀ n, n ≠ port → t.dev.port n = s.dev.port n))

/-! ## The host port (12, 13) -/

namespace Sys2Proof.Claims

/-- The steps that the host asks for: accesses, registers, commands, protocol messages. -/
def HostAsks (i : Instr) : Prop :=
  (∃ fn bar off slot bytes wire, i = .hostWrite fn bar off slot bytes wire) ∨ (∃ fn bar off slot n wire, i = .hostRead fn bar off slot n wire) ∨
    (∃ fn idx, i = .invalidate fn idx) ∨ (∃ fn bits, i = .eventClear fn bits) ∨ (∃ w, i = .pwrcapWrite w) ∨ (∃ v, i = .iwselRead v) ∨
    i = .retlogClear ∨ (∃ fn off v, i = .registerWrite fn off v) ∨ (∃ a, i = .ctxcreate a) ∨ (∃ c, i = .ctxdestroy c) ∨
    (∃ a, i = .server a) ∨ (∃ fn w b n, i = .window fn w b n) ∨ (∃ c q r, i = .qbind c q r) ∨ (∃ t b a n, i = .preempt t b a n) ∨
    (∃ t, i = .release t) ∨ (∃ c, i = .keyrot c) ∨ (∃ a, i = .partset a) ∨ (∃ a, i = .retire a) ∨ (∃ fn a, i = .logset fn a) ∨
    (∃ c, i = .unknownCommand c) ∨ (∃ m, i = .ideKeyManagement m) ∨ ∃ fn, i = .flrInitiate fn

/-- The host reaches a function's BARs over these wires. -/
def Reaches (s : State) (fn : Nat) (w : Wire) : Prop := 6 ≤ s.mgmt.phase ∧ s.dev.unreachable fn w = false

/-- A register of the function has a value, and nothing else has changed. -/
def setFn (s : State) (fn : Nat) (f : Fn → Fn) : State := { s with dev := s.dev.modFn fn f }

/-- Bytes at an offset of a BAR lie within one sector of the package's memory. -/
def OneSector (s : State) (fn bar slot off n key pa : Nat) : Prop :=
  0 < n ∧ bar ≠ 0 ∧ pa % 32 + n ≤ 32 ∧ ∃ room, s.dev.barPlace fn bar slot off = some ⟨key, pa, room⟩ ∧ n ≤ room

end Sys2Proof.Claims

/-- R281, R326 to R328, R337, R361: before phase 6 every request of the host is answered with a retry
(R361 says so of configuration requests; that the others are answered alike is the model's choice, log entry 81). From then on a posted write
of a mailbox or PA window stores its bytes, and a read completes with the bytes that stand there, at the function's clock; a
read outside the function's ranges completes with Unsupported Request, and a write there is dropped; an 8-byte write of BAR0 is
a register write, and a read of BAR0 gives EVENT, DROPS and PWRCAP as they stand. -/
def Obligations.HostAccesses : Prop :=
  (∀ (s : State) (i : Instr), s.mgmt.phase < 6 → HostAsks i →
    exec i s = .next { s with dev := { s.dev with out := s.dev.out ++ [.configRetry] } }) ∧
  (∀ (s : State) (fn bar off slot key pa : Nat) (bytes : List Byte) (w : Wire), Reaches s fn w → memOk s →
    OneSector s fn bar slot off bytes.length key pa → Sound s key pa bytes.length →
    ∃ t, exec (.hostWrite fn bar off slot bytes w) s = .next t ∧ StoresAt s t key pa bytes ∧ t.dev.locmem = s.dev.locmem ∧
      t.mgmt = s.mgmt ∧ (s.dev.fn fn).clock ≤ (t.dev.fn fn).clock) ∧
  (∀ (s : State) (fn bar off slot key pa n : Nat) (bytes : List Byte) (w : Wire), Reaches s fn w →
    OneSector s fn bar slot off n key pa → s.dev.readGlob key pa n = (bytes, true) →
    ∃ t, exec (.hostRead fn bar off slot n w) s = .next t ∧ Apart s t ∧ t.dev.out = s.dev.out ++ [.completion fn bytes] ∧
      (s.dev.fn fn).clock ≤ (t.dev.fn fn).clock) ∧
  (∀ (s : State) (fn bar off slot n : Nat) (bytes : List Byte) (w : Wire), 6 ≤ s.mgmt.phase →
    (s.dev.unreachable fn w = true ∨ (bar ≠ 0 ∧ s.dev.barPlace fn bar slot off = none ∧ 0 < n ∧ bytes ≠ [])) →
    exec (.hostRead fn bar off slot n w) s = .next { s with dev := { s.dev with out := s.dev.out ++ [.unsupported fn] } } ∧
    exec (.hostWrite fn bar off slot bytes w) s = .next s) ∧
  (∀ (s : State) (fn off slot : Nat) (v : Word) (w : Wire), Reaches s fn w → s.dev.unreachable fn ⟨some fn, true⟩ = false →
    off % 8 = 0 → exec (.hostWrite fn 0 off slot (leBytes 8 v.toNat) w) s = exec (.registerWrite fn off v) s) ∧
  (∀ (s : State) (fn slot : Nat) (w : Wire), Reaches s fn w →
    let reads (off v : Nat) : Prop := exec (.hostRead fn 0 off slot 8 w) s =
      .next { s with dev := { s.dev with out := s.dev.out ++ [.completion fn (leBytes 8 v)] } }
    reads 0x120 (s.dev.fn fn).event.toNat ∧ reads 0x128 ((s.dev.fn fn).drops % 2 ^ 32) ∧
      (fn = 0 → reads 0x4008 (s.mgmt.watts % 4096) ∧ reads 0x4020 (s.mgmt.emerg % 2 ^ 32) ∧
        (s.mgmt.cuts = 0 → (∀ die < 4, assoc s.mgmt.levels die < 2 ∧ s.dev.allow[die]? = some (s.mgmt.watts * 10 / 8)) →
          reads 0x4010 (s.mgmt.watts / 2 % 4096 * 2 ^ 32 + s.mgmt.pkgw % 4096))))

/-- R9, R259, R328, R334, R349, R363: INVALIDATE sets IDX and, unless it is busy, drops the cached translations of pages that meet the range and stays busy until
INVALIDATE_DONE;
EVENT_CLEAR clears bits; PWRCAP_WRITE takes 1,800 to 3,600 W and sets the dies' allowances; IWSEL_READ reads a cached internal
word; RETLOG_CLEAR clears the log (that CORE and SPACES then read zero is the model's choice, log entry 103); REGISTER_WRITE writes a function's registers and leaves read-only and reserved ones;
HOST_MEMORY_COMPLETION ends a read of host memory; ATS_TRANSLATION_COMPLETION and ATS_INVALIDATE put in and take out I/O
translations. -/
def Obligations.HostRegisters : Prop :=
  (∀ (s : State) (fn idx : Nat) (c : Ctx), 6 ≤ s.mgmt.phase → s.dev.unreachable fn ⟨some fn, true⟩ = false → idx < 16 →
    s.dev.local? fn idx = some c →
    let lo := (s.dev.fn fn).invAddr / 4096
    let hit (e : TlbEntry) : Prop := e.ctx = c.n ∧ ((s.dev.fn fn).invLen = 0 ∨
      (lo < e.vpn * e.size / 4096 + e.size / 4096 ∧ e.vpn * e.size / 4096 < lo + (s.dev.fn fn).invLen))
    ((s.dev.fn fn).inv = none → ∃ t, exec (.invalidate fn idx) s = .next t ∧ Apart s t ∧ (t.dev.fn fn).inv ≠ none ∧
      (t.dev.fn fn).invIdx = idx ∧ ∀ e, e ∈ t.dev.tlb ↔ e ∈ s.dev.tlb ∧ ¬ hit e) ∧
    ((s.dev.fn fn).inv ≠ none → exec (.invalidate fn idx) s = .next (setFn s fn fun f => { f with invIdx := idx }))) ∧
  (∀ (s : State) (fn : Nat) (ids : List Nat), (s.dev.fn fn).inv = some ids →
    ((∀ i ∈ ids, (∀ o ∈ s.dev.memops, o.id = i → o.finished = true) ∧ ∀ r ∈ s.dev.remotes, r.req ≠ i) →
      exec (.invalidateDone fn) s = .next (setFn s fn fun f => { f with inv := none })) ∧
    ((∃ i ∈ ids, ∃ r ∈ s.dev.remotes, r.req = i) → exec (.invalidateDone fn) s = .next s)) ∧
  (∀ (s : State) (fn bits : Nat), 6 ≤ s.mgmt.phase → s.dev.unreachable fn ⟨some fn, true⟩ = false →
    exec (.eventClear fn bits) s = .next (setFn s fn fun f => { f with event := f.event &&& ~~~(BitVec.ofNat 7 bits) })) ∧
  (∀ (s : State) (w : Nat), 6 ≤ s.mgmt.phase →
    (1800 ≤ w ∧ w ≤ 3600 → s.dev.allow.length = 4 → ∃ t, exec (.pwrcapWrite w) s = .next t ∧ t.mgmt = { s.mgmt with watts := w } ∧
      t.dev.mem = s.dev.mem ∧ t.dev.allow = (List.range 4).map fun die =>
        let a := w * 10 * (100 - 5 * s.mgmt.cuts) / 800
        if 2 ≤ assoc s.mgmt.levels die then a / 2 else a) ∧
    (w < 1800 ∨ 3600 < w → exec (.pwrcapWrite w) s = .next s)) ∧
  (∀ (s : State) (v : Word), 6 ≤ s.mgmt.phase → let core := v.toNat / 2 ^ 32 % 1024
    let m : Mgmt := { s.mgmt with iwcore := core, iwctx := v.toNat % 256 }
    (v.getLsbD 63 = false → exec (.iwselRead v) s = .next { s with mgmt := m }) ∧
    (v.getLsbD 63 = true → s.dev.icached core (v.toNat % 256) s.mgmt.iwaddr = none →
      exec (.iwselRead v) s = .next { s with mgmt := { m with iwhit := false, iwdata := 0 } }) ∧
    (v.getLsbD 63 = true → ∀ c off det, s.dev.icached core (v.toNat % 256) s.mgmt.iwaddr = some (.fault c off det) →
      exec (.iwselRead v) s = .next { s with mgmt := { m with
        iwhit := true
        iwdata := 6#3 ++ 0#1 ++ BitVec.ofNat 8 c ++ BitVec.ofNat 4 off ++ BitVec.ofNat 4 det ++ 0#20 ++ BitVec.ofNat 56 s.mgmt.iwaddr } }) ∧
    (v.getLsbD 63 = true → ∀ bs : List Byte, bs.length = 6 → (bs.head?).map (·.toNat / 64) = some 2 →
      s.dev.icached core (v.toNat % 256) s.mgmt.iwaddr = some (.word bs) →
      exec (.iwselRead v) s = .next { s with mgmt := { m with
        iwhit := true, iwdata := 1#3 ++ 0#1 ++ BitVec.ofNat 92 (leNat bs.reverse % 2 ^ 46) } })) ∧
  (∀ s : State, 6 ≤ s.mgmt.phase → exec .retlogClear s = .next { s with mgmt := { s.mgmt with retlog := none } }) ∧
  (∀ (s : State) (fn : Nat) (v : Word), 6 ≤ s.mgmt.phase → s.dev.unreachable fn ⟨some fn, true⟩ = false →
    exec (.registerWrite fn 0x100 v) s = .next (setFn s fn fun f => { f with invAddr := v.toNat % 2 ^ 56 / 4096 * 4096 }) ∧
    exec (.registerWrite fn 0x108 v) s = .next (setFn s fn fun f => { f with invLen := v.toNat % 2 ^ 36 }) ∧
    exec (.registerWrite fn 0x120 v) s = .next (setFn s fn fun f => { f with event := f.event &&& ~~~(BitVec.ofNat 7 v.toNat) }) ∧
    exec (.registerWrite fn 0x110 v) s = (if v.getLsbD 31 then exec (.invalidate fn (v.toNat % 16)) s
      else .next (setFn s fn fun f => { f with invIdx := v.toNat % 16 })) ∧
    (fn = 0 → exec (.registerWrite fn 0x4008 v) s = exec (.pwrcapWrite (v.toNat % 4096)) s ∧
      exec (.registerWrite fn 0x4030 v) s = .next { s with mgmt := { s.mgmt with brkhalt := v.getLsbD 0 } } ∧
      exec (.registerWrite fn 0x4060 v) s = (if v.getLsbD 63 then exec .retlogClear s else .next s)) ∧
    (fn ≠ 0 → exec (.registerWrite fn 0x4008 v) s = .next s) ∧
    ∀ off, off = 0 ∨ (0x40 ≤ off ∧ off < 0x50) ∨ off = 0x128 ∨ off = 0x200 ∨ off = 0x210 ∨ off = 0x218 →
      exec (.registerWrite fn off v) s = .next s) ∧
  (∀ (s : State) (r : Remote) (o : MemOp) (w : LdW) (d : VReg) (lane : Nat) (bytes : List Byte),
    s.dev.remotes.find? (fun x => x.req == r.req && x.pkg == 1023) = some r → r.op = some (o.id, lane) → s.dev.op? o.id = some o →
    o.kind = .load w d → o.whole = false →
    (∃ t, exec (.hostMemoryCompletion r.req true bytes) s = .next t ∧ Performed s t o lane bytes ∧ t.dev.remotes = without s r ∧
      t.dev.mem = s.dev.mem ∧ t.dev.locmem = s.dev.locmem) ∧
    ∃ t o', exec (.hostMemoryCompletion r.req false bytes) s = .next t ∧ t.dev.op? o.id = some o' ∧ t.dev.remotes = without s r ∧
      o'.lanes = (o.lanes.map fun b => if b.lane = lane then { b with st := .failed cXlate } else b) ∧ t.dev.mem = s.dev.mem) ∧
  (∀ (s : State) (fn page n : Nat), fn < 64 →
    exec (.atsTranslationCompletion fn page true) s = .next { s with dev := { s.dev with
      ats := (fn, page) :: s.dev.ats.filter (· != (fn, page)), atsAsked := s.dev.atsAsked.filter (· != (fn, page)) } } ∧
    (s.dev.memops = [] → s.dev.jobs = [] → exec (.atsTranslationCompletion fn page false) s = .next { s with dev := { s.dev with
      atsAsked := s.dev.atsAsked.filter (· != (fn, page)) } }) ∧
    exec (.atsInvalidate fn page n) s = .next { s with dev := { s.dev with
      ats := s.dev.ats.filter fun e => !(e.1 == fn && decide (page ≤ e.2 ∧ e.2 < page + n)) } })

/-! ## Commands of the physical function (12, 13) -/

namespace Sys2Proof.Claims

/-- The PF may give a command: bring-up has come to phase 6, and no command is busy. -/
def Accepts (s : State) : Prop := 6 ≤ s.mgmt.phase ∧ s.mgmt.cmdBusy = false

/-- A command has ended with a status over a device: CMDCTL has code and status, and the PF is told. -/
def ended (s : State) (d : Dev) (code status : Nat) : State where
  dev := ({ d with out := d.out ++ [.command code status] } : Dev).setEvent 0 0
  mgmt := { s.mgmt with cmdBusy := false, cmdGo := none, cmdStatus := status, cmdCode := code }
  schedule := s.schedule

/-- A command has ended with status 0 and has left this state, in which CMDCTL and EVENT tell of it. -/
def Did (s t : State) (code : Nat) : Prop :=
  t.mgmt.cmdBusy = false ∧ t.mgmt.cmdStatus = 0 ∧ t.mgmt.cmdCode = code ∧ (t.dev.fn 0).event.getLsbD 0 = true ∧
    t.schedule = s.schedule

/-- The commands of Table 12-3 with their codes, and the codes that have none. -/
def IsCommand (i : Instr) (code : Nat) : Prop :=
  (∃ a, i = .ctxcreate a ∧ code = 1) ∨ (∃ c, i = .ctxdestroy c ∧ code = 2) ∨ (∃ a, i = .server a ∧ code = 3) ∨
    (∃ fn w b n, i = .window fn w b n ∧ code = 4) ∨ (∃ c q r, i = .qbind c q r ∧ code = 5) ∨
    (∃ t b a n, i = .preempt t b a n ∧ code = 6) ∨ (∃ t, i = .release t ∧ code = 7) ∨ (∃ c, i = .keyrot c ∧ code = 8) ∨
    (∃ a, i = .partset a ∧ code = 9) ∨ (∃ a, i = .retire a ∧ code = 10) ∨ (∃ fn a, i = .logset fn a ∧ code = 11) ∨
    ∃ c, i = .unknownCommand c ∧ code = c % 256 ∧ (code = 0 ∨ 11 < code)

/-- A server as SERVER creates it (R284). -/
def newServer (a : ServerArgs) : Server := ⟨a, a.q, a.q.map fun _ => 0, a.q.map fun _ => false⟩

end Sys2Proof.Claims

/-- R42, R43, R284, R288, R322, R330, R333, R335, R361: a write of CMDCTL sets CODE, and its GO, unless a command is busy, starts the
command, whose step then acts as it does without a GO; another command given while one is busy is ignored, and a code
without a command ends with STATUS 1. Until READY nothing creates a context; then CTXCREATE creates a context with a zeroed table and its resident program; CTXDESTROY leaves nothing of a context;
SERVER creates a server that the bounds admit, refuses one that they or a package on its route do not, and removes one with Q = 0; WINDOW sets or removes
a window; KEYROT gives a slot a new key and drops its lines. The model's choices: that CTXCREATE waits for READY (log entry 82),
how GO and a command's row belong together (log entry 83), and that KEYROT looks past a resident program (log entry 85). -/
def Obligations.ContextCommands : Prop :=
  (∀ (s : State) (i : Instr) (code : Nat), 6 ≤ s.mgmt.phase → s.mgmt.cmdBusy = true → s.mgmt.cmdGo ≠ some code → IsCommand i code →
    exec i s = .next s) ∧
  (∀ (s : State) (v : BitVec 64), 6 ≤ s.mgmt.phase → s.dev.unreachable 0 ⟨some 0, true⟩ = false →
    let code := v.toNat % 256
    (v.getLsbD 31 = false ∨ s.mgmt.cmdBusy = true →
      exec (.registerWrite 0 0x1100 v) s = .next { s with mgmt := { s.mgmt with cmdCode := code } }) ∧
    (v.getLsbD 31 = true → s.mgmt.cmdBusy = false →
      exec (.registerWrite 0 0x1100 v) s = .next (if 1 ≤ code ∧ code ≤ 11 then
        { s with mgmt := { s.mgmt with cmdCode := code, cmdBusy := true, cmdGo := some code } } else ended s s.dev code 1))) ∧
  (∀ (s : State) (code : Nat) (i : Instr), 6 ≤ s.mgmt.phase → s.mgmt.cmdBusy = true → s.mgmt.cmdGo = some code → s.mgmt.cmdCode = code →
    (s.mgmt.ready = true ∨ code ≠ 1) → IsCommand i code →
    exec i s = exec i { s with mgmt := { s.mgmt with cmdBusy := false, cmdGo := none } }) ∧
  (∀ (s : State) (code : Nat), Accepts s → code % 256 = 0 ∨ 11 < code % 256 →
    exec (.unknownCommand code) s = .next (ended s s.dev (code % 256) 1)) ∧
  (∀ (s : State) (a : CtxArgs), 6 ≤ s.mgmt.phase → s.mgmt.ready = false → exec (.ctxcreate a) s = .next s) ∧
  (∀ (s : State) (a : CtxArgs), Accepts s → s.mgmt.ready = true → let d := s.dev
    (d.ctxFields a = false → exec (.ctxcreate a) s = .next (ended s d 1 1)) ∧
    (∀ pages, memOk s → d.ctxFields a = true → (d.fn a.fn).tdisp = .unlocked → d.ctx? a.ctx = none → (d.fnCtxs a.fn).length < 16 →
      (d.fn a.fn).flr = 0 → (d.tablePages (d.newCtx a)).mapM id = some pages → (∀ p ∈ pages, p % 4096 = 0) →
      ∃ t c id, exec (.ctxcreate a) s = .next t ∧ Did s t 1 ∧ t.dev.ctxs = d.ctxs ++ [c] ∧ c.n = a.ctx ∧ c.fn = a.fn ∧ c.root = a.root ∧
        c.ctab = a.ctab ∧ c.mbox = a.mbox ∧ c.ptag = a.ptag ∧ c.cancelUs = a.cancelUs ∧ c.atom = a.atom ∧ c.allow = a.energy ∧
        c.preempt = none ∧ c.stopped = false ∧
        t.dev.pending = d.pending ++ [.resident id a.ctx (BitVec.ofNat 64 a.code) a.regs] ∧
        ∀ p ∈ pages, ∀ b, p ≤ b → b < p + 4096 → t.dev.byteAt a.ctx b = 0)) ∧
  (∀ (s : State) (c : Ctx), Accepts s → s.dev.ctx? c.n = some c → (s.dev.fn c.fn).tdisp = .unlocked →
    ∃ t, exec (.ctxdestroy c.n) s = .next t ∧ Did s t 2 ∧ t.dev.ctx? c.n = none ∧ (∀ b ∈ t.dev.blocks, b.ctx ≠ c.n) ∧
      (∀ o ∈ t.dev.memops, o.ctx ≠ c.n) ∧ (∀ l ∈ t.dev.launches, l.ctx ≠ c.n) ∧ (∀ p ∈ t.dev.pending, p.ctx ≠ c.n) ∧
      (∀ v ∈ t.dev.servers, v.args.ctx ≠ c.n) ∧ (∀ e ∈ t.dev.tlb, e.ctx ≠ c.n) ∧ (∀ q ∈ t.dev.queues, q.ctx ≠ c.n)) ∧
  (∀ (s : State) (ctx : Nat), Accepts s → s.dev.ctx? ctx = none → exec (.ctxdestroy ctx) s = .next (ended s s.dev 2 1)) ∧
  (∀ (s : State) (a : ServerArgs), Accepts s → pointOk a.point = true → let d := s.dev
    (a.q.all (· == 0) = true → d.server? a.ctx a.point ≠ none →
      ∃ t, exec (.server a) s = .next t ∧ Did s t 3 ∧ t.dev.server? a.ctx a.point = none) ∧
    (a.q.all (· == 0) = false → serverFields a = true → d.ctx? a.ctx ≠ none →
      (∀ v ∈ d.servers, isChannel a.point = true → v.args.ctx = a.ctx → isChannel v.args.point = true → v.args.point ≠ a.point →
        v.args.ways = a.ways) →
      (s.pointGone a.point = false → withinBounds ((d.serversWith a).filter (·.point == a.point)) (pointCounters a.point) = true →
        d.waysOk a = true → d.flitsFit a = true → a.route = [] ∨ a.agreed = true →
        (d.server? a.ctx a.point = none → ∃ t, exec (.server a) s = .next t ∧ Did s t 3 ∧
          t.dev.server? a.ctx a.point = some (newServer a)) ∧
        ∀ v, d.server? a.ctx a.point = some v → ∃ t, exec (.server a) s = .next t ∧ Did s t 3 ∧
          t.dev.server? a.ctx a.point = some { v with args := a, b := (v.b.zip a.q).map fun x => min x.1 x.2 }) ∧
      (withinBounds ((d.serversWith a).filter (·.point == a.point)) (pointCounters a.point) = false ∨ s.pointGone a.point = true ∨
          (a.route ≠ [] ∧ a.agreed = false) →
        exec (.server a) s = .next (ended s d 3 2)))) ∧
  (∀ (s : State) (fn window base len : Nat), Accepts s → fn < 64 → window < 8 → base % 2 ^ 21 = 0 → len % 2 ^ 21 = 0 →
    mappable base len = true → (s.dev.fn fn).tdisp = .unlocked →
    (∀ f ∈ s.dev.fns, f.n ≠ fn → ∀ w ∈ f.windows, base + len ≤ w.2.base ∨ w.2.base + w.2.len ≤ base) →
    ∃ t, exec (.window fn window base len) s = .next t ∧ Did s t 4 ∧ Apart s { t with mgmt := s.mgmt } ∧
      ∀ w, w ∈ (t.dev.fn fn).windows ↔ (len ≠ 0 ∧ w = (window, ⟨base, len⟩)) ∨ (w ∈ (s.dev.fn fn).windows ∧ w.1 ≠ window)) ∧
  (∀ (s : State) (c : Ctx), Accepts s → s.dev.ctx? c.n = some c → c.n ≠ 0 → (s.dev.fn c.fn).tdisp = .unlocked →
    (∀ b ∈ s.dev.blocks, b.ctx = c.n → b.resident = true) →
    ∃ t, exec (.keyrot c.n) s = .next t ∧ Did s t 8 ∧ t.dev.keyOf c.n = s.dev.nextId ∧
      (∀ n, n ≠ c.n → t.dev.keyOf n = s.dev.keyOf n) ∧ (∀ l ∈ t.dev.llc, l.slot ≠ c.n) ∧ (∀ l ∈ t.dev.l1, l.slot ≠ c.n) ∧
      t.dev.mem = s.dev.mem ∧ t.dev.sectors = s.dev.sectors ∧ t.dev.waves = s.dev.waves)

/-- R295, R311, R316, R330, R340, R341, R347, R362: QBIND binds a communicator record to a queue or removes it; PREEMPT gives notice
to a context: its end is set, PREEMPT is raised in its waves; RELEASE ends a pre-emption, and a block that a forced save has
stopped goes on (the model's reading, log entry 106); PARTSET sets the tags that a port
allows and the home context of a tag; RETIRE keeps a core from further work and RETIRE_COMPLETE takes it out of the core map
with its servers; LOGSET starts and stops a function's dirty-page log. The model's choices: RETIRE keeps CMDCTL busy until
RETIRE_COMPLETE (log entry 84), the STATUS of refusals to which R330 gives none by name (log entry 86), and what a retirement
withdraws (log entry 88). -/
def Obligations.MachineCommands : Prop :=
  (∀ (s : State) (c : Ctx) (queue : Nat), Accepts s → s.dev.ctx? c.n = some c → queue < 16 →
    (∀ x ∈ s.dev.colls, x.ctx = c.n → x.q ≠ queue) →
    (∀ r, commOk c r = true → ∃ t, exec (.qbind c.n queue (some r)) s = .next t ∧ Did s t 5 ∧
      t.dev.queue? c.n queue = some ⟨c.n, queue, r, []⟩ ∧ ∀ x ∈ t.dev.triggers, x.ctx = c.n → x.desc.queue ≠ queue) ∧
    (∃ t, exec (.qbind c.n queue none) s = .next t ∧ Did s t 5 ∧ t.dev.queue? c.n queue = none) ∧
    ∀ r, commOk c r = false → exec (.qbind c.n queue (some r)) s = .next (ended s s.dev 5 1)) ∧
  (∀ (s : State) (c : Ctx) (budget area len : Nat), Accepts s → s.dev.ctxs.filter (·.n == c.n) = [c] → s.dev.ctx? c.n = some c →
    c.preempt = none → c.stopped = false → 0 < budget → budget ≤ 2 ^ 24 → area % 256 = 0 → 256 ≤ len → area + len ≤ 2 ^ 56 →
    ∃ t p, exec (.preempt (.ctx c.n) budget area len) s = .next t ∧ Did s t 6 ∧ (t.dev.ctx? c.n).bind (·.preempt) = some p ∧
      p.ends = s.dev.clock + budget ∧ p.area = area ∧ p.len = len ∧ p.count = 0 ∧ p.next = 256 ∧ p.failed = 0 ∧
      p.target = .ctx c.n ∧ ∀ id w b, s.dev.wave? id = some w → s.dev.block? w.block = some b → b.id = w.block → b.ctx = c.n →
        b.resident = false → w.live = true → Told t id cPreempt) ∧
  (∀ (s : State) (tgt : PreTarget), Accepts s →
    ((∃ c ∈ s.dev.ctxs, ∃ p, c.preempt = some p ∧ p.target = tgt) → ∃ t, exec (.release tgt) s = .next t ∧ Did s t 7 ∧
      t.dev.ctxs = (s.dev.ctxs.map fun c => if c.preempt.map (·.target) = some tgt then { c with preempt := none } else c) ∧
      t.dev.blocks = (s.dev.blocks.map fun b =>
        if b.susp = some .forced ∧ ∃ c ∈ s.dev.ctxs, c.preempt.map (·.target) = some tgt ∧ c.n = b.ctx then { b with susp := none } else b) ∧
      Apart s { t with dev := { t.dev with blocks := s.dev.blocks }, mgmt := s.mgmt }) ∧
    ((∀ c ∈ s.dev.ctxs, ∀ p, c.preempt = some p → p.target ≠ tgt) → exec (.release tgt) s = .next (ended s s.dev 7 1))) ∧
  (∀ (s : State) (port tag : Nat) (allowed : List Nat) (c : Ctx), Accepts s →
    (port < 128 → (∀ a ∈ allowed, a < 4096) → ∃ t, exec (.partset (.port port allowed)) s = .next t ∧ Did s t 9 ∧
      (∀ a, a ∈ (t.dev.port port).allowed ↔ a ∈ allowed) ∧ ∀ n, n ≠ port → t.dev.port n = s.dev.port n) ∧
    (tag < 4096 → s.dev.homeOf tag = none → s.dev.ctx? c.n = some c → c.ptag = tag → (s.dev.fn c.fn).tdisp = .unlocked →
      ∃ t, exec (.partset (.tag tag (some c.n))) s = .next t ∧ Did s t 9 ∧ t.dev.homeOf tag = some c) ∧
    (tag < 4096 → s.dev.homeOf tag = some c → (s.dev.fn c.fn).tdisp = .unlocked →
      ∃ t, exec (.partset (.tag tag none)) s = .next t ∧ Did s t 9 ∧ t.dev.homeOf tag = none)) ∧
  (∀ (s : State) (n : Nat), Accepts s → n < 896 → (s.dev.core n).mapped = true →
    ∃ t, exec (.retire (.core n)) s = .next t ∧ (t.dev.core n).retired = true ∧ t.mgmt = { s.mgmt with
      cmdBusy := true, cmdGo := none, cmdCode := 10, retiring := [.core n] } ∧ t.dev.coreOpen n = false ∧ t.dev.mem = s.dev.mem ∧
      t.dev.waves = s.dev.waves) ∧
  (∀ (s : State) (n : Nat), Accepts s → n < 152 → n ∉ s.mgmt.retiredChannels →
    exec (.retire (.channel n)) s =
      .next { s with mgmt := { s.mgmt with cmdBusy := true, cmdGo := none, cmdCode := 10, retiring := [.channel n] } }) ∧
  (∀ (s : State) (n : Nat), .core n ∈ s.mgmt.retiring →
    ((∀ b ∈ s.dev.blocks, b.core ≠ n) → ∃ t, exec (.retireComplete (.core n)) s = .next t ∧ Did s t s.mgmt.cmdCode ∧
      (t.dev.core n).mapped = false ∧ ∀ v ∈ t.dev.servers, v ∈ s.dev.servers ∧ v.args.point ∉ [.port n, .tile n, .table n, .select n]) ∧
    ((∃ b ∈ s.dev.blocks, b.core = n) → exec (.retireComplete (.core n)) s = .next s)) ∧
  (∀ (s : State) (n : Nat), .channel n ∈ s.mgmt.retiring → ∃ t, exec (.retireComplete (.channel n)) s = .next t ∧
    Did s t s.mgmt.cmdCode ∧
    t.mgmt.retiredChannels = n :: s.mgmt.retiredChannels ∧ ∀ v ∈ t.dev.servers, v.args.point ≠ .chan n) ∧
  (∀ (s : State) (fn iova : Nat), Accepts s → fn < 64 → ∃ t, exec (.logset fn iova) s = .next t ∧ Did s t 11 ∧
    Apart s { t with mgmt := s.mgmt } ∧ (t.dev.fn fn).log = (if iova = 0 then none else some ⟨iova, [], false, 0, 0, 0⟩))

/-! ## Function-level reset and the security protocols (12) -/

namespace Sys2Proof.Claims

/-- A virtual function whose reset has come to a step. -/
def FlrAt (s : State) (fn step : Nat) : Prop := 1 ≤ fn ∧ fn < 64 ∧ (s.dev.fn fn).flr = step

/-- A context of the function. -/
def Of (s : State) (fn n : Nat) : Prop := ∃ c ∈ s.dev.ctxs, c.fn = fn ∧ c.n = n

/-- A message of a protocol has been answered, and the device is `d` besides. -/
def told (s : State) (m : Msg) : State := { s with dev := { s.dev with out := s.dev.out ++ [m] } }

/-- A die's responder has answered a request and is in a new state. -/
def spdmDone (s : State) (die : Nat) (name : String) (data : List (List Nat)) (r : Spdm) : State :=
  { told s (.spdm die name true data) with mgmt := { s.mgmt with
      spdm := upsert (·.die == die) (s.mgmt.responder die) (fun _ => r) s.mgmt.spdm } }

/-- A request to a die's responder: its name, when it is answered, the responder's new state, the data. -/
structure Asked where
  name : String
  ok   : Spdm → Prop
  next : Spdm → Spdm
  data : Spdm → List (List Nat)

/-- The requests of R336. -/
noncomputable def asked (s : State) (die x : Nat) : List (Instr × Asked) :=
  let digest (r : Spdm) : List (List Nat) := [[0, Config.digest r.die 0]]
  let live (r : Spdm) : Prop := (x, true) ∈ r.sessions
  [(.getVersion die, ⟨"GET_VERSION", fun _ => True,
      fun r => { r with version := true, caps := false, algs := false, sessions := [] }, fun _ => [[1, 3]]⟩),
   (.getCapabilities die, ⟨"GET_CAPABILITIES", fun r => r.version = true, fun r => { r with caps := true }, fun _ => []⟩),
   (.negotiateAlgorithms die, ⟨"NEGOTIATE_ALGORITHMS", fun r => r.caps = true, fun r => { r with algs := true },
      fun _ => [[384, 384, 384, 256]]⟩),
   (.getDigests die, ⟨"GET_DIGESTS", fun r => r.algs = true, id, digest⟩),
   (.getCertificate die x, ⟨"GET_CERTIFICATE", fun r => r.algs = true ∧ x = 0, id, digest⟩),
   (.challenge die x, ⟨"CHALLENGE", fun r => r.algs = true ∧ x = 0, id, digest⟩),
   (.getMeasurements die x, ⟨"GET_MEASUREMENTS", fun r => r.algs = true ∧ ((1 ≤ x ∧ x ≤ 3) ∨ (die = 4 ∧ (x = 4 ∨ x = 5))), id,
      fun _ => s.measurement die x⟩),
   (.keyExchange die x, ⟨"KEY_EXCHANGE", fun r => r.algs = true ∧ ∀ y ∈ r.sessions, y.1 ≠ x,
      fun r => { r with sessions := r.sessions ++ [(x, false)] }, fun _ => [[x]]⟩),
   (.finish die x, ⟨"FINISH", fun r => (x, false) ∈ r.sessions,
      fun r => { r with sessions := r.sessions.map fun y => if y.1 = x then (y.1, true) else y }, fun _ => [[x]]⟩),
   (.keyUpdate die x, ⟨"KEY_UPDATE", live, id, fun _ => [[x]]⟩),
   (.heartbeat die x, ⟨"HEARTBEAT", live, id, fun _ => [[x]]⟩),
   (.endSession die x, ⟨"END_SESSION", live, fun r => { r with sessions := r.sessions.filter (·.1 != x) }, fun _ => [[x]]⟩)]

end Sys2Proof.Claims

/-- R344 to R346: FLR_INITIATE stops a virtual function's contexts, ends its waves' waits and register claims and unlocks it; FLR_STOPPED, FLR_DRAINED
and FLR_DISCARDED are its next steps: no request, job or collective is left, then no register, translation or local byte;
FLR_DONE destroys the contexts and tells the PF. A step out of its order changes nothing. -/
def Obligations.FunctionReset : Prop :=
  (∀ (s : State) (fn : Nat), 6 ≤ s.mgmt.phase → FlrAt s fn 0 →
    ∃ t, exec (.flrInitiate fn) s = .next t ∧ (t.dev.fn fn).flr = 1 ∧ (t.dev.fn fn).tdisp = .unlocked ∧ t.dev.mem = s.dev.mem ∧
      t.dev.locmem = s.dev.locmem ∧
      (∀ w ∈ s.dev.waves, ∀ b, s.dev.wave? w.id = some w → s.dev.block? w.block = some b → Of s fn b.ctx →
        ∀ c ∈ t.dev.cores, ∀ x ∈ c.claims, x.1 ≠ w.id) ∧
      t.dev.ctxs = (s.dev.ctxs.map fun c => if c.fn = fn then { c with preempt := none, stopped := true } else c) ∧
      (∀ w ∈ t.dev.waves, ∀ b, s.dev.block? w.block = some b → Of s fn b.ctx → ∀ x ∈ w.strands, x.waiting = none) ∧
      t.dev.waves.map (fun w => (w.id, w.v, w.m, w.strands.map fun x => (x.pc, x.s))) =
        s.dev.waves.map fun w => (w.id, w.v, w.m, w.strands.map fun x => (x.pc, x.s))) ∧
  (∀ (s : State) (fn : Nat), FlrAt s fn 1 → exec (.flrStopped fn) s = .next (setFn s fn fun f => { f with flr := 2 })) ∧
  (∀ (s : State) (fn : Nat), FlrAt s fn 2 → ∃ t, exec (.flrDrained fn) s = .next t ∧ (t.dev.fn fn).flr = 3 ∧
    (∀ n, Of s fn n → (∀ o ∈ t.dev.memops, o.ctx ≠ n) ∧ (∀ o ∈ t.dev.owed, o.ctx ≠ n) ∧ (∀ x ∈ t.dev.suspRegs, x.1 ≠ n) ∧ (∀ r ∈ t.dev.remotes, r.ctx ≠ n) ∧ (∀ p ∈ t.dev.pending, p.ctx ≠ n) ∧
      (∀ j ∈ t.dev.jobs, j.ctx ≠ n) ∧ (∀ c ∈ t.dev.colls, c.ctx ≠ n) ∧
      (∀ x ∈ t.dev.triggers, x.ctx ≠ n) ∧ ∀ e ∈ t.dev.engines, (∀ r ∈ e.queue, r.ctx ≠ n) ∧ ∀ r, e.holder = some r → r.ctx ≠ n) ∧
    t.dev.locmem = s.dev.locmem) ∧
  (∀ (s : State) (fn : Nat), FlrAt s fn 3 → ∃ t, exec (.flrDiscarded fn) s = .next t ∧ (t.dev.fn fn).flr = 4 ∧ t.dev.mem = s.dev.mem ∧
    (∀ n, Of s fn n → (∀ e ∈ t.dev.tlb, e.ctx ≠ n) ∧ (∀ l ∈ t.dev.llc, l.slot ≠ n) ∧ ∀ l ∈ t.dev.l1, l.slot ≠ n) ∧
    (∀ b ∈ s.dev.blocks, Of s fn b.ctx → (∀ sp a, (b.range sp).base ≤ a → a < (b.range sp).base + (b.range sp).len →
        cellGet (t.dev.locCells b.core sp) a = 0) ∧
      ∀ w ∈ t.dev.waves, w.block = b.id → (∀ r ∈ w.v, ∀ x ∈ r, x = 0) ∧ (∀ x ∈ w.m, x = 0) ∧ w.spill = [] ∧
        w.cause = 0 ∧ w.tvec = 0 ∧ w.gsave = 0 ∧ w.lts = 0 ∧ w.fault = ⟨0, 0, 0, 0, false⟩ ∧ w.trec = TileRec.zero ∧
        ∀ x ∈ w.strands, x.epc = 0 ∧ (∀ y ∈ x.s, y = 0) ∧ ∀ y ∈ x.hsave, y = 0)) ∧
  (∀ (s : State) (fn : Nat), FlrAt s fn 4 → ∃ t, exec (.flrDone fn) s = .next t ∧ (t.dev.fn fn).flr = 0 ∧
    (t.dev.fn 0).event.getLsbD 1 = true ∧ (∀ c ∈ t.dev.ctxs, c.fn ≠ fn) ∧ (∀ n, Of s fn n → ∀ b ∈ t.dev.blocks, b.ctx ≠ n) ∧
    t.dev.servers = s.dev.servers) ∧
  (∀ (s : State) (fn : Nat), ((s.dev.fn fn).flr ≠ 1 → exec (.flrStopped fn) s = .next s) ∧
    ((s.dev.fn fn).flr ≠ 2 → exec (.flrDrained fn) s = .next s) ∧ ((s.dev.fn fn).flr ≠ 3 → exec (.flrDiscarded fn) s = .next s) ∧
    ((s.dev.fn fn).flr ≠ 4 → exec (.flrDone fn) s = .next s))

/-- R336, R337, R344: a TDISP message takes effect in the states that R344 gives and is answered with its data; in another state it
is refused. An SPDM request is answered when its place in the protocol is right, and refused otherwise without effect (the order
of the requests is the model's choice, log entry 70). IDE key management programs and stops a stream's key; that streams are
numbered up to 64 is the model's choice (log entry 71), and so is the layout of the BAR list in a TDISP report (log entry 109). -/
def Obligations.SecurityProtocols : Prop :=
  (∀ (s : State) (fn : Nat), 6 ≤ s.mgmt.phase → FlrAt s fn 0 → let f := s.dev.fn fn
    let answers (name : String) (data : List (List Nat)) (s : State) : State := told s (.tdisp fn name true data)
    let refuses (name : String) (s : State) : State := told s (.tdisp fn name false [])
    let counted : State := { s with dev := { s.dev with free := s.dev.free + 1 } }
    (f.tdisp = .unlocked → ∃ digest, exec (.lockInterface fn) s =
      .next (answers "LOCK_INTERFACE" [] (setFn counted fn fun f => { f with tdisp := .locked, digest := digest }))) ∧
    (f.tdisp ≠ .unlocked → exec (.lockInterface fn) s = .next (refuses "LOCK_INTERFACE" counted)) ∧
    (f.tdisp = .locked → exec (.startInterface fn) s =
      .next (answers "START_INTERFACE" [] (setFn s fn fun f => { f with tdisp := .run }))) ∧
    (f.tdisp ≠ .locked → exec (.startInterface fn) s = .next (refuses "START_INTERFACE" s)) ∧
    exec (.stopInterface fn) s = .next (answers "STOP_INTERFACE" [] (setFn s fn fun f => { f with tdisp := .unlocked, digest := 0 })) ∧
    (∃ t n, exec (.getDeviceInterfaceState fn) s = .next t ∧ Apart s t ∧ (t.dev.fn fn) = f ∧
      t.dev.out = s.dev.out ++ [.tdisp fn "GET_DEVICE_INTERFACE_STATE" true [[n]]] ∧
      (n = match f.tdisp with | .unlocked => 0 | .locked => 1 | .run => 2)) ∧
    (f.tdisp ≠ .unlocked → ∃ t, exec (.getDeviceInterfaceReport fn) s = .next t ∧ Apart s t ∧ (t.dev.fn fn) = f ∧
      t.dev.out = s.dev.out ++ [.tdisp fn "GET_DEVICE_INTERFACE_REPORT" true
        [[0, 0, 65535, 2, 0, 262143, 4, 0, (f.windows.map (·.2.len)).sum - 1], (s.dev.fnCtxs fn).map (·.n),
          f.windows.flatMap fun w => [w.1, w.2.base, w.2.len], (s.dev.fnCtxs fn).map (·.ptag)]]) ∧
    (f.tdisp = .unlocked → exec (.getDeviceInterfaceReport fn) s = .next (refuses "GET_DEVICE_INTERFACE_REPORT" s))) ∧
  (∀ (s : State) (die x : Nat), 6 ≤ s.mgmt.phase → die < 6 → ∀ i q, (i, q) ∈ asked s die x → let r := s.mgmt.responder die
    (q.ok r → exec i s = .next (spdmDone s die q.name (q.data r) (q.next r))) ∧
    (¬ q.ok r → exec i s = .next (told s (.spdm die q.name false [])))) ∧
  (∀ (s : State) (stream key : Nat), 6 ≤ s.mgmt.phase →
    (stream ≤ 64 → ∃ t, exec (.ideKeyManagement (.program stream key)) s = .next t ∧ t.dev = s.dev ∧
      t.mgmt.ide.find? (·.1 == stream) = some (stream, key) ∧
      ∀ n, n ≠ stream → t.mgmt.ide.find? (·.1 == n) = s.mgmt.ide.find? (·.1 == n)) ∧
    ∃ t, exec (.ideKeyManagement (.stop stream)) s = .next t ∧ t.dev = s.dev ∧ t.mgmt.ide = s.mgmt.ide.filter (·.1 != stream))

/-! ## Power, heat, retention, reset (13) -/

namespace Sys2Proof.Claims

/-- Nothing but the management processor differs. -/
def OnlyMgmt (s t : State) : Prop := t.dev = s.dev ∧ t.schedule = s.schedule

/-- The tile engine of a core is DARK. -/
def TileDark (t : State) (core : Nat) : Prop := (t.dev.engine core .tile).st = .dark

/-- A core that may give way in the first action of Table 13-1: in the core map, without a guarantee, with a ratio above 1 or a
vote above 0. -/
def GivesWay (s : State) (c : Nat) : Prop :=
  (s.dev.core c).mapped = true ∧ s.dev.guaranteed c = false ∧ ((∃ k ∈ (s.dev.core c).k, 1 < k) ∨ 0 < (s.mgmt.island c).vote)

/-- A core's island runs again at the highest point that its vote and its rail allow (R359). -/
def Awake (s t : State) (core : Nat) : Prop :=
  t.mgmt = { s.mgmt with islands := t.mgmt.islands } ∧ ∃ p ≤ (s.mgmt.island core).vote,
    (t.mgmt.island core).mv = pointMv p ∧ (t.mgmt.island core).mhz = pointMhz p ∧ (t.mgmt.island core).vote = (s.mgmt.island core).vote ∧
    ∀ q < 6, q ≤ (s.mgmt.island core).vote → pointMv q + 30 ≤ (s.mgmt.rail (railOf core)).mv → q ≤ p

/-- Level `l` of a die is in force at a temperature: its threshold is reached, or it was in force and the die is less than 5 °C
below it (R357). -/
def InForce (old top l : Nat) : Prop := l = 0 ∨ 85 + 10 * l ≤ top ∨ (l ≤ old ∧ 85 + 10 * l < top + 5)

end Sys2Proof.Claims

/-- R350 to R356: POWER_CONTROL_TICK measures every 24,000 cycles, takes the first possible action above P / 2 (on the lowest core,
the model's choice, log entry 63) and undoes the last below 95 percent of it; ISLAND_VOTE sets a vote and its rail's target
(point 5 for a guaranteed core); FREQUENCY_CHANGE_DONE, RAIL_HOLDOFF_EXPIRE and RAIL_STEP lower and raise frequency and voltage
in the order of R354 and R355 and never bring an island within 30 mV of its rail, ISLAND_RISE_STEP the voltage before the
frequency; CURRENT_EMERGENCY stretches clocks, counts, and
darkens the tile engines of the rail; CLOCK_STRETCH_END ends the stretch. The model's choices: PKGW adds the engines' reserved
power to the measurement, and CLOCK_STRETCH_END ends a stretch of 4,800 cycles (log entry 92); a rail may change its direction
under way (log entry 91). -/
def Obligations.PowerAndIslands : Prop :=
  (∀ (s : State) (w : Nat), (s.dev.clock < s.mgmt.ticked + 24000 → exec (.powerControlTick w) s = .next s) ∧
    (s.mgmt.ticked + 24000 ≤ s.dev.clock →
      let m : Mgmt := { s.mgmt with ticked := s.dev.clock, pkgw := w + ((List.range 4).map s.dev.reservedPower).sum / 10 }
      (2 * w ≤ s.mgmt.watts → 19 * s.mgmt.watts ≤ 40 * w → exec (.powerControlTick w) s = .next { s with mgmt := m }) ∧
      (∀ c, s.mgmt.watts < 2 * w → c < 896 → GivesWay s c → (∀ b < c, ¬ GivesWay s b) →
        ∃ t, exec (.powerControlTick w) s = .next t ∧ t.mgmt.pkgw = m.pkgw ∧
          t.mgmt.actions = .ratio c ((s.dev.core c).k.any (1 < ·)) (decide (0 < (s.mgmt.island c).vote)) :: s.mgmt.actions ∧
          (t.dev.core c).k = (s.dev.core c).k.map (fun k => max 1 (k - 1)) ∧ (t.dev.core c).pass = (s.dev.core c).pass ∧
          (t.mgmt.island c).vote = (s.mgmt.island c).vote - 1 ∧ t.dev.waves = s.dev.waves ∧ t.dev.mem = s.dev.mem) ∧
      (∀ c rest, 40 * w < 19 * s.mgmt.watts → 2 * w ≤ s.mgmt.watts → s.mgmt.actions = .pass c :: rest →
        ∃ t, exec (.powerControlTick w) s = .next t ∧ t.mgmt = { m with actions := rest } ∧
          (t.dev.core c).pass = max 1 ((s.dev.core c).pass / 2)) ∧
      (∀ c rest k vote, 40 * w < 19 * s.mgmt.watts → 2 * w ≤ s.mgmt.watts → s.mgmt.actions = .ratio c k vote :: rest →
        ∃ t, exec (.powerControlTick w) s = .next t ∧ t.mgmt.actions = rest ∧
          (t.dev.core c).k = (if k then (s.dev.core c).k.map (fun k => min 8 (k + 1)) else (s.dev.core c).k) ∧
          (t.mgmt.island c).vote = (if vote then min 5 ((s.mgmt.island c).vote + 1) else (s.mgmt.island c).vote)))) ∧
  (∀ (s : State) (i p : Nat), i < 1024 → p < 6 → ∃ t, exec (.islandVote i p) s = .next t ∧ OnlyMgmt s t ∧
    (t.mgmt.island i).vote = (if i < 896 ∧ s.dev.guaranteed i = true then 5 else p) ∧
    (t.mgmt.rail (railOf i)).target = 630 + 50 * maxOf ((railIslands (railOf i)).map fun j => (t.mgmt.island j).vote) ∧
    (t.mgmt.rail (railOf i)).mv = (s.mgmt.rail (railOf i)).mv ∧
    (∀ j, (t.mgmt.island j).mhz = (s.mgmt.island j).mhz ∧ (t.mgmt.island j).mv ≤ (s.mgmt.island j).mv) ∧
    (∀ j, j ≠ i → (t.mgmt.island j).vote = (s.mgmt.island j).vote ∧ (t.mgmt.island j).mv = (s.mgmt.island j).mv) ∧
    (∀ j, j ∉ railIslands (railOf i) → t.mgmt.island j = s.mgmt.island j) ∧
    ∀ r, r ≠ railOf i → t.mgmt.rail r = s.mgmt.rail r) ∧
  (∀ (s : State) (i due : Nat), let x := s.mgmt.island i
    i < 1024 → x.next = some due → due ≤ s.dev.clock →
    (pointMhz x.vote < x.mhz → ∃ t, exec (.frequencyChangeDone (railOf i)) s = .next t ∧ OnlyMgmt s t ∧
      t.mgmt.island i = { x with mhz := pointMhz x.vote, mv := min x.mv (pointMv x.vote), next := none }) ∧
    (x.mhz ≤ pointMhz x.vote → (s.mgmt.rail (railOf i)).mv < pointMv x.vote + 30 → exec (.islandRiseStep i) s = .next s) ∧
    (x.mhz ≤ pointMhz x.vote → pointMv x.vote + 30 ≤ (s.mgmt.rail (railOf i)).mv → x.mv < pointMv x.vote → ∃ t, exec (.islandRiseStep i) s = .next t ∧ OnlyMgmt s t ∧
      t.mgmt.island i = { x with mv := pointMv x.vote, next := if x.mhz < pointMhz x.vote then some (due + 480) else none }) ∧
    (x.mhz ≤ pointMhz x.vote → pointMv x.vote + 30 ≤ (s.mgmt.rail (railOf i)).mv → pointMv x.vote ≤ x.mv → ∃ t, exec (.islandRiseStep i) s = .next t ∧ OnlyMgmt s t ∧
      t.mgmt.island i = { x with mhz := pointMhz x.vote, next := none })) ∧
  (∀ (s : State) (rail due : Nat), let r := s.mgmt.rail rail
    let down := max (r.mv - 10) r.target
    let fallen : Rail := { r with mv := down, phase := if down = r.target then .steady else .falling (due + 2400) }
    let may : Prop := ∀ i ∈ railIslands rail, (s.mgmt.island i).mv + 30 ≤ down
    let up := min (r.mv + 10) r.target
    due ≤ s.dev.clock →
    (r.phase = .lowering due → ∃ t, exec (.frequencyChangeDone rail) s = .next t ∧ OnlyMgmt s t ∧
      t.mgmt.rail rail = { r with phase := .holdoff (due + 120000) }) ∧
    (r.phase = .holdoff due → may → ∃ t, exec (.railHoldoffExpire rail) s = .next t ∧ OnlyMgmt s t ∧ t.mgmt.rail rail = fallen) ∧
    (r.phase = .falling due → may → ∃ t, exec (.railStep rail) s = .next t ∧ OnlyMgmt s t ∧ t.mgmt.rail rail = fallen) ∧
    (r.phase = .holdoff due → ¬ may → exec (.railHoldoffExpire rail) s = .next s) ∧
    (r.phase = .falling due → ¬ may → exec (.railStep rail) s = .next s) ∧
    (r.phase = .rising due → ∃ t, exec (.railStep rail) s = .next t ∧ OnlyMgmt s t ∧
      t.mgmt.rail rail = { r with mv := up, phase := if up = r.target then .steady else .rising (due + 1200) })) ∧
  (∀ (s : State) (rail : Nat), 32 ≤ rail → exec (.currentEmergency rail) s = .next s) ∧
  (∀ (s : State) (rail : Nat), rail < 32 → ∃ t, exec (.currentEmergency rail) s = .next t ∧
    t.mgmt.emerg = (s.mgmt.emerg + 1) % 2 ^ 32 ∧ t.mgmt.rail rail = { s.mgmt.rail rail with stretch := some (s.dev.clock + 4800) } ∧
    t.dev.mem = s.dev.mem ∧ t.dev.locmem = s.dev.locmem ∧ ∀ core, rail < 28 → core / 32 = rail → TileDark t core) ∧
  (∀ (s : State) (rail : Nat), rail < 32 → ∃ t, exec (.clockStretchEnd rail) s = .next t ∧ OnlyMgmt s t ∧
    t.mgmt.rail rail = { s.mgmt.rail rail with stretch := none })

/-- R357 to R361: THERMAL_LEVEL takes the level that the hottest core gives, and the die's allowance follows; level 3 resets the
package. MIGRATION_CLOSE ends a request whose cores have cooled. RETENTION_ENTER puts an idle core without a guarantee to sleep, not before phase 4 of bring-up
(the model's choice, log entry 108), RETENTION_EXIT wakes
it with what it held once a placement has woken it and 2 µs have passed, or sends it through a cold reset whose end is CORE_COLD_RESET_DONE. PACKAGE_RESET leaves nothing placed or
cached, and BRINGUP_PHASE goes from phase to phase, halting on an error. The model's choices: package reset forgets a retirement
(log entry 89), gives fresh key names (log entry 17) and leaves caches empty (log entry 5), and islands and rails have no power
before phase 1 has ended (log entry 90). -/
def Obligations.HeatRetentionAndReset : Prop :=
  (∀ (s : State) (die : Nat) (temps : List (Nat × Nat)), die < 4 → let top := maxOf (temps.map (·.2))
    let old := assoc s.mgmt.levels die
    (InForce old top 3 → exec (.thermalLevel die temps) s = exec .packageReset s) ∧
    (¬ InForce old top 3 → s.dev.allow.length = 4 → ∃ t, exec (.thermalLevel die temps) s = .next t ∧
      InForce old top (assoc t.mgmt.levels die) ∧ (∀ l < 4, InForce old top l → l ≤ assoc t.mgmt.levels die) ∧
      assoc t.mgmt.temps die = top ∧ t.mgmt.watts = s.mgmt.watts ∧
      t.dev.allow[die]? = some (s.mgmt.watts * (100 - 5 * s.mgmt.cuts) * (if 2 ≤ assoc t.mgmt.levels die then 1 else 2) / 160) ∧
      ∀ c x, temps = [(c, x)] → dieOf c = die → 95 ≤ x → (∀ m ∈ s.mgmt.migrations, m.die ≠ die) →
        (t.dev.core c).migrating = true ∧ t.mgmt.migrations = s.mgmt.migrations ++ [⟨die, [c], s.dev.clock⟩])) ∧
  (∀ (s : State) (m : Migration) (temps : List (Nat × Nat)), s.mgmt.migrations.find? (·.die == m.die) = some m →
    (assoc s.mgmt.levels m.die = 0 → ((∀ c ∈ m.cores, ∃ x, (c, x) ∈ temps ∧ x < 90) ∨ m.opened + 24000000 ≤ s.dev.clock) →
      ∃ t, exec (.migrationClose m.die temps) s = .next t ∧ (∀ c ∈ m.cores, (t.dev.core c).migrating = false) ∧
        t.mgmt = { s.mgmt with migrations := s.mgmt.migrations.filter (·.die != m.die) } ∧ t.dev.waves = s.dev.waves) ∧
    ((∃ c ∈ m.cores, ∀ x ∈ temps, x.1 ≠ c ∨ 90 ≤ x.2) → s.dev.clock < m.opened + 24000000 →
      exec (.migrationClose m.die temps) s = .next s)) ∧
  (∀ (s : State) (core : Nat), let c := s.dev.core core
    (core < 896 → 4 ≤ s.mgmt.phase → s.dev.guaranteed core = false → c.retention = false → c.mapped = true → c.coldTill = none → s.dev.wavesOn core = [] → s.dev.wanted core = false →
      c.idle + 120000 ≤ s.dev.clock → (∀ kd, (s.dev.engine core kd).st = .dark ∨
        ((s.dev.engine core kd).core = core ∧ (s.dev.engine core kd).kind = kd ∧ (s.dev.engine core kd).st = .warm ∧
          (s.dev.engine core kd).holder = none ∧ s.dev.engineJobs core kd = [])) →
      ∃ t, exec (.retentionEnter core) s = .next t ∧ Apart s { t with mgmt := s.mgmt } ∧
        t.dev.core core = { c with retention := true, wake := none } ∧ t.mgmt = { s.mgmt with islands := t.mgmt.islands } ∧
        t.mgmt.island core = { s.mgmt.island core with mv := 450, mhz := 0, next := none } ∧
        ∀ kd, (t.dev.engine core kd).st = .dark) ∧
    (s.dev.wavesOn core ≠ [] ∨ s.mgmt.phase < 4 ∨ s.dev.guaranteed core = true → exec (.retentionEnter core) s = .next s) ∧
    (c.retention = true → (∀ w, c.wake = some w → s.dev.clock < w) → ∀ bad control, exec (.retentionExit core bad control) s = .next s) ∧
    (∀ w, c.retention = true → c.coldTill = none → c.wake = some w → w ≤ s.dev.clock →
      (∃ t, exec (.retentionExit core 0 false) s = .next t ∧ Apart s { t with mgmt := s.mgmt } ∧
        t.dev.core core = { c with retention := false, wake := none, idle := s.dev.clock } ∧ Awake s t core) ∧
      ∀ bad, ∃ t, exec (.retentionExit core bad true) s = .next t ∧ t.dev.mem = s.dev.mem ∧
        t.dev.core core = { c with wake := none, coldTill := some (s.dev.clock + 480000) } ∧
        ∀ sp : Space, ∀ a < sp.size, cellGet (t.dev.locCells core sp) a = 0) ∧
    (∀ till, c.coldTill = some till → till ≤ s.dev.clock → ∃ t, exec (.coreColdResetDone core) s = .next t ∧
      Apart s { t with mgmt := s.mgmt } ∧ Awake s t core ∧ t.dev.core core = { Core.reset core with
        l1Ways := c.l1Ways, retired := c.retired, mapped := c.mapped, migrating := c.migrating, idle := s.dev.clock } ∧
      (∀ l ∈ t.dev.l1, l.core ≠ core) ∧ (∀ e ∈ t.dev.icache, e.core ≠ core) ∧ (∀ e ∈ t.dev.tlb, e.core ≠ core) ∧
      ∀ l ∈ t.dev.loclines, l.core ≠ core)) ∧
  (∀ s : State, ∃ t, exec .packageReset s = .next t ∧ t.mgmt = State.reset.mgmt ∧ t.schedule = s.schedule ∧
    t.dev = { State.reset.dev with
      free := s.dev.free, keyBase := s.dev.nextId, nextId := s.dev.nextId + 256, out := s.dev.out }) ∧
  (∀ (s : State) (e : Nat) (bad : List Nat), s.mgmt.ready = false → s.mgmt.errcode = 0 →
    (e % 256 = 0 → ∃ t, exec (.bringupPhase e bad) s = .next t ∧ t.mgmt.phase = s.mgmt.phase + 1 ∧
      (t.mgmt.ready = true ↔ 6 ≤ s.mgmt.phase) ∧ t.mgmt.errcode = 0 ∧ t.dev.waves = s.dev.waves ∧
      (s.mgmt.phase = 1 → (∀ i, t.mgmt.island i = ⟨i, 3, 750, 1800, none⟩) ∧ ∀ r, t.mgmt.rail r = ⟨r, 780, 780, .steady, none⟩) ∧
      (s.mgmt.phase = 3 → t.dev.clock = 0 ∧ t.mgmt.ticked = 0 ∧ t.dev.mt = [] ∧ t.dev.llc = [] ∧ t.dev.locmem = []) ∧
      (s.mgmt.phase = 2 → ∀ c ∈ bad, c < 896 → (t.dev.core c).mapped = false) ∧
      (s.mgmt.phase = 5 → ∀ n < 128, (t.dev.port n).up = !bad.contains n)) ∧
    (e % 256 ≠ 0 → s.mgmt.phase ≤ 4 →
      exec (.bringupPhase e bad) s = .next { s with mgmt := { s.mgmt with errcode := e % 256 } })) ∧
  (∀ (s : State) (e : Nat) (bad : List Nat), s.mgmt.ready = true ∨ s.mgmt.errcode ≠ 0 → exec (.bringupPhase e bad) s = .next s)
/-! ## Encoding (03) -/

namespace Sys2Proof.Claims

/-- The reply of another package to the request for a line of code (R272). -/
def CameFrom (s : State) (k : Issue) (pkg pa : Nat) (a : Answer) : Prop :=
  (s.dev.inbox.find? fun m => m.1 == codeReader && m.2.1 == codeKey k.ctx.n pkg pa).map (·.2.2) = some a

/-- A byte of code stands at a place: in this package's memory, where its sector passes its check, or in a line that another
package has sent. -/
def CodeByte (s : State) (k : Issue) (b : Byte) : Loc → Prop
  | .glob pa => s.dev.sectorOk k.ctx.n (pa / 32) = true ∧ s.dev.byteAt k.ctx.n pa = b
  | .remote pkg pa => ∃ t bs, CameFrom s k pkg pa (.done t bs) ∧ (bs[pa % 128]?).getD 0 = b
  | _ => False

/-- The bytes at a PC can be fetched (R82, R176): each lies on a page that the context maps with the execute right. -/
def CodeAt (s : State) (k : Issue) (bs : List Byte) : Prop :=
  k.pc.toNat + bs.length ≤ 2 ^ 56 ∧ ∀ j (h : j < bs.length), ∃ l, s.dev.translate k.core k.ctx (k.pc.toNat + j) = .ok l ∧ l.x = true ∧
    CodeByte s k bs[j] (l.loc (k.pc.toNat + j))

/-- What keeps the byte at an address from being fetched: its cause, and the detail of the fault word (R82, R88). -/
def Unfetchable (s : State) (k : Issue) (va cause detail : Nat) : Prop :=
  if 2 ^ 56 ≤ va then cause = cFetch ∧ detail = 1
  else match s.dev.translate k.core k.ctx va with
  | .error e => if e = cIntegrity then cause = cIntegrity ∧ detail = 3 else cause = cFetch ∧ detail = 1
  | .ok l =>
    if l.x = false then cause = cFetch ∧ detail = 2
    else match l.loc va with
    | .glob pa => s.dev.sectorOk k.ctx.n (pa / 32) = false ∧ cause = cIntegrity ∧ detail = 3
    | .remote pkg pa => ∃ e, CameFrom s k pkg pa (.failed e) ∧
      ((e = cIntegrity ∧ cause = cIntegrity ∧ detail = 3) ∨ (e = cRights ∧ cause = cFetch ∧ detail = 2) ∨
        (e ≠ cIntegrity ∧ e ≠ cRights ∧ cause = cFetch ∧ detail = 1))
    | _ => cause = cFetch ∧ detail = 1

/-- The I-cache has taken in the line of the gang's PC from there on, and lines of code that had come leave the inbox. -/
def filled (s : State) (k : Issue) : State :=
  { s with dev := (s.dev.fillCode k.core k.ctx k.pc.toNat).dropCode k.ctx.n }

/-- The gang's instruction has been taken in as this word, and nothing that a program can see has changed (R87). -/
def TookIn (s : State) (k : Issue) (w : IWord) : Prop :=
  (filled s k).dev.icached k.core k.ctx.n k.pc.toNat = some w ∧ (filled s k).dev.waves = s.dev.waves ∧
    (filled s k).dev.blocks = s.dev.blocks ∧ (filled s k).mgmt = s.mgmt ∧ (filled s k).dev.clock = s.dev.clock

open Classical in
/-- What a step does with an instruction of a length that has been read (R73): it runs, unless the PC would pass the end of
the address space after it (FETCH, log entry 19), or it reads a register that cannot be corrected (R263: INTEGRITY, unless the
instruction raises REGRANGE or GANG, log entry 6). -/
noncomputable def ran (s : State) (k : Issue) (i : Instr) (n : Nat) : Host.Outcome State Fault Refusal :=
  let traps (c : Nat) : State := after s fun d => d.trap k c
  if 2 ^ 56 ≤ k.pc.toNat + n ∧ transfersControl i = false then .next (traps cFetch)
  else if (∃ r x, (k.wave.id, r, x) ∈ s.dev.badRegs ∧ ∃ o ∈ sources i, o.meets k r = true) ∧
      exec i s ≠ .next (traps cRegrange) ∧ exec i s ≠ .next (traps cGang) then .next (traps cIntegrity)
  else exec i s

/-- What the management registers hold in every state that a run passes through: the cap is one that the operator may set
(R349), at most 20 cuts are in force, the counters wrap at 32 bits and the thermal level is 0 to 3 (Table 13-5); READY says
that bring-up has passed phase 6, and a halted bring-up names its error (R361); a die has at most one migration request, of
1 to 16 cores (R358). -/
structure MgmtOk (m : Mgmt) : Prop where
  cap : 1800 ≤ m.watts ∧ m.watts ≤ 3600
  cuts : m.cuts ≤ 20
  emerg : m.emerg < 2 ^ 32
  seccnt : m.seccnt < 2 ^ 32
  levels : ∀ x ∈ m.levels, x.2 ≤ 3
  phase : m.phase ≤ 7 ∧ (m.ready = true ↔ m.phase = 7)
  errcode : m.errcode < 256 ∧ (m.errcode ≠ 0 → m.phase ≤ 4)
  requests : (m.migrations.map (·.die)).Nodup ∧ ∀ x ∈ m.migrations, 1 ≤ x.cores.length ∧ x.cores.length ≤ 16

end Sys2Proof.Claims

/-- R73 to R82: no bit of an encoding is dropped. The bytes of every well-formed instruction, whatever follows them, decode
to it and to its length. -/
def Obligations.DecodeReadsEncode : Prop := ∀ i : Instr, Sys2Proof.Laws.RoundTrip.Statement i

/-- R73 to R82: each byte pattern has one meaning. What decodes to an instruction of `n` bytes is exactly that instruction's
encoding, so reserved bits are zero (R82), the instruction is well-formed, and its length is that of its class (R74); and no
byte after the `n` matters. -/
def Obligations.EncodeGivesDecoded : Prop :=
  ∀ (bs : List Byte) (i : Instr) (n : Nat), decode bs = .ok (i, n) →
    i.wf = true ∧ encode i = some (bs.take n) ∧ n ≤ bs.length ∧ (n = 1 ∨ n = 2 ∨ n = 4 ∨ n = 6 ∨ n = 8 ∨ n = 12) ∧
      ∀ rest, decode (bs.take n ++ rest) = .ok (i, n)

/-- The spec's worked encodings (03, and Tables 4-3, 5-1, 6-2 and 7-1 among them) decode as they are written: at least one
of each class; and some of the patterns of Table 3-3 that are no instruction. -/
def Obligations.WorkedEncodings : Prop :=
  decode [0x01, 0x0C, 0x41, 0x40] = .ok (.add 3 4 5, 4) ∧
  decode [0x28, 0x0C, 0x3F, 0xFF] = .ok (.addi 3 3 0xFFF, 4) ∧
  decode [0x3B, 0x0F, 0xFF, 0xF8] = .ok (.bnz 3 0x3FFF8, 4) ∧
  decode [0x43, 0xFC, 0x0F, 0xFF] = .ok (.wait 0x3F 0 0x1F 0xF 7, 4) ∧
  decode [0x43, 0x03, 0xF0, 0x7F] = .ok (.wait 0 0x3F 0 0xF 7, 4) ∧
  decode [0x48, 0x08, 0x00, 0x03] = .ok (.sget 2 3, 4) ∧
  decode [0x51, 0x00, 0x00, 0x07] = .ok (.regclm 7, 4) ∧
  decode [0x6F, 0x18, 0x40, 0x08] = .ok (.sst64 6 4 8, 4) ∧
  decode [0x84, 0xC1, 0x0A, 0x02, 0x03, 0x04] = .ok (.fma .rne ⟨false, 1⟩ 10 2 3 4, 6) ∧
  decode [0x85, 0xAA, 0x03, 0x04, 0x05, 0x00] = .ok (.fcmp .lt ⟨true, 2⟩ 3 4 5, 6) ∧
  decode [0xC1, 0x40, 0x09, 0x07, 0x11, 0x00, 0x00, 0x10] = .ok (.ld .w32 ⟨false, 0⟩ 9 ⟨7, 4, 2, 16⟩, 8) ∧
  decode [0xC9, 0x00, 0x04, 0x00, 0x1F, 0x80, 0x00, 0x00] = .ok (.cmpst ⟨false, 0⟩ 4 7 0, 8) ∧
  decode [0xCA, 0x50, 0x02, 0x00, 0x3F, 0x80, 0x00, 0x00] = .ok (.movi ⟨false, 0⟩ 2 0x3F800000, 8) ∧
  decode [0xE1, 0x30, 0x2C, 0x92, 0x0C, 0x00, 0x00, 0x83, 0x00, 0x00, 0x00, 0x00] = .ok (.tcpyG2l ⟨8, 9, 12, some 3, 11⟩, 12) ∧
  decode [0xE5, 0xA0, 0x00, 0x90, 0x00, 0x00, 0x00, 0x00, 0x00, 0x00, 0x00, 0x03] = .ok (.cancel .job 9, 12) ∧
  decode [0xF2, 0xFF] = .ok (.regang 0xFF, 2) ∧
  decode [0xFF, 0x00] = .ok (.pad, 1) ∧
  decode [0xF6, 0x00] = .error .firstByte ∧
  decode [0x00, 0x0C, 0x41, 0x40] = .error .encoding ∧
  decode [0x01, 0x0C, 0x41, 0x41] = .error .encoding ∧
  decode [0xF2, 0x00] = .error .operand ∧
  decode [0xC1, 0x40, 0x09, 0x07, 0x12, 0x80, 0x00, 0x10] = .error .operand

/-! ## One step (03, log entry 1) -/

/-- R73, R74, R82, R83, R87, R272: while a gang is selected, a step is the instruction at its PC, after which the units that keep
an order of arrival note what it has left. What the I-cache holds at that address is run as it is; otherwise the bytes that
can be fetched are taken in and run. Bytes that are no instruction raise ILLEGAL; bytes that cannot be fetched raise FETCH,
or INTEGRITY when their check fails, and nothing is run; where the PC would pass 2^56 - 1 after an instruction that does not
transfer control, FETCH is raised instead (the model's choice, log entry 19). While a line of code is on its way from another
package, the gang waits (the model's choice, with the DETAIL of what cannot be fetched: log entry 20). A gang whose instruction
reads a register with an uncorrectable error raises INTEGRITY instead of running it (which registers it reads, and how long the
error stays, is the model's choice: log entry 6). -/
def Obligations.StepRunsTheInstruction : Prop :=
  ∀ (s : State) (k : Issue), s.dev.issuer? = some k →
    (∀ bs i n, s.dev.icached k.core k.ctx.n k.pc.toNat = some (.word bs) → decode bs = .ok (i, n) →
      step s = settled (ran s k i bs.length)) ∧
    (∀ bs e, s.dev.icached k.core k.ctx.n k.pc.toNat = some (.word bs) → decode bs = .error e →
      step s = settled (.next (after s fun d => d.trap k cIllegal))) ∧
    (∀ c o x, s.dev.icached k.core k.ctx.n k.pc.toNat = some (.fault c o x) →
      step s = settled (.next (after s fun d => d.trap k c))) ∧
    (s.dev.icached k.core k.ctx.n k.pc.toNat = none → s.dev.codeWanted k.core k.ctx k.pc.toNat ≠ [] →
      ∃ t, step s = settled (.next t) ∧ t.dev.waves = ((s.dev.stall k (.code k.pc.toNat))).waves ∧ t.dev.latch = none ∧
        ∀ x ∈ s.dev.codeWanted k.core k.ctx k.pc.toNat, ∃ r ∈ t.dev.remotes, r.job = some (codeReader, 0, x.1)) ∧
    (s.dev.icached k.core k.ctx.n k.pc.toNat = none → s.dev.codeWanted k.core k.ctx k.pc.toNat = [] →
      (∀ bs i, CodeAt s k bs → decode bs = .ok (i, bs.length) →
        TookIn s k (.word bs) ∧ step s = settled (ran (filled s k) k i bs.length)) ∧
      (∀ b bs cl, CodeAt s k (b :: bs) → Class.ofByte b = some cl → bs.length + 1 = cl.length →
        (∃ e, decode (b :: bs) = .error e) →
        TookIn s k (.word (b :: bs)) ∧ step s = settled (.next (after (filled s k) fun d => d.trap k cIllegal))) ∧
      (∀ b, CodeAt s k [b] → Class.ofByte b = none →
        TookIn s k (.fault cIllegal 0 0) ∧ step s = settled (.next (after (filled s k) fun d => d.trap k cIllegal))) ∧
      (∀ c x, Unfetchable s k k.pc.toNat c x →
        TookIn s k (.fault c 0 x) ∧ step s = settled (.next (after (filled s k) fun d => d.trap k c))) ∧
      (∀ b bs cl c x, CodeAt s k (b :: bs) → Class.ofByte b = some cl → bs.length + 1 < cl.length →
        Unfetchable s k (k.pc.toNat + bs.length + 1) c x →
        TookIn s k (.fault c (bs.length + 1) x) ∧ step s = settled (.next (after (filled s k) fun d => d.trap k c))))

/-- Log entry 1 (the model's choice, DESIGN CHOICE): with no gang selected, the head of the schedule happens after its
cycles, unless it is an instruction that only a gang issues, and is gone; an entry without an event, or no entry, leaves the
step to the machine: the first step of the agenda that changes the state, or a cycle. What a step has left is noted by the
units that keep an order of arrival. -/
def Obligations.StepFollowsTheSchedule : Prop :=
  ∀ s : State,
    (s.dev.issuer? = none → s.dev.latch ≠ none → step s = settled (.next { s with dev := { s.dev with latch := none } })) ∧
    (s.dev.latch = none →
      (∀ dt i rest, s.schedule = ⟨dt, some i⟩ :: rest →
        step s = settled ((if isIssued i then Host.Outcome.next else exec i) { s with dev := s.dev.tick dt, schedule := rest })) ∧
      (∀ dt rest t, s.schedule = ⟨dt, none⟩ :: rest → t = { s with dev := s.dev.tick dt, schedule := rest } →
        step s = settled (ownChoice t)) ∧
      (s.schedule = [] →
        ((∀ i ∈ agenda s, changes s i = false) → step s = settled (.next { s with dev := { s.dev with
            clock := s.dev.clock + 1
            rot := (s.dev.clock + 1) / 2400 % 256
            ctxs := s.dev.ctxs.map fun c => let u := s.dev.leaseCharge c.n 1; if u = 0 then c else c.charge u } })) ∧
        (∀ before i rest t, agenda s = before ++ i :: rest → (∀ x ∈ before, changes s x = false) →
          exec i s = .next t → t ≠ s → step s = settled (.next t))))

/-! ## Invariants of every step -/

/-- A step never leaves the sparse memories without their canonical form, in which equal contents are equal data. -/
def Obligations.StepKeepsMemoryCanonical : Prop := ∀ s t : State, memOk s → step s = .next t → memOk t

/-- R349, R350, R357, R358, R361, Table 13-5: no step of the package takes a management register out of its range. -/
def Obligations.StepKeepsManagementRegisters : Prop :=
  ∀ s t : State, MgmtOk s.mgmt → step s = .next t → MgmtOk t.mgmt

/-- R361, Table 13-5: the package right after reset stands before phase 1 with PWRCAP at 3,600 and every other management
register zero; no context exists, nothing is placed, cached or under way, `%clock` is 0, `MT` is 0 and every die's engine
allowance is an eighth of the cap (R266, R296, R349); and both invariants hold. That memory lists nothing stands for
contents that the spec leaves as found (R394; log entry 4: each unwritten byte is a free value). With nothing scheduled
the first step ends phase 0 of bring-up (log entries 1 and 13). The model's choices: caches, TLBs and instruction caches are
empty (log entry 5), and no gang is selected (log entry 98). -/
def Obligations.ResetState : Prop :=
  MgmtOk State.reset.mgmt ∧ memOk State.reset ∧ State.reset.schedule = [] ∧
  State.reset.mgmt.ready = false ∧ State.reset.mgmt.errcode = 0 ∧ State.reset.mgmt.phase = 0 ∧
  State.reset.mgmt.watts = 3600 ∧ State.reset.mgmt.pkgw = 0 ∧ State.reset.mgmt.emerg = 0 ∧ State.reset.mgmt.seccnt = 0 ∧
  State.reset.mgmt.brkhalt = false ∧ State.reset.mgmt.iwaddr = 0 ∧ State.reset.mgmt.iwhit = false ∧
  State.reset.mgmt.iwcore = 0 ∧ State.reset.mgmt.iwctx = 0 ∧ State.reset.mgmt.iwdata = 0 ∧ State.reset.mgmt.retlog = none ∧
  State.reset.dev.latch = none ∧ State.reset.dev.clock = 0 ∧ State.reset.dev.mt = [] ∧
  State.reset.dev.waves = [] ∧ State.reset.dev.blocks = [] ∧ State.reset.dev.ctxs = [] ∧ State.reset.dev.engines = [] ∧
  State.reset.dev.llc = [] ∧ State.reset.dev.icache = [] ∧ State.reset.dev.tlb = [] ∧ State.reset.dev.mem = [] ∧
  (∀ die < 4, State.reset.dev.allow[die]? = some (3600 * 10 / 8)) ∧
  step State.reset = settled (exec (.bringupPhase 0 []) State.reset)
end

