-- ==== Sys2Proof/Laws/Memory.lean ====
section
/-!
SUPPORT. The sparse memories: reads after writes, the canonical form, and what each operation of a home does to the bytes.
-/

namespace Sys2Proof.Machine

/-! ## One byte -/

theorem cellGet_above (m : List Host.Cell) (lo b : Nat) (h : cellsFrom lo m = true) (hb : b < lo) : cellGet m b = 0 := by
  induction m generalizing lo with
  | nil => rfl
  | cons q l ih =>
    obtain ⟨k, v⟩ := q
    simp only [cellsFrom, Bool.and_eq_true, decide_eq_true_eq] at h
    simp only [cellGet]
    rw [if_neg (by omega)]
    exact ih (k + 1) h.2 (by omega)

theorem cellGet_cellPut_from (m : List Host.Cell) (lo a : Nat) (x : Byte) (h : cellsFrom lo m = true) :
    cellGet (cellPut m a x) a = x := by
  induction m generalizing lo with
  | nil =>
    by_cases hx : x = 0
    · simp only [cellPut]; rw [if_pos hx, hx]; rfl
    · simp only [cellPut]; rw [if_neg hx]; simp [cellGet]
  | cons p t ih =>
    obtain ⟨k, v⟩ := p
    simp only [cellsFrom, Bool.and_eq_true, decide_eq_true_eq] at h
    obtain ⟨_, ht⟩ := h
    simp only [cellPut]
    split
    · rename_i hlt
      by_cases hx : x = 0
      · rw [if_pos hx, hx]
        simp only [cellGet]
        rw [if_neg (by omega)]
        exact cellGet_above t (k + 1) a ht (by omega)
      · rw [if_neg hx]; simp [cellGet]
    · split
      · by_cases hx : x = 0
        · rw [if_pos hx, hx]
          exact cellGet_above t (k + 1) a ht (by omega)
        · rw [if_neg hx]; simp [cellGet]
      · simp only [cellGet]
        rw [if_neg (by omega)]
        exact ih (k + 1) ht

theorem cellGet_cellPut_same (m : List Host.Cell) (a : Nat) (x : Byte) (h : Memory.wf m = true) :
    cellGet (cellPut m a x) a = x := cellGet_cellPut_from m 0 a x h

theorem cellGet_cellPut_other (m : List Host.Cell) (a b : Nat) (x : Byte) (hab : b ≠ a) :
    cellGet (cellPut m a x) b = cellGet m b := by
  induction m with
  | nil =>
    simp only [cellPut]
    split
    · rfl
    · simp only [cellGet]
      rw [if_neg (Ne.symm hab)]
  | cons p t ih =>
    obtain ⟨k, v⟩ := p
    simp only [cellPut]
    split
    · split
      · rfl
      · simp only [cellGet]
        rw [if_neg (Ne.symm hab)]
    · split
      · rename_i heq
        subst heq
        split
        · simp only [cellGet]; rw [if_neg (Ne.symm hab)]
        · simp only [cellGet]; rw [if_neg (Ne.symm hab), if_neg (Ne.symm hab)]
      · simp only [cellGet, ih]

/-! ## The canonical form -/

theorem cellsFrom_mono (m : List Host.Cell) (lo lo' : Nat) (hl : lo' ≤ lo) (h : cellsFrom lo m = true) :
    cellsFrom lo' m = true := by
  cases m with
  | nil => rfl
  | cons p t =>
    obtain ⟨k, v⟩ := p
    simp only [cellsFrom, Bool.and_eq_true, decide_eq_true_eq] at h ⊢
    exact ⟨⟨by omega, h.1.2⟩, h.2⟩

theorem cellsFrom_cellPut (m : List Host.Cell) (lo a : Nat) (x : Byte) (ha : lo ≤ a) (h : cellsFrom lo m = true) :
    cellsFrom lo (cellPut m a x) = true := by
  induction m generalizing lo with
  | nil =>
    simp only [cellPut]
    split
    · rfl
    · rename_i hx
      simp only [cellsFrom, Bool.and_eq_true, decide_eq_true_eq, bne_iff_ne]
      exact ⟨⟨ha, hx⟩, trivial⟩
  | cons p t ih =>
    obtain ⟨k, v⟩ := p
    have h0 := h
    simp only [cellsFrom, Bool.and_eq_true, decide_eq_true_eq] at h
    obtain ⟨⟨hk, hv⟩, ht⟩ := h
    simp only [cellPut]
    split
    · split
      · exact h0
      · rename_i hlt hx
        simp only [cellsFrom, Bool.and_eq_true, decide_eq_true_eq, bne_iff_ne]
        exact ⟨⟨ha, hx⟩, ⟨by omega, by simpa using hv⟩, ht⟩
    · split
      · rename_i heq
        split
        · exact cellsFrom_mono t (k + 1) lo (by omega) ht
        · rename_i hx
          simp only [cellsFrom, Bool.and_eq_true, decide_eq_true_eq, bne_iff_ne]
          exact ⟨⟨ha, hx⟩, by rw [heq]; exact ht⟩
      · simp only [cellsFrom, Bool.and_eq_true, decide_eq_true_eq]
        exact ⟨⟨hk, hv⟩, ih (k + 1) (by omega) ht⟩

theorem wf_cellPut (m : List Host.Cell) (a : Nat) (x : Byte) (h : Memory.wf m = true) : Memory.wf (cellPut m a x) = true :=
  cellsFrom_cellPut m 0 a x (Nat.zero_le a) h

theorem wf_cellWrite (m : List Host.Cell) (a : Nat) (bs : List Byte) (h : Memory.wf m = true) :
    Memory.wf (cellWrite m a bs) = true := by
  induction bs generalizing m a with
  | nil => exact h
  | cons b bs ih => exact ih _ _ (wf_cellPut m a b h)

theorem wf_filter (m : List Host.Cell) (p : Host.Cell → Bool) (h : Memory.wf m = true) : Memory.wf (m.filter p) = true := by
  unfold Memory.wf at h ⊢
  generalize 0 = lo at h ⊢
  induction m generalizing lo with
  | nil => rfl
  | cons q t ih =>
    obtain ⟨k, v⟩ := q
    have h0 := h
    simp only [cellsFrom, Bool.and_eq_true, decide_eq_true_eq] at h
    simp only [List.filter_cons]
    split
    · simp only [cellsFrom, Bool.and_eq_true, decide_eq_true_eq]
      exact ⟨h.1, ih _ h.2⟩
    · exact cellsFrom_mono _ (k + 1) lo (by omega) (ih _ h.2)

/-! ## Several bytes -/

theorem cellGet_cellWrite_outside (m : List Host.Cell) (a b : Nat) (bs : List Byte) (h : b < a ∨ a + bs.length ≤ b) :
    cellGet (cellWrite m a bs) b = cellGet m b := by
  induction bs generalizing m a with
  | nil => rfl
  | cons x bs ih =>
    simp only [List.length_cons] at h
    rw [cellWrite, ih _ _ (by omega), cellGet_cellPut_other _ _ _ _ (by omega)]

theorem cellRead_cellWrite (m : List Host.Cell) (a : Nat) (bs : List Byte) (h : Memory.wf m = true) :
    cellRead (cellWrite m a bs) a bs.length = bs := by
  induction bs generalizing m a with
  | nil => rfl
  | cons x bs ih =>
    have hx : cellGet (cellWrite m a (x :: bs)) a = x := by
      rw [cellWrite, cellGet_cellWrite_outside _ _ _ _ (by omega)]
      exact cellGet_cellPut_same m a x h
    simp only [List.length_cons, cellRead, hx]
    rw [cellWrite, ih _ _ (wf_cellPut m a x h)]

theorem leNat_leBytes (n w : Nat) : leNat (leBytes n w) = w % 256 ^ n := by
  induction n generalizing w with
  | zero => simp [leBytes, leNat, Nat.mod_one]
  | succ n ih =>
    simp only [leBytes, leNat, ih, BitVec.toNat_ofNat, Nat.reducePow]
    rw [Nat.pow_succ, Nat.mul_comm (256 ^ n) 256, Nat.mod_mul]

theorem leBytes_length (n w : Nat) : (leBytes n w).length = n := by
  induction n generalizing w with
  | zero => rfl
  | succ n ih => simp [leBytes, ih]

/-! ## The operations of the homes keep the canonical form -/

/-- Every sparse memory of the device is in canonical form. -/
def Dev.cellsOk (d : Dev) : Prop := Memory.wf d.mem = true ∧ ∀ m ∈ d.locmem, Memory.wf m.cells = true

/-- An update that leaves both memories alone. -/
theorem cellsOk_of_eq {d e : Dev} (hm : e.mem = d.mem) (hl : e.locmem = d.locmem) (h : d.cellsOk) : e.cellsOk := by
  unfold Dev.cellsOk
  rw [hm, hl]
  exact h

theorem cellsOk_setLocCells (d : Dev) (core : Nat) (sp : Space) (f : List Host.Cell → List Host.Cell)
    (hf : ∀ m, Memory.wf m = true → Memory.wf (f m) = true) (h : d.cellsOk) : (d.setLocCells core sp f).cellsOk := by
  refine ⟨h.1, ?_⟩
  intro m hm
  simp only [Dev.setLocCells, upsert] at hm
  split at hm
  · simp only [modIf, List.mem_map] at hm
    obtain ⟨y, hy, rfl⟩ := hm
    split
    · exact hf _ (h.2 y hy)
    · exact h.2 y hy
  · rcases List.mem_append.mp hm with hm | hm
    · exact h.2 m hm
    · simp only [List.mem_singleton] at hm
      subst hm
      exact hf [] rfl

theorem cellsOk_putLoc (d : Dev) (core : Nat) (sp : Space) (a : Nat) (bs : List Byte) (h : d.cellsOk) :
    (d.putLoc core sp a bs).cellsOk :=
  cellsOk_of_eq rfl rfl (cellsOk_setLocCells d core sp _ (fun m hm => wf_cellWrite m a bs hm) h)

theorem cellsOk_zeroLoc (d : Dev) (core : Nat) (sp : Space) (r : Range) (h : d.cellsOk) : (d.zeroLoc core sp r).cellsOk :=
  cellsOk_of_eq rfl rfl (cellsOk_setLocCells d core sp _ (fun m hm => wf_filter m _ hm) h)

theorem wf_foldl_write (is : List Nat) (m : List Host.Cell) (c : Nat → Bool) (a : Nat → Nat) (bs : Nat → List Byte)
    (h : Memory.wf m = true) :
    Memory.wf (is.foldl (fun m i => if c i then m else cellWrite m (a i) (bs i)) m) = true := by
  induction is generalizing m with
  | nil => exact h
  | cons i is ih =>
    simp only [List.foldl_cons]
    split
    · exact ih m h
    · exact ih _ (wf_cellWrite m _ _ h)

theorem cellsOk_putGlob (d e : Dev) (slot a : Nat) (bs : List Byte) (h : d.cellsOk) (he : d.putGlob slot a bs = some e) :
    e.cellsOk := by
  simp only [Dev.putGlob] at he
  split at he
  · simp only [Option.some.injEq] at he
    subst he
    exact ⟨wf_cellWrite _ a bs (wf_foldl_write _ _ _ _ _ h.1), h.2⟩
  · exact absurd he (by simp)

theorem evictLine_cells (d : Dev) (l : LlcLine) : (d.evictLine l).mem = d.mem ∧ (d.evictLine l).locmem = d.locmem :=
  ⟨rfl, rfl⟩

theorem fillLlc_cells (d : Dev) (slot pa ctx : Nat) :
    (d.fillLlc slot pa ctx).mem = d.mem ∧ (d.fillLlc slot pa ctx).locmem = d.locmem := by
  simp only [Dev.fillLlc]
  split <;> exact ⟨rfl, rfl⟩

theorem touchLine_cells (d : Dev) (slot pa ctx : Nat) :
    (d.touchLine slot pa ctx).mem = d.mem ∧ (d.touchLine slot pa ctx).locmem = d.locmem := by
  simp only [Dev.touchLine]
  split
  · exact fillLlc_cells d slot pa ctx
  · rename_i l _
    split
    · exact ⟨rfl, rfl⟩
    · have h := fillLlc_cells (d.evictLine l) slot pa ctx
      exact ⟨h.1.trans (evictLine_cells d l).1, h.2.trans (evictLine_cells d l).2⟩

theorem setEvent_cells (d : Dev) (n b : Nat) : (d.setEvent n b).mem = d.mem ∧ (d.setEvent n b).locmem = d.locmem := by
  simp only [Dev.setEvent]
  split <;> exact ⟨rfl, rfl⟩

theorem foldl_cells {α : Type} (l : List α) (f : Dev → α → Dev) (hf : ∀ d x, (f d x).mem = d.mem ∧ (f d x).locmem = d.locmem)
    (d : Dev) : (l.foldl f d).mem = d.mem ∧ (l.foldl f d).locmem = d.locmem := by
  induction l generalizing d with
  | nil => exact ⟨rfl, rfl⟩
  | cons x l ih =>
    have h1 := ih (f d x)
    have h2 := hf d x
    exact ⟨h1.1.trans h2.1, h1.2.trans h2.2⟩

theorem postColl_cells (d : Dev) (ctx q : Nat) (c : Desc) (t w b : Nat) (l : Option Nat) :
    (d.postColl ctx q c t w b l).mem = d.mem ∧ (d.postColl ctx q c t w b l).locmem = d.locmem := by
  simp only [Dev.postColl]
  split <;> exact ⟨rfl, rfl⟩

theorem logWrite_cells (d : Dev) (ctx pa : Nat) : (d.logWrite ctx pa).mem = d.mem ∧ (d.logWrite ctx pa).locmem = d.locmem := by
  refine foldl_cells _ _ (fun d f => ?_) d
  split
  · exact ⟨rfl, rfl⟩
  · dsimp only
    split
    · split
      · exact setEvent_cells _ _ _
      · exact ⟨rfl, rfl⟩
    · exact ⟨rfl, rfl⟩

theorem mailboxWrite_cells (d : Dev) (pa n : Nat) :
    (d.mailboxWrite pa n).mem = d.mem ∧ (d.mailboxWrite pa n).locmem = d.locmem := by
  refine foldl_cells _ _ (fun d c => ?_) d
  dsimp only
  split <;> exact ⟨rfl, rfl⟩

theorem fireTriggers_cells (d : Dev) (pa n t : Nat) :
    (d.fireTriggers pa n t).mem = d.mem ∧ (d.fireTriggers pa n t).locmem = d.locmem := by
  simp only [Dev.fireTriggers]
  exact foldl_cells _ _ (fun d x => postColl_cells d _ _ _ _ _ _ _) _

theorem afterWrite_cells (d : Dev) (ctx : Nat) (core : Option Nat) (device : Bool) (pa n t : Nat) :
    (d.afterWrite ctx core device pa n t).mem = d.mem ∧ (d.afterWrite ctx core device pa n t).locmem = d.locmem := by
  have step (e : Dev) (h : e.mem = d.mem ∧ e.locmem = d.locmem) (f : Dev)
      (hf : f.mem = e.mem ∧ f.locmem = e.locmem) : f.mem = d.mem ∧ f.locmem = d.locmem :=
    ⟨hf.1.trans h.1, hf.2.trans h.2⟩
  simp only [Dev.afterWrite]
  refine step _ ?_ _ (fireTriggers_cells _ _ _ _)
  split
  · refine step _ ?_ _ (mailboxWrite_cells _ _ _)
    refine step _ ?_ _ (logWrite_cells _ _ _)
    split <;> exact ⟨rfl, rfl⟩
  · refine step _ ?_ _ (logWrite_cells _ _ _)
    split <;> exact ⟨rfl, rfl⟩

/-- A load at a home keeps the canonical form. -/
theorem cellsOk_homeLoad (d : Dev) (ctx : Nat) (loc : Loc) (n c l : Nat) (h : d.cellsOk) :
    (d.homeLoad ctx loc n c l).1.cellsOk := by
  cases loc with
  | glob pa =>
    obtain ⟨h1, h2⟩ := touchLine_cells d ctx pa ctx
    exact cellsOk_of_eq h1 h2 h
  | loc core sp a => exact cellsOk_of_eq rfl rfl h
  | remote p a => exact h
  | host a => exact h

/-- A store at a home keeps the canonical form. -/
theorem cellsOk_homeWrite (d : Dev) (ctx : Nat) (core : Option Nat) (device : Bool) (loc : Loc) (c : Nat)
    (f : Nat → List Byte) (h : d.cellsOk) : (d.homeWrite ctx core device loc c f).1.cellsOk := by
  cases loc with
  | glob pa =>
    obtain ⟨h1, h2⟩ := touchLine_cells d ctx pa ctx
    have h0 := cellsOk_of_eq h1 h2 h
    simp only [Dev.homeWrite]
    split
    · exact h0
    · rename_i e he
      obtain ⟨h3, h4⟩ := afterWrite_cells (e.setLine pa fun x =>
        { x with wt := max c (((d.touchLine ctx pa ctx).lineTimes pa).2 + 1)
                 le := max c (((d.touchLine ctx pa ctx).lineTimes pa).2 + 1), owner := some ctx })
        ctx core device pa (f (max c (((d.touchLine ctx pa ctx).lineTimes pa).2 + 1))).length
        (max c (((d.touchLine ctx pa ctx).lineTimes pa).2 + 1))
      exact cellsOk_of_eq h3 h4 (cellsOk_of_eq rfl rfl (cellsOk_putGlob _ e _ _ _ h0 he))
  | loc cr sp a => exact cellsOk_of_eq rfl rfl (cellsOk_putLoc d cr sp a _ h)
  | remote p a => exact h
  | host a => exact h

/-- A read-modify-write at a home keeps the canonical form. -/
theorem cellsOk_homeRmw (d : Dev) (ctx : Nat) (core : Option Nat) (device : Bool) (loc : Loc) (n c : Nat)
    (f : Nat → List Byte → List Byte) (h : d.cellsOk) : (d.homeRmw ctx core device loc n c f).1.cellsOk := by
  cases loc with
  | glob pa =>
    obtain ⟨h1, h2⟩ := touchLine_cells d ctx pa ctx
    have h0 := cellsOk_of_eq h1 h2 h
    simp only [Dev.homeRmw]
    split
    · split
      · exact h0
      · rename_i e he
        obtain ⟨h3, h4⟩ := afterWrite_cells (e.setLine pa fun x =>
          { x with wt := max c (((d.touchLine ctx pa ctx).lineTimes pa).2 + 1)
                   le := max c (((d.touchLine ctx pa ctx).lineTimes pa).2 + 1), owner := some ctx })
          ctx core device pa n (max c (((d.touchLine ctx pa ctx).lineTimes pa).2 + 1))
        exact cellsOk_of_eq h3 h4 (cellsOk_of_eq rfl rfl (cellsOk_putGlob _ e _ _ _ h0 he))
    · exact h0
  | loc cr sp a =>
    simp only [Dev.homeRmw]
    split
    · exact cellsOk_of_eq rfl rfl (cellsOk_putLoc d cr sp a _ h)
    · exact h
  | remote p a => exact h
  | host a => exact h

end Sys2Proof.Machine
end

