-- ==== Sys2Proof/Laws/State.lean ====
section
/-!
SUPPORT. What each named update of the device does to each field: one lemma for each, true by unfolding.
-/

namespace Sys2Proof.Machine

set_option Elab.async false

/-! ### modWave -/

@[simp] theorem modWave_latch (d : Dev) (id : Nat) (f : Wave → Wave) : (d.modWave id f).latch = d.latch := rfl
@[simp] theorem modWave_clock (d : Dev) (id : Nat) (f : Wave → Wave) : (d.modWave id f).clock = d.clock := rfl
@[simp] theorem modWave_free (d : Dev) (id : Nat) (f : Wave → Wave) : (d.modWave id f).free = d.free := rfl
@[simp] theorem modWave_nextId (d : Dev) (id : Nat) (f : Wave → Wave) : (d.modWave id f).nextId = d.nextId := rfl
@[simp] theorem modWave_keyBase (d : Dev) (id : Nat) (f : Wave → Wave) : (d.modWave id f).keyBase = d.keyBase := rfl
@[simp] theorem modWave_rot (d : Dev) (id : Nat) (f : Wave → Wave) : (d.modWave id f).rot = d.rot := rfl
@[simp] theorem modWave_mem (d : Dev) (id : Nat) (f : Wave → Wave) : (d.modWave id f).mem = d.mem := rfl
@[simp] theorem modWave_sectors (d : Dev) (id : Nat) (f : Wave → Wave) : (d.modWave id f).sectors = d.sectors := rfl
@[simp] theorem modWave_llc (d : Dev) (id : Nat) (f : Wave → Wave) : (d.modWave id f).llc = d.llc := rfl
@[simp] theorem modWave_llcWays (d : Dev) (id : Nat) (f : Wave → Wave) : (d.modWave id f).llcWays = d.llcWays := rfl
@[simp] theorem modWave_mt (d : Dev) (id : Nat) (f : Wave → Wave) : (d.modWave id f).mt = d.mt := rfl
@[simp] theorem modWave_l1 (d : Dev) (id : Nat) (f : Wave → Wave) : (d.modWave id f).l1 = d.l1 := rfl
@[simp] theorem modWave_icache (d : Dev) (id : Nat) (f : Wave → Wave) : (d.modWave id f).icache = d.icache := rfl
@[simp] theorem modWave_tlb (d : Dev) (id : Nat) (f : Wave → Wave) : (d.modWave id f).tlb = d.tlb := rfl
@[simp] theorem modWave_ats (d : Dev) (id : Nat) (f : Wave → Wave) : (d.modWave id f).ats = d.ats := rfl
@[simp] theorem modWave_atsAsked (d : Dev) (id : Nat) (f : Wave → Wave) : (d.modWave id f).atsAsked = d.atsAsked := rfl
@[simp] theorem modWave_xfers (d : Dev) (id : Nat) (f : Wave → Wave) : (d.modWave id f).xfers = d.xfers := rfl
@[simp] theorem modWave_locmem (d : Dev) (id : Nat) (f : Wave → Wave) : (d.modWave id f).locmem = d.locmem := rfl
@[simp] theorem modWave_loclines (d : Dev) (id : Nat) (f : Wave → Wave) : (d.modWave id f).loclines = d.loclines := rfl
@[simp] theorem modWave_poison (d : Dev) (id : Nat) (f : Wave → Wave) : (d.modWave id f).poison = d.poison := rfl
@[simp] theorem modWave_badRegs (d : Dev) (id : Nat) (f : Wave → Wave) : (d.modWave id f).badRegs = d.badRegs := rfl
@[simp] theorem modWave_cores (d : Dev) (id : Nat) (f : Wave → Wave) : (d.modWave id f).cores = d.cores := rfl
@[simp] theorem modWave_engines (d : Dev) (id : Nat) (f : Wave → Wave) : (d.modWave id f).engines = d.engines := rfl
@[simp] theorem modWave_ticket (d : Dev) (id : Nat) (f : Wave → Wave) : (d.modWave id f).ticket = d.ticket := rfl
@[simp] theorem modWave_surge (d : Dev) (id : Nat) (f : Wave → Wave) : (d.modWave id f).surge = d.surge := rfl
@[simp] theorem modWave_surgeWait (d : Dev) (id : Nat) (f : Wave → Wave) : (d.modWave id f).surgeWait = d.surgeWait := rfl
@[simp] theorem modWave_allow (d : Dev) (id : Nat) (f : Wave → Wave) : (d.modWave id f).allow = d.allow := rfl
@[simp] theorem modWave_waves (d : Dev) (id : Nat) (f : Wave → Wave) : (d.modWave id f).waves = modIf (·.id == id) f d.waves := rfl
@[simp] theorem modWave_blocks (d : Dev) (id : Nat) (f : Wave → Wave) : (d.modWave id f).blocks = d.blocks := rfl
@[simp] theorem modWave_teams (d : Dev) (id : Nat) (f : Wave → Wave) : (d.modWave id f).teams = d.teams := rfl
@[simp] theorem modWave_launches (d : Dev) (id : Nat) (f : Wave → Wave) : (d.modWave id f).launches = d.launches := rfl
@[simp] theorem modWave_levels (d : Dev) (id : Nat) (f : Wave → Wave) : (d.modWave id f).levels = d.levels := rfl
@[simp] theorem modWave_pending (d : Dev) (id : Nat) (f : Wave → Wave) : (d.modWave id f).pending = d.pending := rfl
@[simp] theorem modWave_memops (d : Dev) (id : Nat) (f : Wave → Wave) : (d.modWave id f).memops = d.memops := rfl
@[simp] theorem modWave_reports (d : Dev) (id : Nat) (f : Wave → Wave) : (d.modWave id f).reports = d.reports := rfl
@[simp] theorem modWave_jobs (d : Dev) (id : Nat) (f : Wave → Wave) : (d.modWave id f).jobs = d.jobs := rfl
@[simp] theorem modWave_servers (d : Dev) (id : Nat) (f : Wave → Wave) : (d.modWave id f).servers = d.servers := rfl
@[simp] theorem modWave_picks (d : Dev) (id : Nat) (f : Wave → Wave) : (d.modWave id f).picks = d.picks := rfl
@[simp] theorem modWave_turns (d : Dev) (id : Nat) (f : Wave → Wave) : (d.modWave id f).turns = d.turns := rfl
@[simp] theorem modWave_ctxs (d : Dev) (id : Nat) (f : Wave → Wave) : (d.modWave id f).ctxs = d.ctxs := rfl
@[simp] theorem modWave_keys (d : Dev) (id : Nat) (f : Wave → Wave) : (d.modWave id f).keys = d.keys := rfl
@[simp] theorem modWave_fns (d : Dev) (id : Nat) (f : Wave → Wave) : (d.modWave id f).fns = d.fns := rfl
@[simp] theorem modWave_queues (d : Dev) (id : Nat) (f : Wave → Wave) : (d.modWave id f).queues = d.queues := rfl
@[simp] theorem modWave_colls (d : Dev) (id : Nat) (f : Wave → Wave) : (d.modWave id f).colls = d.colls := rfl
@[simp] theorem modWave_triggers (d : Dev) (id : Nat) (f : Wave → Wave) : (d.modWave id f).triggers = d.triggers := rfl
@[simp] theorem modWave_ports (d : Dev) (id : Nat) (f : Wave → Wave) : (d.modWave id f).ports = d.ports := rfl
@[simp] theorem modWave_tagHomes (d : Dev) (id : Nat) (f : Wave → Wave) : (d.modWave id f).tagHomes = d.tagHomes := rfl
@[simp] theorem modWave_egress (d : Dev) (id : Nat) (f : Wave → Wave) : (d.modWave id f).egress = d.egress := rfl
@[simp] theorem modWave_remotes (d : Dev) (id : Nat) (f : Wave → Wave) : (d.modWave id f).remotes = d.remotes := rfl
@[simp] theorem modWave_watches (d : Dev) (id : Nat) (f : Wave → Wave) : (d.modWave id f).watches = d.watches := rfl
@[simp] theorem modWave_held (d : Dev) (id : Nat) (f : Wave → Wave) : (d.modWave id f).held = d.held := rfl
@[simp] theorem modWave_owed (d : Dev) (id : Nat) (f : Wave → Wave) : (d.modWave id f).owed = d.owed := rfl
@[simp] theorem modWave_inbox (d : Dev) (id : Nat) (f : Wave → Wave) : (d.modWave id f).inbox = d.inbox := rfl
@[simp] theorem modWave_suspRegs (d : Dev) (id : Nat) (f : Wave → Wave) : (d.modWave id f).suspRegs = d.suspRegs := rfl
@[simp] theorem modWave_out (d : Dev) (id : Nat) (f : Wave → Wave) : (d.modWave id f).out = d.out := rfl

/-! ### modBlock -/

@[simp] theorem modBlock_latch (d : Dev) (id : Nat) (f : Block → Block) : (d.modBlock id f).latch = d.latch := rfl
@[simp] theorem modBlock_clock (d : Dev) (id : Nat) (f : Block → Block) : (d.modBlock id f).clock = d.clock := rfl
@[simp] theorem modBlock_free (d : Dev) (id : Nat) (f : Block → Block) : (d.modBlock id f).free = d.free := rfl
@[simp] theorem modBlock_nextId (d : Dev) (id : Nat) (f : Block → Block) : (d.modBlock id f).nextId = d.nextId := rfl
@[simp] theorem modBlock_keyBase (d : Dev) (id : Nat) (f : Block → Block) : (d.modBlock id f).keyBase = d.keyBase := rfl
@[simp] theorem modBlock_rot (d : Dev) (id : Nat) (f : Block → Block) : (d.modBlock id f).rot = d.rot := rfl
@[simp] theorem modBlock_mem (d : Dev) (id : Nat) (f : Block → Block) : (d.modBlock id f).mem = d.mem := rfl
@[simp] theorem modBlock_sectors (d : Dev) (id : Nat) (f : Block → Block) : (d.modBlock id f).sectors = d.sectors := rfl
@[simp] theorem modBlock_llc (d : Dev) (id : Nat) (f : Block → Block) : (d.modBlock id f).llc = d.llc := rfl
@[simp] theorem modBlock_llcWays (d : Dev) (id : Nat) (f : Block → Block) : (d.modBlock id f).llcWays = d.llcWays := rfl
@[simp] theorem modBlock_mt (d : Dev) (id : Nat) (f : Block → Block) : (d.modBlock id f).mt = d.mt := rfl
@[simp] theorem modBlock_l1 (d : Dev) (id : Nat) (f : Block → Block) : (d.modBlock id f).l1 = d.l1 := rfl
@[simp] theorem modBlock_icache (d : Dev) (id : Nat) (f : Block → Block) : (d.modBlock id f).icache = d.icache := rfl
@[simp] theorem modBlock_tlb (d : Dev) (id : Nat) (f : Block → Block) : (d.modBlock id f).tlb = d.tlb := rfl
@[simp] theorem modBlock_ats (d : Dev) (id : Nat) (f : Block → Block) : (d.modBlock id f).ats = d.ats := rfl
@[simp] theorem modBlock_atsAsked (d : Dev) (id : Nat) (f : Block → Block) : (d.modBlock id f).atsAsked = d.atsAsked := rfl
@[simp] theorem modBlock_xfers (d : Dev) (id : Nat) (f : Block → Block) : (d.modBlock id f).xfers = d.xfers := rfl
@[simp] theorem modBlock_locmem (d : Dev) (id : Nat) (f : Block → Block) : (d.modBlock id f).locmem = d.locmem := rfl
@[simp] theorem modBlock_loclines (d : Dev) (id : Nat) (f : Block → Block) : (d.modBlock id f).loclines = d.loclines := rfl
@[simp] theorem modBlock_poison (d : Dev) (id : Nat) (f : Block → Block) : (d.modBlock id f).poison = d.poison := rfl
@[simp] theorem modBlock_badRegs (d : Dev) (id : Nat) (f : Block → Block) : (d.modBlock id f).badRegs = d.badRegs := rfl
@[simp] theorem modBlock_cores (d : Dev) (id : Nat) (f : Block → Block) : (d.modBlock id f).cores = d.cores := rfl
@[simp] theorem modBlock_engines (d : Dev) (id : Nat) (f : Block → Block) : (d.modBlock id f).engines = d.engines := rfl
@[simp] theorem modBlock_ticket (d : Dev) (id : Nat) (f : Block → Block) : (d.modBlock id f).ticket = d.ticket := rfl
@[simp] theorem modBlock_surge (d : Dev) (id : Nat) (f : Block → Block) : (d.modBlock id f).surge = d.surge := rfl
@[simp] theorem modBlock_surgeWait (d : Dev) (id : Nat) (f : Block → Block) : (d.modBlock id f).surgeWait = d.surgeWait := rfl
@[simp] theorem modBlock_allow (d : Dev) (id : Nat) (f : Block → Block) : (d.modBlock id f).allow = d.allow := rfl
@[simp] theorem modBlock_waves (d : Dev) (id : Nat) (f : Block → Block) : (d.modBlock id f).waves = d.waves := rfl
@[simp] theorem modBlock_blocks (d : Dev) (id : Nat) (f : Block → Block) : (d.modBlock id f).blocks = modIf (·.id == id) f d.blocks := rfl
@[simp] theorem modBlock_teams (d : Dev) (id : Nat) (f : Block → Block) : (d.modBlock id f).teams = d.teams := rfl
@[simp] theorem modBlock_launches (d : Dev) (id : Nat) (f : Block → Block) : (d.modBlock id f).launches = d.launches := rfl
@[simp] theorem modBlock_levels (d : Dev) (id : Nat) (f : Block → Block) : (d.modBlock id f).levels = d.levels := rfl
@[simp] theorem modBlock_pending (d : Dev) (id : Nat) (f : Block → Block) : (d.modBlock id f).pending = d.pending := rfl
@[simp] theorem modBlock_memops (d : Dev) (id : Nat) (f : Block → Block) : (d.modBlock id f).memops = d.memops := rfl
@[simp] theorem modBlock_reports (d : Dev) (id : Nat) (f : Block → Block) : (d.modBlock id f).reports = d.reports := rfl
@[simp] theorem modBlock_jobs (d : Dev) (id : Nat) (f : Block → Block) : (d.modBlock id f).jobs = d.jobs := rfl
@[simp] theorem modBlock_servers (d : Dev) (id : Nat) (f : Block → Block) : (d.modBlock id f).servers = d.servers := rfl
@[simp] theorem modBlock_picks (d : Dev) (id : Nat) (f : Block → Block) : (d.modBlock id f).picks = d.picks := rfl
@[simp] theorem modBlock_turns (d : Dev) (id : Nat) (f : Block → Block) : (d.modBlock id f).turns = d.turns := rfl
@[simp] theorem modBlock_ctxs (d : Dev) (id : Nat) (f : Block → Block) : (d.modBlock id f).ctxs = d.ctxs := rfl
@[simp] theorem modBlock_keys (d : Dev) (id : Nat) (f : Block → Block) : (d.modBlock id f).keys = d.keys := rfl
@[simp] theorem modBlock_fns (d : Dev) (id : Nat) (f : Block → Block) : (d.modBlock id f).fns = d.fns := rfl
@[simp] theorem modBlock_queues (d : Dev) (id : Nat) (f : Block → Block) : (d.modBlock id f).queues = d.queues := rfl
@[simp] theorem modBlock_colls (d : Dev) (id : Nat) (f : Block → Block) : (d.modBlock id f).colls = d.colls := rfl
@[simp] theorem modBlock_triggers (d : Dev) (id : Nat) (f : Block → Block) : (d.modBlock id f).triggers = d.triggers := rfl
@[simp] theorem modBlock_ports (d : Dev) (id : Nat) (f : Block → Block) : (d.modBlock id f).ports = d.ports := rfl
@[simp] theorem modBlock_tagHomes (d : Dev) (id : Nat) (f : Block → Block) : (d.modBlock id f).tagHomes = d.tagHomes := rfl
@[simp] theorem modBlock_egress (d : Dev) (id : Nat) (f : Block → Block) : (d.modBlock id f).egress = d.egress := rfl
@[simp] theorem modBlock_remotes (d : Dev) (id : Nat) (f : Block → Block) : (d.modBlock id f).remotes = d.remotes := rfl
@[simp] theorem modBlock_watches (d : Dev) (id : Nat) (f : Block → Block) : (d.modBlock id f).watches = d.watches := rfl
@[simp] theorem modBlock_held (d : Dev) (id : Nat) (f : Block → Block) : (d.modBlock id f).held = d.held := rfl
@[simp] theorem modBlock_owed (d : Dev) (id : Nat) (f : Block → Block) : (d.modBlock id f).owed = d.owed := rfl
@[simp] theorem modBlock_inbox (d : Dev) (id : Nat) (f : Block → Block) : (d.modBlock id f).inbox = d.inbox := rfl
@[simp] theorem modBlock_suspRegs (d : Dev) (id : Nat) (f : Block → Block) : (d.modBlock id f).suspRegs = d.suspRegs := rfl
@[simp] theorem modBlock_out (d : Dev) (id : Nat) (f : Block → Block) : (d.modBlock id f).out = d.out := rfl

/-! ### modCtx -/

@[simp] theorem modCtx_latch (d : Dev) (n : Nat) (f : Ctx → Ctx) : (d.modCtx n f).latch = d.latch := rfl
@[simp] theorem modCtx_clock (d : Dev) (n : Nat) (f : Ctx → Ctx) : (d.modCtx n f).clock = d.clock := rfl
@[simp] theorem modCtx_free (d : Dev) (n : Nat) (f : Ctx → Ctx) : (d.modCtx n f).free = d.free := rfl
@[simp] theorem modCtx_nextId (d : Dev) (n : Nat) (f : Ctx → Ctx) : (d.modCtx n f).nextId = d.nextId := rfl
@[simp] theorem modCtx_keyBase (d : Dev) (n : Nat) (f : Ctx → Ctx) : (d.modCtx n f).keyBase = d.keyBase := rfl
@[simp] theorem modCtx_rot (d : Dev) (n : Nat) (f : Ctx → Ctx) : (d.modCtx n f).rot = d.rot := rfl
@[simp] theorem modCtx_mem (d : Dev) (n : Nat) (f : Ctx → Ctx) : (d.modCtx n f).mem = d.mem := rfl
@[simp] theorem modCtx_sectors (d : Dev) (n : Nat) (f : Ctx → Ctx) : (d.modCtx n f).sectors = d.sectors := rfl
@[simp] theorem modCtx_llc (d : Dev) (n : Nat) (f : Ctx → Ctx) : (d.modCtx n f).llc = d.llc := rfl
@[simp] theorem modCtx_llcWays (d : Dev) (n : Nat) (f : Ctx → Ctx) : (d.modCtx n f).llcWays = d.llcWays := rfl
@[simp] theorem modCtx_mt (d : Dev) (n : Nat) (f : Ctx → Ctx) : (d.modCtx n f).mt = d.mt := rfl
@[simp] theorem modCtx_l1 (d : Dev) (n : Nat) (f : Ctx → Ctx) : (d.modCtx n f).l1 = d.l1 := rfl
@[simp] theorem modCtx_icache (d : Dev) (n : Nat) (f : Ctx → Ctx) : (d.modCtx n f).icache = d.icache := rfl
@[simp] theorem modCtx_tlb (d : Dev) (n : Nat) (f : Ctx → Ctx) : (d.modCtx n f).tlb = d.tlb := rfl
@[simp] theorem modCtx_ats (d : Dev) (n : Nat) (f : Ctx → Ctx) : (d.modCtx n f).ats = d.ats := rfl
@[simp] theorem modCtx_atsAsked (d : Dev) (n : Nat) (f : Ctx → Ctx) : (d.modCtx n f).atsAsked = d.atsAsked := rfl
@[simp] theorem modCtx_xfers (d : Dev) (n : Nat) (f : Ctx → Ctx) : (d.modCtx n f).xfers = d.xfers := rfl
@[simp] theorem modCtx_locmem (d : Dev) (n : Nat) (f : Ctx → Ctx) : (d.modCtx n f).locmem = d.locmem := rfl
@[simp] theorem modCtx_loclines (d : Dev) (n : Nat) (f : Ctx → Ctx) : (d.modCtx n f).loclines = d.loclines := rfl
@[simp] theorem modCtx_poison (d : Dev) (n : Nat) (f : Ctx → Ctx) : (d.modCtx n f).poison = d.poison := rfl
@[simp] theorem modCtx_badRegs (d : Dev) (n : Nat) (f : Ctx → Ctx) : (d.modCtx n f).badRegs = d.badRegs := rfl
@[simp] theorem modCtx_cores (d : Dev) (n : Nat) (f : Ctx → Ctx) : (d.modCtx n f).cores = d.cores := rfl
@[simp] theorem modCtx_engines (d : Dev) (n : Nat) (f : Ctx → Ctx) : (d.modCtx n f).engines = d.engines := rfl
@[simp] theorem modCtx_ticket (d : Dev) (n : Nat) (f : Ctx → Ctx) : (d.modCtx n f).ticket = d.ticket := rfl
@[simp] theorem modCtx_surge (d : Dev) (n : Nat) (f : Ctx → Ctx) : (d.modCtx n f).surge = d.surge := rfl
@[simp] theorem modCtx_surgeWait (d : Dev) (n : Nat) (f : Ctx → Ctx) : (d.modCtx n f).surgeWait = d.surgeWait := rfl
@[simp] theorem modCtx_allow (d : Dev) (n : Nat) (f : Ctx → Ctx) : (d.modCtx n f).allow = d.allow := rfl
@[simp] theorem modCtx_waves (d : Dev) (n : Nat) (f : Ctx → Ctx) : (d.modCtx n f).waves = d.waves := rfl
@[simp] theorem modCtx_blocks (d : Dev) (n : Nat) (f : Ctx → Ctx) : (d.modCtx n f).blocks = d.blocks := rfl
@[simp] theorem modCtx_teams (d : Dev) (n : Nat) (f : Ctx → Ctx) : (d.modCtx n f).teams = d.teams := rfl
@[simp] theorem modCtx_launches (d : Dev) (n : Nat) (f : Ctx → Ctx) : (d.modCtx n f).launches = d.launches := rfl
@[simp] theorem modCtx_levels (d : Dev) (n : Nat) (f : Ctx → Ctx) : (d.modCtx n f).levels = d.levels := rfl
@[simp] theorem modCtx_pending (d : Dev) (n : Nat) (f : Ctx → Ctx) : (d.modCtx n f).pending = d.pending := rfl
@[simp] theorem modCtx_memops (d : Dev) (n : Nat) (f : Ctx → Ctx) : (d.modCtx n f).memops = d.memops := rfl
@[simp] theorem modCtx_reports (d : Dev) (n : Nat) (f : Ctx → Ctx) : (d.modCtx n f).reports = d.reports := rfl
@[simp] theorem modCtx_jobs (d : Dev) (n : Nat) (f : Ctx → Ctx) : (d.modCtx n f).jobs = d.jobs := rfl
@[simp] theorem modCtx_servers (d : Dev) (n : Nat) (f : Ctx → Ctx) : (d.modCtx n f).servers = d.servers := rfl
@[simp] theorem modCtx_picks (d : Dev) (n : Nat) (f : Ctx → Ctx) : (d.modCtx n f).picks = d.picks := rfl
@[simp] theorem modCtx_turns (d : Dev) (n : Nat) (f : Ctx → Ctx) : (d.modCtx n f).turns = d.turns := rfl
@[simp] theorem modCtx_ctxs (d : Dev) (n : Nat) (f : Ctx → Ctx) : (d.modCtx n f).ctxs = modIf (·.n == n) f d.ctxs := rfl
@[simp] theorem modCtx_keys (d : Dev) (n : Nat) (f : Ctx → Ctx) : (d.modCtx n f).keys = d.keys := rfl
@[simp] theorem modCtx_fns (d : Dev) (n : Nat) (f : Ctx → Ctx) : (d.modCtx n f).fns = d.fns := rfl
@[simp] theorem modCtx_queues (d : Dev) (n : Nat) (f : Ctx → Ctx) : (d.modCtx n f).queues = d.queues := rfl
@[simp] theorem modCtx_colls (d : Dev) (n : Nat) (f : Ctx → Ctx) : (d.modCtx n f).colls = d.colls := rfl
@[simp] theorem modCtx_triggers (d : Dev) (n : Nat) (f : Ctx → Ctx) : (d.modCtx n f).triggers = d.triggers := rfl
@[simp] theorem modCtx_ports (d : Dev) (n : Nat) (f : Ctx → Ctx) : (d.modCtx n f).ports = d.ports := rfl
@[simp] theorem modCtx_tagHomes (d : Dev) (n : Nat) (f : Ctx → Ctx) : (d.modCtx n f).tagHomes = d.tagHomes := rfl
@[simp] theorem modCtx_egress (d : Dev) (n : Nat) (f : Ctx → Ctx) : (d.modCtx n f).egress = d.egress := rfl
@[simp] theorem modCtx_remotes (d : Dev) (n : Nat) (f : Ctx → Ctx) : (d.modCtx n f).remotes = d.remotes := rfl
@[simp] theorem modCtx_watches (d : Dev) (n : Nat) (f : Ctx → Ctx) : (d.modCtx n f).watches = d.watches := rfl
@[simp] theorem modCtx_held (d : Dev) (n : Nat) (f : Ctx → Ctx) : (d.modCtx n f).held = d.held := rfl
@[simp] theorem modCtx_owed (d : Dev) (n : Nat) (f : Ctx → Ctx) : (d.modCtx n f).owed = d.owed := rfl
@[simp] theorem modCtx_inbox (d : Dev) (n : Nat) (f : Ctx → Ctx) : (d.modCtx n f).inbox = d.inbox := rfl
@[simp] theorem modCtx_suspRegs (d : Dev) (n : Nat) (f : Ctx → Ctx) : (d.modCtx n f).suspRegs = d.suspRegs := rfl
@[simp] theorem modCtx_out (d : Dev) (n : Nat) (f : Ctx → Ctx) : (d.modCtx n f).out = d.out := rfl

/-! ### modCore -/

@[simp] theorem modCore_latch (d : Dev) (n : Nat) (f : Core → Core) : (d.modCore n f).latch = d.latch := rfl
@[simp] theorem modCore_clock (d : Dev) (n : Nat) (f : Core → Core) : (d.modCore n f).clock = d.clock := rfl
@[simp] theorem modCore_free (d : Dev) (n : Nat) (f : Core → Core) : (d.modCore n f).free = d.free := rfl
@[simp] theorem modCore_nextId (d : Dev) (n : Nat) (f : Core → Core) : (d.modCore n f).nextId = d.nextId := rfl
@[simp] theorem modCore_keyBase (d : Dev) (n : Nat) (f : Core → Core) : (d.modCore n f).keyBase = d.keyBase := rfl
@[simp] theorem modCore_rot (d : Dev) (n : Nat) (f : Core → Core) : (d.modCore n f).rot = d.rot := rfl
@[simp] theorem modCore_mem (d : Dev) (n : Nat) (f : Core → Core) : (d.modCore n f).mem = d.mem := rfl
@[simp] theorem modCore_sectors (d : Dev) (n : Nat) (f : Core → Core) : (d.modCore n f).sectors = d.sectors := rfl
@[simp] theorem modCore_llc (d : Dev) (n : Nat) (f : Core → Core) : (d.modCore n f).llc = d.llc := rfl
@[simp] theorem modCore_llcWays (d : Dev) (n : Nat) (f : Core → Core) : (d.modCore n f).llcWays = d.llcWays := rfl
@[simp] theorem modCore_mt (d : Dev) (n : Nat) (f : Core → Core) : (d.modCore n f).mt = d.mt := rfl
@[simp] theorem modCore_l1 (d : Dev) (n : Nat) (f : Core → Core) : (d.modCore n f).l1 = d.l1 := rfl
@[simp] theorem modCore_icache (d : Dev) (n : Nat) (f : Core → Core) : (d.modCore n f).icache = d.icache := rfl
@[simp] theorem modCore_tlb (d : Dev) (n : Nat) (f : Core → Core) : (d.modCore n f).tlb = d.tlb := rfl
@[simp] theorem modCore_ats (d : Dev) (n : Nat) (f : Core → Core) : (d.modCore n f).ats = d.ats := rfl
@[simp] theorem modCore_atsAsked (d : Dev) (n : Nat) (f : Core → Core) : (d.modCore n f).atsAsked = d.atsAsked := rfl
@[simp] theorem modCore_xfers (d : Dev) (n : Nat) (f : Core → Core) : (d.modCore n f).xfers = d.xfers := rfl
@[simp] theorem modCore_locmem (d : Dev) (n : Nat) (f : Core → Core) : (d.modCore n f).locmem = d.locmem := rfl
@[simp] theorem modCore_loclines (d : Dev) (n : Nat) (f : Core → Core) : (d.modCore n f).loclines = d.loclines := rfl
@[simp] theorem modCore_poison (d : Dev) (n : Nat) (f : Core → Core) : (d.modCore n f).poison = d.poison := rfl
@[simp] theorem modCore_badRegs (d : Dev) (n : Nat) (f : Core → Core) : (d.modCore n f).badRegs = d.badRegs := rfl
@[simp] theorem modCore_cores (d : Dev) (n : Nat) (f : Core → Core) : (d.modCore n f).cores = upsert (·.n == n) (Core.reset n) f d.cores := rfl
@[simp] theorem modCore_engines (d : Dev) (n : Nat) (f : Core → Core) : (d.modCore n f).engines = d.engines := rfl
@[simp] theorem modCore_ticket (d : Dev) (n : Nat) (f : Core → Core) : (d.modCore n f).ticket = d.ticket := rfl
@[simp] theorem modCore_surge (d : Dev) (n : Nat) (f : Core → Core) : (d.modCore n f).surge = d.surge := rfl
@[simp] theorem modCore_surgeWait (d : Dev) (n : Nat) (f : Core → Core) : (d.modCore n f).surgeWait = d.surgeWait := rfl
@[simp] theorem modCore_allow (d : Dev) (n : Nat) (f : Core → Core) : (d.modCore n f).allow = d.allow := rfl
@[simp] theorem modCore_waves (d : Dev) (n : Nat) (f : Core → Core) : (d.modCore n f).waves = d.waves := rfl
@[simp] theorem modCore_blocks (d : Dev) (n : Nat) (f : Core → Core) : (d.modCore n f).blocks = d.blocks := rfl
@[simp] theorem modCore_teams (d : Dev) (n : Nat) (f : Core → Core) : (d.modCore n f).teams = d.teams := rfl
@[simp] theorem modCore_launches (d : Dev) (n : Nat) (f : Core → Core) : (d.modCore n f).launches = d.launches := rfl
@[simp] theorem modCore_levels (d : Dev) (n : Nat) (f : Core → Core) : (d.modCore n f).levels = d.levels := rfl
@[simp] theorem modCore_pending (d : Dev) (n : Nat) (f : Core → Core) : (d.modCore n f).pending = d.pending := rfl
@[simp] theorem modCore_memops (d : Dev) (n : Nat) (f : Core → Core) : (d.modCore n f).memops = d.memops := rfl
@[simp] theorem modCore_reports (d : Dev) (n : Nat) (f : Core → Core) : (d.modCore n f).reports = d.reports := rfl
@[simp] theorem modCore_jobs (d : Dev) (n : Nat) (f : Core → Core) : (d.modCore n f).jobs = d.jobs := rfl
@[simp] theorem modCore_servers (d : Dev) (n : Nat) (f : Core → Core) : (d.modCore n f).servers = d.servers := rfl
@[simp] theorem modCore_picks (d : Dev) (n : Nat) (f : Core → Core) : (d.modCore n f).picks = d.picks := rfl
@[simp] theorem modCore_turns (d : Dev) (n : Nat) (f : Core → Core) : (d.modCore n f).turns = d.turns := rfl
@[simp] theorem modCore_ctxs (d : Dev) (n : Nat) (f : Core → Core) : (d.modCore n f).ctxs = d.ctxs := rfl
@[simp] theorem modCore_keys (d : Dev) (n : Nat) (f : Core → Core) : (d.modCore n f).keys = d.keys := rfl
@[simp] theorem modCore_fns (d : Dev) (n : Nat) (f : Core → Core) : (d.modCore n f).fns = d.fns := rfl
@[simp] theorem modCore_queues (d : Dev) (n : Nat) (f : Core → Core) : (d.modCore n f).queues = d.queues := rfl
@[simp] theorem modCore_colls (d : Dev) (n : Nat) (f : Core → Core) : (d.modCore n f).colls = d.colls := rfl
@[simp] theorem modCore_triggers (d : Dev) (n : Nat) (f : Core → Core) : (d.modCore n f).triggers = d.triggers := rfl
@[simp] theorem modCore_ports (d : Dev) (n : Nat) (f : Core → Core) : (d.modCore n f).ports = d.ports := rfl
@[simp] theorem modCore_tagHomes (d : Dev) (n : Nat) (f : Core → Core) : (d.modCore n f).tagHomes = d.tagHomes := rfl
@[simp] theorem modCore_egress (d : Dev) (n : Nat) (f : Core → Core) : (d.modCore n f).egress = d.egress := rfl
@[simp] theorem modCore_remotes (d : Dev) (n : Nat) (f : Core → Core) : (d.modCore n f).remotes = d.remotes := rfl
@[simp] theorem modCore_watches (d : Dev) (n : Nat) (f : Core → Core) : (d.modCore n f).watches = d.watches := rfl
@[simp] theorem modCore_held (d : Dev) (n : Nat) (f : Core → Core) : (d.modCore n f).held = d.held := rfl
@[simp] theorem modCore_owed (d : Dev) (n : Nat) (f : Core → Core) : (d.modCore n f).owed = d.owed := rfl
@[simp] theorem modCore_inbox (d : Dev) (n : Nat) (f : Core → Core) : (d.modCore n f).inbox = d.inbox := rfl
@[simp] theorem modCore_suspRegs (d : Dev) (n : Nat) (f : Core → Core) : (d.modCore n f).suspRegs = d.suspRegs := rfl
@[simp] theorem modCore_out (d : Dev) (n : Nat) (f : Core → Core) : (d.modCore n f).out = d.out := rfl

/-! ### modEngine -/

@[simp] theorem modEngine_latch (d : Dev) (c : Nat) (k : EngKind) (f : Engine → Engine) : (d.modEngine c k f).latch = d.latch := rfl
@[simp] theorem modEngine_clock (d : Dev) (c : Nat) (k : EngKind) (f : Engine → Engine) : (d.modEngine c k f).clock = d.clock := rfl
@[simp] theorem modEngine_free (d : Dev) (c : Nat) (k : EngKind) (f : Engine → Engine) : (d.modEngine c k f).free = d.free := rfl
@[simp] theorem modEngine_nextId (d : Dev) (c : Nat) (k : EngKind) (f : Engine → Engine) : (d.modEngine c k f).nextId = d.nextId := rfl
@[simp] theorem modEngine_keyBase (d : Dev) (c : Nat) (k : EngKind) (f : Engine → Engine) : (d.modEngine c k f).keyBase = d.keyBase := rfl
@[simp] theorem modEngine_rot (d : Dev) (c : Nat) (k : EngKind) (f : Engine → Engine) : (d.modEngine c k f).rot = d.rot := rfl
@[simp] theorem modEngine_mem (d : Dev) (c : Nat) (k : EngKind) (f : Engine → Engine) : (d.modEngine c k f).mem = d.mem := rfl
@[simp] theorem modEngine_sectors (d : Dev) (c : Nat) (k : EngKind) (f : Engine → Engine) : (d.modEngine c k f).sectors = d.sectors := rfl
@[simp] theorem modEngine_llc (d : Dev) (c : Nat) (k : EngKind) (f : Engine → Engine) : (d.modEngine c k f).llc = d.llc := rfl
@[simp] theorem modEngine_llcWays (d : Dev) (c : Nat) (k : EngKind) (f : Engine → Engine) : (d.modEngine c k f).llcWays = d.llcWays := rfl
@[simp] theorem modEngine_mt (d : Dev) (c : Nat) (k : EngKind) (f : Engine → Engine) : (d.modEngine c k f).mt = d.mt := rfl
@[simp] theorem modEngine_l1 (d : Dev) (c : Nat) (k : EngKind) (f : Engine → Engine) : (d.modEngine c k f).l1 = d.l1 := rfl
@[simp] theorem modEngine_icache (d : Dev) (c : Nat) (k : EngKind) (f : Engine → Engine) : (d.modEngine c k f).icache = d.icache := rfl
@[simp] theorem modEngine_tlb (d : Dev) (c : Nat) (k : EngKind) (f : Engine → Engine) : (d.modEngine c k f).tlb = d.tlb := rfl
@[simp] theorem modEngine_ats (d : Dev) (c : Nat) (k : EngKind) (f : Engine → Engine) : (d.modEngine c k f).ats = d.ats := rfl
@[simp] theorem modEngine_atsAsked (d : Dev) (c : Nat) (k : EngKind) (f : Engine → Engine) : (d.modEngine c k f).atsAsked = d.atsAsked := rfl
@[simp] theorem modEngine_xfers (d : Dev) (c : Nat) (k : EngKind) (f : Engine → Engine) : (d.modEngine c k f).xfers = d.xfers := rfl
@[simp] theorem modEngine_locmem (d : Dev) (c : Nat) (k : EngKind) (f : Engine → Engine) : (d.modEngine c k f).locmem = d.locmem := rfl
@[simp] theorem modEngine_loclines (d : Dev) (c : Nat) (k : EngKind) (f : Engine → Engine) : (d.modEngine c k f).loclines = d.loclines := rfl
@[simp] theorem modEngine_poison (d : Dev) (c : Nat) (k : EngKind) (f : Engine → Engine) : (d.modEngine c k f).poison = d.poison := rfl
@[simp] theorem modEngine_badRegs (d : Dev) (c : Nat) (k : EngKind) (f : Engine → Engine) : (d.modEngine c k f).badRegs = d.badRegs := rfl
@[simp] theorem modEngine_cores (d : Dev) (c : Nat) (k : EngKind) (f : Engine → Engine) : (d.modEngine c k f).cores = d.cores := rfl
@[simp] theorem modEngine_engines (d : Dev) (c : Nat) (k : EngKind) (f : Engine → Engine) : (d.modEngine c k f).engines = upsert (fun e => e.core == c && e.kind == k) (Engine.dark c k) f d.engines := rfl
@[simp] theorem modEngine_ticket (d : Dev) (c : Nat) (k : EngKind) (f : Engine → Engine) : (d.modEngine c k f).ticket = d.ticket := rfl
@[simp] theorem modEngine_surge (d : Dev) (c : Nat) (k : EngKind) (f : Engine → Engine) : (d.modEngine c k f).surge = d.surge := rfl
@[simp] theorem modEngine_surgeWait (d : Dev) (c : Nat) (k : EngKind) (f : Engine → Engine) : (d.modEngine c k f).surgeWait = d.surgeWait := rfl
@[simp] theorem modEngine_allow (d : Dev) (c : Nat) (k : EngKind) (f : Engine → Engine) : (d.modEngine c k f).allow = d.allow := rfl
@[simp] theorem modEngine_waves (d : Dev) (c : Nat) (k : EngKind) (f : Engine → Engine) : (d.modEngine c k f).waves = d.waves := rfl
@[simp] theorem modEngine_blocks (d : Dev) (c : Nat) (k : EngKind) (f : Engine → Engine) : (d.modEngine c k f).blocks = d.blocks := rfl
@[simp] theorem modEngine_teams (d : Dev) (c : Nat) (k : EngKind) (f : Engine → Engine) : (d.modEngine c k f).teams = d.teams := rfl
@[simp] theorem modEngine_launches (d : Dev) (c : Nat) (k : EngKind) (f : Engine → Engine) : (d.modEngine c k f).launches = d.launches := rfl
@[simp] theorem modEngine_levels (d : Dev) (c : Nat) (k : EngKind) (f : Engine → Engine) : (d.modEngine c k f).levels = d.levels := rfl
@[simp] theorem modEngine_pending (d : Dev) (c : Nat) (k : EngKind) (f : Engine → Engine) : (d.modEngine c k f).pending = d.pending := rfl
@[simp] theorem modEngine_memops (d : Dev) (c : Nat) (k : EngKind) (f : Engine → Engine) : (d.modEngine c k f).memops = d.memops := rfl
@[simp] theorem modEngine_reports (d : Dev) (c : Nat) (k : EngKind) (f : Engine → Engine) : (d.modEngine c k f).reports = d.reports := rfl
@[simp] theorem modEngine_jobs (d : Dev) (c : Nat) (k : EngKind) (f : Engine → Engine) : (d.modEngine c k f).jobs = d.jobs := rfl
@[simp] theorem modEngine_servers (d : Dev) (c : Nat) (k : EngKind) (f : Engine → Engine) : (d.modEngine c k f).servers = d.servers := rfl
@[simp] theorem modEngine_picks (d : Dev) (c : Nat) (k : EngKind) (f : Engine → Engine) : (d.modEngine c k f).picks = d.picks := rfl
@[simp] theorem modEngine_turns (d : Dev) (c : Nat) (k : EngKind) (f : Engine → Engine) : (d.modEngine c k f).turns = d.turns := rfl
@[simp] theorem modEngine_ctxs (d : Dev) (c : Nat) (k : EngKind) (f : Engine → Engine) : (d.modEngine c k f).ctxs = d.ctxs := rfl
@[simp] theorem modEngine_keys (d : Dev) (c : Nat) (k : EngKind) (f : Engine → Engine) : (d.modEngine c k f).keys = d.keys := rfl
@[simp] theorem modEngine_fns (d : Dev) (c : Nat) (k : EngKind) (f : Engine → Engine) : (d.modEngine c k f).fns = d.fns := rfl
@[simp] theorem modEngine_queues (d : Dev) (c : Nat) (k : EngKind) (f : Engine → Engine) : (d.modEngine c k f).queues = d.queues := rfl
@[simp] theorem modEngine_colls (d : Dev) (c : Nat) (k : EngKind) (f : Engine → Engine) : (d.modEngine c k f).colls = d.colls := rfl
@[simp] theorem modEngine_triggers (d : Dev) (c : Nat) (k : EngKind) (f : Engine → Engine) : (d.modEngine c k f).triggers = d.triggers := rfl
@[simp] theorem modEngine_ports (d : Dev) (c : Nat) (k : EngKind) (f : Engine → Engine) : (d.modEngine c k f).ports = d.ports := rfl
@[simp] theorem modEngine_tagHomes (d : Dev) (c : Nat) (k : EngKind) (f : Engine → Engine) : (d.modEngine c k f).tagHomes = d.tagHomes := rfl
@[simp] theorem modEngine_egress (d : Dev) (c : Nat) (k : EngKind) (f : Engine → Engine) : (d.modEngine c k f).egress = d.egress := rfl
@[simp] theorem modEngine_remotes (d : Dev) (c : Nat) (k : EngKind) (f : Engine → Engine) : (d.modEngine c k f).remotes = d.remotes := rfl
@[simp] theorem modEngine_watches (d : Dev) (c : Nat) (k : EngKind) (f : Engine → Engine) : (d.modEngine c k f).watches = d.watches := rfl
@[simp] theorem modEngine_held (d : Dev) (c : Nat) (k : EngKind) (f : Engine → Engine) : (d.modEngine c k f).held = d.held := rfl
@[simp] theorem modEngine_owed (d : Dev) (c : Nat) (k : EngKind) (f : Engine → Engine) : (d.modEngine c k f).owed = d.owed := rfl
@[simp] theorem modEngine_inbox (d : Dev) (c : Nat) (k : EngKind) (f : Engine → Engine) : (d.modEngine c k f).inbox = d.inbox := rfl
@[simp] theorem modEngine_suspRegs (d : Dev) (c : Nat) (k : EngKind) (f : Engine → Engine) : (d.modEngine c k f).suspRegs = d.suspRegs := rfl
@[simp] theorem modEngine_out (d : Dev) (c : Nat) (k : EngKind) (f : Engine → Engine) : (d.modEngine c k f).out = d.out := rfl

/-! ### modFn -/

@[simp] theorem modFn_latch (d : Dev) (n : Nat) (f : Fn → Fn) : (d.modFn n f).latch = d.latch := rfl
@[simp] theorem modFn_clock (d : Dev) (n : Nat) (f : Fn → Fn) : (d.modFn n f).clock = d.clock := rfl
@[simp] theorem modFn_free (d : Dev) (n : Nat) (f : Fn → Fn) : (d.modFn n f).free = d.free := rfl
@[simp] theorem modFn_nextId (d : Dev) (n : Nat) (f : Fn → Fn) : (d.modFn n f).nextId = d.nextId := rfl
@[simp] theorem modFn_keyBase (d : Dev) (n : Nat) (f : Fn → Fn) : (d.modFn n f).keyBase = d.keyBase := rfl
@[simp] theorem modFn_rot (d : Dev) (n : Nat) (f : Fn → Fn) : (d.modFn n f).rot = d.rot := rfl
@[simp] theorem modFn_mem (d : Dev) (n : Nat) (f : Fn → Fn) : (d.modFn n f).mem = d.mem := rfl
@[simp] theorem modFn_sectors (d : Dev) (n : Nat) (f : Fn → Fn) : (d.modFn n f).sectors = d.sectors := rfl
@[simp] theorem modFn_llc (d : Dev) (n : Nat) (f : Fn → Fn) : (d.modFn n f).llc = d.llc := rfl
@[simp] theorem modFn_llcWays (d : Dev) (n : Nat) (f : Fn → Fn) : (d.modFn n f).llcWays = d.llcWays := rfl
@[simp] theorem modFn_mt (d : Dev) (n : Nat) (f : Fn → Fn) : (d.modFn n f).mt = d.mt := rfl
@[simp] theorem modFn_l1 (d : Dev) (n : Nat) (f : Fn → Fn) : (d.modFn n f).l1 = d.l1 := rfl
@[simp] theorem modFn_icache (d : Dev) (n : Nat) (f : Fn → Fn) : (d.modFn n f).icache = d.icache := rfl
@[simp] theorem modFn_tlb (d : Dev) (n : Nat) (f : Fn → Fn) : (d.modFn n f).tlb = d.tlb := rfl
@[simp] theorem modFn_ats (d : Dev) (n : Nat) (f : Fn → Fn) : (d.modFn n f).ats = d.ats := rfl
@[simp] theorem modFn_atsAsked (d : Dev) (n : Nat) (f : Fn → Fn) : (d.modFn n f).atsAsked = d.atsAsked := rfl
@[simp] theorem modFn_xfers (d : Dev) (n : Nat) (f : Fn → Fn) : (d.modFn n f).xfers = d.xfers := rfl
@[simp] theorem modFn_locmem (d : Dev) (n : Nat) (f : Fn → Fn) : (d.modFn n f).locmem = d.locmem := rfl
@[simp] theorem modFn_loclines (d : Dev) (n : Nat) (f : Fn → Fn) : (d.modFn n f).loclines = d.loclines := rfl
@[simp] theorem modFn_poison (d : Dev) (n : Nat) (f : Fn → Fn) : (d.modFn n f).poison = d.poison := rfl
@[simp] theorem modFn_badRegs (d : Dev) (n : Nat) (f : Fn → Fn) : (d.modFn n f).badRegs = d.badRegs := rfl
@[simp] theorem modFn_cores (d : Dev) (n : Nat) (f : Fn → Fn) : (d.modFn n f).cores = d.cores := rfl
@[simp] theorem modFn_engines (d : Dev) (n : Nat) (f : Fn → Fn) : (d.modFn n f).engines = d.engines := rfl
@[simp] theorem modFn_ticket (d : Dev) (n : Nat) (f : Fn → Fn) : (d.modFn n f).ticket = d.ticket := rfl
@[simp] theorem modFn_surge (d : Dev) (n : Nat) (f : Fn → Fn) : (d.modFn n f).surge = d.surge := rfl
@[simp] theorem modFn_surgeWait (d : Dev) (n : Nat) (f : Fn → Fn) : (d.modFn n f).surgeWait = d.surgeWait := rfl
@[simp] theorem modFn_allow (d : Dev) (n : Nat) (f : Fn → Fn) : (d.modFn n f).allow = d.allow := rfl
@[simp] theorem modFn_waves (d : Dev) (n : Nat) (f : Fn → Fn) : (d.modFn n f).waves = d.waves := rfl
@[simp] theorem modFn_blocks (d : Dev) (n : Nat) (f : Fn → Fn) : (d.modFn n f).blocks = d.blocks := rfl
@[simp] theorem modFn_teams (d : Dev) (n : Nat) (f : Fn → Fn) : (d.modFn n f).teams = d.teams := rfl
@[simp] theorem modFn_launches (d : Dev) (n : Nat) (f : Fn → Fn) : (d.modFn n f).launches = d.launches := rfl
@[simp] theorem modFn_levels (d : Dev) (n : Nat) (f : Fn → Fn) : (d.modFn n f).levels = d.levels := rfl
@[simp] theorem modFn_pending (d : Dev) (n : Nat) (f : Fn → Fn) : (d.modFn n f).pending = d.pending := rfl
@[simp] theorem modFn_memops (d : Dev) (n : Nat) (f : Fn → Fn) : (d.modFn n f).memops = d.memops := rfl
@[simp] theorem modFn_reports (d : Dev) (n : Nat) (f : Fn → Fn) : (d.modFn n f).reports = d.reports := rfl
@[simp] theorem modFn_jobs (d : Dev) (n : Nat) (f : Fn → Fn) : (d.modFn n f).jobs = d.jobs := rfl
@[simp] theorem modFn_servers (d : Dev) (n : Nat) (f : Fn → Fn) : (d.modFn n f).servers = d.servers := rfl
@[simp] theorem modFn_picks (d : Dev) (n : Nat) (f : Fn → Fn) : (d.modFn n f).picks = d.picks := rfl
@[simp] theorem modFn_turns (d : Dev) (n : Nat) (f : Fn → Fn) : (d.modFn n f).turns = d.turns := rfl
@[simp] theorem modFn_ctxs (d : Dev) (n : Nat) (f : Fn → Fn) : (d.modFn n f).ctxs = d.ctxs := rfl
@[simp] theorem modFn_keys (d : Dev) (n : Nat) (f : Fn → Fn) : (d.modFn n f).keys = d.keys := rfl
@[simp] theorem modFn_fns (d : Dev) (n : Nat) (f : Fn → Fn) : (d.modFn n f).fns = upsert (·.n == n) (Fn.reset n) f d.fns := rfl
@[simp] theorem modFn_queues (d : Dev) (n : Nat) (f : Fn → Fn) : (d.modFn n f).queues = d.queues := rfl
@[simp] theorem modFn_colls (d : Dev) (n : Nat) (f : Fn → Fn) : (d.modFn n f).colls = d.colls := rfl
@[simp] theorem modFn_triggers (d : Dev) (n : Nat) (f : Fn → Fn) : (d.modFn n f).triggers = d.triggers := rfl
@[simp] theorem modFn_ports (d : Dev) (n : Nat) (f : Fn → Fn) : (d.modFn n f).ports = d.ports := rfl
@[simp] theorem modFn_tagHomes (d : Dev) (n : Nat) (f : Fn → Fn) : (d.modFn n f).tagHomes = d.tagHomes := rfl
@[simp] theorem modFn_egress (d : Dev) (n : Nat) (f : Fn → Fn) : (d.modFn n f).egress = d.egress := rfl
@[simp] theorem modFn_remotes (d : Dev) (n : Nat) (f : Fn → Fn) : (d.modFn n f).remotes = d.remotes := rfl
@[simp] theorem modFn_watches (d : Dev) (n : Nat) (f : Fn → Fn) : (d.modFn n f).watches = d.watches := rfl
@[simp] theorem modFn_held (d : Dev) (n : Nat) (f : Fn → Fn) : (d.modFn n f).held = d.held := rfl
@[simp] theorem modFn_owed (d : Dev) (n : Nat) (f : Fn → Fn) : (d.modFn n f).owed = d.owed := rfl
@[simp] theorem modFn_inbox (d : Dev) (n : Nat) (f : Fn → Fn) : (d.modFn n f).inbox = d.inbox := rfl
@[simp] theorem modFn_suspRegs (d : Dev) (n : Nat) (f : Fn → Fn) : (d.modFn n f).suspRegs = d.suspRegs := rfl
@[simp] theorem modFn_out (d : Dev) (n : Nat) (f : Fn → Fn) : (d.modFn n f).out = d.out := rfl

/-! ### modJob -/

@[simp] theorem modJob_latch (d : Dev) (id : Nat) (f : Job → Job) : (d.modJob id f).latch = d.latch := rfl
@[simp] theorem modJob_clock (d : Dev) (id : Nat) (f : Job → Job) : (d.modJob id f).clock = d.clock := rfl
@[simp] theorem modJob_free (d : Dev) (id : Nat) (f : Job → Job) : (d.modJob id f).free = d.free := rfl
@[simp] theorem modJob_nextId (d : Dev) (id : Nat) (f : Job → Job) : (d.modJob id f).nextId = d.nextId := rfl
@[simp] theorem modJob_keyBase (d : Dev) (id : Nat) (f : Job → Job) : (d.modJob id f).keyBase = d.keyBase := rfl
@[simp] theorem modJob_rot (d : Dev) (id : Nat) (f : Job → Job) : (d.modJob id f).rot = d.rot := rfl
@[simp] theorem modJob_mem (d : Dev) (id : Nat) (f : Job → Job) : (d.modJob id f).mem = d.mem := rfl
@[simp] theorem modJob_sectors (d : Dev) (id : Nat) (f : Job → Job) : (d.modJob id f).sectors = d.sectors := rfl
@[simp] theorem modJob_llc (d : Dev) (id : Nat) (f : Job → Job) : (d.modJob id f).llc = d.llc := rfl
@[simp] theorem modJob_llcWays (d : Dev) (id : Nat) (f : Job → Job) : (d.modJob id f).llcWays = d.llcWays := rfl
@[simp] theorem modJob_mt (d : Dev) (id : Nat) (f : Job → Job) : (d.modJob id f).mt = d.mt := rfl
@[simp] theorem modJob_l1 (d : Dev) (id : Nat) (f : Job → Job) : (d.modJob id f).l1 = d.l1 := rfl
@[simp] theorem modJob_icache (d : Dev) (id : Nat) (f : Job → Job) : (d.modJob id f).icache = d.icache := rfl
@[simp] theorem modJob_tlb (d : Dev) (id : Nat) (f : Job → Job) : (d.modJob id f).tlb = d.tlb := rfl
@[simp] theorem modJob_ats (d : Dev) (id : Nat) (f : Job → Job) : (d.modJob id f).ats = d.ats := rfl
@[simp] theorem modJob_atsAsked (d : Dev) (id : Nat) (f : Job → Job) : (d.modJob id f).atsAsked = d.atsAsked := rfl
@[simp] theorem modJob_xfers (d : Dev) (id : Nat) (f : Job → Job) : (d.modJob id f).xfers = d.xfers := rfl
@[simp] theorem modJob_locmem (d : Dev) (id : Nat) (f : Job → Job) : (d.modJob id f).locmem = d.locmem := rfl
@[simp] theorem modJob_loclines (d : Dev) (id : Nat) (f : Job → Job) : (d.modJob id f).loclines = d.loclines := rfl
@[simp] theorem modJob_poison (d : Dev) (id : Nat) (f : Job → Job) : (d.modJob id f).poison = d.poison := rfl
@[simp] theorem modJob_badRegs (d : Dev) (id : Nat) (f : Job → Job) : (d.modJob id f).badRegs = d.badRegs := rfl
@[simp] theorem modJob_cores (d : Dev) (id : Nat) (f : Job → Job) : (d.modJob id f).cores = d.cores := rfl
@[simp] theorem modJob_engines (d : Dev) (id : Nat) (f : Job → Job) : (d.modJob id f).engines = d.engines := rfl
@[simp] theorem modJob_ticket (d : Dev) (id : Nat) (f : Job → Job) : (d.modJob id f).ticket = d.ticket := rfl
@[simp] theorem modJob_surge (d : Dev) (id : Nat) (f : Job → Job) : (d.modJob id f).surge = d.surge := rfl
@[simp] theorem modJob_surgeWait (d : Dev) (id : Nat) (f : Job → Job) : (d.modJob id f).surgeWait = d.surgeWait := rfl
@[simp] theorem modJob_allow (d : Dev) (id : Nat) (f : Job → Job) : (d.modJob id f).allow = d.allow := rfl
@[simp] theorem modJob_waves (d : Dev) (id : Nat) (f : Job → Job) : (d.modJob id f).waves = d.waves := rfl
@[simp] theorem modJob_blocks (d : Dev) (id : Nat) (f : Job → Job) : (d.modJob id f).blocks = d.blocks := rfl
@[simp] theorem modJob_teams (d : Dev) (id : Nat) (f : Job → Job) : (d.modJob id f).teams = d.teams := rfl
@[simp] theorem modJob_launches (d : Dev) (id : Nat) (f : Job → Job) : (d.modJob id f).launches = d.launches := rfl
@[simp] theorem modJob_levels (d : Dev) (id : Nat) (f : Job → Job) : (d.modJob id f).levels = d.levels := rfl
@[simp] theorem modJob_pending (d : Dev) (id : Nat) (f : Job → Job) : (d.modJob id f).pending = d.pending := rfl
@[simp] theorem modJob_memops (d : Dev) (id : Nat) (f : Job → Job) : (d.modJob id f).memops = d.memops := rfl
@[simp] theorem modJob_reports (d : Dev) (id : Nat) (f : Job → Job) : (d.modJob id f).reports = d.reports := rfl
@[simp] theorem modJob_jobs (d : Dev) (id : Nat) (f : Job → Job) : (d.modJob id f).jobs = modIf (·.id == id) f d.jobs := rfl
@[simp] theorem modJob_servers (d : Dev) (id : Nat) (f : Job → Job) : (d.modJob id f).servers = d.servers := rfl
@[simp] theorem modJob_picks (d : Dev) (id : Nat) (f : Job → Job) : (d.modJob id f).picks = d.picks := rfl
@[simp] theorem modJob_turns (d : Dev) (id : Nat) (f : Job → Job) : (d.modJob id f).turns = d.turns := rfl
@[simp] theorem modJob_ctxs (d : Dev) (id : Nat) (f : Job → Job) : (d.modJob id f).ctxs = d.ctxs := rfl
@[simp] theorem modJob_keys (d : Dev) (id : Nat) (f : Job → Job) : (d.modJob id f).keys = d.keys := rfl
@[simp] theorem modJob_fns (d : Dev) (id : Nat) (f : Job → Job) : (d.modJob id f).fns = d.fns := rfl
@[simp] theorem modJob_queues (d : Dev) (id : Nat) (f : Job → Job) : (d.modJob id f).queues = d.queues := rfl
@[simp] theorem modJob_colls (d : Dev) (id : Nat) (f : Job → Job) : (d.modJob id f).colls = d.colls := rfl
@[simp] theorem modJob_triggers (d : Dev) (id : Nat) (f : Job → Job) : (d.modJob id f).triggers = d.triggers := rfl
@[simp] theorem modJob_ports (d : Dev) (id : Nat) (f : Job → Job) : (d.modJob id f).ports = d.ports := rfl
@[simp] theorem modJob_tagHomes (d : Dev) (id : Nat) (f : Job → Job) : (d.modJob id f).tagHomes = d.tagHomes := rfl
@[simp] theorem modJob_egress (d : Dev) (id : Nat) (f : Job → Job) : (d.modJob id f).egress = d.egress := rfl
@[simp] theorem modJob_remotes (d : Dev) (id : Nat) (f : Job → Job) : (d.modJob id f).remotes = d.remotes := rfl
@[simp] theorem modJob_watches (d : Dev) (id : Nat) (f : Job → Job) : (d.modJob id f).watches = d.watches := rfl
@[simp] theorem modJob_held (d : Dev) (id : Nat) (f : Job → Job) : (d.modJob id f).held = d.held := rfl
@[simp] theorem modJob_owed (d : Dev) (id : Nat) (f : Job → Job) : (d.modJob id f).owed = d.owed := rfl
@[simp] theorem modJob_inbox (d : Dev) (id : Nat) (f : Job → Job) : (d.modJob id f).inbox = d.inbox := rfl
@[simp] theorem modJob_suspRegs (d : Dev) (id : Nat) (f : Job → Job) : (d.modJob id f).suspRegs = d.suspRegs := rfl
@[simp] theorem modJob_out (d : Dev) (id : Nat) (f : Job → Job) : (d.modJob id f).out = d.out := rfl

/-! ### modPort -/

@[simp] theorem modPort_latch (d : Dev) (n : Nat) (f : Port → Port) : (d.modPort n f).latch = d.latch := rfl
@[simp] theorem modPort_clock (d : Dev) (n : Nat) (f : Port → Port) : (d.modPort n f).clock = d.clock := rfl
@[simp] theorem modPort_free (d : Dev) (n : Nat) (f : Port → Port) : (d.modPort n f).free = d.free := rfl
@[simp] theorem modPort_nextId (d : Dev) (n : Nat) (f : Port → Port) : (d.modPort n f).nextId = d.nextId := rfl
@[simp] theorem modPort_keyBase (d : Dev) (n : Nat) (f : Port → Port) : (d.modPort n f).keyBase = d.keyBase := rfl
@[simp] theorem modPort_rot (d : Dev) (n : Nat) (f : Port → Port) : (d.modPort n f).rot = d.rot := rfl
@[simp] theorem modPort_mem (d : Dev) (n : Nat) (f : Port → Port) : (d.modPort n f).mem = d.mem := rfl
@[simp] theorem modPort_sectors (d : Dev) (n : Nat) (f : Port → Port) : (d.modPort n f).sectors = d.sectors := rfl
@[simp] theorem modPort_llc (d : Dev) (n : Nat) (f : Port → Port) : (d.modPort n f).llc = d.llc := rfl
@[simp] theorem modPort_llcWays (d : Dev) (n : Nat) (f : Port → Port) : (d.modPort n f).llcWays = d.llcWays := rfl
@[simp] theorem modPort_mt (d : Dev) (n : Nat) (f : Port → Port) : (d.modPort n f).mt = d.mt := rfl
@[simp] theorem modPort_l1 (d : Dev) (n : Nat) (f : Port → Port) : (d.modPort n f).l1 = d.l1 := rfl
@[simp] theorem modPort_icache (d : Dev) (n : Nat) (f : Port → Port) : (d.modPort n f).icache = d.icache := rfl
@[simp] theorem modPort_tlb (d : Dev) (n : Nat) (f : Port → Port) : (d.modPort n f).tlb = d.tlb := rfl
@[simp] theorem modPort_ats (d : Dev) (n : Nat) (f : Port → Port) : (d.modPort n f).ats = d.ats := rfl
@[simp] theorem modPort_atsAsked (d : Dev) (n : Nat) (f : Port → Port) : (d.modPort n f).atsAsked = d.atsAsked := rfl
@[simp] theorem modPort_xfers (d : Dev) (n : Nat) (f : Port → Port) : (d.modPort n f).xfers = d.xfers := rfl
@[simp] theorem modPort_locmem (d : Dev) (n : Nat) (f : Port → Port) : (d.modPort n f).locmem = d.locmem := rfl
@[simp] theorem modPort_loclines (d : Dev) (n : Nat) (f : Port → Port) : (d.modPort n f).loclines = d.loclines := rfl
@[simp] theorem modPort_poison (d : Dev) (n : Nat) (f : Port → Port) : (d.modPort n f).poison = d.poison := rfl
@[simp] theorem modPort_badRegs (d : Dev) (n : Nat) (f : Port → Port) : (d.modPort n f).badRegs = d.badRegs := rfl
@[simp] theorem modPort_cores (d : Dev) (n : Nat) (f : Port → Port) : (d.modPort n f).cores = d.cores := rfl
@[simp] theorem modPort_engines (d : Dev) (n : Nat) (f : Port → Port) : (d.modPort n f).engines = d.engines := rfl
@[simp] theorem modPort_ticket (d : Dev) (n : Nat) (f : Port → Port) : (d.modPort n f).ticket = d.ticket := rfl
@[simp] theorem modPort_surge (d : Dev) (n : Nat) (f : Port → Port) : (d.modPort n f).surge = d.surge := rfl
@[simp] theorem modPort_surgeWait (d : Dev) (n : Nat) (f : Port → Port) : (d.modPort n f).surgeWait = d.surgeWait := rfl
@[simp] theorem modPort_allow (d : Dev) (n : Nat) (f : Port → Port) : (d.modPort n f).allow = d.allow := rfl
@[simp] theorem modPort_waves (d : Dev) (n : Nat) (f : Port → Port) : (d.modPort n f).waves = d.waves := rfl
@[simp] theorem modPort_blocks (d : Dev) (n : Nat) (f : Port → Port) : (d.modPort n f).blocks = d.blocks := rfl
@[simp] theorem modPort_teams (d : Dev) (n : Nat) (f : Port → Port) : (d.modPort n f).teams = d.teams := rfl
@[simp] theorem modPort_launches (d : Dev) (n : Nat) (f : Port → Port) : (d.modPort n f).launches = d.launches := rfl
@[simp] theorem modPort_levels (d : Dev) (n : Nat) (f : Port → Port) : (d.modPort n f).levels = d.levels := rfl
@[simp] theorem modPort_pending (d : Dev) (n : Nat) (f : Port → Port) : (d.modPort n f).pending = d.pending := rfl
@[simp] theorem modPort_memops (d : Dev) (n : Nat) (f : Port → Port) : (d.modPort n f).memops = d.memops := rfl
@[simp] theorem modPort_reports (d : Dev) (n : Nat) (f : Port → Port) : (d.modPort n f).reports = d.reports := rfl
@[simp] theorem modPort_jobs (d : Dev) (n : Nat) (f : Port → Port) : (d.modPort n f).jobs = d.jobs := rfl
@[simp] theorem modPort_servers (d : Dev) (n : Nat) (f : Port → Port) : (d.modPort n f).servers = d.servers := rfl
@[simp] theorem modPort_picks (d : Dev) (n : Nat) (f : Port → Port) : (d.modPort n f).picks = d.picks := rfl
@[simp] theorem modPort_turns (d : Dev) (n : Nat) (f : Port → Port) : (d.modPort n f).turns = d.turns := rfl
@[simp] theorem modPort_ctxs (d : Dev) (n : Nat) (f : Port → Port) : (d.modPort n f).ctxs = d.ctxs := rfl
@[simp] theorem modPort_keys (d : Dev) (n : Nat) (f : Port → Port) : (d.modPort n f).keys = d.keys := rfl
@[simp] theorem modPort_fns (d : Dev) (n : Nat) (f : Port → Port) : (d.modPort n f).fns = d.fns := rfl
@[simp] theorem modPort_queues (d : Dev) (n : Nat) (f : Port → Port) : (d.modPort n f).queues = d.queues := rfl
@[simp] theorem modPort_colls (d : Dev) (n : Nat) (f : Port → Port) : (d.modPort n f).colls = d.colls := rfl
@[simp] theorem modPort_triggers (d : Dev) (n : Nat) (f : Port → Port) : (d.modPort n f).triggers = d.triggers := rfl
@[simp] theorem modPort_ports (d : Dev) (n : Nat) (f : Port → Port) : (d.modPort n f).ports = upsert (·.n == n) (Port.reset n) f d.ports := rfl
@[simp] theorem modPort_tagHomes (d : Dev) (n : Nat) (f : Port → Port) : (d.modPort n f).tagHomes = d.tagHomes := rfl
@[simp] theorem modPort_egress (d : Dev) (n : Nat) (f : Port → Port) : (d.modPort n f).egress = d.egress := rfl
@[simp] theorem modPort_remotes (d : Dev) (n : Nat) (f : Port → Port) : (d.modPort n f).remotes = d.remotes := rfl
@[simp] theorem modPort_watches (d : Dev) (n : Nat) (f : Port → Port) : (d.modPort n f).watches = d.watches := rfl
@[simp] theorem modPort_held (d : Dev) (n : Nat) (f : Port → Port) : (d.modPort n f).held = d.held := rfl
@[simp] theorem modPort_owed (d : Dev) (n : Nat) (f : Port → Port) : (d.modPort n f).owed = d.owed := rfl
@[simp] theorem modPort_inbox (d : Dev) (n : Nat) (f : Port → Port) : (d.modPort n f).inbox = d.inbox := rfl
@[simp] theorem modPort_suspRegs (d : Dev) (n : Nat) (f : Port → Port) : (d.modPort n f).suspRegs = d.suspRegs := rfl
@[simp] theorem modPort_out (d : Dev) (n : Nat) (f : Port → Port) : (d.modPort n f).out = d.out := rfl

/-! ### send -/

@[simp] theorem send_latch (d : Dev) (m : Msg) : (d.send m).latch = d.latch := rfl
@[simp] theorem send_clock (d : Dev) (m : Msg) : (d.send m).clock = d.clock := rfl
@[simp] theorem send_free (d : Dev) (m : Msg) : (d.send m).free = d.free := rfl
@[simp] theorem send_nextId (d : Dev) (m : Msg) : (d.send m).nextId = d.nextId := rfl
@[simp] theorem send_keyBase (d : Dev) (m : Msg) : (d.send m).keyBase = d.keyBase := rfl
@[simp] theorem send_rot (d : Dev) (m : Msg) : (d.send m).rot = d.rot := rfl
@[simp] theorem send_mem (d : Dev) (m : Msg) : (d.send m).mem = d.mem := rfl
@[simp] theorem send_sectors (d : Dev) (m : Msg) : (d.send m).sectors = d.sectors := rfl
@[simp] theorem send_llc (d : Dev) (m : Msg) : (d.send m).llc = d.llc := rfl
@[simp] theorem send_llcWays (d : Dev) (m : Msg) : (d.send m).llcWays = d.llcWays := rfl
@[simp] theorem send_mt (d : Dev) (m : Msg) : (d.send m).mt = d.mt := rfl
@[simp] theorem send_l1 (d : Dev) (m : Msg) : (d.send m).l1 = d.l1 := rfl
@[simp] theorem send_icache (d : Dev) (m : Msg) : (d.send m).icache = d.icache := rfl
@[simp] theorem send_tlb (d : Dev) (m : Msg) : (d.send m).tlb = d.tlb := rfl
@[simp] theorem send_ats (d : Dev) (m : Msg) : (d.send m).ats = d.ats := rfl
@[simp] theorem send_atsAsked (d : Dev) (m : Msg) : (d.send m).atsAsked = d.atsAsked := rfl
@[simp] theorem send_xfers (d : Dev) (m : Msg) : (d.send m).xfers = d.xfers := rfl
@[simp] theorem send_locmem (d : Dev) (m : Msg) : (d.send m).locmem = d.locmem := rfl
@[simp] theorem send_loclines (d : Dev) (m : Msg) : (d.send m).loclines = d.loclines := rfl
@[simp] theorem send_poison (d : Dev) (m : Msg) : (d.send m).poison = d.poison := rfl
@[simp] theorem send_badRegs (d : Dev) (m : Msg) : (d.send m).badRegs = d.badRegs := rfl
@[simp] theorem send_cores (d : Dev) (m : Msg) : (d.send m).cores = d.cores := rfl
@[simp] theorem send_engines (d : Dev) (m : Msg) : (d.send m).engines = d.engines := rfl
@[simp] theorem send_ticket (d : Dev) (m : Msg) : (d.send m).ticket = d.ticket := rfl
@[simp] theorem send_surge (d : Dev) (m : Msg) : (d.send m).surge = d.surge := rfl
@[simp] theorem send_surgeWait (d : Dev) (m : Msg) : (d.send m).surgeWait = d.surgeWait := rfl
@[simp] theorem send_allow (d : Dev) (m : Msg) : (d.send m).allow = d.allow := rfl
@[simp] theorem send_waves (d : Dev) (m : Msg) : (d.send m).waves = d.waves := rfl
@[simp] theorem send_blocks (d : Dev) (m : Msg) : (d.send m).blocks = d.blocks := rfl
@[simp] theorem send_teams (d : Dev) (m : Msg) : (d.send m).teams = d.teams := rfl
@[simp] theorem send_launches (d : Dev) (m : Msg) : (d.send m).launches = d.launches := rfl
@[simp] theorem send_levels (d : Dev) (m : Msg) : (d.send m).levels = d.levels := rfl
@[simp] theorem send_pending (d : Dev) (m : Msg) : (d.send m).pending = d.pending := rfl
@[simp] theorem send_memops (d : Dev) (m : Msg) : (d.send m).memops = d.memops := rfl
@[simp] theorem send_reports (d : Dev) (m : Msg) : (d.send m).reports = d.reports := rfl
@[simp] theorem send_jobs (d : Dev) (m : Msg) : (d.send m).jobs = d.jobs := rfl
@[simp] theorem send_servers (d : Dev) (m : Msg) : (d.send m).servers = d.servers := rfl
@[simp] theorem send_picks (d : Dev) (m : Msg) : (d.send m).picks = d.picks := rfl
@[simp] theorem send_turns (d : Dev) (m : Msg) : (d.send m).turns = d.turns := rfl
@[simp] theorem send_ctxs (d : Dev) (m : Msg) : (d.send m).ctxs = d.ctxs := rfl
@[simp] theorem send_keys (d : Dev) (m : Msg) : (d.send m).keys = d.keys := rfl
@[simp] theorem send_fns (d : Dev) (m : Msg) : (d.send m).fns = d.fns := rfl
@[simp] theorem send_queues (d : Dev) (m : Msg) : (d.send m).queues = d.queues := rfl
@[simp] theorem send_colls (d : Dev) (m : Msg) : (d.send m).colls = d.colls := rfl
@[simp] theorem send_triggers (d : Dev) (m : Msg) : (d.send m).triggers = d.triggers := rfl
@[simp] theorem send_ports (d : Dev) (m : Msg) : (d.send m).ports = d.ports := rfl
@[simp] theorem send_tagHomes (d : Dev) (m : Msg) : (d.send m).tagHomes = d.tagHomes := rfl
@[simp] theorem send_egress (d : Dev) (m : Msg) : (d.send m).egress = d.egress := rfl
@[simp] theorem send_remotes (d : Dev) (m : Msg) : (d.send m).remotes = d.remotes := rfl
@[simp] theorem send_watches (d : Dev) (m : Msg) : (d.send m).watches = d.watches := rfl
@[simp] theorem send_held (d : Dev) (m : Msg) : (d.send m).held = d.held := rfl
@[simp] theorem send_owed (d : Dev) (m : Msg) : (d.send m).owed = d.owed := rfl
@[simp] theorem send_inbox (d : Dev) (m : Msg) : (d.send m).inbox = d.inbox := rfl
@[simp] theorem send_suspRegs (d : Dev) (m : Msg) : (d.send m).suspRegs = d.suspRegs := rfl
@[simp] theorem send_out (d : Dev) (m : Msg) : (d.send m).out = d.out ++ [m] := rfl

/-! ### onGang -/

@[simp] theorem onGang_latch (d : Dev) (k : Issue) (f : Nat → Strand → Strand) : (d.onGang k f).latch = d.latch := rfl
@[simp] theorem onGang_clock (d : Dev) (k : Issue) (f : Nat → Strand → Strand) : (d.onGang k f).clock = d.clock := rfl
@[simp] theorem onGang_free (d : Dev) (k : Issue) (f : Nat → Strand → Strand) : (d.onGang k f).free = d.free := rfl
@[simp] theorem onGang_nextId (d : Dev) (k : Issue) (f : Nat → Strand → Strand) : (d.onGang k f).nextId = d.nextId := rfl
@[simp] theorem onGang_keyBase (d : Dev) (k : Issue) (f : Nat → Strand → Strand) : (d.onGang k f).keyBase = d.keyBase := rfl
@[simp] theorem onGang_rot (d : Dev) (k : Issue) (f : Nat → Strand → Strand) : (d.onGang k f).rot = d.rot := rfl
@[simp] theorem onGang_mem (d : Dev) (k : Issue) (f : Nat → Strand → Strand) : (d.onGang k f).mem = d.mem := rfl
@[simp] theorem onGang_sectors (d : Dev) (k : Issue) (f : Nat → Strand → Strand) : (d.onGang k f).sectors = d.sectors := rfl
@[simp] theorem onGang_llc (d : Dev) (k : Issue) (f : Nat → Strand → Strand) : (d.onGang k f).llc = d.llc := rfl
@[simp] theorem onGang_llcWays (d : Dev) (k : Issue) (f : Nat → Strand → Strand) : (d.onGang k f).llcWays = d.llcWays := rfl
@[simp] theorem onGang_mt (d : Dev) (k : Issue) (f : Nat → Strand → Strand) : (d.onGang k f).mt = d.mt := rfl
@[simp] theorem onGang_l1 (d : Dev) (k : Issue) (f : Nat → Strand → Strand) : (d.onGang k f).l1 = d.l1 := rfl
@[simp] theorem onGang_icache (d : Dev) (k : Issue) (f : Nat → Strand → Strand) : (d.onGang k f).icache = d.icache := rfl
@[simp] theorem onGang_tlb (d : Dev) (k : Issue) (f : Nat → Strand → Strand) : (d.onGang k f).tlb = d.tlb := rfl
@[simp] theorem onGang_ats (d : Dev) (k : Issue) (f : Nat → Strand → Strand) : (d.onGang k f).ats = d.ats := rfl
@[simp] theorem onGang_atsAsked (d : Dev) (k : Issue) (f : Nat → Strand → Strand) : (d.onGang k f).atsAsked = d.atsAsked := rfl
@[simp] theorem onGang_xfers (d : Dev) (k : Issue) (f : Nat → Strand → Strand) : (d.onGang k f).xfers = d.xfers := rfl
@[simp] theorem onGang_locmem (d : Dev) (k : Issue) (f : Nat → Strand → Strand) : (d.onGang k f).locmem = d.locmem := rfl
@[simp] theorem onGang_loclines (d : Dev) (k : Issue) (f : Nat → Strand → Strand) : (d.onGang k f).loclines = d.loclines := rfl
@[simp] theorem onGang_poison (d : Dev) (k : Issue) (f : Nat → Strand → Strand) : (d.onGang k f).poison = d.poison := rfl
@[simp] theorem onGang_badRegs (d : Dev) (k : Issue) (f : Nat → Strand → Strand) : (d.onGang k f).badRegs = d.badRegs := rfl
@[simp] theorem onGang_cores (d : Dev) (k : Issue) (f : Nat → Strand → Strand) : (d.onGang k f).cores = d.cores := rfl
@[simp] theorem onGang_engines (d : Dev) (k : Issue) (f : Nat → Strand → Strand) : (d.onGang k f).engines = d.engines := rfl
@[simp] theorem onGang_ticket (d : Dev) (k : Issue) (f : Nat → Strand → Strand) : (d.onGang k f).ticket = d.ticket := rfl
@[simp] theorem onGang_surge (d : Dev) (k : Issue) (f : Nat → Strand → Strand) : (d.onGang k f).surge = d.surge := rfl
@[simp] theorem onGang_surgeWait (d : Dev) (k : Issue) (f : Nat → Strand → Strand) : (d.onGang k f).surgeWait = d.surgeWait := rfl
@[simp] theorem onGang_allow (d : Dev) (k : Issue) (f : Nat → Strand → Strand) : (d.onGang k f).allow = d.allow := rfl
@[simp] theorem onGang_waves (d : Dev) (k : Issue) (f : Nat → Strand → Strand) : (d.onGang k f).waves = modIf (·.id == k.wave.id) (fun w => w.modStrands k.gang f) d.waves := rfl
@[simp] theorem onGang_blocks (d : Dev) (k : Issue) (f : Nat → Strand → Strand) : (d.onGang k f).blocks = d.blocks := rfl
@[simp] theorem onGang_teams (d : Dev) (k : Issue) (f : Nat → Strand → Strand) : (d.onGang k f).teams = d.teams := rfl
@[simp] theorem onGang_launches (d : Dev) (k : Issue) (f : Nat → Strand → Strand) : (d.onGang k f).launches = d.launches := rfl
@[simp] theorem onGang_levels (d : Dev) (k : Issue) (f : Nat → Strand → Strand) : (d.onGang k f).levels = d.levels := rfl
@[simp] theorem onGang_pending (d : Dev) (k : Issue) (f : Nat → Strand → Strand) : (d.onGang k f).pending = d.pending := rfl
@[simp] theorem onGang_memops (d : Dev) (k : Issue) (f : Nat → Strand → Strand) : (d.onGang k f).memops = d.memops := rfl
@[simp] theorem onGang_reports (d : Dev) (k : Issue) (f : Nat → Strand → Strand) : (d.onGang k f).reports = d.reports := rfl
@[simp] theorem onGang_jobs (d : Dev) (k : Issue) (f : Nat → Strand → Strand) : (d.onGang k f).jobs = d.jobs := rfl
@[simp] theorem onGang_servers (d : Dev) (k : Issue) (f : Nat → Strand → Strand) : (d.onGang k f).servers = d.servers := rfl
@[simp] theorem onGang_picks (d : Dev) (k : Issue) (f : Nat → Strand → Strand) : (d.onGang k f).picks = d.picks := rfl
@[simp] theorem onGang_turns (d : Dev) (k : Issue) (f : Nat → Strand → Strand) : (d.onGang k f).turns = d.turns := rfl
@[simp] theorem onGang_ctxs (d : Dev) (k : Issue) (f : Nat → Strand → Strand) : (d.onGang k f).ctxs = d.ctxs := rfl
@[simp] theorem onGang_keys (d : Dev) (k : Issue) (f : Nat → Strand → Strand) : (d.onGang k f).keys = d.keys := rfl
@[simp] theorem onGang_fns (d : Dev) (k : Issue) (f : Nat → Strand → Strand) : (d.onGang k f).fns = d.fns := rfl
@[simp] theorem onGang_queues (d : Dev) (k : Issue) (f : Nat → Strand → Strand) : (d.onGang k f).queues = d.queues := rfl
@[simp] theorem onGang_colls (d : Dev) (k : Issue) (f : Nat → Strand → Strand) : (d.onGang k f).colls = d.colls := rfl
@[simp] theorem onGang_triggers (d : Dev) (k : Issue) (f : Nat → Strand → Strand) : (d.onGang k f).triggers = d.triggers := rfl
@[simp] theorem onGang_ports (d : Dev) (k : Issue) (f : Nat → Strand → Strand) : (d.onGang k f).ports = d.ports := rfl
@[simp] theorem onGang_tagHomes (d : Dev) (k : Issue) (f : Nat → Strand → Strand) : (d.onGang k f).tagHomes = d.tagHomes := rfl
@[simp] theorem onGang_egress (d : Dev) (k : Issue) (f : Nat → Strand → Strand) : (d.onGang k f).egress = d.egress := rfl
@[simp] theorem onGang_remotes (d : Dev) (k : Issue) (f : Nat → Strand → Strand) : (d.onGang k f).remotes = d.remotes := rfl
@[simp] theorem onGang_watches (d : Dev) (k : Issue) (f : Nat → Strand → Strand) : (d.onGang k f).watches = d.watches := rfl
@[simp] theorem onGang_held (d : Dev) (k : Issue) (f : Nat → Strand → Strand) : (d.onGang k f).held = d.held := rfl
@[simp] theorem onGang_owed (d : Dev) (k : Issue) (f : Nat → Strand → Strand) : (d.onGang k f).owed = d.owed := rfl
@[simp] theorem onGang_inbox (d : Dev) (k : Issue) (f : Nat → Strand → Strand) : (d.onGang k f).inbox = d.inbox := rfl
@[simp] theorem onGang_suspRegs (d : Dev) (k : Issue) (f : Nat → Strand → Strand) : (d.onGang k f).suspRegs = d.suspRegs := rfl
@[simp] theorem onGang_out (d : Dev) (k : Issue) (f : Nat → Strand → Strand) : (d.onGang k f).out = d.out := rfl

/-! ### advance -/

@[simp] theorem advance_latch (d : Dev) (k : Issue) (len : Nat) : (d.advance k len).latch = d.latch := rfl
@[simp] theorem advance_clock (d : Dev) (k : Issue) (len : Nat) : (d.advance k len).clock = d.clock := rfl
@[simp] theorem advance_free (d : Dev) (k : Issue) (len : Nat) : (d.advance k len).free = d.free := rfl
@[simp] theorem advance_nextId (d : Dev) (k : Issue) (len : Nat) : (d.advance k len).nextId = d.nextId := rfl
@[simp] theorem advance_keyBase (d : Dev) (k : Issue) (len : Nat) : (d.advance k len).keyBase = d.keyBase := rfl
@[simp] theorem advance_rot (d : Dev) (k : Issue) (len : Nat) : (d.advance k len).rot = d.rot := rfl
@[simp] theorem advance_mem (d : Dev) (k : Issue) (len : Nat) : (d.advance k len).mem = d.mem := rfl
@[simp] theorem advance_sectors (d : Dev) (k : Issue) (len : Nat) : (d.advance k len).sectors = d.sectors := rfl
@[simp] theorem advance_llc (d : Dev) (k : Issue) (len : Nat) : (d.advance k len).llc = d.llc := rfl
@[simp] theorem advance_llcWays (d : Dev) (k : Issue) (len : Nat) : (d.advance k len).llcWays = d.llcWays := rfl
@[simp] theorem advance_mt (d : Dev) (k : Issue) (len : Nat) : (d.advance k len).mt = d.mt := rfl
@[simp] theorem advance_l1 (d : Dev) (k : Issue) (len : Nat) : (d.advance k len).l1 = d.l1 := rfl
@[simp] theorem advance_icache (d : Dev) (k : Issue) (len : Nat) : (d.advance k len).icache = d.icache := rfl
@[simp] theorem advance_tlb (d : Dev) (k : Issue) (len : Nat) : (d.advance k len).tlb = d.tlb := rfl
@[simp] theorem advance_ats (d : Dev) (k : Issue) (len : Nat) : (d.advance k len).ats = d.ats := rfl
@[simp] theorem advance_atsAsked (d : Dev) (k : Issue) (len : Nat) : (d.advance k len).atsAsked = d.atsAsked := rfl
@[simp] theorem advance_xfers (d : Dev) (k : Issue) (len : Nat) : (d.advance k len).xfers = d.xfers := rfl
@[simp] theorem advance_locmem (d : Dev) (k : Issue) (len : Nat) : (d.advance k len).locmem = d.locmem := rfl
@[simp] theorem advance_loclines (d : Dev) (k : Issue) (len : Nat) : (d.advance k len).loclines = d.loclines := rfl
@[simp] theorem advance_poison (d : Dev) (k : Issue) (len : Nat) : (d.advance k len).poison = d.poison := rfl
@[simp] theorem advance_badRegs (d : Dev) (k : Issue) (len : Nat) : (d.advance k len).badRegs = d.badRegs := rfl
@[simp] theorem advance_cores (d : Dev) (k : Issue) (len : Nat) : (d.advance k len).cores = d.cores := rfl
@[simp] theorem advance_engines (d : Dev) (k : Issue) (len : Nat) : (d.advance k len).engines = d.engines := rfl
@[simp] theorem advance_ticket (d : Dev) (k : Issue) (len : Nat) : (d.advance k len).ticket = d.ticket := rfl
@[simp] theorem advance_surge (d : Dev) (k : Issue) (len : Nat) : (d.advance k len).surge = d.surge := rfl
@[simp] theorem advance_surgeWait (d : Dev) (k : Issue) (len : Nat) : (d.advance k len).surgeWait = d.surgeWait := rfl
@[simp] theorem advance_allow (d : Dev) (k : Issue) (len : Nat) : (d.advance k len).allow = d.allow := rfl
@[simp] theorem advance_blocks (d : Dev) (k : Issue) (len : Nat) : (d.advance k len).blocks = d.blocks := rfl
@[simp] theorem advance_teams (d : Dev) (k : Issue) (len : Nat) : (d.advance k len).teams = d.teams := rfl
@[simp] theorem advance_launches (d : Dev) (k : Issue) (len : Nat) : (d.advance k len).launches = d.launches := rfl
@[simp] theorem advance_levels (d : Dev) (k : Issue) (len : Nat) : (d.advance k len).levels = d.levels := rfl
@[simp] theorem advance_pending (d : Dev) (k : Issue) (len : Nat) : (d.advance k len).pending = d.pending := rfl
@[simp] theorem advance_memops (d : Dev) (k : Issue) (len : Nat) : (d.advance k len).memops = d.memops := rfl
@[simp] theorem advance_reports (d : Dev) (k : Issue) (len : Nat) : (d.advance k len).reports = d.reports := rfl
@[simp] theorem advance_jobs (d : Dev) (k : Issue) (len : Nat) : (d.advance k len).jobs = d.jobs := rfl
@[simp] theorem advance_servers (d : Dev) (k : Issue) (len : Nat) : (d.advance k len).servers = d.servers := rfl
@[simp] theorem advance_picks (d : Dev) (k : Issue) (len : Nat) : (d.advance k len).picks = d.picks := rfl
@[simp] theorem advance_turns (d : Dev) (k : Issue) (len : Nat) : (d.advance k len).turns = d.turns := rfl
@[simp] theorem advance_ctxs (d : Dev) (k : Issue) (len : Nat) : (d.advance k len).ctxs = d.ctxs := rfl
@[simp] theorem advance_keys (d : Dev) (k : Issue) (len : Nat) : (d.advance k len).keys = d.keys := rfl
@[simp] theorem advance_fns (d : Dev) (k : Issue) (len : Nat) : (d.advance k len).fns = d.fns := rfl
@[simp] theorem advance_queues (d : Dev) (k : Issue) (len : Nat) : (d.advance k len).queues = d.queues := rfl
@[simp] theorem advance_colls (d : Dev) (k : Issue) (len : Nat) : (d.advance k len).colls = d.colls := rfl
@[simp] theorem advance_triggers (d : Dev) (k : Issue) (len : Nat) : (d.advance k len).triggers = d.triggers := rfl
@[simp] theorem advance_ports (d : Dev) (k : Issue) (len : Nat) : (d.advance k len).ports = d.ports := rfl
@[simp] theorem advance_tagHomes (d : Dev) (k : Issue) (len : Nat) : (d.advance k len).tagHomes = d.tagHomes := rfl
@[simp] theorem advance_egress (d : Dev) (k : Issue) (len : Nat) : (d.advance k len).egress = d.egress := rfl
@[simp] theorem advance_remotes (d : Dev) (k : Issue) (len : Nat) : (d.advance k len).remotes = d.remotes := rfl
@[simp] theorem advance_watches (d : Dev) (k : Issue) (len : Nat) : (d.advance k len).watches = d.watches := rfl
@[simp] theorem advance_held (d : Dev) (k : Issue) (len : Nat) : (d.advance k len).held = d.held := rfl
@[simp] theorem advance_owed (d : Dev) (k : Issue) (len : Nat) : (d.advance k len).owed = d.owed := rfl
@[simp] theorem advance_inbox (d : Dev) (k : Issue) (len : Nat) : (d.advance k len).inbox = d.inbox := rfl
@[simp] theorem advance_suspRegs (d : Dev) (k : Issue) (len : Nat) : (d.advance k len).suspRegs = d.suspRegs := rfl
@[simp] theorem advance_out (d : Dev) (k : Issue) (len : Nat) : (d.advance k len).out = d.out := rfl

/-! ### setScalars -/

@[simp] theorem setScalars_latch (d : Dev) (k : Issue) (r : SReg) (f : Nat → Word) : (d.setScalars k r f).latch = d.latch := rfl
@[simp] theorem setScalars_clock (d : Dev) (k : Issue) (r : SReg) (f : Nat → Word) : (d.setScalars k r f).clock = d.clock := rfl
@[simp] theorem setScalars_free (d : Dev) (k : Issue) (r : SReg) (f : Nat → Word) : (d.setScalars k r f).free = d.free := rfl
@[simp] theorem setScalars_nextId (d : Dev) (k : Issue) (r : SReg) (f : Nat → Word) : (d.setScalars k r f).nextId = d.nextId := rfl
@[simp] theorem setScalars_keyBase (d : Dev) (k : Issue) (r : SReg) (f : Nat → Word) : (d.setScalars k r f).keyBase = d.keyBase := rfl
@[simp] theorem setScalars_rot (d : Dev) (k : Issue) (r : SReg) (f : Nat → Word) : (d.setScalars k r f).rot = d.rot := rfl
@[simp] theorem setScalars_mem (d : Dev) (k : Issue) (r : SReg) (f : Nat → Word) : (d.setScalars k r f).mem = d.mem := rfl
@[simp] theorem setScalars_sectors (d : Dev) (k : Issue) (r : SReg) (f : Nat → Word) : (d.setScalars k r f).sectors = d.sectors := rfl
@[simp] theorem setScalars_llc (d : Dev) (k : Issue) (r : SReg) (f : Nat → Word) : (d.setScalars k r f).llc = d.llc := rfl
@[simp] theorem setScalars_llcWays (d : Dev) (k : Issue) (r : SReg) (f : Nat → Word) : (d.setScalars k r f).llcWays = d.llcWays := rfl
@[simp] theorem setScalars_mt (d : Dev) (k : Issue) (r : SReg) (f : Nat → Word) : (d.setScalars k r f).mt = d.mt := rfl
@[simp] theorem setScalars_l1 (d : Dev) (k : Issue) (r : SReg) (f : Nat → Word) : (d.setScalars k r f).l1 = d.l1 := rfl
@[simp] theorem setScalars_icache (d : Dev) (k : Issue) (r : SReg) (f : Nat → Word) : (d.setScalars k r f).icache = d.icache := rfl
@[simp] theorem setScalars_tlb (d : Dev) (k : Issue) (r : SReg) (f : Nat → Word) : (d.setScalars k r f).tlb = d.tlb := rfl
@[simp] theorem setScalars_ats (d : Dev) (k : Issue) (r : SReg) (f : Nat → Word) : (d.setScalars k r f).ats = d.ats := rfl
@[simp] theorem setScalars_atsAsked (d : Dev) (k : Issue) (r : SReg) (f : Nat → Word) : (d.setScalars k r f).atsAsked = d.atsAsked := rfl
@[simp] theorem setScalars_xfers (d : Dev) (k : Issue) (r : SReg) (f : Nat → Word) : (d.setScalars k r f).xfers = d.xfers := rfl
@[simp] theorem setScalars_locmem (d : Dev) (k : Issue) (r : SReg) (f : Nat → Word) : (d.setScalars k r f).locmem = d.locmem := rfl
@[simp] theorem setScalars_loclines (d : Dev) (k : Issue) (r : SReg) (f : Nat → Word) : (d.setScalars k r f).loclines = d.loclines := rfl
@[simp] theorem setScalars_poison (d : Dev) (k : Issue) (r : SReg) (f : Nat → Word) : (d.setScalars k r f).poison = d.poison := rfl
@[simp] theorem setScalars_badRegs (d : Dev) (k : Issue) (r : SReg) (f : Nat → Word) : (d.setScalars k r f).badRegs = d.badRegs := rfl
@[simp] theorem setScalars_cores (d : Dev) (k : Issue) (r : SReg) (f : Nat → Word) : (d.setScalars k r f).cores = d.cores := rfl
@[simp] theorem setScalars_engines (d : Dev) (k : Issue) (r : SReg) (f : Nat → Word) : (d.setScalars k r f).engines = d.engines := rfl
@[simp] theorem setScalars_ticket (d : Dev) (k : Issue) (r : SReg) (f : Nat → Word) : (d.setScalars k r f).ticket = d.ticket := rfl
@[simp] theorem setScalars_surge (d : Dev) (k : Issue) (r : SReg) (f : Nat → Word) : (d.setScalars k r f).surge = d.surge := rfl
@[simp] theorem setScalars_surgeWait (d : Dev) (k : Issue) (r : SReg) (f : Nat → Word) : (d.setScalars k r f).surgeWait = d.surgeWait := rfl
@[simp] theorem setScalars_allow (d : Dev) (k : Issue) (r : SReg) (f : Nat → Word) : (d.setScalars k r f).allow = d.allow := rfl
@[simp] theorem setScalars_blocks (d : Dev) (k : Issue) (r : SReg) (f : Nat → Word) : (d.setScalars k r f).blocks = d.blocks := rfl
@[simp] theorem setScalars_teams (d : Dev) (k : Issue) (r : SReg) (f : Nat → Word) : (d.setScalars k r f).teams = d.teams := rfl
@[simp] theorem setScalars_launches (d : Dev) (k : Issue) (r : SReg) (f : Nat → Word) : (d.setScalars k r f).launches = d.launches := rfl
@[simp] theorem setScalars_levels (d : Dev) (k : Issue) (r : SReg) (f : Nat → Word) : (d.setScalars k r f).levels = d.levels := rfl
@[simp] theorem setScalars_pending (d : Dev) (k : Issue) (r : SReg) (f : Nat → Word) : (d.setScalars k r f).pending = d.pending := rfl
@[simp] theorem setScalars_memops (d : Dev) (k : Issue) (r : SReg) (f : Nat → Word) : (d.setScalars k r f).memops = d.memops := rfl
@[simp] theorem setScalars_reports (d : Dev) (k : Issue) (r : SReg) (f : Nat → Word) : (d.setScalars k r f).reports = d.reports := rfl
@[simp] theorem setScalars_jobs (d : Dev) (k : Issue) (r : SReg) (f : Nat → Word) : (d.setScalars k r f).jobs = d.jobs := rfl
@[simp] theorem setScalars_servers (d : Dev) (k : Issue) (r : SReg) (f : Nat → Word) : (d.setScalars k r f).servers = d.servers := rfl
@[simp] theorem setScalars_picks (d : Dev) (k : Issue) (r : SReg) (f : Nat → Word) : (d.setScalars k r f).picks = d.picks := rfl
@[simp] theorem setScalars_turns (d : Dev) (k : Issue) (r : SReg) (f : Nat → Word) : (d.setScalars k r f).turns = d.turns := rfl
@[simp] theorem setScalars_ctxs (d : Dev) (k : Issue) (r : SReg) (f : Nat → Word) : (d.setScalars k r f).ctxs = d.ctxs := rfl
@[simp] theorem setScalars_keys (d : Dev) (k : Issue) (r : SReg) (f : Nat → Word) : (d.setScalars k r f).keys = d.keys := rfl
@[simp] theorem setScalars_fns (d : Dev) (k : Issue) (r : SReg) (f : Nat → Word) : (d.setScalars k r f).fns = d.fns := rfl
@[simp] theorem setScalars_queues (d : Dev) (k : Issue) (r : SReg) (f : Nat → Word) : (d.setScalars k r f).queues = d.queues := rfl
@[simp] theorem setScalars_colls (d : Dev) (k : Issue) (r : SReg) (f : Nat → Word) : (d.setScalars k r f).colls = d.colls := rfl
@[simp] theorem setScalars_triggers (d : Dev) (k : Issue) (r : SReg) (f : Nat → Word) : (d.setScalars k r f).triggers = d.triggers := rfl
@[simp] theorem setScalars_ports (d : Dev) (k : Issue) (r : SReg) (f : Nat → Word) : (d.setScalars k r f).ports = d.ports := rfl
@[simp] theorem setScalars_tagHomes (d : Dev) (k : Issue) (r : SReg) (f : Nat → Word) : (d.setScalars k r f).tagHomes = d.tagHomes := rfl
@[simp] theorem setScalars_egress (d : Dev) (k : Issue) (r : SReg) (f : Nat → Word) : (d.setScalars k r f).egress = d.egress := rfl
@[simp] theorem setScalars_remotes (d : Dev) (k : Issue) (r : SReg) (f : Nat → Word) : (d.setScalars k r f).remotes = d.remotes := rfl
@[simp] theorem setScalars_watches (d : Dev) (k : Issue) (r : SReg) (f : Nat → Word) : (d.setScalars k r f).watches = d.watches := rfl
@[simp] theorem setScalars_held (d : Dev) (k : Issue) (r : SReg) (f : Nat → Word) : (d.setScalars k r f).held = d.held := rfl
@[simp] theorem setScalars_owed (d : Dev) (k : Issue) (r : SReg) (f : Nat → Word) : (d.setScalars k r f).owed = d.owed := rfl
@[simp] theorem setScalars_inbox (d : Dev) (k : Issue) (r : SReg) (f : Nat → Word) : (d.setScalars k r f).inbox = d.inbox := rfl
@[simp] theorem setScalars_suspRegs (d : Dev) (k : Issue) (r : SReg) (f : Nat → Word) : (d.setScalars k r f).suspRegs = d.suspRegs := rfl
@[simp] theorem setScalars_out (d : Dev) (k : Issue) (r : SReg) (f : Nat → Word) : (d.setScalars k r f).out = d.out := rfl

/-! ### stall -/

@[simp] theorem stall_latch (d : Dev) (k : Issue) (x : WaitFor) : (d.stall k x).latch = d.latch := rfl
@[simp] theorem stall_clock (d : Dev) (k : Issue) (x : WaitFor) : (d.stall k x).clock = d.clock := rfl
@[simp] theorem stall_free (d : Dev) (k : Issue) (x : WaitFor) : (d.stall k x).free = d.free := rfl
@[simp] theorem stall_nextId (d : Dev) (k : Issue) (x : WaitFor) : (d.stall k x).nextId = d.nextId := rfl
@[simp] theorem stall_keyBase (d : Dev) (k : Issue) (x : WaitFor) : (d.stall k x).keyBase = d.keyBase := rfl
@[simp] theorem stall_rot (d : Dev) (k : Issue) (x : WaitFor) : (d.stall k x).rot = d.rot := rfl
@[simp] theorem stall_mem (d : Dev) (k : Issue) (x : WaitFor) : (d.stall k x).mem = d.mem := rfl
@[simp] theorem stall_sectors (d : Dev) (k : Issue) (x : WaitFor) : (d.stall k x).sectors = d.sectors := rfl
@[simp] theorem stall_llc (d : Dev) (k : Issue) (x : WaitFor) : (d.stall k x).llc = d.llc := rfl
@[simp] theorem stall_llcWays (d : Dev) (k : Issue) (x : WaitFor) : (d.stall k x).llcWays = d.llcWays := rfl
@[simp] theorem stall_mt (d : Dev) (k : Issue) (x : WaitFor) : (d.stall k x).mt = d.mt := rfl
@[simp] theorem stall_l1 (d : Dev) (k : Issue) (x : WaitFor) : (d.stall k x).l1 = d.l1 := rfl
@[simp] theorem stall_icache (d : Dev) (k : Issue) (x : WaitFor) : (d.stall k x).icache = d.icache := rfl
@[simp] theorem stall_tlb (d : Dev) (k : Issue) (x : WaitFor) : (d.stall k x).tlb = d.tlb := rfl
@[simp] theorem stall_ats (d : Dev) (k : Issue) (x : WaitFor) : (d.stall k x).ats = d.ats := rfl
@[simp] theorem stall_atsAsked (d : Dev) (k : Issue) (x : WaitFor) : (d.stall k x).atsAsked = d.atsAsked := rfl
@[simp] theorem stall_xfers (d : Dev) (k : Issue) (x : WaitFor) : (d.stall k x).xfers = d.xfers := rfl
@[simp] theorem stall_locmem (d : Dev) (k : Issue) (x : WaitFor) : (d.stall k x).locmem = d.locmem := rfl
@[simp] theorem stall_loclines (d : Dev) (k : Issue) (x : WaitFor) : (d.stall k x).loclines = d.loclines := rfl
@[simp] theorem stall_poison (d : Dev) (k : Issue) (x : WaitFor) : (d.stall k x).poison = d.poison := rfl
@[simp] theorem stall_badRegs (d : Dev) (k : Issue) (x : WaitFor) : (d.stall k x).badRegs = d.badRegs := rfl
@[simp] theorem stall_cores (d : Dev) (k : Issue) (x : WaitFor) : (d.stall k x).cores = d.cores := rfl
@[simp] theorem stall_engines (d : Dev) (k : Issue) (x : WaitFor) : (d.stall k x).engines = d.engines := rfl
@[simp] theorem stall_ticket (d : Dev) (k : Issue) (x : WaitFor) : (d.stall k x).ticket = d.ticket := rfl
@[simp] theorem stall_surge (d : Dev) (k : Issue) (x : WaitFor) : (d.stall k x).surge = d.surge := rfl
@[simp] theorem stall_surgeWait (d : Dev) (k : Issue) (x : WaitFor) : (d.stall k x).surgeWait = d.surgeWait := rfl
@[simp] theorem stall_allow (d : Dev) (k : Issue) (x : WaitFor) : (d.stall k x).allow = d.allow := rfl
@[simp] theorem stall_blocks (d : Dev) (k : Issue) (x : WaitFor) : (d.stall k x).blocks = d.blocks := rfl
@[simp] theorem stall_teams (d : Dev) (k : Issue) (x : WaitFor) : (d.stall k x).teams = d.teams := rfl
@[simp] theorem stall_launches (d : Dev) (k : Issue) (x : WaitFor) : (d.stall k x).launches = d.launches := rfl
@[simp] theorem stall_levels (d : Dev) (k : Issue) (x : WaitFor) : (d.stall k x).levels = d.levels := rfl
@[simp] theorem stall_pending (d : Dev) (k : Issue) (x : WaitFor) : (d.stall k x).pending = d.pending := rfl
@[simp] theorem stall_memops (d : Dev) (k : Issue) (x : WaitFor) : (d.stall k x).memops = d.memops := rfl
@[simp] theorem stall_reports (d : Dev) (k : Issue) (x : WaitFor) : (d.stall k x).reports = d.reports := rfl
@[simp] theorem stall_jobs (d : Dev) (k : Issue) (x : WaitFor) : (d.stall k x).jobs = d.jobs := rfl
@[simp] theorem stall_servers (d : Dev) (k : Issue) (x : WaitFor) : (d.stall k x).servers = d.servers := rfl
@[simp] theorem stall_picks (d : Dev) (k : Issue) (x : WaitFor) : (d.stall k x).picks = d.picks := rfl
@[simp] theorem stall_turns (d : Dev) (k : Issue) (x : WaitFor) : (d.stall k x).turns = d.turns := rfl
@[simp] theorem stall_ctxs (d : Dev) (k : Issue) (x : WaitFor) : (d.stall k x).ctxs = d.ctxs := rfl
@[simp] theorem stall_keys (d : Dev) (k : Issue) (x : WaitFor) : (d.stall k x).keys = d.keys := rfl
@[simp] theorem stall_fns (d : Dev) (k : Issue) (x : WaitFor) : (d.stall k x).fns = d.fns := rfl
@[simp] theorem stall_queues (d : Dev) (k : Issue) (x : WaitFor) : (d.stall k x).queues = d.queues := rfl
@[simp] theorem stall_colls (d : Dev) (k : Issue) (x : WaitFor) : (d.stall k x).colls = d.colls := rfl
@[simp] theorem stall_triggers (d : Dev) (k : Issue) (x : WaitFor) : (d.stall k x).triggers = d.triggers := rfl
@[simp] theorem stall_ports (d : Dev) (k : Issue) (x : WaitFor) : (d.stall k x).ports = d.ports := rfl
@[simp] theorem stall_tagHomes (d : Dev) (k : Issue) (x : WaitFor) : (d.stall k x).tagHomes = d.tagHomes := rfl
@[simp] theorem stall_egress (d : Dev) (k : Issue) (x : WaitFor) : (d.stall k x).egress = d.egress := rfl
@[simp] theorem stall_remotes (d : Dev) (k : Issue) (x : WaitFor) : (d.stall k x).remotes = d.remotes := rfl
@[simp] theorem stall_watches (d : Dev) (k : Issue) (x : WaitFor) : (d.stall k x).watches = d.watches := rfl
@[simp] theorem stall_held (d : Dev) (k : Issue) (x : WaitFor) : (d.stall k x).held = d.held := rfl
@[simp] theorem stall_owed (d : Dev) (k : Issue) (x : WaitFor) : (d.stall k x).owed = d.owed := rfl
@[simp] theorem stall_inbox (d : Dev) (k : Issue) (x : WaitFor) : (d.stall k x).inbox = d.inbox := rfl
@[simp] theorem stall_suspRegs (d : Dev) (k : Issue) (x : WaitFor) : (d.stall k x).suspRegs = d.suspRegs := rfl
@[simp] theorem stall_out (d : Dev) (k : Issue) (x : WaitFor) : (d.stall k x).out = d.out := rfl

/-! ### Waves and strands -/

@[simp] theorem modStrands_id (w : Wave) (g : StrandMask) (f : Nat → Strand → Strand) : (w.modStrands g f).id = w.id := rfl
@[simp] theorem modStrands_block (w : Wave) (g : StrandMask) (f : Nat → Strand → Strand) : (w.modStrands g f).block = w.block := rfl
@[simp] theorem modStrands_idx (w : Wave) (g : StrandMask) (f : Nat → Strand → Strand) : (w.modStrands g f).idx = w.idx := rfl
@[simp] theorem modStrands_port (w : Wave) (g : StrandMask) (f : Nat → Strand → Strand) : (w.modStrands g f).port = w.port := rfl
@[simp] theorem modStrands_v (w : Wave) (g : StrandMask) (f : Nat → Strand → Strand) : (w.modStrands g f).v = w.v := rfl
@[simp] theorem modStrands_m (w : Wave) (g : StrandMask) (f : Nat → Strand → Strand) : (w.modStrands g f).m = w.m := rfl
@[simp] theorem modStrands_cause (w : Wave) (g : StrandMask) (f : Nat → Strand → Strand) : (w.modStrands g f).cause = w.cause := rfl
@[simp] theorem modStrands_tvec (w : Wave) (g : StrandMask) (f : Nat → Strand → Strand) : (w.modStrands g f).tvec = w.tvec := rfl
@[simp] theorem modStrands_gsave (w : Wave) (g : StrandMask) (f : Nat → Strand → Strand) : (w.modStrands g f).gsave = w.gsave := rfl
@[simp] theorem modStrands_lts (w : Wave) (g : StrandMask) (f : Nat → Strand → Strand) : (w.modStrands g f).lts = w.lts := rfl
@[simp] theorem modStrands_fault (w : Wave) (g : StrandMask) (f : Nat → Strand → Strand) : (w.modStrands g f).fault = w.fault := rfl
@[simp] theorem modStrands_inHandler (w : Wave) (g : StrandMask) (f : Nat → Strand → Strand) : (w.modStrands g f).inHandler = w.inHandler := rfl
@[simp] theorem modStrands_entry (w : Wave) (g : StrandMask) (f : Nat → Strand → Strand) : (w.modStrands g f).entry = w.entry := rfl
@[simp] theorem modStrands_halted (w : Wave) (g : StrandMask) (f : Nat → Strand → Strand) : (w.modStrands g f).halted = w.halted := rfl
@[simp] theorem modStrands_strands (w : Wave) (g : StrandMask) (f : Nat → Strand → Strand) : (w.modStrands g f).strands = w.strands.mapIdx fun t s => if inGang g t then f t s else s := rfl
@[simp] theorem modStrands_last (w : Wave) (g : StrandMask) (f : Nat → Strand → Strand) : (w.modStrands g f).last = w.last := rfl
@[simp] theorem modStrands_spill (w : Wave) (g : StrandMask) (f : Nat → Strand → Strand) : (w.modStrands g f).spill = w.spill := rfl
@[simp] theorem modStrands_trec (w : Wave) (g : StrandMask) (f : Nat → Strand → Strand) : (w.modStrands g f).trec = w.trec := rfl
@[simp] theorem modStrands_tokens (w : Wave) (g : StrandMask) (f : Nat → Strand → Strand) : (w.modStrands g f).tokens = w.tokens := rfl
@[simp] theorem modStrands_arrivals (w : Wave) (g : StrandMask) (f : Nat → Strand → Strand) : (w.modStrands g f).arrivals = w.arrivals := rfl
@[simp] theorem modStrands_susp (w : Wave) (g : StrandMask) (f : Nat → Strand → Strand) : (w.modStrands g f).susp = w.susp := rfl
@[simp] theorem modStrands_doneCp (w : Wave) (g : StrandMask) (f : Nat → Strand → Strand) : (w.modStrands g f).doneCp = w.doneCp := rfl
@[simp] theorem modStrands_doneTl (w : Wave) (g : StrandMask) (f : Nat → Strand → Strand) : (w.modStrands g f).doneTl = w.doneTl := rfl
@[simp] theorem modStrands_doneFx (w : Wave) (g : StrandMask) (f : Nat → Strand → Strand) : (w.modStrands g f).doneFx = w.doneFx := rfl
@[simp] theorem modStrands_order (w : Wave) (g : StrandMask) (f : Nat → Strand → Strand) : (w.modStrands g f).order = w.order := rfl

@[simp] theorem setMask_id (w : Wave) (g : LaneMask) (m : MReg) (x : LaneMask) : (w.setMask g m x).id = w.id := rfl
@[simp] theorem setMask_block (w : Wave) (g : LaneMask) (m : MReg) (x : LaneMask) : (w.setMask g m x).block = w.block := rfl
@[simp] theorem setMask_idx (w : Wave) (g : LaneMask) (m : MReg) (x : LaneMask) : (w.setMask g m x).idx = w.idx := rfl
@[simp] theorem setMask_port (w : Wave) (g : LaneMask) (m : MReg) (x : LaneMask) : (w.setMask g m x).port = w.port := rfl
@[simp] theorem setMask_v (w : Wave) (g : LaneMask) (m : MReg) (x : LaneMask) : (w.setMask g m x).v = w.v := rfl
@[simp] theorem setMask_m (w : Wave) (g : LaneMask) (m : MReg) (x : LaneMask) : (w.setMask g m x).m = w.m.set m.toNat ((w.mask m &&& ~~~g) ||| (x &&& g)) := rfl
@[simp] theorem setMask_cause (w : Wave) (g : LaneMask) (m : MReg) (x : LaneMask) : (w.setMask g m x).cause = w.cause := rfl
@[simp] theorem setMask_tvec (w : Wave) (g : LaneMask) (m : MReg) (x : LaneMask) : (w.setMask g m x).tvec = w.tvec := rfl
@[simp] theorem setMask_gsave (w : Wave) (g : LaneMask) (m : MReg) (x : LaneMask) : (w.setMask g m x).gsave = w.gsave := rfl
@[simp] theorem setMask_lts (w : Wave) (g : LaneMask) (m : MReg) (x : LaneMask) : (w.setMask g m x).lts = w.lts := rfl
@[simp] theorem setMask_fault (w : Wave) (g : LaneMask) (m : MReg) (x : LaneMask) : (w.setMask g m x).fault = w.fault := rfl
@[simp] theorem setMask_inHandler (w : Wave) (g : LaneMask) (m : MReg) (x : LaneMask) : (w.setMask g m x).inHandler = w.inHandler := rfl
@[simp] theorem setMask_entry (w : Wave) (g : LaneMask) (m : MReg) (x : LaneMask) : (w.setMask g m x).entry = w.entry := rfl
@[simp] theorem setMask_halted (w : Wave) (g : LaneMask) (m : MReg) (x : LaneMask) : (w.setMask g m x).halted = w.halted := rfl
@[simp] theorem setMask_strands (w : Wave) (g : LaneMask) (m : MReg) (x : LaneMask) : (w.setMask g m x).strands = w.strands := rfl
@[simp] theorem setMask_last (w : Wave) (g : LaneMask) (m : MReg) (x : LaneMask) : (w.setMask g m x).last = w.last := rfl
@[simp] theorem setMask_spill (w : Wave) (g : LaneMask) (m : MReg) (x : LaneMask) : (w.setMask g m x).spill = w.spill := rfl
@[simp] theorem setMask_trec (w : Wave) (g : LaneMask) (m : MReg) (x : LaneMask) : (w.setMask g m x).trec = w.trec := rfl
@[simp] theorem setMask_tokens (w : Wave) (g : LaneMask) (m : MReg) (x : LaneMask) : (w.setMask g m x).tokens = w.tokens := rfl
@[simp] theorem setMask_arrivals (w : Wave) (g : LaneMask) (m : MReg) (x : LaneMask) : (w.setMask g m x).arrivals = w.arrivals := rfl
@[simp] theorem setMask_susp (w : Wave) (g : LaneMask) (m : MReg) (x : LaneMask) : (w.setMask g m x).susp = w.susp := rfl
@[simp] theorem setMask_doneCp (w : Wave) (g : LaneMask) (m : MReg) (x : LaneMask) : (w.setMask g m x).doneCp = w.doneCp := rfl
@[simp] theorem setMask_doneTl (w : Wave) (g : LaneMask) (m : MReg) (x : LaneMask) : (w.setMask g m x).doneTl = w.doneTl := rfl
@[simp] theorem setMask_doneFx (w : Wave) (g : LaneMask) (m : MReg) (x : LaneMask) : (w.setMask g m x).doneFx = w.doneFx := rfl
@[simp] theorem setMask_order (w : Wave) (g : LaneMask) (m : MReg) (x : LaneMask) : (w.setMask g m x).order = w.order := rfl

@[simp] theorem setLanes_id (w : Wave) (a : LaneMask) (v : Nat) (f : Nat → Lane) : (w.setLanes a v f).id = w.id := rfl
@[simp] theorem setLanes_block (w : Wave) (a : LaneMask) (v : Nat) (f : Nat → Lane) : (w.setLanes a v f).block = w.block := rfl
@[simp] theorem setLanes_idx (w : Wave) (a : LaneMask) (v : Nat) (f : Nat → Lane) : (w.setLanes a v f).idx = w.idx := rfl
@[simp] theorem setLanes_port (w : Wave) (a : LaneMask) (v : Nat) (f : Nat → Lane) : (w.setLanes a v f).port = w.port := rfl
@[simp] theorem setLanes_v (w : Wave) (a : LaneMask) (v : Nat) (f : Nat → Lane) : (w.setLanes a v f).v = w.v.modify v fun r => r.mapIdx fun l x => if a.getLsbD l then f l else x := rfl
@[simp] theorem setLanes_m (w : Wave) (a : LaneMask) (v : Nat) (f : Nat → Lane) : (w.setLanes a v f).m = w.m := rfl
@[simp] theorem setLanes_cause (w : Wave) (a : LaneMask) (v : Nat) (f : Nat → Lane) : (w.setLanes a v f).cause = w.cause := rfl
@[simp] theorem setLanes_tvec (w : Wave) (a : LaneMask) (v : Nat) (f : Nat → Lane) : (w.setLanes a v f).tvec = w.tvec := rfl
@[simp] theorem setLanes_gsave (w : Wave) (a : LaneMask) (v : Nat) (f : Nat → Lane) : (w.setLanes a v f).gsave = w.gsave := rfl
@[simp] theorem setLanes_lts (w : Wave) (a : LaneMask) (v : Nat) (f : Nat → Lane) : (w.setLanes a v f).lts = w.lts := rfl
@[simp] theorem setLanes_fault (w : Wave) (a : LaneMask) (v : Nat) (f : Nat → Lane) : (w.setLanes a v f).fault = w.fault := rfl
@[simp] theorem setLanes_inHandler (w : Wave) (a : LaneMask) (v : Nat) (f : Nat → Lane) : (w.setLanes a v f).inHandler = w.inHandler := rfl
@[simp] theorem setLanes_entry (w : Wave) (a : LaneMask) (v : Nat) (f : Nat → Lane) : (w.setLanes a v f).entry = w.entry := rfl
@[simp] theorem setLanes_halted (w : Wave) (a : LaneMask) (v : Nat) (f : Nat → Lane) : (w.setLanes a v f).halted = w.halted := rfl
@[simp] theorem setLanes_strands (w : Wave) (a : LaneMask) (v : Nat) (f : Nat → Lane) : (w.setLanes a v f).strands = w.strands := rfl
@[simp] theorem setLanes_last (w : Wave) (a : LaneMask) (v : Nat) (f : Nat → Lane) : (w.setLanes a v f).last = w.last := rfl
@[simp] theorem setLanes_spill (w : Wave) (a : LaneMask) (v : Nat) (f : Nat → Lane) : (w.setLanes a v f).spill = w.spill := rfl
@[simp] theorem setLanes_trec (w : Wave) (a : LaneMask) (v : Nat) (f : Nat → Lane) : (w.setLanes a v f).trec = w.trec := rfl
@[simp] theorem setLanes_tokens (w : Wave) (a : LaneMask) (v : Nat) (f : Nat → Lane) : (w.setLanes a v f).tokens = w.tokens := rfl
@[simp] theorem setLanes_arrivals (w : Wave) (a : LaneMask) (v : Nat) (f : Nat → Lane) : (w.setLanes a v f).arrivals = w.arrivals := rfl
@[simp] theorem setLanes_susp (w : Wave) (a : LaneMask) (v : Nat) (f : Nat → Lane) : (w.setLanes a v f).susp = w.susp := rfl
@[simp] theorem setLanes_doneCp (w : Wave) (a : LaneMask) (v : Nat) (f : Nat → Lane) : (w.setLanes a v f).doneCp = w.doneCp := rfl
@[simp] theorem setLanes_doneTl (w : Wave) (a : LaneMask) (v : Nat) (f : Nat → Lane) : (w.setLanes a v f).doneTl = w.doneTl := rfl
@[simp] theorem setLanes_doneFx (w : Wave) (a : LaneMask) (v : Nat) (f : Nat → Lane) : (w.setLanes a v f).doneFx = w.doneFx := rfl
@[simp] theorem setLanes_order (w : Wave) (a : LaneMask) (v : Nat) (f : Nat → Lane) : (w.setLanes a v f).order = w.order := rfl

@[simp] theorem adopt_id (w : Wave) (t : Nat) : (w.adopt t).id = w.id := rfl
@[simp] theorem adopt_block (w : Wave) (t : Nat) : (w.adopt t).block = w.block := rfl
@[simp] theorem adopt_idx (w : Wave) (t : Nat) : (w.adopt t).idx = w.idx := rfl
@[simp] theorem adopt_port (w : Wave) (t : Nat) : (w.adopt t).port = w.port := rfl
@[simp] theorem adopt_v (w : Wave) (t : Nat) : (w.adopt t).v = w.v := rfl
@[simp] theorem adopt_m (w : Wave) (t : Nat) : (w.adopt t).m = w.m := rfl
@[simp] theorem adopt_cause (w : Wave) (t : Nat) : (w.adopt t).cause = w.cause := rfl
@[simp] theorem adopt_tvec (w : Wave) (t : Nat) : (w.adopt t).tvec = w.tvec := rfl
@[simp] theorem adopt_gsave (w : Wave) (t : Nat) : (w.adopt t).gsave = w.gsave := rfl
@[simp] theorem adopt_lts (w : Wave) (t : Nat) : (w.adopt t).lts = max w.lts t := rfl
@[simp] theorem adopt_fault (w : Wave) (t : Nat) : (w.adopt t).fault = w.fault := rfl
@[simp] theorem adopt_inHandler (w : Wave) (t : Nat) : (w.adopt t).inHandler = w.inHandler := rfl
@[simp] theorem adopt_entry (w : Wave) (t : Nat) : (w.adopt t).entry = w.entry := rfl
@[simp] theorem adopt_halted (w : Wave) (t : Nat) : (w.adopt t).halted = w.halted := rfl
@[simp] theorem adopt_strands (w : Wave) (t : Nat) : (w.adopt t).strands = w.strands := rfl
@[simp] theorem adopt_last (w : Wave) (t : Nat) : (w.adopt t).last = w.last := rfl
@[simp] theorem adopt_spill (w : Wave) (t : Nat) : (w.adopt t).spill = w.spill := rfl
@[simp] theorem adopt_trec (w : Wave) (t : Nat) : (w.adopt t).trec = w.trec := rfl
@[simp] theorem adopt_tokens (w : Wave) (t : Nat) : (w.adopt t).tokens = w.tokens := rfl
@[simp] theorem adopt_arrivals (w : Wave) (t : Nat) : (w.adopt t).arrivals = w.arrivals := rfl
@[simp] theorem adopt_susp (w : Wave) (t : Nat) : (w.adopt t).susp = w.susp := rfl
@[simp] theorem adopt_doneCp (w : Wave) (t : Nat) : (w.adopt t).doneCp = w.doneCp := rfl
@[simp] theorem adopt_doneTl (w : Wave) (t : Nat) : (w.adopt t).doneTl = w.doneTl := rfl
@[simp] theorem adopt_doneFx (w : Wave) (t : Nat) : (w.adopt t).doneFx = w.doneFx := rfl
@[simp] theorem adopt_order (w : Wave) (t : Nat) : (w.adopt t).order = w.order := rfl

@[simp] theorem setCause_id (w : Wave) (c : Nat) : (w.setCause c).id = w.id := rfl
@[simp] theorem setCause_block (w : Wave) (c : Nat) : (w.setCause c).block = w.block := rfl
@[simp] theorem setCause_idx (w : Wave) (c : Nat) : (w.setCause c).idx = w.idx := rfl
@[simp] theorem setCause_port (w : Wave) (c : Nat) : (w.setCause c).port = w.port := rfl
@[simp] theorem setCause_v (w : Wave) (c : Nat) : (w.setCause c).v = w.v := rfl
@[simp] theorem setCause_m (w : Wave) (c : Nat) : (w.setCause c).m = w.m := rfl
@[simp] theorem setCause_cause (w : Wave) (c : Nat) : (w.setCause c).cause = w.cause ||| (1#64 <<< c) := rfl
@[simp] theorem setCause_tvec (w : Wave) (c : Nat) : (w.setCause c).tvec = w.tvec := rfl
@[simp] theorem setCause_gsave (w : Wave) (c : Nat) : (w.setCause c).gsave = w.gsave := rfl
@[simp] theorem setCause_lts (w : Wave) (c : Nat) : (w.setCause c).lts = w.lts := rfl
@[simp] theorem setCause_fault (w : Wave) (c : Nat) : (w.setCause c).fault = w.fault := rfl
@[simp] theorem setCause_inHandler (w : Wave) (c : Nat) : (w.setCause c).inHandler = w.inHandler := rfl
@[simp] theorem setCause_entry (w : Wave) (c : Nat) : (w.setCause c).entry = w.entry := rfl
@[simp] theorem setCause_halted (w : Wave) (c : Nat) : (w.setCause c).halted = w.halted := rfl
@[simp] theorem setCause_strands (w : Wave) (c : Nat) : (w.setCause c).strands = w.strands := rfl
@[simp] theorem setCause_last (w : Wave) (c : Nat) : (w.setCause c).last = w.last := rfl
@[simp] theorem setCause_spill (w : Wave) (c : Nat) : (w.setCause c).spill = w.spill := rfl
@[simp] theorem setCause_trec (w : Wave) (c : Nat) : (w.setCause c).trec = w.trec := rfl
@[simp] theorem setCause_tokens (w : Wave) (c : Nat) : (w.setCause c).tokens = w.tokens := rfl
@[simp] theorem setCause_arrivals (w : Wave) (c : Nat) : (w.setCause c).arrivals = w.arrivals := rfl
@[simp] theorem setCause_susp (w : Wave) (c : Nat) : (w.setCause c).susp = w.susp := rfl
@[simp] theorem setCause_doneCp (w : Wave) (c : Nat) : (w.setCause c).doneCp = w.doneCp := rfl
@[simp] theorem setCause_doneTl (w : Wave) (c : Nat) : (w.setCause c).doneTl = w.doneTl := rfl
@[simp] theorem setCause_doneFx (w : Wave) (c : Nat) : (w.setCause c).doneFx = w.doneFx := rfl
@[simp] theorem setCause_order (w : Wave) (c : Nat) : (w.setCause c).order = w.order := rfl

end Sys2Proof.Machine
end

