-- ==== Sys2Proof/Laws/Ops.lean ====
section
/-!
SUPPORT. What the shared operations of the meanings can do.
-/

namespace Sys2Proof.Machine

/-! ## Numbered records -/

theorem modIf_modIf {α : Type} (p : α → Bool) (f g : α → α) (hf : ∀ x, p (f x) = p x) (l : List α) :
    modIf p g (modIf p f l) = modIf p (fun x => g (f x)) l := by
  simp only [modIf, List.map_map]
  refine List.map_congr_left fun x _ => ?_
  by_cases hx : p x <;> simp [hx, hf]

theorem mem_modIf {α : Type} (p : α → Bool) (f : α → α) (l : List α) (y : α) :
    y ∈ modIf p f l ↔ ∃ x ∈ l, y = if p x then f x else x := by
  simp only [modIf, List.mem_map, eq_comm]

/-- A look-up after an update that keeps the numbers. -/
theorem find_modIf {α : Type} (p q : α → Bool) (f : α → α) (hq : ∀ x, q (f x) = q x) (l : List α) :
    (modIf p f l).find? q = (l.find? q).map fun x => if p x then f x else x := by
  induction l with
  | nil => rfl
  | cons x t ih =>
    simp only [modIf, List.map_cons, List.find?_cons] at ih ⊢
    by_cases hp : p x
    · simp only [hp, if_true, hq]
      split
      · simp [hp]
      · exact ih
    · simp only [hp, if_false, Bool.false_eq_true]
      split
      · simp [hp]
      · exact ih

theorem wave?_modWave (d : Dev) (id w : Nat) (f : Wave → Wave) (hf : ∀ x, (f x).id = x.id) :
    (d.modWave id f).wave? w = (d.wave? w).map fun x => if x.id == id then f x else x :=
  find_modIf _ _ f (fun x => by simp [hf]) d.waves

/-! ## An instruction of the selected gang -/

theorem issue_next (s : State) (k : Issue) (f : Issue → Dev → Dev) (h : s.dev.issuer? = some k) :
    issue s f = .next { s with dev := f k { s.dev with latch := none } } := by
  simp [issue, h]

theorem issue_none (s : State) (f : Issue → Dev → Dev) (h : s.dev.issuer? = none) : issue s f = .fault .noIssuer := by
  simp [issue, h]

/-- A next state of `issue` comes from an issuer, and only the device changes. -/
theorem issue_cases (s t : State) (f : Issue → Dev → Dev) (h : issue s f = .next t) :
    ∃ k, s.dev.issuer? = some k ∧ t = { s with dev := f k { s.dev with latch := none } } := by
  cases hk : s.dev.issuer? with
  | none => simp [issue, hk] at h
  | some k =>
    rw [issue_next s k f hk] at h
    exact ⟨k, rfl, by cases h; rfl⟩

theorem issue_mgmt (s t : State) (f : Issue → Dev → Dev) (h : issue s f = .next t) :
    t.mgmt = s.mgmt ∧ t.schedule = s.schedule := by
  obtain ⟨k, _, rfl⟩ := issue_cases s t f h
  exact ⟨rfl, rfl⟩

theorem guarded_next (s : State) (k : Issue) (c : Issue → Dev → Option Nat) (f : Issue → Dev → Dev)
    (h : s.dev.issuer? = some k) (hc : c k { s.dev with latch := none } = none) :
    guarded s c f = .next { s with dev := f k { s.dev with latch := none } } := by
  simp [guarded, issue_next _ k _ h, hc]

theorem guarded_trap (s : State) (k : Issue) (c : Issue → Dev → Option Nat) (f : Issue → Dev → Dev) (e : Nat)
    (h : s.dev.issuer? = some k) (hc : c k { s.dev with latch := none } = some e) :
    guarded s c f = .next { s with dev := Dev.trap { s.dev with latch := none } k e } := by
  simp [guarded, issue_next _ k _ h, hc]

theorem andNext_next (s : State) (k : Issue) (n : Nat) (f : Issue → Dev → Dev) (h : s.dev.issuer? = some k) :
    andNext s n f = .next { s with dev := (f k { s.dev with latch := none }).advance k n } := by
  simp [andNext, issue_next _ k _ h]

theorem laneInstr_next (s : State) (k : Issue) (len : Nat) (regs : List Nat) (g : Guard) (f : LaneView → Wave → Wave)
    (h : s.dev.issuer? = some k) (hw : k.inWindow regs = true) :
    laneInstr s len regs g f = .next { s with dev :=
      (Dev.onWave { s.dev with latch := none, free := if s.dev.unsettled k regs then s.dev.free + 1 else s.dev.free } k
        (f ⟨k, k.active g, s.dev.source k⟩)).advance k len } := by
  rw [laneInstr, issue_next _ k _ h]
  simp only [hw, Bool.not_true, Bool.false_eq_true, if_false]
  by_cases hu : s.dev.unsettled k regs = true
  · have hu' : Dev.unsettled { s.dev with latch := none } k regs = true := hu
    rw [if_pos hu', if_pos hu]
    rfl
  · have hu' : ¬ Dev.unsettled { s.dev with latch := none } k regs = true := hu
    rw [if_neg hu', if_neg hu]
    rfl

theorem laneInstr_trap (s : State) (k : Issue) (len : Nat) (regs : List Nat) (g : Guard) (f : LaneView → Wave → Wave)
    (h : s.dev.issuer? = some k) (hw : k.inWindow regs = false) :
    laneInstr s len regs g f = .next { s with dev := Dev.trap { s.dev with latch := none } k cRegrange } := by
  simp [laneInstr, issue_next _ k _ h, hw]

/-! ## Steps of the device and of the outside -/

theorem onDev_cases (s t : State) (f : Dev → Dev) (h : onDev s f = .next t) : t = { s with dev := f s.dev } := by
  cases h
  rfl

theorem onMgmt_cases (s t : State) (f : Mgmt → Mgmt) (h : onMgmt s f = .next t) : t = { s with mgmt := f s.mgmt } := by
  cases h
  rfl

/-! ## Waves -/

theorem onGang_onGang (d : Dev) (k : Issue) (f g : Nat → Strand → Strand) :
    (d.onGang k f).onGang k g = d.onGang k fun t s => g t (f t s) := by
  have hw : ∀ w : Wave, (w.modStrands k.gang f).modStrands k.gang g = w.modStrands k.gang fun t s => g t (f t s) := by
    intro w
    simp only [Wave.modStrands, List.mapIdx_mapIdx]
    congr 1
    refine congrArg (fun h => List.mapIdx h w.strands) ?_
    funext t s
    simp only [Function.comp]
    split <;> rfl
  simp only [Dev.onGang, Dev.onWave, Dev.modWave]
  rw [modIf_modIf (fun x : Wave => x.id == k.wave.id) (fun w => w.modStrands k.gang f) (fun w => w.modStrands k.gang g)
    (fun _ => rfl)]
  simp only [hw]

theorem setScalars_advance (d : Dev) (k : Issue) (r : SReg) (f : Nat → Word) (len : Nat) :
    (d.setScalars k r f).advance k len =
      d.onGang k fun t s => { s.wr r (f t) with pc := (s.wr r (f t)).pc + BitVec.ofNat 64 len, waiting := none } :=
  onGang_onGang d k _ _

end Sys2Proof.Machine
end

