-- ==== Sys2Proof/Laws/Waves.lean ====
section
/-!
SUPPORT. The shared operations of the meanings, said in the words of the claims.
-/

namespace Sys2Proof.Machine

/-- Changes of a gang's strands and of its wave, as one change of the wave. -/
theorem onGang_eq (s : State) (k : Issue) (f : Nat → Strand → Strand) :
    ({ s with dev := Dev.onGang { s.dev with latch := none } k f } : State) = gangStep s k f := by
  have h : (Dev.onGang { s.dev with latch := none } k f).waves = (gangStep s k f).dev.waves := by
    simp only [Dev.onGang, Dev.onWave, Dev.modWave, modIf, gangStep, waveStep, Wave.modStrands, beq_iff_eq]
  have e : Dev.onGang { s.dev with latch := none } k f =
      { s.dev with latch := none, waves := (Dev.onGang { s.dev with latch := none } k f).waves } := rfl
  rw [e, h]
  rfl

theorem onWave_eq (s : State) (k : Issue) (f : Wave → Wave) :
    ({ s with dev := Dev.onWave { s.dev with latch := none } k f } : State) = waveStep s k f := by
  have h : (Dev.onWave { s.dev with latch := none } k f).waves = (waveStep s k f).dev.waves := by
    simp only [Dev.onWave, Dev.modWave, modIf, waveStep, beq_iff_eq]
  have e : Dev.onWave { s.dev with latch := none } k f =
      { s.dev with latch := none, waves := (Dev.onWave { s.dev with latch := none } k f).waves } := rfl
  rw [e, h]
  rfl

/-- A wave's change, and its gang passes the instruction. -/
theorem onWave_advance_eq (s : State) (k : Issue) (f : Wave → Wave) (hf : ∀ w, (f w).id = w.id) (len : Nat) :
    ({ s with dev := (Dev.onWave { s.dev with latch := none } k f).advance k len } : State) =
      waveStep s k fun w => { f w with
        strands := (f w).strands.mapIdx fun t x => if inGang k.gang t then passed len x else x } := by
  have h : ((Dev.onWave { s.dev with latch := none } k f).advance k len).waves = (waveStep s k fun w => { f w with
        strands := (f w).strands.mapIdx fun t x => if inGang k.gang t then passed len x else x }).dev.waves := by
    simp only [Dev.advance, Dev.onGang, Dev.onWave, Dev.modWave]
    rw [modIf_modIf (fun x : Wave => x.id == k.wave.id) f _ (fun x => by rw [hf])]
    simp only [modIf, waveStep, Wave.modStrands, beq_iff_eq, passed]
  have e : (Dev.onWave { s.dev with latch := none } k f).advance k len =
      { s.dev with latch := none, waves := ((Dev.onWave { s.dev with latch := none } k f).advance k len).waves } := rfl
  rw [e, h]
  rfl

theorem scalarOp_eq (s : State) (k : Issue) (d : SReg) (f : Strand → Word) (h : s.dev.issuer? = some k) :
    scalarOp s d f = .next (wroteScalar s k 4 d fun t => f (k.strand t)) := by
  rw [scalarOp, issue_next _ k _ h, setScalars_advance]
  refine congrArg Host.Outcome.next ((onGang_eq s k _).trans ?_)
  refine congrArg (gangStep s k) ?_
  funext t x
  by_cases hd : d = 0
  · simp only [Strand.wr, hd, if_true, passed]
  · simp only [Strand.wr, hd, if_false, passed]

end Sys2Proof.Machine
end

