-- ==== Sys2Proof/Tests/Slice0.lean ====
section
/-!
SUPPORT. Tests of the model by the spec's own worked values, and for every statement with hypotheses a state and operands
that meet them together. What a test expects comes from the table or rule that its comment names.
-/

open Sys2Proof Sys2Proof.Machine Sys2Proof.Claims

namespace Sys2Proof.Tests

set_option Elab.async false
set_option maxRecDepth 20000

/-! ## Ill-formed terms, one for each check (R77, R81, R82) -/

theorem wf_refuses_special_register : (Instr.sget 2 18).wf = false ∧ (Instr.sset 2 18).wf = false := by decide
theorem wf_refuses_granules :
    (Instr.regrel 0).wf = false ∧ (Instr.regrel 32).wf = false ∧ (Instr.regclm 0).wf = false := by decide
theorem wf_refuses_empty_regang : (Instr.regang 0).wf = false := by decide
theorem wf_refuses_fields : (Instr.bfeN ⟨false, 0⟩ 3 4 32 1).wf = false ∧ (Instr.bfeI ⟨false, 0⟩ 3 4 0 0).wf = false ∧
    (Instr.bfi ⟨false, 0⟩ 3 4 0 33).wf = false := by decide
theorem wf_refuses_odd_pairs : (Instr.add64 ⟨false, 0⟩ 7 8 10).wf = false ∧ (Instr.mad64N ⟨false, 0⟩ 6 1 2 5).wf = false ∧
    (Instr.lea64 ⟨false, 0⟩ 6 7 2 0).wf = false ∧ (Instr.lea64 ⟨false, 0⟩ 6 8 2 64).wf = false := by decide
theorem wf_refuses_lane_numbers : (Instr.shflXor ⟨false, 0⟩ 2 3 32).wf = false ∧ (Instr.shflUp ⟨false, 0⟩ 2 3 32).wf = false ∧
    (Instr.shflDn ⟨false, 0⟩ 2 3 32).wf = false ∧ (Instr.bcast ⟨false, 0⟩ 2 3 32).wf = false := by decide
theorem wf_refuses_block_scale : (Instr.bscale ⟨false, 0⟩ 2 3 1).wf = false ∧ (Instr.bscale ⟨false, 0⟩ 2 3 5).wf = false := by
  decide
theorem wf_refuses_widths : (Instr.ld .w64 ⟨false, 0⟩ 9 ⟨0, 4, 7, 0⟩).wf = false ∧
    (Instr.st .b128 ⟨false, 0⟩ 6 ⟨0, 4, 7, 0⟩).wf = false ∧ (Instr.ldp .w32 ⟨false, 0⟩ 4 9 0).wf = false ∧
    (Instr.stp .b64 ⟨false, 0⟩ 5 8 0).wf = false := by decide
theorem wf_refuses_scales : (Instr.ld .w32 ⟨false, 0⟩ 9 ⟨0, 4, 5, 0⟩).wf = false ∧
    (Instr.st .b32 ⟨false, 0⟩ 9 ⟨0, 4, 6, 0⟩).wf = false ∧ (Instr.pf ⟨false, 0⟩ ⟨7, 4, 7, 0⟩).wf = false ∧
    (Instr.wld ⟨false, 0⟩ 9 ⟨7, 4, 7, 0⟩).wf = false := by decide
theorem wf_refuses_atomic_pairs : (Instr.atom .cas ⟨false, 0⟩ 3 ⟨0, 4, 7, 0⟩).wf = false ∧
    (Instr.atl .addI64 ⟨false, 0⟩ 3 ⟨0, 4, 7, 0⟩).wf = false ∧ (Instr.redAtomic .addI64 ⟨false, 0⟩ 3 ⟨0, 4, 7, 0⟩).wf = false := by
  decide
theorem wf_refuses_scalar_runs : (Instr.tcpyG2l ⟨8, 9, 62, none, 0⟩).wf = false ∧ (Instr.cfpop 0).wf = false ∧
    (Instr.cfpop 61).wf = false ∧ (Instr.tstat 0).wf = false ∧ (Instr.tstat 63).wf = false := by decide
theorem wf_refuses_select_flags : (Instr.xsort 1 2 3 ⟨true, false, true, .n32⟩).wf = false ∧
    (Instr.xtopk 1 2 3 4 ⟨true, false, true, .n32⟩).wf = false ∧ (Instr.xscan 1 2 3 ⟨false, true, false, .n32⟩).wf = false ∧
    (Instr.xscan 1 2 3 ⟨true, false, false, .n32⟩).wf = false := by decide

/-! ## Words written out in the spec, one family after another -/

theorem decode_scalar : decode [0x01, 0x0C, 0x41, 0x40] = .ok (.add 3 4 5, 4) := rfl
theorem decode_control : decode [0x3D, 0x20, 0x00, 0x0C] = .ok (.bmall 2 12, 4) := rfl
theorem decode_wait : decode [0x43, 0x03, 0xF0, 0x7F] = .ok (.wait 0 0x3F 0 0xF 7, 4) := rfl
theorem decode_mask : decode [0x5F, 0x1C, 0x30, 0x00] = .ok (.mpop 7 3, 4) := rfl
theorem decode_scalar_memory : decode [0x6F, 0x18, 0x40, 0x08] = .ok (.sst64 6 4 8, 4) := rfl
theorem decode_barrier : decode [0x7A, 0x00, 0x00, 0x04] = .ok (.bbwaitNum 4, 4) := rfl
theorem decode_class_e : decode [0xF2, 0x0F] = .ok (.regang 0x0F, 2) := rfl
theorem decode_lane_integer : decode [0x81, 0x70, 0x03, 0x04, 0x08, 0x04] = .ok (.bfeN ⟨false, 0⟩ 3 4 8 4, 6) := rfl
theorem decode_lane_float : decode [0x85, 0xAA, 0x03, 0x04, 0x05, 0x00] = .ok (.fcmp .lt ⟨true, 2⟩ 3 4 5, 6) := rfl
theorem decode_conversion : decode [0x89, 0x40, 0x08, 0x09, 0x00, 0x00] = .ok (.cvtE4m3F32 false ⟨false, 0⟩ 8 9, 6) := rfl
theorem decode_cross_lane : decode [0x8C, 0xD0, 0x04, 0x01, 0x00, 0x00] = .ok (.matchLanes ⟨false, 0⟩ 4 1, 6) := rfl
theorem decode_lane_memory :
    decode [0xC2, 0x50, 0x04, 0x08, 0x00, 0x00, 0x00, 0x08] = .ok (.ldp .w64 ⟨false, 0⟩ 4 8 8, 8) := rfl
theorem decode_atomic :
    decode [0xC7, 0x02, 0x03, 0x01, 0x15, 0x00, 0x00, 0x00] = .ok (.atl .addI32 ⟨false, 2⟩ 3 ⟨1, 5, 2, 0⟩, 8) := rfl
theorem decode_spill : decode [0xC9, 0x80, 0x0C, 0x00, 0x00, 0x00, 0x00, 0x05] = .ok (.spill 12 5, 8) := rfl
theorem decode_copy : decode [0xE1, 0x30, 0x2C, 0x92, 0x0C, 0x00, 0x00, 0x83, 0x00, 0x00, 0x00, 0x00] =
    .ok (.tcpyG2l ⟨8, 9, 12, some 3, 11⟩, 12) := rfl
theorem decode_lease : decode [0xE2, 0x30, 0x14, 0x60, 0x00, 0x00, 0x00, 0x00, 0x00, 0x00, 0x00, 0x00] = .ok (.lstat 5 6, 12) := rfl
theorem decode_tile : decode [0xE3, 0xD0, 0x20, 0x03, 0x0B, 0x00, 0x00, 0x00, 0xFF, 0xFF, 0xFF, 0xFD] =
    .ok (.tcvt .e4m3Sat 12 8 11 0xFD, 12) := rfl
theorem decode_table : decode [0xE4, 0x11, 0x00, 0x00, 0x00, 0x05, 0x04, 0x00, 0x00, 0x00, 0x00, 0x02] =
    .ok (.ftevl ⟨false, 1⟩ 5 4 2, 12) := rfl
theorem decode_collective : decode [0xE5, 0x00, 0x00, 0x70, 0x00, 0x00, 0x00, 0x00, 0x00, 0x00, 0x00, 0x02] =
    .ok (.cpost 7 2, 12) := rfl
theorem decode_work : decode [0xE5, 0x90, 0x00, 0x90, 0x00, 0x00, 0x00, 0x00, 0x00, 0x00, 0x00, 0x00] = .ok (.launch 9, 12) := rfl
theorem decode_continuation : decode [0xE6, 0x00, 0x10, 0xA0, 0x00, 0x00, 0x00, 0x00, 0x00, 0x00, 0x00, 0x00] =
    .ok (.susp 4 10 false false, 12) := rfl
/-- Table 3-3: an unassigned first byte, OP 0, a reserved field, a tag without TEN, bit 38 of class D. -/
theorem decode_refuses : decode [0xFE] = .error .firstByte ∧ decode [0x80, 0x00, 1, 2, 3, 0] = .error .encoding ∧
    decode [0x80, 0x10, 5, 6, 7, 1] = .error .encoding ∧
    decode [0xE1, 0x30, 0x2C, 0x92, 0x0C, 0, 0, 0x03, 0, 0, 0, 0] = .error .encoding ∧
    decode [0xE1, 0x80, 0x50, 0, 0, 0, 0, 0x40, 0, 0, 0, 0] = .error .encoding := ⟨rfl, rfl, rfl, rfl, rfl⟩

/-! ## Worked values of the spec -/

/-- Table 5-3: a sum halfway between two FP32 values. -/
theorem value_halfway_sums : fadd .rne 0x3F800000 0x33800000 = 0x3F800000 ∧ fadd .rup 0x3F800000 0x33800000 = 0x3F800001 ∧
    fadd .rdn 0xBF800000 0xB3800000 = 0xBF800001 := by decide
/-- R159: ffloor(−0.5) = −1, fceil(−0.5) = −0, frnd(2.5) = 2. -/
theorem value_integral : fintegral .rdn 0xBF000000 = 0xBF800000 ∧ fintegral .rup 0xBF000000 = 0x80000000 ∧
    fintegral .rne 0x40200000 = 0x40000000 := by decide
/-- Table 5-6: integers to FP32. -/
theorem value_from_integer : cvtFromInt .rne 16777217 = 0x4B800000 ∧ cvtFromInt .rup 16777217 = 0x4B800001 ∧
    cvtFromInt .rne 4294967295 = 0x4F800000 := by decide
/-- R161: the worked `hadd2.bf16`. -/
theorem value_hadd2 : hadd2 .bf16 0x3F804000 0x3F803F80 = 0x40004040 := by decide

/-! ## Small states -/

/-- A wave of 8 lane registers at 0x1000, its block on core 0 and its context. -/
def wave : Wave := Wave.new 257 256 0 (some 0) 1 0x1000 0 0 0 0
def blk : Block := Block.plain 256 0 0

/-- A package in which a gang of a wave is selected. -/
def one (w : Wave) (b : Block) (g : StrandMask) (f : Dev → Dev) : State :=
  { State.reset with dev := f { Dev.reset with latch := some ⟨w.id, g⟩, waves := [w], blocks := [b], ctxs := [probeCtx] } }
def sel (w : Wave) (b : Block) (g : StrandMask) : Issue := ⟨w, g, 0x1000, b, probeCtx⟩

/-- The page at 0x1000 is mapped with every right, and its first four sectors have been written. -/
def page (d : Dev) : Dev := { d with
  tlb := [⟨0, 0, 4096, 1, 0, ⟨0x1000, none, true, true, true⟩⟩]
  sectors := [⟨128, 0, 0⟩, ⟨129, 0, 0⟩, ⟨130, 0, 0⟩, ⟨131, 0, 0⟩] }

/-- Strand `t` of a wave is changed. -/
def strandAt (w : Wave) (t : Nat) (f : Strand → Strand) : Wave := { w with strands := w.strands.modify t f }
/-- Strand 0 holds values in `s4`, `s5`, …. -/
def holding (l : List Word) (w : Wave) : Wave :=
  strandAt w 0 fun x => { x with s := x.s.take 4 ++ l ++ x.s.drop (4 + l.length) }
/-- The wave whose only live strand is strand 0. -/
def single (w : Wave) : Wave :=
  { w with strands := w.strands.mapIdx fun t x => if t = 0 then { x with gang := 1 } else { x with exited := true, gang := 0 } }

theorem gang_one {t : Nat} (h : inGang 1 t = true) : t = 0 := by
  have : t < 8 := BitVec.lt_of_getLsbD h
  interval_cases t <;> first | rfl | exact absurd h (by decide)

theorem nothing_owed (s : State) (c : Nat) (ho : s.dev.owed = []) (hr : s.dev.remotes = []) : NothingOwed s c :=
  ⟨fun o h => by simp [ho] at h, fun r h => by simp [hr] at h⟩

/-- The hypothesis of the statements about every issue: ScalarCompares, MaskLogic, MaskMoves, NopAndPad among them. -/
theorem witness_selected : (one wave blk 0xFF id).dev.issuer? = some (sel wave blk 0xFF) := rfl

/-! ## Scalars and control -/

/-- ScalarArithmetic, ScalarFormsAndImmediates: nonzero divisors; the highest and the lowest bit set. -/
theorem witness_scalar_values : (1 : Word) ≠ 0 ∧ (-1 : Word) ≠ 0 ∧ ((1#64).getLsbD 0 = true ∧ ∀ j, 0 < j → (1#64).getLsbD j = false) ∧
    ((0x8000000000000000#64).getLsbD 63 = true ∧ ∀ j, j < 63 → (0x8000000000000000#64).getLsbD j = false) := by
  refine ⟨by decide, by decide, ⟨rfl, fun j h => ?_⟩, rfl, by decide⟩
  rw [BitVec.getLsbD_one]; simp; omega

/-- Branches: targets −1, 0, 2^56 − 1 and 2^56. -/
theorem witness_branches :
    let hi : Wave := strandAt wave 0 fun x => { x with pc := 0xFFFFFFFFFFFFFC }
    (one wave blk 0xFF id).dev.issuer? = some (sel wave blk 0xFF) ∧
    (0x1000 : Int) + (BitVec.ofInt 20 (-0x1001)).toInt = -1 ∧ (0x1000 : Int) + (BitVec.ofInt 20 (-0x1000)).toInt = 0 ∧
    (one hi blk 1 id).dev.issuer? = some { sel hi blk 1 with pc := 0xFFFFFFFFFFFFFC } ∧
    ((0xFFFFFFFFFFFFFC#64).toNat : Int) + (3#20).toInt = 2 ^ 56 - 1 ∧ ((0xFFFFFFFFFFFFFC#64).toNat : Int) + (4#20).toInt = 2 ^ 56 :=
  ⟨rfl, by decide, by decide, rfl, by decide, by decide⟩

/-- ExceptionEntry: a wave that can enter its handler; BRKHALT; a wave without a handler, and one that is in it. -/
theorem witness_exception_entry :
    let w : Wave := { wave with tvec := 0x2000 }
    CanEnter (one w blk 0xFF id) (sel w blk 0xFF) ∧ (one w blk 0xFF id).mgmt.brkhalt = false ∧
    ({ one w blk 0xFF id with mgmt := { Mgmt.reset with brkhalt := true } } : State).dev.issuer? = some (sel w blk 0xFF) ∧
    wave.tvec = 0 ∧ (one { w with inHandler := true } blk 0xFF id).dev.issuer? = some (sel { w with inHandler := true } blk 0xFF) :=
  ⟨⟨rfl, by decide, rfl, by decide, by decide⟩, rfl, rfl, rfl, rfl⟩

/-- ExceptionReturn: with and without a cause left, by part of a wave, outside the handler; without a handler, an ending cause and one
that is bit-only; a map that names no gang. -/
theorem witness_exception_return :
    let w : Wave := { wave with tvec := 0x2000, inHandler := true, gsave := wave.gangMap }
    let c : Wave := { w with cause := 1 }
    ((one w blk 0xFF id).dev.issuer? = some (sel w blk 0xFF) ∧ w.liveMask = 0xFF ∧ w.cause = 0 ∧
      validMap w.gsave w.liveMask = true) ∧
    ((one c blk 0xFF id).dev.issuer? = some (sel c blk 0xFF) ∧ c.cause ≠ 0 ∧ c.tvec ≠ 0) ∧
    ((one w blk 0x0F id).dev.issuer? = some (sel w blk 0x0F) ∧ 0x0F ≠ w.liveMask) ∧ wave.inHandler = false ∧
    (let bare (b : Nat) : Wave := { w with tvec := 0, cause := 1#64 <<< b };
      ((one (bare 18) blk 0xFF id).dev.issuer? = some (sel (bare 18) blk 0xFF) ∧ (bare 18).inHandler = true) ∧
      ((one (bare 25) blk 0xFF id).dev.issuer? = some (sel (bare 25) blk 0xFF) ∧ (bare 25).inHandler = true ∧
        validMap (bare 25).gsave (bare 25).liveMask = true) ∧
      (∃ c < 26, (bare 18).cause.getLsbD c = true ∧ c ∉ [cLeaselost, cPreempt, cMigrate, cGuarantee, cEnergy]) ∧
      (∀ c < 26, (bare 25).cause.getLsbD c = true → c ∈ [cLeaselost, cPreempt, cMigrate, cGuarantee, cEnergy])) ∧
    ((one { w with gsave := 0 } blk 0xFF id).dev.issuer? = some (sel { w with gsave := 0 } blk 0xFF) ∧ validMap 0 0xFF = false) :=
  ⟨⟨rfl, by decide, rfl, by decide⟩, ⟨rfl, by decide, by decide⟩, ⟨rfl, by decide⟩, rfl,
    ⟨⟨rfl, rfl⟩, ⟨rfl, rfl, by decide⟩, ⟨18, by decide, by decide, by decide⟩, by decide⟩, rfl, by decide⟩

/-- An outstanding load of the wave, of which lane 0 has not been performed. -/
def load (st : LaneSt) : MemOp := ⟨300, 257, 256, 0, 0xFF, 0x1000, .load .w32 2, [⟨0, 0x1000, .glob 0x1000, 4, [], st⟩], 0, false⟩

/-- WaitOnCounters: `ld` at its field's bound, and above it. -/
theorem witness_wait :
    let s := one wave blk 0xFF fun d => { d with memops := [load .waiting] }
    s.dev.issuer? = some (sel wave blk 0xFF) ∧ s.dev.ld 257 = 1 ∧ s.dev.st 257 = 0 ∧ s.dev.cp 257 = 0 ∧ s.dev.tl 257 = 0 ∧
      s.dev.fx 257 = 0 := by decide

/-- SpecialRegisters: the last number that exists and the first that does not; settled times. -/
theorem witness_special_registers : (17#12).toNat ≤ 17 ∧ 17 < (18#12).toNat ∧ (15#12).toNat = 15 ∧
    (one wave blk 0xFF id).dev.settled (sel wave blk 0xFF) = true ∧ (25#6).toNat < 26 ∧ ¬ (26#6).toNat < 26 := by decide

/-- GangControls: a `regang` that the other strand waits at, one that it does not, one that it waits at with another mask, one that
it waits at elsewhere, one that leaves out its own strand; a strand that stays after an exit; a `yield`
with and without another ready gang. -/
theorem witness_gang_controls :
    let two : Wave := { wave with strands := wave.strands.mapIdx fun t x =>
      if t = 0 then { x with gang := 1 } else if t = 1 then { x with gang := 2 } else { x with exited := true, gang := 0 } }
    let w := strandAt two 1 fun x => { x with waiting := some ⟨0, .regang 3⟩ }
    let other : State := one two blk 1 fun d => page { d with waves := d.waves ++ [{ wave with id := 258 }] }
    ((one w blk 1 id).dev.issuer? = some (sel w blk 1) ∧ (3 : StrandMask) ≠ 0 ∧ inGang 3 0 = true ∧
      (w.strands[1]?).map (fun x => (x.exited, x.waiting, x.pc)) = some (false, some ⟨0, .regang 3⟩, 0x1000)) ∧
    (let z := strandAt two 1 fun x => { x with waiting := some ⟨0, .regang 2⟩ };
      (one z blk 1 id).dev.issuer? = some (sel z blk 1) ∧
        (z.strands[1]?).map (fun x => (x.exited, x.waiting)) = some (false, some ⟨0, .regang 2⟩) ∧ (2 : StrandMask) ≠ 3 ∧ inGang 3 1 = true ∧
        inGang 2 0 = false) ∧
    (let z := strandAt w 1 fun x => { x with pc := 0x1010 };
      (one z blk 1 id).dev.issuer? = some (sel z blk 1) ∧
        (z.strands[1]?).map (fun x => (x.exited, x.waiting, x.pc)) = some (false, some ⟨0, .regang 3⟩, 0x1010)) ∧
    ((one two blk 1 id).dev.issuer? = some (sel two blk 1) ∧
      (two.strands[1]?).map (fun x => (x.exited, x.waiting)) = some (false, none) ∧ inGang 1 1 = false) ∧
    ((one wave blk 0xFF id).dev.issuer? = some (sel wave blk 0xFF) ∧ (sel wave blk 0xFF).low.waiting = none ∧
      Dev.noteGangs { (one wave blk 0xFF id).dev with latch := none } 0 0 257 0xFF = []) ∧
    (other.dev.issuer? = some (sel two blk 1) ∧ Dev.noteGangs { other.dev with latch := none } 0 0 257 1 ≠ []) :=
  ⟨⟨rfl, by decide, by decide, by decide⟩, ⟨rfl, by decide, by decide, by decide, by decide⟩, ⟨rfl, by decide⟩, ⟨rfl, by decide, by decide⟩,
    ⟨rfl, rfl, by decide⟩, rfl, by decide⟩

/-- RegisterClaims: part of a wave; windows at and under the bounds; loads that count; a claim that fits and one that does not;
a block all of whose waves are blocked, with a handler and without one. -/
theorem witness_register_claims :
    let w16 : Wave := { wave with v := List.replicate 16 (List.replicate 32 0) }
    let claimer : Wave := { wave with strands := wave.strands.map fun x => { x with waiting := some ⟨0, .regclm 1⟩ } }
    let claim (n : Nat) : State := one claimer blk 0xFF fun d => { d with cores := [{ Core.reset 0 with claims := [(257, n)] }] }
    ((one wave blk 1 id).dev.issuer? = some (sel wave blk 1) ∧ 1 ≠ wave.liveMask) ∧ wave.liveMask = 0xFF ∧
    (wave.v.length < 8 * 1 + 8 ∧ 8 * 1 + 8 ≤ w16.v.length ∧ wave.v.length + 8 * 31 ≤ 256 ∧ 256 < w16.v.length + 8 * 31) ∧
    ((one w16 blk 0xFF id).dev.issuer? = some (sel w16 blk 0xFF) ∧ (one w16 blk 0xFF id).dev.ld 257 = 0 ∧
      (one w16 blk 0xFF id).dev.fx 257 = 0 ∧ (one w16 blk 0xFF fun d => { d with memops := [load .waiting] }).dev.ld 257 ≠ 0) ∧
    ((claim 383).dev.core 0).claims = [(257, 383)] ∧ (claim 383).dev.poolFree 0 = 383 ∧ (claim 384).dev.poolFree 0 < 384 ∧
    (∀ n, ((claim n).dev.liveWaves 256).any (·.claims) = true ∧ ((claim n).dev.liveWaves 256).all (fun w => w.claims || w.atBarrier) = true) ∧
    ((claim 383).dev.block? 256).any (fun b => (claim 383).dev.claimReady b.core) = true ∧
    ((claim 384).dev.block? 256).any (fun b => (claim 384).dev.claimReady b.core) = false ∧
    ((claim 384).dev.waves.map (·.id)).Nodup ∧ (claim 384).dev.liveWaves 256 = [claimer] ∧ claimer.claims = true ∧ claimer.tvec = 0 ∧
    (let h : Wave := { claimer with tvec := 0x2000 };
      let z : State := one h blk 0xFF fun d => { d with cores := [{ Core.reset 0 with claims := [(257, 384)] }] };
      (z.dev.liveWaves 256 = [h] ∧ h.claims = true ∧ h.tvec ≠ 0 ∧ h.inHandler = false ∧ h.busy = false) ∧
        (z.dev.block? 256).any (fun b => z.dev.claimReady b.core) = false) :=
  ⟨⟨rfl, by decide⟩, by decide, by decide, ⟨rfl, by decide, by decide, by decide⟩, by decide, by decide, by decide,
    fun _ => ⟨rfl, rfl⟩, by decide, by decide, by decide, rfl, rfl, rfl, ⟨rfl, rfl, by decide, rfl, rfl⟩, by decide⟩

/-- Monitors: a line that may be watched; a written line, an unwritten one; a timeout that has come; a long sleeper. -/
theorem witness_monitors :
    let w := single (holding [0x1000] wave)
    let hit (h : Option Nat) : Wave := strandAt w 0 fun x => { x with monitor := some ⟨32, 0, h⟩ }
    let sleeper : Wave := strandAt w 0 fun x => { x with waiting := some ⟨0, .mwait (some 24001)⟩ }
    let slept : State := one sleeper blk 1 fun d => { d with latch := none, clock := 24001 }
    ((one w blk 1 page).dev.issuer? = some (sel w blk 1) ∧
      ∀ t, inGang 1 t = true → (one w blk 1 page).dev.checkGlobal 0 probeCtx
        (((sel w blk 1).strand t).rd 4 + (0#12).signExtend 64).toNat 1 needR false = .ok (.glob 0x1000)) ∧
    ((one (hit (some 5)) blk 1 id).dev.issuer? = some (sel (hit (some 5)) blk 1) ∧
      ((sel (hit (some 5)) blk 1).strand 0).monitor = some ⟨32, 0, some 5⟩) ∧
    ((one (hit none) blk 1 id).dev.issuer? = some (sel (hit none) blk 1) ∧
      ((sel (hit none) blk 1).strand 0).monitor = some ⟨32, 0, none⟩) ∧
    (slept.dev.wave? 257 = some sleeper ∧ (sleeper.strands[0]?).bind (·.waiting) = some ⟨0, .mwait (some 24001)⟩ ∧
      sleeper.port = some 0 ∧ 24001 ≤ slept.dev.clock ∧ slept.dev.block? sleeper.block = some blk ∧
      slept.dev.server? 0 (.port 0) = none ∧ sleeper.live = true ∧ 0 + 24000 < slept.dev.clock ∧
      sleeper.strands.all (fun x => x.exited || (x.waiting == some ⟨0, .mwait (some 24001)⟩)) = true) := by
  refine ⟨⟨rfl, fun t h => ?_⟩, ⟨rfl, rfl⟩, ⟨rfl, rfl⟩, rfl, rfl, rfl, by decide, rfl, rfl, by decide, by decide, by decide⟩
  rw [gang_one h]; rfl

/-- ArrivalsAndBarriers: a mask at and beyond the block's tags, tags that are there and that are not; a byte barrier aligned,
misaligned, at and beyond the end of the allocation, met and not met; numbered barriers. -/
theorem witness_arrivals :
    let b : Block := { blk with ntags := 2, tags := [⟨1, 7⟩], scratch := ⟨0, 32⟩ }
    let w (x : Word) : Wave := single (holding [x] wave)
    let bar (target : Byte) : Dev → Dev := fun d => { d with locmem := [⟨0, .scratch, cellPut [] 16 target⟩] }
    let arr (r : Option Nat) : Wave := { w 0 with arrivals := [⟨3, 0, 0, r⟩] }
    ((one (w 2) b 1 id).dev.issuer? = some (sel (w 2) b 1) ∧ (2 : Word) >>> b.ntags = 0 ∧ b.arrived = 2 ∧
      b.arrived &&& 2 = 2 ∧ b.arrived &&& 1 = 0 ∧ (4 : Word) >>> b.ntags ≠ 0 ∧ (2 : Word).getLsbD 1 = true ∧ (2 : Word).getLsbD 0 = false) ∧
    ((one (w 16) b 1 (bar 0)).dev.issuer? = some (sel (w 16) b 1) ∧ memOk (one (w 16) b 1 (bar 0)) ∧
      (one (w 16) b 1 (bar 0)).dev.settled (sel (w 16) b 1) = true ∧ 16 + 16 ≤ b.scratch.len ∧ b.scratch.len < 32 + 16 ∧ 17 % 16 ≠ 0 ∧
      ((one (w 16) b 1 (bar 0)).dev.readLoc 0 .scratch 16 16).2 = true ∧
      field ((one (w 16) b 1 (bar 0)).dev.readLoc 0 .scratch 16 16).1 0 4 = field ((one (w 16) b 1 (bar 0)).dev.readLoc 0 .scratch 16 16).1 4 4 ∧
      field ((one (w 16) b 1 (bar 5)).dev.readLoc 0 .scratch 16 16).1 0 4 ≠ field ((one (w 16) b 1 (bar 5)).dev.readLoc 0 .scratch 16 16).1 4 4) ∧
    ((one (arr none) b 1 id).dev.issuer? = some (sel (arr none) b 1) ∧ (arr none).liveMask = 1 ∧
      (arr none).arrivals.find? (·.bar == 3) = some ⟨3, 0, 0, none⟩ ∧ (arr (some 9)).arrivals.find? (·.bar == 3) = some ⟨3, 0, 0, some 9⟩ ∧
      (one (arr none) b 1 id).dev.settled (sel (arr none) b 1) = true ∧ (w 0).arrivals = []) ∧ (1 : StrandMask) ≠ wave.liveMask := by
  refine ⟨⟨rfl, by decide, by decide, by decide, by decide, by decide, by decide, by decide⟩,
    ⟨rfl, ⟨rfl, fun m h => ?_⟩, by decide, by decide, by decide, by decide, by decide, by decide, by decide⟩,
    ⟨rfl, by decide, by decide, by decide, by decide, rfl⟩, by decide⟩
  rw [List.mem_singleton.mp h]; rfl

/-- ScalarMemory: a load, a store and a misaligned access of one strand. -/
theorem witness_scalar_memory :
    let w := single (holding [0x1008, 0x1001] wave)
    let s := one w blk 1 page
    s.dev.issuer? = some (sel w blk 1) ∧ s.dev.settled (sel w blk 1) = true ∧ s.dev.l1 = [] ∧ memOk s ∧
      ScalarPlaces s (sel w blk 1) 4 0 8 needR true (fun _ => 0x1008) ∧ ScalarPlaces s (sel w blk 1) 4 0 8 needW true (fun _ => 0x1008) ∧
      (s.dev.readGlob 0 0x1008 8).2 = true ∧ sectorsOf 0x1008 8 = [128] ∧ s.dev.sector? 128 ≠ none ∧ s.dev.sectorOk 0 128 = true ∧
      ScalarFails s (sel w blk 1) 5 0 8 needR true 0 cAlign := by
  refine ⟨rfl, rfl, rfl, ⟨rfl, fun m h => absurd h (by simp [one, page, Dev.reset])⟩, fun t h => ?_, fun t h => ?_, by decide, by decide, by decide,
    by decide, by decide, rfl, rfl, fun u h => absurd h (by omega)⟩ <;> (rw [gang_one h]; rfl)

/-! ## Lanes -/

/-- LaneSources: a source without an outstanding writer and one with; registers in the window and beyond its last. -/
theorem witness_lane_sources :
    let s := one wave blk 0xFF fun d => { d with memops := [load (.done 5 [1, 0, 0, 0])] }
    s.dev.issuer? = some (sel wave blk 0xFF) ∧ s.dev.newLane 257 3 0 = none ∧ s.dev.newLane 257 2 0 = some 1 ∧
      wave.v[7]? = some (List.replicate 32 0) ∧ wave.v.length ≤ 8 ∧ (7 : VReg).toNat < wave.v.length := by decide

/-- The lane statements: registers up to the window's last. -/
theorem witness_window : InWindow (sel wave blk 0xFF) [7, 0, 6] ∧ InWindow (sel wave blk 0xFF) (run 4 4) := by
  constructor <;> (unfold InWindow; decide)

/-- LaneIntegers, LaneSelectsWideAndImmediates, LanePermutationsAndReductions: the bounds of the immediate fields. -/
theorem witness_lane_immediates : (31#8).toNat < 32 ∧ 1 ≤ (1#8).toNat ∧ (32#8).toNat ≤ 32 ∧ 31 < (32#8).toNat ∧ 32 < (33#8).toNat ∧
    (63#8).toNat < 64 ∧ (4 : BitVec 8) = 4 := by decide

/-- Binary32 codes of the values below. -/
theorem code_one : dec32 0x3F800000 = .fin ⟨false, 8388608, -23⟩ := by decide
theorem code_minus_one : dec32 0xBF800000 = .fin ⟨true, 8388608, -23⟩ := by decide
theorem code_zero : dec32 0 = .fin ⟨false, 0, -149⟩ ∧ dec32 0x80000000 = .fin ⟨true, 0, -149⟩ := by decide
theorem code_least : dec32 1 = .fin ⟨false, 1, -149⟩ := by decide
theorem code_nan : IsNaN 0x7FC00001 ∧ dec32 0x7F800000 = .inf false := ⟨(by decide : dec32 0x7FC00001 = .nan), by decide⟩
theorem rat_one : ratOf ⟨false, 8388608, -23⟩ = 1 ∧ ratOf ⟨true, 8388608, -23⟩ = -1 := by norm_num [ratOf]

/-- FloatArithmetic: NaN operands, a finite number beside an infinity, a sum of zero, a zero divisor. -/
theorem witness_float_arithmetic : IsNaN 0x7FC00001 ∧ (∃ x, dec32 0x3F800000 = .fin x) ∧
    (∃ x y, dec32 0x3F800000 = .fin x ∧ dec32 0xBF800000 = .fin y ∧ ratOf x + ratOf y = 0) ∧
    (∃ y, dec32 0x80000000 = .fin y ∧ y.m = 0) ∧ (∃ x, dec32 0x3F800000 = .fin x ∧ x.m ≠ 0) ∧
    (InfProduct (dec32 0xFF800000) (dec32 0x3F800000) true ∧ NaNProduct (dec32 0x7F800000) (dec32 0)) ∧
    (∃ x y z, dec32 0x3F800000 = .fin x ∧ dec32 0x3F800000 = .fin y ∧ dec32 0xBF800000 = .fin z ∧ ratOf x * ratOf y + ratOf z = 0) :=
  ⟨code_nan.1, ⟨_, code_one⟩, ⟨_, _, code_one, code_minus_one, by norm_num [rat_one]⟩, ⟨_, code_zero.2, rfl⟩, ⟨_, code_one, by decide⟩,
    ⟨.inr ⟨true, ⟨false, 8388608, -23⟩, .inl (by decide), by decide, by decide⟩,
      .inr (.inr ⟨false, ⟨false, 0, -149⟩, .inl (by decide), by decide⟩)⟩,
    ⟨_, _, _, code_one, code_one, code_minus_one, by norm_num [rat_one]⟩⟩

/-- FloatRounding: exact results that are not zero, in FP32, in both halves, of integers and over lanes. -/
theorem witness_float_rounding :
    (∃ x y, dec32 0x3F800000 = .fin x ∧ dec32 0x3F800000 = .fin y ∧ ratOf x + ratOf y ≠ 0 ∧ ratOf x * ratOf y ≠ 0 ∧
      ratOf x * ratOf y + ratOf x ≠ 0 ∧ x.m ≠ 0) ∧
    (∃ x y, dec32 0x3F800000 = .fin x ∧ dec32 0xBF800000 = .fin y ∧ ratOf x - ratOf y ≠ 0) ∧
    (∃ x, dec32 0x3F800000 = .fin x ∧ 0 < ratOf x) ∧
    (∃ x, (halfFmt .bf16).decode (halfOf false 0x3F80) = .fin x ∧ ratOf x + ratOf x ≠ 0 ∧ ratOf x * ratOf x ≠ 0 ∧
      ratOf x * ratOf x + ratOf x ≠ 0) ∧
    (∃ x, (halfFmt .f16).decode (halfOf true 0x3C000000) = .fin x ∧ ratOf x + ratOf x ≠ 0 ∧ ratOf x * ratOf x ≠ 0 ∧
      ratOf x * ratOf x + ratOf x ≠ 0) ∧
    ((-4294967295 : Int) ≠ 0 ∧ (-4294967295 : Int).natAbs < 2 ^ 32) ∧
    ([⟨false, 8388608, -23⟩].map ratOf).sum ≠ 0 := by
  refine ⟨⟨_, _, code_one, code_one, ?_⟩, ⟨_, _, code_one, code_minus_one, ?_⟩,
    ⟨_, code_one, ?_⟩, ⟨⟨false, 128, -7⟩, by decide, ?_⟩, ⟨⟨false, 1024, -10⟩, by decide, ?_⟩, by decide, ?_⟩ <;> norm_num [ratOf]

/-- FloatSelectsAndFunctions: the operands of each special result, at the ends of its range. -/
theorem witness_float_functions :
    (IsNaN 0x7FC00001 ∧ ¬ IsNaN 0x3F800000) ∧
    (∃ x y, dec32 0xBF800000 = .fin x ∧ dec32 0x3F800000 = .fin y ∧ ratOf x < ratOf y ∧ ratOf x < 0) ∧
    (∃ x y, dec32 0x80000000 = .fin x ∧ dec32 0 = .fin y ∧ x.m = 0 ∧ y.m = 0 ∧ x.neg = true ∧ y.neg = false) ∧
    (∃ x, dec32 1 = .fin x ∧ 0 < |ratOf x| ∧ |ratOf x| < (2 : ℚ) ^ (-128 : Int)) ∧
    (∃ x, dec32 0x43000000 = .fin x ∧ 128 ≤ ratOf x) ∧ (∃ x, dec32 0xC3160001 = .fin x ∧ ratOf x < -150) ∧
    (∃ x, dec32 0xC3150000 = .fin x ∧ ratOf x = (-149 : Int)) ∧ (∃ x, dec32 0x42FE0000 = .fin x ∧ ratOf x = (127 : Int)) ∧
    (∃ x, dec32 1 = .fin x ∧ ratOf x = (2 : ℚ) ^ (-149 : Int)) ∧ (∃ x, dec32 0xBF800000 = .fin x ∧ ratOf x = (-1 : Int)) ∧
    (∃ x, dec32 0x3F800000 = .fin x ∧ ratOf x = (2 : ℚ) ^ (2 * (0 : Int)) ∧ (2 : ℚ) ^ (-128 : Int) < |ratOf x|) ∧
    (∃ x, dec32 0xBF000000 = .fin x ∧ ratOf x = ((-1 : Int) : ℚ) + 1 / 2) := by
  refine ⟨⟨code_nan.1, by unfold IsNaN; rw [code_one]; exact Fp.noConfusion⟩, ⟨_, _, code_minus_one, code_one, ?_⟩,
    ⟨_, _, code_zero.2, code_zero.1, rfl, rfl, rfl, rfl⟩, ⟨_, code_least, ?_⟩, ⟨⟨false, 8388608, -16⟩, by decide, ?_⟩,
    ⟨⟨true, 9830401, -16⟩, by decide, ?_⟩, ⟨⟨true, 9764864, -16⟩, by decide, ?_⟩, ⟨⟨false, 16646144, -17⟩, by decide, ?_⟩,
    ⟨_, code_least, ?_⟩, ⟨_, code_minus_one, ?_⟩, ⟨_, code_one, ?_⟩, ⟨⟨true, 8388608, -24⟩, by decide, ?_⟩⟩ <;>
    norm_num [ratOf, abs_of_pos]

/-- HalvesAndConversions: no finite number, a finite one; a narrow NaN, infinity and finite number. -/
theorem witness_conversions : (∀ x, dec32 0x7F800000 ≠ .fin x) ∧ (∃ x, dec32 0x3F800000 = .fin x) ∧
    bf16.decode ((0x7FC0#32).toNat % 2 ^ (bf16.sign + 1)) = .nan ∧ fp16.decode ((0xFC00#32).toNat % 2 ^ (fp16.sign + 1)) = .inf true ∧
    ∃ x, e2m1.decode ((7#32).toNat % 2 ^ (e2m1.sign + 1)) = .fin x :=
  ⟨fun x => by rw [code_nan.2]; exact Fp.noConfusion, ⟨_, code_one⟩, by decide, by decide, ⟨false, 3, 1⟩, by decide⟩

/-- LanePermutationsAndReductions: lists with a NaN, with both infinities, with one, and of zeros; the scale of one lane's 1.0. -/
theorem witness_sums : Fp.nan ∈ [Fp.nan] ∧ (Fp.inf true ∈ [Fp.inf true, .inf false] ∧ Fp.inf false ∈ [Fp.inf true, .inf false]) ∧
    (Fp.nan ∉ [Fp.inf true] ∧ Fp.inf (!true) ∉ [Fp.inf true]) ∧ ([⟨true, 0, -149⟩].map ratOf).sum = 0 ∧
    ((2 : ℚ) ^ (0 : Int) ≤ 1 ∧ (1 : ℚ) < (2 : ℚ) ^ ((0 : Int) + 1)) ∧ |ratOf ⟨false, 8388608, -23⟩| ≤ 1 := by
  refine ⟨by decide, by decide, by decide, ?_, ?_, ?_⟩ <;> norm_num [ratOf]

/-! ## Lane memory -/

/-- The one live strand's lane 0 is active. -/
def lane0 (l : List Word) : Wave := { single (holding l wave) with m := 1 :: List.replicate 15 0 }

/-- An address in `s4`, without a lane term. -/
def atS4 : Addr := ⟨0, 4, 7, 0⟩

/-- LaneMemoryIssues, AtomicIssues: a 16-byte access that passes its checks; one that ends with the scratchpad range; a team
member's range; an address in a register pair; a counter with one place left. -/
theorem witness_lane_memory :
    let w := lane0 [0x1010, 16, 0]
    let b : Block := { blk with scratch := ⟨64, 32⟩, team := some 9 }
    let p : Wave := { w with v := wave.v.set 4 ((List.replicate 32 0).set 0 0x1008) }
    let s := one w b 1 fun d => page { d with
      memops := List.replicate 61 (load .waiting), teams := [⟨9, none, 0, 1, [5], [256], [⟨0, 32⟩], 0, []⟩] }
    s.dev.issuer? = some (sel w b 1) ∧ InWindow (sel w b 1) (run 4 4 ++ indexReg atS4) ∧ s.dev.ld 257 = 61 ∧ s.dev.st 257 = 0 ∧
      (∀ l ∈ activeLanes (sel w b 1) ⟨false, 0⟩,
        s.dev.checkGlobal 0 probeCtx (laneAddress s (sel w b 1) atS4 true l).toNat 16 needRW false = .ok (.glob 0x1010)) ∧
      (∀ l ∈ activeLanes (sel w b 1) ⟨false, 0⟩, (laneAddress s (sel w b 1) ⟨0, 5, 7, 0⟩ true l).toNat % 16 = 0 ∧
        (laneAddress s (sel w b 1) ⟨0, 5, 7, 0⟩ true l).toNat + 16 ≤ b.scratch.len) ∧
      (∃ t, s.dev.team? 9 = some t ∧ ∀ l ∈ activeLanes (sel w b 1) ⟨false, 0⟩,
        t.cores[(((sel w b 1).strand (l / 4)).rd 6).toNat]? = some 5 ∧ t.ranges[(((sel w b 1).strand (l / 4)).rd 6).toNat]? = some ⟨0, 32⟩ ∧
        (laneAddress s (sel w b 1) ⟨0, 6, 7, 16⟩ false l).toNat + 16 ≤ 32) ∧
      (∀ l ∈ activeLanes (sel p b 1) ⟨false, 0⟩, (one p b 1 page).dev.checkGlobal 0 probeCtx
        (BitVec.ofInt 64 ((pairAt (one p b 1 page) (sel p b 1) 4 l).toNat + (8#23).toInt)).toNat 16 needW true = .ok (.glob 0x1010)) := by
  refine ⟨rfl, by unfold InWindow; decide, by decide, by decide, ?_, ?_, ⟨_, rfl, ?_⟩, ?_⟩ <;>
    (intro l h; rw [List.mem_singleton.mp (show l ∈ [0] from h)])
  · rfl
  · decide
  · decide
  · rfl

/-- AtomicIssues: a counter word, a pointer word in global memory, and one that ends with the scratchpad range. -/
theorem witness_atomics :
    let w := lane0 [0x1008, 24]
    let b : Block := { blk with scratch := ⟨64, 32⟩ }
    let s := one w b 1 page
    s.dev.issuer? = some (sel w b 1) ∧ s.dev.st 257 < 62 ∧ ScalarPlaces s (sel w b 1) 4 0 8 needW false (fun _ => 0x1008) ∧
      activeLanes (sel w b 1) ⟨false, 0⟩ = [0] ∧
      s.dev.checkGlobal 0 probeCtx ((sel w b 1).rd 4 + (0#23).signExtend 64).toNat 8 needW false = .ok (.glob 0x1008) ∧
      ((sel w b 1).rd 5 + (0#23).signExtend 64).toNat % 8 = 0 ∧ ((sel w b 1).rd 5 + (0#23).signExtend 64).toNat + 8 ≤ b.scratch.len := by
  refine ⟨rfl, by decide, fun t h => ?_, rfl, rfl, by decide, by decide⟩
  rw [gang_one h]; rfl

/-- LaneMemoryFaults: a register beyond the window; a misaligned global address, one beyond the block's ranges, no team, a misaligned
pointer pair, pointer word and counter, each in the lowest lane or strand; full counters. -/
theorem witness_lane_faults :
    let w := lane0 [0x1001, 0x1000]
    let s := one w blk 1 page
    let k := sel w blk 1
    let op (k : MemKind) : MemOp := { load .waiting with kind := k }
    let full (k : MemKind) : State := one w blk 1 fun d => { d with memops := List.replicate 62 (op k) }
    let fails (check : Nat → Except Nat Loc) (e : Nat) : Prop := FirstFailure k ⟨false, 0⟩ check 0 e
    s.dev.issuer? = some k ∧ HasRoom s k true ∧ HasRoom s k false ∧ s.dev.settled k = true ∧ InWindow k [7] ∧ ¬ InWindow k [8] ∧
      fails (fun l => s.dev.checkGlobal 0 probeCtx (laneAddress s k atS4 true l).toNat 4 needR true) cAlign ∧
      fails (fun l => localCheck 0 .scratch blk.scratch (laneAddress s k ⟨0, 5, 7, 0⟩ true l).toNat 4) cRights ∧
      fails (fun l => teamCheck s k 0 (laneAddress s k atS4 false l).toNat 4) cRights ∧
      fails (fun l => s.dev.checkGlobal 0 probeCtx (BitVec.ofInt 64 ((pairAt s k 4 l).toNat + (1#23).toInt)).toNat 4 needR true) cAlign ∧
      fails (fun _ => s.dev.checkGlobal 0 probeCtx (k.rd 4 + (0#23).signExtend 64).toNat 8 needW false) cAlign ∧
      ScalarFails s k 4 0 8 needW false 0 cAlign ∧
      ¬ HasRoom (full (.load .w32 2)) k true ∧ ¬ HasRoom (full .store) k false := by
  have low : ∀ (c : Nat → Except Nat Loc) (e : Nat), c 0 = .error e →
      FirstFailure (sel (lane0 [0x1001, 0x1000]) blk 1) ⟨false, 0⟩ c 0 e := fun c e h => ⟨by decide, h, fun j _ hj => absurd hj (by omega)⟩
  refine ⟨rfl, by unfold HasRoom; decide, by unfold HasRoom; decide, by decide, by unfold InWindow; decide, by unfold InWindow; decide,
    low _ _ rfl, low _ _ rfl, low _ _ rfl, low _ _ rfl, low _ _ rfl, ⟨by decide, rfl, rfl, fun u h => absurd h (by omega)⟩,
    by unfold HasRoom; decide, by unfold HasRoom; decide⟩

/-- BuffersAndSpills: a word that ends with the block's range, sound and settled; a slot that has not been written. -/
theorem witness_buffers :
    let w := lane0 [4]
    let b : Block := { blk with wbuf := ⟨0, 8⟩, abuf := ⟨128, 8⟩, acc := ⟨256, 8⟩ }
    let s := one w b 1 id
    let k := sel w b 1
    s.dev.issuer? = some k ∧ memOk s ∧ InWindow k (7 :: indexReg atS4) ∧ s.dev.settled k = true ∧ activeLanes k ⟨false, 0⟩ = [0] ∧
      (laneAddress s k atS4 true 0).toNat % 4 = 0 ∧ (laneAddress s k atS4 true 0).toNat + 4 ≤ b.wbuf.len ∧
      (s.dev.readLoc 0 .wbuf 4 4).2 = true ∧ (s.dev.readLoc 0 .abuf 132 4).2 = true ∧ (s.dev.readLoc 0 .acc 260 4).2 = true ∧
      (w.slot 5).fmt ≤ 4 ∧ HasRoom s k true ∧ HasRoom s k false :=
  ⟨rfl, ⟨rfl, fun m h => absurd h (by simp [one, Dev.reset])⟩, by unfold InWindow; decide, by decide, rfl, by decide, by decide, by decide, by decide, by decide,
    by decide, by unfold HasRoom; decide, by unfold HasRoom; decide⟩

/-- HomeSteps: the next access of a load, of a store, of an atomic; a spill; a load all of whose lanes have been performed; a
deferred report. -/
theorem witness_homes :
    let op (k : MemKind) (data : List Byte) : MemOp := { load .waiting with kind := k, lanes := [⟨0, 0x1000, .glob 0x1000, 4, data, .waiting⟩] }
    let s (o : MemOp) : State := one wave blk 0xFF fun d => page { d with memops := [o] }
    let bad : MemOp := load (.failed cXlate)
    let h : Wave := { wave with tvec := 0x2000 }
    (∀ o ∈ [op (.load .w32 2) [], op .store [1, 2, 3, 4], op (.atom .addI32 2) [1, 0, 0, 0]], ∃ a, NextAccess (s o) o a ∧ a.loc = .glob 0x1000) ∧
    (∀ o, memOk (s o)) ∧ ((s (op .store [])).dev.readGlob 0 0x1000 4).2 = true ∧ Sound (s (op .store [])) 0 0x1000 4 ∧
    (s (op .spill [])).dev.op? 300 = some (op .spill []) ∧
    ((s (load (.done 5 [1, 0, 0, 0]))).dev.wave? 257 = some wave ∧ (s (load (.done 5 [1, 0, 0, 0]))).dev.op? 300 = some (load (.done 5 [1, 0, 0, 0]))) ∧
    (let t := one h blk 0xFF fun d => { d with reports := [bad] };
      t.dev.reports.find? (fun r => t.dev.reportWave r == 257) = some bad ∧ t.dev.wave? 257 = some h ∧ t.dev.block? h.block = some blk ∧ h.live = true ∧
        h.busy = false ∧ h.tvec ≠ 0 ∧ (t.dev.core 0).claims.any (·.1 == 257) = false ∧
        bad.failures = [⟨0, 0x1000, .glob 0x1000, 4, [], .failed cXlate⟩]) := by
  refine ⟨fun o ho => ?_, fun o => ⟨rfl, fun m h => absurd h (by simp [one, page, Dev.reset])⟩, by decide, ?_, rfl, ⟨rfl, rfl⟩, rfl, rfl, rfl, by decide, by decide,
    by decide, by decide, by decide⟩
  · simp only [List.mem_cons, List.not_mem_nil, or_false] at ho
    rcases ho with rfl | rfl | rfl <;>
      exact ⟨_, ⟨rfl, rfl, rfl, List.mem_singleton.mpr rfl, rfl, by decide, rfl, rfl⟩, rfl⟩
  · intro i hi
    rw [List.mem_singleton.mp (show i ∈ [128] from hi)]
    decide

/-! ## Copies, leases, engines, collectives -/

/-- A job of the wave, in the checker; a copy of two pieces by record A. -/
def job (n : Nat) (k : JobKind) : Job := ⟨n, 0, 256, 257, 0x1000, 0xFF, k, [], true, [], 0⟩
def layout : Layout := ⟨0x1000, [128, 4, 1, 1, 1], 0, 2, false, [512, 0, 0, 0], [128, 4, 1, 1, 1]⟩
def copy (next : Nat) (pieces : List (Nat × PieceSt)) : Copy :=
  ⟨.g2l, 0x1000, 0, 0, [0, 0, 0, 0, 0], some 1, none, none, 0xFF, 0x1000, some layout, none, next, pieces, none, false, false, 0⟩

/-- CopyInstructions: the last tag of a block and the first that it does not have; a byte barrier at the end of the scratchpad
range, one off its alignment, one beyond the range; a stamp, and one off its alignment; 29 and 30 copies outstanding; entries
unread, read, of a write, of a whole copy; no entry. -/
theorem witness_copy_instructions :
    let b : Block := { blk with ntags := 2, scratch := ⟨0, 32⟩ }
    let w := holding [0x1000, 0, 0, 16, 0x8300000000001000, 24, 32, 0x1004] wave
    let s (f : Dev → Dev) : State := one w b 0xFF fun d => page (f d)
    let k := sel w b 0xFF
    let o (t : BitVec 6) (d : SReg) : CopyOps := ⟨5, 4, 6, some t, d⟩
    let js (n : Nat) (d : Dev) : Dev := { d with jobs := (List.range n).map fun i => job (400 + i) (.copy (copy 0 [])) }
    let e (slot : Nat) (read wr : Bool) (p : Nat) : FaultEntry := ⟨slot, 400, 256, p, 3, wr, 0x1000, [0, 0, 0, 0, 0], 0, read⟩
    let q (e : FaultEntry) (d : Dev) : Dev := js 1 { d with cores := [{ Core.reset 0 with fifo := [e] }] }
    ((s id).dev.issuer? = some k ∧ b.ntags ≤ (2#6).toNat ∧ (1#6).toNat < b.ntags ∧ (k.rd 9).toNat % 16 ≠ 0 ∧
      (k.rd 10).toNat % 16 = 0 ∧ b.scratch.len < (k.rd 10).toNat + 16 ∧
      (s id).dev.checkGlobal k.core k.ctx (k.rd 11).toNat 8 needW false = .error cAlign) ∧
    (CopyOperands (s (js 30)) k .g2l (o 1 7) ∧ 30 ≤ (s (js 30)).dev.cp k.wave.id) ∧
    (CopyOperands (s (js 29)) k .g2l (o 1 7) ∧ (s (js 29)).dev.cp k.wave.id < 30 ∧
      ((s (js 29)).dev.jobs.filter (·.ctx == k.ctx.n)).length < 1024 ∧ (s (js 29)).dev.settled k = true) ∧
    CopyOperands (s id) k .g2gStamp (o 1 4) ∧
    (((s (q (e 3 false false 1))).dev.core k.core).fifo.find? (fun e => e.block == k.block.id && !e.read) = some (e 3 false false 1) ∧
      ((s (q (e 3 true false 1))).dev.core k.core).fifo.find? (fun e => e.block == k.block.id && !e.read) = none ∧
      1 ≤ (60#6).toNat ∧ (60#6).toNat ≤ 60) ∧
    (Names (s (q (e 3 true false 1))) k (k.rd 8) (e 3 true false 1) ∧ (s (q (e 3 true false 1))).dev.job? 400 = some (job 400 (.copy (copy 0 []))) ∧
      (copy 0 []).whole = none) ∧
    ({ copy 0 [] with whole := some (3, false) } : Copy).whole.isSome = true ∧
    (∀ x, ¬ Names (s (q (e 2 true false 1))) k (k.rd 8) x) ∧
    (Names (s (q (e 3 true true 0xFFFF))) k (k.rd 8) (e 3 true true 0xFFFF)) := by
  refine ⟨⟨rfl, by decide, by decide, by decide, by decide, by decide, by decide⟩, ⟨⟨?_, Or.inr (by decide)⟩, by decide⟩, ⟨⟨?_, Or.inr (by decide)⟩, by decide, by decide, by decide⟩,
    ⟨?_, ?_⟩, ⟨by decide, by decide, by decide, by decide⟩, ⟨⟨by decide, rfl⟩, rfl, rfl⟩, rfl, fun x h => ?_, ⟨by decide, rfl⟩⟩
  · rintro t ⟨⟩; decide
  · rintro t ⟨⟩; decide
  · rintro t ⟨⟩; decide
  · exact ⟨_, rfl⟩
  · exact nomatch (show (none : Option FaultEntry) = some x from h.2)

/-- The layout record of `layout` (Table 3-10). -/
def layoutBytes : List Byte := leBytes 8 0x1000 ++ [128, 4, 1, 1, 1].flatMap (leBytes 4) ++ [0, 2, 0, 0] ++
  [512, 0, 0, 0].flatMap (leBytes 5) ++ [128, 4, 1, 1, 1].flatMap (leBytes 2) ++ [0, 0]

/-- CopySteps: a copy that enters, its record read and its box in range. -/
theorem witness_copy_enters :
    let b : Block := { blk with scratch := ⟨0, 4096⟩ }
    let c : Copy := { copy 0 [] with layA := none }
    let j : Job := { job 400 (.copy c) with entered := false }
    let s : State := one wave b 0xFF fun d => page { d with jobs := [j], mem := cellWrite [] 0x1000 layoutBytes }
    s.dev.job? 400 = some j ∧ s.dev.block? 256 = some b ∧ s.dev.ctx? 0 = some probeCtx ∧ c.whole = none ∧ c.skipAll = false ∧
      c.form.twoBoxes = false ∧ s.dev.jobs.takeWhile (·.id != 400) = [] ∧
      (s.dev.jobs.filter fun i => i.ctx == 0 && i.entered).length < 1024 ∧
      (s.dev.recordBytes j c b probeCtx recPieceA c.recA).2 = some (.ok layoutBytes) ∧ Layout.parse layoutBytes = some layout ∧
      ({ c with layA := some layout, pieces := [] } : Copy).boxCheck b layout none = none := by
  refine ⟨rfl, rfl, rfl, rfl, rfl, rfl, rfl, ?_, ?_, ?_, ?_⟩ <;> decide

/-- CopySteps: a job before which one of its context has entered; a copy with a piece to issue that its point has chosen; a landed
piece that is not the last, and the last; a fault without an entry. -/
theorem witness_copy_steps :
    let fx : Job := { job 401 (.fx (.ftload 0 0x1000) none) with entered := false, foot := [⟨none, 0x1000, 0x2010, false⟩] }
    let s (c : Copy) : State := one { wave with tvec := 0x2000 } blk 0xFF fun d =>
      { d with jobs := [job 400 (.copy c), fx], picks := [(.copy 0, 0)] }
    let j (c : Copy) := job 400 (.copy c)
    let landed (next : Nat) := copy next [(0, .issued [] (some 7))]
    ((s (copy 0 [])).dev.job? 401 = some fx ∧ (s (copy 0 [])).dev.jobs.takeWhile (·.id != 401) = [j (copy 0 [])]) ∧
    ((s (copy 1 [])).dev.job? 400 = some (j (copy 1 [])) ∧ (s (copy 1 [])).dev.block? 256 = some blk ∧
      (s (copy 1 [])).dev.ctx? 0 = some probeCtx ∧ (s (copy 1 [])).dev.servers = [] ∧ (copy 1 []).nextPiece = some 1 ∧
      (copy 2 []).nextPiece = none ∧ (Point.copy (dieOf blk.core), 0) ∈ (s (copy 1 [])).dev.picks) ∧
    ((s (landed 1)).dev.awaits 400 0 = false ∧ (landed 1).piece? 0 = some (.issued [] (some 7)) ∧ (landed 1).bar = none ∧
      (landed 1).pieces.filter (·.1 != 0) = [] ∧ (landed 1).skipAll = false ∧ (landed 1).next ≠ (landed 1).count ∧
      (landed 2).next = (landed 2).count ∧ (landed 2).stamp = none) ∧
    (let c := copy 2 [(1, .fault 3 false)];
      (s c).dev.newFaults (j c) c 0 = [1] ∧ c.faultAt 1 = some (3, false) ∧ blk.susp = none ∧
        (s c).dev.wave? 257 = some { wave with tvec := 0x2000 } ∧ (s c).dev.liveWaves 256 = [{ wave with tvec := 0x2000 }] ∧
        ((s c).dev.core 0).fifo.length < 16) := by
  refine ⟨⟨rfl, rfl⟩, ⟨rfl, rfl, rfl, rfl, by decide, by decide, by decide⟩, by decide, by decide, by decide, rfl, rfl, rfl, by decide⟩

/-- An engine of core 0 whose lessee is the wave. -/
def req (t w : Nat) : Req := ⟨t, w, 0, 0, false, false, false⟩
def engine (kd : EngKind) (st : EngSt) (h : Option Req) (q : List Req) (d : Dev) : Dev :=
  d.modEngine 0 kd fun e => { e with st := st, holder := h, queue := q }
def allEngines : Block := { blk with engines := 7 }

/-- LeaseInstructions: a kind that is leased, that nobody has asked for, with 15 requests queued, with the wave's own; part of a wave; a
block without the kind; a WARM engine. -/
theorem witness_lease_instructions :
    let s (st : EngSt) (h : Option Req) (q : List Req) : State := one wave allEngines 0xFF (engine .table st h q)
    let k := sel wave allEngines 0xFF
    let mine := req 5 257
    (MayKindle (s .leased (some mine) []) k .table ∧ ((s .leased (some mine) []).dev.engine 0 .table).holds 257 = true) ∧
    (∃ e, (s .dark none ((List.range 15).map (req · 999))).dev.engine 0 .table = e ∧ e.holds 257 = false ∧ e.asked 257 = false ∧
      e.queue.length = 15 ∧ ∀ q ∈ e.queue, q.wenergy = false ∨ q.told = true) ∧
    (∃ e, (s .dark none [req 4 999, mine]).dev.engine 0 .table = e ∧ (e.queue ++ e.holder.toList).find? (·.wave == 257) = some mine) ∧
    ((one wave allEngines 0x7F id).dev.issuer? = some (sel wave allEngines 0x7F) ∧ 0x7F ≠ wave.liveMask) ∧
    ((one wave { blk with engines := 5 } 0xFF id).dev.issuer? = some (sel wave { blk with engines := 5 } 0xFF) ∧
      (5#8).getLsbD (kindNumber .table) = false) ∧
    (∃ e, (s .leased (some mine) []).dev.engine 0 .table = e ∧ e.holder = some mine ∧ mine.wave = 257 ∧ e.st = .leased ∧ e.queue = []) ∧
    ((ticketOf .table 5).toNat % 2 ^ 32 = kindNumber .table ∧ (one (holding [ticketOf .table 5] wave) allEngines 0xFF
      (engine .table .dark none [mine])).dev.issuer? = some (sel (holding [ticketOf .table 5] wave) allEngines 0xFF) ∧
      (sel (holding [ticketOf .table 5] wave) allEngines 0xFF).rd 4 = ticketOf .table mine.ticket) ∧
    (∃ e, (s .warm none []).dev.engine 0 .table = e ∧ e.queue = [] ∧ e.holder = none ∧ e.notes = [] ∧ e.st = .warm) :=
  ⟨⟨⟨rfl, by decide, by decide⟩, by decide⟩, ⟨_, rfl, by decide, by decide, by decide, by decide⟩, ⟨_, rfl, by decide⟩, ⟨rfl, by decide⟩, ⟨rfl, by decide⟩,
    ⟨_, rfl, rfl, rfl, rfl, rfl⟩, ⟨by decide, rfl, by decide⟩, ⟨_, rfl, rfl, rfl, rfl, rfl⟩⟩

/-- LeaseSteps: power and energy that are just enough; a wake that has just ended; an engine just idle for long enough; an allowance just met;
a class-0 request behind a class-1 lease; a lost lease; an energy period that has just ended. -/
theorem witness_lease_steps :
    let mine := req 5 257
    let c : Ctx := { probeCtx with allow := 12 }
    let s (st : EngSt) (h : Option Req) (q : List Req) (now : Nat) : State := one { wave with tvec := 0x2000 } allEngines 0xFF fun d =>
      engine .tile st h q { d with clock := now, ctxs := [c, { c with n := 1 }], allow := [40, 0, 0, 0] }
    let served (st : State) : State := { st with dev := { st.dev with
      servers := [⟨⟨1, .tile 0, 0, [10], [24000], 0, 0, [], true⟩, [10], [24000], [true]⟩, ⟨⟨0, .tile 0, 1, [10], [24000], 0, 0, [], true⟩, [10], [24000], [true]⟩] } }
    let other : Req := { req 6 999 with ctx := 1 }
    let z := served (s .leased (some mine) [other] 24000)
    (∃ e, (s .dark none [mine] 0).dev.engine 0 .tile = e ∧ e.queue = [mine] ∧ e.st = .dark ∧ (s .dark none [mine] 0).dev.ctx? 0 = some c ∧
      (s .dark none [mine] 0).dev.reservedPower 0 + (wakeOf .tile).2.2 = 40 ∧ (wakeOf .tile).2.1 + 2400 * (wakeOf .tile).2.2 = c.energyLeft) ∧
    (∃ e, (s .waking (some mine) [] 0).dev.engine 0 .tile = e ∧ e.st = .waking ∧ e.holder = some mine ∧ e.till ≤ 0) ∧
    (∃ e, (s .warm none [] 48000).dev.engine 0 .tile = e ∧ e.core = 0 ∧ e.kind = .tile ∧ e.st = .warm ∧ e.holder = none ∧
      (s .warm none [] 48000).dev.engineJobs 0 .tile = [] ∧ e.idle + 48000 = 48000) ∧
    (min 40 ((s .leased (some mine) [] 0).mgmt.dieAllow 0) = 40 ∧ (s .leased (some mine) [] 0).dev.lastingPower 0 = 40 ∧
      ((s .leased (some mine) [] 0).dev.engines.all fun e => e.queue.isEmpty) = true) ∧
    (∃ e q, z.dev.engine 0 .tile = e ∧ other ∈ e.queue ∧ e.st = .leased ∧ e.holder = some mine ∧
      z.dev.server? 1 (.tile 0) = some q ∧ q.args.cls = 0 ∧ 0 < z.dev.classAt 0 (.tile 0) ∧ q.period 0 - q.quota 0 * 80 < z.dev.clock - other.at_ ∧
      (match z.dev.server? 0 (.tile 0) with | some x => x.period 0 | none => 24000) ≤ z.dev.clock - e.since) ∧
    (∃ e, (s .evicting (some mine) [] 0).dev.engine 0 .tile = e ∧ e.st = .evicting ∧ e.forPower = false ∧ e.holder = some mine ∧ e.queue = [] ∧
      (s .evicting (some mine) [] 0).dev.engineJobs 0 .tile = [] ∧
      ((s .evicting (some mine) [] 0).dev.wave? 257).map (fun w => (w.live, w.tvec)) = some (true, 0x2000)) ∧
    ((s .dark none [] 2400000).dev.ctx? 0 = some c ∧ c.period + 2400000 ≤ (s .dark none [] 2400000).dev.clock) :=
  ⟨⟨_, rfl, rfl, rfl, rfl, by decide, by decide⟩, ⟨_, rfl, rfl, rfl, by decide⟩, ⟨_, rfl, rfl, rfl, rfl, rfl, rfl, rfl⟩, by decide,
    ⟨_, _, rfl, List.mem_singleton.mpr rfl, rfl, rfl, rfl, rfl, by decide, by decide, by decide⟩, ⟨_, rfl, rfl, rfl, rfl, rfl, rfl, by decide⟩, rfl, by decide⟩
/-- Strand 0's operands, an all-engine block with ranges that end with the operands, a leased engine. -/
def runs (kd : EngKind) (l : List Word) (js : List Job) (f : Dev → Dev) : State :=
  one (holding l wave) { allEngines with acc := ⟨0, 65552⟩, abuf := ⟨0, 16400⟩, wbuf := ⟨0, 4112⟩, scratch := ⟨0, 64⟩ } 0xFF fun d =>
    f (engine kd .leased (some (req 5 257)) [] { d with jobs := js })
def runner (l : List Word) : Issue :=
  sel (holding l wave) { allEngines with acc := ⟨0, 65552⟩, abuf := ⟨0, 16400⟩, wbuf := ⟨0, 4112⟩, scratch := ⟨0, 64⟩ } 0xFF

/-- TileInstructions: the greatest shape, operands that end with their ranges, 13 operations outstanding; a lookup image in the last
half of a page; part of a wave; no lease; lanes that disagree. -/
theorem witness_tile_instructions :
    let l : List Word := [16, 16, 16, 0x010410, 0x1800]
    let js := (List.range 13).map fun i => job (400 + i) (.tile (.zero 0 1 1) 0 none none)
    let w : Wave := { holding l wave with v := wave.v.set 3 ((List.replicate 32 0).set 31 1) }
    let s := runs .tile l js page
    let k := runner l
    MayIssueJob s k ∧ Leased s k .tile ∧ InWindow k [7] ∧ s.dev.tl 257 = 13 ∧ activeLanes k ⟨false, 0⟩ ≠ [] ∧
      (∀ j ∈ activeLanes k ⟨false, 0⟩, s.dev.source k 7 j = 0) ∧ legalFormat 0 = true ∧
      (k.rd 7).toNat = shapeWord 16 4 1 0 ∧ 16 * 4 ≤ 64 ∧ 16 + 16 * 16 * 1 * fmtBytes (fmtA 0) (scA 0) = k.block.abuf.len ∧
      16 + 16 * 4 * 1 * fmtBytes (fmtB 0) (scB 0) = k.block.wbuf.len ∧ 16 + 4 * (16 * 16) * (16 * 4) = k.block.acc.len ∧
      cvtBytes .e4m3Rne * ((16 * 16) * (16 * 4)) + 16 = k.block.abuf.len ∧
      ((k.rd 8).toNat % 2048 = 0 ∧ ImageReadable s k 0x1800 2048) ∧
      (1 ≤ (62#6).toNat ∧ (62#6).toNat ≤ 62) ∧
      ((one wave blk 0x7F id).dev.issuer? = some (sel wave blk 0x7F) ∧ 0x7F ≠ wave.liveMask) ∧ ¬ Leased (one wave blk 0xFF id) (sel wave blk 0xFF) .tile ∧
      (∃ x ∈ activeLanes (sel w blk 0xFF) ⟨false, 0⟩, ∃ y ∈ activeLanes (sel w blk 0xFF) ⟨false, 0⟩,
        (one w blk 0xFF id).dev.source (sel w blk 0xFF) 3 x ≠ (one w blk 0xFF id).dev.source (sel w blk 0xFF) 3 y) := by
  refine ⟨⟨rfl, by decide, by decide, by decide⟩, by unfold Leased; decide, by unfold InWindow; decide, by decide, by decide, by decide, by decide, by decide, by decide,
    by decide, by decide, by decide, rfl, ⟨by decide, fun x h => ?_⟩, by decide, ⟨rfl, by decide⟩, by unfold Leased; decide, 0, by decide, 31, by decide, by decide⟩
  rw [List.mem_singleton.mp (show x ∈ [(⟨0, 0x1800, 2048⟩ : Span)] from h)]
  exact ⟨_, rfl⟩

/-- TableAndSelectInstructions: an image over two pages; five operations outstanding; elements in place, and side by side at the end of
the range; no element. -/
theorem witness_fx_instructions :
    let l : List Word := [32, 0, 8, 1, 0x1000]
    let js (o : FxOp) := (List.range 5).map fun i => job (400 + i) (.fx o none)
    let two (d : Dev) : Dev := { page d with tlb := [⟨0, 0, 4096, 1, 0, ⟨0x1000, none, true, true, true⟩⟩, ⟨0, 0, 4096, 2, 0, ⟨0x2000, none, true, true, true⟩⟩] }
    let s := runs .table l (js (.ftload 0 0x1000)) two
    let x := runs .select l (js (.sort 0 0 1 ⟨false, false, false, .n32⟩)) id
    let k := runner l
    (MayIssueJob s k ∧ Leased s k .table ∧ s.dev.fx 257 = 5 ∧ (k.rd 8).toNat % 16 = 0 ∧ ImageReadable s k 0x1000 4112) ∧ InWindow k [7, 6] ∧
    (MayIssueJob x k ∧ Leased x k .select ∧ x.dev.fx 257 = 5 ∧
      SelectOperands k (k.rd 5).toNat (k.rd 4).toNat 4 (k.rd 6).toNat 32 ∧ SelectOperands k 0 0 8 8 64 ∧
      1 ≤ (k.rd 7).toNat ∧ (k.rd 7).toNat ≤ (k.rd 6).toNat) ∧
    ((runner [0, 0, 0]).rd 6 = 0 ∧ (runner [0, 0, 0]).rd 4 = (runner [0, 0, 0]).rd 5) ∧
    ((one wave blk 0x7F id).dev.issuer? = some (sel wave blk 0x7F) ∧ 0x7F ≠ wave.liveMask) ∧ ¬ Leased (one wave blk 0xFF id) (sel wave blk 0xFF) .select := by
  refine ⟨⟨⟨rfl, by decide, by decide, by decide⟩, by unfold Leased; decide, by decide, by decide, fun x h => ?_⟩, by unfold InWindow; decide,
    ⟨⟨rfl, by decide, by decide, by decide⟩, by unfold Leased; decide, by decide, by unfold SelectOperands; decide, by unfold SelectOperands; decide, by decide, by decide⟩,
    by decide, ⟨rfl, by decide⟩, by unfold Leased; decide⟩
  rcases List.mem_cons.mp (show x ∈ [(⟨0, 0x1000, 4096⟩ : Span), ⟨4096, 0x2000, 16⟩] from h) with rfl | h
  · exact ⟨_, rfl⟩
  · rw [List.mem_singleton.mp h]; exact ⟨_, rfl⟩

/-- EngineSteps: an operation at the head; its last K-block just over; a `tzero` just over; an evaluation and a sort that have started. -/
theorem witness_engine_steps :
    let b : Block := (runner []).block
    let s (k : JobKind) : State := runs .tile [] [job 400 k] fun d => { d with clock := 9 }
    let mma : TileOp := .mma .plain 0 0 0 0 1 1 1 0 1
    let z : TileOp := .zero 0 16 4
    ((s (.tile mma 0 none none)).dev.engineJobs 0 .tile = [job 400 (.tile mma 0 none none)] ∧
      (s (.tile mma 0 none none)).dev.job? 400 = some (job 400 (.tile mma 0 none none)) ∧
      ((s (.tile mma 0 none none)).dev.engine 0 .tile).st = .leased ∧ (s (.tile mma 0 none none)).dev.servers = [] ∧
      (s (.tile mma 0 none none)).dev.surge = [] ∧ (s (.tile mma 0 none none)).dev.surgeWait = []) ∧
    (∀ k, memOk (s k)) ∧ (∀ k, (s k).dev.block? 256 = some b ∧ (s k).dev.poison = [] ∧ ((s k).dev.ctx? 0).isSome = true) ∧
    (s (.tile mma 0 (some 9) none)).dev.runningTile 0 = some (job 400 (.tile mma 0 (some 9) none), mma, 0, 9, none) ∧
    (s (.tile z 0 (some 9) none)).dev.runningTile 0 = some (job 400 (.tile z 0 (some 9) none), z, 0, 9, none) ∧
    (∀ k, (s k).dev.job? 400 = some (job 400 k) ∧ (s k).dev.wave? 257 = some (holding [] wave)) ∧ SelFlags.key ⟨false, false, false, .n32⟩ ≠ .f32 :=
  ⟨⟨rfl, rfl, rfl, rfl, rfl, rfl⟩, fun _ => ⟨rfl, fun m h => absurd h (by simp [runs, one, engine, Dev.modEngine, Dev.reset])⟩,
    fun _ => ⟨rfl, rfl, rfl⟩, rfl, rfl, fun _ => ⟨rfl, rfl⟩, by decide⟩

/-- The operations with further steps, and those that have read: an `x2` form of three K-blocks and a conversion of more than 4,096
elements at the head, elements and a segment's start. -/
theorem witness_engine_goes_on :
    let s (k : JobKind) : State := runs .tile [] [job 400 k] fun d => { d with clock := 9 }
    let mma : TileOp := .mma .x2 0 0 0 0 1 1 3 0 1
    let cvt : TileOp := .cvt .e4m3Sat 0 0 16 4 (-1)
    let l : List (Lane × List Byte) := [(5, [1, 0, 0, 0]), (7, [0, 0, 0, 0]), (9, [1, 0, 0, 0])]
    (s (.tile mma 0 (some 9) none)).dev.runningTile 0 = some (job 400 (.tile mma 0 (some 9) none), mma, 0, 9, none) ∧
    HeadOf (s (.tile mma 0 (some 9) none)) 0 (job 400 (.tile mma 0 (some 9) none)) ∧
    (s (.tile cvt 4096 (some 9) none)).dev.runningTile 0 = some (job 400 (.tile cvt 4096 (some 9) none), cvt, 4096, 9, none) ∧
    HeadOf (s (.tile cvt 4096 (some 9) none)) 0 (job 400 (.tile cvt 4096 (some 9) none)) ∧ 4096 + 4096 < 256 * 16 * 4 ∧
    (l[1]? = some (7, [0, 0, 0, 0]) ∧ payloadAt l 0 ≠ 0 ∧ payloadAt l 1 = 0) :=
  ⟨rfl, ⟨⟨[], rfl⟩, rfl⟩, rfl, ⟨⟨[], rfl⟩, rfl⟩, by decide, by decide, by decide, by decide⟩

/-- An image of zeros over two pages, with good checks. -/
def zeros (d : Dev) : Dev := { d with
  tlb := [⟨0, 0, 4096, 1, 0, ⟨0x1000, none, true, true, true⟩⟩, ⟨0, 0, 4096, 2, 0, ⟨0x2000, none, true, true, true⟩⟩]
  sectors := (List.range 132).map fun i => ⟨128 + i, 0, 0⟩ }
theorem zeros_sector : ∀ i < 132, ((List.range 132).map fun i => (⟨128 + i, 0, 0⟩ : Sector)).find? (·.idx == 128 + i) = some ⟨128 + i, 0, 0⟩ := by
  decide
theorem zeros_read (d : Dev) (slot a n : Nat) (hd : d.sectors = (zeros d).sectors) (hm : d.mem = []) (hk : d.keyOf slot = 0)
    (h0 : a % 32 = 0) (hn : 0 < n) (h32 : n ≤ 32) (h1 : 128 ≤ a / 32) (h2 : a / 32 < 260) : d.readGlob slot a n = (List.replicate n 0, true) := by
  have hs (i : Nat) (h : i = a / 32) : d.sector? i = some ⟨a / 32, 0, 0⟩ := by
    have := zeros_sector (a / 32 - 128) (by omega)
    rw [show 128 + (a / 32 - 128) = a / 32 by omega] at this
    rw [h, Dev.sector?, hd]; exact this
  have hb : ∀ m x, a ≤ x → x + m ≤ a + 32 → bytesFrom (d.byteAt slot) x m = List.replicate m 0 := by
    intro m
    induction m with
    | zero => intros; rfl
    | succ m ih =>
      intro x hx hm'
      rw [bytesFrom, ih (x + 1) (by omega) (by omega), List.replicate_succ]
      congr 1
      rw [Dev.byteAt, hs (x / 32) (by omega)]
      simp [hk, hm, cellGet]
  have hl : sectorsOf a n = [a / 32] := by
    rw [sectorsOf, show (a + n + 31) / 32 - a / 32 = 1 by omega]; simp
  rw [Dev.readGlob, hb n a le_rfl (by omega), hl]
  simp [Dev.sectorOk, Dev.flawAt, hs (a / 32) rfl, hk]
theorem zeros_place (d : Dev) (core : Nat) (x : Ctx) (va : Nat) (hd : d.tlb = (zeros d).tlb) (hc : core = 0) (hx : x.n = 0)
    (h1 : 0x1000 ≤ va) (h2 : va < 0x3000) : d.unitPlace core x va needR = .ok (.glob va) := by
  subst hc
  obtain h | h : va / 4096 = 1 ∨ va / 4096 = 2 := by omega
  all_goals
    simp [Dev.unitPlace, Dev.access, Dev.translate, Dev.tlbHit, hd, zeros, hx, TlbEntry.covers, h, Leaf.loc,
      show ¬ 72057594037927936 ≤ va by omega]
    omega
theorem witness_images :
    let k := runner []
    let s := runs .table [] [job 400 (.fx (.ftload 3 0x1000) (some []))] zeros
    let d := runs .tile [] [job 400 (.tile (.dload 0x1800) 0 (some 9) none)] fun d => zeros { d with clock := 9 }
    ImageAt s 0 k.ctx 0x1000 (List.replicate 4112 0) ∧ s.dev.job? 400 = some (job 400 (.fx (.ftload 3 0x1000) (some []))) ∧
      s.dev.ctx? 0 = some k.ctx ∧ ImageAt d 0 k.ctx 0x1800 (List.replicate 2048 0) ∧
      d.dev.runningTile 0 = some (job 400 (.tile (.dload 0x1800) 0 (some 9) none), .dload 0x1800, 0, 9, none) := by
  have h1 : ∀ sp ∈ spans 32 0x1000 4112, sp.va = 0x1000 + sp.off ∧ sp.off % 32 = 0 ∧ 0 < sp.n ∧ sp.n ≤ 32 ∧ sp.off + sp.n ≤ 4112 := by decide
  have h2 : ∀ sp ∈ spans 32 0x1800 2048, sp.va = 0x1800 + sp.off ∧ sp.off % 32 = 0 ∧ 0 < sp.n ∧ sp.n ≤ 32 ∧ sp.off + sp.n ≤ 2048 := by decide
  refine ⟨fun sp h => ⟨sp.va, zeros_place _ 0 _ _ rfl rfl rfl ?_ ?_, ?_, ?_⟩, rfl, rfl,
    fun sp h => ⟨sp.va, zeros_place _ 0 _ _ rfl rfl rfl ?_ ?_, ?_, ?_⟩, rfl⟩
  all_goals rw [List.length_replicate] at h
  case refine_4 =>
    have := h1 sp h
    rw [zeros_read _ _ _ _ rfl rfl rfl (by omega) (by omega) (by omega) (by omega) (by omega), List.drop_replicate, List.take_replicate,
      min_eq_left (by omega)]
  case refine_8 =>
    have := h2 sp h
    rw [zeros_read _ _ _ _ rfl rfl rfl (by omega) (by omega) (by omega) (by omega) (by omega), List.drop_replicate, List.take_replicate,
      min_eq_left (by omega)]
  all_goals first | (have := h1 sp h; omega) | (have := h2 sp h; omega)

/-- A communicator of two ranks, the second on another package, its queue 0, a descriptor and its 64 bytes: an all-reduce of two
elements, DONE and STATUS words at 0x1040 and 0x1048. -/
noncomputable def comm : Comm := ⟨2, 0, [⟨0, 0, 0⟩, ⟨Config.package + 1, 0, 0⟩], 0, 7⟩
noncomputable def cqueue : CollQueue := ⟨0, 0, comm, []⟩
def descBytes (done status : Nat) : List Byte :=
  leBytes 8 0x1080 ++ leBytes 8 0x1090 ++ leBytes 8 0 ++ leBytes 8 done ++ leBytes 8 5 ++ leBytes 4 2 ++ leBytes 4 64 ++
    leBytes 8 0x00FF000000000000 ++ leBytes 8 status

/-- The page with a descriptor at 0x1000 and a counter word at 0x1040. -/
noncomputable def posting (word : Nat) (f : Dev → Dev) (d : Dev) : Dev := f (page { d with
  mem := cellWrite (cellWrite [] 0x1000 (descBytes 0x1040 0x1048)) 0x1040 (leBytes 8 word), queues := [cqueue] })
noncomputable def coll (f : Coll → Coll) : Coll :=
  f ⟨400, 0, 0, 0, 0, comm, Desc.parse (descBytes 0x1040 0), 3, none, 0, false, false, none, [], [], [], [], [], [], [], [], [], [], []⟩

/-- CollectiveInstructions: a record in memory with writable words, 63 posted; a counter that has just reached its threshold, and one
short of it; part of a wave; a misaligned record; a queue that does not exist. -/
theorem witness_collective_instructions :
    let l : List Word := [0x1000, 0x1040, 7, 0x1001]
    let k := sel (holding l wave) blk 0xFF
    let s (word : Nat) : State := one (holding l wave) blk 0xFF (posting word fun d =>
      { d with colls := (List.range 63).map fun i => coll fun c => { c with id := 400 + i } })
    let c := Desc.parse (descBytes 0x1040 0x1048)
    (MayIssueJob (s 7) k ∧ RecordAt (s 7) k (k.rd 4).toNat 64 (descBytes 0x1040 0x1048)) ∧ (s 7).dev.queue? 0 (0#4).toNat = some cqueue ∧
      descOk (descBytes 0x1040 0x1048) cqueue.comm.size false = true ∧ descOk (descBytes 0x1040 0x1048) cqueue.comm.size true = true ∧
      c.queue = 0 ∧ WordOk (s 7) k c.done ∧ WordOk (s 7) k c.status ∧ (s 7).dev.queueLength 0 0 = 63 ∧
      (s 7).dev.checkGlobal k.core k.ctx (k.rd 5).toNat 8 needR false = .ok (.glob 0x1040) ∧
      (s 7).dev.readGlob k.ctx.n 0x1040 8 = (leBytes 8 7, true) ∧ (s 6).dev.readGlob k.ctx.n 0x1040 8 = (leBytes 8 6, true) ∧
      (k.rd 6).toNat % 2 ^ 48 = leNat (leBytes 8 7) % 2 ^ 48 ∧ leNat (leBytes 8 6) % 2 ^ 48 < (k.rd 6).toNat % 2 ^ 48 ∧
      ((s 7).dev.triggers.filter (·.ctx == 0)).length < 64 ∧
      ((one wave blk 0x7F id).dev.issuer? = some (sel wave blk 0x7F) ∧ 0x7F ≠ wave.liveMask) ∧ (k.rd 7).toNat % 64 ≠ 0 ∧
      (s 7).dev.queue? 0 (1#4).toNat = none ∧ (let w := { holding l wave with tvec := 0x2000 }
        (one w blk 0xFF (posting 7 id)).dev.issuer? = some (sel w blk 0xFF) ∧ w.tvec ≠ 0 ∧ w.inHandler = false) := by
  refine ⟨⟨⟨rfl, by decide, by decide, by decide⟩, by decide, 0x1000, by decide, by decide⟩, rfl, by decide, by decide, by decide, Or.inr ⟨_, rfl⟩, Or.inr ⟨_, rfl⟩, by decide, rfl,
    by decide, by decide, by decide, by decide, by decide, ⟨rfl, by decide⟩, by decide, rfl, rfl, by decide, rfl⟩

/-- CollectiveSteps: a collective at the head of its queue, before its first step and in it; a barrier; a chunk that a buffer is
free for; a chunk of 4 bytes that was asked for; words that can be written; a last step that is done; ranks of one package of
which one has no record; a READY that waits for its collective. -/
theorem witness_collective_steps :
    let s (c : Coll) : State := one wave blk 0xFF (posting 7 fun d => { d with colls := [c], jobs := [job 400 (.coll 400)] })
    let c0 := coll id
    let bar := coll fun c => { c with desc := { c.desc with op := 4, count := 0 }, begun := true }
    let c1 := coll fun c => { c with begun := true }
    let both := coll fun c => { c with comm := ⟨2, 0, [⟨Config.package, 0, 0⟩, ⟨Config.package, 0, 9⟩], 0, 7⟩ }
    let note : Egress := ⟨9, none, 1, ⟨0, 7, Config.package, 1, 0, .ready 401 1 5⟩, some (0, 0, 0)⟩
    let none_ := coll fun c => { c with desc := { c.desc with count := 0 } }
    let own := coll fun c => { c with begun := true, step := 1, kept := true, sent := [0], got := [0] }
    ((s c0).dev.coll? 400 = some c0 ∧ (s c0).dev.job? 400 = some (job 400 (.coll 400)) ∧
      ((s c0).dev.colls.find? fun y => y.ctx == c0.ctx && y.q == c0.q).map (·.id) = some 400 ∧
      (s c0).dev.disagrees c0 = false ∧ ∃ x rest, collSteps c0.desc 2 0 = x :: rest ∧ x.sendTo = some 1) ∧
    (bar.wantsReady = true ∧ c1.wantsReady = true ∧ own.wantsReady = false) ∧
    ((s both).dev.disagrees both = true ∧ (s both).dev.coll? 400 = some both ∧ both.step < both.steps.length) ∧
    (one wave blk 0xFF (posting 7 fun d => { d with colls := [c0], egress := [note] })).dev.egress = [note] ∧
    (InStep (s bar) bar bar.now ∧ bar.now.recvFrom = some 1 ∧ bar.desc.op = 4) ∧
    (InStep (s c1) c1 c1.now ∧ c1.now.recvFrom = some 1 ∧ c1.now.sendTo = some 1 ∧ c1.desc.op ≠ 4 ∧ c1.chunks c1.now.recv ≤ 1 ∧
      NoWaits (s c1) c1 ∧ (s c1).dev.recvHeld 0 + c1.buffer c1.now.recv 0 ≤ 8 * 2 ^ 20 ∧
      (s c1).dev.sendHeld 0 + c1.buffer c1.now.send 0 ≤ 2 * 2 ^ 20) ∧
    (memOk (s c0) ∧ c0.desc.status = 0 ∧ NothingOwed (s c0) 0 ∧ none_.desc.recvElems none_.comm.size = 0 ∧ DeviceAt (s c0) 0 0x1048 0x1048 8 ∧ DeviceAt (s c0) 0 0x1040 0x1040 8 ∧ c0.desc.done = 0x1040) ∧
    (own.step + 1 = own.steps.length ∧ own.begun = true ∧ own.desc.resid = false ∧ (s own).dev.nearPosts own ≠ none) := by
  refine ⟨⟨rfl, rfl, by decide, ?_, _, _, rfl, rfl⟩, ⟨rfl, rfl, rfl⟩, ⟨?_, rfl, by decide⟩, rfl, ⟨⟨rfl, rfl, rfl⟩, by decide, rfl⟩,
    ⟨⟨rfl, rfl, rfl⟩, by decide, by decide, by decide, by decide, ?_, by decide, by decide⟩,
    ⟨⟨by decide, fun m h => absurd h (by simp [one, posting, page, Dev.reset])⟩, rfl,
      nothing_owed _ _ rfl rfl, by decide, ⟨nothing_owed _ _ rfl rfl, _, rfl, rfl, rfl, ?_⟩, ⟨nothing_owed _ _ rfl rfl, _, rfl, rfl, rfl, ?_⟩, rfl⟩, by decide, rfl, rfl, ?_⟩
  · simp [Dev.disagrees, nearRank, coll, comm, List.range, List.range.loop]
  · simp [Dev.disagrees, nearRank, Dev.rankQueue, ofNumber, coll, one, posting, cqueue, comm, page, List.range, List.range.loop]
  · intro x h
    rw [List.mem_singleton.mp (show x ∈ [coll fun c => { c with begun := true }] from h)]
    exact ⟨rfl, rfl⟩
  rotate_right
  · simp [Dev.nearPosts, nearRank, coll, comm, List.range, List.range.loop]
  all_goals
    intro i hi
    rw [List.mem_singleton.mp (show i ∈ [130] from hi)]
    decide
/-! ## Work, continuations -/

/-- The page at 0x1000 with its first 512 bytes written. -/
def desk (cells : List Host.Cell) (d : Dev) : Dev :=
  { page d with mem := cells, sectors := (List.range 16).map fun i => ⟨128 + i, 0, 0⟩ }
theorem desk_sound (f : Dev → Dev) (w : Wave) (b : Block) (g : StrandMask) (n : Nat) (pa : Nat)
    (hs : (f { Dev.reset with latch := some ⟨w.id, g⟩, waves := [w], blocks := [b], ctxs := [probeCtx] }).sectors =
      (List.range 16).map fun i => ⟨128 + i, 0, 0⟩)
    (hk : Dev.keyOf (f { Dev.reset with latch := some ⟨w.id, g⟩, waves := [w], blocks := [b], ctxs := [probeCtx] }) 0 = 0)
    (hp : ∀ i ∈ sectorsOf pa n, i ∈ (List.range 16).map (128 + ·)) : Sound (one w b g f) 0 pa n := by
  intro i hi
  have h := hp i hi
  simp only [one, Dev.sectorOk, Dev.flawAt, Dev.sector?, hs, hk]
  fin_cases h <;> exact ⟨nofun, rfl⟩

/-- A launch record of a 2 × 3 × 1 grid with its completion object at 0x1080, and a launch of it. -/
def recBytes : List Byte :=
  leBytes 8 0x2000 ++ leBytes 8 7 ++ leBytes 4 2 ++ leBytes 4 3 ++ leBytes 4 1 ++ leBytes 1 0 ++ leBytes 1 2 ++ leBytes 1 1 ++ leBytes 1 0 ++
    leBytes 4 1024 ++ leBytes 4 0 ++ leBytes 4 0 ++ leBytes 4 0 ++ leBytes 8 64 ++ leBytes 8 0x3000 ++ leBytes 8 0x1080 ++ leBytes 8 0 ++
    leBytes 8 0 ++ leBytes 8 0 ++ List.replicate 32 0
def launch (f : Launch → Launch) : Launch :=
  f ⟨500, 0, LaunchRec.parse recBytes, 1, 6, false, false, [], 4, none, true, 6, 0, 0, 0, none, [], none⟩

/-- WorkInstructions: depths 7 and 8; a child without and with a launch; a record in memory with its object; a misaligned operand; a
handle that nobody has, of a launch and of a graph. -/
theorem witness_work_instructions :
    let w := holding [0x1000, 0x1080, 0x1100, 0x1001] { wave with tvec := 0x2000 }
    let b (l : Option Nat) : Block := { blk with depth := 7, launch := l }
    let s (l : Option Nat) : State := one w (b l) 0xFF (desk (cellWrite [] 0x1000 recBytes))
    let t : State := one w (b (some 500)) 0xFF fun d => desk [] { d with
      launches := [launch id], levels := [⟨0, 0x1100, .graph, 2, false, false, 0, 0⟩] }
    let k (l : Option Nat) := sel w (b l) 0xFF
    ((s none).dev.issuer? = some (k none) ∧ (s none).dev.settled (k none) = true ∧ (k none).rd 4 = 0x1000 ∧ (k none).gang = (k none).wave.liveMask) ∧
    (t.dev.issuer? = some (k (some 500)) ∧ t.dev.launch? 500 = some (launch id) ∧ memOk t ∧ DeviceAt t 0 (launch id).record.comp 0x1080 16) ∧
    (memOk (s none) ∧ 0x1000 % 64 = 0 ∧ BytesAt (s none) (k none) 0x1000 128 recBytes ∧ launchOk recBytes = true ∧ Plain (LaunchRec.parse recBytes) ∧
      (∃ l, (s none).dev.checkGlobal 0 probeCtx (LaunchRec.parse recBytes).comp 16 needRW false = .ok l) ∧
      DeviceAt (s none) 0 (LaunchRec.parse recBytes).comp 0x1080 16) ∧
    ((one w { blk with depth := 8 } 0xFF id).dev.issuer? = some (sel w { blk with depth := 8 } 0xFF) ∧ 8 ≤ ({ blk with depth := 8 } : Block).depth) ∧
    ((one wave blk 0x7F id).dev.issuer? = some (sel wave blk 0x7F) ∧ 0x7F ≠ wave.liveMask) ∧ ((k none).rd 7).toNat % 64 ≠ 0 ∧ ((k none).rd 7).toNat % 16 ≠ 0 ∧
    t.dev.unitPlace 0 probeCtx 0x1080 needR = .ok (.glob 0x1080) ∧ (launch id).cancelled = false ∧
    (t.dev.launches.find? (fun x => x.ctx == 0 && x.record.comp == 0x1000) = none ∧ t.dev.level? 0 0x1000 = none) ∧
    (t.dev.launches.find? (fun x => x.ctx == 0 && x.record.comp == ((k none).rd 5).toNat) = some (launch id) ∧
      (launch id).next = (launch id).record.blocks ∧ (launch id).count ≠ 0 ∧ t.dev.pending = [] ∧ (∀ y ∈ t.dev.launches, (500 : Nat) ∉ y.preds) ∧
      t.dev.level? 0 (launch id).record.graph = none ∧ Handled t 500) ∧
    (∃ x, t.dev.level? 0 ((k none).rd 6).toNat = some x ∧ x.kind = .graph ∧ x.count ≠ 0 ∧ x.cancelled = false ∧ t.dev.level? 0 x.parent = none ∧
      (∀ y ∈ t.dev.levels, y.parent ≠ 0x1100) ∧ (∀ y ∈ t.dev.launches, y.record.graph ≠ 0x1100) ∧ DeviceAt t 0 0x1100 0x1100 16) := by
  refine ⟨⟨rfl, by decide, by decide, by decide⟩, ⟨rfl, rfl, ⟨rfl, nofun⟩, ⟨nothing_owed _ _ rfl rfl, _, rfl, rfl, rfl, desk_sound _ _ _ _ _ _ rfl rfl (by decide)⟩⟩,
    ⟨⟨by decide, nofun⟩, by decide, ⟨0x1000, by decide, by decide⟩, by decide, ⟨rfl, rfl, rfl⟩, ⟨_, rfl⟩, ⟨nothing_owed _ _ rfl rfl, _, rfl, rfl, rfl, desk_sound _ _ _ _ _ _ rfl rfl (by decide)⟩⟩,
    ⟨rfl, by decide⟩, ⟨rfl, by decide⟩, by decide, by decide, rfl, rfl, ⟨rfl, rfl⟩, ⟨by decide, by decide, by decide, rfl, by decide, rfl, by decide, ?_⟩,
    ⟨_, rfl, rfl, by decide, rfl, rfl, by decide, by decide, ⟨nothing_owed _ _ rfl rfl, _, rfl, rfl, rfl, desk_sound _ _ _ _ _ _ rfl rfl (by decide)⟩⟩⟩
  intro x h _
  rw [List.mem_singleton.mp (show x ∈ [holding [0x1000, 0x1080, 0x1100, 0x1001] { wave with tvec := 0x2000 }] from h)]
  decide

/-- WorkSteps: the last block of a grid to be placed; launches with and without predecessors and a window just over; the last but one item of a
launch, and the last; strands that have triggered or exited; a deadline that has come, with and without a live wave; a wave that is to enter its handler; a strand that has
waited for 2 to the 28 cycles. -/
theorem witness_work_steps :
    let s (l : Launch) : State := { State.reset with dev := { Dev.reset with launches := [l], ctxs := [probeCtx], clock := 4804 } }
    let open_ := launch fun l => { l with next := 5 }
    let gone : Block := { blk with launch := some 500, trigOps := some [], deadline := some 4804 }
    let e (l : Launch) : State := { State.reset with dev := desk [] { Dev.reset with launches := [l], ctxs := [probeCtx], blocks := [gone], clock := 4804 } }
    let w : Wave := { strandAt { wave with tvec := 0x2000, entry := true } 7 fun x => { x with waiting := some ⟨0, .numBar 3⟩ } with
      strands := (strandAt wave 7 fun x => { x with waiting := some ⟨0, .numBar 3⟩ }).strands }
    let z (t : Nat) : State := { State.reset with dev := { Dev.reset with waves := [w], blocks := [blk], clock := t } }
    ((s open_).dev.coreOpen 895 = true ∧ open_.next < open_.record.blocks ∧ (s open_).dev.ctxOpen 0 = true ∧ open_.record.teamsz = 0 ∧
      (s open_).dev.fits 895 open_.record.footprint = true ∧ 1 ≤ open_.record.regs ∧ open_.released = true ∧ open_.preds = []) ∧
    ((s open_).dev.launch? 500 = some open_ ∧ open_.window = none ∧ (launch fun l => { l with preds := [9] }).preds ≠ [] ∧
      (launch fun l => { l with window := some 4 }).window = some 4 ∧ 4 + 4800 ≤ (s open_).dev.clock) ∧
    (∀ l, (e l).dev.block? 256 = some gone ∧ (e l).dev.liveWaves 256 = [] ∧ (e l).dev.holdsBlock 256 = false ∧ (e l).dev.ctx? 0 = some probeCtx ∧
      probeCtx.preempt = none ∧ memOk (e l) ∧ (e l).dev.blockWaves 256 = [] ∧ DeviceAt (e l) 0 (launch id).record.comp 0x1080 16) ∧
    ((e (launch fun l => { l with count := 2 })).dev.launch? 500 = some (launch fun l => { l with count := 2 }) ∧ (launch id).coll = none ∧
      (e (launch fun l => { l with count := 1 })).dev.level? 0 (launch id).record.graph = none) ∧
    (gone.trigDone = false ∧ gone.deadline = some 4804 ∧ gone.susp = none ∧
      ({ z 4804 with dev := { (z 4804).dev with blocks := [gone] } } : State).dev.liveWaves 256 ≠ []) ∧
    ((z 0).dev.wave? 257 = some w ∧ (z 0).dev.block? w.block = some blk ∧ w.entry = true ∧ w.busy = false ∧ w.live = true ∧ blk.stopped = false ∧
      ((z 0).dev.core blk.core).claims.any (·.1 == w.id) = false ∧ w.tvec ≠ 0 ∧ (w.strands[7]?).bind (·.waiting) = some ⟨0, .numBar 3⟩ ∧
      0 + 2 ^ 28 ≤ (z (2 ^ 28)).dev.clock ∧ (z (2 ^ 28 - 1)).dev.clock < 0 + 2 ^ 28 ∧ (w.strands[0]?).bind (·.waiting) = none) := by
  refine ⟨by decide, by decide, fun l => ⟨rfl, rfl, rfl, rfl, rfl, ⟨rfl, nofun⟩, rfl, ⟨nothing_owed _ _ rfl rfl, _, rfl, rfl, rfl, ?_⟩⟩, ⟨rfl, rfl, rfl⟩, ⟨rfl, rfl, rfl, by decide⟩,
    ⟨rfl, rfl, rfl, by decide, by decide, rfl, by decide, by decide, by decide, by decide, by decide, by decide⟩⟩
  intro i hi
  rw [List.mem_singleton.mp (show i ∈ [132] from hi)]
  exact ⟨nofun, rfl⟩
/-- Bytes beside those written; bytes of sectors that the slot's key has written. -/
theorem cellRead_beside (m : List Host.Cell) (a b n : Nat) (bs : List Byte) (h : b + n ≤ a ∨ a + bs.length ≤ b) :
    cellRead (cellWrite m a bs) b n = cellRead m b n := by
  induction n generalizing b with
  | zero => rfl
  | succ n ih =>
    simp only [cellRead]
    rw [cellGet_cellWrite_outside _ _ _ _ (by omega), ih _ (by omega)]
theorem read_known (d : Dev) (slot a n : Nat) (hn : 0 < n)
    (h : ∀ j, a / 32 ≤ j → j ≤ (a + n - 1) / 32 → d.sector? j = some ⟨j, d.keyOf slot, 0⟩) :
    d.readGlob slot a n = (cellRead d.mem a n, true) := by
  have bytes : ∀ n b, a ≤ b → (∀ j, b / 32 ≤ j → j ≤ (b + n - 1) / 32 → d.sector? j = some ⟨j, d.keyOf slot, 0⟩) →
      bytesFrom (d.byteAt slot) b n = cellRead d.mem b n := by
    intro n
    induction n with
    | zero => intros; rfl
    | succ n ih =>
      intro b hb h
      simp only [bytesFrom, cellRead, Dev.byteAt, h (b / 32) (le_refl _) (by omega), if_true]
      rw [show bytesFrom _ (b + 1) n = _ from ih (b + 1) (by omega) fun j h1 h2 => h j (by omega) (by omega)]
  simp only [Dev.readGlob, bytes n a (le_refl _) h, Prod.mk.injEq, true_and, List.all_eq_true, sectorsOf, List.mem_map, List.mem_range]
  rintro j ⟨i, hi, rfl⟩
  simp [Dev.sectorOk, Dev.flawAt, h (i + a / 32) (by omega) (by omega)]

/-- A context with its continuation table at 0x1200, and a state of it; the word of slot 1 with generation 5. -/
def xc : Ctx := { probeCtx with ctab := 0x1200 }
def shop (cells : List Host.Cell) (d : Dev) : Dev :=
  { page d with mem := cells, sectors := (List.range 20).map fun i => ⟨128 + i, 0, 0⟩, ctxs := [xc] }
def ident : Nat := 1 + 5 * 2 ^ 20
def slotAs (st : Nat) : List Host.Cell := cellWrite [] 0x1208 (leBytes 8 (5 * 2 ^ 20 + st))
theorem slotAs_wf (st : Nat) : Memory.wf (slotAs st) = true := wf_cellWrite _ _ _ rfl
theorem shop_known (d : Dev) (hm : ∃ e m, d = shop m e ∧ e.keys = [] ∧ e.keyBase = 0) (j : Nat) (h1 : 128 ≤ j) (h2 : j ≤ 147) :
    d.sector? j = some ⟨j, d.keyOf 0, 0⟩ := by
  obtain ⟨e, m, rfl, hk, hb⟩ := hm
  have : (shop m e).keyOf 0 = 0 := by simp [Dev.keyOf, shop, page, hk, hb]
  rw [this]
  interval_cases j <;> rfl

/-- The header of an object of no wave at 0x1000, before its seal and with it. -/
def plainHead : List Byte := leBytes 4 0x52424D45 ++ leBytes 2 1 ++ leBytes 2 0 ++ leBytes 8 ident ++ leBytes 16 0 ++ List.replicate 0x78 0 ++
  leBytes 8 256 ++ List.replicate 0x60 0
def head : List Byte := sealHeader 0 plainHead
theorem seal_seal (key : Nat) (h : List Byte) (hl : h.length = 256) : sealHeader key (sealHeader key h) = sealHeader key h := by
  have t : (sealHeader key h).take 0x18 = h.take 0x18 := by
    simp [sealHeader, List.length_take, hl]
  have u : ((sealHeader key h).drop 0x20).take 0xE0 = (h.drop 0x20).take 0xE0 := by
    simp [sealHeader, List.drop_append, List.length_take, leBytes_length, hl, List.drop_eq_nil_of_le]
  rw [show sealHeader key (sealHeader key h) = (sealHeader key h).take 0x18 ++ leBytes 8 (cmac64 (Config.sealKey key)
    ((sealHeader key h).take 0x18 ++ leBytes 8 0 ++ ((sealHeader key h).drop 0x20).take 0xE0)).toNat ++
    ((sealHeader key h).drop 0x20).take 0xE0 from rfl, t, u]
  rfl
theorem head_length : head.length = 256 := rfl
theorem head_ok : headerOk xc head = true := by
  have s : sealHeader xc.sealKey head = head := seal_seal 0 plainHead rfl
  unfold headerOk
  rw [s]
  simp only [beq_self_eq_true, Bool.and_true]
  rfl
/-- A memory with the sealed header and slot 1 in a state. -/
def sealed (st : Nat) : List Host.Cell := cellWrite (slotAs st) 0x1000 head
theorem shelf_reads (e : Dev) (hk : e.keys = []) (hb : e.keyBase = 0) (st : Nat) (h : List Byte) (hl : h.length = 256) :
    (shop (cellWrite (slotAs st) 0x1000 h) e).readGlob 0 0x1000 256 = (h, true) ∧
    (shop (cellWrite (slotAs st) 0x1000 h) e).readGlob 0 0x1208 8 = (cellRead (slotAs st) 0x1208 8, true) ∧
    (shop (cellWrite (slotAs st) 0x1000 h) e).readGlob 0 0x1200 8 = (cellRead (slotAs st) 0x1200 8, true) := by
  have k := shop_known _ ⟨e, cellWrite (slotAs st) 0x1000 h, rfl, hk, hb⟩
  have m : (shop (cellWrite (slotAs st) 0x1000 h) e).mem = cellWrite (slotAs st) 0x1000 h := rfl
  have own := cellRead_cellWrite (slotAs st) 0x1000 h (slotAs_wf st)
  rw [hl] at own
  refine ⟨?_, ?_, ?_⟩
  · rw [read_known _ _ _ _ (by decide) fun j h1 h2 => k j (by omega) (by omega), m, own]
  all_goals
    rw [read_known _ _ _ _ (by decide) fun j h1 h2 => k j (by omega) (by omega), m, cellRead_beside _ _ _ _ _ (Or.inr (by omega))]
theorem sealed_wf (st : Nat) : Memory.wf (sealed st) = true := wf_cellWrite (slotAs st) 0x1000 head (slotAs_wf st)
theorem sealed_reads (e : Dev) (hk : e.keys = []) (hb : e.keyBase = 0) (st : Nat) :
    (shop (sealed st) e).readGlob 0 0x1000 256 = (head, true) ∧
    (shop (sealed st) e).readGlob 0 0x1208 8 = (cellRead (slotAs st) 0x1208 8, true) ∧
    (shop (sealed st) e).readGlob 0 0x1200 8 = (cellRead (slotAs st) 0x1200 8, true) := shelf_reads e hk hb st head head_length
theorem shop_sound (e : Dev) (m : List Host.Cell) (hk : e.keys = []) (hb : e.keyBase = 0) (f : State) (hf : f.dev = shop m e) (pa n : Nat)
    (h : ∀ i ∈ sectorsOf pa n, 128 ≤ i ∧ i ≤ 147) : Sound f 0 pa n := by
  intro i hi
  have := shop_known _ ⟨e, m, rfl, hk, hb⟩ i (h i hi).1 (h i hi).2
  rw [hf, this]
  exact ⟨nofun, by simp [Dev.sectorOk, Dev.flawAt, this]⟩

/-- The issue of a gang of context `xc`. -/
def selx (w : Wave) (b : Block) (g : StrandMask) : Issue := { sel w b g with ctx := xc }

/-- ContinuationInstructions, `susp`: a wave that another one does not join, and the one live wave; part of a wave; a misaligned object; a
team's block. -/
theorem witness_susp :
    let w := holding [0x1000, 0x1080] wave
    let two : State := one w blk 0xFF fun d => { d with waves := d.waves ++ [{ wave with id := 258 }] }
    let lone : State := one w blk 0xFF id
    let team : Block := { blk with team := some 9 }
    let k := sel w blk 0xFF
    (two.dev.issuer? = some k ∧ (k.rd 4).toNat % 256 = 0 ∧ false = blk.team.isSome ∧ blk.susp = none) ∧
    (∃ b ∈ two.dev.suspGroup blk, ∃ y ∈ two.dev.liveWaves b.id, y.id ≠ w.id ∧ y.susp = none) ∧
    (lone.dev.issuer? = some k ∧ (∀ y ∈ lone.dev.liveWaves blk.id, y.id = w.id) ∧ w.live = true ∧ (∀ j ∈ lone.dev.jobs, j.block ≠ blk.id)) ∧
    ((one wave blk 0x7F id).dev.issuer? = some (sel wave blk 0x7F) ∧ 0x7F ≠ wave.liveMask) ∧ (k.rd 5).toNat % 256 ≠ 0 ∧
    ((one w team 0xFF id).dev.issuer? = some (sel w team 0xFF) ∧ team.team ≠ none ∧ blk.team = none) :=
  ⟨⟨rfl, by decide, rfl, rfl⟩, ⟨blk, List.mem_singleton.mpr rfl, { wave with id := 258 }, List.mem_cons_of_mem _ (List.mem_singleton.mpr rfl), nofun, rfl⟩,
    ⟨rfl, fun y h => by rw [List.mem_singleton.mp (show y ∈ [holding [0x1000, 0x1080] wave] from h)], by decide, fun j h => nomatch (show j ∈ ([] : List Job) from h)⟩,
    ⟨rfl, by decide⟩, by decide, ⟨rfl, nofun, rfl⟩⟩

/-- The wave that holds the addresses and the identity. -/
def keeper : Wave := holding [0x1000, BitVec.ofNat 64 ident, 0x1100] { wave with tvec := 0x2000 }
def keeps (m : List Host.Cell) : State := one keeper blk 0xFF (shop m)
theorem keeps_issuer (m : List Host.Cell) : (keeps m).dev.issuer? = some (selx keeper blk 0xFF) := rfl
theorem keeps_ok (m : List Host.Cell) (h : Memory.wf m = true) : memOk (keeps m) := ⟨h, fun m h => nomatch (show m ∈ ([] : List LocMem) from h)⟩
theorem keeps_places (m : List Host.Cell) : ∀ i < 256, (keeps m).dev.unitPlace (selx keeper blk 0xFF).core (selx keeper blk 0xFF).ctx
    (((selx keeper blk 0xFF).rd 4).toNat + i) needR = .ok (.glob (0x1000 + i)) := by
  intro i hi
  have hv : (0x1000 + i) / 4096 = 1 := by omega
  have hit : (keeps m).dev.tlbHit 0 0 (0x1000 + i) = some (⟨0, 0, 4096, 1, 0, ⟨0x1000, none, true, true, true⟩⟩,
      ⟨0x1000 + (0x1000 + i) % 4096 / 4096 * 4096, none, true, true, true⟩) := by
    simp [Dev.tlbHit, TlbEntry.covers, keeps, one, shop, page, hv]
  rw [show ((selx keeper blk 0xFF).rd 4).toNat = 0x1000 by decide, show (selx keeper blk 0xFF).core = 0 from rfl,
    show (selx keeper blk 0xFF).ctx = xc from rfl]
  simp only [Dev.unitPlace, Dev.access, Dev.translate, show xc.n = 0 from rfl, hit, if_neg (show ¬ 2 ^ 56 ≤ 0x1000 + i by omega)]
  simp [Leaf.loc]
  omega
theorem keeps_settled (m : List Host.Cell) : (keeps m).dev.settled (selx keeper blk 0xFF) = true := rfl
theorem keeps_dev (m : List Host.Cell) : ∃ e : Dev, (keeps m).dev = shop m e ∧ e.keys = [] ∧ e.keyBase = 0 := ⟨_, rfl, rfl, rfl⟩

/-- ContinuationInstructions, `resume` and `cdrop`: a sealed header and its slot in each state; a header that fails its checks. -/
theorem witness_resume (st : Nat) :
    (keeps (sealed st)).dev.issuer? = some (selx keeper blk 0xFF) ∧ (keeps (sealed st)).dev.settled (selx keeper blk 0xFF) = true ∧
    memOk (keeps (sealed st)) ∧ RecordAt (keeps (sealed st)) (selx keeper blk 0xFF) ((selx keeper blk 0xFF).rd 4).toNat 256 head ∧
    headerOk xc head = true ∧ field head 0x22 1 = 0 ∧ field head 0x23 1 = 0 ∧
    ((selx keeper blk 0xFF).rd 5).toNat = field head 8 8 ∧ (st < 4 → SlotAt (keeps (sealed st)) xc (field head 8 8) 0x1208 st) ∧
    Takes (selx keeper blk 0xFF) ∧ headerOk xc (List.replicate 256 0) = false ∧
    RecordAt (keeps []) (selx keeper blk 0xFF) ((selx keeper blk 0xFF).rd 4).toNat 256 (List.replicate 256 0) := by
  obtain ⟨e, he, hk, hb⟩ := keeps_dev (sealed st)
  obtain ⟨r1, r2, _⟩ := sealed_reads e hk hb st
  refine ⟨keeps_issuer _, keeps_settled _, keeps_ok _ (sealed_wf st), ⟨by decide, 0x1000, keeps_places _, ?_⟩, head_ok, rfl, rfl, rfl,
    fun h => ⟨by decide, rfl, ?_, ?_⟩, ⟨by decide, rfl⟩, rfl, ⟨by decide, 0x1000, keeps_places _, ?_⟩⟩
  · rw [he]; exact r1
  · exact shop_sound e (sealed st) hk hb _ he _ _ (by decide)
  · rw [he, show xc.n = 0 from rfl, r2]
    interval_cases st <;> rfl
  · obtain ⟨e, he, hk, hb⟩ := keeps_dev []
    have k := shop_known _ ⟨e, [], rfl, hk, hb⟩
    rw [he, show (selx keeper blk 0xFF).ctx.n = 0 from rfl, read_known _ _ _ _ (by decide) fun j h1 h2 => k j (by omega) (by omega)]
    rfl

/-- ContinuationInstructions, `cclone`: a place beside the object, and a free slot. -/
theorem witness_cclone :
    ((selx keeper blk 0xFF).rd 6).toNat % 256 = 0 ∧ ((selx keeper blk 0xFF).rd 4).toNat + field head 0x98 8 ≤ ((selx keeper blk 0xFF).rd 6).toNat ∧
    (keeps (sealed 1)).dev.cp 257 < 30 ∧ ((keeps (sealed 1)).dev.jobs.filter (·.ctx == 0)).length < 1024 ∧
    (keeps (sealed 1)).dev.freeSlot xc (2 ^ 20) 0 = .ok (some (0, 0)) ∧ (keeps (sealed 1)).dev.slotPlace xc 0 = .ok (.glob 0x1200) ∧
    Sound (keeps (sealed 1)) 0 0x1200 8 := by
  obtain ⟨e, he, hk, hb⟩ := keeps_dev (sealed 1)
  have place : (keeps (sealed 1)).dev.slotPlace xc 0 = .ok (.glob 0x1200) := rfl
  have total : field head 0x98 8 = 256 := rfl
  refine ⟨by decide, ?_, by decide, by decide, ?_, place, shop_sound e (sealed 1) hk hb _ he _ _ (by decide)⟩
  · rw [total]; decide
  · rw [show (2 ^ 20 : Nat) = 1048575 + 1 from rfl]
    unfold Dev.freeSlot
    rw [place]
    simp only [Dev.peekLoc]
    rw [show xc.n = 0 from rfl, he, (sealed_reads e hk hb 1).2.2]
    rfl
/-- A second page, on package 1, and the answers that writes there have had. -/
def far (d : Dev) (owner : Nat) : Dev := { d with
  tlb := d.tlb ++ [⟨0, 0, 4096, 2, 0, ⟨0x2000, some 1, true, true, true⟩⟩]
  inbox := (List.range 8).map fun i => (owner, farWrite + 32 * i, .done 5 []) }

/-- A block whose object of no wave is to be written for the last time, on package 1. -/
def closing (forced : Bool) : Sealing := ⟨0x2000, false, forced, ident, List.replicate 48 0, some 1000⟩
def leaving (forced : Bool) : Block := { blk with nwaves := 0, susp := some (.sealing (closing forced)) }
def preempted : Ctx := { xc with preempt := some ⟨0, 0x3000, 4096, 0, 256, 0, .ctx 0, true⟩ }
def leaves (forced : Bool) (x : Ctx) : State :=
  { State.reset with dev := { far (shop (slotAs 2) { Dev.reset with blocks := [leaving forced] }) 256 with ctxs := [x] } }
def left_ (forced : Bool) (x : Ctx) : State := { leaves forced x with dev := ((leaves forced x).dev.writeObjects x [leaving forced]).1 }
theorem written (forced : Bool) (x : Ctx) (hx : x = xc ∨ x = preempted) :
    ObjectWritten (leaves forced x) (leaving forced) x (closing forced) (left_ forced x).dev ∧ memOk (left_ forced x) ∧
      (left_ forced x).dev.block? 256 = some (leaving forced) ∧ SlotAt (left_ forced x) x ident 0x1208 slotResuming := by
  have done : ((leaves forced x).dev.writeObjects x [leaving forced]).2 = .done := by
    rcases hx with rfl | rfl <;> cases forced <;> decide +kernel
  have same : (left_ forced x).dev = ((leaves forced x).dev.writeObjects x [leaving forced]).1 := by simp only [left_]
  refine ⟨⟨?_, ?_, ?_, ?_, ?_, by rw [same, ← done]⟩, ⟨?_, ?_⟩, ?_, by decide, ?_, ?_, ?_⟩
  all_goals rcases hx with rfl | rfl <;> cases forced
  all_goals first | decide +kernel | (unfold Sound; decide +kernel)

theorem ok_of {ε α : Type} [DecidableEq α] {e : Except ε α} {y : α}
    (h : (match e with | .ok x => decide (x = y) | .error _ => false) = true) : e = .ok y := by
  cases e with
  | error => exact absurd h nofun
  | ok x => rw [of_decide_eq_true h]

/-- A resume that waits for placement, its object on package 1, which has sent it; a copy of an object that is to be made. -/
def resuming : State := { State.reset with dev := { far (shop (slotAs 2) Dev.reset) 400 with
  inbox := (List.range 8).map fun i => (400, 32 * i, .done 9 ((head.drop (32 * i)).take 32))
  pending := [.resume 400 0 0x2000 [ident] [⟨0, 0, 0, 0, 0, 0, 0⟩] 257 256 0xFF 7 0x1000] } }
def cloning : Job := { job 400 (.clone 0x1000 0x2000 ident 0xFF 0x1000) with foot := [⟨none, 0x1000, 0x1100, false⟩, ⟨none, 0x2000, 0x2100, true⟩] }
def clones : State := { State.reset with dev :=
  { far (shop (cellWrite (slotAs 2) 0x1000 plainHead) { Dev.reset with blocks := [blk], jobs := [cloning] }) 400 with ctxs := [xc] } }
def gathered : Dev := (clones.dev.reachFrom 0 xc 400 0 32 0x1000 256 0 1).1
def copied : List Byte := sealHeader 0 (plainHead.take 8 ++ leBytes 8 ident ++ (plainHead.drop 16).take 240) ++ plainHead.drop 256
def scattered : Dev := (gathered.reachWrite 0 xc 400 0x2000 0 copied).1

/-- ContinuationSteps: objects written, of a `susp` and of a forced save; a notice that has just ended; a resume and a clone. -/
theorem witness_continuation_steps :
    (∀ x, x = xc ∨ x = preempted → ∀ f, ObjectWritten (leaves f x) (leaving f) x (closing f) (left_ f x).dev ∧ memOk (left_ f x) ∧
      (left_ f x).dev.block? 256 = some (leaving f) ∧ SlotAt (left_ f x) x ident 0x1208 slotResuming) ∧
    ((closing false).forced = false ∧ (closing true).forced = true ∧ preempted.preempt.isSome = true) ∧
    (let b : Block := { blk with resident := false };
      let s : State := one wave b 0xFF fun d => { d with ctxs := [preempted] };
      s.dev.ctx? 0 = some preempted ∧ s.dev.clock = 0 ∧ s.dev.block? 256 = some b ∧ b ∈ s.dev.toForce 0 ∧ b.team = none) := by
  refine ⟨fun x hx f => written f x hx, by decide, rfl, rfl, rfl, by decide, rfl⟩
theorem askSpans_answered (d : Dev) (core : Nat) (x : Ctx) (owner clock base : Nat) (need : Need) (ask : Nat → Span → RemoteAsk) (l : List Span)
    (h : ∀ sp ∈ l, (d.reply? owner (base + sp.off)).isSome = true) : d.askSpans core x owner clock base need ask l = (d, true) := by
  unfold Dev.askSpans
  induction l with
  | nil => rfl
  | cons sp l ih =>
    have hs := h sp (List.mem_cons_self ..)
    have step : (match d.unitPlace core x sp.va need with
        | .ok (.remote pkg pa) =>
          let d := d.askFor owner (base + sp.off) x.n pkg pa clock (ask pa sp)
          (d, true && (d.reply? owner (base + sp.off)).isSome)
        | _ => (d, true)) = (d, true) := by
      split
      · simp [Dev.askFor, hs]
      · rfl
    refine Eq.trans (congrArg (fun q => List.foldl _ q l) ?_) (ih fun y hy => h y (List.mem_cons_of_mem _ hy))
    exact step
theorem readSpans_far (d : Dev) (core : Nat) (x : Ctx) (owner base lease t : Nat) (f : Nat → List Byte) : ∀ (l : List Span) (c : Nat),
    c ≤ t → (∀ sp ∈ l, d.unitPlace core x sp.va needR = .ok (.remote 1 sp.va)) →
    (∀ sp ∈ l, d.reply? owner (base + sp.off) = some (.done t (f sp.off))) →
    d.readSpans core x owner base lease c l = (d, .ok (if l = [] then c else t) (l.flatMap fun sp => f sp.off))
  | [], _, _, _, _ => rfl
  | sp :: l, c, hc, hp, hr => by
    have ih := readSpans_far d core x owner base lease t f l t (le_refl t) (fun y hy => hp y (List.mem_cons_of_mem _ hy))
      fun y hy => hr y (List.mem_cons_of_mem _ hy)
    simp only [Dev.readSpans, hp sp (List.mem_cons_self ..), hr sp (List.mem_cons_self ..), Nat.max_eq_right hc, ih]
    cases l <;> simp
theorem pieces (h : List Byte) (n : Nat) : (List.range n).flatMap (fun i => (h.drop (32 * i)).take 32) = h.take (32 * n) := by
  induction n with
  | zero => rfl
  | succ n ih => rw [List.range_succ, List.flatMap_append, ih, Nat.mul_succ, List.take_add]; simp
theorem resuming_reads : resuming.dev.reachFrom 0 xc 400 0 32 0x2000 256 7 1 = (resuming.dev, .ok 9 head) := by
  have l : spans 32 0x2000 256 = (List.range 8).map fun i => ⟨32 * i, 0x2000 + 32 * i, 32⟩ := by decide
  have hp : ∀ sp ∈ spans 32 0x2000 256, resuming.dev.unitPlace 0 xc sp.va needR = .ok (.remote 1 sp.va) := by
    intro sp h
    rw [l] at h
    fin_cases h <;> rfl
  have hr : ∀ sp ∈ spans 32 0x2000 256, resuming.dev.reply? 400 (0 + sp.off) = some (.done 9 ((head.drop sp.off).take 32)) := by
    intro sp h
    rw [l] at h
    fin_cases h <;> rfl
  unfold Dev.reachFrom Dev.reachList
  simp only [askSpans_answered _ _ _ _ _ _ _ _ _ fun sp h => by rw [hr sp h]; rfl, if_true]
  rw [readSpans_far _ _ _ _ _ _ 9 (fun o => (head.drop o).take 32) _ 7 (by decide) hp hr, l, List.flatMap_map, pieces, if_neg (by decide),
    List.take_of_length_le (by decide)]
  rfl
theorem resuming_rest : resuming.dev.reachFrom 0 xc 400 256 32 0x2100 0 9 1 = (resuming.dev, .ok 9 []) := by
  have l : spans 32 0x2100 0 = [] := by decide
  have a (f : Nat → Span → RemoteAsk) : resuming.dev.askSpans 0 xc 400 9 256 needR f [] = (resuming.dev, true) := rfl
  simp only [Dev.reachFrom, Dev.reachList, l, a, if_true, Dev.readSpans]
  rfl
theorem object_read (d : Dev) (core : Nat) (x : Ctx) (owner clock t a ident : Nat) (h : List Byte) (hok : headerOk x h = true)
    (hid : headerIdent h = ident) (hm : field h 0x23 1 = 0) (ht : headerTotal h = 256)
    (r : d.reachFrom core x owner 0 32 a 256 clock 1 = (d, .ok t h)) (e : d.reachFrom core x owner 256 32 (a + 256) 0 t 1 = (d, .ok t [])) :
    d.readObjects core x owner clock 0 [(a, ident)] = (d, .ok (t, [h])) := by
  have one : d.readObject core x owner 0 clock 0 a ident = (d, .ok (t, h)) := by
    simp [Dev.readObject, r, e, hok, hid, hm, ht]
  simp [Dev.readObjects, one]
theorem resuming_object : resuming.dev.readObjects 0 xc 400 7 0 [(0x2000, ident)] = (resuming.dev, .ok (9, [head])) :=
  object_read _ _ _ _ _ _ _ _ _ head_ok (by decide +kernel) (by decide +kernel) (by decide +kernel) resuming_reads resuming_rest
theorem witness_resume_placed :
    (resuming.dev.resumesAt 0).head? = some (.resume 400 0 0x2000 [ident] [⟨0, 0, 0, 0, 0, 0, 0⟩] 257 256 0xFF 7 0x1000) ∧
    resuming.dev.ctx? 0 = some xc ∧ resuming.dev.coreOpen 0 = true ∧ resuming.dev.launches = [] ∧
    resuming.dev.readObjects 0 xc 400 7 0 [(0x2000, ident)] = (resuming.dev, .ok (9, [head])) ∧ headerTeam head = 0 ∧
    parseObject head = some [] ∧ memOk resuming ∧ SlotAt resuming xc ident 0x1208 slotResuming := by
  refine ⟨by decide +kernel, rfl, by decide, rfl, resuming_object, rfl, rfl, ?_, ?_, ?_, ?_, ?_⟩
  · exact ⟨slotAs_wf 2, fun m h => nomatch (show m ∈ ([] : List LocMem) from h)⟩
  · decide
  · exact ok_of (by decide +kernel)
  · unfold Sound; decide +kernel
  · decide +kernel
theorem witness_cclone_done :
    clones.dev.job? 400 = some cloning ∧ cloning.kind = .clone 0x1000 0x2000 ident 0xFF 0x1000 ∧
    cloning.foot.head? = some ⟨none, 0x1000, 0x1000 + 256, false⟩ ∧ clones.dev.block? 256 = some blk ∧ clones.dev.ctx? 0 = some xc ∧
    cloning.entered = true ∧ cloning.after = [] ∧
    clones.dev.reachFrom blk.core xc 400 0 32 0x1000 256 cloning.clock 1 = (gathered, .ok 0 plainHead) ∧
    gathered.reachWrite blk.core xc 400 0x2000 0 copied = (scattered, .ok 5 []) ∧
    memOk { clones with dev := scattered } ∧ SlotAt { clones with dev := scattered } xc ident 0x1208 slotResuming := by
  have r : (clones.dev.reachFrom 0 xc 400 0 32 0x1000 256 0 1).2 = .ok 0 plainHead := by decide +kernel
  have w : (gathered.reachWrite 0 xc 400 0x2000 0 copied).2 = .ok 5 [] := by decide +kernel
  refine ⟨rfl, rfl, rfl, rfl, rfl, rfl, rfl, ?_, ?_, ?_, by decide, ?_, ?_, ?_⟩
  · show clones.dev.reachFrom 0 xc 400 0 32 0x1000 256 0 1 = _
    rw [gathered, ← r]
  · show gathered.reachWrite 0 xc 400 0x2000 0 copied = _
    rw [scattered, ← w]
  · unfold memOk; decide +kernel
  · exact ok_of (by decide +kernel)
  · unfold Sound; decide +kernel
  · decide +kernel
/-! ## Arbiters, fabric, the host port -/

/-- A device and what stands at rest beside it. -/
def rest (f : Dev → Dev) : State := { State.reset with dev := f Dev.reset }
def live (f : Dev → Dev) : State := { rest f with mgmt := { Mgmt.reset with phase := 6 } }

/-- Arbiters: a ready gang, a selection that stands, and a port that an instruction holds; a resting server with work whose deadline has come; one context with a piece to
issue; a mapped page and an unmapped one, by a table that is its own four upper levels; a resident line, clean and dirty; one line to carry. -/
theorem witness_arbiters :
    let idle : State := one wave blk 0xFF fun d => { page d with latch := none }
    let held : State := one wave blk 0xFF fun d => { d with latch := none, cores := [{ Core.reset 0 with busy := [5] }] }
    let x : Xfer := ⟨3, 32, 0, false⟩
    let v : Server := ⟨⟨0, .chan 3, 1, [10], [20], 0, 0, [], true⟩, [0], [7], [false]⟩
    let served : State := rest fun d => { d with servers := [v], xfers := [x], clock := 7 }
    let copying : State := one wave blk 0xFF fun d => { page d with jobs := [job 400 (.copy (copy 0 []))] }
    let c : Ctx := { probeCtx with root := 0x1000 }
    let tables : State := rest fun d => { d with
      ctxs := [c]
      sectors := [⟨128, 0, 0⟩]
      mem := cellWrite (cellWrite [] 0x1000 (leBytes 8 0x1001)) 0x1008 (leBytes 8 0x200F) }
    let line (o : Option Nat) : LlcLine := ⟨32, 0, 0, o, 5, 6⟩
    let cached (o : Option Nat) : State := rest fun d => { d with llc := [line o] }
    (idle.dev.latch = none ∧ idle.dev.servers = [] ∧ ((idle.dev.core 0).busy[0]?).getD 0 ≤ idle.dev.clock ∧ idle.dev.pruneYields.readyAt 0 0 ≠ [] ∧
      (∀ y ∈ idle.dev.pruneYields.readyAt 0 0, y.2.1.ctx = 0) ∧ (idle.dev.waves.map (·.id)).Nodup) ∧
    (one wave blk 0xFF id).dev.latch ≠ none ∧ (held.dev.latch = none ∧ held.dev.clock < ((held.dev.core 0).busy[0]?).getD 0) ∧
    (served.dev.server? 0 (.chan 3) = some v ∧ v.b = [0] ∧ v.d = [7] ∧ v.pending = [false] ∧ 7 ≤ served.dev.clock ∧ x ∈ served.dev.xfers) ∧
    (copying.dev.servers = [] ∧ ∃ n, copyWants 0 copying.dev.waitingPieces = [(0, n)]) ∧ copying.dev.ctx? 0 = some probeCtx ∧
    (tables.dev.ctx? 0 = some c ∧ tables.dev.walk c 0x1FFF = .ok ⟨0x2000, none, false, true, true⟩ ∧ tables.dev.walk c 0x2000 = .error cXlate) ∧
    (∀ o, (cached o).dev.line? 32 = some (line o)) ∧ copying.dev.line? 32 = none ∧ served.dev.xfers.filter (·.channel == 3) = [x] := by
  refine ⟨by decide +kernel, nofun, by decide +kernel, by decide +kernel, ⟨rfl, _, rfl⟩, rfl, ⟨rfl, ok_of (by decide +kernel), ?_⟩, fun o => rfl, rfl, by decide⟩
  exact show _ = Except.error cXlate from rfl

/-- Fabric: a request that has waited for just 2,400,000 cycles, and one cycle less; a load's; a home context and a write inside its
windows, outside, and outside the package; a port that is up with one flit to send, and two; a last flit, of a packet of one and of two,
with and without a home and the tag, and one out of its order; the collective that a message of a rank is for. -/
theorem witness_fabric :
    let r : Remote := ⟨300, none, some (9, 0, 32), 0, 1, 0x1000, .read 8, 0, some 0⟩
    let waits (t : Nat) : State := rest fun d => { d with remotes := [r], clock := t }
    let o : MemOp := load (.sent 300)
    let l : Remote := { r with op := some (300, 0), job := none }
    let loads : State := rest fun d => { d with remotes := [l], memops := [o] }
    let homes (fn : Nat) : State := rest fun d => { desk [] d with
      ctxs := [{ probeCtx with fn := fn }]
      tagHomes := [(7, 0)]
      ports := [⟨2, true, 0, [7], 0, false, 0, 0, []⟩] }
    let p (pa : Nat) : RemotePkt := ⟨1, 7, 2, 5, pa, .write [1, 2, 3, 4] [], 44⟩
    let e (n : Nat) : Egress := ⟨0, none, n, ⟨1, 7, 1, n, 16, .reply 44 .xlate⟩, none⟩
    let sends (n : Nat) : State := rest fun d => { d with egress := [e n], ports := [⟨2, true, 0, [7], 0, false, 0, 0, []⟩] }
    let f (tag seq : Nat) (first last : Bool) : FlitHead := ⟨1, tag, 3, first, last, Config.package, 5, 0, seq⟩
    let q (n : Nat) : Packet := ⟨1, 7, 5, n, 16, .reply 44 .xlate⟩
    let half (tag : Nat) : State := rest fun d => { d with
      ctxs := [probeCtx]
      tagHomes := [(7, 0)]
      ports := [⟨2, true, 0, [tag], 0, false, 0, 0, [(flitKey (f 7 0 true false), 1)]⟩] }
    let ranks : Comm := ⟨2, 0, [⟨0, 0, 0⟩, ⟨5, 0, 0⟩], 0, 7⟩
    let c (b : Bool) : Coll := coll fun c => { c with comm := ranks, begun := b }
    let meets (b : Bool) : State := rest fun d => { d with ctxs := [probeCtx], queues := [⟨0, 0, ranks, []⟩], colls := [c b] }
    (∀ t, AskedBy (waits t) r 9 32) ∧ (r.sent = some 0 ∧ 0 + 2400000 ≤ (waits 2400000).dev.clock ∧ (waits 2399999).dev.clock < 0 + 2400000 ∧
      (waits 0).dev.remotes.find? (fun x => x.req == 300 && x.pkg != 1023 && x.sent.isSome) = some r) ∧
    (loads.dev.remotes.find? (fun x => x.req == 300 && x.pkg != 1023 && x.sent.isSome) = some l ∧ l.op = some (o.id, 0) ∧
      loads.dev.op? o.id = some o ∧ o.kind = .load .w32 2 ∧ o.whole = false) ∧
    ((homes 0).dev.homeOf 7 = some probeCtx ∧ memOk (homes 0) ∧ ((homes 0).dev.fn 0).flr = 0 ∧ mappable 0x11FC 4 = true ∧
      (homes 0).dev.inWindows 0 0x11FC 4 = true ∧ Sound (homes 0) 0 0x11FC 4 ∧ mappable 0x7EFFFFFFFD 4 = false ∧
      (homes 1).dev.inWindows 1 0x1000 4 = false ∧ (p 0x11FC).ask = .write [1, 2, 3, 4] []) ∧
    (∀ n, (sends n).dev.remotes = [] ∧ (sends n).dev.watches = [] ∧ ((sends n).dev.port 2).up = true ∧ (sends n).dev.egress = [e n] ∧ 7 ∈ ((sends n).dev.port 2).allowed ∧
      (e n).left = n ∧ (e n).home = none) ∧
    ((homes 0).dev.homeOf 7 ≠ none ∧ (homes 0).dev.homeOf 8 = none ∧ 7 ∈ ((homes 0).dev.port 2).allowed ∧
      LastFlit (homes 0) 2 (f 7 0 true true) (q 1) ∧ LastFlit (homes 0) 2 (f 8 0 true true) { q 1 with ptag := 8 } ∧
      LastFlit (half 7) 2 (f 7 0 false true) (q 2) ∧ LastFlit (half 9) 2 (f 7 0 false true) (q 2) ∧
      (half 9).dev.homeOf 7 = some probeCtx ∧ 7 ∉ ((half 9).dev.port 2).allowed ∧
      (f 7 1 true true).lseq ≠ ((homes 0).dev.port 2).rxSeq ∧ (f 7 0 true false).last = false) ∧
    ∀ b, FindsColl (meets b) probeCtx ⟨0, 7, 5, 1, 0, .ready 0 1 9⟩ 0 1 (c b) ∧ (meets b).dev.coll? 400 = some (c b) ∧ (c false).begun = false := by
  refine ⟨fun t => ⟨rfl, by decide, nofun, rfl, rfl, rfl, by decide, by decide, by decide, rfl⟩, by decide, ⟨rfl, rfl, rfl, rfl, rfl⟩,
    ⟨rfl, by unfold memOk; decide, by decide, by decide, by decide, by unfold Sound; decide +kernel, by decide, by decide, rfl⟩,
    fun n => ⟨rfl, rfl, rfl, rfl, List.mem_singleton.mpr rfl, rfl, rfl⟩,
    ⟨nofun, by decide, by decide, ⟨rfl, rfl, rfl, rfl, rfl, rfl, rfl, rfl, rfl⟩, ⟨rfl, rfl, rfl, rfl, rfl, rfl, rfl, rfl, rfl⟩,
      ⟨rfl, rfl, rfl, rfl, rfl, rfl, rfl, rfl, by decide⟩, ⟨rfl, rfl, rfl, rfl, rfl, rfl, rfl, rfl, by decide⟩, rfl, by decide, by decide, rfl⟩,
    fun b => ⟨⟨rfl, _, rfl, rfl, rfl⟩, rfl, rfl⟩⟩

/-- HostAccesses: phases 5 and 6; bytes that end with a sector, in a mailbox window and in a PA window; a BAR2 offset behind the last
window; a function that does not exist. -/
theorem witness_host_accesses :
    let s : State := live fun d => { desk [] d with
      ctxs := [{ probeCtx with fn := 1, mbox := 0x1000, idx := 2 }]
      fns := [{ Fn.reset 1 with windows := [(0, ⟨0x1000, 512⟩)] }] }
    let w : Wire := ⟨none, false⟩
    (State.reset.mgmt.phase < 6 ∧ HostAsks .retlogClear) ∧ (Reaches s 1 w ∧ memOk s) ∧
    OneSector s 1 4 3 508 4 3 0x11FC ∧ OneSector s 1 2 0 (2 * 16384 + 28) 4 0 0x101C ∧ Sound s 0 0x101C 4 ∧ s.dev.readGlob 0 0x101C 4 = ([0, 0, 0, 0], true) ∧
    (s.dev.barPlace 1 2 0 262144 = none ∧ s.dev.unreachable 64 w = true) ∧ (s.dev.unreachable 1 ⟨some 1, true⟩ = false ∧ 0x4030 % 8 = 0) ∧
    (Reaches s 0 w ∧ s.mgmt.cuts = 0 ∧ ∀ die < 4, assoc s.mgmt.levels die < 2 ∧ s.dev.allow[die]? = some (s.mgmt.watts * 10 / 8)) := by
  refine ⟨⟨by decide, by simp [HostAsks]⟩, ⟨⟨by decide, by decide⟩, by unfold memOk; decide⟩, ⟨by decide, by decide, by decide, 4, by decide, by decide⟩,
    ⟨by decide, by decide, by decide, 16356, by decide, by decide⟩, by unfold Sound; decide +kernel, by decide +kernel, by decide, by decide, ⟨⟨by decide, by decide⟩, rfl, by decide⟩⟩

/-- HostRegisters: an INVALIDATE idle and busy, with and without what it waits for; the bounds of PWRCAP; a read of a cached word, of a
fault, of nothing; a read of host memory. -/
theorem witness_host_registers :
    let x : Ctx := { probeCtx with fn := 1, idx := 2 }
    let s (i : Option (List Nat)) : State := live fun d => { d with
      ctxs := [x]
      fns := [{ Fn.reset 1 with inv := i }]
      icache := [⟨5, 0, 0, .word [0x80, 1, 2, 3, 4, 5]⟩]
      remotes := [⟨300, some (300, 0), none, 0, 1023, 0x1000, .read 4, 0, none⟩]
      memops := [load (.sent 300)] }
    let f : State := live fun d => { d with icache := [⟨5, 0, 0, .fault 1 2 3⟩] }
    let v : Word := 0x8000000500000000
    (6 ≤ (s none).mgmt.phase ∧ (s none).dev.local? 1 2 = some x ∧ ((s none).dev.fn 1).inv = none) ∧
    (((s (some [301])).dev.fn 1).inv = some [301] ∧
      ∀ i ∈ [301], (∀ o ∈ (s (some [301])).dev.memops, o.id ≠ i) ∧ ∀ r ∈ (s (some [301])).dev.remotes, r.req ≠ i) ∧
    (((s (some [300])).dev.fn 1).inv = some [300] ∧ ∃ i ∈ [300], ∃ r ∈ (s (some [300])).dev.remotes, r.req = i) ∧
    ((s none).dev.allow.length = 4 ∧ 1800 ≤ 1800 ∧ 3600 ≤ 3600 ∧ 1799 < 1800 ∧ 3600 < 3601) ∧
    (v.getLsbD 63 = true ∧ v.toNat / 2 ^ 32 % 1024 = 5 ∧ v.toNat % 256 = 0 ∧ (s none).mgmt.iwaddr = 0 ∧
      (s none).dev.icached 5 0 0 = some (.word [0x80, 1, 2, 3, 4, 5]) ∧ [0x80, 1, 2, 3, 4, (5 : Byte)].length = 6 ∧
      ([0x80, 1, 2, 3, 4, (5 : Byte)].head?).map (·.toNat / 64) = some 2 ∧ f.dev.icached 5 0 0 = some (.fault 1 2 3) ∧
      f.dev.icached 4 0 0 = none ∧ (5 : Word).getLsbD 63 = false) ∧
    ((s none).dev.remotes.find? (fun x => x.req == 300 && x.pkg == 1023) = some ⟨300, some (300, 0), none, 0, 1023, 0x1000, .read 4, 0, none⟩ ∧
      (s none).dev.op? 300 = some (load (.sent 300)) ∧ (load (.sent 300)).whole = false) ∧
    ((s none).dev.unreachable 1 ⟨some 1, true⟩ = false ∧ f.dev.memops = [] ∧ f.dev.jobs = []) := by
  decide +kernel
/-! ## Commands, functions, power -/

/-- A context that CTXCREATE may create: its table on a leaf of 1 GiB, by a page table that is its own two upper levels. -/
def creating : CtxArgs := ⟨0, 0, 0x1000, 0x40000000, 0, 4095, 0x2000, 32, 10000, 7, true⟩
def before_ : State :=
  let s := live fun d => { d with
    sectors := [⟨128, 0, 0⟩]
    mem := cellWrite (cellWrite [] 0x1000 (leBytes 8 0x1001)) 0x1008 (leBytes 8 0x4000000F)
    fns := [{ Fn.reset 0 with windows := [(0, ⟨0, 0x200000⟩)] }] }
  { s with mgmt := { s.mgmt with phase := 7, ready := true } }
theorem creating_walk (va : Nat) (h : va / 2 ^ 30 = 1) : before_.dev.walk (before_.dev.newCtx creating) va =
    .ok ⟨0x40000000 + va % 2 ^ 30 / 4096 * 4096, none, false, true, true⟩ := by
  have r0 : before_.dev.readGlob 0 0x1000 8 = (leBytes 8 0x1001, true) := by decide +kernel
  have r1 : before_.dev.readGlob 0 0x1008 8 = (leBytes 8 0x4000000F, true) := by decide +kernel
  have i1 : va / 2 ^ 48 % 2 ^ 8 = 0 := by omega
  have i2 : va / 2 ^ 39 % 2 ^ 9 = 0 := by omega
  have i3 : va / 2 ^ 30 % 2 ^ 9 = 1 := by omega
  have l (d : Dev) (c : Ctx) (hc : c.fn = 0) : d.leafOf c va 0x4000000F (2 ^ 30) =
      .ok ⟨0x40000000 + va % 2 ^ 30 / 4096 * 4096, none, false, true, true⟩ := by
    have t : Nat.testBit 0x4000000F 62 = false ∧ Nat.testBit 0x4000000F 6 = false ∧ Nat.testBit 0x4000000F 4 = false ∧
      Nat.testBit 0x4000000F 3 = true ∧ Nat.testBit 0x4000000F 2 = true := by decide
    simp [Dev.leafOf, t, mappable, Dev.inWindows, hc]
  have t0 : Nat.testBit 0x1001 63 = false ∧ Nat.testBit 0x1001 5 = false ∧ Nat.testBit 0x1001 1 = false ∧ Nat.testBit 0x1001 62 = false ∧
    Nat.testBit 0x1001 6 = false := by decide
  have t1 : Nat.testBit 0x4000000F 63 = false ∧ Nat.testBit 0x4000000F 5 = false ∧ Nat.testBit 0x4000000F 1 = true := by decide
  have n : (before_.dev.newCtx creating).n = 0 := rfl
  have up (l : WalkLevel) (ls : List WalkLevel) (hi : va / 2 ^ l.shift % 2 ^ l.bits = 0) :
      before_.dev.walkFrom (before_.dev.newCtx creating) va (l :: ls) 0x1000 = before_.dev.walkFrom (before_.dev.newCtx creating) va ls 0x1000 := by
    rw [Dev.walkFrom]
    simp [hi, n, r0, show leNat (leBytes 8 0x1001) = 0x1001 from by decide, show mappable 0x1000 8 = true from by decide, t0]
  show (before_.dev.walkFrom _ va (⟨48, 8, 0⟩ :: ⟨39, 9, 0⟩ :: ⟨30, 9, 2 ^ 30⟩ :: _) 0x1000).map (·.2) = _
  rw [up _ _ i1, up _ _ i2, Dev.walkFrom]
  simp only [i3, n, show (0x1000 + 8 * 1 : Nat) = 0x1008 from rfl, r1, show leNat (leBytes 8 0x4000000F) = 0x4000000F from by decide,
    show mappable 0x1008 8 = true from by decide, t1, l _ _ (show (before_.dev.newCtx creating).fn = 0 from rfl)]
  rfl
theorem creating_table : ∃ pages, (before_.dev.tablePages (before_.dev.newCtx creating)).mapM id = some pages ∧ ∀ p ∈ pages, p % 4096 = 0 := by
  have all (l : List Nat) (f : Nat → Nat) : (l.map fun i => some (f i)).mapM id = some (l.map f) := by
    induction l with
    | nil => rfl
    | cons x l ih => simp [List.mapM_cons, ih]
  have h : before_.dev.tablePages (before_.dev.newCtx creating) = (List.range 2048).map fun i => some (0x40000000 + 4096 * i) := by
    refine List.map_congr_left fun i hi => ?_
    have := List.mem_range.mp hi
    rw [show (before_.dev.newCtx creating).ctab = 0x40000000 from rfl, creating_walk _ (by omega),
      show (0x40000000 + 4096 * i) % 2 ^ 30 / 4096 * 4096 = 4096 * i by omega]
    have m : mappable (0x40000000 + 4096 * i) 4096 = true := decide_eq_true (Or.inl (by omega))
    simp [m, Dev.inWindows, show (before_.dev.newCtx creating).fn = 0 from rfl]
  rw [h, all]
  refine ⟨_, rfl, fun p hp => ?_⟩
  obtain ⟨i, _, rfl⟩ := List.mem_map.mp hp
  omega

/-- ContextCommands: a busy command that this is not; a GO that waits for its command; codes 0, 12 and 256; a creation before READY; a creation, and one with a context number out of range; a context to destroy; a
server to remove, to create, to change, and one above the bounds; the widest window number, beside another function's window; a key slot. -/
theorem witness_context_commands :
    let busy : State := { State.reset with mgmt := { Mgmt.reset with phase := 6, cmdBusy := true } }
    let x : Ctx := { probeCtx with n := 3, fn := 1 }
    let a (q : Nat) : ServerArgs := ⟨3, .copy 3, 0, [q], [2400], 0, 0, [], true⟩
    let s : State := live fun d => { d with ctxs := [x], servers := [⟨a 2048, [2048], [0], [true]⟩], blocks := [{ blk with ctx := 3 }],
                                            fns := [{ Fn.reset 2 with windows := [(1, ⟨0x400000, 0x200000⟩)] }] }
    let n : State := live fun d => { d with ctxs := [x] }
    let go : State := { State.reset with mgmt := { Mgmt.reset with phase := 6, cmdBusy := true, cmdGo := some 2, cmdCode := 2 } }
    (6 ≤ busy.mgmt.phase ∧ busy.mgmt.cmdBusy = true ∧ busy.mgmt.cmdGo ≠ some 2 ∧ IsCommand (.ctxdestroy 3) 2) ∧
    (6 ≤ go.mgmt.phase ∧ go.mgmt.cmdBusy = true ∧ go.mgmt.cmdGo = some 2 ∧ go.mgmt.cmdCode = 2 ∧ (2 : Nat) ≠ 1) ∧
    (s.dev.unreachable 0 ⟨some 0, true⟩ = false ∧ (0x80000002 : Word).getLsbD 31 = true ∧ (2 : Word).getLsbD 31 = false ∧ s.mgmt.cmdBusy = false) ∧
    (6 ≤ s.mgmt.phase ∧ s.mgmt.ready = false) ∧ Accepts s ∧ (256 % 256 = 0 ∧ 11 < 12 % 256) ∧
    s.dev.ctxFields { creating with ctx := 256 } = false ∧
    (Accepts before_ ∧ before_.mgmt.ready = true ∧ memOk before_ ∧ before_.dev.ctxFields creating = true ∧ (before_.dev.fn 0).tdisp = .unlocked ∧
      before_.dev.ctx? 0 = none ∧ (before_.dev.fnCtxs 0).length < 16 ∧ (before_.dev.fn 0).flr = 0) ∧
    (s.dev.ctx? 3 = some x ∧ (s.dev.fn 1).tdisp = .unlocked ∧ s.dev.ctx? 4 = none) ∧
    (pointOk (.copy 3) = true ∧ (a 0).q.all (· == 0) = true ∧ s.dev.server? 3 (.copy 3) = some ⟨a 2048, [2048], [0], [true]⟩ ∧
      (a 2457600).q.all (· == 0) = false ∧ serverFields (a 2457600) = true ∧ isChannel (a 2457600).point = false ∧ s.pointGone (.copy 3) = false ∧
      withinBounds ((s.dev.serversWith (a 2457600)).filter (·.point == .copy 3)) 1 = true ∧ s.dev.waysOk (a 2457600) = true ∧
      s.dev.flitsFit (a 2457600) = true ∧ n.dev.server? 3 (.copy 3) = none ∧
      withinBounds ((n.dev.serversWith (a 2457600)).filter (·.point == .copy 3)) 1 = true ∧ serverFields (a 2457601) = true ∧
      withinBounds ((s.dev.serversWith (a 2457601)).filter (·.point == .copy 3)) 1 = false) ∧
    (1 < 64 ∧ 7 < 8 ∧ 0x200000 % 2 ^ 21 = 0 ∧ mappable 0x200000 0x200000 = true ∧
      ∀ f ∈ s.dev.fns, f.n ≠ 1 → ∀ w ∈ f.windows, 0x200000 + 0x200000 ≤ w.2.base ∨ w.2.base + w.2.len ≤ 0x200000) ∧
    (x.n ≠ 0 ∧ ∀ b ∈ s.dev.blocks, b.ctx = 3 → b.resident = true) :=
  ⟨⟨by decide, rfl, by decide, by simp [IsCommand]⟩, by decide, by decide, by decide, ⟨by decide, rfl⟩, by decide, by decide,
    ⟨⟨by decide, rfl⟩, rfl, by unfold memOk; decide +kernel, by decide, by decide, rfl, by decide, by decide⟩, ⟨rfl, rfl, rfl⟩, by decide +kernel, by decide,
    by decide, by decide⟩

/-- MachineCommands: a communicator with the least virtual channel and one without; the longest notice; a pre-empted context and none; the
last port, tag, core and channel; capacity that is being retired, with and without a block. -/
theorem witness_machine_commands :
    let two (vc : Nat) : Comm := ⟨2, 0, [⟨0, 0, 0⟩, ⟨1, 0, 0⟩], vc, 7⟩
    let x : Ctx := { probeCtx with ptag := 7 }
    let p : Ctx := { probeCtx with n := 1, preempt := some ⟨0, 0, 256, 0, 256, 0, .fn 2, false⟩ }
    let s : State := live fun d => { d with ctxs := [x, p], tagHomes := [(8, 0)] }
    let r (b : List Block) : State := { rest fun d => { d with blocks := b } with mgmt := { Mgmt.reset with retiring := [.core 0, .channel 0] } }
    Accepts s ∧ (s.dev.ctx? 0 = some x ∧ 15 < 16 ∧ (∀ c ∈ s.dev.colls, c.ctx = 0 → c.q ≠ 15) ∧ commOk x (two 3) = true ∧
      commOk x (two 2) = false) ∧
    (s.dev.ctxs.filter (·.n == 0) = [x] ∧ x.preempt = none ∧ x.stopped = false ∧ 2 ^ 24 ≤ 2 ^ 24 ∧ (2 ^ 56 - 256) % 256 = 0 ∧ 2 ^ 56 - 256 + 256 ≤ 2 ^ 56) ∧
    ((∃ c ∈ s.dev.ctxs, ∃ q, c.preempt = some q ∧ q.target = .fn 2) ∧ ∀ c ∈ s.dev.ctxs, ∀ q, c.preempt = some q → q.target ≠ .fn 3) ∧
    (127 < 128 ∧ (∀ t ∈ [4095, 7], t < 4096) ∧ s.dev.homeOf 7 = none ∧ (s.dev.fn x.fn).tdisp = .unlocked ∧ s.dev.homeOf 8 = some x) ∧
    (895 < 896 ∧ (s.dev.core 895).mapped = true ∧ 151 < 152 ∧ 151 ∉ s.mgmt.retiredChannels ∧ 63 < 64) ∧
    (∀ b, .core 0 ∈ (r b).mgmt.retiring ∧ .channel 0 ∈ (r b).mgmt.retiring) ∧ (∀ b ∈ (r []).dev.blocks, b.core ≠ 0) ∧
    ∃ b ∈ (r [blk]).dev.blocks, b.core = 0 := by
  refine ⟨⟨by decide, rfl⟩, by decide, by decide, ⟨⟨_, List.mem_cons_of_mem _ (List.mem_singleton.mpr rfl), _, rfl, rfl⟩, ?_⟩, by decide, by decide,
    fun b => ⟨List.mem_cons_self, List.mem_cons_of_mem _ List.mem_cons_self⟩, nofun, blk, List.mem_singleton.mpr rfl, rfl⟩
  intro c h q hq
  rcases List.mem_cons.mp h with rfl | h
  · exact absurd hq nofun
  · rw [List.mem_singleton.mp h] at hq
    obtain rfl := Option.some.inj hq
    decide

/-- FunctionReset: each step of a function, and a step out of its order. -/
theorem witness_function_reset :
    let s (n : Nat) : State := live fun d => { d with fns := [{ Fn.reset 63 with flr := n }], ctxs := [{ probeCtx with fn := 63 }] }
    6 ≤ (s 0).mgmt.phase ∧ (∀ n, FlrAt (s n) 63 n) ∧ Of (s 0) 63 0 ∧ ((s 0).dev.fn 63).flr ≠ 1 :=
  ⟨by decide, fun n => ⟨by decide, by decide, rfl⟩, ⟨_, List.mem_singleton.mpr rfl, rfl, rfl⟩, by decide⟩

/-- SecurityProtocols: each state of an interface; a responder in which each request has its place, and a fresh one; the link's stream. -/
theorem witness_security :
    let s (t : Tdisp) : State := live fun d => { d with fns := [{ Fn.reset 63 with tdisp := t }] }
    let r : Spdm := ⟨4, true, true, true, [(1, true), (2, false)], []⟩
    let m : State := { State.reset with mgmt := { Mgmt.reset with phase := 6, spdm := [r] } }
    (∀ t, FlrAt (s t) 63 0 ∧ 6 ≤ (s t).mgmt.phase ∧ ((s t).dev.fn 63).tdisp = t) ∧ 6 ≤ m.mgmt.phase ∧ m.mgmt.responder 4 = r ∧
    (∃ q, (Instr.getVersion 4, q) ∈ Claims.asked m 4 1 ∧ q.ok r) ∧ (∃ q, (Instr.keyUpdate 4 1, q) ∈ Claims.asked m 4 1 ∧ q.ok r) ∧
    (∃ q, (Instr.finish 4 2, q) ∈ Claims.asked m 4 2 ∧ q.ok r) ∧ (∃ q, (Instr.finish 4 1, q) ∈ Claims.asked m 4 1 ∧ ¬ q.ok r) ∧
    (∃ q, (Instr.getMeasurements 4 5, q) ∈ Claims.asked m 4 5 ∧ q.ok r) ∧ (∃ q, (Instr.keyExchange 4 3, q) ∈ Claims.asked m 4 3 ∧ q.ok r) ∧
    (∃ q, (Instr.getDigests 5, q) ∈ Claims.asked m 5 0 ∧ ¬ q.ok (m.mgmt.responder 5)) ∧ (64 ≤ 64) := by
  refine ⟨fun t => ⟨⟨by decide, by decide, rfl⟩, le_refl 6, rfl⟩, by decide, by decide, ⟨_, List.mem_of_getElem? (i := 0) rfl, trivial⟩,
    ⟨_, List.mem_of_getElem? (i := 9) rfl, ?_⟩, ⟨_, List.mem_of_getElem? (i := 8) rfl, ?_⟩, ⟨_, List.mem_of_getElem? (i := 8) rfl, ?_⟩,
    ⟨_, List.mem_of_getElem? (i := 6) rfl, rfl, Or.inr ⟨rfl, Or.inr rfl⟩⟩, ⟨_, List.mem_of_getElem? (i := 7) rfl, rfl, ?_⟩,
    ⟨_, List.mem_of_getElem? (i := 3) rfl, Bool.false_ne_true⟩, by decide⟩
  · exact show (1, true) ∈ [((1 : Nat), true), (2, false)] by decide
  · exact show (2, false) ∈ [((1 : Nat), true), (2, false)] by decide
  · exact show ¬ (1, false) ∈ [((1 : Nat), true), (2, false)] by decide
  · exact show ∀ y ∈ [((1 : Nat), true), (2, false)], y.1 ≠ 3 by decide

/-- PowerAndIslands: powers at the two bounds and beyond them; the lowest core that gives way; actions to undo; an island that falls,
one that rises in voltage, whose rail allows it and does not, and one in frequency; a rail in each phase, islands that let it fall and one
that does not; the last rail and the number after it. -/
theorem witness_power :
    let s (a : CtlAction) (w : Nat) : State :=
      { State.reset with dev := { Dev.reset with clock := 24000 }, mgmt := { Mgmt.reset with actions := [a], watts := w } }
    let isl (v mv mhz rail : Nat) : State := { s (.pass 5) 3600 with mgmt := { Mgmt.reset with
      islands := [⟨1023, v, mv, mhz, some 24000⟩]
      rails := [⟨31, rail, 780, .steady, none⟩] } }
    let rl (p : RailPhase) (mv : Nat) : State := { s (.pass 5) 3600 with mgmt := { Mgmt.reset with
      rails := [⟨0, 790, 780, p, none⟩]
      islands := (List.range 32).map fun i => ⟨i, 3, mv, 1800, none⟩ } }
    let lets (s : State) : Prop := ∀ i ∈ railIslands 0, (s.mgmt.island i).mv + 30 ≤ max ((s.mgmt.rail 0).mv - 10) (s.mgmt.rail 0).target
    (State.reset.dev.clock < State.reset.mgmt.ticked + 24000 ∧ ∀ a, (s a 3600).mgmt.ticked + 24000 ≤ (s a 3600).dev.clock) ∧
    (2 * 1800 ≤ 3600 ∧ 19 * 3600 ≤ 40 * 1710 ∧ 3600 < 2 * 1801 ∧ ∀ a, (s a 3600).mgmt.watts = 3600 ∧ GivesWay (s a 3600) 0) ∧
    (40 * 1709 < 19 * 3600 ∧ ∀ a, (s a 3600).mgmt.actions = [a]) ∧ (1023 < 1024 ∧ 5 < 6) ∧
    (((isl 2 750 1800 780).mgmt.island 1023).next = some 24000 ∧ pointMhz 2 < 1800 ∧ 24000 ≤ (isl 2 750 1800 780).dev.clock ∧
      (isl 4 750 1800 830).mgmt.island 1023 = ⟨1023, 4, 750, 1800, some 24000⟩ ∧ 1800 ≤ pointMhz 4 ∧ 750 < pointMv 4 ∧ railOf 1023 = 31 ∧
      ((isl 4 750 1800 830).mgmt.rail 31).mv = 830 ∧ pointMv 4 + 30 ≤ 830 ∧ 829 < pointMv 4 + 30 ∧
      ((isl 4 750 1800 829).mgmt.rail 31).mv = 829 ∧ (isl 4 800 1800 830).mgmt.island 1023 = ⟨1023, 4, 800, 1800, some 24000⟩ ∧ pointMv 4 ≤ 800) ∧
    (∀ p, ((rl p 750).mgmt.rail 0).phase = p) ∧ (lets (rl (.falling 0) 750) ∧ ¬ lets (rl (.falling 0) 751)) ∧ (31 < 32 ∧ 32 ≤ 32 ∧ 27 < 28) := by
  refine ⟨⟨by decide, fun _ => le_refl 24000⟩, ⟨by decide, by decide, by decide, fun _ => ⟨rfl, rfl, rfl, Or.inl ⟨8, (by decide : 8 ∈ (Core.reset 0).k), by decide⟩⟩⟩,
    ⟨by decide, fun _ => rfl⟩, by decide, by decide, fun _ => rfl, ⟨by decide, by decide⟩, by decide⟩

/-- HeatRetentionAndReset: temperatures at the thresholds; a request whose cores have cooled, one that has lasted 24,000,000 cycles,
one with a hot core; an idle core, with an engine that is WARM; a wave; a sleeping core that nothing has woken, one that wakes and one that
will; a cold reset just over; every phase, an error. -/
theorem witness_heat :
    let hot (o : Nat) : State := { State.reset with dev := { Dev.reset with clock := o }, mgmt := { Mgmt.reset with migrations := [⟨3, [895], 0⟩] } }
    let idle : State := { State.reset with
      dev := engine .tile .warm none [] { Dev.reset with clock := 120000 }
      mgmt := { Mgmt.reset with phase := 4 } }
    let core (f : Core → Core) : State := { State.reset with dev := { Dev.reset with cores := [f (Core.reset 0)] } }
    let up (n e : Nat) : State := { State.reset with mgmt := { Mgmt.reset with phase := n, errcode := e } }
    (InForce 0 115 3 ∧ ¬ InForce 2 114 3 ∧ InForce 3 111 3 ∧ ¬ InForce 3 110 3 ∧ State.reset.dev.allow.length = 4 ∧ dieOf 895 = 3 ∧
      ∀ m ∈ State.reset.mgmt.migrations, m.die ≠ 3) ∧
    ((hot 0).mgmt.migrations.find? (·.die == 3) = some ⟨3, [895], 0⟩ ∧ assoc (hot 0).mgmt.levels 3 = 0 ∧
      (∀ c ∈ [895], ∃ x, (c, x) ∈ [(895, 89)] ∧ x < 90) ∧ 0 + 24000000 ≤ (hot 24000000).dev.clock ∧
      (∃ c ∈ [895], ∀ x ∈ [(895, 90)], x.1 ≠ c ∨ 90 ≤ x.2) ∧ (hot 23999999).dev.clock < 0 + 24000000) ∧
    (4 ≤ idle.mgmt.phase ∧ idle.dev.guaranteed 0 = false ∧ (idle.dev.core 0).retention = false ∧ (idle.dev.core 0).mapped = true ∧ (idle.dev.core 0).coldTill = none ∧ idle.dev.wavesOn 0 = [] ∧
      idle.dev.wanted 0 = false ∧ (idle.dev.core 0).idle + 120000 ≤ idle.dev.clock ∧ (idle.dev.engine 0 .table).st = .dark ∧
      (idle.dev.engine 0 .select).st = .dark ∧ ((idle.dev.engine 0 .tile).core, (idle.dev.engine 0 .tile).kind, (idle.dev.engine 0 .tile).st,
        (idle.dev.engine 0 .tile).holder) = (0, .tile, .warm, none) ∧ idle.dev.engineJobs 0 .tile = []) ∧
    (one wave blk 0xFF id).dev.wavesOn 0 ≠ [] ∧ State.reset.mgmt.phase < 4 ∧
    (∀ w, (core fun c => { c with retention := true, wake := w }).dev.core 0 = { Core.reset 0 with retention := true, wake := w }) ∧
    ((none : Option Nat) ≠ some 0 ∧ (core id).dev.clock < 1 ∧ 0 ≤ (core id).dev.clock ∧ (Core.reset 0).coldTill = none ∧
      ((core fun c => { c with coldTill := some 0 }).dev.core 0).coldTill = some 0) ∧
    (∀ n, (up n 0).mgmt.ready = false ∧ (up n 0).mgmt.errcode = 0 ∧ (up n 0).mgmt.phase = n) ∧ (256 % 256 = 0 ∧ 255 % 256 ≠ 0) ∧ (up 4 255).mgmt.errcode ≠ 0 := by
  refine ⟨⟨?_, ?_, ?_, ?_, by decide, by decide, nofun⟩, ⟨rfl, rfl, ?_, by decide, ?_, by decide⟩, by decide, by decide, by decide, fun _ => rfl, by decide,
    fun n => ⟨rfl, rfl, rfl⟩, by decide, by decide⟩
  all_goals first | (unfold InForce; decide) | skip
  · intro c h; rw [List.mem_singleton.mp h]; exact ⟨89, List.mem_singleton.mpr rfl, by decide⟩
  · exact ⟨895, List.mem_singleton.mpr rfl, fun x h => by rw [List.mem_singleton.mp h]; decide⟩
/-! ## Decoding, one step, invariants -/

/-- DecodeReadsEncode, EncodeGivesDecoded: a well-formed instruction; bytes that decode, with others behind them. -/
theorem witness_decodes : (Instr.regang 0xFF).wf = true ∧ (encode (.regang 0xFF)).isSome = true ∧ decode [0xFF, 0x01, 0x02] = .ok (.pad, 1) :=
  ⟨rfl, rfl, rfl⟩

/-- StepRunsTheInstruction, cached: a word that decodes, one that does not, a fault word; a register that the instruction reads, and one
that it does not, with an error. -/
theorem witness_step_cached :
    let s (w : IWord) : State := one wave blk 0xFF fun d => { d with icache := [⟨0, 0, 0x1000, w⟩] }
    (∀ w, (s w).dev.issuer? = some (sel wave blk 0xFF) ∧ (s w).dev.icached 0 0 0x1000 = some w) ∧
    decode [0x01, 0x0C, 0x41, 0x40] = .ok (.add 3 4 5, 4) ∧ decode [0x00, 0x0C, 0x41, 0x40] = .error .encoding ∧
    (let o := (RegName.scalar 0 4, RegName.scalar 0 3); (∃ x ∈ sources (.add 3 4 5), x.meets (sel wave blk 0xFF) o.1 = true) ∧
      ∀ x ∈ sources (.add 3 4 5), x.meets (sel wave blk 0xFF) o.2 = false) :=
  ⟨fun _ => ⟨rfl, rfl⟩, rfl, rfl, by decide, by decide⟩

/-- Code that ends with its page. -/
def code (bs : List Byte) : State := one { wave with strands := wave.strands.map fun x => { x with pc := 0x11FE } } blk 0xFF fun d =>
  { desk (cellWrite [] 0x11FE bs) d with tlb := [⟨0, 0, 4096, 1, 0, ⟨0x1000, none, true, true, true⟩⟩, ⟨0, 0, 4096, 2, 0, ⟨0x2000, none, false, true, true⟩⟩] }
def coder : Issue := { sel { wave with strands := wave.strands.map fun x => { x with pc := 0x11FE } } blk 0xFF with pc := 0x11FE }
theorem code_at (bs : List Byte) (hl : bs.length ≤ 2) : CodeAt (code bs) coder bs := by
  have hm : Memory.wf (cellWrite [] 0x11FE bs) = true := wf_cellWrite _ _ _ rfl
  refine ⟨show 0x11FE + bs.length ≤ 2 ^ 56 by omega, fun j h => ?_⟩
  have r := cellRead_cellWrite [] 0x11FE bs rfl
  match bs, hl with
  | [a], _ => have h : j < 1 := h; interval_cases j; exact ⟨_, rfl, rfl, show _ ∧ _ from ⟨rfl, (List.cons.inj r).1⟩⟩
  | [a, b], _ =>
    have h : j < 2 := h
    interval_cases j
    · exact ⟨_, rfl, rfl, show _ ∧ _ from ⟨rfl, (List.cons.inj r).1⟩⟩
    · exact ⟨_, rfl, rfl, show _ ∧ _ from ⟨rfl, (List.cons.inj (List.cons.inj r).2).1⟩⟩

/-- StepRunsTheInstruction, not cached: an instruction, bytes that are none, a first byte without a class; an address on a page without
the execute right, above the space, unmapped; an instruction that is cut off there; a page of another package, whose line has come, has
failed and is still to be asked for; the last instruction of the address space. -/
theorem witness_step_fetches :
    let away (l : List (Nat × Nat × Answer)) : State := one wave blk 0xFF fun d => { d with
      tlb := [⟨0, 0, 4096, 1, 0, ⟨0x1000, some 5, true, true, true⟩⟩]
      inbox := l }
    let k := sel wave blk 0xFF
    let came (a : Answer) : List (Nat × Nat × Answer) := [(codeReader, codeKey 0 5 0x1000, a), (codeReader, codeKey 0 5 0x1080, a)]
    (∀ bs, (code bs).dev.issuer? = some coder ∧ (code bs).dev.icached 0 0 0x11FE = none ∧ (code bs).dev.codeWanted 0 probeCtx 0x11FE = []) ∧
    ((away []).dev.codeWanted 0 probeCtx 0x1000 ≠ [] ∧ (∀ a, (away (came a)).dev.codeWanted 0 probeCtx 0x1000 = []) ∧
      CodeAt (away (came (.done 9 [0xFF]))) k [0xFF] ∧ Unfetchable (away (came (.failed cRights))) k 0x1000 cFetch 2) ∧
    (2 ^ 56 ≤ ({ k with pc := 0xFFFFFFFFFFFFFC } : Issue).pc.toNat + 4 ∧ transfersControl (.add 3 4 5) = false ∧ transfersControl .ret = true) ∧
    (CodeAt (code [0xF2, 0xFF]) coder [0xF2, 0xFF] ∧ decode [0xF2, 0xFF] = .ok (.regang 0xFF, 2)) ∧
    (CodeAt (code [0xF2, 0x00]) coder [0xF2, 0x00] ∧ (∃ cl, Class.ofByte 0xF2 = some cl ∧ 2 = cl.length) ∧ decode [0xF2, 0x00] = .error .operand) ∧
    (CodeAt (code [0xF6]) coder [0xF6] ∧ Class.ofByte 0xF6 = none) ∧
    (Unfetchable (code []) coder 0x2000 cFetch 2 ∧ Unfetchable (code []) coder (2 ^ 56) cFetch 1) ∧
    (CodeAt (one wave blk 0xFF (desk [(0x1000, 1)])) (sel wave blk 0xFF) [1] ∧ ∃ cl, Class.ofByte 1 = some cl ∧ 0 + 1 < cl.length) := by
  refine ⟨fun _ => ⟨rfl, rfl, rfl⟩, ⟨nofun, fun _ => rfl, ⟨by decide, fun j h => ?_⟩, ?_⟩, by decide, ⟨code_at _ (by decide), rfl⟩, ⟨code_at _ (by decide), ⟨_, rfl, rfl⟩, rfl⟩, ⟨code_at _ (by decide), rfl⟩,
    ⟨?_, ?_⟩, ⟨by decide, fun j h => ?_⟩, ⟨_, rfl, by decide⟩⟩
  · have h : j < 1 := h
    interval_cases j; exact ⟨_, rfl, rfl, 9, [0xFF], rfl, rfl⟩
  · exact ⟨_, rfl, Or.inr (Or.inl ⟨rfl, rfl, rfl⟩)⟩
  · exact ⟨rfl, rfl⟩
  · exact ⟨rfl, rfl⟩
  · have h : j < 1 := h
    interval_cases j; exact ⟨_, rfl, rfl, show _ ∧ _ from ⟨rfl, rfl⟩⟩

/-- StepFollowsTheSchedule: a selection whose gang has gone; an event, a pause and no entry in the schedule; a state in which no step of
the agenda changes anything, and one in which the first does. -/
theorem witness_schedule :
    let gone : State := rest fun d => { d with latch := some ⟨257, 1⟩ }
    let still : State := { State.reset with mgmt := { Mgmt.reset with phase := 7, ready := true } }
    (gone.dev.issuer? = none ∧ gone.dev.latch ≠ none) ∧ State.reset.dev.latch = none ∧
    (∀ x, ({ State.reset with schedule := [x] } : State).schedule = x :: []) ∧ (∀ i ∈ agenda still, changes still i = false) ∧
    (∃ rest t, agenda State.reset = [] ++ .bringupPhase 0 [] :: rest ∧ exec (.bringupPhase 0 []) State.reset = .next t ∧ t ≠ State.reset) := by
  refine ⟨⟨rfl, nofun⟩, rfl, fun _ => rfl, fun i h => ?_, _, _, rfl, rfl, by decide⟩
  have e (n : Nat) (hn : n ∈ List.range 4) : exec (.arbiterSelect (.copy n)) { State.reset with mgmt := { Mgmt.reset with phase := 7, ready := true } } =
      .next { State.reset with mgmt := { Mgmt.reset with phase := 7, ready := true } } := by
    have := List.mem_range.mp hn
    interval_cases n <;> rfl
  have h : i ∈ (List.range 4).map fun n => Instr.arbiterSelect (.copy n) := h
  obtain ⟨n, hn, rfl⟩ := List.mem_map.mp h
  simp [changes, e n hn]

/-- StepKeepsMemoryCanonical, StepKeepsManagementRegisters: the invariants hold at reset, from which a step is taken. -/
theorem witness_invariants : memOk State.reset ∧ MgmtOk State.reset.mgmt ∧ ∃ t, step State.reset = .next t :=
  ⟨⟨rfl, nofun⟩, ⟨by decide, by decide, by decide, by decide, nofun, by decide, by decide, by decide, nofun⟩, _, rfl⟩

/-! ## Single steps on a placed word (R82, R83, Tables 4-2, 4-3) -/

/-- A register of strand 0 of the wave that has taken a step. -/
noncomputable def after_ (nbits w : Nat) (r : SReg) : Option Word :=
  match step (State.reset.withFetchWord nbits w) with
  | .next t => ((t.dev.waves.head?).bind (·.strands.head?)).bind (·.s[r.toNat]?)
  | _ => none
theorem test_step_addi : after_ 32 0x280C3FFF 3 = some 0xFFFFFFFFFFFFFFFF := by decide +kernel
theorem test_step_sget_npackage : after_ 32 0x4808000A 2 ≠ none := by decide +kernel
/-- The PC after a step. -/
noncomputable def pcAfter (nbits w : Nat) : Option Word :=
  match step (State.reset.withFetchWord nbits w) with
  | .next t => ((t.dev.waves.head?).bind (·.strands.head?)).map (·.pc)
  | _ => none
theorem test_step_passes_padding : pcAfter 8 0xFF = some 0x1001 := by decide +kernel
theorem test_step_bnz_falls_through : pcAfter 32 0x3B0FFFF8 = some 0x1004 := by decide +kernel

end Sys2Proof.Tests
end

section
/-!
PROOFS. Scalar arithmetic, compares, immediates and constants, and the masks (04: R105 to R110, R124 to R126, R140).
-/

open Sys2Proof Sys2Proof.Machine Sys2Proof.Claims

namespace Sys2Proof.Proofs

/-! ## Scalar instructions: from their meaning to a claim about every issuing state

The value equation comes first among the hypotheses: it fixes the meaning's function before the instruction's arm of `exec`
is unfolded to it. -/

theorem exec_eq_wroteScalar {i : Instr} {s : State} {k : Issue} {d : SReg} {g : Strand → Word} (f : Strand → Word)
    (hk : s.dev.issuer? = some k) (hg : ∀ x, g x = f x) (hi : exec i s = scalarOp s d g) :
    exec i s = .next (wroteScalar s k 4 d fun t => f (k.strand t)) := by
  rw [hi, scalarOp_eq s k d _ hk]
  simp only [hg]

theorem scalar2_claim {i : SReg → SReg → SReg → Instr} {g f : Word → Word → Word} (hg : ∀ x y, g x y = f x y)
    (hi : ∀ d a b s, exec (i d a b) s = scalar2 s d a b g) : Scalar2 i f :=
  fun s _ d a b hk => exec_eq_wroteScalar (fun x => f (x.rd a) (x.rd b)) hk (fun _ => hg _ _) (hi d a b s)

theorem scalar1_claim {i : SReg → SReg → Instr} {f : Word → Word}
    (hi : ∀ d a s, exec (i d a) s = scalarOp s d fun x => f (x.rd a)) : Scalar1 i f :=
  fun s _ d a hk => exec_eq_wroteScalar (fun x => f (x.rd a)) hk (fun _ => rfl) (hi d a s)

theorem scalarI_claim {n : Nat} {i : SReg → SReg → BitVec n → Instr} {g f : Word → BitVec n → Word}
    (hg : ∀ x c, g x c = f x c) (hi : ∀ d a c s, exec (i d a c) s = scalarOp s d fun x => g (x.rd a) c) : ScalarI i f :=
  fun s _ d a c hk => exec_eq_wroteScalar (fun x => f (x.rd a) c) hk (fun _ => hg _ _) (hi d a c s)

/-! ## Values of Table 4-1 as numbers -/

theorem mul_eq_ofNat (x y : Word) : x * y = BitVec.ofNat 64 (x.toNat * y.toNat) := by
  rw [BitVec.ofNat_mul, BitVec.ofNat_toNat, BitVec.ofNat_toNat, BitVec.setWidth_eq, BitVec.setWidth_eq]

theorem shiftLeft_eq_ofNat (x : Word) (n : Nat) : x <<< n = BitVec.ofNat 64 (x.toNat * 2 ^ n) := by
  apply BitVec.eq_of_toNat_eq
  rw [BitVec.toNat_shiftLeft, BitVec.toNat_ofNat, Nat.shiftLeft_eq]

theorem shiftRight_eq_ofNat (x : Word) (n : Nat) : x >>> n = BitVec.ofNat 64 (x.toNat / 2 ^ n) := by
  rw [← Nat.shiftRight_eq_div_pow, ← BitVec.toNat_ushiftRight, BitVec.ofNat_toNat, BitVec.setWidth_eq]

theorem sshiftRight_eq_ofInt (x : Word) (n : Nat) : x.sshiftRight n = BitVec.ofInt 64 (x.toInt / 2 ^ n) := by
  rw [BitVec.sshiftRight_eq, Int.shiftRight_eq_div_pow]
  norm_num

/-- The exact product of two words has an absolute value below 2^127, so that 128 bits hold it. -/
theorem toInt_mul_bounds (x y : Word) : -2 ^ 127 ≤ x.toInt * y.toInt ∧ x.toInt * y.toInt < 2 ^ 127 := by
  have hx := BitVec.toInt_lt (x := x)
  have hx' := BitVec.le_toInt x
  have hy := BitVec.toInt_lt (x := y)
  have hy' := BitVec.le_toInt y
  have h : |x.toInt * y.toInt| ≤ 2 ^ 63 * 2 ^ 63 := by
    rw [abs_mul]
    gcongr <;> rw [abs_le] <;> omega
  have := abs_le.mp h
  omega

theorem mulHigh_zeroExtend (x y : Word) :
    mulHigh (x.zeroExtend 128) (y.zeroExtend 128) = BitVec.ofNat 64 (x.toNat * y.toNat / 2 ^ 64) := by
  have h : x.toNat * y.toNat < 2 ^ 128 :=
    calc x.toNat * y.toNat < 2 ^ 64 * 2 ^ 64 := Nat.mul_lt_mul'' x.isLt y.isLt
      _ = 2 ^ 128 := by norm_num
  apply BitVec.eq_of_toNat_eq
  rw [mulHigh, BitVec.extractLsb'_toNat, BitVec.toNat_mul, BitVec.toNat_ofNat, Nat.shiftRight_eq_div_pow,
    BitVec.toNat_setWidth_of_le (by decide), BitVec.toNat_setWidth_of_le (by decide), Nat.mod_eq_of_lt h]

/-- Bits 127 to 64 of a 128-bit word are its signed value divided by 2^64, rounded down. -/
theorem extract_high_eq_ofInt (z : BitVec 128) : z.extractLsb' 64 64 = BitVec.ofInt 64 (z.toInt / 2 ^ 64) := by
  apply BitVec.eq_of_toNat_eq
  rw [BitVec.extractLsb'_toNat, BitVec.toNat_ofInt, Nat.shiftRight_eq_div_pow, BitVec.toInt_eq_toNat_cond]
  have := z.isLt
  split <;> omega

theorem mulHigh_signExtend (x y : Word) :
    mulHigh (x.signExtend 128) (y.signExtend 128) = BitVec.ofInt 64 (x.toInt * y.toInt / 2 ^ 64) := by
  have hm : (x.signExtend 128 * y.signExtend 128).toInt = x.toInt * y.toInt := by
    obtain ⟨hlo, hhi⟩ := toInt_mul_bounds x y
    rw [BitVec.toInt_mul, BitVec.toInt_signExtend_of_le (by decide), BitVec.toInt_signExtend_of_le (by decide)]
    exact Int.bmod_eq_of_le (by omega) (by omega)
  rw [mulHigh, extract_high_eq_ofInt, hm]

theorem rotateLeft_amount (x y : Word) :
    x.rotateLeft (amount y) = x <<< (y.toNat % 64) ||| x >>> (64 - y.toNat % 64) := by
  rw [amount, BitVec.rotateLeft_def, Nat.mod_mod]

theorem minI_eq (x y : Word) : (if y.slt x then y else x) = BitVec.ofInt 64 (min x.toInt y.toInt) := by
  rw [min_comm, min_def_lt, apply_ite (BitVec.ofInt 64), BitVec.ofInt_toInt, BitVec.ofInt_toInt]
  exact if_congr BitVec.slt_iff_toInt_lt rfl rfl

theorem maxI_eq (x y : Word) : (if x.slt y then y else x) = BitVec.ofInt 64 (max x.toInt y.toInt) := by
  rw [max_def_lt, apply_ite (BitVec.ofInt 64), BitVec.ofInt_toInt, BitVec.ofInt_toInt]
  exact if_congr BitVec.slt_iff_toInt_lt rfl rfl

theorem minN_eq (x y : Word) : (if y.ult x then y else x) = BitVec.ofNat 64 (min x.toNat y.toNat) := by
  simp only [min_comm x.toNat, min_def_lt, apply_ite (BitVec.ofNat 64), BitVec.ofNat_toNat, BitVec.setWidth_eq]
  exact if_congr BitVec.ult_iff_lt rfl rfl

theorem maxN_eq (x y : Word) : (if x.ult y then y else x) = BitVec.ofNat 64 (max x.toNat y.toNat) := by
  simp only [max_def_lt, apply_ite (BitVec.ofNat 64), BitVec.ofNat_toNat, BitVec.setWidth_eq]
  exact if_congr BitVec.ult_iff_lt rfl rfl

/-! ## Division (R106) -/

theorem sdiv_eq_ofInt (a b : Word) : a.sdiv b = BitVec.ofInt 64 (a.toInt.tdiv b.toInt) :=
  BitVec.eq_of_toInt_eq (by rw [BitVec.toInt_sdiv, BitVec.toInt_ofInt])

theorem srem_eq_ofInt (a b : Word) : a.srem b = BitVec.ofInt 64 (a.toInt.tmod b.toInt) := by
  rw [← BitVec.toInt_srem, BitVec.ofInt_toInt]

theorem divI_remI_of_ne_zero (a : Word) {b : Word} (hb : b ≠ 0) : IsDivI a b (divI a b) (remI a b) :=
  ⟨(if_neg hb).trans (sdiv_eq_ofInt a b), (if_neg hb).trans (srem_eq_ofInt a b)⟩

/-- The quotient and the remainder of R106 give the dividend back, also where the quotient wraps. -/
theorem eq_mul_add_of_isDivI {a b q r : Word} (h : IsDivI a b q r) : a = q * b + r := by
  obtain ⟨hq, hr⟩ := h
  calc a = BitVec.ofInt 64 (a.toInt.tdiv b.toInt * b.toInt + a.toInt.tmod b.toInt) := by
        rw [Int.tdiv_mul_add_tmod, BitVec.ofInt_toInt]
    _ = q * b + r := by rw [BitVec.ofInt_add, BitVec.ofInt_mul, BitVec.ofInt_toInt, hq, hr]

theorem divN_of_ne_zero (a : Word) {b : Word} (hb : b ≠ 0) : divN a b = BitVec.ofNat 64 (a.toNat / b.toNat) := by
  rw [divN, if_neg hb, ← BitVec.toNat_udiv, BitVec.ofNat_toNat, BitVec.setWidth_eq]
  rfl

theorem remN_of_ne_zero (a : Word) {b : Word} (hb : b ≠ 0) : remN a b = BitVec.ofNat 64 (a.toNat % b.toNat) := by
  rw [remN, if_neg hb, ← BitVec.toNat_umod, BitVec.ofNat_toNat, BitVec.setWidth_eq]
  rfl

/-! ## Opcodes and reserved fields (Table 3-4) -/

theorem opsA_of_map {l : List (Instr × Nat)}
    (h : l.map (fun x => (encodeA x.1).map (·.op.toNat)) = l.map fun x => some x.2) : OpsA l :=
  List.map_inj_left.mp h

/-- Table 3-4: the opcodes 0x01 to 0x15 are of the form R with C reserved. -/
theorem decodeA_arith (f : WordA) (h : f.op.toNat ∈ (List.range 21).map (· + 1)) : ∃ i, decodeA f = f.formRrr i := by
  obtain ⟨n, hn, hop⟩ := List.mem_map.mp h
  rw [List.mem_range] at hn
  unfold decodeA
  rw [← hop]
  interval_cases n <;> exact ⟨_, rfl⟩

/-! ## The operations of Table 4-1 -/

theorem scalarDivisions : ∃ qi qn ri rn : Word → Word → Word,
    Scalar2 .divI qi ∧ Scalar2 .divN qn ∧ Scalar2 .remI ri ∧ Scalar2 .remN rn ∧
    (∀ a, qi a 0 = 0xFFFFFFFFFFFFFFFF ∧ qn a 0 = 0xFFFFFFFFFFFFFFFF ∧ ri a 0 = a ∧ rn a 0 = a) ∧
    (qi 0x8000000000000000 (-1) = 0x8000000000000000 ∧ ri 0x8000000000000000 (-1) = 0) ∧
    (∀ a b, b ≠ 0 → IsDivI a b (qi a b) (ri a b) ∧ a = qi a b * b + ri a b ∧
      qn a b = BitVec.ofNat 64 (a.toNat / b.toNat) ∧ rn a b = BitVec.ofNat 64 (a.toNat % b.toNat)) := by
  refine ⟨divI, divN, remI, remN, scalar2_claim (fun _ _ => rfl) fun _ _ _ _ => rfl,
    scalar2_claim (fun _ _ => rfl) fun _ _ _ _ => rfl, scalar2_claim (fun _ _ => rfl) fun _ _ _ _ => rfl,
    scalar2_claim (fun _ _ => rfl) fun _ _ _ _ => rfl, ?byZero, by decide, ?nonzero⟩
  case byZero => exact fun a => ⟨rfl, rfl, rfl, rfl⟩
  case nonzero =>
    intro a b hb
    have h := divI_remI_of_ne_zero a hb
    exact ⟨h, eq_mul_add_of_isDivI h, divN_of_ne_zero a hb, remN_of_ne_zero a hb⟩

/-- Settles O1: every operation of Table 4-1 is a `scalar2` whose function has the table's value. -/
theorem scalarArithmetic : Obligations.ScalarArithmetic := by
  unfold Obligations.ScalarArithmetic
  refine ⟨⟨?add, ?sub, ?mul, ?mulhI, ?mulhN, ?and, ?or, ?xor, ?andn, ?shl, ?shrN, ?shrI, ?rot, ?minI, ?minN, ?maxI, ?maxN⟩,
    scalarDivisions, ?opcodes, ?reserved⟩
  case add => exact scalar2_claim (fun _ _ => rfl) fun _ _ _ _ => rfl
  case sub => exact scalar2_claim (fun _ _ => rfl) fun _ _ _ _ => rfl
  case mul => exact scalar2_claim mul_eq_ofNat fun _ _ _ _ => rfl
  case mulhI => exact scalar2_claim mulHigh_signExtend fun _ _ _ _ => rfl
  case mulhN => exact scalar2_claim mulHigh_zeroExtend fun _ _ _ _ => rfl
  case and => exact scalar2_claim (fun _ _ => rfl) fun _ _ _ _ => rfl
  case or => exact scalar2_claim (fun _ _ => rfl) fun _ _ _ _ => rfl
  case xor => exact scalar2_claim (fun _ _ => rfl) fun _ _ _ _ => rfl
  case andn => exact scalar2_claim (fun _ _ => rfl) fun _ _ _ _ => rfl
  case shl => exact scalar2_claim (fun x y => shiftLeft_eq_ofNat x (amount y)) fun _ _ _ _ => rfl
  case shrN => exact scalar2_claim (fun x y => shiftRight_eq_ofNat x (amount y)) fun _ _ _ _ => rfl
  case shrI => exact scalar2_claim (fun x y => sshiftRight_eq_ofInt x (amount y)) fun _ _ _ _ => rfl
  case rot => exact scalar2_claim rotateLeft_amount fun _ _ _ _ => rfl
  case minI => exact scalar2_claim minI_eq fun _ _ _ _ => rfl
  case minN => exact scalar2_claim minN_eq fun _ _ _ _ => rfl
  case maxI => exact scalar2_claim maxI_eq fun _ _ _ _ => rfl
  case maxN => exact scalar2_claim maxN_eq fun _ _ _ _ => rfl
  case opcodes => exact fun _ _ _ => opsA_of_map rfl
  case reserved =>
    intro f hop hc
    obtain ⟨i, hi⟩ := decodeA_arith f hop
    rw [hi, WordA.formRrr, if_neg hc]

/-! ## Values of R107 to R110 -/

/-- A word whose highest one bit is bit `i` lies between 2^i and 2^(i+1). -/
theorem log2_toNat_of_highest {x : Word} {i : Nat} (hx : x.getLsbD i = true) (hi : ∀ j, i < j → x.getLsbD j = false) :
    x.toNat ≠ 0 ∧ x.toNat.log2 = i := by
  have h : 2 ^ i ≤ x.toNat := Nat.ge_two_pow_of_testBit (by rwa [BitVec.testBit_toNat])
  have h0 : x.toNat ≠ 0 := by have := Nat.two_pow_pos i; omega
  refine ⟨h0, (Nat.log2_eq_iff h0).mpr ⟨h, Nat.lt_pow_two_of_testBit _ fun j hj => ?_⟩⟩
  rw [BitVec.testBit_toNat]
  exact hi j hj

theorem clzWord_of_highest {x : Word} {i : Nat} (hx : x.getLsbD i = true) (hi : ∀ j, i < j → x.getLsbD j = false) :
    clzWord x = BitVec.ofNat 64 (63 - i) := by
  obtain ⟨h0, hlog⟩ := log2_toNat_of_highest hx hi
  rw [clzWord, bitLen, if_neg h0, hlog, show 64 - (i + 1) = 63 - i by omega]

theorem ctzWord_of_lowest {x : Word} {i : Nat} (h64 : i < 64) (hx : x.getLsbD i = true)
    (hi : ∀ j, j < i → x.getLsbD j = false) : ctzWord x = BitVec.ofNat 64 i := by
  have h : (List.range 64).find? (x.getLsbD ·) = some i :=
    List.find?_range_eq_some.mpr ⟨hx, List.mem_range.mpr h64, fun j hj => by rw [hi j hj]; rfl⟩
  rw [ctzWord, h, Option.getD_some]

theorem length_filter_eq_sum_toNat (p : Nat → Bool) (l : List Nat) :
    (l.filter p).length = (l.map fun i => (p i).toNat).sum := by
  induction l with
  | nil => rfl
  | cons i l ih =>
    rw [List.map_cons, List.sum_cons, ← ih, List.filter_cons]
    cases p i with
    | false => exact (Nat.zero_add _).symm
    | true => exact Nat.add_comm _ 1

theorem popcWord_eq_sum (x : Word) :
    popcWord x = BitVec.ofNat 64 ((List.range 64).map fun i => (x.getLsbD i).toNat).sum := by
  rw [popcWord, length_filter_eq_sum_toNat]

theorem sextWord_eq (x : Word) (c : BitVec 6) :
    sextWord x c = BitVec.signExtend 64 (x.extractLsb' 0 (c.toNat + 1)) := by
  apply BitVec.eq_of_getLsbD_eq
  intro i hi
  have hc : c.toNat < 64 := c.isLt
  rw [sextWord, BitVec.getLsbD_sshiftRight, BitVec.getLsbD_signExtend, BitVec.msb_eq_getLsbD_last,
    BitVec.msb_eq_getLsbD_last]
  by_cases h : i < c.toNat + 1
  · simp [h, hi, show 63 - c.toNat + i < 64 by omega]
  · simp [h, hi, show ¬ 63 - c.toNat + i < 64 by omega, show 63 - (63 - c.toNat) = c.toNat by omega,
      show ¬ 63 < 63 - c.toNat by omega, BitVec.getLsbD_eq_getElem hc]

theorem zextWord_eq (x : Word) (c : BitVec 6) :
    zextWord x c = BitVec.zeroExtend 64 (x.extractLsb' 0 (c.toNat + 1)) := by
  apply BitVec.eq_of_getLsbD_eq
  intro i hi
  have hc : c.toNat < 64 := c.isLt
  by_cases h : i < c.toNat + 1
  · simp [zextWord, h, hi, show 63 - c.toNat + i < 64 by omega]
  · simp [zextWord, h, show ¬ 63 - c.toNat + i < 64 by omega]

theorem add_sx_eq_ofInt (x : Word) (i : BitVec 12) : x + sx i = BitVec.ofInt 64 (x.toInt + i.toInt) := by
  rw [BitVec.ofInt_add, BitVec.ofInt_toInt]
  rfl

theorem shiftLeft_or_zx_eq_append (x : Word) (i : BitVec 16) : (x <<< 16) ||| zx i = x.extractLsb' 0 48 ++ i := by
  apply BitVec.eq_of_getLsbD_eq
  intro l hl
  rw [BitVec.getLsbD_or, BitVec.getLsbD_append, zx]
  by_cases h : l < 16
  · simp [h, hl]
  · simp [h, hl, show l - 16 < 48 by omega, BitVec.getLsbD_of_ge i l (by omega),
      BitVec.getLsbD_eq_getElem (show l - 16 < 64 by omega)]

/-! ## Reserved fields of the forms of R107, R109 and R110 -/

theorem decodeA_formRr (f : WordA) (h : f.op.toNat ∈ [0x18, 0x19, 0x1A, 0x1D]) : ∃ i, decodeA f = f.formRr i := by
  simp only [List.mem_cons, List.not_mem_nil, or_false] at h
  unfold decodeA
  rcases h with h | h | h | h <;> rw [h] <;> exact ⟨_, rfl⟩

theorem decodeA_formRrc (f : WordA) (h : f.op.toNat ∈ [0x1B, 0x1C, 0x2C, 0x2D, 0x2E]) :
    ∃ i, decodeA f = f.formRrc i := by
  simp only [List.mem_cons, List.not_mem_nil, or_false] at h
  unfold decodeA
  rcases h with h | h | h | h | h <;> rw [h] <;> exact ⟨_, rfl⟩

theorem decodeA_lih (f : WordA) (h : f.op.toNat ∈ [0x31]) : decodeA f = f.formRi16 .lih := by
  unfold decodeA
  rw [List.mem_singleton.mp h]
  rfl

theorem reservedA_formRr : ReservedA [0x18, 0x19, 0x1A, 0x1D] fun f => f.b ≠ 0 ∨ f.c ≠ 0 := by
  intro f hop hbad
  obtain ⟨i, hi⟩ := decodeA_formRr f hop
  rw [hi, WordA.formRr, if_neg (by tauto)]

/-- The fields `b` and `c` are the halves of the 12-bit immediate. -/
theorem imm12_high (f : WordA) : f.imm12.extractLsb' 6 6 = f.b := by
  rw [WordA.imm12, extract_high _ _ _ _ (by decide)]
  simp

theorem reservedA_formRrc : ReservedA [0x1B, 0x1C, 0x2C, 0x2D, 0x2E] fun f => f.b ≠ 0 := by
  intro f hop hb
  obtain ⟨i, hi⟩ := decodeA_formRrc f hop
  rw [hi, WordA.formRrc, if_neg hb]

/-! ## Register forms, immediate forms and constants -/

theorem sel_claim (s : State) (k : Issue) (d a b c : SReg) (hk : s.dev.issuer? = some k) :
    exec (.sel d a b c) s = .next (wroteScalar s k 4 d fun t =>
      if (k.strand t).rd c ≠ 0 then (k.strand t).rd a else (k.strand t).rd b) :=
  exec_eq_wroteScalar (fun x => if x.rd c ≠ 0 then x.rd a else x.rd b) hk (fun _ => rfl) rfl

theorem lea_claim (s : State) (k : Issue) (d a b : SReg) (n : BitVec 6) (hk : s.dev.issuer? = some k) :
    exec (.lea d a b n) s = .next (wroteScalar s k 4 d fun t =>
      (k.strand t).rd a + BitVec.ofNat 64 (((k.strand t).rd b).toNat * 2 ^ n.toNat)) :=
  exec_eq_wroteScalar (fun x => x.rd a + BitVec.ofNat 64 ((x.rd b).toNat * 2 ^ n.toNat)) hk
    (fun x => congrArg (x.rd a + ·) (shiftLeft_eq_ofNat (x.rd b) n.toNat)) rfl

theorem bitCounts_claim : ∃ clz ctz popc : Word → Word, Scalar1 .clz clz ∧ Scalar1 .ctz ctz ∧ Scalar1 .popc popc ∧
    clz 0 = 64 ∧ ctz 0 = 64 ∧
    (∀ x i, i < 64 → x.getLsbD i = true → (∀ j, i < j → x.getLsbD j = false) → clz x = BitVec.ofNat 64 (63 - i)) ∧
    (∀ x i, i < 64 → x.getLsbD i = true → (∀ j, j < i → x.getLsbD j = false) → ctz x = BitVec.ofNat 64 i) ∧
    (∀ x, popc x = BitVec.ofNat 64 ((List.range 64).map fun i => (x.getLsbD i).toNat).sum) :=
  ⟨clzWord, ctzWord, popcWord, scalar1_claim fun _ _ _ => rfl, scalar1_claim fun _ _ _ => rfl,
    scalar1_claim fun _ _ _ => rfl, by decide, by decide, fun _ _ _ hx hi => clzWord_of_highest hx hi,
    fun _ _ h64 hx hi => ctzWord_of_lowest h64 hx hi, popcWord_eq_sum⟩

theorem li_claim (s : State) (k : Issue) (d : SReg) (i : BitVec 18) (hk : s.dev.issuer? = some k) :
    exec (.li d i) s = .next (wroteScalar s k 4 d fun _ => BitVec.ofInt 64 i.toInt) :=
  exec_eq_wroteScalar (fun _ => BitVec.ofInt 64 i.toInt) hk (fun _ => rfl) rfl

theorem lih_claim (s : State) (k : Issue) (d : SReg) (i : BitVec 16) (hk : s.dev.issuer? = some k) :
    exec (.lih d i) s = .next (wroteScalar s k 4 d fun t => ((k.strand t).rd d).extractLsb' 0 48 ++ i) :=
  exec_eq_wroteScalar (fun x => (x.rd d).extractLsb' 0 48 ++ i) hk (fun x => shiftLeft_or_zx_eq_append (x.rd d) i) rfl

/-- Settles O2: the register forms of R107, the immediate forms of R109 and the constants of R110, each by its value. -/
theorem scalarFormsAndImmediates : Obligations.ScalarFormsAndImmediates := by
  unfold Obligations.ScalarFormsAndImmediates
  refine ⟨⟨sel_claim, lea_claim, bitCounts_claim, ?sext, ?zext, ?mov⟩,
    ⟨?addi, ?andi, ?ori, ?xori, ?shli, ?shriN, ?shriI, li_claim, lih_claim⟩, ?opcodes, reservedA_formRr, ?extensions,
    ?shiftOpcodes, ?shifts, ?lih, rfl, rfl, rfl, rfl, by decide, by decide, by decide, by decide⟩
  case sext => exact scalarI_claim sextWord_eq fun _ _ _ _ => rfl
  case zext => exact scalarI_claim zextWord_eq fun _ _ _ _ => rfl
  case mov => exact scalar1_claim fun _ _ _ => rfl
  case addi => exact scalarI_claim add_sx_eq_ofInt fun _ _ _ _ => rfl
  case andi => exact scalarI_claim (fun _ _ => rfl) fun _ _ _ _ => rfl
  case ori => exact scalarI_claim (fun _ _ => rfl) fun _ _ _ _ => rfl
  case xori => exact scalarI_claim (fun _ _ => rfl) fun _ _ _ _ => rfl
  case shli => exact scalarI_claim (fun x n => shiftLeft_eq_ofNat x n.toNat) fun _ _ _ _ => rfl
  case shriN => exact scalarI_claim (fun x n => shiftRight_eq_ofNat x n.toNat) fun _ _ _ _ => rfl
  case shriI => exact scalarI_claim (fun x n => sshiftRight_eq_ofInt x n.toNat) fun _ _ _ _ => rfl
  case opcodes => exact fun _ _ _ _ _ => opsA_of_map rfl
  case shiftOpcodes => exact fun _ _ _ => opsA_of_map rfl
  case extensions => exact fun f hop hb => reservedA_formRrc f ((show [0x1B, 0x1C] ⊆ _ by decide) hop) hb
  case shifts => exact fun f hop hb =>
    reservedA_formRrc f ((show [0x2C, 0x2D, 0x2E] ⊆ _ by decide) hop) fun h => hb ((imm12_high f).trans h)
  case lih =>
    intro f hop hbad
    rw [decodeA_lih f hop, WordA.formRi16, if_neg hbad]

/-! ## Scalar compares (R108) -/

theorem boolWord_eq_ite {b : Bool} {p : Prop} [Decidable p] (h : b = true ↔ p) : boolWord b = if p then 1 else 0 :=
  if_congr h rfl rfl

/-- Settles O3: each compare writes `boolWord` of its relation. -/
theorem scalarCompares : Obligations.ScalarCompares := by
  unfold Obligations.ScalarCompares
  refine ⟨?eq, ?ne, ?ltI, ?ltN, ?leI, ?leN, fun d a b => rfl⟩
  case eq => exact scalar2_claim (fun _ _ => boolWord_eq_ite beq_iff_eq) fun _ _ _ _ => rfl
  case ne => exact scalar2_claim (fun _ _ => boolWord_eq_ite bne_iff_ne) fun _ _ _ _ => rfl
  case ltI => exact scalar2_claim (fun _ _ => boolWord_eq_ite BitVec.slt_iff_toInt_lt) fun _ _ _ _ => rfl
  case ltN => exact scalar2_claim (fun _ _ => boolWord_eq_ite BitVec.ult_iff_lt) fun _ _ _ _ => rfl
  case leI => exact scalar2_claim (fun _ _ => boolWord_eq_ite BitVec.sle_iff_toInt_le) fun _ _ _ _ => rfl
  case leN => exact scalar2_claim (fun _ _ => boolWord_eq_ite BitVec.ule_iff_le) fun _ _ _ _ => rfl

/-! ## Lane bits of a gang (R13) -/

/-- A word built by setting, one after the other, the bits below `n` that `p` holds of. -/
theorem getLsbD_foldl_setBit {w : Nat} (p : Nat → Bool) (n l : Nat) (hl : l < w) :
    ((List.range n).foldl (fun (m : BitVec w) i => if p i then m ||| (1#w <<< i) else m) 0).getLsbD l =
      (decide (l < n) && p l) := by
  induction n with
  | zero => simp
  | succ n ih =>
    have hbit : (1#w <<< n).getLsbD l = decide (l = n) := by
      rw [BitVec.getLsbD_shiftLeft, BitVec.getLsbD_one]
      grind
    rw [List.range_succ, List.foldl_append, List.foldl_cons, List.foldl_nil]
    by_cases hp : p n = true
    · rw [if_pos hp, BitVec.getLsbD_or, ih, hbit]
      grind
    · rw [if_neg hp, ih]
      grind

theorem getLsbD_lanes (k : Issue) {l : Nat} (hl : l < 32) : k.lanes.getLsbD l = inGang k.gang (l / 4) := by
  rw [Issue.lanes, laneBits, getLsbD_foldl_setBit (fun l => inGang k.gang (l / 4)) 32 l hl]
  simp [hl]

/-- The bits of a mask register that the gang sees. -/
theorem getLsbD_mask_and_lanes (k : Issue) (a : MReg) {l : Nat} (hl : l < 32) :
    (k.wave.mask a &&& k.lanes).getLsbD l = gangBit k a l := by
  rw [BitVec.getLsbD_and, getLsbD_lanes k hl, gangBit, Bool.and_comm]

/-! ## Masks written over the gang's lanes (R124, R125) -/

theorem maskResult_of_setMask {i : Instr} {s : State} {k : Issue} {d : MReg} {f : Nat → Bool} (v : Issue → LaneMask)
    (hv : ∀ l, l < 32 → (v k).getLsbD l = f l) (hk : s.dev.issuer? = some k)
    (hi : exec i s = andNext s 4 fun k x => x.onWave k fun w => w.setMask k.lanes d (v k)) : MaskResult s k i d f := by
  refine ⟨fun w => (w.mask d &&& ~~~k.lanes) ||| (v k &&& k.lanes), fun w l hl => ?_, ?_⟩
  · have hn : (~~~k.lanes).getLsbD l = !inGang k.gang (l / 4) := by
      rw [BitVec.getLsbD_not, getLsbD_lanes k hl]
      simp [hl]
    rw [BitVec.getLsbD_or, BitVec.getLsbD_and, BitVec.getLsbD_and, hn, getLsbD_lanes k hl, hv l hl]
    cases inGang k.gang (l / 4) <;> simp
  · rw [hi, andNext_next s k 4 _ hk, onWave_advance_eq s k (fun w => w.setMask k.lanes d (v k)) (fun _ => rfl) 4]
    rfl

theorem maskResult_of_maskOp {i : Instr} {s : State} {k : Issue} {d : MReg} {f : Nat → Bool} (v : Wave → LaneMask)
    (hv : ∀ l, l < 32 → (v k.wave).getLsbD l = f l) (hk : s.dev.issuer? = some k) (hi : exec i s = maskOp s d v) :
    MaskResult s k i d f :=
  maskResult_of_setMask (fun k => v k.wave) hv hk hi

/-- Settles O9: bit by bit, the meaning's word is `f` of the bits of the sources. -/
theorem maskLogic : Obligations.MaskLogic := by
  unfold Obligations.MaskLogic
  intro s k d a b hk x y
  refine ⟨?and, ?or, ?xor, ?andn, ?not, rfl, rfl⟩
  case and => exact maskResult_of_maskOp (fun w => w.mask a &&& w.mask b) (fun _ _ => BitVec.getLsbD_and) hk rfl
  case or => exact maskResult_of_maskOp (fun w => w.mask a ||| w.mask b) (fun _ _ => BitVec.getLsbD_or) hk rfl
  case xor => exact maskResult_of_maskOp (fun w => w.mask a ^^^ w.mask b) (fun _ _ => BitVec.getLsbD_xor) hk rfl
  case andn =>
    refine maskResult_of_maskOp (fun w => w.mask a &&& ~~~(w.mask b)) (fun l hl => ?_) hk rfl
    rw [BitVec.getLsbD_and, BitVec.getLsbD_not]
    simp [x, y, hl]
  case not =>
    refine maskResult_of_maskOp (fun w => ~~~(w.mask a)) (fun l hl => ?_) hk rfl
    rw [BitVec.getLsbD_not]
    simp [x, hl]

/-! ## Masks read into scalars (R124, R126) -/

theorem exec_eq_of_maskToScalar {i : Instr} {s : State} {k : Issue} {d : SReg} {a : MReg} (g : LaneMask → Word)
    (hk : s.dev.issuer? = some k) (hi : exec i s = maskToScalar s d a g) :
    exec i s = .next (wroteScalar s k 4 d fun _ => g (k.wave.mask a &&& k.lanes)) := by
  have h := scalarOp_eq s k d (fun _ => g (k.wave.mask a &&& k.lanes)) hk
  rw [scalarOp, issue_next s k _ hk] at h
  rw [hi, maskToScalar, andNext_next s k 4 _ hk]
  exact h

/-- The set lanes of a mask as the gang sees it, in rising order. -/
theorem lanesOf_mask_and_lanes (k : Issue) (a : MReg) :
    lanesOf (k.wave.mask a &&& k.lanes) = (List.range 32).filter (gangBit k a) :=
  List.filter_congr fun _ hl => getLsbD_mask_and_lanes k a (List.mem_range.mp hl)

theorem mget_claim (s : State) (k : Issue) (hk : s.dev.issuer? = some k) (d : SReg) (a : MReg) : ∃ v : Word,
    (∀ l, v.getLsbD l = (decide (l < 32) && gangBit k a l)) ∧
      exec (.mget d a) s = .next (wroteScalar s k 4 d fun _ => v) := by
  refine ⟨(k.wave.mask a &&& k.lanes).zeroExtend 64, fun l => ?_, exec_eq_of_maskToScalar _ hk rfl⟩
  by_cases hl : l < 32
  · rw [BitVec.getLsbD_setWidth, getLsbD_mask_and_lanes k a hl]
    simp [hl, show l < 64 by omega]
  · rw [BitVec.getLsbD_setWidth, BitVec.getLsbD_of_ge _ l (by omega)]
    simp [hl]

theorem mset_claim (s : State) (k : Issue) (hk : s.dev.issuer? = some k) (d : MReg) (a : SReg) :
    MaskResult s k (.mset d a) d fun l => ((k.strand (l / 4)).rd a).getLsbD l := by
  refine maskResult_of_setMask _ (fun l hl => ?_) hk rfl
  rw [getLsbD_foldl_setBit (fun l => ((k.strand (l / 4)).rd a).getLsbD l) 32 l hl]
  simp [hl]

theorem mpop_claim (s : State) (k : Issue) (hk : s.dev.issuer? = some k) (d : SReg) (a : MReg) :
    exec (.mpop d a) s = .next (wroteScalar s k 4 d fun _ =>
      BitVec.ofNat 64 ((List.range 32).countP (gangBit k a))) := by
  rw [List.countP_eq_length_filter, ← lanesOf_mask_and_lanes]
  exact exec_eq_of_maskToScalar (fun m => BitVec.ofNat 64 (lanesOf m).length) hk rfl

theorem mffs_claim (s : State) (k : Issue) (hk : s.dev.issuer? = some k) (d : SReg) (a : MReg) :
    exec (.mffs d a) s = .next (wroteScalar s k 4 d fun _ =>
      BitVec.ofNat 64 (((List.range 32).find? (gangBit k a)).getD 32)) := by
  rw [← List.head?_filter, ← lanesOf_mask_and_lanes]
  exact exec_eq_of_maskToScalar (fun m => BitVec.ofNat 64 ((lanesOf m).head?.getD 32)) hk rfl

/-- Settles O10: the moves between masks and scalars, through the mask's bits in the gang's lanes. -/
theorem maskMoves : Obligations.MaskMoves := by
  unfold Obligations.MaskMoves
  exact fun s k hk => ⟨mget_claim s k hk, mset_claim s k hk, mpop_claim s k hk, mffs_claim s k hk,
    fun _ _ => ⟨rfl, rfl⟩⟩

/-! ## nop and the pad byte (R140) -/

theorem exec_eq_passed {i : Instr} {s : State} {k : Issue} {len : Nat} (hk : s.dev.issuer? = some k)
    (hi : exec i s = andNext s len fun _ d => d) : exec i s = .next (gangStep s k fun _ x => passed len x) := by
  rw [hi, andNext_next s k len _ hk, Dev.advance, onGang_eq]
  rfl

/-- Settles O11: both only advance the gang, by the length of their encoding. -/
theorem nopAndPad : Obligations.NopAndPad := by
  unfold Obligations.NopAndPad
  exact fun s k hk => ⟨exec_eq_passed hk rfl, exec_eq_passed hk rfl, rfl, rfl⟩

end Sys2Proof.Proofs
end

section
/-!
PROOFS. Lane arithmetic: integers, shifts and bit fields, selects, compares, dot products, 64-bit lanes and the immediate
forms (05: R146, R149 to R154; 06: R190).
-/

open Sys2Proof Sys2Proof.Machine Sys2Proof.Claims

namespace Sys2Proof.Proofs

/-! ## Lane instructions: from `laneInstr` to a claim about every issuing state (R14, R146, R147) -/

theorem inWindow_eq_true_iff (k : Issue) (regs : List Nat) : k.inWindow regs = true ↔ InWindow k regs := by
  simp [Issue.inWindow, InWindow]

theorem beyond_of_laneInstr {i : Instr} {s : State} {k : Issue} {len : Nat} {regs : List Nat} {g : Guard}
    {f : LaneView → Wave → Wave} (hk : s.dev.issuer? = some k) (hi : exec i s = laneInstr s len regs g f) :
    Beyond s k i regs := by
  intro hw
  rw [hi, laneInstr_trap s k len regs g f hk (by rwa [← Bool.not_eq_true, inWindow_eq_true_iff])]
  rfl

/-- Inside the window the gang's wave is changed by `f`, which sees the lane sources of the state before. -/
theorem exec_eq_laneStep {i : Instr} {s : State} {k : Issue} {len : Nat} {regs : List Nat} {g : Guard}
    {f : LaneView → Wave → Wave} (hk : s.dev.issuer? = some k) (hw : InWindow k regs)
    (hi : exec i s = laneInstr s len regs g f) (hid : ∀ x w, (f x w).id = w.id) :
    exec i s = .next (laneStep s k len regs (f ⟨k, k.active g, s.dev.source k⟩)) := by
  rw [hi, laneInstr_next s k len regs g f hk ((inWindow_eq_true_iff k regs).mpr hw)]
  exact congrArg Host.Outcome.next (onWave_advance_eq
    { s with dev := { s.dev with free := if s.dev.unsettled k regs then s.dev.free + 1 else s.dev.free } } k _
    (hid _) len)

/-! ## One lane result -/

theorem laneResult_of_laneInstr {i : Instr} {s : State} {k : Issue} {len : Nat} {regs : List Nat} {g : Guard} {d : VReg}
    {f : Nat → Lane} (v : LaneView → Nat → Lane) (hv : ∀ l, v ⟨k, k.active g, s.dev.source k⟩ l = f l)
    (hk : s.dev.issuer? = some k) (hi : exec i s = laneInstr s len regs g fun x w => w.setLanes x.act d.toNat (v x)) :
    LaneResult s k i len regs g d f := by
  refine ⟨beyond_of_laneInstr hk hi, fun hw => ?_⟩
  rw [exec_eq_laneStep hk hw hi fun _ _ => rfl, funext hv]
  rfl

theorem laneResult_of_lane1 {i : Instr} {s : State} {k : Issue} {gd : Guard} {d a : VReg} (f : Lane → Lane)
    (hk : s.dev.issuer? = some k) (hi : exec i s = lane1 s gd d a f) :
    LaneResult s k i 6 [d.toNat, a.toNat] gd d fun l => f (s.dev.source k a.toNat l) :=
  laneResult_of_laneInstr (fun x l => f (x.rd1 a l)) (fun _ => rfl) hk hi

theorem laneResult_of_lane2 {i : Instr} {s : State} {k : Issue} {gd : Guard} {d a b : VReg} (f : Lane → Lane → Lane)
    (hk : s.dev.issuer? = some k) (hi : exec i s = lane2 s gd d a b f) :
    LaneResult s k i 6 [d.toNat, a.toNat, b.toNat] gd d fun l => f (s.dev.source k a.toNat l) (s.dev.source k b.toNat l) :=
  laneResult_of_laneInstr (fun x l => f (x.rd1 a l) (x.rd1 b l)) (fun _ => rfl) hk hi

theorem lane1_claim {i : Guard → VReg → VReg → Instr} {g f : Lane → Lane} (hg : ∀ x, g x = f x)
    (hi : ∀ gd d a s, exec (i gd d a) s = lane1 s gd d a g) : Lane1 i f := by
  obtain rfl := funext hg
  exact fun s k gd d a hk => laneResult_of_lane1 g hk (hi gd d a s)

theorem lane2_claim {i : Guard → VReg → VReg → VReg → Instr} {g f : Lane → Lane → Lane} (hg : ∀ x y, g x y = f x y)
    (hi : ∀ gd d a b s, exec (i gd d a b) s = lane2 s gd d a b g) : Lane2 i f := by
  obtain rfl := funext₂ hg
  exact fun s k gd d a b hk => laneResult_of_lane2 g hk (hi gd d a b s)

theorem lane3_claim {i : Guard → VReg → VReg → VReg → VReg → Instr} {g f : Lane → Lane → Lane → Lane}
    (hg : ∀ x y z, g x y z = f x y z) (hi : ∀ gd d a b c s, exec (i gd d a b c) s = lane3 s gd d a b c g) : Lane3 i f :=
  fun s _ gd d a b c hk => laneResult_of_laneInstr (fun x l => g (x.rd1 a l) (x.rd1 b l) (x.rd1 c l))
    (fun _ => hg _ _ _) hk (hi gd d a b c s)

theorem laneImm_claim {i : Guard → VReg → VReg → BitVec 32 → Instr} {g f : Lane → Lane → Lane} (hg : ∀ x c, g x c = f x c)
    (hi : ∀ gd d a c s, exec (i gd d a c) s = laneImm s gd d a (g · c)) : LaneImm i f :=
  fun s _ gd d a c hk => laneResult_of_laneInstr (fun x l => g (x.rd1 a l) c) (fun _ => hg _ _) hk (hi gd d a c s)

/-! ## A result in a pair (R6, R13) -/

theorem extractLsb'_low_word (x : Word) : x.extractLsb' 0 32 = BitVec.ofNat 32 x.toNat := rfl

theorem extractLsb'_high_word (x : Word) : x.extractLsb' 32 32 = BitVec.ofNat 32 (x.toNat / 2 ^ 32) := by
  rw [BitVec.extractLsb', Nat.shiftRight_eq_div_pow]

theorem setPair_eq_putLanes (w : Wave) (act : LaneMask) (d : VReg) (f : Nat → Word) :
    w.setPair act d f = { w with
      v := putLanes act d.toNat
        [fun l => BitVec.ofNat 32 (f l).toNat, fun l => BitVec.ofNat 32 ((f l).toNat / 2 ^ 32)] w.v } := by
  simp only [Wave.setPair, extractLsb'_low_word, extractLsb'_high_word]
  rfl

theorem pairResult_of_laneInstr {i : Instr} {s : State} {k : Issue} {regs : List Nat} {g : Guard} {d : VReg} {f : Nat → Word}
    (v : LaneView → Nat → Word) (hv : ∀ l, v ⟨k, k.active g, s.dev.source k⟩ l = f l) (hk : s.dev.issuer? = some k)
    (hi : exec i s = laneInstr s 6 regs g fun x w => w.setPair x.act d (v x)) : PairResult s k i regs g d f := by
  refine ⟨beyond_of_laneInstr hk hi, fun hw => ?_⟩
  rw [exec_eq_laneStep hk hw hi fun _ _ => rfl, funext hv]
  simp only [setPair_eq_putLanes]

/-! ## A result in a mask (R149) -/

/-- The number with a one at each place below `n` that `p` holds of. -/
def onesBelow (p : Nat → Bool) (n : Nat) : Nat := (List.range n).foldl (fun m l => if p l then m + 2 ^ l else m) 0

theorem laneCmp_eq_setMask_onesBelow (s : State) (len : Nat) (regs : List Nat) (g : Guard) (d : MReg)
    (p : LaneView → Nat → Bool) : laneCmp s len regs g d p =
      laneInstr s len regs g fun x w => w.setMask x.act d (BitVec.ofNat 32 (onesBelow (p x) 32)) := rfl

theorem onesBelow_succ (p : Nat → Bool) (n : Nat) :
    onesBelow p (n + 1) = if p n then 2 ^ n + onesBelow p n else onesBelow p n := by
  rw [onesBelow, List.range_succ, List.foldl_append, List.foldl_cons, List.foldl_nil, Nat.add_comm]
  rfl

theorem onesBelow_lt (p : Nat → Bool) (n : Nat) : onesBelow p n < 2 ^ n := by
  induction n with
  | zero => exact Nat.one_pos
  | succ n ih =>
    rw [onesBelow_succ, Nat.pow_succ]
    split <;> omega

theorem testBit_onesBelow (p : Nat → Bool) (n l : Nat) : (onesBelow p n).testBit l = (decide (l < n) && p l) := by
  induction n with
  | zero => simp [onesBelow]
  | succ n ih =>
    rcases Nat.lt_trichotomy l n with h | rfl | h
    · have hkeep : (onesBelow p (n + 1)).testBit l = (onesBelow p n).testBit l := by
        rw [onesBelow_succ, apply_ite (Nat.testBit · l), Nat.testBit_two_pow_add_gt h, ite_self]
      rw [hkeep, ih]
      simp [h, Nat.lt_succ_of_lt h]
    · rw [onesBelow_succ, apply_ite (Nat.testBit · l), Nat.testBit_two_pow_add_eq, ih]
      cases p l <;> simp
    · rw [Nat.testBit_lt_two_pow ((onesBelow_lt p (n + 1)).trans_le (Nat.pow_le_pow_right Nat.two_pos h))]
      simp [show ¬ l < n + 1 by omega]

theorem getLsbD_setMask {w : Wave} {act : LaneMask} {d : MReg} (x : LaneMask) {l : Nat} (hl : l < 32) :
    ((w.mask d &&& ~~~act) ||| (x &&& act)).getLsbD l = if act.getLsbD l then x.getLsbD l else (w.mask d).getLsbD l := by
  rw [BitVec.getLsbD_or, BitVec.getLsbD_and, BitVec.getLsbD_and, BitVec.getLsbD_not]
  cases act.getLsbD l <;> simp [hl]

theorem laneMaskResult_of_laneCmp {i : Instr} {s : State} {k : Issue} {len : Nat} {regs : List Nat} {g : Guard} {d : MReg}
    {f : Nat → Bool} (p : LaneView → Nat → Bool) (hp : ∀ l, p ⟨k, k.active g, s.dev.source k⟩ l = f l)
    (hk : s.dev.issuer? = some k) (hi : exec i s = laneCmp s len regs g d p) : LaneMaskResult s k i len regs g d f := by
  rw [laneCmp_eq_setMask_onesBelow] at hi
  refine ⟨beyond_of_laneInstr hk hi, fun hw => ⟨_, fun w l hl => ?_, exec_eq_laneStep hk hw hi fun _ _ => rfl⟩⟩
  rw [getLsbD_setMask _ hl, BitVec.getLsbD_ofNat, testBit_onesBelow, hp]
  simp [hl]


/-! ## Words of any width as numbers (R47) -/

section
variable {w : Nat} (x y : BitVec w)

theorem mul_eq_ofNat_toNat : x * y = BitVec.ofNat w (x.toNat * y.toNat) := by
  rw [BitVec.ofNat_mul, BitVec.ofNat_toNat, BitVec.ofNat_toNat, BitVec.setWidth_eq, BitVec.setWidth_eq]

theorem neg_eq_ofInt_toInt : -x = BitVec.ofInt w (-x.toInt) := by
  rw [BitVec.ofInt_neg, BitVec.ofInt_toInt]

theorem sub_eq_ofInt_toInt : x - y = BitVec.ofInt w (x.toInt - y.toInt) := by
  rw [Int.sub_eq_add_neg, BitVec.ofInt_add, BitVec.ofInt_neg, BitVec.ofInt_toInt, BitVec.ofInt_toInt, BitVec.sub_eq_add_neg]

theorem abs_eq_ofInt_toInt : (if x.msb then -x else x) = BitVec.ofInt w |x.toInt| := by
  rw [BitVec.msb_eq_toInt]
  by_cases h : x.toInt < 0
  · rw [if_pos (decide_eq_true h), abs_of_neg h, neg_eq_ofInt_toInt]
  · rw [if_neg (by simpa using h), abs_of_nonneg (Int.not_lt.mp h), BitVec.ofInt_toInt]

theorem minI_eq_ofInt : (if y.slt x then y else x) = BitVec.ofInt w (min x.toInt y.toInt) := by
  rw [min_comm, min_def_lt, apply_ite (BitVec.ofInt w), BitVec.ofInt_toInt, BitVec.ofInt_toInt]
  exact if_congr BitVec.slt_iff_toInt_lt rfl rfl

theorem maxI_eq_ofInt : (if x.slt y then y else x) = BitVec.ofInt w (max x.toInt y.toInt) := by
  rw [max_def_lt, apply_ite (BitVec.ofInt w), BitVec.ofInt_toInt, BitVec.ofInt_toInt]
  exact if_congr BitVec.slt_iff_toInt_lt rfl rfl

theorem minN_eq_ofNat : (if y.ult x then y else x) = BitVec.ofNat w (min x.toNat y.toNat) := by
  simp only [min_comm x.toNat, min_def_lt, apply_ite (BitVec.ofNat w), BitVec.ofNat_toNat, BitVec.setWidth_eq]
  exact if_congr BitVec.ult_iff_lt rfl rfl

theorem maxN_eq_ofNat : (if x.ult y then y else x) = BitVec.ofNat w (max x.toNat y.toNat) := by
  simp only [max_def_lt, apply_ite (BitVec.ofNat w), BitVec.ofNat_toNat, BitVec.setWidth_eq]
  exact if_congr BitVec.ult_iff_lt rfl rfl

theorem shiftLeft_eq_ofNat_mul (n : Nat) : x <<< n = BitVec.ofNat w (x.toNat * 2 ^ n) := by
  apply BitVec.eq_of_toNat_eq
  rw [BitVec.toNat_shiftLeft, BitVec.toNat_ofNat, Nat.shiftLeft_eq]

theorem ushiftRight_eq_ofNat_div (n : Nat) : x >>> n = BitVec.ofNat w (x.toNat / 2 ^ n) := by
  rw [← Nat.shiftRight_eq_div_pow, ← BitVec.toNat_ushiftRight, BitVec.ofNat_toNat, BitVec.setWidth_eq]

theorem sshiftRight_eq_ofInt_div (n : Nat) : x.sshiftRight n = BitVec.ofInt w (x.toInt / 2 ^ n) := by
  rw [BitVec.sshiftRight_eq, Int.shiftRight_eq_div_pow]
  norm_num

end

theorem rotateLeft_lamount (x y : Lane) :
    x.rotateLeft (lamount y) = x <<< (y.toNat % 32) ||| x >>> (32 - y.toNat % 32) := by
  rw [lamount, BitVec.rotateLeft_def, Nat.mod_mod]

/-! ## High halves of products (Table 5-2) -/

theorem toInt_mul_lane_bounds (x y : Lane) : -2 ^ 63 ≤ x.toInt * y.toInt ∧ x.toInt * y.toInt < 2 ^ 63 := by
  have hx := BitVec.toInt_lt (x := x)
  have hx' := BitVec.le_toInt x
  have hy := BitVec.toInt_lt (x := y)
  have hy' := BitVec.le_toInt y
  have h : |x.toInt * y.toInt| ≤ 2 ^ 31 * 2 ^ 31 := by
    rw [abs_mul]
    gcongr <;> rw [abs_le] <;> omega
  have := abs_le.mp h
  omega

/-- Bits 63 to 32 of a word are its signed value divided by 2^32, rounded down. -/
theorem extractLsb'_high_word_eq_ofInt (z : Word) : z.extractLsb' 32 32 = BitVec.ofInt 32 (z.toInt / 2 ^ 32) := by
  apply BitVec.eq_of_toNat_eq
  rw [BitVec.extractLsb'_toNat, BitVec.toNat_ofInt, Nat.shiftRight_eq_div_pow, BitVec.toInt_eq_toNat_cond]
  have := z.isLt
  split <;> omega

theorem imulhI_eq_ofInt (x y : Lane) :
    (x.signExtend 64 * y.signExtend 64).extractLsb' 32 32 = BitVec.ofInt 32 (x.toInt * y.toInt / 2 ^ 32) := by
  have hm : (x.signExtend 64 * y.signExtend 64).toInt = x.toInt * y.toInt := by
    obtain ⟨hlo, hhi⟩ := toInt_mul_lane_bounds x y
    rw [BitVec.toInt_mul, BitVec.toInt_signExtend_of_le (by decide), BitVec.toInt_signExtend_of_le (by decide)]
    exact Int.bmod_eq_of_le (by omega) (by omega)
  rw [extractLsb'_high_word_eq_ofInt, hm]

theorem toNat_zeroExtend_mul_lane (x y : Lane) : (x.zeroExtend 64 * y.zeroExtend 64).toNat = x.toNat * y.toNat := by
  have h : x.toNat * y.toNat < 2 ^ 64 :=
    calc x.toNat * y.toNat < 2 ^ 32 * 2 ^ 32 := Nat.mul_lt_mul'' x.isLt y.isLt
      _ = 2 ^ 64 := by norm_num
  rw [BitVec.toNat_mul, BitVec.toNat_setWidth_of_le (by decide), BitVec.toNat_setWidth_of_le (by decide), Nat.mod_eq_of_lt h]

theorem imulhN_eq_ofNat (x y : Lane) :
    (x.zeroExtend 64 * y.zeroExtend 64).extractLsb' 32 32 = BitVec.ofNat 32 (x.toNat * y.toNat / 2 ^ 32) := by
  rw [extractLsb'_high_word, toNat_zeroExtend_mul_lane]

theorem imad_eq_ofNat (x y z : Lane) : x * y + z = BitVec.ofNat 32 (x.toNat * y.toNat + z.toNat) := by
  rw [BitVec.ofNat_add, ← mul_eq_ofNat_toNat, BitVec.ofNat_toNat, BitVec.setWidth_eq]

/-! ## Counts and reversal of bits (Table 5-2) -/

theorem popcLane_eq_sum (x : Lane) :
    popcLane x = BitVec.ofNat 32 ((List.range 32).map fun i => (x.getLsbD i).toNat).sum := by
  rw [popcLane, lane32, length_filter_eq_sum_toNat]

theorem clzLane_of_highest {x : Lane} {i : Nat} (hx : x.getLsbD i = true) (hi : ∀ j, i < j → x.getLsbD j = false) :
    clzLane x = BitVec.ofNat 32 (31 - i) := by
  have h64 : i < 64 := by have := BitVec.lt_of_getLsbD hx; omega
  obtain ⟨h0, hlog⟩ := log2_toNat_of_highest (x := x.zeroExtend 64) (i := i) (by simp [h64, hx])
    fun j hj => by simp [hi j hj]
  rw [BitVec.toNat_setWidth_of_le (by decide)] at h0 hlog
  rw [clzLane, lane32, bitLen, if_neg h0, hlog, show 32 - (i + 1) = 31 - i by omega]

theorem getLsbD_brevLane (x : Lane) {i : Nat} (hi : i < 32) : (brevLane x).getLsbD i = x.getLsbD (31 - i) := by
  rw [brevLane, BitVec.getLsbD_reverse, BitVec.getMsbD, show 32 - 1 - i = 31 - i from rfl]
  simp [hi]

/-! ## Bit fields (R151) -/

theorem bfField_eq_toNat (x : Lane) (p n : Nat) : bfField x p n = (x.extractLsb' p n).toNat := by
  rw [bfField, BitVec.extractLsb'_toNat, Nat.shiftRight_eq_div_pow]

theorem bfeN_eq_zeroExtend (p n : Nat) (x : Lane) : bfeN p n x = (x.extractLsb' p n).zeroExtend 32 := by
  rw [bfeN, lane32, bfField_eq_toNat, BitVec.ofNat_toNat]

theorem bfeI_eq_signExtend (p : Nat) {n : Nat} (hn : 1 ≤ n) (x : Lane) :
    bfeI p n x = (x.extractLsb' p n).signExtend 32 := by
  have hpow : 2 ^ n = 2 * 2 ^ (n - 1) := by rw [← Nat.pow_succ', Nat.succ_eq_add_one, Nat.sub_add_cancel hn]
  have hint := BitVec.toInt_eq_toNat_cond (x.extractLsb' p n)
  rw [BitVec.signExtend]
  simp only [bfeI, lane32, bfField_eq_toNat]
  by_cases h : 2 ^ (n - 1) ≤ (x.extractLsb' p n).toNat
  · rw [if_pos h, hint, if_neg (by omega)]
    norm_cast
  · rw [if_neg h, hint, if_pos (by omega), BitVec.ofInt_natCast]

theorem getLsbD_bfeN (p n : Nat) (x : Lane) {i : Nat} (hi : i < 32) :
    (bfeN p n x).getLsbD i = (decide (i < n ∧ p + i < 32) && x.getLsbD (p + i)) := by
  rw [bfeN_eq_zeroExtend, BitVec.getLsbD_setWidth, BitVec.getLsbD_extractLsb']
  by_cases h : p + i < 32
  · simp [hi, h]
  · simp [BitVec.getLsbD_of_ge x (p + i) (by omega)]

/-- Bits from `n` on repeat bit `n - 1` of the field, which is zero where the field passes bit 31. -/
theorem getLsbD_bfeI (p : Nat) {n : Nat} (hn : 1 ≤ n) (x : Lane) {i : Nat} (hi : i < 32) :
    (bfeI p n x).getLsbD i = (decide (p + min i (n - 1) < 32) && x.getLsbD (p + min i (n - 1))) := by
  have hmin : (if i < n then i else n - 1) = min i (n - 1) := by split <;> omega
  have hbit : (bfeI p n x).getLsbD i = x.getLsbD (p + min i (n - 1)) := by
    rw [bfeI_eq_signExtend p hn, BitVec.getLsbD_signExtend, BitVec.msb_eq_getLsbD_last, ← apply_ite, hmin,
      BitVec.getLsbD_extractLsb']
    simp [hi, show min i (n - 1) < n by omega]
  by_cases h : p + min i (n - 1) < 32
  · rw [hbit, decide_eq_true h, Bool.true_and]
  · rw [hbit, decide_eq_false h, Bool.false_and, BitVec.getLsbD_of_ge x _ (by omega)]

theorem getLsbD_bfiMask (p n : Nat) {i : Nat} (hi : i < 32) : (bfiMask p n).getLsbD i = decide (p ≤ i ∧ i < p + n) := by
  rw [bfiMask, lane32, BitVec.getLsbD_ofNat, Nat.testBit_mul_two_pow, Nat.testBit_two_pow_sub_one]
  by_cases h : p ≤ i
  · simp [hi, h, Nat.sub_lt_iff_lt_add' h]
  · simp [h]

/-- The value that `bfi` writes: the field of `y` placed in `x` (R151). -/
def bfiLane (p n : Nat) (x y : Lane) : Lane := (x &&& ~~~bfiMask p n) ||| ((y <<< p) &&& bfiMask p n)

theorem exec_bfi (g : Guard) (d a : VReg) (pos len : BitVec 8) (s : State) :
    exec (.bfi g d a pos len) s = lane2 s g d d a (bfiLane pos.toNat len.toNat) := rfl

theorem getLsbD_bfiLane (p n : Nat) (x y : Lane) {i : Nat} (hi : i < 32) :
    (bfiLane p n x y).getLsbD i = if p ≤ i ∧ i < p + n then y.getLsbD (i - p) else x.getLsbD i := by
  rw [bfiLane, BitVec.getLsbD_or, BitVec.getLsbD_and, BitVec.getLsbD_and, BitVec.getLsbD_not, getLsbD_bfiMask p n hi,
    BitVec.getLsbD_shiftLeft]
  by_cases h : p ≤ i ∧ i < p + n <;> simp [hi, h]

/-! ## Dot products and 64-bit lanes (R154) -/

/-- A sum taken word by word is the word of the exact sum. -/
theorem foldl_add_map_sum {M : Type} [AddMonoid M] {w : Nat} (φ : M → BitVec w) (hφ : ∀ m n, φ (m + n) = φ m + φ n)
    (f : Nat → M) (l : List Nat) (m : M) : l.foldl (fun x i => x + φ (f i)) (φ m) = φ (m + (l.map f).sum) := by
  induction l generalizing m with
  | nil => simp
  | cons i l ih => rw [List.foldl_cons, ← hφ, ih, List.map_cons, List.sum_cons, add_assoc]

theorem dp4_signExtend (a b c : Lane) : dp4 (·.signExtend 32) a b c = BitVec.ofInt 32 (c.toInt +
    ((List.range 4).map fun i => (a.extractLsb' (8 * i) 8).toInt * (b.extractLsb' (8 * i) 8).toInt).sum) := by
  rw [← foldl_add_map_sum (BitVec.ofInt 32) BitVec.ofInt_add, BitVec.ofInt_toInt]
  simp only [BitVec.ofInt_mul]
  rfl

theorem dp4_zeroExtend (a b c : Lane) : dp4 (·.zeroExtend 32) a b c = BitVec.ofNat 32 (c.toNat +
    ((List.range 4).map fun i => (a.extractLsb' (8 * i) 8).toNat * (b.extractLsb' (8 * i) 8).toNat).sum) := by
  rw [← foldl_add_map_sum (BitVec.ofNat 32) BitVec.ofNat_add, BitVec.ofNat_toNat, BitVec.setWidth_eq]
  simp only [BitVec.ofNat_mul, BitVec.ofNat_toNat]
  rfl

theorem mad64N_eq_ofNat (x y : Lane) (z : Word) :
    x.zeroExtend 64 * y.zeroExtend 64 + z = BitVec.ofNat 64 (x.toNat * y.toNat + z.toNat) := by
  rw [BitVec.add_def, toNat_zeroExtend_mul_lane]

theorem lea64_eq_ofNat (z : Word) (x : Lane) (n : Nat) :
    z + (x.zeroExtend 64 <<< n) = BitVec.ofNat 64 (z.toNat + x.toNat * 2 ^ n) := by
  rw [shiftLeft_eq_ofNat_mul, BitVec.toNat_setWidth_of_le (by decide), BitVec.ofNat_add, BitVec.ofNat_toNat, BitVec.setWidth_eq]

theorem icmpHolds_eq_relation (cc : ICmp) (a b : Lane) : icmpHolds cc a b = Relation cc a b := by
  cases cc <;> rfl

/-! ## Opcodes and reserved fields of classes B and C (Tables 3-5 and 3-6) -/

theorem opsB_of_map {l : List (Instr × Nat)}
    (h : l.map (fun x => (encodeB x.1).map (·.op.toNat)) = l.map fun x => some x.2) : OpsB l :=
  List.map_inj_left.mp h

theorem opsC_of_map {l : List (Instr × Nat)}
    (h : l.map (fun x => (encodeC x.1).map (·.op.toNat)) = l.map fun x => some x.2) : OpsC l :=
  List.map_inj_left.mp h

/-- A field that should hold a mask number and holds 16 or more holds none (R81). -/
theorem mreg_of8_eq_none {x : BitVec 8} (h : 16 ≤ x.toNat) : MReg.of8 x = none := by
  have hne : x.extractLsb' 4 4 ≠ 0 := by
    intro h0
    have hdiv : x.toNat / 2 ^ 4 % 2 ^ 4 = 0 := by
      rw [← Nat.shiftRight_eq_div_pow, ← BitVec.extractLsb'_toNat, h0]
      rfl
    have := x.isLt
    omega
  rw [MReg.of8, if_neg hne]

theorem decodeB_formDab (f : WordB)
    (h : f.op.toNat ∈ [0x01, 0x02, 0x03, 0x04, 0x05, 0x09, 0x0A, 0x0B, 0x0C, 0x0D, 0x0E, 0x0F, 0x10]) :
    ∃ i, decodeB f = f.formDab i := by
  simp only [List.mem_cons, List.not_mem_nil, or_false] at h
  unfold decodeB
  rcases h with h | h | h | h | h | h | h | h | h | h | h | h | h <;> rw [h] <;> exact ⟨_, rfl⟩

theorem decodeB_formDa (f : WordB) (h : f.op.toNat ∈ [0x07, 0x08, 0x11, 0x19, 0x1A, 0x1B]) :
    ∃ i, decodeB f = f.formDa i := by
  simp only [List.mem_cons, List.not_mem_nil, or_false] at h
  unfold decodeB
  rcases h with h | h | h | h | h | h <;> rw [h] <;> exact ⟨_, rfl⟩

theorem decodeB_laneSel (f : WordB) (h : f.op.toNat ∈ [0x1C]) : decodeB f = f.formDabm .laneSel := by
  unfold decodeB
  rw [List.mem_singleton.mp h]
  rfl

/-- Table 3-5: the opcodes 0x20 to 0x29 are the integer compares, which name a mask in VD. -/
theorem decodeB_icmp (f : WordB) (h : f.op.toNat ∈ (List.range 10).map (· + 0x20)) :
    ∃ cc, decodeB f = f.formMab (.icmp cc) := by
  obtain ⟨n, hn, hop⟩ := List.mem_map.mp h
  rw [List.mem_range] at hn
  unfold decodeB
  rw [← hop]
  interval_cases n <;> exact ⟨_, rfl⟩

theorem decodeC_movi (f : WordC) (h : f.op.toNat ∈ [0xA5]) : decodeC f = f.formDi .movi := by
  unfold decodeC
  rw [List.mem_singleton.mp h]
  rfl

/-- Table 3-6: the opcodes 0xB0 to 0xB9 are the compares with an immediate, which name a mask in VD. -/
theorem decodeC_icmpi (f : WordC) (h : f.op.toNat ∈ (List.range 10).map (· + 0xB0)) :
    ∃ cc, decodeC f = f.formMai (.icmpi cc) := by
  obtain ⟨n, hn, hop⟩ := List.mem_map.mp h
  rw [List.mem_range] at hn
  unfold decodeC
  rw [← hop]
  interval_cases n <;> exact ⟨_, rfl⟩

theorem formMab_eq_none {f : WordB} {i : Guard → MReg → VReg → VReg → Instr} (h : 16 ≤ f.vd.toNat ∨ f.vc ≠ 0) :
    f.formMab i = none := by
  rcases h with h | h
  · rw [WordB.formMab, mreg_of8_eq_none h, Option.map_none, ite_self]
  · rw [WordB.formMab, if_neg h]

/-! ## The results of the families -/

theorem bitCountsLane_claim : ∃ popc clz brev : Lane → Lane, Lane1 .lanePopc popc ∧ Lane1 .laneClz clz ∧ Lane1 .brev brev ∧
    (∀ a, popc a = BitVec.ofNat 32 ((List.range 32).map fun i => (a.getLsbD i).toNat).sum) ∧
    clz 0 = 32 ∧
    (∀ a i, i < 32 → a.getLsbD i = true → (∀ j, i < j → a.getLsbD j = false) → clz a = BitVec.ofNat 32 (31 - i)) ∧
    (∀ a i, i < 32 → (brev a).getLsbD i = a.getLsbD (31 - i)) :=
  ⟨popcLane, clzLane, brevLane, lane1_claim (fun _ => rfl) fun _ _ _ _ => rfl, lane1_claim (fun _ => rfl) fun _ _ _ _ => rfl,
    lane1_claim (fun _ => rfl) fun _ _ _ _ => rfl, popcLane_eq_sum, by decide, fun _ _ _ hx hi => clzLane_of_highest hx hi,
    fun x _ hi => getLsbD_brevLane x hi⟩

theorem bitFields_wf {g : Guard} {d a : VReg} {pos len : BitVec 8} (h : 31 < pos.toNat ∨ len = 0 ∨ 32 < len.toNat) :
    (Instr.bfeI g d a pos len).wf = false ∧ (Instr.bfeN g d a pos len).wf = false ∧ (Instr.bfi g d a pos len).wf = false := by
  have hbad : ¬ (pos.toNat ≤ 31 ∧ 1 ≤ len.toNat ∧ len.toNat ≤ 32) := by
    rcases h with h | rfl | h
    · omega
    · simp
    · omega
  exact ⟨decide_eq_false hbad, decide_eq_false hbad, decide_eq_false hbad⟩

theorem bfe_claim (s : State) (k : Issue) (g : Guard) (d a : VReg) (pos len : BitVec 8) (hk : s.dev.issuer? = some k)
    (hlen : 1 ≤ len.toNat) : ∃ f h : Lane → Lane,
      LaneResult s k (.bfeN g d a pos len) 6 [d.toNat, a.toNat] g d (fun l => f (s.dev.source k a.toNat l)) ∧
      LaneResult s k (.bfeI g d a pos len) 6 [d.toNat, a.toNat] g d (fun l => h (s.dev.source k a.toNat l)) ∧
      ∀ x i, i < 32 →
        (f x).getLsbD i = (decide (i < len.toNat ∧ pos.toNat + i < 32) && x.getLsbD (pos.toNat + i)) ∧
        (h x).getLsbD i = (decide (pos.toNat + min i (len.toNat - 1) < 32) &&
          x.getLsbD (pos.toNat + min i (len.toNat - 1))) :=
  ⟨bfeN pos.toNat len.toNat, bfeI pos.toNat len.toNat, laneResult_of_lane1 _ hk rfl, laneResult_of_lane1 _ hk rfl,
    fun x _ hi => ⟨getLsbD_bfeN _ _ x hi, getLsbD_bfeI _ hlen x hi⟩⟩

theorem bfi_claim (s : State) (k : Issue) (g : Guard) (d a : VReg) (pos len : BitVec 8) (hk : s.dev.issuer? = some k) :
    ∃ f : Lane → Lane → Lane, LaneResult s k (.bfi g d a pos len) 6 [d.toNat, d.toNat, a.toNat] g d
        (fun l => f (s.dev.source k d.toNat l) (s.dev.source k a.toNat l)) ∧
      ∀ x y i, i < 32 → (f x y).getLsbD i =
        if pos.toNat ≤ i ∧ i < pos.toNat + len.toNat then y.getLsbD (i - pos.toNat) else x.getLsbD i :=
  ⟨bfiLane pos.toNat len.toNat, laneResult_of_lane2 _ hk (exec_bfi g d a pos len s), fun x y _ hi => getLsbD_bfiLane _ _ x y hi⟩

/-- Settles O18: every operation of Table 5-2 and R151 is a lane operation whose function has the table's value. -/
theorem laneIntegers : Obligations.LaneIntegers := by
  unfold Obligations.LaneIntegers
  refine ⟨⟨?iadd, ?isub, ?imul, ?imulhI, ?imulhN, ?imad, ?iabs, ?ineg, ?iminI, ?iminN, ?imaxI, ?imaxN, ?and, ?or, ?xor,
    ?andn, ?not, bitCountsLane_claim⟩, ⟨?shl, ?shrN, ?shrI, ?rot, ?fields⟩, ?opcodes, ?reservedDab, ?reservedDa,
    fun _ _ _ _ _ h => bitFields_wf h⟩
  case iadd => exact lane2_claim BitVec.add_def fun _ _ _ _ _ => rfl
  case isub => exact lane2_claim sub_eq_ofInt_toInt fun _ _ _ _ _ => rfl
  case imul => exact lane2_claim mul_eq_ofNat_toNat fun _ _ _ _ _ => rfl
  case imulhI => exact lane2_claim imulhI_eq_ofInt fun _ _ _ _ _ => rfl
  case imulhN => exact lane2_claim imulhN_eq_ofNat fun _ _ _ _ _ => rfl
  case imad => exact lane3_claim imad_eq_ofNat fun _ _ _ _ _ _ => rfl
  case iabs => exact lane1_claim abs_eq_ofInt_toInt fun _ _ _ _ => rfl
  case ineg => exact lane1_claim neg_eq_ofInt_toInt fun _ _ _ _ => rfl
  case iminI => exact lane2_claim minI_eq_ofInt fun _ _ _ _ _ => rfl
  case iminN => exact lane2_claim minN_eq_ofNat fun _ _ _ _ _ => rfl
  case imaxI => exact lane2_claim maxI_eq_ofInt fun _ _ _ _ _ => rfl
  case imaxN => exact lane2_claim maxN_eq_ofNat fun _ _ _ _ _ => rfl
  case and => exact lane2_claim (fun _ _ => rfl) fun _ _ _ _ _ => rfl
  case or => exact lane2_claim (fun _ _ => rfl) fun _ _ _ _ _ => rfl
  case xor => exact lane2_claim (fun _ _ => rfl) fun _ _ _ _ _ => rfl
  case andn => exact lane2_claim (fun _ _ => rfl) fun _ _ _ _ _ => rfl
  case not => exact lane1_claim (fun _ => rfl) fun _ _ _ _ => rfl
  case shl => exact lane2_claim (fun x y => shiftLeft_eq_ofNat_mul x (lamount y)) fun _ _ _ _ _ => rfl
  case shrN => exact lane2_claim (fun x y => ushiftRight_eq_ofNat_div x (lamount y)) fun _ _ _ _ _ => rfl
  case shrI => exact lane2_claim (fun x y => sshiftRight_eq_ofInt_div x (lamount y)) fun _ _ _ _ _ => rfl
  case rot => exact lane2_claim rotateLeft_lamount fun _ _ _ _ _ => rfl
  case fields =>
    exact fun s k g d a pos len hk _ hlen _ => ⟨bfe_claim s k g d a pos len hk hlen, bfi_claim s k g d a pos len hk⟩
  case opcodes => exact fun _ _ _ _ _ => opsB_of_map rfl
  case reservedDab =>
    intro f hop hc
    obtain ⟨i, hi⟩ := decodeB_formDab f hop
    rw [hi, WordB.formDab, if_neg hc]
  case reservedDa =>
    intro f hop hbad
    obtain ⟨i, hi⟩ := decodeB_formDa f hop
    rw [hi, WordB.formDa, if_neg (by tauto)]

theorem wide_claim (s : State) (k : Issue) (g : Guard) (d a b c : VReg) (hk : s.dev.issuer? = some k) :
    PairResult s k (.add64 g d a b) [d.toNat, d.toNat + 1, a.toNat, a.toNat + 1, b.toNat, b.toNat + 1] g d
      (fun l => pairAt s k a l + pairAt s k b l) ∧
    PairResult s k (.mad64N g d a b c) [d.toNat, d.toNat + 1, a.toNat, b.toNat, c.toNat, c.toNat + 1] g d
      (fun l => BitVec.ofNat 64 ((s.dev.source k a.toNat l).toNat * (s.dev.source k b.toNat l).toNat + (pairAt s k c l).toNat)) ∧
    ∀ n : BitVec 8, n.toNat < 64 →
      PairResult s k (.lea64 g d a b n) [d.toNat, d.toNat + 1, a.toNat, a.toNat + 1, b.toNat] g d
        (fun l => BitVec.ofNat 64 ((pairAt s k a l).toNat + (s.dev.source k b.toNat l).toNat * 2 ^ n.toNat)) :=
  ⟨pairResult_of_laneInstr (fun x l => x.rd64 a l + x.rd64 b l) (fun _ => rfl) hk rfl,
    pairResult_of_laneInstr (fun x l => (x.rd1 a l).zeroExtend 64 * (x.rd1 b l).zeroExtend 64 + x.rd64 c l)
      (fun _ => mad64N_eq_ofNat _ _ _) hk rfl,
    fun n _ => pairResult_of_laneInstr (fun x l => x.rd64 a l + ((x.rd1 b l).zeroExtend 64 <<< n.toNat))
      (fun _ => lea64_eq_ofNat _ _ _) hk rfl⟩

theorem isPair_iff (v : VReg) : v.isPair = true ↔ v.toNat % 2 = 0 := by
  rw [VReg.isPair, beq_iff_eq]

/-- Settles O19: selects, dot products and the immediate forms as lane results, the 64-bit forms as pair results, the compares
as mask results. -/
theorem laneSelectsWideAndImmediates : Obligations.LaneSelectsWideAndImmediates := by
  unfold Obligations.LaneSelectsWideAndImmediates
  refine ⟨⟨?sel, ?icmp, ?dp4I, ?dp4N, wide_claim⟩, ⟨?iaddi, ?imuli, ?andi, ?ori, ?xori, ?movi, ?icmpi⟩,
    fun _ _ _ _ _ _ _ => ⟨opsB_of_map rfl, opsC_of_map rfl, ?wfAdd, ?wfMad, ?wfLea⟩, ?reservedSel, ?reservedIcmp, ?reservedMovi,
    ?reservedIcmpi⟩
  case sel =>
    exact fun s k g d a b c hk => laneResult_of_laneInstr
      (fun x l => if (x.k.wave.mask c).getLsbD l then x.rd1 a l else x.rd1 b l) (fun _ => rfl) hk rfl
  case icmp =>
    exact fun s k cc g d a b hk => laneMaskResult_of_laneCmp (fun x l => icmpHolds cc (x.rd1 a l) (x.rd1 b l))
      (fun _ => icmpHolds_eq_relation _ _ _) hk rfl
  case dp4I => exact lane3_claim dp4_signExtend fun _ _ _ _ _ _ => rfl
  case dp4N => exact lane3_claim dp4_zeroExtend fun _ _ _ _ _ _ => rfl
  case iaddi => exact laneImm_claim BitVec.add_def fun _ _ _ _ _ => rfl
  case imuli => exact laneImm_claim mul_eq_ofNat_toNat fun _ _ _ _ _ => rfl
  case andi => exact laneImm_claim (fun _ _ => rfl) fun _ _ _ _ _ => rfl
  case ori => exact laneImm_claim (fun _ _ => rfl) fun _ _ _ _ _ => rfl
  case xori => exact laneImm_claim (fun _ _ => rfl) fun _ _ _ _ _ => rfl
  case movi => exact fun s k g d i hk => laneResult_of_laneInstr (fun _ _ => i) (fun _ => rfl) hk rfl
  case icmpi =>
    exact fun s k cc g d a i hk => laneMaskResult_of_laneCmp (fun x l => icmpHolds cc (x.rd1 a l) i)
      (fun _ => icmpHolds_eq_relation _ _ _) hk rfl
  case wfAdd => simp only [Instr.wf, Bool.and_eq_true, isPair_iff, and_assoc]
  case wfMad => simp only [Instr.wf, Bool.and_eq_true, isPair_iff]
  case wfLea => simp only [Instr.wf, Bool.and_eq_true, isPair_iff, decide_eq_true_eq, and_assoc, Nat.lt_succ_iff]
  case reservedSel =>
    intro f hop hc
    rw [decodeB_laneSel f hop, WordB.formDabm, mreg_of8_eq_none hc, Option.map_none]
  case reservedIcmp =>
    intro f hop hbad
    obtain ⟨cc, hcc⟩ := decodeB_icmp f hop
    rw [hcc, formMab_eq_none hbad]
  case reservedMovi =>
    intro f hop ha
    rw [decodeC_movi f hop, WordC.formDi, if_neg ha]
  case reservedIcmpi =>
    intro f hop hd
    obtain ⟨cc, hcc⟩ := decodeC_icmpi f hop
    rw [hcc, WordC.formMai, mreg_of8_eq_none hd, Option.map_none]

end Sys2Proof.Proofs
end

section
/-!
SUPPORT. Decoding and encoding are inverses of each other: each constructor's law put together, and for the other direction
what each form of the opcode maps reads is written back as the word it was read from.
-/

open Sys2Proof

namespace Sys2Proof.Laws.RoundTrip

/-- Every constructor has its law; the recursor puts them together, in the order of the opcode table. -/
theorem statement_of_instr : ∀ i : Instr, Statement i :=
  @Instr.rec Statement
    add sub mul mulhI mulhN divI divN remI remN and or xor andn shl shrN shrI rot minI minN maxI maxN sel lea clz ctz
    popc sext zext mov cmpEq cmpNe cmpLtI cmpLtN cmpLeI cmpLeN addi andi ori xori shli shriN shriI li lih br call bz
    bnz bmany bmall bmnone jr ret trap rett wait sget sset cclrReg cclrImm regrel regclm mget mset mand mor mxor
    mandn mnot mpop mffs sld8 sld16 sld32 sld64 sst8 sst16 sst32 sst64 mon mwait tagwaitAny tagwaitAll tagffs cinc
    bbinit bbexp bbexpNum bbwait bbwaitNum nop yield regang exit brk trigger pad illegalEncoding iadd isub imul
    imulhI imulhN imad iabs ineg iminI iminN imaxI imaxN laneAnd laneOr laneXor laneAndn not laneShl laneShrI
    laneShrN laneRot bfeI bfeN bfi lanePopc laneClz brev laneSel icmp dp4I dp4N add64 mad64N lea64 fadd fsub fmul fma
    fmin fmax fminn fmaxn fabs fneg fcmp ffloor fceil ftrunc frnd fclass fdivRne fsqrtRne frcp frsq fexp2 flog2
    fsinpi fcospi hadd2 hmul2 hfma2 cvtI32F32 cvtN32F32 cvtF32I32 cvtF32N32 cvtBf16F32 cvtF16F32 cvtE4m3F32
    cvtE5m2F32 cvtE2m1F32 cvtF32Bf16 cvtF32F16 cvtF32E4m3 cvtF32E5m2 cvtF32E2m1 shflIdx shflXor shflUp shflDn voteAny
    voteAll voteBallot redAddI redAddF32 redMin redMax scanAddI scanAddF32 matchLanes bcast bscale ld st ldp stp ldl
    stl ldt stt wld wst ald ast accld accst atom atl redAtomic cmpst cmpstL pf spill fill iaddi imuli laneAndi
    laneOri laneXori movi icmpi tcpyG2a tcpyG2w tcpyA2g tcpyG2l tcpyL2g tcpyG2g tcpyG2gStamp cfpop cfrsmRetry
    cfrsmSkip cfrsmFill kindle kindleNb douse lstat tmma tmmaZ tmmaX2 tzero tcvt tdload tstat ftload ftevl xsort
    xtopk xscan cpost ctrig spawn launch cancel susp resume cdrop cclone issueSelect icacheFill pageWalk loadComplete
    storePerform homeLoad homeAtomic llcEvict memLineTransfer deferredReport mwaitTimeout portSuspend watchdog
    pairtimeout claimGrant deadlock handlerEntry blockPlace blockEnd blockTriggerEvent launchRelease kneadWindowClose
    cancelDeadline footprintEnter copyPieceIssue pieceLand copyFault tileOpStart tileCommit tcvtStep fxOpComplete
    leaseGrant wakeDone warmTimeout allowanceCut class0Evict engineStopped energyPeriod serverRelease arbiterSelect
    rotAdvance remoteRequest replyArrive flitSend flitReceive linkPause collStepEnter collReady collCts
    collChunkReceive collComplete suspSeal resumePlaced ccloneDone forcedSave forcedSaveSeal hostWrite hostRead
    hostMemoryCompletion atsInvalidate invalidate invalidateDone ctxcreate ctxdestroy server window qbind preempt
    release keyrot partset retire retireComplete logset unknownCommand eventClear pwrcapWrite iwselRead retlogClear
    registerWrite flrInitiate flrStopped flrDrained flrDiscarded flrDone lockInterface getDeviceInterfaceReport
    getDeviceInterfaceState startInterface stopInterface getVersion getCapabilities negotiateAlgorithms getDigests
    getCertificate challenge getMeasurements keyExchange finish keyUpdate heartbeat endSession powerControlTick
    islandVote frequencyChangeDone railHoldoffExpire railStep islandRiseStep currentEmergency clockStretchEnd
    thermalLevel migrationClose retentionEnter retentionExit packageReset bringupPhase ideKeyManagement
    atsTranslationCompletion coreColdResetDone

end Sys2Proof.Laws.RoundTrip

namespace Sys2Proof.Proofs

/-- Settles O53, by the law of each constructor. -/
theorem decodeReadsEncode : Obligations.DecodeReadsEncode :=
  Laws.RoundTrip.statement_of_instr

/-! ## Fields from their codes -/

theorem guard_bits_ofBits (x : BitVec 4) : (Guard.ofBits x).bits = x := by
  revert x
  decide

theorem mreg_of6_eq_some {x : BitVec 6} {m : MReg} (h : MReg.of6 x = some m) : m.bits6 = x := by
  revert x m
  decide

theorem mreg_of8_eq_some {x : BitVec 8} {m : MReg} (h : MReg.of8 x = some m) : 0#4 ++ m = x := by
  revert x m
  decide

theorem engKind_ofCode_eq_some {x : BitVec 32} {k : EngKind} (h : EngKind.ofCode x = some k) : x = k.code := by
  unfold EngKind.ofCode at h
  split_ifs at h with h0 h1 h2 <;> cases h <;> assumption

theorem lvl_ofCode_eq_some {x : BitVec 32} {l : Lvl} (h : Lvl.ofCode x = some l) : x = l.code := by
  unfold Lvl.ofCode at h
  split_ifs at h with h0 h1 h2 h3 <;> cases h <;> assumption

/-- A word whose bits from `k` up are zero is its low `k` bits with zeros before them. -/
theorem eq_zeros_append {n k : Nat} {x : BitVec (n + k)} (h : x.extractLsb' k n = 0) :
    x = 0#n ++ x.extractLsb' 0 k :=
  calc x = x.extractLsb' (0 + k) n ++ x.extractLsb' 0 k := by rw [extract_join, extract_all]
    _ = 0#n ++ x.extractLsb' 0 k := by rw [Nat.zero_add, h]; rfl

theorem selFlags_code_of_low (y : BitVec 5) : ∀ f ∈ SelFlags.ofCode (0#27 ++ y), 0#27 ++ y = f.code := by
  revert y
  decide

theorem selFlags_ofCode_eq_some {x : BitVec 32} {f : SelFlags} (h : SelFlags.ofCode x = some f) : x = f.code := by
  have hx : x = 0#27 ++ x.extractLsb' 0 5 := by
    by_cases h0 : x.extractLsb' 5 27 = 0
    · exact eq_zeros_append h0
    · rw [SelFlags.ofCode, if_neg h0] at h
      cases h
  rw [hx] at h ⊢
  exact selFlags_code_of_low _ f h

theorem append_extract {n m : Nat} (x : BitVec n) (y : BitVec m) :
    (x ++ y).extractLsb' m n = x ∧ (x ++ y).extractLsb' 0 m = y := by
  constructor
  · rw [extract_high _ _ _ _ (by omega), Nat.sub_self, extract_all]
  · rw [extract_low _ _ _ _ (by omega), extract_all]

theorem append3_extract {n m k : Nat} (x : BitVec n) (y : BitVec m) (z : BitVec k) :
    (x ++ y ++ z).extractLsb' (m + k) n = x ∧ (x ++ y ++ z).extractLsb' k m = y ∧ (x ++ y ++ z).extractLsb' 0 k = z := by
  refine ⟨?_, ?_, (append_extract _ _).2⟩
  · rw [extract_high _ _ _ _ (by omega), Nat.add_sub_cancel]
    exact (append_extract x y).1
  · rw [extract_high _ _ _ _ (by omega), Nat.sub_self]
    exact (append_extract x y).2

/-! ## Words from their fields -/

theorem wordA_i_imm12 (f : WordA) : WordA.i f.op f.d f.a f.imm12 = f := by
  simp only [WordA.i, WordA.imm12, append_extract]

theorem wordA_l_imm18 (f : WordA) : WordA.l f.op f.d f.imm18 = f := by
  obtain ⟨ha, hb, hc⟩ := append3_extract f.a f.b f.c
  simp only [WordA.l, WordA.imm18, ha, hb, hc]

theorem wordA_j_off20 (f : WordA) : WordA.j f.op f.cond f.off20 = f := by
  have h18 : f.off20.extractLsb' 18 2 = f.d.extractLsb' 0 2 := by
    rw [WordA.off20, extract_high _ _ _ _ (by decide), extract_high _ _ _ _ (by decide), extract_high _ _ _ _ (by decide),
      extract_all]
  have h12 : f.off20.extractLsb' 12 6 = f.a := by
    rw [WordA.off20, extract_high _ _ _ _ (by decide), extract_high _ _ _ _ (by decide), extract_low _ _ _ _ (by decide),
      extract_all]
  have h6 : f.off20.extractLsb' 6 6 = f.b := by
    rw [WordA.off20, extract_high _ _ _ _ (by decide), extract_low _ _ _ _ (by decide), extract_all]
  have h0 : f.off20.extractLsb' 0 6 = f.c := by
    rw [WordA.off20, extract_low _ _ _ _ (by decide), extract_all]
  have hd : f.cond ++ f.d.extractLsb' 0 2 = f.d := (extract_join f.d 0 2 4).trans (extract_all f.d)
  simp only [WordA.j, h18, h12, h6, h0, hd]

theorem wordC_imm_imm32 (f : WordC) : WordC.imm f.op f.g f.vd f.va f.imm32 = f := by
  obtain ⟨ha, hb, hc⟩ := append3_extract f.sb f.ksc f.off
  simp only [WordC.imm, WordC.imm32, ha, hb, hc]

/-- What is read is an instruction that is written as the word `w`. -/
def WrittenAs (w : Class × Nat) (o : Option Instr) : Prop := ∀ i, o = some i → encodeWord i = some w

theorem writtenAs_iff {w : Class × Nat} {o : Option Instr} : WrittenAs w o ↔ ∀ i, o = some i → encodeWord i = some w := by
  unfold WrittenAs
  rfl

theorem writtenAs_none (w : Class × Nat) : WrittenAs w none := by
  rw [writtenAs_iff]
  intro i h
  cases h

theorem writtenAs_some {w : Class × Nat} {i : Instr} (h : encodeWord i = some w) : WrittenAs w (some i) := by
  rw [writtenAs_iff]
  intro j hj
  rw [← Option.some.inj hj]
  exact h

theorem writtenAs_ite {p : Prop} [Decidable p] {w : Class × Nat} {o : Option Instr} (h : p → WrittenAs w o) :
    WrittenAs w (if p then o else none) := by
  split
  · exact h ‹_›
  · exact writtenAs_none w

theorem writtenAs_map {α : Type} {w : Class × Nat} {o : Option α} {k : α → Instr}
    (h : ∀ x, o = some x → encodeWord (k x) = some w) : WrittenAs w (o.map k) := by
  rw [writtenAs_iff]
  intro i hi
  obtain ⟨x, hx, rfl⟩ := Option.map_eq_some_iff.mp hi
  exact h x hx

theorem writtenAs_of_word {β : Type} {num : β → Class × Nat} {i : Instr} {g f : β} (h : encodeWord i = some (num g))
    (hg : g = f) : WrittenAs (num f) (some i) :=
  writtenAs_some (hg ▸ h)

theorem zeroExtend_extract_eq_self {n k : Nat} {x : BitVec n} (h : x.extractLsb' k (n - k) = 0) :
    (x.extractLsb' 0 k).zeroExtend n = x := by
  ext i hi
  have hbit : ¬ i < k → x.getLsbD i = false := fun hk => by
    have := congrArg (·.getLsbD (i - k)) h
    simpa [show i - k < n - k by omega, show k + (i - k) = i by omega] using this
  by_cases hk : i < k
  · simp [hk, BitVec.getLsbD_eq_getElem hi]
  · simp [hk, ← BitVec.getLsbD_eq_getElem hi, hbit hk]

theorem append3_of_extract (x : BitVec 12) :
    x.extractLsb' 7 5 ++ x.extractLsb' 3 4 ++ x.extractLsb' 0 3 = x := by
  have h1 := congrArg (fun y : BitVec 9 => y ++ x.extractLsb' 0 3) (extract_join x 3 4 5)
  exact h1.trans ((extract_join x 0 3 9).trans (extract_all x))

theorem eq_zero_or_one (x : BitVec 1) : x = 0 ∨ x = 1 := by
  revert x
  decide

theorem susp_imm {x : BitVec 32} (h : x.extractLsb' 2 30 = 0) :
    (0#30 ++ BitVec.ofBool (x.getLsbD 1)) ++ BitVec.ofBool (x.getLsbD 0) = x := by
  have hb : ∀ y : BitVec 2, BitVec.ofBool (y.getLsbD 1) ++ BitVec.ofBool (y.getLsbD 0) = y := by decide
  have h0 : x.getLsbD 0 = (x.extractLsb' 0 2).getLsbD 0 := by simp
  have h1 : x.getLsbD 1 = (x.extractLsb' 0 2).getLsbD 1 := by simp
  calc (0#30 ++ BitVec.ofBool (x.getLsbD 1)) ++ BitVec.ofBool (x.getLsbD 0)
      = 0#30 ++ (BitVec.ofBool (x.getLsbD 1) ++ BitVec.ofBool (x.getLsbD 0)) := BitVec.append_assoc ..
    _ = 0#30 ++ x.extractLsb' 0 2 := by rw [h0, h1, hb]
    _ = x := (eq_zeros_append (n := 30) (k := 2) h).symm

/-! ## Class A forms -/

section
variable {f : WordA}

/-- The class and the number of a word. -/
def numA (f : WordA) : Class × Nat := (.a, f.bits.toNat)

theorem writtenA_formRrr {k : SReg → SReg → SReg → Instr}
    (h : ∀ d a b, encodeWord (k d a b) = some (numA (.r f.op d a b 0))) :
    WrittenAs (numA f) (f.formRrr k) :=
  writtenAs_ite fun hc => writtenAs_of_word (h f.d f.a f.b) <| by
    cases f
    simp_all [WordA.r]

theorem writtenA_formRrrr {k : SReg → SReg → SReg → BitVec 6 → Instr}
    (h : ∀ d a b c, encodeWord (k d a b c) = some (numA (.r f.op d a b c))) :
    WrittenAs (numA f) (f.formRrrr k) :=
  writtenAs_of_word (h f.d f.a f.b f.c) rfl

theorem writtenA_formRr {k : SReg → SReg → Instr}
    (h : ∀ d a, encodeWord (k d a) = some (numA (.r f.op d a 0 0))) :
    WrittenAs (numA f) (f.formRr k) :=
  writtenAs_ite fun hc => writtenAs_of_word (h f.d f.a) <| by
    cases f
    simp_all [WordA.r]

theorem writtenA_formRrc {k : SReg → SReg → BitVec 6 → Instr}
    (h : ∀ d a c, encodeWord (k d a c) = some (numA (.r f.op d a 0 c))) :
    WrittenAs (numA f) (f.formRrc k) :=
  writtenAs_ite fun hc => writtenAs_of_word (h f.d f.a f.c) <| by
    cases f
    simp_all [WordA.r]

theorem writtenA_formA {k : SReg → Instr}
    (h : ∀ a, encodeWord (k a) = some (numA (.r f.op 0 a 0 0))) :
    WrittenAs (numA f) (f.formA k) :=
  writtenAs_ite fun hc => writtenAs_of_word (h f.a) <| by
    cases f
    simp_all [WordA.r]

theorem writtenA_formC {k : BitVec 6 → Instr}
    (h : ∀ c, encodeWord (k c) = some (numA (.r f.op 0 0 0 c))) :
    WrittenAs (numA f) (f.formC k) :=
  writtenAs_ite fun hc => writtenAs_of_word (h f.c) <| by
    cases f
    simp_all [WordA.r]

theorem writtenA_formZ {k : Instr}
    (h : encodeWord (k) = some (numA (.r f.op 0 0 0 0))) :
    WrittenAs (numA f) (f.formZ k) :=
  writtenAs_ite fun hc => writtenAs_of_word h <| by
    cases f
    simp_all [WordA.r]

theorem writtenA_formRri {k : SReg → SReg → BitVec 12 → Instr}
    (h : ∀ d a i, encodeWord (k d a i) = some (numA (.i f.op d a i))) :
    WrittenAs (numA f) (f.formRri k) :=
  writtenAs_of_word (h f.d f.a f.imm12) (wordA_i_imm12 f)

theorem writtenA_formI {k : BitVec 12 → Instr}
    (h : ∀ i, encodeWord (k i) = some (numA (.i f.op 0 0 i))) :
    WrittenAs (numA f) (f.formI k) :=
  writtenAs_ite fun hc => writtenAs_of_word (h f.imm12) <| by
    simpa only [hc] using wordA_i_imm12 f

theorem writtenA_formDi {k : SReg → BitVec 12 → Instr}
    (h : ∀ d i, encodeWord (k d i) = some (numA (.i f.op d 0 i))) :
    WrittenAs (numA f) (f.formDi k) :=
  writtenAs_ite fun hc => writtenAs_of_word (h f.d f.imm12) <| by
    simpa only [hc] using wordA_i_imm12 f

theorem writtenA_formAi {k : SReg → BitVec 12 → Instr}
    (h : ∀ a i, encodeWord (k a i) = some (numA (.i f.op 0 a i))) :
    WrittenAs (numA f) (f.formAi k) :=
  writtenAs_ite fun hc => writtenAs_of_word (h f.a f.imm12) <| by
    simpa only [hc] using wordA_i_imm12 f

theorem writtenA_formDi4 {k : SReg → BitVec 4 → Instr}
    (h : ∀ d i, encodeWord (k d i) = some (numA (.i f.op d 0 (0#8 ++ i)))) :
    WrittenAs (numA f) (f.formDi4 k) :=
  writtenAs_ite fun ⟨ha, hi⟩ => writtenAs_of_word (h f.d (f.imm12.extractLsb' 0 4)) <| by
    rw [← ha, ← eq_zeros_append (n := 8) (k := 4) hi, wordA_i_imm12]

theorem writtenA_formI4 {k : BitVec 4 → Instr}
    (h : ∀ i, encodeWord (k i) = some (numA (.i f.op 0 0 (0#8 ++ i)))) :
    WrittenAs (numA f) (f.formI4 k) :=
  writtenAs_ite fun ⟨hd, ha, hi⟩ => writtenAs_of_word (h (f.imm12.extractLsb' 0 4)) <| by
    rw [← eq_zeros_append (n := 8) (k := 4) hi]
    simpa only [hd, ha] using wordA_i_imm12 f

theorem writtenA_formRi18 {k : SReg → BitVec 18 → Instr}
    (h : ∀ d i, encodeWord (k d i) = some (numA (.l f.op d i))) :
    WrittenAs (numA f) (f.formRi18 k) :=
  writtenAs_of_word (h f.d f.imm18) (wordA_l_imm18 f)

theorem writtenA_formRi16 {k : SReg → BitVec 16 → Instr}
    (h : ∀ d i, encodeWord (k d i) = some (numA (.l f.op d (0#2 ++ i)))) :
    WrittenAs (numA f) (f.formRi16 k) :=
  writtenAs_ite fun hi => writtenAs_of_word (h f.d (f.imm18.extractLsb' 0 16)) <| by
    rw [← eq_zeros_append (n := 2) (k := 16) hi, wordA_l_imm18]

theorem writtenA_formJ0 {k : BitVec 20 → Instr}
    (h : ∀ i, encodeWord (k i) = some (numA (.j f.op 0 i))) :
    WrittenAs (numA f) (f.formJ0 k) :=
  writtenAs_ite fun hc => writtenAs_of_word (h f.off20) <| by
    rw [← hc, wordA_j_off20]

theorem writtenA_formJm {k : MReg → BitVec 20 → Instr}
    (h : ∀ c i, encodeWord (k c i) = some (numA (.j f.op c i))) :
    WrittenAs (numA f) (f.formJm k) :=
  writtenAs_of_word (h f.cond f.off20) (wordA_j_off20 f)

theorem writtenA_formW {k : BitVec 6 → BitVec 6 → BitVec 5 → BitVec 4 → BitVec 3 → Instr}
    (h : ∀ ld st cp tl fx, encodeWord (k ld st cp tl fx) = some (numA (.i f.op ld st (cp ++ tl ++ fx)))) :
    WrittenAs (numA f) (f.formW k) :=
  writtenAs_of_word (h f.d f.a (f.imm12.extractLsb' 7 5) (f.imm12.extractLsb' 3 4) (f.imm12.extractLsb' 0 3)) <| by
    rw [append3_of_extract, wordA_i_imm12]

theorem writtenA_formDm {k : SReg → MReg → Instr}
    (h : ∀ d a, encodeWord (k d a) = some (numA (.r f.op d a.bits6 0 0))) :
    WrittenAs (numA f) (f.formDm k) :=
  writtenAs_ite fun hc => writtenAs_map fun x hx => (h f.d x).trans <| congrArg (some <| numA ·) <| by
    cases f
    simp_all [WordA.r, mreg_of6_eq_some hx]

theorem writtenA_formMa {k : MReg → SReg → Instr}
    (h : ∀ d a, encodeWord (k d a) = some (numA (.r f.op d.bits6 a 0 0))) :
    WrittenAs (numA f) (f.formMa k) :=
  writtenAs_ite fun hc => writtenAs_map fun x hx => (h x f.a).trans <| congrArg (some <| numA ·) <| by
    cases f
    simp_all [WordA.r, mreg_of6_eq_some hx]

theorem writtenA_formMmm {k : MReg → MReg → MReg → Instr}
    (h : ∀ d a b, encodeWord (k d a b) = some (numA (.r f.op d.bits6 a.bits6 b.bits6 0))) :
    WrittenAs (numA f) (f.formMmm k) :=
  writtenAs_ite fun hc => by
    split
    next d a b hd ha hb => 
      refine writtenAs_of_word (h d a b) ?_
      cases f
      simp_all [WordA.r, mreg_of6_eq_some hd, mreg_of6_eq_some ha, mreg_of6_eq_some hb]
    · exact writtenAs_none _

theorem writtenA_formMm {k : MReg → MReg → Instr}
    (h : ∀ d a, encodeWord (k d a) = some (numA (.r f.op d.bits6 a.bits6 0 0))) :
    WrittenAs (numA f) (f.formMm k) :=
  writtenAs_ite fun hc => by
    split
    next d a hd ha => 
      refine writtenAs_of_word (h d a) ?_
      cases f
      simp_all [WordA.r, mreg_of6_eq_some hd, mreg_of6_eq_some ha]
    · exact writtenAs_none _

end

/-! ## Class B forms -/

section
variable {f : WordB}

/-- The class and the number of a word. -/
def numB (f : WordB) : Class × Nat := (.b, f.bits.toNat)

theorem writtenB_formDab {k : Guard → VReg → VReg → BitVec 8 → Instr}
    (h : ∀ g d a b, encodeWord (k g d a b) = some (numB ⟨f.op, g, d, a, b, 0⟩)) :
    WrittenAs (numB f) (f.formDab k) :=
  writtenAs_ite fun hc => writtenAs_of_word (h f.g f.vd f.va f.vb) <| by
    cases f
    simp_all

theorem writtenB_formDabc {k : Guard → VReg → VReg → BitVec 8 → BitVec 8 → Instr}
    (h : ∀ g d a b c, encodeWord (k g d a b c) = some (numB ⟨f.op, g, d, a, b, c⟩)) :
    WrittenAs (numB f) (f.formDabc k) :=
  writtenAs_of_word (h f.g f.vd f.va f.vb f.vc) rfl

theorem writtenB_formDa {k : Guard → VReg → VReg → Instr}
    (h : ∀ g d a, encodeWord (k g d a) = some (numB ⟨f.op, g, d, a, 0, 0⟩)) :
    WrittenAs (numB f) (f.formDa k) :=
  writtenAs_ite fun hc => writtenAs_of_word (h f.g f.vd f.va) <| by
    cases f
    simp_all

theorem writtenB_formDabm {k : Guard → VReg → VReg → VReg → MReg → Instr}
    (h : ∀ g d a b c, encodeWord (k g d a b c) = some (numB ⟨f.op, g, d, a, b, 0#4 ++ c⟩)) :
    WrittenAs (numB f) (f.formDabm k) :=
  writtenAs_map fun x hx => (h f.g f.vd f.va f.vb x).trans <| congrArg (some <| numB ·) <| by
    cases f
    simp_all [mreg_of8_eq_some hx]

theorem writtenB_formMab {k : Guard → MReg → VReg → VReg → Instr}
    (h : ∀ g d a b, encodeWord (k g d a b) = some (numB ⟨f.op, g, 0#4 ++ d, a, b, 0⟩)) :
    WrittenAs (numB f) (f.formMab k) :=
  writtenAs_ite fun hc => writtenAs_map fun x hx => (h f.g x f.va f.vb).trans <| congrArg (some <| numB ·) <| by
    cases f
    simp_all [mreg_of8_eq_some hx]

theorem writtenB_formDm {k : Guard → VReg → MReg → Instr}
    (h : ∀ g d a, encodeWord (k g d a) = some (numB ⟨f.op, g, d, 0#4 ++ a, 0, 0⟩)) :
    WrittenAs (numB f) (f.formDm k) :=
  writtenAs_ite fun hc => writtenAs_map fun x hx => (h f.g f.vd x).trans <| congrArg (some <| numB ·) <| by
    cases f
    simp_all [mreg_of8_eq_some hx]

theorem writtenB_formMm {k : Guard → MReg → MReg → Instr}
    (h : ∀ g d a, encodeWord (k g d a) = some (numB ⟨f.op, g, 0#4 ++ d, 0#4 ++ a, 0, 0⟩)) :
    WrittenAs (numB f) (f.formMm k) :=
  writtenAs_ite fun hc => by
    split
    next d a hd ha => 
      refine writtenAs_of_word (h f.g d a) ?_
      cases f
      simp_all [mreg_of8_eq_some hd, mreg_of8_eq_some ha]
    · exact writtenAs_none _

end

/-! ## Class C forms -/

section
variable {f : WordC}

/-- The class and the number of a word. -/
def numC (f : WordC) : Class × Nat := (.c, f.bits.toNat)

theorem writtenC_formMem {k : Guard → VReg → Addr → Instr}
    (h : ∀ g d m, encodeWord (k g d m) = some (numC ⟨f.op, g, d, m.va, m.sb, m.ksc, m.off⟩)) :
    WrittenAs (numC f) (f.formMem k) :=
  writtenAs_of_word (h f.g f.vd f.addr) rfl

theorem writtenC_formPtr {k : Guard → VReg → VReg → BitVec 23 → Instr}
    (h : ∀ g d a o, encodeWord (k g d a o) = some (numC ⟨f.op, g, d, a, 0, 0, o⟩)) :
    WrittenAs (numC f) (f.formPtr k) :=
  writtenAs_ite fun hc => writtenAs_of_word (h f.g f.vd f.va f.off) <| by
    cases f
    simp_all

theorem writtenC_formQ {k : Guard → VReg → SReg → BitVec 23 → Instr}
    (h : ∀ g d b o, encodeWord (k g d b o) = some (numC ⟨f.op, g, d, 0, b, 7, o⟩)) :
    WrittenAs (numC f) (f.formQ k) :=
  writtenAs_ite fun hc => writtenAs_of_word (h f.g f.vd f.sb f.off) <| by
    cases f
    simp_all

theorem writtenC_formPf {k : Guard → Addr → Instr}
    (h : ∀ g m, encodeWord (k g m) = some (numC ⟨f.op, g, 0, m.va, m.sb, m.ksc, m.off⟩)) :
    WrittenAs (numC f) (f.formPf k) :=
  writtenAs_ite fun hc => writtenAs_of_word (h f.g f.addr) <| by
    cases f
    simp_all [WordC.addr]

theorem writtenC_formSlot {k : VReg → BitVec 8 → Instr}
    (h : ∀ d n, encodeWord (k d n) = some (numC ⟨f.op, Guard.none, d, 0, 0, 0, 0#15 ++ n⟩)) :
    WrittenAs (numC f) (f.formSlot k) :=
  writtenAs_ite fun ⟨hg, ha, hb, hk, hn⟩ => writtenAs_of_word (h f.vd (f.off.extractLsb' 0 8)) <| by
    rw [← eq_zeros_append (n := 15) (k := 8) hn]
    cases f
    simp_all

theorem writtenC_formDai {k : Guard → VReg → VReg → BitVec 32 → Instr}
    (h : ∀ g d a i, encodeWord (k g d a i) = some (numC (.imm f.op g d a i))) :
    WrittenAs (numC f) (f.formDai k) :=
  writtenAs_of_word (h f.g f.vd f.va f.imm32) (wordC_imm_imm32 f)

theorem writtenC_formDi {k : Guard → VReg → BitVec 32 → Instr}
    (h : ∀ g d i, encodeWord (k g d i) = some (numC (.imm f.op g d 0 i))) :
    WrittenAs (numC f) (f.formDi k) :=
  writtenAs_ite fun hc => writtenAs_of_word (h f.g f.vd f.imm32) <| by
    rw [← hc, wordC_imm_imm32]

theorem writtenC_formMai {k : Guard → MReg → VReg → BitVec 32 → Instr}
    (h : ∀ g d a i, encodeWord (k g d a i) = some (numC (.imm f.op g (0#4 ++ d) a i))) :
    WrittenAs (numC f) (f.formMai k) :=
  writtenAs_map fun x hx => (h f.g x f.va f.imm32).trans <| congrArg (some <| numC ·) <| by
    rw [mreg_of8_eq_some hx, wordC_imm_imm32]

end

/-! ## Class D forms -/

section
variable {f : WordD}

/-- The class and the number of a word. -/
def numD (f : WordD) : Class × Nat := (.d, f.bits.toNat)

theorem writtenD_formD {k : SReg → Instr}
    (h : ∀ d, encodeWord (k d) = some (numD { op := f.op, sd := d })) :
    WrittenAs (numD f) (f.formD k) :=
  writtenAs_ite fun hc => writtenAs_of_word (h f.sd) <| by
    cases f
    simp_all [WordD.blank]

theorem writtenD_formA {k : SReg → Instr}
    (h : ∀ a, encodeWord (k a) = some (numD { op := f.op, sa := a })) :
    WrittenAs (numD f) (f.formA k) :=
  writtenAs_ite fun hc => writtenAs_of_word (h f.sa) <| by
    cases f
    simp_all [WordD.blank]

theorem writtenD_formAb {k : SReg → SReg → Instr}
    (h : ∀ a b, encodeWord (k a b) = some (numD { op := f.op, sa := a, sb := b })) :
    WrittenAs (numD f) (f.formAb k) :=
  writtenAs_ite fun hc => writtenAs_of_word (h f.sa f.sb) <| by
    cases f
    simp_all [WordD.blank]

theorem writtenD_formAbc {k : SReg → SReg → SReg → Instr}
    (h : ∀ a b c, encodeWord (k a b c) = some (numD { op := f.op, sa := a, sb := b, sc := c })) :
    WrittenAs (numD f) (f.formAbc k) :=
  writtenAs_ite fun hc => writtenAs_of_word (h f.sa f.sb f.sc) <| by
    cases f
    simp_all [WordD.blank]

theorem writtenD_formDa {k : SReg → SReg → Instr}
    (h : ∀ d a, encodeWord (k d a) = some (numD { op := f.op, sd := d, sa := a })) :
    WrittenAs (numD f) (f.formDa k) :=
  writtenAs_ite fun hc => writtenAs_of_word (h f.sd f.sa) <| by
    cases f
    simp_all [WordD.blank]

theorem writtenD_formDab {k : SReg → SReg → SReg → Instr}
    (h : ∀ d a b, encodeWord (k d a b) = some (numD { op := f.op, sd := d, sa := a, sb := b })) :
    WrittenAs (numD f) (f.formDab k) :=
  writtenAs_ite fun hc => writtenAs_of_word (h f.sd f.sa f.sb) <| by
    cases f
    simp_all [WordD.blank]

theorem writtenD_formDc {k : SReg → SReg → Instr}
    (h : ∀ d c, encodeWord (k d c) = some (numD { op := f.op, sd := d, sc := c })) :
    WrittenAs (numD f) (f.formDc k) :=
  writtenAs_ite fun hc => writtenAs_of_word (h f.sd f.sc) <| by
    cases f
    simp_all [WordD.blank]

theorem writtenD_formVdabc {k : VReg → SReg → SReg → SReg → SReg → Instr}
    (h : ∀ v d a b c, encodeWord (k v d a b c) = some (numD { op := f.op, va := v, sd := d, sa := a, sb := b, sc := c })) :
    WrittenAs (numD f) (f.formVdabc k) :=
  writtenAs_ite fun hc => writtenAs_of_word (h f.va f.sd f.sa f.sb f.sc) <| by
    cases f
    simp_all [WordD.blank]

theorem writtenD_formK {k : EngKind → Instr}
    (h : ∀ e, encodeWord (k e) = some (numD { op := f.op, imm := e.code })) :
    WrittenAs (numD f) (f.formK k) :=
  writtenAs_ite fun hc => writtenAs_map fun x hx => (h x).trans <| congrArg (some <| numD ·) <| by
    have hf := engKind_ofCode_eq_some hx
    cases f
    simp_all [WordD.blank]

theorem writtenD_formDk {k : SReg → EngKind → Instr}
    (h : ∀ d e, encodeWord (k d e) = some (numD { op := f.op, sd := d, imm := e.code })) :
    WrittenAs (numD f) (f.formDk k) :=
  writtenAs_ite fun hc => writtenAs_map fun x hx => (h f.sd x).trans <| congrArg (some <| numD ·) <| by
    have hf := engKind_ofCode_eq_some hx
    cases f
    simp_all [WordD.blank]

theorem writtenD_formLvl {k : Lvl → SReg → Instr}
    (h : ∀ l a, encodeWord (k l a) = some (numD { op := f.op, sa := a, imm := l.code })) :
    WrittenAs (numD f) (f.formLvl k) :=
  writtenAs_ite fun hc => writtenAs_map fun x hx => (h x f.sa).trans <| congrArg (some <| numD ·) <| by
    have hf := lvl_ofCode_eq_some hx
    cases f
    simp_all [WordD.blank]

theorem writtenD_formDabf {k : SReg → SReg → SReg → SelFlags → Instr}
    (h : ∀ d a b e, encodeWord (k d a b e) = some (numD { op := f.op, sd := d, sa := a, sb := b, imm := e.code })) :
    WrittenAs (numD f) (f.formDabf k) :=
  writtenAs_ite fun hc => writtenAs_map fun x hx => (h f.sd f.sa f.sb x).trans <| congrArg (some <| numD ·) <| by
    have hf := selFlags_ofCode_eq_some hx
    cases f
    simp_all [WordD.blank]

theorem writtenD_formDabcf {k : SReg → SReg → SReg → SReg → SelFlags → Instr}
    (h : ∀ d a b c e, encodeWord (k d a b c e) = some (numD { op := f.op, sd := d, sa := a, sb := b, sc := c, imm := e.code })) :
    WrittenAs (numD f) (f.formDabcf k) :=
  writtenAs_ite fun hc => writtenAs_map fun x hx => (h f.sd f.sa f.sb f.sc x).trans <| congrArg (some <| numD ·) <| by
    have hf := selFlags_ofCode_eq_some hx
    cases f
    simp_all [WordD.blank]

theorem writtenD_formSlota {k : BitVec 2 → SReg → Instr}
    (h : ∀ n a, encodeWord (k n a) = some (numD { op := f.op, sa := a, imm := n.zeroExtend 32 })) :
    WrittenAs (numD f) (f.formSlota k) :=
  writtenAs_ite fun ⟨hc, hi⟩ => writtenAs_of_word (h (f.imm.extractLsb' 0 2) f.sa) <| by
    have hf := zeroExtend_extract_eq_self (k := 2) hi
    cases f
    simp_all [WordD.blank]

theorem writtenD_formEv {k : Guard → VReg → VReg → BitVec 2 → Instr}
    (h : ∀ g d a n, encodeWord (k g d a n) = some (numD { op := f.op, g := g, vd := d, va := a, imm := n.zeroExtend 32 })) :
    WrittenAs (numD f) (f.formEv k) :=
  writtenAs_ite fun ⟨hc, hi⟩ => writtenAs_of_word (h f.g f.vd f.va (f.imm.extractLsb' 0 2)) <| by
    have hf := zeroExtend_extract_eq_self (k := 2) hi
    cases f
    simp_all [WordD.blank]

theorem writtenD_formAq {k : SReg → BitVec 4 → Instr}
    (h : ∀ a q, encodeWord (k a q) = some (numD { op := f.op, sa := a, imm := q.zeroExtend 32 })) :
    WrittenAs (numD f) (f.formAq k) :=
  writtenAs_ite fun ⟨hc, hi⟩ => writtenAs_of_word (h f.sa (f.imm.extractLsb' 0 4)) <| by
    have hf := zeroExtend_extract_eq_self (k := 4) hi
    cases f
    simp_all [WordD.blank]

theorem writtenD_formBdcs {k : SReg → SReg → SReg → BitVec 8 → Instr}
    (h : ∀ b d c n, encodeWord (k b d c n) = some (numD { op := f.op, sb := b, sd := d, sc := c, imm := n.signExtend 32 })) :
    WrittenAs (numD f) (f.formBdcs k) :=
  writtenAs_ite fun hc => writtenAs_of_word (h f.sb f.sd f.sc (f.imm.extractLsb' 0 8)) <| by
    obtain ⟨hc, hi⟩ := hc
    rw [← hi]
    clear hi
    cases f
    simp_all [WordD.blank]

theorem writtenD_formSusp {k : SReg → SReg → Bool → Bool → Instr}
    (h : ∀ d a t b, encodeWord (k d a t b) = some (numD { op := f.op, sd := d, sa := a, imm := (0#30 ++ BitVec.ofBool b) ++ BitVec.ofBool t })) :
    WrittenAs (numD f) (f.formSusp k) :=
  writtenAs_ite fun ⟨hc, hi⟩ => writtenAs_of_word (h f.sd f.sa (f.imm.getLsbD 0) (f.imm.getLsbD 1)) <| by
    rw [susp_imm hi]
    cases f
    simp_all [WordD.blank]

theorem writtenD_formCopy {k : CopyOps → Instr} (h : ∀ o, encodeWord (k o) = some (numD (.copy f.op o))) :
    WrittenAs (numD f) (f.formCopy k) := by
  unfold WordD.formCopy
  split
  · exact writtenAs_none _
  next ht =>
    refine writtenAs_ite fun hc => writtenAs_of_word (h _) ?_
    obtain ⟨op, g, sd, sa, sb, sc, vd, va, ten, rsv, tag, imm⟩ := f
    obtain rfl | rfl := eq_zero_or_one ten
    · simp_all [WordD.copy, WordD.blank]
    · simp_all [WordD.copy, WordD.blank]

end
/-! ## The opcode maps -/

theorem eq_ofNat_of_toNat {n w : Nat} {x : BitVec n} (h : x.toNat = w) : x = BitVec.ofNat n w := by
  rw [← h, BitVec.ofNat_toNat, BitVec.setWidth_eq]

/-- Each line of the class A map is one of the forms, with the opcode that the encoder writes. -/
theorem writtenAs_decodeA (f : WordA) : WrittenAs (numA f) (decodeA f) := by
  unfold decodeA
  split
  case h_1 hop | h_2 hop | h_3 hop | h_4 hop | h_5 hop | h_6 hop | h_7 hop | h_8 hop | h_9 hop | h_10 hop | h_11 hop |
      h_12 hop | h_13 hop | h_14 hop | h_15 hop | h_16 hop | h_17 hop | h_18 hop | h_19 hop | h_20 hop | h_21 hop |
      h_30 hop | h_31 hop | h_32 hop | h_33 hop | h_34 hop | h_35 hop =>
    exact writtenA_formRrr fun _ _ _ => by rw [eq_ofNat_of_toNat hop]; rfl
  case h_22 hop | h_23 hop =>
    exact writtenA_formRrrr fun _ _ _ _ => by rw [eq_ofNat_of_toNat hop]; rfl
  case h_24 hop | h_25 hop | h_26 hop | h_29 hop | h_84 hop =>
    exact writtenA_formRr fun _ _ => by rw [eq_ofNat_of_toNat hop]; rfl
  case h_27 hop | h_28 hop | h_40 hop | h_41 hop | h_42 hop =>
    exact writtenA_formRrc fun _ _ _ => by rw [eq_ofNat_of_toNat hop]; rfl
  case h_36 hop | h_37 hop | h_38 hop | h_39 hop | h_72 hop | h_73 hop | h_74 hop | h_75 hop | h_76 hop | h_77 hop |
      h_78 hop | h_79 hop | h_85 hop | h_86 hop | h_87 hop =>
    exact writtenA_formRri fun _ _ _ => by rw [eq_ofNat_of_toNat hop]; rfl
  case h_43 hop | h_47 hop | h_48 hop =>
    exact writtenA_formRi18 fun _ _ => by rw [eq_ofNat_of_toNat hop]; rfl
  case h_44 hop =>
    exact writtenA_formRi16 fun _ _ => by rw [eq_ofNat_of_toNat hop]; rfl
  case h_45 hop | h_46 hop =>
    exact writtenA_formJ0 fun _ => by rw [eq_ofNat_of_toNat hop]; rfl
  case h_49 hop | h_50 hop | h_51 hop =>
    exact writtenA_formJm fun _ _ => by rw [eq_ofNat_of_toNat hop]; rfl
  case h_52 hop | h_59 hop | h_81 hop | h_82 hop | h_83 hop =>
    exact writtenA_formA fun _ => by rw [eq_ofNat_of_toNat hop]; rfl
  case h_53 hop | h_55 hop =>
    exact writtenA_formZ (by rw [eq_ofNat_of_toNat hop]; rfl)
  case h_54 hop =>
    exact writtenA_formI fun _ => by rw [eq_ofNat_of_toNat hop]; rfl
  case h_56 hop =>
    exact writtenA_formW fun _ _ _ _ _ => by rw [eq_ofNat_of_toNat hop]; rfl
  case h_57 hop =>
    exact writtenA_formDi fun _ _ => by rw [eq_ofNat_of_toNat hop]; rfl
  case h_58 hop | h_80 hop | h_89 hop =>
    exact writtenA_formAi fun _ _ => by rw [eq_ofNat_of_toNat hop]; rfl
  case h_60 hop | h_61 hop | h_62 hop =>
    exact writtenA_formC fun _ => by rw [eq_ofNat_of_toNat hop]; rfl
  case h_63 hop | h_70 hop | h_71 hop =>
    exact writtenA_formDm fun _ _ => by rw [eq_ofNat_of_toNat hop]; rfl
  case h_64 hop =>
    exact writtenA_formMa fun _ _ => by rw [eq_ofNat_of_toNat hop]; rfl
  case h_65 hop | h_66 hop | h_67 hop | h_68 hop =>
    exact writtenA_formMmm fun _ _ _ => by rw [eq_ofNat_of_toNat hop]; rfl
  case h_69 hop =>
    exact writtenA_formMm fun _ _ => by rw [eq_ofNat_of_toNat hop]; rfl
  case h_88 hop =>
    exact writtenA_formDi4 fun _ _ => by rw [eq_ofNat_of_toNat hop]; rfl
  case h_90 hop =>
    exact writtenA_formI4 fun _ => by rw [eq_ofNat_of_toNat hop]; rfl
  · exact writtenAs_none _

/-- Each line of the class B map is one of the forms, with the opcode that the encoder writes. -/
theorem writtenAs_decodeB (f : WordB) : WrittenAs (numB f) (decodeB f) := by
  unfold decodeB
  split
  case h_1 hop | h_2 hop | h_3 hop | h_4 hop | h_5 hop | h_9 hop | h_10 hop | h_11 hop | h_12 hop | h_13 hop |
      h_14 hop | h_15 hop | h_16 hop | h_18 hop | h_19 hop | h_20 hop | h_21 hop | h_41 hop | h_44 hop | h_45 hop |
      h_46 hop | h_47 hop | h_48 hop | h_49 hop | h_50 hop | h_51 hop | h_52 hop | h_53 hop | h_54 hop | h_55 hop |
      h_60 hop | h_61 hop | h_62 hop | h_63 hop | h_79 hop | h_87 hop | h_88 hop | h_89 hop | h_90 hop | h_123 hop |
      h_124 hop | h_125 hop | h_126 hop | h_137 hop | h_138 hop =>
    exact writtenB_formDab fun _ _ _ _ => by rw [eq_ofNat_of_toNat hop]; rfl
  case h_6 hop | h_22 hop | h_23 hop | h_24 hop | h_39 hop | h_40 hop | h_42 hop | h_43 hop | h_56 hop | h_57 hop |
      h_58 hop | h_59 hop | h_91 hop | h_92 hop =>
    exact writtenB_formDabc fun _ _ _ _ _ => by rw [eq_ofNat_of_toNat hop]; rfl
  case h_7 hop | h_8 hop | h_17 hop | h_25 hop | h_26 hop | h_27 hop | h_64 hop | h_65 hop | h_74 hop | h_75 hop |
      h_76 hop | h_77 hop | h_78 hop | h_80 hop | h_81 hop | h_82 hop | h_83 hop | h_84 hop | h_85 hop | h_86 hop |
      h_93 hop | h_94 hop | h_95 hop | h_96 hop | h_97 hop | h_98 hop | h_99 hop | h_100 hop | h_101 hop | h_102 hop |
      h_103 hop | h_104 hop | h_105 hop | h_106 hop | h_107 hop | h_108 hop | h_109 hop | h_110 hop | h_111 hop |
      h_112 hop | h_113 hop | h_114 hop | h_115 hop | h_116 hop | h_117 hop | h_118 hop | h_119 hop | h_120 hop |
      h_121 hop | h_122 hop | h_130 hop | h_131 hop | h_132 hop | h_133 hop | h_134 hop | h_135 hop | h_136 hop =>
    exact writtenB_formDa fun _ _ _ => by rw [eq_ofNat_of_toNat hop]; rfl
  case h_28 hop =>
    exact writtenB_formDabm fun _ _ _ _ _ => by rw [eq_ofNat_of_toNat hop]; rfl
  case h_29 hop | h_30 hop | h_31 hop | h_32 hop | h_33 hop | h_34 hop | h_35 hop | h_36 hop | h_37 hop | h_38 hop |
      h_66 hop | h_67 hop | h_68 hop | h_69 hop | h_70 hop | h_71 hop | h_72 hop | h_73 hop =>
    exact writtenB_formMab fun _ _ _ _ => by rw [eq_ofNat_of_toNat hop]; rfl
  case h_127 hop | h_128 hop =>
    exact writtenB_formMm fun _ _ _ => by rw [eq_ofNat_of_toNat hop]; rfl
  case h_129 hop =>
    exact writtenB_formDm fun _ _ _ => by rw [eq_ofNat_of_toNat hop]; rfl
  · exact writtenAs_none _

/-- Each line of the class C map is one of the forms, with the opcode that the encoder writes. -/
theorem writtenAs_decodeC (f : WordC) : WrittenAs (numC f) (decodeC f) := by
  unfold decodeC
  split
  case h_1 hop | h_2 hop | h_3 hop | h_4 hop | h_5 hop | h_6 hop | h_7 hop | h_8 hop | h_9 hop | h_10 hop | h_11 hop |
      h_12 hop | h_25 hop | h_26 hop | h_27 hop | h_28 hop | h_29 hop | h_30 hop | h_31 hop | h_32 hop | h_33 hop |
      h_34 hop | h_35 hop | h_36 hop | h_37 hop | h_38 hop | h_39 hop | h_40 hop | h_41 hop | h_42 hop | h_43 hop |
      h_44 hop | h_45 hop | h_46 hop | h_47 hop | h_48 hop | h_49 hop | h_50 hop | h_51 hop | h_52 hop | h_53 hop |
      h_54 hop | h_55 hop | h_56 hop | h_57 hop | h_58 hop | h_59 hop | h_60 hop | h_61 hop | h_62 hop | h_63 hop |
      h_64 hop | h_65 hop | h_66 hop | h_67 hop | h_68 hop | h_69 hop | h_70 hop | h_71 hop | h_72 hop | h_73 hop |
      h_74 hop | h_75 hop | h_76 hop | h_77 hop | h_78 hop | h_79 hop | h_80 hop | h_81 hop | h_82 hop | h_83 hop |
      h_84 hop | h_85 hop | h_86 hop | h_87 hop | h_88 hop =>
    exact writtenC_formMem fun _ _ _ => by rw [eq_ofNat_of_toNat hop]; rfl
  case h_13 hop | h_14 hop | h_15 hop | h_16 hop | h_17 hop | h_18 hop | h_19 hop | h_20 hop | h_21 hop | h_22 hop |
      h_23 hop | h_24 hop =>
    exact writtenC_formPtr fun _ _ _ _ => by rw [eq_ofNat_of_toNat hop]; rfl
  case h_89 hop | h_90 hop =>
    exact writtenC_formQ fun _ _ _ _ => by rw [eq_ofNat_of_toNat hop]; rfl
  case h_91 hop =>
    exact writtenC_formPf fun _ _ => by rw [eq_ofNat_of_toNat hop]; rfl
  case h_92 hop | h_93 hop =>
    exact writtenC_formSlot fun _ _ => by rw [eq_ofNat_of_toNat hop]; rfl
  case h_94 hop | h_95 hop | h_96 hop | h_97 hop | h_98 hop =>
    exact writtenC_formDai fun _ _ _ _ => by rw [eq_ofNat_of_toNat hop]; rfl
  case h_99 hop =>
    exact writtenC_formDi fun _ _ _ => by rw [eq_ofNat_of_toNat hop]; rfl
  case h_100 hop | h_101 hop | h_102 hop | h_103 hop | h_104 hop | h_105 hop | h_106 hop | h_107 hop | h_108 hop |
      h_109 hop =>
    exact writtenC_formMai fun _ _ _ _ => by rw [eq_ofNat_of_toNat hop]; rfl
  · exact writtenAs_none _

/-- Each line of the class D map is one of the forms, with the opcode that the encoder writes. -/
theorem writtenAs_decodeD (f : WordD) : WrittenAs (numD f) (decodeD f) := by
  unfold decodeD
  split
  case h_1 hop | h_2 hop | h_3 hop | h_4 hop | h_5 hop | h_6 hop | h_7 hop =>
    exact writtenD_formCopy fun _ => by rw [eq_ofNat_of_toNat hop]; rfl
  case h_8 hop | h_21 hop =>
    exact writtenD_formD fun _ => by rw [eq_ofNat_of_toNat hop]; rfl
  case h_9 hop | h_10 hop | h_20 hop | h_38 hop | h_41 hop | h_42 hop =>
    exact writtenD_formA fun _ => by rw [eq_ofNat_of_toNat hop]; rfl
  case h_11 hop | h_37 hop =>
    exact writtenD_formAb fun _ _ => by rw [eq_ofNat_of_toNat hop]; rfl
  case h_12 hop | h_14 hop =>
    exact writtenD_formK fun _ => by rw [eq_ofNat_of_toNat hop]; rfl
  case h_13 hop =>
    exact writtenD_formDk fun _ _ => by rw [eq_ofNat_of_toNat hop]; rfl
  case h_15 hop =>
    exact writtenD_formDa fun _ _ => by rw [eq_ofNat_of_toNat hop]; rfl
  case h_16 hop | h_17 hop | h_18 hop =>
    exact writtenD_formVdabc fun _ _ _ _ _ => by rw [eq_ofNat_of_toNat hop]; rfl
  case h_19 hop =>
    exact writtenD_formDc fun _ _ => by rw [eq_ofNat_of_toNat hop]; rfl
  case h_22 hop | h_23 hop | h_24 hop | h_25 hop | h_26 hop | h_27 hop | h_28 hop | h_29 hop =>
    exact writtenD_formBdcs fun _ _ _ _ => by rw [eq_ofNat_of_toNat hop]; rfl
  case h_30 hop =>
    exact writtenD_formSlota fun _ _ => by rw [eq_ofNat_of_toNat hop]; rfl
  case h_31 hop =>
    exact writtenD_formEv fun _ _ _ _ => by rw [eq_ofNat_of_toNat hop]; rfl
  case h_32 hop | h_34 hop =>
    exact writtenD_formDabf fun _ _ _ _ => by rw [eq_ofNat_of_toNat hop]; rfl
  case h_33 hop =>
    exact writtenD_formDabcf fun _ _ _ _ _ => by rw [eq_ofNat_of_toNat hop]; rfl
  case h_35 hop =>
    exact writtenD_formAq fun _ _ => by rw [eq_ofNat_of_toNat hop]; rfl
  case h_36 hop =>
    exact writtenD_formAbc fun _ _ _ => by rw [eq_ofNat_of_toNat hop]; rfl
  case h_39 hop =>
    exact writtenD_formLvl fun _ _ => by rw [eq_ofNat_of_toNat hop]; rfl
  case h_40 hop =>
    exact writtenD_formSusp fun _ _ _ _ => by rw [eq_ofNat_of_toNat hop]; rfl
  case h_43 hop =>
    exact writtenD_formDab fun _ _ _ => by rw [eq_ofNat_of_toNat hop]; rfl
  · exact writtenAs_none _

/-! ## Words from their bits -/

theorem wordA_bits_ofBits {w : BitVec 32} (h : w.extractLsb' 31 1 = 0#1) : (WordA.ofBits w).bits = w := by
  simp only [WordA.bits, WordA.ofBits, ← h]
  rw [extract_join w 24 7 1, extract_join w 18 6 8, extract_join w 12 6 14, extract_join w 6 6 20,
    extract_join w 0 6 26, extract_all]

theorem wordB_bits_ofBits {w : BitVec 48} (h : w.extractLsb' 46 2 = 0b10#2) : (WordB.ofBits w).bits = w := by
  simp only [WordB.bits, WordB.ofBits, guard_bits_ofBits, ← h]
  rw [extract_join w 36 10 2, extract_join w 32 4 12, extract_join w 24 8 16, extract_join w 16 8 24,
    extract_join w 8 8 32, extract_join w 0 8 40, extract_all]

theorem wordC_bits_ofBits {w : BitVec 64} (h : w.extractLsb' 61 3 = 0b110#3) : (WordC.ofBits w).bits = w := by
  simp only [WordC.bits, WordC.ofBits, guard_bits_ofBits, ← h]
  rw [extract_join w 52 9 3, extract_join w 48 4 12, extract_join w 40 8 16, extract_join w 32 8 24,
    extract_join w 26 6 32, extract_join w 23 3 38, extract_join w 0 23 41, extract_all]

theorem wordD_bits_ofBits {w : BitVec 96} (h : w.extractLsb' 92 4 = 0b1110#4) : (WordD.ofBits w).bits = w := by
  simp only [WordD.bits, WordD.ofBits, guard_bits_ofBits, ← h]
  rw [extract_join w 84 8 4, extract_join w 80 4 12, extract_join w 74 6 16, extract_join w 68 6 22,
    extract_join w 62 6 28, extract_join w 56 6 34, extract_join w 48 8 40, extract_join w 40 8 48,
    extract_join w 39 1 56, extract_join w 38 1 57, extract_join w 32 6 58, extract_join w 0 32 64, extract_all]

/-- The bits of a word from `k` up, from the number's quotient. -/
theorem extract_top {n k l : Nat} {w : Nat} {v : BitVec l} (hw : w < 2 ^ n) (h : w / 2 ^ k = v.toNat) :
    (BitVec.ofNat n w).extractLsb' k l = v := by
  apply BitVec.eq_of_toNat_eq
  rw [BitVec.extractLsb'_toNat, Nat.shiftRight_eq_div_pow, BitVec.toNat_ofNat, Nat.mod_eq_of_lt hw, h,
    Nat.mod_eq_of_lt v.isLt]

/-! ## The bytes of a word (R73) -/

theorem beNat_lt (bs : List Byte) : beNat bs < 256 ^ bs.length := by
  induction bs with
  | nil => simp [beNat]
  | cons b bs ih =>
    have hb : b.toNat < 256 := b.isLt
    calc beNat (b :: bs) < (b.toNat + 1) * 256 ^ bs.length := by rw [beNat, Nat.add_one_mul]; omega
      _ ≤ 256 * 256 ^ bs.length := Nat.mul_le_mul_right _ hb
      _ = 256 ^ (b :: bs).length := by rw [List.length_cons, Nat.pow_succ, Nat.mul_comm]

theorem beNat_div_top (b : Byte) (bs : List Byte) : beNat (b :: bs) / 256 ^ bs.length = b.toNat := by
  have hp : 0 < 256 ^ bs.length := Nat.pos_of_ne_zero (by simp)
  rw [beNat, Nat.add_comm, Nat.add_mul_div_right _ _ hp, Nat.div_eq_of_lt (beNat_lt bs), Nat.zero_add]

theorem beNat_mod_top (b : Byte) (bs : List Byte) : beNat (b :: bs) % 256 ^ bs.length = beNat bs := by
  rw [beNat, Nat.add_comm, Nat.add_mul_mod_self_right, Nat.mod_eq_of_lt (beNat_lt bs)]

theorem beBytes_congr {n w v : Nat} (h : w % 256 ^ n = v % 256 ^ n) : beBytes n w = beBytes n v := by
  induction n with
  | zero => rfl
  | succ n ih =>
    have hlow : w % 256 ^ n = v % 256 ^ n := by
      have := congrArg (· % 256 ^ n) h
      simpa only [Nat.mod_mod_of_dvd _ (Nat.pow_dvd_pow 256 n.le_succ)] using this
    have htop : w / 256 ^ n % 256 = v / 256 ^ n % 256 := by
      have := congrArg (· / 256 ^ n) h
      simpa only [Nat.pow_succ, Nat.mod_mul_right_div_self] using this
    have hbyte : BitVec.ofNat 8 (w / 256 ^ n) = BitVec.ofNat 8 (v / 256 ^ n) := BitVec.eq_of_toNat_eq htop
    rw [beBytes, beBytes, hbyte, ih hlow]

theorem beBytes_beNat (bs : List Byte) : beBytes bs.length (beNat bs) = bs := by
  induction bs with
  | nil => rfl
  | cons b bs ih =>
    have hlow : beBytes bs.length (beNat (b :: bs)) = beBytes bs.length (beNat bs) :=
      beBytes_congr (by rw [beNat_mod_top, Nat.mod_eq_of_lt (beNat_lt bs)])
    rw [List.length_cons, beBytes, beNat_div_top, hlow, ih, BitVec.ofNat_toNat, BitVec.setWidth_eq]

/-! ## What decodes is written as the bytes read -/

theorem ofByte_eq_some_iff (b : Byte) (k : Class) : Class.ofByte b = some k ↔
    match k with
    | .a => b.toNat < 0x80
    | .b => 0x80 ≤ b.toNat ∧ b.toNat < 0xC0
    | .c => 0xC0 ≤ b.toNat ∧ b.toNat < 0xE0
    | .d => 0xE0 ≤ b.toNat ∧ b.toNat < 0xF0
    | .e => 0xF0 ≤ b.toNat ∧ b.toNat < 0xF6
    | .pad => b.toNat = 0xFF := by
  revert b
  cases k <;> decide

/-- A class E word with its code in the high byte: every code is one of Table 3-2. -/
theorem writtenAs_decodeE (c arg : Byte) (hc : 0xF0 ≤ c.toNat ∧ c.toNat < 0xF6) :
    WrittenAs (.e, (c ++ arg).toNat) (decodeE (c ++ arg)) := by
  have harg : (c ++ arg).extractLsb' 0 8 = arg := (append_extract c arg).2
  have hcode : (c ++ arg).extractLsb' 8 3 = c.extractLsb' 0 3 := extract_high _ _ _ _ (by decide)
  have hcases : ∀ c : Byte, 0xF0 ≤ c.toNat ∧ c.toNat < 0xF6 →
      c = 0xF0 ∨ c = 0xF1 ∨ c = 0xF2 ∨ c = 0xF3 ∨ c = 0xF4 ∨ c = 0xF5 := by decide
  unfold decodeE
  rw [harg, hcode]
  obtain rfl | rfl | rfl | rfl | rfl | rfl := hcases c hc
  · exact writtenAs_ite fun h => writtenAs_some (by rw [h]; rfl)
  · exact writtenAs_ite fun h => writtenAs_some (by rw [h]; rfl)
  · exact writtenAs_some rfl
  · exact writtenAs_ite fun h => writtenAs_some (by rw [h]; rfl)
  · exact writtenAs_some rfl
  · exact writtenAs_ite fun h => writtenAs_some (by rw [h]; rfl)

/-- The instruction of a class's word, whose first byte selects the class, is written as that word. -/
theorem writtenAs_decodeClass {k : Class} {b : Byte} {bs : List Byte} (hk : Class.ofByte b = some k)
    (hl : bs.length + 1 = k.length) : WrittenAs (k, beNat (b :: bs)) (decodeClass k (beNat (b :: bs))) := by
  have hlt := beNat_lt (b :: bs)
  have htop := beNat_div_top b bs
  have hb := (ofByte_eq_some_iff b k).mp hk
  rw [List.length_cons, hl] at hlt
  generalize beNat (b :: bs) = w at hlt htop
  cases k
  case a =>
    replace hlt : w < 2 ^ 32 := hlt
    have hl3 : bs.length = 3 := Nat.succ_inj.mp hl
    have hbits := wordA_bits_ofBits (extract_top (v := 0#1) hlt (show w / 2 ^ 31 = 0 by rw [hl3] at htop; omega))
    have h := writtenAs_decodeA (.ofBits (BitVec.ofNat 32 w))
    rw [numA, hbits, BitVec.toNat_ofNat, Nat.mod_eq_of_lt hlt] at h
    exact h
  case b =>
    replace hlt : w < 2 ^ 48 := hlt
    have hl5 : bs.length = 5 := Nat.succ_inj.mp hl
    have hbits := wordB_bits_ofBits (extract_top (v := 0b10#2) hlt (show w / 2 ^ 46 = 2 by rw [hl5] at htop; omega))
    have h := writtenAs_decodeB (.ofBits (BitVec.ofNat 48 w))
    rw [numB, hbits, BitVec.toNat_ofNat, Nat.mod_eq_of_lt hlt] at h
    exact h
  case c =>
    replace hlt : w < 2 ^ 64 := hlt
    have hl7 : bs.length = 7 := Nat.succ_inj.mp hl
    have hbits := wordC_bits_ofBits (extract_top (v := 0b110#3) hlt (show w / 2 ^ 61 = 6 by rw [hl7] at htop; omega))
    have h := writtenAs_decodeC (.ofBits (BitVec.ofNat 64 w))
    rw [numC, hbits, BitVec.toNat_ofNat, Nat.mod_eq_of_lt hlt] at h
    exact h
  case d =>
    replace hlt : w < 2 ^ 96 := hlt
    have hl11 : bs.length = 11 := Nat.succ_inj.mp hl
    have hbits := wordD_bits_ofBits (extract_top (v := 0b1110#4) hlt (show w / 2 ^ 92 = 14 by rw [hl11] at htop; omega))
    have h := writtenAs_decodeD (.ofBits (BitVec.ofNat 96 w))
    rw [numD, hbits, BitVec.toNat_ofNat, Nat.mod_eq_of_lt hlt] at h
    exact h
  case e =>
    replace hlt : w < 2 ^ 16 := hlt
    have hl1 : bs.length = 1 := Nat.succ_inj.mp hl
    have hw : BitVec.ofNat 16 w = b ++ (BitVec.ofNat 16 w).extractLsb' 0 8 := by
      rw [← extract_top (v := b) (k := 8) hlt (by rw [← htop, hl1]; rfl), extract_join _ 0 8 8, extract_all]
    have h := writtenAs_decodeE b ((BitVec.ofNat 16 w).extractLsb' 0 8) hb
    rw [← hw, BitVec.toNat_ofNat, Nat.mod_eq_of_lt hlt] at h
    exact h
  case pad =>
    have hl0 : bs.length = 0 := Nat.succ_inj.mp hl
    rw [hl0, Nat.pow_zero, Nat.div_one] at htop
    exact writtenAs_some (by rw [htop, hb]; rfl)

theorem fetchClass_eq_ok {bs : List Byte} {k : Class} {w : Nat} (h : fetchClass bs = .ok (k, w)) :
    ∃ b tail, bs = b :: tail ∧ Class.ofByte b = some k ∧ k.length ≤ bs.length ∧ w = beNat (bs.take k.length) := by
  unfold fetchClass at h
  split at h
  · cases h
  next b tail =>
    split at h
    · cases h
    next hk =>
      split_ifs at h with hlen
      cases h
      exact ⟨b, tail, rfl, hk, Nat.le_of_not_lt hlen, rfl⟩

theorem decode_eq_ok {bs : List Byte} {i : Instr} {n : Nat} (h : decode bs = .ok (i, n)) :
    ∃ b rest k, bs.take n = b :: rest ∧ Class.ofByte b = some k ∧ n = k.length ∧ n ≤ bs.length ∧
      decodeClass k (beNat (bs.take n)) = some i ∧ i.wf = true := by
  unfold decode at h
  split at h
  · cases h
  next k w hf =>
    obtain ⟨b, tail, hbs, hk, hlen, rfl⟩ := fetchClass_eq_ok hf
    split at h
    · cases h
    next j hd =>
      split_ifs at h with hwf
      cases h
      obtain ⟨m, hm⟩ := Nat.exists_eq_succ_of_ne_zero (class_length_pos k).ne'
      exact ⟨b, tail.take m, k, by rw [hbs, hm]; rfl, hk, rfl, hlen, hd, hwf⟩

theorem class_length_mem (k : Class) :
    k.length = 1 ∨ k.length = 2 ∨ k.length = 4 ∨ k.length = 6 ∨ k.length = 8 ∨ k.length = 12 := by
  cases k <;> decide

/-- Settles O54: the word of the first byte's class is the one that the instruction is written as, so the bytes taken are its
encoding, which O53 reads back before any bytes. -/
theorem encodeGivesDecoded : Obligations.EncodeGivesDecoded := by
  unfold Obligations.EncodeGivesDecoded
  intro bs i n h
  obtain ⟨b, tl, k, htake, hk, rfl, hn, hd, hwf⟩ := decode_eq_ok h
  have hlen : (bs.take k.length).length = k.length := List.length_take_of_le hn
  have hword : encodeWord i = some (k, beNat (bs.take k.length)) := by
    rw [htake] at hd hlen ⊢
    exact writtenAs_decodeClass hk hlen i hd
  have henc : encode i = some (bs.take k.length) := by
    rw [encode, hword, Option.map_some]
    exact congrArg some ((congrArg (beBytes · _) hlen.symm).trans (beBytes_beNat _))
  refine ⟨hwf, henc, hn, class_length_mem k, fun rest => ?_⟩
  rw [decodeReadsEncode i _ rest hwf henc, hlen]

/-- Settles O55: the decoder evaluated at each of the words. -/
theorem workedEncodings : Obligations.WorkedEncodings := by
  unfold Obligations.WorkedEncodings
  refine ⟨?_, ?_, ?_, ?_, ?_, ?_, ?_, ?_, ?_, ?_, ?_, ?_, ?_, ?_, ?_, ?_, ?_, ?_, ?_, ?_, ?_, ?_⟩
  all_goals rfl

end Sys2Proof.Proofs
end

section
/-!
SUPPORT. What a step of the package is, by cases (O57, O60), and the management registers, which every step keeps in range
(O59).
-/

open Sys2Proof Sys2Proof.Machine Sys2Proof.Claims

namespace Sys2Proof.Proofs

/-! ## The cases of a step (log entry 1) -/

theorem step_of_latched {s : State} {g : GangRef} (h : s.dev.latch = some g) : step s = settled (issueNext s) := by
  rw [step, h]

theorem step_of_scheduled {s : State} {x : Sched} {rest : List Sched} (h : s.dev.latch = none) (hs : s.schedule = x :: rest) :
    step s = settled (scheduled { s with schedule := rest } x) := by
  rw [step, h, hs]

theorem step_of_idle {s : State} (h : s.dev.latch = none) (hs : s.schedule = []) : step s = settled (ownChoice s) := by
  rw [step, h, hs]

theorem ownChoice_of_none {s : State} (h : ∀ i ∈ agenda s, changes s i = false) :
    ownChoice s = .next { s with dev := s.dev.tick 1 } := by
  rw [ownChoice, List.find?_eq_none.mpr fun i hi => by rw [h i hi]; decide]

theorem ownChoice_of_first {s : State} {before rest : List Instr} {i : Instr} (hl : agenda s = before ++ i :: rest)
    (hb : ∀ x ∈ before, changes s x = false) (hi : changes s i = true) : ownChoice s = exec i s := by
  have hfind : (agenda s).find? (changes s) = some i :=
    List.find?_eq_some_iff_append.mpr ⟨hi, before, rest, hl, fun x hx => by rw [hb x hx]; rfl⟩
  rw [ownChoice, hfind]

theorem changes_of_next {s t : State} {i : Instr} (h : exec i s = .next t) (hne : t ≠ s) : changes s i = true := by
  rw [changes, h]
  exact decide_eq_true hne

theorem scheduled_of_event (s : State) (dt : Nat) (i : Instr) :
    scheduled s ⟨dt, some i⟩ = (if isIssued i then Host.Outcome.next else exec i) { s with dev := s.dev.tick dt } := by
  by_cases hi : isIssued i = true
  · rw [if_pos hi]
    exact if_pos hi
  · rw [if_neg hi]
    exact if_neg hi

/-- Settles O57: the three cases of `step` (a gang, an entry of the schedule, neither), and what `ownChoice` takes. -/
theorem stepFollowsTheSchedule : Obligations.StepFollowsTheSchedule := by
  unfold Obligations.StepFollowsTheSchedule
  refine fun s => ⟨fun hk hl => ?latched, fun hl => ⟨fun dt i rest hs => ?event, fun dt rest t hs ht => ?free,
    fun hs => ⟨fun hnone => ?cycle, fun before i rest t hag hb hi hne => ?first⟩⟩⟩
  case latched =>
    obtain ⟨g, hg⟩ := Option.ne_none_iff_exists'.mp hl
    rw [step_of_latched hg, issueNext, hk]
  case event =>
    rw [step_of_scheduled hl hs, scheduled_of_event]
  case free =>
    rw [step_of_scheduled hl hs, ht]
    rfl
  case cycle =>
    rw [step_of_idle hl hs, ownChoice_of_none hnone]
    rfl
  case first => rw [step_of_idle hl hs, ownChoice_of_first hag hb (changes_of_next hi hne), hi]

theorem mgmtOk_reset : MgmtOk Mgmt.reset where
  cap := by decide
  cuts := by decide
  emerg := by decide
  seccnt := by decide
  levels := fun _ h => absurd h List.not_mem_nil
  phase := by decide
  errcode := by decide
  requests := ⟨List.nodup_nil, fun _ h => absurd h List.not_mem_nil⟩

theorem memOk_reset : memOk State.reset := ⟨rfl, fun _ h => absurd h List.not_mem_nil⟩

/-- Bring-up comes first on the agenda after reset, and ends phase 0. -/
theorem step_reset : step State.reset = settled (exec (.bringupPhase 0 []) State.reset) := by
  have hphase : execBringupPhase 0 [] State.reset = .next { State.reset.endPhase [] with
      mgmt := { (State.reset.endPhase []).mgmt with phase := 1, ready := false } } := rfl
  have hne : ∀ {t : State}, exec (.bringupPhase 0 []) State.reset = .next t → t ≠ State.reset := by
    rintro t ht rfl
    cases hphase.symm.trans ht
  have hnext : exec (.bringupPhase 0 []) State.reset = .next _ := hphase
  rw [step_of_idle rfl rfl, ownChoice_of_first (before := []) rfl (fun _ h => absurd h List.not_mem_nil)
    (changes_of_next hnext (hne hnext))]

/-- Settles O60: every register by its reset value, the invariants, and the first step. -/
theorem resetState : Obligations.ResetState := by
  unfold Obligations.ResetState
  refine ⟨mgmtOk_reset, memOk_reset, rfl, rfl, rfl, rfl, rfl, rfl, rfl, rfl, rfl, rfl, rfl, rfl, rfl, rfl, rfl, rfl, rfl,
    rfl, rfl, rfl, rfl, rfl, rfl, rfl, rfl, rfl, ?_, step_reset⟩
  decide


/-! ## The management registers in range (Table 13-5) -/

/-- What `MgmtOk` speaks of. -/
def ranges (m : Mgmt) : Nat × Nat × Nat × Nat × List (Nat × Nat) × Nat × Bool × Nat × List Migration :=
  (m.watts, m.cuts, m.emerg, m.seccnt, m.levels, m.phase, m.ready, m.errcode, m.migrations)

theorem mgmtOk_of_ranges {m n : Mgmt} (hm : MgmtOk m) (h : ranges n = ranges m) : MgmtOk n := by
  simp only [ranges, Prod.mk.injEq] at h
  obtain ⟨hw, hc, he, hs, hl, hp, hr, hx, hg⟩ := h
  exact ⟨hw ▸ hm.cap, hc ▸ hm.cuts, he ▸ hm.emerg, hs ▸ hm.seccnt, hl ▸ hm.levels, hp ▸ hr ▸ hm.phase,
    hp ▸ hx ▸ hm.errcode, hg ▸ hm.requests⟩

theorem ranges_foldl {α : Type} (l : List α) (f : Mgmt → α → Mgmt) (hf : ∀ m x, ranges (f m x) = ranges m) (m : Mgmt) :
    ranges (l.foldl f m) = ranges m := by
  induction l generalizing m with
  | nil => rfl
  | cons x l ih => rw [List.foldl_cons, ih, hf]

theorem ranges_ite {p : Prop} [Decidable p] {m a b : Mgmt} (ha : ranges a = ranges m) (hb : ranges b = ranges m) :
    ranges (if p then a else b) = ranges m := by
  split
  · exact ha
  · exact hb

theorem ranges_startRise (m : Mgmt) (now island : Nat) : ranges (m.startRise now island) = ranges m :=
  ranges_ite rfl rfl

theorem ranges_startRises (m : Mgmt) (now rail : Nat) : ranges (m.startRises now rail) = ranges m :=
  ranges_foldl _ _ (fun m i => ranges_startRise m now i) m

theorem ranges_vote (m : Mgmt) (now island point : Nat) : ranges (m.vote now island point) = ranges m :=
  (ranges_startRises _ _ _).trans rfl

theorem ranges_fall (m : Mgmt) (rail now : Nat) : ranges (m.fall rail now) = ranges m :=
  ranges_ite rfl ((ranges_startRises _ _ _).trans rfl)

theorem ranges_wakeIsland (m : Mgmt) (now n : Nat) : ranges (m.wakeIsland now n) = ranges m :=
  (ranges_startRise _ _ _).trans rfl

theorem ranges_withCode (m : Mgmt) (code : Nat) : ranges (m.withCode code) = ranges m :=
  ranges_ite rfl rfl

/-! ### Steps of islands and rails -/

theorem ranges_of_onMgmt {s t : State} {f : Mgmt → Mgmt} (hf : ranges (f s.mgmt) = ranges s.mgmt) (h : onMgmt s f = .next t) :
    ranges t.mgmt = ranges s.mgmt := by
  rw [onMgmt_cases s t f h]
  exact hf

theorem ranges_frequencyChangeDone {s t : State} {rail : Nat} (h : execFrequencyChangeDone rail s = .next t) :
    ranges t.mgmt = ranges s.mgmt := by
  refine ranges_of_onMgmt ?_ h
  have hfold := ranges_foldl (railIslands rail) (fun (m : Mgmt) i =>
    if decide (pointMhz (m.island i).vote < (m.island i).mhz) && (m.island i).next.any (· ≤ s.dev.clock) then
      m.modIsland i fun x => { x with mhz := pointMhz x.vote, mv := min x.mv (pointMv x.vote), next := none }
    else m) (fun m i => ranges_ite rfl rfl) s.mgmt
  dsimp only
  split
  · exact ranges_ite hfold hfold
  · exact hfold

theorem ranges_railHoldoffExpire {s t : State} {rail : Nat} (h : execRailHoldoffExpire rail s = .next t) :
    ranges t.mgmt = ranges s.mgmt := by
  refine ranges_of_onMgmt ?_ h
  split
  · exact ranges_ite (ranges_fall _ _ _) rfl
  · rfl

theorem ranges_railStep {s t : State} {rail : Nat} (h : execRailStep rail s = .next t) :
    ranges t.mgmt = ranges s.mgmt := by
  refine ranges_of_onMgmt ?_ h
  split
  · exact ranges_ite (ranges_fall _ _ _) rfl
  · exact ranges_ite ((ranges_startRises _ _ _).trans rfl) rfl
  · rfl

theorem ranges_islandRiseStep {s t : State} {island : Nat} (h : execIslandRiseStep island s = .next t) :
    ranges t.mgmt = ranges s.mgmt := by
  refine ranges_of_onMgmt ?_ h
  dsimp only
  split
  · rfl
  · exact ranges_ite rfl (ranges_ite rfl rfl)

/-! ### The power controller, heat and retention -/

theorem setAllowances_mgmt (s : State) : s.setAllowances.mgmt = s.mgmt :=
  List.foldlRecOn (motive := fun u : State => u.mgmt = s.mgmt) _ _ rfl fun _ hu _ _ => hu

theorem mgmtOk_powerAction {s : State} (h : MgmtOk s.mgmt) : MgmtOk s.powerAction.mgmt := by
  unfold State.powerAction
  dsimp only
  split
  · exact mgmtOk_of_ranges h (ranges_ite (m := s.mgmt) (ranges_vote _ _ _ _) rfl)
  split
  · exact mgmtOk_of_ranges h rfl
  split
  · exact mgmtOk_of_ranges h rfl
  split
  next hc =>
    rw [setAllowances_mgmt]
    exact { h with cuts := hc }
  · exact h

theorem mgmtOk_powerUndo {s : State} (h : MgmtOk s.mgmt) : MgmtOk s.powerUndo.mgmt := by
  unfold State.powerUndo
  split
  · exact h
  next a rest _ =>
    dsimp only
    split
    · exact mgmtOk_of_ranges h (ranges_ite (m := s.mgmt) (ranges_vote _ _ _ _) rfl)
    · exact mgmtOk_of_ranges h rfl
    · exact mgmtOk_of_ranges h rfl
    · rw [setAllowances_mgmt]
      exact { h with cuts := (Nat.sub_le _ _).trans h.cuts }

theorem hottest_length (n : Nat) (l : List (Nat × Nat)) : (hottest n l).length ≤ n := by
  induction n generalizing l with
  | zero => exact Nat.le_refl 0
  | succ n ih =>
    unfold hottest
    split
    · exact Nat.zero_le _
    · exact Nat.succ_le_succ (ih _)

theorem mgmtOk_openMigration {s : State} (die : Nat) (temps : List (Nat × Nat)) (h : MgmtOk s.mgmt) :
    MgmtOk (s.openMigration die temps).mgmt := by
  unfold State.openMigration
  dsimp only
  split
  · exact h
  next hc =>
    simp only [Bool.or_eq_true, List.isEmpty_iff, List.any_eq_true, beq_iff_eq, not_or, not_exists, not_and] at hc
    obtain ⟨hne, hdie⟩ := hc
    refine { h with requests := ⟨?_, fun x hx => ?_⟩ }
    · rw [List.map_append, List.nodup_append]
      refine ⟨h.requests.1, List.nodup_singleton _, ?_⟩
      rintro _ ha _ hb rfl
      obtain ⟨x, hx, rfl⟩ := List.mem_map.mp ha
      exact hdie x hx (List.mem_singleton.mp hb)
    · obtain hx | hx := List.mem_append.mp hx
      · exact h.requests.2 x hx
      · rw [List.mem_singleton.mp hx]
        exact ⟨List.length_pos_iff.mpr hne, hottest_length 16 _⟩

theorem mgmtOk_migrationClose {s t : State} {die : Nat} {temps : List (Nat × Nat)} (h : MgmtOk s.mgmt)
    (ht : execMigrationClose die temps s = .next t) : MgmtOk t.mgmt := by
  have hclosed : MgmtOk { s.mgmt with migrations := s.mgmt.migrations.filter (·.die != die) } :=
    { h with
      requests := ⟨h.requests.1.sublist (List.filter_sublist.map _), fun x hx => h.requests.2 x (List.mem_of_mem_filter hx)⟩ }
  unfold execMigrationClose at ht
  split at ht
  · cases ht
    exact h
  · dsimp only at ht
    split_ifs at ht
    · cases ht
      exact mgmtOk_openMigration die temps hclosed
    · cases ht
      exact hclosed
    · cases ht
      exact h

theorem levelOf_le (now top : Nat) : levelOf now top ≤ 3 := by
  have hmax : ∀ l : List Nat, (∀ x ∈ l, x ≤ 3) → ∀ a ≤ 3, l.foldl max a ≤ 3 := by
    intro l hl
    induction l with
    | nil => exact fun _ ha => ha
    | cons x l ih =>
      exact fun a ha => ih (fun y hy => hl y (List.mem_cons_of_mem _ hy)) _ (Nat.max_le.mpr ⟨ha, hl x List.mem_cons_self⟩)
  exact hmax _ (fun x hx => Nat.le_of_lt_succ (List.mem_range.mp (List.mem_of_mem_filter hx))) 0 (Nat.zero_le _)

theorem mem_assocPut {l : List (Nat × Nat)} {k v : Nat} {x : Nat × Nat} (h : x ∈ assocPut l k v) : x ∈ l ∨ x = (k, v) := by
  unfold assocPut upsert at h
  split at h
  · obtain ⟨y, hy, rfl⟩ := List.mem_map.mp h
    split
    · exact Or.inr rfl
    · exact Or.inl hy
  · exact (List.mem_append.mp h).imp_right List.mem_singleton.mp

theorem mgmtOk_thermalLevel {s t : State} {die : Nat} {temps : List (Nat × Nat)} (h : MgmtOk s.mgmt)
    (ht : execThermalLevel die temps s = .next t) : MgmtOk t.mgmt := by
  unfold execThermalLevel at ht
  dsimp only at ht
  split_ifs at ht
  · cases ht
    exact h
  · cases ht
    exact mgmtOk_reset
  · cases ht
    exact mgmtOk_openMigration die temps
      { h with levels := fun x hx => (mem_assocPut hx).elim (h.levels x) fun hx => hx ▸ levelOf_le _ _ }
  · cases ht
    exact { h with levels := fun x hx => (mem_assocPut hx).elim (h.levels x) fun hx => hx ▸ levelOf_le _ _ }

theorem ranges_scrubCore (s : State) (core : Nat) (bad : BitVec 4) : ranges (s.scrubCore core bad).mgmt = ranges s.mgmt :=
  ranges_ite rfl rfl

theorem ranges_retentionExit {s t : State} {core : Nat} {bad : BitVec 4} {control : Bool}
    (ht : execRetentionExit core bad control s = .next t) : ranges t.mgmt = ranges s.mgmt := by
  unfold execRetentionExit at ht
  dsimp only at ht
  split_ifs at ht
  · cases ht
    rfl
  · cases ht
    exact ranges_scrubCore s core 15
  · cases ht
    exact (ranges_wakeIsland _ _ _).trans (ranges_scrubCore s core bad)

theorem mgmtOk_bringupPhase {s t : State} {errcode : Nat} {bad : List Nat} (h : MgmtOk s.mgmt)
    (ht : execBringupPhase errcode bad s = .next t) : MgmtOk t.mgmt := by
  obtain ⟨hp7, hready⟩ := h.phase
  unfold execBringupPhase at ht
  split_ifs at ht with hdone herr
  · cases ht
    exact h
  · cases ht
    exact { h with errcode := ⟨Nat.mod_lt _ (by decide), fun _ => herr.2⟩ }
  · simp only [Bool.or_eq_true, bne_iff_ne, not_or, not_not, Bool.not_eq_true] at hdone
    obtain ⟨hr, he⟩ := hdone
    have hp : s.mgmt.phase ≤ 6 := Nat.le_of_lt_succ (lt_of_le_of_ne hp7 fun h7 => by simp [hready.mpr h7] at hr)
    have hend : MgmtOk { s.mgmt with phase := s.mgmt.phase + 1, ready := decide (7 ≤ s.mgmt.phase + 1) } :=
      { h with
        phase := ⟨Nat.succ_le_succ hp, by simp only [decide_eq_true_eq]; omega⟩
        errcode := ⟨h.errcode.1, fun hne => absurd he hne⟩ }
    have hrebase : MgmtOk { s.mgmt.rebase s.dev.clock with
        phase := s.mgmt.phase + 1, ready := decide (7 ≤ s.mgmt.phase + 1) } :=
      { hend with
        requests := by
          refine ⟨?_, fun x hx => ?_⟩
          · exact (congrArg List.Nodup (List.map_map (l := s.mgmt.migrations))).mpr h.requests.1
          · obtain ⟨y, hy, rfl⟩ := List.mem_map.mp hx
            exact h.requests.2 y hy }
    cases ht
    unfold State.endPhase
    dsimp only
    split
    · exact mgmtOk_of_ranges hend rfl
    · exact mgmtOk_of_ranges hend rfl
    · exact mgmtOk_of_ranges hend rfl
    · exact hrebase
    · exact hend
    · exact hend
    · exact hend

/-! ### Requests of the host -/

theorem mgmtOk_of_hostStep {s t : State} {f : State → State} (h : MgmtOk s.mgmt) (hf : MgmtOk (f s).mgmt)
    (ht : hostStep s f = .next t) : MgmtOk t.mgmt := by
  cases ht
  split
  · exact hf
  · exact h

theorem ranges_of_hostDev {s t : State} {f : Dev → Dev} (ht : hostDev s f = .next t) : ranges t.mgmt = ranges s.mgmt := by
  cases ht
  split <;> rfl

theorem mgmtOk_ite' {p : Prop} [Decidable p] {a b : Mgmt} (ha : MgmtOk a) (hb : MgmtOk b) :
    MgmtOk (if p then a else b) := by
  split
  · exact ha
  · exact hb

theorem mgmtOk_ite {p : Prop} [Decidable p] {a b : State} (ha : MgmtOk a.mgmt) (hb : MgmtOk b.mgmt) :
    MgmtOk (if p then a else b).mgmt := by
  split
  · exact ha
  · exact hb

theorem mgmtOk_setCap {s : State} (watts : Nat) (h : MgmtOk s.mgmt) : MgmtOk (s.setCap watts).mgmt := by
  unfold State.setCap
  split
  next hw =>
    rw [setAllowances_mgmt]
    exact { h with cap := hw }
  · exact h

theorem ranges_readInternal (s : State) (v : Nat) : ranges (s.readInternal v).mgmt = ranges s.mgmt := by
  unfold State.readInternal
  dsimp only
  split
  · split <;> rfl
  · rfl

theorem ranges_endCommand (s : State) (code status : Nat) : ranges (s.endCommand code status).mgmt = ranges s.mgmt := rfl

theorem ranges_commandControl (s : State) (v : Nat) : ranges (s.commandControl v).mgmt = ranges s.mgmt := by
  unfold State.commandControl
  dsimp only
  split_ifs <;> rfl

theorem mgmtOk_writeReg {s : State} (fn off v : Nat) (h : MgmtOk s.mgmt) : MgmtOk (s.writeReg fn off v).mgmt := by
  have hsame : ∀ m, ranges m = ranges s.mgmt → MgmtOk m := fun m hm => mgmtOk_of_ranges h hm
  unfold State.writeReg
  exact mgmtOk_ite h <| mgmtOk_ite h <| mgmtOk_ite h <| mgmtOk_ite h <| mgmtOk_ite h <| mgmtOk_ite h <|
    mgmtOk_ite (hsame _ rfl) <| mgmtOk_ite (hsame _ (ranges_commandControl s v)) <| mgmtOk_ite (mgmtOk_setCap _ h) <|
    mgmtOk_ite (hsame _ rfl) <| mgmtOk_ite (hsame _ rfl) <| mgmtOk_ite (hsame _ (ranges_readInternal s v)) <|
    mgmtOk_ite (hsame _ rfl) h

theorem mgmtOk_hostWrite {s t : State} {fn bar off slot : Nat} {bytes : List Byte} {wire : Wire} (h : MgmtOk s.mgmt)
    (ht : execHostWrite fn bar off slot bytes wire s = .next t) : MgmtOk t.mgmt := by
  refine mgmtOk_of_hostStep h ?_ ht
  split_ifs
  · exact h
  · refine List.foldlRecOn (motive := fun u : State => MgmtOk u.mgmt) _ _ h fun u hu sp _ => ?_
    exact mgmtOk_writeReg _ _ _ hu
  · split <;> exact h

theorem mgmtOk_hostRead {s t : State} {fn bar off slot n : Nat} {wire : Wire} (h : MgmtOk s.mgmt)
    (ht : execHostRead fn bar off slot n wire s = .next t) : MgmtOk t.mgmt := by
  refine mgmtOk_of_hostStep h ?_ ht
  refine mgmtOk_ite h (mgmtOk_ite h ?_)
  split
  · exact h
  · split <;> exact h

/-- A command that leaves the ranges alone when it acts leaves them alone. -/
theorem ranges_of_command {s t : State} {code : Nat} {f : State → Except Nat State}
    (hf : ∀ u v, f u = .ok v → ranges v.mgmt = ranges u.mgmt) (ht : command s code f = .next t) :
    ranges t.mgmt = ranges s.mgmt := by
  unfold command hostStep at ht
  cases ht
  split
  · dsimp only
    split
    · rfl
    · split
      next v hv => exact (ranges_endCommand _ _ _).trans ((hf _ _ hv).trans (ranges_withCode _ _))
      · exact (ranges_endCommand _ _ _).trans (ranges_withCode _ _)
  · rfl

theorem ranges_of_devCommand {s t : State} {code : Nat} {checks : Dev → List (Bool × Nat)} {f : Dev → Dev}
    (ht : devCommand s code checks f = .next t) : ranges t.mgmt = ranges s.mgmt := by
  refine ranges_of_command (fun u v hv => ?_) ht
  split at hv
  · cases hv
  · cases hv
    rfl

theorem ranges_guarantee (s : State) (p : Point) : ranges (s.guarantee p).mgmt = ranges s.mgmt := by
  unfold State.guarantee
  split
  · exact ranges_vote _ _ _ _
  · exact ranges_vote _ _ _ _
  · exact ranges_vote _ _ _ _
  · exact ranges_vote _ _ _ _
  · rfl

theorem ranges_server {s t : State} {a : ServerArgs} (ht : execServer a s = .next t) : ranges t.mgmt = ranges s.mgmt := by
  refine ranges_of_command (fun u v hv => ?_) ht
  dsimp only at hv
  split_ifs at hv
  · cases hv
    rfl
  · cases hv
    exact ranges_guarantee _ _

theorem ranges_ctxcreate {s t : State} {a : CtxArgs} (ht : execCtxcreate a s = .next t) : ranges t.mgmt = ranges s.mgmt := by
  unfold execCtxcreate at ht
  split_ifs at ht
  · cases ht
    rfl
  · refine ranges_of_command (fun u v hv => ?_) ht
    dsimp only at hv
    split_ifs at hv
    split at hv
    · cases hv
    · cases hv
      rfl

theorem mgmtOk_retire {s t : State} {a : RetireArgs} (h : MgmtOk s.mgmt) (ht : execRetire a s = .next t) : MgmtOk t.mgmt := by
  refine mgmtOk_of_hostStep h ?_ ht
  dsimp only
  have hcode : MgmtOk (s.mgmt.withCode 10) := mgmtOk_of_ranges h (ranges_withCode _ _)
  split_ifs
  · exact h
  · exact mgmtOk_of_ranges hcode (ranges_endCommand _ _ _)
  · exact mgmtOk_of_ranges hcode rfl

theorem ranges_retireComplete {s t : State} {a : RetireArgs} (ht : execRetireComplete a s = .next t) :
    ranges t.mgmt = ranges s.mgmt := by
  unfold execRetireComplete at ht
  dsimp only at ht
  split_ifs at ht
  · cases ht
    rfl
  · split at ht
    · split_ifs at ht <;> cases ht <;> rfl
    · cases ht
      rfl

theorem ranges_of_flrStep {s t : State} {fn n : Nat} {f : Dev → Dev} (ht : flrStep s fn n f = .next t) :
    ranges t.mgmt = ranges s.mgmt :=
  (onDev_cases _ _ _ ht).symm ▸ rfl

theorem ranges_of_tdispMessage {s t : State} {fn : Nat} {name : String} {ok : Tdisp → Bool} {f : Dev → Fn → Fn}
    {data : Dev → List (List Nat)} (ht : tdispMessage s fn name ok f data = .next t) : ranges t.mgmt = ranges s.mgmt :=
  ranges_of_hostDev ht

theorem ranges_lockInterface {s t : State} {fn : Nat} (ht : execLockInterface fn s = .next t) :
    ranges t.mgmt = ranges s.mgmt := by
  cases ht
  split <;> rfl

theorem ranges_of_spdmRequest {s t : State} {die : Nat} {name : String} {ok : Spdm → Bool} {f : Spdm → Spdm}
    {data : Spdm → List (List Nat)} (ht : spdmRequest s die name ok f data = .next t) : ranges t.mgmt = ranges s.mgmt := by
  unfold spdmRequest hostStep at ht
  cases ht
  dsimp only
  split_ifs <;> rfl

/-! ### Every step -/

theorem mgmtOk_homeLoad {s t : State} {op lane lease : Nat} {useL1 : Bool} (h : MgmtOk s.mgmt)
    (ht : execHomeLoad op lane lease useL1 s = .next t) : MgmtOk t.mgmt := by
  unfold execHomeLoad at ht
  split at ht
  · cases ht
    exact h
  · split_ifs at ht
    · cases ht
      refine { h with seccnt := ?_ }
      dsimp only
      split
      · exact Nat.mod_lt _ (by decide)
      · exact h.seccnt
    · cases ht
      exact h

theorem mgmtOk_llcEvict {s t : State} {x : Eviction} (h : MgmtOk s.mgmt) (ht : execLlcEvict x s = .next t) : MgmtOk t.mgmt := by
  unfold execLlcEvict at ht
  generalize x.error = e at ht
  cases e with
  | corrected =>
    cases ht
    exact { h with seccnt := Nat.mod_lt _ (by decide) }
  | llcTag line =>
    cases ht
    exact mgmtOk_ite' (mgmtOk_of_ranges h rfl) h
  | _ => cases ht; exact h

theorem ranges_partset {s t : State} {a : PartArgs} (ht : execPartset a s = .next t) : ranges t.mgmt = ranges s.mgmt := by
  unfold execPartset at ht
  split at ht
  · exact ranges_of_devCommand ht
  · exact ranges_of_devCommand ht
  · exact ranges_of_devCommand ht

theorem ranges_unknownCommand {s t : State} {code : Nat} (ht : execUnknownCommand code s = .next t) :
    ranges t.mgmt = ranges s.mgmt := by
  unfold execUnknownCommand at ht
  split_ifs at ht
  · cases ht
    rfl
  · refine ranges_of_command ?_ ht
    intro _ _ hv
    cases hv

theorem mgmtOk_powerControlTick {s t : State} {watts : Nat} (h : MgmtOk s.mgmt)
    (ht : execPowerControlTick watts s = .next t) : MgmtOk t.mgmt := by
  unfold execPowerControlTick at ht
  dsimp only at ht
  split at ht
  · cases ht
    exact h
  · cases ht
    exact mgmtOk_ite (mgmtOk_powerAction (mgmtOk_of_ranges h rfl))
      (mgmtOk_ite (mgmtOk_powerUndo (mgmtOk_of_ranges h rfl)) (mgmtOk_of_ranges h rfl))

theorem mgmtOk_currentEmergency {s t : State} {rail : Nat} (h : MgmtOk s.mgmt)
    (ht : execCurrentEmergency rail s = .next t) : MgmtOk t.mgmt := by
  unfold execCurrentEmergency at ht
  split at ht
  · cases ht
    exact h
  · cases ht
    exact { h with emerg := Nat.mod_lt _ (by decide) }

theorem ranges_retentionEnter {s t : State} {core : Nat} (ht : execRetentionEnter core s = .next t) :
    ranges t.mgmt = ranges s.mgmt := by
  unfold execRetentionEnter at ht
  split_ifs at ht <;> cases ht <;> rfl

theorem ranges_coreColdResetDone {s t : State} {core : Nat} (ht : execCoreColdResetDone core s = .next t) :
    ranges t.mgmt = ranges s.mgmt := by
  unfold execCoreColdResetDone at ht
  dsimp only at ht
  split_ifs at ht
  · cases ht
    rfl
  · cases ht
    exact ranges_wakeIsland _ _ _

theorem mgmtOk_ideKeyManagement {s t : State} {m : IdeKm} (h : MgmtOk s.mgmt) (ht : execIdeKeyManagement m s = .next t) :
    MgmtOk t.mgmt := by
  refine mgmtOk_of_hostStep h ?_ ht
  dsimp only
  split
  · exact mgmtOk_ite h (mgmtOk_of_ranges h rfl)
  · exact mgmtOk_of_ranges h rfl

/-- An instruction that the selected gang issues leaves the management registers. -/
theorem mgmt_issue {s t : State} {f : Issue → Dev → Dev} (h : issue s f = .next t) : t.mgmt = s.mgmt :=
  (issue_mgmt s t f h).1

theorem mgmt_scalarOp {s t : State} {d : SReg} {f : Strand → Word} (h : scalarOp s d f = .next t) : t.mgmt = s.mgmt :=
  mgmt_issue h

theorem mgmt_scalar2 {s t : State} {d a b : SReg} {f : Word → Word → Word} (h : scalar2 s d a b f = .next t) :
    t.mgmt = s.mgmt :=
  mgmt_scalarOp h

theorem mgmt_guarded {s t : State} {c : Issue → Dev → Option Nat} {f : Issue → Dev → Dev}
    (h : guarded s c f = .next t) : t.mgmt = s.mgmt :=
  mgmt_issue h

theorem mgmt_andNext {s t : State} {n : Nat} {f : Issue → Dev → Dev} (h : andNext s n f = .next t) : t.mgmt = s.mgmt :=
  mgmt_issue h

theorem mgmt_laneInstr {s t : State} {n : Nat} {l : List Nat} {g : Guard} {f : LaneView → Wave → Wave}
    (h : laneInstr s n l g f = .next t) : t.mgmt = s.mgmt :=
  mgmt_issue h

theorem mgmt_lane1 {s t : State} {g : Guard} {d a : VReg} {f : Lane → Lane} (h : lane1 s g d a f = .next t) :
    t.mgmt = s.mgmt :=
  mgmt_laneInstr h

theorem mgmt_lane2 {s t : State} {g : Guard} {d a b : VReg} {f : Lane → Lane → Lane}
    (h : lane2 s g d a b f = .next t) : t.mgmt = s.mgmt :=
  mgmt_laneInstr h

theorem mgmt_lane3 {s t : State} {g : Guard} {d a b c : VReg} {f : Lane → Lane → Lane → Lane}
    (h : lane3 s g d a b c f = .next t) : t.mgmt = s.mgmt :=
  mgmt_laneInstr h

theorem mgmt_laneImm {s t : State} {g : Guard} {d a : VReg} {f : Lane → Lane} (h : laneImm s g d a f = .next t) :
    t.mgmt = s.mgmt :=
  mgmt_laneInstr h

theorem mgmt_laneCmp {s t : State} {n : Nat} {l : List Nat} {g : Guard} {d : MReg} {p : LaneView → Nat → Bool}
    (h : laneCmp s n l g d p = .next t) : t.mgmt = s.mgmt :=
  mgmt_laneInstr h

theorem mgmt_crossLane {s t : State} {l : List Nat} {g : Guard} {d : VReg} {f : LaneView → Nat → Lane}
    (h : crossLane s l g d f = .next t) : t.mgmt = s.mgmt :=
  mgmt_laneInstr h

theorem mgmt_maskOp {s t : State} {d : MReg} {f : Wave → LaneMask} (h : maskOp s d f = .next t) : t.mgmt = s.mgmt :=
  mgmt_andNext h

theorem mgmt_maskToScalar {s t : State} {d : SReg} {a : MReg} {f : LaneMask → Word}
    (h : maskToScalar s d a f = .next t) : t.mgmt = s.mgmt :=
  mgmt_andNext h

theorem mgmt_branch {s t : State} {n : Nat} {o : BitVec n} {p : Issue → Nat → Bool} (h : branch s o p = .next t) :
    t.mgmt = s.mgmt :=
  mgmt_issue h

theorem mgmt_maskBranch {s t : State} {m : MReg} {o : BitVec 20} {p : BitVec 4 → BitVec 4 → Bool}
    (h : maskBranch s m o p = .next t) : t.mgmt = s.mgmt :=
  mgmt_branch h

theorem mgmt_scalarLoad {s t : State} {n : Nat} {r a : SReg} {i : BitVec 12} (h : scalarLoad s n r a i = .next t) :
    t.mgmt = s.mgmt :=
  mgmt_issue h

theorem mgmt_scalarStore {s t : State} {n : Nat} {r a : SReg} {i : BitVec 12} (h : scalarStore s n r a i = .next t) :
    t.mgmt = s.mgmt :=
  mgmt_issue h

theorem mgmt_tagWait {s t : State} {all : Bool} {a : SReg} (h : tagWait s all a = .next t) : t.mgmt = s.mgmt :=
  mgmt_guarded h

theorem mgmt_byteBarUpdate {s t : State} {d a : SReg} {i : BitVec 12} {f : Nat → Word → List Byte → List Byte}
    (h : byteBarUpdate s d a i f = .next t) : t.mgmt = s.mgmt :=
  mgmt_guarded h

theorem mgmt_laneOp {s t : State} {l : List Nat} {g : Guard} {p q r : Bool} {n : Nat} {pl : Dev → Issue → LaneMask → LanePlaces}
    {k : MemKind} {f : Dev → Issue → Nat → List Byte} (h : laneOp s l g p q pl n k f r = .next t) : t.mgmt = s.mgmt :=
  mgmt_issue h

theorem mgmt_bufLoad {s t : State} {sp : Space} {g : Guard} {d : VReg} {m : Addr} (h : bufLoad s sp g d m = .next t) :
    t.mgmt = s.mgmt :=
  mgmt_issue h

theorem mgmt_bufStore {s t : State} {sp : Space} {g : Guard} {d : VReg} {m : Addr}
    (h : bufStore s sp g d m = .next t) : t.mgmt = s.mgmt :=
  mgmt_issue h

theorem mgmt_compress {s t : State} {b : Bool} {g : Guard} {d : VReg} {r : SReg} {o : BitVec 23}
    (h : compress s b g d r o = .next t) : t.mgmt = s.mgmt :=
  mgmt_issue h

theorem mgmt_copyIssue {s t : State} {form : CopyForm} {o : CopyOps} (h : copyIssue s form o = .next t) :
    t.mgmt = s.mgmt :=
  mgmt_issue h

theorem mgmt_resolve {s t : State} {r : SReg} {p : FaultEntry → Option Copy → Bool} {f : Issue → Dev → FaultEntry → Job → Copy → Dev}
    (h : resolve s r p f = .next t) : t.mgmt = s.mgmt :=
  mgmt_issue h

theorem mgmt_tmmaIssue {s t : State} {form : TmmaForm} {v : VReg} {sd sa sb sc : SReg}
    (h : tmmaIssue s form v sd sa sb sc = .next t) : t.mgmt = s.mgmt :=
  mgmt_issue h

theorem mgmt_selectIssue {s t : State} {d a b : SReg} {fl : SelFlags} {p : Issue → Nat → Bool} {o : Issue → Nat → Nat}
    {op : Issue → Nat → Nat → Nat → FxOp} (h : selectIssue s d a b fl p o op = .next t) : t.mgmt = s.mgmt :=
  mgmt_issue h

theorem mgmtOk_pwrcapWrite {s t : State} {w : Nat} (h : MgmtOk s.mgmt) (ht : execPwrcapWrite w s = .next t) :
    MgmtOk t.mgmt := by
  refine mgmtOk_of_hostStep h ?_ ht
  exact mgmtOk_setCap w h

theorem mgmtOk_iwselRead {s t : State} {v : BitVec 64} (h : MgmtOk s.mgmt) (ht : execIwselRead v s = .next t) :
    MgmtOk t.mgmt := by
  refine mgmtOk_of_hostStep h ?_ ht
  exact mgmtOk_of_ranges h (ranges_readInternal s v.toNat)

theorem mgmtOk_retlogClear {s t : State} (h : MgmtOk s.mgmt) (ht : execRetlogClear s = .next t) : MgmtOk t.mgmt := by
  refine mgmtOk_of_hostStep h ?_ ht
  exact mgmtOk_of_ranges h rfl

theorem mgmtOk_registerWrite {s t : State} {fn off : Nat} {v : BitVec 64} (h : MgmtOk s.mgmt)
    (ht : execRegisterWrite fn off v s = .next t) : MgmtOk t.mgmt := by
  refine mgmtOk_of_hostStep h ?_ ht
  exact mgmtOk_ite h (mgmtOk_writeReg _ _ _ h)

theorem ranges_islandVote {s t : State} {island point : Nat} (ht : execIslandVote island point s = .next t) :
    ranges t.mgmt = ranges s.mgmt := by
  refine ranges_of_onMgmt ?_ ht
  exact ranges_ite rfl (ranges_vote _ _ _ _)

theorem ranges_clockStretchEnd {s t : State} {rail : Nat} (ht : execClockStretchEnd rail s = .next t) :
    ranges t.mgmt = ranges s.mgmt := by
  refine ranges_of_onMgmt ?_ ht
  exact ranges_ite rfl rfl

theorem mgmtOk_packageReset {s t : State} (ht : execPackageReset s = .next t) : MgmtOk t.mgmt := by
  cases ht
  exact mgmtOk_reset

theorem mgmt_redAtomic {s t : State} {op : RedOp} {g : Guard} {d : VReg} {m : Addr}
    (h : execRedAtomic op g d m s = .next t) : t.mgmt = s.mgmt := by
  unfold execRedAtomic at h
  exact mgmt_laneOp h

theorem mgmt_tcvt {s t : State} {f : TcvtForm} {b dest c : SReg} {sc : BitVec 8}
    (h : execTcvt f b dest c sc s = .next t) : t.mgmt = s.mgmt := by
  unfold execTcvt at h
  exact mgmt_guarded h

theorem ranges_window {s t : State} {fn w base len : Nat} (h : execWindow fn w base len s = .next t) :
    ranges t.mgmt = ranges s.mgmt := by
  unfold execWindow at h
  exact ranges_of_devCommand h

theorem ranges_release {s t : State} {p : PreTarget} (h : execRelease p s = .next t) : ranges t.mgmt = ranges s.mgmt := by
  unfold execRelease at h
  exact ranges_of_devCommand h

/-- The meaning of every instruction and step keeps the registers in range: an instruction and a step of the device do not
touch them; the others are the steps above, in the order of the opcode table. -/
theorem mgmtOk_exec {i : Instr} {s t : State} (h : MgmtOk s.mgmt) (ht : exec i s = .next t) : MgmtOk t.mgmt := by
  have hsame : ranges t.mgmt = ranges s.mgmt → MgmtOk t.mgmt := mgmtOk_of_ranges h
  unfold exec at ht
  split at ht
  case h_46 | h_52 | h_53 | h_54 | h_56 | h_80 | h_81 | h_85 | h_92 | h_93 | h_94 | h_95 | h_98 | h_209 | h_210 | h_211
    | h_226 | h_239 | h_241 | h_242 | h_246 | h_247 | h_248 | h_249 | h_250 | h_251 | h_252 | h_253 | h_254 =>
    exact mgmt_issue ht ▸ h
  case h_22 | h_24 | h_25 | h_26 | h_27 | h_28 | h_29 | h_36 | h_37 | h_38 | h_39 | h_40 | h_41 | h_42 | h_43 | h_44 =>
    exact mgmt_scalarOp ht ▸ h
  case h_1 | h_2 | h_3 | h_4 | h_5 | h_6 | h_7 | h_8 | h_9 | h_10 | h_11 | h_12 | h_13 | h_14 | h_15 | h_16 | h_17 |
    h_18 | h_19 | h_20 | h_21 | h_23 | h_30 | h_31 | h_32 | h_33 | h_34 | h_35 =>
    exact mgmt_scalar2 ht ▸ h
  case h_55 | h_57 | h_58 | h_61 | h_62 | h_84 | h_88 | h_89 | h_90 | h_230 | h_231 | h_232 | h_237 =>
    exact mgmt_guarded ht ▸ h
  case h_59 | h_60 | h_64 | h_91 | h_96 | h_97 | h_233 | h_240 =>
    exact mgmt_andNext ht ▸ h
  case h_126 | h_130 | h_131 | h_132 | h_217 =>
    exact mgmt_laneInstr ht ▸ h
  case h_105 | h_106 | h_115 | h_120 | h_121 | h_123 | h_124 | h_125 | h_141 | h_142 | h_144 | h_145 | h_146 | h_147 |
    h_148 | h_150 | h_151 | h_152 | h_153 | h_154 | h_155 | h_156 | h_160 | h_161 | h_162 | h_163 | h_164 | h_165 |
    h_166 | h_167 | h_168 | h_169 | h_170 | h_171 | h_172 | h_173 =>
    exact mgmt_lane1 ht ▸ h
  case h_99 | h_100 | h_101 | h_102 | h_103 | h_107 | h_108 | h_109 | h_110 | h_111 | h_112 | h_113 | h_114 | h_116 |
    h_117 | h_118 | h_119 | h_122 | h_133 | h_134 | h_135 | h_137 | h_138 | h_139 | h_140 | h_149 | h_157 | h_158 =>
    exact mgmt_lane2 ht ▸ h
  case h_104 | h_128 | h_129 | h_136 | h_159 =>
    exact mgmt_lane3 ht ▸ h
  case h_212 | h_213 | h_214 | h_215 | h_216 =>
    exact mgmt_laneImm ht ▸ h
  case h_127 | h_143 | h_178 | h_179 | h_218 =>
    exact mgmt_laneCmp ht ▸ h
  case h_174 | h_175 | h_176 | h_177 | h_180 | h_181 | h_182 | h_183 | h_184 | h_185 | h_186 | h_187 | h_188 | h_189 =>
    exact mgmt_crossLane ht ▸ h
  case h_65 | h_66 | h_67 | h_68 | h_69 =>
    exact mgmt_maskOp ht ▸ h
  case h_63 | h_70 | h_71 =>
    exact mgmt_maskToScalar ht ▸ h
  case h_45 | h_47 | h_48 =>
    exact mgmt_branch ht ▸ h
  case h_49 | h_50 | h_51 =>
    exact mgmt_maskBranch ht ▸ h
  case h_72 | h_73 | h_74 | h_75 =>
    exact mgmt_scalarLoad ht ▸ h
  case h_76 | h_77 | h_78 | h_79 =>
    exact mgmt_scalarStore ht ▸ h
  case h_82 | h_83 =>
    exact mgmt_tagWait ht ▸ h
  case h_86 | h_87 =>
    exact mgmt_byteBarUpdate ht ▸ h
  case h_190 | h_191 | h_192 | h_193 | h_194 | h_195 | h_196 | h_197 | h_204 | h_205 =>
    exact mgmt_laneOp ht ▸ h
  case h_198 | h_200 | h_202 =>
    exact mgmt_bufLoad ht ▸ h
  case h_199 | h_201 | h_203 =>
    exact mgmt_bufStore ht ▸ h
  case h_207 | h_208 =>
    exact mgmt_compress ht ▸ h
  case h_219 | h_220 | h_221 | h_222 | h_223 | h_224 | h_225 =>
    exact mgmt_copyIssue ht ▸ h
  case h_227 | h_228 | h_229 =>
    exact mgmt_resolve ht ▸ h
  case h_234 | h_235 | h_236 =>
    exact mgmt_tmmaIssue ht ▸ h
  case h_243 | h_244 | h_245 =>
    exact mgmt_selectIssue ht ▸ h
  case h_255 | h_256 | h_257 | h_258 | h_259 | h_261 | h_263 | h_264 | h_265 | h_266 | h_267 | h_268 | h_269 | h_270 |
    h_271 | h_272 | h_273 | h_274 | h_275 | h_276 | h_277 | h_278 | h_279 | h_280 | h_281 | h_282 | h_283 | h_284 |
    h_285 | h_286 | h_287 | h_288 | h_289 | h_290 | h_291 | h_292 | h_293 | h_294 | h_295 | h_296 | h_297 | h_298 |
    h_299 | h_300 | h_301 | h_302 | h_303 | h_304 | h_305 | h_306 | h_307 | h_308 | h_309 | h_310 | h_313 | h_314 |
    h_316 | h_339 | h_372 =>
    exact onDev_cases _ _ _ ht ▸ h
  case h_206 => exact mgmt_redAtomic ht ▸ h
  case h_238 => exact mgmt_tcvt ht ▸ h
  · exact mgmtOk_homeLoad h ht
  · exact mgmtOk_llcEvict h ht
  · exact mgmtOk_hostWrite h ht
  · exact mgmtOk_hostRead h ht
  · exact hsame (ranges_of_hostDev ht)
  · exact hsame (ranges_ctxcreate ht)
  · exact hsame (ranges_of_devCommand ht)
  · exact hsame (ranges_server ht)
  · exact hsame (ranges_window ht)
  · exact hsame (ranges_of_devCommand ht)
  · exact hsame (ranges_of_devCommand ht)
  · exact hsame (ranges_release ht)
  · exact hsame (ranges_of_devCommand ht)
  · exact hsame (ranges_partset ht)
  · exact mgmtOk_retire h ht
  · exact hsame (ranges_retireComplete ht)
  · exact hsame (ranges_of_devCommand ht)
  · exact hsame (ranges_unknownCommand ht)
  · exact hsame (ranges_of_hostDev ht)
  · exact mgmtOk_pwrcapWrite h ht
  · exact mgmtOk_iwselRead h ht
  · exact mgmtOk_retlogClear h ht
  · exact mgmtOk_registerWrite h ht
  · exact hsame (ranges_of_hostDev ht)
  · exact hsame (ranges_of_flrStep ht)
  · exact hsame (ranges_of_flrStep ht)
  · exact hsame (ranges_of_flrStep ht)
  · exact hsame (ranges_lockInterface ht)
  · exact hsame (ranges_of_tdispMessage ht)
  · exact hsame (ranges_of_tdispMessage ht)
  · exact hsame (ranges_of_tdispMessage ht)
  · exact hsame (ranges_of_tdispMessage ht)
  · exact hsame (ranges_of_spdmRequest ht)
  · exact hsame (ranges_of_spdmRequest ht)
  · exact hsame (ranges_of_spdmRequest ht)
  · exact hsame (ranges_of_spdmRequest ht)
  · exact hsame (ranges_of_spdmRequest ht)
  · exact hsame (ranges_of_spdmRequest ht)
  · exact hsame (ranges_of_spdmRequest ht)
  · exact hsame (ranges_of_spdmRequest ht)
  · exact hsame (ranges_of_spdmRequest ht)
  · exact hsame (ranges_of_spdmRequest ht)
  · exact hsame (ranges_of_spdmRequest ht)
  · exact hsame (ranges_of_spdmRequest ht)
  · exact mgmtOk_powerControlTick h ht
  · exact hsame (ranges_islandVote ht)
  · exact hsame (ranges_frequencyChangeDone ht)
  · exact hsame (ranges_railHoldoffExpire ht)
  · exact hsame (ranges_railStep ht)
  · exact hsame (ranges_islandRiseStep ht)
  · exact mgmtOk_currentEmergency h ht
  · exact hsame (ranges_clockStretchEnd ht)
  · exact mgmtOk_thermalLevel h ht
  · exact mgmtOk_migrationClose h ht
  · exact hsame (ranges_retentionEnter ht)
  · exact hsame (ranges_retentionExit ht)
  · exact mgmtOk_packageReset ht
  · exact mgmtOk_bringupPhase h ht
  · exact mgmtOk_ideKeyManagement h ht
  · exact hsame (ranges_coreColdResetDone ht)

theorem mgmtOk_ownChoice {s t : State} (h : MgmtOk s.mgmt) (ht : ownChoice s = .next t) : MgmtOk t.mgmt := by
  unfold ownChoice at ht
  split at ht
  · exact mgmtOk_exec h ht
  · cases ht
    exact h

theorem mgmtOk_scheduled {s t : State} {x : Sched} (h : MgmtOk s.mgmt) (ht : scheduled s x = .next t) : MgmtOk t.mgmt := by
  unfold scheduled at ht
  dsimp only at ht
  split at ht
  · refine mgmtOk_ownChoice ?_ ht
    exact h
  · split_ifs at ht
    · cases ht
      exact h
    · refine mgmtOk_exec ?_ ht
      exact h

theorem mgmtOk_issueNext {s t : State} (h : MgmtOk s.mgmt) (ht : issueNext s = .next t) : MgmtOk t.mgmt := by
  unfold issueNext at ht
  dsimp only at ht
  split at ht
  · cases ht
    exact h
  split at ht
  · cases ht
    exact h
  · cases ht
    exact h
  split at ht
  · split_ifs at ht
    · cases ht
      exact h
    · cases ht
      exact h
    · refine mgmtOk_exec ?_ ht
      exact h
  · refine mgmtOk_exec ?_ ht
    exact h

/-- Settles O59: the meanings keep the registers in range, and what a step leaves noted is on the device. -/
theorem stepKeepsManagementRegisters : Obligations.StepKeepsManagementRegisters := by
  unfold Obligations.StepKeepsManagementRegisters
  intro s t h ht
  unfold step settled at ht
  split at ht
  next u hu =>
    cases ht
    show MgmtOk u.mgmt
    split at hu
    · exact mgmtOk_issueNext h hu
    · split at hu
      · refine mgmtOk_scheduled ?_ hu
        exact h
      · exact mgmtOk_ownChoice h hu
  next hne => exact absurd ht (hne t)

end Sys2Proof.Proofs
end

section
/-!
PROOFS. Control transfer, waits, special registers, exceptions and the class E controls (04: R111 to R121, R140 to R145; 11:
R304 to R309).
-/

open Sys2Proof Sys2Proof.Machine Sys2Proof.Claims

namespace Sys2Proof.Proofs

/-! ## Bits of masks and of strand masks -/

theorem inGang_lt {g : StrandMask} {t : Nat} (h : inGang g t = true) : t < 8 := by
  by_contra hn
  rw [inGang, BitVec.getLsbD_of_ge g t (by omega)] at h
  cases h

theorem mem_strands_iff {k : Issue} {t : Nat} : t ∈ k.strands ↔ inGang k.gang t = true := by
  rw [Issue.strands, List.mem_filter, List.mem_range]
  exact ⟨And.right, fun h => ⟨inGang_lt h, h⟩⟩

/-- A strand mask built by adding, one after the other, the strands of a list that `p` holds of. -/
theorem inGang_foldl_or_iff (p : Nat → Prop) [DecidablePred p] (l : List Nat) (g : StrandMask) (hl : ∀ t ∈ l, t < 8) (u : Nat) :
    inGang (l.foldl (fun m t => if p t then m ||| (1#8 <<< t) else m) g) u = true ↔ inGang g u = true ∨ u ∈ l ∧ p u := by
  induction l generalizing g with
  | nil => simp
  | cons t l ih =>
    have ht : t < 8 := hl t List.mem_cons_self
    rw [List.foldl_cons, ih _ fun x hx => hl x (List.mem_cons_of_mem _ hx)]
    have hbit : inGang (1#8 <<< t) u = decide (u = t) := by
      rw [inGang, BitVec.getLsbD_shiftLeft, BitVec.getLsbD_one]
      grind
    have hor : inGang (g ||| (1#8 <<< t)) u = (inGang g u || decide (u = t)) := by
      rw [← hbit]
      exact BitVec.getLsbD_or
    by_cases hp : p t
    · rw [if_pos hp, hor]
      grind
    · rw [if_neg hp]
      grind

theorem bitVec_ne_zero_iff {w : Nat} {x : BitVec w} : x ≠ 0 ↔ ∃ l < w, x.getLsbD l = true := by
  constructor
  · intro h
    by_contra hn
    push Not at hn
    refine h (BitVec.eq_of_getLsbD_eq fun l hl => ?_)
    rw [Bool.eq_false_iff.mpr (hn l hl)]
    simp
  · rintro ⟨l, -, hb⟩ rfl
    simp at hb

theorem getLsbD_strandBits (k : Issue) (c : MReg) (t : Nat) {l : Nat} (hl : l < 4) :
    (strandBits (k.wave.mask c) t).getLsbD l = maskBit k c t l := by
  rw [strandBits, BitVec.getLsbD_extractLsb', maskBit]
  simp [hl]

/-! ## Control transfer (R111 to R114) -/

theorem stays_eq_stall (s : State) (k : Issue) (what : WaitFor) :
    ({ s with dev := Dev.stall { s.dev with latch := none } k what } : State) = stays s k what :=
  onGang_eq s k _

/-- A transfer does what `Transfers` says. -/
theorem transfers_of_transfer {s : State} {k : Issue} {i : Instr} (target : Nat → Option Int) (link : Bool)
    (hi : exec i s = .next (after s fun d => d.transfer k target link)) : Transfers s k i target link := by
  constructor
  · rintro ⟨t, -, ht, hbad⟩
    rw [hi]
    refine congrArg (fun f => Host.Outcome.next (after s f)) (funext fun d => if_pos ?_)
    exact List.any_eq_true.mpr ⟨t, mem_strands_iff.mpr ht, decide_eq_true hbad⟩
  · intro hok
    refine ⟨fun t => k.strands.foldl (fun m u => if nextPc k (target u) = nextPc k (target t) then m ||| (1#8 <<< u) else m) 0,
      fun t u => ?_, ?_⟩
    · rw [inGang_foldl_or_iff _ _ _ fun x hx => inGang_lt (mem_strands_iff.mp hx), mem_strands_iff]
      simp [inGang]
    · rw [hi, ← onGang_eq]
      refine congrArg (fun x => Host.Outcome.next { s with dev := x }) ?_
      have hnone : ¬ (k.strands.any fun t => decide ((target t).getD (k.pc.toNat + 4) < 0 ∨
          (2 : Int) ^ 56 ≤ (target t).getD (k.pc.toNat + 4))) = true := by
        rw [List.any_eq_true]
        rintro ⟨t, ht, hbad⟩
        obtain ⟨hlow, hhigh⟩ := hok t (mem_strands_iff.mp ht)
        simp only [nextAddr] at hlow hhigh
        have := of_decide_eq_true hbad
        omega
      refine (if_neg hnone).trans ?_
      cases link <;> rfl

/-- A relative branch does what `Transfers` says, its condition said in other words. -/
theorem transfers_of_branch {n : Nat} {s : State} {k : Issue} {i : Instr} {o : BitVec n} {taken : Issue → Nat → Bool}
    {p : Nat → Prop} [DecidablePred p] (hk : s.dev.issuer? = some k) (hp : ∀ t, taken k t = true ↔ p t)
    (hi : exec i s = branch s o taken) :
    Transfers s k i (fun t => if p t then some (k.pc.toNat + o.toInt) else none) false := by
  refine transfers_of_transfer _ false ?_
  rw [hi, branch, issue_next s k _ hk]
  simp only [hp]
  rfl

theorem transfers_of_maskBranch {s : State} {k : Issue} {i : Instr} {o : BitVec 20} {c : MReg} {q : BitVec 4 → BitVec 4 → Bool}
    {p : Nat → Prop} [DecidablePred p] (hk : s.dev.issuer? = some k)
    (hp : ∀ t, q (strandBits (k.wave.mask c) t &&& strandBits (k.wave.mask 0) t) (strandBits (k.wave.mask 0) t) = true ↔ p t)
    (hi : exec i s = maskBranch s c o q) :
    Transfers s k i (fun t => if p t then some (k.pc.toNat + o.toInt) else none) false :=
  transfers_of_branch hk hp hi

theorem anySet_iff (k : Issue) (c : MReg) (t : Nat) :
    anySet (strandBits (k.wave.mask c) t &&& strandBits (k.wave.mask 0) t) (strandBits (k.wave.mask 0) t) = true ↔
      ∃ l < 4, maskBit k c t l = true ∧ maskBit k 0 t l = true := by
  rw [anySet, bne_iff_ne, bitVec_ne_zero_iff]
  refine exists_congr fun l => and_congr_right fun hl => ?_
  rw [BitVec.getLsbD_and, getLsbD_strandBits k c t hl, getLsbD_strandBits k 0 t hl, Bool.and_eq_true]

theorem allSet_iff (k : Issue) (c : MReg) (t : Nat) :
    allSet (strandBits (k.wave.mask c) t &&& strandBits (k.wave.mask 0) t) (strandBits (k.wave.mask 0) t) = true ↔
      ∀ l < 4, maskBit k 0 t l = true → maskBit k c t l = true := by
  rw [allSet, beq_iff_eq, BitVec.eq_of_getLsbD_eq_iff]
  refine forall_congr' fun l => imp_congr_right fun hl => ?_
  rw [BitVec.getLsbD_and, getLsbD_strandBits k c t hl, getLsbD_strandBits k 0 t hl]
  cases maskBit k c t l <;> cases maskBit k 0 t l <;> simp

theorem noneSet_iff (k : Issue) (c : MReg) (t : Nat) :
    noneSet (strandBits (k.wave.mask c) t &&& strandBits (k.wave.mask 0) t) (strandBits (k.wave.mask 0) t) = true ↔
      ∀ l < 4, ¬ (maskBit k c t l = true ∧ maskBit k 0 t l = true) := by
  have h := not_congr (anySet_iff k c t)
  rw [anySet, bne_iff_ne, not_not] at h
  rw [noneSet, beq_iff_eq, h]
  push Not
  rfl

theorem reservedA_formJ0 : ReservedA [0x38, 0x39] fun f => f.cond ≠ 0 := by
  intro f hop hbad
  have hform : ∃ i, decodeA f = f.formJ0 i := by
    simp only [List.mem_cons, List.not_mem_nil, or_false] at hop
    unfold decodeA
    rcases hop with h | h <;> rw [h] <;> exact ⟨_, rfl⟩
  obtain ⟨i, hi⟩ := hform
  rw [hi, WordA.formJ0, if_neg hbad]

theorem reservedA_jr : ReservedA [0x3F] fun f => f.d ≠ 0 ∨ f.b ≠ 0 ∨ f.c ≠ 0 := by
  intro f hop hbad
  have hform : decodeA f = f.formA .jr := by
    unfold decodeA
    rw [List.mem_singleton.mp hop]
    rfl
  rw [hform, WordA.formA, if_neg (by tauto)]

theorem reservedA_ret : ReservedA [0x40] fun f => f.d ≠ 0 ∨ f.a ≠ 0 ∨ f.b ≠ 0 ∨ f.c ≠ 0 := by
  intro f hop hbad
  have hform : decodeA f = f.formZ .ret := by
    unfold decodeA
    rw [List.mem_singleton.mp hop]
    rfl
  rw [hform, WordA.formZ, if_neg (by tauto)]

/-- Settles O4: every branch is a transfer, whose condition on masks is read bit by bit. -/
theorem branches : Obligations.Branches := by
  unfold Obligations.Branches
  intro s k hk
  refine ⟨fun o => ?_, fun o => ?_, fun d o => ?_, fun d o => ?_, fun c o => ?_, fun c o => ?_, fun c o => ?_, fun a => ?_, ?_,
    fun d c o p => opsA_of_map rfl, reservedA_formJ0, reservedA_jr, reservedA_ret⟩
  · exact transfers_of_transfer _ _ (issue_next s k (fun k d => d.transfer k (fun _ => some (k.rel o)) false) hk)
  · exact transfers_of_transfer _ _ (issue_next s k (fun k d => d.transfer k (fun _ => some (k.rel o)) true) hk)
  · exact transfers_of_branch (taken := fun k t => (k.strand t).rd d == 0) hk (fun t => beq_iff_eq) rfl
  · exact transfers_of_branch (taken := fun k t => (k.strand t).rd d != 0) hk (fun t => bne_iff_ne) rfl
  · exact transfers_of_maskBranch hk (anySet_iff k c) rfl
  · exact transfers_of_maskBranch hk (allSet_iff k c) rfl
  · exact transfers_of_maskBranch hk (noneSet_iff k c) rfl
  · exact transfers_of_transfer _ _ (issue_next s k (fun k d => d.transfer k (fun t => some (((k.strand t).rd a).toNat % 2 ^ 56)) false) hk)
  · exact transfers_of_transfer _ _ (issue_next s k (fun k d => d.transfer k (fun t => some (((k.strand t).rd 63).toNat % 2 ^ 56)) false) hk)

/-! ## wait (R115) -/

/-- What a `wait` that names the job counters `p`, `q` and `r` not adopts of the others (R115). -/
def adoptDone (p q r : Prop) [Decidable p] [Decidable q] [Decidable r] (w : Wave) : Wave :=
  { w with lts := max (max (max w.lts (if p then 0 else w.doneCp)) (if q then 0 else w.doneTl)) (if r then 0 else w.doneFx) }

theorem adopt_eq_adoptDone (w : Wave) (p q r : Prop) [Decidable p] [Decidable q] [Decidable r] :
    (let w := if p then w else w.adopt w.doneCp
     let w := if q then w else w.adopt w.doneTl
     if r then w else w.adopt w.doneFx) = adoptDone p q r w := by
  simp only [adoptDone]
  split_ifs <;> simp [Wave.adopt]

/-- Settles O7: the condition is `waitOver`'s, and the wave's change is the three adoptions. -/
theorem waitOnCounters : Obligations.WaitOnCounters := by
  unfold Obligations.WaitOnCounters
  intro s k ld st cp tl fx hk met
  have hexec : exec (.wait ld st cp tl fx) s = execWait ld st cp tl fx s := rfl
  rw [hexec, execWait, issue_next s k _ hk]
  have hover : Dev.waitOver { s.dev with latch := none } k.wave k.block
      (.counters ld.toNat st.toNat cp.toNat tl.toNat fx.toNat) = decide met := rfl
  simp only [hover, decide_eq_true_eq]
  constructor
  · intro hmet
    rw [if_pos hmet]
    simp only [adopt_eq_adoptDone]
    exact congrArg Host.Outcome.next (onWave_advance_eq s k (adoptDone (cp = 31) (tl = 15) (fx = 7)) (fun _ => rfl) 4)
  · intro hmet
    rw [if_neg hmet]
    exact congrArg Host.Outcome.next (stays_eq_stall s k _)

/-! ## Special registers (R15, R116 to R118) -/

theorem sget_trap {s : State} {k : Issue} {d : SReg} {n : BitVec 12} (hk : s.dev.issuer? = some k) (hn : 17 < n.toNat) :
    exec (.sget d n) s = .next (after s fun x => x.trap k cIllegal) := by
  have hexec : exec (.sget d n) s = execSget d n s := rfl
  rw [hexec, execSget, guarded_trap s k _ _ cIllegal hk (if_pos hn)]
  rfl

theorem sset_trap {s : State} {k : Issue} {a : SReg} {n : BitVec 12} (hk : s.dev.issuer? = some k) (hn : 17 < n.toNat) :
    exec (.sset a n) s = .next (after s fun x => x.trap k cIllegal) := by
  have hexec : exec (.sset a n) s = execSset a n s := rfl
  rw [hexec, execSset, guarded_trap s k _ _ cIllegal hk (if_pos hn)]
  rfl

theorem setScalars_advance_eq_wroteScalar (s : State) (k : Issue) (d : SReg) (v : Nat → Word) :
    ({ s with dev := (Dev.setScalars { s.dev with latch := none } k d v).advance k 4 } : State) = wroteScalar s k 4 d v := by
  rw [setScalars_advance]
  refine (onGang_eq s k _).trans (congrArg (gangStep s k) ?_)
  funext t x
  rw [Strand.wr]
  by_cases hd : d = 0
  · simp only [hd, if_true, passed]
  · simp only [hd, if_false, passed]

/-- What `sget` reads of a special register, in each strand. -/
def readSpecial (s : State) (k : Issue) (n : Nat) (t : Nat) : Word :=
  (Dev.special { s.dev with latch := none } k t n).getD 0

theorem sget_reads {s : State} {k : Issue} {d : SReg} {n : BitVec 12} (hk : s.dev.issuer? = some k) (hn : n.toNat ≤ 17)
    (hset : n.toNat = 15 → s.dev.settled k = true) :
    exec (.sget d n) s = .next (wroteScalar s k 4 d (readSpecial s k n.toNat)) := by
  have hexec : exec (.sget d n) s = execSget d n s := rfl
  rw [hexec, execSget, guarded_next s k _ _ hk (if_neg (by omega)), ← setScalars_advance_eq_wroteScalar]
  refine congrArg (fun x => Host.Outcome.next { s with dev := x }) ?_
  by_cases h15 : n = 15
  · subst h15
    exact (if_pos rfl).trans (if_pos (hset rfl))
  · exact if_neg h15

/-- The device after `sset` has written, before the gang goes on. -/
def ssetDev (s : State) (k : Issue) (a : SReg) (n : BitVec 12) : Dev :=
  let d : Dev := { s.dev with latch := none }
  if n = 8 then d.onWave k fun w => { w with tvec := low56 (k.rd a) }
  else if n = 9 then d.onGang k fun _ x => { x with epc := low56 (x.rd a) }
  else if n = 16 then d.onWave k fun w => { w with gsave := k.rd a }
  else d

theorem sset_writes {s : State} {k : Issue} {a : SReg} {n : BitVec 12} (hk : s.dev.issuer? = some k) (hn : n.toNat ≤ 17) :
    exec (.sset a n) s = .next { s with dev := (ssetDev s k a n).advance k 4 } := by
  have hexec : exec (.sset a n) s = execSset a n s := rfl
  rw [hexec, execSset, guarded_next s k _ _ hk (if_neg (by omega))]
  rfl

theorem sset_tvec {s : State} {k : Issue} {a : SReg} (hk : s.dev.issuer? = some k) :
    exec (.sset a 8) s = .next (waveStep s k fun w => { w with
      tvec := k.rd a &&& 0xFFFFFFFFFFFFFF
      strands := w.strands.mapIdx fun t x => if inGang k.gang t then passed 4 x else x }) :=
  (sset_writes hk (by decide)).trans (congrArg Host.Outcome.next
    (onWave_advance_eq s k (fun w => { w with tvec := low56 (k.rd a) }) (fun _ => rfl) 4))

theorem sset_gsave {s : State} {k : Issue} {a : SReg} (hk : s.dev.issuer? = some k) :
    exec (.sset a 16) s = .next (waveStep s k fun w => { w with
      gsave := k.rd a
      strands := w.strands.mapIdx fun t x => if inGang k.gang t then passed 4 x else x }) :=
  (sset_writes hk (by decide)).trans (congrArg Host.Outcome.next
    (onWave_advance_eq s k (fun w => { w with gsave := k.rd a }) (fun _ => rfl) 4))

theorem sset_epc {s : State} {k : Issue} {a : SReg} (hk : s.dev.issuer? = some k) :
    exec (.sset a 9) s = .next (gangStep s k fun _ x => passed 4 { x with epc := x.rd a &&& 0xFFFFFFFFFFFFFF }) := by
  rw [sset_writes hk (by decide), ← onGang_eq]
  exact congrArg (fun d => Host.Outcome.next { s with dev := d }) (onGang_onGang _ k _ _)

theorem sset_other {s : State} {k : Issue} {a : SReg} {n : BitVec 12} (hk : s.dev.issuer? = some k) (hn : n.toNat ≤ 17)
    (h8 : n ≠ 8) (h9 : n ≠ 9) (h16 : n ≠ 16) : exec (.sset a n) s = .next (gangStep s k fun _ x => passed 4 x) := by
  rw [sset_writes hk hn, ssetDev, if_neg h8, if_neg h9, if_neg h16]
  exact congrArg Host.Outcome.next (onGang_eq s k _)

theorem getLsbD_foldl_or {α : Type} {w : Nat} (f : α → BitVec w) (l : List α) (m : BitVec w) (b : Nat) :
    (l.foldl (fun m t => m ||| f t) m).getLsbD b = true ↔ m.getLsbD b = true ∨ ∃ t ∈ l, (f t).getLsbD b = true := by
  induction l generalizing m with
  | nil => simp
  | cons t l ih =>
    rw [List.foldl_cons, ih, BitVec.getLsbD_or, Bool.or_eq_true, List.exists_mem_cons_iff, or_assoc]

/-- The cause bits that exist are the low 26. -/
theorem getLsbD_causeBits (b : Nat) : (0x3FFFFFF : Word).getLsbD b = decide (b < 26) := by
  have h : (0x3FFFFFF : Word) = BitVec.ofNat 64 (2 ^ 26 - 1) := rfl
  rw [h, BitVec.getLsbD_ofNat, Nat.testBit_two_pow_sub_one]
  grind

/-- `cclr sA` on `%cause`: what any strand of the gang names is cleared. -/
def clearNamed (k : Issue) (a : SReg) (c : Word) : Word :=
  c &&& ~~~(k.strands.foldl (fun m t => m ||| (k.strand t).rd a) 0 &&& 0x3FFFFFF)

theorem getLsbD_clearNamed (k : Issue) (a : SReg) (c : Word) {b : Nat} (hb : b < 64) :
    (clearNamed k a c).getLsbD b = true ↔ c.getLsbD b = true ∧
      ¬ (b < 26 ∧ ∃ t, inGang k.gang t = true ∧ ((k.strand t).rd a).getLsbD b = true) := by
  have hbits := getLsbD_foldl_or (fun t => (k.strand t).rd a) k.strands 0 b
  have hzero : (0 : Word).getLsbD b = false := by simp
  simp only [hzero, Bool.false_eq_true, false_or, mem_strands_iff] at hbits
  rw [clearNamed, BitVec.getLsbD_and, BitVec.getLsbD_not, BitVec.getLsbD_and, getLsbD_causeBits, ← hbits]
  simp only [hb, decide_true, Bool.true_and, Bool.and_eq_true, Bool.not_eq_true', Bool.and_eq_false_iff,
    decide_eq_false_iff_not]
  grind

/-- `cclr #c` on `%cause`. -/
def clearBit (n : BitVec 6) (c : Word) : Word := if n.toNat < 26 then c &&& ~~~(1#64 <<< n.toNat) else c

theorem getLsbD_clearBit (n : BitVec 6) (c : Word) {b : Nat} (hb : b < 64) :
    (clearBit n c).getLsbD b = true ↔ c.getLsbD b = true ∧ ¬ (b = n.toNat ∧ b < 26) := by
  rw [clearBit]
  split
  · rw [BitVec.getLsbD_and, BitVec.getLsbD_not, BitVec.getLsbD_shiftLeft, BitVec.getLsbD_one]
    grind
  · grind

theorem cclrReg_clears (s : State) (k : Issue) (a : SReg) (hk : s.dev.issuer? = some k) :
    exec (.cclrReg a) s = .next (waveStep s k fun w => { w with
      cause := clearNamed k a w.cause
      strands := w.strands.mapIdx fun t x => if inGang k.gang t then passed 4 x else x }) := by
  refine (andNext_next s k 4 (fun k d => d.onWave k fun w => { w with cause := clearNamed k a w.cause }) hk).trans ?_
  exact congrArg Host.Outcome.next
    (onWave_advance_eq s k (fun w => { w with cause := clearNamed k a w.cause }) (fun _ => rfl) 4)

theorem cclrImm_clears (s : State) (k : Issue) (n : BitVec 6) (hk : s.dev.issuer? = some k) :
    exec (.cclrImm n) s = .next (waveStep s k fun w => { w with
      cause := clearBit n w.cause
      strands := w.strands.mapIdx fun t x => if inGang k.gang t then passed 4 x else x }) := by
  have hclear : (fun w : Wave => if n.toNat < 26 then { w with cause := w.cause &&& ~~~(1#64 <<< n.toNat) } else w) =
      fun w => { w with cause := clearBit n w.cause } := by
    funext w
    rw [clearBit]
    split <;> rfl
  have hexec : exec (.cclrImm n) s = execCclrImm n s := rfl
  rw [hexec, execCclrImm, hclear, andNext_next s k 4 _ hk]
  exact congrArg Host.Outcome.next
    (onWave_advance_eq s k (fun w => { w with cause := clearBit n w.cause }) (fun _ => rfl) 4)

/-- Settles O8: what each instruction does with each register number. -/
theorem specialRegisters : Obligations.SpecialRegisters := by
  unfold Obligations.SpecialRegisters
  refine ⟨fun s k n hk => ⟨fun d => ⟨sget_trap hk, fun hn hset => ⟨readSpecial s k n.toNat, sget_reads hk hn hset, ?_⟩⟩,
    fun a => ⟨sset_trap hk, ?_, ?_, ?_, sset_other hk⟩⟩,
    fun s k hk => ⟨fun a => ⟨clearNamed k a, fun c b hb => getLsbD_clearNamed k a c hb, cclrReg_clears s k a hk⟩,
      fun n => ⟨clearBit n, fun c b hb => getLsbD_clearBit n c hb, cclrImm_clears s k n hk⟩⟩⟩
  · refine ⟨?_, ?_, ?_, ?_, ?_, ?_, ?_, ?_, ?_⟩ <;> rintro rfl t <;> rfl
  · rintro rfl
    exact sset_tvec hk
  · rintro rfl
    exact sset_epc hk
  · rintro rfl
    exact sset_gsave hk

end Sys2Proof.Proofs
end

section
/-!
SUPPORT. What the shared operations of the device leave alone: the canonical form of the sparse memories, and which strands of
which block have exited.
-/

open Sys2Proof Sys2Proof.Machine

namespace Sys2Proof.Proofs

/-! ## Sound updates -/

/-- What an instruction of another wave leaves of a wave: its number, its block, which strands have exited, the gangs. -/
def waveView (w : Wave) : Nat × Nat × List (Bool × StrandMask) := (w.id, w.block, w.strands.map fun x => (x.exited, x.gang))

def exitView (d : Dev) : List (Nat × Nat × List (Bool × StrandMask)) := d.waves.map waveView

/-- An update keeps the memories canonical, and no strand exits, comes or changes its gang. -/
structure Sound (d e : Dev) : Prop where
  cells : d.cellsOk → e.cellsOk
  exits : exitView e = exitView d

theorem Sound.refl (d : Dev) : Sound d d := ⟨id, rfl⟩

theorem Sound.trans {a b c : Dev} (h : Sound a b) (g : Sound b c) : Sound a c :=
  ⟨fun x => g.cells (h.cells x), g.exits.trans h.exits⟩

theorem Sound.comp {a b c : Dev} (g : Sound b c) (h : Sound a b) : Sound a c := h.trans g

/-- An update of other fields. -/
theorem Sound.of_eq {d e : Dev} (hm : e.mem = d.mem) (hl : e.locmem = d.locmem) (hw : e.waves = d.waves) : Sound d e :=
  ⟨cellsOk_of_eq hm hl, congrArg (List.map _) hw⟩

theorem Sound.of_cells {d e : Dev} (h : e.mem = d.mem ∧ e.locmem = d.locmem) (hw : e.waves = d.waves) : Sound d e :=
  .of_eq h.1 h.2 hw

theorem Sound.ite {p : Prop} [Decidable p] {d a b : Dev} (ha : Sound d a) (hb : Sound d b) : Sound d (if p then a else b) := by
  split
  · exact ha
  · exact hb

/-- A further update in one case. -/
theorem Sound.thenIte {p : Prop} [Decidable p] {d a b : Dev} (ha : Sound d a) (hb : Sound a b) :
    Sound d (if p then b else a) := .ite (ha.trans hb) ha

theorem Sound.foldl {α : Type} {f : Dev → α → Dev} (hf : ∀ d x, Sound d (f d x)) (l : List α) (d : Dev) :
    Sound d (l.foldl f d) := by
  induction l generalizing d with
  | nil => exact .refl d
  | cons x l ih => exact (hf d x).trans (ih (f d x))

/-- A change of a wave that leaves its view as it is. -/
def KeepsView (f : Wave → Wave) : Prop := ∀ w, waveView (f w) = waveView w

theorem view_modIf {f : Wave → Wave} (hf : KeepsView f) (p : Wave → Bool) (l : List Wave) :
    (modIf p f l).map waveView = l.map waveView := by
  rw [modIf, List.map_map]
  refine List.map_congr_left fun w _ => ?_
  rw [Function.comp_apply]
  split
  · exact hf w
  · rfl

theorem Sound.modWave {f : Wave → Wave} (hf : KeepsView f) (d : Dev) (id : Nat) : Sound d (d.modWave id f) :=
  ⟨cellsOk_of_eq rfl rfl, view_modIf hf _ _⟩

theorem Sound.modBlock (d : Dev) (id : Nat) (f : Block → Block) : Sound d (d.modBlock id f) := .of_eq rfl rfl rfl
theorem Sound.modCore (d : Dev) (n : Nat) (f : Core → Core) : Sound d (d.modCore n f) := .of_eq rfl rfl rfl
theorem Sound.modCtx (d : Dev) (n : Nat) (f : Ctx → Ctx) : Sound d (d.modCtx n f) := .of_eq rfl rfl rfl
theorem Sound.endJob (d : Dev) (id t : Nat) : Sound d (d.endJob id t) := .of_eq rfl rfl rfl

theorem keepsView_modStrands {m : StrandMask} {g : Nat → Strand → Strand}
    (hg : ∀ t x, ((g t x).exited, (g t x).gang) = (x.exited, x.gang)) : KeepsView fun w => w.modStrands m g := by
  refine fun w => congrArg (fun l => (w.id, w.block, l)) ?_
  refine List.ext_getElem (by simp [Wave.modStrands]) fun i h1 h2 => ?_
  simp only [Wave.modStrands, List.getElem_map, List.getElem_mapIdx]
  split
  · exact hg _ _
  · rfl

/-! ## Homes -/

theorem Sound.touchLine (d : Dev) (slot pa ctx : Nat) : Sound d (d.touchLine slot pa ctx) := by
  refine .of_cells (touchLine_cells d slot pa ctx) ?_
  have hfill (e : Dev) : (e.fillLlc slot pa ctx).waves = e.waves := by
    simp only [Dev.fillLlc]
    split <;> rfl
  simp only [Dev.touchLine]
  split
  · exact hfill d
  · split
    · rfl
    · exact hfill _

theorem Sound.setEvent (d : Dev) (n b : Nat) : Sound d (d.setEvent n b) := by
  refine .of_cells (setEvent_cells d n b) ?_
  simp only [Dev.setEvent]
  split <;> rfl

theorem Sound.postColl (d : Dev) (ctx q : Nat) (c : Desc) (t w b : Nat) (l : Option Nat) :
    Sound d (d.postColl ctx q c t w b l) := by
  refine .of_cells (postColl_cells d ctx q c t w b l) ?_
  simp only [Dev.postColl]
  split <;> rfl

theorem Sound.logWrite (d : Dev) (ctx pa : Nat) : Sound d (d.logWrite ctx pa) := by
  refine .foldl (fun d f => ?_) _ d
  split
  · exact .refl d
  · refine .ite (.ite ?_ (.of_eq rfl rfl rfl)) (.refl d)
    exact .comp (.setEvent _ _ _) (.of_eq rfl rfl rfl)

theorem Sound.mailboxWrite (d : Dev) (pa n : Nat) : Sound d (d.mailboxWrite pa n) := by
  refine .foldl (fun d c => ?_) d.ctxs d
  exact .ite (.of_eq rfl rfl rfl) (.refl d)

theorem Sound.fireTriggers (d : Dev) (pa n t : Nat) : Sound d (d.fireTriggers pa n t) :=
  .comp (.foldl (fun d _ => .postColl d _ _ _ _ _ _ _) _ _) (.of_eq rfl rfl rfl)

theorem Sound.wakeMonitors (d : Dev) (pa t : Nat) : Sound d (d.wakeMonitors pa t) := by
  refine ⟨cellsOk_of_eq rfl rfl, ?_⟩
  simp only [exitView, Dev.wakeMonitors, Dev.wakeLine, List.map_map]
  refine List.map_congr_left fun w _ => ?_
  simp only [waveView, List.map_map, Function.comp_def]

theorem Sound.afterWrite (d : Dev) (ctx : Nat) (core : Option Nat) (device : Bool) (pa n t : Nat) :
    Sound d (d.afterWrite ctx core device pa n t) := by
  refine .comp (.trans ?_ (.fireTriggers _ pa n t)) (.wakeMonitors d pa t)
  have hl1 (e : Dev) : Sound e (match core with | some c => e.updateL1 c ctx pa t | none => e) := by
    split
    · exact .of_eq rfl rfl rfl
    · exact .refl e
  refine (hl1 _).trans (.trans (.logWrite _ ctx pa) ?_)
  exact .ite (.mailboxWrite _ pa n) (.refl _)

theorem waves_of_putGlob {d e : Dev} {slot a : Nat} {bs : List Byte} (he : d.putGlob slot a bs = some e) : e.waves = d.waves := by
  simp only [Dev.putGlob] at he
  split at he
  · cases he
    rfl
  · cases he

theorem Sound.of_putGlob {d e : Dev} {slot a : Nat} {bs : List Byte} (he : d.putGlob slot a bs = some e) : Sound d e :=
  ⟨fun h => cellsOk_putGlob d e slot a bs h he, congrArg (List.map _) (waves_of_putGlob he)⟩

theorem Sound.putLoc (d : Dev) (core : Nat) (sp : Space) (a : Nat) (bs : List Byte) : Sound d (d.putLoc core sp a bs) :=
  ⟨cellsOk_putLoc d core sp a bs, rfl⟩

theorem Sound.zeroLoc (d : Dev) (core : Nat) (sp : Space) (r : Range) : Sound d (d.zeroLoc core sp r) :=
  ⟨cellsOk_zeroLoc d core sp r, rfl⟩

theorem Sound.homeLoad (d : Dev) (ctx : Nat) (loc : Loc) (n c l : Nat) : Sound d (d.homeLoad ctx loc n c l).1 := by
  cases loc with
  | glob pa => exact .trans (.touchLine d ctx pa ctx) (.of_eq rfl rfl rfl)
  | _ => exact .of_eq rfl rfl rfl

theorem Sound.homeWrite (d : Dev) (ctx : Nat) (core : Option Nat) (device : Bool) (loc : Loc) (c : Nat)
    (f : Nat → List Byte) : Sound d (d.homeWrite ctx core device loc c f).1 := by
  cases loc with
  | glob pa =>
    refine .trans (.touchLine d ctx pa ctx) ?_
    simp only [Dev.homeWrite]
    split
    · exact .refl _
    next e he => exact (Sound.of_putGlob he).trans (.comp (.afterWrite _ ctx core device pa _ _) (.of_eq rfl rfl rfl))
  | loc cr sp a => exact .trans (.putLoc d cr sp a _) (.of_eq rfl rfl rfl)
  | _ => exact .refl d

theorem Sound.homeRmw (d : Dev) (ctx : Nat) (core : Option Nat) (device : Bool) (loc : Loc) (n c : Nat)
    (f : Nat → List Byte → List Byte) : Sound d (d.homeRmw ctx core device loc n c f).1 := by
  cases loc with
  | glob pa =>
    refine .trans (.touchLine d ctx pa ctx) ?_
    simp only [Dev.homeRmw]
    split
    · split
      · exact .refl _
      next e he => exact (Sound.of_putGlob he).trans (.comp (.afterWrite _ ctx core device pa _ _) (.of_eq rfl rfl rfl))
    · exact .refl _
  | loc cr sp a =>
    simp only [Dev.homeRmw]
    split
    · exact .trans (.putLoc d cr sp a _) (.of_eq rfl rfl rfl)
    · exact .refl d
  | _ => exact .refl d

theorem Sound.walkNow (d : Dev) (core : Nat) (c : Ctx) (va : Nat) : Sound d (d.walkNow core c va) := by
  have hread : Sound d ((d.walkReads c va walkLevels c.root).foldl (fun d a => d.touchLine c.n a c.n) d) :=
    .foldl (fun d a => .touchLine d c.n a c.n) _ d
  simp only [Dev.walkNow]
  split
  · exact hread
  · exact hread.trans (.of_eq rfl rfl rfl)

theorem Sound.looked (d : Dev) (core : Nat) (c : Ctx) (va : Nat) : Sound d (d.looked core c va) := by
  simp only [Dev.looked]
  refine .ite (.refl d) ?_
  split
  · exact .of_eq rfl rfl rfl
  · exact .walkNow d core c va

/-! ## Writes that the device owes (R37, R38, R226) -/

theorem Sound.payAt (d : Dev) (o : Owed) (l : Loc) : Sound d (d.payAt o l).1 := by
  simp only [Dev.payAt]
  split
  · exact .of_eq rfl rfl rfl
  · split
    · exact .homeRmw d _ _ _ _ _ _ _
    · exact .homeWrite d _ _ _ _ _ _

theorem Sound.payOne (d : Dev) (o : Owed) : Sound d (d.payOne o).1 := by
  simp only [Dev.payOne]
  split
  · exact .refl d
  · split
    · exact .refl d
    · split
      · exact .looked d _ _ _
      · exact .comp (.looked _ _ _ _) (.payAt d o _)

theorem Sound.pay (ctx n : Nat) (d : Dev) : Sound d (Dev.pay ctx n d) := by
  induction n generalizing d with
  | zero => exact .refl d
  | succ n ih =>
    simp only [Dev.pay]
    split
    · exact .refl d
    next o _ =>
      refine .ite (.refl d) ?_
      have hone := Sound.payOne d o
      split
      next e t he =>
        rw [he] at hone
        exact hone.trans (.comp (ih _) (.of_eq rfl rfl rfl))
      next e he =>
        rw [he] at hone
        exact hone

theorem Sound.owe (d : Dev) (ctx : Nat) (l : List (Nat × Nat × OwedWrite)) : Sound d (d.owe ctx l) :=
  .comp (.pay ctx _ _) (.of_eq rfl rfl rfl)

theorem Sound.owedReply (d : Dev) (ctx : Nat) (t : Option Nat) : Sound d (d.owedReply ctx t) :=
  .comp (.pay ctx _ _) (.of_eq rfl rfl rfl)

theorem Sound.markLevels (d : Dev) (ctx : Nat) (error cancelled : Bool) (c n addr : Nat) :
    Sound d (d.markLevels ctx error cancelled c n addr).1 := by
  induction n generalizing d addr with
  | zero => exact .refl d
  | succ n ih =>
    simp only [Dev.markLevels]
    split
    · exact .refl d
    · exact .comp (ih _ _) (.of_eq rfl rfl rfl)

theorem Sound.markLaunch (d : Dev) (id : Nat) (error cancelled : Bool) (c : Nat) :
    Sound d (d.markLaunch id error cancelled c) := by
  simp only [Dev.markLaunch]
  split
  · exact .refl d
  · exact .comp (.owe _ _ _) (.comp (.markLevels _ _ _ _ _ _ _) (.of_eq rfl rfl rfl))

theorem Sound.decLevel (d : Dev) (ctx n addr c : Nat) : Sound d (d.decLevel ctx n addr c).1 := by
  induction n generalizing d addr c with
  | zero => exact .refl d
  | succ n ih =>
    simp only [Dev.decLevel]
    split
    · exact .refl d
    next l _ =>
      split_ifs
      · exact .comp (ih _ _ _) (.of_eq rfl rfl rfl)
      · exact .comp (ih _ _ _) (.of_eq rfl rfl rfl)
      · exact .of_eq rfl rfl rfl

theorem Sound.decLaunch (d : Dev) (id n c : Nat) : Sound d (d.decLaunch id n c) := by
  simp only [Dev.decLaunch]
  split
  · exact .refl d
  · refine .ite ?_ (.comp (.owe _ _ _) (.of_eq rfl rfl rfl))
    exact .comp (.owe _ _ _) (.comp (.decLevel _ _ _ _ _) (.of_eq rfl rfl rfl))

/-! ## Leases -/

theorem Sound.darkenFor (die need n : Nat) (d : Dev) : Sound d (d.darkenFor die need n) := by
  induction n generalizing d with
  | zero => exact .refl d
  | succ n ih =>
    simp only [Dev.darkenFor]
    refine .ite (.refl d) ?_
    split
    · exact .refl d
    · exact .comp (ih _) (.of_eq rfl rfl rfl)

theorem Sound.grantHead (d : Dev) (core : Nat) (k : EngKind) : Sound d (d.grantHead core k) := by
  simp only [Dev.grantHead]
  split
  · exact .refl d
  · split
    · exact .refl d
    · split
      · have hdark := Sound.darkenFor (dieOf core) (powerOf k) 672 d
        refine .ite (hdark.trans (.of_eq rfl rfl rfl)) (.ite (.of_eq rfl rfl rfl) ?_)
        exact hdark.trans (.of_eq rfl rfl rfl)
      · exact .ite (.refl d) (.ite (.of_eq rfl rfl rfl) (.of_eq rfl rfl rfl))
      · exact .ite (.refl d) (.ite (.of_eq rfl rfl rfl) (.of_eq rfl rfl rfl))
      · exact .refl d

theorem Sound.releaseEngine (d : Dev) (core : Nat) (k : EngKind) : Sound d (d.releaseEngine core k) := by
  simp only [Dev.releaseEngine]
  exact .thenIte (.comp (.grantHead _ core k) (.of_eq rfl rfl rfl)) (.of_eq rfl rfl rfl)

theorem Sound.douse (d : Dev) (core : Nat) (k : EngKind) (w : Nat) : Sound d (d.douse core k w) := by
  simp only [Dev.douse]
  have hqueue : Sound d (if (d.engine core k).queue.any (·.wave == w)
      then d.modEngine core k fun e => { e with queue := e.queue.filter (·.wave != w) } else d) :=
    .ite (.of_eq rfl rfl rfl) (.refl d)
  refine hqueue.trans ?_
  generalize (if (d.engine core k).queue.any (·.wave == w)
    then d.modEngine core k fun e => { e with queue := e.queue.filter (·.wave != w) } else d) = q
  split
  · exact .refl _
  · refine .ite (.refl _) ?_
    split
    · exact .releaseEngine _ core k
    · exact .of_eq rfl rfl rfl
    · exact .of_eq rfl rfl rfl
    · exact .refl _

theorem Sound.douseAll (d : Dev) (core w : Nat) : Sound d (d.douseAll core w) :=
  .comp (.douse _ core .select w) (.comp (.douse _ core .table w) (.douse d core .tile w))

/-! ## The end of waves and blocks -/

theorem Sound.tryRelease (d : Dev) (b : Block) (n : Nat) : Sound d (d.tryRelease b n) := by
  simp only [Dev.tryRelease]
  refine .ite (.refl d) ⟨cellsOk_of_eq rfl rfl, ?_⟩
  refine view_modIf ?_ _ _
  exact fun _ => rfl

theorem Sound.recheckBars (d : Dev) (b : Block) : Sound d (d.recheckBars b) :=
  .foldl (fun d n => .tryRelease d b n) _ d

theorem Sound.noteDone (d : Dev) (id wave block : Nat) (g : StrandMask) (t : Nat) : Sound d (d.noteDone id wave block g t) := by
  refine .comp (.modBlock _ _ _) (.modWave ?_ d wave)
  refine keepsView_modStrands fun _ x => ?_
  split <;> rfl

theorem Sound.waveGone (d : Dev) (w : Wave) (b : Block) : Sound d (d.waveGone w b) := by
  refine .comp (.recheckBars _ b) (.comp (.modBlock _ _ _) (.comp (.modWave ?_ _ _) (.comp (.modCore _ _ _) ?_)))
  · exact fun _ => rfl
  · refine .comp (.douseAll _ b.core w.id) (.comp (.foldl ?_ _ _) (.of_eq rfl rfl rfl))
    exact fun d j => .endJob d _ _

theorem Sound.endStopped (d : Dev) (block : Nat) : Sound d (d.endStopped block) :=
  .foldl (fun d _ => .comp (.endJob _ _ _) (.noteDone d _ _ _ _ _)) _ d

end Sys2Proof.Proofs
end

section
/-!
PROOFS. Exceptions: their entry, their return, and the end of a block without a handler (04: R119 to R121; 11: R304 to R309).
-/

open Sys2Proof Sys2Proof.Machine Sys2Proof.Claims

namespace Sys2Proof.Proofs

/-! ## The issuer -/

theorem find?_id_eq {α : Type} {f : α → Nat} {l : List α} {n : Nat} {x : α} (h : l.find? (fun y => f y == n) = some x) :
    f x = n := by
  have hp := List.find?_some h
  exact beq_iff_eq.mp hp

/-- What the selection of a gang says of its wave, block, context and lowest strand. -/
theorem issuer?_eq_some {d : Dev} {k : Issue} (h : d.issuer? = some k) :
    d.latch = some ⟨k.wave.id, k.gang⟩ ∧ d.wave? k.wave.id = some k.wave ∧ d.block? k.wave.block = some k.block ∧
      d.ctx? k.block.ctx = some k.ctx ∧ ∃ t, k.wave.strands[lowStrand k.gang]? = some t ∧ t.pc = k.pc := by
  unfold Dev.issuer? at h
  split at h
  · cases h
  next g hg =>
  split at h
  · cases h
  next w hw =>
  split at h
  · cases h
  next b hb =>
  split at h
  · cases h
  next c hc =>
  split at h
  · cases h
  next t ht =>
  cases h
  have hid : w.id = g.wave := find?_id_eq (f := Wave.id) hw
  refine ⟨?_, ?_, hb, hc, t, ht, rfl⟩
  · rw [hg]
    exact congrArg (fun n => some (GangRef.mk n g.mask)) hid.symm
  · rw [← hid] at hw
    exact hw

theorem wave_block_eq {d : Dev} {k : Issue} (h : d.issuer? = some k) : k.wave.block = k.block.id := by
  obtain ⟨-, -, hb, -⟩ := issuer?_eq_some h
  exact (find?_id_eq (f := Block.id) hb).symm

/-! ## A block whose strands have all exited -/

/-- Every wave of a block has only exited strands. -/
def Ended (b : Nat) (d : Dev) : Prop := ∀ w ∈ d.waves, w.block = b → w.strands.all (·.exited) = true

theorem ended_iff {b : Nat} {d : Dev} : Ended b d ↔ ∀ v ∈ exitView d, v.2.1 = b → v.2.2.all (·.1) = true := by
  simp only [Ended, exitView, List.forall_mem_map, waveView, List.all_map, Function.comp_def]

theorem Ended.of_sound {b : Nat} {d e : Dev} (h : Ended b d) (hs : Sound d e) : Ended b e := by
  rw [ended_iff, hs.exits]
  exact ended_iff.mp h

theorem ended_stopWaves (d : Dev) (b : Block) : Ended b.id (d.stopWaves b) := by
  refine Ended.of_sound ?_ (.foldl (fun d w => .waveGone d w b) _ _)
  intro w hw hb
  obtain ⟨x, -, rfl⟩ := (mem_modIf _ _ _ _).mp hw
  by_cases hx : (x.block == b.id) = true
  · rw [if_pos hx]
    simp
  · rw [if_neg hx] at hb
    exact absurd (beq_iff_eq.mpr hb) hx

theorem ended_endBlock {d : Dev} {id : Nat} {b : Block} (hb : d.block? id = some b) : Ended id (d.endBlock id) := by
  have hid : b.id = id := find?_id_eq (f := Block.id) hb
  have hstop : Ended id (d.stopWaves b) := hid ▸ ended_stopWaves d b
  simp only [Dev.endBlock, hb]
  split
  · exact hstop.of_sound (.markLaunch _ _ _ _ _)
  · exact hstop

theorem ended_forceExit {d : Dev} {id : Nat} {b : Block} (hb : d.block? id = some b) : Ended id (d.forceExit id) := by
  have hid : b.id = id := find?_id_eq (f := Block.id) hb
  have hstop : Ended id (d.stopWaves b) := hid ▸ ended_stopWaves d b
  have hjobs := hstop.of_sound (.foldl (fun d j => .endJob d j.id j.clock)
    ((d.stopWaves b).jobs.filter fun j => j.block == id && (match j.kind with | .tile _ _ none _ => true | _ => false)) _)
  simp only [Dev.forceExit, hb]
  generalize List.foldl _ _ _ = e at hjobs ⊢
  have hcopies := (hjobs.of_sound (e := { e with jobs := modIf (·.block == id) Job.cancel e.jobs }) (.of_eq rfl rfl rfl)).of_sound
    (.endStopped _ id)
  split
  · exact hcopies.of_sound (.comp (.markLaunch _ _ _ _ _) (.comp (.modBlock _ _ _) (.of_eq rfl rfl rfl)))
  · exact hcopies.of_sound (.comp (.modBlock _ _ _) (.of_eq rfl rfl rfl))

/-- A precise cause in a wave that has no handler, or is in it, ends its block (R305, R309). -/
theorem ended_trap {d : Dev} {k : Issue} (hw : d.wave? k.wave.id = some k.wave) (hb : d.block? k.wave.block = some k.block)
    (hend : k.wave.tvec = 0 ∨ k.wave.inHandler = true) (cause : Nat) : Ended k.wave.block (d.trap k cause) := by
  have hcond : (k.wave.inHandler || k.wave.tvec == 0) = true := by
    rcases hend with h | h <;> simp [h]
  simp only [Dev.trap, Dev.trapWave, hw, hcond, if_true]
  exact ended_endBlock (d := d.modWave k.wave.id (·.setCause cause)) hb

/-! ## Entry (R306) -/

theorem enter_setCause (cause : Nat) (w : Wave) : (w.setCause cause).enter = entersHandler cause w := by
  simp only [Wave.enter, Wave.setCause, entersHandler, Strand.toHandler, Strand.putFault]
  rfl

/-- The exception of a wave that can take it at once. -/
theorem trap_enters {s : State} {k : Issue} (h : CanEnter s k) (cause : Nat) :
    after s (fun d => d.trap k cause) = waveStep s k (entersHandler cause) := by
  obtain ⟨hk, htvec, hin, hbusy, hclaims, hasks⟩ := h
  obtain ⟨-, hw, hb, -⟩ := issuer?_eq_some hk
  have hcond : (k.wave.inHandler || k.wave.tvec == 0) = false := by
    rw [hin, Bool.false_or, beq_eq_false_iff_ne]
    exact htvec
  have hw' : Dev.wave? (Dev.modWave { s.dev with latch := none } k.wave.id (·.setCause cause)) k.wave.id =
      some (k.wave.setCause cause) := by
    rw [wave?_modWave _ _ _ (·.setCause cause) fun _ => rfl]
    exact (congrArg (Option.map _) hw).trans (by simp)
  have hdev : Dev.trap { s.dev with latch := none } k cause =
      (Dev.modWave { s.dev with latch := none } k.wave.id (·.setCause cause)).modWave k.wave.id Wave.enter := by
    have hw0 : Dev.wave? { s.dev with latch := none } k.wave.id = some k.wave := hw
    simp only [Dev.trap, Dev.trapWave, hw0, hcond, Bool.false_eq_true, if_false, Dev.enterHandler, hw']
    have hbusy' : (k.wave.setCause cause).busy = false := hbusy
    have hasks' : Dev.asksFor ((Dev.modWave { s.dev with latch := none } k.wave.id (·.setCause cause)).modWave k.wave.id
      Wave.enter) k.wave.id = false := hasks
    have hb' : Dev.block? ((Dev.modWave { s.dev with latch := none } k.wave.id (·.setCause cause)).modWave k.wave.id
      Wave.enter) (k.wave.setCause cause).block = some k.block := hb
    have hclaims' : (Dev.core ((Dev.modWave { s.dev with latch := none } k.wave.id (·.setCause cause)).modWave k.wave.id
      Wave.enter) k.block.core).claims.any (·.1 == k.wave.id) = false := hclaims
    rw [hbusy', Dev.dropAsks, hasks']
    simp only [Bool.false_eq_true, if_false, hb', hclaims']
  have hwaves : (Dev.trap { s.dev with latch := none } k cause) =
      Dev.onWave { s.dev with latch := none } k (entersHandler cause) := by
    rw [hdev]
    simp only [Dev.onWave, Dev.modWave]
    rw [modIf_modIf (fun x : Wave => x.id == k.wave.id) (·.setCause cause) Wave.enter (fun _ => rfl)]
    simp only [enter_setCause]
  rw [after, hwaves]
  exact onWave_eq s k _

/-- Settles O5: the three instructions trap, which enters the handler or ends the block; with BRKHALT `brk` halts. -/
theorem exceptionEntry : Obligations.ExceptionEntry := by
  unfold Obligations.ExceptionEntry
  have hexec (s : State) (k : Issue) (hk : s.dev.issuer? = some k) (hbrk : s.mgmt.brkhalt = false) (c : BitVec 8) :
      exec (.brk c) s = .next (after s fun d => d.trap k cBreak) := by
    refine (issue_next s k (fun k d => if s.mgmt.brkhalt then d.onWave k fun w => { (w.setCause cBreak) with halted := true }
      else d.trap k cBreak) hk).trans ?_
    simp only [hbrk, Bool.false_eq_true, if_false]
    rfl
  refine ⟨⟨fun s k h => ⟨fun c => ?_, fun hbrk c => ?_, ?_⟩, fun s k c hk hbrk => ?_⟩, fun s k hk hend hbrk i hi => ?_⟩
  · rw [← trap_enters h]
    exact issue_next s k (fun k d => d.trap k cTrapinsn) h.1
  · rw [← trap_enters h]
    exact hexec s k h.1 hbrk c
  · rw [← trap_enters h]
    exact issue_next s k (fun k d => d.trap k cIllegal) h.1
  · refine (issue_next s k (fun k d => if s.mgmt.brkhalt then d.onWave k fun w => { (w.setCause cBreak) with halted := true }
      else d.trap k cBreak) hk).trans ?_
    simp only [hbrk, if_true]
    exact congrArg Host.Outcome.next (onWave_eq s k _)
  · obtain ⟨-, hw, hb, -⟩ := issuer?_eq_some hk
    have hended (cause : Nat) := ended_trap (d := { s.dev with latch := none }) hw hb hend cause
    rcases hi with ⟨c, rfl⟩ | ⟨c, rfl⟩ | rfl
    · exact ⟨_, issue_next s k (fun k d => d.trap k cTrapinsn) hk, hended cTrapinsn⟩
    · exact ⟨_, hexec s k hk hbrk c, hended cBreak⟩
    · exact ⟨_, issue_next s k (fun k d => d.trap k cIllegal) hk, hended cIllegal⟩

/-! ## Return (R121, R308) -/

theorem noHandler_eq_bitOnly_iff (c : Nat) :
    noHandler c = .bitOnly ↔ c ∈ [cLeaselost, cPreempt, cMigrate, cGuarantee, cEnergy] := by
  simp only [noHandler, List.mem_cons, List.not_mem_nil, or_false]
  split
  next h => exact ⟨fun _ => h, fun _ => rfl⟩
  next h => split <;> exact ⟨(nomatch ·), (absurd · h)⟩

/-- A cause of the wave acts in this way where there is no handler. -/
def someCause (w : Wave) (p : NoHandler) : Bool := (List.range 26).any fun c => w.cause.getLsbD c && noHandler c == p

theorem someCause_eq_true_iff (w : Wave) (p : NoHandler) :
    someCause w p = true ↔ ∃ c < 26, w.cause.getLsbD c = true ∧ noHandler c = p := by
  simp [someCause]

/-- A cause that is not bit-only ends the block: by `endBlock` or by `forceExit`. -/
theorem ending_iff (w : Wave) :
    (∃ c < 26, w.cause.getLsbD c = true ∧ c ∉ [cLeaselost, cPreempt, cMigrate, cGuarantee, cEnergy]) ↔
      someCause w .ends = true ∨ someCause w .forcedExit = true := by
  simp only [someCause_eq_true_iff, ← noHandler_eq_bitOnly_iff]
  constructor
  · rintro ⟨c, hc, hbit, hno⟩
    cases hcase : noHandler c with
    | ends => exact .inl ⟨c, hc, hbit, hcase⟩
    | bitOnly => exact absurd hcase hno
    | forcedExit => exact .inr ⟨c, hc, hbit, hcase⟩
  · rintro (⟨c, hc, hbit, hcase⟩ | ⟨c, hc, hbit, hcase⟩) <;> exact ⟨c, hc, hbit, by simp [hcase]⟩

theorem leaveHandler_eq (d : Dev) (k : Issue) :
    d.leaveHandler k =
      if k.wave.cause != 0 && k.wave.tvec != 0 then d.onWave k Wave.reenter
      else if someCause k.wave .ends then d.endBlock k.wave.block
      else if someCause k.wave .forcedExit then d.forceExit k.wave.block
      else if !validMap k.wave.gsave k.wave.liveMask then d.trap k cGang
      else d.onWave k Wave.leave := rfl

theorem rett_leaves {s : State} {k : Issue} (hk : s.dev.issuer? = some k) (hwhole : k.gang = k.wave.liveMask)
    (hin : k.wave.inHandler = true) : exec .rett s = .next (after s fun d => d.leaveHandler k) := by
  have hexec : exec .rett s = execRett s := rfl
  have hnone : (if !k.whole then some cGang else if !k.wave.inHandler then some cIllegal else none) = none := by
    simp [Issue.whole, hwhole, hin]
  rw [hexec, execRett, guarded_next s k _ _ hk hnone]
  rfl

theorem rett_traps {s : State} {k : Issue} {c : Nat} (hk : s.dev.issuer? = some k)
    (hc : (if !k.whole then some cGang else if !k.wave.inHandler then some cIllegal else none) = some c) :
    exec .rett s = .next (after s fun d => d.trap k c) := by
  have hexec : exec .rett s = execRett s := rfl
  rw [hexec, execRett, guarded_trap s k _ _ c hk hc]
  rfl

/-- With no cause that re-enters, and none that ends the block, only the map of `%gsave` is looked at. -/
theorem leaveHandler_of_not_ending {d : Dev} {k : Issue} (hquiet : k.wave.cause = 0 ∨ k.wave.tvec = 0)
    (hend : ¬ (someCause k.wave .ends = true ∨ someCause k.wave .forcedExit = true)) :
    d.leaveHandler k = if !validMap k.wave.gsave k.wave.liveMask then d.trap k cGang else d.onWave k Wave.leave := by
  have hre : (k.wave.cause != 0 && k.wave.tvec != 0) = false := by
    rw [Bool.and_eq_false_iff, bne_eq_false_iff_eq, bne_eq_false_iff_eq]
    exact hquiet
  rw [not_or] at hend
  rw [leaveHandler_eq, hre, if_neg Bool.false_ne_true, if_neg hend.1, if_neg hend.2]

/-- Settles O6: the cases of `leaveHandler`. -/
theorem exceptionReturn : Obligations.ExceptionReturn := by
  unfold Obligations.ExceptionReturn
  refine ⟨fun s k hk hwhole hin => ?_, fun s k hk => ⟨fun hpart => ?_, fun hwhole hout => ?_⟩⟩
  · intro ending
    have hending : ending ↔ _ := ending_iff k.wave
    rw [hending, rett_leaves hk hwhole hin]
    refine ⟨fun hquiet hend hmap => ?_, fun htvec hend => ⟨_, rfl, ?_⟩, fun hquiet hend hmap => ?_, fun hcause htvec => ?_⟩
    · refine congrArg (fun f => Host.Outcome.next (after s f)) (funext fun d => ?_)
      rw [leaveHandler_of_not_ending hquiet hend, hmap]
      rfl
    · obtain ⟨-, -, hb, -⟩ := issuer?_eq_some hk
      have hre : (k.wave.cause != 0 && k.wave.tvec != 0) = false := by simp [htvec]
      show Ended k.wave.block (Dev.leaveHandler { s.dev with latch := none } k)
      rw [leaveHandler_eq, hre, if_neg Bool.false_ne_true]
      by_cases hends : someCause k.wave .ends = true
      · rw [if_pos hends]
        exact ended_endBlock hb
      · rw [if_neg hends, if_pos (hend.resolve_left hends)]
        exact ended_forceExit hb
    · rw [after, leaveHandler_of_not_ending hquiet hend, hmap]
      exact congrArg Host.Outcome.next (onWave_eq s k Wave.leave)
    · have hre : (k.wave.cause != 0 && k.wave.tvec != 0) = true := by
        rw [Bool.and_eq_true, bne_iff_ne, bne_iff_ne]
        exact ⟨hcause, htvec⟩
      rw [after, leaveHandler_eq, hre, if_pos rfl]
      exact congrArg Host.Outcome.next (onWave_eq s k Wave.reenter)
  · exact rett_traps hk (by simp [Issue.whole, hpart])
  · exact rett_traps hk (by simp [Issue.whole, hwhole, hout])

/-! ## regang, exit, trigger and yield (R19, R141 to R145) -/

/-- The mask with which a strand waits at a `regang`. -/
def regangMask (x : Strand) : Option StrandMask := match x.waiting with | some ⟨_, .regang y⟩ => some y | _ => none

theorem regangMask_eq_some_iff {x : Strand} {y : StrandMask} :
    regangMask x = some y ↔ ∃ since, x.waiting = some ⟨since, .regang y⟩ := by
  unfold regangMask
  constructor
  · intro h
    split at h
    next t z hw =>
      cases h
      exact ⟨t, hw⟩
    · cases h
  · rintro ⟨t, hw⟩
    rw [hw]

/-- A strand outside the gang waits at a `regang` with another mask, and one of the two masks names a strand of the other. -/
def regangClash (k : Issue) (m : StrandMask) : Bool :=
  k.wave.strands.zipIdx.any fun (x, u) =>
    !inGang k.gang u && !x.exited && (match regangMask x with
      | some y => y != m && (inGang m u || k.strands.any (inGang y))
      | none => false)

/-- The live strands that a `regang` names. -/
def regangNamed (k : Issue) (m : StrandMask) : List (Strand × Nat) :=
  k.wave.strands.zipIdx.filter fun (x, u) => inGang m u && !x.exited

theorem execRegang_eq (m : StrandMask) (s : State) :
    execRegang m s = issue s fun k d =>
      if m = 0 then d.trap k cIllegal
      else if !k.strands.all (inGang m) || regangClash k m then d.trap k cGang
      else if !(regangNamed k m).all (fun (x, u) => inGang k.gang u || regangMask x == some m) then d.stall k (.regang m)
      else if (regangNamed k m).any fun (x, _) => x.pc != k.pc then d.trap k cGang
      else d.onWave k fun w => w.modStrands (m &&& k.wave.liveMask) fun _ x =>
        { x with pc := x.pc + 2, gang := m &&& k.wave.liveMask, waiting := none } := rfl

theorem covers_iff {k : Issue} {m : StrandMask} :
    k.strands.all (inGang m) = true ↔ ∀ t, inGang k.gang t = true → inGang m t = true := by
  simp only [List.all_eq_true, mem_strands_iff]

theorem regangClash_iff {k : Issue} {m : StrandMask} :
    regangClash k m = true ↔ ∃ u x since y, k.wave.strands[u]? = some x ∧ inGang k.gang u = false ∧ x.exited = false ∧
      x.waiting = some ⟨since, .regang y⟩ ∧ y ≠ m ∧ (inGang m u = true ∨ ∃ t, inGang k.gang t = true ∧ inGang y t = true) := by
  simp only [regangClash, List.any_eq_true, Prod.exists, List.mem_zipIdx_iff_getElem?, Bool.and_eq_true, Bool.not_eq_true']
  constructor
  · rintro ⟨x, u, hx, ⟨hgang, hlive⟩, hmask⟩
    split at hmask
    next y hy =>
      obtain ⟨since, hwait⟩ := regangMask_eq_some_iff.mp hy
      simp only [Bool.and_eq_true, bne_iff_ne, Bool.or_eq_true, List.any_eq_true, mem_strands_iff] at hmask
      exact ⟨u, x, since, y, hx, hgang, hlive, hwait, hmask.1, hmask.2⟩
    · cases hmask
  · rintro ⟨u, x, since, y, hx, hgang, hlive, hwait, hne, hnames⟩
    refine ⟨x, u, hx, ⟨hgang, hlive⟩, ?_⟩
    rw [regangMask_eq_some_iff.mpr ⟨since, hwait⟩]
    simp only [Bool.and_eq_true, bne_iff_ne, Bool.or_eq_true, List.any_eq_true, mem_strands_iff]
    exact ⟨hne, hnames⟩

theorem mem_regangNamed_iff {k : Issue} {m : StrandMask} {x : Strand} {u : Nat} :
    (x, u) ∈ regangNamed k m ↔ k.wave.strands[u]? = some x ∧ inGang m u = true ∧ x.exited = false := by
  simp [regangNamed, List.mem_zipIdx_iff_getElem?]

theorem namedHere_iff {k : Issue} {m : StrandMask} :
    (regangNamed k m).all (fun (x, u) => inGang k.gang u || regangMask x == some m) = true ↔
      ∀ t x, k.wave.strands[t]? = some x → inGang m t = true → x.exited = false →
        inGang k.gang t = true ∨ ∃ since, x.waiting = some ⟨since, .regang m⟩ := by
  simp only [List.all_eq_true, Prod.forall, mem_regangNamed_iff, Bool.or_eq_true, beq_iff_eq, regangMask_eq_some_iff, and_imp]
  exact forall_comm

theorem namedAstray_iff {k : Issue} {m : StrandMask} :
    ((regangNamed k m).any fun (x, _) => x.pc != k.pc) = true ↔
      ∃ t x, k.wave.strands[t]? = some x ∧ inGang m t = true ∧ x.exited = false ∧ x.pc ≠ k.pc := by
  simp only [List.any_eq_true, Prod.exists, mem_regangNamed_iff, bne_iff_ne, and_assoc]
  exact exists_comm

theorem regang_next {s : State} {k : Issue} {m : StrandMask} (hk : s.dev.issuer? = some k) {f : Dev → Dev}
    (hf : ∀ d : Dev, (if m = 0 then d.trap k cIllegal
      else if !k.strands.all (inGang m) || regangClash k m then d.trap k cGang
      else if !(regangNamed k m).all (fun (x, u) => inGang k.gang u || regangMask x == some m) then d.stall k (.regang m)
      else if (regangNamed k m).any fun (x, _) => x.pc != k.pc then d.trap k cGang
      else d.onWave k fun w => w.modStrands (m &&& k.wave.liveMask) fun _ x =>
        { x with pc := x.pc + 2, gang := m &&& k.wave.liveMask, waiting := none }) = f d) :
    exec (.regang m) s = .next (after s f) := by
  have hexec : exec (.regang m) s = execRegang m s := rfl
  rw [hexec, execRegang_eq, issue_next s k _ hk, hf]
  rfl

theorem regang_claim {s : State} {k : Issue} (hk : s.dev.issuer? = some k) (m : StrandMask) (hm : m ≠ 0) :
    let covers := ∀ t, inGang k.gang t = true → inGang m t = true
    let clash := ∃ u x since y, k.wave.strands[u]? = some x ∧ inGang k.gang u = false ∧ x.exited = false ∧
      x.waiting = some ⟨since, .regang y⟩ ∧ y ≠ m ∧ (inGang m u = true ∨ ∃ t, inGang k.gang t = true ∧ inGang y t = true)
    let here := ∀ t x, k.wave.strands[t]? = some x → inGang m t = true → x.exited = false →
      inGang k.gang t = true ∨ ∃ since, x.waiting = some ⟨since, .regang m⟩
    let astray := ∃ t x, k.wave.strands[t]? = some x ∧ inGang m t = true ∧ x.exited = false ∧ x.pc ≠ k.pc
    (¬ covers ∨ clash ∨ (here ∧ astray) → exec (.regang m) s = .next (after s fun d => d.trap k cGang)) ∧
    (covers → ¬ clash → here → ¬ astray →
      exec (.regang m) s = .next (waveStep s k fun w => { w with
        strands := w.strands.mapIdx fun t x => if inGang (m &&& k.wave.liveMask) t
          then { x with pc := x.pc + 2, gang := m &&& k.wave.liveMask, waiting := none } else x })) ∧
    (covers → ¬ clash → ¬ here → exec (.regang m) s = .next (stays s k (.regang m))) := by
  intro covers clash here astray
  have hcovers : _ ↔ covers := covers_iff (k := k) (m := m)
  have hclash : _ ↔ clash := regangClash_iff (k := k) (m := m)
  have hhere : _ ↔ here := namedHere_iff (k := k) (m := m)
  have hastray : _ ↔ astray := namedAstray_iff (k := k) (m := m)
  rw [← hcovers, ← hclash, ← hhere, ← hastray]
  refine ⟨fun hbad => regang_next hk fun d => ?_, fun hc hn hh ha => ?_, fun hc hn hh => ?_⟩
  · rw [if_neg hm]
    by_cases hc : k.strands.all (inGang m) = true
    · by_cases hn : regangClash k m = true
      · rw [if_pos (by simp [hn])]
      · rcases hbad with h | h | ⟨hh, ha⟩
        · exact absurd hc h
        · exact absurd h hn
        · rw [if_neg (by simp [hc, hn]), if_neg (by simp [hh]), if_pos ha]
    · rw [if_pos (by simp [hc])]
  · refine (regang_next hk (f := fun d => d.onWave k _) fun d => ?_).trans (congrArg Host.Outcome.next (onWave_eq s k _))
    rw [if_neg hm, if_neg (by simp [hc, hn]), if_neg (by simp [hh]), if_neg ha]
    rfl
  · refine (regang_next hk (f := fun d => d.stall k (.regang m)) fun d => ?_).trans
      (congrArg Host.Outcome.next (stays_eq_stall s k _))
    rw [if_neg hm, if_neg (by simp [hc, hn]), if_pos (by simp [hh])]

/-- The strands of the gang have left it and the wave. -/
def leaves (x : Strand) : Strand := { x with exited := true, gang := 0, waiting := none, monitor := none }

/-- The device after `exit`, before the wave is looked at. -/
def exitDev (s : State) (k : Issue) : Dev :=
  (Dev.noteTrigger { s.dev with latch := none } k.wave k.gang).onGang k fun _ x => leaves x

theorem exit_next {s : State} {k : Issue} (hk : s.dev.issuer? = some k) :
    exec .exit s = .next { s with dev := match (exitDev s k).wave? k.wave.id with
      | some w => if w.live then exitDev s k else (exitDev s k).waveGone w k.block
      | none => exitDev s k } := by
  have hexec : exec .exit s = execExit s := rfl
  rw [hexec, execExit, issue_next s k _ hk]
  rfl

theorem waves_exitDev (s : State) (k : Issue) : (exitDev s k).waves = (gangStep s k fun _ x => leaves x).dev.waves :=
  congrArg (fun s : State => s.dev.waves) (onGang_eq s k fun _ x => leaves x)

theorem wave?_exitDev {s : State} {k : Issue} (hk : s.dev.issuer? = some k) :
    (exitDev s k).wave? k.wave.id = some (k.wave.modStrands k.gang fun _ x => leaves x) := by
  obtain ⟨-, hw, -⟩ := issuer?_eq_some hk
  rw [exitDev, Dev.onGang, Dev.onWave, wave?_modWave _ _ _ (·.modStrands k.gang fun _ x => leaves x) fun _ => rfl]
  exact (congrArg (Option.map _) hw).trans (by simp)

theorem gangLeft_exitDev (s : State) (k : Issue) :
    ∀ v ∈ exitView (exitDev s k), v.1 = k.wave.id → ∀ u x, v.2.2[u]? = some x → inGang k.gang u = true → x = (true, 0) := by
  intro v hv hid u x hx hu
  obtain ⟨w, hw, rfl⟩ := List.mem_map.mp hv
  rw [waves_exitDev, gangStep, waveStep] at hw
  obtain ⟨y, -, rfl⟩ := List.mem_map.mp hw
  by_cases hy : y.id = k.wave.id
  · rw [if_pos hy] at hx
    simp only [waveView, List.getElem?_map, List.getElem?_mapIdx, hu, if_true, Option.map_map, Option.map_eq_some_iff] at hx
    obtain ⟨z, -, rfl⟩ := hx
    rfl
  · rw [if_neg hy] at hid
    exact absurd hid hy

/-- A gang that is not the whole wave leaves a live wave. -/
theorem live_of_stays {w : Wave} {g : StrandMask} {u : Nat} {x : Strand} (hx : w.strands[u]? = some x)
    (hu : inGang g u = false) (hlive : x.exited = false) : (w.modStrands g fun _ x => leaves x).live = true := by
  refine List.any_eq_true.mpr ⟨x, List.mem_iff_getElem?.mpr ⟨u, ?_⟩, by simp [hlive]⟩
  simp [Wave.modStrands, hx, hu]

theorem exit_claim {s : State} {k : Issue} (hk : s.dev.issuer? = some k) :
    ∃ t, exec .exit s = .next t ∧
      (∀ w ∈ t.dev.waves, w.id = k.wave.id → ∀ u x, w.strands[u]? = some x → inGang k.gang u = true →
        x.exited = true ∧ x.gang = 0) ∧
      ((∃ (u : Nat) (x : Strand), k.wave.strands[u]? = some x ∧ inGang k.gang u = false ∧ x.exited = false) →
        t.dev.waves = (gangStep s k fun _ x => leaves x).dev.waves ∧
        t.dev.memops = s.dev.memops ∧ t.dev.jobs = s.dev.jobs ∧ t.dev.mem = s.dev.mem ∧ t.dev.locmem = s.dev.locmem) := by
  have hnext := exit_next hk
  rw [wave?_exitDev hk] at hnext
  refine ⟨_, hnext, fun w hw hid u x hx hu => ?_, ?_⟩
  · have hview : exitView (if (k.wave.modStrands k.gang fun _ x => leaves x).live then exitDev s k
        else (exitDev s k).waveGone (k.wave.modStrands k.gang fun _ x => leaves x) k.block) = exitView (exitDev s k) :=
      (Sound.ite (.refl _) (.waveGone _ _ _)).exits
    have hv := List.mem_map_of_mem (f := waveView) hw
    have hleft := gangLeft_exitDev s k (waveView w) (hview ▸ hv) hid u (x.exited, x.gang)
      (by rw [waveView, List.getElem?_map, hx]; rfl) hu
    exact ⟨congrArg Prod.fst hleft, congrArg Prod.snd hleft⟩
  · rintro ⟨u, x, hx, hu, hlive⟩
    simp only [live_of_stays hx hu hlive, if_true]
    exact ⟨waves_exitDev s k, rfl, rfl, rfl, rfl⟩

theorem trigger_claim {s : State} {k : Issue} (hk : s.dev.issuer? = some k) :
    ∃ t, exec .trigger s = .next t ∧
      t.dev.waves = (gangStep s k fun _ x => passed 2 { x with triggered := true }).dev.waves ∧
      t.dev.memops = s.dev.memops ∧ t.dev.jobs = s.dev.jobs ∧ t.dev.mem = s.dev.mem ∧ t.dev.locmem = s.dev.locmem := by
  have hnext : exec .trigger s = .next { s with dev := (Dev.onGang (Dev.noteTrigger { s.dev with latch := none } k.wave k.gang)
      k fun _ x => { x with triggered := true }).advance k 2 } := by
    have hexec : exec .trigger s = execTrigger s := rfl
    rw [hexec, execTrigger, andNext_next s k 2 _ hk]
  rw [Dev.advance, onGang_onGang] at hnext
  refine ⟨_, hnext, ?_, rfl, rfl, rfl, rfl⟩
  have hwaves := congrArg (fun s : State => s.dev.waves) (onGang_eq s k fun _ x => passed 2 { x with triggered := true })
  exact hwaves

/-- The gangs that a `yield` of the issuing gang notes. -/
def notedGangs (s : State) (k : Issue) : List GangRef :=
  Dev.noteGangs { s.dev with latch := none } k.core (k.wave.port.getD 0) k.wave.id k.gang

/-- A wait of a `yield` that has begun. -/
def inYield (x : Waiting) : Bool := match x.what with | .yield _ => true | _ => false

theorem execYield_eq (s : State) :
    execYield s = issue s fun k d =>
      let noted := if k.low.waiting.any inYield then [] else d.noteGangs k.core (k.wave.port.getD 0) k.wave.id k.gang
      if noted.isEmpty then d.advance k 2 else d.stall k (.yield noted) := rfl

theorem yield_next {s : State} {k : Issue} (hk : s.dev.issuer? = some k)
    (hbegins : ∀ since l, k.low.waiting ≠ some ⟨since, .yield l⟩) :
    exec .yield s = .next (after s fun d =>
      if (notedGangs s k).isEmpty then d.advance k 2 else d.stall k (.yield (notedGangs s k))) := by
  have hexec : exec .yield s = execYield s := rfl
  have hwaited : ¬ k.low.waiting.any inYield = true := by
    rw [Option.any_eq_true]
    rintro ⟨⟨since, what⟩, hw, hin⟩
    cases what with
    | yield l => exact hbegins since l hw
    | _ => cases hin
  rw [hexec, execYield_eq, issue_next s k _ hk]
  simp only [hwaited]
  rfl

/-- Settles O12: `regang` by its conditions, `exit` and `trigger` by what they do to the gang, `yield` by what it notes. -/
theorem gangControls : Obligations.GangControls := by
  unfold Obligations.GangControls
  refine ⟨fun s k hk => ⟨regang_next hk fun d => if_pos rfl, regang_claim hk, exit_claim hk, trigger_claim hk⟩,
    fun s k hk hbegins => ?_⟩
  intro noted
  rw [yield_next hk hbegins]
  constructor
  · intro hnone
    have hempty : noted.isEmpty = true := List.isEmpty_iff.mpr hnone
    refine congrArg Host.Outcome.next (Eq.trans ?_ (onGang_eq s k _))
    exact congrArg (fun d => ({ s with dev := d } : State)) (if_pos hempty)
  · intro hsome
    have hempty : ¬ noted.isEmpty = true := fun h => hsome (List.isEmpty_iff.mp h)
    refine congrArg Host.Outcome.next (Eq.trans ?_ (stays_eq_stall s k (.yield noted)))
    exact congrArg (fun d => ({ s with dev := d } : State)) (if_neg hempty)

end Sys2Proof.Proofs
end

section
/-!
PROOFS. Lane sources and the cross-lane instructions (01: R10, R14, R25; 05: R146, R147, R168 to R174).
-/

open Sys2Proof Sys2Proof.Machine Sys2Proof.Claims

namespace Sys2Proof.Proofs

/-! ## Active lanes, sources and writes (R10, R25, R146, R147) -/

theorem getLsbD_active (k : Issue) (g : Guard) {l : Nat} (hl : l < 32) : (k.active g).getLsbD l = activeLane k g l := by
  rw [Issue.active, activeLane, BitVec.getLsbD_and, BitVec.getLsbD_and, getLsbD_lanes k hl]
  cases g.inv
  · simp
  · simp [hl]

theorem source_of_none {d : Dev} {k : Issue} {v l : Nat} (h : d.newLane k.wave.id v l = none) :
    d.source k v l = k.wave.lane (BitVec.ofNat 8 v) l := by
  rw [Dev.source, h]

theorem source_of_some {d : Dev} {k : Issue} {v l : Nat} {x : Lane} (h : d.newLane k.wave.id v l = some x) :
    d.source k v l = x ∨ d.source k v l = k.wave.lane (BitVec.ofNat 8 v) l := by
  rw [Dev.source, h]
  dsimp only
  split
  · exact .inl rfl
  · exact .inr rfl

theorem putLanes_get (act : LaneMask) (d : Nat) (f : Nat → Lane) {v : List LaneVec} {r l : Nat} {x : LaneVec} {old : Lane}
    (hx : v[r]? = some x) (hold : x[l]? = some old) :
    ((putLanes act d [f] v)[r]?).bind (·[l]?) = some (if r = d ∧ act.getLsbD l = true then f l else old) := by
  rw [putLanes, putLanes, List.getElem?_modify]
  by_cases hr : d = r
  · simp [hr, hx, hold]
  · have hrd : ¬ r = d := fun h => hr h.symm
    simp [hr, hrd, hx, hold]

/-! ## The window (R14) -/

theorem not_inWindow_iff {k : Issue} {regs : List Nat} : k.inWindow regs = false ↔ ∃ r ∈ regs, k.wave.v.length ≤ r := by
  simp [Issue.inWindow]

theorem laneInstr_beyond {s : State} {k : Issue} {len : Nat} {regs : List Nat} {g : Guard} {f : LaneView → Wave → Wave}
    (hk : s.dev.issuer? = some k) (hbad : ∃ r ∈ regs, k.wave.v.length ≤ r) :
    laneInstr s len regs g f = .next (after s fun x => x.trap k cRegrange) :=
  laneInstr_trap s k len regs g f hk (not_inWindow_iff.mpr hbad)

theorem laneOp_beyond {s : State} {k : Issue} {regs : List Nat} {g : Guard} {ld glob : Bool}
    {places : Dev → Issue → LaneMask → LanePlaces} {n : Nat} {kind : MemKind} {data : Dev → Issue → Nat → List Byte} {plain : Bool}
    (hk : s.dev.issuer? = some k) (hbad : ∃ r ∈ regs, k.wave.v.length ≤ r) :
    laneOp s regs g ld glob places n kind data plain = .next (after s fun x => x.trap k cRegrange) := by
  rw [laneOp, issue_next s k _ hk]
  simp only [not_inWindow_iff.mpr hbad, Bool.not_false, if_true]
  rfl

theorem spill_beyond {s : State} {k : Issue} {d : VReg} {n : BitVec 8} (hk : s.dev.issuer? = some k)
    (hbad : ∃ r ∈ [d.toNat], k.wave.v.length ≤ r) : exec (.spill d n) s = .next (after s fun x => x.trap k cRegrange) := by
  have hexec : exec (.spill d n) s = execSpill d n s := rfl
  rw [hexec, execSpill, issue_next s k _ hk]
  simp only [not_inWindow_iff.mpr hbad, Bool.not_false, if_true]
  rfl

theorem fill_beyond {s : State} {k : Issue} {d : VReg} {n : BitVec 8} (hk : s.dev.issuer? = some k)
    (hbad : ∃ r ∈ [d.toNat], k.wave.v.length ≤ r) : exec (.fill d n) s = .next (after s fun x => x.trap k cRegrange) := by
  have hexec : exec (.fill d n) s = execFill d n s := rfl
  rw [hexec, execFill, issue_next s k _ hk]
  simp only [not_inWindow_iff.mpr hbad, Bool.not_false, if_true]
  rfl

theorem lane1_beyond {s : State} {k : Issue} {g : Guard} {d a : VReg} {f : Lane → Lane} (hk : s.dev.issuer? = some k)
    (hbad : ∃ r ∈ [d.toNat, a.toNat], k.wave.v.length ≤ r) :
    lane1 s g d a f = .next (after s fun x => x.trap k cRegrange) :=
  laneInstr_beyond hk hbad

theorem lane2_beyond {s : State} {k : Issue} {g : Guard} {d a b : VReg} {f : Lane → Lane → Lane} (hk : s.dev.issuer? = some k)
    (hbad : ∃ r ∈ [d.toNat, a.toNat, b.toNat], k.wave.v.length ≤ r) :
    lane2 s g d a b f = .next (after s fun x => x.trap k cRegrange) :=
  laneInstr_beyond hk hbad

theorem lane3_beyond {s : State} {k : Issue} {g : Guard} {d a b c : VReg} {f : Lane → Lane → Lane → Lane}
    (hk : s.dev.issuer? = some k) (hbad : ∃ r ∈ [d.toNat, a.toNat, b.toNat, c.toNat], k.wave.v.length ≤ r) :
    lane3 s g d a b c f = .next (after s fun x => x.trap k cRegrange) :=
  laneInstr_beyond hk hbad

theorem crossLane_beyond {s : State} {k : Issue} {regs : List Nat} {g : Guard} {d : VReg} {f : LaneView → Nat → Lane}
    (hk : s.dev.issuer? = some k) (hbad : ∃ r ∈ regs, k.wave.v.length ≤ r) :
    crossLane s regs g d f = .next (after s fun x => x.trap k cRegrange) :=
  laneInstr_beyond hk hbad

theorem laneImm_beyond {s : State} {k : Issue} {g : Guard} {d a : VReg} {f : Lane → Lane} (hk : s.dev.issuer? = some k)
    (hbad : ∃ r ∈ [d.toNat, a.toNat], k.wave.v.length ≤ r) :
    laneImm s g d a f = .next (after s fun x => x.trap k cRegrange) :=
  laneInstr_beyond hk hbad

/-- A load or store of a pair without an index register names the pair. -/
theorem pair_regs {d : VReg} {m : Addr} (hm : m.ksc = 7) : vregs d 2 ++ addrRegs m = [d.toNat, d.toNat + 1] := by
  simp [vregs, addrRegs, hm, List.range_succ]

/-- Settles O17: what the definitions of active lanes, sources and writes say, and the window check of each shape. -/
theorem laneSources : Obligations.LaneSources := by
  unfold Obligations.LaneSources
  refine ⟨⟨fun k g l hl => getLsbD_active k g hl, fun s k v l _ => ⟨source_of_none, fun x => source_of_some⟩,
    fun act d f v r l x old => putLanes_get act d f⟩, ?_⟩
  intro s k g d a b c hk traps bad
  refine ⟨fun h => ⟨?_, ?_, ?_, fun i => ?_⟩, fun h => ⟨?_, fun r => ?_, fun r => ?_⟩, fun h => ⟨?_, fun r => ?_⟩, fun h => ?_,
    fun h m hm => ⟨?_, ?_⟩, fun h n => ⟨spill_beyond hk h, fill_beyond hk h⟩⟩
  · exact (show exec (.iabs g d a) s = execIabs g d a s from rfl).trans (lane1_beyond hk h)
  · exact (show exec (.fneg g d a) s = execFneg g d a s from rfl).trans (lane1_beyond hk h)
  · exact (show exec (.redAddI g d a) s = execRedAddI g d a s from rfl).trans (crossLane_beyond hk h)
  · exact (show exec (.iaddi g d a i) s = execIaddi g d a i s from rfl).trans (laneImm_beyond hk h)
  · exact (show exec (.iadd g d a b) s = execIadd g d a b s from rfl).trans (lane2_beyond hk h)
  · exact (show exec (.fadd r g d a b) s = execFadd r g d a b s from rfl).trans (lane2_beyond hk h)
  · exact (show exec (.hadd2 r g d a b) s = execHadd2 r g d a b s from rfl).trans (lane2_beyond hk h)
  · exact (show exec (.imad g d a b c) s = execImad g d a b c s from rfl).trans (lane3_beyond hk h)
  · exact (show exec (.fma r g d a b c) s = execFma r g d a b c s from rfl).trans (lane3_beyond hk h)
  · exact (show exec (.add64 g d a b) s = execAdd64 g d a b s from rfl).trans (laneInstr_beyond hk h)
  · exact (show exec (.ld .w64 g d m) s = execLd .w64 g d m s from rfl).trans
      (laneOp_beyond hk (by rw [show loadRegs .w64 = 2 from rfl, pair_regs hm]; exact h))
  · exact (show exec (.st .b64 g d m) s = execSt .b64 g d m s from rfl).trans
      (laneOp_beyond hk (by rw [show storeRegs .b64 = 2 from rfl, pair_regs hm]; exact h))

end Sys2Proof.Proofs
end

section
/-!
PROOFS. Exact values and rounding (02: R48 to R58; 05: R155, R172): the grid of a format, rounding a magnitude to it, and the
exact value of sums and products.
-/

open Sys2Proof Sys2Proof.Machine Sys2Proof.Claims

namespace Sys2Proof.Proofs

/-! ## The grid of a format: magnitudes by code (R48 to R52, R55) -/

section
variable (K : Type) [Field K] [LinearOrder K] [IsStrictOrderedRing K] (f : Fmt)

/-- The magnitude of a code on a format's grid, which goes on above the largest finite value. -/
def gridMag (n : Nat) : K :=
  if n / 2 ^ f.mb = 0 then ((n % 2 ^ f.mb : Nat) : K) * 2 ^ f.emin
  else ((2 ^ f.mb + n % 2 ^ f.mb : Nat) : K) * 2 ^ (f.emin + (n / 2 ^ f.mb - 1 : Nat))

/-- Codes count places: `k` binades above the subnormals, `h` is the significand. -/
theorem gridMag_place {k h : Nat} (hlo : 2 ^ f.mb ≤ h ∨ k = 0) (hhi : h ≤ 2 ^ (f.mb + 1)) :
    gridMag K f (k * 2 ^ f.mb + h) = (h : K) * 2 ^ (f.emin + (k : Int)) := by
  have hp : 0 < 2 ^ f.mb := Nat.two_pow_pos _
  rw [Nat.pow_succ] at hhi
  rcases lt_or_ge h (2 ^ f.mb) with hh | hh
  · obtain rfl : k = 0 := by omega
    rw [gridMag, Nat.zero_mul, Nat.zero_add, Nat.div_eq_of_lt hh, if_pos rfl, Nat.mod_eq_of_lt hh]
    simp
  · obtain ⟨g, rfl⟩ := Nat.exists_eq_add_of_le hh
    rcases Nat.lt_or_ge g (2 ^ f.mb) with hg | hg
    · have hcode : k * 2 ^ f.mb + (2 ^ f.mb + g) = g + (k + 1) * 2 ^ f.mb := by ring
      rw [gridMag, hcode, Nat.add_mul_div_right _ _ hp, Nat.add_mul_mod_self_right, Nat.div_eq_of_lt hg, Nat.mod_eq_of_lt hg]
      simp
    · obtain rfl : g = 2 ^ f.mb := by omega
      have hcode : k * 2 ^ f.mb + (2 ^ f.mb + 2 ^ f.mb) = 0 + (k + 2) * 2 ^ f.mb := by ring
      rw [gridMag, hcode, Nat.add_mul_div_right _ _ hp, Nat.add_mul_mod_self_right, Nat.zero_div, Nat.zero_mod]
      have hexp : f.emin + ((0 + (k + 2) - 1 : Nat) : Int) = f.emin + (k : Int) + 1 := by omega
      rw [if_neg (by omega), hexp, zpow_add_one₀ (by norm_num)]
      push_cast
      ring

/-- The binade and the significand of a code. -/
theorem exists_place (n : Nat) : ∃ k h, n = k * 2 ^ f.mb + h ∧ (2 ^ f.mb ≤ h ∨ k = 0) ∧ h < 2 ^ (f.mb + 1) := by
  have hp : 0 < 2 ^ f.mb := Nat.two_pow_pos _
  have hdiv := Nat.div_add_mod n (2 ^ f.mb)
  have hmod := Nat.mod_lt n hp
  rw [Nat.pow_succ]
  rcases Nat.eq_zero_or_pos (n / 2 ^ f.mb) with h0 | h0
  · exact ⟨0, n, by omega, .inr rfl, by rw [h0] at hdiv; omega⟩
  · obtain ⟨k, hk⟩ := Nat.exists_eq_add_of_le' h0
    refine ⟨k, 2 ^ f.mb + n % 2 ^ f.mb, ?_, .inl (by omega), by omega⟩
    rw [hk, Nat.mul_add, Nat.mul_one, Nat.mul_comm] at hdiv
    omega

theorem gridMag_zero : gridMag K f 0 = 0 := by
  simp [gridMag]

theorem gridMag_lt_succ (n : Nat) : gridMag K f n < gridMag K f (n + 1) := by
  obtain ⟨k, h, rfl, hlo, hhi⟩ := exists_place f n
  rw [Nat.add_assoc, gridMag_place K f hlo hhi.le, gridMag_place K f (hlo.imp (by omega) id) hhi]
  gcongr
  exact_mod_cast h.lt_succ_self

theorem gridMag_strictMono : StrictMono (gridMag K f) := strictMono_nat_of_lt_succ (gridMag_lt_succ K f)

theorem gridMag_nonneg (n : Nat) : 0 ≤ gridMag K f n :=
  (gridMag_zero K f).symm.trans_le ((gridMag_strictMono K f).monotone n.zero_le)

theorem gridMag_eq_zero_iff {n : Nat} : gridMag K f n = 0 ↔ n = 0 := by
  rw [← gridMag_zero K f, (gridMag_strictMono K f).injective.eq_iff]

end

/-! ## Rounding a magnitude to the grid (R155) -/

theorem bitLen_of_pos {m : Nat} (hm : 0 < m) : ∃ l, bitLen m = l + 1 ∧ 2 ^ l ≤ m ∧ m < 2 ^ (l + 1) :=
  ⟨m.log2, by rw [bitLen, if_neg hm.ne'], Nat.log2_self_le hm.ne', Nat.lt_log2_self⟩

section
variable {K : Type} [Field K] [LinearOrder K] [IsStrictOrderedRing K] {f : Fmt}

/-- `v` is the magnitude m × 2^e, and a little more where `sticky` says so. -/
structure Truncates (m : Nat) (e : Int) (sticky : Bool) (v : K) : Prop where
  le : (m : K) * 2 ^ e ≤ v
  lt : v < ((m + 1 : Nat) : K) * 2 ^ e
  sticky_iff : sticky = true ↔ (m : K) * 2 ^ e < v

theorem Truncates.exact (m : Nat) (e : Int) : Truncates m e false ((m : K) * 2 ^ e) where
  le := le_rfl
  lt := by gcongr; exact_mod_cast m.lt_succ_self
  sticky_iff := by simp

theorem Truncates.lt_iff {m : Nat} {e : Int} {sticky : Bool} {v : K} (h : Truncates m e sticky v) (n : Nat) :
    (n : K) * 2 ^ e < v ↔ n < m ∨ (n = m ∧ sticky = true) := by
  have hpos : (0 : K) < 2 ^ e := by positivity
  rcases Nat.lt_trichotomy n m with hn | rfl | hn
  · have hlt : (n : K) * 2 ^ e < (m : K) * 2 ^ e := by gcongr
    simp [hn, hlt.trans_le h.le]
  · simp [h.sticky_iff]
  · have hle : ((m + 1 : Nat) : K) * 2 ^ e ≤ (n : K) * 2 ^ e := by gcongr; exact_mod_cast hn
    simp [hn.not_gt, hn.ne', (h.lt.trans_le hle).le]

theorem Truncates.eq_iff {m : Nat} {e : Int} {sticky : Bool} {v : K} (h : Truncates m e sticky v) (n : Nat) :
    v = (n : K) * 2 ^ e ↔ n = m ∧ sticky = false := by
  have hpos : (0 : K) < 2 ^ e := by positivity
  constructor
  · rintro rfl
    have hle := le_of_mul_le_mul_right h.le hpos
    have hlt := lt_of_mul_lt_mul_right h.lt hpos.le
    have hnm : n = m := by
      have h1 : m ≤ n := by exact_mod_cast hle
      have h2 : n < m + 1 := by exact_mod_cast hlt
      omega
    exact ⟨hnm, by rw [← Bool.not_eq_true, h.sticky_iff, hnm, lt_self_iff_false, not_false_eq_true]; trivial⟩
  · rintro ⟨rfl, hs⟩
    exact (h.le.eq_or_lt.resolve_right fun hlt => by simp [h.sticky_iff.mpr hlt] at hs).symm

/-- Whether a magnitude between the codes `n` and `n + 1` goes to the upper one. -/
def RoundsAway (f : Fmt) (r : Rnd) (neg : Bool) (v : K) (n : Nat) : Prop :=
  match r with
  | .rne => (gridMag K f n + gridMag K f (n + 1)) / 2 < v ∨ (v = (gridMag K f n + gridMag K f (n + 1)) / 2 ∧ n % 2 = 1)
  | .rtz => False
  | .rup => neg = false ∧ gridMag K f n < v
  | .rdn => neg = true ∧ gridMag K f n < v

/-- The codes around a magnitude and the one that it rounds to. -/
structure RoundsTo (f : Fmt) (r : Rnd) (neg : Bool) (v : K) (n c : Nat) : Prop where
  floor_le : gridMag K f n ≤ v
  lt_next : v < gridMag K f (n + 1)
  away : RoundsAway f r neg v n → c = n + 1
  toward : ¬ RoundsAway f r neg v n → c = n

/-- `roundsUp` compares a remainder against the half place. -/
theorem roundsUp_iff {m h rest half : Nat} {e : Int} {sticky neg : Bool} {v : K} {n : Nat} (r : Rnd)
    (ht : Truncates m e sticky v) (hm : m = h * (2 * half) + rest) (hpar : n % 2 = h % 2)
    (hlow : gridMag K f n = ((h * (2 * half) : Nat) : K) * 2 ^ e)
    (hmid : (gridMag K f n + gridMag K f (n + 1)) / 2 = ((h * (2 * half) + half : Nat) : K) * 2 ^ e) :
    roundsUp r neg (h % 2 == 1) rest half sticky = true ↔ RoundsAway f r neg v n := by
  cases r with
  | rne =>
    simp only [roundsUp, RoundsAway, hmid, ht.lt_iff, ht.eq_iff, hm, hpar]
    cases sticky <;> simp <;> omega
  | rtz => simp [roundsUp, RoundsAway]
  | rup =>
    simp only [roundsUp, RoundsAway, hlow, ht.lt_iff, hm]
    cases sticky <;> cases neg <;> simp
    all_goals omega
  | rdn =>
    simp only [roundsUp, RoundsAway, hlow, ht.lt_iff, hm]
    cases sticky <;> cases neg <;> simp
    all_goals omega

theorem not_roundsAway_of_eq {r : Rnd} {neg : Bool} {v : K} {n : Nat} (hv : v = gridMag K f n) : ¬ RoundsAway f r neg v n := by
  have hlt := gridMag_lt_succ K f n
  have hmid : v < (gridMag K f n + gridMag K f (n + 1)) / 2 := by rw [hv]; linarith
  cases r with
  | rne => rintro (h | ⟨h, -⟩) <;> linarith
  | rtz => exact id
  | rup => exact fun h => absurd hv h.2.ne'
  | rdn => exact fun h => absurd hv h.2.ne'

/-- A magnitude on the grid is its own code. -/
theorem RoundsTo.of_eq {r : Rnd} {neg : Bool} {v : K} {n c : Nat} (hv : v = gridMag K f n) (hc : c = n) :
    RoundsTo f r neg v n c where
  floor_le := hv.ge
  lt_next := hv.trans_lt (gridMag_lt_succ K f n)
  away h := absurd h (not_roundsAway_of_eq hv)
  toward _ := hc

theorem RoundsTo.eq_of_eq {r : Rnd} {neg : Bool} {v : K} {n c j : Nat} (h : RoundsTo f r neg v n c) (hv : v = gridMag K f j) :
    c = j := by
  have hmono := gridMag_strictMono K f
  have hle : n ≤ j := hmono.le_iff_le.mp (hv ▸ h.floor_le)
  have hlt : j < n + 1 := hmono.lt_iff_lt.mp (hv ▸ h.lt_next)
  obtain rfl : n = j := by omega
  exact h.toward (not_roundsAway_of_eq hv)

/-- A significand below the smallest normal one stands at the subnormals' place, so that the code is a sum. -/
theorem code_eq_place {q : Int} {hi : Nat} (h : 2 ^ f.mb ≤ hi ∨ q = f.emin) :
    (if hi < 2 ^ f.mb then hi else (q - f.emin).toNat * 2 ^ f.mb + hi) = (q - f.emin).toNat * 2 ^ f.mb + hi := by
  rcases h with h | rfl
  · rw [if_neg h.not_gt]
  · simp

theorem emin_add_place {q : Int} (h : f.emin ≤ q) : f.emin + ((q - f.emin).toNat : Int) = q := by omega

theorem roundsTo_roundCode (hmb : 1 ≤ f.mb) (r : Rnd) (neg : Bool) {m : Nat} {e : Int} {sticky : Bool} {v : K}
    (ht : Truncates m e sticky v) (hs : sticky = true → f.mb + 1 < bitLen m) :
    ∃ n, RoundsTo f r neg v n (f.roundCode r neg m e sticky) := by
  rcases Nat.eq_zero_or_pos m with rfl | hm
  · have hst : sticky = false := by
      cases sticky
      · rfl
      · exact absurd (hs rfl) (by simp [bitLen])
    refine ⟨0, .of_eq ?_ ?_⟩
    · rw [(ht.eq_iff 0).mpr ⟨rfl, hst⟩, gridMag_zero]
      simp
    · subst hst
      cases r <;> simp [Fmt.roundCode, roundsUp]
  obtain ⟨l, hl, hlow, hhigh⟩ := bitLen_of_pos hm
  obtain ⟨q, hq⟩ : ∃ q, q = max (e + (bitLen m : Int) - (f.mb + 1 : Nat)) f.emin := ⟨_, rfl⟩
  have hqe : f.emin ≤ q := hq ▸ le_max_right _ _
  have hql : e + l ≤ q + f.mb := by have := hq ▸ le_max_left (e + (bitLen m : Int) - (f.mb + 1 : Nat)) f.emin; omega
  have hqcases : e + l = q + f.mb ∨ q = f.emin := by omega
  have hplace (h : Nat) (hn : 2 ^ f.mb ≤ h ∨ q = f.emin) (hh : h ≤ 2 ^ (f.mb + 1)) :
      gridMag K f ((q - f.emin).toNat * 2 ^ f.mb + h) = (h : K) * 2 ^ q := by
    rw [gridMag_place K f (hn.imp id (by omega)) hh, emin_add_place hqe]
  rw [Fmt.roundCode, ← hq]
  rcases le_or_gt q e with hle | hlt
  · obtain ⟨sh, hsh⟩ := Int.eq_ofNat_of_zero_le (Int.sub_nonneg.mpr hle)
    have hst : sticky = false := by
      cases sticky
      · rfl
      · exact absurd (hs rfl) (by omega)
    have hn : 2 ^ f.mb ≤ m * 2 ^ sh ∨ q = f.emin := by
      refine hqcases.imp (fun h => ?_) id
      calc 2 ^ f.mb = 2 ^ l * 2 ^ sh := by rw [← pow_add]; congr 1; omega
        _ ≤ m * 2 ^ sh := by gcongr
    have hh : m * 2 ^ sh ≤ 2 ^ (f.mb + 1) :=
      calc m * 2 ^ sh ≤ 2 ^ (l + 1) * 2 ^ sh := by gcongr
        _ = 2 ^ (l + 1 + sh) := by rw [← pow_add]
        _ ≤ 2 ^ (f.mb + 1) := Nat.pow_le_pow_right Nat.two_pos (by omega)
    refine ⟨(q - f.emin).toNat * 2 ^ f.mb + m * 2 ^ sh, .of_eq ?_ ?_⟩
    · rw [hplace _ hn hh, (ht.eq_iff m).mpr ⟨rfl, hst⟩, show e = (sh : Int) + q by omega, zpow_add₀ (by norm_num)]
      push_cast
      rw [zpow_natCast]
      ring
    · simp only [if_pos hle, hsh, Int.toNat_natCast]
      exact code_eq_place hn
  · obtain ⟨sh, hsh⟩ : ∃ sh : Nat, q = e + (sh + 1 : Nat) := ⟨(q - e).toNat - 1, by omega⟩
    obtain ⟨h, hh⟩ : ∃ h, h = m / 2 ^ (sh + 1) := ⟨_, rfl⟩
    have hdm := Nat.div_add_mod m (2 ^ (sh + 1))
    have hn : 2 ^ f.mb ≤ h ∨ q = f.emin := by
      refine hqcases.imp (fun hc => ?_) id
      rw [hh, Nat.le_div_iff_mul_le (Nat.two_pow_pos _), ← pow_add]
      exact (Nat.pow_le_pow_right Nat.two_pos (by omega)).trans hlow
    have hhi : h + 1 ≤ 2 ^ (f.mb + 1) := by
      rw [hh, Nat.succ_le_iff, Nat.div_lt_iff_lt_mul (Nat.two_pow_pos _), ← pow_add]
      exact hhigh.trans_le (Nat.pow_le_pow_right Nat.two_pos (by omega))
    have hg := hplace h hn (Nat.le_of_succ_le hhi)
    have hg' := hplace (h + 1) (hn.imp Nat.le_succ_of_le id) hhi
    rw [← Nat.add_assoc] at hg'
    have hpow : (2 : K) ^ q = 2 ^ (sh + 1) * 2 ^ e := by
      rw [hsh, add_comm, zpow_add₀ (by norm_num), zpow_natCast]
    have hval (x : Nat) : (x : K) * 2 ^ q = ((x * 2 ^ (sh + 1) : Nat) : K) * 2 ^ e := by
      rw [hpow]; push_cast; ring
    have hup := roundsUp_iff (f := f) (neg := neg) (h := h) (rest := m % 2 ^ (sh + 1)) (half := 2 ^ sh)
      (n := (q - f.emin).toNat * 2 ^ f.mb + h) r ht
      (by rw [hh, Nat.mul_comm, ← Nat.pow_succ']; exact hdm.symm)
      (by obtain ⟨b, hb⟩ := Nat.exists_eq_add_of_le' hmb
          rw [hb, Nat.pow_succ, ← Nat.mul_assoc]; omega)
      (by rw [hg, hval, Nat.pow_succ']) (by rw [hg, hg', hpow]; push_cast; ring)
    refine ⟨(q - f.emin).toNat * 2 ^ f.mb + h, hg.trans_le ?_, (ht.lt.trans_le ?_).trans_eq hg'.symm, fun ha => ?_, fun ha => ?_⟩
    · refine le_trans ?_ ht.le
      rw [hval, hh]
      gcongr
      exact Nat.div_mul_le_self m _
    · rw [hval, hh]
      gcongr
      rw [Nat.add_mul, Nat.one_mul]
      exact Nat.lt_div_mul_add (Nat.two_pow_pos _)
    all_goals
      rw [← hup] at ha
      simp only [if_neg hlt.not_ge, show (q - e).toNat = sh + 1 by omega, Nat.add_sub_cancel, ← hh, ha]
    · exact code_eq_place (hi := h + 1) (hn.imp Nat.le_succ_of_le id)
    · exact code_eq_place hn

end

section
variable {K : Type} [Field K] [LinearOrder K] [IsStrictOrderedRing K] {f : Fmt} {r : Rnd} {neg : Bool} {v : K} {n c : Nat}

omit [IsStrictOrderedRing K] in
theorem RoundsTo.eq_or_eq_succ (h : RoundsTo f r neg v n c) : c = n ∨ c = n + 1 := by
  by_cases ha : RoundsAway f r neg v n
  · exact .inr (h.away ha)
  · exact .inl (h.toward ha)

/-- A code at or below the magnitude is at most the lower of the two. -/
theorem RoundsTo.le_floor (h : RoundsTo f r neg v n c) {j : Nat} (hj : gridMag K f j ≤ v) : j ≤ n :=
  Nat.le_of_lt_succ ((gridMag_strictMono K f).lt_iff_lt.mp (hj.trans_lt h.lt_next))

theorem RoundsTo.le_of_le {j : Nat} (h : RoundsTo f r neg v n c) (hj : v ≤ gridMag K f j) : n ≤ j :=
  (gridMag_strictMono K f).le_iff_le.mp (h.floor_le.trans hj)

/-- The nearest code, a tie to the even one (R155). -/
theorem RoundsTo.nearest (h : RoundsTo f .rne neg v n c) {j : Nat} (hj : j ≠ c) :
    |v - gridMag K f c| < |v - gridMag K f j| ∨ (|v - gridMag K f c| = |v - gridMag K f j| ∧ c % 2 = 0) := by
  have hmono := (gridMag_strictMono K f).monotone
  have hlo := h.floor_le
  have hhi := h.lt_next
  have hsplit : j ≤ n ∨ n + 1 ≤ j := by omega
  by_cases ha : RoundsAway f .rne neg v n
  · obtain rfl := h.away ha
    have habs : |v - gridMag K f (n + 1)| = gridMag K f (n + 1) - v := by rw [abs_sub_comm, abs_of_pos (by linarith)]
    rcases hsplit with hjn | hjn
    · have hg := hmono hjn
      rw [habs, abs_of_nonneg (by linarith)]
      rcases ha with ha | ⟨ha, hodd⟩
      · exact .inl (by linarith)
      · rcases hg.eq_or_lt with hg | hg
        · exact .inr ⟨by linarith, by omega⟩
        · exact .inl (by linarith)
    · have hg := gridMag_strictMono K f (show n + 1 < j by omega)
      rw [habs, abs_sub_comm v, abs_of_pos (by linarith)]
      exact .inl (by linarith)
  · obtain rfl := h.toward ha
    have habs : |v - gridMag K f c| = v - gridMag K f c := abs_of_nonneg (by linarith)
    have hmid : v ≤ (gridMag K f c + gridMag K f (c + 1)) / 2 := not_lt.mp fun hlt => ha (.inl hlt)
    rcases hsplit with hjn | hjn
    · have hg := gridMag_strictMono K f (show j < c by omega)
      rw [habs, abs_of_pos (by linarith)]
      exact .inl (by linarith)
    · have hg := hmono hjn
      rw [habs, abs_sub_comm v, abs_of_pos (by linarith)]
      rcases hmid.eq_or_lt with he | hlt
      · rcases hg.eq_or_lt with hg | hg
        · exact .inr ⟨by linarith, by have : ¬ c % 2 = 1 := fun hodd => ha (.inr ⟨he, hodd⟩); omega⟩
        · exact .inl (by linarith)
      · exact .inl (by linarith)

/-- Rounding away from zero gives the lowest code at or above the magnitude. -/
theorem RoundsTo.ceil (h : RoundsTo f r neg v n c) (hr : RoundsAway f r neg v n ↔ gridMag K f n < v) :
    v ≤ gridMag K f c ∧ ∀ j, v ≤ gridMag K f j → c ≤ j := by
  rcases h.floor_le.eq_or_lt with he | hlt
  · obtain rfl := h.toward (by rw [hr, he]; exact lt_irrefl _)
    exact ⟨he.ge, fun j hj => h.le_of_le hj⟩
  · obtain rfl := h.away (hr.mpr hlt)
    refine ⟨h.lt_next.le, fun j hj => ?_⟩
    exact (gridMag_strictMono K f).lt_iff_lt.mp (hlt.trans_le hj)

/-- From half a place above a code on, a magnitude rounds beyond an odd code. -/
theorem RoundsTo.lt_iff_mid_le (h : RoundsTo f .rne neg v n c) {top : Nat} (hodd : top % 2 = 1) :
    top < c ↔ (gridMag K f top + gridMag K f (top + 1)) / 2 ≤ v := by
  have hstep := gridMag_lt_succ K f top
  constructor
  · intro hc
    rcases Nat.lt_or_ge top n with hn | hn
    · have hg := (gridMag_strictMono K f).monotone (show top + 1 ≤ n from hn)
      linarith [h.floor_le]
    · obtain rfl : n = top := by have := h.eq_or_eq_succ; omega
      by_cases ha : RoundsAway f .rne neg v n
      · exact ha.elim le_of_lt fun h => h.1.ge
      · exact absurd (h.toward ha) hc.ne'
  · intro hv
    have htop : top ≤ n := h.le_floor (by linarith)
    rcases htop.eq_or_lt with rfl | hlt
    · rw [h.away (hv.lt_or_eq.imp id fun he => ⟨he.symm, hodd⟩)]
      exact top.lt_succ_self
    · have := h.eq_or_eq_succ
      omega

end

/-! ## The IEEE formats (R48, R49, R51) -/

/-- What binary32, bfloat16 and binary16 share. -/
structure IsIeee (f : Fmt) : Prop where
  ieee : f.ieee = true
  not_e4m3 : f.e4m3 = false
  one_le_mb : 1 ≤ f.mb
  two_le_eb : 2 ≤ f.eb
  top_succ : f.top + 1 = f.infCode
  nan_lt : f.nan < 2 ^ (f.sign + 1)

theorem isIeee_fp32 : IsIeee fp32 := ⟨rfl, rfl, by decide, by decide, rfl, by decide⟩
theorem isIeee_bf16 : IsIeee bf16 := ⟨rfl, rfl, by decide, by decide, rfl, by decide⟩
theorem isIeee_fp16 : IsIeee fp16 := ⟨rfl, rfl, by decide, by decide, rfl, by decide⟩

theorem withSign_div {f : Fmt} (neg : Bool) {n : Nat} (hn : n < 2 ^ f.sign) : f.withSign neg n / 2 ^ f.sign = neg.toNat := by
  have hp := Nat.two_pow_pos f.sign
  cases neg
  · simp [Fmt.withSign, Nat.div_eq_of_lt hn]
  · simp [Fmt.withSign, Nat.add_div_left _ hp, Nat.div_eq_of_lt hn]

theorem withSign_mod {f : Fmt} (neg : Bool) {n : Nat} (hn : n < 2 ^ f.sign) : f.withSign neg n % 2 ^ f.sign = n := by
  cases neg <;> simp [Fmt.withSign, Nat.mod_eq_of_lt hn]

theorem testBit_withSign {f : Fmt} (neg : Bool) {n : Nat} (hn : n < 2 ^ f.sign) :
    (f.withSign neg n).testBit f.sign = neg := by
  rw [Nat.testBit_eq_decide_div_mod_eq, withSign_div neg hn]
  cases neg <;> rfl

theorem withSign_lt {f : Fmt} (neg : Bool) {n : Nat} (hn : n < 2 ^ f.sign) : f.withSign neg n < 2 ^ (f.sign + 1) := by
  rw [Nat.pow_succ, Fmt.withSign]
  split <;> omega

/-- Every code is a sign bit before a magnitude's code. -/
theorem eq_withSign {f : Fmt} {c : Nat} (hc : c < 2 ^ (f.sign + 1)) :
    c = f.withSign (c.testBit f.sign) (c % 2 ^ f.sign) := by
  have hdm := Nat.div_add_mod c (2 ^ f.sign)
  have hq : c / 2 ^ f.sign < 2 := by rw [Nat.div_lt_iff_lt_mul (Nat.two_pow_pos _), ← Nat.pow_succ']; exact hc
  rw [Fmt.withSign, Nat.testBit_eq_decide_div_mod_eq]
  rcases Nat.lt_succ_iff_lt_or_eq.mp hq with h | h
  · obtain h := Nat.lt_one_iff.mp h
    rw [h] at hdm ⊢
    simpa using hdm.symm
  · rw [h] at hdm ⊢
    simpa using hdm.symm

namespace IsIeee
variable {f : Fmt}

theorem infCode_lt (f : Fmt) : f.infCode < 2 ^ f.sign := by
  rw [Fmt.infCode, Fmt.sign, pow_add]
  have := Nat.two_pow_pos f.eb
  exact Nat.mul_lt_mul_of_pos_right (by omega) (Nat.two_pow_pos _)

theorem lt_of_le_top (h : IsIeee f) {n : Nat} (hn : n ≤ f.top) : n < 2 ^ f.sign := by
  have := infCode_lt f
  have := h.top_succ
  omega

theorem top_odd (h : IsIeee f) : f.top % 2 = 1 := by
  obtain ⟨b, hb⟩ := Nat.exists_eq_add_of_le' h.one_le_mb
  have ht := h.top_succ
  rw [Fmt.infCode, hb, Nat.pow_succ, ← Nat.mul_assoc] at ht
  omega

theorem decode_withSign (h : IsIeee f) (neg : Bool) {n : Nat} (hn : n < 2 ^ f.sign) :
    f.decode (f.withSign neg n) =
      if n ≤ f.top then .fin (f.gridVal neg n) else if n = f.infCode then .inf neg else .nan := by
  have hp : 0 < 2 ^ f.mb := Nat.two_pow_pos _
  have hlim : n < 2 ^ f.eb * 2 ^ f.mb := by rwa [← pow_add]
  have hdiv : n / 2 ^ f.mb < 2 ^ f.eb := (Nat.div_lt_iff_lt_mul hp).mpr hlim
  have hiff : n / 2 ^ f.mb = 2 ^ f.eb - 1 ↔ ¬ n ≤ f.top := by
    have hle : f.infCode ≤ n ↔ 2 ^ f.eb - 1 ≤ n / 2 ^ f.mb := (Nat.le_div_iff_mul_le hp).symm
    have := h.top_succ
    omega
  rw [Fmt.decode, testBit_withSign neg hn, withSign_mod neg hn]
  simp only [h.ieee, h.not_e4m3, Bool.true_and, Bool.false_and, beq_iff_eq, hiff]
  by_cases hle : n ≤ f.top
  · simp [hle]
  · have hdm := Nat.div_add_mod n (2 ^ f.mb)
    rw [hiff.mpr hle, Nat.mul_comm] at hdm
    have hzero : n % 2 ^ f.mb = 0 ↔ n = f.infCode := by rw [Fmt.infCode]; omega
    simp [hle, hzero]

theorem decode_withSign_of_le (h : IsIeee f) (neg : Bool) {n : Nat} (hn : n ≤ f.top) :
    f.decode (f.withSign neg n) = .fin (f.gridVal neg n) := by
  rw [h.decode_withSign neg (h.lt_of_le_top hn), if_pos hn]

end IsIeee

/-! ## Exact values as rationals -/

/-- The sign of a value as a factor. -/
def signFactor (neg : Bool) : ℚ := if neg then -1 else 1

theorem ratOf_eq (x : Dy) : ratOf x = signFactor x.neg * ((x.m : ℚ) * 2 ^ x.e) := mul_assoc _ _ _

theorem abs_signFactor (neg : Bool) : |signFactor neg| = 1 := by cases neg <;> simp [signFactor]

theorem signFactor_mul_self (neg : Bool) : signFactor neg * signFactor neg = 1 := by cases neg <;> simp [signFactor]

theorem signFactor_not (neg : Bool) : signFactor (!neg) = -signFactor neg := by cases neg <;> simp [signFactor]

theorem signFactor_xor (a b : Bool) : signFactor (xor a b) = signFactor a * signFactor b := by
  cases a <;> cases b <;> simp [signFactor]

theorem mag_nonneg (x : Dy) : (0 : ℚ) ≤ (x.m : ℚ) * 2 ^ x.e := by positivity

theorem abs_ratOf (x : Dy) : |ratOf x| = (x.m : ℚ) * 2 ^ x.e := by
  rw [ratOf_eq, abs_mul, abs_signFactor, one_mul, abs_of_nonneg (mag_nonneg x)]

theorem ratOf_eq_zero_iff {x : Dy} : ratOf x = 0 ↔ x.m = 0 := by
  rw [← abs_eq_zero, abs_ratOf, mul_eq_zero, or_iff_left (by positivity), Nat.cast_eq_zero]

theorem ratOf_eq_signFactor_mul_abs (x : Dy) : ratOf x = signFactor x.neg * |ratOf x| := by rw [abs_ratOf, ratOf_eq]

theorem neg_eq_decide {x : Dy} (hx : ratOf x ≠ 0) : x.neg = decide (ratOf x < 0) := by
  have hpos : 0 < |ratOf x| := abs_pos.mpr hx
  rw [ratOf_eq_signFactor_mul_abs]
  cases x.neg <;> simp [signFactor, hx]

theorem ratOf_gridVal (f : Fmt) (neg : Bool) (n : Nat) : ratOf (f.gridVal neg n) = signFactor neg * gridMag ℚ f n := by
  rw [ratOf_eq, Fmt.gridVal, gridMag]
  split <;> rfl

theorem neg_gridVal (f : Fmt) (neg : Bool) (n : Nat) : (f.gridVal neg n).neg = neg := by
  rw [Fmt.gridVal]
  split <;> rfl

namespace IsIeee
variable {f : Fmt}

theorem holds_withSign (h : IsIeee f) (neg : Bool) {n : Nat} (hn : n ≤ f.top) :
    Holds f (f.withSign neg n) (signFactor neg * gridMag ℚ f n) :=
  ⟨_, h.decode_withSign_of_le neg hn, ratOf_gridVal f neg n⟩

/-- The finite values of a format are the signed magnitudes up to the largest. -/
theorem exists_of_decode_fin (h : IsIeee f) {c : Nat} (hc : c < 2 ^ (f.sign + 1)) {x : Dy} (hx : f.decode c = .fin x) :
    ∃ neg n, n ≤ f.top ∧ c = f.withSign neg n ∧ x = f.gridVal neg n := by
  have hmod : c % 2 ^ f.sign < 2 ^ f.sign := Nat.mod_lt _ (Nat.two_pow_pos _)
  refine ⟨c.testBit f.sign, c % 2 ^ f.sign, ?_⟩
  rw [eq_withSign hc, h.decode_withSign _ hmod] at hx
  split at hx
  next hn => exact ⟨hn, eq_withSign hc, (Fp.fin.inj hx).symm⟩
  next => split at hx <;> simp at hx

theorem held_iff (h : IsIeee f) {z : ℚ} : Held f z ↔ ∃ neg n, n ≤ f.top ∧ z = signFactor neg * gridMag ℚ f n := by
  constructor
  · rintro ⟨c, hc, x, hx, rfl⟩
    obtain ⟨neg, n, hn, -, rfl⟩ := h.exists_of_decode_fin hc hx
    exact ⟨neg, n, hn, ratOf_gridVal f neg n⟩
  · rintro ⟨neg, n, hn, rfl⟩
    exact ⟨_, withSign_lt neg (h.lt_of_le_top hn), h.holds_withSign neg hn⟩

/-! ### The largest finite value -/

theorem top_eq_place (h : IsIeee f) : f.top = (2 ^ f.eb - 3) * 2 ^ f.mb + (2 ^ (f.mb + 1) - 1) := by
  have ht := h.top_succ
  have h4 : 2 ^ 2 ≤ 2 ^ f.eb := Nat.pow_le_pow_right Nat.two_pos h.two_le_eb
  obtain ⟨b, hb⟩ := Nat.exists_eq_add_of_le' h4
  have hp := Nat.two_pow_pos f.mb
  rw [Fmt.infCode, hb, show b + 2 ^ 2 - 1 = b + 1 + 2 by rfl, Nat.add_mul] at ht
  rw [hb, show b + 2 ^ 2 - 3 = b + 1 by rfl, Nat.pow_succ]
  omega

theorem emin_add_top (h : IsIeee f) : f.emin + ((2 ^ f.eb - 3 : Nat) : Int) = 2 ^ f.eb - 2 - f.bias - f.mb := by
  have h4 : 2 ^ 2 ≤ 2 ^ f.eb := Nat.pow_le_pow_right Nat.two_pos h.two_le_eb
  have hcast : ((2 ^ f.eb : Nat) : Int) = 2 ^ f.eb := by push_cast; rfl
  rw [Fmt.emin, ← hcast]
  omega

theorem gridMag_top (h : IsIeee f) :
    gridMag ℚ f f.top = (2 ^ (f.mb + 1) - 1 : ℚ) * (2 : ℚ) ^ (2 ^ f.eb - 2 - f.bias - f.mb : Int) := by
  have hp := Nat.two_pow_pos f.mb
  rw [h.top_eq_place, gridMag_place ℚ f (.inl (by rw [Nat.pow_succ]; omega)) (by omega), h.emin_add_top,
    Nat.cast_sub Nat.one_le_two_pow]
  push_cast
  rfl

theorem mid_top (h : IsIeee f) : (gridMag ℚ f f.top + gridMag ℚ f (f.top + 1)) / 2 =
    gridMag ℚ f f.top + (2 : ℚ) ^ (2 ^ f.eb - 2 - f.bias - f.mb - 1 : Int) := by
  have hp := Nat.two_pow_pos f.mb
  have hsucc : gridMag ℚ f (f.top + 1) = (2 ^ (f.mb + 1) : ℚ) * (2 : ℚ) ^ (2 ^ f.eb - 2 - f.bias - f.mb : Int) := by
    rw [h.top_eq_place, Nat.add_assoc, Nat.sub_add_cancel Nat.one_le_two_pow,
      gridMag_place ℚ f (.inl (by rw [Nat.pow_succ]; omega)) le_rfl, h.emin_add_top]
    push_cast
    rfl
  rw [hsucc, h.gridMag_top, zpow_sub_one₀ (by norm_num)]
  ring

end IsIeee

/-! ## The rounded result of an operation (R155, Table 0-5) -/

section
variable {f : Fmt} {neg : Bool} {w : ℚ} {n c : Nat}

theorem abs_signFactor_mul_sub (neg : Bool) (a b : ℚ) : |signFactor neg * a - signFactor neg * b| = |a - b| := by
  rw [← mul_sub, abs_mul, abs_signFactor, one_mul]

theorem abs_signFactor_mul_gridMag (f : Fmt) (neg : Bool) (j : Nat) : |signFactor neg * gridMag ℚ f j| = gridMag ℚ f j := by
  rw [abs_mul, abs_signFactor, one_mul, abs_of_nonneg (gridMag_nonneg ℚ f j)]

theorem signFactor_mul_eq_abs (v : ℚ) : signFactor (decide (v < 0)) * v = |v| := by
  by_cases hv : v < 0
  · simp [signFactor, hv, abs_of_neg hv]
  · simp [signFactor, hv, abs_of_nonneg (not_lt.mp hv)]

theorem signFactor_mul_cancel (s : Bool) (a : ℚ) : signFactor s * (signFactor s * a) = a := by
  rw [← mul_assoc, signFactor_mul_self, one_mul]

theorem eq_signFactor_mul_abs (v : ℚ) : v = signFactor (decide (v < 0)) * |v| := by
  rw [← signFactor_mul_eq_abs, signFactor_mul_cancel]

/-- The nearest code of the grid is nearest among the values of either sign. -/
theorem RoundsTo.nearest_signed (h : RoundsTo f .rne neg w n c) (hw : 0 ≤ w) (s t : Bool) (j : Nat)
    (hne : signFactor t * gridMag ℚ f j ≠ signFactor s * gridMag ℚ f c) :
    |signFactor s * w - signFactor s * gridMag ℚ f c| < |signFactor s * w - signFactor t * gridMag ℚ f j| ∨
      (|signFactor s * w - signFactor s * gridMag ℚ f c| = |signFactor s * w - signFactor t * gridMag ℚ f j| ∧ c % 2 = 0) := by
  rw [abs_signFactor_mul_sub]
  by_cases hts : t = s
  · subst hts
    rw [abs_signFactor_mul_sub]
    exact h.nearest fun hj => hne (by rw [hj])
  · obtain rfl : t = !s := by cases s <;> cases t <;> simp_all
    have hfar : |signFactor s * w - signFactor (!s) * gridMag ℚ f j| = w + gridMag ℚ f j := by
      rw [signFactor_not, neg_mul, sub_neg_eq_add, ← mul_add, abs_mul, abs_signFactor, one_mul,
        abs_of_nonneg (add_nonneg hw (gridMag_nonneg ℚ f j))]
    have hgj := gridMag_nonneg ℚ f j
    rw [hfar]
    by_cases hc : c = 0
    · subst hc
      have hj : 0 < gridMag ℚ f j := by
        refine hgj.lt_of_ne fun h0 => hne ?_
        rw [← h0, gridMag_zero, mul_zero, mul_zero]
      rw [gridMag_zero, sub_zero, abs_of_nonneg hw]
      exact .inl (by linarith)
    · have h0 := h.nearest (j := 0) (fun h => hc h.symm)
      rw [gridMag_zero, sub_zero, abs_of_nonneg hw] at h0
      rcases h0 with h0 | ⟨h0, hev⟩
      · exact .inl (by linarith)
      · rcases hgj.eq_or_lt with hj | hj
        · exact .inr ⟨by linarith, hev⟩
        · exact .inl (by linarith)

end

section
variable {f : Fmt} (hf : IsIeee f) {r : Rnd} {w : ℚ} {neg : Bool} {n c : Nat}
include hf

theorem IsIeee.withSign_mod_two (c : Nat) : f.withSign neg c % 2 = c % 2 := by
  have hs : 2 ^ f.sign % 2 = 0 := by
    obtain ⟨b, hb⟩ := Nat.exists_eq_add_of_le' (show 1 ≤ f.sign from hf.one_le_mb.trans (Nat.le_add_left _ _))
    rw [hb, Nat.pow_succ, Nat.mul_mod_left]
  rw [Fmt.withSign]
  split <;> omega

/-- Rounding toward zero stops at the largest finite value. -/
theorem IsIeee.holds_toward (h : RoundsTo f r neg w n n) :
    ∃ m, m ≤ f.top ∧ (if f.top < n then f.over neg .max else f.withSign neg n) = f.withSign neg m ∧
      Holds f (f.withSign neg m) (signFactor neg * gridMag ℚ f m) ∧ gridMag ℚ f m ≤ w ∧
      ∀ j ≤ f.top, gridMag ℚ f j ≤ w → gridMag ℚ f j ≤ gridMag ℚ f m := by
  have hmono := (gridMag_strictMono ℚ f).monotone
  refine ⟨min n f.top, min_le_right _ _, ?_, hf.holds_withSign neg (min_le_right _ _),
    (hmono (min_le_left _ _)).trans h.floor_le, fun j hj hjw => hmono (le_min (h.le_floor hjw) hj)⟩
  split
  next hlt => rw [min_eq_right hlt.le]; rfl
  next hge => rw [min_eq_left (not_lt.mp hge)]

/-- Rounding away from zero goes to infinity beyond the largest finite value. -/
theorem IsIeee.holds_away (hup : w ≤ gridMag ℚ f c) (hleast : ∀ j, w ≤ gridMag ℚ f j → c ≤ j) :
    (if f.top < c then f.over neg .inf else f.withSign neg c) = f.withSign neg (if gridMag ℚ f f.top < w then f.infCode else c) ∧
      (¬ gridMag ℚ f f.top < w → Holds f (f.withSign neg c) (signFactor neg * gridMag ℚ f c)) := by
  have hmono := (gridMag_strictMono ℚ f).monotone
  have hiff : f.top < c ↔ gridMag ℚ f f.top < w := by
    constructor
    · exact fun hlt => not_le.mp fun hw => hlt.not_ge (hleast _ hw)
    · exact fun hlt => not_le.mp fun hc => (hlt.trans_le hup).not_ge (hmono hc)
  simp only [hiff]
  refine ⟨by split <;> rfl, fun h => hf.holds_withSign neg ?_⟩
  rw [← hiff] at h
  exact not_lt.mp h

end

section
variable {f : Fmt} (hf : IsIeee f) {r : Rnd} {v w : ℚ} {n c : Nat}
include hf

omit hf in
theorem IsIeee.withSign_div_sign (v : ℚ) {m : Nat} (hm : m ≤ f.infCode) :
    f.withSign (decide (v < 0)) m / 2 ^ f.sign = if v < 0 then 1 else 0 := by
  rw [withSign_div _ (hm.trans_lt (IsIeee.infCode_lt f))]
  by_cases h : v < 0 <;> simp [h]

theorem IsIeee.le_infCode {m : Nat} (hm : m ≤ f.top) : m ≤ f.infCode := hm.trans (hf.top_succ ▸ Nat.le_succ _)

theorem IsIeee.rounds_rne (h : RoundsTo f .rne (decide (v < 0)) |v| n c) :
    Rounds f .rne v (if f.top < c then f.over (decide (v < 0)) .inf else f.withSign (decide (v < 0)) c) := by
  have hiff := h.lt_iff_mid_le hf.top_odd
  rw [hf.mid_top, hf.gridMag_top] at hiff
  rw [Rounds]
  by_cases hc : f.top < c
  · simp only [if_pos hc, if_pos (hiff.mp hc)]
    exact ⟨IsIeee.withSign_div_sign v le_rfl, rfl⟩
  · simp only [if_neg hc, if_neg (hiff.not.mp hc)]
    have hle := not_lt.mp hc
    refine ⟨IsIeee.withSign_div_sign v (hf.le_infCode hle), _, hf.holds_withSign _ hle, fun z hz hne => ?_⟩
    obtain ⟨t, j, -, rfl⟩ := hf.held_iff.mp hz
    have := h.nearest_signed (abs_nonneg v) (decide (v < 0)) t j hne
    rwa [← eq_signFactor_mul_abs, ← hf.withSign_mod_two (neg := decide (v < 0)) c] at this

theorem IsIeee.rounds_rtz (h : RoundsTo f .rtz (decide (v < 0)) |v| n c) :
    Rounds f .rtz v (if f.top < c then f.over (decide (v < 0)) .max else f.withSign (decide (v < 0)) c) := by
  obtain rfl := h.toward id
  obtain ⟨m, hm, heq, hold, hle, hmax⟩ := hf.holds_toward h
  rw [heq]
  refine ⟨IsIeee.withSign_div_sign v (hf.le_infCode hm), _, hold, ?_, ?_, fun z hz _ hzv => ?_⟩
  · rwa [abs_signFactor_mul_gridMag]
  · rw [mul_right_comm, signFactor_mul_eq_abs]
    exact mul_nonneg (abs_nonneg v) (gridMag_nonneg ℚ f m)
  · obtain ⟨t, j, hj, rfl⟩ := hf.held_iff.mp hz
    rw [abs_signFactor_mul_gridMag] at hzv ⊢
    rw [abs_signFactor_mul_gridMag]
    exact hmax j hj hzv

/-- The directed modes where they go toward zero: the result is the last value before the exact one. -/
theorem IsIeee.directed_toward {s : Bool} (h : RoundsTo f r s w n c) (hno : ¬ RoundsAway f r s w n) :
    ∃ m ≤ f.top, (if f.top < c then f.over s .max else f.withSign s c) = f.withSign s m ∧
      ∃ y, Holds f (f.withSign s m) y ∧ signFactor s * y ≤ w ∧
        ∀ z, Held f z → signFactor s * z ≤ w → signFactor s * z ≤ signFactor s * y := by
  obtain rfl := h.toward hno
  obtain ⟨m, hm, heq, hold, hle, hmax⟩ := hf.holds_toward h
  refine ⟨m, hm, heq, _, hold, ?_, fun z hz hzw => ?_⟩
  · rwa [signFactor_mul_cancel]
  obtain ⟨t, j, hj, rfl⟩ := hf.held_iff.mp hz
  rw [signFactor_mul_cancel]
  by_cases hts : t = s
  · subst hts
    rw [signFactor_mul_cancel] at hzw ⊢
    exact hmax j hj hzw
  · obtain rfl : t = !s := by cases s <;> cases t <;> simp_all
    rw [signFactor_not, neg_mul, mul_neg, signFactor_mul_cancel]
    linarith [gridMag_nonneg ℚ f j, gridMag_nonneg ℚ f m]

/-- The directed modes where they go away from zero: the result is the first value from the exact one on, or infinity. -/
theorem IsIeee.directed_away {s : Bool} (hw : 0 ≤ w) (h : RoundsTo f r s w n c)
    (hr : RoundsAway f r s w n ↔ gridMag ℚ f n < w) :
    (if f.top < c then f.over s .inf else f.withSign s c) = f.withSign s (if gridMag ℚ f f.top < w then f.infCode else c) ∧
      (¬ gridMag ℚ f f.top < w → c ≤ f.top ∧ ∃ y, Holds f (f.withSign s c) y ∧ w ≤ signFactor s * y ∧
        ∀ z, Held f z → w ≤ signFactor s * z → signFactor s * y ≤ signFactor s * z) := by
  have hmono := (gridMag_strictMono ℚ f).monotone
  obtain ⟨hup, hleast⟩ := h.ceil hr
  obtain ⟨heq, hold⟩ := hf.holds_away (neg := s) hup hleast
  refine ⟨heq, fun hle => ⟨hleast _ (not_lt.mp hle), _, hold hle, ?_, fun z hz hzw => ?_⟩⟩
  · rwa [signFactor_mul_cancel]
  obtain ⟨t, j, -, rfl⟩ := hf.held_iff.mp hz
  rw [signFactor_mul_cancel]
  by_cases hts : t = s
  · subst hts
    rw [signFactor_mul_cancel] at hzw ⊢
    exact hmono (hleast j hzw)
  · obtain rfl : t = !s := by cases s <;> cases t <;> simp_all
    rw [signFactor_not, neg_mul, mul_neg, signFactor_mul_cancel] at hzw ⊢
    have hj := gridMag_nonneg ℚ f j
    have h0 := hmono (hleast 0 (by rw [gridMag_zero]; linarith))
    rw [gridMag_zero] at h0
    linarith

theorem IsIeee.rounds_rdn (h : RoundsTo f .rdn (decide (v < 0)) |v| n c) :
    Rounds f .rdn v (if f.top < c then f.over (decide (v < 0)) (overOf .rdn (decide (v < 0)))
      else f.withSign (decide (v < 0)) c) := by
  have htop := gridMag_nonneg ℚ f f.top
  have hsign {m : Nat} (hm : m ≤ f.infCode) := IsIeee.withSign_div_sign v hm
  rw [Rounds, ← hf.gridMag_top]
  by_cases hv : v < 0
  · simp only [hv, decide_true, abs_of_neg hv, if_true] at h hsign ⊢
    obtain ⟨heq, hold⟩ := hf.directed_away (neg_nonneg.mpr hv.le) h (by simp [RoundsAway])
    rw [show overOf .rdn true = .inf from rfl, heq]
    by_cases hbig : gridMag ℚ f f.top < -v
    · simp only [if_pos hbig, if_pos (lt_neg_of_lt_neg hbig)]
      exact ⟨hsign le_rfl, trivial⟩
    · obtain ⟨hc, y, hy, hvy, hleast⟩ := hold hbig
      simp only [if_neg hbig, if_neg (show ¬ v < -gridMag ℚ f f.top from fun hlt => hbig (lt_neg_of_lt_neg hlt))]
      simp only [signFactor, if_true, neg_one_mul, neg_le_neg_iff] at hvy hleast
      exact ⟨hsign (hf.le_infCode hc), y, hy, hvy, hleast⟩
  · simp only [hv, decide_false, abs_of_nonneg (not_lt.mp hv), if_false] at h hsign ⊢
    obtain ⟨m, hm, heq, y, hy, hyv, hmost⟩ := hf.directed_toward h (by simp [RoundsAway])
    have hin : ¬ v < -gridMag ℚ f f.top := by linarith [not_lt.mp hv]
    simp only [show overOf .rdn false = .max from rfl, heq, if_neg hin]
    simp only [signFactor, Bool.false_eq_true, if_false, one_mul] at hyv hmost
    exact ⟨hsign (hf.le_infCode hm), y, hy, hyv, hmost⟩

theorem IsIeee.rounds_rup (h : RoundsTo f .rup (decide (v < 0)) |v| n c) :
    Rounds f .rup v (if f.top < c then f.over (decide (v < 0)) (overOf .rup (decide (v < 0)))
      else f.withSign (decide (v < 0)) c) := by
  have htop := gridMag_nonneg ℚ f f.top
  have hsign {m : Nat} (hm : m ≤ f.infCode) := IsIeee.withSign_div_sign v hm
  rw [Rounds, ← hf.gridMag_top]
  by_cases hv : v < 0
  · simp only [hv, decide_true, abs_of_neg hv, if_true] at h hsign ⊢
    obtain ⟨m, hm, heq, y, hy, hyv, hmost⟩ := hf.directed_toward h (by simp [RoundsAway])
    have hin : ¬ gridMag ℚ f f.top < v := by linarith
    simp only [show overOf .rup true = .max from rfl, heq, if_neg hin]
    simp only [signFactor, if_true, neg_one_mul, neg_le_neg_iff] at hyv hmost
    exact ⟨hsign (hf.le_infCode hm), y, hy, hyv, hmost⟩
  · simp only [hv, decide_false, abs_of_nonneg (not_lt.mp hv), if_false] at h hsign ⊢
    obtain ⟨heq, hold⟩ := hf.directed_away (not_lt.mp hv) h (by simp [RoundsAway])
    rw [show overOf .rup false = .inf from rfl, heq]
    by_cases hbig : gridMag ℚ f f.top < v
    · simp only [if_pos hbig]
      exact ⟨hsign le_rfl, trivial⟩
    · obtain ⟨hc, y, hy, hvy, hleast⟩ := hold hbig
      simp only [if_neg hbig]
      simp only [signFactor, Bool.false_eq_true, if_false, one_mul] at hvy hleast
      exact ⟨hsign (hf.le_infCode hc), y, hy, hvy, hleast⟩

end

/-- What the model delivers for a nonzero exact result that it holds truncated (R155). -/
theorem IsIeee.rounds_roundTo {f : Fmt} (hf : IsIeee f) (r : Rnd) {x : Dy} {sticky : Bool} {v : ℚ}
    (hneg : x.neg = decide (v < 0)) (ht : Truncates x.m x.e sticky |v|) (hs : sticky = true → f.mb + 1 < bitLen x.m) :
    Rounds f r v (f.roundTo r x sticky (overOf r x.neg)) := by
  obtain ⟨n, hc⟩ := roundsTo_roundCode hf.one_le_mb r x.neg ht hs
  rw [Fmt.roundTo]
  generalize f.roundCode r x.neg x.m x.e sticky = c at hc ⊢
  rw [hneg] at hc ⊢
  cases r with
  | rne => exact hf.rounds_rne hc
  | rtz => exact hf.rounds_rtz hc
  | rup => exact hf.rounds_rup hc
  | rdn => exact hf.rounds_rdn hc

theorem IsIeee.rounds_round {f : Fmt} (hf : IsIeee f) (r : Rnd) {x : Dy} (hx : ratOf x ≠ 0) :
    Rounds f r (ratOf x) (f.round r x) :=
  hf.rounds_roundTo r (neg_eq_decide hx) (by rw [abs_ratOf]; exact .exact x.m x.e) nofun

/-! ## Exact sums and products -/

theorem at_mul_zpow (x : Dy) {e : Int} (he : e ≤ x.e) : (x.at e : ℚ) * 2 ^ e = ratOf x := by
  obtain ⟨n, hn⟩ := Int.eq_ofNat_of_zero_le (Int.sub_nonneg.mpr he)
  rw [Dy.at, hn, Int.toNat_natCast, ratOf, show x.e = (n : Int) + e by omega, zpow_add₀ (by norm_num), zpow_natCast]
  push_cast
  split <;> simp <;> ring

theorem ratOf_ofInt (i : Int) (e : Int) : ratOf (.ofInt i e) = i * 2 ^ e := by
  have habs : ((i.natAbs : Nat) : ℚ) = |(i : ℚ)| := by rw [Nat.cast_natAbs, Int.cast_abs]
  rw [ratOf, Dy.ofInt, habs]
  by_cases hi : i < 0
  · simp [hi, abs_of_neg (show (i : ℚ) < 0 by exact_mod_cast hi)]
  · simp [hi, abs_of_nonneg (show (0 : ℚ) ≤ i by exact_mod_cast not_lt.mp hi)]

@[simp] theorem ratOf_add (x y : Dy) : ratOf (x.add y) = ratOf x + ratOf y := by
  rw [Dy.add, ratOf_ofInt, Int.cast_add, add_mul, at_mul_zpow x (min_le_left _ _), at_mul_zpow y (min_le_right _ _)]

@[simp] theorem ratOf_mul (x y : Dy) : ratOf (x.mul y) = ratOf x * ratOf y := by
  rw [ratOf_eq, ratOf_eq, ratOf_eq, Dy.mul, signFactor_xor, zpow_add₀ (by norm_num), Nat.cast_mul]
  ring

@[simp] theorem ratOf_neg_ (x : Dy) : ratOf x.neg_ = -ratOf x := by
  rw [ratOf_eq, ratOf_eq, Dy.neg_, signFactor_not, neg_mul]

theorem foldl_min_le (l : List Dy) (e : Int) :
    l.foldl (fun e x => min e x.e) e ≤ e ∧ ∀ x ∈ l, l.foldl (fun e x => min e x.e) e ≤ x.e := by
  induction l generalizing e with
  | nil => simp
  | cons y l ih =>
    obtain ⟨h1, h2⟩ := ih (min e y.e)
    refine ⟨h1.trans (min_le_left _ _), fun x hx => ?_⟩
    rcases List.mem_cons.mp hx with rfl | hx
    · exact h1.trans (min_le_right _ _)
    · exact h2 x hx

theorem foldl_at_mul_zpow (l : List Dy) {e : Int} (he : ∀ x ∈ l, e ≤ x.e) (s : Int) :
    ((l.foldl (fun s x => s + x.at e) s : Int) : ℚ) * 2 ^ e = s * 2 ^ e + (l.map ratOf).sum := by
  induction l generalizing s with
  | nil => simp
  | cons y l ih =>
    obtain ⟨hy, hl⟩ := List.forall_mem_cons.mp he
    rw [List.foldl_cons, ih hl, Int.cast_add, add_mul, at_mul_zpow y hy, List.map_cons, List.sum_cons, add_assoc]

@[simp] theorem ratOf_sum (l : List Dy) : ratOf (Dy.sum l) = (l.map ratOf).sum := by
  rw [Dy.sum, ratOf_ofInt, foldl_at_mul_zpow l (foldl_min_le l 0).2]
  simp

theorem lt_iff_ratOf_lt (x y : Dy) : x.lt y = true ↔ ratOf x < ratOf y := by
  rw [Dy.lt, decide_eq_true_eq, ← at_mul_zpow x (min_le_left x.e y.e), ← at_mul_zpow y (min_le_right x.e y.e),
    mul_lt_mul_iff_left₀ (by positivity)]
  exact_mod_cast Iff.rfl

/-- A quotient cut to an integer. -/
theorem truncates_div {K : Type} [Field K] [LinearOrder K] [IsStrictOrderedRing K] (a : Nat) {b : Nat} (hb : 0 < b) (e : Int) :
    Truncates (a / b) e (a % b != 0) ((a : K) / b * 2 ^ e) := by
  have hb' : (0 : K) < b := by exact_mod_cast hb
  have hdm : (a : K) = b * (a / b : Nat) + (a % b : Nat) := by exact_mod_cast (Nat.div_add_mod a b).symm
  have hsplit : (a : K) / b = (a / b : Nat) + (a % b : Nat) / b := by rw [hdm, add_div, mul_div_cancel_left₀ _ hb'.ne']
  have hlt : ((a % b : Nat) : K) / b < 1 := by rw [div_lt_one hb']; exact_mod_cast Nat.mod_lt a hb
  have hge : (0 : K) ≤ ((a % b : Nat) : K) / b := by positivity
  have hpos : (0 : K) < 2 ^ e := by positivity
  refine ⟨?_, ?_, ?_⟩
  · rw [hsplit]; gcongr; linarith
  · rw [hsplit]; push_cast; gcongr
  · rw [mul_lt_mul_iff_left₀ hpos, hsplit, lt_add_iff_pos_right, bne_iff_ne]
    constructor
    · intro h
      have : (0 : K) < (a % b : Nat) := by exact_mod_cast Nat.pos_of_ne_zero h
      positivity
    · rintro h h0
      simp [h0] at h

/-! ## The codes that rounding delivers fit their format -/

namespace IsIeee
variable {f : Fmt} (hf : IsIeee f)
include hf

theorem roundTo_lt (r : Rnd) (x : Dy) (sticky : Bool) (o : Over) : f.roundTo r x sticky o < 2 ^ (f.sign + 1) := by
  have hinf := infCode_lt f
  rw [Fmt.roundTo]
  split
  · cases o
    · exact withSign_lt _ hinf
    · exact withSign_lt _ (hf.lt_of_le_top le_rfl)
    · exact hf.nan_lt
  next h => exact withSign_lt _ (hf.lt_of_le_top (not_lt.mp h))

theorem round_lt (r : Rnd) (x : Dy) : f.round r x < 2 ^ (f.sign + 1) := hf.roundTo_lt r x false _

theorem addFp_lt (r : Rnd) (a b : Fp) : f.addFp r a b < 2 ^ (f.sign + 1) := by
  have hinf (s : Bool) := withSign_lt s (infCode_lt f)
  rw [Fmt.addFp.eq_def]
  split
  · exact hf.nan_lt
  · exact hf.nan_lt
  · split
    · exact hinf _
    · exact hf.nan_lt
  · exact hinf _
  · exact hinf _
  · dsimp only
    split
    · exact withSign_lt _ (Nat.two_pow_pos _)
    · exact hf.roundTo_lt _ _ _ _

theorem roundFp_lt (r : Rnd) (a : Fp) : f.roundFp r a < 2 ^ (f.sign + 1) := by
  cases a with
  | nan => exact hf.nan_lt
  | inf s => exact withSign_lt s (infCode_lt f)
  | fin x => exact hf.roundTo_lt _ _ _ _

end IsIeee

theorem toNat_lane32 {n : Nat} (hn : n < 2 ^ 32) : (lane32 n).toNat = n := by
  rw [lane32, BitVec.toNat_ofNat, Nat.mod_eq_of_lt hn]

/-! ## Operations on finite operands deliver the exact result, rounded once -/

theorem addFp_fin {f : Fmt} (r : Rnd) {x y : Dy} (h : ratOf x + ratOf y ≠ 0) :
    f.addFp r (.fin x) (.fin y) = f.round r (x.add y) := by
  rw [Fmt.addFp]
  exact if_neg (by rwa [← ratOf_eq_zero_iff, ratOf_add])

theorem IsIeee.rounds_addFp {f : Fmt} (hf : IsIeee f) (r : Rnd) {x y : Dy} (h : ratOf x + ratOf y ≠ 0) :
    Rounds f r (ratOf x + ratOf y) (f.addFp r (.fin x) (.fin y)) := by
  rw [addFp_fin r h, ← ratOf_add]
  exact hf.rounds_round r (by rwa [ratOf_add])

theorem IsIeee.rounds_mulFp {f : Fmt} (hf : IsIeee f) (r : Rnd) {x y : Dy} (h : ratOf x * ratOf y ≠ 0) :
    Rounds f r (ratOf x * ratOf y) (f.roundFp r (mulFp (.fin x) (.fin y))) := by
  rw [← ratOf_mul] at h ⊢
  exact hf.rounds_round r h

/-! ## Values on the grid round to themselves -/

/-- Every significand that fits, at a place not below the subnormals', is on the grid. -/
theorem exists_gridMag_eq (K : Type) [Field K] [LinearOrder K] [IsStrictOrderedRing K] (f : Fmt) {m : Nat} {e : Int}
    (hm : m < 2 ^ (f.mb + 1)) (he : f.emin ≤ e) : ∃ c, gridMag K f c = (m : K) * 2 ^ e := by
  rcases Nat.eq_zero_or_pos m with rfl | h0
  · exact ⟨0, by rw [gridMag_zero]; simp⟩
  obtain ⟨l, -, hlow, hhigh⟩ := bitLen_of_pos h0
  have hl : l ≤ f.mb := Nat.le_of_lt_succ ((Nat.pow_lt_pow_iff_right (by norm_num)).mp (hlow.trans_lt hm))
  obtain ⟨s, hs⟩ : ∃ s : Nat, s = min (f.mb - l) (e - f.emin).toNat := ⟨_, rfl⟩
  have hplace : 2 ^ f.mb ≤ m * 2 ^ s ∨ (e - f.emin).toNat - s = 0 := by
    rcases Nat.le_total (f.mb - l) (e - f.emin).toNat with h | h
    · rw [min_eq_left h] at hs
      left
      calc 2 ^ f.mb = 2 ^ l * 2 ^ s := by rw [← pow_add]; congr 1; omega
        _ ≤ m * 2 ^ s := by gcongr
    · right
      omega
  have hle : m * 2 ^ s ≤ 2 ^ (f.mb + 1) :=
    calc m * 2 ^ s ≤ 2 ^ (l + 1) * 2 ^ s := by gcongr
      _ = 2 ^ (l + 1 + s) := by rw [← pow_add]
      _ ≤ 2 ^ (f.mb + 1) := Nat.pow_le_pow_right Nat.two_pos (by omega)
  refine ⟨_, (gridMag_place K f hplace hle).trans ?_⟩
  rw [show e = (s : Int) + (f.emin + ((e - f.emin).toNat - s : Nat)) by omega, zpow_add₀ (by norm_num) (s : Int), zpow_natCast]
  have hexp : f.emin + (((s : Int) + (f.emin + ((e - f.emin).toNat - s : Nat)) - f.emin).toNat - s : Nat) =
      f.emin + ((e - f.emin).toNat - s : Nat) := by omega
  rw [hexp]
  push_cast
  ring

theorem IsIeee.roundTo_of_eq {f : Fmt} (hf : IsIeee f) (r : Rnd) (o : Over) {x : Dy} {c : Nat} (hx : |ratOf x| = gridMag ℚ f c)
    (hc : c ≤ f.top) : f.roundTo r x false o = f.withSign x.neg c := by
  obtain ⟨n, h⟩ := roundsTo_roundCode hf.one_le_mb r x.neg (Truncates.exact (K := ℚ) x.m x.e) nofun
  have hcode := h.eq_of_eq ((abs_ratOf x).symm.trans hx)
  rw [Fmt.roundTo, hcode]
  exact if_neg hc.not_gt

theorem IsIeee.round_zero {f : Fmt} (hf : IsIeee f) (r : Rnd) (neg : Bool) (e : Int) :
    f.round r ⟨neg, 0, e⟩ = f.withSign neg 0 :=
  hf.roundTo_of_eq r _ (c := 0) (by rw [abs_ratOf, gridMag_zero]; simp) (Nat.zero_le _)

theorem gridMag_top_succ (K : Type) [Field K] [LinearOrder K] [IsStrictOrderedRing K] :
    gridMag K fp32 (fp32.top + 1) = 2 ^ (128 : Int) := by
  have h := gridMag_place K fp32 (k := 253) (h := 2 ^ 24) (.inl (by decide)) le_rfl
  have hcode : fp32.top + 1 = 253 * 2 ^ fp32.mb + 2 ^ 24 := rfl
  rw [hcode, h, show fp32.emin + ((253 : Nat) : Int) = 104 by decide, show (128 : Int) = (24 : Nat) + 104 by norm_num,
    zpow_add₀ (by norm_num), zpow_natCast, Nat.cast_pow, Nat.cast_ofNat]

/-- What binary32 holds is delivered as it is. -/
theorem decode_fp32_roundTo_of_exact (r : Rnd) (o : Over) {x : Dy} (hm : x.m < 2 ^ 24) (he : -149 ≤ x.e)
    (hbig : |ratOf x| < 2 ^ (128 : Int)) :
    ∃ y, dec32 (lane32 (fp32.roundTo r x false o)) = .fin y ∧ y.neg = x.neg ∧ ratOf y = ratOf x := by
  obtain ⟨c, hc⟩ := exists_gridMag_eq ℚ fp32 hm he
  have hval := (abs_ratOf x).trans hc.symm
  have hle : c ≤ fp32.top := by
    rw [hval, ← gridMag_top_succ ℚ] at hbig
    exact Nat.le_of_lt_succ ((gridMag_strictMono ℚ fp32).lt_iff_lt.mp hbig)
  refine ⟨fp32.gridVal x.neg c, ?_, neg_gridVal _ _ _, ?_⟩
  · rw [dec32, toNat_lane32 (isIeee_fp32.roundTo_lt _ _ _ _), isIeee_fp32.roundTo_of_eq r o hval hle,
      isIeee_fp32.decode_withSign_of_le _ hle]
  · rw [ratOf_gridVal, ← hval, ← ratOf_eq_signFactor_mul_abs]

end Sys2Proof.Proofs
end

section
/-!
PROOFS. Floating-point results (02: R48 to R58; 05: R155 to R167, R172).
-/

open Sys2Proof Sys2Proof.Machine Sys2Proof.Claims

namespace Sys2Proof.Proofs

/-! ## binary32 (R155) -/

theorem fp32_sign : fp32.sign + 1 = 32 := rfl

theorem toNat_fadd (r : Rnd) (a b : Lane) : (fadd r a b).toNat = fp32.addFp r (dec32 a) (dec32 b) :=
  toNat_lane32 (isIeee_fp32.addFp_lt _ _ _)

theorem toNat_fsub (r : Rnd) (a b : Lane) : (fsub r a b).toNat = fp32.addFp r (dec32 a) (dec32 b).negate :=
  toNat_lane32 (isIeee_fp32.addFp_lt _ _ _)

theorem toNat_fmul (r : Rnd) (a b : Lane) : (fmul r a b).toNat = fp32.roundFp r (mulFp (dec32 a) (dec32 b)) :=
  toNat_lane32 (isIeee_fp32.roundFp_lt _ _)

theorem toNat_fma (r : Rnd) (a b c : Lane) :
    (fma r a b c).toNat = fp32.addFp r (mulFp (dec32 a) (dec32 b)) (dec32 c) :=
  toNat_lane32 (isIeee_fp32.addFp_lt _ _ _)

/-- The finite values of binary32 by code. -/
theorem exists_of_dec32_fin {a : Lane} {x : Dy} (hx : dec32 a = .fin x) :
    ∃ neg n, n ≤ fp32.top ∧ a.toNat = fp32.withSign neg n ∧ x = fp32.gridVal neg n :=
  isIeee_fp32.exists_of_decode_fin a.isLt hx

theorem m_lt_of_dec32_fin {a : Lane} {x : Dy} (hx : dec32 a = .fin x) : x.m < 2 ^ 24 := by
  obtain ⟨neg, n, -, -, rfl⟩ := exists_of_dec32_fin hx
  have := Nat.mod_lt n (Nat.two_pow_pos 23)
  rw [Fmt.gridVal, show fp32.mb = 23 from rfl]
  split <;> dsimp only <;> omega

theorem emin_le_of_dec32_fin {a : Lane} {x : Dy} (hx : dec32 a = .fin x) : -149 ≤ x.e := by
  obtain ⟨neg, n, -, -, rfl⟩ := exists_of_dec32_fin hx
  rw [Fmt.gridVal, show fp32.emin = -149 from rfl]
  split <;> dsimp only <;> omega

theorem e_le_of_dec32_fin {a : Lane} {x : Dy} (hx : dec32 a = .fin x) : x.e ≤ 104 := by
  obtain ⟨neg, n, hn, -, rfl⟩ := exists_of_dec32_fin hx
  have hdiv : n / 2 ^ 23 ≤ 0x7F7FFFFF / 2 ^ 23 := Nat.div_le_div_right hn
  rw [Fmt.gridVal, show fp32.emin = -149 from rfl, show fp32.mb = 23 from rfl]
  split <;> dsimp only <;> omega

theorem lt_bitLen {m k : Nat} (h : 2 ^ k ≤ m) : k < bitLen m := by
  have hm : m ≠ 0 := ((Nat.two_pow_pos k).trans_le h).ne'
  rw [bitLen, if_neg hm]
  exact Nat.lt_succ_of_le ((Nat.le_log2 hm).mpr h)

/-- The quotient that the division rounds (R155). -/
theorem rounds_fdivLane {a b : Lane} {x y : Dy} (ha : dec32 a = .fin x) (hb : dec32 b = .fin y) (hx : x.m ≠ 0) (hy : y.m ≠ 0) :
    Rounds fp32 .rne (ratOf x / ratOf y) (fdivLane a b).toNat := by
  have hy0 : 0 < y.m := Nat.pos_of_ne_zero hy
  have hdiv : (fdivLane a b).toNat = fp32.roundTo .rne ⟨xor x.neg y.neg, x.m * 2 ^ 64 / y.m, x.e - y.e - 64⟩
      (x.m * 2 ^ 64 % y.m != 0) .inf := by
    rw [fdivLane, ha, hb]
    dsimp only
    rw [if_neg hy]
    exact toNat_lane32 (isIeee_fp32.roundTo_lt _ _ _ _)
  have habs : |ratOf x / ratOf y| = ((x.m * 2 ^ 64 : Nat) : ℚ) / y.m * 2 ^ (x.e - y.e - 64) := by
    rw [abs_div, abs_ratOf, abs_ratOf, zpow_sub₀ (by norm_num), zpow_sub₀ (by norm_num)]
    push_cast
    field_simp
  have hsign : xor x.neg y.neg = decide (ratOf x / ratOf y < 0) := by
    have hx' : ratOf x ≠ 0 := ratOf_eq_zero_iff.not.mpr hx
    have hy' : ratOf y ≠ 0 := ratOf_eq_zero_iff.not.mpr hy
    simp only [neg_eq_decide hx', neg_eq_decide hy', div_neg_iff]
    rcases lt_or_gt_of_ne hx' with h1 | h1 <;> rcases lt_or_gt_of_ne hy' with h2 | h2 <;>
      simp [h1, h2, h1.not_gt, h2.not_gt]
  rw [hdiv]
  refine isIeee_fp32.rounds_roundTo .rne hsign (by rw [habs]; exact truncates_div _ hy0 _) fun _ => lt_bitLen ?_
  rw [Nat.le_div_iff_mul_le hy0]
  have := m_lt_of_dec32_fin hb
  have hp : 2 ^ fp32.mb.succ = 2 ^ 24 := rfl
  calc 2 ^ (fp32.mb + 1) * y.m ≤ 2 ^ 24 * 2 ^ 24 := Nat.mul_le_mul hp.le this.le
    _ ≤ 1 * 2 ^ 64 := by norm_num
    _ ≤ x.m * 2 ^ 64 := Nat.mul_le_mul_right _ (Nat.pos_of_ne_zero hx)

/-! ## Packed halves (R161) -/

theorem toNat_halves {f : Nat → Nat → Nat → Nat} {a b c : Lane} (hf : ∀ x y z, f x y z < 65536) (upper : Bool) :
    halfOf upper (halves f a b c) = f (halfOf upper a) (halfOf upper b) (halfOf upper c) := by
  have hlo := hf (a.toNat % 65536) (b.toNat % 65536) (c.toNat % 65536)
  have hhi := hf (a.toNat / 65536) (b.toNat / 65536) (c.toNat / 65536)
  rw [halves, halfOf, toNat_lane32 (by omega)]
  cases upper
  · simp only [halfOf, Bool.false_eq_true, if_false]
    omega
  · simp only [halfOf, if_true]
    omega

theorem isIeee_halfFmt (h : Half) : IsIeee (halfFmt h) := by
  cases h
  · exact isIeee_bf16
  · exact isIeee_fp16

theorem halfFmt_sign (h : Half) : 2 ^ ((halfFmt h).sign + 1) = 65536 := by cases h <;> rfl

theorem halfOf_hadd2 (h : Half) (upper : Bool) (a b : Lane) : halfOf upper (hadd2 h a b) =
    (halfFmt h).addFp .rne ((halfFmt h).decode (halfOf upper a)) ((halfFmt h).decode (halfOf upper b)) :=
  toNat_halves (fun _ _ _ => ((isIeee_halfFmt h).addFp_lt _ _ _).trans_eq (halfFmt_sign h)) upper

theorem halfOf_hmul2 (h : Half) (upper : Bool) (a b : Lane) : halfOf upper (hmul2 h a b) =
    (halfFmt h).roundFp .rne (mulFp ((halfFmt h).decode (halfOf upper a)) ((halfFmt h).decode (halfOf upper b))) :=
  toNat_halves (fun _ _ _ => ((isIeee_halfFmt h).roundFp_lt _ _).trans_eq (halfFmt_sign h)) upper

theorem halfOf_hfma2 (h : Half) (upper : Bool) (a b c : Lane) : halfOf upper (hfma2 h a b c) =
    (halfFmt h).addFp .rne (mulFp ((halfFmt h).decode (halfOf upper a)) ((halfFmt h).decode (halfOf upper b)))
      ((halfFmt h).decode (halfOf upper c)) :=
  toNat_halves (fun _ _ _ => ((isIeee_halfFmt h).addFp_lt _ _ _).trans_eq (halfFmt_sign h)) upper

/-! ## Conversions and sums (R164, R165, R172) -/

theorem rounds_cvtFromInt (r : Rnd) {i : Int} (hi : i ≠ 0) : Rounds fp32 r i (cvtFromInt r i).toNat := by
  have hval : ratOf (.ofInt i 0) = i := by simp [ratOf_ofInt]
  have hround := isIeee_fp32.rounds_round r (x := .ofInt i 0) (by rw [hval]; exact_mod_cast hi)
  rw [hval] at hround
  rwa [cvtFromInt, toNat_lane32 (isIeee_fp32.round_lt r _)]

theorem rounds_cvt16 {f : Fmt} (hf : IsIeee f) (hs : f.sign + 1 ≤ 32) (tz : Bool) {a : Lane} {x : Dy} (ha : dec32 a = .fin x)
    (hx : x.m ≠ 0) : Rounds f (if tz then .rtz else .rne) (ratOf x) (cvt16 f tz a).toNat := by
  have hlt (o : Over) := (hf.roundTo_lt (if tz then .rtz else .rne) x false o).trans_le (Nat.pow_le_pow_right Nat.two_pos hs)
  have hround := hf.rounds_round (if tz then .rtz else .rne) (ratOf_eq_zero_iff.not.mpr hx)
  rw [cvt16, ha, cvtTo, toNat_lane32 (hlt _)]
  cases tz <;> exact hround

theorem filterMap_map_fin {g : Fp → Option Dy} (hg : ∀ y, g (.fin y) = some y) (l : List Dy) : (l.map Fp.fin).filterMap g = l := by
  rw [List.filterMap_map, show g ∘ Fp.fin = some from funext hg, List.filterMap_some]

/-- The sum of finite values (R172). -/
theorem sumFp_fin (l : List Dy) : sumFp (l.map .fin) =
    if (Dy.sum l).m = 0 then (if !l.isEmpty && l.all fun x => x.m == 0 && x.neg then 0x80000000 else 0)
    else lane32 (fp32.round .rne (Dy.sum l)) := by
  have hno (y : Fp) (hy : ∀ x, y ≠ .fin x) : (l.map Fp.fin).contains y = false := by
    rw [← Bool.not_eq_true, List.contains_iff_mem, List.mem_map]
    rintro ⟨x, -, rfl⟩
    exact hy x rfl
  rw [sumFp]
  simp only [hno .nan nofun, hno (.inf true) nofun, hno (.inf false) nofun, Bool.false_and, Bool.or_false, Bool.false_eq_true, if_false]
  rw [filterMap_map_fin fun _ => rfl]

theorem rounds_sumFp {l : List Dy} (h : (l.map ratOf).sum ≠ 0) : Rounds fp32 .rne (l.map ratOf).sum (sumFp (l.map .fin)).toNat := by
  rw [← ratOf_sum] at h ⊢
  rw [sumFp_fin, if_neg (ratOf_eq_zero_iff.not.mp h), toNat_lane32 (isIeee_fp32.round_lt .rne _)]
  exact isIeee_fp32.rounds_round .rne h

/-! ## The square root (R160) -/

/-- The bits from `n` down complete a root whose higher bits are found. -/
theorem isqrtFrom_spec (x n r : Nat) (hlo : r * r ≤ x) (hhi : x < (r + 2 ^ n) * (r + 2 ^ n)) :
    isqrtFrom x n r * isqrtFrom x n r ≤ x ∧ x < (isqrtFrom x n r + 1) * (isqrtFrom x n r + 1) := by
  induction n generalizing r with
  | zero => exact ⟨hlo, hhi⟩
  | succ n ih =>
    rw [isqrtFrom]
    by_cases ht : (r + 2 ^ n) * (r + 2 ^ n) ≤ x
    · rw [if_pos ht]
      exact ih _ ht (by rwa [Nat.add_assoc, ← Nat.two_mul, ← Nat.pow_succ'])
    · rw [if_neg ht]
      exact ih _ hlo (not_le.mp ht)

theorem isqrt_eq_sqrt (x : Nat) : isqrt x = Nat.sqrt x := by
  have hx : x < 2 ^ bitLen x := by
    rw [bitLen]
    split
    next h => rw [h]; exact Nat.one_pos
    next h => exact Nat.lt_log2_self
  have hstart : x < (0 + 2 ^ (bitLen x / 2 + 1)) * (0 + 2 ^ (bitLen x / 2 + 1)) := by
    rw [Nat.zero_add, ← pow_add]
    exact hx.trans_le (Nat.pow_le_pow_right Nat.two_pos (by omega))
  obtain ⟨hlo, hhi⟩ := isqrtFrom_spec x _ 0 (Nat.zero_le _) hstart
  exact (Nat.eq_sqrt).mpr ⟨hlo, hhi⟩

/-- An integer root truncates the real root of anything from its radicand up to the next integer. -/
theorem truncates_sqrt {q : Nat} {y : ℝ} (hle : (q : ℝ) ≤ y) (hlt : y < q + 1) (e : Int) {sticky : Bool}
    (hs : sticky = true ↔ (Nat.sqrt q * Nat.sqrt q : ℝ) < y) : Truncates (Nat.sqrt q) e sticky (√y * 2 ^ e) := by
  have hpos : (0 : ℝ) < 2 ^ e := by positivity
  have h1 : ((Nat.sqrt q * Nat.sqrt q : Nat) : ℝ) ≤ q := by exact_mod_cast Nat.sqrt_le q
  have h2 : ((q + 1 : Nat) : ℝ) ≤ ((Nat.sqrt q + 1) * (Nat.sqrt q + 1) : Nat) := by exact_mod_cast Nat.lt_succ_sqrt q
  push_cast at h1 h2
  refine ⟨?_, ?_, ?_⟩
  · gcongr
    exact Real.le_sqrt_of_sq_le (by rw [sq]; linarith)
  · gcongr
    rw [Real.sqrt_lt' (by positivity), sq]
    push_cast
    linarith
  · rw [hs, mul_lt_mul_iff_left₀ hpos, Real.lt_sqrt (by positivity), sq]

/-- Without a tie the rounded code is on the right side of the midpoint to every other. -/
theorem RoundsTo.strict {K : Type} [Field K] [LinearOrder K] [IsStrictOrderedRing K] {f : Fmt} {neg : Bool} {v : K} {n c : Nat}
    (h : RoundsTo f .rne neg v n c) (hne : v ≠ (gridMag K f n + gridMag K f (n + 1)) / 2) (j : Nat) :
    (c < j → v < (gridMag K f c + gridMag K f j) / 2) ∧ (j < c → (gridMag K f c + gridMag K f j) / 2 < v) := by
  have hmono := gridMag_strictMono K f
  have hlo := h.floor_le
  have hhi := h.lt_next
  by_cases ha : RoundsAway f .rne neg v n
  · obtain rfl := h.away ha
    have hmid := ha.resolve_right fun h => hne h.1
    refine ⟨fun hj => ?_, fun hj => ?_⟩
    · linarith [hmono hj]
    · linarith [hmono.monotone (Nat.le_of_lt_succ hj)]
  · obtain rfl := h.toward ha
    have hmid : v < (gridMag K f c + gridMag K f (c + 1)) / 2 := (not_lt.mp fun hlt => ha (.inl hlt)).lt_of_ne hne
    refine ⟨fun hj => ?_, fun hj => ?_⟩
    · linarith [hmono.monotone (show c + 1 ≤ j from hj)]
    · linarith [hmono hj]

theorem cast_gridMag (f : Fmt) (n : Nat) : ((gridMag ℚ f n : ℚ) : ℝ) = gridMag ℝ f n := by
  rw [gridMag, gridMag]
  split <;> push_cast <;> rfl

theorem exists_even_exponent (x : Dy) : ∃ (m : Nat) (h : Int), (if x.e % 2 = 0 then (x.m, x.e) else (2 * x.m, x.e - 1)) = (m, 2 * h) ∧
    x.m ≤ m ∧ m ≤ 2 * x.m ∧ (x.m : ℝ) * 2 ^ x.e = m * (2 ^ h) ^ 2 := by
  have hsq (h : Int) : ((2 : ℝ) ^ h) ^ 2 = 2 ^ (2 * h) := by rw [mul_comm, zpow_mul]; norm_cast
  split
  next h =>
    refine ⟨x.m, x.e / 2, by rw [Int.mul_ediv_cancel' (Int.dvd_of_emod_eq_zero h)], le_rfl, by omega, ?_⟩
    rw [hsq, Int.mul_ediv_cancel' (Int.dvd_of_emod_eq_zero h)]
  next h =>
    refine ⟨2 * x.m, (x.e - 1) / 2, by rw [Int.mul_ediv_cancel' (by omega)], by omega, le_rfl, ?_⟩
    rw [hsq, Int.mul_ediv_cancel' (by omega), zpow_sub_one₀ (by norm_num)]
    push_cast
    ring

theorem sqrt_mul_zpow_sq (y : ℝ) (h : Int) : √(y * (2 ^ h) ^ 2) = √y * 2 ^ h := by
  rw [Real.sqrt_mul' _ (by positivity), Real.sqrt_sq (by positivity)]

theorem sqrtDy_spec (x : Dy) (hx : 0 < x.m) : (sqrtDy x).1.neg = false ∧ 2 ^ 40 ≤ (sqrtDy x).1.m ∧
    Truncates (sqrtDy x).1.m (sqrtDy x).1.e (sqrtDy x).2 (√((x.m : ℝ) * 2 ^ x.e)) := by
  obtain ⟨m, h, hmh, hm, -, hval⟩ := exists_even_exponent x
  have hroot : √((x.m : ℝ) * 2 ^ x.e) = √((m * 2 ^ 80 : Nat) : ℝ) * 2 ^ (h - 40) := by
    rw [hval, ← sqrt_mul_zpow_sq, zpow_sub₀ (by norm_num)]
    congr 1
    push_cast
    ring
  have hle := Nat.sqrt_le (m * 2 ^ 80)
  rw [hroot, sqrtDy, hmh]
  simp only [isqrt_eq_sqrt, show 2 * h / 2 = h by omega]
  refine ⟨trivial, ?_, truncates_sqrt le_rfl (lt_add_one _) _ ?_⟩
  · rw [Nat.le_sqrt]
    calc 2 ^ 40 * 2 ^ 40 = 1 * 2 ^ 80 := by norm_num
      _ ≤ m * 2 ^ 80 := Nat.mul_le_mul_right _ (by omega)
  · rw [bne_iff_ne]
    constructor
    · exact fun hne => by exact_mod_cast hle.lt_of_ne hne
    · intro hlt heq
      rw [← Nat.cast_mul, heq] at hlt
      exact lt_irrefl _ hlt

/-- The root of a number of 24 bits is no midpoint between neighbours, which has 25. -/
theorem sqrt_ne_mid {x : Dy} (hm : 0 < x.m) (hlt : x.m < 2 ^ 24) (he : -149 ≤ x.e) (n : Nat) :
    √((x.m : ℝ) * 2 ^ x.e) ≠ (gridMag ℝ fp32 n + gridMag ℝ fp32 (n + 1)) / 2 := by
  obtain ⟨k, h, rfl, hlo, hhi⟩ := exists_place fp32 n
  have hmb : fp32.mb = 23 := rfl
  have hmid : (gridMag ℝ fp32 (k * 2 ^ fp32.mb + h) + gridMag ℝ fp32 (k * 2 ^ fp32.mb + h + 1)) / 2 =
      ((2 * h + 1 : Nat) : ℝ) * 2 ^ ((k : Int) - 150) := by
    rw [Nat.add_assoc, gridMag_place ℝ fp32 hlo hhi.le, gridMag_place ℝ fp32 (hlo.imp (by omega) id) hhi,
      show fp32.emin + (k : Int) = (k : Int) - 150 + 1 by rw [show fp32.emin = -149 from rfl]; ring, zpow_add_one₀ (by norm_num)]
    push_cast
    ring
  intro heq
  rw [hmid] at heq
  have hsq : (x.m : ℝ) * 2 ^ x.e = (((2 * h + 1) * (2 * h + 1) : Nat) : ℝ) * 2 ^ (2 * ((k : Int) - 150)) := by
    rw [← Real.sq_sqrt (show (0 : ℝ) ≤ (x.m : ℝ) * 2 ^ x.e by positivity), heq, two_mul ((k : Int) - 150), zpow_add₀ (by norm_num)]
    push_cast
    ring
  rcases lt_or_ge (2 * ((k : Int) - 150)) x.e with hgt | hle
  · obtain ⟨d, hd⟩ : ∃ d : Nat, x.e = (d + 1 : Nat) + 2 * ((k : Int) - 150) := ⟨(x.e - 2 * ((k : Int) - 150) - 1).toNat, by omega⟩
    rw [hd, zpow_add₀ (by norm_num), zpow_natCast, ← mul_assoc, mul_left_inj' (by positivity)] at hsq
    have hnat : x.m * 2 ^ (d + 1) = (2 * h + 1) * (2 * h + 1) := by exact_mod_cast hsq
    have hpar := congrArg (· % 2) hnat
    rw [Nat.pow_succ, ← Nat.mul_assoc] at hpar
    simp [Nat.add_mod, Nat.mul_mod] at hpar
  · obtain ⟨d, hd⟩ : ∃ d : Nat, 2 * ((k : Int) - 150) = (d : Nat) + x.e := ⟨(2 * ((k : Int) - 150) - x.e).toNat, by omega⟩
    rw [hd, zpow_add₀ (by norm_num), zpow_natCast, ← mul_assoc, mul_left_inj' (by positivity)] at hsq
    have hnat : x.m = (2 * h + 1) * (2 * h + 1) * 2 ^ d := by exact_mod_cast hsq
    have hbig : (2 * h + 1) * (2 * h + 1) ≤ x.m := by rw [hnat]; exact Nat.le_mul_of_pos_right _ (Nat.two_pow_pos d)
    rcases hlo with hlo | rfl
    · rw [hmb] at hlo
      have : 2 ^ 23 * 2 ^ 23 ≤ (2 * h + 1) * (2 * h + 1) := Nat.mul_le_mul (by omega) (by omega)
      omega
    · omega

theorem fsqrtLane_of_pos {a : Lane} {x : Dy} (ha : dec32 a = .fin x) (hm : x.m ≠ 0) (hneg : x.neg = false) :
    fsqrtLane a = lane32 (fp32.roundTo .rne (sqrtDy x).1 (sqrtDy x).2 .inf) := by
  rw [fsqrtLane, ha]
  simp [hm, hneg]

theorem pos_of_ratOf_pos {x : Dy} (hx : 0 < ratOf x) : x.m ≠ 0 ∧ x.neg = false ∧ ratOf x = (x.m : ℚ) * 2 ^ x.e := by
  have hm : x.m ≠ 0 := ratOf_eq_zero_iff.not.mp hx.ne'
  exact ⟨hm, by rw [neg_eq_decide hx.ne']; simp [hx.le], by rw [← abs_ratOf, abs_of_pos hx]⟩

theorem gridMag_one_fp32 (K : Type) [Field K] [LinearOrder K] [IsStrictOrderedRing K] :
    gridMag K fp32 1 = 2 ^ (-149 : Int) := by
  have h := gridMag_place K fp32 (k := 0) (h := 1) (.inr rfl) (by decide)
  simpa [show fp32.emin = -149 from rfl] using h

theorem one_le_gridMag_top (K : Type) [Field K] [LinearOrder K] [IsStrictOrderedRing K] : 1 < gridMag K fp32 fp32.top := by
  have h := gridMag_place K fp32 (k := 126) (h := 2 ^ 23) (.inl le_rfl) (by decide)
  have h1 : gridMag K fp32 (126 * 2 ^ fp32.mb + 2 ^ 23) = 1 := by
    rw [h, show fp32.emin + ((126 : Nat) : Int) = -(23 : Nat) by decide, zpow_neg, zpow_natCast]
    norm_num
  rw [← h1]
  exact gridMag_strictMono K fp32 (by decide)

theorem gridVal_mag (neg : Bool) (n : Nat) :
    ((fp32.gridVal neg n).m : ℝ) * 2 ^ (fp32.gridVal neg n).e = gridMag ℝ fp32 n := by
  rw [← cast_gridMag, ← abs_signFactor_mul_gridMag fp32 neg, ← ratOf_gridVal, abs_ratOf]
  push_cast
  rfl

/-- The root of a positive value stays between the least and the largest positive values. -/
theorem sqrt_mem_range {a : Lane} {x : Dy} (ha : dec32 a = .fin x) (hm : x.m ≠ 0) :
    gridMag ℝ fp32 1 ≤ √((x.m : ℝ) * 2 ^ x.e) ∧ √((x.m : ℝ) * 2 ^ x.e) < gridMag ℝ fp32 fp32.top := by
  obtain ⟨neg, n, hn, -, rfl⟩ := exists_of_dec32_fin ha
  have hval := gridVal_mag neg n
  have hmono := (gridMag_strictMono ℝ fp32).monotone
  have hn0 : n ≠ 0 := fun h0 => hm (ratOf_eq_zero_iff.mp (by rw [ratOf_gridVal, h0, gridMag_zero, mul_zero]))
  have h1 := hmono (Nat.one_le_iff_ne_zero.mpr hn0)
  have htop := hmono hn
  have hgt := one_le_gridMag_top ℝ
  have hone : gridMag ℝ fp32 1 ≤ 1 := by rw [gridMag_one_fp32]; exact zpow_le_one_of_nonpos₀ (by norm_num) (by norm_num)
  have hnn := gridMag_nonneg ℝ fp32 1
  rw [hval]
  refine ⟨Real.le_sqrt_of_sq_le ?_, (Real.sqrt_lt' (by linarith)).mpr ?_⟩
  · nlinarith only [h1, hone, hnn]
  · nlinarith only [htop, hgt]

/-- The square root lies on the right side of every midpoint (R160). -/
theorem fsqrtLane_nearest {a : Lane} {x : Dy} (ha : dec32 a = .fin x) (hx : 0 < ratOf x) :
    ∃ y, 0 < y ∧ Holds fp32 (fsqrtLane a).toNat y ∧ ∀ z, Held fp32 z → 0 ≤ z →
      (y < z → ratOf x < ((y + z) / 2) ^ 2) ∧ (z < y → ((y + z) / 2) ^ 2 < ratOf x) := by
  obtain ⟨hm, hneg, hval⟩ := pos_of_ratOf_pos hx
  obtain ⟨hs, hbits, htr⟩ := sqrtDy_spec x (Nat.pos_of_ne_zero hm)
  obtain ⟨n, hc⟩ := roundsTo_roundCode isIeee_fp32.one_le_mb .rne (sqrtDy x).1.neg htr
    fun _ => lt_bitLen ((Nat.pow_le_pow_right Nat.two_pos (by decide)).trans hbits)
  have hstrict := hc.strict (sqrt_ne_mid (Nat.pos_of_ne_zero hm) (m_lt_of_dec32_fin ha) (emin_le_of_dec32_fin ha) n)
  have hcast : ((ratOf x : ℚ) : ℝ) = (x.m : ℝ) * 2 ^ x.e := by rw [hval]; push_cast; rfl
  have hnn := Real.sqrt_nonneg ((x.m : ℝ) * 2 ^ x.e)
  have hsq := Real.sq_sqrt (show (0 : ℝ) ≤ (x.m : ℝ) * 2 ^ x.e by positivity)
  obtain ⟨hlow, hhigh⟩ := sqrt_mem_range ha hm
  rw [fsqrtLane_of_pos ha hm hneg, toNat_lane32 (isIeee_fp32.roundTo_lt _ _ _ _), Fmt.roundTo]
  rw [hs] at hc hstrict ⊢
  generalize fp32.roundCode .rne false (sqrtDy x).1.m (sqrtDy x).1.e (sqrtDy x).2 = c at hc hstrict ⊢
  have hcn := hc.eq_or_eq_succ
  have hn1 : 1 ≤ n := hc.le_floor hlow
  have hntop : n < fp32.top := (gridMag_strictMono ℝ fp32).lt_iff_lt.mp (hc.floor_le.trans_lt hhigh)
  have hctop : c ≤ fp32.top := by omega
  rw [if_neg hctop.not_gt]
  refine ⟨gridMag ℚ fp32 c, ?_, by simpa [signFactor] using isIeee_fp32.holds_withSign false hctop, fun z hz hz0 => ?_⟩
  · rw [← gridMag_zero ℚ fp32]
    exact gridMag_strictMono ℚ fp32 (by omega)
  obtain ⟨j, rfl⟩ : ∃ j, z = gridMag ℚ fp32 j := by
    obtain ⟨t, j, -, rfl⟩ := isIeee_fp32.held_iff.mp hz
    rw [← abs_of_nonneg hz0, abs_signFactor_mul_gridMag]
    exact ⟨j, rfl⟩
  have hmid : ((((gridMag ℚ fp32 c + gridMag ℚ fp32 j) / 2 : ℚ)) : ℝ) = (gridMag ℝ fp32 c + gridMag ℝ fp32 j) / 2 := by
    push_cast [cast_gridMag]
    rfl
  refine ⟨fun hlt => ?_, fun hlt => ?_⟩
  · have h := (hstrict j).1 ((gridMag_strictMono ℚ fp32).lt_iff_lt.mp hlt)
    rw [← hmid] at h
    have h2 : ((ratOf x : ℚ) : ℝ) < (((gridMag ℚ fp32 c + gridMag ℚ fp32 j) / 2 : ℚ) : ℝ) ^ 2 := by
      rw [hcast, ← hsq]
      gcongr
    exact_mod_cast h2
  · have h := (hstrict j).2 ((gridMag_strictMono ℚ fp32).lt_iff_lt.mp hlt)
    rw [← hmid] at h
    have h0 : (0 : ℝ) ≤ (((gridMag ℚ fp32 c + gridMag ℚ fp32 j) / 2 : ℚ) : ℝ) := by
      exact_mod_cast div_nonneg (add_nonneg (gridMag_nonneg ℚ fp32 c) (gridMag_nonneg ℚ fp32 j)) (by norm_num)
    have h2 : (((gridMag ℚ fp32 c + gridMag ℚ fp32 j) / 2 : ℚ) : ℝ) ^ 2 < ((ratOf x : ℚ) : ℝ) := by
      rw [hcast, ← hsq]
      gcongr
    exact_mod_cast h2

theorem rounds_fsub {a b : Lane} {x y : Dy} (ha : dec32 a = .fin x) (hb : dec32 b = .fin y) (r : Rnd)
    (h : ratOf x - ratOf y ≠ 0) : Rounds fp32 r (ratOf x - ratOf y) (fsub r a b).toNat := by
  rw [toNat_fsub, ha, hb, sub_eq_add_neg, ← ratOf_neg_ y]
  exact isIeee_fp32.rounds_addFp r (by rwa [ratOf_neg_, ← sub_eq_add_neg])

/-- A fused sum rounds the exact product plus the addend. -/
theorem IsIeee.rounds_fused {f : Fmt} (hf : IsIeee f) (r : Rnd) {x y z : Dy} (h : ratOf x * ratOf y + ratOf z ≠ 0) :
    Rounds f r (ratOf x * ratOf y + ratOf z) (f.addFp r (mulFp (.fin x) (.fin y)) (.fin z)) := by
  rw [← ratOf_mul] at h ⊢
  exact hf.rounds_addFp r h

/-- Settles O21: the grid of a format orders its codes, the model's truncated result is rounded to that grid, and each
operation's truncated result is its exact one. -/
theorem floatRounding : Obligations.FloatRounding := by
  unfold Obligations.FloatRounding
  refine ⟨fun a b x y ha hb => ⟨fun r h => ?_, fun r h => rounds_fsub ha hb r h, fun r h => ?_, fun r c z hc h => ?_,
    fun hx hy => rounds_fdivLane ha hb hx hy⟩, fun a x ha hx => fsqrtLane_nearest ha hx,
    fun h upper a b x y ha hb => ⟨fun hne => ?_, fun hne => ?_, fun c z hc hne => ?_⟩,
    fun r i hi _ => rounds_cvtFromInt r hi, fun a x f tz hf ha hx => ?_, fun l h => rounds_sumFp h⟩
  · rw [toNat_fadd, ha, hb]
    exact isIeee_fp32.rounds_addFp r h
  · rw [toNat_fmul, ha, hb]
    exact isIeee_fp32.rounds_mulFp r h
  · rw [toNat_fma, ha, hb, hc]
    exact isIeee_fp32.rounds_fused r h
  · rw [halfOf_hadd2, ha, hb]
    exact (isIeee_halfFmt h).rounds_addFp .rne hne
  · rw [halfOf_hmul2, ha, hb]
    exact (isIeee_halfFmt h).rounds_mulFp .rne hne
  · rw [halfOf_hfma2, ha, hb, hc]
    exact (isIeee_halfFmt h).rounds_fused .rne hne
  · rcases hf with rfl | rfl
    · exact rounds_cvt16 isIeee_bf16 (by decide) tz ha hx
    · exact rounds_cvt16 isIeee_fp16 (by decide) tz ha hx

/-! ## Special results (R155) -/

theorem sumSpecial_addFp (f : Fmt) (r : Rnd) (x y : Fp) : SumSpecial f r x y (f.addFp r x y) := by
  refine ⟨?_, ?_, ?_, ?_⟩
  · rintro (rfl | rfl)
    · rfl
    · cases x <;> rfl
  · rintro s t rfl rfl
    rfl
  · rintro s w (⟨rfl, rfl⟩ | ⟨rfl, rfl⟩) <;> rfl
  · rintro u v rfl rfl h
    exact if_pos (by rwa [← ratOf_eq_zero_iff, ratOf_add])

theorem mulFp_of_nanProduct {x y : Fp} (h : NaNProduct x y) : mulFp x y = .nan := by
  rcases h with rfl | rfl | ⟨a, v, ⟨rfl, rfl⟩ | ⟨rfl, rfl⟩, hv⟩
  · rfl
  · cases x <;> rfl
  · exact if_pos hv
  · exact if_pos hv

theorem mulFp_of_infProduct {x y : Fp} {s : Bool} (h : InfProduct x y s) : mulFp x y = .inf s := by
  rcases h with ⟨a, b, rfl, rfl, rfl⟩ | ⟨a, v, ⟨rfl, rfl⟩ | ⟨rfl, rfl⟩, hv, rfl⟩
  · rfl
  · exact if_neg hv
  · exact (if_neg hv).trans (congrArg Fp.inf (Bool.xor_comm _ _))

theorem productSpecial_mulFp {f : Fmt} (hf : IsIeee f) (r : Rnd) (x y : Fp) : ProductSpecial f x y (f.roundFp r (mulFp x y)) := by
  refine ⟨fun h => by rw [mulFp_of_nanProduct h]; rfl, fun s h => by rw [mulFp_of_infProduct h]; rfl, ?_⟩
  rintro u v rfl rfl h
  rw [← ratOf_mul, ratOf_eq_zero_iff] at h
  have hz : mulFp (.fin u) (.fin v) = .fin ⟨u.neg != v.neg, 0, (u.mul v).e⟩ := by
    rw [mulFp, ← h]
    rfl
  rw [hz]
  exact hf.round_zero r _ _

theorem fusedSpecial_addFp (f : Fmt) (r : Rnd) (x y z : Fp) : FusedSpecial f r x y z (f.addFp r (mulFp x y) z) := by
  obtain ⟨hnan, hinf, hmix, hzero⟩ := sumSpecial_addFp f r (mulFp x y) z
  refine ⟨fun h => hnan (h.imp mulFp_of_nanProduct id), fun s h => ⟨fun t ht => hinf s t (mulFp_of_infProduct h) ht,
    fun w hw => hmix s w (.inl ⟨mulFp_of_infProduct h, hw⟩)⟩, ?_, ?_⟩
  · rintro u v t rfl rfl rfl
    exact hmix t _ (.inr ⟨rfl, rfl⟩)
  · rintro u v w rfl rfl rfl h
    refine (hzero _ w rfl rfl (by rwa [ratOf_mul])).trans ?_
    rw [show (u.mul v).neg = (u.neg != v.neg) from rfl]
    exact congrArg (f.withSign · 0) (ite_congr rfl id fun _ => rfl)

/-! ### binary32 codes of the special results -/

theorem dec32_infLane (s : Bool) : dec32 (infLane s) = .inf s := by cases s <;> rfl

theorem eq_of_toNat_nan {w : Lane} (h : w.toNat = fp32.nan) : w = 0x7FC00000 := BitVec.eq_of_toNat_eq h

theorem eq_infLane_of_toNat {w : Lane} {s : Bool} (h : w.toNat = fp32.withSign s fp32.infCode) : w = infLane s := by
  cases s <;> exact BitVec.eq_of_toNat_eq h

theorem eq_zero_of_toNat {w : Lane} {s : Bool} (h : w.toNat = fp32.withSign s 0) : w = if s then 0x80000000 else 0 := by
  cases s <;> exact BitVec.eq_of_toNat_eq h

theorem fadd_special (r : Rnd) (a b : Lane) : SumSpecial fp32 r (dec32 a) (dec32 b) (fadd r a b).toNat := by
  rw [toNat_fadd]
  exact sumSpecial_addFp fp32 r _ _

theorem fsub_special (r : Rnd) (a b : Lane) : SumSpecial fp32 r (dec32 a) (dec32 b).negate (fsub r a b).toNat := by
  rw [toNat_fsub]
  exact sumSpecial_addFp fp32 r _ _

theorem fmul_special (r : Rnd) (a b : Lane) : ProductSpecial fp32 (dec32 a) (dec32 b) (fmul r a b).toNat := by
  rw [toNat_fmul]
  exact productSpecial_mulFp isIeee_fp32 r _ _

theorem fma_special (r : Rnd) (a b c : Lane) :
    FusedSpecial fp32 r (dec32 a) (dec32 b) (dec32 c) (fma r a b c).toNat := by
  rw [toNat_fma]
  exact fusedSpecial_addFp fp32 r _ _ _

theorem negate_eq_nan {x : Fp} (h : x = .nan) : x.negate = .nan := by rw [h]; rfl

/-- NaN operands give NaN (R155). -/
theorem float_of_isNaN (r : Rnd) {a b : Lane} (h : IsNaN a ∨ IsNaN b) :
    fadd r a b = 0x7FC00000 ∧ fsub r a b = 0x7FC00000 ∧ fmul r a b = 0x7FC00000 ∧ fdivLane a b = 0x7FC00000 ∧
      ∀ c, fma r a b c = 0x7FC00000 ∧ fma r a c b = 0x7FC00000 := by
  have hprod : NaNProduct (dec32 a) (dec32 b) := h.imp id .inl
  refine ⟨eq_of_toNat_nan ((fadd_special r a b).1 h), eq_of_toNat_nan ((fsub_special r a b).1 (h.imp id negate_eq_nan)),
    eq_of_toNat_nan ((fmul_special r a b).1 hprod), ?_, fun c => ⟨eq_of_toNat_nan ((fma_special r a b c).1 (.inl hprod)),
      eq_of_toNat_nan ((fma_special r a c b).1 (h.imp .inl id))⟩⟩
  rw [fdivLane]
  rcases h with h | h
  · rw [show dec32 a = .nan from h]; rfl
  · rw [show dec32 b = .nan from h]; cases dec32 a <;> rfl

/-- Two infinities (R155, R160). -/
theorem float_of_inf_inf (r : Rnd) (s t : Bool) : fadd r (infLane s) (infLane t) = (if s = t then infLane s else 0x7FC00000) ∧
    fsub r (infLane s) (infLane t) = (if s = t then 0x7FC00000 else infLane s) ∧
    fmul r (infLane s) (infLane t) = infLane (s != t) ∧ fdivLane (infLane s) (infLane t) = 0x7FC00000 := by
  have hs := dec32_infLane s
  have ht := dec32_infLane t
  refine ⟨?_, ?_, ?_, ?_⟩
  · have h := (fadd_special r (infLane s) (infLane t)).2.1 s t hs ht
    split
    next hst => exact eq_infLane_of_toNat (h.trans (if_pos hst))
    next hst => exact eq_of_toNat_nan (h.trans (if_neg hst))
  · have h := (fsub_special r (infLane s) (infLane t)).2.1 s (!t) hs (by rw [ht]; rfl)
    split
    next hst => exact eq_of_toNat_nan (h.trans (if_neg (by rw [hst]; cases t <;> decide)))
    next hst => exact eq_infLane_of_toNat (h.trans (if_pos (by revert hst; cases s <;> cases t <;> decide)))
  · exact eq_infLane_of_toNat ((fmul_special r _ _).2.1 _ (.inl ⟨s, t, hs, ht, rfl⟩))
  · rw [fdivLane, hs, ht]
    rfl

/-- An infinity and a finite value (R155, R160). -/
theorem float_of_inf_fin (r : Rnd) (s : Bool) {a : Lane} {x : Dy} (ha : dec32 a = .fin x) :
    fadd r (infLane s) a = infLane s ∧ fadd r a (infLane s) = infLane s ∧
    fsub r (infLane s) a = infLane s ∧ fsub r a (infLane s) = infLane (!s) ∧
    fmul r (infLane s) a = (if x.m = 0 then 0x7FC00000 else infLane (s != x.neg)) ∧
    fdivLane (infLane s) a = infLane (s != x.neg) ∧ fdivLane a (infLane s) = (if s != x.neg then 0x80000000 else 0) := by
  have hs := dec32_infLane s
  refine ⟨eq_infLane_of_toNat ((fadd_special r _ _).2.2.1 s x (.inl ⟨hs, ha⟩)),
    eq_infLane_of_toNat ((fadd_special r _ _).2.2.1 s x (.inr ⟨ha, hs⟩)),
    eq_infLane_of_toNat ((fsub_special r _ _).2.2.1 s x.neg_ (.inl ⟨hs, by rw [ha]; rfl⟩)),
    eq_infLane_of_toNat ((fsub_special r _ _).2.2.1 (!s) x (.inr ⟨ha, by rw [hs]; rfl⟩)), ?_, ?_, ?_⟩
  · obtain ⟨hnan, hinf, -⟩ := fmul_special r (infLane s) a
    split
    next h => exact eq_of_toNat_nan (hnan (.inr (.inr ⟨s, x, .inl ⟨hs, ha⟩, h⟩)))
    next h => exact eq_infLane_of_toNat (hinf _ (.inr ⟨s, x, .inl ⟨hs, ha⟩, h, rfl⟩))
  · rw [fdivLane, hs, ha]
    exact eq_infLane_of_toNat (toNat_lane32 (withSign_lt _ (IsIeee.infCode_lt fp32)))
  · rw [fdivLane, hs, ha]
    refine (eq_zero_of_toNat (toNat_lane32 (withSign_lt _ (Nat.two_pow_pos _)))).trans ?_
    rw [Bool.xor_comm]

/-- Quotients with a zero (R160). -/
theorem fdivLane_of_zero {a b : Lane} {x y : Dy} (ha : dec32 a = .fin x) (hb : dec32 b = .fin y) :
    (y.m = 0 → fdivLane a b = if x.m = 0 then 0x7FC00000 else infLane (x.neg != y.neg)) ∧
    (x.m = 0 → y.m ≠ 0 → fdivLane a b = if x.neg = y.neg then 0 else 0x80000000) := by
  rw [fdivLane, ha, hb]
  refine ⟨fun hy => ?_, fun hx hy => ?_⟩
  · refine (if_pos hy).trans (if_congr Iff.rfl rfl ?_)
    exact eq_infLane_of_toNat (toNat_lane32 (withSign_lt _ (IsIeee.infCode_lt fp32)))
  · refine (if_neg hy).trans ?_
    have hz : fp32.roundTo .rne ⟨xor x.neg y.neg, x.m * 2 ^ 64 / y.m, x.e - y.e - 64⟩ (x.m * 2 ^ 64 % y.m != 0) .inf =
        fp32.withSign (xor x.neg y.neg) 0 := by
      rw [hx, Nat.zero_mul, Nat.zero_div, Nat.zero_mod]
      exact isIeee_fp32.round_zero .rne _ _
    dsimp only
    rw [hz]
    refine (eq_zero_of_toNat (toNat_lane32 (withSign_lt _ (Nat.two_pow_pos _)))).trans ?_
    cases x.neg <;> cases y.neg <;> rfl

/-- Settles O20: each instruction is its function lane by lane; the special cases follow from those of sums and products. -/
theorem floatArithmetic : Obligations.FloatArithmetic := by
  unfold Obligations.FloatArithmetic
  refine ⟨fun r => ⟨lane2_claim (fun _ _ => rfl) fun _ _ _ _ _ => rfl, lane2_claim (fun _ _ => rfl) fun _ _ _ _ _ => rfl,
      lane2_claim (fun _ _ => rfl) fun _ _ _ _ _ => rfl, lane3_claim (fun _ _ _ => rfl) fun _ _ _ _ _ _ => rfl⟩,
    lane2_claim (fun _ _ => rfl) fun _ _ _ _ _ => rfl, fun r a b h => float_of_isNaN r h, fun r s t => float_of_inf_inf r s t,
    fun r s a x ha => float_of_inf_fin r s ha, fun r a b x y ha hb h => ?_, fun r a b x y ha hb h => ?_, fun r a b x y ha hb h => ?_,
    fun r a b c => fma_special r a b c, fun a b x y ha hb => fdivLane_of_zero ha hb⟩
  · rw [eq_zero_of_toNat ((fadd_special r a b).2.2.2 x y ha hb h)]
    split <;> simp
  · rw [eq_zero_of_toNat ((fsub_special r a b).2.2.2 x y.neg_ ha (by rw [hb]; rfl) (by rw [ratOf_neg_, h, add_neg_cancel]))]
    cases hx : x.neg <;> cases hy : y.neg <;> simp [Dy.neg_, hy]
  · rw [eq_zero_of_toNat ((fmul_special r a b).2.2 x y ha hb h)]
    cases x.neg <;> cases y.neg <;> rfl

end Sys2Proof.Proofs
end

section
/-!
PROOFS. Packed halves, conversions and integral values (02: R55; 05: R159, R161 to R167).
-/

open Sys2Proof Sys2Proof.Machine Sys2Proof.Claims

namespace Sys2Proof.Proofs

/-! ## Rounding to an integer (R159, R163) -/

/-- Whether a magnitude from `h` up to `h + 1` goes to the upper one. -/
def IntAway (r : Rnd) (neg : Bool) (w : ℚ) (h : Nat) : Prop :=
  match r with
  | .rne => (h : ℚ) + 1 / 2 < w ∨ (w = (h : ℚ) + 1 / 2 ∧ h % 2 = 1)
  | .rtz => False
  | .rup => neg = false ∧ (h : ℚ) < w
  | .rdn => neg = true ∧ (h : ℚ) < w

theorem roundsUp_int_iff (r : Rnd) (neg : Bool) (m sh : Nat) :
    roundsUp r neg (m / 2 ^ (sh + 1) % 2 == 1) (m % 2 ^ (sh + 1)) (2 ^ sh) false = true ↔
      IntAway r neg ((m : ℚ) / 2 ^ (sh + 1)) (m / 2 ^ (sh + 1)) := by
  have hpos : (0 : ℚ) < 2 ^ (sh + 1) := by positivity
  have hdm : (m : ℚ) = 2 ^ (sh + 1) * (m / 2 ^ (sh + 1) : Nat) + (m % 2 ^ (sh + 1) : Nat) := by
    exact_mod_cast (Nat.div_add_mod m (2 ^ (sh + 1))).symm
  generalize m / 2 ^ (sh + 1) = h at hdm ⊢
  generalize m % 2 ^ (sh + 1) = t at hdm ⊢
  have hsplit : (m : ℚ) / 2 ^ (sh + 1) = h + t / 2 ^ (sh + 1) := by rw [hdm, add_div, mul_div_cancel_left₀ _ hpos.ne']
  have hhalf : (1 : ℚ) / 2 = 2 ^ sh / 2 ^ (sh + 1) := by rw [pow_succ]; field_simp
  have hlt : (h : ℚ) + 1 / 2 < (m : ℚ) / 2 ^ (sh + 1) ↔ 2 ^ sh < t := by
    rw [hsplit, hhalf, add_lt_add_iff_left, div_lt_div_iff_of_pos_right hpos]
    exact_mod_cast Iff.rfl
  have heq : (m : ℚ) / 2 ^ (sh + 1) = (h : ℚ) + 1 / 2 ↔ t = 2 ^ sh := by
    rw [hsplit, hhalf, add_right_inj, div_left_inj' hpos.ne']
    exact_mod_cast Iff.rfl
  have hne : (h : ℚ) < (m : ℚ) / 2 ^ (sh + 1) ↔ t ≠ 0 := by
    rw [hsplit, lt_add_iff_pos_right, div_pos_iff_of_pos_right hpos]
    exact_mod_cast Nat.pos_iff_ne_zero
  cases r with
  | rne => rw [IntAway, hlt, heq]; simp [roundsUp]
  | rtz => simp [roundsUp, IntAway]
  | rup => rw [IntAway, hne]; cases neg <;> simp [roundsUp]
  | rdn => rw [IntAway, hne]; cases neg <;> simp [roundsUp]

/-- The rounded magnitude with its sign is the rounded value. -/
theorem intRound_of_mag (r : Rnd) (neg : Bool) {w : ℚ} {h n : Nat} (hlo : (h : ℚ) ≤ w) (hhi : w < h + 1)
    (haway : IntAway r neg w h → n = h + 1) (htoward : ¬ IntAway r neg w h → n = h) :
    IntRound r (signFactor neg * w) (if neg then -(n : Int) else n) := by
  have hw : 0 ≤ w := h.cast_nonneg.trans hlo
  have hfloor : ⌊w⌋ = h := Int.floor_eq_iff.mpr ⟨by exact_mod_cast hlo, by exact_mod_cast hhi⟩
  have hceil : ⌈w⌉ = if (h : ℚ) < w then (h : Int) + 1 else h := by
    rw [Int.ceil_eq_iff]
    split
    next hlt => push_cast; exact ⟨by linarith, hhi.le⟩
    next hge => push_cast; exact ⟨by linarith, not_lt.mp hge⟩
  cases r with
  | rne =>
    have hcast : signFactor neg * w - ((if neg then -(n : Int) else n : Int) : ℚ) = signFactor neg * (w - n) := by
      cases neg <;> simp [signFactor]; ring
    have hpar : (if neg then -(n : Int) else n) % 2 = 0 ↔ n % 2 = 0 := by cases neg <;> simp <;> omega
    rw [IntRound, hcast, abs_mul, abs_signFactor, one_mul, hpar]
    by_cases ha : IntAway .rne neg w h
    · obtain rfl := haway ha
      rw [abs_sub_comm, abs_of_pos (by push_cast; linarith)]
      push_cast
      rcases ha with ha | ⟨ha, hodd⟩
      · exact .inl (by linarith)
      · exact .inr ⟨by linarith, by omega⟩
    · obtain rfl := htoward ha
      rw [abs_of_nonneg (by linarith)]
      rcases (not_lt.mp fun hlt => ha (.inl hlt)).eq_or_lt with he | hlt
      · exact .inr ⟨by linarith, by have : ¬ n % 2 = 1 := fun hodd => ha (.inr ⟨he, hodd⟩); omega⟩
      · exact .inl (by linarith)
  | rtz =>
    obtain rfl := htoward id
    rw [IntRound]
    cases neg
    · simp [signFactor, hw, hfloor]
    · by_cases h0 : w = 0
      · have hn : n = 0 := by rw [h0] at hfloor; simpa using hfloor.symm
        simp [signFactor, h0, hn]
      · have hneg : ¬ 0 ≤ -w := by have := hw.lt_of_ne (Ne.symm h0); linarith
        simp [signFactor, hneg, Int.ceil_neg, hfloor]
  | rup =>
    rw [IntRound]
    cases neg
    · by_cases hlt : (h : ℚ) < w
      · simp [signFactor, hceil, hlt, haway ⟨rfl, hlt⟩]
      · simp [signFactor, hceil, hlt, htoward fun hx => hlt hx.2]
    · simp [signFactor, Int.ceil_neg, hfloor, htoward fun hx => nomatch hx.1]
  | rdn =>
    rw [IntRound]
    cases neg
    · simp [signFactor, hfloor, htoward fun hx => nomatch hx.1]
    · by_cases hlt : (h : ℚ) < w
      · simp [signFactor, Int.floor_neg, hceil, hlt, haway ⟨rfl, hlt⟩]
      · simp [signFactor, Int.floor_neg, hceil, hlt, htoward fun hx => hlt hx.2]

theorem intRound_intCast (r : Rnd) (i : Int) : IntRound r i i := by
  cases r
  · left
    norm_num
  · rw [IntRound]
    split
    · exact (Int.floor_intCast i).symm
    · exact (Int.ceil_intCast i).symm
  · exact (Int.ceil_intCast i).symm
  · exact (Int.floor_intCast i).symm


theorem intRound_toInt (x : Dy) (r : Rnd) : IntRound r (ratOf x) (x.toInt r) := by
  rw [Dy.toInt]
  by_cases he : 0 ≤ x.e
  · rw [if_pos he]
    have h := at_mul_zpow x he
    rw [zpow_zero, mul_one] at h
    rw [← h]
    exact intRound_intCast r _
  · obtain ⟨sh, hsh⟩ : ∃ sh : Nat, x.e = -((sh + 1 : Nat) : Int) := ⟨(-x.e - 1).toNat, by omega⟩
    have hdm := Nat.div_add_mod x.m (2 ^ (sh + 1))
    have hmod := Nat.mod_lt x.m (Nat.two_pow_pos (sh + 1))
    have hpos : (0 : ℚ) < 2 ^ (sh + 1) := by positivity
    have hval : ratOf x = signFactor x.neg * ((x.m : ℚ) / 2 ^ (sh + 1)) := by
      rw [ratOf_eq, hsh, zpow_neg, zpow_natCast, div_eq_mul_inv]
    have hup := roundsUp_int_iff r x.neg x.m sh
    rw [if_neg he, hval]
    simp only [show (-x.e).toNat = sh + 1 by omega, Nat.add_sub_cancel]
    refine intRound_of_mag r x.neg (h := x.m / 2 ^ (sh + 1)) ?_ ?_ (fun h => if_pos (hup.mpr h)) fun h => if_neg (hup.not.mpr h)
    · rw [le_div_iff₀ hpos]
      exact_mod_cast Nat.div_mul_le_self _ _
    · rw [div_lt_iff₀ hpos]
      have := Nat.lt_div_mul_add (a := x.m) (Nat.two_pow_pos (sh + 1))
      rw [← Nat.succ_mul] at this
      exact_mod_cast this

/-! ## Narrow codes (R55, Table 2-3) -/

theorem gridAt_eq_gridMag (f : Fmt) (n : Nat) : gridAt f.mb f.emin n = gridMag ℚ f n := by
  rw [gridAt, gridMag]
  by_cases h : n < 2 ^ f.mb
  · rw [if_pos h, if_pos (Nat.div_eq_of_lt h), Nat.mod_eq_of_lt h]
  · have hp := Nat.two_pow_pos f.mb
    rw [if_neg h, if_neg (Nat.div_pos (not_lt.mp h) hp).ne']

/-- A narrow result is the nearest code of the grid, with the given code above the largest. -/
theorem narrowRounds_roundTo {f : Fmt} (hmb : 1 ≤ f.mb) (x : Dy) (o : Over) :
    NarrowRounds f.mb f.top f.sign f.emin (f.over x.neg o) x (f.roundTo .rne x false o) := by
  obtain ⟨n, h⟩ := roundsTo_roundCode hmb .rne x.neg (Truncates.exact (K := ℚ) x.m x.e) nofun
  rw [← abs_ratOf] at h
  refine ⟨_, fun m hm => ?_, rfl⟩
  rw [gridAt_eq_gridMag, gridAt_eq_gridMag]
  exact h.nearest hm

theorem withSign_lt_of_le_top {f : Fmt} (ht : f.top < 2 ^ f.sign) (neg : Bool) {n : Nat} (hn : n ≤ f.top) :
    f.withSign neg n < 2 ^ (f.sign + 1) := withSign_lt neg (hn.trans_lt ht)

theorem cvtTo_lt {f : Fmt} (ht : f.top < 2 ^ f.sign) (r : Rnd) {o : Over} (ho : ∀ s, f.over s o < 2 ^ (f.sign + 1))
    (hnan : f.nan < 2 ^ (f.sign + 1)) (x : Fp) : cvtTo f r o o x < 2 ^ (f.sign + 1) := by
  cases x with
  | nan => exact hnan
  | inf s => exact ho s
  | fin x =>
    rw [cvtTo, Fmt.roundTo]
    split
    · exact ho _
    next h => exact withSign_lt_of_le_top ht _ (not_lt.mp h)

/-- What a conversion to a narrow format delivers: its size, NaN, infinities, and the codes of finite values. -/
structure IsNarrowing (f : Fmt) (o : Over) (g : Lane → Lane) : Prop where
  lt : ∀ a, (g a).toNat < 2 ^ (f.sign + 1)
  nan : ∀ a, IsNaN a → g a = lane32 f.nan
  inf : ∀ s, g (infLane s) = lane32 (f.over s o)
  fin : ∀ a x, dec32 a = .fin x → NarrowRounds f.mb f.top f.sign f.emin (g (infLane x.neg)).toNat x (g a).toNat

theorem isNarrowing_of_cvtTo {f : Fmt} {o : Over} {g : Lane → Lane} (hmb : 1 ≤ f.mb) (ht : f.top < 2 ^ f.sign)
    (hs : f.sign + 1 ≤ 32) (ho : ∀ s, f.over s o < 2 ^ (f.sign + 1)) (hnan : f.nan < 2 ^ (f.sign + 1))
    (hg : ∀ a, g a = lane32 (cvtTo f .rne o o (dec32 a))) : IsNarrowing f o g := by
  have hlt (x : Fp) : cvtTo f .rne o o x < 2 ^ 32 :=
    (cvtTo_lt ht .rne ho hnan x).trans_le (Nat.pow_le_pow_right Nat.two_pos hs)
  have hval (a : Lane) : (g a).toNat = cvtTo f .rne o o (dec32 a) := by rw [hg, toNat_lane32 (hlt _)]
  refine ⟨fun a => (hval a).trans_lt (cvtTo_lt ht .rne ho hnan _), fun a ha => ?_, fun s => ?_, fun a x ha => ?_⟩
  · rw [hg, show dec32 a = .nan from ha]
    rfl
  · rw [hg, dec32_infLane]
    rfl
  · rw [hval, hval, dec32_infLane, ha]
    exact narrowRounds_roundTo hmb x o

theorem isNarrowing_cvtE4m3 (y : Bool) : IsNarrowing e4m3 (if y then .nan else .max) (cvtE4m3 y) :=
  isNarrowing_of_cvtTo (by decide) (by decide) (by decide) (by cases y <;> decide) (by decide) fun _ => rfl

theorem isNarrowing_cvtE5m2 (y : Bool) : IsNarrowing e5m2 (if y then .inf else .max) (cvtE5m2 y) :=
  isNarrowing_of_cvtTo (by decide) (by decide) (by decide) (by cases y <;> decide) (by decide) fun _ => rfl

theorem isNarrowing_cvtE2m1 : IsNarrowing e2m1 .max cvtE2m1 :=
  isNarrowing_of_cvtTo (by decide) (by decide) (by decide) (by decide) (by decide) fun _ => rfl

/-! ## Conversions to integers and back, and to 16 bits (R163 to R165) -/

theorem cvtInt_claim (r : Rnd) (lo hi : Int) (bad a : Lane) : ((∀ x, dec32 a ≠ .fin x) → cvtInt r lo hi bad a = bad) ∧
    ∀ x, dec32 a = .fin x → cvtInt r lo hi bad a =
      if lo ≤ x.toInt r ∧ x.toInt r ≤ hi then BitVec.ofInt 32 (x.toInt r) else bad := by
  rw [cvtInt]
  refine ⟨fun h => ?_, fun x hx => by rw [hx]⟩
  cases hd : dec32 a with
  | nan => rfl
  | inf s => rfl
  | fin x => exact absurd hd (h x)

theorem cvtFromInt_zero (r : Rnd) : cvtFromInt r 0 = 0 := by
  have h : fp32.round r (.ofInt 0 0) = fp32.withSign false 0 := isIeee_fp32.round_zero r false 0
  rw [cvtFromInt, h]
  rfl

theorem cvt16_of_isNaN {f : Fmt} (tz : Bool) {a : Lane} (h : IsNaN a) : cvt16 f tz a = lane32 f.nan := by
  rw [cvt16, show dec32 a = .nan from h]
  rfl

theorem cvt16_infLane {f : Fmt} (tz s : Bool) : cvt16 f tz (infLane s) = lane32 (f.withSign s f.infCode) := by
  rw [cvt16, dec32_infLane]
  rfl

/-! ## Widening conversions (R56, R167) -/

/-- The values of a format that binary32 holds exactly. -/
structure WithinFp32 (f : Fmt) : Prop where
  mb_le : f.mb ≤ 23
  emin_le : -149 ≤ f.emin
  top_lt : gridMag ℚ f f.top < 2 ^ (128 : Int)
  le_top : ∀ c < 2 ^ (f.sign + 1), ∀ x, f.decode c = .fin x → ∃ neg n, n ≤ f.top ∧ x = f.gridVal neg n

theorem WithinFp32.of_isIeee {f : Fmt} (hf : IsIeee f) (hmb : f.mb ≤ 23) (he : -149 ≤ f.emin)
    (ht : gridMag ℚ f f.top < 2 ^ (128 : Int)) : WithinFp32 f where
  mb_le := hmb
  emin_le := he
  top_lt := ht
  le_top c hc x hx := by
    obtain ⟨neg, n, hn, -, rfl⟩ := hf.exists_of_decode_fin hc hx
    exact ⟨neg, n, hn, rfl⟩

theorem gridVal_of_decode_fin {f : Fmt} (hf : f.ieee = false) {c : Nat} {x : Dy} (hx : f.decode c = .fin x) :
    x = f.gridVal (c.testBit f.sign) (c % 2 ^ f.sign) ∧ (f.e4m3 = true → c % 2 ^ f.sign ≠ 0x7F) := by
  rw [Fmt.decode, hf] at hx
  split at hx
  next h => simp at h
  split at hx
  next => simp at hx
  next h => exact ⟨(Fp.fin.inj hx).symm, by simpa using h⟩

theorem within_e4m3 : WithinFp32 e4m3 where
  mb_le := by decide
  emin_le := by decide
  top_lt := by norm_num [gridMag, e4m3, Fmt.emin]
  le_top c _ x hx := by
    obtain ⟨h, hne⟩ := gridVal_of_decode_fin rfl hx
    refine ⟨_, _, ?_, h⟩
    have hlt : c % 2 ^ e4m3.sign < 2 ^ 7 := Nat.mod_lt _ (by decide)
    have := hne rfl
    exact show c % 2 ^ e4m3.sign ≤ 0x7E by omega

theorem within_e2m1 : WithinFp32 e2m1 where
  mb_le := by decide
  emin_le := by decide
  top_lt := by norm_num [gridMag, e2m1, Fmt.emin]
  le_top c _ x hx := by
    obtain ⟨h, -⟩ := gridVal_of_decode_fin rfl hx
    refine ⟨_, _, ?_, h⟩
    have hlt : c % 2 ^ e2m1.sign < 2 ^ 3 := Nat.mod_lt _ (by decide)
    exact show c % 2 ^ e2m1.sign ≤ 7 by omega

theorem isIeee_e5m2 : IsIeee e5m2 := ⟨rfl, rfl, by decide, by decide, rfl, by decide⟩

theorem within_bf16 : WithinFp32 bf16 :=
  .of_isIeee isIeee_bf16 (by decide) (by decide) (by norm_num [gridMag, bf16, Fmt.emin])
theorem within_fp16 : WithinFp32 fp16 :=
  .of_isIeee isIeee_fp16 (by decide) (by decide) (by norm_num [gridMag, fp16, Fmt.emin])
theorem within_e5m2 : WithinFp32 e5m2 :=
  .of_isIeee isIeee_e5m2 (by decide) (by decide) (by norm_num [gridMag, e5m2, Fmt.emin])

theorem gridVal_m_lt (f : Fmt) (neg : Bool) (n : Nat) : (f.gridVal neg n).m < 2 ^ (f.mb + 1) := by
  have := Nat.mod_lt n (Nat.two_pow_pos f.mb)
  rw [Fmt.gridVal, Nat.pow_succ]
  split <;> dsimp only <;> omega

theorem emin_le_gridVal_e (f : Fmt) (neg : Bool) (n : Nat) : f.emin ≤ (f.gridVal neg n).e := by
  rw [Fmt.gridVal]
  split <;> dsimp only <;> omega

/-- A widening conversion is exact (R56). -/
theorem cvtFrom_claim {f : Fmt} (hf : WithinFp32 f) (a : Lane) :
    (f.decode (a.toNat % 2 ^ (f.sign + 1)) = .nan → cvtFrom f a = 0x7FC00000) ∧
    (∀ s, f.decode (a.toNat % 2 ^ (f.sign + 1)) = .inf s → cvtFrom f a = infLane s) ∧
    ∀ x, f.decode (a.toNat % 2 ^ (f.sign + 1)) = .fin x → ∃ y, dec32 (cvtFrom f a) = .fin y ∧ y.neg = x.neg ∧ ratOf y = ratOf x := by
  rw [cvtFrom]
  refine ⟨fun h => by rw [h]; rfl, fun s h => ?_, fun x h => ?_⟩
  · rw [h]
    exact eq_infLane_of_toNat (toNat_lane32 (withSign_lt _ (IsIeee.infCode_lt fp32)))
  · rw [h]
    obtain ⟨neg, n, hn, rfl⟩ := hf.le_top _ (Nat.mod_lt _ (Nat.two_pow_pos _)) x h
    refine decode_fp32_roundTo_of_exact _ _ ?_ (hf.emin_le.trans (emin_le_gridVal_e f neg n)) ?_
    · exact (gridVal_m_lt f neg n).trans_le (Nat.pow_le_pow_right Nat.two_pos (Nat.succ_le_succ hf.mb_le))
    · rw [ratOf_gridVal, abs_signFactor_mul_gridMag]
      exact ((gridMag_strictMono ℚ f).monotone hn).trans_lt hf.top_lt

/-- Settles O23: specials from those of sums and products, narrow codes from the grid, integers from the rounded magnitude. -/
theorem halvesAndConversions : Obligations.HalvesAndConversions := by
  unfold Obligations.HalvesAndConversions
  refine ⟨fun h => ⟨lane2_claim (fun _ _ => rfl) fun _ _ _ _ _ => rfl, lane2_claim (fun _ _ => rfl) fun _ _ _ _ _ => rfl,
      lane3_claim (fun _ _ _ => rfl) fun _ _ _ _ _ _ => rfl⟩, ?_, ?_, ?_, ?_, ?_, ?_, ?_⟩
  · intro h upper a b c f p
    refine ⟨?_, ?_, ?_⟩
    · rw [halfOf_hadd2]
      exact sumSpecial_addFp _ _ _ _
    · rw [halfOf_hmul2]
      exact productSpecial_mulFp (isIeee_halfFmt h) _ _ _
    · rw [halfOf_hfma2]
      exact fusedSpecial_addFp _ _ _ _ _
  · exact ⟨rfl, rfl, fun s => by cases s <;> exact ⟨rfl, rfl⟩⟩
  · refine ⟨cvtI32, cvtN32, fun r => ⟨lane1_claim (fun _ => rfl) fun _ _ _ _ => rfl, lane1_claim (fun _ => rfl) fun _ _ _ _ => rfl⟩,
      fun r a => ⟨fun h => ⟨(cvtInt_claim r _ _ _ a).1 h, (cvtInt_claim r _ _ _ a).1 h⟩,
        fun x hx => ⟨x.toInt r, intRound_toInt x r, ((cvtInt_claim r _ _ _ a).2 x hx).trans (if_congr ?_ rfl rfl),
          ((cvtInt_claim r _ _ _ a).2 x hx).trans (if_congr ?_ rfl rfl)⟩⟩⟩ <;> omega
  · exact fun r => ⟨lane1_claim (fun _ => rfl) fun _ _ _ _ => rfl, lane1_claim (fun _ => rfl) fun _ _ _ _ => rfl, cvtFromInt_zero r⟩
  · refine fun tz => ⟨lane1_claim (fun _ => rfl) fun _ _ _ _ => rfl, lane1_claim (fun _ => rfl) fun _ _ _ _ => rfl,
      fun a => ⟨fun h => ⟨cvt16_of_isNaN tz h, cvt16_of_isNaN tz h⟩, fun s => ?_⟩⟩
    rw [cvt16_infLane, cvt16_infLane]
    cases s <;> exact ⟨rfl, rfl⟩
  · have h4 := isNarrowing_cvtE4m3
    have h5 := isNarrowing_cvtE5m2
    have h2 := isNarrowing_cvtE2m1
    refine ⟨cvtE4m3, cvtE5m2, cvtE2m1, fun x => ⟨lane1_claim (fun _ => rfl) fun _ _ _ _ => rfl,
      lane1_claim (fun _ => rfl) fun _ _ _ _ => rfl⟩, lane1_claim (fun _ => rfl) fun _ _ _ _ => rfl,
      fun x a => ⟨(h4 x).lt a, (h5 x).lt a, h2.lt a⟩, fun x a h => ⟨(h4 x).nan a h, (h5 x).nan a h, h2.nan a h⟩, fun s => ?_,
      fun y a x hx => ⟨(h4 y).fin a x hx, (h5 y).fin a x hx, h2.fin a x hx⟩⟩
    rw [(h4 false).inf, (h4 true).inf, (h5 false).inf, (h5 true).inf, h2.inf]
    cases s <;> exact ⟨rfl, rfl, rfl, rfl, rfl⟩
  · intro p hp
    simp only [List.mem_cons, List.not_mem_nil, or_false] at hp
    rcases hp with rfl | rfl | rfl | rfl | rfl
    · exact ⟨_, lane1_claim (fun _ => rfl) fun _ _ _ _ => rfl, cvtFrom_claim within_bf16⟩
    · exact ⟨_, lane1_claim (fun _ => rfl) fun _ _ _ _ => rfl, cvtFrom_claim within_fp16⟩
    · exact ⟨_, lane1_claim (fun _ => rfl) fun _ _ _ _ => rfl, cvtFrom_claim within_e4m3⟩
    · exact ⟨_, lane1_claim (fun _ => rfl) fun _ _ _ _ => rfl, cvtFrom_claim within_e5m2⟩
    · exact ⟨_, lane1_claim (fun _ => rfl) fun _ _ _ _ => rfl, cvtFrom_claim within_e2m1⟩

end Sys2Proof.Proofs
end

section
/-!
PROOFS. Cross-lane instructions (05: R168 to R174).
-/

open Sys2Proof Sys2Proof.Machine Sys2Proof.Claims

namespace Sys2Proof.Proofs

/-! ## Lane results of the cross-lane instructions (R168) -/

theorem putLanes_congr {act : LaneMask} {d : Nat} {f g : Nat → Lane} (h : ∀ l < 32, f l = g l) (v : List LaneVec) :
    putLanes act d [f] v = putLanes act d [g] v := by
  rw [putLanes, putLanes]
  congr 1
  funext r
  congr 1
  funext l x
  by_cases hl : l < 32
  · rw [h l hl]
  · rw [BitVec.getLsbD_of_ge act l (not_lt.mp hl)]
    rfl

theorem laneResult_of_crossLane {i : Instr} {s : State} {k : Issue} {regs : List Nat} {g : Guard} {d : VReg} {f : Nat → Lane}
    (v : LaneView → Nat → Lane) (hv : ∀ l < 32, v ⟨k, k.active g, s.dev.source k⟩ l = f l) (hk : s.dev.issuer? = some k)
    (hi : exec i s = crossLane s regs g d v) : LaneResult s k i 6 regs g d f := by
  obtain ⟨hb, hw⟩ := laneResult_of_laneInstr (f := v ⟨k, k.active g, s.dev.source k⟩) v (fun _ => rfl) hk hi
  refine ⟨hb, fun h => (hw h).trans ?_⟩
  simp only [putLanes_congr hv]

theorem named_eq_namedLane (s : State) (k : Issue) (g : Guard) (a : VReg) (j : Nat) :
    LaneView.named ⟨k, k.active g, s.dev.source k⟩ a j = namedLane s k a j := by
  have hbit : k.lanes.getLsbD j = inGang k.gang (j / 4) := by
    by_cases hj : j < 32
    · exact getLsbD_lanes k hj
    · rw [BitVec.getLsbD_of_ge _ _ (not_lt.mp hj), inGang, BitVec.getLsbD_of_ge _ _ (by omega)]
  rw [LaneView.named, namedLane]
  exact if_congr (by rw [hbit]) rfl rfl

theorem shift_eq {x : LaneView} {a : VReg} {l : Nat} {j : Int} :
    x.shift a l j = if 0 ≤ j ∧ j < 32 then x.named a j.toNat else x.rd1 a l := rfl

theorem shiftUp_eq (s : State) (k : Issue) (g : Guard) (a : VReg) (n : Nat) {l : Nat} (hl : l < 32) :
    LaneView.shift ⟨k, k.active g, s.dev.source k⟩ a l ((l : Int) - n) =
      if n ≤ l then namedLane s k a (l - n) else s.dev.source k a.toNat l := by
  rw [shift_eq, named_eq_namedLane]
  by_cases h : n ≤ l
  · rw [if_pos (by omega), if_pos h]
    congr 1
    omega
  · rw [if_neg (by omega), if_neg h]
    rfl

theorem shiftDn_eq (s : State) (k : Issue) (g : Guard) (a : VReg) (n : Nat) (l : Nat) :
    LaneView.shift ⟨k, k.active g, s.dev.source k⟩ a l ((l : Int) + n) =
      if l + n < 32 then namedLane s k a (l + n) else s.dev.source k a.toNat l := by
  rw [shift_eq, named_eq_namedLane]
  by_cases h : l + n < 32
  · rw [if_pos (by omega), if_pos h]
    congr 1
  · rw [if_neg (by omega), if_neg h]
    rfl

/-! ## Votes and matches (R171, R173) -/

theorem lanesOf_eq_activeLanes (k : Issue) (g : Guard) : lanesOf (k.active g) = activeLanes k g := rfl

theorem mem_activeLanes {k : Issue} {g : Guard} {l : Nat} : l ∈ activeLanes k g ↔ l < 32 ∧ (k.active g).getLsbD l = true := by
  rw [activeLanes, List.mem_filter, List.mem_range]

theorem and_active_bne_zero (k : Issue) (g : Guard) (m : LaneMask) :
    (m &&& k.active g != 0) = (activeLanes k g).any fun j => m.getLsbD j := by
  rw [Bool.eq_iff_iff, bne_iff_ne, bitVec_ne_zero_iff, List.any_eq_true]
  simp only [BitVec.getLsbD_and, Bool.and_eq_true, mem_activeLanes]
  exact exists_congr fun l => ⟨fun ⟨h, hm, ha⟩ => ⟨⟨h, ha⟩, hm⟩, fun ⟨⟨h, ha⟩, hm⟩ => ⟨h, hm, ha⟩⟩

theorem and_active_beq_active (k : Issue) (g : Guard) (m : LaneMask) :
    (m &&& k.active g == k.active g) = (activeLanes k g).all fun j => m.getLsbD j := by
  rw [Bool.eq_iff_iff, beq_iff_eq, List.all_eq_true]
  simp only [mem_activeLanes]
  constructor
  · rintro h l ⟨-, ha⟩
    rw [← h, BitVec.getLsbD_and, Bool.and_eq_true] at ha
    exact ha.1
  · intro h
    refine BitVec.eq_of_getLsbD_eq fun l hl => ?_
    rw [BitVec.getLsbD_and]
    by_cases ha : (k.active g).getLsbD l = true
    · rw [ha, h l ⟨hl, ha⟩, Bool.and_true]
    · rw [Bool.not_eq_true] at ha
      rw [ha, Bool.and_false]

theorem getLsbD_matching (act : LaneMask) (p : Nat → Prop) [DecidablePred p] {j : Nat} (hj : j < 32) :
    (lane32 ((lanesOf act).foldl (fun n k => if p k then n + 2 ^ k else n) 0)).getLsbD j = (act.getLsbD j && decide (p j)) := by
  have hfold : (lanesOf act).foldl (fun n k => if p k then n + 2 ^ k else n) 0 =
      onesBelow (fun k => act.getLsbD k && decide (p k)) 32 := by
    rw [lanesOf, List.foldl_filter, onesBelow]
    congr 1
    funext n k
    cases act.getLsbD k <;> simp
  rw [hfold, lane32, BitVec.getLsbD_ofNat, testBit_onesBelow]
  simp [hj]

/-! ## Reductions and scans (R172) -/

theorem foldl_add_eq_ofNat_sum (l : List Nat) (x : Nat → Lane) :
    (l.map x).foldl (· + ·) 0 = BitVec.ofNat 32 (l.map fun i => (x i).toNat).sum := by
  rw [List.foldl_map]
  have h := foldl_add_map_sum (BitVec.ofNat 32) BitVec.ofNat_add (fun i => (x i).toNat) l 0
  simpa using h

/-- Folding a choice between two leaves an element with the least key. -/
theorem foldl_pick_spec {α : Type} {key : α → Int} {pick : α → α → α} (hmem : ∀ p q, pick p q = p ∨ pick p q = q)
    (hle : ∀ p q, key (pick p q) ≤ key p ∧ key (pick p q) ≤ key q) (l : List α) (p : α) :
    l.foldl pick p ∈ p :: l ∧ ∀ q ∈ p :: l, key (l.foldl pick p) ≤ key q := by
  induction l generalizing p with
  | nil => simp
  | cons q l ih =>
    obtain ⟨hin, hleast⟩ := ih (pick p q)
    have hhead := hleast _ List.mem_cons_self
    rw [List.foldl_cons]
    refine ⟨?_, fun y hy => ?_⟩
    · rcases List.mem_cons.mp hin with h | h
      · rw [h]
        rcases hmem p q with h | h <;> simp [h]
      · simp [h]
    · rcases List.mem_cons.mp hy with rfl | hy
      · exact hhead.trans (hle _ _).1
      rcases List.mem_cons.mp hy with rfl | hy
      · exact hhead.trans (hle _ _).2
      · exact hleast y (List.mem_cons_of_mem _ hy)

/-- The identity of a reduction is no better than any lane, so the result is one of theirs. -/
theorem reduction_spec {key : Lane → Int} {pick : Lane → Lane → Lane} (hinj : Function.Injective key)
    (hmem : ∀ p q, pick p q = p ∨ pick p q = q) (hle : ∀ p q, key (pick p q) ≤ key p ∧ key (pick p q) ≤ key q) {p : Lane}
    (hp : ∀ q, key q ≤ key p) {l : List Lane} {q : Lane} (hq : q ∈ l) :
    l.foldl pick p ∈ l ∧ key (l.foldl pick p) ≤ key q := by
  obtain ⟨hin, hleast⟩ := foldl_pick_spec hmem hle l p
  have hrq := hleast q (List.mem_cons_of_mem _ hq)
  refine ⟨?_, hrq⟩
  rcases List.mem_cons.mp hin with h | h
  · rw [h] at hrq ⊢
    rwa [← hinj ((hp q).antisymm hrq)]
  · exact h

theorem toInt_le_greatest (q : Lane) : q.toInt ≤ (0x7FFFFFFF : Lane).toInt := by
  have h : q.toInt < 2 ^ 31 := BitVec.toInt_lt
  have htop : (0x7FFFFFFF : Lane).toInt = 2 ^ 31 - 1 := by decide
  omega

theorem least_le_toInt (q : Lane) : (0x80000000 : Lane).toInt ≤ q.toInt := by
  have h : -2 ^ 31 ≤ q.toInt := BitVec.le_toInt q
  have hbot : (0x80000000 : Lane).toInt = -2 ^ 31 := by decide
  omega

/-- The result of `redMin` over some lanes' values. -/
def leastLane (l : List Lane) : Lane := l.foldl (fun p q => if q.slt p then q else p) 0x7FFFFFFF
/-- The result of `redMax`. -/
def greatestLane (l : List Lane) : Lane := l.foldl (fun p q => if p.slt q then q else p) 0x80000000

theorem leastLane_spec {l : List Lane} {q : Lane} (hq : q ∈ l) : leastLane l ∈ l ∧ (leastLane l).toInt ≤ q.toInt := by
  refine reduction_spec (key := BitVec.toInt) (fun _ _ => BitVec.eq_of_toInt_eq) (fun p q => (ite_eq_or_eq _ _ _).symm) (fun p q => ?_)
    toInt_le_greatest hq
  split
  next h => exact ⟨(BitVec.slt_iff_toInt_lt.mp h).le, le_rfl⟩
  next h => exact ⟨le_rfl, not_lt.mp fun hlt => h (BitVec.slt_iff_toInt_lt.mpr hlt)⟩

theorem greatestLane_spec {l : List Lane} {q : Lane} (hq : q ∈ l) : greatestLane l ∈ l ∧ q.toInt ≤ (greatestLane l).toInt := by
  refine (reduction_spec (key := fun x => -x.toInt) (fun _ _ h => BitVec.eq_of_toInt_eq (neg_injective h))
    (fun p q => (ite_eq_or_eq _ _ _).symm) (fun p q => ?_) (fun q => neg_le_neg (least_le_toInt q)) hq).imp id neg_le_neg_iff.mp
  split
  next h => exact ⟨neg_le_neg (BitVec.slt_iff_toInt_lt.mp h).le, le_rfl⟩
  next h => exact ⟨le_rfl, neg_le_neg (not_lt.mp fun hlt => h (BitVec.slt_iff_toInt_lt.mpr hlt))⟩

/-! ### Sums with infinities, NaN and zeros -/

theorem sumFp_of_special {l : List Fp} (h : .nan ∈ l ∨ (.inf true ∈ l ∧ .inf false ∈ l)) : sumFp l = 0x7FC00000 := by
  rw [sumFp]
  refine if_pos ?_
  rcases h with h | ⟨h1, h2⟩
  · simp [h]
  · simp [h1, h2]

theorem sumFp_of_inf {l : List Fp} {s : Bool} (hnan : .nan ∉ l) (hin : .inf s ∈ l) (hout : .inf (!s) ∉ l) : sumFp l = infLane s := by
  have hn : l.contains .nan = false := by simpa using hnan
  have hi : l.contains (.inf s) = true := by simpa using hin
  have ho : l.contains (.inf (!s)) = false := by simpa using hout
  rw [sumFp]
  cases s
  · simp only [Bool.not_false] at ho
    simp only [hn, hi, ho]
    rfl
  · simp only [Bool.not_true] at ho
    simp only [hn, hi, ho]
    rfl

theorem sumFp_of_zero {l : List Dy} (h : (l.map ratOf).sum = 0) :
    sumFp (l.map .fin) = if l ≠ [] ∧ ∀ x ∈ l, x.m = 0 ∧ x.neg = true then 0x80000000 else 0 := by
  rw [← ratOf_sum, ratOf_eq_zero_iff] at h
  rw [sumFp_fin, if_pos h]
  exact if_congr (by simp) rfl rfl

/-! ### The scale of a block (R58, R174) -/

/-- The exponent of a nonzero value. -/
theorem log2_spec {x : Dy} (hx : x.m ≠ 0) : (2 : ℚ) ^ x.log2 ≤ |ratOf x| ∧ |ratOf x| < (2 : ℚ) ^ (x.log2 + 1) := by
  obtain ⟨l, hl, hlow, hhigh⟩ := bitLen_of_pos (Nat.pos_of_ne_zero hx)
  have hpow (j : Nat) : (2 : ℚ) ^ (x.e + (j : Int)) = ((2 ^ j : Nat) : ℚ) * 2 ^ x.e := by
    rw [add_comm, zpow_add₀ (by norm_num), zpow_natCast]
    push_cast
    rfl
  rw [abs_ratOf, Dy.log2, hl, Nat.add_sub_cancel, add_assoc, hpow, show ((l : Int) + 1) = ((l + 1 : Nat) : Int) by push_cast; rfl, hpow]
  constructor <;> gcongr

theorem log2_eq {x : Dy} {e : Int} (hlo : (2 : ℚ) ^ e ≤ |ratOf x|) (hhi : |ratOf x| < (2 : ℚ) ^ (e + 1)) : x.log2 = e := by
  have hx : x.m ≠ 0 := by
    rw [Ne, ← ratOf_eq_zero_iff, ← abs_eq_zero]
    have : (0 : ℚ) < 2 ^ e := by positivity
    linarith
  obtain ⟨h1, h2⟩ := log2_spec hx
  have ha := (zpow_lt_zpow_iff_right₀ (show (1 : ℚ) < 2 by norm_num)).mp (hlo.trans_lt h2)
  have hb := (zpow_lt_zpow_iff_right₀ (show (1 : ℚ) < 2 by norm_num)).mp (h1.trans_lt hhi)
  omega

theorem log2_le {x : Dy} (hx : x.m ≠ 0) {e : Int} (hhi : |ratOf x| < (2 : ℚ) ^ (e + 1)) : x.log2 ≤ e := by
  have h := (zpow_lt_zpow_iff_right₀ (show (1 : ℚ) < 2 by norm_num)).mp ((log2_spec hx).1.trans_lt hhi)
  omega

/-- The exponents that the scale of a block looks at. -/
def blockLogs (xs : List Lane) : List Int :=
  (xs.map dec32).filterMap fun x => match x with | .fin y => if y.m = 0 then none else some y.log2 | _ => none

theorem mem_blockLogs {xs : List Lane} {e : Int} :
    e ∈ blockLogs xs ↔ ∃ a ∈ xs, ∃ y, dec32 a = .fin y ∧ y.m ≠ 0 ∧ y.log2 = e := by
  rw [blockLogs, List.filterMap_map, List.mem_filterMap]
  refine exists_congr fun a => and_congr_right fun _ => ?_
  rw [Function.comp]
  cases dec32 a with
  | nan => simp
  | inf s => simp
  | fin y => by_cases hy : y.m = 0 <;> simp [hy]

theorem foldl_max_of {l : List Int} {e top : Int} (hle : ∀ q ∈ e :: l, q ≤ top) (hin : top ∈ e :: l) : l.foldl max e = top := by
  obtain ⟨hmem, hleast⟩ := foldl_pick_spec (key := fun x : Int => -x) (pick := max) (fun p q => max_choice p q)
    (fun p q => ⟨neg_le_neg (le_max_left _ _), neg_le_neg (le_max_right _ _)⟩) l e
  exact (hle _ hmem).antisymm (neg_le_neg_iff.mp (hleast _ hin))

/-- A value without an exponent: NaN or an infinity. -/
def isSpecial : Fp → Bool
  | .fin _ => false
  | _ => true

theorem isSpecial_iff {x : Fp} : isSpecial x = true ↔ ∀ y, x ≠ .fin y := by cases x <;> simp [isSpecial]

/-- The scale whose exponent is the largest of the given ones. -/
def scaleOf (f : Nat) : List Int → Nat
  | [] => 0
  | e :: t => (max (-127) (min 127 (t.foldl max e - scaleEmax f)) + 127).toNat

theorem blockScale_eq (f : Nat) (xs : List Lane) :
    blockScale f xs = if (xs.map dec32).any isSpecial then 0xFF else scaleOf f (blockLogs xs) := by
  rw [show isSpecial = fun x => match x with | .fin _ => false | _ => true by funext x; cases x <;> rfl]
  rfl

theorem blockScale_of_special (f : Nat) {xs : List Lane} (h : ∃ a ∈ xs, ∀ y, dec32 a ≠ .fin y) : blockScale f xs = 0xFF := by
  rw [blockScale_eq]
  refine if_pos ?_
  obtain ⟨a, ha, hy⟩ := h
  exact List.any_eq_true.mpr ⟨_, List.mem_map_of_mem ha, isSpecial_iff.mpr hy⟩

theorem blockScale_of_finite (f : Nat) {xs : List Lane} (h : ∀ a ∈ xs, ∃ y, dec32 a = .fin y) :
    blockScale f xs = scaleOf f (blockLogs xs) := by
  rw [blockScale_eq]
  refine if_neg ?_
  rw [List.any_eq_true]
  rintro ⟨x, hx, hs⟩
  obtain ⟨a, ha, rfl⟩ := List.mem_map.mp hx
  obtain ⟨y, hy⟩ := h a ha
  exact isSpecial_iff.mp hs y hy

theorem blockScale_of_zeros (f : Nat) {xs : List Lane} (h : ∀ a ∈ xs, ∃ y, dec32 a = .fin y ∧ y.m = 0) : blockScale f xs = 0 := by
  have hnil : blockLogs xs = [] := by
    refine List.eq_nil_iff_forall_not_mem.mpr fun e he => ?_
    obtain ⟨a, ha, y, hy, hm, -⟩ := mem_blockLogs.mp he
    obtain ⟨z, hz, hz0⟩ := h a ha
    rw [hy, Fp.fin.injEq] at hz
    exact hm (hz ▸ hz0)
  rw [blockScale_of_finite f fun a ha => (h a ha).imp fun _ h => h.1, hnil]
  rfl

theorem blockScale_of_max (f : Nat) {xs : List Lane} {m : ℚ} {e : Int} (hle : ∀ a ∈ xs, ∃ y, dec32 a = .fin y ∧ |ratOf y| ≤ m)
    (hin : ∃ a ∈ xs, ∃ y, dec32 a = .fin y ∧ |ratOf y| = m) (hlo : (2 : ℚ) ^ e ≤ m) (hhi : m < (2 : ℚ) ^ (e + 1)) :
    (blockScale f xs : Int) = max (-127) (min 127 (e - scaleEmax f)) + 127 := by
  have htop : e ∈ blockLogs xs := by
    obtain ⟨a, ha, y, hy, rfl⟩ := hin
    have hlog := log2_eq hlo hhi
    refine mem_blockLogs.mpr ⟨a, ha, y, hy, fun h0 => ?_, hlog⟩
    rw [ratOf_eq_zero_iff.mpr h0, abs_zero] at hlo
    have : (0 : ℚ) < 2 ^ e := by positivity
    linarith
  have hbelow (q : Int) (hq : q ∈ blockLogs xs) : q ≤ e := by
    obtain ⟨a, ha, y, hy, hm, rfl⟩ := mem_blockLogs.mp hq
    obtain ⟨z, hz, hzm⟩ := hle a ha
    rw [hy, Fp.fin.injEq] at hz
    exact log2_le hm ((hz ▸ hzm).trans_lt hhi)
  rw [blockScale_of_finite f fun a ha => (hle a ha).imp fun _ h => h.1]
  generalize blockLogs xs = l at htop hbelow
  cases l with
  | nil => exact absurd htop (by simp)
  | cons q t =>
    rw [scaleOf, foldl_max_of hbelow htop]
    omega

theorem blockScale_lt (f : Nat) (xs : List Lane) : blockScale f xs < 256 := by
  rw [blockScale_eq]
  split
  · decide
  · cases blockLogs xs with
    | nil => rw [scaleOf]; omega
    | cons e t => rw [scaleOf]; omega

theorem scaleEmax_eq {f : BitVec 8} : scaleEmax f.toNat = if f = 2 then 8 else if f = 3 then 15 else 2 := by
  have h (n : Nat) (hn : n < 256) : f.toNat = n ↔ f = BitVec.ofNat 8 n := by
    rw [← BitVec.toNat_inj, BitVec.toNat_ofNat, Nat.mod_eq_of_lt hn]
  rw [scaleEmax]
  exact if_congr (h 2 (by decide)) rfl (if_congr (h 3 (by decide)) rfl rfl)

/-- Settles O24: shuffles by the named lanes, votes and matches bit by bit, reductions by their folds. -/
theorem lanePermutationsAndReductions : Obligations.LanePermutationsAndReductions := by
  unfold Obligations.LanePermutationsAndReductions
  refine ⟨fun s k g hk => ⟨fun d a b => ?_, fun d a n _ => ⟨?_, ?_, ?_, ?_⟩, fun d a => ⟨?_, ?_⟩, fun d a => ?_, fun d a => ?_⟩,
    ?_, fun l => ⟨sumFp_of_special, fun s => sumFp_of_inf⟩, fun l => sumFp_of_zero⟩
  · exact laneResult_of_crossLane (fun x l => x.named a ((x.rd1 b l).toNat % 32)) (fun l _ => named_eq_namedLane s k g a _) hk rfl
  · exact laneResult_of_crossLane (fun x l => x.named a (Nat.xor l n.toNat)) (fun l _ => named_eq_namedLane s k g a _) hk rfl
  · exact laneResult_of_crossLane (fun x l => x.shift a l ((l : Int) - n.toNat)) (fun l => shiftUp_eq s k g a n.toNat) hk rfl
  · exact laneResult_of_crossLane (fun x l => x.shift a l ((l : Int) + n.toNat)) (fun l _ => shiftDn_eq s k g a n.toNat l) hk rfl
  · exact laneResult_of_crossLane (fun x _ => x.named a n.toNat) (fun l _ => named_eq_namedLane s k g a _) hk rfl
  · exact laneMaskResult_of_laneCmp (fun x _ => x.k.wave.mask a &&& x.act != 0) (fun _ => and_active_bne_zero k g _) hk rfl
  · exact laneMaskResult_of_laneCmp (fun x _ => x.k.wave.mask a &&& x.act == x.act) (fun _ => and_active_beq_active k g _) hk rfl
  · refine ⟨k.wave.mask a &&& k.active g,
      laneResult_of_crossLane (fun x _ => x.k.wave.mask a &&& x.act) (fun _ _ => rfl) hk rfl, fun j => ?_⟩
    rw [BitVec.getLsbD_and, Bool.and_comm]
  · exact ⟨_, laneResult_of_crossLane (fun x l => lane32 ((lanesOf x.act).foldl
      (fun n k => if x.rd1 a k = x.rd1 a l then n + 2 ^ k else n) 0)) (fun _ _ => rfl) hk rfl,
      fun l j hj => getLsbD_matching (k.active g) (fun j => s.dev.source k a.toNat j = s.dev.source k a.toNat l) hj⟩
  · intro s k g d a hk x act upTo gives
    refine ⟨?_, ?_, ?_, ?_, ?_, fun f hf => ?_⟩
    · exact laneResult_of_crossLane (fun x _ => (x.values a).foldl (· + ·) 0) (fun _ _ => foldl_add_eq_ofNat_sum _ _) hk rfl
    · exact laneResult_of_crossLane (fun x l => (x.prefix_ a l).foldl (· + ·) 0) (fun _ _ => foldl_add_eq_ofNat_sum _ _) hk rfl
    · exact laneResult_of_crossLane (fun x _ => sumFp ((x.values a).map dec32)) (fun _ _ => congrArg sumFp List.map_map) hk rfl
    · exact laneResult_of_crossLane (fun x l => sumFp ((x.prefix_ a l).map dec32)) (fun _ _ => congrArg sumFp List.map_map) hk rfl
    · refine ⟨leastLane (act.map x), greatestLane (act.map x),
        laneResult_of_crossLane (fun x _ => leastLane (x.values a)) (fun _ _ => rfl) hk rfl,
        laneResult_of_crossLane (fun x _ => greatestLane (x.values a)) (fun _ _ => rfl) hk rfl, fun l hl => ?_⟩
      have hmem : x l ∈ act.map x := List.mem_map_of_mem hl
      obtain ⟨hmin, hlo⟩ := leastLane_spec hmem
      obtain ⟨hmax, hhi⟩ := greatestLane_spec hmem
      obtain ⟨i, hi, hix⟩ := List.mem_map.mp hmin
      obtain ⟨j, hj, hjx⟩ := List.mem_map.mp hmax
      exact ⟨hlo, hhi, ⟨i, hi, hix.symm⟩, j, hj, hjx.symm⟩
    · refine ⟨blockScale f.toNat (act.map x), blockScale_lt _ _,
        laneResult_of_crossLane (fun x _ => lane32 (blockScale f.toNat (x.values a))) (fun _ _ => rfl) hk rfl, ?_, ?_, ?_⟩
      · rintro ⟨l, hl, hy⟩
        exact blockScale_of_special _ ⟨x l, List.mem_map_of_mem hl, hy⟩
      · exact fun h => blockScale_of_zeros _ (List.forall_mem_map.mpr h)
      · rintro m e hle ⟨l, hl, hin⟩ hlo hhi
        rw [← scaleEmax_eq]
        exact blockScale_of_max _ (List.forall_mem_map.mpr hle) ⟨x l, List.mem_map_of_mem hl, hin⟩ hlo hhi

end Sys2Proof.Proofs
end

section
/-!
PROOFS. Minimum, maximum, compares, integral values, classes and the special functions (05: R156 to R160, Table 5-5).
-/

open Sys2Proof Sys2Proof.Machine Sys2Proof.Claims

namespace Sys2Proof.Proofs

/-! ## Orders of values: minimum, maximum and compares (R156, R158) -/

theorem fpBelow_fin (x y : Dy) : fpBelow (.fin x) (.fin y) = true ↔
    (x.m = 0 ∧ y.m = 0 ∧ x.neg = true ∧ y.neg = false) ∨ (¬ (x.m = 0 ∧ y.m = 0) ∧ ratOf x < ratOf y) := by
  rw [fpBelow]
  by_cases h : x.m = 0 ∧ y.m = 0
  · simp [h]
  · rw [if_neg h, lt_iff_ratOf_lt]
    simp only [h, not_false_eq_true, true_and]
    exact ⟨.inr, fun h' => h'.resolve_left fun hx => h ⟨hx.1, hx.2.1⟩⟩

/-- In the order of minimum and maximum: a smaller value, or −0 before +0 (R156). -/
def Before (x y : Dy) : Prop := ratOf x < ratOf y ∨ (x.m = 0 ∧ y.m = 0 ∧ x.neg = true ∧ y.neg = false)

theorem fpBelow_of_before {x y : Dy} (h : Before x y) :
    fpBelow (.fin x) (.fin y) = true ∧ fpBelow (.fin y) (.fin x) = false := by
  rw [← Bool.not_eq_true, fpBelow_fin, fpBelow_fin]
  rcases h with h | ⟨hx, hy, hxn, hyn⟩
  · have hne : ¬ (x.m = 0 ∧ y.m = 0) := fun h0 => by
      rw [ratOf_eq_zero_iff.mpr h0.1, ratOf_eq_zero_iff.mpr h0.2] at h
      exact lt_irrefl _ h
    refine ⟨.inr ⟨hne, h⟩, ?_⟩
    rintro (⟨hy, hx, -⟩ | ⟨-, h'⟩)
    · exact hne ⟨hx, hy⟩
    · exact lt_asymm h h'
  · simp [hx, hy, hxn, hyn]

theorem fminmax_of_not_isNaN (mx num : Bool) {a b : Lane} (ha : ¬ IsNaN a) (hb : ¬ IsNaN b) : fminmax mx num a b =
    if mx then (if fpBelow (dec32 a) (dec32 b) then b else a) else (if fpBelow (dec32 b) (dec32 a) then b else a) := by
  rw [fminmax]
  cases hx : dec32 a with
  | nan => exact absurd hx ha
  | inf s =>
    cases hy : dec32 b with
    | nan => exact absurd hy hb
    | inf t => rfl
    | fin y => rfl
  | fin x =>
    cases hy : dec32 b with
    | nan => exact absurd hy hb
    | inf t => rfl
    | fin y => rfl

theorem fminmax_of_isNaN (mx : Bool) {a b : Lane} (h : IsNaN a ∨ IsNaN b) : fminmax mx false a b = 0x7FC00000 := by
  rw [IsNaN, IsNaN] at h
  rw [fminmax]
  rcases h with h | h
  · rw [h]
    cases dec32 b <;> rfl
  · rw [h]
    cases dec32 a <;> rfl

theorem fminmax_num_of_isNaN (mx : Bool) {a b : Lane} (ha : IsNaN a) : (IsNaN b → fminmax mx true a b = 0x7FC00000) ∧
    (¬ IsNaN b → fminmax mx true a b = b ∧ fminmax mx true b a = b) := by
  rw [IsNaN] at ha ⊢
  rw [fminmax, fminmax, ha]
  refine ⟨fun hb => by rw [hb]; rfl, fun hb => ?_⟩
  cases hd : dec32 b with
  | nan => exact absurd hd hb
  | inf s => exact ⟨rfl, rfl⟩
  | fin y => exact ⟨rfl, rfl⟩

theorem not_isNaN_of_fin {a : Lane} {x : Dy} (h : dec32 a = .fin x) : ¬ IsNaN a := by
  rw [IsNaN, h]
  exact nofun

theorem not_isNaN_infLane (s : Bool) : ¬ IsNaN (infLane s) := by
  rw [IsNaN, dec32_infLane]
  exact nofun

/-- Binary32 has one code for each infinity. -/
theorem eq_infLane_of_dec32 {a : Lane} {s : Bool} (h : dec32 a = .inf s) : a = infLane s := by
  have hlt : a.toNat < 2 ^ (fp32.sign + 1) := a.isLt
  have hmod : a.toNat % 2 ^ fp32.sign < 2 ^ fp32.sign := Nat.mod_lt _ (Nat.two_pow_pos _)
  have hw := eq_withSign hlt
  rw [dec32, hw, isIeee_fp32.decode_withSign _ hmod] at h
  split at h
  next => simp at h
  split at h
  next heq =>
    rw [heq, Fp.inf.inj h] at hw
    exact eq_infLane_of_toNat hw
  next => simp at h

theorem fminmax_of_before (num : Bool) {a b : Lane} {x y : Dy} (ha : dec32 a = .fin x) (hb : dec32 b = .fin y) (h : Before x y) :
    fminmax false num a b = a ∧ fminmax false num b a = a ∧ fminmax true num a b = b ∧ fminmax true num b a = b := by
  obtain ⟨h1, h2⟩ := fpBelow_of_before h
  have hna := not_isNaN_of_fin ha
  have hnb := not_isNaN_of_fin hb
  simp [fminmax_of_not_isNaN, hna, hnb, ha, hb, h1, h2]

/-- Nothing lies below minus infinity; every other number lies above it. -/
theorem fpBelow_negInf {x : Fp} (hx : x ≠ .nan) : fpBelow x (.inf true) = false ∧ (fpBelow (.inf true) x = false → x = .inf true) := by
  cases x with
  | nan => exact absurd rfl hx
  | inf s => cases s <;> simp [fpBelow]
  | fin y => simp [fpBelow]

theorem fpBelow_posInf {x : Fp} (hx : x ≠ .nan) : fpBelow (.inf false) x = false ∧ (fpBelow x (.inf false) = false → x = .inf false) := by
  cases x with
  | nan => exact absurd rfl hx
  | inf s => cases s <;> simp [fpBelow]
  | fin y => simp [fpBelow]

theorem fminmax_of_inf (num : Bool) {a : Lane} (ha : ¬ IsNaN a) :
    (fminmax false num (infLane true) a = infLane true ∧ fminmax false num a (infLane true) = infLane true ∧
      fminmax false num (infLane false) a = a ∧ fminmax false num a (infLane false) = a) ∧
    (fminmax true num (infLane false) a = infLane false ∧ fminmax true num a (infLane false) = infLane false ∧
      fminmax true num (infLane true) a = a ∧ fminmax true num a (infLane true) = a) := by
  obtain ⟨hn1, hn2⟩ := fpBelow_negInf ha
  obtain ⟨hp1, hp2⟩ := fpBelow_posInf ha
  have hneg (h : fpBelow (.inf true) (dec32 a) = false) : a = infLane true := eq_infLane_of_dec32 (hn2 h)
  have hpos (h : fpBelow (dec32 a) (.inf false) = false) : a = infLane false := eq_infLane_of_dec32 (hp2 h)
  simp only [fminmax_of_not_isNaN _ _ ha (not_isNaN_infLane _), fminmax_of_not_isNaN _ _ (not_isNaN_infLane _) ha, dec32_infLane, hn1, hp1,
    Bool.false_eq_true, if_false, if_true]
  refine ⟨⟨trivial, ?_, ?_, trivial⟩, trivial, ?_, ?_, trivial⟩
  · split
    next => rfl
    next h => exact hneg (by simpa using h)
  · split
    next => rfl
    next h => exact (hpos (by simpa using h)).symm
  · split
    next => rfl
    next h => exact hpos (by simpa using h)
  · split
    next => rfl
    next h => exact (hneg (by simpa using h)).symm

theorem fminmax_self (mx num : Bool) {a : Lane} (ha : ¬ IsNaN a) : fminmax mx num a a = a := by
  rw [fminmax_of_not_isNaN mx num ha ha]
  simp

/-! ### Compares -/

theorem fcmpHolds_of_isNaN (cc : FCmp) {a b : Lane} (h : IsNaN a ∨ IsNaN b) : fcmpHolds cc a b = (cc == .ne || cc == .uno) := by
  have hun : (dec32 a == .nan || dec32 b == .nan) = true := by
    rw [IsNaN, IsNaN] at h
    simpa using h
  cases cc <;> simp [fcmpHolds, hun]

theorem fcmpHolds_of_fin {a b : Lane} {x y : Dy} (ha : dec32 a = .fin x) (hb : dec32 b = .fin y) (cc : FCmp) :
    fcmpHolds cc a b = match cc with
      | .eq => !x.lt y && !y.lt x | .ne => x.lt y || y.lt x | .lt => x.lt y | .le => !y.lt x | .gt => y.lt x | .ge => !x.lt y
      | .ord => true | .uno => false := by
  have hx : ((Fp.fin x) == .nan) = false := rfl
  have hy : ((Fp.fin y) == .nan) = false := rfl
  cases cc <;> simp [fcmpHolds, ha, hb, hx, hy, fpLt]

theorem fcmpHolds_fin_iff {a b : Lane} {x y : Dy} (ha : dec32 a = .fin x) (hb : dec32 b = .fin y) :
    (fcmpHolds .eq a b = true ↔ ratOf x = ratOf y) ∧ (fcmpHolds .ne a b = true ↔ ratOf x ≠ ratOf y) ∧
    (fcmpHolds .lt a b = true ↔ ratOf x < ratOf y) ∧ (fcmpHolds .le a b = true ↔ ratOf x ≤ ratOf y) ∧
    (fcmpHolds .gt a b = true ↔ ratOf x > ratOf y) ∧ (fcmpHolds .ge a b = true ↔ ratOf x ≥ ratOf y) ∧
    fcmpHolds .ord a b = true ∧ fcmpHolds .uno a b = false := by
  have hfalse (u v : Dy) : u.lt v = false ↔ ratOf v ≤ ratOf u := by rw [← Bool.not_eq_true, lt_iff_ratOf_lt, not_lt]
  simp only [fcmpHolds_of_fin ha hb, Bool.and_eq_true, Bool.or_eq_true, Bool.not_eq_true', lt_iff_ratOf_lt, hfalse]
  refine ⟨⟨fun h => le_antisymm h.2 h.1, fun h => ⟨h.ge, h.le⟩⟩, lt_or_lt_iff_ne, trivial, trivial, trivial, trivial, trivial, trivial⟩

/-! ## Signs, integral values and classes (R157, R159) -/

/-- A value that is an integer has no digits after the point. -/
theorem dvd_of_ratOf_eq_intCast {x : Dy} {i : Int} (h : ratOf x = i) : 0 ≤ x.e ∨ x.m % 2 ^ (-x.e).toNat = 0 := by
  refine or_iff_not_imp_left.mpr fun he => ?_
  obtain ⟨n, hn⟩ : ∃ n : Nat, x.e = -(n : Int) := ⟨(-x.e).toNat, by omega⟩
  have habs : (x.m : ℚ) = (i.natAbs : ℚ) * 2 ^ n := by
    have h2 := abs_ratOf x
    rw [h, hn, zpow_neg, zpow_natCast, ← div_eq_mul_inv, eq_div_iff (by positivity)] at h2
    rw [← h2, Nat.cast_natAbs, Int.cast_abs]
  rw [hn, neg_neg, Int.toNat_natCast, show x.m = i.natAbs * 2 ^ n by exact_mod_cast habs, Nat.mul_mod_left]

theorem intRound_intCast_iff {r : Rnd} {i j : Int} (h : IntRound r (i : ℚ) j) : j = i := by
  cases r with
  | rne =>
    have hd : |((i - j : Int) : ℚ)| ≤ 1 / 2 := by
      push_cast
      exact h.elim le_of_lt fun h => h.1.le
    have hz : |i - j| < 1 := by
      have : ((|i - j| : Int) : ℚ) < 1 := by rw [Int.cast_abs]; linarith
      exact_mod_cast this
    have := Int.abs_lt_one_iff.mp hz
    omega
  | rtz =>
    rw [IntRound] at h
    split at h
    · rw [h, Int.floor_intCast]
    · rw [h, Int.ceil_intCast]
  | rup => rw [show j = ⌈(i : ℚ)⌉ from h, Int.ceil_intCast]
  | rdn => rw [show j = ⌊(i : ℚ)⌋ from h, Int.floor_intCast]

theorem toInt_of_ratOf_eq {x : Dy} {i : Int} (h : ratOf x = i) (r : Rnd) : x.toInt r = i :=
  intRound_intCast_iff (h ▸ intRound_toInt x r)

/-- An integer of at most 24 bits is delivered as it is. -/
theorem dec32_round_of_natAbs_lt (r : Rnd) (neg : Bool) {n : Nat} (hn : n < 2 ^ 24) :
    ∃ y, dec32 (lane32 (fp32.round r ⟨neg, n, 0⟩)) = .fin y ∧ y.neg = neg ∧ ratOf y = signFactor neg * n := by
  have hval : ratOf ⟨neg, n, 0⟩ = signFactor neg * n := by simp [ratOf_eq]
  obtain ⟨y, hy, hneg, hr⟩ := decode_fp32_roundTo_of_exact r (overOf r neg) (x := ⟨neg, n, 0⟩) hn (by norm_num) (by
    rw [abs_ratOf]
    have : (n : ℚ) < 2 ^ 24 := by exact_mod_cast hn
    have h2 : (2 : ℚ) ^ 24 < 2 ^ (128 : Int) := by norm_num
    simpa using this.trans h2)
  exact ⟨y, hy, hneg, hr.trans hval⟩

/-- A rounded value lies within one of the exact one, and on the same side of zero. -/
theorem intRound_near {r : Rnd} {v : ℚ} {i : Int} (h : IntRound r v i) :
    |v - i| < 1 ∧ (0 ≤ v → 0 ≤ i) ∧ (v ≤ 0 → i ≤ 0) := by
  have hfloor : |v - ⌊v⌋| < 1 ∧ (0 ≤ v → 0 ≤ ⌊v⌋) ∧ (v ≤ 0 → ⌊v⌋ ≤ 0) := by
    refine ⟨?_, Int.floor_nonneg.mpr, fun hv => ?_⟩
    · rw [abs_of_nonneg (by linarith [Int.floor_le v])]
      linarith [Int.lt_floor_add_one v]
    · exact_mod_cast (Int.floor_le v).trans hv
  have hceil : |v - ⌈v⌉| < 1 ∧ (0 ≤ v → 0 ≤ ⌈v⌉) ∧ (v ≤ 0 → ⌈v⌉ ≤ 0) := by
    refine ⟨?_, Int.ceil_nonneg, fun hv => Int.ceil_le.mpr (by simpa using hv)⟩
    rw [abs_sub_comm, abs_of_nonneg (by linarith [Int.le_ceil v])]
    linarith [Int.ceil_lt_add_one v]
  cases r with
  | rne =>
    have habs : |v - i| ≤ 1 / 2 := h.elim le_of_lt fun h => h.1.le
    obtain ⟨h1, h2⟩ := abs_le.mp habs
    refine ⟨by linarith, fun hv => ?_, fun hv => ?_⟩
    · have : (-1 : ℚ) < i := by linarith
      have : (-1 : Int) < i := by exact_mod_cast this
      omega
    · have : (i : ℚ) < 1 := by linarith
      have : i < (1 : Int) := by exact_mod_cast this
      omega
  | rtz =>
    rw [IntRound] at h
    split at h
    · rwa [h]
    · rwa [h]
  | rup => rwa [show i = ⌈v⌉ from h]
  | rdn => rwa [show i = ⌊v⌋ from h]

theorem signFactor_mul_natAbs_toInt (x : Dy) (r : Rnd) : signFactor x.neg * ((x.toInt r).natAbs : ℚ) = (x.toInt r : ℚ) := by
  obtain ⟨-, hpos, hneg⟩ := intRound_near (intRound_toInt x r)
  have hm := mag_nonneg x
  rw [ratOf_eq] at hpos hneg
  cases hx : x.neg
  · have := hpos (by rw [hx]; simpa [signFactor] using hm)
    rw [Nat.cast_natAbs, abs_of_nonneg this]
    simp [signFactor]
  · have := hneg (by rw [hx]; simpa [signFactor] using hm)
    rw [Nat.cast_natAbs, abs_of_nonpos this]
    simp [signFactor]

theorem natAbs_toInt_lt {x : Dy} (r : Rnd) (hm : x.m < 2 ^ 24) (he : x.e < 0) : (x.toInt r).natAbs < 2 ^ 24 := by
  obtain ⟨hnear, -⟩ := intRound_near (intRound_toInt x r)
  have hv : |ratOf x| ≤ x.m / 2 := by
    rw [abs_ratOf, div_eq_mul_inv]
    gcongr
    rw [show (2 : ℚ)⁻¹ = 2 ^ (-1 : Int) by norm_num]
    exact zpow_le_zpow_right₀ (by norm_num) (by omega)
  have hi : |((x.toInt r : Int) : ℚ)| ≤ |ratOf x| + |ratOf x - (x.toInt r : Int)| := by
    have := abs_sub (ratOf x) (ratOf x - (x.toInt r : Int))
    rwa [sub_sub_cancel] at this
  have hm' : (x.m : ℚ) ≤ 2 ^ 24 - 1 := by
    have : (x.m : ℚ) + 1 ≤ ((2 ^ 24 : Nat) : ℚ) := by exact_mod_cast hm
    push_cast at this
    linarith
  have : (((x.toInt r).natAbs : Nat) : ℚ) < ((2 ^ 24 : Nat) : ℚ) := by
    rw [Nat.cast_natAbs, Int.cast_abs]
    push_cast
    linarith
  exact_mod_cast this

theorem fintegral_of_fin (r : Rnd) {a : Lane} {x : Dy} (ha : dec32 a = .fin x) :
    ∃ y i, dec32 (fintegral r a) = .fin y ∧ y.neg = x.neg ∧ IntRound r (ratOf x) i ∧ ratOf y = (i : ℚ) := by
  by_cases hint : 0 ≤ x.e ∨ x.m = 0
  · have hval : fintegral r a = a := by rw [fintegral, ha]; exact if_pos hint
    rw [hval]
    refine ⟨x, x.toInt r, ha, rfl, intRound_toInt x r, ?_⟩
    rcases hint with he | hm
    · have h := at_mul_zpow x he
      rw [zpow_zero, mul_one] at h
      rw [toInt_of_ratOf_eq h.symm, h]
    · rw [toInt_of_ratOf_eq (i := 0) (by rw [ratOf_eq_zero_iff.mpr hm]; rfl), ratOf_eq_zero_iff.mpr hm]
      rfl
  · have hval : fintegral r a = lane32 (fp32.round .rne ⟨x.neg, (x.toInt r).natAbs, 0⟩) := by rw [fintegral, ha]; exact if_neg hint
    have hsmall := natAbs_toInt_lt r (m_lt_of_dec32_fin ha) (not_le.mp fun h => hint (.inl h))
    obtain ⟨y, hy, hneg, hr⟩ := dec32_round_of_natAbs_lt .rne x.neg hsmall
    exact ⟨y, x.toInt r, by rw [hval, hy], hneg, intRound_toInt x r, by rw [hr, signFactor_mul_natAbs_toInt]⟩

theorem fintegral_special (r : Rnd) (a : Lane) : (IsNaN a → fintegral r a = 0x7FC00000) ∧ ∀ s, fintegral r (infLane s) = infLane s := by
  refine ⟨fun h => ?_, fun s => ?_⟩
  · rw [fintegral, show dec32 a = .nan from h]
    rfl
  · rw [fintegral, dec32_infLane]

theorem fabs_fneg_spec (a : Lane) : (IsNaN a → fabsLane a = 0x7FC00000 ∧ fnegLane a = 0x7FC00000) ∧
    (¬ IsNaN a → fabsLane a = a &&& 0x7FFFFFFF ∧ fnegLane a = a ^^^ 0x80000000) :=
  ⟨fun h => ⟨if_pos h, if_pos h⟩, fun h => ⟨if_neg h, if_neg h⟩⟩

/-! ### Classes -/

/-- The class number of a code. -/
def classOf (a : Lane) : Nat :=
  if a.toNat / 2 ^ 23 % 256 = 255 then
    (if a.toNat % 2 ^ 23 = 0 then (if a.getLsbD 31 then 0 else 7) else if a.getLsbD 22 then 9 else 8)
  else if a.toNat / 2 ^ 23 % 256 = 0 then (if a.toNat % 2 ^ 23 = 0 then (if a.getLsbD 31 then 3 else 4) else if a.getLsbD 31 then 2 else 5)
  else if a.getLsbD 31 then 1 else 6

theorem fclassLane_eq (a : Lane) : fclassLane a = lane32 (2 ^ classOf a) := rfl

theorem classOf_lt (a : Lane) : classOf a < 10 := by
  rw [classOf]
  repeat' split
  all_goals omega

theorem fclassLane_eq_iff (a : Lane) {j : Nat} (hj : j < 10) : fclassLane a = lane32 (2 ^ j) ↔ classOf a = j := by
  have hlt (i : Nat) (hi : i < 10) : 2 ^ i < 2 ^ 32 := Nat.pow_lt_pow_right (by norm_num) (by omega)
  rw [fclassLane_eq]
  constructor
  · intro h
    have h2 := congrArg BitVec.toNat h
    rw [toNat_lane32 (hlt _ (classOf_lt a)), toNat_lane32 (hlt j hj)] at h2
    exact Nat.pow_right_injective (le_refl 2) h2
  · rintro rfl
    rfl

theorem getLsbD_31 (a : Lane) : a.getLsbD 31 = decide (2 ^ 31 ≤ a.toNat) := by
  have := a.isLt
  rw [BitVec.getLsbD, Nat.testBit_eq_decide_div_mod_eq]
  exact decide_eq_decide.mpr (by omega)

theorem isNaN_iff (a : Lane) : IsNaN a ↔ a.toNat / 2 ^ 23 % 256 = 255 ∧ a.toNat % 2 ^ 23 ≠ 0 := by
  have h1 : a.toNat % 2 ^ fp32.sign / 2 ^ fp32.mb = a.toNat / 2 ^ 23 % 256 := by
    show a.toNat % 2 ^ 31 / 2 ^ 23 = _
    omega
  have h2 : a.toNat % 2 ^ fp32.sign % 2 ^ fp32.mb = a.toNat % 2 ^ 23 := by
    show a.toNat % 2 ^ 31 % 2 ^ 23 = _
    omega
  rw [IsNaN, dec32, Fmt.decode, h1, h2, show fp32.ieee = true from rfl, show fp32.e4m3 = false from rfl]
  generalize a.toNat / 2 ^ 23 % 256 = e
  generalize a.toNat % 2 ^ 23 = m
  by_cases he : e = 255
  · by_cases hm : m = 0 <;> simp [he, hm, show 2 ^ fp32.eb - 1 = 255 from rfl]
  · simp [he, show 2 ^ fp32.eb - 1 = 255 from rfl]

theorem eq_ofNat_iff (a : Lane) {n : Nat} (hn : n < 2 ^ 32) : a = BitVec.ofNat 32 n ↔ a.toNat = n := by
  rw [← BitVec.toNat_inj, BitVec.toNat_ofNat, Nat.mod_eq_of_lt hn]

/-- The classes of the special values, by the fields of the code. -/
theorem classOf_eq_iff (a : Lane) :
    (classOf a = 0 ↔ a.toNat / 2 ^ 23 % 256 = 255 ∧ a.toNat % 2 ^ 23 = 0 ∧ a.getLsbD 31 = true) ∧
    (classOf a = 7 ↔ a.toNat / 2 ^ 23 % 256 = 255 ∧ a.toNat % 2 ^ 23 = 0 ∧ a.getLsbD 31 = false) ∧
    (classOf a = 3 ↔ a.toNat / 2 ^ 23 % 256 = 0 ∧ a.toNat % 2 ^ 23 = 0 ∧ a.getLsbD 31 = true) ∧
    (classOf a = 4 ↔ a.toNat / 2 ^ 23 % 256 = 0 ∧ a.toNat % 2 ^ 23 = 0 ∧ a.getLsbD 31 = false) ∧
    (classOf a = 8 ↔ a.toNat / 2 ^ 23 % 256 = 255 ∧ a.toNat % 2 ^ 23 ≠ 0 ∧ a.getLsbD 22 = false) ∧
    (classOf a = 9 ↔ a.toNat / 2 ^ 23 % 256 = 255 ∧ a.toNat % 2 ^ 23 ≠ 0 ∧ a.getLsbD 22 = true) := by
  rw [classOf]
  generalize a.toNat / 2 ^ 23 % 256 = e
  generalize a.toNat % 2 ^ 23 = m
  by_cases he : e = 255
  · by_cases hm : m = 0
    · cases a.getLsbD 31 <;> simp [he, hm]
    · cases a.getLsbD 22 <;> simp [he, hm]
  · by_cases h0 : e = 0
    · by_cases hm : m = 0 <;> cases a.getLsbD 31 <;> simp [h0, hm]
    · cases a.getLsbD 31 <;> simp [he, h0]

theorem fclass_spec (a : Lane) : (∃ b < 10, fclassLane a = 1#32 <<< b) ∧
    (fclassLane a = 1 ↔ a = 0xFF800000) ∧ (fclassLane a = 0x80 ↔ a = 0x7F800000) ∧ (fclassLane a = 8 ↔ a = 0x80000000) ∧
    (fclassLane a = 0x10 ↔ a = 0) ∧ (fclassLane a = 0x100 ∨ fclassLane a = 0x200 ↔ IsNaN a) ∧
    (fclassLane a = 0x200 ↔ IsNaN a ∧ a.getLsbD 22 = true) := by
  have hc (j : Nat) (hj : j < 10) := fclassLane_eq_iff a hj
  have ha := a.isLt
  refine ⟨⟨classOf a, classOf_lt a, ?_⟩, (hc 0 (by omega)).trans ?_, (hc 7 (by omega)).trans ?_, (hc 3 (by omega)).trans ?_,
    (hc 4 (by omega)).trans ?_, (or_congr (hc 8 (by omega)) (hc 9 (by omega))).trans ?_, (hc 9 (by omega)).trans ?_⟩
  · rw [fclassLane_eq, lane32]
    apply BitVec.eq_of_toNat_eq
    simp [BitVec.toNat_shiftLeft, Nat.shiftLeft_eq]
  all_goals
    obtain ⟨h0, h7, h3, h4, h8, h9⟩ := classOf_eq_iff a
    simp only [h0, h7, h3, h4, h8, h9, isNaN_iff]
  · refine Iff.trans ?_ (eq_ofNat_iff a (n := 0xFF800000) (by norm_num)).symm
    rw [getLsbD_31, decide_eq_true_eq]
    omega
  · refine Iff.trans ?_ (eq_ofNat_iff a (n := 0x7F800000) (by norm_num)).symm
    rw [getLsbD_31, decide_eq_false_iff_not]
    omega
  · refine Iff.trans ?_ (eq_ofNat_iff a (n := 0x80000000) (by norm_num)).symm
    rw [getLsbD_31, decide_eq_true_eq]
    omega
  · refine Iff.trans ?_ (eq_ofNat_iff a (n := 0) (by norm_num)).symm
    rw [getLsbD_31, decide_eq_false_iff_not]
    omega
  · cases a.getLsbD 22 <;> simp
  · exact (and_assoc).symm

/-! ## Functions with a bound of 1 ulp (R160) -/

section
variable {K : Type} [Field K] [LinearOrder K] [IsStrictOrderedRing K]

/-- The code `c` holds the magnitude `v` where the grid has it, else one of its two neighbours. -/
def EncloseMag (v : K) (c : Nat) : Prop :=
  (∀ j, gridMag K fp32 j = v → c = j) ∧
    ∀ j, ¬ (gridMag K fp32 c < gridMag K fp32 j ∧ gridMag K fp32 j < v) ∧ ¬ (v < gridMag K fp32 j ∧ gridMag K fp32 j < gridMag K fp32 c)

theorem encloseMag_of_floor {v : K} {c : Nat} (hle : gridMag K fp32 c ≤ v) (hmax : ∀ j, gridMag K fp32 j ≤ v → j ≤ c) :
    EncloseMag v c := by
  have hmono := gridMag_strictMono K fp32
  refine ⟨fun j hj => ?_, fun j => ⟨fun h => ?_, fun h => ?_⟩⟩
  · exact le_antisymm (hmono.le_iff_le.mp (hj ▸ hle)) (hmax j hj.le)
  · exact h.1.not_ge (hmono.monotone (hmax j h.2.le))
  · exact (hle.trans_lt h.1).not_gt h.2

theorem encloseMag_of_ceil {v : K} {c : Nat} (hle : v ≤ gridMag K fp32 c) (hmin : ∀ j, v ≤ gridMag K fp32 j → c ≤ j) :
    EncloseMag v c := by
  have hmono := gridMag_strictMono K fp32
  refine ⟨fun j hj => ?_, fun j => ⟨fun h => ?_, fun h => ?_⟩⟩
  · exact le_antisymm (hmin j hj.ge) (hmono.le_iff_le.mp (hj ▸ hle))
  · exact (h.2.trans_le hle).not_gt h.1
  · exact h.2.not_ge (hmono.monotone (hmin j h.1.le))

theorem oneUlp_eq (op : Nat) (a : Lane) {x : Dy} {sticky : Bool} {v : K} (ht : Truncates x.m x.e sticky v)
    (hs : sticky = true → 24 < bitLen x.m) (hv : v ≤ gridMag K fp32 fp32.top) :
    ∃ c ≤ fp32.top, oneUlp op a x sticky = lane32 (fp32.withSign x.neg c) ∧ EncloseMag v c := by
  have hcode (r : Rnd) := roundsTo_roundCode isIeee_fp32.one_le_mb r x.neg ht hs
  rw [oneUlp]
  split
  · obtain ⟨n, h⟩ := hcode (if x.neg then .rdn else .rup)
    obtain ⟨hup, hmin⟩ := h.ceil (by cases x.neg <;> simp [RoundsAway])
    refine ⟨_, hmin _ hv, ?_, encloseMag_of_ceil hup hmin⟩
    rw [Fmt.roundTo]
    exact congrArg lane32 (if_neg (hmin _ hv).not_gt)
  · obtain ⟨n, h⟩ := hcode .rtz
    obtain hn := h.toward id
    have hle : n ≤ fp32.top := h.le_of_le hv
    refine ⟨n, hle, ?_, encloseMag_of_floor h.floor_le fun j => h.le_floor⟩
    rw [Fmt.roundTo, hn]
    exact congrArg lane32 (if_neg hle.not_gt)

end

theorem dec32_withSign (neg : Bool) {c : Nat} (hc : c ≤ fp32.top) :
    dec32 (lane32 (fp32.withSign neg c)) = .fin (fp32.gridVal neg c) := by
  rw [dec32, toNat_lane32 (withSign_lt neg (isIeee_fp32.lt_of_le_top hc)), isIeee_fp32.decode_withSign_of_le neg hc]

theorem encloses_of_encloseMag {v : ℚ} {c : Nat} (neg : Bool) (hv : 0 ≤ v) (h : EncloseMag v c) :
    Encloses (signFactor neg * v) (signFactor neg * gridMag ℚ fp32 c) := by
  have hpos (j : Nat) := gridMag_nonneg ℚ fp32 j
  refine ⟨fun hheld => ?_, fun z hz => ?_⟩
  · obtain ⟨t, j, -, hj⟩ := isIeee_fp32.held_iff.mp hheld
    have habs := congrArg abs hj
    rw [abs_signFactor_mul_gridMag, abs_mul, abs_signFactor, one_mul, abs_of_nonneg hv] at habs
    rw [h.1 j habs.symm, habs]
  · obtain ⟨t, j, -, rfl⟩ := isIeee_fp32.held_iff.mp hz
    obtain ⟨h1, h2⟩ := h.2 j
    have hc := hpos c
    have hj := hpos j
    cases neg <;> cases t <;> simp only [signFactor, if_true, if_false, Bool.false_eq_true, one_mul, neg_one_mul, neg_lt_neg_iff]
    · exact ⟨h1, h2⟩
    · exact ⟨fun hx => by linarith [hx.1], fun hx => by linarith [hx.1]⟩
    · exact ⟨fun hx => by linarith [hx.2], fun hx => by linarith [hx.2]⟩
    · exact ⟨fun hx => h2 ⟨hx.2, hx.1⟩, fun hx => h1 ⟨hx.2, hx.1⟩⟩

/-- A power of two within the range is a value of binary32. -/
theorem exists_gridMag_two_zpow (K : Type) [Field K] [LinearOrder K] [IsStrictOrderedRing K] {n : Int} (hlo : -149 ≤ n) (hhi : n ≤ 127) :
    ∃ c ≤ fp32.top, gridMag K fp32 c = 2 ^ n := by
  obtain ⟨c, hc⟩ := exists_gridMag_eq K fp32 (m := 1) (e := n) (by decide) hlo
  rw [Nat.cast_one, one_mul] at hc
  refine ⟨c, ?_, hc⟩
  have hover : gridMag K fp32 (fp32.top + 1) = 2 ^ (128 : Int) := gridMag_top_succ K
  refine Nat.le_of_lt_succ ((gridMag_strictMono K fp32).lt_iff_lt.mp ?_)
  rw [hc, hover]
  exact zpow_lt_zpow_right₀ (by norm_num) (by omega)

/-! ### The reciprocal -/

theorem ratOf_bound (neg : Bool) : ratOf ⟨neg, 1, -128⟩ = signFactor neg * 2 ^ (-128 : Int) := by
  rw [ratOf_eq]
  simp

theorem frcpLane_small_iff (x : Dy) : (x.lt ⟨false, 1, -128⟩ && (Dy.mk true 1 (-128)).lt x) = true ↔ |ratOf x| < (2 : ℚ) ^ (-128 : Int) := by
  rw [Bool.and_eq_true, lt_iff_ratOf_lt, lt_iff_ratOf_lt, ratOf_bound, ratOf_bound, abs_lt, and_comm]
  simp [signFactor]

theorem frcpLane_of_small {a : Lane} {x : Dy} (ha : dec32 a = .fin x) (h : |ratOf x| < (2 : ℚ) ^ (-128 : Int)) :
    frcpLane a = infLane x.neg := by
  rw [frcpLane, ha]
  refine (if_pos ((frcpLane_small_iff x).mpr h)).trans ?_
  exact eq_infLane_of_toNat (toNat_lane32 (withSign_lt _ (IsIeee.infCode_lt fp32)))

/-- Above 2^−128 the next value is so far away that the reciprocal does not overflow. -/
theorem one_div_abs_le_top {a : Lane} {x : Dy} (ha : dec32 a = .fin x) (h : (2 : ℚ) ^ (-128 : Int) < |ratOf x|) :
    1 / |ratOf x| ≤ gridMag ℚ fp32 fp32.top := by
  obtain ⟨n, hn⟩ : ∃ n : Nat, x.e = (n : Int) + -149 := ⟨(x.e + 149).toNat, by have := emin_le_of_dec32_fin ha; omega⟩
  have hmag : |ratOf x| = ((x.m * 2 ^ n : Nat) : ℚ) * 2 ^ (-149 : Int) := by
    rw [abs_ratOf, hn, zpow_add₀ (by norm_num), zpow_natCast]
    push_cast
    ring
  have hbound : (2 : ℚ) ^ (-128 : Int) = ((2 ^ 21 : Nat) : ℚ) * 2 ^ (-149 : Int) := by norm_num
  have hnat : 2 ^ 21 + 1 ≤ x.m * 2 ^ n := by
    rw [hmag, hbound, mul_lt_mul_iff_left₀ (by positivity)] at h
    exact_mod_cast h
  have hle : ((2 ^ 21 + 1 : Nat) : ℚ) * 2 ^ (-149 : Int) ≤ |ratOf x| := by
    rw [hmag]
    have hcast : ((2 ^ 21 + 1 : Nat) : ℚ) ≤ ((x.m * 2 ^ n : Nat) : ℚ) := Nat.cast_le.mpr hnat
    gcongr
  have htop : gridMag ℚ fp32 fp32.top = (2 ^ 24 - 1) * 2 ^ (104 : Int) := isIeee_fp32.gridMag_top.trans (by norm_num [fp32])
  rw [htop]
  calc 1 / |ratOf x| ≤ 1 / (((2 ^ 21 + 1 : Nat) : ℚ) * 2 ^ (-149 : Int)) := by gcongr
    _ ≤ (2 ^ 24 - 1) * 2 ^ (104 : Int) := by norm_num

theorem frcpLane_of_large {a : Lane} {x : Dy} (ha : dec32 a = .fin x) (h : (2 : ℚ) ^ (-128 : Int) < |ratOf x|) :
    ∃ w, dec32 (frcpLane a) = .fin w ∧ Encloses (1 / ratOf x) (ratOf w) := by
  have hm : 0 < x.m := by
    refine Nat.pos_of_ne_zero fun h0 => ?_
    rw [ratOf_eq_zero_iff.mpr h0, abs_zero] at h
    have : (0 : ℚ) < 2 ^ (-128 : Int) := by positivity
    linarith
  have hval : frcpLane a = oneUlp 0 a ⟨x.neg, 2 ^ 96 / x.m, -x.e - 96⟩ (2 ^ 96 % x.m != 0) := by
    rw [frcpLane, ha]
    exact if_neg fun hc => h.not_gt ((frcpLane_small_iff x).mp hc)
  have hmag : ((2 ^ 96 : Nat) : ℚ) / x.m * 2 ^ (-x.e - 96) = 1 / |ratOf x| := by
    rw [abs_ratOf, zpow_sub₀ (by norm_num), zpow_neg]
    push_cast
    field_simp
  have htr := truncates_div (K := ℚ) (2 ^ 96) hm (-x.e - 96)
  rw [hmag] at htr
  have hbits : 24 < bitLen (2 ^ 96 / x.m) := by
    refine lt_bitLen ((Nat.le_div_iff_mul_le hm).mpr ?_)
    calc 2 ^ 24 * x.m ≤ 2 ^ 24 * 2 ^ 24 := Nat.mul_le_mul_left _ (m_lt_of_dec32_fin ha).le
      _ ≤ 2 ^ 96 := by norm_num
  have htop := one_div_abs_le_top ha h
  obtain ⟨c, hc, heq, henc⟩ := oneUlp_eq 0 a (x := ⟨x.neg, 2 ^ 96 / x.m, -x.e - 96⟩) htr (fun _ => hbits) htop
  refine ⟨_, by rw [hval, heq]; exact dec32_withSign _ hc, ?_⟩
  have hsplit : 1 / ratOf x = signFactor x.neg * (1 / |ratOf x|) := by
    rw [ratOf_eq_signFactor_mul_abs x, abs_mul, abs_signFactor, one_mul, abs_abs]
    cases x.neg <;> simp [signFactor]
  rw [hsplit, ratOf_gridVal]
  exact encloses_of_encloseMag _ (by positivity) henc

theorem frcpLane_of_two_zpow {a : Lane} {x : Dy} {n : Int} (ha : dec32 a = .fin x) (hn : -127 ≤ n) (hx : ratOf x = (2 : ℚ) ^ n) :
    ∃ w, dec32 (frcpLane a) = .fin w ∧ ratOf w = (2 : ℚ) ^ (-n) := by
  have hlt : |ratOf x| < (2 : ℚ) ^ (128 : Int) := by
    obtain ⟨neg, j, hj, -, rfl⟩ := exists_of_dec32_fin ha
    rw [ratOf_gridVal, abs_signFactor_mul_gridMag, ← gridMag_top_succ ℚ]
    exact gridMag_strictMono ℚ fp32 (Nat.lt_succ_of_le hj)
  rw [hx, abs_of_pos (by positivity)] at hlt
  have hn' := (zpow_lt_zpow_iff_right₀ (show (1 : ℚ) < 2 by norm_num)).mp hlt
  obtain ⟨w, hw, henc, -⟩ := frcpLane_of_large ha (by
    rw [hx, abs_of_pos (by positivity)]
    exact zpow_lt_zpow_right₀ (by norm_num) (by omega))
  obtain ⟨c, hc, hg⟩ := exists_gridMag_two_zpow ℚ (n := -n) (by omega) (by omega)
  refine ⟨w, hw, ?_⟩
  rw [henc (isIeee_fp32.held_iff.mpr ⟨false, c, hc, ?_⟩)]
  all_goals rw [hx, one_div, ← zpow_neg]
  rw [hg]
  simp [signFactor]

/-! ### The reciprocal square root -/

/-- The reciprocal root as the model truncates it. -/
def rsqDy (x : Dy) : Dy × Bool :=
  let (m, e) := if x.e % 2 = 0 then (x.m, x.e) else (2 * x.m, x.e - 1)
  let q := 2 ^ 160 / m
  (⟨false, isqrt q, -(e / 2) - 80⟩, isqrt q * isqrt q != q || 2 ^ 160 % m != 0)

theorem frsqLane_of_pos {a : Lane} {x : Dy} (ha : dec32 a = .fin x) (hm : x.m ≠ 0) (hneg : x.neg = false) :
    frsqLane a = oneUlp 1 a (rsqDy x).1 (rsqDy x).2 := by
  rw [frsqLane, ha]
  dsimp only
  rw [if_neg hm, hneg]
  rfl

theorem rsqDy_spec {x : Dy} (h0 : 0 < x.m) (hlt : x.m < 2 ^ 24) : (rsqDy x).1.neg = false ∧ 24 < bitLen (rsqDy x).1.m ∧
    Truncates (rsqDy x).1.m (rsqDy x).1.e (rsqDy x).2 (1 / √((x.m : ℝ) * 2 ^ x.e)) := by
  obtain ⟨m, h, hmh, hm, hm2, hval⟩ := exists_even_exponent x
  have hm0 : 0 < m := by omega
  have hmr : (0 : ℝ) < m := by exact_mod_cast hm0
  have hroot : 1 / √((x.m : ℝ) * 2 ^ x.e) = √(((2 ^ 160 : Nat) : ℝ) / m) * 2 ^ (-h - 80) := by
    have hpow : ((2 ^ 160 : Nat) : ℝ) / m = (m : ℝ)⁻¹ * (2 ^ (80 : Int)) ^ 2 := by
      rw [div_eq_inv_mul]
      norm_num
    rw [hval, hpow, sqrt_mul_zpow_sq, sqrt_mul_zpow_sq, Real.sqrt_inv, zpow_sub₀ (by norm_num), zpow_neg]
    field_simp
  have hdiv := truncates_div (K := ℝ) (2 ^ 160) hm0 0
  rw [zpow_zero, mul_one] at hdiv
  have hle := Nat.sqrt_le (2 ^ 160 / m)
  have hq := hdiv.le
  have hq' := hdiv.lt
  rw [zpow_zero, mul_one] at hq hq'
  rw [hroot, rsqDy, hmh]
  simp only [isqrt_eq_sqrt, show 2 * h / 2 = h by omega]
  refine ⟨trivial, lt_bitLen ?_, truncates_sqrt hq (by exact_mod_cast hq') _ ?_⟩
  · rw [Nat.le_sqrt, Nat.le_div_iff_mul_le hm0]
    calc 2 ^ 24 * 2 ^ 24 * m ≤ 2 ^ 24 * 2 ^ 24 * 2 ^ 25 := Nat.mul_le_mul_left _ (by omega)
      _ ≤ 2 ^ 160 := by norm_num
  · have hlt : (Nat.sqrt (2 ^ 160 / m) * Nat.sqrt (2 ^ 160 / m) : ℝ) < ((2 ^ 160 / m : Nat) : ℝ) ↔
        Nat.sqrt (2 ^ 160 / m) * Nat.sqrt (2 ^ 160 / m) ≠ 2 ^ 160 / m := by
      rw [← Nat.cast_mul, Nat.cast_lt]
      exact hle.lt_iff_ne
    rw [Bool.or_eq_true, bne_iff_ne, hdiv.sticky_iff, zpow_zero, mul_one, ← hlt]
    constructor
    · rintro (hx | hx)
      · exact hx.trans_le hq
      · refine lt_of_le_of_lt ?_ hx
        exact_mod_cast hle
    · intro hx
      rcases hq.eq_or_lt with heq | hlt'
      · exact .inl (heq ▸ hx)
      · exact .inr hlt'

/-- The reciprocal root of a positive value lies far from both ends of the range. -/
theorem one_div_sqrt_mem_range {a : Lane} {x : Dy} (ha : dec32 a = .fin x) (hm : x.m ≠ 0) :
    gridMag ℝ fp32 1 < 1 / √((x.m : ℝ) * 2 ^ x.e) ∧ 1 / √((x.m : ℝ) * 2 ^ x.e) ≤ gridMag ℝ fp32 fp32.top := by
  obtain ⟨neg, n, hn, -, rfl⟩ := exists_of_dec32_fin ha
  have hval := gridVal_mag neg n
  have hmono := gridMag_strictMono ℝ fp32
  have hn0 : n ≠ 0 := fun h0 => hm (ratOf_eq_zero_iff.mp (by rw [ratOf_gridVal, h0, gridMag_zero, mul_zero]))
  have hlow := hmono.monotone (Nat.one_le_iff_ne_zero.mpr hn0)
  have hhigh := hmono (Nat.lt_succ_of_le hn)
  rw [gridMag_one_fp32] at hlow
  rw [gridMag_top_succ] at hhigh
  obtain ⟨c, hc, hg⟩ := exists_gridMag_two_zpow ℝ (n := 75) (by norm_num) (by norm_num)
  have hroot1 : (2 : ℝ) ^ (-75 : Int) ≤ √(gridMag ℝ fp32 n) := by
    refine Real.le_sqrt_of_sq_le (le_trans ?_ hlow)
    norm_num
  have hroot2 : √(gridMag ℝ fp32 n) < (2 : ℝ) ^ (64 : Int) := by
    refine (Real.sqrt_lt' (by positivity)).mpr (hhigh.trans_le ?_)
    norm_num
  have hpos : (0 : ℝ) < √(gridMag ℝ fp32 n) := lt_of_lt_of_le (by positivity) hroot1
  rw [hval, gridMag_one_fp32]
  constructor
  · rw [lt_div_iff₀ hpos]
    calc (2 : ℝ) ^ (-149 : Int) * √(gridMag ℝ fp32 n) < 2 ^ (-149 : Int) * 2 ^ (64 : Int) := by gcongr
      _ ≤ 1 := by norm_num
  · refine le_trans ?_ (hmono.monotone hc)
    rw [hg, div_le_iff₀ hpos]
    calc (1 : ℝ) = 2 ^ (75 : Int) * 2 ^ (-75 : Int) := by norm_num
      _ ≤ 2 ^ (75 : Int) * √(gridMag ℝ fp32 n) := by gcongr

/-- The reciprocal root is exact where binary32 holds it, else one of the two values around it (R160). -/
theorem frsqLane_spec {a : Lane} {x : Dy} (ha : dec32 a = .fin x) (hx : 0 < ratOf x) :
    ∃ w, dec32 (frsqLane a) = .fin w ∧ 0 < ratOf w ∧ ∀ z, Held fp32 z → 0 < z →
      (z ^ 2 * ratOf x = 1 → ratOf w = z) ∧ ¬ (ratOf w < z ∧ z ^ 2 * ratOf x < 1) ∧ ¬ (1 < z ^ 2 * ratOf x ∧ z < ratOf w) := by
  obtain ⟨hm, hneg, hval⟩ := pos_of_ratOf_pos hx
  obtain ⟨hs, hbits, htr⟩ := rsqDy_spec (Nat.pos_of_ne_zero hm) (m_lt_of_dec32_fin ha)
  obtain ⟨hlow, hhigh⟩ := one_div_sqrt_mem_range ha hm
  obtain ⟨c, hc, heq, hexact, hbetween⟩ := oneUlp_eq 1 a htr (fun _ => hbits) hhigh
  rw [hs] at heq
  have hpos : (0 : ℝ) < (x.m : ℝ) * 2 ^ x.e := by
    have : (0 : ℝ) < x.m := by exact_mod_cast Nat.pos_of_ne_zero hm
    positivity
  have hroot : 0 < √((x.m : ℝ) * 2 ^ x.e) := Real.sqrt_pos.mpr hpos
  have hsq := Real.sq_sqrt hpos.le
  have hcast : ((ratOf x : ℚ) : ℝ) = √((x.m : ℝ) * 2 ^ x.e) ^ 2 := by rw [hsq, hval]; push_cast; rfl
  have hw : ratOf (fp32.gridVal false c) = gridMag ℚ fp32 c := by rw [ratOf_gridVal]; simp [signFactor]
  have hmono := gridMag_strictMono ℚ fp32
  have hmonoR := gridMag_strictMono ℝ fp32
  refine ⟨fp32.gridVal false c, by rw [frsqLane_of_pos ha hm hneg, heq]; exact dec32_withSign _ hc, ?_, fun z hz hz0 => ?_⟩
  · rw [hw, ← gridMag_zero ℚ fp32]
    exact hmono (Nat.pos_of_ne_zero fun h0 => (hbetween 1).1 ⟨by rw [h0]; exact gridMag_lt_succ ℝ fp32 0, hlow⟩)
  obtain ⟨j, rfl⟩ : ∃ j, z = gridMag ℚ fp32 j := by
    obtain ⟨t, j, -, rfl⟩ := isIeee_fp32.held_iff.mp hz
    rw [← abs_of_pos hz0, abs_signFactor_mul_gridMag]
    exact ⟨j, rfl⟩
  generalize √((x.m : ℝ) * 2 ^ x.e) = y at *
  have hj0 : 0 < gridMag ℝ fp32 j := by rw [← cast_gridMag]; exact_mod_cast hz0
  have hprod : (((gridMag ℚ fp32 j) ^ 2 * ratOf x : ℚ) : ℝ) = (gridMag ℝ fp32 j * y) ^ 2 := by
    push_cast [cast_gridMag, hcast]
    ring
  have hlt1 : gridMag ℚ fp32 j ^ 2 * ratOf x < 1 ↔ gridMag ℝ fp32 j < 1 / y := by
    rw [lt_div_iff₀ hroot, ← sq_lt_one_iff₀ (show (0 : ℝ) ≤ gridMag ℝ fp32 j * y by positivity), ← hprod]
    exact_mod_cast Iff.rfl
  have h1lt : 1 < gridMag ℚ fp32 j ^ 2 * ratOf x ↔ 1 / y < gridMag ℝ fp32 j := by
    rw [div_lt_iff₀ hroot, ← one_lt_sq_iff₀ (show (0 : ℝ) ≤ gridMag ℝ fp32 j * y by positivity), ← hprod]
    exact_mod_cast Iff.rfl
  have heq1 : gridMag ℚ fp32 j ^ 2 * ratOf x = 1 → gridMag ℝ fp32 j = 1 / y := by
    intro h
    exact le_antisymm (not_lt.mp fun hlt => (h1lt.mpr hlt).ne' h) (not_lt.mp fun hlt => (hlt1.mpr hlt).ne h)
  rw [hw, hlt1, h1lt]
  refine ⟨fun h => by rw [hexact j (heq1 h)], fun h => ?_, fun h => ?_⟩
  · exact (hbetween j).1 ⟨hmonoR (hmono.lt_iff_lt.mp h.1), h.2⟩
  · exact (hbetween j).2 ⟨h.1, hmonoR (hmono.lt_iff_lt.mp h.2)⟩

theorem frsqLane_of_two_zpow {a : Lane} {x : Dy} {n : Int} (ha : dec32 a = .fin x) (hx : ratOf x = (2 : ℚ) ^ (2 * n)) :
    ∃ w, dec32 (frsqLane a) = .fin w ∧ ratOf w = (2 : ℚ) ^ (-n) := by
  have hpos : 0 < ratOf x := by rw [hx]; positivity
  obtain ⟨w, hw, -, hspec⟩ := frsqLane_spec ha hpos
  obtain ⟨neg, j, hj, -, rfl⟩ := exists_of_dec32_fin ha
  have habs := congrArg abs hx
  rw [ratOf_gridVal, abs_signFactor_mul_gridMag, abs_of_pos (by positivity)] at habs
  have hmono := gridMag_strictMono ℚ fp32
  have hj0 : 1 ≤ j := by
    refine Nat.pos_of_ne_zero fun h0 => ?_
    rw [ratOf_gridVal, h0, gridMag_zero, mul_zero] at hpos
    exact lt_irrefl _ hpos
  have hlow := hmono.monotone hj0
  have hhigh := hmono (Nat.lt_succ_of_le hj)
  rw [gridMag_one_fp32, habs] at hlow
  rw [gridMag_top_succ, habs] at hhigh
  have h1 := (zpow_le_zpow_iff_right₀ (show (1 : ℚ) < 2 by norm_num)).mp hlow
  have h2 := (zpow_lt_zpow_iff_right₀ (show (1 : ℚ) < 2 by norm_num)).mp hhigh
  obtain ⟨c, hc, hg⟩ := exists_gridMag_two_zpow ℚ (n := -n) (by omega) (by omega)
  refine ⟨w, hw, (hspec (2 ^ (-n)) (isIeee_fp32.held_iff.mpr ⟨false, c, hc, by rw [hg]; simp [signFactor]⟩) (by positivity)).1 ?_⟩
  rw [hx, ← zpow_natCast, ← zpow_mul, ← zpow_add₀ (by norm_num), show -n * (2 : Nat) + 2 * n = 0 by push_cast; ring, zpow_zero]

/-! ## Functions with a bound of 2 ulp: the exact and the special results (Table 5-5) -/

theorem dec32_zero (s : Bool) : dec32 (if s then 0x80000000 else 0) = .fin ⟨s, 0, -149⟩ := by cases s <;> rfl

theorem exists_dec32_one : ∃ y, dec32 0x3F800000 = .fin y ∧ ratOf y = 1 := by
  refine ⟨⟨false, 2 ^ 23, -23⟩, rfl, ?_⟩
  norm_num [ratOf]

theorem toInt_rdn (x : Dy) : x.toInt .rdn = ⌊ratOf x⌋ := intRound_toInt x .rdn

theorem m_ne_zero_of_ratOf_ne {x : Dy} (h : ratOf x ≠ 0) : x.m ≠ 0 := ratOf_eq_zero_iff.not.mp h

/-! ### 2^x -/

theorem ratOf_below (n : Nat) : ratOf ⟨true, n, 0⟩ = -n := by simp [ratOf]

theorem fexp2Lane_of_large {a : Lane} {x : Dy} (ha : dec32 a = .fin x) (h : 128 ≤ ratOf x) : fexp2Lane a = 0x7F800000 := by
  have hm := m_ne_zero_of_ratOf_ne (show ratOf x ≠ 0 by linarith)
  rw [fexp2Lane, ha]
  refine (if_neg hm).trans (if_pos ?_)
  rw [toInt_rdn, Int.le_floor]
  exact_mod_cast h

theorem fexp2Lane_of_small {a : Lane} {x : Dy} (ha : dec32 a = .fin x) (h : ratOf x < -150) : fexp2Lane a = 0 := by
  have hm := m_ne_zero_of_ratOf_ne (show ratOf x ≠ 0 by linarith)
  rw [fexp2Lane, ha]
  refine (if_neg hm).trans ((if_neg ?_).trans (if_pos ?_))
  · rw [toInt_rdn, Int.le_floor]
    push_cast
    linarith
  · rw [lt_iff_ratOf_lt, ratOf_below]
    exact_mod_cast h

theorem fexp2Lane_of_int {a : Lane} {x : Dy} {i : Int} (ha : dec32 a = .fin x) (hlo : -149 ≤ i) (hhi : i ≤ 127) (hx : ratOf x = i) :
    ∃ y, dec32 (fexp2Lane a) = .fin y ∧ ratOf y = (2 : ℚ) ^ i := by
  by_cases hm : x.m = 0
  · have h1 : fexp2Lane a = 0x3F800000 := by rw [fexp2Lane, ha]; exact if_pos hm
    obtain rfl : i = 0 := by
      rw [ratOf_eq_zero_iff.mpr hm] at hx
      exact_mod_cast hx.symm
    rw [h1, zpow_zero]
    exact exists_dec32_one
  · have hi := toInt_of_ratOf_eq hx .rdn
    have hval : fexp2Lane a = lane32 (fp32.round .rne ⟨false, 1, i⟩) := by
      rw [fexp2Lane, ha]
      dsimp only
      rw [hi, if_neg hm, if_neg (by omega), if_neg ?_, if_pos (dvd_of_ratOf_eq_intCast hx), if_pos hlo]
      rw [lt_iff_ratOf_lt, ratOf_below, hx, not_lt]
      have : (-149 : ℚ) ≤ i := by exact_mod_cast hlo
      push_cast
      linarith
    have habs : |ratOf ⟨false, 1, i⟩| = (2 : ℚ) ^ i := by rw [abs_ratOf]; simp
    obtain ⟨y, hy, -, hr⟩ := decode_fp32_roundTo_of_exact .rne .inf (x := ⟨false, 1, i⟩) (show 1 < 2 ^ 24 by decide) hlo (by
      rw [habs]
      exact zpow_lt_zpow_right₀ (by norm_num) (by omega))
    exact ⟨y, by rw [hval]; exact hy, hr.trans (by simp [ratOf])⟩

/-! ### log2 x -/

theorem bitLen_two_pow (k : Nat) : bitLen (2 ^ k) = k + 1 := by
  rw [bitLen, if_neg (Nat.two_pow_pos k).ne', Nat.log2_two_pow]

theorem exists_of_ratOf_eq_two_zpow {x : Dy} {n : Int} (hx : ratOf x = (2 : ℚ) ^ n) :
    ∃ k : Nat, x.m = 2 ^ k ∧ x.neg = false ∧ n = x.e + k := by
  have hpos : 0 < ratOf x := by rw [hx]; positivity
  obtain ⟨hm, hneg, hval⟩ := pos_of_ratOf_pos hpos
  have hmag : (x.m : ℚ) = 2 ^ (n - x.e) := by
    rw [zpow_sub₀ (by norm_num), ← hx, hval]
    field_simp
  have h0 : 0 ≤ n - x.e := by
    by_contra hlt
    have h1 : (2 : ℚ) ^ (n - x.e) < 1 := zpow_lt_one_of_neg₀ (by norm_num) (not_le.mp hlt)
    have h2 : (1 : ℚ) ≤ x.m := by exact_mod_cast Nat.pos_of_ne_zero hm
    linarith
  obtain ⟨k, hk⟩ := Int.eq_ofNat_of_zero_le h0
  rw [hk, zpow_natCast] at hmag
  exact ⟨k, by exact_mod_cast hmag, hneg, by omega⟩

theorem flog2Lane_of_two_zpow {a : Lane} {x : Dy} {n : Int} (ha : dec32 a = .fin x) (hx : ratOf x = (2 : ℚ) ^ n) :
    ∃ y, dec32 (flog2Lane a) = .fin y ∧ ratOf y = n := by
  obtain ⟨k, hk, hneg, hn⟩ := exists_of_ratOf_eq_two_zpow hx
  have hm : x.m ≠ 0 := by rw [hk]; exact (Nat.two_pow_pos k).ne'
  have hval : flog2Lane a = lane32 (fp32.round .rne (.ofInt n 0)) := by
    rw [flog2Lane, ha]
    dsimp only
    rw [if_neg hm, hneg, hk, bitLen_two_pow, Nat.add_sub_cancel, if_pos rfl, ← hn]
    rfl
  have hsmall : n.natAbs < 2 ^ 24 := by
    have hk24 : k < 24 := (Nat.pow_lt_pow_iff_right (by norm_num)).mp (hk ▸ m_lt_of_dec32_fin ha)
    have he := emin_le_of_dec32_fin ha
    have he2 := e_le_of_dec32_fin ha
    omega
  obtain ⟨y, hy, -, hr⟩ := dec32_round_of_natAbs_lt .rne (decide (n < 0)) hsmall
  refine ⟨y, by rw [hval]; exact hy, hr.trans ?_⟩
  rw [Nat.cast_natAbs, Int.cast_abs, show decide (n < 0) = decide ((n : ℚ) < 0) from decide_eq_decide.mpr (by exact_mod_cast Iff.rfl),
    ← eq_signFactor_mul_abs]

/-! ### sin πx and cos πx -/

theorem exists_intCast_of_dvd {x : Dy} (h : 0 ≤ x.e ∨ x.m % 2 ^ (-x.e).toNat = 0) : ∃ i : Int, ratOf x = i := by
  by_cases he : 0 ≤ x.e
  · refine ⟨x.at 0, ?_⟩
    have h := at_mul_zpow x he
    rw [zpow_zero, mul_one] at h
    exact h.symm
  · obtain ⟨n, hn⟩ : ∃ n : Nat, x.e = -(n : Int) := ⟨(-x.e).toNat, by omega⟩
    have hdvd := h.resolve_left he
    rw [hn, neg_neg, Int.toNat_natCast] at hdvd
    obtain ⟨q, hq⟩ := Nat.dvd_of_mod_eq_zero hdvd
    refine ⟨if x.neg then -(q : Int) else q, ?_⟩
    have hcancel : ((2 ^ n * q : Nat) : ℚ) * 2 ^ (-(n : Int)) = q := by
      rw [zpow_neg, zpow_natCast]
      push_cast
      field_simp
    rw [ratOf_eq, hq, hn, hcancel]
    cases x.neg <;> simp [signFactor]

theorem fsinpiLane_of_int {a : Lane} {x : Dy} {n : Int} (ha : dec32 a = .fin x) (hx : ratOf x = n) (hn : n ≠ 0) :
    fsinpiLane a = if n < 0 then 0x80000000 else 0 := by
  have hne : ratOf x ≠ 0 := by rw [hx]; exact_mod_cast hn
  have hneg : x.neg = decide (n < 0) := by
    rw [neg_eq_decide hne]
    exact decide_eq_decide.mpr (by rw [hx]; exact_mod_cast Iff.rfl)
  rw [fsinpiLane, ha]
  refine (if_neg (m_ne_zero_of_ratOf_ne hne)).trans ((if_pos (dvd_of_ratOf_eq_intCast hx)).trans ?_)
  refine (eq_zero_of_toNat (toNat_lane32 (withSign_lt _ (Nat.two_pow_pos _)))).trans ?_
  rw [hneg]
  exact if_congr decide_eq_true_iff rfl rfl

theorem fcospiLane_of_int {a : Lane} {x : Dy} {n : Int} (ha : dec32 a = .fin x) (hx : ratOf x = n) (hn : n ≠ 0) :
    fcospiLane a = if n % 2 = 0 then 0x3F800000 else 0xBF800000 := by
  have hne : ratOf x ≠ 0 := by rw [hx]; exact_mod_cast hn
  rw [fcospiLane, ha]
  refine (if_neg (m_ne_zero_of_ratOf_ne hne)).trans ((if_pos (dvd_of_ratOf_eq_intCast hx)).trans ?_)
  rw [toInt_of_ratOf_eq hx]

theorem fcospiLane_of_half {a : Lane} {x : Dy} {n : Int} (ha : dec32 a = .fin x) (hx : ratOf x = n + 1 / 2) : fcospiLane a = 0 := by
  have hnot (i : Int) : ratOf x ≠ i := by
    intro h
    have h2 : ((2 * i : Int) : ℚ) = ((2 * n + 1 : Int) : ℚ) := by push_cast; rw [← h, hx]; ring
    have h3 : 2 * i = 2 * n + 1 := by exact_mod_cast h2
    omega
  have hodd : ¬ (0 ≤ x.e ∨ x.m % 2 ^ (-x.e).toNat = 0) := fun h => by
    obtain ⟨i, hi⟩ := exists_intCast_of_dvd h
    exact hnot i hi
  have htwice : 0 ≤ x.e ∨ 2 * x.m % 2 ^ (-x.e).toNat = 0 := by
    refine dvd_of_ratOf_eq_intCast (x := ⟨x.neg, 2 * x.m, x.e⟩) (i := 2 * n + 1) ?_
    have : ratOf ⟨x.neg, 2 * x.m, x.e⟩ = 2 * ratOf x := by rw [ratOf, ratOf]; push_cast; ring
    rw [this, hx]
    push_cast
    ring
  rw [fcospiLane, ha]
  exact (if_neg (m_ne_zero_of_ratOf_ne (by exact_mod_cast hnot 0))).trans ((if_neg hodd).trans
    (if_pos (htwice.resolve_left fun he => hodd (.inl he))))

/-! ### NaN and negative operands -/

theorem functions_of_isNaN {a : Lane} (h : IsNaN a) :
    ∀ f ∈ [fsqrtLane, frcpLane, frsqLane, fexp2Lane, flog2Lane, fsinpiLane, fcospiLane], f a = 0x7FC00000 := by
  have hd : dec32 a = .nan := h
  simp only [List.forall_mem_cons, fsqrtLane, frcpLane, frsqLane, fexp2Lane, flog2Lane, fsinpiLane, fcospiLane, hd]
  exact ⟨rfl, rfl, rfl, rfl, rfl, rfl, rfl, nofun⟩

theorem functions_of_neg {a : Lane} {x : Dy} (ha : dec32 a = .fin x) (hx : ratOf x < 0) :
    fsqrtLane a = 0x7FC00000 ∧ frsqLane a = 0x7FC00000 ∧ flog2Lane a = 0x7FC00000 := by
  have hm := m_ne_zero_of_ratOf_ne hx.ne
  have hneg : x.neg = true := by rw [neg_eq_decide hx.ne]; simpa using hx
  simp only [fsqrtLane, frsqLane, flog2Lane, ha, if_neg hm, hneg, if_true]
  exact ⟨rfl, rfl, rfl⟩

/-- Settles O22: orders and compares by the exact values, integral values and classes by the code's fields, and the special
functions by their exact or enclosing results. -/
theorem floatSelectsAndFunctions : Obligations.FloatSelectsAndFunctions := by
  unfold Obligations.FloatSelectsAndFunctions
  refine ⟨⟨?_, ?_, ?_, ?_, ?_⟩, ?_⟩
  · refine ⟨fminmax false false, fminmax true false, fminmax false true, fminmax true true,
      lane2_claim (fun _ _ => rfl) fun _ _ _ _ _ => rfl, lane2_claim (fun _ _ => rfl) fun _ _ _ _ _ => rfl,
      lane2_claim (fun _ _ => rfl) fun _ _ _ _ _ => rfl, lane2_claim (fun _ _ => rfl) fun _ _ _ _ _ => rfl,
      fun a b h => ⟨fminmax_of_isNaN false h, fminmax_of_isNaN true h⟩,
      fun a b ha hb => ⟨(fminmax_num_of_isNaN false ha).1 hb, (fminmax_num_of_isNaN true ha).1 hb⟩, fun a b ha hb => ?_,
      fun a b x y ha hb h => ?_, fun a ha => ?_, fun a ha => ⟨?_, ?_⟩⟩
    · obtain ⟨h1, h2⟩ := (fminmax_num_of_isNaN false ha).2 hb
      obtain ⟨h3, h4⟩ := (fminmax_num_of_isNaN true ha).2 hb
      exact ⟨h1, h3, h2, h4⟩
    · obtain ⟨h1, h2, h3, h4⟩ := fminmax_of_before false ha hb h
      obtain ⟨h5, h6, h7, h8⟩ := fminmax_of_before true ha hb h
      exact ⟨h1, h2, h3, h4, h5, h6, h7, h8⟩
    · simp only [List.forall_mem_cons]
      exact ⟨(fminmax_of_inf false ha).1, (fminmax_of_inf true ha).1, nofun⟩
    · simp only [List.forall_mem_cons]
      exact ⟨(fminmax_of_inf false ha).2, (fminmax_of_inf true ha).2, nofun⟩
    · simp only [List.forall_mem_cons]
      exact ⟨fminmax_self _ _ ha, fminmax_self _ _ ha, fminmax_self _ _ ha, fminmax_self _ _ ha, nofun⟩
  · exact ⟨fabsLane, fnegLane, lane1_claim (fun _ => rfl) fun _ _ _ _ => rfl, lane1_claim (fun _ => rfl) fun _ _ _ _ => rfl, fabs_fneg_spec⟩
  · refine ⟨fcmpHolds, fun s k cc g d a b hk => laneMaskResult_of_laneCmp (fun x l => fcmpHolds cc (x.rd1 a l) (x.rd1 b l)) (fun _ => rfl) hk rfl,
      fun cc a b => fcmpHolds_of_isNaN cc, fun a b x y ha hb => fcmpHolds_fin_iff ha hb, fun cc s t => ?_, fun cc s a x ha => ?_⟩
    · simp only [fcmpHolds, dec32_infLane]
      cases cc <;> cases s <;> cases t <;> rfl
    · simp only [fcmpHolds, dec32_infLane, ha]
      cases cc <;> cases s <;> exact ⟨rfl, rfl⟩
  · exact ⟨lane1_claim (fun _ => rfl) fun _ _ _ _ => rfl, lane1_claim (fun _ => rfl) fun _ _ _ _ => rfl,
      lane1_claim (fun _ => rfl) fun _ _ _ _ => rfl, lane1_claim (fun _ => rfl) fun _ _ _ _ => rfl,
      fun r a => ⟨(fintegral_special r a).1, (fintegral_special r a).2, fun x ha => fintegral_of_fin r ha⟩⟩
  · exact ⟨fclassLane, lane1_claim (fun _ => rfl) fun _ _ _ _ => rfl, fclass_spec⟩
  · refine ⟨frcpLane, frsqLane, fexp2Lane, flog2Lane, fsinpiLane, fcospiLane, ?_⟩
    intro sqrt
    refine ⟨lane1_claim (fun _ => rfl) fun _ _ _ _ => rfl, lane1_claim (fun _ => rfl) fun _ _ _ _ => rfl,
      lane1_claim (fun _ => rfl) fun _ _ _ _ => rfl, lane1_claim (fun _ => rfl) fun _ _ _ _ => rfl,
      lane1_claim (fun _ => rfl) fun _ _ _ _ => rfl, lane1_claim (fun _ => rfl) fun _ _ _ _ => rfl,
      lane1_claim (fun _ => rfl) fun _ _ _ _ => rfl, fun a => functions_of_isNaN, fun a x => functions_of_neg, ?_, fun s => ?_,
      fun a x ha _ => frcpLane_of_small ha, fun a x => frcpLane_of_large, fun a x n => frcpLane_of_two_zpow, ?_⟩
    · exact ⟨rfl, rfl, rfl⟩
    · refine ⟨?_, ?_, ?_⟩
      · rw [frcpLane, dec32_infLane]
        exact eq_zero_of_toNat (toNat_lane32 (withSign_lt _ (Nat.two_pow_pos _)))
      · exact frcpLane_of_small (dec32_zero s) (by rw [abs_ratOf]; norm_num)
      · rw [frsqLane, dec32_zero]
        exact eq_infLane_of_toNat (toNat_lane32 (withSign_lt _ (IsIeee.infCode_lt fp32)))
    · exact ⟨rfl, rfl, rfl, fun a x => frsqLane_spec, fun a x n => frsqLane_of_two_zpow, ⟨rfl, rfl, rfl, rfl⟩,
        fun a x ha => ⟨fexp2Lane_of_large ha, fexp2Lane_of_small ha, fun i => fexp2Lane_of_int ha⟩, ⟨rfl, rfl, rfl, rfl⟩,
        fun a x n => flog2Lane_of_two_zpow, ⟨rfl, rfl, rfl, rfl, fun s => by cases s <;> exact ⟨rfl, rfl⟩⟩,
        fun a x n ha hx hn => ⟨fsinpiLane_of_int ha hx hn, fcospiLane_of_int ha hx hn⟩, fun a x n => fcospiLane_of_half⟩

end Sys2Proof.Proofs
end

section
/-!
PROOFS. Lane memory instructions at issue (06: R175 to R189).
-/

open Sys2Proof Sys2Proof.Machine Sys2Proof.Claims

namespace Sys2Proof.Proofs

/-! ## Looking addresses up touches caches and TLBs only (R258) -/

/-- A device is another but for what the caches and TLBs hold. -/
def CachedDev (d e : Dev) : Prop :=
  e = { d with tlb := e.tlb, llc := e.llc, mt := e.mt, xfers := e.xfers }

theorem exists_of_cachedDev {d y : Dev} (h : CachedDev d y) :
    ∃ a b c e, y = { d with tlb := a, llc := b, mt := c, xfers := e } := ⟨_, _, _, _, h⟩

namespace CachedDev

theorem refl (d : Dev) : CachedDev d d := rfl

theorem trans {a b c : Dev} (h : CachedDev a b) (g : CachedDev b c) : CachedDev a c := by
  rw [CachedDev] at *
  rw [g, h]

theorem foldl {α : Type} {f : Dev → α → Dev} (hf : ∀ d x, CachedDev d (f d x)) (l : List α) (d : Dev) : CachedDev d (l.foldl f d) := by
  induction l generalizing d with
  | nil => exact refl d
  | cons x l ih => exact (hf d x).trans (ih _)

theorem fillLlc (d : Dev) (slot pa ctx : Nat) : CachedDev d (d.fillLlc slot pa ctx) := by
  simp only [Dev.fillLlc]
  split <;> rfl

theorem touchLine (d : Dev) (slot pa ctx : Nat) : CachedDev d (d.touchLine slot pa ctx) := by
  rw [Dev.touchLine]
  split
  · exact fillLlc d slot pa ctx
  · split
    · rfl
    · exact (show CachedDev d (d.evictLine _) from rfl).trans (fillLlc _ slot pa ctx)

theorem walkNow (d : Dev) (core : Nat) (c : Ctx) (va : Nat) : CachedDev d (d.walkNow core c va) := by
  have hread : CachedDev d ((d.walkReads c va walkLevels c.root).foldl (fun d a => d.touchLine c.n a c.n) d) :=
    foldl (fun d a => touchLine d c.n a c.n) _ d
  rw [Dev.walkNow]
  split
  · exact hread
  · exact hread.trans rfl

theorem looked (d : Dev) (core : Nat) (c : Ctx) (va : Nat) : CachedDev d (d.looked core c va) := by
  rw [Dev.looked]
  split
  · exact refl d
  · split
    · rfl
    · exact walkNow d core c va

theorem lookedAll (d : Dev) (core : Nat) (c : Ctx) (vas : List Nat) : CachedDev d (d.lookedAll core c vas) :=
  foldl (fun d va => looked d core c va) vas d

end CachedDev

/-- What keeps to the other fields does the same to a device with other caches. -/
theorem cached_of_cachedDev {s : State} {d e : Dev} (h : CachedDev d e) : Cached { s with dev := d } { s with dev := e } := by
  obtain ⟨a, b, c, e, rfl⟩ := exists_of_cachedDev h
  rfl

/-! ## The check phase (R176) -/

section
variable {d : Dev} {k : Issue} {glob : Bool} {L : List Nat} {ea : Nat → Word} {check : Nat → Except Nat Loc}
  {f : Dev → List (Nat × Word × Loc) → Dev}

theorem afterChecks_of_ok {p : Nat → Loc} (h : ∀ l ∈ L, check l = .ok (p l)) :
    d.afterChecks k glob (L.map fun l => (l, ea l, check l)) f =
      f (if glob then d.lookedAll k.core k.ctx (L.map fun l => (ea l).toNat) else d) (L.map fun l => (l, ea l, p l)) := by
  rw [List.map_congr_left (g := fun l => (l, ea l, .ok (p l))) fun l hl => by rw [h l hl]]
  simp only [Dev.afterChecks, List.filterMap_map, List.map_map, Function.comp_def, List.filterMap_none]
  exact congrArg (f _) (List.filterMap_eq_map_iff_forall_eq_some.mpr fun _ _ => rfl)

/-- The first of a rising list that a partial function is defined on. -/
theorem exists_filterMap_eq_cons {β : Type} {g : Nat → Option β} {l : Nat} {x : β} (hs : L.Pairwise (· < ·)) (hl : l ∈ L) (hx : g l = some x)
    (hfirst : ∀ j ∈ L, j < l → g j = none) : ∃ t, L.filterMap g = x :: t := by
  induction L with
  | nil => cases hl
  | cons j L ih =>
    obtain ⟨hj, hs⟩ := List.pairwise_cons.mp hs
    rcases List.mem_cons.mp hl with rfl | hl
    · exact ⟨_, List.filterMap_cons_some hx⟩
    · rw [List.filterMap_cons_none (hfirst j List.mem_cons_self (hj l hl))]
      exact ih hs hl fun i hi => hfirst i (List.mem_cons_of_mem _ hi)

/-- What a failing lane reports. -/
def failure (ea : Nat → Word) (check : Nat → Except Nat Loc) (l : Nat) : Option (Nat × Word × Nat) :=
  match check l with
  | .error c => some (l, ea l, c)
  | .ok _ => none

theorem failure_eq_some_iff {l : Nat} {x : Nat × Word × Nat} : failure ea check l = some x ↔ ∃ e, check l = .error e ∧ x = (l, ea l, e) := by
  rw [failure]
  cases check l with
  | error c => simp [eq_comm]
  | ok p => simp

/-- The mask of the lanes that failed. -/
def failedLanes (bad : List (Nat × Word × Nat)) : LaneMask := bad.foldl (fun (m : LaneMask) x => m ||| (1#32 <<< x.1)) 0

theorem getLsbD_failedLanes (bad : List (Nat × Word × Nat)) {j : Nat} (hj : j < 32) :
    (failedLanes bad).getLsbD j = true ↔ ∃ x ∈ bad, x.1 = j := by
  rw [failedLanes, getLsbD_foldl_or (fun x : Nat × Word × Nat => 1#32 <<< x.1)]
  simp only [BitVec.getLsbD_shiftLeft, BitVec.getLsbD_one]
  constructor
  · rintro (h | ⟨x, hx, h⟩)
    · simp at h
    · exact ⟨x, hx, by simp at h; omega⟩
  · rintro ⟨x, hx, rfl⟩
    exact .inr ⟨x, hx, by simp [hj]⟩

theorem afterChecks_eq (L : List Nat) : d.afterChecks k glob (L.map fun l => (l, ea l, check l)) f =
    let y := if glob then d.lookedAll k.core k.ctx (L.map fun l => (ea l).toNat) else d
    match L.filterMap (failure ea check) with
    | (_, e, c) :: _ => y.trapMem k c e (failedLanes (L.filterMap (failure ea check)))
    | [] => f y (L.filterMap fun l => match check l with | .ok p => some (l, ea l, p) | .error _ => none) := by
  simp only [Dev.afterChecks, List.filterMap_map, List.map_map, Function.comp_def]
  rfl

end

theorem pairwise_activeLanes (k : Issue) (g : Guard) : (activeLanes k g).Pairwise (· < ·) :=
  List.pairwise_lt_range.filter _

theorem afterChecks_of_firstFailure {d : Dev} {k : Issue} {g : Guard} {glob : Bool} {ea : Nat → Word} {check : Nat → Except Nat Loc}
    {f : Dev → List (Nat × Word × Loc) → Dev} {l e : Nat} (h : FirstFailure k g check l e) : ∃ x : LaneMask, failMask k g check x ∧
      d.afterChecks k glob ((activeLanes k g).map fun l => (l, ea l, check l)) f =
        (if glob then d.lookedAll k.core k.ctx ((activeLanes k g).map fun l => (ea l).toNat) else d).trapMem k e (ea l) x := by
  obtain ⟨hl, he, hfirst⟩ := h
  obtain ⟨t, ht⟩ := exists_filterMap_eq_cons (g := failure ea check) (pairwise_activeLanes k g) hl
    (failure_eq_some_iff.mpr ⟨e, he, rfl⟩) fun j hj hlt => by
      obtain ⟨p, hp⟩ := hfirst j hj hlt
      rw [failure, hp]
  refine ⟨failedLanes ((activeLanes k g).filterMap (failure ea check)), fun j hj => ?_, ?_⟩
  · rw [getLsbD_failedLanes _ hj]
    simp only [List.mem_filterMap, failure_eq_some_iff]
    constructor
    · rintro ⟨_, ⟨i, hi, e, he, rfl⟩, rfl⟩
      exact ⟨hi, e, he⟩
    · rintro ⟨hj, e, he⟩
      exact ⟨_, ⟨j, hj, e, he, rfl⟩, rfl⟩
  · rw [afterChecks_eq, ht]

/-! ## One lane operation (R26, R176, R177) -/

theorem not_hasRoom_iff {s : State} {k : Issue} {ld : Bool} :
    ¬ HasRoom s k ld ↔ (if ld then 62 ≤ s.dev.ld k.wave.id else 62 ≤ s.dev.st k.wave.id) := by
  cases ld <;> simp [HasRoom]

section
variable {i : Instr} {s : State} {k : Issue} {regs : List Nat} {g : Guard} {ld glob : Bool} {places : Dev → Issue → LaneMask → LanePlaces}
  {n : Nat} {kind : MemKind} {data : Dev → Issue → Nat → List Byte} {plain : Bool} {ea : Nat → Word} {check : Nat → Except Nat Loc}

theorem laneOp_full (hk : s.dev.issuer? = some k) (hw : InWindow k regs) (hroom : ¬ HasRoom s k ld) :
    laneOp s regs g ld glob places n kind data plain = .next (stays s k (.full (if ld then .ld else .st))) := by
  rw [laneOp, issue_next s k _ hk, ← stays_eq_stall]
  simp only [(inWindow_eq_true_iff k regs).mpr hw, Bool.not_true, Bool.false_eq_true, if_false]
  exact congrArg (fun d => Host.Outcome.next { s with dev := d }) (if_pos (not_hasRoom_iff.mp hroom))

/-- With its registers in the window and room in its counter an operation goes on to the check phase. -/
theorem laneOp_checks (hk : s.dev.issuer? = some k) (hw : InWindow k regs) (hroom : HasRoom s k ld) :
    laneOp s regs g ld glob places n kind data plain = .next (after s fun d =>
      d.afterChecks k glob (places d k (k.active g)) fun x ps =>
        let parts := ps.map fun q => (⟨q.1, q.2.1.toNat, q.2.2, n, data d k q.1, .waiting⟩ : LaneAcc)
        let d : Dev := if d.unsettled k regs then { x with free := x.free + 1 } else x
        if parts.isEmpty then d.advance k 8 else (d.addOp k kind parts (plain && k.coalesced parts n)).advance k 8) := by
  rw [laneOp, issue_next s k _ hk]
  simp only [(inWindow_eq_true_iff k regs).mpr hw, Bool.not_true, Bool.false_eq_true, if_false]
  refine congrArg (fun d => Host.Outcome.next { s with dev := d }) (if_neg ?_)
  have hnot : ¬ ¬ HasRoom s k ld := not_not.mpr hroom
  rwa [not_hasRoom_iff] at hnot

theorem laneFaults_of_laneOp (hi : exec i s = laneOp s regs g ld glob places n kind data plain) (hk : s.dev.issuer? = some k)
    (hp : places { s.dev with latch := none } k (k.active g) = (activeLanes k g).map fun l => (l, ea l, check l)) :
    LaneFaults s k g i regs (some ld) glob ea check := by
  refine ⟨fun h => ?_, ?_, fun hw hroom _ l e hf => ?_⟩
  · rw [hi]
    exact laneOp_beyond hk (by rwa [← not_inWindow_iff, ← Bool.not_eq_true, inWindow_eq_true_iff])
  · intro ld' hld hw hroom
    obtain rfl := Option.some.inj hld
    rw [hi, laneOp_full hk hw hroom]
  · obtain ⟨x, hx, heq⟩ := afterChecks_of_firstFailure hf
    refine ⟨x, hx, ?_⟩
    rw [hi, laneOp_checks hk hw (hroom ld rfl)]
    refine congrArg Host.Outcome.next ?_
    rw [after, hp, heq]
    rfl

end
/-! ## An operation is outstanding (R26, R177) -/

/-- The device after an operation with these lanes has been issued (R26): a gang without an active lane goes on alone. -/
def issueDev (s : State) (k : Issue) (regs : List Nat) (kind : MemKind) (lanes : List LaneAcc) (whole : Bool) (x : Dev) : Dev :=
  let d : Dev := if s.dev.unsettled k regs then { x with free := x.free + 1 } else x
  if lanes.isEmpty then d.advance k 8 else (d.addOp k kind lanes whole).advance k 8

theorem laneStep_eq_advance (s : State) (k : Issue) (regs : List Nat) (len : Nat) :
    laneStep s k len regs (fun w => w) =
      after s fun d => Dev.advance (if s.dev.unsettled k regs then { d with free := d.free + 1 } else d) k len := by
  have h : gangStep s k (fun _ => passed len) = after s fun d => d.advance k len := (onGang_eq s k _).symm
  rw [laneStep]
  change (let t := gangStep s k fun _ => passed len
    ({ t with dev := { t.dev with free := if s.dev.unsettled k regs then s.dev.free + 1 else s.dev.free } } : State)) = _
  rw [h]
  cases s.dev.unsettled k regs <;> rfl

theorem issued_eq_issueDev (s : State) (k : Issue) (regs : List Nat) (kind : MemKind) (lanes : List LaneAcc) (whole : Bool) :
    issued s k regs kind lanes whole = after s (issueDev s k regs kind lanes whole) := by
  rw [issued, laneStep_eq_advance]
  cases lanes with
  | nil => rfl
  | cons a l =>
    rw [if_neg (List.cons_ne_nil a l)]
    simp only [after, issueDev, List.isEmpty_cons, Bool.false_eq_true, if_false]
    cases s.dev.unsettled k regs <;> rfl

theorem cached_issueDev {s : State} {k : Issue} {regs : List Nat} {kind : MemKind} {lanes : List LaneAcc} {whole : Bool} {x y : Dev}
    (h : CachedDev x y) : CachedDev (issueDev s k regs kind lanes whole x) (issueDev s k regs kind lanes whole y) := by
  obtain ⟨a, b, c, e, rfl⟩ := exists_of_cachedDev h
  simp only [issueDev]
  cases s.dev.unsettled k regs <;> cases lanes <;> rfl

section
variable {i : Instr} {s : State} {k : Issue} {regs : List Nat} {g : Guard} {ld glob : Bool} {places : Dev → Issue → LaneMask → LanePlaces}
  {n : Nat} {kind : MemKind} {data : Dev → Issue → Nat → List Byte} {plain : Bool} {ea : Nat → Word} {check : Nat → Except Nat Loc}
  {p : Nat → Loc}

/-- The whole wave has accessed one line (R274). -/
theorem coalesced_whole {k : Issue} {lanes : List LaneAcc} {n : Nat} (h : k.coalesced lanes n = true) :
    k.gang = k.wave.liveMask ∧ k.ctx.atom = false ∧ lanes.length * n = 128 := by
  simp only [Issue.coalesced, Issue.whole, Bool.and_eq_true, beq_iff_eq, Bool.not_eq_true'] at h
  obtain ⟨⟨⟨⟨⟨hatom, hgang⟩, hlen⟩, -⟩, -⟩, -⟩ := h
  exact ⟨hgang, hatom, hlen⟩

/-- The accesses of the active lanes. -/
def laneAccs (k : Issue) (g : Guard) (n : Nat) (ea : Nat → Word) (p : Nat → Loc) (data : Nat → List Byte) : List LaneAcc :=
  (activeLanes k g).map fun l => ⟨l, (ea l).toNat, p l, n, data l, .waiting⟩

/-- An operation all of whose lanes pass their checks is outstanding, with these lanes. -/
theorem issues_of_laneOp (hi : exec i s = laneOp s regs g ld glob places n kind data plain) (hk : s.dev.issuer? = some k)
    (hw : InWindow k regs) (hroom : HasRoom s k ld)
    (hp : places { s.dev with latch := none } k (k.active g) = (activeLanes k g).map fun l => (l, ea l, check l))
    (hok : ∀ l ∈ activeLanes k g, check l = .ok (p l)) :
    Issues s k i glob regs kind (laneAccs k g n ea p (data { s.dev with latch := none } k)) n := by
  have hdev : exec i s = .next (after s fun d => issueDev s k regs kind
      (laneAccs k g n ea p (data { s.dev with latch := none } k))
      (plain && k.coalesced (laneAccs k g n ea p (data { s.dev with latch := none } k)) n)
      (if glob then d.lookedAll k.core k.ctx ((activeLanes k g).map fun l => (ea l).toNat) else d)) := by
    rw [hi, laneOp_checks hk hw hroom]
    refine congrArg Host.Outcome.next ?_
    rw [after, hp, afterChecks_of_ok hok]
    simp only [List.map_map, Function.comp_def]
    rfl
  refine ⟨plain && k.coalesced (laneAccs k g n ea p (data { s.dev with latch := none } k)) n, _, hdev, ?_, fun h => coalesced_whole (Bool.and_eq_true_iff.mp h).2⟩
  rw [issued_eq_issueDev]
  cases glob with
  | false => rfl
  | true => exact cached_of_cachedDev (cached_issueDev (CachedDev.lookedAll _ _ _ _))

end

/-! ## Addresses and data (R175, R180) -/

section
variable (s : State) (k : Issue) (g : Guard) (d : VReg) (m : Addr)

theorem loadBytes_eq (w : LdW) : loadBytes w = (ldWidth w).1 := by cases w <;> rfl
theorem loadRegs_eq (w : LdW) : loadRegs w = (ldWidth w).2 := by cases w <;> rfl
theorem storeBytes_eq (w : StW) : storeBytes w = (stWidth w).1 := by cases w <;> rfl
theorem storeRegs_eq (w : StW) : storeRegs w = (stWidth w).2 := by cases w <;> rfl
theorem atBytes_eq (op : AtOp) : atBytes op = if op = .addI64 then 8 else 4 := by cases op <;> rfl
theorem atRegs_eq (op : AtOp) : atRegs op = if op = .addI64 ∨ op = .cas then 2 else 1 := by cases op <;> rfl
theorem atBytes_redAtomic (op : RedOp) : atBytes (RedAtomic op) = if op = .addI64 then 8 else 4 := by cases op <;> rfl
theorem atRegs_redAtomic (op : RedOp) : atRegs (RedAtomic op) = if op = .addI64 then 2 else 1 := by cases op <;> rfl

theorem sx_eq_ofInt {n : Nat} (i : BitVec n) : sx i = BitVec.ofInt 64 i.toInt := rfl

theorem laneAddr_eq (base : Bool) (l : Nat) : s.dev.laneAddr k m base l = laneAddress s k m base l := by
  rw [Dev.laneAddr, laneAddress, kscScale, sx_eq_ofInt, BitVec.ofInt_add, BitVec.ofInt_add, BitVec.ofInt_natCast]
  congr 2
  · cases base
    · rfl
    · exact ((BitVec.ofNat_toNat 64 _).trans (BitVec.setWidth_eq _)).symm
  · split <;> rfl

theorem pairAddr_eq (a : VReg) (off : BitVec 23) (l : Nat) :
    s.dev.pairAddr k a off l = BitVec.ofInt 64 ((pairAt s k a l).toNat + off.toInt) := by
  rw [Dev.pairAddr, sx_eq_ofInt, BitVec.ofInt_add, BitVec.ofInt_natCast, BitVec.ofNat_toNat, BitVec.setWidth_eq]
  rfl

end

/-! ## Places (R175, R176, R181) -/

/-- The state of an instruction that has been selected. -/
def unlatched (s : State) : Dev := { s.dev with latch := none }

section
variable (s : State) (k : Issue) (g : Guard) (m : Addr) (n : Nat) (need : Need) (host : Bool)

theorem laneAddr_unlatched (base : Bool) : (unlatched s).laneAddr k m base = laneAddress s k m base :=
  funext fun l => laneAddr_eq s k m base l

theorem pairAddr_unlatched (a : VReg) (off : BitVec 23) :
    (unlatched s).pairAddr k a off = fun l => BitVec.ofInt 64 ((pairAt s k a l).toNat + off.toInt) :=
  funext fun l => pairAddr_eq s k a off l

theorem globPlaces_unlatched (ea : Nat → Word) : (unlatched s).globPlaces k (k.active g) n need host ea =
    (activeLanes k g).map fun l => (l, ea l, s.dev.checkGlobal k.core k.ctx (ea l).toNat n need host) := rfl

theorem locPlaces_eq (b : Block) (sp : Space) (ea : Nat → Word) : locPlaces b sp (k.active g) n ea =
    (activeLanes k g).map fun l => (l, ea l, localCheck b.core sp (b.range sp) (ea l).toNat n) := rfl

theorem teamPlaces_unlatched (f ea : Nat → Word) : (unlatched s).teamPlaces k (k.active g) n f ea =
    (activeLanes k g).map fun l => (l, ea l, teamCheck s k (f l) (ea l).toNat n) := rfl

end

/-! ## Lane loads, stores and atomics issue (O25, O26) -/

section
variable {i : Guard → VReg → Addr → Instr} {j : Guard → VReg → VReg → BitVec 23 → Instr} {ld plain : Bool} {nregs n : Nat} {need : Need}
  {host : Bool} {kind : VReg → MemKind} {data : Dev → Issue → VReg → Nat → List Byte}

theorem globalOp_of_laneOp (hi : ∀ g d m s, exec (i g d m) s = laneOp s (vregs d nregs ++ addrRegs m) g ld true
      (fun x k act => x.globPlaces k act n need host (x.laneAddr k m true)) n (kind d) (fun x k l => data x k d l) plain) :
    GlobalOp i ld nregs n need host kind fun s => data (unlatched s) := by
  intro s k g d m p hk hw hroom hok
  refine issues_of_laneOp (hi g d m s) hk hw hroom ?_ hok
  rw [← unlatched, laneAddr_unlatched, globPlaces_unlatched]

theorem localOp_of_laneOp (hi : ∀ g d m s, exec (i g d m) s = laneOp s (vregs d nregs ++ addrRegs m) g ld false
      (fun x k act => locPlaces k.block .scratch act n (x.laneAddr k m true)) n (kind d) (fun x k l => data x k d l) plain) :
    LocalOp i ld nregs n kind fun s => data (unlatched s) := by
  intro s k g d m hk hw hroom hok
  refine issues_of_laneOp (hi g d m s) hk hw hroom (ea := laneAddress s k m true)
    (check := fun l => localCheck k.core .scratch k.block.scratch (laneAddress s k m true l).toNat n) ?_ fun l hl => ?_
  · rw [← unlatched, laneAddr_unlatched]
    exact locPlaces_eq k g n k.block .scratch _
  · obtain ⟨halign, hin⟩ := hok l hl
    rw [localCheck, if_neg (not_not.mpr halign), if_neg (not_lt.mpr hin)]

theorem teamOp_of_laneOp (hi : ∀ g d m s, exec (i g d m) s = laneOp s (vregs d nregs ++ addrRegs m) g ld false
      (fun x k act => x.teamPlaces k act n (fun l => (k.strand (l / 4)).rd m.sb) (x.laneAddr k m false)) n (kind d)
      (fun x k l => data x k d l) plain) :
    TeamOp i ld nregs n kind fun s => data (unlatched s) := by
  intro s k g d m id t core r hk hw hroom hid ht hok
  refine issues_of_laneOp (hi g d m s) hk hw hroom (ea := laneAddress s k m false)
    (check := fun l => teamCheck s k ((k.strand (l / 4)).rd m.sb) (laneAddress s k m false l).toNat n) ?_ fun l hl => ?_
  · rw [← unlatched, laneAddr_unlatched]
    exact teamPlaces_unlatched s k g n _ _
  · obtain ⟨hcore, hr, halign, hin⟩ := hok l hl
    have hteam : k.block.team.bind s.dev.team? = some t := by rw [hid]; exact ht
    simp only [teamCheck, hteam, hcore, hr]
    rw [localCheck, if_neg (not_not.mpr halign), if_neg (not_lt.mpr hin)]

theorem pointerOp_of_laneOp (hj : ∀ g d a off s, exec (j g d a off) s = laneOp s (vregs d nregs ++ vregs a 2) g ld true
      (fun x k act => x.globPlaces k act n need true (x.pairAddr k a off)) n (kind d) (fun x k l => data x k d l) plain) :
    PointerOp j ld nregs n need kind fun s => data (unlatched s) := by
  intro s k g d a off p hk ea hw hroom hok
  refine issues_of_laneOp (hj g d a off s) hk hw hroom ?_ hok
  rw [← unlatched, pairAddr_unlatched]
  exact globPlaces_unlatched s k g n need true _

end

/-- What a load carries. -/
def noData : Dev → Issue → VReg → Nat → List Byte := fun _ _ _ _ => []
/-- What a store carries (R180). -/
def storeData (w : StW) : Dev → Issue → VReg → Nat → List Byte := fun x k d l => x.laneData k d (storeRegs w) (storeBytes w) l

/-- Settles O25: every form is one `laneOp` (R177) whose places are those of its address form. -/
theorem laneMemoryIssues : Obligations.LaneMemoryIssues := by
  unfold Obligations.LaneMemoryIssues
  refine ⟨fun w => ?_, fun w => ?_⟩
  · rw [← loadBytes_eq, ← loadRegs_eq]
    exact ⟨globalOp_of_laneOp (data := noData) fun _ _ _ _ => rfl, pointerOp_of_laneOp (data := noData) fun _ _ _ _ _ => rfl, localOp_of_laneOp (data := noData) fun _ _ _ _ => rfl,
      teamOp_of_laneOp (data := noData) fun _ _ _ _ => rfl⟩
  · rw [← storeBytes_eq, ← storeRegs_eq]
    exact ⟨globalOp_of_laneOp (data := storeData w) fun _ _ _ _ => rfl, pointerOp_of_laneOp (data := storeData w) fun _ _ _ _ _ => rfl, localOp_of_laneOp (data := storeData w) fun _ _ _ _ => rfl,
      teamOp_of_laneOp (data := storeData w) fun _ _ _ _ => rfl⟩

/-! ## Lane accesses that fail (O27) -/

section
variable {s : State} {k : Issue} {g : Guard} {d : VReg} {m : Addr} {i : Instr} {ld plain : Bool} {nregs n : Nat} {need : Need}
  {host : Bool} {kind : MemKind} {data : Dev → Issue → Nat → List Byte}

theorem globalFaults (hk : s.dev.issuer? = some k) (hi : exec i s = laneOp s (vregs d nregs ++ addrRegs m) g ld true
      (fun x k act => x.globPlaces k act n need host (x.laneAddr k m true)) n kind data plain) :
    LaneFaults s k g i (run d nregs ++ indexReg m) (some ld) true (laneAddress s k m true) fun l =>
      s.dev.checkGlobal k.core k.ctx (laneAddress s k m true l).toNat n need host :=
  laneFaults_of_laneOp hi hk (by rw [← unlatched, laneAddr_unlatched, globPlaces_unlatched])

theorem localFaults (hk : s.dev.issuer? = some k) (hi : exec i s = laneOp s (vregs d nregs ++ addrRegs m) g ld false
      (fun x k act => locPlaces k.block .scratch act n (x.laneAddr k m true)) n kind data plain) :
    LaneFaults s k g i (run d nregs ++ indexReg m) (some ld) false (laneAddress s k m true) fun l =>
      localCheck k.core .scratch k.block.scratch (laneAddress s k m true l).toNat n :=
  laneFaults_of_laneOp hi hk (by rw [← unlatched, laneAddr_unlatched]; exact locPlaces_eq k g n k.block .scratch _)

theorem teamFaults (hk : s.dev.issuer? = some k) (hi : exec i s = laneOp s (vregs d nregs ++ addrRegs m) g ld false
      (fun x k act => x.teamPlaces k act n (fun l => (k.strand (l / 4)).rd m.sb) (x.laneAddr k m false)) n kind data plain) :
    LaneFaults s k g i (run d nregs ++ indexReg m) (some ld) false (laneAddress s k m false) fun l =>
      teamCheck s k ((k.strand (l / 4)).rd m.sb) (laneAddress s k m false l).toNat n :=
  laneFaults_of_laneOp hi hk (by rw [← unlatched, laneAddr_unlatched]; exact teamPlaces_unlatched s k g n _ _)

theorem pointerFaults {a : VReg} {off : BitVec 23} (hk : s.dev.issuer? = some k)
    (hi : exec i s = laneOp s (vregs d nregs ++ vregs a 2) g ld true
      (fun x k act => x.globPlaces k act n need true (x.pairAddr k a off)) n kind data plain) :
    LaneFaults s k g i (run d nregs ++ run a 2) (some ld) true (fun l => BitVec.ofInt 64 ((pairAt s k a l).toNat + off.toInt)) fun l =>
      s.dev.checkGlobal k.core k.ctx (BitVec.ofInt 64 ((pairAt s k a l).toNat + off.toInt)).toNat n need true :=
  laneFaults_of_laneOp hi hk (by rw [← unlatched, pairAddr_unlatched]; exact globPlaces_unlatched s k g n need true _)

/-! ### Forms that are no `laneOp` -/

theorem next_after_congr {s : State} {f h : Dev → Dev} (hf : f (unlatched s) = h (unlatched s)) :
    (Host.Outcome.next (after s f) : Host.Outcome State Fault Refusal) = .next (after s h) :=
  congrArg (fun d => Host.Outcome.next { s with dev := d }) hf

section
variable {regs : List Nat} {f : Issue → Dev → Dev}

theorem beyond_of_issue (hk : s.dev.issuer? = some k)
    (hi : exec i s = issue s fun k x => if !k.inWindow regs then x.trap k cRegrange else f k x) (hw : ¬ InWindow k regs) :
    exec i s = .next (after s fun x => x.trap k cRegrange) := by
  rw [← inWindow_eq_true_iff, Bool.not_eq_true] at hw
  rw [hi, issue_next s k _ hk]
  simp only [hw, Bool.not_false, if_true]
  rfl

theorem within_of_issue (hk : s.dev.issuer? = some k)
    (hi : exec i s = issue s fun k x => if !k.inWindow regs then x.trap k cRegrange else f k x) (hw : InWindow k regs) :
    exec i s = .next (after s (f k)) := by
  rw [← inWindow_eq_true_iff] at hw
  rw [hi, issue_next s k _ hk]
  simp only [hw, Bool.not_true, Bool.false_eq_true, if_false]
  rfl

theorem stays_of_stall {what : WaitFor} (hi : exec i s = .next (after s (f k))) (hf : f k (unlatched s) = (unlatched s).stall k what) :
    exec i s = .next (stays s k what) := by
  rw [hi, ← stays_eq_stall]
  exact congrArg (fun d => Host.Outcome.next { s with dev := d }) hf

end

theorem bufferFaults {sp : Space} {f : Issue → Dev → Dev → List (Nat × Word × Loc) → Dev} (hk : s.dev.issuer? = some k)
    (hi : exec i s = issue s fun k x => if !k.inWindow (d.toNat :: addrRegs m) then x.trap k cRegrange
      else x.whenSettled k fun x => x.afterChecks k false (locPlaces k.block sp (k.active g) 4 (x.laneAddr k m true)) (f k x)) :
    LaneFaults s k g i (d.toNat :: indexReg m) none false (laneAddress s k m true) fun l =>
      localCheck k.core sp (k.block.range sp) (laneAddress s k m true l).toNat 4 := by
  refine ⟨beyond_of_issue hk hi, fun ld h => (Option.some_ne_none ld h.symm).elim, fun hw _ hsettled l e hf => ?_⟩
  obtain ⟨x, hx, heq⟩ := afterChecks_of_firstFailure (d := unlatched s) (glob := false) (f := f k (unlatched s)) (ea := laneAddress s k m true) hf
  refine ⟨x, hx, (within_of_issue hk hi hw).trans (next_after_congr ?_)⟩
  have hnow : (unlatched s).settled k = true := hsettled rfl
  refine (if_pos hnow).trans ?_
  beta_reduce
  rw [laneAddr_unlatched, locPlaces_eq]
  exact heq

/-- The pointer word that every active lane checks (R186). -/
def pointerPlaces (x : Dev) (k : Issue) (near : Bool) (g : Guard) (q : Word) : LanePlaces :=
  if near then locPlaces k.block .scratch (k.active g) 8 (fun _ => q) else x.globPlaces k (k.active g) 8 needW false (fun _ => q)

/-- A compressing store whose pointer has passed is outstanding. -/
def compressDev (k : Issue) (near : Bool) (g : Guard) (d : VReg) (x z : Dev) : List (Nat × Word × Loc) → Dev
  | [] => z.advance k 8
  | (l, e, p) :: _ =>
    let y : Dev := if x.unsettled k [d.toNat] then { z with free := z.free + 1 } else z
    (y.addOp k (.cmpst near k.block.scratch.len ((activeLanes k g).map fun l => (l, x.source k d.toNat l)))
      [⟨l, e.toNat, p, 8, [], .waiting⟩] false).advance k 8

theorem compress_eq (near : Bool) (b : SReg) (off : BitVec 23) : compress s near g d b off = issue s fun k x =>
    if !k.inWindow [d.toNat] then x.trap k cRegrange
    else if 62 ≤ x.st k.wave.id then x.stall k (.full .st)
    else x.afterChecks k (!near) (pointerPlaces x k near g (k.rd b + sx off)) (compressDev k near g d x) := by
  rw [compress]
  refine congrArg (issue s) (funext fun k => funext fun x => ?_)
  refine ite_congr rfl (fun _ => rfl) fun _ => ite_congr rfl (fun _ => rfl) fun _ => ?_
  refine congrArg (x.afterChecks k (!near) (pointerPlaces x k near g (k.rd b + sx off))) ?_
  funext z ps
  cases ps <;> rfl

theorem hasRoom_store_iff : HasRoom s k false ↔ ¬ 62 ≤ s.dev.st k.wave.id := by
  rw [HasRoom, if_neg Bool.false_ne_true, not_le]

theorem hasRoom_load_iff : HasRoom s k true ↔ ¬ 62 ≤ s.dev.ld k.wave.id := by
  rw [HasRoom, if_pos rfl, not_le]

theorem compressFaults {b : SReg} {off : BitVec 23} {near : Bool} {check : Nat → Except Nat Loc}
    (hk : s.dev.issuer? = some k) (hi : exec i s = compress s near g d b off)
    (hp : pointerPlaces (unlatched s) k near g (k.rd b + sx off) = (activeLanes k g).map fun l => (l, k.rd b + sx off, check l)) :
    LaneFaults s k g i [d.toNat] (some false) (!near) (fun _ => k.rd b + sx off) check := by
  have hi' := hi.trans (compress_eq near b off)
  refine ⟨beyond_of_issue hk hi', fun ld hld hw hroom => ?_, fun hw hroom _ l e hf => ?_⟩
  · obtain rfl := Option.some.inj hld
    exact stays_of_stall (within_of_issue hk hi' hw) (if_pos (not_hasRoom_iff.mp hroom))
  · obtain ⟨x, hx, heq⟩ := afterChecks_of_firstFailure (d := unlatched s) (glob := !near) (ea := fun _ => k.rd b + sx off)
      (f := compressDev k near g d (unlatched s)) hf
    refine ⟨x, hx, (within_of_issue hk hi' hw).trans (next_after_congr ?_)⟩
    refine (if_neg (hasRoom_store_iff.mp (hroom false rfl))).trans ?_
    rw [hp]
    exact heq

end

/-! ### Scalar accesses (R127) -/

section
variable {s : State} {k : Issue} {a : SReg} {i : BitVec 12} {n : Nat} {need : Need} {host : Bool} {t e : Nat}

/-- The address of a strand's scalar access. -/
def strandAddress (k : Issue) (a : SReg) (i : BitVec 12) (t : Nat) : Word := (k.strand t).rd a + i.signExtend 64

/-- What a failing strand reports. -/
def strandFailure (check : Nat → Except Nat Loc) (t : Nat) : Option (Nat × Nat) :=
  match check t with
  | .error e => some (t, e)
  | .ok _ => none

theorem pairwise_strands (k : Issue) : k.strands.Pairwise (· < ·) := List.pairwise_lt_range.filter _

/-- The check of a strand's address (R127, R176). -/
def strandCheck (d : Dev) (k : Issue) (a : SReg) (i : BitVec 12) (n : Nat) (need : Need) (host : Bool) (t : Nat) : Except Nat Loc :=
  d.checkGlobal k.core k.ctx (strandAddress k a i t).toNat n need host

/-- The mask of the strands that failed, by their lowest lanes. -/
def failedStrands (bad : List (Nat × Nat)) : LaneMask := bad.foldl (fun (m : LaneMask) x => m ||| (1#32 <<< (4 * x.1))) 0

theorem strandChecks_eq (d : Dev) : d.strandChecks k a i n need host =
    match k.strands.filterMap (strandFailure (strandCheck d k a i n need host)) with
    | [] => .ok (k.strands.filterMap fun t => match strandCheck d k a i n need host t with | .ok l => some (t, l) | .error _ => none)
    | (t, e) :: _ => .error (e, strandAddress k a i t,
        failedStrands (k.strands.filterMap (strandFailure (strandCheck d k a i n need host)))) := by
  rw [Dev.strandChecks]
  simp only [List.filterMap_map]
  rfl

theorem scalarAccess_of_fails {f : Dev → List (Nat × Loc) → Dev} (h : ScalarFails s k a i n need host t e) :
    ∃ m : LaneMask, (unlatched s).scalarAccess k a i n need host f =
      ((unlatched s).lookedAll k.core k.ctx (k.strands.map fun u => (strandAddress k a i u).toNat)).trapMem k e (strandAddress k a i t) m := by
  obtain ⟨-, ht, he, hfirst⟩ := h
  obtain ⟨r, hr⟩ := exists_filterMap_eq_cons (g := strandFailure (strandCheck (unlatched s) k a i n need host)) (x := (t, e))
    (pairwise_strands k) (mem_strands_iff.mpr ht)
    (by rw [strandFailure, show strandCheck (unlatched s) k a i n need host t = .error e from he]) fun u hu hut => by
      obtain ⟨l, hl⟩ := hfirst u hut (mem_strands_iff.mp hu)
      rw [strandFailure, show strandCheck (unlatched s) k a i n need host u = .ok l from hl]
  have hcheck : (unlatched s).strandChecks k a i n need host = .error (e, strandAddress k a i t, failedStrands ((t, e) :: r)) := by
    rw [strandChecks_eq, hr]
  refine ⟨failedStrands ((t, e) :: r), ?_⟩
  rw [Dev.scalarAccess, hcheck]
  rfl

theorem scalarAccess_of_ok {f : Dev → List (Nat × Loc) → Dev} {pa : Nat → Nat} (h : ScalarPlaces s k a i n need host pa) :
    (unlatched s).scalarAccess k a i n need host f =
      f ((unlatched s).lookedAll k.core k.ctx (k.strands.map fun u => (strandAddress k a i u).toNat))
        (k.strands.map fun t => (t, .glob (pa t))) := by
  have hplace : ∀ t ∈ k.strands, strandCheck (unlatched s) k a i n need host t = .ok (.glob (pa t)) := fun t ht => h t (mem_strands_iff.mp ht)
  have hnone : k.strands.filterMap (strandFailure (strandCheck (unlatched s) k a i n need host)) = [] :=
    List.filterMap_eq_nil_iff.mpr fun t ht => by rw [strandFailure, hplace t ht]
  have hcheck : (unlatched s).strandChecks k a i n need host = .ok (k.strands.map fun t => (t, .glob (pa t))) := by
    rw [strandChecks_eq, hnone]
    exact congrArg Except.ok (List.filterMap_eq_map_iff_forall_eq_some.mpr fun t ht => by rw [hplace t ht])
  rw [Dev.scalarAccess, hcheck]
  rfl

end

/-- The additions of the strands are outstanding (R134). -/
def cincDev (k : Issue) (a : SReg) (i : BitVec 12) (data : Nat → List Byte) (x : Dev) (ps : List (Nat × Loc)) : Dev :=
  (x.addOp k .cinc (ps.map (k.part a i 8 data)) false).advance k 4

theorem cinc_next {s : State} {k : Issue} {d a : SReg} {i : BitVec 12} (hk : s.dev.issuer? = some k) :
    exec (.cinc d a i) s = .next (after s fun x => if 62 ≤ x.st k.wave.id then x.stall k (.full .st)
      else x.scalarAccess k a i 8 needW false (cincDev k a i fun t => leBytes 6 ((k.strand t).rd d).toNat)) :=
  (show exec (.cinc d a i) s = execCinc d a i s from rfl).trans (issue_next s k _ hk)

/-- Settles O27: a register beyond the window, a full counter and the lowest failing lane decide in this order. -/
theorem laneMemoryFaults : Obligations.LaneMemoryFaults := by
  unfold Obligations.LaneMemoryFaults
  intro s k hk
  refine ⟨fun g d m => ⟨fun w => ?_, fun w => ?_, fun op => ?_, fun op => ?_, ?_, ?_⟩, fun g d a off => ⟨fun w => ?_, fun w => ?_⟩,
    fun g d b off => ⟨?_, ?_⟩, fun d n => ⟨fun hw => ⟨?_, ?_⟩, fun hw => ⟨fun hroom => ?_, fun hroom => ?_⟩⟩, fun d a i => ⟨fun hroom => ?_, ?_⟩⟩
  · rw [← loadBytes_eq, ← loadRegs_eq]
    exact ⟨globalFaults hk (show exec (.ld w g d m) s = execLd w g d m s from rfl),
      localFaults hk (show exec (.ldl w g d m) s = execLdl w g d m s from rfl),
      teamFaults hk (show exec (.ldt w g d m) s = execLdt w g d m s from rfl)⟩
  · rw [← storeBytes_eq, ← storeRegs_eq]
    exact ⟨globalFaults hk (show exec (.st w g d m) s = execSt w g d m s from rfl),
      localFaults hk (show exec (.stl w g d m) s = execStl w g d m s from rfl),
      teamFaults hk (show exec (.stt w g d m) s = execStt w g d m s from rfl)⟩
  · rw [← atBytes_eq, ← atRegs_eq]
    exact ⟨globalFaults hk (show exec (.atom op g d m) s = execAtom op g d m s from rfl),
      localFaults hk (show exec (.atl op g d m) s = execAtl op g d m s from rfl)⟩
  · rw [← atBytes_redAtomic, ← atRegs_redAtomic]
    exact globalFaults hk (show exec (.redAtomic op g d m) s = execRedAtomic op g d m s from rfl)
  · simp only [List.forall_mem_cons, List.not_mem_nil, false_implies, implies_true, and_true]
    exact ⟨bufferFaults hk rfl, bufferFaults hk rfl, bufferFaults hk rfl, bufferFaults hk rfl, bufferFaults hk rfl, bufferFaults hk rfl⟩
  · exact beyond_of_issue hk (show exec (.pf g m) s = execPf g m s from rfl)
  · rw [← loadBytes_eq, ← loadRegs_eq]
    exact pointerFaults hk (show exec (.ldp w g d a off) s = execLdp w g d a off s from rfl)
  · rw [← storeBytes_eq, ← storeRegs_eq]
    exact pointerFaults hk (show exec (.stp w g d a off) s = execStp w g d a off s from rfl)
  · exact compressFaults (near := false) hk rfl rfl
  · exact compressFaults (near := true) hk rfl rfl
  · exact beyond_of_issue hk (show exec (.spill d n) s = execSpill d n s from rfl) hw
  · exact beyond_of_issue hk (show exec (.fill d n) s = execFill d n s from rfl) hw
  · exact stays_of_stall (within_of_issue hk (show exec (.spill d n) s = execSpill d n s from rfl) hw) (if_pos (not_hasRoom_iff.mp hroom))
  · exact stays_of_stall (within_of_issue hk (show exec (.fill d n) s = execFill d n s from rfl) hw) (if_pos (not_hasRoom_iff.mp hroom))
  · exact stays_of_stall (f := fun k x => if 62 ≤ x.st k.wave.id then x.stall k (.full .st)
      else x.scalarAccess k a i 8 needW false (cincDev k a i fun t => leBytes 6 ((k.strand t).rd d).toNat)) (cinc_next hk) (if_pos (not_hasRoom_iff.mp hroom))
  · intro t e hroom hfail
    obtain ⟨m, hm⟩ := scalarAccess_of_fails (f := cincDev k a i fun t => leBytes 6 ((k.strand t).rd d).toNat) hfail
    exact ⟨m, (cinc_next hk).trans (next_after_congr ((if_neg (hasRoom_store_iff.mp hroom)).trans hm))⟩

/-! ## Atomics, counters and compressing stores (O26) -/

/-- The operand of an atomic (Table 6-3). -/
def atomData (op : AtOp) : Dev → Issue → VReg → Nat → List Byte := fun x k d l => x.atData k op d l

/-- An issue of `cinc` is the gang's step, and one outstanding operation. -/
theorem cached_cincDev {s : State} {k : Issue} {a : SReg} {i : BitVec 12} {data : Nat → List Byte} {ps : List (Nat × Loc)} {y : Dev}
    (h : CachedDev (unlatched s) y) : Cached (let t := gangStep s k fun _ x => passed 4 x
      { t with dev := { t.dev with
          nextId := s.dev.nextId + 1
          memops := s.dev.memops ++ [⟨s.dev.nextId, k.wave.id, k.block.id, k.ctx.n, k.gang, k.pc, .cinc, ps.map (k.part a i 8 data),
            k.wave.lts, false⟩] } }) { s with dev := cincDev k a i data y ps } := by
  have hstep : gangStep s k (fun _ x => passed 4 x) = { s with dev := (unlatched s).advance k 4 } := (onGang_eq s k _).symm
  obtain ⟨a, b, c, e, rfl⟩ := exists_of_cachedDev h
  rw [hstep]
  rfl

section
variable {s : State} {k : Issue} {g : Guard} {d : VReg} {i : Instr} {b : SReg} {off : BitVec 23} {near : Bool} {p : Loc} {low : Nat}
  {rest : List Nat}

/-- A compressing store whose pointer passes its checks holds one access, of the lowest active lane (R186). -/
theorem compress_issues {check : Nat → Except Nat Loc} (hk : s.dev.issuer? = some k) (hi : exec i s = compress s near g d b off)
    (hw : InWindow k [d.toNat]) (hroom : HasRoom s k false) (hlow : activeLanes k g = low :: rest)
    (hp : pointerPlaces (unlatched s) k near g (k.rd b + sx off) = (activeLanes k g).map fun l => (l, k.rd b + sx off, check l))
    (hok : ∀ l, check l = .ok p) :
    exec i s = .next (after s fun y => issueDev s k [d.toNat]
      (.cmpst near k.block.scratch.len ((activeLanes k g).map fun l => (l, s.dev.source k d.toNat l)))
      [⟨low, (k.rd b + sx off).toNat, p, 8, [], .waiting⟩] false
      (if (!near) = true then y.lookedAll k.core k.ctx ((activeLanes k g).map fun _ => (k.rd b + sx off).toNat) else y)) := by
  refine (within_of_issue hk (hi.trans (compress_eq near b off)) hw).trans (next_after_congr ?_)
  refine (if_neg (hasRoom_store_iff.mp hroom)).trans ?_
  rw [hp, afterChecks_of_ok (p := fun _ => p) fun l _ => hok l]
  generalize hz : (if (!near) = true then (unlatched s).lookedAll k.core k.ctx ((activeLanes k g).map fun _ => (k.rd b + sx off).toNat)
    else unlatched s) = z
  have hps : (activeLanes k g).map (fun l => (l, k.rd b + sx off, p)) = (low, k.rd b + sx off, p) :: rest.map fun l => (l, k.rd b + sx off, p) := by
    rw [hlow]
    rfl
  rw [hps]
  rfl

end

/-- Settles O26: the atomics are `laneOp`s; `cinc` and `cmpst` issue their one operation after their own checks. -/
theorem atomicIssues : Obligations.AtomicIssues := by
  unfold Obligations.AtomicIssues
  refine ⟨fun op => ?_, fun op => ?_, fun s k d a i pa hk hroom hpa => ?_, fun s k g d b off p low rest hk hw hroom hlow => ⟨fun hok => ?_, ?_⟩⟩
  · rw [← atBytes_eq, ← atRegs_eq]
    exact ⟨globalOp_of_laneOp (data := atomData op) fun _ _ _ _ => rfl, localOp_of_laneOp (data := atomData op) fun _ _ _ _ => rfl⟩
  · rw [← atBytes_redAtomic, ← atRegs_redAtomic]
    exact globalOp_of_laneOp (data := atomData (RedAtomic op)) fun _ _ _ _ => rfl
  · refine ⟨_, (cinc_next hk).trans (congrArg (fun d => Host.Outcome.next { s with dev := d })
      ((if_neg (not_le.mpr hroom)).trans (scalarAccess_of_ok hpa))), ?_⟩
    have h := cached_cincDev (s := s) (k := k) (a := a) (i := i) (data := fun t => leBytes 6 ((k.strand t).rd d).toNat)
      (ps := k.strands.map fun t => (t, .glob (pa t))) (CachedDev.lookedAll (unlatched s) k.core k.ctx
        (k.strands.map fun u => (strandAddress k a i u).toNat))
    rw [List.map_map] at h
    exact h
  · refine ⟨_, compress_issues (near := false) hk rfl hw hroom hlow rfl fun _ => hok, ?_⟩
    rw [issued_eq_issueDev]
    exact cached_of_cachedDev (cached_issueDev (CachedDev.lookedAll _ _ _ _))
  · intro halign hin
    rw [issued_eq_issueDev]
    refine compress_issues (near := true) hk rfl hw hroom hlow rfl fun _ => ?_
    exact (if_neg (not_not.mpr halign)).trans (if_neg (not_lt.mpr hin))
end Sys2Proof.Proofs
end

section
/-!
SUPPORT. Memory as accesses find and leave it: what a write changes beside its bytes, and what is read after it (08, 09).
-/

open Sys2Proof Sys2Proof.Machine Sys2Proof.Claims

namespace Sys2Proof.Proofs

/-! ## What a write changes beside its bytes -/

/-- A wave but for the hits of its monitors (R130). -/
def calm (w : Wave) : Wave := { w with strands := w.strands.map fun x => { x with monitor := none } }

/-- A device is another but for caches, the times of lines, monitors, and what a write brings about elsewhere (R130, R227,
R248, R329, R347). -/
structure Aside (d e : Dev) : Prop where
  rest : e = { d with
    waves := e.waves, watches := e.watches, l1 := e.l1, fns := e.fns, out := e.out, nextId := e.nextId, queues := e.queues
    colls := e.colls, jobs := e.jobs, triggers := e.triggers, llc := e.llc, mt := e.mt, xfers := e.xfers, tlb := e.tlb
    loclines := e.loclines, free := e.free }
  waves : e.waves.map calm = d.waves.map calm

namespace Aside

theorem of_rest {d e : Dev} (h : e = { d with
    waves := e.waves, watches := e.watches, l1 := e.l1, fns := e.fns, out := e.out, nextId := e.nextId, queues := e.queues
    colls := e.colls, jobs := e.jobs, triggers := e.triggers, llc := e.llc, mt := e.mt, xfers := e.xfers, tlb := e.tlb
    loclines := e.loclines, free := e.free }) (hw : e.waves = d.waves) : Aside d e := ⟨h, by rw [hw]⟩

theorem refl (d : Dev) : Aside d d := ⟨rfl, rfl⟩

theorem trans {a b c : Dev} (h : Aside a b) (g : Aside b c) : Aside a c := by
  obtain ⟨h, hw⟩ := h
  obtain ⟨g, gw⟩ := g
  refine ⟨?_, gw.trans hw⟩
  rw [g, h]

theorem foldl {α : Type} {f : Dev → α → Dev} (hf : ∀ d x, Aside d (f d x)) (l : List α) (d : Dev) : Aside d (l.foldl f d) := by
  induction l generalizing d with
  | nil => exact refl d
  | cons x l ih => exact (hf d x).trans (ih _)

theorem ite {p : Prop} [Decidable p] {d a b : Dev} (ha : Aside d a) (hb : Aside d b) : Aside d (if p then a else b) := by
  split
  · exact ha
  · exact hb

theorem of_cachedDev {d e : Dev} (h : CachedDev d e) : Aside d e := by
  obtain ⟨a, b, c, e, rfl⟩ := exists_of_cachedDev h
  exact of_rest rfl rfl

theorem touchLine (d : Dev) (slot pa ctx : Nat) : Aside d (d.touchLine slot pa ctx) := of_cachedDev (.touchLine d slot pa ctx)
theorem setLine (d : Dev) (pa : Nat) (f : LlcLine → LlcLine) : Aside d (d.setLine pa f) := of_rest rfl rfl
theorem setLoc (d : Dev) (core : Nat) (sp : Space) (a wt le : Nat) : Aside d (d.setLoc core sp a wt le) := of_rest rfl rfl
theorem modFn (d : Dev) (n : Nat) (f : Fn → Fn) : Aside d (d.modFn n f) := of_rest rfl rfl
theorem send (d : Dev) (m : Msg) : Aside d (d.send m) := of_rest rfl rfl

theorem setEvent (d : Dev) (n b : Nat) : Aside d (d.setEvent n b) := by
  rw [Dev.setEvent]
  exact (modFn d n _).trans (.ite (refl _) (send _ _))

theorem postColl (d : Dev) (ctx q : Nat) (c : Desc) (t w b : Nat) (l : Option Nat) : Aside d (d.postColl ctx q c t w b l) := by
  simp only [Dev.postColl]
  split
  · exact refl d
  · exact of_rest rfl rfl

theorem logWrite (d : Dev) (ctx pa : Nat) : Aside d (d.logWrite ctx pa) := by
  refine foldl (fun d f => ?_) d.fns d
  split
  · exact refl d
  · exact .ite (.ite ((modFn d _ _).trans (setEvent _ _ _)) ((modFn d _ _).trans (send _ _))) (refl d)

theorem mailboxWrite (d : Dev) (pa n : Nat) : Aside d (d.mailboxWrite pa n) :=
  foldl (fun d _ => .ite (send d _) (refl d)) d.ctxs d

theorem fireTriggers (d : Dev) (pa n t : Nat) : Aside d (d.fireTriggers pa n t) := by
  simp only [Dev.fireTriggers]
  refine trans ?_ (foldl (f := fun d (x : Trigger) => d.postColl x.ctx x.desc.queue x.desc (max x.clock t) 0 0 none)
    (fun d x => postColl d _ _ _ _ _ _ _) _ _)
  exact of_rest rfl rfl

theorem wakeMonitors (d : Dev) (pa t : Nat) : Aside d (d.wakeMonitors pa t) := by
  refine ⟨rfl, ?_⟩
  simp only [Dev.wakeMonitors, Dev.wakeLine, List.map_map]
  refine List.map_congr_left fun w _ => ?_
  simp only [calm, List.map_map, Function.comp_def]

theorem afterWrite (d : Dev) (ctx : Nat) (core : Option Nat) (device : Bool) (pa n t : Nat) :
    Aside d (d.afterWrite ctx core device pa n t) := by
  have hl1 (e : Dev) : Aside e (match core with | some c => e.updateL1 c ctx pa t | none => e) := by
    cases core
    · exact refl e
    · exact of_rest rfl rfl
  rw [Dev.afterWrite.eq_def]
  refine (wakeMonitors d pa t).trans (.trans ?_ (fireTriggers _ pa n t))
  exact (hl1 _).trans ((logWrite _ ctx pa).trans (.ite (mailboxWrite _ pa n) (refl _)))

section
variable {d e : Dev} (h : Aside d e)
include h

theorem mem : e.mem = d.mem := by rw [h.rest]
theorem sectors : e.sectors = d.sectors := by rw [h.rest]
theorem keys : e.keys = d.keys := by rw [h.rest]
theorem keyBase : e.keyBase = d.keyBase := by rw [h.rest]
theorem locmem : e.locmem = d.locmem := by rw [h.rest]
theorem poison : e.poison = d.poison := by rw [h.rest]
theorem memops : e.memops = d.memops := by rw [h.rest]

/-- A wave is found again, but for its monitors. -/
theorem wave? {id : Nat} {w : Wave} (hw : d.wave? id = some w) : ∃ y, e.wave? id = some y ∧ calm y = calm w := by
  have hmap := congrArg (List.find? fun x : Wave => x.id == id) h.waves
  simp only [List.find?_map] at hmap
  have hcomp : ((fun x : Wave => x.id == id) ∘ calm) = fun x => x.id == id := rfl
  rw [hcomp] at hmap
  rw [show d.waves.find? (fun x => x.id == id) = some w from hw] at hmap
  obtain ⟨y, hy, hyw⟩ := Option.map_eq_some_iff.mp hmap
  exact ⟨y, hy, hyw⟩

end

end Aside

/-! ## Bytes after a write -/

theorem cellGet_cellWrite {m : List Host.Cell} (hm : Memory.wf m = true) (a b : Nat) (bs : List Byte) :
    cellGet (cellWrite m a bs) b = if a ≤ b ∧ b < a + bs.length then (bs[b - a]?).getD 0 else cellGet m b := by
  split
  next h =>
    obtain ⟨i, rfl⟩ := Nat.exists_eq_add_of_le h.1
    induction bs generalizing m a i with
    | nil => simp at h
    | cons x bs ih =>
      cases i with
      | zero =>
        rw [Nat.add_zero, cellWrite, cellGet_cellWrite_outside _ _ _ _ (by omega), cellGet_cellPut_same m a x hm]
        simp
      | succ i =>
        simp only [List.length_cons] at h
        rw [cellWrite, show a + (i + 1) = a + 1 + i from by omega, ih (wf_cellPut m a x hm) (a + 1) i (by omega)]
        simp [show a + 1 + i - a = i + 1 from by omega]
  next h => exact cellGet_cellWrite_outside m a b bs (by omega)

theorem cellRead_congr {m n : List Host.Cell} {a k : Nat} (h : ∀ b, a ≤ b → b < a + k → cellGet m b = cellGet n b) :
    cellRead m a k = cellRead n a k := by
  induction k generalizing a with
  | zero => rfl
  | succ k ih => rw [cellRead, cellRead, h a (by omega) (by omega), ih fun b _ _ => h b (by omega) (by omega)]

/-! ### Local spaces (R243) -/

theorem find?_modIf_same {α : Type} {p : α → Bool} {f : α → α} (hf : ∀ x, p x = true → p (f x) = true) (l : List α) :
    (modIf p f l).find? p = (l.find? p).map f := by
  induction l with
  | nil => rfl
  | cons x l ih =>
    rw [modIf] at ih
    by_cases hx : p x = true
    · simp [modIf, hx, hf x hx]
    · simp [modIf, hx, ih]

theorem find?_modIf_other {α : Type} {p q : α → Bool} {f : α → α} (hf : ∀ x, p x = true → q x = false ∧ q (f x) = false) (l : List α) :
    (modIf p f l).find? q = l.find? q := by
  induction l with
  | nil => rfl
  | cons x l ih =>
    rw [modIf] at ih
    by_cases hx : p x = true
    · simp [modIf, hx, (hf x hx).1, (hf x hx).2, ih]
    · rw [modIf, List.map_cons, if_neg hx, List.find?_cons, List.find?_cons, ih]

theorem find?_upsert_same {α : Type} {p : α → Bool} {new : α} {f : α → α} (hf : ∀ x, p x = true → p (f x) = true)
    (hnew : p (f new) = true) (l : List α) : (upsert p new f l).find? p = some (f ((l.find? p).getD new)) := by
  rw [upsert]
  split
  next h =>
    obtain ⟨x, hx, hpx⟩ := List.any_eq_true.mp h
    obtain ⟨y, hy⟩ := Option.isSome_iff_exists.mp (List.find?_isSome.mpr ⟨x, hx, hpx⟩)
    rw [find?_modIf_same hf, hy]
    rfl
  next h =>
    have hnone : l.find? p = none := List.find?_eq_none.mpr fun x hx hp => h (List.any_eq_true.mpr ⟨x, hx, hp⟩)
    rw [List.find?_append, hnone, Option.none_or, List.find?_singleton, if_pos hnew]
    rfl

theorem find?_upsert_other {α : Type} {p q : α → Bool} {new : α} {f : α → α} (hf : ∀ x, p x = true → q x = false ∧ q (f x) = false)
    (hnew : q (f new) = false) (l : List α) : (upsert p new f l).find? q = l.find? q := by
  rw [upsert]
  split
  · exact find?_modIf_other hf l
  · rw [List.find?_append, List.find?_singleton, if_neg (by simp [hnew]), Option.or_none]

theorem locCells_setLocCells (d : Dev) (core : Nat) (sp : Space) (f : List Host.Cell → List Host.Cell) :
    (d.setLocCells core sp f).locCells core sp = f (d.locCells core sp) := by
  simp only [Dev.locCells, Dev.setLocCells]
  rw [find?_upsert_same (p := fun m : LocMem => m.core == core && m.space == sp) (f := fun m : LocMem => { m with cells := f m.cells }) (fun x hx => hx) (by simp)]
  cases d.locmem.find? _ <;> rfl

theorem wf_locCells {d : Dev} (h : d.cellsOk) (core : Nat) (sp : Space) : Memory.wf (d.locCells core sp) = true := by
  rw [Dev.locCells]
  cases hm : d.locmem.find? _ with
  | none => rfl
  | some m => exact h.2 m (List.mem_of_find?_eq_some hm)

/-! ### Global memory (R252, R260, R261) -/

/-- A sector has been written under the key of a slot, and its check holds. -/
def Written (d : Dev) (slot i : Nat) : Prop := d.sector? i ≠ none ∧ d.sectorOk slot i = true

theorem written_iff {d : Dev} {slot i : Nat} : Written d slot i ↔ ∃ x, d.sector? i = some x ∧ x.key = d.keyOf slot ∧ x.flaw = 0 := by
  rw [Written, Dev.sectorOk, Dev.flawAt]
  cases d.sector? i with
  | none => simp
  | some x =>
    by_cases hx : x.key = d.keyOf slot
    · simp [hx]
    · simp [hx]

theorem byteAt_of_written {d : Dev} {slot a : Nat} (h : Written d slot (a / 32)) : d.byteAt slot a = cellGet d.mem a := by
  obtain ⟨x, hx, hkey, -⟩ := written_iff.mp h
  rw [Dev.byteAt, hx]
  exact if_pos hkey

theorem mem_sectorsOf {a n i : Nat} : i ∈ sectorsOf a n ↔ a / 32 ≤ i ∧ i < (a + n + 31) / 32 := by
  simp only [sectorsOf, List.mem_map, List.mem_range]
  constructor
  · rintro ⟨j, hj, rfl⟩
    omega
  · rintro ⟨h1, h2⟩
    exact ⟨i - a / 32, by omega, by omega⟩

theorem find?_sectors (new : Nat → Sector) (hnew : ∀ i, (new i).idx = i) (is : List Nat) (l : List Sector) (j : Nat) :
    (is.foldl (fun l i => upsert (·.idx == i) (new i) (fun _ => new i) l) l).find? (·.idx == j) =
      if j ∈ is then some (new j) else l.find? (·.idx == j) := by
  induction is generalizing l with
  | nil => rfl
  | cons i is ih =>
    rw [List.foldl_cons, ih]
    by_cases hj : j ∈ is
    · simp [hj]
    · by_cases hij : j = i
      · subst hij
        rw [if_neg hj, find?_upsert_same (fun _ _ => by simp [hnew]) (by simp [hnew]), if_pos List.mem_cons_self]
      · rw [if_neg hj, if_neg (by simp [hij, hj]), find?_upsert_other (fun x hx => ?_) (by simp [hnew, Ne.symm hij])]
        simp only [beq_iff_eq] at hx
        simp [hx, hnew, Ne.symm hij]

theorem foldl_keep {α β : Type} (c : β → Bool) (g : α → β → α) {l : List β} (h : ∀ i ∈ l, c i = true) (m : α) :
    l.foldl (fun m i => if c i then m else g m i) m = m := by
  induction l with
  | nil => rfl
  | cons i l ih =>
    rw [List.foldl_cons, if_pos (h i List.mem_cons_self)]
    exact ih fun j hj => h j (List.mem_cons_of_mem _ hj)

/-- Sectors after a write under a slot's key. -/
def writtenSectors (d : Dev) (slot : Nat) (is : List Nat) : List Sector :=
  is.foldl (fun l i => upsert (·.idx == i) ⟨i, d.keyOf slot, 0⟩ (fun _ => ⟨i, d.keyOf slot, 0⟩) l) d.sectors

section
variable {d : Dev} {slot a : Nat} {bs : List Byte}

theorem sector?_writtenSectors (m : List Host.Cell) (is : List Nat) (j : Nat) :
    Dev.sector? { d with mem := m, sectors := writtenSectors d slot is } j = if j ∈ is then some ⟨j, d.keyOf slot, 0⟩ else d.sector? j :=
  find?_sectors (fun i => ⟨i, d.keyOf slot, 0⟩) (fun _ => rfl) is d.sectors j

/-- The device after bytes have been written over sectors that had been written before. -/
def overwritten (d : Dev) (slot a : Nat) (bs : List Byte) : Dev :=
  { d with mem := cellWrite d.mem a bs, sectors := writtenSectors d slot (sectorsOf a bs.length) }

theorem putGlob_written (h : ∀ i ∈ sectorsOf a bs.length, Written d slot i) : d.putGlob slot a bs = some (overwritten d slot a bs) := by
  have hall : ((sectorsOf a bs.length).all fun i => wholeSector a bs.length i || d.sectorOk slot i) = true :=
    List.all_eq_true.mpr fun i hi => by rw [(h i hi).2, Bool.or_true]
  have hsome : ∀ i ∈ sectorsOf a bs.length, (wholeSector a bs.length i || (d.sector? i).isSome) = true := fun i hi => by
    rw [Option.isSome_iff_ne_none.mpr (h i hi).1, Bool.or_true]
  simp only [Dev.putGlob, hall, if_true]
  rw [foldl_keep _ _ hsome]
  rfl

theorem wf_overwritten (hm : Memory.wf d.mem = true) : Memory.wf (overwritten d slot a bs).mem = true := wf_cellWrite _ _ _ hm

theorem written_overwritten {i : Nat} (h : Written d slot i) : Written (overwritten d slot a bs) slot i := by
  rw [written_iff, overwritten, sector?_writtenSectors]
  split
  · exact ⟨_, rfl, rfl, rfl⟩
  · exact written_iff.mp h

/-- The bytes are read where they have been written, and every other byte is as before. -/
theorem byteAt_overwritten (hm : Memory.wf d.mem = true) (h : ∀ i ∈ sectorsOf a bs.length, Written d slot i) (b : Nat) :
    (overwritten d slot a bs).byteAt slot b = if a ≤ b ∧ b < a + bs.length then (bs[b - a]?).getD 0 else d.byteAt slot b := by
  have hcell := cellGet_cellWrite hm a b bs
  by_cases hb : b / 32 ∈ sectorsOf a bs.length
  · rw [byteAt_of_written (written_overwritten (h _ hb)), byteAt_of_written (h _ hb)]
    exact hcell
  · have hout : ¬ (a ≤ b ∧ b < a + bs.length) := fun hin => hb (mem_sectorsOf.mpr ⟨by omega, by omega⟩)
    have hsector : (overwritten d slot a bs).sector? (b / 32) = d.sector? (b / 32) := by
      rw [overwritten, sector?_writtenSectors, if_neg hb]
    have hread : cellRead (overwritten d slot a bs).mem (b / 32 * 32) 32 = cellRead d.mem (b / 32 * 32) 32 :=
      cellRead_congr fun c hc hc' => cellGet_cellWrite_outside _ _ _ _ (by
        rw [mem_sectorsOf] at hb
        omega)
    rw [if_neg hout] at hcell ⊢
    have hcell' : cellGet (overwritten d slot a bs).mem b = cellGet d.mem b := hcell
    rw [Dev.byteAt, Dev.byteAt, hsector, hread, hcell']
    rfl

end

/-! ### Reads and what they rest on -/

/-- Two devices hold the same bytes of global memory, under the same keys. -/
structure SameBytes (d e : Dev) : Prop where
  mem : e.mem = d.mem
  sectors : e.sectors = d.sectors
  keys : e.keys = d.keys
  keyBase : e.keyBase = d.keyBase

namespace SameBytes
variable {d e : Dev} (h : SameBytes d e)
include h

theorem keyOf (slot : Nat) : e.keyOf slot = d.keyOf slot := by rw [Dev.keyOf, Dev.keyOf, h.keys, h.keyBase]

theorem sector? (i : Nat) : e.sector? i = d.sector? i := by rw [Dev.sector?, Dev.sector?, h.sectors]

theorem byteAt (slot : Nat) : e.byteAt slot = d.byteAt slot := by
  funext a
  rw [Dev.byteAt, Dev.byteAt, h.sector?, h.keyOf, h.mem]

theorem sectorOk (slot : Nat) : e.sectorOk slot = d.sectorOk slot := by
  funext i
  rw [Dev.sectorOk, Dev.sectorOk, Dev.flawAt, Dev.flawAt, h.sector?, h.keyOf]

theorem readGlob (slot a n : Nat) : e.readGlob slot a n = d.readGlob slot a n := by
  rw [Dev.readGlob, Dev.readGlob, h.byteAt, h.sectorOk]

theorem written (slot i : Nat) : Written e slot i ↔ Written d slot i := by rw [Written, Written, h.sector?, h.sectorOk]

end SameBytes

theorem Aside.sameBytes {d e : Dev} (h : Aside d e) : SameBytes d e := ⟨h.mem, h.sectors, h.keys, h.keyBase⟩

theorem Aside.readLoc {d e : Dev} (h : Aside d e) (core : Nat) (sp : Space) (a n : Nat) : e.readLoc core sp a n = d.readLoc core sp a n := by
  rw [Dev.readLoc, Dev.readLoc, Dev.locCells, Dev.locCells, Dev.poisoned, Dev.poisoned, h.locmem, h.poison]

/-! ## The homes -/

theorem aside_homeLoad (d : Dev) (ctx : Nat) (loc : Loc) (n c l : Nat) : Aside d (d.homeLoad ctx loc n c l).1 := by
  cases loc with
  | glob pa => exact (Aside.touchLine d ctx pa ctx).trans (.setLine _ pa _)
  | loc core sp a => exact .setLoc d core sp a _ _
  | remote pkg pa => exact .refl d
  | host a => exact .refl d

theorem homeLoad_glob (d : Dev) (ctx pa n c l : Nat) :
    (d.homeLoad ctx (.glob pa) n c l).2.2 = if (d.readGlob ctx pa n).2 then some (d.readGlob ctx pa n).1 else none := by
  rw [← (Aside.touchLine d ctx pa ctx).sameBytes.readGlob ctx pa n]
  rfl

theorem homeLoad_loc (d : Dev) (ctx core : Nat) (sp : Space) (a n c l : Nat) :
    (d.homeLoad ctx (.loc core sp a) n c l).2.2 = if (d.readLoc core sp a n).2 then some (d.readLoc core sp a n).1 else none := rfl

/-- What a performed write leaves of a device whose bytes have been put (R250, R268). -/
def finished (e : Dev) (ctx : Nat) (core : Option Nat) (device : Bool) (pa n t : Nat) : Dev :=
  (e.setLine pa fun x => { x with wt := t, le := t, owner := some ctx }).afterWrite ctx core device pa n t

theorem aside_finished (e : Dev) (ctx : Nat) (core : Option Nat) (device : Bool) (pa n t : Nat) :
    Aside e (finished e ctx core device pa n t) := (Aside.setLine _ _ _).trans (.afterWrite _ _ _ _ _ _ _)

/-- A store over sectors that have been written before is performed. -/
theorem homeWrite_written {d : Dev} {ctx pa : Nat} {f : Nat → List Byte} {n : Nat} (hn : ∀ t, (f t).length = n)
    (h : ∀ i ∈ sectorsOf pa n, Written d ctx i) (core : Option Nat) (device : Bool) (c : Nat) :
    ∃ x e t, d.homeWrite ctx core device (.glob pa) c f = (e, t, true) ∧ Aside d x ∧ Aside (overwritten x ctx pa (f t)) e := by
  have hx := Aside.touchLine d ctx pa ctx
  have hput : ∀ t, (d.touchLine ctx pa ctx).putGlob ctx pa (f t) = some (overwritten (d.touchLine ctx pa ctx) ctx pa (f t)) := fun t =>
    putGlob_written fun i hi => (hx.sameBytes.written ctx i).mpr (h i (by rwa [hn] at hi))
  generalize ht : max c (((d.touchLine ctx pa ctx).lineTimes pa).2 + 1) = t
  refine ⟨d.touchLine ctx pa ctx, finished (overwritten (d.touchLine ctx pa ctx) ctx pa (f t)) ctx core device pa (f t).length t, t, ?_, hx,
    aside_finished _ _ _ _ _ _ _⟩
  simp only [Dev.homeWrite, ht, hput]
  rfl

/-- A read-modify-write over sectors that have been written before gives the old bytes and is performed. -/
theorem homeRmw_written {d : Dev} {ctx pa n : Nat} {f : Nat → List Byte → List Byte} (hn : ∀ t bs, (f t bs).length = n)
    (h : ∀ i ∈ sectorsOf pa n, Written d ctx i) (core : Option Nat) (device : Bool) (c : Nat) :
    ∃ x e t, d.homeRmw ctx core device (.glob pa) n c f = (e, t, some (d.readGlob ctx pa n).1) ∧ Aside d x ∧
      Aside (overwritten x ctx pa (f t (d.readGlob ctx pa n).1)) e := by
  have hx := Aside.touchLine d ctx pa ctx
  have hread : (d.touchLine ctx pa ctx).readGlob ctx pa n = d.readGlob ctx pa n := hx.sameBytes.readGlob ctx pa n
  have hok : (d.readGlob ctx pa n).2 = true := List.all_eq_true.mpr fun i hi => (h i hi).2
  have hput : ∀ t bs, (d.touchLine ctx pa ctx).putGlob ctx pa (f t bs) = some (overwritten (d.touchLine ctx pa ctx) ctx pa (f t bs)) :=
    fun t bs => putGlob_written fun i hi => (hx.sameBytes.written ctx i).mpr (h i (by rwa [hn] at hi))
  generalize ht : max c (((d.touchLine ctx pa ctx).lineTimes pa).2 + 1) = t
  refine ⟨d.touchLine ctx pa ctx, finished (overwritten (d.touchLine ctx pa ctx) ctx pa (f t (d.readGlob ctx pa n).1)) ctx core device pa n t,
    t, ?_, hx, aside_finished _ _ _ _ _ _ _⟩
  simp only [Dev.homeRmw, ht, hread, hok, hput, if_true]
  rfl

end Sys2Proof.Proofs
end

section
/-!
PROOFS. Typed buffers, prefetch, spill and fill (06: R182, R187 to R189); scalar memory (04: R127).
-/

open Sys2Proof Sys2Proof.Machine Sys2Proof.Claims

namespace Sys2Proof.Proofs

/-! ## Loads of typed buffers (R182) -/

/-- One lane's load at its home: the device, and the largest time so far. -/
def loadLane (k : Issue) (p : Dev × Nat) (q : Nat × Word × Loc) : Dev × Nat :=
  ((p.1.homeLoad k.ctx.n q.2.2 4 k.wave.lts 0).1, max p.2 (p.1.homeLoad k.ctx.n q.2.2 4 k.wave.lts 0).2.1)

/-- What the lanes read. -/
def peeked (x : Dev) (k : Issue) (ps : List (Nat × Word × Loc)) : List (Nat × Word × Option (List Byte)) :=
  ps.map fun q => (q.1, q.2.1, x.peekLoc k.ctx.n q.2.2 4)

/-- The value that a lane loads. -/
def peekedLane (rs : List (Nat × Word × Option (List Byte))) (l : Nat) : Lane :=
  lane32 (leNat (((rs.find? (·.1 == l)).bind (·.2.2)).getD []))

/-- The lanes have been loaded. -/
def bufLoaded (k : Issue) (g : Guard) (d : VReg) (m : Addr) (x : Dev) (ps : List (Nat × Word × Loc)) : Dev :=
  let p := ps.foldl (loadLane k) (x, 0)
  let y : Dev := if x.unsettled k (addrRegs m) then { p.1 with free := p.1.free + 1 } else p.1
  (y.onWave k fun w => (w.setLanes (k.active g) d.toNat (peekedLane (peeked x k ps))).adopt p.2).advance k 8

/-- A load of a typed buffer after its checks: INTEGRITY where a word is bad, else the lanes are loaded. -/
def bufLoads (k : Issue) (g : Guard) (d : VReg) (m : Addr) (x : Dev) (ps : List (Nat × Word × Loc)) : Dev :=
  match (peeked x k ps).filter fun r => r.2.2.isNone with
  | (_, e, _) :: _ => x.trapMem k cIntegrity e
      (((peeked x k ps).filter fun r => r.2.2.isNone).foldl (fun (m : LaneMask) r => m ||| (1#32 <<< r.1)) 0)
  | [] => bufLoaded k g d m x ps

theorem bufLoad_eq (s : State) (sp : Space) (g : Guard) (d : VReg) (m : Addr) : bufLoad s sp g d m = issue s fun k x =>
    if !k.inWindow (d.toNat :: addrRegs m) then x.trap k cRegrange
    else x.whenSettled k fun x => x.afterChecks k false (locPlaces k.block sp (k.active g) 4 (x.laneAddr k m true)) (bufLoads k g d m) := rfl

/-- Loads of a local space change the times of its lines only. -/
theorem foldl_loadLane (k : Issue) {ps : List (Nat × Word × Loc)} (h : ∀ q ∈ ps, ∃ core sp a, q.2.2 = .loc core sp a) (p : Dev × Nat) :
    ∃ t, (ps.foldl (loadLane k) p).1 = { p.1 with loclines := t } := by
  induction ps generalizing p with
  | nil => exact ⟨_, rfl⟩
  | cons q ps ih =>
    obtain ⟨core, sp, a, hq⟩ := h q List.mem_cons_self
    obtain ⟨t, ht⟩ := ih (fun q hq => h q (List.mem_cons_of_mem _ hq)) (loadLane k p q)
    refine ⟨t, ht.trans ?_⟩
    rw [loadLane, hq]
    rfl

theorem find?_map_self {α : Type} {L : List Nat} {f : Nat → α} {l : Nat} (hl : l ∈ L) :
    (L.map fun l => (l, f l)).find? (fun x => x.1 == l) = some (l, f l) := by
  induction L with
  | nil => cases hl
  | cons j L ih =>
    by_cases hj : j = l
    · subst hj
      simp
    · rcases List.mem_cons.mp hl with rfl | hl
      · exact absurd rfl hj
      · rw [List.map_cons, List.find?_cons_of_neg (by simpa using hj), ih hl]

/-- The words have been found sound: the lanes are loaded. -/
theorem bufLoads_of_sound {k : Issue} {g : Guard} {d : VReg} {m : Addr} {x : Dev} {ps : List (Nat × Word × Loc)}
    (h : ∀ q ∈ ps, x.peekLoc k.ctx.n q.2.2 4 ≠ none) : bufLoads k g d m x ps = bufLoaded k g d m x ps := by
  have hbad : (peeked x k ps).filter (fun r => r.2.2.isNone) = [] := by
    rw [List.filter_eq_nil_iff]
    intro r hr
    obtain ⟨q, hq, rfl⟩ := List.mem_map.mp hr
    simpa using h q hq
  rw [bufLoads, hbad]

/-- Where a lane's word lies. -/
def bufPlaces (s : State) (k : Issue) (g : Guard) (m : Addr) (sp : Space) (r : Range) : List (Nat × Word × Loc) :=
  (activeLanes k g).map fun l => (l, laneAddress s k m true l, .loc k.core sp (r.base + (laneAddress s k m true l).toNat))

section
variable {s : State} {k : Issue} {g : Guard} {d : VReg} {m : Addr} {i : Instr} {sp : Space}

/-- An access of a typed buffer whose lanes lie in the buffer goes on at the wave's clock. -/
theorem buffer_next {f : Issue → Dev → Dev → List (Nat × Word × Loc) → Dev} (hk : s.dev.issuer? = some k)
    (hi : exec i s = issue s fun k x => if !k.inWindow (d.toNat :: addrRegs m) then x.trap k cRegrange
      else x.whenSettled k fun x => x.afterChecks k false (locPlaces k.block sp (k.active g) 4 (x.laneAddr k m true)) (f k x))
    (hw : InWindow k (d.toNat :: indexReg m)) (hsettled : s.dev.settled k = true)
    (hok : ∀ l ∈ activeLanes k g, (laneAddress s k m true l).toNat % 4 = 0 ∧
      (laneAddress s k m true l).toNat + 4 ≤ (k.block.range sp).len) :
    exec i s = .next { s with dev := f k (unlatched s) (unlatched s) (bufPlaces s k g m sp (k.block.range sp)) } := by
  have hnow : (unlatched s).settled k = true := hsettled
  refine (within_of_issue hk hi hw).trans (congrArg (fun d => Host.Outcome.next { s with dev := d }) ?_)
  refine (if_pos hnow).trans ?_
  beta_reduce
  rw [← unlatched, laneAddr_unlatched, locPlaces_eq]
  refine afterChecks_of_ok (glob := false) fun l hl => ?_
  obtain ⟨halign, hin⟩ := hok l hl
  exact (if_neg (not_not.mpr halign)).trans (if_neg (not_lt.mpr hin))

end

/-- The wave has the loaded lanes, and its gang has passed the instruction; beside it only times of lines and the next free
value differ. -/
theorem bufLoaded_eq (s : State) (k : Issue) (g : Guard) (d : VReg) (m : Addr) {ps : List (Nat × Word × Loc)}
    (h : ∀ q ∈ ps, ∃ core sp a, q.2.2 = .loc core sp a) :
    ∃ t n, ({ s with dev := bufLoaded k g d m (unlatched s) ps } : State) =
      waveStep { s with dev := { s.dev with loclines := t, free := n } } k fun w => { w with
        v := putLanes (k.active g) d.toNat [peekedLane (peeked (unlatched s) k ps)] w.v
        lts := max w.lts (ps.foldl (loadLane k) (unlatched s, 0)).2
        strands := w.strands.mapIdx fun t x => if inGang k.gang t then passed 8 x else x } := by
  obtain ⟨t, ht⟩ := foldl_loadLane k h (unlatched s, 0)
  refine ⟨t, if (unlatched s).unsettled k (addrRegs m) then s.dev.free + 1 else s.dev.free, ?_⟩
  refine Eq.trans ?_ (onWave_advance_eq _ k (fun w =>
    (w.setLanes (k.active g) d.toNat (peekedLane (peeked (unlatched s) k ps))).adopt (ps.foldl (loadLane k) (unlatched s, 0)).2) (fun _ => rfl) 8)
  simp only [bufLoaded, ht]
  cases (unlatched s).unsettled k (addrRegs m) <;> rfl

theorem bufferLoad {sp : Space} {range : Block → Range} {i : Guard → VReg → Addr → Instr} (hr : ∀ b : Block, b.range sp = range b)
    (hi : ∀ g d m s, exec (i g d m) s = bufLoad s sp g d m) : BufferLoad sp range i := by
  intro s k g d m hk hw hsettled a word hok
  have hplace : bufPlaces s k g m sp (k.block.range sp) =
      (activeLanes k g).map fun l => (l, laneAddress s k m true l, .loc k.core sp ((range k.block).base + a l)) := by rw [← hr]; rfl
  have hpeek : ∀ l ∈ activeLanes k g, (unlatched s).peekLoc k.ctx.n (.loc k.core sp ((range k.block).base + a l)) 4 = some (word l).1 :=
    fun l hl => if_pos (hok l hl).2.2
  have hnext := buffer_next (f := fun k _ => bufLoads k g d m) hk ((hi g d m s).trans (bufLoad_eq s sp g d m)) hw hsettled
    fun l hl => ⟨(hok l hl).1, by rw [hr]; exact (hok l hl).2.1⟩
  rw [hplace, bufLoads_of_sound] at hnext
  · obtain ⟨t, n, heq⟩ := bufLoaded_eq s k g d m (ps := (activeLanes k g).map fun l =>
      (l, laneAddress s k m true l, .loc k.core sp ((range k.block).base + a l)))
      (by simp only [List.forall_mem_map]; exact fun l _ => ⟨_, _, _, rfl⟩)
    rw [heq] at hnext
    refine ⟨_, _, _, hnext, rfl, rfl, rfl, rfl, fun l hl => ?_⟩
    rw [peekedLane, peeked, List.map_map]
    rw [show (((fun q : Nat × Word × Loc => (q.1, q.2.1, (unlatched s).peekLoc k.ctx.n q.2.2 4)) ∘
      fun l => (l, laneAddress s k m true l, .loc k.core sp ((range k.block).base + a l)))) = fun l => (l, laneAddress s k m true l,
        (unlatched s).peekLoc k.ctx.n (.loc k.core sp ((range k.block).base + a l)) 4) from rfl, find?_map_self hl]
    simp only [Option.bind_some, hpeek l hl, Option.getD_some]
    rfl
  · simp only [List.forall_mem_map]
    exact fun l hl => by rw [hpeek l hl]; exact Option.some_ne_none _

/-! ## Stores to typed buffers (R182) -/

theorem leBytes_getElem? (n w i : Nat) : (leBytes n w)[i]? = if i < n then some (BitVec.ofNat 8 (w / 256 ^ i)) else none := by
  induction n generalizing w i with
  | zero => rfl
  | succ n ih =>
    cases i with
    | zero => simp [leBytes]
    | succ i => simp [leBytes, ih, Nat.div_div_eq_div_mul, Nat.pow_succ, Nat.mul_comm]

theorem laneData_word (x : Dev) (k : Issue) (d : VReg) (l : Nat) : x.laneData k d 1 4 l = leBytes 4 (x.source k d.toNat l).toNat := by
  simp [Dev.laneData, vregs, List.take_of_length_le, leBytes_length]

/-- A wave's registers, as its instructions see them. -/
def SameRegs (w y : Wave) : Prop := y.v = w.v ∧ y.m = w.m ∧ y.strands.map (·.s) = w.strands.map (·.s)

theorem sameRegs_modStrands {w : Wave} {g : StrandMask} {f : Nat → Strand → Strand} (hf : ∀ t x, (f t x).s = x.s) :
    SameRegs w (w.modStrands g f) := by
  refine ⟨rfl, rfl, List.ext_getElem? fun t => ?_⟩
  simp only [Wave.modStrands, List.getElem?_map, List.getElem?_mapIdx, Option.map_map]
  congr 1
  funext x
  simp only [Function.comp_apply]
  split
  · exact hf t x
  · rfl

theorem SameRegs.trans {a b c : Wave} (h : SameRegs a b) (g : SameRegs b c) : SameRegs a c :=
  ⟨g.1.trans h.1, g.2.1.trans h.2.1, g.2.2.trans h.2.2⟩

theorem wave?_modWave_self {d : Dev} {id : Nat} {w : Wave} {f : Wave → Wave} (hf : ∀ x, (f x).id = x.id) (hw : d.wave? id = some w) :
    (d.modWave id f).wave? id = some (f w) := by
  have hid : w.id = id := by simpa using List.find?_some hw
  rw [wave?_modWave _ _ _ _ hf, hw, Option.map_some, hid, beq_self_eq_true, if_pos rfl]

/-- One lane's store: the device, and the largest time so far. -/
def storeLane (k : Issue) (d : VReg) (x : Dev) (p : Dev × Nat) (q : Nat × Word × Loc) : Dev × Nat :=
  let (y, t, _) := p.1.homeWrite k.ctx.n none true q.2.2 k.wave.lts fun _ => x.laneData k d 1 4 q.1
  (y, max p.2 t)

/-- The gang has passed a store to a typed buffer that has been performed at a time. -/
def bufPassed (k : Issue) (t : Nat) (y : Dev) : Dev := ((y.onWave k (·.adopt t)).noteDone 0 k.wave.id k.block.id k.gang t).advance k 8

/-- The lanes have been stored. -/
def bufStored (k : Issue) (d : VReg) (m : Addr) (x : Dev) (ps : List (Nat × Word × Loc)) : Dev :=
  let p := ps.foldl (storeLane k d x) (x, 0)
  bufPassed k p.2 (if x.unsettled k (d.toNat :: addrRegs m) then { p.1 with free := p.1.free + 1 } else p.1)

theorem bufStore_eq (s : State) (sp : Space) (g : Guard) (d : VReg) (m : Addr) : bufStore s sp g d m = issue s fun k x =>
    if !k.inWindow (d.toNat :: addrRegs m) then x.trap k cRegrange
    else x.whenSettled k fun x => x.afterChecks k false (locPlaces k.block sp (k.active g) 4 (x.laneAddr k m true)) (bufStored k d m) := by
  rw [bufStore]
  refine congrArg (issue s) (funext fun k => funext fun x => ite_congr rfl (fun _ => rfl) fun _ => congrArg (x.whenSettled k) ?_)
  refine funext fun x => congrArg (x.afterChecks k false (locPlaces k.block sp (k.active g) 4 (x.laneAddr k m true))) ?_
  refine funext fun y => funext fun ps => ?_
  rw [bufStored]
  rfl

theorem bufPassed_mem (k : Issue) (t : Nat) (y : Dev) : (bufPassed k t y).mem = y.mem := by
  rw [bufPassed, advance_mem]
  rfl

theorem bufPassed_locmem (k : Issue) (t : Nat) (y : Dev) : (bufPassed k t y).locmem = y.locmem := by
  rw [bufPassed, advance_locmem]
  rfl

theorem bufPassed_wave {k : Issue} {t : Nat} {y : Dev} (h : y.wave? k.wave.id = some k.wave) :
    ∃ w, (bufPassed k t y).wave? k.wave.id = some w ∧ SameRegs k.wave w := by
  have h1 := wave?_modWave_self (f := (·.adopt t)) (fun _ => rfl) h
  have h2 := wave?_modWave_self (f := fun w => w.modStrands k.gang fun _ s => if s.triggered then s else { s with done := max s.done t })
    (fun _ => rfl) h1
  have h3 := wave?_modWave_self (f := fun w => w.modStrands k.gang fun _ s => { s with pc := s.pc + BitVec.ofNat 64 8, waiting := none })
    (fun _ => rfl) h2
  refine ⟨_, h3, .trans (b := k.wave.adopt t) ⟨rfl, rfl, rfl⟩ (.trans (sameRegs_modStrands fun _ x => ?_) (sameRegs_modStrands fun _ _ => rfl))⟩
  split <;> rfl

/-- One byte of a local space after a word has been put. -/
theorem readLoc_putLoc {d e : Dev} {core : Nat} {sp : Space} {a : Nat} {bs : List Byte} (hd : d.cellsOk)
    (he : e.locmem = (d.putLoc core sp a bs).locmem) (b : Nat) :
    (e.readLoc core sp b 1).1 = if a ≤ b ∧ b < a + bs.length then [(bs[b - a]?).getD 0] else (d.readLoc core sp b 1).1 := by
  have hcells : e.locCells core sp = cellWrite (d.locCells core sp) a bs := by
    rw [Dev.locCells, he]
    exact locCells_setLocCells d core sp fun m => cellWrite m a bs
  rw [Dev.readLoc, hcells]
  change [cellGet (cellWrite (d.locCells core sp) a bs) b] = _
  rw [cellGet_cellWrite (wf_locCells hd core sp)]
  split <;> rfl

theorem bufferStore {sp : Space} {range : Block → Range} {i : Guard → VReg → Addr → Instr} (hr : ∀ b : Block, b.range sp = range b)
    (hi : ∀ g d m s, exec (i g d m) s = bufStore s sp g d m) : BufferStore sp range i := by
  intro s k g d m l hk hmem hw hsettled hone a halign hin
  have hnext := buffer_next (f := fun k _ => bufStored k d m) hk ((hi g d m s).trans (bufStore_eq s sp g d m)) hw hsettled (by
    rw [hone, hr]
    simp only [List.mem_singleton, forall_eq]
    exact ⟨halign, hin⟩)
  have hplace : bufPlaces s k g m sp (k.block.range sp) = [(l, laneAddress s k m true l, .loc k.core sp a)] := by rw [bufPlaces, hone, hr]; rfl
  rw [hplace] at hnext
  obtain ⟨-, hwave, -⟩ := issuer?_eq_some hk
  have hstored : ∃ t y, bufStored k d m (unlatched s) [(l, laneAddress s k m true l, .loc k.core sp a)] = bufPassed k t y ∧
      y.mem = s.dev.mem ∧ y.waves = s.dev.waves ∧
      y.locmem = ((unlatched s).putLoc k.core sp a (leBytes 4 (s.dev.source k d.toNat l).toNat)).locmem := by
    refine ⟨_, _, rfl, ?_⟩
    simp only [List.foldl_cons, List.foldl_nil, storeLane, laneData_word]
    cases (unlatched s).unsettled k (d.toNat :: addrRegs m) <;> exact ⟨rfl, rfl, rfl⟩
  obtain ⟨t, y, hstored, hm, hwaves, hlocmem⟩ := hstored
  rw [hstored] at hnext
  rw [← bufPassed_locmem k t] at hlocmem
  refine ⟨_, hnext, (bufPassed_mem k t y).trans hm, rfl, fun b => ?_, bufPassed_wave ((congrArg (List.find? _) hwaves).trans hwave)⟩
  refine (readLoc_putLoc (d := unlatched s) (e := bufPassed k t y) hmem hlocmem b).trans ?_
  rw [leBytes_length]
  refine ite_congr rfl (fun hb => ?_) fun _ => rfl
  rw [leBytes_getElem?, if_pos (by omega)]
  rfl

/-! ## Prefetch (R187) -/

/-- A device is another but for what the caches and TLBs hold and the lines that have been asked for. -/
def FetchedDev (d e : Dev) : Prop :=
  e = { d with tlb := e.tlb, llc := e.llc, mt := e.mt, xfers := e.xfers, l1 := e.l1, nextId := e.nextId, remotes := e.remotes }

namespace FetchedDev

theorem refl (d : Dev) : FetchedDev d d := rfl

theorem trans {a b c : Dev} (h : FetchedDev a b) (g : FetchedDev b c) : FetchedDev a c := by
  rw [FetchedDev] at *
  rw [g, h]

theorem foldl {α : Type} {f : Dev → α → Dev} (hf : ∀ d x, FetchedDev d (f d x)) (l : List α) (d : Dev) : FetchedDev d (l.foldl f d) := by
  induction l generalizing d with
  | nil => exact refl d
  | cons x l ih => exact (hf d x).trans (ih _)

theorem of_cachedDev {d e : Dev} (h : CachedDev d e) : FetchedDev d e := by
  obtain ⟨a, b, c, e, rfl⟩ := exists_of_cachedDev h
  rfl

theorem putL1 (d : Dev) (l : L1Line) : FetchedDev d (d.putL1 l) := by
  simp only [Dev.putL1]
  split <;> rfl

theorem askLine (d : Dev) (core : Nat) (x : Ctx) (pkg pa : Nat) : FetchedDev d (d.askLine core x pkg pa) := by
  simp only [Dev.askLine]
  split <;> rfl

end FetchedDev

/-- What a lane's line brings about. -/
def pfLane (x : Dev) (k : Issue) (m : Addr) (z : Dev) (l : Nat) : Dev :=
  let y := z.looked k.core k.ctx (x.laneAddr k m true l).toNat
  match x.checkGlobal k.core k.ctx (x.laneAddr k m true l).toNat 1 needR false with
  | .ok (.glob pa) => (y.touchLine k.ctx.n pa k.ctx.n).l1Fill k.core k.ctx.n pa
  | .ok (.remote pkg pa) => y.askLine k.core k.ctx pkg pa
  | _ => y

theorem fetched_pfLane (x : Dev) (k : Issue) (m : Addr) (z : Dev) (l : Nat) : FetchedDev z (pfLane x k m z l) := by
  have hlooked := FetchedDev.of_cachedDev (CachedDev.looked z k.core k.ctx (x.laneAddr k m true l).toNat)
  rw [pfLane.eq_def]
  refine hlooked.trans ?_
  split
  · exact (FetchedDev.of_cachedDev (.touchLine _ _ _ _)).trans (.putL1 _ _)
  · exact .askLine _ _ _ _ _
  · exact .refl _

/-- The lines of the lanes have been asked for. -/
def pfDev (k : Issue) (g : Guard) (m : Addr) (x : Dev) : Dev :=
  let y := (lanesOf (k.active g)).foldl (pfLane x k m) x
  (if x.unsettled k (addrRegs m) then { y with free := y.free + 1 } else y).advance k 8

theorem pf_next {s : State} {k : Issue} {g : Guard} {m : Addr} (hk : s.dev.issuer? = some k) (hw : InWindow k (indexReg m)) :
    exec (.pf g m) s = .next (after s (pfDev k g m)) :=
  within_of_issue (f := fun k => pfDev k g m) hk (show exec (.pf g m) s = execPf g m s from rfl) hw

theorem pf_claim {s : State} {k : Issue} {g : Guard} {m : Addr} (hk : s.dev.issuer? = some k) (hw : InWindow k (indexReg m)) :
    ∃ t : State, exec (.pf g m) s = .next t ∧ t.dev.mem = s.dev.mem ∧ t.dev.sectors = s.dev.sectors ∧ t.dev.locmem = s.dev.locmem ∧
      t.dev.memops = s.dev.memops ∧ t.mgmt = s.mgmt ∧ t.dev.waves = (gangStep s k fun _ x => passed 8 x).dev.waves := by
  have hy : FetchedDev (unlatched s) ((lanesOf (k.active g)).foldl (pfLane (unlatched s) k m) (unlatched s)) :=
    .foldl (fetched_pfLane _ k m) _ _
  generalize hfold : (lanesOf (k.active g)).foldl (pfLane (unlatched s) k m) (unlatched s) = y at hy
  have hdev : pfDev k g m (unlatched s) = Dev.advance (if (unlatched s).unsettled k (addrRegs m) then { y with free := y.free + 1 } else y) k 8 := by
    rw [pfDev, hfold]
  generalize hz : (if (unlatched s).unsettled k (addrRegs m) then { y with free := y.free + 1 } else y) = z at hdev
  have hzf : z.mem = s.dev.mem ∧ z.sectors = s.dev.sectors ∧ z.locmem = s.dev.locmem ∧ z.memops = s.dev.memops ∧ z.waves = s.dev.waves := by
    rw [← hz, hy]
    split <;> exact ⟨rfl, rfl, rfl, rfl, rfl⟩
  obtain ⟨hmem, hsec, hloc, hops, hwaves⟩ := hzf
  refine ⟨_, pf_next hk hw, ?_⟩
  rw [after, ← unlatched, hdev]
  refine ⟨hmem, hsec, hloc, hops, rfl, ?_⟩
  have hstep : gangStep s k (fun _ x => passed 8 x) = { s with dev := (unlatched s).advance k 8 } := (onGang_eq s k _).symm
  rw [hstep]
  simp only [Dev.advance, Dev.onGang, Dev.onWave, Dev.modWave, hwaves]
  rfl

/-! ## Spill and fill (R188, R189) -/

/-- The gang's lanes have been put into a slot (R189). -/
def spillVals (x : Dev) (k : Issue) (d : VReg) (n : Nat) : LaneVec :=
  (k.wave.slot n).vals.mapIdx fun l old => if k.lanes.getLsbD l then x.source k d.toNat l else old

/-- The slot that `spill` leaves. -/
def spilled (x : Dev) (k : Issue) (d : VReg) (n : Nat) : SpillSlot := ⟨n, spillForm (spillVals x k d n), spillVals x k d n, 0⟩

/-- The slot is in place and counts in `st`. -/
def spillDev (k : Issue) (d : VReg) (n : BitVec 8) (x : Dev) : Dev :=
  let y : Dev := if x.unsettled k [d.toNat] then { x with free := x.free + 1 } else x
  let y := y.onWave k fun w => { w with spill := upsert (·.slot == n.toNat) (spilled x k d n.toNat) (fun _ => spilled x k d n.toNat) w.spill }
  (y.addOp k .spill [] false).advance k 8

theorem spill_next {s : State} {k : Issue} {d : VReg} {n : BitVec 8} (hk : s.dev.issuer? = some k) (hw : InWindow k [d.toNat])
    (hroom : HasRoom s k false) : exec (.spill d n) s = .next { s with dev := spillDev k d n (unlatched s) } :=
  (within_of_issue hk (show exec (.spill d n) s = execSpill d n s from rfl) hw).trans
    (congrArg (fun d => Host.Outcome.next { s with dev := d }) (if_neg (hasRoom_store_iff.mp hroom)))

theorem st_append {d e : Dev} {o : MemOp} {w : Nat} (h : e.memops = d.memops ++ [o]) (ho : o.wave = w) (hkind : o.kind.inSt = true) :
    e.st w = d.st w + 1 := by
  simp [Dev.st, Dev.countOps, h, ho, hkind]

theorem slot_upsert (w : Wave) (new : SpillSlot) :
    Wave.slot { w with spill := upsert (·.slot == new.slot) new (fun _ => new) w.spill } new.slot = new := by
  rw [Wave.slot, find?_upsert_same (f := fun _ => new) (fun _ _ => by simp) (by simp)]
  rfl

theorem spill_claim {s : State} {k : Issue} {d : VReg} {n : BitVec 8} (hk : s.dev.issuer? = some k) (hw : InWindow k [d.toNat])
    (hroom : HasRoom s k false) :
    ∃ t : State, exec (.spill d n) s = .next t ∧ t.dev.mem = s.dev.mem ∧ t.dev.locmem = s.dev.locmem ∧
      t.dev.st k.wave.id = s.dev.st k.wave.id + 1 ∧
      ∃ w, t.dev.wave? k.wave.id = some w ∧ w.v = k.wave.v ∧ w.m = k.wave.m ∧ w.strands.map (·.s) = k.wave.strands.map (·.s) ∧
        ∀ l x, (k.wave.slot n.toNat).vals[l]? = some x →
          (w.slot n.toNat).vals[l]? = some (if inGang k.gang (l / 4) ∧ l < 32 then s.dev.source k d.toNat l else x) := by
  obtain ⟨-, hwave, -⟩ := issuer?_eq_some hk
  refine ⟨_, spill_next hk hw hroom, ?_⟩
  have hfree : ∃ f, (if (unlatched s).unsettled k [d.toNat] then { unlatched s with free := (unlatched s).free + 1 } else unlatched s) =
      { unlatched s with free := f } := by
    split <;> exact ⟨_, rfl⟩
  obtain ⟨f, hf⟩ := hfree
  have hnew : spilled (unlatched s) k d n.toNat = spilled s.dev k d n.toNat := rfl
  have hdev : spillDev k d n (unlatched s) = ((({ unlatched s with free := f } : Dev).onWave k fun w => { w with
      spill := upsert (·.slot == n.toNat) (spilled s.dev k d n.toNat) (fun _ => spilled s.dev k d n.toNat) w.spill }).addOp k .spill [] false).advance k 8 := by
    rw [spillDev, hf, hnew]
  rw [hdev]
  have h1 := wave?_modWave_self (d := { unlatched s with free := f }) (f := fun w => { w with
    spill := upsert (·.slot == n.toNat) (spilled s.dev k d n.toNat) (fun _ => spilled s.dev k d n.toNat) w.spill }) (fun _ => rfl) hwave
  have h2 := wave?_modWave_self (f := fun w => w.modStrands k.gang fun _ s => { s with pc := s.pc + BitVec.ofNat 64 8, waiting := none })
    (fun _ => rfl) h1
  obtain ⟨hv, hm, hs⟩ := sameRegs_modStrands (w := { k.wave with
    spill := upsert (·.slot == n.toNat) (spilled s.dev k d n.toNat) (fun _ => spilled s.dev k d n.toNat) k.wave.spill }) (g := k.gang)
    (f := fun _ s => { s with pc := s.pc + BitVec.ofNat 64 8, waiting := none }) fun _ _ => rfl
  refine ⟨rfl, rfl, st_append (o := ⟨s.dev.nextId, k.wave.id, k.block.id, k.ctx.n, k.gang, k.pc, .spill, [], k.wave.lts, false⟩) rfl rfl rfl,
    _, h2, hv, hm, hs, fun l x hx => ?_⟩
  have hslot := slot_upsert (k.wave.modStrands k.gang fun _ s => { s with pc := s.pc + BitVec.ofNat 64 8, waiting := none }) (spilled s.dev k d n.toNat)
  refine (congrArg (fun z : SpillSlot => z.vals[l]?) hslot).trans ?_
  simp only [spilled, spillVals, List.getElem?_mapIdx, hx, Option.map_some]
  by_cases hl : l < 32
  · simp only [getLsbD_lanes k hl, hl, and_true]
  · rw [BitVec.getLsbD_of_ge _ _ (by omega), if_neg Bool.false_ne_true, if_neg fun h => hl h.2]

theorem fill_claim {s : State} {k : Issue} {d : VReg} {n : BitVec 8} (hk : s.dev.issuer? = some k) (hw : InWindow k [d.toNat])
    (hroom : HasRoom s k true) :
    exec (.fill d n) s = .next (let t := gangStep s k fun _ x => passed 8 x
      { t with dev := { t.dev with
          nextId := s.dev.nextId + 1
          memops := s.dev.memops ++ [⟨s.dev.nextId, k.wave.id, k.block.id, k.ctx.n, k.gang, k.pc,
            .fill d n.toNat (laneBits k.gang), (lanesOf (laneBits k.gang)).map fun l =>
              ⟨l, 0, .glob 0, 4, [], if (k.wave.slot n.toNat).fmt ≤ 4 ∧ (k.wave.slot n.toNat).flaw = 0
                then .done 0 (leBytes 4 (((k.wave.slot n.toNat).vals[l]?).getD 0).toNat) else .failed cIntegrity⟩, k.wave.lts, false⟩] } }) := by
  have hstep : gangStep s k (fun _ x => passed 8 x) = { s with dev := (unlatched s).advance k 8 } := (onGang_eq s k _).symm
  refine (within_of_issue hk (show exec (.fill d n) s = execFill d n s from rfl) hw).trans ?_
  refine (congrArg (fun d => Host.Outcome.next { s with dev := d }) (if_neg (hasRoom_load_iff.mp hroom))).trans ?_
  rw [hstep]
  rfl

/-- Settles O28: a buffer's access completes at its home at issue; `spill`, `fill` and `pf` by their own steps. -/
theorem buffersAndSpills : Obligations.BuffersAndSpills := by
  unfold Obligations.BuffersAndSpills
  exact ⟨⟨bufferLoad (fun _ => rfl) fun _ _ _ _ => rfl, bufferLoad (fun _ => rfl) fun _ _ _ _ => rfl, bufferLoad (fun _ => rfl) fun _ _ _ _ => rfl⟩,
    ⟨bufferStore (fun _ => rfl) fun _ _ _ _ => rfl, bufferStore (fun _ => rfl) fun _ _ _ _ => rfl, bufferStore (fun _ => rfl) fun _ _ _ _ => rfl⟩,
    fun _ _ _ _ hk hw => pf_claim hk hw, fun _ _ _ _ hk hw hroom => spill_claim hk hw hroom,
    fun _ _ _ _ hk hw hroom => fill_claim hk hw hroom⟩

end Sys2Proof.Proofs
end

section
/-!
PROOFS. Scalar loads and stores (04: R127).
-/

open Sys2Proof Sys2Proof.Machine Sys2Proof.Claims

namespace Sys2Proof.Proofs

/-! ## Loads -/

/-- A device is another but for what the LLC and the TLBs hold, and the free values that have been used. -/
def LoadedDev (d e : Dev) : Prop :=
  e = { d with tlb := e.tlb, llc := e.llc, mt := e.mt, xfers := e.xfers, free := e.free }

theorem LoadedDev.trans {a b c : Dev} (h : LoadedDev a b) (g : LoadedDev b c) : LoadedDev a c := by
  rw [LoadedDev] at *
  rw [g, h]

theorem LoadedDev.of_cachedDev {d e : Dev} (h : CachedDev d e) : LoadedDev d e := by
  obtain ⟨a, b, c, e, rfl⟩ := exists_of_cachedDev h
  rfl

theorem LoadedDev.sameBytes {d e : Dev} (h : LoadedDev d e) : SameBytes d e := by
  rw [h]
  exact ⟨rfl, rfl, rfl, rfl⟩

/-- A core's L1 holds nothing. -/
def NoCopies (d : Dev) (core : Nat) : Prop := ∀ l ∈ d.l1, l.core ≠ core

theorem NoCopies.of_loadedDev {d e : Dev} {core : Nat} (hl : NoCopies d core) (h : LoadedDev d e) : NoCopies e core := by
  rw [h]
  exact hl

theorem not_isAt {d : Dev} {core : Nat} (h : NoCopies d core) {l : L1Line} (hl : l ∈ d.l1) (slot : Nat) (pkg : Option Nat) (line : Nat) :
    l.isAt core slot pkg line = false := by
  rw [L1Line.isAt, beq_eq_false_iff_ne.mpr (h l hl)]
  rfl

theorem l1Serves_of_noCopies {d : Dev} {core : Nat} (h : NoCopies d core) (ctx : Nat) (pkg : Option Nat) (pa c : Nat) :
    d.l1Serves core ctx pkg pa c = none := by
  have hfind : (d.l1.find? fun l => l.isAt core ctx pkg (pa / 128)) = none :=
    List.find?_eq_none.mpr fun l hl => by simp [not_isAt h hl]
  rw [Dev.l1Serves, hfind]
  rfl

theorem l1Renew_of_noCopies {d : Dev} {core : Nat} (h : NoCopies d core) (ctx pa : Nat) : d.l1Renew core ctx pa = d :=
  if_neg fun hany => by
    obtain ⟨l, hl, hat⟩ := List.any_eq_true.mp hany
    rw [not_isAt h hl] at hat
    exact Bool.false_ne_true hat

theorem loaded_homeLoad (d : Dev) (ctx pa n c l : Nat) : LoadedDev d (d.homeLoad ctx (.glob pa) n c l).1 :=
  (LoadedDev.of_cachedDev (.touchLine d ctx pa ctx)).trans rfl

section
variable {d : Dev} {k : Issue} {n : Nat}

theorem sloadAt_of_noCopies (h : NoCopies d k.core) (pa : Nat) :
    LoadedDev d (d.sloadAt k pa n).1 ∧
      (d.sloadAt k pa n).2.2 = if (d.readGlob k.ctx.n pa n).2 then some (d.readGlob k.ctx.n pa n).1 else none := by
  have hfree : LoadedDev d { d with free := d.free + 1 } := rfl
  have hload := hfree.trans (loaded_homeLoad { d with free := d.free + 1 } k.ctx.n pa n k.wave.lts (1 + (Config.freeBits d.free).toNat % 64))
  have heq : d.sloadAt k pa n =
      Dev.homeLoad { d with free := d.free + 1 } k.ctx.n (.glob pa) n k.wave.lts (1 + (Config.freeBits d.free).toNat % 64) := by
    simp only [Dev.sloadAt, Dev.freeWord, l1Serves_of_noCopies (h.of_loadedDev hfree), ite_self, l1Renew_of_noCopies (h.of_loadedDev hload)]
  rw [heq]
  exact ⟨hload, homeLoad_glob _ _ _ _ _ _⟩

/-- The strands' values, when every one of their sectors is sound. -/
theorem sloadAll_of_noCopies {pa : Nat → Nat} {L : List Nat} (h : NoCopies d k.core) (hok : ∀ t ∈ L, (d.readGlob k.ctx.n (pa t) n).2 = true) :
    ∃ e tm, d.sloadAll k n (L.map fun t => (t, .glob (pa t))) =
      (e, L.map fun t => (t, BitVec.ofNat 64 (leNat (d.readGlob k.ctx.n (pa t) n).1)), [], tm) ∧ LoadedDev d e := by
  induction L generalizing d with
  | nil => exact ⟨d, 0, rfl, rfl⟩
  | cons t L ih =>
    obtain ⟨hload, hread⟩ := sloadAt_of_noCopies (n := n) h (pa t)
    have hbytes := hload.sameBytes
    obtain ⟨e, tm, he, hle⟩ := ih (h.of_loadedDev hload) fun u hu => by
      rw [hbytes.readGlob]
      exact hok u (List.mem_cons_of_mem _ hu)
    refine ⟨e, max (d.sloadAt k (pa t) n).2.1 tm, ?_, hload.trans hle⟩
    simp only [hbytes.readGlob] at he
    rw [if_pos (hok t List.mem_cons_self)] at hread
    simp only [List.map_cons, Dev.sloadAll, he, hread]

end

/-! ### The gang takes the values -/

/-- The strands have their values, and the wave the time. -/
def loadedStep (k : Issue) (r : SReg) (v : Nat → Word) (t : Nat) (y : Dev) : Dev :=
  ((y.setScalars k r v).onWave k (·.adopt t)).advance k 4

theorem loadedStep_frame (k : Issue) (r : SReg) (v : Nat → Word) (t : Nat) (y : Dev) :
    (loadedStep k r v t y).mem = y.mem ∧ (loadedStep k r v t y).sectors = y.sectors ∧ (loadedStep k r v t y).locmem = y.locmem := by
  rw [loadedStep, advance_mem, advance_sectors, advance_locmem]
  exact ⟨rfl, rfl, rfl⟩

/-- A strand of the gang passes with its value. -/
theorem passed_wr (r : SReg) (v : Word) (x : Strand) :
    ({ x.wr r v with pc := (x.wr r v).pc + BitVec.ofNat 64 4, waiting := none } : Strand) =
      passed 4 { x with s := if r = 0 then x.s else x.s.set r.toNat v } := by
  rw [Strand.wr]
  split <;> rfl

theorem modStrands_modStrands (w : Wave) (g : StrandMask) (f h : Nat → Strand → Strand) :
    (w.modStrands g f).modStrands g h = w.modStrands g fun t x => h t (f t x) := by
  simp only [Wave.modStrands, List.mapIdx_mapIdx]
  congr 2
  funext t x
  simp only [Function.comp_apply]
  split <;> rfl

theorem waves_loadedStep (s : State) (k : Issue) (r : SReg) (v : Nat → Word) (t : Nat) {y : Dev} (hy : y.waves = s.dev.waves) :
    (loadedStep k r v t y).waves = (waveStep s k fun w => { w with
      lts := max w.lts t
      strands := w.strands.mapIdx fun u x => if inGang k.gang u then passed 4 { x with s := if r = 0 then x.s else x.s.set r.toNat (v u) }
        else x }).dev.waves := by
  simp only [loadedStep, Dev.advance, Dev.setScalars, Dev.onGang, Dev.onWave, Dev.modWave, hy]
  rw [modIf_modIf _ _ _ (by intro x; rfl), modIf_modIf _ _ _ (by intro x; rfl)]
  simp only [waveStep, modIf, beq_iff_eq]
  refine List.map_congr_left fun w _ => if_congr Iff.rfl ?_ rfl
  have hpass := modStrands_modStrands w k.gang (fun u x => x.wr r (v u)) fun _ x => { x with pc := x.pc + BitVec.ofNat 64 4, waiting := none }
  simp only [passed_wr] at hpass
  exact congrArg (fun z : Wave => { z with lts := max w.lts t }) hpass

/-! ### The obligation's form -/

theorem whenSettled_of_settled {x : Dev} {k : Issue} {f : Dev → Dev} (h : x.settled k = true) : x.whenSettled k f = f x := if_pos h

theorem all_isGlob (L : List Nat) (pa : Nat → Nat) : ((L.map fun t => (t, Loc.glob (pa t))).all fun p => p.2.isGlob) = true := by
  simp [Loc.isGlob]

theorem scalarLoads {n : Nat} {i : SReg → SReg → BitVec 12 → Instr} (hi : ∀ d a imm s, exec (i d a imm) s = scalarLoad s n d a imm) :
    ScalarLoads n i := by
  intro s k d a imm pa hk hpa hsettled hl1 hok
  have hcached := CachedDev.lookedAll (unlatched s) k.core k.ctx (k.strands.map fun u => (strandAddress k a imm u).toNat)
  generalize hz : (unlatched s).lookedAll k.core k.ctx (k.strands.map fun u => (strandAddress k a imm u).toNat) = z at hcached
  have hload : LoadedDev (unlatched s) z := .of_cachedDev hcached
  obtain ⟨e, tm, he, hle⟩ := sloadAll_of_noCopies (n := n) (L := k.strands) (pa := pa) (NoCopies.of_loadedDev (d := unlatched s) (core := k.core) hl1 hload)
    fun t ht => by
      rw [hload.sameBytes.readGlob]
      exact hok t (mem_strands_iff.mp ht)
  have hnow : z.settled k = true := by
    rw [hload]
    exact hsettled
  have hframe : LoadedDev (unlatched s) e := hload.trans hle
  have hdev : exec (i d a imm) s = .next { s with dev := loadedStep k d (fun t => (((k.strands.map fun t =>
      (t, BitVec.ofNat 64 (leNat (z.readGlob k.ctx.n (pa t) n).1))).find? (·.1 == t)).map (·.2)).getD 0) tm e } := by
    rw [hi, scalarLoad, issue_next s k _ hk]
    refine congrArg (fun d => Host.Outcome.next { s with dev := d }) ((scalarAccess_of_ok hpa).trans ?_)
    rw [hz, whenSettled_of_settled hnow, if_pos (all_isGlob _ _), he]
    rfl
  obtain ⟨hmem, hsec, hloc⟩ := loadedStep_frame k d (fun t => (((k.strands.map fun t =>
      (t, BitVec.ofNat 64 (leNat (z.readGlob k.ctx.n (pa t) n).1))).find? (·.1 == t)).map (·.2)).getD 0) tm e
  have hs : e.mem = s.dev.mem ∧ e.sectors = s.dev.sectors ∧ e.locmem = s.dev.locmem ∧ e.waves = s.dev.waves := by
    rw [hframe]
    exact ⟨rfl, rfl, rfl, rfl⟩
  obtain ⟨hmem', hsec', hloc', hwaves⟩ := hs
  refine ⟨_, tm, hdev, hmem.trans hmem', hsec.trans hsec', hloc.trans hloc', rfl, ?_⟩
  refine (waves_loadedStep s k d _ tm hwaves).trans ?_
  simp only [waveStep]
  refine List.map_congr_left fun w _ => if_congr Iff.rfl ?_ rfl
  refine congrArg (fun l => ({ w with lts := max w.lts tm, strands := l } : Wave)) (List.ext_getElem? fun u => ?_)
  simp only [List.getElem?_mapIdx]
  refine congrArg (fun f => Option.map f w.strands[u]?) (funext fun x => ?_)
  refine if_ctx_congr Iff.rfl (fun hu => ?_) fun _ => rfl
  rw [find?_map_self (mem_strands_iff.mpr hu), hload.sameBytes.readGlob]
  rfl

/-! ## Stores -/

/-- Each strand's bytes. -/
def storeParts (k : Issue) (a : SReg) (i : BitVec 12) (n : Nat) (data : Nat → List Byte) (pa : Nat → Nat) (L : List Nat) : List LaneAcc :=
  (L.map fun t => (t, Loc.glob (pa t))).map (k.part a i n data)

/-- What the strands' stores, in rising strand order, leave: a byte is that of the last strand that stores it (log entry 34). -/
structure StoredBytes (d e : Dev) (slot n : Nat) (data : Nat → List Byte) (pa : Nat → Nat) (L : List Nat) : Prop where
  outside : ∀ b, (∀ t ∈ L, ¬ (pa t ≤ b ∧ b < pa t + n)) → e.byteAt slot b = d.byteAt slot b
  last : ∀ t ∈ L, ∀ b, pa t ≤ b → b < pa t + n → (∀ v ∈ L, t < v → ¬ (pa v ≤ b ∧ b < pa v + n)) →
    e.byteAt slot b = ((data t)[b - pa t]?).getD 0
  locmem : e.locmem = d.locmem
  waves : e.waves.map calm = d.waves.map calm

section
variable {k : Issue} {a : SReg} {i : BitVec 12} {n : Nat} {data : Nat → List Byte} {pa : Nat → Nat}

theorem sstoreAll_written {d : Dev} {L : List Nat} (hL : L.Pairwise (· < ·)) (hn : ∀ t, (data t).length = n) (hm : Memory.wf d.mem = true)
    (h : ∀ t ∈ L, ∀ j ∈ sectorsOf (pa t) n, Written d k.ctx.n j) :
    ∃ e tm, d.sstoreAll k (storeParts k a i n data pa L) = (e, [], tm) ∧ StoredBytes d e k.ctx.n n data pa L := by
  induction L generalizing d with
  | nil => exact ⟨d, 0, rfl, ⟨fun _ _ => rfl, fun t ht => absurd ht List.not_mem_nil, rfl, rfl⟩⟩
  | cons t L ih =>
    obtain ⟨ht, hL⟩ := List.pairwise_cons.mp hL
    obtain ⟨x, y, ti, hwrite, hx, hy⟩ := homeWrite_written (f := fun _ => data t) (fun _ => hn t) (h t List.mem_cons_self) (some k.core) true
      k.wave.lts
    have hxw : ∀ j ∈ sectorsOf (pa t) (data t).length, Written x k.ctx.n j := fun j hj =>
      (hx.sameBytes.written k.ctx.n j).mpr (h t List.mem_cons_self j (by rwa [hn] at hj))
    have hxm : Memory.wf x.mem = true := by rw [hx.mem]; exact hm
    have hbyte := byteAt_overwritten hxm hxw
    rw [← hy.sameBytes.byteAt, hx.sameBytes.byteAt, hn] at hbyte
    obtain ⟨e, tm, he, hse⟩ := ih hL (d := y) (by rw [hy.mem]; exact wf_overwritten hxm) fun u hu j hj =>
      (hy.sameBytes.written k.ctx.n j).mpr (written_overwritten ((hx.sameBytes.written k.ctx.n j).mpr (h u (List.mem_cons_of_mem _ hu) j hj)))
    refine ⟨e, max ti tm, ?_, ⟨fun b hb => ?_, fun u hu b hlo hhi hlast => ?_, ?_, ?_⟩⟩
    · have he' : y.sstoreAll k ((L.map fun t => (t, Loc.glob (pa t))).map (k.part a i n data)) = (e, [], tm) := he
      have hw' : d.homeWrite k.ctx.n (some k.core) true (k.part a i n data (t, .glob (pa t))).loc k.wave.lts
          (fun _ => (k.part a i n data (t, .glob (pa t))).data) = (y, ti, true) := hwrite
      simp only [storeParts, List.map_cons, Dev.sstoreAll, hw', he', if_true]
    · rw [hse.outside b fun u hu => hb u (List.mem_cons_of_mem _ hu), hbyte, if_neg (hb t List.mem_cons_self)]
    · rcases List.mem_cons.mp hu with rfl | hu
      · rw [hse.outside b fun v hv => hlast v (List.mem_cons_of_mem _ hv) (ht v hv), hbyte, if_pos ⟨hlo, hhi⟩]
      · exact hse.last u hu b hlo hhi fun v hv => hlast v (List.mem_cons_of_mem _ hv)
    · rw [hse.locmem, hy.locmem]
      exact hx.locmem
    · rw [hse.waves, hy.waves]
      exact hx.waves

end

/-- The gang has passed a store that has been performed at a time. -/
def storedStep (k : Issue) (t id : Nat) (y : Dev) : Dev := ((y.noteDone id k.wave.id k.block.id k.gang t).onWave k (·.adopt t)).advance k 4

theorem storedStep_frame (k : Issue) (t id : Nat) (y : Dev) : SameBytes y (storedStep k t id y) ∧ (storedStep k t id y).locmem = y.locmem := by
  refine ⟨⟨?_, ?_, ?_, ?_⟩, ?_⟩
  · rw [storedStep, advance_mem]; rfl
  · rw [storedStep, advance_sectors]; rfl
  · rw [storedStep, advance_keys]; rfl
  · rw [storedStep, advance_keyBase]; rfl
  · rw [storedStep, advance_locmem]; rfl

theorem wave?_storedStep {k : Issue} {t id : Nat} {y : Dev} {x : Wave} (h : y.wave? k.wave.id = some x) :
    ∃ w, (storedStep k t id y).wave? k.wave.id = some w ∧ w.lts = max x.lts t ∧ SameRegs x w := by
  have h1 := wave?_modWave_self (f := fun w => w.modStrands k.gang fun _ s => if s.triggered then s else { s with done := max s.done t })
    (fun _ => rfl) h
  have h2 := wave?_modWave_self (f := (·.adopt t)) (fun _ => rfl) h1
  have h3 := wave?_modWave_self (f := fun w => w.modStrands k.gang fun _ s => { s with pc := s.pc + BitVec.ofNat 64 4, waiting := none })
    (fun _ => rfl) h2
  have hdone : SameRegs x (x.modStrands k.gang fun _ s => if s.triggered then s else { s with done := max s.done t }) :=
    sameRegs_modStrands fun _ x => by split <;> rfl
  have hpass := sameRegs_modStrands (w := (x.modStrands k.gang fun _ s => if s.triggered then s else { s with done := max s.done t }).adopt t)
    (g := k.gang) (f := fun _ s => { s with pc := s.pc + BitVec.ofNat 64 4, waiting := none }) fun _ _ => rfl
  exact ⟨_, h3, rfl, hdone.trans hpass⟩

theorem sameRegs_of_calm {w y : Wave} (h : calm y = calm w) : y.lts = w.lts ∧ SameRegs w y := by
  have hstrands := congrArg (fun z : Wave => z.strands.map (·.s)) h
  simp only [calm, List.map_map, Function.comp_def] at hstrands
  have hlts := congrArg Wave.lts h
  have hv := congrArg Wave.v h
  have hm := congrArg Wave.m h
  exact ⟨hlts, hv, hm, hstrands⟩

theorem wave?_of_calm {d e : Dev} (h : e.waves.map calm = d.waves.map calm) {id : Nat} {w : Wave} (hw : d.wave? id = some w) :
    ∃ y, e.wave? id = some y ∧ calm y = calm w := by
  have hmap := congrArg (List.find? fun x : Wave => x.id == id) h
  simp only [List.find?_map] at hmap
  have hcomp : ((fun x : Wave => x.id == id) ∘ calm) = fun x => x.id == id := rfl
  rw [hcomp, show d.waves.find? (fun x => x.id == id) = some w from hw] at hmap
  exact Option.map_eq_some_iff.mp hmap

theorem scalarStores {n : Nat} {i : SReg → SReg → BitVec 12 → Instr} (hi : ∀ d a imm s, exec (i d a imm) s = scalarStore s n d a imm) :
    ScalarStores n i := by
  intro s k d a imm pa hk hpa hsettled hmem hwritten stored
  have hload := Aside.of_cachedDev (CachedDev.lookedAll (unlatched s) k.core k.ctx (k.strands.map fun u => (strandAddress k a imm u).toNat))
  have hcached := LoadedDev.of_cachedDev (CachedDev.lookedAll (unlatched s) k.core k.ctx (k.strands.map fun u => (strandAddress k a imm u).toNat))
  generalize hz : (unlatched s).lookedAll k.core k.ctx (k.strands.map fun u => (strandAddress k a imm u).toNat) = z at hload hcached
  obtain ⟨e, tm, he, hse⟩ := sstoreAll_written (d := z) (k := k) (a := a) (i := imm) (n := n) (pa := pa) (L := k.strands)
    (data := fun t => leBytes n ((k.strand t).rd d).toNat) (pairwise_strands k) (fun t => leBytes_length _ _) (by rw [hload.mem]; exact hmem.1)
    fun t ht j hj => (hload.sameBytes.written k.ctx.n j).mpr (hwritten t (mem_strands_iff.mp ht) j hj)
  have hnow : z.settled k = true := by
    rw [hcached]
    exact hsettled
  have hdev : exec (i d a imm) s = .next { s with dev := storedStep k tm e.nextId { e with nextId := e.nextId + 1 } } := by
    rw [hi, scalarStore, issue_next s k _ hk]
    refine congrArg (fun d => Host.Outcome.next { s with dev := d }) ((scalarAccess_of_ok hpa).trans ?_)
    rw [hz]
    simp only [hnow, all_isGlob, Bool.and_self, if_true]
    exact (congrArg (fun r : Dev × List LaneAcc × Nat => storedStep k r.2.2 r.1.nextId (if r.2.1.isEmpty then { r.1 with nextId := r.1.nextId + 1 } else
      { r.1 with nextId := r.1.nextId + 1, reports := r.1.reports ++ [⟨r.1.nextId, k.wave.id, k.block.id, k.ctx.n, k.gang, k.pc, .sstore, r.2.1,
        k.wave.lts, false⟩] })) he)
  obtain ⟨-, hwave, -⟩ := issuer?_eq_some hk
  obtain ⟨hbytes, hloc⟩ := storedStep_frame k tm e.nextId { e with nextId := e.nextId + 1 }
  obtain ⟨x, hx, hcalm⟩ := wave?_of_calm (hse.waves.trans hload.waves) (show (unlatched s).wave? k.wave.id = some k.wave from hwave)
  obtain ⟨hxlts, hxregs⟩ := sameRegs_of_calm hcalm
  obtain ⟨w, hw, hwlts, hwregs⟩ := wave?_storedStep (k := k) (t := tm) (id := e.nextId) (y := { e with nextId := e.nextId + 1 }) hx
  have hread : (storedStep k tm e.nextId { e with nextId := e.nextId + 1 }).byteAt k.ctx.n = e.byteAt k.ctx.n := hbytes.byteAt _
  refine ⟨_, tm, hdev, fun b hb => ?_, fun t b hin hlast => ?_, hloc.trans (hse.locmem.trans hload.locmem), rfl, w, hw, by rw [hwlts, hxlts],
    hxregs.trans hwregs⟩
  · refine (congrFun hread b).trans ?_
    rw [hse.outside b fun t ht hin => hb t ⟨mem_strands_iff.mp ht, hin⟩, hload.sameBytes.byteAt]
    rfl
  · obtain ⟨hgang, hlo, hhi⟩ := hin
    refine (congrFun hread b).trans ?_
    exact hse.last t (mem_strands_iff.mpr hgang) b hlo hhi fun v hv hlt hin => hlast v hlt ⟨mem_strands_iff.mp hv, hin⟩

/-- A scalar access whose lowest failing strand is known takes its exception. -/
theorem scalarFault {s : State} {k : Issue} {j : Instr} {a : SReg} {i : BitVec 12} {n t e : Nat} {need : Need}
    {f : Issue → Dev → List (Nat × Loc) → Dev} (hk : s.dev.issuer? = some k)
    (hj : exec j s = issue s fun k x => x.scalarAccess k a i n need true (f k)) (hf : ScalarFails s k a i n need true t e) :
    ∃ m : LaneMask, exec j s = .next (after s fun x =>
      (x.lookedAll k.core k.ctx (k.strands.map fun u => (strandAddress k a i u).toNat)).trapMem k e (strandAddress k a i t) m) := by
  obtain ⟨m, hm⟩ := scalarAccess_of_fails (f := f k) hf
  refine ⟨m, ?_⟩
  rw [hj, issue_next s k _ hk]
  exact congrArg (fun d => Host.Outcome.next { s with dev := d }) hm

/-- Settles O16: a scalar access checks every strand's address before any byte moves (R127). -/
theorem scalarMemory : Obligations.ScalarMemory := by
  unfold Obligations.ScalarMemory
  refine ⟨⟨⟨scalarLoads fun _ _ _ _ => rfl, scalarLoads fun _ _ _ _ => rfl, scalarLoads fun _ _ _ _ => rfl, scalarLoads fun _ _ _ _ => rfl⟩,
    scalarStores fun _ _ _ _ => rfl, scalarStores fun _ _ _ _ => rfl, scalarStores fun _ _ _ _ => rfl, scalarStores fun _ _ _ _ => rfl⟩, ?_⟩
  intro s k d a i t e hk p hp
  simp only [List.mem_cons, List.not_mem_nil, or_false] at hp
  rcases hp with rfl | rfl | rfl | rfl | rfl | rfl | rfl | rfl
  · exact scalarFault hk (show exec (.sld8 d a i) s = scalarLoad s 1 d a i from rfl)
  · exact scalarFault hk (show exec (.sld16 d a i) s = scalarLoad s 2 d a i from rfl)
  · exact scalarFault hk (show exec (.sld32 d a i) s = scalarLoad s 4 d a i from rfl)
  · exact scalarFault hk (show exec (.sld64 d a i) s = scalarLoad s 8 d a i from rfl)
  · exact scalarFault hk (show exec (.sst8 d a i) s = scalarStore s 1 d a i from rfl)
  · exact scalarFault hk (show exec (.sst16 d a i) s = scalarStore s 2 d a i from rfl)
  · exact scalarFault hk (show exec (.sst32 d a i) s = scalarStore s 4 d a i from rfl)
  · exact scalarFault hk (show exec (.sst64 d a i) s = scalarStore s 8 d a i from rfl)

end Sys2Proof.Proofs
end

section
/-!
PROOFS. Monitors, arrival tags, byte barriers and numbered barriers (04: R129 to R139).
-/

open Sys2Proof Sys2Proof.Machine Sys2Proof.Claims

namespace Sys2Proof.Proofs

/-! ## Steps of a wave and its gang -/

theorem onWave_onWave (d : Dev) (k : Issue) (f h : Wave → Wave) (hf : ∀ w, (f w).id = w.id) :
    (d.onWave k f).onWave k h = d.onWave k fun w => h (f w) := by
  simp only [Dev.onWave, Dev.modWave]
  rw [modIf_modIf (fun w : Wave => w.id == k.wave.id) f h fun w => by rw [hf]]

/-- Only the gang's strands matter to a step of the gang. -/
theorem gangStep_congr (s : State) (k : Issue) {f h : Nat → Strand → Strand} (hfh : ∀ t x, inGang k.gang t = true → f t x = h t x) :
    gangStep s k f = gangStep s k h := by
  have heq : (fun (t : Nat) (x : Strand) => if inGang k.gang t then f t x else x) = fun t x => if inGang k.gang t then h t x else x :=
    funext fun t => funext fun x => if_ctx_congr Iff.rfl (fun ht => hfh t x ht) fun _ => rfl
  simp only [gangStep, heq]

/-- A wave's change, one of its gang, and the gang passes. -/
theorem onWave_onGang_advance (s : State) (k : Issue) (f : Wave → Wave) (h : Nat → Strand → Strand) (len : Nat)
    (hid : ∀ w, (f w).id = w.id) :
    ({ s with dev := (((unlatched s).onWave k f).onGang k h).advance k len } : State) = waveStep s k fun w => { f w with
      strands := (f w).strands.mapIdx fun t x => if inGang k.gang t then passed len (h t x) else x } := by
  have hmerge : ((unlatched s).onWave k f).onGang k h = (unlatched s).onWave k fun w => (f w).modStrands k.gang h :=
    onWave_onWave _ k f _ hid
  rw [hmerge, unlatched, onWave_advance_eq s k (fun w => (f w).modStrands k.gang h) hid]
  refine congrArg (waveStep s k) (funext fun w => congrArg (fun l => ({ f w with strands := l } : Wave)) ?_)
  simp only [Wave.modStrands, List.mapIdx_mapIdx]
  congr 1
  funext t x
  simp only [Function.comp_apply]
  split <;> rfl

theorem stallEach_eq (s : State) (k : Issue) (what : Nat → WaitFor) :
    ({ s with dev := (unlatched s).stallEach k what } : State) = gangStep s k fun t x => waits s.dev.clock (what t) x :=
  onGang_eq s k _

/-! ## Monitors (R129 to R131) -/

theorem findSome?_eq_none_of {α β : Type} {f : α → Option β} {l : List α} (h : ∀ x ∈ l, f x = none) : l.findSome? f = none := by
  simpa [List.findSome?_eq_none_iff] using h

section
variable {s : State} {k : Issue} {a : SReg}

/-- The monitors of lines of this package. -/
def localMonitor (d : Dev) (pa : Nat → Nat) (t : Nat) : Monitor := ⟨pa t / 128, (d.lineTimes (pa t)).1, none⟩

theorem monFails_of_glob (d : Dev) (L : List Nat) (pa : Nat → Nat) : d.monFails k (L.map fun t => (t, .glob (pa t))) = none :=
  findSome?_eq_none_of fun p hp => by
    obtain ⟨t, -, rfl⟩ := List.mem_map.mp hp
    rfl

theorem armMonitors_of_glob (d : Dev) (pa : Nat → Nat) : d.armMonitors k (k.strands.map fun t => (t, .glob (pa t))) =
    d.onGang k fun t x => { x with monitor := if t ∈ k.strands then some (localMonitor d pa t) else none } := by
  simp only [Dev.armMonitors, all_isGlob, if_true]
  congr 1
  funext t x
  by_cases ht : t ∈ k.strands
  · rw [find?_map_self ht, if_pos ht]
    rfl
  · rw [if_neg ht, List.find?_eq_none.mpr fun p hp => by
      obtain ⟨u, hu, rfl⟩ := List.mem_map.mp hp
      simp only [beq_iff_eq]
      rintro rfl
      exact ht hu]
    rfl

theorem mon_claim {i : BitVec 12} {pa : Nat → Nat} (hk : s.dev.issuer? = some k)
    (hpa : ∀ t, inGang k.gang t = true →
      s.dev.checkGlobal k.core k.ctx ((k.strand t).rd a + i.signExtend 64).toNat 1 needR false = .ok (.glob (pa t))) :
    ∃ u, exec (.mon a i) s = .next u ∧ Cached (gangStep s k fun t x =>
      passed 4 { x with monitor := some ⟨pa t / 128, (u.dev.lineTimes (pa t)).1, none⟩ }) u := by
  have hcached := CachedDev.lookedAll (unlatched s) k.core k.ctx (k.strands.map fun u => (strandAddress k a i u).toNat)
  generalize hz : (unlatched s).lookedAll k.core k.ctx (k.strands.map fun u => (strandAddress k a i u).toNat) = z at hcached
  have hdev : exec (.mon a i) s = .next { s with dev := (z.armMonitors k (k.strands.map fun t => (t, .glob (pa t)))).advance k 4 } := by
    rw [show exec (.mon a i) s = execMon a i s from rfl, execMon, issue_next s k _ hk]
    refine congrArg (fun d => Host.Outcome.next { s with dev := d }) ((scalarAccess_of_ok hpa).trans ?_)
    rw [hz, monFails_of_glob]
    refine if_pos (List.all_eq_true.mpr fun p hp => ?_)
    obtain ⟨t, -, rfl⟩ := List.mem_map.mp hp
    rfl
  refine ⟨_, hdev, ?_⟩
  rw [armMonitors_of_glob]
  have hstep : gangStep s k (fun t x => passed 4 { x with monitor := some (localMonitor z pa t) }) = { s with dev :=
      ((unlatched s).onGang k fun t x => { x with monitor := if t ∈ k.strands then some (localMonitor z pa t) else none }).advance k 4 } := by
    refine Eq.trans ?_ ((onGang_eq s k _).symm.trans (congrArg (fun d => ({ s with dev := d } : State)) (onGang_onGang (unlatched s) k _ _).symm))
    refine gangStep_congr s k fun t x ht => ?_
    rw [if_pos (mem_strands_iff.mpr ht)]
    rfl
  have hview : (fun (t : Nat) (x : Strand) => passed 4 { x with monitor := some ⟨pa t / 128,
      (((z.onGang k fun t x => { x with monitor := if t ∈ k.strands then some (localMonitor z pa t) else none }).advance k 4).lineTimes (pa t)).1,
        none⟩ }) = fun t x => passed 4 { x with monitor := some (localMonitor z pa t) } := rfl
  refine Eq.mpr (congrArg (fun f => Cached (gangStep s k f) _) hview) ?_
  rw [hstep]
  obtain ⟨a, b, c, e, rfl⟩ := exists_of_cachedDev hcached
  rfl

/-- A strand's wait has ended or it has no monitor. -/
def notAsleep (k : Issue) (t : Nat) : Bool := match (k.strand t).monitor with | none => true | some m => m.hit.isSome

theorem notAsleep_iff {t : Nat} : notAsleep k t = true ↔
    (k.strand t).monitor = none ∨ ∃ m h, (k.strand t).monitor = some m ∧ m.hit = some h := by
  rw [notAsleep]
  cases (k.strand t).monitor with
  | none => simp
  | some m => simp [Option.isSome_iff_exists]

/-- The time of the write that ends the gang's wait. -/
def wakeTime (k : Issue) : Nat := (leastBy id (k.strands.filterMap fun t => (k.strand t).monitor.bind (·.hit))).getD 0

/-- The gang goes on, or sleeps (R130). -/
def mwaitDev (k : Issue) (a : SReg) (x : Dev) : Dev :=
  if k.strands.any (notAsleep k) then ((x.onWave k (·.adopt (wakeTime k))).onGang k fun _ y => { y with monitor := none }).advance k 4
  else x.stallEach k fun t => .mwait (if ((k.strand t).rd a).toNat = 0 then none else some (x.clock + ((k.strand t).rd a).toNat))

theorem mwait_next (hk : s.dev.issuer? = some k) : exec (.mwait a) s = .next { s with dev := mwaitDev k a (unlatched s) } :=
  (show exec (.mwait a) s = execMwait a s from rfl).trans (issue_next s k _ hk)

theorem mwait_claim (hk : s.dev.issuer? = some k) :
    let free (t : Nat) : Prop := (k.strand t).monitor = none ∨ ∃ m h, (k.strand t).monitor = some m ∧ m.hit = some h
    ((∃ t, inGang k.gang t = true ∧ free t) → ∃ c, exec (.mwait a) s = .next (waveStep s k fun w => { w with
        lts := max w.lts c
        strands := w.strands.mapIdx fun t x => if inGang k.gang t then passed 4 { x with monitor := none } else x })) ∧
    ((∀ t, inGang k.gang t = true → ¬ free t) → exec (.mwait a) s = .next (gangStep s k fun t x =>
      waits s.dev.clock (.mwait (if ((k.strand t).rd a).toNat = 0 then none
        else some (s.dev.clock + ((k.strand t).rd a).toNat))) x)) := by
  refine ⟨?_, fun hasleep => ?_⟩
  · rintro ⟨t, ht, hfree⟩
    refine ⟨wakeTime k, (mwait_next hk).trans (congrArg Host.Outcome.next ?_)⟩
    rw [mwaitDev, if_pos (List.any_eq_true.mpr ⟨t, mem_strands_iff.mpr ht, notAsleep_iff.mpr hfree⟩)]
    exact onWave_onGang_advance s k (·.adopt (wakeTime k)) (fun _ x => { x with monitor := none }) 4 fun _ => rfl
  · rw [mwait_next hk, mwaitDev, if_neg, stallEach_eq]
    · rfl
    rw [Bool.not_eq_true, List.any_eq_false]
    exact fun t ht h => hasleep t (mem_strands_iff.mp ht) (notAsleep_iff.mp h)

end

theorem modWave_eq_map (d : Dev) (id : Nat) (f : Wave → Wave) :
    d.modWave id f = { d with waves := d.waves.map fun y => if y.id = id then f y else y } := by
  simp only [Dev.modWave, modIf, beq_iff_eq]

theorem mwaitTimeout_claim {s : State} {w : Wave} {strand since till : Nat} {x : Strand} (hw : s.dev.wave? w.id = some w)
    (hx : w.strands[strand]? = some x) (hwait : x.waiting = some ⟨since, .mwait (some till)⟩) (hport : w.port.isSome = true)
    (htill : till ≤ s.dev.clock) :
    exec (.mwaitTimeout w.id strand) s = .next { s with dev := { s.dev with
      waves := s.dev.waves.map fun y => if y.id = w.id then { y with
        strands := y.strands.mapIdx fun t z => if inGang x.gang t
          then { z with pc := z.pc + 4, waiting := none, monitor := none } else z } else y } } := by
  have hnot : (decide (s.dev.clock < till) || w.port.isNone) = false := by
    rw [Option.isNone_eq_false_iff.mpr hport, Bool.or_false, decide_eq_false (not_lt.mpr htill)]
  rw [show exec (.mwaitTimeout w.id strand) s = execMwaitTimeout w.id strand s from rfl, execMwaitTimeout, onDev]
  simp only [hw, hx, hwait, hnot, Bool.false_eq_true, if_false, modWave_eq_map]
  rfl

/-- A strand has left, or has slept for longer than the limit of a context without a server (R131). -/
def longAsleep (now : Nat) (x : Strand) : Bool :=
  x.exited || (match x.waiting with
    | some ⟨t, .mwait _⟩ => decide (t + 24000 < now)
    | some ⟨t, .yield _⟩ => decide (t + 24000 < now)
    | _ => false)

theorem longAsleep_of {now : Nat} {x : Strand} (h : x.exited = true ∨ ∃ since o, x.waiting = some ⟨since, .mwait o⟩ ∧ since + 24000 < now) :
    longAsleep now x = true := by
  rw [longAsleep]
  rcases h with h | ⟨since, o, h, hlt⟩
  · rw [h, Bool.true_or]
  · simp only [h, hlt, decide_true, Bool.or_true]

theorem portSuspend_claim {s : State} {w : Wave} {b : Block} {p : Nat} (hw : s.dev.wave? w.id = some w) (hp : w.port = some p)
    (hb : s.dev.block? w.block = some b) (hserver : s.dev.server? b.ctx (.port b.core) = none) (hlive : w.live = true)
    (hasleep : ∀ x ∈ w.strands, x.exited = true ∨ ∃ since o, x.waiting = some ⟨since, .mwait o⟩ ∧ since + 24000 < s.dev.clock) :
    exec (.portSuspend w.id) s = .next { s with dev := { s.dev with
      waves := s.dev.waves.map fun y => if y.id = w.id then { y with port := none } else y } } := by
  rw [show exec (.portSuspend w.id) s = execPortSuspend w.id s from rfl, execPortSuspend, onDev]
  simp only [hw, hp, hb, hserver, hlive, Bool.true_and]
  have hall : ∀ x ∈ w.strands, longAsleep s.dev.clock x = true := fun x hx => longAsleep_of (hasleep x hx)
  exact congrArg (fun d => Host.Outcome.next { s with dev := d }) ((if_pos (List.all_eq_true.mpr hall)).trans (modWave_eq_map _ _ _))

/-- Settles O14: each clause is a lemma above about one instruction or step. -/
theorem monitors : Obligations.Monitors := by
  unfold Obligations.Monitors
  exact ⟨⟨fun _ _ _ _ _ hk hpa => mon_claim hk hpa, fun _ _ _ hk => mwait_claim hk,
    fun _ _ _ _ _ _ hw hx hwait hport htill => mwaitTimeout_claim hw hx hwait hport htill⟩,
    fun _ _ _ _ hw hp hb hserver hlive hasleep => portSuspend_claim hw hp hb hserver hlive hasleep⟩

/-! ## Arrival tags (R132, R133) -/

section
variable {s : State} {k : Issue} {a : SReg}

/-- Some strand's mask names a tag that the block does not have. -/
def beyondTags (k : Issue) (a : SReg) : Bool := k.strands.any fun t => k.block.beyondTags ((k.strand t).rd a)

theorem beyondTags_iff : beyondTags k a = true ↔ ∃ t, inGang k.gang t = true ∧ (k.strand t).rd a >>> k.block.ntags ≠ 0 := by
  simp only [beyondTags, List.any_eq_true, mem_strands_iff, Block.beyondTags, bne_iff_ne]

/-- A guard on the tags that a gang's strands name. -/
def tagCause (k : Issue) (a : SReg) : Option Nat := if beyondTags k a then some cRights else none

theorem guarded_after {f : Issue → Dev → Dev} {c : Issue → Dev → Option Nat} {e : Nat} (hk : s.dev.issuer? = some k)
    (hc : c k (unlatched s) = some e) : guarded s c f = .next (after s fun d => d.trap k e) :=
  guarded_trap s k c f e hk hc

theorem beyond_traps {f : Issue → Dev → Dev} (hk : s.dev.issuer? = some k) (h : beyondTags k a = true) :
    guarded s (fun k _ => tagCause k a) f = .next (after s fun d => d.trap k cRights) :=
  guarded_after hk (if_pos h)

/-- What a strand waits for is there. -/
theorem tagsMet_iff {all : Bool} {arrived m : Word} :
    tagsMet all arrived m = true ↔ if all then arrived &&& m = m else m = 0 ∨ arrived &&& m ≠ 0 := by
  rw [tagsMet]
  cases all <;> simp

/-- The gang goes on with the largest time of its tags, or waits (R132). -/
def tagWaitDev (all : Bool) (a : SReg) (k : Issue) (x : Dev) : Dev :=
  if k.strands.all fun t => tagsMet all k.block.arrived ((k.strand t).rd a) then
    (x.onWave k fun w => w.adopt (tagTimes k a)).advance k 4
  else x.stallEach k fun t => .tags all ((k.strand t).rd a)

theorem tagWait_claim {all : Bool} {i : Instr} (hi : exec i s = tagWait s all a) (hk : s.dev.issuer? = some k) (hbeyond : beyondTags k a = false) :
    ((∀ t, inGang k.gang t = true → tagsMet all k.block.arrived ((k.strand t).rd a) = true) → exec i s = .next (passedAt s k (tagTimes k a))) ∧
      ((∃ t, inGang k.gang t = true ∧ ¬ tagsMet all k.block.arrived ((k.strand t).rd a) = true) → exec i s = .next (gangStep s k fun t x =>
        waits s.dev.clock (.tags all ((k.strand t).rd a)) x)) := by
  have hnext : exec i s = .next { s with dev := tagWaitDev all a k (unlatched s) } :=
    hi.trans (guarded_next s k _ (tagWaitDev all a) hk (if_neg (by rw [Bool.not_eq_true]; exact hbeyond)))
  rw [hnext, tagWaitDev]
  refine ⟨fun h => ?_, fun h => ?_⟩
  · rw [if_pos (List.all_eq_true.mpr fun t ht => h t (mem_strands_iff.mp ht))]
    exact congrArg Host.Outcome.next (onWave_advance_eq s k (fun w => w.adopt (tagTimes k a)) (fun _ => rfl) 4)
  · obtain ⟨t, ht, hnot⟩ := h
    rw [if_neg fun hall => hnot (List.all_eq_true.mp hall t (mem_strands_iff.mpr ht)), stallEach_eq]

end

/-! ### `tagffs` -/

/-- The arrived tags as bits. -/
def arrivedOf (T : List Tag) : Word := T.foldl (fun m t => m ||| (1#64 <<< t.tag)) 0

theorem getLsbD_arrivedOf (T : List Tag) {i : Nat} (hi : i < 64) : (arrivedOf T).getLsbD i = true ↔ ∃ g ∈ T, g.tag = i := by
  rw [arrivedOf, getLsbD_foldl_or (fun t : Tag => 1#64 <<< t.tag)]
  simp only [BitVec.getLsbD_shiftLeft, BitVec.getLsbD_one]
  constructor
  · rintro (h | ⟨g, hg, h⟩)
    · simp at h
    · exact ⟨g, hg, by simp at h; omega⟩
  · rintro ⟨g, hg, rfl⟩
    exact .inr ⟨g, hg, by simp [hi]⟩

/-- The lowest tag of a mask that has arrived, or 64 (R133). -/
def lowestTag (T : List Tag) (m : Word) : Nat := ((List.range 64).find? fun i => (arrivedOf T &&& m).getLsbD i).getD 64

/-- The tags that stay when one has been taken. -/
def tagsLeft (x : Nat) (T : List Tag) : List Tag := T.filter fun g => !(x != 64 && x == g.tag)

theorem lowestTag_cases (T : List Tag) (m : Word) :
    (lowestTag T m = 64 ∧ ∀ i, i < 64 → ¬ ((arrivedOf T).getLsbD i = true ∧ m.getLsbD i = true)) ∨
      (lowestTag T m < 64 ∧ ((arrivedOf T).getLsbD (lowestTag T m) = true ∧ m.getLsbD (lowestTag T m) = true) ∧
        ∀ i, i < lowestTag T m → ¬ ((arrivedOf T).getLsbD i = true ∧ m.getLsbD i = true)) := by
  have hbit : ∀ i, (arrivedOf T &&& m).getLsbD i = true ↔ (arrivedOf T).getLsbD i = true ∧ m.getLsbD i = true := fun i => by
    rw [BitVec.getLsbD_and, Bool.and_eq_true]
  rw [lowestTag]
  cases hfind : (List.range 64).find? fun i => (arrivedOf T &&& m).getLsbD i with
  | none =>
    refine .inl ⟨rfl, fun i hi h => ?_⟩
    exact List.find?_eq_none.mp hfind i (List.mem_range.mpr hi) ((hbit i).mpr h)
  | some j =>
    obtain ⟨hj, hlt, hmin⟩ := List.find?_range_eq_some.mp hfind
    refine .inr ⟨List.mem_range.mp hlt, (hbit j).mp hj, fun i hi h => ?_⟩
    have hnot := hmin i hi
    rw [(hbit i).mpr h] at hnot
    exact Bool.false_ne_true hnot

theorem getLsbD_arrivedOf_tagsLeft (x : Nat) (T : List Tag) {i : Nat} (hi : i < 64) :
    (arrivedOf (tagsLeft x T)).getLsbD i = true ↔ (arrivedOf T).getLsbD i = true ∧ x ≠ i := by
  rw [getLsbD_arrivedOf _ hi, getLsbD_arrivedOf _ hi]
  simp only [tagsLeft, List.mem_filter, Bool.not_eq_true', Bool.and_eq_false_iff, bne_eq_false_iff_eq, beq_eq_false_iff_ne]
  constructor
  · rintro ⟨g, ⟨hg, hx⟩, rfl⟩
    exact ⟨⟨g, hg, rfl⟩, by omega⟩
  · rintro ⟨⟨g, hg, rfl⟩, hx⟩
    exact ⟨g, ⟨hg, .inr hx⟩, rfl⟩

/-- Tag `i` is there for strand `t`, and no lower strand has taken it. -/
def FreeTag (T : List Tag) (m : Nat → Word) (L : List Nat) (x : Nat → Nat) (t i : Nat) : Prop :=
  (arrivedOf T).getLsbD i = true ∧ (m t).getLsbD i = true ∧ ∀ v ∈ L, v < t → x v ≠ i

/-- What strands, in rising order, take of the arrived tags (R133). -/
def TakesTags (T : List Tag) (m : Nat → Word) (L : List Nat) (x : Nat → Nat) : Prop :=
  ∀ t ∈ L, (x t = 64 ∧ ∀ i, i < 64 → ¬ FreeTag T m L x t i) ∨ (x t < 64 ∧ FreeTag T m L x t (x t) ∧ ∀ i, i < x t → ¬ FreeTag T m L x t i)

/-- Strand `t` takes `y`, and the others as they do. -/
def giveTag (t y : Nat) (x : Nat → Nat) (v : Nat) : Nat := if v = t then y else x v

theorem giveTag_self (t y : Nat) (x : Nat → Nat) : giveTag t y x t = y := if_pos rfl

theorem giveTag_of_ne {t v : Nat} (h : v ≠ t) (y : Nat) (x : Nat → Nat) : giveTag t y x v = x v := if_neg h

/-- The first strand takes the lowest tag, and the others what it has left. -/
theorem takesTags_cons {T : List Tag} {m : Nat → Word} {t : Nat} {L : List Nat} {x : Nat → Nat} (hL : ∀ u ∈ L, t < u)
    (h : TakesTags (tagsLeft (lowestTag T (m t)) T) m L x) :
    TakesTags T m (t :: L) (giveTag t (lowestTag T (m t)) x) := by
  intro u hu
  rcases List.mem_cons.mp hu with rfl | hu
  · have hfirst : ∀ v ∈ u :: L, ¬ v < u := fun v hv => by
      rcases List.mem_cons.mp hv with rfl | hv
      · omega
      · have := hL v hv
        omega
    have hfree : ∀ i, FreeTag T m (u :: L) (giveTag u (lowestTag T (m u)) x) u i ↔
        (arrivedOf T).getLsbD i = true ∧ (m u).getLsbD i = true := fun i =>
      ⟨fun ⟨h1, h2, _⟩ => ⟨h1, h2⟩, fun ⟨h1, h2⟩ => ⟨h1, h2, fun v hv hlt => absurd hlt (hfirst v hv)⟩⟩
    simp only [hfree, giveTag_self]
    exact lowestTag_cases T (m u)
  · have htu := hL u hu
    have hx : ∀ v ∈ L, giveTag t (lowestTag T (m t)) x v = x v := fun v hv => giveTag_of_ne (by have := hL v hv; omega) _ _
    have hfree : ∀ i, i < 64 → (FreeTag T m (t :: L) (giveTag t (lowestTag T (m t)) x) u i ↔
        FreeTag (tagsLeft (lowestTag T (m t)) T) m L x u i) := fun i hi => by
      rw [FreeTag, FreeTag, getLsbD_arrivedOf_tagsLeft _ _ hi]
      constructor
      · rintro ⟨harr, hm, hv⟩
        refine ⟨⟨harr, ?_⟩, hm, fun v hvL hlt => ?_⟩
        · have := hv t List.mem_cons_self htu
          rwa [giveTag_self] at this
        · have := hv v (List.mem_cons_of_mem _ hvL) hlt
          rwa [hx v hvL] at this
      · rintro ⟨⟨harr, hne⟩, hm, hv⟩
        refine ⟨harr, hm, fun v hvL hlt => ?_⟩
        rcases List.mem_cons.mp hvL with rfl | hvL
        · rwa [giveTag_self]
        · rw [hx v hvL]
          exact hv v hvL hlt
    rw [hx u hu]
    rcases h u hu with ⟨h64, hnone⟩ | ⟨hlt, hfr, hmin⟩
    · exact .inl ⟨h64, fun i hi hf => hnone i hi ((hfree i hi).mp hf)⟩
    · exact .inr ⟨hlt, (hfree _ hlt).mpr hfr, fun i hi hf => hmin i hi ((hfree i (by omega)).mp hf)⟩

section
variable {k : Issue} {r a : SReg}

/-- The strands' registers, and what the wave adopts. -/
def tookWave (r : SReg) (L : List Nat) (x : Nat → Nat) (c : Nat) (w : Wave) : Wave := { w with
  lts := max w.lts c
  strands := w.strands.mapIdx fun t y => if t ∈ L then y.wr r (BitVec.ofNat 64 (x t)) else y }

/-- The tags that the strands leave. -/
def tookBlock (L : List Nat) (x : Nat → Nat) (b : Block) : Block := { b with
  tags := b.tags.filter fun g => !(L.any fun t => x t != 64 && x t == g.tag) }

/-- What the strands' turns at the tags leave of a device (R133). -/
structure TookTags (d e : Dev) (k : Issue) (r : SReg) (L : List Nat) (x : Nat → Nat) (c : Nat) : Prop where
  waves : e.waves = d.waves.map fun w => if w.id = k.wave.id then tookWave r L x c w else w
  blocks : e.blocks = d.blocks.map fun b => if b.id = k.block.id then tookBlock L x b else b

theorem inGang_single {t u : Nat} (ht : t < 8) : inGang (1#8 <<< t) u = decide (u = t) := by
  simp only [inGang, BitVec.getLsbD_shiftLeft, BitVec.getLsbD_one]
  by_cases h : u = t
  · subst h
    simp [ht]
  · by_cases hu : u < 8
    · simp [hu, h]
      omega
    · simp [hu, h]

theorem modStrands_single {t : Nat} (ht : t < 8) (r : SReg) (x c : Nat) (w : Wave) :
    (w.modStrands (1#8 <<< t) fun _ s => s.wr r (BitVec.ofNat 64 x)).adopt c = tookWave r [t] (fun _ => x) c w := by
  simp only [Wave.modStrands, Wave.adopt, tookWave, inGang_single ht, List.mem_singleton, decide_eq_true_eq]

theorem adopt_zero (w : Wave) : w.adopt 0 = w := by
  rw [Wave.adopt, Nat.max_zero]

theorem modIf_eq_map {α : Type} (p : α → Bool) (f : α → α) (l : List α) : modIf p f l = l.map fun x => if p x = true then f x else x := rfl

theorem takeTag_took {d : Dev} {b : Block} (hb : d.block? k.block.id = some b) {t : Nat} (ht : t < 8) :
    ∃ c, TookTags d (d.takeTag k r a t) k r [t] (fun _ => lowestTag b.tags ((k.strand t).rd a)) c := by
  have hid : b.id = k.block.id := by simpa using List.find?_some hb
  rw [Dev.takeTag.eq_def]
  simp only [hb]
  cases hfind : (List.range 64).find? fun i => (b.arrived &&& (k.strand t).rd a).getLsbD i with
  | none =>
    have hlow : lowestTag b.tags ((k.strand t).rd a) = 64 := by
      rw [lowestTag]
      exact congrArg (·.getD 64) hfind
    refine ⟨0, ⟨?_, ?_⟩⟩
    · simp only [hlow, Dev.onWave, Dev.modWave, modIf_eq_map, beq_iff_eq]
      refine List.map_congr_left fun w _ => if_congr Iff.rfl ?_ rfl
      exact (adopt_zero _).symm.trans (modStrands_single ht r 64 0 w)
    · simp only [hlow, tookBlock, List.any_cons, List.any_nil, Bool.or_false, bne_self_eq_false, Bool.false_and, Bool.not_false, List.filter_true]
      exact (List.map_id'' (fun b => by split <;> rfl) d.blocks).symm
  | some i =>
    have hlow : lowestTag b.tags ((k.strand t).rd a) = i := by
      rw [lowestTag]
      exact congrArg (·.getD 64) hfind
    have hlt : i < 64 := List.mem_range.mp (List.mem_of_find?_eq_some hfind)
    refine ⟨b.tagTime (1#64 <<< i), ⟨?_, ?_⟩⟩
    · simp only [hlow, Dev.onWave, Dev.modWave, Dev.modBlock]
      rw [modIf_modIf _ _ _ (by intro x; rfl)]
      simp only [modIf_eq_map, beq_iff_eq]
      exact List.map_congr_left fun w _ => if_congr Iff.rfl (modStrands_single ht r i _ w) rfl
    · simp only [hlow, Dev.onWave, Dev.modWave, Dev.modBlock, modIf_eq_map, beq_iff_eq, hid]
      refine List.map_congr_left fun b _ => if_congr Iff.rfl ?_ rfl
      refine congrArg (fun l => ({ b with tags := l } : Block)) (List.filter_congr fun g _ => ?_)
      have h64 : i ≠ 64 := by omega
      simp only [List.any_cons, List.any_nil, Bool.or_false, bne_iff_ne.mpr h64, Bool.true_and]
      rw [bne, BEq.comm]

theorem any_congr_of_mem {α : Type} {l : List α} {p q : α → Bool} (h : ∀ x ∈ l, p x = q x) : l.any p = l.any q := by
  induction l with
  | nil => rfl
  | cons x l ih => rw [List.any_cons, List.any_cons, h x List.mem_cons_self, ih fun y hy => h y (List.mem_cons_of_mem _ hy)]

/-- A record changed twice under one number. -/
theorem ite_ite_of_keeps {α : Type} {p : α → Prop} [DecidablePred p] {f h g : α → α} (hp : ∀ x, p (f x) ↔ p x) (hg : ∀ x, h (f x) = g x)
    (x : α) : (fun x => if p x then h x else x) (if p x then f x else x) = if p x then g x else x := by
  by_cases hx : p x
  · simp only [if_pos hx, if_pos ((hp x).mpr hx), hg]
  · simp only [if_neg hx]

/-- The strands' turns one after the other. -/
theorem tookTags_cons {d e f : Dev} {t y c c' : Nat} {L : List Nat} {x : Nat → Nat} (ht : t ∉ L) (h : TookTags d e k r [t] (fun _ => y) c)
    (g : TookTags e f k r L x c') : TookTags d f k r (t :: L) (giveTag t y x) (max c c') := by
  have hx : ∀ v ∈ L, giveTag t y x v = x v := fun v hv => giveTag_of_ne (by rintro rfl; exact ht hv) y x
  refine ⟨?_, ?_⟩
  · rw [g.waves, h.waves, List.map_map]
    refine List.map_congr_left fun w _ => ite_ite_of_keeps (p := fun w : Wave => w.id = k.wave.id) (f := tookWave r [t] (fun _ => y) c)
      (h := tookWave r L x c') (g := tookWave r (t :: L) (giveTag t y x) (max c c')) (fun _ => Iff.rfl) (fun w => ?_) w
    simp only [tookWave]
    rw [List.mapIdx_mapIdx, max_assoc]
    refine congrArg (fun l => ({ w with lts := max w.lts (max c c'), strands := l } : Wave)) ?_
    congr 1
    funext u z
    simp only [Function.comp_apply, List.mem_cons, List.not_mem_nil, or_false]
    by_cases hu : u ∈ L
    · have hut : u ≠ t := by rintro rfl; exact ht hu
      simp only [hu, hut, if_true, if_false, or_true, hx u hu]
    · by_cases hut : u = t
      · subst hut
        simp only [hu, if_true, if_false, true_or, giveTag_self]
      · simp only [hu, hut, if_false, or_false]
  · rw [g.blocks, h.blocks, List.map_map]
    refine List.map_congr_left fun b _ => ite_ite_of_keeps (p := fun b : Block => b.id = k.block.id) (f := tookBlock [t] fun _ => y)
      (h := tookBlock L x) (g := tookBlock (t :: L) (giveTag t y x)) (fun _ => Iff.rfl) (fun b => ?_) b
    simp only [tookBlock]
    rw [List.filter_filter]
    refine congrArg (fun l => ({ b with tags := l } : Block)) (List.filter_congr fun z _ => ?_)
    have hany : (L.any fun v => giveTag t y x v != 64 && giveTag t y x v == z.tag) = L.any fun v => x v != 64 && x v == z.tag := by
      exact any_congr_of_mem fun v hv => by rw [hx v hv]
    rw [List.any_cons, List.any_cons, List.any_nil, Bool.or_false, giveTag_self, hany, Bool.not_or, Bool.and_comm]

theorem tookTags_nil (d : Dev) (x : Nat → Nat) : TookTags d d k r [] x 0 := by
  have hwave : ∀ w, tookWave r [] x 0 w = w := fun w => by
    have hkeep : (w.strands.mapIdx fun u z => if u ∈ ([] : List Nat) then z.wr r (BitVec.ofNat 64 (x u)) else z) = w.strands :=
      List.ext_getElem? fun i => by simp
    rw [tookWave, hkeep, Nat.max_zero]
  have hblock : ∀ b, tookBlock [] x b = b := fun b => by
    simp only [tookBlock, List.any_nil, Bool.not_false, List.filter_true]
  refine ⟨(List.map_id'' (fun w => ?_) d.waves).symm, (List.map_id'' (fun b => ?_) d.blocks).symm⟩
  · rw [hwave, ite_self]
  · rw [hblock, ite_self]

theorem foldl_takeTag {L : List Nat} (hL : L.Pairwise (· < ·)) (h8 : ∀ t ∈ L, t < 8) {d : Dev} {b : Block} (hb : d.block? k.block.id = some b) :
    ∃ x c, TookTags d (L.foldl (fun d t => d.takeTag k r a t) d) k r L x c ∧ TakesTags b.tags (fun t => (k.strand t).rd a) L x := by
  induction L generalizing d b with
  | nil => exact ⟨fun _ => 64, 0, tookTags_nil d _, fun t ht => absurd ht List.not_mem_nil⟩
  | cons t L ih =>
    obtain ⟨hlt, hL⟩ := List.pairwise_cons.mp hL
    obtain ⟨c, hc⟩ := takeTag_took (r := r) (a := a) hb (h8 t List.mem_cons_self)
    have hb' : (d.takeTag k r a t).block? k.block.id = some { b with tags := tagsLeft (lowestTag b.tags ((k.strand t).rd a)) b.tags } := by
      have hid : b.id = k.block.id := by simpa using List.find?_some hb
      rw [Dev.block?, hc.blocks, List.find?_map]
      have hkeep : ((fun b : Block => b.id == k.block.id) ∘ fun z => if z.id = k.block.id
          then tookBlock [t] (fun _ => lowestTag b.tags ((k.strand t).rd a)) z else z) = fun b => b.id == k.block.id := by
        funext b
        simp only [Function.comp_apply]
        split <;> rfl
      rw [hkeep, show d.blocks.find? (fun b => b.id == k.block.id) = some b from hb, Option.map_some, if_pos hid]
      simp only [tookBlock, tagsLeft, List.any_cons, List.any_nil, Bool.or_false]
    obtain ⟨x, c', hx, htakes⟩ := ih hL (fun u hu => h8 u (List.mem_cons_of_mem _ hu)) hb'
    exact ⟨_, _, tookTags_cons (fun h => by have := hlt t h; omega) hc hx, takesTags_cons hlt htakes⟩

end

section
variable {s : State} {k : Issue}

/-- The wave after its gang's turn at the tags. -/
def tookPassed (k : Issue) (r : SReg) (x : Nat → Nat) (c : Nat) (w : Wave) : Wave := { w with
  lts := max w.lts c
  strands := w.strands.mapIdx fun t y => if inGang k.gang t then
    passed 4 { y with s := if r = 0 then y.s else y.s.set r.toNat (BitVec.ofNat 64 (x t)) } else y }

/-- The gang's turn at the tags (R133). -/
def tagffsDev (d a : SReg) (k : Issue) (x : Dev) : Dev :=
  if k.block.tagTurn.1 = x.clock ∧ k.wave.idx < k.block.tagTurn.2 then x.stall k (.cycle x.clock)
  else (k.strands.foldl (fun x t => x.takeTag k d a t)
    (x.modBlock k.block.id fun b => { b with tagTurn := (x.clock, k.wave.idx) })).advance k 4

theorem tagffs_next {d a : SReg} (hk : s.dev.issuer? = some k) (hbeyond : beyondTags k a = false) :
    exec (.tagffs d a) s = .next { s with dev := tagffsDev d a k (unlatched s) } :=
  (show exec (.tagffs d a) s = execTagffs d a s from rfl).trans
    (guarded_next s k _ (tagffsDev d a) hk (if_neg (by rw [Bool.not_eq_true]; exact hbeyond)))

theorem tagffs_claim {d a : SReg} (hk : s.dev.issuer? = some k) (hbeyond : beyondTags k a = false) :
    let later := k.block.tagTurn.1 = s.dev.clock ∧ k.wave.idx < k.block.tagTurn.2
    (later → exec (.tagffs d a) s = .next (stays s k (.cycle s.dev.clock))) ∧
      (¬ later → ∃ (u : State) (c : Nat) (x : Nat → Nat), exec (.tagffs d a) s = .next u ∧
        TakesTags k.block.tags (fun t => (k.strand t).rd a) k.strands x ∧
        u.dev.waves = (waveStep s k fun w => { w with
          lts := max w.lts c
          strands := w.strands.mapIdx fun t y => if inGang k.gang t then
            passed 4 { y with s := if d = 0 then y.s else y.s.set d.toNat (BitVec.ofNat 64 (x t)) } else y }).dev.waves ∧
        u.dev.blocks = s.dev.blocks.map fun b => if b.id = k.block.id
          then { b with
            tagTurn := (s.dev.clock, k.wave.idx)
            tags := b.tags.filter fun g => !(k.strands.any fun t => x t != 64 && x t == g.tag) } else b) := by
  refine ⟨fun hlater => ?_, fun hnow => ?_⟩
  · have hdev : tagffsDev d a k (unlatched s) = (unlatched s).stall k (.cycle s.dev.clock) := if_pos hlater
    rw [tagffs_next hk hbeyond, hdev]
    exact congrArg Host.Outcome.next (stays_eq_stall s k _)
  · obtain ⟨-, -, hblock, -⟩ := issuer?_eq_some hk
    have hb : (unlatched s).block? k.block.id = some k.block := by
      rw [← wave_block_eq hk]
      exact hblock
    have hb' : ((unlatched s).modBlock k.block.id fun b => { b with tagTurn := (s.dev.clock, k.wave.idx) }).block? k.block.id =
        some { k.block with tagTurn := (s.dev.clock, k.wave.idx) } := by
      have hfind := find_modIf (fun b : Block => b.id == k.block.id) (fun b : Block => b.id == k.block.id)
        (fun b => { b with tagTurn := (s.dev.clock, k.wave.idx) }) (fun _ => rfl) (unlatched s).blocks
      rw [show (unlatched s).blocks.find? (fun b => b.id == k.block.id) = some k.block from hb, Option.map_some, beq_self_eq_true, if_pos rfl]
        at hfind
      exact hfind
    obtain ⟨x, c, htook, htakes⟩ := foldl_takeTag (r := d) (a := a) (pairwise_strands k)
      (fun t ht => inGang_lt (mem_strands_iff.mp ht)) hb'
    have hdev : tagffsDev d a k (unlatched s) = (k.strands.foldl (fun x t => x.takeTag k d a t)
      ((unlatched s).modBlock k.block.id fun b => { b with tagTurn := (s.dev.clock, k.wave.idx) })).advance k 4 := if_neg hnow
    generalize k.strands.foldl (fun x t => x.takeTag k d a t)
      ((unlatched s).modBlock k.block.id fun b => { b with tagTurn := (s.dev.clock, k.wave.idx) }) = e at htook hdev
    refine ⟨_, c, x, (tagffs_next hk hbeyond).trans (by rw [hdev]), htakes, ?_, ?_⟩
    · simp only [Dev.advance, Dev.onGang, Dev.onWave, Dev.modWave, htook.waves, modIf_eq_map, List.map_map, beq_iff_eq, waveStep]
      refine List.map_congr_left fun w _ => ite_ite_of_keeps (p := fun w : Wave => w.id = k.wave.id) (f := tookWave d k.strands x c)
        (h := fun w => w.modStrands k.gang fun _ s => { s with pc := s.pc + BitVec.ofNat 64 4, waiting := none }) (g := tookPassed k d x c)
        (fun _ => Iff.rfl) (fun w => ?_) w
      simp only [tookWave, tookPassed, Wave.modStrands, List.mapIdx_mapIdx]
      refine congrArg (fun l => ({ w with lts := max w.lts c, strands := l } : Wave)) ?_
      congr 1
      funext t y
      simp only [Function.comp_apply, mem_strands_iff]
      by_cases ht : inGang k.gang t = true
      · simp only [ht, if_true, passed_wr]
      · simp only [ht, if_false, Bool.false_eq_true]
    · refine htook.blocks.trans ?_
      simp only [Dev.modBlock, modIf_eq_map, List.map_map, beq_iff_eq]
      refine List.map_congr_left fun b _ => ite_ite_of_keeps (p := fun b : Block => b.id = k.block.id)
        (f := fun b => { b with tagTurn := (s.dev.clock, k.wave.idx) }) (h := tookBlock k.strands x)
        (g := fun b => { b with tagTurn := (s.dev.clock, k.wave.idx), tags := b.tags.filter fun g => !(k.strands.any fun t => x t != 64 && x t == g.tag) })
        (fun _ => Iff.rfl) (fun _ => rfl) b

end

/-! ## Byte barriers (R135 to R138) -/

section
variable {s : State} {k : Issue} {d a : SReg} {i : BitVec 12}

/-- The offset of a strand's object, and where it lies. -/
def barOff (k : Issue) (a : SReg) (i : BitVec 12) (t : Nat) : Nat := (strandAddress k a i t).toNat
def barAt (k : Issue) (a : SReg) (i : BitVec 12) (t : Nat) : Nat := k.block.scratch.base + barOff k a i t

/-- A strand's object is aligned and within the allocation. -/
def BarInside (k : Issue) (a : SReg) (i : BitVec 12) (t : Nat) : Prop :=
  barOff k a i t % 16 = 0 ∧ barOff k a i t + 16 ≤ k.block.scratch.len

theorem byteBarAt_of_inside {t : Nat} (h : BarInside k a i t) : k.byteBarAt a i t = .ok (.loc k.core .scratch (barAt k a i t)) :=
  (if_neg (not_not.mpr h.1)).trans (if_neg (not_lt.mpr h.2))

/-- What a strand's object fails with. -/
def barFailure (k : Issue) (a : SReg) (i : BitVec 12) (t : Nat) : Option Nat :=
  match k.byteBarAt a i t with | .error e => some e | .ok _ => none

theorem barFailure_of_inside {t : Nat} (h : BarInside k a i t) : barFailure k a i t = none := by rw [barFailure, byteBarAt_of_inside h]

theorem byteBarCause_of_inside (h : ∀ t, t < 8 → inGang k.gang t = true → BarInside k a i t) : k.byteBarCause a i = none :=
  findSome?_eq_none_of fun t ht => barFailure_of_inside (h t (inGang_lt (mem_strands_iff.mp ht)) (mem_strands_iff.mp ht))

/-- The lowest failing strand decides the cause. -/
theorem byteBarCause_of_first {t e : Nat} (ht : inGang k.gang t = true) (hfirst : ∀ v, v < t → inGang k.gang v = true → BarInside k a i v)
    (he : k.byteBarAt a i t = .error e) : k.byteBarCause a i = some e := by
  obtain ⟨r, hr⟩ := exists_filterMap_eq_cons (g := barFailure k a i) (x := e) (pairwise_strands k) (mem_strands_iff.mpr ht)
    (by rw [barFailure, he]) fun v hv hvt => barFailure_of_inside (hfirst v hvt (mem_strands_iff.mp hv))
  have hhead := List.head?_filterMap (f := barFailure k a i) (l := k.strands)
  rw [hr] at hhead
  exact hhead.symm

/-! ### Updates -/

/-- One strand's update of its object. -/
def barUpdate (k : Issue) (d a : SReg) (i : BitVec 12) (f : Nat → Word → List Byte → List Byte) (p : Dev × Nat) (t : Nat) : Dev × Nat :=
  match k.byteBarAt a i t with
  | .error _ => p
  | .ok loc =>
    let (x, ti, _) := p.1.homeRmw k.ctx.n none true loc 16 k.wave.lts fun _ old => f k.wave.lts ((k.strand t).rd d) old
    (x, max p.2 ti)

/-- The strands' updates, in rising order. -/
def barUpdated (d a : SReg) (i : BitVec 12) (f : Nat → Word → List Byte → List Byte) (k : Issue) (x : Dev) : Dev :=
  ((k.strands.foldl (barUpdate k d a i f) (x, 0)).1.onWave k (·.adopt (k.strands.foldl (barUpdate k d a i f) (x, 0)).2)).advance k 4

theorem byteBarUpdate_eq (f : Nat → Word → List Byte → List Byte) : byteBarUpdate s d a i f =
    guarded s (fun k _ => k.byteBarCause a i) fun k x => x.whenSettled k (barUpdated d a i f k) := rfl

/-- The new bytes of `bbinit` (R136) and of `bbexp` (R137). -/
def bbinitBytes (c : Nat) (x : Word) (_old : List Byte) : List Byte := barBytes x.toNat 0 c
def bbexpBytes (c : Nat) (x : Word) (old : List Byte) : List Byte := barBytes (field old 0 4 + x.toNat) (field old 4 4) (max (field old 8 8) c)

theorem byteBar_traps {t : Nat} (hk : s.dev.issuer? = some k) (ht : inGang k.gang t = true)
    (hfirst : ∀ v, v < t → inGang k.gang v = true → BarInside k a i v) {j : Instr} (hj : j = .bbinit d a i ∨ j = .bbexp d a i ∨ j = .bbwait a i) :
    (barOff k a i t % 16 ≠ 0 → exec j s = .next (after s fun x => x.trap k cAlign)) ∧
      (barOff k a i t % 16 = 0 → k.block.scratch.len < barOff k a i t + 16 → exec j s = .next (after s fun x => x.trap k cRights)) := by
  have htrap : ∀ e, k.byteBarAt a i t = .error e → exec j s = .next (after s fun x => x.trap k e) := fun e he => by
    have hcause := byteBarCause_of_first ht hfirst he
    rcases hj with rfl | rfl | rfl
    · exact ((show exec (.bbinit d a i) s = byteBarUpdate s d a i bbinitBytes from rfl).trans (byteBarUpdate_eq _)).trans (guarded_after (c := fun k _ => k.byteBarCause a i) hk hcause)
    · exact ((show exec (.bbexp d a i) s = byteBarUpdate s d a i bbexpBytes from rfl).trans (byteBarUpdate_eq _)).trans (guarded_after (c := fun k _ => k.byteBarCause a i) hk hcause)
    · exact (show exec (.bbwait a i) s = execBbwait a i s from rfl).trans (guarded_after (c := fun k _ => k.byteBarCause a i) hk hcause)
  exact ⟨fun h => htrap _ (if_pos h), fun h hlen => htrap _ ((if_neg (not_not.mpr h)).trans (if_pos hlen))⟩

/-- A device is another but for the bytes of the local spaces, what is known of them, and the times of their lines. -/
def LocalDev (d e : Dev) : Prop := e = { d with locmem := e.locmem, poison := e.poison, loclines := e.loclines }

theorem LocalDev.trans {a b c : Dev} (h : LocalDev a b) (g : LocalDev b c) : LocalDev a c := by
  rw [LocalDev] at *
  rw [g, h]

/-- The bytes that a strand's update puts. -/
def barNew (k : Issue) (d : SReg) (f : Nat → Word → List Byte → List Byte) (t : Nat) (old : List Byte) : List Byte :=
  f k.wave.lts ((k.strand t).rd d) old

/-- A strand's update puts new bytes into a sound object, and changes no byte of a bad one. -/
theorem barUpdate_eq (f : Nat → Word → List Byte → List Byte) {t : Nat} (h : BarInside k a i t) (p : Dev × Nat) :
    ∃ lines, (barUpdate k d a i f p t).1 = { (if (p.1.readLoc k.core .scratch (barAt k a i t) 16).2 then
        p.1.putLoc k.core .scratch (barAt k a i t) (barNew k d f t (p.1.readLoc k.core .scratch (barAt k a i t) 16).1)
      else p.1) with loclines := lines } := by
  rw [barUpdate, byteBarAt_of_inside h]
  simp only [Dev.homeRmw]
  cases (p.1.readLoc k.core .scratch (barAt k a i t) 16).2
  · exact ⟨_, rfl⟩
  · exact ⟨_, rfl⟩

theorem foldl_barUpdate_local (f : Nat → Word → List Byte → List Byte) {L : List Nat} (h : ∀ t ∈ L, BarInside k a i t) (p : Dev × Nat) :
    LocalDev p.1 (L.foldl (barUpdate k d a i f) p).1 := by
  induction L generalizing p with
  | nil => rfl
  | cons t L ih =>
    obtain ⟨lines, hl⟩ := barUpdate_eq (d := d) f (h t List.mem_cons_self) p
    refine LocalDev.trans ?_ (ih (fun u hu => h u (List.mem_cons_of_mem _ hu)) _)
    rw [hl]
    split <;> rfl

/-! ### Objects that others leave alone -/

theorem poisoned_putLoc {x : Dev} {core : Nat} {sp : Space} {b : Nat} {bs : List Byte} {c n : Nat} (h : x.poisoned core sp c n = false) :
    (x.putLoc core sp b bs).poisoned core sp c n = false := by
  rw [Dev.poisoned, List.any_eq_false] at h ⊢
  exact fun p hp => h p (List.mem_filter.mp hp).1

theorem readLoc_putLoc_beside {x : Dev} {core : Nat} {sp : Space} {b : Nat} {bs : List Byte} {c n : Nat} (h : c + n ≤ b ∨ b + bs.length ≤ c) :
    ((x.putLoc core sp b bs).readLoc core sp c n).1 = (x.readLoc core sp c n).1 := by
  change cellRead ((x.setLocCells core sp fun m => cellWrite m b bs).locCells core sp) c n = _
  rw [locCells_setLocCells]
  exact cellRead_congr fun z hz hz' => cellGet_cellWrite_outside _ _ _ _ (by omega)

theorem readLoc_putLoc_same {x : Dev} {core : Nat} {sp : Space} {b : Nat} {bs : List Byte} (hx : x.cellsOk) :
    ((x.putLoc core sp b bs).readLoc core sp b bs.length).1 = bs := by
  change cellRead ((x.setLocCells core sp fun m => cellWrite m b bs).locCells core sp) b bs.length = _
  rw [locCells_setLocCells, cellRead_cellWrite _ _ _ (wf_locCells hx core sp)]

/-- An object stays as it is, and sound. -/
structure KeepsBar (k : Issue) (at_ : Nat) (d e : Dev) : Prop where
  cells : d.cellsOk → e.cellsOk
  bytes : (e.readLoc k.core .scratch at_ 16).1 = (d.readLoc k.core .scratch at_ 16).1
  sound : (d.readLoc k.core .scratch at_ 16).2 = true → (e.readLoc k.core .scratch at_ 16).2 = true

theorem cellsOk_barUpdate (f : Nat → Word → List Byte → List Byte) {t : Nat} (h : BarInside k a i t) (p : Dev × Nat) (hp : p.1.cellsOk) :
    (barUpdate k d a i f p t).1.cellsOk := by
  obtain ⟨lines, hl⟩ := barUpdate_eq (d := d) f h p
  rw [hl]
  split
  · exact cellsOk_of_eq rfl rfl (cellsOk_putLoc p.1 _ _ _ _ hp)
  · exact hp

theorem barUpdate_keeps {f : Nat → Word → List Byte → List Byte} (hf : ∀ t old, (barNew k d f t old).length = 16) {t u : Nat}
    (h : BarInside k a i u) (ht : BarInside k a i t) (hne : barOff k a i u ≠ barOff k a i t) (p : Dev × Nat) :
    KeepsBar k (barAt k a i t) p.1 (barUpdate k d a i f p u).1 := by
  refine ⟨cellsOk_barUpdate f h p, ?_, ?_⟩ <;> obtain ⟨lines, hl⟩ := barUpdate_eq (d := d) f h p <;> rw [hl]
  · split
    · exact readLoc_putLoc_beside (by
        rw [hf]
        obtain ⟨h1, -⟩ := h
        obtain ⟨h2, -⟩ := ht
        simp only [barAt]
        omega)
    · rfl
  · split
    · intro hs
      exact congrArg (!·) (poisoned_putLoc (by simpa [Dev.readLoc] using hs))
    · exact id

theorem foldl_barUpdate_keeps {f : Nat → Word → List Byte → List Byte} (hf : ∀ t old, (barNew k d f t old).length = 16) {t : Nat}
    (ht : BarInside k a i t) {L : List Nat} (hL : ∀ u ∈ L, BarInside k a i u ∧ barOff k a i u ≠ barOff k a i t) (p : Dev × Nat) :
    KeepsBar k (barAt k a i t) p.1 (L.foldl (barUpdate k d a i f) p).1 := by
  induction L generalizing p with
  | nil => exact ⟨id, rfl, id⟩
  | cons u L ih =>
    have h1 := barUpdate_keeps (d := d) hf (hL u List.mem_cons_self).1 ht (hL u List.mem_cons_self).2 p
    have h2 := ih (fun v hv => hL v (List.mem_cons_of_mem _ hv)) (barUpdate k d a i f p u)
    exact ⟨h2.cells ∘ h1.cells, h2.bytes.trans h1.bytes, h2.sound ∘ h1.sound⟩

/-- The object of a strand that no other strand of the gang names is updated once. -/
theorem foldl_barUpdate_alone {f : Nat → Word → List Byte → List Byte} (hf : ∀ t old, (barNew k d f t old).length = 16) {t : Nat} {L : List Nat}
    (hnodup : L.Nodup) (hL : ∀ u ∈ L, BarInside k a i u) (ht : t ∈ L) (halone : ∀ u ∈ L, barOff k a i u = barOff k a i t → u = t)
    {p : Dev × Nat} (hp : p.1.cellsOk) (hs : (p.1.readLoc k.core .scratch (barAt k a i t) 16).2 = true) :
    ((L.foldl (barUpdate k d a i f) p).1.readLoc k.core .scratch (barAt k a i t) 16).1 =
      barNew k d f t (p.1.readLoc k.core .scratch (barAt k a i t) 16).1 := by
  obtain ⟨l, r, rfl⟩ := List.append_of_mem ht
  have hother : ∀ u ∈ l ++ r, BarInside k a i u ∧ barOff k a i u ≠ barOff k a i t := fun u hu => by
    have hmem : u ∈ l ++ t :: r := by
      rcases List.mem_append.mp hu with hu | hu
      · exact List.mem_append_left _ hu
      · exact List.mem_append_right _ (List.mem_cons_of_mem _ hu)
    refine ⟨hL u hmem, fun heq => ?_⟩
    rw [halone u hmem heq] at hu
    exact (List.nodup_cons.mp (List.nodup_middle.mp hnodup)).1 hu
  have hin := hL t ht
  rw [List.foldl_append, List.foldl_cons]
  have h1 := foldl_barUpdate_keeps (d := d) hf hin (fun u hu => hother u (List.mem_append_left _ hu)) p
  generalize l.foldl (barUpdate k d a i f) p = q at h1 ⊢
  have h2 := foldl_barUpdate_keeps (d := d) hf hin (fun u hu => hother u (List.mem_append_right _ hu)) (barUpdate k d a i f q t)
  rw [h2.bytes]
  obtain ⟨lines, hl⟩ := barUpdate_eq (d := d) f hin q
  rw [hl, if_pos (h1.sound hs), ← h1.bytes]
  have hread := readLoc_putLoc_same (core := k.core) (sp := .scratch) (b := barAt k a i t)
    (bs := barNew k d f t (q.1.readLoc k.core .scratch (barAt k a i t) 16).1) (h1.cells hp)
  rw [hf] at hread
  exact hread

/-! ### The instructions -/

theorem readLoc_congr {x y : Dev} (h : y.locmem = x.locmem) (core : Nat) (sp : Space) (b n : Nat) :
    (y.readLoc core sp b n).1 = (x.readLoc core sp b n).1 := by
  rw [Dev.readLoc, Dev.readLoc, Dev.locCells, Dev.locCells, h]

/-- Where a strand's object lies. -/
def barPlace (k : Issue) (a : SReg) (i : BitVec 12) (t : Nat) : Nat := match k.byteBarAt a i t with | .ok (.loc _ _ x) => x | _ => 0

/-- The gang goes on with the largest time of its objects, or waits (R138). -/
def bbwaitDev (a : SReg) (i : BitVec 12) (k : Issue) (x : Dev) : Dev :=
  if (k.strands.map fun t => x.byteBar k.core (barPlace k a i t)).all fun y => y.1 == y.2.1 then
    (x.onWave k fun w => w.adopt (maxOf ((k.strands.map fun t => x.byteBar k.core (barPlace k a i t)).map (·.2.2)))).advance k 4
  else x.stallEach k fun t => .byteBar (barPlace k a i t)

theorem waves_of_local {y : Dev} (h : LocalDev (unlatched s) y) (c : Nat) :
    ((y.onWave k (·.adopt c)).advance k 4).waves = (passedAt s k c).dev.waves := by
  obtain ⟨m, p, l, rfl⟩ : ∃ m p l, y = { unlatched s with locmem := m, poison := p, loclines := l } := ⟨_, _, _, h⟩
  exact congrArg (fun t : State => t.dev.waves)
    (onWave_advance_eq { s with dev := { s.dev with locmem := m, poison := p, loclines := l } } k (·.adopt c) (fun _ => rfl) 4)

theorem byteBarUpdate_claim {f : Nat → Word → List Byte → List Byte} (hf : ∀ t old, (barNew k d f t old).length = 16) {j : Instr}
    (hj : exec j s = byteBarUpdate s d a i f) (hk : s.dev.issuer? = some k) (hsettled : s.dev.settled k = true)
    (hin : ∀ t, t < 8 → inGang k.gang t = true → BarInside k a i t) :
    ∃ u c, exec j s = .next u ∧ u.dev.waves = (passedAt s k c).dev.waves ∧
      (memOk s → ∀ t, t < 8 → inGang k.gang t = true →
        ((s.dev.readLoc k.core .scratch (barAt k a i t) 16).2 = true ∧
          ∀ v, v < 8 → inGang k.gang v = true → barOff k a i v = barOff k a i t → v = t) →
        (u.dev.readLoc k.core .scratch (barAt k a i t) 16).1 = barNew k d f t (s.dev.readLoc k.core .scratch (barAt k a i t) 16).1) := by
  have hL : ∀ t ∈ k.strands, BarInside k a i t := fun t ht => hin t (inGang_lt (mem_strands_iff.mp ht)) (mem_strands_iff.mp ht)
  have hnow : (unlatched s).settled k = true := hsettled
  have hnext : exec j s = .next { s with dev := barUpdated d a i f k (unlatched s) } := by
    rw [hj, byteBarUpdate_eq, guarded_next s k _ _ hk (byteBarCause_of_inside hin)]
    exact congrArg (fun d => Host.Outcome.next { s with dev := d }) (whenSettled_of_settled hnow)
  have hlocal := foldl_barUpdate_local (d := d) f hL (unlatched s, 0)
  have hdev : barUpdated d a i f k (unlatched s) = ((k.strands.foldl (barUpdate k d a i f) (unlatched s, 0)).1.onWave k
      (·.adopt (k.strands.foldl (barUpdate k d a i f) (unlatched s, 0)).2)).advance k 4 := rfl
  refine ⟨_, (k.strands.foldl (barUpdate k d a i f) (unlatched s, 0)).2, hnext, ?_, fun hmem t ht hgang halone => ?_⟩
  · rw [hdev]
    exact waves_of_local hlocal _
  · refine Eq.trans ?_ (foldl_barUpdate_alone (d := d) hf ((pairwise_strands k).imp fun h => Nat.ne_of_lt h) hL (mem_strands_iff.mpr hgang)
      (fun u hu => halone.2 u (inGang_lt (mem_strands_iff.mp hu)) (mem_strands_iff.mp hu)) (p := (unlatched s, 0)) hmem halone.1)
    exact readLoc_congr (by
      rw [hdev, advance_locmem]
      rfl) _ _ _ _

theorem balanced_claim (hk : s.dev.issuer? = some k) (hin : ∀ t, t < 8 → inGang k.gang t = true → BarInside k a i t) :
    let old (t : Nat) : List Byte := (s.dev.readLoc k.core .scratch (barAt k a i t) 16).1
    ((∀ t, t < 8 → inGang k.gang t = true → field (old t) 0 4 = field (old t) 4 4) →
        exec (.bbwait a i) s = .next (passedAt s k (maxOf (k.strands.map fun t => field (old t) 8 8)))) ∧
      ((∃ t, t < 8 ∧ inGang k.gang t = true ∧ ¬ field (old t) 0 4 = field (old t) 4 4) →
        exec (.bbwait a i) s = .next (gangStep s k fun t x => waits s.dev.clock (.byteBar (barAt k a i t)) x)) := by
  have hat : ∀ t ∈ k.strands, barPlace k a i t = barAt k a i t := fun t ht => by
    rw [barPlace, byteBarAt_of_inside (hin t (inGang_lt (mem_strands_iff.mp ht)) (mem_strands_iff.mp ht))]
  have hbars : (k.strands.map fun t => (unlatched s).byteBar k.core (barPlace k a i t)) =
      k.strands.map fun t => (unlatched s).byteBar k.core (barAt k a i t) := List.map_congr_left fun t ht => by rw [hat t ht]
  have hnext : exec (.bbwait a i) s = .next { s with dev := bbwaitDev a i k (unlatched s) } :=
    (show exec (.bbwait a i) s = execBbwait a i s from rfl).trans (guarded_next s k _ (bbwaitDev a i) hk (byteBarCause_of_inside hin))
  refine ⟨fun hall => ?_, fun hsome => ?_⟩
  · have hdev : bbwaitDev a i k (unlatched s) = _ := if_pos (by
      rw [hbars]
      simp only [List.all_map, List.all_eq_true]
      exact fun t ht => beq_iff_eq.mpr (hall t (inGang_lt (mem_strands_iff.mp ht)) (mem_strands_iff.mp ht)))
    rw [hnext, hdev, hbars, List.map_map]
    exact congrArg Host.Outcome.next (onWave_advance_eq s k (·.adopt _) (fun _ => rfl) 4)
  · obtain ⟨t, -, hgang, hne⟩ := hsome
    have hdev : bbwaitDev a i k (unlatched s) = _ := if_neg fun hall => hne (by
      rw [hbars] at hall
      simp only [List.all_map, List.all_eq_true] at hall
      exact beq_iff_eq.mp (hall t (mem_strands_iff.mpr hgang)))
    rw [hnext, hdev, stallEach_eq]
    exact congrArg Host.Outcome.next (gangStep_congr s k fun u x hu => by rw [hat u (mem_strands_iff.mpr hu)])

end

/-! ## Numbered barriers (R36, R139) -/

section
variable {s : State} {k : Issue}

/-- An arrival at a barrier that has released. -/
def releasedAt (n t : Nat) (a : Arrival) : Arrival := if a.bar = n ∧ a.released = none then { a with released := some t } else a

theorem releasedAt_frame (n t : Nat) (a : Arrival) :
    (releasedAt n t a).bar = a.bar ∧ (releasedAt n t a).gen = a.gen ∧ (releasedAt n t a).clock = a.clock := by
  rw [releasedAt]
  split <;> exact ⟨rfl, rfl, rfl⟩

/-- A release changes nothing of a wave but its arrivals at the barrier. -/
theorem tryRelease_wave? {d : Dev} (b : Block) (n : Nat) {id : Nat} {w : Wave} (h : d.wave? id = some w) :
    ∃ y, (d.tryRelease b n).wave? id = some y ∧ (y = w ∨ ∃ t, y = { w with arrivals := w.arrivals.map (releasedAt n t) }) := by
  simp only [Dev.tryRelease]
  split
  · exact ⟨w, h, .inl rfl⟩
  · have hfind := find_modIf (fun w : Wave => ((d.barWaves b n).map (·.id)).contains w.id) (fun w : Wave => w.id == id)
      (fun w => { w with arrivals := w.arrivals.map (releasedAt n (maxOf ((((if n = 15 then b.team else none).bind d.team?).map (·.left)).getD [] ++
        (d.barWaves b n).flatMap fun w => (w.arrivals.filter fun a => a.bar == n && a.released.isNone).map (·.clock)))) })
      (fun _ => rfl) d.waves
    rw [show d.waves.find? (fun w => w.id == id) = some w from h, Option.map_some] at hfind
    refine ⟨_, hfind, ?_⟩
    split
    · exact .inr ⟨_, rfl⟩
    · exact .inl rfl

/-- The wave's arrivals at a barrier, with its new one. -/
def arrivalsWith (k : Issue) (n : Nat) (w : Wave) : List Arrival :=
  w.arrivals.filter (fun a => !(a.bar == n)) ++ [⟨n, k.block.barGen n, w.lts, none⟩]

theorem find?_arrivalsWith (n : Nat) (w : Wave) (f : Arrival → Arrival) (hf : ∀ a, (f a).bar = a.bar) :
    ((arrivalsWith k n w).map f).find? (·.bar == n) = some (f ⟨n, k.block.barGen n, w.lts, none⟩) := by
  have hnone : ((w.arrivals.filter fun a => !(a.bar == n)).map f).find? (·.bar == n) = none := by
    rw [List.find?_eq_none]
    intro x hx
    obtain ⟨a, ha, rfl⟩ := List.mem_map.mp hx
    have hne := (List.mem_filter.mp ha).2
    rw [hf]
    simpa using hne
  rw [arrivalsWith, List.map_append, List.find?_append, hnone, Option.none_or, List.map_cons, List.map_nil, List.find?_singleton, hf]
  simp

/-- A block's barrier releases if it can. -/
def releases (e : Dev) (n : Nat) : Option Block → Dev
  | some b => e.tryRelease b n
  | none => e

/-- The wave has arrived, and the barrier may have released. -/
theorem arrive_wave? {d : Dev} (n : Nat) (h : d.wave? k.wave.id = some k.wave) :
    ∃ y a, (d.arrive k n).wave? k.wave.id = some y ∧ y.strands = k.wave.strands ∧ y.arrivals.find? (·.bar == n) = some a ∧
      a.gen = k.block.barGen n ∧ a.clock = k.wave.lts := by
  have h1 := wave?_modWave_self (f := fun w => { w with arrivals := arrivalsWith k n w }) (fun _ => rfl) h
  have hself := find?_arrivalsWith (k := k) n k.wave id fun _ => rfl
  rw [List.map_id] at hself
  have hmay : ∀ e : Dev, e.wave? k.wave.id = some { k.wave with arrivals := arrivalsWith k n k.wave } →
      ∀ b, ∃ (y : Wave) (a : Arrival), (releases e n b).wave? k.wave.id = some y ∧ y.strands = k.wave.strands ∧
        y.arrivals.find? (·.bar == n) = some a ∧ a.gen = k.block.barGen n ∧ a.clock = k.wave.lts := by
    rintro e he (_ | b)
    · exact ⟨_, _, he, rfl, hself, rfl, rfl⟩
    · obtain ⟨y, hy, rfl | ⟨t, rfl⟩⟩ := tryRelease_wave? b n he
      · exact ⟨_, _, hy, rfl, hself, rfl, rfl⟩
      · obtain ⟨-, hgen, hclock⟩ := releasedAt_frame n t ⟨n, k.block.barGen n, k.wave.lts, none⟩
        exact ⟨_, _, hy, rfl, find?_arrivalsWith n k.wave _ fun a => (releasedAt_frame n t a).1, hgen, hclock⟩
  exact hmay _ h1 _

/-- The cause of a barrier instruction by part of a wave. -/
def partCause (k : Issue) : Option Nat := if !k.whole then some cGang else none

theorem whole_iff : k.whole = true ↔ k.gang = k.wave.liveMask := by rw [Issue.whole, beq_iff_eq]

theorem partCause_of_whole (h : k.gang = k.wave.liveMask) : partCause k = none := by
  rw [partCause, whole_iff.mpr h]
  rfl

theorem partCause_of_part (h : k.gang ≠ k.wave.liveMask) : partCause k = some cGang := by
  have hpart : k.whole = false := by
    rw [← Bool.not_eq_true]
    exact mt whole_iff.mp h
  rw [partCause, hpart]
  rfl

theorem mem_of_find?_bar {l : List Arrival} {n : Nat} {a : Arrival} (h : l.find? (·.bar == n) = some a) : a ∈ l ∧ a.bar = n :=
  ⟨List.mem_of_find?_eq_some h, by simpa using List.find?_some h⟩

/-- The cause of `bbexp #b`. -/
def bbexpCause (b : BitVec 4) (k : Issue) : Option Nat :=
  if !k.whole then some cGang else if k.wave.arrivedAt b.toNat then some cBarrier else none

/-- The arrival, and the generation for the strands (R139). -/
def bbexpDev (d : SReg) (b : BitVec 4) (k : Issue) (x : Dev) : Dev :=
  ((x.arrive k b.toNat).setScalars k d fun _ => BitVec.ofNat 64 (k.block.barGen b.toNat)).advance k 4

theorem bbexpNum_eq (d : SReg) (b : BitVec 4) :
    exec (.bbexpNum d b) s = guarded s (fun k _ => bbexpCause b k) fun k x => x.whenSettled k (bbexpDev d b k) := rfl

/-- The wave passes with a released arrival, or waits. -/
def passRelease (n : Nat) (k : Issue) (d : Dev) : Option Nat → Dev
  | some t => (d.onWave k fun w => { (w.adopt t) with arrivals := w.arrivals.filter (·.bar != n) }).advance k 4
  | none => d.stall k (.numBar n)

/-- The wave's arrivals now. -/
def arrivalsOf (d : Dev) (k : Issue) : List Arrival := ((d.wave? k.wave.id).map (·.arrivals)).getD []

/-- The wave arrives if it has not, and passes once the barrier has released (R139). -/
def bbwaitNumDev (b : BitVec 4) (k : Issue) (x : Dev) : Dev :=
  let d := if k.wave.arrivals.any (·.bar == b.toNat) then x else x.arrive k b.toNat
  passRelease b.toNat k d (((arrivalsOf d k).find? (·.bar == b.toNat)).bind (·.released))

theorem bbwaitNum_eq (b : BitVec 4) :
    exec (.bbwaitNum b) s = guarded s (fun k _ => partCause k) fun k x => x.whenSettled k (bbwaitNumDev b k) := by
  rw [show exec (.bbwaitNum b) s = execBbwaitNum b s from rfl, execBbwaitNum]
  refine congrArg (guarded s _) (funext fun k => funext fun x => congrArg (x.whenSettled k) (funext fun d => ?_))
  rfl

theorem bbwaitNum_next (b : BitVec 4) (hk : s.dev.issuer? = some k) (hwhole : k.gang = k.wave.liveMask) (hsettled : s.dev.settled k = true) :
    exec (.bbwaitNum b) s = .next { s with dev := bbwaitNumDev b k (unlatched s) } := by
  have hnow : (unlatched s).settled k = true := hsettled
  rw [bbwaitNum_eq, guarded_next s k _ _ hk (partCause_of_whole hwhole)]
  exact congrArg (fun d => Host.Outcome.next { s with dev := d }) (whenSettled_of_settled hnow)

/-- The strands of the gang change, the wave's other fields are those that it had. -/
theorem onGang_wave? {d : Dev} {w : Wave} {f : Nat → Strand → Strand} (h : d.wave? k.wave.id = some w) :
    (d.onGang k f).wave? k.wave.id = some (w.modStrands k.gang f) := wave?_modWave_self (f := fun w => w.modStrands k.gang f) (fun _ => rfl) h

theorem stall_wave? {d : Dev} {w : Wave} (what : WaitFor) (h : d.wave? k.wave.id = some w) :
    (d.stall k what).wave? k.wave.id = some (w.modStrands k.gang fun _ => waits d.clock what) := onGang_wave? h

theorem arrive_clock (d : Dev) (n : Nat) : (d.arrive k n).clock = d.clock := by
  rw [Dev.arrive.eq_def]
  simp only [Dev.tryRelease]
  split
  · split <;> rfl
  · rfl

theorem bbexpNum_arrives {d : SReg} {b : BitVec 4} (hk : s.dev.issuer? = some k) (hwhole : k.gang = k.wave.liveMask)
    (hfree : ∀ a ∈ k.wave.arrivals, a.bar = b.toNat → a.released ≠ none) (hsettled : s.dev.settled k = true) :
    ∃ t w, exec (.bbexpNum d b) s = .next t ∧ t.dev.wave? k.wave.id = some w ∧
      (∃ a ∈ w.arrivals, a.bar = b.toNat ∧ a.gen = k.block.barGen b.toNat ∧ a.clock = k.wave.lts) ∧
      w.strands = k.wave.strands.mapIdx fun u x => if inGang k.gang u then
        passed 4 { x with s := if d = 0 then x.s else x.s.set d.toNat (BitVec.ofNat 64 (k.block.barGen b.toNat)) } else x := by
  have hnow : (unlatched s).settled k = true := hsettled
  have hcause : bbexpCause b k = none := by
    have hnot : k.wave.arrivedAt b.toNat = false := List.any_eq_false.mpr fun a ha h => by
      rw [Bool.and_eq_true, beq_iff_eq, Option.isNone_iff_eq_none] at h
      exact hfree a ha h.1 h.2
    rw [bbexpCause, whole_iff.mpr hwhole, hnot]
    rfl
  obtain ⟨-, hwave, -⟩ := issuer?_eq_some hk
  obtain ⟨y, a, hy, hstrands, hfind, hgen, hclock⟩ := arrive_wave? (d := unlatched s) (k := k) b.toNat hwave
  obtain ⟨hmem, hbar⟩ := mem_of_find?_bar hfind
  have hw : (bbexpDev d b k (unlatched s)).wave? k.wave.id = some ((y.modStrands k.gang fun _ x => x.wr d (BitVec.ofNat 64 (k.block.barGen b.toNat))).modStrands
      k.gang fun _ x => { x with pc := x.pc + BitVec.ofNat 64 4, waiting := none }) := onGang_wave? (onGang_wave? hy)
  refine ⟨{ s with dev := bbexpDev d b k (unlatched s) }, _, ?_, hw, ⟨a, hmem, hbar, hgen, hclock⟩, ?_⟩
  · rw [bbexpNum_eq, guarded_next s k _ _ hk hcause]
    exact congrArg (fun d => Host.Outcome.next { s with dev := d }) (whenSettled_of_settled hnow)
  · rw [modStrands_modStrands]
    simp only [passed_wr, Wave.modStrands, hstrands]

theorem bbwaitNum_arrives {b : BitVec 4} (hk : s.dev.issuer? = some k) (hwhole : k.gang = k.wave.liveMask)
    (hnone : ∀ a ∈ k.wave.arrivals, a.bar ≠ b.toNat) (hsettled : s.dev.settled k = true) :
    ∃ t w, exec (.bbwaitNum b) s = .next t ∧ t.dev.wave? k.wave.id = some w ∧
      ((w.strands = k.wave.strands.mapIdx fun u x => if inGang k.gang u then passed 4 x else x) ∨
       ((∃ a ∈ w.arrivals, a.bar = b.toNat ∧ a.released = none) ∧
        w.strands = k.wave.strands.mapIdx fun u x => if inGang k.gang u then waits s.dev.clock (.numBar b.toNat) x else x)) := by
  obtain ⟨-, hwave, -⟩ := issuer?_eq_some hk
  obtain ⟨y, a, hy, hstrands, hfind, -, -⟩ := arrive_wave? (d := unlatched s) (k := k) b.toNat hwave
  have hany : k.wave.arrivals.any (·.bar == b.toNat) = false := List.any_eq_false.mpr fun a ha h => hnone a ha (beq_iff_eq.mp h)
  have harr : arrivalsOf ((unlatched s).arrive k b.toNat) k = y.arrivals := by rw [arrivalsOf, hy]; rfl
  have hdev : bbwaitNumDev b k (unlatched s) = passRelease b.toNat k ((unlatched s).arrive k b.toNat) a.released := by
    simp only [bbwaitNumDev, hany, Bool.false_eq_true, if_false, harr, hfind, Option.bind_some]
  obtain ⟨hmem, hbar⟩ := mem_of_find?_bar hfind
  cases hr : a.released with
  | some t =>
    have h1 := wave?_modWave_self (f := fun w => { (w.adopt t) with arrivals := w.arrivals.filter (·.bar != b.toNat) }) (fun _ => rfl) hy
    have hw : (bbwaitNumDev b k (unlatched s)).wave? k.wave.id = some (Wave.modStrands { (y.adopt t) with
        arrivals := y.arrivals.filter (·.bar != b.toNat) } k.gang fun _ x => { x with pc := x.pc + BitVec.ofNat 64 4, waiting := none }) := by
      rw [hdev, hr]
      exact onGang_wave? h1
    refine ⟨_, _, bbwaitNum_next b hk hwhole hsettled, hw, .inl ?_⟩
    simp only [Wave.modStrands, Wave.adopt, hstrands]
    rfl
  | none =>
    have hw : (bbwaitNumDev b k (unlatched s)).wave? k.wave.id = some (y.modStrands k.gang fun _ => waits s.dev.clock (.numBar b.toNat)) := by
      rw [hdev, hr]
      have hstall := stall_wave? (.numBar b.toNat) hy
      rw [arrive_clock] at hstall
      exact hstall
    refine ⟨_, _, bbwaitNum_next b hk hwhole hsettled, hw, .inr ⟨⟨a, hmem, hbar, hr⟩, ?_⟩⟩
    simp only [Wave.modStrands, hstrands]

/-- What a wave that has arrived does (R139). -/
theorem bbwaitNum_arrived {b : BitVec 4} {a : Arrival} (hk : s.dev.issuer? = some k)
    (hfind : k.wave.arrivals.find? (·.bar == b.toNat) = some a) :
    bbwaitNumDev b k (unlatched s) = passRelease b.toNat k (unlatched s) a.released := by
  obtain ⟨-, hwave, -⟩ := issuer?_eq_some hk
  obtain ⟨hmem, hbar⟩ := mem_of_find?_bar hfind
  have hany : k.wave.arrivals.any (·.bar == b.toNat) = true := List.any_eq_true.mpr ⟨a, hmem, beq_iff_eq.mpr hbar⟩
  have harr : arrivalsOf (unlatched s) k = k.wave.arrivals := by
    rw [arrivalsOf, show (unlatched s).wave? k.wave.id = some k.wave from hwave]
    rfl
  simp only [bbwaitNumDev, hany, if_true, harr, hfind, Option.bind_some]

theorem bbwaitNum_released {b : BitVec 4} {a : Arrival} {r : Nat} (hk : s.dev.issuer? = some k) (hwhole : k.gang = k.wave.liveMask)
    (hfind : k.wave.arrivals.find? (·.bar == b.toNat) = some a) (hr : a.released = some r) (hsettled : s.dev.settled k = true) :
    exec (.bbwaitNum b) s = .next (waveStep s k fun w => { w with
      lts := max w.lts r
      arrivals := w.arrivals.filter (·.bar != b.toNat)
      strands := w.strands.mapIdx fun t x => if inGang k.gang t then passed 4 x else x }) := by
  rw [bbwaitNum_next b hk hwhole hsettled, bbwaitNum_arrived hk hfind, hr]
  exact congrArg Host.Outcome.next
    (onWave_advance_eq s k (fun w => { (w.adopt r) with arrivals := w.arrivals.filter (·.bar != b.toNat) }) (fun _ => rfl) 4)

theorem bbwaitNum_unreleased {b : BitVec 4} {a : Arrival} (hk : s.dev.issuer? = some k) (hwhole : k.gang = k.wave.liveMask)
    (hfind : k.wave.arrivals.find? (·.bar == b.toNat) = some a) (hr : a.released = none) (hsettled : s.dev.settled k = true) :
    exec (.bbwaitNum b) s = .next (stays s k (.numBar b.toNat)) := by
  rw [bbwaitNum_next b hk hwhole hsettled, bbwaitNum_arrived hk hfind, hr]
  exact congrArg Host.Outcome.next (stays_eq_stall s k _)

end

/-! ## The statement -/

section
variable {s : State} {k : Issue} {a : SReg}

theorem tagWait_eq (all : Bool) : tagWait s all a = guarded s (fun k _ => tagCause k a) (tagWaitDev all a) := rfl

theorem tagffs_eq (d : SReg) : exec (.tagffs d a) s = guarded s (fun k _ => tagCause k a) (tagffsDev d a) := rfl

/-- An instruction that names a tag that the block does not have (R132, R133). -/
theorem tag_traps {i : Instr} (hk : s.dev.issuer? = some k) (h : beyondTags k a = true)
    (hi : i = .tagwaitAny a ∨ i = .tagwaitAll a ∨ ∃ d, i = .tagffs d a) : exec i s = .next (after s fun d => d.trap k cRights) := by
  rcases hi with rfl | rfl | ⟨d, rfl⟩
  · exact ((show exec (.tagwaitAny a) s = tagWait s false a from rfl).trans (tagWait_eq false)).trans (beyond_traps hk h)
  · exact ((show exec (.tagwaitAll a) s = tagWait s true a from rfl).trans (tagWait_eq true)).trans (beyond_traps hk h)
  · exact (tagffs_eq d).trans (beyond_traps hk h)

theorem freeTag_iff {T : List Tag} {m : Nat → Word} {x : Nat → Nat} {t i : Nat} : FreeTag T m k.strands x t i ↔
    (arrivedOf T).getLsbD i = true ∧ (m t).getLsbD i = true ∧ ∀ v, v < t → inGang k.gang v = true → x v ≠ i := by
  simp only [FreeTag, mem_strands_iff]
  exact ⟨fun ⟨h, g, l⟩ => ⟨h, g, fun v hv hin => l v hin hv⟩, fun ⟨h, g, l⟩ => ⟨h, g, fun v hin hv => l v hv hin⟩⟩

theorem barBytes_length (x y z : Nat) : (barBytes x y z).length = 16 := by
  simp only [barBytes, List.length_append, leBytes_length]

/-- Part of a wave at a numbered barrier (R139). -/
theorem numBar_part {b : BitVec 4} (hk : s.dev.issuer? = some k) (hpart : k.gang ≠ k.wave.liveMask) :
    exec (.bbwaitNum b) s = .next (after s fun x => x.trap k cGang) ∧
      ∀ d, exec (.bbexpNum d b) s = .next (after s fun x => x.trap k cGang) := by
  have hcause : bbexpCause b k = some cGang := if_pos (by
    rw [Bool.not_eq_true', ← Bool.not_eq_true]
    exact mt whole_iff.mp hpart)
  exact ⟨(bbwaitNum_eq b).trans (guarded_after (c := fun k _ => partCause k) hk (partCause_of_part hpart)),
    fun d => (bbexpNum_eq d b).trans (guarded_after (c := fun k _ => bbexpCause b k) hk hcause)⟩

/-- A second unreleased arrival (R139). -/
theorem bbexpNum_again {b : BitVec 4} {x : Arrival} (d : SReg) (hk : s.dev.issuer? = some k) (hwhole : k.gang = k.wave.liveMask)
    (hx : x ∈ k.wave.arrivals) (hbar : x.bar = b.toNat) (hr : x.released = none) :
    exec (.bbexpNum d b) s = .next (after s fun x => x.trap k cBarrier) := by
  have harrived : k.wave.arrivedAt b.toNat = true := List.any_eq_true.mpr ⟨x, hx, by
    rw [Bool.and_eq_true, beq_iff_eq, Option.isNone_iff_eq_none]
    exact ⟨hbar, hr⟩⟩
  have hcause : bbexpCause b k = some cBarrier := by
    rw [bbexpCause, whole_iff.mpr hwhole, harrived]
    rfl
  exact (bbexpNum_eq d b).trans (guarded_after (c := fun k _ => bbexpCause b k) hk hcause)

end

/-- Settles O15: the tags by a greedy choice in strand order, the byte barriers by their objects, the numbered ones by the wave's arrivals. -/
theorem arrivalsAndBarriers : Obligations.ArrivalsAndBarriers := by
  unfold Obligations.ArrivalsAndBarriers
  refine ⟨fun s k a hk => ?_, ⟨fun s k d a i hk => ?_, fun s k b hk => ⟨numBar_part hk, fun hwhole => ⟨?_, ?_, ?_, ?_, ?_⟩⟩⟩⟩
  · intro beyond met
    have hnot : ¬ beyond → beyondTags k a = false := fun h => by
      rw [← Bool.not_eq_true]
      exact mt beyondTags_iff.mp h
    refine ⟨fun i hi h => tag_traps hk (beyondTags_iff.mpr h) hi, fun h => ?_, fun h => ?_, fun h d => ?_⟩
    · have hwait := tagWait_claim (all := false) (i := .tagwaitAny a) rfl hk (hnot h)
      simp only [tagsMet_iff] at hwait
      exact hwait
    · have hwait := tagWait_claim (all := true) (i := .tagwaitAll a) rfl hk (hnot h)
      simp only [tagsMet_iff] at hwait
      exact hwait
    · obtain ⟨hlater, hnow⟩ := tagffs_claim (d := d) hk (hnot h)
      refine ⟨hlater, fun hn => ?_⟩
      obtain ⟨u, c, x, hu, htakes, hwaves, hblocks⟩ := hnow hn
      refine ⟨u, c, x, hu, fun t _ ht => ?_, hwaves, hblocks⟩
      have htake := htakes t (mem_strands_iff.mpr ht)
      simp only [freeTag_iff] at htake
      exact htake
  · intro off at_ old inside balanced alone
    refine ⟨fun t _ hgang hfirst j hj => byteBar_traps hk hgang hfirst hj, fun hin => ⟨fun hsettled => ⟨?_, ?_⟩, balanced_claim hk hin⟩⟩
    · exact byteBarUpdate_claim (f := bbinitBytes) (fun _ _ => barBytes_length _ _ _) rfl hk hsettled hin
    · exact byteBarUpdate_claim (f := bbexpBytes) (fun _ _ => barBytes_length _ _ _) rfl hk hsettled hin
  · rintro ⟨x, hx, hbar, hr⟩ d
    exact bbexpNum_again d hk hwhole hx hbar hr
  · exact fun hfree hsettled d => bbexpNum_arrives hk hwhole hfree hsettled
  · exact fun hnone hsettled => bbwaitNum_arrives hk hwhole hnone hsettled
  · exact fun a r hfind hr hsettled => bbwaitNum_released hk hwhole hfind hr hsettled
  · exact fun a hfind hr hsettled => bbwaitNum_unreleased hk hwhole hfind hr hsettled

end Sys2Proof.Proofs
end

section
/-!
PROOFS. One step of a selected gang: fetch, and the instruction that it has read (03: R73, R74, R82, R83, R87).
-/

open Sys2Proof Sys2Proof.Machine Sys2Proof.Claims

-- The whole text is compiled in one process, which can hold few threads: these many short proofs are elaborated in order.
set_option Elab.async false

namespace Sys2Proof.Proofs

/-! ## The bytes of code (R82, R88) -/

/-- The byte of code at an address, or the detail of what keeps it from being read. -/
def codeRead (d : Dev) (core : Nat) (c : Ctx) (va : Nat) : Except Nat Byte :=
  match if 2 ^ 56 ≤ va then .error cXlate else d.translate core c va with
  | .error e => .error (if e = cIntegrity then 3 else 1)
  | .ok l => if !l.x then .error 2 else d.codeByte c.n (l.loc va)

section
variable {d : Dev} {core : Nat} {c : Ctx} {va : Nat}

theorem fetchBytes_succ (off n : Nat) : d.fetchBytes core c va off (n + 1) = match codeRead d core c (va + off) with
    | .error e => ([], some (off, e))
    | .ok b => (b :: (d.fetchBytes core c va (off + 1) n).1, (d.fetchBytes core c va (off + 1) n).2) := by
  rw [Dev.fetchBytes, codeRead]
  cases (if 2 ^ 56 ≤ va + off then Except.error cXlate else d.translate core c (va + off)) with
  | error e => rfl
  | ok l =>
    cases hx : l.x with
    | false =>
      simp only [hx]
      rfl
    | true =>
      simp only [hx]
      cases hb : d.codeByte c.n (l.loc (va + off)) <;> rfl

theorem fetchBytes_of_error {off n e : Nat} (h : codeRead d core c (va + off) = .error e) :
    d.fetchBytes core c va off (n + 1) = ([], some (off, e)) := by rw [fetchBytes_succ, h]

/-- What stands at an address is read, and then what follows it. -/
theorem fetchBytes_append {bs : List Byte} (m : Nat) {off : Nat}
    (h : ∀ j (hj : j < bs.length), codeRead d core c (va + off + j) = .ok bs[j]) :
    d.fetchBytes core c va off (bs.length + m) =
      (bs ++ (d.fetchBytes core c va (off + bs.length) m).1, (d.fetchBytes core c va (off + bs.length) m).2) := by
  induction bs generalizing off with
  | nil =>
    rw [List.length_nil, Nat.zero_add]
    rfl
  | cons b bs ih =>
    have hfirst : codeRead d core c (va + off) = .ok b := h 0 (Nat.succ_pos _)
    have hrest := ih (off := off + 1) fun j hj => by
      have hnext := h (j + 1) (Nat.succ_lt_succ hj)
      rw [show va + off + (j + 1) = va + (off + 1) + j by omega] at hnext
      exact hnext
    rw [List.length_cons, show bs.length + 1 + m = bs.length + m + 1 by omega, fetchBytes_succ, hfirst, hrest,
      show off + 1 + bs.length = off + (bs.length + 1) by omega]
    rfl

theorem fetchBytes_all {bs : List Byte} (h : ∀ j (hj : j < bs.length), codeRead d core c (va + j) = .ok bs[j]) :
    d.fetchBytes core c va 0 bs.length = (bs, none) := by
  have hall := fetchBytes_append (off := 0) 0 h
  rw [Nat.add_zero] at hall
  rw [hall]
  exact congrArg (·, none) (List.append_nil bs)

/-- The cause that stands for a detail (R88). -/
def fetchCause (e : Nat) : Nat := if e = 3 then cIntegrity else cFetch

theorem fillWord_of_error {e : Nat} (hva : va < 2 ^ 56) (h : codeRead d core c va = .error e) :
    d.fillWord core c va = .fault (fetchCause e) 0 e := by
  rw [Dev.fillWord, if_neg (by omega), fetchBytes_of_error h]
  rfl

theorem fillWord_of_first {b : Byte} (hva : va < 2 ^ 56) (h : codeRead d core c va = .ok b) :
    d.fillWord core c va = match Class.ofByte b with
      | none => .fault cIllegal 0 0
      | some k => match d.fetchBytes core c va 0 k.length with
        | (_, some e) => .fault (fetchCause e.2) e.1 e.2
        | (bs, none) => .word bs := by
  have hone : d.fetchBytes core c va 0 1 = ([b], none) := fetchBytes_all (bs := [b]) fun j hj => by
    obtain rfl : j = 0 := by simpa using hj
    exact h
  rw [Dev.fillWord, if_neg (by omega), hone]
  rfl

theorem fillWord_of_all {b : Byte} {bs : List Byte} {k : Class} (hva : va < 2 ^ 56) (hk : Class.ofByte b = some k) (hlen : bs.length + 1 = k.length)
    (h : ∀ j (hj : j < (b :: bs).length), codeRead d core c (va + j) = .ok (b :: bs)[j]) : d.fillWord core c va = .word (b :: bs) := by
  rw [fillWord_of_first (b := b) hva (h 0 (Nat.succ_pos _)), hk]
  simp only [← hlen, fetchBytes_all (bs := b :: bs) h, ← List.length_cons (a := b)]

theorem fillWord_of_part {b : Byte} {bs : List Byte} {k : Class} {e : Nat} (hva : va < 2 ^ 56) (hk : Class.ofByte b = some k)
    (hlen : bs.length + 1 < k.length) (h : ∀ j (hj : j < (b :: bs).length), codeRead d core c (va + j) = .ok (b :: bs)[j])
    (he : codeRead d core c (va + bs.length + 1) = .error e) : d.fillWord core c va = .fault (fetchCause e) (bs.length + 1) e := by
  obtain ⟨m, hm⟩ : ∃ m, k.length = (b :: bs).length + (m + 1) := ⟨k.length - bs.length - 2, by rw [List.length_cons]; omega⟩
  have hend : d.fetchBytes core c va (0 + (b :: bs).length) (m + 1) = ([], some (bs.length + 1, e)) := by
    rw [Nat.zero_add, List.length_cons]
    exact fetchBytes_of_error he
  rw [fillWord_of_first (b := b) hva (h 0 (Nat.succ_pos _)), hk]
  simp only [hm, fetchBytes_append (bs := b :: bs) (off := 0) (m + 1) h, hend]

end

/-! ## What the claims call code -/

section
variable {s : State} {k : Issue}

theorem cameFrom_iff {pkg pa : Nat} {a : Answer} : CameFrom s k pkg pa a ↔
    (s.dev.inbox.find? fun m => m.1 == codeReader && m.2.1 == codeKey k.ctx.n pkg pa).map (·.2.2) = some a := Iff.rfl

theorem codeByte_of_code {b : Byte} {l : Loc} (h : CodeByte s k b l) : s.dev.codeByte k.ctx.n l = .ok b := by
  cases l with
  | glob pa =>
    obtain ⟨hok, rfl⟩ := h
    exact if_pos hok
  | remote pkg pa =>
    obtain ⟨t, bs, hcame, rfl⟩ := h
    rw [Dev.codeByte, cameFrom_iff.mp hcame]
  | host pa => exact h.elim
  | loc core sp a => exact h.elim

theorem codeRead_of_codeAt {bs : List Byte} (h : CodeAt s k bs) (j : Nat) (hj : j < bs.length) :
    codeRead s.dev k.core k.ctx (k.pc.toNat + j) = .ok bs[j] := by
  obtain ⟨hend, hbytes⟩ := h
  obtain ⟨l, hl, hx, hbyte⟩ := hbytes j hj
  rw [codeRead, if_neg (by omega), hl]
  simp only [hx, Bool.not_true, Bool.false_eq_true, if_false]
  exact codeByte_of_code hbyte

/-- The cause and the detail of what cannot be fetched. -/
theorem codeRead_of_unfetchable {va cause detail : Nat} (h : Unfetchable s k va cause detail) :
    codeRead s.dev k.core k.ctx va = .error detail ∧ cause = fetchCause detail := by
  rw [codeRead]
  unfold Unfetchable at h
  split at h
  · next hva =>
    obtain ⟨rfl, rfl⟩ := h
    rw [if_pos hva]
    exact ⟨rfl, rfl⟩
  next hva =>
  rw [if_neg hva]
  cases htr : s.dev.translate k.core k.ctx va with
  | error e =>
    simp only [htr] at h
    split at h
    · next hint =>
      obtain ⟨rfl, rfl⟩ := h
      exact ⟨congrArg _ (if_pos hint), rfl⟩
    · next hint =>
      obtain ⟨rfl, rfl⟩ := h
      exact ⟨congrArg _ (if_neg hint), rfl⟩
  | ok l =>
  simp only [htr] at h
  split at h
  · next hx =>
    obtain ⟨rfl, rfl⟩ := h
    simp only [hx]
    exact ⟨rfl, rfl⟩
  next hx =>
  simp only [Bool.not_eq_false] at hx
  simp only [hx, Bool.not_true, Bool.false_eq_true, if_false]
  split at h
  · next pa hloc =>
    obtain ⟨hbad, rfl, rfl⟩ := h
    rw [hloc, Dev.codeByte, hbad]
    exact ⟨rfl, rfl⟩
  · next pkg pa hloc =>
    obtain ⟨e, hcame, hcase⟩ := h
    rw [hloc, Dev.codeByte]
    simp only [cameFrom_iff.mp hcame]
    rcases hcase with ⟨rfl, rfl, rfl⟩ | ⟨rfl, rfl, rfl⟩ | ⟨h1, h2, rfl, rfl⟩
    · exact ⟨rfl, rfl⟩
    · exact ⟨rfl, rfl⟩
    · rw [if_neg h1, if_neg h2]
      exact ⟨rfl, rfl⟩
  · next hglob hremote =>
    obtain ⟨rfl, rfl⟩ := h
    refine ⟨?_, rfl⟩
    cases hloc : l.loc va with
    | glob pa => exact (hglob pa hloc).elim
    | remote pkg pa => exact (hremote pkg pa hloc).elim
    | host pa => rfl
    | loc core sp a => rfl

theorem fillWord_of_unfetchable {cause detail : Nat} (h : Unfetchable s k k.pc.toNat cause detail) :
    s.dev.fillWord k.core k.ctx k.pc.toNat = .fault cause 0 detail := by
  obtain ⟨hread, rfl⟩ := codeRead_of_unfetchable h
  by_cases hva : 2 ^ 56 ≤ k.pc.toNat
  · rw [codeRead, if_pos hva] at hread
    obtain rfl : 1 = detail := Except.error.inj hread
    rw [Dev.fillWord, if_pos hva]
    rfl
  · exact fillWord_of_error (by omega) hread

end

/-! ## The I-cache (R87) -/

section
variable {s : State} {k : Issue}

theorem fetched_loadCode (d : Dev) (core : Nat) (c : Ctx) (va : Nat) : FetchedDev d (d.loadCode core c va) := by
  have hlooked := FetchedDev.of_cachedDev (CachedDev.looked d core c va)
  rw [Dev.loadCode]
  split
  · split
    · exact (hlooked.trans (.of_cachedDev (.touchLine _ _ _ _))).trans (.putL1 _ _)
    · exact hlooked
  · exact hlooked

/-- A filled I-cache holds the lines of code that it has read, and nothing else of them. -/
theorem fillCode_eq (d : Dev) (core : Nat) (c : Ctx) (va : Nat) : ∃ e, FetchedDev d e ∧ ∃ stays : IEntry → Bool,
    (∀ x, stays x = true → x.core = core → x.ctx = c.n → x.va = va → (d.fillLine core c (va / 128) 128 va).any (·.va == x.va) = false) ∧
    d.fillCode core c va = { e with icache := d.icache.filter stays ++ d.fillLine core c (va / 128) 128 va } := by
  have hfetched : FetchedDev d (if (d.fillLine core c (va / 128) 128 va).any IEntry.straddles then
      (d.loadCode core c va).loadCode core c (va / 128 * 128 + 128) else d.loadCode core c va) := by
    split
    · exact (fetched_loadCode d core c va).trans (fetched_loadCode _ core c _)
    · exact fetched_loadCode d core c va
  refine ⟨_, hfetched, _, fun x hx hcore hctx hva => ?_, rfl⟩
  rw [hcore, hctx, hva, beq_self_eq_true, beq_self_eq_true, beq_self_eq_true] at hx
  simp only [Bool.and_self, Bool.not_true, Bool.false_or, Bool.and_eq_true, Bool.not_eq_true'] at hx
  rw [hva]
  exact hx.1

/-- The word at the address from which a line is read is the first that is taken in. -/
theorem fillLine_head (d : Dev) (core : Nat) (c : Ctx) (va : Nat) :
    ∃ l, d.fillLine core c (va / 128) 128 va = ⟨core, c.n, va, d.fillWord core c va⟩ :: l :=
  ⟨_, if_neg (not_not.mpr rfl)⟩

theorem icached_fillCode (d : Dev) (core : Nat) (c : Ctx) (va : Nat) :
    (d.fillCode core c va).icached core c.n va = some (d.fillWord core c va) := by
  obtain ⟨e, -, stays, hstays, heq⟩ := fillCode_eq d core c va
  obtain ⟨l, hl⟩ := fillLine_head d core c va
  rw [heq, Dev.icached]
  have hnone : (d.icache.filter stays).find? (fun x => x.core == core && x.ctx == c.n && x.va == va) = none := by
    rw [List.find?_eq_none]
    intro x hx hp
    simp only [Bool.and_eq_true, beq_iff_eq] at hp
    obtain ⟨⟨hcore, hctx⟩, hva⟩ := hp
    have hany := hstays x (List.mem_filter.mp hx).2 hcore hctx hva
    rw [hl, List.any_cons, hva, beq_self_eq_true, Bool.true_or] at hany
    exact Bool.noConfusion hany
  rw [List.find?_append, hnone, Option.none_or, hl, List.find?_cons_of_pos (by simp), Option.map_some]

/-- What a filled I-cache leaves of the state as it was. -/
theorem filled_eq (s : State) (k : Issue) : ∃ tlb llc mt xfers l1 nextId remotes icache inbox,
    filled s k = { s with dev := { s.dev with
      tlb := tlb, llc := llc, mt := mt, xfers := xfers, l1 := l1, nextId := nextId, remotes := remotes, icache := icache, inbox := inbox } } := by
  obtain ⟨e, he, stays, -, heq⟩ := fillCode_eq s.dev k.core k.ctx k.pc.toNat
  rw [FetchedDev] at he
  rw [filled, heq]
  generalize s.dev.icache.filter stays ++ s.dev.fillLine k.core k.ctx (k.pc.toNat / 128) 128 k.pc.toNat = icache
  obtain ⟨tlb, llc, mt, xfers, l1, nextId, remotes, rfl⟩ : ∃ tlb llc mt xfers l1 nextId remotes, e = { s.dev with
      tlb := tlb, llc := llc, mt := mt, xfers := xfers, l1 := l1, nextId := nextId, remotes := remotes } := ⟨_, _, _, _, _, _, _, he⟩
  exact ⟨tlb, llc, mt, xfers, l1, nextId, remotes, icache, _, rfl⟩

theorem tookIn {w : IWord} (h : s.dev.fillWord k.core k.ctx k.pc.toNat = w) : TookIn s k w := by
  refine ⟨?_, ?_⟩
  · rw [← h]
    exact icached_fillCode s.dev k.core k.ctx k.pc.toNat
  · obtain ⟨a, b, c, d, e, f, g, i, j, hs⟩ := filled_eq s k
    rw [hs]
    exact ⟨rfl, rfl, rfl, rfl⟩

theorem issuer?_filled (s : State) (k : Issue) : (filled s k).dev.issuer? = s.dev.issuer? := by
  obtain ⟨a, b, c, d, e, f, g, i, j, hs⟩ := filled_eq s k
  rw [hs]
  rfl

/-! ## Requests for lines of code (R272) -/

/-- The requests of lines of code stand among the requests, and only they are new. -/
structure Asked (l : List (Nat × Nat × Nat)) (d e : Dev) : Prop where
  rest : e = { d with nextId := e.nextId, remotes := e.remotes }
  stay : ∀ r ∈ d.remotes, r ∈ e.remotes
  asks : ∀ x ∈ l, ∃ r ∈ e.remotes, r.job = some (codeReader, 0, x.1)

theorem asked_askCode (c : Ctx) (l : List (Nat × Nat × Nat)) (d : Dev) : Asked l d (d.askCode c l) := by
  induction l generalizing d with
  | nil => exact ⟨rfl, fun _ => id, fun _ h => absurd h List.not_mem_nil⟩
  | cons x l ih =>
    rw [Dev.askCode, List.foldl_cons]
    split
    · next hasked =>
      have hrest := ih d
      refine ⟨hrest.rest, hrest.stay, fun y hy => ?_⟩
      rcases List.mem_cons.mp hy with rfl | hy
      · obtain ⟨r, hr, hjob⟩ := List.any_eq_true.mp hasked
        exact ⟨r, hrest.stay r hr, beq_iff_eq.mp hjob⟩
      · exact hrest.asks y hy
    · have hrest := ih { d with nextId := d.nextId + 1
                                remotes := d.remotes ++ [⟨d.nextId, none, some (codeReader, 0, x.1), c.n, x.2.1, x.2.2, .read 128, 0, none⟩] }
      refine ⟨hrest.rest, fun r hr => hrest.stay r (List.mem_append_left _ hr), fun y hy => ?_⟩
      rcases List.mem_cons.mp hy with rfl | hy
      · exact ⟨_, hrest.stay _ (List.mem_append_right _ List.mem_cons_self), rfl⟩
      · exact hrest.asks y hy

/-! ## One step -/

theorem step_of_issuer (hk : s.dev.issuer? = some k) : step s = settled (issueNext s) := by
  obtain ⟨hlatch, -⟩ := issuer?_eq_some hk
  rw [step, hlatch]

theorem readsBad_iff (i : Instr) : s.dev.readsBad k i = true ↔
    ∃ r x, (k.wave.id, r, x) ∈ s.dev.badRegs ∧ ∃ o ∈ sources i, o.meets k r = true := by
  simp only [Dev.readsBad, List.any_eq_true, Bool.and_eq_true, beq_iff_eq]
  constructor
  · rintro ⟨⟨w, r, x⟩, hmem, rfl, o, ho, hmeets⟩
    exact ⟨r, x, hmem, o, ho, hmeets⟩
  · rintro ⟨r, x, hmem, o, ho, hmeets⟩
    exact ⟨_, hmem, rfl, o, ho, hmeets⟩

theorem answers_iff (i : Instr) (t : State) : answers s i t = true ↔ exec i s = .next t := by
  rw [answers]
  cases exec i s with
  | next u => simp only [decide_eq_true_eq, Host.Outcome.next.injEq]
  | fault f => exact ⟨nofun, nofun⟩
  | refused r => exact ⟨nofun, nofun⟩

/-- What the step does with a word that has been read. -/
noncomputable def runs (s : State) (k : Issue) (bs : List Byte) : Host.Outcome State Fault Refusal :=
  match decode bs with
  | .ok (i, _) =>
    if 2 ^ 56 ≤ k.pc.toNat + bs.length ∧ transfersControl i = false then .next (after s fun d => d.trap k cFetch)
    else if s.dev.readsBad k i && !(answers s i (after s fun d => d.trap k cRegrange) || answers s i (after s fun d => d.trap k cGang))
      then .next (after s fun d => d.trap k cIntegrity)
    else exec i s
  | .error _ => exec .illegalEncoding s

theorem runs_of_ok {bs : List Byte} {i : Instr} {n : Nat} (h : decode bs = .ok (i, n)) : runs s k bs = ran s k i bs.length := by
  rw [runs, h, ran]
  have hbad : (s.dev.readsBad k i && !(answers s i (after s fun d => d.trap k cRegrange) || answers s i (after s fun d => d.trap k cGang))) = true ↔
      (∃ r x, (k.wave.id, r, x) ∈ s.dev.badRegs ∧ ∃ o ∈ sources i, o.meets k r = true) ∧
        exec i s ≠ .next (after s fun d => d.trap k cRegrange) ∧ exec i s ≠ .next (after s fun d => d.trap k cGang) := by
    rw [Bool.and_eq_true, readsBad_iff, Bool.not_eq_true', Bool.or_eq_false_iff, ← Bool.not_eq_true, ← Bool.not_eq_true, answers_iff, answers_iff]
  refine if_congr Iff.rfl rfl ?_
  split
  · next h => exact (if_pos (hbad.mp h)).symm
  · next h => exact (if_neg (mt hbad.mpr h)).symm

theorem runs_of_error {bs : List Byte} {e : Reject} (hk : s.dev.issuer? = some k) (h : decode bs = .error e) :
    runs s k bs = .next (after s fun d => d.trap k cIllegal) := by
  rw [runs, h]
  rw [show exec .illegalEncoding s = issue s fun k d => d.trap k cIllegal from rfl, issue, hk]
  rfl

/-- The step with what fetch gives. -/
theorem issueNext_eq (hk : s.dev.issuer? = some k) : issueNext s = match s.dev.fetch k with
    | (none, d) => .next { s with dev := { d with latch := none } }
    | (some (.fault c _ _), d) => .next (after { s with dev := d } fun d => d.trap k c)
    | (some (.word bs), d) => runs { s with dev := d } k bs := by
  rw [issueNext, hk]
  rfl

theorem fetch_of_icached {w : IWord} (h : s.dev.icached k.core k.ctx.n k.pc.toNat = some w) : s.dev.fetch k = (some w, s.dev) := by
  rw [Dev.fetch, h]

theorem fetch_of_wanted (h : s.dev.icached k.core k.ctx.n k.pc.toNat = none) (hw : s.dev.codeWanted k.core k.ctx k.pc.toNat ≠ []) :
    s.dev.fetch k = (none, (s.dev.askCode k.ctx (s.dev.codeWanted k.core k.ctx k.pc.toNat)).stall k (.code k.pc.toNat)) := by
  rw [Dev.fetch, h]
  cases hl : s.dev.codeWanted k.core k.ctx k.pc.toNat with
  | nil => exact absurd hl hw
  | cons x l => rfl

theorem fetch_of_here (h : s.dev.icached k.core k.ctx.n k.pc.toNat = none) (hw : s.dev.codeWanted k.core k.ctx k.pc.toNat = []) :
    s.dev.fetch k = (some (s.dev.fillWord k.core k.ctx k.pc.toNat), (filled s k).dev) := by
  rw [Dev.fetch, h, hw]
  rfl

theorem step_of_word {bs : List Byte} (hk : s.dev.issuer? = some k) (h : s.dev.icached k.core k.ctx.n k.pc.toNat = some (.word bs)) :
    step s = settled (runs s k bs) := by
  rw [step_of_issuer hk, issueNext_eq hk, fetch_of_icached h]

theorem step_of_fault {c o x : Nat} (hk : s.dev.issuer? = some k) (h : s.dev.icached k.core k.ctx.n k.pc.toNat = some (.fault c o x)) :
    step s = settled (.next (after s fun d => d.trap k c)) := by
  rw [step_of_issuer hk, issueNext_eq hk, fetch_of_icached h]

/-- The gang waits for the lines of code that it has asked for. -/
theorem step_asks (hk : s.dev.issuer? = some k) (h : s.dev.icached k.core k.ctx.n k.pc.toNat = none)
    (hw : s.dev.codeWanted k.core k.ctx k.pc.toNat ≠ []) :
    ∃ t, step s = settled (.next t) ∧ t.dev.waves = ((s.dev.stall k (.code k.pc.toNat))).waves ∧ t.dev.latch = none ∧
      ∀ x ∈ s.dev.codeWanted k.core k.ctx k.pc.toNat, ∃ r ∈ t.dev.remotes, r.job = some (codeReader, 0, x.1) := by
  refine ⟨_, by rw [step_of_issuer hk, issueNext_eq hk, fetch_of_wanted h hw], ?_⟩
  have hasked := asked_askCode k.ctx (s.dev.codeWanted k.core k.ctx k.pc.toNat) s.dev
  generalize s.dev.codeWanted k.core k.ctx k.pc.toNat = l at hasked ⊢
  have hrest := hasked.rest
  have hasks := hasked.asks
  generalize s.dev.askCode k.ctx l = e at hrest hasks ⊢
  obtain ⟨n, r, rfl⟩ : ∃ n r, e = { s.dev with nextId := n, remotes := r } := ⟨_, _, hrest⟩
  exact ⟨rfl, rfl, hasks⟩

section
variable (hk : s.dev.issuer? = some k) (h : s.dev.icached k.core k.ctx.n k.pc.toNat = none)
  (hw : s.dev.codeWanted k.core k.ctx k.pc.toNat = [])
include hk h hw

theorem step_takes_word {bs : List Byte} (hfill : s.dev.fillWord k.core k.ctx k.pc.toNat = .word bs) :
    TookIn s k (.word bs) ∧ step s = settled (runs (filled s k) k bs) := by
  refine ⟨tookIn hfill, ?_⟩
  rw [step_of_issuer hk, issueNext_eq hk, fetch_of_here h hw, hfill]
  rfl

theorem step_takes_fault {c o x : Nat} (hfill : s.dev.fillWord k.core k.ctx k.pc.toNat = .fault c o x) :
    TookIn s k (.fault c o x) ∧ step s = settled (.next (after (filled s k) fun d => d.trap k c)) := by
  refine ⟨tookIn hfill, ?_⟩
  rw [step_of_issuer hk, issueNext_eq hk, fetch_of_here h hw, hfill]
  rfl

end

/-- What decodes begins with a byte of its class. -/
theorem class_of_decode {bs : List Byte} {i : Instr} {n : Nat} (h : decode bs = .ok (i, n)) :
    ∃ b l cl, bs = b :: l ∧ Class.ofByte b = some cl ∧ cl.length = n := by
  rw [decode] at h
  split at h
  · cases h
  next cl w hfetch =>
  split at h
  · cases h
  split at h
  · obtain ⟨-, rfl⟩ := Prod.mk.inj (Except.ok.inj h)
    cases bs with
    | nil => cases hfetch
    | cons b l =>
      refine ⟨b, l, cl, rfl, ?_, rfl⟩
      rw [fetchClass] at hfetch
      split at hfetch
      · cases hfetch
      next cl' hc =>
      split at hfetch
      · cases hfetch
      · cases hfetch
        exact hc
  · cases h

theorem pc_lt_of_codeAt {b : Byte} {bs : List Byte} (h : CodeAt s k (b :: bs)) : k.pc.toNat < 2 ^ 56 := by
  have hend := h.1
  rw [List.length_cons] at hend
  omega

end

/-- Settles O56: the word that fetch gives, read byte by byte, and what the step does with it. -/
theorem stepRunsTheInstruction : Obligations.StepRunsTheInstruction := by
  unfold Obligations.StepRunsTheInstruction
  intro s k hk
  refine ⟨fun bs i n h hd => ?_, fun bs e h hd => ?_, fun c o x h => step_of_fault hk h, step_asks hk,
    fun h hw => ⟨fun bs i hcode hd => ?_, fun b bs cl hcode hc hlen hd => ?_, fun b hcode hc => ?_, fun c x hun => ?_, fun b bs cl e x hcode hc hlen hun => ?_⟩⟩
  · rw [step_of_word hk h, runs_of_ok hd]
  · rw [step_of_word hk h, runs_of_error hk hd]
  · obtain ⟨b, l, cl, rfl, hc, hlen⟩ := class_of_decode hd
    rw [← runs_of_ok hd]
    exact step_takes_word hk h hw (fillWord_of_all (pc_lt_of_codeAt hcode) hc hlen.symm (codeRead_of_codeAt hcode))
  · obtain ⟨e, hd⟩ := hd
    rw [← runs_of_error ((issuer?_filled s k).trans hk) hd]
    exact step_takes_word hk h hw (fillWord_of_all (pc_lt_of_codeAt hcode) hc hlen (codeRead_of_codeAt hcode))
  · refine step_takes_fault hk h hw ?_
    rw [fillWord_of_first (b := b) (pc_lt_of_codeAt hcode) (codeRead_of_codeAt hcode 0 (Nat.succ_pos _)), hc]
  · exact step_takes_fault hk h hw (fillWord_of_unfetchable hun)
  · obtain ⟨hread, rfl⟩ := codeRead_of_unfetchable hun
    exact step_takes_fault hk h hw (fillWord_of_part (pc_lt_of_codeAt hcode) hc hlen (codeRead_of_codeAt hcode) hread)

end Sys2Proof.Proofs
end

section
/-!
SUPPORT. The operations of the device keep the sparse memories canonical: those that write only by `cellWrite` and `filter`, and
those that change other fields.
-/

open Sys2Proof Sys2Proof.Machine

-- The whole text is compiled in one process, which can hold few threads: these many short proofs are elaborated in order.
set_option Elab.async false

namespace Sys2Proof.Proofs

/-! ## Keeping the canonical form -/

/-- An update keeps the memories canonical. -/
def Canon (d e : Dev) : Prop := d.cellsOk → e.cellsOk

/-- A tile operation that has not begun. -/
def queuedTile (j : Job) : Bool := match j.kind with | .tile _ _ none _ => true | _ => false

namespace Canon

theorem refl (d : Dev) : Canon d d := id

theorem trans {a b c : Dev} (h : Canon a b) (g : Canon b c) : Canon a c := fun x => g (h x)

/-- An update of other fields. -/
theorem same {d e : Dev} (hm : e.mem = d.mem := by rfl) (hl : e.locmem = d.locmem := by rfl) : Canon d e := cellsOk_of_eq hm hl

/-- A further update of other fields. -/
theorem upd {a d e : Dev} (h : Canon a d) (hm : e.mem = d.mem := by rfl) (hl : e.locmem = d.locmem := by rfl) : Canon a e :=
  h.trans (same hm hl)

theorem ite {p : Prop} [Decidable p] {d a b : Dev} (ha : Canon d a) (hb : Canon d b) : Canon d (if p then a else b) := by
  split
  · exact ha
  · exact hb

/-- A further update in one case. -/
theorem thenIte {p : Prop} [Decidable p] {d a b : Dev} (ha : Canon d a) (hb : Canon a b) : Canon d (if p then b else a) :=
  .ite (ha.trans hb) ha

theorem foldl {α : Type} {f : Dev → α → Dev} (hf : ∀ d x, Canon d (f d x)) (l : List α) (d : Dev) : Canon d (l.foldl f d) := by
  induction l generalizing d with
  | nil => exact .refl d
  | cons x l ih => exact (hf d x).trans (ih (f d x))

/-- The device of a pair. -/
theorem fst {β : Type} {d e : Dev} {b : β} {p : Dev × β} (h : Canon d p.1) (hp : p = (e, b)) : Canon d e := by
  rw [hp] at h
  exact h

/-- A fold that gathers something else beside the device. -/
theorem foldlPair {α β : Type} {f : Dev × β → α → Dev × β} (hf : ∀ p x, Canon p.1 (f p x).1) (l : List α) (p : Dev × β) :
    Canon p.1 (l.foldl f p).1 := by
  induction l generalizing p with
  | nil => exact .refl p.1
  | cons x l ih => exact (hf p x).trans (ih (f p x))

/-! ## Memory and the caches -/

theorem modFn (d : Dev) (n : Nat) (f : Fn → Fn) : Canon d (d.modFn n f) := .same
theorem modEngine (d : Dev) (core : Nat) (k : EngKind) (f : Engine → Engine) : Canon d (d.modEngine core k f) := .same
theorem modCore (d : Dev) (n : Nat) (f : Core → Core) : Canon d (d.modCore n f) := .same
theorem modJob (d : Dev) (id : Nat) (f : Job → Job) : Canon d (d.modJob id f) := .same
theorem modColl (d : Dev) (id : Nat) (f : Coll → Coll) : Canon d (d.modColl id f) := .same
theorem modOp (d : Dev) (id : Nat) (f : MemOp → MemOp) : Canon d (d.modOp id f) := .same
theorem modWave (d : Dev) (id : Nat) (f : Wave → Wave) : Canon d (d.modWave id f) := .same
theorem modBlock (d : Dev) (id : Nat) (f : Block → Block) : Canon d (d.modBlock id f) := .same
theorem modCtx (d : Dev) (n : Nat) (f : Ctx → Ctx) : Canon d (d.modCtx n f) := .same
theorem modLaunch (d : Dev) (id : Nat) (f : Launch → Launch) : Canon d (d.modLaunch id f) := .same
theorem modPort (d : Dev) (n : Nat) (f : Port → Port) : Canon d (d.modPort n f) := .same
theorem modLevel (d : Dev) (ctx addr : Nat) (f : Level → Level) : Canon d (d.modLevel ctx addr f) := .same
theorem send (d : Dev) (m : Msg) : Canon d (d.send m) := .same
theorem setJobs (d : Dev) (l : List Job) : Canon d { d with jobs := l } := .same
theorem setCores (d : Dev) (l : List Core) : Canon d { d with cores := l } := .same
theorem setWaves (d : Dev) (l : List Wave) : Canon d { d with waves := l } := .same
theorem setLatch (d : Dev) (g : Option GangRef) : Canon d { d with latch := g } := .same
theorem setEvent (d : Dev) (n b : Nat) : Canon d (d.setEvent n b) := (Sound.setEvent d n b).cells
theorem addJob (d : Dev) (j : Job) : Canon d (d.addJob j) := .same
theorem endJob (d : Dev) (id t : Nat) : Canon d (d.endJob id t) := .same
theorem enterJob (d : Dev) (id : Nat) (foot : List Foot) : Canon d (d.enterJob id foot) := .same
theorem touchLine (d : Dev) (slot pa ctx : Nat) : Canon d (d.touchLine slot pa ctx) := (Sound.touchLine d slot pa ctx).cells
theorem walkNow (d : Dev) (core : Nat) (c : Ctx) (va : Nat) : Canon d (d.walkNow core c va) := (Sound.walkNow d core c va).cells
theorem looked (d : Dev) (core : Nat) (c : Ctx) (va : Nat) : Canon d (d.looked core c va) := (Sound.looked d core c va).cells
theorem homeLoad (d : Dev) (ctx : Nat) (loc : Loc) (n c l : Nat) : Canon d (d.homeLoad ctx loc n c l).1 :=
  (Sound.homeLoad d ctx loc n c l).cells
theorem homeWrite (d : Dev) (ctx : Nat) (core : Option Nat) (device : Bool) (loc : Loc) (c : Nat) (f : Nat → List Byte) :
    Canon d (d.homeWrite ctx core device loc c f).1 := (Sound.homeWrite d ctx core device loc c f).cells
theorem homeRmw (d : Dev) (ctx : Nat) (core : Option Nat) (device : Bool) (loc : Loc) (n c : Nat) (f : Nat → List Byte → List Byte) :
    Canon d (d.homeRmw ctx core device loc n c f).1 := (Sound.homeRmw d ctx core device loc n c f).cells
theorem putLoc (d : Dev) (core : Nat) (sp : Space) (a : Nat) (bs : List Byte) : Canon d (d.putLoc core sp a bs) :=
  cellsOk_putLoc d core sp a bs
theorem zeroLoc (d : Dev) (core : Nat) (sp : Space) (r : Range) : Canon d (d.zeroLoc core sp r) := cellsOk_zeroLoc d core sp r
theorem of_putGlob {d e : Dev} {slot a : Nat} {bs : List Byte} (he : d.putGlob slot a bs = some e) : Canon d e := (Sound.of_putGlob he).cells
theorem postColl (d : Dev) (ctx q : Nat) (c : Desc) (t w b : Nat) (l : Option Nat) : Canon d (d.postColl ctx q c t w b l) :=
  (Sound.postColl d ctx q c t w b l).cells
theorem afterWrite (d : Dev) (ctx : Nat) (core : Option Nat) (device : Bool) (pa n t : Nat) : Canon d (d.afterWrite ctx core device pa n t) :=
  (Sound.afterWrite d ctx core device pa n t).cells
theorem wakeMonitors (d : Dev) (pa t : Nat) : Canon d (d.wakeMonitors pa t) := (Sound.wakeMonitors d pa t).cells
theorem logWrite (d : Dev) (ctx pa : Nat) : Canon d (d.logWrite ctx pa) := (Sound.logWrite d ctx pa).cells
theorem mailboxWrite (d : Dev) (pa n : Nat) : Canon d (d.mailboxWrite pa n) := (Sound.mailboxWrite d pa n).cells
theorem fireTriggers (d : Dev) (pa n t : Nat) : Canon d (d.fireTriggers pa n t) := (Sound.fireTriggers d pa n t).cells

theorem lookedAll (d : Dev) (core : Nat) (c : Ctx) (vas : List Nat) : Canon d (d.lookedAll core c vas) := .foldl (fun d va => .looked d core c va) vas d

theorem spoil (d : Dev) (i : Nat) (bs : List Byte) : Canon d (d.spoil i bs) :=
  .ite (.refl d) fun h => ⟨wf_cellWrite _ _ _ h.1, h.2⟩

theorem keepChecks (d : Dev) (pa n : Nat) (whole : Nat → Bool) (checks : List (BitVec 16)) : Canon d (d.keepChecks pa n whole checks) :=
  .foldl (fun d x => .ite .same (.refl d)) _ d

theorem putL1 (d : Dev) (l : L1Line) : Canon d (d.putL1 l) := by
  simp only [Dev.putL1]
  split
  · exact .same
  · exact .same

theorem l1Fill (d : Dev) (core ctx pa : Nat) : Canon d (d.l1Fill core ctx pa) := .putL1 d _

theorem l1Renew (d : Dev) (core ctx pa : Nat) : Canon d (d.l1Renew core ctx pa) := .ite (.l1Fill d core ctx pa) (.refl d)

/-! ## Waves, blocks and engines -/

theorem pay (ctx n : Nat) (d : Dev) : Canon d (Dev.pay ctx n d) := (Sound.pay ctx n d).cells
theorem owe (d : Dev) (ctx : Nat) (l : List (Nat × Nat × OwedWrite)) : Canon d (d.owe ctx l) := (Sound.owe d ctx l).cells
theorem owedReply (d : Dev) (ctx : Nat) (t : Option Nat) : Canon d (d.owedReply ctx t) := (Sound.owedReply d ctx t).cells
theorem payOne (d : Dev) (o : Owed) : Canon d (d.payOne o).1 := (Sound.payOne d o).cells
theorem markLevels (d : Dev) (ctx : Nat) (error cancelled : Bool) (c n addr : Nat) : Canon d (d.markLevels ctx error cancelled c n addr).1 :=
  (Sound.markLevels d ctx error cancelled c n addr).cells
theorem markLaunch (d : Dev) (id : Nat) (error cancelled : Bool) (c : Nat) : Canon d (d.markLaunch id error cancelled c) :=
  (Sound.markLaunch d id error cancelled c).cells
theorem decLevel (d : Dev) (ctx n addr c : Nat) : Canon d (d.decLevel ctx n addr c).1 := (Sound.decLevel d ctx n addr c).cells
theorem decLaunch (d : Dev) (id n c : Nat) : Canon d (d.decLaunch id n c) := (Sound.decLaunch d id n c).cells
theorem darkenFor (die need n : Nat) (d : Dev) : Canon d (d.darkenFor die need n) := (Sound.darkenFor die need n d).cells
theorem grantHead (d : Dev) (core : Nat) (k : EngKind) : Canon d (d.grantHead core k) := (Sound.grantHead d core k).cells
theorem releaseEngine (d : Dev) (core : Nat) (k : EngKind) : Canon d (d.releaseEngine core k) := (Sound.releaseEngine d core k).cells
theorem douse (d : Dev) (core : Nat) (k : EngKind) (w : Nat) : Canon d (d.douse core k w) := (Sound.douse d core k w).cells
theorem douseAll (d : Dev) (core w : Nat) : Canon d (d.douseAll core w) := (Sound.douseAll d core w).cells
theorem tryRelease (d : Dev) (b : Block) (n : Nat) : Canon d (d.tryRelease b n) := (Sound.tryRelease d b n).cells
theorem recheckBars (d : Dev) (b : Block) : Canon d (d.recheckBars b) := (Sound.recheckBars d b).cells
theorem noteDone (d : Dev) (id wave block : Nat) (g : StrandMask) (t : Nat) : Canon d (d.noteDone id wave block g t) :=
  (Sound.noteDone d id wave block g t).cells
theorem waveGone (d : Dev) (w : Wave) (b : Block) : Canon d (d.waveGone w b) := (Sound.waveGone d w b).cells
theorem endStopped (d : Dev) (block : Nat) : Canon d (d.endStopped block) := (Sound.endStopped d block).cells
theorem onWave (d : Dev) (k : Issue) (f : Wave → Wave) : Canon d (d.onWave k f) := .same
theorem onGang (d : Dev) (k : Issue) (f : Nat → Strand → Strand) : Canon d (d.onGang k f) := .same
theorem advance (d : Dev) (k : Issue) (len : Nat) : Canon d (d.advance k len) := .same
theorem setScalars (d : Dev) (k : Issue) (r : SReg) (f : Nat → Word) : Canon d (d.setScalars k r f) := .same
theorem stall (d : Dev) (k : Issue) (what : WaitFor) : Canon d (d.stall k what) := .same
theorem giveEngine (d : Dev) (core : Nat) (k : EngKind) (r : Req) (st : EngSt) (till : Nat) : Canon d (d.giveEngine core k r st till) := .same
theorem noteTrigger (d : Dev) (w : Wave) (g : StrandMask) : Canon d (d.noteTrigger w g) := .same

theorem stopWaves (d : Dev) (b : Block) : Canon d (d.stopWaves b) :=
  ((Canon.foldl (fun d w => .noteTrigger d w 0xFF) (d.liveWaves b.id) d).trans (setWaves _ _)).trans (.foldl (fun d w => .waveGone d w b) _ _)

theorem endBlock (d : Dev) (id : Nat) : Canon d (d.endBlock id) := by
  rw [Dev.endBlock]
  split
  · exact .refl d
  · split
    · exact (stopWaves d _).trans (.markLaunch _ _ _ _ _)
    · exact stopWaves d _

theorem forceExit (d : Dev) (id : Nat) : Canon d (d.forceExit id) := by
  rw [Dev.forceExit]
  split
  · exact .refl d
  next b hb =>
  have hstop := (stopWaves d b).trans (.foldl (fun d (j : Job) => .endJob d j.id j.clock) ((d.stopWaves b).jobs.filter fun j =>
    j.block == id && queuedTile j) _)
  split
  · refine .trans (.trans ?_ (.modBlock _ _ _)) (.markLaunch _ _ _ _ _)
    exact ((hstop.trans (.setJobs _ _)).trans (.endStopped _ id)).trans (.setCores _ _)
  · refine .trans ?_ (.modBlock _ _ _)
    exact ((hstop.trans (.setJobs _ _)).trans (.endStopped _ id)).trans (.setCores _ _)

theorem dropAsks (d : Dev) (id : Nat) : Canon d (d.dropAsks id) := .ite .same (.refl d)

theorem enterHandler (d : Dev) (id : Nat) : Canon d (d.enterHandler id) := by
  have henter : Canon d ((d.modWave id Wave.enter).dropAsks id) := (modWave d id _).trans (dropAsks _ id)
  rw [Dev.enterHandler]
  split
  · exact .refl d
  · split
    · exact .same
    · simp only []
      split
      · exact henter
      · exact henter.thenIte .same

theorem trapWave (d : Dev) (id cause : Nat) : Canon d (d.trapWave id cause) := by
  rw [Dev.trapWave]
  split
  · exact .refl d
  · exact .ite ((modWave d id _).trans (endBlock _ _)) ((modWave d id _).trans (enterHandler _ id))

theorem trap (d : Dev) (k : Issue) (cause : Nat) : Canon d (d.trap k cause) := trapWave d _ _

theorem trapMem (d : Dev) (k : Issue) (cause : Nat) (addr : Word) (mask : LaneMask) : Canon d (d.trapMem k cause addr mask) :=
  (modWave d _ _).trans (trap _ k cause)

theorem raiseAsync (d : Dev) (id cause : Nat) : Canon d (d.raiseAsync id cause) := by
  rw [Dev.raiseAsync]
  split
  · exact .refl d
  · refine .ite (.refl d) (.ite .same (.ite .same ?_))
    split
    · exact (modWave d id _).trans (endBlock _ _)
    · exact (modWave d id _).trans (forceExit _ _)
    · exact .same

theorem raiseDeferred (d : Dev) (id cause : Nat) : Canon d (d.raiseDeferred id cause) := by
  rw [Dev.raiseDeferred]
  split
  · exact .refl d
  · exact .ite (.ite .same ((modWave d id _).trans (endBlock _ _))) ((modWave d id _).trans (enterHandler _ id))

theorem notice (d : Dev) (wave block ctx : Nat) (gang : StrandMask) (pc : Word) (clock cause addr : Nat) :
    Canon d (d.notice wave block ctx gang pc clock cause addr) := .same

theorem raiseBlock (d : Dev) (b cause : Nat) : Canon d (d.raiseBlock b cause) := .foldl (fun d (w : Wave) => .raiseAsync d w.id cause) (d.liveWaves b) d

theorem leaveHandler (d : Dev) (k : Issue) : Canon d (d.leaveHandler k) :=
  .ite .same (.ite (endBlock d _) (.ite (forceExit d _) (.ite (trap d k _) .same)))

/-! ## Fetch and time -/

theorem loadCode (d : Dev) (core : Nat) (c : Ctx) (va : Nat) : Canon d (d.loadCode core c va) := by
  rw [Dev.loadCode]
  split
  · split
    · exact ((looked d core c va).trans (.touchLine _ _ _ _)).trans (.l1Fill _ _ _ _)
    · exact looked d core c va
  · exact looked d core c va

theorem fillCode (d : Dev) (core : Nat) (c : Ctx) (va : Nat) : Canon d (d.fillCode core c va) :=
  (Canon.ite ((loadCode d core c va).trans (loadCode _ core c _)) (loadCode d core c va)).upd

theorem askCode (d : Dev) (c : Ctx) (l : List (Nat × Nat × Nat)) : Canon d (d.askCode c l) := .foldl (fun d x => .ite (.refl d) .same) l d

theorem dropCode (d : Dev) (ctx : Nat) : Canon d (d.dropCode ctx) := .same
theorem forgetCode (d : Dev) (ctx : Nat) : Canon d (d.forgetCode ctx) := .same
theorem tick (d : Dev) (dt : Nat) : Canon d (d.tick dt) := .ite (.refl d) .same

theorem fetch (d : Dev) (k : Issue) : Canon d (d.fetch k).2 := by
  rw [Dev.fetch]
  split
  · exact .refl d
  · split
    · exact (fillCode d _ _ _).trans (dropCode _ _)
    · exact (askCode d _ _).trans (stall _ k _)

/-! ## Servers and the issue ports -/

theorem modServer (d : Dev) (ctx : Nat) (p : Point) (f : Server → Server) : Canon d (d.modServer ctx p f) := .same
theorem chargeAt (d : Dev) (ctx : Nat) (p : Point) (i u : Nat) : Canon d (d.chargeAt ctx p i u) := .same
theorem syncPoint (d : Dev) (p : Point) (i : Nat) (wants : List (Nat × Nat)) : Canon d (d.syncPoint p i wants) := .same
theorem notePending (d : Dev) (p : Point) (i : Nat) (ctxs : List Nat) : Canon d (d.notePending p i ctxs) := .same
theorem noteTurn (d : Dev) (p : Point) (ctx : Nat) : Canon d (d.noteTurn p ctx) := .ite (.refl d) .same
theorem pruneYields (d : Dev) : Canon d d.pruneYields := .same
theorem dropNoted (d : Dev) (g : GangRef) : Canon d (d.dropNoted g) := .same

theorem selectIssue (d : Dev) (core port : Nat) : Canon d (d.selectIssue core port) := by
  have hsync : ∀ wants, Canon d (d.syncPoint (.port core) port wants) := fun wants => .syncPoint d _ _ wants
  rw [Dev.selectIssue]
  refine .ite (.refl d) ?_
  simp only []
  split
  · exact hsync _
  · split
    · exact hsync _
    · split
      · exact hsync _
      · refine .trans (.trans (.trans ?_ (.dropNoted _ _)) (.modWave _ _ _)) (.setLatch _ _)
        exact (((hsync _).trans (.chargeAt _ _ _ _ _)).trans (.modCore _ _ _)).thenIte (.modCore _ _ _)

theorem stallEach (d : Dev) (k : Issue) (what : Nat → WaitFor) : Canon d (d.stallEach k what) := .same

theorem whenSettled {d : Dev} {k : Issue} {f : Dev → Dev} (h : Canon d (f d)) : Canon d (d.whenSettled k f) := .ite h (.stall d k _)

theorem transfer (d : Dev) (k : Issue) (target : Nat → Option Int) (link : Bool) : Canon d (d.transfer k target link) := .ite (.trap d k _) .same

/-! ## Memory operations -/

theorem addOp (d : Dev) (k : Issue) (kind : MemKind) (lanes : List LaneAcc) (whole : Bool) : Canon d (d.addOp k kind lanes whole) := .same
theorem opTime (d : Dev) (o : MemOp) (t : Nat) : Canon d (d.opTime o t) := .same
theorem laneDone (d : Dev) (op lane : Nat) (st : LaneSt) : Canon d (d.laneDone op lane st) := .same

theorem endOp (d : Dev) (o : MemOp) : Canon d (d.endOp o) := .ite ((Canon.same).trans (.noteDone _ _ _ _ _ _)) (.ite .same .same)

theorem endSload (d : Dev) (o : MemOp) (r : SReg) : Canon d (d.endSload o r) := by
  rw [Dev.endSload]
  simp only []
  split
  · exact .ite .same ((Canon.same).trans (.trapWave _ _ _))
  · exact .same

theorem settleOp (d : Dev) (op : Nat) : Canon d (d.settleOp op) := by
  rw [Dev.settleOp]
  split
  · exact .refl d
  · refine .ite (.refl d) ?_
    split
    · exact .endSload d _ _
    · exact .ite (.endOp d _) (.refl d)

theorem sendRemote (d : Dev) (o : MemOp) (a : LaneAcc) (pkg pa : Nat) (ask : RemoteAsk) : Canon d (d.sendRemote o a pkg pa ask) := .same
theorem askAts (d : Dev) (fn iova : Nat) : Canon d (d.askAts fn iova) := .ite (.refl d) .same
theorem sendHostRead (d : Dev) (o : MemOp) (a : LaneAcc) (fn iova : Nat) : Canon d (d.sendHostRead o a fn iova) := .same

theorem lanesDone (op : Nat) (st : Dev → LaneAcc → LaneSt) (l : List LaneAcc) (d : Dev) :
    Canon d (l.foldl (fun d a => d.laneDone op a.lane (st d a)) d) := .foldl (fun d a => .laneDone d _ _ _) l d

theorem sendGroup (d : Dev) (o : MemOp) (a : LaneAcc) (as : List LaneAcc) (pkg pa : Nat) (ask : RemoteAsk) :
    Canon d (d.sendGroup o a as pkg pa ask) := (sendRemote d o a pkg pa ask).trans (lanesDone _ _ as _)

theorem serveCopyOf (d : Dev) (o : MemOp) (as : List LaneAcc) (l : L1Line) : Canon d (d.serveCopyOf o as l) :=
  ((putL1 d l).trans (lanesDone o.id (fun _ a => match l.read a.inLine a.n with | some bs => .done (max o.clock l.wt) bs | none => .failed cIntegrity)
    as _)).trans (.opTime _ o _)

theorem loadEvent (d : Dev) (core : Nat) (o : MemOp) (as : List LaneAcc) (loc : Loc) (lease : Nat) : Canon d (d.loadEvent core o as loc lease) := by
  unfold Dev.loadEvent
  split
  all_goals
    simp only []
    refine .trans ?_ (.opTime _ o _)
    refine .trans ?_ (.foldl (fun d a => .laneDone d _ _ _) _ _)
    split
    · exact (homeLoad d _ _ _ _ _).trans (.l1Fill _ _ _ _)
    · exact (homeLoad d _ _ _ _ _).trans (.l1Renew _ _ _ _)
    · exact homeLoad d _ _ _ _ _

theorem storeEvent (d : Dev) (core : Nat) (o : MemOp) (as : List LaneAcc) (loc : Loc) : Canon d (d.storeEvent core o as loc) := by
  rw [Dev.storeEvent]
  split
  next e t ok heq =>
  have hwrite : Canon d e := (homeWrite d _ _ _ _ _ _).fst heq
  exact (hwrite.trans (.foldl (fun d a => .laneDone d _ _ _) as _)).thenIte (.opTime _ o t)

theorem performLoad (d : Dev) (o : MemOp) (lane lease : Nat) (useL1 : Bool) : Canon d (d.performLoad o lane lease useL1) := by
  rw [Dev.performLoad]
  split
  · simp only []
    split
    · exact (serveCopyOf d o _ _).trans (.settleOp _ _)
    · split
      · exact sendGroup d o _ _ _ _ _
      · exact .ite (sendHostRead d o _ _ _) (askAts d _ _)
      · exact (loadEvent d _ o _ _ _).trans (.settleOp _ _)
  · exact .refl d

theorem performStore (d : Dev) (o : MemOp) (lane : Nat) : Canon d (d.performStore o lane) := by
  rw [Dev.performStore]
  split
  · simp only []
    split
    · exact sendGroup d o _ _ _ _ _
    · exact .ite (((send d _).trans (.laneDone _ _ _ _)).trans (.settleOp _ _)) (askAts d _ _)
    · exact (storeEvent d _ o _ _).trans (.settleOp _ _)
  · exact .refl d

theorem queueOpen (d : Dev) (o : MemOp) (p t : Nat) : Canon d (d.queueOpen o p t) := by
  rw [Dev.queueOpen]
  split
  · split
    · exact .same
    · exact ((Canon.ite (refl d) (lookedAll d _ _ _)).trans (.noteDone _ _ _ _ _ _)).trans (.modOp _ _ _)
  · exact .refl d

/-- What follows an access of a lane at its home. -/
theorem laneEnds {d e : Dev} (h : Canon d e) (op lane : Nat) (st : LaneSt) : Canon d ((e.laneDone op lane st).settleOp op) :=
  (h.trans (.laneDone e op lane st)).trans (.settleOp _ op)

theorem performAtomic (d : Dev) (o : MemOp) (lane : Nat) : Canon d (d.performAtomic o lane) := by
  rw [Dev.performAtomic]
  split
  · split
    · exact sendRemote d o _ _ _ _
    · split
      · split
        next e _ heq => exact .laneEnds ((homeLoad d _ _ _ _ _).fst heq) _ _ _
      · refine .ite ((queueOpen d o _ _).trans (.settleOp _ _)) ?_
        split
        next e t r heq =>
        have hrmw : Canon d e := (homeRmw d _ _ _ _ _ _ _).fst heq
        split
        · exact hrmw.laneEnds _ _ _
        · exact ((hrmw.trans (.queueOpen e o _ _)).trans (.opTime _ o t)).trans (.settleOp _ _)
    · split
      next e t r heq =>
      have hrmw : Canon d e := (homeRmw d _ _ _ _ _ _ _).fst heq
      split
      · exact hrmw.laneEnds _ _ _
      · exact ((hrmw.trans (.laneDone e _ _ _)).trans (.opTime _ o t)).trans (.settleOp _ _)
  · exact .refl d

theorem inTurn {d : Dev} {op : Nat} {p : MemKind → Bool} {f : MemOp → Dev} (h : ∀ o, Canon d (f o)) : Canon d (d.inTurn op p f) := by
  rw [Dev.inTurn]
  split
  · exact .refl d
  · exact .ite (h _) (.refl d)

/-! ## Ranges that a unit reads and writes -/

theorem setInbox (d : Dev) (l : List (Nat × Nat × Answer)) : Canon d { d with inbox := l } := .same
theorem dropReplies (d : Dev) (owner : Nat) : Canon d (d.dropReplies owner) := .same
theorem askFor (d : Dev) (owner off ctx pkg pa clock : Nat) (ask : RemoteAsk) : Canon d (d.askFor owner off ctx pkg pa clock ask) :=
  .ite (.refl d) .same

theorem askSpans (d : Dev) (core : Nat) (x : Ctx) (owner clock base : Nat) (need : Need) (ask : Nat → Span → RemoteAsk) (l : List Span) :
    Canon d (d.askSpans core x owner clock base need ask l).1 := by
  refine .foldlPair (fun q sp => ?_) l (d, true)
  split
  · exact askFor _ _ _ _ _ _ _ _
  · exact .refl _

theorem loadOnce (d : Dev) (ctx : Nat) (loc : Loc) (n c l : Nat) : Canon d (d.loadOnce ctx loc n c l).1 := by
  unfold Dev.loadOnce
  split
  · split
    · exact homeLoad d ctx _ n c l
    · exact ((homeLoad d _ _ _ _ _).trans (homeLoad _ _ _ _ _ _)).trans (homeLoad _ _ _ _ _ _)
  · exact homeLoad d ctx loc n c l

theorem readSpans (core : Nat) (x : Ctx) (owner base lease : Nat) (l : List Span) (t : Nat) (d : Dev) :
    Canon d (d.readSpans core x owner base lease t l).1 := by
  induction l generalizing t d with
  | nil => exact .refl d
  | cons sp l ih =>
    rw [Dev.readSpans]
    have hrest : ∀ {e : Dev}, Canon d e → ∀ t bs, Canon d (match e.readSpans core x owner base lease t l with
        | (d, .ok t bs') => (d, Reach.ok t (bs ++ bs'))
        | r => r).1 := fun {e} he t bs => by
      have hread := he.trans (ih t e)
      split
      next f _ _ heq => exact hread.fst heq
      · exact hread
    split
    · exact .refl d
    · split
      · exact hrest (.refl d) _ _
      · exact .refl d
      · exact .refl d
    · split
      next e _ _ heq => exact hrest ((loadOnce d _ _ _ _ _).fst heq) _ _
      next e _ heq => exact (loadOnce d _ _ _ _ _).fst heq

theorem lookedSpans (core : Nat) (x : Ctx) (l : List Span) (q : Dev × Reach) : Canon q.1 (Dev.lookedSpans core x l q).1 := lookedAll _ _ _ _

theorem reachList (d : Dev) (core : Nat) (x : Ctx) (owner base clock lease : Nat) (l : List Span) :
    Canon d (d.reachList core x owner base clock lease l).1 := by
  rw [Dev.reachList]
  split
  next e all heq =>
  have hask : Canon d e := (askSpans d _ _ _ _ _ _ _ _).fst heq
  refine .trans ?_ (lookedSpans core x l _)
  split
  · exact hask.trans (readSpans _ _ _ _ _ _ _ e)
  · exact hask

theorem reachFrom (d : Dev) (core : Nat) (x : Ctx) (owner base unit va n clock lease : Nat) :
    Canon d (d.reachFrom core x owner base unit va n clock lease).1 := reachList d _ _ _ _ _ _ _

theorem reachOnce (d : Dev) (core : Nat) (x : Ctx) (owner base va n clock : Nat) : Canon d (d.reachOnce core x owner base va n clock).1 := by
  unfold Dev.reachOnce
  simp only []
  have hask : ∀ t, Canon d (d.askSpans core x owner t base needR (fun _ sp => .read sp.n) (spans 4096 va n)).1 := fun t =>
    askSpans d _ _ _ _ _ _ _ _
  split
  · refine .trans ?_ (lookedSpans core x _ _)
    exact hask _
  · refine .trans ?_ (lookedSpans core x _ _)
    split
    next f t _ hread =>
      have hf : Canon d f := ((hask _).trans (readSpans _ _ _ _ _ _ _ _)).fst hread
      split
      · exact hf.trans (readSpans _ _ _ _ _ _ _ f)
      · exact (hf.trans (setInbox f _)).trans (askSpans _ _ _ _ _ _ _ _ _)
    · exact (hask _).trans (readSpans _ _ _ _ _ _ _ _)

theorem reachRead (d : Dev) (core : Nat) (x : Ctx) (owner unit va n clock lease : Nat) :
    Canon d (d.reachRead core x owner unit va n clock lease).1 := by
  rw [Dev.reachRead]
  split
  next e heq => exact (reachFrom d _ _ _ _ _ _ _ _ _).fst heq
  next e _ _ heq => exact ((reachFrom d _ _ _ _ _ _ _ _ _).fst heq).trans (dropReplies e owner)

theorem writeSpans (core : Nat) (x : Ctx) (owner : Nat) (bs : List Byte) (l : List Span) (t : Nat) (d : Dev) :
    Canon d (d.writeSpans core x owner bs t l).1 := by
  induction l generalizing t d with
  | nil => exact .refl d
  | cons sp l ih =>
    rw [Dev.writeSpans]
    split
    · exact .refl d
    · split
      · exact ih _ d
      · exact .refl d
      · exact .refl d
    · split
      next e _ heq => exact ((homeWrite d _ _ _ _ _ _).fst heq).trans (ih _ e)
      next e _ heq => exact (homeWrite d _ _ _ _ _ _).fst heq

theorem reachWrite (d : Dev) (core : Nat) (x : Ctx) (owner va clock : Nat) (bs : List Byte) : Canon d (d.reachWrite core x owner va clock bs).1 := by
  unfold Dev.reachWrite
  simp only []
  refine .trans ?_ (lookedSpans core x _ _)
  split
  · exact ((askSpans d _ _ _ _ _ _ _ _).trans (writeSpans _ _ _ _ _ _ _)).trans (dropReplies _ owner)
  · exact askSpans d _ _ _ _ _ _ _ _

theorem readBuf (d : Dev) (core : Nat) (sp : Space) (a n c : Nat) : Canon d (d.readBuf core sp a n c).1 := by
  unfold Dev.readBuf
  refine .foldlPair (fun q s => ?_) _ (d, c, some [])
  split
  next heq => exact (homeLoad q.1 _ _ _ _ _).fst heq
  next heq _ => exact (homeLoad q.1 _ _ _ _ _).fst heq

theorem writeBuf (d : Dev) (core : Nat) (sp : Space) (a c : Nat) (bs : List Byte) : Canon d (d.writeBuf core sp a c bs).1 := by
  unfold Dev.writeBuf
  refine .foldlPair (fun q s => ?_) _ (d, c)
  split
  next heq => exact (homeWrite q.1 _ _ _ _ _ _).fst heq

end Canon

/-! ## Instructions and steps -/

/-- What a step leaves has canonical memories if the state before it has. -/
def KeepsCells (s : State) (o : Host.Outcome State Fault Refusal) : Prop := ∀ t, o = .next t → Canon s.dev t.dev

namespace KeepsCells

theorem next {s t : State} (h : Canon s.dev t.dev) : KeepsCells s (.next t) := fun _ ht => Host.Outcome.next.inj ht ▸ h

theorem fault {s : State} (f : Fault) : KeepsCells s (.fault f) := fun _ h => nomatch h

theorem refused {s : State} (r : Refusal) : KeepsCells s (.refused r) := fun _ h => nomatch h

theorem onDev {s : State} {f : Dev → Dev} (h : ∀ d, Canon d (f d)) : KeepsCells s (onDev s f) := next (h s.dev)

theorem issue {s : State} {f : Issue → Dev → Dev} (h : ∀ k d, Canon d (f k d)) : KeepsCells s (issue s f) := by
  rw [Machine.issue]
  split
  · exact fault _
  · exact next ((Canon.setLatch s.dev none).trans (h _ _))

theorem guarded {s : State} {c : Issue → Dev → Option Nat} {f : Issue → Dev → Dev} (h : ∀ k d, Canon d (f k d)) : KeepsCells s (guarded s c f) :=
  issue fun k d => by
    split
    · exact .trap d k _
    · exact h k d

theorem andNext {s : State} {n : Nat} {f : Issue → Dev → Dev} (h : ∀ k d, Canon d (f k d)) : KeepsCells s (andNext s n f) :=
  issue fun k d => (h k d).trans (.advance _ k n)

theorem ite {s : State} {p : Prop} [Decidable p] {a b : Host.Outcome State Fault Refusal} (ha : KeepsCells s a) (hb : KeepsCells s b) :
    KeepsCells s (if p then a else b) := by
  split
  · exact ha
  · exact hb

end KeepsCells


end Sys2Proof.Proofs
end

section
/-!
SUPPORT. The instructions and steps of control, memory and copies keep the sparse memories canonical.
-/

open Sys2Proof Sys2Proof.Machine

-- The whole text is compiled in one process, which can hold few threads: these many short proofs are elaborated in order.
set_option Elab.async false

namespace Sys2Proof.Proofs

namespace Canon

/-! ## Scalar memory, monitors, tags and barriers -/

theorem setReports (d : Dev) (l : List MemOp) : Canon d { d with reports := l } := .same
theorem setRemotes (d : Dev) (l : List Remote) : Canon d { d with remotes := l } := .same
theorem setNextId (d : Dev) (n : Nat) : Canon d { d with nextId := n } := .same
theorem setPicks (d : Dev) (l : List (Point × Nat)) : Canon d { d with picks := l } := .same
theorem setFree (d : Dev) (n : Nat) : Canon d { d with free := n } := .same
theorem freeWord (d : Dev) : Canon d d.freeWord.2 := .same

theorem scalarAccess {d : Dev} {k : Issue} {a : SReg} {i : BitVec 12} {n : Nat} {need : Need} {host : Bool} {f : Dev → List (Nat × Loc) → Dev}
    (hf : ∀ d ps, Canon d (f d ps)) : Canon d (d.scalarAccess k a i n need host f) := by
  rw [Dev.scalarAccess]
  split
  · exact (lookedAll d _ _ _).trans (.trapMem _ _ _ _ _)
  · exact (lookedAll d _ _ _).trans (hf _ _)

theorem sloadAt (d : Dev) (k : Issue) (pa n : Nat) : Canon d (d.sloadAt k pa n).1 := by
  unfold Dev.sloadAt
  simp only []
  split
  · exact (freeWord d).trans (.putL1 _ _)
  · exact ((freeWord d).trans (.homeLoad _ _ _ _ _ _)).trans (.l1Renew _ _ _ _)

theorem sloadAll (k : Issue) (n : Nat) (ps : List (Nat × Loc)) (d : Dev) : Canon d (d.sloadAll k n ps).1 := by
  induction ps generalizing d with
  | nil => exact .refl d
  | cons p ps ih =>
    unfold Dev.sloadAll
    simp only []
    split
    · exact (sloadAt d k _ n).trans (ih _)
    · exact (sloadAt d k _ n).trans (ih _)

theorem sstoreAll (k : Issue) (as : List LaneAcc) (d : Dev) : Canon d (d.sstoreAll k as).1 := by
  induction as generalizing d with
  | nil => exact .refl d
  | cons a as ih =>
    rw [Dev.sstoreAll]
    simp only []
    split
    · exact (homeWrite d _ _ _ _ _ _).trans (ih _)
    · exact (homeWrite d _ _ _ _ _ _).trans (ih _)

theorem monFailed (d : Dev) (k : Issue) (t e : Nat) (ea : Word) : Canon d (d.monFailed k t e ea) :=
  .ite .same ((dropReplies d _).trans (.trapMem _ k e ea _))

/-- Requests of the strands whose lines lie on other packages. -/
theorem asksAll {ask : Dev → Nat × Loc → Dev} (hask : ∀ d p, Canon d (ask d p)) (ps : List (Nat × Loc)) (d : Dev) : Canon d (ps.foldl ask d) :=
  .foldl hask ps d

theorem armMonitors (d : Dev) (k : Issue) (ps : List (Nat × Loc)) : Canon d (d.armMonitors k ps) := by
  unfold Dev.armMonitors
  refine .trans ?_ (.onGang _ k _)
  refine .ite (.refl d) (.trans (.foldl (fun d p => ?_) ps d) (dropReplies _ _))
  split
  · exact .same
  · exact .refl d

theorem takeTag (d : Dev) (k : Issue) (r a : SReg) (t : Nat) : Canon d (d.takeTag k r a t) := by
  rw [Dev.takeTag]
  split
  · exact .refl d
  · simp only []
    split
    · exact .same
    · exact .same

theorem arrive (d : Dev) (k : Issue) (n : Nat) : Canon d (d.arrive k n) := by
  rw [Dev.arrive]
  split
  · exact (onWave d k _).trans (.tryRelease _ _ _)
  · exact .same

/-! ## Lane memory -/

theorem afterChecks {d : Dev} {k : Issue} {glob : Bool} {ps : LanePlaces} {f : Dev → List (Nat × Word × Loc) → Dev} (hf : ∀ d ps, Canon d (f d ps)) :
    Canon d (d.afterChecks k glob ps f) := by
  have hlooked : Canon d (if glob then d.lookedAll k.core k.ctx (ps.map (·.2.1.toNat)) else d) := .ite (lookedAll d _ _ _) (.refl d)
  rw [Dev.afterChecks]
  simp only []
  split
  · exact hlooked.trans (.trapMem _ _ _ _ _)
  · exact hlooked.trans (hf _ _)

theorem askLine (d : Dev) (core : Nat) (x : Ctx) (pkg pa : Nat) : Canon d (d.askLine core x pkg pa) := .ite (.refl d) .same

/-! ## Copies -/

theorem writeSector (d : Dev) (slot : Nat) (loc : Loc) (t : Nat) (bs mask : List Byte) : Canon d (d.writeSector slot loc t bs mask).1 := by
  rw [Dev.writeSector]
  split
  · exact homeWrite d _ _ _ _ _ _
  · exact homeRmw d _ _ _ _ _ _ _

theorem clearTag (d : Dev) (block : Nat) (t : Option (BitVec 6)) : Canon d (d.clearTag block t) := by
  cases t with
  | none => exact .refl d
  | some t => exact .same

theorem modCopy (d : Dev) (id : Nat) (f : Copy → Copy) : Canon d (d.modCopy id f) := .same

theorem jobRequest (d : Dev) (j : Job) (piece off : Nat) (loc : Loc) (ask : RemoteAsk) : Canon d (d.jobRequest j piece off loc ask) := by
  unfold Dev.jobRequest
  simp only []
  split
  · exact .same
  · split
    · exact .same
    · exact .same
    · exact .same
  · exact .same

theorem recordBytes (d : Dev) (j : Job) (c : Copy) (b : Block) (x : Ctx) (piece addr : Nat) : Canon d (d.recordBytes j c b x piece addr).1 := by
  have hhere : Canon d (d.looked b.core x addr) := looked d _ _ _
  unfold Dev.recordBytes
  split
  · exact .refl d
  · simp only []
    split
    · exact hhere
    · exact (hhere.trans (.homeLoad _ _ _ _ _ _)).trans (.modJob _ _ _)
    · split
      · exact .refl d
      · exact .refl d
      · split
        · exact .refl d
        · split
          · exact hhere.trans (.jobRequest _ _ _ _ _ _)
          · exact hhere.trans (.askAts _ _ _)
      · split
        · exact .refl d
        · exact hhere.trans (.jobRequest _ _ _ _ _ _)

theorem enterCopy (d : Dev) (j : Job) (c : Copy) : Canon d (d.enterCopy j c) := by
  unfold Dev.enterCopy
  split
  · next b x _ _ =>
    simp only []
    have hA := recordBytes d j c b x recPieceA c.recA
    split
    next e heq => exact hA.fst heq
    next e _ heq => exact (hA.fst heq).trans (.modCopy _ _ _)
    next e bs heq =>
      have he := hA.fst heq
      split
      · exact he.trans (.modCopy _ _ _)
      · split
        · split
          · exact he.trans (.modCopy _ _ _)
          · exact (he.trans (.modCopy _ _ _)).trans (.enterJob _ _ _)
        · have hB := recordBytes e j c b x recPieceB c.recB
          split
          next f heq => exact he.trans (hB.fst heq)
          next f _ heq => exact (he.trans (hB.fst heq)).trans (.modCopy _ _ _)
          next f bs heq =>
            have hf := he.trans (hB.fst heq)
            split
            · exact hf.trans (.modCopy _ _ _)
            · split
              · exact hf.trans (.modCopy _ _ _)
              · exact (hf.trans (.modCopy _ _ _)).trans (.enterJob _ _ _)
  · exact .refl d

theorem wakePath (d : Dev) (ctx : Nat) (loads : List (Point × Nat)) : Canon d (d.wakePath ctx loads) := .foldl (fun d _ => .modServer d _ _ _) loads d

theorem requestReads (d : Dev) (j : Job) (c : Copy) (b : Block) (x : Ctx) (p : Nat) : Canon d (d.requestReads j c b x p) := by
  unfold Dev.requestReads
  refine .foldl (fun d w => ?_) _ d
  split
  · exact jobRequest d _ _ _ _ _
  · exact .ite (jobRequest d _ _ _ _ _) (askAts d _ _)
  · exact .refl d

theorem readBoxRuns (b : Block) (x : Ctx) (c : Copy) (p lease : Nat) (l : List (List Run)) (t : Nat) (d : Dev) :
    Canon d (d.readBoxRuns b x c p lease t l).1 := by
  induction l generalizing t d with
  | nil => exact .refl d
  | cons g l ih =>
    rw [Dev.readBoxRuns]
    split
    · exact .refl d
    next loc _ =>
    have hone : Canon d (match loc with
        | .glob pa =>
          let (d, ti, v) := d.homeLoad x.n (.glob pa) (runsLen g) t lease
          (d, ti, some (match v with | some bs => Except.ok bs | none => .error cIntegrity))
        | _ => (d, t, (c.got p (runsKey g) (runsLen g)).map .ok)).1 := by
      split
      · exact homeLoad d _ _ _ _ _
      · exact .refl d
    simp only []
    split
    next e ti bs heq =>
      have he : Canon d e := hone.fst heq
      split
      next f _ _ hf => exact he.trans ((ih _ e).fst hf)
      · exact he.trans (ih _ e)
    next e _ _ heq => exact hone.fst heq
    next e _ heq => exact hone.fst heq

theorem readLocRuns (core : Nat) (sp : Space) (l : List Run) (t : Nat) (d : Dev) : Canon d (d.readLocRuns core sp t l).1 := by
  induction l generalizing t d with
  | nil => exact .refl d
  | cons r l ih =>
    rw [Dev.readLocRuns]
    split
    next e _ heq => exact (homeLoad d _ _ _ _ _).fst heq
    next e ti bs heq =>
      have he : Canon d e := (homeLoad d _ _ _ _ _).fst heq
      split
      next f _ _ hf => exact he.trans ((ih _ e).fst hf)
      · exact he.trans (ih _ e)

theorem writePatches (d : Dev) (x : Ctx) (j : Job) (c : Copy) (p t : Nat) (l : List Patch) : Canon d (d.writePatches x j c p t l).1 := by
  unfold Dev.writePatches
  simp only []
  refine .trans (.foldlPair (fun q w => ?_) _ (d, t)) (.foldl (fun d w => ?_) _ _)
  · exact writeSector q.1 _ _ _ _ _
  · split
    · exact jobRequest d _ _ _ _ _
    · exact .ite (jobRequest d _ _ _ _ _) (.foldl (fun d _ => .jobRequest d _ _ _ _ _) _ d)
    · exact .refl d

theorem setOps (d : Dev) (n : Nat) (l : List MemOp) : Canon d { d with nextId := n, memops := l } := .same
theorem setNotices (d : Dev) (n : Nat) (l : List MemOp) : Canon d { d with nextId := n, reports := l } := .same

theorem finishCopy (d : Dev) (job : Nat) : Canon d (d.finishCopy job) := by
  unfold Dev.finishCopy
  split
  · exact .refl d
  next j _ =>
  split
  · exact .refl d
  next c _ =>
  simp only []
  have htag : Canon d (match c.tag with
      | none => d
      | some i => d.modBlock j.block fun b =>
          let bit : Word := 1#64 <<< i
          { b with
            tags := ⟨i, max c.time j.clock⟩ :: b.tags.filter (·.tag != i)
            skipTags := if c.skipped then b.skipTags ||| bit else b.skipTags &&& ~~~bit }) := by
    split
    · exact .refl d
    · exact .same
  have hend := ((htag.trans (.modWave _ j.wave fun w => { w with doneCp := max w.doneCp (max c.time j.clock) })).trans
    (.noteDone _ job j.wave j.block c.gang (max c.time j.clock))).trans (.endJob _ job (max c.time j.clock))
  refine hend.trans ?_
  generalize Dev.endJob _ job (max c.time j.clock) = e
  split
  next a x b _ _ _ =>
    refine .ite (.refl e) ?_
    have hlooked := looked e b.core x a
    split
    · exact hlooked.trans (.setNotices _ _ _)
    · exact (hlooked.trans (.setOps _ _ _)).trans (.sendRemote _ _ _ _ _ _)
    · exact .ite ((hlooked.trans (.homeRmw _ _ _ _ _ _ _ _)).trans (.modBlock _ _ _)) ((hlooked.trans (.homeRmw _ _ _ _ _ _ _ _)).trans (.setNotices _ _ _))
  · exact .refl e

theorem copyOver (d : Dev) (job : Nat) : Canon d (d.copyOver job) := by
  rw [Dev.copyOver]
  split
  · exact .refl d
  · exact .ite (finishCopy d job) (.refl d)

theorem tellBarrier (d : Dev) (j : Job) (c : Copy) (n t : Nat) : Canon d (d.tellBarrier j c n t) := by
  rw [Dev.tellBarrier]
  split
  · exact homeRmw d _ _ _ _ _ _ _
  · exact .refl d

theorem landPiece (d : Dev) (j : Job) (c : Copy) (p t : Nat) (skip : Bool) : Canon d (d.landPiece j c p t skip) :=
  (tellBarrier d j c _ t).trans (.modCopy _ _ _)

theorem pieceFault (d : Dev) (j : Job) (p cause : Nat) (write : Bool) : Canon d (d.pieceFault j p cause write) :=
  (modCopy d _ _).trans (.copyOver _ _)

/-- A translation is asked for where a place is the host's. -/
theorem asksHost (d : Dev) (fn : Nat) (loc : Loc) (b : Bool) : Canon d (match loc with | .host a => if b then d.askAts fn a else d | _ => d) := by
  split
  · exact .ite (askAts d _ _) (.refl d)
  · exact .refl d

theorem writePiece (d : Dev) (j : Job) (c : Copy) (b : Block) (x : Ctx) (p t : Nat) (data : Nat → Byte) :
    Canon d (d.writePiece j c b x p t data) := by
  unfold Dev.writePiece
  split
  · exact pieceFault d _ _ _ _
  · simp only []
    split
    · exact .foldl (fun e (w : Patch) => asksHost e x.fn w.loc _) _ d
    · have hpatch := fun n l => ((setFree d n).trans (writePatches _ x j c p t l))
      split
      · exact ((hpatch _ _).trans (.modJob _ _ _)).trans (.pieceFault _ _ _ _ _)
      · exact .ite (((hpatch _ _).trans (.modJob _ _ _)).trans (.modCopy _ _ _)) (((hpatch _ _).trans (.modJob _ _ _)).trans (.landPiece _ _ _ _ _ _))

theorem runPiece (d : Dev) (j : Job) (c : Copy) (b : Block) (x : Ctx) (p : Nat) : Canon d (d.runPiece j c b x p) := by
  unfold Dev.runPiece
  simp only []
  have hread : ∀ {y : Dev × Nat × Fetch}, Canon d y.1 → Canon d (match y.2.2 with
      | .fault e => y.1.pieceFault j p e false
      | .missing => y.1.modCopy j.id fun c => if c.skipAll then c.dropPiece p else c.setPiece p .again
      | .bytes l => y.1.writePiece j c b x p y.2.1 (gathered l)) := fun {y} hy => by
    split
    · exact hy.trans (.pieceFault _ _ _ _ _)
    · exact hy.trans (.modCopy _ _ _)
    · exact hy.trans (.writePiece _ _ _ _ _ _ _ _)
  refine hread ?_
  split
  · exact (freeWord d).trans (.readLocRuns _ _ _ _ _)
  · exact (freeWord d).trans (.readBoxRuns _ _ _ _ _ _ _ _)

theorem chargedFrom (d : Dev) (n : Nat) : Canon d (d.chargedFrom n) := .same

theorem landOne (d : Dev) (j : Job) (c : Copy) (b : Block) (x : Ctx) (piece : Nat) : Canon d (d.landOne j c b x piece) := by
  unfold Dev.landOne
  split
  · exact (landPiece d _ _ _ _ _).trans (.copyOver _ _)
  · exact ((runPiece d _ _ _ _ _).trans (.chargedFrom _ _)).trans (.copyOver _ _)
  · exact (landPiece d _ _ _ _ _).trans (.copyOver _ _)
  · exact ((writePiece d _ _ _ _ _ _ _).trans (.chargedFrom _ _)).trans (.copyOver _ _)
  · exact .refl d

theorem skipFault (d : Dev) (j : Job) (c : Copy) (p : Nat) : Canon d (d.skipFault j c p) :=
  .ite (((tellBarrier d _ _ _ _).trans (.modCopy _ _ _)).trans (.copyOver _ _)) (modCopy d _ _)

theorem skipUnseen (d : Dev) (j : Job) (c : Copy) (b : Block) : Canon d (d.skipUnseen j c b) := by
  unfold Dev.skipUnseen
  split
  · exact .refl d
  · simp only []
    split
    · exact ((skipFault d _ _ _).trans (.modCore _ _ _)).trans (.markLaunch _ _ _ _ _)
    · exact (skipFault d _ _ _).trans (.modCore _ _ _)

theorem skipFaults (b : Block) (n : Nat) (d : Dev) : Canon d (d.skipFaults b n) := by
  induction n generalizing d with
  | zero => exact .refl d
  | succ n ih =>
    unfold Dev.skipFaults
    simp only []
    split
    · exact .same
    · exact ((skipFault d _ _ _).trans (.modWave _ _ _)).trans (ih _)

theorem setRun (d : Dev) (k : Issue) (r : SReg) (xs : List Word) : Canon d (d.setRun k r xs) := .foldl (fun d _ => .setScalars d k _ _) _ d

end Canon

namespace KeepsCells

variable {s : State}

/-! ## Control -/

theorem laneInstr {n : Nat} {regs : List Nat} {g : Guard} {f : LaneView → Wave → Wave} : KeepsCells s (laneInstr s n regs g f) :=
  issue fun k d => .ite (.trap d k _) ((Canon.thenIte (.refl d) .same).trans ((Canon.onWave _ k _).trans (.advance _ k n)))

theorem scalarOp {d : SReg} {f : Strand → Word} : KeepsCells s (scalarOp s d f) := issue fun _ _ => .same

theorem maskToScalar {d : SReg} {a : MReg} {f : LaneMask → Word} : KeepsCells s (maskToScalar s d a f) := andNext fun _ _ => .same

theorem maskOp {d : MReg} {f : Wave → LaneMask} : KeepsCells s (maskOp s d f) := andNext fun _ _ => .same

theorem branch {n : Nat} {o : BitVec n} {taken : Issue → Nat → Bool} : KeepsCells s (branch s o taken) := issue fun k d => .transfer d k _ _

theorem issueSelect (core port : Nat) : KeepsCells s (execIssueSelect core port s) :=
  onDev fun d => .ite (.refl d) ((Canon.pruneYields d).trans (.selectIssue _ core port))

theorem brk (c : BitVec 8) : KeepsCells s (execBrk c s) := issue fun k d => .ite .same (.trap d k _)

theorem rett : KeepsCells s (execRett s) := guarded fun k d => .leaveHandler d k

theorem wait (ld st : BitVec 6) (cp : BitVec 5) (tl : BitVec 4) (fx : BitVec 3) : KeepsCells s (execWait ld st cp tl fx s) :=
  issue fun _ _ => .ite .same .same

theorem sget (d : SReg) (n : BitVec 12) : KeepsCells s (execSget d n s) := guarded fun _ _ => .ite (.whenSettled .same) .same

theorem sset (a : SReg) (n : BitVec 12) : KeepsCells s (execSset a n s) :=
  guarded fun k d => (Canon.ite .same (.ite .same (.ite .same (.refl d)))).trans (.advance _ k 4)

theorem regrel (n : BitVec 6) : KeepsCells s (execRegrel n s) := guarded fun _ _ => .ite .same .same

theorem regclm (n : BitVec 6) : KeepsCells s (execRegclm n s) := guarded fun _ _ => .same

theorem claimGrant (core : Nat) : KeepsCells s (execClaimGrant core s) := onDev fun d => by
  split
  · exact .refl d
  · exact .ite (.refl d) .same

theorem deadlock (block : Nat) : KeepsCells s (execDeadlock block s) := onDev fun d => by
  refine .ite ?_ (.refl d)
  refine .trans ?_ (.foldl (fun d _ => .ite (.trapWave d _ _) (.refl d)) _ _)
  exact (Canon.setCores d _).trans (.setWaves _ _)

theorem yield : KeepsCells s (execYield s) := issue fun _ _ => .ite .same .same

theorem regang (m : StrandMask) : KeepsCells s (execRegang m s) :=
  issue fun k d => .ite (.trap d k _) (.ite (.trap d k _) (.ite .same (.ite (.trap d k _) .same)))

theorem exit : KeepsCells s (execExit s) := issue fun k d => by
  have hout : ∀ f, Canon d ((d.noteTrigger k.wave k.gang).onGang k f) := fun _ => .same
  simp only []
  split
  · exact .ite (hout _) ((hout _).trans (.waveGone _ _ _))
  · exact hout _

theorem trigger : KeepsCells s (execTrigger s) := andNext fun _ _ => .same

theorem icacheFill (core ctx va : Nat) : KeepsCells s (execIcacheFill core ctx va s) := onDev fun d => by
  split
  · exact .refl d
  · refine .ite (.refl d) ?_
    split
    · exact (Canon.fillCode d _ _ _).trans (.dropCode _ _)
    · exact .askCode d _ _

theorem pageWalk (core ctx va : Nat) : KeepsCells s (execPageWalk core ctx va s) := onDev fun d => by
  split
  · exact .refl d
  · exact .ite (.refl d) (.walkNow d _ _ _)

/-! ## Memory at its homes -/

theorem homeLoad (op lane lease : Nat) (useL1 : Bool) : KeepsCells s (execHomeLoad op lane lease useL1 s) := by
  rw [execHomeLoad]
  split
  · exact next (.refl _)
  · exact ite (next ((Canon.freeWord s.dev).trans (.performLoad _ _ _ _ _))) (next (.refl _))

theorem storePerform (op lane : Nat) : KeepsCells s (execStorePerform op lane s) := onDev fun d => by
  split
  · exact .ite (.endOp d _) (.inTurn fun o => .performStore d o lane)
  · exact .refl d

theorem homeAtomic (op lane : Nat) : KeepsCells s (execHomeAtomic op lane s) := onDev fun d => .inTurn fun o => .performAtomic d o lane

theorem loadComplete (op : Nat) : KeepsCells s (execLoadComplete op s) := onDev fun d => by
  split
  · exact .refl d
  · exact .ite (.refl d) ((Canon.ite (.refl d) .same).trans (.endOp _ _))

theorem deferredReport (wave : Nat) : KeepsCells s (execDeferredReport wave s) := onDev fun d => by
  split
  · exact .refl d
  next o _ =>
  have hdrop : Canon d { d with reports := d.reports.filter (·.id != o.id) } := .same
  simp only []
  split
  · exact hdrop
  · refine .ite ?_ (.ite (.refl d) ?_)
    · split
      · exact hdrop.trans (.markLaunch _ _ _ _ _)
      · exact hdrop
    · split
      · exact hdrop
      · exact (Canon.ite (hdrop.trans (.modWave _ _ _)) hdrop).trans (.raiseDeferred _ _ _)

/-! ## Scalar memory, monitors, tags and barriers -/

theorem scalarLoad {n : Nat} {r a : SReg} {i : BitVec 12} : KeepsCells s (scalarLoad s n r a i) :=
  issue fun k d => .scalarAccess fun d ps => .whenSettled <| by
    refine .ite ?_ .same
    have hload := Canon.sloadAll k n ps d
    simp only []
    split
    · exact ((hload.trans (.setScalars _ k r _)).trans (.onWave _ k _)).trans (.advance _ k 4)
    · exact hload.trans (.trapMem _ k _ _ _)

theorem scalarStore {n : Nat} {r a : SReg} {i : BitVec 12} : KeepsCells s (scalarStore s n r a i) :=
  issue fun k d => .scalarAccess fun d ps => by
    refine .ite ?_ .same
    have hstore := fun parts m => (Canon.sstoreAll k parts d).trans (.setNextId _ m)
    simp only []
    refine .trans (.trans (.trans ?_ (.noteDone _ _ _ _ _ _)) (.onWave _ k _)) (.advance _ k 4)
    exact .ite (hstore _ _) ((hstore _ _).trans (.setReports _ _))

theorem cinc (d a : SReg) (i : BitVec 12) : KeepsCells s (execCinc d a i s) :=
  issue fun _ _ => .ite .same (.scalarAccess fun _ _ => .same)

theorem mon (a : SReg) (i : BitVec 12) : KeepsCells s (execMon a i s) := issue fun k d => .scalarAccess fun d ps => by
  split
  · exact .monFailed d k _ _ _
  · refine .ite ((Canon.armMonitors d k ps).trans (.advance _ k 4)) (.trans (.foldl (fun d p => ?_) ps d) (.stall _ k _))
    split
    · exact .askFor d _ _ _ _ _ _ _
    · exact .refl d

theorem mwait (a : SReg) : KeepsCells s (execMwait a s) := issue fun _ _ => .ite .same .same

theorem mwaitTimeout (wave strand : Nat) : KeepsCells s (execMwaitTimeout wave strand s) := onDev fun d => by
  split
  · exact .refl d
  · split
    · exact .refl d
    · split
      · exact .ite (.refl d) .same
      · exact .refl d

theorem portSuspend (wave : Nat) : KeepsCells s (execPortSuspend wave s) := onDev fun d => by
  split
  · exact .refl d
  · split
    · exact .ite .same (.refl d)
    · exact .refl d

theorem tagWait {all : Bool} {a : SReg} : KeepsCells s (tagWait s all a) := guarded fun _ _ => .ite .same .same

theorem tagffs (d a : SReg) : KeepsCells s (execTagffs d a s) :=
  guarded fun k x => .ite .same (((Canon.modBlock x _ _).trans (.foldl (fun x t => .takeTag x k d a t) _ _)).trans (.advance _ k 4))

theorem byteBarUpdate {d a : SReg} {i : BitVec 12} {f : Nat → Word → List Byte → List Byte} : KeepsCells s (byteBarUpdate s d a i f) :=
  guarded fun k x => .whenSettled <| by
    refine .trans (.trans ?_ (.onWave _ k _)) (.advance _ k 4)
    refine .foldlPair (fun p t => ?_) k.strands (x, 0)
    split
    · exact .refl _
    · exact .homeRmw p.1 _ _ _ _ _ _ _

theorem bbwait (a : SReg) (i : BitVec 12) : KeepsCells s (execBbwait a i s) := guarded fun _ _ => .ite .same .same

theorem bbexpNum (d : SReg) (b : BitVec 4) : KeepsCells s (execBbexpNum d b s) :=
  guarded fun k x => .whenSettled (((Canon.arrive x k _).trans (.setScalars _ k d _)).trans (.advance _ k 4))

theorem bbwaitNum (b : BitVec 4) : KeepsCells s (execBbwaitNum b s) := guarded fun k d => .whenSettled <| by
  have harrive : Canon d (if k.wave.arrivals.any (·.bar == b.toNat) then d else d.arrive k b.toNat) := .ite (.refl d) (.arrive d k _)
  simp only []
  split
  · exact (harrive.trans (.onWave _ k _)).trans (.advance _ k 4)
  · exact harrive.trans (.stall _ k _)

/-! ## Lane memory -/

theorem laneOp {regs : List Nat} {g : Guard} {ld glob : Bool} {places : Dev → Issue → LaneMask → LanePlaces} {n : Nat} {kind : MemKind}
    {data : Dev → Issue → Nat → List Byte} {plain : Bool} : KeepsCells s (laneOp s regs g ld glob places n kind data plain) :=
  issue fun k d => .ite (.trap d k _) (.ite .same (.afterChecks fun x _ =>
    have hfree : ∀ p : Bool, Canon x (if p then { x with free := x.free + 1 } else x) := fun _ => .ite .same (.refl x)
    .ite ((hfree _).trans (.advance _ k 8)) (((hfree _).trans (.addOp _ k _ _ _)).trans (.advance _ k 8))))

theorem bufLoad {sp : Space} {g : Guard} {d : VReg} {m : Addr} : KeepsCells s (bufLoad s sp g d m) :=
  issue fun k x => .ite (.trap x k _) (.whenSettled (.afterChecks fun x ps => by
    simp only []
    split
    · exact .trapMem x k _ _ _
    · refine .trans (.trans (.thenIte ?_ (.setFree _ _)) (.onWave _ k _)) (.advance _ k 8)
      refine .foldlPair (fun p q => ?_) ps (x, 0)
      exact .homeLoad p.1 _ _ _ _ _))

theorem bufStore {sp : Space} {g : Guard} {d : VReg} {m : Addr} : KeepsCells s (bufStore s sp g d m) :=
  issue fun k x => .ite (.trap x k _) (.whenSettled (.afterChecks fun x ps => by
    refine .trans (.trans (.trans (.thenIte ?_ (.setFree _ _)) (.onWave _ k _)) (.noteDone _ _ _ _ _ _)) (.advance _ k 8)
    refine .foldlPair (fun p q => ?_) ps (x, 0)
    exact .homeWrite p.1 _ _ _ _ _ _))

theorem compress {near : Bool} {g : Guard} {d : VReg} {sb : SReg} {off : BitVec 23} : KeepsCells s (compress s near g d sb off) :=
  issue fun k x => .ite (.trap x k _) (.ite .same (.afterChecks fun z _ => by
    split
    · exact .same
    · exact (Canon.thenIte (.refl z) (.setFree z _)).trans ((Canon.addOp _ k _ _ _).trans (.advance _ k 8))))

theorem pf (g : Guard) (m : Addr) : KeepsCells s (execPf g m s) := issue fun k x => by
  refine .ite (.trap x k _) (.trans (.thenIte (.foldl (fun z l => ?_) _ x) (.setFree _ _)) (.advance _ k 8))
  have hlooked := Canon.looked z k.core k.ctx (x.laneAddr k m true l).toNat
  simp only []
  split
  · exact (hlooked.trans (.touchLine _ _ _ _)).trans (.l1Fill _ _ _ _)
  · exact hlooked.trans (.askLine _ _ _ _ _)
  · exact hlooked

theorem spill (d : VReg) (slot : BitVec 8) : KeepsCells s (execSpill d slot s) :=
  issue fun k x => .ite (.trap x k _) (.ite .same ((((Canon.thenIte (.refl x) (.setFree x _)).trans (.onWave _ k _)).trans
    (.addOp _ k _ _ _)).trans (.advance _ k 8)))

theorem fill (d : VReg) (slot : BitVec 8) : KeepsCells s (execFill d slot s) := issue fun k x => .ite (.trap x k _) (.ite .same .same)

/-! ## Copies -/

theorem copyIssue {form : CopyForm} {o : CopyOps} : KeepsCells s (copyIssue s form o) := issue fun k x => by
  have hlooked : Canon x (if form = .g2gStamp then x.looked k.core k.ctx (k.rd o.sd).toNat else x) := .ite (.looked x _ _ _) (.refl x)
  simp only []
  split
  · exact hlooked.trans (.trapMem _ k _ _ _)
  · exact hlooked.trans (.trap _ k _)
  · exact .ite (hlooked.trans (.stall _ k _)) (hlooked.trans (.whenSettled ((((Canon.setNextId _ _).trans (.addJob _ _)).trans
      (.clearTag _ _ _)).trans (.advance _ k 12))))

theorem footprintEnter (job : Nat) : KeepsCells s (execFootprintEnter job s) := onDev fun d => by
  split
  · exact .refl d
  · refine .ite (.refl d) ?_
    split
    · exact .ite (.refl d) (.enterCopy d _ _)
    · exact .enterJob d _ _

theorem copyPieceIssue (job : Nat) : KeepsCells s (execCopyPieceIssue job s) := onDev fun d => by
  split
  · exact .refl d
  · split
    · split
      · exact .refl d
      · refine .ite (.refl d) ?_
        have hwake := fun ctx loads => Canon.wakePath d ctx loads
        refine .ite (hwake _ _) ?_
        refine .trans (.trans (.trans (.trans (.trans ?_ (.chargeAt _ _ _ _ _)) (.foldl (fun d _ => .chargeAt d _ _ _ _) _ _)) (.modCopy _ _ _))
          (.requestReads _ _ _ _ _ _)) (.lookedAll _ _ _ _)
        exact (hwake _ _).trans (.setPicks _ _)
    · exact .refl d

theorem pieceLand (job piece : Nat) : KeepsCells s (execPieceLand job piece s) := onDev fun d => by
  split
  · exact .refl d
  · split
    · exact .ite (.refl d) (.landOne d _ _ _ _ _)
    · exact .refl d

theorem copyFault (job : Nat) : KeepsCells s (execCopyFault job s) := onDev fun d => by
  split
  · exact .refl d
  · split
    · refine .ite (.skipUnseen d _ _ _) ?_
      split
      · exact .refl d
      · refine .ite (.skipFaults _ _ d) ?_
        split
        · exact .refl d
        · exact .refl d
        · exact .ite (.refl d) ((Canon.modCore d _ _).trans (.raiseAsync _ _ _))
    · exact .refl d

theorem cfpop (d : SReg) : KeepsCells s (execCfpop d s) := issue fun k x => by
  split
  · exact ((Canon.modCore x _ _).trans (.setRun _ k d _)).trans (.advance _ k 12)
  · exact ((Canon.setRun x k d _).trans (.modBlock _ _ _)).trans (.advance _ k 12)

theorem resolve {h : SReg} {ok : FaultEntry → Option Copy → Bool} {f : Issue → Dev → FaultEntry → Job → Copy → Dev}
    (hf : ∀ k d e j c, Canon d (f k d e j c)) : KeepsCells s (resolve s h ok f) := issue fun k d => by
  split
  · exact .trap d k _
  · refine .ite (.trap d k _) ?_
    simp only []
    split
    · split
      · exact ((Canon.modCore d _ _).trans (hf _ _ _ _ _)).trans (.advance _ k 12)
      · exact (Canon.modCore d _ _).trans (.advance _ k 12)
    · exact (Canon.modCore d _ _).trans (.advance _ k 12)

theorem cfrsmRetry (a : SReg) : KeepsCells s (execCfrsmRetry a s) := resolve fun _ _ _ _ _ => .ite .same .same
theorem cfrsmSkip (a : SReg) : KeepsCells s (execCfrsmSkip a s) := resolve fun _ d _ _ _ => .skipFault d _ _ _
theorem cfrsmFill (a b : SReg) : KeepsCells s (execCfrsmFill a b s) := resolve fun _ _ _ _ _ => .same

end KeepsCells

end Sys2Proof.Proofs
end

section
/-!
SUPPORT. The instructions and steps of engine leases, the engines and work creation keep the sparse memories canonical.
-/

open Sys2Proof Sys2Proof.Machine

-- The whole text is compiled in one process, which can hold few threads: these many short proofs are elaborated in order.
set_option Elab.async false

namespace Sys2Proof.Proofs

namespace Canon

/-! ## Leases -/

theorem setTicket (d : Dev) (n : Nat) : Canon d { d with ticket := n } := .same
theorem setAllow (d : Dev) (l : List Nat) : Canon d { d with allow := l } := .same

theorem addReq (d : Dev) (k : Issue) (kd : EngKind) : Canon d (d.addReq k kd) := .same

theorem tellEnergy (d : Dev) (core : Nat) (kd : EngKind) : Canon d (d.tellEnergy core kd) := by
  unfold Dev.tellEnergy
  refine .trans ?_ (.foldl (fun d (r : Req) => .raiseAsync d r.wave _) _ _)
  exact .ite (.refl d) (.modEngine d _ _ _)

theorem noteIdle (d : Dev) (core : Nat) (kd : EngKind) : Canon d (d.noteIdle core kd) := .ite .same (.refl d)

theorem leaveEngine (d : Dev) (core : Nat) (kd : EngKind) (job time : Nat) : Canon d (d.leaveEngine core kd job time) :=
  (endJob d job time).trans (noteIdle _ core kd)

theorem evict (d : Dev) (core : Nat) (k : EngKind) (power : Bool) : Canon d (d.evict core k power) := (setJobs d _).trans (.modEngine _ _ _ _)

theorem grantDie (d : Dev) (die : Nat) : Canon d (d.grantDie die) := .foldl (fun d (e : Engine) => .grantHead d e.core e.kind) _ d

theorem cutPower (die n : Nat) (d : Dev) : Canon d (d.cutPower die n) := by
  induction n generalizing d with
  | zero => exact .refl d
  | succ n ih =>
    unfold Dev.cutPower
    refine .ite (.refl d) ?_
    simp only []
    split
    · exact (modEngine d _ _ _).trans (ih _)
    · split
      · exact .refl d
      · refine .trans ?_ (ih _)
        split
        · exact modEngine d _ _ _
        · exact (modEngine d _ _ _).trans (.ite (.modEngine _ _ _ _) (.evict _ _ _ _))
        · exact evict d _ _ _

theorem putAllowance (d : Dev) (die w : Nat) : Canon d (d.putAllowance die w) := ((grantDie d die).trans (setAllow _ _)).trans (cutPower _ _ _)

theorem engineStop (d : Dev) (core : Nat) (k : EngKind) (more : List Nat) : Canon d (d.engineStop core k more) := by
  unfold Dev.engineStop
  refine .trans ?_ (.foldl (fun d w => .raiseAsync d w _) _ _)
  have hgone := fun l f => ((Canon.foldl (fun d (j : Job) => .endJob d j.id j.clock) l d).trans (modEngine _ core k f))
  refine .ite ((hgone _ _).trans (.modEngine _ _ _ _)) ?_
  exact (((hgone _ _).trans (.modEngine _ _ _ _)).trans (.grantHead _ _ _)).thenIte (.modEngine _ _ _ _)

theorem issueJob {d : Dev} {k : Issue} {full : Bool} {kind : JobKind} {foot : List Foot} {f : Dev → Dev} (hf : ∀ d, Canon d (f d)) :
    Canon d (d.issueJob k full kind foot f) :=
  .ite (.stall d k _) (.whenSettled ((((setNextId d _).trans (.addJob _ _)).trans (hf _)).trans (.advance _ k 12)))

/-! ## The tile engine -/

theorem imageChecked {d : Dev} {k : Issue} {a n : Nat} {f : Dev → Dev} (hf : ∀ d, Canon d (f d)) : Canon d (d.imageChecked k a n f) := by
  unfold Dev.imageChecked
  simp only []
  split
  · exact (lookedAll d _ _ _).trans (.trapMem _ k _ _ _)
  · exact (lookedAll d _ _ _).trans (hf _)

theorem beginStep {d : Dev} {m : Mgmt} {core : Nat} {ok : Job → Bool} {f : Dev → Job → Dev} (hf : ∀ d j, Canon d (f d j)) :
    Canon d (d.beginStep m core ok f) := by
  have hsync : Canon d (d.syncPoint (.tile core) 0 (d.enginePending core .tile (d.tileWants core))) := .syncPoint d _ _ _
  unfold Dev.beginStep
  simp only []
  split
  · split
    · exact .ite ((((hsync.trans (.chargeAt _ _ _ _ _)).trans (.noteTurn _ _ _)).trans (.modJob _ _ _)).trans (hf _ _)) hsync
    · exact hsync
  · exact hsync

theorem setRec (d : Dev) (wave : Nat) (o : TileOp) (state cause commit : Nat) : Canon d (d.setRec wave o state cause commit) := by
  unfold Dev.setRec
  split
  · exact .same
  · exact .refl d

theorem report (d : Dev) (j : Job) (cause addr : Nat) : Canon d (d.report j cause addr) := .same

theorem endTile (d : Dev) (core : Nat) (j : Job) (t : Nat) : Canon d (d.endTile core j t) :=
  ((modWave d _ _).trans (.modBlock _ _ _)).trans (.leaveEngine _ _ _ _ _)

theorem discardQueued (d : Dev) (core : Nat) (kd : EngKind) (wave : Nat) : Canon d (d.discardQueued core kd wave) :=
  (Canon.foldl (fun d (j : Job) => .endJob d j.id j.clock) _ d).trans (.noteIdle _ _ _)

theorem stopTile (d : Dev) (core : Nat) (j : Job) (o : TileOp) (pos cause : Nat) : Canon d (d.stopTile core j o pos cause) :=
  have hend : Canon d ((d.setRec j.wave o 3 cause pos).endTile core j j.clock) := (setRec d _ _ _ _ _).trans (.endTile _ _ _ _)
  .ite ((hend.trans (.discardQueued _ _ _ _)).trans (.raiseAsync _ _ _)) (hend.thenIte (.raiseAsync _ _ _))

theorem readRows (core : Nat) (sp : Space) (stride n m base c : Nat) (d : Dev) : Canon d (d.readRows core sp base stride n m c).1 := by
  induction m generalizing base c d with
  | zero => exact .refl d
  | succ m ih =>
    rw [Dev.readRows]
    split
    next e _ heq => exact (readBuf d _ _ _ _ _).fst heq
    next e t bs heq =>
      have he : Canon d e := (readBuf d _ _ _ _ _).fst heq
      split
      next f _ _ hf => exact he.trans ((ih _ _ e).fst hf)
      · exact he.trans (ih _ _ e)

theorem mmaBlocks (b : Block) (lut : List Lane) (f : Lane) (aa ba m n kb : Nat) (l : List Nat) (c : Nat) (acc : List Lane) (d : Dev) :
    Canon d (d.mmaBlocks b lut f aa ba m n kb l c acc).1 := by
  induction l generalizing c acc d with
  | nil => exact .refl d
  | cons x l ih =>
    rw [Dev.mmaBlocks]
    split
    next e _ heq => exact (readRows _ _ _ _ _ _ _ d).fst heq
    next e _ rows heq =>
      have he : Canon d e := (readRows _ _ _ _ _ _ _ d).fst heq
      split
      next g _ hg => exact he.trans ((readRows _ _ _ _ _ _ _ e).fst hg)
      next g _ cols hg => exact (he.trans ((readRows _ _ _ _ _ _ _ e).fst hg)).trans (ih _ _ g)

theorem mmaStep (d : Dev) (b : Block) (lut : List Lane) (form : TmmaForm) (f : Lane) (da aa ba mt nt kb ks pos c : Nat) (ks' : List Nat) :
    Canon d (d.mmaStep b lut form f da aa ba mt nt kb ks pos c ks').1 := by
  have hstart : Canon d (if form = .zero ∧ pos = ks then (d, c, some (List.replicate (4 * (256 * mt * nt)) 0))
      else d.readBuf b.core .acc (b.acc.base + da) (4 * (256 * mt * nt)) c).1 := by
    split
    · exact .refl d
    · exact readBuf d _ _ _ _ _
  unfold Dev.mmaStep
  simp only []
  split
  next e _ heq => exact hstart.fst heq
  next e _ bs heq =>
    have he : Canon d e := hstart.fst heq
    split
    next g _ hg => exact he.trans ((mmaBlocks _ _ _ _ _ _ _ _ _ _ _ e).fst hg)
    next g _ acc hg => exact (he.trans ((mmaBlocks _ _ _ _ _ _ _ _ _ _ _ e).fst hg)).trans (writeBuf g _ _ _ _ _)

/-! ## The table and select engines -/

theorem startFx (d : Dev) (core : Nat) (kd : EngKind) : Canon d (d.startFx core kd) := by
  have hsync : Canon d (d.syncPoint (enginePoint core kd) 0 (d.enginePending core kd (d.fxWants core kd))) := .syncPoint d _ _ _
  unfold Dev.startFx
  simp only []
  split
  · split
    · exact (((hsync.trans (.chargeAt _ _ _ _ _)).trans (.noteTurn _ _ _)).trans (.modEngine _ _ _ _)).trans (.modJob _ _ _)
    · exact hsync
  · exact hsync

theorem endFx (d : Dev) (core : Nat) (kd : EngKind) (j : Job) (t : Nat) : Canon d (d.endFx core kd j t) :=
  ((modWave d _ _).trans (.modBlock _ _ _)).trans (.leaveEngine _ _ _ _ _)

theorem selectRun (d : Dev) (b : Block) (j : Job) (da sa n : Nat) (fl : SelFlags) (f : List (Lane × List Byte) → List (Lane × List Byte)) :
    Canon d (d.selectRun b j da sa n fl f) := by
  unfold Dev.selectRun
  simp only []
  split
  next e _ heq => exact (((readBuf d _ _ _ _ _).fst heq).trans (.report e _ _ _)).trans (.endFx _ _ _ _ _)
  next e _ bs heq => exact (((readBuf d _ _ _ _ _).fst heq).trans (.writeBuf e _ _ _ _ _)).trans (.endFx _ _ _ _ _)

/-! ## Work -/

theorem afterRead {k : Issue} {f : Dev → List Byte → Dev} (hf : ∀ d bs, Canon d (f d bs)) (q : Dev × Reach) : Canon q.1 (Dev.afterRead k f q) := by
  obtain ⟨d, r⟩ := q
  cases r with
  | ok t bs => exact (modWave d _ _).trans (hf _ _)
  | fail e a => exact trapMem d k _ _ _
  | missing => exact stall d k _

theorem withRecord {d : Dev} {k : Issue} {unit va n : Nat} {f : Dev → List Byte → Dev} (hf : ∀ d bs, Canon d (f d bs)) :
    Canon d (d.withRecord k unit va n f) := (reachFrom d _ _ _ _ _ _ _ _ _).trans (afterRead hf _)

theorem withLaunchRecord {d : Dev} {k : Issue} {va : Nat} {f : Dev → List Byte → Dev} (hf : ∀ d bs, Canon d (f d bs)) :
    Canon d (d.withLaunchRecord k va f) := (reachOnce d _ _ _ _ _ _ _).trans (afterRead hf _)

theorem withObject {d : Dev} {k : Issue} {va : Nat} {f : Dev → Dev} (hf : ∀ d, Canon d (f d)) : Canon d (d.withObject k va f) := by
  unfold Dev.withObject
  split
  next e _ _ heq => exact (((reachFrom d _ _ _ _ _ _ _ _ _).fst heq).trans (.modWave e _ _)).trans (hf _)
  next e _ _ heq => exact ((reachFrom d _ _ _ _ _ _ _ _ _).fst heq).trans (hf e)
  next e heq => exact ((reachFrom d _ _ _ _ _ _ _ _ _).fst heq).trans (.stall e k _)

theorem endRecords (d : Dev) (k : Issue) : Canon d (d.endRecords k) := .same

theorem checked {d : Dev} {k : Issue} {need : Need} {l : List (Nat × Nat)} {f : Dev → Dev} (hf : ∀ d, Canon d (f d)) :
    Canon d (d.checked k need l f) := by
  unfold Dev.checked
  simp only []
  split
  · exact (lookedAll d _ _ _).trans (.trapMem _ k _ _ _)
  · exact (lookedAll d _ _ _).trans (hf _)

theorem withDesc {d : Dev} {k : Issue} {va : Nat} {own : Option Nat} {f : Dev → Desc → Nat → Dev} (hf : ∀ d c q, Canon d (f d c q)) :
    Canon d (d.withDesc k va own f) := .withRecord fun _ _ => .checked fun d => by
  split
  · exact .ite (trap d k _) (trap d k _)
  · exact .ite (hf _ _ _) (trap d k _)

theorem gainLaunch (d : Dev) (id c : Nat) : Canon d (d.gainLaunch id c) := by
  unfold Dev.gainLaunch
  split
  · exact .refl d
  · exact (modLaunch d _ _).trans (.owe _ _ _)

theorem withEdges {k : Issue} {f : Dev → List Nat → Nat → Dev} (hf : ∀ d l t, Canon d (f d l t)) (l : List Nat) (preds : List Nat) (t : Nat)
    (d : Dev) : Canon d (d.withEdges k l preds t f) := by
  induction l generalizing preds t d with
  | nil => exact hf d preds t
  | cons a l ih =>
    unfold Dev.withEdges
    split
    · split
      · exact ih _ _ d
      · exact ih _ _ d
    · exact .ite (trap d k _) (.withRecord fun d _ => ih _ _ d)

theorem withPreds {d : Dev} {k : Issue} {r : LaunchRec} {f : Dev → List Nat → Nat → Dev} (hf : ∀ d l t, Canon d (f d l t)) :
    Canon d (d.withPreds k r f) :=
  .ite (hf d _ _) (.ite (trap d k _) (.withRecord fun d _ => .ite (trap d k _) (.withRecord fun d _ => .withEdges hf _ _ _ d)))

theorem withLevels {k : Issue} {f : Dev → List Level → Dev} (hf : ∀ d l, Canon d (f d l)) (l : List LevelKind) (a : Nat) (new : List Level)
    (d : Dev) : Canon d (d.withLevels k l a new f) := by
  induction l generalizing a new d with
  | nil => exact hf d new
  | cons kind l ih =>
    unfold Dev.withLevels
    split
    · exact .ite (hf d new) (trap d k _)
    · exact .ite (trap d k _) (.checked fun d => .withRecord fun d _ => .ite (trap d k _) (ih _ _ d))

theorem withBinding {d : Dev} {k : Issue} {r : LaunchRec} {f : Dev → Option (Nat × Desc) → Dev} (hf : ∀ d x, Canon d (f d x)) :
    Canon d (d.withBinding k r f) :=
  .ite (hf d _) (.ite (trap d k _) (.withRecord fun d _ => .ite (trap d k _) (.ite (trapMem d k _ _ _) (.withDesc fun d _ _ =>
    .ite (trap d k _) (.ite (stall d k _) (hf d _))))))

theorem enterWindow (d : Dev) (ctx : Nat) (r : LaunchRec) : Canon d (d.enterWindow ctx r).1 := by
  unfold Dev.enterWindow
  split
  · exact .refl d
  · simp only []
    split
    · exact .refl d
    · exact .same

theorem setLevels (d : Dev) (l : List Level) : Canon d { d with levels := l } := .same
theorem setLaunches (d : Dev) (l : List Launch) : Canon d { d with launches := l } := .same
theorem setPending (d : Dev) (l : List Pending) : Canon d { d with pending := l } := .same
theorem setBlocks (d : Dev) (l : List Block) : Canon d { d with blocks := l } := .same
theorem setTriggers (d : Dev) (l : List Trigger) : Canon d { d with triggers := l } := .same

theorem acceptLaunch (d : Dev) (k : Issue) (r : LaunchRec) (preds : List Nat) (t : Nat) (new : List Level) (bind_ : Option (Nat × Desc)) :
    Canon d (d.acceptLaunch k r preds t new bind_) := by
  have henter := fun l n ctx r => ((((endRecords d k).trans (.setLevels _ l)).trans (.setNextId _ n)).trans (.enterWindow _ ctx r))
  unfold Dev.acceptLaunch
  cases bind_ with
  | none =>
    refine .thenIte (.trans (.trans ?_ (.setLaunches _ _)) (.owe _ _ _)) (.decLaunch _ _ _ _)
    exact henter _ _ _ _
  | some x =>
    refine .thenIte (.trans (.trans (.trans (.trans ?_ (.setLaunches _ _)) (.owe _ _ _)) (.postColl _ _ _ _ _ _ _ _)) (.modLaunch _ _ _)) (.decLaunch _ _ _ _)
    exact henter _ _ _ _

theorem cancelLaunch (t n id : Nat) (d : Dev) : Canon d (d.cancelLaunch t n id) := by
  induction n generalizing id d with
  | zero => exact .refl d
  | succ n ih =>
    unfold Dev.cancelLaunch
    split
    · exact .refl d
    · simp only []
      refine .ite ?_ (.trans ?_ (.decLaunch _ _ _ _))
      all_goals
        refine .trans ?_ (.foldl (fun d (b : Block) => .raiseBlock d b.id cCancel) _ _)
        refine .trans ?_ (.foldl (fun d x => ih x d) _ _)
        refine .trans ?_ (.modLaunch _ _ _)
        exact (markLaunch d id false true t).upd

theorem cancelLevel (d : Dev) (ctx : Nat) (kind : LevelKind) (a t : Nat) : Canon d (d.cancelLevel ctx kind a t) := by
  unfold Dev.cancelLevel
  refine .thenIte ?_ (.setTriggers _ _)
  refine .trans ?_ (.foldl (fun d x => .cancelLaunch t 4096 x d) _ _)
  refine .trans ?_ (.owe _ _ _)
  refine .foldlPair (fun p a => ?_) _ (d, [])
  exact .markLevels p.1 _ _ _ _ _ _

end Canon

namespace KeepsCells

variable {s : State}

/-! ## Leases -/

theorem kindle (kd : EngKind) : KeepsCells s (execKindle kd s) := guarded fun k d =>
  .ite .same (((Canon.ite (.refl d) (.addReq d k kd)).trans (.stall _ k _)).trans (.tellEnergy _ _ _))

theorem kindleNb (dest : SReg) (kd : EngKind) : KeepsCells s (execKindleNb dest kd s) := guarded fun k d => by
  refine .trans (.trans ?_ (.setScalars _ k dest _)) (.advance _ k 12)
  split
  · exact .refl d
  · split
    · exact .addReq d k kd
    · exact .same

theorem douse (kd : EngKind) : KeepsCells s (execDouse kd s) := guarded fun k d => (Canon.douse d _ _ _).trans (.advance _ k 12)

theorem lstat (dest a : SReg) : KeepsCells s (execLstat dest a s) := andNext fun k d => by
  simp only []
  split
  · exact .same
  · exact .same

theorem leaseGrant (core : Nat) (k : EngKind) : KeepsCells s (execLeaseGrant core k s) := onDev fun d => (Canon.grantHead d core k).trans (.tellEnergy _ core k)

theorem wakeDone (core : Nat) (k : EngKind) : KeepsCells s (execWakeDone core k s) := onDev fun d => by
  refine .ite (.refl d) ?_
  split
  · exact .same
  · exact .releaseEngine d core k
  · exact .same
  · exact .refl d

theorem warmTimeout (core : Nat) (k : EngKind) : KeepsCells s (execWarmTimeout core k s) := onDev fun d => .ite .same (.refl d)

theorem allowanceCut (die w : Nat) : KeepsCells s (execAllowanceCut die w s) := onDev fun d => .putAllowance d die _

theorem class0Evict (core : Nat) (k : EngKind) : KeepsCells s (execClass0Evict core k s) := onDev fun d => by
  simp only []
  split
  · exact .ite (.evict d core k false) (.refl d)
  · exact .refl d

theorem engineStopped (core : Nat) (k : EngKind) : KeepsCells s (execEngineStopped core k s) := onDev fun d => .ite (.engineStop d core k []) (.refl d)

theorem energyPeriod (ctx : Nat) : KeepsCells s (execEnergyPeriod ctx s) := onDev fun _ => .same

theorem rotAdvance : KeepsCells s (execRotAdvance s) := onDev fun _ => .same

/-! ## The engines -/

theorem tmmaIssue {form : TmmaForm} {v : VReg} {sd sa sb sc : SReg} : KeepsCells s (tmmaIssue s form v sd sa sb sc) := issue fun k d => by
  refine .ite (.trap d k _) (.ite (.trap d k _) (.ite (.trap d k _) ?_))
  split
  · exact .trap d k _
  · split
    · exact .trap d k _
    · exact .issueJob fun _ => .same

theorem tzero (dest c : SReg) : KeepsCells s (execTzero dest c s) := guarded fun _ _ => .issueJob fun d => .refl d

theorem tcvt (f : TcvtForm) (b dest c : SReg) (sc : BitVec 8) : KeepsCells s (execTcvt f b dest c sc s) := guarded fun _ _ => .issueJob fun d => .refl d

theorem tdload (a : SReg) : KeepsCells s (execTdload a s) := issue fun k d =>
  .ite (.trap d k _) (.ite (.trapMem d k _ _ _) (.imageChecked fun d => .ite (.trap d k _) (.issueJob fun d => .refl d)))

theorem tstat (dest : SReg) : KeepsCells s (execTstat dest s) := andNext fun k d => .setRun d k dest _

theorem tileOpStart (core : Nat) : KeepsCells s (execTileOpStart core s) := onDev fun d => by
  simp only []
  split
  · exact .refl d
  · refine .ite (.refl d) (.beginStep fun d j => ?_)
    have hbegin : Canon d ((({ d with surge := assocPut d.surge (surgeGroup core) d.clock, surgeWait := d.surgeWait.filter (· != core) } : Dev).modEngine
      core .tile fun e => e.clearBefore j.id)) := .same
    split
    · exact hbegin.trans (.setRec _ _ _ _ _ _)
    · exact hbegin

theorem tileCommit (core : Nat) : KeepsCells s (execTileCommit core s) := onDev fun d => by
  split
  · simp only []
    split
    · split
      · exact .stopTile d _ _ _ _ _
      · exact .refl d
    · refine .ite (.refl d) ?_
      split
      · exact .refl d
      · split
        next e _ heq => exact ((Canon.mmaStep d _ _ _ _ _ _ _ _ _ _ _ _ _ _).fst heq).trans (.stopTile _ _ _ _ _ _)
        next e _ heq =>
          have he : Canon d e := (Canon.mmaStep d _ _ _ _ _ _ _ _ _ _ _ _ _ _).fst heq
          refine .ite ((he.trans (.setRec _ _ _ _ _ _)).trans (.endTile _ _ _ _)) ?_
          split
          · exact he.trans (.stopTile _ _ _ _ _ _)
          · exact ((he.trans (.modJob _ _ _)).trans (.setRec _ _ _ _ _ _)).trans (.beginStep fun d _ => .refl d)
  · exact .refl d

theorem tcvtStep (core : Nat) : KeepsCells s (execTcvtStep core s) := onDev fun d => by
  split
  · exact .refl d
  · refine .ite (.refl d) ?_
    split
    · exact (Canon.writeBuf d _ _ _ _ _).trans (.endTile _ _ _ _)
    · simp only []
      split
      next e _ heq => exact ((Canon.readBuf d _ _ _ _ _).fst heq).trans (.stopTile e _ _ _ _ _)
      next e _ bs heq =>
        have hwrite := fun core sp a t out => ((Canon.readBuf d _ _ _ _ _).fst heq).trans (.writeBuf e core sp a t out)
        exact .ite ((hwrite _ _ _ _ _).trans (.endTile _ _ _ _)) (((hwrite _ _ _ _ _).trans (.modJob _ _ _)).trans (.beginStep fun d _ => .refl d))
    · split
      next e heq => exact (Canon.reachRead d _ _ _ _ _ _ _ _).fst heq
      next e _ _ heq => exact (((Canon.reachRead d _ _ _ _ _ _ _ _).fst heq).trans (.modEngine e _ _ _)).trans (.endTile _ _ _ _)
      next e _ _ heq => exact ((((Canon.reachRead d _ _ _ _ _ _ _ _).fst heq).trans (.modEngine e _ _ _)).trans (.report _ _ _ _)).trans (.endTile _ _ _ _)
    · exact .refl d

theorem ftload (slot : BitVec 2) (a : SReg) : KeepsCells s (execFtload slot a s) := issue fun k d =>
  .ite (.trap d k _) (.ite (.trapMem d k _ _ _) (.imageChecked fun d => .ite (.trap d k _) (.issueJob fun _ => .same)))

theorem ftevl (g : Guard) (dest a : VReg) (slot : BitVec 2) : KeepsCells s (execFtevl g dest a slot s) := issue fun k d =>
  .ite (.trap d k _) (.ite (.trap d k _) (.ite (.trap d k _) (.issueJob fun _ => .same)))

theorem selectIssue {dest a b : SReg} {f : SelFlags} {badK : Issue → Nat → Bool} {out : Issue → Nat → Nat} {op : Issue → Nat → Nat → Nat → FxOp} :
    KeepsCells s (selectIssue s dest a b f badK out op) := issue fun k d =>
  .ite (.trap d k _) (.ite (.trap d k _) (.ite (.trap d k _) (.ite (.trap d k _) (.ite (.trap d k _) (.ite (.trap d k _) (.ite .same
    (.issueJob fun _ => .same)))))))

theorem fxOpComplete (job : Nat) : KeepsCells s (execFxOpComplete job s) := onDev fun d => by
  split
  · exact .refl d
  · split
    · split
      · exact (Canon.modWave d _ _).trans (.endFx _ _ _ _ _)
      · simp only []
        split
        next e heq => exact (Canon.reachRead d _ _ _ _ _ _ _ _).fst heq
        next e _ _ heq => exact (((Canon.reachRead d _ _ _ _ _ _ _ _).fst heq).trans (.modEngine e _ _ _)).trans (.endFx _ _ _ _ _)
        next e _ _ heq => exact ((((Canon.reachRead d _ _ _ _ _ _ _ _).fst heq).trans (.modEngine e _ _ _)).trans (.report _ _ _ _)).trans (.endFx _ _ _ _ _)
      · exact .selectRun d _ _ _ _ _ _ _
      · exact .selectRun d _ _ _ _ _ _ _
      · exact .selectRun d _ _ _ _ _ _ _
    · exact .refl d

/-! ## Collectives and work -/

theorem cpost (a : SReg) (q : BitVec 4) : KeepsCells s (execCpost a q s) := issue fun k d =>
  .ite (.trap d k _) (.ite (.trapMem d k _ _ _) (.whenSettled (.withDesc fun d _ _ => .ite .same
    (((Canon.endRecords d k).trans (.postColl _ _ _ _ _ _ _ _)).trans (.advance _ k 12)))))

theorem ctrig (a b c : SReg) : KeepsCells s (execCtrig a b c s) := issue fun k d =>
  .ite (.trap d k _) (.ite (.trapMem d k _ _ _) (.whenSettled (.withDesc fun d _ _ => by
    have hlooked := Canon.looked d k.core k.ctx (k.rd b).toNat
    simp only []
    split
    · exact hlooked.trans (.trapMem _ k _ _ _)
    · refine .ite (hlooked.trans (.stall _ k _)) ?_
      have hload := fun l n t f => (hlooked.trans (.endRecords _ k)).trans (.homeLoad _ k.ctx.n l n t f)
      refine .ite (.ite ((hload _ _ _ _).trans (.stall _ k _)) (((hload _ _ _ _).trans (.postColl _ _ _ _ _ _ _ _)).trans (.advance _ k 12))) ?_
      refine .trans (.trans ?_ (.setTriggers _ _)) (.advance _ k 12)
      exact (hload _ _ _ _).trans (.setNextId _ _)
    · exact hlooked.trans (.trapMem _ k _ _ _))))

theorem spawn (a b : SReg) : KeepsCells s (execSpawn a b s) := issue fun k d =>
  .ite (.trap d k _) (.ite (.trap d k _) (.ite (.trapMem d k _ _ _) (.ite .same (.whenSettled (by
    refine .trans (.trans ?_ (.setPending _ _)) (.advance _ k 12)
    split
    · exact (Canon.setNextId d _).trans (.gainLaunch _ _ _)
    · exact .setNextId d _)))))

theorem launch (a : SReg) : KeepsCells s (execLaunch a s) := issue fun k d =>
  .ite (.trap d k _) (.ite (.trap d k _) (.ite (.trapMem d k _ _ _) (.whenSettled (.withLaunchRecord fun _ _ => .checked fun d =>
    .ite (.trap d k _) (.withPreds fun d _ _ => .withLevels (fun _ _ => .withBinding fun d _ => .ite .same
      ((Canon.acceptLaunch d k _ _ _ _ _).trans (.advance _ k 12))) _ _ _ d)))))

theorem cancel (l : Lvl) (a : SReg) : KeepsCells s (execCancel l a s) := issue fun k d =>
  .ite (.trapMem d k _ _ _) (.ite (.trapMem d k _ _ _) (.whenSettled (.withObject fun d => by
    have hend : Canon d ((d.endRecords k).advance k 12) := .same
    have hlevel : ∀ kind, Canon d (match ((d.endRecords k).advance k 12).level? k.ctx.n (k.rd a).toNat with
        | some x => if x.kind = kind then ((d.endRecords k).advance k 12).cancelLevel k.ctx.n kind (k.rd a).toNat (d.ltsOf k)
          else (d.endRecords k).advance k 12
        | none => (d.endRecords k).advance k 12) := fun kind => by
      split
      · exact .ite (hend.trans (.cancelLevel _ _ _ _ _)) hend
      · exact hend
    cases l with
    | launch =>
      simp only []
      split
      · exact hend.trans (.cancelLaunch _ _ _ _)
      · exact hend
    | graph => exact hlevel .graph
    | phase => exact hlevel .phase
    | job => exact hlevel .job)))

end KeepsCells

end Sys2Proof.Proofs
end

section
/-!
SUPPORT. The steps of collectives keep the sparse memories canonical.
-/

open Sys2Proof Sys2Proof.Machine

-- The whole text is compiled in one process, which can hold few threads: these many short proofs are elaborated in order.
set_option Elab.async false

namespace Sys2Proof.Proofs

namespace Canon

/-! ## Reads and writes in parts -/

theorem got (q : Dev × Reach) : Canon q.1 (Reach.got q).1 := by
  obtain ⟨d, r⟩ := q
  cases r <;> exact .refl d

theorem andThen {α β : Type} {q : Dev × Got α} {f : Dev → Nat → α → Dev × Got β} (hf : ∀ d t a, Canon d (f d t a).1) :
    Canon q.1 (Got.andThen q f).1 := by
  obtain ⟨d, r⟩ := q
  cases r with
  | ok t a => exact hf d t a
  | fail e => exact .refl d
  | missing => exact .refl d

theorem readWords (d : Dev) (x : Ctx) (owner base a t : Nat) (is : List Nat) : Canon d (d.readWords x owner base a t is).1 :=
  ((reachList d _ _ _ _ _ _ _).trans (got _)).trans (andThen fun d _ _ => .refl d)

theorem writeParts (x : Ctx) (owner : Nat) (l : List (Nat × List Byte × List Byte)) (t : Nat) (d : Dev) :
    Canon d (d.writeParts x owner t l).1 := by
  induction l generalizing t d with
  | nil => exact .refl d
  | cons w l ih =>
    unfold Dev.writeParts
    split
    · exact .refl d
    · split
      · exact ih _ d
      · exact .refl d
      · exact .refl d
    · split
      · exact .refl d
      · exact (writeSector d _ _ _ _ _).trans (ih _ _)

theorem writeWords (d : Dev) (x : Ctx) (owner a t : Nat) (vs : List (Nat × Lane)) : Canon d (d.writeWords x owner a t vs).1 := by
  unfold Dev.writeWords
  refine .trans ?_ (.lookedAll _ _ _ _)
  have hask : ∀ (l : List (Nat × List Byte × List Byte)) ask, (∀ q w, Canon q.1 (ask q w).1) → Canon d (l.foldl ask (d, true)).1 :=
    fun l ask h => foldlPair h l (d, true)
  simp only []
  split
  · refine .trans (hask _ _ fun q w => ?_) (.writeParts _ _ _ _ _)
    split
    · exact askFor _ _ _ _ _ _ _ _
    · exact .refl _
  · refine hask _ _ fun q w => ?_
    split
    · exact askFor _ _ _ _ _ _ _ _
    · exact .refl _

theorem readOwn (d : Dev) (x : Ctx) (c : Coll) (els : List Nat) : Canon d (d.readOwn x c els).1 := by
  unfold Dev.readOwn
  split
  · exact .refl d
  · exact ((reachFrom d _ _ _ _ _ _ _ _ _).trans (got _)).trans (andThen fun d _ _ => (readWords d _ _ _ _ _ _).trans (andThen fun d _ _ =>
      (readWords d _ _ _ _ _ _).trans (andThen fun d _ _ => .refl d)))

theorem collValues (d : Dev) (x : Ctx) (c : Coll) (els : List Nat) : Canon d (d.collValues x c els).1 :=
  (readWords d _ _ _ _ _ _).trans (andThen fun d _ _ => .refl d)

theorem writeRecv (d : Dev) (x : Ctx) (c : Coll) (vs : List (Nat × Lane)) : Canon d (d.writeRecv x c vs).1 := writeWords d _ _ _ _ _

/-! ## Messages and buffers -/

theorem sendRank (d : Dev) (c : Coll) (peer flits : Nat) (body : PktBody) : Canon d (d.sendRank c peer flits body) := .same

theorem grantClears (engine n : Nat) (d : Dev) : Canon d (d.grantClears engine n) := by
  induction n generalizing d with
  | zero => exact .refl d
  | succ n ih =>
    unfold Dev.grantClears
    simp only []
    split
    · exact .refl d
    · refine .ite (.refl d) (.trans ?_ (ih _))
      split
      · exact (modColl d _ _).trans (.sendRank _ _ _ _ _)
      · exact modColl d _ _

theorem grantSends (engine n : Nat) (d : Dev) : Canon d (d.grantSends engine n) := by
  induction n generalizing d with
  | zero => exact .refl d
  | succ n ih =>
    unfold Dev.grantSends
    simp only []
    split
    · exact .refl d
    · exact .ite (.refl d) ((modColl d _ _).trans (ih _))

theorem grantBuffers (d : Dev) (engine : Nat) : Canon d (d.grantBuffers engine) := (grantClears _ _ d).trans (grantSends _ _ _)

theorem useReady (d : Dev) (id : Nat) : Canon d (d.useReady id) := by
  unfold Dev.useReady
  split
  · exact .refl d
  · split
    · exact .refl d
    · exact .ite (.refl d) (.ite (modColl d _ _) (((setTicket d _).trans (.modColl _ _ _)).trans (.grantBuffers _ _)))

theorem collReady (d : Dev) (coll peer clock : Nat) : Canon d (d.collReady coll peer clock) := (modColl d _ _).trans (.useReady _ _)

theorem collCts (d : Dev) (coll peer chunk clock : Nat) : Canon d (d.collCts coll peer chunk clock) := by
  unfold Dev.collCts
  split
  · exact .refl d
  · exact .ite (.refl d) (((setTicket d _).trans (.modColl _ _ _)).trans (.grantBuffers _ _))

theorem collChunk (d : Dev) (coll peer chunk clock : Nat) (bytes : List Byte) : Canon d (d.collChunk coll peer chunk clock bytes) := by
  unfold Dev.collChunk
  split
  · exact .refl d
  · exact .ite (.refl d) .same

theorem setColls (d : Dev) (l : List Coll) : Canon d { d with colls := l } := .same
theorem setEgress (d : Dev) (l : List Egress) : Canon d { d with egress := l } := .same

theorem endColl (d : Dev) (c : Coll) (err : Option (Nat × Nat)) (time : Nat) : Canon d (d.endColl c err time) := by
  unfold Dev.endColl
  refine .trans (.trans ?_ (.endJob _ _ _)) (.grantBuffers _ _)
  exact (((setFree d _).trans (.owe _ _ _)).trans (.dropReplies _ _)).trans (.setColls _ _)

theorem failColl (d : Dev) (c : Coll) (cause : Nat) : Canon d (d.failColl c cause) :=
  (Canon.foldl (fun d _ => .sendRank d _ _ _ _) _ d).trans (.endColl _ _ _ _)

theorem cancelPeers (d : Dev) (x : CollQueue) : Canon d (d.cancelPeers x) := by
  unfold Dev.cancelPeers
  refine .foldl (fun d p => ?_) _ d
  split
  · split
    · exact endColl d _ _ _
    · exact .refl d
  · exact sendRank d _ _ _ _

theorem collMessage (d : Dev) (id : Nat) (m : PktBody) : Canon d (d.collMessage id m) := by
  unfold Dev.collMessage
  split
  · exact collReady d _ _ _
  · exact collCts d _ _ _ _
  · exact collChunk d _ _ _ _ _
  · split
    · exact endColl d _ _ _
    · exact .refl d
  · exact .refl d

theorem takeNear (d : Dev) (engine : Nat) : Canon d (d.takeNear engine) := by
  refine .foldl (fun d e => ?_) _ d
  split
  · exact .refl d
  · simp only []
    split
    · exact .ite ((setEgress d _).trans (.collMessage _ _ _)) (.refl d)
    · split
      · exact .ite (setEgress d _) (.refl d)
      · exact setEgress d _

theorem farMessage (d : Dev) (ctx : Nat) (p : Packet) (n rank : Nat) : Canon d (d.farMessage ctx p n rank) := by
  unfold Dev.farMessage
  split
  · exact .refl d
  · exact (setEgress d _).trans (.takeNear _ _)

theorem writeResiduals (d : Dev) (x : Ctx) (c : Coll) : Canon d (d.writeResiduals x c).1 := by
  unfold Dev.writeResiduals
  simp only []
  split
  · exact .refl d
  · refine ((reachFrom d _ _ _ _ _ _ _ _ _).trans (got _)).trans (andThen fun d _ _ => ?_)
    split
    · exact .refl d
    · exact ((reachWrite d _ _ _ _ _ _).trans (got _)).trans (andThen fun d _ _ => .refl d)

/-! ## Quanta -/

theorem quantumDone (d : Dev) (id : Nat) (f : Coll → Coll) : Canon d (d.quantumDone id f) := .same

theorem afterGot {α : Type} {c : Coll} {f : Dev → Nat → α → Dev} (hf : ∀ d t a, Canon d (f d t a)) (q : Dev × Got α) :
    Canon q.1 (Dev.afterGot c f q) := by
  obtain ⟨d, r⟩ := q
  cases r with
  | ok t a => exact hf d t a
  | fail e => exact failColl d c e
  | missing => exact .refl d

theorem runKeep (d : Dev) (x : Ctx) (c : Coll) : Canon d (d.runKeep x c) :=
  (collValues d _ _ _).trans (afterGot (fun d _ _ => (writeRecv d _ _ _).trans (afterGot (fun d _ _ => .quantumDone d _ _) _)) _)

theorem withValues {d : Dev} {x : Ctx} {c : Coll} {els : List Nat} {f : Dev → Coll → List (Nat × Lane) → Dev} (hf : ∀ d c vs, Canon d (f d c vs)) :
    Canon d (d.withValues x c els f) :=
  (readOwn d _ _ _).trans (afterGot (fun d _ _ => (collValues d _ _ _).trans (afterGot (fun d _ _ => hf d _ _) _)) _)

theorem runGive (d : Dev) (x : Ctx) (c : Coll) (k : Nat) : Canon d (d.runGive x c k) := by
  unfold Dev.runGive
  simp only []
  refine .withValues fun d c vs => ?_
  refine .trans ?_ (.grantBuffers _ _)
  split
  · exact (quantumDone d _ _).trans (.sendRank _ _ _ _ _)
  · exact quantumDone d _ _

theorem runTake (d : Dev) (x : Ctx) (c : Coll) (k : Nat) : Canon d (d.runTake x c k) := by
  unfold Dev.runTake
  simp only []
  refine .withValues fun d c hs => ?_
  refine .trans ?_ (afterGot (fun d _ _ => (quantumDone d _ _).trans (.grantBuffers _ _)) _)
  split
  · exact writeRecv d _ _ _
  · exact .refl d

theorem runQuantum (d : Dev) (x : Ctx) (c : Coll) (q : Quantum) : Canon d (d.runQuantum x c q) := by
  cases q with
  | keep => exact runKeep d x c
  | take k => exact runTake d x c k
  | give k => exact runGive d x c k

theorem runColl (d : Dev) (engine : Nat) : Canon d (d.runColl engine) := by
  have hpaid : Canon d ((((d.takeNear engine).collsAt engine).filter (·.paid.isSome)).foldl (fun d c =>
      match c.quantum, d.ctx? c.ctx with | some q, some x => d.runQuantum x c q | _, _ => d) (d.takeNear engine)) := by
    refine (takeNear d engine).trans (.foldl (fun d c => ?_) _ _)
    split
    · exact runQuantum d _ _ _
    · exact .refl d
  have hsync := fun wants => hpaid.trans (.syncPoint _ (.coll engine) 0 wants)
  unfold Dev.runColl
  simp only []
  split
  · exact hsync _
  · split
    · exact ((((hsync _).trans (.chargeAt _ _ _ _ _)).trans (.noteTurn _ _ _)).trans (.modColl _ _ _)).trans (.runQuantum _ _ _ _)
    · exact hsync _

end Canon

namespace KeepsCells

variable {s : State}

theorem collReady (coll peer clock : Nat) : KeepsCells s (execCollReady coll peer clock s) := onDev fun d => .collReady d _ _ _
theorem collCts (coll peer chunk clock : Nat) : KeepsCells s (execCollCts coll peer chunk clock s) := onDev fun d => .collCts d _ _ _ _
theorem collChunkReceive (coll peer chunk clock : Nat) (bytes : List Byte) : KeepsCells s (execCollChunkReceive coll peer chunk clock bytes s) :=
  onDev fun d => .collChunk d _ _ _ _ _

theorem collStepEnter (coll : Nat) : KeepsCells s (execCollStepEnter coll s) := onDev fun d => by
  split
  · refine .ite (.refl d) (.ite (.failColl d _ _) ?_)
    simp only []
    split
    · exact .modColl d _ _
    · split
      · exact (Canon.thenIte (.modColl d _ _) (.sendRank _ _ _ _ _)).trans (.useReady _ _)
      · exact (Canon.modColl d _ _).trans (.useReady _ _)
  · exact .refl d

theorem collComplete (coll : Nat) (err : Option (Nat × Nat)) (posted : Nat) : KeepsCells s (execCollComplete coll err posted s) := onDev fun d => by
  split
  · exact .refl d
  · split
    · exact .endColl d _ _ _
    · simp only []
      split
      · split
        next e heq => exact (Canon.writeResiduals d _ _).fst heq
        next e _ heq => exact ((Canon.writeResiduals d _ _).fst heq).trans (.failColl e _ _)
        next e _ _ heq => exact ((Canon.writeResiduals d _ _).fst heq).trans (.endColl e _ _ _)
      · exact .refl d

end KeepsCells

end Sys2Proof.Proofs
end

section
/-!
SUPPORT. Placement and continuation objects keep the sparse memories canonical.
-/

open Sys2Proof Sys2Proof.Machine

-- The whole text is compiled in one process, which can hold few threads: these many short proofs are elaborated in order.
set_option Elab.async false

namespace Sys2Proof.Proofs

namespace Canon

/-! ## Placement -/

theorem fresh (d : Dev) : Canon d d.fresh.2 := .same

theorem addWaves (b : Block) (gran : Nat) (pc s1 tvec : Word) (lts : Nat) (l : List Nat) (d : Dev) :
    Canon d (d.addWaves b gran pc s1 tvec lts l) := by
  induction l generalizing d with
  | nil => exact .refl d
  | cons i is ih => exact .trans (.same) (ih _)

theorem zeroRanges (d : Dev) (b : Block) : Canon d (d.zeroRanges b) :=
  (((zeroLoc d _ _ _).trans (.zeroLoc _ _ _ _)).trans (.zeroLoc _ _ _ _)).trans (.zeroLoc _ _ _ _)

theorem putBlock (d : Dev) (b : Block) : Canon d (d.putBlock b) := (zeroRanges d b).upd

theorem placeItem (d : Dev) (l : Launch) (core i : Nat) (team : Option Nat) (member : Nat) : Canon d (d.placeItem l core i team member) :=
  (((fresh d).trans (.putBlock _ _)).trans (.addWaves _ _ _ _ _ _ _ _)).trans (.modLaunch _ _ _)

theorem setTeams (d : Dev) (l : List Team) : Canon d { d with teams := l } := .same
theorem setSuspRegs (d : Dev) (l : List (Nat × Nat × List SReg)) : Canon d { d with suspRegs := l } := .same

theorem placeTeam (d : Dev) (l : Launch) (cores : List Nat) : Canon d (d.placeTeam l cores) := by
  unfold Dev.placeTeam
  refine .trans ?_ (.setTeams _ _)
  exact (fresh d).trans (.foldl (fun d _ => .placeItem d _ _ _ _ _) _ _)

theorem placePending (d : Dev) (core : Nat) (p : Pending) : Canon d (d.placePending core p) := by
  have hfresh : Canon d ({ d with pending := d.pending.filter (·.id != p.id) } : Dev).fresh.2 := .same
  cases p with
  | spawn => exact (hfresh.trans (.putBlock _ _)).trans (.addWaves _ _ _ _ _ _ _ _)
  | resident => exact (hfresh.trans (.putBlock _ _)).trans (.addWaves _ _ _ _ _ _ _ _)
  | resume => exact hfresh

theorem reenterPort (d : Dev) (core : Nat) (w : Wave) : Canon d (d.reenterPort core w) := .same

theorem placeNew (d : Dev) (core : Nat) : Canon d (d.placeNew core) := by
  unfold Dev.placeNew
  split
  · exact .refl d
  · split
    · refine .ite (.placeItem d _ _ _ _ _) ?_
      split
      · exact .placeTeam d _ _
      · exact .refl d
    · split
      · exact .placePending d _ _
      · exact .refl d

theorem restartIdle (d : Dev) : Canon d d.restartIdle :=
  .ite (.refl d) (.foldl (fun d _ => .ite (.modCore d _ _) (.refl d)) _ d)

theorem wakeCore (d : Dev) (core : Nat) : Canon d (d.wakeCore core) := .ite (.modCore d _ _) (.refl d)

/-! ## The end of a block -/

theorem removeBlock (d : Dev) (b : Block) : Canon d (d.removeBlock b) := .same

theorem releaseDeps (d : Dev) (id : Nat) : Canon d (d.releaseDeps id) := by
  unfold Dev.releaseDeps
  split
  · exact .refl d
  · exact .ite (.refl d) (.setLaunches d _)

theorem raisePost (d : Dev) (c : Coll) (t : Nat) : Canon d (d.raisePost c t) := .same

theorem exitChunk (d : Dev) (l : Launch) (b : Block) (t : Nat) : Canon d (d.exitChunk l b t) := by
  unfold Dev.exitChunk
  split
  · exact .refl d
  · simp only []
    split
    · exact ((Canon.modLaunch d _ _).trans (.modColl _ _ _)).trans (.raisePost _ _ _)
    · exact (Canon.modLaunch d _ _).trans (.modColl _ _ _)

theorem setCtxs (d : Dev) (l : List Ctx) : Canon d { d with ctxs := l } := .same

theorem tellPreempt (d : Dev) (ctx : Nat) : Canon d (d.tellPreempt ctx) := by
  unfold Dev.tellPreempt
  split
  · exact .refl d
  · exact .ite (.refl d) ((setCtxs d _).trans (.setEvent _ _ _))

theorem finishBlock (d : Dev) (b : Block) : Canon d (d.finishBlock b) := by
  have hgone : Canon d ((d.removeBlock b).tellPreempt b.ctx) := (removeBlock d b).trans (.tellPreempt _ _)
  unfold Dev.finishBlock
  simp only []
  split
  · refine .ite ?_ hgone
    split
    · exact .ite hgone (hgone.trans (.setEvent _ _ _))
    · exact hgone
  · exact (((hgone.trans (.exitChunk _ _ _ _)).trans (.modLaunch _ _ _)).trans (.decLaunch _ _ _ _)).trans (.releaseDeps _ _)

/-! ## Continuation slots -/

theorem slotLooked (x : Ctx) (ident : Nat) (q : Dev × SlotEnd) : Canon q.1 (Dev.slotLooked x ident q).1 := looked _ _ _ _

theorem moveSlot (d : Dev) (x : Ctx) (ident : Nat) (from_ : List Nat) (dest c : Nat) : Canon d (d.moveSlot x ident from_ dest c).1 := by
  unfold Dev.moveSlot
  refine .trans ?_ (slotLooked _ _ _)
  split
  · exact .refl d
  · split
    · exact .refl d
    · simp only []
      split
      · exact .homeWrite d _ _ _ _ _ _
      · exact .homeLoad d _ _ _ _ _

theorem testSlot (d : Dev) (x : Ctx) (ident c : Nat) : Canon d (d.testSlot x ident c).1 := by
  unfold Dev.testSlot
  refine .trans ?_ (slotLooked _ _ _)
  split
  · exact .refl d
  · split
    next heq => exact (Canon.homeLoad d _ _ _ _ _).fst heq
    next heq => exact (Canon.homeLoad d _ _ _ _ _).fst heq

theorem takeSlot (d : Dev) (x : Ctx) (c : Nat) : Canon d (d.takeSlot x c).1 := by
  unfold Dev.takeSlot
  split
  · exact .refl d
  · exact .refl d
  · split
    · exact .refl d
    · exact (Canon.homeWrite d _ _ _ _ _ _).trans (.looked _ _ _ _)

theorem takeSlots (x : Ctx) (forced : Bool) (l : List (Block × Nat × Bool)) (d : Dev) : Canon d (d.takeSlots x forced l).1 := by
  induction l generalizing d with
  | nil => exact .refl d
  | cons y rest ih =>
    obtain ⟨b, addr, noBuf⟩ := y
    unfold Dev.takeSlots
    split
    next heq => exact (Canon.takeSlot d _ _).fst heq
    next heq =>
      have htaken := fun id f => ((Canon.takeSlot d _ _).fst heq).trans (.modBlock _ id f)
      simp only []
      split
      next heq' => exact ((htaken _ _).trans (ih _)).fst heq'
      next heq' => exact ((((htaken _ _).trans (ih _)).fst heq')).trans (.moveSlot _ _ _ _ _ _)

theorem resumeSlots (x : Ctx) (l : List Nat) (c : Nat) (d : Dev) : Canon d (d.resumeSlots x c l).1 := by
  induction l generalizing d c with
  | nil => exact .refl d
  | cons i is ih =>
    unfold Dev.resumeSlots
    split
    next heq => exact (Canon.moveSlot d _ _ _ _ _).fst heq
    next heq => exact (Canon.moveSlot d _ _ _ _ _).fst heq
    next heq =>
      have hmoved := (Canon.moveSlot d _ _ _ _ _).fst heq
      split
      next heq' => exact (hmoved.trans (ih _ _)).fst heq'
      next heq' => exact ((hmoved.trans (ih _ _)).fst heq').trans (.moveSlot _ _ _ _ _ _)

end Canon

namespace KeepsCells

variable {s : State}

theorem blockPlace (core : Nat) : KeepsCells s (execBlockPlace core s) := onDev fun d => by
  split
  · exact .reenterPort d _ _
  · exact .ite (.wakeCore d _) (.ite (.refl d) (.placeNew d _))

theorem launchRelease (launch : Nat) : KeepsCells s (execLaunchRelease launch s) := onDev fun d => .modLaunch d _ _

theorem kneadWindowClose (ctx : Nat) : KeepsCells s (execKneadWindowClose ctx s) := onDev fun d => .setLaunches d _

theorem blockEnd (block : Nat) : KeepsCells s (execBlockEnd block s) := onDev fun d => by
  split
  · exact .refl d
  · exact .ite (.refl d) (.finishBlock d _)

theorem blockTriggerEvent (block : Nat) : KeepsCells s (execBlockTriggerEvent block s) := onDev fun d => by
  split
  · exact .refl d
  · refine .ite (.refl d) ?_
    simp only []
    split
    · exact .modBlock d _ _
    · exact ((Canon.modBlock d _ _).trans (.modLaunch _ _ _)).trans (.releaseDeps _ _)

theorem cancelDeadline (block : Nat) : KeepsCells s (execCancelDeadline block s) := onDev fun d => by
  split
  · exact .refl d
  · exact .ite (.forceExit d _) (.refl d)

theorem handlerEntry (wave : Nat) : KeepsCells s (execHandlerEntry wave s) := onDev fun d => by
  split
  · exact .refl d
  · exact .ite (.enterHandler d _) (.refl d)

theorem watchdog (wave strand : Nat) : KeepsCells s (execWatchdog wave strand s) := onDev fun d => by
  split
  · exact .ite (.raiseAsync d _ _) (.refl d)
  · exact .refl d

end KeepsCells

namespace Canon

/-! ## Suspension -/

theorem leaveSusp (d : Dev) (g : List Block) : Canon d (d.leaveSusp g) := .same

theorem failSusp (d : Dev) (g : List Block) (cause addr : Nat) : Canon d (d.failSusp g cause addr) := by
  unfold Dev.failSusp
  refine .trans (leaveSusp d g) (.foldl (fun d (w : Wave) => ?_) _ _)
  split
  · exact .refl d
  · refine .ite (.refl d) ?_
    exact (Canon.ite (p := cause = cObject) (.refl d) .same).trans (.trapWave _ _ _)

theorem quiesce (d : Dev) (b : Block) : Canon d (d.quiesce b) := by
  unfold Dev.quiesce
  refine .trans (.trans ?_ (.setJobs _ _)) (.skipFaults _ _ _)
  exact .ite (.refl d) ((foldl (fun d (j : Job) => .endJob d j.id j.clock) _ d).trans (.noteIdle _ _ _))

theorem trySusp (d : Dev) (b : Block) : Canon d (d.trySusp b) := by
  unfold Dev.trySusp
  refine .ite (.refl d) (.ite (.failSusp d _ _ _) (.foldl (fun d b => ?_) _ d))
  split
  · exact .refl d
  · exact (Canon.modBlock d _ _).trans (.quiesce _ _)

theorem douseBlock (d : Dev) (b : Block) : Canon d (d.douseBlock b) := .foldl (fun d (w : Wave) => .douseAll d b.core w.id) _ d

theorem leaveSuspended (d : Dev) (b : Block) : Canon d (d.leaveSuspended b) := by
  unfold Dev.leaveSuspended
  refine .trans (.trans (.trans ?_ (.modCore _ _ _)) (.removeBlock _ _)) (.tellPreempt _ _)
  refine .ite ?_ (.refl d)
  split
  · exact (Canon.modLaunch d _ _).trans (.releaseDeps _ _)
  · exact .refl d

theorem freeSlots (d : Dev) (x : Ctx) (g : List Block) : Canon d (d.freeSlots x g) := .foldl (fun d b => by
  split
  · exact .moveSlot d _ _ _ _ _
  · exact .refl d) _ d

theorem writeObject (d : Dev) (x : Ctx) (b : Block) (z : Sealing) : Canon d (d.writeObject x b z).1 := by
  unfold Dev.writeObject
  simp only []
  split
  · exact .refl d
  · split
    · split
      next heq => exact (Canon.reachWrite d _ _ _ _ _ _).fst heq
      next heq => exact (Canon.reachWrite d _ _ _ _ _ _).fst heq
      next heq => exact ((Canon.reachWrite d _ _ _ _ _ _).fst heq).trans (.modBlock _ _ _)
    · split
      next heq => exact (Canon.reachWrite d _ _ _ _ _ _).fst heq
      next heq => exact (Canon.reachWrite d _ _ _ _ _ _).fst heq
      next heq =>
        have hput := (Canon.reachWrite d _ _ _ _ _ _).fst heq
        split
        · exact hput
        · exact hput.trans (.modBlock _ _ _)

theorem writeObjects (d : Dev) (x : Ctx) (g : List Block) : Canon d (d.writeObjects x g).1 := by
  unfold Dev.writeObjects
  refine .foldlPair (fun q b => ?_) g (d, SealEnd.done)
  split
  · exact .refl _
  · exact .refl _
  · split
    · exact .refl _
    · split
      next heq => exact (Canon.writeObject _ _ _ _).fst heq
      next heq => exact (Canon.writeObject _ _ _ _).fst heq
      next heq => exact (Canon.writeObject _ _ _ _).fst heq

theorem sealOne (d : Dev) (x : Ctx) (b : Block) (z : Sealing) : Canon d (d.sealOne x b z) := by
  have hmoved : Canon d _ := .moveSlot d x z.ident [slotResuming] slotSuspended (z.slts.getD 0)
  exact .ite hmoved (hmoved.trans (.setSuspRegs _ _))

theorem sealAll (d : Dev) (x : Ctx) (g : List Block) : Canon d (d.sealAll x g).1 := by
  unfold Dev.sealAll
  simp only []
  split
  · exact .refl d
  · refine .trans (.foldl (fun d (y : Block × Sealing) => .sealOne d x y.1 y.2) _ d) (.foldl (fun d (b : Block) => ?_) _ _)
    split
    · exact .leaveSuspended d _
    · exact .refl d

theorem sealFinish (d : Dev) (x : Ctx) (g : List Block) {fail : Dev → Nat → Nat → Dev} {sealed : Dev → Dev}
    (hfail : ∀ d e a, Canon d (fail d e a)) (hsealed : ∀ d, Canon d (sealed d)) :
    Canon d (match d.sealAll x g with
      | (d, none) => sealed d
      | (d, some (e, a)) => fail (d.freeSlots x g) e a) := by
  split
  next heq => exact ((Canon.sealAll d _ _).fst heq).trans (hsealed _)
  next heq => exact (((Canon.sealAll d _ _).fst heq).trans (.freeSlots _ _ _)).trans (hfail _ _ _)

theorem sealStep (d : Dev) (x : Ctx) (g : List Block) {fail : Dev → Nat → Nat → Dev} {sealed : Dev → Dev}
    (hfail : ∀ d e a, Canon d (fail d e a)) (hsealed : ∀ d, Canon d (sealed d)) : Canon d (d.sealStep x g fail sealed) := by
  have hfailed := fun d e a => (Canon.freeSlots d x g).trans (hfail _ e a)
  unfold Dev.sealStep
  split
  next heq => exact ((Canon.writeObjects d _ _).fst heq).trans (hfailed _ _ _)
  next heq => exact ((Canon.writeObjects d _ _).fst heq).trans (sealFinish _ x g hfail hsealed)
  next d' heq =>
    have hput := (Canon.writeObjects d _ _).fst heq
    split
    next heq => exact (hput.trans ((Canon.writeObjects d' _ _).fst heq)).trans (hfailed _ _ _)
    next heq => exact (hput.trans ((Canon.writeObjects d' _ _).fst heq)).trans (sealFinish _ x g hfail hsealed)
    next heq => exact hput.trans ((Canon.writeObjects d' _ _).fst heq)

theorem stopForced (d : Dev) (g : List Block) : Canon d (d.stopForced g) := by
  unfold Dev.stopForced
  refine .trans ?_ (.foldl .quiesce _ _)
  exact .same

theorem failOrForce (d : Dev) (x : Ctx) (g : List Block) (cause addr : Nat) : Canon d (d.failOrForce x g cause addr) :=
  (failSusp d g cause addr).trans (.ite (.stopForced _ _) (.refl _))

theorem writeArea (d : Dev) (ctx : Nat) : Canon d (d.writeArea ctx) := by
  unfold Dev.writeArea
  split
  · exact .refl d
  · exact .owe d _ _

theorem failForced (d : Dev) (ctx : Nat) (g : List Block) : Canon d (d.failForced ctx g) := by
  unfold Dev.failForced
  refine .trans (.trans ?_ (.foldl (fun d (b : Block) => (Canon.modBlock d b.id _).trans (.forceExit _ b.id)) g _)) (.writeArea _ _)
  exact .modCtx d _ _

/-! ## Resumption and clones -/

theorem withHeader {d : Dev} {k : Issue} {va : Nat} {f : Dev → List Byte → Dev} (hf : ∀ d h, Canon d (f d h)) :
    Canon d (d.withHeader k va f) := .ite (.trapMem d k _ _ _) (.withRecord fun d _ => .ite (hf d _) (.trap d k _))

theorem slotTrap (d : Dev) (k : Issue) (cause addr : Nat) : Canon d (d.slotTrap k cause addr) := .ite (.trap d k _) (.trapMem d k _ _ _)

theorem resumeUnread (d : Dev) (k : Issue) (ident cause addr : Nat) : Canon d (d.resumeUnread k ident cause addr) := by
  unfold Dev.resumeUnread
  split
  next heq => exact ((Canon.moveSlot d _ _ _ _ _).fst heq).trans (.slotTrap _ k _ _)
  next heq => exact ((Canon.moveSlot d _ _ _ _ _).fst heq).trans (.trap _ k _)
  next heq =>
    simp only []
    refine .trans (.trans (.trans (.trans ?_ (.endRecords _ k)) (.modWave _ _ _)) (.notice _ _ _ _ _ _ _ _ _)) (.advance _ k 12)
    exact ((Canon.moveSlot d _ _ _ _ _).fst heq).trans (.moveSlot _ _ _ _ _ _)

theorem withTeamRecord {d : Dev} {k : Issue} {ident va : Nat} {f : Dev → List Byte → Dev} (hf : ∀ d h, Canon d (f d h)) :
    Canon d (d.withTeamRecord k ident va f) := by
  unfold Dev.withTeamRecord
  split
  next heq => exact ((Canon.reachFrom d _ _ _ _ _ _ _ _ _).fst heq).trans (.resumeUnread _ k _ _ _)
  · exact (Canon.reachFrom d _ _ _ _ _ _ _ _ _).trans (.afterRead hf _)

theorem withMembers {k : Issue} {ident : Nat} {f : Dev → List (List Byte) → Dev} (hf : ∀ d hs, Canon d (f d hs))
    (l : List (Nat × Nat)) (hs : List (List Byte)) (d : Dev) : Canon d (d.withMembers k ident l hs f) := by
  induction l generalizing d hs with
  | nil => exact hf d hs
  | cons y rest ih =>
    obtain ⟨a, i⟩ := y
    unfold Dev.withMembers
    exact .ite (.trap d k _) (.withTeamRecord fun d _ => .ite (ih _ d) (.trap d k _))

theorem readObject (d : Dev) (core : Nat) (x : Ctx) (owner base clock m a ident : Nat) :
    Canon d (d.readObject core x owner base clock m a ident).1 := by
  unfold Dev.readObject
  split
  next heq => exact (Canon.reachFrom d _ _ _ _ _ _ _ _ _).fst heq
  next heq => exact (Canon.reachFrom d _ _ _ _ _ _ _ _ _).fst heq
  next d' _ _ heq =>
    have hread := (Canon.reachFrom d _ _ _ _ _ _ _ _ _).fst heq
    split
    · exact hread
    · split
      next heq' => exact hread.trans ((Canon.reachFrom d' _ _ _ _ _ _ _ _ _).fst heq')
      next heq' => exact hread.trans ((Canon.reachFrom d' _ _ _ _ _ _ _ _ _).fst heq')
      next heq' => exact hread.trans ((Canon.reachFrom d' _ _ _ _ _ _ _ _ _).fst heq')

theorem readObjects (core : Nat) (x : Ctx) (owner : Nat) (l : List (Nat × Nat)) (clock m : Nat) (d : Dev) :
    Canon d (d.readObjects core x owner clock m l).1 := by
  induction l generalizing d clock m with
  | nil => exact .refl d
  | cons y as ih =>
    obtain ⟨a, i⟩ := y
    unfold Dev.readObjects
    split
    next heq => exact (Canon.readObject d _ _ _ _ _ _ _ _).fst heq
    next heq =>
      have hread := (Canon.readObject d _ _ _ _ _ _ _ _).fst heq
      split
      next heq' => exact (hread.trans (ih _ _ _)).fst heq'
      · exact hread.trans (ih _ _ _)

theorem dropSuspRegs (d : Dev) (ctx ident : Nat) : Canon d (d.dropSuspRegs ctx ident) := .same

theorem addSaved (b : Block) (o : List Byte) (clock : Nat) (l : List SavedWave) (i : Nat) (d : Dev) : Canon d (d.addSaved b o clock i l) := by
  induction l generalizing d i with
  | nil => exact .refl d
  | cons w ws ih => exact .trans .same (ih _ _)

theorem cancelPlaced (d : Dev) (x : Ctx) (block : Nat) : Canon d (d.cancelPlaced x block) := by
  unfold Dev.cancelPlaced
  split
  · exact .ite ((Canon.modBlock d _ _).trans (.raiseBlock _ _ _)) (.refl d)
  · exact .refl d

theorem placeObject (d : Dev) (x : Ctx) (core clock : Nat) (team : Option Nat) (o : List Byte) (ws : List SavedWave) :
    Canon d (d.placeObject x core clock team o ws) := by
  unfold Dev.placeObject
  refine .trans (.trans (.trans (.trans ?_ (.foldl (fun d (y : Space × Nat) => ?_) _ _)) (.addSaved _ _ _ _ _ _)) (.dropSuspRegs _ _ _)) (.cancelPlaced _ _ _)
  · exact (fresh d).trans (.putBlock _ _)
  · exact .ite (.refl d) (.putLoc d _ _ _ _)

theorem failResume (d : Dev) (x : Ctx) (p : Pending) (cause addr : Nat) : Canon d (d.failResume x p cause addr) := by
  cases p with
  | spawn => exact .refl d
  | resident => exact .refl d
  | resume =>
    unfold Dev.failResume
    refine .trans (.trans ?_ (.dropReplies _ _)) (.setPending _ _)
    refine .trans (.notice d _ _ _ _ _ _ _ _) (.foldl (fun d i => ?_) _ _)
    split
    next heq =>
      have hmoved := (Canon.moveSlot d _ _ _ _ _).fst heq
      exact .ite hmoved (hmoved.trans (.notice _ _ _ _ _ _ _ _ _))
    next heq => exact (Canon.moveSlot d _ _ _ _ _).fst heq

theorem placeObjects (d : Dev) (x : Ctx) (idents cores : List Nat) (clock t : Nat) (os : List (List Byte × List SavedWave)) :
    Canon d (d.placeObjects x idents cores clock t os) := by
  unfold Dev.placeObjects
  split
  · exact .refl d
  next o _ _ =>
    have hteam : Canon d (if headerTeam o = 0 then (none, d) else (some d.nextId, { d with nextId := d.nextId + 1 }) : Option Nat × Dev).2 := by
      split
      · exact .refl d
      · exact .setNextId d _
    have hplaced := fun l tid => hteam.trans
      (foldl (fun d (y : Nat × List Byte × List SavedWave) => .placeObject d x y.1 clock tid y.2.1 y.2.2) l _)
    simp only []
    refine .trans ?_ (.foldl (fun d i => .moveSlot d x i [slotResuming] slotResumed t) _ _)
    split
    · exact hplaced _ _
    · exact (hplaced _ _).trans (.setTeams _ _)

end Canon

namespace KeepsCells

variable {s : State}

theorem susp (dest a : SReg) (team noBuf : Bool) : KeepsCells s (execSusp dest a team noBuf s) := issue fun k d =>
  .ite (.trap d k _) (.ite (.trapMem d k _ _ _) (.ite (.trap d k _) (.ite (.trap d k _)
    (((Canon.stall d k _).trans (.onWave _ k _)).trans (.trySusp _ _)))))

theorem suspSeal (block : Nat) : KeepsCells s (execSuspSeal block s) := onDev fun d => by
  split
  · exact .refl d
  · split
    · exact .refl d
    · refine .ite (.refl d) ?_
      split
      · exact .trySusp d _
      · exact .ite (.refl d) (.sealStep d _ _ (fun d _ _ => .failOrForce d _ _ _ _) .refl)
      · exact .refl d
      · simp only []
        have hskipped := fun g d => Canon.foldl (fun d (b : Block) => .skipFaults b 70000 d) g d
        split
        · exact hskipped _ d
        · split
          next heq => exact (((hskipped _ d).trans (.takeSlots _ _ _ _)).fst heq).trans (((Canon.foldl .douseBlock _ _)).trans (.failOrForce _ _ _ _ _))
          next heq =>
            exact (((hskipped _ d).trans (.takeSlots _ _ _ _)).fst heq).trans
              (((Canon.foldl .douseBlock _ _)).trans (.sealStep _ _ _ (fun d _ _ => .failOrForce d _ _ _ _) .refl))

theorem forcedSave (ctx : Nat) : KeepsCells s (execForcedSave ctx s) := onDev fun d => by
  split
  · exact .refl d
  · exact .ite (.refl d) (.foldl (fun d _ => .ite (.stopForced d _) (.refl d)) _ d)

theorem forcedSaveSeal (block : Nat) : KeepsCells s (execForcedSaveSeal block s) := onDev fun d => by
  split
  · exact .refl d
  · split
    · refine .ite (.refl d) ?_
      have hsealed := fun (d : Dev) n f => (Canon.modCtx d n f).trans (.writeArea _ n)
      split
      · exact .ite (.sealStep d _ _ (fun d _ _ => .failForced d _ _) fun d => hsealed d _ _) (.refl d)
      · simp only []
        have hskipped := fun g d => Canon.foldl (fun d (b : Block) => .skipFaults b 70000 d) g d
        have hdoused := fun g d => Canon.foldl .douseBlock g d
        split
        · exact hskipped _ d
        · split
          · exact ((hskipped _ d).trans (hdoused _ _)).trans (.failForced _ _ _)
          · split
            next heq => exact (((hskipped _ d).trans (.takeSlots _ _ _ _)).fst heq).trans ((hdoused _ _).trans (.failForced _ _ _))
            next heq =>
              exact (((hskipped _ d).trans (.takeSlots _ _ _ _)).fst heq).trans
                ((hdoused _ _).trans (.sealStep _ _ _ (fun d _ _ => .failForced d _ _) fun d => hsealed d _ _))
      · exact .refl d
    · exact .refl d

theorem resume (a : SReg) : KeepsCells s (execResume a s) := issue fun k d => .whenSettled (.withHeader fun d h => by
  have hgo : ∀ (d : Dev) (hs : List (List Byte)), Canon d (match d.resumeSlots k.ctx (d.ltsOf k) (hs.map headerIdent) with
      | (d, .error (e, at_)) => d.slotTrap k e at_
      | (d, .ok t) =>
        let d := d.endRecords k
        let (id, d) := d.fresh
        let d := d.modWave k.wave.id (·.adopt t)
        ({ d with pending := d.pending ++ [.resume id k.ctx.n (k.rd a).toNat (hs.map headerIdent) (hs.map headerFeet) k.wave.id
            k.block.id k.gang t k.pc] } : Dev).advance k 12) := fun d hs => by
    split
    next heq => exact ((Canon.resumeSlots _ _ _ d).fst heq).trans (.slotTrap _ k _ _)
    next heq => exact ((Canon.resumeSlots _ _ _ d).fst heq).trans .same
  refine .ite (.trap d k _) (.ite (hgo d _) (.withTeamRecord fun d _ => ?_))
  split
  · exact .trap d k _
  · exact .ite (.withMembers hgo _ _ d) (.trap d k _))

theorem resumePlaced (resumption core : Nat) : KeepsCells s (execResumePlaced resumption core s) := onDev fun d => by
  refine .ite (.wakeCore d _) ?_
  split
  · split
    · simp only []
      split
      next heq => exact (Canon.readObjects _ _ _ _ _ _ d).fst heq
      next heq => exact ((Canon.readObjects _ _ _ _ _ _ d).fst heq).trans (.failResume _ _ _ _ _)
      next d' _ _ heq =>
        have hread := (Canon.readObjects _ _ _ _ _ _ d).fst heq
        split
        next heq' => exact hread.trans ((Canon.readObjects _ _ _ _ _ _ d').fst heq')
        next heq' => exact (hread.trans ((Canon.readObjects _ _ _ _ _ _ d').fst heq')).trans (.failResume _ _ _ _ _)
        next heq' =>
          have hmore := hread.trans ((Canon.readObjects _ _ _ _ _ _ d').fst heq')
          refine .ite (hmore.trans (.failResume _ _ _ _ _)) ?_
          split
          · exact hmore.trans (.failResume _ _ _ _ _)
          · exact ((hmore.trans (.dropReplies _ _)).trans (.setPending _ _)).trans (.placeObjects _ _ _ _ _ _ _)
    · exact .refl d
  · exact .refl d

theorem cclone (dest a b : SReg) : KeepsCells s (execCclone dest a b s) := issue fun k d =>
  .ite (.trapMem d k _ _ _) (.ite (.trapMem d k _ _ _) (.whenSettled (.withHeader fun d h =>
    .ite (.trap d k _) (.ite (.trap d k _) (.ite (.stall d k _) (by
      split
      next heq => exact ((Canon.testSlot d _ _ _).fst heq).trans (.slotTrap _ k _ _)
      next heq => exact ((Canon.testSlot d _ _ _).fst heq).trans (.trap _ k _)
      next heq =>
        have htested := (Canon.testSlot d _ _ _).fst heq
        split
        next heq' => exact ((htested.trans (.takeSlot _ _ _)).fst heq').trans (.slotTrap _ k _ _)
        next heq' =>
          refine .trans ((htested.trans (.takeSlot _ _ _)).fst heq') ?_
          refine .trans (.trans ?_ (.setScalars _ k _ _)) (.advance _ k 12)
          exact .same))))))

theorem ccloneDone (job : Nat) : KeepsCells s (execCcloneDone job s) := onDev fun d => by
  split
  · exact .refl d
  next j _ =>
    split
    next ident _ _ b x _ _ _ =>
      refine .ite (.refl d) ?_
      have hfinish : ∀ (d : Dev) (dest t : Nat), Canon d
          (let (d, t) := match d.moveSlot x ident [slotResuming] dest (t + 1) with
              | (d, .moved t) => (d, t)
              | (d, .fail e) => (d.report j e (slotAddr x ident), t)
              | (d, .wrong) => (d, t)
            let d := (d.modWave j.wave fun w => { w with doneCp := max w.doneCp t }).noteDone job j.wave j.block j.gang t
            (d.endJob job t).dropReplies job) := fun d dest t => by
        simp only []
        refine .trans (.trans (.trans (.trans ?_ (.modWave _ _ _)) (.noteDone _ _ _ _ _ _)) (.endJob _ _ _)) (.dropReplies _ _)
        split
        next heq => exact (Canon.moveSlot d _ _ _ _ _).fst heq
        next heq => exact ((Canon.moveSlot d _ _ _ _ _).fst heq).trans (.report _ _ _ _)
        next heq => exact (Canon.moveSlot d _ _ _ _ _).fst heq
      have hfail := fun d dest t e a => (hfinish d dest t).trans (.report _ j e a)
      simp only []
      split
      next heq => exact (Canon.reachFrom d _ _ _ _ _ _ _ _ _).fst heq
      next heq => exact ((Canon.reachFrom d _ _ _ _ _ _ _ _ _).fst heq).trans (hfail _ _ _ _ _)
      next heq =>
        have hread := (Canon.reachFrom d _ _ _ _ _ _ _ _ _).fst heq
        split
        next heq' => exact (hread.trans (.reachWrite _ _ _ _ _ _ _)).fst heq'
        next heq' => exact ((hread.trans (.reachWrite _ _ _ _ _ _ _)).fst heq').trans (hfail _ _ _ _ _)
        next heq' => exact ((hread.trans (.reachWrite _ _ _ _ _ _ _)).fst heq').trans (hfinish _ _ _)
    · exact .refl d

theorem cdrop (a : SReg) : KeepsCells s (execCdrop a s) := issue fun k d => .whenSettled (by
  simp only []
  split
  next heq => exact ((Canon.moveSlot d _ _ _ _ _).fst heq).trans (.slotTrap _ k _ _)
  next heq => exact ((Canon.moveSlot d _ _ _ _ _).fst heq).trans (.trap _ k _)
  next heq => exact ((((Canon.moveSlot d _ _ _ _ _).fst heq).trans (.dropSuspRegs _ _ _)).trans (.modWave _ _ _)).trans (.advance _ k 12))

end KeepsCells

end Sys2Proof.Proofs
end

section
/-!
SUPPORT. The fabric, host, power and reset steps keep the sparse memories canonical.
-/

open Sys2Proof Sys2Proof.Machine

-- The whole text is compiled in one process, which can hold few threads: these many short proofs are elaborated in order.
set_option Elab.async false

namespace Sys2Proof.Proofs

namespace Canon

/-! ## Hierarchy, fabric and arbiters -/

theorem evictLine (d : Dev) (l : LlcLine) : Canon d (d.evictLine l) := .same

theorem registerError (d : Dev) (wave : Nat) (reg : RegName) : Canon d (d.registerError wave reg) := by
  unfold Dev.registerError
  split
  · exact .refl d
  · exact .same

theorem softError (d : Dev) (x : SoftError) : Canon d (d.softError x) := by
  unfold Dev.softError
  split
  · exact .refl d
  · exact .refl d
  · exact .registerError d _ _
  · exact .ite .same (.refl d)
  · exact .modWave d _ _
  · exact .same
  · exact .same
  · exact .same
  · split
    · exact .ite (.spoil d _ _) (.refl d)
    · exact .refl d
  · exact .ite (.spoil d _ _) (.refl d)
  · split
    · exact .ite (.send d _) (.evictLine d _)
    · exact .refl d

theorem syncAt (d : Dev) (p : Point) : Canon d (d.syncAt p) := .foldl (fun d i => .syncPoint d p i _) _ d

theorem noteAt (d : Dev) (p : Point) : Canon d (d.noteAt p) := .foldl (fun d i => .notePending d p i _) _ d

theorem noteServers (d : Dev) : Canon d d.noteServers := .foldl .noteAt _ d

theorem noteSurge (d : Dev) : Canon d d.noteSurge := .same

theorem dropBad (d : Dev) : Canon d d.dropBad := .same

theorem wakeLine (d : Dev) (line t : Nat) : Canon d (d.wakeLine line t) := .same

/-! ## Replies -/

theorem keepLine (d : Dev) (core : Nat) (r : Remote) (t : Nat) (bs : List Byte) : Canon d (d.keepLine core r t bs) := .putL1 d _

theorem keepReply (d : Dev) (o : MemOp) (r : Remote) (t : Nat) (bs : List Byte) : Canon d (d.keepReply o r t bs) := by
  unfold Dev.keepReply
  split
  · exact .ite (.keepLine d _ _ _ _) (.refl d)
  · exact .same
  · exact .refl d

theorem endStamp (d : Dev) (op : Nat) : Canon d (match d.op? op with | some o => d.endOp o | none => d) := by
  split
  · exact .endOp d _
  · exact .refl d

theorem laneReply (d : Dev) (o : MemOp) (r : Remote) (lane t : Nat) (bs : List Byte) : Canon d (d.laneReply o r lane t bs) := by
  unfold Dev.laneReply
  refine .trans (b := match o.kind with
    | .cmpst .. => d.queueOpen o (leNat bs) t
    | _ =>
      if o.whole then
        o.lanes.foldl (fun (d : Dev) (a : LaneAcc) => d.laneDone o.id a.lane (.done t ((bs.drop a.inLine).take a.n))) d
      else d.laneDone o.id lane (.done t bs)) ?_ ?_
  · split
    · exact .queueOpen d _ _ _
    · exact .ite (.foldl (fun d (a : LaneAcc) => .laneDone d o.id a.lane _) _ d) (.laneDone d _ _ _)
  · exact .ite (.endStamp _ _) (((Canon.keepReply _ _ _ _ _).trans (.opTime _ _ _)).trans (.settleOp _ _))

theorem laneFails (d : Dev) (o : MemOp) (lane cause : Nat) : Canon d (d.laneFails o lane cause) :=
  .trans (.foldl (fun d l => .laneDone d o.id l (.failed cause)) _ d) (.ite (.endStamp _ _) (.settleOp _ _))

theorem endRequest (d : Dev) (r : Remote) (a : Answer) : Canon d (d.endRequest r a) := by
  have hgone : Canon d { d with remotes := d.remotes.filter (·.req != r.req) } := .setRemotes d _
  unfold Dev.endRequest
  simp only []
  split
  · split
    · exact hgone.trans (.laneReply _ _ _ _ _ _)
    · exact hgone.trans (.laneFails _ _ _ _)
    · exact hgone
  · refine .ite (hgone.trans (.owedReply _ _ _)) (.ite ?_ (.ite ?_ ?_))
    · split
      · exact hgone.trans (.wakeLine _ _ _)
      · exact hgone
    · split
      · exact hgone.trans (.keepLine _ _ _ _ _)
      · exact hgone
    · split
      · exact (hgone.trans (.modJob _ _ _)).trans (.modCopy _ _ _)
      · exact hgone.trans (.pieceFault _ _ _ _ _)
      · exact hgone.trans (.setInbox _ _)
  · exact hgone

theorem takeReply (d : Dev) (req : Nat) (e : RemoteEnd) : Canon d (d.takeReply req e) := by
  unfold Dev.takeReply
  split
  · exact .endRequest d _ _
  · exact .refl d

/-! ## Requests of other packages -/

theorem serveCopy (d : Dev) (x : Ctx) (pa clock : Nat) (bs mask : List Byte) (checks : List (BitVec 16)) :
    Canon d (d.serveCopy x pa clock bs mask checks).1 := by
  unfold Dev.serveCopy
  refine .trans ?_ (.keepChecks _ _ _ _ _)
  refine (Canon.setFree d (d.free + (spans 32 pa bs.length).length)).trans (.foldlPair (fun q sp => ?_) _ (_, clock))
  exact .writeSector q.1 _ _ _ _ _

theorem serveRead (d : Dev) (x : Ctx) (pa n clock : Nat) : Canon d (d.serveRead x pa n clock).1 := by
  unfold Dev.serveRead
  refine (Canon.freeWord d).trans (.foldlPair (fun q sp => ?_) _ (_, clock, some []))
  exact .homeLoad q.1 _ _ _ _ _

theorem serve (d : Dev) (x : Ctx) (p : RemotePkt) : Canon d (d.serve x p).1 := by
  have hwrite : ∀ f, Canon d (d.homeWrite x.n none true (.glob p.pa) p.clock f).1 := fun f => .homeWrite d _ _ _ _ _ _
  have hupdate : ∀ n f, Canon d (d.homeRmw x.n none true (.glob p.pa) n p.clock f).1 := fun n f => .homeRmw d _ _ _ _ _ _ _
  unfold Dev.serve
  simp only []
  split
  · exact (Canon.freeWord d).trans (.loadOnce _ _ _ _ _ _)
  · exact .serveRead d _ _ _ _
  · split
    next heq =>
      refine (Canon.fst ?_ heq).trans (.keepChecks _ _ _ _ _)
      exact hwrite _
    · exact hwrite _
  · exact hwrite _
  · exact .serveCopy d _ _ _ _ _ _
  · exact hupdate _ _
  · exact hupdate _ _
  · split
    · split
      · exact .refl d
      · exact hupdate _ _
    · exact .refl d
  · exact hupdate _ _
  · exact .refl d

theorem reply (d : Dev) (x : Ctx) (p : RemotePkt) (e : RemoteEnd) : Canon d (d.reply x p e) := .same

theorem serveNow (d : Dev) (x : Ctx) (p : RemotePkt) : Canon d (d.serveNow x p) := (serve d x p).trans (.reply _ _ _ _)

theorem serveFar (d : Dev) (x : Ctx) (p : RemotePkt) : Canon d (d.serveFar x p) := by
  unfold Dev.serveFar
  refine .trans (.wakePath d x.n (askLoads p)) (.ite ?_ .same)
  exact ((Canon.foldl (fun d (c : Point × Nat) => .chargeAt d x.n c.1 0 c.2) _ _).trans (.serveNow _ _ _)).trans (.chargedFrom _ _)

theorem serveRequest (d : Dev) (p : RemotePkt) : Canon d (d.serveRequest p) := by
  unfold Dev.serveRequest
  split
  · exact .refl d
  · refine .ite (.reply d _ _ _) (.ite (.reply d _ _ _) ?_)
    split
    · exact .serveFar d _ _
    · exact .serveFar d _ _
    · exact .ite (.reply d _ _ _) .same
    · exact .serveNow d _ _

theorem setHeld (d : Dev) (l : List RemotePkt) : Canon d { d with held := l } := .same

theorem retryHeld (d : Dev) : Canon d d.retryHeld := (setHeld d []).trans (.foldl .serveRequest _ _)

theorem answerWatches (d : Dev) : Canon d d.answerWatches := .foldl (fun d w => by
  split
  · exact .same
  · exact .refl d) _ d

/-! ## Flits -/

theorem stage (d : Dev) : Canon d d.stage := (setEgress d _).trans (.answerWatches _)

theorem countDrop (d : Dev) (fn : Nat) : Canon d (d.countDrop fn) := (modFn d _ _).trans (.setEvent _ _ _)

theorem packetGone (d : Dev) (e : Egress) : Canon d (d.packetGone e) := by
  unfold Dev.packetGone
  simp only []
  split
  · exact (Canon.setEgress d _).trans (.grantBuffers _ _)
  · exact .setEgress d _

theorem dropEgress (d : Dev) (e : Egress) : Canon d (d.dropEgress e) := by
  have hcounted := fun fn => (packetGone d e).trans (.countDrop _ fn)
  unfold Dev.dropEgress
  simp only []
  split
  · exact (hcounted _).trans (.endRequest _ _ _)
  · exact hcounted _

theorem sendFlit (d : Dev) (port : Nat) (e : Egress) : Canon d (d.sendFlit port e) := by
  unfold Dev.sendFlit
  simp only []
  refine .ite (.dropEgress d e) (.ite ?_ .same)
  refine .trans (.trans ?_ (.packetGone _ _)) (.send _ _)
  exact .same

theorem deliver (d : Dev) (port : Nat) (p : Packet) : Canon d (d.deliver port p) := by
  unfold Dev.deliver
  split
  · exact .countDrop d _
  · refine .ite (.countDrop d _) ?_
    split
    · exact .serveRequest d _
    · exact .ite (.takeReply d _ _) (.refl d)
    · exact .farMessage d _ _ _ _
    · exact .farMessage d _ _ _ _
    · exact .farMessage d _ _ _ _
    · exact .farMessage d _ _ _ _

theorem settle (d : Dev) : Canon d d.settle :=
  ((((dropBad d).trans (.noteServers _)).trans (.retryHeld _)).trans (.noteSurge _)).trans (.restartIdle _)

end Canon

namespace KeepsCells

variable {s : State}

theorem llcEvict (x : Eviction) : KeepsCells s (execLlcEvict x s) := .next (by
  simp only []
  refine .trans ?_ (.softError _ _)
  split
  · exact .evictLine _ _
  · exact .refl _)

theorem memLineTransfer (channel : Nat) : KeepsCells s (execMemLineTransfer channel s) := onDev fun d => by
  simp only []
  refine .trans (.syncAt d (.chan channel)) ?_
  split
  · exact .same
  · split
    · exact .refl _
    · exact .trans (.same) (.noteTurn _ _ _)

theorem serverRelease (ctx : Nat) (point : Point) : KeepsCells s (execServerRelease ctx point s) := onDev fun d => .ite (.syncAt d _) (.refl d)

theorem arbiterSelect (point : Point) : KeepsCells s (execArbiterSelect point s) := onDev fun d => by
  split
  · exact .beginStep fun d _ => .refl d
  · exact .startFx d _ _
  · exact .startFx d _ _
  · exact .runColl d _
  · have hsync : ∀ die, Canon d (d.waitingPieces.foldl (fun d w => if w.2.1 = die then d.wakePath w.1 w.2.2.2 else d) (d.syncAt (.copy die))) := fun die =>
      (Canon.syncAt d _).trans (.foldl (fun d _ => .ite (.wakePath d _ _) (.refl d)) _ _)
    simp only []
    split
    · exact (hsync _).trans (.setPicks _ _)
    · exact ((hsync _).trans (.setPicks _ _)).trans (.noteTurn _ _ _)
  · exact .syncAt d _

theorem pairtimeout (req : Nat) : KeepsCells s (execPairtimeout req s) := onDev fun d => by
  split
  · exact .refl d
  · exact .ite (.refl d) (.endRequest d _ _)

theorem replyArrive (req : Nat) (e : RemoteEnd) : KeepsCells s (execReplyArrive req e s) := onDev fun d => .takeReply d _ _

theorem remoteRequest (p : RemotePkt) : KeepsCells s (execRemoteRequest p s) := onDev fun d => .serveRequest d p

theorem flitSend (port : Nat) : KeepsCells s (execFlitSend port s) := onDev fun d => by
  simp only []
  refine .trans (.stage d) (.ite (.refl _) ?_)
  split
  · exact .sendFlit _ _ _
  · refine .trans (.syncAt _ (.eutrix port)) ?_
    split
    · exact .sendFlit _ _ _
    · split
      · exact .refl _
      · exact ((Canon.chargeAt _ _ _ _ _).trans (.noteTurn _ _ _)).trans (.sendFlit _ _ _)

theorem flitReceive (port : Nat) (x : FlitIn) (p : Packet) : KeepsCells s (execFlitReceive port x p s) := onDev fun d => by
  simp only []
  exact .ite (.refl d) ((Canon.modPort d _ _).trans (.ite (.deliver _ _ _) (.refl _)))

theorem linkPause (port : Nat) (on : Bool) : KeepsCells s (execLinkPause port on s) := onDev fun d => .ite (.modPort d _ _) (.refl d)

end KeepsCells

namespace Canon

/-! ## The host port -/

theorem postWrite (d : Dev) (fn : Nat) (bs : List Byte) (l : List (Span × Nat)) : Canon d (d.postWrite fn bs l) := .foldl (fun d sp => by
  split
  next heq => exact ((Canon.homeWrite d _ _ _ _ _ _).fst heq).trans (.modFn _ _ _)
  next heq => exact ((Canon.homeWrite d _ _ _ _ _ _).fst heq).trans (.send _ _)) _ d

theorem readSectors (d : Dev) (fn : Nat) (l : List (Span × Nat)) : Canon d (d.readSectors fn l).1 := by
  unfold Dev.readSectors
  refine .foldlPair (fun q sp => ?_) l (d, some [])
  simp only []
  split
  next heq => exact (((Canon.freeWord _).trans (.homeLoad _ _ _ _ _ _)).fst heq).trans (.modFn _ _ _)
  next heq => exact (((Canon.freeWord _).trans (.homeLoad _ _ _ _ _ _)).fst heq).trans (.send _ _)

theorem startInvalidate (d : Dev) (fn : Nat) : Canon d (d.startInvalidate fn) := by
  unfold Dev.startInvalidate
  simp only []
  refine .ite (.refl d) ?_
  split
  · exact .modFn d _ _
  · exact .same

theorem writeInvctl (d : Dev) (fn idx : Nat) (go : Bool) : Canon d (d.writeInvctl fn idx go) :=
  (modFn d _ _).trans (.ite (.startInvalidate _ _) (.refl _))

theorem clearEvent (d : Dev) (fn bits : Nat) : Canon d (d.clearEvent fn bits) := .modFn d _ _

theorem failPage (d : Dev) (fn page : Nat) : Canon d (d.failPage fn page) :=
  .foldl (fun d _ => .ite (.foldl (fun d _ => .laneFails d _ _ _) _ d) (.refl d)) _ d

theorem faultPage (d : Dev) (fn page : Nat) : Canon d (d.faultPage fn page) := by
  unfold Dev.faultPage
  refine .foldl (fun d j => ?_) _ d
  split
  · refine .ite (.trans (.foldl (fun d _ => .ite (.modCopy d _ _) (.refl d)) _ d) (.foldl (fun d _ => ?_) _ _)) (.refl d)
    exact .ite (.pieceFault d _ _ _ _) (.ite (.pieceFault d _ _ _ _) (.refl d))
  · exact .refl d

theorem setAllowance {d : Dev} {s : State} (h : Canon d s.dev) (die : Nat) : Canon d (s.setAllowance die).dev := h.trans (.putAllowance _ _ _)

theorem setAllowances {d : Dev} {s : State} (h : Canon d s.dev) : Canon d s.setAllowances.dev := by
  unfold State.setAllowances
  generalize List.range 4 = l
  induction l generalizing s with
  | nil => exact h
  | cons x l ih => exact ih (.setAllowance h x)

theorem endCommand {d : Dev} {s : State} (h : Canon d s.dev) (code status : Nat) : Canon d (s.endCommand code status).dev :=
  (h.trans (.send _ _)).trans (.setEvent _ _ _)

theorem iteState {d : Dev} {p : Prop} [Decidable p] {a b : State} (ha : Canon d a.dev) (hb : Canon d b.dev) : Canon d (if p then a else b).dev := by
  split
  · exact ha
  · exact hb

theorem setCap (s : State) (w : Nat) : Canon s.dev (s.setCap w).dev :=
  .iteState (.setAllowances (.refl _)) (.refl _)

theorem readInternal (s : State) (v : Nat) : Canon s.dev (s.readInternal v).dev := .same

theorem commandControl (s : State) (v : Nat) : Canon s.dev (s.commandControl v).dev :=
  .iteState .same (.iteState .same (.endCommand (.refl _) _ _))

theorem writeReg (s : State) (fn off v : Nat) : Canon s.dev (s.writeReg fn off v).dev :=
  .iteState (.refl _) (.iteState (.modFn _ _ _) (.iteState (.modFn _ _ _) (.iteState (.writeInvctl _ _ _ _) (.iteState (.clearEvent _ _ _)
    (.iteState (.modFn _ _ _) (.iteState .same (.iteState (.commandControl _ _) (.iteState (.setCap _ _) (.iteState .same (.iteState .same
      (.iteState (.readInternal _ _) (.iteState .same (.refl _)))))))))))))

theorem writePart (s : State) (fn off n v : Nat) : Canon s.dev (s.writePart fn off n v).dev := .writeReg _ _ _ _

theorem hostParts (fn : Nat) (f g h : Span → Nat) (l : List Span) (s : State) :
    Canon s.dev (l.foldl (fun s sp => s.writePart fn (f sp) (g sp) (h sp)) s).dev := by
  induction l generalizing s with
  | nil => exact .refl _
  | cons x l ih => exact (writePart s _ _ _ _).trans (ih _)

/-! ## Power and heat -/

theorem darkenTile (d : Dev) (core : Nat) : Canon d (d.darkenTile core) := by
  unfold Dev.darkenTile
  simp only []
  split
  · exact .refl d
  · exact .modEngine d _ _ _
  · have hevict : Canon d ((if (d.engine core .tile).st = .warm then d.modEngine core .tile Engine.withdraw else d).modEngine core .tile
        fun e => { e with st := .evicting, forPower := true }) :=
      (Canon.ite (.modEngine d _ _ _) (.refl d)).trans (.modEngine _ _ _ _)
    split
    · exact (hevict.trans (.stopTile _ _ _ _ _ _)).trans (.engineStop _ _ _ _)
    · exact hevict.trans (.engineStop _ _ _ _)

theorem powerAction {d : Dev} {s : State} (h : Canon d s.dev) : Canon d s.powerAction.dev := by
  unfold State.powerAction
  refine h.trans ?_
  simp only []
  split
  · exact .modCore _ _ _
  · split
    · exact .modCore _ _ _
    · split
      · exact .modCore _ _ _
      · exact .iteState (.setAllowances (.refl _)) (.refl _)

theorem powerUndo {d : Dev} {s : State} (h : Canon d s.dev) : Canon d s.powerUndo.dev := by
  unfold State.powerUndo
  refine h.trans ?_
  split
  · exact .refl _
  · simp only []
    split
    · exact .ite (.modCore _ _ _) (.refl _)
    · exact .modCore _ _ _
    · exact .modCore _ _ _
    · exact .setAllowances (.refl _)

theorem openMigration {d : Dev} {s : State} (h : Canon d s.dev) (die : Nat) (temps : List (Nat × Nat)) : Canon d (s.openMigration die temps).dev := by
  unfold State.openMigration
  simp only []
  refine .iteState h (h.trans ?_)
  exact .trans (.foldl (fun d c => .modCore d c _) _ _) (.foldl (fun d (b : Block) => .raiseBlock d b.id _) _ _)

theorem zeroSpace (d : Dev) (core : Nat) (sp : Space) : Canon d (d.zeroSpace core sp) := .zeroLoc d _ _ _

theorem scrubCore (s : State) (core : Nat) (bad : BitVec 4) : Canon s.dev (s.scrubCore core bad).dev := by
  unfold State.scrubCore
  exact .trans (.foldl (fun d (x : Space × Nat) => .zeroSpace d core x.1) _ _) (.foldl (fun d (w : Wave) => .raiseAsync d w.id _) _ _)

/-! ## Commands -/

theorem zeroPage (d : Dev) (slot pa : Nat) : Canon d (d.zeroPage slot pa) := .foldl (fun d _ => .homeWrite d _ _ _ _ _ _) _ d

theorem createCtx (d : Dev) (a : CtxArgs) (pages : List Nat) : Canon d (d.createCtx a pages) := by
  unfold Dev.createCtx
  refine .trans ?_ (.setPending _ _)
  exact .trans .same (.foldl (fun d p => .zeroPage d a.ctx p) _ _)

theorem drainStores (d : Dev) (ctx : Nat) : Canon d (d.drainStores ctx) := .foldl (fun d _ => .foldl (fun d _ => by
  beta_reduce
  split
  · exact .ite (.endOp d _) (.ite (.performStore d _ _) (.ite (.performAtomic d _ _) (.refl d)))
  · exact .refl d) _ d) _ d

theorem discardWork (d : Dev) (mine : Nat → Bool) : Canon d (d.discardWork mine) := by
  have hended : Canon d _ := .trans (.foldl (fun d (c : Coll) => .failColl d c cCancel) (d.colls.filter fun c => mine c.ctx) d)
    (.foldl (fun d (j : Job) => .endJob d j.id j.clock) (d.jobs.filter fun j => mine j.ctx) _)
  exact hended.upd

theorem dropCtxs (d : Dev) (mine : Nat → Bool) : Canon d (d.dropCtxs mine) := .same

theorem freeFlits (d : Dev) (s : Server) : Canon d (d.freeFlits s) := by
  unfold Dev.freeFlits
  split
  · exact .ite (.refl d) (.modPort d _ _)
  · exact .refl d

theorem setWays (d : Dev) (ctx : Nat) (p : Point) : Canon d (d.setWays ctx p) := by
  unfold Dev.setWays
  split
  · exact .modCore d _ _
  · exact .same
  · exact .refl d

theorem setServers (d : Dev) (l : List Server) : Canon d { d with servers := l } := .same

theorem dropServers (d : Dev) (p : Server → Bool) : Canon d (d.dropServers p) := by
  unfold Dev.dropServers
  refine .trans (.trans ?_ (.setServers _ _)) (.foldl (fun d (s : Server) => .setWays d s.args.ctx s.args.point) _ _)
  exact .foldl .freeFlits _ d

theorem putServer (d : Dev) (a : ServerArgs) : Canon d (d.putServer a) := by
  unfold Dev.putServer
  cases d.server? a.ctx a.point with
  | none =>
    refine .trans (.trans ?_ (.setServers _ _)) (.setWays _ _ _)
    simp only []
    split
    · exact .ite (.refl d) (.modPort d _ _)
    · exact .refl d
  | some s =>
    refine .trans (.trans ?_ (.setServers _ _)) (.setWays _ _ _)
    simp only []
    split
    · exact .ite (.freeFlits d s) ((Canon.freeFlits d s).trans (.modPort _ _ _))
    · exact .freeFlits d s

theorem rouse (d : Dev) (core : Nat) : Canon d (d.rouse core) := .ite (.modCore d _ _) (.refl d)

theorem guarantee {d : Dev} {s : State} (h : Canon d s.dev) (p : Point) : Canon d (s.guarantee p).dev := by
  unfold State.guarantee
  refine h.trans ?_
  split
  · exact (Canon.modCore _ _ _).trans (.rouse _ _)
  · exact .rouse _ _
  · exact .rouse _ _
  · exact .rouse _ _
  · exact .refl _

theorem openArea (d : Dev) (ctx area : Nat) : Canon d (d.openArea ctx area) := .owe d _ _

theorem tellWithdrawn (d : Dev) (ctx : Nat) : Canon d (d.tellWithdrawn ctx) := by
  have hraised : Canon d ((d.blocks.filter (·.ctx == ctx)).foldl (fun d b => d.raiseBlock b.id cGuarantee) d) :=
    .foldl (fun d (b : Block) => .raiseBlock d b.id cGuarantee) _ d
  unfold Dev.tellWithdrawn
  simp only []
  split
  · exact hraised.trans (.setEvent _ _ _)
  · exact hraised

theorem withdraw (d : Dev) (p : Point → Bool) : Canon d (d.withdraw p) := (dropServers d _).trans (.foldl .tellWithdrawn _ _)

/-! ## Resets -/

theorem endPreempts (d : Dev) (fn : Nat) : Canon d (d.endPreempts fn) := (setCtxs d _).trans (.ite (.setEvent _ _ _) (.refl _))

theorem initPrivate (d : Dev) : Canon d d.initPrivate := fun h => ⟨wf_filter _ _ h.1, h.2⟩

theorem packageReset (s : State) : Canon s.dev s.packageReset.dev := fun _ => ⟨rfl, fun _ h => nomatch h⟩

theorem endPhase (s : State) (bad : List Nat) : Canon s.dev (s.endPhase bad).dev := by
  unfold State.endPhase
  simp only []
  split
  · exact .setFree _ _
  · exact .refl _
  · exact .trans (.setFree _ _) (.foldl (fun d c => .modCore d c _) _ _)
  · exact fun h => ⟨h.1, fun _ h => nomatch h⟩
  · exact .trans .same (.initPrivate _)
  · exact .same
  · exact .refl _

end Canon

namespace KeepsCells

variable {s : State}

theorem hostStep {f : State → State} (h : ∀ s, Canon s.dev (f s).dev) : KeepsCells s (hostStep s f) := .next (.iteState (h s) (.send _ _))

theorem hostDev {f : Dev → Dev} (h : ∀ d, Canon d (f d)) : KeepsCells s (hostDev s f) := .hostStep fun s => h s.dev

theorem onMgmt (f : Mgmt → Mgmt) : KeepsCells s (onMgmt s f) := .next (.refl _)

theorem command {code : Nat} {f : State → Except Nat State} (h : ∀ s t, f s = .ok t → Canon s.dev t.dev) : KeepsCells s (command s code f) :=
  .hostStep fun s => by
    refine .iteState (.refl _) ?_
    simp only []
    split
    next heq =>
      have hdone := h _ _ heq
      exact .endCommand hdone _ _
    · exact .endCommand (.refl _) _ _

theorem devCommand {code : Nat} {checks : Dev → List (Bool × Nat)} {f : Dev → Dev} (h : ∀ d, Canon d (f d)) :
    KeepsCells s (devCommand s code checks f) := .command fun s t heq => by
  revert heq
  split
  · exact fun heq => nomatch heq
  · exact fun heq => Except.ok.inj heq ▸ h s.dev

/-! ## The host port -/

theorem invalidate (fn idx : Nat) : KeepsCells s (execInvalidate fn idx s) := hostDev fun d => .ite (.refl d) (.writeInvctl d _ _ _)

theorem invalidateDone (fn : Nat) : KeepsCells s (execInvalidateDone fn s) := onDev fun d => by
  split
  · exact .refl d
  · exact .ite (.refl d) (.modFn d _ _)

theorem eventClear (fn bits : Nat) : KeepsCells s (execEventClear fn bits s) := hostDev fun d => .ite (.refl d) (.clearEvent d _ _)
theorem pwrcapWrite (watts : Nat) : KeepsCells s (execPwrcapWrite watts s) := hostStep fun s => .setCap s _
theorem iwselRead (v : BitVec 64) : KeepsCells s (execIwselRead v s) := hostStep fun s => .readInternal s _
theorem retlogClear : KeepsCells s (execRetlogClear s) := hostStep fun _ => .refl _
theorem registerWrite (fn off : Nat) (v : BitVec 64) : KeepsCells s (execRegisterWrite fn off v s) :=
  hostStep fun s => .iteState (.refl _) (.writeReg s _ _ _)

theorem hostWrite (fn bar off slot : Nat) (bytes : List Byte) (wire : Wire) : KeepsCells s (execHostWrite fn bar off slot bytes wire s) :=
  hostStep fun s => .iteState (.refl _) (.iteState (.hostParts fn _ _ _ _ s) (by
    split
    · exact .refl _
    · exact .postWrite _ _ _ _))

theorem hostRead (fn bar off slot n : Nat) (wire : Wire) : KeepsCells s (execHostRead fn bar off slot n wire s) :=
  hostStep fun s => .iteState (.send _ _) (.iteState (.send _ _) (by
    split
    · exact .send _ _
    · split
      next heq => exact ((Canon.readSectors _ _ _).fst heq).trans (.send _ _)
      next heq => exact ((Canon.readSectors _ _ _).fst heq).trans (.send _ _)))

theorem hostMemoryCompletion (req : Nat) (ok : Bool) (bytes : List Byte) : KeepsCells s (execHostMemoryCompletion req ok bytes s) := onDev fun d => by
  split
  · exact .refl d
  · exact .endRequest d _ _

theorem atsInvalidate (fn page pages : Nat) : KeepsCells s (execAtsInvalidate fn page pages s) := onDev fun _ => .same

theorem atsTranslationCompletion (fn page : Nat) (ok : Bool) : KeepsCells s (execAtsTranslationCompletion fn page ok s) := onDev fun d => by
  simp only []
  refine .ite .same (.ite .same ?_)
  refine .trans (.trans ?_ (.failPage _ _ _)) (.faultPage _ _ _)
  exact .same

/-! ## Power and heat -/

theorem currentEmergency (rail : Nat) : KeepsCells s (execCurrentEmergency rail s) :=
  .ite (.next (.refl _)) (.next (.ite (.foldl .darkenTile _ _) (.refl _)))

theorem powerControlTick (watts : Nat) : KeepsCells s (execPowerControlTick watts s) :=
  .ite (.next (.refl _)) (.next (.iteState (.powerAction (.refl _)) (.iteState (.powerUndo (.refl _)) (.refl _))))

theorem migrationClose (die : Nat) (temps : List (Nat × Nat)) : KeepsCells s (execMigrationClose die temps s) := by
  unfold execMigrationClose
  split
  · exact .next (.refl _)
  · have hclosed : ∀ (l : List Nat) (d : Dev), Canon d (l.foldl (fun (d : Dev) c => d.modCore c fun x => { x with migrating := false }) d) :=
      fun l d => .foldl (fun d c => .modCore d c _) l d
    exact .ite (.next (.iteState (.openMigration (hclosed _ _) _ _) (hclosed _ _))) (.next (.refl _))

theorem retentionEnter (core : Nat) : KeepsCells s (execRetentionEnter core s) :=
  .ite (.next (.refl _)) (.next (.trans (.foldl (fun d _ => .ite (.modEngine d _ _ _) (.refl d)) _ _) (.modCore _ _ _)))

theorem retentionExit (core : Nat) (bad : BitVec 4) (control : Bool) : KeepsCells s (execRetentionExit core bad control s) :=
  .ite (.next (.refl _)) (.ite (.next ((Canon.scrubCore _ _ _).trans (.modCore _ _ _))) (.next ((Canon.scrubCore _ _ _).trans (.modCore _ _ _))))

theorem coreColdResetDone (core : Nat) : KeepsCells s (execCoreColdResetDone core s) := .ite (.next (.refl _)) (.next .same)

/-! ## Commands -/

theorem window (fn window base len : Nat) : KeepsCells s (execWindow fn window base len s) := by
  unfold execWindow
  exact devCommand fun d => .modFn d _ _

theorem ctxcreate (a : CtxArgs) : KeepsCells s (execCtxcreate a s) := .ite (.next (.refl _)) (.command fun s t => by
  simp only []
  split
  · exact fun h => nomatch h
  · split
    · exact fun h => nomatch h
    · split
      · exact fun h => nomatch h
      · split
        · exact fun h => nomatch h
        · exact fun h => Except.ok.inj h ▸ Canon.createCtx _ _ _)

theorem ctxdestroy (ctx : Nat) : KeepsCells s (execCtxdestroy ctx s) := devCommand fun d => by
  refine .trans (.trans ?_ (.dropCtxs _ _)) (.dropServers _ _)
  refine .trans ?_ (.foldl (fun d (l : Launch) => (Canon.markLaunch d _ _ _ _).trans (.decLaunch _ l.id l.count l.time)) _ _)
  refine .trans ?_ (.foldl .finishBlock _ _)
  refine .trans ?_ (.discardWork _ _)
  refine .trans ?_ (.foldl (fun d b => (Canon.stopWaves d b).trans (.removeBlock _ b)) _ _)
  refine .trans ?_ (.drainStores _ _)
  exact .foldl (fun d (b : Block) => .forceExit d b.id) _ d

theorem server (a : ServerArgs) : KeepsCells s (execServer a s) := .command fun s t => by
  simp only []
  split
  · exact fun h => nomatch h
  · split
    · split
      · exact fun h => nomatch h
      · exact fun h => Except.ok.inj h ▸ Canon.dropServers _ _
    · split
      · exact fun h => nomatch h
      · split
        · exact fun h => nomatch h
        · split
          · exact fun h => nomatch h
          · exact fun h => Except.ok.inj h ▸ Canon.guarantee (.putServer _ _) _

theorem qbind (ctx queue : Nat) (rec : Option Comm) : KeepsCells s (execQbind ctx queue rec s) := devCommand fun _ => .same

theorem preempt (t : PreTarget) (budget area len : Nat) : KeepsCells s (execPreempt t budget area len s) := devCommand fun d => by
  have htold : ∀ (f : Ctx → Ctx) (l m : List Nat) (bs : List Block), Canon d (bs.foldl (fun d b => d.raiseBlock b.id cPreempt)
      (m.foldl (fun d n => d.openArea n area) (l.foldl (fun d n => d.modCtx n f) d))) := fun f l m bs =>
    ((Canon.foldl (fun d n => .modCtx d n f) l d).trans (.foldl (fun d n => .openArea d n area) m _)).trans
      (.foldl (fun d (b : Block) => .raiseBlock d b.id cPreempt) bs _)
  simp only []
  split
  · exact (htold _ _ _ _).trans (.tellPreempt _ _)
  · exact htold _ _ _ _

theorem release (t : PreTarget) : KeepsCells s (execRelease t s) := by
  unfold execRelease
  exact devCommand fun _ => .same

theorem keyrot (ctx : Nat) : KeepsCells s (execKeyrot ctx s) := devCommand fun d => by
  have hgone : ∀ (l : List LlcLine) (d : Dev), Canon d (l.foldl Dev.evictLine d) := fun l d => .foldl .evictLine l d
  simp only []
  refine .upd (d := List.foldl Dev.evictLine _ _) ?_
  exact .trans .same (hgone _ _)

theorem partset (a : PartArgs) : KeepsCells s (execPartset a s) := by
  unfold execPartset
  split
  · exact devCommand fun d => .modPort d _ _
  · exact devCommand fun _ => .same
  · exact devCommand fun _ => .same

theorem retire (a : RetireArgs) : KeepsCells s (execRetire a s) := hostStep fun s =>
  .iteState (.refl _) (.iteState (.endCommand (.refl _) _ _) (by
    cases a with
    | core n => exact .modCore _ _ _
    | channel n => exact .refl _))

theorem retireComplete (a : RetireArgs) : KeepsCells s (execRetireComplete a s) := .ite (.next (.refl _)) (by
  cases a with
  | core n => exact .ite (.next (.refl _)) (.next (.endCommand ((Canon.modCore _ _ _).trans (.withdraw _ _)) _ _))
  | channel n => exact .next (.endCommand (.withdraw _ _) _ _))

theorem logset (fn iova : Nat) : KeepsCells s (execLogset fn iova s) := devCommand fun d => .modFn d _ _

theorem unknownCommand (code : Nat) : KeepsCells s (execUnknownCommand code s) := .ite (.next (.refl _)) (.command fun _ _ h => nomatch h)

/-! ## Resets -/

theorem flrInitiate (fn : Nat) : KeepsCells s (execFlrInitiate fn s) := hostDev fun d => by
  refine .ite (.refl d) ?_
  exact (Canon.endPreempts d fn).upd

theorem flrStep {fn n : Nat} {f : Dev → Dev} (h : ∀ d, Canon d (f d)) : KeepsCells s (flrStep s fn n f) := onDev fun d =>
  .ite (.refl d) ((h d).trans (.modFn _ _ _))

theorem flrDrained (fn : Nat) : KeepsCells s (execFlrDrained fn s) := flrStep fun d => by
  have hcancelled : Canon d _ := (Canon.discardWork d (d.isOf fn)).trans (.foldl .cancelPeers (d.queues.filter fun x => d.isOf fn x.ctx) _)
  exact hcancelled.upd

theorem flrDiscarded (fn : Nat) : KeepsCells s (execFlrDiscarded fn s) := flrStep fun d => by
  have hzeroed : ∀ (l : List Block) (m : List (Nat × Range)) (d : Dev),
      Canon d (m.foldl (fun (d : Dev) x => d.zeroLoc x.1 .scratch x.2) (l.foldl Dev.zeroRanges d)) := fun l m d =>
    .trans (.foldl .zeroRanges l d) (.foldl (fun d (x : Nat × Range) => .zeroLoc d x.1 .scratch x.2) m _)
  have hgone : ∀ (l : List LlcLine) (d : Dev), Canon d (l.foldl Dev.evictLine d) := fun l d => .foldl .evictLine l d
  simp only []
  refine .upd (d := List.foldl Dev.evictLine _ _) ?_
  refine .trans ?_ (hgone _ _)
  refine .trans (hzeroed _ _ _) .same

theorem flrDone (fn : Nat) : KeepsCells s (execFlrDone fn s) := onDev fun d => by
  refine .ite (.refl d) (.trans (.trans (.trans (.trans ?_ (.discardWork _ _)) (.dropCtxs _ _)) (.modFn _ _ _)) (.setEvent _ _ _))
  exact .foldl (fun d b => (Canon.stopWaves d b).trans (.removeBlock _ b)) _ d

theorem packageReset : KeepsCells s (execPackageReset s) := .next (.packageReset s)

theorem thermalLevel (die : Nat) (temps : List (Nat × Nat)) : KeepsCells s (execThermalLevel die temps s) := by
  unfold execThermalLevel
  refine .ite (.next (.refl _)) (.ite (.next (.packageReset s)) (.next (.iteState (.openMigration ?_ _ _) ?_)))
  · exact .putAllowance _ _ _
  · exact .putAllowance _ _ _

theorem bringupPhase (errcode : Nat) (bad : List Nat) : KeepsCells s (execBringupPhase errcode bad s) := by
  unfold execBringupPhase
  refine .ite (.next (.refl _)) (.ite (.next (.refl _)) (.next ?_))
  exact Canon.endPhase s bad

/-! ## Security protocols -/

theorem spdmRequest {die : Nat} {name : String} {ok : Spdm → Bool} {f : Spdm → Spdm} {data : Spdm → List (List Nat)} :
    KeepsCells s (spdmRequest s die name ok f data) := hostStep fun _ => .iteState (.refl _) (.iteState (.send _ _) (.send _ _))

theorem tdispMessage {fn : Nat} {name : String} {ok : Tdisp → Bool} {f : Dev → Fn → Fn} {data : Dev → List (List Nat)} :
    KeepsCells s (tdispMessage s fn name ok f data) := hostDev fun d =>
  .ite (.send d _) (.ite ((Canon.modFn d _ _).trans (.send _ _)) (.send d _))

theorem lockInterface (fn : Nat) : KeepsCells s (execLockInterface fn s) := by
  unfold execLockInterface
  exact fun t ht => (Canon.setFree s.dev (s.dev.free + 1)).trans (tdispMessage (s := { s with dev := { s.dev with free := s.dev.free + 1 } }) t ht)

theorem ideKeyManagement (m : IdeKm) : KeepsCells s (execIdeKeyManagement m s) := hostStep fun s => by
  cases m with
  | program => exact .iteState (.refl _) (.refl _)
  | stop => exact .refl _

end KeepsCells

end Sys2Proof.Proofs
end

section
/-!
SUPPORT. All the steps of the package keep the sparse memories canonical.
-/

open Sys2Proof Sys2Proof.Machine

-- The whole text is compiled in one process, which can hold few threads: these many short proofs are elaborated in order.
set_option Elab.async false

namespace Sys2Proof.Proofs

namespace Canon

theorem snd {β : Type} {d e : Dev} {b : β} {p : β × Dev} (h : Canon d p.2) (hp : p = (b, e)) : Canon d e := by
  subst hp
  exact h

end Canon

namespace KeepsCells

variable {s : State}

/-! ## The shapes of instructions that only write registers -/

theorem scalar2 {d a b : SReg} {f : Word → Word → Word} : KeepsCells s (scalar2 s d a b f) := scalarOp
theorem lane1 {g : Guard} {d a : VReg} {f : Lane → Lane} : KeepsCells s (lane1 s g d a f) := laneInstr
theorem lane2 {g : Guard} {d a b : VReg} {f : Lane → Lane → Lane} : KeepsCells s (lane2 s g d a b f) := laneInstr
theorem lane3 {g : Guard} {d a b c : VReg} {f : Lane → Lane → Lane → Lane} : KeepsCells s (lane3 s g d a b c f) := laneInstr
theorem laneImm {g : Guard} {d a : VReg} {f : Lane → Lane} : KeepsCells s (laneImm s g d a f) := laneInstr
theorem laneCmp {n : Nat} {regs : List Nat} {g : Guard} {d : MReg} {p : LaneView → Nat → Bool} : KeepsCells s (laneCmp s n regs g d p) := laneInstr
theorem crossLane {regs : List Nat} {g : Guard} {d : VReg} {f : LaneView → Nat → Lane} : KeepsCells s (crossLane s regs g d f) := laneInstr
theorem maskBranch {m : MReg} {o : BitVec 20} {p : BitVec 4 → BitVec 4 → Bool} : KeepsCells s (maskBranch s m o p) := branch
theorem redAtomic (op : RedOp) (g : Guard) (d : VReg) (m : Addr) : KeepsCells s (execRedAtomic op g d m s) := by
  unfold execRedAtomic
  exact laneOp

/-! ## Every instruction and every step -/

/-- Each of the model's meanings keeps the memories canonical, in the order of `exec`: first the instructions that share a
shape, then the others. -/
theorem exec (i : Instr) : KeepsCells s (exec i s) := by
  unfold Machine.exec
  split
  case h_1 | h_2 | h_3 | h_4 | h_5 | h_6 | h_7 | h_8 | h_9 | h_10 | h_11 | h_12 | h_13 | h_14 | h_15 | h_16 | h_17 |
    h_18 | h_19 | h_20 | h_21 | h_23 | h_30 | h_31 | h_32 | h_33 | h_34 | h_35 =>
    exact .scalar2
  case h_22 | h_24 | h_25 | h_26 | h_27 | h_28 | h_29 | h_36 | h_37 | h_38 | h_39 | h_40 | h_41 | h_42 | h_43 | h_44 =>
    exact .scalarOp
  case h_45 | h_47 | h_48 =>
    exact .branch
  case h_46 | h_52 | h_53 =>
    exact .issue fun k d => .transfer d k _ _
  case h_49 | h_50 | h_51 =>
    exact .maskBranch
  case h_59 | h_60 | h_64 | h_91 | h_97 =>
    exact .andNext fun _ _ => .same
  case h_63 | h_70 | h_71 =>
    exact .maskToScalar
  case h_65 | h_66 | h_67 | h_68 | h_69 =>
    exact .maskOp
  case h_72 | h_73 | h_74 | h_75 =>
    exact .scalarLoad
  case h_76 | h_77 | h_78 | h_79 =>
    exact .scalarStore
  case h_82 | h_83 =>
    exact .tagWait
  case h_86 | h_87 =>
    exact .byteBarUpdate
  case h_99 | h_100 | h_101 | h_102 | h_103 | h_107 | h_108 | h_109 | h_110 | h_111 | h_112 | h_113 | h_114 | h_116 |
    h_117 | h_118 | h_119 | h_122 | h_133 | h_134 | h_135 | h_137 | h_138 | h_139 | h_140 | h_149 | h_157 | h_158 =>
    exact .lane2
  case h_104 | h_128 | h_129 | h_136 | h_159 =>
    exact .lane3
  case h_105 | h_106 | h_115 | h_120 | h_121 | h_123 | h_124 | h_125 | h_141 | h_142 | h_144 | h_145 | h_146 | h_147 |
    h_148 | h_150 | h_151 | h_152 | h_153 | h_154 | h_155 | h_156 | h_160 | h_161 | h_162 | h_163 | h_164 | h_165 |
    h_166 | h_167 | h_168 | h_169 | h_170 | h_171 | h_172 | h_173 =>
    exact .lane1
  case h_126 | h_130 | h_131 | h_132 | h_217 =>
    exact .laneInstr
  case h_127 | h_143 | h_178 | h_179 | h_218 =>
    exact .laneCmp
  case h_174 | h_175 | h_176 | h_177 | h_180 | h_181 | h_182 | h_183 | h_184 | h_185 | h_186 | h_187 | h_188 | h_189 =>
    exact .crossLane
  case h_190 | h_191 | h_192 | h_193 | h_194 | h_195 | h_196 | h_197 | h_204 | h_205 =>
    exact .laneOp
  case h_198 | h_200 | h_202 =>
    exact .bufLoad
  case h_199 | h_201 | h_203 =>
    exact .bufStore
  case h_207 | h_208 =>
    exact .compress
  case h_212 | h_213 | h_214 | h_215 | h_216 =>
    exact .laneImm
  case h_219 | h_220 | h_221 | h_222 | h_223 | h_224 | h_225 =>
    exact .copyIssue
  case h_234 | h_235 | h_236 =>
    exact .tmmaIssue
  case h_243 | h_244 | h_245 =>
    exact .selectIssue
  case h_336 =>
    exact .flrStep .refl
  case h_341 | h_342 | h_343 | h_344 =>
    exact .tdispMessage
  case h_345 | h_346 | h_347 | h_348 | h_349 | h_350 | h_351 | h_352 | h_353 | h_354 | h_355 | h_356 =>
    exact .spdmRequest
  case h_358 | h_359 | h_360 | h_361 | h_362 | h_364 =>
    exact .onMgmt _
  case h_54 | h_98 =>
    exact .issue fun k d => .trap d k _
  case h_206 =>
    exact .redAtomic _ _ _ _
  · exact .rett
  · exact .wait _ _ _ _ _
  · exact .sget _ _
  · exact .sset _ _
  · exact .regrel _
  · exact .regclm _
  · exact .mon _ _
  · exact .mwait _
  · exact .tagffs _ _
  · exact .cinc _ _ _
  · exact .bbexpNum _ _
  · exact .bbwait _ _
  · exact .bbwaitNum _
  · exact .yield
  · exact .regang _
  · exact .exit
  · exact .brk _
  · exact .trigger
  · exact .pf _ _
  · exact .spill _ _
  · exact .fill _ _
  · exact .cfpop _
  · exact .cfrsmRetry _
  · exact .cfrsmSkip _
  · exact .cfrsmFill _ _
  · exact .kindle _
  · exact .kindleNb _ _
  · exact .douse _
  · exact .lstat _ _
  · exact .tzero _ _
  · exact .tcvt _ _ _ _ _
  · exact .tdload _
  · exact .tstat _
  · exact .ftload _ _
  · exact .ftevl _ _ _ _
  · exact .cpost _ _
  · exact .ctrig _ _ _
  · exact .spawn _ _
  · exact .launch _
  · exact .cancel _ _
  · exact .susp _ _ _ _
  · exact .resume _
  · exact .cdrop _
  · exact .cclone _ _ _
  · exact .issueSelect _ _
  · exact .icacheFill _ _ _
  · exact .pageWalk _ _ _
  · exact .loadComplete _
  · exact .storePerform _ _
  · exact .homeLoad _ _ _ _
  · exact .homeAtomic _ _
  · exact .llcEvict _
  · exact .memLineTransfer _
  · exact .deferredReport _
  · exact .mwaitTimeout _ _
  · exact .portSuspend _
  · exact .watchdog _ _
  · exact .pairtimeout _
  · exact .claimGrant _
  · exact .deadlock _
  · exact .handlerEntry _
  · exact .blockPlace _
  · exact .blockEnd _
  · exact .blockTriggerEvent _
  · exact .launchRelease _
  · exact .kneadWindowClose _
  · exact .cancelDeadline _
  · exact .footprintEnter _
  · exact .copyPieceIssue _
  · exact .pieceLand _ _
  · exact .copyFault _
  · exact .tileOpStart _
  · exact .tileCommit _
  · exact .tcvtStep _
  · exact .fxOpComplete _
  · exact .leaseGrant _ _
  · exact .wakeDone _ _
  · exact .warmTimeout _ _
  · exact .allowanceCut _ _
  · exact .class0Evict _ _
  · exact .engineStopped _ _
  · exact .energyPeriod _
  · exact .serverRelease _ _
  · exact .arbiterSelect _
  · exact .rotAdvance
  · exact .remoteRequest _
  · exact .replyArrive _ _
  · exact .flitSend _
  · exact .flitReceive _ _ _
  · exact .linkPause _ _
  · exact .collStepEnter _
  · exact .collReady _ _ _
  · exact .collCts _ _ _ _
  · exact .collChunkReceive _ _ _ _ _
  · exact .collComplete _ _ _
  · exact .suspSeal _
  · exact .resumePlaced _ _
  · exact .ccloneDone _
  · exact .forcedSave _
  · exact .forcedSaveSeal _
  · exact .hostWrite _ _ _ _ _ _
  · exact .hostRead _ _ _ _ _ _
  · exact .hostMemoryCompletion _ _ _
  · exact .atsInvalidate _ _ _
  · exact .invalidate _ _
  · exact .invalidateDone _
  · exact .ctxcreate _
  · exact .ctxdestroy _
  · exact .server _
  · exact .window _ _ _ _
  · exact .qbind _ _ _
  · exact .preempt _ _ _ _
  · exact .release _
  · exact .keyrot _
  · exact .partset _
  · exact .retire _
  · exact .retireComplete _
  · exact .logset _ _
  · exact .unknownCommand _
  · exact .eventClear _ _
  · exact .pwrcapWrite _
  · exact .iwselRead _
  · exact .retlogClear
  · exact .registerWrite _ _ _
  · exact .flrInitiate _
  · exact .flrDrained _
  · exact .flrDiscarded _
  · exact .flrDone _
  · exact .lockInterface _
  · exact .powerControlTick _
  · exact .currentEmergency _
  · exact .thermalLevel _ _
  · exact .migrationClose _ _
  · exact .retentionEnter _
  · exact .retentionExit _ _ _
  · exact .packageReset
  · exact .bringupPhase _ _
  · exact .ideKeyManagement _
  · exact .atsTranslationCompletion _ _ _
  · exact .coreColdResetDone _

theorem ownChoice (s : State) : KeepsCells s (ownChoice s) := by
  unfold Machine.ownChoice
  split
  · exact .exec _
  · exact .next (.tick _ _)

/-- What is kept from a state on is kept from the one before it, when the way there keeps it. -/
theorem after {s u : State} {o : Host.Outcome State Fault Refusal} (hu : Canon s.dev u.dev) (h : KeepsCells u o) : KeepsCells s o :=
  fun t ht => hu.trans (h t ht)

theorem scheduled (s : State) (x : Sched) : KeepsCells s (scheduled s x) := by
  unfold Machine.scheduled
  refine .after (u := { s with dev := s.dev.tick x.dt }) (.tick _ _) ?_
  split
  · exact .ownChoice _
  · exact .ite (.next (.refl _)) (.exec _)

theorem issueNext (s : State) : KeepsCells s (issueNext s) := by
  have htrapped : ∀ {d : Dev} (k : Issue) (c : Nat), Canon s.dev d → Canon s.dev (Dev.trap { d with latch := none } k c) := fun k c h =>
    (h.trans (.setLatch _ _)).trans (.trap _ k c)
  unfold Machine.issueNext
  split
  · exact .next (.setLatch _ _)
  · split
    next heq => exact .next (((Canon.fetch _ _).snd heq).trans (.setLatch _ _))
    next heq => exact .next (htrapped _ _ ((Canon.fetch _ _).snd heq))
    next d heq =>
      have hfetched := (Canon.fetch _ _).snd heq
      simp only []
      split
      · refine .ite (.next (htrapped _ _ hfetched)) (.ite (.next (htrapped _ _ hfetched)) ?_)
        exact .after (u := { s with dev := d }) hfetched (.exec _)
      · exact .after (u := { s with dev := d }) hfetched (.exec _)

theorem settled {o : Host.Outcome State Fault Refusal} (h : KeepsCells s o) : KeepsCells s (settled o) := by
  cases o with
  | next t => exact .next ((h t rfl).trans (.settle _))
  | fault => exact .fault _
  | refused => exact .refused _

theorem step (s : State) : KeepsCells s (step s) := by
  unfold Machine.step
  refine .settled ?_
  split
  · exact .issueNext s
  · split
    next rest _ => exact .after (u := { s with schedule := rest }) (.refl _) (.scheduled _ _)
    · exact .ownChoice s

end KeepsCells

/-- Settles O58: every meaning leaves the cells of the memories sorted and without a zero byte (`KeepsCells.exec`), and so do
fetch, the passing of cycles and what a step leaves noted. -/
theorem stepKeepsMemoryCanonical : Obligations.StepKeepsMemoryCanonical := by
  unfold Obligations.StepKeepsMemoryCanonical
  exact fun s t h ht => KeepsCells.step s t ht h

end Sys2Proof.Proofs
end

section
/-!
PROOFS. The lease instructions (07: R204 to R207) and the steps of the lease unit (10: R296 to R301).
-/

open Sys2Proof Sys2Proof.Machine Sys2Proof.Claims

-- The whole text is compiled in one process, which can hold few threads: these proofs are elaborated in order.
set_option Elab.async false

namespace Sys2Proof.Proofs

/-! ## One engine -/

/-- The engine of a kind at a core. -/
def isEngine (core : Nat) (kd : EngKind) (e : Engine) : Bool := e.core == core && e.kind == kd

theorem isEngine_iff {core : Nat} {kd : EngKind} {e : Engine} : isEngine core kd e = true ↔ e.core = core ∧ e.kind = kd := by
  rw [isEngine, Bool.and_eq_true, beq_iff_eq, beq_iff_eq]

theorem isEngine_engine (d : Dev) (core : Nat) (kd : EngKind) : isEngine core kd (d.engine core kd) = true := by
  rw [Dev.engine]
  cases h : d.engines.find? (isEngine core kd) with
  | none =>
    change d.engines.find? (fun e => e.core == core && e.kind == kd) = none at h
    rw [h]
    exact isEngine_iff.mpr ⟨rfl, rfl⟩
  | some e =>
    have he := List.find?_some h
    change d.engines.find? (fun e => e.core == core && e.kind == kd) = some e at h
    rw [h]
    exact he

theorem engine_core (d : Dev) (core : Nat) (kd : EngKind) : (d.engine core kd).core = core := (isEngine_iff.mp (isEngine_engine d core kd)).1
theorem engine_kind (d : Dev) (core : Nat) (kd : EngKind) : (d.engine core kd).kind = kd := (isEngine_iff.mp (isEngine_engine d core kd)).2

/-- A change that leaves an engine its core and kind is seen at that engine. -/
theorem engine_modEngine {f : Engine → Engine} (d : Dev) (core : Nat) (kd : EngKind)
    (hf : ∀ e, (f e).core = e.core ∧ (f e).kind = e.kind := by exact fun _ => ⟨rfl, rfl⟩) :
    (d.modEngine core kd f).engine core kd = f (d.engine core kd) := by
  have hkeep : ∀ e, isEngine core kd e = true → isEngine core kd (f e) = true := fun e he => by
    obtain ⟨hcore, hkind⟩ := hf e
    exact isEngine_iff.mpr ⟨hcore.trans (isEngine_iff.mp he).1, hkind.trans (isEngine_iff.mp he).2⟩
  have hfind : (d.modEngine core kd f).engines.find? (isEngine core kd) = some (f (d.engine core kd)) :=
    find?_upsert_same hkeep (hkeep _ (isEngine_iff.mpr ⟨rfl, rfl⟩)) d.engines
  exact congrArg (·.getD (Engine.dark core kd)) hfind

/-- The strands that an instruction leaves stand in the waves that it finds. -/
theorem advance_waves {d e : Dev} (h : d.waves = e.waves) (k : Issue) (n : Nat) : (d.advance k n).waves = (e.advance k n).waves := by
  simp only [Dev.advance, Dev.onGang, Dev.onWave, Dev.modWave, h]

theorem stall_waves {d e : Dev} (h : d.waves = e.waves) (hc : d.clock = e.clock) (k : Issue) (what : WaitFor) :
    (d.stall k what).waves = (e.stall k what).waves := by
  simp only [Dev.stall, Dev.onGang, Dev.onWave, Dev.modWave, h, hc]

theorem advance_eq_gangStep (s : State) (k : Issue) (n : Nat) :
    ({ s with dev := (unlatched s).advance k n } : State) = gangStep s k fun _ x => passed n x := onGang_eq s k _

theorem scalars_advance_eq (s : State) (k : Issue) (n : Nat) (d : SReg) (v : Nat → Word) :
    ({ s with dev := ((unlatched s).setScalars k d v).advance k n } : State) = wroteScalar s k n d v := by
  rw [setScalars_advance]
  refine (onGang_eq s k _).trans (congrArg (gangStep s k) ?_)
  funext t x
  rw [Strand.wr]
  by_cases hd : d = 0
  · simp only [hd, if_true, passed]
  · simp only [hd, if_false, passed]

theorem ticketWord_eq (kd : EngKind) (t : Nat) : ticketWord kd t = ticketOf kd t := by
  cases kd <;> rfl

/-! ## Lease instructions (R204 to R207) -/

section
variable {s : State} {k : Issue} {kd : EngKind}

/-- The request that a wave makes now. -/
def newReq (d : Dev) (k : Issue) : Req := ⟨d.ticket, k.wave.id, k.ctx.n, d.clock, false, false, false⟩

theorem addReq_engine (d : Dev) : (d.addReq k kd).engine k.core kd = { d.engine k.core kd with queue := (d.engine k.core kd).queue ++ [newReq d k] } :=
  engine_modEngine (f := fun e => { e with queue := e.queue ++ [newReq d k] }) d k.core kd

/-- Nobody is told of energy when no request that the allowance holds back is untold. -/
theorem tellEnergy_eq {d : Dev} {core : Nat} (h : ∀ q ∈ (d.engine core kd).queue, q.wenergy = false ∨ q.told = true) : d.tellEnergy core kd = d := by
  have hnone : ∀ (p : Req → Bool), (d.engine core kd).queue.filter (fun r => r.wenergy && !r.told && p r) = [] := fun p => by
    rw [List.filter_eq_nil_iff]
    intro q hq
    rcases h q hq with hw | ht
    · simp [hw]
    · simp [ht]
  unfold Dev.tellEnergy
  simp only [hnone]
  rfl

theorem kindleCheck_of_mayKindle (h : MayKindle s k kd) (d : Dev) : kindleCheck kd k d = none := by
  obtain ⟨-, hwhole, hbit⟩ := h
  have hnum : kindNum kd = kindNumber kd := rfl
  rw [kindleCheck, whole_iff.mpr hwhole, hnum, hbit]
  rfl

theorem asked_eq_false {e : Engine} {w : Nat} (h : e.asked w = false) : (e.queue ++ e.holder.toList).find? (·.wave == w) = none := by
  rw [Engine.asked, Bool.or_eq_false_iff] at h
  obtain ⟨hqueue, hholder⟩ := h
  rw [List.find?_eq_none]
  intro r hr
  rcases List.mem_append.mp hr with hr | hr
  · exact Bool.eq_false_iff.mp (List.any_eq_false.mp hqueue r hr |> Bool.eq_false_iff.mpr)
  · rw [Option.mem_toList] at hr
    rw [hr] at hholder
    exact Bool.eq_false_iff.mp hholder

/-- `kindle` by a whole wave whose block may kindle the kind. -/
def kindleDev (kd : EngKind) (k : Issue) (d : Dev) : Dev :=
  let e := d.engine k.core kd
  if e.holds k.wave.id then d.advance k 12
  else
    let d := if e.asked k.wave.id || decide (16 ≤ e.queue.length) then d else d.addReq k kd
    (d.stall k (.kindle kd)).tellEnergy k.core kd

theorem kindle_eq : exec (.kindle kd) s = guarded s (kindleCheck kd) (kindleDev kd) := rfl

theorem kindle_next (h : MayKindle s k kd) : exec (.kindle kd) s = .next { s with dev := kindleDev kd k (unlatched s) } :=
  kindle_eq.trans (guarded_next s k _ _ h.1 (kindleCheck_of_mayKindle h _))

theorem kindle_holds (h : MayKindle s k kd) (hholds : (s.dev.engine k.core kd).holds k.wave.id = true) :
    exec (.kindle kd) s = .next (gangStep s k fun _ x => passed 12 x) := by
  have hpass : kindleDev kd k (unlatched s) = (unlatched s).advance k 12 := if_pos hholds
  rw [kindle_next h, hpass, advance_eq_gangStep]

theorem kindle_asks (h : MayKindle s k kd) (hholds : (s.dev.engine k.core kd).holds k.wave.id = false)
    (hasked : (s.dev.engine k.core kd).asked k.wave.id = false) (hroom : (s.dev.engine k.core kd).queue.length < 16)
    (htold : ∀ q ∈ (s.dev.engine k.core kd).queue, q.wenergy = false ∨ q.told = true) :
    ∃ t, exec (.kindle kd) s = .next t ∧
      t.dev.engine k.core kd = { s.dev.engine k.core kd with queue := (s.dev.engine k.core kd).queue ++ [newReq s.dev k] } ∧
      t.dev.ticket = s.dev.ticket + 1 ∧ t.dev.waves = (stays s k (.kindle kd)).dev.waves := by
  have hengine := addReq_engine (k := k) (kd := kd) (unlatched s)
  have htell : (((unlatched s).addReq k kd).stall k (.kindle kd)).tellEnergy k.core kd = ((unlatched s).addReq k kd).stall k (.kindle kd) := by
    refine tellEnergy_eq fun q hq => ?_
    have hq : q ∈ (((unlatched s).addReq k kd).engine k.core kd).queue := hq
    rw [hengine] at hq
    rcases List.mem_append.mp hq with hq | hq
    · exact htold q hq
    · exact .inl (by rw [List.mem_singleton.mp hq]; rfl)
  have hdev : kindleDev kd k (unlatched s) = ((unlatched s).addReq k kd).stall k (.kindle kd) := by
    have hno : ((unlatched s).engine k.core kd).holds k.wave.id = false := hholds
    have hnew : (((unlatched s).engine k.core kd).asked k.wave.id || decide (16 ≤ ((unlatched s).engine k.core kd).queue.length)) = false := by
      rw [Bool.or_eq_false_iff]
      exact ⟨hasked, decide_eq_false (by exact not_le.mpr hroom)⟩
    simp only [kindleDev, hno, hnew, Bool.false_eq_true, if_false]
    exact htell
  refine ⟨_, kindle_next h, ?_, ?_, ?_⟩ <;> rw [hdev]
  · exact hengine
  · rfl
  · rw [← stays_eq_stall]
    exact stall_waves rfl rfl k _

/-- `kindle.nb` by such a wave. -/
def kindleNbDev (dest : SReg) (kd : EngKind) (k : Issue) (d : Dev) : Dev :=
  let e := d.engine k.core kd
  let (t, d) : Nat × Dev :=
    match (e.queue ++ e.holder.toList).find? (·.wave == k.wave.id) with
    | some r => (r.ticket, d)
    | none =>
      if e.queue.length < 16 then (d.ticket, d.addReq k kd)
      else (d.ticket, { d.modEngine k.core kd fun e => { e with notes := e.notes ++ [⟨d.ticket, k.wave.id, false⟩] } with
        ticket := d.ticket + 1 })
  (d.setScalars k dest fun _ => ticketWord kd t).advance k 12

theorem kindleNb_eq (dest : SReg) : exec (.kindleNb dest kd) s = guarded s (kindleCheck kd) (kindleNbDev dest kd) := rfl

theorem kindleNb_next (dest : SReg) (h : MayKindle s k kd) :
    exec (.kindleNb dest kd) s = .next { s with dev := kindleNbDev dest kd k (unlatched s) } :=
  (kindleNb_eq dest).trans (guarded_next s k _ _ h.1 (kindleCheck_of_mayKindle h _))

theorem douse_eq : exec (.douse kd) s = guarded s (fun k _ => partCause k) fun k d => (d.douse k.core kd k.wave.id).advance k 12 := rfl

theorem kindleNb_found (dest : SReg) (h : MayKindle s k kd) {q : Req}
    (hq : ((s.dev.engine k.core kd).queue ++ (s.dev.engine k.core kd).holder.toList).find? (·.wave == k.wave.id) = some q) :
    exec (.kindleNb dest kd) s = .next (wroteScalar s k 12 dest fun _ => ticketOf kd q.ticket) := by
  have hdev : kindleNbDev dest kd k (unlatched s) = ((unlatched s).setScalars k dest fun _ => ticketWord kd q.ticket).advance k 12 := by
    have hmine : (((unlatched s).engine k.core kd).queue ++ ((unlatched s).engine k.core kd).holder.toList).find? (·.wave == k.wave.id) = some q := hq
    simp only [kindleNbDev, hmine]
  rw [kindleNb_next dest h, hdev, scalars_advance_eq]
  simp only [ticketWord_eq]

theorem kindleNb_asks (dest : SReg) (h : MayKindle s k kd) (hasked : (s.dev.engine k.core kd).asked k.wave.id = false)
    (hroom : (s.dev.engine k.core kd).queue.length < 16) :
    ∃ t, exec (.kindleNb dest kd) s = .next t ∧
      t.dev.engine k.core kd = { s.dev.engine k.core kd with queue := (s.dev.engine k.core kd).queue ++ [newReq s.dev k] } ∧
      t.dev.ticket = s.dev.ticket + 1 ∧ t.dev.waves = (wroteScalar s k 12 dest fun _ => ticketOf kd s.dev.ticket).dev.waves := by
  have hdev : kindleNbDev dest kd k (unlatched s) =
      (((unlatched s).addReq k kd).setScalars k dest fun _ => ticketWord kd s.dev.ticket).advance k 12 := by
    have hmine : (((unlatched s).engine k.core kd).queue ++ ((unlatched s).engine k.core kd).holder.toList).find? (·.wave == k.wave.id) = none :=
      asked_eq_false hasked
    have hshort : ((unlatched s).engine k.core kd).queue.length < 16 := hroom
    simp only [kindleNbDev, hmine, hshort, if_true]
    rfl
  refine ⟨_, kindleNb_next dest h, ?_, ?_, ?_⟩ <;> rw [hdev]
  · exact addReq_engine (unlatched s)
  · rfl
  · simp only [← ticketWord_eq, ← scalars_advance_eq]
    exact advance_waves rfl k 12

theorem lease_part (hk : s.dev.issuer? = some k) (hpart : k.gang ≠ k.wave.liveMask) {i : Instr}
    (hi : i = .kindle kd ∨ (∃ d, i = .kindleNb d kd) ∨ i = .douse kd) : exec i s = .next (after s fun d => d.trap k cGang) := by
  have hwhole : k.whole = false := by
    rw [← Bool.not_eq_true]
    exact mt whole_iff.mp hpart
  have hcheck : kindleCheck kd k (unlatched s) = some cGang := by rw [kindleCheck, hwhole]; rfl
  rcases hi with rfl | ⟨d, rfl⟩ | rfl
  · exact kindle_eq.trans (guarded_after hk hcheck)
  · exact (kindleNb_eq d).trans (guarded_after hk hcheck)
  · exact douse_eq.trans (guarded_after hk (partCause_of_part hpart))

theorem lease_rights (hk : s.dev.issuer? = some k) (hwhole : k.gang = k.wave.liveMask) (hbit : k.block.engines.getLsbD (kindNumber kd) = false)
    {i : Instr} (hi : i = .kindle kd ∨ ∃ d, i = .kindleNb d kd) : exec i s = .next (after s fun d => d.trap k cRights) := by
  have hnum : kindNum kd = kindNumber kd := rfl
  have hcheck : kindleCheck kd k (unlatched s) = some cRights := by rw [kindleCheck, whole_iff.mpr hwhole, hnum, hbit]; rfl
  rcases hi with rfl | ⟨d, rfl⟩
  · exact kindle_eq.trans (guarded_after hk hcheck)
  · exact (kindleNb_eq d).trans (guarded_after hk hcheck)

theorem grantHead_of_empty {d : Dev} {core : Nat} (h : (d.engine core kd).queue = []) : d.grantHead core kd = d := by
  have hqueue : d.leaseQueue core kd = [] := by rw [Dev.leaseQueue, h]; rfl
  rw [Dev.grantHead, hqueue]

/-- An engine that is given up with an empty queue becomes WARM (R207). -/
theorem releaseEngine_engine {d : Dev} {core : Nat} (hqueue : (d.engine core kd).queue = []) :
    (d.releaseEngine core kd).waves = d.waves ∧
    (d.releaseEngine core kd).engine core kd = { d.engine core kd with
      st := .warm, former := (d.engine core kd).holder, formerAt := (d.engine core kd).granted, holder := none, idle := d.clock } := by
  have hleft := engine_modEngine (f := fun e => { e with
    st := .leased, former := e.holder, formerAt := e.granted, holder := none, idle := d.clock }) d core kd
  have hgrant := grantHead_of_empty (d := d.modEngine core kd fun e => { e with
    st := .leased, former := e.holder, formerAt := e.granted, holder := none, idle := d.clock }) (kd := kd) (core := core) (by rw [hleft]; exact hqueue)
  unfold Dev.releaseEngine
  simp only [hgrant, hleft, Option.isNone_none, if_true]
  refine ⟨rfl, ?_⟩
  rw [engine_modEngine, hleft]

theorem douse_warm (hk : s.dev.issuer? = some k) (hwhole : k.gang = k.wave.liveMask) {r : Req}
    (hr : (s.dev.engine k.core kd).holder = some r) (hmine : r.wave = k.wave.id) (hst : (s.dev.engine k.core kd).st = .leased)
    (hqueue : (s.dev.engine k.core kd).queue = []) :
    ∃ t, exec (.douse kd) s = .next t ∧ t.dev.waves = (gangStep s k fun _ x => passed 12 x).dev.waves ∧
      t.dev.engine k.core kd = { s.dev.engine k.core kd with
        st := .warm, holder := none, former := some r, formerAt := (s.dev.engine k.core kd).granted, idle := s.dev.clock } := by
  have hdouse : (unlatched s).douse k.core kd k.wave.id = (unlatched s).releaseEngine k.core kd := by
    have hr : ((unlatched s).engine k.core kd).holder = some r := hr
    have hst : ((unlatched s).engine k.core kd).st = .leased := hst
    have hqueue : ((unlatched s).engine k.core kd).queue = [] := hqueue
    simp only [Dev.douse, hr, hst, hqueue, hmine, List.any_nil, Bool.false_eq_true, if_false, ne_eq, not_true_eq_false]
  obtain ⟨hwaves, hengine⟩ := releaseEngine_engine (d := unlatched s) (core := k.core) (kd := kd) hqueue
  refine ⟨_, douse_eq.trans (guarded_next s k _ _ hk (partCause_of_whole hwhole)), ?_, ?_⟩
  · rw [← advance_eq_gangStep]
    refine advance_waves ?_ k 12
    exact (congrArg Dev.waves hdouse).trans hwaves
  · refine Eq.trans (congrArg (·.engine k.core kd) hdouse : _) (hengine.trans ?_)
    exact congrArg (fun h => ({ s.dev.engine k.core kd with
      st := .warm, holder := none, former := h, formerAt := (s.dev.engine k.core kd).granted, idle := s.dev.clock } : Engine)) hr

/-- Position, request state and reasons that `lstat` reads for a ticket (Table 7-2). -/
def lstatEntry (d : Dev) (core wave : Nat) (kd : EngKind) (t : Word) : Nat × Nat × Bool × Bool :=
  let e := d.engine core kd
  let mine (r : Req) : Bool := r.wave == wave && ticketWord kd r.ticket == t
  match (d.leaseQueue core kd).zipIdx.find? fun x => mine x.1 with
  | some (r, i) => (i, 1, r.wpower, r.wenergy)
  | none =>
    if e.holder.any mine then (0xFF, if e.st == .leased || e.st == .evicting then 3 else 2, false, false)
    else match e.notes.find? fun n => n.wave == wave && ticketWord kd n.ticket == t with
      | some n => (0xFF, if n.lost then 5 else 4, false, false)
      | none => (0xFF, 0, false, false)

/-- The word of Table 7-2. -/
def lstatNumber (st : EngSt) (x : Nat × Nat × Bool × Bool) : Nat :=
  x.1 * 2 ^ 16 + st.code * 2 ^ 12 + x.2.2.2.toNat * 2 ^ 9 + x.2.2.1.toNat * 2 ^ 8 + x.2.1

theorem lstat_eq (d : Dev) (core w : Nat) (t : Word) :
    d.lstat core w kd t = BitVec.ofNat 64 (lstatNumber (d.engine core kd).st (lstatEntry d core w kd t)) := rfl

theorem lstat_leased {d : Dev} {core w : Nat} {r : Req} (hqueue : (d.engine core kd).queue = []) (hholder : (d.engine core kd).holder = some r)
    (hmine : r.wave = w) (hst : (d.engine core kd).st = .leased) :
    lstatNumber (d.engine core kd).st (lstatEntry d core w kd (ticketOf kd r.ticket)) = 0xFF * 2 ^ 16 + 2 * 2 ^ 12 + 3 := by
  have hempty : d.leaseQueue core kd = [] := by rw [Dev.leaseQueue, hqueue]; rfl
  have hentry : lstatEntry d core w kd (ticketOf kd r.ticket) = (0xFF, 3, false, false) := by
    simp [lstatEntry, hempty, hholder, hmine, hst, ticketWord_eq]
  rw [hentry, hst]
  rfl

theorem lstat_queued {d : Dev} {core w : Nat} {r : Req} (hqueue : (d.engine core kd).queue = [r])
    (hmine : r.wave = w) (hst : (d.engine core kd).st = .dark) :
    lstatNumber (d.engine core kd).st (lstatEntry d core w kd (ticketOf kd r.ticket)) = r.wenergy.toNat * 2 ^ 9 + r.wpower.toNat * 2 ^ 8 + 1 := by
  have hone : d.leaseQueue core kd = [r] := by rw [Dev.leaseQueue, hqueue]; rfl
  have hentry : lstatEntry d core w kd (ticketOf kd r.ticket) = (0, 1, r.wpower, r.wenergy) := by
    simp [lstatEntry, hone, hmine, ticketWord_eq]
  rw [hentry, hst, lstatNumber, EngSt.code]
  simp only [Nat.zero_mul, Nat.zero_add]

theorem lstat_warm {d : Dev} {core w : Nat} {t : Word} (hqueue : (d.engine core kd).queue = []) (hholder : (d.engine core kd).holder = none)
    (hnotes : (d.engine core kd).notes = []) (hst : (d.engine core kd).st = .warm) :
    lstatNumber (d.engine core kd).st (lstatEntry d core w kd t) = 0xFF * 2 ^ 16 + 3 * 2 ^ 12 := by
  have hempty : d.leaseQueue core kd = [] := by rw [Dev.leaseQueue, hqueue]; rfl
  have hentry : lstatEntry d core w kd t = (0xFF, 0, false, false) := by
    simp [lstatEntry, hempty, hholder, hnotes]
  rw [hentry, hst]
  rfl

theorem insertReq_congr {d e : Dev} (h : d.servers = e.servers) (core : Nat) : d.insertReq core kd = e.insertReq core kd := by
  have hclass : d.engineClass core kd = e.engineClass core kd := by
    funext ctx
    rw [Dev.engineClass, Dev.engineClass, h]
  funext r l
  induction l with
  | nil => rfl
  | cons x l ih => simp only [Dev.insertReq, hclass, ih]

theorem lstatEntry_congr {d e : Dev} (hengines : d.engines = e.engines) (hservers : d.servers = e.servers) (core w : Nat) (t : Word) :
    lstatEntry d core w kd t = lstatEntry e core w kd t := by
  have hengine : d.engine core kd = e.engine core kd := by rw [Dev.engine, Dev.engine, hengines]
  have hqueue : d.leaseQueue core kd = e.leaseQueue core kd := by rw [Dev.leaseQueue, Dev.leaseQueue, hengine, insertReq_congr hservers]
  unfold lstatEntry
  rw [hengine, hqueue]

/-- `lstat` of a ticket of kind `kd`; what LOST and FULL tell is read once. -/
def lstatDev (dest a : SReg) (kd : EngKind) (k : Issue) (d : Dev) : Dev :=
  (d.setScalars k dest fun _ => d.lstat k.core k.wave.id kd (k.rd a)).modEngine k.core kd fun e =>
    { e with notes := e.notes.filter fun n => !(n.wave == k.wave.id && ticketWord kd n.ticket == k.rd a) }

theorem lstatDev_waves (dest a : SReg) (kd : EngKind) (k : Issue) (d : Dev) :
    (lstatDev dest a kd k d).waves = (d.setScalars k dest fun _ => d.lstat k.core k.wave.id kd (k.rd a)).waves := rfl

/-- `lstat` of a ticket of a kind reads what the engine of that kind tells (R206). -/
theorem lstat_reads (hk : s.dev.issuer? = some k) (dest a : SReg) (ha : (k.rd a).toNat % 2 ^ 32 = kindNumber kd) {v : Nat}
    (hv : lstatNumber (s.dev.engine k.core kd).st (lstatEntry s.dev k.core k.wave.id kd (k.rd a)) = v) :
    ∃ t, exec (.lstat dest a) s = .next t ∧ t.dev.waves = (wroteScalar s k 12 dest fun _ => BitVec.ofNat 64 v).dev.waves := by
  have hkind : [EngKind.tile, .table, .select].find? (fun x => kindNum x == (k.rd a).toNat % 2 ^ 32) = some kd := by
    rw [ha]
    cases kd <;> rfl
  have hexec : exec (.lstat dest a) s = execLstat dest a s := rfl
  have hnext : exec (.lstat dest a) s = .next { s with dev := (lstatDev dest a kd k (unlatched s)).advance k 12 } := by
    rw [hexec, execLstat, andNext_next s k _ _ hk]
    simp only [hkind]
    rfl
  have hsame : (fun _ : Nat => BitVec.ofNat 64 v) = fun _ => (unlatched s).lstat k.core k.wave.id kd (k.rd a) := funext fun _ => by
    rw [lstat_eq, ← hv, lstatEntry_congr (d := unlatched s) (e := s.dev) rfl rfl]
    rfl
  refine ⟨_, hnext, ?_⟩
  rw [hsame, ← scalars_advance_eq]
  exact advance_waves (lstatDev_waves dest a kd k (unlatched s)) k 12

end

/-- Settles O32: each lease instruction in the cases of its rule, with the engine's record and the waves that it leaves. -/
theorem leaseInstructions : Obligations.LeaseInstructions := by
  unfold Obligations.LeaseInstructions
  refine ⟨fun s k kd h => ⟨kindle_holds h, kindle_asks h, fun ha hroom d => kindleNb_asks d h ha hroom, fun q hq d => kindleNb_found d h hq⟩,
    fun s k kd hk => ⟨fun hpart i => lease_part hk hpart, fun hwhole hbit i => lease_rights hk hwhole hbit,
      fun hwhole r hr hmine hst hqueue => douse_warm hk hwhole hr hmine hst hqueue⟩,
    fun s k kd d a hk ha => ⟨?_, ?_, ?_⟩⟩
  · intro r hqueue hholder hmine hticket hst
    refine lstat_reads hk d a ha ?_
    rw [hticket]
    exact lstat_leased hqueue hholder hmine hst
  · intro r hqueue hmine hticket hst
    refine lstat_reads hk d a ha ?_
    rw [hticket]
    exact lstat_queued hqueue hmine hst
  · intro hqueue hholder hnotes hst
    exact lstat_reads hk d a ha (lstat_warm hqueue hholder hnotes hst)

/-! ## Steps of the lease unit (R296 to R301) -/

section
variable {d : Dev} {core : Nat} {kd : EngKind}

/-- A context's record after a change that leaves its number. -/
theorem ctx?_modCtx {d : Dev} {n : Nat} {c : Ctx} {f : Ctx → Ctx} (hf : ∀ c, (f c).n = c.n) (h : d.ctx? n = some c) :
    (d.modCtx n f).ctx? n = some (f c) := by
  have hkeep : ∀ x : Ctx, (x.n == n) = true → ((f x).n == n) = true := fun x hx => by rw [hf]; exact hx
  exact (find?_modIf_same hkeep d.ctxs).trans (congrArg (Option.map f) h)

/-- An asynchronous cause in a wave with a handler sets its bit; the engines are as before (R304). -/
theorem raiseAsync_told {w : Wave} {id c : Nat} (hw : d.wave? id = some w) (hlive : w.live = true) (htvec : w.tvec ≠ 0) (hc : c < 64) :
    (d.raiseAsync id c).engines = d.engines ∧ ∃ v, (d.raiseAsync id c).wave? id = some v ∧ v.cause.getLsbD c = true := by
  have hset : (d.modWave id (·.setCause c)).wave? id = some (w.setCause c) := wave?_modWave_self (fun _ => rfl) hw
  have hbit : (w.setCause c).cause.getLsbD c = true := by
    simp [Wave.setCause, hc]
  have htvec : (w.tvec != 0) = true := bne_iff_ne.mpr htvec
  unfold Dev.raiseAsync
  simp only [hw, hlive, htvec, Bool.not_true, Bool.false_eq_true, if_false, if_true]
  split
  · exact ⟨rfl, _, hset, hbit⟩
  · exact ⟨rfl, { w.setCause c with entry := true }, wave?_modWave_self (f := fun w => { w with entry := true }) (fun _ => rfl) hset, hbit⟩

/-- An engine after it has been given to a request. -/
def givenTo (d : Dev) (core : Nat) (k : EngKind) (r : Req) (st : EngSt) (till : Nat) (e : Engine) : Engine :=
  let busy := !(d.engineJobs core k).isEmpty
  let other := e.lastCtx != some r.ctx
  { e with
    st := st, holder := some { r with wpower := false, wenergy := false }, till := till, granted := d.clock, since := d.clock
    lastCtx := some r.ctx, forPower := false
    queue := e.queue.filter (·.ticket != r.ticket)
    lut := if other && !busy then [] else e.lut
    slots := if other && !busy then [] else e.slots
    stale := if other && busy then e.stale ++ [d.nextId] else e.stale }

theorem giveEngine_engine (d : Dev) (core : Nat) (kd : EngKind) (r : Req) (st : EngSt) (till : Nat) :
    (d.giveEngine core kd r st till).engine core kd = givenTo d core kd r st till (d.engine core kd) :=
  engine_modEngine (f := givenTo d core kd r st till) d core kd

/-- LEASE_GRANT to the only request, when power and energy can be reserved (R298). -/
theorem grantHead_dark {r : Req} {c : Ctx} (hqueue : (d.engine core kd).queue = [r]) (hst : (d.engine core kd).st = .dark)
    (hc : d.ctx? r.ctx = some c) (hpower : d.reservedPower (dieOf core) + powerOf kd ≤ (d.allow[dieOf core]?).getD 0)
    (henergy : wakeCharge kd + 2400 * cycleCharge kd ≤ c.energyLeft) :
    d.grantHead core kd = (d.giveEngine core kd r .waking (d.clock + wakeCycles kd)).modCtx r.ctx (·.charge (wakeCharge kd)) := by
  have hone : d.leaseQueue core kd = [r] := by rw [Dev.leaseQueue, hqueue]; rfl
  have hfits : d.darkenFor (dieOf core) (powerOf kd) 672 = d := by
    rw [show (672 : Nat) = 671 + 1 from rfl, Dev.darkenFor, if_pos hpower]
  have hp : ¬ (d.allow[dieOf core]?).getD 0 < d.reservedPower (dieOf core) + powerOf kd := not_lt.mpr hpower
  have he : ¬ c.energyLeft < wakeCharge kd + 2400 * cycleCharge kd := not_lt.mpr henergy
  simp only [Dev.grantHead, hone, hc, hst, hfits, hp, he, if_false]

theorem leaseGrant_wakes {s : State} {r : Req} {c : Ctx} (hqueue : (s.dev.engine core kd).queue = [r])
    (hst : (s.dev.engine core kd).st = .dark) (hc : s.dev.ctx? r.ctx = some c)
    (hpower : s.dev.reservedPower (dieOf core) + (wakeOf kd).2.2 ≤ (s.dev.allow[dieOf core]?).getD 0)
    (henergy : (wakeOf kd).2.1 + 2400 * (wakeOf kd).2.2 ≤ c.energyLeft) :
    ∃ t, exec (.leaseGrant core kd) s = .next t ∧ (t.dev.engine core kd).st = .waking ∧
      (t.dev.engine core kd).holder = some { r with wpower := false, wenergy := false } ∧
      (t.dev.engine core kd).till = s.dev.clock + (wakeOf kd).1 ∧
      t.dev.ctx? r.ctx = some { c with energy := c.energy + (wakeOf kd).2.1, spent := c.spent + (wakeOf kd).2.1 } := by
  obtain ⟨hcycles, hcharge, hwatts⟩ : wakeCycles kd = (wakeOf kd).1 ∧ wakeCharge kd = (wakeOf kd).2.1 ∧ powerOf kd = (wakeOf kd).2.2 := by
    cases kd <;> exact ⟨rfl, rfl, rfl⟩
  have hgrant := grantHead_dark hqueue hst hc (hwatts ▸ hpower) (by rw [cycleCharge, hcharge, hwatts]; exact henergy)
  have hqueue' : ∀ e : Engine, e.queue = [r] → e.queue.filter (·.ticket != r.ticket) = [] := fun e he => by simp [he]
  have hengine : ((s.dev.giveEngine core kd r .waking (s.dev.clock + wakeCycles kd)).modCtx r.ctx (·.charge (wakeCharge kd))).engine core kd =
      givenTo s.dev core kd r .waking (s.dev.clock + wakeCycles kd) (s.dev.engine core kd) := giveEngine_engine s.dev core kd r _ _
  have htell : (s.dev.grantHead core kd).tellEnergy core kd = s.dev.grantHead core kd := by
    refine tellEnergy_eq fun q hq => ?_
    rw [hgrant, hengine] at hq
    exact absurd hq (by rw [givenTo, hqueue' _ hqueue]; exact List.not_mem_nil)
  have hexec : exec (.leaseGrant core kd) s = .next { s with dev := (s.dev.grantHead core kd).tellEnergy core kd } := rfl
  rw [htell, hgrant] at hexec
  refine ⟨_, hexec, ?_, ?_, ?_, ?_⟩
  · exact congrArg Engine.st hengine
  · exact congrArg Engine.holder hengine
  · exact (congrArg Engine.till hengine).trans (congrArg (s.dev.clock + ·) hcycles)
  rw [← hcharge]
  exact ctx?_modCtx (d := s.dev.giveEngine core kd r .waking (s.dev.clock + wakeCycles kd)) (fun _ => rfl) hc


theorem wakeDone_leased {s : State} {r : Req} (hst : (s.dev.engine core kd).st = .waking) (hr : (s.dev.engine core kd).holder = some r)
    (htill : (s.dev.engine core kd).till ≤ s.dev.clock) :
    ∃ t, exec (.wakeDone core kd) s = .next t ∧
      t.dev.engine core kd = { s.dev.engine core kd with st := .leased, since := s.dev.clock } ∧ t.dev.waves = s.dev.waves := by
  have hexec : exec (.wakeDone core kd) s =
      .next { s with dev := s.dev.modEngine core kd fun e => { e with st := .leased, since := s.dev.clock } } := by
    rw [show exec (.wakeDone core kd) s = execWakeDone core kd s from rfl, execWakeDone, onDev]
    simp only [not_lt.mpr htill, if_false, hst, hr]
  exact ⟨_, hexec, engine_modEngine (f := fun e => { e with st := .leased, since := s.dev.clock }) s.dev core kd, rfl⟩

theorem warmTimeout_dark {s : State} (hst : (s.dev.engine core kd).st = .warm) (hholder : (s.dev.engine core kd).holder = none)
    (hjobs : s.dev.engineJobs core kd = []) (hidle : (s.dev.engine core kd).idle + 48000 ≤ s.dev.clock) :
    ∃ t, exec (.warmTimeout core kd) s = .next t ∧ (t.dev.engine core kd).st = .dark ∧ (t.dev.engine core kd).lut = [] ∧
      (t.dev.engine core kd).slots = [] ∧ t.dev.waves = s.dev.waves := by
  have hcan : (s.dev.canDarken (s.dev.engine core kd) && decide ((s.dev.engine core kd).idle + 48000 ≤ s.dev.clock)) = true := by
    rw [Dev.canDarken, engine_core, engine_kind, hst, hholder, hjobs, decide_eq_true hidle]
    rfl
  have hexec : exec (.warmTimeout core kd) s = .next { s with dev := s.dev.modEngine core kd Engine.darken } := by
    rw [show exec (.warmTimeout core kd) s = execWarmTimeout core kd s from rfl, execWarmTimeout, onDev]
    simp only [hcan, if_true]
  have hdark := engine_modEngine (f := Engine.darken) s.dev core kd
  refine ⟨_, hexec, ?_, ?_, ?_, rfl⟩
  · exact congrArg Engine.st hdark
  · exact congrArg Engine.lut hdark
  · exact congrArg Engine.slots hdark

theorem grantDie_of_empty {die : Nat} (h : ∀ e ∈ d.engines, dieOf e.core = die → e.queue = []) : d.grantDie die = d := by
  have hnone : (d.engines.filter fun e => dieOf e.core == die && !e.queue.isEmpty) = [] := by
    rw [List.filter_eq_nil_iff]
    intro e he hwait
    rw [Bool.and_eq_true, beq_iff_eq] at hwait
    rw [h e he hwait.1] at hwait
    exact absurd hwait.2 (by decide)
  rw [Dev.grantDie, hnone]
  rfl

theorem cutPower_of_fits {die n : Nat} (h : d.lastingPower die ≤ (d.allow[die]?).getD 0) : d.cutPower die n = d := by
  cases n with
  | zero => rfl
  | succ n => rw [Dev.cutPower, if_pos h]

theorem allowanceCut_fits {s : State} {die a : Nat} (hdie : die < s.dev.allow.length) (hfits : s.dev.lastingPower die ≤ a)
    (hnone : ∀ e ∈ s.dev.engines, dieOf e.core = die → e.queue = []) :
    s.dev.putAllowance die a = { s.dev with allow := s.dev.allow.set die a } := by
  rw [Dev.putAllowance, grantDie_of_empty hnone]
  refine cutPower_of_fits ?_
  rw [List.getElem?_set_self hdie]
  exact hfits

/-- The eviction of a lease begins. -/
theorem evict_engine (d : Dev) (core : Nat) (kd : EngKind) (power : Bool) :
    (d.evict core kd power).engine core kd = { d.engine core kd with st := .evicting, forPower := power } :=
  engine_modEngine (f := fun e => { e with st := .evicting, forPower := power }) _ core kd

theorem unitCycles_eq (kd : EngKind) : unitCycles kd = if kd = .tile then 80 else if kd = .table then 16 else 64 := by
  cases kd <;> rfl

theorem class0Evict_begins {s : State} {r h : Req} {q : Server} (hr : r ∈ (s.dev.engine core kd).queue)
    (hst : (s.dev.engine core kd).st = .leased) (hh : (s.dev.engine core kd).holder = some h)
    (hq : s.dev.server? r.ctx (enginePoint core kd) = some q) (hcls : q.args.cls = 0) (hlower : 0 < s.dev.classAt h.ctx (enginePoint core kd))
    (hlate : q.period 0 - q.quota 0 * (if kd = .tile then 80 else if kd = .table then 16 else 64) < s.dev.clock - r.at_)
    (hleast : (match s.dev.server? h.ctx (enginePoint core kd) with | some x => x.period 0 | none => 24000) ≤
      s.dev.clock - (s.dev.engine core kd).since) :
    exec (.class0Evict core kd) s = .next { s with dev := s.dev.evict core kd false } := by
  have hmay : 0 < s.dev.classAt h.ctx (enginePoint core kd) ∧
      (match s.dev.server? h.ctx (enginePoint core kd) with | some x => x.period 0 | none => 24000) ≤
        s.dev.clock - (s.dev.engine core kd).since := ⟨hlower, hleast⟩
  have hdue : (s.dev.engine core kd).queue.any (s.dev.overdue (enginePoint core kd) kd) = true := by
    refine List.any_eq_true.mpr ⟨r, hr, ?_⟩
    rw [← unitCycles_eq] at hlate
    simp only [Dev.overdue, hq, hcls, beq_self_eq_true, Bool.true_and, decide_eq_true hlate]
  rw [show exec (.class0Evict core kd) s = execClass0Evict core kd s from rfl, execClass0Evict, onDev]
  simp only [hst, hh, hdue, Bool.true_and]
  exact congrArg (fun d : Dev => Host.Outcome.next { s with dev := d }) (if_pos (decide_eq_true hmay))

/-- An engine whose contents are lost and whose lessee, if any, has a note of it. -/
def emptiedWith (notes : List Note) (clock : Nat) (e : Engine) : Engine :=
  { e with notes := e.notes ++ notes, lut := [], slots := [], stale := [], former := none, holder := none, idle := clock }

/-- The device after the eviction of a lessee when nothing is left to run and nobody waits. -/
def stoppedIdle (d : Dev) (core : Nat) (kd : EngKind) (h : Req) : Dev :=
  ((d.modEngine core kd (emptiedWith [⟨h.ticket, h.wave, true⟩] d.clock)).modEngine core kd fun e => { e with st := .leased }).modEngine
    core kd fun e => { e with st := .warm }

theorem stoppedIdle_engine (d : Dev) (core : Nat) (kd : EngKind) (h : Req) :
    (stoppedIdle d core kd h).engine core kd =
      { emptiedWith [⟨h.ticket, h.wave, true⟩] d.clock (d.engine core kd) with st := .warm } := by
  rw [stoppedIdle, engine_modEngine (f := fun e => { e with st := .warm }), engine_modEngine (f := fun e => { e with st := .leased }),
    engine_modEngine (f := emptiedWith [⟨h.ticket, h.wave, true⟩] d.clock)]

theorem engineStop_idle {h : Req} (hpower : (d.engine core kd).forPower = false) (hh : (d.engine core kd).holder = some h)
    (hqueue : (d.engine core kd).queue = []) (hjobs : d.engineJobs core kd = []) :
    d.engineStop core kd [] = (stoppedIdle d core kd h).raiseAsync h.wave cLeaselost := by
  have hleased : ∀ d2, d2 = ((d.modEngine core kd (emptiedWith [⟨h.ticket, h.wave, true⟩] d.clock)).modEngine core kd
      fun e => { e with st := .leased }) → d2.grantHead core kd = d2 ∧ (d2.engine core kd).holder.isNone = true := by
    intro d2 h2
    have he : d2.engine core kd = { emptiedWith [⟨h.ticket, h.wave, true⟩] d.clock (d.engine core kd) with st := .leased } := by
      rw [h2, engine_modEngine (f := fun e => { e with st := .leased }),
        engine_modEngine (f := emptiedWith [⟨h.ticket, h.wave, true⟩] d.clock)]
    exact ⟨grantHead_of_empty (by rw [he]; exact hqueue), by rw [he]; rfl⟩
  obtain ⟨hgrant, hnone⟩ := hleased _ rfl
  unfold Dev.engineStop
  simp only [hjobs, hpower, hh, List.filter_nil, List.foldl_nil, Option.toList_some, List.map_cons, List.map_nil, List.append_nil,
    Bool.false_eq_true, if_false]
  have hone : [h.wave].eraseDups = [h.wave] := rfl
  rw [hone, List.foldl_cons, List.foldl_nil]
  refine congrArg (Dev.raiseAsync · h.wave cLeaselost) ?_
  refine Eq.trans (if_pos ?_) ?_
  · exact (congrArg (fun d : Dev => (d.engine core kd).holder.isNone) hgrant).trans hnone
  · exact congrArg (Dev.modEngine · core kd fun e => { e with st := .warm }) hgrant

/-- ENGINE_STOPPED of a lessee's engine with nothing left to run: it is WARM and empty, and the lessee is told (R210). -/
theorem engineStopped_warm {s : State} {h : Req} {w : Wave} (hst : (s.dev.engine core kd).st = .evicting)
    (hpower : (s.dev.engine core kd).forPower = false) (hh : (s.dev.engine core kd).holder = some h)
    (hqueue : (s.dev.engine core kd).queue = []) (hjobs : s.dev.engineJobs core kd = []) (hw : s.dev.wave? h.wave = some w)
    (hlive : w.live = true) (htvec : w.tvec ≠ 0) :
    ∃ t, exec (.engineStopped core kd) s = .next t ∧ (t.dev.engine core kd).st = .warm ∧ (t.dev.engine core kd).holder = none ∧
      (t.dev.engine core kd).lut = [] ∧ (t.dev.engine core kd).slots = [] ∧
      (t.dev.engine core kd).notes = (s.dev.engine core kd).notes ++ [⟨h.ticket, h.wave, true⟩] ∧ Told t h.wave cLeaselost := by
  obtain ⟨hengines, hbit⟩ := raiseAsync_told (d := stoppedIdle s.dev core kd h) (c := cLeaselost) hw hlive htvec (by decide)
  have hengine : ((stoppedIdle s.dev core kd h).raiseAsync h.wave cLeaselost).engine core kd =
      { emptiedWith [⟨h.ticket, h.wave, true⟩] s.dev.clock (s.dev.engine core kd) with st := .warm } := by
    rw [← stoppedIdle_engine, Dev.engine, Dev.engine, hengines]
  have hexec : exec (.engineStopped core kd) s = .next { s with dev := (stoppedIdle s.dev core kd h).raiseAsync h.wave cLeaselost } := by
    rw [show exec (.engineStopped core kd) s = execEngineStopped core kd s from rfl, execEngineStopped, onDev]
    simp only [hst, hjobs, List.any_nil, Bool.not_false, Bool.and_true, beq_self_eq_true, if_true, engineStop_idle hpower hh hqueue hjobs]
  refine ⟨_, hexec, ?_, ?_, ?_, ?_, ?_, hbit⟩
  · exact congrArg Engine.st hengine
  · exact congrArg Engine.holder hengine
  · exact congrArg Engine.lut hengine
  · exact congrArg Engine.slots hengine
  · exact congrArg Engine.notes hengine

/-- What the end of an energy period leaves of a context's account (R301). -/
def chargePeriod (clock : Nat) (c : Ctx) : Ctx :=
  if clock < c.period + 2400000 then c
  else { c with period := c.period + 2400000, debt := c.debt + c.spent - c.allow * 24000, spent := 0 }

theorem chargePeriod_n (clock : Nat) (c : Ctx) : (chargePeriod clock c).n = c.n := by
  unfold chargePeriod
  split <;> rfl

theorem chargePeriod_of_le {clock : Nat} {c : Ctx} (h : c.period + 2400000 ≤ clock) :
    chargePeriod clock c = { c with period := c.period + 2400000, debt := c.debt + c.spent - c.allow * 24000, spent := 0 } :=
  if_neg (not_lt.mpr h)

theorem energyPeriod_debt {s : State} {c : Ctx} (hc : s.dev.ctx? c.n = some c) (hdue : c.period + 2400000 ≤ s.dev.clock) :
    ∃ t, exec (.energyPeriod c.n) s = .next t ∧ t.dev.ctx? c.n = some { c with
      period := c.period + 2400000, debt := c.debt + c.spent - c.allow * 24000, spent := 0 } := by
  refine ⟨{ s with dev := s.dev.modCtx c.n (chargePeriod s.dev.clock) }, rfl, ?_⟩
  rw [← chargePeriod_of_le hdue]
  exact ctx?_modCtx (chargePeriod_n s.dev.clock) hc

end

/-- Settles O33: the steps of the lease unit, one lemma each. -/
theorem leaseSteps : Obligations.LeaseSteps := by
  unfold Obligations.LeaseSteps
  refine ⟨?_, ?_, ?_, ?_, ?_, ?_, ?_⟩
  · intro s core kd r c hqueue hst hc hpower henergy
    exact leaseGrant_wakes hqueue hst hc hpower henergy
  · intro s core kd r hst hr htill
    exact wakeDone_leased hst hr htill
  · intro s core kd _ _ hst hholder hjobs hidle
    exact warmTimeout_dark hst hholder hjobs hidle
  · intro s die dw a hdie hfits hnone
    exact congrArg (fun d => Host.Outcome.next { s with dev := d }) (allowanceCut_fits hdie hfits hnone)
  · intro s core kd r h q p hr hst hh hq hcls hlower hlate hleast
    exact ⟨_, class0Evict_begins hr hst hh hq hcls hlower hlate hleast, evict_engine s.dev core kd false, rfl⟩
  · intro s core kd h w hst hpower hh hqueue hjobs hw hlive htvec
    exact engineStopped_warm hst hpower hh hqueue hjobs hw hlive htvec
  · intro s c hc hdue
    exact energyPeriod_debt hc hdue

end Sys2Proof.Proofs
end

section
/-!
PROOFS. The security protocols (12: R336, R337, R344): SPDM requests, TDISP messages and IDE keys.
-/

open Sys2Proof Sys2Proof.Machine Sys2Proof.Claims

-- The whole text is compiled in one process, which can hold few threads: these proofs are elaborated in order.
set_option Elab.async false

namespace Sys2Proof.Proofs

/-! ## Entries of association lists -/

/-- A function's record after a change that leaves its number. -/
theorem fn_modFn {f : Fn → Fn} (hf : ∀ x, (f x).n = x.n) (d : Dev) (n : Nat) : (d.modFn n f).fn n = f (d.fn n) := by
  have hkeep : ∀ x : Fn, (x.n == n) = true → ((f x).n == n) = true := fun x hx => by rw [hf]; exact hx
  have hnew : ((f (Fn.reset n)).n == n) = true := hkeep _ (beq_self_eq_true n)
  rw [Dev.fn, Dev.modFn, find?_upsert_same hkeep hnew]
  rfl

/-- Another function's record is as before. -/
theorem fn_modFn_other {f : Fn → Fn} (hf : ∀ x, (f x).n = x.n) (d : Dev) {n k : Nat} (h : k ≠ n) : (d.modFn n f).fn k = d.fn k := by
  have hne : ∀ x : Fn, (x.n == n) = true → (x.n == k) = false := fun x hx => by
    rw [beq_iff_eq] at hx
    rw [hx, beq_eq_false_iff_ne]
    exact Ne.symm h
  have hkeep : ∀ x : Fn, (x.n == n) = true → (x.n == k) = false ∧ ((f x).n == k) = false := fun x hx => ⟨hne x hx, by rw [hf]; exact hne x hx⟩
  rw [Dev.fn, Dev.modFn, find?_upsert_other hkeep (hkeep _ (beq_self_eq_true n)).2]
  rfl

theorem find?_assocPut_same (l : List (Nat × Nat)) (k v : Nat) : (assocPut l k v).find? (·.1 == k) = some (k, v) := by
  exact find?_upsert_same (p := fun y : Nat × Nat => y.1 == k) (fun _ _ => beq_self_eq_true k) (beq_self_eq_true k) l

theorem find?_assocPut_other (l : List (Nat × Nat)) {k n : Nat} (v : Nat) (h : n ≠ k) :
    (assocPut l k v).find? (·.1 == n) = l.find? (·.1 == n) := by
  have hput : (k == n) = false := beq_eq_false_iff_ne.mpr h.symm
  refine find?_upsert_other (p := fun y : Nat × Nat => y.1 == k) (q := fun y : Nat × Nat => y.1 == n) (fun x hx => ⟨?_, hput⟩) hput l
  rw [beq_iff_eq] at hx
  rw [hx]
  exact hput

/-! ## A step of the host while the package is ready -/

theorem hostStep_ready {s : State} (h : 6 ≤ s.mgmt.phase) (f : State → State) : hostStep s f = .next (f s) :=
  congrArg Host.Outcome.next (if_pos h)

/-! ## TDISP (R344) -/

section
variable {s : State} {fn : Nat} (h : 6 ≤ s.mgmt.phase) (hfn : FlrAt s fn 0)
include h hfn

theorem tdispMessage_taken {name : String} {ok : Tdisp → Bool} {f : Dev → Fn → Fn} {data : Dev → List (List Nat)}
    (hok : ok (s.dev.fn fn).tdisp = true) :
    tdispMessage s fn name ok f data = .next (told (setFn s fn (f s.dev)) (.tdisp fn name true (data s.dev))) := by
  obtain ⟨hpos, hlt, hflr⟩ := hfn
  have hvf : ¬ (fn = 0 ∨ 64 ≤ fn) := by omega
  rw [tdispMessage, hostDev, hostStep_ready h]
  simp only [if_neg hvf, hok, hflr, beq_self_eq_true, Bool.and_true, if_true]
  rfl

theorem tdispMessage_refused {name : String} {ok : Tdisp → Bool} {f : Dev → Fn → Fn} {data : Dev → List (List Nat)}
    (hok : ok (s.dev.fn fn).tdisp = false) : tdispMessage s fn name ok f data = .next (told s (.tdisp fn name false [])) := by
  obtain ⟨hpos, hlt, -⟩ := hfn
  have hvf : ¬ (fn = 0 ∨ 64 ≤ fn) := by omega
  rw [tdispMessage, hostDev, hostStep_ready h]
  simp only [if_neg hvf, hok, Bool.false_and, Bool.false_eq_true, if_false]
  rfl

/-- A message that reads the interface leaves everything but the answer. -/
theorem tdispMessage_read {name : String} {ok : Tdisp → Bool} {data : Dev → List (List Nat)} (hok : ok (s.dev.fn fn).tdisp = true) :
    ∃ t, tdispMessage s fn name ok (fun _ f => f) data = .next t ∧ Apart s t ∧ t.dev.fn fn = s.dev.fn fn ∧
      t.dev.out = s.dev.out ++ [.tdisp fn name true (data s.dev)] :=
  ⟨_, tdispMessage_taken h hfn hok, ⟨rfl, rfl, rfl, rfl, rfl, rfl⟩, fn_modFn (f := fun f => f) (fun _ => rfl) s.dev fn, rfl⟩

end

/-! ## SPDM (R336) -/

section
variable {s : State} {die x : Nat} (h : 6 ≤ s.mgmt.phase) (hdie : die < 6)
include h hdie

/-- A request in its place is answered, and one out of its place is refused. -/
theorem spdmRequest_answers {i : Instr} {q : Claims.Asked} {ok : Spdm → Bool}
    (hexec : exec i s = spdmRequest s die q.name ok q.next q.data) (hok : ok (s.mgmt.responder die) = true ↔ q.ok (s.mgmt.responder die)) :
    (q.ok (s.mgmt.responder die) →
      exec i s = .next (spdmDone s die q.name (q.data (s.mgmt.responder die)) (q.next (s.mgmt.responder die)))) ∧
    (¬ q.ok (s.mgmt.responder die) → exec i s = .next (told s (.spdm die q.name false []))) := by
  rw [hexec, spdmRequest, hostStep_ready h]
  simp only [if_neg (not_le.mpr hdie)]
  constructor
  · intro hyes
    rw [if_pos (hok.mpr hyes)]
    rfl
  · intro hno
    rw [if_neg (fun h => hno (hok.mp h))]
    rfl

/-- Each request of R336 is answered in its place and refused out of it. -/
theorem asked_answers {i : Instr} {q : Claims.Asked} (hq : (i, q) ∈ asked s die x) :
    (q.ok (s.mgmt.responder die) →
      exec i s = .next (spdmDone s die q.name (q.data (s.mgmt.responder die)) (q.next (s.mgmt.responder die)))) ∧
    (¬ q.ok (s.mgmt.responder die) → exec i s = .next (told s (.spdm die q.name false []))) := by
  have hslot : ((s.mgmt.responder die).algs && x == 0) = true ↔ (s.mgmt.responder die).algs = true ∧ x = 0 := by
    rw [Bool.and_eq_true, beq_iff_eq]
  have hmem : ∀ b, (s.mgmt.responder die).sessions.contains (x, b) = true ↔ (x, b) ∈ (s.mgmt.responder die).sessions :=
    fun b => List.contains_iff_mem
  have hmeasured : ((s.mgmt.responder die).algs && (decide (1 ≤ x ∧ x ≤ 3) || (die == 4 && decide (x = 4 ∨ x = 5)))) = true ↔
      (s.mgmt.responder die).algs = true ∧ ((1 ≤ x ∧ x ≤ 3) ∨ (die = 4 ∧ (x = 4 ∨ x = 5))) := by
    simp only [Bool.and_eq_true, Bool.or_eq_true, decide_eq_true_eq, beq_iff_eq]
  have hfresh : ((s.mgmt.responder die).algs && !(s.mgmt.responder die).sessions.any (·.1 == x)) = true ↔
      (s.mgmt.responder die).algs = true ∧ ∀ y ∈ (s.mgmt.responder die).sessions, y.1 ≠ x := by
    simp only [Bool.and_eq_true, Bool.not_eq_true', List.any_eq_false, beq_iff_eq, ne_eq]
  have hfinish : ∀ r : Spdm, ({ r with sessions := modIf (·.1 == x) (fun y => (y.1, true)) r.sessions } : Spdm) =
      { r with sessions := r.sessions.map fun y => if y.1 = x then (y.1, true) else y } := fun r => by
    simp only [modIf, beq_iff_eq]
  simp only [asked, List.mem_cons, List.not_mem_nil, or_false, Prod.mk.injEq] at hq
  rcases hq with ⟨rfl, rfl⟩ | ⟨rfl, rfl⟩ | ⟨rfl, rfl⟩ | ⟨rfl, rfl⟩ | ⟨rfl, rfl⟩ | ⟨rfl, rfl⟩ | ⟨rfl, rfl⟩ | ⟨rfl, rfl⟩ | ⟨rfl, rfl⟩ |
    ⟨rfl, rfl⟩ | ⟨rfl, rfl⟩ | ⟨rfl, rfl⟩
  case _ => exact spdmRequest_answers h hdie (ok := fun _ => true) rfl (iff_of_true rfl trivial)
  case _ => exact spdmRequest_answers h hdie (ok := (·.version)) rfl Iff.rfl
  case _ => exact spdmRequest_answers h hdie (ok := (·.caps)) rfl Iff.rfl
  case _ => exact spdmRequest_answers h hdie (ok := (·.algs)) rfl Iff.rfl
  case _ => exact spdmRequest_answers h hdie (ok := fun r => r.algs && x == 0) rfl hslot
  case _ => exact spdmRequest_answers h hdie (ok := fun r => r.algs && x == 0) rfl hslot
  case _ =>
    exact spdmRequest_answers h hdie
      (ok := fun r => r.algs && (decide (1 ≤ x ∧ x ≤ 3) || (die == 4 && decide (x = 4 ∨ x = 5)))) rfl hmeasured
  case _ =>
    exact spdmRequest_answers h hdie (ok := fun r => r.algs && !r.sessions.any (·.1 == x)) rfl hfresh
  case _ =>
    refine spdmRequest_answers h hdie (ok := fun r => r.sessions.contains (x, false)) ?_ (hmem false)
    exact congrArg (spdmRequest s die "FINISH" (fun r => r.sessions.contains (x, false)) · fun _ => [[x]]) (funext hfinish)
  case _ => exact spdmRequest_answers h hdie (ok := fun r => r.sessions.contains (x, true)) rfl (hmem true)
  case _ => exact spdmRequest_answers h hdie (ok := fun r => r.sessions.contains (x, true)) rfl (hmem true)
  case _ => exact spdmRequest_answers h hdie (ok := fun r => r.sessions.contains (x, true)) rfl (hmem true)

end

/-! ## IDE (R337) -/

theorem ideProgram_puts {s : State} {stream key : Nat} (h : 6 ≤ s.mgmt.phase) (hs : stream ≤ 64) :
    exec (.ideKeyManagement (.program stream key)) s =
      .next { s with mgmt := { s.mgmt with ide := assocPut s.mgmt.ide stream key } } :=
  (hostStep_ready h fun s => if 64 < stream then s else { s with mgmt := { s.mgmt with ide := assocPut s.mgmt.ide stream key } }).trans
    (congrArg Host.Outcome.next (if_neg (not_lt.mpr hs)))

/-- Settles O50: a TDISP message and an SPDM request are taken or refused by the state they meet. -/
theorem securityProtocols : Obligations.SecurityProtocols := by
  unfold Obligations.SecurityProtocols
  refine ⟨?_, ?_, ?_⟩
  · intro s fn h hfn f answers refuses counted
    have hc : FlrAt counted fn 0 := hfn
    have hlock : exec (.lockInterface fn) s = tdispMessage counted fn "LOCK_INTERFACE" (· == .unlocked)
        (fun _ f => { f with tdisp := .locked, digest := Config.digest (64 + fn) s.dev.free }) fun _ => [] := rfl
    have hstart : exec (.startInterface fn) s = tdispMessage s fn "START_INTERFACE" (· == .locked)
        (fun _ f => { f with tdisp := .run }) fun _ => [] := rfl
    have hstop : exec (.stopInterface fn) s = tdispMessage s fn "STOP_INTERFACE" (fun _ => true)
        (fun _ f => { f with tdisp := .unlocked, digest := 0 }) fun _ => [] := rfl
    have hstate : exec (.getDeviceInterfaceState fn) s = tdispMessage s fn "GET_DEVICE_INTERFACE_STATE" (fun _ => true)
        (fun _ f => f) fun d => [[(d.fn fn).tdisp.code]] := rfl
    have hreport : exec (.getDeviceInterfaceReport fn) s = tdispMessage s fn "GET_DEVICE_INTERFACE_REPORT" (· != .unlocked)
        (fun _ f => f) fun d => d.report_ fn := rfl
    rw [hlock, hstart, hstop, hstate, hreport]
    refine ⟨?_, ?_, ?_, ?_, ?_, ?_, ?_, ?_⟩
    · exact fun ht => ⟨_, tdispMessage_taken (s := counted) (ok := (· == .unlocked)) h hc (beq_iff_eq.mpr ht)⟩
    · exact fun ht => tdispMessage_refused (s := counted) (ok := (· == .unlocked)) h hc (beq_eq_false_iff_ne.mpr ht)
    · exact fun ht => tdispMessage_taken h hfn (beq_iff_eq.mpr ht)
    · exact fun ht => tdispMessage_refused h hfn (beq_eq_false_iff_ne.mpr ht)
    · exact tdispMessage_taken h hfn rfl
    · obtain ⟨t, ht, hapart, hrec, hout⟩ := tdispMessage_read (name := "GET_DEVICE_INTERFACE_STATE") (ok := fun _ => true)
        (data := fun d => [[(d.fn fn).tdisp.code]]) h hfn rfl
      refine ⟨t, _, ht, hapart, hrec, hout, ?_⟩
      change (s.dev.fn fn).tdisp.code = match (s.dev.fn fn).tdisp with | .unlocked => 0 | .locked => 1 | .run => 2
      cases (s.dev.fn fn).tdisp <;> rfl
    · exact fun ht => tdispMessage_read h hfn (bne_iff_ne.mpr ht)
    · exact fun ht => tdispMessage_refused h hfn (bne_eq_false_iff_eq.mpr ht)
  · intro s die x h hdie i q hq
    exact asked_answers h hdie hq
  · intro s stream key h
    refine ⟨fun hs => ⟨_, ideProgram_puts h hs, rfl, find?_assocPut_same _ _ _, fun n hn => find?_assocPut_other _ _ hn⟩, ?_⟩
    exact ⟨_, hostStep_ready h fun s => { s with mgmt := { s.mgmt with ide := s.mgmt.ide.filter (·.1 != stream) } }, rfl, rfl⟩

end Sys2Proof.Proofs
end

section
/-!
PROOFS. Registers of the functions and of the management processor, host memory and I/O translations (12, 13).
-/

open Sys2Proof Sys2Proof.Machine Sys2Proof.Claims

-- The whole text is compiled in one process, which can hold few threads: these proofs are elaborated in order.
set_option Elab.async false

namespace Sys2Proof.Proofs

/-! ## Steps that only the engines, the contexts' accounts and the jobs take part in -/

/-- Only engines, contexts and jobs differ. -/
def LeasedDev (d e : Dev) : Prop := e = { d with engines := e.engines, ctxs := e.ctxs, jobs := e.jobs }

namespace LeasedDev

theorem refl (d : Dev) : LeasedDev d d := rfl

theorem trans {d e f : Dev} (h : LeasedDev d e) (h' : LeasedDev e f) : LeasedDev d f := by
  rw [LeasedDev, h', h]

theorem mem_eq {d e : Dev} (h : LeasedDev d e) : e.mem = d.mem := by rw [h]

theorem clock_eq {d e : Dev} (h : LeasedDev d e) : e.clock = d.clock := by rw [h]

theorem allow_eq {d e : Dev} (h : LeasedDev d e) : e.allow = d.allow := by rw [h]

theorem ite {c : Prop} [Decidable c] {d x y : Dev} (hx : LeasedDev d x) (hy : LeasedDev d y) : LeasedDev d (if c then x else y) := by
  split
  · exact hx
  · exact hy

theorem foldl {α : Type} {f : Dev → α → Dev} (hf : ∀ d a, LeasedDev d (f d a)) (l : List α) (d : Dev) : LeasedDev d (l.foldl f d) := by
  induction l generalizing d with
  | nil => exact refl d
  | cons a l ih => exact (hf d a).trans (ih (f d a))

theorem modEngine (d : Dev) (core : Nat) (kd : EngKind) (f : Engine → Engine) : LeasedDev d (d.modEngine core kd f) := rfl

theorem evict (d : Dev) (core : Nat) (kd : EngKind) (power : Bool) : LeasedDev d (d.evict core kd power) := rfl

theorem giveEngine (d : Dev) (core : Nat) (kd : EngKind) (r : Req) (st : EngSt) (till : Nat) :
    LeasedDev d (d.giveEngine core kd r st till) := rfl

theorem modCtx (d : Dev) (n : Nat) (f : Ctx → Ctx) : LeasedDev d (d.modCtx n f) := rfl

theorem darkenFor (die need n : Nat) (d : Dev) : LeasedDev d (d.darkenFor die need n) := by
  induction n generalizing d with
  | zero => exact refl d
  | succ n ih =>
    rw [Dev.darkenFor]
    refine ite (refl d) ?_
    split
    · exact refl d
    next e _ => exact (modEngine d e.core e.kind Engine.darken).trans (ih _)

theorem grantHead (d : Dev) (core : Nat) (kd : EngKind) : LeasedDev d (d.grantHead core kd) := by
  simp only [Dev.grantHead]
  split
  next => exact refl d
  next r _ _ =>
    split
    next => exact refl d
    next =>
      split
      next =>
        have hdark := darkenFor (dieOf core) (powerOf kd) 672 d
        refine ite (hdark.trans (modEngine _ _ _ _)) (ite (modEngine _ _ _ _) ?_)
        exact (hdark.trans (giveEngine _ core kd r .waking _)).trans (modCtx _ _ _)
      next => exact ite (refl d) (ite (modEngine _ _ _ _) ((giveEngine d core kd r .warm _).trans (modCtx _ _ _)))
      next => exact ite (refl d) (ite (modEngine _ _ _ _) (giveEngine _ _ _ _ _ _))
      next => exact refl d

theorem grantDie (d : Dev) (die : Nat) : LeasedDev d (d.grantDie die) := foldl (fun d _ => grantHead d _ _) _ d

theorem cutPower (die n : Nat) (d : Dev) : LeasedDev d (d.cutPower die n) := by
  induction n generalizing d with
  | zero => exact refl d
  | succ n ih =>
    simp only [Dev.cutPower]
    refine ite (refl d) ?_
    split
    next e _ => exact (modEngine d e.core e.kind Engine.darken).trans (ih _)
    next =>
      split
      next => exact refl d
      next e _ =>
        refine LeasedDev.trans ?_ (ih _)
        split
        · exact modEngine _ _ _ _
        · exact ite ((modEngine d _ _ _).trans (modEngine _ _ _ _)) ((modEngine d _ _ _).trans (evict _ _ _ _))
        · exact evict _ _ _ _

end LeasedDev

/-! ## Allowances (R300, R349) -/

/-- A die's new allowance stands, and only engines, contexts and jobs change besides. -/
theorem putAllowance_leased (d : Dev) (die a : Nat) : LeasedDev { d with allow := d.allow.set die a } (d.putAllowance die a) := by
  have hgrant : LeasedDev d (d.grantDie die) := .grantDie d die
  have hput : LeasedDev { d with allow := d.allow.set die a } { d.grantDie die with allow := (d.grantDie die).allow.set die a } := by
    rw [LeasedDev, hgrant]
  exact hput.trans (.cutPower die 2688 _)

/-- The state after the allowances of these dies have been set differs in the dies' allowances, engines, contexts and jobs. -/
theorem setAllowance_fields (s : State) (die : Nat) :
    (s.setAllowance die).mgmt = s.mgmt ∧ (s.setAllowance die).dev.mem = s.dev.mem ∧
      (s.setAllowance die).dev.allow = s.dev.allow.set die (s.mgmt.dieAllow die) := by
  have h := putAllowance_leased s.dev die (s.mgmt.dieAllow die)
  exact ⟨rfl, h.mem_eq, h.allow_eq⟩

theorem setAllowances_fields {s : State} (h : s.dev.allow.length = 4) :
    s.setAllowances.mgmt = s.mgmt ∧ s.setAllowances.dev.mem = s.dev.mem ∧
      s.setAllowances.dev.allow = (List.range 4).map s.mgmt.dieAllow := by
  obtain ⟨a, b, c, d, hlist⟩ : ∃ a b c d, s.dev.allow = [a, b, c, d] := by
    match hl : s.dev.allow, h with
    | [a, b, c, d], _ => exact ⟨a, b, c, d, rfl⟩
  have hall : s.setAllowances = (((s.setAllowance 0).setAllowance 1).setAllowance 2).setAllowance 3 := rfl
  simp only [hall, setAllowance_fields, hlist]
  exact ⟨trivial, trivial, rfl⟩

theorem dieAllow_eq (m : Mgmt) (die : Nat) :
    m.dieAllow die =
      if 2 ≤ assoc m.levels die then m.watts * 10 * (100 - 5 * m.cuts) / 800 / 2 else m.watts * 10 * (100 - 5 * m.cuts) / 800 := by
  have hmul : m.watts * 10 * (100 - 5 * m.cuts) = m.watts * (100 - 5 * m.cuts) * 10 := by ring
  rw [Mgmt.dieAllow, Mgmt.dieShare, hmul]
  split <;> omega

theorem pwrcapWrite_taken {s : State} {w : Nat} (h : 6 ≤ s.mgmt.phase) (hw : 1800 ≤ w ∧ w ≤ 3600) (hallow : s.dev.allow.length = 4) :
    ∃ t, exec (.pwrcapWrite w) s = .next t ∧ t.mgmt = { s.mgmt with watts := w } ∧ t.dev.mem = s.dev.mem ∧
      t.dev.allow = (List.range 4).map fun die =>
        if 2 ≤ assoc s.mgmt.levels die then w * 10 * (100 - 5 * s.mgmt.cuts) / 800 / 2 else w * 10 * (100 - 5 * s.mgmt.cuts) / 800 := by
  have hexec : exec (.pwrcapWrite w) s = .next { s with mgmt := { s.mgmt with watts := w } }.setAllowances :=
    (hostStep_ready h (·.setCap w)).trans (congrArg Host.Outcome.next (if_pos hw))
  obtain ⟨hmgmt, hmem, hset⟩ := setAllowances_fields (s := { s with mgmt := { s.mgmt with watts := w } }) hallow
  refine ⟨_, hexec, hmgmt, hmem, hset.trans (List.map_congr_left fun die _ => ?_)⟩
  exact dieAllow_eq { s.mgmt with watts := w } die

/-! ## Registers of a function (R9, R259, R328) -/

/-- A request of the host that reaches the function's registers. -/
theorem hostStep_reached {s : State} {fn : Nat} {w : Wire} (h : 6 ≤ s.mgmt.phase) (hreach : s.dev.unreachable fn w = false)
    (f : State → State) : hostStep s (fun s => if s.dev.unreachable fn w then s else f s) = .next (f s) :=
  (hostStep_ready h _).trans (congrArg Host.Outcome.next (if_neg (by rw [hreach]; decide)))

theorem hostDev_reached {s : State} {fn : Nat} {w : Wire} (h : 6 ≤ s.mgmt.phase) (hreach : s.dev.unreachable fn w = false)
    (f : Dev → Dev) : hostDev s (fun d => if d.unreachable fn w then d else f d) = .next { s with dev := f s.dev } := by
  rw [hostDev, hostStep_ready h]
  simp only [hreach, Bool.false_eq_true, if_false]

theorem writeInvctl_busy {d : Dev} {fn idx : Nat} (hidx : idx < 16) (h : (d.fn fn).inv ≠ none) :
    d.writeInvctl fn idx true = d.modFn fn fun f => { f with invIdx := idx } := by
  have hfn : (d.modFn fn fun f => { f with invIdx := idx }).fn fn = { d.fn fn with invIdx := idx } :=
    fn_modFn (f := fun f => { f with invIdx := idx }) (fun _ => rfl) d fn
  rw [Dev.writeInvctl, if_pos rfl, Nat.mod_eq_of_lt hidx, Dev.startInvalidate, hfn]
  exact if_pos (Option.isSome_iff_ne_none.mpr h)

/-- The device after GO of INVCTL: BUSY waits for these operations, and the translations that meet the range are gone. -/
def invalidating (d : Dev) (fn idx : Nat) (ids : List Nat) (c : Ctx) : Dev :=
  { (d.modFn fn fun f => { f with invIdx := idx }).modFn fn fun f => { f with inv := some ids } with
    tlb := d.tlb.filter fun e => !(e.ctx == c.n && (d.fn fn).invMeets (e.vpn * e.size / 4096) (e.size / 4096)) }

theorem writeInvctl_go {d : Dev} {fn idx : Nat} {c : Ctx} (hidx : idx < 16) (h : (d.fn fn).inv = none) (hc : d.local? fn idx = some c) :
    ∃ ids, d.writeInvctl fn idx true = invalidating d fn idx ids c := by
  have hfn : (d.modFn fn fun f => { f with invIdx := idx }).fn fn = { d.fn fn with invIdx := idx } :=
    fn_modFn (f := fun f => { f with invIdx := idx }) (fun _ => rfl) d fn
  have hlocal : (d.modFn fn fun f => { f with invIdx := idx }).local? fn idx = some c := hc
  refine ⟨(d.modFn fn fun f => { f with invIdx := idx }).concerned c.n fun page => (d.fn fn).invMeets page 1, ?_⟩
  rw [Dev.writeInvctl, if_pos rfl, Nat.mod_eq_of_lt hidx, Dev.startInvalidate, hfn]
  simp only [h, Option.isSome_none, Bool.false_eq_true, if_false, hlocal]
  rfl

theorem mem_invalidated {f : Fn} {c : Ctx} {tlb : List TlbEntry} (e : TlbEntry) :
    e ∈ tlb.filter (fun e => !(e.ctx == c.n && f.invMeets (e.vpn * e.size / 4096) (e.size / 4096))) ↔ e ∈ tlb ∧
      ¬ (e.ctx = c.n ∧ (f.invLen = 0 ∨ (f.invAddr / 4096 < e.vpn * e.size / 4096 + e.size / 4096 ∧
        e.vpn * e.size / 4096 < f.invAddr / 4096 + f.invLen))) := by
  rw [List.mem_filter]
  refine and_congr_right fun _ => ?_
  rw [Bool.not_eq_true', ← Bool.not_eq_true, Bool.and_eq_true, beq_iff_eq, Fn.invMeets, Bool.or_eq_true, beq_iff_eq, decide_eq_true_eq]

theorem invalidateDone_open {s : State} {fn : Nat} {ids : List Nat} (h : (s.dev.fn fn).inv = some ids)
    (hopen : ∃ i ∈ ids, ∃ r ∈ s.dev.remotes, r.req = i) : exec (.invalidateDone fn) s = .next s := by
  obtain ⟨i, hi, r, hr, heq⟩ := hopen
  rw [show exec (.invalidateDone fn) s = execInvalidateDone fn s from rfl, execInvalidateDone, onDev]
  simp only [h]
  refine congrArg (fun d : Dev => Host.Outcome.next { s with dev := d }) (if_pos (List.any_eq_true.mpr ⟨i, hi, ?_⟩))
  rw [Bool.or_eq_true]
  exact .inr (List.any_eq_true.mpr ⟨r, hr, beq_iff_eq.mpr heq⟩)

theorem invalidateDone_closed {s : State} {fn : Nat} {ids : List Nat} (h : (s.dev.fn fn).inv = some ids)
    (hdone : ∀ i ∈ ids, (∀ o ∈ s.dev.memops, o.id = i → o.finished = true) ∧ ∀ r ∈ s.dev.remotes, r.req ≠ i) :
    exec (.invalidateDone fn) s = .next (setFn s fn fun f => { f with inv := none }) := by
  rw [show exec (.invalidateDone fn) s = execInvalidateDone fn s from rfl, execInvalidateDone, onDev]
  simp only [h]
  refine congrArg (fun d : Dev => Host.Outcome.next { s with dev := d }) (if_neg fun hany => ?_)
  obtain ⟨i, hi, hopen⟩ := List.any_eq_true.mp hany
  obtain ⟨hops, hremotes⟩ := hdone i hi
  rw [Bool.or_eq_true, List.any_eq_true, List.any_eq_true] at hopen
  obtain ⟨o, ho, hid⟩ | ⟨r, hr, hreq⟩ := hopen
  · rw [Bool.and_eq_true, beq_iff_eq, Bool.not_eq_true'] at hid
    exact absurd (hops o ho hid.1) (by rw [hid.2]; decide)
  · exact hremotes r hr (beq_iff_eq.mp hreq)

/-! ## The management processor's registers (R363) -/

section
variable {s : State} {v : Word}

/-- IWSEL as a write of it leaves it. -/
def iwSelected (s : State) (v : Word) : Mgmt := { s.mgmt with iwcore := v.toNat / 2 ^ 32 % 1024, iwctx := v.toNat % 256 }

theorem iwselRead_still (h : 6 ≤ s.mgmt.phase) (hgo : v.getLsbD 63 = false) :
    exec (.iwselRead v) s = .next { s with mgmt := iwSelected s v } :=
  (hostStep_ready h (·.readInternal v.toNat)).trans
    (congrArg (fun m : Mgmt => Host.Outcome.next { s with mgmt := m }) (if_neg (by rw [show v.toNat.testBit 63 = false from hgo]; decide)))

theorem iwselRead_miss (h : 6 ≤ s.mgmt.phase) (hgo : v.getLsbD 63 = true)
    (hmiss : s.dev.icached (v.toNat / 2 ^ 32 % 1024) (v.toNat % 256) s.mgmt.iwaddr = none) :
    exec (.iwselRead v) s = .next { s with mgmt := { iwSelected s v with iwhit := false, iwdata := 0 } } := by
  have hgo : v.toNat.testBit 63 = true := hgo
  refine (hostStep_ready h (·.readInternal v.toNat)).trans ?_
  simp only [State.readInternal, hgo, if_true, hmiss]
  rfl

theorem iwselRead_hit (h : 6 ≤ s.mgmt.phase) (hgo : v.getLsbD 63 = true) {w : IWord}
    (hhit : s.dev.icached (v.toNat / 2 ^ 32 % 1024) (v.toNat % 256) s.mgmt.iwaddr = some w) :
    exec (.iwselRead v) s = .next { s with mgmt := { iwSelected s v with iwhit := true, iwdata := w.internal s.mgmt.iwaddr } } := by
  have hgo : v.toNat.testBit 63 = true := hgo
  refine (hostStep_ready h (·.readInternal v.toNat)).trans ?_
  simp only [State.readInternal, hgo, if_true, hhit]
  rfl

end

/-- The internal word of an instruction of class B (R88). -/
theorem internal_classB {bs : List Byte} (va : Nat) (h : (bs.head?).map (·.toNat / 64) = some 2) :
    (IWord.word bs).internal va = 1#3 ++ 0#1 ++ BitVec.ofNat 92 (leNat bs.reverse % 2 ^ 46) := by
  have hclass : (bs.head?).bind Class.ofByte = some .b := by
    cases hb : bs.head? with
    | none => rw [hb] at h; exact absurd h (by decide)
    | some x =>
      rw [hb] at h
      have hx : x.toNat / 64 = 2 := Option.some.inj h
      rw [Option.bind_some, Class.ofByte, if_neg (by omega), if_pos (by omega)]
  simp only [IWord.internal, hclass]

/-! ## Register writes (R9) -/

section
variable {s : State} {fn : Nat}

theorem regOwned_low {off : Nat} (h : off + 8 ≤ 0x1000) : regOwned fn off 8 = true := by
  have hin : off + 8 ≤ 0x10000 := by omega
  have hcmd : ¬ (off < 0x1108 ∧ 0x1000 < off + 8) := by omega
  have hmgmt : ¬ (off < 0x4200 ∧ 0x4000 < off + 8) := by omega
  simp only [regOwned, decide_eq_true hin, decide_eq_false hcmd, decide_eq_false hmgmt, Bool.or_self, Bool.not_false, Bool.or_true,
    Bool.and_self]

theorem regOwned_pf {off : Nat} (h : off + 8 ≤ 0x10000) : regOwned 0 off 8 = true := by
  simp only [regOwned, decide_eq_true h, beq_self_eq_true, Bool.true_or, Bool.and_self]

theorem regOwned_vf_cap (h : fn ≠ 0) : regOwned fn 0x4008 8 = false := by
  have hfn : (fn == 0) = false := beq_eq_false_iff_ne.mpr h
  rw [regOwned, hfn]
  decide

theorem registerWrite_eq {off : Nat} {v : Word} (h : 6 ≤ s.mgmt.phase) (hreach : s.dev.unreachable fn ⟨some fn, true⟩ = false) :
    exec (.registerWrite fn off v) s = .next (s.writeReg fn off v.toNat) := hostStep_reached h hreach fun s => s.writeReg fn off v.toNat

/-- A place of the function's own that is read-only or reserved. -/
theorem writeReg_readOnly {off v : Nat} (h : off = 0 ∨ (0x40 ≤ off ∧ off < 0x50) ∨ off = 0x128 ∨ off = 0x200 ∨ off = 0x210 ∨ off = 0x218) :
    s.writeReg fn off v = s := by
  have hlow : off + 8 ≤ 0x1000 := by omega
  have hne : off ≠ 0x100 ∧ off ≠ 0x108 ∧ off ≠ 0x110 ∧ off ≠ 0x120 ∧ off ≠ 0x208 ∧ ¬ (0x1000 ≤ off ∧ off < 0x1100) ∧ off ≠ 0x1100 ∧
      off ≠ 0x4008 ∧ off ≠ 0x4030 ∧ off ≠ 0x4038 ∧ off ≠ 0x4040 ∧ off ≠ 0x4060 := by omega
  obtain ⟨h1, h2, h3, h4, h5, h6, h7, h8, h9, h10, h11, h12⟩ := hne
  simp only [State.writeReg, regOwned_low hlow, Bool.not_true, Bool.false_eq_true, if_false, h1, h2, h3, h4, h5, h6, h7, h8, h9, h10, h11, h12]

theorem writeReg_invAddr (v : Nat) :
    s.writeReg fn 0x100 v = setFn s fn fun f => { f with invAddr := v % 2 ^ 56 / 4096 * 4096 } := by
  simp only [State.writeReg, regOwned_low (off := 0x100) (by decide)]
  rfl

theorem writeReg_invLen (v : Nat) : s.writeReg fn 0x108 v = setFn s fn fun f => { f with invLen := v % 2 ^ 36 } := by
  simp only [State.writeReg, regOwned_low (off := 0x108) (by decide)]
  rfl

theorem writeReg_event (v : Nat) :
    s.writeReg fn 0x120 v = setFn s fn fun f => { f with event := f.event &&& ~~~(BitVec.ofNat 7 v) } := by
  simp only [State.writeReg, regOwned_low (off := 0x120) (by decide)]
  rfl

theorem writeReg_invctl (v : Nat) : s.writeReg fn 0x110 v = { s with dev := s.dev.writeInvctl fn v (v.testBit 31) } := by
  simp only [State.writeReg, regOwned_low (off := 0x110) (by decide)]
  rfl

theorem writeReg_cap (v : Nat) : s.writeReg 0 0x4008 v = s.setCap (v % 4096) := by
  simp only [State.writeReg, regOwned_pf (off := 0x4008) (by decide)]
  rfl

theorem writeReg_cap_vf (h : fn ≠ 0) (v : Nat) : s.writeReg fn 0x4008 v = s := by
  simp only [State.writeReg, regOwned_vf_cap h]
  rfl

theorem writeReg_brkhalt (v : Nat) : s.writeReg 0 0x4030 v = { s with mgmt := { s.mgmt with brkhalt := v.testBit 0 } } := by
  simp only [State.writeReg, regOwned_pf (off := 0x4030) (by decide)]
  rfl

theorem writeReg_retlog (v : Nat) :
    s.writeReg 0 0x4060 v = { s with mgmt := { s.mgmt with retlog := if v.testBit 63 then none else s.mgmt.retlog } } := by
  simp only [State.writeReg, regOwned_pf (off := 0x4060) (by decide)]
  rfl

end

/-- IDX has four bits. -/
theorem writeInvctl_mod (d : Dev) (fn v : Nat) (go : Bool) : d.writeInvctl fn v go = d.writeInvctl fn (v % 16) go := by
  rw [Dev.writeInvctl, Dev.writeInvctl, Nat.mod_mod]

/-! ## The completion of a request of an outstanding operation -/

section
variable {d : Dev} {id : Nat} {o : MemOp}

theorem op?_modOp {f : MemOp → MemOp} (hf : ∀ x, (f x).id = x.id) (h : d.op? id = some o) : (d.modOp id f).op? id = some (f o) := by
  have hkeep : ∀ x : MemOp, (x.id == id) = true → ((f x).id == id) = true := fun x hx => by rw [hf]; exact hx
  exact (find?_modIf_same hkeep d.memops).trans (congrArg (Option.map f) h)

/-- A lane's state in an operation. -/
def MemOp.withLane (o : MemOp) (lane : Nat) (st : LaneSt) : MemOp :=
  { o with lanes := modIf (·.lane == lane) (fun a => { a with st := st }) o.lanes }

theorem withLane_lanes (o : MemOp) (lane : Nat) (st : LaneSt) :
    (MemOp.withLane o lane st).lanes = o.lanes.map fun b => if b.lane = lane then { b with st := st } else b := by
  simp only [MemOp.withLane, modIf, beq_iff_eq]

theorem op?_laneDone (lane : Nat) (st : LaneSt) (h : d.op? id = some o) :
    (d.laneDone id lane st).op? id = some (MemOp.withLane o lane st) := op?_modOp (f := (MemOp.withLane · lane st)) (fun _ => rfl) h

/-- An operation that comes after this one adopts a time. -/
def MemOp.after (w : MemOp) (t : Nat) (p : MemOp) : MemOp :=
  if p.wave = w.wave ∧ w.id < p.id then { p with clock := max p.clock t } else p

theorem after_id (w : MemOp) (t : Nat) (p : MemOp) : (MemOp.after w t p).id = p.id := by
  rw [MemOp.after]
  split <;> rfl

theorem after_same {w p : MemOp} (h : p.id = w.id) (t : Nat) : MemOp.after w t p = p :=
  if_neg fun hlt => lt_irrefl _ (h ▸ hlt.2)

/-- The later operations of a wave adopt a time; this one keeps what it is. -/
theorem op?_opTime {w : MemOp} (hid : w.id = id) (t : Nat) (h : d.op? id = some o) : (d.opTime w t).op? id = some o := by
  have ho : o.id = id := by simpa using List.find?_some h
  have hp : ((fun x : MemOp => x.id == id) ∘ MemOp.after w t) = fun x => x.id == id := by
    funext p
    rw [Function.comp_apply, after_id]
  refine (List.find?_map (f := MemOp.after w t)).trans ?_
  rw [hp, show d.memops.find? (fun x => x.id == id) = some o from h]
  exact congrArg some (after_same (ho.trans hid.symm) t)

theorem opTime_fields (w : MemOp) (t : Nat) :
    (d.opTime w t).remotes = d.remotes ∧ (d.opTime w t).mem = d.mem ∧ (d.opTime w t).locmem = d.locmem := ⟨rfl, rfl, rfl⟩

theorem putL1_l1 (d : Dev) (new : L1Line) : d.putL1 new = { d with l1 := (d.putL1 new).l1 } := by
  unfold Dev.putL1
  dsimp only
  split <;> rfl

/-- The bytes of a reply go to the L1 at most. -/
theorem keepReply_l1 (d : Dev) (w : MemOp) (r : Remote) (t : Nat) (bs : List Byte) :
    d.keepReply w r t bs = { d with l1 := (d.keepReply w r t bs).l1 } := by
  unfold Dev.keepReply
  split
  · split
    · exact putL1_l1 _ _
    · rfl
  · rfl
  · rfl

/-- An operation of a kind that registers wait for stays until it completes. -/
theorem settleOp_load {w : LdW} {x : VReg} (h : d.op? id = some o) (hk : o.kind = .load w x) : d.settleOp id = d := by
  have hw : o.kind.writes = false := by rw [hk]; rfl
  simp only [Dev.settleOp, h]
  split
  · rfl
  · simp only [hk]
    rw [hk] at hw
    rw [hw]
    rfl

end

section
variable {s : State} {r : Remote} {o : MemOp} {w : LdW} {x : VReg} {lane : Nat}

/-- What the completion of an outstanding load's request acts on. -/
structure AwaitedLoad (s : State) (r : Remote) (o : MemOp) (w : LdW) (x : VReg) (lane : Nat) : Prop where
  asked : r.op = some (o.id, lane)
  op : s.dev.op? o.id = some o
  kind : o.kind = .load w x
  lanes : o.whole = false

/-- The device without a request. -/
def withoutReq (d : Dev) (r : Remote) : Dev := { d with remotes := d.remotes.filter (·.req != r.req) }

theorem endRequest_done (h : AwaitedLoad s r o w x lane) (t : Nat) (bytes : List Byte) :
    ∃ l1, s.dev.endRequest r (.done t bytes) =
      ({ (withoutReq s.dev r).laneDone o.id lane (.done t bytes) with l1 := l1 } : Dev).opTime o t := by
  obtain ⟨hasked, hop, hkind, hlanes⟩ := h
  have hop' : (withoutReq s.dev r).op? o.id = some o := hop
  have hend : s.dev.endRequest r (.done t bytes) = (withoutReq s.dev r).laneReply o r lane t bytes := by
    unfold Dev.endRequest
    simp only [hasked]
    rw [show Dev.op? { s.dev with remotes := s.dev.remotes.filter (·.req != r.req) } o.id = some o from hop]
    rfl
  have hreply : (withoutReq s.dev r).laneReply o r lane t bytes =
      ((((withoutReq s.dev r).laneDone o.id lane (.done t bytes)).keepReply o r t bytes).opTime o t).settleOp o.id := by
    have hstamp : ¬ MemKind.load w x = .stamp := by simp
    simp only [Dev.laneReply, hkind, hlanes, hstamp, Bool.false_eq_true, if_false]
  obtain ⟨l1, hl1⟩ : ∃ l1, ((withoutReq s.dev r).laneDone o.id lane (.done t bytes)).keepReply o r t bytes =
      { (withoutReq s.dev r).laneDone o.id lane (.done t bytes) with l1 := l1 } := ⟨_, keepReply_l1 _ o r t bytes⟩
  refine ⟨l1, (hend.trans hreply).trans ?_⟩
  rw [hl1]
  exact settleOp_load (o := MemOp.withLane o lane (.done t bytes)) (op?_opTime rfl t (op?_laneDone lane _ hop')) hkind

theorem hostMemoryCompletion_eq (hfind : s.dev.remotes.find? (fun x => x.req == r.req && x.pkg == 1023) = some r) (ok : Bool)
    (bytes : List Byte) : exec (.hostMemoryCompletion r.req ok bytes) s =
      .next { s with dev := s.dev.endRequest r (if ok then .done r.clock bytes else .failed cXlate) } := by
  have hexec : exec (.hostMemoryCompletion r.req ok bytes) s = execHostMemoryCompletion r.req ok bytes s := rfl
  simp only [hexec, execHostMemoryCompletion, onDev, hfind]

theorem hostMemoryCompletion_done (hfind : s.dev.remotes.find? (fun x => x.req == r.req && x.pkg == 1023) = some r)
    (h : AwaitedLoad s r o w x lane) (bytes : List Byte) :
    ∃ t, exec (.hostMemoryCompletion r.req true bytes) s = .next t ∧ Performed s t o lane bytes ∧ t.dev.remotes = without s r ∧
      t.dev.mem = s.dev.mem ∧ t.dev.locmem = s.dev.locmem := by
  have hexec : exec (.hostMemoryCompletion r.req true bytes) s = .next { s with dev := s.dev.endRequest r (.done r.clock bytes) } :=
    hostMemoryCompletion_eq hfind true bytes
  obtain ⟨l1, hend⟩ := endRequest_done h r.clock bytes
  rw [hend] at hexec
  refine ⟨_, hexec, ⟨MemOp.withLane o lane (.done r.clock bytes), r.clock, ?_, rfl, withLane_lanes _ _ _⟩, opTime_fields _ _⟩
  exact op?_opTime rfl r.clock (op?_laneDone (d := withoutReq s.dev r) lane _ h.op)

theorem hostMemoryCompletion_failed (hfind : s.dev.remotes.find? (fun x => x.req == r.req && x.pkg == 1023) = some r)
    (h : AwaitedLoad s r o w x lane) (bytes : List Byte) :
    ∃ t o', exec (.hostMemoryCompletion r.req false bytes) s = .next t ∧ t.dev.op? o.id = some o' ∧ t.dev.remotes = without s r ∧
      o'.lanes = (o.lanes.map fun b => if b.lane = lane then { b with st := .failed cXlate } else b) ∧ t.dev.mem = s.dev.mem := by
  obtain ⟨hasked, hop, hkind, hlanes⟩ := h
  have hlane := op?_laneDone (d := withoutReq s.dev r) lane (.failed cXlate) hop
  have hfails : (withoutReq s.dev r).laneFails o lane cXlate = (withoutReq s.dev r).laneDone o.id lane (.failed cXlate) := by
    have hstamp : ¬ MemKind.load w x = .stamp := by simp
    simp only [Dev.laneFails, hkind, hlanes, hstamp, Bool.false_or, Bool.false_eq_true, if_false, List.foldl_cons, List.foldl_nil]
    exact settleOp_load hlane hkind
  have hend : s.dev.endRequest r (.failed cXlate) = (withoutReq s.dev r).laneDone o.id lane (.failed cXlate) := by
    rw [← hfails]
    unfold Dev.endRequest
    simp only [hasked]
    rw [show Dev.op? { s.dev with remotes := s.dev.remotes.filter (·.req != r.req) } o.id = some o from hop]
    rfl
  have hexec : exec (.hostMemoryCompletion r.req false bytes) s = .next { s with dev := s.dev.endRequest r (.failed cXlate) } :=
    hostMemoryCompletion_eq hfind false bytes
  rw [hend] at hexec
  exact ⟨_, _, hexec, hlane, rfl, withLane_lanes _ _ _, rfl⟩

end

/-! ## I/O translations (R334) -/

theorem atsRefused_idle {s : State} {fn page : Nat} (hops : s.dev.memops = []) (hjobs : s.dev.jobs = []) (hfn : fn < 64) :
    exec (.atsTranslationCompletion fn page false) s =
      .next { s with dev := { s.dev with atsAsked := s.dev.atsAsked.filter (· != (fn, page)) } } := by
  rw [show exec (.atsTranslationCompletion fn page false) s = execAtsTranslationCompletion fn page false s from rfl,
    execAtsTranslationCompletion, onDev]
  simp only [if_neg (not_le.mpr hfn), Bool.false_eq_true, if_false, Dev.failPage, Dev.faultPage, hops, hjobs, List.foldl_nil]

theorem atsGranted {s : State} {fn page : Nat} (hfn : fn < 64) :
    exec (.atsTranslationCompletion fn page true) s = .next { s with dev := { s.dev with
      ats := (fn, page) :: s.dev.ats.filter (· != (fn, page)), atsAsked := s.dev.atsAsked.filter (· != (fn, page)) } } := by
  rw [show exec (.atsTranslationCompletion fn page true) s = execAtsTranslationCompletion fn page true s from rfl,
    execAtsTranslationCompletion, onDev]
  simp only [if_neg (not_le.mpr hfn), if_true]

/-- Settles O46: the registers, the completion of a host read and the I/O translations, one lemma each. -/
theorem hostRegisters : Obligations.HostRegisters := by
  unfold Obligations.HostRegisters
  refine ⟨?_, ?_, ?_, ?_, ?_, ?_, ?_, ?_, ?_⟩
  · intro s fn idx c h hreach hidx hc lo hit
    have hexec : exec (.invalidate fn idx) s = .next { s with dev := s.dev.writeInvctl fn idx true } :=
      hostDev_reached h hreach (·.writeInvctl fn idx true)
    rw [hexec]
    constructor
    · intro hidle
      obtain ⟨ids, heq⟩ := writeInvctl_go hidx hidle hc
      rw [heq]
      have hfn : ((s.dev.modFn fn fun f => { f with invIdx := idx }).modFn fn fun f => { f with inv := some ids }).fn fn =
          { s.dev.fn fn with invIdx := idx, inv := some ids } := by
        rw [fn_modFn (f := fun f => { f with inv := some ids }) (fun _ => rfl), fn_modFn (f := fun f => { f with invIdx := idx }) (fun _ => rfl)]
      refine ⟨_, rfl, ⟨rfl, rfl, rfl, rfl, rfl, rfl⟩, ?_, congrArg Fn.invIdx hfn, fun e => mem_invalidated e⟩
      exact fun hnone => absurd ((congrArg Fn.inv hfn).symm.trans hnone) (by simp)
    · intro hbusy
      rw [writeInvctl_busy hidx hbusy]
      rfl
  · intro s fn ids h
    exact ⟨invalidateDone_closed h, invalidateDone_open h⟩
  · intro s fn bits h hreach
    exact hostDev_reached h hreach (·.clearEvent fn bits)
  · intro s w h
    refine ⟨fun hw hallow => pwrcapWrite_taken h hw hallow, fun hw => ?_⟩
    exact (hostStep_ready h (·.setCap w)).trans (congrArg Host.Outcome.next (if_neg (by omega)))
  · intro s v h core m
    refine ⟨iwselRead_still h, iwselRead_miss h, ?_, ?_⟩
    · intro hgo c off det hhit
      exact iwselRead_hit h hgo hhit
    · intro hgo bs _ hclass hhit
      rw [iwselRead_hit h hgo hhit, internal_classB _ hclass]
      rfl
  · intro s h
    exact hostStep_ready h fun s => { s with mgmt := { s.mgmt with retlog := none } }
  · intro s fn v h hreach
    have hw : ∀ off, exec (.registerWrite fn off v) s = .next (s.writeReg fn off v.toNat) := fun off => registerWrite_eq h hreach
    simp only [hw]
    refine ⟨congrArg _ (writeReg_invAddr _), congrArg _ (writeReg_invLen _), congrArg _ (writeReg_event _), ?_, ?_, ?_, ?_⟩
    · have hexec : exec (.invalidate fn (v.toNat % 16)) s = .next { s with dev := s.dev.writeInvctl fn (v.toNat % 16) true } :=
        hostDev_reached h hreach (·.writeInvctl fn (v.toNat % 16) true)
      rw [hexec, writeReg_invctl, writeInvctl_mod, show v.toNat.testBit 31 = v.getLsbD 31 from rfl]
      cases v.getLsbD 31 with
      | true => rfl
      | false => 
        rw [Dev.writeInvctl, Nat.mod_mod]
        rfl
    · rintro rfl
      refine ⟨?_, congrArg _ (writeReg_brkhalt _), ?_⟩
      · rw [writeReg_cap]
        exact (hostStep_ready h (·.setCap (v.toNat % 4096))).symm
      · rw [writeReg_retlog, show v.toNat.testBit 63 = v.getLsbD 63 from rfl]
        have hclear : exec .retlogClear s = .next { s with mgmt := { s.mgmt with retlog := none } } :=
          hostStep_ready h fun s => { s with mgmt := { s.mgmt with retlog := none } }
        rw [hclear]
        cases v.getLsbD 63 <;> rfl
    · exact fun hfn => congrArg _ (writeReg_cap_vf hfn _)
    · exact fun off hoff => congrArg _ (writeReg_readOnly hoff)
  · intro s r o w d lane bytes hfind hasked hop hkind hwhole
    have hload : AwaitedLoad s r o w d lane := ⟨hasked, hop, hkind, hwhole⟩
    exact ⟨hostMemoryCompletion_done hfind hload bytes, hostMemoryCompletion_failed hfind hload bytes⟩
  · intro s fn page n hfn
    exact ⟨atsGranted hfn, fun hops hjobs => atsRefused_idle hops hjobs hfn, rfl⟩

end Sys2Proof.Proofs
end

section
/-!
PROOFS. The commands of the physical function (12, 13: R295, R311, R316, R330, R340, R341, R347, R362).
-/

open Sys2Proof Sys2Proof.Machine Sys2Proof.Claims

-- The whole text is compiled in one process, which can hold few threads: these proofs are elaborated in order.
set_option Elab.async false

namespace Sys2Proof.Proofs

/-! ## How a command ends (R330) -/

/-- An event sets its bit, and may send an interrupt. -/
theorem setEvent_fields (d : Dev) (n b : Nat) :
    ∃ out, d.setEvent n b = { d.modFn n fun f => { f with event := f.event ||| (1#7 <<< b) } with out := out } := by
  unfold Dev.setEvent
  dsimp only
  split
  · exact ⟨_, rfl⟩
  · exact ⟨_, rfl⟩

/-- A function whose event bit is set. -/
def eventSet (b : Nat) (f : Fn) : Fn := { f with event := f.event ||| (1#7 <<< b) }

theorem setEvent_eq (d : Dev) (n b : Nat) : ∃ out, d.setEvent n b = { d.modFn n (eventSet b) with out := out } := setEvent_fields d n b

theorem fn_eventSet (d : Dev) (n b : Nat) : (d.modFn n (eventSet b)).fn n = eventSet b (d.fn n) :=
  fn_modFn (f := eventSet b) (fun _ => rfl) d n

theorem eventSet_bit {b : Nat} (hb : b < 7) (f : Fn) : (eventSet b f).event.getLsbD b = true := by
  simp [eventSet, hb]

section
variable {s : State} {d : Dev} {code st : Nat}

/-- The device after a command: CMDDONE is set, and nothing else differs but messages. -/
theorem ended_dev (s : State) (d : Dev) (code st : Nat) : ∃ out, (ended s d code st).dev = { d.modFn 0 (eventSet 0) with out := out } := by
  obtain ⟨out, h⟩ := setEvent_eq { d with out := d.out ++ [.command code st] } 0 0
  exact ⟨out, h⟩

theorem ended_ctx? (s : State) (d : Dev) (code st n : Nat) : (ended s d code st).dev.ctx? n = d.ctx? n := by
  obtain ⟨out, h⟩ := ended_dev s d code st
  rw [h]
  rfl

theorem ended_wave? (s : State) (d : Dev) (code st id : Nat) : (ended s d code st).dev.wave? id = d.wave? id := by
  obtain ⟨out, h⟩ := ended_dev s d code st
  rw [h]
  rfl

theorem ended_port (s : State) (d : Dev) (code st n : Nat) : (ended s d code st).dev.port n = d.port n := by
  obtain ⟨out, h⟩ := ended_dev s d code st
  rw [h]
  rfl

theorem ended_core (s : State) (d : Dev) (code st n : Nat) : (ended s d code st).dev.core n = d.core n := by
  obtain ⟨out, h⟩ := ended_dev s d code st
  rw [h]
  rfl

theorem ended_servers (s : State) (d : Dev) (code st : Nat) : (ended s d code st).dev.servers = d.servers := by
  obtain ⟨out, h⟩ := ended_dev s d code st
  rw [h]
  rfl

theorem did_ended (s : State) (d : Dev) (code : Nat) : Did s (ended s d code 0) code := by
  obtain ⟨out, h⟩ := ended_dev s d code 0
  refine ⟨rfl, rfl, rfl, ?_, rfl⟩
  rw [h]
  exact (congrArg (fun f : Fn => f.event.getLsbD 0) (fn_eventSet d 0 0)).trans (eventSet_bit (by decide) _)

/-- A command that may act does so with its code in CMDCTL. -/
theorem command_accepted {f : State → Except Nat State} (h : Accepts s) : command s code f =
    .next (match f { s with mgmt := { s.mgmt with cmdCode := code } } with
      | .ok t => t.endCommand code 0
      | .error e => ({ s with mgmt := { s.mgmt with cmdCode := code } } : State).endCommand code e) := by
  obtain ⟨hphase, hidle⟩ := h
  have hrun : s.mgmt.mayRun code = true := by rw [Mgmt.mayRun, hidle]; rfl
  have hcode : s.mgmt.withCode code = { s.mgmt with cmdCode := code } := if_neg (by rw [hidle]; decide)
  rw [command, hostStep_ready hphase, hrun, hcode]
  rfl

theorem command_ok {f : State → Except Nat State} {t : State} (h : Accepts s)
    (hf : f { s with mgmt := { s.mgmt with cmdCode := code } } = .ok t) : command s code f = .next (t.endCommand code 0) := by
  rw [command_accepted h, hf]

theorem command_error {f : State → Except Nat State} (h : Accepts s)
    (hf : f { s with mgmt := { s.mgmt with cmdCode := code } } = .error st) : command s code f = .next (ended s s.dev code st) := by
  rw [command_accepted h, hf]
  rfl

theorem devCommand_passes {checks : Dev → List (Bool × Nat)} {f : Dev → Dev} (h : Accepts s)
    (hc : (checks s.dev).find? (·.1) = none) : devCommand s code checks f = .next (ended s (f s.dev) code 0) := by
  refine (command_ok (t := { s with dev := f s.dev, mgmt := { s.mgmt with cmdCode := code } }) h ?_).trans rfl
  simp only [hc]

theorem devCommand_refuses {checks : Dev → List (Bool × Nat)} {f : Dev → Dev} {b : Bool} (h : Accepts s)
    (hc : (checks s.dev).find? (·.1) = some (b, st)) : devCommand s code checks f = .next (ended s s.dev code st) := by
  refine command_error h ?_
  simp only [hc]

end

/-! ## QBIND (R330, R341) -/

section
variable {s : State} {c : Ctx} {queue : Nat} (h : Accepts s) (hc : s.dev.ctx? c.n = some c) (hq : queue < 16)
  (hfree : ∀ x ∈ s.dev.colls, x.ctx = c.n → x.q ≠ queue)
include h hc hq hfree

/-- The device after a change of a queue's binding. -/
def bound (d : Dev) (ctx queue : Nat) (r : Option Comm) : Dev :=
  { d with
    triggers := d.triggers.filter fun t => !(t.ctx == ctx && t.desc.queue == queue)
    queues := (d.queues.filter fun q => !(q.ctx == ctx && q.q == queue)) ++ (r.toList.map fun r => (⟨ctx, queue, r, []⟩ : CollQueue)) }

theorem qbind_binds {r : Option Comm} (hr : r.all (commOk c) = true) :
    exec (.qbind c.n queue r) s = .next (ended s (bound s.dev c.n queue r) 5 0) := by
  change execQbind c.n queue r s = _
  refine devCommand_passes h ?_
  have hfits : (decide (16 ≤ queue) || !((s.dev.ctx? c.n).any fun c => r.all (commOk c))) = false := by
    rw [hc, Option.any_some, hr, decide_eq_false (not_le.mpr hq)]
    rfl
  have hnone : (s.dev.colls.any fun x => x.ctx == c.n && x.q == queue) = false := by
    rw [List.any_eq_false]
    intro x hx hboth
    rw [Bool.and_eq_true, beq_iff_eq, beq_iff_eq] at hboth
    exact hfree x hx hboth.1 hboth.2
  simp only [hfits, hnone, List.find?_cons, List.find?_nil]

omit h hc hq hfree in
theorem queue?_bound (d : Dev) (ctx queue : Nat) (r : Option Comm) :
    (bound d ctx queue r).queue? ctx queue = r.map fun r => ⟨ctx, queue, r, []⟩ := by
  have hgone : (d.queues.filter fun q => !(q.ctx == ctx && q.q == queue)).find? (fun x => x.ctx == ctx && x.q == queue) = none :=
    List.find?_eq_none.mpr fun x hx hp => by
      rw [List.mem_filter, hp] at hx
      exact absurd hx.2 (by decide)
  rw [Dev.queue?, bound, List.find?_append, hgone, Option.none_or]
  cases r with
  | none => rfl
  | some r => simp

omit h hc hq hfree in
theorem triggers_bound {d : Dev} {ctx queue : Nat} {r : Option Comm} {x : Trigger} (hx : x ∈ (bound d ctx queue r).triggers)
    (hctx : x.ctx = ctx) : x.desc.queue ≠ queue := by
  intro hqueue
  have hkeep := (List.mem_filter.mp hx).2
  rw [hctx, hqueue, beq_self_eq_true, beq_self_eq_true] at hkeep
  exact absurd hkeep (by decide)

theorem qbind_some {r : Comm} (hr : commOk c r = true) : ∃ t, exec (.qbind c.n queue (some r)) s = .next t ∧ Did s t 5 ∧
    t.dev.queue? c.n queue = some ⟨c.n, queue, r, []⟩ ∧ ∀ x ∈ t.dev.triggers, x.ctx = c.n → x.desc.queue ≠ queue := by
  obtain ⟨out, hdev⟩ := ended_dev s (bound s.dev c.n queue (some r)) 5 0
  refine ⟨_, qbind_binds h hc hq hfree (r := some r) hr, did_ended _ _ _, ?_⟩
  rw [hdev]
  exact ⟨queue?_bound s.dev c.n queue (some r), fun x hx => triggers_bound (r := some r) hx⟩

theorem qbind_none : ∃ t, exec (.qbind c.n queue none) s = .next t ∧ Did s t 5 ∧ t.dev.queue? c.n queue = none := by
  obtain ⟨out, hdev⟩ := ended_dev s (bound s.dev c.n queue none) 5 0
  refine ⟨_, qbind_binds h hc hq hfree (r := none) rfl, did_ended _ _ _, ?_⟩
  rw [hdev]
  exact queue?_bound s.dev c.n queue none

omit hq hfree in
theorem qbind_bad {r : Comm} (hr : commOk c r = false) : exec (.qbind c.n queue (some r)) s = .next (ended s s.dev 5 1) := by
  change execQbind c.n queue (some r) s = _
  refine devCommand_refuses (b := true) h ?_
  have hbad : (decide (16 ≤ queue) || !((s.dev.ctx? c.n).any fun c => (some r).all (commOk c))) = true := by
    rw [hc, Option.any_some, Option.all_some, hr]
    exact Bool.or_true _
  simp only [hbad, List.find?_cons]

end

/-! ## RELEASE (R316) -/

section
variable {s : State} {tgt : PreTarget}

theorem held_iff (c : Ctx) : (c.preempt.any fun p => p.target == tgt) = true ↔ c.preempt.map (·.target) = some tgt := by
  cases c.preempt with
  | none => simp
  | some p => simp

/-- The device after a target has been released. -/
def released (d : Dev) (tgt : PreTarget) : Dev :=
  let held (c : Ctx) : Bool := c.preempt.any fun p => p.target == tgt
  let ids := (d.ctxs.filter held).map (·.n)
  { d with
    ctxs := modIf held (fun c => { c with preempt := none }) d.ctxs
    blocks := modIf (fun b => ids.contains b.ctx && b.susp == some .forced) (fun b => { b with susp := none }) d.blocks }

theorem released_ctxs (d : Dev) (tgt : PreTarget) :
    (released d tgt).ctxs = d.ctxs.map fun c => if c.preempt.map (·.target) = some tgt then { c with preempt := none } else c := by
  simp only [released, modIf, held_iff]

theorem released_blocks (d : Dev) (tgt : PreTarget) : (released d tgt).blocks = d.blocks.map fun b =>
    if b.susp = some .forced ∧ ∃ c ∈ d.ctxs, c.preempt.map (·.target) = some tgt ∧ c.n = b.ctx then { b with susp := none } else b := by
  have hids : ∀ b : Block, (((d.ctxs.filter fun c => c.preempt.any fun p => p.target == tgt).map (·.n)).contains b.ctx &&
      b.susp == some .forced) = true ↔
      b.susp = some .forced ∧ ∃ c ∈ d.ctxs, c.preempt.map (·.target) = some tgt ∧ c.n = b.ctx := by
    intro b
    simp only [Bool.and_eq_true, List.contains_iff_mem, List.mem_map, List.mem_filter, held_iff, beq_iff_eq, and_assoc]
    exact and_comm
  simp only [released, modIf, hids]

theorem release_held (h : Accepts s) (hheld : ∃ c ∈ s.dev.ctxs, ∃ p, c.preempt = some p ∧ p.target = tgt) :
    exec (.release tgt) s = .next (ended s (released s.dev tgt) 7 0) := by
  obtain ⟨c, hc, p, hp, ht⟩ := hheld
  have hany : (s.dev.ctxs.any fun c => c.preempt.any fun p => p.target == tgt) = true :=
    List.any_eq_true.mpr ⟨c, hc, by rw [hp, Option.any_some, beq_iff_eq]; exact ht⟩
  change execRelease tgt s = _
  simp only [execRelease]
  refine devCommand_passes h ?_
  simp only [hany, Bool.not_true, List.find?_cons, List.find?_nil]

theorem release_nothing (h : Accepts s) (hnone : ∀ c ∈ s.dev.ctxs, ∀ p, c.preempt = some p → p.target ≠ tgt) :
    exec (.release tgt) s = .next (ended s s.dev 7 1) := by
  have hany : (s.dev.ctxs.any fun c => c.preempt.any fun p => p.target == tgt) = false := by
    rw [List.any_eq_false]
    intro c hc hp
    obtain ⟨p, hp, ht⟩ := (Option.any_eq_true _ _).mp hp
    exact hnone c hc p hp (beq_iff_eq.mp ht)
  change execRelease tgt s = _
  simp only [execRelease]
  refine devCommand_refuses (b := true) h ?_
  simp only [hany, Bool.not_false, List.find?_cons]

end


/-! ## PARTSET (R340) -/

section
variable {s : State}

theorem port_modPort {f : Port → Port} (hf : ∀ x, (f x).n = x.n) (d : Dev) (n : Nat) : (d.modPort n f).port n = f (d.port n) := by
  have hkeep : ∀ x : Port, (x.n == n) = true → ((f x).n == n) = true := fun x hx => by rw [hf]; exact hx
  rw [Dev.port, Dev.modPort, find?_upsert_same hkeep (hkeep _ (beq_self_eq_true n))]
  rfl

theorem port_modPort_other {f : Port → Port} (hf : ∀ x, (f x).n = x.n) (d : Dev) {n k : Nat} (h : k ≠ n) :
    (d.modPort n f).port k = d.port k := by
  have hne : ∀ x : Port, (x.n == n) = true → (x.n == k) = false := fun x hx => by
    rw [beq_iff_eq] at hx
    rw [hx, beq_eq_false_iff_ne]
    exact Ne.symm h
  have hkeep : ∀ x : Port, (x.n == n) = true → (x.n == k) = false ∧ ((f x).n == k) = false :=
    fun x hx => ⟨hne x hx, by rw [hf]; exact hne x hx⟩
  rw [Dev.port, Dev.modPort, find?_upsert_other hkeep (hkeep _ (beq_self_eq_true n)).2]
  rfl

theorem partset_port {port : Nat} {allowed : List Nat} (h : Accepts s) (hport : port < 128) (hall : ∀ a ∈ allowed, a < 4096) :
    ∃ t, exec (.partset (.port port allowed)) s = .next t ∧ Did s t 9 ∧
      (∀ a, a ∈ (t.dev.port port).allowed ↔ a ∈ allowed) ∧ ∀ n, n ≠ port → t.dev.port n = s.dev.port n := by
  have hexec : exec (.partset (.port port allowed)) s =
      .next (ended s (s.dev.modPort port fun x => { x with allowed := allowed.eraseDups }) 9 0) := by
    change execPartset (.port port allowed) s = _
    simp only [execPartset]
    refine devCommand_passes h ?_
    have hbad : (decide (128 ≤ port) || allowed.any (4096 ≤ ·)) = false := by
      rw [decide_eq_false (not_le.mpr hport), Bool.false_or, List.any_eq_false]
      exact fun a ha hle => absurd (hall a ha) (not_lt.mpr (of_decide_eq_true hle))
    simp only [hbad, List.find?_cons, List.find?_nil]
  refine ⟨_, hexec, did_ended _ _ _, ?_, ?_⟩
  · intro a
    rw [ended_port, port_modPort (f := fun x => { x with allowed := allowed.eraseDups }) (fun _ => rfl) s.dev port]
    exact List.mem_eraseDups
  · intro n hn
    rw [ended_port]
    exact port_modPort_other (f := fun x => { x with allowed := allowed.eraseDups }) (fun _ => rfl) s.dev hn

theorem partset_tag {tag : Nat} {c : Ctx} (h : Accepts s) (htag : tag < 4096) (hfree : s.dev.homeOf tag = none)
    (hc : s.dev.ctx? c.n = some c) (hptag : c.ptag = tag) (hopen : (s.dev.fn c.fn).tdisp = .unlocked) :
    ∃ t, exec (.partset (.tag tag (some c.n))) s = .next t ∧ Did s t 9 ∧ t.dev.homeOf tag = some c := by
  have hexec : exec (.partset (.tag tag (some c.n))) s =
      .next (ended s { s.dev with tagHomes := assocPut s.dev.tagHomes tag c.n } 9 0) := by
    change execPartset (.tag tag (some c.n)) s = _
    simp only [execPartset]
    refine devCommand_passes h ?_
    have hbad : (decide (4096 ≤ tag) || !(s.dev.ctx? c.n).any (·.ptag == tag)) = false := by
      rw [decide_eq_false (not_le.mpr htag), hc, Option.any_some, beq_iff_eq.mpr hptag]
      rfl
    have hlocked : ((s.dev.homeOf tag).any (fun c => s.dev.locked c.fn) || s.dev.ctxLocked c.n) = false := by
      rw [hfree, Dev.ctxLocked, hc, Option.any_some, Dev.locked, hopen]
      rfl
    simp only [hbad, hlocked, List.find?_cons, List.find?_nil]
  obtain ⟨out, hdev⟩ := ended_dev s { s.dev with tagHomes := assocPut s.dev.tagHomes tag c.n } 9 0
  refine ⟨_, hexec, did_ended _ _ _, ?_⟩
  rw [hdev]
  have hput : ((assocPut s.dev.tagHomes tag c.n).find? (·.1 == tag)).map (·.2) = some c.n := by rw [find?_assocPut_same]; rfl
  exact (congrArg (Option.bind · s.dev.ctx?) hput).trans hc

theorem partset_untag {tag : Nat} {c : Ctx} (h : Accepts s) (htag : tag < 4096) (hhome : s.dev.homeOf tag = some c)
    (hopen : (s.dev.fn c.fn).tdisp = .unlocked) :
    ∃ t, exec (.partset (.tag tag none)) s = .next t ∧ Did s t 9 ∧ t.dev.homeOf tag = none := by
  have hexec : exec (.partset (.tag tag none)) s =
      .next (ended s { s.dev with tagHomes := s.dev.tagHomes.filter (·.1 != tag) } 9 0) := by
    change execPartset (.tag tag none) s = _
    simp only [execPartset]
    refine devCommand_passes h ?_
    have hlocked : ((s.dev.homeOf tag).any fun c => s.dev.locked c.fn) = false := by
      rw [hhome, Option.any_some, Dev.locked, hopen]
      rfl
    simp only [decide_eq_false (not_le.mpr htag), hlocked, List.find?_cons, List.find?_nil]
  obtain ⟨out, hdev⟩ := ended_dev s { s.dev with tagHomes := s.dev.tagHomes.filter (·.1 != tag) } 9 0
  refine ⟨_, hexec, did_ended _ _ _, ?_⟩
  rw [hdev]
  have hnone : ((s.dev.tagHomes.filter (·.1 != tag)).find? (·.1 == tag)) = none :=
    List.find?_eq_none.mpr fun x hx hp => by
      rw [List.mem_filter, bne, hp] at hx
      exact absurd hx.2 (by decide)
  exact congrArg (fun o : Option (Nat × Nat) => (o.map (·.2)).bind s.dev.ctx?) hnone

end

/-! ## RETIRE and LOGSET (R347, R362) -/

section
variable {s : State}

theorem core_modCore {f : Core → Core} (hf : ∀ x, (f x).n = x.n) (d : Dev) (n : Nat) : (d.modCore n f).core n = f (d.core n) := by
  have hkeep : ∀ x : Core, (x.n == n) = true → ((f x).n == n) = true := fun x hx => by rw [hf]; exact hx
  rw [Dev.core, Dev.modCore, find?_upsert_same hkeep (hkeep _ (beq_self_eq_true n))]
  rfl

theorem core_modCore_other {f : Core → Core} (hf : ∀ x, (f x).n = x.n) (d : Dev) {n k : Nat} (h : k ≠ n) :
    (d.modCore n f).core k = d.core k := by
  have hne : ∀ x : Core, (x.n == n) = true → (x.n == k) = false := fun x hx => by
    rw [beq_iff_eq] at hx
    rw [hx, beq_eq_false_iff_ne]
    exact Ne.symm h
  have hkeep : ∀ x : Core, (x.n == n) = true → (x.n == k) = false ∧ ((f x).n == k) = false :=
    fun x hx => ⟨hne x hx, by rw [hf]; exact hne x hx⟩
  rw [Dev.core, Dev.modCore, find?_upsert_other hkeep (hkeep _ (beq_self_eq_true n)).2]
  rfl

/-- RETIRE with the checks of what it names left out. -/
theorem retire_taken {a : RetireArgs} {d : Dev} (h : Accepts s)
    (hgood : (match a with
      | .core n => decide (896 ≤ n) || !(s.dev.core n).mapped
      | .channel n => decide (152 ≤ n) || s.mgmt.retiredChannels.contains n) = false)
    (hd : (match a with | .core n => s.dev.modCore n fun c => { c with retired := true } | .channel _ => s.dev) = d) :
    exec (.retire a) s = .next { s with
      dev := d, mgmt := { s.mgmt with cmdBusy := true, cmdGo := none, cmdCode := 10, retiring := [a] } } := by
  obtain ⟨hphase, hidle⟩ := h
  have hrun : s.mgmt.mayRun 10 = true := by rw [Mgmt.mayRun, hidle]; rfl
  have hcode : s.mgmt.withCode 10 = { s.mgmt with cmdCode := 10 } := if_neg (by rw [hidle]; decide)
  change execRetire a s = _
  subst hd
  rw [execRetire, hostStep_ready hphase]
  cases a <;> simp only [hrun, hgood, hcode, Bool.not_true, Bool.false_eq_true, if_false]

theorem retire_core {n : Nat} (h : Accepts s) (hn : n < 896) (hmapped : (s.dev.core n).mapped = true) :
    ∃ t, exec (.retire (.core n)) s = .next t ∧ (t.dev.core n).retired = true ∧ t.mgmt = { s.mgmt with
      cmdBusy := true, cmdGo := none, cmdCode := 10, retiring := [.core n] } ∧ t.dev.coreOpen n = false ∧ t.dev.mem = s.dev.mem ∧
      t.dev.waves = s.dev.waves := by
  have hgood : (decide (896 ≤ n) || !(s.dev.core n).mapped) = false := by rw [hmapped, decide_eq_false (not_le.mpr hn)]; rfl
  have hcore := core_modCore (f := fun c => { c with retired := true }) (fun _ => rfl) s.dev n
  refine ⟨_, retire_taken (a := .core n) h hgood rfl, congrArg Core.retired hcore, rfl, ?_, rfl, rfl⟩
  simp only [Dev.coreOpen, Dev.coreUsable, hcore, Bool.not_true, Bool.and_false, Bool.false_and]

theorem retire_channel {n : Nat} (h : Accepts s) (hn : n < 152) (hnew : n ∉ s.mgmt.retiredChannels) :
    exec (.retire (.channel n)) s =
      .next { s with mgmt := { s.mgmt with cmdBusy := true, cmdGo := none, cmdCode := 10, retiring := [.channel n] } } := by
  refine retire_taken (a := .channel n) h ?_ rfl
  have hout : s.mgmt.retiredChannels.contains n = false := by
    rw [← Bool.not_eq_true, List.contains_iff_mem]
    exact hnew
  simp only [hout, decide_eq_false (not_le.mpr hn), Bool.or_self]

theorem logset_sets {fn iova : Nat} (h : Accepts s) (hfn : fn < 64) : ∃ t, exec (.logset fn iova) s = .next t ∧ Did s t 11 ∧
    Apart s { t with mgmt := s.mgmt } ∧ (t.dev.fn fn).log = (if iova = 0 then none else some ⟨iova, [], false, 0, 0, 0⟩) := by
  let f (x : Fn) : Fn := { x with log := if iova = 0 then none else some ⟨iova, [], false, 0, 0, 0⟩ }
  have hexec : exec (.logset fn iova) s = .next (ended s (s.dev.modFn fn f) 11 0) := by
    change execLogset fn iova s = _
    refine devCommand_passes h ?_
    simp only [decide_eq_false (not_le.mpr hfn), List.find?_cons, List.find?_nil]
  obtain ⟨out, hdev⟩ := ended_dev s (s.dev.modFn fn f) 11 0
  refine ⟨_, hexec, did_ended _ _ _, ?_, ?_⟩
  · rw [Apart, hdev]
    exact ⟨rfl, rfl, rfl, rfl, rfl, rfl⟩
  · rw [hdev]
    have hlog : ((s.dev.modFn fn f).fn fn).log = (if iova = 0 then none else some ⟨iova, [], false, 0, 0, 0⟩) :=
      congrArg Fn.log (fn_modFn (f := f) (fun _ => rfl) s.dev fn)
    by_cases h0 : fn = 0
    · subst h0
      exact (congrArg Fn.log (fn_eventSet (s.dev.modFn 0 f) 0 0)).trans hlog
    · exact (congrArg Fn.log (fn_modFn_other (f := eventSet 0) (fun _ => rfl) (s.dev.modFn fn f) h0)).trans hlog

end


/-! ## Signals that set a bit only (R304, Table 11-1) -/

/-- Only waves differ, and each wave is found again with its strands' state, its block and what bits it had. -/
structure Signalled (d e : Dev) : Prop where
  rest : e = { d with waves := e.waves }
  wave : ∀ {id w}, d.wave? id = some w → ∃ v, e.wave? id = some v ∧ v.live = w.live ∧ v.block = w.block ∧
    ∀ i, w.cause.getLsbD i = true → v.cause.getLsbD i = true

namespace Signalled

theorem refl (d : Dev) : Signalled d d := ⟨rfl, fun hw => ⟨_, hw, rfl, rfl, fun _ h => h⟩⟩

theorem trans {d e f : Dev} (h : Signalled d e) (g : Signalled e f) : Signalled d f := by
  refine ⟨by rw [g.rest, h.rest], fun hw => ?_⟩
  obtain ⟨v, hv, hlive, hblock, hbits⟩ := h.wave hw
  obtain ⟨u, hu, ulive, ublock, ubits⟩ := g.wave hv
  exact ⟨u, hu, ulive.trans hlive, ublock.trans hblock, fun i hi => ubits i (hbits i hi)⟩

theorem modWave {id : Nat} {f : Wave → Wave} (hid : ∀ w, (f w).id = w.id) (hlive : ∀ w, (f w).live = w.live)
    (hblock : ∀ w, (f w).block = w.block) (hbits : ∀ w i, w.cause.getLsbD i = true → (f w).cause.getLsbD i = true) (d : Dev) :
    Signalled d (d.modWave id f) := by
  refine ⟨rfl, fun {j w} hw => ?_⟩
  have hf := wave?_modWave d id j f hid
  rw [hw, Option.map_some] at hf
  by_cases hj : (w.id == id) = true
  · rw [if_pos hj] at hf
    exact ⟨f w, hf, hlive w, hblock w, hbits w⟩
  · rw [if_neg hj] at hf
    exact ⟨w, hf, rfl, rfl, fun _ h => h⟩

theorem setCause (d : Dev) (id c : Nat) : Signalled d (d.modWave id (·.setCause c)) :=
  modWave (f := (·.setCause c)) (fun _ => rfl) (fun _ => rfl) (fun _ => rfl) (fun w i hi => by simp [Wave.setCause, hi]) d

theorem raiseAsync {c : Nat} (hc : noHandler c = .bitOnly) (d : Dev) (id : Nat) : Signalled d (d.raiseAsync id c) := by
  unfold Dev.raiseAsync
  cases d.wave? id with
  | none => exact refl d
  | some w =>
    simp only [hc]
    split
    · exact refl d
    · have hset := setCause d id c
      split
      · exact hset
      · split
        · exact hset.trans (modWave (f := fun w => { w with entry := true }) (fun _ => rfl) (fun _ => rfl) (fun _ => rfl) (fun _ _ h => h) _)
        · exact hset

theorem foldl {α : Type} {f : Dev → α → Dev} (hf : ∀ d a, Signalled d (f d a)) (l : List α) (d : Dev) : Signalled d (l.foldl f d) := by
  induction l generalizing d with
  | nil => exact refl d
  | cons a l ih => exact (hf d a).trans (ih _)

theorem raiseBlock {c : Nat} (hc : noHandler c = .bitOnly) (d : Dev) (b : Nat) : Signalled d (d.raiseBlock b c) :=
  foldl (f := fun d (w : Wave) => d.raiseAsync w.id c) (fun d w => raiseAsync hc d w.id) _ d

end Signalled

/-- A live wave has the bit after a signal. -/
theorem raiseAsync_bit {d : Dev} {w : Wave} {id c : Nat} (hc : noHandler c = .bitOnly) (h64 : c < 64) (hw : d.wave? id = some w)
    (hlive : w.live = true) : ∃ v, (d.raiseAsync id c).wave? id = some v ∧ v.cause.getLsbD c = true := by
  have hset : (d.modWave id (·.setCause c)).wave? id = some (w.setCause c) := wave?_modWave_self (fun _ => rfl) hw
  have hbit : (w.setCause c).cause.getLsbD c = true := by simp [Wave.setCause, h64]
  unfold Dev.raiseAsync
  simp only [hw, hlive, hc, Bool.not_true, Bool.false_eq_true, if_false]
  split
  · exact ⟨_, hset, hbit⟩
  · split
    · exact ⟨_, wave?_modWave_self (f := fun w => { w with entry := true }) (fun _ => rfl) hset, hbit⟩
    · exact ⟨_, hset, hbit⟩

/-- A fold of signals reaches each element's wave. -/
theorem foldl_told {α : Type} {f : Dev → α → Dev} {c id : Nat} (hf : ∀ d a, Signalled d (f d a)) {a : α} {l : List α} (ha : a ∈ l)
    {d : Dev} {w : Wave} (hw : d.wave? id = some w) {block : Nat} (hblock : w.block = block) (hlive : w.live = true)
    (htell : ∀ d w, d.wave? id = some w → w.block = block → w.live = true →
      ∃ v, (f d a).wave? id = some v ∧ v.cause.getLsbD c = true) :
    ∃ v, (l.foldl f d).wave? id = some v ∧ v.cause.getLsbD c = true := by
  induction l generalizing d w with
  | nil => exact absurd ha List.not_mem_nil
  | cons x l ih =>
    rw [List.foldl_cons]
    rcases List.mem_cons.mp ha with rfl | ha
    · obtain ⟨v, hv, hbit⟩ := htell d w hw hblock hlive
      obtain ⟨u, hu, -, -, hbits⟩ := (Signalled.foldl hf l (f d a)).wave hv
      exact ⟨u, hu, hbits c hbit⟩
    · obtain ⟨v, hv, hvlive, hvblock, -⟩ := (hf d x).wave hw
      exact ih ha hv (hvblock.trans hblock) (hvlive.trans hlive)

/-- A cause raised in a block reaches each live wave of it. -/
theorem raiseBlock_told {d : Dev} {w : Wave} {id c : Nat} (hc : noHandler c = .bitOnly) (h64 : c < 64) (hw : d.wave? id = some w)
    (hlive : w.live = true) : ∃ v, (d.raiseBlock w.block c).wave? id = some v ∧ v.cause.getLsbD c = true := by
  have hid : w.id = id := by simpa using List.find?_some hw
  have hmem : w ∈ d.liveWaves w.block :=
    List.mem_filter.mpr ⟨List.mem_filter.mpr ⟨List.mem_of_find?_eq_some hw, beq_self_eq_true _⟩, hlive⟩
  refine foldl_told (fun d w => Signalled.raiseAsync hc d w.id) hmem hw rfl hlive fun d v hv _ hvlive => ?_
  rw [hid]
  exact raiseAsync_bit hc h64 hv hvlive

/-! ## Words that the device owes a context's memory -/

/-- A device is another but for what its own writes to memory bring about. -/
structure Served (d e : Dev) : Prop where
  rest : e = { d with
    waves := e.waves, watches := e.watches, l1 := e.l1, fns := e.fns, out := e.out, nextId := e.nextId, queues := e.queues
    colls := e.colls, jobs := e.jobs, triggers := e.triggers, llc := e.llc, mt := e.mt, xfers := e.xfers, tlb := e.tlb
    loclines := e.loclines, free := e.free, mem := e.mem, sectors := e.sectors, locmem := e.locmem, poison := e.poison
    owed := e.owed, remotes := e.remotes }
  waves : e.waves.map calm = d.waves.map calm

namespace Served

theorem refl (d : Dev) : Served d d := ⟨rfl, rfl⟩

theorem trans {d e f : Dev} (h : Served d e) (g : Served e f) : Served d f := by
  obtain ⟨h, hw⟩ := h
  obtain ⟨g, gw⟩ := g
  refine ⟨?_, gw.trans hw⟩
  rw [g, h]

theorem of_rest {d e : Dev} (h : e = { d with
    mem := e.mem, sectors := e.sectors, locmem := e.locmem, poison := e.poison, owed := e.owed, remotes := e.remotes
    nextId := e.nextId }) : Served d e := ⟨by rw [h], by rw [h]⟩

theorem of_aside {d e : Dev} (h : Aside d e) : Served d e := ⟨by rw [h.rest], h.waves⟩

theorem putGlob {d e : Dev} {slot a : Nat} {bs : List Byte} (h : d.putGlob slot a bs = some e) : Served d e := by
  rw [Dev.putGlob] at h
  split at h
  · cases h
    exact of_rest rfl
  · exact absurd h (by simp)

theorem putLoc (d : Dev) (core : Nat) (sp : Space) (a : Nat) (bs : List Byte) : Served d (d.putLoc core sp a bs) := of_rest rfl

theorem homeWrite (d : Dev) (ctx : Nat) (core : Option Nat) (device : Bool) (loc : Loc) (c : Nat) (f : Nat → List Byte) :
    Served d (d.homeWrite ctx core device loc c f).1 := by
  cases loc with
  | glob pa =>
    have htouch : Served d (d.touchLine ctx pa ctx) := of_aside (.touchLine d ctx pa ctx)
    simp only [Dev.homeWrite]
    split
    next => exact htouch
    next e hput => exact (htouch.trans (putGlob hput)).trans (of_aside ((Aside.setLine _ _ _).trans (.afterWrite _ _ _ _ _ _ _)))
  | loc core sp a => exact (putLoc d core sp a _).trans (of_aside (.setLoc _ core sp a _ _))
  | remote pkg pa => exact refl d
  | host a => exact refl d

theorem homeRmw (d : Dev) (ctx : Nat) (core : Option Nat) (device : Bool) (loc : Loc) (n c : Nat) (f : Nat → List Byte → List Byte) :
    Served d (d.homeRmw ctx core device loc n c f).1 := by
  cases loc with
  | glob pa =>
    have htouch : Served d (d.touchLine ctx pa ctx) := of_aside (.touchLine d ctx pa ctx)
    simp only [Dev.homeRmw]
    split
    · split
      next => exact htouch
      next e hput => exact (htouch.trans (putGlob hput)).trans (of_aside ((Aside.setLine _ _ _).trans (.afterWrite _ _ _ _ _ _ _)))
    · exact htouch
  | loc core sp a =>
    simp only [Dev.homeRmw]
    split
    · exact (putLoc d core sp a _).trans (of_aside (.setLoc _ core sp a _ _))
    · exact refl d
  | remote pkg pa => exact refl d
  | host a => exact refl d

theorem payAt (d : Dev) (o : Owed) (l : Loc) : Served d (d.payAt o l).1 := by
  cases l with
  | remote pkg pa => exact of_rest rfl
  | glob | loc | host =>
    simp only [Dev.payAt]
    split
    · exact homeRmw d _ _ _ _ _ _ _
    · exact homeWrite d _ _ _ _ _ _

theorem looked (d : Dev) (core : Nat) (c : Ctx) (va : Nat) : Served d (d.looked core c va) := of_aside (.of_cachedDev (.looked d core c va))

theorem payOne (d : Dev) (o : Owed) : Served d (d.payOne o).1 := by
  simp only [Dev.payOne]
  split
  · exact refl d
  · split
    · exact refl d
    · split
      · exact looked d _ _ _
      · exact (payAt d o _).trans (looked _ _ _ _)

theorem pay (ctx n : Nat) (d : Dev) : Served d (Dev.pay ctx n d) := by
  induction n generalizing d with
  | zero => exact refl d
  | succ n ih =>
    simp only [Dev.pay]
    split
    · exact refl d
    next o _ =>
      have hpay := payOne d o
      split
      · exact refl d
      · split
        next e t he =>
          rw [he] at hpay
          exact (hpay.trans (of_rest (e := { e with owed := paid ctx t e.owed }) rfl)).trans (ih _)
        next e he =>
          rw [he] at hpay
          exact hpay

theorem owe (d : Dev) (ctx : Nat) (l : List (Nat × Nat × OwedWrite)) : Served d (d.owe ctx l) :=
  (of_rest rfl).trans (pay ctx _ _)

theorem foldl {α : Type} {f : Dev → α → Dev} (hf : ∀ d a, Served d (f d a)) (l : List α) (d : Dev) : Served d (l.foldl f d) := by
  induction l generalizing d with
  | nil => exact refl d
  | cons a l ih => exact (hf d a).trans (ih _)

section
variable {d e : Dev} (h : Served d e)
include h

theorem blocks : e.blocks = d.blocks := by rw [h.rest]
theorem ctxs : e.ctxs = d.ctxs := by rw [h.rest]
theorem clock : e.clock = d.clock := by rw [h.rest]

/-- A wave is found again, but for its monitors. -/
theorem wave? {id : Nat} {w : Wave} (hw : d.wave? id = some w) : ∃ y, e.wave? id = some y ∧ calm y = calm w := by
  have hmap := congrArg (List.find? fun x : Wave => x.id == id) h.waves
  simp only [List.find?_map] at hmap
  have hcomp : ((fun x : Wave => x.id == id) ∘ calm) = fun x => x.id == id := rfl
  rw [hcomp] at hmap
  rw [show d.waves.find? (fun x => x.id == id) = some w from hw] at hmap
  obtain ⟨y, hy, hyw⟩ := Option.map_eq_some_iff.mp hmap
  exact ⟨y, hy, hyw⟩

end

end Served

/-- Waves that differ in their monitors are alike in their strands' state, block and causes. -/
theorem live_of_calm {v w : Wave} (h : calm v = calm w) : v.live = w.live := by
  have hcalm : ∀ x : Wave, (calm x).live = x.live := fun x => by
    simp only [Wave.live, calm, List.any_map]
    rfl
  rw [← hcalm v, h, hcalm]

theorem block_of_calm {v w : Wave} (h : calm v = calm w) : v.block = w.block :=
  (congrArg Wave.block h : (calm v).block = (calm w).block)

/-! ## PREEMPT (R311) -/

section
variable {d : Dev} {n : Nat} {p : Preempt} {area : Nat}

/-- The device once a context's notice has begun and the words of its save area's header are owed. -/
def noticed (d : Dev) (n : Nat) (p : Preempt) (area : Nat) : Dev :=
  (d.modCtx n fun c => { c with preempt := some p }).openArea n area

/-- PREEMPT raised in the blocks of a context that are not resident. -/
def raisedIn (d : Dev) (n : Nat) : Dev :=
  (d.blocks.filter fun b => [n].contains b.ctx && !b.resident).foldl (fun d b => d.raiseBlock b.id cPreempt) d

theorem served_noticed (d : Dev) (n : Nat) (p : Preempt) (area : Nat) :
    Served (d.modCtx n fun c => { c with preempt := some p }) (noticed d n p area) := Served.owe _ _ _

theorem signalled_raisedIn (d : Dev) (n : Nat) : Signalled d (raisedIn d n) :=
  Signalled.foldl (fun d (b : Block) => Signalled.raiseBlock rfl d b.id) _ d

theorem ctx?_of_ctxs {d e : Dev} (h : e.ctxs = d.ctxs) (n : Nat) : e.ctx? n = d.ctx? n := by rw [Dev.ctx?, Dev.ctx?, h]

/-- The function hears of a pre-emption at most once; the notice stays what it is besides. -/
theorem tellPreempt_keeps {c : Ctx} (hc : d.ctx? n = some c) (hp : c.preempt = some p) :
    (d.tellPreempt n).waves = d.waves ∧ ∃ b, ((d.tellPreempt n).ctx? n).bind (·.preempt) = some { p with told := b } := by
  have hbind : (d.ctx? n).bind (·.preempt) = some p := by rw [hc]; exact hp
  have hstill : ∃ b, (d.ctx? n).bind (·.preempt) = some { p with told := b } := ⟨p.told, hbind⟩
  unfold Dev.tellPreempt
  simp only [hbind]
  split
  · exact ⟨rfl, hstill⟩
  · generalize hl : modIf _ _ d.ctxs = l
    obtain ⟨out, hout⟩ := setEvent_eq { d with ctxs := l } 0 2
    rw [hout]
    refine ⟨rfl, ?_⟩
    have hfind := find_modIf
      (fun x : Ctx => (d.ctxs.filter fun c => c.preempt.any fun q => q.target == p.target).any (·.n == x.n)) (fun x : Ctx => x.n == n)
      (fun c : Ctx => { c with preempt := c.preempt.map fun q => { q with told := true } }) (fun _ => rfl) d.ctxs
    rw [hl, show d.ctxs.find? (fun x => x.n == n) = some c from hc, Option.map_some] at hfind
    change ∃ b, (l.find? (fun x => x.n == n)).bind (·.preempt) = _
    rw [hfind]
    split
    · exact ⟨true, by simp [hp]⟩
    · exact ⟨p.told, hp⟩

variable {s : State} {c : Ctx} {budget len : Nat}

/-- What PREEMPT leaves of the device. -/
def preempted (d : Dev) (n : Nat) (p : Preempt) (area : Nat) : Dev := (raisedIn (noticed d n p area) n).tellPreempt n

theorem preempt_taken (h : Accepts s) (hone : s.dev.ctxs.filter (·.n == c.n) = [c]) (hfree : c.preempt = none) (hrun : c.stopped = false)
    (hpos : 0 < budget) (hmax : budget ≤ 2 ^ 24) (harea : area % 256 = 0) (hlen : 256 ≤ len) (hend : area + len ≤ 2 ^ 56) :
    exec (.preempt (.ctx c.n) budget area len) s =
      .next (ended s (preempted s.dev c.n ⟨s.dev.clock + budget, area, len, 0, 256, 0, .ctx c.n, false⟩ area) 6 0) := by
  have htargets : s.dev.targets (.ctx c.n) = [c] := hone
  have hbad : ¬ (budget = 0 ∨ 2 ^ 24 < budget ∨ area % 256 ≠ 0 ∨ len < 256 ∨ 2 ^ 56 < area + len) := by omega
  change execPreempt (.ctx c.n) budget area len s = _
  refine (devCommand_passes h ?_).trans ?_
  · simp only [htargets, decide_eq_false hbad, List.isEmpty_cons, Bool.or_self, List.any_cons, List.any_nil, hfree, hrun,
      Option.isSome_none, List.find?_cons, List.find?_nil]
  · simp only [htargets, List.map_cons, List.map_nil, List.foldl_cons, List.foldl_nil]
    rfl

theorem preempt_notice (h : Accepts s) (hone : s.dev.ctxs.filter (·.n == c.n) = [c]) (hc : s.dev.ctx? c.n = some c)
    (hfree : c.preempt = none) (hrun : c.stopped = false) (hpos : 0 < budget) (hmax : budget ≤ 2 ^ 24) (harea : area % 256 = 0)
    (hlen : 256 ≤ len) (hend : area + len ≤ 2 ^ 56) :
    ∃ t p, exec (.preempt (.ctx c.n) budget area len) s = .next t ∧ Did s t 6 ∧ (t.dev.ctx? c.n).bind (·.preempt) = some p ∧
      p.ends = s.dev.clock + budget ∧ p.area = area ∧ p.len = len ∧ p.count = 0 ∧ p.next = 256 ∧ p.failed = 0 ∧
      p.target = .ctx c.n ∧ ∀ id w b, s.dev.wave? id = some w → s.dev.block? w.block = some b → b.id = w.block → b.ctx = c.n →
        b.resident = false → w.live = true → Told t id cPreempt := by
  have hexec := preempt_taken (area := area) h hone hfree hrun hpos hmax harea hlen hend
  generalize hp : (⟨s.dev.clock + budget, area, len, 0, 256, 0, .ctx c.n, false⟩ : Preempt) = p at hexec
  have hserved := served_noticed s.dev c.n p area
  have hsignalled := signalled_raisedIn (noticed s.dev c.n p area) c.n
  have hctx : (raisedIn (noticed s.dev c.n p area) c.n).ctx? c.n = some { c with preempt := some p } := by
    rw [ctx?_of_ctxs (by rw [hsignalled.rest] : _ = (noticed s.dev c.n p area).ctxs), ctx?_of_ctxs hserved.ctxs]
    exact ctx?_modCtx (f := fun c => { c with preempt := some p }) (fun _ => rfl) hc
  obtain ⟨hwaves, b, hpre⟩ := tellPreempt_keeps hctx rfl
  refine ⟨_, { p with told := b }, hexec, did_ended _ _ _, ?_, ?_⟩
  · rw [ended_ctx?]
    exact hpre
  refine ⟨by rw [← hp], by rw [← hp], by rw [← hp], by rw [← hp], by rw [← hp], by rw [← hp], by rw [← hp], fun id w blk hw hblk hid hmine hres hlive => ?_⟩
  obtain ⟨y, hy, hcalm⟩ := hserved.wave? (id := id) (w := w) hw
  have hmem : blk ∈ (noticed s.dev c.n p area).blocks.filter fun b => [c.n].contains b.ctx && !b.resident := by
    rw [hserved.blocks]
    refine List.mem_filter.mpr ⟨List.mem_of_find?_eq_some hblk, ?_⟩
    simp [hmine, hres]
  obtain ⟨v, hv, hbit⟩ := foldl_told (c := cPreempt) (f := fun d (b : Block) => d.raiseBlock b.id cPreempt)
    (fun d b => Signalled.raiseBlock rfl d b.id) hmem hy (block_of_calm hcalm) ((live_of_calm hcalm).trans hlive)
    fun d u hu hublock hulive => by
      rw [hid, ← hublock]
      exact raiseBlock_told rfl (by decide) hu hulive
  refine ⟨v, (ended_wave? _ _ _ _ _).trans ?_, hbit⟩
  exact (congrArg (List.find? fun x : Wave => x.id == id) hwaves).trans hv

end

/-! ## Servers that are withdrawn (R249, R251, R292, R295) -/

/-- A device is another but for ways, flits and what a withdrawal tells; the core map is as before. -/
structure Ways (d e : Dev) : Prop where
  rest : e = { d with
    ports := e.ports, cores := e.cores, llcWays := e.llcWays, waves := e.waves, fns := e.fns, out := e.out }
  mapped : ∀ n, (e.core n).mapped = (d.core n).mapped

namespace Ways

theorem refl (d : Dev) : Ways d d := ⟨rfl, fun _ => rfl⟩

theorem trans {d e f : Dev} (h : Ways d e) (g : Ways e f) : Ways d f :=
  ⟨by rw [g.rest, h.rest], fun n => (g.mapped n).trans (h.mapped n)⟩

theorem of_cores {d e : Dev} (h : e = { d with
    ports := e.ports, llcWays := e.llcWays, waves := e.waves, fns := e.fns, out := e.out }) : Ways d e :=
  ⟨by rw [h], fun n => by rw [h]; rfl⟩

theorem of_signalled {d e : Dev} (h : Signalled d e) : Ways d e := of_cores (by rw [h.rest])

theorem foldl {α : Type} {f : Dev → α → Dev} (hf : ∀ d a, Ways d (f d a)) (l : List α) (d : Dev) : Ways d (l.foldl f d) := by
  induction l generalizing d with
  | nil => exact refl d
  | cons a l ih => exact (hf d a).trans (ih _)

theorem modCore {f : Core → Core} (hn : ∀ x, (f x).n = x.n) (hm : ∀ x, (f x).mapped = x.mapped) (d : Dev) (n : Nat) :
    Ways d (d.modCore n f) := by
  refine ⟨rfl, fun k => ?_⟩
  by_cases h : k = n
  · rw [h, core_modCore hn, hm]
  · rw [core_modCore_other hn d h]

theorem freeFlits (d : Dev) (v : Server) : Ways d (d.freeFlits v) := by
  unfold Dev.freeFlits
  split
  · split
    · exact refl d
    · exact of_cores rfl
  · exact refl d

theorem setWays (d : Dev) (ctx : Nat) (p : Point) : Ways d (d.setWays ctx p) := by
  unfold Dev.setWays
  split
  next c =>
    exact modCore (f := fun x => { x with l1Ways := assignWays x.l1Ways 8 ctx (((d.server? ctx (.port c)).map (·.args.ways)).getD 0) })
      (fun _ => rfl) (fun _ => rfl) d c
  next => exact of_cores rfl
  next => exact refl d

theorem setEvent (d : Dev) (n b : Nat) : Ways d (d.setEvent n b) := by
  obtain ⟨out, h⟩ := setEvent_eq d n b
  rw [h]
  exact of_cores rfl

theorem tellWithdrawn (d : Dev) (ctx : Nat) : Ways d (d.tellWithdrawn ctx) := by
  have hraise : Ways d ((d.blocks.filter (·.ctx == ctx)).foldl (fun d b => d.raiseBlock b.id cGuarantee) d) :=
    foldl (fun d (b : Block) => of_signalled (.raiseBlock rfl d b.id)) _ d
  simp only [Dev.tellWithdrawn]
  split
  · exact hraise.trans (setEvent _ _ _)
  · exact hraise

theorem servers {d e : Dev} (h : Ways d e) : e.servers = d.servers := by rw [h.rest]

end Ways

/-- Servers that leave: no other server and no core leaves with them. -/
theorem dropServers_ways (d : Dev) (p : Server → Bool) :
    ∃ e, Ways d e ∧ Ways { e with servers := e.servers.filter fun v => !p v } (d.dropServers p) :=
  ⟨_, .foldl Ways.freeFlits _ d, .foldl (fun d (v : Server) => Ways.setWays d v.args.ctx v.args.point) _ _⟩

theorem dropServers_servers (d : Dev) (p : Server → Bool) : (d.dropServers p).servers = d.servers.filter fun v => !p v := by
  obtain ⟨e, he, h⟩ := dropServers_ways d p
  rw [h.servers, ← he.servers]

theorem withdraw_ways (d : Dev) (at_ : Point → Bool) :
    (d.withdraw at_).servers = (d.servers.filter fun v => !at_ v.args.point) ∧
      ∀ n, ((d.withdraw at_).core n).mapped = (d.core n).mapped := by
  have htell : Ways (d.dropServers fun v => at_ v.args.point) (d.withdraw at_) := .foldl Ways.tellWithdrawn _ _
  obtain ⟨e, he, hdrop⟩ := dropServers_ways d fun v => at_ v.args.point
  refine ⟨htell.servers.trans (hdrop.servers.trans ?_), fun n => (htell.mapped n).trans ((hdrop.mapped n).trans (he.mapped n))⟩
  rw [← he.servers]

section
variable {s : State} {n : Nat}

/-- What RETIRE_COMPLETE has left is told with CMDCTL's code. -/
theorem did_endCommand {d : Dev} {m : Mgmt} (s : State) (code : Nat) :
    Did s (({ s with dev := d, mgmt := m } : State).endCommand code 0) m.cmdCode := by
  obtain ⟨-, -, -, hbit, -⟩ := did_ended s d code
  exact ⟨rfl, rfl, rfl, hbit, rfl⟩

/-- The points at a core. -/
def atCore (n : Nat) (p : Point) : Bool := p == .port n || p == .tile n || p == .table n || p == .select n

theorem retireComplete_core (h : .core n ∈ s.mgmt.retiring) (hfree : ∀ b ∈ s.dev.blocks, b.core ≠ n) :
    ∃ t, exec (.retireComplete (.core n)) s = .next t ∧ Did s t s.mgmt.cmdCode ∧
      (t.dev.core n).mapped = false ∧ ∀ v ∈ t.dev.servers, v ∈ s.dev.servers ∧ v.args.point ∉ [.port n, .tile n, .table n, .select n] := by
  let d := (s.dev.modCore n fun c => { c with mapped := false }).withdraw (atCore n)
  let m : Mgmt := { s.mgmt with retiring := s.mgmt.retiring.filter (· != .core n) }
  have hexec : exec (.retireComplete (.core n)) s = .next (({ s with dev := d, mgmt := m } : State).endCommand 10 0) := by
    have hin : s.mgmt.retiring.contains (.core n) = true := List.contains_iff_mem.mpr h
    have hnone : (s.dev.blocks.any fun b => b.core == n) = false := by
      rw [List.any_eq_false]
      exact fun b hb heq => hfree b hb (beq_iff_eq.mp heq)
    change execRetireComplete (.core n) s = _
    simp only [execRetireComplete, hin, hnone, Bool.not_true, Bool.false_eq_true, if_false]
    rfl
  obtain ⟨hservers, hmapped⟩ := withdraw_ways (s.dev.modCore n fun c => { c with mapped := false }) (atCore n)
  refine ⟨_, hexec, did_endCommand s 10, ?_, ?_⟩
  · rw [show ((({ s with dev := d, mgmt := m } : State).endCommand 10 0).dev.core n) = d.core n from ended_core s d 10 0 n, hmapped,
      core_modCore (f := fun c => { c with mapped := false }) (fun _ => rfl)]
  · intro v hv
    rw [show (({ s with dev := d, mgmt := m } : State).endCommand 10 0).dev.servers = d.servers from ended_servers s d 10 0, hservers,
      List.mem_filter] at hv
    obtain ⟨hv, hout⟩ := hv
    refine ⟨hv, fun hat => ?_⟩
    simp only [List.mem_cons, List.not_mem_nil, or_false] at hat
    rcases hat with hat | hat | hat | hat <;> simp [atCore, hat] at hout

theorem retireComplete_busy (h : .core n ∈ s.mgmt.retiring) (hbusy : ∃ b ∈ s.dev.blocks, b.core = n) :
    exec (.retireComplete (.core n)) s = .next s := by
  obtain ⟨b, hb, hcore⟩ := hbusy
  have hin : s.mgmt.retiring.contains (.core n) = true := List.contains_iff_mem.mpr h
  have hany : (s.dev.blocks.any fun b => b.core == n) = true := List.any_eq_true.mpr ⟨b, hb, beq_iff_eq.mpr hcore⟩
  change execRetireComplete (.core n) s = _
  simp only [execRetireComplete, hin, hany, Bool.not_true, Bool.false_eq_true, if_false, if_true]

theorem retireComplete_channel (h : .channel n ∈ s.mgmt.retiring) : ∃ t, exec (.retireComplete (.channel n)) s = .next t ∧
    Did s t s.mgmt.cmdCode ∧ t.mgmt.retiredChannels = n :: s.mgmt.retiredChannels ∧ ∀ v ∈ t.dev.servers, v.args.point ≠ .chan n := by
  let d := s.dev.withdraw (· == .chan n)
  let m : Mgmt := { s.mgmt with
    retiring := s.mgmt.retiring.filter (· != .channel n), retiredChannels := n :: s.mgmt.retiredChannels }
  have hexec : exec (.retireComplete (.channel n)) s = .next (({ s with dev := d, mgmt := m } : State).endCommand 10 0) := by
    have hin : s.mgmt.retiring.contains (.channel n) = true := List.contains_iff_mem.mpr h
    change execRetireComplete (.channel n) s = _
    simp only [execRetireComplete, hin, Bool.not_true, Bool.false_eq_true, if_false]
    rfl
  obtain ⟨hservers, -⟩ := withdraw_ways s.dev (· == .chan n)
  refine ⟨_, hexec, did_endCommand s 10, rfl, fun v hv heq => ?_⟩
  rw [show (({ s with dev := d, mgmt := m } : State).endCommand 10 0).dev.servers = d.servers from ended_servers s d 10 0, hservers,
    List.mem_filter, heq] at hv
  simp at hv

end

/-- Settles O48: each command's step, from how a command ends. -/
theorem machineCommands : Obligations.MachineCommands := by
  unfold Obligations.MachineCommands
  refine ⟨?_, ?_, ?_, ?_, ?_, ?_, ?_, ?_, ?_⟩
  · intro s c queue h hc hq hfree
    exact ⟨fun r hr => qbind_some h hc hq hfree hr, qbind_none h hc hq hfree, fun r hr => qbind_bad h hc hr⟩
  · intro s c budget area len h hone hc hfree hrun hpos hmax harea hlen hend
    exact preempt_notice h hone hc hfree hrun hpos hmax harea hlen hend
  · intro s tgt h
    refine ⟨fun hheld => ?_, release_nothing h⟩
    obtain ⟨out, hdev⟩ := ended_dev s (released s.dev tgt) 7 0
    refine ⟨_, release_held h hheld, did_ended _ _ _, ?_, ?_, ?_⟩
    · rw [hdev]
      exact released_ctxs s.dev tgt
    · rw [hdev]
      exact released_blocks s.dev tgt
    · rw [hdev]
      exact ⟨rfl, rfl, rfl, rfl, rfl, rfl⟩
  · intro s port tag allowed c h
    exact ⟨partset_port h, fun htag hfree hc hptag hopen => partset_tag h htag hfree hc hptag hopen, partset_untag h⟩
  · intro s n h hn hmapped
    exact retire_core h hn hmapped
  · intro s n h hn hnew
    exact retire_channel h hn hnew
  · intro s n h
    exact ⟨retireComplete_core h, retireComplete_busy h⟩
  · intro s n h
    exact retireComplete_channel h
  · intro s fn iova h hfn
    exact logset_sets h hfn

end Sys2Proof.Proofs
end

section
/-!
PROOFS. The commands on contexts, servers, windows and keys (12: R42, R43, R284, R288, R330, R333, R335).
-/

open Sys2Proof Sys2Proof.Machine Sys2Proof.Claims

-- The whole text is compiled in one process, which can hold few threads: these proofs are elaborated in order.
set_option Elab.async false

namespace Sys2Proof.Proofs

/-! ## GO and the step of a command's row (R330) -/

section
variable {s : State} {code st : Nat}

/-- A command that another one keeps waiting is ignored. -/
theorem mayRun_false (hbusy : s.mgmt.cmdBusy = true) (hgo : s.mgmt.cmdGo ≠ some code) : s.mgmt.mayRun code = false := by
  rw [Mgmt.mayRun, hbusy, if_pos rfl]
  exact beq_eq_false_iff_ne.mpr hgo

theorem command_ignored {f : State → Except Nat State} (h : 6 ≤ s.mgmt.phase) (hrun : s.mgmt.mayRun code = false) :
    command s code f = .next s := by
  rw [command, hostStep_ready h, hrun]
  rfl

/-- The management processor without a command under way. -/
def idle (s : State) : State := { s with mgmt := { s.mgmt with cmdBusy := false, cmdGo := none } }

theorem endCommand_idle (t : State) (code st : Nat) : (idle t).endCommand code st = t.endCommand code st := rfl

section
variable (h : 6 ≤ s.mgmt.phase) (hbusy : s.mgmt.cmdBusy = true) (hgo : s.mgmt.cmdGo = some code) (hcode : s.mgmt.cmdCode = code)
include hbusy hgo

theorem mayRun_go : s.mgmt.mayRun code = true := by
  rw [Mgmt.mayRun, hbusy, hgo, if_pos rfl, beq_self_eq_true]

include h hcode

/-- The step of a command whose GO has been written acts as the step without a GO. -/
theorem command_go {f : State → Except Nat State} (hf : f (idle s) = (f s).map idle) : command s code f = command (idle s) code f := by
  have hcoded : s.mgmt.withCode code = s.mgmt := if_pos hbusy
  have hidle : ({ idle s with mgmt := (idle s).mgmt.withCode code } : State) = idle s := by
    rw [Mgmt.withCode, if_neg (by simp [idle])]
    rw [← hcode]
    rfl
  rw [command, command, hostStep_ready h, hostStep_ready (s := idle s) h, mayRun_go hbusy hgo, hcoded]
  simp only [hidle, hf]
  cases f s <;> rfl

theorem devCommand_go {checks : Dev → List (Bool × Nat)} {f : Dev → Dev} :
    devCommand s code checks f = devCommand (idle s) code checks f := by
  refine command_go h hbusy hgo hcode ?_
  simp only [show (idle s).dev = s.dev from rfl]
  cases (checks s.dev).find? (·.1) <;> rfl

end

end

/-! ## Votes and guarantees do not ask for the command (R46, R353) -/

/-- A management processor without a command under way. -/
def Mgmt.idled (m : Mgmt) : Mgmt := { m with cmdBusy := false, cmdGo := none }

/-- A function of the management processor that a command's state plays no part in. -/
def KeepsCommand (f : Mgmt → Mgmt) : Prop := ∀ m, f (Mgmt.idled m) = Mgmt.idled (f m) ∧ (f m).cmdCode = m.cmdCode

theorem KeepsCommand.foldl {α : Type} {f : Mgmt → α → Mgmt} (hf : ∀ a, KeepsCommand (f · a)) (l : List α) : KeepsCommand (l.foldl f) := by
  induction l with
  | nil => exact fun m => ⟨rfl, rfl⟩
  | cons a l ih =>
    intro m
    obtain ⟨h1, h2⟩ := hf a m
    obtain ⟨g1, g2⟩ := ih (f m a)
    exact ⟨(congrArg (l.foldl f) h1).trans g1, g2.trans h2⟩

theorem keepsCommand_startRise (now island : Nat) : KeepsCommand (·.startRise now island) := by
  intro m
  simp only [Mgmt.startRise]
  constructor
  · rw [apply_ite Mgmt.idled]
    rfl
  · split <;> rfl

/-- A vote before the islands of its rail begin to rise. -/
def voted (now island point : Nat) (m : Mgmt) : Mgmt :=
  let old := m.island island
  let lower := decide (pointMhz point < old.mhz)
  let m := m.modIsland island fun i => { i with
    vote := point, next := if lower then some (now + 2400) else none
    mv := if lower then i.mv else min i.mv (pointMv point) }
  let rail := railOf island
  let r := m.rail rail
  let target := m.railTarget rail
  let phase : RailPhase :=
    if r.target < target then (if r.mv < target then .rising (now + 1200) else .steady)
    else if target < r.target then
      match r.phase with
      | .holdoff t => .holdoff t
      | .falling t => .falling t
      | _ =>
        if r.mv ≤ target then (if r.mv < target then r.phase else .steady)
        else if (railIslands rail).any (fun i => (m.island i).next.isSome && decide (pointMhz (m.island i).vote < (m.island i).mhz))
        then .lowering (now + 2400) else .holdoff (now + 120000)
    else r.phase
  m.modRail rail fun r => { r with target := target, phase := phase }

theorem vote_eq (m : Mgmt) (now island point : Nat) : m.vote now island point = (voted now island point m).startRises now (railOf island) := rfl

theorem keepsCommand_vote (now island point : Nat) : KeepsCommand (·.vote now island point) := by
  intro m
  obtain ⟨h1, h2⟩ := KeepsCommand.foldl (keepsCommand_startRise now) (railIslands (railOf island)) (voted now island point m)
  exact ⟨h1, h2⟩

/-- A core's vote for point 5, beside a device. -/
def votedState (s : State) (d : Dev) (clock core : Nat) : State := { s with dev := d, mgmt := s.mgmt.vote clock core 5 }

theorem votedState_idle (s : State) (d : Dev) (clock core : Nat) :
    votedState (idle s) d clock core = idle (votedState s d clock core) ∧
      (votedState s d clock core).mgmt.cmdCode = s.mgmt.cmdCode ∧ (votedState s d clock core).schedule = s.schedule := by
  obtain ⟨h1, h2⟩ := keepsCommand_vote clock core 5 s.mgmt
  exact ⟨congrArg (State.mk d · s.schedule) h1, h2, rfl⟩

/-- A guarantee leaves the command's state, and asks for nothing of it. -/
theorem guarantee_idle (s : State) (p : Point) :
    (idle s).guarantee p = idle (s.guarantee p) ∧ (s.guarantee p).mgmt.cmdCode = s.mgmt.cmdCode ∧ (s.guarantee p).schedule = s.schedule := by
  cases p with
  | port | tile | table | select => exact votedState_idle s _ _ _
  | copy | coll | chan | eutrix => exact ⟨rfl, rfl, rfl⟩

/-! ## What the rows of Table 12-3 have in common -/

/-- The body of a command on the device alone. -/
def devBody (checks : Dev → List (Bool × Nat)) (f : Dev → Dev) (s : State) : Except Nat State :=
  match (checks s.dev).find? (·.1) with
  | some c => .error c.2
  | none => .ok { s with dev := f s.dev }

theorem devBody_idle (checks : Dev → List (Bool × Nat)) (f : Dev → Dev) (s : State) :
    devBody checks f (idle s) = (devBody checks f s).map idle := by
  simp only [devBody, show (idle s).dev = s.dev from rfl]
  cases (checks s.dev).find? (·.1) <;> rfl

/-- A step is the command of a code, with a body that asks for nothing of the command's state. -/
def IsRow (g : State → Host.Outcome State Fault Refusal) (code : Nat) (s : State) : Prop :=
  ∃ f : State → Except Nat State, g s = command s code f ∧ g (idle s) = command (idle s) code f ∧ f (idle s) = (f s).map idle

theorem isRow_dev {code : Nat} {s : State} (checks : Dev → List (Bool × Nat)) (f : Dev → Dev) :
    IsRow (devCommand · code checks f) code s := ⟨devBody checks f, rfl, rfl, devBody_idle checks f s⟩

theorem isRow_server (a : ServerArgs) (s : State) : IsRow (execServer a) 3 s := by
  refine ⟨_, rfl, rfl, ?_⟩
  simp only [show (idle s).dev = s.dev from rfl, show (idle s).pointGone a.point = s.pointGone a.point by cases a.point <;> rfl]
  have hput : (({ idle s with dev := s.dev.putServer a } : State).guarantee a.point) =
      idle (({ s with dev := s.dev.putServer a } : State).guarantee a.point) := (guarantee_idle { s with dev := s.dev.putServer a } a.point).1
  simp only [hput]
  repeat' split
  all_goals rfl

theorem isRow_ctxcreate (a : CtxArgs) {s : State} (h : s.mgmt.ready = true) : IsRow (execCtxcreate a) 1 s := by
  have hready : ∀ t : State, t.mgmt.ready = true → ¬ (6 ≤ t.mgmt.phase ∧ (!t.mgmt.ready) = true) := fun t ht => by simp [ht]
  refine ⟨_, if_neg (hready s h), if_neg (hready (idle s) h), ?_⟩
  simp only [show (idle s).dev = s.dev from rfl]
  repeat' split
  all_goals rfl

theorem isRow_unknown {c : Nat} (hc : c % 256 = 0 ∨ 11 < c % 256) (s : State) : IsRow (execUnknownCommand c) (c % 256) s :=
  ⟨fun _ => .error 1, if_neg (by omega), if_neg (by omega), rfl⟩

theorem isRow_partset (a : PartArgs) (s : State) : IsRow (execPartset a) 9 s := by
  cases a with
  | port p allowed =>
    change IsRow (fun t => execPartset (.port p allowed) t) 9 s
    simp only [execPartset]
    exact isRow_dev _ _
  | tag t c =>
    change IsRow (fun x => execPartset (.tag t c) x) 9 s
    cases c <;>
    · simp only [execPartset]
      exact isRow_dev _ _

theorem isRow_window (fn w b n : Nat) (s : State) : IsRow (execWindow fn w b n) 4 s := by
  change IsRow (fun t => execWindow fn w b n t) 4 s
  simp only [execWindow]
  exact isRow_dev _ _

theorem isRow_release (tgt : PreTarget) (s : State) : IsRow (execRelease tgt) 7 s := by
  change IsRow (fun t => execRelease tgt t) 7 s
  simp only [execRelease]
  exact isRow_dev _ _

/-- Every command but RETIRE is a row's, but CTXCREATE before READY. -/
theorem isRow_of_isCommand {i : Instr} {code : Nat} {s : State} (h : IsCommand i code) (hready : s.mgmt.ready = true ∨ code ≠ 1) :
    IsRow (exec i) code s ∨ ∃ a, i = .retire a ∧ code = 10 := by
  rcases h with ⟨a, rfl, rfl⟩ | ⟨c, rfl, rfl⟩ | ⟨a, rfl, rfl⟩ | ⟨fn, w, b, n, rfl, rfl⟩ | ⟨c, q, r, rfl, rfl⟩ | ⟨t, b, a, n, rfl, rfl⟩ |
    ⟨t, rfl, rfl⟩ | ⟨c, rfl, rfl⟩ | ⟨a, rfl, rfl⟩ | ⟨a, rfl, rfl⟩ | ⟨fn, a, rfl, rfl⟩ | ⟨c, rfl, rfl, hc⟩
  case _ => exact .inl (isRow_ctxcreate a (hready.resolve_right fun h => h rfl))
  case _ => exact .inl (show IsRow (execCtxdestroy c) 2 s from isRow_dev _ _)
  case _ => exact .inl (isRow_server a s)
  case _ => exact .inl (isRow_window fn w b n s)
  case _ => exact .inl (show IsRow (execQbind c q r) 5 s from isRow_dev _ _)
  case _ => exact .inl (show IsRow (execPreempt t b a n) 6 s from isRow_dev _ _)
  case _ => exact .inl (isRow_release t s)
  case _ => exact .inl (show IsRow (execKeyrot c) 8 s from isRow_dev _ _)
  case _ => exact .inl (isRow_partset a s)
  case _ => exact .inr ⟨a, rfl, rfl⟩
  case _ => exact .inl (show IsRow (execLogset fn a) 11 s from isRow_dev _ _)
  case _ => exact .inl (isRow_unknown hc s)

theorem ctxcreate_unready {s : State} {a : CtxArgs} (h : 6 ≤ s.mgmt.phase) (hready : s.mgmt.ready = false) :
    exec (.ctxcreate a) s = .next s := if_pos ⟨h, by rw [hready]; rfl⟩

theorem retire_ignored {s : State} {a : RetireArgs} (h : 6 ≤ s.mgmt.phase) (hrun : s.mgmt.mayRun 10 = false) :
    exec (.retire a) s = .next s := by
  change execRetire a s = _
  simp only [execRetire, hostStep_ready h, hrun, Bool.not_false, if_true]

theorem command_busy {s : State} {i : Instr} {code : Nat} (h : 6 ≤ s.mgmt.phase) (hbusy : s.mgmt.cmdBusy = true)
    (hgo : s.mgmt.cmdGo ≠ some code) (hi : IsCommand i code) : exec i s = .next s := by
  have hrun := mayRun_false hbusy hgo
  by_cases hready : s.mgmt.ready = true ∨ code ≠ 1
  · obtain ⟨f, hexec, -⟩ | ⟨a, rfl, rfl⟩ := isRow_of_isCommand hi hready
    · rw [hexec, command_ignored h hrun]
    · exact retire_ignored h hrun
  · obtain ⟨hunready, rfl⟩ : s.mgmt.ready = false ∧ code = 1 := by simpa using hready
    have hcreate : ∃ a, i = .ctxcreate a := by
      rcases hi with ⟨a, rfl, -⟩ | hi
      · exact ⟨a, rfl⟩
      · simp at hi
    obtain ⟨a, rfl⟩ := hcreate
    exact ctxcreate_unready h hunready

theorem retire_go {s : State} {a : RetireArgs} (h : 6 ≤ s.mgmt.phase) (hbusy : s.mgmt.cmdBusy = true) (hgo : s.mgmt.cmdGo = some 10)
    (hcode : s.mgmt.cmdCode = 10) : exec (.retire a) s = exec (.retire a) (idle s) := by
  have hcoded : s.mgmt.withCode 10 = s.mgmt := if_pos hbusy
  have hidle : (idle s).mgmt.withCode 10 = (idle s).mgmt := by
    rw [Mgmt.withCode, if_neg (by simp [idle]), ← hcode]
    rfl
  change execRetire a s = execRetire a (idle s)
  simp only [execRetire, hostStep_ready h, hostStep_ready (s := idle s) h, mayRun_go hbusy hgo, hcoded, hidle]
  cases a <;> rfl

theorem command_gone {s : State} {i : Instr} {code : Nat} (h : 6 ≤ s.mgmt.phase) (hbusy : s.mgmt.cmdBusy = true)
    (hgo : s.mgmt.cmdGo = some code) (hcode : s.mgmt.cmdCode = code) (hready : s.mgmt.ready = true ∨ code ≠ 1) (hi : IsCommand i code) :
    exec i s = exec i (idle s) := by
  obtain ⟨f, hexec, hidle, hf⟩ | ⟨a, rfl, rfl⟩ := isRow_of_isCommand hi hready
  · rw [hexec, hidle, command_go h hbusy hgo hcode hf]
  · exact retire_go h hbusy hgo hcode

/-! ## CMDCTL (R330) -/

theorem writeReg_cmdctl (s : State) (v : Nat) : s.writeReg 0 0x1100 v = s.commandControl v := by
  simp only [State.writeReg, regOwned_pf (off := 0x1100) (by decide)]
  rfl

theorem commandControl_kept {s : State} {v : Nat} (h : v.testBit 31 = false ∨ s.mgmt.cmdBusy = true) :
    s.commandControl v = { s with mgmt := { s.mgmt with cmdCode := v % 256 } } := by
  refine if_pos ?_
  rcases h with h | h
  · rw [h]; rfl
  · exact (congrArg (!v.testBit 31 || ·) h).trans (Bool.or_true _)

theorem commandControl_go {s : State} {v : Nat} (h : v.testBit 31 = true) (hidle : s.mgmt.cmdBusy = false) :
    s.commandControl v = if 1 ≤ v % 256 ∧ v % 256 ≤ 11 then
      { s with mgmt := { s.mgmt with cmdCode := v % 256, cmdBusy := true, cmdGo := some (v % 256) } } else ended s s.dev (v % 256) 1 := by
  refine if_neg ?_
  rw [h]
  change ¬ (s.mgmt.cmdBusy = true)
  rw [hidle]
  decide

/-! ## WINDOW and KEYROT (R330, R333, R335) -/

theorem mem_insertWindow {w x : Nat × Range} {l : List (Nat × Range)} : x ∈ insertWindow w l ↔ x = w ∨ x ∈ l := by
  induction l with
  | nil => simp [insertWindow]
  | cons y l ih =>
    rw [insertWindow]
    split
    · simp
    · simp only [List.mem_cons, ih]
      tauto

/-- The windows of a function after WINDOW. -/
def windowed (window : Nat) (r : Range) (f : Fn) : Fn :=
  { f with windows := if r.len = 0 then f.windows.filter (·.1 != window) else insertWindow (window, r) (f.windows.filter (·.1 != window)) }

theorem mem_windowed {window : Nat} {r : Range} {f : Fn} {w : Nat × Range} :
    w ∈ (windowed window r f).windows ↔ (r.len ≠ 0 ∧ w = (window, r)) ∨ (w ∈ f.windows ∧ w.1 ≠ window) := by
  simp only [windowed]
  split
  next h => simp [h]
  next h => simp [mem_insertWindow, h]

theorem window_sets {s : State} {fn window base len : Nat} (h : Accepts s) (hfn : fn < 64) (hwin : window < 8) (hbase : base % 2 ^ 21 = 0)
    (hlen : len % 2 ^ 21 = 0) (hmap : mappable base len = true) (hopen : (s.dev.fn fn).tdisp = .unlocked)
    (hapart : ∀ f ∈ s.dev.fns, f.n ≠ fn → ∀ w ∈ f.windows, base + len ≤ w.2.base ∨ w.2.base + w.2.len ≤ base) :
    ∃ t, exec (.window fn window base len) s = .next t ∧ Did s t 4 ∧ Apart s { t with mgmt := s.mgmt } ∧
      ∀ w, w ∈ (t.dev.fn fn).windows ↔ (len ≠ 0 ∧ w = (window, ⟨base, len⟩)) ∨ (w ∈ (s.dev.fn fn).windows ∧ w.1 ≠ window) := by
  have hexec : exec (.window fn window base len) s = .next (ended s (s.dev.modFn fn (windowed window ⟨base, len⟩)) 4 0) := by
    change execWindow fn window base len s = _
    simp only [execWindow]
    refine devCommand_passes h ?_
    have hbad : ¬ (64 ≤ fn ∨ 8 ≤ window ∨ base % 2 ^ 21 ≠ 0 ∨ len % 2 ^ 21 ≠ 0) := by omega
    have hlocked : s.dev.locked fn = false := by rw [Dev.locked, hopen]; rfl
    have hmeets : (s.dev.fns.any fun f => f.n != fn && f.windows.any fun w => decide (base < w.2.base + w.2.len ∧ w.2.base < base + len)) = false := by
      rw [List.any_eq_false]
      intro f hf hboth
      rw [Bool.and_eq_true, bne_iff_ne, List.any_eq_true] at hboth
      obtain ⟨hne, w, hw, hmeet⟩ := hboth
      have hout := hapart f hf hne w hw
      have hin := of_decide_eq_true hmeet
      omega
    simp only [decide_eq_false hbad, hmap, hlocked, hmeets, Bool.not_true, Bool.or_self, List.find?_cons, List.find?_nil]
  obtain ⟨out, hdev⟩ := ended_dev s (s.dev.modFn fn (windowed window ⟨base, len⟩)) 4 0
  refine ⟨_, hexec, did_ended _ _ _, ?_, fun w => ?_⟩
  · rw [Apart, hdev]
    exact ⟨rfl, rfl, rfl, rfl, rfl, rfl⟩
  · have hset := fn_modFn (f := windowed window ⟨base, len⟩) (fun _ => rfl) s.dev fn
    have hwindows : ((ended s (s.dev.modFn fn (windowed window ⟨base, len⟩)) 4 0).dev.fn fn).windows =
        (windowed window ⟨base, len⟩ (s.dev.fn fn)).windows := by
      rw [hdev]
      by_cases h0 : fn = 0
      · subst h0
        exact (congrArg Fn.windows (fn_eventSet (s.dev.modFn 0 (windowed window ⟨base, len⟩)) 0 0)).trans
          (show ((s.dev.modFn 0 (windowed window ⟨base, len⟩)).fn 0).windows = _ from congrArg Fn.windows hset)
      · exact (congrArg Fn.windows (fn_modFn_other (f := eventSet 0) (fun _ => rfl) (s.dev.modFn fn (windowed window ⟨base, len⟩)) h0)).trans
          (congrArg Fn.windows hset)
    rw [hwindows]
    exact mem_windowed

/-- Lines that go to memory are the only ones that leave the LLC. -/
theorem evictLines_llc (L : List LlcLine) (d : Dev) : ∀ l ∈ (L.foldl Dev.evictLine d).llc, l ∈ d.llc ∧ ∀ x ∈ L, l.line ≠ x.line := by
  induction L generalizing d with
  | nil => exact fun l hl => ⟨hl, fun x hx => absurd hx List.not_mem_nil⟩
  | cons y L ih =>
    intro l hl
    obtain ⟨hmem, hne⟩ := ih _ l hl
    obtain ⟨hmem, hy⟩ := List.mem_filter.mp hmem
    refine ⟨hmem, fun x hx => ?_⟩
    rcases List.mem_cons.mp hx with rfl | hx
    · exact bne_iff_ne.mp hy
    · exact hne x hx

theorem evictLines_cached (L : List LlcLine) (d : Dev) : CachedDev d (L.foldl Dev.evictLine d) :=
  .foldl (fun d l => (rfl : CachedDev d (d.evictLine l))) L d

/-- The device after a slot's key has changed. -/
def rekeyed (d : Dev) (ctx : Nat) : Dev :=
  let e := ({ d with nextId := d.nextId + 2, keys := assocPut d.keys ctx d.nextId } : Dev).modCtx ctx fun c => { c with sealKey := d.nextId + 1 }
  let e := (e.llc.filter (·.slot == ctx)).foldl Dev.evictLine e
  { e with l1 := e.l1.filter (·.slot != ctx) }

theorem keyrot_taken {s : State} {c : Ctx} (h : Accepts s) (hc : s.dev.ctx? c.n = some c) (hne : c.n ≠ 0)
    (hopen : (s.dev.fn c.fn).tdisp = .unlocked) (hres : ∀ b ∈ s.dev.blocks, b.ctx = c.n → b.resident = true) :
    exec (.keyrot c.n) s = .next (ended s (rekeyed s.dev c.n) 8 0) := by
  change execKeyrot c.n s = _
  refine devCommand_passes h ?_
  have hlocked : s.dev.ctxLocked c.n = false := by rw [Dev.ctxLocked, hc, Option.any_some, Dev.locked, hopen]; rfl
  have hblocks : (s.dev.blocks.any fun b => b.ctx == c.n && !b.resident) = false := by
    rw [List.any_eq_false]
    intro b hb hboth
    rw [Bool.and_eq_true, beq_iff_eq, Bool.not_eq_true'] at hboth
    exact absurd (hres b hb hboth.1) (by rw [hboth.2]; decide)
  have hzero : (c.n == 0) = false := beq_eq_false_iff_ne.mpr hne
  simp only [hzero, hc, hlocked, hblocks, Option.isNone_some, Bool.or_self, List.find?_cons, List.find?_nil]

theorem keyrot_rekeys {s : State} {c : Ctx} (h : Accepts s) (hc : s.dev.ctx? c.n = some c) (hne : c.n ≠ 0)
    (hopen : (s.dev.fn c.fn).tdisp = .unlocked) (hres : ∀ b ∈ s.dev.blocks, b.ctx = c.n → b.resident = true) :
    ∃ t, exec (.keyrot c.n) s = .next t ∧ Did s t 8 ∧ t.dev.keyOf c.n = s.dev.nextId ∧
      (∀ n, n ≠ c.n → t.dev.keyOf n = s.dev.keyOf n) ∧ (∀ l ∈ t.dev.llc, l.slot ≠ c.n) ∧ (∀ l ∈ t.dev.l1, l.slot ≠ c.n) ∧
      t.dev.mem = s.dev.mem ∧ t.dev.sectors = s.dev.sectors ∧ t.dev.waves = s.dev.waves := by
  obtain ⟨out, hdev⟩ := ended_dev s (rekeyed s.dev c.n) 8 0
  refine ⟨_, keyrot_taken h hc hne hopen hres, did_ended _ _ _, ?_⟩
  rw [hdev]
  generalize he : (({ s.dev with nextId := s.dev.nextId + 2, keys := assocPut s.dev.keys c.n s.dev.nextId } : Dev).modCtx c.n
    fun x => { x with sealKey := s.dev.nextId + 1 }) = e
  have hcached := evictLines_cached (e.llc.filter (·.slot == c.n)) e
  have hllc := evictLines_llc (e.llc.filter (·.slot == c.n)) e
  have hre : rekeyed s.dev c.n = { (e.llc.filter (·.slot == c.n)).foldl Dev.evictLine e with
      l1 := ((e.llc.filter (·.slot == c.n)).foldl Dev.evictLine e).l1.filter (·.slot != c.n) } := by rw [← he]; rfl
  have hkeys : (rekeyed s.dev c.n).keys = assocPut s.dev.keys c.n s.dev.nextId ∧ (rekeyed s.dev c.n).keyBase = s.dev.keyBase := by
    rw [hre, hcached, ← he]
    exact ⟨rfl, rfl⟩
  have hkeyOf : ∀ n, (rekeyed s.dev c.n).keyOf n =
      (((assocPut s.dev.keys c.n s.dev.nextId).find? (·.1 == n)).map (·.2)).getD (s.dev.keyBase + n) := fun n => by
    rw [Dev.keyOf, hkeys.1, hkeys.2]
  refine ⟨(hkeyOf c.n).trans (by rw [find?_assocPut_same]; rfl), fun n hn => (hkeyOf n).trans (by rw [find?_assocPut_other _ _ hn]; rfl), ?_⟩
  refine ⟨fun l hl heq => ?_, fun l hl => bne_iff_ne.mp (List.mem_filter.mp hl).2, ?_⟩
  · obtain ⟨hmem, hne⟩ := hllc l (by rw [hre] at hl; exact hl)
    exact hne l (List.mem_filter.mpr ⟨hmem, beq_iff_eq.mpr heq⟩) rfl
  · change (rekeyed s.dev c.n).mem = _ ∧ (rekeyed s.dev c.n).sectors = _ ∧ (rekeyed s.dev c.n).waves = _
    rw [hre, hcached, ← he]
    exact ⟨rfl, rfl, rfl⟩

/-! ## SERVER (R249, R283, R284, R288, R292, R395) -/

section
variable {s : State} {a : ServerArgs} (h : Accepts s) (hpoint : pointOk a.point = true)
include h

omit h in
/-- A command that has left a state with its code in CMDCTL. -/
theorem did_row {u : State} {code : Nat} (hcode : u.mgmt.cmdCode = code) (hsched : u.schedule = s.schedule) :
    Did s (u.endCommand code 0) code ∧ (u.endCommand code 0).dev.servers = u.dev.servers := by
  have hdid := did_endCommand (d := u.dev) (m := u.mgmt) s code
  rw [hcode] at hdid
  refine ⟨?_, ended_servers u u.dev code 0⟩
  rw [show u = { s with dev := u.dev, mgmt := u.mgmt } by rw [← hsched]]
  exact hdid

/-- The server that SERVER is about. -/
def ofServer (a : ServerArgs) (v : Server) : Bool := v.args.ctx == a.ctx && v.args.point == a.point

include hpoint

theorem server_removed (hzero : a.q.all (· == 0) = true) (hsome : s.dev.server? a.ctx a.point ≠ none) :
    ∃ t, exec (.server a) s = .next t ∧ Did s t 3 ∧ t.dev.server? a.ctx a.point = none := by
  have hexec : exec (.server a) s = .next (({ s with
      dev := s.dev.dropServers (ofServer a), mgmt := { s.mgmt with cmdCode := 3 } } : State).endCommand 3 0) := by
    change execServer a s = _
    refine command_ok h ?_
    have hnone : (s.dev.server? a.ctx a.point).isNone = false := by
      cases hs : s.dev.server? a.ctx a.point with
      | none => exact absurd hs hsome
      | some v => rfl
    simp only [hpoint, hzero, hnone, Bool.not_true, Bool.false_eq_true, if_false, if_true]
    rfl
  obtain ⟨hdid, hservers⟩ := did_row (s := s) (code := 3)
    (u := { s with dev := s.dev.dropServers (ofServer a), mgmt := { s.mgmt with cmdCode := 3 } }) rfl rfl
  refine ⟨_, hexec, hdid, ?_⟩
  rw [Dev.server?, hservers]
  refine List.find?_eq_none.mpr fun v hv hp => ?_
  change v ∈ (s.dev.dropServers (ofServer a)).servers at hv
  rw [dropServers_servers, List.mem_filter] at hv
  have hgone := hv.2
  rw [ofServer, hp] at hgone
  exact absurd hgone (by decide)

variable (hsome : a.q.all (· == 0) = false) (hfields : serverFields a = true) (hctx : s.dev.ctx? a.ctx ≠ none)
  (hways : ∀ v ∈ s.dev.servers, isChannel a.point = true → v.args.ctx = a.ctx → isChannel v.args.point = true → v.args.point ≠ a.point →
    v.args.ways = a.ways)
include hsome hfields hctx hways

/-- SERVER with a budget, up to the question whether it is admitted. -/
theorem server_asked : exec (.server a) s = command s 3 fun u =>
    if (!a.route.isEmpty && !a.agreed) || u.pointGone a.point ||
        !withinBounds ((u.dev.serversWith a).filter (·.point == a.point)) (pointCounters a.point) || !u.dev.waysOk a || !u.dev.flitsFit a
    then .error 2 else .ok (({ u with dev := u.dev.putServer a } : State).guarantee a.point) := by
  change execServer a s = _
  have hin : ((s.dev.ctx? a.ctx).isNone && (s.dev.server? a.ctx a.point).isNone) = false := by
    cases hc : s.dev.ctx? a.ctx with
    | none => exact absurd hc hctx
    | some c => rfl
  have hsame : (isChannel a.point && s.dev.servers.any fun x => x.args.ctx == a.ctx && isChannel x.args.point &&
      x.args.point != a.point && x.args.ways != a.ways) = false := by
    rw [Bool.and_eq_false_iff, List.any_eq_false]
    by_cases hchan : isChannel a.point = true
    · refine .inr fun v hv hall => ?_
      simp only [Bool.and_eq_true, beq_iff_eq, bne_iff_ne] at hall
      obtain ⟨⟨⟨hc, hch⟩, hp⟩, hw⟩ := hall
      exact hw (hways v hv hchan hc hch hp)
    · exact .inl (Bool.not_eq_true _ ▸ hchan)
  obtain ⟨hphase, hidle⟩ := h
  rw [execServer, command_accepted ⟨hphase, hidle⟩, command_accepted ⟨hphase, hidle⟩]
  simp only [hpoint, hsome, hfields, hin, hsame, Bool.not_true, Bool.or_self, Bool.false_eq_true, if_false]

theorem server_refused (hbad : withinBounds ((s.dev.serversWith a).filter (·.point == a.point)) (pointCounters a.point) = false ∨
    s.pointGone a.point = true ∨ (a.route ≠ [] ∧ a.agreed = false)) : exec (.server a) s = .next (ended s s.dev 3 2) := by
  rw [server_asked h hpoint hsome hfields hctx hways]
  refine command_error h (if_pos ?_)
  simp only [Bool.or_eq_true, Bool.and_eq_true, Bool.not_eq_true']
  rcases hbad with hbounds | hgone | ⟨hroute, hagreed⟩
  · exact .inl (.inl (.inr hbounds))
  · refine .inl (.inl (.inl (.inr ?_)))
    cases hp : a.point <;> rw [hp] at hgone <;> exact hgone
  · exact .inl (.inl (.inl (.inl ⟨by simpa using hroute, hagreed⟩)))

omit h hpoint hsome hfields hctx hways in
/-- The servers after a server has been put, whatever its guarantee does. -/
theorem guarantee_servers (u : State) (p : Point) : (u.guarantee p).dev.servers = u.dev.servers := by
  have hrouse : ∀ (d : Dev) (c : Nat), (d.rouse c).servers = d.servers := fun d c => by
    rw [Dev.rouse]
    split <;> rfl
  cases p with
  | port c => exact hrouse _ c
  | tile c => exact hrouse _ c
  | table c => exact hrouse _ c
  | select c => exact hrouse _ c
  | copy | coll | chan | eutrix => rfl

/-- What SERVER makes of a server that exists. -/
def changedServer (a : ServerArgs) (v : Server) : Server := { v with args := a, b := (v.b.zip a.q).map fun x => min x.1 x.2 }

/-- The device once an old server's flits have been given back. -/
def flitsFreed (a : ServerArgs) (d : Dev) : Dev := match d.server? a.ctx a.point with | some v => d.freeFlits v | none => d

/-- The device once a new server's flits have been reserved. -/
def flitsReserved (a : ServerArgs) (d : Dev) : Dev :=
  match a.point with
  | .eutrix p =>
    if a.route.isEmpty then d
    else d.modPort p fun x => { x with reserved := x.reserved + d.flitsOf p ((a.q[0]?).getD 1) ((a.t[0]?).getD 1) }
  | _ => d

omit h hpoint hsome hfields hctx hways in
theorem flitsFreed_servers (a : ServerArgs) (d : Dev) : (flitsFreed a d).servers = d.servers := by
  unfold flitsFreed
  split
  · exact (Ways.freeFlits d _).servers
  · rfl

omit h hpoint hsome hfields hctx hways in
theorem flitsReserved_servers (a : ServerArgs) (d : Dev) : (flitsReserved a d).servers = d.servers := by
  unfold flitsReserved
  split
  · split <;> rfl
  · rfl

omit h hpoint hsome hfields hctx hways in
theorem putServer_eq (d : Dev) (a : ServerArgs) : d.putServer a = ({ flitsReserved a (flitsFreed a d) with
    servers := upsert (ofServer a) (newServer a) (changedServer a) (flitsReserved a (flitsFreed a d)).servers } : Dev).setWays a.ctx a.point := rfl

omit h hpoint hsome hfields hctx hways in
theorem putServer_servers (d : Dev) (a : ServerArgs) :
    (d.putServer a).servers = upsert (ofServer a) (newServer a) (changedServer a) d.servers := by
  rw [putServer_eq, (Ways.setWays _ _ _).servers, flitsReserved_servers, flitsFreed_servers]

omit h hpoint hsome hfields hctx hways in
theorem changedServer_new (a : ServerArgs) : changedServer a (newServer a) = newServer a := by
  have hb : ((a.q.zip a.q).map fun x => min x.1 x.2) = a.q := by
    induction a.q with
    | nil => rfl
    | cons q l ih => simp [ih]
  exact congrArg (fun b => (⟨a, b, a.q.map fun _ => 0, a.q.map fun _ => false⟩ : Server)) hb

theorem server_admitted (hgone : s.pointGone a.point = false)
    (hbounds : withinBounds ((s.dev.serversWith a).filter (·.point == a.point)) (pointCounters a.point) = true)
    (hok : s.dev.waysOk a = true) (hfit : s.dev.flitsFit a = true) (hroute : a.route = [] ∨ a.agreed = true) :
    ∃ t, exec (.server a) s = .next t ∧ Did s t 3 ∧
      t.dev.server? a.ctx a.point = some (changedServer a ((s.dev.server? a.ctx a.point).getD (newServer a))) := by
  let u : State := { s with mgmt := { s.mgmt with cmdCode := 3 } }
  have hexec : exec (.server a) s = .next ((({ u with dev := u.dev.putServer a } : State).guarantee a.point).endCommand 3 0) := by
    rw [server_asked h hpoint hsome hfields hctx hways]
    refine command_ok h (if_neg ?_)
    have hagree : (!a.route.isEmpty && !a.agreed) = false := by
      rcases hroute with hr | hr <;> simp [hr]
    have hthere : u.pointGone a.point = false := by
      cases hp : a.point <;> rw [hp] at hgone <;> exact hgone
    simp only [show ({ s with mgmt := { s.mgmt with cmdCode := 3 } } : State) = u from rfl, hagree, hthere,
      hbounds, hok, hfit, Bool.not_true, Bool.or_self]
    decide
  obtain ⟨-, hcode, hsched⟩ := guarantee_idle { u with dev := u.dev.putServer a } a.point
  obtain ⟨hdid, hservers⟩ := did_row (s := s) (code := 3) hcode hsched
  refine ⟨_, hexec, hdid, ?_⟩
  rw [Dev.server?, hservers, guarantee_servers]
  change ((s.dev.putServer a).servers.find? (ofServer a)) = _
  have hself : ∀ v, ofServer a (changedServer a v) = true := fun v => by simp [ofServer, changedServer]
  rw [putServer_servers, find?_upsert_same (fun v _ => hself v) (hself _)]
  rfl

end

/-! ## Whole sectors are written without a look at what they held (R260) -/

theorem wholeSector_of_aligned {a n i : Nat} (ha : a % 32 = 0) (hn : n % 32 = 0) (hi : i ∈ sectorsOf a n) : wholeSector a n i = true := by
  rw [mem_sectorsOf] at hi
  exact decide_eq_true (by omega)

section
variable {d : Dev} {slot a : Nat} {bs : List Byte} (ha : a % 32 = 0) (hn : bs.length % 32 = 0)
include ha hn

theorem putGlob_whole : d.putGlob slot a bs = some (overwritten d slot a bs) := by
  have hwhole : ∀ i ∈ sectorsOf a bs.length, wholeSector a bs.length i = true := fun i hi => wholeSector_of_aligned ha hn hi
  have hall : ((sectorsOf a bs.length).all fun i => wholeSector a bs.length i || d.sectorOk slot i) = true :=
    List.all_eq_true.mpr fun i hi => by rw [hwhole i hi, Bool.true_or]
  have hkeep : ∀ i ∈ sectorsOf a bs.length, (wholeSector a bs.length i || (d.sector? i).isSome) = true := fun i hi => by
    rw [hwhole i hi, Bool.true_or]
  simp only [Dev.putGlob, hall, if_true]
  rw [foldl_keep _ _ hkeep]
  rfl

theorem byteAt_overwritten_whole (hm : Memory.wf d.mem = true) (b : Nat) :
    (overwritten d slot a bs).byteAt slot b = if a ≤ b ∧ b < a + bs.length then (bs[b - a]?).getD 0 else d.byteAt slot b := by
  have hcell := cellGet_cellWrite hm a b bs
  have hsector := sector?_writtenSectors (d := d) (slot := slot) (cellWrite d.mem a bs) (sectorsOf a bs.length) (b / 32)
  by_cases hin : a ≤ b ∧ b < a + bs.length
  · have hmem : b / 32 ∈ sectorsOf a bs.length := mem_sectorsOf.mpr (by omega)
    rw [if_pos hmem] at hsector
    have hwritten : Written (overwritten d slot a bs) slot (b / 32) := written_iff.mpr ⟨_, hsector, rfl, rfl⟩
    rw [if_pos hin] at hcell ⊢
    rw [byteAt_of_written hwritten]
    exact hcell
  · have hout : b / 32 ∉ sectorsOf a bs.length := fun h => hin (by rw [mem_sectorsOf] at h; omega)
    rw [if_neg hout] at hsector
    rw [if_neg hin] at hcell ⊢
    have hread : cellRead (overwritten d slot a bs).mem (b / 32 * 32) 32 = cellRead d.mem (b / 32 * 32) 32 :=
      cellRead_congr fun c hc hc' => cellGet_cellWrite_outside _ _ _ _ (by
        rw [mem_sectorsOf] at hout
        omega)
    have hcell' : cellGet (overwritten d slot a bs).mem b = cellGet d.mem b := hcell
    rw [Dev.byteAt, Dev.byteAt, show (overwritten d slot a bs).sector? (b / 32) = d.sector? (b / 32) from hsector, hread, hcell']
    rfl

end

/-- A store over whole sectors is performed. -/
theorem homeWrite_whole {d : Dev} {slot a : Nat} {bs : List Byte} (ha : a % 32 = 0) (hn : bs.length % 32 = 0) (core : Option Nat)
    (device : Bool) (c : Nat) :
    ∃ x, Aside d x ∧ Aside (overwritten x slot a bs) (d.homeWrite slot core device (.glob a) c fun _ => bs).1 := by
  refine ⟨d.touchLine slot a slot, .touchLine d slot a slot, ?_⟩
  simp only [Dev.homeWrite, putGlob_whole ha hn]
  exact aside_finished _ _ _ _ _ _ _

/-! ## Pages of zeroes (R322) -/

/-- 128 bytes of zeroes are stored under a key slot. -/
def zeroChunk (slot : Nat) (d : Dev) (a : Nat) : Dev := (d.homeWrite slot none true (.glob a) 0 fun _ => List.replicate 128 0).1

theorem served_zeroChunk (slot : Nat) (d : Dev) (a : Nat) : Served d (zeroChunk slot d a) := .homeWrite d slot none true (.glob a) 0 _

theorem zeroChunk_bytes {d : Dev} {slot a : Nat} (ha : a % 32 = 0) (hm : Memory.wf d.mem = true) :
    Memory.wf (zeroChunk slot d a).mem = true ∧
      ∀ b, (zeroChunk slot d a).byteAt slot b = if a ≤ b ∧ b < a + 128 then 0 else d.byteAt slot b := by
  obtain ⟨x, hx, he⟩ := homeWrite_whole (d := d) (slot := slot) (bs := List.replicate 128 (0 : Byte)) ha (by simp) none true 0
  have hxm : Memory.wf x.mem = true := by rw [hx.mem]; exact hm
  refine ⟨?_, fun b => ?_⟩
  · have hmem : (zeroChunk slot d a).mem = _ := he.mem
    rw [hmem]
    exact wf_overwritten hxm
  · have hbytes : (zeroChunk slot d a).byteAt slot = _ := he.sameBytes.byteAt slot
    rw [hbytes, byteAt_overwritten_whole ha (by simp) hxm, hx.sameBytes.byteAt slot, List.length_replicate]
    split
    next hin => rw [List.getElem?_replicate, if_pos (by omega)]; rfl
    next => rfl

/-- Chunks of zeroes read zero, and what read zero before reads zero still. -/
theorem zeroChunks_bytes {slot : Nat} (as : List Nat) (ha : ∀ a ∈ as, a % 32 = 0) {d : Dev} (hm : Memory.wf d.mem = true) :
    Memory.wf (as.foldl (zeroChunk slot) d).mem = true ∧
      (∀ b, d.byteAt slot b = 0 → (as.foldl (zeroChunk slot) d).byteAt slot b = 0) ∧
      ∀ a ∈ as, ∀ b, a ≤ b → b < a + 128 → (as.foldl (zeroChunk slot) d).byteAt slot b = 0 := by
  induction as generalizing d with
  | nil => exact ⟨hm, fun b h => h, fun a h => absurd h List.not_mem_nil⟩
  | cons x as ih =>
    obtain ⟨hm', hbytes⟩ := zeroChunk_bytes (slot := slot) (ha x List.mem_cons_self) hm
    obtain ⟨hwf, hzero, hchunks⟩ := ih (fun a h => ha a (List.mem_cons_of_mem _ h)) hm'
    refine ⟨hwf, fun b hb => hzero b ?_, fun a h b hle hlt => ?_⟩
    · rw [hbytes, hb]
      split <;> rfl
    · rcases List.mem_cons.mp h with rfl | h
      · exact hzero b ((hbytes b).trans (if_pos ⟨hle, hlt⟩))
      · exact hchunks a h b hle hlt

/-- The chunks of pages. -/
def chunksOf (pages : List Nat) : List Nat := pages.flatMap fun p => (List.range 32).map fun i => p + 128 * i

theorem zeroPages_eq (slot : Nat) (pages : List Nat) (d : Dev) :
    pages.foldl (fun d p => d.zeroPage slot p) d = (chunksOf pages).foldl (zeroChunk slot) d := by
  have hpage : ∀ (d : Dev) (p : Nat), ((List.range 32).map fun i => p + 128 * i).foldl (zeroChunk slot) d = d.zeroPage slot p :=
    fun d p => List.foldl_map
  rw [chunksOf, List.foldl_flatMap]
  simp only [hpage]

theorem zeroPages_bytes {slot : Nat} {pages : List Nat} (hp : ∀ p ∈ pages, p % 4096 = 0) {d : Dev} (hm : Memory.wf d.mem = true) :
    ∀ p ∈ pages, ∀ b, p ≤ b → b < p + 4096 → (pages.foldl (fun d p => d.zeroPage slot p) d).byteAt slot b = 0 := by
  intro p hpage b hle hlt
  have haligned : ∀ a ∈ chunksOf pages, a % 32 = 0 := fun a h => by
    simp only [chunksOf, List.mem_flatMap, List.mem_map] at h
    obtain ⟨q, hq, i, -, rfl⟩ := h
    have := hp q hq
    omega
  obtain ⟨-, -, hchunks⟩ := zeroChunks_bytes (slot := slot) (chunksOf pages) haligned hm
  rw [zeroPages_eq]
  refine hchunks (p + 128 * ((b - p) / 128)) ?_ b (by omega) (by omega)
  exact List.mem_flatMap.mpr ⟨p, hpage, List.mem_map.mpr ⟨(b - p) / 128, List.mem_range.mpr (by omega), rfl⟩⟩

/-! ## CTXCREATE (R42, R43, R322) -/

section
variable {s : State} {a : CtxArgs} (h : Accepts s) (hready : s.mgmt.ready = true)
include h hready

theorem ctxcreate_badFields (hbad : s.dev.ctxFields a = false) : exec (.ctxcreate a) s = .next (ended s s.dev 1 1) := by
  change execCtxcreate a s = _
  rw [execCtxcreate, if_neg (by simp [hready])]
  exact command_error h (if_pos (by rw [hbad]; rfl))

theorem ctxcreate_ok {pages : List Nat} (hfields : s.dev.ctxFields a = true) (hopen : (s.dev.fn a.fn).tdisp = .unlocked)
    (hnew : s.dev.ctx? a.ctx = none) (hroom : (s.dev.fnCtxs a.fn).length < 16) (hflr : (s.dev.fn a.fn).flr = 0)
    (hpages : (s.dev.tablePages (s.dev.newCtx a)).mapM id = some pages) :
    exec (.ctxcreate a) s = .next (ended s (s.dev.createCtx a pages) 1 0) := by
  change execCtxcreate a s = _
  rw [execCtxcreate, if_neg (by simp [hready])]
  have hlocked : s.dev.locked a.fn = false := by rw [Dev.locked, hopen]; rfl
  refine (command_ok (t := { s with dev := s.dev.createCtx a pages, mgmt := { s.mgmt with cmdCode := 1 } }) h ?_).trans rfl
  have hfree : ((s.dev.ctx? a.ctx).isSome || decide (16 ≤ (s.dev.fnCtxs a.fn).length) || decide (0 < (s.dev.fn a.fn).flr)) = false := by
    rw [hnew, hflr, decide_eq_false (not_le.mpr hroom)]
    rfl
  refine (if_neg (by rw [hfields]; decide)).trans ((if_neg (by rw [hlocked]; decide)).trans ((if_neg (by rw [hfree]; decide)).trans ?_))
  rw [hpages]

end

/-- The device with a new context whose table is still to be zeroed. -/
def withCtx (d : Dev) (a : CtxArgs) : Dev := { d with
  nextId := d.nextId + 2
  ctxs := d.ctxs ++ [d.newCtx a]
  keys := if d.keys.any (·.1 == a.ctx) then d.keys else d.keys ++ [(a.ctx, d.keyBase + a.ctx)] }

theorem createCtx_fields (d : Dev) (a : CtxArgs) (pages : List Nat) :
    (d.createCtx a pages).ctxs = d.ctxs ++ [d.newCtx a] ∧
      (d.createCtx a pages).pending = d.pending ++ [.resident ((d.newCtx a).sealKey + 1) a.ctx (BitVec.ofNat 64 a.code) a.regs] ∧
      (d.createCtx a pages).byteAt a.ctx = (pages.foldl (fun d p => d.zeroPage a.ctx p) (withCtx d a)).byteAt a.ctx := by
  have hserved : Served (withCtx d a) (pages.foldl (fun d p => d.zeroPage a.ctx p) (withCtx d a)) := by
    rw [zeroPages_eq]
    exact .foldl (served_zeroChunk a.ctx) _ _
  have hpending : (pages.foldl (fun d p => d.zeroPage a.ctx p) (withCtx d a)).pending = d.pending := by rw [hserved.rest]; rfl
  exact ⟨hserved.ctxs, congrArg (· ++ _) hpending, rfl⟩

theorem ctxcreate_creates {s : State} {a : CtxArgs} {pages : List Nat} (h : Accepts s) (hready : s.mgmt.ready = true) (hm : memOk s)
    (hfields : s.dev.ctxFields a = true) (hopen : (s.dev.fn a.fn).tdisp = .unlocked) (hnew : s.dev.ctx? a.ctx = none)
    (hroom : (s.dev.fnCtxs a.fn).length < 16) (hflr : (s.dev.fn a.fn).flr = 0)
    (hpages : (s.dev.tablePages (s.dev.newCtx a)).mapM id = some pages) (haligned : ∀ p ∈ pages, p % 4096 = 0) :
    ∃ t c id, exec (.ctxcreate a) s = .next t ∧ Did s t 1 ∧ t.dev.ctxs = s.dev.ctxs ++ [c] ∧ c.n = a.ctx ∧ c.fn = a.fn ∧ c.root = a.root ∧
      c.ctab = a.ctab ∧ c.mbox = a.mbox ∧ c.ptag = a.ptag ∧ c.cancelUs = a.cancelUs ∧ c.atom = a.atom ∧ c.allow = a.energy ∧
      c.preempt = none ∧ c.stopped = false ∧
      t.dev.pending = s.dev.pending ++ [.resident id a.ctx (BitVec.ofNat 64 a.code) a.regs] ∧
      ∀ p ∈ pages, ∀ b, p ≤ b → b < p + 4096 → t.dev.byteAt a.ctx b = 0 := by
  obtain ⟨hctxs, hpending, hbytes⟩ := createCtx_fields s.dev a pages
  obtain ⟨out, hdev⟩ := ended_dev s (s.dev.createCtx a pages) 1 0
  refine ⟨_, s.dev.newCtx a, (s.dev.newCtx a).sealKey + 1, ctxcreate_ok h hready hfields hopen hnew hroom hflr hpages, did_ended _ _ _, ?_,
    rfl, rfl, rfl, rfl, rfl, rfl, rfl, rfl, rfl, rfl, rfl, ?_, ?_⟩
  · rw [hdev]
    exact hctxs
  · rw [hdev]
    exact hpending
  · intro p hp b hle hlt
    have hsame : (ended s (s.dev.createCtx a pages) 1 0).dev.byteAt a.ctx = (s.dev.createCtx a pages).byteAt a.ctx := by
      rw [hdev]
      exact (SameBytes.mk rfl rfl rfl rfl : SameBytes (s.dev.createCtx a pages) _).byteAt a.ctx
    rw [hsame, hbytes]
    exact zeroPages_bytes haligned (d := withCtx s.dev a) hm.1 p hp b hle hlt

/-! ## What the ends of blocks and launches account for (R32, R229, R231, R234) -/

/-- A device is another but for launches, levels, notices, and what its own writes to memory bring about. -/
structure Accounted (d e : Dev) : Prop where
  rest : e = { d with
    waves := e.waves, watches := e.watches, l1 := e.l1, fns := e.fns, out := e.out, nextId := e.nextId, queues := e.queues
    colls := e.colls, jobs := e.jobs, triggers := e.triggers, llc := e.llc, mt := e.mt, xfers := e.xfers, tlb := e.tlb
    loclines := e.loclines, free := e.free, mem := e.mem, sectors := e.sectors, locmem := e.locmem, poison := e.poison
    owed := e.owed, remotes := e.remotes, launches := e.launches, levels := e.levels, ctxs := e.ctxs }
  waves : e.waves.map calm = d.waves.map calm

namespace Accounted

theorem refl (d : Dev) : Accounted d d := ⟨rfl, rfl⟩

theorem trans {d e f : Dev} (h : Accounted d e) (g : Accounted e f) : Accounted d f := by
  obtain ⟨h, hw⟩ := h
  obtain ⟨g, gw⟩ := g
  refine ⟨?_, gw.trans hw⟩
  rw [g, h]

theorem of_served {d e : Dev} (h : Served d e) : Accounted d e := ⟨by rw [h.rest], h.waves⟩

theorem of_rest {d e : Dev} (h : e = { d with
    launches := e.launches, levels := e.levels, ctxs := e.ctxs, queues := e.queues, colls := e.colls, triggers := e.triggers
    fns := e.fns, out := e.out }) : Accounted d e := ⟨by rw [h], by rw [h]⟩

theorem modLaunch (d : Dev) (id : Nat) (f : Launch → Launch) : Accounted d (d.modLaunch id f) := of_rest rfl

theorem ite {p : Prop} [Decidable p] {d a b : Dev} (ha : Accounted d a) (hb : Accounted d b) : Accounted d (if p then a else b) := by
  split
  · exact ha
  · exact hb

theorem foldl {α : Type} {f : Dev → α → Dev} (hf : ∀ d a, Accounted d (f d a)) (l : List α) (d : Dev) : Accounted d (l.foldl f d) := by
  induction l generalizing d with
  | nil => exact refl d
  | cons a l ih => exact (hf d a).trans (ih _)

theorem setEvent (d : Dev) (n b : Nat) : Accounted d (d.setEvent n b) := by
  obtain ⟨out, h⟩ := setEvent_eq d n b
  rw [h]
  exact of_rest rfl

theorem tellPreempt (d : Dev) (ctx : Nat) : Accounted d (d.tellPreempt ctx) := by
  simp only [Dev.tellPreempt]
  split
  · exact refl d
  · split
    · exact refl d
    · exact (of_rest rfl).trans (setEvent _ _ _)

theorem owe (d : Dev) (ctx : Nat) (l : List (Nat × Nat × OwedWrite)) : Accounted d (d.owe ctx l) := of_served (.owe d ctx l)

theorem markLevels (d : Dev) (ctx : Nat) (error cancelled : Bool) (c n addr : Nat) :
    Accounted d (d.markLevels ctx error cancelled c n addr).1 := by
  induction n generalizing d addr with
  | zero => exact refl d
  | succ n ih =>
    simp only [Dev.markLevels]
    split
    · exact refl d
    · exact (of_rest rfl : Accounted d (d.modLevel ctx addr _)).trans (ih _ _)

theorem markLaunch (d : Dev) (id : Nat) (error cancelled : Bool) (c : Nat) : Accounted d (d.markLaunch id error cancelled c) := by
  simp only [Dev.markLaunch]
  split
  · exact refl d
  · exact ((modLaunch d id _).trans (markLevels _ _ _ _ _ _ _)).trans (owe _ _ _)

theorem decLevel (d : Dev) (ctx n addr c : Nat) : Accounted d (d.decLevel ctx n addr c).1 := by
  induction n generalizing d addr c with
  | zero => exact refl d
  | succ n ih =>
    simp only [Dev.decLevel]
    split
    · exact refl d
    next l _ =>
      split
      · refine .trans ?_ (ih _ _ _)
        exact (of_rest rfl : Accounted d { d with levels := d.levels.filter fun x => !(x.ctx == ctx && x.addr == addr) }).trans
          (ite (of_rest rfl) (refl _))
      · exact of_rest rfl

theorem decLaunch (d : Dev) (id n c : Nat) : Accounted d (d.decLaunch id n c) := by
  simp only [Dev.decLaunch]
  split
  · exact refl d
  · split
    · exact ((of_rest rfl).trans (decLevel _ _ _ _ _)).trans (owe _ _ _)
    · exact (modLaunch d id _).trans (owe _ _ _)

theorem releaseDeps (d : Dev) (id : Nat) : Accounted d (d.releaseDeps id) := by
  simp only [Dev.releaseDeps]
  split
  · exact refl d
  · exact ite (refl d) (of_rest rfl)

theorem exitChunk (d : Dev) (l : Launch) (b : Block) (t : Nat) : Accounted d (d.exitChunk l b t) := by
  simp only [Dev.exitChunk]
  split
  · exact refl d
  · split
    · exact of_rest rfl
    · exact of_rest rfl

section
variable {d e : Dev} (h : Accounted d e)
include h

theorem blocks : e.blocks = d.blocks := by rw [h.rest]
theorem pending : e.pending = d.pending := by rw [h.rest]

end

end Accounted

/-! ## CTXDESTROY (R330) -/

/-- A block that is finished is gone, and everything besides is accounted for. -/
theorem finishBlock_accounted (d : Dev) (b : Block) : Accounted (d.removeBlock b) (d.finishBlock b) := by
  have htell := Accounted.tellPreempt (d.removeBlock b) b.ctx
  simp only [Dev.finishBlock]
  split
  · split
    · split
      · exact htell.trans (.ite (.refl _) (.setEvent _ _ _))
      · exact htell
    · exact htell
  · exact (((htell.trans (.exitChunk _ _ _ _)).trans (.modLaunch _ _ _)).trans (.decLaunch _ _ _ _)).trans (.releaseDeps _ _)

theorem removeBlock_fields (d : Dev) (b : Block) :
    (d.removeBlock b).blocks = d.blocks.filter (·.id != b.id) ∧ (d.removeBlock b).pending = d.pending := ⟨rfl, rfl⟩

theorem finishBlock_fields (d : Dev) (b : Block) :
    (d.finishBlock b).blocks = d.blocks.filter (·.id != b.id) ∧ (d.finishBlock b).pending = d.pending :=
  ⟨(finishBlock_accounted d b).blocks, (finishBlock_accounted d b).pending⟩

/-- When blocks are finished, the others stay as they are. -/
theorem finishBlocks_fields (L : List Block) (d : Dev) :
    (∀ b ∈ (L.foldl (fun d b => d.finishBlock b) d).blocks, b ∈ d.blocks ∧ ∀ x ∈ L, b.id ≠ x.id) ∧
      (L.foldl (fun d b => d.finishBlock b) d).pending = d.pending := by
  induction L generalizing d with
  | nil => exact ⟨fun b hb => ⟨hb, fun x hx => absurd hx List.not_mem_nil⟩, rfl⟩
  | cons y L ih =>
    obtain ⟨hblocks, hpending⟩ := finishBlock_fields d y
    obtain ⟨ihblocks, ihpending⟩ := ih (d.finishBlock y)
    refine ⟨fun b hb => ?_, ihpending.trans hpending⟩
    obtain ⟨hmem, hne⟩ := ihblocks b hb
    rw [hblocks, List.mem_filter, bne_iff_ne] at hmem
    refine ⟨hmem.1, fun x hx => ?_⟩
    rcases List.mem_cons.mp hx with rfl | hx
    · exact hmem.2
    · exact hne x hx

/-- The blocks of a context are finished. -/
def blocksEnded (ctx : Nat) (d : Dev) : Dev := (d.blocks.filter (·.ctx == ctx)).foldl (fun d b => d.finishBlock b) d

/-- The launches of a context are marked as cancelled and end. -/
def launchesEnded (L : List Launch) (d : Dev) : Dev :=
  L.foldl (fun d l => (d.markLaunch l.id false true l.time).decLaunch l.id l.count l.time) d

theorem blocksEnded_fields (ctx : Nat) (d : Dev) :
    (∀ b ∈ (blocksEnded ctx d).blocks, b.ctx ≠ ctx) ∧ (blocksEnded ctx d).pending = d.pending := by
  obtain ⟨hblocks, hpending⟩ := finishBlocks_fields (d.blocks.filter (·.ctx == ctx)) d
  refine ⟨fun b hb heq => ?_, hpending⟩
  obtain ⟨hmem, hne⟩ := hblocks b hb
  exact hne b (List.mem_filter.mpr ⟨hmem, beq_iff_eq.mpr heq⟩) rfl

theorem accounted_launchesEnded (L : List Launch) (d : Dev) : Accounted d (launchesEnded L d) :=
  .foldl (f := fun d (l : Launch) => (d.markLaunch l.id false true l.time).decLaunch l.id l.count l.time)
    (fun d l => (Accounted.markLaunch d l.id false true l.time).trans (.decLaunch _ _ _ _)) L d

/-- Everything that CTXDESTROY stops before the context's work is discarded. -/
def stoppedCtx (d : Dev) (ctx : Nat) : Dev :=
  let blocks := d.blocks.filter (·.ctx == ctx)
  let d := (blocks.filter (!·.resident)).foldl (fun d b => d.forceExit b.id) d
  let d := d.drainStores ctx
  (blocks.filter (·.resident)).foldl (fun d b => (d.stopWaves b).removeBlock b) d

/-- What CTXDESTROY leaves of the device. -/
def destroyed (d : Dev) (ctx : Nat) : Dev :=
  ((launchesEnded ((stoppedCtx d ctx).launches.filter (·.ctx == ctx)) (blocksEnded ctx ((stoppedCtx d ctx).discardWork (· == ctx)))).dropCtxs
    (· == ctx)).dropServers (·.args.ctx == ctx)

theorem discardWork_pending (d : Dev) (mine : Nat → Bool) : ∀ p ∈ (d.discardWork mine).pending, mine p.ctx = false := by
  intro p hp
  have hkept := (List.mem_filter.mp hp).2
  rwa [Bool.not_eq_true'] at hkept

theorem dropCtxs_fields (d : Dev) (ctx : Nat) :
    (d.dropCtxs (· == ctx)).ctx? ctx = none ∧ (∀ o ∈ (d.dropCtxs (· == ctx)).memops, o.ctx ≠ ctx) ∧
      (∀ l ∈ (d.dropCtxs (· == ctx)).launches, l.ctx ≠ ctx) ∧ (∀ e ∈ (d.dropCtxs (· == ctx)).tlb, e.ctx ≠ ctx) ∧
      (∀ q ∈ (d.dropCtxs (· == ctx)).queues, q.ctx ≠ ctx) := by
  have hkept : ∀ {α : Type} (f : α → Nat) (l : List α), ∀ x ∈ l.filter (fun x => !(f x == ctx)), f x ≠ ctx := fun f l x hx => by
    have := (List.mem_filter.mp hx).2
    rwa [Bool.not_eq_true', beq_eq_false_iff_ne] at this
  refine ⟨List.find?_eq_none.mpr fun c hc hn => ?_, hkept (fun o : MemOp => o.ctx) _,
    hkept (fun l : Launch => l.ctx) _, hkept (fun e : TlbEntry => e.ctx) _, hkept (fun q : CollQueue => q.ctx) _⟩
  exact hkept (fun c : Ctx => c.n) _ c hc (beq_iff_eq.mp hn)

theorem ctxdestroy_gone (d : Dev) (ctx : Nat) :
    (destroyed d ctx).ctx? ctx = none ∧ (∀ b ∈ (destroyed d ctx).blocks, b.ctx ≠ ctx) ∧
      (∀ o ∈ (destroyed d ctx).memops, o.ctx ≠ ctx) ∧ (∀ l ∈ (destroyed d ctx).launches, l.ctx ≠ ctx) ∧
      (∀ p ∈ (destroyed d ctx).pending, p.ctx ≠ ctx) ∧ (∀ v ∈ (destroyed d ctx).servers, v.args.ctx ≠ ctx) ∧
      (∀ e ∈ (destroyed d ctx).tlb, e.ctx ≠ ctx) ∧ (∀ q ∈ (destroyed d ctx).queues, q.ctx ≠ ctx) := by
  unfold destroyed
  generalize hstop : stoppedCtx d ctx = e
  obtain ⟨hblocks, hpending⟩ := blocksEnded_fields ctx (e.discardWork (· == ctx))
  have hacc := accounted_launchesEnded (e.launches.filter (·.ctx == ctx)) (blocksEnded ctx (e.discardWork (· == ctx)))
  have hwork := discardWork_pending e (· == ctx)
  generalize launchesEnded _ _ = f at hacc
  obtain ⟨hctx, hops, hlaunches, htlb, hqueues⟩ := dropCtxs_fields f ctx
  obtain ⟨x, hx, hdrop⟩ := dropServers_ways (f.dropCtxs (· == ctx)) (·.args.ctx == ctx)
  have hservers := dropServers_servers (f.dropCtxs (· == ctx)) (·.args.ctx == ctx)
  rw [hdrop.rest, hx.rest] at *
  refine ⟨hctx, fun b hb => hblocks b ?_, hops, hlaunches, fun p hp => ?_, fun v hv => ?_, htlb, hqueues⟩
  · rw [← hacc.blocks]
    exact hb
  · refine beq_eq_false_iff_ne.mp (hwork p ?_)
    rw [← hpending, ← hacc.pending]
    exact hp
  · have := (List.mem_filter.mp hv).2
    rwa [Bool.not_eq_true', beq_eq_false_iff_ne] at this

section
variable {s : State}

theorem ctxdestroy_none {ctx : Nat} (h : Accepts s) (hnone : s.dev.ctx? ctx = none) : exec (.ctxdestroy ctx) s = .next (ended s s.dev 2 1) := by
  change execCtxdestroy ctx s = _
  refine devCommand_refuses (b := true) h ?_
  simp only [hnone, Option.isNone_none, List.find?_cons]

theorem ctxdestroy_taken {c : Ctx} (h : Accepts s) (hc : s.dev.ctx? c.n = some c) (hopen : (s.dev.fn c.fn).tdisp = .unlocked) :
    exec (.ctxdestroy c.n) s = .next (ended s (destroyed s.dev c.n) 2 0) := by
  change execCtxdestroy c.n s = _
  refine devCommand_passes h ?_
  have hlocked : s.dev.ctxLocked c.n = false := by rw [Dev.ctxLocked, hc, Option.any_some, Dev.locked, hopen]; rfl
  simp only [hc, hlocked, Option.isNone_some, List.find?_cons, List.find?_nil]

theorem ctxdestroy_destroys {c : Ctx} (h : Accepts s) (hc : s.dev.ctx? c.n = some c) (hopen : (s.dev.fn c.fn).tdisp = .unlocked) :
    ∃ t, exec (.ctxdestroy c.n) s = .next t ∧ Did s t 2 ∧ t.dev.ctx? c.n = none ∧ (∀ b ∈ t.dev.blocks, b.ctx ≠ c.n) ∧
      (∀ o ∈ t.dev.memops, o.ctx ≠ c.n) ∧ (∀ l ∈ t.dev.launches, l.ctx ≠ c.n) ∧ (∀ p ∈ t.dev.pending, p.ctx ≠ c.n) ∧
      (∀ v ∈ t.dev.servers, v.args.ctx ≠ c.n) ∧ (∀ e ∈ t.dev.tlb, e.ctx ≠ c.n) ∧ (∀ q ∈ t.dev.queues, q.ctx ≠ c.n) := by
  have hgone := ctxdestroy_gone s.dev c.n
  refine ⟨_, ctxdestroy_taken h hc hopen, did_ended _ _ _, ?_⟩
  generalize destroyed s.dev c.n = d at hgone
  obtain ⟨out, hdev⟩ := ended_dev s d 2 0
  rw [hdev]
  exact hgone

end

/-- Settles O47: each command's step, and the write of CMDCTL that starts it. -/
theorem contextCommands : Obligations.ContextCommands := by
  unfold Obligations.ContextCommands
  refine ⟨?_, ?_, ?_, ?_, ?_, ?_, ?_, ?_, ?_, ?_, ?_⟩
  · intro s i code h hbusy hgo hi
    exact command_busy h hbusy hgo hi
  · intro s v h hreach code
    have hexec : exec (.registerWrite 0 0x1100 v) s = .next (s.commandControl v.toNat) :=
      (registerWrite_eq h hreach).trans (congrArg _ (writeReg_cmdctl s v.toNat))
    rw [hexec]
    exact ⟨fun hv => congrArg _ (commandControl_kept hv), fun hv hidle => congrArg _ (commandControl_go hv hidle)⟩
  · intro s code i h hbusy hgo hcode hready hi
    exact command_gone h hbusy hgo hcode hready hi
  · intro s code h hcode
    exact (if_neg (by omega)).trans (command_error (f := fun _ => .error 1) h rfl)
  · intro s a h hready
    exact ctxcreate_unready h hready
  · intro s a h hready d
    refine ⟨ctxcreate_badFields h hready, ?_⟩
    intro pages hm hfields hopen hnew hroom hflr hpages haligned
    exact ctxcreate_creates h hready hm hfields hopen hnew hroom hflr hpages haligned
  · intro s c h hc hopen
    exact ctxdestroy_destroys h hc hopen
  · intro s ctx h hnone
    exact ctxdestroy_none h hnone
  · intro s a h hpoint d
    refine ⟨server_removed h hpoint, fun hsome hfields hctx hways => ⟨?_, server_refused h hpoint hsome hfields hctx hways⟩⟩
    intro hgone hbounds hok hfit hroute
    have hput := server_admitted h hpoint hsome hfields hctx hways hgone hbounds hok hfit hroute
    constructor
    · intro hnone
      rw [show s.dev.server? a.ctx a.point = none from hnone, Option.getD_none, changedServer_new] at hput
      exact hput
    · intro v hv
      rw [show s.dev.server? a.ctx a.point = some v from hv] at hput
      exact hput
  · intro s fn window base len h hfn hwin hbase hlen hmap hopen hapart
    exact window_sets h hfn hwin hbase hlen hmap hopen hapart
  · intro s c h hc hne hopen hres
    exact keyrot_rekeys h hc hne hopen hres

end Sys2Proof.Proofs
end

section
/-!
PROOFS. Function-level reset (12: R345): FLR_DRAINED can leave a collective of the function.
-/

open Sys2Proof Sys2Proof.Machine Sys2Proof.Claims

-- The whole text is compiled in one process, which can hold few threads: these proofs are elaborated in order.
set_option Elab.async false

namespace Sys2Proof.Proofs

/-! ## A state with two contexts of one number

R42 gives a number to one context, but the statement speaks of every state. Here number 1 belongs to a context of the PF and to one of
the VF that is reset. The model finds the PF's context by the number, so R390 does not keep it from writing the failed collective's
STATUS (R226, R345); that write meets a triggered operation of the number (R227), which posts a new collective after FLR_DRAINED has
collected those to be discarded. -/

/-- A context with a number and a function. -/
def numbered (n fn : Nat) : Ctx := ⟨n, fn, 0, 0, 0, 0, 0, 1, false, 0, 0, 0, 0, 0, none, false, 0⟩

/-- A collective without elements, whose STATUS lies at 64. -/
def statusAt64 : Desc := ⟨0, 0, 0, 0, 0, 0, 0, 0, 0, 0, 0, 0, false, 0, 64⟩

/-- A queue of the number, with one rank. -/
def loneQueue : CollQueue := ⟨1, 0, ⟨1, 0, [], 3, 0⟩, []⟩

/-- VF 1 has come to step 2 of its reset; a collective of number 1 stands, and a triggered operation waits for its STATUS. -/
def sharedNumber : State := { State.reset with dev := { Dev.reset with
  ctxs := [numbered 1 0, numbered 1 1]
  fns := [{ Fn.reset 1 with flr := 2 }]
  sectors := [⟨2, 1, 0⟩]
  tlb := [⟨0, 1, 4096, 0, 0, ⟨0, none, false, true, true⟩⟩]
  queues := [loneQueue]
  colls := [loneQueue.fresh 5 statusAt64 0 none]
  triggers := [⟨7, 1, none, false, 64, 0, statusAt64, 0⟩] } }

/-- The contexts of the collectives that a step leaves. -/
def collContexts : Host.Outcome State Fault Refusal → List Nat
  | .next t => t.dev.colls.map (·.ctx)
  | _ => []

theorem collContexts_sharedNumber : collContexts (exec (.flrDrained 1) sharedNumber) = [1] := by rfl

/-- Refutes O49: where two functions have a context of one number, FLR_DRAINED leaves a collective of the number. -/
theorem not_functionReset : ¬ Obligations.FunctionReset := by
  unfold Obligations.FunctionReset
  rintro ⟨-, -, hdrained, -⟩
  obtain ⟨t, hexec, -, hdiscarded, -⟩ := hdrained sharedNumber 1 ⟨by decide, by decide, rfl⟩
  obtain ⟨-, -, -, -, -, -, hcolls, -⟩ := hdiscarded 1 ⟨numbered 1 1, by decide, rfl, rfl⟩
  have hleft := collContexts_sharedNumber
  rw [hexec] at hleft
  have hmem : 1 ∈ t.dev.colls.map (·.ctx) := by
    rw [show t.dev.colls.map (·.ctx) = [1] from hleft]
    exact List.mem_singleton_self 1
  obtain ⟨c, hc, hctx⟩ := List.mem_map.mp hmem
  exact hcolls c hc hctx

end Sys2Proof.Proofs
end

section
/-!
PROOFS. Heat, migration, retention, package reset and bring-up (13: R357 to R361).
-/

open Sys2Proof Sys2Proof.Machine Sys2Proof.Claims

-- The whole text is compiled in one process, which can hold few threads: these proofs are elaborated in order.
set_option Elab.async false

namespace Sys2Proof.Proofs

/-! ## The largest of a list -/

theorem foldl_max_le {l : List Nat} {m n : Nat} : l.foldl max m ≤ n ↔ m ≤ n ∧ ∀ x ∈ l, x ≤ n := by
  induction l generalizing m with
  | nil => simp
  | cons x l ih =>
    rw [List.foldl_cons, ih, max_le_iff]
    simp only [List.mem_cons, forall_eq_or_imp, and_assoc]

theorem maxOf_le {l : List Nat} {n : Nat} : maxOf l ≤ n ↔ ∀ x ∈ l, x ≤ n := by
  rw [maxOf, foldl_max_le]
  exact and_iff_right (Nat.zero_le n)

theorem le_maxOf {l : List Nat} {x : Nat} (h : x ∈ l) : x ≤ maxOf l := maxOf_le.mp le_rfl x h

theorem foldl_max_mem (l : List Nat) (m : Nat) : l.foldl max m = m ∨ l.foldl max m ∈ l := by
  induction l generalizing m with
  | nil => exact .inl rfl
  | cons x l ih =>
    rw [List.foldl_cons]
    rcases ih (max m x) with h | h
    · rw [h]
      rcases max_choice m x with hm | hm
      · exact .inl hm
      · rw [hm]
        exact .inr List.mem_cons_self
    · exact .inr (List.mem_cons_of_mem _ h)

/-- The largest of a list that holds zero is in it. -/
theorem maxOf_mem {l : List Nat} (h : 0 ∈ l) : maxOf l ∈ l := by
  rcases foldl_max_mem l 0 with h0 | hmem
  · rw [maxOf, h0]
    exact h
  · exact hmem

/-! ## Levels of heat (R357) -/

theorem levelOf_mem {old top l : Nat} :
    l ∈ (List.range 4).filter (fun l => l = 0 || decide (thermalThreshold l ≤ top) ||
      (decide (l ≤ old) && decide (thermalThreshold l < top + 5))) ↔ l < 4 ∧ InForce old top l := by
  simp only [List.mem_filter, List.mem_range, Bool.or_eq_true, Bool.and_eq_true, decide_eq_true_eq, or_assoc]
  rfl

theorem levelOf_inForce (old top : Nat) : levelOf old top < 4 ∧ InForce old top (levelOf old top) :=
  levelOf_mem.mp (maxOf_mem (levelOf_mem.mpr ⟨by decide, .inl rfl⟩))

theorem le_levelOf {old top l : Nat} (hl : l < 4) (h : InForce old top l) : l ≤ levelOf old top := le_maxOf (levelOf_mem.mpr ⟨hl, h⟩)

theorem levelOf_eq_three {old top : Nat} : levelOf old top = 3 ↔ InForce old top 3 := by
  obtain ⟨hlt, hin⟩ := levelOf_inForce old top
  constructor
  · intro h
    rw [h] at hin
    exact hin
  · intro h
    have := le_levelOf (by decide) h
    omega

theorem assoc_assocPut_same (l : List (Nat × Nat)) (k v : Nat) : assoc (assocPut l k v) k = v := by
  rw [assoc, find?_assocPut_same]
  rfl

/-! ## Migration (R358) -/

/-- The device after a migration request has opened for cores. -/
def migratingDev (d : Dev) (cores : List Nat) : Dev :=
  (d.blocks.filter fun b => cores.contains b.core).foldl (fun d b => d.raiseBlock b.id cMigrate)
    (cores.foldl (fun (d : Dev) c => d.modCore c fun x => { x with migrating := true }) d)

theorem openMigration_allow (s : State) (die : Nat) (temps : List (Nat × Nat)) :
    (s.openMigration die temps).dev.allow = s.dev.allow ∧
      (s.openMigration die temps).mgmt = { s.mgmt with migrations := (s.openMigration die temps).mgmt.migrations } := by
  simp only [State.openMigration]
  split
  · exact ⟨rfl, rfl⟩
  · refine ⟨?_, rfl⟩
    have hcores : ∀ (L : List Nat) (d : Dev),
        (L.foldl (fun (d : Dev) c => d.modCore c fun x => { x with migrating := true }) d).allow = d.allow := fun L => by
      induction L with
      | nil => exact fun _ => rfl
      | cons c L ih => exact fun d => ih _
    rw [(Signalled.foldl (f := fun d (b : Block) => d.raiseBlock b.id cMigrate) (fun d b => Signalled.raiseBlock rfl d b.id) _ _).rest]
    exact hcores _ _

/-- A migration request for the one core that is reported. -/
theorem openMigration_one {s : State} {die c x : Nat} (hdie : dieOf c = die) (hx : 95 ≤ x) (hnone : ∀ m ∈ s.mgmt.migrations, m.die ≠ die) :
    ((s.openMigration die [(c, x)]).dev.core c).migrating = true ∧
      (s.openMigration die [(c, x)]).mgmt.migrations = s.mgmt.migrations ++ [⟨die, [c], s.dev.clock⟩] := by
  have hhot : hottest 16 ([(c, x)].filter fun t => dieOf t.1 == die && decide (thermalThreshold 1 ≤ t.2)) = [c] := by
    have hkeep : (dieOf c == die && decide (thermalThreshold 1 ≤ x)) = true := by
      rw [hdie, beq_self_eq_true, Bool.true_and]
      exact decide_eq_true hx
    simp only [List.filter_cons, hkeep, if_true, List.filter_nil]
    simp [hottest, leastBy]
  have hfree : (s.mgmt.migrations.any (·.die == die)) = false := by
    rw [List.any_eq_false]
    exact fun m hm h => hnone m hm (beq_iff_eq.mp h)
  have hopen : s.openMigration die [(c, x)] = { s with
      dev := migratingDev s.dev [c], mgmt := { s.mgmt with migrations := s.mgmt.migrations ++ [⟨die, [c], s.dev.clock⟩] } } := by
    simp only [State.openMigration, hhot, hfree, List.isEmpty_cons, Bool.or_self, Bool.false_eq_true, if_false]
    rfl
  rw [hopen]
  refine ⟨?_, rfl⟩
  have hsignalled := Signalled.foldl (f := fun d (b : Block) => d.raiseBlock b.id cMigrate) (fun d b => Signalled.raiseBlock rfl d b.id)
    (s.dev.blocks.filter fun b => [c].contains b.core) (s.dev.modCore c fun x => { x with migrating := true })
  have hcore : (migratingDev s.dev [c]).core c = (s.dev.modCore c fun x => { x with migrating := true }).core c := by
    rw [show migratingDev s.dev [c] = _ from hsignalled.rest]
    rfl
  rw [hcore, core_modCore (f := fun x => { x with migrating := true }) (fun _ => rfl)]

theorem thermalLevel_trips {s : State} {die : Nat} {temps : List (Nat × Nat)} (hdie : die < 4)
    (h : InForce (assoc s.mgmt.levels die) (maxOf (temps.map (·.2))) 3) : exec (.thermalLevel die temps) s = exec .packageReset s := by
  change execThermalLevel die temps s = _
  rw [execThermalLevel, if_neg (not_le.mpr hdie)]
  exact if_pos (levelOf_eq_three.mpr h)

/-- The state after a die's level has been taken, before a migration request. -/
def levelTaken (s : State) (die top : Nat) : State :=
  ({ s with mgmt := { s.mgmt with
    temps := assocPut s.mgmt.temps die top
    levels := assocPut s.mgmt.levels die (levelOf (assoc s.mgmt.levels die) top) } } : State).setAllowance die

theorem thermalLevel_eq {s : State} {die : Nat} {temps : List (Nat × Nat)} (hdie : die < 4)
    (h : ¬ InForce (assoc s.mgmt.levels die) (maxOf (temps.map (·.2))) 3) : exec (.thermalLevel die temps) s =
      .next (if 1 ≤ levelOf (assoc s.mgmt.levels die) (maxOf (temps.map (·.2)))
        then (levelTaken s die (maxOf (temps.map (·.2)))).openMigration die temps else levelTaken s die (maxOf (temps.map (·.2)))) := by
  change execThermalLevel die temps s = _
  rw [execThermalLevel, if_neg (not_le.mpr hdie)]
  exact if_neg (fun h3 => h (levelOf_eq_three.mp h3))

theorem levelTaken_fields {s : State} {die top : Nat} (hdie : die < s.dev.allow.length) :
    let l := levelOf (assoc s.mgmt.levels die) top
    assoc (levelTaken s die top).mgmt.levels die = l ∧ assoc (levelTaken s die top).mgmt.temps die = top ∧
      (levelTaken s die top).mgmt.watts = s.mgmt.watts ∧ (levelTaken s die top).mgmt.migrations = s.mgmt.migrations ∧
      (levelTaken s die top).dev.allow[die]? = some (s.mgmt.watts * (100 - 5 * s.mgmt.cuts) * (if 2 ≤ l then 1 else 2) / 160) ∧
      (levelTaken s die top).dev.clock = s.dev.clock := by
  have hleased := putAllowance_leased s.dev die (Mgmt.dieAllow { s.mgmt with
    temps := assocPut s.mgmt.temps die top
    levels := assocPut s.mgmt.levels die (levelOf (assoc s.mgmt.levels die) top) } die)
  refine ⟨assoc_assocPut_same _ _ _, assoc_assocPut_same _ _ _, rfl, rfl, ?_, ?_⟩
  · have hset : (levelTaken s die top).dev.allow = s.dev.allow.set die (Mgmt.dieAllow { s.mgmt with
        temps := assocPut s.mgmt.temps die top
        levels := assocPut s.mgmt.levels die (levelOf (assoc s.mgmt.levels die) top) } die) := hleased.allow_eq
    rw [hset, List.getElem?_set_self hdie, Mgmt.dieAllow, Mgmt.dieShare, assoc_assocPut_same]
  · exact hleased.clock_eq

theorem thermalLevel_takes {s : State} {die : Nat} {temps : List (Nat × Nat)} (hdie : die < 4)
    (h : ¬ InForce (assoc s.mgmt.levels die) (maxOf (temps.map (·.2))) 3) (hallow : s.dev.allow.length = 4) :
    ∃ t, exec (.thermalLevel die temps) s = .next t ∧
      InForce (assoc s.mgmt.levels die) (maxOf (temps.map (·.2))) (assoc t.mgmt.levels die) ∧
      (∀ l < 4, InForce (assoc s.mgmt.levels die) (maxOf (temps.map (·.2))) l → l ≤ assoc t.mgmt.levels die) ∧
      assoc t.mgmt.temps die = maxOf (temps.map (·.2)) ∧ t.mgmt.watts = s.mgmt.watts ∧
      t.dev.allow[die]? = some (s.mgmt.watts * (100 - 5 * s.mgmt.cuts) * (if 2 ≤ assoc t.mgmt.levels die then 1 else 2) / 160) ∧
      ∀ c x, temps = [(c, x)] → dieOf c = die → 95 ≤ x → (∀ m ∈ s.mgmt.migrations, m.die ≠ die) →
        (t.dev.core c).migrating = true ∧ t.mgmt.migrations = s.mgmt.migrations ++ [⟨die, [c], s.dev.clock⟩] := by
  generalize htop : maxOf (temps.map (·.2)) = top at *
  obtain ⟨hlevels, htemps, hwatts, hmigr, hset, hclock⟩ := levelTaken_fields (s := s) (die := die) (top := top) (by omega)
  obtain ⟨hallow', hmgmt⟩ := openMigration_allow (levelTaken s die top) die temps
  have hexec := thermalLevel_eq (temps := temps) hdie (by rw [htop]; exact h)
  rw [htop] at hexec
  obtain ⟨-, hin⟩ := levelOf_inForce (assoc s.mgmt.levels die) top
  refine ⟨_, hexec, ?_⟩
  split
  next hlevel =>
    have hassoc : assoc ((levelTaken s die top).openMigration die temps).mgmt.levels die = levelOf (assoc s.mgmt.levels die) top := by
      rw [hmgmt]
      exact hlevels
    rw [hassoc, hallow', hset]
    refine ⟨hin, fun l hl hf => le_levelOf hl hf, by rw [hmgmt]; exact htemps, by rw [hmgmt]; exact hwatts, rfl, ?_⟩
    rintro c x rfl hc hx hnone
    obtain ⟨hcore, hopened⟩ := openMigration_one (s := levelTaken s die top) hc hx (by rw [hmigr]; exact hnone)
    exact ⟨hcore, by rw [hopened, hmigr, hclock]⟩
  next hlevel =>
    rw [hlevels, hset]
    refine ⟨hin, fun l hl hf => le_levelOf hl hf, htemps, hwatts, rfl, ?_⟩
    rintro c x rfl hc hx hnone
    have hx' : x = top := by rw [← htop]; simp [maxOf]
    exact absurd (le_levelOf (l := 1) (by decide) (.inr (.inl (by omega)))) hlevel

/-! ## The end of a migration request (R358) -/

/-- No migration is asked of some cores any more. -/
def settledCores (d : Dev) (cores : List Nat) : Dev :=
  cores.foldl (fun (d : Dev) c => d.modCore c fun x => { x with migrating := false }) d

theorem settledCores_waves (cores : List Nat) (d : Dev) : (settledCores d cores).waves = d.waves := by
  induction cores generalizing d with
  | nil => rfl
  | cons c cores ih => exact ih _

/-- A core of the list, or one that was not migrating, is not migrating afterwards. -/
theorem settledCores_core (c : Nat) (cores : List Nat) (d : Dev) (h : c ∈ cores ∨ (d.core c).migrating = false) :
    ((settledCores d cores).core c).migrating = false := by
  induction cores generalizing d with
  | nil => exact h.resolve_left (by simp)
  | cons x cores ih =>
    refine ih _ ?_
    by_cases hc : c = x
    · right
      rw [hc, core_modCore (f := fun x => { x with migrating := false }) (fun _ => rfl)]
    · rw [core_modCore_other (f := fun x => { x with migrating := false }) (fun _ => rfl) d hc]
      exact h.imp_left fun hmem => (List.mem_cons.mp hmem).resolve_left hc

theorem migrationClose_ends {s : State} {m : Migration} {temps : List (Nat × Nat)}
    (hm : s.mgmt.migrations.find? (·.die == m.die) = some m) (hlevel : assoc s.mgmt.levels m.die = 0)
    (hend : (∀ c ∈ m.cores, ∃ x, (c, x) ∈ temps ∧ x < 90) ∨ m.opened + 24000000 ≤ s.dev.clock) :
    exec (.migrationClose m.die temps) s = .next { s with
      dev := settledCores s.dev m.cores, mgmt := { s.mgmt with migrations := s.mgmt.migrations.filter (·.die != m.die) } } := by
  have hguard : (m.cores.all (fun c => temps.any fun t => t.1 == c && decide (t.2 < 90)) ||
      decide (m.opened + 24000000 ≤ s.dev.clock)) = true := by
    rw [Bool.or_eq_true, decide_eq_true_eq]
    refine hend.imp_left fun h => List.all_eq_true.mpr fun c hc => List.any_eq_true.mpr ?_
    obtain ⟨x, hmem, hx⟩ := h c hc
    exact ⟨(c, x), hmem, by simp [hx]⟩
  change execMigrationClose m.die temps s = _
  simp only [execMigrationClose, hm, hguard, if_true, hlevel]
  rfl

theorem migrationClose_stays {s : State} {m : Migration} {temps : List (Nat × Nat)}
    (hm : s.mgmt.migrations.find? (·.die == m.die) = some m) (hwarm : ∃ c ∈ m.cores, ∀ x ∈ temps, x.1 ≠ c ∨ 90 ≤ x.2)
    (hclock : s.dev.clock < m.opened + 24000000) : exec (.migrationClose m.die temps) s = .next s := by
  have hguard : (m.cores.all (fun c => temps.any fun t => t.1 == c && decide (t.2 < 90)) ||
      decide (m.opened + 24000000 ≤ s.dev.clock)) = false := by
    rw [Bool.or_eq_false_iff, decide_eq_false_iff_not, List.all_eq_false]
    obtain ⟨c, hc, hhot⟩ := hwarm
    refine ⟨⟨c, hc, ?_⟩, by omega⟩
    rw [Bool.not_eq_true, List.any_eq_false]
    intro x hx h
    rw [Bool.and_eq_true, beq_iff_eq, decide_eq_true_eq] at h
    rcases hhot x hx with hne | hge
    · exact hne h.1
    · omega
  change execMigrationClose m.die temps s = _
  simp only [execMigrationClose, hm, hguard, Bool.false_eq_true, if_false]

/-! ## Islands (R359) -/

theorem island_modIsland {f : Island → Island} (hf : ∀ i, (f i).n = i.n) (m : Mgmt) (n : Nat) :
    (m.modIsland n f).island n = f (m.island n) := by
  have hn : (m.island n).n = n := by
    rw [Mgmt.island]
    cases h : m.islands.find? (·.n == n) with
    | none =>
      rw [Option.getD_none]
      split <;> rfl
    | some i => exact beq_iff_eq.mp (List.find?_some (p := fun i : Island => i.n == n) h)
  have hfind : (m.modIsland n f).islands.find? (·.n == n) = some (f ((m.islands.find? (·.n == n)).getD (m.island n))) :=
    find?_upsert_same (fun x hx => by rw [hf]; exact hx) (by rw [hf, hn]; exact beq_self_eq_true n) _
  rw [Mgmt.island, hfind, Option.getD_some]
  congr 1
  cases h : m.islands.find? (·.n == n) with
  | none => rfl
  | some i => rw [Option.getD_some, Mgmt.island, h, Option.getD_some]

/-- The beginning of a rise changes only when the island's next step is due. -/
theorem startRise_island (m : Mgmt) (now n : Nat) :
    m.startRise now n = { m with islands := (m.startRise now n).islands } ∧
      ∃ t, (m.startRise now n).island n = { m.island n with next := t } := by
  rw [Mgmt.startRise]
  split
  · exact ⟨rfl, _, island_modIsland (f := fun i => { i with next := some (now + 480) }) (fun _ => rfl) m n⟩
  · exact ⟨rfl, _, rfl⟩

/-- The highest operating point that an island's vote and its rail's voltage allow. -/
def wakePoint (m : Mgmt) (n : Nat) : Nat :=
  maxOf ((List.range 6).filter fun p => decide (p ≤ (m.island n).vote ∧ pointMv p + 30 ≤ (m.rail (railOf n)).mv))

theorem awake_wakeIsland (s t : State) (now core : Nat) (ht : t.mgmt = s.mgmt.wakeIsland now core) : Awake s t core := by
  have hisland := island_modIsland (f := fun i => { i with mv := pointMv (wakePoint s.mgmt core), mhz := pointMhz (wakePoint s.mgmt core), next := none })
    (fun _ => rfl) s.mgmt core
  obtain ⟨hrest, u, hu⟩ := startRise_island (s.mgmt.modIsland core fun i =>
    { i with mv := pointMv (wakePoint s.mgmt core), mhz := pointMhz (wakePoint s.mgmt core), next := none }) now core
  rw [hisland] at hu
  have hwake : t.mgmt.island core = _ := (congrArg (fun m => Mgmt.island m core) ht).trans hu
  refine ⟨?_, wakePoint s.mgmt core, maxOf_le.mpr fun p hp => ?_, ?_, ?_, ?_, fun q hq hvote hrail => le_maxOf ?_⟩
  · rw [ht]
    exact hrest
  · exact (of_decide_eq_true (List.mem_filter.mp hp).2).1
  · rw [hwake]
  · rw [hwake]
  · rw [hwake]
  · exact List.mem_filter.mpr ⟨List.mem_range.mpr hq, decide_eq_true ⟨hvote, hrail⟩⟩

/-! ## Retention (R359, R360) -/

theorem engine_modEngine_other {f : Engine → Engine} (d : Dev) (core : Nat) {kd k : EngKind} (hne : k ≠ kd)
    (hf : ∀ e, (f e).core = e.core ∧ (f e).kind = e.kind) : (d.modEngine core kd f).engine core k = d.engine core k := by
  have hother : ∀ e : Engine, (e.core == core && e.kind == kd) = true → (e.core == core && e.kind == k) = false := fun e he => by
    obtain ⟨-, hkind⟩ := Bool.and_eq_true_iff.mp he
    rw [beq_iff_eq.mp hkind, Bool.and_eq_false_iff, beq_eq_false_iff_ne, beq_eq_false_iff_ne]
    exact .inr (Ne.symm hne)
  have hfind : (d.modEngine core kd f).engines.find? (fun e => e.core == core && e.kind == k) =
      d.engines.find? (fun e => e.core == core && e.kind == k) := by
    refine find?_upsert_other (fun e he => ⟨hother e he, hother _ ?_⟩) (hother _ ?_) _
    · rw [(hf e).1, (hf e).2]
      exact he
    · rw [(hf _).1, (hf _).2]
      simp [Engine.dark]
  rw [Dev.engine, hfind]
  rfl

/-- A core's engine is darkened where it is WARM. -/
def darkened (core : Nat) (d : Dev) (k : EngKind) : Dev :=
  if (d.engine core k).st == .warm then d.modEngine core k Engine.darken else d

/-- Only engines differ. -/
theorem darkened_rest (core : Nat) (d : Dev) (k : EngKind) : darkened core d k = { d with engines := (darkened core d k).engines } := by
  rw [darkened]
  split <;> rfl

/-- The three engines of a core after those that are WARM have been darkened. -/
def allDarkened (d : Dev) (core : Nat) : Dev := [EngKind.tile, .table, .select].foldl (darkened core) d

theorem allDarkened_rest (d : Dev) (core : Nat) : allDarkened d core = { d with engines := (allDarkened d core).engines } := by
  simp only [allDarkened, List.foldl_cons, List.foldl_nil]
  rw [darkened_rest, darkened_rest core (darkened core d .tile), darkened_rest core d]

theorem darkened_other (core : Nat) (d : Dev) {k kd : EngKind} (h : kd ≠ k) : (darkened core d k).engine core kd = d.engine core kd := by
  rw [darkened]
  split
  · exact engine_modEngine_other d core h (fun _ => ⟨rfl, rfl⟩)
  · rfl

theorem darkened_same (core : Nat) (d : Dev) (k : EngKind) (h : (d.engine core k).st = .dark ∨ (d.engine core k).st = .warm) :
    ((darkened core d k).engine core k).st = .dark := by
  rw [darkened]
  split
  next => rw [engine_modEngine (f := Engine.darken) d core k (fun _ => ⟨rfl, rfl⟩), Engine.darken]
  next hw => exact h.resolve_right fun hwarm => hw (beq_iff_eq.mpr hwarm)

theorem allDarkened_dark (d : Dev) (core : Nat) (h : ∀ kd, (d.engine core kd).st = .dark ∨ (d.engine core kd).st = .warm) (kd : EngKind) :
    ((allDarkened d core).engine core kd).st = .dark := by
  simp only [allDarkened, List.foldl_cons, List.foldl_nil]
  cases kd with
  | tile =>
    rw [darkened_other core _ (by decide), darkened_other core _ (by decide)]
    exact darkened_same core d .tile (h _)
  | table =>
    rw [darkened_other core _ (by decide)]
    refine darkened_same core _ .table ?_
    rw [darkened_other core _ (by decide)]
    exact h _
  | select =>
    refine darkened_same core _ .select ?_
    rw [darkened_other core _ (by decide), darkened_other core _ (by decide)]
    exact h _

/-- Retention asks of an engine that it is DARK or can be darkened. -/
theorem quiet_of {d : Dev} {core : Nat} {kd : EngKind} (h : (d.engine core kd).st = .dark ∨
    ((d.engine core kd).core = core ∧ (d.engine core kd).kind = kd ∧ (d.engine core kd).st = .warm ∧
      (d.engine core kd).holder = none ∧ d.engineJobs core kd = [])) :
    ((d.engine core kd).st == .dark || d.canDarken (d.engine core kd)) = true := by
  rw [Bool.or_eq_true, beq_iff_eq]
  refine h.imp_right ?_
  rintro ⟨hcore, hkind, hst, hholder, hjobs⟩
  rw [Dev.canDarken, hcore, hkind, hst, hholder, hjobs]
  rfl

theorem retentionEnter_enters {s : State} {core : Nat} (hcore : core < 896) (hphase : 4 ≤ s.mgmt.phase) (hg : s.dev.guaranteed core = false)
    (hret : (s.dev.core core).retention = false) (hmap : (s.dev.core core).mapped = true) (hcold : (s.dev.core core).coldTill = none)
    (hwaves : s.dev.wavesOn core = []) (hwanted : s.dev.wanted core = false) (hidle : (s.dev.core core).idle + 120000 ≤ s.dev.clock)
    (heng : ∀ kd, (s.dev.engine core kd).st = .dark ∨ ((s.dev.engine core kd).core = core ∧ (s.dev.engine core kd).kind = kd ∧
      (s.dev.engine core kd).st = .warm ∧ (s.dev.engine core kd).holder = none ∧ s.dev.engineJobs core kd = [])) :
    exec (.retentionEnter core) s = .next { s with
      dev := (allDarkened s.dev core).modCore core fun c => { c with retention := true, wake := none }
      mgmt := s.mgmt.sleepIsland core } := by
  have hquiet : ([EngKind.tile, .table, .select].all fun k => (s.dev.engine core k).st == .dark || s.dev.canDarken (s.dev.engine core k)) = true :=
    List.all_eq_true.mpr fun k _ => quiet_of (heng k)
  have hmay : s.dev.mayRetain core = true := by
    simp only [Dev.mayRetain, hret, hmap, hcold, hwaves, hwanted, hg, hquiet, decide_eq_true hcore, decide_eq_true hidle]
    rfl
  have hguard : (decide (s.mgmt.phase < 4) || !s.dev.mayRetain core) = false := by
    rw [hmay, decide_eq_false (by omega)]
    rfl
  change execRetentionEnter core s = _
  rw [execRetentionEnter, hguard, if_neg Bool.false_ne_true]
  rfl

theorem retentionEnter_stays {s : State} {core : Nat}
    (h : s.dev.wavesOn core ≠ [] ∨ s.mgmt.phase < 4 ∨ s.dev.guaranteed core = true) : exec (.retentionEnter core) s = .next s := by
  have hguard : (decide (s.mgmt.phase < 4) || !s.dev.mayRetain core) = true := by
    rw [Bool.or_eq_true, decide_eq_true_eq, Bool.not_eq_true', Dev.mayRetain]
    rcases h with h | h | h
    · right
      have : (s.dev.wavesOn core).isEmpty = false := by simpa using h
      simp [this]
    · exact .inl h
    · right
      simp [h]
  change execRetentionEnter core s = _
  rw [execRetentionEnter, hguard, if_pos rfl]

theorem retentionEnter_keeps {s : State} {core : Nat} (hcore : core < 896) (hphase : 4 ≤ s.mgmt.phase) (hg : s.dev.guaranteed core = false)
    (hret : (s.dev.core core).retention = false) (hmap : (s.dev.core core).mapped = true) (hcold : (s.dev.core core).coldTill = none)
    (hwaves : s.dev.wavesOn core = []) (hwanted : s.dev.wanted core = false) (hidle : (s.dev.core core).idle + 120000 ≤ s.dev.clock)
    (heng : ∀ kd, (s.dev.engine core kd).st = .dark ∨ ((s.dev.engine core kd).core = core ∧ (s.dev.engine core kd).kind = kd ∧
      (s.dev.engine core kd).st = .warm ∧ (s.dev.engine core kd).holder = none ∧ s.dev.engineJobs core kd = [])) :
    ∃ t, exec (.retentionEnter core) s = .next t ∧ Apart s { t with mgmt := s.mgmt } ∧
      t.dev.core core = { s.dev.core core with retention := true, wake := none } ∧ t.mgmt = { s.mgmt with islands := t.mgmt.islands } ∧
      t.mgmt.island core = { s.mgmt.island core with mv := 450, mhz := 0, next := none } ∧ ∀ kd, (t.dev.engine core kd).st = .dark := by
  have hrest := allDarkened_rest s.dev core
  have hdark := allDarkened_dark s.dev core fun kd => (heng kd).imp_right fun h => h.2.2.1
  generalize hd : allDarkened s.dev core = d at hrest hdark
  refine ⟨_, retentionEnter_enters hcore hphase hg hret hmap hcold hwaves hwanted hidle heng, ?_, ?_, rfl, ?_, ?_⟩
  · change Apart s { s with dev := (allDarkened s.dev core).modCore core _ }
    rw [hd, hrest]
    exact ⟨rfl, rfl, rfl, rfl, rfl, rfl⟩
  · refine (core_modCore (f := fun c => { c with retention := true, wake := none }) (fun _ => rfl) _ core).trans ?_
    rw [hd, hrest]
    rfl
  · exact island_modIsland (f := fun i => { i with mv := 450, mhz := 0, next := none }) (fun _ => rfl) s.mgmt core
  · intro kd
    change (((allDarkened s.dev core).modCore core _).engine core kd).st = .dark
    rw [hd]
    exact hdark kd

theorem retentionExit_stays {s : State} {core : Nat} (hret : (s.dev.core core).retention = true)
    (hwake : ∀ w, (s.dev.core core).wake = some w → s.dev.clock < w) (bad : BitVec 4) (control : Bool) :
    exec (.retentionExit core bad control) s = .next s := by
  have hany : (s.dev.core core).wake.any (fun w => decide (w ≤ s.dev.clock)) = false := by
    cases h : (s.dev.core core).wake with
    | none => rfl
    | some w => exact decide_eq_false (not_le.mpr (hwake w h))
  change execRetentionExit core bad control s = _
  simp only [execRetentionExit, hret, hany]
  simp

theorem scrubCore_none (s : State) (core : Nat) : s.scrubCore core 0 = s := rfl

theorem back_guard {c : Core} {w now : Nat} (hret : c.retention = true) (hcold : c.coldTill = none) (hwake : c.wake = some w) (hw : w ≤ now) :
    ¬ (!c.retention || c.coldTill.isSome || !c.wake.any (· ≤ now)) = true := by
  simp [hret, hcold, hwake, hw]

theorem retentionExit_returns {s : State} {core w : Nat} (hret : (s.dev.core core).retention = true)
    (hcold : (s.dev.core core).coldTill = none) (hwake : (s.dev.core core).wake = some w) (hw : w ≤ s.dev.clock) :
    exec (.retentionExit core 0 false) s = .next { s with
      dev := s.dev.modCore core fun c => { c with retention := false, wake := none, idle := s.dev.clock }
      mgmt := s.mgmt.wakeIsland s.dev.clock core } := by
  change execRetentionExit core 0 false s = _
  rw [execRetentionExit, if_neg (back_guard hret hcold hwake hw), if_neg Bool.false_ne_true, scrubCore_none]

/-- A core whose control state has failed: every space zeroed, and 200 µs of cold reset before it. -/
theorem retentionExit_control {s : State} {core w : Nat} (hret : (s.dev.core core).retention = true)
    (hcold : (s.dev.core core).coldTill = none) (hwake : (s.dev.core core).wake = some w) (hw : w ≤ s.dev.clock) (bad : BitVec 4) :
    exec (.retentionExit core bad true) s = .next { s.scrubCore core 15 with
      dev := (s.scrubCore core 15).dev.modCore core fun c => { c with wake := none, coldTill := some (s.dev.clock + 480000) } } := by
  change execRetentionExit core bad true s = _
  rw [execRetentionExit, if_neg (back_guard hret hcold hwake hw), if_pos rfl]

/-! ## Zeroed spaces (R360) -/

/-- A space of a core reads zero. -/
def Zeroed (d : Dev) (core : Nat) (sp : Space) : Prop := ∀ a < sp.size, cellGet (d.locCells core sp) a = 0

theorem cellGet_filter_out {m : List Host.Cell} {p : Nat → Bool} {a : Nat} (h : p a = false) :
    cellGet (m.filter fun c => p c.1) a = 0 := by
  induction m with
  | nil => rfl
  | cons c m ih =>
    rw [List.filter_cons]
    split
    next hc =>
      have hne : c.1 ≠ a := fun he => by
        rw [he, h] at hc
        exact Bool.false_ne_true hc
      rw [cellGet, if_neg hne]
      exact ih
    next => exact ih

theorem locCells_setLocCells_other (d : Dev) (core : Nat) {sp sp' : Space} (h : sp' ≠ sp) (f : List Host.Cell → List Host.Cell) :
    (d.setLocCells core sp f).locCells core sp' = d.locCells core sp' := by
  have hother : ∀ m : LocMem, (m.core == core && m.space == sp) = true → (m.core == core && m.space == sp') = false := fun m hm => by
    obtain ⟨-, hspace⟩ := Bool.and_eq_true_iff.mp hm
    rw [beq_iff_eq.mp hspace, Bool.and_eq_false_iff, beq_eq_false_iff_ne, beq_eq_false_iff_ne]
    exact .inr (Ne.symm h)
  have hfind : (d.setLocCells core sp f).locmem.find? (fun m => m.core == core && m.space == sp') =
      d.locmem.find? (fun m => m.core == core && m.space == sp') :=
    find?_upsert_other (f := fun m : LocMem => { m with cells := f m.cells }) (fun m hm => ⟨hother m hm, hother m hm⟩)
      (hother ⟨core, sp, _⟩ (by simp)) _
  rw [Dev.locCells, hfind]
  rfl

theorem zeroed_zeroSpace (d : Dev) (core : Nat) (sp : Space) : Zeroed (d.zeroSpace core sp) core sp := fun a ha => by
  have hcells : (d.zeroSpace core sp).locCells core sp =
      (d.locCells core sp).filter fun c => !decide ((⟨0, sp.size⟩ : Range).base ≤ c.1 ∧ c.1 < (⟨0, sp.size⟩ : Range).base + (⟨0, sp.size⟩ : Range).len) :=
    locCells_setLocCells d core sp _
  rw [hcells]
  refine cellGet_filter_out (p := fun x => !decide (0 ≤ x ∧ x < 0 + sp.size)) ?_
  simp [ha]

theorem Zeroed.zeroSpace {d : Dev} {core : Nat} {sp : Space} (h : Zeroed d core sp) (sp' : Space) :
    Zeroed (d.zeroSpace core sp') core sp := fun a ha => by
  by_cases hsp : sp = sp'
  · rw [hsp] at ha ⊢
    exact zeroed_zeroSpace d core sp' a ha
  · have hcells : (d.zeroSpace core sp').locCells core sp = d.locCells core sp := locCells_setLocCells_other d core hsp _
    rw [hcells]
    exact h a ha

/-- The four spaces of a core zeroed. -/
def scrubbed (d : Dev) (core : Nat) : Dev :=
  (((d.zeroSpace core .scratch).zeroSpace core .wbuf).zeroSpace core .abuf).zeroSpace core .acc

theorem zeroed_scrubbed (d : Dev) (core : Nat) (sp : Space) : Zeroed (scrubbed d core) core sp := by
  cases sp with
  | scratch => exact (((zeroed_zeroSpace d core .scratch).zeroSpace _).zeroSpace _).zeroSpace _
  | wbuf => exact ((zeroed_zeroSpace _ core .wbuf).zeroSpace _).zeroSpace _
  | abuf => exact (zeroed_zeroSpace _ core .abuf).zeroSpace _
  | acc => exact zeroed_zeroSpace _ core .acc

theorem zeroSpace_rest (d : Dev) (core : Nat) (sp : Space) :
    (d.zeroSpace core sp).mem = d.mem ∧ (d.zeroSpace core sp).cores = d.cores := ⟨rfl, rfl⟩

theorem scrubbed_rest (d : Dev) (core : Nat) : (scrubbed d core).mem = d.mem ∧ (scrubbed d core).cores = d.cores := by
  simp only [scrubbed, zeroSpace_rest, and_self]

theorem scrubCore_all (s : State) (core : Nat) : Signalled (scrubbed s.dev core) (s.scrubCore core 15).dev :=
  Signalled.foldl (f := fun d (w : Wave) => d.raiseAsync w.id cLeaselost) (fun d w => Signalled.raiseAsync rfl d w.id) _ _

theorem retentionExit_scrubs {s : State} {core w : Nat} (hret : (s.dev.core core).retention = true)
    (hcold : (s.dev.core core).coldTill = none) (hwake : (s.dev.core core).wake = some w) (hw : w ≤ s.dev.clock) (bad : BitVec 4) :
    ∃ t, exec (.retentionExit core bad true) s = .next t ∧ t.dev.mem = s.dev.mem ∧
      t.dev.core core = { s.dev.core core with wake := none, coldTill := some (s.dev.clock + 480000) } ∧
      ∀ sp : Space, ∀ a < sp.size, cellGet (t.dev.locCells core sp) a = 0 := by
  have hrest := (scrubCore_all s core).rest
  have hzeroed := zeroed_scrubbed s.dev core
  obtain ⟨hmem, hcores⟩ := scrubbed_rest s.dev core
  generalize he : (s.scrubCore core 15).dev = e at hrest
  generalize scrubbed s.dev core = z at hrest hzeroed hmem hcores
  refine ⟨_, retentionExit_control hret hcold hwake hw bad, ?_, ?_, fun sp => ?_⟩
  · change (s.scrubCore core 15).dev.mem = _
    rw [he, hrest]
    exact hmem
  · refine (core_modCore (f := fun c => { c with wake := none, coldTill := some (s.dev.clock + 480000) }) (fun _ => rfl) _ core).trans ?_
    rw [he, hrest, Dev.core, hcores]
    rfl
  · change Zeroed (s.scrubCore core 15).dev core sp
    rw [he, hrest]
    exact hzeroed sp

theorem retentionExit_awake {s : State} {core w : Nat} (hret : (s.dev.core core).retention = true)
    (hcold : (s.dev.core core).coldTill = none) (hwake : (s.dev.core core).wake = some w) (hw : w ≤ s.dev.clock) :
    ∃ t, exec (.retentionExit core 0 false) s = .next t ∧ Apart s { t with mgmt := s.mgmt } ∧
      t.dev.core core = { s.dev.core core with retention := false, wake := none, idle := s.dev.clock } ∧ Awake s t core :=
  ⟨_, retentionExit_returns hret hcold hwake hw, ⟨rfl, rfl, rfl, rfl, rfl, rfl⟩,
    core_modCore (f := fun c => { c with retention := false, wake := none, idle := s.dev.clock }) (fun _ => rfl) s.dev core,
    awake_wakeIsland _ _ _ _ rfl⟩

theorem core_n (d : Dev) (n : Nat) : (d.core n).n = n := by
  rw [Dev.core]
  cases h : d.cores.find? (·.n == n) with
  | none => rfl
  | some c => exact beq_iff_eq.mp (List.find?_some (p := fun c : Core => c.n == n) h)

theorem coreColdResetDone_returns {s : State} {core till : Nat} (hcold : (s.dev.core core).coldTill = some till) (h : till ≤ s.dev.clock) :
    exec (.coreColdResetDone core) s = .next { s with
      dev := { s.dev.modCore core (·.coldReset s.dev.clock) with
        loclines := s.dev.loclines.filter (·.core != core)
        l1 := s.dev.l1.filter (·.core != core)
        icache := s.dev.icache.filter (·.core != core)
        tlb := s.dev.tlb.filter (·.core != core) }
      mgmt := s.mgmt.wakeIsland s.dev.clock core } := by
  change execCoreColdResetDone core s = _
  rw [execCoreColdResetDone, if_neg (by simp [hcold, h])]
  rfl

theorem ne_of_mem_filter_bne {α : Type} {f : α → Nat} {n : Nat} {l : List α} {x : α} (h : x ∈ l.filter fun x => f x != n) : f x ≠ n :=
  bne_iff_ne.mp (List.mem_filter.mp h).2

theorem coreColdResetDone_resets {s : State} {core till : Nat} (hcold : (s.dev.core core).coldTill = some till) (h : till ≤ s.dev.clock) :
    ∃ t, exec (.coreColdResetDone core) s = .next t ∧
      Apart s { t with mgmt := s.mgmt } ∧ Awake s t core ∧ t.dev.core core = { Core.reset core with
        l1Ways := (s.dev.core core).l1Ways, retired := (s.dev.core core).retired, mapped := (s.dev.core core).mapped
        migrating := (s.dev.core core).migrating, idle := s.dev.clock } ∧
      (∀ l ∈ t.dev.l1, l.core ≠ core) ∧ (∀ e ∈ t.dev.icache, e.core ≠ core) ∧ (∀ e ∈ t.dev.tlb, e.core ≠ core) ∧
      ∀ l ∈ t.dev.loclines, l.core ≠ core := by
  refine ⟨_, coreColdResetDone_returns hcold h, ⟨rfl, rfl, rfl, rfl, rfl, rfl⟩, awake_wakeIsland _ _ _ _ rfl, ?_,
    fun l hl => ne_of_mem_filter_bne (f := L1Line.core) hl, fun e he => ne_of_mem_filter_bne (f := IEntry.core) he,
    fun e he => ne_of_mem_filter_bne (f := TlbEntry.core) he, fun l hl => ne_of_mem_filter_bne (f := LocLine.core) hl⟩
  have hcore := core_modCore (f := (·.coldReset s.dev.clock)) (fun _ => rfl) s.dev core
  rw [Core.coldReset, core_n] at hcore
  exact hcore

/-! ## Bring-up (R361) -/

/-- Some cores are out of the core map. -/
def unmappedCores (d : Dev) (cores : List Nat) : Dev :=
  cores.foldl (fun d c => d.modCore c fun c => { c with mapped := false }) d

theorem unmappedCores_waves (cores : List Nat) (d : Dev) : (unmappedCores d cores).waves = d.waves := by
  induction cores generalizing d with
  | nil => rfl
  | cons c cores ih => exact ih _

theorem unmappedCores_core (c : Nat) (cores : List Nat) (d : Dev) (h : c ∈ cores ∨ (d.core c).mapped = false) :
    ((unmappedCores d cores).core c).mapped = false := by
  induction cores generalizing d with
  | nil => exact h.resolve_left (by simp)
  | cons x cores ih =>
    refine ih _ ?_
    by_cases hc : c = x
    · right
      rw [hc, core_modCore (f := fun x => { x with mapped := false }) (fun _ => rfl)]
    · rw [core_modCore_other (f := fun x => { x with mapped := false }) (fun _ => rfl) d hc]
      exact h.imp_left fun hmem => (List.mem_cons.mp hmem).resolve_left hc

/-- The state after a phase of bring-up. -/
def phaseEnded (s : State) (bad : List Nat) : State :=
  { s.endPhase bad with mgmt := { (s.endPhase bad).mgmt with phase := s.mgmt.phase + 1, ready := decide (7 ≤ s.mgmt.phase + 1) } }

theorem bringupPhase_ends {s : State} {e : Nat} (bad : List Nat) (hready : s.mgmt.ready = false) (herr : s.mgmt.errcode = 0) (he : e % 256 = 0) :
    exec (.bringupPhase e bad) s = .next (phaseEnded s bad) := by
  change execBringupPhase e bad s = _
  simp only [execBringupPhase, hready, herr, he]
  rfl

theorem bringupPhase_halts {s : State} {e : Nat} (bad : List Nat) (hready : s.mgmt.ready = false) (herr : s.mgmt.errcode = 0) (he : e % 256 ≠ 0)
    (hphase : s.mgmt.phase ≤ 4) : exec (.bringupPhase e bad) s = .next { s with mgmt := { s.mgmt with errcode := e % 256 } } := by
  change execBringupPhase e bad s = _
  rw [execBringupPhase, if_neg (by simp [hready, herr]), if_pos ⟨he, hphase⟩]

theorem bringupPhase_over {s : State} {e : Nat} (bad : List Nat) (h : s.mgmt.ready = true ∨ s.mgmt.errcode ≠ 0) :
    exec (.bringupPhase e bad) s = .next s := by
  change execBringupPhase e bad s = _
  rw [execBringupPhase, if_pos (by simpa using h)]

/-- The end of a phase leaves the waves and the error code. -/
theorem endPhase_waves (s : State) (bad : List Nat) : (s.endPhase bad).dev.waves = s.dev.waves ∧ (s.endPhase bad).mgmt.errcode = s.mgmt.errcode := by
  rw [State.endPhase]
  split
  case h_3 => exact ⟨unmappedCores_waves _ _, rfl⟩
  all_goals exact ⟨rfl, rfl⟩

theorem endPhase_one {s : State} (bad : List Nat) (h : s.mgmt.phase = 1) :
    s.endPhase bad = { s with mgmt := { s.mgmt with islands := [], rails := [] } } := by
  rw [State.endPhase, h]
  rfl

theorem phaseEnded_power {s : State} (bad : List Nat) (h : s.mgmt.phase = 1) :
    (∀ i, (phaseEnded s bad).mgmt.island i = ⟨i, 3, 750, 1800, none⟩) ∧
      ∀ r, (phaseEnded s bad).mgmt.rail r = ⟨r, 780, 780, .steady, none⟩ := by
  rw [phaseEnded, endPhase_one bad h, h]
  exact ⟨fun _ => rfl, fun _ => rfl⟩

theorem phaseEnded_clock {s : State} (bad : List Nat) (h : s.mgmt.phase = 3) :
    (phaseEnded s bad).dev.clock = 0 ∧ (phaseEnded s bad).mgmt.ticked = 0 ∧ (phaseEnded s bad).dev.mt = [] ∧
      (phaseEnded s bad).dev.llc = [] ∧ (phaseEnded s bad).dev.locmem = [] := by
  rw [phaseEnded, State.endPhase, h]
  exact ⟨rfl, rfl, rfl, rfl, rfl⟩

theorem phaseEnded_cores {s : State} {bad : List Nat} (h : s.mgmt.phase = 2) {c : Nat} (hc : c ∈ bad) (hlt : c < 896) :
    ((phaseEnded s bad).dev.core c).mapped = false := by
  have hdev : (phaseEnded s bad).dev = unmappedCores { s.dev with free := s.dev.free + 8 } (bad.filter (· < 896)) := by
    rw [phaseEnded, State.endPhase, h]
    rfl
  rw [hdev]
  exact unmappedCores_core c _ _ (.inl (List.mem_filter.mpr ⟨hc, decide_eq_true hlt⟩))

/-- The port that a list of all ports by number holds under a number. -/
theorem find?_range_map {α : Type} (f : Nat → α) (key : α → Nat) (hkey : ∀ i, key (f i) = i) {k n : Nat} (hn : n < k) :
    ((List.range k).map f).find? (key · == n) = some (f n) := by
  have hcomp : ((fun x => key x == n) ∘ f) = fun i => i == n := funext fun i => by rw [Function.comp_apply, hkey]
  rw [List.find?_map, hcomp, Option.map_eq_some_iff]
  refine ⟨n, ?_, rfl⟩
  cases hfind : (List.range k).find? (fun i => i == n) with
  | none => exact absurd (beq_self_eq_true n) (List.find?_eq_none.mp hfind n (List.mem_range.mpr hn))
  | some m => rw [beq_iff_eq.mp (List.find?_some (p := fun i => i == n) hfind)]

theorem phaseEnded_ports {s : State} {bad : List Nat} (h : s.mgmt.phase = 5) {n : Nat} (hn : n < 128) :
    ((phaseEnded s bad).dev.port n).up = !bad.contains n := by
  rw [phaseEnded, State.endPhase, h]
  have hfind := find?_range_map (fun i => ({ Port.reset i with
    up := !bad.contains i, rtt := (Config.freeBits (s.dev.free + i)).toNat } : Port)) Port.n (fun _ => rfl) hn
  rw [Dev.port]
  exact (congrArg (fun o => (Option.getD o (Port.reset n)).up) hfind)

/-- Settles O52, step by step of heat, retention and reset. -/
theorem heatRetentionAndReset : Obligations.HeatRetentionAndReset := by
  refine ⟨fun s die temps hdie => ⟨thermalLevel_trips hdie, thermalLevel_takes hdie⟩, fun s m temps hm => ⟨fun hlevel hend => ?_, ?_⟩,
    fun s core => ⟨retentionEnter_keeps, retentionEnter_stays, retentionExit_stays, fun w hret hcold hwake hw => ?_,
      fun till => coreColdResetDone_resets⟩,
    fun s => ⟨_, rfl, rfl, rfl, rfl⟩, fun s e bad hready herr => ⟨fun he => ?_, bringupPhase_halts bad hready herr⟩,
    fun s e bad => bringupPhase_over bad⟩
  · exact ⟨_, migrationClose_ends hm hlevel hend, fun c hc => settledCores_core c m.cores s.dev (.inl hc), rfl, settledCores_waves _ _⟩
  · exact migrationClose_stays hm
  · exact ⟨retentionExit_awake hret hcold hwake hw, retentionExit_scrubs hret hcold hwake hw⟩
  · obtain ⟨hwaves, hcode⟩ := endPhase_waves s bad
    refine ⟨_, bringupPhase_ends bad hready herr he, rfl, ?_, hcode.trans herr, hwaves, phaseEnded_power bad, phaseEnded_clock bad,
      fun h c hc hlt => phaseEnded_cores h hc hlt, fun h n hn => phaseEnded_ports h hn⟩
    change decide (7 ≤ s.mgmt.phase + 1) = true ↔ _
    rw [decide_eq_true_eq]
    omega

end Sys2Proof.Proofs
end

section
/-!
PROOFS. Power control, islands and rails, and current emergencies (R350 to R356): O51.
-/

open Sys2Proof Sys2Proof.Machine Sys2Proof.Claims

-- The whole text is compiled in one process, which can hold few threads: these proofs are elaborated in order.
set_option Elab.async false

namespace Sys2Proof.Proofs

/-! ## Islands and rails -/

theorem island_n (m : Mgmt) (n : Nat) : (m.island n).n = n := by
  rw [Mgmt.island]
  cases h : m.islands.find? (·.n == n) with
  | none =>
    rw [Option.getD_none]
    split <;> rfl
  | some i => exact beq_iff_eq.mp (List.find?_some (p := fun i : Island => i.n == n) h)

theorem rail_n (m : Mgmt) (n : Nat) : (m.rail n).n = n := by
  rw [Mgmt.rail]
  cases h : m.rails.find? (·.n == n) with
  | none =>
    rw [Option.getD_none]
    split <;> rfl
  | some r => exact beq_iff_eq.mp (List.find?_some (p := fun r : Rail => r.n == n) h)

theorem island_modIsland_other {f : Island → Island} (hf : ∀ i, (f i).n = i.n) (m : Mgmt) {n j : Nat} (h : j ≠ n) :
    (m.modIsland n f).island j = m.island j := by
  have hne : ∀ x : Island, x.n = n → (x.n == j) = false := fun x hx => by
    rw [hx, beq_eq_false_iff_ne]
    exact Ne.symm h
  have hfind : (m.modIsland n f).islands.find? (·.n == j) = m.islands.find? (·.n == j) := by
    refine find?_upsert_other (fun x hx => ⟨hne x (beq_iff_eq.mp hx), hne _ ?_⟩) (hne _ ?_) _
    · rw [hf]
      exact beq_iff_eq.mp hx
    · rw [hf, island_n]
  rw [Mgmt.island, hfind]
  rfl

theorem rail_modRail {f : Rail → Rail} (hf : ∀ r, (f r).n = r.n) (m : Mgmt) (n : Nat) : (m.modRail n f).rail n = f (m.rail n) := by
  have hfind : (m.modRail n f).rails.find? (·.n == n) = some (f ((m.rails.find? (·.n == n)).getD (m.rail n))) :=
    find?_upsert_same (fun x hx => by rw [hf]; exact hx) (by rw [hf, rail_n]; exact beq_self_eq_true n) _
  rw [Mgmt.rail, hfind, Option.getD_some]
  congr 1
  cases h : m.rails.find? (·.n == n) with
  | none => rfl
  | some r => rw [Option.getD_some, Mgmt.rail, h, Option.getD_some]

theorem rail_modRail_other {f : Rail → Rail} (hf : ∀ r, (f r).n = r.n) (m : Mgmt) {n j : Nat} (h : j ≠ n) :
    (m.modRail n f).rail j = m.rail j := by
  have hne : ∀ x : Rail, x.n = n → (x.n == j) = false := fun x hx => by
    rw [hx, beq_eq_false_iff_ne]
    exact Ne.symm h
  have hfind : (m.modRail n f).rails.find? (·.n == j) = m.rails.find? (·.n == j) := by
    refine find?_upsert_other (fun x hx => ⟨hne x (beq_iff_eq.mp hx), hne _ ?_⟩) (hne _ ?_) _
    · rw [hf]
      exact beq_iff_eq.mp hx
    · rw [hf, rail_n]
  rw [Mgmt.rail, hfind]
  rfl

theorem island_modRail (m : Mgmt) (n : Nat) (f : Rail → Rail) (j : Nat) : (m.modRail n f).island j = m.island j := rfl
theorem rail_modIsland (m : Mgmt) (n : Nat) (f : Island → Island) (j : Nat) : (m.modIsland n f).rail j = m.rail j := rfl

/-- Every island is on its rail (Table 13-2). -/
theorem mem_railIslands {i : Nat} (h : i < 1024) : i ∈ railIslands (railOf i) := by
  have hmem : ∀ base n, base ≤ i → i < base + n → i ∈ (List.range n).map (base + ·) := fun base n hlo hhi =>
    List.mem_map.mpr ⟨i - base, List.mem_range.mpr (by omega), by omega⟩
  unfold railOf
  split
  · rw [railIslands, if_pos (by omega)]
    exact hmem _ 32 (by omega) (by omega)
  · split
    · exact hmem 896 32 (by omega) (by omega)
    · split
      · exact hmem 928 32 (by omega) (by omega)
      · split
        · exact hmem 960 48 (by omega) (by omega)
        · exact hmem 1008 16 (by omega) (by omega)

theorem mem_railIslands_core {rail core : Nat} (hr : rail < 28) (hc : core / 32 = rail) : core ∈ railIslands rail := by
  rw [railIslands, if_pos hr]
  exact List.mem_map.mpr ⟨core % 32, List.mem_range.mpr (by omega), by omega⟩

/-! ## Islands that rise -/

/-- Islands of a list may have begun to rise: only when their next steps are due differs. -/
structure Risen (js : List Nat) (m e : Mgmt) : Prop where
  rest : e = { m with islands := e.islands }
  island : ∀ j, ∃ t, e.island j = { m.island j with next := t }
  other : ∀ j, j ∉ js → e.island j = m.island j

theorem Risen.rail {js : List Nat} {m e : Mgmt} (h : Risen js m e) (r : Nat) : e.rail r = m.rail r := by
  rw [h.rest]
  rfl

theorem startRise_other (m : Mgmt) (now n : Nat) {j : Nat} (h : j ≠ n) : (m.startRise now n).island j = m.island j := by
  rw [Mgmt.startRise]
  split
  · exact island_modIsland_other (f := fun i => { i with next := some (now + 480) }) (fun _ => rfl) m h
  · rfl

theorem risen_foldl (now : Nat) (js ks : List Nat) (m : Mgmt) (hsub : ∀ j ∈ ks, j ∈ js) :
    Risen js m (ks.foldl (fun m i => m.startRise now i) m) := by
  induction ks generalizing m with
  | nil => exact ⟨rfl, fun j => ⟨_, rfl⟩, fun _ _ => rfl⟩
  | cons k ks ih =>
    have htail := ih (m.startRise now k) fun j hj => hsub j (List.mem_cons_of_mem _ hj)
    obtain ⟨hrest, t, ht⟩ := startRise_island m now k
    rw [List.foldl_cons]
    refine ⟨?_, fun j => ?_, fun j hj => ?_⟩
    · have htailRest := htail.rest
      generalize ks.foldl (fun m i => m.startRise now i) (m.startRise now k) = e at htailRest ⊢
      rw [htailRest, hrest]
    · obtain ⟨u, hu⟩ := htail.island j
      by_cases hjk : j = k
      · rw [hjk] at hu ⊢
        exact ⟨u, by rw [hu, ht]⟩
      · exact ⟨u, by rw [hu, startRise_other m now k hjk]⟩
    · have hjk : j ≠ k := fun he => hj (he ▸ hsub k List.mem_cons_self)
      rw [htail.other j hj, startRise_other m now k hjk]

theorem risen_startRises (m : Mgmt) (now rail : Nat) : Risen (railIslands rail) m (m.startRises now rail) :=
  risen_foldl now _ _ m fun _ h => h

/-! ## Votes (R352 to R355) -/

/-- An island with a new vote: a lower frequency is under way, or its voltage comes down to the vote's. -/
def votedIsland (now point : Nat) (lower : Bool) (i : Island) : Island :=
  { i with vote := point, next := if lower then some (now + 2400) else none, mv := if lower then i.mv else min i.mv (pointMv point) }

/-- What a vote does to islands and rails. -/
structure Voted (m e : Mgmt) (i p : Nat) : Prop where
  rest : e = { m with islands := e.islands, rails := e.rails }
  vote : (e.island i).vote = p
  mhz : ∀ j, (e.island j).mhz = (m.island j).mhz
  mv : ∀ j, (e.island j).mv ≤ (m.island j).mv
  others : ∀ j, j ≠ i → (e.island j).vote = (m.island j).vote ∧ (e.island j).mv = (m.island j).mv
  away : i ∈ railIslands (railOf i) → ∀ j, j ∉ railIslands (railOf i) → e.island j = m.island j
  target : (e.rail (railOf i)).target = 630 + 50 * maxOf ((railIslands (railOf i)).map fun j => (e.island j).vote)
  railMv : (e.rail (railOf i)).mv = (m.rail (railOf i)).mv
  rails : ∀ r, r ≠ railOf i → e.rail r = m.rail r

/-- A vote changes the island, then its rail's target and phase, and islands of the rail may rise. -/
theorem vote_shape (m : Mgmt) (now i p : Nat) : ∃ lower phase, m.vote now i p =
    ((m.modIsland i (votedIsland now p lower)).modRail (railOf i) fun r => { r with
      target := (m.modIsland i (votedIsland now p lower)).railTarget (railOf i), phase := phase }).startRises now (railOf i) :=
  ⟨_, _, rfl⟩

theorem voted_vote (m : Mgmt) (now i p : Nat) : Voted m (m.vote now i p) i p := by
  obtain ⟨lower, phase, hvote⟩ := vote_shape m now i p
  rw [hvote]
  generalize hmid : m.modIsland i (votedIsland now p lower) = mid
  have hrest : mid = { m with islands := mid.islands } := by rw [← hmid, Mgmt.modIsland]
  have hself : mid.island i = votedIsland now p lower (m.island i) := by
    rw [← hmid]
    exact island_modIsland (f := votedIsland now p lower) (fun _ => rfl) m i
  have hother : ∀ j, j ≠ i → mid.island j = m.island j := fun j hj => by
    rw [← hmid]
    exact island_modIsland_other (f := votedIsland now p lower) (fun _ => rfl) m hj
  have hrails : ∀ r, mid.rail r = m.rail r := fun r => by
    rw [hrest]
    rfl
  generalize hlast : mid.modRail (railOf i) (fun r => { r with target := mid.railTarget (railOf i), phase := phase }) = last
  have hlastRest : last = { mid with rails := last.rails } := by rw [← hlast, Mgmt.modRail]
  have hlastIsland : ∀ j, last.island j = mid.island j := fun j => by
    rw [← hlast]
    rfl
  have hlastRail : last.rail (railOf i) = { mid.rail (railOf i) with target := mid.railTarget (railOf i), phase := phase } := by
    rw [← hlast]
    exact rail_modRail (f := fun r => { r with target := mid.railTarget (railOf i), phase := phase }) (fun _ => rfl) mid _
  have hrise := risen_startRises last now (railOf i)
  have hvotes : ∀ j, ((last.startRises now (railOf i)).island j).vote = (mid.island j).vote := fun j => by
    obtain ⟨t, ht⟩ := hrise.island j
    rw [ht, hlastIsland]
  have hmv : ∀ j, ((last.startRises now (railOf i)).island j).mv = (mid.island j).mv := fun j => by
    obtain ⟨t, ht⟩ := hrise.island j
    rw [ht, hlastIsland]
  have hmhz : ∀ j, ((last.startRises now (railOf i)).island j).mhz = (mid.island j).mhz := fun j => by
    obtain ⟨t, ht⟩ := hrise.island j
    rw [ht, hlastIsland]
  refine ⟨?_, ?_, fun j => ?_, fun j => ?_, fun j hj => ?_, fun hi j hj => ?_, ?_, ?_, fun r hr => ?_⟩
  · have hriseRest := hrise.rest
    generalize last.startRises now (railOf i) = e at hriseRest ⊢
    rw [hriseRest, hlastRest, hrest]
  · rw [hvotes, hself]
    rfl
  · rw [hmhz]
    by_cases hj : j = i
    · rw [hj, hself]
      rfl
    · rw [hother j hj]
  · rw [hmv]
    by_cases hj : j = i
    · rw [hj, hself, votedIsland]
      split
      · exact le_rfl
      · exact min_le_left _ _
    · rw [hother j hj]
  · rw [hvotes, hmv, hother j hj]
    exact ⟨rfl, rfl⟩
  · rw [hrise.other j hj, hlastIsland, hother j fun he => hj (he ▸ hi)]
  · rw [hrise.rail, hlastRail]
    change pointMv (maxOf ((railIslands (railOf i)).map fun j => (mid.island j).vote)) + 30 = _
    simp only [hvotes, pointMv]
    omega
  · rw [hrise.rail, hlastRail]
    change (mid.rail (railOf i)).mv = _
    rw [hrails]
  · rw [hrise.rail, ← hlast]
    exact (rail_modRail_other (f := fun r => { r with target := mid.railTarget (railOf i), phase := phase }) (fun _ => rfl) mid hr).trans (hrails r)

theorem islandVote_votes (s : State) (i p : Nat) (hi : i < 1024) (hp : p < 6) : ∃ t, exec (.islandVote i p) s = .next t ∧ OnlyMgmt s t ∧
    Voted s.mgmt t.mgmt i (if i < 896 ∧ s.dev.guaranteed i = true then 5 else p) := by
  have hguard : ¬ (1024 ≤ i ∨ 6 ≤ p) := by omega
  refine ⟨{ s with mgmt := s.mgmt.vote s.dev.clock i (if decide (i < 896) && s.dev.guaranteed i then 5 else p) }, ?_, ⟨rfl, rfl⟩, ?_⟩
  · change execIslandVote i p s = _
    rw [execIslandVote, onMgmt, if_neg hguard]
  · have hpoint : (if decide (i < 896) && s.dev.guaranteed i then 5 else p) = if i < 896 ∧ s.dev.guaranteed i = true then 5 else p := by
      simp only [Bool.and_eq_true, decide_eq_true_eq]
    rw [← hpoint]
    exact voted_vote _ _ _ _

/-! ## Changes of frequency and voltage (R354, R355) -/

/-- An island whose lower frequency is due runs at its point. -/
def lowered (now : Nat) (m : Mgmt) (i : Nat) : Mgmt :=
  let x := m.island i
  if decide (pointMhz x.vote < x.mhz) && x.next.any (· ≤ now) then
    m.modIsland i fun x => { x with mhz := pointMhz x.vote, mv := min x.mv (pointMv x.vote), next := none }
  else m

/-- What an island is once its lower frequency is due. -/
def loweredIsland (x : Island) : Island := { x with mhz := pointMhz x.vote, mv := min x.mv (pointMv x.vote), next := none }

theorem lowered_rest (now : Nat) (m : Mgmt) (i : Nat) : lowered now m i = { m with islands := (lowered now m i).islands } := by
  rw [lowered]
  split <;> rfl

theorem lowered_other (now : Nat) (m : Mgmt) {i j : Nat} (h : j ≠ i) : (lowered now m i).island j = m.island j := by
  rw [lowered]
  split
  · exact island_modIsland_other (f := loweredIsland) (fun _ => rfl) m h
  · rfl

theorem lowered_due {now : Nat} {m : Mgmt} {i due : Nat} (hnext : (m.island i).next = some due) (hdue : due ≤ now)
    (hlow : pointMhz (m.island i).vote < (m.island i).mhz) : (lowered now m i).island i = loweredIsland (m.island i) := by
  rw [lowered, if_pos (by simp [hnext, hdue, hlow])]
  exact island_modIsland (f := loweredIsland) (fun _ => rfl) m i

theorem lowered_idle {now : Nat} {m : Mgmt} {i : Nat} (hnext : (m.island i).next = none) : lowered now m i = m := by
  rw [lowered, if_neg (by simp [hnext])]

theorem foldl_lowered_rest (now : Nat) (l : List Nat) (m : Mgmt) :
    l.foldl (lowered now) m = { m with islands := (l.foldl (lowered now) m).islands } := by
  induction l generalizing m with
  | nil => rfl
  | cons i l ih =>
    rw [List.foldl_cons, ih, lowered_rest]

theorem foldl_lowered_idle {now i : Nat} (l : List Nat) {m : Mgmt} (hnext : (m.island i).next = none) :
    (l.foldl (lowered now) m).island i = m.island i := by
  induction l generalizing m with
  | nil => rfl
  | cons k l ih =>
    have hk : (lowered now m k).island i = m.island i := by
      by_cases h : i = k
      · rw [← h, lowered_idle hnext]
      · exact lowered_other now m h
    rw [List.foldl_cons, ih (by rw [hk]; exact hnext), hk]

theorem foldl_lowered_due {now i due : Nat} {l : List Nat} {m : Mgmt} (hi : i ∈ l) (hnext : (m.island i).next = some due) (hdue : due ≤ now)
    (hlow : pointMhz (m.island i).vote < (m.island i).mhz) : (l.foldl (lowered now) m).island i = loweredIsland (m.island i) := by
  induction l generalizing m with
  | nil => exact absurd hi (by simp)
  | cons k l ih =>
    rw [List.foldl_cons]
    by_cases h : i = k
    · have hhere := lowered_due hnext hdue hlow
      rw [← h, foldl_lowered_idle l (by rw [hhere]; rfl), hhere]
    · have hk := lowered_other now m h
      rw [ih ((List.mem_cons.mp hi).resolve_left h) (by rw [hk]; exact hnext) (by rw [hk]; exact hlow), hk]

/-- The management processor after the lower frequencies of a rail that are due. -/
def railLowered (m : Mgmt) (rail now : Nat) : Mgmt := (railIslands rail).foldl (lowered now) m

/-- A lowering rail begins its hold-off once that is due. -/
def heldOff (now rail : Nat) (m : Mgmt) : Mgmt :=
  match (m.rail rail).phase with
  | .lowering t => if t ≤ now then m.modRail rail fun r => { r with phase := .holdoff (t + 120000) } else m
  | _ => m

theorem frequencyChangeDone_eq (s : State) (rail : Nat) :
    exec (.frequencyChangeDone rail) s = .next { s with mgmt := heldOff s.dev.clock rail (railLowered s.mgmt rail s.dev.clock) } := rfl

theorem heldOff_island (now rail : Nat) (m : Mgmt) (i : Nat) : (heldOff now rail m).island i = m.island i := by
  rw [heldOff]
  split
  · split <;> rfl
  · rfl

theorem heldOff_rail {now rail due : Nat} {m : Mgmt} (hphase : (m.rail rail).phase = .lowering due) (hdue : due ≤ now) :
    (heldOff now rail m).rail rail = { m.rail rail with phase := .holdoff (due + 120000) } := by
  rw [heldOff, hphase]
  simp only [if_pos hdue]
  exact rail_modRail (f := fun r => { r with phase := .holdoff (due + 120000) }) (fun _ => rfl) m rail

theorem railLowered_rail (m : Mgmt) (rail now r : Nat) : (railLowered m rail now).rail r = m.rail r := by
  rw [show railLowered m rail now = _ from foldl_lowered_rest now _ m]
  rfl

theorem islandRiseStep_eq {s : State} {i due : Nat} (hnext : (s.mgmt.island i).next = some due) : exec (.islandRiseStep i) s =
    .next { s with mgmt :=
      if s.dev.clock < due ∨ pointMhz (s.mgmt.island i).vote < (s.mgmt.island i).mhz ∨ (s.mgmt.rail (railOf i)).mv < pointMv (s.mgmt.island i).vote + 30
      then s.mgmt
      else if (s.mgmt.island i).mv < pointMv (s.mgmt.island i).vote then
        s.mgmt.modIsland i fun i => { i with mv := pointMv i.vote, next := if i.mhz < pointMhz i.vote then some (due + 480) else none }
      else s.mgmt.modIsland i fun i => { i with mhz := pointMhz i.vote, next := none } } := by
  change execIslandRiseStep i s = _
  simp only [execIslandRiseStep, onMgmt, hnext]

theorem islandRiseStep_waits {s : State} {i due : Nat} (hnext : (s.mgmt.island i).next = some due)
    (hrail : (s.mgmt.rail (railOf i)).mv < pointMv (s.mgmt.island i).vote + 30) : exec (.islandRiseStep i) s = .next s := by
  rw [islandRiseStep_eq hnext, if_pos (.inr (.inr hrail))]

theorem islandRiseStep_volts {s : State} {i due : Nat} (hnext : (s.mgmt.island i).next = some due) (hdue : due ≤ s.dev.clock)
    (hmhz : (s.mgmt.island i).mhz ≤ pointMhz (s.mgmt.island i).vote)
    (hrail : pointMv (s.mgmt.island i).vote + 30 ≤ (s.mgmt.rail (railOf i)).mv) (hmv : (s.mgmt.island i).mv < pointMv (s.mgmt.island i).vote) :
    ∃ t, exec (.islandRiseStep i) s = .next t ∧ OnlyMgmt s t ∧ t.mgmt.island i = { s.mgmt.island i with
      mv := pointMv (s.mgmt.island i).vote
      next := if (s.mgmt.island i).mhz < pointMhz (s.mgmt.island i).vote then some (due + 480) else none } := by
  refine ⟨_, islandRiseStep_eq hnext, ⟨rfl, rfl⟩, ?_⟩
  rw [if_neg (by omega), if_pos hmv]
  exact island_modIsland (f := fun i => { i with mv := pointMv i.vote, next := if i.mhz < pointMhz i.vote then some (due + 480) else none })
    (fun _ => rfl) s.mgmt i

theorem islandRiseStep_hertz {s : State} {i due : Nat} (hnext : (s.mgmt.island i).next = some due) (hdue : due ≤ s.dev.clock)
    (hmhz : (s.mgmt.island i).mhz ≤ pointMhz (s.mgmt.island i).vote)
    (hrail : pointMv (s.mgmt.island i).vote + 30 ≤ (s.mgmt.rail (railOf i)).mv) (hmv : pointMv (s.mgmt.island i).vote ≤ (s.mgmt.island i).mv) :
    ∃ t, exec (.islandRiseStep i) s = .next t ∧ OnlyMgmt s t ∧
      t.mgmt.island i = { s.mgmt.island i with mhz := pointMhz (s.mgmt.island i).vote, next := none } := by
  refine ⟨_, islandRiseStep_eq hnext, ⟨rfl, rfl⟩, ?_⟩
  rw [if_neg (by omega), if_neg (by omega)]
  exact island_modIsland (f := fun i => { i with mhz := pointMhz i.vote, next := none }) (fun _ => rfl) s.mgmt i

theorem railMay_iff {m : Mgmt} {rail mv : Nat} : m.railMay rail mv = true ↔ ∀ i ∈ railIslands rail, (m.island i).mv + 30 ≤ mv := by
  simp only [Mgmt.railMay, List.all_eq_true, decide_eq_true_eq]

theorem fall_stays {m : Mgmt} {rail now : Nat}
    (h : ¬ ∀ i ∈ railIslands rail, (m.island i).mv + 30 ≤ max ((m.rail rail).mv - 10) (m.rail rail).target) : m.fall rail now = m := by
  rw [Mgmt.fall, if_pos]
  rw [Bool.not_eq_true']
  exact Bool.eq_false_iff.mpr fun hmay => h (railMay_iff.mp hmay)

/-- A rail after a step of its descent. -/
def fallenRail (due : Nat) (r : Rail) : Rail :=
  { r with
    mv := max (r.mv - 10) r.target
    phase := if max (r.mv - 10) r.target = r.target then .steady else .falling (due + 2400) }

theorem fall_rail {m : Mgmt} {rail now : Nat}
    (h : ∀ i ∈ railIslands rail, (m.island i).mv + 30 ≤ max ((m.rail rail).mv - 10) (m.rail rail).target) :
    (m.fall rail now).rail rail = fallenRail now (m.rail rail) := by
  rw [Mgmt.fall, if_neg (by rw [railMay_iff.mpr h]; decide), (risen_startRises _ _ _).rail]
  exact rail_modRail (f := fun r => { r with
    mv := max ((m.rail rail).mv - 10) (m.rail rail).target
    phase := if max ((m.rail rail).mv - 10) (m.rail rail).target = r.target then .steady else .falling (now + 2400) }) (fun _ => rfl) m rail

theorem railHoldoffExpire_eq {s : State} {rail due : Nat} (hphase : (s.mgmt.rail rail).phase = .holdoff due) (hdue : due ≤ s.dev.clock) :
    exec (.railHoldoffExpire rail) s = .next { s with mgmt := s.mgmt.fall rail due } := by
  change execRailHoldoffExpire rail s = _
  simp only [execRailHoldoffExpire, onMgmt, hphase, if_pos hdue]

theorem railStep_falling {s : State} {rail due : Nat} (hphase : (s.mgmt.rail rail).phase = .falling due) (hdue : due ≤ s.dev.clock) :
    exec (.railStep rail) s = .next { s with mgmt := s.mgmt.fall rail due } := by
  change execRailStep rail s = _
  simp only [execRailStep, onMgmt, hphase, if_pos hdue]

/-- A rail after a step of its rise. -/
def risenRail (due : Nat) (r : Rail) : Rail :=
  { r with mv := min (r.mv + 10) r.target, phase := if min (r.mv + 10) r.target = r.target then .steady else .rising (due + 1200) }

theorem railStep_rising {s : State} {rail due : Nat} (hphase : (s.mgmt.rail rail).phase = .rising due) (hdue : due ≤ s.dev.clock) :
    ∃ t, exec (.railStep rail) s = .next t ∧ OnlyMgmt s t ∧ t.mgmt.rail rail = risenRail due (s.mgmt.rail rail) := by
  refine ⟨{ s with mgmt := (s.mgmt.modRail rail (risenRail due)).startRises due rail }, ?_, ⟨rfl, rfl⟩, ?_⟩
  · change execRailStep rail s = _
    simp only [execRailStep, onMgmt, hphase, if_pos hdue]
    rfl
  · rw [(risen_startRises _ _ _).rail]
    exact rail_modRail (f := risenRail due) (fun _ => rfl) s.mgmt rail

/-! ## Current emergencies (R356) -/

/-- Memory stands, and so does the tile engine of every other core. -/
structure BesideTile (core : Nat) (d e : Dev) : Prop where
  mem : e.mem = d.mem
  locmem : e.locmem = d.locmem
  engine : ∀ c, c ≠ core → e.engine c .tile = d.engine c .tile

namespace BesideTile

variable {core : Nat}

theorem of_engines {d e : Dev} (hmem : e.mem = d.mem) (hloc : e.locmem = d.locmem) (heng : e.engines = d.engines) : BesideTile core d e :=
  ⟨hmem, hloc, fun _ _ => by rw [Dev.engine, heng]; rfl⟩

theorem refl (d : Dev) : BesideTile core d d := of_engines rfl rfl rfl

theorem trans {d e f : Dev} (h : BesideTile core d e) (g : BesideTile core e f) : BesideTile core d f :=
  ⟨g.mem.trans h.mem, g.locmem.trans h.locmem, fun c hc => (g.engine c hc).trans (h.engine c hc)⟩

theorem ite {c : Prop} [Decidable c] {d x y : Dev} (hx : BesideTile core d x) (hy : BesideTile core d y) :
    BesideTile core d (if c then x else y) := by
  split
  · exact hx
  · exact hy

theorem foldl {α : Type} {f : Dev → α → Dev} (hf : ∀ d a, BesideTile core d (f d a)) (l : List α) (d : Dev) :
    BesideTile core d (l.foldl f d) := by
  induction l generalizing d with
  | nil => exact refl d
  | cons a l ih => exact (hf d a).trans (ih _)

theorem modEngine (d : Dev) (f : Engine → Engine) (hf : ∀ e, (f e).core = e.core ∧ (f e).kind = e.kind) :
    BesideTile core d (d.modEngine core .tile f) := by
  refine ⟨rfl, rfl, fun c hc => ?_⟩
  have hother : ∀ e : Engine, (e.core == core && e.kind == .tile) = true → (e.core == c && e.kind == .tile) = false := fun e he => by
    obtain ⟨hcore, -⟩ := Bool.and_eq_true_iff.mp he
    rw [beq_iff_eq.mp hcore, Bool.and_eq_false_iff, beq_eq_false_iff_ne, beq_eq_false_iff_ne]
    exact .inl (Ne.symm hc)
  have hfind : (d.modEngine core .tile f).engines.find? (fun e => e.core == c && e.kind == .tile) =
      d.engines.find? (fun e => e.core == c && e.kind == .tile) := by
    refine find?_upsert_other (fun e he => ⟨hother e he, hother _ ?_⟩) (hother _ ?_) _
    · rw [(hf e).1, (hf e).2]
      exact he
    · rw [(hf _).1, (hf _).2]
      simp [Engine.dark]
  rw [Dev.engine, hfind]
  rfl

theorem signalled {d e : Dev} (h : Signalled d e) : BesideTile core d e := by
  rw [h.rest]
  exact of_engines rfl rfl rfl

theorem endJob (d : Dev) (id t : Nat) : BesideTile core d (d.endJob id t) := of_engines rfl rfl rfl

theorem noteIdle (d : Dev) : BesideTile core d (d.noteIdle core .tile) :=
  ite (modEngine d (fun e => { e with idle := d.clock }) fun _ => ⟨rfl, rfl⟩) (refl d)

theorem setRec (d : Dev) (wave : Nat) (o : TileOp) (state cause commit : Nat) : BesideTile core d (d.setRec wave o state cause commit) := by
  cases o with
  | mma => exact of_engines rfl rfl rfl
  | _ => exact refl d

theorem endTile (d : Dev) (j : Job) (t : Nat) : BesideTile core d (d.endTile core j t) :=
  trans (e := (d.modWave j.wave fun w => { w with doneTl := max w.doneTl t }).modBlock j.block fun b => { b with time := max b.time t })
    (of_engines rfl rfl rfl) ((endJob _ j.id t).trans (noteIdle _))

theorem stopTile (d : Dev) (j : Job) (o : TileOp) (pos : Nat) : BesideTile core d (d.stopTile core j o pos cLeaselost) := by
  rw [Dev.stopTile, if_neg (by decide)]
  have hend := (setRec (core := core) d j.wave o 3 cLeaselost pos).trans (endTile _ j j.clock)
  exact ite (hend.trans (signalled (Signalled.raiseAsync rfl _ _))) hend

end BesideTile

/-- The operations of a former lessee end, and the engine is noted as having no lessee. -/
def emptied (d : Dev) (core : Nat) (more : List Job) (note : List Note) : Dev :=
  (more.foldl (fun (d : Dev) j => d.endJob j.id j.clock) d).modEngine core .tile fun e => { e with
    notes := e.notes ++ note, lut := [], slots := [], stale := [], former := none, holder := none
    idle := (more.foldl (fun (d : Dev) j => d.endJob j.id j.clock) d).clock }

/-- A tile engine that stops for power goes dark at once, and signals of LEASELOST follow. -/
theorem engineStop_signals {d : Dev} {core : Nat} (h : (d.engine core .tile).forPower = true) :
    ∃ gone note, Signalled ((emptied d core gone note).modEngine core .tile Engine.darken) (d.engineStop core .tile []) := by
  refine ⟨(d.engineJobs core .tile).filter fun j => (d.engine core .tile).forPower || (d.engine core .tile).holder.any (·.wave == j.wave),
    (d.engine core .tile).holder.toList.map fun r => (⟨r.ticket, r.wave, true⟩ : Note), ?_⟩
  rw [Dev.engineStop, if_pos h]
  exact Signalled.foldl (f := fun d w => d.raiseAsync w cLeaselost) (fun d w => Signalled.raiseAsync rfl d w) _ _

theorem emptied_beside (d : Dev) (core : Nat) (gone : List Job) (note : List Note) : BesideTile core d (emptied d core gone note) :=
  (BesideTile.foldl (fun d (j : Job) => .endJob d j.id j.clock) gone d).trans (.modEngine _ _ fun _ => ⟨rfl, rfl⟩)

theorem engineStop_tile {d : Dev} {core : Nat} (h : (d.engine core .tile).forPower = true) :
    BesideTile core d (d.engineStop core .tile []) ∧ ((d.engineStop core .tile []).engine core .tile).st = .dark := by
  obtain ⟨gone, note, hsig⟩ := engineStop_signals h
  constructor
  · exact ((emptied_beside d core gone note).trans (.modEngine _ Engine.darken fun _ => ⟨rfl, rfl⟩)).trans (.signalled hsig)
  · have hdark := congrArg Engine.st (engine_modEngine (f := Engine.darken) (emptied d core gone note) core .tile fun _ => ⟨rfl, rfl⟩)
    rw [hsig.rest]
    exact hdark

/-- An engine's `forPower` outlives what is noted beside it. -/
theorem forPower_stopTile {d : Dev} {core : Nat} (h : (d.engine core .tile).forPower = true) (j : Job) (o : TileOp) (pos : Nat) :
    ((d.stopTile core j o pos cLeaselost).engine core .tile).forPower = true := by
  have hrec : ((d.setRec j.wave o 3 cLeaselost pos).engine core .tile).forPower = true := by
    cases o with
    | mma => exact h
    | _ => exact h
  have hend : (((d.setRec j.wave o 3 cLeaselost pos).endTile core j j.clock).engine core .tile).forPower = true := by
    generalize d.setRec j.wave o 3 cLeaselost pos = e at hrec
    rw [Dev.endTile, Dev.leaveEngine]
    have hjob : ((((e.modWave j.wave fun w => { w with doneTl := max w.doneTl j.clock }).modBlock j.block fun b =>
        { b with time := max b.time j.clock }).endJob j.id j.clock).engine core .tile).forPower = true := hrec
    generalize (((e.modWave j.wave fun w => { w with doneTl := max w.doneTl j.clock }).modBlock j.block fun b =>
        { b with time := max b.time j.clock }).endJob j.id j.clock) = x at hjob
    rw [Dev.noteIdle]
    split
    · rw [engine_modEngine (f := fun e => { e with idle := x.clock }) x core .tile fun _ => ⟨rfl, rfl⟩]
      exact hjob
    · exact hjob
  rw [Dev.stopTile, if_neg (by decide)]
  generalize (d.setRec j.wave o 3 cLeaselost pos).endTile core j j.clock = e at hend
  split
  · rw [(Signalled.raiseAsync (c := cLeaselost) rfl e j.wave).rest]
    exact hend
  · exact hend

/-- The tile engine of a core is being evicted for power. -/
def evicting (d : Dev) (core : Nat) : Dev := d.modEngine core .tile fun e => { e with st := .evicting, forPower := true }

/-- An engine that is being evicted for power stops with its running operation, and is DARK. -/
def stoppedTile (d : Dev) (core : Nat) : Dev :=
  match d.runningTile core with
  | some (j, o, pos, _, _) => (d.stopTile core j o pos cLeaselost).engineStop core .tile []
  | none => d.engineStop core .tile []

theorem stoppedTile_evicting (d : Dev) (core : Nat) :
    BesideTile core d (stoppedTile (evicting d core) core) ∧ ((stoppedTile (evicting d core) core).engine core .tile).st = .dark := by
  have hbeside : BesideTile core d (evicting d core) := .modEngine d (fun e => { e with st := .evicting, forPower := true }) fun _ => ⟨rfl, rfl⟩
  have hpower : ((evicting d core).engine core .tile).forPower = true :=
    congrArg Engine.forPower (engine_modEngine (f := fun e => { e with st := .evicting, forPower := true }) d core .tile fun _ => ⟨rfl, rfl⟩)
  generalize evicting d core = e at hbeside hpower
  rw [stoppedTile]
  split
  next j o pos _ _ _ =>
    obtain ⟨hrest, hdark⟩ := engineStop_tile (forPower_stopTile hpower j o pos)
    exact ⟨(hbeside.trans (.stopTile e j o pos)).trans hrest, hdark⟩
  next =>
    obtain ⟨hrest, hdark⟩ := engineStop_tile hpower
    exact ⟨hbeside.trans hrest, hdark⟩

/-- Tile engines of other cores stand; this one goes dark (R300, R356). -/
theorem darkenTile_tile (d : Dev) (core : Nat) :
    BesideTile core d (d.darkenTile core) ∧ ((d.darkenTile core).engine core .tile).st = .dark := by
  have hwithdraw : BesideTile core d (d.modEngine core .tile Engine.withdraw) := .modEngine d Engine.withdraw fun _ => ⟨rfl, rfl⟩
  have hstop : BesideTile core d (stoppedTile (evicting (if (d.engine core .tile).st = .warm then d.modEngine core .tile Engine.withdraw else d) core) core) ∧
      ((stoppedTile (evicting (if (d.engine core .tile).st = .warm then d.modEngine core .tile Engine.withdraw else d) core) core).engine core .tile).st = .dark := by
    obtain ⟨hrest, hdark⟩ := stoppedTile_evicting (if (d.engine core .tile).st = .warm then d.modEngine core .tile Engine.withdraw else d) core
    exact ⟨(BesideTile.ite hwithdraw (.refl d)).trans hrest, hdark⟩
  rw [Dev.darkenTile]
  split
  next hdark => exact ⟨.refl d, hdark⟩
  next =>
    exact ⟨.modEngine d (fun e => e.withdraw.darken) fun _ => ⟨rfl, rfl⟩,
      congrArg Engine.st (engine_modEngine (f := fun e => e.withdraw.darken) d core .tile fun _ => ⟨rfl, rfl⟩)⟩
  next => exact hstop

/-- The tile engines of some cores go dark; bytes stand. -/
theorem foldl_darkenTile (l : List Nat) (d : Dev) : (l.foldl Dev.darkenTile d).mem = d.mem ∧ (l.foldl Dev.darkenTile d).locmem = d.locmem ∧
    ∀ c, c ∈ l ∨ (d.engine c .tile).st = .dark → ((l.foldl Dev.darkenTile d).engine c .tile).st = .dark := by
  induction l generalizing d with
  | nil => exact ⟨rfl, rfl, fun c h => h.resolve_left (by simp)⟩
  | cons x l ih =>
    obtain ⟨⟨hmem, hloc, hother⟩, hdark⟩ := darkenTile_tile d x
    obtain ⟨imem, iloc, idark⟩ := ih (d.darkenTile x)
    refine ⟨imem.trans hmem, iloc.trans hloc, fun c hc => idark c ?_⟩
    by_cases hx : c = x
    · rw [hx]
      exact .inr hdark
    · rw [hother c hx]
      exact hc.imp_left fun h => (List.mem_cons.mp h).resolve_left hx

theorem currentEmergency_eq {s : State} {rail : Nat} (h : rail < 32) : exec (.currentEmergency rail) s = .next { s with
    dev := if rail < 28 then (railIslands rail).foldl Dev.darkenTile s.dev else s.dev
    mgmt := { s.mgmt.modRail rail fun r => { r with stretch := some (s.dev.clock + 4800) } with emerg := (s.mgmt.emerg + 1) % 2 ^ 32 } } := by
  change execCurrentEmergency rail s = _
  rw [execCurrentEmergency, if_neg (by omega)]
  rfl

theorem currentEmergency_darkens {s : State} {rail : Nat} (h : rail < 32) : ∃ t, exec (.currentEmergency rail) s = .next t ∧
    t.mgmt.emerg = (s.mgmt.emerg + 1) % 2 ^ 32 ∧ t.mgmt.rail rail = { s.mgmt.rail rail with stretch := some (s.dev.clock + 4800) } ∧
    t.dev.mem = s.dev.mem ∧ t.dev.locmem = s.dev.locmem ∧ ∀ core, rail < 28 → core / 32 = rail → TileDark t core := by
  obtain ⟨hmem, hloc, hdark⟩ := foldl_darkenTile (railIslands rail) s.dev
  refine ⟨_, currentEmergency_eq h, rfl,
    rail_modRail (f := fun r => { r with stretch := some (s.dev.clock + 4800) }) (fun _ => rfl) s.mgmt rail, ?_, ?_, fun core hr hc => ?_⟩
  · split
    · exact hmem
    · rfl
  · split
    · exact hloc
    · rfl
  · rw [TileDark, if_pos hr]
    exact hdark core (.inl (mem_railIslands_core hr hc))

theorem clockStretchEnd_ends {s : State} {rail : Nat} (h : rail < 32) : ∃ t, exec (.clockStretchEnd rail) s = .next t ∧ OnlyMgmt s t ∧
    t.mgmt.rail rail = { s.mgmt.rail rail with stretch := none } := by
  refine ⟨{ s with mgmt := s.mgmt.modRail rail fun r => { r with stretch := none } }, ?_, ⟨rfl, rfl⟩,
    rail_modRail (f := fun r => { r with stretch := none }) (fun _ => rfl) s.mgmt rail⟩
  change execClockStretchEnd rail s = _
  rw [execClockStretchEnd, onMgmt, if_neg (by omega)]

/-! ## The power controller (R349, R350) -/

/-- The state once the package's power has been measured. -/
def measured (s : State) (w : Nat) : State :=
  { s with mgmt := { s.mgmt with ticked := s.dev.clock, pkgw := w + ((List.range 4).map s.dev.reservedPower).sum / 10 } }

theorem powerControlTick_early {s : State} {w : Nat} (h : s.dev.clock < s.mgmt.ticked + 24000) : exec (.powerControlTick w) s = .next s := by
  change execPowerControlTick w s = _
  rw [execPowerControlTick, if_pos h]

theorem powerControlTick_eq {s : State} {w : Nat} (h : s.mgmt.ticked + 24000 ≤ s.dev.clock) : exec (.powerControlTick w) s = .next
    (if s.mgmt.watts < 2 * w then (measured s w).powerAction else if 40 * w < 19 * s.mgmt.watts then (measured s w).powerUndo else measured s w) := by
  change execPowerControlTick w s = _
  rw [execPowerControlTick, if_neg (by omega)]
  rfl

/-- A core that the first action of Table 13-1 finds. -/
def canSlow (s : State) (c : Nat) : Bool :=
  ((s.dev.core c).mapped && !s.dev.guaranteed c) && ((s.dev.core c).k.any (1 < ·) || decide (0 < (s.mgmt.island c).vote))

theorem canSlow_iff {s : State} {c : Nat} : canSlow s c = true ↔ GivesWay s c := by
  simp only [canSlow, GivesWay, Bool.and_eq_true, Bool.or_eq_true, Bool.not_eq_true', List.any_eq_true, decide_eq_true_eq, and_assoc]

theorem firstCore_eq {p : Nat → Bool} {c : Nat} (hc : c < 896) (hp : p c = true) (hfirst : ∀ b < c, p b = false) : firstCore p = some c := by
  rw [firstCore, List.find?_range_eq_some]
  exact ⟨hp, List.mem_range.mpr hc, fun b hb => by rw [hfirst b hb]; rfl⟩

/-- The state after the first action on a core. -/
def slowed (s : State) (c : Nat) : State :=
  let m := if decide (0 < (s.mgmt.island c).vote) then s.mgmt.vote s.dev.clock c ((s.mgmt.island c).vote - 1) else s.mgmt
  { s with
    dev := s.dev.modCore c fun x => { x with k := x.k.map fun k => max 1 (k - 1) }
    mgmt := { m with actions := .ratio c ((s.dev.core c).k.any (1 < ·)) (decide (0 < (s.mgmt.island c).vote)) :: m.actions } }

theorem powerAction_slows {s : State} {c : Nat} (hc : c < 896) (hgive : GivesWay s c) (hfirst : ∀ b < c, ¬ GivesWay s b) :
    s.powerAction = slowed s c := by
  have hfind : firstCore (fun c => ((s.dev.core c).mapped && !s.dev.guaranteed c) &&
      ((s.dev.core c).k.any (1 < ·) || decide (0 < (s.mgmt.island c).vote))) = some c :=
    firstCore_eq hc (canSlow_iff.mpr hgive) fun b hb => Bool.eq_false_iff.mpr fun h => hfirst b hb (canSlow_iff.mp h)
  unfold State.powerAction
  simp only [hfind]
  rfl

theorem slowed_fields (s : State) (c : Nat) :
    (slowed s c).mgmt.pkgw = s.mgmt.pkgw ∧
      (slowed s c).mgmt.actions = .ratio c ((s.dev.core c).k.any (1 < ·)) (decide (0 < (s.mgmt.island c).vote)) :: s.mgmt.actions ∧
      ((slowed s c).mgmt.island c).vote = (s.mgmt.island c).vote - 1 := by
  rw [slowed]
  have hvoted := voted_vote s.mgmt s.dev.clock c ((s.mgmt.island c).vote - 1)
  by_cases h : 0 < (s.mgmt.island c).vote
  · simp only [decide_eq_true h, if_true]
    have hrest := hvoted.rest
    have hvote := hvoted.vote
    generalize s.mgmt.vote s.dev.clock c ((s.mgmt.island c).vote - 1) = e at hrest hvote
    exact ⟨by rw [hrest], by rw [hrest], hvote⟩
  · simp only [decide_eq_false h, Bool.false_eq_true, if_false]
    refine ⟨trivial, trivial, ?_⟩
    change (s.mgmt.island c).vote = _
    omega

theorem slowed_core (s : State) (c : Nat) :
    (slowed s c).dev.core c = { s.dev.core c with k := (s.dev.core c).k.map fun k => max 1 (k - 1) } :=
  core_modCore (f := fun x => { x with k := x.k.map fun k => max 1 (k - 1) }) (fun _ => rfl) s.dev c

theorem powerUndo_pass {s : State} {c : Nat} {rest : List CtlAction} (h : s.mgmt.actions = .pass c :: rest) :
    s.powerUndo = { s with
      dev := s.dev.modCore c fun x => { x with pass := max 1 (x.pass / 2) }, mgmt := { s.mgmt with actions := rest } } := by
  rw [State.powerUndo, h]

theorem powerUndo_ratio {s : State} {c : Nat} {k vote : Bool} {rest : List CtlAction} (h : s.mgmt.actions = .ratio c k vote :: rest) :
    s.powerUndo.mgmt.actions = rest ∧
      (s.powerUndo.dev.core c).k = (if k then (s.dev.core c).k.map (fun k => min 8 (k + 1)) else (s.dev.core c).k) ∧
      (s.powerUndo.mgmt.island c).vote = (if vote then min 5 ((s.mgmt.island c).vote + 1) else (s.mgmt.island c).vote) := by
  have hvoted := voted_vote { s.mgmt with actions := rest } s.dev.clock c (min 5 ((s.mgmt.island c).vote + 1))
  have hundo : s.powerUndo = { s with
      dev := if k then s.dev.modCore c fun x => { x with k := x.k.map fun k => min 8 (k + 1) } else s.dev
      mgmt := if vote then Mgmt.vote { s.mgmt with actions := rest } s.dev.clock c (min 5 ((s.mgmt.island c).vote + 1))
        else { s.mgmt with actions := rest } } := by
    rw [State.powerUndo, h]
    rfl
  rw [hundo]
  refine ⟨?_, ?_, ?_⟩
  · cases vote with
    | false => rfl
    | true => exact congrArg Mgmt.actions hvoted.rest
  · cases k with
    | false => rfl
    | true => exact congrArg Core.k (core_modCore (f := fun x => { x with k := x.k.map fun k => min 8 (k + 1) }) (fun _ => rfl) s.dev c)
  · cases vote with
    | false => rfl
    | true => exact hvoted.vote

/-- Settles O51, unit by unit. -/
theorem powerAndIslands : Obligations.PowerAndIslands := by
  refine ⟨fun s w => ⟨powerControlTick_early, fun hdue => ⟨fun hlow hhigh => ?_, fun c hw hc hgive hfirst => ?_,
      fun c rest hw hlow hact => ?_, fun c rest k vote hw hlow hact => ?_⟩⟩,
    fun s i p hi hp => ?_, fun s i due hi hnext hdue => ⟨fun hlow => ?_, fun _ => islandRiseStep_waits hnext,
      islandRiseStep_volts hnext hdue, islandRiseStep_hertz hnext hdue⟩,
    fun s rail due hdue => ⟨fun hphase => ?_, fun hphase hmay => ?_, fun hphase hmay => ?_, fun hphase hmay => ?_, fun hphase hmay => ?_,
      fun hphase => railStep_rising hphase hdue⟩,
    fun s rail h => if_pos h, fun s rail => currentEmergency_darkens, fun s rail => clockStretchEnd_ends⟩
  · rw [powerControlTick_eq hdue, if_neg (by omega), if_neg (by omega)]
    rfl
  · obtain ⟨hpkgw, hactions, hvote⟩ := slowed_fields (measured s w) c
    have hcore := slowed_core (measured s w) c
    refine ⟨slowed (measured s w) c, ?_, hpkgw, hactions, by rw [hcore]; rfl, by rw [hcore]; rfl, hvote, rfl, rfl⟩
    rw [powerControlTick_eq hdue, if_pos hw, powerAction_slows (s := measured s w) hc hgive hfirst]
  · refine ⟨_, powerControlTick_eq hdue, ?_⟩
    rw [if_neg (by omega), if_pos hw, powerUndo_pass (s := measured s w) hact]
    exact ⟨rfl, congrArg Core.pass (core_modCore (f := fun x => { x with pass := max 1 (x.pass / 2) }) (fun _ => rfl) s.dev c)⟩
  · refine ⟨_, powerControlTick_eq hdue, ?_⟩
    rw [if_neg (by omega), if_pos hw]
    exact powerUndo_ratio (s := measured s w) hact
  · obtain ⟨t, ht, honly, hvoted⟩ := islandVote_votes s i p hi hp
    exact ⟨t, ht, honly, hvoted.vote, hvoted.target, hvoted.railMv, fun j => ⟨hvoted.mhz j, hvoted.mv j⟩, hvoted.others,
      hvoted.away (mem_railIslands hi), hvoted.rails⟩
  · refine ⟨_, frequencyChangeDone_eq s _, ⟨rfl, rfl⟩, ?_⟩
    exact (heldOff_island _ _ _ i).trans (foldl_lowered_due (mem_railIslands hi) hnext hdue hlow)
  · refine ⟨_, frequencyChangeDone_eq s _, ⟨rfl, rfl⟩, ?_⟩
    refine (heldOff_rail (due := due) ?_ hdue).trans ?_
    · rw [railLowered_rail]
      exact hphase
    · rw [railLowered_rail]
  · exact ⟨_, railHoldoffExpire_eq hphase hdue, ⟨rfl, rfl⟩, fall_rail hmay⟩
  · exact ⟨_, railStep_falling hphase hdue, ⟨rfl, rfl⟩, fall_rail hmay⟩
  · rw [railHoldoffExpire_eq hphase hdue, fall_stays hmay]
  · rw [railStep_falling hphase hdue, fall_stays hmay]

end Sys2Proof.Proofs
end

section
/-!
PROOFS. The jobs of the engines at issue (07: R208, R212, R216 to R222): O34 and O35.
-/

open Sys2Proof Sys2Proof.Machine Sys2Proof.Claims

-- The whole text is compiled in one process, which can hold few threads: these proofs are elaborated in order.
set_option Elab.async false

namespace Sys2Proof.Proofs

/-! ## Jobs that an instruction issues (R201) -/

/-- The device after an instruction of the gang has issued a job. -/
def joined (k : Issue) (kind : JobKind) (foot : List Foot) (g : List Nat → List Nat) (d : Dev) : Dev :=
  { d with
    waves := d.waves.map fun w => if w.id = k.wave.id then { w with
      tokens := g w.tokens
      strands := w.strands.mapIdx fun u x => if inGang k.gang u then passed 12 x else x } else w
    nextId := d.nextId + 1
    jobs := d.jobs ++ [{
      id := d.nextId, ctx := k.ctx.n, block := k.block.id, wave := k.wave.id, pc := k.pc, gang := k.gang
      kind := kind, foot := foot, entered := false, after := [], clock := k.wave.lts }] }

theorem jobIssued_eq (s : State) (k : Issue) (kind : JobKind) (foot : List Foot) (g : List Nat → List Nat) :
    jobIssued s k kind foot g = { s with dev := joined k kind foot g (unlatched s) } := rfl

theorem joined_cached {k : Issue} {kind : JobKind} {foot : List Foot} {g : List Nat → List Nat} {d e : Dev} (h : CachedDev d e) :
    CachedDev (joined k kind foot g d) (joined k kind foot g e) := by
  obtain ⟨tlb, llc, mt, xfers, rfl⟩ := exists_of_cachedDev h
  rfl

/-- The issue of a job whose counter and checker have room and whose wave's clock stands. -/
theorem issueJob_joined {d : Dev} {k : Issue} {full : Bool} {kind : JobKind} {foot : List Foot} {f : Dev → Dev} {g : List Nat → List Nat}
    (hfull : full = false) (hroom : (d.jobs.filter (·.ctx == k.ctx.n)).length < 1024) (hnow : d.settled k = true)
    (hf : ∀ e, f e = e.onWave k fun w => { w with tokens := g w.tokens }) :
    d.issueJob k full kind foot f = joined k kind foot g d := by
  have hchecker : d.checkerFull k.ctx.n = false := decide_eq_false (not_le.mpr hroom)
  rw [Dev.issueJob, hfull, hchecker, if_neg (by decide), whenSettled_of_settled hnow]
  simp only [Dev.fresh, hf, Dev.advance, Dev.onGang, Dev.onWave, Dev.modWave, Dev.addJob]
  rw [modIf_modIf _ _ _ (by intro x; rfl)]
  simp only [modIf, beq_iff_eq]
  rfl

theorem onWave_same (d : Dev) (k : Issue) : (d.onWave k fun w => { w with tokens := w.tokens }) = d := by
  have hwaves : modIf (·.id == k.wave.id) (fun w : Wave => { w with tokens := w.tokens }) d.waves = d.waves := by
    rw [modIf]
    exact (List.map_congr_left fun w _ => ite_self w).trans (List.map_id' _)
  exact congrArg (fun l => ({ d with waves := l } : Dev)) hwaves

theorem whole_true {k : Issue} (h : k.gang = k.wave.liveMask) : k.whole = true := whole_iff.mpr h
theorem whole_false {k : Issue} (h : k.gang ≠ k.wave.liveMask) : k.whole = false := Bool.eq_false_iff.mpr fun hw => h (whole_iff.mp hw)

theorem hasLease_iff {s : State} {k : Issue} {kd : EngKind} : (unlatched s).hasLease k kd = true ↔ Leased s k kd := Iff.rfl
theorem hasLease_true {s : State} {k : Issue} {kd : EngKind} (h : Leased s k kd) : (unlatched s).hasLease k kd = true := h
theorem hasLease_false {s : State} {k : Issue} {kd : EngKind} (h : ¬ Leased s k kd) : (unlatched s).hasLease k kd = false :=
  Bool.eq_false_iff.mpr h

theorem fits_of_le {b : Block} {sp : Space} {off n : Nat} (h : off + n ≤ (b.range sp).len) : b.fits sp off n = true := decide_eq_true h

/-- An image whose pages can be read is used, its pages looked up (R218, R219, R258). -/
theorem imageChecked_reads {s : State} {k : Issue} {va n : Nat} (h : ImageReadable s k va n) (f : Dev → Dev) :
    ∃ y, CachedDev (unlatched s) y ∧ (unlatched s).imageChecked k va n f = f y := by
  refine ⟨_, CachedDev.lookedAll (unlatched s) k.core k.ctx ((spans 4096 va n).map (·.va)), ?_⟩
  rw [Dev.imageChecked]
  split
  next e x hfound =>
    obtain ⟨sp, hsp, hx⟩ := List.exists_of_findSome?_eq_some hfound
    obtain ⟨l, hl⟩ := h sp hsp
    have hplace : (unlatched s).unitPlace k.core k.ctx sp.va needR = .ok l := hl
    simp [hplace] at hx
  next => rfl

/-! ## Shape words (Table 7-3) -/

theorem ofWord_shape {x : Word} {mt nt kb ks : Nat} (h : x.toNat = shapeWord mt nt kb ks) (hm : mt ≤ 16) (hn : nt ≤ 16) (hk : kb < 2 ^ 16)
    (hs : ks < 2 ^ 16) : Shape.ofWord x = ⟨mt, nt, kb, ks⟩ := by
  rw [Shape.ofWord, h, shapeWord, Shape.mk.injEq]
  omega

theorem tileOk_shape {x : Word} {mt nt kb ks most : Nat} (h : x.toNat = shapeWord mt nt kb ks) (hm1 : 1 ≤ mt) (hm : mt ≤ 16) (hn1 : 1 ≤ nt)
    (hn : nt ≤ 16) (hk : kb < 2 ^ 16) (hs : ks < 2 ^ 16) (hmost : mt * nt ≤ most) : tileOk x ⟨mt, nt, kb, ks⟩ most = true := by
  have hzero : x.toNat / 2 ^ 48 = 0 := by
    rw [h, shapeWord]
    omega
  simp only [tileOk, hzero, beq_self_eq_true, Bool.true_and, decide_eq_true_eq]
  exact ⟨hm1, hm, hn1, hn, hmost⟩

/-! ## Tile instructions (R212, R217, R218) -/

/-- The active lanes agree on a format word (R64). -/
theorem voteFormat_agrees {s : State} {k : Issue} {v : VReg} {f : Lane} (hne : activeLanes k ⟨false, 0⟩ ≠ [])
    (h : ∀ l ∈ activeLanes k ⟨false, 0⟩, s.dev.source k v.toNat l = f) : (unlatched s).voteFormat k v = some f := by
  change (match (activeLanes k ⟨false, 0⟩).map (s.dev.source k v.toNat) with | [] => none | x :: xs => if xs.all (· == x) then some x else none) = _
  have hmap : (activeLanes k ⟨false, 0⟩).map (s.dev.source k v.toNat) = List.replicate (activeLanes k ⟨false, 0⟩).length f :=
    List.map_eq_replicate_iff.mpr h
  rw [hmap]
  cases hlen : (activeLanes k ⟨false, 0⟩).length with
  | zero => exact absurd (List.length_eq_zero_iff.mp hlen) hne
  | succ n =>
    rw [List.replicate_succ]
    exact if_pos (by simp)

theorem voteFormat_differs {s : State} {k : Issue} {v : VReg}
    (h : ∃ l ∈ activeLanes k ⟨false, 0⟩, ∃ j ∈ activeLanes k ⟨false, 0⟩, s.dev.source k v.toNat l ≠ s.dev.source k v.toNat j) :
    (unlatched s).voteFormat k v = none := by
  obtain ⟨l, hl, j, hj, hne⟩ := h
  have hmem : ∀ i ∈ activeLanes k ⟨false, 0⟩, s.dev.source k v.toNat i ∈ (activeLanes k ⟨false, 0⟩).map (s.dev.source k v.toNat) := fun i hi =>
    List.mem_map_of_mem hi
  have hl' := hmem l hl
  have hj' := hmem j hj
  change (match (activeLanes k ⟨false, 0⟩).map (s.dev.source k v.toNat) with | [] => none | x :: xs => if xs.all (· == x) then some x else none) = _
  generalize (activeLanes k ⟨false, 0⟩).map (s.dev.source k v.toNat) = vs at hl' hj'
  cases vs with
  | nil => rfl
  | cons x xs =>
    refine if_neg fun hall => hne ?_
    have heq : ∀ y ∈ x :: xs, y = x := fun y hy => (List.mem_cons.mp hy).elim id fun hy => beq_iff_eq.mp (List.all_eq_true.mp hall y hy)
    rw [heq _ hl', heq _ hj']

/-- What the three forms of `tmma` do with the device. -/
def tmmaDev (form : TmmaForm) (v : VReg) (sd sa sb sc : SReg) (k : Issue) (d : Dev) : Dev :=
  let most := if form = .x2 then 32 else 64
  let x := k.rd sc
  let (da, aa, ba) := ((k.rd sd).toNat, (k.rd sa).toNat, (k.rd sb).toNat)
  if !k.inWindow [v.toNat] then d.trap k cRegrange
  else if !k.whole then d.trap k cGang
  else if !d.hasLease k .tile then d.trap k cNolease
  else
    match d.voteFormat k v with
    | none => d.trap k cFmtdiv
    | some f =>
      match tmmaCheck k.block f x most da aa ba with
      | some e => d.trap k e
      | none =>
        let s := Shape.ofWord x
        let token := k.wave.tokens.headD 0 + 1
        let foot := [localFoot k.block .abuf aa (s.m * s.kb * fmtBytes (fmtA f) (scA f)) false,
          localFoot k.block .wbuf ba (s.n * s.kb * fmtBytes (fmtB f) (scB f)) false,
          localFoot k.block .acc da (4 * s.m * s.n) true]
        d.issueJob k (decide (14 ≤ d.tl k.wave.id))
          (.tile (.mma form f da aa ba s.mt s.nt s.kb s.kstart token) s.kstart none none) foot
          fun d => d.onWave k fun w => { w with tokens := w.tokens.set 0 token }

theorem tmmaIssue_next {s : State} {k : Issue} (hk : s.dev.issuer? = some k) (form : TmmaForm) (v : VReg) (d a b c : SReg) :
    tmmaIssue s form v d a b c = .next { s with dev := tmmaDev form v d a b c k (unlatched s) } := issue_next s k _ hk

/-- The checks of R212 pass. -/
theorem tmmaCheck_passes {b : Block} {f : Lane} {x : Word} {most da aa ba mt nt kb ks : Nat} (hf : legalFormat f = true)
    (hshape : Shape.ofWord x = ⟨mt, nt, kb, ks⟩) (htile : tileOk x ⟨mt, nt, kb, ks⟩ most = true) (hks : ks < kb)
    (hda : da % 16 = 0) (haa : aa % 16 = 0) (hba : ba % 16 = 0) (hafit : aa + 16 * mt * kb * fmtBytes (fmtA f) (scA f) ≤ b.abuf.len)
    (hbfit : ba + 16 * nt * kb * fmtBytes (fmtB f) (scB f) ≤ b.wbuf.len) (hdfit : da + 4 * (16 * mt) * (16 * nt) ≤ b.acc.len) :
    tmmaCheck b f x most da aa ba = none := by
  have hfitA := fits_of_le (b := b) (sp := .abuf) hafit
  have hfitB := fits_of_le (b := b) (sp := .wbuf) hbfit
  have hfitD := fits_of_le (b := b) (sp := .acc) hdfit
  have hkb : decide (kb ≤ ks) = false := decide_eq_false (by omega)
  have hkb0 : kb ≠ 0 := by omega
  simp only [tmmaCheck, hf, hshape, htile, hkb, hda, haa, hba, Shape.m, Shape.n, hfitA, hfitB, hfitD]
  simp [hkb0]

section
variable {s : State} {k : Issue} {v : VReg} {d a b c : SReg} {form : TmmaForm}

theorem tmma_part (hk : s.dev.issuer? = some k) (hw : InWindow k [v.toNat]) (hpart : k.gang ≠ k.wave.liveMask) :
    tmmaIssue s form v d a b c = .next (after s fun x => x.trap k cGang) := by
  rw [tmmaIssue_next hk]
  simp only [tmmaDev, (inWindow_eq_true_iff k _).mpr hw, whole_false hpart]
  rfl

theorem tmma_unleased (hk : s.dev.issuer? = some k) (hw : InWindow k [v.toNat]) (hwhole : k.gang = k.wave.liveMask) (hl : ¬ Leased s k .tile) :
    tmmaIssue s form v d a b c = .next (after s fun x => x.trap k cNolease) := by
  rw [tmmaIssue_next hk]
  simp only [tmmaDev, (inWindow_eq_true_iff k _).mpr hw, whole_true hwhole, hasLease_false hl]
  rfl

theorem tmma_differs (hk : s.dev.issuer? = some k) (hw : InWindow k [v.toNat]) (hwhole : k.gang = k.wave.liveMask) (hl : Leased s k .tile)
    (h : ∃ l ∈ activeLanes k ⟨false, 0⟩, ∃ j ∈ activeLanes k ⟨false, 0⟩, s.dev.source k v.toNat l ≠ s.dev.source k v.toNat j) :
    tmmaIssue s form v d a b c = .next (after s fun x => x.trap k cFmtdiv) := by
  rw [tmmaIssue_next hk]
  simp only [tmmaDev, (inWindow_eq_true_iff k _).mpr hw, whole_true hwhole, hasLease_true hl, voteFormat_differs h]
  rfl

theorem tmma_issues {f : Lane} {mt nt kb ks : Nat} (hmay : MayIssueJob s k) (hl : Leased s k .tile) (hw : InWindow k [v.toNat])
    (htl : s.dev.tl k.wave.id < 14) (hne : activeLanes k ⟨false, 0⟩ ≠ []) (hv : ∀ l ∈ activeLanes k ⟨false, 0⟩, s.dev.source k v.toNat l = f)
    (hf : legalFormat f = true) (hx : (k.rd c).toNat = shapeWord mt nt kb ks) (hm1 : 1 ≤ mt) (hm : mt ≤ 16) (hn1 : 1 ≤ nt) (hn : nt ≤ 16)
    (hmost : mt * nt ≤ if form = .x2 then 32 else 64) (hks : ks < kb) (hkb : kb < 2 ^ 16)
    (hda : (k.rd d).toNat % 16 = 0) (haa : (k.rd a).toNat % 16 = 0) (hba : (k.rd b).toNat % 16 = 0)
    (hafit : (k.rd a).toNat + 16 * mt * kb * fmtBytes (fmtA f) (scA f) ≤ k.block.abuf.len)
    (hbfit : (k.rd b).toNat + 16 * nt * kb * fmtBytes (fmtB f) (scB f) ≤ k.block.wbuf.len)
    (hdfit : (k.rd d).toNat + 4 * (16 * mt) * (16 * nt) ≤ k.block.acc.len) :
    tmmaIssue s form v d a b c = .next (jobIssued s k
      (.tile (.mma form f (k.rd d).toNat (k.rd a).toNat (k.rd b).toNat mt nt kb ks (k.wave.tokens.headD 0 + 1)) ks none none)
      [footAt k .abuf k.block.abuf (k.rd a).toNat (16 * mt * kb * fmtBytes (fmtA f) (scA f)) false,
        footAt k .wbuf k.block.wbuf (k.rd b).toNat (16 * nt * kb * fmtBytes (fmtB f) (scB f)) false,
        footAt k .acc k.block.acc (k.rd d).toNat (4 * (16 * mt) * (16 * nt)) true]
      (fun l => l.set 0 (k.wave.tokens.headD 0 + 1))) := by
  obtain ⟨hk, hwhole, hroom, hnow⟩ := hmay
  have hshape := ofWord_shape hx hm hn hkb (by omega)
  have hcheck := tmmaCheck_passes (b := k.block) hf hshape (tileOk_shape hx hm1 hm hn1 hn hkb (by omega) hmost) hks hda haa hba hafit hbfit hdfit
  rw [tmmaIssue_next hk, jobIssued_eq]
  simp only [tmmaDev, (inWindow_eq_true_iff k _).mpr hw, whole_true hwhole, hasLease_true hl, voteFormat_agrees hne hv, hcheck, hshape,
    Bool.not_true, Bool.false_eq_true, if_false]
  exact congrArg (fun x => Host.Outcome.next { s with dev := x })
    (issueJob_joined (d := unlatched s) (g := fun l => l.set 0 (k.wave.tokens.headD 0 + 1)) (decide_eq_false (not_le.mpr htl)) hroom hnow fun _ => rfl)

end

/-- The operands of `tzero` and `tcvt` meet R217. -/
theorem accCheck_passes {s : State} {k : Issue} {x : Word} {mt nt da : Nat} {out : Option (Nat × Nat)} (hwhole : k.gang = k.wave.liveMask)
    (hl : Leased s k .tile) (hx : x.toNat = shapeWord mt nt 0 0) (hm1 : 1 ≤ mt) (hm : mt ≤ 16) (hn1 : 1 ≤ nt) (hn : nt ≤ 16)
    (hmost : mt * nt ≤ 64) (hda : da % 16 = 0) (hfit : da + 4 * (16 * mt) * (16 * nt) ≤ k.block.acc.len)
    (hout : ∀ o, out = some o → o.1 % 16 = 0 ∧ o.1 + o.2 ≤ k.block.abuf.len) : (unlatched s).accCheck k x da out = none := by
  have hshape := ofWord_shape hx hm hn (by decide) (by decide)
  have htile := tileOk_shape hx hm1 hm hn1 hn (by decide) (by decide) hmost
  have hfitD := fits_of_le (b := k.block) (sp := .acc) hfit
  have halign : out.any (fun o => decide (o.1 % 16 ≠ 0)) = false := by
    cases out with
    | none => rfl
    | some o => exact decide_eq_false (not_not.mpr (hout o rfl).1)
  have hfits : out.any (fun o => !k.block.fits .abuf o.1 o.2) = false := by
    cases out with
    | none => rfl
    | some o =>
      rw [Option.any_some, fits_of_le (b := k.block) (sp := .abuf) (hout o rfl).2]
      rfl
  simp only [Dev.accCheck, hshape, htile, whole_true hwhole, hasLease_true hl, hda, halign, hfits, Shape.m, Shape.n, hfitD]
  rfl

theorem tzero_issues {s : State} {k : Issue} {d c : SReg} {mt nt : Nat} (hmay : MayIssueJob s k) (hl : Leased s k .tile)
    (htl : s.dev.tl k.wave.id < 14) (hx : (k.rd c).toNat = shapeWord mt nt 0 0) (hm1 : 1 ≤ mt) (hm : mt ≤ 16) (hn1 : 1 ≤ nt) (hn : nt ≤ 16)
    (hmost : mt * nt ≤ 64) (hda : (k.rd d).toNat % 16 = 0) (hfit : (k.rd d).toNat + 4 * (16 * mt) * (16 * nt) ≤ k.block.acc.len) :
    exec (.tzero d c) s = .next (jobIssued s k (.tile (.zero (k.rd d).toNat mt nt) 0 none none)
      [footAt k .acc k.block.acc (k.rd d).toNat (4 * (16 * mt) * (16 * nt)) true] (fun l => l)) := by
  obtain ⟨hk, hwhole, hroom, hnow⟩ := hmay
  have hshape := ofWord_shape hx hm hn (by decide) (by decide)
  have hcheck := accCheck_passes (out := none) hwhole hl hx hm1 hm hn1 hn hmost hda hfit (by simp)
  have hissue := issueJob_joined (d := unlatched s) (g := fun l => l) (f := id) (kind := .tile (.zero (k.rd d).toNat mt nt) 0 none none)
    (foot := [localFoot k.block .acc (k.rd d).toNat (4 * (16 * mt) * (16 * nt)) true]) (decide_eq_false (not_le.mpr htl)) hroom hnow
    fun e => (onWave_same e k).symm
  change execTzero d c s = _
  rw [execTzero, guarded_next s k _ _ hk hcheck]
  simp only [hshape]
  exact congrArg (fun x => Host.Outcome.next { s with dev := x }) hissue

theorem tcvt_issues {s : State} {k : Issue} {b d c : SReg} {f : TcvtForm} {sc : BitVec 8} {mt nt : Nat} (hmay : MayIssueJob s k)
    (hl : Leased s k .tile) (htl : s.dev.tl k.wave.id < 14) (hx : (k.rd c).toNat = shapeWord mt nt 0 0) (hm1 : 1 ≤ mt) (hm : mt ≤ 16)
    (hn1 : 1 ≤ nt) (hn : nt ≤ 16) (hmost : mt * nt ≤ 64) (hda : (k.rd d).toNat % 16 = 0)
    (hfit : (k.rd d).toNat + 4 * (16 * mt) * (16 * nt) ≤ k.block.acc.len) (hba : (k.rd b).toNat % 16 = 0)
    (hbfit : (k.rd b).toNat + cvtBytes f * ((16 * mt) * (16 * nt)) ≤ k.block.abuf.len) :
    exec (.tcvt f b d c sc) s = .next (jobIssued s k (.tile (.cvt f (k.rd b).toNat (k.rd d).toNat mt nt sc.toInt) 0 none none)
      [footAt k .acc k.block.acc (k.rd d).toNat (4 * (16 * mt) * (16 * nt)) false,
        footAt k .abuf k.block.abuf (k.rd b).toNat (cvtBytes f * ((16 * mt) * (16 * nt))) true] (fun l => l)) := by
  obtain ⟨hk, hwhole, hroom, hnow⟩ := hmay
  have hshape := ofWord_shape hx hm hn (by decide) (by decide)
  have hcheck := accCheck_passes (out := some ((k.rd b).toNat, cvtBytes f * ((16 * mt) * (16 * nt)))) hwhole hl hx hm1 hm hn1 hn hmost hda hfit
    (by rintro o ⟨⟩; exact ⟨hba, hbfit⟩)
  have hsize : cvtBytes f * ((Shape.ofWord (k.rd c)).m * (Shape.ofWord (k.rd c)).n) = cvtBytes f * ((16 * mt) * (16 * nt)) := by
    rw [hshape]
    rfl
  have hissue := issueJob_joined (d := unlatched s) (g := fun l => l) (f := id)
    (kind := .tile (.cvt f (k.rd b).toNat (k.rd d).toNat mt nt sc.toInt) 0 none none)
    (foot := [localFoot k.block .acc (k.rd d).toNat (4 * (16 * mt) * (16 * nt)) false,
      localFoot k.block .abuf (k.rd b).toNat (cvtBytes f * ((16 * mt) * (16 * nt))) true])
    (decide_eq_false (not_le.mpr htl)) hroom hnow fun e => (onWave_same e k).symm
  change execTcvt f b d c sc s = _
  rw [execTcvt, guarded_next s k _ _ hk (by
    change (unlatched s).accCheck k (k.rd c) (k.rd d).toNat
      (some ((k.rd b).toNat, cvtBytes f * ((Shape.ofWord (k.rd c)).m * (Shape.ofWord (k.rd c)).n))) = none
    rw [hsize]
    exact hcheck)]
  simp only [hshape]
  exact congrArg (fun x => Host.Outcome.next { s with dev := x }) hissue

theorem tdload_issues {s : State} {k : Issue} {a : SReg} (hmay : MayIssueJob s k) (hl : Leased s k .tile) (htl : s.dev.tl k.wave.id < 14)
    (halign : (k.rd a).toNat % 2048 = 0) (hread : ImageReadable s k (k.rd a).toNat 2048) :
    ∃ t, exec (.tdload a) s = .next t ∧ Cached (jobIssued s k (.tile (.dload (k.rd a).toNat) 0 none none)
      [⟨none, (k.rd a).toNat, (k.rd a).toNat + 2048, false⟩] (fun l => l)) t := by
  obtain ⟨hk, hwhole, hroom, hnow⟩ := hmay
  obtain ⟨y, hy, himage⟩ := imageChecked_reads hread fun d =>
    if !d.hasLease k .tile then d.trap k cNolease
    else d.issueJob k (decide (14 ≤ d.tl k.wave.id)) (.tile (.dload (k.rd a).toNat) 0 none none)
      [⟨none, (k.rd a).toNat, (k.rd a).toNat + 2048, false⟩] id
  have hissue : (if !y.hasLease k .tile then y.trap k cNolease
      else y.issueJob k (decide (14 ≤ y.tl k.wave.id)) (.tile (.dload (k.rd a).toNat) 0 none none)
        [⟨none, (k.rd a).toNat, (k.rd a).toNat + 2048, false⟩] id) =
      joined k (.tile (.dload (k.rd a).toNat) 0 none none) [⟨none, (k.rd a).toNat, (k.rd a).toNat + 2048, false⟩] (fun l => l) y := by
    obtain ⟨tlb, llc, mt, xfers, rfl⟩ := exists_of_cachedDev hy
    refine (if_neg ?_).trans (issueJob_joined (g := fun l => l) (decide_eq_false (not_le.mpr htl)) hroom hnow fun e => (onWave_same e k).symm)
    exact Bool.not_eq_true' _ ▸ (by rw [hasLease_true hl]; decide : ¬ (unlatched s).hasLease k .tile = false)
  refine ⟨{ s with
    dev := joined k (.tile (.dload (k.rd a).toNat) 0 none none) [⟨none, (k.rd a).toNat, (k.rd a).toNat + 2048, false⟩] (fun l => l) y }, ?_, ?_⟩
  · change execTdload a s = _
    rw [execTdload, issue_next s k _ hk]
    refine congrArg (fun x => Host.Outcome.next { s with dev := x }) ?_
    simp only [whole_true hwhole, halign]
    exact himage.trans hissue
  · rw [jobIssued_eq]
    exact cached_of_cachedDev (joined_cached hy)

/-- Two successive registers of the gang are written, and it passes the instruction. -/
theorem setRun_pair {s : State} {k : Issue} {d : SReg} {x y : Word} (h1 : 1 ≤ d.toNat) (h62 : d.toNat ≤ 62) :
    (((unlatched s).setRun k d [x, y]).advance k 12).waves = (gangStep s k fun _ z => passed 12 { z with
      s := (z.s.set d.toNat x).set (d.toNat + 1) y }).dev.waves := by
  have hne0 : d + BitVec.ofNat 6 0 ≠ 0 := by
    intro h
    have := congrArg BitVec.toNat h
    simp at this
    omega
  have hd0 : (d + BitVec.ofNat 6 0).toNat = d.toNat := by simp
  have hd1 : (d + BitVec.ofNat 6 1).toNat = d.toNat + 1 := by
    rw [BitVec.toNat_add, BitVec.toNat_ofNat]
    omega
  have hne1 : d + BitVec.ofNat 6 1 ≠ 0 := by
    intro h
    have := congrArg BitVec.toNat h
    rw [hd1] at this
    simp at this
  have hwr0 : ∀ z : Strand, z.wr (d + BitVec.ofNat 6 0) x = { z with s := z.s.set d.toNat x } := fun z => by
    rw [Strand.wr, if_neg hne0, hd0]
  have hwr1 : ∀ z : Strand, z.wr (d + BitVec.ofNat 6 1) y = { z with s := z.s.set (d.toNat + 1) y } := fun z => by
    rw [Strand.wr, if_neg hne1, hd1]
  have hrun : (unlatched s).setRun k d [x, y] = ((unlatched s).setScalars k (d + BitVec.ofNat 6 0) fun _ => x).setScalars k (d + BitVec.ofNat 6 1) fun _ => y := rfl
  rw [hrun]
  simp only [Dev.advance, Dev.setScalars, Dev.onGang, Dev.onWave, Dev.modWave]
  rw [modIf_modIf _ _ _ (by intro x; rfl), modIf_modIf _ _ _ (by intro x; rfl)]
  simp only [gangStep, waveStep, modIf, beq_iff_eq, modStrands_modStrands, hwr0, hwr1]
  rfl

/-- Settles O34, form by form. -/
theorem tileInstructions : Obligations.TileInstructions := by
  refine ⟨?_, fun s k d c mt nt hmay hl htl hx hm1 hm hn1 hn hmost hda hfit => ⟨tzero_issues hmay hl htl hx hm1 hm hn1 hn hmost hda hfit,
      fun f b sc hba hbfit => tcvt_issues hmay hl htl hx hm1 hm hn1 hn hmost hda hfit hba hbfit⟩,
    fun s k a hmay hl htl halign hread => tdload_issues hmay hl htl halign hread, fun s k d hk h1 h62 => ?_,
    fun s k v d a b c hk hw i hi => ?_⟩
  · intro s k v d a b c f mt nt kb ks i form hform hmay hl hw htl hne hv hf hx hm1 hm hn1 hn hmost hks hkb da aa ba na nb hda haa hba hafit hbfit hdfit
    have hexec : exec i s = tmmaIssue s form v d a b c := by
      simp only [List.mem_cons, Prod.mk.injEq, List.not_mem_nil, or_false] at hform
      rcases hform with ⟨rfl, rfl⟩ | ⟨rfl, rfl⟩ | ⟨rfl, rfl⟩ <;> rfl
    rw [hexec]
    exact tmma_issues hmay hl hw htl hne hv hf hx hm1 hm hn1 hn hmost hks hkb hda haa hba hafit hbfit hdfit
  · refine ⟨_, (show execTstat d s = _ from andNext_next s k 12 _ hk), setRun_pair h1 h62⟩
  · have hexec : ∃ form, exec i s = tmmaIssue s form v d a b c := by
      rcases hi with rfl | rfl | rfl
      · exact ⟨.plain, rfl⟩
      · exact ⟨.zero, rfl⟩
      · exact ⟨.x2, rfl⟩
    obtain ⟨form, hform⟩ := hexec
    rw [hform]
    exact ⟨tmma_part hk hw, tmma_unleased hk hw, tmma_differs hk hw⟩

/-! ## Table and select instructions (R219, R220, R222) -/

theorem ftload_issues {s : State} {k : Issue} {slot : BitVec 2} {a : SReg} (hmay : MayIssueJob s k) (hl : Leased s k .table)
    (hfx : s.dev.fx k.wave.id < 6) (halign : (k.rd a).toNat % 16 = 0) (hread : ImageReadable s k (k.rd a).toNat 4112) :
    ∃ t, exec (.ftload slot a) s = .next t ∧ Cached (jobIssued s k (.fx (.ftload slot.toNat (k.rd a).toNat) none)
      [⟨none, (k.rd a).toNat, (k.rd a).toNat + 4112, false⟩] (fun l => l.modify 1 (· + 1))) t := by
  obtain ⟨hk, hwhole, hroom, hnow⟩ := hmay
  obtain ⟨y, hy, himage⟩ := imageChecked_reads hread fun d =>
    if !d.hasLease k .table then d.trap k cNolease
    else d.issueJob k (decide (6 ≤ d.fx k.wave.id)) (.fx (.ftload slot.toNat (k.rd a).toNat) none)
      [⟨none, (k.rd a).toNat, (k.rd a).toNat + 4112, false⟩] fun d => d.onWave k fun w => { w with tokens := w.tokens.modify 1 (· + 1) }
  have hissue : (if !y.hasLease k .table then y.trap k cNolease
      else y.issueJob k (decide (6 ≤ y.fx k.wave.id)) (.fx (.ftload slot.toNat (k.rd a).toNat) none)
        [⟨none, (k.rd a).toNat, (k.rd a).toNat + 4112, false⟩] fun d => d.onWave k fun w => { w with tokens := w.tokens.modify 1 (· + 1) }) =
      joined k (.fx (.ftload slot.toNat (k.rd a).toNat) none) [⟨none, (k.rd a).toNat, (k.rd a).toNat + 4112, false⟩] (fun l => l.modify 1 (· + 1)) y := by
    obtain ⟨tlb, llc, mt, xfers, rfl⟩ := exists_of_cachedDev hy
    refine (if_neg ?_).trans (issueJob_joined (g := fun l => l.modify 1 (· + 1)) (decide_eq_false (not_le.mpr hfx)) hroom hnow fun _ => rfl)
    exact Bool.not_eq_true' _ ▸ (by rw [hasLease_true hl]; decide : ¬ (unlatched s).hasLease k .table = false)
  refine ⟨{ s with
    dev := joined k (.fx (.ftload slot.toNat (k.rd a).toNat) none) [⟨none, (k.rd a).toNat, (k.rd a).toNat + 4112, false⟩]
      (fun l => l.modify 1 (· + 1)) y }, ?_, ?_⟩
  · change execFtload slot a s = _
    rw [execFtload, issue_next s k _ hk]
    refine congrArg (fun x => Host.Outcome.next { s with dev := x }) ?_
    simp only [whole_true hwhole, halign]
    exact himage.trans hissue
  · rw [jobIssued_eq]
    exact cached_of_cachedDev (joined_cached hy)

theorem ftevl_issues {s : State} {k : Issue} {g : Guard} {d a : VReg} {slot : BitVec 2} (hmay : MayIssueJob s k) (hl : Leased s k .table)
    (hfx : s.dev.fx k.wave.id < 6) (hw : InWindow k [d.toNat, a.toNat]) :
    exec (.ftevl g d a slot) s = .next (jobIssued s k
      (.fx (.ftevl slot.toNat d ((activeLanes k g).map fun l => (l, s.dev.source k a.toNat l))) none) [] (fun l => l.modify 1 (· + 1))) := by
  obtain ⟨hk, hwhole, hroom, hnow⟩ := hmay
  change execFtevl g d a slot s = _
  rw [execFtevl, issue_next s k _ hk, jobIssued_eq]
  refine congrArg (fun x => Host.Outcome.next { s with dev := x }) ?_
  have hlease := hasLease_true hl
  rw [unlatched] at hlease
  simp only [(inWindow_eq_true_iff k _).mpr hw, whole_true hwhole, hlease, Bool.not_true, Bool.false_eq_true, if_false]
  exact issueJob_joined (d := unlatched s) (g := fun l => l.modify 1 (· + 1)) (decide_eq_false (not_le.mpr hfx)) hroom hnow fun _ => rfl

section
variable {s : State} {k : Issue} {d a b : SReg} {f : SelFlags} {badK : Issue → Nat → Bool} {out : Issue → Nat → Nat}
  {op : Issue → Nat → Nat → Nat → FxOp}

theorem select_part (hk : s.dev.issuer? = some k) (hpart : k.gang ≠ k.wave.liveMask) :
    selectIssue s d a b f badK out op = .next (after s fun x => x.trap k cGang) := by
  rw [selectIssue, issue_next s k _ hk]
  simp only [whole_false hpart]
  rfl

theorem select_unleased (hk : s.dev.issuer? = some k) (hwhole : k.gang = k.wave.liveMask) (hl : ¬ Leased s k .select) :
    selectIssue s d a b f badK out op = .next (after s fun x => x.trap k cNolease) := by
  have hlease := hasLease_false hl
  rw [unlatched] at hlease
  rw [selectIssue, issue_next s k _ hk]
  simp only [whole_true hwhole, hlease]
  rfl

/-- The device after a select operation whose checks have passed. -/
def selectDev (b : SReg) (sa da m : Nat) (f : SelFlags) (o : FxOp) (k : Issue) (d : Dev) : Dev :=
  if (k.rd b).toNat = 0 then d.advance k 12
  else
    d.issueJob k (decide (6 ≤ d.fx k.wave.id)) (.fx o none)
      [localFoot k.block .scratch sa (selSize f * (k.rd b).toNat) false, localFoot k.block .scratch da m true]
      fun d => d.onWave k fun w => { w with tokens := w.tokens.modify 2 (· + 1) }

theorem select_passes (hk : s.dev.issuer? = some k) (hwhole : k.gang = k.wave.liveMask) (hl : Leased s k .select)
    (hn : (k.rd b).toNat ≤ 16384) (hbad : badK k (k.rd b).toNat = false)
    (hsa : (k.rd a).toNat % selSize f = 0) (hda : (k.rd d).toNat % selSize f = 0)
    (hfitS : (k.rd a).toNat + selSize f * (k.rd b).toNat ≤ k.block.scratch.len)
    (hfitD : (k.rd d).toNat + selSize f * out k (k.rd b).toNat ≤ k.block.scratch.len)
    (happart : ((k.rd a).toNat = (k.rd d).toNat ∧ selSize f * (k.rd b).toNat = selSize f * out k (k.rd b).toNat) ∨
      (k.rd a).toNat + selSize f * (k.rd b).toNat ≤ (k.rd d).toNat ∨ (k.rd d).toNat + selSize f * out k (k.rd b).toNat ≤ (k.rd a).toNat) :
    selectIssue s d a b f badK out op = .next { s with
      dev := selectDev b (k.rd a).toNat (k.rd d).toNat (selSize f * out k (k.rd b).toNat) f
        (op k (k.rd d).toNat (k.rd a).toNat (k.rd b).toNat) k (unlatched s) } := by
  have hlease := hasLease_true hl
  rw [unlatched] at hlease
  have hfits := fits_of_le (b := k.block) (sp := .scratch) hfitS
  have hfitd := fits_of_le (b := k.block) (sp := .scratch) hfitD
  have hbig : decide (16384 < (k.rd b).toNat) = false := decide_eq_false (by omega)
  have happart' : (((k.rd a).toNat == (k.rd d).toNat && selSize f * (k.rd b).toNat == selSize f * out k (k.rd b).toNat) ||
      decide ((k.rd a).toNat + selSize f * (k.rd b).toNat ≤ (k.rd d).toNat ∨ (k.rd d).toNat + selSize f * out k (k.rd b).toNat ≤ (k.rd a).toNat)) = true := by
    rw [Bool.or_eq_true, Bool.and_eq_true, beq_iff_eq, beq_iff_eq, decide_eq_true_eq]
    exact happart
  rw [selectIssue, issue_next s k _ hk]
  simp only [whole_true hwhole, hlease, hbad, hbig, hsa, hda, hfits, hfitd, happart']
  rfl

/-- The operands of a select operation meet R222, and its job is issued. -/
theorem select_issues {o : FxOp} {m : Nat} (hmay : MayIssueJob s k) (hl : Leased s k .select) (hfx : s.dev.fx k.wave.id < 6)
    (hbad : badK k (k.rd b).toNat = false) (hm : selSize f * out k (k.rd b).toNat = m)
    (ho : op k (k.rd d).toNat (k.rd a).toNat (k.rd b).toNat = o)
    (h : SelectOperands k (k.rd a).toNat (k.rd d).toNat (selSize f) (k.rd b).toNat m) :
    selectIssue s d a b f badK out op = .next (jobIssued s k (.fx o none)
      [footAt k .scratch k.block.scratch (k.rd a).toNat (selSize f * (k.rd b).toNat) false,
        footAt k .scratch k.block.scratch (k.rd d).toNat m true] fun l => l.modify 2 (· + 1)) := by
  subst hm ho
  obtain ⟨hk, hwhole, hroom, hnow⟩ := hmay
  obtain ⟨hn1, hn, hsa, hda, hfitS, hfitD, happart⟩ := h
  rw [select_passes hk hwhole hl hn hbad hsa hda hfitS hfitD happart, jobIssued_eq]
  refine congrArg (fun x => Host.Outcome.next { s with dev := x }) ?_
  rw [selectDev, if_neg (by omega)]
  exact issueJob_joined (g := fun l => l.modify 2 (· + 1)) (decide_eq_false (not_le.mpr hfx)) hroom hnow fun _ => rfl

end

/-- Settles O35, form by form. -/
theorem tableAndSelectInstructions : Obligations.TableAndSelectInstructions := by
  refine ⟨fun s k slot a hmay hl hfx halign hread => ftload_issues hmay hl hfx halign hread,
    fun s k g d a slot hmay hl hfx hw => ftevl_issues hmay hl hfx hw, fun s k d a b f hmay hl hfx => ⟨?_, ?_, ?_, ?_⟩,
    fun s k d a b c f hk i hi => ?_⟩
  · intro h
    change selectIssue s d a b f (fun _ _ => false) (fun _ n => n) (fun _ da sa n => .sort da sa n f) = _
    exact select_issues hmay hl hfx rfl rfl rfl h
  · intro h
    change selectIssue s d a b f (fun _ _ => false) (fun _ n => n) (fun _ da sa n => .scan da sa n f) = _
    exact select_issues hmay hl hfx rfl rfl rfl h
  · intro c h1 hc h
    change selectIssue s d a b f (fun k n => decide ((k.rd c).toNat < 1 ∨ n < (k.rd c).toNat)) (fun k _ => (k.rd c).toNat)
      (fun k da sa n => .topk da sa n (k.rd c).toNat f) = _
    exact select_issues hmay hl hfx (decide_eq_false (by omega)) rfl rfl h
  · intro hn hsa hda hfitS hfitD hle
    obtain ⟨hk, hwhole, -, -⟩ := hmay
    have hempty : selSize f * (k.rd b).toNat = 0 := by rw [hn, Nat.mul_zero]
    change selectIssue s d a b f (fun _ _ => false) (fun _ n => n) (fun _ da sa n => .sort da sa n f) = _
    rw [select_passes (f := f) hk hwhole hl (by omega) rfl hsa hda (by omega) (by omega) (by omega), selectDev, if_pos hn]
    exact congrArg Host.Outcome.next (onGang_eq s k _)
  · have hexec : ∃ badK out op, exec i s = selectIssue s d a b f badK out op := by
      rcases hi with rfl | rfl | rfl
      · exact ⟨fun _ _ => false, fun _ n => n, fun _ da sa n => .sort da sa n f, rfl⟩
      · exact ⟨fun _ _ => false, fun _ n => n, fun _ da sa n => .scan da sa n f, rfl⟩
      · exact ⟨fun k n => decide ((k.rd c).toNat < 1 ∨ n < (k.rd c).toNat), fun k _ => (k.rd c).toNat,
          fun k da sa n => .topk da sa n (k.rd c).toNat f, rfl⟩
    obtain ⟨badK, out, op, hselect⟩ := hexec
    rw [hselect]
    exact ⟨select_part hk, select_unleased hk⟩

end Sys2Proof.Proofs
end

section
/-!
PROOFS. SUPPORT. Parts of memory as units read them: walks, spans and records (07: R201; 08: R257, R258; 09: R264, R277).
-/

open Sys2Proof Sys2Proof.Machine Sys2Proof.Claims

-- The whole text is compiled in one process, which can hold few threads: these proofs are elaborated in order.
set_option Elab.async false

namespace Sys2Proof.Proofs

/-! ## Walks (R257, R258) -/

/-- Two devices whose walks find the same: the same bytes, windows and TLBs. -/
structure SameWalks (d e : Dev) : Prop where
  bytes : SameBytes d e
  fns : e.fns = d.fns
  tlb : e.tlb = d.tlb

namespace SameWalks

theorem refl (d : Dev) : SameWalks d d := ⟨⟨rfl, rfl, rfl, rfl⟩, rfl, rfl⟩

theorem trans {a b c : Dev} (h : SameWalks a b) (g : SameWalks b c) : SameWalks a c :=
  ⟨⟨g.bytes.mem.trans h.bytes.mem, g.bytes.sectors.trans h.bytes.sectors, g.bytes.keys.trans h.bytes.keys,
    g.bytes.keyBase.trans h.bytes.keyBase⟩, g.fns.trans h.fns, g.tlb.trans h.tlb⟩

theorem symm {a b : Dev} (h : SameWalks a b) : SameWalks b a :=
  ⟨⟨h.bytes.mem.symm, h.bytes.sectors.symm, h.bytes.keys.symm, h.bytes.keyBase.symm⟩, h.fns.symm, h.tlb.symm⟩

theorem foldl {α : Type} {f : Dev → α → Dev} (hf : ∀ d x, SameWalks d (f d x)) (l : List α) (d : Dev) : SameWalks d (l.foldl f d) := by
  induction l generalizing d with
  | nil => exact refl d
  | cons x l ih => exact (hf d x).trans (ih _)

theorem evictLine (d : Dev) (l : LlcLine) : SameWalks d (d.evictLine l) := ⟨⟨rfl, rfl, rfl, rfl⟩, rfl, rfl⟩

theorem fillLlc (d : Dev) (slot pa ctx : Nat) : SameWalks d (d.fillLlc slot pa ctx) := by
  simp only [Dev.fillLlc]
  split
  · exact ⟨⟨rfl, rfl, rfl, rfl⟩, rfl, rfl⟩
  · exact ⟨⟨rfl, rfl, rfl, rfl⟩, rfl, rfl⟩

theorem touchLine (d : Dev) (slot pa ctx : Nat) : SameWalks d (d.touchLine slot pa ctx) := by
  rw [Dev.touchLine]
  split
  · exact fillLlc d slot pa ctx
  · split
    · exact ⟨⟨rfl, rfl, rfl, rfl⟩, rfl, rfl⟩
    · exact (evictLine d _).trans (fillLlc _ slot pa ctx)

theorem homeLoad (d : Dev) (ctx pa n c l : Nat) : SameWalks d (d.homeLoad ctx (.glob pa) n c l).1 :=
  (touchLine d ctx pa ctx).trans ⟨⟨rfl, rfl, rfl, rfl⟩, rfl, rfl⟩

section
variable {d e : Dev} (h : SameWalks d e)
include h

theorem readGlob (slot a n : Nat) : e.readGlob slot a n = d.readGlob slot a n := h.bytes.readGlob slot a n

theorem inWindows (fn pa n : Nat) : e.inWindows fn pa n = d.inWindows fn pa n := by
  have hfn : e.fn fn = d.fn fn := by rw [Dev.fn, h.fns, Dev.fn]
  rw [Dev.inWindows, hfn, Dev.inWindows]

theorem tlbHit (k ctx va : Nat) : e.tlbHit k ctx va = d.tlbHit k ctx va := by rw [Dev.tlbHit, h.tlb, Dev.tlbHit]

theorem leafOf (c : Ctx) (va x size : Nat) : e.leafOf c va x size = d.leafOf c va x size := by
  simp only [Dev.leafOf, h.inWindows]

theorem walkFrom (c : Ctx) (va : Nat) (ls : List WalkLevel) (table : Nat) : e.walkFrom c va ls table = d.walkFrom c va ls table := by
  induction ls generalizing table with
  | nil => rfl
  | cons l ls ih => simp only [Dev.walkFrom, h.readGlob, h.leafOf, ih]

theorem walkReads (c : Ctx) (va : Nat) (ls : List WalkLevel) (table : Nat) : e.walkReads c va ls table = d.walkReads c va ls table := by
  induction ls generalizing table with
  | nil => rfl
  | cons l ls ih => simp only [Dev.walkReads, h.readGlob, ih]

theorem walkEntry (c : Ctx) (va size : Nat) (l : Leaf) : e.walkEntry c va size l = d.walkEntry c va size l := by
  simp only [Dev.walkEntry, Dev.contigPages, h.walkReads, h.readGlob, h.inWindows]

theorem translate (core : Nat) (c : Ctx) (va : Nat) : e.translate core c va = d.translate core c va := by
  simp only [Dev.translate, h.tlbHit, Dev.walk, h.walkFrom]

theorem access (core : Nat) (c : Ctx) (va : Nat) (need : Need) : e.access core c va need = d.access core c va need := by
  simp only [Dev.access, h.translate]

theorem unitPlace (core : Nat) (c : Ctx) (va : Nat) (need : Need) : e.unitPlace core c va need = d.unitPlace core c va need := by
  simp only [Dev.unitPlace, h.access]

theorem checkGlobal (core : Nat) (c : Ctx) (va n : Nat) (need : Need) (host : Bool) :
    e.checkGlobal core c va n need host = d.checkGlobal core c va n need host := by
  simp only [Dev.checkGlobal, h.access]

theorem cacheTlb (new : TlbEntry) : SameWalks (d.cacheTlb new) (e.cacheTlb new) :=
  ⟨⟨h.bytes.mem, h.bytes.sectors, h.bytes.keys, h.bytes.keyBase⟩, h.fns, by simp only [Dev.cacheTlb, h.tlb]⟩

/-- The lines that a walk reads. -/
theorem touched (slot ctx : Nat) (l : List Nat) : SameWalks (l.foldl (fun d a => d.touchLine slot a ctx) d) (l.foldl (fun d a => d.touchLine slot a ctx) e) :=
  (foldl (fun d a => touchLine d slot a ctx) l d).symm.trans (h.trans (foldl (fun d a => touchLine d slot a ctx) l e))

theorem walkNow (core : Nat) (c : Ctx) (va : Nat) : SameWalks (d.walkNow core c va) (e.walkNow core c va) := by
  have hread := h.touched c.n c.n (d.walkReads c va walkLevels c.root)
  simp only [Dev.walkNow, h.walkReads, h.walkFrom]
  split
  next => exact hread
  next =>
    rw [h.walkEntry]
    exact (hread.cacheTlb _).cacheTlb _

theorem looked (core : Nat) (c : Ctx) (va : Nat) : SameWalks (d.looked core c va) (e.looked core c va) := by
  simp only [Dev.looked, h.tlbHit]
  split
  · exact h
  · split
    · exact h.cacheTlb _
    · exact h.walkNow core c va

theorem lookedAll (core : Nat) (c : Ctx) (vas : List Nat) : SameWalks (d.lookedAll core c vas) (e.lookedAll core c vas) := by
  induction vas generalizing d e with
  | nil => exact h
  | cons va vas ih => exact ih (h.looked core c va)

end

end SameWalks

/-! ## One event (R230, R267) -/

theorem bytesFrom_append (f : Nat → Byte) (a m n : Nat) : bytesFrom f a m ++ bytesFrom f (a + m) n = bytesFrom f a (m + n) := by
  induction m generalizing a with
  | zero => rw [Nat.zero_add]; rfl
  | succ m ih =>
    rw [Nat.add_right_comm, bytesFrom, bytesFrom, List.cons_append, ← ih (a + 1)]
    congr 3
    omega

/-- Part of what is read is read alike. -/
theorem readGlob_part {d : Dev} {slot pa n : Nat} {bs : List Byte} (h : d.readGlob slot pa n = (bs, true)) {off m : Nat} (hm : off + m ≤ n) (hm0 : 0 < m) :
    d.readGlob slot (pa + off) m = (bytesFrom (d.byteAt slot) (pa + off) m, true) := by
  have hall := congrArg Prod.snd h
  change (sectorsOf pa n).all (d.sectorOk slot) = true at hall
  rw [List.all_eq_true] at hall
  refine Prod.ext rfl (List.all_eq_true.mpr fun i hi => hall i ?_)
  rw [mem_sectorsOf] at hi ⊢
  omega

/-- What reading parts of memory leaves of a device and its walks. -/
structure ReadDev (d e : Dev) : Prop where
  loaded : LoadedDev d e
  walks : SameWalks d e

theorem ReadDev.refl (d : Dev) : ReadDev d d := ⟨rfl, .refl d⟩
theorem ReadDev.trans {a b c : Dev} (h : ReadDev a b) (g : ReadDev b c) : ReadDev a c := ⟨h.loaded.trans g.loaded, h.walks.trans g.walks⟩

theorem homeLoad_reads {d : Dev} {ctx pa n : Nat} {bs : List Byte} (h : d.readGlob ctx pa n = (bs, true)) (c l : Nat) :
    ∃ e t, d.homeLoad ctx (.glob pa) n c l = (e, t, some bs) ∧ ReadDev d e ∧ c ≤ t := by
  refine ⟨_, _, Prod.ext rfl (Prod.ext rfl ?_), ⟨loaded_homeLoad d ctx pa n c l, .homeLoad d ctx pa n c l⟩, le_max_left c _⟩
  rw [homeLoad_glob, h]
  rfl

theorem loadOnce_reads {d : Dev} {ctx pa n : Nat} {bs : List Byte} (h : d.readGlob ctx pa n = (bs, true)) (c l : Nat) :
    ∃ e t, d.loadOnce ctx (.glob pa) n c l = (e, t, some bs) ∧ ReadDev d e ∧ c ≤ t := by
  rw [Dev.loadOnce]
  split
  · exact homeLoad_reads h c l
  next hcross =>
    have hlo : d.readGlob ctx pa (128 - pa % 128) = (bytesFrom (d.byteAt ctx) pa (128 - pa % 128), true) :=
      readGlob_part (off := 0) h (by omega) (by omega)
    have hhi := readGlob_part (off := 128 - pa % 128) (m := n - (128 - pa % 128)) h (by omega) (by omega)
    obtain ⟨d1, t1, h1, r1, le1⟩ := homeLoad_reads hhi c l
    obtain ⟨d2, t2, h2, r2, le2⟩ := homeLoad_reads (d := d1) ((r1.walks.readGlob _ _ _).trans hlo) t1 l
    obtain ⟨d3, t3, h3, r3, le3⟩ := homeLoad_reads (d := d2) (((r1.trans r2).walks.readGlob _ _ _).trans hhi) t2 l
    have hbs : bytesFrom (d.byteAt ctx) pa (128 - pa % 128) ++ bytesFrom (d.byteAt ctx) (pa + (128 - pa % 128)) (n - (128 - pa % 128)) = bs := by
      rw [bytesFrom_append, show 128 - pa % 128 + (n - (128 - pa % 128)) = n by omega]
      exact congrArg Prod.fst h
    refine ⟨d3, t3, ?_, (r1.trans r2).trans r3, by omega⟩
    simp only [h1, h2, h3, hbs]

/-! ## Spans (R277) -/

/-- Every span lies in this package's own memory, may be read, passes its checks, and holds these bytes. -/
def SpansAt (d : Dev) (core : Nat) (x : Ctx) (piece : Span → List Byte) (l : List Span) : Prop :=
  ∀ sp ∈ l, ∃ pa, d.unitPlace core x sp.va needR = .ok (.glob pa) ∧ d.readGlob x.n pa sp.n = (piece sp, true)

theorem SpansAt.of_walks {d e : Dev} {core : Nat} {x : Ctx} {piece : Span → List Byte} {l : List Span} (h : SpansAt d core x piece l)
    (hw : SameWalks d e) : SpansAt e core x piece l := fun sp hsp => by
  obtain ⟨pa, hplace, hread⟩ := h sp hsp
  exact ⟨pa, (hw.unitPlace _ _ _ _).trans hplace, (hw.readGlob _ _ _).trans hread⟩

/-- No part of such a range is asked of another package. -/
theorem askSpans_here {core : Nat} {x : Ctx} {need : Need} {l : List Span} {d : Dev}
    (h : ∀ sp ∈ l, ∃ pa, d.unitPlace core x sp.va need = .ok (.glob pa)) (owner clock base : Nat) (ask : Nat → Span → RemoteAsk) :
    d.askSpans core x owner clock base need ask l = (d, true) := by
  have hstep : ∀ (l : List Span), (∀ sp ∈ l, ∃ pa, d.unitPlace core x sp.va need = .ok (.glob pa)) →
      l.foldl (fun (q : Dev × Bool) sp => match q.1.unitPlace core x sp.va need with
        | .ok (.remote pkg pa) =>
          let d := q.1.askFor owner (base + sp.off) x.n pkg pa clock (ask pa sp)
          (d, q.2 && (d.reply? owner (base + sp.off)).isSome)
        | _ => q) (d, true) = (d, true) := fun l => by
    induction l with
    | nil => exact fun _ => rfl
    | cons sp l ih =>
      intro h
      obtain ⟨pa, hpa⟩ := h sp List.mem_cons_self
      simp only [List.foldl_cons, hpa]
      exact ih fun sp hsp => h sp (List.mem_cons_of_mem _ hsp)
  exact hstep l h

theorem readSpans_reads {core : Nat} {x : Ctx} {piece : Span → List Byte} {l : List Span} {d : Dev} (h : SpansAt d core x piece l)
    (owner base lease t : Nat) :
    ∃ e u, d.readSpans core x owner base lease t l = (e, .ok u (l.flatMap piece)) ∧ ReadDev d e ∧ t ≤ u := by
  induction l generalizing d t with
  | nil => exact ⟨d, t, rfl, .refl d, le_rfl⟩
  | cons sp l ih =>
    obtain ⟨pa, hplace, hread⟩ := h sp List.mem_cons_self
    obtain ⟨e, ti, hload, hr, hle⟩ := loadOnce_reads hread t lease
    obtain ⟨f, u, hrest, hr', hle'⟩ := ih (d := e) (SpansAt.of_walks (fun sp hsp => h sp (List.mem_cons_of_mem _ hsp)) hr.walks) (max t ti)
    refine ⟨f, u, ?_, hr.trans hr', by omega⟩
    rw [Dev.readSpans]
    simp only [hplace, hload, hrest]
    rfl

/-- A range that lies here is read, and its pages have been looked up. -/
theorem reachList_reads {core : Nat} {x : Ctx} {piece : Span → List Byte} {l : List Span} {d : Dev} (h : SpansAt d core x piece l)
    (owner base clock lease : Nat) :
    ∃ e u, d.reachList core x owner base clock lease l = (e, .ok u (l.flatMap piece)) ∧ LoadedDev d e ∧
      SameWalks (d.lookedAll core x (l.map (·.va))) e ∧ clock ≤ u := by
  obtain ⟨e, u, hread, hr, hle⟩ := readSpans_reads h owner base lease clock
  have hhere : ∀ sp ∈ l, ∃ pa, d.unitPlace core x sp.va needR = .ok (.glob pa) := fun sp hsp => by
    obtain ⟨pa, hpa, -⟩ := h sp hsp
    exact ⟨pa, hpa⟩
  refine ⟨e.lookedAll core x (l.map (·.va)), u, ?_, hr.loaded.trans (.of_cachedDev (.lookedAll _ _ _ _)), hr.walks.lookedAll core x _, hle⟩
  rw [Dev.reachList, askSpans_here hhere]
  simp only [if_true, hread, Dev.lookedSpans]

/-- The spans of a range follow one another. -/
theorem spansFrom_at {unit k off va n : Nat} {sp : Span} (h : sp ∈ spansFrom unit k off va n) (hunit : 0 < unit) :
    ∃ i, sp.off = off + i ∧ sp.va = va + i ∧ i + sp.n ≤ n ∧ 0 < sp.n := by
  induction k generalizing off va n with
  | zero => exact absurd h (by simp [spansFrom])
  | succ k ih =>
    rw [spansFrom] at h
    split at h
    · exact absurd h (by simp)
    next hn =>
      have hlt : va % unit < unit := Nat.mod_lt _ hunit
      rcases List.mem_cons.mp h with rfl | h
      · exact ⟨0, rfl, rfl, by simp only; omega, by simp only; omega⟩
      · obtain ⟨i, hoff, hva, hle, hpos⟩ := ih h
        exact ⟨min n (unit - va % unit) + i, by omega, by omega, by omega, hpos⟩

/-- What spans hold, put together. -/
theorem flatMap_spansFrom (f : Nat → Byte) {unit k off va n pa : Nat} (hunit : 0 < unit) (hk : n ≤ k) :
    (spansFrom unit k off va n).flatMap (fun sp => bytesFrom f (pa + sp.off) sp.n) = bytesFrom f (pa + off) n := by
  induction k generalizing off va n with
  | zero =>
    rw [Nat.le_zero.mp hk]
    rfl
  | succ k ih =>
    rw [spansFrom]
    split
    next hn => rw [hn]; rfl
    next hn =>
      have hlt : va % unit < unit := Nat.mod_lt _ hunit
      rw [List.flatMap_cons, ih (by omega), show pa + (off + min n (unit - va % unit)) = pa + off + min n (unit - va % unit) by omega,
        bytesFrom_append, show min n (unit - va % unit) + (n - min n (unit - va % unit)) = n by omega]

/-- Bytes that lie together here are read as one range. -/
theorem reachFrom_reads {d : Dev} {core : Nat} {x : Ctx} {va n pa unit : Nat} {bytes : List Byte} (hunit : 0 < unit)
    (hplace : ∀ i < n, d.unitPlace core x (va + i) needR = .ok (.glob (pa + i))) (hread : d.readGlob x.n pa n = (bytes, true))
    (owner base clock lease : Nat) :
    ∃ e u, d.reachFrom core x owner base unit va n clock lease = (e, .ok u bytes) ∧ LoadedDev d e ∧
      SameWalks (d.lookedAll core x ((spans unit va n).map (·.va))) e ∧ clock ≤ u := by
  have hat : SpansAt d core x (fun sp => bytesFrom (d.byteAt x.n) (pa + sp.off) sp.n) (spans unit va n) := fun sp hsp => by
    obtain ⟨i, hoff, hva, hle, hpos⟩ := spansFrom_at hsp hunit
    rw [Nat.zero_add] at hoff
    refine ⟨pa + sp.off, ?_, readGlob_part hread (by omega) hpos⟩
    rw [hva, hoff]
    exact hplace i (by omega)
  obtain ⟨e, u, heq, hloaded, hwalks, hle⟩ := reachList_reads hat owner base clock lease
  refine ⟨e, u, ?_, hloaded, hwalks, hle⟩
  rw [Dev.reachFrom, heq, spans, flatMap_spansFrom _ hunit le_rfl]
  exact congrArg (fun b => (e, Reach.ok u b)) (congrArg Prod.fst hread)

/-- A range that one unit holds is one span. -/
theorem spans_one {unit va n : Nat} (hn : 0 < n) (h : va % unit + n ≤ unit) : spans unit va n = [⟨0, va, n⟩] := by
  obtain ⟨m, rfl⟩ : ∃ m, n = m + 1 := ⟨n - 1, by omega⟩
  have hrest : spansFrom unit m (0 + (m + 1)) (va + (m + 1)) (m + 1 - (m + 1)) = [] := by
    rw [Nat.sub_self]
    cases m with
    | zero => rfl
    | succ m => rw [spansFrom, if_pos rfl]
  rw [spans, spansFrom, if_neg (by omega)]
  simp only [Nat.min_eq_left (show m + 1 ≤ unit - va % unit by omega), hrest]

end Sys2Proof.Proofs
end

section
/-!
PROOFS. Collectives and triggered operations at issue (07: R224, R225, R227): O37.
-/

open Sys2Proof Sys2Proof.Machine Sys2Proof.Claims

-- The whole text is compiled in one process, which can hold few threads: these proofs are elaborated in order.
set_option Elab.async false

namespace Sys2Proof.Proofs

/-! ## Records at issue (R201) -/

theorem loadedDev_modWave {d e : Dev} (h : LoadedDev d e) (id : Nat) (f : Wave → Wave) : LoadedDev (d.modWave id f) (e.modWave id f) := by
  rw [h]
  rfl

theorem loadedDev_waves {d e : Dev} (h : LoadedDev d e) : e.waves = d.waves := by rw [h]

theorem sameWalks_modWave {d e : Dev} (h : SameWalks d e) (id : Nat) (f : Wave → Wave) : SameWalks d (e.modWave id f) :=
  h.trans ⟨⟨rfl, rfl, rfl, rfl⟩, rfl, rfl⟩

theorem sameWalks_unlatched (s : State) : SameWalks s.dev (unlatched s) := ⟨⟨rfl, rfl, rfl, rfl⟩, rfl, rfl⟩

/-- The wave's clock as it stands is that of the issue. -/
theorem ltsOf_issuer {s : State} {k : Issue} (hk : s.dev.issuer? = some k) : (unlatched s).ltsOf k = k.wave.lts := by
  obtain ⟨-, hw, -, -⟩ := issuer?_eq_some hk
  have hw' : (unlatched s).wave? k.wave.id = some k.wave := hw
  rw [Dev.ltsOf, hw']
  rfl

/-- A record that lies here is read at issue: the wave adopts the read's time, and its pages are looked up. -/
theorem withRecord_reads {s : State} {k : Issue} {va n unit : Nat} {bytes : List Byte} (hk : s.dev.issuer? = some k) (hunit : 0 < unit)
    (h : BytesAt s k va n bytes) (f : Dev → List Byte → Dev) :
    ∃ u e, (unlatched s).withRecord k unit va n f = f e bytes ∧ LoadedDev ((unlatched s).modWave k.wave.id (·.adopt u)) e ∧
      SameWalks (lookedUp s k ((spans unit va n).map (·.va))).dev e ∧ k.wave.lts ≤ u := by
  obtain ⟨pa, hplace, hread⟩ := h
  obtain ⟨e, u, heq, hloaded, hwalks, hle⟩ := reachFrom_reads (d := unlatched s) (core := k.core) (x := k.ctx) hunit
    (fun i hi => ((sameWalks_unlatched s).unitPlace _ _ _ _).trans (hplace i hi)) (((sameWalks_unlatched s).readGlob _ _ _).trans hread)
    k.wave.id va ((unlatched s).ltsOf k) 1
  rw [ltsOf_issuer hk] at hle
  refine ⟨u, e.modWave k.wave.id (·.adopt u), ?_, loadedDev_modWave hloaded _ _, ?_, hle⟩
  · rw [Dev.withRecord, heq]
    rfl
  · exact sameWalks_modWave (((sameWalks_unlatched s).lookedAll k.core k.ctx _).trans hwalks) _ _

/-- Words that the device will write and that may be written let the instruction go on. -/
theorem checked_passes {d : Dev} {k : Issue} {need : Need} {l : List (Nat × Nat)}
    (h : ∀ x ∈ l, ∃ p, d.checkGlobal k.core k.ctx x.1 x.2 need false = .ok p) (f : Dev → Dev) :
    d.checked k need l f = f (d.lookedAll k.core k.ctx (l.map (·.1))) := by
  have hnone : (l.findSome? fun x => d.wordCheck k x.1 x.2 need) = none := by
    rw [List.findSome?_eq_none_iff]
    intro x hx
    obtain ⟨p, hp⟩ := h x hx
    rw [Dev.wordCheck, hp]
  rw [Dev.checked, hnone]

theorem wordOk_target {s : State} {k : Issue} {va : Nat} (h : WordOk s k va) :
    ∀ x ∈ target va 8, ∃ p, s.dev.checkGlobal k.core k.ctx x.1 x.2 needW false = .ok p := by
  intro x hx
  rw [target] at hx
  split at hx
  · exact absurd hx (by simp)
  next hne =>
    rw [List.mem_singleton] at hx
    subst hx
    exact h.resolve_left hne

/-- What the wave has passed and adopted. -/
theorem hasRead_waves {s : State} {k : Issue} (u : Nat) :
    (((unlatched s).modWave k.wave.id (·.adopt u)).advance k 12).waves = (hasRead s k u).dev.waves := by
  simp only [Dev.advance, Dev.onGang, Dev.onWave, Dev.modWave]
  rw [modIf_modIf _ _ _ (by intro x; rfl)]
  simp only [hasRead, waveStep, modIf, beq_iff_eq]
  rfl

/-- The clock that the wave has after a read. -/
theorem ltsOf_adopted {s : State} {k : Issue} {u : Nat} (hk : s.dev.issuer? = some k) (hu : k.wave.lts ≤ u) {e : Dev}
    (he : e.waves = ((unlatched s).modWave k.wave.id (·.adopt u)).waves) : e.ltsOf k = u := by
  obtain ⟨-, hw, -, -⟩ := issuer?_eq_some hk
  have hw' : ((unlatched s).modWave k.wave.id (·.adopt u)).wave? k.wave.id = some (k.wave.adopt u) :=
    wave?_modWave_self (f := (·.adopt u)) (fun _ => rfl) hw
  have hfind : e.wave? k.wave.id = some (k.wave.adopt u) := by
    rw [Dev.wave?, he]
    exact hw'
  rw [Dev.ltsOf, hfind]
  exact max_eq_right hu

/-! ## Descriptors (R225) -/

section
variable {s : State} {k : Issue} {va : Nat} {bytes : List Byte}

/-- The words that a descriptor names. -/
def descWords (bytes : List Byte) : List (Nat × Nat) := target (Desc.parse bytes).done 8 ++ target (Desc.parse bytes).status 8

/-- What becomes of a descriptor whose words may be written: its queue must exist, and it must be valid (R224, R225). -/
def queueThen (k : Issue) (own : Option Nat) (f : Dev → Desc → Nat → Dev) (bytes : List Byte) (d : Dev) : Dev :=
  match d.queue? k.ctx.n (own.getD (Desc.parse bytes).queue) with
  | none => if own.isNone && decide (15 < own.getD (Desc.parse bytes).queue) then d.trap k cObject else d.trap k cRights
  | some x =>
    if descOk bytes x.comm.size own.isNone then f d (Desc.parse bytes) (own.getD (Desc.parse bytes).queue) else d.trap k cObject

theorem withDesc_eq (d : Dev) (k : Issue) (va : Nat) (own : Option Nat) (f : Dev → Desc → Nat → Dev) :
    d.withDesc k va own f = d.withRecord k 64 va 64 fun d bs => d.checked k needW (descWords bs) (queueThen k own f bs) := rfl

theorem queueThen_accepts {d : Dev} {own : Option Nat} {f : Dev → Desc → Nat → Dev} {x : CollQueue}
    (hx : d.queue? k.ctx.n (own.getD (Desc.parse bytes).queue) = some x) (hdesc : descOk bytes x.comm.size own.isNone = true) :
    queueThen k own f bytes d = f d (Desc.parse bytes) (own.getD (Desc.parse bytes).queue) := by
  rw [queueThen, hx]
  exact if_pos hdesc

/-- A descriptor has been read, and the words that it names may be written. -/
theorem withDesc_reads (hk : s.dev.issuer? = some k) (h : RecordAt s k va 64 bytes)
    (hdone : WordOk (lookedUp s k [va]) k (Desc.parse bytes).done) (hstatus : WordOk (lookedUp s k [va]) k (Desc.parse bytes).status)
    (own : Option Nat) (f : Dev → Desc → Nat → Dev) :
    ∃ u e, LoadedDev ((unlatched s).modWave k.wave.id (·.adopt u)) e ∧
      SameWalks (lookedUp (lookedUp s k [va]) k ((descWords bytes).map (·.1))).dev e ∧
      k.wave.lts ≤ u ∧ (unlatched s).withDesc k va own f = queueThen k own f bytes e := by
  obtain ⟨halign, hbytes⟩ := h
  obtain ⟨u, e, heq, hloaded, hwalks, hle⟩ := withRecord_reads hk (by decide) hbytes (unit := 64) fun d bs =>
    d.checked k needW (descWords bs) (queueThen k own f bs)
  rw [spans_one (by decide) (by omega)] at hwalks
  have hok : ∀ x ∈ descWords bytes, ∃ p, e.checkGlobal k.core k.ctx x.1 x.2 needW false = .ok p := fun x hx => by
    rw [hwalks.checkGlobal]
    exact (List.mem_append.mp hx).elim (wordOk_target hdone x) (wordOk_target hstatus x)
  have hlooked : SameWalks (lookedUp (lookedUp s k [va]) k ((descWords bytes).map (·.1))).dev
      (e.lookedAll k.core k.ctx ((descWords bytes).map (·.1))) := hwalks.lookedAll k.core k.ctx _
  refine ⟨u, _, hloaded.trans (.of_cachedDev (.lookedAll _ _ _ _)), hlooked, hle, ?_⟩
  rw [withDesc_eq, heq, checked_passes hok]

/-- A collective stands last in its queue and among the jobs. -/
theorem postColl_posts {d : Dev} {ctx q : Nat} {x : CollQueue} (hx : d.queue? ctx q = some x) (c : Desc) (time wave block : Nat) (launch : Option Nat) :
    ∃ y j, Posted y x c time launch ∧ (d.postColl ctx q c time wave block launch).colls = d.colls ++ [y] ∧
      (d.postColl ctx q c time wave block launch).jobs = d.jobs ++ [j] ∧ j.id = y.id ∧ j.kind = .coll y.id ∧ j.clock = time ∧ j.entered = false ∧
      (d.postColl ctx q c time wave block launch).waves = d.waves ∧ (d.postColl ctx q c time wave block launch).mem = d.mem ∧
      (d.postColl ctx q c time wave block launch).locmem = d.locmem ∧ (d.postColl ctx q c time wave block launch).triggers = d.triggers := by
  have hfind : d.queues.find? (fun x => x.ctx == ctx && x.q == q) = some x := hx
  simp only [Dev.postColl, hfind]
  exact ⟨_, _, ⟨rfl, rfl, rfl, rfl, rfl, rfl, rfl, rfl, rfl, rfl, rfl, rfl, rfl⟩, rfl, rfl, rfl, rfl, rfl, rfl, rfl, rfl, rfl, rfl⟩

theorem mod64_of_record (h : RecordAt s k va 64 bytes) : va % 64 = 0 := h.1

/-- What `cpost` leaves once its descriptor has been accepted. -/
theorem posted_fields {e z : Dev} {q : Nat} {x : CollQueue} {c : Desc} {u t : Nat} (hz : LoadedDev e z) (he : LoadedDev ((unlatched s).modWave k.wave.id (·.adopt u)) e)
    (hx : s.dev.queue? k.ctx.n q = some x) :
    ∃ y j, Posted y x c t none ∧
      let f := ((z.endRecords k).postColl k.ctx.n q c t k.wave.id k.block.id none).advance k 12
      f.waves = (hasRead s k u).dev.waves ∧ f.colls = s.dev.colls ++ [y] ∧ f.jobs = s.dev.jobs ++ [j] ∧
        j.id = y.id ∧ j.kind = .coll y.id ∧ j.clock = t ∧ j.entered = false ∧ f.mem = s.dev.mem ∧ f.locmem = s.dev.locmem ∧ f.triggers = s.dev.triggers := by
  have hall := he.trans hz
  have hqueue : (z.endRecords k).queue? k.ctx.n q = some x := by
    rw [hall]
    exact hx
  obtain ⟨y, j, hposted, hcolls, hjobs, hid, hkind, hclock, hentered, hwaves, hmem, hloc, htriggers⟩ :=
    postColl_posts hqueue c t k.wave.id k.block.id none
  refine ⟨y, j, hposted, ?_, ?_, ?_, hid, hkind, hclock, hentered, ?_, ?_, ?_⟩
  · rw [← hasRead_waves]
    refine advance_waves ?_ k 12
    rw [hwaves]
    change z.waves = _
    exact loadedDev_waves hall
  · refine hcolls.trans ?_
    rw [hall]
    rfl
  · refine hjobs.trans ?_
    rw [hall]
    rfl
  · refine hmem.trans ?_
    rw [hall]
    rfl
  · refine hloc.trans ?_
    rw [hall]
    rfl
  · refine htriggers.trans ?_
    rw [hall]
    rfl

end

/-! ## `cpost` (R225) -/

section
variable {s : State} {k : Issue} {a : SReg} {q : BitVec 4} {bytes : List Byte}

/-- What `cpost` does with an accepted descriptor. -/
def cpostDev (k : Issue) (d : Dev) (c : Desc) (q : Nat) : Dev :=
  if 64 ≤ d.queueLength k.ctx.n q || d.checkerFull k.ctx.n then d.stall k (.full (.posts q))
  else ((d.endRecords k).postColl k.ctx.n q c (d.ltsOf k) k.wave.id k.block.id none).advance k 12

theorem cpost_reads (hmay : MayIssueJob s k) (h : RecordAt s k (k.rd a).toNat 64 bytes) :
    exec (.cpost a q) s = .next { s with dev := (unlatched s).withDesc k (k.rd a).toNat (some q.toNat) (cpostDev k) } := by
  obtain ⟨hk, hwhole, -, hnow⟩ := hmay
  have hnow' : (unlatched s).settled k = true := hnow
  change execCpost a q s = _
  rw [execCpost, issue_next s k _ hk]
  refine congrArg (fun x => Host.Outcome.next { s with dev := x }) ?_
  simp only [whole_true hwhole, mod64_of_record h, Bool.not_true, Bool.false_eq_true, if_false, ne_eq, not_true_eq_false]
  exact whenSettled_of_settled hnow'

theorem cpost_posts {x : CollQueue} (hmay : MayIssueJob s k) (h : RecordAt s k (k.rd a).toNat 64 bytes)
    (hx : s.dev.queue? k.ctx.n q.toNat = some x) (hdesc : descOk bytes x.comm.size false = true)
    (hdone : WordOk (lookedUp s k [(k.rd a).toNat]) k (Desc.parse bytes).done)
    (hstatus : WordOk (lookedUp s k [(k.rd a).toNat]) k (Desc.parse bytes).status) (hlen : s.dev.queueLength k.ctx.n q.toNat < 64) :
    ∃ t time c j, exec (.cpost a q) s = .next t ∧ k.wave.lts ≤ time ∧ t.dev.waves = (hasRead s k time).dev.waves ∧
      Posted c x (Desc.parse bytes) time none ∧ t.dev.colls = s.dev.colls ++ [c] ∧ t.dev.jobs = s.dev.jobs ++ [j] ∧
      j.id = c.id ∧ j.kind = .coll c.id ∧ j.clock = time ∧ j.entered = false ∧ t.dev.mem = s.dev.mem ∧ t.dev.locmem = s.dev.locmem := by
  obtain ⟨hk, hwhole, hroom, hnow⟩ := id hmay
  obtain ⟨u, e, hloaded, -, hle, heq⟩ := withDesc_reads hk h hdone hstatus (some q.toNat) (cpostDev k)
  have hclock : e.ltsOf k = u := ltsOf_adopted hk hle (loadedDev_waves hloaded)
  have hlen' : e.queueLength k.ctx.n q.toNat < 64 := by
    rw [hloaded]
    exact hlen
  have hfull : e.checkerFull k.ctx.n = false := by
    rw [hloaded]
    exact decide_eq_false (not_le.mpr hroom)
  obtain ⟨y, j, hposted, hwaves, hcolls, hjobs, hid, hkind, hjclock, hentered, hmem, hloc, -⟩ :=
    posted_fields (c := Desc.parse bytes) (t := u) (show LoadedDev e e from rfl) hloaded hx
  have hqueue : e.queue? k.ctx.n q.toNat = some x := by
    rw [hloaded]
    exact hx
  have hdev : (unlatched s).withDesc k (k.rd a).toNat (some q.toNat) (cpostDev k) =
      ((e.endRecords k).postColl k.ctx.n q.toNat (Desc.parse bytes) u k.wave.id k.block.id none).advance k 12 := by
    rw [heq, queueThen_accepts (own := some q.toNat) hqueue hdesc, Option.getD_some, cpostDev, hfull, if_neg (by simp [hlen']), hclock]
  exact ⟨_, u, y, j, (cpost_reads hmay h).trans (by rw [hdev]), hle, hwaves, hposted, hcolls, hjobs, hid, hkind, hjclock, hentered, hmem, hloc⟩

/-! ## A precise cause in a wave with a handler (R304, R306) -/

/-- A wave enters its handler: waves, what its instruction has asked for, and register claims change. -/
def EnteredDev (d e : Dev) : Prop := e = { d with waves := e.waves, inbox := e.inbox, remotes := e.remotes, cores := e.cores }

theorem EnteredDev.trans {a b c : Dev} (h : EnteredDev a b) (g : EnteredDev b c) : EnteredDev a c := by
  rw [EnteredDev] at *
  rw [g, h]

theorem enteredDev_enterHandler (d : Dev) (id : Nat) : EnteredDev d (d.enterHandler id) := by
  have hasks : ∀ e : Dev, EnteredDev e (e.dropAsks id) := fun e => by
    rw [Dev.dropAsks]
    split
    · rfl
    · rfl
  rw [Dev.enterHandler]
  split
  · rfl
  · split
    · rfl
    · have henter : EnteredDev d ((d.modWave id Wave.enter).dropAsks id) := EnteredDev.trans (b := d.modWave id Wave.enter) rfl (hasks _)
      dsimp only
      split
      · exact henter
      · split
        · exact henter.trans rfl
        · exact henter

theorem enterHandler_wave {d : Dev} {id : Nat} {w : Wave} (hw : d.wave? id = some w) :
    ∃ v, (d.enterHandler id).wave? id = some v ∧ v.cause = w.cause := by
  have hasks : ∀ e : Dev, (e.dropAsks id).waves = e.waves := fun e => by
    rw [Dev.dropAsks]
    split
    · rfl
    · rfl
  have hentered : ((d.modWave id Wave.enter).dropAsks id).wave? id = some w.enter := by
    rw [Dev.wave?, hasks]
    exact wave?_modWave_self (f := Wave.enter) (fun _ => rfl) hw
  rw [Dev.enterHandler, hw]
  dsimp only
  split
  · exact ⟨_, wave?_modWave_self (f := fun w => { w with entry := true }) (fun _ => rfl) hw, rfl⟩
  · split
    · exact ⟨_, hentered, rfl⟩
    · split
      · exact ⟨_, hentered, rfl⟩
      · exact ⟨_, hentered, rfl⟩

/-- A precise cause in a wave that has a handler and is not in it. -/
theorem trapWave_takes {d : Dev} {id c : Nat} {w : Wave} (hw : d.wave? id = some w) (htvec : w.tvec ≠ 0) (hin : w.inHandler = false) (hc : c < 64) :
    EnteredDev d (d.trapWave id c) ∧ ∃ v, (d.trapWave id c).wave? id = some v ∧ v.cause.getLsbD c = true := by
  have hset : (d.modWave id (·.setCause c)).wave? id = some (w.setCause c) := wave?_modWave_self (fun _ => rfl) hw
  have hguard : (w.inHandler || w.tvec == 0) = false := by
    rw [hin, Bool.false_or, beq_eq_false_iff_ne]
    exact htvec
  rw [Dev.trapWave, hw]
  simp only [hguard, Bool.false_eq_true, if_false]
  refine ⟨EnteredDev.trans (b := d.modWave id (·.setCause c)) rfl (enteredDev_enterHandler _ id), ?_⟩
  obtain ⟨v, hv, hcause⟩ := enterHandler_wave hset
  refine ⟨v, hv, ?_⟩
  rw [hcause]
  simp [Wave.setCause, hc]

theorem cpost_unqueued (hmay : MayIssueJob s k) (h : RecordAt s k (k.rd a).toNat 64 bytes)
    (hdone : WordOk (lookedUp s k [(k.rd a).toNat]) k (Desc.parse bytes).done)
    (hstatus : WordOk (lookedUp s k [(k.rd a).toNat]) k (Desc.parse bytes).status) (hx : s.dev.queue? k.ctx.n q.toNat = none)
    (htvec : k.wave.tvec ≠ 0) (hin : k.wave.inHandler = false) :
    ∃ t, exec (.cpost a q) s = .next t ∧ Told t k.wave.id cRights ∧ t.dev.colls = s.dev.colls ∧ t.dev.mem = s.dev.mem := by
  obtain ⟨hk, -, -, -⟩ := id hmay
  obtain ⟨-, hw, -, -⟩ := issuer?_eq_some hk
  obtain ⟨u, e, hloaded, -, hle, heq⟩ := withDesc_reads hk h hdone hstatus (some q.toNat) (cpostDev k)
  have hwave : e.wave? k.wave.id = some (k.wave.adopt u) := by
    rw [hloaded]
    exact wave?_modWave_self (d := unlatched s) (f := (·.adopt u)) (fun _ => rfl) hw
  have hdev : (unlatched s).withDesc k (k.rd a).toNat (some q.toNat) (cpostDev k) = e.trap k cRights := by
    have hqueue : e.queue? k.ctx.n q.toNat = none := by
      rw [hloaded]
      exact hx
    rw [heq, queueThen]
    simp only [Option.getD_some, hqueue]
    rfl
  obtain ⟨hentered, v, hv, hbit⟩ := trapWave_takes (c := cRights) hwave htvec hin (by decide)
  refine ⟨{ s with dev := e.trap k cRights }, (cpost_reads hmay h).trans (by rw [hdev]), ⟨v, hv, hbit⟩, ?_, ?_⟩
  · change (e.trapWave k.wave.id cRights).colls = _
    rw [hentered, hloaded]
    rfl
  · change (e.trapWave k.wave.id cRights).mem = _
    rw [hentered, hloaded]
    rfl

end

/-! ## `ctrig` (R227) -/

theorem leNat_take (n : Nat) (bs : List Byte) : leNat (bs.take n) = leNat bs % 256 ^ n := by
  induction n generalizing bs with
  | zero => rw [List.take_zero, Nat.pow_zero, Nat.mod_one]; rfl
  | succ n ih =>
    cases bs with
    | nil => simp [leNat]
    | cons b bs =>
      rw [List.take_succ_cons, leNat, leNat, ih, Nat.pow_succ]
      have hb := b.isLt
      have hmod : (b.toNat + 256 * leNat bs) % (256 ^ n * 256) = b.toNat + 256 * (leNat bs % 256 ^ n) := by
        rw [Nat.mul_comm (256 ^ n), Nat.mod_mul]
        congr 1
        · omega
        · congr 2
          omega
      exact hmod.symm

theorem endRecords_waves {d z : Dev} (h : LoadedDev d z) (k : Issue) : (z.endRecords k).waves = d.waves :=
  show z.waves = d.waves from loadedDev_waves h

section
variable {s : State} {k : Issue} {a b c : SReg} {bytes word : List Byte} {x : CollQueue} {pa : Nat}

/-- The counter of a trigger is compared with its threshold (R227). -/
def compared (k : Issue) (pa thresh : Nat) (desc : Desc) (q : Nat) (d : Dev) : Dev :=
  let (d, t, v) := d.homeLoad k.ctx.n (.glob pa) 8 (d.ltsOf k) 1
  if thresh ≤ (v.map fun bs => field bs 0 6).getD 0 ∧ v.isSome then
    if 64 ≤ d.queueLength k.ctx.n q || d.checkerFull k.ctx.n then d.stall k (.full (.posts q))
    else (d.postColl k.ctx.n q desc t k.wave.id k.block.id none).advance k 12
  else
    let (id, d) := d.fresh
    let x : Trigger := ⟨id, k.ctx.n, k.block.launch, d.inJob k.block, pa, thresh, desc, d.ltsOf k⟩
    ({ d with triggers := d.triggers ++ [x] } : Dev).advance k 12

/-- The triggered operation that a comparison below the threshold keeps. -/
def keptTrigger (k : Issue) (pa thresh : Nat) (desc : Desc) (d : Dev) : Trigger :=
  ⟨d.nextId, k.ctx.n, k.block.launch, Dev.inJob { d with nextId := d.nextId + 1 } k.block, pa, thresh, desc,
    Dev.ltsOf { d with nextId := d.nextId + 1 } k⟩

theorem compared_below {d e : Dev} {thresh t q : Nat} {desc : Desc}
    (hload : d.homeLoad k.ctx.n (.glob pa) 8 (d.ltsOf k) 1 = (e, t, some word)) (h : leNat word % 2 ^ 48 < thresh) :
    compared k pa thresh desc q d =
      ({ e with nextId := e.nextId + 1, triggers := e.triggers ++ [keptTrigger k pa thresh desc e] } : Dev).advance k 12 := by
  have hwaits : ¬ (thresh ≤ ((some word).map fun bs => field bs 0 6).getD 0 ∧ (some word).isSome = true) := by
    rintro ⟨hle, -⟩
    change _ ≤ leNat (word.take 6) at hle
    rw [leNat_take] at hle
    omega
  simp only [compared, hload, if_neg hwaits]
  rfl

/-- What `ctrig` does with an accepted descriptor. -/
def ctrigDev (b c : SReg) (k : Issue) (d : Dev) (desc : Desc) (q : Nat) : Dev :=
  let place := d.checkGlobal k.core k.ctx (k.rd b).toNat 8 needR false
  let d := d.looked k.core k.ctx (k.rd b).toNat
  match place with
  | .error e => d.trapMem k e (k.rd b) k.lowMask
  | .ok (.glob pa) =>
    if 64 ≤ (d.triggers.filter (·.ctx == k.ctx.n)).length then d.stall k (.full .triggers)
    else compared k pa ((k.rd c).toNat % 2 ^ 48) desc q (d.endRecords k)
  | .ok _ => d.trapMem k cRights (k.rd b) k.lowMask

theorem ctrig_reads (hmay : MayIssueJob s k) (h : RecordAt s k (k.rd a).toNat 64 bytes) :
    exec (.ctrig a b c) s = .next { s with dev := (unlatched s).withDesc k (k.rd a).toNat none (ctrigDev b c k) } := by
  obtain ⟨hk, hwhole, -, hnow⟩ := hmay
  have hnow' : (unlatched s).settled k = true := hnow
  change execCtrig a b c s = _
  rw [execCtrig, issue_next s k _ hk]
  refine congrArg (fun x => Host.Outcome.next { s with dev := x }) ?_
  simp only [whole_true hwhole, mod64_of_record h, Bool.not_true, Bool.false_eq_true, if_false, ne_eq, not_true_eq_false]
  exact whenSettled_of_settled hnow'

/-- The state before the comparison: the descriptor read, the counter's place looked up. -/
theorem ctrig_compares (hmay : MayIssueJob s k) (h : RecordAt s k (k.rd a).toNat 64 bytes)
    (hx : s.dev.queue? k.ctx.n (Desc.parse bytes).queue = some x) (hdesc : descOk bytes x.comm.size true = true)
    (hdone : WordOk (lookedUp s k [(k.rd a).toNat]) k (Desc.parse bytes).done)
    (hstatus : WordOk (lookedUp s k [(k.rd a).toNat]) k (Desc.parse bytes).status)
    (hplace : (lookedUp (lookedUp s k [(k.rd a).toNat]) k ((descWords bytes).map (·.1))).dev.checkGlobal k.core k.ctx (k.rd b).toNat 8 needR false =
      .ok (.glob pa)) (hread : s.dev.readGlob k.ctx.n pa 8 = (word, true))
    (htriggers : (s.dev.triggers.filter (·.ctx == k.ctx.n)).length < 64) :
    ∃ u t z e, exec (.ctrig a b c) s = .next { s with
        dev := compared k pa ((k.rd c).toNat % 2 ^ 48) (Desc.parse bytes) (Desc.parse bytes).queue (z.endRecords k) } ∧
      LoadedDev ((unlatched s).modWave k.wave.id (·.adopt u)) z ∧ LoadedDev (z.endRecords k) e ∧ k.wave.lts ≤ u ∧ u ≤ t ∧
      (z.endRecords k).homeLoad k.ctx.n (.glob pa) 8 ((z.endRecords k).ltsOf k) 1 = (e, t, some word) := by
  obtain ⟨hk, -, -, -⟩ := id hmay
  obtain ⟨u, e, hloaded, hwalks, hle, heq⟩ := withDesc_reads hk h hdone hstatus none (ctrigDev b c k)
  have hlooked : LoadedDev ((unlatched s).modWave k.wave.id (·.adopt u)) (e.looked k.core k.ctx (k.rd b).toNat) :=
    hloaded.trans (.of_cachedDev (.looked _ _ _ _))
  generalize hz : e.looked k.core k.ctx (k.rd b).toNat = z at hlooked
  have hqueue : e.queue? k.ctx.n ((none : Option Nat).getD (Desc.parse bytes).queue) = some x := by
    rw [hloaded]
    exact hx
  have hroom : (z.triggers.filter (·.ctx == k.ctx.n)).length < 64 := by
    rw [hlooked]
    exact htriggers
  have hbytes : SameBytes s.dev (z.endRecords k) := by
    rw [hlooked]
    exact ⟨rfl, rfl, rfl, rfl⟩
  have hclock : (z.endRecords k).ltsOf k = u := ltsOf_adopted hk hle (endRecords_waves hlooked k)
  obtain ⟨f, t, hload, hr, hut⟩ := homeLoad_reads (d := z.endRecords k) ((hbytes.readGlob _ _ _).trans hread) ((z.endRecords k).ltsOf k) 1
  refine ⟨u, t, z, f, (ctrig_reads hmay h).trans ?_, hlooked, hr.loaded, hle, by omega, hload⟩
  refine congrArg (fun x => Host.Outcome.next { s with dev := x }) ?_
  rw [heq, queueThen_accepts hqueue hdesc, ctrigDev, (hwalks.checkGlobal _ _ _ _ _ _).trans hplace]
  simp only [hz, if_neg (not_le.mpr hroom)]
  rfl

theorem ctrig_fires (hmay : MayIssueJob s k) (h : RecordAt s k (k.rd a).toNat 64 bytes)
    (hx : s.dev.queue? k.ctx.n (Desc.parse bytes).queue = some x) (hdesc : descOk bytes x.comm.size true = true)
    (hdone : WordOk (lookedUp s k [(k.rd a).toNat]) k (Desc.parse bytes).done)
    (hstatus : WordOk (lookedUp s k [(k.rd a).toNat]) k (Desc.parse bytes).status)
    (hplace : (lookedUp (lookedUp s k [(k.rd a).toNat]) k ((descWords bytes).map (·.1))).dev.checkGlobal k.core k.ctx (k.rd b).toNat 8 needR false =
      .ok (.glob pa)) (hread : s.dev.readGlob k.ctx.n pa 8 = (word, true))
    (htriggers : (s.dev.triggers.filter (·.ctx == k.ctx.n)).length < 64)
    (hlen : s.dev.queueLength k.ctx.n (Desc.parse bytes).queue < 64) (hthresh : (k.rd c).toNat % 2 ^ 48 ≤ leNat word % 2 ^ 48) :
    ∃ t time time' y, exec (.ctrig a b c) s = .next t ∧ k.wave.lts ≤ time ∧ time ≤ time' ∧
      t.dev.waves = (hasRead s k time).dev.waves ∧ Posted y x (Desc.parse bytes) time' none ∧ t.dev.colls = s.dev.colls ++ [y] ∧
      t.dev.triggers = s.dev.triggers ∧ t.dev.mem = s.dev.mem ∧ t.dev.locmem = s.dev.locmem := by
  obtain ⟨-, -, hroom, -⟩ := id hmay
  obtain ⟨u, t, z, e, hexec, hz, he, hle, hut, hload⟩ := ctrig_compares hmay h hx hdesc hdone hstatus hplace hread htriggers
  have hlen' : e.queueLength k.ctx.n (Desc.parse bytes).queue < 64 := by
    rw [he, hz]
    exact hlen
  have hfull : e.checkerFull k.ctx.n = false := by
    rw [he, hz]
    exact decide_eq_false (not_le.mpr hroom)
  have hfires : (k.rd c).toNat % 2 ^ 48 ≤ ((some word).map fun bs => field bs 0 6).getD 0 ∧ (some word).isSome = true := by
    refine ⟨?_, rfl⟩
    change _ ≤ leNat (word.take 6)
    rw [leNat_take]
    exact hthresh
  obtain ⟨y, j, hposted, hcolls, hjobs, hid, hkind, hclock, hentered, hwaves, hmem, hloc, htr⟩ := postColl_posts (d := e)
    (show e.queue? k.ctx.n (Desc.parse bytes).queue = some x by rw [he, hz]; exact hx) (Desc.parse bytes) t k.wave.id k.block.id none
  refine ⟨_, u, t, y, hexec, hle, hut, ?_, hposted, ?_, ?_, ?_, ?_⟩
  all_goals
    simp only [compared, hload, if_pos hfires, hfull, decide_eq_false (not_le.mpr hlen'), Bool.or_self, Bool.false_eq_true, if_false]
  · rw [← hasRead_waves]
    refine advance_waves (hwaves.trans ?_) k 12
    rw [loadedDev_waves he]
    exact endRecords_waves hz k
  · refine hcolls.trans ?_
    rw [he, hz]
    rfl
  · refine htr.trans ?_
    rw [he, hz]
    rfl
  · refine hmem.trans ?_
    rw [he, hz]
    rfl
  · refine hloc.trans ?_
    rw [he, hz]
    rfl

theorem ctrig_keeps (hmay : MayIssueJob s k) (h : RecordAt s k (k.rd a).toNat 64 bytes)
    (hx : s.dev.queue? k.ctx.n (Desc.parse bytes).queue = some x) (hdesc : descOk bytes x.comm.size true = true)
    (hdone : WordOk (lookedUp s k [(k.rd a).toNat]) k (Desc.parse bytes).done)
    (hstatus : WordOk (lookedUp s k [(k.rd a).toNat]) k (Desc.parse bytes).status)
    (hplace : (lookedUp (lookedUp s k [(k.rd a).toNat]) k ((descWords bytes).map (·.1))).dev.checkGlobal k.core k.ctx (k.rd b).toNat 8 needR false =
      .ok (.glob pa)) (hread : s.dev.readGlob k.ctx.n pa 8 = (word, true))
    (htriggers : (s.dev.triggers.filter (·.ctx == k.ctx.n)).length < 64) (hthresh : leNat word % 2 ^ 48 < (k.rd c).toNat % 2 ^ 48) :
    ∃ t time y, exec (.ctrig a b c) s = .next t ∧ k.wave.lts ≤ time ∧
      t.dev.waves = (hasRead s k time).dev.waves ∧ t.dev.triggers = s.dev.triggers ++ [y] ∧ y.ctx = k.ctx.n ∧ y.pa = pa ∧
      y.thresh = (k.rd c).toNat % 2 ^ 48 ∧ y.desc = Desc.parse bytes ∧ y.clock = time ∧ t.dev.colls = s.dev.colls ∧ t.dev.jobs = s.dev.jobs ∧
      t.dev.mem = s.dev.mem ∧ t.dev.locmem = s.dev.locmem := by
  obtain ⟨hk, -, -, -⟩ := id hmay
  obtain ⟨u, t, z, e, hexec, hz, he, hle, hut, hload⟩ := ctrig_compares hmay h hx hdesc hdone hstatus hplace hread htriggers
  have hclock : Dev.ltsOf { e with nextId := e.nextId + 1 } k = u := ltsOf_adopted hk hle (by
    change e.waves = _
    rw [loadedDev_waves he]
    exact endRecords_waves hz k)
  rw [compared_below hload hthresh] at hexec
  refine ⟨_, u, keptTrigger k pa ((k.rd c).toNat % 2 ^ 48) (Desc.parse bytes) e, hexec, hle, ?_, ?_, rfl, rfl, rfl, rfl, hclock, ?_, ?_, ?_, ?_⟩
  · rw [← hasRead_waves]
    refine advance_waves ?_ k 12
    change e.waves = _
    rw [loadedDev_waves he]
    exact endRecords_waves hz k
  · change e.triggers ++ _ = _
    congr 1
    rw [he, hz]
    rfl
  · change e.colls = _
    rw [he, hz]
    rfl
  · change e.jobs = _
    rw [he, hz]
    rfl
  · change e.mem = _
    rw [he, hz]
    rfl
  · change e.locmem = _
    rw [he, hz]
    rfl

end

/-- Settles O37, by the reads of a descriptor (R201) and the queue that it names. -/
theorem collectiveInstructions : Obligations.CollectiveInstructions := by
  refine ⟨fun s k a q bytes x hmay h hx hdesc hdone hstatus hlen => cpost_posts hmay h hx hdesc hdone hstatus hlen,
    fun s k a b c bytes word x pa hmay h hq hx hdesc hdone hstatus hplace hread htriggers hlen =>
      ⟨ctrig_fires hmay h hx hdesc hdone hstatus hplace hread htriggers hlen, ctrig_keeps hmay h hx hdesc hdone hstatus hplace hread htriggers⟩,
    fun s k a b c q hk i hi => ?_,
    fun s k a q bytes hmay h hdone hstatus hx htvec hin => cpost_unqueued hmay h hdone hstatus hx htvec hin⟩
  rcases hi with rfl | rfl
  · change (_ → execCpost a q s = _) ∧ (_ → _ → execCpost a q s = _)
    rw [execCpost, issue_next s k _ hk]
    refine ⟨fun hpart => ?_, fun hwhole halign => ?_⟩
    · simp only [whole_false hpart]
      rfl
    · simp only [whole_true hwhole, Bool.not_true, Bool.false_eq_true, if_false, if_pos halign]
      rfl
  · change (_ → execCtrig a b c s = _) ∧ (_ → _ → execCtrig a b c s = _)
    rw [execCtrig, issue_next s k _ hk]
    refine ⟨fun hpart => ?_, fun hwhole halign => ?_⟩
    · simp only [whole_false hpart]
      rfl
    · simp only [whole_true hwhole, Bool.not_true, Bool.false_eq_true, if_false, if_pos halign]
      rfl

end Sys2Proof.Proofs
end

section
/-!
PROOFS. Continuations at issue (07: R240): O41 fails, as the write of a slot fires triggered operations (R227).
-/

open Sys2Proof Sys2Proof.Machine Sys2Proof.Claims

-- The whole text is compiled in one process, which can hold few threads: these proofs are elaborated in order.
set_option Elab.async false

namespace Sys2Proof.Proofs

/-! ## A write that fires a triggered operation (R227) -/

/-- What decides which triggered operations a write fires, and what they post. -/
structure Armed (d e : Dev) : Prop where
  triggers : e.triggers = d.triggers
  ctxs : e.ctxs = d.ctxs
  queues : e.queues = d.queues
  jobs : e.jobs = d.jobs
  fns : e.fns = d.fns

namespace Armed

theorem refl (d : Dev) : Armed d d := ⟨rfl, rfl, rfl, rfl, rfl⟩

theorem trans {a b c : Dev} (h : Armed a b) (g : Armed b c) : Armed a c :=
  ⟨g.triggers.trans h.triggers, g.ctxs.trans h.ctxs, g.queues.trans h.queues, g.jobs.trans h.jobs, g.fns.trans h.fns⟩

theorem of_loaded {d e : Dev} (h : LoadedDev d e) : Armed d e := by
  rw [h]
  exact ⟨rfl, rfl, rfl, rfl, rfl⟩

theorem mailboxWrite (d : Dev) (pa n : Nat) : Armed d (d.mailboxWrite pa n) := by
  have hfold : ∀ (l : List Ctx) (d : Dev), Armed d (l.foldl (fun d c =>
      let lo := c.mbox + 0x1000
      if (List.range n).any fun i => decide (lo ≤ pa + i ∧ pa + i < lo + 4096 ∧ 56 ≤ (pa + i - lo) % 64)
      then d.send (.msix c.fn (1 + c.idx)) else d) d) := fun l => by
    induction l with
    | nil => exact refl
    | cons c l ih =>
      intro d
      refine trans ?_ (ih _)
      dsimp only
      split
      · exact ⟨rfl, rfl, rfl, rfl, rfl⟩
      · exact refl d
  exact hfold d.ctxs d

end Armed

/-- A write of eight bytes over the counter of the one triggered operation, whose threshold is 0, posts a collective. -/
theorem homeWrite_fires {d : Dev} {ctx pa : Nat} {f : Nat → List Byte} {x : Trigger} {q : CollQueue} {c : Ctx} (hlen : ∀ t, (f t).length = 8)
    (hwritten : ∀ i ∈ sectorsOf pa 8, Written d ctx i) (hfns : d.fns = []) (htriggers : d.triggers = [x]) (hctx : d.ctx? x.ctx = some c)
    (hrun : c.stopped = false) (hpa : x.pa = pa) (hthresh : x.thresh = 0) (hqueue : d.queue? x.ctx x.desc.queue = some q)
    (core : Option Nat) (hcore : core = none) (clock : Nat) :
    ∃ e t, d.homeWrite ctx core true (.glob pa) clock f = (e, t, true) ∧ e.jobs.length = d.jobs.length + 1 := by
  subst hcore
  have hput : ∀ t, (d.touchLine ctx pa ctx).putGlob ctx pa (f t) = some (overwritten (d.touchLine ctx pa ctx) ctx pa (f t)) := fun t =>
    putGlob_written fun i hi => ((Aside.touchLine d ctx pa ctx).sameBytes.written ctx i).mpr (hwritten i (by rwa [hlen] at hi))
  have htouched : Armed d (d.touchLine ctx pa ctx) := .of_loaded (.of_cachedDev (.touchLine d ctx pa ctx))
  generalize ht : max clock (((d.touchLine ctx pa ctx).lineTimes pa).2 + 1) = t
  generalize hz : ((overwritten (d.touchLine ctx pa ctx) ctx pa (f t)).setLine pa fun x => { x with wt := t, le := t, owner := some ctx }).wakeMonitors pa t = z
  have hArmed : Armed d z := by
    rw [← hz]
    exact htouched.trans ⟨rfl, rfl, rfl, rfl, rfl⟩
  have hlog : z.logWrite ctx pa = z := by
    rw [Dev.logWrite, hArmed.fns, hfns]
    rfl
  have hy : Armed d (z.mailboxWrite pa 8) := hArmed.trans (.mailboxWrite z pa 8)
  have hexec : d.homeWrite ctx none true (.glob pa) clock f = ((z.mailboxWrite pa 8).fireTriggers pa 8 t, t, true) := by
    simp only [Dev.homeWrite, ht, hput, Dev.afterWrite, hz, hlog, hlen, if_true]
  refine ⟨_, t, hexec, ?_⟩
  generalize z.mailboxWrite pa 8 = y at hy
  have hhit : (!(y.ctx? x.ctx).any (·.stopped) && decide (x.pa < pa + 8 ∧ pa < x.pa + 8 ∧ x.thresh ≤ leNat (bytesFrom (y.byteAt x.ctx) x.pa 6))) = true := by
    have hctx' : y.ctx? x.ctx = some c := by
      rw [Dev.ctx?, hy.ctxs]
      exact hctx
    rw [hctx', hpa, hthresh]
    simp [hrun]
  have hfind : y.queues.find? (fun z => z.ctx == x.ctx && z.q == x.desc.queue) = some q := by
    rw [hy.queues]
    exact hqueue
  rw [Dev.fireTriggers, hy.triggers, htriggers]
  simp only [List.filter_cons, hhit, if_true, List.filter_nil, List.foldl_cons, List.foldl_nil, Dev.postColl, hfind]
  change (y.jobs ++ [_]).length = _
  rw [hy.jobs, List.length_append, List.length_singleton]

/-! ## The continuation table as walks see it (R322) -/

/-- A slot's home is a place in the package's own memory. -/
theorem slotPlace_glob {d : Dev} {x : Ctx} {n : Nat} {l : Loc} (hl : d.slotPlace x n = .ok l) : ∃ pa, l = .glob pa := by
  rw [Dev.slotPlace] at hl
  split at hl
  · cases hl
  · split at hl
    · exact ⟨_, (Except.ok.inj hl).symm⟩
    · cases hl

section
variable {d e : Dev} (h : SameWalks d e)
include h

theorem slotPlace_walks (x : Ctx) (n : Nat) : e.slotPlace x n = d.slotPlace x n := by
  rw [Dev.slotPlace, h.translate, Dev.slotPlace]

theorem peekLoc_walks (ctx pa n : Nat) : e.peekLoc ctx (.glob pa) n = d.peekLoc ctx (.glob pa) n := by
  simp only [Dev.peekLoc, h.readGlob]

theorem freeSlot_walks (x : Ctx) (n i : Nat) : e.freeSlot x n i = d.freeSlot x n i := by
  induction n generalizing i with
  | zero => rfl
  | succ n ih =>
    rw [Dev.freeSlot, Dev.freeSlot, slotPlace_walks h]
    cases hplace : d.slotPlace x i with
    | error c => rfl
    | ok l =>
      obtain ⟨pa, rfl⟩ := slotPlace_glob hplace
      simp only [peekLoc_walks h, ih]

end

/-- An identity whose slot is SUSPENDED passes the test of `cclone` (R240). -/
theorem testSlot_suspended {s : State} {x : Ctx} {ident pa : Nat} (h : SlotAt s x ident pa slotSuspended) {e : Dev} (he : SameWalks s.dev e) (c : Nat) :
    ∃ z t, e.testSlot x ident c = (z, .moved t) ∧ LoadedDev e z ∧ SameWalks (s.dev.looked 0 x (slotAddr x ident)) z := by
  obtain ⟨hident, hplace, hsound, hword⟩ := h
  have hread : e.readGlob x.n pa 8 = ((s.dev.readGlob x.n pa 8).1, true) := by
    rw [he.readGlob]
    exact Prod.ext rfl (List.all_eq_true.mpr fun i hi => (hsound i hi).2)
  obtain ⟨z, t, hload, hz, -⟩ := homeLoad_reads hread c 1
  have hmatch : leNat (s.dev.readGlob x.n pa 8).1 % 4 = slotSuspended ∧ leNat (s.dev.readGlob x.n pa 8).1 / 2 ^ 20 = identGen ident := by
    simp only [hword, identGen, slotSuspended]
    omega
  refine ⟨_, t, ?_, hz.loaded.trans (.of_cachedDev (.looked z 0 x (slotAddr x ident))), (he.trans hz.walks).looked 0 x _⟩
  rw [Dev.testSlot, slotPlace_walks he, identSlot, hplace]
  simp only [hload, if_pos hmatch, Dev.slotLooked]

/-- What a `cclone` does once its source's header has been read: the rest of `execCclone`. -/
def cloneFrom (k : Issue) (dest : SReg) (src dst : Nat) (d : Dev) (h : List Byte) : Dev :=
  let n := headerTotal h
  let ident := headerIdent h
  let at_ := slotAddr k.ctx ident
  if src < dst + n ∧ dst < src + n then d.trap k cObject
  else if headerTeam h ≠ 0 then d.trap k cObject
  else if 30 ≤ d.cp k.wave.id || d.checkerFull k.ctx.n then d.stall k (.full .cp)
  else
    match d.testSlot k.ctx ident (d.ltsOf k) with
    | (d, .fail e) => d.slotTrap k e at_
    | (d, .wrong) => d.trap k cDoubleresume
    | (d, .moved t) =>
      match d.takeSlot k.ctx t with
      | (d, .error e) => d.slotTrap k e k.ctx.ctab
      | (d, .ok (new, t)) =>
        let d := (d.endRecords k).modWave k.wave.id (·.adopt t)
        let (id, d) := d.fresh
        let d := d.addJob {
          id := id, ctx := k.ctx.n, block := k.block.id, wave := k.wave.id, pc := k.pc, gang := k.gang
          kind := .clone src dst new k.gang k.pc, foot := [⟨none, src, src + n, false⟩, ⟨none, dst, dst + n, true⟩]
          entered := false, after := [], clock := t }
        let d : Dev := { d with suspRegs := d.suspRegs ++
          ((d.suspRegs.filter fun r => r.1 == k.ctx.n && r.2.1 == ident).map fun r => (r.1, new, r.2.2)) }
        (d.setScalars k dest fun _ => BitVec.ofNat 64 new).advance k 12

/-- The same behind the check of the header (R318). -/
def cloneChecked (k : Issue) (dest : SReg) (src dst : Nat) (d : Dev) (h : List Byte) : Dev :=
  if headerOk k.ctx h then cloneFrom k dest src dst d h else d.trap k cObject

theorem cclone_reads {s : State} {k : Issue} {d a b : SReg} (hk : s.dev.issuer? = some k) (hsettled : s.dev.settled k = true)
    (hsrc : (k.rd a).toNat % 256 = 0) (hdst : (k.rd b).toNat % 256 = 0) :
    exec (.cclone d a b) s = .next { s with dev := (unlatched s).withRecord k 32 (k.rd a).toNat 256 (cloneChecked k d (k.rd a).toNat (k.rd b).toNat) } := by
  change execCclone d a b s = _
  rw [execCclone, issue_next s k _ hk]
  refine congrArg (fun x => Host.Outcome.next { s with dev := x }) ?_
  refine (if_neg (not_not_intro hsrc)).trans ((if_neg (not_not_intro hdst)).trans ?_)
  refine (whenSettled_of_settled (show (unlatched s).settled k = true from hsettled)).trans ?_
  exact if_neg (not_not_intro hsrc)

/-- The jobs that a `cclone` leaves where the slot that it takes is the counter of a triggered operation: the clone's, and the collective's
that its own write has fired. -/
theorem cclone_fires {s : State} {k : Issue} {d a b : SReg} {h : List Byte} {pa new gen pb : Nat} {x : Trigger} {q : CollQueue}
    (hk : s.dev.issuer? = some k) (hsettled : s.dev.settled k = true) (hrec : RecordAt s k (k.rd a).toNat 256 h) (hok : headerOk k.ctx h = true)
    (halign : (k.rd b).toNat % 256 = 0) (hteam : field h 0x22 1 = 0)
    (hapart : (k.rd a).toNat + field h 0x98 8 ≤ (k.rd b).toNat ∨ (k.rd b).toNat + field h 0x98 8 ≤ (k.rd a).toNat)
    (hcp : s.dev.cp k.wave.id < 30) (hroom : (s.dev.jobs.filter (·.ctx == k.ctx.n)).length < 1024)
    (hslot : SlotAt (lookedUp s k ((spans 32 (k.rd a).toNat 256).map (·.va))) k.ctx (field h 8 8) pa slotSuspended)
    (hfree : ((lookedUp s k ((spans 32 (k.rd a).toNat 256).map (·.va))).dev.looked 0 k.ctx (slotAddr k.ctx (field h 8 8))).freeSlot k.ctx (2 ^ 20) 0 =
      .ok (some (new, gen)))
    (hplace : ((lookedUp s k ((spans 32 (k.rd a).toNat 256).map (·.va))).dev.looked 0 k.ctx (slotAddr k.ctx (field h 8 8))).slotPlace k.ctx new =
      .ok (.glob pb))
    (hwritten : Claims.Sound s k.ctx.n pb 8) (hfns : s.dev.fns = []) (htriggers : s.dev.triggers = [x]) (hctx : s.dev.ctx? x.ctx = some k.ctx)
    (hrun : k.ctx.stopped = false) (hpa : x.pa = pb) (hthresh : x.thresh = 0) (hqueue : s.dev.queue? x.ctx x.desc.queue = some q) :
    ∃ t, exec (.cclone d a b) s = .next t ∧ t.dev.jobs.length = s.dev.jobs.length + 2 := by
  obtain ⟨u, e, hread, hloaded, hwalks, -⟩ := withRecord_reads hk (unit := 32) (by decide) hrec.2 (cloneChecked k d (k.rd a).toNat (k.rd b).toNat)
  refine ⟨_, cclone_reads hk hsettled hrec.1 halign, ?_⟩
  simp only [hread, cloneChecked, hok, if_true]
  obtain ⟨z, t, htest, hz, hzwalks⟩ := testSlot_suspended hslot hwalks (e.ltsOf k)
  have hze : LoadedDev ((unlatched s).modWave k.wave.id (·.adopt u)) z := hloaded.trans hz
  have hwz : ∀ i ∈ sectorsOf pb 8, Written z k.ctx.n i := fun i hi => (hze.sameBytes.written k.ctx.n i).mpr (hwritten i hi)
  have hjobs : z.jobs = s.dev.jobs := by rw [hze]; rfl
  obtain ⟨y, t', hwrite, hlen⟩ := homeWrite_fires (d := z) (ctx := k.ctx.n) (f := fun _ => leBytes 8 (slotWord (gen + 1) slotResuming)) (x := x) (q := q) (c := k.ctx)
    (fun _ => leBytes_length _ _) hwz (by rw [hze]; exact hfns) (by rw [hze]; exact htriggers) (by rw [hze]; exact hctx) hrun hpa hthresh
    (by rw [hze]; exact hqueue) none rfl t
  have htake : z.takeSlot k.ctx t = (y.looked 0 k.ctx (k.ctx.ctab + 8 * new), .ok (identOf new (gen + 1), t')) := by
    rw [Dev.takeSlot, freeSlot_walks hzwalks, hfree]
    simp only [slotPlace_walks hzwalks, hplace, hwrite]
  have hcp' : e.cp k.wave.id = s.dev.cp k.wave.id := by rw [hloaded]; rfl
  have hfull : e.checkerFull k.ctx.n = false := by
    rw [hloaded]
    exact decide_eq_false (by simpa [unlatched] using hroom)
  have hjobs' : (y.looked 0 k.ctx (k.ctx.ctab + 8 * new)).jobs = y.jobs := by rw [LoadedDev.of_cachedDev (.looked y 0 k.ctx _)]
  have happly : ¬ ((k.rd a).toNat < (k.rd b).toNat + headerTotal h ∧ (k.rd b).toNat < (k.rd a).toNat + headerTotal h) := by
    rw [headerTotal]
    omega
  rw [cloneFrom]
  simp only [if_neg happly, headerTeam, hteam, ne_eq, not_true_eq_false, if_false, hcp', hfull, Nat.not_le.mpr hcp, decide_false, Bool.or_self,
    Bool.false_eq_true, headerIdent, htest, htake]
  change (List.length (_ ++ [_])) = _
  rw [List.length_append, List.length_singleton]
  change (y.looked 0 k.ctx (k.ctx.ctab + 8 * new)).jobs.length + 1 = _
  rw [hjobs', hlen, hjobs]
/-! ## A clone whose new slot is the counter of a triggered operation

The page at 0x1000 holds an object's sealed header, and the continuation table behind it: slot 0 is FREE, slot 1 SUSPENDED with the
generation of the object. A triggered operation (R227) has slot 0 as its counter, with threshold 0. -/

/-- What sectors that have been written hold is what memory holds. -/
theorem readGlob_of_written {d : Dev} {slot a n : Nat} (h : ∀ i ∈ sectorsOf a n, Written d slot i) : d.readGlob slot a n = (cellRead d.mem a n, true) := by
  have hbytes : ∀ (m b : Nat), a ≤ b → b + m ≤ a + n → bytesFrom (d.byteAt slot) b m = cellRead d.mem b m := fun m => by
    induction m with
    | zero => intros; rfl
    | succ m ih =>
      intro b hb hm
      rw [bytesFrom, cellRead, byteAt_of_written (h _ (mem_sectorsOf.mpr ⟨by omega, by omega⟩)), ih (b + 1) (by omega) (by omega)]
  rw [Dev.readGlob, hbytes n a le_rfl le_rfl, List.all_eq_true.mpr fun i hi => (h i hi).2]

/-- Sealing a sealed header again changes nothing: SEAL is taken over the rest (R318). -/
theorem sealHeader_sealHeader (key : Nat) {h : List Byte} (hlen : h.length = 256) : sealHeader key (sealHeader key h) = sealHeader key h := by
  have hfront : (sealHeader key h).take 0x18 = h.take 0x18 := by
    simp [sealHeader, List.length_take, hlen]
  have hback : ((sealHeader key h).drop 0x20).take 0xE0 = (h.drop 0x20).take 0xE0 := by
    simp [sealHeader, List.drop_append, List.length_take, leBytes_length, hlen, List.drop_eq_nil_of_le]
  generalize hs : sealHeader key h = s at hfront hback
  rw [sealHeader, hfront, hback, ← hs]
  rfl

/-- An object's context, with its continuation table at 0x1200. -/
def tableCtx : Ctx := ⟨0, 0, 0, 0, 0x1200, 0, 0, 1, false, 0, 0, 0, 0, 0, none, false, 0⟩

/-- Slot 1 with generation 5. -/
def tableIdent : Nat := 1 + 5 * 2 ^ 20

/-- The header of an object of no wave, 256 bytes long: before its seal, and with it. -/
def plainObject : List Byte :=
  leBytes 4 0x52424D45 ++ leBytes 2 1 ++ leBytes 2 0 ++ leBytes 8 tableIdent ++ List.replicate 0x88 0 ++ leBytes 8 256 ++ List.replicate 0x60 0
def emptyObject : List Byte := sealHeader 0 plainObject

/-- The table with slot 1 SUSPENDED, and all of the page. -/
def tableCells : List Host.Cell := cellWrite [] 0x1208 (leBytes 8 (5 * 2 ^ 20 + slotSuspended))
def pageCells : List Host.Cell := cellWrite tableCells 0x1000 emptyObject

/-- A wave whose strand 0 holds the object's address and a place for its copy. -/
def cloner : Wave :=
  let w := Wave.new 257 256 0 (some 0) 1 0x1000 0 0 0 0
  { w with strands := w.strands.modify 0 fun x => { x with s := (x.s.set 4 0x1000).set 5 0x1100 } }

/-- A collective to be posted to queue 0, and that queue. -/
def noElements : Desc := ⟨0, 0, 0, 0, 0, 0, 0, 0, 0, 0, 0, 0, false, 0, 0⟩

/-- The wave's gang is selected, and the FREE slot 0 is the counter of the triggered operation. -/
def armedSlot : State := { State.reset with dev := { Dev.reset with
  latch := some ⟨257, 0xFF⟩
  waves := [cloner]
  blocks := [Block.plain 256 0 0]
  ctxs := [tableCtx]
  tlb := [⟨0, 0, 4096, 1, 0, ⟨0x1000, none, true, true, true⟩⟩]
  sectors := (List.range 20).map fun i => ⟨128 + i, 0, 0⟩
  mem := pageCells
  queues := [⟨0, 0, ⟨1, 0, [], 3, 0⟩, []⟩]
  triggers := [⟨7, 0, none, false, 0x1200, 0, noElements, 0⟩] } }

/-- The issue of the gang. -/
def armedIssue : Issue := ⟨cloner, 0xFF, 0x1000, Block.plain 256 0 0, tableCtx⟩

theorem plainObject_length : plainObject.length = 256 := by simp only [plainObject, List.length_append, leBytes_length, List.length_replicate]

theorem emptyObject_length : emptyObject.length = 256 := by
  rw [emptyObject, sealHeader]
  simp only [List.length_append, List.length_take, List.length_drop, leBytes_length, plainObject_length]
  rfl

theorem headerOk_emptyObject : headerOk tableCtx emptyObject = true := by
  have hseal : sealHeader tableCtx.sealKey emptyObject = emptyObject := sealHeader_sealHeader 0 plainObject_length
  unfold headerOk
  rw [hseal]
  simp only [beq_self_eq_true, Bool.and_true]
  rfl

theorem armedSlot_mem : armedSlot.dev.mem = pageCells := by simp only [armedSlot]

theorem armedSlot_written {i : Nat} (hlo : 128 ≤ i) (hhi : i ≤ 147) : Written armedSlot.dev 0 i := by
  interval_cases i <;> exact ⟨nofun, rfl⟩

theorem armedSlot_reads {a n : Nat} (hlo : 0x1000 ≤ a) (hhi : a + n ≤ 0x1280) : armedSlot.dev.readGlob 0 a n = (cellRead pageCells a n, true) := by
  have hread := readGlob_of_written (d := armedSlot.dev) (slot := 0) (a := a) (n := n) fun i hi =>
    armedSlot_written (by have := mem_sectorsOf.mp hi; omega) (by have := mem_sectorsOf.mp hi; omega)
  rwa [armedSlot_mem] at hread

theorem armedSlot_object : armedSlot.dev.readGlob 0 0x1000 256 = (emptyObject, true) := by
  have hread := cellRead_cellWrite tableCells 0x1000 emptyObject (wf_cellWrite _ _ _ rfl)
  rw [emptyObject_length] at hread
  rw [armedSlot_reads (by decide) (by decide), pageCells, hread]

/-- The table lies behind the object. -/
theorem cellRead_table (a : Nat) (h : 0x1100 ≤ a) (n : Nat) : cellRead pageCells a n = cellRead tableCells a n := by
  induction n generalizing a with
  | zero => simp only [cellRead]
  | succ n ih =>
    rw [cellRead, cellRead, ih (a + 1) (by omega), pageCells, cellGet_cellWrite_outside _ _ _ _ (Or.inr (by rw [emptyObject_length]; exact h))]

theorem armedSlot_place {i : Nat} (hi : i < 256) :
    armedSlot.dev.unitPlace armedIssue.core tableCtx (0x1000 + i) needR = .ok (.glob (0x1000 + i)) := by
  have hpage : (0x1000 + i) / 4096 = 1 := by omega
  have hhit : armedSlot.dev.tlbHit 0 0 (0x1000 + i) = some (⟨0, 0, 4096, 1, 0, ⟨0x1000, none, true, true, true⟩⟩,
      ⟨0x1000 + (0x1000 + i) % 4096 / 4096 * 4096, none, true, true, true⟩) := by
    simp [Dev.tlbHit, TlbEntry.covers, armedSlot, hpage]
  rw [show armedIssue.core = 0 from rfl]
  simp only [Dev.unitPlace, Dev.access, Dev.translate, show tableCtx.n = 0 from rfl, hhit, if_neg (show ¬ 2 ^ 56 ≤ 0x1000 + i by omega)]
  simp [Leaf.loc]
  omega

theorem armedSlot_record : RecordAt armedSlot armedIssue (armedIssue.rd 4).toNat 256 emptyObject :=
  ⟨by decide, 0x1000, fun _ hi => armedSlot_place hi, armedSlot_object⟩

/-- The pages are in the TLBs. -/
theorem armedSlot_lookedUp : lookedUp armedSlot armedIssue ((spans 32 (armedIssue.rd 4).toNat 256).map (·.va)) = armedSlot := rfl
theorem armedSlot_looked : armedSlot.dev.looked 0 tableCtx (slotAddr tableCtx (field emptyObject 8 8)) = armedSlot.dev := rfl

theorem armedSlot_sound (a : Nat) (hlo : 0x1000 ≤ a) (hhi : a + 8 ≤ 0x1280) : Claims.Sound armedSlot 0 a 8 := fun i hi =>
  armedSlot_written (by have := mem_sectorsOf.mp hi; omega) (by have := mem_sectorsOf.mp hi; omega)

theorem armedSlot_slot : SlotAt armedSlot tableCtx (field emptyObject 8 8) 0x1208 slotSuspended := by
  refine ⟨by decide, rfl, armedSlot_sound _ (by decide) (by decide), ?_⟩
  rw [show tableCtx.n = 0 from rfl, armedSlot_reads (by decide) (by decide), cellRead_table _ (by decide)]
  rfl

theorem armedSlot_free : armedSlot.dev.freeSlot tableCtx (2 ^ 20) 0 = .ok (some (0, 0)) := by
  rw [show (2 ^ 20 : Nat) = 1048575 + 1 from rfl, Dev.freeSlot, show armedSlot.dev.slotPlace tableCtx 0 = .ok (.glob 0x1200) from rfl]
  simp only [Dev.peekLoc]
  rw [show tableCtx.n = 0 from rfl, armedSlot_reads (by decide) (by decide), cellRead_table _ (by decide)]
  rfl

/-- Refutes O41: the write of the slot that `cclone` takes can post a collective (R227), whose job stands beside the clone's. -/
theorem not_continuationInstructions : ¬ Obligations.ContinuationInstructions := by
  unfold Obligations.ContinuationInstructions
  rintro ⟨-, -, -, -, hclone, -⟩
  have hlooked : (lookedUp armedSlot armedIssue ((spans 32 (armedIssue.rd 4).toNat 256).map (·.va))).dev.looked 0 armedIssue.ctx
      (slotAddr armedIssue.ctx (field emptyObject 8 8)) = armedSlot.dev := by
    rw [armedSlot_lookedUp]
    exact armedSlot_looked
  have hslot := armedSlot_slot
  rw [← armedSlot_lookedUp] at hslot
  have hfree := armedSlot_free
  rw [← hlooked] at hfree
  have hplace : ((lookedUp armedSlot armedIssue ((spans 32 (armedIssue.rd 4).toNat 256).map (·.va))).dev.looked 0 armedIssue.ctx
      (slotAddr armedIssue.ctx (field emptyObject 8 8))).slotPlace armedIssue.ctx 0 = .ok (.glob 0x1200) := by
    rw [hlooked]
    rfl
  have hissuer : armedSlot.dev.issuer? = some armedIssue := rfl
  have hsettled : armedSlot.dev.settled armedIssue = true := rfl
  have hsize : field emptyObject 0x98 8 = 256 := rfl
  have hapart : (armedIssue.rd 4).toNat + field emptyObject 0x98 8 ≤ (armedIssue.rd 5).toNat ∨
      (armedIssue.rd 5).toNat + field emptyObject 0x98 8 ≤ (armedIssue.rd 4).toNat := by
    rw [hsize]
    decide
  have hwf : Memory.wf pageCells = true := wf_cellWrite tableCells 0x1000 emptyObject (wf_cellWrite [] 0x1208 _ rfl)
  have hmem : memOk armedSlot := ⟨by rw [armedSlot_mem]; exact hwf, nofun⟩
  have hsound := armedSlot_sound 0x1200 (by decide) (by decide)
  obtain ⟨t, j, hexec, -, hjobs, -⟩ := hclone armedSlot armedIssue 7 4 5 emptyObject 0x1208 0 0 0x1200 hissuer hsettled hmem armedSlot_record
    headerOk_emptyObject (by decide) rfl hapart (by decide) (by decide) hslot hfree hplace hsound
  obtain ⟨z, hz, hlen⟩ := cclone_fires (d := 7) (b := 5) hissuer hsettled armedSlot_record headerOk_emptyObject (by decide) rfl hapart (by decide)
    (by decide) hslot hfree hplace hsound rfl rfl rfl rfl rfl rfl rfl
  obtain rfl : t = z := Host.Outcome.next.inj (hexec.symm.trans hz)
  rw [hjobs, List.length_append, List.length_singleton] at hlen
  omega

end Sys2Proof.Proofs
end

section
/-!
PROOFS. Operations at their homes and at their ends (06, 09: R177, R178, R184, R264 to R270): O29.
-/

open Sys2Proof Sys2Proof.Machine Sys2Proof.Claims

-- The whole text is compiled in one process, which can hold few threads: these proofs are elaborated in order.
set_option Elab.async false

namespace Sys2Proof.Proofs

/-! ## Bytes that a write leaves (R268) -/

/-- A write's bytes have been put over a device that differs aside only, and what follows a write has happened. -/
def StoredDev (d e : Dev) (slot a : Nat) (bs : List Byte) : Prop := ∃ x, Aside d x ∧ Aside (overwritten x slot a bs) e

section
variable {d e : Dev} {slot a : Nat} {bs : List Byte}

theorem StoredDev.byteAt (h : StoredDev d e slot a bs) (hm : Memory.wf d.mem = true) (hw : ∀ i ∈ sectorsOf a bs.length, Written d slot i) (b : Nat) :
    e.byteAt slot b = if a ≤ b ∧ b < a + bs.length then (bs[b - a]?).getD 0 else d.byteAt slot b := by
  obtain ⟨x, hx, he⟩ := h
  have hxm : Memory.wf x.mem = true := by rw [hx.mem]; exact hm
  rw [he.sameBytes.byteAt, byteAt_overwritten hxm (fun i hi => (hx.sameBytes.written slot i).mpr (hw i hi)), hx.sameBytes.byteAt]

theorem StoredDev.locmem (h : StoredDev d e slot a bs) : e.locmem = d.locmem := by
  obtain ⟨x, hx, he⟩ := h
  exact he.locmem.trans hx.locmem

/-- What a write leaves of everything that Aside keeps and that is no memory. -/
theorem StoredDev.memops (h : StoredDev d e slot a bs) : e.memops = d.memops := by
  obtain ⟨x, hx, he⟩ := h
  rw [he.rest]
  change x.memops = _
  rw [hx.rest]

end

/-- What a context reads after a write, in the claims' form. -/
theorem storesAt_stored {s t : State} {e : Dev} {slot a : Nat} {bs : List Byte} (h : StoredDev s.dev e slot a bs) (hm : Memory.wf s.dev.mem = true)
    (hw : Claims.Sound s slot a bs.length) (ht : SameBytes e t.dev) : StoresAt s t slot a bs := fun b => by
  rw [ht.byteAt, h.byteAt hm hw]

/-! ## One lane of an operation (R26, R270) -/

section
variable {s : State} {o : MemOp} {a : LaneAcc}

theorem group_of_next (h : NextAccess s o a) : o.group a.lane = [a] := by
  obtain ⟨-, -, hwhole, hmem, hst, hnodup, -, -⟩ := h
  have hone : (o.lanes.filter fun b => b.lane == a.lane && b.st == .waiting) = [a] := by
    have hlane : (o.lanes.filter fun b => b.lane == a.lane) = [a] := by
      have hcount : ∀ (l : List LaneAcc), a ∈ l → (l.map (·.lane)).Nodup → (l.filter fun b => b.lane == a.lane) = [a] := fun l => by
        induction l with
        | nil => intro h; cases h
        | cons b l ih =>
          intro hmem hnodup
          rw [List.map_cons, List.nodup_cons] at hnodup
          obtain ⟨hnot, hnodup⟩ := hnodup
          rcases List.mem_cons.mp hmem with rfl | hmem
          · rw [List.filter_cons_of_pos (by simp), List.filter_eq_nil_iff.mpr]
            intro c hc hlane
            exact hnot (List.mem_map.mpr ⟨c, hc, by simpa using hlane⟩)
          · rw [List.filter_cons_of_neg, ih hmem hnodup]
            intro hlane
            exact hnot (List.mem_map.mpr ⟨a, hmem, (by simpa using hlane : b.lane = a.lane).symm⟩)
      exact hcount o.lanes hmem hnodup
    have hboth : (fun b : LaneAcc => b.lane == a.lane && b.st == .waiting) = fun b => (b.st == .waiting) && (b.lane == a.lane) := by
      funext b
      exact Bool.and_comm _ _
    rw [hboth, ← List.filter_filter, hlane, List.filter_cons_of_pos (by simp [hst]), List.filter_nil]
  rw [MemOp.group, hwhole, hone]

theorem find_of_next (h : NextAccess s o a) : (o.lanes.find? fun b => b.lane == a.lane && b.st == .waiting) = some a := by
  have hgroup := group_of_next h
  obtain ⟨-, -, hwhole, -⟩ := h
  rw [MemOp.group, hwhole] at hgroup
  have hgroup' : (o.lanes.filter fun b => b.lane == a.lane && b.st == .waiting) = [a] := hgroup
  rw [← List.head?_filter, hgroup']
  rfl

theorem inTurn_of_next (h : NextAccess s o a) {p : MemKind → Bool} (hp : p o.kind = true) (f : MemOp → Dev) :
    s.dev.inTurn o.id p f = f o := by
  obtain ⟨hop, hturn, -⟩ := h
  rw [Dev.inTurn, hop]
  exact if_pos ⟨hturn, hp⟩

/-- The claims' form of a lane that has been performed. -/
theorem performed_of {t : State} {time : Nat} {bytes : List Byte} (h : t.dev.op? o.id = some (MemOp.withLane o a.lane (.done time bytes))) :
    Performed s t o a.lane bytes :=
  ⟨_, time, h, rfl, by
    rw [withLane_lanes]⟩

end

/-! ## Loads (R267) -/

theorem l1Fill_l1 (d : Dev) (core ctx pa : Nat) : d.l1Fill core ctx pa = { d with l1 := (d.l1Fill core ctx pa).l1 } := putL1_l1 d _

theorem l1Fill_sameBytes (d : Dev) (core ctx pa : Nat) : SameBytes d (d.l1Fill core ctx pa) := by
  rw [l1Fill_l1]
  exact ⟨rfl, rfl, rfl, rfl⟩

theorem sameBytes_trans {a b c : Dev} (h : SameBytes a b) (g : SameBytes b c) : SameBytes a c :=
  ⟨g.mem.trans h.mem, g.sectors.trans h.sectors, g.keys.trans h.keys, g.keyBase.trans h.keyBase⟩

/-- A lane has come to its end and the clocks have risen: operations and waves have changed. -/
theorem laneEnded_fields (d : Dev) (o : MemOp) (lane : Nat) (st : LaneSt) (t : Nat) :
    SameBytes d ((d.laneDone o.id lane st).opTime o t) ∧ ((d.laneDone o.id lane st).opTime o t).locmem = d.locmem := ⟨⟨rfl, rfl, rfl, rfl⟩, rfl⟩

/-- One lane of a load at its home: its bytes, and what the event leaves. -/
theorem loadEvent_glob {d : Dev} {o : MemOp} {a : LaneAcc} {w : LdW} {v : VReg} {pa : Nat} {bs : List Byte} (hop : d.op? o.id = some o)
    (hkind : o.kind = .load w v) (hloc : a.loc = .glob pa) (hread : d.readGlob o.ctx pa a.n = (bs, true)) (core lease : Nat) :
    ∃ e time, d.loadEvent core o [a] (.glob pa) lease = e ∧ SameBytes d e ∧ e.locmem = d.locmem ∧
      e.op? o.id = some (MemOp.withLane o a.lane (.done time bs)) := by
  obtain ⟨z, t, hload, hz, -⟩ := homeLoad_reads hread o.clock (max 1 (min lease 64))
  have hfill : SameBytes d (z.l1Fill core o.ctx pa) := sameBytes_trans hz.loaded.sameBytes (l1Fill_sameBytes z core o.ctx pa)
  have hrest : (z.l1Fill core o.ctx pa).memops = d.memops ∧ (z.l1Fill core o.ctx pa).locmem = d.locmem := by
    rw [l1Fill_l1]
    change z.memops = _ ∧ z.locmem = _
    rw [hz.loaded]
    exact ⟨rfl, rfl⟩
  have hevent : d.loadEvent core o [a] (.glob pa) lease = ((z.l1Fill core o.ctx pa).laneDone o.id a.lane
      (match (z.l1Fill core o.ctx pa).peekLoc o.ctx a.loc a.n with | some bs => .done t bs | none => .failed cIntegrity)).opTime o t := by
    rw [Dev.loadEvent]
    simp only [hload, hkind, List.foldl_cons, List.foldl_nil] <;> rfl
  obtain ⟨hmemops, hlocmem⟩ := hrest
  generalize z.l1Fill core o.ctx pa = y at hfill hevent hmemops hlocmem
  have hpeek : y.peekLoc o.ctx a.loc a.n = some bs := by
    rw [hloc]
    simp only [Dev.peekLoc, hfill.readGlob, hread, if_true]
  rw [hpeek] at hevent
  have hop' : y.op? o.id = some o := by
    rw [Dev.op?, hmemops]
    exact hop
  obtain ⟨hbytes, hloc'⟩ := laneEnded_fields y o a.lane (.done t bs) t
  exact ⟨_, t, hevent, sameBytes_trans hfill hbytes, hloc'.trans hlocmem, op?_opTime rfl t (op?_laneDone _ _ hop')⟩

theorem homeLoad_performs {s : State} {o : MemOp} {a : LaneAcc} {w : LdW} {d : VReg} {pa lease : Nat} (h : NextAccess s o a)
    (hkind : o.kind = .load w d) (hloc : a.loc = .glob pa) (hread : (s.dev.readGlob o.ctx pa a.n).2 = true) :
    ∃ t, exec (.homeLoad o.id a.lane lease false) s = .next t ∧ t.dev.mem = s.dev.mem ∧ t.dev.sectors = s.dev.sectors ∧
      t.dev.locmem = s.dev.locmem ∧ Performed s t o a.lane (s.dev.readGlob o.ctx pa a.n).1 := by
  have hgroup := group_of_next h
  obtain ⟨hop, hturn, hwhole, -, -, -, hblock, hctx⟩ := h
  obtain ⟨b, hb⟩ := Option.isSome_iff_exists.mp hblock
  obtain ⟨c, hc⟩ := Option.isSome_iff_exists.mp hctx
  obtain ⟨e, time, hevent, hbytes, hlocmem, hop'⟩ := loadEvent_glob (d := { s.dev with free := s.dev.free + 1 }) hop hkind hloc
    (Prod.ext rfl hread) b.core lease
  have hcond : (s.dev.opTurn o.wave).map (·.id) = some o.id ∧ o.kind.loads ∧ o.group a.lane ≠ [] :=
    ⟨hturn, by rw [hkind]; rfl, by rw [hgroup]; simp⟩
  have hexec : exec (.homeLoad o.id a.lane lease false) s = .next { s with
      dev := Dev.performLoad { s.dev with free := s.dev.free + 1 } o a.lane lease false
      mgmt := { s.mgmt with seccnt := if s.dev.freeWord.1.getLsbD 63 then (s.mgmt.seccnt + 1) % 2 ^ 32 else s.mgmt.seccnt } } := by
    change execHomeLoad o.id a.lane lease false s = _
    simp only [execHomeLoad, hop, if_pos hcond]
    rfl
  have hperform : Dev.performLoad { s.dev with free := s.dev.free + 1 } o a.lane lease false = e := by
    have hb' : Dev.block? { s.dev with free := s.dev.free + 1 } o.block = some b := hb
    have hc' : Dev.ctx? { s.dev with free := s.dev.free + 1 } o.ctx = some c := hc
    rw [Dev.performLoad, hb', hc', hgroup]
    simp only [hwhole, Bool.false_eq_true, if_false, hloc, hevent]
    exact settleOp_load hop' hkind
  refine ⟨_, hexec, ?_, ?_, ?_, performed_of (time := time) ?_⟩
  · exact (congrArg Dev.mem hperform).trans hbytes.mem
  · exact (congrArg Dev.sectors hperform).trans hbytes.sectors
  · exact (congrArg Dev.locmem hperform).trans hlocmem
  · exact (congrArg (Dev.op? · o.id) hperform).trans hop'
/-! ## Stores and atomics (R268, R269) -/

section
variable {s : State} {o : MemOp} {a : LaneAcc}

/-- A store that ends leaves memory as it is. -/
theorem settleOp_bytes {d : Dev} {id : Nat} {o : MemOp} (h : d.op? id = some o) (hkind : o.kind = .store) :
    SameBytes d (d.settleOp id) ∧ (d.settleOp id).locmem = d.locmem := by
  have hsettle : d.settleOp id = if !o.finished then d else d.endOp o := by
    simp only [Dev.settleOp, h, hkind]
    rfl
  rw [hsettle]
  split
  · exact ⟨⟨rfl, rfl, rfl, rfl⟩, rfl⟩
  · rw [Dev.endOp, if_pos (by rw [hkind]; rfl)]
    exact ⟨⟨rfl, rfl, rfl, rfl⟩, rfl⟩

/-- An operation whose result goes to registers stays until it completes. -/
theorem settleOp_atom {d : Dev} {id : Nat} {o : MemOp} {op : AtOp} {v : VReg} (h : d.op? id = some o) (hkind : o.kind = .atom op v) :
    d.settleOp id = d := by
  simp only [Dev.settleOp, h, hkind]
  split
  · rfl
  · exact if_neg (by rw [show (MemKind.atom op v).writes = false from rfl]; exact Bool.false_ne_true)

theorem storePerform_stores {pa : Nat} (h : NextAccess s o a) (hm : memOk s) (hkind : o.kind = .store) (hloc : a.loc = .glob pa)
    (hsound : Claims.Sound s o.ctx pa a.data.length) :
    ∃ t, exec (.storePerform o.id a.lane) s = .next t ∧ t.dev.locmem = s.dev.locmem ∧ StoresAt s t o.ctx pa a.data := by
  have hgroup := group_of_next h
  have hturn := inTurn_of_next h (p := MemKind.stores) (by rw [hkind]; rfl) fun o => s.dev.performStore o a.lane
  obtain ⟨hop, -, hwhole, -, -, -, hblock, hctx⟩ := h
  obtain ⟨b, hb⟩ := Option.isSome_iff_exists.mp hblock
  obtain ⟨c, hc⟩ := Option.isSome_iff_exists.mp hctx
  obtain ⟨x, e, t, hwrite, hx, he⟩ := homeWrite_written (f := fun _ => groupBytes [a]) (fun _ => rfl) hsound (some b.core) true o.clock
  have hstored : StoredDev s.dev e o.ctx pa a.data := ⟨x, hx, he⟩
  have hevent : s.dev.storeEvent b.core o [a] (.glob pa) = (e.laneDone o.id a.lane (.done t [])).opTime o t := by
    rw [Dev.storeEvent, hwrite]
    rfl
  have hperform : s.dev.performStore o a.lane = ((e.laneDone o.id a.lane (.done t [])).opTime o t).settleOp o.id := by
    rw [Dev.performStore, hb, hc, hgroup]
    simp only [hwhole, Bool.false_eq_true, if_false, hloc, hevent]
  have hexec : exec (.storePerform o.id a.lane) s = .next { s with dev := s.dev.performStore o a.lane } := by
    change execStorePerform o.id a.lane s = _
    rw [execStorePerform, onDev, hop]
    refine congrArg (fun d => Host.Outcome.next { s with dev := d }) ?_
    exact (if_neg (by rw [hkind]; decide)).trans hturn
  have hop' : e.op? o.id = some o := by
    rw [Dev.op?, hstored.memops]
    exact hop
  obtain ⟨hended, hendedloc⟩ := laneEnded_fields e o a.lane (.done t []) t
  obtain ⟨hsettled, hsettledloc⟩ := settleOp_bytes (op?_opTime rfl t (op?_laneDone a.lane (.done t []) hop')) hkind
  rw [← hperform] at hsettled hsettledloc
  exact ⟨_, hexec, hsettledloc.trans (hendedloc.trans hstored.locmem),
    storesAt_stored hstored hm.1 hsound (sameBytes_trans hended hsettled)⟩

theorem storePerform_spill {lane : Nat} (hop : s.dev.op? o.id = some o) (hkind : o.kind = .spill) :
    ∃ t, exec (.storePerform o.id lane) s = .next t ∧ t.dev.op? o.id = none ∧ t.dev.mem = s.dev.mem ∧ t.dev.locmem = s.dev.locmem := by
  have hexec : exec (.storePerform o.id lane) s = .next { s with dev := s.dev.endOp o } := by
    change execStorePerform o.id lane s = _
    rw [execStorePerform, onDev, hop]
    refine congrArg (fun d => Host.Outcome.next { s with dev := d }) ?_
    exact if_pos hkind
  refine ⟨_, hexec, ?_, ?_, ?_⟩ <;> dsimp only
  all_goals rw [Dev.endOp, if_pos (by rw [hkind]; rfl)]
  · exact List.find?_eq_none.mpr fun p hp => by
      have hne : (p.id != o.id) = true := (List.mem_filter.mp hp).2
      simpa using hne
  · rfl
  · rfl

/-- The model's new value is the claims'. -/
theorem atNew_eq (op : AtOp) (old v put : Nat) : atNew op old v put = atomicResult op old v put := by
  cases op with
  | minI =>
    simp only [atNew, atomicResult]
    rcases lt_or_ge (BitVec.ofNat 32 v).toInt (BitVec.ofNat 32 old).toInt with hlt | hle
    · rw [if_pos hlt, if_neg (not_le.mpr hlt)]
    · rw [if_neg (not_lt.mpr hle), if_pos hle]
  | maxI =>
    simp only [atNew, atomicResult]
    rcases lt_or_ge (BitVec.ofNat 32 old).toInt (BitVec.ofNat 32 v).toInt with hlt | hle
    · rw [if_pos hlt, if_neg (not_le.mpr hlt)]
    · rw [if_neg (not_lt.mpr hle), if_pos hle]
  | addI32 | addI64 | addF32 | minN | maxN | and | or | xor | xchg | cas => rfl

theorem homeAtomic_performs {op : AtOp} {d : VReg} {pa : Nat} (h : NextAccess s o a) (hm : memOk s) (hkind : o.kind = .atom op d)
    (hloc : a.loc = .glob pa) (hsound : Claims.Sound s o.ctx pa a.n) :
    ∃ t, exec (.homeAtomic o.id a.lane) s = .next t ∧ t.dev.locmem = s.dev.locmem ∧ Performed s t o a.lane (s.dev.readGlob o.ctx pa a.n).1 ∧
      StoresAt s t o.ctx pa (leBytes a.n (atomicResult op (leNat (s.dev.readGlob o.ctx pa a.n).1) (field a.data 0 8) (field a.data 8 4))) := by
  have hfind := find_of_next h
  have hturn := inTurn_of_next h (p := MemKind.updates) (by rw [hkind]; rfl) fun o => s.dev.performAtomic o a.lane
  obtain ⟨hop, -⟩ := h
  have hchange : ∀ old, o.change a old = leBytes a.n (atomicResult op (leNat old) (field a.data 0 8) (field a.data 8 4)) := fun old => by
    rw [MemOp.change, hkind, ← atNew_eq]
  obtain ⟨x, e, t, hwrite, hx, he⟩ := homeRmw_written (f := fun _ => o.change a) (fun _ _ => by rw [hchange, leBytes_length]) hsound none true o.clock
  have hstored : StoredDev s.dev e o.ctx pa (o.change a (s.dev.readGlob o.ctx pa a.n).1) := ⟨x, hx, he⟩
  have hop' : e.op? o.id = some o := by
    rw [Dev.op?, hstored.memops]
    exact hop
  have hdone := op?_opTime (w := o) rfl t (op?_laneDone a.lane (.done t (s.dev.readGlob o.ctx pa a.n).1) hop')
  have hperform : s.dev.performAtomic o a.lane = (e.laneDone o.id a.lane (.done t (s.dev.readGlob o.ctx pa a.n).1)).opTime o t := by
    rw [Dev.performAtomic, hfind]
    simp only [hloc, hkind]
    rw [hwrite]
    exact settleOp_atom hdone hkind
  obtain ⟨hended, hendedloc⟩ := laneEnded_fields e o a.lane (.done t (s.dev.readGlob o.ctx pa a.n).1) t
  have hexec : exec (.homeAtomic o.id a.lane) s = .next { s with dev := s.dev.performAtomic o a.lane } := by
    change execHomeAtomic o.id a.lane s = _
    rw [execHomeAtomic, onDev, hturn]
  rw [hperform] at hexec
  rw [← hchange]
  exact ⟨_, hexec, hendedloc.trans hstored.locmem, performed_of hdone,
    storesAt_stored hstored hm.1 (by rw [hchange, leBytes_length]; exact hsound) hended⟩

end

/-! ## Completed loads (R177) -/

section
variable {s : State} {o : MemOp}

/-- What LOAD_COMPLETE leaves of a wave. -/
def withLoaded (o : MemOp) (w : Wave) : Wave := { w with v := w.v.mapIdx fun v r => r.mapIdx fun l x => (o.newLane v l).getD x }

theorem lane_withLoaded (o : MemOp) (w : Wave) (v l : Nat) :
    ((withLoaded o w).v[v]?).bind (·[l]?) = (w.v[v]?).bind fun r => (r[l]?).map fun x => (o.newLane v l).getD x := by
  rw [withLoaded, List.getElem?_mapIdx]
  cases w.v[v]? with
  | none => rfl
  | some r => exact List.getElem?_mapIdx

theorem loadLanes_loaded (w : LdW) (bs : List Byte) {j : Nat} (hj : j < (ldWidth w).2) : (loadLanes w bs)[j]? = some (loaded w bs j) := by
  cases w with
  | i8 | i16 | n8 | n16 | w32 =>
    obtain rfl : j = 0 := Nat.lt_one_iff.mp hj
    simp [loadLanes, loaded, lane32]
  | w64 =>
    have hj' : j < 2 := hj
    interval_cases j <;> simp [loadLanes, loaded, lane32]
  | w128 =>
    have hj' : j < 4 := hj
    interval_cases j <;> simp [loadLanes, loaded, lane32]

theorem loadLanes_length (w : LdW) (bs : List Byte) : (loadLanes w bs).length = (ldWidth w).2 := by cases w <;> rfl

theorem newLane_load {w : LdW} {d : VReg} {a : LaneAcc} {time : Nat} {bs : List Byte} (hkind : o.kind = .load w d) (hnodup : (o.lanes.map (·.lane)).Nodup)
    (ha : a ∈ o.lanes) (hst : a.st = .done time bs) (v : Nat) :
    o.newLane v a.lane = if d.toNat ≤ v then (loadLanes w bs)[v - d.toNat]? else none := by
  have hfind : o.lanes.find? (·.lane == a.lane) = some a := by
    rw [List.find?_eq_some_iff_append]
    obtain ⟨l₁, l₂, hl⟩ := List.append_of_mem ha
    refine ⟨by simp, l₁, l₂, hl, fun b hb => ?_⟩
    rw [hl, List.map_append, List.map_cons, List.nodup_append] at hnodup
    obtain ⟨-, -, hdisjoint⟩ := hnodup
    have hne := hdisjoint b.lane (List.mem_map.mpr ⟨b, hb, rfl⟩) a.lane List.mem_cons_self
    simpa using hne
  obtain ⟨lane, ea, loc, n, data, st⟩ := a
  simp only at hst hfind
  subst hst
  rw [MemOp.newLane, hfind, hkind]

theorem newLane_other {l : Nat} (h : ∀ a ∈ o.lanes, a.lane ≠ l) (v : Nat) : o.newLane v l = none := by
  have hfind : o.lanes.find? (·.lane == l) = none := List.find?_eq_none.mpr fun a ha => by simpa using h a ha
  rw [MemOp.newLane, hfind]

theorem loadComplete_writes {w : LdW} {d : VReg} {x : Wave} (hop : s.dev.op? o.id = some o) (hkind : o.kind = .load w d)
    (hx : s.dev.wave? o.wave = some x) (hdone : ∀ a ∈ o.lanes, ∃ time bytes, a.st = .done time bytes) :
    ∃ t, exec (.loadComplete o.id) s = .next t ∧ t.dev.op? o.id = none ∧ t.dev.mem = s.dev.mem ∧ t.dev.locmem = s.dev.locmem ∧
      t.dev.wave? o.wave = some (withLoaded o x) := by
  have hfinished : o.finished = true := List.all_eq_true.mpr fun a ha => by
    obtain ⟨time, bytes, hst⟩ := hdone a ha
    rw [LaneAcc.isOpen, hst]
    rfl
  have hfailures : o.failures = [] := List.filter_eq_nil_iff.mpr fun a ha => by
    obtain ⟨time, bytes, hst⟩ := hdone a ha
    rw [LaneAcc.failure, hst]
    exact Bool.false_ne_true
  have hend : ∀ d : Dev, d.endOp o = { d with memops := d.memops.filter (·.id != o.id) } := fun d => by
    rw [Dev.endOp, hkind, hfailures]
    rfl
  have hexec : exec (.loadComplete o.id) s = .next { s with dev := (s.dev.modWave o.wave (withLoaded o)).endOp o } := by
    change execLoadComplete o.id s = _
    rw [execLoadComplete, onDev, hop]
    simp only [hfinished, hkind, MemKind.inLd, Bool.not_true, Bool.or_self, Bool.false_eq_true, if_false, hfailures, List.isEmpty_nil]
    rfl
  rw [hend] at hexec
  refine ⟨_, hexec, List.find?_eq_none.mpr fun p hp => ?_, rfl, rfl, ?_⟩
  · have hne : (p.id != o.id) = true := (List.mem_filter.mp hp).2
    simpa using hne
  · exact wave?_modWave_self (f := withLoaded o) (fun _ => rfl) hx

end

/-! ## Deferred reports (R178) -/

section
variable {s : State} {o : MemOp}

theorem foldl_failMask (l : List LaneAcc) (m : LaneMask) {i : Nat} (hi : i < 32) :
    (l.foldl (fun (m : LaneMask) a => m ||| (1#32 <<< a.lane)) m).getLsbD i = true ↔ m.getLsbD i = true ∨ ∃ a ∈ l, a.lane = i := by
  induction l generalizing m with
  | nil => simp
  | cons a l ih =>
    rw [List.foldl_cons, ih]
    have hbit : (1#32 <<< a.lane).getLsbD i = true ↔ a.lane = i := by
      rw [BitVec.getLsbD_shiftLeft, BitVec.getLsbD_one]
      simp only [Bool.and_eq_true, decide_eq_true_eq, Bool.not_eq_true', decide_eq_false_iff_not]
      omega
    rw [BitVec.getLsbD_or, Bool.or_eq_true, hbit]
    constructor
    · rintro ((h | h) | ⟨b, hb, h⟩)
      · exact .inl h
      · exact .inr ⟨a, List.mem_cons_self, h⟩
      · exact .inr ⟨b, List.mem_cons_of_mem a hb, h⟩
    · rintro (h | ⟨b, hb, h⟩)
      · exact .inl (.inl h)
      · rcases List.mem_cons.mp hb with rfl | hb
        · exact .inl (.inr h)
        · exact .inr ⟨b, hb, h⟩

theorem failMask_iff {i : Nat} (hi : i < 32) : o.failMask.getLsbD i = true ↔ ∃ a ∈ o.failures, a.lane = i := by
  rw [MemOp.failMask, foldl_failMask _ _ hi]
  simp

theorem memoryCause_iff (c : Nat) : memoryCause c = true ↔ c ∈ [cXlate, cRights, cAlign, cIntegrity, cPairtimeout] := by
  simp only [memoryCause, Bool.or_eq_true, beq_iff_eq, List.mem_cons, List.not_mem_nil, or_false, or_assoc]

end

/-- A deferred cause takes a wave that has a handler and stands at a boundary into it (R178, R309). -/
theorem raiseDeferred_enters {d : Dev} {n : Nat} {w : Wave} {b : Block} (hw : d.wave? n = some w) (hb : d.block? w.block = some b)
    (hbusy : w.busy = false) (hin : w.inHandler = false) (htvec : w.tvec ≠ 0) (hclaims : (d.core b.core).claims.any (·.1 == n) = false)
    (hasks : d.asksFor n = false) (c : Nat) : d.raiseDeferred n c = d.modWave n (entersHandler c) := by
  have hguard : (w.inHandler || w.tvec == 0) = false := by
    rw [hin, Bool.false_or, beq_eq_false_iff_ne]
    exact htvec
  have hset : (d.modWave n (·.setCause c)).wave? n = some (w.setCause c) := wave?_modWave_self (fun _ => rfl) hw
  have hbusy' : (w.setCause c).busy = false := hbusy
  have hasks' : ((d.modWave n (·.setCause c)).modWave n Wave.enter).asksFor n = false := hasks
  have hb' : ((d.modWave n (·.setCause c)).modWave n Wave.enter).block? (w.setCause c).block = some b := hb
  have hclaims' : (((d.modWave n (·.setCause c)).modWave n Wave.enter).core b.core).claims.any (·.1 == n) = false := hclaims
  have henter : d.raiseDeferred n c = (d.modWave n (·.setCause c)).modWave n Wave.enter := by
    simp only [Dev.raiseDeferred, hw, hguard, Bool.false_eq_true, if_false, Dev.enterHandler, hset, hbusy']
    rw [Dev.dropAsks, hasks']
    simp only [Bool.false_eq_true, if_false, hb', hclaims']
  rw [henter]
  simp only [Dev.modWave]
  rw [modIf_modIf (fun x : Wave => x.id == n) (·.setCause c) Wave.enter fun _ => rfl]
  simp only [enter_setCause]

/-- The wave with the record of a report (R307). -/
def withRecordOf (o : MemOp) (a : LaneAcc) (c : Nat) (m : LaneMask) (y : Wave) : Wave :=
  { y with fault := if c ∈ [cXlate, cRights, cAlign, cIntegrity, cPairtimeout] then ⟨BitVec.ofNat 64 a.ea, c, m, o.pc, true⟩ else y.fault }

theorem deferredReport_enters {s : State} {n : Nat} {o : MemOp} {a : LaneAcc} {rest : List LaneAcc} {x : Wave} {b : Block} {c : Nat}
    (hreport : s.dev.reports.find? (fun r => s.dev.reportWave r == n) = some o) (hx : s.dev.wave? n = some x)
    (hb : s.dev.block? x.block = some b) (hlive : x.live = true) (hbusy : x.busy = false) (hin : x.inHandler = false) (htvec : x.tvec ≠ 0)
    (hclaims : (s.dev.core b.core).claims.any (·.1 == x.id) = false) (hasks : s.dev.asksFor x.id = false) (hfail : o.failures = a :: rest)
    (hst : a.st = .failed c) :
    exec (.deferredReport n) s = .next { s with dev := { s.dev with
      reports := s.dev.reports.filter (·.id != o.id)
      waves := s.dev.waves.map fun y => if y.id = n then entersHandler c (withRecordOf o a c o.failMask y) else y } } := by
  obtain rfl : x.id = n := by simpa using List.find?_some hx
  have hcause : a.failure.getD 0 = c := by
    rw [LaneAcc.failure, hst]
    rfl
  generalize hd : ({ s.dev with reports := s.dev.reports.filter (·.id != o.id) } : Dev) = d
  have hdw : d.wave? x.id = some x := by rw [← hd]; exact hx
  have hdb : d.block? x.block = some b := by rw [← hd]; exact hb
  have hdc : (d.core b.core).claims.any (·.1 == x.id) = false := by rw [← hd]; exact hclaims
  have hda : d.asksFor x.id = false := by rw [← hd]; exact hasks
  have hrecord : (if memoryCause c then d.setFault x.id (BitVec.ofNat 64 a.ea) c o.failMask o.pc else d) =
      d.modWave x.id (withRecordOf o a c o.failMask) := by
    by_cases hmem : c ∈ [cXlate, cRights, cAlign, cIntegrity, cPairtimeout]
    · rw [if_pos ((memoryCause_iff c).mpr hmem), Dev.setFault]
      exact congrArg (d.modWave x.id) (funext fun y => by rw [withRecordOf, if_pos hmem])
    · rw [if_neg (fun h => hmem ((memoryCause_iff c).mp h))]
      have hid : withRecordOf o a c o.failMask = id := funext fun y => by
        rw [withRecordOf, if_neg hmem]
        rfl
      rw [hid, Dev.modWave, modIf]
      simp
  have hraise : (d.modWave x.id (withRecordOf o a c o.failMask)).raiseDeferred x.id c =
      d.modWave x.id fun y => entersHandler c (withRecordOf o a c o.failMask y) := by
    rw [raiseDeferred_enters (w := withRecordOf o a c o.failMask x) (b := b) (wave?_modWave_self (fun _ => rfl) hdw) hdb hbusy hin htvec hdc hda c]
    simp only [Dev.modWave]
    rw [modIf_modIf (fun y : Wave => y.id == x.id) (withRecordOf o a c o.failMask) (entersHandler c) fun _ => rfl]
  have hexec : exec (.deferredReport x.id) s = .next { s with dev := d.modWave x.id fun y => entersHandler c (withRecordOf o a c o.failMask y) } := by
    change execDeferredReport x.id s = _
    rw [execDeferredReport, onDev, hreport]
    refine congrArg (fun d => Host.Outcome.next { s with dev := d }) ?_
    simp only [hx, hlive, hbusy, hfail, hcause, Bool.not_true, Bool.false_eq_true, if_false, hd, hrecord]
    exact hraise
  rw [hexec, ← hd]
  simp only [Dev.modWave, modIf, beq_iff_eq]

/-- Settles O29: loads, stores and atomics at their homes, completed loads and deferred reports. -/
theorem homeSteps : Obligations.HomeSteps := by
  unfold Obligations.HomeSteps
  refine ⟨⟨?_, ?_, ?_, ?_⟩, ?_, ?_⟩
  · exact fun s o a w d pa lease h hkind hloc hread => homeLoad_performs h hkind hloc hread
  · exact fun s o a pa h hm hkind hloc hsound => storePerform_stores h hm hkind hloc hsound
  · exact fun s o lane hop hkind => storePerform_spill hop hkind
  · exact fun s o a op d pa h hm hkind hloc _ hsound => homeAtomic_performs h hm hkind hloc hsound
  · intro s o w d x hop hkind hx hnodup hdone
    obtain ⟨t, hexec, hgone, hmem, hloc, hwave⟩ := loadComplete_writes hop hkind hx hdone
    refine ⟨t, withLoaded o x, hexec, hgone, hmem, hloc, hwave, rfl, rfl, rfl, ?_, ?_⟩
    · intro a ha time bytes hst j hj r hr hlane
      rw [lane_withLoaded, hr, newLane_load hkind hnodup ha hst, if_pos (by omega), Nat.add_sub_cancel_left, loadLanes_loaded w bytes hj]
      simp [List.getElem?_eq_getElem hlane]
    · intro v l hout
      have hnone : o.newLane v l = none := by
        by_cases hl : ∀ a ∈ o.lanes, a.lane ≠ l
        · exact newLane_other hl v
        · push Not at hl
          obtain ⟨a, ha, rfl⟩ := hl
          obtain ⟨time, bytes, hst⟩ := hdone a ha
          rw [newLane_load hkind hnodup ha hst]
          rcases hout with hv | hl
          · split
            · exact List.getElem?_eq_none (by rw [loadLanes_length]; omega)
            · rfl
          · exact absurd rfl (hl a ha)
      rw [lane_withLoaded, hnone]
      cases x.v[v]? with
      | none => rfl
      | some r => simp
  · intro s n o a rest x b c hreport hx hb hlive hbusy hin htvec hclaims hasks hfail hst
    refine ⟨o.failMask, fun l hl => failMask_iff hl, ?_⟩
    exact deferredReport_enters hreport hx hb hlive hbusy hin htvec hclaims hasks hfail hst

end Sys2Proof.Proofs
end

section
/-!
PROOFS. Tensor copies at issue (06: R191, R192): O30 fails, as a stamp's address is looked up before the tag is refused.
-/

open Sys2Proof Sys2Proof.Machine Sys2Proof.Claims

-- The whole text is compiled in one process, which can hold few threads: these proofs are elaborated in order.
set_option Elab.async false

namespace Sys2Proof.Proofs

/-! ## A refused copy that has looked its stamp's address up

`tcpy.g2g.stamp` looks the address of its stamp up in the TLBs (R258) before its tag is refused (R192). Where the die's TLB holds the
page and the core's does not, the core's TLB takes it. -/

/-- The page at 0 in the TLB of die 0. -/
def diePage : TlbEntry := ⟨dieTlb 0, 0, 4096, 0, 0, ⟨0, none, true, true, true⟩⟩

/-- A wave with a handler, its gang selected; its block has no tags. -/
def untagged : State := { State.reset with dev := { Dev.reset with
  latch := some ⟨257, 0xFF⟩
  waves := [Wave.new 257 256 0 (some 0) 1 0x1000 0 0x2000 0 0]
  blocks := [Block.plain 256 0 0]
  ctxs := [⟨0, 0, 0, 0, 0, 0, 0, 1, false, 0, 0, 0, 0, 0, none, false, 0⟩]
  tlb := [diePage] } }

/-- A copy with tag 0 and its stamp at address 0. -/
def tagZero : CopyOps := { sa := 0, sb := 0, sc := 0, sd := 0, tag := some 0 }

/-- The entries of the TLBs that a step leaves. -/
def tlbSize : Host.Outcome State Fault Refusal → Nat
  | .next t => t.dev.tlb.length
  | _ => 0

theorem tlbSize_refused : tlbSize (exec (.tcpyG2gStamp tagZero) untagged) = 2 := by rfl

theorem tlbSize_trapped (k : Issue) (hk : untagged.dev.issuer? = some k) : tlbSize (.next (after untagged fun d => d.trap k cRights)) = 1 := by
  obtain rfl := Option.some.inj hk
  rfl

/-- Refutes O30: a `tcpy.g2g.stamp` whose tag is refused leaves a translation in its core's TLB. -/
theorem not_copyInstructions : ¬ Obligations.CopyInstructions := by
  unfold Obligations.CopyInstructions
  rintro ⟨hissue, -⟩
  obtain ⟨k, hk⟩ : ∃ k, untagged.dev.issuer? = some k := ⟨_, rfl⟩
  obtain ⟨hrefused, -⟩ := hissue untagged k .g2gStamp tagZero hk
  have hleft := hrefused ⟨0, rfl, by
    obtain rfl := Option.some.inj hk
    decide⟩
  have hsize := tlbSize_refused
  rw [show exec (.tcpyG2gStamp tagZero) untagged = _ from hleft, tlbSize_trapped k hk] at hsize
  exact absurd hsize (by decide)

end Sys2Proof.Proofs
end

section
/-!
PROOFS. Copies: the checker, pieces and faults (06, 09: R195, R196, R198, R276): O31.
-/

open Sys2Proof Sys2Proof.Machine Sys2Proof.Claims

-- The whole text is compiled in one process, which can hold few threads: these proofs are elaborated in order.
set_option Elab.async false

namespace Sys2Proof.Proofs

/-! ## Jobs -/

section
variable {d : Dev} {id : Nat} {j : Job}

theorem job?_id (h : d.job? id = some j) : j.id = id := by simpa using List.find?_some h

theorem job?_modJob {f : Job → Job} (hf : ∀ x, (f x).id = x.id) (h : d.job? id = some j) : (d.modJob id f).job? id = some (f j) := by
  have hkeep : ∀ x : Job, (x.id == id) = true → ((f x).id == id) = true := fun x hx => by rw [hf]; exact hx
  exact (find?_modIf_same hkeep d.jobs).trans (congrArg (Option.map f) h)

/-- A job with its copy changed. -/
def withCopy (f : Copy → Copy) (x : Job) : Job :=
  match x.kind with
  | .copy c => { x with kind := .copy (f c) }
  | _ => x

theorem modCopy_eq (d : Dev) (id : Nat) (f : Copy → Copy) : d.modCopy id f = d.modJob id (withCopy f) := rfl

theorem withCopy_id (f : Copy → Copy) (x : Job) : (withCopy f x).id = x.id := by
  rw [withCopy]
  split <;> rfl

theorem job?_modCopy {c : Copy} (f : Copy → Copy) (h : d.job? id = some j) (hkind : j.kind = .copy c) :
    (d.modCopy id f).job? id = some { j with kind := .copy (f c) } := by
  rw [modCopy_eq, job?_modJob (withCopy_id f) h, withCopy, hkind]

theorem job?_endJob (time : Nat) : (d.endJob id time).job? id = none :=
  List.find?_eq_none.mpr fun x hx => by
    obtain ⟨y, hy, rfl⟩ := List.mem_map.mp hx
    have hne : (y.id != id) = true := (List.mem_filter.mp hy).2
    split
    · simpa using hne
    · simpa using hne

theorem copy?_eq {c : Copy} (hkind : j.kind = .copy c) : j.copy? = some c := by rw [Job.copy?, hkind]

theorem copyOf_eq {t : State} {c : Copy} (h : t.dev.job? id = some j) (hkind : j.kind = .copy c) : copyOf t id = some c := by
  rw [copyOf, h]
  exact copy?_eq hkind

end

/-! ## The checker (R276) -/

theorem conflicts_iff (x y : Foot) :
    x.conflicts y = true ↔ x.space = y.space ∧ (x.write = true ∨ y.write = true) ∧ x.lo < y.hi ∧ y.lo < x.hi := by
  rw [Foot.conflicts, Bool.and_eq_true, Bool.and_eq_true, beq_iff_eq, Bool.or_eq_true, decide_eq_true_eq, and_assoc]

/-- A job that enters: what it becomes, and what it is ordered after. -/
theorem job?_enterJob {d : Dev} {j : Job} (h : d.job? j.id = some j) (foot : List Foot) :
    ∃ j', (d.enterJob j.id foot).job? j.id = some j' ∧ j'.entered = true ∧ j'.kind = j.kind ∧ j'.foot = foot ∧
      ∀ n, n ∈ j'.after ↔ ∃ i ∈ jobsBefore j.id d.jobs, i.id = n ∧ i.ctx = j.ctx ∧ ∃ x ∈ i.foot, ∃ y ∈ foot, x.conflicts y = true := by
  refine ⟨_, job?_modJob (fun _ => rfl) h, rfl, rfl, rfl, fun n => ?_⟩
  simp only [List.mem_map, List.mem_filter, Bool.and_eq_true, beq_iff_eq, List.any_eq_true]
  constructor
  · rintro ⟨i, ⟨hi, hctx, hfoot⟩, hid⟩
    exact ⟨i, hi, hid, hctx, hfoot⟩
  · rintro ⟨i, hi, hid, hctx, hfoot⟩
    exact ⟨i, ⟨hi, hctx, hfoot⟩, hid⟩

/-- A job whose turn it is enters. -/
theorem footprintEnter_turn {s : State} {j : Job} (hj : s.dev.job? j.id = some j) (hout : j.entered = false)
    (hbefore : ∀ i ∈ s.dev.jobs.takeWhile (·.id != j.id), i.ctx = j.ctx → i.entered = true)
    (hroom : (s.dev.jobs.filter fun i => i.ctx == j.ctx && i.entered).length < 1024) :
    exec (.footprintEnter j.id) s = .next { s with dev :=
      match j.kind with
      | .copy c => if c.whole.isSome || c.skipAll then s.dev else s.dev.enterCopy j c
      | _ => s.dev.enterJob j.id j.foot } := by
  have hholds : s.dev.checkerHolds j.ctx = false := decide_eq_false (not_le.mpr hroom)
  have hany : ((jobsBefore j.id s.dev.jobs).any fun i => i.ctx == j.ctx && !i.entered) = false := by
    rw [List.any_eq_false]
    intro i hi hwait
    rw [Bool.and_eq_true, beq_iff_eq] at hwait
    rw [hbefore i hi hwait.1] at hwait
    exact Bool.false_ne_true hwait.2
  change execFootprintEnter j.id s = _
  rw [execFootprintEnter, onDev, hj]
  refine congrArg (fun d => Host.Outcome.next { s with dev := d }) ?_
  simp only [hout, hholds, hany, Bool.or_self, Bool.false_eq_true, if_false] <;> rfl

theorem footprintEnter_job {s : State} {j : Job} (hj : s.dev.job? j.id = some j) (hout : j.entered = false) (hkind : ∀ c, j.kind ≠ .copy c)
    (hbefore : ∀ i ∈ s.dev.jobs.takeWhile (·.id != j.id), i.ctx = j.ctx → i.entered = true)
    (hroom : (s.dev.jobs.filter fun i => i.ctx == j.ctx && i.entered).length < 1024) :
    exec (.footprintEnter j.id) s = .next { s with dev := s.dev.enterJob j.id j.foot } := by
  rw [footprintEnter_turn hj hout hbefore hroom]
  split
  next c hc => exact absurd hc (hkind c)
  next => rfl

/-- The reading of a record leaves the copy's job, whose clock may have risen. -/
theorem job?_recordBytes {d e : Dev} {j : Job} {c : Copy} {b : Block} {x : Ctx} {piece addr : Nat} {bs : List Byte} (hj : d.job? j.id = some j)
    (h : d.recordBytes j c b x piece addr = (e, some (.ok bs))) : ∃ t, e.job? j.id = some { j with clock := max j.clock t } := by
  have hzero : d.job? j.id = some { j with clock := max j.clock 0 } := by rw [Nat.max_zero]; exact hj
  have hlooked : (d.looked b.core x addr).jobs = d.jobs := by rw [LoadedDev.of_cachedDev (.looked d b.core x addr)]
  rw [Dev.recordBytes] at h
  split at h
  · simp at h
  · dsimp only at h
    split at h
    · simp at h
    next pa _ =>
      rw [Prod.mk.injEq] at h
      have hload : ((d.looked b.core x addr).homeLoad x.n (.glob pa) 64 j.clock 1).1.jobs = d.jobs := by
        rw [loaded_homeLoad (d.looked b.core x addr) x.n pa 64 j.clock 1]
        exact hlooked
      have hj' : ((d.looked b.core x addr).homeLoad x.n (.glob pa) 64 j.clock 1).1.job? j.id = some j := by
        rw [Dev.job?, hload]
        exact hj
      rw [← h.1]
      exact ⟨_, job?_modJob (fun _ => rfl) hj'⟩
    · split at h
      · simp at h
      · rw [Prod.mk.injEq] at h
        rw [← h.1]
        exact ⟨0, hzero⟩
      · split at h
        · simp at h
        · split at h <;> simp at h
      · split at h <;> simp at h

theorem footprintEnter_copy {s : State} {j : Job} {c : Copy} {b : Block} {x : Ctx} {d : Dev} {bs : List Byte} {la : Layout}
    (hj : s.dev.job? j.id = some j) (hkind : j.kind = .copy c) (hb : s.dev.block? j.block = some b) (hx : s.dev.ctx? j.ctx = some x)
    (hout : j.entered = false) (hwhole : c.whole = none) (hskip : c.skipAll = false) (hone : c.form.twoBoxes = false)
    (hbefore : ∀ i ∈ s.dev.jobs.takeWhile (·.id != j.id), i.ctx = j.ctx → i.entered = true)
    (hroom : (s.dev.jobs.filter fun i => i.ctx == j.ctx && i.entered).length < 1024)
    (hread : s.dev.recordBytes j c b x recPieceA c.recA = (d, some (.ok bs))) (hla : Layout.parse bs = some la) {c' : Copy}
    (hc' : c' = { c with layA := some la, layB := none, pieces := (c.pieces.filter (·.1 != recPieceA)).filter (·.1 != recPieceB) })
    (hcheck : c'.boxCheck b la none = none) :
    ∃ t j', exec (.footprintEnter j.id) s = .next t ∧ t.dev.job? j.id = some j' ∧ j'.entered = true ∧ j'.kind = .copy c' ∧ j'.foot = c'.foot b := by
  obtain ⟨t, hjob⟩ := job?_recordBytes hj hread
  have hset := job?_modCopy (fun _ => c') hjob hkind
  obtain ⟨j', hj', hin, hkind', hfoot, -⟩ := job?_enterJob (j := { j with clock := max j.clock t, kind := .copy c' }) hset (c'.foot b)
  have henter : s.dev.enterCopy j c = (d.modCopy j.id fun _ => c').enterJob j.id (c'.foot b) := by
    rw [Dev.enterCopy, hb, hx]
    simp only [hread, hla, hone, Bool.not_false, if_true]
    rw [show (Copy.dropPiece (c.dropPiece recPieceA) recPieceB) = { c with
      pieces := (c.pieces.filter (·.1 != recPieceA)).filter (·.1 != recPieceB) } from rfl]
    simp only [← hc', hcheck]
  refine ⟨_, j', footprintEnter_turn hj hout hbefore hroom, ?_, hin, hkind', hfoot⟩
  simp only [hkind, hwhole, hskip, Option.isSome_none, Bool.or_self, Bool.false_eq_true, if_false, henter]
  exact hj'

/-! ## Pieces (R195, R196) -/

section
variable {s : State} {j : Job} {c : Copy}

theorem piece?_setPiece (c : Copy) (p : Nat) (st : PieceSt) : (c.setPiece p st).piece? p = some st := by
  have hfind := find?_upsert_same (p := fun x : Nat × PieceSt => x.1 == p) (f := fun _ => (p, st)) (new := (p, st)) (fun _ _ => beq_self_eq_true p)
    (beq_self_eq_true p) c.pieces
  exact congrArg (Option.map Prod.snd) hfind

/-- What sending a piece's requests changes. -/
def AskedDev (d e : Dev) : Prop := e = { d with remotes := e.remotes, out := e.out, nextId := e.nextId, atsAsked := e.atsAsked }

theorem AskedDev.trans {a b c : Dev} (h : AskedDev a b) (g : AskedDev b c) : AskedDev a c := by
  rw [AskedDev] at *
  rw [g, h]

theorem AskedDev.foldl {α : Type} {f : Dev → α → Dev} (hf : ∀ d x, AskedDev d (f d x)) (l : List α) (d : Dev) : AskedDev d (l.foldl f d) := by
  induction l generalizing d with
  | nil => rfl
  | cons x l ih => exact (hf d x).trans (ih _)

theorem askedDev_jobRequest (d : Dev) (j : Job) (piece off : Nat) (loc : Loc) (ask : RemoteAsk) : AskedDev d (d.jobRequest j piece off loc ask) := by
  rw [Dev.jobRequest]
  cases loc with
  | remote pkg pa => rfl
  | host a =>
    cases ask with
    | read n => rfl
    | write bs m => rfl
    | _ => rfl
  | glob pa => rfl
  | loc core sp a => rfl

theorem askedDev_askAts (d : Dev) (fn iova : Nat) : AskedDev d (d.askAts fn iova) := by
  rw [Dev.askAts]
  split
  · rfl
  · rfl

theorem askedDev_requestReads (d : Dev) (j : Job) (c : Copy) (b : Block) (x : Ctx) (p : Nat) : AskedDev d (d.requestReads j c b x p) := by
  rw [Dev.requestReads]
  refine AskedDev.foldl (fun d w => ?_) _ d
  split
  · exact askedDev_jobRequest _ _ _ _ _ _
  · split
    · exact askedDev_jobRequest _ _ _ _ _ _
    · exact askedDev_askAts _ _ _
  · rfl

/-- A package without servers charges and wakes none. -/
theorem modServer_none {d : Dev} (h : d.servers = []) (ctx : Nat) (p : Point) (f : Server → Server) : d.modServer ctx p f = d := by
  have hsame : modIf (fun s => s.args.ctx == ctx && s.args.point == p) f d.servers = d.servers := by
    rw [h]
    rfl
  rw [Dev.modServer, hsame]

theorem foldl_modServer_none {α : Type} {d : Dev} (h : d.servers = []) (ctx : α → Nat) (p : α → Point) (f : Dev → α → Server → Server) (l : List α) :
    l.foldl (fun d x => d.modServer (ctx x) (p x) (f d x)) d = d := by
  induction l with
  | nil => rfl
  | cons x l ih => rw [List.foldl_cons, modServer_none h, ih]

theorem server?_none {d : Dev} (h : d.servers = []) (ctx : Nat) (p : Point) : d.server? ctx p = none := by
  rw [Dev.server?, h]
  rfl

/-- The device in which the next piece has been chosen and counts as issued. -/
def pieceIssued (d : Dev) (pt : Point) (j : Job) (p : Nat) : Dev :=
  Dev.modCopy { d with picks := d.picks.filter (· != (pt, j.ctx)) } j.id fun c => { (c.setPiece p (.issued [] none)) with next := max c.next (p + 1) }

theorem copyPieceIssue_issues {b : Block} {x : Ctx} {p : Nat} (hj : s.dev.job? j.id = some j) (hkind : j.kind = .copy c)
    (hb : s.dev.block? j.block = some b) (hx : s.dev.ctx? j.ctx = some x) (hservers : s.dev.servers = []) (hin : j.entered = true)
    (hafter : j.after = []) (hnext : c.nextPiece = some p) (hpick : (Point.copy (dieOf b.core), j.ctx) ∈ s.dev.picks) :
    exec (.copyPieceIssue j.id) s = .next { s with dev :=
      ((pieceIssued s.dev (.copy (dieOf b.core)) j p).requestReads j c b x p).lookedAll b.core x (c.pages p) } := by
  have hmay : j.mayRun = true := by rw [Job.mayRun, hin, hafter]; rfl
  have hcontains : s.dev.picks.contains (Point.copy (dieOf b.core), j.ctx) = true := List.contains_iff_mem.mpr hpick
  have hwake : ∀ loads, s.dev.wakePath j.ctx loads = s.dev := fun loads => foldl_modServer_none hservers _ _ _ loads
  have hengine : ∀ n, s.dev.engineReady j.ctx (.copy (dieOf b.core)) n = true := fun n => by
    rw [Dev.engineReady, server?_none hservers]
  have hpath : ∀ loads, s.dev.pathReady j.ctx loads = true := fun loads => List.all_eq_true.mpr fun l _ => by
    rw [server?_none hservers]
  have hcharge : ∀ (d : Dev), d.servers = [] → ∀ (pt : Point) (n : Nat) (loads : List (Point × Nat)),
      loads.foldl (fun d l => d.chargeAt j.ctx l.1 0 l.2) (d.chargeAt j.ctx pt 0 n) = d := fun d hd pt n loads => by
    rw [show d.chargeAt j.ctx pt 0 n = d from modServer_none hd _ _ _]
    exact foldl_modServer_none hd _ _ _ loads
  change execCopyPieceIssue j.id s = _
  rw [execCopyPieceIssue, onDev, hj]
  refine congrArg (fun d => Host.Outcome.next { s with dev := d }) ?_
  simp only [copy?_eq hkind, hb, hx, hnext, hmay, hcontains, hwake, hengine, hpath, Bool.not_true, Bool.or_self, Bool.false_eq_true, if_false]
  rw [hcharge { s.dev with picks := s.dev.picks.filter (· != (Point.copy (dieOf b.core), j.ctx)) } hservers]
  rfl

theorem copyPieceIssue_leaves {b : Block} {x : Ctx} {p : Nat} (hj : s.dev.job? j.id = some j) (hkind : j.kind = .copy c)
    (hb : s.dev.block? j.block = some b) (hx : s.dev.ctx? j.ctx = some x) (hservers : s.dev.servers = []) (hin : j.entered = true)
    (hafter : j.after = []) (hnext : c.nextPiece = some p) (hpick : (Point.copy (dieOf b.core), j.ctx) ∈ s.dev.picks) :
    ∃ t c', exec (.copyPieceIssue j.id) s = .next t ∧ copyOf t j.id = some c' ∧ c'.piece? p = some (.issued [] none) ∧
      c'.next = max c.next (p + 1) ∧ (Point.copy (dieOf b.core), j.ctx) ∉ t.dev.picks ∧ t.dev.mem = s.dev.mem ∧
      t.dev.locmem = s.dev.locmem := by
  have hexec := copyPieceIssue_issues hj hkind hb hx hservers hin hafter hnext hpick
  generalize hy : pieceIssued s.dev (.copy (dieOf b.core)) j p = y at hexec
  have hasked := askedDev_requestReads y j c b x p
  have hlooked := LoadedDev.of_cachedDev (CachedDev.lookedAll (y.requestReads j c b x p) b.core x (c.pages p))
  have hjob : y.job? j.id = some { j with kind := .copy { (c.setPiece p (.issued [] none)) with next := max c.next (p + 1) } } := by
    rw [← hy]
    exact job?_modCopy _ (show Dev.job? { s.dev with picks := _ } j.id = some j from hj) hkind
  have hrest : ∀ z, LoadedDev (y.requestReads j c b x p) z → z.jobs = y.jobs ∧ z.picks = y.picks ∧ z.mem = y.mem ∧ z.locmem = y.locmem := fun z hz => by
    rw [hz, hasked]
    exact ⟨rfl, rfl, rfl, rfl⟩
  obtain ⟨hjobs, hpicks, hmem, hloc⟩ := hrest _ hlooked
  refine ⟨_, _, hexec, copyOf_eq (j := { j with kind := .copy { (c.setPiece p (.issued [] none)) with next := max c.next (p + 1) } }) ?_ rfl,
    piece?_setPiece c p _, rfl, ?_, hmem.trans (by rw [← hy]; rfl), hloc.trans (by rw [← hy]; rfl)⟩
  · change List.find? _ (Dev.jobs _) = _
    rw [hjobs]
    exact hjob
  · rw [hpicks, ← hy]
    intro hstill
    have hne := (List.mem_filter.mp (show (Point.copy (dieOf b.core), j.ctx) ∈ s.dev.picks.filter (· != (Point.copy (dieOf b.core), j.ctx)) from hstill)).2
    simp at hne

end

section
variable {s : State} {j : Job} {c : Copy} {p time : Nat} {got : List (Nat × List Byte)}

theorem landPiece_unbarred {d : Dev} (hbar : c.bar = none) (p t : Nat) (skip : Bool) :
    d.landPiece j c p t skip = d.modCopy j.id fun c => { (c.dropPiece p) with time := max c.time t, skipped := c.skipped || skip } := by
  rw [Dev.landPiece, Dev.tellBarrier, hbar]

/-- The copy of which a piece has landed. -/
def landed (c : Copy) (p time : Nat) : Copy := { c with pieces := c.pieces.filter (·.1 != p), time := max c.time time }

theorem pieceLand_lands (hj : s.dev.job? j.id = some j) (hkind : j.kind = .copy c) (hblock : (s.dev.block? j.block).isSome = true)
    (hctx : (s.dev.ctx? j.ctx).isSome = true) (hawaits : s.dev.awaits j.id p = false) (hpiece : c.piece? p = some (.issued got (some time)))
    (hp : p < recPieceA) (hbar : c.bar = none) :
    exec (.pieceLand j.id p) s = .next { s with dev := (s.dev.modCopy j.id fun c => { (c.dropPiece p) with time := max c.time time, skipped := c.skipped || false }).copyOver j.id } := by
  obtain ⟨b, hb⟩ := Option.isSome_iff_exists.mp hblock
  obtain ⟨x, hx⟩ := Option.isSome_iff_exists.mp hctx
  change execPieceLand j.id p s = _
  rw [execPieceLand, onDev, hj]
  refine congrArg (fun d => Host.Outcome.next { s with dev := d }) ?_
  simp only [copy?_eq hkind, hb, hx, hawaits, decide_eq_false (not_le.mpr hp), Bool.or_self, Bool.false_eq_true, if_false]
  rw [Dev.landOne, hpiece]
  simp only [landPiece_unbarred hbar]

theorem job?_landed (hj : s.dev.job? j.id = some j) (hkind : j.kind = .copy c) :
    (s.dev.modCopy j.id fun c => { (c.dropPiece p) with time := max c.time time, skipped := c.skipped || false }).job? j.id =
      some { j with kind := .copy (landed c p time) } := by
  rw [job?_modCopy _ hj hkind]
  simp only [Bool.or_false]
  rfl

theorem pieceLand_record {p : Nat} (hp : recPieceA ≤ p) : exec (.pieceLand j.id p) s = .next s := by
  change execPieceLand j.id p s = _
  rw [execPieceLand, onDev]
  refine congrArg (fun d => Host.Outcome.next { s with dev := d }) ?_
  split
  · rfl
  · split
    · rw [decide_eq_true hp, Bool.true_or, if_pos rfl]
    · rfl

/-- A copy with something left goes on. -/
theorem pieceLand_goesOn (hj : s.dev.job? j.id = some j) (hkind : j.kind = .copy c) (hblock : (s.dev.block? j.block).isSome = true)
    (hctx : (s.dev.ctx? j.ctx).isSome = true) (hawaits : s.dev.awaits j.id p = false) (hpiece : c.piece? p = some (.issued got (some time)))
    (hp : p < recPieceA) (hbar : c.bar = none)
    (hleft : c.pieces.filter (·.1 != p) ≠ [] ∨ (c.skipAll = false ∧ c.next ≠ c.count)) :
    ∃ t, exec (.pieceLand j.id p) s = .next t ∧ copyOf t j.id = some (landed c p time) ∧ t.dev.mem = s.dev.mem ∧
      t.dev.locmem = s.dev.locmem ∧ t.dev.blocks = s.dev.blocks := by
  have hjob := job?_landed (p := p) (time := time) hj hkind
  have hexec := pieceLand_lands hj hkind hblock hctx hawaits hpiece hp hbar
  generalize hd : (s.dev.modCopy j.id fun c => { (c.dropPiece p) with time := max c.time time, skipped := c.skipped || false }) = d at hjob hexec
  have hstays : ((landed c p time).pieces.isEmpty && ((landed c p time).skipAll || (landed c p time).next == (landed c p time).count)) = false := by
    rcases hleft with hrest | ⟨hskip, hcount⟩
    · rw [Bool.and_eq_false_iff]
      exact .inl (List.isEmpty_eq_false_iff.mpr hrest)
    · rw [Bool.and_eq_false_iff]
      refine .inr ?_
      change (c.skipAll || c.next == c.count) = false
      rw [hskip, Bool.false_or, beq_eq_false_iff_ne]
      exact hcount
  have hover : d.copyOver j.id = d := by
    rw [Dev.copyOver, hjob]
    simp only [Option.bind_some, copy?_eq (j := { j with kind := .copy (landed c p time) }) rfl, hstays, Bool.false_eq_true, if_false]
  rw [hover] at hexec
  refine ⟨_, hexec, copyOf_eq hjob rfl, ?_, ?_, ?_⟩ <;> rw [← hd] <;> rfl

/-- The time at which a copy is complete. -/
def copyEnd (j : Job) (c : Copy) : Nat := max c.time j.clock

theorem block?_modBlock {d : Dev} {id : Nat} {b : Block} {f : Block → Block} (hf : ∀ x, (f x).id = x.id) (h : d.block? id = some b) :
    (d.modBlock id f).block? id = some (f b) := by
  have hkeep : ∀ x : Block, (x.id == id) = true → ((f x).id == id) = true := fun x hx => by rw [hf]; exact hx
  exact (find?_modIf_same hkeep d.blocks).trans (congrArg (Option.map f) h)

theorem block?_noteDone {d : Dev} {block : Nat} {b : Block} (h : d.block? block = some b) (id wave : Nat) (g : StrandMask) (t : Nat) :
    (d.noteDone id wave block g t).block? block = some { b with
      time := max b.time t, trigTime := if (b.trigOps.getD []).contains id then max b.trigTime t else b.trigTime } :=
  block?_modBlock (d := d.modWave wave _) (f := fun b => { b with
    time := max b.time t, trigTime := if (b.trigOps.getD []).contains id then max b.trigTime t else b.trigTime }) (fun _ => rfl) h

theorem ended_fields (d : Dev) (id wave block : Nat) (g : StrandMask) (t : Nat) :
    ((d.noteDone id wave block g t).endJob id t).mem = d.mem ∧ ((d.noteDone id wave block g t).endJob id t).locmem = d.locmem := ⟨rfl, rfl⟩

theorem block?_endJob (d : Dev) (id t n : Nat) : (d.endJob id t).block? n = d.block? n := rfl

/-- A copy without a stamp completes: the job is gone, its tag is set, memory is as it was. -/
theorem finishCopy_leaves {d : Dev} {b : Block} (hj : d.job? j.id = some j) (hkind : j.kind = .copy c) (hstamp : c.stamp = none)
    (hb : d.block? j.block = some b) :
    (d.finishCopy j.id).job? j.id = none ∧ (d.finishCopy j.id).mem = d.mem ∧ (d.finishCopy j.id).locmem = d.locmem ∧
      ∀ i, c.tag = some i → ∃ b', (d.finishCopy j.id).block? j.block = some b' ∧ b'.tags.find? (·.tag == i) = some ⟨i, copyEnd j c⟩ := by
  generalize htagged : (match c.tag with
    | none => d
    | some i => d.modBlock j.block fun b => { b with
        tags := ⟨i, copyEnd j c⟩ :: b.tags.filter (·.tag != i)
        skipTags := if c.skipped then b.skipTags ||| (1#64 <<< i) else b.skipTags &&& ~~~(1#64 <<< i) }) = e
  have hfinish : d.finishCopy j.id =
      ((e.modWave j.wave fun w => { w with doneCp := max w.doneCp (copyEnd j c) }).noteDone j.id j.wave j.block c.gang (copyEnd j c)).endJob j.id (copyEnd j c) := by
    rw [Dev.finishCopy, hj]
    simp only [copy?_eq hkind, hstamp]
    rw [← htagged]
    rfl
  have hkept : e.mem = d.mem ∧ e.locmem = d.locmem := by
    rw [← htagged]
    split
    · exact ⟨rfl, rfl⟩
    · exact ⟨rfl, rfl⟩
  rw [hfinish]
  obtain ⟨hmem, hloc⟩ := ended_fields (e.modWave j.wave fun w => { w with doneCp := max w.doneCp (copyEnd j c) }) j.id j.wave j.block c.gang (copyEnd j c)
  refine ⟨job?_endJob _, hmem.trans hkept.1, hloc.trans hkept.2, fun i hi => ?_⟩
  rw [hi] at htagged
  have hset := block?_modBlock (f := fun b => { b with
        tags := ⟨i, copyEnd j c⟩ :: b.tags.filter (·.tag != i)
        skipTags := if c.skipped then b.skipTags ||| (1#64 <<< i) else b.skipTags &&& ~~~(1#64 <<< i) }) (fun _ => rfl) hb
  rw [show d.modBlock j.block _ = e from htagged] at hset
  have hset' : (e.modWave j.wave fun w => { w with doneCp := max w.doneCp (copyEnd j c) }).block? j.block = _ := hset
  exact ⟨_, (block?_endJob _ _ _ _).trans (block?_noteDone hset' _ _ _ _), List.find?_cons_of_pos (beq_self_eq_true i)⟩

theorem pieceLand_completes (hj : s.dev.job? j.id = some j) (hkind : j.kind = .copy c) (hblock : (s.dev.block? j.block).isSome = true)
    (hctx : (s.dev.ctx? j.ctx).isSome = true) (hawaits : s.dev.awaits j.id p = false) (hpiece : c.piece? p = some (.issued got (some time)))
    (hp : p < recPieceA) (hbar : c.bar = none) (hrest : c.pieces.filter (·.1 != p) = []) (hdone : c.skipAll = true ∨ c.next = c.count)
    (hstamp : c.stamp = none) :
    ∃ t, exec (.pieceLand j.id p) s = .next t ∧ t.dev.job? j.id = none ∧ t.dev.mem = s.dev.mem ∧ t.dev.locmem = s.dev.locmem ∧
      ∀ i, c.tag = some i → ∃ b, t.dev.block? j.block = some b ∧ b.tags.find? (·.tag == i) = some ⟨i, max (max c.time time) j.clock⟩ := by
  obtain ⟨b, hb⟩ := Option.isSome_iff_exists.mp hblock
  have hjob := job?_landed (p := p) (time := time) hj hkind
  have hexec := pieceLand_lands hj hkind hblock hctx hawaits hpiece hp hbar
  have hkept : ∀ d, (s.dev.modCopy j.id fun c => { (c.dropPiece p) with time := max c.time time, skipped := c.skipped || false }) = d →
      d.mem = s.dev.mem ∧ d.locmem = s.dev.locmem ∧ d.block? j.block = some b := by
    rintro _ rfl
    exact ⟨rfl, rfl, hb⟩
  generalize hd : (s.dev.modCopy j.id fun c => { (c.dropPiece p) with time := max c.time time, skipped := c.skipped || false }) = d at hjob hexec hkept
  obtain ⟨hmem, hloc, hb'⟩ := hkept d rfl
  have hover : d.copyOver j.id = d.finishCopy j.id := by
    have hends : ((landed c p time).pieces.isEmpty && ((landed c p time).skipAll || (landed c p time).next == (landed c p time).count)) = true := by
      rw [Bool.and_eq_true, Bool.or_eq_true, beq_iff_eq]
      exact ⟨List.isEmpty_iff.mpr hrest, hdone⟩
    rw [Dev.copyOver, hjob]
    simp only [Option.bind_some, copy?_eq (j := { j with kind := .copy (landed c p time) }) rfl, hends, if_true]
  obtain ⟨hgone, hmem', hloc', htag⟩ := finishCopy_leaves (j := { j with kind := .copy (landed c p time) }) hjob rfl hstamp hb'
  rw [hover] at hexec
  exact ⟨_, hexec, hgone, hmem'.trans hmem, hloc'.trans hloc, htag⟩

end

/-! ## Faults (R198) -/

theorem raiseAsync_cores {d : Dev} {w : Wave} {id c : Nat} (hw : d.wave? id = some w) (htvec : w.tvec ≠ 0) : (d.raiseAsync id c).cores = d.cores := by
  unfold Dev.raiseAsync
  simp only [hw, bne_iff_ne.mpr htvec, if_true]
  split
  · rfl
  · split
    · rfl
    · rfl

theorem copyFault_enters {s : State} {j : Job} {c : Copy} {b : Block} {w : Wave} {p cause : Nat} {write : Bool} {more : List Nat}
    (hj : s.dev.job? j.id = some j) (hkind : j.kind = .copy c) (hb : s.dev.block? j.block = some b) (hsusp : b.susp = none)
    (hnew : s.dev.newFaults j c b.core = p :: more) (hfault : c.faultAt p = some (cause, write)) (hw : s.dev.wave? j.wave = some w)
    (hlive : w ∈ s.dev.liveWaves b.id) (htvec : w.tvec ≠ 0) (hroom : (s.dev.core b.core).fifo.length < 16) :
    ∃ t e, exec (.copyFault j.id) s = .next t ∧ (t.dev.core b.core).fifo = (s.dev.core b.core).fifo ++ [e] ∧
      e.job = j.id ∧ e.block = b.id ∧ e.piece = p ∧ e.cause = cause ∧ e.write = write ∧ e.coords = c.coords ∧ e.wave = w.idx ∧
      e.recAddr = (if write ∧ c.form.twoBoxes then c.recB else c.recA) ∧ e.read = false ∧
      ∃ w', t.dev.wave? j.wave = some w' ∧ w'.cause.getLsbD cCopyfault = true := by
  have hid : w.id = j.wave := by simpa using List.find?_some hw
  obtain ⟨l, ls, hls⟩ : ∃ l ls, s.dev.liveWaves b.id = l :: ls := List.exists_cons_of_ne_nil (List.ne_nil_of_mem hlive)
  have hwho : (l :: ls).any (·.id == j.wave) = true := List.any_eq_true.mpr ⟨w, hls ▸ hlive, by rw [hid]; exact beq_self_eq_true _⟩
  have hwlive : w.live = true := (List.mem_filter.mp hlive).2
  let e : FaultEntry := {
    slot := ((List.range 16).find? fun i => !(s.dev.core b.core).fifo.any (·.slot == i)).getD 0
    job := j.id, block := b.id, piece := p, cause := cause, write := write
    recAddr := if write && c.form.twoBoxes then c.recB else c.recA
    coords := c.coords, wave := w.idx, read := false }
  have hexec : exec (.copyFault j.id) s = .next { s with dev :=
      (s.dev.modCore b.core fun x => { x with fifo := x.fifo ++ [e] }).raiseAsync j.wave cCopyfault } := by
    change execCopyFault j.id s = _
    rw [execCopyFault, onDev, hj]
    refine congrArg (fun d => Host.Outcome.next { s with dev := d }) ?_
    simp only [copy?_eq hkind, hb, hsusp, hls, hnew, hfault, Option.isSome_none, Option.isNone_none, List.isEmpty_cons, Bool.and_false, Bool.false_eq_true,
      if_false, not_le.mpr hroom, hw, hwho, if_true]
    rfl
  have hw' : (s.dev.modCore b.core fun x => { x with fifo := x.fifo ++ [e] }).wave? j.wave = some w := hw
  obtain ⟨-, w', hw'', hbit⟩ := raiseAsync_told hw' hwlive htvec (c := cCopyfault) (by decide)
  refine ⟨_, e, hexec, ?_, rfl, rfl, rfl, rfl, rfl, rfl, rfl, ?_, rfl, w', hw'', hbit⟩
  · have hcores := raiseAsync_cores (c := cCopyfault) hw' htvec
    change (Dev.core _ b.core).fifo = _
    rw [Dev.core, hcores]
    exact congrArg Core.fifo (core_modCore (f := fun x => { x with fifo := x.fifo ++ [e] }) (fun _ => rfl) s.dev b.core)
  · simp only [e, Bool.and_eq_true]

/-- Settles O31: the order of footprints, the issue and the landing of pieces, and faults. -/
theorem copySteps : Obligations.CopySteps := by
  unfold Obligations.CopySteps
  refine ⟨?_, ?_, ?_, ?_, ?_⟩
  · intro s j hj hout hkind earlier hbefore hroom
    obtain ⟨j', hj', hin, hkind', hfoot, hafter⟩ := job?_enterJob hj j.foot
    refine ⟨_, j', footprintEnter_job hj hout hkind hbefore hroom, hj', hin, hkind', hfoot, fun n => (hafter n).trans ?_⟩
    simp only [conflicts_iff]
    rfl
  · intro s j c b x d bs la hj hkind hb hx hout hwhole hskip hone hbefore hroom hread hla c' hcheck
    exact footprintEnter_copy hj hkind hb hx hout hwhole hskip hone hbefore hroom hread hla rfl hcheck
  · intro s j c b x p hj hkind hb hx hservers hin hafter hnext hpick
    exact copyPieceIssue_leaves hj hkind hb hx hservers hin hafter hnext hpick
  · intro s j c p time got hj hkind hblock hctx hawaits hpiece hp hbar
    exact ⟨pieceLand_goesOn hj hkind hblock hctx hawaits hpiece hp hbar,
      pieceLand_completes hj hkind hblock hctx hawaits hpiece hp hbar, pieceLand_record (Nat.le_add_right _ _)⟩
  · intro s j c b w p cause write more hj hkind hb hsusp hnew hfault hw hlive htvec hroom
    exact copyFault_enters hj hkind hb hsusp hnew hfault hw hlive htvec hroom

end Sys2Proof.Proofs
end

section
/-!
PROOFS. Arbiters, the caches and the line transfers (03, 05, 08, 09, 10: R20, R87, R250, R254, R258, R263, R266, R284 to R286): O43.
-/

open Sys2Proof Sys2Proof.Machine Sys2Proof.Claims

-- The whole text is compiled in one process, which can hold few threads: these proofs are elaborated in order.
set_option Elab.async false

namespace Sys2Proof.Proofs

/-! ## What a step of an arbiter or of a cache leaves alone -/

/-- The units that `Apart` speaks of are as in another device. -/
def ApartDev (d e : Dev) : Prop :=
  e.waves = d.waves ∧ e.blocks = d.blocks ∧ e.mem = d.mem ∧ e.sectors = d.sectors ∧ e.locmem = d.locmem

namespace ApartDev

theorem refl (d : Dev) : ApartDev d d := ⟨rfl, rfl, rfl, rfl, rfl⟩

theorem trans {a b c : Dev} (h : ApartDev a b) (g : ApartDev b c) : ApartDev a c :=
  ⟨g.1.trans h.1, g.2.1.trans h.2.1, g.2.2.1.trans h.2.2.1, g.2.2.2.1.trans h.2.2.2.1, g.2.2.2.2.trans h.2.2.2.2⟩

theorem foldl {α : Type} {f : Dev → α → Dev} (hf : ∀ d x, ApartDev d (f d x)) (l : List α) (d : Dev) : ApartDev d (l.foldl f d) := by
  induction l generalizing d with
  | nil => exact refl d
  | cons x l ih => exact (hf d x).trans (ih _)

theorem of_cachedDev {d e : Dev} (h : CachedDev d e) : ApartDev d e := by
  obtain ⟨a, b, c, x, rfl⟩ := exists_of_cachedDev h
  exact ⟨rfl, rfl, rfl, rfl, rfl⟩

theorem l1Fill (d : Dev) (core ctx pa : Nat) : ApartDev d (d.l1Fill core ctx pa) := by
  rw [l1Fill_l1]
  exact ⟨rfl, rfl, rfl, rfl, rfl⟩

theorem apart {s : State} {e : Dev} (h : ApartDev s.dev e) : Apart s { s with dev := e } := ⟨h.1, h.2.1, h.2.2.1, h.2.2.2.1, h.2.2.2.2, rfl⟩

end ApartDev

/-! ## The least of a list -/

section
variable {α : Type} {f : α → Nat} {l : List α} {x : α}

theorem leastBy_spec (h : leastBy f l = some x) : x ∈ l ∧ ∀ y ∈ l, f x ≤ f y := by
  induction l generalizing x with
  | nil => exact absurd h (by simp [leastBy])
  | cons z t ih =>
    rw [leastBy] at h
    cases hz : leastBy f t with
    | none =>
      rw [hz] at h
      cases t with
      | nil =>
        obtain rfl := Option.some.inj h
        simp
      | cons a t =>
        rw [leastBy] at hz
        grind
    | some y =>
      rw [hz] at h
      obtain ⟨hmem, hle⟩ := ih hz
      by_cases hzy : f z ≤ f y
      · obtain rfl := Option.some.inj ((if_pos hzy).symm.trans h)
        exact ⟨List.mem_cons_self, fun a ha => (List.mem_cons.mp ha).elim (fun e => e ▸ le_refl _) fun ha => hzy.trans (hle a ha)⟩
      · obtain rfl := Option.some.inj ((if_neg hzy).symm.trans h)
        exact ⟨List.mem_cons_of_mem _ hmem, fun a ha => (List.mem_cons.mp ha).elim (fun e => e ▸ (not_le.mp hzy).le) fun ha => hle a ha⟩

theorem exists_leastBy (f : α → Nat) (h : l ≠ []) : ∃ x, leastBy f l = some x := by
  cases l with
  | nil => exact absurd rfl h
  | cons z t =>
    rw [leastBy]
    split
    · exact ⟨_, rfl⟩
    · split
      · exact ⟨_, rfl⟩
      · exact ⟨_, rfl⟩

end

/-! ## Points without servers (R285) -/

section
variable {d : Dev} (h : d.servers = [])
include h

theorem syncPoint_none (p : Point) (i : Nat) (wants : List (Nat × Nat)) : d.syncPoint p i wants = d := by
  obtain ⟨⟩ := d
  simp only [Dev.syncPoint, modIf] at *
  simp only [h, List.map_nil]

theorem syncAt_none (p : Point) : d.syncAt p = d := by
  rw [Dev.syncAt]
  generalize pointBudgets p = l
  induction l with
  | nil => rfl
  | cons i l ih => rw [List.foldl_cons, syncPoint_none h, ih]

/-- One context wants a point that has no servers: it is chosen. -/
theorem choose_only (p : Point) (i last : Nat) {wants : List (Nat × Nat)} {c : Nat} (hne : wants ≠ []) (hall : ∀ w ∈ wants, w.1 = c) :
    d.choose p i wants last = some c := by
  have hserver : ∀ c, d.server? c p = none := fun c => server?_none h c p
  simp only [Dev.choose, hserver, Dev.earliest, Option.isNone_none, List.filter_true, List.filter_false, List.map_nil, leastBy]
  obtain ⟨x, hx⟩ := exists_leastBy (fun w : Nat × Nat => (w.1 + 255 - last) % 256) hne
  rw [hx, Option.map_some, hall x (leastBy_spec hx).1]

end

/-! ## ISSUE_SELECT (R20, R286) -/

theorem mem_readyAt {d : Dev} {core port : Nat} {x : Wave × Block × StrandMask} (h : x ∈ d.readyAt core port) :
    x.1 ∈ d.waves ∧ d.block? x.1.block = some x.2.1 := by
  obtain ⟨w, hw, hx⟩ := List.mem_flatMap.mp h
  split at hx
  · exact absurd hx List.not_mem_nil
  · cases hb : d.block? w.block with
    | none =>
      rw [hb] at hx
      exact absurd hx List.not_mem_nil
    | some b =>
      rw [hb] at hx
      dsimp only at hx
      split at hx
      · exact absurd hx List.not_mem_nil
      · obtain ⟨g, -, rfl⟩ := List.mem_map.mp hx
        exact ⟨hw, hb⟩

theorem eq_of_id {l : List Wave} (hnodup : (l.map (·.id)).Nodup) {v w : Wave} (hv : v ∈ l) (hw : w ∈ l) (h : v.id = w.id) : v = w :=
  List.inj_on_of_nodup_map hnodup hv hw h

theorem portWants_ne_nil {l : List (Wave × Block × StrandMask)} (h : l ≠ []) : portWants l ≠ [] := by
  obtain ⟨x, hx⟩ := List.exists_mem_of_ne_nil l h
  exact List.ne_nil_of_mem (List.mem_eraseDups.mpr (List.mem_map_of_mem hx))

theorem mem_portWants {l : List (Wave × Block × StrandMask)} {c : Nat} (h : ∀ x ∈ l, x.2.1.ctx = c) {w : Nat × Nat} (hw : w ∈ portWants l) : w.1 = c := by
  obtain ⟨x, hx, rfl⟩ := List.mem_map.mp (List.mem_eraseDups.mp hw)
  exact h x hx

/-- The device once a port without servers has selected a gang. -/
def selectedGang (d : Dev) (core port c cycles : Nat) (w : Wave) (g : StrandMask) : Dev :=
  let busy := d.modCore core fun x => { x with busy := x.busy.set port (d.portTill core port cycles) }
  let turn := busy.modCore core fun x => { x with lastCtx := x.lastCtx.set port c }
  { (turn.dropNoted ⟨w.id, g⟩).modWave w.id (fun w => { w with last := some (lowStrand g) }) with latch := some ⟨w.id, g⟩ }

theorem selectIssue_selects {d : Dev} {core port c : Nat} (hservers : d.servers = []) (hbusy : ((d.core core).busy[port]?).getD 0 ≤ d.clock)
    (hne : d.readyAt core port ≠ []) (hall : ∀ x ∈ d.readyAt core port, x.2.1.ctx = c) (hnodup : (d.waves.map (·.id)).Nodup) :
    ∃ w b g, d.selectIssue core port = selectedGang d core port c (d.selectCharge w b g) w g ∧ (w, b, g) ∈ d.readyAt core port ∧
      ∀ x ∈ d.readyAt core port, w.order ≤ x.1.order := by
  obtain ⟨⟨w, b, g₀⟩, hleast⟩ := exists_leastBy (fun x : Wave × Block × StrandMask => x.1.order) hne
  obtain ⟨hmem, hle⟩ := leastBy_spec hleast
  have hmine : (d.readyAt core port).filter (·.2.1.ctx == c) = d.readyAt core port :=
    List.filter_eq_self.mpr fun x hx => beq_iff_eq.mpr (hall x hx)
  have hgangs : (((d.readyAt core port).filter (·.1.id == w.id)).map (·.2.2)) ≠ [] :=
    List.ne_nil_of_mem (List.mem_map_of_mem (List.mem_filter.mpr ⟨hmem, beq_self_eq_true w.id⟩))
  obtain ⟨g, hg⟩ := exists_leastBy (fun g : StrandMask => match w.last with | some l => (lowStrand g + 7 - l) % 8 | none => lowStrand g) hgangs
  have hnext : nextGang w.last (((d.readyAt core port).filter (·.1.id == w.id)).map (·.2.2)) = some g := hg
  obtain ⟨⟨w', b', g'⟩, hx, hgx⟩ := List.mem_map.mp (leastBy_spec hg).1
  obtain ⟨hready, hid⟩ := List.mem_filter.mp hx
  obtain rfl : g' = g := hgx
  obtain ⟨hw, hb⟩ := mem_readyAt hmem
  obtain ⟨hw', hb'⟩ := mem_readyAt hready
  obtain rfl : w' = w := eq_of_id hnodup hw' hw (beq_iff_eq.mp hid)
  obtain rfl : b' = b := Option.some.inj (hb'.symm.trans hb)
  refine ⟨w', b', g', ?_, hready, hle⟩
  have hcharge : ∀ n, d.chargeAt c (.port core) port n = d := fun n => modServer_none hservers _ _ _
  have hserver : ∀ f, (d.modCore core f).server? c (.port core) = none := fun f => server?_none hservers _ _
  rw [Dev.selectIssue, if_neg (Nat.not_lt.mpr hbusy)]
  simp only [syncPoint_none hservers,
    choose_only hservers (.port core) port _ (portWants_ne_nil hne) (fun _ => mem_portWants hall), hmine, hleast, hnext, hcharge, hserver,
    Option.isNone_none, if_true] <;> rfl

theorem pruneYields_ids (d : Dev) : d.pruneYields.waves.map (·.id) = d.waves.map (·.id) := by
  simp only [Dev.pruneYields, List.map_map]
  refine List.map_congr_left fun w _ => ?_
  dsimp only [Function.comp]
  split
  · split
    · rfl
    · rfl
  · rfl

theorem selectedGang_fields (d : Dev) (core port c cycles : Nat) (w : Wave) (g : StrandMask) :
    (selectedGang d core port c cycles w g).latch = some ⟨w.id, g⟩ ∧ (selectedGang d core port c cycles w g).mem = d.mem ∧
      (selectedGang d core port c cycles w g).locmem = d.locmem := by
  simp only [selectedGang, Dev.modWave, Dev.dropNoted, Dev.modCore, and_self]

theorem issueSelect_latch {s : State} {core port : Nat} (h : s.dev.latch ≠ none) : exec (.issueSelect core port) s = .next s := by
  change execIssueSelect core port s = _
  rw [execIssueSelect, onDev, if_pos (Option.isSome_iff_ne_none.mpr h)]

theorem issueSelect_free {s : State} {core port : Nat} (h : s.dev.latch = none) :
    exec (.issueSelect core port) s = .next { s with dev := s.dev.pruneYields.selectIssue core port } := by
  change execIssueSelect core port s = _
  rw [execIssueSelect, onDev, h]
  rfl

theorem issueSelect_selects {s : State} {core port c : Nat} (hlatch : s.dev.latch = none) (hservers : s.dev.servers = [])
    (hbusy : ((s.dev.core core).busy[port]?).getD 0 ≤ s.dev.clock) (hne : s.dev.pruneYields.readyAt core port ≠ [])
    (hall : ∀ x ∈ s.dev.pruneYields.readyAt core port, x.2.1.ctx = c) (hnodup : (s.dev.waves.map (·.id)).Nodup) :
    ∃ t w b g, exec (.issueSelect core port) s = .next t ∧ t.dev.latch = some ⟨w.id, g⟩ ∧ (w, b, g) ∈ s.dev.pruneYields.readyAt core port ∧
      (∀ x ∈ s.dev.pruneYields.readyAt core port, w.order ≤ x.1.order) ∧ t.dev.mem = s.dev.mem ∧ t.dev.locmem = s.dev.locmem := by
  rw [← pruneYields_ids] at hnodup
  obtain ⟨w, b, g, hsel, hmem, hle⟩ := selectIssue_selects (d := s.dev.pruneYields) hservers hbusy hne hall hnodup
  obtain ⟨hl, hm, hloc⟩ := selectedGang_fields s.dev.pruneYields core port c (s.dev.pruneYields.selectCharge w b g) w g
  refine ⟨{ s with dev := s.dev.pruneYields.selectIssue core port }, w, b, g, issueSelect_free hlatch, ?_, hmem, hle, ?_, ?_⟩
  · exact (congrArg Dev.latch hsel).trans hl
  · exact (congrArg Dev.mem hsel).trans hm
  · exact (congrArg Dev.locmem hsel).trans hloc

theorem issueSelect_busy {s : State} {core port : Nat} (hlatch : s.dev.latch = none) (hbusy : s.dev.clock < ((s.dev.core core).busy[port]?).getD 0) :
    ∃ t, exec (.issueSelect core port) s = .next t ∧ t.dev.latch = none ∧ t.dev.servers = s.dev.servers := by
  have hstay : s.dev.pruneYields.selectIssue core port = s.dev.pruneYields := if_pos hbusy
  exact ⟨{ s with dev := s.dev.pruneYields }, by rw [issueSelect_free hlatch, hstay], hlatch, rfl⟩

/-! ## Servers and the copy engines' choice (R284, R285) -/

theorem wake_resting {v : Server} {b d q p now : Nat} (hq : v.args.q = [q]) (ht : v.args.t = [p]) (hb : v.b = [b]) (hd : v.d = [d])
    (hpending : v.pending = [false]) (hdue : d ≤ now) : v.wake 0 now = { v with b := [q], d := [now + p], pending := [true] } := by
  have hrest : v.isPending 0 = false := by rw [Server.isPending, hpending]; rfl
  have hdl : v.dl 0 = d := by rw [Server.dl, hd]; rfl
  have hquota : v.quota 0 = q := by rw [Server.quota, hq]; rfl
  have hperiod : v.period 0 = p := by rw [Server.period, ht]; rfl
  rw [Server.wake, hrest, hdl, if_neg Bool.false_ne_true, if_pos hdue, hquota, hperiod, hb, hd, hpending]
  rfl

theorem server?_mod {d : Dev} {ctx : Nat} {p : Point} {f : Server → Server} {v : Server} (hf : ∀ x, (f x).args = x.args) (h : d.server? ctx p = some v) :
    Dev.server? { d with servers := modIf (·.args.point == p) f d.servers } ctx p = some (f v) := by
  have hfind : d.servers.find? (fun s => s.args.ctx == ctx && s.args.point == p) = some v := h
  have hp : (v.args.point == p) = true := by
    have hboth := List.find?_some hfind
    exact (Bool.and_eq_true_iff.mp hboth).2
  refine (find_modIf (·.args.point == p) (fun s => s.args.ctx == ctx && s.args.point == p) f (fun x => by rw [hf]) d.servers).trans ?_
  rw [hfind, Option.map_some, if_pos hp]

/-- A list to which each element adds its key, unless it is there, holds every key. -/
theorem exists_mem_collected {α : Type} (key val : α → Nat) (l : List α) (acc : List (Nat × Nat)) :
    (∀ w ∈ acc, w ∈ l.foldl (fun l x => if l.any (·.1 == key x) then l else l ++ [(key x, val x)]) acc) ∧
      ∀ x ∈ l, ∃ w ∈ l.foldl (fun l x => if l.any (·.1 == key x) then l else l ++ [(key x, val x)]) acc, w.1 = key x := by
  induction l generalizing acc with
  | nil => exact ⟨fun w hw => hw, fun x hx => absurd hx List.not_mem_nil⟩
  | cons z l ih =>
    rw [List.foldl_cons]
    by_cases hz : acc.any (·.1 == key z)
    · rw [if_pos hz]
      refine ⟨(ih acc).1, fun x hx => ?_⟩
      rcases List.mem_cons.mp hx with rfl | hx
      · obtain ⟨w, hw, hk⟩ := List.any_eq_true.mp hz
        exact ⟨w, (ih acc).1 w hw, beq_iff_eq.mp hk⟩
      · exact (ih acc).2 x hx
    · rw [if_neg hz]
      have hnew := ih (acc ++ [(key z, val z)])
      refine ⟨fun w hw => hnew.1 w (List.mem_append_left _ hw), fun x hx => ?_⟩
      rcases List.mem_cons.mp hx with rfl | hx
      · exact ⟨_, hnew.1 _ (List.mem_append_right _ (List.mem_singleton_self _)), rfl⟩
      · exact hnew.2 x hx

theorem exists_lineWants {d : Dev} {chan : Nat} {x : Xfer} (hx : x ∈ d.xfers) (hchan : x.channel = chan) : ∃ w ∈ d.lineWants chan, w.1 = x.ctx :=
  (exists_mem_collected (fun x : Xfer => x.ctx) (fun x => if x.charged then 0 else 128) (d.xfers.filter (·.channel == chan)) []).2 x
    (List.mem_filter.mpr ⟨hx, beq_iff_eq.mpr hchan⟩)

/-- What an arbiter does with a server of its point. -/
def synced (wants : List (Nat × Nat)) (i now : Nat) (s : Server) : Server :=
  match wants.find? (·.1 == s.args.ctx) with
  | none => s.rest i
  | some w =>
    let s := s.wake i now
    if s.eligible i now && !s.fits i w.2 then s.renew i else s

theorem syncPoint_synced (d : Dev) (p : Point) (i : Nat) (wants : List (Nat × Nat)) :
    d.syncPoint p i wants = { d with servers := modIf (·.args.point == p) (synced wants i d.clock) d.servers } := rfl

theorem wake_args (s : Server) (i now : Nat) : (s.wake i now).args = s.args := by
  rw [Server.wake]
  split
  · rfl
  · split
    · rfl
    · rfl

theorem synced_args (wants : List (Nat × Nat)) (i now : Nat) (s : Server) : (synced wants i now s).args = s.args := by
  rw [synced]
  split
  · rfl
  · dsimp only
    split
    · exact wake_args s i now
    · exact wake_args s i now

theorem serverRelease_releases {s : State} {ctx chan b d q p : Nat} {v : Server} {x : Xfer} (hv : s.dev.server? ctx (.chan chan) = some v)
    (hq : v.args.q = [q]) (ht : v.args.t = [p]) (hb : v.b = [b]) (hd : v.d = [d]) (hpending : v.pending = [false]) (hdue : d ≤ s.dev.clock)
    (hx : x ∈ s.dev.xfers) (hchan : x.channel = chan) (hctx : x.ctx = ctx) :
    ∃ t, exec (.serverRelease ctx (.chan chan)) s = .next t ∧ Apart s t ∧
      t.dev.server? ctx (.chan chan) = some { v with b := [q], d := [s.dev.clock + p], pending := [true] } := by
  obtain ⟨w, hw, hwc⟩ := exists_lineWants hx hchan
  have hvc : v.args.ctx = ctx := by
    have hfind : s.dev.servers.find? (fun s => s.args.ctx == ctx && s.args.point == .chan chan) = some v := hv
    have hboth := List.find?_some hfind
    exact beq_iff_eq.mp (Bool.and_eq_true_iff.mp hboth).1
  obtain ⟨y, hy⟩ : ∃ y, (s.dev.wantsAt (.chan chan) 0).find? (·.1 == v.args.ctx) = some y := by
    refine Option.isSome_iff_exists.mp (List.find?_isSome.mpr ⟨w, List.mem_append_left _ hw, ?_⟩)
    rw [hwc, hctx, hvc]
    exact beq_self_eq_true ctx
  have hsynced : synced (s.dev.wantsAt (.chan chan) 0) 0 s.dev.clock v = { v with b := [q], d := [s.dev.clock + p], pending := [true] } := by
    have hfits : Server.fits { v with b := [q], d := [s.dev.clock + p], pending := [true] } 0 y.2 = true := by
      simp only [Server.fits, Server.bud, Server.quota, hq, List.getElem?_cons_zero, Option.getD_some, beq_self_eq_true, Bool.or_true]
    rw [synced, hy]
    dsimp only
    rw [wake_resting hq ht hb hd hpending hdue, hfits, Bool.not_true, Bool.and_false, if_neg Bool.false_ne_true]
  refine ⟨{ s with dev := s.dev.syncAt (.chan chan) }, ?_, ApartDev.apart ⟨rfl, rfl, rfl, rfl, rfl⟩, ?_⟩
  · change execServerRelease ctx (.chan chan) s = _
    rw [execServerRelease, onDev, hv]
    rfl
  · rw [← hsynced]
    exact server?_mod (synced_args _ 0 _) hv

theorem arbiterSelect_copy {s : State} {die c n : Nat} (hservers : s.dev.servers = []) (hwants : copyWants die s.dev.waitingPieces = [(c, n)]) :
    ∃ t, exec (.arbiterSelect (.copy die)) s = .next t ∧ Apart s t ∧ (Point.copy die, c) ∈ t.dev.picks ∧
      ∀ x ∈ t.dev.picks, x.1 = Point.copy die → x.2 = c := by
  have hwake : s.dev.waitingPieces.foldl (fun d w => if w.2.1 = die then d.wakePath w.1 w.2.2.2 else d) s.dev = s.dev := by
    generalize s.dev.waitingPieces = l
    induction l with
    | nil => rfl
    | cons w l ih =>
      rw [List.foldl_cons, show s.dev.wakePath w.1 w.2.2.2 = s.dev from foldl_modServer_none hservers _ _ _ _, ite_self, ih]
  let e : Dev := { s.dev with picks := s.dev.picks.filter (·.1 != .copy die) }
  have hready : e.readyPieces = s.dev.waitingPieces := List.filter_eq_self.mpr fun w _ => List.all_eq_true.mpr fun l _ => by
    rw [server?_none (d := e) hservers]
  have hchoose : e.choose (.copy die) 0 (copyWants die e.readyPieces) (e.lastTurn (.copy die)) = some c := by
    refine choose_only (d := e) hservers _ _ _ (by rw [hready, hwants]; exact List.cons_ne_nil _ _) fun w hw => ?_
    rw [hready, hwants, List.mem_singleton] at hw
    rw [hw]
  have hnote : ∀ d : Dev, d.servers = [] → d.noteTurn (.copy die) c = { d with turns := upsert (·.1 == .copy die) (.copy die, c) (fun _ => (.copy die, c)) d.turns } :=
    fun d hd => by rw [Dev.noteTurn, server?_none hd, Option.isSome_none, if_neg Bool.false_ne_true]
  have hexec : exec (.arbiterSelect (.copy die)) s = .next { s with dev := Dev.noteTurn { e with picks := e.picks ++ [(.copy die, c)] } (.copy die) c } := by
    change execArbiterSelect (.copy die) s = _
    rw [execArbiterSelect, onDev]
    refine congrArg (fun d => Host.Outcome.next { s with dev := d }) ?_
    dsimp only
    rw [syncAt_none hservers, hwake]
    change (match e.choose (.copy die) 0 (copyWants die e.readyPieces) (e.lastTurn (.copy die)) with | none => e | some c => _) = _
    rw [hchoose]
  rw [hnote { e with picks := e.picks ++ [(.copy die, c)] } hservers] at hexec
  refine ⟨_, hexec, ⟨rfl, rfl, rfl, rfl, rfl, rfl⟩, List.mem_append_right _ (List.mem_singleton_self _), fun x hx hpoint => ?_⟩
  rcases List.mem_append.mp hx with hx | hx
  · have hne : (x.1 != Point.copy die) = true := (List.mem_filter.mp hx).2
    exact absurd hpoint (bne_iff_ne.mp hne)
  · rw [List.mem_singleton.mp hx]

/-! ## ICACHE_FILL (R86 to R89) -/

namespace ApartDev

theorem touchLine (d : Dev) (slot pa ctx : Nat) : ApartDev d (d.touchLine slot pa ctx) := of_cachedDev (.touchLine d slot pa ctx)

theorem loadCode (d : Dev) (core : Nat) (c : Ctx) (va : Nat) : ApartDev d (d.loadCode core c va) := by
  have hlooked : ApartDev d (d.looked core c va) := of_cachedDev (.looked d core c va)
  rw [Dev.loadCode]
  split
  · split
    · exact (hlooked.trans (touchLine _ _ _ _)).trans (l1Fill _ _ _ _)
    · exact hlooked
  · exact hlooked

theorem fillCode (d : Dev) (core : Nat) (c : Ctx) (va : Nat) : ApartDev d (d.fillCode core c va) := by
  have hread := loadCode d core c va
  simp only [Dev.fillCode]
  split
  · exact (hread.trans (loadCode _ _ _ _)).trans ⟨rfl, rfl, rfl, rfl, rfl⟩
  · exact hread.trans ⟨rfl, rfl, rfl, rfl, rfl⟩

end ApartDev

/-- Words that a filled line keeps of the I-cache. -/
def keptWord (d : Dev) (core : Nat) (c : Ctx) (va : Nat) (e : IEntry) : Bool :=
  !(e.core == core && e.ctx == c.n && e.va / 128 == va / 128)
    || (!(d.fillLine core c (va / 128) 128 va).any (·.va == e.va) && e.word == d.fillWord core c e.va)

theorem fillCode_icache (d : Dev) (core : Nat) (c : Ctx) (va : Nat) :
    (d.fillCode core c va).icache = d.icache.filter (keptWord d core c va) ++ d.fillLine core c (va / 128) 128 va := rfl

theorem mem_fillLine {d : Dev} {core : Nat} {c : Ctx} {line n va : Nat} {e : IEntry} (h : e ∈ d.fillLine core c line n va) :
    e.core = core ∧ e.ctx = c.n ∧ e.va / 128 = line := by
  induction n generalizing va with
  | zero => exact absurd h List.not_mem_nil
  | succ n ih =>
    rw [Dev.fillLine] at h
    split at h
    · exact absurd h List.not_mem_nil
    · next hline =>
      rcases List.mem_cons.mp h with rfl | h
      · exact ⟨rfl, rfl, not_not.mp hline⟩
      · split at h
        · exact ih h
        · exact absurd h List.not_mem_nil

theorem icached_elsewhere {d e : Dev} {core : Nat} {c : Ctx} {va k x a : Nat}
    (h : e.icache = d.icache.filter (keptWord d core c va) ++ d.fillLine core c (va / 128) 128 va)
    (hne : k ≠ core ∨ x ≠ c.n ∨ a / 128 ≠ va / 128) : e.icached k x a = d.icached k x a := by
  have hout : ∀ y : IEntry, (y.core == k && y.ctx == x && y.va == a) = true → ¬ (y.core = core ∧ y.ctx = c.n ∧ y.va / 128 = va / 128) := by
    intro y hy hin
    simp only [Bool.and_eq_true, beq_iff_eq] at hy
    obtain ⟨⟨hk, hx⟩, ha⟩ := hy
    rw [hk, hx, ha] at hin
    exact hne.elim (fun hn => hn hin.1) fun hn => hn.elim (fun hn => hn hin.2.1) fun hn => hn hin.2.2
  have hnone : (d.fillLine core c (va / 128) 128 va).find? (fun e => e.core == k && e.ctx == x && e.va == a) = none :=
    List.find?_eq_none.mpr fun y hy hat => hout y hat (mem_fillLine hy)
  have hkept : ∀ y : IEntry, (y.core == k && y.ctx == x && y.va == a) = true → keptWord d core c va y = true := by
    intro y hat
    have hn : (y.core == core && y.ctx == c.n && y.va / 128 == va / 128) = false := by
      rw [Bool.eq_false_iff]
      intro hin
      simp only [Bool.and_eq_true, beq_iff_eq, and_assoc] at hin
      exact hout y hat hin
    rw [keptWord, hn]
    rfl
  have hsame : (fun y : IEntry => decide (keptWord d core c va y = true ∧ (y.core == k && y.ctx == x && y.va == a) = true)) =
      fun y => y.core == k && y.ctx == x && y.va == a := by
    funext y
    cases hat : (y.core == k && y.ctx == x && y.va == a) with
    | false => exact decide_eq_false fun hb => Bool.false_ne_true hb.2
    | true => exact decide_eq_true ⟨hkept y hat, rfl⟩
  rw [Dev.icached, h, List.find?_append, hnone, Option.or_none, List.find?_filter, hsame, Dev.icached]

theorem icacheFill_fills {s : State} {core va : Nat} {c : Ctx} (hc : s.dev.ctx? c.n = some c) (hcore : core < 896)
    (hhere : s.dev.codeWanted core c va = []) :
    ∃ t, exec (.icacheFill core c.n va) s = .next t ∧ Apart s t ∧ t.dev.icached core c.n va = some (s.dev.fillWord core c va) ∧
      ∀ k x a, (k ≠ core ∨ x ≠ c.n ∨ a / 128 ≠ va / 128) → t.dev.icached k x a = s.dev.icached k x a := by
  have hexec : exec (.icacheFill core c.n va) s = .next { s with dev := (s.dev.fillCode core c va).dropCode c.n } := by
    change execIcacheFill core c.n va s = _
    rw [execIcacheFill, onDev, hc]
    dsimp only
    rw [if_neg (Nat.not_le.mpr hcore), hhere]
  have hcache : ((s.dev.fillCode core c va).dropCode c.n).icache = s.dev.icache.filter (keptWord s.dev core c va) ++ s.dev.fillLine core c (va / 128) 128 va :=
    fillCode_icache s.dev core c va
  exact ⟨_, hexec, ((ApartDev.fillCode s.dev core c va).trans ⟨rfl, rfl, rfl, rfl, rfl⟩).apart, icached_fillCode s.dev core c va, fun k x a hne => icached_elsewhere hcache hne⟩

theorem codeAsked_askCode (c : Ctx) (l : List (Nat × Nat × Nat)) (d : Dev) :
    (∀ key, d.codeAsked key = true → (d.askCode c l).codeAsked key = true) ∧ (∀ x ∈ l, (d.askCode c l).codeAsked x.1 = true) ∧
      (d.askCode c l).icache = d.icache ∧ ApartDev d (d.askCode c l) := by
  induction l generalizing d with
  | nil => exact ⟨fun key hk => hk, fun x hx => absurd hx List.not_mem_nil, rfl, .refl d⟩
  | cons z l ih =>
    cases hz : d.codeAsked z.1 with
    | true =>
      have hstep : d.askCode c (z :: l) = d.askCode c l := by rw [Dev.askCode, List.foldl_cons, if_pos hz]; rfl
      obtain ⟨hkeep, hall, hcache, hapart⟩ := ih d
      rw [hstep]
      refine ⟨hkeep, fun x hx => ?_, hcache, hapart⟩
      rcases List.mem_cons.mp hx with rfl | hx
      · exact hkeep _ hz
      · exact hall x hx
    | false =>
      let e : Dev := { d with nextId := d.nextId + 1, remotes := d.remotes ++ [⟨d.nextId, none, some (codeReader, 0, z.1), c.n, z.2.1, z.2.2, .read 128, 0, none⟩] }
      have hstep : d.askCode c (z :: l) = e.askCode c l := by
        rw [Dev.askCode, List.foldl_cons, if_neg (by rw [hz]; exact Bool.false_ne_true)]
        rfl
      have hmore : ∀ key, d.codeAsked key = true → e.codeAsked key = true := fun key hk => by
        rw [Dev.codeAsked, List.any_append, show d.remotes.any _ = true from hk, Bool.true_or]
      have hnew : e.codeAsked z.1 = true := by
        rw [Dev.codeAsked, List.any_append, List.any_cons, beq_self_eq_true, Bool.true_or, Bool.or_true]
      obtain ⟨hkeep, hall, hcache, hapart⟩ := ih e
      rw [hstep]
      refine ⟨fun key hk => hkeep key (hmore key hk), fun x hx => ?_, hcache, ApartDev.trans (b := e) ⟨rfl, rfl, rfl, rfl, rfl⟩ hapart⟩
      rcases List.mem_cons.mp hx with rfl | hx
      · exact hkeep _ hnew
      · exact hall x hx

theorem icacheFill_asks {s : State} {core va : Nat} {c : Ctx} (hc : s.dev.ctx? c.n = some c) (hcore : core < 896)
    (hfar : s.dev.codeWanted core c va ≠ []) :
    ∃ t, exec (.icacheFill core c.n va) s = .next t ∧ Apart s t ∧ t.dev.icache = s.dev.icache ∧
      ∀ l ∈ s.dev.codeWanted core c va, t.dev.codeAsked l.1 = true := by
  obtain ⟨-, hall, hcache, hapart⟩ := codeAsked_askCode c (s.dev.codeWanted core c va) s.dev
  have hexec : exec (.icacheFill core c.n va) s = .next { s with dev := s.dev.askCode c (s.dev.codeWanted core c va) } := by
    change execIcacheFill core c.n va s = _
    rw [execIcacheFill, onDev, hc]
    dsimp only
    rw [if_neg (Nat.not_le.mpr hcore)]
    cases hw : s.dev.codeWanted core c va with
    | nil => exact absurd hw hfar
    | cons x l => rfl
  exact ⟨_, hexec, hapart.apart, hcache, hall⟩

theorem icacheFill_noCore {s : State} {core : Nat} (h : 896 ≤ core) (ctx va : Nat) :
    exec (.icacheFill core ctx va) s = .next s ∧ exec (.pageWalk core ctx va) s = .next s := by
  constructor
  · change execIcacheFill core ctx va s = _
    rw [execIcacheFill, onDev]
    cases hc : s.dev.ctx? ctx with
    | none => rfl
    | some c =>
      dsimp only
      rw [if_pos h]
  · change execPageWalk core ctx va s = _
    rw [execPageWalk, onDev]
    cases hc : s.dev.ctx? ctx with
    | none => rfl
    | some c =>
      dsimp only
      rw [if_pos (.inl h)]

/-! ## PAGE_WALK (R257, R258) -/

section
variable {d : Dev} {c : Ctx} {va : Nat}

theorem leafOf_ok {e size : Nat} {l : Leaf} (h : d.leafOf c va e size = .ok l) :
    va % size / 4096 * 4096 ≤ l.page ∧
      (e.testBit 6 = true → size = 4096 ∧ va / 4096 % 16 ≤ e / 4096 % 2 ^ 36 ∧ l.page = e / 4096 % 2 ^ 36 * 4096 + va % 4096 / 4096 * 4096) := by
  have hpage : ∀ {x : Leaf}, x.page = e / 4096 % 2 ^ 36 * 4096 + va % size / 4096 * 4096 → va % size / 4096 * 4096 ≤ x.page := fun hx => by omega
  simp only [Dev.leafOf] at h
  split at h
  · exact absurd h (by simp)
  split at h
  · exact absurd h (by simp)
  next hsize =>
  split at h
  · exact absurd h (by simp)
  next hgroup =>
  split at h
  · exact absurd h (by simp)
  have hl : l.page = e / 4096 % 2 ^ 36 * 4096 + va % size / 4096 * 4096 := by
    split at h
    · rw [← Except.ok.inj h]
    · split at h
      · rw [← Except.ok.inj h]
      · exact absurd h (by simp)
  refine ⟨hpage hl, fun hcontig => ?_⟩
  rw [hcontig] at hsize hgroup
  have h4096 : size = 4096 := by simpa using hsize
  have hmod : e / 4096 % 2 ^ 36 * 4096 / 4096 % 16 = va / 4096 % 16 := by simpa using hgroup
  rw [h4096] at hl
  exact ⟨h4096, by omega, hl⟩

/-- A leaf of a table of 4 KiB pages that has CONTIG: the walk has read it at its place in its line, and the entry is valid (R257). -/
def ContigLeaf (d : Dev) (c : Ctx) (va a : Nat) : Prop :=
  a % 128 = 8 * (va / 4096 % 16) ∧ (d.readGlob c.n a 8).2 = true ∧ leNat (d.readGlob c.n a 8).1 % 2 = 1 ∧
    (leNat (d.readGlob c.n a 8).1).testBit 6 = true

theorem groupOffset_le {n page : Nat} (hgroup : va / 4096 % 16 ≤ n) (hpage : page = n * 4096 + va % 4096 / 4096 * 4096) :
    va % 65536 / 4096 * 4096 ≤ page := by omega

/-- What the levels of a walk have: 4 KiB leaves stand in tables that a walk comes to through another one. -/
def LevelsFit (ls : List WalkLevel) (table : Nat) : Prop :=
  (∀ x ∈ ls, x.leaf ≠ 65536 ∧ (x.leaf = 4096 → x.shift = 12 ∧ x.bits = 9)) ∧ ∀ x ∈ ls.head?, x.leaf = 4096 → table % 4096 = 0

theorem walkFrom_ok {ls : List WalkLevel} {table size : Nat} {l : Leaf} (hfit : LevelsFit ls table) (h : d.walkFrom c va ls table = .ok (size, l)) :
    va % size / 4096 * 4096 ≤ l.page ∧ (size = 65536 → ∃ a, (d.walkReads c va ls table).getLast? = some a ∧ ContigLeaf d c va a) := by
  induction ls generalizing table with
  | nil => exact absurd h (by simp [Dev.walkFrom])
  | cons x ls ih =>
    obtain ⟨hlevels, hhead⟩ := hfit
    simp only [Dev.walkFrom] at h
    rw [Dev.walkReads]
    dsimp only
    generalize ha : table + 8 * (va / 2 ^ x.shift % 2 ^ x.bits) = a at h ⊢
    split at h
    · exact absurd h (by simp)
    next hmap =>
    rw [if_neg hmap]
    split at h
    · exact absurd h (by simp)
    next hok =>
    split at h
    · exact absurd h (by simp)
    next hvalid =>
    split at h
    · exact absurd h (by simp)
    split at h
    next hleafbit =>
      split at h
      · exact absurd h (by simp)
      cases hleaf : d.leafOf c va (leNat (d.readGlob c.n a 8).1) x.leaf with
      | error e =>
        rw [hleaf] at h
        exact absurd h (by simp [Except.map])
      | ok y =>
        rw [hleaf] at h
        obtain ⟨hsize, rfl⟩ := Prod.mk.inj (Except.ok.inj h)
        obtain ⟨hpage, hcontig⟩ := leafOf_ok hleaf
        cases hbit : (leNat (d.readGlob c.n a 8).1).testBit 6 with
        | false =>
          rw [hbit, if_neg Bool.false_ne_true] at hsize
          subst hsize
          exact ⟨hpage, fun h65536 => absurd h65536 (hlevels x List.mem_cons_self).1⟩
        | true =>
          rw [hbit, if_pos rfl] at hsize
          subst hsize
          obtain ⟨h4096, hgroup, hy⟩ := hcontig hbit
          refine ⟨groupOffset_le hgroup hy, fun _ => ⟨a, ?_, ?_, by simpa using hok, by omega, hbit⟩⟩
          · have hlast : ¬ leNat (d.readGlob c.n a 8).1 % 4 = 1 := by
              intro h1
              rw [Nat.testBit, Nat.shiftRight_eq_div_pow] at hleafbit
              simp at hleafbit
              omega
            rw [if_neg hlast]
            rfl
          · obtain ⟨hshift, hbits⟩ := (hlevels x List.mem_cons_self).2 h4096
            have htable := hhead x rfl h4096
            rw [hshift, hbits] at ha
            omega
    next hleafbit =>
      split at h
      · exact absurd h (by simp)
      have hnext : leNat (d.readGlob c.n a 8).1 % 4 = 1 := by
        rw [Nat.testBit, Nat.shiftRight_eq_div_pow] at hleafbit
        simp at hleafbit
        omega
      obtain ⟨hpage, hcontig⟩ := ih ⟨fun y hy => hlevels y (List.mem_cons_of_mem _ hy), fun y _ _ => by omega⟩ h
      refine ⟨hpage, fun hs => ?_⟩
      obtain ⟨b, hb, hleaf⟩ := hcontig hs
      rw [if_pos hnext]
      exact ⟨b, by rw [List.getLast?_cons, hb]; rfl, hleaf⟩

theorem contigPages_covers {a : Nat} (ha : (d.walkReads c va walkLevels c.root).getLast? = some a) (hleaf : ContigLeaf d c va a) :
    (d.contigPages c va).getLsbD (va / 4096 % 16) = true := by
  obtain ⟨hplace, hok, hvalid, hbit⟩ := hleaf
  have hi : va / 4096 % 16 < 16 := Nat.mod_lt _ (by decide)
  have haddr : a / 128 * 128 + 8 * (va / 4096 % 16) = a := by omega
  rw [Dev.contigPages, ha]
  dsimp only
  have hsame : ∀ (m : BitVec 16) (i : Nat), (let (bs, ok) := d.readGlob c.n (a / 128 * 128 + 8 * i) 8
      if ok && leNat bs % 2 == 1 && (leNat bs).testBit 6 then m ||| (1#16 <<< i) else m) =
      m ||| (if ((d.readGlob c.n (a / 128 * 128 + 8 * i) 8).2 && leNat (d.readGlob c.n (a / 128 * 128 + 8 * i) 8).1 % 2 == 1 &&
        (leNat (d.readGlob c.n (a / 128 * 128 + 8 * i) 8).1).testBit 6) = true then 1#16 <<< i else 0#16) := by
    intro m i
    dsimp only
    split
    · rfl
    · exact (BitVec.or_zero).symm
  simp only [hsame]
  rw [getLsbD_foldl_or]
  refine Or.inr ⟨va / 4096 % 16, List.mem_range.mpr hi, ?_⟩
  rw [haddr, hok, hvalid, hbit]
  simp [hi]

/-- The entry that a walk caches translates the address as the walk does. -/
theorem walkEntry_covers {size : Nat} {l : Leaf} (h : d.walkFrom c va walkLevels c.root = .ok (size, l)) :
    (d.walkEntry c va size l).ctx = c.n ∧ (d.walkEntry c va size l).covers va = true ∧
      { (d.walkEntry c va size l).leaf with
        page := (d.walkEntry c va size l).leaf.page + va % (d.walkEntry c va size l).size / 4096 * 4096 } = l := by
  have hfit : LevelsFit walkLevels c.root := by
    refine ⟨by simp [walkLevels], fun x hx h4096 => ?_⟩
    obtain rfl := Option.some.inj hx
    exact absurd h4096 (by simp)
  obtain ⟨hpage, hcontig⟩ := walkFrom_ok hfit h
  rw [Dev.walkEntry]
  dsimp only
  split
  · refine ⟨rfl, by simp [TlbEntry.covers], ?_⟩
    have hzero : va % 4096 / 4096 * 4096 = 0 := by omega
    rw [hzero, Nat.add_zero]
  · refine ⟨rfl, ?_, ?_⟩
    · by_cases hs : size = 65536
      · obtain ⟨a, ha, hleaf⟩ := hcontig hs
        rw [if_pos hs]
        simp only [TlbEntry.covers, beq_self_eq_true, Bool.true_and, contigPages_covers ha hleaf, Bool.or_true]
      · simp only [TlbEntry.covers, beq_self_eq_true, Bool.true_and, bne_iff_ne.mpr hs, Bool.true_or]
    · rw [Nat.sub_add_cancel hpage]

theorem pageWalk_range {s : State} {core : Nat} (hc : s.dev.ctx? c.n = some c) (hva : 2 ^ 56 ≤ va) : exec (.pageWalk core c.n va) s = .next s := by
  change execPageWalk core c.n va s = _
  rw [execPageWalk, onDev, hc]
  dsimp only
  rw [if_pos (.inr hva)]

theorem pageWalk_walks {s : State} {core : Nat} (hc : s.dev.ctx? c.n = some c) (hcore : core < 896) (hva : va < 2 ^ 56) :
    exec (.pageWalk core c.n va) s = .next { s with dev := s.dev.walkNow core c va } := by
  change execPageWalk core c.n va s = _
  rw [execPageWalk, onDev, hc]
  dsimp only
  rw [if_neg (by omega)]

theorem translate_walkNow {core : Nat} {l : Leaf} (h : d.walk c va = .ok l) : (d.walkNow core c va).translate core c va = .ok l := by
  rw [Dev.walk] at h
  cases hw : d.walkFrom c va walkLevels c.root with
  | error e =>
    rw [hw] at h
    exact absurd h (by simp [Except.map])
  | ok x =>
    obtain ⟨size, y⟩ := x
    rw [hw] at h
    obtain rfl : y = l := Except.ok.inj h
    obtain ⟨hctx, hcovers, hleaf⟩ := walkEntry_covers hw
    have hhit : (d.walkNow core c va).tlbHit core c.n va = some ({ d.walkEntry c va size y with core := core }, y) := by
      simp only [Dev.walkNow, hw]
      rw [Dev.tlbHit, Dev.cacheTlb, List.find?_cons_of_pos]
      · exact congrArg (fun l => some (_, l)) hleaf
      · rw [hctx, beq_self_eq_true, beq_self_eq_true, Bool.true_and, Bool.true_and]
        exact hcovers
    rw [Dev.translate, hhit]

theorem walkNow_fails {core e : Nat} (h : d.walk c va = .error e) : (d.walkNow core c va).tlb = d.tlb := by
  rw [Dev.walk] at h
  cases hw : d.walkFrom c va walkLevels c.root with
  | ok x =>
    rw [hw] at h
    exact absurd h (by simp [Except.map])
  | error e =>
    simp only [Dev.walkNow, hw]
    exact (SameWalks.foldl (fun d a => .touchLine d c.n a c.n) _ d).tlb

end

/-! ## Lines (R250, R254, R266) -/

theorem assoc_assocPut_other (l : List (Nat × Nat)) {k n : Nat} (v : Nat) (h : n ≠ k) : assoc (assocPut l k v) n = assoc l n := by
  rw [assoc, find?_assocPut_other l v h, assoc]

theorem llcEvict_evicts {s : State} {l : LlcLine} (h : s.dev.line? l.line = some l) :
    ∃ t, exec (.llcEvict ⟨l.line, .none⟩) s = .next t ∧ Apart s t ∧ t.dev.line? l.line = none ∧
      assoc t.dev.mt (sliceOf (l.line * 128)) = max (assoc s.dev.mt (sliceOf (l.line * 128))) (max l.wt l.le) ∧
      (∀ m, m ≠ sliceOf (l.line * 128) → assoc t.dev.mt m = assoc s.dev.mt m) ∧
      t.dev.xfers = s.dev.xfers ++ (match l.owner with | some c => [⟨channelOf (l.line * 128), l.line, c, false⟩] | none => []) := by
  have hexec : exec (.llcEvict ⟨l.line, .none⟩) s = .next { s with dev := s.dev.evictLine l } := by
    change execLlcEvict ⟨l.line, .none⟩ s = _
    rw [execLlcEvict, h]
    rfl
  refine ⟨_, hexec, ApartDev.apart ⟨rfl, rfl, rfl, rfl, rfl⟩, ?_, assoc_assocPut_same _ _ _, fun m hm => assoc_assocPut_other _ _ hm, ?_⟩
  · refine List.find?_eq_none.mpr fun x hx hat => ?_
    have hne := (List.mem_filter.mp hx).2
    rw [bne_iff_ne] at hne
    exact hne (beq_iff_eq.mp hat)
  · rw [show ({ s with dev := s.dev.evictLine l } : State).dev.xfers = (s.dev.evictLine l).xfers from rfl, Dev.evictLine]
    dsimp only
    cases l.owner with
    | none => exact (List.append_nil _).symm
    | some c => rfl

theorem llcEvict_absent {s : State} {n : Nat} (h : s.dev.line? n = none) : exec (.llcEvict ⟨n, .none⟩) s = .next s ∧
    exec (.llcEvict ⟨n, .corrected⟩) s = .next { s with mgmt := { s.mgmt with seccnt := (s.mgmt.seccnt + 1) % 2 ^ 32 } } := by
  constructor
  · change execLlcEvict ⟨n, .none⟩ s = _
    rw [execLlcEvict, h]
    rfl
  · change execLlcEvict ⟨n, .corrected⟩ s = _
    rw [execLlcEvict, h]
    rfl

theorem erase_of_filter {l : List Xfer} {x : Xfer} (h : l.filter (·.channel == x.channel) = [x]) : l.erase x = l.filter (·.channel != x.channel) := by
  induction l with
  | nil => rfl
  | cons y l ih =>
    cases hy : y.channel == x.channel with
    | false =>
      have hne : (y == x) = false := beq_eq_false_iff_ne.mpr fun he => by rw [he, beq_self_eq_true] at hy; exact Bool.false_ne_true hy.symm
      rw [List.filter_cons_of_neg (by rw [hy]; exact Bool.false_ne_true)] at h
      rw [List.erase_cons_tail (by rw [hne]; exact Bool.false_ne_true), List.filter_cons_of_pos (by rw [bne, hy]; rfl), ih h]
    | true =>
      replace h : y :: l.filter (·.channel == x.channel) = [x] := (List.filter_cons_of_pos (p := fun z : Xfer => z.channel == x.channel) hy).symm.trans h
      obtain ⟨rfl, hnone⟩ := List.cons.inj h
      rw [List.erase_cons_head, List.filter_cons_of_neg (by rw [bne, hy]; exact Bool.false_ne_true)]
      refine (List.filter_eq_self.mpr fun z hz => ?_).symm
      have hz' := List.filter_eq_nil_iff.mp hnone z hz
      rw [Bool.not_eq_true] at hz'
      rw [bne, hz']
      rfl

theorem memLineTransfer_carries {s : State} {x : Xfer} (hservers : s.dev.servers = []) (hone : s.dev.xfers.filter (·.channel == x.channel) = [x]) :
    ∃ t, exec (.memLineTransfer x.channel) s = .next t ∧ Apart s t ∧ t.dev.xfers = s.dev.xfers.filter (·.channel != x.channel) := by
  let carried : Dev := { s.dev with xfers := s.dev.xfers.erase x }
  have hwants : s.dev.lineWants x.channel = [(x.ctx, if x.charged then 0 else 128)] := by
    rw [Dev.lineWants, hone]
    rfl
  have hchoose : s.dev.choose (.chan x.channel) 0 (s.dev.lineWants x.channel) (s.dev.lastTurn (.chan x.channel)) = some x.ctx := by
    refine choose_only hservers _ _ _ (by rw [hwants]; exact List.cons_ne_nil _ _) fun w hw => ?_
    rw [hwants, List.mem_singleton] at hw
    rw [hw]
  have hpaid : [x].filter (fun y => y.charged && (s.dev.server? y.ctx (.chan x.channel)).isSome) = [] := by
    rw [List.filter_cons_of_neg (by rw [server?_none hservers, Option.isSome_none, Bool.and_false]; exact Bool.false_ne_true)]
    rfl
  have hcharge : ∀ n, carried.chargeAt x.ctx (.chan x.channel) 0 n = carried := fun n => modServer_none (d := carried) hservers _ _ _
  have hnote : carried.noteTurn (.chan x.channel) x.ctx =
      { carried with turns := upsert (·.1 == .chan x.channel) (.chan x.channel, x.ctx) (fun _ => (.chan x.channel, x.ctx)) carried.turns } := by
    rw [Dev.noteTurn, server?_none (d := carried) hservers, Option.isSome_none, if_neg Bool.false_ne_true]
  have hexec : exec (.memLineTransfer x.channel) s = .next { s with dev := carried.noteTurn (.chan x.channel) x.ctx } := by
    change execMemLineTransfer x.channel s = _
    rw [execMemLineTransfer, onDev]
    refine congrArg (fun d => Host.Outcome.next { s with dev := d }) ?_
    dsimp only
    rw [syncAt_none hservers, hone, hpaid, hchoose]
    rw [Option.bind_some, List.find?_cons_of_pos (p := fun y : Xfer => y.ctx == x.ctx) (beq_self_eq_true x.ctx)]
    exact congrArg (fun d : Dev => d.noteTurn (.chan x.channel) x.ctx) (hcharge _)
  rw [hnote] at hexec
  exact ⟨_, hexec, ⟨rfl, rfl, rfl, rfl, rfl, rfl⟩, erase_of_filter hone⟩

/-! ## O43 -/

/-- Settles O43. -/
theorem arbiters : Obligations.Arbiters := by
  unfold Obligations.Arbiters
  refine ⟨?_, fun s core port h => issueSelect_latch h, fun s core port => issueSelect_busy, ?_, fun s die c n => arbiterSelect_copy, fun s => rfl,
    fun s core va c hc hcore => ⟨icacheFill_fills hc hcore, icacheFill_asks hc hcore⟩, fun s core ctx va h => icacheFill_noCore h ctx va, ?_,
    fun s l => llcEvict_evicts, fun s n => llcEvict_absent, fun s x => memLineTransfer_carries⟩
  · intro s core port c hlatch hservers ready hbusy hne hall hnodup
    exact issueSelect_selects hlatch hservers hbusy hne hall hnodup
  · intro s ctx chan b d q p v x hv hq ht hb hd hpending hdue hx hchan hctx
    exact serverRelease_releases hv hq ht hb hd hpending hdue hx hchan hctx
  · intro s core va c hc hcore
    refine ⟨pageWalk_range hc, fun l hva hwalk => ⟨_, pageWalk_walks hc hcore hva, ?_, translate_walkNow hwalk⟩,
      fun e hva hwalk => ⟨_, pageWalk_walks hc hcore hva, ?_, walkNow_fails hwalk⟩⟩
    · exact (ApartDev.of_cachedDev (.walkNow s.dev core c va)).apart
    · exact (ApartDev.of_cachedDev (.walkNow s.dev core c va)).apart

end Sys2Proof.Proofs
end

section
/-!
PROOFS. The fabric between packages (09, 12: R272, R292, R310, R338 to R340, R381): O44.
-/

open Sys2Proof Sys2Proof.Machine Sys2Proof.Claims

-- The whole text is compiled in one process, which can hold few threads: these proofs are elaborated in order.
set_option Elab.async false

namespace Sys2Proof.Proofs

/-! ## Two records of one port (R338, R381)

A state may list two records of a port. FLIT_RECEIVE gives both the open packets of the first one that it finds, where the statement
lets each keep its own; the two states differ from there on. -/

/-- A flit of a port has been taken: every record of the port shows the open packets of the first one. -/
def flitTaken (d : Dev) (port : Nat) (f : FlitHead) : Dev :=
  d.modPort port fun x => { x with rxSeq := (x.rxSeq + 1) % 2 ^ 32, rx := (d.port port).rx.filter (·.1 != flitKey f) }

/-- The last flit of a packet brings it whole: it is delivered. -/
theorem flitReceive_last {s : State} {port : Nat} {f : FlitHead} {p : Packet} (h : LastFlit s port f p) :
    exec (.flitReceive port ⟨f, true⟩ p) s = .next { s with dev := (flitTaken s.dev port f).deliver port p } := by
  obtain ⟨hup, hseq, hlast, hvc, htag, hsrc, htype, hdst, hcount⟩ := h
  have hof : flitOf f p = true := by simp [flitOf, hvc, htag, hsrc, htype, hdst]
  have hn : (if f.first then 1 else if assoc (s.dev.port port).rx (flitKey f) = 0 then 0 else assoc (s.dev.port port).rx (flitKey f) + 1) = p.flits := by
    split
    next hfirst =>
      rw [if_pos hfirst] at hcount
      exact hcount.symm
    next hfirst =>
      rw [if_neg hfirst] at hcount
      obtain ⟨htwo, hn⟩ := hcount
      rw [if_neg (by omega), hn]
  change execFlitReceive port ⟨f, true⟩ p s = _
  rw [execFlitReceive, onDev]
  refine congrArg (fun d => Host.Outcome.next { s with dev := d }) ?_
  dsimp only
  rw [if_neg (by simp [hup, hseq]), hn, hlast, hof]
  simp only [Bool.true_or, if_true, beq_self_eq_true, Bool.and_self] <;> rfl

/-- A request outside a home context's ranges is refused: only the packets on their way out change. -/
theorem serveRequest_ports {d : Dev} {p : RemotePkt} {x : Ctx} (hx : d.homeOf p.ptag = some x) (hfn : (d.fn x.fn).flr = 0)
    (hout : mappable p.pa (askSize p.ask) = false) : (d.serveRequest p).ports = d.ports := by
  rw [Dev.serveRequest, hx]
  dsimp only
  rw [if_neg (by rw [hfn]; decide), if_pos (by rw [hout]; rfl)]
  rfl

/-- A port of a link that is up, which lets tag 1 in and has some open packets. -/
def openPort (rx : List (Nat × Nat)) : Port := ⟨0, true, 0, [1], 0, false, 0, 0, rx⟩

/-- Two records of port 0: the second has an open packet. -/
def twoPorts : State := { State.reset with dev := { Dev.reset with
  ports := [openPort [], openPort [(5, 1)]]
  tagHomes := [(1, 0)]
  ctxs := [tableCtx] } }

/-- A read of an address that no package has. -/
def farRead : RemotePkt := ⟨0, 1, 0, 0, 2 ^ 60, .read 8, 0⟩
def farPacket : Packet := ⟨0, 1, 0, 1, 0, .request farRead⟩
def farHead : FlitHead := ⟨0, 1, 0, true, true, Config.package, 0, 0, 0⟩

theorem twoPorts_lastFlit : LastFlit twoPorts 0 farHead farPacket := ⟨rfl, rfl, rfl, rfl, rfl, rfl, rfl, rfl, rfl⟩

theorem farRead_unmappable : mappable farRead.pa (askSize farRead.ask) = false := by simp [mappable, farRead, askSize]

theorem flitTaken_rx : (flitTaken twoPorts.dev 0 farHead).ports.map (·.rx) = [[], []] := by
  simp [flitTaken, Dev.modPort, Dev.port, twoPorts, openPort, upsert, modIf, Port.reset]

theorem linked_rx : (linked twoPorts 0 farHead []).dev.ports.map (·.rx) = [[], [(5, 1)]] := by
  simp [linked, Dev.modPort, twoPorts, openPort, upsert, modIf, flitKey, farHead]

/-! ## O44 -/

/-- Refutes O44: where a state lists two records of a port, a flit that is received gives the second one the first one's open packets,
so that the state is not the one in which each has lost the packet that has come. -/
theorem not_fabric : ¬ Obligations.Fabric := by
  unfold Obligations.Fabric
  intro h
  obtain ⟨-, -, -, -, -, -, hlast, -⟩ := h
  obtain ⟨-, -, hdeliver⟩ := hlast twoPorts 0 farHead farPacket tableCtx twoPorts_lastFlit
  obtain ⟨hrequest, -⟩ := hdeliver rfl (List.mem_singleton_self 1)
  have hsame := hrequest farRead rfl
  rw [flitReceive_last twoPorts_lastFlit] at hsame
  have hports : ((flitTaken twoPorts.dev 0 farHead).deliver 0 farPacket).ports = ((linked twoPorts 0 farHead []).dev.serveRequest farRead).ports :=
    congrArg (fun o : Host.Outcome State Fault Refusal => match o with | .next t => t.dev.ports | _ => []) hsame
  have hleft : ((flitTaken twoPorts.dev 0 farHead).deliver 0 farPacket).ports = (flitTaken twoPorts.dev 0 farHead).ports :=
    serveRequest_ports (d := flitTaken twoPorts.dev 0 farHead) (p := farRead) (x := tableCtx) rfl rfl farRead_unmappable
  have hright : ((linked twoPorts 0 farHead []).dev.serveRequest farRead).ports = (linked twoPorts 0 farHead []).dev.ports :=
    serveRequest_ports (x := tableCtx) rfl rfl farRead_unmappable
  rw [hleft, hright] at hports
  have hrx : (flitTaken twoPorts.dev 0 farHead).ports.map (·.rx) = (linked twoPorts 0 farHead []).dev.ports.map (·.rx) := congrArg _ hports
  rw [flitTaken_rx, linked_rx] at hrx
  exact absurd hrx (by decide)

end Sys2Proof.Proofs
end

section
/-!
PROOFS. Writes of the device of its own, when nothing stands before them (01, 07: R37, R38, R226).
-/

open Sys2Proof Sys2Proof.Machine Sys2Proof.Claims

-- The whole text is compiled in one process, which can hold few threads: these proofs are elaborated in order.
set_option Elab.async false

namespace Sys2Proof.Proofs

/-! ## Times of writes at their home (R268, R269) -/

theorem homeWrite_time (d : Dev) (ctx : Nat) (core : Option Nat) (device : Bool) (pa c : Nat) (f : Nat → List Byte) :
    c ≤ (d.homeWrite ctx core device (.glob pa) c f).2.1 := by
  simp only [Dev.homeWrite]
  split
  · exact le_max_left _ _
  · exact le_max_left _ _

theorem homeRmw_time (d : Dev) (ctx : Nat) (core : Option Nat) (device : Bool) (pa n c : Nat) (f : Nat → List Byte → List Byte) :
    c ≤ (d.homeRmw ctx core device (.glob pa) n c f).2.1 := by
  simp only [Dev.homeRmw]
  split
  · split
    · exact le_max_left _ _
    · exact le_max_left _ _
  · exact le_max_left _ _

/-! ## One owed write (R37) -/

/-- Nothing of a context is owed, and `n` bytes stand here that the device may write for it. -/
structure Payable (d : Dev) (ctx va pa n : Nat) : Prop where
  owed : ∀ o ∈ d.owed, o.ctx ≠ ctx
  remotes : ∀ r ∈ d.remotes, r.job ≠ some (owedReader, 0, ctx)
  place : ∃ x, d.ctx? ctx = some x ∧ d.quiet x = false ∧ d.access 0 x va needW = .ok (.glob pa)
  written : ∀ i ∈ sectorsOf pa n, Written d ctx i

theorem payable_of_deviceAt {s : State} {ctx va pa n : Nat} (h : DeviceAt s ctx va pa n) : Payable s.dev ctx va pa n := by
  obtain ⟨⟨howed, hremotes⟩, x, hx, hquiet, haccess, hsound⟩ := h
  exact ⟨howed, hremotes, ⟨x, hx, hquiet, haccess⟩, hsound⟩

/-- What a device must share with another for the same writes. -/
theorem Payable.transfer {d e : Dev} {ctx va pa n : Nat} (h : Payable d ctx va pa n) (hw : SameWalks d e) (howed : ∀ o ∈ e.owed, o ∈ d.owed)
    (hremotes : ∀ r ∈ e.remotes, r ∈ d.remotes) (hctx : e.ctx? ctx = d.ctx? ctx) : Payable e ctx va pa n := by
  obtain ⟨x, hx, hquiet, haccess⟩ := h.place
  have hfn : e.fn x.fn = d.fn x.fn := by rw [Dev.fn, hw.fns, Dev.fn]
  refine ⟨fun o ho => h.owed o (howed o ho), fun r hr => h.remotes r (hremotes r hr), ⟨x, hctx.trans hx, ?_, (hw.access 0 x va needW).trans haccess⟩,
    fun i hi => (hw.bytes.written ctx i).mpr (h.written i hi)⟩
  rw [Dev.quiet, hfn]
  exact hquiet

theorem length_objBytes (n : Nat) (e c : Bool) (t : Nat) : (objBytes n e c t).length = 16 := by
  simp only [objBytes, List.length_append, leBytes_length]

/-- The old bytes that such a write takes up. -/
def OwedWrite.old (w : OwedWrite) (d : Dev) (ctx pa : Nat) : List Byte :=
  match w with
  | .inc _ => (d.readGlob ctx pa 8).1
  | _ => []

theorem payAt_stores {d : Dev} {o : Owed} {pa : Nat} (h : ∀ i ∈ sectorsOf pa o.what.size, Written d o.ctx i) :
    ∃ e t, d.payAt o (.glob pa) = (e, some t) ∧ StoredDev d e o.ctx pa (o.what.fill t (OwedWrite.old o.what d o.ctx pa)) ∧ o.clock ≤ t := by
  obtain ⟨ctx, chained, clock, addr, what⟩ := o
  dsimp only at *
  cases what with
  | object n e c =>
    obtain ⟨x, y, t, hwrite, hx, hy⟩ := homeWrite_written (f := fun t => objBytes n e c (if n = 0 then t else 0)) (fun _ => length_objBytes _ _ _ _) h
      none true clock
    have htime := homeWrite_time d ctx none true pa clock fun t => objBytes n e c (if n = 0 then t else 0)
    rw [hwrite] at htime
    exact ⟨y, t, congrArg (fun q : Dev × Nat × Bool => (q.1, some q.2.1)) hwrite, ⟨x, hx, hy⟩, htime⟩
  | bytes bs =>
    obtain ⟨x, y, t, hwrite, hx, hy⟩ := homeWrite_written (f := fun _ => bs) (fun _ => rfl) h none true clock
    have htime := homeWrite_time d ctx none true pa clock fun _ => bs
    rw [hwrite] at htime
    exact ⟨y, t, congrArg (fun q : Dev × Nat × Bool => (q.1, some q.2.1)) hwrite, ⟨x, hx, hy⟩, htime⟩
  | inc n =>
    obtain ⟨x, y, t, hwrite, hx, hy⟩ := homeRmw_written (f := fun _ old => leBytes 8 (cincNew (leNat old) n)) (fun _ _ => leBytes_length _ _) h none true clock
    have htime := homeRmw_time d ctx none true pa 8 clock fun _ old => leBytes 8 (cincNew (leNat old) n)
    rw [hwrite] at htime
    exact ⟨y, t, congrArg (fun q : Dev × Nat × Option (List Byte) => (q.1, some q.2.1)) hwrite, ⟨x, hx, hy⟩, htime⟩

theorem StoredDev.trans_aside {d e f : Dev} {slot a : Nat} {bs : List Byte} (h : StoredDev d e slot a bs) (g : Aside e f) : StoredDev d f slot a bs := by
  obtain ⟨x, hx, he⟩ := h
  exact ⟨x, hx, he.trans g⟩

theorem payOne_stores {d : Dev} {o : Owed} {pa : Nat} (hplace : ∃ x, d.ctx? o.ctx = some x ∧ d.quiet x = false ∧ d.access 0 x o.addr needW = .ok (.glob pa))
    (hwritten : ∀ i ∈ sectorsOf pa o.what.size, Written d o.ctx i) :
    ∃ e t, d.payOne o = (e, some t) ∧ StoredDev d e o.ctx pa (o.what.fill t (OwedWrite.old o.what d o.ctx pa)) ∧ o.clock ≤ t := by
  obtain ⟨x, hx, hquiet, haccess⟩ := hplace
  obtain ⟨e, t, hpay, hstored, ht⟩ := payAt_stores hwritten
  refine ⟨e.looked 0 x o.addr, t, ?_, hstored.trans_aside (.of_cachedDev (.looked e 0 x o.addr)), ht⟩
  simp only [Dev.payOne, hx, hquiet, haccess, hpay, Bool.false_eq_true, if_false]

theorem paid_last {ctx t : Nat} {l : List Owed} (h : ∀ o ∈ l, o.ctx ≠ ctx) {o : Owed} (ho : o.ctx = ctx) : paid ctx t (l ++ [o]) = l := by
  induction l with
  | nil =>
    rw [List.nil_append, paid, if_neg (not_not.mpr ho)]
    rfl
  | cons a l ih =>
    rw [List.cons_append, paid, if_pos (h a List.mem_cons_self), ih fun o ho => h o (List.mem_cons_of_mem _ ho)]

theorem pay_nothing {ctx : Nat} {d : Dev} (h : ∀ o ∈ d.owed, o.ctx ≠ ctx) (n : Nat) : Dev.pay ctx n d = d := by
  have hnone : d.owed.find? (·.ctx == ctx) = none := List.find?_eq_none.mpr fun o ho hat => h o ho (beq_iff_eq.mp hat)
  cases n with
  | zero => rfl
  | succ n =>
    rw [Dev.pay, hnone]

theorem owe_nothing {ctx : Nat} {d : Dev} (h : ∀ o ∈ d.owed, o.ctx ≠ ctx) : d.owe ctx [] = d := by
  have hsame : ({ d with owed := d.owed ++ ([] : List (Nat × Nat × OwedWrite)).mapIdx fun i (a, c, w) => ⟨ctx, i != 0, c, a, w⟩ } : Dev) = d := by
    obtain ⟨⟩ := d
    simp only [List.mapIdx_nil, List.append_nil]
  rw [Dev.owe, hsame, pay_nothing h]

theorem Aside.setOwed {d e : Dev} {l : List Owed} (h : Aside { d with owed := l } e) (k : List Owed) : Aside { d with owed := k } { e with owed := k } :=
  ⟨congrArg (fun x : Dev => { x with owed := k }) h.rest, h.waves⟩

theorem StoredDev.setOwed {d e : Dev} {l : List Owed} {slot a : Nat} {bs : List Byte} (h : StoredDev { d with owed := l } e slot a bs) (k : List Owed) :
    StoredDev { d with owed := k } { e with owed := k } slot a bs := by
  obtain ⟨x, hx, he⟩ := h
  exact ⟨{ x with owed := k }, hx.setOwed k, he.setOwed (d := overwritten x slot a bs) (l := (overwritten x slot a bs).owed) k⟩

theorem StoredDev.owed {d e : Dev} {slot a : Nat} {bs : List Byte} (h : StoredDev d e slot a bs) : e.owed = d.owed := by
  obtain ⟨x, hx, he⟩ := h
  rw [he.rest]
  change x.owed = _
  rw [hx.rest]

/-- One write that the device owes is performed at once. -/
theorem owe_stores {d : Dev} {ctx va pa c : Nat} {w : OwedWrite} (h : Payable d ctx va pa w.size) :
    ∃ t, StoredDev d (d.owe ctx [(va, c, w)]) ctx pa (w.fill t (OwedWrite.old w d ctx pa)) ∧ c ≤ t := by
  let o : Owed := ⟨ctx, false, c, va, w⟩
  let x : Dev := { d with owed := d.owed ++ [o] }
  have hwalks : SameWalks d x := ⟨⟨rfl, rfl, rfl, rfl⟩, rfl, rfl⟩
  obtain ⟨y, hy, hquiet, haccess⟩ := h.place
  obtain ⟨e, t, hpay, hstored, ht⟩ := payOne_stores (d := x) (o := o) ⟨y, hy, hquiet, (hwalks.access 0 y va needW).trans haccess⟩
    fun i hi => (hwalks.bytes.written ctx i).mpr (h.written i hi)
  have hnone : d.owed.find? (·.ctx == ctx) = none := List.find?_eq_none.mpr fun o ho hat => h.owed o ho (beq_iff_eq.mp hat)
  have hfirst : x.owed.find? (·.ctx == ctx) = some o := by
    rw [List.find?_append, hnone, Option.none_or, List.find?_cons_of_pos (p := fun o : Owed => o.ctx == ctx) (beq_self_eq_true ctx)]
  have hfree : ¬ (x.remotes.any fun r => r.job == some (owedReader, 0, ctx)) = true := by
    rw [List.any_eq_true]
    rintro ⟨r, hr, hjob⟩
    exact h.remotes r hr (beq_iff_eq.mp hjob)
  have hleft : paid ctx t e.owed = d.owed := by
    rw [hstored.owed]
    exact paid_last h.owed rfl
  have howe : d.owe ctx [(va, c, w)] = { e with owed := d.owed } := by
    have hlength : x.owed.length = d.owed.length + 1 := by rw [List.length_append, List.length_singleton]
    change Dev.pay ctx x.owed.length x = _
    rw [hlength, Dev.pay, hfirst]
    dsimp only
    rw [if_neg hfree, hpay]
    dsimp only
    rw [hleft, pay_nothing (d := { e with owed := d.owed }) h.owed]
  rw [howe]
  exact ⟨t, (hstored.setOwed (d := d) d.owed : StoredDev d { e with owed := d.owed } ctx pa _), ht⟩

end Sys2Proof.Proofs
end

section
/-!
PROOFS. Collectives: their steps, messages and ends (02, 09, 12: R226, R342, R376, R396): O38.
-/

open Sys2Proof Sys2Proof.Machine Sys2Proof.Claims

-- The whole text is compiled in one process, which can hold few threads: these proofs are elaborated in order.
set_option Elab.async false

namespace Sys2Proof.Proofs

/-! ## Buffers (R343, R396) -/

/-- Devices that differ in their collectives, the packets on their way and the tickets, the collectives' numbers being the same. -/
structure Buffered (d e : Dev) : Prop where
  rest : e = { d with colls := e.colls, egress := e.egress, ticket := e.ticket }
  ids : e.colls.map (·.id) = d.colls.map (·.id)

namespace Buffered

theorem refl (d : Dev) : Buffered d d := ⟨rfl, rfl⟩

theorem trans {a b c : Dev} (h : Buffered a b) (g : Buffered b c) : Buffered a c :=
  ⟨by
    have hc := g.rest
    rw [h.rest] at hc
    exact hc, g.ids.trans h.ids⟩

theorem modColl (d : Dev) (id : Nat) {f : Coll → Coll} (hf : ∀ c, (f c).id = c.id) : Buffered d (d.modColl id f) := by
  refine ⟨rfl, ?_⟩
  simp only [Dev.modColl, modIf, List.map_map]
  refine List.map_congr_left fun c _ => ?_
  dsimp only [Function.comp]
  split
  · exact hf c
  · rfl

theorem sendRank (d : Dev) (c : Coll) (p flits : Nat) (body : PktBody) : Buffered d (d.sendRank c p flits body) := ⟨rfl, rfl⟩

/-- A chunk has been asked for. -/
def askedFor (a : Nat × Nat) (c : Coll) : Coll := { c with asks := c.asks.filter (· != a), opened := a.2 :: c.opened }
/-- A chunk has a send buffer. -/
def holdsBuffer (a : Nat × Nat) (c : Coll) : Coll := { c with cleared := c.cleared.filter (· != a), sends := c.sends ++ [a.2] }

theorem grantClears (d : Dev) (engine n : Nat) : Buffered d (d.grantClears engine n) := by
  induction n generalizing d with
  | zero => exact refl d
  | succ n ih =>
    simp only [Dev.grantClears]
    split
    · exact refl d
    · split
      · exact refl d
      next c a _ _ =>
        have hmod : Buffered d (d.modColl c.id (askedFor a)) := modColl d c.id fun _ => rfl
        refine trans ?_ (ih _)
        split
        · exact hmod.trans (sendRank _ _ _ _ _)
        · exact hmod

theorem grantSends (d : Dev) (engine n : Nat) : Buffered d (d.grantSends engine n) := by
  induction n generalizing d with
  | zero => exact refl d
  | succ n ih =>
    simp only [Dev.grantSends]
    split
    · exact refl d
    · split
      · exact refl d
      next c a _ _ =>
        have hmod : Buffered d (d.modColl c.id (holdsBuffer a)) := modColl d c.id fun _ => rfl
        exact hmod.trans (ih _)

theorem grantBuffers (d : Dev) (engine : Nat) : Buffered d (d.grantBuffers engine) := (grantClears d engine _).trans (grantSends _ engine _)

/-- The READY of a step's peer has been used: the chunks are asked for from a ticket on. -/
def readyUsed (p ticket n : Nat) (c : Coll) : Coll := { c with ready := c.ready.erase p, asks := (List.range n).map fun k => (ticket + k, k) }

theorem useReady (d : Dev) (id : Nat) : Buffered d (d.useReady id) := by
  rw [Dev.useReady]
  cases d.coll? id with
  | none => exact refl d
  | some c =>
    cases hp : c.now.recvFrom with
    | none =>
      dsimp only
      rw [hp]
      exact refl d
    | some p =>
      dsimp only
      rw [hp]
      dsimp only
      split
      · exact refl d
      · split
        · exact modColl d id fun _ => rfl
        · have hmod : ∀ n m, Buffered d (Dev.modColl { d with ticket := m } id (readyUsed p d.ticket n)) := fun n m =>
            trans (b := { d with ticket := m }) ⟨rfl, rfl⟩ (modColl _ id fun _ => rfl)
          exact (hmod _ _).trans (grantBuffers _ _)

theorem apartDev {d e : Dev} (h : Buffered d e) : ApartDev d e := by
  rw [h.rest]
  exact ⟨rfl, rfl, rfl, rfl, rfl⟩

theorem coll?_none {d e : Dev} (h : Buffered d e) {id : Nat} (hd : d.coll? id = none) : e.coll? id = none := by
  refine List.find?_eq_none.mpr fun c hc hat => ?_
  have hid : c.id ∈ d.colls.map (·.id) := h.ids ▸ List.mem_map_of_mem hc
  obtain ⟨y, hy, hyc⟩ := List.mem_map.mp hid
  refine List.find?_eq_none.mp hd y hy ?_
  rw [hyc]
  exact hat

theorem jobs {d e : Dev} (h : Buffered d e) : e.jobs = d.jobs := by rw [h.rest]

theorem sameBytes {d e : Dev} (h : Buffered d e) : SameBytes d e := by
  rw [h.rest]
  exact ⟨rfl, rfl, rfl, rfl⟩

end Buffered

theorem coll?_modColl {d : Dev} {id : Nat} {f : Coll → Coll} (hf : ∀ x, (f x).id = x.id) {c : Coll} (h : d.coll? id = some c) :
    (d.modColl id f).coll? id = some (f c) := by
  have hkeep : ∀ x : Coll, (x.id == id) = true → ((f x).id == id) = true := fun x hx => by rw [hf]; exact hx
  exact (find?_modIf_same hkeep d.colls).trans (congrArg (Option.map f) h)

/-- Nobody waits for buffers at an engine. -/
def Unasked (d : Dev) (engine : Nat) : Prop := ∀ x ∈ d.collsAt engine, x.asks = [] ∧ x.cleared = []

theorem grantClears_unasked {d : Dev} {engine : Nat} (h : ∀ x ∈ d.collsAt engine, x.asks = []) (n : Nat) : d.grantClears engine n = d := by
  have hnone : ((d.collsAt engine).flatMap fun c => c.asks.map fun a => (c, a)) = [] :=
    List.flatMap_eq_nil_iff.mpr fun x hx => by rw [h x hx, List.map_nil]
  cases n with
  | zero => rfl
  | succ n =>
    rw [Dev.grantClears, hnone]
    rfl

theorem grantSends_unasked {d : Dev} {engine : Nat} (h : ∀ x ∈ d.collsAt engine, x.cleared = []) (n : Nat) : d.grantSends engine n = d := by
  have hnone : ((d.collsAt engine).flatMap fun c => c.cleared.map fun a => (c, a)) = [] :=
    List.flatMap_eq_nil_iff.mpr fun x hx => by rw [h x hx, List.map_nil]
  cases n with
  | zero => rfl
  | succ n =>
    rw [Dev.grantSends, hnone]
    rfl

/-- A list that begins with one of the least of its keys. -/
theorem leastBy_head {α : Type} {f : α → Nat} {x : α} {l : List α} (h : ∀ y ∈ l, f x ≤ f y) : leastBy f (x :: l) = some x := by
  rw [leastBy]
  cases hl : leastBy f l with
  | none => rfl
  | some y => exact if_pos (h y (leastBy_spec hl).1)

/-- The first collective of a number among those at its engine: what stands before it, and behind it. -/
theorem collsAt_modColl {d : Dev} {c : Coll} {f : Coll → Coll} (hf : ∀ x, (f x).engine = x.engine ∧ (f x).begun = x.begun) (hc : d.coll? c.id = some c)
    (hbegun : c.begun = true) :
    ∃ before after, d.collsAt c.engine = before ++ c :: after ∧
      (d.modColl c.id f).collsAt c.engine = before ++ f c :: after.map (fun x => if x.id == c.id then f x else x) := by
  obtain ⟨-, before, after, hlist, hbefore⟩ := List.find?_eq_some_iff_append.mp hc
  have hmod : (d.modColl c.id f).colls = before ++ f c :: after.map (fun x => if x.id == c.id then f x else x) := by
    rw [Dev.modColl, hlist, modIf, List.map_append, List.map_cons, if_pos (beq_self_eq_true c.id)]
    refine congrArg (· ++ _) (List.map_congr_left (g := id) (fun x hx => ?_) |>.trans (List.map_id before))
    rw [if_neg]
    · rfl
    · intro h
      have := hbefore x hx
      rw [h] at this
      exact Bool.false_ne_true this
  have hkeep : (c.engine == c.engine && c.begun) = true := by rw [beq_self_eq_true, hbegun]; rfl
  have hkeep' : ((f c).engine == c.engine && (f c).begun) = true := by rw [(hf c).1, (hf c).2]; exact hkeep
  refine ⟨before.filter fun x => x.engine == c.engine && x.begun, after.filter fun x => x.engine == c.engine && x.begun, ?_, ?_⟩
  · rw [Dev.collsAt, hlist, List.filter_append, List.filter_cons_of_pos (p := fun x : Coll => x.engine == c.engine && x.begun) hkeep]
  · rw [Dev.collsAt, hmod, List.filter_append, List.filter_cons_of_pos (p := fun x : Coll => x.engine == c.engine && x.begun) hkeep',
      List.filter_map]
    refine congrArg (fun l => _ ++ f c :: List.map _ l) (List.filter_congr fun x _ => ?_)
    dsimp only [Function.comp]
    split
    · rw [(hf x).1, (hf x).2]
    · rfl

/-! ## READY, clear-to-send, chunks (R342, R376) -/

/-- A peer's READY has come. -/
def tookReady (peer clock : Nat) (c : Coll) : Coll := { c with ready := c.ready ++ [peer], time := max c.time clock }

theorem collReady_eq (s : State) (id peer clock : Nat) :
    exec (.collReady id peer clock) s = .next { s with dev := (s.dev.modColl id (tookReady peer clock)).useReady id } := rfl

theorem useReady_unwanted {d : Dev} {id : Nat} {c : Coll} (hc : d.coll? id = some c) (h : c.wantsReady = false) : d.useReady id = d := by
  rw [Dev.useReady, hc]
  dsimp only
  cases c.now.recvFrom with
  | none => rfl
  | some p =>
    dsimp only
    rw [h, if_pos (by rfl)]

theorem useReady_absent {d : Dev} {id : Nat} {c : Coll} (hc : d.coll? id = some c) (h : c.ready = []) : d.useReady id = d := by
  rw [Dev.useReady, hc]
  dsimp only
  cases c.now.recvFrom with
  | none => rfl
  | some p =>
    dsimp only
    rw [h, if_pos]
    rw [List.contains_nil, Bool.not_false, Bool.or_true]

theorem useReady_barrier {d : Dev} {id p : Nat} {c : Coll} (hc : d.coll? id = some c) (hp : c.now.recvFrom = some p) (hwants : c.wantsReady = true)
    (hcame : c.ready.contains p = true) (hop : c.desc.op = 4) :
    d.useReady id = d.modColl id fun c => { c with ready := c.ready.erase p, got := [0] } := by
  rw [Dev.useReady, hc]
  dsimp only
  rw [hp]
  dsimp only
  rw [hwants, hcame, if_neg (by simp), if_pos hop]

theorem useReady_asks {d : Dev} {id p : Nat} {c : Coll} (hc : d.coll? id = some c) (hp : c.now.recvFrom = some p) (hwants : c.wantsReady = true)
    (hcame : c.ready.contains p = true) (hop : c.desc.op ≠ 4) :
    d.useReady id = (Dev.modColl { d with ticket := d.ticket + c.chunks c.now.recv } id (Buffered.readyUsed p d.ticket (c.chunks c.now.recv))).grantBuffers c.engine := by
  rw [Dev.useReady, hc]
  dsimp only
  rw [hp]
  dsimp only
  rw [hwants, hcame, if_neg (by simp), if_neg hop]
  rfl

section
variable {s : State} {c : Coll} {x : CollStep} {peer chunk clock : Nat}

theorem collReady_keeps (hc : s.dev.coll? c.id = some c) (h : c.wantsReady = false) :
    ∃ t, exec (.collReady c.id peer clock) s = .next t ∧ Apart s t ∧ t.dev.egress = s.dev.egress ∧
      t.dev.coll? c.id = some (tookReady peer clock c) := by
  have hmod : (s.dev.modColl c.id (tookReady peer clock)).coll? c.id = some (tookReady peer clock c) := coll?_modColl (f := tookReady peer clock) (fun _ => rfl) hc
  have hexec := collReady_eq s c.id peer clock
  rw [useReady_unwanted hmod h] at hexec
  exact ⟨_, hexec, ⟨rfl, rfl, rfl, rfl, rfl, rfl⟩, rfl, hmod⟩

theorem collReady_barrier (hstep : InStep s c x) (hready : c.ready = []) (hpeer : x.recvFrom = some peer) (hwants : c.wantsReady = true)
    (hop : c.desc.op = 4) :
    ∃ t, exec (.collReady c.id peer clock) s = .next t ∧ Apart s t ∧ t.dev.egress = s.dev.egress ∧
      t.dev.coll? c.id = some { c with got := [0], time := max c.time clock } := by
  obtain ⟨hc, hbegun, rfl⟩ := hstep
  have hmod : (s.dev.modColl c.id (tookReady peer clock)).coll? c.id = some (tookReady peer clock c) := coll?_modColl (f := tookReady peer clock) (fun _ => rfl) hc
  let e := (s.dev.modColl c.id (tookReady peer clock)).modColl c.id fun c => { c with ready := c.ready.erase peer, got := [0] }
  have huse : (s.dev.modColl c.id (tookReady peer clock)).useReady c.id = e := by
    have hcontains : (tookReady peer clock c).ready.contains peer = true := List.contains_iff_mem.mpr (List.mem_append_right _ (List.mem_singleton_self peer))
    exact useReady_barrier hmod hpeer hwants hcontains hop
  have hexec := collReady_eq s c.id peer clock
  rw [huse] at hexec
  refine ⟨_, hexec, ⟨rfl, rfl, rfl, rfl, rfl, rfl⟩, rfl, ?_⟩
  have hgot := coll?_modColl (f := fun c => { c with ready := c.ready.erase peer, got := [0] }) (fun _ => rfl) hmod
  refine hgot.trans (congrArg some ?_)
  have hleft : (tookReady peer clock c).ready.erase peer = c.ready := by
    rw [tookReady, hready, List.nil_append, List.erase_cons_head]
  change { tookReady peer clock c with ready := (tookReady peer clock c).ready.erase peer, got := [0] } = _
  rw [hleft]
  rfl

theorem collChunkReceive_keeps {bytes : List Byte} (hstep : InStep s c x) (hpeer : x.recvFrom = some peer) (hopen : chunk ∈ c.opened)
    (hnew : ∀ y ∈ c.arrived, y.1 ≠ chunk) (hlength : bytes.length = c.chunkBytes x.recv chunk) :
    ∃ t, exec (.collChunkReceive c.id peer chunk clock bytes) s = .next t ∧ Apart s t ∧ t.dev.egress = s.dev.egress ∧
      t.dev.coll? c.id = some { c with arrived := c.arrived ++ [(chunk, bytes)], time := max c.time clock } := by
  obtain ⟨hc, hbegun, rfl⟩ := hstep
  let f (c : Coll) : Coll := { c with arrived := c.arrived ++ [(chunk, bytes)], time := max c.time clock }
  have hchunk : s.dev.collChunk c.id peer chunk clock bytes = s.dev.modColl c.id f := by
    have hfresh : c.arrived.any (·.1 == chunk) = false := List.any_eq_false.mpr fun y hy hat => hnew y hy (beq_iff_eq.mp hat)
    rw [Dev.collChunk, hc]
    dsimp only
    rw [if_neg]
    simp [hbegun, hpeer, hopen, hfresh, hlength]
  have hexec : exec (.collChunkReceive c.id peer chunk clock bytes) s = .next { s with dev := s.dev.collChunk c.id peer chunk clock bytes } := rfl
  rw [hchunk] at hexec
  exact ⟨_, hexec, ⟨rfl, rfl, rfl, rfl, rfl, rfl⟩, rfl, coll?_modColl (f := f) (fun _ => rfl) hc⟩

end

/-! ## Room in the buffers (R343, R396) -/

/-- A change of the collectives of one number. -/
def changed (id : Nat) (f : Coll → Coll) (x : Coll) : Coll := if x.id == id then f x else x

theorem collsAt_changed {d : Dev} {f : Coll → Coll} (hf : ∀ x, (f x).engine = x.engine ∧ (f x).begun = x.begun) (id engine : Nat) :
    (d.modColl id f).collsAt engine = (d.collsAt engine).map (changed id f) := by
  change (d.colls.map (changed id f)).filter _ = _
  rw [List.filter_map, Dev.collsAt]
  refine congrArg (List.map _) (List.filter_congr fun x _ => ?_)
  dsimp only [Function.comp, changed]
  split
  · rw [(hf x).1, (hf x).2]
  · rfl

theorem mem_collsAt_changed {d : Dev} {f : Coll → Coll} (hf : ∀ x, (f x).engine = x.engine ∧ (f x).begun = x.begun) {id engine : Nat} {y : Coll}
    (h : y ∈ (d.modColl id f).collsAt engine) : ∃ x ∈ d.collsAt engine, y = changed id f x := by
  rw [collsAt_changed hf] at h
  obtain ⟨x, hx, rfl⟩ := List.mem_map.mp h
  exact ⟨x, hx, rfl⟩

/-- The receive space that a collective holds, and its send buffers. -/
def recvSpace (c : Coll) : Nat := (c.opened.map (c.buffer c.now.recv)).sum
def sendSpace (c : Coll) : Nat := (c.sends.map (c.buffer c.now.send)).sum

theorem recvHeld_changed {d : Dev} {f : Coll → Coll} (hf : ∀ x, (f x).engine = x.engine ∧ (f x).begun = x.begun) (hspace : ∀ x, recvSpace (f x) = recvSpace x)
    (id engine : Nat) : (d.modColl id f).recvHeld engine = d.recvHeld engine := by
  change (((d.modColl id f).collsAt engine).map recvSpace).sum = ((d.collsAt engine).map recvSpace).sum
  rw [collsAt_changed hf, List.map_map]
  refine congrArg List.sum (List.map_congr_left fun x _ => ?_)
  dsimp only [Function.comp, changed]
  split
  · exact hspace x
  · rfl

theorem sendHeld_changed {d : Dev} {f : Coll → Coll} (hf : ∀ x, (f x).engine = x.engine ∧ (f x).begun = x.begun) (hspace : ∀ x, sendSpace (f x) = sendSpace x)
    (id engine : Nat) : (d.modColl id f).sendHeld engine = d.sendHeld engine := by
  have hsum : (((d.modColl id f).collsAt engine).map sendSpace).sum = ((d.collsAt engine).map sendSpace).sum := by
    rw [collsAt_changed hf, List.map_map]
    refine congrArg List.sum (List.map_congr_left fun x _ => ?_)
    dsimp only [Function.comp, changed]
    split
    · exact hspace x
    · rfl
  exact congrArg (· + ((d.egress.filterMap d.chunkHeld).map fun h => if h.1 = engine then h.2 else 0).sum) hsum

theorem unasked_changed {d : Dev} {f : Coll → Coll} (hf : ∀ x, (f x).engine = x.engine ∧ (f x).begun = x.begun)
    (hsame : ∀ x, (f x).asks = x.asks ∧ (f x).cleared = x.cleared) {id engine : Nat} (h : Unasked d engine) : Unasked (d.modColl id f) engine := by
  intro y hy
  obtain ⟨x, hx, rfl⟩ := mem_collsAt_changed hf hy
  rw [changed]
  split
  · rw [(hsame x).1, (hsame x).2]
    exact h x hx
  · exact h x hx

/-- The device once a chunk of a collective has been asked for, which nothing else waited for. -/
def clearSent (d : Dev) (c : Coll) (p : Nat) (a : Nat × Nat) : Dev := (d.modColl c.id (Buffered.askedFor a)).sendRank c p 1 (.cts c.seq c.comm.rank a.2 c.time)

/-- Collectives of one number wait for one chunk: it is asked for, if it fits. -/
theorem grantBuffers_asks {d : Dev} {c : Coll} {f : Coll → Coll} {a : Nat × Nat} {p : Nat} (hf : ∀ x, (f x).engine = x.engine ∧ (f x).begun = x.begun)
    (hid : ∀ x, (f x).id = x.id) (hasks : ∀ x, (f x).asks = [a] ∧ (f x).cleared = x.cleared) (hfree : Unasked d c.engine) (hc : d.coll? c.id = some c)
    (hbegun : c.begun = true) (hpeer : (f c).now.recvFrom = some p)
    (hroom : (d.modColl c.id f).recvHeld c.engine + (f c).buffer (f c).now.recv a.2 ≤ 8 * 2 ^ 20) :
    (d.modColl c.id f).grantBuffers c.engine = clearSent (d.modColl c.id f) (f c) p a := by
  obtain ⟨before, after, hat, hat'⟩ := collsAt_modColl hf hc hbegun
  have hbefore : (before.flatMap fun c => c.asks.map fun a => (c, a)) = [] := List.flatMap_eq_nil_iff.mpr fun x hx => by
    rw [(hfree x (hat ▸ List.mem_append_left _ hx)).1, List.map_nil]
  have hleast : leastBy (fun x : Coll × Nat × Nat => x.2.1) (((d.modColl c.id f).collsAt c.engine).flatMap fun c => c.asks.map fun a => (c, a)) =
      some (f c, a) := by
    rw [hat', List.flatMap_append, hbefore, List.nil_append, List.flatMap_cons, (hasks c).1, List.map_singleton, List.singleton_append]
    refine leastBy_head fun y hy => ?_
    obtain ⟨x, hx, hy⟩ := List.mem_flatMap.mp hy
    obtain ⟨b, hb, rfl⟩ := List.mem_map.mp hy
    obtain ⟨z, hz, rfl⟩ := List.mem_map.mp hx
    split at hb
    · rw [(hasks z).1, List.mem_singleton] at hb
      rw [hb]
    · rw [(hfree z (hat ▸ List.mem_append_right _ (List.mem_cons_of_mem _ hz))).1] at hb
      exact absurd hb List.not_mem_nil
  have hkeep : ∀ x, (Buffered.askedFor a x).engine = x.engine ∧ (Buffered.askedFor a x).begun = x.begun := fun _ => ⟨rfl, rfl⟩
  have hleft : Unasked (clearSent (d.modColl c.id f) (f c) p a) c.engine := by
    intro y hy
    have hy' : y ∈ ((d.modColl c.id f).modColl (f c).id (Buffered.askedFor a)).collsAt c.engine := hy
    obtain ⟨x, hx, rfl⟩ := mem_collsAt_changed hkeep hy'
    obtain ⟨z, hz, rfl⟩ := mem_collsAt_changed hf hx
    rw [hid]
    by_cases hzc : (z.id == c.id) = true
    · rw [changed, changed, if_pos hzc, if_pos (by rw [hid]; exact hzc)]
      refine ⟨?_, (hasks z).2.trans (hfree z hz).2⟩
      change (f z).asks.filter (· != a) = []
      rw [(hasks z).1]
      simp
    · rw [changed, changed, if_neg hzc, if_neg hzc]
      exact hfree z hz
  rw [Dev.grantBuffers, Dev.grantClears]
  dsimp only
  rw [hleast]
  dsimp only
  rw [if_neg (Nat.not_lt.mpr hroom), hpeer]
  dsimp only
  change ((clearSent (d.modColl c.id f) (f c) p a).grantClears c.engine 69999).grantSends c.engine 70000 = _
  rw [grantClears_unasked fun x hx => (hleft x hx).1, grantSends_unasked fun x hx => (hleft x hx).2]


/-- The packet with which a chunk is asked for. -/
def clearOf (c : Coll) (p : Nat) (a : Nat × Nat) (d : Dev) : Egress :=
  let r := (c.comm.ranks[p]?).getD ⟨0, 0, 0⟩
  let home := if nearRank c.comm p then some (r.ctx, ((d.rankQueue c p).map (·.q)).getD 16, c.seq) else none
  ⟨c.ctx, none, 1, ⟨c.comm.vc, c.comm.ptag, r.pkg, 1, c.q, .cts c.seq c.comm.rank a.2 c.time⟩, home⟩

theorem clearSent_egress (d : Dev) (c : Coll) (p : Nat) (a : Nat × Nat) :
    (clearSent d c p a).egress = d.egress ++ [clearOf c p a (d.modColl c.id (Buffered.askedFor a))] := rfl

theorem apart_of_buffered {s : State} {d : Dev} (h : Buffered s.dev d) : Apart s { s with dev := d } := by
  rw [h.rest]
  exact ⟨rfl, rfl, rfl, rfl, rfl, rfl⟩

theorem wantsReady_begun {c : Coll} (h : c.wantsReady = true) : c.asks = [] ∧ c.opened = [] := by
  simp only [Coll.wantsReady, Bool.and_eq_true, List.isEmpty_iff] at h
  obtain ⟨⟨⟨⟨-, hasks⟩, hopened⟩, -⟩, -⟩ := h
  exact ⟨hasks, hopened⟩

section
variable {s : State} {c : Coll} {x : CollStep} {peer chunk clock : Nat}

theorem collReady_clears (hstep : InStep s c x) (hready : c.ready = []) (hpeer : x.recvFrom = some peer) (hwants : c.wantsReady = true)
    (hop : c.desc.op ≠ 4) (hchunks : c.chunks x.recv = 1) (hwaits : NoWaits s c)
    (hroom : s.dev.recvHeld c.engine + c.buffer x.recv 0 ≤ 8 * 2 ^ 20) :
    ∃ t c', exec (.collReady c.id peer clock) s = .next t ∧ Apart s t ∧ t.dev.coll? c.id = some c' ∧ c'.opened = [0] ∧
      c'.asks = [] ∧ c'.ready = [] ∧ c'.time = max c.time clock ∧ ∃ e, t.dev.egress = s.dev.egress ++ [e] ∧ e.ctx = c.ctx ∧
        e.pkt.vc = c.comm.vc ∧ e.pkt.ptag = c.comm.ptag ∧ e.pkt.flits = 1 ∧
        e.pkt.body = .cts c.seq c.comm.rank 0 (max c.time clock) := by
  obtain ⟨hc, hbegun, rfl⟩ := hstep
  obtain ⟨-, hopened⟩ := wantsReady_begun hwants
  have hone : ∀ x, (tookReady peer clock x).engine = x.engine ∧ (tookReady peer clock x).begun = x.begun := fun _ => ⟨rfl, rfl⟩
  have htwo : ∀ n x, (Buffered.readyUsed peer n 1 x).engine = x.engine ∧ (Buffered.readyUsed peer n 1 x).begun = x.begun := fun _ _ => ⟨rfl, rfl⟩
  have hmod : (s.dev.modColl c.id (tookReady peer clock)).coll? c.id = some (tookReady peer clock c) := coll?_modColl (f := tookReady peer clock) (fun _ => rfl) hc
  have hcontains : (tookReady peer clock c).ready.contains peer = true := List.contains_iff_mem.mpr (List.mem_append_right _ (List.mem_singleton_self peer))
  have huse := useReady_asks hmod hpeer hwants hcontains hop
  have hchunks' : (tookReady peer clock c).chunks (tookReady peer clock c).now.recv = 1 := hchunks
  rw [hchunks'] at huse
  let d : Dev := { s.dev.modColl c.id (tookReady peer clock) with ticket := s.dev.ticket + 1 }
  let f : Coll → Coll := Buffered.readyUsed peer s.dev.ticket 1
  have hfree : Unasked d c.engine := unasked_changed hone (fun _ => ⟨rfl, rfl⟩) hwaits
  have hheld : (d.modColl c.id f).recvHeld c.engine = s.dev.recvHeld c.engine :=
    (recvHeld_changed (d := d) (htwo _) (fun _ => rfl) c.id c.engine).trans
      (recvHeld_changed (d := s.dev) hone (fun _ => rfl) c.id c.engine)
  have hd : d.coll? c.id = some (tookReady peer clock c) := hmod
  have hgrant : (d.modColl c.id f).grantBuffers c.engine =
      clearSent (d.modColl c.id f) (f (tookReady peer clock c)) peer (s.dev.ticket + 0, 0) :=
    grantBuffers_asks (c := tookReady peer clock c) (htwo _) (fun _ => rfl) (fun _ => ⟨rfl, rfl⟩) hfree hd hbegun hpeer (hheld ▸ hroom)
  have hexec := collReady_eq s c.id peer clock
  have hall := huse.trans hgrant
  rw [hall] at hexec
  have hf := coll?_modColl (f := f) (fun _ => rfl) hd
  have hcoll := coll?_modColl (f := Buffered.askedFor (s.dev.ticket + 0, 0)) (fun _ => rfl) hf
  have hegress : (clearSent (d.modColl c.id f) (f (tookReady peer clock c)) peer (s.dev.ticket + 0, 0)).egress =
      s.dev.egress ++ [clearOf (f (tookReady peer clock c)) peer (s.dev.ticket + 0, 0) ((d.modColl c.id f).modColl (f (tookReady peer clock c)).id (Buffered.askedFor (s.dev.ticket + 0, 0)))] :=
    clearSent_egress _ _ _ _
  have hbuf : Buffered s.dev (clearSent (d.modColl c.id f) (f (tookReady peer clock c)) peer (s.dev.ticket + 0, 0)) := by
    rw [← hall]
    exact (Buffered.modColl s.dev c.id (f := tookReady peer clock) fun _ => rfl).trans (Buffered.useReady _ _)
  refine ⟨_, _, hexec, apart_of_buffered hbuf, hcoll, ?_, ?_, ?_, rfl, _, hegress, rfl, rfl, rfl, rfl, rfl⟩
  · exact congrArg (0 :: ·) hopened
  · change List.filter (fun y : Nat × Nat => y != (s.dev.ticket + 0, 0)) [(s.dev.ticket + 0, 0)] = []
    simp
  · change (c.ready ++ [peer]).erase peer = []
    rw [hready, List.nil_append, List.erase_cons_head]

end

/-- A clear-to-send has come: a chunk waits for a send buffer from a ticket on. -/
def cameClear (ticket chunk clock : Nat) (c : Coll) : Coll :=
  { c with cleared := c.cleared ++ [(ticket, chunk)], time := max c.time clock }

/-- Collectives of one number wait for a send buffer for one chunk: it gets it, if there is room. -/
theorem grantBuffers_sends {d : Dev} {c : Coll} {f : Coll → Coll} {a : Nat × Nat} (hf : ∀ x, (f x).engine = x.engine ∧ (f x).begun = x.begun)
    (hid : ∀ x, (f x).id = x.id) (hasks : ∀ x, (f x).asks = x.asks ∧ (f x).cleared = x.cleared ++ [a]) (hfree : Unasked d c.engine)
    (hc : d.coll? c.id = some c) (hbegun : c.begun = true)
    (hroom : (d.modColl c.id f).sendHeld c.engine + (f c).buffer (f c).now.send a.2 ≤ 2 * 2 ^ 20) :
    (d.modColl c.id f).grantBuffers c.engine = (d.modColl c.id f).modColl (f c).id (Buffered.holdsBuffer a) := by
  obtain ⟨before, after, hat, hat'⟩ := collsAt_modColl hf hc hbegun
  have hbefore : (before.flatMap fun c => c.cleared.map fun a => (c, a)) = [] := List.flatMap_eq_nil_iff.mpr fun x hx => by
    rw [(hfree x (hat ▸ List.mem_append_left _ hx)).2, List.map_nil]
  have hmine : c.cleared = [] := (hfree c (hat ▸ List.mem_append_right _ List.mem_cons_self)).2
  have hleast : leastBy (fun x : Coll × Nat × Nat => x.2.1) (((d.modColl c.id f).collsAt c.engine).flatMap fun c => c.cleared.map fun a => (c, a)) =
      some (f c, a) := by
    rw [hat', List.flatMap_append, hbefore, List.nil_append, List.flatMap_cons, (hasks c).2, hmine, List.nil_append, List.map_singleton,
      List.singleton_append]
    refine leastBy_head fun y hy => ?_
    obtain ⟨x, hx, hy⟩ := List.mem_flatMap.mp hy
    obtain ⟨b, hb, rfl⟩ := List.mem_map.mp hy
    obtain ⟨z, hz, rfl⟩ := List.mem_map.mp hx
    have hz' : z.cleared = [] := (hfree z (hat ▸ List.mem_append_right _ (List.mem_cons_of_mem _ hz))).2
    split at hb
    · rw [(hasks z).2, hz', List.nil_append, List.mem_singleton] at hb
      rw [hb]
    · rw [hz'] at hb
      exact absurd hb List.not_mem_nil
  have hclears : ∀ x ∈ (d.modColl c.id f).collsAt c.engine, x.asks = [] := fun y hy => by
    obtain ⟨x, hx, rfl⟩ := mem_collsAt_changed hf hy
    rw [changed]
    split
    · rw [(hasks x).1]
      exact (hfree x hx).1
    · exact (hfree x hx).1
  have hkeep : ∀ x, (Buffered.holdsBuffer a x).engine = x.engine ∧ (Buffered.holdsBuffer a x).begun = x.begun := fun _ => ⟨rfl, rfl⟩
  have hleft : ∀ x ∈ ((d.modColl c.id f).modColl (f c).id (Buffered.holdsBuffer a)).collsAt c.engine, x.cleared = [] := by
    intro y hy
    obtain ⟨x, hx, rfl⟩ := mem_collsAt_changed hkeep hy
    obtain ⟨z, hz, rfl⟩ := mem_collsAt_changed hf hx
    rw [hid]
    by_cases hzc : (z.id == c.id) = true
    · rw [changed, changed, if_pos hzc, if_pos (by rw [hid]; exact hzc)]
      change (f z).cleared.filter (· != a) = []
      rw [(hasks z).2, (hfree z hz).2]
      simp
    · rw [changed, changed, if_neg hzc, if_neg hzc]
      exact (hfree z hz).2
  rw [Dev.grantBuffers, grantClears_unasked hclears, Dev.grantSends]
  rw [hleast]
  dsimp only
  rw [if_neg (Nat.not_lt.mpr hroom)]
  exact grantSends_unasked hleft 69999

section
variable {s : State} {c : Coll} {x : CollStep} {peer chunk clock : Nat}

theorem collCts_sends (hstep : InStep s c x) (hpeer : x.sendTo = some peer) (hless : chunk < c.chunks x.send) (hsent : chunk ∉ c.sent)
    (hsends : chunk ∉ c.sends) (hwaits : NoWaits s c) (hroom : s.dev.sendHeld c.engine + c.buffer x.send chunk ≤ 2 * 2 ^ 20) :
    ∃ t, exec (.collCts c.id peer chunk clock) s = .next t ∧ Apart s t ∧ t.dev.egress = s.dev.egress ∧
      t.dev.coll? c.id = some { c with sends := c.sends ++ [chunk], time := max c.time clock } := by
  obtain ⟨hc, hbegun, rfl⟩ := hstep
  let d : Dev := { s.dev with ticket := s.dev.ticket + 1 }
  let f : Coll → Coll := cameClear s.dev.ticket chunk clock
  have hkeep : ∀ x, (f x).engine = x.engine ∧ (f x).begun = x.begun := fun _ => ⟨rfl, rfl⟩
  have hmine : c.cleared = [] := by
    refine (hwaits c (List.mem_filter.mpr ⟨List.mem_of_find?_eq_some hc, ?_⟩)).2
    rw [beq_self_eq_true, hbegun]
    rfl
  have hcts : s.dev.collCts c.id peer chunk clock = (d.modColl c.id f).grantBuffers c.engine := by
    rw [Dev.collCts, hc]
    dsimp only
    rw [if_neg]
    · rfl
    · simp [hbegun, hpeer, hless, hsent, hsends, hmine]
  have hgrant : (d.modColl c.id f).grantBuffers c.engine =
      (d.modColl c.id f).modColl (f c).id (Buffered.holdsBuffer (s.dev.ticket, chunk)) :=
    grantBuffers_sends (d := d) hkeep (fun _ => rfl) (fun _ => ⟨rfl, rfl⟩) hwaits hc hbegun
      ((sendHeld_changed (d := d) hkeep (fun _ => rfl) c.id c.engine).symm ▸ hroom)
  have hexec : exec (.collCts c.id peer chunk clock) s = .next { s with dev := s.dev.collCts c.id peer chunk clock } := rfl
  rw [hcts, hgrant] at hexec
  have hbuf : Buffered s.dev ((d.modColl c.id f).modColl (f c).id (Buffered.holdsBuffer (s.dev.ticket, chunk))) :=
    (Buffered.trans (b := d) ⟨rfl, rfl⟩ (Buffered.modColl d c.id (f := f) fun _ => rfl)).trans
      (Buffered.modColl _ _ (f := Buffered.holdsBuffer (s.dev.ticket, chunk)) fun _ => rfl)
  have hf := coll?_modColl (d := d) (f := f) (fun _ => rfl) hc
  have hcoll := coll?_modColl (f := Buffered.holdsBuffer (s.dev.ticket, chunk)) (fun _ => rfl) hf
  refine ⟨_, hexec, apart_of_buffered hbuf, rfl, hcoll.trans (congrArg some ?_)⟩
  have hleft : (c.cleared ++ [(s.dev.ticket, chunk)]).filter (· != (s.dev.ticket, chunk)) = c.cleared := by
    rw [hmine]
    simp
  change { f c with cleared := (c.cleared ++ [(s.dev.ticket, chunk)]).filter (· != (s.dev.ticket, chunk)), sends := c.sends ++ [chunk] } = _
  rw [hleft]
  rfl

end

/-! ## Entering a step (R376) -/

/-- A collective that has entered its first step. -/
def entered (clock : Nat) (c : Coll) : Coll :=
  { c with step := 0, begun := decide (0 < c.steps.length), kept := false, asks := [], opened := [], arrived := []
           got := [], rx := [], cleared := [], sends := [], sent := [], time := max c.time clock }

/-- The READY that goes to the rank to which the step sends. -/
def readied (d : Dev) (c : Coll) : Dev :=
  match c.now.sendTo with
  | some p => if c.desc.op = 4 || !c.now.send.isEmpty then d.sendRank c p 1 (.ready c.seq c.comm.rank c.time) else d
  | none => d

theorem readied_buffered (d : Dev) (c : Coll) : Buffered d (readied d c) := by
  rw [readied]
  split
  · split
    · exact Buffered.sendRank d _ _ _ _
    · exact Buffered.refl d
  · exact Buffered.refl d

theorem readied_coll? (d : Dev) (c : Coll) (id : Nat) : (readied d c).coll? id = d.coll? id := by
  rw [readied]
  split
  · split <;> rfl
  · rfl

/-- A collective that has entered a step: READY goes out, and one that has come is used. -/
def steppedIn (d : Dev) (id : Nat) : Dev :=
  match d.coll? id with
  | none => d
  | some c => (readied d c).useReady id

/-- The READYs of a step. -/
def readyPackets (c : Coll) : List Packet :=
  match c.now.sendTo with
  | none => []
  | some p => if c.desc.op ≠ 4 ∧ c.now.send = [] then [] else
    [⟨c.comm.vc, c.comm.ptag, ((c.comm.ranks[p]?).map (·.pkg)).getD 0, 1, c.q, .ready c.seq c.comm.rank c.time⟩]

theorem readied_packets (d : Dev) (c : Coll) : (readied d c).egress.map (·.pkt) = d.egress.map (·.pkt) ++ readyPackets c := by
  rw [readied, readyPackets]
  cases c.now.sendTo with
  | none => exact (List.append_nil _).symm
  | some p =>
    dsimp only
    by_cases h : c.desc.op ≠ 4 ∧ c.now.send = []
    · obtain ⟨hop, hsend⟩ := h
      rw [if_neg (by simp [hop, hsend]), if_pos ⟨hop, hsend⟩, List.append_nil]
    · rw [if_neg h, if_pos]
      · rw [Dev.sendRank]
        dsimp only
        rw [List.map_append, List.map_singleton]
        cases c.comm.ranks[p]? <;> rfl
      · by_cases hop : c.desc.op = 4
        · simp [hop]
        · have hsend : c.now.send ≠ [] := fun hs => h ⟨hop, hs⟩
          simp [hsend]

section
variable {s : State} {c : Coll} {j : Job} {x : CollStep} {rest : List CollStep}

theorem collStepEnter_enters (hc : s.dev.coll? c.id = some c) (hj : s.dev.job? c.id = some j)
    (hhead : (s.dev.colls.find? fun y => y.ctx == c.ctx && y.q == c.q).map (·.id) = some c.id) (hentered : j.entered = true)
    (hafter : j.after = []) (hbegun : c.begun = false) (hstep : c.step = 0) (hready : c.ready = [])
    (hsteps : collSteps c.desc c.comm.size c.comm.rank = x :: rest) (hagree : s.dev.disagrees c = false) :
    exec (.collStepEnter c.id) s = .next { s with dev := readied (s.dev.modColl c.id (entered j.clock)) (entered j.clock c) } := by
  have hmod := coll?_modColl (f := entered j.clock) (fun _ => rfl) hc
  have hlen : c.steps.length = rest.length + 1 := congrArg List.length hsteps
  have hrun : j.mayRun = true := by simp [Job.mayRun, hentered, hafter]
  change execCollStepEnter c.id s = _
  rw [execCollStepEnter, onDev, hc, hj]
  refine congrArg (fun d => Host.Outcome.next { s with dev := d }) ?_
  dsimp only
  rw [hhead, hrun, hbegun, hstep, hagree, if_neg (by simp [hlen]), if_neg (by simp)]
  have hin : steppedIn (s.dev.modColl c.id (entered j.clock)) c.id = readied (s.dev.modColl c.id (entered j.clock)) (entered j.clock c) := by
    have hcoll : (readied (s.dev.modColl c.id (entered j.clock)) (entered j.clock c)).coll? c.id = some (entered j.clock c) :=
      (readied_coll? _ _ _).trans hmod
    rw [steppedIn, hmod]
    exact useReady_absent hcoll hready
  exact hin

/-- The first step of the collective at the head of its queue (R376). -/
theorem collStepEnter_first (hc : s.dev.coll? c.id = some c) (hj : s.dev.job? c.id = some j)
    (hhead : (s.dev.colls.find? fun y => y.ctx == c.ctx && y.q == c.q).map (·.id) = some c.id) (hentered : j.entered = true)
    (hafter : j.after = []) (hbegun : c.begun = false) (hstep : c.step = 0) (hready : c.ready = [])
    (hsteps : collSteps c.desc c.comm.size c.comm.rank = x :: rest) (hagree : s.dev.disagrees c = false) :
    ∃ t c', exec (.collStepEnter c.id) s = .next t ∧ t.dev.coll? c.id = some c' ∧ c'.begun = true ∧ c'.step = 0 ∧ c'.now = x ∧
      c'.kept = false ∧ c'.time = max c.time j.clock ∧ c'.desc = c.desc ∧ c'.work = c.work ∧ c'.got = [] ∧ c'.sent = [] ∧
      t.dev.egress.map (·.pkt) = s.dev.egress.map (·.pkt) ++ (match x.sendTo with
        | none => []
        | some p => if c.desc.op ≠ 4 ∧ x.send = [] then [] else
          [⟨c.comm.vc, c.comm.ptag, ((c.comm.ranks[p]?).map (·.pkg)).getD 0, 1, c.q, .ready c.seq c.comm.rank (max c.time j.clock)⟩]) ∧
      Apart s t := by
  have hexec := collStepEnter_enters hc hj hhead hentered hafter hbegun hstep hready hsteps hagree
  have hmod := coll?_modColl (f := entered j.clock) (fun _ => rfl) hc
  have hnow : (entered j.clock c).now = x := by
    have hsteps' : (entered j.clock c).steps = x :: rest := hsteps
    have hstep' : (entered j.clock c).step = 0 := rfl
    rw [Coll.now, hsteps', hstep']
    rfl
  have hmore : decide (0 < c.steps.length) = true := by
    have hlen : c.steps.length = rest.length + 1 := congrArg List.length hsteps
    exact decide_eq_true (by omega)
  have hbuf : Buffered s.dev (readied (s.dev.modColl c.id (entered j.clock)) (entered j.clock c)) :=
    (Buffered.modColl s.dev c.id (f := entered j.clock) fun _ => rfl).trans (readied_buffered _ _)
  refine ⟨_, _, hexec, (readied_coll? _ _ _).trans hmod, hmore, rfl, hnow, rfl, rfl, rfl, rfl, rfl, rfl, ?_, apart_of_buffered hbuf⟩
  refine (readied_packets _ _).trans ?_
  rw [readyPackets, hnow]
  rfl

end

/-! ## The device's own writes leave local memory alone (R176) -/

theorem leaf_loc_global (l : Leaf) (va core : Nat) (sp : Space) (a : Nat) : l.loc va ≠ .loc core sp a := by
  rw [Leaf.loc]
  split
  · exact fun h => nomatch h
  · split
    · exact fun h => nomatch h
    · exact fun h => nomatch h

theorem access_global {d : Dev} {core : Nat} {x : Ctx} {va : Nat} {need : Need} {l : Loc} (h : d.access core x va need = .ok l) :
    ∀ c sp a, l ≠ .loc c sp a := by
  intro c sp a
  rw [Dev.access] at h
  split at h
  · exact absurd h (by simp)
  · split at h
    · exact absurd h (by simp)
    · cases h
      exact leaf_loc_global _ _ _ _ _

theorem putGlob_locmem {d e : Dev} {slot a : Nat} {bs : List Byte} (h : d.putGlob slot a bs = some e) : e.locmem = d.locmem := by
  rw [Dev.putGlob] at h
  split at h
  · cases h
    rfl
  · exact absurd h (by simp)

theorem homeWrite_locmem (d : Dev) (ctx : Nat) (core : Option Nat) (device : Bool) (pa c : Nat) (f : Nat → List Byte) :
    (d.homeWrite ctx core device (.glob pa) c f).1.locmem = d.locmem := by
  have htouch : (d.touchLine ctx pa ctx).locmem = d.locmem := (Aside.touchLine d ctx pa ctx).locmem
  simp only [Dev.homeWrite]
  split
  next => exact htouch
  next e hput => exact ((Aside.setLine _ _ _).trans (.afterWrite _ _ _ _ _ _ _)).locmem.trans ((putGlob_locmem hput).trans htouch)

theorem homeRmw_locmem (d : Dev) (ctx : Nat) (core : Option Nat) (device : Bool) (pa n c : Nat) (f : Nat → List Byte → List Byte) :
    (d.homeRmw ctx core device (.glob pa) n c f).1.locmem = d.locmem := by
  have htouch : (d.touchLine ctx pa ctx).locmem = d.locmem := (Aside.touchLine d ctx pa ctx).locmem
  simp only [Dev.homeRmw]
  split
  · split
    next => exact htouch
    next e hput => exact ((Aside.setLine _ _ _).trans (.afterWrite _ _ _ _ _ _ _)).locmem.trans ((putGlob_locmem hput).trans htouch)
  · exact htouch

theorem payAt_locmem (d : Dev) (o : Owed) {l : Loc} (h : ∀ c sp a, l ≠ .loc c sp a) : (d.payAt o l).1.locmem = d.locmem := by
  cases l with
  | remote pkg pa => rfl
  | loc c sp a => exact absurd rfl (h c sp a)
  | host a =>
    simp only [Dev.payAt]
    split <;> rfl
  | glob pa =>
    simp only [Dev.payAt]
    split
    · exact homeRmw_locmem d _ _ _ _ _ _ _
    · exact homeWrite_locmem d _ _ _ _ _ _

theorem looked_locmem (d : Dev) (core : Nat) (x : Ctx) (va : Nat) : (d.looked core x va).locmem = d.locmem :=
  (Aside.of_cachedDev (.looked d core x va)).locmem

theorem payOne_locmem (d : Dev) (o : Owed) : (d.payOne o).1.locmem = d.locmem := by
  simp only [Dev.payOne]
  split
  · rfl
  · split
    · rfl
    · split
      · exact looked_locmem d _ _ _
      next haccess => exact (looked_locmem _ _ _ _).trans (payAt_locmem d o (access_global haccess))

theorem pay_locmem (ctx n : Nat) (d : Dev) : (Dev.pay ctx n d).locmem = d.locmem := by
  induction n generalizing d with
  | zero => rfl
  | succ n ih =>
    simp only [Dev.pay]
    split
    · rfl
    next o _ =>
      have hpay := payOne_locmem d o
      split
      · rfl
      · split
        next e t he =>
          rw [he] at hpay
          exact (ih _).trans hpay
        next e he =>
          rw [he] at hpay
          exact hpay

theorem owe_locmem (d : Dev) (ctx : Nat) (l : List (Nat × Nat × OwedWrite)) : (d.owe ctx l).locmem = d.locmem := pay_locmem ctx _ _

/-! ## The end of a collective (R226, R280) -/

/-- A collective has left its queue and the checker. -/
def collGone (d : Dev) (id time : Nat) : Dev := Dev.endJob { (d.dropReplies id) with colls := d.colls.filter (·.id != id) } id time

/-- Open bytes of RECV have been drawn. -/
def drawn (d : Dev) (n : Nat) : Dev := { d with free := n }

/-- The time of the end, and the writes that tell it. -/
def endTime (d : Dev) (c : Coll) (err : Option (Nat × Nat)) (time : Nat) : Nat := if err.isSome then max time (d.nearPosted c) else time
def endWord : Option (Nat × Nat) → Nat
  | none => 0
  | some (cause, rank) => 2 ^ 63 + cause % 64 * 2 ^ 32 + rank % 1024
def endWrites (free : Nat) (c : Coll) (err : Option (Nat × Nat)) : List (Nat × OwedWrite) :=
  (if err.isSome then openRecv free c else []) ++ (if c.desc.status = 0 then [] else [(c.desc.status, OwedWrite.bytes (leBytes 8 (endWord err)))]) ++
    if c.desc.done = 0 then [] else [(c.desc.done, OwedWrite.inc c.desc.dinc)]

theorem endColl_eq (d : Dev) (c : Coll) (err : Option (Nat × Nat)) (time : Nat) : ∃ free,
    d.endColl c err time = (collGone ((drawn d free).owe c.ctx
      ((endWrites d.free c err).map fun w => (w.1, endTime d c err time + 1, w.2))) c.id (endTime d c err time)).grantBuffers c.engine := by
  cases err with
  | none => exact ⟨_, rfl⟩
  | some e => exact ⟨_, rfl⟩

theorem collGone_sameBytes (d : Dev) (id time : Nat) : SameBytes d (collGone d id time) := ⟨rfl, rfl, rfl, rfl⟩

theorem collGone_coll? (d : Dev) (id time : Nat) : (collGone d id time).coll? id = none :=
  List.find?_eq_none.mpr fun x hx hat => by
    have hne : (x.id != id) = true := (List.mem_filter.mp hx).2
    rw [bne, show (x.id == id) = true from hat] at hne
    exact absurd hne (by decide)

/-- A collective that has ended is gone, and so is its job; local memory is as before. -/
theorem endColl_gone (d : Dev) (c : Coll) (err : Option (Nat × Nat)) (time : Nat) :
    (d.endColl c err time).coll? c.id = none ∧ (d.endColl c err time).job? c.id = none ∧ (d.endColl c err time).locmem = d.locmem := by
  obtain ⟨free, hend⟩ := endColl_eq d c err time
  rw [hend]
  have hbuf := Buffered.grantBuffers (collGone ((drawn d free).owe c.ctx
    ((endWrites d.free c err).map fun w => (w.1, endTime d c err time + 1, w.2))) c.id (endTime d c err time)) c.engine
  refine ⟨hbuf.coll?_none (collGone_coll? _ _ _), ?_, ?_⟩
  · rw [Dev.job?, hbuf.jobs]
    exact job?_endJob _
  · have hloc := owe_locmem (drawn d free) c.ctx ((endWrites d.free c err).map fun w => (w.1, endTime d c err time + 1, w.2))
    rw [hbuf.rest]
    exact hloc

theorem collGone_apart {d : Dev} {id time : Nat} (free engine : Nat) :
    ApartDev d ((collGone (drawn d free) id time).grantBuffers engine) :=
  ApartDev.trans (⟨rfl, rfl, rfl, rfl, rfl⟩ : ApartDev d (collGone (drawn d free) id time)) (Buffered.grantBuffers _ engine).apartDev

/-- An end that tells nobody changes nothing else. -/
theorem endColl_silent {d : Dev} {c : Coll} {err : Option (Nat × Nat)} (time : Nat) (howed : ∀ o ∈ d.owed, o.ctx ≠ c.ctx)
    (hwrites : endWrites d.free c err = []) : ApartDev d (d.endColl c err time) := by
  obtain ⟨free, hend⟩ := endColl_eq d c err time
  rw [hend, hwrites, List.map_nil, owe_nothing (d := drawn d free) howed]
  exact collGone_apart free c.engine

/-- An end that is told by one write. -/
theorem endColl_stores {d : Dev} {c : Coll} {err : Option (Nat × Nat)} {va pa : Nat} {w : OwedWrite} (time : Nat) (h : Payable d c.ctx va pa w.size)
    (hwrites : endWrites d.free c err = [(va, w)]) :
    ∃ e t, StoredDev d e c.ctx pa (w.fill t (OwedWrite.old w d c.ctx pa)) ∧ SameBytes e (d.endColl c err time) := by
  obtain ⟨free, hend⟩ := endColl_eq d c err time
  rw [hend, hwrites, List.map_singleton]
  have hpay : Payable (drawn d free) c.ctx va pa w.size :=
    h.transfer ⟨⟨rfl, rfl, rfl, rfl⟩, rfl, rfl⟩ (fun _ => id) (fun _ => id) rfl
  obtain ⟨t, ⟨x, hx, hstored⟩, -⟩ := owe_stores (c := endTime d c err time + 1) hpay
  have hold : OwedWrite.old w (drawn d free) c.ctx pa = OwedWrite.old w d c.ctx pa := by
    cases w <;> rfl
  rw [hold] at hstored
  have hdrawn : Aside d (drawn d free) := .of_rest rfl rfl
  refine ⟨_, t, ⟨x, hdrawn.trans hx, hstored⟩, ?_⟩
  exact sameBytes_trans (collGone_sameBytes _ c.id (endTime d c err time)) (Buffered.grantBuffers _ c.engine).sameBytes

theorem openRecv_none {c : Coll} (free : Nat) (h : c.desc.recvElems c.comm.size = 0) : openRecv free c = [] := by
  rw [openRecv, h]
  rfl

section
variable {s : State} {c : Coll} {j : Job}

theorem collComplete_failure (hc : s.dev.coll? c.id = some c) (cause rank posted : Nat) :
    exec (.collComplete c.id (some (cause, rank)) posted) s = .next { s with dev := s.dev.endColl c (some (cause, rank)) c.time } := by
  change execCollComplete c.id (some (cause, rank)) posted s = _
  rw [execCollComplete, onDev, hc]

/-- What the end of a collective tells where RECV and DONE are not written. -/
theorem endWrites_failure {e : Nat × Nat} (free : Nat) (hrecv : c.desc.recvElems c.comm.size = 0) (hdone : c.desc.done = 0) :
    endWrites free c (some e) = if c.desc.status = 0 then [] else [(c.desc.status, OwedWrite.bytes (leBytes 8 (endWord (some e))))] := by
  rw [endWrites, openRecv_none free hrecv, if_pos hdone, List.append_nil, ite_self, List.nil_append]

theorem endWrites_done (free : Nat) (hstatus : c.desc.status = 0) (hdone : c.desc.done ≠ 0) :
    endWrites free c none = [(c.desc.done, OwedWrite.inc c.desc.dinc)] := by
  rw [endWrites, if_pos hstatus, if_neg hdone]
  rfl

theorem endWord_small {cause rank : Nat} (hcause : cause < 64) (hrank : rank < 1024) : endWord (some (cause, rank)) = 2 ^ 63 + cause * 2 ^ 32 + rank := by
  rw [endWord, Nat.mod_eq_of_lt hcause, Nat.mod_eq_of_lt hrank]

theorem apart_of_apartDev {d : Dev} (h : ApartDev s.dev d) : Apart s { s with dev := d } :=
  let ⟨hwaves, hblocks, hmem, hsectors, hlocmem⟩ := h
  ⟨hwaves, hblocks, hmem, hsectors, hlocmem, rfl⟩

theorem collComplete_next (hc : s.dev.coll? c.id = some c) (hj : s.dev.job? c.id = some j) {x : Ctx} (hx : s.dev.ctx? c.ctx = some x)
    (hhead : (s.dev.colls.find? fun y => y.ctx == c.ctx && y.q == c.q).map (·.id) = some c.id) (hentered : j.entered = true)
    (hafter : j.after = []) {near : Nat} (hnear : s.dev.nearPosts c = some near) (hbegun : c.begun = true) (hlast : c.step + 1 = c.steps.length)
    (hdone : c.stepDone = true) (hresid : c.desc.resid = false) (posted : Nat) :
    exec (.collComplete c.id none posted) s = .next { s with dev := s.dev.endColl c none (max c.time (max near posted)) } := by
  have hrun : j.mayRun = true := by simp [Job.mayRun, hentered, hafter]
  have hresiduals : s.dev.writeResiduals x c = (s.dev, .ok c.time ()) := by
    rw [Dev.writeResiduals]
    dsimp only
    rw [hresid, if_pos (by rfl)]
  change execCollComplete c.id none posted s = _
  rw [execCollComplete, onDev, hc]
  refine congrArg (fun d => Host.Outcome.next { s with dev := d }) ?_
  dsimp only
  rw [hx, hnear, hbegun, if_pos rfl, hdone, hlast, hhead, hj, Option.any_some, hrun, beq_self_eq_true, beq_self_eq_true]
  simp only [Bool.and_self]
  rw [hresiduals]

/-- A rank tells its peers that it has failed. -/
def toldPeers (d : Dev) (c : Coll) (cause : Nat) : Dev :=
  ((List.range c.comm.size).filter (· != c.comm.rank)).foldl (fun d p => d.sendRank c p 1 (.failure c.seq cause c.comm.rank)) d

/-- A rank fails: it tells its peers, and its collective ends. -/
def failed (d : Dev) (c : Coll) (cause : Nat) : Dev := (toldPeers d c cause).endColl c (some (cause, c.comm.rank)) c.time

/-- A collective whose time is no earlier than a clock. -/
def late (clock : Nat) (c : Coll) : Coll := { c with time := max c.time clock }

theorem toldPeers_buffered (d : Dev) (c : Coll) (cause : Nat) : Buffered d (toldPeers d c cause) := by
  rw [toldPeers]
  generalize (List.range c.comm.size).filter (· != c.comm.rank) = l
  induction l generalizing d with
  | nil => exact Buffered.refl d
  | cons p l ih => exact (Buffered.sendRank d _ _ _ _).trans (ih _)

theorem collStepEnter_disagrees (hc : s.dev.coll? c.id = some c) (hj : s.dev.job? c.id = some j)
    (hhead : (s.dev.colls.find? fun y => y.ctx == c.ctx && y.q == c.q).map (·.id) = some c.id) (hentered : j.entered = true)
    (hafter : j.after = []) (hbegun : c.begun = false) (hstep : c.step < c.steps.length) (hagree : s.dev.disagrees c = true) :
    exec (.collStepEnter c.id) s = .next { s with dev := failed s.dev (late j.clock c) cObject } := by
  have hrun : j.mayRun = true := by simp [Job.mayRun, hentered, hafter]
  change execCollStepEnter c.id s = _
  rw [execCollStepEnter, onDev, hc, hj]
  refine congrArg (fun d => Host.Outcome.next { s with dev := d }) ?_
  dsimp only
  rw [hhead, hrun, hbegun, hagree, if_neg (by simp [hstep]), if_pos (by simp)]
  rfl

namespace Buffered

theorem walks {d e : Dev} (h : Buffered d e) : SameWalks d e := by
  rw [h.rest]
  exact ⟨⟨rfl, rfl, rfl, rfl⟩, rfl, rfl⟩

theorem payable {d e : Dev} (h : Buffered d e) {ctx va pa n : Nat} (hp : Payable d ctx va pa n) : Payable e ctx va pa n := by
  refine hp.transfer h.walks (fun o ho => ?_) (fun r hr => ?_) ?_
  · rw [h.rest] at ho
    exact ho
  · rw [h.rest] at hr
    exact hr
  · rw [h.rest]
    rfl

theorem locmem {d e : Dev} (h : Buffered d e) : e.locmem = d.locmem := by rw [h.rest]

end Buffered

/-- STATUS is told by the bytes of its word. -/
theorem endColl_told {d : Dev} {e : Option (Nat × Nat)} {va pa word t : Nat} (hsame : SameBytes s.dev d) (hpay : Payable d c.ctx va pa 8)
    (hm : Memory.wf d.mem = true) (hwrites : endWrites d.free c e = [(va, .bytes (leBytes 8 word))]) :
    StoresAt s { s with dev := d.endColl c e t } c.ctx pa (leBytes 8 word) := fun b => by
  have hlength : (OwedWrite.bytes (leBytes 8 word)).size = 8 := leBytes_length 8 word
  obtain ⟨x, t', hstored, hend⟩ := endColl_stores (c := c) t (w := .bytes (leBytes 8 word)) (hlength ▸ hpay) hwrites
  have hwritten : ∀ i ∈ sectorsOf pa (leBytes 8 word).length, Written d c.ctx i := by
    rw [leBytes_length]
    exact hpay.written
  have hbyte := hstored.byteAt hm hwritten b
  rw [hsame.byteAt] at hbyte
  exact (congrFun (hend.byteAt c.ctx) b).trans hbyte

/-- What an end that is told by a write leaves. -/
theorem ended_next {i : Instr} {d : Dev} {id ctx pa : Nat} {l : List Byte} (hexec : exec i s = .next { s with dev := d }) (hcoll : d.coll? id = none)
    (hjob : d.job? id = none) (hloc : d.locmem = s.dev.locmem) (hstored : StoresAt s { s with dev := d } ctx pa l) :
    ∃ t, exec i s = .next t ∧ t.dev.coll? id = none ∧ t.dev.job? id = none ∧ t.dev.locmem = s.dev.locmem ∧ StoresAt s t ctx pa l :=
  ⟨{ s with dev := d }, hexec, hcoll, hjob, hloc, hstored⟩

theorem ended_plain {i : Instr} {d : Dev} {id : Nat} (hexec : exec i s = .next { s with dev := d }) (hcoll : d.coll? id = none)
    (hjob : d.job? id = none) (hloc : d.locmem = s.dev.locmem) :
    ∃ t, exec i s = .next t ∧ t.dev.coll? id = none ∧ t.dev.job? id = none ∧ t.dev.locmem = s.dev.locmem :=
  ⟨{ s with dev := d }, hexec, hcoll, hjob, hloc⟩

theorem ended_apart {i : Instr} {d : Dev} {id : Nat} (hexec : exec i s = .next { s with dev := d }) (hapart : Apart s { s with dev := d })
    (hcoll : d.coll? id = none) (hjob : d.job? id = none) :
    ∃ t, exec i s = .next t ∧ Apart s t ∧ t.dev.coll? id = none ∧ t.dev.job? id = none :=
  ⟨{ s with dev := d }, hexec, hapart, hcoll, hjob⟩

theorem collComplete_fails (hc : s.dev.coll? c.id = some c) (hm : memOk s) {cause rank posted : Nat} (hcause : cause < 64) (hrank : rank < 1024)
    (hdone : c.desc.done = 0) :
    (∃ t, exec (.collComplete c.id (some (cause, rank)) posted) s = .next t ∧ t.dev.coll? c.id = none ∧ t.dev.job? c.id = none ∧
      t.dev.locmem = s.dev.locmem) ∧
    (c.desc.recvElems c.comm.size = 0 → c.desc.status = 0 → NothingOwed s c.ctx → ∃ t, exec (.collComplete c.id (some (cause, rank)) posted) s = .next t ∧ Apart s t ∧
      t.dev.coll? c.id = none ∧ t.dev.job? c.id = none) ∧
    (∀ pa, c.desc.recvElems c.comm.size = 0 → c.desc.status ≠ 0 → DeviceAt s c.ctx c.desc.status pa 8 →
      ∃ t, exec (.collComplete c.id (some (cause, rank)) posted) s = .next t ∧ t.dev.coll? c.id = none ∧ t.dev.job? c.id = none ∧
        t.dev.locmem = s.dev.locmem ∧ StoresAt s t c.ctx pa (leBytes 8 (2 ^ 63 + cause * 2 ^ 32 + rank))) := by
  have hexec := collComplete_failure hc cause rank posted
  obtain ⟨hcoll, hjob, hloc⟩ := endColl_gone s.dev c (some (cause, rank)) c.time
  refine ⟨ended_plain hexec hcoll hjob hloc, fun hrecv hstatus howed => ?_, fun pa hrecv hstatus hat => ?_⟩
  · have hwrites := endWrites_failure (e := (cause, rank)) s.dev.free hrecv hdone
    rw [if_pos hstatus] at hwrites
    exact ended_apart hexec (apart_of_apartDev (endColl_silent c.time howed.1 hwrites)) hcoll hjob
  · have hwrites := endWrites_failure (e := (cause, rank)) s.dev.free hrecv hdone
    rw [if_neg hstatus, endWord_small hcause hrank] at hwrites
    have hstored := endColl_told (c := c) (e := (cause, rank)) (word := 2 ^ 63 + cause * 2 ^ 32 + rank) (t := c.time)
      ⟨rfl, rfl, rfl, rfl⟩ (payable_of_deviceAt hat) hm.1 hwrites
    exact ended_next hexec hcoll hjob hloc hstored

/-- DONE rises by DINC when every step is complete (R226). -/
theorem collComplete_counts {pa posted : Nat} (hc : s.dev.coll? c.id = some c) (hm : memOk s) (hj : s.dev.job? c.id = some j)
    (hhead : (s.dev.colls.find? fun y => y.ctx == c.ctx && y.q == c.q).map (·.id) = some c.id) (hentered : j.entered = true)
    (hafter : j.after = []) (hnear : s.dev.nearPosts c ≠ none) (hbegun : c.begun = true) (hlast : c.step + 1 = c.steps.length)
    (hstep : c.stepDone = true) (hresid : c.desc.resid = false) (hstatus : c.desc.status = 0) (hdone : c.desc.done ≠ 0)
    (hat : DeviceAt s c.ctx c.desc.done pa 8) :
    ∃ t, exec (.collComplete c.id none posted) s = .next t ∧ t.dev.coll? c.id = none ∧ t.dev.job? c.id = none ∧
      t.dev.locmem = s.dev.locmem ∧
      StoresAt s t c.ctx pa (leBytes 8 (leNat (s.dev.readGlob c.ctx pa 8).1 / 2 ^ 48 * 2 ^ 48 + (leNat (s.dev.readGlob c.ctx pa 8).1 + c.desc.dinc) % 2 ^ 48)) := by
  have hpay : Payable s.dev c.ctx c.desc.done pa 8 := payable_of_deviceAt hat
  obtain ⟨x, hx, -, -⟩ := hpay.place
  obtain ⟨near, hnear⟩ := Option.ne_none_iff_exists'.mp hnear
  have hexec := collComplete_next hc hj hx hhead hentered hafter hnear hbegun hlast hstep hresid posted
  obtain ⟨hcoll, hjob, hloc⟩ := endColl_gone s.dev c none (max c.time (max near posted))
  obtain ⟨e, t, hstored, hsame⟩ := endColl_stores (c := c) (max c.time (max near posted)) (w := .inc c.desc.dinc) hpay (endWrites_done _ hstatus hdone)
  have hsound : Claims.Sound s c.ctx pa (leBytes 8 (cincNew (leNat (s.dev.readGlob c.ctx pa 8).1) c.desc.dinc)).length := by
    rw [leBytes_length]
    exact hpay.written
  exact ended_next hexec hcoll hjob hloc
    (storesAt_stored (t := { s with dev := s.dev.endColl c none (max c.time (max near posted)) }) hstored hm.1 hsound hsame)

/-- A rank that disagrees with another of its package fails with OBJECT (R226, R341). -/
theorem collStepEnter_fails {pa : Nat} (hc : s.dev.coll? c.id = some c) (hm : memOk s) (hj : s.dev.job? c.id = some j)
    (hhead : (s.dev.colls.find? fun y => y.ctx == c.ctx && y.q == c.q).map (·.id) = some c.id) (hentered : j.entered = true)
    (hafter : j.after = []) (hbegun : c.begun = false) (hstep : c.step < c.steps.length) (hagree : s.dev.disagrees c = true)
    (hrank : c.comm.rank < 1024) (hdone : c.desc.done = 0) (hrecv : c.desc.recvElems c.comm.size = 0) (hstatus : c.desc.status ≠ 0)
    (hat : DeviceAt s c.ctx c.desc.status pa 8) :
    ∃ t, exec (.collStepEnter c.id) s = .next t ∧ t.dev.coll? c.id = none ∧ t.dev.job? c.id = none ∧
      t.dev.locmem = s.dev.locmem ∧ StoresAt s t c.ctx pa (leBytes 8 (2 ^ 63 + cObject * 2 ^ 32 + c.comm.rank)) := by
  have hexec := collStepEnter_disagrees hc hj hhead hentered hafter hbegun hstep hagree
  have hbuf := toldPeers_buffered s.dev (late j.clock c) cObject
  obtain ⟨hcoll, hjob, hloc⟩ := endColl_gone (toldPeers s.dev (late j.clock c) cObject) (late j.clock c) (some (cObject, c.comm.rank)) (late j.clock c).time
  have hwrites := endWrites_failure (c := late j.clock c) (e := (cObject, c.comm.rank)) (toldPeers s.dev (late j.clock c) cObject).free hrecv hdone
  have hstatus' : (late j.clock c).desc.status ≠ 0 := hstatus
  rw [if_neg hstatus', endWord_small (by decide) hrank] at hwrites
  have hmem : Memory.wf (toldPeers s.dev (late j.clock c) cObject).mem = true := by
    rw [hbuf.rest]
    exact hm.1
  have hstored := endColl_told (s := s) (c := late j.clock c) (t := (late j.clock c).time) hbuf.sameBytes (hbuf.payable (payable_of_deviceAt hat)) hmem hwrites
  exact ended_next hexec hcoll hjob (hloc.trans hbuf.locmem) hstored

end

/-! ## A READY between ranks of one package (log entry 99) -/

/-- An engine without collectives in a step, and without servers, has no quantum to choose. -/
theorem choose_nothing (d : Dev) (p : Point) (i last : Nat) : d.choose p i [] last = none := rfl

section
variable {d : Dev} {engine : Nat} (h : d.collsAt engine = [])
include h

theorem collWants_none : d.collWants engine = [] := by
  rw [Dev.collWants, h]
  rfl

theorem collPending_none : d.collPending engine = [] := by
  rw [Dev.collPending, collWants_none h, h]
  rfl

end

theorem runColl_takes {d e : Dev} {engine : Nat} (htake : d.takeNear engine = e) (hidle : e.collsAt engine = []) (hservers : e.servers = []) :
    d.runColl engine = e := by
  rw [Dev.runColl, htake]
  dsimp only
  rw [hidle, List.filter_nil, List.foldl_nil, collWants_none hidle, collPending_none hidle, syncPoint_none hservers, List.map_nil, choose_nothing]

/-- The one message is a READY for the one collective, of which no step has begun. -/
theorem takeNear_ready {d : Dev} {c : Coll} {e : Egress} {name peer clock : Nat} (hcolls : d.colls = [c]) (hegress : d.egress = [e])
    (hbegun : c.begun = false) (hhome : e.home = some (c.ctx, c.q, c.seq)) (hbody : e.pkt.body = .ready name peer clock) :
    d.takeNear c.engine = Dev.modColl { d with egress := [] } c.id (tookReady peer clock) := by
  have hfind : (d.colls.find? fun z => z.ctx == c.ctx && z.q == c.q && z.seq == c.seq) = some c := by
    rw [hcolls, List.find?_cons_of_pos (p := fun z : Coll => z.ctx == c.ctx && z.q == c.q && z.seq == c.seq) (by simp)]
  have hc : Dev.coll? { d with egress := [] } c.id = some c := by
    change d.colls.find? (fun x : Coll => x.id == c.id) = some c
    rw [hcolls, List.find?_cons_of_pos (p := fun x : Coll => x.id == c.id) (beq_self_eq_true c.id)]
  have hmod := coll?_modColl (f := tookReady peer clock) (fun _ => rfl) hc
  have hunwanted : (tookReady peer clock c).wantsReady = false := by
    have hb : (tookReady peer clock c).begun = false := hbegun
    simp only [Coll.wantsReady, hb, Bool.false_and]
  have huse := useReady_unwanted hmod hunwanted
  rw [Dev.takeNear, hegress, List.foldl_cons, List.foldl_nil, hhome]
  dsimp only
  rw [hfind]
  dsimp only
  rw [if_pos rfl, hbody, hegress, List.erase_cons_head]
  exact huse

theorem arbiterSelect_ready {s : State} {c : Coll} {e : Egress} {name peer clock : Nat} (hcolls : s.dev.colls = [c]) (hservers : s.dev.servers = [])
    (hegress : s.dev.egress = [e]) (hbegun : c.begun = false) (hhome : e.home = some (c.ctx, c.q, c.seq))
    (hbody : e.pkt.body = .ready name peer clock) :
    ∃ t, exec (.arbiterSelect (.coll c.engine)) s = .next t ∧ Apart s t ∧ t.dev.egress = [] ∧
      t.dev.colls = [{ c with ready := c.ready ++ [peer], time := max c.time clock }] := by
  let d := Dev.modColl { s.dev with egress := [] } c.id (tookReady peer clock)
  have hleft : d.colls = [tookReady peer clock c] := by
    change modIf (fun x : Coll => x.id == c.id) (tookReady peer clock) s.dev.colls = _
    rw [hcolls, modIf, List.map_singleton, if_pos (beq_self_eq_true c.id)]
  have hidle : d.collsAt c.engine = [] := by
    have hb : (tookReady peer clock c).begun = false := hbegun
    rw [Dev.collsAt, hleft, List.filter_cons_of_neg (p := fun x : Coll => x.engine == c.engine && x.begun) (by rw [hb, Bool.and_false]; exact Bool.false_ne_true),
      List.filter_nil]
  have hrun : s.dev.runColl c.engine = d := runColl_takes (takeNear_ready hcolls hegress hbegun hhome hbody) hidle hservers
  have hexec : exec (.arbiterSelect (.coll c.engine)) s = .next { s with dev := s.dev.runColl c.engine } := rfl
  rw [hrun] at hexec
  exact ⟨_, hexec, ⟨rfl, rfl, rfl, rfl, rfl, rfl⟩, rfl, hleft⟩

/-- Settles O38, step by step: what a READY, a clear-to-send and a chunk leave of the collective, and the writes that tell its end. -/
theorem collectiveSteps : Obligations.CollectiveSteps := by
  unfold Obligations.CollectiveSteps
  refine ⟨?_, ?_, ?_, ?_, ?_, ?_, ?_, ?_, ?_⟩
  · intro s c j x rest hc hj hhead hentered hafter hbegun hstep hready hsteps hagree
    exact collStepEnter_first hc hj hhead hentered hafter hbegun hstep hready hsteps hagree
  · intro s c peer clock hc hbegun
    have hunwanted : c.wantsReady = false := by simp only [Coll.wantsReady, hbegun, Bool.false_and]
    exact collReady_keeps hc hunwanted
  · intro s c x peer clock hstep hready hpeer
    refine ⟨fun hwants => ?_, fun hwants hop => collReady_barrier hstep hready hpeer hwants hop,
      fun hwants hop hchunks hwaits hroom => collReady_clears hstep hready hpeer hwants hop hchunks hwaits hroom⟩
    obtain ⟨t, hexec, hapart, hegress, hcoll⟩ := collReady_keeps (peer := peer) (clock := clock) hstep.1 hwants
    rw [tookReady, hready, List.nil_append] at hcoll
    exact ⟨t, hexec, hapart, hegress, hcoll⟩
  · intro s c x peer chunk clock hstep hpeer hless hsent hsends hwaits hroom
    exact collCts_sends hstep hpeer hless hsent hsends hwaits hroom
  · intro s c x peer chunk clock bytes hstep hpeer hopen hnew hlength
    exact collChunkReceive_keeps hstep hpeer hopen hnew hlength
  · intro s c cause rank posted hc hm hcause hrank hdone
    exact collComplete_fails hc hm hcause hrank hdone
  · intro s c j posted pa hc hm hj hhead hentered hafter hnear hbegun hlast hstep hresid hstatus hdone hat
    exact collComplete_counts hc hm hj hhead hentered hafter hnear hbegun hlast hstep hresid hstatus hdone hat
  · intro s c j pa hc hm hj hhead hentered hafter hbegun hstep hagree hrank hdone hrecv hstatus hat
    exact collStepEnter_fails hc hm hj hhead hentered hafter hbegun hstep hagree hrank hdone hrecv hstatus hat
  · intro s c e name peer clock hcolls hservers hegress hbegun hhome hbody
    exact arbiterSelect_ready hcolls hservers hegress hbegun hhome hbody

end Sys2Proof.Proofs
end

section
/-!
PROOFS. Work: placement, release, triggers and ends of blocks, handlers and watchdogs (01, 04, 07, 10, 11: R17, R31, R32, R39 to R41, R144, R145, R230, R234, R306, R310): O40.
-/

open Sys2Proof Sys2Proof.Machine Sys2Proof.Claims

-- The whole text is compiled in one process, which can hold few threads: these proofs are elaborated in order.
set_option Elab.async false

namespace Sys2Proof.Proofs

/-! ## Launches that are released (R230, R234) -/

theorem launch?_modLaunch {d : Dev} {id : Nat} {l : Launch} {f : Launch → Launch} (hf : ∀ x, (f x).id = x.id) (h : d.launch? id = some l) :
    (d.modLaunch id f).launch? id = some (f l) := by
  have hkeep : ∀ x : Launch, (x.id == id) = true → ((f x).id == id) = true := fun x hx => by rw [hf]; exact hx
  exact (find?_modIf_same hkeep d.launches).trans (congrArg (Option.map f) h)

/-- A launch that waits for nothing more. -/
def letGo (l : Launch) : Launch := if l.preds.isEmpty && l.window.isNone then { l with released := true } else l

theorem letGo_id (l : Launch) : (letGo l).id = l.id := by
  rw [letGo]
  split <;> rfl

/-- A window that has been open for 4,800 cycles, of a context that runs. -/
def ripeWindow (d : Dev) (ctx : Nat) (l : Launch) : Bool :=
  l.ctx == ctx && !(d.ctx? ctx).any (·.stopped) && l.window.any fun t => decide (t + 4800 ≤ d.clock)

/-- The first launch of a number, where those that a condition names change and keep their number. -/
theorem find?_changed {p : Launch → Bool} {f : Launch → Launch} (hf : ∀ x, (f x).id = x.id) {id : Nat} {l : Launch} {L : List Launch}
    (h : L.find? (·.id == id) = some l) (hp : p l = true) : (modIf p f L).find? (·.id == id) = some (f l) := by
  have hcomp : ((fun x : Launch => x.id == id) ∘ fun x => if p x then f x else x) = fun x => x.id == id := by
    funext x
    dsimp only [Function.comp]
    split
    · rw [hf]
    · rfl
  rw [modIf, List.find?_map, hcomp, h, Option.map_some, if_pos hp]

theorem launchSteps (s : State) (l : Launch) (hl : s.dev.launch? l.id = some l) :
    (l.preds = [] → l.window = none →
      ∃ t, exec (.launchRelease l.id) s = .next t ∧ Apart s t ∧ t.dev.launch? l.id = some { l with released := true }) ∧
    (l.preds ≠ [] ∨ l.window ≠ none → ∃ t, exec (.launchRelease l.id) s = .next t ∧ Apart s t ∧ t.dev.launch? l.id = some l) ∧
    (∀ since, l.window = some since → since + 4800 ≤ s.dev.clock → (∀ c, s.dev.ctx? l.ctx = some c → c.stopped = false) →
      ∃ t, exec (.kneadWindowClose l.ctx) s = .next t ∧ Apart s t ∧ t.dev.launch? l.id = some { l with window := none }) := by
  have hexec : exec (.launchRelease l.id) s = .next { s with dev := s.dev.modLaunch l.id letGo } := rfl
  have hfind := launch?_modLaunch letGo_id hl
  refine ⟨fun hpreds hwindow => ?_, fun hwait => ?_, fun since hwindow hripe hruns => ?_⟩
  · have hgo : letGo l = { l with released := true } := by
      rw [letGo, hpreds, hwindow, if_pos (by rfl)]
    exact ⟨_, hexec, ⟨rfl, rfl, rfl, rfl, rfl, rfl⟩, hgo ▸ hfind⟩
  · have hgo : letGo l = l := by
      rw [letGo, if_neg]
      rw [Bool.and_eq_true, List.isEmpty_iff, Option.isNone_iff_eq_none]
      rintro ⟨hpreds, hwindow⟩
      rcases hwait with h | h
      · exact h hpreds
      · exact h hwindow
    rw [hgo] at hfind
    exact ⟨_, hexec, ⟨rfl, rfl, rfl, rfl, rfl, rfl⟩, hfind⟩
  · have hstop : (s.dev.ctx? l.ctx).any (·.stopped) = false := by
      cases hctx : s.dev.ctx? l.ctx with
      | none => rfl
      | some c => exact hruns c hctx
    have hp : ripeWindow s.dev l.ctx l = true := by
      rw [ripeWindow, hstop, hwindow]
      simp [hripe]
    exact ⟨{ s with dev := { s.dev with launches := modIf (ripeWindow s.dev l.ctx) (fun l => { l with window := none }) s.dev.launches } }, rfl,
      ⟨rfl, rfl, rfl, rfl, rfl, rfl⟩, find?_changed (f := fun l => { l with window := none }) (fun _ => rfl) hl hp⟩

/-! ## The trigger event of a block (R39, R145, R231) -/

/-- What an early end of a launch's items leaves of a launch. -/
def freed (id time : Nat) (x : Launch) : Launch :=
  if x.id = id ∧ x.early = none then { x with early := some time }
  else if x.preds.contains id then { x with preds := x.preds.filter (· != id), time := max x.time time } else x

theorem freed_keeps (id time : Nat) (x : Launch) :
    (freed id time x).id = x.id ∧ (freed id time x).count = x.count ∧ (freed id time x).record = x.record ∧ (freed id time x).trigs = x.trigs ∧
      (freed id time x).trigTime = x.trigTime := by
  rw [freed]
  split
  · exact ⟨rfl, rfl, rfl, rfl, rfl⟩
  · split <;> exact ⟨rfl, rfl, rfl, rfl, rfl⟩

theorem releaseDeps_eq {d : Dev} {id : Nat} {l : Launch} (h : d.launch? id = some l) :
    d.releaseDeps id = if l.trigs < l.count then d else { d with launches := d.launches.map (freed id l.trigTime) } := by
  rw [Dev.releaseDeps, h]
  rfl

/-- What the release of dependants leaves of the launch itself. -/
theorem releaseDeps_launch {d : Dev} {id : Nat} {l : Launch} (h : d.launch? id = some l) :
    ∃ l', (d.releaseDeps id).launch? id = some l' ∧ l'.count = l.count ∧ l'.record = l.record ∧ l'.trigs = l.trigs ∧ l'.trigTime = l.trigTime := by
  rw [releaseDeps_eq h]
  split
  · exact ⟨l, h, rfl, rfl, rfl, rfl⟩
  · have hcomp : ((fun x : Launch => x.id == id) ∘ freed id l.trigTime) = fun x => x.id == id := by
      funext x
      dsimp only [Function.comp]
      rw [(freed_keeps id l.trigTime x).1]
    have hfind : ((d.launches.map (freed id l.trigTime)).find? fun x => x.id == id) = some (freed id l.trigTime l) := by
      rw [List.find?_map, hcomp]
      exact congrArg (Option.map _) h
    obtain ⟨-, hcount, hrecord, htrigs, htime⟩ := freed_keeps id l.trigTime l
    exact ⟨_, hfind, hcount, hrecord, htrigs, htime⟩

/-- All items have triggered or ended: the launch knows it, and nothing names it as a predecessor. -/
theorem releaseDeps_all {d : Dev} {id : Nat} {l : Launch} (h : d.launch? id = some l) (hall : l.count ≤ l.trigs) :
    (∀ l', (d.releaseDeps id).launch? id = some l' → l'.early.isSome = true) ∧
      ∀ y ∈ (d.releaseDeps id).launches, y.id ≠ id → id ∉ y.preds := by
  rw [releaseDeps_eq h, if_neg (Nat.not_lt.mpr hall)]
  refine ⟨fun l' hl' => ?_, fun y hy hne => ?_⟩
  · have hid := find?_id_eq (f := Launch.id) hl'
    obtain ⟨x, -, rfl⟩ := List.mem_map.mp (List.mem_of_find?_eq_some hl')
    rw [(freed_keeps id l.trigTime x).1] at hid
    rw [freed]
    by_cases hearly : x.early = none
    · rw [if_pos ⟨hid, hearly⟩]
      rfl
    · rw [if_neg (fun hx => hearly hx.2)]
      have hsome := Option.isSome_iff_ne_none.mpr hearly
      split
      · exact hsome
      · exact hsome
  · obtain ⟨x, -, rfl⟩ := List.mem_map.mp hy
    rw [(freed_keeps id l.trigTime x).1] at hne
    rw [freed, if_neg (fun hx => hne hx.1)]
    split
    · intro hmem
      have := (List.mem_filter.mp hmem).2
      rw [bne_self_eq_false] at this
      exact Bool.false_ne_true this
    next hnot => exact fun hmem => hnot (List.contains_iff_mem.mpr hmem)

theorem blockTrigger (s : State) (b : Block) (l : Launch) (hb : s.dev.block? b.id = some b) (htrig : b.trigDone = false) (hlaunch : b.launch = some l.id)
    (hl : s.dev.launch? l.id = some l) (hall : ∀ w ∈ s.dev.blockWaves b.id, ∀ x ∈ w.strands, x.triggered = true ∨ x.exited = true)
    (hops : ∀ o ∈ s.dev.memops, o.id ∉ b.trigOps.getD []) (hjobs : ∀ j ∈ s.dev.jobs, j.id ∉ b.trigOps.getD []) :
    ∃ t l', exec (.blockTriggerEvent b.id) s = .next t ∧ t.dev.block? b.id = some { b with trigDone := true } ∧
      t.dev.launch? l.id = some l' ∧ l'.trigs = l.trigs + 1 ∧ l'.trigTime = max l.trigTime b.trigTime ∧ l'.count = l.count ∧
      t.dev.waves = s.dev.waves ∧ t.dev.mem = s.dev.mem ∧
      (l.count ≤ l.trigs + 1 → l'.early.isSome = true ∧ ∀ y ∈ t.dev.launches, y.id ≠ l.id → l.id ∉ y.preds) := by
  let f (b : Block) : Block := { b with trigDone := true }
  let g (x : Launch) : Launch := { x with trigs := x.trigs + 1, trigTime := max x.trigTime b.trigTime }
  let d : Dev := (s.dev.modBlock b.id f).modLaunch l.id g
  have hd : d.launch? l.id = some (g l) := launch?_modLaunch (f := g) (fun _ => rfl) hl
  have hblock : (s.dev.modBlock b.id f).block? b.id = some (f b) := block?_modBlock (f := f) (fun _ => rfl) hb
  have hevery : ((s.dev.blockWaves b.id).all fun w => w.strands.all fun t => t.triggered || t.exited) = true :=
    List.all_eq_true.mpr fun w hw => List.all_eq_true.mpr fun x hx => Bool.or_eq_true_iff.mpr (hall w hw x hx)
  have hidle : ((s.dev.memops.any fun o => (b.trigOps.getD []).contains o.id) || s.dev.jobs.any fun j => (b.trigOps.getD []).contains j.id) = false := by
    rw [Bool.or_eq_false_iff, List.any_eq_false, List.any_eq_false]
    exact ⟨fun o ho hat => hops o ho (List.contains_iff_mem.mp hat), fun j hj hat => hjobs j hj (List.contains_iff_mem.mp hat)⟩
  have hexec : exec (.blockTriggerEvent b.id) s = .next { s with dev := d.releaseDeps l.id } := by
    change execBlockTriggerEvent b.id s = _
    rw [execBlockTriggerEvent, onDev, hb]
    refine congrArg (fun d => Host.Outcome.next { s with dev := d }) ?_
    dsimp only
    rw [htrig, hevery, hidle, if_neg (by simp), hlaunch]
  obtain ⟨l', hl', hcount, -, htrigs, htime⟩ := releaseDeps_launch hd
  have hacc := Accounted.releaseDeps d l.id
  have hrest : (d.releaseDeps l.id).waves = d.waves ∧ (d.releaseDeps l.id).mem = d.mem ∧ (d.releaseDeps l.id).blocks = d.blocks := by
    rw [releaseDeps_eq hd]
    split <;> exact ⟨rfl, rfl, rfl⟩
  obtain ⟨hwaves, hmem, hblocks⟩ := hrest
  refine ⟨_, l', hexec, ?_, hl', htrigs, htime, hcount, hwaves, hmem, fun hcome => ?_⟩
  · rw [Dev.block?, hblocks]
    exact hblock
  · obtain ⟨hearly, hpreds⟩ := releaseDeps_all hd hcome
    exact ⟨hearly l' hl', hpreds⟩

/-! ## Entry into handlers, watchdogs (R306, R310) -/

theorem enter_keeps (w : Wave) : w.enter = { entersHandler 0 w with cause := w.cause } := by
  simp only [Wave.enter, entersHandler, Strand.toHandler, Strand.putFault]
  rfl

/-- What a wave that enters its handler has asked other packages for is forgotten, whether it has asked or not. -/
theorem dropAsks_eq (d : Dev) (id : Nat) :
    d.dropAsks id = { d with inbox := d.inbox.filter (·.1 != id), remotes := d.remotes.filter fun r => !r.job.any (·.1 == id) } := by
  rw [Dev.dropAsks]
  split
  · rfl
  next h =>
    rw [Bool.not_eq_true, Dev.asksFor, Bool.or_eq_false_iff, List.any_eq_false, List.any_eq_false] at h
    obtain ⟨hinbox, hremotes⟩ := h
    have hin : d.inbox.filter (·.1 != id) = d.inbox := List.filter_eq_self.mpr fun x hx => by
      simpa using hinbox x hx
    have hout : (d.remotes.filter fun r => !r.job.any (·.1 == id)) = d.remotes := List.filter_eq_self.mpr fun r hr => by
      simpa using hremotes r hr
    rw [hin, hout]

theorem handlerEntry_enters (s : State) (w : Wave) (b : Block) (hw : s.dev.wave? w.id = some w) (hb : s.dev.block? w.block = some b)
    (hentry : w.entry = true) (hbusy : w.busy = false) (hlive : w.live = true) (hstop : b.stopped = false)
    (hclaims : (s.dev.core b.core).claims.any (·.1 == w.id) = false) :
    exec (.handlerEntry w.id) s = .next { s with dev := { s.dev with
      waves := s.dev.waves.map fun x => if x.id = w.id then { entersHandler 0 x with cause := x.cause } else x
      inbox := s.dev.inbox.filter (·.1 != w.id)
      remotes := s.dev.remotes.filter fun r => !r.job.any (·.1 == w.id) } } := by
  have henter : (s.dev.modWave w.id Wave.enter).waves =
      s.dev.waves.map fun x => if x.id = w.id then { entersHandler 0 x with cause := x.cause } else x := by
    refine List.map_congr_left fun x _ => ?_
    simp only [beq_iff_eq, enter_keeps]
  have hhandler : s.dev.enterHandler w.id = (s.dev.modWave w.id Wave.enter).dropAsks w.id := by
    have hb' : ((s.dev.modWave w.id Wave.enter).dropAsks w.id).block? w.block = some b := by
      rw [dropAsks_eq]
      exact hb
    have hclaims' : (((s.dev.modWave w.id Wave.enter).dropAsks w.id).core b.core).claims.any (·.1 == w.id) = false := by
      rw [dropAsks_eq]
      exact hclaims
    rw [Dev.enterHandler, hw]
    dsimp only
    rw [hbusy, if_neg Bool.false_ne_true, hb']
    dsimp only
    rw [hclaims', if_neg Bool.false_ne_true]
  change execHandlerEntry w.id s = _
  rw [execHandlerEntry, onDev, hw]
  refine congrArg (fun d => Host.Outcome.next { s with dev := d }) ?_
  dsimp only
  rw [hentry, hbusy, hlive, hb, Option.any_some, hstop, if_pos (by rfl), hhandler, dropAsks_eq, henter]
  rfl

theorem raiseAsync_mem {d : Dev} {w : Wave} {id : Nat} (hw : d.wave? id = some w) (htvec : w.tvec ≠ 0) (c : Nat) : (d.raiseAsync id c).mem = d.mem := by
  rw [Dev.raiseAsync, hw]
  dsimp only
  rw [bne_iff_ne.mpr htvec]
  split
  · rfl
  · split <;> rfl

theorem watchdog_eq {s : State} {w : Wave} {x : Strand} {n : Nat} (hw : s.dev.wave? w.id = some w) (hx : w.strands[n]? = some x) (dev : Dev)
    (h : (x.waiting = none ∧ dev = s.dev) ∨ ∃ since what, x.waiting = some ⟨since, what⟩ ∧
      dev = if what.watched && decide (since + 2 ^ 28 ≤ s.dev.clock) then s.dev.raiseAsync w.id cWatchdog else s.dev) :
    exec (.watchdog w.id n) s = .next { s with dev := dev } := by
  change execWatchdog w.id n s = _
  rw [execWatchdog, onDev, hw, Option.bind_some, hx]
  refine congrArg (fun d => Host.Outcome.next { s with dev := d }) ?_
  obtain ⟨pc, s', ex, g, tr, mo, ep, hs, wt, dn⟩ := x
  rcases h with ⟨hnone, rfl⟩ | ⟨since, what, hsome, rfl⟩
  · dsimp only at hnone
    rw [hnone]
  · dsimp only at hsome
    rw [hsome]

theorem watchdog_steps (s : State) (w : Wave) (x : Strand) (n since tag : Nat) (hw : s.dev.wave? w.id = some w) (hx : w.strands[n]? = some x)
    (hlive : w.live = true) (htvec : w.tvec ≠ 0) :
    (x.waiting = some ⟨since, .numBar tag⟩ → since + 2 ^ 28 ≤ s.dev.clock →
      ∃ t, exec (.watchdog w.id n) s = .next t ∧ Told t w.id cWatchdog ∧ t.dev.mem = s.dev.mem) ∧
    (x.waiting = none ∨ (x.waiting = some ⟨since, .numBar tag⟩ ∧ s.dev.clock < since + 2 ^ 28) →
      exec (.watchdog w.id n) s = .next s) := by
  refine ⟨fun hwait hlate => ?_, fun h => ?_⟩
  · have hexec := watchdog_eq hw hx (s.dev.raiseAsync w.id cWatchdog) (.inr ⟨since, .numBar tag, hwait, by
      rw [decide_eq_true hlate]
      rfl⟩)
    exact ⟨_, hexec, (raiseAsync_told hw hlive htvec (by decide)).2, raiseAsync_mem hw htvec _⟩
  · refine watchdog_eq hw hx s.dev ?_
    rcases h with hnone | ⟨hwait, hearly⟩
    · exact .inl ⟨hnone, rfl⟩
    · refine .inr ⟨since, .numBar tag, hwait, ?_⟩
      rw [decide_eq_false (Nat.not_le.mpr hearly)]
      rfl

/-! ## Blocks keep their numbers (R40, R41) -/

/-- The same blocks, by number and order. -/
def SameBlocks (d e : Dev) : Prop := e.blocks.map (·.id) = d.blocks.map (·.id)

namespace SameBlocks

theorem of_eq {d e : Dev} (h : e.blocks = d.blocks) : SameBlocks d e := by rw [SameBlocks, h]

theorem after {d x y : Dev} (h : SameBlocks x y) (hx : x.blocks = d.blocks) : SameBlocks d y := Eq.trans h (of_eq hx)

theorem refl (d : Dev) : SameBlocks d d := rfl

theorem trans {a b c : Dev} (h : SameBlocks a b) (g : SameBlocks b c) : SameBlocks a c := Eq.trans g h

theorem ite {p : Prop} [Decidable p] {d a b : Dev} (ha : SameBlocks d a) (hb : SameBlocks d b) : SameBlocks d (if p then a else b) := by
  split
  · exact ha
  · exact hb

theorem foldl {α : Type} {f : Dev → α → Dev} (hf : ∀ d a, SameBlocks d (f d a)) (l : List α) (d : Dev) : SameBlocks d (l.foldl f d) := by
  induction l generalizing d with
  | nil => exact refl d
  | cons a l ih => exact (hf d a).trans (ih _)

theorem modIf_blocks {d : Dev} {p : Block → Bool} {f : Block → Block} (hf : ∀ b, (f b).id = b.id) {e : Dev} (h : e.blocks = modIf p f d.blocks) :
    SameBlocks d e := by
  rw [SameBlocks, h, modIf, List.map_map]
  refine List.map_congr_left fun b _ => ?_
  rw [Function.comp_apply]
  split
  · exact hf b
  · rfl

theorem modBlock {f : Block → Block} (hf : ∀ b, (f b).id = b.id) (d : Dev) (id : Nat) : SameBlocks d (d.modBlock id f) := modIf_blocks hf rfl

theorem tryRelease (d : Dev) (b : Block) (n : Nat) : SameBlocks d (d.tryRelease b n) := by
  simp only [Dev.tryRelease]
  exact ite (refl d) (modIf_blocks (p := fun x => ((d.barWaves b n).map (·.block)).eraseDups.contains x.id)
    (f := fun x => { x with barGens := assocPut x.barGens n (x.barGen n + 1) }) (fun _ => rfl) rfl)

theorem noteTrigger (d : Dev) (w : Wave) (g : StrandMask) : SameBlocks d (d.noteTrigger w g) := by
  simp only [Dev.noteTrigger]
  refine modBlock ?_ d _
  exact fun _ => rfl

theorem noteDone (d : Dev) (id wave block : Nat) (g : StrandMask) (t : Nat) : SameBlocks d (d.noteDone id wave block g t) := by
  refine trans (of_eq (d := d) (e := d.modWave wave _) rfl) (modBlock ?_ _ _)
  exact fun _ => rfl

theorem endJob (d : Dev) (id t : Nat) : SameBlocks d (d.endJob id t) := of_eq rfl

theorem darkenFor (d : Dev) (die need n : Nat) : SameBlocks d (d.darkenFor die need n) := by
  induction n generalizing d with
  | zero => exact refl d
  | succ n ih =>
    simp only [Dev.darkenFor]
    refine ite (refl d) ?_
    split
    · exact refl d
    · exact (of_eq (d := d) rfl).trans (ih _)

theorem grantHead (d : Dev) (core : Nat) (k : EngKind) : SameBlocks d (d.grantHead core k) := by
  simp only [Dev.grantHead]
  split
  · exact refl d
  · split
    · exact refl d
    · split
      · have hdark := darkenFor d (dieOf core) (powerOf k) 672
        exact ite (hdark.trans (of_eq rfl)) (ite (of_eq rfl) (hdark.trans (of_eq rfl)))
      · exact ite (refl d) (ite (of_eq rfl) (of_eq rfl))
      · exact ite (refl d) (ite (of_eq rfl) (of_eq rfl))
      · exact refl d

theorem releaseEngine (d : Dev) (core : Nat) (k : EngKind) : SameBlocks d (d.releaseEngine core k) := by
  simp only [Dev.releaseEngine]
  have hgrant : SameBlocks d (Dev.grantHead (d.modEngine core k fun e =>
      { e with st := .leased, former := e.holder, formerAt := e.granted, holder := none, idle := d.clock }) core k) := after (grantHead _ core k) rfl
  exact ite (hgrant.trans (of_eq rfl)) hgrant

theorem douse (d : Dev) (core : Nat) (k : EngKind) (w : Nat) : SameBlocks d (d.douse core k w) := by
  simp only [Dev.douse]
  have hqueue : SameBlocks d (if (d.engine core k).queue.any (·.wave == w)
      then d.modEngine core k fun e => { e with queue := e.queue.filter (·.wave != w) } else d) := ite (of_eq rfl) (refl d)
  refine hqueue.trans ?_
  generalize (if (d.engine core k).queue.any (·.wave == w)
    then d.modEngine core k fun e => { e with queue := e.queue.filter (·.wave != w) } else d) = q
  split
  · exact refl _
  · refine ite (refl _) ?_
    split
    · exact releaseEngine _ core k
    · exact of_eq rfl
    · exact of_eq rfl
    · exact refl _

theorem waveGone (d : Dev) (w : Wave) (b : Block) : SameBlocks d (d.waveGone w b) := by
  simp only [Dev.waveGone]
  refine trans ?_ (foldl (fun d n => tryRelease d b n) _ _)
  refine trans ?_ (modBlock ?_ _ _)
  · refine trans (b := Dev.douseAll _ b.core w.id) ?_ (of_eq rfl)
    refine trans ?_ ((douse _ b.core .tile w.id).trans ((douse _ b.core .table w.id).trans (douse _ b.core .select w.id)))
    exact after (foldl (fun d j => endJob d _ _) _ _) rfl
  · exact fun _ => rfl

theorem stopWaves (d : Dev) (b : Block) : SameBlocks d (d.stopWaves b) := by
  simp only [Dev.stopWaves]
  refine trans (foldl (fun d w => noteTrigger d w 0xFF) (d.liveWaves b.id) d) ?_
  exact after (foldl (fun d w => waveGone d w b) _ _) rfl

theorem endStopped (d : Dev) (block : Nat) : SameBlocks d (d.endStopped block) :=
  foldl (fun d _ => (noteDone d _ _ _ _ _).trans (endJob _ _ _)) _ d

theorem block? {d e : Dev} (h : SameBlocks d e) {id : Nat} {b : Block} (hb : d.block? id = some b) : ∃ b', e.block? id = some b' := by
  rw [← Option.isSome_iff_exists, Dev.block?, List.find?_isSome]
  have hid : id ∈ d.blocks.map (·.id) := List.mem_map.mpr ⟨b, List.mem_of_find?_eq_some hb, find?_id_eq (f := Block.id) hb⟩
  rw [← h] at hid
  obtain ⟨x, hx, hxid⟩ := List.mem_map.mp hid
  exact ⟨x, hx, beq_iff_eq.mpr hxid⟩

end SameBlocks

/-! ## A forced exit (R41) -/

/-- The block of a forced exit is there still, and knows of it. -/
theorem forceExit_block {d : Dev} {id : Nat} {b : Block} (hb : d.block? id = some b) : ∃ b', (d.forceExit id).block? id = some b' ∧ b'.forced = true := by
  simp only [Dev.forceExit, hb]
  have hstop := SameBlocks.stopWaves d b
  have hjobs := hstop.trans (SameBlocks.foldl (f := fun d (j : Job) => d.endJob j.id j.clock) (fun _ _ => .endJob _ _ _)
    ((d.stopWaves b).jobs.filter fun j => j.block == id && (match j.kind with | .tile _ _ none _ => true | _ => false)) _)
  generalize List.foldl _ _ _ = e at hjobs ⊢
  have hcopies := (hjobs.trans (c := { e with jobs := modIf (·.block == id) Job.cancel e.jobs }) (.of_eq rfl)).trans (.endStopped _ id)
  generalize Dev.endStopped _ _ = x at hcopies ⊢
  obtain ⟨y, hy⟩ := hcopies.block? hb
  have hset : Dev.block? (Dev.modBlock { x with cores := x.cores.map fun c => { c with fifo := c.fifo.filter (·.block != id) } } id
      fun b => { b with forced := true, deadline := none }) id = some { y with forced := true, deadline := none } :=
    block?_modBlock (d := { x with cores := x.cores.map fun c => { c with fifo := c.fifo.filter (·.block != id) } })
      (f := fun b => { b with forced := true, deadline := none }) (fun _ => rfl) hy
  split
  · refine ⟨{ y with forced := true, deadline := none }, ?_, rfl⟩
    rw [Dev.block?, (Accounted.markLaunch _ _ _ _ _).blocks]
    exact hset
  · exact ⟨_, hset, rfl⟩

theorem cancelDeadline_steps (s : State) (b : Block) (due : Nat) (hb : s.dev.block? b.id = some b) (hdue : b.deadline = some due) (hlate : due ≤ s.dev.clock) :
    (b.susp = none → s.dev.liveWaves b.id ≠ [] →
      ∃ t b', exec (.cancelDeadline b.id) s = .next t ∧ t.dev.block? b.id = some b' ∧ b'.forced = true ∧
        ∀ w ∈ t.dev.waves, w.block = b.id → w.strands.all (·.exited) = true) ∧
    (b.susp ≠ none ∨ s.dev.liveWaves b.id = [] → exec (.cancelDeadline b.id) s = .next s) := by
  have hexec : exec (.cancelDeadline b.id) s = .next { s with dev :=
      if (b.deadline.any (· ≤ s.dev.clock) && b.susp.isNone && !(s.dev.liveWaves b.id).isEmpty) = true then s.dev.forceExit b.id else s.dev } := by
    change execCancelDeadline b.id s = _
    rw [execCancelDeadline, onDev, hb]
  have hripe : b.deadline.any (· ≤ s.dev.clock) = true := by
    rw [hdue]
    exact decide_eq_true hlate
  refine ⟨fun hsusp hlive => ?_, fun h => ?_⟩
  · have hnonempty : (s.dev.liveWaves b.id).isEmpty = false := Bool.eq_false_iff.mpr fun h => hlive (List.isEmpty_iff.mp h)
    rw [hripe, hsusp, hnonempty, if_pos (by rfl)] at hexec
    obtain ⟨b', hb', hforced⟩ := forceExit_block hb
    exact ⟨_, b', hexec, hb', hforced, ended_forceExit hb⟩
  · rw [if_neg] at hexec
    · exact hexec
    · rw [Bool.and_eq_true, Bool.and_eq_true]
      rintro ⟨⟨-, hsusp⟩, hlive⟩
      rcases h with h | h
      · exact h (Option.isNone_iff_eq_none.mp hsusp)
      · rw [h] at hlive
        exact absurd hlive (by decide)

/-! ## The end of a block (R38, R144) -/

/-- A block's last time: its own and those of its waves. -/
def lastTime (d : Dev) (b : Block) : Nat := maxOf (b.time :: (d.blockWaves b.id).map (·.lts))

/-- An item of a launch has ended at a time: it counts no longer among those that have triggered. -/
def itemEnded (b : Block) (t : Nat) (l : Launch) : Launch :=
  { l with trigs := if b.trigDone then l.trigs - 1 else l.trigs, trigTime := if b.trigDone then l.trigTime else max l.trigTime t }

/-- The device once a block has left its core and its launch knows of it. -/
def leaving (d : Dev) (b : Block) (id : Nat) : Dev := (d.removeBlock b).modLaunch id (itemEnded b (lastTime d b))

section
variable {d : Dev} {b : Block} {l : Launch}

theorem removeBlock_rest : (d.removeBlock b).launches = d.launches ∧ (d.removeBlock b).ctxs = d.ctxs ∧ (d.removeBlock b).levels = d.levels :=
  ⟨rfl, rfl, rfl⟩

theorem leaving_walks (id : Nat) : SameWalks d (leaving d b id) := ⟨⟨rfl, rfl, rfl, rfl⟩, rfl, rfl⟩

theorem leaving_launch? (hl : d.launch? l.id = some l) : (leaving d b l.id).launch? l.id = some (itemEnded b (lastTime d b) l) :=
  launch?_modLaunch (d := d.removeBlock b) (f := itemEnded b (lastTime d b)) (fun _ => rfl) hl

theorem finishBlock_launch (hpreempt : ∀ c, d.ctx? b.ctx = some c → c.preempt = none) (hlaunch : b.launch = some l.id) (hl : d.launch? l.id = some l)
    (hcoll : l.coll = none) : d.finishBlock b = ((leaving d b l.id).decLaunch l.id 1 (lastTime d b + 1)).releaseDeps l.id := by
  have hnone : ((d.removeBlock b).ctx? b.ctx).bind (·.preempt) = none := by
    change (d.ctx? b.ctx).bind (·.preempt) = none
    cases hctx : d.ctx? b.ctx with
    | none => rfl
    | some c => exact hpreempt c hctx
  have htell : (d.removeBlock b).tellPreempt b.ctx = d.removeBlock b := by
    rw [Dev.tellPreempt, hnone]
  have hl' : (d.removeBlock b).launch? l.id = some l := hl
  rw [Dev.finishBlock, htell, hlaunch, Option.bind_some, hl']
  dsimp only
  rw [Dev.exitChunk, hcoll]
  rfl

theorem leaving_payable (launch : Nat) {ctx va pa n : Nat} (h : Payable d ctx va pa n) : Payable (leaving d b launch) ctx va pa n :=
  h.transfer (leaving_walks launch) (fun _ => id) (fun _ => id) rfl

end

/-- Launches are no part of what writes of the device's own need. -/
theorem Payable.launches {d : Dev} {ctx va pa n : Nat} (h : Payable d ctx va pa n) (L : List Launch) : Payable { d with launches := L } ctx va pa n :=
  h.transfer ⟨⟨rfl, rfl, rfl, rfl⟩, rfl, rfl⟩ (fun _ => id) (fun _ => id) rfl

theorem sameBytes_launches {d e : Dev} (h : SameBytes d e) (L : List Launch) : SameBytes d { e with launches := L } :=
  ⟨h.mem, h.sectors, h.keys, h.keyBase⟩

namespace Served

theorem launches {d e : Dev} (h : Served d e) : e.launches = d.launches := by rw [h.rest]

end Served

/-- What a context reads after a write over a device that has the same bytes. -/
theorem storesAt_after {s t : State} {d e : Dev} {slot a : Nat} {bs : List Byte} (hsame : SameBytes s.dev d) (h : StoredDev d e slot a bs)
    (hm : Memory.wf s.dev.mem = true) (hw : ∀ i ∈ sectorsOf a bs.length, Written d slot i) (ht : SameBytes e t.dev) : StoresAt s t slot a bs := fun b => by
  have hm' : Memory.wf d.mem = true := by
    rw [hsame.mem]
    exact hm
  have hbyte := h.byteAt hm' hw b
  rw [hsame.byteAt] at hbyte
  exact (congrFun (ht.byteAt slot) b).trans hbyte

/-- Waves that are the same but for their monitors are in the same blocks. -/
theorem none_of_calm {d e : Dev} {n : Nat} (h : e.waves.map calm = d.waves.map calm) (hd : ∀ w ∈ d.waves, w.block ≠ n) : ∀ w ∈ e.waves, w.block ≠ n := by
  intro w hw hblock
  have hcalm : calm w ∈ d.waves.map calm := by
    rw [← h]
    exact List.mem_map_of_mem hw
  obtain ⟨v, hv, hvw⟩ := List.mem_map.mp hcalm
  have heq : (calm v).block = (calm w).block := congrArg (fun x : Wave => x.block) hvw
  exact hd v hv (heq.trans hblock)

theorem finishBlock_waves (d : Dev) (b : Block) : ∀ w ∈ (d.finishBlock b).waves, w.block ≠ b.id :=
  none_of_calm (finishBlock_accounted d b).waves fun _ hv => bne_iff_ne.mp (List.mem_filter.mp hv).2

theorem finishBlock_block? (d : Dev) (b : Block) : (d.finishBlock b).block? b.id = none :=
  List.find?_eq_none.mpr fun x hx hat => by
    rw [(finishBlock_fields d b).1] at hx
    have hne : (x.id != b.id) = true := (List.mem_filter.mp hx).2
    rw [bne_iff_ne] at hne
    exact hne (beq_iff_eq.mp hat)

/-- An item of a launch that is not the last: COUNT decrements (R38). -/
theorem decLaunch_some {d : Dev} {l : Launch} {id pa : Nat} (c : Nat) (hl : d.launch? id = some l) (hcount : 1 < l.count)
    (hpay : Payable d l.ctx l.record.comp pa 16) :
    ∃ e, StoredDev { d with launches := modIf (fun x : Launch => x.id == id) (fun x => { x with count := x.count - 1, last := max c l.last }) d.launches } e l.ctx pa
        (objBytes (l.count - 1) l.error l.cancelled 0) ∧ d.decLaunch id 1 c = e ∧
      e.launch? id = some { l with count := l.count - 1, last := max c l.last } := by
  let f (x : Launch) : Launch := { x with count := x.count - 1, last := max c l.last }
  have hset : (d.modLaunch id f).launch? id = some (f l) := launch?_modLaunch (f := f) (fun _ => rfl) hl
  obtain ⟨t, hstored, -⟩ := owe_stores (d := d.modLaunch id f) (c := max c l.last) (w := .object (l.count - 1) l.error l.cancelled)
    (hpay.launches (modIf (fun x : Launch => x.id == id) f d.launches))
  have hfill : OwedWrite.fill (.object (l.count - 1) l.error l.cancelled) t
      (OwedWrite.old (.object (l.count - 1) l.error l.cancelled) (d.modLaunch id f) l.ctx pa) = objBytes (l.count - 1) l.error l.cancelled 0 := by
    rw [OwedWrite.fill, if_neg (by omega)]
  rw [hfill] at hstored
  refine ⟨_, hstored, ?_, ?_⟩
  · rw [Dev.decLaunch, hl]
    dsimp only
    rw [if_neg (by omega)]
  · rw [Dev.launch?, (Served.owe _ _ _).launches]
    exact hset

/-- What a launch's last item leaves of the others: it is no predecessor of theirs any more. -/
def unbound (id time : Nat) (x : Launch) : Launch :=
  if x.preds.contains id then { x with preds := x.preds.filter (· != id), time := max x.time time } else x

theorem unbound_preds (id time : Nat) (x : Launch) : id ∉ (unbound id time x).preds := by
  rw [unbound]
  split
  · intro hmem
    have := (List.mem_filter.mp hmem).2
    rw [bne_self_eq_false] at this
    exact Bool.false_ne_true this
  next hnot => exact fun hmem => hnot (List.contains_iff_mem.mpr hmem)

theorem unbound_id (id time : Nat) (x : Launch) : (unbound id time x).id = x.id := by
  rw [unbound]
  split <;> rfl

/-- The launches once one of them has ended. -/
def launchesLeft (d : Dev) (id time : Nat) : List Launch := (d.launches.filter (·.id != id)).map (unbound id time)

theorem launchesLeft_gone (d : Dev) (id time : Nat) : (launchesLeft d id time).find? (·.id == id) = none :=
  List.find?_eq_none.mpr fun x hx hat => by
    obtain ⟨y, hy, rfl⟩ := List.mem_map.mp hx
    have hne : (y.id != id) = true := (List.mem_filter.mp hy).2
    rw [unbound_id] at hat
    rw [bne_iff_ne] at hne
    exact hne (beq_iff_eq.mp hat)

/-- The last item of a launch without a graph: the launch ends. -/
theorem decLaunch_last {d : Dev} {l : Launch} {id pa : Nat} (c : Nat) (hl : d.launch? id = some l) (hcount : l.count = 1)
    (hlevel : d.level? l.ctx l.record.graph = none) (hpay : Payable d l.ctx l.record.comp pa 16) :
    ∃ e time, StoredDev { d with launches := launchesLeft d id (max l.trigTime (max c l.last)) } e l.ctx pa
        (objBytes 0 l.error l.cancelled time) ∧ d.decLaunch id 1 c = e ∧ c ≤ time ∧ e.launches = launchesLeft d id (max l.trigTime (max c l.last)) := by
  let x : Dev := { d with launches := launchesLeft d id (max l.trigTime (max c l.last)) }
  obtain ⟨t, hstored, htime⟩ := owe_stores (d := x) (c := max c l.last) (w := .object 0 l.error l.cancelled) (hpay.launches _)
  refine ⟨_, t, hstored, ?_, le_trans (le_max_left _ _) htime, (Served.owe _ _ _).launches⟩
  have hlevels : x.decLevel l.ctx 3 l.record.graph (max c l.last) = (x, []) := by
    have hnone : x.level? l.ctx l.record.graph = none := hlevel
    rw [Dev.decLevel, hnone]
  have hzero : l.count - 1 = 0 := by omega
  rw [Dev.decLaunch, hl]
  dsimp only
  rw [if_pos (by omega), hzero]
  exact congrArg (fun p : Dev × List (Nat × Nat × OwedWrite) => p.1.owe l.ctx ((l.record.comp, max c l.last, .object 0 l.error l.cancelled) :: p.2)) hlevels

theorem blockEnd_steps (s : State) (b : Block) (l : Launch) (pa : Nat) (hb : s.dev.block? b.id = some b) (hlive : s.dev.liveWaves b.id = [])
    (hholds : s.dev.holdsBlock b.id = false) (hpreempt : ∀ c, s.dev.ctx? b.ctx = some c → c.preempt = none) (hlaunch : b.launch = some l.id)
    (hl : s.dev.launch? l.id = some l) (hcoll : l.coll = none) (hm : memOk s) (hat : DeviceAt s l.ctx l.record.comp pa 16) :
    (1 < l.count → ∃ t l', exec (.blockEnd b.id) s = .next t ∧ t.dev.block? b.id = none ∧ (∀ w ∈ t.dev.waves, w.block ≠ b.id) ∧
      t.dev.launch? l.id = some l' ∧ l'.count = l.count - 1 ∧ l'.record = l.record ∧
      StoresAt s t l.ctx pa (objBytes (l.count - 1) l.error l.cancelled 0)) ∧
    (l.count = 1 → s.dev.level? l.ctx l.record.graph = none →
      ∃ t time, exec (.blockEnd b.id) s = .next t ∧ t.dev.block? b.id = none ∧ (∀ w ∈ t.dev.waves, w.block ≠ b.id) ∧
        t.dev.launch? l.id = none ∧ (∀ y ∈ t.dev.launches, l.id ∉ y.preds) ∧ b.time < time ∧
        StoresAt s t l.ctx pa (objBytes 0 l.error l.cancelled time)) := by
  have hexec : exec (.blockEnd b.id) s = .next { s with dev := s.dev.finishBlock b } := by
    change execBlockEnd b.id s = _
    rw [execBlockEnd, onDev, hb]
    refine congrArg (fun d => Host.Outcome.next { s with dev := d }) ?_
    dsimp only
    rw [hlive, hholds, if_neg (by simp)]
  have hfinish := finishBlock_launch hpreempt hlaunch hl hcoll
  have hgone := finishBlock_block? s.dev b
  have hwaves := finishBlock_waves s.dev b
  let d := leaving s.dev b l.id
  have hd : d.launch? l.id = some (itemEnded b (lastTime s.dev b) l) := leaving_launch? hl
  have hpay : Payable d l.ctx l.record.comp pa 16 := leaving_payable l.id (payable_of_deviceAt hat)
  have hbytes : SameBytes s.dev d := (leaving_walks l.id).bytes
  have hlength : ∀ n t, (objBytes n l.error l.cancelled t).length = 16 := fun n t => length_objBytes n _ _ t
  refine ⟨fun hcount => ?_, fun hcount hlevel => ?_⟩
  · obtain ⟨e, hstored, hdec, he⟩ := decLaunch_some (l := itemEnded b (lastTime s.dev b) l) (lastTime s.dev b + 1) hd hcount hpay
    obtain ⟨l', hl', hcount', hrecord, -, -⟩ := releaseDeps_launch he
    have hrest : SameBytes e (e.releaseDeps l.id) := by
      rw [releaseDeps_eq he]
      split <;> exact ⟨rfl, rfl, rfl, rfl⟩
    have hend : s.dev.finishBlock b = e.releaseDeps l.id := by
      rw [hfinish, ← hdec]
    refine ⟨_, l', hexec, hgone, hwaves, ?_, hcount', hrecord, ?_⟩
    · rw [hend]
      exact hl'
    · refine storesAt_after (sameBytes_launches hbytes _) hstored hm.1 ?_ (hend ▸ hrest)
      rw [hlength]
      exact (hpay.launches _).written
  · obtain ⟨e, time, hstored, hdec, htime, hleft⟩ := decLaunch_last (l := itemEnded b (lastTime s.dev b) l) (lastTime s.dev b + 1) hd hcount hlevel hpay
    have hnone : e.launch? l.id = none := by
      rw [Dev.launch?, hleft]
      exact launchesLeft_gone _ _ _
    have hend : s.dev.finishBlock b = e := by
      rw [hfinish, hdec, Dev.releaseDeps, hnone]
    have hlast : b.time ≤ lastTime s.dev b := le_maxOf List.mem_cons_self
    refine ⟨_, time, hexec, hgone, hwaves, ?_, ?_, by omega, ?_⟩
    · rw [hend]
      exact hnone
    · rw [hend, hleft]
      intro y hy
      obtain ⟨x, -, rfl⟩ := List.mem_map.mp hy
      exact unbound_preds _ _ x
    · refine storesAt_after (sameBytes_launches hbytes _) hstored hm.1 ?_ (hend ▸ ⟨rfl, rfl, rfl, rfl⟩)
      rw [hlength]
      exact (hpay.launches _).written

/-! ## Placing a block (R17, R31, R32) -/

/-- Waves join a block: what they are, and that nothing else changes but the numbers given. -/
theorem addWaves_eq (b : Block) (gran : Nat) (pc s1 tvec : Word) (lts : Nat) (L : List Nat) (d : Dev) :
    ∃ ws, d.addWaves b gran pc s1 tvec lts L = { d with waves := d.waves ++ ws, nextId := d.nextId + L.length } ∧ ws.length = L.length ∧
      ∀ (i : Nat) (w : Wave), ws[i]? = some w → ∃ id port j, L[i]? = some j ∧ w = Wave.new id b.id j port gran pc s1 tvec lts id := by
  induction L generalizing d with
  | nil => exact ⟨[], by rw [Dev.addWaves, List.append_nil, List.length_nil, Nat.add_zero], rfl, fun i w h => absurd h (by simp)⟩
  | cons i L ih =>
    let w := Wave.new d.nextId b.id i (some (Dev.bestPort { d with nextId := d.nextId + 1 } b.core)) gran pc s1 tvec lts d.nextId
    obtain ⟨ws, heq, hlength, hnew⟩ := ih { d with nextId := d.nextId + 1, waves := d.waves ++ [w] }
    refine ⟨w :: ws, ?_, by rw [List.length_cons, hlength, List.length_cons], fun n v hv => ?_⟩
    · have hstep : d.addWaves b gran pc s1 tvec lts (i :: L) =
          Dev.addWaves { d with nextId := d.nextId + 1, waves := d.waves ++ [w] } b gran pc s1 tvec lts L := rfl
      rw [hstep, heq, List.length_cons]
      simp only [List.append_assoc, List.singleton_append, Nat.add_assoc, Nat.add_comm 1]
    · cases n with
      | zero =>
        rw [List.getElem?_cons_zero, Option.some_inj] at hv
        exact ⟨d.nextId, _, i, rfl, hv.symm⟩
      | succ n =>
        rw [List.getElem?_cons_succ] at hv
        obtain ⟨id, port, j, hj, hw⟩ := hnew n v hv
        exact ⟨id, port, j, hj, hw⟩

theorem fresh_new (b : Block) (r : LaunchRec) (hregs : 1 ≤ r.regs) (id i time order : Nat) (port : Option Nat) :
    Fresh (Wave.new id b.id i port r.regs r.code r.param r.tvec time order) b r i time := by
  refine ⟨rfl, rfl, ?_, rfl, fun x hx => List.eq_of_mem_replicate hx, rfl, rfl, rfl, rfl, rfl, rfl, fun x hx => ?_⟩
  · simp only [Wave.new, List.length_cons, List.length_replicate]
    omega
  · rw [show x = Strand.new r.code r.param from List.eq_of_mem_replicate hx]
    refine ⟨rfl, rfl, rfl, ?_, fun n => ?_⟩
    · simp only [Strand.new, List.length_set, List.length_replicate]
    · simp only [Strand.new, List.getElem?_set, List.getElem?_replicate, List.length_replicate]
      by_cases h1 : n = 1
      · subst h1
        rfl
      · rw [if_neg (Ne.symm h1), if_neg h1]

/-- A range of a space of a core reads zero. -/
def ZeroedIn (d : Dev) (core : Nat) (sp : Space) (r : Range) : Prop := ∀ a, r.base ≤ a → a < r.base + r.len → cellGet (d.locCells core sp) a = 0

theorem zeroedIn_zeroLoc (d : Dev) (core : Nat) (sp : Space) (r : Range) : ZeroedIn (d.zeroLoc core sp r) core sp r := fun a hlo hhi => by
  have hcells : (d.zeroLoc core sp r).locCells core sp = (d.locCells core sp).filter fun c => !decide (r.base ≤ c.1 ∧ c.1 < r.base + r.len) :=
    locCells_setLocCells d core sp _
  rw [hcells]
  refine cellGet_filter_out (p := fun x => !decide (r.base ≤ x ∧ x < r.base + r.len)) ?_
  rw [decide_eq_true ⟨hlo, hhi⟩]
  rfl

theorem ZeroedIn.zeroLoc {d : Dev} {core : Nat} {sp sp' : Space} {r : Range} (h : ZeroedIn d core sp r) (hne : sp ≠ sp') (r' : Range) :
    ZeroedIn (d.zeroLoc core sp' r') core sp r := fun a hlo hhi => by
  have hcells : (d.zeroLoc core sp' r').locCells core sp = d.locCells core sp := locCells_setLocCells_other d core hne _
  rw [hcells]
  exact h a hlo hhi

/-- The ranges of a block read zero once they have been assigned. -/
theorem zeroedIn_zeroRanges (d : Dev) (b : Block) (sp : Space) : ZeroedIn (d.zeroRanges b) b.core sp (b.range sp) := by
  rw [Dev.zeroRanges]
  cases sp with
  | scratch => exact (((zeroedIn_zeroLoc d _ _ _).zeroLoc (by decide) _).zeroLoc (by decide) _).zeroLoc (by decide) _
  | wbuf => exact ((zeroedIn_zeroLoc _ _ _ _).zeroLoc (by decide) _).zeroLoc (by decide) _
  | abuf => exact (zeroedIn_zeroLoc _ _ _ _).zeroLoc (by decide) _
  | acc => exact zeroedIn_zeroLoc _ _ _ _

theorem zeroLoc_fields (d : Dev) (core : Nat) (sp : Space) (r : Range) :
    (d.zeroLoc core sp r).blocks = d.blocks ∧ (d.zeroLoc core sp r).waves = d.waves ∧ (d.zeroLoc core sp r).launches = d.launches ∧
      (d.zeroLoc core sp r).mem = d.mem := ⟨rfl, rfl, rfl, rfl⟩

theorem zeroRanges_fields (d : Dev) (b : Block) :
    (d.zeroRanges b).blocks = d.blocks ∧ (d.zeroRanges b).waves = d.waves ∧ (d.zeroRanges b).launches = d.launches ∧ (d.zeroRanges b).mem = d.mem := by
  simp only [Dev.zeroRanges, zeroLoc_fields, and_self]

theorem putBlock_fields (d : Dev) (b : Block) :
    (d.putBlock b).blocks = d.blocks ++ [b] ∧ (d.putBlock b).waves = d.waves ∧ (d.putBlock b).launches = d.launches ∧ (d.putBlock b).mem = d.mem ∧
      (d.putBlock b).locmem = (d.zeroRanges b).locmem := by
  simp only [Dev.putBlock, Dev.forgetCode, Dev.dropCode, zeroRanges_fields, and_self]

theorem len_findRange (d : Dev) (core : Nat) (sp : Space) (n : Nat) : ((d.findRange core sp n).getD ⟨0, n⟩).len = n := by
  rw [Dev.findRange]
  cases freeBase sp.size (d.taken core sp) n <;> rfl

/-- The block that the next item of a launch becomes. -/
def itemBlock (d : Dev) (l : Launch) (core i : Nat) : Block :=
  Dev.withRanges { d with nextId := d.nextId + 1 }
    { Block.plain d.nextId core l.ctx with
      launch := some l.id, coord := BitVec.ofNat 64 (i % l.record.gx + i / l.record.gx % l.record.gy * 2 ^ 16 + i / (l.record.gx * l.record.gy) * 2 ^ 32)
      team := none, member := 0, engines := l.record.engines, svc := l.record.svc, depth := l.depth, resident := false } l.record.footprint

theorem itemBlock_fields (d : Dev) (l : Launch) (core i : Nat) :
    let b := itemBlock d l core i
    b.core = core ∧ b.ctx = l.ctx ∧ b.launch = some l.id ∧
      b.coord = BitVec.ofNat 64 (i % l.record.gx + i / l.record.gx % l.record.gy * 2 ^ 16 + i / (l.record.gx * l.record.gy) * 2 ^ 32) ∧
      b.scratch.len = l.record.scratch ∧ b.wbuf.len = l.record.wbuf ∧ b.abuf.len = l.record.abuf ∧ b.acc.len = l.record.acc ∧ b.ntags = l.record.tags ∧
      b.tags = [] ∧ b.depth = l.depth ∧ b.engines = l.record.engines ∧ b.svc = l.record.svc :=
  ⟨rfl, rfl, rfl, rfl, len_findRange _ _ _ _, len_findRange _ _ _ _, len_findRange _ _ _ _, len_findRange _ _ _ _, rfl, rfl, rfl, rfl, rfl⟩

theorem placeItem_eq (d : Dev) (l : Launch) (core i : Nat) :
    d.placeItem l core i none 0 =
      ((Dev.putBlock { d with nextId := d.nextId + 1 } (itemBlock d l core i)).addWaves (itemBlock d l core i) l.record.regs l.record.code l.record.param
        l.record.tvec l.time (List.range l.record.waves)).modLaunch l.id fun l => { l with next := max l.next (i + 1) } := rfl

theorem bestCandidate_one (c : Candidate) : bestCandidate [c] = some c := by
  have hfirst : ∀ f : Candidate → Nat, leastBy f [c] = some c := fun f => leastBy_head fun y hy => absurd hy List.not_mem_nil
  rw [bestCandidate, hfirst]
  dsimp only
  rw [List.filter_cons_of_pos (p := fun x : Candidate => x.cls == c.cls) (beq_self_eq_true c.cls), List.filter_nil]
  cases hdl : c.dl with
  | none =>
    rw [List.filter_cons_of_neg (p := fun x : Candidate => x.dl.isSome) (by rw [hdl]; exact Bool.false_ne_true), List.filter_nil]
    exact hfirst _
  | some n =>
    rw [List.filter_cons_of_pos (p := fun x : Candidate => x.dl.isSome) (by rw [hdl]; rfl), List.filter_nil, hfirst]
    dsimp only
    rw [List.filter_cons_of_pos (p := fun x : Candidate => x.dl == c.dl) (beq_self_eq_true c.dl), List.filter_nil]
    exact hfirst _

section
variable {s : State} {core : Nat} {l : Launch}

/-- Nothing but the one launch waits for the core. -/
theorem blockPlace_places (hopen : s.dev.coreOpen core = true) (hports : ∀ w ∈ s.dev.waves, w.live = true → w.port ≠ none) (hpending : s.dev.pending = [])
    (hlaunches : s.dev.launches = [l]) (hreleased : l.released = true) (hpreds : l.preds = []) (hnext : l.next < l.record.blocks)
    (hctx : s.dev.ctxOpen l.ctx = true) (hteam : l.record.teamsz = 0) (hfits : s.dev.fits core l.record.footprint = true) :
    exec (.blockPlace core) s = .next { s with dev := s.dev.placeItem l core l.next none 0 } := by
  have hportless : s.dev.portless core = [] := by
    rw [Dev.portless]
    split
    · refine List.filter_eq_nil_iff.mpr fun w hw h => ?_
      rw [Bool.and_eq_true, Option.isNone_iff_eq_none] at h
      exact hports w (List.mem_filter.mp hw).1 h.2 h.1
    · rfl
  have hnone : s.dev.nextPortless core = none := by
    rw [Dev.nextPortless, hportless]
    rfl
  have hresumes : s.dev.resumesAt core = [] := by
    rw [Dev.resumesAt, hpending]
    rfl
  have hcould : s.dev.launchFits core l = true := by
    rw [Dev.launchFits, hreleased, hpreds, decide_eq_true hnext, hctx, if_pos hteam, hfits]
    rfl
  have hcands : s.dev.candidates core = [⟨l.record.svc.toNat % 4, s.dev.portDeadline core l.ctx, l.id⟩] := by
    rw [Dev.candidates, hpending, hlaunches, List.filter_cons_of_pos (p := s.dev.launchFits core) hcould]
    rfl
  have hbest : bestCandidate (s.dev.candidates core) = some ⟨l.record.svc.toNat % 4, s.dev.portDeadline core l.ctx, l.id⟩ := by
    rw [hcands]
    exact bestCandidate_one _
  have hfind : s.dev.launch? l.id = some l := by
    rw [Dev.launch?, hlaunches, List.find?_cons_of_pos (p := fun x : Launch => x.id == l.id) (beq_self_eq_true l.id)]
  change execBlockPlace core s = _
  rw [execBlockPlace, onDev, hnone]
  refine congrArg (fun d => Host.Outcome.next { s with dev := d }) ?_
  dsimp only
  rw [hopen, if_neg (by simp), hresumes, if_neg (by simp), Dev.placeNew, hbest]
  dsimp only
  rw [hfind]
  dsimp only
  rw [if_pos hteam]

theorem blockPlace_item (hopen : s.dev.coreOpen core = true) (hports : ∀ w ∈ s.dev.waves, w.live = true → w.port ≠ none) (hpending : s.dev.pending = [])
    (hlaunches : s.dev.launches = [l]) (hreleased : l.released = true) (hpreds : l.preds = []) (hnext : l.next < l.record.blocks)
    (hctx : s.dev.ctxOpen l.ctx = true) (hteam : l.record.teamsz = 0) (hfits : s.dev.fits core l.record.footprint = true) (hregs : 1 ≤ l.record.regs) :
    ∃ t b ws, exec (.blockPlace core) s = .next t ∧ t.dev.blocks = s.dev.blocks ++ [b] ∧ t.dev.waves = s.dev.waves ++ ws ∧
      t.dev.launch? l.id = some { l with next := l.next + 1 } ∧ b.core = core ∧ b.ctx = l.ctx ∧ b.launch = some l.id ∧
      b.coord = BitVec.ofNat 64 (l.next % l.record.gx + l.next / l.record.gx % l.record.gy * 2 ^ 16 + l.next / (l.record.gx * l.record.gy) * 2 ^ 32) ∧
      b.scratch.len = l.record.scratch ∧ b.wbuf.len = l.record.wbuf ∧ b.abuf.len = l.record.abuf ∧ b.acc.len = l.record.acc ∧ b.ntags = l.record.tags ∧
      b.tags = [] ∧ b.depth = l.depth ∧ b.engines = l.record.engines ∧ b.svc = l.record.svc ∧ ws.length = l.record.waves ∧
      (∀ i w, ws[i]? = some w → Fresh w b l.record i l.time) ∧ t.dev.mem = s.dev.mem ∧
      ∀ sp a, (b.range sp).base ≤ a → a < (b.range sp).base + (b.range sp).len → cellGet (t.dev.locCells core sp) a = 0 := by
  have hexec := blockPlace_places hopen hports hpending hlaunches hreleased hpreds hnext hctx hteam hfits
  rw [placeItem_eq] at hexec
  generalize hb : itemBlock s.dev l core l.next = b at hexec
  obtain ⟨hblocks, hwaves, hlaunch, hmem, hloc⟩ := putBlock_fields { s.dev with nextId := s.dev.nextId + 1 } b
  obtain ⟨ws, hadd, hlength, hnew⟩ := addWaves_eq b l.record.regs l.record.code l.record.param l.record.tvec l.time (List.range l.record.waves)
    (Dev.putBlock { s.dev with nextId := s.dev.nextId + 1 } b)
  rw [hadd] at hexec
  have hfind : s.dev.launch? l.id = some l := by
    rw [Dev.launch?, hlaunches, List.find?_cons_of_pos (p := fun x : Launch => x.id == l.id) (beq_self_eq_true l.id)]
  have hnow : Dev.launch? { Dev.putBlock { s.dev with nextId := s.dev.nextId + 1 } b with
      waves := (Dev.putBlock { s.dev with nextId := s.dev.nextId + 1 } b).waves ++ ws
      nextId := (Dev.putBlock { s.dev with nextId := s.dev.nextId + 1 } b).nextId + (List.range l.record.waves).length } l.id = some l := by
    change (Dev.putBlock { s.dev with nextId := s.dev.nextId + 1 } b).launches.find? (fun x : Launch => x.id == l.id) = some l
    rw [hlaunch]
    exact hfind
  have hplaced := launch?_modLaunch (f := fun x => { x with next := max x.next (l.next + 1) }) (fun _ => rfl) hnow
  rw [Nat.max_eq_right (Nat.le_succ l.next)] at hplaced
  obtain ⟨hcore, hctx, hof, hcoord, hscratch, hwbuf, habuf, hacc, htags, hempty, hdepth, hengines, hsvc⟩ := hb ▸ itemBlock_fields s.dev l core l.next
  refine ⟨_, b, ws, hexec, hblocks, congrArg (· ++ ws) hwaves, hplaced, hcore, hctx, hof, hcoord, hscratch, hwbuf, habuf, hacc, htags, hempty, hdepth,
    hengines, hsvc, ?_, ?_, hmem, ?_⟩
  · rw [hlength, List.length_range]
  · intro i w hw
    obtain ⟨id, port, j, hj, rfl⟩ := hnew i w hw
    have hij : i = j := by
      obtain ⟨_, hij⟩ := List.getElem?_eq_some_iff.mp hj
      rw [← hij, List.getElem_range]
    rw [← hij]
    exact fresh_new b l.record hregs id i l.time id port
  · intro sp a hlo hhi
    have hzero := zeroedIn_zeroRanges { s.dev with nextId := s.dev.nextId + 1 } b sp a hlo hhi
    rw [hcore, Dev.locCells, ← hloc] at hzero
    exact hzero

end

/-- Settles O40, step by step: the block placed, the launch let go, the item that ends, the trigger event, the forced exit, the
handler entered, the wait that is told. -/
theorem workSteps : Obligations.WorkSteps := by
  unfold Obligations.WorkSteps
  refine ⟨?_, launchSteps, blockEnd_steps, blockTrigger, cancelDeadline_steps, handlerEntry_enters, watchdog_steps⟩
  intro s core l hopen hports hpending hlaunches hreleased hpreds hnext hctx hteam hfits hregs
  exact blockPlace_item hopen hports hpending hlaunches hreleased hpreds hnext hctx hteam hfits hregs


end Sys2Proof.Proofs
end

section
/-!
PROOFS. Continuations: what reading and writing objects leaves, slots that move, suspensions sealed, forced saves, placements, clones (07, 11: R236, R238 to R240, R242, R314, R315): O42.
-/

open Sys2Proof Sys2Proof.Machine Sys2Proof.Claims

-- The whole text is compiled in one process, which can hold few threads: these proofs are elaborated in order.
set_option Elab.async false

namespace Sys2Proof.Proofs

/-! ## Jobs that writes leave (R227) -/

/-- Jobs join a list, each that of a collective. -/
def Posts (d e : Dev) : Prop := ∃ L, e.jobs = d.jobs ++ L ∧ ∀ j ∈ L, ∃ c, j.kind = .coll c

namespace Posts

theorem of_eq {d e : Dev} (h : e.jobs = d.jobs) : Posts d e := ⟨[], by rw [h, List.append_nil], fun _ hj => absurd hj List.not_mem_nil⟩

theorem refl (d : Dev) : Posts d d := of_eq rfl

theorem trans {a b c : Dev} (h : Posts a b) (g : Posts b c) : Posts a c := by
  obtain ⟨l, hl, hkind⟩ := h
  obtain ⟨m, hm, hkind'⟩ := g
  refine ⟨l ++ m, by rw [hm, hl, List.append_assoc], fun j hj => ?_⟩
  rcases List.mem_append.mp hj with hj | hj
  · exact hkind j hj
  · exact hkind' j hj

theorem foldl {α : Type} {f : Dev → α → Dev} (hf : ∀ d a, Posts d (f d a)) (l : List α) (d : Dev) : Posts d (l.foldl f d) := by
  induction l generalizing d with
  | nil => exact refl d
  | cons a l ih => exact (hf d a).trans (ih _)

theorem postColl (d : Dev) (ctx q : Nat) (c : Desc) (t w b : Nat) (l : Option Nat) : Posts d (d.postColl ctx q c t w b l) := by
  rw [Dev.postColl]
  split
  · exact refl d
  · exact ⟨_, rfl, fun j hj => ⟨d.nextId, congrArg Job.kind (List.mem_singleton.mp hj)⟩⟩

theorem setEvent (d : Dev) (n b : Nat) : Posts d (d.setEvent n b) := by
  obtain ⟨out, h⟩ := setEvent_eq d n b
  rw [h]
  exact of_eq rfl

theorem logWrite (d : Dev) (ctx pa : Nat) : Posts d (d.logWrite ctx pa) := by
  refine foldl (fun d f => ?_) d.fns d
  split
  · exact refl d
  · dsimp only
    split
    · split
      · exact trans (b := d.modFn f.n _) (of_eq rfl) (setEvent _ _ _)
      · exact of_eq rfl
    · exact refl d

theorem fireTriggers (d : Dev) (pa n t : Nat) : Posts d (d.fireTriggers pa n t) := by
  simp only [Dev.fireTriggers]
  refine trans ?_ (foldl (f := fun d (x : Trigger) => d.postColl x.ctx x.desc.queue x.desc (max x.clock t) 0 0 none)
    (fun d x => postColl d _ _ _ _ _ _ _) _ _)
  exact of_eq rfl

theorem afterWrite (d : Dev) (ctx : Nat) (core : Option Nat) (device : Bool) (pa n t : Nat) : Posts d (d.afterWrite ctx core device pa n t) := by
  have hl1 (e : Dev) : Posts e (match core with | some c => e.updateL1 c ctx pa t | none => e) := by
    cases core
    · exact refl e
    · exact of_eq rfl
  have hbox (e : Dev) : Posts e (if device then e.mailboxWrite pa n else e) := by
    split
    · exact of_eq (Armed.mailboxWrite e pa n).jobs
    · exact refl e
  rw [Dev.afterWrite.eq_def]
  refine trans (b := d.wakeMonitors pa t) (of_eq rfl) (.trans ?_ (fireTriggers _ pa n t))
  exact (hl1 _).trans ((logWrite _ ctx pa).trans (hbox _))

theorem putGlob {d e : Dev} {slot a : Nat} {bs : List Byte} (h : d.putGlob slot a bs = some e) : Posts d e := by
  rw [Dev.putGlob] at h
  split at h
  · cases h
    exact of_eq rfl
  · exact absurd h (by simp)

theorem of_loaded {d e : Dev} (h : LoadedDev d e) : Posts d e := by
  rw [h]
  exact of_eq rfl

theorem homeWrite (d : Dev) (ctx : Nat) (core : Option Nat) (device : Bool) (loc : Loc) (c : Nat) (f : Nat → List Byte) :
    Posts d (d.homeWrite ctx core device loc c f).1 := by
  cases loc with
  | glob pa =>
    have htouch : Posts d (d.touchLine ctx pa ctx) := of_loaded (.of_cachedDev (.touchLine d ctx pa ctx))
    simp only [Dev.homeWrite]
    split
    next => exact htouch
    next e hput => exact (htouch.trans (putGlob hput)).trans (trans (b := e.setLine pa _) (of_eq rfl) (afterWrite _ _ _ _ _ _ _))
  | loc core sp a => exact of_eq rfl
  | remote pkg pa => exact refl d
  | host a => exact refl d

end Posts

/-! ## What reading and writing for a unit leaves (R201, R272) -/

/-- A device is another but for what its own reads and writes of memory bring about: caches, requests and their replies, and what
follows a write. -/
structure Reached (d e : Dev) : Prop where
  rest : e = { d with
    waves := e.waves, watches := e.watches, l1 := e.l1, fns := e.fns, out := e.out, nextId := e.nextId, queues := e.queues
    colls := e.colls, jobs := e.jobs, triggers := e.triggers, llc := e.llc, mt := e.mt, xfers := e.xfers, tlb := e.tlb
    loclines := e.loclines, free := e.free, mem := e.mem, sectors := e.sectors, locmem := e.locmem, poison := e.poison
    owed := e.owed, remotes := e.remotes, inbox := e.inbox }
  waves : e.waves.map calm = d.waves.map calm
  jobs : Posts d e

namespace Reached

theorem refl (d : Dev) : Reached d d := ⟨rfl, rfl, .refl d⟩

theorem trans {d e f : Dev} (h : Reached d e) (g : Reached e f) : Reached d f := by
  obtain ⟨h, hw, hj⟩ := h
  obtain ⟨g, gw, gj⟩ := g
  refine ⟨?_, gw.trans hw, hj.trans gj⟩
  rw [g, h]

theorem of_served {d e : Dev} (h : Served d e) (hj : Posts d e) : Reached d e := ⟨by rw [h.rest], h.waves, hj⟩

theorem of_loaded {d e : Dev} (h : LoadedDev d e) : Reached d e :=
  ⟨by rw [h], by rw [h], .of_loaded h⟩

theorem of_inbox {d e : Dev} (h : e = { d with inbox := e.inbox, remotes := e.remotes, nextId := e.nextId }) : Reached d e :=
  ⟨by rw [h], by rw [h], .of_eq (by rw [h])⟩

theorem homeWrite (d : Dev) (ctx : Nat) (core : Option Nat) (device : Bool) (loc : Loc) (c : Nat) (f : Nat → List Byte) :
    Reached d (d.homeWrite ctx core device loc c f).1 := of_served (.homeWrite d ctx core device loc c f) (.homeWrite d ctx core device loc c f)

theorem homeLoad (d : Dev) (ctx : Nat) (loc : Loc) (n c l : Nat) : Reached d (d.homeLoad ctx loc n c l).1 := by
  cases loc with
  | glob pa => exact of_loaded (loaded_homeLoad d ctx pa n c l)
  | loc core sp a => exact of_served (.of_aside (.setLoc d core sp a _ _)) (.of_eq rfl)
  | remote pkg pa => exact refl d
  | host a => exact refl d

theorem loadOnce (d : Dev) (ctx : Nat) (loc : Loc) (n c l : Nat) : Reached d (d.loadOnce ctx loc n c l).1 := by
  cases loc with
  | glob pa =>
    simp only [Dev.loadOnce]
    split
    · exact homeLoad d _ _ _ _ _
    · exact ((homeLoad d _ _ _ _ _).trans (homeLoad _ _ _ _ _ _)).trans (homeLoad _ _ _ _ _ _)
  | loc core sp a => exact homeLoad d _ _ _ _ _
  | remote pkg pa => exact homeLoad d _ _ _ _ _
  | host a => exact homeLoad d _ _ _ _ _

theorem lookedAll (d : Dev) (core : Nat) (x : Ctx) (vas : List Nat) : Reached d (d.lookedAll core x vas) :=
  of_loaded (.of_cachedDev (.lookedAll d core x vas))

theorem looked (d : Dev) (core : Nat) (x : Ctx) (va : Nat) : Reached d (d.looked core x va) := of_loaded (.of_cachedDev (.looked d core x va))

theorem dropReplies (d : Dev) (owner : Nat) : Reached d (d.dropReplies owner) := of_inbox rfl

theorem askFor (d : Dev) (owner off ctx pkg pa clock : Nat) (ask : RemoteAsk) : Reached d (d.askFor owner off ctx pkg pa clock ask) := by
  rw [Dev.askFor]
  split
  · exact refl d
  · exact of_inbox rfl

theorem askSpans (d : Dev) (core : Nat) (x : Ctx) (owner clock base : Nat) (need : Need) (ask : Nat → Span → RemoteAsk) (l : List Span) :
    Reached d (d.askSpans core x owner clock base need ask l).1 := by
  rw [Dev.askSpans]
  generalize true = b
  induction l generalizing d b with
  | nil => exact refl d
  | cons sp l ih =>
    rw [List.foldl_cons]
    split
    · exact (askFor d _ _ _ _ _ _ _).trans (ih _ _)
    · exact ih d b

theorem readSpans (core : Nat) (x : Ctx) (owner base lease : Nat) (l : List Span) (d : Dev) (t : Nat) :
    Reached d (d.readSpans core x owner base lease t l).1 := by
  induction l generalizing d t with
  | nil => exact refl d
  | cons sp l ih =>
    have hgo : ∀ (e : Dev) (u : Nat) (bs : List Byte), Reached e (match e.readSpans core x owner base lease u l with
        | (d, .ok t bs') => (d, .ok t (bs ++ bs'))
        | r => r : Dev × Reach).1 := fun e u bs => by
      have hrest := ih e u
      revert hrest
      generalize e.readSpans core x owner base lease u l = q
      obtain ⟨y, r⟩ := q
      intro hrest
      cases r <;> exact hrest
    rw [Dev.readSpans]
    dsimp only
    split
    · exact refl d
    · split
      · exact hgo d _ _
      · exact refl d
      · exact refl d
    next loc _ _ =>
      have hload := loadOnce d x.n loc sp.n t lease
      split
      next e ti bs he =>
        rw [he] at hload
        exact hload.trans (hgo e _ bs)
      next e ti he =>
        rw [he] at hload
        exact hload

theorem reachList (d : Dev) (core : Nat) (x : Ctx) (owner base clock lease : Nat) (l : List Span) :
    Reached d (d.reachList core x owner base clock lease l).1 := by
  have hask := askSpans d core x owner clock base needR (fun _ sp => .read sp.n) l
  rw [Dev.reachList]
  generalize d.askSpans core x owner clock base needR (fun _ sp => .read sp.n) l = q at hask ⊢
  obtain ⟨e, all⟩ := q
  refine hask.trans (trans ?_ (lookedAll _ core x _))
  cases all
  · exact refl e
  · exact readSpans core x owner base lease l e clock

theorem reachFrom (d : Dev) (core : Nat) (x : Ctx) (owner base unit va n clock lease : Nat) :
    Reached d (d.reachFrom core x owner base unit va n clock lease).1 := reachList d core x owner base clock lease _

theorem writeSpans (core : Nat) (x : Ctx) (owner : Nat) (bs : List Byte) (l : List Span) (d : Dev) (t : Nat) :
    Reached d (d.writeSpans core x owner bs t l).1 := by
  induction l generalizing d t with
  | nil => exact refl d
  | cons sp l ih =>
    rw [Dev.writeSpans]
    split
    · exact refl d
    · split
      · exact ih d _
      · exact refl d
      · exact refl d
    next loc _ _ =>
      have hwrite := homeWrite d x.n none true loc t fun _ => (bs.drop sp.off).take sp.n
      split
      next e ti he =>
        rw [he] at hwrite
        exact hwrite.trans (ih e _)
      next e ti he =>
        rw [he] at hwrite
        exact hwrite

theorem reachWrite (d : Dev) (core : Nat) (x : Ctx) (owner va clock : Nat) (bs : List Byte) :
    Reached d (d.reachWrite core x owner va clock bs).1 := by
  have hask := askSpans d core x owner clock farWrite needW (fun pa sp => farStore pa ((bs.drop sp.off).take sp.n)) (spans 32 va bs.length)
  rw [Dev.reachWrite]
  dsimp only
  generalize d.askSpans core x owner clock farWrite needW (fun pa sp => farStore pa ((bs.drop sp.off).take sp.n)) (spans 32 va bs.length) = q at hask ⊢
  obtain ⟨e, all⟩ := q
  refine hask.trans (trans ?_ (lookedAll _ core x _))
  cases all
  · exact refl e
  · exact (writeSpans core x owner bs _ e clock).trans (dropReplies _ owner)

section
variable {d e : Dev} (h : Reached d e)
include h

theorem blocks : e.blocks = d.blocks := by rw [h.rest]
theorem ctxs : e.ctxs = d.ctxs := by rw [h.rest]
theorem launches : e.launches = d.launches := by rw [h.rest]

theorem ids : e.waves.map (·.id) = d.waves.map (·.id) := by
  have hmap := congrArg (List.map fun w : Wave => w.id) h.waves
  rwa [List.map_map, List.map_map] at hmap

end

end Reached

/-! ## Slots that move (R242, R322) -/

theorem peekLoc_sound {s : State} {ctx pa n : Nat} (h : Claims.Sound s ctx pa n) : s.dev.peekLoc ctx (.glob pa) n = some (s.dev.readGlob ctx pa n).1 := by
  have hread : (s.dev.readGlob ctx pa n).2 = true := List.all_eq_true.mpr fun i hi => (h i hi).2
  simp only [Dev.peekLoc, hread, if_true]

/-- A slot in one of the states that a move asks for takes the new one, in one write. -/
theorem moveSlot_moves {s : State} {x : Ctx} {ident pa st : Nat} (h : SlotAt s x ident pa st) (hst : st < 4) {e : Dev} (he : SameWalks s.dev e)
    {from_ : List Nat} (hfrom : from_.contains st = true) (dest c : Nat) :
    ∃ z t, e.moveSlot x ident from_ dest c = (z, .moved t) ∧ StoredDev e z x.n pa (slotBytes ident dest) ∧ Reached e z := by
  obtain ⟨hident, hplace, hsound, hword⟩ := h
  have hpeek : e.peekLoc x.n (.glob pa) 8 = some (s.dev.readGlob x.n pa 8).1 := (peekLoc_walks he x.n pa 8).trans (peekLoc_sound hsound)
  have hmatch : (from_.contains (leNat (s.dev.readGlob x.n pa 8).1 % 4) && leNat (s.dev.readGlob x.n pa 8).1 / 2 ^ 20 == identGen ident) = true := by
    have hmod : leNat (s.dev.readGlob x.n pa 8).1 % 4 = st := by
      rw [hword]
      omega
    have hgen : leNat (s.dev.readGlob x.n pa 8).1 / 2 ^ 20 = identGen ident := by
      rw [hword, identGen]
      omega
    rw [hmod, hfrom, hgen, beq_self_eq_true]
    rfl
  have hwritten : ∀ i ∈ sectorsOf pa 8, Written e x.n i := fun i hi => (he.bytes.written x.n i).mpr (hsound i hi)
  obtain ⟨y, z, t, hwrite, hy, hz⟩ := homeWrite_written (f := fun _ => leBytes 8 (slotWord (identGen ident) dest)) (fun _ => leBytes_length _ _) hwritten
    none true c
  have hreached := Reached.homeWrite e x.n none true (.glob pa) c fun _ => leBytes 8 (slotWord (identGen ident) dest)
  rw [hwrite] at hreached
  refine ⟨z.looked 0 x (slotAddr x ident), t, ?_, ⟨y, hy, hz.trans (.of_cachedDev (.looked z 0 x _))⟩, hreached.trans (.looked z 0 x _)⟩
  rw [Dev.moveSlot, slotPlace_walks he, identSlot, hplace]
  dsimp only
  rw [hpeek]
  dsimp only
  rw [if_pos hmatch, hwrite]
  rfl

theorem slotCause_none {s : State} {x : Ctx} {ident pa st : Nat} (h : SlotAt s x ident pa st) : s.dev.slotCause x ident = none := by
  obtain ⟨-, hplace, hsound, -⟩ := h
  rw [Dev.slotCause, identSlot, hplace]
  dsimp only
  rw [peekLoc_sound hsound, Option.isNone_some, if_neg Bool.false_ne_true]

/-! ## A suspended block leaves its core (R236) -/

theorem releaseDeps_counts (d : Dev) (id : Nat) : (d.releaseDeps id).launches.map (·.count) = d.launches.map (·.count) ∧
    d.releaseDeps id = { d with launches := (d.releaseDeps id).launches } := by
  cases hl : d.launch? id with
  | none =>
    have hsame : d.releaseDeps id = d := by rw [Dev.releaseDeps, hl]
    rw [hsame]
    exact ⟨rfl, rfl⟩
  | some l =>
    rw [releaseDeps_eq hl]
    split
    · exact ⟨rfl, rfl⟩
    · refine ⟨?_, rfl⟩
      rw [List.map_map]
      exact List.map_congr_left fun x _ => (freed_keeps id l.trigTime x).2.1

/-- A block's trigger event, as its suspension finds it (R145). -/
def trigNoted (d : Dev) (b : Block) : Dev :=
  if (d.blockWaves b.id).all (fun w => w.strands.all fun t => t.triggered || t.exited) && !b.trigDone then
    match b.launch with
    | some l => (d.modLaunch l fun l => { l with trigs := l.trigs + 1, trigTime := max l.trigTime b.trigTime }).releaseDeps l
    | none => d
  else d

theorem trigNoted_launches (d : Dev) (b : Block) : (trigNoted d b).launches.map (·.count) = d.launches.map (·.count) ∧
    trigNoted d b = { d with launches := (trigNoted d b).launches } := by
  rw [trigNoted]
  split
  · split
    next l _ =>
      obtain ⟨hcounts, hrest⟩ := releaseDeps_counts (d.modLaunch l fun l => { l with trigs := l.trigs + 1, trigTime := max l.trigTime b.trigTime }) l
      refine ⟨hcounts.trans ?_, hrest⟩
      simp only [Dev.modLaunch, modIf, List.map_map]
      refine List.map_congr_left fun x _ => ?_
      dsimp only [Function.comp]
      split <;> rfl
    · exact ⟨rfl, rfl⟩
  · exact ⟨rfl, rfl⟩

/-- The first context of a number, where those that a condition names change and keep their number. -/
theorem ctx?_changed {d : Dev} {p : Ctx → Bool} {f : Ctx → Ctx} (hf : ∀ c, (f c).n = c.n) (n : Nat) :
    Dev.ctx? { d with ctxs := modIf p f d.ctxs } n = (d.ctx? n).map fun c => if p c then f c else c := by
  have hcomp : ((fun x : Ctx => x.n == n) ∘ fun x => if p x then f x else x) = fun x => x.n == n := by
    funext x
    dsimp only [Function.comp]
    split
    · rw [hf]
    · rfl
  rw [Dev.ctx?, modIf, List.find?_map, hcomp]
  rfl

/-- The PF has been told of a context's request. -/
def tellsPF (c : Ctx) : Ctx := { c with preempt := c.preempt.map fun q => { q with told := true } }

/-- What telling the PF leaves (R314). -/
structure Notified (d e : Dev) : Prop where
  rest : e = { d with fns := e.fns, out := e.out, ctxs := e.ctxs }
  preempt : ∀ n p, (d.ctx? n).bind (·.preempt) = some p → ∃ told, (e.ctx? n).bind (·.preempt) = some { p with told := told }

theorem tellPreempt_notified (d : Dev) (ctx : Nat) : Notified d (d.tellPreempt ctx) := by
  have hrefl : Notified d d := ⟨rfl, fun n p hp => ⟨p.told, hp⟩⟩
  rw [Dev.tellPreempt]
  split
  · exact hrefl
  · dsimp only
    split
    · exact hrefl
    next p _ _ =>
      generalize (d.ctxs.filter fun c => c.preempt.any fun q => q.target == p.target) = mates
      obtain ⟨out, hout⟩ := setEvent_eq { d with ctxs := modIf (fun c => mates.any (·.n == c.n)) tellsPF d.ctxs } 0 2
      change Notified d (Dev.setEvent { d with ctxs := modIf (fun c => mates.any (·.n == c.n)) tellsPF d.ctxs } 0 2)
      rw [hout]
      refine ⟨rfl, fun n q hq => ?_⟩
      have hctx := ctx?_changed (d := d) (p := fun c => mates.any (·.n == c.n)) (f := tellsPF) (fun _ => rfl) n
      obtain ⟨c, hc, hcp⟩ := Option.bind_eq_some_iff.mp hq
      rw [hc, Option.map_some] at hctx
      change ∃ told, (Dev.ctx? { d with ctxs := modIf (fun c => mates.any (·.n == c.n)) tellsPF d.ctxs } n).bind (·.preempt) = some { q with told := told }
      rw [hctx, Option.bind_some]
      split
      · refine ⟨true, ?_⟩
        change c.preempt.map _ = _
        rw [hcp]
        rfl
      · exact ⟨q.told, hcp⟩

theorem leaveSuspended_eq (d : Dev) (b : Block) : ∃ cores,
    d.leaveSuspended b = (Dev.removeBlock { trigNoted d b with cores := cores } b).tellPreempt b.ctx := ⟨_, rfl⟩

/-- A suspended block is gone, its launch counts as before, and the request that has taken it is as it was. -/
theorem leaveSuspended_leaves (d : Dev) (b : Block) :
    (d.leaveSuspended b).block? b.id = none ∧ (∀ w ∈ (d.leaveSuspended b).waves, w.block ≠ b.id) ∧
      (d.leaveSuspended b).launches.map (·.count) = d.launches.map (·.count) ∧ SameBytes d (d.leaveSuspended b) ∧
      ∀ n p, (d.ctx? n).bind (·.preempt) = some p → ∃ told, ((d.leaveSuspended b).ctx? n).bind (·.preempt) = some { p with told := told } := by
  obtain ⟨cores, heq⟩ := leaveSuspended_eq d b
  obtain ⟨hcounts, hnoted⟩ := trigNoted_launches d b
  have htold := tellPreempt_notified (Dev.removeBlock { trigNoted d b with cores := cores } b) b.ctx
  rw [heq]
  refine ⟨?_, ?_, ?_, ?_, ?_⟩
  · refine List.find?_eq_none.mpr fun x hx hat => ?_
    rw [htold.rest] at hx
    have hne : (x.id != b.id) = true := (List.mem_filter.mp hx).2
    rw [bne_iff_ne] at hne
    exact hne (beq_iff_eq.mp hat)
  · intro w hw
    rw [htold.rest] at hw
    have hne : (w.block != b.id) = true := (List.mem_filter.mp hw).2
    exact bne_iff_ne.mp hne
  · rw [htold.rest]
    exact hcounts
  · rw [htold.rest]
    rw [hnoted]
    exact ⟨rfl, rfl, rfl, rfl⟩
  · intro n p hp
    refine htold.preempt n p ?_
    rw [hnoted]
    exact hp

/-! ## Objects sealed (R236, R314) -/

/-- Launches and contexts are as before. -/
structure SameWork (d e : Dev) : Prop where
  launches : e.launches = d.launches
  ctxs : e.ctxs = d.ctxs

namespace SameWork

theorem refl (d : Dev) : SameWork d d := ⟨rfl, rfl⟩

theorem trans {a b c : Dev} (h : SameWork a b) (g : SameWork b c) : SameWork a c := ⟨g.launches.trans h.launches, g.ctxs.trans h.ctxs⟩

theorem of_reached {d e : Dev} (h : Reached d e) : SameWork d e := ⟨h.launches, h.ctxs⟩

theorem modBlock (d : Dev) (id : Nat) (f : Block → Block) : SameWork d (d.modBlock id f) := ⟨rfl, rfl⟩

theorem reachWrite {d e : Dev} {core : Nat} {x : Ctx} {owner va clock : Nat} {bs : List Byte} {r : Reach}
    (h : d.reachWrite core x owner va clock bs = (e, r)) : SameWork d e := by
  have hreached := Reached.reachWrite d core x owner va clock bs
  rw [h] at hreached
  exact of_reached hreached

theorem writeObject (d : Dev) (x : Ctx) (b : Block) (z : Sealing) : SameWork d (d.writeObject x b z).1 := by
  simp only [Dev.writeObject]
  split
  · exact refl d
  · split
    · split
      next heq => exact reachWrite heq
      next heq => exact reachWrite heq
      next heq => exact (reachWrite heq).trans (modBlock _ _ _)
    · split
      next heq => exact reachWrite heq
      next heq => exact reachWrite heq
      next heq =>
        split
        · exact reachWrite heq
        · exact (reachWrite heq).trans (modBlock _ _ _)

/-- One pass over the one object of a block. -/
theorem writeObjects_one {d e : Dev} {x : Ctx} {b : Block} {z : Sealing} {r : SealEnd} (hb : d.block? b.id = some b) (hz : b.susp = some (.sealing z))
    (h : d.writeObjects x [b] = (e, r)) : SameWork d e := by
  have hseal : b.sealing? = some z := by rw [Block.sealing?, hz]
  have hobject := writeObject d x b z
  rw [Dev.writeObjects, List.foldl_cons, List.foldl_nil, hb] at h
  dsimp only at h
  rw [hseal] at h
  dsimp only at h
  generalize d.writeObject x b z = q at h hobject
  obtain ⟨y, u⟩ := q
  have hfst : e = y := by
    cases u <;> exact (congrArg Prod.fst h).symm
  rw [hfst]
  exact hobject

end SameWork

section
variable {m : State} {x : Ctx} {b : Block} {z : Sealing} {pa : Nat}

theorem sealOne_moves (h : SlotAt m x z.ident pa slotResuming) :
    ∃ e, StoredDev m.dev e x.n pa (slotBytes z.ident slotSuspended) ∧ Reached m.dev e ∧ ∃ regs, m.dev.sealOne x b z = { e with suspRegs := regs } := by
  obtain ⟨e, t, hmove, hstored, hreached⟩ := moveSlot_moves h (by decide) (SameWalks.refl m.dev) (from_ := [slotResuming]) (by decide) slotSuspended (z.slts.getD 0)
  refine ⟨e, hstored, hreached, ?_⟩
  rw [Dev.sealOne, hmove]
  dsimp only
  split
  · exact ⟨e.suspRegs, rfl⟩
  · exact ⟨_, rfl⟩

/-- The one block of a group leaves its core once its slot has become SUSPENDED. -/
theorem sealAll_one (hb : m.dev.block? b.id = some b) (hz : b.susp = some (.sealing z)) (h : SlotAt m x z.ident pa slotResuming) :
    ∃ e regs, StoredDev m.dev e x.n pa (slotBytes z.ident slotSuspended) ∧ Reached m.dev e ∧
      m.dev.sealAll x [b] = (Dev.leaveSuspended { e with suspRegs := regs } b, none) := by
  obtain ⟨e, hstored, hreached, regs, hseal⟩ := sealOne_moves (b := b) h
  refine ⟨e, regs, hstored, hreached, ?_⟩
  have hone : ([b].filterMap fun b => (m.dev.block? b.id).bind fun b => b.sealing?.map fun z => (b, z)) = [(b, z)] := by
    have hsealing : b.sealing? = some z := by rw [Block.sealing?, hz]
    rw [List.filterMap_cons_some (b := (b, z))]
    · rfl
    · rw [hb, Option.bind_some, hsealing]
      rfl
  have hstill : Dev.block? { e with suspRegs := regs } b.id = some b := by
    change e.blocks.find? (fun x : Block => x.id == b.id) = some b
    rw [hreached.blocks]
    exact hb
  rw [Dev.sealAll]
  dsimp only
  rw [hone, List.findSome?_cons, slotCause_none h]
  dsimp only [Option.map_none, List.findSome?_nil]
  simp only [List.foldl_cons, List.foldl_nil, hseal, hstill]

/-- The object of a block without a team, written for the last time, is sealed. -/
theorem sealStep_one {d : Dev} (hwrite : d.writeObjects x [b] = (m.dev, .done)) (hb : m.dev.block? b.id = some b) (hz : b.susp = some (.sealing z))
    (h : SlotAt m x z.ident pa slotResuming) (fail : Dev → Nat → Nat → Dev) (sealed : Dev → Dev) :
    ∃ e regs, StoredDev m.dev e x.n pa (slotBytes z.ident slotSuspended) ∧ Reached m.dev e ∧
      d.sealStep x [b] fail sealed = sealed (Dev.leaveSuspended { e with suspRegs := regs } b) := by
  obtain ⟨e, regs, hstored, hreached, hall⟩ := sealAll_one hb hz h
  refine ⟨e, regs, hstored, hreached, ?_⟩
  rw [Dev.sealStep]
  dsimp only
  rw [hwrite]
  dsimp only
  rw [hall]

end

theorem suspGroup_alone {d : Dev} {b : Block} (h : b.team = none) : d.suspGroup b = [b] := by
  rw [Dev.suspGroup, h]
  rfl

theorem suspSeal_seals (s : State) (b : Block) (x : Ctx) (z : Sealing) (d : Dev) (pa : Nat) (hobject : ObjectWritten s b x z d) (hforced : z.forced = false)
    (hm : memOk { s with dev := d }) (hb : d.block? b.id = some b) (hslot : SlotAt { s with dev := d } x z.ident pa slotResuming) :
    ∃ t, exec (.suspSeal b.id) s = .next t ∧ t.dev.block? b.id = none ∧ (∀ w ∈ t.dev.waves, w.block ≠ b.id) ∧
      StoresAt { s with dev := d } t x.n pa (slotBytes z.ident slotSuspended) ∧ t.dev.launches.map (·.count) = s.dev.launches.map (·.count) := by
  obtain ⟨hbefore, hteam, hz, hx, hruns, hwrite⟩ := hobject
  obtain ⟨e, regs, hstored, hreached, hseal⟩ := sealStep_one (m := { s with dev := d }) hwrite hb hz hslot (fun d e a => d.failOrForce x [b] e a) id
  obtain ⟨hgone, hwaves, hcounts, hbytes, -⟩ := leaveSuspended_leaves { e with suspRegs := regs } b
  have hwork := SameWork.writeObjects_one hbefore hz hwrite
  have hexec : exec (.suspSeal b.id) s = .next { s with dev := Dev.leaveSuspended { e with suspRegs := regs } b } := by
    change execSuspSeal b.id s = _
    rw [execSuspSeal, onDev, hbefore]
    refine congrArg (fun d => Host.Outcome.next { s with dev := d }) ?_
    dsimp only
    rw [hx]
    dsimp only
    rw [hruns, if_neg Bool.false_ne_true, hz]
    dsimp only
    rw [hforced, if_neg Bool.false_ne_true, suspGroup_alone hteam]
    exact hseal
  refine ⟨_, hexec, hgone, hwaves, ?_, ?_⟩
  · refine storesAt_stored (s := { s with dev := d }) hstored hm.1 ?_ (sameBytes_trans (⟨rfl, rfl, rfl, rfl⟩ : SameBytes e { e with suspRegs := regs }) hbytes)
    rw [slotBytes, leBytes_length]
    exact hslot.2.2.1
  · refine hcounts.trans ?_
    change e.launches.map _ = _
    rw [hreached.launches]
    change d.launches.map _ = _
    rw [hwork.launches]

/-- A forced save of a block is counted in its save area. -/
def savedOne (size : Nat) (c : Ctx) : Ctx := { c with preempt := c.preempt.map fun p => { p with count := p.count + 1, next := p.next + size } }

theorem writeArea_served (d : Dev) (ctx : Nat) : Served d (d.writeArea ctx) := by
  rw [Dev.writeArea]
  split
  · exact .refl d
  · exact .owe d ctx _

theorem forcedSaveSeal_seals (s : State) (b : Block) (x : Ctx) (p : Preempt) (z : Sealing) (d : Dev) (pa : Nat) (hobject : ObjectWritten s b x z d)
    (hforced : z.forced = true) (hp : x.preempt = some p) (hb : d.block? b.id = some b) (hslot : SlotAt { s with dev := d } x z.ident pa slotResuming) :
    ∃ t p', exec (.forcedSaveSeal b.id) s = .next t ∧ t.dev.block? b.id = none ∧ (∀ w ∈ t.dev.waves, w.block ≠ b.id) ∧
      (t.dev.ctx? b.ctx).bind (·.preempt) = some p' ∧ p'.count = p.count + 1 ∧ p'.next = p.next + s.dev.objectSize b ∧
      p'.failed = p.failed := by
  obtain ⟨hbefore, hteam, hz, hx, hruns, hwrite⟩ := hobject
  let sealed (d : Dev) : Dev := (d.modCtx b.ctx (savedOne (s.dev.objectSize b))).writeArea b.ctx
  obtain ⟨e, regs, hstored, hreached, hseal⟩ := sealStep_one (m := { s with dev := d }) hwrite hb hz hslot (fun d _ _ => d.failForced b.ctx [b]) sealed
  obtain ⟨hgone, hwaves, -, -, hpreempt⟩ := leaveSuspended_leaves { e with suspRegs := regs } b
  generalize Dev.leaveSuspended { e with suspRegs := regs } b = y at hgone hwaves hpreempt hseal
  have hwork := SameWork.writeObjects_one hbefore hz hwrite
  have hexec : exec (.forcedSaveSeal b.id) s = .next { s with dev := sealed y } := by
    change execForcedSaveSeal b.id s = _
    rw [execForcedSaveSeal, onDev, hbefore]
    refine congrArg (fun d => Host.Outcome.next { s with dev := d }) ?_
    dsimp only
    rw [hx]
    dsimp only
    rw [hruns, if_neg Bool.false_ne_true, hz, hp]
    dsimp only
    rw [hforced, if_pos rfl, suspGroup_alone hteam]
    exact hseal
  have harea := writeArea_served (y.modCtx b.ctx (savedOne (s.dev.objectSize b))) b.ctx
  have hctx : (s.dev.ctx? b.ctx).bind (·.preempt) = some p := by
    rw [hx]
    exact hp
  have hctx' : (Dev.ctx? { e with suspRegs := regs } b.ctx).bind (·.preempt) = some p := by
    change (e.ctxs.find? fun c : Ctx => c.n == b.ctx).bind (·.preempt) = some p
    rw [hreached.ctxs]
    change (d.ctxs.find? fun c : Ctx => c.n == b.ctx).bind (·.preempt) = some p
    rw [hwork.ctxs]
    exact hctx
  obtain ⟨told, hy⟩ := hpreempt b.ctx p hctx'
  obtain ⟨c, hc, hcp⟩ := Option.bind_eq_some_iff.mp hy
  have hmod : (y.modCtx b.ctx (savedOne (s.dev.objectSize b))).ctx? b.ctx = some (savedOne (s.dev.objectSize b) c) :=
    ctx?_modCtx (f := savedOne (s.dev.objectSize b)) (fun _ => rfl) hc
  refine ⟨_, { p with told := told, count := p.count + 1, next := p.next + s.dev.objectSize b }, hexec, ?_, ?_, ?_, rfl, rfl, rfl⟩
  · rw [Dev.block?, harea.blocks]
    exact hgone
  · exact none_of_calm harea.waves hwaves
  · rw [ctx?_of_ctxs harea.ctxs, hmod, Option.bind_some]
    change c.preempt.map _ = _
    rw [hcp]
    rfl

/-! ## Forced saves (R314) -/

/-- Blocks by number and by what their suspension has come to. -/
def suspView (b : Block) : Nat × Option SuspPhase := (b.id, b.susp)

/-- The same blocks, each with its suspension as it was. -/
def SameSusp (d e : Dev) : Prop := e.blocks.map suspView = d.blocks.map suspView

namespace SameSusp

theorem of_eq {d e : Dev} (h : e.blocks = d.blocks) : SameSusp d e := by rw [SameSusp, h]

theorem refl (d : Dev) : SameSusp d d := rfl

theorem trans {a b c : Dev} (h : SameSusp a b) (g : SameSusp b c) : SameSusp a c := Eq.trans g h

theorem foldl {α : Type} {f : Dev → α → Dev} (hf : ∀ d a, SameSusp d (f d a)) (l : List α) (d : Dev) : SameSusp d (l.foldl f d) := by
  induction l generalizing d with
  | nil => exact refl d
  | cons a l ih => exact (hf d a).trans (ih _)

theorem modBlock {f : Block → Block} (hf : ∀ b, suspView (f b) = suspView b) (d : Dev) (id : Nat) : SameSusp d (d.modBlock id f) := by
  simp only [SameSusp, Dev.modBlock, modIf, List.map_map]
  refine List.map_congr_left fun b _ => ?_
  rw [Function.comp_apply]
  split
  · exact hf b
  · rfl

theorem noteDone (d : Dev) (id wave block : Nat) (g : StrandMask) (t : Nat) : SameSusp d (d.noteDone id wave block g t) := by
  refine trans (of_eq (d := d) (e := d.modWave wave _) rfl) (modBlock ?_ _ _)
  exact fun _ => rfl

theorem endJob (d : Dev) (id t : Nat) : SameSusp d (d.endJob id t) := of_eq rfl

theorem modWave (d : Dev) (id : Nat) (f : Wave → Wave) : SameSusp d (d.modWave id f) := of_eq rfl

theorem of_reached {d e : Dev} (h : Reached d e) : SameSusp d e := of_eq h.blocks

theorem of_served {d e : Dev} (h : Served d e) : SameSusp d e := of_eq h.blocks

theorem finishCopy (d : Dev) (job : Nat) : SameSusp d (d.finishCopy job) := by
  rw [Dev.finishCopy]
  split
  · exact refl d
  next j _ =>
    split
    · exact refl d
    next c _ =>
      dsimp only
      generalize hY : Dev.endJob _ _ _ = y
      have hy : SameSusp d y := by
        rw [← hY]
        refine trans ?_ (endJob _ _ _)
        refine trans ?_ (noteDone _ _ _ _ _ _)
        refine trans ?_ (modWave _ _ _)
        split
        · exact refl d
        · refine modBlock ?_ _ _
          exact fun _ => rfl
      refine hy.trans ?_
      split
      next a x b _ _ _ =>
        split
        · exact refl y
        · have hlooked := of_reached (.looked y b.core x a)
          split
          · exact hlooked.trans (of_eq rfl)
          · exact hlooked.trans (of_eq rfl)
          next loc _ _ =>
            generalize (fun (_ : Nat) (old : List Byte) => leBytes 8 ((leNat old + 1) % 2 ^ 63 + (if c.skipped then 2 ^ 63 else 0))) = f
            have hrmw := of_served (Served.homeRmw (y.looked b.core x a) x.n none true loc 8 (max c.time j.clock + 1) f)
            refine hlooked.trans ?_
            split
            · refine hrmw.trans (modBlock ?_ _ _)
              exact fun _ => rfl
            · exact hrmw.trans (of_eq rfl)
      · exact refl y

theorem copyOver (d : Dev) (job : Nat) : SameSusp d (d.copyOver job) := by
  rw [Dev.copyOver]
  split
  · exact refl d
  · split
    · exact finishCopy d job
    · exact refl d

theorem tellBarrier (d : Dev) (j : Job) (c : Copy) (n t : Nat) : SameSusp d (d.tellBarrier j c n t) := by
  rw [Dev.tellBarrier]
  split
  · exact of_served (.homeRmw d _ _ _ _ _ _ _)
  · exact refl d

theorem skipFault (d : Dev) (j : Job) (c : Copy) (p : Nat) : SameSusp d (d.skipFault j c p) := by
  rw [Dev.skipFault]
  split
  · exact ((tellBarrier d j c _ _).trans (of_eq rfl)).trans (copyOver _ _)
  · exact of_eq rfl

theorem skipFaults (b : Block) (n : Nat) (d : Dev) : SameSusp d (d.skipFaults b n) := by
  induction n generalizing d with
  | zero => exact refl d
  | succ n ih =>
    rw [Dev.skipFaults]
    split
    · exact of_eq rfl
    · exact ((skipFault d _ _ _).trans (of_eq rfl)).trans (ih _)

theorem noteIdle (d : Dev) (core : Nat) (kd : EngKind) : SameSusp d (d.noteIdle core kd) := by
  rw [Dev.noteIdle]
  split
  · exact of_eq rfl
  · exact refl d

theorem quiesce (d : Dev) (b : Block) : SameSusp d (d.quiesce b) := by
  rw [Dev.quiesce]
  have hqueued : ∀ L : List Job, SameSusp d (if L.isEmpty then d else (L.foldl (fun d j => d.endJob j.id j.clock) d).noteIdle b.core .tile) := fun L => by
    split
    · exact refl d
    · exact (foldl (f := fun d (j : Job) => d.endJob j.id j.clock) (fun _ _ => endJob _ _ _) L d).trans (noteIdle _ _ _)
  exact ((hqueued _).trans (of_eq rfl)).trans (skipFaults b 70000 _)

end SameSusp

/-- What the suspension of the first block of a number has come to. -/
def suspOf (d : Dev) (id : Nat) : Option (Option SuspPhase) := (d.block? id).map (·.susp)

theorem suspOf_eq (d : Dev) (id : Nat) : suspOf d id = ((d.blocks.map suspView).find? (·.1 == id)).map (·.2) := by
  rw [List.find?_map, Option.map_map]
  rfl

theorem SameSusp.suspOf {d e : Dev} (h : SameSusp d e) (id : Nat) : suspOf e id = suspOf d id := by
  rw [suspOf_eq, suspOf_eq, h]

theorem suspOf_marked {d e : Dev} {ids : List Nat} {v : Option SuspPhase}
    (h : e.blocks = modIf (fun b => ids.contains b.id) (fun b => { b with susp := v }) d.blocks) (id : Nat) :
    suspOf e id = if ids.contains id then (suspOf d id).map fun _ => v else suspOf d id := by
  have hcomp : ((fun b : Block => b.id == id) ∘ fun b => if ids.contains b.id then { b with susp := v } else b) = fun b => b.id == id := by
    funext b
    dsimp only [Function.comp]
    split <;> rfl
  rw [suspOf, Dev.block?, h, modIf, List.find?_map, hcomp, suspOf, Dev.block?]
  cases hb : d.blocks.find? fun b => b.id == id with
  | none => simp
  | some b =>
    have hid : b.id = id := find?_id_eq (f := Block.id) hb
    simp only [Option.map_some, hid]
    split <;> rfl

/-- Blocks stopped for a forced save know of it; the others' suspensions are as they were. -/
theorem suspOf_stopForced (d : Dev) (g : List Block) (id : Nat) :
    suspOf (d.stopForced g) id = if (g.map (·.id)).contains id then (suspOf d id).map fun _ => some .forced else suspOf d id := by
  rw [Dev.stopForced]
  rw [(SameSusp.foldl SameSusp.quiesce g _).suspOf, suspOf_marked (d := d.leaveSusp g) (ids := g.map (·.id)) (v := some .forced) rfl,
    suspOf_marked (d := d) (e := d.leaveSusp g) (ids := g.map (·.id)) (v := none) rfl]
  split
  · rw [Option.map_map]
    rfl
  · rfl

/-- One step of a forced save: a block that runs is stopped with its group. -/
def forceOne (d : Dev) (b : Block) : Dev := if (d.block? b.id).any (·.susp.isNone) then d.stopForced (d.suspGroup b) else d

/-- A block of a number that no suspension has reached, or a forced one has. -/
def Forceable (d : Dev) (id : Nat) : Prop := suspOf d id = some none ∨ suspOf d id = some (some .forced)

theorem forceOne_keeps {d : Dev} {id : Nat} (b : Block) :
    (Forceable d id → Forceable (forceOne d b) id) ∧ (suspOf d id = some (some .forced) → suspOf (forceOne d b) id = some (some .forced)) := by
  rw [forceOne]
  split
  · simp only [Forceable, suspOf_stopForced]
    split
    · refine ⟨fun h => ?_, fun h => by rw [h]; rfl⟩
      rcases h with h | h
      · exact .inr (by rw [h]; rfl)
      · exact .inr (by rw [h]; rfl)
    · exact ⟨fun h => h, fun h => h⟩
  · exact ⟨fun h => h, fun h => h⟩

theorem forceOne_forces {d : Dev} {b : Block} (hteam : b.team = none) (h : Forceable d b.id) : suspOf (forceOne d b) b.id = some (some .forced) := by
  rw [forceOne]
  rcases h with h | h
  · obtain ⟨x, hx, hsusp⟩ := Option.map_eq_some_iff.mp h
    rw [hx, Option.any_some, hsusp, if_pos (by rfl), suspOf_stopForced, suspGroup_alone hteam, h]
    simp
  · split
    · rw [suspOf_stopForced, h]
      split <;> rfl
    · exact h

theorem forced_foldl {b : Block} (hteam : b.team = none) (L : List Block) (d : Dev) (h : Forceable d b.id)
    (hb : b ∈ L ∨ suspOf d b.id = some (some .forced)) : suspOf (L.foldl forceOne d) b.id = some (some .forced) := by
  induction L generalizing d with
  | nil =>
    rcases hb with hb | hb
    · exact absurd hb List.not_mem_nil
    · exact hb
  | cons y L ih =>
    rw [List.foldl_cons]
    obtain ⟨hkeep, hforced⟩ := forceOne_keeps (d := d) (id := b.id) y
    refine ih _ (hkeep h) ?_
    rcases hb with hb | hb
    · rcases List.mem_cons.mp hb with rfl | hb
      · exact .inr (forceOne_forces hteam h)
      · exact .inl hb
    · exact .inr (hforced hb)

theorem forcedSave_forces (s : State) (c : Ctx) (p : Preempt) (b : Block) (hc : s.dev.ctx? c.n = some c) (hp : c.preempt = some p)
    (hends : p.ends ≤ s.dev.clock) (hb : s.dev.block? b.id = some b) (hforce : b ∈ s.dev.toForce c.n) (hteam : b.team = none) :
    ∃ t b', exec (.forcedSave c.n) s = .next t ∧ t.dev.block? b.id = some b' ∧ b'.susp = some .forced := by
  have hexec : exec (.forcedSave c.n) s = .next { s with dev := (s.dev.toForce c.n).foldl forceOne s.dev } := by
    change execForcedSave c.n s = _
    rw [execForcedSave, onDev, hc, Option.bind_some, hp]
    refine congrArg (fun d => Host.Outcome.next { s with dev := d }) ?_
    dsimp only
    rw [if_neg (Nat.not_lt.mpr hends)]
    rfl
  have hnone : b.susp = none := by
    have hmem := (List.mem_filter.mp hforce).2
    simp only [Bool.and_eq_true, Option.isNone_iff_eq_none] at hmem
    obtain ⟨⟨⟨⟨-, -⟩, hsusp⟩, -⟩, -⟩ := hmem
    exact hsusp
  have hfirst : Forceable s.dev b.id := .inl (by rw [suspOf, hb, Option.map_some, hnone])
  obtain ⟨b', hb', hsusp⟩ := Option.map_eq_some_iff.mp (forced_foldl hteam (s.dev.toForce c.n) s.dev hfirst (.inl hforce))
  exact ⟨_, b', hexec, hb', hsusp⟩

/-! ## A clone that has been copied (R240) -/

/-- Jobs that a write posts are no copies or clones: with one of a wave's jobs gone, fewer of them count in cp. -/
theorem cp_endJob {d e : Dev} {j : Job} (h : Posts d e) (hj : d.job? j.id = some j) (hcp : j.kind.inCp = true) (time : Nat) :
    (e.endJob j.id time).cp j.wave < d.cp j.wave := by
  obtain ⟨L, hjobs, hcoll⟩ := h
  have hkeep : ((fun x : Job => x.wave == j.wave && x.kind.inCp) ∘ fun x : Job =>
      if x.after.contains j.id then { x with after := x.after.filter (· != j.id), clock := max x.clock time } else x) =
      fun x : Job => x.wave == j.wave && x.kind.inCp := by
    funext x
    dsimp only [Function.comp]
    split <;> rfl
  have hnone : L.filter (fun x : Job => x.wave == j.wave && x.kind.inCp && x.id != j.id) = [] := by
    refine List.filter_eq_nil_iff.mpr fun x hx => ?_
    obtain ⟨c, hc⟩ := hcoll x hx
    simp [hc, JobKind.inCp]
  have hmem : j ∈ d.jobs.filter fun x : Job => x.wave == j.wave && x.kind.inCp :=
    List.mem_filter.mpr ⟨List.mem_of_find?_eq_some hj, by rw [hcp, beq_self_eq_true]; rfl⟩
  rw [Dev.cp, Dev.countJobs, Dev.endJob, List.filter_map, List.length_map, hkeep, List.filter_filter, hjobs, List.filter_append, hnone,
    List.append_nil, Dev.cp, Dev.countJobs]
  have hsplit : d.jobs.filter (fun x : Job => x.wave == j.wave && x.kind.inCp && x.id != j.id) =
      (d.jobs.filter fun x : Job => x.wave == j.wave && x.kind.inCp).filter fun x => x.id != j.id := by
    rw [List.filter_filter]
    exact List.filter_congr fun x _ => Bool.and_comm _ _
  rw [hsplit]
  refine List.length_filter_lt_length_iff_exists.mpr ⟨j, hmem, ?_⟩
  simp

/-- What a job's end and the loss of its replies leave. -/
theorem ended_dropReplies {d e y : Dev} {j : Job} (hy : y.jobs = e.jobs ∧ SameBytes e y) (h : Posts d e) (hj : d.job? j.id = some j)
    (hcp : j.kind.inCp = true) (time owner : Nat) :
    ((y.endJob j.id time).dropReplies owner).job? j.id = none ∧ ((y.endJob j.id time).dropReplies owner).cp j.wave < d.cp j.wave ∧
      SameBytes e ((y.endJob j.id time).dropReplies owner) :=
  ⟨job?_endJob (d := y) time, cp_endJob (e := y) (h.trans (.of_eq hy.1)) hj hcp time,
    sameBytes_trans hy.2 (⟨rfl, rfl, rfl, rfl⟩ : SameBytes y ((y.endJob j.id time).dropReplies owner))⟩

theorem ccloneDone_ends (s : State) (j : Job) (b : Block) (x : Ctx) (src dst ident n time end_ pa : Nat) (gang : StrandMask) (pc : Word)
    (bytes : List Byte) (d d' : Dev) (hj : s.dev.job? j.id = some j) (hkind : j.kind = .clone src dst ident gang pc)
    (hfoot : j.foot.head? = some ⟨none, src, src + n, false⟩) (hb : s.dev.block? j.block = some b) (hx : s.dev.ctx? j.ctx = some x)
    (hentered : j.entered = true) (hafter : j.after = []) (hread : s.dev.reachFrom b.core x j.id 0 32 src n j.clock 1 = (d, .ok time bytes))
    (hwrite : d.reachWrite b.core x j.id dst time
      (sealHeader x.sealKey (bytes.take 8 ++ leBytes 8 ident ++ (bytes.drop 16).take 240) ++ bytes.drop 256) = (d', .ok end_ []))
    (hm : memOk { s with dev := d' }) (hslot : SlotAt { s with dev := d' } x ident pa slotResuming) :
    ∃ t, exec (.ccloneDone j.id) s = .next t ∧ t.dev.job? j.id = none ∧ t.dev.cp j.wave < s.dev.cp j.wave ∧
      StoresAt { s with dev := d' } t x.n pa (slotBytes ident slotSuspended) := by
  obtain ⟨e, t, hmove, hstored, hreached⟩ := moveSlot_moves (s := { s with dev := d' }) hslot (by decide) (SameWalks.refl d') (from_ := [slotResuming]) (by decide)
    slotSuspended (end_ + 1)
  have hposts : Posts s.dev e := by
    have hr := (Reached.reachFrom s.dev b.core x j.id 0 32 src n j.clock 1).jobs
    have hw := (Reached.reachWrite d b.core x j.id dst time
      (sealHeader x.sealKey (bytes.take 8 ++ leBytes 8 ident ++ (bytes.drop 16).take 240) ++ bytes.drop 256)).jobs
    rw [hread] at hr
    rw [hwrite] at hw
    exact (hr.trans hw).trans hreached.jobs
  obtain ⟨y, hy⟩ : ∃ y : Dev, y = (e.modWave j.wave fun w => { w with doneCp := max w.doneCp t }).noteDone j.id j.wave j.block j.gang t := ⟨_, rfl⟩
  have hexec : exec (.ccloneDone j.id) s = .next { s with dev := (y.endJob j.id t).dropReplies j.id } := by
    change execCcloneDone j.id s = _
    rw [execCcloneDone, onDev, hj]
    refine congrArg (fun d => Host.Outcome.next { s with dev := d }) ?_
    dsimp only
    rw [hkind, hb, hx]
    dsimp only
    have hruns : (!j.mayRun) = false := by
      rw [Job.mayRun, hentered, hafter]
      rfl
    rw [hruns, if_neg Bool.false_ne_true, hfoot, Option.map_some, Option.getD_some, Nat.add_sub_cancel_left, hread]
    dsimp only
    rw [hwrite]
    dsimp only
    rw [hmove, hy]
  obtain ⟨hgone, hfewer, hbytes⟩ := ended_dropReplies (y := y) (by rw [hy]; exact ⟨rfl, rfl, rfl, rfl, rfl⟩) hposts hj (by rw [hkind]; rfl) t j.id
  refine ⟨{ s with dev := (y.endJob j.id t).dropReplies j.id }, hexec, hgone, hfewer, ?_⟩
  refine storesAt_stored (s := { s with dev := d' }) hstored hm.1 ?_ hbytes
  rw [slotBytes, leBytes_length]
  exact hslot.2.2.1

/-! ## A resumption that is placed (R238, R239, R323) -/

namespace Reached

theorem readObject (d : Dev) (core : Nat) (x : Ctx) (owner base clock m a ident : Nat) :
    Reached d (d.readObject core x owner base clock m a ident).1 := by
  rw [Dev.readObject]
  have hfirst := reachFrom d core x owner base 32 a 256 clock 1
  split
  next heq => rw [heq] at hfirst; exact hfirst
  next heq => rw [heq] at hfirst; exact hfirst
  next e t h heq =>
    rw [heq] at hfirst
    have hrest := reachFrom e core x owner (base + 256) 32 (a + 256) (headerTotal h - 256) t 1
    split
    · exact hfirst
    · split
      next heq' => rw [heq'] at hrest; exact hfirst.trans hrest
      next heq' => rw [heq'] at hrest; exact hfirst.trans hrest
      next heq' => rw [heq'] at hrest; exact hfirst.trans hrest

theorem readObjects (core : Nat) (x : Ctx) (owner : Nat) (l : List (Nat × Nat)) (clock m : Nat) (d : Dev) :
    Reached d (d.readObjects core x owner clock m l).1 := by
  induction l generalizing d clock m with
  | nil => exact refl d
  | cons y as ih =>
    obtain ⟨a, i⟩ := y
    rw [Dev.readObjects]
    have hone := readObject d core x owner (m * 2 ^ 40) clock m a i
    split
    next heq => rw [heq] at hone; exact hone
    next e t o heq =>
      rw [heq] at hone
      have hmore := ih t (m + 1) e
      split
      next heq' => rw [heq'] at hmore; exact hone.trans hmore
      next => exact hone.trans hmore

end Reached

/-- The tags that a word names are the word again. -/
theorem arrived_of_tags {b : Block} (w : Word) (t : Nat) (h : b.tags = (List.range 64).filterMap fun i => if w.getLsbD i then some ⟨i, t⟩ else none) :
    b.arrived = w := by
  refine BitVec.eq_of_getLsbD_eq fun i hi => ?_
  rw [Bool.eq_iff_iff, Block.arrived, getLsbD_foldl_or (fun x : Tag => 1#64 <<< x.tag), h]
  have hbit : ∀ j < 64, (1#64 <<< j).getLsbD i = decide (i = j) := fun j hj => by
    rw [← BitVec.twoPow_eq, BitVec.getLsbD_twoPow]
    simp [hj, eq_comm]
  constructor
  · rintro (h0 | ⟨x, hx, hset⟩)
    · simp at h0
    · obtain ⟨j, hj, hsome⟩ := List.mem_filterMap.mp hx
      split at hsome
      next hw =>
        obtain rfl := Option.some.inj hsome
        rw [hbit j (List.mem_range.mp hj), decide_eq_true_eq] at hset
        rw [hset]
        exact hw
      next => exact absurd hsome (by simp)
  · intro hw
    refine .inr ⟨⟨i, t⟩, List.mem_filterMap.mpr ⟨i, List.mem_range.mpr hi, by rw [if_pos hw]⟩, ?_⟩
    rw [hbit i hi, decide_eq_true_eq]

/-- A wave of a resumed block stands as its record and images give it. -/
structure Restored (b i : Nat) (z : SavedWave) (w : Wave) : Prop where
  block : w.block = b
  idx : w.idx = i
  v : w.v = z.v
  tvec : w.tvec = BitVec.ofNat 64 (field z.bytes 0xC0 8)
  m : w.m = (List.range 16).map (fun j => BitVec.ofNat 32 (field z.bytes (0x80 + 4 * j) 4))
  pcs : w.strands.map (·.pc) = (List.range 8).map fun u => BitVec.ofNat 64 (field z.bytes (8 * u) 8)

theorem Restored.of_calm {b i : Nat} {v : SavedWave} {w u : Wave} (h : Restored b i v w) (hcalm : calm u = calm w) : Restored b i v u := by
  have hpcs : u.strands.map (·.pc) = w.strands.map (·.pc) := by
    have := congrArg (fun y : Wave => y.strands.map (·.pc)) hcalm
    rwa [calm, calm, List.map_map, List.map_map] at this
  exact ⟨(congrArg Wave.block hcalm).trans h.block, (congrArg Wave.idx hcalm).trans h.idx, (congrArg Wave.v hcalm).trans h.v,
    (congrArg Wave.tvec hcalm).trans h.tvec, (congrArg Wave.m hcalm).trans h.m, hpcs.trans h.pcs⟩

/-- The wave that a record gives, with the identity in the register that its `susp` named. -/
def resumedWave (d : Dev) (b : Block) (o : List Byte) (clock i : Nat) (v : SavedWave) : Wave :=
  let w := v.restore o d.nextId b.id i (Dev.bestPort { d with nextId := d.nextId + 1 } b.core) clock
  { w with
    port := if w.live then w.port else none
    strands := w.strands.map fun s =>
      if s.exited then s else s.wr (Dev.suspDest { d with nextId := d.nextId + 1 } b.ctx (headerIdent o) i) (BitVec.ofNat 64 (headerIdent o)) }

theorem pc_wr (s : Strand) (r : SReg) (x : Word) : (s.wr r x).pc = s.pc := by
  rw [Strand.wr]
  split <;> rfl

theorem resumedWave_restored (d : Dev) (b : Block) (o : List Byte) (clock i : Nat) (v : SavedWave) :
    Restored b.id i v (resumedWave d b o clock i v) := by
  refine ⟨rfl, rfl, rfl, rfl, rfl, ?_⟩
  rw [resumedWave]
  dsimp only
  rw [List.map_map]
  have hkeep : ((fun s : Strand => s.pc) ∘ fun s : Strand =>
      if s.exited then s else s.wr (Dev.suspDest { d with nextId := d.nextId + 1 } b.ctx (headerIdent o) i) (BitVec.ofNat 64 (headerIdent o))) =
      fun s => s.pc := by
    funext s
    dsimp only [Function.comp]
    split
    · rfl
    · exact pc_wr s _ _
  rw [hkeep, SavedWave.restore]
  dsimp only
  rw [List.map_map]
  rfl

theorem addSaved_eq (b : Block) (o : List Byte) (clock : Nat) (l : List SavedWave) (i : Nat) (d : Dev) :
    ∃ ws n, d.addSaved b o clock i l = { d with waves := d.waves ++ ws, nextId := n } ∧ ws.length = l.length ∧
      ∀ (k : Nat) (v : SavedWave) (w : Wave), l[k]? = some v → ws[k]? = some w → Restored b.id (i + k) v w := by
  induction l generalizing d i with
  | nil => exact ⟨[], d.nextId, by rw [Dev.addSaved, List.append_nil], rfl, fun k v w h => absurd h (by simp)⟩
  | cons v l ih =>
    obtain ⟨ws, n, heq, hlength, hnew⟩ := ih (i + 1) { d with nextId := d.nextId + 1, waves := d.waves ++ [resumedWave d b o clock i v] }
    refine ⟨resumedWave d b o clock i v :: ws, n, ?_, by rw [List.length_cons, hlength, List.length_cons], fun k u w hu hw => ?_⟩
    · have hstep : d.addSaved b o clock i (v :: l) =
          Dev.addSaved { d with nextId := d.nextId + 1, waves := d.waves ++ [resumedWave d b o clock i v] } b o clock (i + 1) l := rfl
      rw [hstep, heq]
      simp only [List.append_assoc, List.singleton_append]
    · cases k with
      | zero =>
        obtain rfl := Option.some.inj hu
        obtain rfl := Option.some.inj hw
        exact resumedWave_restored d b o clock i v
      | succ k =>
        have h := hnew k u w hu hw
        rwa [Nat.add_assoc, Nat.add_comm 1] at h

/-- A block is placed and its local memory filled: memory, translations and launches are as before. -/
structure PlacedDev (d e : Dev) (b : Block) : Prop where
  walks : SameWalks d e
  blocks : e.blocks = d.blocks ++ [b]
  waves : e.waves = d.waves
  launches : e.launches = d.launches
  pending : e.pending = d.pending

theorem zeroLoc_walks (d : Dev) (core : Nat) (sp : Space) (r : Range) : SameWalks d (d.zeroLoc core sp r) ∧ (d.zeroLoc core sp r).pending = d.pending :=
  ⟨⟨⟨rfl, rfl, rfl, rfl⟩, rfl, rfl⟩, rfl⟩

theorem zeroRanges_walks (d : Dev) (b : Block) : SameWalks d (d.zeroRanges b) ∧ (d.zeroRanges b).pending = d.pending := by
  rw [Dev.zeroRanges]
  obtain ⟨hscratch, h0⟩ := zeroLoc_walks d b.core .scratch b.scratch
  generalize d.zeroLoc b.core .scratch b.scratch = x at hscratch h0
  obtain ⟨hwbuf, h1⟩ := zeroLoc_walks x b.core .wbuf b.wbuf
  generalize x.zeroLoc b.core .wbuf b.wbuf = y at hwbuf h1
  obtain ⟨habuf, h2⟩ := zeroLoc_walks y b.core .abuf b.abuf
  generalize y.zeroLoc b.core .abuf b.abuf = z at habuf h2
  obtain ⟨hacc, h3⟩ := zeroLoc_walks z b.core .acc b.acc
  exact ⟨((hscratch.trans hwbuf).trans habuf).trans hacc, ((h3.trans h2).trans h1).trans h0⟩

/-- A placement drops code only. -/
theorem putBlock_aside (d : Dev) (b : Block) : SameWalks (d.zeroRanges b) (d.putBlock b) ∧ (d.putBlock b).pending = (d.zeroRanges b).pending := by
  rw [Dev.putBlock]
  generalize d.zeroRanges b = y
  exact ⟨⟨⟨rfl, rfl, rfl, rfl⟩, rfl, rfl⟩, rfl⟩

theorem putBlock_placed (d : Dev) (b : Block) : PlacedDev d (d.putBlock b) b := by
  obtain ⟨hblocks, hwaves, hlaunches, -, -⟩ := putBlock_fields d b
  obtain ⟨hwalks, hpending⟩ := zeroRanges_walks d b
  obtain ⟨haside, hkept⟩ := putBlock_aside d b
  exact ⟨hwalks.trans haside, hblocks, hwaves, hlaunches, hkept.trans hpending⟩

theorem PlacedDev.foldl {α : Type} {f : Dev → α → Dev} {d e : Dev} {b : Block} (h : PlacedDev d e b)
    (hf : ∀ d a, f d a = d ∨ ∃ core sp n bs, f d a = Dev.putLoc d core sp n bs) (l : List α) : PlacedDev d (l.foldl f e) b := by
  induction l generalizing e with
  | nil => exact h
  | cons a l ih =>
    refine ih ?_
    rcases hf e a with heq | ⟨core, sp, n, bs, heq⟩
    · rw [heq]
      exact h
    · rw [heq]
      exact ⟨h.walks.trans ⟨⟨rfl, rfl, rfl, rfl⟩, rfl, rfl⟩, h.blocks, h.waves, h.launches, h.pending⟩

/-- What the header of an object says of the block that it becomes. -/
structure BlockOf (o : List Byte) (core ctx : Nat) (b : Block) : Prop where
  core : b.core = core
  ctx : b.ctx = ctx
  coord : b.coord = BitVec.ofNat 64 (field o 0x70 8)
  scratch : b.scratch.len = field o 0x28 4
  wbuf : b.wbuf.len = field o 0x2C 4
  abuf : b.abuf.len = field o 0x30 4
  acc : b.acc.len = field o 0x34 4
  ntags : b.ntags = field o 0x21 1
  arrived : b.arrived = BitVec.ofNat 64 (field o 0xA0 8)

theorem cancelPlaced_eq {d : Dev} (h : ∀ l ∈ d.launches, l.cancelled = false) (x : Ctx) (block : Nat) : d.cancelPlaced x block = d := by
  rw [Dev.cancelPlaced]
  split
  next l hl =>
    obtain ⟨b, -, hlaunch⟩ := Option.bind_eq_some_iff.mp hl
    obtain ⟨n, -, hfind⟩ := Option.bind_eq_some_iff.mp hlaunch
    rw [h l (List.mem_of_find?_eq_some hfind), if_neg Bool.false_ne_true]
  next => rfl

theorem placeObject_places {d : Dev} (x : Ctx) (core clock : Nat) (o : List Byte) (ws : List SavedWave)
    (hcancel : ∀ l ∈ d.launches, l.cancelled = false) :
    ∃ e b L, d.placeObject x core clock none o ws = e ∧ SameWalks d e ∧ e.blocks = d.blocks ++ [b] ∧ e.waves = d.waves ++ L ∧ e.pending = d.pending ∧
      BlockOf o core x.n b ∧ L.length = ws.length ∧
      ∀ (k : Nat) (v : SavedWave) (w : Wave), ws[k]? = some v → L[k]? = some w → Restored b.id k v w := by
  rw [Dev.placeObject]
  dsimp only [Dev.fresh]
  generalize hb : Dev.withRanges _ _ _ = b
  have hblock : BlockOf o core x.n b := by
    rw [← hb]
    refine ⟨rfl, rfl, rfl, len_findRange _ _ _ _, len_findRange _ _ _ _, len_findRange _ _ _ _, len_findRange _ _ _ _, rfl, arrived_of_tags _ _ rfl⟩
  generalize hy : List.foldl _ (Dev.putBlock _ b) _ = y
  have hplaced : PlacedDev { d with nextId := d.nextId + 1 } y b := by
    rw [← hy]
    refine (putBlock_placed _ b).foldl (fun d a => ?_) _
    split
    · exact .inl rfl
    · exact .inr ⟨_, _, _, _, rfl⟩
  obtain ⟨L, n, hwaves, hlength, hnew⟩ := addSaved_eq b o clock ws 0 y
  rw [hwaves, cancelPlaced_eq (by exact fun l hl => hcancel l (hplaced.launches ▸ hl))]
  obtain ⟨hwalks, hblocks, hsame, -, hpending⟩ := hplaced
  have hwalks : SameWalks d y := ⟨⟨hwalks.bytes.mem, hwalks.bytes.sectors, hwalks.bytes.keys, hwalks.bytes.keyBase⟩, hwalks.fns, hwalks.tlb⟩
  clear hy hwaves
  refine ⟨_, b, L, rfl, hwalks.trans ⟨⟨rfl, rfl, rfl, rfl⟩, rfl, rfl⟩, hblocks, ?_, hpending, hblock, hlength, fun k v w hv hw => ?_⟩
  · exact congrArg (· ++ L) hsame
  · have h := hnew k v w hv hw
    rwa [Nat.zero_add] at h

theorem resumeCores_one {d : Dev} {core : Nat} {f : Footprint} (h : (d.resumeCores core [] [f]).isSome = true) : d.resumeCores core [] [f] = some [core] := by
  rw [Dev.resumeCores] at h ⊢
  rw [List.isEmpty_nil, if_pos rfl] at h ⊢
  split at h
  next => exact absurd h (by simp)
  next c hfind =>
    obtain rfl := List.mem_singleton.mp (List.mem_of_find?_eq_some hfind)
    rfl

/-- One object, as a block without a team: the block is placed, then its slot becomes RESUMED. -/
theorem placeObjects_one {m : State} {d : Dev} (hwalks : SameWalks m.dev d) (x : Ctx) (ident core clock t pa : Nat) (o : List Byte) (ws : List SavedWave)
    (hteam : headerTeam o = 0) (hcancel : ∀ l ∈ d.launches, l.cancelled = false) (hslot : SlotAt m x ident pa slotResuming) :
    ∃ e z b L, d.placeObjects x [ident] [core] clock t [(o, ws)] = z ∧ SameWalks m.dev e ∧ StoredDev e z x.n pa (slotBytes ident slotResumed) ∧ Reached e z ∧
      e.blocks = d.blocks ++ [b] ∧ e.waves = d.waves ++ L ∧ e.pending = d.pending ∧ BlockOf o core x.n b ∧ L.length = ws.length ∧
      ∀ (k : Nat) (v : SavedWave) (w : Wave), ws[k]? = some v → L[k]? = some w → Restored b.id k v w := by
  obtain ⟨e, b, L, heq, hplaced, hblocks, hwaves, hpending, hblock, hlength, hnew⟩ := placeObject_places x core clock o ws hcancel
  have he : SameWalks m.dev e := hwalks.trans hplaced
  obtain ⟨z, t', hmove, hstored, hreached⟩ := moveSlot_moves hslot (by decide) he (from_ := [slotResuming]) (by decide) slotResumed t
  refine ⟨e, z, b, L, ?_, he, hstored, hreached, hblocks, hwaves, hpending, hblock, hlength, hnew⟩
  rw [Dev.placeObjects, if_pos hteam]
  dsimp only
  rw [List.zip_cons_cons, List.zip_nil_left, List.foldl_cons (b := d), List.foldl_nil, heq]
  rw [List.foldl_cons, List.foldl_nil, hmove]

/-- The waves of a new block are found by their numbers, once those are new and distinct. -/
theorem wave?_appended {e z : Dev} {W L : List Wave} (hwaves : e.waves = W ++ L) (hz : z.waves.map calm = e.waves.map calm) {i n : Nat} {w : Wave}
    (hw : L[i]? = some w) (hid : w.id = n) (hnew : n ∉ W.map (·.id)) (hdistinct : (L.map (·.id)).Nodup) :
    ∃ u, z.wave? n = some u ∧ calm u = calm w := by
  have hfind : e.wave? n = some w := by
    have hnone : W.find? (fun y : Wave => y.id == n) = none := List.find?_eq_none.mpr fun y hy hyid =>
      hnew (List.mem_map.mpr ⟨y, hy, eq_of_beq hyid⟩)
    rw [Dev.wave?, hwaves, List.find?_append, hnone, Option.none_or]
    obtain ⟨hi, hget⟩ := List.getElem?_eq_some_iff.mp hw
    have hmem : w ∈ L := List.mem_of_getElem? hw
    cases hf : L.find? fun y : Wave => y.id == n with
    | none => exact absurd (List.find?_eq_none.mp hf w hmem) (by simp [hid])
    | some u =>
      have huid : u.id = n := find?_id_eq (f := Wave.id) hf
      exact congrArg some (List.inj_on_of_nodup_map hdistinct (List.mem_of_find?_eq_some hf) hmem (huid.trans hid.symm))
  have hmap : ∀ l : List Wave, (l.map calm).find? (fun y : Wave => y.id == n) = (l.find? fun y : Wave => y.id == n).map calm := fun l => by
    rw [List.find?_map]
    rfl
  have hsame := hmap z.waves
  rw [hz, hmap e.waves] at hsame
  have hboth : (z.wave? n).map calm = some (calm w) := by
    rw [Dev.wave?, ← hsame]
    change (e.wave? n).map calm = _
    rw [hfind]
    rfl
  obtain ⟨u, hu, hcalm⟩ := Option.map_eq_some_iff.mp hboth
  exact ⟨u, hu, hcalm⟩

theorem resumePlaced_places (s : State) (d : Dev) (x : Ctx) (id core obj ident wave block clock time pa : Nat) (f : Footprint) (gang : StrandMask)
    (pc : Word) (o : List Byte) (ws : List SavedWave)
    (hhead : (s.dev.resumesAt core).head? = some (.resume id x.n obj [ident] [f] wave block gang clock pc)) (hx : s.dev.ctx? x.n = some x)
    (hopen : s.dev.coreOpen core = true) (hcancel : ∀ l ∈ s.dev.launches, l.cancelled = false)
    (hread : s.dev.readObjects core x id clock 0 [(obj, ident)] = (d, .ok (time, [o]))) (hteam : headerTeam o = 0) (hparse : parseObject o = some ws)
    (hm : memOk { s with dev := d }) (hslot : SlotAt { s with dev := d } x ident pa slotResuming) :
    ∃ t b ns, exec (.resumePlaced id core) s = .next t ∧ (∀ p ∈ t.dev.pending, p.id ≠ id) ∧ t.dev.blocks = s.dev.blocks ++ [b] ∧
      BlockOf o core x.n b ∧ t.dev.waves.map (·.id) = s.dev.waves.map (·.id) ++ ns ∧ ns.length = ws.length ∧
      (∀ i v n, ws[i]? = some v → ns[i]? = some n → n ∉ s.dev.waves.map (·.id) → ns.Nodup → ∃ w, t.dev.wave? n = some w ∧ Restored b.id i v w) ∧
      StoresAt { s with dev := d } t x.n pa (slotBytes ident slotResumed) := by
  have hreached : Reached s.dev d := by
    have h := Reached.readObjects core x id [(obj, ident)] clock 0 s.dev
    rwa [hread] at h
  have hcores : s.dev.resumeCores core [] [f] = some [core] := by
    have hmem := (List.mem_filter.mp (List.mem_of_head? hhead)).2
    rw [Bool.and_eq_true] at hmem
    exact resumeCores_one hmem.2
  obtain ⟨y, hy⟩ : ∃ y : Dev, y = { d.dropReplies id with pending := d.pending.filter (·.id != id) } := ⟨_, rfl⟩
  have hwalks : SameWalks d y := by
    rw [hy]
    exact ⟨⟨rfl, rfl, rfl, rfl⟩, rfl, rfl⟩
  have hfields : y.blocks = s.dev.blocks ∧ y.waves = d.waves ∧ y.launches = s.dev.launches ∧ y.pending = d.pending.filter (·.id != id) := by
    rw [hy]
    exact ⟨hreached.blocks, rfl, hreached.launches, rfl⟩
  obtain ⟨hyblocks, hywaves, hylaunches, hypending⟩ := hfields
  obtain ⟨e, z, b, L, hplaced, he, hstored, hz, hblocks, hwaves, hpending, hblock, hlength, hnew⟩ :=
    placeObjects_one (m := { s with dev := d }) hwalks x ident core clock time pa o ws hteam (by rwa [hylaunches]) hslot
  have hexec : exec (.resumePlaced id core) s = .next { s with dev := z } := by
    change execResumePlaced id core s = _
    rw [execResumePlaced, onDev]
    refine congrArg (fun d => Host.Outcome.next { s with dev := d }) ?_
    dsimp only
    have hnot : (!s.dev.coreOpen core) = false := by rw [hopen]; rfl
    rw [hnot, if_neg Bool.false_ne_true, hhead]
    dsimp only
    rw [beq_self_eq_true, hx, hcores]
    dsimp only
    rw [List.headD_cons, hread]
    dsimp only
    have hmore : memberPlaces o [ident] = [] := by
      rw [memberPlaces, List.drop_succ_cons, List.drop_nil, List.zip_nil_right]
    rw [List.headD_cons, hmore, Dev.readObjects]
    dsimp only
    have hparsed : ([o] ++ []).filterMap (fun o => (parseObject o).map fun ws => (o, ws)) = [(o, ws)] := by
      rw [List.append_nil, List.filterMap_cons_some (b := (o, ws)), List.filterMap_nil]
      rw [hparse]
      rfl
    rw [hparsed, if_neg (by simp), List.findSome?_cons, slotCause_none (s := { s with dev := d }) hslot]
    dsimp only [Option.map_none, List.findSome?_nil]
    rw [← hplaced, hy]
  refine ⟨{ s with dev := z }, b, L.map (·.id), hexec, ?_, ?_, hblock, ?_, (List.length_map ..).trans hlength, ?_, ?_⟩
  · intro p hp
    have hpend : z.pending = e.pending := by rw [hz.rest]
    rw [hpend, hpending, hypending] at hp
    simpa using (List.mem_filter.mp hp).2
  · change z.blocks = _
    rw [hz.blocks, hblocks, hyblocks]
  · change z.waves.map (·.id) = _
    rw [hz.ids, hwaves, hywaves, List.map_append, hreached.ids]
  · intro i v n hv hn hold hdistinct
    rw [List.getElem?_map] at hn
    obtain ⟨w, hw, hid⟩ := Option.map_eq_some_iff.mp hn
    rw [hywaves] at hwaves
    obtain ⟨u, hu, hcalm⟩ := wave?_appended hwaves hz.waves hw hid (by rwa [hreached.ids]) hdistinct
    exact ⟨u, hu, (hnew i v w hv hw).of_calm hcalm⟩
  · intro i
    have hmem : Memory.wf e.mem = true := by
      rw [he.bytes.mem]
      exact hm.1
    have hlen : (slotBytes ident slotResumed).length = 8 := by rw [slotBytes, leBytes_length]
    change z.byteAt x.n i = if _ then _ else d.byteAt x.n i
    rw [← he.bytes.byteAt x.n]
    refine hstored.byteAt hmem (fun k hk => (he.bytes.written x.n k).mpr (hslot.2.2.1 k ?_)) i
    rwa [hlen] at hk

/-- Settles O42. A slot that stands in the state that a move asks for takes the new one in one write; what reads, writes and the
loss of the block leave of the rest is a frame each. -/
theorem continuationSteps : Obligations.ContinuationSteps := by
  refine ⟨suspSeal_seals, forcedSave_forces, ?_, ?_, ccloneDone_ends⟩
  · intro s b x p z d pa hobject hforced hp m _ hb hslot
    exact forcedSaveSeal_seals s b x p z d pa hobject hforced hp hb hslot
  · intro s d x id core obj ident wave block clock time pa f gang pc o ws hhead hx hopen hcancel hread hteam hparse m hm hslot
    obtain ⟨t, b, ns, hexec, hpending, hblocks, hblock, hids, hlength, hwaves, hstores⟩ :=
      resumePlaced_places s d x id core obj ident wave block clock time pa f gang pc o ws hhead hx hopen hcancel hread hteam hparse hm hslot
    refine ⟨t, b, ns, hexec, hpending, hblocks, hblock.core, hblock.ctx, hblock.coord, hblock.scratch, hblock.wbuf, hblock.abuf, hblock.acc,
      hblock.ntags, hblock.arrived, hids, hlength, fun i v n hv hn hold hdistinct => ?_, hstores⟩
    obtain ⟨w, hw, h⟩ := hwaves i v n hv hn hold hdistinct
    exact ⟨w, hw, h.block, h.idx, h.v, h.tvec, h.m, h.pcs⟩

end Sys2Proof.Proofs
end

section
/-!
PROOFS. Work creation and cancellation (07: R41, R228 to R230, R235): O39 fails, as a lookup for a core of a die TLB's number changes what the device may write.
-/

open Sys2Proof Sys2Proof.Machine Sys2Proof.Claims

-- The whole text is compiled in one process, which can hold few threads: these proofs are elaborated in order.
set_option Elab.async false

namespace Sys2Proof.Proofs

/-! ## A handle that is looked up at a die's number (R235, R258)

The TLB of die 0 stands under the number 1000. Where a block stands on a core of that number, the lookup that `cancel` makes for its
handle puts a translation into it which core 0, at whose translations the device writes (R37), then finds. -/

/-- The handle: its page table entry names the page at 0 and lets it be written. -/
def handle : Nat := 2 ^ 30 + 16

/-- The page of the handle as the TLB of the block's die holds it: it may be read only. -/
def readPage : TlbEntry := ⟨dieTlb 1000, 0, 4096, handle / 4096, 0, ⟨0, none, false, false, true⟩⟩

/-- A graph of one launch. -/
def oneGraph : Level := ⟨0, handle, .graph, 1, false, false, 0, 0⟩

/-- A wave of a block on core 1000; a table at address 0 that names itself first and the page at 0 second. -/
def dieBlock : State := { State.reset with dev := { Dev.reset with
  latch := some ⟨257, 0xFF⟩
  waves := [Wave.new 257 256 0 (some 0) 1 0x1000 (BitVec.ofNat 64 handle) 0x2000 0 0]
  blocks := [Block.plain 256 1000 0]
  ctxs := [⟨0, 0, 0, 0, 0, 0, 0, 1, false, 0, 0, 0, 0, 0, none, false, 0⟩]
  levels := [oneGraph]
  tlb := [readPage]
  mem := [(0, 1), (8, 15)]
  sectors := [⟨0, Dev.reset.keyOf 0, 0⟩] } }

/-- The byte at the handle's place that a step leaves. -/
def byteLeft : Host.Outcome State Fault Refusal → Nat
  | .next t => (t.dev.byteAt 0 16).toNat
  | _ => 0

theorem byteLeft_cancel : byteLeft (exec (.cancel .graph 1) dieBlock) = 0 := by rfl

theorem walked : dieBlock.dev.access 0 ⟨0, 0, 0, 0, 0, 0, 0, 1, false, 0, 0, 0, 0, 0, none, false, 0⟩ handle needW = .ok (.glob 16) := by rfl

theorem handle_deviceAt : DeviceAt dieBlock 0 handle 16 16 :=
  ⟨⟨fun _ h => absurd h List.not_mem_nil, fun _ h => absurd h List.not_mem_nil⟩, _, rfl, rfl, walked, fun i hi => by
    obtain rfl : i = 0 := by simpa [sectorsOf] using hi
    exact ⟨by decide, by decide⟩⟩

/-- Refutes O39: a `cancel` of a graph whose handle the lookup of the block's core takes to a page that may not be written leaves the
object as it was, though core 0's own translation let the device write it before. -/
theorem not_workInstructions : ¬ Obligations.WorkInstructions := by
  unfold Obligations.WorkInstructions
  rintro ⟨-, -, -, hcancel⟩
  obtain ⟨k, hk⟩ : ∃ k, dieBlock.dev.issuer? = some k := ⟨_, rfl⟩
  have hissuer := hk
  obtain rfl := Option.some.inj hk
  obtain ⟨-, -, -, hlevel⟩ := hcancel dieBlock _ 1 hissuer (by decide) (by decide) (by decide) fun l hl => ⟨16, by
    obtain rfl := Except.ok.inj hl
    rfl⟩
  obtain ⟨t, hexec, -, hstores, -⟩ := hlevel .graph .graph oneGraph 16 (List.mem_cons_self ..) rfl rfl ⟨by decide, fun _ h => absurd h List.not_mem_nil⟩ (by decide) rfl
    rfl (by decide) (fun _ h => absurd h List.not_mem_nil) handle_deviceAt
  have hleft := byteLeft_cancel
  rw [hexec] at hleft
  have hbyte : t.dev.byteAt 0 16 = 1 := hstores 16
  rw [byteLeft, hbyte] at hleft
  exact absurd hleft (by decide)

end Sys2Proof.Proofs
end

section
/-!
PROOFS. The engines' steps (07, 09: R202, R212, R213, R216, R217, R219 to R223, R302): O36.
-/

open Sys2Proof Sys2Proof.Machine Sys2Proof.Claims

-- The whole text is compiled in one process, which can hold few threads: these proofs are elaborated in order.
set_option Elab.async false

namespace Sys2Proof.Proofs

/-! ## Ranges of a local space (R243, R273) -/

theorem length_cellRead (m : List Host.Cell) (a n : Nat) : (cellRead m a n).length = n := by
  induction n generalizing a with
  | zero => rfl
  | succ n ih => rw [cellRead, List.length_cons, ih]

theorem cellRead_append (m : List Host.Cell) (a p q : Nat) : cellRead m a p ++ cellRead m (a + p) q = cellRead m a (p + q) := by
  induction p generalizing a with
  | zero => rw [Nat.zero_add, cellRead, List.nil_append, Nat.add_zero]
  | succ p ih =>
    rw [Nat.add_right_comm, cellRead, cellRead, List.cons_append, ← ih (a + 1), Nat.add_assoc a 1 p, Nat.add_comm 1 p]

/-- Part of what is read. -/
theorem cellRead_part {m : List Host.Cell} {a n i k : Nat} (h : i + k ≤ n) : ((cellRead m a n).drop i).take k = cellRead m (a + i) k := by
  obtain ⟨r, rfl⟩ := Nat.exists_eq_add_of_le h
  rw [Nat.add_assoc, ← cellRead_append, List.drop_left' (length_cellRead _ _ _), ← cellRead_append, List.take_left' (length_cellRead _ _ _)]

theorem cellWrite_append (m : List Host.Cell) (a : Nat) (xs ys : List Byte) :
    cellWrite m a (xs ++ ys) = cellWrite (cellWrite m a xs) (a + xs.length) ys := by
  induction xs generalizing m a with
  | nil => rfl
  | cons x xs ih => rw [List.cons_append, cellWrite, cellWrite, ih, List.length_cons, Nat.add_assoc, Nat.add_comm 1]

/-- A device is another but for the times of its local spaces. -/
def TimedDev (d e : Dev) : Prop := e = { d with loclines := e.loclines }

namespace TimedDev

theorem refl (d : Dev) : TimedDev d d := rfl

theorem trans {a b c : Dev} (h : TimedDev a b) (g : TimedDev b c) : TimedDev a c := by
  unfold TimedDev at *
  rw [g, h]

theorem locCells {d e : Dev} (h : TimedDev d e) (core : Nat) (sp : Space) : e.locCells core sp = d.locCells core sp := by
  rw [h]
  rfl

theorem poison {d e : Dev} (h : TimedDev d e) : e.poison = d.poison := by rw [h]

end TimedDev

theorem readLoc_clean {d : Dev} (h : d.poison = []) (core : Nat) (sp : Space) (a n : Nat) :
    d.readLoc core sp a n = (cellRead (d.locCells core sp) a n, true) := by
  rw [Dev.readLoc, Dev.poisoned, h]
  rfl

section
variable {d : Dev} (core : Nat) (sp : Space)

/-- One step of reading a range. -/
def bufRead (q : Dev × Nat × Option (List Byte)) (s : Span) : Dev × Nat × Option (List Byte) :=
  match q.2.2, q.1.homeLoad 0 (.loc core sp s.va) s.n q.2.1 0 with
  | some bs, (d, t, some new) => (d, t, some (bs ++ new))
  | _, (d, t, _) => (d, t, none)

theorem bufRead_clean (h : d.poison = []) (c : Nat) (bs : List Byte) (s : Span) :
    ∃ e t, bufRead core sp (d, c, some bs) s = (e, t, some (bs ++ cellRead (d.locCells core sp) s.va s.n)) ∧ TimedDev d e ∧ c ≤ t := by
  refine ⟨_, _, ?_, (rfl : TimedDev d (d.setLoc core sp s.va (d.locTimes core sp s.va).1
    (max (d.locTimes core sp s.va).2 (max c (d.locTimes core sp s.va).1)))), le_max_left c (d.locTimes core sp s.va).1⟩
  simp only [bufRead, Dev.homeLoad, readLoc_clean h, if_true]

theorem bufRead_spans (k off va n : Nat) (hk : n ≤ k) (d : Dev) (h : d.poison = []) (c : Nat) (bs : List Byte) :
    ∃ e t, (spansFrom 32 k off va n).foldl (bufRead core sp) (d, c, some bs) = (e, t, some (bs ++ cellRead (d.locCells core sp) va n)) ∧
      TimedDev d e ∧ c ≤ t := by
  induction k generalizing d c bs off va n with
  | zero =>
    obtain rfl : n = 0 := by omega
    exact ⟨d, c, by rw [spansFrom, List.foldl_nil, cellRead, List.append_nil], .refl d, le_refl c⟩
  | succ k ih =>
    rw [spansFrom]
    split
    next hn =>
      subst hn
      exact ⟨d, c, by rw [List.foldl_nil, cellRead, List.append_nil], .refl d, le_refl c⟩
    next hn =>
      dsimp only
      have hpos : 0 < 32 - va % 32 := by omega
      generalize hm : min n (32 - va % 32) = m
      obtain ⟨e, t, hone, he, ht⟩ := bufRead_clean core sp h c bs ⟨off, va, m⟩
      rw [List.foldl_cons, hone]
      obtain ⟨x, u, hrest, hx, hu⟩ := ih (off + m) (va + m) (n - m) (by omega) e (he.poison.trans h) t (bs ++ cellRead (d.locCells core sp) va m)
      refine ⟨x, u, ?_, he.trans hx, ht.trans hu⟩
      rw [hrest, he.locCells, List.append_assoc, cellRead_append, Nat.add_sub_cancel' (by omega)]

/-- A range without uncorrectable words is read as it stands. -/
theorem readBuf_reads (h : d.poison = []) (a n c : Nat) :
    ∃ e t, d.readBuf core sp a n c = (e, t, some (cellRead (d.locCells core sp) a n)) ∧ TimedDev d e ∧ c ≤ t := by
  obtain ⟨e, t, heq, he, ht⟩ := bufRead_spans core sp n 0 a n (le_refl n) d h c []
  exact ⟨e, t, heq, he, ht⟩

/-- A device is another but for the bytes of one local space, the times of the local spaces, and words that are sound again. -/
structure FilledDev (d e : Dev) : Prop where
  rest : e = { d with loclines := e.loclines, locmem := e.locmem, poison := e.poison }
  others : ∀ x, x ≠ sp → e.locCells core x = d.locCells core x
  clean : d.poison = [] → e.poison = []
  wf : d.cellsOk → e.cellsOk

theorem FilledDev.refl (d : Dev) : FilledDev core sp d d := ⟨rfl, fun _ _ => rfl, fun h => h, fun h => h⟩

theorem FilledDev.trans {a b c : Dev} (h : FilledDev core sp a b) (g : FilledDev core sp b c) : FilledDev core sp a c :=
  ⟨by rw [g.rest, h.rest], fun x hx => (g.others x hx).trans (h.others x hx), fun hc => g.clean (h.clean hc), fun hw => g.wf (h.wf hw)⟩

theorem putLoc_fills (d : Dev) (a : Nat) (bs : List Byte) :
    FilledDev core sp d (d.putLoc core sp a bs) ∧ (d.putLoc core sp a bs).locCells core sp = cellWrite (d.locCells core sp) a bs := by
  refine ⟨⟨rfl, fun x hx => ?_, fun h => ?_, cellsOk_putLoc d core sp a bs⟩, locCells_setLocCells d core sp fun m => cellWrite m a bs⟩
  · exact locCells_setLocCells_other d core hx fun m => cellWrite m a bs
  · change d.poison.filter _ = []
    rw [h]
    rfl

/-- One step of writing a range. -/
def bufWrite (bs : List Byte) (q : Dev × Nat) (s : Span) : Dev × Nat :=
  let (d, t, _) := q.1.homeWrite 0 none true (.loc core sp s.va) q.2 fun _ => (bs.drop s.off).take s.n
  (d, t)

theorem bufWrite_fills (d : Dev) (bs : List Byte) (c : Nat) (s : Span) :
    ∃ e t, bufWrite core sp bs (d, c) s = (e, t) ∧ FilledDev core sp d e ∧
      e.locCells core sp = cellWrite (d.locCells core sp) s.va ((bs.drop s.off).take s.n) ∧ c ≤ t := by
  obtain ⟨hput, hcells⟩ := putLoc_fills core sp d s.va ((bs.drop s.off).take s.n)
  exact ⟨_, _, rfl, ⟨by rw [hput.rest]; rfl, hput.others, hput.clean, hput.wf⟩, hcells, le_max_left c _⟩

theorem bufWrite_spans (bs : List Byte) (k off va : Nat) (hk : bs.length - off ≤ k) (d : Dev) (c : Nat) :
    ∃ e t, (spansFrom 32 k off va (bs.length - off)).foldl (bufWrite core sp bs) (d, c) = (e, t) ∧ FilledDev core sp d e ∧
      e.locCells core sp = cellWrite (d.locCells core sp) va (bs.drop off) ∧ c ≤ t := by
  induction k generalizing d c off va with
  | zero =>
    have hnone : bs.drop off = [] := List.drop_eq_nil_of_le (by omega)
    exact ⟨d, c, by rw [spansFrom, List.foldl_nil], .refl core sp d, by rw [hnone, cellWrite], le_refl c⟩
  | succ k ih =>
    rw [spansFrom]
    split
    next hn =>
      have hnone : bs.drop off = [] := List.drop_eq_nil_of_le (by omega)
      exact ⟨d, c, by rw [List.foldl_nil], .refl core sp d, by rw [hnone, cellWrite], le_refl c⟩
    next hn =>
      dsimp only
      have hpos : 0 < 32 - va % 32 := by omega
      generalize hm : min (bs.length - off) (32 - va % 32) = m
      obtain ⟨e, t, hone, he, hcells, ht⟩ := bufWrite_fills core sp d bs c ⟨off, va, m⟩
      rw [List.foldl_cons, hone]
      have hleft : bs.length - off - m = bs.length - (off + m) := by omega
      obtain ⟨x, u, hrest, hx, hwritten, hu⟩ := ih (off + m) (va + m) (by omega) e t
      refine ⟨x, u, by rw [hleft, hrest], he.trans core sp hx, ?_, ht.trans hu⟩
      have hlen : ((bs.drop off).take m).length = m := by
        rw [List.length_take, List.length_drop]
        omega
      rw [hwritten, hcells]
      conv_rhs => rw [← List.take_append_drop m (bs.drop off), cellWrite_append, hlen, List.drop_drop]

/-- A range that is written holds what has been written. -/
theorem writeBuf_fills (d : Dev) (a c : Nat) (bs : List Byte) :
    ∃ e t, d.writeBuf core sp a c bs = (e, t) ∧ FilledDev core sp d e ∧ e.locCells core sp = cellWrite (d.locCells core sp) a bs ∧ c ≤ t := by
  obtain ⟨e, t, heq, he, hcells, ht⟩ := bufWrite_spans core sp bs bs.length 0 a (by omega) d c
  exact ⟨e, t, heq, he, hcells, ht⟩

theorem readLoc_filled {e : Dev} {a : Nat} {bs : List Byte} (hd : d.cellsOk) (hcells : e.locCells core sp = cellWrite (d.locCells core sp) a bs) :
    (e.readLoc core sp a bs.length).1 = bs := by
  change cellRead (e.locCells core sp) a bs.length = bs
  rw [hcells, cellRead_cellWrite _ _ _ (wf_locCells hd core sp)]

end

/-! ## Conversion, order and sums of elements (R67, R223) -/

theorem cvtAcc_codes (f : TcvtForm) (sc : Int) (a : Lane) : (IsNaN a → cvtAcc f sc a = (cvtCodes f).1) ∧
    (∀ neg, cvtAcc f sc (infLane neg) = if neg then (cvtCodes f).2.2 else (cvtCodes f).2.1) := by
  refine ⟨fun h => ?_, fun neg => ?_⟩
  · have hnan : dec32 a = .nan := h
    simp only [cvtAcc, hnan]
    cases f <;> rfl
  · simp only [cvtAcc, dec32_infLane]
    cases f <;> cases neg <;> rfl

/-- What a form makes of a finite value, and of the infinity of its sign. -/
theorem cvtAcc_rounds (f : TcvtForm) (sc : Int) {a : Lane} {x : Dy} (h : dec32 a = .fin x) :
    NarrowRounds (cvtGrid f).1 (cvtGrid f).2.1 (cvtGrid f).2.2.1 (cvtGrid f).2.2.2 (cvtAcc f sc (infLane x.neg)) { x with e := x.e + sc } (cvtAcc f sc a) := by
  have hinf : dec32 (infLane x.neg) = .inf x.neg := dec32_infLane _
  simp only [cvtAcc, h, hinf]
  cases f with
  | bf16Rne => exact narrowRounds_roundTo (f := bf16) (by decide) { x with e := x.e + sc } .inf
  | bf16Sat => exact narrowRounds_roundTo (f := bf16) (by decide) { x with e := x.e + sc } .max
  | f16Rne => exact narrowRounds_roundTo (f := fp16) (by decide) { x with e := x.e + sc } .inf
  | f16Sat => exact narrowRounds_roundTo (f := fp16) (by decide) { x with e := x.e + sc } .max
  | e4m3Rne => exact narrowRounds_roundTo (f := e4m3) (by decide) { x with e := x.e + sc } .nan
  | e4m3Sat => exact narrowRounds_roundTo (f := e4m3) (by decide) { x with e := x.e + sc } .max
  | e5m2Rne => exact narrowRounds_roundTo (f := e5m2) (by decide) { x with e := x.e + sc } .inf
  | e5m2Sat => exact narrowRounds_roundTo (f := e5m2) (by decide) { x with e := x.e + sc } .max

theorem sortKeys_eq (before : Lane → Lane → Bool) (l : List (Lane × List Byte)) :
    sortKeys before l = l.insertionSort fun x y => before y.1 x.1 = false := by
  have hinsert : ∀ (x : Lane × List Byte) (ys : List (Lane × List Byte)),
      insertKey before x ys = ys.orderedInsert (fun x y => before y.1 x.1 = false) x := fun x ys => by
    induction ys with
    | nil => rfl
    | cons y ys ih =>
      rw [insertKey, List.orderedInsert_cons, ih]
      cases before y.1 x.1 <;> rfl
  induction l with
  | nil => rfl
  | cons x l ih =>
    change insertKey before x (sortKeys before l) = _
    rw [ih, hinsert, List.insertionSort_cons]

/-- The place of an integer key in ascending order. -/
def keyRank : SelKey → Lane → Int
  | .i32, a => a.toInt
  | _, a => a.toNat

theorem selBefore_eq_false {f : SelFlags} (h : f.key ≠ .f32) (x y : Lane) :
    selBefore f x y = false ↔ if f.desc then keyRank f.key x ≤ keyRank f.key y else keyRank f.key y ≤ keyRank f.key x := by
  rw [selBefore]
  cases hk : f.key with
  | f32 => exact absurd hk h
  | n32 => split <;> simp [keyBelow, BitVec.ult, keyRank]
  | i32 => split <;> simp [keyBelow, BitVec.slt, keyRank]

theorem selBefore_total {f : SelFlags} (h : f.key ≠ .f32) (x y : Lane) : selBefore f y x = false ∨ selBefore f x y = false := by
  rw [selBefore_eq_false h, selBefore_eq_false h]
  split <;> omega

theorem selBefore_trans {f : SelFlags} (h : f.key ≠ .f32) {x y z : Lane} (hxy : selBefore f y x = false) (hyz : selBefore f z y = false) :
    selBefore f z x = false := by
  rw [selBefore_eq_false h] at *
  split at hxy <;> simp_all only [if_true, if_false, Bool.false_eq_true] <;> omega

/-- Sorted elements are the same elements, in the order that the flags ask for. -/
theorem sortKeys_sorts (f : SelFlags) (l : List (Lane × List Byte)) : (sortKeys (selBefore f) l).Perm l ∧
    (f.key ≠ .f32 → (sortKeys (selBefore f) l).Pairwise fun x y => selBefore f y.1 x.1 = false) := by
  rw [sortKeys_eq]
  refine ⟨List.perm_insertionSort _ l, fun h => ?_⟩
  have : Std.Total fun x y : Lane × List Byte => selBefore f y.1 x.1 = false := ⟨fun x y => selBefore_total h x.1 y.1⟩
  have : IsTrans (Lane × List Byte) fun x y => selBefore f y.1 x.1 = false := ⟨fun _ _ _ hxy hyz => selBefore_trans h hxy hyz⟩
  exact List.pairwise_insertionSort _ l

theorem keySum_eq (key : SelKey) (ks : List Lane) :
    keySum key ks = if key = .f32 then sumFp (ks.map dec32) else BitVec.ofNat 32 (ks.map (·.toNat)).sum := by
  have hsum : ∀ (l : List Lane) (a : Lane), l.foldl (· + ·) a = a + BitVec.ofNat 32 (l.map (·.toNat)).sum := fun l => by
    induction l with
    | nil => exact fun a => (BitVec.add_zero a).symm
    | cons x l ih =>
      intro a
      rw [List.foldl_cons, ih, List.map_cons, List.sum_cons, BitVec.ofNat_add, BitVec.ofNat_toNat, BitVec.setWidth_eq, BitVec.add_assoc]
  cases key with
  | f32 => rfl
  | n32 => exact (hsum ks 0).trans (BitVec.zero_add _)
  | i32 => exact (hsum ks 0).trans (BitVec.zero_add _)

/-- Elements up to one, none of which begins a segment, add their keys to those seen. -/
theorem scanKeys_within {f : SelFlags} {l : List (Lane × List Byte)} {i : Nat} {x : Lane × List Byte} (seen : List Lane) (hx : l[i]? = some x)
    (hnone : f.seg = true → ∀ m ≤ i, payloadAt l m = 0) :
    (scanKeys f seen l)[i]? = some (keySum f.key (seen ++ (l.take (i + 1)).map (·.1)), x.2) := by
  induction l generalizing i seen with
  | nil => exact absurd hx (by simp)
  | cons y l ih =>
    obtain ⟨k, p⟩ := y
    have hfirst : (f.seg && leNat p != 0) = false := by
      cases hseg : f.seg with
      | false => rfl
      | true =>
        have hzero : leNat p = 0 := hnone hseg 0 (Nat.zero_le i)
        rw [hzero]
        rfl
    rw [scanKeys, hfirst, if_neg Bool.false_ne_true]
    cases i with
    | zero =>
      obtain rfl := Option.some.inj hx
      rfl
    | succ i =>
      rw [List.getElem?_cons_succ] at hx ⊢
      rw [ih (seen ++ [k]) hx fun hseg m hm => hnone hseg (m + 1) (by omega), List.take_succ_cons, List.map_cons, List.append_assoc]
      rfl

/-- From an element on that begins a segment only the keys of the segment count. -/
theorem scanKeys_from {f : SelFlags} {l : List (Lane × List Byte)} {i j : Nat} {x : Lane × List Byte} (seen : List Lane) (hx : l[i]? = some x) (hj : j ≤ i)
    (hseg : f.seg = true) (hstart : payloadAt l j ≠ 0) (hnone : ∀ m, j < m → m ≤ i → payloadAt l m = 0) :
    (scanKeys f seen l)[i]? = some (keySum f.key (((l.take (i + 1)).drop j).map (·.1)), x.2) := by
  induction l generalizing i j seen with
  | nil => exact absurd hx (by simp)
  | cons y l ih =>
    obtain ⟨k, p⟩ := y
    rw [scanKeys]
    cases j with
    | zero =>
      have hfirst : (f.seg && leNat p != 0) = true := by
        have hp : leNat p ≠ 0 := hstart
        rw [hseg, Bool.true_and, bne_iff_ne]
        exact hp
      rw [hfirst, if_pos rfl]
      cases i with
      | zero =>
        obtain rfl := Option.some.inj hx
        rfl
      | succ i =>
        rw [List.getElem?_cons_succ] at hx ⊢
        rw [scanKeys_within [k] hx fun _ m hm => hnone (m + 1) (by omega) (by omega)]
        rfl
    | succ j =>
      cases i with
      | zero => omega
      | succ i =>
        rw [List.getElem?_cons_succ] at hx ⊢
        rw [ih _ hx (by omega) hstart fun m hm hm' => hnone (m + 1) (by omega) (by omega), List.take_succ_cons, List.drop_succ_cons]

theorem scanKeys_sums (f : SelFlags) (l : List (Lane × List Byte)) (i j : Nat) (x : Lane × List Byte) (hx : l[i]? = some x) (hj : j ≤ i)
    (hstart : j = 0 ∨ (f.seg = true ∧ payloadAt l j ≠ 0)) (hnone : f.seg = true → ∀ m, j < m → m ≤ i → payloadAt l m = 0)
    (hall : f.seg = false → j = 0) :
    let keys := ((l.take (i + 1)).drop j).map (·.1)
    (scanKeys f [] l)[i]? = some (if f.key = .f32 then sumFp (keys.map dec32) else BitVec.ofNat 32 (keys.map (·.toNat)).sum, x.2) := by
  intro keys
  rw [← keySum_eq]
  by_cases hbegin : f.seg = true ∧ payloadAt l j ≠ 0
  · exact scanKeys_from [] hx hj hbegin.1 hbegin.2 (hnone hbegin.1)
  · obtain rfl : j = 0 := hstart.resolve_right hbegin
    refine scanKeys_within [] hx fun hseg m hm => ?_
    rcases Nat.eq_zero_or_pos m with rfl | hpos
    · exact not_not.mp fun h => hbegin ⟨hseg, h⟩
    · exact hnone hseg m hpos hm

/-! ## What an engine's step leaves (R202, R285) -/

theorem noteIdle_fields (d : Dev) (core : Nat) (kd : EngKind) :
    (d.noteIdle core kd).jobs = d.jobs ∧ (d.noteIdle core kd).waves = d.waves ∧ (d.noteIdle core kd).mem = d.mem ∧ (d.noteIdle core kd).locmem = d.locmem ∧
      ((d.noteIdle core kd).engine core kd).lut = (d.engine core kd).lut ∧ ((d.noteIdle core kd).engine core kd).slots = (d.engine core kd).slots := by
  rw [Dev.noteIdle]
  split
  · refine ⟨rfl, rfl, rfl, rfl, ?_, ?_⟩
    · rw [engine_modEngine d core kd]
    · rw [engine_modEngine d core kd]
  · exact ⟨rfl, rfl, rfl, rfl, rfl, rfl⟩

/-- A job has left its engine: it is gone, and the memories, the waves and the engine's tables are as before. -/
structure LeftDev (d e : Dev) (id core : Nat) (kd : EngKind) : Prop where
  gone : e.job? id = none
  waves : e.waves = d.waves
  mem : e.mem = d.mem
  locmem : e.locmem = d.locmem
  lut : (e.engine core kd).lut = (d.engine core kd).lut
  slots : (e.engine core kd).slots = (d.engine core kd).slots

theorem leaveEngine_leaves (d : Dev) (core : Nat) (kd : EngKind) (id t : Nat) : LeftDev d (d.leaveEngine core kd id t) id core kd := by
  rw [Dev.leaveEngine]
  obtain ⟨hjobs, hwaves, hmem, hlocmem, hlut, hslots⟩ := noteIdle_fields (d.endJob id t) core kd
  refine ⟨?_, hwaves, hmem, hlocmem, hlut, hslots⟩
  rw [Dev.job?, hjobs]
  exact job?_endJob (d := d) t

/-- A tile operation has ended: its wave keeps the time (R202). -/
def tileDone (t : Nat) (w : Wave) : Wave := { w with doneTl := max w.doneTl t }

theorem endTile_leaves (d : Dev) (core : Nat) (j : Job) (t : Nat) : ∃ x, x = d.modWave j.wave (tileDone t) ∧ LeftDev x (d.endTile core j t) j.id core .tile := by
  obtain ⟨hgone, hwaves, hmem, hlocmem, hlut, hslots⟩ :=
    leaveEngine_leaves ((d.modWave j.wave (tileDone t)).modBlock j.block fun b => { b with time := max b.time t }) core .tile j.id t
  exact ⟨_, rfl, hgone, hwaves, hmem, hlocmem, hlut, hslots⟩

theorem endTile_fields (d : Dev) (core : Nat) (j : Job) (t : Nat) : (d.endTile core j t).job? j.id = none ∧ (d.endTile core j t).mem = d.mem ∧
    (d.endTile core j t).locmem = d.locmem ∧ ((d.endTile core j t).engine core .tile).lut = (d.engine core .tile).lut ∧
    ∀ w, d.wave? j.wave = some w → (d.endTile core j t).wave? j.wave = some (tileDone t w) := by
  obtain ⟨x, hx, h⟩ := endTile_leaves d core j t
  refine ⟨h.gone, h.mem.trans (by rw [hx]; rfl), h.locmem.trans (by rw [hx]; rfl), h.lut.trans (by rw [hx]; rfl), fun w hw => ?_⟩
  rw [Dev.wave?, h.waves, hx]
  exact wave?_modWave_self (f := tileDone t) (fun _ => rfl) hw

/-- A table or select operation has ended: its wave keeps the time (R202). -/
def fxDone (t : Nat) (w : Wave) : Wave := { w with doneFx := max w.doneFx t }

theorem endFx_fields (d : Dev) (core : Nat) (kd : EngKind) (j : Job) (t : Nat) : (d.endFx core kd j t).job? j.id = none ∧
    (d.endFx core kd j t).mem = d.mem ∧ (d.endFx core kd j t).locmem = d.locmem ∧
    ((d.endFx core kd j t).engine core kd).slots = (d.engine core kd).slots ∧
    ∀ w, d.wave? j.wave = some w → (d.endFx core kd j t).wave? j.wave = some (fxDone t w) := by
  obtain ⟨hgone, hwaves, hmem, hlocmem, -, hslots⟩ :=
    leaveEngine_leaves ((d.modWave j.wave (fxDone t)).modBlock j.block fun b => { b with time := max b.time t }) core kd j.id t
  refine ⟨hgone, hmem, hlocmem, hslots, fun w hw => ?_⟩
  rw [Dev.wave?]
  refine (congrArg (fun l : List Wave => l.find? (·.id == j.wave)) hwaves).trans ?_
  exact wave?_modWave_self (f := fxDone t) (fun _ => rfl) hw

/-- The record of a `tmma` form's step, as its wave shows it (R216). -/
def tileRec (form : TmmaForm) (tok kb ks state commit : Nat) : TileRec :=
  ⟨state, 0x3F, match form with | .plain => 0 | .zero => 1 | .x2 => 2, tok, kb, ks, commit⟩

theorem setRec_fields (d : Dev) (wave : Nat) (o : TileOp) (state cause commit : Nat) :
    (d.setRec wave o state cause commit).jobs = d.jobs ∧ (d.setRec wave o state cause commit).mem = d.mem ∧
      (d.setRec wave o state cause commit).locmem = d.locmem ∧ (d.setRec wave o state cause commit).blocks = d.blocks ∧
      (d.setRec wave o state cause commit).servers = d.servers ∧ (d.setRec wave o state cause commit).clock = d.clock ∧
      (d.setRec wave o state cause commit).surge = d.surge := by
  cases o <;> exact ⟨rfl, rfl, rfl, rfl, rfl, rfl, rfl⟩

theorem setRec_wave {d : Dev} {w : Wave} {wave : Nat} (hw : d.wave? wave = some w) (form : TmmaForm) (f : Lane) (da aa ba mt nt kb ks tok state commit : Nat) :
    (d.setRec wave (.mma form f da aa ba mt nt kb ks tok) state 0x3F commit).wave? wave = some { w with trec := tileRec form tok kb ks state commit } := by
  have h := wave?_modWave_self (f := fun w : Wave => { w with trec := tileRec form tok kb ks state commit }) (fun _ => rfl) hw
  rw [← h]
  cases form <;> rfl

/-- The job at the head of a tile engine has begun its next step, and the turn is its context's. -/
def stepBegun (d : Dev) (m : Mgmt) (core : Nat) (h : Job) (o : TileOp) (pos : Nat) (stop : Option Nat) : Dev :=
  Dev.modJob { d with turns := upsert (·.1 == Point.tile core) (Point.tile core, h.ctx) (fun _ => (Point.tile core, h.ctx)) d.turns } h.id fun j =>
    { j with kind := .tile o pos (some (d.clock + m.islandTime d.clock core (o.cycles pos))) stop }

/-- Without servers the operation at the head begins its next step at once. -/
theorem beginStep_begins {d : Dev} {m : Mgmt} {core : Nat} {h : Job} {rest : List Job} {o : TileOp} {pos : Nat} {r stop : Option Nat} {ok : Job → Bool}
    (hservers : d.servers = []) (hjobs : d.engineJobs core .tile = h :: rest) (hkind : h.kind = .tile o pos r stop)
    (hwants : d.tileWants core = [(h.ctx, o.charge pos)]) (hok : ok h = true) (f : Dev → Job → Dev) :
    d.beginStep m core ok f = f (stepBegun d m core h o pos stop) h := by
  have hchosen : d.choose (.tile core) 0 [(h.ctx, o.charge pos)] (d.lastTurn (.tile core)) = some h.ctx :=
    choose_only hservers _ _ _ (List.cons_ne_nil _ _) fun w hw => by rw [List.mem_singleton.mp hw]
  rw [Dev.beginStep]
  dsimp only
  rw [syncPoint_none hservers, hwants, hchosen, hjobs]
  dsimp only
  rw [hkind]
  dsimp only
  rw [if_pos ⟨rfl, hok⟩, Dev.chargeAt, modServer_none hservers, Dev.noteTurn, server?_none hservers, Option.isSome_none, if_neg Bool.false_ne_true]
  rfl

theorem job?_of_jobs {d e : Dev} (h : e.jobs = d.jobs) (id : Nat) : e.job? id = d.job? id := by rw [Dev.job?, h, Dev.job?]

theorem stepBegun_fields (d : Dev) (m : Mgmt) (core : Nat) (h : Job) (o : TileOp) (pos : Nat) (stop : Option Nat) :
    (stepBegun d m core h o pos stop).mem = d.mem ∧ (stepBegun d m core h o pos stop).locmem = d.locmem ∧
      (stepBegun d m core h o pos stop).waves = d.waves ∧ (stepBegun d m core h o pos stop).surge = d.surge ∧
      (stepBegun d m core h o pos stop).clock = d.clock := ⟨rfl, rfl, rfl, rfl, rfl⟩

theorem job?_stepBegun {d : Dev} {h i : Job} (hi : d.job? h.id = some i) (m : Mgmt) (core : Nat) (o : TileOp) (pos : Nat) (stop : Option Nat) :
    (stepBegun d m core h o pos stop).job? h.id =
      some { i with kind := .tile o pos (some (d.clock + m.islandTime d.clock core (o.cycles pos))) stop } :=
  job?_modJob (d := { d with turns := upsert (·.1 == Point.tile core) (Point.tile core, h.ctx) (fun _ => (Point.tile core, h.ctx)) d.turns })
    (f := fun j => { j with kind := .tile o pos (some (d.clock + m.islandTime d.clock core (o.cycles pos))) stop }) (fun _ => rfl) hi

/-- What the arbiter of a start group notes when an operation starts, and the operation's record. -/
def started (core : Nat) (d : Dev) (j : Job) : Dev :=
  let g := surgeGroup core
  let d : Dev := { d with surge := assocPut d.surge g d.clock, surgeWait := d.surgeWait.filter (· != core) }
  let d := d.modEngine core .tile fun e => e.clearBefore j.id
  match j.kind with
  | .tile o pos _ _ => d.setRec j.wave o 1 0x3F pos
  | _ => d

theorem started_fields {d : Dev} {core : Nat} {j : Job} (hsurge : d.surge = []) : (started core d j).jobs = d.jobs ∧ (started core d j).mem = d.mem ∧
    (started core d j).locmem = d.locmem ∧ (started core d j).surge = [(surgeGroup core, d.clock)] := by
  have hput : assocPut d.surge (surgeGroup core) d.clock = [(surgeGroup core, d.clock)] := by
    rw [hsurge]
    rfl
  rw [started, hput]
  split
  next o pos _ _ _ =>
    obtain ⟨hjobs, hmem, hlocmem, -, -, -, hs⟩ := setRec_fields (Dev.modEngine { d with surge := [(surgeGroup core, d.clock)], surgeWait := d.surgeWait.filter (· != core) } core .tile
      fun e => e.clearBefore j.id) j.wave o 1 0x3F pos
    exact ⟨hjobs, hmem, hlocmem, hs⟩
  next => exact ⟨rfl, rfl, rfl, rfl⟩

theorem headReady_first {d : Dev} {core : Nat} {j : Job} {rest : List Job} {o : TileOp} {pos : Nat} (hjobs : d.engineJobs core .tile = j :: rest)
    (hkind : j.kind = .tile o pos none none) (hentered : j.entered = true) (hafter : j.after = []) (hst : (d.engine core .tile).st = .leased) :
    d.headReady core .tile = some j := by
  rw [Dev.headReady]
  dsimp only
  rw [hjobs]
  dsimp only
  rw [hst, Job.mayRun, hentered, hafter, Job.started, hkind]
  rfl

theorem tileOpStart_starts (s : State) (core : Nat) (j : Job) (rest : List Job) (o : TileOp) (pos : Nat) (hjobs : s.dev.engineJobs core .tile = j :: rest)
    (hj : s.dev.job? j.id = some j) (hkind : j.kind = .tile o pos none none) (hentered : j.entered = true) (hafter : j.after = [])
    (hst : (s.dev.engine core .tile).st = .leased) (hservers : s.dev.servers = []) (hsurge : s.dev.surge = [])
    (hwait : ∀ c ∈ s.dev.surgeWait, surgeGroup c = surgeGroup core → c = core) :
    ∃ t, exec (.tileOpStart core) s = .next t ∧
      t.dev.job? j.id = some { j with kind := .tile o pos (some (s.dev.clock + s.mgmt.islandTime s.dev.clock core (o.cycles pos))) none } ∧
      t.dev.surge = [(surgeGroup core, s.dev.clock)] ∧ t.dev.mem = s.dev.mem ∧ t.dev.locmem = s.dev.locmem := by
  have hready := headReady_first hjobs hkind hentered hafter hst
  have hwants : s.dev.tileWants core = [(j.ctx, o.charge pos)] := by
    rw [Dev.tileWants, hjobs]
    dsimp only
    rw [hkind]
    dsimp only
    rw [hready, Option.isSome_some, if_pos rfl]
  have hfirst : ((s.dev.surgeWait.find? fun c => surgeGroup c == surgeGroup core && (s.dev.headReady c .tile).isSome && s.dev.mayBegin c).any (· != core)) = false := by
    cases hfind : s.dev.surgeWait.find? fun c => surgeGroup c == surgeGroup core && (s.dev.headReady c .tile).isSome && s.dev.mayBegin c with
    | none => rfl
    | some c =>
      have hgroup := List.find?_some hfind
      simp only [Bool.and_eq_true, beq_iff_eq] at hgroup
      rw [hwait c (List.mem_of_find?_eq_some hfind) hgroup.1.1]
      simp
  have hexec : exec (.tileOpStart core) s = .next { s with dev := started core (stepBegun s.dev s.mgmt core j o pos none) j } := by
    change execTileOpStart core s = _
    rw [execTileOpStart, onDev]
    refine congrArg (fun d => Host.Outcome.next { s with dev := d }) ?_
    dsimp only
    rw [hready]
    simp only [hsurge, List.find?_nil, hfirst, Bool.not_true, Bool.or_false, Bool.false_eq_true, if_false]
    rw [beginStep_begins hservers hjobs hkind hwants (beq_self_eq_true j.id)]
    rfl
  obtain ⟨hmem, hlocmem, -, hsame, hclock⟩ := stepBegun_fields s.dev s.mgmt core j o pos none
  obtain ⟨hjobs', hmem', hlocmem', hsurge'⟩ := started_fields (core := core) (j := j) (hsame.trans hsurge)
  exact ⟨_, hexec, (job?_of_jobs hjobs' j.id).trans (job?_stepBegun hj s.mgmt core o pos none), hsurge'.trans (by rw [hclock]), hmem'.trans hmem, hlocmem'.trans hlocmem⟩

/-! ## The next step of an operation (R213) -/

/-- An operation of a tile engine waits between its steps. -/
def between (o : TileOp) (pos c : Nat) (j : Job) : Job := { j with kind := .tile o pos (some 0) none, clock := c }

/-- A job of a core's tile engine. -/
def atTile (d : Dev) (core : Nat) (j : Job) : Bool :=
  (match j.kind with | .tile .. => true | _ => false) && (d.block? j.block).any (·.core == core)

theorem engineJobs_tile (d : Dev) (core : Nat) : d.engineJobs core .tile = d.jobs.filter (atTile d core) := by
  refine List.filter_congr fun j _ => ?_
  rw [atTile]
  cases j.kind with
  | fx o _ => cases o <;> rfl
  | _ => rfl

/-- Where jobs of one number have been made tile jobs that wait, the first job of the engine is one of them. -/
theorem head_between {d : Dev} {core : Nat} {j : Job} {rest : List Job} (h : d.engineJobs core .tile = j :: rest) (o : TileOp) (pos c : Nat) :
    ∃ i rest', (d.modJob j.id (between o pos c)).engineJobs core .tile = i :: rest' ∧ i.id = j.id ∧ i.kind = .tile o pos (some 0) none := by
  rw [engineJobs_tile] at h ⊢
  have hsame : atTile (d.modJob j.id (between o pos c)) core = atTile d core := rfl
  rw [hsame]
  obtain ⟨hmem, htile⟩ := List.mem_filter.mp (show j ∈ d.jobs.filter (atTile d core) by rw [h]; exact List.mem_cons_self ..)
  have hmade : ∀ x : Job, (d.block? x.block).any (·.core == core) = true → atTile d core (between o pos c x) = true := fun x hx => by
    rw [atTile, between]
    exact hx
  have hblock : (d.block? j.block).any (·.core == core) = true := by
    rw [atTile, Bool.and_eq_true] at htile
    exact htile.2
  change ∃ i rest', (modIf (fun x => x.id == j.id) (between o pos c) d.jobs).filter (atTile d core) = i :: rest' ∧ _
  generalize d.jobs = L at h hmem
  clear hsame
  induction L with
  | nil => exact absurd hmem List.not_mem_nil
  | cons y L ih =>
    rw [modIf, List.map_cons]
    split
    next hid =>
      by_cases hy : (d.block? y.block).any (·.core == core) = true
      · exact ⟨_, _, List.filter_cons_of_pos (hmade y hy), eq_of_beq hid, rfl⟩
      · have hout : ¬ atTile d core y = true := fun hin => hy (by rw [atTile, Bool.and_eq_true] at hin; exact hin.2)
        have hout' : ¬ atTile d core (between o pos c y) = true := fun hin => hy (by rw [atTile, Bool.and_eq_true] at hin; exact hin.2)
        rw [List.filter_cons_of_neg hout']
        rw [List.filter_cons_of_neg hout] at h
        refine ih h ((List.mem_cons.mp hmem).resolve_left fun heq => hy (by rw [← heq]; exact hblock))
    next hid =>
      have hne : y ≠ j := fun heq => hid (by rw [heq]; exact beq_self_eq_true _)
      have hout : ¬ atTile d core y = true := fun hin => by
        rw [List.filter_cons_of_pos hin] at h
        exact hne (List.cons.inj h).1
      rw [List.filter_cons_of_neg hout]
      rw [List.filter_cons_of_neg hout] at h
      exact ih h ((List.mem_cons.mp hmem).resolve_left fun heq => hne heq.symm)

theorem exists_job? {d : Dev} {j : Job} (h : j ∈ d.jobs) : ∃ i, d.job? j.id = some i :=
  Option.isSome_iff_exists.mp (List.find?_isSome.mpr ⟨j, h, beq_self_eq_true j.id⟩)

/-- The arbiter of a tile engine lets the operation at its head begin its next step. -/
def nextStep (m : Mgmt) (core : Nat) (d : Dev) : Dev := d.beginStep m core (fun _ => true) fun d _ => d

/-- The running operation goes on: between its steps nothing of the memories changes, and its next step begins at once. -/
theorem goes_on {d : Dev} {m : Mgmt} {core : Nat} {j : Job} {rest : List Job} (hjobs : d.engineJobs core .tile = j :: rest) (hservers : d.servers = [])
    (o : TileOp) (pos c : Nat) {y : Dev} (hy : y.jobs = (d.modJob j.id (between o pos c)).jobs) (hblocks : y.blocks = d.blocks) (hys : y.servers = d.servers)
    (hclock : y.clock = d.clock) :
    ∃ e i, nextStep m core y = e ∧ e.mem = y.mem ∧ e.locmem = y.locmem ∧ e.waves = y.waves ∧ e.job? j.id = some i ∧
      i.clock = c ∧ i.kind = .tile o pos (some (d.clock + m.islandTime d.clock core (o.cycles pos))) none := by
  obtain ⟨h, rest', hhead, hid, hkind⟩ := head_between hjobs o pos c
  have hhead' : y.engineJobs core .tile = h :: rest' := by
    rw [← hhead, engineJobs_tile, engineJobs_tile, hy]
    have hsame : atTile y core = atTile (d.modJob j.id (between o pos c)) core := by
      funext x
      rw [atTile, Dev.block?, hblocks]
      rfl
    rw [hsame]
  have hwants : y.tileWants core = [(h.ctx, o.charge pos)] := by
    rw [Dev.tileWants, hhead']
    dsimp only
    rw [hkind]
    rfl
  obtain ⟨i, hi⟩ : ∃ i, d.job? j.id = some i := exists_job? (List.mem_of_mem_filter (show j ∈ d.jobs.filter _ from by
    change j ∈ d.engineJobs core .tile
    rw [hjobs]
    exact List.mem_cons_self ..))
  have hi' : y.job? h.id = some (between o pos c i) := by
    rw [hid, job?_of_jobs hy]
    exact job?_modJob (f := between o pos c) (fun _ => rfl) hi
  obtain ⟨hmem, hlocmem, hwaves, -, -⟩ := stepBegun_fields y m core h o pos none
  refine ⟨stepBegun y m core h o pos none, _, beginStep_begins (hys.trans hservers) hhead' hkind hwants rfl _, hmem, hlocmem, hwaves,
    (congrArg _ hid.symm).trans (job?_stepBegun hi' m core o pos none), rfl, ?_⟩
  rw [hclock]

/-! ## Products and sums of K-blocks (R65, R212) -/

theorem readRows_reads (core : Nat) (sp : Space) (stride n m : Nat) (base c : Nat) (d : Dev) (h : d.poison = []) :
    ∃ e t, d.readRows core sp base stride n m c = (e, t, some ((List.range m).map fun i => cellRead (d.locCells core sp) (base + i * stride) n)) ∧
      TimedDev d e ∧ c ≤ t := by
  induction m generalizing base c d with
  | zero => exact ⟨d, c, rfl, .refl d, le_refl c⟩
  | succ m ih =>
    obtain ⟨e, t, hone, he, ht⟩ := readBuf_reads core sp h base n c
    obtain ⟨x, u, hrest, hx, hu⟩ := ih (base + stride) t e (he.poison.trans h)
    refine ⟨x, u, ?_, he.trans hx, ht.trans hu⟩
    rw [Dev.readRows, hone]
    dsimp only
    rw [hrest, List.range_succ_eq_map, List.map_cons, List.map_map, Nat.zero_mul, Nat.add_zero]
    have hrow : ∀ i, base + stride + i * stride = base + (i + 1) * stride := fun i => by rw [Nat.succ_mul]; omega
    simp only [hrow, he.locCells]
    rfl

theorem length_addBlock (lut : List Lane) (f : Lane) (rows cols : List (List Byte)) (acc : List Lane) :
    (addBlock lut f rows cols acc).length = min acc.length (rows.length * cols.length) := by
  rw [addBlock]
  simp only [List.length_zipWith, List.length_flatMap, List.length_map, List.map_const', List.sum_replicate, smul_eq_mul]

theorem length_leBytes_flatMap (l : List Lane) : (l.flatMap fun x => leBytes 4 x.toNat).length = 4 * l.length := by
  induction l with
  | nil => rfl
  | cons x l ih => rw [List.flatMap_cons, List.length_append, leBytes_length, ih, List.length_cons]; omega

section
variable {s : State} {b : Block} {lut : List Lane} {f : Lane} {aa ba mt nt kb : Nat}

/-- K-blocks added one after the other. -/
def blocksAdded (s : State) (b : Block) (lut : List Lane) (f : Lane) (aa ba mt nt kb : Nat) (l : List Nat) (acc : List Lane) : List Lane :=
  l.foldl (fun acc pos => blockAdded s b lut f aa ba mt nt kb pos acc) acc

theorem length_blocksAdded (l : List Nat) {acc : List Lane} (h : acc.length = 256 * mt * nt) :
    (blocksAdded s b lut f aa ba mt nt kb l acc).length = 256 * mt * nt := by
  induction l generalizing acc with
  | nil => exact h
  | cons x l ih =>
    refine ih ?_
    refine (length_addBlock ..).trans ?_
    rw [h, List.length_map, List.length_map, List.length_range, List.length_range]
    have hsize : 16 * mt * (16 * nt) = 256 * mt * nt := by ring
    omega

theorem mmaBlocks_adds {l : List Nat} {d : Dev} (hd : TimedDev s.dev d) (hp : s.dev.poison = []) (c : Nat) (acc : List Lane) :
    ∃ e t, d.mmaBlocks b lut f aa ba (16 * mt) (16 * nt) kb l c acc = (e, t, some (blocksAdded s b lut f aa ba mt nt kb l acc)) ∧ TimedDev d e ∧ c ≤ t := by
  induction l generalizing d c acc with
  | nil => exact ⟨d, c, rfl, .refl d, le_refl c⟩
  | cons x l ih =>
    obtain ⟨e, t, hrows, he, ht⟩ := readRows_reads b.core .abuf (kb * fmtBytes (fmtA f) (scA f)) (fmtBytes (fmtA f) (scA f)) (16 * mt)
      (b.abuf.base + aa + x * fmtBytes (fmtA f) (scA f)) c d (hd.poison.trans hp)
    obtain ⟨e', t', hcols, he', ht'⟩ := readRows_reads b.core .wbuf (kb * fmtBytes (fmtB f) (scB f)) (fmtBytes (fmtB f) (scB f)) (16 * nt)
      (b.wbuf.base + ba + x * fmtBytes (fmtB f) (scB f)) t e ((hd.trans he).poison.trans hp)
    have hadd : addBlock lut f
        ((List.range (16 * mt)).map fun i => cellRead (d.locCells b.core .abuf)
          (b.abuf.base + aa + x * fmtBytes (fmtA f) (scA f) + i * (kb * fmtBytes (fmtA f) (scA f))) (fmtBytes (fmtA f) (scA f)))
        ((List.range (16 * nt)).map fun i => cellRead (e.locCells b.core .wbuf)
          (b.wbuf.base + ba + x * fmtBytes (fmtB f) (scB f) + i * (kb * fmtBytes (fmtB f) (scB f))) (fmtBytes (fmtB f) (scB f))) acc =
        blockAdded s b lut f aa ba mt nt kb x acc := by
      have hplace : ∀ p q i n : Nat, p + q + x * n + i * (kb * n) = p + q + (i * kb + x) * n := fun p q i n => by ring
      rw [hd.locCells, (hd.trans he).locCells]
      simp only [hplace]
      rfl
    obtain ⟨z, u, hrest, hz, hu⟩ := ih ((hd.trans he).trans he') t' (blockAdded s b lut f aa ba mt nt kb x acc)
    refine ⟨z, u, ?_, (he.trans he').trans hz, (ht.trans ht').trans hu⟩
    rw [Dev.mmaBlocks, hrows]
    dsimp only
    rw [hcols]
    dsimp only
    rw [hadd, hrest]
    rfl

end

theorem lanesOfBytes_cells {m : List Host.Cell} {a n k i : Nat} (h : 4 * (i + k) ≤ n) :
    lanesOfBytes k ((cellRead m a n).drop (4 * i)) = (List.range k).map fun u => BitVec.ofNat 32 (leNat (cellRead m (a + 4 * i + 4 * u) 4)) := by
  refine List.map_congr_left fun u hu => ?_
  have hlt := List.mem_range.mp hu
  rw [lane32, field, List.drop_drop, cellRead_part (by omega), Nat.add_assoc a]

/-- The accumulator values that a range holds. -/
theorem lanesOfBytes_acc {s : State} (hp : s.dev.poison = []) (b : Block) (da n : Nat) :
    lanesOfBytes n (cellRead (s.dev.locCells b.core .acc) (b.acc.base + da) (4 * n)) = accAt s b da n := by
  have h := lanesOfBytes_cells (m := s.dev.locCells b.core .acc) (a := b.acc.base + da) (n := 4 * n) (k := n) (i := 0) (by omega)
  rw [Nat.mul_zero, List.drop_zero, Nat.add_zero] at h
  rw [h, accAt]
  simp only [readLoc_clean hp]

theorem lanesOfBytes_zero (n : Nat) : lanesOfBytes n (List.replicate (4 * n) 0) = List.replicate n 0 := by
  rw [lanesOfBytes]
  refine List.eq_replicate_iff.mpr ⟨by rw [List.length_map, List.length_range], fun x hx => ?_⟩
  obtain ⟨i, hi, rfl⟩ := List.mem_map.mp hx
  have hlt := List.mem_range.mp hi
  rw [field, List.drop_replicate, List.take_replicate, show min 4 (4 * n - 4 * i) = 4 by omega]
  rfl

theorem length_accAt (s : State) (b : Block) (da n : Nat) : (accAt s b da n).length = n := by rw [accAt, List.length_map, List.length_range]

/-- What a step of a `tmma` form starts from. -/
def accStart (s : State) (b : Block) (form : TmmaForm) (da mt nt ks pos : Nat) : List Lane :=
  if form = .zero ∧ pos = ks then List.replicate (256 * mt * nt) 0 else accAt s b da (256 * mt * nt)

theorem mmaStep_adds {s : State} (hm : s.dev.cellsOk) (hp : s.dev.poison = []) (b : Block) (lut : List Lane) (form : TmmaForm) (f : Lane)
    (da aa ba mt nt kb ks pos c : Nat) (l : List Nat) :
    ∃ e t, s.dev.mmaStep b lut form f da aa ba mt nt kb ks pos c l = (e, t, true) ∧ FilledDev b.core .acc s.dev e ∧ c ≤ t ∧
      (e.readLoc b.core .acc (b.acc.base + da) (1024 * mt * nt)).1 =
        (blocksAdded s b lut f aa ba mt nt kb l (accStart s b form da mt nt ks pos)).flatMap fun x => leBytes 4 x.toNat := by
  obtain ⟨x, t, bs, hstart, hx, ht, hlanes⟩ : ∃ x t bs,
      (if form = .zero ∧ pos = ks then (s.dev, c, some (List.replicate (4 * (256 * mt * nt)) 0))
        else s.dev.readBuf b.core .acc (b.acc.base + da) (4 * (256 * mt * nt)) c) = (x, t, some bs) ∧ TimedDev s.dev x ∧ c ≤ t ∧
      lanesOfBytes (256 * mt * nt) bs = accStart s b form da mt nt ks pos := by
    rw [accStart]
    split
    · exact ⟨_, _, _, rfl, .refl _, le_refl c, lanesOfBytes_zero _⟩
    · obtain ⟨x, t, hread, hx, ht⟩ := readBuf_reads b.core .acc hp (b.acc.base + da) (4 * (256 * mt * nt)) c
      exact ⟨x, t, _, hread, hx, ht, lanesOfBytes_acc hp b da _⟩
  obtain ⟨y, u, hblocks, hy, hu⟩ := mmaBlocks_adds (s := s) (b := b) (lut := lut) (f := f) (aa := aa) (ba := ba) (mt := mt) (nt := nt) (kb := kb) (l := l) hx hp t
    (accStart s b form da mt nt ks pos)
  generalize hacc : blocksAdded s b lut f aa ba mt nt kb l (accStart s b form da mt nt ks pos) = acc at hblocks ⊢
  have hlen : acc.length = 256 * mt * nt := by
    rw [← hacc]
    refine length_blocksAdded l ?_
    rw [accStart]
    split
    · exact List.length_replicate
    · exact length_accAt _ _ _ _
  obtain ⟨z, v, hwrite, hz, hcells, hv⟩ := writeBuf_fills b.core .acc y (b.acc.base + da) u (acc.flatMap fun x => leBytes 4 x.toNat)
  have hsame : TimedDev s.dev y := hx.trans hy
  refine ⟨z, v, ?_, ?_, (ht.trans hu).trans hv, ?_⟩
  · rw [Dev.mmaStep]
    dsimp only
    rw [hstart]
    dsimp only
    rw [hlanes, hblocks]
    dsimp only
    rw [hwrite]
  · refine FilledDev.trans b.core .acc ⟨?_, fun q _ => hsame.locCells _ _, fun h => hsame.poison.trans h, fun h => ?_⟩ hz
    · rw [hsame]
    · rw [hsame]
      exact h
  · have hwf : y.cellsOk := by
      rw [hsame]
      exact hm
    have hsize : (acc.flatMap fun x => leBytes 4 x.toNat).length = 1024 * mt * nt := by
      rw [length_leBytes_flatMap, hlen]
      ring
    rw [← hsize]
    exact readLoc_filled b.core .acc hwf hcells

/-! ## The steps of tile operations (R212, R213, R217, R218) -/

theorem blocks_mma (form : TmmaForm) (f : Lane) (da aa ba mt nt kb ks tok pos : Nat) :
    TileOp.blocks (.mma form f da aa ba mt nt kb ks tok) pos = if form = .x2 ∧ pos + 1 < kb then [pos, pos + 1] else [pos] := by
  cases form with
  | x2 => simp [TileOp.blocks]
  | plain => rfl
  | zero => rfl

theorem blockAdded_foldl (s : State) (b : Block) (lut : List Lane) (f : Lane) (aa ba mt nt kb pos : Nat) (two : Prop) [Decidable two] (acc : List Lane) :
    blocksAdded s b lut f aa ba mt nt kb (if two then [pos, pos + 1] else [pos]) acc =
      if two then blockAdded s b lut f aa ba mt nt kb (pos + 1) (blockAdded s b lut f aa ba mt nt kb pos acc)
      else blockAdded s b lut f aa ba mt nt kb pos acc := by
  split <;> rfl

theorem FilledDev.fields {core : Nat} {sp : Space} {d e : Dev} (h : FilledDev core sp d e) : e.jobs = d.jobs ∧ e.waves = d.waves ∧ e.mem = d.mem ∧
    e.blocks = d.blocks ∧ e.servers = d.servers ∧ e.clock = d.clock := by
  rw [h.rest]
  exact ⟨rfl, rfl, rfl, rfl, rfl, rfl⟩

theorem engineJobs_of {d e : Dev} (hjobs : e.jobs = d.jobs) (hblocks : e.blocks = d.blocks) (core : Nat) (kd : EngKind) :
    e.engineJobs core kd = d.engineJobs core kd := by
  rw [Dev.engineJobs, hjobs, Dev.engineJobs]
  simp only [Dev.block?, hblocks]

theorem readLoc_of {d e : Dev} (h : e.locmem = d.locmem) (core : Nat) (sp : Space) (a n : Nat) : (e.readLoc core sp a n).1 = (d.readLoc core sp a n).1 := by
  change cellRead (e.locCells core sp) a n = cellRead (d.locCells core sp) a n
  rw [Dev.locCells, h, Dev.locCells]

section
variable {s : State} {core : Nat} {j : Job} {b : Block} {w : Wave} {form : TmmaForm} {f : Lane} {da aa ba mt nt kb ks tok pos till : Nat}
  (hrun : s.dev.runningTile core = some (j, .mma form f da aa ba mt nt kb ks tok, pos, till, none)) (hpos : 0 < till) (htill : till ≤ s.dev.clock)
  (hb : s.dev.block? j.block = some b) {e : Dev} {c : Nat} {l : List Nat} (hl : TileOp.blocks (.mma form f da aa ba mt nt kb ks tok) pos = l)
  (hstep : s.dev.mmaStep b (s.dev.engine core .tile).lut form f da aa ba mt nt kb ks pos j.clock l = (e, c, true))
include hrun hpos htill hb hl hstep

theorem tileCommit_ends (hover : kb ≤ pos + l.length) :
    exec (.tileCommit core) s =
      .next { s with dev := (e.setRec j.wave (.mma form f da aa ba mt nt kb ks tok) 2 0x3F (pos + l.length)).endTile core { j with clock := c } c } := by
  change execTileCommit core s = _
  rw [execTileCommit, onDev, hrun]
  refine congrArg (fun d => Host.Outcome.next { s with dev := d }) ?_
  dsimp only
  rw [if_neg (Nat.pos_iff_ne_zero.mp hpos), if_neg (Nat.not_lt.mpr htill), hb]
  dsimp only
  rw [hl, hstep]
  dsimp only
  rw [if_pos hover]

theorem tileCommit_goes (hmore : ¬ kb ≤ pos + l.length) :
    exec (.tileCommit core) s = .next { s with dev := nextStep s.mgmt core ((e.modJob j.id
      (between (.mma form f da aa ba mt nt kb ks tok) (pos + l.length) c)).setRec j.wave (.mma form f da aa ba mt nt kb ks tok) 1 0x3F (pos + l.length)) } := by
  change execTileCommit core s = _
  rw [execTileCommit, onDev, hrun]
  refine congrArg (fun d => Host.Outcome.next { s with dev := d }) ?_
  dsimp only
  rw [if_neg (Nat.pos_iff_ne_zero.mp hpos), if_neg (Nat.not_lt.mpr htill), hb]
  dsimp only
  rw [hl, hstep]
  dsimp only
  rw [if_neg hmore]
  rfl

end

theorem wave?_of_waves {d e : Dev} (h : e.waves = d.waves) (n : Nat) : e.wave? n = d.wave? n := by rw [Dev.wave?, h, Dev.wave?]

theorem tileCommit_commits (s : State) (core : Nat) (j : Job) (b : Block) (w : Wave) (form : TmmaForm) (f : Lane)
    (da aa ba mt nt kb ks tok pos till : Nat) (hm : memOk s) (hrun : s.dev.runningTile core = some (j, .mma form f da aa ba mt nt kb ks tok, pos, till, none))
    (hpos : 0 < till) (htill : till ≤ s.dev.clock) (hb : s.dev.block? j.block = some b) (hw : s.dev.wave? j.wave = some w) (hp : s.dev.poison = [])
    (hhead : kb ≤ (if form = .x2 ∧ pos + 1 < kb then pos + 2 else pos + 1) ∨ HeadOf s core j) :
    let next := if form = .x2 ∧ pos + 1 < kb then pos + 2 else pos + 1
    let adds := blockAdded s b (s.dev.engine core .tile).lut f aa ba mt nt kb
    ∃ t w', exec (.tileCommit core) s = .next t ∧ t.dev.mem = s.dev.mem ∧
      (t.dev.readLoc b.core .acc (b.acc.base + da) (1024 * mt * nt)).1 =
        (if form = .x2 ∧ pos + 1 < kb then adds (pos + 1) (adds pos (accStart s b form da mt nt ks pos))
          else adds pos (accStart s b form da mt nt ks pos)).flatMap (fun x => leBytes 4 x.toNat) ∧
      t.dev.wave? j.wave = some w' ∧ w'.trec = tileRec form tok kb ks (if kb ≤ next then 2 else 1) next ∧
      if kb ≤ next then t.dev.job? j.id = none else StepBegun s t core j (.mma form f da aa ba mt nt kb ks tok) next := by
  intro next adds
  obtain ⟨e, c, hstep, hfilled, hc, hacc⟩ := mmaStep_adds hm hp b (s.dev.engine core .tile).lut form f da aa ba mt nt kb ks pos j.clock
    (if form = .x2 ∧ pos + 1 < kb then [pos, pos + 1] else [pos])
  obtain ⟨hjobs, hwaves, hmem, hblocks, hservers, hclock⟩ := hfilled.fields
  rw [blockAdded_foldl] at hacc
  have hnext : pos + (if form = .x2 ∧ pos + 1 < kb then [pos, pos + 1] else [pos]).length = next := by
    change _ = if form = .x2 ∧ pos + 1 < kb then pos + 2 else pos + 1
    split <;> rfl
  have hwe : e.wave? j.wave = some w := (wave?_of_waves hwaves _).trans hw
  have hl := blocks_mma form f da aa ba mt nt kb ks tok pos
  by_cases hover : kb ≤ next
  · have hexec := tileCommit_ends hrun hpos htill hb hl hstep (hnext ▸ hover)
    rw [hnext] at hexec
    generalize hy : e.setRec j.wave (.mma form f da aa ba mt nt kb ks tok) 2 0x3F next = y at hexec
    obtain ⟨-, hymem, hylocmem, -, -, -, -⟩ := setRec_fields e j.wave (.mma form f da aa ba mt nt kb ks tok) 2 0x3F next
    have hywave := setRec_wave hwe form f da aa ba mt nt kb ks tok 2 next
    rw [hy] at hymem hylocmem hywave
    obtain ⟨hgone, htmem, htlocmem, -, htwave⟩ := endTile_fields y core { j with clock := c } c
    refine ⟨_, _, hexec, htmem.trans (hymem.trans hmem), (readLoc_of (htlocmem.trans hylocmem) ..).trans hacc, htwave _ hywave, ?_, ?_⟩
    · rw [if_pos hover]
      rfl
    · rw [if_pos hover]
      exact hgone
  · have hexec := tileCommit_goes hrun hpos htill hb hl hstep (hnext ▸ hover)
    rw [hnext] at hexec
    obtain ⟨⟨rest, hqueue⟩, hnone⟩ := hhead.resolve_left hover
    generalize hy : (e.modJob j.id (between (.mma form f da aa ba mt nt kb ks tok) next c)).setRec j.wave (.mma form f da aa ba mt nt kb ks tok) 1 0x3F next = y at hexec
    obtain ⟨hyjobs, hymem, hylocmem, hyblocks, hyservers, hyclock, -⟩ :=
      setRec_fields (e.modJob j.id (between (.mma form f da aa ba mt nt kb ks tok) next c)) j.wave (.mma form f da aa ba mt nt kb ks tok) 1 0x3F next
    have hywave := setRec_wave (d := e.modJob j.id (between (.mma form f da aa ba mt nt kb ks tok) next c)) hwe form f da aa ba mt nt kb ks tok 1 next
    rw [hy] at hyjobs hymem hylocmem hyblocks hyservers hyclock hywave
    obtain ⟨z, i, hbegin, hzmem, hzlocmem, hzwaves, hi, hiclock, hikind⟩ := goes_on (m := s.mgmt) ((engineJobs_of hjobs hblocks core .tile).trans hqueue) (hservers.trans hnone)
      (.mma form f da aa ba mt nt kb ks tok) next c hyjobs hyblocks hyservers hyclock
    rw [hbegin] at hexec
    refine ⟨_, _, hexec, hzmem.trans (hymem.trans hmem), (readLoc_of (hzlocmem.trans hylocmem) ..).trans hacc, (wave?_of_waves hzwaves _).trans hywave, ?_, ?_⟩
    · rw [if_neg hover]
    · rw [if_neg hover]
      exact ⟨i, hi, hiclock ▸ hc, by rw [hikind, hclock]⟩

theorem flatMap_leBytes_length (n : Nat) (g : Lane → Nat) (l : List Lane) : (l.flatMap fun x => leBytes n (g x)).length = n * l.length := by
  induction l with
  | nil => rfl
  | cons x l ih => rw [List.flatMap_cons, List.length_append, leBytes_length, ih, List.length_cons, Nat.mul_succ, Nat.add_comm]

theorem tzero_zeroes (s : State) (core : Nat) (j : Job) (b : Block) (da mt nt till : Nat) (stop : Option Nat) (hm : memOk s)
    (hrun : s.dev.runningTile core = some (j, .zero da mt nt, 0, till, stop)) (hpos : 0 < till) (htill : till ≤ s.dev.clock)
    (hb : s.dev.block? j.block = some b) (hx : (s.dev.ctx? j.ctx).isSome = true) :
    ∃ t, exec (.tcvtStep core) s = .next t ∧ t.dev.job? j.id = none ∧ t.dev.mem = s.dev.mem ∧
      (t.dev.readLoc b.core .acc (b.acc.base + da) (1024 * mt * nt)).1 = List.replicate (1024 * mt * nt) 0 := by
  obtain ⟨x, hctx⟩ := Option.isSome_iff_exists.mp hx
  obtain ⟨e, c, hwrite, hfilled, hcells, -⟩ := writeBuf_fills b.core .acc s.dev (b.acc.base + da) j.clock (List.replicate (1024 * mt * nt) 0)
  obtain ⟨-, -, hmem, -, -, -⟩ := hfilled.fields
  have hexec : exec (.tcvtStep core) s = .next { s with dev := e.endTile core j c } := by
    change execTcvtStep core s = _
    rw [execTcvtStep, onDev, hrun]
    refine congrArg (fun d => Host.Outcome.next { s with dev := d }) ?_
    dsimp only
    rw [if_neg (by omega), hb, hctx]
    dsimp only
    rw [hwrite]
  obtain ⟨hgone, htmem, htlocmem, -, -⟩ := endTile_fields e core j c
  refine ⟨_, hexec, hgone, htmem.trans hmem, (readLoc_of htlocmem ..).trans ?_⟩
  have hread := readLoc_filled b.core .acc hm hcells
  rwa [List.length_replicate] at hread

theorem tcvt_converts (s : State) (core : Nat) (j : Job) (b : Block) (f : TcvtForm) (ba da mt nt pos till : Nat) (sc : Int) (stop : Option Nat) (hm : memOk s)
    (hrun : s.dev.runningTile core = some (j, .cvt f ba da mt nt sc, pos, till, stop)) (hpos : 0 < till) (htill : till ≤ s.dev.clock)
    (hb : s.dev.block? j.block = some b) (hx : (s.dev.ctx? j.ctx).isSome = true) (hp : s.dev.poison = [])
    (hhead : 256 * mt * nt ≤ pos + min 4096 (256 * mt * nt - pos) ∨ HeadOf s core j) :
    let n := min 4096 (256 * mt * nt - pos)
    ∃ t, exec (.tcvtStep core) s = .next t ∧ t.dev.mem = s.dev.mem ∧
      (t.dev.readLoc b.core .abuf (b.abuf.base + ba + cvtBytes f * pos) (cvtBytes f * n)).1 =
        ((accAt s b (da + 4 * pos) n).flatMap fun x => leBytes (cvtBytes f) (cvtAcc f sc x)) ∧
      if 256 * mt * nt ≤ pos + n then t.dev.job? j.id = none else StepBegun s t core j (.cvt f ba da mt nt sc) (pos + n) := by
  intro n
  obtain ⟨x, hctx⟩ := Option.isSome_iff_exists.mp hx
  obtain ⟨y, u, hread, hy, hu⟩ := readBuf_reads b.core .acc hp (b.acc.base + da + 4 * pos) (4 * n) j.clock
  have hlanes : lanesOfBytes n (cellRead (s.dev.locCells b.core .acc) (b.acc.base + da + 4 * pos) (4 * n)) = accAt s b (da + 4 * pos) n := by
    rw [Nat.add_assoc]
    exact lanesOfBytes_acc hp b (da + 4 * pos) n
  obtain ⟨e, c, hwrite, hfilled, hcells, hc⟩ := writeBuf_fills b.core .abuf y (b.abuf.base + ba + cvtBytes f * pos) u
    ((accAt s b (da + 4 * pos) n).flatMap fun x => leBytes (cvtBytes f) (cvtAcc f sc x))
  have hfields : y.jobs = s.dev.jobs ∧ y.mem = s.dev.mem ∧ y.blocks = s.dev.blocks ∧ y.servers = s.dev.servers ∧ y.clock = s.dev.clock ∧ y.cellsOk := by
    rw [hy]
    exact ⟨rfl, rfl, rfl, rfl, rfl, hm⟩
  obtain ⟨hyjobs, hymem, hyblocks, hyservers, hyclock, hywf⟩ := hfields
  obtain ⟨hjobs, -, hmem, hblocks, hservers, hclock⟩ := hfilled.fields
  have hout : (e.readLoc b.core .abuf (b.abuf.base + ba + cvtBytes f * pos) (cvtBytes f * n)).1 =
      (accAt s b (da + 4 * pos) n).flatMap fun x => leBytes (cvtBytes f) (cvtAcc f sc x) := by
    have h := readLoc_filled b.core .abuf hywf hcells
    rwa [flatMap_leBytes_length, length_accAt] at h
  have hexec : exec (.tcvtStep core) s = .next { s with dev := (if 256 * mt * nt ≤ pos + n then e.endTile core { j with clock := c } c
      else nextStep s.mgmt core (e.modJob j.id (between (.cvt f ba da mt nt sc) (pos + n) c))) } := by
    change execTcvtStep core s = _
    rw [execTcvtStep, onDev, hrun]
    refine congrArg (fun d => Host.Outcome.next { s with dev := d }) ?_
    dsimp only
    rw [if_neg (by omega), hb, hctx]
    dsimp only
    rw [hread]
    dsimp only
    rw [hlanes, hwrite]
    rfl
  by_cases hover : 256 * mt * nt ≤ pos + n
  · rw [if_pos hover] at hexec
    obtain ⟨hgone, htmem, htlocmem, -, -⟩ := endTile_fields e core { j with clock := c } c
    refine ⟨_, hexec, htmem.trans (hmem.trans hymem), (readLoc_of htlocmem ..).trans hout, ?_⟩
    rw [if_pos hover]
    exact hgone
  · rw [if_neg hover] at hexec
    obtain ⟨⟨rest, hqueue⟩, hnone⟩ := hhead.resolve_left hover
    obtain ⟨z, i, hbegin, hzmem, hzlocmem, -, hi, hiclock, hikind⟩ := goes_on (m := s.mgmt)
      ((engineJobs_of (hjobs.trans hyjobs) (hblocks.trans hyblocks) core .tile).trans hqueue) (hservers.trans (hyservers.trans hnone))
      (.cvt f ba da mt nt sc) (pos + n) c (y := e.modJob j.id (between (.cvt f ba da mt nt sc) (pos + n) c)) rfl rfl rfl rfl
    rw [hbegin] at hexec
    refine ⟨_, hexec, hzmem.trans (hmem.trans hymem), (readLoc_of hzlocmem ..).trans hout, ?_⟩
    rw [if_neg hover]
    exact ⟨i, hi, hiclock ▸ hu.trans hc, by rw [hikind, hclock, hyclock]⟩

/-! ## Images (R218, R219) -/

theorem flatMap_pieces (bytes : List Byte) (unit k off va n : Nat) (hunit : 0 < unit) (hk : n ≤ k) :
    (spansFrom unit k off va n).flatMap (fun sp => (bytes.drop sp.off).take sp.n) = (bytes.drop off).take n := by
  induction k generalizing off va n with
  | zero =>
    obtain rfl : n = 0 := by omega
    rw [spansFrom, List.flatMap_nil, List.take_zero]
  | succ k ih =>
    rw [spansFrom]
    split
    next hn => rw [hn, List.flatMap_nil, List.take_zero]
    next hn =>
      dsimp only
      have hlt : va % unit < unit := Nat.mod_lt _ hunit
      generalize hm : min n (unit - va % unit) = m
      rw [List.flatMap_cons, ih _ _ _ (by omega)]
      have hsplit : n = m + (n - m) := by omega
      conv_rhs => rw [hsplit, List.take_add, List.drop_drop]

/-- An image that lies here is read whole. -/
theorem image_reads {s : State} {core : Nat} {x : Ctx} {va : Nat} {bytes : List Byte} (h : ImageAt s core x va bytes) (owner clock : Nat) :
    ∃ e u, s.dev.reachRead core x owner 32 va bytes.length clock 1 = (e, .ok u bytes) ∧ e.mem = s.dev.mem ∧ e.locmem = s.dev.locmem ∧ e.jobs = s.dev.jobs ∧
      e.waves = s.dev.waves ∧ e.blocks = s.dev.blocks ∧ e.engines = s.dev.engines := by
  have hat : SpansAt s.dev core x (fun sp => (bytes.drop sp.off).take sp.n) (spans 32 va bytes.length) := fun sp hsp => by
    obtain ⟨pa, hplace, -, hread⟩ := h sp hsp
    exact ⟨pa, hplace, hread⟩
  obtain ⟨e, u, hreads, hloaded, -, -⟩ := reachList_reads hat owner 0 clock 1
  have hall : (spans 32 va bytes.length).flatMap (fun sp => (bytes.drop sp.off).take sp.n) = bytes := by
    rw [spans, flatMap_pieces bytes 32 bytes.length 0 va bytes.length (by decide) le_rfl, List.drop_zero, List.take_length]
  rw [hall] at hreads
  have hfields : e.mem = s.dev.mem ∧ e.locmem = s.dev.locmem ∧ e.jobs = s.dev.jobs ∧ e.waves = s.dev.waves ∧ e.blocks = s.dev.blocks ∧ e.engines = s.dev.engines := by
    rw [hloaded]
    exact ⟨rfl, rfl, rfl, rfl, rfl, rfl⟩
  obtain ⟨hmem, hlocmem, hjobs, hwaves, hblocks, hengines⟩ := hfields
  refine ⟨e.dropReplies owner, u, ?_, hmem, hlocmem, hjobs, hwaves, hblocks, hengines⟩
  rw [Dev.reachRead, Dev.reachFrom, hreads]

theorem lanesOfBytes_eq (n : Nat) (bs : List Byte) : lanesOfBytes n bs = (List.range n).map fun i => BitVec.ofNat 32 (leNat ((bs.drop (4 * i)).take 4)) := rfl

theorem tdload_loads (s : State) (core : Nat) (j : Job) (b : Block) (x : Ctx) (va till : Nat) (stop : Option Nat) (bytes : List Byte)
    (hrun : s.dev.runningTile core = some (j, .dload va, 0, till, stop)) (hpos : 0 < till) (htill : till ≤ s.dev.clock)
    (hb : s.dev.block? j.block = some b) (hx : s.dev.ctx? j.ctx = some x) (hlen : bytes.length = 2048) (himage : ImageAt s core x va bytes) :
    ∃ t, exec (.tcvtStep core) s = .next t ∧ t.dev.job? j.id = none ∧ t.dev.mem = s.dev.mem ∧ t.dev.locmem = s.dev.locmem ∧
      (t.dev.engine core .tile).lut = (List.range 512).map fun i => BitVec.ofNat 32 (leNat ((bytes.drop (4 * i)).take 4)) := by
  obtain ⟨e, c, hread, hmem, hlocmem, -⟩ := image_reads himage j.id j.clock
  rw [hlen] at hread
  have hexec : exec (.tcvtStep core) s =
      .next { s with dev := (e.modEngine core .tile fun e => { e with lut := lanesOfBytes 512 bytes }).endTile core j c } := by
    change execTcvtStep core s = _
    rw [execTcvtStep, onDev, hrun]
    refine congrArg (fun d => Host.Outcome.next { s with dev := d }) ?_
    dsimp only
    rw [if_neg (by omega), hb, hx]
    dsimp only
    rw [hread]
  obtain ⟨hgone, htmem, htlocmem, hlut, -⟩ := endTile_fields (e.modEngine core .tile fun e => { e with lut := lanesOfBytes 512 bytes }) core j c
  refine ⟨_, hexec, hgone, htmem.trans hmem, htlocmem.trans hlocmem, hlut.trans ?_⟩
  rw [engine_modEngine e core .tile, ← lanesOfBytes_eq 512 bytes]

/-! ## The ends of table and select operations (R202, R219 to R223) -/

/-- A lane register takes an evaluation's values in the lanes that have one. -/
def putOut (out : List (Nat × Lane)) (r : LaneVec) : LaneVec := r.mapIdx fun l y => ((out.find? (·.1 == l)).map (·.2)).getD y

theorem getElem?_putOut {out : List (Nat × Lane)} {v : List LaneVec} {n r l : Nat} {x : Lane} (h : (v[r]?).bind (·[l]?) = some x) :
    ((v.modify n (putOut out))[r]?).bind (·[l]?) = some (if r = n then ((out.find? (·.1 == l)).map (·.2)).getD x else x) := by
  obtain ⟨row, hrow, hx⟩ := Option.bind_eq_some_iff.mp h
  rw [List.getElem?_modify, hrow, Option.map_eq_map, Option.map_some, Option.bind_some]
  by_cases hr : n = r
  · rw [if_pos hr, if_pos hr.symm, putOut, List.getElem?_mapIdx, hx, Option.map_some]
  · rw [if_neg hr, if_neg fun heq => hr heq.symm]
    exact hx

theorem ftevl_writes (s : State) (j : Job) (b : Block) (slot : Nat) (v : VReg) (args out : List (Nat × Lane)) (w : Wave) (hj : s.dev.job? j.id = some j)
    (hkind : j.kind = .fx (.ftevl slot v args) (some out)) (hb : s.dev.block? j.block = some b) (hx : (s.dev.ctx? j.ctx).isSome = true)
    (hw : s.dev.wave? j.wave = some w) :
    ∃ t w', exec (.fxOpComplete j.id) s = .next t ∧ t.dev.job? j.id = none ∧ t.dev.mem = s.dev.mem ∧ t.dev.locmem = s.dev.locmem ∧
      t.dev.wave? j.wave = some w' ∧ w'.m = w.m ∧ w'.strands = w.strands ∧ w'.doneFx = max w.doneFx j.clock ∧
      ∀ r l x, (w.v[r]?).bind (·[l]?) = some x → (w'.v[r]?).bind (·[l]?) =
        some (if r = v.toNat then ((out.find? (·.1 == l)).map (·.2)).getD x else x) := by
  obtain ⟨x, hctx⟩ := Option.isSome_iff_exists.mp hx
  have hexec : exec (.fxOpComplete j.id) s =
      .next { s with dev := (s.dev.modWave j.wave fun w => { w with v := w.v.modify v.toNat (putOut out) }).endFx b.core .table j j.clock } := by
    change execFxOpComplete j.id s = _
    rw [execFxOpComplete, onDev, hj]
    refine congrArg (fun d => Host.Outcome.next { s with dev := d }) ?_
    dsimp only
    rw [hkind, hb, hctx]
    rfl
  have hput := wave?_modWave_self (f := fun w : Wave => { w with v := w.v.modify v.toNat (putOut out) }) (fun _ => rfl) hw
  obtain ⟨hgone, hmem, hlocmem, -, hwave⟩ :=
    endFx_fields (s.dev.modWave j.wave fun w => { w with v := w.v.modify v.toNat (putOut out) }) b.core .table j j.clock
  exact ⟨_, _, hexec, hgone, hmem, hlocmem, hwave _ hput, rfl, rfl, rfl, fun r l x h => getElem?_putOut h⟩

/-- A slot of a table engine takes an image, or loses its own. -/
def putSlot (slot : Nat) (img : Option (List Byte)) (e : Engine) : Engine :=
  { e with slots := (match img with | some i => [(slot, i)] | none => []) ++ e.slots.filter (·.1 != slot) }

theorem find?_putSlot (slot : Nat) (img : Option (List Byte)) (e : Engine) :
    ((putSlot slot img e).slots.find? fun q => q.1 == slot) = img.map (fun i => (slot, i)) ∧
      ∀ n, n ≠ slot → ((putSlot slot img e).slots.find? fun q => q.1 == n) = e.slots.find? fun q => q.1 == n := by
  have hkept : (e.slots.filter (·.1 != slot)).find? (fun q => q.1 == slot) = none := List.find?_eq_none.mpr fun q hq => by
    have hne := (List.mem_filter.mp hq).2
    simpa using hne
  refine ⟨?_, fun n hn => ?_⟩
  · cases img with
    | none => exact hkept
    | some i => exact List.find?_cons_of_pos (beq_self_eq_true slot)
  · have hother : (e.slots.filter (·.1 != slot)).find? (fun q => q.1 == n) = e.slots.find? fun q => q.1 == n := by
      rw [List.find?_filter]
      refine congrArg (fun p => List.find? p e.slots) ?_
      funext q
      by_cases hq : q.1 = n <;> simp [hq, hn]
    cases img with
    | none => exact hother
    | some i => exact (List.find?_cons_of_neg (by simpa using fun h : slot = n => hn h.symm)).trans hother

theorem ftload_loads (s : State) (j : Job) (b : Block) (x : Ctx) (slot va : Nat) (out : List (Nat × Lane)) (bytes : List Byte)
    (hj : s.dev.job? j.id = some j) (hkind : j.kind = .fx (.ftload slot va) (some out)) (hb : s.dev.block? j.block = some b)
    (hx : s.dev.ctx? j.ctx = some x) (hlen : bytes.length = 4112) (himage : ImageAt s b.core x va bytes) :
    ∃ t, exec (.fxOpComplete j.id) s = .next t ∧ t.dev.job? j.id = none ∧ t.dev.mem = s.dev.mem ∧ t.dev.locmem = s.dev.locmem ∧
      ((t.dev.engine b.core .table).slots.find? fun q => q.1 == slot) = (if slotOk bytes then some (slot, bytes) else none) ∧
      ∀ n, n ≠ slot → ((t.dev.engine b.core .table).slots.find? fun q => q.1 == n) =
        ((s.dev.engine b.core .table).slots.find? fun q => q.1 == n) := by
  obtain ⟨e, c, hread, hmem, hlocmem, -, -, -, hengines⟩ := image_reads himage j.id j.clock
  rw [hlen] at hread
  generalize himg : (if slotOk bytes then some bytes else none) = img
  have hexec : exec (.fxOpComplete j.id) s = .next { s with dev := (e.modEngine b.core .table (putSlot slot img)).endFx b.core .table j c } := by
    change execFxOpComplete j.id s = _
    rw [execFxOpComplete, onDev, hj]
    refine congrArg (fun d => Host.Outcome.next { s with dev := d }) ?_
    dsimp only
    rw [hkind, hb, hx]
    dsimp only
    rw [hread, ← himg]
    rfl
  obtain ⟨hgone, htmem, htlocmem, hslots, -⟩ := endFx_fields (e.modEngine b.core .table (putSlot slot img)) b.core .table j c
  rw [engine_modEngine e b.core .table] at hslots
  have hsame : e.engine b.core .table = s.dev.engine b.core .table := by rw [Dev.engine, hengines, Dev.engine]
  obtain ⟨hown, hothers⟩ := find?_putSlot slot img (e.engine b.core .table)
  refine ⟨_, hexec, hgone, htmem.trans hmem, htlocmem.trans hlocmem, ?_, fun n hn => ?_⟩
  · rw [hslots, hown, ← himg]
    split <;> rfl
  · rw [hslots, hothers n hn, hsame]

/-! ### Select operations -/

/-- Elements have payloads of their size. -/
def Sized (f : SelFlags) (l : List (Lane × List Byte)) : Prop := ∀ x ∈ l, x.2.length = selSize f - 4

theorem selSize_cases (f : SelFlags) : selSize f = if f.pair then 8 else 4 := rfl

theorem four_le_selSize (f : SelFlags) : 4 ≤ selSize f := by
  rw [selSize_cases]
  split <;> omega

theorem length_elementBytes {f : SelFlags} {l : List (Lane × List Byte)} (h : Sized f l) : (elementBytes l).length = selSize f * l.length := by
  induction l with
  | nil => rfl
  | cons x l ih =>
    have hx := h x List.mem_cons_self
    have hrest := ih fun y hy => h y (List.mem_cons_of_mem x hy)
    have hsize := four_le_selSize f
    rw [elementBytes] at *
    rw [List.flatMap_cons, List.length_append, List.length_append, leBytes_length, hx, hrest, List.length_cons, Nat.mul_succ]
    omega

theorem sized_elementsOf (f : SelFlags) {n : Nat} {bs : List Byte} (h : bs.length = selSize f * n) :
    Sized f (elementsOf f n bs) ∧ (elementsOf f n bs).length = n := by
  refine ⟨fun x hx => ?_, by rw [elementsOf]; simp⟩
  obtain ⟨i, hi, rfl⟩ := List.mem_map.mp hx
  have hlt := List.mem_range.mp hi
  have hfits : selSize f * i + selSize f ≤ selSize f * n := by
    rw [← Nat.mul_succ]
    exact Nat.mul_le_mul_left _ hlt
  have hsize := four_le_selSize f
  dsimp only
  rw [List.length_take, List.length_drop, h]
  omega

theorem scanKeys_sized {f : SelFlags} {l : List (Lane × List Byte)} (h : Sized f l) (seen : List Lane) :
    Sized f (scanKeys f seen l) ∧ (scanKeys f seen l).length = l.length := by
  induction l generalizing seen with
  | nil => exact ⟨h, rfl⟩
  | cons y l ih =>
    obtain ⟨k, p⟩ := y
    rw [scanKeys]
    obtain ⟨hsized, hlength⟩ := ih (fun z hz => h z (List.mem_cons_of_mem _ hz)) (if f.seg && leNat p != 0 then [k] else seen ++ [k])
    refine ⟨fun z hz => ?_, by rw [List.length_cons, hlength, List.length_cons]⟩
    rcases List.mem_cons.mp hz with rfl | hz
    · exact h (k, p) List.mem_cons_self
    · exact hsized z hz

theorem sized_perm {f : SelFlags} {l m : List (Lane × List Byte)} (h : Sized f l) (hperm : m.Perm l) : Sized f m ∧ m.length = l.length :=
  ⟨fun x hx => h x (hperm.mem_iff.mp hx), hperm.length_eq⟩

/-- A select operation leaves at its destination what it makes of its elements. -/
theorem selectRun_writes {s : State} {j : Job} {b : Block} {da sa n m : Nat} {f : SelFlags} (hm : memOk s) (hp : s.dev.poison = [])
    (g : List (Lane × List Byte) → List (Lane × List Byte))
    (hg : ∀ l, Sized f l → l.length = n → Sized f (g l) ∧ (g l).length = m) :
    ∃ e, s.dev.selectRun b j da sa n f g = e ∧ e.job? j.id = none ∧ e.mem = s.dev.mem ∧
      (e.readLoc b.core .scratch (b.scratch.base + da) (selSize f * m)).1 =
        elementBytes (g (elementsOf f n (s.dev.readLoc b.core .scratch (b.scratch.base + sa) (selSize f * n)).1)) := by
  obtain ⟨y, u, hread, hy, -⟩ := readBuf_reads b.core .scratch hp (b.scratch.base + sa) (selSize f * n) j.clock
  have hsame : cellRead (s.dev.locCells b.core .scratch) (b.scratch.base + sa) (selSize f * n) =
      (s.dev.readLoc b.core .scratch (b.scratch.base + sa) (selSize f * n)).1 := rfl
  rw [hsame] at hread
  obtain ⟨hsized, hlength⟩ := sized_elementsOf f (n := n) (length_cellRead (s.dev.locCells b.core .scratch) (b.scratch.base + sa) (selSize f * n))
  rw [hsame] at hsized hlength
  generalize hl : elementsOf f n (s.dev.readLoc b.core .scratch (b.scratch.base + sa) (selSize f * n)).1 = l at hsized hlength ⊢
  obtain ⟨e, c, hwrite, hfilled, hcells, -⟩ := writeBuf_fills b.core .scratch y (b.scratch.base + da) u (elementBytes (g l))
  have hwf : y.cellsOk ∧ y.mem = s.dev.mem := by
    rw [hy]
    exact ⟨hm, rfl⟩
  obtain ⟨-, -, hmem, -, -, -⟩ := hfilled.fields
  obtain ⟨hgone, htmem, htlocmem, -, -⟩ := endFx_fields e b.core .select j c
  refine ⟨e.endFx b.core .select j c, ?_, hgone, htmem.trans (hmem.trans hwf.2), (readLoc_of htlocmem ..).trans ?_⟩
  · rw [Dev.selectRun]
    dsimp only
    rw [hread]
    dsimp only
    rw [hl, hwrite]
  · obtain ⟨hout, hcount⟩ := hg l hsized hlength
    rw [← hcount, ← length_elementBytes hout]
    exact readLoc_filled b.core .scratch hwf.1 hcells

/-- What a select operation's end makes of the device. -/
def selectEnded (d : Dev) (b : Block) (j : Job) : FxOp → Dev
  | .sort da sa n f => d.selectRun b j da sa n f (sortKeys (selBefore f))
  | .topk da sa n k f => d.selectRun b j da sa n f fun l => (sortKeys (selBefore f) l).take k
  | .scan da sa n f => d.selectRun b j da sa n f (scanKeys f [])
  | _ => d

theorem fxOpComplete_select {s : State} {j : Job} {b : Block} {o : FxOp} {out : List (Nat × Lane)} (hj : s.dev.job? j.id = some j)
    (hkind : j.kind = .fx o (some out)) (hb : s.dev.block? j.block = some b) (hx : (s.dev.ctx? j.ctx).isSome = true) (ho : o.engine = .select) :
    exec (.fxOpComplete j.id) s = .next { s with dev := selectEnded s.dev b j o } := by
  obtain ⟨x, hctx⟩ := Option.isSome_iff_exists.mp hx
  change execFxOpComplete j.id s = _
  rw [execFxOpComplete, onDev, hj]
  refine congrArg (fun d => Host.Outcome.next { s with dev := d }) ?_
  dsimp only
  rw [hkind, hb, hctx]
  cases o with
  | ftload _ _ => cases ho
  | ftevl _ _ _ => cases ho
  | _ => rfl

theorem sortKeys_sized {f : SelFlags} {n : Nat} (l : List (Lane × List Byte)) (hl : Sized f l) (hlen : l.length = n) :
    Sized f (sortKeys (selBefore f) l) ∧ (sortKeys (selBefore f) l).length = n := by
  obtain ⟨hsized, hlength⟩ := sized_perm hl (sortKeys_sorts f l).1
  exact ⟨hsized, hlength.trans hlen⟩

theorem take_sortKeys_sized {f : SelFlags} {n k : Nat} (hk : k ≤ n) (l : List (Lane × List Byte)) (hl : Sized f l) (hlen : l.length = n) :
    Sized f ((sortKeys (selBefore f) l).take k) ∧ ((sortKeys (selBefore f) l).take k).length = k := by
  obtain ⟨hsized, hlength⟩ := sortKeys_sized l hl hlen
  exact ⟨fun x hx => hsized x (List.mem_of_mem_take hx), by rw [List.length_take, hlength]; omega⟩

theorem select_completes (s : State) (j : Job) (b : Block) (da sa n k : Nat) (f : SelFlags) (out : List (Nat × Lane)) (hm : memOk s)
    (hj : s.dev.job? j.id = some j) (hb : s.dev.block? j.block = some b) (hx : (s.dev.ctx? j.ctx).isSome = true) (hp : s.dev.poison = []) :
    let size := if f.pair then 8 else 4
    let old := elementsOf f n (s.dev.readLoc b.core .scratch (b.scratch.base + sa) (size * n)).1
    let sorted := sortKeys (selBefore f) old
    k ≤ n → ∀ o m (l : List (Lane × List Byte)),
      (o, m, l) ∈ [(FxOp.sort da sa n f, n, sorted), (.topk da sa n k f, k, sorted.take k), (.scan da sa n f, n, scanKeys f [] old)] →
      j.kind = .fx o (some out) →
      ∃ t, exec (.fxOpComplete j.id) s = .next t ∧ t.dev.job? j.id = none ∧ t.dev.mem = s.dev.mem ∧
        (t.dev.readLoc b.core .scratch (b.scratch.base + da) (size * m)).1 = elementBytes l := by
  intro size old sorted hk o m l hop hkind
  simp only [List.mem_cons, Prod.mk.injEq, List.not_mem_nil, or_false] at hop
  rcases hop with ⟨rfl, rfl, rfl⟩ | ⟨rfl, rfl, rfl⟩ | ⟨rfl, rfl, rfl⟩
  · obtain ⟨e, heq, hgone, hmem, hread⟩ := selectRun_writes (j := j) (b := b) (da := da) (sa := sa) hm hp (sortKeys (selBefore f)) sortKeys_sized
    exact ⟨_, (fxOpComplete_select hj hkind hb hx rfl).trans (congrArg (fun d => Host.Outcome.next { s with dev := d }) heq), hgone, hmem, hread⟩
  · obtain ⟨e, heq, hgone, hmem, hread⟩ := selectRun_writes (j := j) (b := b) (da := da) (sa := sa) hm hp (fun l => (sortKeys (selBefore f) l).take m)
      (take_sortKeys_sized hk)
    exact ⟨_, (fxOpComplete_select hj hkind hb hx rfl).trans (congrArg (fun d => Host.Outcome.next { s with dev := d }) heq), hgone, hmem, hread⟩
  · obtain ⟨e, heq, hgone, hmem, hread⟩ := selectRun_writes (j := j) (b := b) (da := da) (sa := sa) hm hp (scanKeys f []) fun l hl hlen =>
      (scanKeys_sized hl []).imp_right fun h => h.trans hlen
    exact ⟨_, (fxOpComplete_select hj hkind hb hx rfl).trans (congrArg (fun d => Host.Outcome.next { s with dev := d }) heq), hgone, hmem, hread⟩

/-- Settles O36. A range without uncorrectable words is read as it stands and holds what is written; between its steps an operation
keeps its place at its engine's head. -/
theorem engineSteps : Obligations.EngineSteps := by
  refine ⟨tileOpStart_starts, ?_, tzero_zeroes, ?_, ?_, tdload_loads, ftevl_writes, ftload_loads, select_completes, scanKeys_sums, sortKeys_sorts⟩
  · intro s core j b w form f da aa ba mt nt kb ks tok pos till hm o hrun hpos htill hb hw hp two next adds start hhead
    obtain ⟨t, w', hexec, hmem, hacc, hwave, hrec, hend⟩ :=
      tileCommit_commits s core j b w form f da aa ba mt nt kb ks tok pos till hm hrun hpos htill hb hw hp hhead
    exact ⟨t, w', hexec, hmem, hacc, hwave, hrec, hend⟩
  · intro s core j b f ba da mt nt pos till sc stop hm o hrun hpos htill hb hx hp n hhead
    exact tcvt_converts s core j b f ba da mt nt pos till sc stop hm hrun hpos htill hb hx hp hhead
  · intro f sc a
    obtain ⟨hnan, hinf⟩ := cvtAcc_codes f sc a
    exact ⟨hnan, hinf, fun x hx => cvtAcc_rounds f sc hx⟩

end Sys2Proof.Proofs
end
